-- ==== Sys2Proof/Word.lean ====
section
/-! DEFINITION. The plainest types: byte strings and sparse tables.  A byte is a Nat below 256; a register's value is a Nat in its entry's
width (its bytes read big-endian, R84). -/

namespace Sys2Proof

/-- A string of bytes, first byte first. -/
abbrev Bytes := List Nat

/-- A sparse table: keys strictly rising, and no value that is the table's default (`Machine/Bits.lean`). -/
abbrev Tbl (α : Type) := List (Nat × α)

end Sys2Proof
end

