-- ==== Sys2Proof/Syntax.lean ====
section
/-! DEFINITION. The commands: one constructor per row of spec/opcode_table.json, with its operands.  The first operand of every
command is the moment it happens, in nanoseconds of the stamp timebase (R14).  Before `Instr` stand the operand structures: what a
datagram, a descriptor, an image or a message carries. -/

namespace Sys2Proof

/-- A switchable function (R32's list), named by what spec/ numbers it with: power domain 0-79 (R26; channel c
is domain 18c + 16, R27), Ethernet port, Dernyx link, channel seal, hub counter, channel counter, trace
capture, Slaisk window index. -/
inductive FnId where
  | dom (n : Nat)
  | port (p : Nat)
  | link (n : Nat)
  | seal (c : Nat)
  | hubMon (k : Nat)
  | chMon (c k : Nat)
  | trace
  | window (i : Nat)
  deriving DecidableEq, Repr

/-- One reading of the package's sensors (R23, R25, R46): the three F32 entries as their 32 bits, the 100 us mean of the input
power in milliwatts, and the die and HBM temperatures in degrees Celsius, one byte each. -/
structure Sensors where
  volt : Nat
  amp : Nat
  powBits : Nat
  powMw : Nat
  die : List Nat
  hbm : List Nat
  deriving DecidableEq, Repr

/-- What a Welrid datagram's transport and header say (R72-R75, R90): the port and the source address it came from,
whether its length suits its header (R72), whether a reserved bit or byte of the header is set, its protected
flag, association and sequence, whether its tag verifies under the association's key (an input: R75),
whether the non-volatile store accepts the write it makes (R97, STORE_FAULT), the header's two version bytes (R11), whether its type is
reserved (R74), the address and the UDP port it was sent to (R72), and the VLAN identifier of its frame's tag, 0 without one (R373). -/
structure WEnv where
  port : Nat
  src : Nat
  sizeOk : Bool
  resv : Bool
  prot : Bool
  assoc : Nat
  seq : Nat
  tagOk : Bool
  storeOk : Bool
  version : Nat := 1
  minVersion : Nat := 1
  badType : Bool := false
  loc : Nat := 0
  udp : Nat := 48111
  vid : Nat := 0
  deriving DecidableEq, Repr

/-- One item of a WRITE (spec/03, item layouts): address (index * 256 + sub-index), type code, length and the value, its
bytes read big-endian (R84). -/
structure WItem where
  addr : Nat
  typ : Nat
  len : Nat
  val : Nat
  deriving DecidableEq, Repr

/-- One item of a READ: address, the describe flag, and whether a reserved flag bit is set. -/
structure RItem where
  addr : Nat
  describe : Bool
  resv : Bool
  deriving DecidableEq, Repr

/-- A pick or barrier message between warp devices (R51). -/
structure PickMsg where
  version : Nat
  minVersion : Nat
  flags : Nat
  align : Nat
  pick : Nat
  accum : Nat
  hops : Nat
  root : Nat
  barrier : Nat
  deriving DecidableEq, Repr

/-- A host pick message (R50), and the VLAN identifier of its frame (R373). -/
structure HostPick where
  version : Nat
  minVersion : Nat
  typ : Nat
  flags : Nat
  resv : Nat
  pick : Nat
  tag : Nat
  vid : Nat := 0
  deriving DecidableEq, Repr

/-- One WRITE_BLOCK segment (R93): address, offset, total size, the FIRST and LAST flags, whether another flag or reserved
bit is set, and the segment's bytes. -/
structure WBlk where
  addr : Nat
  off : Nat
  total : Nat
  first : Bool
  last : Bool
  resv : Bool
  data : List Nat
  deriving DecidableEq, Repr

/-- How a page move's copy ended (R190, R194, R127, R237): every check passed, after n re-reads; a block or sidecar part failed all three
re-reads; the tag failed; the version differs from the one recorded; or the transfer failed. -/
inductive MoveEnd where
  | ok (reread : Nat)
  | crcLost
  | tagBad
  | versionBad
  | failed
  deriving DecidableEq, Repr

/-- A session text context (R303): the grammar stack, bottom first, the held bytes, the tail of rendered bytes and the bytes delivered. -/
structure TextCtx where
  stack : List Nat := []
  held : List Nat := []
  tail : List Nat := []
  delivered : Nat := 0
  deriving DecidableEq, Repr

/-- One token's keys and values in a KV page: element codes in the order of R244 (head by head is the page's layout; here all keys, then all
values, each kv_heads × head_dim) and scale bytes. -/
structure KvTok where
  codes : List Nat
  scales : Bytes
  deriving DecidableEq, Repr

/-- A page as a migration or a checkpoint carries it (R424, R451): its logical page number, the tier it was in, its token count, version and touch,
a KV page's tokens and cairn, whether it is poisoned, absent or hot, and whether its tag and header verify. -/
structure CkPage where
  lpn : Nat
  tier : Nat
  count : Nat
  ver : Nat
  touch : Nat
  kv : List KvTok := []
  cairn : Bytes := []
  poisoned : Bool := false
  absent : Bool := false
  hot : Bool := false
  ok : Bool := true
  /-- How a deep or far copy is encrypted (R126). -/
  epoch : Nat := 0
  nonce : Nat := 0
  writer : Nat := 0
  deriving DecidableEq, Repr

/-- A record of EXPORT as IMPORT reads it (R204, R205): the header's fields, whether the header frame's tag and digest and every frame's header and
tag verify, and what the frames hold: the token log, the KV pages present, and the text context. -/
structure XRec where
  ok : Bool
  content : Nat
  policy : Nat
  domain : Nat
  model : Nat
  prio : Nat
  handle : Nat
  length : Nat
  sver : Nat
  frames : Nat
  grammar : Nat
  stop : Nat
  sampling : Nat
  gstate : Nat
  meas : Nat
  tokens : List Nat
  pages : List CkPage
  ctx : TextCtx
  /-- The writer that its frames' headers name (R126). -/
  writer : Nat := 0
  deriving DecidableEq, Repr

/-- A command descriptor (spec/05): its fields, and whether bytes 48-63 are zero. -/
structure Desc where
  opcode : Nat
  version : Nat
  minVersion : Nat
  seq : Nat
  flags : Nat
  count : Nat
  session : Nat
  dataRef : Nat
  dataLen : Nat
  grammar : Nat
  stopSet : Nat
  sampling : Nat
  /-- The whole 8-byte field: deadline, priority, priority_set and reserved bits. -/
  deadline : Nat
  tailZero : Bool
  deriving DecidableEq, Repr

/-- A ring: of a session slot (channel * 2^18 + slot), or a domain's control ring. -/
inductive RingId where
  | sess (k : Nat)
  | dom (d : Nat)
  deriving DecidableEq, Repr

/-- The ring exists (R139, R5). -/
def RingId.exists : RingId → Bool
  | .sess k => decide (k < 1048576)
  | .dom d => decide (d < 4096)

/-- One tensor of a model image's tensor table (spec/07). -/
structure Tensor where
  off : Nat
  len : Nat
  fmt : Nat
  mode : Nat
  axis : Nat
  layer : Nat
  rows : Nat
  cols : Nat
  resv : Bool
  deriving DecidableEq, Repr

/-- One pattern of a model image (R216, R217): the fields of its image, whether its table entry and reserved fields agree, whether its digest
matches, and whether every route stays within its footprint. -/
structure PatImg where
  id : Nat
  version : Nat
  minVersion : Nat
  footprint : Nat
  flags : Nat
  minLanes : Nat
  progLen : Nat
  routeLen : Nat
  resv : Bool
  digest : Nat
  digestOk : Bool
  routesOk : Bool
  deriving DecidableEq, Repr

/-- A model image as MODEL_LOAD reads it (spec/07): the header's fields, the tables, whether a reserved field or a table's place is wrong, whether
the body digest matches, and the whole image's SHAKE256 (the kind-3 measurement, R115). -/
structure ModelImg where
  version : Nat
  minVersion : Nat
  resv : Bool
  hdrLen : Nat
  imgLen : Nat
  layers : Nat
  qHeads : Nat
  kvHeads : Nat
  headDim : Nat
  hidden : Nat
  vocabEntries : Nat
  block : Nat
  kvFmt : Nat
  placements : Nat
  kvPayload : Nat
  kvScales : Nat
  patterns : List PatImg
  tensors : List Tensor
  weightsOff : Nat
  weightsLen : Nat
  vocabDigest : Nat
  bodyOk : Bool
  digest : Nat
  deriving DecidableEq, Repr

/-- What MODEL_LOAD's reading of its image brings (R231): the bytes, of which step 1 reads the header and tables; the end of the reading and of the placing of
weights and patterns (steps 3 to 6); or a failed transfer. -/
inductive ImgArrive where
  | tables (b : Bytes)
  | whole
  | lost
  deriving DecidableEq, Repr

/-- One operand of the matrix unit's dot product (R221): its format and scale mode, its scales (one per block of 32 for MX32, the tensor's or the row's otherwise)
and its element codes. -/
structure MatOp where
  code : Nat
  mode : Nat
  scales : List Nat
  elems : List Nat
  deriving DecidableEq, Repr

/-- One (unit, query head, position) triple of an attention instance (R254): the session, the query head and the position, the lane that receives the result, and
the pages that retrieval selected for the session. -/
structure Triple where
  k : Nat
  head : Nat
  pos : Nat
  tile : Nat
  hot : List Nat
  deriving DecidableEq, Repr

/-- What the fabric does while a step runs (spec/07, spec/08), in the order it happens. -/
inductive FabEv where
  /-- The last lane of a model's instance on group g reaches its switch point (R215): to a pattern, or with a vote to it or another. -/
  | switch (c g m pat : Nat) (vote : Option (Nat × List Bool))
  /-- A tile's matrix unit takes a dot product (R221). -/
  | dot (c tile : Nat) (a b : MatOp)
  /-- A tile converts FP32 values to a format under the pattern that a model's instance runs there (R222, R224). -/
  | convert (c tile m code : Nat) (vs : List Nat)
  /-- A single-bit SRAM error is corrected on read (R213). -/
  | sramFixed (c tile : Nat)
  /-- An exchange pattern has n KiB to send on channel c's port; n KiB that it sent have been taken (R234). -/
  | exchange (c m n : Nat)
  | exchanged (c n : Nat)
  /-- An attention instance on group g of channel c asks for its accumulators (R254, R255): the model, the layer, whether results are BF16, and its triples. -/
  | attend (c g m layer : Nat) (half : Bool) (ts : List Triple)
  /-- A lane has the scores and values of the visible tokens of run `run` of an accumulator (R254): it emits its partial record. -/
  | emit (c tile acc run : Nat) (sv : List (Nat × List Nat))
  /-- A tile sends the beat at the front of its output buffer to an input of its reed; a reed takes one from an input (R256). -/
  | beat (c tile input : Nat)
  | fold (c reed input : Nat)
  deriving DecidableEq, Repr

/-- How the page reads of a chunk went (R194): the logical page numbers whose reads failed every re-read, and the re-reads that were made for the others; and the
events of the fabric until the chunk ended (log 170). -/
structure Reads where
  lost : List Nat := []
  rereads : Nat := 0
  fab : List FabEv := []
  deriving DecidableEq, Repr

/-- What the fabric delivers for one batch row (R274): per target position and per draft pass the logits (FP32 bits, one per vocabulary entry); whether a mask was late; the
logical page numbers that retrieval selected; the logical page numbers whose reads failed every re-read; per input
position and layer, the keys and values of the target and of the draft; and the re-reads after which a read passed. -/
structure RowOut where
  k : Nat
  target : List (List Nat)
  draft : List (List Nat)
  late : Bool
  hot : List Nat
  lost : List Nat
  kv : List (List (List Nat))
  dkv : List (List (List Nat))
  rereads : Nat := 0
  deriving DecidableEq, Repr

/-- What a sub-request asks another device for (R333): the operation, flags and key type of the SELECT, its k and parameter, and the run's
flow, region key, offset and elements. -/
structure SubQ where
  op : Nat
  flags : Nat
  ty : Nat
  k : Nat
  param : Nat
  flow : Nat
  key : Nat
  off : Nat
  n : Nat
  deriving DecidableEq, Repr

/-- A partial result (R333, R336): the elements listed, each index and key, in order; the tied_total of the run; its k-th key's bits where it
has one; its valid, invalid and left-out figures.  `ok` is false where the sub-request failed. -/
structure PartRes where
  ok : Bool
  elems : List (Nat × Nat)
  tied : Nat
  kth : Option Nat
  valid : Nat
  invalid : Nat
  left : Nat
  deriving DecidableEq, Repr


/-- A received Slaisk packet (R378): the port it came on, whether it came from its flow's remote address and UDP port, the header's fields,
whether a reserved bit or opcode is set, the payload (decrypted), whether the CRC matches, whether the protected flag is
set and whether the tag verifies under the flow's key (inputs: R385, R386), and the VLAN identifier of its frame (R373). -/
structure SPkt where
  port : Nat
  srcOk : Bool
  version : Nat
  minVersion : Nat
  resv : Bool
  flow : Nat
  psn : Nat
  first : Bool
  last : Bool
  ackReq : Bool
  ackValid : Bool
  ackPsn : Nat
  syndrome : Nat
  target : Nat
  offset : Nat
  domain : Nat
  parity : Nat
  aux : Nat
  data : Bytes
  crcOk : Bool
  prot : Bool
  tagOk : Bool
  vid : Nat := 0
  deriving DecidableEq, Repr

/-- A PTP message on a port (R377): its PTP domain, whether it is a Sync or Follow_Up that carries the master's time of an event (ns), the offset and
path delay that the clock computes from the exchange, whether it locks the clock, and the VLAN identifier of its frame (R373). -/
structure PtpMsg where
  domain : Nat
  masterNs : Nat
  localNs : Nat
  offset : Int
  delay : Nat
  lock : Bool
  vid : Nat := 0
  deriving DecidableEq, Repr

/-- An ARP, Neighbor Discovery or ICMP echo message (R372): the VLAN it came with, the address it asks for or is sent to, where
its answer goes, whether it is a request, whether it is a fragment or carries IP options, and its data. -/
structure IpMsg where
  vid : Nat
  target : Nat
  sender : Nat
  v6 : Bool
  request : Bool
  odd : Bool
  data : Bytes
  deriving DecidableEq, Repr

/-- The envelope of a message between warp devices (R416, R422-R426): the link it came on, its originating device, its domain, its message id
and aux, the epoch parity and nonce counter of a protected message, whether its tag verifies (an input), and the header's two version numbers (R11). -/
structure DEnv where
  link : Nat
  src : Nat
  dom : Nat
  mid : Nat
  aux : Nat
  parity : Nat
  counter : Nat
  tagOk : Bool
  version : Nat := 1
  minVersion : Nat := 1
  deriving DecidableEq, Repr

/-- One session that a pipeline stage's activations are for (R437): its handle, and its length when their step ends. -/
structure StageRow where
  handle : Nat
  len : Nat
  deriving DecidableEq, Repr

/-- What the peer's training block says, and the one-way delay measured (R413-R415). -/
structure TrainBlk where
  vmax : Nat
  vmin : Nat
  link : Nat
  device : Nat
  warp : Nat
  identity : Nat
  delay : Nat
  deriving DecidableEq, Repr

/-- A flit as it is received (R416): header and trailer fields, the payload, and whether the CRC passes. -/
structure Flit where
  vc : Nat
  dst : Nat
  src : Nat
  typ : Nat
  first : Bool
  last : Bool
  prot : Bool
  parity : Nat
  hops : Nat
  seq : Nat
  ackSeq : Nat
  ackValid : Bool
  nak : Bool
  crVc : Nat
  crClass : Nat
  crTotal : Nat
  crcOk : Bool
  pay : Bytes
  deriving DecidableEq, Repr

/-- The session summary of MIGRATE_RESERVE (R435). -/
structure MigSum where
  dom : Nat
  meas : Nat
  near : Nat
  deep : Nat
  far : Nat
  deriving DecidableEq, Repr

/-- A session's entry and text context, with its token log and pages, as a migration or a checkpoint carries it (R435, R450): the states are in
code order of spec/05. -/
structure CkSess where
  handle : Nat
  st : Nat
  prior : Nat
  dom : Nat
  prio : Nat
  meas : Nat
  length : Nat
  ttl : Nat
  since : Nat
  sver : Nat
  grammar : Nat
  stop : Nat
  sampling : Nat
  gstate : Nat
  charged : Nat
  slate : Bool
  generated : Bool
  kvLen : Nat
  draftLen : Nat
  policy : Nat
  tokens : List Nat
  ctx : TextCtx
  pages : List CkPage
  deriving DecidableEq, Repr


/-- A checkpoint control message (R454): its fields, min_version among them (R51, R11). -/
structure CkMsg where
  src : Nat
  slot : Nat
  cause : Nat := 0
  p : Nat
  r : Nat := 0
  filter : Nat := 0
  digest : Nat := 0
  off : Nat := 0
  len : Nat := 0
  restored : Nat := 0
  unrestored : Nat := 0
  map : List Nat := []
  minVersion : Nat := 1
  deriving DecidableEq, Repr

/-- One member of a commit record (R452): device, manifest length, offset and region key, identity digest and manifest digest. -/
structure CkMember where
  dev : Nat
  len : Nat
  off : Nat
  key : Nat
  identity : Nat
  digest : Nat
  deriving DecidableEq, Repr

/-- A commit record as the commit area holds it (R452, R458): its fields, the SHAKE256 of the key it carries, and whether its signature verifies under that key. -/
structure CkCommit where
  slot : Nat
  warp : Nat
  p : Nat
  coord : Nat
  members : List CkMember
  minVersion : Nat := 1
  keyDigest : Nat
  sigOk : Bool
  deriving DecidableEq, Repr

/-- One record of a collection (R351): identifier, list, tags, born, died, norm and codes (bytes). -/
structure VRec where
  id : Nat
  list : Nat
  tags : Nat
  born : Nat
  died : Nat
  norm : Nat
  codes : List Nat
  deriving DecidableEq, Repr

/-- A collection's content (R347-R351): distance, channel mask, dimension, lists, capacity, scales, offsets, stored centroids (norm and codes), records. -/
structure CollData where
  dist : Nat := 0
  mask : Nat := 0
  dim : Nat := 0
  lists : Nat := 0
  capacity : Nat := 0
  scales : List Nat := []
  offs : List Nat := []
  cents : List (Nat × List Nat) := []
  recs : List VRec := []
  deriving DecidableEq, Repr

/-- A domain's ledger in a DOMAIN shard (R450, R463): refilled, charged, adjusted, balance. -/
structure CkLedger where
  refilled : Nat
  charged : Nat
  adjusted : Int
  balance : Int
  deriving DecidableEq, Repr

/-- What a shard holds (R450): sessions with the pages of its PAGES shards; a domain's ledger, stop sets, profiles, and grammar handles with the
digests of their images; or a collection with its identifier. -/
inductive CkItem where
  | session (x : CkSess)
  | domain (l : CkLedger) (stops profs : List (Nat × Bytes)) (grammars : List (Nat × Nat))
  | collection (id : Nat) (c : CollData)
  deriving DecidableEq, Repr

/-- A shard (R450, R451, R459): the header's fields, the domain and the digest of its manifest entry, the digest of what was read, whether the section's tag verifies,
and its items. -/
structure CkShard where
  dom : Nat
  source : Nat
  slot : Nat
  p : Nat
  warp : Nat
  epoch : Nat
  minVersion : Nat := 1
  entryDom : Nat
  entryDigest : Nat
  digest : Nat
  tagOk : Bool
  items : List CkItem
  deriving DecidableEq, Repr

/-- A manifest as read (R452, R459): its device, its slot, P, warp and identity, its digest, the SHAKE256 of its key, whether its signature verifies under that key,
the domains its channels were sealed to, and the shards it names. -/
structure CkManifest where
  dev : Nat
  slot : Nat
  p : Nat
  warp : Nat
  identity : Nat
  digest : Nat
  minVersion : Nat := 1
  keyDigest : Nat
  sigOk : Bool
  seals : List Nat
  shards : List CkShard
  deriving DecidableEq, Repr

/-- What the fabric delivers when a decode phase commits (R274, R279): what it has for each batch row, and its events until then (log 170). -/
structure PhaseOut where
  rows : List RowOut
  fab : List FabEv := []
  deriving DecidableEq, Repr

/-- An ACTIVATION as it arrives (R437): its envelope and its body (log 95). -/
structure ActMsg where
  env : DEnv
  rows : List StageRow := []
  deriving DecidableEq, Repr

/-- How a control message comes in: its link, and the least version in its header (R11). -/
structure Via where
  link : Nat
  minVersion : Nat := 1
  deriving DecidableEq, Repr

/-- The commands of the KB480 as a block: one per row of the table (the rule each follows is named). -/
inductive Instr where
  /-- PRECHARGE_START (R37). -/
  | prechargeStart (t : Nat)
  /-- BUS_CHARGED (R37). -/
  | busCharged (t : Nat)
  /-- BOOT_COMPLETE (R38). -/
  | bootComplete (t : Nat) (spd : List Nat)
  /-- INPUT_EXCURSION_END (R19). -/
  | inputExcursionEnd (t : Nat) (dur stay : Nat)
  /-- EXCURSION_TIMEOUT (R19). -/
  | excursionTimeout (t : Nat)
  /-- COLLAPSE_TIMEOUT (R19). -/
  | collapseTimeout (t : Nat)
  /-- CURRENT_LIMIT_TICK (R22). -/
  | currentLimitTick (t : Nat) (milliamps : Nat)
  /-- THROTTLE_EVALUATE (R23). -/
  | throttleEvaluate (t : Nat) (sn : Sensors)
  /-- THERMAL_TRIP (R24). -/
  | thermalTrip (t : Nat)
  /-- HBM_REFRESH_DOUBLING (R25). -/
  | hbmRefreshDoubling (t : Nat) (stack temp : Nat)
  /-- SURPRISE_REMOVAL (R43). -/
  | surpriseRemoval (t : Nat)
  /-- FORCE_OFF_ASSERT (R44). -/
  | forceOffAssert (t : Nat)
  /-- FORCE_OFF_RELEASE (R44). -/
  | forceOffRelease (t : Nat)
  /-- PACKAGE_RESET (R45). -/
  | packageReset (t : Nat) (w : WEnv)
  /-- REMOVE_REQUEST (R40). -/
  | removeRequest (t : Nat) (w : WEnv)
  /-- REMOVE_REQUEST_SKIP (R41). -/
  | removeRequestSkip (t : Nat) (w : WEnv)
  /-- REMOVE_REQUEST_CANCEL (R42). -/
  | removeRequestCancel (t : Nat) (w : WEnv)
  /-- DRAIN_TIMEOUT (R41). -/
  | drainTimeout (t : Nat)
  /-- DRAIN_COMPLETE (R40). -/
  | drainComplete (t : Nat)
  /-- CHPOWER_REQUEST (R32). -/
  | chpowerRequest (t : Nat) (w : WEnv) (k v : Nat)
  /-- HUB_POWER_REQUEST (R31). -/
  | hubPowerRequest (t : Nat) (w : WEnv) (k v : Nat)
  /-- FUNCTION_START_COMPLETE (R33). -/
  | functionStartComplete (t : Nat) (f : FnId) (bad : List Nat)
  /-- FUNCTION_START_FAIL (R33). -/
  | functionStartFail (t : Nat) (f : FnId)
  /-- FUNCTION_STOP_COMPLETE (R33). -/
  | functionStopComplete (t : Nat) (f : FnId)
  /-- PICK_CONTACT_EDGE (R49). -/
  | pickContactEdge (t : Nat) (width low : Nat)
  /-- PICK_STUCK_INPUT (R49). -/
  | pickStuckInput (t : Nat)
  /-- HOST_PICK_MESSAGE (R50). -/
  | hostPickMessage (t : Nat) (port : Nat) (m : HostPick)
  /-- PICK (R51). -/
  | pick (t : Nat) (link : Nat) (m : PickMsg)
  /-- LOST (R60). -/
  | lost (t : Nat) (link : Nat) (m : PickMsg)
  /-- PICK_SOURCE_WRITE (R52). -/
  | pickSourceWrite (t : Nat) (w : WEnv) (v : Nat)
  /-- PICK_ACTION_POINT (R266). -/
  | pickActionPoint (t : Nat)
  /-- PICK_MISS_TIMEOUT (R60). -/
  | pickMissTimeout (t : Nat)
  /-- HOLDOVER_PICK_DUE (R60). -/
  | holdoverPickDue (t : Nat)
  /-- BARRIER_AT_WRITE (R68). -/
  | barrierAtWrite (t : Nat) (w : WEnv) (p : Nat)
  /-- BARRIER_REQUEST (R68). -/
  | barrierRequest (t : Nat) (link dev : Nat) (m : PickMsg)
  /-- BARRIER_DONE (R68). -/
  | barrierDone (t : Nat) (link dev : Nat) (m : PickMsg)
  /-- BARRIER_TIMEOUT (R69). -/
  | barrierTimeout (t : Nat)
  /-- BARRIER_MESSAGE_RESEND (R423). -/
  | barrierMessageResend (t : Nat)
  /-- HELLO_OFFER (R76). -/
  | helloOffer (t : Nat) (w : WEnv) (vmax vmin role nonce : Nat)
  /-- HELLO_KEY (R77). -/
  | helloKey (t : Nat) (w : WEnv) (ct proof : Nat)
  /-- HELLO_BYE (R79). -/
  | helloBye (t : Nat) (w : WEnv) (reason : Nat)
  /-- HELLO_TIMEOUT (R78). -/
  | helloTimeout (t : Nat) (assoc : Nat)
  /-- HELLO_THROTTLE_EXPIRE (R78). -/
  | helloThrottleExpire (t : Nat)
  /-- ASSOCIATION_IDLE_TIMEOUT (R79). -/
  | associationIdleTimeout (t : Nat) (assoc : Nat)
  /-- READ (R85). -/
  | read (t : Nat) (w : WEnv) (items : List RItem)
  /-- REGISTER_WRITE (R86). -/
  | registerWrite (t : Nat) (w : WEnv) (items : List WItem)
  /-- READ_BLOCK (R92). -/
  | readBlock (t : Nat) (w : WEnv) (addr off len : Nat)
  /-- WRITE_BLOCK (R93). -/
  | writeBlock (t : Nat) (w : WEnv) (b : WBlk)
  /-- SNAPSHOT_EXPIRE (R92). -/
  | snapshotExpire (t : Nat) (assoc : Nat)
  /-- BLOCK_TRANSFER_IDLE (R93). -/
  | blockTransferIdle (t : Nat) (addr : Nat)
  /-- ROLE_SECRET_WRITE (R82). -/
  | roleSecretWrite (t : Nat) (w : WEnv) (role secret : Nat)
  /-- RESTORE_DEFAULTS (R97). -/
  | restoreDefaults (t : Nat) (w : WEnv) (v : Nat)
  /-- FW_IMAGE_WRITE (R108). -/
  | fwImageWrite (t : Nat) (w : WEnv) (b : WBlk)
  /-- FW_SVN_COMMIT (R109). -/
  | fwSvnCommit (t : Nat) (w : WEnv) (v : Nat)
  /-- FW_CONFIRM (R107). -/
  | fwConfirm (t : Nat) (w : WEnv) (v : Nat)
  /-- ATTEST_NONCE_WRITE (R116). -/
  | attestNonceWrite (t : Nat) (w : WEnv) (nonce : Nat)
  /-- ATTEST_CERT_READY (R117). -/
  | attestCertReady (t : Nat) (d : Nat)
  /-- CAPSULE_TIMEOUT (R116). -/
  | capsuleTimeout (t : Nat) (d : Nat)
  /-- KEY_CAPSULE_WRITE (R120). -/
  | keyCapsuleWrite (t : Nat) (w : WEnv) (b : WBlk)
  /-- EPOCH_OVERLAP_EXPIRE (R122). -/
  | epochOverlapExpire (t : Nat) (d : Nat)
  /-- KEY_ERASE (R123). -/
  | keyErase (t : Nat) (w : WEnv) (v : Nat)
  /-- DSEC_CLASS_WRITE (R128). -/
  | dsecClassWrite (t : Nat) (w : WEnv) (v : Nat)
  /-- TILE_GROUPS_WRITE (R129). -/
  | tileGroupsWrite (t : Nat) (w : WEnv) (v : Nat)
  /-- SEAL_REQUEST (R132). -/
  | sealRequest (t : Nat) (w : WEnv) (c v : Nat)
  /-- SEAL_STARTING_COMPLETE (R133). -/
  | sealStartingComplete (t : Nat) (c : Nat)
  /-- SEAL_STOPPING_COMPLETE (R135). -/
  | sealStoppingComplete (t : Nat) (c : Nat)
  /-- OPEN (R151). -/
  | openSession (t : Nat) (k : Nat)
  /-- APPEND (R299). -/
  | append (t : Nat) (k : Nat)
  /-- GENERATE (R152). -/
  | generate (t : Nat) (k : Nat)
  /-- PARK (R200). -/
  | park (t : Nat) (k : Nat)
  /-- REVIVE (R202). -/
  | revive (t : Nat) (k : Nat)
  /-- CONDENSE (R197). -/
  | condense (t : Nat) (k : Nat)
  /-- EXPORT (R204). -/
  | exportSession (t : Nat) (k : Nat)
  /-- IMPORT (R205). -/
  | importSession (t : Nat) (k : Nat) (x : Option XRec)
  /-- QUERY (R153). -/
  | query (t : Nat) (k : Nat)
  /-- CLOSE (R148). -/
  | close (t : Nat) (k : Nat)
  /-- TRUNCATE (R471). -/
  | truncate (t : Nat) (k : Nat)
  /-- DEADLINE_EXPIRE (R156). -/
  | deadlineExpire (t : Nat) (r : RingId)
  /-- PARK_PICK_REACHED (R196). -/
  | parkPickReached (t : Nat) (k : Nat)
  /-- DEEP_TTL_EXPIRE (R197). -/
  | deepTtlExpire (t : Nat) (k : Nat)
  /-- SLATE_TTL_EXPIRE (R199). -/
  | slateTtlExpire (t : Nat) (k : Nat)
  /-- FAR_TTL_EXPIRE (R201). -/
  | farTtlExpire (t : Nat) (k : Nat)
  /-- SESSION_MOVE_COMPLETE (R145). -/
  | sessionMoveComplete (t : Nat) (k : Nat)
  /-- REVIVAL_COMPLETE (R202). -/
  | revivalComplete (t : Nat) (k : Nat)
  /-- CLOSING_COMPLETE (R145). -/
  | closingComplete (t : Nat) (k : Nat)
  /-- COMPLETION_RECORD_RELEASE (R157). -/
  | completionRecordRelease (t : Nat) (d : Nat)
  /-- GENERATE_STREAM_RECORD (R158). -/
  | generateStreamRecord (t : Nat) (k : Nat)
  /-- NOTIFY_FLOW_WRITE (R157). -/
  | notifyFlowWrite (t : Nat) (w : WEnv) (v : Nat)
  /-- BACKGROUND_EVICTION (R184). -/
  | backgroundEviction (t : Nat) (c tier : Nat)
  /-- PAGE_MOVE_SWITCH (R190). -/
  | pageMoveSwitch (t : Nat) (k lpn : Nat) (v : MoveEnd)
  /-- FRAME_LEASE_RELEASE (R251). -/
  | frameLeaseRelease (t : Nat) (c tier frame : Nat)
  /-- FRAME_TEST_COMPLETE (R195). -/
  | frameTestComplete (t : Nat) (c tier frame : Nat) (bad : List Nat)
  /-- ALLOC_GRACE_EXPIRE (R189). -/
  | allocGraceExpire (t : Nat) (k : Nat)
  /-- FENCE_CLEAR (R211). -/
  | fenceClear (t : Nat) (w : WEnv) (v : Nat)
  /-- TILE_ERROR (R212). -/
  | tileError (t : Nat) (c tile : Nat) (ks : List Nat)
  /-- PATTERN_LOAD_COMPLETE (R216). -/
  | patternLoadComplete (t : Nat) (c g model pat : Nat)
  /-- MODEL_LOAD (R231). -/
  | modelLoad (t : Nat) (d : Nat) (x : ImgArrive)
  /-- MODEL_UNLOAD (R233). -/
  | modelUnload (t : Nat) (d : Nat)
  /-- TRACKER_OP_TIMEOUT (R237). -/
  | trackerOpTimeout (t : Nat) (c : Nat) (op : Nat)
  /-- MASK_COMPLETE (R314). -/
  | maskComplete (t : Nat) (k pos : Nat)
  /-- DECODE_PHASE_COMMIT (R279). -/
  | decodePhaseCommit (t : Nat) (out : PhaseOut)
  /-- PREFILL_CHUNK_START (R270). -/
  | prefillChunkStart (t : Nat) (k : Nat)
  /-- PREFILL_CHUNK_COMMIT (R283). -/
  | prefillChunkCommit (t : Nat) (k : Nat) (kv : List (List (List Nat))) (reads : Reads)
  /-- BUDGET_GRACE_EXPIRE (R288). -/
  | budgetGraceExpire (t : Nat) (k : Nat)
  /-- BUDGET_ADJUST (R285). -/
  | budgetAdjust (t : Nat) (w : WEnv) (v : Nat)
  /-- DRAFT_SLOT_WRITE (R275). -/
  | draftSlotWrite (t : Nat) (w : WEnv) (v : Nat)
  /-- SAMPLING_DEFINE (R280). -/
  | samplingDefine (t : Nat) (d : Nat) (rec : Option Bytes)
  /-- VOCAB_LOAD (R293). -/
  | vocabLoad (t : Nat) (d : Nat) (img : Option Bytes)
  /-- GRAMMAR_LOAD (R309). -/
  | grammarLoad (t : Nat) (d : Nat) (img : Option Bytes)
  /-- STOPSET_DEFINE (R305). -/
  | stopsetDefine (t : Nat) (d : Nat) (rec : Option Bytes)
  /-- SELECT (R337). -/
  | select (t : Nat) (d : Nat) (rec : Option Bytes)
  /-- SELECT_ROW_COMPLETE (R339). -/
  | selectRowComplete (t : Nat) (d id row ns : Nat) (data : Option (List Bytes))
  /-- COLLECTION_CREATE (R356). -/
  | collectionCreate (t : Nat) (d : Nat) (rec : Option Bytes)
  /-- VEC_INSERT (R358). -/
  | vecInsert (t : Nat) (d : Nat) (rec : Option Bytes)
  /-- VEC_DELETE (R353). -/
  | vecDelete (t : Nat) (d : Nat) (rec : Option Bytes)
  /-- VEC_SEARCH (R359). -/
  | vecSearch (t : Nat) (d : Nat) (rec : Option Bytes)
  /-- LIST_COMPACTION (R354). -/
  | listCompaction (t : Nat) (id list : Nat)
  /-- ETH_REQUEST (R371). -/
  | ethRequest (t : Nat) (w : WEnv) (p v : Nat)
  /-- PORT_LINK_UP (R371). -/
  | portLinkUp (t : Nat) (p : Nat)
  /-- PORT_ALIGNMENT_LOSS (R371). -/
  | portAlignmentLoss (t : Nat) (p : Nat)
  /-- PFC_FRAME_RECEIVE (R375). -/
  | pfcFrameReceive (t : Nat) (p : Nat) (enable : Nat) (quanta : List Nat)
  /-- PFC_REFRESH_TIMER (R375). -/
  | pfcRefreshTimer (t : Nat) (p prio occupancy : Nat)
  /-- PFC_WATCHDOG_EXPIRE (R376). -/
  | pfcWatchdogExpire (t : Nat) (p prio : Nat)
  /-- PTP_EVENT_MESSAGE (R377). -/
  | ptpEventMessage (t : Nat) (p : Nat) (m : PtpMsg)
  /-- ARP (R372). -/
  | arp (t : Nat) (p : Nat) (m : IpMsg)
  /-- NEIGHBOR_DISCOVERY (R372). -/
  | neighborDiscovery (t : Nat) (p : Nat) (m : IpMsg)
  /-- ICMP_ECHO (R372). -/
  | icmpEcho (t : Nat) (p : Nat) (m : IpMsg)
  /-- SLAISK_SEND (R403). -/
  | slaiskSend (t : Nat) (p : SPkt)
  /-- SLAISK_WRITE (R394). -/
  | slaiskWrite (t : Nat) (p : SPkt)
  /-- SLAISK_READ (R381). -/
  | slaiskRead (t : Nat) (p : SPkt)
  /-- SLAISK_ATOMIC_ADD (R381). -/
  | slaiskAtomicAdd (t : Nat) (p : SPkt)
  /-- SLAISK_CAS (R381). -/
  | slaiskCas (t : Nat) (p : SPkt)
  /-- SLAISK_READ_RESPONSE (R392). -/
  | slaiskReadResponse (t : Nat) (p : SPkt)
  /-- SLAISK_ATOMIC_RESPONSE (R392). -/
  | slaiskAtomicResponse (t : Nat) (p : SPkt)
  /-- SLAISK_FLUSH (R394). -/
  | slaiskFlush (t : Nat) (p : SPkt)
  /-- SLAISK_FLUSH_RESPONSE (R392). -/
  | slaiskFlushResponse (t : Nat) (p : SPkt)
  /-- WINDOW_OPEN (R399). -/
  | windowOpen (t : Nat) (p : SPkt)
  /-- WINDOW_START_COMPLETE (R399). -/
  | windowStartComplete (t : Nat) (idx : Nat)
  /-- WINDOW_REVOKE (R400). -/
  | windowRevoke (t : Nat) (p : SPkt)
  /-- WINDOW_EXPIRE (R400). -/
  | windowExpire (t : Nat) (idx : Nat)
  /-- WINDOW_STOP_COMPLETE (R400). -/
  | windowStopComplete (t : Nat) (idx : Nat)
  /-- WINDOW_REPLY (R379). -/
  | windowReply (t : Nat) (p : SPkt)
  /-- DOORBELL_WRITE (R402). -/
  | doorbellWrite (t : Nat) (p : SPkt)
  /-- SLAISK_ACK (R388). -/
  | slaiskAck (t : Nat) (p : SPkt)
  /-- SLAISK_NAK (R389). -/
  | slaiskNak (t : Nat) (p : SPkt)
  /-- ACK_COALESCE_TIMER (R388). -/
  | ackCoalesceTimer (t : Nat) (f : Nat)
  /-- RETRANSMIT_TIMEOUT (R389). -/
  | retransmitTimeout (t : Nat) (f : Nat)
  /-- FLOW_CONFIGURE (R384). -/
  | flowConfigure (t : Nat) (w : WEnv) (b : WBlk)
  /-- FLOW_REMOVE (R384). -/
  | flowRemove (t : Nat) (w : WEnv) (b : WBlk)
  /-- LINK_REQUEST (R411). -/
  | linkRequest (t : Nat) (w : WEnv) (n v : Nat)
  /-- LINK_TRAINING_COMPLETE (R413). -/
  | linkTrainingComplete (t : Nat) (n : Nat) (b : TrainBlk)
  /-- LINK_TRAINING_FAIL (R414). -/
  | linkTrainingFail (t : Nat) (n code : Nat)
  /-- LINK_FAILURE (R412). -/
  | linkFailure (t : Nat) (n : Nat) (replay : Bool)
  /-- STOPPING (R411). -/
  | stopping (t : Nat) (via : Via)
  /-- FLIT_RECEIVE (R418). -/
  | flitReceive (t : Nat) (n : Nat) (f : Flit)
  /-- REPLAY_TIMEOUT (R419). -/
  | replayTimeout (t : Nat) (n : Nat)
  /-- COMMAND (R431). -/
  | command (t : Nat) (e : DEnv) (ds : List Desc)
  /-- COMMAND_ACK (R432). -/
  | commandAck (t : Nat) (e : DEnv)
  /-- E2E_TIMEOUT (R432). -/
  | e2eTimeout (t : Nat) (home id : Nat)
  /-- MIGRATE_RESERVE (R435). -/
  | migrateReserve (t : Nat) (e : DEnv) (x : MigSum)
  /-- MIGRATE_REPLY (R435). -/
  | migrateReply (t : Nat) (e : DEnv)
  /-- PAGE_DATA (R424). -/
  | pageData (t : Nat) (e : DEnv) (p : CkPage)
  /-- MIGRATE_COMMIT (R435). -/
  | migrateCommit (t : Nat) (e : DEnv) (x : CkSess) (digestOk : Bool)
  /-- MIGRATE_COMMIT_ACK (R203). -/
  | migrateCommitAck (t : Nat) (e : DEnv) (status : Nat)
  /-- MIGRATION_TIMEOUT (R436). -/
  | migrationTimeout (t : Nat) (peer id : Nat)
  /-- ACTIVATION (R437). -/
  | activation (t : Nat) (m : ActMsg)
  /-- ACTIVATION_ACK (R437). -/
  | activationAck (t : Nat) (e : DEnv)
  /-- ACTIVATION_TIMEOUT (R437). -/
  | activationTimeout (t : Nat) (mid : Nat)
  /-- SUBREQUEST (R333). -/
  | subrequest (t : Nat) (e : DEnv) (q : SubQ) (data : Option Bytes)
  /-- SUBRESULT (R336). -/
  | subresult (t : Nat) (e : DEnv) (p : PartRes)
  /-- HEARTBEAT (R438). -/
  | heartbeat (t : Nat) (via : Via) (src pick : Nat)
  /-- HEARTBEAT_SEND (R439). -/
  | heartbeatSend (t : Nat)
  /-- PEER_TIMEOUT (R438). -/
  | peerTimeout (t : Nat) (dev : Nat)
  /-- FATAL_MESSAGE (R438). -/
  | fatalMessage (t : Nat) (via : Via) (src reason pick : Nat)
  /-- STAGE_READY (R235). -/
  | stageReady (t : Nat) (via : Via) (src slot stage dom ready : Nat)
  /-- STAGE_READY_RESEND (R423). -/
  | stageReadyResend (t : Nat)
  /-- MEMBER_TABLE_WRITE (R439). -/
  | memberTableWrite (t : Nat) (w : WEnv) (b : WBlk)
  /-- ROUTE_WRITE (R428). -/
  | routeWrite (t : Nat) (w : WEnv) (ix v : Nat)
  /-- TREE_PARENT_WRITE (R441). -/
  | treeParentWrite (t : Nat) (w : WEnv) (children : Bool) (v : Nat)
  /-- DEVICE_INDEX_WRITE (R440). -/
  | deviceIndexWrite (t : Nat) (w : WEnv) (warp : Bool) (v : Nat)
  /-- CHECKPOINT_BEGIN (R447). -/
  | checkpointBegin (t : Nat) (d : Nat) (ok : Bool)
  /-- CKPT_NOTICE (R448). -/
  | ckptNotice (t : Nat) (link : Nat) (m : CkMsg)
  /-- CHECKPOINT_CUT (R448). -/
  | checkpointCut (t : Nat)
  /-- SHARD_WRITE_COMPLETE (R448). -/
  | shardWriteComplete (t : Nat) (ok : Bool)
  /-- CKPT_WRITTEN (R448). -/
  | ckptWritten (t : Nat) (link : Nat) (m : CkMsg) (ok : Bool)
  /-- CKPT_COMMIT (R448). -/
  | ckptCommit (t : Nat) (link : Nat) (m : CkMsg)
  /-- CKPT_ABORT (R455). -/
  | ckptAbort (t : Nat) (link : Nat) (m : CkMsg)
  /-- CHECKPOINT_TIMEOUT (R455). -/
  | checkpointTimeout (t : Nat)
  /-- CKPT_MESSAGE_RESEND (R454). -/
  | ckptMessageResend (t : Nat)
  /-- RESTORE_BEGIN (R457). -/
  | restoreBegin (t : Nat) (d : Nat) (rec : Option Bytes) (commits : List CkCommit)
  /-- RESTORE_NOTICE (R460). -/
  | restoreNotice (t : Nat) (link : Nat) (m : CkMsg) (commit : CkCommit) (ms : List CkManifest)
  /-- RESTORE_DONE (R463). -/
  | restoreDone (t : Nat) (link : Nat) (m : CkMsg)
  /-- CHANNEL_FAULT (R473). -/
  | channelFault (t : Nat) (c src : Nat)
  /-- CHANNEL_SWEEP_COMPLETE (R509). -/
  | channelSweepComplete (t : Nat) (c : Nat)
  /-- FATAL_DETECT (R477). -/
  | fatalDetect (t : Nat) (reason : Nat)
  /-- CONSERVATION_AUDIT (R483). -/
  | conservationAudit (t : Nat)
  /-- MON_REQUEST (R494). -/
  | monRequest (t : Nat) (w : WEnv) (hub : Bool) (k v : Nat)
  /-- MON_CONFIG_WRITE (R493). -/
  | monConfigWrite (t : Nat) (w : WEnv) (hub : Bool) (k cfg : Nat)
  /-- MONITOR_TRANSITION (R494). -/
  | monitorTransition (t : Nat) (f : FnId)
  /-- MONITOR_WINDOW_END (R495). -/
  | monitorWindowEnd (t : Nat) (f : FnId)
  /-- TRACE_REQUEST (R499). -/
  | traceRequest (t : Nat) (w : WEnv) (v : Nat)
  /-- TRACE_CONFIG_WRITE (R500). -/
  | traceConfigWrite (t : Nat) (w : WEnv) (cfg : Nat)
  /-- TRACE_BUFFER_FULL (R502). -/
  | traceBufferFull (t : Nat)
  /-- TRACE_STOP_PICK (R502). -/
  | traceStopPick (t : Nat)
  /-- POWER_REMOVAL (R18). -/
  | powerRemoval (t : Nat)
  /-- PFC_PAUSE_EXPIRE (R375). -/
  | pfcPauseExpire (t : Nat) (p prio : Nat)
  /-- SIGNATURE_INDEX_BLOCK_RESERVED (R110). -/
  | signatureIndexBlockReserved (t : Nat) (ok : Bool)
  /-- TOKENISING_COMPLETE (R299). -/
  | tokenisingComplete (t : Nat) (k : Nat)
  /-- LIST_PASS_COMPLETE (R359). -/
  | listPassComplete (t : Nat) (d id : Nat) (qs : List Nat) (list : Option Nat) (bad : List Nat)
  deriving DecidableEq, Repr

end Sys2Proof
end

