-- ==== Sys2Proof/Decode.lean ====
section
/-! DEFINITION. What a word spells: the table gives its rows no bits (spec/opcode_table.json: commands are events and packets, not words), so no word spells a command. -/

namespace Sys2Proof

/-- The command that a word spells by the table's bits: the table gives none. -/
def decodeTableWord (_nbits _w : Nat) : Option Instr := none

end Sys2Proof
end

