-- ==== Sys2Proof/Config.lean ====
section
/-! DEFINITION. What the spec leaves to a named standard or leaves open: functions without a body.  Nothing proved about the model
can rest on a value of one of them. -/

namespace Sys2Proof.Config

/-- The output of SHAKE256 over the given bytes when n bytes are asked for. -/
opaque shakeOutput (data : Bytes) (n : Nat) : Nat

/-- SHAKE256 (R118 and everywhere a digest is named): the first n bytes of the output over the given bytes, read
big-endian, a number of n bytes. -/
def shake256 (data : Bytes) (n : Nat) : Nat := shakeOutput data n % 256 ^ n

/-- ML-KEM-1024 decapsulation of a ciphertext with key pair number k (R77, R119): the shared secret. -/
opaque mlkemDecaps (k : Nat) (ct : Nat) : Nat

/-- AES-256-GCM opening (R119): key, nonce, additional data, ciphertext, tag; none when the tag does not verify. -/
opaque gcmOpen (key : Nat) (nonce : Nat) (aad : Bytes) (ct tag : Nat) : Option Nat

/-- AES-256-GMAC (R50): key, nonce, message bytes. -/
opaque gmac (key : Nat) (nonce : Nat) (msg : Bytes) : Nat

/-- The identity key's XMSS^MT signature with an index over a certificate's signed part (R110, R114). -/
opaque xmssSign (index : Nat) (tbs : Bytes) : Bytes

/-- The ML-KEM-1024 encapsulation key of key pair number k (R114, FIPS 203). -/
opaque mlkemPublic (k : Nat) : Bytes

/-- The DER forms of the algorithm identifiers of XMSS^MT and of ML-KEM-1024, and of the device identity certificate's notBefore (R114). -/
opaque algXmssmt : Bytes
opaque algMlkem : Bytes
opaque certNotBefore : Bytes

/-- Byte i of the AES-256-CTR key stream that GCM uses under a key and a nonce, and the GCM tag over additional data and ciphertext (R126, R386). -/
opaque gcmStream (key nonce i : Nat) : Nat
opaque gcmTag (key nonce : Nat) (aad ct : Bytes) : Nat

/-- Wrapping a domain's root secret under the DUK (R121), and its inverse. -/
opaque dukWrap : Nat ≃ Nat

/-- Whether the XMSS signature of a firmware header verifies under the fused key (R106): bytes 0-63 and the
signature. -/
opaque fwSigOk (hdr sig : Bytes) : Bool

/-- The exponential of an FP32 value in FP32 (R208's vector unit, R329): the spec gives its rate and range, not its rounding. -/
opaque expF32 (v : Nat) : Nat

/-- `sec.params_digest` (R115): the digest over Alavan's canonical encoding of these parameters. -/
opaque paramsDigest (fields : List Nat) : Nat

/-- Whether every route of a pattern's route table stays within a footprint (R217): the spec gives the table no form. -/
opaque routesWithin (foot : Nat) (routes : Bytes) : Bool

/-- Byte i of the pattern with which a frame is tested (R195): the spec gives none. -/
opaque testByte (i : Nat) : Nat

/-- The device-unique secret (R103). -/
opaque duk : Bytes

/-- The identity public key's digest and the package's other constants set at manufacture (R102, R137): the value of the CONST entry at an
address whose default the spec leaves to the part. -/
opaque constEntry (addr : Nat) : Nat

/-- The identity public key (R110, R452): OID, root and seed. -/
opaque identityKey : Bytes

/-- `id.device_cert` (R102). -/
opaque deviceCert : Bytes

/-- The boot ROM digest (R115, kind 1). -/
opaque bootRomDigest : Nat

/-- The k-th 32-bit draw of the random bit generator (R104): a free value. -/
opaque draw (k : Nat) : Nat

end Sys2Proof.Config
end

