-- ==== Sys2Proof/Machine/Bits.lean ====
section
/-! DEFINITION. Bytes and numbers, bit fields, and the sparse tables every subsystem keeps. -/

namespace Sys2Proof.Machine

/-- The n low bytes of v, most significant first (R9, R84). -/
def beBytes : Nat → Nat → Bytes
  | 0, _ => []
  | n + 1, v => v / 256 ^ n % 256 :: beBytes n v

/-- The n low bytes of v, least significant first (R8). -/
def leBytes : Nat → Nat → Bytes
  | 0, _ => []
  | n + 1, v => v % 256 :: leBytes n (v / 256)

/-- Bytes read big-endian. -/
def beNat (bs : Bytes) : Nat := bs.foldl (fun a b => a * 256 + b % 256) 0

/-- Bytes read little-endian. -/
def leNat : Bytes → Nat
  | [] => 0
  | b :: bs => b % 256 + 256 * leNat bs

/-- Bits [hi:lo] of v (R7). -/
def bits (v hi lo : Nat) : Nat := v / 2 ^ lo % 2 ^ (hi - lo + 1)

/-- Bit i of v (R7). -/
def bit (v i : Nat) : Bool := v / 2 ^ i % 2 == 1

/-- v with bit i set to b. -/
def setBit (v i : Nat) (b : Bool) : Nat :=
  if bit v i == b then v else if b then v + 2 ^ i else v - 2 ^ i

/-- The big-endian field of n bytes at an offset of a value of `size` bytes. -/
def beField (size v off n : Nat) : Nat := v / 256 ^ (size - off - n) % 256 ^ n

/-- A two's complement value of w bits, and back. -/
def toSigned (w v : Nat) : Int := if v % 2 ^ w < 2 ^ (w - 1) then (v % 2 ^ w : Nat) else ((v % 2 ^ w : Nat) : Int) - (2 ^ w : Nat)

/-- An integer as its w-bit two's complement. -/
def ofSigned (w : Nat) (i : Int) : Nat := (i % ((2 ^ w : Nat) : Int)).toNat

/-- A Bool as 0 or 1. -/
def b2n (b : Bool) : Nat := if b then 1 else 0

/-! ## Sparse tables -/

/-- The value at a key; d where the key is not listed. -/
def Tbl.get {α : Type} (d : α) : Tbl α → Nat → α
  | [], _ => d
  | (k, v) :: m, i => if i = k then v else Tbl.get d m i

/-- The table without a key. -/
def Tbl.erase {α : Type} : Tbl α → Nat → Tbl α
  | [], _ => []
  | (k, v) :: m, i => if i = k then m else (k, v) :: Tbl.erase m i

/-- The table with a key listed at its place. -/
def Tbl.insert {α : Type} : Tbl α → Nat → α → Tbl α
  | [], i, x => [(i, x)]
  | (k, v) :: m, i, x =>
    if i < k then (i, x) :: (k, v) :: m
    else if i = k then (i, x) :: m
    else (k, v) :: Tbl.insert m i x

/-- Writing a key: the value that an unlisted key reads as removes the entry. -/
def Tbl.put {α : Type} [DecidableEq α] (d : α) (m : Tbl α) (i : Nat) (x : α) : Tbl α :=
  if x = d then Tbl.erase m i else Tbl.insert m i x

/-- The canonical form: keys strictly rising and no entry that equals its key's default. -/
def Tbl.wf {α : Type} [DecidableEq α] (d : Nat → α) : Tbl α → Bool
  | [] => true
  | (k, v) :: m => decide (v ≠ d k) && (m.all fun e => decide (k < e.1)) && Tbl.wf d m

/-- Sums of a list. -/
def sumOf {α : Type} (f : α → Nat) (l : List α) : Nat := l.foldl (fun a x => a + f x) 0

/-- The position of the first element that passes. -/
def findIdx? {α : Type} (p : α → Bool) : List α → Option Nat
  | [] => none
  | x :: l => if p x then some 0 else (findIdx? p l).map (· + 1)

end Sys2Proof.Machine
end

