-- ==== Sys2Proof/Machine/State.lean ====
section
/-! DEFINITION. The machine's state, as plain data: everything the spec gives the KB480 (INVENTORY.md, State), the queue of waiting
commands, and the model's own record of what the block has sent.  A field's default is its value at reset: the package as
shipped, before 44V_PRE mates. -/

namespace Sys2Proof.Machine

open Sys2Proof

/-! ## Functions (spec/01, R29-R35) -/

/-- The four states of a switchable function (R32's section). -/
inductive FState where
  | off | starting | on | stopping
  deriving DecidableEq, Repr

/-- The pending-request slot (R32). -/
inductive Pend where
  | none | off | on
  deriving DecidableEq, Repr

/-- One switchable function: its state, its pending slot and its fault bit (R32, R33, R35). -/
structure Fn where
  st : FState := .off
  pend : Pend := .none
  fault : Bool := false
  deriving DecidableEq, Repr

/-! ## Package and power (spec/01) -/

/-- The package states (R18, R37-R44); `unpowered` is before 44V_PRE mates. -/
inductive Pkg where
  | unpowered | precharge | boot | managed | serving | draining | removeReady | isolated
  deriving DecidableEq, Repr

/-- The package, its sensors and its drain (R18-R25, R37-R45). -/
structure Power where
  /-- `package.state`; unpowered at reset (R18). -/
  pkg : Pkg := .unpowered
  /-- FORCE_OFF_N is held low (R44). -/
  forceOff : Bool := false
  /-- The signal contacts are isolated (R44, R477). -/
  isolated : Bool := false
  /-- Throttle level L (R23). -/
  level : Nat := 0
  /-- The 58 A limit is engaged (R22). -/
  limitOn : Bool := false
  /-- Since when both values have been 5 % under their limits (R23). -/
  underSince : Option Nat := none
  /-- The sensors' last reading (R46): DESIGN CHOICE zero before the first. -/
  volt : Nat := 0
  amp : Nat := 0
  powBits : Nat := 0
  die : List Nat := [0, 0, 0, 0, 0]
  hbm : List Nat := [0, 0, 0, 0, 0, 0, 0, 0]
  /-- Stacks at doubled refresh, bit s (R25). -/
  hbm2x : Nat := 0
  /-- Since when the cycles at a level of 1 or higher have not been counted (R47); none at level 0. -/
  hotSince : Option Nat := none
  /-- The drain's step of R40: 0 none, 2 steps that run come to their end, 3 moving, 4 moves done or skipped: the flushes are out. -/
  drainStep : Nat := 0
  /-- When DRAINING was entered, from which `package.drain_timeout` runs (R41; log 155), and when step 4 began. -/
  drainAt : Nat := 0
  flushAt : Nat := 0
  /-- 2 was written to `package.remove_request` while step 2 ran (R41). -/
  drainSkip : Bool := false
  /-- 0 was written to `package.remove_request` during DRAINING (R42). -/
  drainCancel : Bool := false
  /-- Bytes of each domain's drain (far) region that the drain has used (R159), the EXPORTs under way (session, offset), and the sessions that it
  cannot move. -/
  drainNext : Tbl Nat := []
  drainExp : List (Nat × Nat) := []
  drainBad : List Nat := []
  /-- The drain timeout was reported (R41). -/
  drainReported : Bool := false
  /-- Start-up by autostart is bringing the domains up (R38). -/
  bringup : Bool := false
  /-- GiB of the module on each DDR5 channel DDR_A-DDR_P, from its SPD; 0 unpopulated (R4). -/
  spd : List Nat := []
  deriving DecidableEq, Repr

/-! ## Picks (spec/02) -/

/-- `pick.state` (R60). -/
inductive PState where
  | unset | synced | holdover | lost
  deriving DecidableEq, Repr

/-- A pick that has arrived and whose action point is to come (R56): its number, the time of its action point,
whether it is a holdover pick, coalesced (R58), late (R56), and whether it came from the source. -/
structure PendPick where
  num : Nat
  due : Nat
  hold : Bool
  coal : Bool
  late : Bool
  src : Bool
  deriving DecidableEq, Repr

/-- A pick barrier that is pending (R68): its pick, whether its action point has passed here and when, whether this
device has sent its BARRIER_DONE, and the devices whose BARRIER_DONE has arrived. -/
structure Barrier where
  p : Nat
  cut : Bool := false
  cutAt : Nat := 0
  sent : Bool := false
  done : List Nat := []
  /-- This device started the barrier: it sends BARRIER_REQUEST. -/
  mine : Bool := false
  /-- Per flow the first packet that the device issued after the cut. -/
  marks : Tbl Nat := []
  deriving DecidableEq, Repr

/-- The pick logic's state (R48-R69). -/
structure Pick where
  /-- The number of the last pick acted upon or, before the first, the stored floor (R54). -/
  current : Nat := 0
  st : PState := .unset
  /-- The last intervals that enter the mean, newest first, at most 16 (R59). -/
  intervals : List Nat := []
  /-- The last action point (R60's miss test), and the last one whose interval counts (R59). -/
  lastAct : Option Nat := none
  lastSrc : Option Nat := none
  /-- The action point of the current pick, from which stamps count (R65). -/
  actAt : Nat := 0
  /-- The action point of the last pick acted upon and not coalesced (R58). -/
  sepFrom : Option Nat := none
  holdRem : Nat := 0
  /-- When the next holdover pick falls due (R60). -/
  holdNext : Option Nat := none
  hopDelay : Nat := 0
  /-- The contact's last qualified rising edge (R49), and whether it was declared stuck. -/
  edgeAt : Option Nat := none
  stuck : Bool := false
  /-- How long the high of that edge lasts (R49). -/
  edgeHigh : Nat := 0
  /-- The root's index and alignment delay, from the last message of the tree (R51). -/
  rootIdx : Nat := 0
  rootAlign : Nat := 0
  pend : List PendPick := []
  /-- The current pick is a holdover pick, coalesced (R65, R60). -/
  hold : Bool := false
  /-- Stamps taken since the action point (R65). -/
  seq : Nat := 0
  barrier : Option Barrier := none
  /-- The input was declared stuck before the action point of its own pick (R49, R60; log 14). -/
  stuckPend : Bool := false
  deriving DecidableEq, Repr

/-! ## The dictionary and Welrid (spec/03) -/

/-- The data types of R84. -/
inductive Ty where
  | bool | u8 | u16 | u32 | u64 | i64 | f32 | octets (n : Nat) | string | block (max : Nat)
  deriving DecidableEq, Repr

/-- The access classes of R83. -/
inductive Acc where
  | const | ro | rw | wo | rws
  deriving DecidableEq, Repr

/-- The range of an entry, as its table gives it; `special` ranges depend on other state. -/
inductive Rng where
  | any
  | between (lo hi : Nat)
  | upToOr (hi other : Nat)
  | multiple (n : Nat)
  | pow2 (lo hi : Nat)
  | nonzero
  | special
  deriving DecidableEq, Repr

/-- One entry of the dictionary: its first address (index * 256 + sub-index), the sub-indices it spans, type, access
class, default, range, the mask of roles that may write it, and whether it is in the non-volatile store. -/
structure Entry where
  addr : Nat
  span : Nat
  ty : Ty
  acc : Acc
  dflt : Nat
  rng : Rng
  wr : Nat
  persist : Bool
  deriving DecidableEq, Repr

/-- A stamp (R65). -/
structure Stamp where
  pick : Nat
  ns : Nat
  seq : Nat
  flags : Nat
  deriving DecidableEq, Repr

/-- One item of a READ response (R85): status, type code, length and value. -/
structure RVal where
  status : Nat
  typ : Nat
  len : Nat
  val : Nat
  deriving DecidableEq, Repr

/-- What the device answers a Welrid request with (R76-R93, R100). -/
inductive WReply where
  | read (items : List RVal)
  | write
  | block (addr off total : Nat) (data : Bytes)
  | wblock (addr : Nat)
  | error (code item addr detail : Nat)
  | challenge (version assoc : Nat) (der : Bytes)
  | accept (role pick : Nat)
  deriving DecidableEq, Repr

/-- An association, open or with its HELLO in progress (R76-R79, R90, R94). -/
structure Assoc where
  id : Nat
  role : Nat
  opened : Bool := false
  offerAt : Nat := 0
  port : Nat := 0
  src : Nat := 0
  /-- The device's address that its last request came to (R72). -/
  loc : Nat := 0
  version : Nat := 1
  /-- The contents of the OFFER and of the CHALLENGE, and the number of the CHALLENGE's ML-KEM key pair. -/
  offer : Bytes := []
  keyNo : Nat := 0
  /-- The management key (R77). -/
  key : Nat := 0
  /-- Sequence of the last request executed, and its kept reply (R90). -/
  q : Nat := 0
  kept : Option WReply := none
  lastReq : Nat := 0
  chanSel : Nat := 0
  domSel : Nat := 0xFFFF
  modSel : Nat := 0xFF
  deriving DecidableEq, Repr

/-- A READ_BLOCK snapshot (R92). -/
structure Snap where
  assoc : Nat
  addr : Nat
  data : Bytes
  last : Nat
  deriving DecidableEq, Repr

/-- A WRITE_BLOCK transfer in progress (R93): the entry's address and the window object selected, the association,
the total, the bytes so far and the time of the last segment. -/
structure Xfer where
  addr : Nat
  scope : Nat
  assoc : Nat
  total : Nat
  data : Bytes
  last : Nat
  deriving DecidableEq, Repr

/-- One entry of `welrid.notify_log` (R98). -/
structure NLog where
  seq : Nat
  stamp : Stamp
  reason : Nat
  addr : Nat
  detail : Bytes
  count : Nat
  deriving DecidableEq, Repr

/-- Welrid's state (R76-R98). -/
structure Welrid where
  assocs : List Assoc := []
  nextId : Nat := 1
  /-- Times of the failed role proofs, newest first, and until when OFFERs meet BUSY (R78). -/
  fails : List Nat := []
  throttleUntil : Option Nat := none
  snaps : List Snap := []
  xfers : List Xfer := []
  /-- The last notify sequence used, and the last 256 notifications, oldest first (R98). -/
  nseq : Nat := 0
  nlog : List NLog := []
  /-- ML-KEM key pairs made so far: each is named by its number (R76). -/
  keys : Nat := 0
  /-- The UDP port in force: `welrid.udp_port` as it stood at the last cold reset (R72, R102). -/
  udp : Nat := 48111
  deriving DecidableEq, Repr

/-- A fault journal entry (R469). -/
structure JEntry where
  cls : Nat
  chan : Nat
  src : Nat
  dom : Nat
  seq : Nat
  count : Nat
  reason : Nat
  stamp : Stamp
  obj : Nat
  detail : Bytes
  deriving DecidableEq, Repr


/-! ## Security (spec/04) -/

/-- A firmware slot: its header's version and svn, bytes 0-63 of the header, and whether it verifies apart from the svn
comparison (R106). -/
structure FwSlot where
  svn : Nat
  ver : Nat
  hdr : Nat
  ok : Bool
  deriving DecidableEq, Repr

/-- The content of an attestation certificate (R114, R115). -/
structure Cert where
  sig : Nat
  nonce : Nat
  pick : Nat
  pickState : Nat
  hold : Bool
  device : Nat
  purpose : Nat
  domain : Nat
  cls : Nat
  meas : List (Nat × Nat × Nat)
  keyNo : Nat
  deriving DecidableEq, Repr

/-- One domain's key and attestation state (R116-R123). -/
structure DomSec where
  /-- Epoch and root secret last accepted; epoch 0 holds none (R119, R121). -/
  epoch : Nat := 0
  root : Nat := 0
  /-- The epoch under which the device sends and stores: the accepted one from the next action point on (R122). -/
  active : Nat := 0
  /-- The previous epoch's root secret, kept for reading (R121), and the pick until which its traffic keys are
  accepted (R122). -/
  prevRoot : Option Nat := none
  prevUntil : Option Nat := none
  /-- `dsec.attest_state` (R117): 0 IDLE, 1 ISSUING, 2 READY, 3 FAILED. -/
  attest : Nat := 0
  nonce : Nat := 0
  cert : Option Cert := none
  keyNo : Nat := 0
  issued : Nat := 0
  /-- `dsec.key_confirm` (R121). -/
  confirm : Nat := 0
  deriving DecidableEq, Repr

/-- The security element's volatile state (R107-R117, R126, R133). -/
structure Security where
  /-- The running firmware slot; none before boot (R107). -/
  running : Option Nat := none
  /-- The next signature index n (R110). -/
  n : Nat := 0
  /-- A write of E + 1,024 to the store is under way (R110). -/
  reserving : Bool := false
  /-- The last reservation write failed (R110). -/
  storeFailed : Bool := false
  doms : Tbl DomSec := []
  /-- Draws taken from the random bit generator (R104): the index of the next free value. -/
  draws : Nat := 0
  /-- `seal.scrub_progress` (R137). -/
  scrub : Tbl Nat := []
  /-- Page nonce counter per channel (R126). -/
  nonces : Tbl Nat := []
  deriving DecidableEq, Repr


/-! ## Text and grammar images (spec/10) -/

/-- A vocabulary as an accepted image gives it (R294): entries (bytes, flags), merges (left, right, result, rank), class ranges (first, last, class,
flags), and the normalisation tables. -/
structure Vocab where
  len : Nat
  digest : Nat
  entries : List (Bytes × Nat)
  merges : List (Nat × Nat × Nat × Nat)
  form : Nat
  base : Nat
  eos : List Nat
  classes : List (Nat × Nat × Nat × Nat)
  index : List Nat
  blocks : List Nat
  decs : List Nat
  pairs : List (Nat × Nat × Nat)
  deriving DecidableEq, Repr

/-- One effect of a grammar (R309): next state, the symbols popped (top first) and pushed. -/
structure GEff where
  next : Nat
  pop : List Nat
  push : List Nat
  deriving DecidableEq, Repr

/-- One state of a grammar (R309): its mask as a number whose bit t is token t, its flags, its transitions and its
context-dependent list, each (token, effect). -/
structure GState where
  mask : Nat
  flags : Nat
  trans : List (Nat × GEff)
  cd : List (Nat × GEff)
  deriving DecidableEq, Repr

/-- A grammar as an accepted image gives it (R309). -/
structure Grammar where
  len : Nat
  digest : Nat
  vocab : Nat
  start : Nat
  maxDepth : Nat
  states : List GState
  deriving DecidableEq, Repr

/-- A stop set (R305). -/
structure StopSet where
  keep : Bool
  strs : List Bytes
  deriving DecidableEq, Repr

/-- A sampling profile (R280); the F32 fields are their 32 bits. -/
structure Profile where
  sample : Bool
  seeded : Bool
  temp : Nat
  topP : Nat
  minP : Nat
  topK : Nat
  window : Nat
  rep : Nat
  seed : Nat
  deriving DecidableEq, Repr

/-! ## Sessions (spec/05) and their pages (spec/06) -/

/-- Session states, in code order (spec/05, States). -/
inductive SSt where
  | free | admitted | prefill | decode | toolwait | parkedDeep | condensed | parkedFar | reviving | moving | halted | closing
  deriving DecidableEq, Repr

/-- A page of a session (R167-R173): where it is (0 near, 1 deep, 2 far, 3 absent) and its location word's bits; the incarnation, channel and
frame of a near or deep page, the region and frame of a far one; its version, epoch and last touch; its committed token count; and a KV
page's tokens (committed and tentative) and cairn; the nonce and the writer of a deep or far page's encryption (R126). -/
structure Page where
  tier : Nat := 0
  poisoned : Bool := false
  moving : Bool := false
  hot : Bool := false
  inc : Nat := 0
  ch : Nat := 0
  frame : Nat := 0
  region : Nat := 0
  ver : Nat := 0
  epoch : Nat := 0
  touch : Nat := 0
  count : Nat := 0
  kv : List KvTok := []
  cairn : Bytes := []
  nonce : Nat := 0
  writer : Nat := 0
  /-- An absent page for which a revival has reserved the near frame named here (R202). -/
  held : Bool := false
  deriving DecidableEq, Repr

/-- A descriptor in a ring: the descriptor, the SEND's domain, whether it was forwarded here and under which forward, and the input read for it
(R149): 0 not asked for, 1 asked for, 2 held, 3 failed. -/
structure QDesc where
  d : Desc
  dom : Nat
  fwd : Bool := false
  inSt : Nat := 0
  input : Bytes := []
  /-- The completion status of a failed read. -/
  inErr : Nat := 0
  deriving DecidableEq, Repr

/-- A running session command: its descriptor; the tokens still to prefill, each with the input bytes it consumes; tokens and input bytes
committed so far; whether its input is tokenised; the bytes delivered at the last progress record's pick. -/
structure Run where
  q : QDesc
  toks : List (Nat × Nat) := []
  appended : Nat := 0
  consumed : Nat := 0
  tokenised : Bool := false
  /-- The pick of the last record of R158. -/
  lastRec : Nat := 0
  /-- Pages moved by the command (PARK, REVIVE), or its planned progress. -/
  moved : Nat := 0
  deriving DecidableEq, Repr

/-- A session slot: the entry of R143, its ring, its token log, its pages and its text context. -/
structure Sess where
  st : SSt := .free
  /-- Generation of the slot; 0 stands for the channel's generation since its start (R474). -/
  gen : Nat := 0
  dom : Nat := 0
  prio : Nat := 0
  model : Nat := 0
  prior : SSt := .free
  length : Nat := 0
  deadline : Nat := 0
  ttl : Nat := 0
  sver : Nat := 0
  grammar : Nat := 0xFFFFFFFF
  stop : Nat := 0xFFFFFFFF
  sampling : Nat := 0xFFFFFFFF
  gstate : Nat := 0xFFFFFFFF
  head : Nat := 0
  tail : Nat := 0
  remaining : Nat := 0
  progress : Nat := 0
  since : Nat := 0
  slate : Bool := false
  charged : Nat := 0
  revivePend : Bool := false
  target : Nat := 0
  lost : Bool := false
  closePend : Bool := false
  generated : Bool := false
  ring : List QDesc := []
  imm : List QDesc := []
  run : Option Run := none
  tokens : List Nat := []
  pages : Tbl Page := []
  ctx : TextCtx := {}
  /-- Token positions whose keys and values are written (R268), in the target's pages and in the draft's. -/
  kvLen : Nat := 0
  draftLen : Nat := 0
  /-- The draft slot has changed since its draft pages were written (R276). -/
  draftStale : Bool := false
  /-- A packet of the running GENERATE's output was refused, or its flow failed (R379, R389). -/
  outFail : Bool := false
  /-- Staging frames reserved (R247): logical page number, channel, frame. -/
  stage : List (Nat × Nat × Nat) := []
  /-- Since when an allocation waits (R189), and consecutive picks waited for budget (R288). -/
  waitFrom : Option Nat := none
  bwait : Nat := 0
  /-- The pick of its last step (R273), and whether its last step was MASK_LATE (R314). -/
  lastStep : Nat := 0
  late : Bool := false
  /-- Masks completed for it, by position, and requested (R314). -/
  masks : List Nat := []
  /-- When MOVING or REVIVING began (R510). -/
  pausedAt : Nat := 0
  /-- Destination frames are reserved (R192, R202); the slate policy of the condensation that runs (R197). -/
  reserved : Bool := false
  policy : Nat := 0
  /-- The next token position that a revival recomputes, and the first it does not (R202). -/
  recompute : Option Nat := none
  recompTo : Nat := 0
  /-- It has not yet taken a step since it entered PREFILL or DECODE (R186, R193). -/
  fresh : Bool := false
  /-- The record of an EXPORT or a drain to far (R204, R159): 0 none, 1 its far pages are being read, 2 it is being written, 3 it is placed, 4 a transfer
  failed; the far pages still to ask for, and the READs outstanding. -/
  xst : Nat := 0
  xask : List Nat := []
  xio : Nat := 0
  deriving DecidableEq, Repr

/-- A completion record (R157), or a notification that follows one. -/
structure Rec where
  handle : Nat
  seq : Nat
  opcode : Nat
  status : Nat
  progress : Nat
  outLen : Nat
  pick : Nat
  ns : Nat
  flags : Nat
  /-- PHASE, from the queue pass in which it is written. -/
  phase : Bool := false
  deriving DecidableEq, Repr

/-- A held record: whether it is a notification, and whether it is in the hub buffer (R157). -/
structure Held where
  r : Rec
  notif : Bool
  hub : Bool
  /-- A record that a notification follows. -/
  wantsNotif : Bool
  /-- The running control command that keeps it while the hub buffer has no place. -/
  drun : Option Nat := none
  deriving DecidableEq, Repr

/-- A domain's completion queue (R157): records written, held ones in order, and notifications waiting for the FLUSH of R404. -/
structure CQ where
  written : Nat := 0
  held : List Held := []
  flushing : List Rec := []
  deriving DecidableEq, Repr

/-- A running domain control command: its descriptor, the pick it started in, its stage, and figures its chapter keeps. -/
structure DRun where
  id : Nat
  q : QDesc
  since : Nat
  stage : Nat := 0
  a : Nat := 0
  b : Nat := 0
  rows : List (List Nat) := []
  deriving DecidableEq, Repr

/-- A domain control ring (R150). -/
structure DRing where
  waiting : List QDesc := []
  running : List DRun := []
  nextId : Nat := 1
  /-- Finished commands that keep their position until their record has a place (R157), by identifier, and whether each is of the load class. -/
  kept : List (Nat × Bool) := []
  deriving DecidableEq, Repr

/-- The session table (spec/05): slots by channel × 2^18 + slot, completion queues and control rings by domain, and
the entry cache of each channel, most recently used first (R162). -/
structure Sessions where
  tbl : Tbl Sess := []
  cq : Tbl CQ := []
  rings : Tbl DRing := []
  cache : Tbl (List Nat) := []
  /-- Seals and unseals of each channel since its start: each raised every slot's generation (R140). -/
  bumps : Tbl Nat := []
  deriving DecidableEq, Repr

/-! ## Frames and moves (spec/06) -/

/-- A frame of near or deep memory (R176): its owner (0xFFFF unknown), and its use: 0 free, 1 owned, 2 waiting for its last lease
(R251), 3 under test (R195), 4 retired. -/
structure Frame where
  own : Nat := 0xFFFF
  st : Nat := 0
  /-- Freed from a poisoned page: it is tested when its last lease ends (R195). -/
  bad : Bool := false
  deriving DecidableEq, Repr

/-- Frames taken in bulk (models, collections, selection work) on a channel: who holds them, and which near frames they are. -/
structure Bulk where
  ch : Nat
  dom : Nat
  tag : Nat
  fr : List Nat
  deriving DecidableEq, Repr

/-- How many they are. -/
def Bulk.n (b : Bulk) : Nat := b.fr.length

/-- A page move (R190): the session and page, the destination, why it moves (0 session move, 1 near eviction, 2 deep eviction, 3 promotion, 4 seal),
and whether it holds a tracker slot. -/
structure Move where
  k : Nat
  lpn : Nat
  tier : Nat
  ch : Nat
  frame : Nat
  region : Nat
  why : Nat
  started : Bool
  slot : Nat := 0
  /-- Its Slaisk operation where its source or destination is far (R178, R188): 0 none issued, 1 outstanding, 2 complete, 3 failed. -/
  io : Nat := 0
  /-- The page as it was written to a far destination. -/
  image : Option Page := none
  deriving DecidableEq, Repr

/-- Frames, far regions' used frames, moves and counters (spec/06): frames by (channel × 2 + tier) × 2^24 + number; far frames by (domain ×
16 + region) × 2^40 + frame. -/
structure Tiers where
  frames : Tbl Frame := []
  bulk : List Bulk := []
  far : Tbl Nat := []
  /-- Bytes of the near reserve that collections hold (R511): channel and bytes. -/
  claims : List (Nat × Nat) := []
  moves : List Move := []
  /-- Page version counters per channel (R170). -/
  vers : Tbl Nat := []
  /-- Last touch is in the page; background eviction is running (channel × 2 + tier). -/
  evicting : List Nat := []
  deriving DecidableEq, Repr

/-! ## Models, tiles and the tracker (spec/07) -/

/-- A pattern of a model (R216): its number and footprint, whether it is pinned, saturates (R224) and uses the crossbar (R234), and its least lane count. -/
structure Pat where
  id : Nat
  foot : Nat
  pinned : Bool
  sat : Bool
  exch : Bool
  minLanes : Nat
  deriving DecidableEq, Repr

/-- An instance of a pattern that runs (R214, R215): channel, first group, footprint, model slot and the pattern. -/
structure Inst where
  c : Nat
  g : Nat
  foot : Nat
  m : Nat
  pat : Nat
  deriving DecidableEq, Repr

/-- A model slot (R231, R241). -/
structure Model where
  /-- 0 EMPTY, 1 LOADING, 2 READY, 3 UNLOADING, 4 FAILED. -/
  st : Nat := 0
  dom : Nat := 0xFFFF
  placement : Nat := 0
  /-- Channels that hold a copy or share, ascending. -/
  chans : List Nat := []
  layers : Nat := 0
  /-- All layers of the model (a stage holds some). -/
  total : Nat := 0
  block : Nat := 0
  meas : Nat := 0
  patMeas : Nat := 0
  stage : Nat := 0
  stages : Nat := 0
  vocab : Nat := 0
  kvFmt : Nat := 0
  qHeads : Nat := 0
  kvHeads : Nat := 0
  headDim : Nat := 0
  pool : Nat := 0
  pats : List Pat := []
  /-- The load was accepted: the image is measured (R115, R231). -/
  measured : Bool := false
  /-- The stages that have reported READY (R235), at stage 0. -/
  ready : List Nat := []
  /-- LOADING replaces a FAILED slot in place (R232): the placement, stage, stage count − 1 and channels that it had. -/
  was : Option (Nat × Nat × Nat × List Nat) := none
  deriving DecidableEq, Repr

/-- A partial record's beat on its way to a reed (R254): the accumulator (reed × 1,024 + slot), the run, whether it is empty and a second beat, the tokens covered,
m, l and the part of o it carries, in FP32. -/
structure Beat where
  acc : Nat
  run : Nat
  empty : Bool
  second : Bool
  tokens : Nat
  m : Nat
  l : Nat
  o : List Nat
  deriving DecidableEq, Repr

/-- An accumulator that an attention instance has reserved (R255): its number, its session, layer, query head and position, the pages of each of its runs, the
destination lane, whether its result is BF16 and its dimension; the runs emitted and folded, first halves that wait for their second beat, and m, l and o so far. -/
structure Accum where
  acc : Nat
  k : Nat
  layer : Nat
  head : Nat
  pos : Nat
  runs : List (List Nat)
  tile : Nat
  half : Bool
  dim : Nat
  sent : List Nat := []
  got : List Nat := []
  firsts : List (Nat × List Nat) := []
  m : Nat
  l : Nat := 0
  o : List Nat
  deriving DecidableEq, Repr

/-- The reeds of a channel (R255, R256): accumulators in use, the reed that the next one is taken from, the tiles' output buffers and the reed inputs' buffers
(reed × 4 + input), oldest beat first. -/
structure Reeds where
  accs : List Accum := []
  next : Nat := 0
  buf : Tbl (List Beat) := []
  fifo : Tbl (List Beat) := []
  deriving DecidableEq, Repr

/-- A tracker slot in use (R236, R237): its class (0 MOVER, 1 STEP, 2 REMOTE), its index and generation, when it was issued. -/
structure Track where
  cls : Nat
  slot : Nat
  gen : Nat
  since : Nat
  deriving DecidableEq, Repr

/-- The fabric (spec/07): model slots, pattern slots of each tile group (channel × 16 + group), most recently used first, as
(model × 32 + pattern); tracker slots by channel, and each slot's generation. -/
structure Fabric where
  models : Tbl Model := []
  slots : Tbl (List Nat) := []
  track : Tbl (List Track) := []
  gens : Tbl Nat := []
  /-- The look-aside buffer of each channel (R249), most recently used first: handle × 2^32 + page. -/
  lab : Tbl (List Nat) := []
  /-- The walk buffer of each channel (R249), oldest first: handle × 2^32 + block of a model's pages (2^31 more for the draft's), and the words of the run. -/
  walk : Tbl (List (Nat × Nat)) := []
  /-- The instances that run (R214, R215). -/
  insts : List Inst := []
  /-- What a tile's SRAM last received from its units or from a reed, by channel × 256 + tile (R208). -/
  sram : Tbl (List Nat) := []
  /-- Exchange credits of 1 KiB in use at each channel's port (R234). -/
  xused : Tbl Nat := []
  reeds : Tbl Reeds := []
  deriving DecidableEq, Repr

/-! ## The serving step (spec/09) -/

/-- A row of the decode batch: its session, k_eff, the tokens reserved, whether a tile error makes it retake its step (R212), and the
dead-end position when its first mask permits nothing (R315). -/
structure Row where
  k : Nat
  keff : Nat
  r : Nat
  retake : Bool := false
  deriving DecidableEq, Repr

/-- A prefill chunk that runs: its session, its first position, its tokens, and its kind (0 input, 1 recompute, 2 draft prefill, 3 TRIM). -/
structure Chunk where
  k : Nat
  pos : Nat
  n : Nat
  kind : Nat
  bad : Bool := false
  deriving DecidableEq, Repr

/-- The running serving step (R63, R267): its pick and the action point it counts from, the batch rows still to commit, the chunks that run, whether
the prefill queue was empty at the action point (R269), the sessions in PREFILL or DECODE when it started (R267), and when the next
action point passed it (R63). -/
structure Serving where
  pick : Nat
  start : Nat
  rows : List Row
  chunks : List Chunk
  qEmpty : Bool
  joined : List Nat
  passedAt : Option Nat := none
  /-- The tile groups that were ON when it began, as their domains (R35), and each channel's seal then (R133, R135). -/
  groups : List Nat := []
  seals : List FState := []
  /-- Sessions whose chunk found no frame in this step: they wait for the next (R189). -/
  skip : List Nat := []
  deriving DecidableEq, Repr

/-- A domain's budget (R284): the balance, the reserved tokens and the ledger, with refills applied up to pick number count `at_`. -/
structure Budget where
  bal : Int := 0
  reserved : Nat := 0
  refilled : Nat := 0
  charged : Nat := 0
  adjusted : Int := 0
  at_ : Nat := 0
  /-- The balance at the last cold reset, set anew by a restore (R287, R463). -/
  base : Int := 0
  deriving DecidableEq, Repr

/-- The serving step's state: the step that runs, whether one is owed after an overrun (R63), per channel the domain that received the last
remaining row (R272), the domains that waited for budget at the last step (R288), whether step starts are held by a checkpoint (spec/15), the
budgets, and the pick numbers passed since the last cold reset, each of which brings a refill (R285). -/
structure Step where
  run : Option Serving := none
  owed : Bool := false
  lastDom : Tbl Nat := []
  waiters : List Nat := []
  held : Bool := false
  budgets : Tbl Budget := []
  ticks : Nat := 0
  /-- The tile groups in force of each domain: `dsec.tile_groups` as it stood at the last step boundary (R129). -/
  groups : Tbl Nat := []
  /-- Settings of work scheduled against picks that were written since the last action point: the value in force until the next (R88). -/
  sched : Tbl Nat := []
  deriving DecidableEq, Repr

/-! ## Text, grammars, profiles (spec/09, spec/10) -/

/-- A vocabulary slot's holder. -/
structure VSlot where
  dom : Nat
  v : Vocab
  chans : List Nat
  deriving DecidableEq, Repr

/-- What one entry of a vocabulary cache holds (R302): a token's bytes or a merge element, of the copy of one vocabulary slot. -/
inductive VocKey where
  | token (slot t : Nat)
  | merge (slot left right : Nat)
  deriving DecidableEq, Repr

/-- The vocabulary slot a cache entry belongs to. -/
def VocKey.slot : VocKey → Nat
  | .token v _ => v
  | .merge v _ _ => v

/-- Device-wide vocabularies; per domain × 1024 + handle the grammars, stop sets and profiles; the replacements that wait for the next
action point (R280, R305, R309); and each channel's vocabulary cache, the entry used last first (R302). -/
structure Text where
  cache : Tbl (List VocKey) := []
  vocabs : List (Nat × VSlot) := []
  grammars : List (Nat × Grammar × List Nat) := []
  stops : List (Nat × StopSet) := []
  profs : List (Nat × Profile) := []
  newG : List (Nat × Grammar × List Nat) := []
  newS : List (Nat × StopSet) := []
  newP : List (Nat × Profile) := []
  deriving DecidableEq, Repr

/-! ## Search, and selection over runs (spec/11, spec/12) -/

/-- A sub-request that a SELECT has sent to another device (R333): the command's domain and number, the run, the device, the tracker slot and
its channel, and the partial result that has come. -/
structure SubReq where
  d : Nat
  id : Nat
  run : Nat
  dev : Nat
  chan : Nat
  slot : Nat
  res : Option PartRes := none
  /-- When it was sent. -/
  since : Nat := 0
  deriving DecidableEq, Repr

/-- A collection (R346-R355): 0 none, 1 READY, 2 FAILED; its domain; its channels, ascending, the first its home; its content. -/
structure Coll where
  st : Nat := 0
  dom : Nat := 0
  chans : List Nat := []
  data : CollData := {}
  deriving DecidableEq, Repr

/-- A query that runs (R359): its command and index, its collection and start pick, the query head, the elements (FP32), the rank of the lists
once the centroid pass is done, the lists its round still waits for, what its rounds have found. -/
structure Query where
  d : Nat
  id : Nat
  idx : Nat
  coll : Nat
  start : Nat
  k : Nat
  nprobe : Nat
  limit : Nat
  widen : Bool
  require : Nat
  exclude : Nat
  any : Nat
  q : List Nat
  rank : Option (List Nat) := none
  wait : List Nat := []
  probed : Nat := 0
  rounds : Nat := 0
  best : List (Nat × Nat) := []
  matched : Nat := 0
  scanned : Nat := 0
  deriving DecidableEq, Repr

/-- A lane of a channel's selection unit that a SELECT row holds (R325): the channel, the command's domain and number, and the row. -/
structure SelLane where
  c : Nat
  d : Nat
  id : Nat
  row : Nat
  deriving DecidableEq, Repr

/-- Search and the SELECT commands: collections, queries, sub-requests, the SELECTs with rows to serve in arrival order, and the lanes that SELECT
rows hold (R325). -/
structure Search where
  selects : List (Nat × Nat) := []
  lanes : List SelLane := []
  colls : Tbl Coll := []
  queries : List Query := []
  subs : List SubReq := []
  deriving DecidableEq, Repr


/-! ## Ethernet and Slaisk (spec/13) -/

/-- What an operation that the KB480 issued is for (R392): a session ring's input, a control ring's input, or the FLUSH that a domain's
notifications wait for (R404). -/
inductive OpFor where
  | sessIn (k seq : Nat)
  | domIn (d id : Nat)
  | notifFlush (d : Nat)
  | drainFlush
  /-- The FLUSH that ends a SELECT or VEC_SEARCH (R339, R362): domain and the running command. -/
  | domFlush (d id : Nat)
  /-- The READ of a page's far source, or the WRITE and FLUSH of its far destination (R188). -/
  | farMove (k lpn : Nat)
  /-- A READ of a far page for a session's record, or the record's WRITEs and FLUSH (R204, R159). -/
  | exportIo (k : Nat)
  /-- The read-back of a far frame freed from a poisoned page (R195), by its key. -/
  | farTest (key : Nat)
  deriving DecidableEq, Repr

/-- A packet the KB480 has sent and keeps until it is acknowledged (R390), or one that waits for the flow's window: its extended PSN, opcode, the first
and last flags, target, offset, syndrome, aux and payload; and the command whose output it carries. -/
structure TxPkt where
  seq : Nat
  op : Nat
  first : Bool
  last : Bool
  target : Nat
  offset : Nat
  syndrome : Nat
  aux : Nat
  data : Bytes
  own : Option OpFor := none
  /-- The packet is protected, and the epoch whose key protects it (R385, R390). -/
  prot : Bool := false
  epoch : Nat := 0
  deriving DecidableEq, Repr

/-- An outstanding READ or FLUSH: its request PSN, the bytes asked for, those received, its purpose and its tracker slot. -/
structure TxOp where
  psn : Nat
  read : Bool
  want : Nat
  got : Bytes
  what : OpFor
  /-- The channel and slot of its tracker entry, where it holds one (R236). -/
  trk : Option (Nat × Nat) := none
  deriving DecidableEq, Repr

/-- A flow's record as configured (R382). -/
structure FlowCfg where
  ports : Nat := 0
  prio : Nat := 3
  ipv : Nat := 4
  dom : Nat := 0
  vlan : Nat := 0
  rport : Nat := 0
  partner : Nat := 0xFFFF
  addr : Nat := 0
  window : Nat := 16
  dscp : Nat := 0
  deriving DecidableEq, Repr

/-- A flow (R382-R391): its state (0 NONE, 1 READY, 2 ERROR), its record, both extended PSN spaces, what it has sent and what waits, its
retransmission and acknowledgement timers, and an open SEND message. -/
structure Flow where
  st : Nat := 0
  cfg : FlowCfg := {}
  tx : Nat := 0
  rx : Nat := 0
  unacked : List TxPkt := []
  waiting : List TxPkt := []
  ops : List TxOp := []
  port : Option Nat := none
  expiries : Nat := 0
  /-- When the retransmit timer expires; none while it is stopped. -/
  rtoAt : Option Nat := none
  /-- Packets received and not acknowledged, and when the first of them came (R388). -/
  rxCount : Nat := 0
  rxSince : Option Nat := none
  gap : Bool := false
  ctrRx : Nat := 0
  ctrTx : Nat := 0
  /-- WRITEs have been sent that no FLUSH sent later covers (R68, R392). -/
  unplaced : Bool := false
  /-- The open SEND message: target, total length and the bytes so far (R380). -/
  msg : Option (Nat × Nat × Bytes) := none
  /-- The next piece of a bulk transfer goes on the partner (R396). -/
  alt : Bool := false
  deriving DecidableEq, Repr

/-- A window (R399): its generation, domain, channel, size, the flow and request PSN of its opening, the pick it was opened in, whether it is
revoked, and its bytes (unlisted ones are zero). -/
structure Window where
  gen : Nat := 0
  dom : Nat := 0
  ch : Nat := 0
  size : Nat := 0
  flow : Nat := 0
  psn : Nat := 0
  pick : Nat := 0
  isOpen : Bool := false
  revoked : Bool := false
  mem : List Host.Cell := []
  deriving DecidableEq, Repr

/-- Slaisk: flows by number, windows by index. -/
structure Slaisk where
  flows : Tbl Flow := []
  wins : Tbl Window := []
  deriving DecidableEq, Repr

/-- One Ethernet port (R371-R376): per transmit priority since when and until when it is paused and whether the watchdog discards it, and per
receive priority whether the port has sent XOFF. -/
structure Port where
  pausedAt : Tbl Nat := []
  pausedTo : Tbl Nat := []
  dropping : List Nat := []
  xoff : List Nat := []
  deriving DecidableEq, Repr

/-- Both ports, and the PTP clock (R377): state (0 off, 1 listening, 2 locked), PTP time minus the device's nanoseconds, its offset and path delay, and
the time recorded at the last action point. -/
structure Eth where
  ports : Tbl Port := []
  ptpSt : Nat := 1
  ptpDelta : Int := 0
  ptpOff : Int := 0
  ptpDelay : Nat := 0
  ptpPick : Nat := 0
  ptpTime : Nat := 0
  deriving DecidableEq, Repr

/-! ## Dernyx and the warp (spec/14) -/

/-- What a message carries (R423): a control payload's first bytes, descriptors, a session summary, a page, a session's entry, activations, a
sub-request, a partial result, or nothing. -/
inductive DBody where
  | none
  | ctl (b : Bytes)
  | descs (ds : List Desc)
  | summary (x : MigSum)
  | page (p : CkPage)
  | entry (x : CkSess)
  | act (rows : List StageRow)
  | subq (q : SubQ)
  | part (p : PartRes)
  deriving DecidableEq, Repr

/-- A message of this device (R423): its type, destination, domain where it has one, message id, aux, epoch parity, nonce counter (protected
messages) and body. -/
structure DMsg where
  typ : Nat
  dst : Nat
  dom : Option Nat := none
  mid : Nat := 0
  aux : Nat := 0
  parity : Nat := 0
  counter : Nat := 0
  body : DBody := .none
  deriving DecidableEq, Repr

/-- A flit's payload: bytes passed on, or part i of a message of this device. -/
inductive FPay where
  | raw (b : Bytes)
  | part (m : DMsg) (i : Nat)
  deriving DecidableEq, Repr

/-- A flit to send (R416); its link sequence is given when it goes out. -/
structure TxFlit where
  vc : Nat
  dst : Nat
  src : Nat
  typ : Nat
  first : Bool
  last : Bool
  prot : Bool
  parity : Nat
  hops : Nat
  pay : FPay
  deriving DecidableEq, Repr

/-- A Dernyx link (R411-R421): what training recorded; the sequence expected and whether its NAK is out; the next sequence to send, the replay buffer,
the flits waiting by VC, bulk flits since the last request flit; flits sent and credits returned since training, by VC × 4 + class, and
credits returned to the peer; consecutive replays without progress, and since when an acknowledgement is awaited. -/
structure Link where
  delay : Nat := 0
  peerDev : Nat := 0
  peerLink : Nat := 0
  version : Nat := 0
  failCode : Nat := 0
  peerId : Nat := 0
  replays : Nat := 0
  crcFails : Nat := 0
  rxNext : Nat := 0
  nakSent : Bool := false
  txNext : Nat := 0
  replay : List (Nat × TxFlit) := []
  q : Tbl (List TxFlit) := []
  bulkRun : Nat := 0
  used : Tbl Nat := []
  ret : Tbl Nat := []
  given : Tbl Nat := []
  idle : Nat := 0
  since : Option Nat := none
  deriving DecidableEq, Repr

/-- A member index's state (R438) and its forward id sequences (R431). -/
structure Peer where
  st : Nat := 0
  heard : Nat := 0
  txId : Nat := 0
  rxId : Nat := 0
  deriving DecidableEq, Repr

/-- The replay record of a source identity (R426): the highest counter accepted, and those accepted of the 1,024 below. -/
structure Seen where
  identity : Nat
  hi : Nat
  low : List Nat
  deriving DecidableEq, Repr

/-- A SEND's descriptors in the forward buffer (R430-R433): home, forward id, domain, when the COMMAND was last sent (none while it waits), and since when
the buffer holds it. -/
structure Fwd where
  home : Nat
  id : Nat
  dom : Nat
  ds : List Desc
  sent : Option Nat
  since : Nat := 0
  deriving DecidableEq, Repr

/-- A session leaving for a peer (R435): its transfer id, session, peer, step (1 reserve sent, 3 pages and commit sent) and start. -/
structure MigOut where
  id : Nat
  k : Nat
  peer : Nat
  step : Nat
  since : Nat
  deriving DecidableEq, Repr

/-- A session arriving (R435): source, transfer id, the reservation's answer, its summary, the slot kept for it, the frames reserved (tier, channel or
region, frame), the pages that have come, and the commit's answer once committed. -/
structure MigIn where
  src : Nat
  id : Nat
  reply : Nat
  sum : MigSum
  k : Nat
  frames : List (Nat × Nat × Nat)
  pages : List (CkPage × Nat × Nat × Nat) := []
  since : Nat
  committed : Bool := false
  deriving DecidableEq, Repr

/-- Activations held until acknowledged (R437): message id, destination, domain, model slot, when sent. -/
structure ActOut where
  rows : List StageRow := []
  mid : Nat
  dst : Nat
  dom : Nat
  slot : Nat
  since : Nat
  deriving DecidableEq, Repr

/-- Dernyx and the warp: links and members by number; replay records; the forward buffer and COMMANDs held out of order (source, id, domain,
descriptors); round-robin positions of routes (destination × 4 + set) and links (the same keys); the out-link of each message in transit (link × 4 + VC); messages
that wait for a usable set, and flits in transit that do (in-link, flit); migrations; activations held and those received; the protected-message counter; the next transfer id; and the
STAGE_READY reports this device repeats (slot, READY). -/
structure Dernyx where
  links : Tbl Link := []
  peers : Tbl Peer := []
  seen : List Seen := []
  fwd : List Fwd := []
  early : List (Nat × Nat × Nat × List Desc) := []
  setRr : Tbl Int := []
  linkRr : Tbl Nat := []
  transit : Tbl Nat := []
  waiting : List DMsg := []
  held : List (Nat × TxFlit) := []
  out : List MigOut := []
  inn : List MigIn := []
  acts : List ActOut := []
  actsIn : List (Nat × Nat) := []
  counter : Nat := 0
  nextXfer : Nat := 1
  stages : List (Nat × Bool) := []
  deriving DecidableEq, Repr


/-! ## Checkpoint and restore (spec/15) -/

/-- An item that a restore has accepted and not yet placed (R460-R464): its source device, the item, its shard's epoch. -/
structure RestItem where
  src : Nat
  item : CkItem
  epoch : Nat
  deriving DecidableEq, Repr

/-- Checkpoint state (R447-R464): `ckpt.state`; slot, P and the coordinator; the time of P's action point; the drain has written and the device resumes
at the next action point; the manifest sent.  At the coordinator: the command, the devices PRESENT at P, when the notice went, and the
answers.  In a restore: R, map, filter, the items to place, since when, the counts, whether it is done.  The last P or R that ended, and
whether it was aborted. -/
structure Ckpt where
  st : Nat := 0
  slot : Nat := 0
  p : Nat := 0
  coord : Nat := 0
  cutAt : Nat := 0
  /-- P was acted upon as a holdover pick (R452). -/
  hold : Bool := false
  drain : Bool := false
  resume : Bool := false
  mine : CkMsg := { src := 0, slot := 0, p := 0 }
  cmd : Option (Nat × Nat) := none
  devs : List Nat := []
  noticeAt : Nat := 0
  answers : List CkMsg := []
  r : Nat := 0
  map : List Nat := []
  filter : Nat := 0xFFFF
  todo : List RestItem := []
  doms : List Nat := []
  todoAt : Nat := 0
  restored : Nat := 0
  unrestored : Nat := 0
  started : Bool := false
  doneSent : Bool := false
  ended : Option (Nat × Bool) := none
  deriving DecidableEq, Repr


/-! ## Faults (spec/16) -/

/-- Fault and audit state (R469-R486, R509). -/
structure Faults where
  /-- The journal ring, oldest first, and its last sequence (R469). -/
  journal : List JEntry := []
  jseq : Nat := 0
  /-- Channels whose departure's sweep is still running (R509). -/
  sweeping : List Nat := []
  /-- Frames retired per HBM stack in the pick they were counted in (R472). -/
  retirePick : Nat := 0
  retired : Tbl Nat := []
  /-- The pick of the last audit; none since reset (R483). -/
  lastAudit : Option Nat := none
  /-- A FATAL has been detected (R477). -/
  fatal : Bool := false
  deriving DecidableEq, Repr

/-! ## Monitors and trace (spec/17) -/

/-- One event counter's running state (R488-R498). -/
structure Mon where
  value : Nat := 0
  wraps : Nat := 0
  /-- Events are being counted: from the action point that ends STARTING to the one that ends STOPPING (R494). -/
  counting : Bool := false
  winStart : Nat := 0
  /-- PICK_LOST fell in the window (R498). -/
  lostIn : Bool := false
  /-- What the action point at which a window or the counting ended left to be copied (R495, R496): value, wraps,
  pick, flags. -/
  due : Option (Nat × Nat × Nat × Nat) := none
  /-- The last snapshot (R496): value, pick, wraps, flags. -/
  snap : Option (Nat × Nat × Nat × Nat) := none
  deriving DecidableEq, Repr

/-- A trace record (R501). -/
structure TRec where
  stamp : Stamp
  src : Nat
  chan : Nat
  value : Nat
  obj : Nat
  /-- Events of this record's path were lost just before it (R502). -/
  dropped : Bool := false
  deriving DecidableEq, Repr

/-- Trace capture (R499-R504). -/
structure Trace where
  /-- Oldest first, at most 524,288. -/
  buf : List TRec := []
  dropped : Nat := 0
  /-- The records of each path, the channels' and the hub's, that are on their way to the buffer, as of a time; and the paths that have lost events since their last
  record (R502). -/
  way : Tbl Nat := []
  wayAt : Nat := 0
  lost : List Nat := []
  counting : Bool := false
  /-- An action point has ended STARTING or STOPPING (R499). -/
  due : Bool := false
  full : Bool := false
  deriving DecidableEq, Repr

/-- Counters by FnId key, and the trace block. -/
structure Monitors where
  mons : Tbl Mon := []
  trace : Trace := {}
  deriving DecidableEq, Repr

/-- What the non-volatile store holds beside the dictionary values (R97, R107-R112, R121, R384, R474). -/
structure NV where
  /-- `welrid.claimed` (R82). -/
  claimed : Bool := false
  /-- `dict.restore_defaults` was written (R97). -/
  restoreMark : Bool := false
  /-- The pick floor (R54). -/
  floor : Nat := 0
  fwA : Option FwSlot := some ⟨1, 0x01000001, 0, true⟩
  fwB : Option FwSlot := none
  fwConfirmed : Nat := 0
  fwTrials : Nat := 0
  fusedSvn : Nat := 0
  /-- The signature-index reserved end E and the close record (E, n) (R110, R111). -/
  sigEnd : Nat := 0
  sigClose : Option (Nat × Nat) := some (0, 0)
  /-- Reserved ends of the per-channel page nonce and page version counters and of the Dernyx message counter
  (R126, R170, R425). -/
  nonceEnd : Tbl Nat := []
  versionEnd : Tbl Nat := []
  msgEnd : Nat := 0
  /-- Of each domain the root secret, wrapped under the DUK, and its epoch (R121). -/
  keys : Tbl (Nat × Nat) := []
  /-- Channel start counts (R474). -/
  starts : Tbl Nat := []
  /-- Flow records and generations by flow (R384, R407). -/
  flows : Tbl FlowCfg := []
  flowGens : Tbl Nat := []
  /-- The journal copy made last, and the one readable since the last boot (R470). -/
  jcopy : List JEntry := []
  jsaved : List JEntry := []
  deriving DecidableEq, Repr

/-! ## What the block sends -/

/-- One thing the block sends. -/
inductive Output where
  /-- A reply, with the address and UDP port of the device that it comes from (R72). -/
  | welrid (port dst assoc seq : Nat) (prot : Bool) (r : WReply) (loc udp : Nat)
  | notify (port dst assoc : Nat) (n : NLog) (loc udp : Nat)
  /-- A flit on a link, sent or replayed (R416, R419): link, sequence, flit. -/
  | flit (link seq : Nat) (f : TxFlit)
  /-- A flit trailer that says something (R416): link, ack_seq, nak, and the credits returned for a VC and class. -/
  | trailer (link ack : Nat) (nak : Bool) (vc cls total : Nat)
  /-- A sequenced Slaisk packet (R378), sent or resent on a port. -/
  | slaisk (port flow : Nat) (p : TxPkt)
  /-- An ACK (0x0E) or NAK (0x0F): acknowledged PSN, syndrome, counter (R385, R387). -/
  | ackNak (port flow : Nat) (nak : Bool) (psn syndrome ctr : Nat)
  /-- A PFC frame (R375): port, priority, quanta. -/
  | pfc (port prio quanta : Nat)
  /-- An answer to an ARP request, a Neighbor Solicitation or an echo request (R372): its kind 0, 1, 2. -/
  | ipReply (port kind target dest : Nat) (data : Bytes)
  deriving DecidableEq, Repr

/-! ## The whole -/

/-- Faults of the model. -/
inductive Fault where
  /-- Raised by every meaning whose operand names an object that the spec's numbering (R5) does not have: link 48, port 2, channel 4.
  Safe: the machine stops where no such event can happen. -/
  | noSuchObject
  deriving DecidableEq, Repr

/-- Refusals of the model. -/
inductive Refusal where
  /-- Raised by the arms of `exec` that have no meaning yet, and by nothing else.  Safe. -/
  | notModelled (mnemonic : String)
  deriving DecidableEq, Repr

/-- The KB480 as a block. -/
structure State where
  /-- Nanoseconds of the stamp timebase since power was first applied: the latest moment a command named.  The model's own. -/
  now : Nat := 0
  /-- What the block has sent, oldest first.  The model's own. -/
  out : List Output := []
  /-- The commands waiting, first in first out. -/
  pending : List Instr := []
  /-- The dictionary's stored values: key (address * 4096 + window object, and 2^40 more for the values that only the device
  writes); an unlisted key reads its entry's default. -/
  regs : Tbl Nat := []
  nv : NV := {}
  fns : Tbl Fn := []
  pw : Power := {}
  pk : Pick := {}
  wr : Welrid := {}
  sc : Security := {}
  ss : Sessions := {}
  tm : Tiers := {}
  fb : Fabric := {}
  sv : Step := {}
  tx : Text := {}
  se : Search := {}
  sl : Slaisk := {}
  et : Eth := {}
  dx : Dernyx := {}
  ck : Ckpt := {}
  fa : Faults := {}
  mn : Monitors := {}
  deriving DecidableEq, Repr

/-- The machine right after reset: shipped, unpowered, nothing mated, and the non-volatile store as at manufacture (R18, R82, R97). -/
def State.reset : State := {}

end Sys2Proof.Machine
end

