-- ==== Sys2Proof/Machine/Dict.lean ====
section
/-! DEFINITION. The object dictionary (spec/03_dictionary.md and the table of each chapter): one constant per
entry, with its address (index * 256 + sub-index), the number of sub-indices it spans, type, access class, default,
range, write roles (bit role - 1) and whether its value is in the non-volatile store.  The per-chapter lists
joined are `table`. -/

namespace Sys2Proof.Machine.Dict

open Sys2Proof.Machine

/-! The entries of spec/01_package_power.md, R46. -/

/-- `package.state` (0x0300:01), R46. -/
def packageState : Entry := ⟨0x030001, 1, .u8, .ro, 0, .any, 0, false⟩
/-- `package.remove_request` (0x0300:02), R46. -/
def packageRemoveRequest : Entry := ⟨0x030002, 1, .u8, .rw, 0, .between 0 2, 6, false⟩
/-- `package.drain_target` (0x0300:03), R46. -/
def packageDrainTarget : Entry := ⟨0x030003, 1, .u8, .rw, 0, .between 0 2, 6, false⟩
/-- `package.drain_timeout` (0x0300:04), R46. -/
def packageDrainTimeout : Entry := ⟨0x030004, 1, .u32, .rw, 600, .between 10 86400, 6, true⟩
/-- `package.drain_unmoved` (0x0300:05), R46. -/
def packageDrainUnmoved : Entry := ⟨0x030005, 1, .u32, .ro, 0, .any, 0, false⟩
/-- `package.autostart` (0x0300:06), R46. -/
def packageAutostart : Entry := ⟨0x030006, 1, .bool, .rw, 1, .between 0 1, 6, true⟩
/-- `package.reset` (0x0300:07), R46. -/
def packageReset : Entry := ⟨0x030007, 1, .u8, .wo, 0, .between 1 1, 10, false⟩
/-- `power.input_voltage` (0x0300:10), R46. -/
def powerInputVoltage : Entry := ⟨0x030010, 1, .f32, .ro, 0, .any, 0, false⟩
/-- `power.input_current` (0x0300:11), R46. -/
def powerInputCurrent : Entry := ⟨0x030011, 1, .f32, .ro, 0, .any, 0, false⟩
/-- `power.input_power` (0x0300:12), R46. -/
def powerInputPower : Entry := ⟨0x030012, 1, .f32, .ro, 0, .any, 0, false⟩
/-- `power.input_limit` (0x0300:13), R46. -/
def powerInputLimit : Entry := ⟨0x030013, 1, .u16, .rw, 2200, .between 1500 2200, 6, true⟩
/-- `power.throttle_level` (0x0300:14), R46. -/
def powerThrottleLevel : Entry := ⟨0x030014, 1, .u8, .ro, 0, .any, 0, false⟩
/-- `power.ridethrough_count` (0x0300:15), R46. -/
def powerRidethroughCount : Entry := ⟨0x030015, 1, .u32, .ro, 0, .any, 0, false⟩
/-- `power.current_limit_count` (0x0300:16), R46. -/
def powerCurrentLimitCount : Entry := ⟨0x030016, 1, .u32, .ro, 0, .any, 0, false⟩
/-- `thermal.throttle_temp` (0x0300:18), R46. -/
def thermalThrottleTemp : Entry := ⟨0x030018, 1, .u8, .rw, 95, .between 80 100, 2, true⟩
/-- `thermal.die_temp` (0x0300:19), R46. -/
def thermalDieTemp : Entry := ⟨0x030019, 1, (.octets 5), .ro, 0, .any, 0, false⟩
/-- `thermal.hbm_temp` (0x0300:1A), R46. -/
def thermalHbmTemp : Entry := ⟨0x03001A, 1, (.octets 8), .ro, 0, .any, 0, false⟩
/-- `power.hub_status` (0x0300:30–37), R46. -/
def powerHubStatus : Entry := ⟨0x030030, 8, .u16, .ro, 0x0000, .any, 0, false⟩
/-- `power.hub_request` (0x0300:38–3F), R46. -/
def powerHubRequest : Entry := ⟨0x030038, 8, .u8, .wo, 0, .between 0 1, 6, false⟩
/-- `chpower.status` (0x1900:01–12), R46. -/
def chpowerStatus : Entry := ⟨0x190001, 18, .u16, .ro, 0x0000, .any, 0, false⟩
/-- `chpower.request` (0x1900:21–32), R46.  No value of a request is stored: DEDUCED (log 156). -/
def chpowerRequest : Entry := ⟨0x190021, 18, .u8, .wo, 0, .between 0 1, 6, false⟩

/-- The entries of R46. -/
def list01 : List Entry :=
  [packageState, packageRemoveRequest, packageDrainTarget, packageDrainTimeout, packageDrainUnmoved,
    packageAutostart, packageReset, powerInputVoltage, powerInputCurrent, powerInputPower, powerInputLimit,
    powerThrottleLevel, powerRidethroughCount, powerCurrentLimitCount, thermalThrottleTemp, thermalDieTemp,
    thermalHbmTemp, powerHubStatus, powerHubRequest, chpowerStatus, chpowerRequest]

/-! The entries of spec/02_pick_time.md, R70. -/

/-- `pick.source` (0x0400:01), R70. -/
def pickSource : Entry := ⟨0x040001, 1, .u8, .rw, 1, .between 0 3, 4, true⟩
/-- `pick.min_separation` (0x0400:02), R70. -/
def pickMinSeparation : Entry := ⟨0x040002, 1, .u32, .rw, 200, .between 200 1000000, 4, true⟩
/-- `pick.align_delay` (0x0400:03), R70. -/
def pickAlignDelay : Entry := ⟨0x040003, 1, .u32, .rw, 2000, .between 500 100000, 4, true⟩
/-- `pick.holdover_max` (0x0400:04), R70. -/
def pickHoldoverMax : Entry := ⟨0x040004, 1, .u16, .rw, 16, .between 0 1024, 6, true⟩
/-- `pick.miss_factor` (0x0400:05), R70. -/
def pickMissFactor : Entry := ⟨0x040005, 1, .u8, .rw, 24, .between 20 64, 4, true⟩
/-- `pick.msg_auth` (0x0400:06), R70. -/
def pickMsgAuth : Entry := ⟨0x040006, 1, .bool, .rw, 1, .between 0 1, 8, true⟩
/-- `pick.udp_port` (0x0400:07), R70. -/
def pickUdpPort : Entry := ⟨0x040007, 1, .u16, .rw, 48112, .between 1024 65535, 4, true⟩
/-- `pick.next_number` (0x0400:08), R70. -/
def pickNextNumber : Entry := ⟨0x040008, 1, .u64, .rw, 0, .special, 4, false⟩
/-- `pick.msg_key` (0x0400:09), R70. -/
def pickMsgKey : Entry := ⟨0x040009, 1, (.octets 32), .wo, 0, .any, 8, true⟩
/-- `pick.current` (0x0400:10), R70. -/
def pickCurrent : Entry := ⟨0x040010, 1, .u64, .ro, 0, .any, 0, false⟩
/-- `pick.state` (0x0400:11), R70. -/
def pickState : Entry := ⟨0x040011, 1, .u8, .ro, 0, .any, 0, false⟩
/-- `pick.learned_period` (0x0400:12), R70. -/
def pickLearnedPeriod : Entry := ⟨0x040012, 1, .u32, .ro, 0, .any, 0, false⟩
/-- `pick.holdover_remaining` (0x0400:13), R70. -/
def pickHoldoverRemaining : Entry := ⟨0x040013, 1, .u16, .ro, 0, .any, 0, false⟩
/-- `pick.hop_delay` (0x0400:14), R70. -/
def pickHopDelay : Entry := ⟨0x040014, 1, .u32, .ro, 0, .any, 0, false⟩
/-- `pick.coalesce_count` (0x0400:15), R70. -/
def pickCoalesceCount : Entry := ⟨0x040015, 1, .u64, .ro, 0, .any, 0, false⟩
/-- `pick.overrun_count` (0x0400:16), R70. -/
def pickOverrunCount : Entry := ⟨0x040016, 1, .u64, .ro, 0, .any, 0, false⟩
/-- `pick.glitch_count` (0x0400:17), R70. -/
def pickGlitchCount : Entry := ⟨0x040017, 1, .u32, .ro, 0, .any, 0, false⟩
/-- `pick.stuck_count` (0x0400:18), R70. -/
def pickStuckCount : Entry := ⟨0x040018, 1, .u32, .ro, 0, .any, 0, false⟩
/-- `pick.holdover_count` (0x0400:19), R70. -/
def pickHoldoverCount : Entry := ⟨0x040019, 1, .u64, .ro, 0, .any, 0, false⟩
/-- `pick.lost_count` (0x0400:1A), R70. -/
def pickLostCount : Entry := ⟨0x04001A, 1, .u32, .ro, 0, .any, 0, false⟩
/-- `pick.reject_count` (0x0400:1B), R70. -/
def pickRejectCount : Entry := ⟨0x04001B, 1, .u32, .ro, 0, .any, 0, false⟩
/-- `pick.late_count` (0x0400:1C), R70. -/
def pickLateCount : Entry := ⟨0x04001C, 1, .u32, .ro, 0, .any, 0, false⟩
/-- `pick.floor` (0x0400:1D), R70. -/
def pickFloor : Entry := ⟨0x04001D, 1, .u64, .ro, 0, .any, 0, true⟩
/-- `pick.barrier_at` (0x0400:20), R70. -/
def pickBarrierAt : Entry := ⟨0x040020, 1, .u64, .rw, 0, .special, 6, false⟩
/-- `pick.barrier_done` (0x0400:21), R70. -/
def pickBarrierDone : Entry := ⟨0x040021, 1, .u64, .ro, 0, .any, 0, false⟩
/-- `pick.barrier_timeout` (0x0400:22), R70. -/
def pickBarrierTimeout : Entry := ⟨0x040022, 1, .u32, .rw, 50, .between 1 10000, 4, true⟩
/-- `pick.gap_count` (0x0400:23), R70. -/
def pickGapCount : Entry := ⟨0x040023, 1, .u32, .ro, 0, .any, 0, false⟩
/-- `pick.barrier_fail_count` (0x0400:24), R70. -/
def pickBarrierFailCount : Entry := ⟨0x040024, 1, .u32, .ro, 0, .any, 0, false⟩

/-- The entries of R70. -/
def list02 : List Entry :=
  [pickSource, pickMinSeparation, pickAlignDelay, pickHoldoverMax, pickMissFactor, pickMsgAuth, pickUdpPort,
    pickNextNumber, pickMsgKey, pickCurrent, pickState, pickLearnedPeriod, pickHoldoverRemaining, pickHopDelay,
    pickCoalesceCount, pickOverrunCount, pickGlitchCount, pickStuckCount, pickHoldoverCount, pickLostCount,
    pickRejectCount, pickLateCount, pickFloor, pickBarrierAt, pickBarrierDone, pickBarrierTimeout, pickGapCount,
    pickBarrierFailCount]

/-! The entries of spec/03_dictionary.md, R102. -/

/-- `id.vendor` (0x0100:01), R102. -/
def idVendor : Entry := ⟨0x010001, 1, .string, .const, 373501370759552477679114353664003083910862106482, .any, 0, false⟩
/-- `id.part` (0x0100:02), R102. -/
def idPart : Entry := ⟨0x010002, 1, .string, .const, 323233265712, .any, 0, false⟩
/-- `id.generation` (0x0100:03), R102. -/
def idGeneration : Entry := ⟨0x010003, 1, .u8, .const, 1, .any, 0, false⟩
/-- `id.stepping` (0x0100:04), R102. -/
def idStepping : Entry := ⟨0x010004, 1, .u8, .const, 0, .any, 0, false⟩
/-- `id.serial` (0x0100:05), R102. -/
def idSerial : Entry := ⟨0x010005, 1, (.octets 16), .const, 0, .any, 0, false⟩
/-- `id.identity_digest` (0x0100:06), R102. -/
def idIdentityDigest : Entry := ⟨0x010006, 1, (.octets 32), .const, 0, .any, 0, false⟩
/-- `id.device_cert` (0x0100:07), R102. -/
def idDeviceCert : Entry := ⟨0x010007, 1, (.block 32768), .const, 0, .any, 0, false⟩
/-- `ver.boot_rom` (0x0100:10), R102. -/
def verBootRom : Entry := ⟨0x010010, 1, .u32, .const, 0, .any, 0, false⟩
/-- `ver.firmware_a` (0x0100:11), R102. -/
def verFirmwareA : Entry := ⟨0x010011, 1, .u32, .ro, 0, .any, 0, false⟩
/-- `ver.firmware_b` (0x0100:12), R102. -/
def verFirmwareB : Entry := ⟨0x010012, 1, .u32, .ro, 0, .any, 0, false⟩
/-- `ver.firmware_active` (0x0100:13), R102. -/
def verFirmwareActive : Entry := ⟨0x010013, 1, .u8, .ro, 0, .any, 0, false⟩
/-- `ver.welrid_max` (0x0100:14), R102. -/
def verWelridMax : Entry := ⟨0x010014, 1, .u8, .const, 1, .any, 0, false⟩
/-- `ver.welrid_min` (0x0100:15), R102. -/
def verWelridMin : Entry := ⟨0x010015, 1, .u8, .const, 1, .any, 0, false⟩
/-- `ver.dict_layout` (0x0100:16), R102. -/
def verDictLayout : Entry := ⟨0x010016, 1, .u16, .const, 1, .any, 0, false⟩
/-- `ver.slaisk_max` (0x0100:17), R102. -/
def verSlaiskMax : Entry := ⟨0x010017, 1, .u8, .const, 1, .any, 0, false⟩
/-- `ver.dernyx_max` (0x0100:18), R102. -/
def verDernyxMax : Entry := ⟨0x010018, 1, .u8, .const, 1, .any, 0, false⟩
/-- `ver.image_max` (0x0100:19), R102. -/
def verImageMax : Entry := ⟨0x010019, 1, .u8, .const, 1, .any, 0, false⟩
/-- `welrid.udp_port` (0x0200:01), R102. -/
def welridUdpPort : Entry := ⟨0x020001, 1, .u16, .rw, 48111, .between 1024 65535, 12, true⟩
/-- `welrid.max_associations` (0x0200:02), R102. -/
def welridMaxAssociations : Entry := ⟨0x020002, 1, .u8, .const, 32, .any, 0, false⟩
/-- `welrid.open_associations` (0x0200:03), R102. -/
def welridOpenAssociations : Entry := ⟨0x020003, 1, .u8, .ro, 0, .any, 0, false⟩
/-- `welrid.idle_timeout` (0x0200:04), R102. -/
def welridIdleTimeout : Entry := ⟨0x020004, 1, .u32, .rw, 300, .between 10 86400, 10, true⟩
/-- `welrid.claimed` (0x0200:05), R102. -/
def welridClaimed : Entry := ⟨0x020005, 1, .bool, .ro, 0, .any, 0, true⟩
/-- `welrid.role` (0x0200:06), R102. -/
def welridRole : Entry := ⟨0x020006, 1, .u8, .ro, 0, .any, 0, false⟩
/-- `role.secret_observer` (0x0200:10), R102. -/
def roleSecretObserver : Entry := ⟨0x020010, 1, (.octets 32), .wo, 0, .nonzero, 8, true⟩
/-- `role.secret_operator` (0x0200:11), R102. -/
def roleSecretOperator : Entry := ⟨0x020011, 1, (.octets 32), .wo, 0, .nonzero, 8, true⟩
/-- `role.secret_fabric` (0x0200:12), R102. -/
def roleSecretFabric : Entry := ⟨0x020012, 1, (.octets 32), .wo, 0, .nonzero, 8, true⟩
/-- `role.secret_custodian` (0x0200:13), R102. -/
def roleSecretCustodian : Entry := ⟨0x020013, 1, (.octets 32), .wo, 0, .nonzero, 8, true⟩
/-- `role.enabled` (0x0200:14), R102. -/
def roleEnabled : Entry := ⟨0x020014, 1, .u8, .ro, 0x00, .any, 0, true⟩
/-- `welrid.auth_fail_count` (0x0200:20), R102. -/
def welridAuthFailCount : Entry := ⟨0x020020, 1, .u32, .ro, 0, .any, 0, false⟩
/-- `welrid.replay_count` (0x0200:21), R102. -/
def welridReplayCount : Entry := ⟨0x020021, 1, .u32, .ro, 0, .any, 0, false⟩
/-- `welrid.error_count` (0x0200:22), R102. -/
def welridErrorCount : Entry := ⟨0x020022, 1, .u32, .ro, 0, .any, 0, false⟩
/-- `welrid.notify_last` (0x0200:23), R102. -/
def welridNotifyLast : Entry := ⟨0x020023, 1, .u32, .ro, 0, .any, 0, false⟩
/-- `welrid.notify_log` (0x0200:24), R102. -/
def welridNotifyLog : Entry := ⟨0x020024, 1, (.block 27648), .ro, 0, .any, 0, false⟩
/-- `dict.restore_defaults` (0x0200:30), R102. -/
def dictRestoreDefaults : Entry := ⟨0x020030, 1, .u8, .wo, 0, .between 1 1, 8, true⟩
/-- `dict.store_writes` (0x0200:31), R102. -/
def dictStoreWrites : Entry := ⟨0x020031, 1, .u64, .ro, 0, .any, 0, true⟩
/-- `channel.select` (0x0F00:00), R102. -/
def channelSelect : Entry := ⟨0x0F0000, 1, .u8, .rw, 0, .upToOr 3 0xFF, 15, false⟩
/-- `domain.select` (0x2000:00), R102. -/
def domainSelect : Entry := ⟨0x200000, 1, .u16, .rw, 0xFFFF, .upToOr 4095 0xFFFF, 15, false⟩
/-- `model.select` (0x3000:00), R102. -/
def modelSelect : Entry := ⟨0x300000, 1, .u8, .rw, 0xFF, .upToOr 15 0xFF, 15, false⟩

/-- The entries of R102. -/
def list03 : List Entry :=
  [idVendor, idPart, idGeneration, idStepping, idSerial, idIdentityDigest, idDeviceCert, verBootRom,
    verFirmwareA, verFirmwareB, verFirmwareActive, verWelridMax, verWelridMin, verDictLayout, verSlaiskMax,
    verDernyxMax, verImageMax, welridUdpPort, welridMaxAssociations, welridOpenAssociations, welridIdleTimeout,
    welridClaimed, welridRole, roleSecretObserver, roleSecretOperator, roleSecretFabric, roleSecretCustodian,
    roleEnabled, welridAuthFailCount, welridReplayCount, welridErrorCount, welridNotifyLast, welridNotifyLog,
    dictRestoreDefaults, dictStoreWrites, channelSelect, domainSelect, modelSelect]

/-! The entries of spec/04_security.md, R137. -/

/-- `sec.vendor_key_digest` (0x0500:01), R137. -/
def secVendorKeyDigest : Entry := ⟨0x050001, 1, (.octets 32), .const, 0, .any, 0, false⟩
/-- `sec.fused_svn` (0x0500:02), R137. -/
def secFusedSvn : Entry := ⟨0x050002, 1, .u8, .ro, 0, .any, 0, true⟩
/-- `sec.fw_svn_commit` (0x0500:03), R137. -/
def secFwSvnCommit : Entry := ⟨0x050003, 1, .u8, .wo, 0, .between 1 64, 8, false⟩
/-- `sec.fw_preferred` (0x0500:04), R137. -/
def secFwPreferred : Entry := ⟨0x050004, 1, .u8, .rw, 0, .between 0 1, 8, true⟩
/-- `sec.fw_confirmed` (0x0500:05), R137. -/
def secFwConfirmed : Entry := ⟨0x050005, 1, .u8, .ro, 0, .any, 0, true⟩
/-- `sec.fw_confirm` (0x0500:06), R137. -/
def secFwConfirm : Entry := ⟨0x050006, 1, .u8, .wo, 0, .between 1 1, 8, false⟩
/-- `sec.fw_auto_confirm` (0x0500:07), R137. -/
def secFwAutoConfirm : Entry := ⟨0x050007, 1, .bool, .rw, 1, .between 0 1, 8, true⟩
/-- `sec.fw_trial_count` (0x0500:08), R137. -/
def secFwTrialCount : Entry := ⟨0x050008, 1, .u8, .ro, 0, .any, 0, true⟩
/-- `sec.fw_image` (0x0500:09), R137. -/
def secFwImage : Entry := ⟨0x050009, 1, (.block 50334532), .wo, 0, .any, 8, false⟩
/-- `sec.xmss_next` (0x0500:10), R137. -/
def secXmssNext : Entry := ⟨0x050010, 1, .u64, .ro, 0, .any, 0, false⟩
/-- `sec.xmss_reserved_end` (0x0500:11), R137. -/
def secXmssReservedEnd : Entry := ⟨0x050011, 1, .u64, .ro, 0, .any, 0, false⟩
/-- `sec.xmss_remaining` (0x0500:12), R137. -/
def secXmssRemaining : Entry := ⟨0x050012, 1, .u64, .ro, 0, .any, 0, false⟩
/-- `sec.xmss_skipped` (0x0500:13), R137. -/
def secXmssSkipped : Entry := ⟨0x050013, 1, .u64, .ro, 0, .any, 0, true⟩
/-- `sec.xmss_unclosed_count` (0x0500:14), R137. -/
def secXmssUnclosedCount : Entry := ⟨0x050014, 1, .u32, .ro, 0, .any, 0, true⟩
/-- `sec.xmss_low_water` (0x0500:15), R137. -/
def secXmssLowWater : Entry := ⟨0x050015, 1, .u64, .rw, 1073741824, .between 0 (2^40), 8, true⟩
/-- `sec.capsule_timeout` (0x0500:20), R137. -/
def secCapsuleTimeout : Entry := ⟨0x050020, 1, .u32, .rw, 60, .between 5 3600, 8, true⟩
/-- `sec.epoch_overlap` (0x0500:21), R137. -/
def secEpochOverlap : Entry := ⟨0x050021, 1, .u16, .rw, 250, .between 1 65535, 8, true⟩
/-- `sec.tag_fail_count` (0x0500:22), R137. -/
def secTagFailCount : Entry := ⟨0x050022, 1, .u64, .ro, 0, .any, 0, false⟩
/-- `sec.replay_reject_count` (0x0500:23), R137. -/
def secReplayRejectCount : Entry := ⟨0x050023, 1, .u64, .ro, 0, .any, 0, false⟩
/-- `sec.frames_zeroed` (0x0500:24), R137. -/
def secFramesZeroed : Entry := ⟨0x050024, 1, .u64, .ro, 0, .any, 0, false⟩
/-- `sec.params_digest` (0x0500:25), R137. -/
def secParamsDigest : Entry := ⟨0x050025, 1, (.octets 32), .ro, 0, .any, 0, false⟩
/-- `sec.capsule_reject_count` (0x0500:26), R137. -/
def secCapsuleRejectCount : Entry := ⟨0x050026, 1, .u32, .ro, 0, .any, 0, false⟩
/-- `sec.sealed_flit_drops` (0x0500:27), R137. -/
def secSealedFlitDrops : Entry := ⟨0x050027, 1, .u64, .ro, 0, .any, 0, false⟩
/-- `seal.domain` (0x0500:40–43), R137. -/
def sealDomain : Entry := ⟨0x050040, 4, .u16, .rws, 0xFFFF, .upToOr 4095 0xFFFF, 12, true⟩
/-- `seal.request` (0x0500:44–47), R137. -/
def sealRequest : Entry := ⟨0x050044, 4, .u8, .wo, 0, .between 0 1, 12, false⟩
/-- `seal.status` (0x0500:48–4B), R137. -/
def sealStatus : Entry := ⟨0x050048, 4, .u16, .ro, 0x0000, .any, 0, false⟩
/-- `seal.scrub_progress` (0x0500:4C–4F), R137. -/
def sealScrubProgress : Entry := ⟨0x05004C, 4, .u8, .ro, 0, .any, 0, false⟩
/-- `dsec.class` (0x2500:01), R137. -/
def dsecClass : Entry := ⟨0x250001, 1, .u8, .rw, 0, .between 0 2, 12, true⟩
/-- `dsec.tile_groups` (0x2500:02), R137. -/
def dsecTileGroups : Entry := ⟨0x250002, 1, .u64, .rw, 0, .any, 4, true⟩
/-- `dsec.traffic_protect` (0x2500:03), R137. -/
def dsecTrafficProtect : Entry := ⟨0x250003, 1, .bool, .rw, 1, .between 0 1, 8, true⟩
/-- `dsec.key_state` (0x2500:04), R137. -/
def dsecKeyState : Entry := ⟨0x250004, 1, .u8, .ro, 0, .any, 0, false⟩
/-- `dsec.epoch` (0x2500:05), R137. -/
def dsecEpoch : Entry := ⟨0x250005, 1, .u32, .ro, 0, .any, 0, false⟩
/-- `dsec.prev_epoch_pages` (0x2500:06), R137. -/
def dsecPrevEpochPages : Entry := ⟨0x250006, 1, .u64, .ro, 0, .any, 0, false⟩
/-- `dsec.attest_nonce` (0x2500:10), R137. -/
def dsecAttestNonce : Entry := ⟨0x250010, 1, (.octets 32), .wo, 0, .any, 14, false⟩
/-- `dsec.attest_state` (0x2500:11), R137. -/
def dsecAttestState : Entry := ⟨0x250011, 1, .u8, .ro, 0, .any, 0, false⟩
/-- `dsec.attest_cert` (0x2500:12), R137. -/
def dsecAttestCert : Entry := ⟨0x250012, 1, (.block 16384), .ro, 0, .any, 0, false⟩
/-- `dsec.key_capsule` (0x2500:13), R137. -/
def dsecKeyCapsule : Entry := ⟨0x250013, 1, (.block 1624), .wo, 0, .any, 14, false⟩
/-- `dsec.key_confirm` (0x2500:14), R137. -/
def dsecKeyConfirm : Entry := ⟨0x250014, 1, (.octets 32), .ro, 0, .any, 0, false⟩
/-- `dsec.key_erase` (0x2500:15), R137. -/
def dsecKeyErase : Entry := ⟨0x250015, 1, .u8, .wo, 0, .between 1 1, 12, false⟩

/-- The entries of R137. -/
def list04 : List Entry :=
  [secVendorKeyDigest, secFusedSvn, secFwSvnCommit, secFwPreferred, secFwConfirmed, secFwConfirm,
    secFwAutoConfirm, secFwTrialCount, secFwImage, secXmssNext, secXmssReservedEnd, secXmssRemaining,
    secXmssSkipped, secXmssUnclosedCount, secXmssLowWater, secCapsuleTimeout, secEpochOverlap, secTagFailCount,
    secReplayRejectCount, secFramesZeroed, secParamsDigest, secCapsuleRejectCount, secSealedFlitDrops, sealDomain,
    sealRequest, sealStatus, sealScrubProgress, dsecClass, dsecTileGroups, dsecTrafficProtect, dsecKeyState,
    dsecEpoch, dsecPrevEpochPages, dsecAttestNonce, dsecAttestState, dsecAttestCert, dsecKeyCapsule,
    dsecKeyConfirm, dsecKeyErase]

/-! The entries of spec/05_sessions.md, R164. -/

/-- `sess.in_use` (0x1300:01), R164. -/
def sessInUse : Entry := ⟨0x130001, 1, .u32, .ro, 0, .any, 0, false⟩
/-- `sess.state_counts` (0x1300:02), R164. -/
def sessStateCounts : Entry := ⟨0x130002, 1, (.octets 48), .ro, 0, .any, 0, false⟩
/-- `sess.cache_entries` (0x1300:03), R164. -/
def sessCacheEntries : Entry := ⟨0x130003, 1, .u32, .const, 16384, .any, 0, false⟩
/-- `sess.pinned` (0x1300:04), R164. -/
def sessPinned : Entry := ⟨0x130004, 1, .u32, .ro, 0, .any, 0, false⟩
/-- `sess.pin_limit` (0x1300:05), R164. -/
def sessPinLimit : Entry := ⟨0x130005, 1, .u32, .rws, 8192, .between 1024 12288, 6, true⟩
/-- `sess.cache_hit_count` (0x1300:06), R164. -/
def sessCacheHitCount : Entry := ⟨0x130006, 1, .u64, .ro, 0, .any, 0, false⟩
/-- `sess.cache_miss_count` (0x1300:07), R164. -/
def sessCacheMissCount : Entry := ⟨0x130007, 1, .u64, .ro, 0, .any, 0, false⟩
/-- `sess.pin_wait_count` (0x1300:08), R164. -/
def sessPinWaitCount : Entry := ⟨0x130008, 1, .u64, .ro, 0, .any, 0, false⟩
/-- `sess.ring_full_count` (0x1300:09), R164. -/
def sessRingFullCount : Entry := ⟨0x130009, 1, .u64, .ro, 0, .any, 0, false⟩
/-- `sess.stale_handle_count` (0x1300:0A), R164. -/
def sessStaleHandleCount : Entry := ⟨0x13000A, 1, .u64, .ro, 0, .any, 0, false⟩
/-- `sess.forward_count` (0x1300:0B), R164. -/
def sessForwardCount : Entry := ⟨0x13000B, 1, .u64, .ro, 0, .any, 0, false⟩
/-- `dsess.completion_key` (0x2300:01), R164. -/
def dsessCompletionKey : Entry := ⟨0x230001, 1, .u32, .rw, 0, .any, 6, true⟩
/-- `dsess.completion_offset` (0x2300:02), R164. -/
def dsessCompletionOffset : Entry := ⟨0x230002, 1, .u64, .rw, 0, .multiple 32, 6, true⟩
/-- `dsess.completion_entries` (0x2300:03), R164. -/
def dsessCompletionEntries : Entry := ⟨0x230003, 1, .u32, .rw, 4096, .pow2 64 1048576, 6, true⟩
/-- `dsess.completion_consumed` (0x2300:04), R164. -/
def dsessCompletionConsumed : Entry := ⟨0x230004, 1, .u32, .ro, 0, .any, 0, false⟩
/-- `dsess.notify_flow` (0x2300:05), R164. -/
def dsessNotifyFlow : Entry := ⟨0x230005, 1, .u16, .rw, 0xFFFF, .any, 6, true⟩
/-- `dsess.stream_every` (0x2300:06), R164. -/
def dsessStreamEvery : Entry := ⟨0x230006, 1, .u16, .rw, 0, .between 0 65535, 2, true⟩
/-- `dsess.max_sessions` (0x2300:07), R164. -/
def dsessMaxSessions : Entry := ⟨0x230007, 1, .u32, .rw, 0, .between 0 1048576, 4, true⟩
/-- `dsess.open_sessions` (0x2300:08), R164. -/
def dsessOpenSessions : Entry := ⟨0x230008, 1, .u32, .ro, 0, .any, 0, false⟩
/-- `dsess.default_priority` (0x2300:09), R164. -/
def dsessDefaultPriority : Entry := ⟨0x230009, 1, .u8, .rw, 3, .between 0 7, 2, true⟩
/-- `dsess.priority_cap` (0x2300:0A), R164. -/
def dsessPriorityCap : Entry := ⟨0x23000A, 1, .u8, .rw, 7, .between 0 7, 4, true⟩
/-- `dsess.export_key` (0x2300:0B), R164. -/
def dsessExportKey : Entry := ⟨0x23000B, 1, .u32, .rw, 0, .any, 6, true⟩
/-- `dsess.export_offset` (0x2300:0C), R164. -/
def dsessExportOffset : Entry := ⟨0x23000C, 1, .u64, .rw, 0, .multiple 64, 6, true⟩
/-- `dsess.export_flow` (0x2300:0D), R164. -/
def dsessExportFlow : Entry := ⟨0x23000D, 1, .u16, .rw, 0xFFFF, .any, 6, true⟩
/-- `dsess.export_bytes` (0x2300:0E), R164. -/
def dsessExportBytes : Entry := ⟨0x23000E, 1, .u64, .rw, 0, .any, 6, true⟩
/-- `dsess.slot_base` (0x2300:10–13), R164. -/
def dsessSlotBase : Entry := ⟨0x230010, 4, .u32, .rw, 0, .between 0 262143, 4, true⟩
/-- `dsess.slot_count` (0x2300:14–17), R164. -/
def dsessSlotCount : Entry := ⟨0x230014, 4, .u32, .rw, 0, .between 0 262144, 4, true⟩
/-- `dsess.cq_stall_count` (0x2300:20), R164. -/
def dsessCqStallCount : Entry := ⟨0x230020, 1, .u64, .ro, 0, .any, 0, false⟩
/-- `dsess.deadline_miss_count` (0x2300:21), R164. -/
def dsessDeadlineMissCount : Entry := ⟨0x230021, 1, .u64, .ro, 0, .any, 0, false⟩

/-- The entries of R164. -/
def list05 : List Entry :=
  [sessInUse, sessStateCounts, sessCacheEntries, sessPinned, sessPinLimit, sessCacheHitCount,
    sessCacheMissCount, sessPinWaitCount, sessRingFullCount, sessStaleHandleCount, sessForwardCount,
    dsessCompletionKey, dsessCompletionOffset, dsessCompletionEntries, dsessCompletionConsumed, dsessNotifyFlow,
    dsessStreamEvery, dsessMaxSessions, dsessOpenSessions, dsessDefaultPriority, dsessPriorityCap, dsessExportKey,
    dsessExportOffset, dsessExportFlow, dsessExportBytes, dsessSlotBase, dsessSlotCount, dsessCqStallCount,
    dsessDeadlineMissCount]

/-! The entries of spec/06_tiers.md, R206. -/

/-- `tier.near_frames_total` (0x1200:01), R206. -/
def tierNearFramesTotal : Entry := ⟨0x120001, 1, .u32, .ro, 0, .any, 0, false⟩
/-- `tier.near_frames_free` (0x1200:02), R206. -/
def tierNearFramesFree : Entry := ⟨0x120002, 1, .u32, .ro, 0, .any, 0, false⟩
/-- `tier.deep_frames_total` (0x1200:03), R206. -/
def tierDeepFramesTotal : Entry := ⟨0x120003, 1, .u32, .ro, 0, .any, 0, false⟩
/-- `tier.deep_frames_free` (0x1200:04), R206. -/
def tierDeepFramesFree : Entry := ⟨0x120004, 1, .u32, .ro, 0, .any, 0, false⟩
/-- `tier.near_reserve` (0x1200:05), R206. -/
def tierNearReserve : Entry := ⟨0x120005, 1, .u32, .rws, 10112, .between 4096 32768, 4, true⟩
/-- `tier.near_low_water` (0x1200:06), R206. -/
def tierNearLowWater : Entry := ⟨0x120006, 1, .u32, .rw, 16384, .special, 6, true⟩
/-- `tier.near_high_water` (0x1200:07), R206. -/
def tierNearHighWater : Entry := ⟨0x120007, 1, .u32, .rw, 32768, .special, 6, true⟩
/-- `tier.deep_low_water` (0x1200:08), R206. -/
def tierDeepLowWater : Entry := ⟨0x120008, 1, .u32, .rw, 65536, .special, 6, true⟩
/-- `tier.deep_high_water` (0x1200:09), R206. -/
def tierDeepHighWater : Entry := ⟨0x120009, 1, .u32, .rw, 131072, .special, 6, true⟩
/-- `tier.share_near` (0x1200:10), R206. -/
def tierShareNear : Entry := ⟨0x120010, 1, (.octets 3), .rw, 786946, .special, 4, true⟩
/-- `tier.share_deep` (0x1200:11), R206. -/
def tierShareDeep : Entry := ⟨0x120011, 1, (.octets 3), .rw, 264196, .special, 4, true⟩
/-- `tier.mover_slots` (0x1200:12), R206. -/
def tierMoverSlots : Entry := ⟨0x120012, 1, .u16, .rw, 1024, .between 64 2048, 4, true⟩
/-- `tier.mover_queued` (0x1200:13), R206. -/
def tierMoverQueued : Entry := ⟨0x120013, 1, .u32, .ro, 0, .any, 0, false⟩
/-- `tier.move_count` (0x1200:20), R206. -/
def tierMoveCount : Entry := ⟨0x120020, 1, .u64, .ro, 0, .any, 0, false⟩
/-- `tier.evict_near_count` (0x1200:21), R206. -/
def tierEvictNearCount : Entry := ⟨0x120021, 1, .u64, .ro, 0, .any, 0, false⟩
/-- `tier.evict_deep_count` (0x1200:22), R206. -/
def tierEvictDeepCount : Entry := ⟨0x120022, 1, .u64, .ro, 0, .any, 0, false⟩
/-- `tier.crc_retry_count` (0x1200:23), R206. -/
def tierCrcRetryCount : Entry := ⟨0x120023, 1, .u64, .ro, 0, .any, 0, false⟩
/-- `tier.poison_count` (0x1200:24), R206. -/
def tierPoisonCount : Entry := ⟨0x120024, 1, .u64, .ro, 0, .any, 0, false⟩
/-- `tier.frames_retired` (0x1200:25), R206. -/
def tierFramesRetired : Entry := ⟨0x120025, 1, .u32, .ro, 0, .any, 0, true⟩
/-- `tier.alloc_wait_count` (0x1200:26), R206. -/
def tierAllocWaitCount : Entry := ⟨0x120026, 1, .u64, .ro, 0, .any, 0, false⟩
/-- `tier.promote_wait_count` (0x1200:27), R206. -/
def tierPromoteWaitCount : Entry := ⟨0x120027, 1, .u64, .ro, 0, .any, 0, false⟩
/-- `dtier.near_floor` (0x2200:01), R206. -/
def dtierNearFloor : Entry := ⟨0x220001, 1, .u32, .rw, 0, .special, 4, true⟩
/-- `dtier.near_cap` (0x2200:02), R206. -/
def dtierNearCap : Entry := ⟨0x220002, 1, .u32, .rw, 0xFFFFFFFF, .special, 4, true⟩
/-- `dtier.deep_floor` (0x2200:03), R206. -/
def dtierDeepFloor : Entry := ⟨0x220003, 1, .u32, .rw, 0, .special, 4, true⟩
/-- `dtier.deep_cap` (0x2200:04), R206. -/
def dtierDeepCap : Entry := ⟨0x220004, 1, .u32, .rw, 0xFFFFFFFF, .special, 4, true⟩
/-- `dtier.park_delay` (0x2200:05), R206. -/
def dtierParkDelay : Entry := ⟨0x220005, 1, .u32, .rw, 2500, .any, 2, true⟩
/-- `dtier.deep_ttl` (0x2200:06), R206. -/
def dtierDeepTtl : Entry := ⟨0x220006, 1, .u32, .rw, 150000, .between 1 0xFFFFFFFF, 2, true⟩
/-- `dtier.slate_policy` (0x2200:07), R206. -/
def dtierSlatePolicy : Entry := ⟨0x220007, 1, .u8, .rw, 0, .between 0 2, 2, true⟩
/-- `dtier.slate_tail_blocks` (0x2200:08), R206. -/
def dtierSlateTailBlocks : Entry := ⟨0x220008, 1, .u8, .rw, 4, .between 0 64, 2, true⟩
/-- `dtier.slate_hot_pages` (0x2200:09), R206. -/
def dtierSlateHotPages : Entry := ⟨0x220009, 1, .u16, .rw, 256, .between 0 4096, 2, true⟩
/-- `dtier.slate_ttl` (0x2200:0A), R206. -/
def dtierSlateTtl : Entry := ⟨0x22000A, 1, .u32, .rw, 0, .any, 2, true⟩
/-- `dtier.slate_expiry` (0x2200:0B), R206. -/
def dtierSlateExpiry : Entry := ⟨0x22000B, 1, .u8, .rw, 0, .between 0 1, 2, true⟩
/-- `dtier.slate_region` (0x2200:0C), R206. -/
def dtierSlateRegion : Entry := ⟨0x22000C, 1, .u8, .rw, 0, .between 0 15, 2, true⟩
/-- `dtier.far_ttl` (0x2200:0D), R206. -/
def dtierFarTtl : Entry := ⟨0x22000D, 1, .u32, .rw, 0, .any, 2, true⟩
/-- `dtier.deep_evict` (0x2200:0E), R206. -/
def dtierDeepEvict : Entry := ⟨0x22000E, 1, .u8, .rw, 1, .between 0 1, 2, true⟩
/-- `dtier.frame_grace` (0x2200:0F), R206. -/
def dtierFrameGrace : Entry := ⟨0x22000F, 1, .u16, .rw, 16, .between 1 65535, 2, true⟩
/-- `dtier.far_flow` (0x2200:10–1F), R206. -/
def dtierFarFlow : Entry := ⟨0x220010, 16, .u16, .rw, 0xFFFF, .any, 6, true⟩
/-- `dtier.far_key` (0x2200:20–2F), R206. -/
def dtierFarKey : Entry := ⟨0x220020, 16, .u32, .rw, 0, .any, 6, true⟩
/-- `dtier.far_base` (0x2200:30–3F), R206. -/
def dtierFarBase : Entry := ⟨0x220030, 16, .u64, .rw, 0, .multiple 65536, 6, true⟩
/-- `dtier.far_frames` (0x2200:40–4F), R206. -/
def dtierFarFrames : Entry := ⟨0x220040, 16, .u32, .rw, 0, .any, 6, true⟩
/-- `dtier.near_owned` (0x2200:50), R206. -/
def dtierNearOwned : Entry := ⟨0x220050, 1, .u32, .ro, 0, .any, 0, false⟩
/-- `dtier.deep_owned` (0x2200:51), R206. -/
def dtierDeepOwned : Entry := ⟨0x220051, 1, .u32, .ro, 0, .any, 0, false⟩
/-- `dtier.far_owned` (0x2200:52), R206. -/
def dtierFarOwned : Entry := ⟨0x220052, 1, .u64, .ro, 0, .any, 0, false⟩
/-- `dtier.recompute_tokens` (0x2200:53), R206. -/
def dtierRecomputeTokens : Entry := ⟨0x220053, 1, .u64, .ro, 0, .any, 0, false⟩

/-- The entries of R206. -/
def list06 : List Entry :=
  [tierNearFramesTotal, tierNearFramesFree, tierDeepFramesTotal, tierDeepFramesFree, tierNearReserve,
    tierNearLowWater, tierNearHighWater, tierDeepLowWater, tierDeepHighWater, tierShareNear, tierShareDeep,
    tierMoverSlots, tierMoverQueued, tierMoveCount, tierEvictNearCount, tierEvictDeepCount, tierCrcRetryCount,
    tierPoisonCount, tierFramesRetired, tierAllocWaitCount, tierPromoteWaitCount, dtierNearFloor, dtierNearCap,
    dtierDeepFloor, dtierDeepCap, dtierParkDelay, dtierDeepTtl, dtierSlatePolicy, dtierSlateTailBlocks,
    dtierSlateHotPages] ++
  [dtierSlateTtl, dtierSlateExpiry, dtierSlateRegion, dtierFarTtl, dtierDeepEvict, dtierFrameGrace,
    dtierFarFlow, dtierFarKey, dtierFarBase, dtierFarFrames, dtierNearOwned, dtierDeepOwned, dtierFarOwned,
    dtierRecomputeTokens]

/-! The entries of spec/07_fabric.md, R241. -/

/-- `fabric.tiles_working` (0x1100:01), R241. -/
def fabricTilesWorking : Entry := ⟨0x110001, 1, .u16, .ro, 0, .any, 0, false⟩
/-- `fabric.fence_map` (0x1100:02), R241. -/
def fabricFenceMap : Entry := ⟨0x110002, 1, (.octets 32), .ro, 0, .any, 0, true⟩
/-- `fabric.fence_clear` (0x1100:03), R241. -/
def fabricFenceClear : Entry := ⟨0x110003, 1, .u8, .wo, 0, .between 1 1, 2, false⟩
/-- `fabric.peak_fp4` (0x1100:04), R241. -/
def fabricPeakFp4 : Entry := ⟨0x110004, 1, .f32, .ro, 0, .any, 0, false⟩
/-- `fabric.slots_step` (0x1100:10), R241. -/
def fabricSlotsStep : Entry := ⟨0x110010, 1, .u16, .rw, 2048, .special, 4, true⟩
/-- `fabric.slots_remote` (0x1100:11), R241. -/
def fabricSlotsRemote : Entry := ⟨0x110011, 1, .u16, .rw, 1024, .special, 4, true⟩
/-- `fabric.tracker_in_use` (0x1100:12), R241. -/
def fabricTrackerInUse : Entry := ⟨0x110012, 1, (.octets 6), .ro, 0, .any, 0, false⟩
/-- `fabric.op_timeout` (0x1100:13), R241. -/
def fabricOpTimeout : Entry := ⟨0x110013, 1, .u16, .rw, 100, .between 1 10000, 4, true⟩
/-- `fabric.xbar_exchange_share` (0x1100:14), R241. -/
def fabricXbarExchangeShare : Entry := ⟨0x110014, 1, .u8, .rw, 12, .between 4 14, 4, true⟩
/-- `fabric.pattern_hit_count` (0x1100:20), R241. -/
def fabricPatternHitCount : Entry := ⟨0x110020, 1, .u64, .ro, 0, .any, 0, false⟩
/-- `fabric.pattern_miss_count` (0x1100:21), R241. -/
def fabricPatternMissCount : Entry := ⟨0x110021, 1, .u64, .ro, 0, .any, 0, false⟩
/-- `fabric.pattern_switch_count` (0x1100:22), R241. -/
def fabricPatternSwitchCount : Entry := ⟨0x110022, 1, .u64, .ro, 0, .any, 0, false⟩
/-- `fabric.sram_corrected_count` (0x1100:23), R241. -/
def fabricSramCorrectedCount : Entry := ⟨0x110023, 1, .u64, .ro, 0, .any, 0, false⟩
/-- `fabric.tile_error_count` (0x1100:24), R241. -/
def fabricTileErrorCount : Entry := ⟨0x110024, 1, .u32, .ro, 0, .any, 0, false⟩
/-- `fabric.op_timeout_count` (0x1100:25), R241. -/
def fabricOpTimeoutCount : Entry := ⟨0x110025, 1, .u32, .ro, 0, .any, 0, false⟩
/-- `fabric.tracker_wait_count` (0x1100:26), R241. -/
def fabricTrackerWaitCount : Entry := ⟨0x110026, 1, .u64, .ro, 0, .any, 0, false⟩
/-- `fabric.no_group_count` (0x1100:27), R241. -/
def fabricNoGroupCount : Entry := ⟨0x110027, 1, .u64, .ro, 0, .any, 0, false⟩
/-- `model.state` (0x3100:01), R241. -/
def modelState : Entry := ⟨0x310001, 1, .u8, .ro, 0, .any, 0, false⟩
/-- `model.domain` (0x3100:02), R241. -/
def modelDomain : Entry := ⟨0x310002, 1, .u16, .ro, 0xFFFF, .any, 0, false⟩
/-- `model.placement` (0x3100:03), R241. -/
def modelPlacement : Entry := ⟨0x310003, 1, .u8, .ro, 0, .any, 0, false⟩
/-- `model.channels` (0x3100:04), R241. -/
def modelChannels : Entry := ⟨0x310004, 1, .u8, .ro, 0x00, .any, 0, false⟩
/-- `model.frames` (0x3100:05), R241. -/
def modelFrames : Entry := ⟨0x310005, 1, .u32, .ro, 0, .any, 0, false⟩
/-- `model.layers` (0x3100:06), R241. -/
def modelLayers : Entry := ⟨0x310006, 1, .u16, .ro, 0, .any, 0, false⟩
/-- `model.block_tokens` (0x3100:07), R241. -/
def modelBlockTokens : Entry := ⟨0x310007, 1, .u16, .ro, 0, .any, 0, false⟩
/-- `model.measurement` (0x3100:08), R241. -/
def modelMeasurement : Entry := ⟨0x310008, 1, (.octets 32), .ro, 0, .any, 0, false⟩
/-- `model.pinned_slots` (0x3100:09), R241. -/
def modelPinnedSlots : Entry := ⟨0x310009, 1, .u8, .ro, 0, .any, 0, false⟩
/-- `model.stage_map` (0x3100:10), R241. -/
def modelStageMap : Entry := ⟨0x310010, 1, (.octets 64), .rws, (2^512 - 1), .special, 4, false⟩
/-- `model.stage` (0x3100:11), R241. -/
def modelStage : Entry := ⟨0x310011, 1, .u8, .ro, 0, .any, 0, false⟩
/-- `model.stage_count` (0x3100:12), R241. -/
def modelStageCount : Entry := ⟨0x310012, 1, .u8, .ro, 0, .any, 0, false⟩
/-- `model.pattern_miss_count` (0x3100:20), R241. -/
def modelPatternMissCount : Entry := ⟨0x310020, 1, .u64, .ro, 0, .any, 0, false⟩

/-- The entries of R241. -/
def list07 : List Entry :=
  [fabricTilesWorking, fabricFenceMap, fabricFenceClear, fabricPeakFp4, fabricSlotsStep, fabricSlotsRemote,
    fabricTrackerInUse, fabricOpTimeout, fabricXbarExchangeShare, fabricPatternHitCount, fabricPatternMissCount,
    fabricPatternSwitchCount, fabricSramCorrectedCount, fabricTileErrorCount, fabricOpTimeoutCount,
    fabricTrackerWaitCount, fabricNoGroupCount, modelState, modelDomain, modelPlacement, modelChannels,
    modelFrames, modelLayers, modelBlockTokens, modelMeasurement, modelPinnedSlots, modelStageMap, modelStage,
    modelStageCount, modelPatternMissCount]

/-! The entries of spec/08_attention.md, R264. -/

/-- `attn.lab_entries` (0x1400:01), R264. -/
def attnLabEntries : Entry := ⟨0x140001, 1, .u16, .const, 512, .any, 0, false⟩
/-- `attn.walk_buffer_words` (0x1400:02), R264. -/
def attnWalkBufferWords : Entry := ⟨0x140002, 1, .u32, .const, 262144, .any, 0, false⟩
/-- `attn.batch_rows_max` (0x1400:03), R264. -/
def attnBatchRowsMax : Entry := ⟨0x140003, 1, .u16, .const, 2048, .any, 0, false⟩
/-- `attn.staging_frames` (0x1400:04), R264. -/
def attnStagingFrames : Entry := ⟨0x140004, 1, .u32, .ro, 0, .any, 0, false⟩
/-- `attn.lab_hit_count` (0x1400:10), R264. -/
def attnLabHitCount : Entry := ⟨0x140010, 1, .u64, .ro, 0, .any, 0, false⟩
/-- `attn.lab_miss_count` (0x1400:11), R264. -/
def attnLabMissCount : Entry := ⟨0x140011, 1, .u64, .ro, 0, .any, 0, false⟩
/-- `attn.walk_latency_max` (0x1400:12), R264. -/
def attnWalkLatencyMax : Entry := ⟨0x140012, 1, .u32, .ro, 0, .any, 0, false⟩
/-- `attn.invalidate_count` (0x1400:13), R264. -/
def attnInvalidateCount : Entry := ⟨0x140013, 1, .u64, .ro, 0, .any, 0, false⟩
/-- `attn.reed_beats` (0x1400:20), R264. -/
def attnReedBeats : Entry := ⟨0x140020, 1, .u64, .ro, 0, .any, 0, false⟩
/-- `attn.reed_acc_wait_count` (0x1400:21), R264. -/
def attnReedAccWaitCount : Entry := ⟨0x140021, 1, .u64, .ro, 0, .any, 0, false⟩
/-- `attn.reed_empty_count` (0x1400:22), R264. -/
def attnReedEmptyCount : Entry := ⟨0x140022, 1, .u64, .ro, 0, .any, 0, false⟩
/-- `attn.tile_record_stall_count` (0x1400:23), R264. -/
def attnTileRecordStallCount : Entry := ⟨0x140023, 1, .u64, .ro, 0, .any, 0, false⟩
/-- `attn.retrieval_steps` (0x1400:24), R264. -/
def attnRetrievalSteps : Entry := ⟨0x140024, 1, .u64, .ro, 0, .any, 0, false⟩
/-- `attn.cairn_deep_reads` (0x1400:25), R264. -/
def attnCairnDeepReads : Entry := ⟨0x140025, 1, .u64, .ro, 0, .any, 0, false⟩
/-- `mattn.retrieval_threshold` (0x3400:01), R264. -/
def mattnRetrievalThreshold : Entry := ⟨0x340001, 1, .u32, .rw, 16384, .between 1024 1048576, 6, false⟩
/-- `mattn.top_pages` (0x3400:02), R264. -/
def mattnTopPages : Entry := ⟨0x340002, 1, .u16, .rw, 64, .between 1 4096, 6, false⟩
/-- `mattn.sink_blocks` (0x3400:03), R264. -/
def mattnSinkBlocks : Entry := ⟨0x340003, 1, .u8, .rw, 1, .between 0 64, 6, false⟩
/-- `mattn.tail_blocks` (0x3400:04), R264. -/
def mattnTailBlocks : Entry := ⟨0x340004, 1, .u8, .rw, 4, .between 1 64, 6, false⟩
/-- `mattn.prefetch_layers` (0x3400:05), R264. -/
def mattnPrefetchLayers : Entry := ⟨0x340005, 1, .u8, .rw, 2, .between 0 4, 4, false⟩
/-- `mattn.cairn_pool` (0x3400:06), R264. -/
def mattnCairnPool : Entry := ⟨0x340006, 1, .u8, .ro, 0, .any, 0, false⟩
/-- `mattn.kv_format` (0x3400:07), R264. -/
def mattnKvFormat : Entry := ⟨0x340007, 1, .u8, .ro, 0, .any, 0, false⟩

/-- The entries of R264. -/
def list08 : List Entry :=
  [attnLabEntries, attnWalkBufferWords, attnBatchRowsMax, attnStagingFrames, attnLabHitCount,
    attnLabMissCount, attnWalkLatencyMax, attnInvalidateCount, attnReedBeats, attnReedAccWaitCount,
    attnReedEmptyCount, attnTileRecordStallCount, attnRetrievalSteps, attnCairnDeepReads, mattnRetrievalThreshold,
    mattnTopPages, mattnSinkBlocks, mattnTailBlocks, mattnPrefetchLayers, mattnCairnPool, mattnKvFormat]

/-! The entries of spec/09_serving_step.md, R291. -/

/-- `step.prefill_share` (0x1300:20), R291. -/
def stepPrefillShare : Entry := ⟨0x130020, 1, .u8, .rw, 4, .between 0 15, 4, true⟩
/-- `step.chunk_tokens` (0x1300:21), R291. -/
def stepChunkTokens : Entry := ⟨0x130021, 1, .u16, .rw, 512, .special, 6, true⟩
/-- `step.prefill_cutoff` (0x1300:22), R291. -/
def stepPrefillCutoff : Entry := ⟨0x130022, 1, .u8, .rw, 12, .between 1 16, 4, true⟩
/-- `step.batch_rows` (0x1300:23), R291. -/
def stepBatchRows : Entry := ⟨0x130023, 1, .u16, .ro, 0, .any, 0, false⟩
/-- `step.count` (0x1300:30), R291. -/
def stepCount : Entry := ⟨0x130030, 1, .u64, .ro, 0, .any, 0, false⟩
/-- `step.left_out_count` (0x1300:31), R291. -/
def stepLeftOutCount : Entry := ⟨0x130031, 1, .u64, .ro, 0, .any, 0, false⟩
/-- `step.chunk_count` (0x1300:32), R291. -/
def stepChunkCount : Entry := ⟨0x130032, 1, .u64, .ro, 0, .any, 0, false⟩
/-- `step.spec_proposed` (0x1300:33), R291. -/
def stepSpecProposed : Entry := ⟨0x130033, 1, .u64, .ro, 0, .any, 0, false⟩
/-- `step.spec_accepted` (0x1300:34), R291. -/
def stepSpecAccepted : Entry := ⟨0x130034, 1, .u64, .ro, 0, .any, 0, false⟩
/-- `step.nonfinite_count` (0x1300:35), R291. -/
def stepNonfiniteCount : Entry := ⟨0x130035, 1, .u64, .ro, 0, .any, 0, false⟩
/-- `dbudget.balance` (0x2300:30), R291. -/
def dbudgetBalance : Entry := ⟨0x230030, 1, .i64, .ro, 0, .any, 0, false⟩
/-- `dbudget.refill` (0x2300:31), R291. -/
def dbudgetRefill : Entry := ⟨0x230031, 1, .u32, .rw, 1048576, .any, 4, true⟩
/-- `dbudget.cap` (0x2300:32), R291. -/
def dbudgetCap : Entry := ⟨0x230032, 1, .i64, .rw, (2^40), .between 1 (2^62), 4, true⟩
/-- `dbudget.session_limit` (0x2300:33), R291. -/
def dbudgetSessionLimit : Entry := ⟨0x230033, 1, .u64, .rw, 0, .any, 6, true⟩
/-- `dbudget.grace` (0x2300:34), R291. -/
def dbudgetGrace : Entry := ⟨0x230034, 1, .u16, .rw, 16, .between 0 65535, 6, true⟩
/-- `dbudget.adjust` (0x2300:35), R291. -/
def dbudgetAdjust : Entry := ⟨0x230035, 1, .i64, .wo, 0, .any, 4, false⟩
/-- `dbudget.reserved` (0x2300:36), R291. -/
def dbudgetReserved : Entry := ⟨0x230036, 1, .u64, .ro, 0, .any, 0, false⟩
/-- `dbudget.refilled` (0x2300:37), R291. -/
def dbudgetRefilled : Entry := ⟨0x230037, 1, .u64, .ro, 0, .any, 0, false⟩
/-- `dbudget.charged` (0x2300:38), R291. -/
def dbudgetCharged : Entry := ⟨0x230038, 1, .u64, .ro, 0, .any, 0, false⟩
/-- `dbudget.adjusted` (0x2300:39), R291. -/
def dbudgetAdjusted : Entry := ⟨0x230039, 1, .i64, .ro, 0, .any, 0, false⟩
/-- `dbudget.exhausted_count` (0x2300:3A), R291. -/
def dbudgetExhaustedCount : Entry := ⟨0x23003A, 1, .u64, .ro, 0, .any, 0, false⟩
/-- `dbudget.wait_count` (0x2300:3B), R291. -/
def dbudgetWaitCount : Entry := ⟨0x23003B, 1, .u64, .ro, 0, .any, 0, false⟩
/-- `mstep.draft_slot` (0x3300:01), R291. -/
def mstepDraftSlot : Entry := ⟨0x330001, 1, .u8, .rw, 0xFF, .upToOr 15 0xFF, 6, false⟩
/-- `mstep.draft_tokens` (0x3300:02), R291. -/
def mstepDraftTokens : Entry := ⟨0x330002, 1, .u8, .rw, 4, .between 0 8, 6, false⟩
/-- `mstep.draft_lpn_base` (0x3300:03), R291. -/
def mstepDraftLpnBase : Entry := ⟨0x330003, 1, .u32, .ro, 0, .any, 0, false⟩

/-- The entries of R291. -/
def list09 : List Entry :=
  [stepPrefillShare, stepChunkTokens, stepPrefillCutoff, stepBatchRows, stepCount, stepLeftOutCount,
    stepChunkCount, stepSpecProposed, stepSpecAccepted, stepNonfiniteCount, dbudgetBalance, dbudgetRefill,
    dbudgetCap, dbudgetSessionLimit, dbudgetGrace, dbudgetAdjust, dbudgetReserved, dbudgetRefilled,
    dbudgetCharged, dbudgetAdjusted, dbudgetExhaustedCount, dbudgetWaitCount, mstepDraftSlot, mstepDraftTokens,
    mstepDraftLpnBase]

/-! The entries of spec/10_text_grammar.md, R318. -/

/-- `text.vocab_cache_entries` (0x1500:01), R318. -/
def textVocabCacheEntries : Entry := ⟨0x150001, 1, .u32, .const, 65536, .any, 0, false⟩
/-- `text.vocab_loaded` (0x1500:02), R318. -/
def textVocabLoaded : Entry := ⟨0x150002, 1, .u16, .ro, 0x0000, .any, 0, false⟩
/-- `text.grammar_lanes` (0x1500:03), R318. -/
def textGrammarLanes : Entry := ⟨0x150003, 1, .u8, .const, 16, .any, 0, false⟩
/-- `text.bytes_tokenised` (0x1500:10), R318. -/
def textBytesTokenised : Entry := ⟨0x150010, 1, .u64, .ro, 0, .any, 0, false⟩
/-- `text.tokens_produced` (0x1500:11), R318. -/
def textTokensProduced : Entry := ⟨0x150011, 1, .u64, .ro, 0, .any, 0, false⟩
/-- `text.invalid_utf8_count` (0x1500:12), R318. -/
def textInvalidUtf8Count : Entry := ⟨0x150012, 1, .u64, .ro, 0, .any, 0, false⟩
/-- `text.cache_hit_count` (0x1500:13), R318. -/
def textCacheHitCount : Entry := ⟨0x150013, 1, .u64, .ro, 0, .any, 0, false⟩
/-- `text.cache_miss_count` (0x1500:14), R318. -/
def textCacheMissCount : Entry := ⟨0x150014, 1, .u64, .ro, 0, .any, 0, false⟩
/-- `text.stop_match_count` (0x1500:15), R318. -/
def textStopMatchCount : Entry := ⟨0x150015, 1, .u64, .ro, 0, .any, 0, false⟩
/-- `text.trim_count` (0x1500:16), R318. -/
def textTrimCount : Entry := ⟨0x150016, 1, .u64, .ro, 0, .any, 0, false⟩
/-- `grammar.mask_count` (0x1500:20), R318. -/
def grammarMaskCount : Entry := ⟨0x150020, 1, .u64, .ro, 0, .any, 0, false⟩
/-- `grammar.mask_late_count` (0x1500:21), R318. -/
def grammarMaskLateCount : Entry := ⟨0x150021, 1, .u64, .ro, 0, .any, 0, false⟩
/-- `grammar.deadend_count` (0x1500:22), R318. -/
def grammarDeadendCount : Entry := ⟨0x150022, 1, .u64, .ro, 0, .any, 0, false⟩
/-- `grammar.mask_time_max` (0x1500:23), R318. -/
def grammarMaskTimeMax : Entry := ⟨0x150023, 1, .u32, .ro, 0, .any, 0, false⟩
/-- `grammar.state_reset_count` (0x1500:24), R318. -/
def grammarStateResetCount : Entry := ⟨0x150024, 1, .u64, .ro, 0, .any, 0, false⟩
/-- `mtext.vocab_slot` (0x3500:01), R318. -/
def mtextVocabSlot : Entry := ⟨0x350001, 1, .u8, .ro, 0xFF, .any, 0, false⟩
/-- `mtext.special_match` (0x3500:02), R318. -/
def mtextSpecialMatch : Entry := ⟨0x350002, 1, .bool, .rw, 0, .between 0 1, 6, false⟩

/-- The entries of R318. -/
def list10 : List Entry :=
  [textVocabCacheEntries, textVocabLoaded, textGrammarLanes, textBytesTokenised, textTokensProduced,
    textInvalidUtf8Count, textCacheHitCount, textCacheMissCount, textStopMatchCount, textTrimCount,
    grammarMaskCount, grammarMaskLateCount, grammarDeadendCount, grammarMaskTimeMax, grammarStateResetCount,
    mtextVocabSlot, mtextSpecialMatch]

/-! The entries of spec/11_selection.md, R344. -/

/-- `sel.lanes` (0x1600:01), R344. -/
def selLanes : Entry := ⟨0x160001, 1, .u8, .const, 16, .any, 0, false⟩
/-- `sel.select_lanes` (0x1600:02), R344. -/
def selSelectLanes : Entry := ⟨0x160002, 1, .u8, .rw, 8, .between 0 16, 4, true⟩
/-- `sel.partial_depth` (0x1600:03), R344. -/
def selPartialDepth : Entry := ⟨0x160003, 1, .u16, .rw, 256, .between 64 4096, 4, true⟩
/-- `sel.staging_frames` (0x1600:04), R344. -/
def selStagingFrames : Entry := ⟨0x160004, 1, .u32, .ro, 0, .any, 0, false⟩
/-- `sel.row_count` (0x1600:10), R344. -/
def selRowCount : Entry := ⟨0x160010, 1, .u64, .ro, 0, .any, 0, false⟩
/-- `sel.fewer_count` (0x1600:11), R344. -/
def selFewerCount : Entry := ⟨0x160011, 1, .u64, .ro, 0, .any, 0, false⟩
/-- `sel.duplicate_count` (0x1600:12), R344. -/
def selDuplicateCount : Entry := ⟨0x160012, 1, .u64, .ro, 0, .any, 0, false⟩
/-- `sel.continuation_count` (0x1600:13), R344. -/
def selContinuationCount : Entry := ⟨0x160013, 1, .u64, .ro, 0, .any, 0, false⟩
/-- `sel.select_abort_count` (0x1600:14), R344. -/
def selSelectAbortCount : Entry := ⟨0x160014, 1, .u64, .ro, 0, .any, 0, false⟩
/-- `sel.row_time_max` (0x1600:15), R344. -/
def selRowTimeMax : Entry := ⟨0x160015, 1, .u32, .ro, 0, .any, 0, false⟩

/-- The entries of R344. -/
def list11 : List Entry :=
  [selLanes, selSelectLanes, selPartialDepth, selStagingFrames, selRowCount, selFewerCount, selDuplicateCount,
    selContinuationCount, selSelectAbortCount, selRowTimeMax]

/-! The entries of spec/12_search.md, R367. -/

/-- `search.batch_queries` (0x1700:01), R367. -/
def searchBatchQueries : Entry := ⟨0x170001, 1, .u8, .const, 64, .any, 0, false⟩
/-- `search.max_probe` (0x1700:02), R367. -/
def searchMaxProbe : Entry := ⟨0x170002, 1, .u32, .rw, 256, .between 1 65536, 4, true⟩
/-- `search.compact_quarter` (0x1700:03), R367. -/
def searchCompactQuarter : Entry := ⟨0x170003, 1, .u8, .rw, 1, .between 1 3, 4, true⟩
/-- `search.collections` (0x1700:04), R367. -/
def searchCollections : Entry := ⟨0x170004, 1, .u16, .ro, 0, .any, 0, false⟩
/-- `search.frames` (0x1700:05), R367. -/
def searchFrames : Entry := ⟨0x170005, 1, .u32, .ro, 0, .any, 0, false⟩
/-- `search.query_count` (0x1700:10), R367. -/
def searchQueryCount : Entry := ⟨0x170010, 1, .u64, .ro, 0, .any, 0, false⟩
/-- `search.records_scanned` (0x1700:11), R367. -/
def searchRecordsScanned : Entry := ⟨0x170011, 1, .u64, .ro, 0, .any, 0, false⟩
/-- `search.widen_count` (0x1700:12), R367. -/
def searchWidenCount : Entry := ⟨0x170012, 1, .u64, .ro, 0, .any, 0, false⟩
/-- `search.fewer_count` (0x1700:13), R367. -/
def searchFewerCount : Entry := ⟨0x170013, 1, .u64, .ro, 0, .any, 0, false⟩
/-- `search.insert_count` (0x1700:14), R367. -/
def searchInsertCount : Entry := ⟨0x170014, 1, .u64, .ro, 0, .any, 0, false⟩
/-- `search.insert_refused` (0x1700:15), R367. -/
def searchInsertRefused : Entry := ⟨0x170015, 1, .u64, .ro, 0, .any, 0, false⟩
/-- `search.delete_count` (0x1700:16), R367. -/
def searchDeleteCount : Entry := ⟨0x170016, 1, .u64, .ro, 0, .any, 0, false⟩
/-- `search.compaction_count` (0x1700:17), R367. -/
def searchCompactionCount : Entry := ⟨0x170017, 1, .u64, .ro, 0, .any, 0, false⟩
/-- `search.records_lost` (0x1700:18), R367. -/
def searchRecordsLost : Entry := ⟨0x170018, 1, .u64, .ro, 0, .any, 0, false⟩
/-- `dsearch.max_collections` (0x2700:01), R367. -/
def dsearchMaxCollections : Entry := ⟨0x270001, 1, .u16, .rw, 0, .between 0 4096, 4, true⟩
/-- `dsearch.collections` (0x2700:02), R367. -/
def dsearchCollections : Entry := ⟨0x270002, 1, .u16, .ro, 0, .any, 0, false⟩
/-- `dsearch.records` (0x2700:03), R367. -/
def dsearchRecords : Entry := ⟨0x270003, 1, .u64, .ro, 0, .any, 0, false⟩

/-- The entries of R367. -/
def list12 : List Entry :=
  [searchBatchQueries, searchMaxProbe, searchCompactQuarter, searchCollections, searchFrames,
    searchQueryCount, searchRecordsScanned, searchWidenCount, searchFewerCount, searchInsertCount,
    searchInsertRefused, searchDeleteCount, searchCompactionCount, searchRecordsLost, dsearchMaxCollections,
    dsearchCollections, dsearchRecords]

/-! The entries of spec/13_slaisk.md, R407. -/

/-- `eth.mode` (0x0600:01–02), R407. -/
def ethMode : Entry := ⟨0x060001, 2, .u8, .rws, 0, .between 0 3, 4, true⟩
/-- `eth.status` (0x0600:03–04), R407. -/
def ethStatus : Entry := ⟨0x060003, 2, .u16, .ro, 0x0000, .any, 0, false⟩
/-- `eth.request` (0x0600:05–06), R407. -/
def ethRequest : Entry := ⟨0x060005, 2, .u8, .wo, 0, .between 0 1, 6, false⟩
/-- `eth.mac` (0x0600:07–08), R407. -/
def ethMac : Entry := ⟨0x060007, 2, (.octets 6), .const, 0, .any, 0, false⟩
/-- `eth.mtu` (0x0600:09–0A), R407. -/
def ethMtu : Entry := ⟨0x060009, 2, .u16, .rws, 9000, .between 1500 9000, 4, true⟩
/-- `eth.autoneg` (0x0600:0B–0C), R407. -/
def ethAutoneg : Entry := ⟨0x06000B, 2, .bool, .rws, 1, .between 0 1, 4, true⟩
/-- `eth.vlan_mode` (0x0600:0D–0E), R407. -/
def ethVlanMode : Entry := ⟨0x06000D, 2, .u8, .rws, 0, .between 0 1, 4, true⟩
/-- `eth.mgmt_vlan` (0x0600:0F), R407. -/
def ethMgmtVlan : Entry := ⟨0x06000F, 1, .u16, .rw, 0, .between 0 4094, 4, true⟩
/-- `eth.ipv4` (0x0600:10–11), R407. -/
def ethIpv4 : Entry := ⟨0x060010, 2, (.octets 12), .rw, 0, .special, 4, true⟩
/-- `eth.ipv6` (0x0600:12–13), R407. -/
def ethIpv6 : Entry := ⟨0x060012, 2, (.octets 36), .rw, 0, .special, 4, true⟩
/-- `eth.pfc_enable` (0x0600:14), R407. -/
def ethPfcEnable : Entry := ⟨0x060014, 1, .u8, .rw, 0xC8, .any, 4, true⟩
/-- `eth.pfc_xoff` (0x0600:15), R407. -/
def ethPfcXoff : Entry := ⟨0x060015, 1, .u32, .rw, 1024, .special, 4, true⟩
/-- `eth.pfc_xon` (0x0600:16), R407. -/
def ethPfcXon : Entry := ⟨0x060016, 1, .u32, .rw, 512, .special, 4, true⟩
/-- `eth.pfc_watchdog` (0x0600:17), R407. -/
def ethPfcWatchdog : Entry := ⟨0x060017, 1, .u16, .rw, 100, .between 0 10000, 4, true⟩
/-- `slaisk.udp_port` (0x0600:18), R407. -/
def slaiskUdpPort : Entry := ⟨0x060018, 1, .u16, .rw, 48110, .between 1024 65535, 4, true⟩
/-- `slaisk.rto` (0x0600:19), R407. -/
def slaiskRto : Entry := ⟨0x060019, 1, .u32, .rw, 200, .between 20 100000, 4, true⟩
/-- `slaisk.retry_limit` (0x0600:1A), R407. -/
def slaiskRetryLimit : Entry := ⟨0x06001A, 1, .u8, .rw, 7, .between 1 15, 4, true⟩
/-- `slaisk.ack_coalesce` (0x0600:1B), R407. -/
def slaiskAckCoalesce : Entry := ⟨0x06001B, 1, .u8, .rw, 16, .between 1 64, 4, true⟩
/-- `slaisk.window_pool` (0x0600:1C), R407. -/
def slaiskWindowPool : Entry := ⟨0x06001C, 1, .u16, .rw, 256, .between 16 1024, 4, true⟩
/-- `slaisk.flow_config` (0x0600:20), R407. -/
def slaiskFlowConfig : Entry := ⟨0x060020, 1, (.block 64), .wo, 0, .any, 6, false⟩
/-- `slaisk.flow_table` (0x0600:21), R407. -/
def slaiskFlowTable : Entry := ⟨0x060021, 1, (.block 1048576), .ro, 0, .any, 0, false⟩
/-- `slaisk.flows_ready` (0x0600:22), R407. -/
def slaiskFlowsReady : Entry := ⟨0x060022, 1, .u32, .ro, 0, .any, 0, false⟩
/-- `slaisk.windows_open` (0x0600:23), R407. -/
def slaiskWindowsOpen : Entry := ⟨0x060023, 1, .u32, .ro, 0, .any, 0, false⟩
/-- `slaisk.tx_packets` (0x0600:30), R407. -/
def slaiskTxPackets : Entry := ⟨0x060030, 1, .u64, .ro, 0, .any, 0, false⟩
/-- `slaisk.rx_packets` (0x0600:31), R407. -/
def slaiskRxPackets : Entry := ⟨0x060031, 1, .u64, .ro, 0, .any, 0, false⟩
/-- `slaisk.retransmit_count` (0x0600:32), R407. -/
def slaiskRetransmitCount : Entry := ⟨0x060032, 1, .u64, .ro, 0, .any, 0, false⟩
/-- `slaisk.nak_sequence_count` (0x0600:33), R407. -/
def slaiskNakSequenceCount : Entry := ⟨0x060033, 1, .u64, .ro, 0, .any, 0, false⟩
/-- `slaisk.nak_error_count` (0x0600:34), R407. -/
def slaiskNakErrorCount : Entry := ⟨0x060034, 1, .u64, .ro, 0, .any, 0, false⟩
/-- `slaisk.auth_fail_count` (0x0600:35), R407. -/
def slaiskAuthFailCount : Entry := ⟨0x060035, 1, .u64, .ro, 0, .any, 0, false⟩
/-- `slaisk.crc_fail_count` (0x0600:36), R407. -/
def slaiskCrcFailCount : Entry := ⟨0x060036, 1, .u64, .ro, 0, .any, 0, false⟩
/-- `slaisk.flow_error_count` (0x0600:37), R407. -/
def slaiskFlowErrorCount : Entry := ⟨0x060037, 1, .u32, .ro, 0, .any, 0, false⟩
/-- `slaisk.revoked_count` (0x0600:38), R407. -/
def slaiskRevokedCount : Entry := ⟨0x060038, 1, .u64, .ro, 0, .any, 0, false⟩
/-- `slaisk.bad_doorbell_count` (0x0600:39), R407. -/
def slaiskBadDoorbellCount : Entry := ⟨0x060039, 1, .u64, .ro, 0, .any, 0, false⟩
/-- `slaisk.mismatch_count` (0x0600:3A), R407. -/
def slaiskMismatchCount : Entry := ⟨0x06003A, 1, .u64, .ro, 0, .any, 0, false⟩
/-- `eth.link_down_count` (0x0600:3B), R407. -/
def ethLinkDownCount : Entry := ⟨0x06003B, 1, .u32, .ro, 0, .any, 0, false⟩
/-- `eth.pfc_tx_count` (0x0600:3C), R407. -/
def ethPfcTxCount : Entry := ⟨0x06003C, 1, .u64, .ro, 0, .any, 0, false⟩
/-- `eth.pfc_rx_count` (0x0600:3D), R407. -/
def ethPfcRxCount : Entry := ⟨0x06003D, 1, .u64, .ro, 0, .any, 0, false⟩
/-- `eth.pfc_watchdog_count` (0x0600:3E), R407. -/
def ethPfcWatchdogCount : Entry := ⟨0x06003E, 1, .u32, .ro, 0, .any, 0, false⟩
/-- `eth.drop_count` (0x0600:3F), R407. -/
def ethDropCount : Entry := ⟨0x06003F, 1, .u64, .ro, 0, .any, 0, false⟩
/-- `ptp.enable` (0x0600:50), R407. -/
def ptpEnable : Entry := ⟨0x060050, 1, .bool, .rw, 1, .between 0 1, 4, true⟩
/-- `ptp.domain` (0x0600:51), R407. -/
def ptpDomain : Entry := ⟨0x060051, 1, .u8, .rw, 0, .between 0 255, 4, true⟩
/-- `ptp.state` (0x0600:52), R407. -/
def ptpState : Entry := ⟨0x060052, 1, .u8, .ro, 0, .any, 0, false⟩
/-- `ptp.time_at_pick` (0x0600:53), R407. -/
def ptpTimeAtPick : Entry := ⟨0x060053, 1, (.octets 16), .ro, 0, .any, 0, false⟩
/-- `ptp.offset_ns` (0x0600:54), R407. -/
def ptpOffsetNs : Entry := ⟨0x060054, 1, .i64, .ro, 0, .any, 0, false⟩
/-- `ptp.path_delay_ns` (0x0600:55), R407. -/
def ptpPathDelayNs : Entry := ⟨0x060055, 1, .u32, .ro, 0, .any, 0, false⟩
/-- `dslaisk.io_flow` (0x2600:01), R407. -/
def dslaiskIoFlow : Entry := ⟨0x260001, 1, .u16, .rw, 0xFFFF, .any, 6, true⟩
/-- `dslaisk.input_key` (0x2600:02), R407. -/
def dslaiskInputKey : Entry := ⟨0x260002, 1, .u32, .rw, 0, .any, 6, true⟩
/-- `dslaisk.input_base` (0x2600:03), R407. -/
def dslaiskInputBase : Entry := ⟨0x260003, 1, .u64, .rw, 0, .any, 6, true⟩
/-- `dslaisk.input_bytes` (0x2600:04), R407. -/
def dslaiskInputBytes : Entry := ⟨0x260004, 1, .u64, .rw, 0, .any, 6, true⟩
/-- `dslaisk.output_key` (0x2600:05), R407. -/
def dslaiskOutputKey : Entry := ⟨0x260005, 1, .u32, .rw, 0, .any, 6, true⟩
/-- `dslaisk.output_base` (0x2600:06), R407. -/
def dslaiskOutputBase : Entry := ⟨0x260006, 1, .u64, .rw, 0, .any, 6, true⟩
/-- `dslaisk.output_bytes` (0x2600:07), R407. -/
def dslaiskOutputBytes : Entry := ⟨0x260007, 1, .u64, .rw, 0, .any, 6, true⟩
/-- `dslaisk.max_windows` (0x2600:08), R407. -/
def dslaiskMaxWindows : Entry := ⟨0x260008, 1, .u16, .rw, 256, .between 0 65535, 4, true⟩
/-- `dslaisk.windows_open` (0x2600:09), R407. -/
def dslaiskWindowsOpen : Entry := ⟨0x260009, 1, .u16, .ro, 0, .any, 0, false⟩
/-- `dslaisk.auth_fail_count` (0x2600:0A), R407. -/
def dslaiskAuthFailCount : Entry := ⟨0x26000A, 1, .u64, .ro, 0, .any, 0, false⟩

/-- The entries of R407. -/
def list13 : List Entry :=
  [ethMode, ethStatus, ethRequest, ethMac, ethMtu, ethAutoneg, ethVlanMode, ethMgmtVlan, ethIpv4, ethIpv6,
    ethPfcEnable, ethPfcXoff, ethPfcXon, ethPfcWatchdog, slaiskUdpPort, slaiskRto, slaiskRetryLimit,
    slaiskAckCoalesce, slaiskWindowPool, slaiskFlowConfig, slaiskFlowTable, slaiskFlowsReady, slaiskWindowsOpen,
    slaiskTxPackets, slaiskRxPackets, slaiskRetransmitCount, slaiskNakSequenceCount, slaiskNakErrorCount,
    slaiskAuthFailCount, slaiskCrcFailCount] ++
  [slaiskFlowErrorCount, slaiskRevokedCount, slaiskBadDoorbellCount, slaiskMismatchCount, ethLinkDownCount,
    ethPfcTxCount, ethPfcRxCount, ethPfcWatchdogCount, ethDropCount, ptpEnable, ptpDomain, ptpState,
    ptpTimeAtPick, ptpOffsetNs, ptpPathDelayNs, dslaiskIoFlow, dslaiskInputKey, dslaiskInputBase,
    dslaiskInputBytes, dslaiskOutputKey, dslaiskOutputBase, dslaiskOutputBytes, dslaiskMaxWindows,
    dslaiskWindowsOpen, dslaiskAuthFailCount]

/-! The entries of spec/14_dernyx_warp.md, R443. -/

/-- `warp.id` (0x0700:01), R443. -/
def warpId : Entry := ⟨0x070001, 1, .u32, .rws, 0, .any, 4, true⟩
/-- `warp.device_index` (0x0700:02), R443. -/
def warpDeviceIndex : Entry := ⟨0x070002, 1, .u8, .rws, 0, .special, 4, true⟩
/-- `warp.member_table` (0x0700:03), R443. -/
def warpMemberTable : Entry := ⟨0x070003, 1, (.block 2048), .rw, 0, .any, 4, true⟩
/-- `warp.member_state` (0x0700:04), R443. -/
def warpMemberState : Entry := ⟨0x070004, 1, (.octets 64), .ro, 0, .any, 0, false⟩
/-- `warp.tree_parent` (0x0700:05), R443. -/
def warpTreeParent : Entry := ⟨0x070005, 1, .u8, .rw, 0xFF, .upToOr 47 0xFF, 4, true⟩
/-- `warp.tree_children` (0x0700:06), R443. -/
def warpTreeChildren : Entry := ⟨0x070006, 1, .u64, .rw, 0, .special, 4, true⟩
/-- `warp.heartbeat_interval` (0x0700:07), R443. -/
def warpHeartbeatInterval : Entry := ⟨0x070007, 1, .u32, .rw, 100, .special, 4, true⟩
/-- `warp.peer_timeout` (0x0700:08), R443. -/
def warpPeerTimeout : Entry := ⟨0x070008, 1, .u32, .rw, 2000, .special, 4, true⟩
/-- `dnx.e2e_timeout` (0x0700:09), R443. -/
def dnxE2eTimeout : Entry := ⟨0x070009, 1, .u32, .rw, 50, .between 10 10000, 4, true⟩
/-- `dnx.replay_limit` (0x0700:0A), R443. -/
def dnxReplayLimit : Entry := ⟨0x07000A, 1, .u8, .rw, 8, .between 1 64, 4, true⟩
/-- `dnx.link_enable` (0x0700:0B), R443. -/
def dnxLinkEnable : Entry := ⟨0x07000B, 1, .u64, .rw, 0x0000FFFFFFFFFFFF, .special, 6, true⟩
/-- `dnx.forward_pending` (0x0700:0C), R443. -/
def dnxForwardPending : Entry := ⟨0x07000C, 1, .u32, .ro, 0, .any, 0, false⟩
/-- `warp.present_count` (0x0700:0D), R443. -/
def warpPresentCount : Entry := ⟨0x07000D, 1, .u8, .ro, 1, .any, 0, false⟩
/-- `dnx.link_status` (0x0700:10–3F), R443. -/
def dnxLinkStatus : Entry := ⟨0x070010, 48, .u16, .ro, 0x0000, .any, 0, false⟩
/-- `dnx.link_request` (0x0700:40–6F), R443. -/
def dnxLinkRequest : Entry := ⟨0x070040, 48, .u8, .wo, 0, .between 0 1, 6, false⟩
/-- `dnx.link_table` (0x0700:70), R443. -/
def dnxLinkTable : Entry := ⟨0x070070, 1, (.block 1536), .ro, 0, .any, 0, false⟩
/-- `dnx.crc_fail_count` (0x0700:80), R443. -/
def dnxCrcFailCount : Entry := ⟨0x070080, 1, .u64, .ro, 0, .any, 0, false⟩
/-- `dnx.replay_count` (0x0700:81), R443. -/
def dnxReplayCount : Entry := ⟨0x070081, 1, .u64, .ro, 0, .any, 0, false⟩
/-- `dnx.link_down_count` (0x0700:82), R443. -/
def dnxLinkDownCount : Entry := ⟨0x070082, 1, .u32, .ro, 0, .any, 0, false⟩
/-- `dnx.training_fail_count` (0x0700:83), R443. -/
def dnxTrainingFailCount : Entry := ⟨0x070083, 1, .u32, .ro, 0, .any, 0, false⟩
/-- `dnx.tag_fail_count` (0x0700:84), R443. -/
def dnxTagFailCount : Entry := ⟨0x070084, 1, .u64, .ro, 0, .any, 0, false⟩
/-- `dnx.replay_reject_count` (0x0700:85), R443. -/
def dnxReplayRejectCount : Entry := ⟨0x070085, 1, .u64, .ro, 0, .any, 0, false⟩
/-- `dnx.hop_drop_count` (0x0700:86), R443. -/
def dnxHopDropCount : Entry := ⟨0x070086, 1, .u64, .ro, 0, .any, 0, false⟩
/-- `dnx.bad_message_count` (0x0700:87), R443. -/
def dnxBadMessageCount : Entry := ⟨0x070087, 1, .u64, .ro, 0, .any, 0, false⟩
/-- `dnx.forward_resend_count` (0x0700:88), R443. -/
def dnxForwardResendCount : Entry := ⟨0x070088, 1, .u64, .ro, 0, .any, 0, false⟩
/-- `dnx.forward_busy_count` (0x0700:89), R443. -/
def dnxForwardBusyCount : Entry := ⟨0x070089, 1, .u64, .ro, 0, .any, 0, false⟩
/-- `warp.peer_lost_count` (0x0700:8A), R443. -/
def warpPeerLostCount : Entry := ⟨0x07008A, 1, .u32, .ro, 0, .any, 0, false⟩
/-- `warp.route` (0x0700:C0–FF), R443. -/
def warpRoute : Entry := ⟨0x0700C0, 64, (.octets 64), .rw, 0, .special, 4, true⟩

/-- The entries of R443. -/
def list14 : List Entry :=
  [warpId, warpDeviceIndex, warpMemberTable, warpMemberState, warpTreeParent, warpTreeChildren,
    warpHeartbeatInterval, warpPeerTimeout, dnxE2eTimeout, dnxReplayLimit, dnxLinkEnable, dnxForwardPending,
    warpPresentCount, dnxLinkStatus, dnxLinkRequest, dnxLinkTable, dnxCrcFailCount, dnxReplayCount,
    dnxLinkDownCount, dnxTrainingFailCount, dnxTagFailCount, dnxReplayRejectCount, dnxHopDropCount,
    dnxBadMessageCount, dnxForwardResendCount, dnxForwardBusyCount, warpPeerLostCount, warpRoute]

/-! The entries of spec/15_checkpoint.md, R465. -/

/-- `ckpt.domain` (0x0800:01), R465. -/
def ckptDomain : Entry := ⟨0x080001, 1, .u16, .rw, 0xFFFF, .upToOr 4095 0xFFFF, 4, true⟩
/-- `ckpt.flow` (0x0800:02), R465. -/
def ckptFlow : Entry := ⟨0x080002, 1, .u16, .rw, 0xFFFF, .special, 4, true⟩
/-- `ckpt.commit_key` (0x0800:03), R465. -/
def ckptCommitKey : Entry := ⟨0x080003, 1, .u32, .rw, 0, .any, 4, true⟩
/-- `ckpt.commit_base` (0x0800:04), R465. -/
def ckptCommitBase : Entry := ⟨0x080004, 1, .u64, .rw, 0, .multiple 65536, 4, true⟩
/-- `ckpt.shard_key` (0x0800:05–06), R465. -/
def ckptShardKey : Entry := ⟨0x080005, 2, .u32, .rw, 0, .any, 4, true⟩
/-- `ckpt.shard_base` (0x0800:07–08), R465. -/
def ckptShardBase : Entry := ⟨0x080007, 2, .u64, .rw, 0, .multiple 64, 4, true⟩
/-- `ckpt.shard_bytes` (0x0800:09–0A), R465. -/
def ckptShardBytes : Entry := ⟨0x080009, 2, .u64, .rw, 0, .any, 4, true⟩
/-- `ckpt.timeout` (0x0800:0B), R465. -/
def ckptTimeout : Entry := ⟨0x08000B, 1, .u32, .rw, 60000, .between 1000 3600000, 4, true⟩
/-- `ckpt.state` (0x0800:10), R465. -/
def ckptState : Entry := ⟨0x080010, 1, .u8, .ro, 0, .any, 0, false⟩
/-- `ckpt.last_committed` (0x0800:11), R465. -/
def ckptLastCommitted : Entry := ⟨0x080011, 1, (.octets 16), .ro, 0, .any, 0, true⟩
/-- `ckpt.bytes_written` (0x0800:12), R465. -/
def ckptBytesWritten : Entry := ⟨0x080012, 1, .u64, .ro, 0, .any, 0, false⟩
/-- `ckpt.commit_count` (0x0800:13), R465. -/
def ckptCommitCount : Entry := ⟨0x080013, 1, .u32, .ro, 0, .any, 0, false⟩
/-- `ckpt.abort_count` (0x0800:14), R465. -/
def ckptAbortCount : Entry := ⟨0x080014, 1, .u32, .ro, 0, .any, 0, false⟩
/-- `ckpt.restore_count` (0x0800:15), R465. -/
def ckptRestoreCount : Entry := ⟨0x080015, 1, .u32, .ro, 0, .any, 0, false⟩
/-- `ckpt.shard_reject_count` (0x0800:16), R465. -/
def ckptShardRejectCount : Entry := ⟨0x080016, 1, .u64, .ro, 0, .any, 0, false⟩
/-- `ckpt.unrestored_count` (0x0800:17), R465. -/
def ckptUnrestoredCount : Entry := ⟨0x080017, 1, .u64, .ro, 0, .any, 0, false⟩
/-- `ckpt.hold_count` (0x0800:18), R465. -/
def ckptHoldCount : Entry := ⟨0x080018, 1, .u64, .ro, 0, .any, 0, false⟩

/-- The entries of R465. -/
def list15 : List Entry :=
  [ckptDomain, ckptFlow, ckptCommitKey, ckptCommitBase, ckptShardKey, ckptShardBase, ckptShardBytes,
    ckptTimeout, ckptState, ckptLastCommitted, ckptBytesWritten, ckptCommitCount, ckptAbortCount,
    ckptRestoreCount, ckptShardRejectCount, ckptUnrestoredCount, ckptHoldCount]

/-! The entries of spec/16_faults.md, R486. -/

/-- `fault.journal` (0x0900:01), R486. -/
def faultJournal : Entry := ⟨0x090001, 1, (.block 262144), .ro, 0, .any, 0, false⟩
/-- `fault.journal_last` (0x0900:02), R486. -/
def faultJournalLast : Entry := ⟨0x090002, 1, .u32, .ro, 0, .any, 0, false⟩
/-- `fault.journal_saved` (0x0900:03), R486. -/
def faultJournalSaved : Entry := ⟨0x090003, 1, (.block 16384), .ro, 0, .any, 0, true⟩
/-- `fault.last_fatal` (0x0900:04), R486. -/
def faultLastFatal : Entry := ⟨0x090004, 1, (.octets 32), .ro, 0, .any, 0, true⟩
/-- `fault.journal_overwrites` (0x0900:05), R486. -/
def faultJournalOverwrites : Entry := ⟨0x090005, 1, .u64, .ro, 0, .any, 0, false⟩
/-- `fault.corrected_count` (0x0900:10), R486. -/
def faultCorrectedCount : Entry := ⟨0x090010, 1, .u64, .ro, 0, .any, 0, false⟩
/-- `fault.contained_count` (0x0900:11), R486. -/
def faultContainedCount : Entry := ⟨0x090011, 1, .u64, .ro, 0, .any, 0, false⟩
/-- `fault.channel_count` (0x0900:12), R486. -/
def faultChannelCount : Entry := ⟨0x090012, 1, .u32, .ro, 0, .any, 0, false⟩
/-- `fault.fatal_count` (0x0900:13), R486. -/
def faultFatalCount : Entry := ⟨0x090013, 1, .u32, .ro, 0, .any, 0, true⟩
/-- `fault.loss_records` (0x0900:14), R486. -/
def faultLossRecords : Entry := ⟨0x090014, 1, .u64, .ro, 0, .any, 0, false⟩
/-- `fault.channel_retire_limit` (0x0900:20), R486. -/
def faultChannelRetireLimit : Entry := ⟨0x090020, 1, .u16, .rw, 64, .between 1 4096, 4, true⟩
/-- `audit.interval` (0x0900:21), R486. -/
def auditInterval : Entry := ⟨0x090021, 1, .u16, .rw, 1, .between 1 1024, 4, true⟩
/-- `audit.frames` (0x0900:30), R486. -/
def auditFrames : Entry := ⟨0x090030, 1, .u64, .ro, 0, .any, 0, false⟩
/-- `audit.credits` (0x0900:31), R486. -/
def auditCredits : Entry := ⟨0x090031, 1, .u64, .ro, 0, .any, 0, false⟩
/-- `audit.budget` (0x0900:32), R486. -/
def auditBudget : Entry := ⟨0x090032, 1, .u64, .ro, 0, .any, 0, false⟩
/-- `audit.homes` (0x0900:33), R486. -/
def auditHomes : Entry := ⟨0x090033, 1, .u64, .ro, 0, .any, 0, false⟩
/-- `audit.tracker` (0x0900:34), R486. -/
def auditTracker : Entry := ⟨0x090034, 1, .u64, .ro, 0, .any, 0, false⟩
/-- `audit.last_failure` (0x0900:38), R486. -/
def auditLastFailure : Entry := ⟨0x090038, 1, (.octets 64), .ro, 0, .any, 0, true⟩

/-- The entries of R486. -/
def list16 : List Entry :=
  [faultJournal, faultJournalLast, faultJournalSaved, faultLastFatal, faultJournalOverwrites,
    faultCorrectedCount, faultContainedCount, faultChannelCount, faultFatalCount, faultLossRecords,
    faultChannelRetireLimit, auditInterval, auditFrames, auditCredits, auditBudget, auditHomes, auditTracker,
    auditLastFailure]

/-! The entries of spec/17_monitors.md, R505. -/

/-- `mon.config` (0x0A00:10–1F), R505. -/
def monConfig : Entry := ⟨0x0A0010, 16, (.octets 24), .rws, 0, .special, 6, false⟩
/-- `mon.request` (0x0A00:20–2F), R505. -/
def monRequest : Entry := ⟨0x0A0020, 16, .u8, .wo, 0, .between 0 1, 6, false⟩
/-- `mon.status` (0x0A00:30–3F), R505. -/
def monStatus : Entry := ⟨0x0A0030, 16, .u16, .ro, 0x0000, .any, 0, false⟩
/-- `mon.value` (0x0A00:40–4F), R505. -/
def monValue : Entry := ⟨0x0A0040, 16, .u64, .ro, 0, .any, 0, false⟩
/-- `mon.snapshot` (0x0A00:50–5F), R505. -/
def monSnapshot : Entry := ⟨0x0A0050, 16, (.octets 24), .ro, 0, .any, 0, false⟩
/-- `chmon.config` (0x1800:10–1F), R505. -/
def chmonConfig : Entry := ⟨0x180010, 16, (.octets 24), .rws, 0, .special, 6, false⟩
/-- `chmon.request` (0x1800:20–2F), R505. -/
def chmonRequest : Entry := ⟨0x180020, 16, .u8, .wo, 0, .between 0 1, 6, false⟩
/-- `chmon.status` (0x1800:30–3F), R505. -/
def chmonStatus : Entry := ⟨0x180030, 16, .u16, .ro, 0x0000, .any, 0, false⟩
/-- `chmon.value` (0x1800:40–4F), R505. -/
def chmonValue : Entry := ⟨0x180040, 16, .u64, .ro, 0, .any, 0, false⟩
/-- `chmon.snapshot` (0x1800:50–5F), R505. -/
def chmonSnapshot : Entry := ⟨0x180050, 16, (.octets 24), .ro, 0, .any, 0, false⟩
/-- `trace.config` (0x0A00:60), R505. -/
def traceConfig : Entry := ⟨0x0A0060, 1, (.octets 128), .rws, 0, .special, 6, false⟩
/-- `trace.mode` (0x0A00:61), R505. -/
def traceMode : Entry := ⟨0x0A0061, 1, .u8, .rws, 0, .between 0 1, 6, false⟩
/-- `trace.request` (0x0A00:62), R505. -/
def traceRequest : Entry := ⟨0x0A0062, 1, .u8, .wo, 0, .between 0 1, 6, false⟩
/-- `trace.status` (0x0A00:63), R505. -/
def traceStatus : Entry := ⟨0x0A0063, 1, .u16, .ro, 0x0000, .any, 0, false⟩
/-- `trace.stop_pick` (0x0A00:64), R505. -/
def traceStopPick : Entry := ⟨0x0A0064, 1, .u64, .rw, 0, .special, 6, false⟩
/-- `trace.count` (0x0A00:65), R505. -/
def traceCount : Entry := ⟨0x0A0065, 1, .u32, .ro, 0, .any, 0, false⟩
/-- `trace.dropped` (0x0A00:66), R505. -/
def traceDropped : Entry := ⟨0x0A0066, 1, .u64, .ro, 0, .any, 0, false⟩
/-- `trace.buffer` (0x0A00:67), R505. -/
def traceBuffer : Entry := ⟨0x0A0067, 1, (.block 16777216), .ro, 0, .any, 0, false⟩
/-- `trace.first_pick` (0x0A00:68), R505. -/
def traceFirstPick : Entry := ⟨0x0A0068, 1, .u64, .ro, 0, .any, 0, false⟩

/-- The entries of R505. -/
def list17 : List Entry :=
  [monConfig, monRequest, monStatus, monValue, monSnapshot, chmonConfig, chmonRequest, chmonStatus,
    chmonValue, chmonSnapshot, traceConfig, traceMode, traceRequest, traceStatus, traceStopPick, traceCount,
    traceDropped, traceBuffer, traceFirstPick]

/-- Every entry of the dictionary (R101: nothing else exists). -/
def table : List Entry :=
  list01 ++ list02 ++ list03 ++ list04 ++ list05 ++ list06 ++ list07 ++ list08 ++ list09 ++ list10 ++ list11 ++ list12 ++ list13 ++ list14 ++ list15 ++ list16 ++ list17

end Sys2Proof.Machine.Dict
end

