-- ==== Sys2Proof/WellFormed.lean ====
section
/-! DEFINITION. Which commands are well formed: their operands name objects that exist (the numbering of R5 and of each chapter). -/

namespace Sys2Proof

/-- A function's number is one the spec gives (R26, R5, R132, R488, R399). -/
def FnId.exists : FnId → Bool
  | .dom n => decide (n < 80)
  | .port p => decide (p < 2)
  | .link n => decide (n < 48)
  | .seal c => decide (c < 4)
  | .hubMon k => decide (k < 16)
  | .chMon c k => decide (c < 4) && decide (k < 16)
  | .trace => true
  | .window i => decide (i < 65536)

/-- What a fabric event names exists (R5, R208, R255). -/
def FabEv.wf : FabEv → Bool
  | .switch c g m pat _ => decide (c < 4) && decide (g < 16) && decide (m < 16) && decide (pat < 32)
  | .dot c tile _ _ => decide (c < 4) && decide (tile < 256)
  | .convert c tile m code _ => decide (c < 4) && decide (tile < 256) && decide (m < 16) && decide (1 ≤ code) && decide (code ≤ 9)
  | .sramFixed c tile => decide (c < 4) && decide (tile < 256)
  | .exchange c m _ => decide (c < 4) && decide (m < 16)
  | .exchanged c _ => decide (c < 4)
  | .attend c g m _ _ ts => decide (c < 4) && decide (g < 16) && decide (m < 16) && ts.all fun x => decide (x.k < 1048576) && decide (x.tile < 256)
  | .emit c tile acc _ _ => decide (c < 4) && decide (tile < 256) && decide (acc < 8192)
  | .beat c tile input => decide (c < 4) && decide (tile < 256) && decide (input < 4)
  | .fold c reed input => decide (c < 4) && decide (reed < 8) && decide (input < 4)

/-- The operands of a command name objects that exist. -/
def Instr.wf : Instr → Bool
  | .prechargeStart _ => true
  | .busCharged _ => true
  | .bootComplete _ spd => spd.length == 16
  | .inputExcursionEnd _ _ _ => true
  | .excursionTimeout _ => true
  | .collapseTimeout _ => true
  | .currentLimitTick _ _ => true
  | .throttleEvaluate _ sn => sn.die.length == 5 && sn.hbm.length == 8
  | .thermalTrip _ => true
  | .hbmRefreshDoubling _ stack _ => decide (stack < 8)
  | .surpriseRemoval _ => true
  | .forceOffAssert _ => true
  | .forceOffRelease _ => true
  | .packageReset _ _ => true
  | .removeRequest _ _ => true
  | .removeRequestSkip _ _ => true
  | .removeRequestCancel _ _ => true
  | .drainTimeout _ => true
  | .drainComplete _ => true
  | .chpowerRequest _ _ k _ => decide (k < 18)
  | .hubPowerRequest _ _ k _ => decide (k < 8)
  | .functionStartComplete _ f _ => f.exists
  | .functionStartFail _ f => f.exists
  | .functionStopComplete _ f => f.exists
  | .pickContactEdge _ _ _ => true
  | .pickStuckInput _ => true
  | .hostPickMessage _ port _ => decide (port < 2)
  | .pick _ link _ => decide (link < 48)
  | .lost _ link _ => decide (link < 48)
  | .pickSourceWrite _ _ _ => true
  | .pickActionPoint _ => true
  | .pickMissTimeout _ => true
  | .holdoverPickDue _ => true
  | .barrierAtWrite _ _ _ => true
  | .barrierRequest _ link dev _ => decide (link < 48) && decide (dev < 64)
  | .barrierDone _ link dev _ => decide (link < 48) && decide (dev < 64)
  | .barrierTimeout _ => true
  | .barrierMessageResend _ => true
  | .helloOffer _ _ _ _ _ _ => true
  | .helloKey _ _ _ _ => true
  | .helloBye _ _ _ => true
  | .helloTimeout _ _ => true
  | .helloThrottleExpire _ => true
  | .associationIdleTimeout _ _ => true
  | .read _ _ _ => true
  | .registerWrite _ _ _ => true
  | .readBlock _ _ _ _ _ => true
  | .writeBlock _ _ _ => true
  | .snapshotExpire _ _ => true
  | .blockTransferIdle _ _ => true
  | .roleSecretWrite _ _ role _ => decide (1 ≤ role) && decide (role ≤ 4)
  | .restoreDefaults _ _ _ => true
  | .fwImageWrite _ _ _ => true
  | .fwSvnCommit _ _ _ => true
  | .fwConfirm _ _ _ => true
  | .attestNonceWrite _ _ _ => true
  | .attestCertReady _ d => decide (d < 4096)
  | .capsuleTimeout _ d => decide (d < 4096)
  | .keyCapsuleWrite _ _ _ => true
  | .epochOverlapExpire _ d => decide (d < 4096)
  | .keyErase _ _ _ => true
  | .dsecClassWrite _ _ _ => true
  | .tileGroupsWrite _ _ _ => true
  | .sealRequest _ _ c _ => decide (c < 4)
  | .sealStartingComplete _ c => decide (c < 4)
  | .sealStoppingComplete _ c => decide (c < 4)
  | .openSession _ k => decide (k < 1048576)
  | .append _ k => decide (k < 1048576)
  | .generate _ k => decide (k < 1048576)
  | .park _ k => decide (k < 1048576)
  | .revive _ k => decide (k < 1048576)
  | .condense _ k => decide (k < 1048576)
  | .exportSession _ k => decide (k < 1048576)
  | .importSession _ k _ => decide (k < 1048576)
  | .query _ k => decide (k < 1048576)
  | .close _ k => decide (k < 1048576)
  | .truncate _ k => decide (k < 1048576)
  | .deadlineExpire _ r => r.exists
  | .parkPickReached _ k => decide (k < 1048576)
  | .deepTtlExpire _ k => decide (k < 1048576)
  | .slateTtlExpire _ k => decide (k < 1048576)
  | .farTtlExpire _ k => decide (k < 1048576)
  | .sessionMoveComplete _ k => decide (k < 1048576)
  | .revivalComplete _ k => decide (k < 1048576)
  | .closingComplete _ k => decide (k < 1048576)
  | .completionRecordRelease _ d => decide (d < 4096)
  | .generateStreamRecord _ k => decide (k < 1048576)
  | .notifyFlowWrite _ _ _ => true
  | .backgroundEviction _ c tier => decide (c < 4) && decide (tier < 2)
  | .pageMoveSwitch _ k _ _ => decide (k < 1048576)
  | .frameLeaseRelease _ c tier frame => decide (c < 4) && decide (tier < 2) && decide (frame < 16777216)
  | .frameTestComplete _ c tier frame bad => decide (c < 4) && decide (tier < 2) && decide (frame < 16777216) && bad.all fun b => decide (b < 72)
  | .allocGraceExpire _ k => decide (k < 1048576)
  | .fenceClear _ _ _ => true
  | .tileError _ c tile _ => decide (c < 4) && decide (tile < 256)
  | .patternLoadComplete _ c g model pat => decide (c < 4) && decide (g < 16) && decide (model < 16) && decide (pat < 32)
  | .modelLoad _ d _ => decide (d < 4096)
  | .modelUnload _ d => decide (d < 4096)
  | .trackerOpTimeout _ c _ => decide (c < 4)
  | .maskComplete _ k _ => decide (k < 1048576)
  | .decodePhaseCommit _ out => (out.rows.all fun r => decide (r.k < 1048576)) && out.fab.all FabEv.wf
  | .prefillChunkStart _ k => decide (k < 1048576)
  | .prefillChunkCommit _ k _ reads => decide (k < 1048576) && reads.fab.all FabEv.wf
  | .budgetGraceExpire _ k => decide (k < 1048576)
  | .budgetAdjust _ _ _ => true
  | .draftSlotWrite _ _ _ => true
  | .samplingDefine _ d _ => decide (d < 4096)
  | .vocabLoad _ d _ => decide (d < 4096)
  | .grammarLoad _ d _ => decide (d < 4096)
  | .stopsetDefine _ d _ => decide (d < 4096)
  | .select _ d _ => decide (d < 4096)
  | .selectRowComplete _ d _ _ _ _ => decide (d < 4096)
  | .collectionCreate _ d _ => decide (d < 4096)
  | .vecInsert _ d _ => decide (d < 4096)
  | .vecDelete _ d _ => decide (d < 4096)
  | .vecSearch _ d _ => decide (d < 4096)
  | .listCompaction _ id _ => decide (id < 4096)
  | .ethRequest _ _ p _ => decide (p < 2)
  | .portLinkUp _ p => decide (p < 2)
  | .portAlignmentLoss _ p => decide (p < 2)
  | .pfcFrameReceive _ p _ quanta => decide (p < 2) && quanta.length == 8
  | .pfcRefreshTimer _ p prio _ => decide (p < 2) && decide (prio < 8)
  | .pfcWatchdogExpire _ p prio => decide (p < 2) && decide (prio < 8)
  | .ptpEventMessage _ p _ => decide (p < 2)
  | .arp _ p _ => decide (p < 2)
  | .neighborDiscovery _ p _ => decide (p < 2)
  | .icmpEcho _ p _ => decide (p < 2)
  | .slaiskSend _ p => decide (p.port < 2)
  | .slaiskWrite _ p => decide (p.port < 2)
  | .slaiskRead _ p => decide (p.port < 2)
  | .slaiskAtomicAdd _ p => decide (p.port < 2)
  | .slaiskCas _ p => decide (p.port < 2)
  | .slaiskReadResponse _ p => decide (p.port < 2)
  | .slaiskAtomicResponse _ p => decide (p.port < 2)
  | .slaiskFlush _ p => decide (p.port < 2)
  | .slaiskFlushResponse _ p => decide (p.port < 2)
  | .windowOpen _ p => decide (p.port < 2)
  | .windowStartComplete _ idx => decide (idx < 65536)
  | .windowRevoke _ p => decide (p.port < 2)
  | .windowExpire _ idx => decide (idx < 65536)
  | .windowStopComplete _ idx => decide (idx < 65536)
  | .windowReply _ p => decide (p.port < 2)
  | .doorbellWrite _ p => decide (p.port < 2)
  | .slaiskAck _ p => decide (p.port < 2)
  | .slaiskNak _ p => decide (p.port < 2)
  | .ackCoalesceTimer _ f => decide (f < 65536)
  | .retransmitTimeout _ f => decide (f < 65536)
  | .flowConfigure _ _ _ => true
  | .flowRemove _ _ _ => true
  | .linkRequest _ _ n _ => decide (n < 48)
  | .linkTrainingComplete _ n _ => decide (n < 48)
  | .linkTrainingFail _ n _ => decide (n < 48)
  | .linkFailure _ n _ => decide (n < 48)
  | .stopping _ via => decide (via.link < 48)
  | .flitReceive _ n _ => decide (n < 48)
  | .replayTimeout _ n => decide (n < 48)
  | .command _ e _ => decide (e.link < 48)
  | .commandAck _ e => decide (e.link < 48)
  | .e2eTimeout _ home _ => decide (home < 64)
  | .migrateReserve _ e _ => decide (e.link < 48)
  | .migrateReply _ e => decide (e.link < 48)
  | .pageData _ e _ => decide (e.link < 48)
  | .migrateCommit _ e _ _ => decide (e.link < 48)
  | .migrateCommitAck _ e _ => decide (e.link < 48)
  | .migrationTimeout _ peer _ => decide (peer < 64)
  | .activation _ m => decide (m.env.link < 48) && m.rows.all fun r => decide (r.handle < 2 ^ 64) && decide (r.len ≤ 1048576)
  | .activationAck _ e => decide (e.link < 48)
  | .activationTimeout _ _ => true
  | .subrequest _ e _ _ => decide (e.link < 48)
  | .subresult _ e _ => decide (e.link < 48)
  | .heartbeat _ via src _ => decide (via.link < 48) && decide (src < 64)
  | .heartbeatSend _ => true
  | .peerTimeout _ dev => decide (dev < 64)
  | .fatalMessage _ via src _ _ => decide (via.link < 48) && decide (src < 64)
  | .stageReady _ via src slot _ _ _ => decide (via.link < 48) && decide (src < 64) && decide (slot < 16)
  | .stageReadyResend _ => true
  | .memberTableWrite _ _ _ => true
  | .routeWrite _ _ ix _ => decide (ix < 64)
  | .treeParentWrite _ _ _ _ => true
  | .deviceIndexWrite _ _ _ _ => true
  | .checkpointBegin _ d _ => decide (d < 4096)
  | .ckptNotice _ link m => decide (link < 48) && decide (m.src < 64)
  | .checkpointCut _ => true
  | .shardWriteComplete _ _ => true
  | .ckptWritten _ link m _ => decide (link < 48) && decide (m.src < 64)
  | .ckptCommit _ link m => decide (link < 48) && decide (m.src < 64)
  | .ckptAbort _ link m => decide (link < 48) && decide (m.src < 64)
  | .checkpointTimeout _ => true
  | .ckptMessageResend _ => true
  | .restoreBegin _ d _ _ => decide (d < 4096)
  | .restoreNotice _ link m _ _ => decide (link < 48) && decide (m.src < 64)
  | .restoreDone _ link m => decide (link < 48) && decide (m.src < 64)
  | .channelFault _ c _ => decide (c < 4)
  | .channelSweepComplete _ c => decide (c < 4)
  | .fatalDetect _ reason => decide (1 ≤ reason) && decide (reason ≤ 8)
  | .conservationAudit _ => true
  | .monRequest _ _ _ k _ => decide (k < 16)
  | .monConfigWrite _ _ _ k _ => decide (k < 16)
  | .monitorTransition _ f => f.exists
  | .monitorWindowEnd _ f => f.exists
  | .traceRequest _ _ _ => true
  | .traceConfigWrite _ _ _ => true
  | .traceBufferFull _ => true
  | .traceStopPick _ => true
  | .powerRemoval _ => true
  | .pfcPauseExpire _ p prio => decide (p < 2) && decide (prio < 8)
  | .signatureIndexBlockReserved _ _ => true
  | .tokenisingComplete _ k => decide (k < 1048576)
  | .listPassComplete _ d _ _ _ _ => decide (d < 4096)

/-- The moment a command happens. -/
def Instr.time : Instr → Nat
  | .prechargeStart t => t
  | .busCharged t => t
  | .bootComplete t _ => t
  | .inputExcursionEnd t _ _ => t
  | .excursionTimeout t => t
  | .collapseTimeout t => t
  | .currentLimitTick t _ => t
  | .throttleEvaluate t _ => t
  | .thermalTrip t => t
  | .hbmRefreshDoubling t _ _ => t
  | .surpriseRemoval t => t
  | .forceOffAssert t => t
  | .forceOffRelease t => t
  | .packageReset t _ => t
  | .removeRequest t _ => t
  | .removeRequestSkip t _ => t
  | .removeRequestCancel t _ => t
  | .drainTimeout t => t
  | .drainComplete t => t
  | .chpowerRequest t _ _ _ => t
  | .hubPowerRequest t _ _ _ => t
  | .functionStartComplete t _ _ => t
  | .functionStartFail t _ => t
  | .functionStopComplete t _ => t
  | .pickContactEdge t _ _ => t
  | .pickStuckInput t => t
  | .hostPickMessage t _ _ => t
  | .pick t _ _ => t
  | .lost t _ _ => t
  | .pickSourceWrite t _ _ => t
  | .pickActionPoint t => t
  | .pickMissTimeout t => t
  | .holdoverPickDue t => t
  | .barrierAtWrite t _ _ => t
  | .barrierRequest t _ _ _ => t
  | .barrierDone t _ _ _ => t
  | .barrierTimeout t => t
  | .barrierMessageResend t => t
  | .helloOffer t _ _ _ _ _ => t
  | .helloKey t _ _ _ => t
  | .helloBye t _ _ => t
  | .helloTimeout t _ => t
  | .helloThrottleExpire t => t
  | .associationIdleTimeout t _ => t
  | .read t _ _ => t
  | .registerWrite t _ _ => t
  | .readBlock t _ _ _ _ => t
  | .writeBlock t _ _ => t
  | .snapshotExpire t _ => t
  | .blockTransferIdle t _ => t
  | .roleSecretWrite t _ _ _ => t
  | .restoreDefaults t _ _ => t
  | .fwImageWrite t _ _ => t
  | .fwSvnCommit t _ _ => t
  | .fwConfirm t _ _ => t
  | .attestNonceWrite t _ _ => t
  | .attestCertReady t _ => t
  | .capsuleTimeout t _ => t
  | .keyCapsuleWrite t _ _ => t
  | .epochOverlapExpire t _ => t
  | .keyErase t _ _ => t
  | .dsecClassWrite t _ _ => t
  | .tileGroupsWrite t _ _ => t
  | .sealRequest t _ _ _ => t
  | .sealStartingComplete t _ => t
  | .sealStoppingComplete t _ => t
  | .openSession t _ => t
  | .append t _ => t
  | .generate t _ => t
  | .park t _ => t
  | .revive t _ => t
  | .condense t _ => t
  | .exportSession t _ => t
  | .importSession t _ _ => t
  | .query t _ => t
  | .close t _ => t
  | .truncate t _ => t
  | .deadlineExpire t _ => t
  | .parkPickReached t _ => t
  | .deepTtlExpire t _ => t
  | .slateTtlExpire t _ => t
  | .farTtlExpire t _ => t
  | .sessionMoveComplete t _ => t
  | .revivalComplete t _ => t
  | .closingComplete t _ => t
  | .completionRecordRelease t _ => t
  | .generateStreamRecord t _ => t
  | .notifyFlowWrite t _ _ => t
  | .backgroundEviction t _ _ => t
  | .pageMoveSwitch t _ _ _ => t
  | .frameLeaseRelease t _ _ _ => t
  | .frameTestComplete t _ _ _ _ => t
  | .allocGraceExpire t _ => t
  | .fenceClear t _ _ => t
  | .tileError t _ _ _ => t
  | .patternLoadComplete t _ _ _ _ => t
  | .modelLoad t _ _ => t
  | .modelUnload t _ => t
  | .trackerOpTimeout t _ _ => t
  | .maskComplete t _ _ => t
  | .decodePhaseCommit t _ => t
  | .prefillChunkStart t _ => t
  | .prefillChunkCommit t _ _ _ => t
  | .budgetGraceExpire t _ => t
  | .budgetAdjust t _ _ => t
  | .draftSlotWrite t _ _ => t
  | .samplingDefine t _ _ => t
  | .vocabLoad t _ _ => t
  | .grammarLoad t _ _ => t
  | .stopsetDefine t _ _ => t
  | .select t _ _ => t
  | .selectRowComplete t _ _ _ _ _ => t
  | .collectionCreate t _ _ => t
  | .vecInsert t _ _ => t
  | .vecDelete t _ _ => t
  | .vecSearch t _ _ => t
  | .listCompaction t _ _ => t
  | .ethRequest t _ _ _ => t
  | .portLinkUp t _ => t
  | .portAlignmentLoss t _ => t
  | .pfcFrameReceive t _ _ _ => t
  | .pfcRefreshTimer t _ _ _ => t
  | .pfcWatchdogExpire t _ _ => t
  | .ptpEventMessage t _ _ => t
  | .arp t _ _ => t
  | .neighborDiscovery t _ _ => t
  | .icmpEcho t _ _ => t
  | .slaiskSend t _ => t
  | .slaiskWrite t _ => t
  | .slaiskRead t _ => t
  | .slaiskAtomicAdd t _ => t
  | .slaiskCas t _ => t
  | .slaiskReadResponse t _ => t
  | .slaiskAtomicResponse t _ => t
  | .slaiskFlush t _ => t
  | .slaiskFlushResponse t _ => t
  | .windowOpen t _ => t
  | .windowStartComplete t _ => t
  | .windowRevoke t _ => t
  | .windowExpire t _ => t
  | .windowStopComplete t _ => t
  | .windowReply t _ => t
  | .doorbellWrite t _ => t
  | .slaiskAck t _ => t
  | .slaiskNak t _ => t
  | .ackCoalesceTimer t _ => t
  | .retransmitTimeout t _ => t
  | .flowConfigure t _ _ => t
  | .flowRemove t _ _ => t
  | .linkRequest t _ _ _ => t
  | .linkTrainingComplete t _ _ => t
  | .linkTrainingFail t _ _ => t
  | .linkFailure t _ _ => t
  | .stopping t _ => t
  | .flitReceive t _ _ => t
  | .replayTimeout t _ => t
  | .command t _ _ => t
  | .commandAck t _ => t
  | .e2eTimeout t _ _ => t
  | .migrateReserve t _ _ => t
  | .migrateReply t _ => t
  | .pageData t _ _ => t
  | .migrateCommit t _ _ _ => t
  | .migrateCommitAck t _ _ => t
  | .migrationTimeout t _ _ => t
  | .activation t _ => t
  | .activationAck t _ => t
  | .activationTimeout t _ => t
  | .subrequest t _ _ _ => t
  | .subresult t _ _ => t
  | .heartbeat t _ _ _ => t
  | .heartbeatSend t => t
  | .peerTimeout t _ => t
  | .fatalMessage t _ _ _ _ => t
  | .stageReady t _ _ _ _ _ _ => t
  | .stageReadyResend t => t
  | .memberTableWrite t _ _ => t
  | .routeWrite t _ _ _ => t
  | .treeParentWrite t _ _ _ => t
  | .deviceIndexWrite t _ _ _ => t
  | .checkpointBegin t _ _ => t
  | .ckptNotice t _ _ => t
  | .checkpointCut t => t
  | .shardWriteComplete t _ => t
  | .ckptWritten t _ _ _ => t
  | .ckptCommit t _ _ => t
  | .ckptAbort t _ _ => t
  | .checkpointTimeout t => t
  | .ckptMessageResend t => t
  | .restoreBegin t _ _ _ => t
  | .restoreNotice t _ _ _ _ => t
  | .restoreDone t _ _ => t
  | .channelFault t _ _ => t
  | .channelSweepComplete t _ => t
  | .fatalDetect t _ => t
  | .conservationAudit t => t
  | .monRequest t _ _ _ _ => t
  | .monConfigWrite t _ _ _ _ => t
  | .monitorTransition t _ => t
  | .monitorWindowEnd t _ => t
  | .traceRequest t _ _ => t
  | .traceConfigWrite t _ _ => t
  | .traceBufferFull t => t
  | .traceStopPick t => t
  | .powerRemoval t => t
  | .pfcPauseExpire t _ _ => t
  | .signatureIndexBlockReserved t _ => t
  | .tokenisingComplete t _ => t
  | .listPassComplete t _ _ _ _ _ => t

/-- The same command at another moment. -/
def Instr.moved (u : Nat) : Instr → Instr
  | .prechargeStart _ => .prechargeStart u
  | .busCharged _ => .busCharged u
  | .bootComplete _ a0 => .bootComplete u a0
  | .inputExcursionEnd _ a0 a1 => .inputExcursionEnd u a0 a1
  | .excursionTimeout _ => .excursionTimeout u
  | .collapseTimeout _ => .collapseTimeout u
  | .currentLimitTick _ a0 => .currentLimitTick u a0
  | .throttleEvaluate _ a0 => .throttleEvaluate u a0
  | .thermalTrip _ => .thermalTrip u
  | .hbmRefreshDoubling _ a0 a1 => .hbmRefreshDoubling u a0 a1
  | .surpriseRemoval _ => .surpriseRemoval u
  | .forceOffAssert _ => .forceOffAssert u
  | .forceOffRelease _ => .forceOffRelease u
  | .packageReset _ a0 => .packageReset u a0
  | .removeRequest _ a0 => .removeRequest u a0
  | .removeRequestSkip _ a0 => .removeRequestSkip u a0
  | .removeRequestCancel _ a0 => .removeRequestCancel u a0
  | .drainTimeout _ => .drainTimeout u
  | .drainComplete _ => .drainComplete u
  | .chpowerRequest _ a0 a1 a2 => .chpowerRequest u a0 a1 a2
  | .hubPowerRequest _ a0 a1 a2 => .hubPowerRequest u a0 a1 a2
  | .functionStartComplete _ a0 a1 => .functionStartComplete u a0 a1
  | .functionStartFail _ a0 => .functionStartFail u a0
  | .functionStopComplete _ a0 => .functionStopComplete u a0
  | .pickContactEdge _ a0 a1 => .pickContactEdge u a0 a1
  | .pickStuckInput _ => .pickStuckInput u
  | .hostPickMessage _ a0 a1 => .hostPickMessage u a0 a1
  | .pick _ a0 a1 => .pick u a0 a1
  | .lost _ a0 a1 => .lost u a0 a1
  | .pickSourceWrite _ a0 a1 => .pickSourceWrite u a0 a1
  | .pickActionPoint _ => .pickActionPoint u
  | .pickMissTimeout _ => .pickMissTimeout u
  | .holdoverPickDue _ => .holdoverPickDue u
  | .barrierAtWrite _ a0 a1 => .barrierAtWrite u a0 a1
  | .barrierRequest _ a0 a1 a2 => .barrierRequest u a0 a1 a2
  | .barrierDone _ a0 a1 a2 => .barrierDone u a0 a1 a2
  | .barrierTimeout _ => .barrierTimeout u
  | .barrierMessageResend _ => .barrierMessageResend u
  | .helloOffer _ a0 a1 a2 a3 a4 => .helloOffer u a0 a1 a2 a3 a4
  | .helloKey _ a0 a1 a2 => .helloKey u a0 a1 a2
  | .helloBye _ a0 a1 => .helloBye u a0 a1
  | .helloTimeout _ a0 => .helloTimeout u a0
  | .helloThrottleExpire _ => .helloThrottleExpire u
  | .associationIdleTimeout _ a0 => .associationIdleTimeout u a0
  | .read _ a0 a1 => .read u a0 a1
  | .registerWrite _ a0 a1 => .registerWrite u a0 a1
  | .readBlock _ a0 a1 a2 a3 => .readBlock u a0 a1 a2 a3
  | .writeBlock _ a0 a1 => .writeBlock u a0 a1
  | .snapshotExpire _ a0 => .snapshotExpire u a0
  | .blockTransferIdle _ a0 => .blockTransferIdle u a0
  | .roleSecretWrite _ a0 a1 a2 => .roleSecretWrite u a0 a1 a2
  | .restoreDefaults _ a0 a1 => .restoreDefaults u a0 a1
  | .fwImageWrite _ a0 a1 => .fwImageWrite u a0 a1
  | .fwSvnCommit _ a0 a1 => .fwSvnCommit u a0 a1
  | .fwConfirm _ a0 a1 => .fwConfirm u a0 a1
  | .attestNonceWrite _ a0 a1 => .attestNonceWrite u a0 a1
  | .attestCertReady _ a0 => .attestCertReady u a0
  | .capsuleTimeout _ a0 => .capsuleTimeout u a0
  | .keyCapsuleWrite _ a0 a1 => .keyCapsuleWrite u a0 a1
  | .epochOverlapExpire _ a0 => .epochOverlapExpire u a0
  | .keyErase _ a0 a1 => .keyErase u a0 a1
  | .dsecClassWrite _ a0 a1 => .dsecClassWrite u a0 a1
  | .tileGroupsWrite _ a0 a1 => .tileGroupsWrite u a0 a1
  | .sealRequest _ a0 a1 a2 => .sealRequest u a0 a1 a2
  | .sealStartingComplete _ a0 => .sealStartingComplete u a0
  | .sealStoppingComplete _ a0 => .sealStoppingComplete u a0
  | .openSession _ a0 => .openSession u a0
  | .append _ a0 => .append u a0
  | .generate _ a0 => .generate u a0
  | .park _ a0 => .park u a0
  | .revive _ a0 => .revive u a0
  | .condense _ a0 => .condense u a0
  | .exportSession _ a0 => .exportSession u a0
  | .importSession _ a0 a1 => .importSession u a0 a1
  | .query _ a0 => .query u a0
  | .close _ a0 => .close u a0
  | .truncate _ a0 => .truncate u a0
  | .deadlineExpire _ a0 => .deadlineExpire u a0
  | .parkPickReached _ a0 => .parkPickReached u a0
  | .deepTtlExpire _ a0 => .deepTtlExpire u a0
  | .slateTtlExpire _ a0 => .slateTtlExpire u a0
  | .farTtlExpire _ a0 => .farTtlExpire u a0
  | .sessionMoveComplete _ a0 => .sessionMoveComplete u a0
  | .revivalComplete _ a0 => .revivalComplete u a0
  | .closingComplete _ a0 => .closingComplete u a0
  | .completionRecordRelease _ a0 => .completionRecordRelease u a0
  | .generateStreamRecord _ a0 => .generateStreamRecord u a0
  | .notifyFlowWrite _ a0 a1 => .notifyFlowWrite u a0 a1
  | .backgroundEviction _ a0 a1 => .backgroundEviction u a0 a1
  | .pageMoveSwitch _ a0 a1 a2 => .pageMoveSwitch u a0 a1 a2
  | .frameLeaseRelease _ a0 a1 a2 => .frameLeaseRelease u a0 a1 a2
  | .frameTestComplete _ a0 a1 a2 a3 => .frameTestComplete u a0 a1 a2 a3
  | .allocGraceExpire _ a0 => .allocGraceExpire u a0
  | .fenceClear _ a0 a1 => .fenceClear u a0 a1
  | .tileError _ a0 a1 a2 => .tileError u a0 a1 a2
  | .patternLoadComplete _ a0 a1 a2 a3 => .patternLoadComplete u a0 a1 a2 a3
  | .modelLoad _ a0 a1 => .modelLoad u a0 a1
  | .modelUnload _ a0 => .modelUnload u a0
  | .trackerOpTimeout _ a0 a1 => .trackerOpTimeout u a0 a1
  | .maskComplete _ a0 a1 => .maskComplete u a0 a1
  | .decodePhaseCommit _ a0 => .decodePhaseCommit u a0
  | .prefillChunkStart _ a0 => .prefillChunkStart u a0
  | .prefillChunkCommit _ a0 a1 a2 => .prefillChunkCommit u a0 a1 a2
  | .budgetGraceExpire _ a0 => .budgetGraceExpire u a0
  | .budgetAdjust _ a0 a1 => .budgetAdjust u a0 a1
  | .draftSlotWrite _ a0 a1 => .draftSlotWrite u a0 a1
  | .samplingDefine _ a0 a1 => .samplingDefine u a0 a1
  | .vocabLoad _ a0 a1 => .vocabLoad u a0 a1
  | .grammarLoad _ a0 a1 => .grammarLoad u a0 a1
  | .stopsetDefine _ a0 a1 => .stopsetDefine u a0 a1
  | .select _ a0 a1 => .select u a0 a1
  | .selectRowComplete _ a0 a1 a2 a3 a4 => .selectRowComplete u a0 a1 a2 a3 a4
  | .collectionCreate _ a0 a1 => .collectionCreate u a0 a1
  | .vecInsert _ a0 a1 => .vecInsert u a0 a1
  | .vecDelete _ a0 a1 => .vecDelete u a0 a1
  | .vecSearch _ a0 a1 => .vecSearch u a0 a1
  | .listCompaction _ a0 a1 => .listCompaction u a0 a1
  | .ethRequest _ a0 a1 a2 => .ethRequest u a0 a1 a2
  | .portLinkUp _ a0 => .portLinkUp u a0
  | .portAlignmentLoss _ a0 => .portAlignmentLoss u a0
  | .pfcFrameReceive _ a0 a1 a2 => .pfcFrameReceive u a0 a1 a2
  | .pfcRefreshTimer _ a0 a1 a2 => .pfcRefreshTimer u a0 a1 a2
  | .pfcWatchdogExpire _ a0 a1 => .pfcWatchdogExpire u a0 a1
  | .ptpEventMessage _ a0 a1 => .ptpEventMessage u a0 a1
  | .arp _ a0 a1 => .arp u a0 a1
  | .neighborDiscovery _ a0 a1 => .neighborDiscovery u a0 a1
  | .icmpEcho _ a0 a1 => .icmpEcho u a0 a1
  | .slaiskSend _ a0 => .slaiskSend u a0
  | .slaiskWrite _ a0 => .slaiskWrite u a0
  | .slaiskRead _ a0 => .slaiskRead u a0
  | .slaiskAtomicAdd _ a0 => .slaiskAtomicAdd u a0
  | .slaiskCas _ a0 => .slaiskCas u a0
  | .slaiskReadResponse _ a0 => .slaiskReadResponse u a0
  | .slaiskAtomicResponse _ a0 => .slaiskAtomicResponse u a0
  | .slaiskFlush _ a0 => .slaiskFlush u a0
  | .slaiskFlushResponse _ a0 => .slaiskFlushResponse u a0
  | .windowOpen _ a0 => .windowOpen u a0
  | .windowStartComplete _ a0 => .windowStartComplete u a0
  | .windowRevoke _ a0 => .windowRevoke u a0
  | .windowExpire _ a0 => .windowExpire u a0
  | .windowStopComplete _ a0 => .windowStopComplete u a0
  | .windowReply _ a0 => .windowReply u a0
  | .doorbellWrite _ a0 => .doorbellWrite u a0
  | .slaiskAck _ a0 => .slaiskAck u a0
  | .slaiskNak _ a0 => .slaiskNak u a0
  | .ackCoalesceTimer _ a0 => .ackCoalesceTimer u a0
  | .retransmitTimeout _ a0 => .retransmitTimeout u a0
  | .flowConfigure _ a0 a1 => .flowConfigure u a0 a1
  | .flowRemove _ a0 a1 => .flowRemove u a0 a1
  | .linkRequest _ a0 a1 a2 => .linkRequest u a0 a1 a2
  | .linkTrainingComplete _ a0 a1 => .linkTrainingComplete u a0 a1
  | .linkTrainingFail _ a0 a1 => .linkTrainingFail u a0 a1
  | .linkFailure _ a0 a1 => .linkFailure u a0 a1
  | .stopping _ a0 => .stopping u a0
  | .flitReceive _ a0 a1 => .flitReceive u a0 a1
  | .replayTimeout _ a0 => .replayTimeout u a0
  | .command _ a0 a1 => .command u a0 a1
  | .commandAck _ a0 => .commandAck u a0
  | .e2eTimeout _ a0 a1 => .e2eTimeout u a0 a1
  | .migrateReserve _ a0 a1 => .migrateReserve u a0 a1
  | .migrateReply _ a0 => .migrateReply u a0
  | .pageData _ a0 a1 => .pageData u a0 a1
  | .migrateCommit _ a0 a1 a2 => .migrateCommit u a0 a1 a2
  | .migrateCommitAck _ a0 a1 => .migrateCommitAck u a0 a1
  | .migrationTimeout _ a0 a1 => .migrationTimeout u a0 a1
  | .activation _ a0 => .activation u a0
  | .activationAck _ a0 => .activationAck u a0
  | .activationTimeout _ a0 => .activationTimeout u a0
  | .subrequest _ a0 a1 a2 => .subrequest u a0 a1 a2
  | .subresult _ a0 a1 => .subresult u a0 a1
  | .heartbeat _ a0 a1 a2 => .heartbeat u a0 a1 a2
  | .heartbeatSend _ => .heartbeatSend u
  | .peerTimeout _ a0 => .peerTimeout u a0
  | .fatalMessage _ a0 a1 a2 a3 => .fatalMessage u a0 a1 a2 a3
  | .stageReady _ a0 a1 a2 a3 a4 a5 => .stageReady u a0 a1 a2 a3 a4 a5
  | .stageReadyResend _ => .stageReadyResend u
  | .memberTableWrite _ a0 a1 => .memberTableWrite u a0 a1
  | .routeWrite _ a0 a1 a2 => .routeWrite u a0 a1 a2
  | .treeParentWrite _ a0 a1 a2 => .treeParentWrite u a0 a1 a2
  | .deviceIndexWrite _ a0 a1 a2 => .deviceIndexWrite u a0 a1 a2
  | .checkpointBegin _ a0 a1 => .checkpointBegin u a0 a1
  | .ckptNotice _ a0 a1 => .ckptNotice u a0 a1
  | .checkpointCut _ => .checkpointCut u
  | .shardWriteComplete _ a0 => .shardWriteComplete u a0
  | .ckptWritten _ a0 a1 a2 => .ckptWritten u a0 a1 a2
  | .ckptCommit _ a0 a1 => .ckptCommit u a0 a1
  | .ckptAbort _ a0 a1 => .ckptAbort u a0 a1
  | .checkpointTimeout _ => .checkpointTimeout u
  | .ckptMessageResend _ => .ckptMessageResend u
  | .restoreBegin _ a0 a1 a2 => .restoreBegin u a0 a1 a2
  | .restoreNotice _ a0 a1 a2 a3 => .restoreNotice u a0 a1 a2 a3
  | .restoreDone _ a0 a1 => .restoreDone u a0 a1
  | .channelFault _ a0 a1 => .channelFault u a0 a1
  | .channelSweepComplete _ a0 => .channelSweepComplete u a0
  | .fatalDetect _ a0 => .fatalDetect u a0
  | .conservationAudit _ => .conservationAudit u
  | .monRequest _ a0 a1 a2 a3 => .monRequest u a0 a1 a2 a3
  | .monConfigWrite _ a0 a1 a2 a3 => .monConfigWrite u a0 a1 a2 a3
  | .monitorTransition _ a0 => .monitorTransition u a0
  | .monitorWindowEnd _ a0 => .monitorWindowEnd u a0
  | .traceRequest _ a0 a1 => .traceRequest u a0 a1
  | .traceConfigWrite _ a0 a1 => .traceConfigWrite u a0 a1
  | .traceBufferFull _ => .traceBufferFull u
  | .traceStopPick _ => .traceStopPick u
  | .powerRemoval _ => .powerRemoval u
  | .pfcPauseExpire _ a0 a1 => .pfcPauseExpire u a0 a1
  | .signatureIndexBlockReserved _ a0 => .signatureIndexBlockReserved u a0
  | .tokenisingComplete _ a0 => .tokenisingComplete u a0
  | .listPassComplete _ a0 a1 a2 a3 a4 => .listPassComplete u a0 a1 a2 a3 a4

end Sys2Proof
end

