-- ==== Sys2Proof/Machine/Ops.lean ====
section
/-! DEFINITION. The operations every subsystem uses: the clock, the dictionary's stored values, functions' records, stamps, notifications,
event counters and trace, and the fault journal. -/

namespace Sys2Proof.Machine

open Sys2Proof

/-! ## Running a command -/

/-- The clock at a command's moment: it never goes back. -/
def State.at (s : State) (t : Nat) : State := { s with now := Nat.max s.now t }

/-- The always-on domain runs (R18, R20) and the package is not isolated (R480): PRECHARGE and ISOLATED answer nothing. -/
def State.live (s : State) : Bool :=
  match s.pw.pkg with
  | .unpowered => false
  | .precharge => false
  | .isolated => false
  | _ => true

/-- A command to the package as such: a well-formed one takes its effect at its moment; one that names an object that does not exist faults. -/
def runAny (i : Instr) (t : Nat) (s : State) (f : State → State) : Host.Outcome State Fault Refusal :=
  if i.wf then .next (f (s.at t)) else .fault .noSuchObject

/-- Any other command: it meets nothing that could act on it while the device is not live. -/
def run (i : Instr) (t : Nat) (s : State) (f : State → State) : Host.Outcome State Fault Refusal :=
  runAny i t s fun s => if s.live then f s else s

/-- Sends something. -/
def State.send (s : State) (o : Output) : State := { s with out := s.out ++ [o] }

/-- Applies f for each element in turn. -/
def State.each {α : Type} (s : State) (l : List α) (f : α → State → State) : State := l.foldl (fun s a => f a s) s

/-- Applies f when the condition holds. -/
def State.when (s : State) (b : Bool) (f : State → State) : State := if b then f s else s

/-! ## Dictionary values (R84, R94, R97) -/

/-- The key of an entry's value: address, sub-index offset, window object; the values that only the device writes (access RO) lie above 2^40. -/
def regKey (e : Entry) (sub i : Nat) : Nat := (e.addr + sub % Nat.max 1 e.span) * 4096 + i % 4096 + (if e.acc = .ro then 2 ^ 40 else 0)

/-- The stored value of entry e at sub-index offset `sub` for window object i; its default where nothing is stored. -/
def State.reg (s : State) (e : Entry) (sub : Nat := 0) (i : Nat := 0) : Nat := Tbl.get e.dflt s.regs (regKey e sub i)

/-- The value of a setting that work scheduled against picks reads (R88, R206): what it was at the last action point. -/
def State.sreg (s : State) (e : Entry) (sub : Nat := 0) (i : Nat := 0) : Nat := Tbl.get (s.reg e sub i) s.sv.sched (regKey e sub i)

/-- A setting is about to be written: the value in force until the next action point is kept, unless an earlier write since the last one kept it. -/
def State.keepSched (s : State) (e : Entry) (sub : Nat := 0) (i : Nat := 0) : State :=
  if s.sv.sched.any fun x => x.1 == regKey e sub i then s
  else { s with sv := { s.sv with sched := Tbl.insert s.sv.sched (regKey e sub i) (s.reg e sub i) } }

/-- Stores a value. -/
def State.setReg (s : State) (e : Entry) (v : Nat) (sub : Nat := 0) (i : Nat := 0) : State :=
  { s with regs := Tbl.put e.dflt s.regs (regKey e sub i) v }

/-- The width of a type in bits (R84). -/
def Ty.width : Ty → Nat
  | .bool => 8
  | .u8 => 8
  | .u16 => 16
  | .u32 => 32
  | .u64 => 64
  | .i64 => 64
  | .f32 => 32
  | .octets n => 8 * n
  | .string => 2048
  | .block _ => 0

/-- A counter rises by n, modulo its width (DESIGN CHOICE: log 8). -/
def State.inc (s : State) (e : Entry) (n : Nat := 1) (sub : Nat := 0) (i : Nat := 0) : State :=
  s.setReg e ((s.reg e sub i + n) % 2 ^ e.ty.width) sub i

/-- A counter holds the largest value seen. -/
def State.maxReg (s : State) (e : Entry) (v : Nat) (sub : Nat := 0) (i : Nat := 0) : State :=
  if s.reg e sub i < v then s.setReg e v sub i else s

/-- One write of the non-volatile store (R97, `dict.store_writes`). -/
def State.store (s : State) : State := s.inc Dict.dictStoreWrites

/-! ## Functions' records (R32, R35) -/

/-- The place of a function's record. -/
def fnKey : FnId → Nat
  | .dom n => n
  | .port p => 100 + p
  | .link n => 200 + n
  | .seal c => 300 + c
  | .hubMon k => 400 + k
  | .chMon c k => 500 + 16 * c + k
  | .trace => 600
  | .window i => 1000 + i

/-- A function's record. -/
def State.fn (s : State) (f : FnId) : Fn := Tbl.get {} s.fns (fnKey f)

/-- Replaces a function's record. -/
def State.setFn (s : State) (f : FnId) (r : Fn) : State := { s with fns := Tbl.put {} s.fns (fnKey f) r }

/-- The function is ON. -/
def State.isOn (s : State) (f : FnId) : Bool := decide ((s.fn f).st = .on)

/-- The function is OFF. -/
def State.isOff (s : State) (f : FnId) : Bool := decide ((s.fn f).st = .off)

/-- Channel c is ON exactly when its service domain is (R27). -/
def State.chOn (s : State) (c : Nat) : Bool := s.isOn (.dom (18 * c + 16))

/-- State codes of the status word (R35). -/
def FState.code : FState → Nat
  | .off => 0
  | .starting => 1
  | .on => 2
  | .stopping => 3

/-- Pending codes of the status word (R35). -/
def Pend.code : Pend → Nat
  | .none => 0
  | .off => 1
  | .on => 2

/-- The status word (R35), given the fenced bit. -/
def Fn.word (f : Fn) (fenced : Bool) : Nat := f.st.code + 4 * f.pend.code + 16 * b2n f.fault + 32 * b2n fenced

/-! ## Stamps (R65) -/

/-- The device's warp index. -/
def State.device (s : State) : Nat := s.reg Dict.warpDeviceIndex

/-- The stamp the next event takes. -/
def State.stampNow (s : State) : Stamp :=
  { pick := s.pk.current
    ns := Nat.min (s.now - s.pk.actAt) 0xFFFFFFFF
    seq := s.pk.seq % 2 ^ 24
    flags := 128 * b2n s.pk.hold + 64 * b2n (decide (s.pk.st = .lost)) + s.device % 64 }

/-- A stamp's 16 bytes (R65). -/
def Stamp.bytes (p : Stamp) : Bytes := leBytes 8 p.pick ++ leBytes 4 p.ns ++ leBytes 3 p.seq ++ [p.flags]

/-- Taking a stamp raises the sequence. -/
def State.tookStamp (s : State) : State := { s with pk := { s.pk with seq := s.pk.seq + 1 } }

/-! ## Notifications (R98) -/

/-- A NOTIFY through the ports of a list in ON, of each open association: numbered, logged with the number of associations it is sent to, and sent to the
last source of each of these (R98, R99).  Its address field is zero (log 9). -/
def State.notifyVia (s : State) (via : Assoc → List Nat) (reason : Nat) (detail : Bytes) : State :=
  let ports (a : Assoc) : List Nat := if a.opened then (via a).filter fun p => s.isOn (.port p) else []
  let n : NLog := { seq := (s.wr.nseq + 1) % 2 ^ 32, stamp := s.stampNow, reason := reason, addr := 0, detail := detail, count := s.wr.assocs.countP fun a => decide (ports a ≠ []) }
  let log := s.wr.nlog ++ [n]
  let s := s.tookStamp
  let s := { s with wr := { s.wr with nseq := n.seq, nlog := log.drop (log.length - 256) } }
  s.each s.wr.assocs fun a s => s.each (ports a) fun p s => s.send (.notify p a.src a.id n a.loc s.wr.udp)

/-- A NOTIFY: it goes to each open association through the port of its last source (R98). -/
def State.notify (s : State) (reason : Nat) (detail : Bytes) : State := s.notifyVia (fun a => [a.port]) reason detail

/-! ## Event counters and trace (R488-R504) -/

/-- A hub source, or a channel source (R489). -/
def hubSource (src : Nat) : Bool := decide (0x180 ≤ src) && decide (src < 0x250)

/-- The session filter, the domain filter and the sealed-channel rule (R491, R492) of a selector's flags, domain and session against an event of
channel ch (none for the hub). -/
def State.evPasses (s : State) (flags dom sess : Nat) (ch : Option Nat) (d h : Option Nat) : Bool :=
  (!bit flags 6 || decide (d = some dom)) && (!bit flags 5 || decide (h = some sess)) &&
  match ch with
  | none => true
  | some c => !s.isOn (.seal c) || decide (d = none) || decide (d = some (s.reg Dict.sealDomain c))

/-- A selector of the hub's kind (hub counter, trace) takes an event: hub sources always, channel sources by the channel mask (R490,
R493). -/
def State.hubTakes (s : State) (sel src flags dom sess : Nat) (ch : Option Nat) (d h : Option Nat) : Bool :=
  decide (sel = src) &&
  (match ch with
    | none => true
    | some c => decide (flags % 16 = 0) || bit flags c) &&
  s.evPasses flags dom sess ch d h

/-- The configuration of a counter (R493), as its 24 bytes. -/
def State.monCfg (s : State) : FnId → Nat
  | .hubMon k => s.reg Dict.monConfig k
  | .chMon c k => s.reg Dict.chmonConfig k c
  | _ => 0

/-- A counter's running state. -/
def State.mon (s : State) (f : FnId) : Mon := Tbl.get {} s.mn.mons (fnKey f)

/-- Replaces a counter's running state. -/
def State.setMon (s : State) (f : FnId) (m : Mon) : State := { s with mn := { s.mn with mons := Tbl.put {} s.mn.mons (fnKey f) m } }

/-- A counter adds a quantity, wrapping at 2^48 (R490, R497). -/
def State.monAdd (s : State) (f : FnId) (chan k src qty : Nat) : State :=
  let m := s.mon f
  let v := m.value + qty
  let s := s.setMon f { m with value := v % 2 ^ 48, wraps := Nat.min 0xFFFF (m.wraps + v / 2 ^ 48) }
  s.when (decide (2 ^ 48 ≤ v) && bit (beField 24 (s.monCfg f) 3 1) 7) fun s =>
    s.notify 0x0A01 ([chan, k] ++ beBytes 2 src)

/-- Whether a counter takes an event. -/
def State.monTakes (s : State) (f : FnId) (src : Nat) (ch : Option Nat) (d h : Option Nat) : Bool :=
  let c := s.monCfg f
  let sel := bits (beField 24 c 0 2) 9 0
  let flags := beField 24 c 3 1
  let dom := bits (beField 24 c 4 2) 11 0
  let sess := beField 24 c 16 8
  (s.mon f).counting &&
  match f with
  | .hubMon _ => s.hubTakes sel src flags dom sess ch d h
  | .chMon mc _ => decide (ch = some mc) && decide (sel = src) && s.evPasses flags dom sess ch d h
  | _ => false

/-- The counters, each with the channel byte of its notification (R506). -/
def counters : List (FnId × Nat × Nat) :=
  (List.range 16).map (fun k => (FnId.hubMon k, 0xFF, k)) ++
  (List.range 64).map (fun i => (FnId.chMon (i / 16) (i % 16), i / 16, i % 16))

/-- Selector i of `trace.config` takes an event (R500). -/
def State.traceTakes (s : State) (src : Nat) (ch : Option Nat) (d h : Option Nat) : Bool :=
  let c := s.reg Dict.traceConfig
  (List.range 8).any fun i =>
    bit (beField 128 c (16 * i) 2) 15 &&
    s.hubTakes (bits (beField 128 c (16 * i) 2) 9 0) src (beField 128 c (16 * i + 2) 1)
      (bits (beField 128 c (16 * i + 4) 2) 11 0) (beField 128 c (16 * i + 8) 8) ch d h

/-- What is left on the way to the trace buffer after n records have been accepted, path by path (R502, log 180). -/
def drainWay : Nat → Tbl Nat → Tbl Nat
  | _, [] => []
  | n, (p, w) :: rest => (if w ≤ n then [] else [(p, w - n)]) ++ drainWay (n - w) rest

/-- Records an event in the trace buffer (R501, R502): one that finds its path's 64 places full is dropped; in RING mode a full buffer loses its oldest record; in
STOP mode the record that fills it is the last. -/
def State.traceAdd (s : State) (src : Nat) (ch : Option Nat) (qty obj : Nat) : State :=
  let x := s.mn.trace
  let path := ch.getD 4
  let way := drainWay (6 * (s.now - x.wayAt) / 5) x.way
  if 64 ≤ Tbl.get 0 way path then
    { s with mn := { s.mn with trace := { x with dropped := x.dropped + 1, way := way, wayAt := s.now, lost := if x.lost.contains path then x.lost else x.lost ++ [path] } } }
  else
    let r : TRec := { stamp := s.stampNow, src := src, chan := ch.getD 0xFF, value := Nat.min qty 0xFFFFFFFF, obj := obj, dropped := x.lost.contains path }
    let s := s.tookStamp
    let buf := x.buf ++ [r]
    let stop := decide (s.reg Dict.traceMode = 1) && decide (524288 ≤ buf.length)
    { s with mn := { s.mn with trace := { x with buf := buf.drop (buf.length - 524288), full := x.full || stop, way := Tbl.put 0 way path (Tbl.get 0 way path + 1), wayAt := s.now, lost := x.lost.filter (· != path) } } }

/-- An event of a source: its channel (none for a hub source), the quantity it adds, and the object, domain and session it names
(R489-R492, R500). -/
def State.ev (s : State) (src : Nat) (ch : Option Nat := none) (qty : Nat := 1) (obj : Nat := 0) (d h : Option Nat := none) : State :=
  let s := s.each (counters.filter fun f => s.monTakes f.1 src ch d h) fun f s => s.monAdd f.1 f.2.1 f.2.2 src qty
  s.when (s.mn.trace.counting && !s.mn.trace.full && s.traceTakes src ch d h) fun s => s.traceAdd src ch qty obj

/-! ## The fault journal (R467-R470) -/

/-- The counter entry and the event source of a fault class (R467, R486, R487). -/
def classCount (cls : Nat) : Entry :=
  if cls = 0 then Dict.faultCorrectedCount else if cls = 1 then Dict.faultContainedCount
  else if cls = 2 then Dict.faultChannelCount else Dict.faultFatalCount

/-- The event source of a fault class (R487). -/
def classSource (cls : Nat) : Nat := if cls = 3 then 0x238 else 0x230 + cls

/-- Whether a CORRECTED fault shares an entry already written in this pick (R468). -/
def JEntry.shares (j : JEntry) (pick cls chan src obj : Nat) : Bool :=
  decide (cls = 0) && decide (j.cls = 0) && decide (j.stamp.pick = pick) && decide (j.src = src) && decide (j.obj = obj) &&
  decide (j.chan = chan)

/-- Records a fault: class, channel, event source, domain, object, detail and FATAL reason (R468, R469). -/
def State.journal (s : State) (cls chan src dom obj : Nat) (detail : Bytes) (reason : Nat := 0) : State :=
  let s := (s.inc (classCount cls)).ev (classSource cls)
  let s := s.when (decide (cls = 3)) State.store
  let shared := s.fa.journal.any fun j => j.shares s.pk.current cls chan src obj
  if shared then
    let merged := s.fa.journal.map fun j =>
      if j.shares s.pk.current cls chan src obj then { j with count := Nat.min 65535 (j.count + 1) } else j
    { s with fa := { s.fa with journal := merged } }
  else
    let n := (s.fa.jseq + 1) % 2 ^ 32
    let e : JEntry := { cls := cls, chan := chan, src := src, dom := dom, seq := n, count := 1, reason := reason, stamp := s.stampNow, obj := obj, detail := detail }
    let full := decide (4096 ≤ s.fa.journal.length)
    let s := s.tookStamp
    let s := { s with fa := { s.fa with jseq := n, journal := (if full then s.fa.journal.drop 1 else s.fa.journal) ++ [e] } }
    s.when full fun s => (s.inc Dict.faultJournalOverwrites).ev 0x237

/-- A journal entry's 64 bytes (R469). -/
def JEntry.bytes (j : JEntry) : Bytes :=
  [1, 1, j.cls, j.chan] ++ leBytes 2 j.src ++ leBytes 2 j.dom ++ leBytes 4 j.seq ++ leBytes 2 j.count ++ [j.reason, 0] ++ j.stamp.bytes ++
  leBytes 8 j.obj ++ (j.detail ++ List.replicate 24 0).take 24

/-- Copies the newest 256 entries to the non-volatile store (R470). -/
def State.copyJournal (s : State) : State :=
  ({ s with nv := { s.nv with jcopy := s.fa.journal.drop (s.fa.journal.length - 256) } }).store

/-! ## Stored picks (R66) -/

/-- The pick number that a stored 48-bit value names: the one in the window of 2^48 picks around the current pick. -/
def State.pick48 (s : State) (f : Nat) : Nat :=
  let m := 2 ^ 48
  let b := s.pk.current - 2 ^ 47
  b + (f % m + m - b % m) % m

/-- A command whose deadline field is f is late: the current pick is above it, and 0 is no deadline (R156). -/
def State.isLate (s : State) (f : Nat) : Bool := decide (f % 2 ^ 48 ≠ 0) && decide (s.pick48 f < s.pk.current)

/-! ## Package state (R18, R99) -/

/-- `package.state` codes. -/
def Pkg.code : Pkg → Nat
  | .unpowered => 0
  | .precharge => 1
  | .boot => 2
  | .managed => 3
  | .serving => 4
  | .draining => 5
  | .removeReady => 6
  | .isolated => 7

/-- REMOVE_READY is driven low exactly in BOOT, MANAGED, SERVING and DRAINING (R18). -/
def Pkg.removeLow : Pkg → Bool
  | .boot => true
  | .managed => true
  | .serving => true
  | .draining => true
  | _ => false

/-- A change of the package state, with NOTIFY 0x0302 (R99). -/
def State.setPkg (s : State) (p : Pkg) : State :=
  if s.pw.pkg = p then s
  else ({ s with pw := { s.pw with pkg := p } }).notify 0x0302 [s.pw.pkg.code, p.code]

end Sys2Proof.Machine
end

