-- ==== Sys2Proof/Machine/Keys.lean ====
section
/-! DEFINITION. Keys (spec/04): a domain's root secret and what is derived from it, sealed bytes, and CRC-32C (spec/06). -/

namespace Sys2Proof.Machine

open Sys2Proof

/-- The ASCII bytes of a label (R118). -/
def label (l : String) : Bytes := l.toList.map Char.toNat

/-- A domain's keys and attestation. -/
def State.domSec (s : State) (d : Nat) : DomSec := Tbl.get {} s.sc.doms d

/-- Replaces a domain's keys and attestation. -/
def State.setDomSec (s : State) (d : Nat) (x : DomSec) : State := { s with sc := { s.sc with doms := Tbl.put {} s.sc.doms d x } }

/-- `dsec.key_state` is 1 (R121, R123). -/
def State.holdsKeys (s : State) (d : Nat) : Bool := decide ((s.domSec d).epoch ≠ 0)

/-- The device's own identity digest: 32 bytes that are not all zero, which in the member table stand for no member (R438; log 154). -/
def ownDigest : Nat := Config.constEntry Dict.idIdentityDigest.addr % (2 ^ 256 - 1) + 1

/-- The writer field of the pages this device writes (R126): the first 16 bytes of its identity digest. -/
def ownWriter : Nat := ownDigest / 2 ^ 128

/-- The domain's traffic is protected (R125): always for PARTITIONED and SEALED domains. -/
def State.protects (s : State) (d : Nat) : Bool := decide (s.reg Dict.dsecClass 0 d ≠ 0) || decide (s.reg Dict.dsecTrafficProtect 0 d = 1)

/-! ## Derivations (R121, R126) -/

/-- A derivation of the table under R121. -/
def deriveKey (lab : String) (root d epoch : Nat) (more : Bytes := []) : Nat :=
  Config.shake256 (label lab ++ beBytes 32 root ++ beBytes 2 d ++ beBytes 4 epoch ++ more) 32

/-- The root secret of a domain at an epoch: the current one, or the previous one kept for reading. -/
def State.rootAt (s : State) (d epoch : Nat) : Nat := let x := s.domSec d; if epoch = x.epoch then x.root else x.prevRoot.getD 0

/-- The domain traffic key of an epoch, host to device or device to host. -/
def State.trafficKey (s : State) (toHost : Bool) (d epoch : Nat) : Nat :=
  deriveKey (if toHost then "KB480-TRAFFIC-D2H" else "KB480-TRAFFIC-H2D") (s.rootAt d epoch) d epoch

/-- The domain's Dernyx link key of an epoch. -/
def State.linkKey (s : State) (d epoch : Nat) : Nat := deriveKey "KB480-LINK" (s.rootAt d epoch) d epoch

/-- The domain's storage key of an epoch: a SEALED domain's is bound to the device. -/
def State.storageKey (s : State) (d epoch : Nat) : Nat :=
  if s.reg Dict.dsecClass 0 d = 2 then
    deriveKey "KB480-STORE-SEALED" (s.rootAt d epoch) d epoch (beBytes 32 (Config.shake256 (label "KB480-BIND" ++ Config.duk) 32))
  else deriveKey "KB480-STORE" (s.rootAt d epoch) d epoch

/-- The device storage key (R121, R124). -/
def deviceStorageKey : Nat := Config.shake256 (label "KB480-STORE-DEVICE" ++ Config.duk) 32

/-- The page key of a writer (R126). -/
def pageKey (storage writer : Nat) : Nat := Config.shake256 (label "KB480-PAGE" ++ beBytes 32 storage ++ beBytes 16 writer) 32

/-! ## Sealed bytes -/

/-- AES-256-GCM encryption: the bytes under the key stream. -/
def gcmSeal (key nonce : Nat) (b : Bytes) : Bytes := ((List.range b.length).zip b).map fun e => (e.2 ^^^ Config.gcmStream key nonce e.1) % 256

/-- The 16 tag bytes over additional data and ciphertext. -/
def gcmTagBytes (key nonce : Nat) (aad ct : Bytes) : Bytes := beBytes 16 (Config.gcmTag key nonce aad ct)

/-- A byte string cut or zero-padded to n bytes. -/
def fixLen (n : Nat) (b : Bytes) : Bytes := (b ++ List.replicate (n - b.length) 0).take n

/-! ## CRC-32C (R168, R378) -/

/-- One bit of the reflected division by 0x1EDC6F41. -/
def crcBit (c : Nat) : Nat := if c % 2 = 1 then (c / 2) ^^^ 0x82F63B78 else c / 2

/-- One byte. -/
def crcByte (c b : Nat) : Nat := crcBit (crcBit (crcBit (crcBit (crcBit (crcBit (crcBit (crcBit (c ^^^ b % 256))))))))

/-- CRC-32C of a byte string. -/
def crc32c (b : Bytes) : Nat := b.foldl crcByte 0xFFFFFFFF ^^^ 0xFFFFFFFF

end Sys2Proof.Machine
end

