-- ==== Sys2Proof/Machine/Flows.lean ====
section
/-! DEFINITION. Slaisk as a sender (spec/13, R382-R392, R404): flows, packets kept until they are acknowledged, the operations the KB480 issues,
and the completion queues (spec/05, R157). -/

namespace Sys2Proof.Machine

open Sys2Proof

/-! ## Sessions' names -/

/-- A session slot. -/
def State.sess (s : State) (k : Nat) : Sess := Tbl.get {} s.ss.tbl k

/-- Replaces a session slot. -/
def State.setSess (s : State) (k : Nat) (x : Sess) : State := { s with ss := { s.ss with tbl := Tbl.put {} s.ss.tbl k x } }

/-- The channel of a slot. -/
def chOf (k : Nat) : Nat := k / 262144

/-- Channel c's start count (R474). -/
def State.startsOf (s : State) (c : Nat) : Nat := Tbl.get 0 s.nv.starts c

/-- The current generation of a slot (R140, R474): one above the channel's start count at a start of the channel, and one more for each seal and unseal since. -/
def State.genOf (s : State) (k : Nat) : Nat :=
  let g := (s.sess k).gen
  if g = 0 then (s.startsOf (chOf k) + Tbl.get 0 s.ss.bumps (chOf k)) % 65535 + 1 else g

/-- A slot's handle (R139's field map). -/
def State.handle (s : State) (k : Nat) : Nat := s.genOf k * 2 ^ 48 + s.device % 64 * 2 ^ 42 + k * 2 ^ 22

/-! ## The operation tracker (R236-R238) -/

/-- The cap of a class on a channel. -/
def State.trackCap (s : State) (c cls : Nat) : Nat :=
  if cls = 0 then s.sreg Dict.tierMoverSlots 0 c else if cls = 1 then s.reg Dict.fabricSlotsStep 0 c else s.reg Dict.fabricSlotsRemote 0 c

/-- Slots in use on a channel. -/
def State.tracks (s : State) (c : Nat) : List Track := Tbl.get [] s.fb.track c

/-- Takes a slot: its index, or none where the class is at its cap or no slot is free (R238). -/
def State.takeSlot (s : State) (c cls : Nat) : Option (Nat × State) :=
  let ts := s.tracks c
  if (ts.countP fun t => t.cls == cls) < s.trackCap c cls ∧ ts.length < 4096 then
    let i := ((List.range 4096).find? fun i => ts.all fun t => t.slot != i).getD 0
    let g := (Tbl.get 0 s.fb.gens (c * 4096 + i) + 1) % 16
    let t : Track := { cls := cls, slot := i, gen := g, since := s.now }
    some (i, ({ s with fb := { s.fb with track := Tbl.put [] s.fb.track c (ts ++ [t]), gens := Tbl.put 0 s.fb.gens (c * 4096 + i) g } }).ev 0x010 (some c))
  else none

/-- A wait for a slot is counted (R238). -/
def State.trackWait (s : State) (c : Nat) : State := (s.inc Dict.fabricTrackerWaitCount 1 0 c).ev 0x012 (some c)

/-- Releases a slot, once (R237). -/
def State.freeSlot (s : State) (c i : Nat) : State :=
  let ts := s.tracks c
  if ts.any fun t => t.slot == i then
    ({ s with fb := { s.fb with track := Tbl.put [] s.fb.track c (ts.filter fun t => t.slot != i) } }).ev 0x011 (some c)
  else s

/-! ## Flows -/

/-- A flow. -/
def State.flow (s : State) (f : Nat) : Flow := Tbl.get {} s.sl.flows f

/-- Replaces a flow. -/
def State.setFlow (s : State) (f : Nat) (x : Flow) : State := { s with sl := { s.sl with flows := Tbl.put {} s.sl.flows f x } }

/-- A flow is READY. -/
def State.flowReady (s : State) (f : Nat) : Bool := decide (f < 65536) && decide ((s.flow f).st = 1)

/-- The port a flow sends on (R391): the lowest permitted port that is ON. -/
def State.flowPort (s : State) (f : Nat) : Option Nat :=
  [0, 1].find? fun p => bit (s.flow f).cfg.ports p && s.isOn (.port p)

/-- A received frame's VLAN is in use on the port (R373): VID 0, or in tagged mode the management VLAN or that of a flow configured on the port. -/
def State.vidOk (s : State) (p vid : Nat) : Bool :=
  decide (vid = 0) || (decide (s.reg Dict.ethVlanMode p = 1) && (decide (vid = s.reg Dict.ethMgmtVlan) || s.sl.flows.any fun e => decide (e.2.st ≠ 0) && bit e.2.cfg.ports p && e.2.cfg.vlan == vid))

/-- The payload limit that ports and IP version allow (R383); 0 where not even 1,024 bytes fit. -/
def State.payloadLimit (s : State) (c : FlowCfg) : Nat :=
  let fits (n : Nat) : Bool := [0, 1].all fun p => !bit c.ports p || decide (n + 52 + (if c.ipv = 4 then 20 else 40) ≤ s.reg Dict.ethMtu p)
  ([4096, 2048, 1024].find? fits).getD 0

/-- A port's PFC state. -/
def State.portSt (s : State) (p : Nat) : Port := Tbl.get {} s.et.ports p

/-- A flow's transmit priority is paused on its port (R375), and the watchdog discards its frames (R376). -/
def State.flowPaused (s : State) (f : Nat) : Bool :=
  match s.flowPort f with
  | none => false
  | some p => decide (s.now < Tbl.get 0 (s.portSt p).pausedTo (s.flow f).cfg.prio)
def State.flowDropping (s : State) (f : Nat) : Bool :=
  match s.flowPort f with
  | none => false
  | some p => (s.portSt p).dropping.contains (s.flow f).cfg.prio

/-- Puts one packet on the wire, when a permitted port is ON and its priority is not paused. -/
def State.emit (s : State) (f : Nat) (p : TxPkt) : State :=
  match s.flowPort f with
  | none => s
  | some port =>
    if s.flowPaused f then s else
    let s := (s.inc Dict.slaiskTxPackets).send (.slaisk port f p)
    (s.ev 0x180 none 1 f).ev 0x182 none (p.data.length / 1024) f

/-- Starts the retransmit timer where packets are unacknowledged, no timer runs and a permitted port is ON (R389, R391). -/
def State.armRto (s : State) (f : Nat) : State :=
  let x := s.flow f
  if x.unacked ≠ [] ∧ x.rtoAt = none ∧ (s.flowPort f).isSome then
    s.setFlow f { x with rtoAt := some (s.now + 1000 * s.reg Dict.slaiskRto * Nat.min 8 (2 ^ x.expiries)) }
  else s

/-- Moves waiting packets into the window and sends them (R389); they wait out a pause, in which the watchdog may discard them (R376). -/
def State.pump (s : State) (f : Nat) : State :=
  let x := s.flow f
  if s.flowPaused f && !s.flowDropping f then s else
  let n := x.cfg.window - x.unacked.length
  let go := x.waiting.take n
  let s := s.setFlow f { x with unacked := x.unacked ++ go, waiting := x.waiting.drop n, port := s.flowPort f }
  (s.each go fun p s => s.emit f p).armRto f

/-- Sends one packet on a READY flow. -/
def State.txPacket (s : State) (f : Nat) (op : Nat) (first last : Bool) (target offset syndrome aux : Nat) (data : Bytes) (own : Option OpFor := none) : State :=
  if s.flowReady f then
    let x := s.flow f
    let p : TxPkt := { seq := x.tx, op := op, first := first, last := last, target := target, offset := offset, syndrome := syndrome, aux := aux, data := data, own := own, prot := s.protects x.cfg.dom, epoch := (s.domSec x.cfg.dom).active }
    (s.setFlow f { x with tx := x.tx + 1, waiting := x.waiting ++ [p] }).pump f
  else s

/-- A WRITE of data to a region, in packets of the flow's limit (R378, R392). -/
def State.txWrite (s : State) (f key off : Nat) (data : Bytes) (own : Option OpFor := none) : State :=
  let lim := Nat.max 1 (s.payloadLimit (s.flow f).cfg)
  let n := (data.length + lim - 1) / lim
  let s := s.when (s.flowReady f) fun s => s.setFlow f { s.flow f with unplaced := true }
  s.each (List.range n) fun i s =>
    s.txPacket f 2 (i == 0) (i + 1 == n) key (off + lim * i) 0 0 ((data.drop (lim * i)).take lim) own

/-- A SEND with target 0 (R404). -/
def State.txSend (s : State) (f : Nat) (data : Bytes) : State := s.txPacket f 1 true true 0 0 0 data.length data

/-- A READ of a region (R379), with its tracker slot. -/
def State.txRead (s : State) (f key off n : Nat) (what : OpFor) (trk : Option (Nat × Nat)) : State :=
  if s.flowReady f then
    let x := s.flow f
    let s := s.setFlow f { x with ops := x.ops ++ [{ psn := x.tx % 2 ^ 24, read := true, want := n, got := [], what := what, trk := trk }] }
    s.txPacket f 3 true true key off 0 n []
  else s

/-- A FLUSH of every target of a flow (R379, R395). -/
def State.txFlush (s : State) (f : Nat) (what : OpFor) : State :=
  if s.flowReady f then
    let x := s.flow f
    let s := s.setFlow f { x with unplaced := false, ops := x.ops ++ [{ psn := x.tx % 2 ^ 24, read := false, want := 0, got := [], what := what }] }
    (s.txPacket f 8 true true 0 0 0 0 []).ev 0x192 none 1 f
  else s

/-! ## Bulk transfers over a flow and its partner (R396) -/

/-- The flow that the next piece of a bulk transfer on flow f takes: f and its partner alternately, while both are READY. -/
def State.bulkFlow (s : State) (f : Nat) : Nat × State :=
  let x := s.flow f
  if s.flowReady f && s.flowReady x.cfg.partner then (if x.alt then x.cfg.partner else f, s.setFlow f { x with alt := !x.alt }) else (f, s)

/-- The pieces of a bulk transfer of n bytes: offset and length, each of 64 KiB but the last, which takes what remains; one piece under 128 KiB (log 177). -/
def bulkPieces (n : Nat) : List (Nat × Nat) :=
  let k := Nat.max 1 (n / 65536)
  (List.range k).map fun i => (65536 * i, if i + 1 = k then n - 65536 * i else 65536)

/-- A bulk WRITE: its pieces alternate between the flow and its partner; one of less than 64 KiB stays on the flow. -/
def State.bulkWrite (s : State) (f key off : Nat) (data : Bytes) (own : Option OpFor := none) : State :=
  if data.length < 65536 then s.txWrite f key off data own
  else s.each (bulkPieces data.length) fun e s =>
    let g := s.bulkFlow f
    g.2.txWrite g.1 key (off + e.1) ((data.drop e.1).take e.2) own

/-- A bulk READ of one piece. -/
def State.bulkRead (s : State) (f key off n : Nat) (what : OpFor) (trk : Option (Nat × Nat)) : State :=
  if n < 65536 then s.txRead f key off n what trk
  else
    let g := s.bulkFlow f
    g.2.txRead g.1 key off n what trk

/-- A FLUSH for a bulk transfer is issued on both flows. -/
def State.bulkFlush (s : State) (f : Nat) (what : OpFor) : State :=
  let q := (s.flow f).cfg.partner
  let s := s.txFlush f what
  s.when (s.flowReady q && decide (q ≠ f)) fun s => s.txFlush q what

/-- The purposes whose FLUSH may be issued on two flows. -/
def OpFor.bulk : OpFor → Bool
  | .farMove _ _ => true
  | .exportIo _ => true
  | _ => false

/-- A FLUSH for a purpose is still unanswered. -/
def State.flushOpen (s : State) (what : OpFor) : Bool := s.sl.flows.any fun e => e.2.ops.any fun o => !o.read && o.what == what

/-- What was issued for a purpose that has ended answers to nothing any more. -/
def State.forgetOps (s : State) (what : OpFor) : State :=
  let op (o : TxOp) : TxOp := if o.what = what then { o with what := .drainFlush } else o
  let pk (p : TxPkt) : TxPkt := if p.own = some what then { p with own := none } else p
  { s with sl := { s.sl with flows := s.sl.flows.map fun (e : Nat × Flow) => (e.1, { e.2 with ops := e.2.ops.map op, unacked := e.2.unacked.map pk, waiting := e.2.waiting.map pk }) } }

/-- Resends every unacknowledged packet, byte for byte (R389, R390). -/
def State.resend (s : State) (f : Nat) : State :=
  (s.flow f).unacked.foldl (fun s p => ((s.emit f p).inc Dict.slaiskRetransmitCount).ev 0x184 none 1 f) s

/-! ## Status codes (R160) and flags (R157) -/

def stDone : Nat := 0x00
def stPartial : Nat := 0x01
def stStopString : Nat := 0x02
def stEos : Nat := 0x03
def stLimit : Nat := 0x04
def stDeadend : Nat := 0x05
def stBudget : Nat := 0x06
def stDeadline : Nat := 0x07
def stPageLost : Nat := 0x08
def stBusy : Nat := 0x09
def stBad : Nat := 0x0A
def stDenied : Nat := 0x0B
def stNoFrames : Nat := 0x0C
def stPickLost : Nat := 0x0D
def stFewer : Nat := 0x0E
def stAbort : Nat := 0x0F
def stHold : Nat := 0x10
def stTool : Nat := 0x11
def flMore : Nat := 0x100
def flUnsolicited : Nat := 0x80
def flChanged : Nat := 0x40
def flForwarded : Nat := 0x20
def flNoHome : Nat := 0x10
def flStale : Nat := 0x08
def flMalformed : Nat := 0x04

/-! ## Completion queues (R157, R404, R405) -/

/-- A domain's completion queue. -/
def State.cq (s : State) (d : Nat) : CQ := Tbl.get {} s.ss.cq d

/-- Replaces a domain's completion queue. -/
def State.setCq (s : State) (d : Nat) (x : CQ) : State := { s with ss := { s.ss with cq := Tbl.put {} s.ss.cq d x } }

/-- The record's 32 bytes (R157). -/
def Rec.bytes (r : Rec) : Bytes :=
  leBytes 8 r.handle ++ leBytes 2 r.seq ++ [r.opcode, r.status] ++ leBytes 4 r.progress ++ leBytes 4 r.outLen ++ leBytes 6 r.pick ++
  leBytes 4 r.ns ++ leBytes 2 (0x5000 + r.flags + 512 * b2n r.phase)

/-- The domain's io flow. -/
def State.ioFlow (s : State) (d : Nat) : Nat := s.reg Dict.dslaiskIoFlow 0 d

/-- The queue can take a record: the io flow is READY and the queue is not full (R157, R405). -/
def State.cqRoom (s : State) (d : Nat) : Bool :=
  s.flowReady (s.ioFlow d) &&
  decide (((s.cq d).written + 2 ^ 32 - s.reg Dict.dsessCompletionConsumed 0 d) % 2 ^ 32 < s.reg Dict.dsessCompletionEntries 0 d)

/-- A record with the PHASE of the place it is written to next (R157): it toggles at each pass through the queue, starting at 1. -/
def State.phased (s : State) (d : Nat) (r : Rec) : Rec := { r with phase := decide ((s.cq d).written / s.reg Dict.dsessCompletionEntries 0 d % 2 = 0) }

/-- Writes a record at its place. -/
def State.writeRec (s : State) (d : Nat) (r : Rec) : State :=
  let q := s.cq d
  let n := s.reg Dict.dsessCompletionEntries 0 d
  (s.setCq d { q with written := (q.written + 1) % 2 ^ 32 }).txWrite (s.ioFlow d) (s.reg Dict.dsessCompletionKey 0 d) (s.reg Dict.dsessCompletionOffset 0 d + q.written % n * 32)
    (s.phased d r).bytes

/-- Sends a notification whose flow is READY: at once on the io flow, and on another flow after a FLUSH of the io flow (R404). -/
def State.sendNotif (s : State) (d : Nat) (r : Rec) : State :=
  let f := s.reg Dict.dsessNotifyFlow 0 d
  if f = s.ioFlow d then ((s.txSend f r.bytes).ev 0x08F none 1 0 (some d)).ev 0x19A none 1 f (some d)
  else
    let q := s.cq d
    (s.setCq d { q with flushing := q.flushing ++ [r] }).txFlush (s.ioFlow d) (.notifFlush d)

/-- Places of the hub buffer that a held record needs: its own, and one for the notification that follows it (R157). -/
def Held.places (h : Held) : Nat := 1 + b2n h.wantsNotif

/-- Records and notifications in the hub buffer, of all domains. -/
def State.hubHeld (s : State) : Nat := sumOf (fun e => sumOf Held.places (e.2.held.filter (·.hub))) s.ss.cq

/-- What a domain has waiting in the hub buffer. -/
def State.hubOf (s : State) (d : Nat) : Nat := (s.cq d).held.countP (·.hub)

/-- A domain's records waiting under R157. -/
def State.stalled (s : State) (d : Nat) : Bool := decide ((s.cq d).held ≠ [])

/-- Records of a domain have come into the hub buffer, where `was` waited: each is an event, and NOTIFY 0x1301 says that there are some where there were none
(R166). -/
def State.hubRose (s : State) (d was : Nat) : State :=
  let n := s.hubOf d
  (s.when (decide (was < n)) fun s => s.ev 0x08E none (n - was) 0 (some d)).when (decide (was = 0) && decide (0 < n)) fun s => s.notify 0x1301 (beBytes 2 d ++ beBytes 2 n)

/-- Holds a record or notification, in the hub buffer where it has the places and nothing of the domain waits outside; otherwise its command keeps it (R157). -/
def State.holdRec (s : State) (d : Nat) (r : Rec) (notif wants : Bool) (run : Option Nat := none) : State :=
  let q := s.cq d
  let h : Held := { r := r, notif := notif, hub := false, wantsNotif := wants, drun := run }
  let hub := q.held.all (·.hub) && decide (s.hubHeld + h.places ≤ 4096)
  (s.setCq d { q with held := q.held ++ [{ h with hub := hub }] }).hubRose d (s.hubOf d)

/-- A notification that follows a record: none where no flow is named. -/
def State.postNotif (s : State) (d : Nat) (r : Rec) : State :=
  let f := s.reg Dict.dsessNotifyFlow 0 d
  if f = 0xFFFF then s else if s.flowReady f && !s.stalled d then s.sendNotif d r else s.holdRec d r true false

/-- A completion record: written in order, or held (R157), by its control command where the hub buffer has no place. -/
def State.postRec (s : State) (d : Nat) (r : Rec) (wants : Bool) (run : Option Nat := none) : State :=
  if !s.stalled d && s.cqRoom d then (s.writeRec d r).when wants fun u => u.postNotif d (s.phased d r) else s.holdRec d r false wants run

/-- The head of a domain's held list goes out where it can: whether it did. -/
def State.releaseOne (s : State) (d : Nat) : State × Bool :=
  let q := s.cq d
  match q.held with
  | [] => (s, false)
  | h :: rest =>
    let f := s.reg Dict.dsessNotifyFlow 0 d
    if h.notif then
      if f = 0xFFFF then (s.setCq d { q with held := rest }, true)
      else if s.flowReady f then ((s.setCq d { q with held := rest }).sendNotif d h.r, true)
      else (s, false)
    else if s.cqRoom d then
      let tail := if h.wantsNotif && decide (f ≠ 0xFFFF) then { h with r := s.phased d h.r, notif := true, wantsNotif := false } :: rest else rest
      ((s.setCq d { q with held := tail }).writeRec d h.r, true)
    else (s, false)

/-- Held records and notifications go out in order while they can (fuel: at most two passes per held record). -/
def State.releaseSome : Nat → Nat → State → State
  | 0, _, s => s
  | n + 1, d, s => let r := s.releaseOne d; if r.2 then State.releaseSome n d r.1 else r.1

/-- A domain's control ring. -/
def State.dring (s : State) (d : Nat) : DRing := Tbl.get {} s.ss.rings d

/-- Replaces a domain's control ring. -/
def State.setDring (s : State) (d : Nat) (r : DRing) : State := { s with ss := { s.ss with rings := Tbl.put {} s.ss.rings d r } }

/-- A finished control command keeps its position in the ring only while its record waits outside the hub buffer (R157). -/
def State.leaveKept (s : State) (d : Nat) : State :=
  let g := s.dring d
  s.setDring d { g with kept := g.kept.filter fun x => (s.cq d).held.any fun h => !h.hub && decide (h.drun = some x.1) }

/-- Records kept by their commands take the hub places that are free, in order, domain by domain (R157). -/
def State.fillHub (s : State) : State :=
  s.each s.ss.cq fun e s =>
    let q := s.cq e.1
    let step (a : List Held × Nat) (h : Held) : List Held × Nat :=
      if h.hub then (a.1 ++ [h], a.2) else if h.places ≤ a.2 then (a.1 ++ [{ h with hub := true }], a.2 - h.places) else (a.1 ++ [h], 0)
    ((s.setCq e.1 { q with held := (q.held.foldl step ([], 4096 - s.hubHeld)).1 }).hubRose e.1 (s.hubOf e.1)).leaveKept e.1

/-- COMPLETION_RECORD_RELEASE's effect (R157). -/
def State.release (s : State) (d : Nat) : State := (State.releaseSome (2 * (s.cq d).held.length) d s).fillHub

/-- A completion record's stamp fields and flags, then posted: for a domain, with the handle, the descriptor's sequence and opcode. -/
def State.record (s : State) (d : Nat) (handle seq opcode status progress outLen flags : Nat) (wants : Bool) (run : Option Nat := none) : State :=
  let st := s.stampNow
  s.postRec d
    { handle := handle, seq := seq, opcode := opcode, status := status, progress := progress % 2 ^ 32, outLen := outLen % 2 ^ 32,
      pick := s.pk.current % 2 ^ 48, ns := st.ns, flags := flags + 1024 * b2n s.pk.hold } wants run

/-! ## Domain control commands (R150) -/

/-- The load class (R150). -/
def loadClass (op : Nat) : Bool := [0x40, 0x41, 0x42, 0x43, 0x44, 0x45, 0x48, 0x58, 0x59].contains op

/-- A control descriptor's completion: its record and its counts. -/
def State.endDom (s : State) (q : QDesc) (status progress outLen : Nat) (run : Option Nat := none) : State :=
  let s := s.record q.dom q.d.session q.d.seq q.d.opcode status progress outLen (flForwarded * b2n q.fwd) (bit q.d.flags 0) run
  let s := s.when (decide (status = stDeadline)) fun s => (s.inc Dict.dsessDeadlineMissCount 1 0 q.dom).ev 0x08A none 1 q.d.session (some q.dom)
  let s := s.when (decide (status = stHold)) fun s => s.inc Dict.ckptHoldCount
  s.ev 0x083 none 1 q.d.session (some q.dom)

/-- A running control command. -/
def State.drun (s : State) (d id : Nat) : Option DRun := (s.dring d).running.find? fun r => r.id == id

/-- Replaces a running control command. -/
def State.setDrun (s : State) (d : Nat) (r : DRun) : State :=
  let g := s.dring d
  s.setDring d { g with running := g.running.map fun x => if x.id = r.id then r else x }

/-- A running control command completes; while its record has no place it keeps its position (R157). -/
def State.endDrun (s : State) (d id status progress outLen : Nat) : State :=
  match s.drun d id with
  | none => s
  | some r =>
    let g := s.dring d
    ((s.setDring d { g with running := g.running.filter (fun x => x.id != id), kept := g.kept ++ [(id, loadClass r.q.d.opcode)] }).endDom r.q status progress outLen (some id)).leaveKept d

/-! ## Far frames (R176, R195, R509) -/

/-- A far frame's key. -/
def farKey (d region n : Nat) : Nat := (16 * d + region) * 2 ^ 40 + n

/-- What the record of a far frame says: it is owned, and recorded on channel c (c + 1); it was freed from a poisoned page and waits for its test (11 + c), is
under test (21 + c), or failed it (31 + c); its record was lost with its channel (99). -/
def farLost : Nat := 99

/-- The channel that records a far frame, one up. -/
def farRec (v : Nat) : Nat := if v = farLost then 0 else v % 10

/-- The bytes of a frame's test (R195). -/
def testPattern : Bytes := (List.range 73728).map fun i => Config.testByte i % 256

/-- A far frame's test has ended (R195): it rejoins its region, or is retired. -/
def State.farTested (s : State) (key : Nat) (good : Bool) : State :=
  let v := Tbl.get 0 s.tm.far key
  if v / 10 ≠ 2 then s
  else if good then { s with tm := { s.tm with far := Tbl.erase s.tm.far key } }
  else
    let c := v % 10 - 1
    let s : State := { s with tm := { s.tm with far := Tbl.put 0 s.tm.far key (v + 10) } }
    ((s.inc Dict.tierFramesRetired 1 0 c).ev 0x053 (some c) 1 (key % 2 ^ 40)).notify 0x1201 ([c, 2] ++ beBytes 4 (key % 2 ^ 40))

/-! ## Abort (R384, R389) -/

/-- A session ring's or control ring's input read ends: with its bytes, or with a failure status. -/
def State.inputRead (s : State) (what : OpFor) (data : Option Bytes) (err : Nat) : State :=
  let fix (q : QDesc) : QDesc := match data with
    | some b => { q with inSt := 2, input := b }
    | none => { q with inSt := 3, inErr := err }
  match what with
  | .sessIn k seq =>
    let x := s.sess k
    s.setSess k { x with ring := match x.ring with
      | [] => []
      | q :: rest => if q.inSt = 1 ∧ q.d.seq = seq then fix q :: rest else q :: rest }
  | .domIn d id =>
    match s.drun d id with
    | some x => s.setDrun d { x with q := if x.q.inSt = 1 then fix x.q else x.q }
    | none => s
  | .domFlush d id =>
    match s.drun d id with
    | some x => if data.isSome then s.endDrun d id x.stage x.a x.b else s.endDrun d id stAbort x.a x.b
    | none => s
  | .notifFlush d =>
    let q := s.cq d
    match q.flushing with
    | [] => s
    | r :: rest =>
      let s := s.setCq d { q with flushing := rest }
      if data.isSome then
        let f := s.reg Dict.dsessNotifyFlow 0 d
        if s.flowReady f then ((s.txSend f r.bytes).ev 0x08F none 1 0 (some d)).ev 0x19A none 1 f (some d) else s.holdRec d r true false
      else s.holdRec d r true false
  | .drainFlush => s
  | .farMove k l => { s with tm := { s.tm with moves := s.tm.moves.map fun m => if m.k = k ∧ m.lpn = l ∧ m.io = 1 then { m with io := if data.isSome then 2 else 3 } else m } }
  | .exportIo k =>
    let x := s.sess k
    s.setSess k { x with xio := x.xio - 1, xst := if x.xst = 0 then 0 else if data.isNone then 4 else if x.xst = 2 then 3 else x.xst }
  | .farTest key => s.farTested key (decide (data = some testPattern))

/-- The command whose output a packet carries fails with it (R379): a GENERATE at its step boundary, a SELECT or VEC_SEARCH at once. -/
def State.outputLost (s : State) (p : TxPkt) : State :=
  match p.own with
  | some (.sessIn k seq) =>
    let x := s.sess k
    match x.run with
    | some r => if r.q.d.seq = seq then s.setSess k { x with outFail := true } else s
    | none => s
  | some (.domFlush d id) => s.inputRead (.domFlush d id) none stAbort
  | some (.farMove k l) => s.inputRead (.farMove k l) none stAbort
  | some (.exportIo k) => s.inputRead (.exportIo k) none stAbort
  | some (.farTest key) => s.inputRead (.farTest key) none stAbort
  | _ => s

/-- Every operation outstanding on a flow ends with TRANSPORT_ABORT (R384, R389). -/
def State.abortOps (s : State) (f : Nat) : State :=
  let x := s.flow f
  let s := s.setFlow f { x with ops := [], unacked := [], waiting := [], rtoAt := none, expiries := 0, msg := none }
  let s := s.each (x.unacked ++ x.waiting) fun p s => s.outputLost p
  s.each x.ops fun o s =>
    let s := match o.trk with
      | some (c, i) => s.freeSlot c i
      | none => s
    s.inputRead o.what none 0x0F

/-- A flow enters ERROR (R389). -/
def State.flowFail (s : State) (f : Nat) : State :=
  let x := s.flow f
  let psn := x.tx % 2 ^ 24
  let s := (s.setFlow f { x with st := 2 }).abortOps f
  let s := (s.inc Dict.slaiskFlowErrorCount).ev 0x18A none 1 f (some x.cfg.dom)
  s.notify 0x0603 (beBytes 2 f ++ beBytes 2 x.cfg.dom ++ beBytes 4 psn)

end Sys2Proof.Machine
end

