-- ==== Sys2Proof/Machine/Budget.lean ====
section
/-! DEFINITION. Token budgets (spec/09, R284-R289): balances, refills, reservations and charges.  Refills are kept up lazily: a domain's record says up to which
count of pick numbers its refills are applied, and reading it applies the rest, which one min gives in closed form (R285). -/

namespace Sys2Proof.Machine

open Sys2Proof

/-- What n refills add to a balance (R285): each adds min(refill, cap − balance) while the balance is below the cap. -/
def refillSum (refill cap n : Nat) (bal : Int) : Nat :=
  if bal < cap then Nat.min (n * refill) ((cap : Int) - bal).toNat else 0

/-- A budget with its refills applied up to a count of pick numbers. -/
def Budget.upTo (b : Budget) (refill cap ticks : Nat) : Budget :=
  let a := refillSum refill cap (ticks - b.at_) b.bal
  { b with bal := b.bal + a, refilled := b.refilled + a, at_ := ticks }

/-- A domain's budget now. -/
def State.budget (s : State) (d : Nat) : Budget :=
  (Tbl.get {} s.sv.budgets d).upTo (s.reg Dict.dbudgetRefill 0 d) (s.reg Dict.dbudgetCap 0 d) s.sv.ticks

/-- The baseline with which the ledger's identity holds (R287, R463). -/
def Budget.rebased (b : Budget) : Budget := { b with base := b.charged + b.bal + b.reserved - b.refilled - b.adjusted }

/-- Replaces a domain's budget. -/
def State.setBudget (s : State) (d : Nat) (b : Budget) : State := { s with sv := { s.sv with budgets := Tbl.put {} s.sv.budgets d b } }

/-- A domain's refills are applied before one of its settings changes (R289). -/
def State.settleBudget (s : State) (d : Nat) : State := s.setBudget d (s.budget d)

/-- Some counter or the trace counts. -/
def State.watched (s : State) : Bool := decide (s.mn.mons ≠ []) || s.mn.trace.counting

/-- n pick numbers are passed: each brings every domain a refill (R285). -/
def State.refill (s : State) (n : Nat) : State :=
  let s' : State := { s with sv := { s.sv with ticks := s.sv.ticks + n } }
  s'.when s.watched fun s' => s'.each (List.range 4096) fun d s' =>
    let a := (s'.budget d).refilled - (s.budget d).refilled
    s'.when (decide (0 < a)) fun s' => s'.ev 0x250 none a 0 (some d)

/-- Moves r tokens from the balance into the reserved count (R286). -/
def State.reserveTokens (s : State) (d r : Nat) : State :=
  let b := s.budget d
  (s.setBudget d { b with bal := b.bal - r, reserved := b.reserved + r }).ev 0x251 none r 0 (some d)

/-- Resolves a reservation of r: e tokens are charged, to the domain and to session k, and the rest released (R287). -/
def State.resolveTokens (s : State) (k r e : Nat) : State :=
  let x := s.sess k
  let b := s.budget x.dom
  let s := s.setBudget x.dom { b with bal := b.bal + (r - e : Nat), reserved := b.reserved - r, charged := b.charged + e }
  let s := s.setSess k { x with charged := x.charged + e }
  let s := s.when (decide (0 < e)) fun s => s.ev 0x252 (some (chOf k)) e (s.handle k) (some x.dom) (some (s.handle k))
  s.when (decide (e < r)) fun s => s.ev 0x253 (some (chOf k)) (r - e) (s.handle k) (some x.dom) (some (s.handle k))

/-- `dbudget.adjust`: adds its signed value to the balance at once, and to the ledger (R285). -/
def State.adjustTokens (s : State) (d : Nat) (v : Int) : State :=
  let b := s.budget d
  (s.setBudget d { b with bal := b.bal + v, adjusted := b.adjusted + v }).ev 0x258 none 1 0 (some d)

end Sys2Proof.Machine
end

