-- ==== Sys2Proof/Machine/Der.lean ====
section
/-! DEFINITION. The attestation certificate's DER encoding (spec/04, R114, R115). -/

namespace Sys2Proof.Machine

open Sys2Proof

/-- A DER length. -/
def derLen (n : Nat) : Bytes := if n < 128 then [n] else if n < 256 then [0x81, n] else [0x82, n / 256 % 256, n % 256]

/-- A DER value under a tag. -/
def der (tag : Nat) (c : Bytes) : Bytes := tag :: (derLen c.length ++ c)

/-- A SEQUENCE of encoded components. -/
def derSeq (l : List Bytes) : Bytes := der 0x30 l.flatten

/-- The shortest two's complement of a number that is not negative. -/
def derNat (n : Nat) : Bytes := let b := beBytes (n.log2 / 8 + 1) n; if 128 ≤ b.headD 0 then 0 :: b else b

/-- INTEGER, ENUMERATED, BOOLEAN, OCTET STRING and OBJECT IDENTIFIER. -/
def derInt (n : Nat) : Bytes := der 0x02 (derNat n)
def derEnum (n : Nat) : Bytes := der 0x0A (derNat n)
def derBool (b : Bool) : Bytes := der 0x01 [if b then 0xFF else 0]
def derOctets (b : Bytes) : Bytes := der 0x04 b
def derOid (b : Bytes) : Bytes := der 0x06 b

/-- One name component: attribute 2.5.4.n with its text (log 162: UTF8String). -/
def derRdn (n : Nat) (text : Bytes) : Bytes := der 0x31 (derSeq [derOid [0x55, 0x04, n], der 0x0C text])

/-- Upper-case hexadecimal digits of a byte string. -/
def hexDigits (b : Bytes) : Bytes := b.flatMap fun x => [x / 16 % 16, x % 16].map fun d => if d < 10 then 48 + d else 55 + d

/-- The components of the issuer: O=Alavan Semiconductor, CN=KB480 followed by `id.serial`. -/
def issuerRdns : List Bytes :=
  [derRdn 10 (label "Alavan Semiconductor"), derRdn 3 (label "KB480" ++ hexDigits (beBytes 16 (Config.constEntry Dict.idSerial.addr)))]

/-- A certificate extension: identifier, criticality and content. -/
def derExt (oid : Bytes) (critical : Bool) (c : Bytes) : Bytes := derSeq ([derOid oid] ++ (if critical then [derBool true] else []) ++ [derOctets c])

/-- The KB480 attestation extension's content (R115); `domain` and `domainClass` are present only for purpose 2 (log 162: explicit tags). -/
def Cert.extension (c : Cert) : Bytes :=
  derSeq ([derInt 1, derInt 1, derOctets (beBytes 32 c.nonce), derInt c.pick, derEnum c.pickState, derBool c.hold, derInt c.device, derEnum c.purpose] ++
    (if c.purpose = 2 then [der 0xA0 (derInt c.domain), der 0xA1 (derEnum c.cls)] else []) ++
    [derSeq (c.meas.map fun m => derSeq [derInt m.1, derInt m.2.1, derOctets (beBytes 32 m.2.2)])])

/-- The certificate's signed part, with the fields of R114's table: keyUsage is critical with keyEncipherment alone; the extension's identifier is
2.25.174209.1. -/
def Cert.tbs (c : Cert) : Bytes :=
  derSeq [der 0xA0 (derInt 2), derInt (c.sig + 1), Config.algXmssmt, derSeq issuerRdns, derSeq [Config.certNotBefore, der 0x18 (label "99991231235959Z")],
    derSeq (issuerRdns ++ [derRdn 11 (label "attestation")]), derSeq [Config.algMlkem, der 0x03 (0 :: fixLen 1568 (Config.mlkemPublic c.keyNo))],
    der 0xA3 (derSeq [derExt [0x55, 0x1D, 0x23] false (derSeq [der 0x80 (beBytes 32 ownDigest)]), derExt [0x55, 0x1D, 0x0F] true (der 0x03 [5, 0x20]),
      derExt [0x69, 0x8A, 0xD1, 0x01, 0x01] false c.extension])]

/-- An attestation certificate in DER form (R114), signed with its index. -/
def Cert.der (c : Cert) : Bytes := derSeq [c.tbs, Config.algXmssmt, Machine.der 0x03 (0 :: fixLen 9893 (Config.xmssSign c.sig c.tbs))]

end Sys2Proof.Machine
end

