-- ==== Sys2Proof/Machine/Float.lean ====
section
/-! DEFINITION. The number formats and their arithmetic (spec/07, R220-R225), the KV formats and cairns (spec/08, R243-R245,
R258-R260).  Values are exact rationals until they are rounded once to a format. -/

namespace Sys2Proof.Machine

open Sys2Proof

/-- A format's code field (R220): exponent and fraction bits, bias, whether it has infinities, its NaN (0 none, 1 IEEE, 2 only S.1111.111), and the
magnitude code of its largest finite value. -/
structure Fmt where
  eb : Nat
  mb : Nat
  bias : Nat
  inf : Bool
  nan : Nat
  maxCode : Nat
  deriving DecidableEq, Repr

def fp4 : Fmt := ⟨2, 1, 1, false, 0, 7⟩
def fp6e2m3 : Fmt := ⟨2, 3, 1, false, 0, 31⟩
def fp6e3m2 : Fmt := ⟨3, 2, 3, false, 0, 31⟩
def fp8e4m3 : Fmt := ⟨4, 3, 7, false, 2, 0x7E⟩
def fp8e5m2 : Fmt := ⟨5, 2, 15, true, 1, 0x7B⟩
def bf16 : Fmt := ⟨8, 7, 127, true, 1, 0x7F7F⟩
def fp16 : Fmt := ⟨5, 10, 15, true, 1, 0x7BFF⟩
def fp32 : Fmt := ⟨8, 23, 127, true, 1, 0x7F7FFFFF⟩

/-- Bits of a format. -/
def Fmt.bits (f : Fmt) : Nat := 1 + f.eb + f.mb

/-- A value: NaN, an infinity, or a signed exact rational n / d. -/
inductive Num where
  | nan
  | inf (neg : Bool)
  | fin (neg : Bool) (n d : Nat)
  deriving DecidableEq, Repr

/-- The value of a code (R220, R225: subnormals and −0 are kept). -/
def Fmt.read (f : Fmt) (v : Nat) : Num :=
  let neg := bit v (f.eb + f.mb)
  let mag := v % 2 ^ (f.eb + f.mb)
  let e := mag / 2 ^ f.mb
  let m := mag % 2 ^ f.mb
  if f.maxCode < mag then (if f.inf ∧ m = 0 then .inf neg else .nan)
  else
    let sig := if e = 0 then m else m + 2 ^ f.mb
    let x : Int := (if e = 0 then 1 else (e : Int)) - f.bias - f.mb
    if 0 ≤ x then .fin neg (sig * 2 ^ x.toNat) 1 else .fin neg sig (2 ^ (-x).toNat)

/-- floor(log2(n / d)) for a positive rational. -/
def log2Rat (n d : Nat) : Int :=
  let l : Int := (Nat.log2 n : Int) - (Nat.log2 d : Int)
  if 0 ≤ l then (if n < d * 2 ^ l.toNat then l - 1 else l)
  else (if n * 2 ^ (-l).toNat < d then l - 1 else l)

/-- n / d to the nearest integer, ties to even (R223). -/
def roundEven (n d : Nat) : Nat :=
  let q := n / d
  let r := n % d
  if 2 * r < d then q else if d < 2 * r then q + 1 else if q % 2 = 0 then q else q + 1

/-- n / d times 2^-x, to the nearest integer. -/
def roundScaled (n d : Nat) (x : Int) : Nat :=
  if 0 ≤ x then roundEven n (d * 2 ^ x.toNat) else roundEven (n * 2 ^ (-x).toNat) d

/-- The magnitude code nearest to n / d, before the limit of R224. -/
def Fmt.round (f : Fmt) (n d : Nat) : Nat :=
  if n = 0 then 0
  else
    let emin : Int := 1 - (f.bias : Int)
    let e := max (log2Rat n d) emin
    let k := roundScaled n d (e - f.mb)
    (e - emin).toNat * 2 ^ f.mb + k

/-- The code of NaN: quiet with a clear sign where the format has one, zero where it has none (R224, R225). -/
def Fmt.nanCode (f : Fmt) : Nat :=
  if f.nan = 1 then (2 ^ f.eb - 1) * 2 ^ f.mb + 2 ^ (f.mb - 1) else if f.nan = 2 then 2 ^ (f.eb + f.mb) - 1 else 0

/-- A value written in a format (R223, R224), with the saturate flag; the Bool says whether it saturated. -/
def Fmt.write (f : Fmt) (sat : Bool) (v : Num) : Nat × Bool :=
  let sgn (neg : Bool) (c : Nat) := if neg then c + 2 ^ (f.eb + f.mb) else c
  let big (neg : Bool) : Nat × Bool :=
    if sat || (f.nan == 0) then (sgn neg f.maxCode, true)
    else if f.inf then (sgn neg (f.maxCode + 1), false) else (f.nanCode, false)
  match v with
  | .nan => (f.nanCode, false)
  | .inf neg => big neg
  | .fin neg n d => let c := f.round n d; if f.maxCode < c then big neg else (sgn neg c, false)

/-! ## Exact arithmetic -/

/-- −x. -/
def Num.neg : Num → Num
  | .nan => .nan
  | .inf s => .inf (!s)
  | .fin s n d => .fin (!s) n d

/-- |x|. -/
def Num.abs : Num → Num
  | .nan => .nan
  | .inf _ => .inf false
  | .fin _ n d => .fin false n d

/-- x + y, exactly. -/
def Num.add : Num → Num → Num
  | .nan, _ => .nan
  | _, .nan => .nan
  | .inf a, .inf b => if a = b then .inf a else .nan
  | .inf a, _ => .inf a
  | _, .inf b => .inf b
  | .fin a n d, .fin b m e =>
    let x := n * e
    let y := m * d
    if a = b then .fin a (x + y) (d * e)
    else if x = y then .fin false 0 1
    else if y < x then .fin a (x - y) (d * e) else .fin b (y - x) (d * e)

/-- x × y, exactly. -/
def Num.mul : Num → Num → Num
  | .nan, _ => .nan
  | _, .nan => .nan
  | .inf a, .inf b => .inf (a != b)
  | .inf a, .fin b m _ => if m = 0 then .nan else .inf (a != b)
  | .fin a n _, .inf b => if n = 0 then .nan else .inf (a != b)
  | .fin a n d, .fin b m e => .fin (a != b) (n * m) (d * e)

/-- x / y, exactly. -/
def Num.div : Num → Num → Num
  | .nan, _ => .nan
  | _, .nan => .nan
  | .inf _, .inf _ => .nan
  | .inf a, .fin b _ _ => .inf (a != b)
  | .fin a _ _, .inf b => .fin (a != b) 0 1
  | .fin a n d, .fin b m e => if m = 0 then (if n = 0 then .nan else .inf (a != b)) else .fin (a != b) (n * e) (d * m)

/-- x < y; false with a NaN. -/
def Num.lt : Num → Num → Bool
  | .nan, _ => false
  | _, .nan => false
  | .inf a, .inf b => a && !b
  | .inf a, .fin _ _ _ => a
  | .fin _ _ _, .inf b => !b
  | .fin a n d, .fin b m e =>
    if a then (if b then decide (m * d < n * e) else decide (n ≠ 0 ∨ m ≠ 0))
    else if b then false else decide (n * e < m * d)

/-- x = 0. -/
def Num.isZero : Num → Bool
  | .fin _ n _ => n == 0
  | _ => false

/-- 2^x. -/
def Num.pow2 (x : Int) : Num := if 0 ≤ x then .fin false (2 ^ x.toNat) 1 else .fin false 1 (2 ^ (-x).toNat)

/-- A natural number. -/
def Num.nat (n : Nat) : Num := .fin false n 1

/-! ## FP32, as the vector unit computes (R223, R225) -/

/-- The value of 32 bits. -/
def f32 (v : Nat) : Num := fp32.read v

/-- The 32 bits nearest to a value. -/
def toF32 (x : Num) : Nat := (fp32.write false x).1

def fadd (a b : Nat) : Nat := toF32 ((f32 a).add (f32 b))
def fsub (a b : Nat) : Nat := toF32 ((f32 a).add (f32 b).neg)
def fmul (a b : Nat) : Nat := toF32 ((f32 a).mul (f32 b))
def fdiv (a b : Nat) : Nat := toF32 ((f32 a).div (f32 b))
def flt (a b : Nat) : Bool := (f32 a).lt (f32 b)
def fisNan (a : Nat) : Bool := decide (f32 a = .nan)
def fmax (a b : Nat) : Nat := if flt a b then b else a

/-- −∞ and +∞ in FP32. -/
def fNegInf : Nat := 0xFF800000
def fPosInf : Nat := 0x7F800000

/-- The square root of n / d to FP32, to nearest: the largest code whose square does not exceed n / d, or its successor. -/
def fsqrt (v : Nat) : Nat :=
  match f32 v with
  | .fin neg n d =>
    if n = 0 then v
    else if neg then fp32.nanCode
    else
      -- sqrt(n/d) = sqrt(n*d)/d; scaled so that the integer root has 60 or more bits
      let k := 64
      let root := Nat.sqrt (n * d * 2 ^ (2 * k))
      let exact := decide (root * root = n * d * 2 ^ (2 * k))
      toF32 (.fin false (2 * root + b2n (!exact)) (2 * d * 2 ^ k))
  | .inf false => fPosInf
  | _ => fp32.nanCode

/-- The next FP32 value above a finite one that is not negative (R259). -/
def fnextUp (v : Nat) : Nat := v + 1

/-! ## Conversions to MX32 and INT8 (R222, R224) -/

/-- The emax of R222 for a format code. -/
def emaxOf (code : Nat) : Int :=
  if code = 0x01 ∨ code = 0x02 then 2 else if code = 0x03 then 4 else if code = 0x04 then 8 else if code = 0x05 then 15 else 6

/-- The format of a tensor format code (R220); none for INT8 and the reserved codes. -/
def fmtOf (code : Nat) : Option Fmt :=
  match code with
  | 0x01 => some fp4
  | 0x02 => some fp6e2m3
  | 0x03 => some fp6e3m2
  | 0x04 => some fp8e4m3
  | 0x05 => some fp8e5m2
  | 0x07 => some bf16
  | 0x08 => some fp16
  | 0x09 => some fp32
  | _ => none

/-- A value as an 8-bit integer, saturating to −128 and 127; NaN becomes zero (R224). -/
def toInt8 (v : Num) : Nat × Bool :=
  match v with
  | .nan => (0, false)
  | .inf neg => (if neg then 128 else 127, true)
  | .fin neg n d =>
    let k := roundEven n d
    if neg then (if 128 < k then (128, true) else ((256 - k) % 256, false)) else (if 127 < k then (127, true) else (k, false))

/-- A value in a format code. -/
def convert (code : Nat) (sat : Bool) (v : Num) : Nat × Bool :=
  match fmtOf code with
  | some f => f.write sat v
  | none => toInt8 v

/-- R222: a block of FP32 values as its E8M0 scale and its element codes, and how many saturated (R224). -/
def mxBlock (code : Nat) (sat : Bool) (vs : List Nat) : Nat × List Nat × Nat :=
  let xs := vs.map f32
  if xs.any (fun x => decide (x = .nan) || decide (x = .inf true) || decide (x = .inf false)) then
    (0xFF, xs.map (fun x => (convert code sat x).1), 0)
  else
    let big := xs.foldl (fun a x => if a.lt x.abs then x.abs else a) (Num.nat 0)
    match big with
    | .fin _ n d =>
      if n = 0 then (0, vs.map (fun _ => 0), 0)
      else
        let e : Int := min 127 (max (-127) (log2Rat n d - emaxOf code))
        let cs := xs.map fun x => convert code sat (x.mul (Num.pow2 (-e)))
        ((e + 127).toNat, cs.map (·.1), cs.countP (·.2))
    | _ => (0xFF, vs.map (fun _ => 0), 0)

/-- The value of one element of an MX32 block; a scale of 0xFF is NaN (R221). -/
def mxRead (code scale c : Nat) : Num :=
  if scale = 0xFF then .nan
  else
    let v := match fmtOf code with
      | some f => f.read c
      | none => let i := toSigned 8 c; Num.fin (decide (i < 0)) i.natAbs 1
    v.mul (Num.pow2 ((scale : Int) - 127))

/-- R221: one block of 32 products of two MX32 operands, summed exactly, scaled, rounded once and added to the FP32 accumulator. -/
def mxDot (acc codeA sa : Nat) (as : List Nat) (codeB sb : Nat) (bs : List Nat) : Nat :=
  let p := (as.zip bs).foldl (fun s ab => s.add ((mxRead codeA 127 ab.1).mul (mxRead codeB 127 ab.2))) (Num.nat 0)
  let p := if sa = 0xFF ∨ sb = 0xFF then Num.nan else (p.mul (Num.pow2 ((sa : Int) - 127))).mul (Num.pow2 ((sb : Int) - 127))
  fadd acc (toF32 p)

/-- R221: one block of INT8 products, summed exactly in integers, converted to FP32 and added. -/
def int8Dot (acc : Nat) (as bs : List Nat) : Nat :=
  let p : Int := (as.zip bs).foldl (fun s ab => s + toSigned 8 ab.1 * toSigned 8 ab.2) 0
  fadd acc (toF32 (.fin (decide (p < 0)) p.natAbs 1))

/-- R221: the other pairs multiply exactly and accumulate in FP32: each product enters the sum unrounded, and each sum is rounded once. -/
def floatDot (acc : Nat) (as bs : List Num) : Nat := (as.zip bs).foldl (fun s ab => toF32 ((f32 s).add (ab.1.mul ab.2))) acc

/-- The values of an operand's elements, under its blocks' scales where it has them. -/
def matValues (o : MatOp) : List Num :=
  ((List.range o.elems.length).zip o.elems).map fun e => mxRead o.code (if o.mode = 1 then o.scales.getD (e.1 / 32) 0xFF else 127) e.2

/-- The pairing and the lengths that R221 permits: INT8 with INT8 only, and the reduction length of an MX32 operand a multiple of 32. -/
def dotOk (a b : MatOp) : Bool :=
  (decide (a.code = 6) == decide (b.code = 6)) && decide (a.elems.length = b.elems.length) && (decide (a.mode ≠ 1 ∧ b.mode ≠ 1) || decide (a.elems.length % 32 = 0))

/-- R221: the matrix unit's dot product of two operands, in FP32: the accumulated sum, to which TENSOR and ROW scales are applied; none for a pair that
R221 does not permit. -/
def matDot (a b : MatOp) : Option Nat :=
  if dotOk a b then
    let blocks := ((a.elems.length + 31) / 32)
    let at32 (l : List Nat) (i : Nat) : List Nat := (l.drop (32 * i)).take 32
    let acc :=
      if a.mode = 1 ∧ b.mode = 1 then
        (List.range blocks).foldl (fun s i => mxDot s a.code (a.scales.getD i 0xFF) (at32 a.elems i) b.code (b.scales.getD i 0xFF) (at32 b.elems i)) 0
      else if a.code = 6 ∧ a.mode ≠ 1 ∧ b.mode ≠ 1 then (List.range blocks).foldl (fun s i => int8Dot s (at32 a.elems i) (at32 b.elems i)) 0
      else floatDot 0 (matValues a) (matValues b)
    let scaled (o : MatOp) (x : Nat) : Nat := if o.mode = 2 ∨ o.mode = 3 then fmul x (o.scales.getD 0 0) else x
    some (scaled b (scaled a acc))
  else none

/-! ## KV formats (R243-R245) -/

/-- Splits a list into runs of n (fuel bounds the recursion). -/
def chunksOf {α : Type} (n : Nat) : Nat → List α → List (List α)
  | 0, _ => []
  | _ + 1, [] => []
  | fuel + 1, l => l.take n :: chunksOf n fuel (l.drop n)

/-- Runs of n of a list. -/
def runsOf {α : Type} (n : Nat) (l : List α) : List (List α) := chunksOf n l.length l

/-- Payload and scale bytes per token per layer of a KV format, E elements (R243); none for a reserved code. -/
def kvSizes (fmt e : Nat) : Option (Nat × Nat) :=
  match fmt with
  | 1 => some (e / 2, e / 32)
  | 2 => some (3 * e / 4, e / 32)
  | 3 => some (e, 0)
  | 4 => some (e / 2, e / 32)
  | _ => none

/-- Bits of an element of a KV format. -/
def kvBits (fmt : Nat) : Nat := if fmt = 2 then 6 else if fmt = 3 then 8 else 4

/-- R245, KV_INT4G: a group of 64 as its FP16 scale and its elements (4-bit two's complement). -/
def int4Group (vs : List Nat) : Nat × List Nat :=
  let xs := vs.map f32
  if xs.any (fun x => decide (x = .nan) || decide (x = .inf true) || decide (x = .inf false)) then (0x7E00, vs.map fun _ => 0)
  else
    let big := xs.foldl (fun a x => if a.lt x.abs then x.abs else a) (Num.nat 0)
    if big.isZero then (0, vs.map fun _ => 0)
    else
      let s := (fp16.write true (big.div (Num.nat 7))).1
      let el (x : Num) : Nat :=
        match x.div (fp16.read s) with
        | .fin neg n d => let k := Nat.min 7 (roundEven n d); if neg then (16 - k) % 16 else k
        | .inf neg => if neg then 9 else 7
        | .nan => 0
      (s, xs.map el)

/-- R245: one run of consecutive elements of one head's key or value, quantised: element codes and scale bytes. -/
def kvQuant (fmt : Nat) (vs : List Nat) : List Nat × Bytes :=
  match fmt with
  | 1 => let bs := (runsOf 32 vs).map (mxBlock 0x01 true); (bs.flatMap (·.2.1), bs.map (·.1))
  | 2 => let bs := (runsOf 32 vs).map (mxBlock 0x02 true); (bs.flatMap (·.2.1), bs.map (·.1))
  | 3 => (vs.map fun v => (fp8e4m3.write true (f32 v)).1, [])
  | _ => let bs := (runsOf 64 vs).map int4Group; (bs.flatMap (·.2), bs.flatMap fun b => leBytes 2 b.1)

/-- How many elements saturate when a run is quantised (R224, R245): in the MX32 formats, and in FP8. -/
def kvSaturated (fmt : Nat) (vs : List Nat) : Nat :=
  match fmt with
  | 1 => sumOf (fun r => (mxBlock 0x01 true r).2.2) (runsOf 32 vs)
  | 2 => sumOf (fun r => (mxBlock 0x02 true r).2.2) (runsOf 32 vs)
  | 3 => vs.countP fun v => (fp8e4m3.write true (f32 v)).2
  | _ => 0

/-- R245: an element as attention reads it, in FP32. -/
def kvRead (fmt : Nat) (c : Nat) (scale : Nat) : Nat :=
  match fmt with
  | 1 => toF32 (mxRead 0x01 scale c)
  | 2 => toF32 (mxRead 0x02 scale c)
  | 3 => toF32 (fp8e4m3.read c)
  | _ => if scale = 0x7E00 then fp32.nanCode else let i := toSigned 4 c; toF32 ((Num.fin (decide (i < 0)) i.natAbs 1).mul (fp16.read scale))

/-- R244: element codes packed into bytes: 4-bit two to a byte, 6-bit four to three bytes, the first element in the low
bits. -/
def packElems (fmt : Nat) (cs : List Nat) : Bytes :=
  match fmt with
  | 3 => cs
  | 2 => (runsOf 4 cs).flatMap fun r => leBytes 3 (r.foldr (fun c a => c % 64 + 64 * a) 0)
  | _ => (runsOf 2 cs).map fun r => r.foldr (fun c a => c % 16 + 16 * a) 0

/-! ## Cairns (R258-R260) -/

/-- R258: the pool factor, the smallest power of two that fits. -/
def cairnPool (kvHeads headDim : Nat) : Nat :=
  let fits (f : Nat) : Bool := decide (16 + kvHeads * (8 + headDim / f) ≤ 1024)
  (([1, 2, 4, 8, 16, 32, 64, 128, 256].find? fits)).getD 256

/-- A sum in FP32, left to right. -/
def fsum (l : List Nat) : Nat := l.foldl fadd 0

/-- The Euclidean norm in FP32. -/
def fnorm (v : List Nat) : Nat := fsqrt (fsum (v.map fun x => fmul x x))

/-- The centre of a KV head's keys (R259): per pooled dimension the mean over all tokens, as FP8 E4M3. -/
def cairnCentre (f : Nat) (keys : List (List Nat)) : List Nat :=
  let pooled := keys.map fun k => runsOf f k
  let n := match pooled with
    | [] => 0
    | k :: _ => k.length
  (List.range n).map fun j =>
    let xs := pooled.flatMap fun k => k.getD j []
    (fp8e4m3.write true ((f32 (fsum xs)).div (Num.nat xs.length))).1

/-- One head's cairn entry (R258, R259): radius, max_norm and centre, from the page's keys as FP32. -/
def cairnHead (f : Nat) (keys : List (List Nat)) : Bytes :=
  let c := cairnCentre f keys
  let mu := c.flatMap fun b => List.replicate f (toF32 (fp8e4m3.read b))
  let dist := keys.map fun k => fnorm ((k.zip mu).map fun p => fsub p.1 p.2)
  leBytes 4 (fnextUp (dist.foldl fmax 0)) ++ leBytes 4 (fnextUp ((keys.map fnorm).foldl fmax 0)) ++ c

/-- A cairn's 1,024 bytes (R258), from the keys of each KV head. -/
def cairnBytes (headDim tokens : Nat) (heads : List (List (List Nat))) : Bytes :=
  let f := cairnPool heads.length headDim
  let b := [1, 1, Nat.log2 f, heads.length] ++ leBytes 2 (headDim / f) ++ leBytes 2 tokens ++ List.replicate 8 0 ++ heads.flatMap (cairnHead f)
  b ++ List.replicate (1024 - b.length) 0

/-- R260: the page bound of a query on one head: ρ × min(q · μ′ + ‖q‖ × radius, ‖q‖ × max_norm), in FP32. -/
def pageBound (rho : Nat) (q mu : List Nat) (radius maxNorm : Nat) : Nat :=
  let n := fnorm q
  let a := fadd (fsum ((q.zip mu).map fun p => fmul p.1 p.2)) (fmul n radius)
  let b := fmul n maxNorm
  fmul rho (if flt b a then b else a)

end Sys2Proof.Machine
end

