-- ==== Sys2Proof/Machine/Text.lean ====
section
/-! DEFINITION. Text and grammar (spec/10) as functions of the images: normalisation, tokenising, rendering, stop strings, and the grammar automaton. -/

namespace Sys2Proof.Machine

open Sys2Proof

/-- n bytes at an offset, little-endian (R8). -/
def le (b : Bytes) (off n : Nat) : Nat := leNat ((b.drop off).take n)

/-- n bytes at an offset, big-endian (R9). -/
def be (b : Bytes) (off n : Nat) : Nat := beNat ((b.drop off).take n)

/-- The bytes from `off` to `off + n` are all zero. -/
def zeroAt (b : Bytes) (off n : Nat) : Bool := ((b.drop off).take n).all (· == 0)

/-! ## Vocabulary images (R294, R295) -/

/-- The vocabulary an image holds, with no check. -/
def parseVocab (b : Bytes) : Vocab :=
  let n := le b 16 4
  let et := le b 56 8
  let ba := le b 64 8
  let mt := le b 72 8
  let ct := le b 80 8
  let no := le b 88 8
  let blocks := le b no 4
  let decs := le b (no + 4) 4
  let pairs := le b (no + 8) 4
  let form := le b 24 1
  { len := b.length
    digest := Config.shake256 b 32
    entries := (List.range n).map fun i => ((b.drop (ba + le b (et + 8 * i) 4)).take (le b (et + 8 * i + 4) 2), le b (et + 8 * i + 6) 1)
    merges := (List.range (le b 20 4)).map fun i => (le b (mt + 16 * i) 4, le b (mt + 16 * i + 4) 4, le b (mt + 16 * i + 8) 4, le b (mt + 16 * i + 12) 4)
    form := form
    base := le b 28 4
    eos := (List.range (le b 32 1)).map fun i => le b (36 + 4 * i) 4
    classes := (List.range (le b 52 2)).map fun i => (le b (ct + 12 * i) 4, le b (ct + 12 * i + 4) 4, le b (ct + 12 * i + 8) 1, le b (ct + 12 * i + 9) 1)
    index := if form = 0 then [] else (List.range 4352).map fun i => le b (no + 16 + 2 * i) 2
    blocks := if form = 0 then [] else (List.range (256 * blocks)).map fun i => le b (no + 8720 + 4 * i) 4
    decs := if form = 0 then [] else (List.range decs).map fun i => le b (no + 8720 + 1024 * blocks + 4 * i) 4
    pairs :=
      if form = 0 then []
      else (List.range pairs).map fun i =>
        let o := no + 8720 + 1024 * blocks + 4 * decs + 12 * i
        (le b o 4, le b (o + 4) 4, le b (o + 8) 4) }

/-- A list is strictly rising under `lt`. -/
def risingBy {α : Type} (lt : α → α → Bool) : List α → Bool
  | [] => true
  | [_] => true
  | a :: b :: l => lt a b && risingBy lt (b :: l)

/-- The token's bytes; none where the identifier has no entry. -/
def Vocab.bytesOf (v : Vocab) (t : Nat) : Bytes := (v.entries.getD t ([], 0)).1

/-- R295's checks of the vocabulary section and R298's of the normalisation section. -/
def vocabOk (b : Bytes) : Bool :=
  let v := parseVocab b
  let len := b.length
  let n := le b 16 4
  let form := le b 24 1
  let et := le b 56 8
  let ba := le b 64 8
  let mt := le b 72 8
  let ct := le b 80 8
  let no := le b 88 8
  let nl := le b 96 8
  let mc := le b 20 4
  let cc := le b 52 2
  decide (256 ≤ len) && decide (len ≤ 268435456) &&
  decide (le b 1 1 ≤ 1) && zeroAt b 2 2 && decide (le b 4 4 = 256) && decide (le b 8 8 = len) &&
  decide (256 ≤ n) && decide (n ≤ 524288) && decide (mc ≤ 1048576) && decide (form ≤ 2) && (decide (form ≠ 0) || zeroAt b 25 3) &&
  decide (1 ≤ le b 32 1) && decide (le b 32 1 ≤ 4) && zeroAt b 33 3 && decide (cc ≤ 4096) && zeroAt b 54 2 && zeroAt b 104 8 && zeroAt b 144 112 &&
  ((List.range 4).all fun i => decide (i < le b 32 1) || decide (le b (36 + 4 * i) 4 = 0xFFFFFFFF)) &&
  decide (et + 8 * n ≤ len) && decide (mt + 16 * mc ≤ len) && decide (ct + 12 * cc ≤ len) &&
  decide (Config.shake256 (b.drop 256) 32 = be b 112 32) &&
  ((List.range n).all fun i =>
    let l := le b (et + 8 * i + 4) 2
    let fl := le b (et + 8 * i + 6) 1
    decide (1 ≤ l) && decide (l ≤ (if bit fl 0 then 64 else 128)) && decide (fl < 8) && zeroAt b (et + 8 * i + 7) 1 &&
    decide (ba + le b (et + 8 * i) 4 + l ≤ len) && (!bit fl 1 || bit fl 0)) &&
  decide (v.base + 255 < n) &&
  ((List.range 256).all fun k => let e := v.entries.getD (v.base + k) ([], 0); decide (e.1 = [k]) && !bit e.2 0) &&
  (v.eos.all fun t => decide (t < n) && bit (v.entries.getD t ([], 0)).2 0) &&
  risingBy (fun x y => decide (x.1 < y.1) || (decide (x.1 = y.1) && decide (x.2.1 < y.2.1))) v.merges &&
  (v.merges.all fun m => decide (m.1 < n) && decide (m.2.1 < n) && decide (m.2.2.1 < n) && decide (m.2.2.2 < mc) &&
    decide (v.bytesOf m.2.2.1 = v.bytesOf m.1 ++ v.bytesOf m.2.1)) &&
  decide ((v.merges.map (·.2.2.2)).Nodup) &&
  risingBy (fun x y => decide (x.2.1 < y.1)) v.classes &&
  (v.classes.all fun c => decide (c.1 ≤ c.2.1) && decide (c.2.1 ≤ 0x10FFFF) && decide (1 ≤ c.2.2.1) && decide (c.2.2.1 ≤ 15) && decide (c.2.2.2 < 4)) &&
  ((List.range cc).all fun i => zeroAt b (ct + 12 * i + 10) 2) &&
  (if form = 0 then decide (no = 0)
   else
    let bc := le b no 4
    decide (no + nl ≤ len) && zeroAt b (no + 12) 4 && decide (8720 + 1024 * bc + 4 * v.decs.length + 12 * v.pairs.length ≤ nl) &&
    (v.index.all fun x => decide (x = 0xFFFF) || decide (x < bc)) &&
    (v.blocks.all fun r => decide (bits r 12 8 ≤ 18) && decide (bits r 31 14 + bits r 12 8 ≤ v.decs.length)) &&
    risingBy (fun x y => decide (x.1 < y.1) || (decide (x.1 = y.1) && decide (x.2.1 < y.2.1))) v.pairs)

/-! ## Normalisation (R298) -/

/-- The normalisation record of a code point. -/
def Vocab.normRec (v : Vocab) (c : Nat) : Nat :=
  let k := v.index.getD (c / 256) 0xFFFF
  if k = 0xFFFF then 0 else v.blocks.getD (256 * k + c % 256) 0

/-- Its canonical combining class. -/
def Vocab.ccc (v : Vocab) (c : Nat) : Nat := v.normRec c % 256

/-- One code point decomposed: Hangul syllables algorithmically, others by their record. -/
def Vocab.decompose (v : Vocab) (c : Nat) : List Nat :=
  if 0xAC00 ≤ c ∧ c < 0xAC00 + 11172 then
    let s := c - 0xAC00
    let l := 0x1100 + s / 588
    let w := 0x1161 + s % 588 / 28
    let t := 0x11A7 + s % 28
    if s % 28 = 0 then [l, w] else [l, w, t]
  else
    let r := v.normRec c
    let n := bits r 12 8
    if n = 0 ∨ (bit r 13 ∧ v.form ≠ 2) then [c] else (v.decs.drop (bits r 31 14)).take n

/-- Inserts a mark by its class, after the marks of the same or a lower class. -/
def insertMark (v : Vocab) (c : Nat) : List Nat → List Nat
  | [] => [c]
  | x :: l => if v.ccc c < v.ccc x ∧ v.ccc c ≠ 0 then c :: x :: l else x :: insertMark v c l

/-- Canonical ordering: each run of marks sorted by class, stably. -/
def orderMarks (v : Vocab) (cs : List Nat) : List Nat :=
  let step (a : List Nat × List Nat) (c : Nat) : List Nat × List Nat :=
    if v.ccc c = 0 then (a.1 ++ a.2 ++ [c], []) else (a.1, insertMark v c a.2)
  let a := cs.foldl step ([], [])
  a.1 ++ a.2

/-- The composite of two code points. -/
def Vocab.compose2 (v : Vocab) (a b : Nat) : Option Nat :=
  if 0x1100 ≤ a ∧ a < 0x1113 ∧ 0x1161 ≤ b ∧ b < 0x1176 then some (0xAC00 + ((a - 0x1100) * 21 + (b - 0x1161)) * 28)
  else if 0xAC00 ≤ a ∧ a < 0xAC00 + 11172 ∧ (a - 0xAC00) % 28 = 0 ∧ 0x11A8 ≤ b ∧ b < 0x11C3 then some (a + (b - 0x11A7))
  else (v.pairs.find? fun p => p.1 == a && p.2.1 == b).map (·.2.2)

/-- Composition: the output so far, the starter and the marks kept after it. -/
def composeStep (v : Vocab) (a : List Nat × Option Nat × List Nat) (c : Nat) : List Nat × Option Nat × List Nat :=
  match a with
  | (out, none, marks) => if v.ccc c = 0 then (out ++ marks, some c, []) else (out, none, marks ++ [c])
  | (out, some s, marks) =>
    let last := match marks.getLast? with
      | none => 0
      | some m => v.ccc m
    let blocked := decide (marks ≠ []) && (decide (v.ccc c ≤ last) || decide (v.ccc c = 0))
    match (if blocked then none else v.compose2 s c) with
    | some x => (out, some x, marks)
    | none => if v.ccc c = 0 then (out ++ s :: marks, some c, []) else (out, some s, marks ++ [c])

/-- A run of code points in the vocabulary's normal form. -/
def Vocab.normalise (v : Vocab) (cs : List Nat) : List Nat :=
  if v.form = 0 then cs
  else
    let a := (orderMarks v (cs.flatMap v.decompose)).foldl (composeStep v) ([], none, [])
    a.1 ++ a.2.1.toList ++ a.2.2

/-! ## UTF-8 -/

/-- The bytes of a code point. -/
def utf8 (c : Nat) : Bytes :=
  if c < 0x80 then [c]
  else if c < 0x800 then [0xC0 + c / 64, 0x80 + c % 64]
  else if c < 0x10000 then [0xE0 + c / 4096, 0x80 + c / 64 % 64, 0x80 + c % 64]
  else [0xF0 + c / 262144, 0x80 + c / 4096 % 64, 0x80 + c / 64 % 64, 0x80 + c % 64]

/-- The length that a first byte announces; 0 for a byte that starts no sequence. -/
def utf8Len (b : Nat) : Nat :=
  if b < 0x80 then 1 else if b < 0xC2 then 0 else if b < 0xE0 then 2 else if b < 0xF0 then 3 else if b < 0xF5 then 4 else 0

/-- The second byte of a sequence is in the range its first byte allows (no overlong form, no surrogate, at most 0x10FFFF). -/
def secondOk (b c : Nat) : Bool :=
  decide ((if b = 0xE0 then 0xA0 else if b = 0xF0 then 0x90 else 0x80) ≤ c) && decide (c ≤ (if b = 0xED then 0x9F else if b = 0xF4 then 0x8F else 0xBF))

/-- A continuation byte. -/
def isCont (b : Nat) : Bool := decide (0x80 ≤ b) && decide (b < 0xC0)

/-- The valid sequence at the head: code point and length. -/
def decodeUtf8 : Bytes → Option (Nat × Nat)
  | [] => none
  | b :: l =>
    match utf8Len b, l with
    | 1, _ => some (b, 1)
    | 2, c :: _ => if isCont c then some ((b - 0xC0) * 64 + (c - 0x80), 2) else none
    | 3, c :: d :: _ => if secondOk b c && isCont d then some ((b - 0xE0) * 4096 + (c - 0x80) * 64 + (d - 0x80), 3) else none
    | 4, c :: d :: e :: _ =>
      if secondOk b c && isCont d && isCont e then some ((b - 0xF0) * 262144 + (c - 0x80) * 4096 + (d - 0x80) * 64 + (e - 0x80), 4) else none
    | _, _ => none

/-- Whether bytes are a proper prefix of some valid sequence (R304). -/
def utf8Prefix : Bytes → Bool
  | [b] => decide (2 ≤ utf8Len b)
  | [b, c] => decide (3 ≤ utf8Len b) && secondOk b c
  | [b, c, d] => decide (4 ≤ utf8Len b) && secondOk b c && isCont d
  | _ => false

/-- How many trailing bytes are held back (R304): the longest proper prefix, at most 3. -/
def heldCount (b : Bytes) : Nat :=
  (([3, 2, 1].find? fun n => decide (n ≤ b.length) && utf8Prefix (b.drop (b.length - n)))).getD 0

/-- Whether a string of bytes is valid UTF-8. -/
def validUtf8 : Nat → Bytes → Bool
  | 0, b => b.isEmpty
  | fuel + 1, b =>
    if b.isEmpty then true
    else match decodeUtf8 b with
      | some (_, n) => validUtf8 fuel (b.drop n)
      | none => false

/-! ## Tokenising (R299, R300) -/

/-- A stretch of input: a maximal run of valid UTF-8, as code points and its byte count, or one invalid byte. -/
inductive Stretch where
  | run (cs : List Nat) (bytes : Nat)
  | bad (b : Nat)
  deriving DecidableEq, Repr

/-- A segment cut into stretches. -/
def stretches : Nat → Bytes → List Stretch
  | 0, _ => []
  | fuel + 1, b =>
    match b with
    | [] => []
    | x :: _ =>
      match decodeUtf8 b with
      | none => .bad x :: stretches fuel (b.drop 1)
      | some (c, n) =>
        match stretches fuel (b.drop n) with
        | .run cs k :: l => .run (c :: cs) (k + n) :: l
        | l => .run [c] n :: l

/-- The class and flags of a code point. -/
def Vocab.classOf (v : Vocab) (c : Nat) : Nat × Nat :=
  match v.classes.find? fun r => decide (r.1 ≤ c) && decide (c ≤ r.2.1) with
  | some r => r.2.2
  | none => (0, 0)

/-- Code points in pieces by class alone: runs of one class, a SINGLE code point by itself. -/
def classRuns (v : Vocab) : List Nat → List (List Nat)
  | [] => []
  | c :: l =>
    match classRuns v l with
    | [] => [[c]]
    | p :: ps =>
      match p with
      | [] => [c] :: ps
      | d :: _ => if (v.classOf c).1 = (v.classOf d).1 ∧ !bit (v.classOf c).2 1 ∧ !bit (v.classOf d).2 1 then (c :: p) :: ps else [c] :: p :: ps

/-- A LEAD code point that ends a piece moves to the start of the following piece, unless that begins with a LEAD or a SINGLE. -/
def moveLeads (v : Vocab) : Nat → List (List Nat) → List (List Nat)
  | 0, l => l
  | fuel + 1, p :: q :: l =>
    match p.getLast?, q with
    | some c, d :: _ =>
      if bit (v.classOf c).2 0 && !bit (v.classOf d).2 0 && !bit (v.classOf d).2 1 then
        let rest := moveLeads v fuel ((c :: q) :: l)
        if p.length = 1 then rest else p.dropLast :: rest
      else p :: moveLeads v fuel (q :: l)
    | _, _ => p :: moveLeads v fuel (q :: l)
  | _ + 1, l => l

/-- A piece of more than 1,024 bytes cut after the last whole code point within each 1,024. -/
def cutPiece (p : List Nat) : List (List Nat) :=
  let step (a : List (List Nat) × List Nat × Nat) (c : Nat) : List (List Nat) × List Nat × Nat :=
    let n := (utf8 c).length
    if 1024 < a.2.2 + n then (a.1 ++ [a.2.1], [c], n) else (a.1, a.2.1 ++ [c], a.2.2 + n)
  let a := p.foldl step ([], [], 0)
  if a.2.1.isEmpty then a.1 else a.1 ++ [a.2.1]

/-- The pieces of a run (R299). -/
def pieces (v : Vocab) (cs : List Nat) : List (List Nat) := (moveLeads v cs.length (classRuns v cs)).flatMap cutPiece

/-- The merge of an adjacent pair: rank and result. -/
def Vocab.mergeOf (v : Vocab) (a b : Nat) : Option (Nat × Nat) :=
  (v.merges.find? fun m => m.1 == a && m.2.1 == b).map fun m => (m.2.2.2, m.2.2.1)

/-- The lowest-ranked adjacent pair: rank, left, right, result. -/
def bestPair (v : Vocab) : List Nat → Option (Nat × Nat × Nat × Nat)
  | a :: b :: l =>
    match v.mergeOf a b, bestPair v (b :: l) with
    | none, r => r
    | some (k, x), none => some (k, a, b, x)
    | some (k, x), some r => if k ≤ r.1 then some (k, a, b, x) else some r
  | _ => none

/-- Every non-overlapping occurrence of a pair replaced, left to right. -/
def replacePair (a b x : Nat) : List Nat → List Nat
  | c :: d :: l => if c = a ∧ d = b then x :: replacePair a b x l else c :: replacePair a b x (d :: l)
  | l => l

/-- Rounds of merging (R299). -/
def mergeRounds (v : Vocab) : Nat → List Nat → List Nat
  | 0, ts => ts
  | fuel + 1, ts =>
    match bestPair v ts with
    | none => ts
    | some (_, a, b, x) => mergeRounds v fuel (replacePair a b x ts)

/-- The tokens of a piece's bytes. -/
def mergeBytes (v : Vocab) (bs : Bytes) : List Nat := mergeRounds v bs.length (bs.map fun b => v.base + b)

/-- The tokens of a run, each with the input bytes it consumes: its own bytes where normalisation leaves the run as it is, and otherwise the
run's bytes with its last token (log 20). -/
def runTokens (v : Vocab) (cs : List Nat) (bytes : Nat) : List (Nat × Nat) :=
  let ns := v.normalise cs
  let ts := (pieces v ns).flatMap fun p => mergeBytes v (p.flatMap utf8)
  if ns = cs then ts.map fun t => (t, (v.bytesOf t).length)
  else match ts.reverse with
    | [] => []
    | t :: r => r.reverse.map (fun x => (x, 0)) ++ [(t, bytes)]

/-- The tokens of a text segment. -/
def segTokens (v : Vocab) (b : Bytes) : List (Nat × Nat) :=
  (stretches b.length b).flatMap fun
    | .run cs n => runTokens v cs n
    | .bad x => [(v.base + x, 1)]

/-- The special entry that matches at the head: the longest, and of equal bytes the lowest identifier (R300). -/
def specialAt (v : Vocab) (b : Bytes) : Option (Nat × Nat) :=
  let best (a : Option (Nat × Nat)) (e : Nat × (Bytes × Nat)) : Option (Nat × Nat) :=
    if bit e.2.2 1 && e.2.1.isPrefixOf b && decide ((a.map (·.2)).getD 0 < e.2.1.length) then some (e.1, e.2.1.length) else a
  ((List.range v.entries.length).zip v.entries).foldl best none

/-- A part of an input (R299): a text segment, or a special match with its identifier and its bytes' count. -/
inductive Segment where
  | text (b : Bytes)
  | special (t n : Nat)
  deriving DecidableEq, Repr

/-- Input cut at special matches; the bytes gathered so far come first. -/
def splitSpecial (v : Vocab) : Nat → Bytes → Bytes → List Segment
  | 0, acc, _ => [.text acc]
  | fuel + 1, acc, b =>
    match b with
    | [] => [.text acc]
    | x :: l =>
      match specialAt v b with
      | some (t, n) => .text acc :: .special t n :: splitSpecial v fuel [] (b.drop n)
      | none => splitSpecial v fuel (acc ++ [x]) l

/-- The segments of an input: one text segment where special matching is off (R300). -/
def segments (v : Vocab) (special : Bool) (b : Bytes) : List Segment := if special then splitSpecial v b.length [] b else [.text b]

/-- R299: the tokens of an input, each with the input bytes it consumes. -/
def tokenise (v : Vocab) (special : Bool) (b : Bytes) : List (Nat × Nat) :=
  (segments v special b).flatMap fun
    | .text x => segTokens v x
    | .special t n => [(t, n)]

/-- Invalid UTF-8 bytes of an input's text segments (R299). -/
def badBytes (v : Vocab) (special : Bool) (b : Bytes) : Nat :=
  sumOf (fun
    | .text x => (stretches x.length x).countP fun
      | .bad _ => true
      | _ => false
    | .special _ _ => 0) (segments v special b)

/-- Special matches of an input (R300). -/
def specialCount (v : Vocab) (special : Bool) (b : Bytes) : Nat :=
  (segments v special b).countP fun
    | .special _ _ => true
    | .text _ => false

/-! ## The vocabulary cache (R302) -/

/-- The merge elements one round reads, left to right. -/
def roundKeys (v : Vocab) (slot : Nat) : List Nat → List VocKey
  | a :: b :: l => (if (v.mergeOf a b).isSome then [VocKey.merge slot a b] else []) ++ roundKeys v slot (b :: l)
  | _ => []

/-- The merge elements the rounds of a piece read (R299). -/
def mergeKeys (v : Vocab) (slot : Nat) : Nat → List Nat → List VocKey
  | 0, _ => []
  | fuel + 1, ts =>
    roundKeys v slot ts ++ match bestPair v ts with
      | none => []
      | some (_, a, b, x) => mergeKeys v slot fuel (replacePair a b x ts)

/-- The cache entries that tokenising an input reads, in order: the merge elements of every round of every piece, and each special match's bytes
(log 61). -/
def tokeniseKeys (v : Vocab) (slot : Nat) (special : Bool) (b : Bytes) : List VocKey :=
  (segments v special b).flatMap fun
    | .special t _ => [.token slot t]
    | .text x => (stretches x.length x).flatMap fun
      | .bad _ => []
      | .run cs _ => (pieces v (v.normalise cs)).flatMap fun p =>
        let bs := p.flatMap utf8
        mergeKeys v slot bs.length (bs.map fun y => v.base + y)

/-- A cache after one lookup, with its hits and misses: the entry comes first, and one more than 65,536 drops the one used longest ago. -/
def cacheLook (a : List VocKey × Nat × Nat) (k : VocKey) : List VocKey × Nat × Nat :=
  if a.1.contains k then (k :: a.1.erase k, a.2.1 + 1, a.2.2) else ((k :: a.1).take 65536, a.2.1, a.2.2 + 1)

/-- The bytes a token renders as (R304). -/
def Vocab.render (v : Vocab) (t : Nat) : Bytes :=
  if v.eos.contains t then []
  else let e := v.entries.getD t ([], 0); if bit e.2 0 && !bit e.2 2 then [] else e.1

/-! ## Stop sets (R305, R306) -/

/-- The stop set of a record; none when it fails its checks. -/
def parseStopSet (b : Bytes) : Option StopSet :=
  let n := le b 3 1
  let strs := (List.range n).map fun i => (b.drop (16 + 72 * i)).take (le b (8 + 72 * i) 1)
  let ok := decide (b.length = 8 + 72 * n) && decide (le b 1 1 ≤ 1) && decide (le b 2 1 ≤ 1) && decide (1 ≤ n) &&
    decide (n ≤ 16) && zeroAt b 4 4 &&
    ((List.range n).all fun i =>
      let l := le b (8 + 72 * i) 1
      decide (1 ≤ l) && decide (l ≤ 64) && zeroAt b (9 + 72 * i) 7 && zeroAt b (16 + 72 * i + l) (64 - l)) &&
    (strs.all fun s => validUtf8 s.length s) && decide strs.Nodup
  if ok then some { keep := le b 2 1 == 1, strs := strs } else none

/-- A stop set's record (R305). -/
def stopSetBytes (x : StopSet) : Bytes := [1, 1, b2n x.keep, x.strs.length, 0, 0, 0, 0] ++ x.strs.flatMap fun b => [b.length, 0, 0, 0, 0, 0, 0, 0] ++ fixLen 64 b

/-- The first byte position, counted from the start of `new`, at which a string of the set is complete over tail ++ new: bytes of `new` up to
and including it, and the string's index. -/
def stopMatch (ss : List Bytes) (tail new : Bytes) : Option (Nat × Nat) :=
  ((List.range new.length).filterMap fun i =>
    let upTo := tail ++ new.take (i + 1)
    (findIdx? (fun s => s.isSuffixOf upTo) ss).map fun k => (i + 1, k)).head?

/-! ## Grammars (R309-R312) -/

/-- The effect at an index of an image. -/
def parseEffect (b : Bytes) (o : Nat) : GEff :=
  { next := le b o 4
    pop := (List.range (le b (o + 4) 1)).map fun i => le b (o + 8 + 2 * i) 2
    push := (List.range (le b (o + 5) 1)).map fun i => le b (o + 24 + 2 * i) 2 }

/-- The grammar an image holds, with no check. -/
def parseGrammar (b : Bytes) : Grammar :=
  let msz := (le b 48 4 + 511) / 512 * 64
  let st := le b 80 8
  let ma := le b 88 8
  let et := le b 96 8
  let ct := le b 104 8
  let tt := le b 112 8
  let pairAt (o : Nat) : Nat × GEff := (le b o 4, parseEffect b (et + 40 * le b (o + 4) 4))
  { len := b.length
    digest := Config.shake256 b 32
    vocab := be b 16 32
    start := le b 56 4
    maxDepth := le b 62 1
    states := (List.range (le b 52 4)).map fun i =>
      let o := st + 24 * i
      { mask := if le b o 4 = 0xFFFFFFFF then 0 else le b (ma + msz * le b o 4) msz
        flags := le b (o + 10) 1
        trans := (List.range (le b (o + 16) 4)).map fun j => pairAt (tt + 8 * (le b (o + 12) 4 + j))
        cd := (List.range (le b (o + 8) 2)).map fun j => pairAt (ct + 8 * (le b (o + 4) 4 + j)) } }

/-- R310's checks but for the vocabulary; `entries` is the vocabulary's entry count. -/
def grammarOk (b : Bytes) (entries : Nat) : Bool :=
  let g := parseGrammar b
  let len := b.length
  let ns := le b 52 4
  let sym := le b 60 2
  let mc := le b 64 4
  let ec := le b 68 4
  let cdn := le b 72 4
  let tn := le b 76 4
  let msz := (le b 48 4 + 511) / 512 * 64
  let st := le b 80 8
  let effOk (e : GEff) : Bool := decide (e.next < ns) && decide (e.pop.length ≤ 8) && decide (e.push.length ≤ 8) &&
    ((e.pop ++ e.push).all fun x => decide (1 ≤ x) && decide (x ≤ sym))
  let maskToks (m : Nat) : List Nat := (List.range entries).filter fun t => bit m t
  decide (192 ≤ len) && decide (len ≤ 536870912) && decide (le b 1 1 ≤ 1) && zeroAt b 2 2 && decide (le b 4 4 = 192) &&
  decide (le b 8 8 = len) && decide (le b 48 4 = entries) && decide (1 ≤ ns) && decide (ns ≤ 16777214) && decide (g.start < ns) &&
  decide (1 ≤ sym) && decide (1 ≤ g.maxDepth) && zeroAt b 63 1 && zeroAt b 120 8 && zeroAt b 160 32 &&
  decide (st + 24 * ns ≤ len) && decide (le b 88 8 + msz * mc ≤ len) && decide (le b 96 8 + 40 * ec ≤ len) &&
  decide (le b 104 8 + 8 * cdn ≤ len) && decide (le b 112 8 + 8 * tn ≤ len) &&
  decide (Config.shake256 (b.drop 192) 32 = be b 128 32) &&
  ((List.range ec).all fun i => let o := le b 96 8 + 40 * i; decide (le b (o + 4) 1 ≤ 8) && decide (le b (o + 5) 1 ≤ 8) && zeroAt b (o + 6) 2) &&
  ((List.range cdn).all fun i => decide (le b (le b 104 8 + 8 * i + 4) 4 < ec)) &&
  ((List.range tn).all fun i => decide (le b (le b 112 8 + 8 * i + 4) 4 < ec)) &&
  ((List.range ns).all fun i =>
    let o := st + 24 * i
    (decide (le b o 4 = 0xFFFFFFFF) || decide (le b o 4 < mc)) && decide (le b (o + 4) 4 + le b (o + 8) 2 ≤ cdn) && decide (le b (o + 8) 2 ≤ 4096) &&
    decide (le b (o + 10) 1 < 4) && zeroAt b (o + 11) 1 && decide (le b (o + 12) 4 + le b (o + 16) 4 ≤ tn) && zeroAt b (o + 20) 4) &&
  (g.states.all fun s =>
    decide (s.mask < 2 ^ entries) && decide (s.trans.map (·.1) = maskToks s.mask) && risingBy (fun x y => decide (x.1 < y.1)) s.cd &&
    (s.trans.all fun e => effOk e.2 && e.2.pop.isEmpty && e.2.push.isEmpty) &&
    (s.cd.all fun e => effOk e.2 && decide (e.1 < entries) && !bit s.mask e.1))

/-- grammar_state's none (R311). -/
def gNone : Nat := 0xFFFFFFFF

/-- grammar_state's automaton state. -/
def gState (w : Nat) : Nat := bits w 23 0

/-- The state element of an automaton state. -/
def Grammar.at (g : Grammar) (w : Nat) : GState := g.states.getD (gState w) ⟨0, 0, [], []⟩

/-- A context-dependent effect fits a stack, given bottom first (R312). -/
def GEff.fits (e : GEff) (maxDepth : Nat) (stack : List Nat) : Bool :=
  decide (e.pop.length ≤ stack.length) && decide (stack.reverse.take e.pop.length = e.pop) &&
  decide (stack.length - e.pop.length + e.push.length ≤ maxDepth)

/-- R312: token t is permitted in a state with a stack. -/
def Grammar.permits (g : Grammar) (eos : List Nat) (w : Nat) (stack : List Nat) (t : Nat) : Bool :=
  let s := g.at w
  bit s.mask t || (s.cd.any fun e => decide (e.1 = t) && e.2.fits g.maxDepth stack) || (bit s.flags 0 && eos.contains t)

/-- Whether any token is permitted (R315). -/
def Grammar.alive (g : Grammar) (eos : List Nat) (w : Nat) (stack : List Nat) : Bool :=
  let s := g.at w
  decide (s.mask ≠ 0) || (s.cd.any fun e => e.2.fits g.maxDepth stack) || (bit s.flags 0 && decide (eos ≠ []))

/-- R311: the state word and the stack after a permitted token; an eos identifier under ACCEPT_END ends the document. -/
def Grammar.advance (g : Grammar) (eos : List Nat) (w : Nat) (stack : List Nat) (t : Nat) : Nat × List Nat :=
  let s := g.at w
  if bit s.flags 0 && eos.contains t then (gNone, [])
  else
  match s.trans.find? fun e => e.1 == t with
  | some e => (e.2.next + 2 ^ 24 * stack.length, stack)
  | none =>
    match s.cd.find? fun e => e.1 == t && e.2.fits g.maxDepth stack with
    | some e =>
      let st := stack.take (stack.length - e.2.pop.length) ++ e.2.push
      (e.2.next + 2 ^ 24 * st.length, st)
    | none => (gNone, [])

/-- The state has ACCEPT_TOOL set (R316). -/
def Grammar.accepts (g : Grammar) (w : Nat) : Bool := decide (w ≠ gNone) && bit (g.at w).flags 1

/-- Hub-control-clock cycles of a mask (R313's table): the mask streamed at 64 bytes a cycle, 2 cycles a context-dependent token, and 384. -/
def maskCycles (g : Grammar) (entries w : Nat) : Nat :=
  (if (g.at w).mask = 0 then 0 else (entries + 511) / 512) + 2 * (g.at w).cd.length + 384

end Sys2Proof.Machine
end

