-- ==== Sys2Proof/Machine/Select.lean ====
section
/-! DEFINITION. Selection and ordering (spec/11) and the sampling and verification of tokens (spec/09, R278-R282) as functions. -/

namespace Sys2Proof.Machine

open Sys2Proof

/-! ## Order (R320-R322) -/

/-- A key's rank as a number: native ordering for FP32, with −0 and +0 equal under KA140 ordering; signed and unsigned for types 4 and
5.  Every NaN is equal and above +∞. -/
def keyRank (ty : Nat) (ka140 : Bool) (v : Nat) : Nat :=
  if ty = 5 then v
  else if ty = 4 then (v + 2 ^ 31) % 2 ^ 32
  else if fisNan v then 2 ^ 33
  else
    let v := if ka140 ∧ v = 2 ^ 31 then 0 else v
    if 2 ^ 31 ≤ v then 2 ^ 32 - 1 - v else v + 2 ^ 31

/-- An element of a row: its index, its key (FP32 bits for floating-point types), and whether its mask bit is set. -/
structure Elem where
  idx : Nat
  key : Nat
  mask : Bool := true
  deriving DecidableEq, Repr

/-- Inserts into a sorted list, after elements that do not come later. -/
def insBy {α : Type} (before : α → α → Bool) (x : α) : List α → List α
  | [] => [x]
  | y :: l => if before x y then x :: y :: l else y :: insBy before x l

/-- Sorts, stably. -/
def sortBy {α : Type} (before : α → α → Bool) (l : List α) : List α := l.foldl (fun a x => insBy before x a) []

/-- What a selection asks for (R337's record): operation (0 TOPK, 1 TOPP, 2 THRESH, 3 SORT), the flags, key type, k and the parameter. -/
structure SelReq where
  op : Nat
  asc : Bool := false
  ka140 : Bool := false
  ties : Bool := false
  noNan : Bool := false
  noNegInf : Bool := false
  softmax : Bool := false
  ty : Nat := 1
  k : Nat := 0
  param : Nat := 0
  deriving DecidableEq, Repr

/-- A row's result (R332). -/
structure SelOut where
  fewer : Bool := false
  overflow : Bool := false
  cut : Bool := false
  out : List (Nat × Nat) := []
  /-- Elements written, fill elements included. -/
  count : Nat := 0
  valid : Nat := 0
  tiedTotal : Nat := 0
  tiedSel : Nat := 0
  dup : Nat := 0
  selSum : Nat := 0
  leftSum : Nat := 0
  invalid : Nat := 0
  deriving DecidableEq, Repr

/-- Whether an element is valid (R326). -/
def SelReq.valid (r : SelReq) (e : Elem) : Bool :=
  e.mask && !(decide (r.op = 1) && !r.softmax && decide (r.ty = 4) && decide (2 ^ 31 ≤ e.key)) &&
  (decide (4 ≤ r.ty) ||
    (!(r.noNan && fisNan e.key) && !(r.noNegInf && e.key == fNegInf) &&
      !(decide (r.op = 1) && !r.softmax && (fisNan e.key || decide (e.key = fPosInf) || (f32 e.key).lt (Num.nat 0)))))

/-- The order of a request: by key in its direction, then by ascending index (R322). -/
def SelReq.before (r : SelReq) (a b : Elem) : Bool :=
  let x := keyRank r.ty r.ka140 a.key
  let y := keyRank r.ty r.ka140 b.key
  if x = y then decide (a.idx < b.idx) else if r.asc then decide (x < y) else decide (y < x)

/-- binary64. -/
def fp64 : Fmt := ⟨11, 52, 1023, true, 1, 0x7FEFFFFFFFFFFFFF⟩

/-- A sum of keys (R332): binary64 for floating-point keys, wrapping 64-bit two's complement or unsigned for integers; with whether it
wrapped. -/
def sumKeys (ty : Nat) (ks : List Nat) : Nat × Bool :=
  if ty = 4 then
    let t : Int := ks.foldl (fun a v => a + toSigned 32 v) 0
    (ofSigned 64 t, decide (t < -(2 ^ 63 : Int)) || decide ((2 ^ 63 : Int) ≤ t))
  else if ty = 5 then let t := sumOf id ks; (t % 2 ^ 64, decide (2 ^ 64 ≤ t))
  else (ks.foldl (fun a v => (fp64.write false ((fp64.read a).add (f32 v))).1) 0, false)

/-- A key as an FP32 weight (R329). -/
def asWeight (ty v : Nat) : Nat :=
  if ty = 4 then (let i := toSigned 32 v; toF32 (.fin (decide (i < 0)) i.natAbs 1)) else if ty = 5 then toF32 (Num.nat v) else v

/-- SOFTMAX weights over keys in order (R329), in FP32: +∞ keys share the mass equally. -/
def softmaxW (ks : List Nat) : List Nat :=
  let inf := ks.countP (· == fPosInf)
  if 0 < inf then ks.map fun z => if z = fPosInf then toF32 ((Num.nat 1).div (Num.nat inf)) else 0
  else
    let m := ks.foldl (fun a z => if flt a z then z else a) fNegInf
    let es := ks.map fun z => Config.expF32 (fsub z m)
    let t := fsum es
    es.map fun e => fdiv e t

/-- The shortest leading run whose running FP32 sum reaches top_p × T (R329). -/
def toppCut (topP : Nat) (ws : List Nat) : Nat :=
  let t := fsum ws
  if (f32 t).isZero then 0
  else
    let goal := fmul topP t
    let step (a : Nat × Nat × Bool) (w : Nat) : Nat × Nat × Bool :=
      if a.2.2 then a else let x := fadd a.2.1 w; (a.1 + 1, x, !flt x goal)
    (ws.foldl step (0, 0, false)).1

/-- R327-R332: a row's result over its elements.  `dups` is what the merge dropped before. -/
def select (r : SelReq) (es : List Elem) (dups : Nat := 0) : SelOut :=
  let ok := es.filter r.valid
  let bad := es.length - ok.length
  let ordered := sortBy r.before ok
  let base : SelOut := { valid := ok.length, invalid := bad, dup := dups }
  let close (o : SelOut) (sel left : List Nat) : SelOut :=
    let a := sumKeys r.ty sel
    let b := sumKeys r.ty left
    { o with selSum := a.1, leftSum := b.1, overflow := a.2 || b.2 }
  if r.op = 0 then
    let top := ordered.take r.k
    match top.getLast? with
    | none => close { base with fewer := decide (0 < r.k), out := List.replicate r.k (0xFFFFFFFF, fNegInf), count := r.k } [] []
    | some last =>
      let tied (e : Elem) : Bool := keyRank r.ty r.ka140 e.key == keyRank r.ty r.ka140 last.key
      let total := ordered.countP tied
      let more := if r.ties then ((ordered.drop r.k).filter tied).take 255 else []
      let out := top ++ more
      let fill := if ok.length < r.k then r.k - ok.length else 0
      let o : SelOut := { base with fewer := decide (0 < fill), cut := r.ties && decide (out.countP tied < total), out := out.map (fun e => (e.idx, e.key)) ++ List.replicate fill (0xFFFFFFFF, fNegInf), count := out.length + fill, tiedTotal := total, tiedSel := out.countP tied }
      close o (out.map (·.key)) ((ordered.filter fun e => !out.contains e).map (·.key))
  else if r.op = 1 then
    let ks := ordered.map (·.key)
    let vs := ks.map (asWeight r.ty)
    let ws := if r.softmax then softmaxW vs else vs
    let n := toppCut r.param ws
    let o : SelOut := { base with fewer := decide (n = 0), out := ((ordered.map (·.idx)).zip ws).take n, count := n }
    if r.softmax then
      { o with selSum := (sumKeys 1 (ws.take n)).1, leftSum := (sumKeys 1 (ws.drop n)).1 }
    else close o (ks.take n) (ks.drop n)
  else if r.op = 2 then
    let t := keyRank r.ty r.ka140 r.param
    let pass (e : Elem) : Bool := if r.asc then decide (keyRank r.ty r.ka140 e.key < t) else decide (t < keyRank r.ty r.ka140 e.key)
    let out := ok.filter pass
    close { base with out := out.map fun e => (e.idx, e.key), count := out.length } (out.map (·.key)) ((ok.filter fun e => !pass e).map (·.key))
  else close { base with out := ordered.map fun e => (e.idx, e.key), count := ordered.length } (ordered.map (·.key)) []

/-- What a run returns (R333, R336): its first k valid elements with the ties that R327 allows, or for a SORT all of them, in order, and its
figures. -/
def partialOf (r : SelReq) (es : List Elem) : PartRes :=
  let o := select r es
  let n := if r.op = 0 then Nat.min o.valid o.count else o.count
  let kth := if r.op = 0 ∧ r.k ≤ o.valid then (o.out[r.k - 1]?).map (·.2) else none
  { ok := true, elems := o.out.take n, tied := o.tiedTotal, kth := kth, valid := o.valid, invalid := o.invalid, left := o.leftSum }

/-- The union of the runs' lists (R335): an index that an earlier source listed is dropped; with how many were. -/
def unionRuns (ps : List PartRes) : List Elem × Nat :=
  let step (a : List Elem × Nat) (p : PartRes) : List Elem × Nat :=
    let fresh := p.elems.filter fun e => a.1.all fun x => x.idx != e.1
    (a.1 ++ fresh.map (fun e => { idx := e.1, key := e.2 }), a.2 + (p.elems.length - fresh.length))
  ps.foldl step ([], 0)

/-- The sum of 64-bit sums (R332). -/
def addSums (ty : Nat) (vs : List Nat) : Nat × Bool :=
  if ty = 4 then
    let t : Int := vs.foldl (fun a v => a + toSigned 64 v) 0
    (ofSigned 64 t, decide (t < -(2 ^ 63 : Int)) || decide ((2 ^ 63 : Int) ≤ t))
  else if ty = 5 then let t := sumOf id vs; (t % 2 ^ 64, decide (2 ^ 64 ≤ t))
  else (vs.foldl (fun a v => (fp64.write false ((fp64.read a).add (fp64.read v))).1) 0, false)

/-- A row over runs (R334-R336). -/
def mergeRuns (r : SelReq) (ps : List PartRes) : SelOut :=
  let (all, dup) := unionRuns ps
  let ordered := sortBy r.before all
  let rank (v : Nat) : Nat := keyRank r.ty r.ka140 v
  let valid := sumOf (·.valid) ps - dup
  let out := if r.op = 0 then ordered.take r.k else ordered
  let last := if r.op = 0 ∧ r.k ≤ ordered.length then out.getLast? else none
  let tied (e : Elem) : Bool := match (if r.op = 0 then out.getLast? else none) with
    | some l => rank e.key == rank l.key
    | none => false
  let more := if r.ties ∧ last.isSome then ((ordered.drop r.k).filter tied).take 255 else []
  let own (p : PartRes) : Bool := match p.kth, out.getLast? with
    | some v, some l => rank v == rank l.key
    | _, _ => false
  let total := if r.op = 0 then sumOf (fun p => if own p then p.tied else 0) ps + (unionRuns (ps.filter fun p => !own p)).1.countP tied else 0
  let res := out ++ more
  let fill := if r.op = 0 then r.k - out.length else 0
  let sel := sumKeys r.ty (res.map (·.key))
  let rest := sumKeys r.ty ((ordered.filter fun e => !res.contains e).map (·.key))
  let left := addSums r.ty (ps.map (·.left) ++ [rest.1])
  let ts := if r.op = 0 then res.countP tied else 0
  { fewer := decide (0 < fill), overflow := sel.2 || rest.2 || left.2, cut := r.ties && decide (ts < total), out := res.map (fun e => (e.idx, e.key)) ++ List.replicate fill (0xFFFFFFFF, fNegInf), count := res.length + fill, valid := valid, tiedTotal := total, tiedSel := ts, dup := dup, selSum := sel.1, leftSum := left.1, invalid := sumOf (·.invalid) ps }

/-- The row result header's 64 bytes and the output elements (R332). -/
def SelOut.bytes (o : SelOut) (row : Nat) : Bytes :=
  [1, 1, if o.fewer then 0x0E else 0, b2n o.overflow + 2 * b2n o.cut] ++ leBytes 4 o.count ++ leBytes 8 o.valid ++ leBytes 8 o.tiedTotal ++
  leBytes 4 o.tiedSel ++ leBytes 4 o.dup ++ leBytes 8 o.selSum ++ leBytes 8 o.leftSum ++ leBytes 8 o.invalid ++ leBytes 4 row ++ leBytes 4 0 ++
  o.out.flatMap fun e => leBytes 4 e.1 ++ leBytes 4 e.2

/-- ceil(a / b). -/
def ceilDiv (a b : Nat) : Nat := (a + b - 1) / Nat.max 1 b

/-- S(x) of R324. -/
def sortCycles (x : Nat) : Nat :=
  let y := ceilDiv x 4096
  let p := if x ≤ 4096 then 0 else ((List.range 9).find? fun p => decide (y ≤ 16 ^ p)).getD 8
  (12 + p) * ceilDiv x 16

/-- R324: the most cycles a lane takes for a row of n elements that outputs m. -/
def laneCycles (r : SelReq) (n m : Nat) : Nat :=
  if r.op = 0 then ceilDiv n 64 + 4 * ceilDiv r.k 16 + 64
  else if r.op = 2 then ceilDiv n 64 + ceilDiv m 16 + 64
  else if r.op = 1 then (if r.softmax then 3 else 2) * ceilDiv n 64 + sortCycles m + 64
  else ceilDiv n 64 + sortCycles n + 64

/-! ## Sampling (R281, R282, R341) -/

/-- The profile of a session without one (R280). -/
def greedy : Profile := { sample := false, seeded := false, temp := 0x3F800000, topP := 0x3F800000, minP := 0, topK := 0, window := 0, rep := 0x3F800000, seed := 0 }

/-- The profile of a record (R280); none when it fails its checks. -/
def parseProfile (b : Bytes) : Option Profile :=
  let t := le b 4 4
  let tp := le b 8 4
  let mp := le b 12 4
  let rp := le b 20 4
  let between (lo hi v : Nat) : Bool := !fisNan v && !flt v lo && !flt hi v
  let ok := decide (b.length = 64) && decide (le b 1 1 ≤ 1) && decide (le b 2 1 ≤ 1) && decide (le b 3 1 ≤ 1) &&
    (decide (le b 2 1 = 0) || between 0x3C23D70A 0x42C80000 t) && flt 0 tp && between 0 0x3F800000 tp &&
    between 0 0x3F800000 mp && flt mp 0x3F800000 && decide (le b 16 2 ≤ 4096) && decide (le b 18 2 ≤ 4096) && between 0x3F800000 0x41200000 rp &&
    zeroAt b 32 32
  if ok then some { sample := le b 2 1 == 1, seeded := le b 3 1 == 1, temp := t, topP := tp, minP := mp, topK := le b 16 2, window := le b 18 2, rep := rp, seed := le b 24 8 }
  else none

/-- A sampling profile's record (R280). -/
def profileBytes (p : Profile) : Bytes :=
  [1, 1, b2n p.sample, b2n p.seeded] ++ leBytes 4 p.temp ++ leBytes 4 p.topP ++ leBytes 4 p.minP ++ leBytes 2 p.topK ++ leBytes 2 p.window ++ leBytes 4 p.rep ++ leBytes 8 p.seed ++
  List.replicate 32 0

/-- A distribution: tokens with their FP32 probabilities in the selection unit's order. -/
abbrev Dist := List (Nat × Nat)

/-- Stages 1-3 of R281: elements with NaN as −∞, forbidden tokens masked, and the tokens of the window penalised. -/
def logitRow (p : Profile) (permit : Nat → Bool) (recent : List Nat) (z : List Nat) : List Elem :=
  let pen := recent.drop (recent.length - p.window)
  ((List.range z.length).zip z).map fun e =>
    let v := if fisNan e.2 then fNegInf else e.2
    let v := if p.rep ≠ 0x3F800000 ∧ pen.contains e.1 then (if flt 0 v then fdiv v p.rep else fmul v p.rep) else v
    { idx := e.1, key := v, mask := permit e.1 }

/-- NaN logits of a row (R281, stage 1). -/
def nanCount (z : List Nat) : Nat := z.countP fisNan

/-- The distribution that R281's stages give, and whether the last resort applied. -/
def distOf (p : Profile) (permit : Nat → Bool) (recent : List Nat) (z : List Nat) : Dist × Bool :=
  let row := logitRow p permit recent z
  let live := row.filter fun e => e.mask && e.key != fNegInf
  let one := 0x3F800000
  let inf := live.filter fun e => e.key == fPosInf
  if live = [] then
    match row.find? (·.mask) with
    | some e => ([(e.idx, one)], true)
    | none => ([], false)
  else if !p.sample then
    match sortBy (SelReq.before { op := 0 }) live with
    | e :: _ => ([(e.idx, one)], false)
    | [] => ([], false)
  else if inf ≠ [] then (inf.map fun e => (e.idx, toF32 ((Num.nat 1).div (Num.nat inf.length))), false)
  else
    let scaled := live.map fun e => { e with key := fdiv e.key p.temp }
    let ordered := sortBy (SelReq.before { op := 0 }) scaled
    let ordered := if p.topK = 0 then ordered else ordered.take p.topK
    let ws := softmaxW (ordered.map (·.key))
    let n := toppCut p.topP ws
    let kept := ((ordered.map (·.idx)).zip ws).take n
    let big := (kept.map (·.2)).foldl fmax 0
    let kept := kept.filter fun e => !flt e.2 (fmul p.minP big)
    let t := fsum (kept.map (·.2))
    (kept.map fun e => (e.1, fdiv e.2 t), false)

/-- R282: the first token at which the running sum exceeds u; where rounding leaves the sum at or below u, the last (log 22). -/
def drawFrom (d : Dist) (u : Num) : Nat :=
  let step (a : Option Nat × Nat) (e : Nat × Nat) : Option Nat × Nat :=
    match a.1 with
    | some t => (some t, a.2)
    | none => let x := fadd a.2 e.2; (if u.lt (f32 x) then some e.1 else none, x)
  match (d.foldl step (none, 0)).1 with
  | some t => t
  | none => (d.getLast?.map (·.1)).getD 0

/-- A token's probability in a distribution. -/
def Dist.prob (d : Dist) (t : Nat) : Nat := ((List.find? (fun e => e.1 == t) d).map (·.2)).getD 0

/-- Where the draws of a row come from (R282): the seed and handle, or the generator's next free value. -/
structure DrawEnv where
  prof : Profile
  handle : Nat
  next : Nat
  deriving DecidableEq, Repr

/-- The draw at a position with its draw byte (R282), and the environment after it. -/
def DrawEnv.u (e : DrawEnv) (pos byte : Nat) : Num × DrawEnv :=
  if e.prof.seeded then
    let v := Config.shake256 (beBytes 8 e.prof.seed ++ beBytes 8 e.handle ++ beBytes 8 pos ++ [byte]) 8
    (.fin false (v / 2 ^ 11) (2 ^ 53), e)
  else (.fin false (Config.draw e.next % 2 ^ 53) (2 ^ 53), { e with next := e.next + 1 })

/-- Sampling a distribution: one with a single token takes no draw. -/
def DrawEnv.sample (e : DrawEnv) (d : Dist) (pos byte : Nat) : Nat × DrawEnv :=
  match d with
  | [] => (0, e)
  | [x] => (x.1, e)
  | _ => let r := e.u pos byte; (drawFrom d r.1, r.2)

/-! ## Proposals and verification (R274-R279) -/

/-- The grammar position of a row: the automaton (none without a grammar), the end-of-sequence identifiers, state and stack. -/
structure GPos where
  g : Option Grammar
  eos : List Nat
  w : Nat
  stack : List Nat
  deriving DecidableEq, Repr

/-- Whether a token is permitted at a position. -/
def GPos.permit (p : GPos) (t : Nat) : Bool :=
  match p.g with
  | none => true
  | some g => g.permits p.eos p.w p.stack t

/-- Whether any token is permitted (R315). -/
def GPos.alive (p : GPos) : Bool :=
  match p.g with
  | none => true
  | some g => g.alive p.eos p.w p.stack

/-- The position after a token. -/
def GPos.after (p : GPos) (t : Nat) : GPos :=
  match p.g with
  | none => p
  | some g => let r := g.advance p.eos p.w p.stack t; { p with w := r.1, stack := r.2 }

/-- A token after which the draft and verification stop: end of sequence, or one that completes an accepting tool-call state (R277, R278). -/
def GPos.ends (p : GPos) (t : Nat) : Bool :=
  p.eos.contains t ||
  match p.g with
  | none => false
  | some g => g.accepts (p.after t).w

/-- The draft's proposals (R274, R277): one per draft pass until it must stop, each with its distribution q. -/
def propose (e : DrawEnv) (p : GPos) (recent : List Nat) (pos : Nat) : List (List Nat) → List (Nat × Dist) × DrawEnv
  | [] => ([], e)
  | z :: zs =>
    if !p.alive then ([], e)
    else
      let q := (distOf e.prof p.permit recent z).1
      let (x, e) := e.sample q pos 2
      if p.ends x then ([(x, q)], e)
      else
        let r := propose e (p.after x) (recent ++ [x]) (pos + 1) zs
        ((x, q) :: r.1, r.2)

/-- Draft passes at which no permitted token had a finite logit (R281), along the proposals made. -/
def draftLastResorts (prof : Profile) (p : GPos) (recent : List Nat) : List (Nat × Dist) → List (List Nat) → Nat
  | (x, _) :: xs, z :: zs => b2n (distOf prof p.permit recent z).2 + draftLastResorts prof (p.after x) (recent ++ [x]) xs zs
  | _, _ => 0

/-- Continuations of one sampling row with top_k 0 (R341): for each slice of the output head, the segments of `depth` elements whose end the run that reaches
top_p × T passes (log 175). -/
def continuations (prof : Profile) (live : List Elem) (vocab slices depth : Nat) : Nat :=
  let scaled := live.map fun e => { e with key := fdiv e.key prof.temp }
  let ordered := sortBy (SelReq.before { op := 0 }) scaled
  let run := ordered.take (toppCut prof.topP (softmaxW (ordered.map (·.key))))
  let sliceOf (e : Elem) : Nat := e.idx * slices / Nat.max 1 vocab
  sumOf (fun i =>
    let used := run.countP fun e => sliceOf e == i
    let last := b2n (decide (run.getLast?.map sliceOf = some i))
    Nat.min ((used - last) / Nat.max 1 depth) (((live.countP fun e => sliceOf e == i) - 1) / Nat.max 1 depth)) (List.range slices)

/-- The sampling rows of a row's positions (R341), one for each pass's logits while tokens are permitted: how many, how many had fewer results than they asked
for (R328), and the continuations. -/
def sampleRows (prof : Profile) (slices depth : Nat) (p : GPos) (recent : List Nat) : List Nat → List (List Nat) → Nat × Nat × Nat
  | ts, z :: zs =>
    if !p.alive then (0, 0, 0)
    else
      let live := (logitRow prof p.permit recent z).filter fun e => e.mask && e.key != fNegInf
      let k := if prof.sample then prof.topK else 1
      let fewer := b2n (decide (live.length < k))
      let cont := if prof.sample && decide (prof.topK = 0) && !(live.any fun e => e.key == fPosInf) then continuations prof live z.length slices depth else 0
      let r := match ts with
        | [] => (0, 0, 0)
        | t :: ts => sampleRows prof slices depth (p.after t) (recent ++ [t]) ts zs
      (r.1 + 1, r.2.1 + fewer, r.2.2 + cont)
  | _, [] => (0, 0, 0)

/-- What verification fixes: the emitted tokens, how many are accepted proposals, whether the last is a correction (1) or a bonus (2), a dead end
met at a later position, and non-finite rows replaced. -/
structure Verdict where
  emitted : List Nat := []
  accepted : Nat := 0
  last : Nat := 0
  dead : Bool := false
  nonfin : Nat := 0
  deriving DecidableEq, Repr

/-- R278 over the proposals that remain; `zs` are the target's logits from this position on. -/
def verify (e : DrawEnv) (p : GPos) (recent : List Nat) (pos : Nat) : List (Nat × Dist) → List (List Nat) → Verdict × DrawEnv
  | [], zs =>
    match zs with
    | [] => ({}, e)
    | z :: _ =>
      if !p.alive then ({ dead := true }, e)
      else
        let (d, lastResort) := distOf e.prof p.permit recent z
        let (t, e) := e.sample d pos 0
        ({ emitted := [t], last := 2, nonfin := nanCount z + b2n lastResort }, e)
  | (x, q) :: xs, zs =>
    match zs with
    | [] => ({}, e)
    | z :: zs =>
      if !p.alive then ({ dead := true }, e)
      else
        let (d, lastResort) := distOf e.prof p.permit recent z
        let nf := nanCount z + b2n lastResort
        let ratio := (f32 (Dist.prob d x)).div (f32 (Dist.prob q x))
        let one := decide (d.length = 1 ∧ q.length = 1)
        let r := if one then (Num.nat 0, e) else e.u pos 0
        let accept := if one then decide (0 < Dist.prob d x) else (r.1.lt ratio)
        if accept then
          if p.ends x then ({ emitted := [x], accepted := 1, nonfin := nf }, r.2)
          else
            let v := verify r.2 (p.after x) (recent ++ [x]) (pos + 1) xs zs
            ({ v.1 with emitted := x :: v.1.emitted, accepted := v.1.accepted + 1, nonfin := v.1.nonfin + nf }, v.2)
        else
          let names := (d.map (·.1)) ++ ((q.map (·.1)).filter fun t => !(d.map (·.1)).contains t)
          let res := (names.map fun t => (t, fsub (Dist.prob d t) (Dist.prob q t))).filter fun y => flt 0 y.2
          let total := fsum (res.map (·.2))
          let res := if res = [] then d else res.map fun y => (y.1, fdiv y.2 total)
          let res : Dist := (sortBy (SelReq.before { op := 0 }) (res.map fun y => { idx := y.1, key := y.2 })).map fun y => (y.idx, y.key)
          let (t, e) := r.2.sample res pos 1
          ({ emitted := [t], last := 1, nonfin := nf }, e)

end Sys2Proof.Machine
end

