-- ==== Sys2Proof/Machine/Frames.lean ====
section
/-! DEFINITION. Pages and memory tiers (spec/06): frames and pools, location words, placement, moves, poisoning and eviction. -/

namespace Sys2Proof.Machine

open Sys2Proof

/-- Bytes of a frame (R167). -/
def frameBytes : Nat := 73728

/-! ## Channels and pools (R130-R136, R175-R181) -/

/-- Channel c's frames are the sealing domain's pool (R133, R135, R180). -/
def State.sealed (s : State) (c : Nat) : Bool := decide ((s.fn (.seal c)).st = .on) || decide ((s.fn (.seal c)).st = .stopping)

/-- Channel c admits a domain's work (R133, R135, R136): that of the sealing domain while its seal is ON, that of the others while it is OFF. -/
def State.chanAdmits (s : State) (c d : Nat) : Bool :=
  if s.reg Dict.dsecClass 0 d = 2 then s.isOn (.seal c) && decide (s.reg Dict.sealDomain c = d) else s.isOff (.seal c)

/-- The channels a domain may use: those sealed to it for a SEALED domain, otherwise every unsealed channel that is ON (R229). -/
def State.domChans (s : State) (d : Nat) : List Nat := (List.range 4).filter fun c => s.chOn c && s.chanAdmits c d

/-- Frames of a channel's tier (R175, R177): 0 near, 1 deep. -/
def State.frameTotal (s : State) (c tier : Nat) : Nat :=
  if tier = 0 then (137438953472 - 301989888 - s.reg Dict.tierNearReserve 0 c * 1048576) / frameBytes
  else sumOf (fun i => s.pw.spd.getD (4 * c + i) 0 * 2 ^ 30 / frameBytes) (List.range 4)

/-- A frame's key. -/
def frameKey (c tier n : Nat) : Nat := (2 * c + tier) * 2 ^ 24 + n

/-- A frame's record. -/
def State.frame (s : State) (c tier n : Nat) : Frame := Tbl.get {} s.tm.frames (frameKey c tier n)

/-- Replaces a frame's record. -/
def State.setFrame (s : State) (c tier n : Nat) (x : Frame) : State :=
  { s with tm := { s.tm with frames := Tbl.put {} s.tm.frames (frameKey c tier n) x } }

/-- The records of a channel's tier. -/
def State.framesOf (s : State) (c tier : Nat) : List Frame :=
  (s.tm.frames.filter fun e => decide (e.1 / 2 ^ 24 = 2 * c + tier)).map (·.2)

/-- Retired frames leave the pool (R195). -/
def State.poolTotal (s : State) (c tier : Nat) : Nat := s.frameTotal c tier - (s.framesOf c tier).countP fun f => f.st == 4

/-- Free frames of a channel's tier. -/
def State.freeFrames (s : State) (c tier : Nat) : Nat :=
  if s.chOn c then s.frameTotal c tier - (s.framesOf c tier).countP (fun f => f.st != 0) else 0

/-- Frames a domain owns in a tier, on the device (R181). -/
def State.owned (s : State) (d tier : Nat) : Nat :=
  sumOf (fun c => (s.framesOf c tier).countP fun f => f.st != 0 && f.st != 4 && f.own == d) (List.range 4)

/-- A domain's cap and floor in a tier (R180). -/
def State.tierCap (s : State) (d tier : Nat) : Nat := if tier = 0 then s.reg Dict.dtierNearCap 0 d else s.reg Dict.dtierDeepCap 0 d
def State.tierFloor (s : State) (d tier : Nat) : Nat := if tier = 0 then s.reg Dict.dtierNearFloor 0 d else s.reg Dict.dtierDeepFloor 0 d

/-- Allocates the lowest free frame of a channel's tier to a domain below its cap (R181), zeroing it when its last owner was another (R130). -/
def State.takeFrame (s : State) (d c tier : Nat) : Option (Nat × State) :=
  if s.owned d tier < s.tierCap d tier ∧ 0 < s.freeFrames c tier then
    let lo := (2 * c + tier) * 2 ^ 24
    let used := (s.tm.frames.filter fun e => decide (e.1 / 2 ^ 24 = 2 * c + tier) && e.2.st != 0).map (·.1)
    let n := ((List.range (used.length + 1)).find? fun i => !used.contains (lo + i)).getD 0
    let zero := decide ((s.frame c tier n).own ≠ d)
    let s := s.setFrame c tier n { own := d, st := 1 }
    let s := s.when zero fun s => (s.inc Dict.secFramesZeroed).ev 0x248 none 1 n (some d)
    some (n, s.when (decide (tier = 1) && decide (s.freeFrames c 1 = 0)) fun s => s.notify 0x1203 [c])
  else none

/-- n near frames of a channel for a domain, each taken and zeroed as any frame is (R130, R175): all of them, or none. -/
def State.takeFrames (s : State) (d c n : Nat) : Option (List Nat × State) :=
  (List.range n).foldl (fun o _ => o.bind fun a => (a.2.takeFrame d c 0).map fun r => (a.1 ++ [r.1], r.2)) (some ([], s))

/-- Frames taken in bulk for a domain on a channel (R175, R231): all of them, or none. -/
def State.takeBulk (s : State) (d c tag n : Nat) : Option State :=
  (s.takeFrames d c n).map fun r => { r.2 with tm := { r.2.tm with bulk := r.2.tm.bulk ++ [{ ch := c, dom := d, tag := tag, fr := r.1 }] } }

/-- The frames of a bulk are free again; their owner stays recorded (R130). -/
def State.freeBulkFrames (s : State) (b : Bulk) : State := s.each b.fr fun n s => s.setFrame b.ch 0 n { s.frame b.ch 0 n with st := 0 }

/-- Bulk frames of a tag go back. -/
def State.freeBulk (s : State) (tag : Nat) : State :=
  let s := s.each (s.tm.bulk.filter fun b => b.tag == tag) fun b s => s.freeBulkFrames b
  { s with tm := { s.tm with bulk := s.tm.bulk.filter fun b => b.tag != tag } }

/-- What a tag holds on a channel is cut to n frames, in one record; the others are free again. -/
def State.fitBulk (s : State) (d c tag n : Nat) : State :=
  let mine (b : Bulk) : Bool := b.ch == c && b.tag == tag
  let fr := (s.tm.bulk.filter mine).flatMap (·.fr)
  let kept : Bulk := { ch := c, dom := d, tag := tag, fr := fr.take n }
  let s := s.freeBulkFrames { kept with fr := fr.drop n }
  { s with tm := { s.tm with bulk := (s.tm.bulk.filter fun b => !mine b) ++ (if kept.fr = [] then [] else [kept]) } }

/-- A frame is given up (R190, R195, R251): it waits for the leases of a running step, then for its test when its page was poisoned. -/
def State.freeFrame (s : State) (c tier n : Nat) (bad : Bool) : State :=
  let f := s.frame c tier n
  if f.st = 0 ∨ f.st = 4 then s
  else s.setFrame c tier n { f with st := if s.sv.run.isSome then 2 else if bad then 3 else 0, bad := bad }

/-! ## Far regions (R178, R511) -/

/-- The near reserve's variable pool of a channel (R511), in bytes: the reserve less the frame table, the text contexts and the window pool. -/
def State.reservePool (s : State) (c : Nat) : Nat :=
  s.reg Dict.tierNearReserve 0 c * 1048576 - 16 * Nat.min 16777215 (s.frameTotal c 0 + s.frameTotal c 1) - 160 * 1048576 -
    s.reg Dict.slaiskWindowPool * 1048576

/-- An image's copy, rounded up to 64 KiB (R511). -/
def imageBytes (n : Nat) : Nat := (n + 65535) / 65536 * 65536

/-- What the variable parts hold on a channel: far frames' records, vocabulary and grammar copies, and the claims of collections (tag 2^32 and
above, in bytes, kept beside the frames). -/
def State.reserveUsed (s : State) (c : Nat) : Nat :=
  16 * s.tm.far.countP (fun e => farRec e.2 == c + 1) +
  sumOf (fun v => if v.2.chans.contains c then imageBytes v.2.v.len else 0) s.tx.vocabs +
  sumOf (fun g => if g.2.2.contains c then imageBytes g.2.1.len else 0) (s.tx.grammars ++ s.tx.newG) +
  sumOf (fun e => if e.1 = c then e.2 else 0) s.tm.claims

/-- Takes the lowest free frame of a domain's region, recorded on channel c; none where the region or the record's place is full. -/
def State.takeFar (s : State) (d region c : Nat) : Option (Nat × State) :=
  let total := s.reg Dict.dtierFarFrames region d
  let used := (s.tm.far.filter fun e => decide (e.1 / 2 ^ 40 = 16 * d + region)).map (·.1)
  if used.length < total ∧ s.reserveUsed c + 16 ≤ s.reservePool c then
    let n := ((List.range (used.length + 1)).find? fun i => !used.contains (farKey d region i)).getD 0
    some (n, { s with tm := { s.tm with far := Tbl.put 0 s.tm.far (farKey d region n) (c + 1) } })
  else none

/-- Frame i of a domain's far region: its flow, its key and its byte offset (R178). -/
def State.farPlace (s : State) (d region n : Nat) : Nat × Nat × Nat :=
  (s.reg Dict.dtierFarFlow region d, s.reg Dict.dtierFarKey region d, s.reg Dict.dtierFarBase region d + n * frameBytes)

/-- Gives a far frame back; one freed from a poisoned page waits for its test (R195), and a lost one stays lost. -/
def State.freeFar (s : State) (d region n : Nat) (bad : Bool := false) : State :=
  let key := farKey d region n
  let v := Tbl.get 0 s.tm.far key
  if 10 ≤ v then s else { s with tm := { s.tm with far := if bad then Tbl.put 0 s.tm.far key (10 + v) else Tbl.erase s.tm.far key } }

/-- The tests of far frames that can start (R195): the pattern is written over a READY flow and read back. -/
def State.farTests (s : State) : State :=
  s.each (s.tm.far.filter fun e => e.2 / 10 == 1) fun e s =>
    let (f, key, off) := s.farPlace (e.1 / 2 ^ 44) (e.1 / 2 ^ 40 % 16) (e.1 % 2 ^ 40)
    if s.flowReady f = false then s
    else
      let s : State := { s with tm := { s.tm with far := Tbl.put 0 s.tm.far e.1 (e.2 + 10) } }
      (s.txWrite f key off testPattern (some (.farTest e.1))).txRead f key off frameBytes (.farTest e.1) none

/-- Far frames a domain owns. -/
def State.farOwned (s : State) (d : Nat) : Nat := s.tm.far.countP fun e => decide (e.1 / 2 ^ 44 = d) && decide (e.2 < 10)

/-! ## Model slots -/

/-- A model slot. -/
def State.model (s : State) (m : Nat) : Model := Tbl.get {} s.fb.models m

/-- Replaces a model slot. -/
def State.setModel (s : State) (m : Nat) (x : Model) : State := { s with fb := { s.fb with models := Tbl.put {} s.fb.models m x } }

/-- D0 of a target model (R276). -/
def Model.draftBase (m : Model) : Nat := (1048576 / Nat.max 1 m.block * m.total + 8191) / 8192 * 8192

/-- The draft model of a target slot, where one is named (R275). -/
def State.draftOf (s : State) (m : Nat) : Option Nat :=
  let d := s.reg Dict.mstepDraftSlot 0 m
  if d < 16 ∧ (s.model d).st = 2 then some d else none

/-- The block of a KV page, of the target or of the draft. -/
def State.blockOf (s : State) (x : Sess) (l : Nat) : Nat :=
  let m := s.model x.model
  let d0 := m.draftBase
  if l < d0 then l / Nat.max 1 m.total
  else match s.draftOf x.model with
    | some d => (l - d0) / Nat.max 1 (s.model d).total
    | none => 0

/-! ## Location words and page lists (R171, R172) -/

/-- The token log's first page, the root's number and leaf i's (R171, R167). -/
def tokenLpn : Nat := 0x3FFFFC0
def rootLpn : Nat := 0xFFFFFFFF
def leafLpn (i : Nat) : Nat := 0xFFFF0000 + i

/-- A page number of KV data; of the token log; of a list page. -/
def isKv (l : Nat) : Bool := decide (l < tokenLpn)
def isTok (l : Nat) : Bool := decide (tokenLpn ≤ l) && decide (l < 0x4000000)

/-- The page's location word (R172). -/
def Page.word (p : Page) : Nat :=
  p.tier * 2 ^ 62 + 2 ^ 61 + 2 ^ 60 * b2n p.poisoned + 2 ^ 59 * b2n p.moving + 2 ^ 58 * b2n p.hot +
  (if p.tier = 3 then 0 else if p.tier = 2 then p.region * 2 ^ 40 + p.frame else p.inc * 2 ^ 32 + p.ch * 2 ^ 24 + p.frame)

/-- A word that names a frame of a channel that has left ON since (R172, R474). -/
def State.stale (s : State) (p : Page) : Bool := decide (p.tier < 2) && (!s.chOn p.ch || decide (p.inc ≠ s.startsOf p.ch % 4096))

/-- A session's page. -/
def Sess.page? (x : Sess) (l : Nat) : Option Page := (x.pages.find? fun e => e.1 == l).map (·.2)

/-- page_count (R174): valid KV pages, absent ones included. -/
def Sess.pageCount (x : Sess) : Nat := x.pages.countP fun e => isKv e.1

/-- The list pages that a page needs: its leaf and the root (R172). -/
def Sess.listFor (x : Sess) (l : Nat) : List Nat :=
  [leafLpn (l / 8192), rootLpn].filter fun p => (x.page? p).isNone

/-- The block run of the walk buffer that holds the word of a page (R249): handle × 2^32 + the block, 2^31 more for the draft's. -/
def State.runKey (s : State) (k l : Nat) : Nat :=
  let x := s.sess k
  s.handle k * 2 ^ 32 + s.blockOf x l + (if l < (s.model x.model).draftBase then 0 else 2 ^ 31)

/-- A session's page with its frame given up, and its word cleared (R251): the walkers of all channels drop it from both buffers. -/
def State.invalidate (s : State) (k l : Nat) : State :=
  let key := s.handle k * 2 ^ 32 + l
  let run := s.runKey k l
  s.each ((List.range 4).filter fun c => s.chOn c) fun c s =>
    let lab := (Tbl.get [] s.fb.lab c).filter (· != key)
    let walk := (Tbl.get [] s.fb.walk c).filter fun e => !(isKv l && e.1 == run)
    (({ s with fb := { s.fb with lab := Tbl.put [] s.fb.lab c lab, walk := Tbl.put [] s.fb.walk c walk } }).inc Dict.attnInvalidateCount 1 0 c).ev 0x0C4 (some c)

/-- The walk buffer's 262,144 words (R249): the oldest runs go until the rest fit, each counted. -/
def State.trimWalk (s : State) (c : Nat) : List (Nat × Nat) → State
  | [] => { s with fb := { s.fb with walk := Tbl.put [] s.fb.walk c [] } }
  | e :: l =>
    if sumOf (fun (x : Nat × Nat) => x.2) (e :: l) ≤ 262144 then { s with fb := { s.fb with walk := Tbl.put [] s.fb.walk c (e :: l) } }
    else State.trimWalk (s.ev 0x0C3 (some c)) c l

/-- A block run is read (R249): n location words of a block, unless the walk buffer still holds them. -/
def State.walkRun (s : State) (c run n : Nat) : State :=
  let w := Tbl.get [] s.fb.walk c
  if w.any fun e => e.1 == run then s else (s.ev 0x0C2 (some c)).trimWalk c (w ++ [(run, n)])

/-- A point lookup (R249): the look-aside buffer of 512 entries, least recently used replaced. -/
def State.lookup (s : State) (c k l : Nat) : State :=
  let key := s.handle k * 2 ^ 32 + l
  let lab := Tbl.get [] s.fb.lab c
  let hit := lab.contains key
  let s := { s with fb := { s.fb with lab := Tbl.put [] s.fb.lab c ((key :: lab.filter (· != key)).take 512) } }
  if hit then (s.inc Dict.attnLabHitCount 1 0 c).ev 0x0C0 (some c) else (s.inc Dict.attnLabMissCount 1 0 c).ev 0x0C1 (some c)

/-- Puts a page in a session's list. -/
def State.setPage (s : State) (k l : Nat) (p : Page) : State :=
  let x := s.sess k
  s.setSess k { x with pages := Tbl.insert x.pages l p }

/-- The frame a page holds is given up, wherever it is. -/
def State.freeHome (s : State) (d : Nat) (p : Page) : State :=
  if p.tier < 2 then (if s.stale p then s else s.freeFrame p.ch p.tier p.frame p.poisoned)
  else if p.tier = 2 then s.freeFar d p.region p.frame p.poisoned
  else if p.held && s.chOn p.ch && decide (p.inc = s.startsOf p.ch % 4096) then s.freeFrame p.ch 0 p.frame false else s

/-- One page leaves a session's list. -/
def State.dropOne (s : State) (k l : Nat) : State :=
  let x := s.sess k
  match x.page? l with
  | none => s
  | some p => ((s.setSess k { x with pages := Tbl.erase x.pages l }).freeHome x.dom p).invalidate k l

/-- A page leaves its session's list, and its leaf with its last word, and the root with the last leaf (R172). -/
def State.dropPage (s : State) (k l : Nat) : State :=
  let s := s.dropOne k l
  let lf := l / 8192
  let x := s.sess k
  if x.pages.any fun e => decide (e.1 < 0x4000000) && decide (e.1 / 8192 = lf) then s
  else
    let s := s.dropOne k (leafLpn lf)
    if (s.sess k).pages.any fun e => decide (e.1 ≠ rootLpn) then s else s.dropOne k rootLpn

/-! ## Placement (R179) -/

/-- A list turned to begin at a position. -/
def rotate {α : Type} (n : Nat) (l : List α) : List α := l.drop n ++ l.take n

/-- The channels on which page l of a session in slot k, of model slot mi and domain d, may be placed, best first (R179). -/
def State.placingOf (s : State) (k mi d l : Nat) : List Nat :=
  let m := s.model mi
  let cs := s.domChans d
  if cs = [] then []
  else if s.reg Dict.dsecClass 0 d = 2 then [cs.getD (l % cs.length) 0]
  else if m.placement = 0 then
    (([0, 1, 2, 3].map fun i => (chOf k + i) % 4).filter fun c => cs.contains c)
  else
    let d0 := m.draftBase
    let i :=
      if isKv l then
        if l < d0 then l % Nat.max 1 m.total
        else match s.draftOf mi with
          | some d => (l - d0) % Nat.max 1 (s.model d).total
          | none => l
      else l
    rotate (i % cs.length) cs

/-- The channels on which a page of a session may be placed, best first. -/
def State.placing (s : State) (k l : Nat) : List Nat := let x := s.sess k; s.placingOf k x.model x.dom l

/-- Allocates a near frame for a page, on the first channel of its placement that has one. -/
def State.placeNear (s : State) (k l : Nat) : Option (Nat × Nat × State) :=
  (s.placing k l).findSome? fun c => (s.takeFrame (s.sess k).dom c 0).map fun r => (c, r.1, r.2)

/-- The incarnation a word written now carries. -/
def State.incOf (s : State) (c : Nat) : Nat := s.startsOf c % 4096

/-- A new page in near, placed; none where no frame is free. -/
def State.newPage (s : State) (k l : Nat) : Option State :=
  (s.placeNear k l).map fun r => r.2.2.setPage k l { tier := 0, inc := s.incOf r.1, ch := r.1, frame := r.2.1, touch := s.pk.current }

/-- New pages with the list pages they need: all of them, or none. -/
def State.newPages (s : State) (k : Nat) (ls : List Nat) : Option State :=
  ls.foldl (fun o l => o.bind fun s =>
    if ((s.sess k).page? l).isSome then some s
    else (((s.sess k).listFor l).foldl (fun o p => o.bind fun s => s.newPage k p) (some s)).bind fun s => s.newPage k l) (some s)

/-! ## Poisoning (R194, R127) -/

/-- A page is poisoned: its session gets lost, and a CONTAINED fault is recorded.  A poisoned list page poisons every page it locates. -/
def State.poison (s : State) (k l src : Nat) (detail : Bytes) : State :=
  let x := s.sess k
  match x.page? l with
  | none => s
  | some p =>
    if p.poisoned then s
    else
      let c := if p.tier < 2 then p.ch else chOf k
      let hit (e : Nat × Page) : Bool :=
        e.1 == l || (l == rootLpn) || (decide (leafLpn 0 ≤ l) && decide (l < rootLpn) && decide (e.1 < 0x4000000) && e.1 / 8192 == l - leafLpn 0)
      let s := s.setSess k { x with lost := true, pages := x.pages.map fun e => if hit e then (e.1, { e.2 with poisoned := true }) else e }
      let s := s.when (decide (p.tier < 2) && !s.stale p) fun s => s.setFrame p.ch p.tier p.frame { s.frame p.ch p.tier p.frame with bad := true }
      let s := (s.inc Dict.tierPoisonCount 1 0 c).ev 0x04A (some c) 1 (s.handle k) (some x.dom) (some (s.handle k))
      (s.journal 1 c src x.dom (s.handle k) detail).invalidate k l

/-- A tag failure or a version mismatch (R127), of a session's page. -/
def State.tagFail (s : State) (k l : Nat) (version : Bool) : State :=
  let x := s.sess k
  let detail := beBytes 2 x.dom ++ beBytes 8 (s.handle k)
  let s := (s.inc (if version then Dict.secReplayRejectCount else Dict.secTagFailCount)).ev (if version then 0x245 else 0x244) none 1 (s.handle k) (some x.dom)
  (s.poison k l (if version then 0x245 else 0x244) detail).notify 0x0506 detail

/-- A page of which a block fails all three re-reads (R194). -/
def State.readLost (s : State) (c k l : Nat) : State := ((s.inc Dict.tierCrcRetryCount 3 0 c).ev 0x048 (some c) 3 (s.handle k)).poison k l 0x04A []

/-- n re-reads of which the last passed: a CORRECTED fault (R194). -/
def State.reread (s : State) (c n obj dom : Nat) : State :=
  s.when (decide (0 < n)) fun s =>
    (((s.inc Dict.tierCrcRetryCount n 0 c).ev 0x048 (some c) n obj).ev 0x049 (some c) 1 obj).journal 0 c 0x049 dom obj []

/-! ## The page frame (R167, R168, R126, R244) -/

/-- A KV page's payload and scale bytes (R244): per head the keys of every token, then the values; positions not written hold zero. -/
def Page.payload (p : Page) (m : Model) : Bytes × Bytes :=
  let per := m.kvHeads * m.headDim
  let sb := match kvSizes m.kvFmt (2 * per) with
    | some z => z.2
    | none => 0
  let tok (i : Nat) : KvTok := p.kv.getD i { codes := [], scales := [] }
  let sliceOf (h v : Nat) : List Nat := (List.range m.block).flatMap fun i =>
    let c := ((tok i).codes.drop (v * per + h * m.headDim)).take m.headDim
    c ++ List.replicate (m.headDim - c.length) 0
  let scaleOf (h v : Nat) : Bytes := (List.range m.block).flatMap fun i =>
    let w := sb / 2 / Nat.max 1 m.kvHeads
    let c := ((tok i).scales.drop (v * (sb / 2) + h * w)).take w
    c ++ List.replicate (w - c.length) 0
  ((List.range m.kvHeads).flatMap fun h => packElems m.kvFmt (sliceOf h 0) ++ packElems m.kvFmt (sliceOf h 1),
   (List.range m.kvHeads).flatMap fun h => scaleOf h 0 ++ scaleOf h 1)

/-- A token page's payload (R171). -/
def tokenPayload (tokens : List Nat) (i : Nat) : Bytes := ((tokens.drop (16384 * i)).take 16384).flatMap (leBytes 4)

/-- The model whose keys and values a KV page holds: the session's, or its draft's (R276). -/
def State.kvModel (s : State) (x : Sess) (l : Nat) : Model :=
  let m := s.model x.model
  if l < m.draftBase then m else match s.draftOf x.model with
    | some d => s.model d
    | none => {}

/-- The location word under a page number: zero where there is no page (R172). -/
def Sess.wordAt (x : Sess) (l : Nat) : Nat := match x.page? l with
  | some p => p.word
  | none => 0

/-- Location words of n page numbers from l on. -/
def Sess.words (x : Sess) (l n : Nat) : Bytes := (List.range n).flatMap fun i => leBytes 8 (x.wordAt (l + i))

/-- The slate index (R197): the location words of token pages 0-63. -/
def Sess.slateIndex (x : Sess) : Bytes := x.words tokenLpn 64

/-- A page's payload, scales and cairn in plaintext. -/
def State.pageParts (s : State) (k l : Nat) (p : Page) : Bytes × Bytes × Bytes :=
  let x := s.sess k
  if isKv l then let b := p.payload (s.kvModel x l); (b.1, b.2, p.cairn)
  else if isTok l then (tokenPayload x.tokens (l - tokenLpn), [], [])
  else if l = rootLpn then (x.words (leafLpn 0) 8192, [], [])
  else (x.words ((l - leafLpn 0) * 8192) 8192, [], [])

/-- The 64-byte header of a page's frame. -/
def State.pageHeader (s : State) (k l : Nat) (p : Page) : Bytes :=
  let x := s.sess k
  let kind := if isKv l then 0 else if isTok l then 1 else if l = rootLpn then 2 else 3
  let count := if kind = 0 then p.count else if kind = 1 then Nat.min 16384 (x.tokens.length - 16384 * (l - tokenLpn)) else 0
  [1, 1, p.tier, kind, if kind = 0 then (s.kvModel x l).kvFmt else 0, b2n p.poisoned] ++ leBytes 2 count ++ leBytes 8 (s.handle k) ++ leBytes 4 l ++
  leBytes 2 x.dom ++ [0, 0] ++ leBytes 8 p.ver ++ leBytes 4 p.epoch ++ beBytes 12 p.nonce ++ beBytes 16 p.writer

/-- A header as the tag and the CRC cover it: its tier byte is taken as zero. -/
def coveredHeader (hdr : Bytes) : Bytes := hdr.take 2 ++ [0] ++ hdr.drop 3

/-- CRC-32C values of n blocks of 1 KiB from an offset. -/
def blockCrcs (b : Bytes) (off n : Nat) : Bytes := (List.range n).flatMap fun i => leBytes 4 (crc32c ((b.drop (off + 1024 * i)).take 1024))

/-- The 73,728 bytes of a frame: payload and sidecar, encrypted under a page key and a nonce in deep and far; every CRC is computed anew over the form
that is stored (R167, R168, R126). -/
def sealedFrame (hdr payload scales cairn index : Bytes) (key : Option (Nat × Nat)) : Bytes :=
  let plain := fixLen 65536 payload ++ fixLen 6144 scales ++ fixLen 1024 cairn
  let aad := coveredHeader hdr
  let form : Bytes × Bytes := match key with
    | some kn => let ct := gcmSeal kn.1 kn.2 plain; (ct, gcmTagBytes kn.1 kn.2 aad ct)
    | none => (plain, List.replicate 16 0)
  let b := form.1
  b.take 65536 ++ hdr ++ blockCrcs b 0 64 ++ (b.drop 65536).take 6144 ++ (b.drop 71680).take 1024 ++ form.2 ++
  blockCrcs b 65536 7 ++ leBytes 4 (crc32c (aad ++ fixLen 512 index)) ++ fixLen 512 index ++ List.replicate 144 0

/-- The page key and nonce under which a deep or far page of a domain lies; none in near. -/
def State.pageSeal (s : State) (d : Nat) (p : Page) : Option (Nat × Nat) :=
  if p.tier = 0 then none else some (pageKey (s.storageKey d p.epoch) p.writer, p.nonce)

/-- A page's frame as it stands in its tier. -/
def State.pageFrame (s : State) (k l : Nat) (p : Page) : Bytes :=
  let x := s.sess k
  let b := s.pageParts k l p
  sealedFrame (s.pageHeader k l p) b.1 b.2.1 b.2.2 (if x.slate ∧ l = tokenLpn then x.slateIndex else []) (s.pageSeal x.dom p)

/-! ## Moves (R187, R190) -/

/-- A channel's counter of nonces rises by one (R126). -/
def State.nextNonce (s : State) (c : Nat) : State :=
  let n := Tbl.get 0 s.sc.nonces c + 1
  let ne := Tbl.get 0 s.nv.nonceEnd c
  let s : State := { s with sc := { s.sc with nonces := Tbl.put 0 s.sc.nonces c n } }
  s.when (decide (ne ≤ n)) fun s => ({ s with nv := { s.nv with nonceEnd := Tbl.put 0 s.nv.nonceEnd c (n + 2 ^ 32) } }).store

/-- The nonce at which a channel's counter stands: the channel, one zero byte, the counter (R126). -/
def State.nonceAt (s : State) (c : Nat) : Nat := c * 2 ^ 88 + Tbl.get 0 s.sc.nonces c % 2 ^ 80

/-- The next page version of a channel, and the page nonce that goes with a write into deep or far (R126, R170). -/
def State.nextVersion (s : State) (c : Nat) : Nat × State :=
  let v := Tbl.get 0 s.tm.vers c + 1
  let ve := Tbl.get 0 s.nv.versionEnd c
  let s : State := { s with tm := { s.tm with vers := Tbl.put 0 s.tm.vers c v } }
  let s := s.when (decide (ve ≤ v)) fun s => ({ s with nv := { s.nv with versionEnd := Tbl.put 0 s.nv.versionEnd c (v + 2 ^ 32) } }).store
  (v, s.nextNonce c)

/-- A page as it stands once it is written into a tier (R126, R170, R190): in deep and far with the next version and a fresh nonce of channel c, this device
as its writer and its domain's epoch in force; in near with the version of the copy it came from. -/
def State.written (s : State) (d c tier : Nat) (p : Page) : Page × State :=
  if tier = 0 then ({ p with tier := 0, epoch := 0, nonce := 0, writer := 0 }, s)
  else
    let (v, s) := s.nextVersion c
    ({ p with tier := tier, ver := v, epoch := (s.domSec d).active, nonce := s.nonceAt c, writer := ownWriter }, s)

/-- The channel whose mover makes a move: the source's, or the destination's for a far source. -/
def State.moverOf (s : State) (m : Move) : Nat :=
  match (s.sess m.k).page? m.lpn with
  | some p => if p.tier < 2 then p.ch else m.ch
  | none => m.ch

/-- Replaces the move of a page. -/
def State.setMove (s : State) (m : Move) : State :=
  { s with tm := { s.tm with moves := s.tm.moves.map fun y => if y.k = m.k ∧ y.lpn = m.lpn then m else y } }

/-- The far frame that a move writes or reads; none where both its ends are on the device. -/
def State.farEnd (s : State) (m : Move) : Option (Nat × Nat × Nat) :=
  let d := (s.sess m.k).dom
  if m.tier = 2 then some (s.farPlace d m.region m.frame)
  else match (s.sess m.k).page? m.lpn with
    | some p => if p.tier = 2 then some (s.farPlace d p.region p.frame) else none
    | none => none

/-- The Slaisk operations of a far move (R188), over the far flow and its partner (R396): the frame is written, with its new version and nonce, and made sure of
by a FLUSH; or it is read. -/
def State.farIo (s : State) (m : Move) : State :=
  match s.farEnd m, (s.sess m.k).page? m.lpn with
  | some (f, key, off), some p =>
    if m.tier = 2 then
      let (q, s) := s.written (s.sess m.k).dom (s.moverOf m) 2 p
      let s := s.setMove { m with io := 1, image := some q }
      (s.bulkWrite f key off (s.pageFrame m.k m.lpn q) (some (.farMove m.k m.lpn))).bulkFlush f (.farMove m.k m.lpn)
    else (s.setMove { m with io := 1 }).bulkRead f key off frameBytes (.farMove m.k m.lpn) none
  | _, _ => s

/-- A queued move may start: its far flow is READY, and in PICK_LOST it belongs to a session's own move or a seal (R61). -/
def State.moveMay (s : State) (m : Move) : Bool :=
  (match s.farEnd m with
    | some e => s.flowReady e.1
    | none => true) && (decide (s.pk.st ≠ .lost) || decide (m.why = 0) || decide (m.why = 4))

/-- Starts the queued moves that find tracker slots, in order (R187). -/
def State.startMoves (s : State) : State :=
  s.each (s.tm.moves.filter fun m => !m.started) fun m s =>
    let c := s.moverOf m
    if s.moveMay m = false then s
    else match s.takeSlot c 0 with
      | some (i, s) =>
        let m := { m with started := true, slot := i }
        ((s.setMove m).lookup c m.k m.lpn).farIo m
      | none => s

/-- Moves that wait for a slot on a channel: the mover queue holds 65,536 of them (R187). -/
def State.moverQueue (s : State) (c : Nat) : Nat := s.tm.moves.countP fun m => !m.started && decide (s.moverOf m = c)
def State.moverFull (s : State) (c : Nat) : Bool := decide (65536 ≤ s.moverQueue c)

/-- A move is set going: the page's word says moving, and the move waits for a slot. -/
def State.addMove (s : State) (m : Move) : State :=
  let x := s.sess m.k
  match x.page? m.lpn with
  | none => s
  | some p =>
    let s := s.setPage m.k m.lpn { p with moving := true }
    let s := { s with tm := { s.tm with moves := s.tm.moves ++ [m] } }
    let s := s.startMoves
    s.when (s.tm.moves.any fun y => y.k == m.k && y.lpn == m.lpn && !y.started) fun s =>
      (s.ev 0x050 (some (s.moverOf m))).when (s.moveMay m) fun s => s.trackWait (s.moverOf m)

/-- A move's destination is given up (R190). -/
def State.freeDest (s : State) (m : Move) : State :=
  let d := (s.sess m.k).dom
  if m.tier < 2 then s.freeFrame m.ch m.tier m.frame false else s.freeFar d m.region m.frame

/-- A move leaves the list and its tracker slot. -/
def State.endMove (s : State) (m : Move) : State :=
  let c := s.moverOf m
  let s := { s with tm := { s.tm with moves := s.tm.moves.filter fun y => !(y.k == m.k && y.lpn == m.lpn) } }
  let s := s.when (decide (m.io ≠ 0)) fun s => s.forgetOps (.farMove m.k m.lpn)
  (s.when m.started fun s => s.freeSlot c m.slot).startMoves

/-- A move fails before its switch: the source stays home (R190). -/
def State.failMove (s : State) (m : Move) : State :=
  let s := (s.freeDest m).endMove m
  match (s.sess m.k).page? m.lpn with
  | some p => s.setPage m.k m.lpn { p with moving := false }
  | none => s

/-- The event source of a switch (R207); 0 where the spec names none: a seal moves pages within a tier. -/
def moveSource (src dst : Nat) : Nat :=
  if dst = 2 then 0x042 else if src = 2 then 0x043 else if src = 0 ∧ dst = 1 then 0x040 else if src = 1 ∧ dst = 0 then 0x041 else 0

/-- Step 6 and 7 of R190: the home switches, the version of a deep or far copy is recorded, and the source is freed. -/
def State.switchHome (s : State) (m : Move) : State :=
  let x := s.sess m.k
  match x.page? m.lpn with
  | none => s.failMove m
  | some p =>
    let c := s.moverOf m
    let (w, s) := match m.image with
      | some w => (w, s)
      | none => s.written x.dom c m.tier p
    let s := s.endMove m
    let q := { p with tier := m.tier, moving := false, inc := if m.tier < 2 then s.incOf m.ch else 0, ch := m.ch, frame := m.frame, region := m.region, ver := w.ver, epoch := w.epoch, nonce := w.nonce, writer := w.writer, touch := s.pk.current }
    let s := ((s.setPage m.k m.lpn q).freeHome x.dom p).invalidate m.k m.lpn
    let n := s.reg Dict.tierMoveCount 0 c
    let src := moveSource p.tier m.tier
    let s := (s.inc Dict.tierMoveCount 1 0 c).when (decide (src ≠ 0)) fun s => s.ev src (some c) 1 (s.handle m.k) (some x.dom) (some (s.handle m.k))
    let s := s.when (decide (1 ≤ p.tier) && decide (p.tier < 3)) fun s => s.ev 0x247 none 1 (s.handle m.k) (some x.dom) (some (s.handle m.k))
    let s := s.when (decide (1 ≤ m.tier)) fun s => s.ev 0x246 none 1 (s.handle m.k) (some x.dom) (some (s.handle m.k))
    let mib := (n + 1) * frameBytes / 1048576 - n * frameBytes / 1048576
    let s := s.when (decide (0 < mib)) fun s => s.ev 0x051 (some c) mib
    if m.why = 1 then (s.inc Dict.tierEvictNearCount 1 0 c).ev 0x046 (some c)
    else if m.why = 2 then (s.inc Dict.tierEvictDeepCount 1 0 c).ev 0x047 (some c) else s

/-! ## Eviction (R182-R185) -/

/-- The blocks that hold a session's tail pages. -/
def Sess.tailBlock (x : Sess) (block : Nat) : Nat := x.kvLen / Nat.max 1 block

/-- Whether a page is the tail page of a layer of a session in PREFILL or DECODE (R182, R191). -/
def State.isTail (s : State) (x : Sess) (l : Nat) : Bool :=
  let m := s.model x.model
  let b := x.tailBlock m.block
  let d0 := m.draftBase
  (decide (x.st = .prefill) || decide (x.st = .decode)) && isKv l &&
  (if l < d0 then decide (b ≤ l / Nat.max 1 m.total + (if x.kvLen % Nat.max 1 m.block = 0 then 1 else 0))
   else match s.draftOf x.model with
     | some d => decide (b ≤ (l - d0) / Nat.max 1 (s.model d).total + 1)
     | none => false)

/-- R182: the page may be evicted. -/
def State.eligible (s : State) (x : Sess) (l : Nat) (p : Page) : Bool :=
  decide (p.touch ≠ s.pk.current) && !p.moving && !p.poisoned && !s.isTail x l && !s.sv.held &&
  decide (x.st ≠ .moving) && decide (x.st ≠ .reviving) && decide (x.st ≠ .closing) && !s.stale p

/-- The far region with a free frame that a deep victim goes to: the lowest (log 21). -/
def State.farRegion (s : State) (d : Nat) : Option Nat :=
  (List.range 16).find? fun r =>
    decide ((s.tm.far.countP fun e => decide (e.1 / 2 ^ 40 = 16 * d + r)) < s.reg Dict.dtierFarFrames r d)

/-- The oldest eligible page of a channel's tier among the domains above their floor, or of one domain alone (R183): session, page number, page. -/
def State.victim (s : State) (c tier : Nat) (only : Option Nat) : Option (Nat × Nat × Page) :=
  let all := s.ss.tbl.flatMap fun e =>
    if (match only with | some d => decide (e.2.dom = d) | none => decide (s.tierFloor e.2.dom tier < s.owned e.2.dom tier)) then
      (e.2.pages.filter fun q =>
        q.2.tier == tier && q.2.ch == c && s.eligible e.2 q.1 q.2 &&
        (tier == 0 || (s.reg Dict.dtierDeepEvict 0 e.2.dom == 1 && decide (e.2.st = .parkedDeep)) || (s.farRegion e.2.dom).isSome)).map fun q => (e.1, q.1, q.2)
    else []
  all.foldl (fun a v => match a with
    | none => some v
    | some b => if v.2.2.touch < b.2.2.touch then some v else some b) none

/-! ## Pinned entries (R162) -/

/-- States in which an entry is pinned (R162). -/
def pins (st : SSt) : Bool :=
  decide (st = .prefill) || decide (st = .decode) || decide (st = .moving) || decide (st = .reviving) || decide (st = .closing)

/-- Entries pinned on a channel. -/
def State.pinned (s : State) (c : Nat) : Nat := s.ss.tbl.countP fun e => decide (chOf e.1 = c) && pins e.2.st

/-- The entry is used (R162): a hit or a miss of the cache of 16,384, whose unpinned entries are replaced least recently used first. -/
def State.touchEntry (s : State) (k : Nat) : State :=
  let c := chOf k
  let l := Tbl.get [] s.ss.cache c
  let hit := l.contains k
  let l := k :: l.filter (· != k)
  let victim := if 16384 < l.length then (l.reverse.find? fun j => !pins (s.sess j).st) else none
  let l := match victim with
    | some v => l.filter (· != v)
    | none => l
  let s := { s with ss := { s.ss with cache := Tbl.put [] s.ss.cache c l } }
  if hit then (s.inc Dict.sessCacheHitCount 1 0 c).ev 0x087 (some c) 1 (s.handle k)
  else (s.inc Dict.sessCacheMissCount 1 0 c).ev 0x088 (some c) 1 (s.handle k)

/-- A command or event that would pin one more entry than `sess.pin_limit` waits (R162). -/
def State.pinFull (s : State) (k : Nat) : Bool :=
  !pins (s.sess k).st && decide (s.reg Dict.sessPinLimit 0 (chOf k) ≤ s.pinned (chOf k))

/-- The wait for the pin limit is counted. -/
def State.pinWait (s : State) (k : Nat) : State :=
  (s.inc Dict.sessPinWaitCount 1 0 (chOf k)).ev 0x089 (some (chOf k)) 1 (s.handle k)

/-- A session's state changes, with the pick it does (R143). -/
def State.toState (s : State) (k : Nat) (st : SSt) : State :=
  let x := s.sess k
  let s := s.setSess k { x with st := st, since := s.pk.current }
  let c := chOf k
  if st = .toolwait then s.ev 0x08B (some c) 1 (s.handle k) (some x.dom) (some (s.handle k))
  else if st = .halted then s.ev 0x08C (some c) 1 (s.handle k) (some x.dom) (some (s.handle k)) else s

/-- A session's draft pages are freed when its draft slot was changed or cleared (R276). -/
def State.dropDraft (s : State) (k : Nat) : State :=
  let x := s.sess k
  if x.draftStale then
    let d0 := (s.model x.model).draftBase
    let s := s.each (x.pages.filter fun e => isKv e.1 && decide (d0 ≤ e.1) && !e.2.moving) fun e s => s.dropPage k e.1
    s.setSess k { s.sess k with draftLen := 0, draftStale := false }
  else s

/-- A whole-session operation begins: MOVING with a target, its timers paused (R145, R510). -/
def State.beginMoving (s : State) (k target policy : Nat) : State :=
  let s := s.dropDraft k
  let x := s.sess k
  let s := s.setSess k { x with prior := x.st, target := target, policy := policy, pausedAt := s.pk.current, reserved := false, waitFrom := none }
  let since := x.since
  let s := s.toState k .moving
  s.setSess k { s.sess k with since := since }

/-- The oldest deep victim is dealt with (R185): its PARKED_DEEP session condenses, or the page goes to far. -/
def State.evictDeep (s : State) (c : Nat) (only : Option Nat) : State :=
  match s.victim c 1 only with
  | none => s
  | some (k, l, _) =>
    let d := (s.sess k).dom
    if s.reg Dict.dtierDeepEvict 0 d = 1 ∧ (s.sess k).st = .parkedDeep then
      if s.pinFull k then s.pinWait k else (s.touchEntry k).beginMoving k 1 (s.reg Dict.dtierSlatePolicy 0 d)
    else
      match (s.farRegion d).bind fun r => (s.takeFar d r c).map fun q => (r, q.1, q.2) with
      | some (r, n, s) => s.addMove { k := k, lpn := l, tier := 2, ch := c, frame := n, region := r, why := 2, started := false }
      | none => s

/-- One eviction in a channel's tier (R184, R185): the victim's move is set going; a near victim whose deep has no frame makes deep evict first (R189).  None in
PICK_LOST (R61), nor while the mover queue is full. -/
def State.evictOne (s : State) (c tier : Nat) (only : Option Nat) : State :=
  if s.pk.st = .lost ∨ s.moverFull c = true then s
  else if tier = 0 then
    match s.victim c 0 only with
    | none => s
    | some (k, l, _) =>
      let d := (s.sess k).dom
      match s.takeFrame d c 1 with
      | some (n, s) => s.addMove { k := k, lpn := l, tier := 1, ch := c, frame := n, region := 0, why := 1, started := false }
      | none => s.evictDeep c (if s.owned d 1 < s.tierCap d 1 then none else some d)
  else s.evictDeep c only

/-- The tier's water marks on a channel. -/
def State.lowWater (s : State) (c tier : Nat) : Nat := if tier = 0 then s.sreg Dict.tierNearLowWater 0 c else s.sreg Dict.tierDeepLowWater 0 c
def State.highWater (s : State) (c tier : Nat) : Nat := if tier = 0 then s.sreg Dict.tierNearHighWater 0 c else s.sreg Dict.tierDeepHighWater 0 c

/-- Background eviction of a channel's tier is running. -/
def State.markEvicting (s : State) (c tier : Nat) : State :=
  let key := 2 * c + tier
  { s with tm := { s.tm with evicting := if s.tm.evicting.contains key then s.tm.evicting else s.tm.evicting ++ [key] } }

/-- Background eviction (R184): it runs from low water to high water. -/
def State.background (s : State) (c tier : Nat) : State :=
  let key := 2 * c + tier
  let free := s.freeFrames c tier
  let going := (s.tm.evicting.contains key && decide (free < s.highWater c tier)) || decide (free < s.lowWater c tier)
  if !s.chOn c then s
  else if going then
    (s.markEvicting c tier).evictOne c tier none
  else { s with tm := { s.tm with evicting := s.tm.evicting.filter (· != key) } }

/-- The channel that holds a domain's own oldest eligible page of a tier (R181). -/
def State.oldestOn (s : State) (d tier : Nat) : Option Nat :=
  ((List.range 4).filterMap fun c => (s.victim c tier (some d)).map fun v => (c, v.2.2.touch)).foldl (fun a v => match a with
    | none => some v
    | some b => if v.2 < b.2 then some v else some b) none |>.map (·.1)

/-- An allocation of a domain in a tier found no frame on these channels: at its cap the domain's own oldest page goes (R181); otherwise eviction starts on the
channels that have no free frame (R184). -/
def State.starve (s : State) (d tier : Nat) (cs : List Nat) : State :=
  if s.tierCap d tier ≤ s.owned d tier then
    match s.oldestOn d tier with
    | some c => s.evictOne c tier (some d)
    | none => s
  else s.each (cs.filter fun c => s.freeFrames c tier == 0) fun c s => (s.markEvicting c tier).evictOne c tier none

/-- An allocation of a domain's own command waits on these channels (R189, R231): counted, and what makes room is set going; when the picks of
`dtier.frame_grace` are over since it began, NOTIFY 0x1202 is sent and the command is given up. -/
def State.domWait (s : State) (d since : Nat) (cs : List Nat) (give : State → State) : State :=
  if since + s.reg Dict.dtierFrameGrace 0 d ≤ s.pk.current ∧ since < s.pk.current then give (s.notify 0x1202 (beBytes 2 d ++ [0]))
  else
    let c := cs.headD 0
    ((s.inc Dict.tierAllocWaitCount 1 0 c).ev 0x04B (some c) 1 0 (some d)).starve d 0 cs

/-- An allocation for a session waits (R189): since when, the counter, and what makes room in the tier; nothing does in far. -/
def State.allocWait (s : State) (k tier : Nat) : State :=
  let x := s.sess k
  let cs := s.placing k 0
  let c := cs.headD (chOf k)
  let s := s.setSess k { x with waitFrom := if x.waitFrom.isSome then x.waitFrom else some s.pk.current }
  let s := (s.inc Dict.tierAllocWaitCount 1 0 c).ev 0x04B (some c) 1 (s.handle k) (some x.dom) (some (s.handle k))
  if tier = 2 then s else s.starve x.dom tier cs

end Sys2Proof.Machine
end

