-- ==== Sys2Proof/Machine/Sess.lean ====
section
/-! DEFINITION. Sessions (spec/05): completions, taking a descriptor, inputs and outputs, whole-session moves and revivals, and the return of
a slot. -/

namespace Sys2Proof.Machine

open Sys2Proof

/-- An event of a session. -/
def State.evS (s : State) (k src : Nat) (qty : Nat := 1) : State :=
  s.when (decide (0 < qty)) fun s => s.ev src (some (chOf k)) qty (s.handle k) (some (s.sess k).dom) (some (s.handle k))

/-! ## Completions -/

/-- A descriptor's completion (R157): the record, with FORWARDED where it came from another device, and its counts. -/
def State.endDesc (s : State) (q : QDesc) (status progress outLen flags : Nat) : State :=
  let k := q.d.session / 2 ^ 22 % 2 ^ 20
  let c := chOf k
  let s := s.record q.dom q.d.session q.d.seq q.d.opcode status progress outLen (flags + flForwarded * b2n q.fwd) (bit q.d.flags 0)
  let s := s.when (decide (status = stDeadline)) fun s =>
    (s.inc Dict.dsessDeadlineMissCount 1 0 q.dom).ev 0x08A (some c) 1 q.d.session (some q.dom) (some q.d.session)
  let s := s.when (decide (status = stHold)) fun s => s.inc Dict.ckptHoldCount
  s.ev 0x083 (some c) 1 q.d.session (some q.dom) (some q.d.session)

/-- The descriptor at a ring's head leaves it (R147). -/
def State.popHead (s : State) (k : Nat) : State :=
  let x := s.sess k
  match x.ring with
  | [] => s
  | q :: rest =>
    (s.setSess k { x with ring := rest, head := (x.head + 1) % 65536 }).ev 0x082 (some (chOf k)) 1 q.d.session (some q.dom) (some q.d.session)

/-- The descriptor at a ring's head completes without running. -/
def State.endHead (s : State) (k status progress : Nat) : State :=
  match (s.sess k).ring with
  | [] => s
  | q :: _ => ((s.popHead k).setSess k { (s.popHead k).sess k with deadline := 0 }).endDesc q status progress 0 0

/-- State codes (spec/05). -/
def SSt.code : SSt → Nat
  | .free => 0
  | .admitted => 1
  | .prefill => 2
  | .decode => 3
  | .toolwait => 4
  | .parkedDeep => 5
  | .condensed => 6
  | .parkedFar => 7
  | .reviving => 8
  | .moving => 9
  | .halted => 10
  | .closing => 11

/-- The state in which a session comes to rest (R145). -/
def Sess.rest (x : Sess) : SSt := if x.generated then .toolwait else .admitted

/-- A session comes to rest, and its park pick is set (R196). -/
def State.toRest (s : State) (k : Nat) : State :=
  let s := s.toState k (s.sess k).rest
  let x := s.sess k
  let d := s.reg Dict.dtierParkDelay 0 x.dom
  s.setSess k { x with ttl := if d = 0 then 0 else s.pk.current + d }

/-- The running command of a session completes (R156: its deadline goes with it). -/
def State.endRun (s : State) (k status progress outLen : Nat) : State :=
  let x := s.sess k
  match x.run with
  | none => s
  | some r => (s.setSess k { x with run := none, deadline := 0, waitFrom := none, bwait := 0, masks := [], late := false }).endDesc r.q status progress outLen 0

/-- A session's unsolicited record (R159, R145). -/
def State.unsolicited (s : State) (k opcode status progress outLen flags : Nat) : State :=
  s.record (s.sess k).dom (s.handle k) 0xFFFF opcode status progress outLen (flUnsolicited + flags) false

/-! ## Inputs and outputs (R149, R397-R401) -/

/-- A window. -/
def State.win (s : State) (i : Nat) : Window := Tbl.get {} s.sl.wins i

/-- Replaces a window. -/
def State.setWin (s : State) (i : Nat) (w : Window) : State := { s with sl := { s.sl with wins := Tbl.put {} s.sl.wins i w } }

/-- A window is revoked (R400): its handle fails at once, and it enters STOPPING; during STARTING the revocation is latched (R32). -/
def State.revoke (s : State) (i : Nat) : State :=
  let w := s.win i
  if !w.isOpen || w.revoked then s
  else
    let s := (s.setWin i { w with revoked := true }).ev 0x18F none 1 i (some w.dom)
    let f := s.fn (.window i)
    match f.st with
    | .starting => s.setFn (.window i) { f with pend := .off }
    | .on => s.setFn (.window i) { f with st := .stopping, pend := .none }
    | _ => s

/-- A byte of a window's buffer: bytes never written read as zero (R401). -/
def Window.read (w : Window) (a : Nat) : Nat := (Tbl.get (0 : BitVec 8) w.mem a).toNat

/-- Writes bytes into a window's buffer. -/
def Window.write (w : Window) (off : Nat) (data : Bytes) : Window :=
  { w with mem := ((List.range data.length).zip data).foldl (fun m e => Tbl.put (0 : BitVec 8) m (off + e.1) (BitVec.ofNat 8 e.2)) w.mem }

/-- Where a data_ref leads (R397): a region by flow, key and byte offset, a window, a failure, or a flow that is not READY. -/
inductive Ref where
  | region (flow key off : Nat)
  | window (i gen : Nat)
  | fail (status : Nat)
  | wait
  deriving DecidableEq, Repr

/-- Decodes a data_ref for n bytes of a domain (R397, R398, R405). -/
def State.ref (s : State) (d v n : Nat) (output : Bool) : Ref :=
  let off := v % 2 ^ 48
  match v / 2 ^ 62 % 4 with
  | 0 =>
    let size := if output then s.reg Dict.dslaiskOutputBytes 0 d else s.reg Dict.dslaiskInputBytes 0 d
    if bits v 61 48 ≠ 0 ∨ size < off + n then .fail stBad
    else if s.flowReady (s.ioFlow d) then
      .region (s.ioFlow d) (if output then s.reg Dict.dslaiskOutputKey 0 d else s.reg Dict.dslaiskInputKey 0 d)
        ((if output then s.reg Dict.dslaiskOutputBase 0 d else s.reg Dict.dslaiskInputBase 0 d) + off)
    else .wait
  | 1 =>
    if output ∨ bits v 61 32 ≠ 0 ∨ bits v 31 28 ≠ 3 then .fail stBad else .window (v % 65536) (bits v 27 16)
  | 2 =>
    let k := bits v 59 56
    let frames := s.reg Dict.dtierFarFrames k d
    if bits v 61 60 ≠ 0 ∨ bits v 55 48 ≠ 0 ∨ frames = 0 ∨ frames * frameBytes < off + n then .fail stBad
    else
      let f := s.reg Dict.dtierFarFlow k d
      if s.flowReady f then .region f (s.reg Dict.dtierFarKey k d) (s.reg Dict.dtierFarBase k d + off) else .wait
  | _ => .fail stBad

/-- Reads a descriptor's input (R149, R401): from a window at once, after which the window is revoked; from a region by a READ that takes a REMOTE
slot on channel c.  The descriptor's input state says what came of it. -/
def State.fetch (s : State) (q : QDesc) (what : OpFor) (c : Nat) : QDesc × State :=
  if q.inSt ≠ 0 then (q, s)
  else if q.d.dataLen = 0 then ({ q with inSt := 2 }, s)
  else
    match s.ref q.dom q.d.dataRef q.d.dataLen false with
    | .fail st => ({ q with inSt := 3, inErr := st }, s)
    | .wait => (q, s)
    | .window i gen =>
      let w := s.win i
      if !w.isOpen || w.revoked || decide (w.gen ≠ gen) then ({ q with inSt := 3, inErr := stAbort }, s)
      else if w.dom ≠ q.dom then ({ q with inSt := 3, inErr := stDenied }, s)
      else if w.size < q.d.dataLen then ({ q with inSt := 3, inErr := stBad }, s)
      else ({ q with inSt := 2, input := (List.range q.d.dataLen).map w.read }, s.revoke i)
    | .region f key off =>
      match s.takeSlot c 2 with
      | none => (q, s.trackWait c)
      | some (i, s) => ({ q with inSt := 1 }, s.txRead f key off q.d.dataLen what (some (c, i)))

/-- Writes output bytes of a command at an offset from its data_ref (R398). -/
def State.output (s : State) (d v n at_ : Nat) (data : Bytes) (own : Option OpFor := none) : State :=
  match s.ref d v n true with
  | .region f key off => s.txWrite f key (off + at_) data own
  | _ => s

/-! ## Taking a descriptor (R147, R154, R156, R162) -/

/-- What the matrix of R154 says. -/
inductive Cell where
  | x | a | d | w | b
  deriving DecidableEq, Repr

/-- The matrix of R154, by state and opcode. -/
def matrix (st : SSt) (opcode : Nat) : Cell :=
  match st with
  | .free => if opcode = 0x01 ∨ opcode = 0x08 then .x else .b
  | .admitted => if opcode = 0x01 ∨ opcode = 0x08 then .b else if opcode = 0x05 then .d else .x
  | .toolwait => if opcode = 0x01 ∨ opcode = 0x08 then .b else if opcode = 0x05 then .d else .x
  | .parkedDeep => if opcode = 0x01 ∨ opcode = 0x08 then .b else if opcode = 0x02 ∨ opcode = 0x03 ∨ opcode = 0x0B then .a else .x
  | .condensed =>
    if opcode = 0x01 ∨ opcode = 0x08 then .b else if opcode = 0x02 ∨ opcode = 0x03 ∨ opcode = 0x0B then .a
    else if opcode = 0x06 then .d else .x
  | .parkedFar =>
    if opcode = 0x01 ∨ opcode = 0x08 ∨ opcode = 0x06 then .b else if opcode = 0x02 ∨ opcode = 0x03 ∨ opcode = 0x0B then .a else .x
  | .moving => if opcode = 0x01 ∨ opcode = 0x08 then .b else .w
  | .reviving => if opcode = 0x01 ∨ opcode = 0x08 then .b else .w
  | .halted => if opcode = 0x0B then .x else .b
  | .closing => .b
  | _ => .w

/-- Commands that end with PICK_LOST in that state (R61). -/
def admits (opcode : Nat) : Bool := [0x01, 0x02, 0x03, 0x05, 0x08, 0x49, 0x4A, 0x4B, 0x50, 0x58, 0x59].contains opcode

/-- A session command at the head of slot k's ring, where it may be taken: it is of this opcode, the previous command has completed, no record of
its domain waits, and nothing holds the session.  A late one ends with DEADLINE_MISSED, one that admits work with PICK_LOST in that
state; one whose cell is W stays (R154); otherwise its priority is set (R147) and it goes on. -/
def State.takeHead (s : State) (k opcode : Nat) (go : QDesc → State → State) : State :=
  let x := s.sess k
  match x.ring with
  | [] => s
  | q :: _ =>
    if q.d.opcode ≠ opcode ∨ x.run.isSome ∨ s.stalled q.dom ∨ s.sv.held ∨ x.closePend then s
    else if s.isLate q.d.deadline then s.endHead k stDeadline 0
    else if s.pk.st = .lost ∧ admits opcode then s.endHead k stPickLost 0
    else if matrix x.st opcode = .w then s
    else
      let s := s.when (decide (q.inSt = 0)) fun s => s.touchEntry k
      let s := s.when (bit q.d.deadline 51 && decide (opcode ≠ 1) && decide (x.st ≠ .free)) fun s =>
        s.setSess k { s.sess k with prio := Nat.min (bits q.d.deadline 50 48) (s.reg Dict.dsessPriorityCap 0 x.dom) }
      go q s

/-- A command starts to run (R156: its deadline is written to the entry). -/
def State.startRun (s : State) (k : Nat) (q : QDesc) : State :=
  let s := s.popHead k
  s.setSess k { s.sess k with run := some { q := q, lastRec := s.pk.current }, outFail := false, deadline := q.d.deadline % 2 ^ 48, waitFrom := none, bwait := 0 }

/-- The head descriptor replaced (its input came or was asked for). -/
def State.setHead (s : State) (k : Nat) (q : QDesc) : State :=
  let x := s.sess k
  s.setSess k { x with ring := match x.ring with
    | [] => []
    | _ :: rest => q :: rest }

/-! ## Handles (R151, R311) -/

/-- A field of a command that names a handle: what the entry then holds; none where the domain has not defined it. -/
def pickHandle (field cur : Nat) (known : Nat → Bool) : Option Nat :=
  if field = 0 then some cur
  else if field = 0xFFFFFFFF then some field
  else if field ≤ 1023 ∧ known field then some field else none

/-- A domain's grammar, stop set or profile under a handle. -/
def State.grammar (s : State) (d h : Nat) : Option Grammar := (s.tx.grammars.find? fun e => e.1 == d * 1024 + h).map (·.2.1)
def State.stopSet (s : State) (d h : Nat) : Option StopSet := (s.tx.stops.find? fun e => e.1 == d * 1024 + h).map (·.2)
def State.profile (s : State) (d h : Nat) : Option Profile := (s.tx.profs.find? fun e => e.1 == d * 1024 + h).map (·.2)

/-- grammar_state set to none, with the stack (R303, R311). -/
def State.resetGrammar (s : State) (k : Nat) : State :=
  let x := s.sess k
  if x.gstate = gNone then s
  else
    let s := s.setSess k { x with gstate := gNone, ctx := { x.ctx with stack := [] } }
    (s.inc Dict.grammarStateResetCount 1 0 (chOf k)).ev 0x112 (some (chOf k)) 1 (s.handle k)

/-- The three handles of a command bound to its session; none where one is not defined (R151). -/
def State.bindHandles (s : State) (k d : Nat) (q : QDesc) : Option State :=
  let x := s.sess k
  match pickHandle q.d.grammar x.grammar fun h => (s.grammar d h).isSome || s.tx.newG.any fun e => e.1 == d * 1024 + h,
      pickHandle q.d.stopSet x.stop fun h => (s.stopSet d h).isSome || s.tx.newS.any fun e => e.1 == d * 1024 + h,
      pickHandle q.d.sampling x.sampling fun h => (s.profile d h).isSome || s.tx.newP.any fun e => e.1 == d * 1024 + h with
  | some g, some st, some sm =>
    let s := s.when (decide (q.d.grammar ≠ 0)) fun s => s.resetGrammar k
    some (s.setSess k { s.sess k with grammar := g, stop := st, sampling := sm })
  | _, _, _ => none

/-- The vocabulary a model uses: its slot and holder. -/
def State.vocabOf (s : State) (m : Model) : Option (Nat × VSlot) :=
  s.tx.vocabs.find? fun e => decide (e.2.v.digest = m.vocab) && decide (e.2.dom = m.dom)

/-! ## Returning a slot (R140, R145) -/

/-- The generation after g (R140). -/
def genNext (g : Nat) : Nat := if g = 0xFFFF then 1 else g + 1

/-- All frames of a session go back, and its staging frames. -/
def State.freeAll (s : State) (k : Nat) : State :=
  let x := s.sess k
  let s := s.each (s.tm.moves.filter fun m => m.k == k) fun m s => s.failMove m
  let s := s.each x.stage fun e s => s.freeFrame e.2.1 0 e.2.2 false
  s.each x.pages fun e s => (s.freeHome x.dom (((s.sess k).page? e.1).getD e.2)).invalidate k e.1

/-- A slot returns to FREE with its generation raised; descriptors still in its ring complete with BAD_STATE and `flags`. -/
def State.freeSlotOf (s : State) (k flags : Nat) : State :=
  let x := s.sess k
  let g := genNext (s.genOf k)
  let s := s.setSess k { gen := g, head := (x.head + x.ring.length) % 65536, tail := x.tail }
  let s := s.ev 0x081 (some (chOf k)) 1 0 (some x.dom)
  s.each (x.ring ++ x.imm) fun q s => s.endDesc q stBad 0 0 flags

/-! ## Whole-session moves (R192, R196-R200) -/

/-- Blocks of a session that hold KV. -/
def Sess.blocks (x : Sess) (block : Nat) : Nat := (x.kvLen + block - 1) / Nat.max 1 block

/-- The pages a condensation keeps (R197): token pages; with a tail the last W blocks; with hot pages up to H of them, in
ascending number.  List pages stay with a kept list. -/
def State.kept (s : State) (k policy : Nat) : List Nat :=
  let x := s.sess k
  let m := s.model x.model
  let w := s.reg Dict.dtierSlateTailBlocks 0 x.dom
  let h := s.reg Dict.dtierSlateHotPages 0 x.dom
  let first := x.blocks m.block - w
  let kv := (x.pages.filter fun e => isKv e.1 && decide (e.2.tier ≠ 3)).map (·.1)
  let tail := kv.filter fun l => decide (first ≤ s.blockOf x l)
  let hot := ((x.pages.filter fun e => isKv e.1 && e.2.hot && decide (e.2.tier ≠ 3) && decide (s.blockOf x e.1 < first)).map (·.1)).take h
  let tok := (x.pages.filter fun e => isTok e.1).map (·.1)
  let list := (x.pages.filter fun e => decide (0x4000000 ≤ e.1)).map (·.1)
  if policy = 0 then tok else if policy = 1 then tail ++ tok ++ list else hot ++ tail ++ tok ++ list

/-- The pages a whole-session move takes, with the tier each goes to (R196, R197, R200). -/
def State.movePlan (s : State) (k : Nat) : List (Nat × Nat) :=
  let x := s.sess k
  let of (f : Nat → Page → Bool) (tier : Nat) : List (Nat × Nat) := (x.pages.filter fun e => f e.1 e.2 && !e.2.moving).map fun e => (e.1, tier)
  if x.target = 0 then of (fun _ p => p.tier == 0 || (p.tier == 2 && decide (x.prior = .parkedFar))) 1
  else if x.target = 1 then let ks := s.kept k x.policy; of (fun l p => ks.contains l && decide (p.tier ≠ 1)) 1
  else if x.target = 2 then of (fun _ p => decide (p.tier < 2)) 2
  else []

/-- The far region of a move to far: the PARK's (R200), or the domain's for an expiry (R199). -/
def State.farTarget (s : State) (x : Sess) : Nat :=
  match x.run with
  | some r => r.q.d.dataRef % 16
  | none => s.reg Dict.dtierSlateRegion 0 x.dom

/-- Reserves one destination frame: deep on the channel whose near frame the page leaves (R179), or far. -/
def State.reserveDest (s : State) (k l tier : Nat) : Option (Move × State) :=
  let x := s.sess k
  match x.page? l with
  | none => none
  | some p =>
    let c := if p.tier < 2 then p.ch else (s.placing k l).headD (chOf k)
    if tier = 1 then
      (s.takeFrame x.dom c 1).map fun r => ({ k := k, lpn := l, tier := 1, ch := c, frame := r.1, region := 0, why := 0, started := false }, r.2)
    else
      let g := s.farTarget x
      (s.takeFar x.dom g c).map fun r => ({ k := k, lpn := l, tier := 2, ch := c, frame := r.1, region := g, why := 0, started := false }, r.2)

/-- Reserves every destination of a whole-session move, or none of them (R192). -/
def State.reserveAll (s : State) (k : Nat) : Option (List Move × State) :=
  (s.movePlan k).foldl (fun o e => o.bind fun a => (a.2.reserveDest k e.1 e.2).map fun r => (a.1 ++ [r.1], r.2)) (some ([], s))

/-- An IMPORT's pages take their frames in deep (R205): those that the record brings are marked moving until they land. -/
def State.landImport (s : State) (k : Nat) : Option State :=
  ((s.sess k).pages.filter fun e => decide (e.2.tier = 3) && e.2.moving).foldl (fun o e => o.bind fun s =>
    (s.placing k e.1).findSome? fun c => (s.takeFrame (s.sess k).dom c 1).map fun r =>
      let (w, s) := r.2.written (s.sess k).dom c 1 e.2
      s.setPage k e.1 { w with moving := false, ch := c, frame := r.1, inc := s.incOf c, touch := s.pk.current }) (some s)

/-- The near frames reserved for absent pages go back (R202). -/
def State.releaseHeld (s : State) (k : Nat) : State :=
  s.each ((s.sess k).pages.filter fun e => e.2.held) fun e s => (s.freeHome (s.sess k).dom e.2).setPage k e.1 { e.2 with held := false, inc := 0, ch := 0, frame := 0 }

/-- A move or revival that fails gives its timers back the picks it took (R510), and the session its prior state. -/
def State.backToPrior (s : State) (k : Nat) : State :=
  let s := s.releaseHeld k
  let x := s.sess k
  let dt := s.pk.current - x.pausedAt
  let s := s.when (decide (x.prior = .toolwait)) fun s => s.ev 0x08B (some (chOf k)) 1 (s.handle k) (some x.dom) (some (s.handle k))
  s.setSess k { x with st := x.prior, since := x.since + dt, ttl := if x.ttl = 0 then 0 else x.ttl + dt, reserved := false, waitFrom := none, revivePend := false, recompute := none, xst := 0, xask := [], xio := 0 }

/-- A whole-session move fails (R145, R192): NO_FRAMES returns it to its prior state, PAGE_LOST halts it. -/
def State.failSession (s : State) (k status : Nat) : State :=
  let x := s.sess k
  let s := s.each (s.tm.moves.filter fun m => m.k == k) fun m s => s.failMove m
  if x.prior = .free then
    let s := s.endRun k status 0 0
    (s.freeAll k).freeSlotOf k 0
  else
  let s := if status = stPageLost then (s.releaseHeld k).toState k .halted else s.backToPrior k
  if x.revivePend then
    let s := s.setSess k { s.sess k with revivePend := false }
    s.endHead k status 0
  else s.endRun k status 0 0

/-- A stale word that a whole-session move meets is a poisoned page (R172, R194): the move ends with PAGE_LOST. -/
def State.meetStale (s : State) (k : Nat) (go : State → State) : State :=
  match (s.sess k).pages.filter fun e => s.stale e.2 with
  | [] => go s
  | es => (s.each es fun e s => s.poison k e.1 0x04A []).failSession k stPageLost

/-- A MOVING session whose destinations can be reserved issues its page moves in ascending page number (R187); otherwise it waits (R189).  None is issued once a
CLOSE is pending (R148). -/
def State.issueMoves (s : State) (k : Nat) : State :=
  let x := s.sess k
  if x.st ≠ .moving ∨ x.reserved ∨ x.closePend then s
  else if x.prior = .free then
    match s.landImport k with
    | none => s.allocWait k 1
    | some s => s.setSess k { s.sess k with reserved := true, waitFrom := none }
  else s.meetStale k fun s =>
    match s.reserveAll k with
    | none => s.allocWait k (if x.target = 2 then 2 else 1)
    | some (ms, s) =>
      let s := s.setSess k { s.sess k with reserved := true, waitFrom := none, run := (s.sess k).run.map fun r => { r with moved := r.moved + ms.length } }
      s.each ms fun m s => s.addMove m

/-! ## A session's record (R204, R159) -/

/-- The pages whose frames a record holds, in ascending number: the full KV, or the slate's. -/
def State.exportPages (s : State) (k content policy : Nat) : List Nat :=
  let x := s.sess k
  let ks := s.kept k policy
  (x.pages.filter fun e => decide (e.2.tier ≠ 3) && (decide (content = 1) || ks.contains e.1)).map (·.1)

/-- How many they are. -/
def State.exportFrames (s : State) (k content policy : Nat) : Nat := (s.exportPages k content policy).length

/-- What a session's record is and where it goes: content, flow, key and byte offset; by its EXPORT's data_ref, or in the place that a drain gave it (R159). -/
def State.exportEnd (s : State) (k : Nat) : Option (Nat × Nat × Nat × Nat) :=
  let x := s.sess k
  match s.pw.drainExp.find? (fun e => e.1 == k), x.run with
  | some e, _ => some (if x.prior = .condensed then 0 else 1, s.reg Dict.dsessExportFlow 0 x.dom, s.reg Dict.dsessExportKey 0 x.dom, s.reg Dict.dsessExportOffset 0 x.dom + e.2)
  | none, some r => match s.ref r.q.dom r.q.d.dataRef r.q.d.dataLen true with
    | .region f key off => some (r.q.d.count, f, key, off)
    | _ => none
  | none, none => none

/-- The text context slot's 640 bytes (R303). -/
def ctxBytes (x : TextCtx) : Bytes :=
  fixLen 512 (x.stack.flatMap (leBytes 2)) ++ [x.held.length] ++ fixLen 3 x.held ++ [x.tail.length, 0, 0, 0] ++ fixLen 63 x.tail ++ [0] ++ leBytes 8 x.delivered ++ List.replicate 48 0

/-- An export header's payload (R204); `hdrs` is the headers of the frames that follow. -/
def State.exportHeader (s : State) (k content frames : Nat) (hdrs : Bytes) : Bytes :=
  let x := s.sess k
  [1, 1, content, x.policy] ++ leBytes 2 x.dom ++ [x.model, x.prio] ++ leBytes 8 (s.handle k) ++ leBytes 4 x.length ++ leBytes 4 x.sver ++ leBytes 4 x.pageCount ++ leBytes 4 frames ++
  leBytes 4 x.grammar ++ leBytes 4 x.stop ++ leBytes 4 x.sampling ++ leBytes 4 x.gstate ++ beBytes 32 (Config.shake256 hdrs 32) ++ beBytes 32 (s.model x.model).meas ++ ctxBytes x.ctx

/-- A record begins (R204): the pages that lie in far are to be read. -/
def State.exportBegin (s : State) (k : Nat) : State :=
  let x := s.sess k
  match s.exportEnd k with
  | none => s
  | some e => s.setSess k { x with xst := 1, xio := 0, xask := (s.exportPages k e.1 x.policy).filter fun l => match x.page? l with
    | some p => p.tier == 2
    | none => false }

/-- READs of the far pages of a record, while REMOTE slots are free. -/
def State.exportReads (s : State) (k : Nat) : State :=
  s.each (s.sess k).xask fun l s =>
    let x := s.sess k
    match x.page? l, s.takeSlot (chOf k) 2 with
    | some p, some (i, s') =>
      let e := s.farPlace x.dom p.region p.frame
      if s.flowReady e.1 then (s'.setSess k { x with xask := x.xask.filter (· != l), xio := x.xio + 1 }).bulkRead e.1 e.2.1 e.2.2 frameBytes (.exportIo k) (some (chOf k, i)) else s
    | _, _ => s

/-- A record is written (R204): its header frame, then each page's frame, encrypted as it lies in deep or far; a near page is encrypted now.  A FLUSH follows. -/
def State.exportWrite (s : State) (k content f key off : Nat) : State :=
  let x := s.sess k
  let ls := s.exportPages k content x.policy
  let r := ls.foldl (fun (a : List (Nat × Page) × State) l => match x.page? l with
    | none => a
    | some p => let w := if p.tier = 0 then a.2.written x.dom (chOf k) 2 p else (p, a.2); (a.1 ++ [(l, { w.1 with tier := 2 })], w.2)) ([], s)
  let s := r.2
  let hdrs := r.1.flatMap fun e => coveredHeader (s.pageHeader k e.1 e.2)
  let (h, s) := s.written x.dom (chOf k) 2 {}
  let hdr : Bytes := [1, 1, 2, 4, 0, 0, 0, 0] ++ leBytes 8 (s.handle k) ++ leBytes 4 0xFFFE0000 ++ leBytes 2 x.dom ++ [0, 0] ++ leBytes 8 h.ver ++ leBytes 4 h.epoch ++ beBytes 12 h.nonce ++ beBytes 16 h.writer
  let head := sealedFrame hdr (s.exportHeader k content r.1.length hdrs) [] [] [] (s.pageSeal x.dom h)
  let frames := head :: r.1.map fun e => s.pageFrame k e.1 e.2
  let s := s.each ((List.range frames.length).zip frames) fun e s => s.bulkWrite f key (off + frameBytes * e.1) e.2 (some (.exportIo k))
  (s.setSess k { s.sess k with xst := 2 }).bulkFlush f (.exportIo k)

/-- A record goes on: its far pages are read, and then it is written where its flow is READY. -/
def State.exportPump (s : State) (k : Nat) : State :=
  if (s.sess k).xst ≠ 1 then s
  else
    let s := s.exportReads k
    let x := s.sess k
    match s.exportEnd k with
    | some (content, f, key, off) => if x.xask = [] ∧ x.xio = 0 ∧ s.flowReady f then s.exportWrite k content f key off else s
    | none => s

/-- The far work that waits for slots and flows: queued moves, records, and the tests of far frames. -/
def State.farPump (s : State) : State :=
  let s := s.each ((s.ss.tbl.filter fun e => e.2.xst == 1).map (·.1)) fun k s => s.exportPump k
  s.farTests.startMoves

/-- Pages freed by a condensation, and the list with the others (R197): with policy TOKENS the list goes, otherwise the words of freed pages are
set to absent. -/
def State.condense (s : State) (k : Nat) : Nat × State :=
  let x := s.sess k
  let ks := s.kept k x.policy
  let gone := x.pages.filter fun e => !ks.contains e.1 && decide (e.2.tier ≠ 3)
  let s := s.each gone fun e s => (s.freeHome x.dom e.2).invalidate k e.1
  let x := s.sess k
  let pages : Tbl Page :=
    if x.policy = 0 then x.pages.filter fun e => ks.contains e.1
    else x.pages.map fun e => if ks.contains e.1 then e else (e.1, { tier := 3 })
  (gone.countP fun e => isKv e.1, s.setSess k { x with pages := pages, slate := true })

/-- The time to live a state starts with: its domain's setting, 0 for none (R196, R197, R201). -/
def State.ttlFor (s : State) (d : Nat) (e : Entry) : Nat := let t := s.reg e 0 d; if t = 0 then 0 else s.pk.current + t

/-- SESSION_MOVE_COMPLETE's effect (R145): the session enters its target state and the command that asked for the move completes. -/
def State.finishMove (s : State) (k : Nat) : State :=
  let x := s.sess k
  let up (s : State) : State := let x := s.sess k; s.setSess k { x with sver := (x.sver + 1) % 2 ^ 32, reserved := false }
  let moved := (x.run.map (·.moved)).getD 0
  if x.lost then s.failSession k stPageLost
  else if x.target = 0 then
    let s := (up s).toState k .parkedDeep
    let s := s.setSess k { s.sess k with ttl := s.pk.current + s.reg Dict.dtierDeepTtl 0 x.dom }
    (s.ev 0x04C (some (chOf k)) 1 (s.handle k) (some x.dom) (some (s.handle k))).endRun k stDone moved 0
  else if x.target = 1 then
    let (n, s) := (up s).condense k
    let s := s.toState k .condensed
    let s := s.setSess k { s.sess k with ttl := s.ttlFor x.dom Dict.dtierSlateTtl }
    let s := s.ev 0x04D (some (chOf k)) 1 (s.handle k) (some x.dom) (some (s.handle k))
    s.endRun k stDone (if (x.run.map (·.q.d.opcode)).getD 0 = 0x08 then moved else n) 0
  else if x.target = 2 then
    let s := (up s).toState k .parkedFar
    let s := s.setSess k { s.sess k with ttl := s.ttlFor x.dom Dict.dtierFarTtl }
    (s.ev 0x04C (some (chOf k)) 1 (s.handle k) (some x.dom) (some (s.handle k))).endRun k stDone moved 0
  else
    -- leaving: an EXPORT's record is placed, and the slot becomes FREE (R204); where a transfer of it failed, the session stays
    if x.xst = 4 then s.failSession k stAbort
    else match x.run with
    | some r =>
      let n := s.exportFrames k r.q.d.count x.policy
      let s := s.endRun k stDone 0 ((1 + n) * frameBytes)
      (s.freeAll k).freeSlotOf k flStale
    | none => s

/-! ## Revival (R202) -/

/-- A token-only slate's page list is rebuilt: every KV page of its blocks becomes absent, the draft's among them (R202, step 1; R276). -/
def State.rebuildList (s : State) (k : Nat) : State :=
  let x := s.sess k
  let m := s.model x.model
  let draft := match s.draftOf x.model with
    | some d => let t := (s.model d).total; (List.range ((x.draftLen + m.block - 1) / Nat.max 1 m.block * t)).map (m.draftBase + ·)
    | none => []
  let missing := (List.range (x.blocks m.block * m.total) ++ draft).filter fun l => (x.page? l).isNone
  s.setSess k { x with pages := missing.foldl (fun t l => Tbl.insert t l { tier := 3 }) x.pages, draftLen := if draft = [] then 0 else x.draftLen }

/-- Reserves near frames for every page that is not near (R202, step 1): moves for the present ones, frames for the absent ones, and the list pages that
are missing. -/
def State.reserveRevival (s : State) (k : Nat) : Option (List Move × State) :=
  let x := s.sess k
  let lists := ((x.pages.map fun e => leafLpn (e.1 / 8192)).filter fun l => decide (l < rootLpn)).eraseDups ++ [rootLpn]
  let need := (x.pages.map (·.1)).filter fun l => decide (l < 0x4000000)
  let lists := (lists.filter fun l => need.any fun p => leafLpn (p / 8192) == l || l == rootLpn).filter fun l => (x.page? l).isNone
  let s1 := lists.foldl (fun o l => o.bind fun s => s.newPage k l) (some s)
  let rev := (x.pages.filter fun e => decide (e.2.tier ≠ 0)).map (·.1)
  rev.foldl (fun o l => o.bind fun a =>
    match (a.2.sess k).page? l with
    | none => some a
    | some p =>
      if p.held then some a
      else (a.2.placeNear k l).map fun r =>
        if p.tier = 3 then (a.1, r.2.2.setPage k l { p with held := true, ch := r.1, frame := r.2.1, inc := r.2.2.incOf r.1 })
        else (a.1 ++ [{ k := k, lpn := l, tier := 0, ch := r.1, frame := r.2.1, region := 0, why := 0, started := false }], r.2.2))
    (s1.map fun s => ([], s))

/-- The first token of the lowest absent block, and the end of what a revival recomputes: the kept tail's first token (R202, step 3). -/
def State.recomputeRange (s : State) (k : Nat) : Option (Nat × Nat) :=
  let x := s.sess k
  let m := s.model x.model
  let absent := (x.pages.filter fun e => isKv e.1 && decide (e.2.tier = 3) && decide (e.1 < m.draftBase)).map fun e => s.blockOf x e.1
  match absent with
  | [] => none
  | b :: bs => some (m.block * bs.foldl Nat.min b, Nat.min x.kvLen (m.block * (bs.foldl Nat.max b + 1)))

/-- A REVIVING session reserves its frames and issues its moves, or waits (R202, R189); it waits for the switch of a page that was moving already (R193), and
issues nothing once a CLOSE is pending (R148). -/
def State.issueRevival (s : State) (k : Nat) : State :=
  let x := s.sess k
  if x.st ≠ .reviving ∨ x.reserved ∨ x.closePend ∨ (x.pages.any fun e => e.2.moving) then s
  else s.meetStale k fun s =>
    let s0 := s.when (x.slate && decide (x.policy = 0)) fun s => s.rebuildList k
    match s0.reserveRevival k with
    | none => s.allocWait k 0
    | some (ms, s) =>
      let r := s.recomputeRange k
      let n := (s.sess k).pageCount
      let s := s.setSess k { s.sess k with reserved := true, waitFrom := none, recompute := r.map (·.1), recompTo := (r.map (·.2)).getD 0, run := (s.sess k).run.map fun y => { y with moved := n } }
      s.each ms fun m s => s.addMove m

/-- A revival begins (R145). -/
def State.beginRevival (s : State) (k : Nat) : State :=
  let s := s.dropDraft k
  let x := s.sess k
  let s := s.setSess k { x with prior := x.st, pausedAt := s.pk.current, reserved := false, waitFrom := none }
  let since := x.since
  let s := s.toState k .reviving
  (s.setSess k { s.sess k with since := since }).issueRevival k

/-- REVIVAL_COMPLETE's effect (R202, R145). -/
def State.finishRevival (s : State) (k : Nat) : State :=
  let x := s.sess k
  let n := (x.run.map (·.moved)).getD 0
  if x.lost then s.failSession k stPageLost
  else
    let s := s.setSess k { x with sver := (x.sver + 1) % 2 ^ 32, reserved := false, slate := false, revivePend := false }
    let s := (s.toRest k).ev 0x04E (some (chOf k)) 1 (s.handle k) (some x.dom) (some (s.handle k))
    s.endRun k stDone n 0

/-! ## Closing (R145, R148) -/

/-- Bytes a running GENERATE has delivered, or input bytes that committed chunks consumed (R156, R61). -/
def Sess.outLen (x : Sess) : Nat :=
  match x.run with
  | some r => if r.q.d.opcode = 0x03 then x.ctx.delivered else r.consumed
  | none => 0

/-- The progress a command that ends early reports. -/
def Sess.doneSoFar (x : Sess) : Nat :=
  match x.run with
  | some r => if r.q.d.opcode = 0x03 then x.progress else if r.q.d.opcode = 0x01 ∨ r.q.d.opcode = 0x02 then r.appended else r.moved
  | none => 0

/-- Held bytes go out when a generation ends (R304). -/
def State.flushHeld (s : State) (k : Nat) : State :=
  let x := s.sess k
  match x.run with
  | some r =>
    if r.q.d.opcode = 0x03 ∧ x.ctx.held ≠ [] then
      let data := x.ctx.held.take (r.q.d.dataLen - x.ctx.delivered)
      let s := s.output r.q.dom r.q.d.dataRef r.q.d.dataLen x.ctx.delivered data (some (.sessIn k r.q.d.seq))
      s.setSess k { x with ctx := { x.ctx with held := [], delivered := x.ctx.delivered + data.length } }
    else s
  | none => s

/-- A running command ends early with a status: what it has done is reported (R61, R145, R156). -/
def State.endEarly (s : State) (k status : Nat) : State :=
  let s := s.flushHeld k
  let x := s.sess k
  s.endRun k status x.doneSoFar x.outLen

/-- CLOSE at a step boundary (R145, R148): the running command ends with DONE_PARTIAL, the ring's descriptors with BAD_STATE, and the session enters
CLOSING; a session being revived abandons its revival. -/
def State.beginClose (s : State) (k : Nat) (q : QDesc) : State :=
  let s := s.endEarly k stPartial
  let x := s.sess k
  let s := s.setSess k { x with ring := [], head := (x.head + x.ring.length) % 65536 }
  let s := s.each ((List.range x.ring.length).zip x.ring) fun e s => s.endDesc e.2 (if x.revivePend && e.1 == 0 then stPartial else stBad) 0 0 0
  let s := (s.releaseHeld k).setSess k { (s.releaseHeld k).sess k with run := some { q := q, moved := x.pageCount }, deadline := q.d.deadline % 2 ^ 48, revivePend := false, recompute := none, xst := 0, xask := [], xio := 0 }
  s.toState k .closing

/-- CLOSING_COMPLETE's effect: pages and slate are freed, the generation rises and the slot is FREE (R145). -/
def State.finishClose (s : State) (k : Nat) : State :=
  let x := s.sess k
  let s := s.freeAll k
  let s := match x.run with
    | some r => s.endRun k stDone r.moved 0
    | none => s
  s.freeSlotOf k 0

/-! ## The entry as bytes (R143) -/

/-- `tier` of an entry (R143). -/
def Sess.tier (x : Sess) : Nat :=
  match x.page? rootLpn with
  | some p => p.tier
  | none => if x.st = .parkedFar then 2 else if x.slate then 3 else 0

/-- `ttl_pick` as the entry shows it: 0 outside the states that have one (R143). -/
def Sess.ttlShown (x : Sess) : Nat :=
  match x.st with
  | .admitted => x.ttl
  | .toolwait => x.ttl
  | .parkedDeep => x.ttl
  | .condensed => x.ttl
  | .parkedFar => x.ttl
  | _ => 0

/-- The location word of the slate's token page 0 (R197): zero where there is no slate. -/
def Sess.slateWord (x : Sess) : Nat := if x.slate then x.wordAt tokenLpn else 0

/-- Where a MOVING session goes, as its entry says (R143). -/
def Sess.moveTarget (x : Sess) : Nat := if x.st = .moving then x.target % 4 else 0

/-- The session entry's 128 bytes (R143).  A channel's rings follow its entries in near memory (R163, R175; log 166). -/
def State.entryBytes (s : State) (k : Nat) : Bytes :=
  let x := s.sess k
  let flags := 128 * b2n (pins x.st) + 64 * b2n x.revivePend + 16 * x.moveTarget + 8 * b2n x.lost + 4 * b2n x.closePend + b2n x.generated
  [1, 1, x.st.code, flags] ++ leBytes 2 x.dom ++ leBytes 2 (s.genOf k) ++ [x.prio, x.model, x.tier, x.prior.code] ++ leBytes 4 x.length ++ leBytes 8 (x.deadline % 2 ^ 48) ++
  leBytes 8 (x.ttlShown % 2 ^ 48) ++ leBytes 8 (x.wordAt rootLpn) ++ leBytes 4 x.pageCount ++ leBytes 4 x.sver ++ leBytes 4 x.grammar ++ leBytes 4 x.stop ++ leBytes 4 x.sampling ++
  leBytes 4 x.gstate ++ leBytes 8 (33554432 + 1024 * (k % 262144)) ++ leBytes 2 x.head ++ leBytes 2 x.tail ++ leBytes 2 ((x.run.map (·.q.d.seq)).getD 0) ++ [0, 0] ++
  leBytes 4 x.remaining ++ leBytes 4 x.progress ++ leBytes 8 (x.since % 2 ^ 48) ++ leBytes 8 x.slateWord ++ leBytes 8 x.charged ++ List.replicate 16 0

end Sys2Proof.Machine
end

