-- ==== Sys2Proof/Machine/SecOps.lean ====
section
/-! DEFINITION. The security element's operations (spec/04): domain keys, signature indices, certificates and capsules. -/

namespace Sys2Proof.Machine

open Sys2Proof

/-- The domain holds sessions, slates, models or collections on the device (R123, R128). -/
def State.domBusy (s : State) (d : Nat) : Bool :=
  (s.ss.tbl.any fun e => decide (e.2.st ≠ .free) && decide (e.2.dom = d)) ||
  (s.fb.models.any fun e => decide (e.2.st ≠ 0) && decide (e.2.dom = d)) ||
  (s.se.colls.any fun e => decide (e.2.st ≠ 0) && decide (e.2.dom = d))

/-! ## Signature indices (R110-R113) -/

/-- `sec.xmss_remaining`. -/
def State.sigLeft (s : State) : Nat := 2 ^ 40 - s.sc.n

/-- The remaining indices have fallen from `before` (R113): NOTIFY 0x0501 where that takes them below `sec.xmss_low_water` (log 163). -/
def State.lowCheck (s : State) (before : Nat) : State :=
  s.when (decide (s.reg Dict.secXmssLowWater ≤ before) && decide (s.sigLeft < s.reg Dict.secXmssLowWater)) fun s => s.notify 0x0501 (beBytes 8 s.sigLeft)

/-- Takes the next signature index: none at the reserved end (R110).  Fewer than 256 below E starts a reservation, and a fall below the low-water mark is
reported (R113). -/
def takeIndex (s : State) : Option (Nat × State) :=
  if s.nv.sigEnd ≤ s.sc.n then none
  else
    let n := s.sc.n
    some (n, State.lowCheck { s with sc := { s.sc with n := n + 1, reserving := s.sc.reserving || decide (s.nv.sigEnd < n + 1 + 256) } } s.sigLeft)

/-- The close record (R111). -/
def closeIndex (s : State) : State := ({ s with nv := { s.nv with sigClose := some (s.nv.sigEnd, s.sc.n) } }).store

/-! ## Measurements and certificates (R114, R115) -/

/-- A digest over digests sorted in ascending byte order (R115, kinds 4 to 6). -/
def sortedDigest (l : List Nat) : Nat := Config.shake256 ((sortBy (fun a b => decide (a < b)) l).flatMap (beBytes 32)) 32

/-- The domains configured on the device: those with keys, or with a value of the per-domain window stored. -/
def State.configured (s : State) : List Nat :=
  (List.range 4096).filter fun d => s.holdsKeys d || s.regs.any fun e => decide (0x210000 ≤ e.1 % 2 ^ 40 / 4096) && decide (e.1 % 2 ^ 40 / 4096 < 0x300000) && decide (e.1 % 4096 = d)

/-- The security parameters of the kind-7 measurement (R115). -/
def State.params (s : State) : List Nat :=
  [b2n s.nv.claimed] ++ ([Dict.roleSecretObserver, Dict.roleSecretOperator, Dict.roleSecretFabric, Dict.roleSecretCustodian].map fun e => b2n (decide (s.reg e ≠ 0))) ++
  [s.reg Dict.pickMsgAuth, s.nv.fusedSvn, (s.sc.running.getD 0)] ++
  (s.configured.flatMap fun d => [d, s.reg Dict.dsecClass 0 d, s.reg Dict.dsecTileGroups 0 d, b2n (s.protects d)]) ++
  ((List.range 4).flatMap fun c => [s.reg Dict.sealDomain c, (s.fn (.seal c)).st.code])

/-- `sec.params_digest`. -/
def State.paramsDigest (s : State) : Nat := Config.paramsDigest s.params

/-- The running firmware slot's header. -/
def State.fwSlot (s : State) (i : Nat) : Option FwSlot := if i = 0 then s.nv.fwA else s.nv.fwB

/-- The measurements of a certificate, in ascending order of kind and slot (R115): kind, slot, digest.  An image has its entries from the acceptance of its load
(R231, step 6) until its slot is EMPTY. -/
def State.measurements (s : State) : List (Nat × Nat × Nat) :=
  let hdr := ((s.sc.running.bind fun i => s.fwSlot i).map (·.hdr)).getD 0
  let models := s.fb.models.filter fun e => decide (e.2.st ≠ 0) && e.2.measured
  [(1, 255, Config.bootRomDigest), (2, 255, Config.shake256 (beBytes 64 hdr) 32)] ++
  (models.map fun e => (3, e.1, e.2.meas)) ++ (models.map fun e => (4, e.1, e.2.patMeas)) ++
  (if s.tx.vocabs = [] then [] else [(5, 255, sortedDigest (s.tx.vocabs.map (·.2.v.digest)))]) ++
  (if s.tx.grammars = [] then [] else [(6, 255, sortedDigest (s.tx.grammars.map (·.2.1.digest)))]) ++
  [(7, 255, s.paramsDigest)]

/-- The certificate that a signature of index n binds (R114-R116): purpose 1 management, 2 a domain's key. -/
def State.certFor (s : State) (n nonce purpose d keyNo : Nat) : Cert :=
  { sig := n, nonce := nonce, pick := s.pk.current, pickState := (match s.pk.st with | .unset => 0 | .synced => 1 | .holdover => 2 | .lost => 3), hold := s.pk.hold, device := s.device, purpose := purpose, domain := d, cls := s.reg Dict.dsecClass 0 d, meas := s.measurements, keyNo := keyNo }

/-- A new ML-KEM key pair: its number (R76, R116). -/
def State.newKey (s : State) : Nat × State := (s.wr.keys + 1, { s with wr := { s.wr with keys := s.wr.keys + 1 } })

/-! ## Domain keys (R116-R123) -/

/-- A purpose-2 key is destroyed (R116, R117). -/
def dropPendingKey (d : Nat) (s : State) : State := s.setDomSec d { s.domSec d with attest := 0, keyNo := 0 }

/-- Pages of a domain stored under an epoch before the accepted one (R120). -/
def State.prevPages (s : State) (d : Nat) : Nat :=
  let e := (s.domSec d).epoch
  sumOf (fun x => if x.2.dom = d then x.2.pages.countP fun p => (p.2.tier == 1 || p.2.tier == 2) && p.2.epoch != e else 0) s.ss.tbl

/-- The capsule's outcome for a domain (R119, R120): the root secret and epoch it brings, a refusal with STATE (false) or with CONTENT. -/
def State.openCapsule (s : State) (d : Nat) (b : Bytes) : Option (Nat × Nat) × Bool :=
  let ds := s.domSec d
  let epoch := be b 4 4
  let form := decide (b.length = 1624) && decide (be b 1 1 ≤ 1) && decide (1 ≤ epoch)
  match ds.cert with
  | none => (none, false)
  | some c =>
    let ss := Config.mlkemDecaps ds.keyNo (be b 8 1568)
    let key := Config.shake256 (label "KB480-WRAP" ++ beBytes 32 ss ++ beBytes 32 (Config.shake256 c.der 32)) 32
    let aad := b.take 8 ++ beBytes 2 d
    match (if form && decide (ds.keyNo ≠ 0) then Config.gcmOpen key 0 aad (be b 1576 32) (be b 1608 16) else none) with
    | none => (none, false)
    | some root =>
      if epoch = ds.epoch + 1 then (if s.prevPages d = 0 then (some (root, epoch), false) else (none, true))
      else if epoch = ds.epoch ∧ root = ds.root then (some (root, epoch), false) else (none, false)

/-- A capsule's write (R116, R120, R121): the store gets the root secret wrapped under the DUK; the pending key is destroyed whether it succeeds or fails.  0 accepted, 1 CONTENT, 2 STATE. -/
def State.applyCapsule (s : State) (d : Nat) (b : Bytes) : Nat × State :=
  let ds := s.domSec d
  let c := ((ds.cert.map fun c => Config.shake256 c.der 32)).getD 0
  let r := s.openCapsule d b
  let s := if ds.keyNo = 0 then s else dropPendingKey d s
  match r with
  | (none, st) => (if st then 2 else 1, (s.inc Dict.secCapsuleRejectCount).ev 0x243 none 1 d (some d))
  | (some (root, epoch), _) =>
    let ds := s.domSec d
    let confirm := Config.shake256 (label "KB480-CONFIRM" ++ beBytes 32 root ++ beBytes 2 d ++ beBytes 4 epoch ++ beBytes 32 c) 32
    let ds := { ds with root := root, epoch := epoch, confirm := confirm, prevRoot := if epoch = ds.epoch then ds.prevRoot else if ds.epoch = 0 then none else some ds.root }
    let s := s.setDomSec d ds
    let s := ({ s with nv := { s.nv with keys := Tbl.insert s.nv.keys d (Config.dukWrap root, epoch) } }).store
    (0, (s.ev 0x242 none 1 d (some d)).notify 0x0503 (beBytes 2 d ++ beBytes 4 epoch))

/-- At an action point every domain's new epoch takes effect, and the overlap of the previous one begins (R122). -/
def newEpochs (s : State) : State :=
  s.each s.sc.doms fun e s =>
    let ds := s.domSec e.1
    if ds.active = ds.epoch then s
    else s.setDomSec e.1 { ds with active := ds.epoch, prevUntil := if ds.prevRoot.isSome then some (s.pk.current + s.reg Dict.secEpochOverlap) else none }

/-- The epoch parity selects a key whose traffic the device accepts (R122). -/
def State.parityOk (s : State) (d parity : Nat) : Bool :=
  let x := s.domSec d
  decide (parity = x.active % 2) ||
  (match x.prevUntil with
    | some u => x.prevRoot.isSome && decide (s.pk.current < u)
    | none => false)

/-- KEY_ERASE's effect (R123): every key of the domain on the device is destroyed. -/
def eraseKeys (d : Nat) (s : State) : State :=
  let s := s.setDomSec d {}
  ({ s with nv := { s.nv with keys := Tbl.erase s.nv.keys d } }).store

end Sys2Proof.Machine
end

