-- ==== Sys2Proof/Machine/Ctl.lean ====
section
/-! DEFINITION. Domain control rings (spec/05, R150, R161): starting a command, and the checks all of them share. -/

namespace Sys2Proof.Machine

open Sys2Proof

/-- Commands that complete with CHECKPOINT_HOLD in a checkpoint drain (R449, R343, R366). -/
def drainHolds (op : Nat) : Bool := [0x40, 0x41, 0x42, 0x43, 0x48, 0x49, 0x4A, 0x4B, 0x50, 0x58, 0x59].contains op

/-- The head of a domain's control ring is of this opcode and may start (R150): a load-class command alone, others with at most 63 running; a finished one whose record has no place keeps
its position (R157).
STOPSET_DEFINE and SAMPLING_DEFINE wait out a checkpoint drain (R449). -/
def State.domHead (s : State) (d op : Nat) : Option QDesc :=
  let g := s.dring d
  match g.waiting with
  | [] => none
  | q :: _ =>
    if q.d.opcode ≠ op ∨ 64 ≤ g.running.length + g.kept.length ∨ (loadClass op = true ∧ (g.running ≠ [] ∨ g.kept ≠ [])) ∨
        (g.running.any fun r => loadClass r.q.d.opcode) = true ∨ (g.kept.any fun r => r.2) = true ∨
        (s.ck.drain = true ∧ (op = 0x44 ∨ op = 0x45)) then none
    else some q

/-- Starts the command at the head of a domain's control ring.  A late one ends with DEADLINE_MISSED (R156), one that admits work with PICK_LOST
in that state (R61), one that a checkpoint drain holds with CHECKPOINT_HOLD (R449); otherwise it runs. -/
def State.startDom (s : State) (d op : Nat) (go : DRun → State → State) : State :=
  match s.domHead d op with
  | none => s
  | some q =>
    let g := s.dring d
    let r : DRun := { id := g.nextId, q := q, since := s.pk.current }
    let s := s.setDring d { g with waiting := g.waiting.drop 1, running := g.running ++ [r], nextId := g.nextId + 1 }
    let s := s.ev 0x082 none 1 0 (some d)
    if s.isLate q.d.deadline then s.endDrun d r.id stDeadline 0 0
    else if s.pk.st = .lost ∧ admits op = true then s.endDrun d r.id stPickLost 0 0
    else if s.ck.drain = true ∧ drainHolds op = true then s.endDrun d r.id stHold 0 0
    else go r s

/-- Descriptor fields that a control command must leave zero: session, grammar, stop_set and sampling (spec/05). -/
def descBare (d : Desc) : Bool := decide (d.session = 0) && decide (d.grammar = 0) && decide (d.stopSet = 0) && decide (d.sampling = 0)

/-- What a control command's input is (R149, R397, R401): a window's bytes, after which the window is revoked; a region's bytes as the transfer brings
them (`rec`; none where it fails); or the status with which the command ends. -/
def State.domInput (s : State) (q : QDesc) (rec : Option Bytes) : (Bytes × Nat) × State :=
  if q.d.dataLen = 0 then (([], stDone), s)
  else
    match s.ref q.dom q.d.dataRef q.d.dataLen false with
    | .fail st => (([], st), s)
    | .wait => (([], stAbort), s)
    | .window i gen =>
      let w := s.win i
      if !w.isOpen || w.revoked || decide (w.gen ≠ gen) then (([], stAbort), s)
      else if w.dom ≠ q.dom then (([], stDenied), s)
      else if w.size < q.d.dataLen then (([], stBad), s)
      else (((List.range q.d.dataLen).map w.read, stDone), s.revoke i)
    | .region _ _ _ =>
      match rec with
      | some b => if b.length = q.d.dataLen then ((b, stDone), s) else (([], stAbort), s)
      | none => (([], stAbort), s)

/-- Starts a control command that reads its input.  One whose flow is not READY waits in the ring (R405). -/
def State.startDomIn (s : State) (d op : Nat) (rec : Option Bytes) (go : DRun → Bytes → State → State) : State :=
  match s.domHead d op with
  | none => s
  | some q =>
    if q.d.dataLen ≠ 0 ∧ s.ref q.dom q.d.dataRef q.d.dataLen false = .wait then s
    else
      s.startDom d op fun r s =>
        let (i, s) := s.domInput r.q rec
        if i.2 = stDone then go r i.1 s else s.endDrun d r.id i.2 0 0

end Sys2Proof.Machine
end

