-- ==== Sys2Proof/Machine/Dnx.lean ====
section
/-! DEFINITION. Dernyx (spec/14): links, credits, retry and replay, routes, members, and the sending and acceptance of messages. -/

namespace Sys2Proof.Machine

open Sys2Proof

/-! ## Members (R438) -/

/-- A member index's state. -/
def State.peer (s : State) (i : Nat) : Peer := Tbl.get {} s.dx.peers i

/-- Replaces it. -/
def State.setPeer (s : State) (i : Nat) (p : Peer) : State := { s with dx := { s.dx with peers := Tbl.put {} s.dx.peers i p } }

/-- The expected identity digest of a device index: entry i of `warp.member_table`. -/
def State.memberDigest (s : State) (i : Nat) : Nat := beField 2048 (s.reg Dict.warpMemberTable) (32 * i) 32

/-- `warp.member_state` of an index: 0 ABSENT, 1 UNREACHED, 2 PRESENT, 3 LOST; the own index is PRESENT while its entry equals the own digest. -/
def State.peerState (s : State) (i : Nat) : Nat :=
  if s.memberDigest i = 0 then 0
  else if i = s.device then (if s.memberDigest i = ownDigest then 2 else 1)
  else Nat.max 1 (s.peer i).st

/-- A device is present in the warp. -/
def State.present (s : State) (i : Nat) : Bool := decide (s.peerState i = 2)

/-- The devices of the warp as this one sees it: itself, and those PRESENT. -/
def State.warpDevices (s : State) : List Nat := (List.range 64).filter fun i => i == s.device || s.present i

/-- Something that originates from a device has arrived (R438): an UNREACHED device becomes PRESENT, and a PRESENT one was heard. -/
def State.heardFrom (s : State) (i : Nat) : State :=
  if i = s.device ∨ s.memberDigest i = 0 ∨ (s.peer i).st = 3 then s
  else s.setPeer i { s.peer i with st := 2, heard := s.now }

/-! ## Links (R411-R421) -/

/-- A link. -/
def State.link (s : State) (n : Nat) : Link := Tbl.get {} s.dx.links n

/-- Replaces a link. -/
def State.setLink (s : State) (n : Nat) (l : Link) : State := { s with dx := { s.dx with links := Tbl.put {} s.dx.links n l } }

/-- Link n is ON. -/
def State.linkOn (s : State) (n : Nat) : Bool := s.isOn (.link n)

/-- Link n carries flits: it is ON, or finishes its messages in STOPPING (R411). -/
def State.linkLive (s : State) (n : Nat) : Bool := decide ((s.fn (.link n)).st = .on) || decide ((s.fn (.link n)).st = .stopping)

/-- Receive buffer of a VC and class, which training grants as credits (R421). -/
def grant (vc : Nat) : Nat := if vc = 3 then 16 else if vc = 2 then 256 else 32

/-- Credits left for a VC and class (R421). -/
def Link.credit (l : Link) (vc cls : Nat) : Nat :=
  grant vc - (Tbl.get 0 l.used (4 * vc + cls) + 4096 - Tbl.get 0 l.ret (4 * vc + cls)) % 4096

/-- The flits that wait in a VC. -/
def Link.queue (l : Link) (vc : Nat) : List TxFlit := Tbl.get [] l.q vc

/-- The flit that a VC could send now: its queue's first, where its class has credit. -/
def Link.ready (l : Link) (vc : Nat) : Option TxFlit :=
  match l.queue vc with
  | [] => none
  | f :: _ => if 0 < l.credit vc f.hops then some f else none

/-- The VC that sends next (R417): control, then response, then request and bulk, one request flit for every four bulk flits. -/
def Link.next (l : Link) : Option (Nat × TxFlit) :=
  match l.ready 3, l.ready 1, l.ready 0, l.ready 2 with
  | some f, _, _, _ => some (3, f)
  | none, some f, _, _ => some (1, f)
  | none, none, some r, some b => if l.bulkRun < 4 then some (2, b) else some (0, r)
  | none, none, some r, none => some (0, r)
  | none, none, none, some b => some (2, b)
  | none, none, none, none => none

/-- Sends one flit, where the replay buffer of 512 has room (R419). -/
def State.sendFlit (s : State) (n : Nat) : Option State :=
  let l := s.link n
  if s.linkLive n = false ∨ 512 ≤ l.replay.length then none
  else
    l.next.map fun r =>
      let (vc, f) := r
      let key := 4 * vc + f.hops
      let l := { l with
        txNext := (l.txNext + 1) % 4096, replay := l.replay ++ [(l.txNext, f)], q := Tbl.put [] l.q vc ((l.queue vc).drop 1)
        bulkRun := if vc = 2 then Nat.min 4 (l.bulkRun + 1) else if vc = 0 then 0 else l.bulkRun
        used := Tbl.put 0 l.used key ((Tbl.get 0 l.used key + 1) % 4096), since := if l.since.isSome then l.since else some s.now }
      ((s.setLink n l).send (.flit n ((l.txNext + 4095) % 4096) f)).ev 0x1C0 none 1 n

/-- Sends while a flit can go (fuel: the flits that wait). -/
def State.pumpSome : Nat → Nat → State → State
  | 0, _, s => s
  | k + 1, n, s => match s.sendFlit n with
    | none => s
    | some s => State.pumpSome k n s

/-- Sends every flit of a link that can go. -/
def State.pumpLink (s : State) (n : Nat) : State := State.pumpSome (sumOf (fun e => e.2.length) (s.link n).q) n s

/-- Queues flits on a link's VC. -/
def State.queueFlits (s : State) (n vc : Nat) (fs : List TxFlit) : State :=
  let l := s.link n
  (s.setLink n { l with q := Tbl.put [] l.q vc (l.queue vc ++ fs) }).pumpLink n

/-- An acknowledgement (R419): the flits up to it leave the replay buffer; one that makes progress restarts the timer. -/
def State.ackLink (s : State) (n ack : Nat) : State :=
  let l := s.link n
  match findIdx? (fun e => e.1 == ack) l.replay with
  | none => s
  | some i =>
    let rest := l.replay.drop (i + 1)
    (s.setLink n { l with replay := rest, idle := 0, since := if rest = [] then none else some s.now }).pumpLink n

/-- A replay (R419): every flit of the buffer, byte for byte. -/
def State.replayLink (s : State) (n : Nat) : State :=
  let l := s.link n
  if l.replay = [] then s
  else
    let s := s.setLink n { l with replays := (l.replays + 1) % 2 ^ 32, idle := l.idle + 1, since := some s.now }
    let s := (s.inc Dict.dnxReplayCount).ev 0x1C5 none 1 n
    s.each l.replay fun e s => s.send (.flit n e.1 e.2)

/-- A received flit's place in the buffer is free again (R421). -/
def State.returnCredit (s : State) (n vc cls : Nat) : State :=
  let l := s.link n
  let key := 4 * vc + cls
  let g := (Tbl.get 0 l.given key + 1) % 4096
  (s.setLink n { l with given := Tbl.put 0 l.given key g }).send (.trailer n ((l.rxNext + 4095) % 4096) false vc cls g)

/-- A NAK (R418): one until the expected sequence arrives. -/
def State.nakLink (s : State) (n : Nat) : State :=
  let l := s.link n
  if l.nakSent then s
  else (s.setLink n { l with nakSent := true }).send (.trailer n ((l.rxNext + 4095) % 4096) true 0 0 (Tbl.get 0 l.given 0))

/-! ## Routes (R427-R429) -/

/-- Set i of the route to a device: links, weight, filter. -/
def State.linkSet (s : State) (dst i : Nat) : Nat × Nat × Nat :=
  let v := s.reg Dict.warpRoute dst
  (beField 64 v (16 * i) 8, beField 64 v (16 * i + 8) 1, beField 64 v (16 * i + 10) 2)

/-- Link n may carry a message (R134): one of a sealed channel only its domain's, and for filter 0xFFFF none (R442). -/
def State.linkAdmits (s : State) (n filter : Nat) (dom : Option Nat) : Bool :=
  !s.sealed (n / 12) || (decide (filter ≠ 0xFFFF) && decide (dom = some (s.reg Dict.sealDomain (n / 12))))

/-- The links of a set that a message may use now: those in ON that may carry it. -/
def State.liveLinks (s : State) (links filter : Nat) (dom : Option Nat) : List Nat :=
  (List.range 48).filter fun n => bit links n && s.linkOn n && s.linkAdmits n filter dom

/-- A filter admits a message of a domain, or a control message (R429). -/
def State.admits (s : State) (filter : Nat) (dom : Option Nat) : Bool :=
  match dom with
  | none => decide (filter = 0xFFFF)
  | some d => decide (filter = d) || (decide (filter = 0xFFFF) && decide (s.reg Dict.dsecClass 0 d ≠ 2))

/-- The least common multiple of 1 to 48: effective weights are whole numbers in its units. -/
def weightUnit : Nat := 32 * 27 * 25 * 49 * 11 * 13 * 17 * 19 * 23 * 29 * 31 * 37 * 41 * 43 * 47

/-- The usable sets of a route, with effective weight and live links (R429). -/
def State.usableSets (s : State) (dst : Nat) (dom : Option Nat) : List (Nat × Nat × List Nat) :=
  (List.range 4).filterMap fun i =>
    let (links, w, f) := s.linkSet dst i
    let live := s.liveLinks links f dom
    let named := (List.range 48).countP fun n => bit links n
    if 0 < w ∧ live ≠ [] ∧ s.admits f dom then some (i, w * live.length * weightUnit / Nat.max 1 named, live) else none

/-- The link for a message (R429): the set by smooth weighted round robin, the link within it by round robin; none while no set is usable. -/
def State.route (s : State) (dst : Nat) (dom : Option Nat) : Option (Nat × State) :=
  let us := s.usableSets dst dom
  match us with
  | [] => none
  | u0 :: _ =>
    let total := sumOf (fun u => u.2.1) us
    let cur (u : Nat × Nat × List Nat) : Int := Tbl.get 0 s.dx.setRr (4 * dst + u.1) + u.2.1
    let best := us.foldl (fun b u => if cur b < cur u then u else b) u0
    let upd (t : Tbl Int) (u : Nat × Nat × List Nat) : Tbl Int := Tbl.put 0 t (4 * dst + u.1) (if u.1 = best.1 then cur u - total else cur u)
    let rr := us.foldl upd s.dx.setRr
    let last := Tbl.get 0 s.dx.linkRr (4 * dst + best.1)
    let n := (best.2.2.find? fun n => decide (last < n + 1)).getD (best.2.2.headD 0)
    some (n, { s with dx := { s.dx with setRr := rr, linkRr := Tbl.put 0 s.dx.linkRr (4 * dst + best.1) (n + 1) } })

/-! ## Messages (R422, R423, R425) -/

/-- The VC of a message type (R423). -/
def vcOf (typ : Nat) : Nat :=
  if typ = 0x01 then 3 else if typ = 0x02 ∨ typ = 0x04 ∨ typ = 0x07 ∨ typ = 0x0B then 0
  else if typ = 0x06 ∨ typ = 0x09 ∨ typ = 0x0C then 2 else 1

/-- Whether a type is protected (R423). -/
def protOf (typ : Nat) : Bool := decide (2 ≤ typ) && decide (typ ≠ 6)

/-- Body bytes of a message (R423); bodies whose layout the spec does not give count what their fields need (log 40). -/
def DBody.len : DBody → Nat
  | .none => 0
  | .ctl _ => 0
  | .descs ds => 64 * ds.length
  | .summary _ => 64
  | .page _ => 73728
  | .entry _ => 832
  | .act rs => 16 * rs.length
  | .subq _ => 64
  | .part p => 64 + 8 * p.elems.length

/-- The flits of a message (R423): a control message is one flit. -/
def DMsg.flits (m : DMsg) (src : Nat) : List TxFlit :=
  let prot := protOf m.typ
  let n := if m.typ = 1 then 1 else (32 + m.body.len + (if prot then 16 else 0) + 239) / 240
  (List.range n).map fun i =>
    { vc := vcOf m.typ, dst := m.dst, src := src, typ := m.typ, first := i == 0, last := i + 1 == n, prot := prot, parity := m.parity, hops := 0, pay := .part m i }

/-- Puts a message on a link. -/
def State.putMsg (s : State) (n : Nat) (m : DMsg) : State :=
  (s.queueFlits n (vcOf m.typ) (m.flits s.device)).ev 0x1C2 none (m.body.len / 1024) n m.dom

/-- Sends a message on a route chosen now, or keeps it until one is usable (R429). -/
def State.routeMsg (s : State) (m : DMsg) : State :=
  match s.route m.dst m.dom with
  | some (n, s) => s.putMsg n m
  | none => { s with dx := { s.dx with waiting := s.dx.waiting ++ [m] } }

/-- Messages that waited for a usable set go out, in order (R429). -/
def State.routeWaiting (s : State) : State :=
  let l := s.dx.waiting
  if l = [] then s else State.each { s with dx := { s.dx with waiting := [] } } l fun m s => s.routeMsg m

/-- A protected message takes the next value of the device's counter, reserved in blocks of 2^32 (R425), under the epoch in force. -/
def State.stampMsg (s : State) (m : DMsg) : DMsg × State :=
  if protOf m.typ then
    let c := s.dx.counter + 1
    let s := { s with dx := { s.dx with counter := c } }
    let s := s.when (decide (s.nv.msgEnd ≤ c)) fun s => ({ s with nv := { s.nv with msgEnd := c + 2 ^ 32 } }).store
    ({ m with counter := c, parity := match m.dom with
      | some d => (s.domSec d).active % 2
      | none => 0 }, s)
  else (m, s)

/-- Sends a message. -/
def State.sendMsg (s : State) (m : DMsg) : State := let r := s.stampMsg m; r.2.routeMsg r.1

/-- A control message's 240 payload bytes begin with version, min_version, type and flags (R51). -/
def ctlBytes (typ flags : Nat) (rest : Bytes) : Bytes := [1, 1, typ, flags] ++ rest

/-- Sends a control message one hop on a link. -/
def State.sendCtl (s : State) (n dst : Nat) (b : Bytes) : State := s.putMsg n { typ := 1, dst := dst, body := .ctl b }

/-- Sends a routed control message to a device. -/
def State.routeCtl (s : State) (dst : Nat) (b : Bytes) : State := s.routeMsg { typ := 1, dst := dst, body := .ctl b }

/-! ## Acceptance (R134, R424-R426) -/

/-- The counter of a protected message against its source's replay record (R426): not above the highest less 1,024, or already accepted. -/
def State.replayed (s : State) (identity counter : Nat) : Bool :=
  match s.dx.seen.find? fun e => e.identity == identity with
  | none => false
  | some e => decide (counter + 1024 ≤ e.hi) || e.low.contains counter

/-- Records an accepted counter (R426). -/
def State.markSeen (s : State) (identity counter : Nat) : State :=
  let e := (s.dx.seen.find? fun e => e.identity == identity).getD { identity := identity, hi := 0, low := [] }
  let hi := Nat.max e.hi counter
  let e : Seen := { identity := identity, hi := hi, low := (counter :: e.low).filter fun c => decide (hi < c + 1024) }
  { s with dx := { s.dx with seen := (s.dx.seen.filter fun x => x.identity != identity) ++ [e] } }

/-- A message dropped and counted (R423, R424). -/
def State.badMsg (s : State) : State := s.inc Dict.dnxBadMessageCount

/-- A message's arrival at its destination: it came on a link in ON, the destination is PRESENT and holds the domain's keys (R424), its header's version is one
that this device reads (R11; log 178), the link is not sealed to another domain (R134), and a protected one passes its tag under a key of an epoch in force (R122) and its replay record (R426).  `f` is its effect. -/
def State.arrive (s : State) (e : DEnv) (prot : Bool) (f : State → State) : State :=
  if s.linkLive e.link = false then s
  else
    let s := s.heardFrom e.src
    let c := e.link / 12
    if s.sealed c ∧ s.reg Dict.sealDomain c ≠ e.dom then
      ((s.inc Dict.secSealedFlitDrops).ev 0x24C none 1 e.link (some e.dom)).journal 1 c 0x24C e.dom e.link []
    else if s.present s.device = false ∨ s.holdsKeys e.dom = false ∨ 1 < e.minVersion then s.badMsg
    else if !prot then f s
    else
      let identity := s.memberDigest e.src / 2 ^ 128
      if e.tagOk = false ∨ identity = 0 ∨ s.parityOk e.dom e.parity = false then ((s.inc Dict.dnxTagFailCount).ev 0x1CE none 1 e.link (some e.dom)).journal 1 0xFF 0x1CE e.dom 0 []
      else if s.replayed identity e.counter then
        ((s.inc Dict.dnxReplayRejectCount).ev 0x1CF none 1 e.link (some e.dom)).journal 1 0xFF 0x1CF e.dom 0 []
      else f (s.markSeen identity e.counter)

/-- A control message's arrival on a link in ON, routed to this device (R424, R438), of a version that it reads (R11; log 178). -/
def State.ctlArrive (s : State) (link src : Nat) (f : State → State) (mv : Nat := 1) : State :=
  if s.linkLive link = false then s
  else
    let s := s.heardFrom src
    if s.present s.device ∧ mv ≤ 1 then f s else s.badMsg

end Sys2Proof.Machine
end

