-- ==== Sys2Proof/Machine/Reeds.lean ====
section
/-! DEFINITION. Split heads (spec/08, R254-R256): partial records, the reeds that fold them, and the credits under which their beats move. -/

namespace Sys2Proof.Machine

open Sys2Proof

/-! ## Partial records (R254) -/

/-- The exponential of a difference of scores: zero for −∞, and NaN propagates (R225, R255). -/
def fexp (x : Nat) : Nat := if fisNan x then fp32.nanCode else if x = fNegInf then 0 else Config.expF32 x

/-- The larger of two scores; a NaN propagates (R225). -/
def scoreMax (a b : Nat) : Nat := if fisNan a || fisNan b then fp32.nanCode else fmax a b

/-- How many runs a unit's pages are divided into (R254). -/
def runCount (pages lanes units : Nat) : Nat := Nat.min 64 (Nat.min pages (Nat.max 1 (lanes / Nat.max 1 units)))

/-- A list in n contiguous runs, as even as they come. -/
def splitRuns {α : Type} (n : Nat) (l : List α) : List (List α) :=
  (List.range n).map fun i => (l.drop (i * l.length / n)).take ((i + 1) * l.length / n - i * l.length / n)

/-- The partial record of a run (R254): m, l and o over the scores and values of its visible tokens; with none, the empty record. -/
def partialRecord (dim : Nat) (sv : List (Nat × List Nat)) : Nat × Nat × List Nat :=
  let m := sv.foldl (fun a x => scoreMax a x.1) fNegInf
  let e := sv.map fun x => fexp (fsub x.1 m)
  (m, fsum e, (List.range dim).map fun j => fsum ((e.zip sv).map fun x => fmul x.1 (x.2.2.getD j 0)))

/-- A record's beats: one, or two where head_dim is 256, the second with the upper half of o. -/
def recordBeats (a : Accum) (run : Nat) (sv : List (Nat × List Nat)) : List Beat :=
  let r := partialRecord a.dim sv
  let b : Beat := { acc := a.acc, run := run, empty := decide (sv = []), second := false, tokens := sv.length, m := r.1, l := r.2.1, o := r.2.2.take 128 }
  if a.dim ≤ 128 then [b] else [b, { b with second := true, o := r.2.2.drop 128 }]

/-- A beat's 528 bytes (R8, R254). -/
def Beat.bytes (b : Beat) : Bytes :=
  fixLen 528 (leBytes 2 (b.acc / 1024 * 8192 + b.acc % 1024) ++ [b.run, b2n b.empty + 2 * b2n b.second] ++ leBytes 4 b.tokens ++ leBytes 4 b.m ++ leBytes 4 b.l ++ b.o.flatMap (leBytes 4))

/-- A reed's combination of two records (R255); two empty ones make an empty one. -/
def combine (a b : Nat × Nat × List Nat) : Nat × Nat × List Nat :=
  let m := scoreMax a.1 b.1
  let w (x : Nat) : Nat := if x = fNegInf then 0 else fexp (fsub x m)
  (m, fadd (fmul a.2.1 (w a.1)) (fmul b.2.1 (w b.1)), (a.2.2.zip b.2.2).map fun o => fadd (fmul o.1 (w a.1)) (fmul o.2 (w b.1)))

/-- An accumulator's result (R255): o / l, or the zero vector where l is zero; in FP32 or BF16. -/
def Accum.result (a : Accum) : List Nat :=
  a.o.map fun x =>
    let v := if (f32 a.l).isZero then 0 else fdiv x a.l
    if a.half then (bf16.write false (f32 v)).1 else v

/-! ## Reeds (R255, R256) -/

/-- The reeds of a channel. -/
def State.reeds (s : State) (c : Nat) : Reeds := Tbl.get {} s.fb.reeds c

/-- Replaces them. -/
def State.setReeds (s : State) (c : Nat) (r : Reeds) : State := { s with fb := { s.fb with reeds := Tbl.put {} s.fb.reeds c r } }

/-- A tile's SRAM receives words (R208). -/
def State.putSram (s : State) (c tile : Nat) (ws : List Nat) : State := { s with fb := { s.fb with sram := Tbl.put [] s.fb.sram (256 * c + tile) ws } }

/-- A free accumulator: of the first reed in turn that has one, the lowest. -/
def Reeds.free (r : Reeds) : Option Nat :=
  ((List.range 8).map fun i => (r.next + i) % 8).findSome? fun reed => ((List.range 1024).map fun n => 1024 * reed + n).find? fun n => !r.accs.any fun a => a.acc == n

/-- Accumulators for an instance's triples, spread over the reeds in turn; none where they cannot all be had. -/
def Reeds.reserve (r : Reeds) (as : List Accum) : Option Reeds :=
  as.foldl (fun o a => o.bind fun r => r.free.map fun n => { r with accs := r.accs ++ [{ a with acc := n }], next := (n / 1024 + 1) % 8 }) (some r)

/-- An accumulator all of whose records have come: its result goes to the destination lane's SRAM, and it is free. -/
def State.finalise (s : State) (c : Nat) (a : Accum) : State :=
  let r := s.reeds c
  let s := s.setReeds c { r with accs := r.accs.filter fun x => x.acc != a.acc }
  let s := s.when ((f32 a.l).isZero) fun s => s.inc Dict.attnReedEmptyCount 1 0 c
  ((s.putSram c a.tile a.result).ev 0x0CC (some c) 1 (s.handle a.k) (some (s.sess a.k).dom) (some (s.handle a.k)))

/-- A lane emits the record of a run into its tile's output buffer of 16 beats; without room the tile stalls, and is counted. -/
def State.emitRecord (s : State) (c tile acc run : Nat) (sv : List (Nat × List Nat)) : State :=
  let r := s.reeds c
  match r.accs.find? fun a => a.acc == acc with
  | none => s
  | some a =>
    if a.runs.length ≤ run ∨ a.sent.contains run then s
    else
      let b := Tbl.get [] r.buf tile
      let new := recordBeats a run sv
      if 16 < b.length + new.length then (s.inc Dict.attnTileRecordStallCount 1 0 c).ev 0x0CE (some c) 1 tile
      else s.setReeds c { r with buf := Tbl.put [] r.buf tile (b ++ new), accs := r.accs.map fun x => if x.acc = acc then { x with sent := x.sent ++ [run] } else x }

/-- A tile sends its front beat to an input of the beat's reed, when it holds a credit: the input's buffer of 16 beats has room. -/
def State.sendBeat (s : State) (c tile input : Nat) : State :=
  let r := s.reeds c
  match Tbl.get [] r.buf tile with
  | [] => s
  | b :: rest =>
    let key := b.acc / 1024 * 4 + input
    let q := Tbl.get [] r.fifo key
    if 16 ≤ q.length then s else s.setReeds c { r with buf := Tbl.put [] r.buf tile rest, fifo := Tbl.put [] r.fifo key (q ++ [b]) }

/-- A reed takes the beat at the front of an input: a record that is whole is folded into its accumulator, and with the last record the result is made. -/
def State.foldBeat (s : State) (c reed input : Nat) : State :=
  let r := s.reeds c
  match Tbl.get [] r.fifo (4 * reed + input) with
  | [] => s
  | b :: rest =>
    let r := { r with fifo := Tbl.put [] r.fifo (4 * reed + input) rest }
    let put (a : Accum) : Reeds := { r with accs := r.accs.map fun x => if x.acc = a.acc then a else x }
    let s := (s.inc Dict.attnReedBeats 1 0 c).ev 0x0CB (some c)
    match r.accs.find? fun a => a.acc == b.acc with
    | none => s.setReeds c r
    | some a =>
      if 128 < a.dim ∧ b.second = false then s.setReeds c (put { a with firsts := a.firsts ++ [(b.run, b.o)] })
      else
        let lower := ((a.firsts.find? fun x => x.1 == b.run).map (·.2)).getD []
        let n := combine (a.m, a.l, a.o) (b.m, b.l, lower ++ b.o)
        let a := { a with m := n.1, l := n.2.1, o := n.2.2, got := a.got ++ [b.run], firsts := a.firsts.filter fun x => x.1 != b.run }
        let s := s.setReeds c (put a)
        if a.runs.length ≤ a.got.length then s.finalise c a else s

/-- The accumulators of some sessions are released, with the beats on their way to them (R212, R263). -/
def State.releaseAccs (s : State) (c : Nat) (ks : List Nat) : State :=
  let r := s.reeds c
  let keep (b : Beat) : Bool := r.accs.any fun a => a.acc == b.acc && !ks.contains a.k
  let cut (t : Tbl (List Beat)) : Tbl (List Beat) := (t.map fun (e : Nat × List Beat) => (e.1, e.2.filter keep)).filter fun (e : Nat × List Beat) => decide (e.2 ≠ [])
  s.setReeds c { r with accs := r.accs.filter fun a => !ks.contains a.k, buf := cut r.buf, fifo := cut r.fifo }

end Sys2Proof.Machine
end

