-- ==== Sys2Proof/Machine/Fabric.lean ====
section
/-! DEFINITION. The fabric (spec/07): tiles, fences and pattern slots, eligibility, and the loading, failing and unloading of models. -/

namespace Sys2Proof.Machine

open Sys2Proof

/-! ## Tiles and groups (R208-R219) -/

/-- The place of tile n's bit in `fabric.fence_map`: bit n of byte n / 8, bytes in order. -/
def fenceBit (n : Nat) : Nat := (31 - n / 8) * 8 + n % 8

/-- Tile n of channel c is fenced (R211). -/
def State.isFenced (s : State) (c n : Nat) : Bool := bit (s.reg Dict.fabricFenceMap 0 c) (fenceBit n)

/-- Fences or unfences a tile. -/
def State.setFence (s : State) (c n : Nat) (b : Bool) : State :=
  s.setReg Dict.fabricFenceMap (setBit (s.reg Dict.fabricFenceMap 0 c) (fenceBit n) b) 0 c

/-- A tile is fenced: NOTIFY 0x1101 (R210, R212). -/
def State.fenceTile (s : State) (c n : Nat) : State := (((s.setFence c n true).store).ev 0x00E (some c) 1 n).notify 0x1101 [c, n]

/-- Working tiles of a tile group (R214). -/
def State.lanes (s : State) (c g : Nat) : Nat := (List.range 16).countP fun i => !s.isFenced c (16 * g + i)

/-- Tile group g of channel c is ON. -/
def State.groupOn (s : State) (c g : Nat) : Bool := s.isOn (.dom (18 * c + g))

/-- `fabric.tiles_working`. -/
def State.tilesWorking (s : State) (c : Nat) : Nat := sumOf (fun g => if s.groupOn c g then s.lanes c g else 0) (List.range 16)

/-- `fabric.peak_fp4` (R210): POPS at the working tiles and the throttle level, in FP32. -/
def State.peakFp4 (s : State) (c : Nat) : Nat :=
  toF32 (.fin false (s.tilesWorking c * 8192 * 2 * 18 * (16 - s.pw.level)) (16 * 10 ^ 7))

/-- A domain's tile groups in force (R129). -/
def State.groupsOf (s : State) (d : Nat) : Nat := Tbl.get 0 s.sv.groups d

/-- Some PARTITIONED domain holds the group (R129, R218). -/
def State.groupHeld (s : State) (c g : Nat) : Bool := s.sv.groups.any fun e => bit e.2 (16 * c + g) && decide (s.reg Dict.dsecClass 0 e.1 = 1)

/-- Tile group g of channel c takes part in scheduling (R35): in a step that runs, what was ON when it began and has not gone OFF since. -/
def State.groupSched (s : State) (c g : Nat) : Bool :=
  match s.sv.run with
  | some v => v.groups.contains (18 * c + g) && !s.isOff (.dom (18 * c + g))
  | none => s.groupOn c g

/-- Channel c takes a domain's fabric work: as it admitted it when the step that runs began (R133, R135). -/
def State.chanWorks (s : State) (c d : Nat) : Bool :=
  match s.sv.run with
  | some v => if s.reg Dict.dsecClass 0 d = 2 then decide (v.seals.getD c .off = .on) && decide (s.reg Dict.sealDomain c = d) else decide (v.seals.getD c .off = .off)
  | none => s.chanAdmits c d

/-- The pattern slots of a group, most recently used first: model × 32 + pattern. -/
def State.patSlots (s : State) (c g : Nat) : List Nat := Tbl.get [] s.fb.slots (16 * c + g)

/-- Replaces them. -/
def State.setPatSlots (s : State) (c g : Nat) (l : List Nat) : State := { s with fb := { s.fb with slots := Tbl.put [] s.fb.slots (16 * c + g) l } }

/-- The pattern slots of one tile (R208, R216): a group's working tiles hold what the group does, for every tile of an instance runs the same program. -/
def State.tileSlots (s : State) (c n : Nat) : List Nat := if s.isFenced c n then [] else s.patSlots c (n / 16)

/-- The pinned patterns of a model in slot m. -/
def State.pinnedOf (s : State) (m : Nat) : List Nat := ((s.model m).pats.filter fun p => p.pinned).map fun p => 32 * m + p.id

/-- Whether a slot's pattern is pinned. -/
def State.isPinned (s : State) (k : Nat) : Bool := (s.pinnedOf (k / 32)).contains k

/-- The domain's class allows the group (R218). -/
def State.classAllows (s : State) (d c g : Nat) : Bool :=
  match s.reg Dict.dsecClass 0 d with
  | 1 => s.chanWorks c d && bit (s.groupsOf d) (16 * c + g)
  | 0 => s.chanWorks c d && !s.groupHeld c g
  | _ => s.chanWorks c d

/-- A group is eligible for a model's work (R218). -/
def State.groupEligible (s : State) (m c g : Nat) : Bool :=
  s.groupSched c g && s.classAllows (s.model m).dom c g && (s.pinnedOf m).all (s.patSlots c g).contains

/-- The groups of an instance. -/
def Inst.groups (i : Inst) : List Nat := (List.range i.foot).map (· + i.g)

/-- The lanes of an instance (R214): the working tiles of its groups, numbered in ascending tile number. -/
def State.laneTiles (s : State) (i : Inst) : List Nat := (i.groups.flatMap fun g => (List.range 16).map fun n => 16 * g + n).filter fun n => !s.isFenced i.c n

/-- The lane number of a tile in an instance. -/
def State.laneOf (s : State) (i : Inst) (tile : Nat) : Option Nat := findIdx? (· == tile) (s.laneTiles i)

/-- A pattern's instance on the run of groups that holds group g: F groups from a multiple of F on. -/
def Pat.instAt (p : Pat) (m c g : Nat) : Inst := { c := c, g := g / Nat.max 1 p.foot * p.foot, foot := p.foot, m := m, pat := p.id }

/-- An instance may be placed (R214, R218): its groups are eligible and its lanes enough. -/
def State.mayPlace (s : State) (p : Pat) (i : Inst) : Bool := (i.groups.all fun g => s.groupEligible i.m i.c g) && decide (p.minLanes ≤ (s.laneTiles i).length)

/-- The instances of a pattern that the eligible groups of a channel allow (R219). -/
def State.places (s : State) (m c : Nat) (p : Pat) : List Inst :=
  ((List.range (16 / Nat.max 1 p.foot)).map fun n => p.instAt m c (n * p.foot)).filter fun i => s.mayPlace p i

/-- How n parts of work are shared between the instances of a pattern, in proportion to their lane counts (R219): the part of each, the last taking the rest. -/
def State.shares (s : State) (n : Nat) (is : List Inst) : List Nat :=
  let total := sumOf (fun i => (s.laneTiles i).length) is
  let upTo (j : Nat) : Nat := n * sumOf (fun i => (s.laneTiles i).length) (is.take j) / Nat.max 1 total
  (List.range is.length).map fun j => upTo (j + 1) - upTo j

/-- The channels on which a session's step needs a group: its home channel's copy, or every channel of a divided model. -/
def State.stepChans (s : State) (k : Nat) : List Nat :=
  let m := s.model (s.sess k).model
  if m.placement = 0 then [chOf k] else m.chans

/-- The groups of a channel that are eligible for a model's work, ascending. -/
def State.eligibleGroups (s : State) (m c : Nat) : List Nat := (List.range 16).filter fun g => s.groupEligible m c g

/-- A channel can run a model's patterns on some of its eligible groups. -/
def State.runsOn (s : State) (m c : Nat) (gs : List Nat) : Bool :=
  decide (gs ≠ []) && (s.model m).pats.all fun p => (s.places m c p).any fun i => i.groups.all gs.contains

/-- A channel can run a model's patterns. -/
def State.chanRuns (s : State) (m c : Nat) : Bool := s.runsOn m c (s.eligibleGroups m c)

/-- The eligible groups that the prefill phase owns from the action point on (R269): the highest-numbered `step.prefill_share` sixteenths, none where its queue was
empty then. -/
def State.prefillGroups (s : State) (m c : Nat) : List Nat :=
  match s.sv.run with
  | none => []
  | some v =>
    let gs := s.eligibleGroups m c
    if v.qEmpty then [] else gs.drop (gs.length - gs.length * s.sreg Dict.stepPrefillShare 0 c / 16)

/-- The session's model can run its decode phase on the groups that prefill does not own (R269). -/
def State.canDecode (s : State) (k : Nat) : Bool :=
  let x := s.sess k
  decide ((s.model x.model).st = 2) && (s.stepChans k).all fun c => s.runsOn x.model c ((s.eligibleGroups x.model c).filter fun g => !(s.prefillGroups x.model c).contains g)

/-- The session's model can run chunks on the groups that prefill owns. -/
def State.canPrefill (s : State) (k : Nat) : Bool :=
  let x := s.sess k
  (s.stepChans k).all fun c => s.runsOn x.model c (s.prefillGroups x.model c)

/-- The session's model can run its step (R219, R232). -/
def State.canStep (s : State) (k : Nat) : Bool :=
  let x := s.sess k
  decide ((s.model x.model).st = 2) && (s.stepChans k).all fun c => s.chanRuns x.model c

/-- The patterns that instances run on a group. -/
def State.runningOn (s : State) (c g : Nat) : List Nat := (s.fb.insts.filter fun i => i.c == c && i.groups.contains g).map fun i => 32 * i.m + i.pat

/-- The slots of a group with a pattern in them, used most recently (R216): where all eight are taken the least recently used one that is neither pinned nor
running goes; none where there is no such slot. -/
def State.slotsWith (s : State) (c g key : Nat) : Option (List Nat) :=
  let l := s.patSlots c g
  if l.contains key then some (key :: l.filter (· != key))
  else if l.length < 8 then some (key :: l)
  else (l.reverse.find? fun k => !s.isPinned k && !(s.runningOn c g).contains k).map fun v => key :: l.filter (· != v)

/-- A pattern into the slots of each of some groups: into all, or none. -/
def State.fillSlots (s : State) (c key : Nat) (gs : List Nat) : Option State :=
  gs.foldl (fun (o : Option State) g => o.bind fun s => (s.slotsWith c g key).map fun l => s.setPatSlots c g l) (some s)

/-- Pinned patterns that a group holds of models other than m. -/
def State.pinsBeside (s : State) (m c g : Nat) : Nat := (s.patSlots c g).countP fun k => s.isPinned k && k / 32 != m

/-- Loads a model's pinned patterns into a group (R216, R240), where a tile then holds at most six. -/
def State.pinInto (s : State) (m c g : Nat) : State :=
  let ps := s.pinnedOf m
  if s.pinsBeside m c g + ps.length ≤ 6 then s.each ps fun k s => ((s.slotsWith c g k).map fun l => s.setPatSlots c g l).getD s else s

/-- An instance runs a pattern (R215): one that ran another pattern on the same groups switches; otherwise it starts, in place of what its model ran there. -/
def State.runInst (s : State) (i : Inst) : State :=
  let same (j : Inst) : Bool := j.c == i.c && j.m == i.m && j.g == i.g && j.foot == i.foot
  let clear (j : Inst) : Bool := !(j.c == i.c && j.m == i.m && j.groups.any i.groups.contains)
  let old := s.fb.insts.find? same
  let s : State := { s with fb := { s.fb with insts := s.fb.insts.filter clear ++ [i] } }
  match old with
  | some j => if j.pat = i.pat then s else (s.inc Dict.fabricPatternSwitchCount 1 0 i.c).ev 0x003 (some i.c) 1 (32 * i.m + i.pat)
  | none => s.ev 0x007 (some i.c) 1 (32 * i.m + i.pat)

/-- A model's instance on group g comes to a pattern (R215, R216).  Resident on its groups, the pattern is a hit and runs; otherwise the instance stalls until the
pattern's load completes (`loaded`), a miss, and waits on where no slot can be had. -/
def State.usePattern (s : State) (m pat c g : Nat) (loaded : Bool) : State :=
  match (s.model m).pats.find? fun p => p.id == pat with
  | none => s
  | some p =>
    let i := p.instAt m c g
    let key := 32 * m + pat
    if s.mayPlace p i = false then s
    else
      let hit := i.groups.all fun g => (s.patSlots c g).contains key
      if !hit && !loaded then s
      else match s.fillSlots c key i.groups with
        | none => s
        | some s =>
          let s := if hit then (s.inc Dict.fabricPatternHitCount 1 0 c).ev 0x004 (some c) 1 key
            else ((s.inc Dict.fabricPatternMissCount 1 0 c).inc Dict.modelPatternMissCount 1 0 m).ev 0x005 (some c) 1 key
          s.runInst i

/-- The pattern of a model that runs on a tile's group. -/
def State.runningPat (s : State) (m c g : Nat) : Option Pat :=
  (s.fb.insts.find? fun i => i.c == c && i.m == m && i.groups.contains g).bind fun i => (s.model m).pats.find? fun p => p.id == i.pat

/-- A group's SRAM and pattern slots are cleared, and no instance runs there (R129). -/
def tileGroupOff (c g : Nat) (s : State) : State :=
  let s := s.setPatSlots c g []
  { s with fb := { s.fb with insts := s.fb.insts.filter (fun i => !(i.c == c && i.groups.contains g)), sram := s.fb.sram.filter fun (e : Nat × List Nat) => decide (e.1 / 16 ≠ 16 * c + g) } }

/-- A group reaches ON (R210, R240): the tiles that failed self-test are fenced, and pinned patterns of every READY model that may use it are
loaded. -/
def groupReached (c g : Nat) (bad : List Nat) (s : State) : State :=
  let s := s.each (bad.filter fun n => decide (n / 16 = g) && !s.isFenced c n) fun n s => s.fenceTile c n
  s.each ((List.range 16).filter fun m => decide ((s.model m).st = 2) && (s.model m).chans.contains c && s.classAllows (s.model m).dom c g)
    fun m s => s.pinInto m c g

/-- A step boundary (R129): the written tile groups are in force; a group given or withdrawn has its SRAM and pattern slots cleared first. -/
def applyGroups (s : State) : State :=
  let doms := ((s.regs.filter fun (e : Nat × Nat) => decide (e.1 / 4096 = Dict.dsecTileGroups.addr)).map (fun (e : Nat × Nat) => e.1 % 4096) ++ s.sv.groups.map (fun (e : Nat × Nat) => e.1)).eraseDups
  s.each doms fun d s =>
    let old := s.groupsOf d
    let new := s.reg Dict.dsecTileGroups 0 d
    let s := s.each ((List.range 64).filter fun i => bit old i != bit new i) fun i s => tileGroupOff (i / 16) (i % 16) s
    { s with sv := { s.sv with groups := Tbl.put 0 s.sv.groups d new } }

/-- `fabric.fence_clear` (R211): the fences of tiles in groups that are OFF. -/
def clearFences (c : Nat) (s : State) : State :=
  (s.each ((List.range 256).filter fun n => s.isFenced c n && s.isOff (.dom (18 * c + n / 16))) fun n s => s.setFence c n false).store

/-! ## Model images (R8, R217, R228) -/

/-- A pattern image at an offset of a model image, as its table entry `e` names it. -/
def parsePattern (b : Bytes) (e : Nat) : PatImg :=
  let off := le b e 8
  let len := le b (e + 8) 8
  let prog := le b (off + 8) 4
  let routes := le b (off + 12) 4
  let foot := le b (off + 4) 1
  { id := le b (off + 2) 2, version := le b off 1, minVersion := le b (off + 1) 1, footprint := foot, flags := le b (off + 5) 1, minLanes := le b (off + 6) 2, progLen := prog, routeLen := routes, resv := !(zeroAt b (off + 16) 16 && zeroAt b (e + 18) 14 && decide (le b (e + 16) 2 = le b (off + 2) 2) && decide (len = 64 + prog + routes) && decide (off + len ≤ b.length)), digest := be b (off + 32) 32, digestOk := decide (Config.shake256 ((b.drop (off + 64)).take (prog + routes)) 32 = be b (off + 32) 32), routesOk := decide (routes = 0) || Config.routesWithin foot ((b.drop (off + 64 + prog)).take routes) }

/-- A tensor table entry. -/
def parseTensor (b : Bytes) (e : Nat) : Tensor :=
  { off := le b e 8, len := le b (e + 8) 8, fmt := le b (e + 16) 1, mode := le b (e + 17) 1, axis := le b (e + 18) 1, layer := le b (e + 20) 2, rows := le b (e + 24) 4, cols := le b (e + 28) 4, resv := !(zeroAt b (e + 19) 1 && zeroAt b (e + 22) 2) }

/-- A model image's header and tables, little-endian (R8), with the digests computed over the bytes as read.  Counts beyond their range are read no further than
shows it. -/
def parseModel (b : Bytes) : ModelImg :=
  let pats := le b 48 8
  let tens := le b 56 8
  let img := b.take (le b 8 8)
  { version := le b 0 1, minVersion := le b 1 1, resv := !(zeroAt b 2 2 && zeroAt b 144 112), hdrLen := le b 4 4, imgLen := le b 8 8, layers := le b 16 2, qHeads := le b 18 2, kvHeads := le b 20 2, headDim := le b 22 2, hidden := le b 24 4, vocabEntries := le b 28 4, block := le b 32 2, kvFmt := le b 34 1, placements := le b 35 1, kvPayload := le b 36 2, kvScales := le b 38 2, patterns := (List.range (Nat.min 33 (le b 40 4))).map fun i => parsePattern b (pats + 32 * i), tensors := (List.range (Nat.min 65537 (le b 44 4))).map fun i => parseTensor b (tens + 32 * i), weightsOff := le b 64 8, weightsLen := le b 72 8, vocabDigest := be b 80 32, bodyOk := decide (Config.shake256 (img.drop (le b 4 4)) 32 = be b 112 32), digest := Config.shake256 img 32 }

/-- A pattern's checks (R217), its digest apart. -/
def patImgOk (p : PatImg) : Bool :=
  decide (p.minVersion ≤ 1) && !p.resv && decide (p.id ≤ 31) && [1, 2, 4, 8, 16].contains p.footprint && decide (p.flags < 8) &&
  decide (1 ≤ p.minLanes) && decide (p.minLanes ≤ 16 * p.footprint) && decide (1 ≤ p.progLen) && decide (p.progLen ≤ 28672) &&
  decide (p.routeLen ≤ 4096) && p.routesOk

/-- A tensor's checks: its format's scale modes (R220), its axis and layer, and its place. -/
def tensorOk (m : ModelImg) (x : Tensor) : Bool :=
  decide (1 ≤ x.fmt) && decide (x.fmt ≤ 9) &&
  (if x.fmt ≤ 3 then decide (x.mode = 1) else if x.fmt ≤ 6 then decide (x.mode ≤ 3)
   else if x.fmt ≤ 8 then decide (x.mode = 0) || decide (x.mode = 2) || decide (x.mode = 3) else decide (x.mode = 0)) &&
  decide (x.axis ≤ 2) && (decide (x.layer < m.layers) || decide (0xFFFE ≤ x.layer)) && decide (x.layer ≤ 0xFFFF) && !x.resv &&
  decide (x.off + x.len ≤ m.weightsLen)

/-- The image's checks under R228 for a placement over k channels, the digests and the vocabulary apart. -/
def modelImgOk (m : ModelImg) (placement k : Nat) : Bool :=
  decide (m.minVersion ≤ 1) && !m.resv && decide (m.hdrLen = 256) && decide (256 ≤ m.imgLen) &&
  decide (1 ≤ m.layers) && decide (m.layers ≤ 1024) && decide (1 ≤ m.qHeads) && decide (m.qHeads ≤ 256) &&
  decide (1 ≤ m.kvHeads) && decide (m.kvHeads ≤ 64) && decide (m.qHeads % m.kvHeads = 0) && [64, 128, 256].contains m.headDim &&
  decide (1 ≤ m.vocabEntries) && decide (m.vocabEntries ≤ 524288) && [16, 32, 64, 128, 256].contains m.block && decide (m.placements < 8) &&
  decide (kvSizes m.kvFmt (2 * m.kvHeads * m.headDim) = some (m.kvPayload, m.kvScales)) &&
  decide (m.block * m.kvPayload ≤ 65536) && decide (m.block * m.kvScales ≤ 6144) &&
  decide (1048576 / m.block * m.layers - 1 < tokenLpn) &&
  decide (1 ≤ m.patterns.length) && decide (m.patterns.length ≤ 32) && m.patterns.all patImgOk && decide ((m.patterns.map (·.id)).Nodup) &&
  decide (1 ≤ m.tensors.length) && decide (m.tensors.length ≤ 65536) && m.tensors.all (tensorOk m) &&
  decide (m.weightsOff + m.weightsLen ≤ m.imgLen) && bit m.placements placement &&
  (decide (placement = 0) ||
    (decide (0 < k) && decide (m.qHeads % k = 0) && decide (m.kvHeads % k = 0) &&
      m.tensors.all fun x => if x.axis = 1 then decide (x.rows % k = 0) else if x.axis = 2 then decide (x.cols % k = 0) else true))

/-- A stage's first layer (R235). -/
def stageStart (layers stages stage : Nat) : Nat := stage * layers / Nat.max 1 stages

/-- The tensors a stage places (R235); all of them but for WARP_SPLIT. -/
def modelMine (m : ModelImg) (placement stage stages : Nat) : List Tensor :=
  if placement ≠ 2 then m.tensors
  else m.tensors.filter fun x =>
    if x.layer = 0xFFFE then decide (stage = 0) else if x.layer = 0xFFFF then decide (stage + 1 = stages)
    else decide (stageStart m.layers stages stage ≤ x.layer) && decide (x.layer < stageStart m.layers stages (stage + 1))

/-- Frames a channel needs (R231): its share of the tensors, and the patterns. -/
def modelImgFrames (m : ModelImg) (placement stage stages k : Nat) : Nat :=
  let pats := sumOf (fun p : PatImg => 64 + p.progLen + p.routeLen) m.patterns
  let bytes := sumOf (fun x : Tensor => if placement = 0 ∨ x.axis = 0 then x.len else x.len / Nat.max 1 k) (modelMine m placement stage stages)
  (pats + bytes + frameBytes - 1) / frameBytes

/-! ## Model slots (R231-R235) -/

/-- Per-model settings and counters return to their defaults when a slot is emptied. -/
def State.clearModelRegs (s : State) (m : Nat) : State :=
  { s with regs := s.regs.filter fun e => !(decide (e.1 % 4096 = m) && decide (e.1 % 2 ^ 40 / 2 ^ 32 = 3)) }

/-- The bulk tag of a model slot's frames, and of those that a load has taken and the model does not hold yet. -/
def modelTag (m : Nat) : Nat := m

/-- The tag of the stage pages that model slot m holds for a session of another device (R179). -/
def heldTag (m handle : Nat) : Nat := 2 ^ 80 + 16 * handle + m

/-- Stage pages go back, for the handles and slots that p names: how many sessions of each domain had some. -/
def State.freeStage (s : State) (p : Nat → Nat → Bool) : List (Nat × Nat) × State :=
  let hit := s.tm.bulk.filter fun b => decide (heldTag 0 0 ≤ b.tag) && p ((b.tag - heldTag 0 0) / 16) (b.tag % 16)
  let doms := (hit.map (·.dom)).eraseDups
  (doms.map fun d => (d, ((hit.filter fun b => b.dom == d).map (·.tag)).eraseDups.length), s.each (hit.map (·.tag)) fun g s => s.freeBulk g)
def loadTag (m : Nat) : Nat := 16 + m

/-- Frames of a tag on a channel. -/
def State.bulkOn (s : State) (c tag : Nat) : Nat := sumOf (fun (b : Bulk) => if b.ch = c ∧ b.tag = tag then b.n else 0) s.tm.bulk

/-- Frames a model slot holds on this device. -/
def State.modelFrames (s : State) (m : Nat) : Nat := sumOf (fun b => if b.tag = modelTag m ∨ b.tag = loadTag m then b.n else 0) s.tm.bulk

/-- The other devices that hold a stage of a model. -/
def State.stageDevs (s : State) (m : Nat) : List Nat :=
  (((List.range ((s.model m).stages + 1)).map fun i => beField 64 (s.reg Dict.modelStageMap 0 m) i 1).eraseDups).filter fun d => decide (d ≠ s.device) && decide (d < 64)

/-- STAGE_READY (R235, R423): a stage reports to the device of stage 0; stage 0 tells every other stage that the model has failed (R232). -/
def State.sendStage (s : State) (m : Nat) (ready : Bool) : State :=
  let x := s.model m
  let dests := if x.stage = 0 then s.stageDevs m else [beField 64 (s.reg Dict.modelStageMap 0 m) 0 1].filter fun d => decide (d ≠ s.device) && decide (d < 64)
  s.each dests fun d s => s.routeCtl d (ctlBytes 0x13 0 ([m, x.stage] ++ beBytes 2 x.dom ++ [b2n ready]))

/-- What this device reports of a stage from now on: whether it is READY; nothing more where the slot has been emptied, or stage 0 is READY. -/
def State.reportStage (s : State) (m : Nat) (ready keep : Bool) : State :=
  let rest := s.dx.stages.filter fun (e : Nat × Bool) => e.1 != m
  State.sendStage { s with dx := { s.dx with stages := if keep then rest ++ [(m, ready)] else rest } } m ready

/-- A load fails (R231): the frames it took go back, and the slot returns to EMPTY, or to FAILED as it was for a reload in place (R232); the command ends. -/
def State.failLoad (s : State) (d id m status : Nat) : State :=
  let s := s.freeBulk (loadTag m)
  let x := s.model m
  let s := match x.was with
    | some w => s.setModel m { x with st := 4, placement := w.1, stage := w.2.1, stages := w.2.2.1, chans := w.2.2.2, was := none }
    | none => s.setModel m {}
  s.endDrun d id status 0 0

/-- Reserves a load's frames on each channel beyond those that a surviving share holds there, all or none (R231, step 2): the load waits up to `dtier.frame_grace`
picks. -/
def State.tryLoad (s : State) (d : Nat) (r : DRun) : State :=
  let m := r.q.d.count % 16
  let need (s : State) (e : List Nat) : Nat := e.getD 1 0 - s.bulkOn (e.getD 0 0) (modelTag m)
  let got := r.rows.foldl (fun o e => o.bind fun s => if need s e = 0 then some s else s.takeBulk d (e.getD 0 0) (loadTag m) (need s e)) (some s)
  match got with
  | some s => s.setDrun d { r with stage := 1, a := sumOf (fun e => e.getD 1 0) r.rows }
  | none => s.domWait d r.since (r.rows.map fun e => e.getD 0 0) fun s => s.failLoad d r.id m stNoFrames

/-- MODEL_LOAD's first step (R230, R231): the descriptor, the slot, the header and tables. -/
def State.beginLoad (s : State) (d : Nat) (b : Bytes) (r : DRun) : State :=
  let img := parseModel b
  let f := r.q.d.count
  let m := f % 16
  let placement := bits f 5 4
  let stage := bits f 11 6
  let stages := bits f 17 12 + 1
  let x := s.model m
  let cs := s.domChans d
  let free := decide (x.st = 0) || (decide (x.st = 4) && decide (x.dom = d) && decide (x.meas = img.digest))
  let fieldsOk := decide (f < 2 ^ 18) && decide (placement ≤ 2) && decide (stage < stages) && (decide (placement = 2) || decide (f / 64 = 0)) && descBare r.q.d
  if !s.holdsKeys d then s.endDrun d r.id stDenied 0 0
  else if !fieldsOk || !free then s.endDrun d r.id stBad 0 0
  else if s.reg Dict.dsecClass 0 d = 2 ∧ placement ≠ 0 then s.endDrun d r.id stDenied 0 0
  else if !modelImgOk img placement cs.length || cs.isEmpty || decide (r.q.d.dataLen < img.imgLen) ||
      !(s.tx.vocabs.any fun v => decide (v.2.v.digest = img.vocabDigest) && decide (v.2.dom = d) && decide (v.2.v.entries.length = img.vocabEntries)) then s.endDrun d r.id stBad 0 0
  else
    let lo := if placement = 2 then stageStart img.layers stages stage else 0
    let hi := if placement = 2 then stageStart img.layers stages (stage + 1) else img.layers
    let n := modelImgFrames img placement stage stages cs.length
    let pats : List Pat := img.patterns.map fun p => { id := p.id, foot := p.footprint, pinned := bit p.flags 0, sat := bit p.flags 1, exch := bit p.flags 2, minLanes := p.minLanes }
    let s := s.setModel m { st := 1, dom := d, placement := placement, chans := cs, layers := hi - lo, total := img.layers, block := img.block, meas := img.digest, patMeas := sortedDigest (img.patterns.map (·.digest)), measured := x.measured, stage := stage, stages := stages - 1, vocab := img.vocabDigest, kvFmt := img.kvFmt, qHeads := img.qHeads, kvHeads := img.kvHeads, headDim := img.headDim, pool := cairnPool img.kvHeads img.headDim, pats := pats, ready := [], was := if x.st = 4 then some (x.placement, x.stage, x.stages, x.chans) else none }
    let good := img.bodyOk && img.patterns.all (·.digestOk)
    let r := { r with b := b2n good, rows := cs.map fun c => [c, n] }
    (s.setDrun d r).tryLoad d r

/-- A model's pinned patterns fit beside another model's in the six pinned slots of every tile that is to hold them (R216). -/
def State.pinsFit (s : State) (m : Nat) : Bool :=
  let x := s.model m
  decide ((s.pinnedOf m).length ≤ 6) && x.chans.all fun c => (List.range 16).all fun g =>
    !(s.groupOn c g && s.classAllows x.dom c g) || decide (s.pinsBeside m c g + (s.pinnedOf m).length ≤ 6)

/-- The frames of an accepted load are the model's: a channel holds those it needs, and no other channel any. -/
def State.settleLoad (s : State) (m d : Nat) (rows : List (List Nat)) : State :=
  let s : State := { s with tm := { s.tm with bulk := s.tm.bulk.map fun (b : Bulk) => if b.tag = loadTag m then { b with tag := modelTag m } else b } }
  s.each [0, 1, 2, 3] fun c s => s.fitBulk d c (modelTag m) (((rows.find? fun e => e.getD 0 0 == c).map fun e => e.getD 1 0).getD 0)

/-- MODEL_LOAD's last steps (R231, 3 to 6). -/
def State.finishLoad (s : State) (d : Nat) (r : DRun) : State :=
  let m := r.q.d.count % 16
  if r.b = 0 ∨ s.pinsFit m = false then s.failLoad d r.id m stBad
  else
    let x := s.model m
    let s := (s.settleLoad m d r.rows).setModel m { x with st := 2, was := none, measured := true, ready := [x.stage] }
    let s := s.each x.chans fun c s => s.each ((List.range 16).filter fun g => s.groupOn c g && s.classAllows d c g) fun g s => s.pinInto m c g
    let s := s.when (decide (x.placement = 2)) fun s =>
      if x.stage = 0 then { s with dx := { s.dx with stages := s.dx.stages.filter fun (e : Nat × Bool) => e.1 != m } } else s.reportStage m true true
    (s.ev 0x015 none 1 m (some d)).endDrun d r.id stDone r.a 0

/-- A model enters FAILED (R232): NOTIFY 0x3101, and the other stages are told. -/
def State.failModel (s : State) (m : Nat) : State :=
  let x := s.model m
  if x.st = 2 then
    let s := s.setModel m { x with st := 4 }
    let s := s.when (decide (x.placement = 2)) fun s => s.reportStage m false true
    (s.ev 0x017 none 1 m (some x.dom)).notify 0x3101 ([m] ++ beBytes 2 x.dom)
  else s

/-- The load that runs into a slot, if one does: domain and command. -/
def State.loadOf (s : State) (m : Nat) : Option (Nat × DRun) :=
  s.ss.rings.findSome? fun e => (e.2.running.find? fun r => r.q.d.opcode == 0x40 && r.q.d.count % 16 == m).map fun r => (e.1, r)

/-- A channel has left ON: copies and shares on it are gone (R231, R232). -/
def modelsLeave (c : Nat) (s : State) : State :=
  let s := { s with tm := { s.tm with bulk := s.tm.bulk.filter fun b => b.ch != c } }
  s.each ((List.range 16).filter fun m => (s.model m).chans.contains c || ((s.model m).was.any fun w => w.2.2.2.contains c)) fun m s =>
    let x := s.model m
    if x.st = 1 then
      match s.loadOf m with
      | some (d, r) => (s.setModel m { x with was := x.was.map fun w => (w.1, w.2.1, w.2.2.1, w.2.2.2.filter (· != c)) }).failLoad d r.id m stBad
      | none => s
    else
      let s := s.setModel m { x with chans := x.chans.filter (· != c) }
      s.when (decide (x.placement ≠ 0) || decide (x.chans = [c])) fun s => s.failModel m

/-- A device of the warp is lost or has left: WARP_SPLIT models with a stage on it fail, and loads of them (R231, R232). -/
def stageLost (dev : Nat) (s : State) : State :=
  s.each ((List.range 16).filter fun m =>
      decide ((s.model m).placement = 2) && (List.range ((s.model m).stages + 1)).any fun i => beField 64 (s.reg Dict.modelStageMap 0 m) i 1 == dev) fun m s =>
    if (s.model m).st = 1 then
      match s.loadOf m with
      | some (d, r) => s.failLoad d r.id m stBad
      | none => s
    else s.failModel m

/-- MODEL_UNLOAD (R161, R233; R275: not while a target names the model as its draft). -/
def State.unload (s : State) (d : Nat) (r : DRun) : State :=
  let m := r.q.d.count % 16
  let x := s.model m
  let used := (s.ss.tbl.any fun e => decide (e.2.st ≠ .free) && decide (e.2.model = m) && decide (e.2.dom = d)) ||
    (List.range 16).any fun j => decide ((s.model j).st ≠ 0) && decide (s.reg Dict.mstepDraftSlot 0 j = m)
  if 16 ≤ r.q.d.count ∨ descBare r.q.d = false ∨ x.dom ≠ d ∨ (x.st ≠ 2 ∧ x.st ≠ 4) ∨ used = true then s.endDrun d r.id stBad 0 0
  else
    let n := s.modelFrames m
    let s := { s with fb := { s.fb with slots := s.fb.slots.map fun (e : Nat × List Nat) => (e.1, e.2.filter fun k => k / 32 != m) } }
    let s := { s with fb := { s.fb with slots := s.fb.slots.filter fun (e : Nat × List Nat) => decide (e.2 ≠ []) } }
    let s : State := { s with fb := { s.fb with insts := s.fb.insts.filter fun (i : Inst) => i.m != m } }
    let s := s.when (decide (x.placement = 2)) fun s => s.reportStage m false false
    ((((s.freeStage fun _ i => i == m).2.freeBulk (modelTag m)).setModel m {}).clearModelRegs m |>.ev 0x016 none 1 m (some d)).endDrun d r.id stDone n 0

/-! ## The commands -/

/-- TILE_ERROR (R212): the tile is fenced, the sessions whose step ran on it retake their step uncharged, and a CORRECTED fault is recorded. -/
def execTileError (t : Nat) (c tile : Nat) (ks : List Nat) (s : State) : Host.Outcome State Fault Refusal :=
  run (.tileError t c tile ks) t s fun s =>
    if (s.groupOn c (tile / 16) || s.groupSched c (tile / 16)) && !s.isFenced c tile then
      let s := ((s.inc Dict.fabricTileErrorCount 1 0 c).ev 0x00D (some c) 1 tile).fenceTile c tile
      let s : State := { s with fb := { s.fb with insts := s.fb.insts.filter fun (i : Inst) => !(i.c == c && i.groups.contains (tile / 16)) } }
      let s := s.releaseAccs c ks
      let s := match s.sv.run with
        | none => s
        | some v =>
          let rows := v.rows.map fun (r : Row) => if ks.contains r.k then { r with retake := true } else r
          let chunks := v.chunks.map fun (r : Chunk) => if ks.contains r.k then { r with bad := true } else r
          { s with sv := { s.sv with run := some { v with rows := rows, chunks := chunks } } }
      let hit := ks.filter fun k => match s.sv.run with
        | none => false
        | some v => (v.rows.any fun r => r.k == k) || v.chunks.any fun r => r.k == k
      let s := s.each hit fun k s => s.ev 0x00F (some c) 1 (s.handle k) (some (s.sess k).dom) (some (s.handle k))
      s.journal 0 c 0x00D 0xFFFF tile []
    else s

/-- PATTERN_LOAD_COMPLETE (R216). -/
def execPatternLoadComplete (t : Nat) (c g model pat : Nat) (s : State) : Host.Outcome State Fault Refusal :=
  run (.patternLoadComplete t c g model pat) t s fun s =>
    let x := s.model model
    if s.groupOn c g && decide (x.st = 2) && x.chans.contains c then s.usePattern model pat c g true else s

/-- MODEL_LOAD (R230, R231): its reading brings the tables, then the whole image, or fails. -/
def execModelLoad (t : Nat) (d : Nat) (x : ImgArrive) (s : State) : Host.Outcome State Fault Refusal :=
  run (.modelLoad t d x) t s fun s =>
    let running := (s.dring d).running.find? fun r => r.q.d.opcode == 0x40
    match x, running with
    | .tables b, none => s.startDomIn d 0x40 (some b) fun r b s => s.beginLoad d b r
    | .lost, none => s.startDomIn d 0x40 none fun r b s => s.beginLoad d b r
    | .whole, some r => if r.stage = 1 then s.finishLoad d r else s
    | .lost, some r => s.failLoad d r.id (r.q.d.count % 16) stAbort
    | _, _ => s

/-- MODEL_UNLOAD (R233). -/
def execModelUnload (t : Nat) (d : Nat) (s : State) : Host.Outcome State Fault Refusal :=
  run (.modelUnload t d) t s fun s => s.startDom d 0x41 fun r s => s.unload d r

end Sys2Proof.Machine
end

