-- ==== Sys2Proof/Machine/Ring.lean ====
section
/-! DEFINITION. Descriptors and rings (spec/05, R139, R146; spec/14, R430-R434): the checks in order, and forwarding to a session's home. -/

namespace Sys2Proof.Machine

open Sys2Proof

/-- Opcodes of a session ring, and of a control ring (spec/05). -/
def sessOps : List Nat := [0x01, 0x02, 0x03, 0x04, 0x05, 0x06, 0x07, 0x08, 0x09, 0x0A, 0x0B]
def domOps : List Nat := [0x40, 0x41, 0x42, 0x43, 0x44, 0x45, 0x48, 0x49, 0x4A, 0x4B, 0x50, 0x58, 0x59]

/-- Check 1 of R146. -/
def descForm (ops : List Nat) (d : Desc) : Bool :=
  decide (d.minVersion ≤ 1) && decide (d.flags < 4) && decide (d.deadline < 2 ^ 52) && d.tailZero && ops.contains d.opcode

/-- A handle's device, slot (channel × 2^18 + slot) and generation (R139). -/
def handleDev (h : Nat) : Nat := bits h 47 42
def handleSlot (h : Nat) : Nat := bits h 41 22
def handleGen (h : Nat) : Nat := bits h 63 48

/-- A handle is well formed (R139). -/
def handleForm (h : Nat) : Bool := decide (h % 2 ^ 22 = 0) && decide (handleGen h ≠ 0)

/-- A descriptor that fails a check is not queued: its completion is written at once (R146). -/
def State.failDesc (s : State) (q : QDesc) (status flags : Nat) : State := s.endDesc q status 0 0 flags

/-- Checks 1 to 3 of R146 on the device at which a session's descriptor arrives: the status and flag of the first that fails. -/
def State.firstChecks (s : State) (dev k : Nat) (d : Desc) : Option (Nat × Nat) :=
  if descForm sessOps d = false then some (stBad, flMalformed)
  else if handleForm d.session = false ∨ handleDev d.session ≠ dev ∨ handleSlot d.session ≠ k then some (stBad, flMalformed)
  else if dev ≠ s.device ∧ s.present dev = false then some (stBad, flNoHome)
  else none

/-- The home's part of R146 (the channel, and checks 4 to 7) and the ring. -/
def State.enqueue (s : State) (k : Nat) (q : QDesc) : State :=
  let x := s.sess k
  let opens := decide (q.d.opcode = 0x01) || decide (q.d.opcode = 0x08)
  if s.chOn (chOf k) = false then s.failDesc q stBad flNoHome
  else if !opens && decide (x.st ≠ .free) && decide (x.dom ≠ q.dom) then s.failDesc q stDenied 0
  else if handleGen q.d.session ≠ s.genOf k then ((s.inc Dict.sessStaleHandleCount 1 0 (chOf k)).ev 0x085 (some (chOf k)) 1 q.d.session (some q.dom)).failDesc q stBad flStale
  else if s.isLate q.d.deadline then s.failDesc q stDeadline 0
  else if q.d.opcode = 0x0A then
    if x.closePend then s.failDesc q stBusy 0 else s.setSess k { x with imm := x.imm ++ [q], closePend := true }
  else if q.d.opcode = 0x09 then s.setSess k { x with imm := x.imm ++ [q] }
  else if 16 ≤ x.ring.length then ((s.inc Dict.sessRingFullCount 1 0 (chOf k)).ev 0x084 (some (chOf k)) 1 q.d.session (some q.dom)).failDesc q stBusy 0
  else s.setSess k { x with ring := x.ring ++ [q], tail := (x.tail + 1) % 65536 }

/-- A control ring's checks (R146, R150). -/
def State.enqueueDom (s : State) (d : Nat) (q : QDesc) : State :=
  let g := s.dring d
  if descForm domOps q.d = false then s.failDesc q stBad flMalformed
  else if s.isLate q.d.deadline then s.endDom q stDeadline 0 0
  else if 256 ≤ g.waiting.length then (s.ev 0x084 none 1 0 (some d)).endDom q stBusy 0 0
  else s.setDring d { g with waiting := g.waiting ++ [q] }

/-! ## Forwarding (R430-R434) -/

/-- COMMANDs to a home that are unacknowledged. -/
def State.inFlight (s : State) (home : Nat) : Nat := s.dx.fwd.countP fun f => f.home == home && f.sent.isSome

/-- Sends the COMMANDs that wait while fewer than 256 to their home are unacknowledged (R432). -/
def State.pumpForward (s : State) : State :=
  s.each (s.dx.fwd.filter fun f => f.sent.isNone) fun f s =>
    if s.inFlight f.home < 256 then
      let mark (y : Fwd) : Fwd := if y.home = f.home ∧ y.id = f.id then { y with sent := some s.now } else y
      let s : State := { s with dx := { s.dx with fwd := s.dx.fwd.map mark } }
      (s.sendMsg { typ := 0x02, dst := f.home, dom := some f.dom, mid := f.id, aux := f.ds.length, body := .descs f.ds }).ev 0x1CB none 1 f.home (some f.dom)
    else s

/-- Descriptors of one SEND to a session whose home is another device: they form one COMMAND (R430, R431); a full forward buffer ends each with
SESSION_BUSY (R433). -/
def State.forward (s : State) (home k dom : Nat) (ds : List Desc) : State :=
  if ds = [] then s
  else if 4096 ≤ s.dx.fwd.length then
    State.each (s.inc Dict.dnxForwardBusyCount) ds fun d s => s.failDesc { d := d, dom := dom } stBusy 0
  else
    let p := s.peer home
    let s := s.setPeer home { p with txId := (p.txId + 1) % 2 ^ 32 }
    let s := (s.inc Dict.sessForwardCount ds.length 0 (chOf k)).ev 0x086 (some (chOf k)) ds.length 0 (some dom)
    State.pumpForward { s with dx := { s.dx with fwd := s.dx.fwd ++ [{ home := home, id := p.txId, dom := dom, ds := ds, sent := none, since := s.now }] } }

/-- A SEND's descriptors to a session ring (R403, R430): checked one by one; those for another device are forwarded. -/
def State.sendSess (s : State) (dev k dom : Nat) (ds : List Desc) : State :=
  let bad := ds.filter fun d => (s.firstChecks dev k d).isSome
  let good := ds.filter fun d => (s.firstChecks dev k d).isNone
  if dev = s.device then
    s.each ds fun d s => match s.firstChecks dev k d with
      | some e => (s.when (!handleForm d.session) fun s => s.ev 0x085 (some (chOf k)) 1 d.session (some dom)).failDesc { d := d, dom := dom } e.1 e.2
      | none => s.enqueue k { d := d, dom := dom }
  else
    let s := s.each bad fun d s => match s.firstChecks dev k d with
      | some e => s.failDesc { d := d, dom := dom } e.1 e.2
      | none => s
    s.forward dev k dom good

/-- A SEND's descriptors to a control ring (R403, R430): those for another device are forwarded. -/
def State.sendDom (s : State) (dev dom : Nat) (ds : List Desc) : State :=
  if dev = s.device then s.each ds fun d s => s.enqueueDom dom { d := d, dom := dom }
  else
    let s := s.each (ds.filter fun d => !descForm domOps d) fun d s => s.failDesc { d := d, dom := dom } stBad flMalformed
    let good := ds.filter fun d => descForm domOps d
    if s.present dev then s.forward dev 0 dom good else s.each good fun d s => s.failDesc { d := d, dom := dom } stBad flNoHome

/-- A COMMAND's descriptors reach their rings at the home (R430, R431). -/
def State.landCommand (s : State) (dom : Nat) (ds : List Desc) : State :=
  s.each ds fun d s =>
    if sessOps.contains d.opcode then s.enqueue (handleSlot d.session) { d := d, dom := dom, fwd := true }
    else s.enqueueDom dom { d := d, dom := dom, fwd := true }

end Sys2Proof.Machine
end

