-- ==== Sys2Proof/Machine/SelCmd.lean ====
section
/-! DEFINITION. The SELECT command (spec/11, R333-R343): its request record, its rows, and selection runs on other devices. -/

namespace Sys2Proof.Machine

open Sys2Proof

/-- The auxiliary engine domain of a channel is ON. -/
def State.auxOn (s : State) (c : Nat) : Bool := s.isOn (.dom (18 * c + 17))

/-- The channels on which a domain's selection rows run: those it may use, which for a SEALED domain are the channels sealed to it and for another none
that is sealed (R340, R343), with their auxiliary engine domain ON. -/
def State.selChans (s : State) (d : Nat) : List Nat := (s.domChans d).filter s.auxOn

/-- Bytes of a key (R338). -/
def keyBytes (ty : Nat) : Nat := if ty = 2 ∨ ty = 3 then 2 else 4

/-- A key as FP32 bits, or as it is for integers (R320, R332). -/
def widen (ty v : Nat) : Nat := if ty = 2 then v % 65536 * 65536 else if ty = 3 then toF32 (fp16.read (v % 65536)) else v

/-- A request record's selection (R337). -/
def reqOf (b : Bytes) : SelReq :=
  let f := le b 3 1
  { op := le b 2 1, asc := bit f 0, ka140 := bit f 1, ties := bit f 2, noNan := bit f 3, noNegInf := bit f 4, softmax := bit f 5, ty := le b 4 1, k := le b 6 2, param := le b 16 4 }

/-- A run table entry (R337): device, flow, key, offset, elements. -/
def runEntry (b : Bytes) (i : Nat) : Nat × Nat × Nat × Nat × Nat :=
  let o := 64 + 32 * i
  (le b o 1, le b (o + 2) 2, le b (o + 4) 4, le b (o + 8) 8, le b (o + 16) 4)

/-- w of R338. -/
def selWidth (b : Bytes) : Nat :=
  let r := reqOf b
  if r.op = 0 then (if r.ties then r.k + 255 else r.k) else le b 8 8

/-- The checks of R326-R338 on a record for a count of rows; reserved bits and bytes are ignored (R10). -/
def reqOk (b : Bytes) (count : Nat) : Bool :=
  let r := reqOf b
  let n := le b 8 8
  let runs := le b 20 2
  let masked := bit (le b 3 1) 6
  decide (64 + 32 * runs ≤ b.length) && decide (1 ≤ count) && decide (count ≤ 65536) && (decide (runs = 0) || decide (count = 1)) &&
  decide (le b 1 1 ≤ 1) && decide (r.op ≤ 3) && decide (1 ≤ r.ty) && decide (r.ty ≤ 5) &&
  (if r.op = 0 then decide (1 ≤ r.k) && decide (r.k ≤ 4096) else decide (r.k = 0)) &&
  (if r.op = 1 then !r.asc && decide (runs = 0) && flt 0 r.param && !fisNan r.param && !flt 0x3F800000 r.param
   else if r.op = 2 then decide (runs = 0) else decide (r.param = 0)) &&
  decide (runs ≤ 4096) && !(masked && decide (runs ≠ 0)) &&
  (if runs = 0 then decide (1 ≤ n) && decide (n ≤ 1048576)
   else
    let es := (List.range runs).map (runEntry b)
    es.all (fun e => decide (e.1 < 64) && decide (1 ≤ e.2.2.2.2) && decide (e.2.2.2.2 ≤ 1048576)) &&
    decide (sumOf (fun e => e.2.2.2.2) es = n) && decide (n ≤ 2 ^ 32)) &&
  decide (count * (64 + 8 * selWidth b) ≤ le b 56 8)

/-- The elements of a contiguous row (R338): the values, then the mask where MASKED is set. -/
def rowElems (b : Bytes) (data : Bytes) : List Elem :=
  let n := le b 8 8
  let e := keyBytes (le b 4 1)
  let masked := bit (le b 3 1) 6
  let base := (n * e + 63) / 64 * 64
  (List.range n).map fun i => { idx := i, key := widen (le b 4 1) (le data (e * i) e), mask := !masked || bit (data.getD (base + i / 8) 0) (i % 8) }

/-- The elements of a run (R333): pairs of an index and a key. -/
def runElems (ty : Nat) (data : Bytes) : List Elem :=
  (List.range (data.length / 8)).map fun i => { idx := le data (8 * i) 4, key := widen ty (le data (8 * i + 4) (keyBytes ty)) }

/-! ## Lanes (R323, R325) -/

/-- Rows of the serving step are still to be served on channel c's selection unit: the running step has rows of c's sessions (log 175). -/
def State.stepRowsOn (s : State) (c : Nat) : Bool :=
  match s.sv.run with
  | some v => v.rows.any fun r => chOf r.k == c
  | none => false

/-- Lanes that SELECT rows may hold on channel c: `sel.select_lanes` while step rows wait, otherwise all 16. -/
def State.laneCap (s : State) (c : Nat) : Nat := if s.stepRowsOn c then Nat.min 16 (s.sreg Dict.selSelectLanes 0 c) else 16

/-- Lanes that SELECT rows hold on channel c. -/
def State.lanesHeld (s : State) (c : Nat) : Nat := s.se.lanes.countP fun l => l.c == c

/-- Why a SELECT takes up no further row (R343): its deadline is past, PICK_LOST, or a checkpoint drain. -/
def State.selStop (s : State) (r : DRun) : Option Nat :=
  if s.isLate r.q.d.deadline then some stDeadline else if s.pk.st = .lost then some stPickLost else if s.ck.drain then some stHold else none

/-- The rows of a SELECT that are neither written nor on a lane start, in row order, each on its channel where a lane is free for it (R325, R339). -/
def State.fillSelect (s : State) (e : Nat × Nat) : State :=
  match s.drun e.1 e.2 with
  | none => s
  | some r =>
    let cs := s.selChans e.1
    if r.stage ≠ 1 ∨ r.q.inSt = 4 ∨ cs = [] ∨ (s.selStop r).isSome then s
    else
      s.each (List.range r.q.d.count) fun row s =>
        let c := cs.getD (row % cs.length) 0
        let taken := (s.se.lanes.any fun l => l.d == e.1 && l.id == e.2 && l.row == row) || (r.rows.any fun y => y.getD 0 0 == row)
        if taken || decide (s.laneCap c ≤ s.lanesHeld c) then s
        else { s with se := { s.se with lanes := s.se.lanes ++ [{ c := c, d := e.1, id := e.2, row := row }] } }

/-- Free lanes serve the waiting SELECT rows, in command arrival order and then row order (R325); a row on a channel whose auxiliary engine domain has left
ON is abandoned and starts again elsewhere (R343). -/
def State.fillLanes (s : State) : State :=
  let s : State := { s with se := { s.se with lanes := s.se.lanes.filter fun (l : SelLane) => s.auxOn l.c } }
  s.each s.se.selects fun e s => s.fillSelect e

/-- A SELECT holds no lane and waits for none any more. -/
def State.dropLanes (s : State) (d id : Nat) : State :=
  { s with se := { s.se with selects := s.se.selects.filter (fun e => !(e.1 == d && e.2 == id)), lanes := s.se.lanes.filter fun (l : SelLane) => !(l.d == d && l.id == id) } }

/-- The bulk tag of a command's staged frames (R334). -/
def stageTag (d id : Nat) : Nat := 2 ^ 41 + d * 2 ^ 24 + id

/-- Sub-requests of a command that have not been sent take REMOTE slots and go (R333, R236). -/
def State.sendSubs (s : State) (d id : Nat) (b : Bytes) : State :=
  s.each (s.se.subs.filter fun u => u.d == d && u.id == id && u.slot == 4096) fun u s =>
    match s.takeSlot u.chan 2 with
    | none => s.trackWait u.chan
    | some (i, s) =>
      let mark (y : SubReq) : SubReq := if y.d = d ∧ y.id = id ∧ y.run = u.run then { y with slot := i } else y
      let s : State := { s with se := { s.se with subs := s.se.subs.map mark } }
      let e := runEntry b u.run
      let r := reqOf b
      s.sendMsg { typ := 0x0B, dst := u.dev, dom := some d, mid := i, body := .subq { op := r.op, flags := le b 3 1, ty := r.ty, k := r.k, param := r.param, flow := e.2.1, key := e.2.2.1, off := e.2.2.2.1, n := e.2.2.2.2 } }

/-- A command's sub-requests are dropped, with their slots. -/
def State.dropSubs (s : State) (d id : Nat) : State :=
  let mine := s.se.subs.filter fun u => u.d == d && u.id == id
  let s := s.each (mine.filter fun u => decide (u.slot < 4096) && u.res.isNone) fun u s => s.freeSlot u.chan u.slot
  { s with se := { s.se with subs := s.se.subs.filter fun (u : SubReq) => !(u.d == d && u.id == id) } }

/-- A SELECT or VEC_SEARCH ends with a status (R339, R343, R362): once what it wrote is flushed. -/
def State.endOutput (s : State) (d id flow status : Nat) : State :=
  match s.drun d id with
  | none => s
  | some r =>
    if s.flowReady flow ∧ r.b ≠ 0 then (s.setDrun d { r with stage := status, q := { r.q with inSt := 4 } }).txFlush flow (.domFlush d id)
    else s.endDrun d id (if r.b ≠ 0 then stAbort else status) r.a r.b

/-- A SELECT ends: staged frames and sub-requests go, and an end before its last row is counted (R343, R344). -/
def State.endSelect (s : State) (d : Nat) (r : DRun) (status : Nat) : State :=
  let c := (s.selChans d).headD 0
  let s := ((s.dropSubs d r.id).freeBulk (stageTag d r.id)).dropLanes d r.id
  let s := s.when (decide (status ≠ stDone) && decide (status ≠ stFewer)) fun s => (s.inc Dict.selSelectAbortCount 1 0 c).ev 0x14B (some c) 1 0 (some d)
  s.endOutput d r.id (le r.q.input 48 2) status

/-- Frames that a SORT of many runs stages (R334). -/
def stageFrames (b : Bytes) : Nat := if le b 2 1 = 3 ∧ 64 < le b 20 2 then (8 * le b 8 8 + 65535) / 65536 else 0

/-- A SELECT that waits for its staged frames or tracker slots tries again (R334, R238). -/
def State.trySelect (s : State) (d id : Nat) : State :=
  match s.drun d id with
  | none => s
  | some r =>
    let b := r.q.input
    let c := (s.selChans d).headD 0
    if r.q.inSt = 4 then s
    else if r.stage = 1 then
      match (if s.se.lanes.any (fun l => l.d == d && l.id == id) then none else s.selStop r) with
      | some st => s.endSelect d r st
      | none => (s.sendSubs d id b).fillLanes
    else match (if stageFrames b = 0 then some s else s.takeBulk d c (stageTag d id) (stageFrames b)) with
      | some s =>
        let s := (s.setDrun d { r with stage := 1 }).sendSubs d id b
        State.fillLanes { s with se := { s.se with selects := s.se.selects ++ [(d, id)] } }
      | none => s.domWait d r.since [c] fun s => s.endSelect d r stNoFrames

/-- SELECT (R337, R340). -/
def execSelect (t : Nat) (d : Nat) (rec : Option Bytes) (s : State) : Host.Outcome State Fault Refusal :=
  run (.select t d rec) t s fun s => s.startDomIn d 0x50 rec fun r b s =>
    let cs := s.selChans d
    let es := (List.range (le b 20 2)).map (runEntry b)
    if descBare r.q.d = false ∨ reqOk b r.q.d.count = false then s.endDrun d r.id stBad 0 0
    else if s.reg Dict.dsecClass 0 d = 2 ∧ (es.any fun e => e.1 != s.device && (s.usableSets e.1 (some d)).isEmpty) = true then s.endDrun d r.id stDenied 0 0
    else if cs = [] then s.endDrun d r.id stBad 0 0
    else
      let subs := ((List.range es.length).zip es).filterMap fun e =>
        if e.2.1 = s.device then none else some ({ d := d, id := r.id, run := e.1, dev := e.2.1, chan := cs.headD 0, slot := 4096, since := s.now } : SubReq)
      let s : State := { s with se := { s.se with subs := s.se.subs ++ subs } }
      (s.setDrun d { r with q := { r.q with input := b } }).trySelect d r.id

/-- Merge passes of at most 64 sources over n (R334). -/
def mergePasses : Nat → Nat → Nat
  | 0, _ => 0
  | fuel + 1, n => if n ≤ 64 then 1 else ceilDiv n 64 + mergePasses fuel (ceilDiv n 64)

/-- The lane and result counters of a row of a number of runs, 0 for a contiguous one (R344, R345). -/
def State.countRow (s : State) (c d ns : Nat) (r : SelReq) (o : SelOut) (runs : Nat) : State :=
  let s := (((s.inc Dict.selRowCount 1 0 c).ev 0x140 (some c) 1 0 (some d)).ev 0x143 (some c) 1 0 (some d)).maxReg Dict.selRowTimeMax ns 0 c
  let s := s.when o.fewer fun s => (s.inc Dict.selFewerCount 1 0 c).ev 0x144 (some c) 1 0 (some d)
  let s := s.when (decide (0 < o.dup)) fun s => (s.inc Dict.selDuplicateCount o.dup 0 c).ev 0x145 (some c) o.dup 0 (some d)
  let s := s.when (r.ties && decide (r.k < o.count)) fun s => s.ev 0x146 (some c) (o.count - r.k) 0 (some d)
  s.when (decide (runs ≠ 0)) fun s => s.ev 0x148 (some c) (mergePasses 3 runs) 0 (some d)

/-- A row's result from its input (R326-R336): none while a sub-request is unanswered; with whether a transfer failed. -/
def State.rowResult (s : State) (d id : Nat) (b : Bytes) (data : List Bytes) : Option (SelOut × Bool) :=
  let r := reqOf b
  if le b 20 2 = 0 then some (select r (rowElems b (data.headD [])), false)
  else
    let parts := (List.range (le b 20 2)).map fun i =>
      if (runEntry b i).1 = s.device then some (partialOf r (runElems r.ty (data.getD i [])))
      else (s.se.subs.find? fun u => u.d == d && u.id == id && u.run == i).bind (·.res)
    if parts.any (·.isNone) then none
    else
      let ps := parts.filterMap fun p => p
      some (mergeRuns r ps, ps.any fun p => !p.ok)

/-- SELECT_ROW_COMPLETE (R339, R343): the row on its lane ends and its result is written; then the command ends, stops, or goes on, and the lane serves the
next row (R325). -/
def execSelectRowComplete (t : Nat) (d id row ns : Nat) (data : Option (List Bytes)) (s : State) : Host.Outcome State Fault Refusal :=
  run (.selectRowComplete t d id row ns data) t s fun s =>
    match s.drun d id, s.se.lanes.find? fun l => l.d == d && l.id == id && l.row == row with
    | some r, some lane =>
      let b := r.q.input
      let c := lane.c
      let flow := le b 48 2
      match data with
        | none => s.endSelect d r stAbort
        | some data => match s.rowResult d id b data with
          | none => s
          | some (o, failed) =>
            if failed ∨ s.flowReady flow = false then s.endSelect d r stAbort
            else
              let bytes := o.bytes row
              let s := (s.countRow c d ns (reqOf b) o (le b 20 2)).txWrite flow (le b 28 4) (le b 40 8 + row * (64 + 8 * selWidth b)) bytes (some (.domFlush d id))
              let r := { r with a := r.a + 1, b := r.b + bytes.length, rows := r.rows ++ [[row, b2n o.fewer]] }
              let s : State := State.setDrun { s with se := { s.se with lanes := s.se.lanes.filter fun l => !(l == lane) } } d r
              if r.a = r.q.d.count then (s.endSelect d r (if r.rows.any fun e => e.getD 1 0 == 1 then stFewer else stDone)).fillLanes
              else match s.selStop r with
                | some st => (s.endSelect d r st).fillLanes
                | none => s.fillLanes
    | _, _ => s

/-- SUBREQUEST (R333): this device reads the run, selects or sorts it, and returns the partial result. -/
def execSubrequest (t : Nat) (e : DEnv) (q : SubQ) (data : Option Bytes) (s : State) : Host.Outcome State Fault Refusal :=
  run (.subrequest t e q data) t s fun s => s.arrive e true fun s =>
    let r : SelReq := { op := q.op, asc := bit q.flags 0, ka140 := bit q.flags 1, ties := bit q.flags 2, noNan := bit q.flags 3, noNegInf := bit q.flags 4, softmax := bit q.flags 5, ty := q.ty, k := q.k, param := q.param }
    let none' : PartRes := { ok := false, elems := [], tied := 0, kth := none, valid := 0, invalid := 0, left := 0 }
    let p := match s.selChans e.dom, data with
      | _ :: _, some b => partialOf r (runElems q.ty b)
      | _, _ => none'
    let s := match s.selChans e.dom with
      | c :: _ => (s.inc Dict.selRowCount 1 0 c).ev 0x140 (some c) 1 0 (some e.dom)
      | [] => s
    s.sendMsg { typ := 0x0C, dst := e.src, dom := some e.dom, mid := e.mid, body := .part p }

/-- SUBRESULT (R336): a partial result reaches the merging channel. -/
def execSubresult (t : Nat) (e : DEnv) (p : PartRes) (s : State) : Host.Outcome State Fault Refusal :=
  run (.subresult t e p) t s fun s => s.arrive e true fun s =>
    match s.se.subs.find? fun u => u.dev == e.src && u.slot == e.mid && u.res.isNone with
    | none => s.ev 0x014 none 1 e.mid (some e.dom)
    | some u =>
      let mark (y : SubReq) : SubReq := if y.d = u.d ∧ y.id = u.id ∧ y.run = u.run then { y with res := some p } else y
      let s : State := { s with se := { s.se with subs := s.se.subs.map mark } }
      let s := s.freeSlot u.chan u.slot
      match s.drun u.d u.id with
      | some r => if p.ok then s.trySelect u.d u.id else s.endSelect u.d { r with a := 0, b := 0 } stAbort
      | none => s

/-- A device has left the warp: SELECTs with a run on it end (R343). -/
def selectsLose (dev : Nat) (s : State) : State :=
  s.each (s.se.subs.filter fun u => u.dev == dev && u.res.isNone) fun u s =>
    match s.drun u.d u.id with
    | some r => s.endSelect u.d r stAbort
    | none => s

end Sys2Proof.Machine
end

