-- ==== Sys2Proof/Machine/Search.lean ====
section
/-! DEFINITION. Vector similarity search (spec/12): collections, quantisation, inserts, deletes, queries and compaction. -/

namespace Sys2Proof.Machine

open Sys2Proof

/-! ## Collections (R346-R349) -/

/-- A collection, by its identifier. -/
def State.coll (s : State) (i : Nat) : Coll := Tbl.get {} s.se.colls i

/-- Replaces a collection. -/
def State.setColl (s : State) (i : Nat) (c : Coll) : State := { s with se := { s.se with colls := Tbl.put {} s.se.colls i c } }

/-- The home channel (R348), or the channel that acts as home while the home's auxiliary engine domain is not ON (R364). -/
def State.collHome (s : State) (c : Coll) : Option Nat := c.chans.find? fun n => s.chOn n && s.auxOn n

/-- The channel a list is placed on (R348). -/
def Coll.chanOf (c : Coll) (l : Nat) : Nat := c.chans.getD (l % Nat.max 1 c.chans.length) 0

/-- Bytes of a stored record, and records of a frame (R351). -/
def recBytes (dim : Nat) : Nat := 64 * ((32 + dim + 63) / 64)
def recsPerFrame (dim : Nat) : Nat := 65536 / recBytes dim

/-- Frames of n records (R351). -/
def listFrames (dim n : Nat) : Nat := (n + recsPerFrame dim - 1) / Nat.max 1 (recsPerFrame dim)

/-- Frames reserved at creation on the home channel: centroids and identifier map (R349). -/
def baseFrames (dim lists capacity : Nat) : Nat := (lists * ((dim + 63) / 64) * 64 + 65535) / 65536 + (capacity * 8 + 65535) / 65536

/-- The bulk tags of a collection's base frames, of a list's, and of those that a compacted list has left (R354). -/
def collTag (i : Nat) : Nat := 2 ^ 32 + i * 2 ^ 18
def listTag (i l : Nat) : Nat := collTag i + l + 1
def oldTag (i l : Nat) : Nat := collTag i + 2 ^ 17 + l

/-- A stored record's bytes (R351). -/
def VRec.bytes (dim : Nat) (r : VRec) : Bytes :=
  leBytes 4 r.id ++ leBytes 4 r.norm ++ leBytes 8 r.tags ++ leBytes 6 r.born ++ leBytes 6 r.died ++ leBytes 4 0 ++ r.codes ++
  List.replicate (recBytes dim - 32 - dim) 0

/-- The records of a list, in record order. -/
def inList (c : CollData) (l : Nat) : List VRec := c.recs.filter fun r => r.list == l

/-- The frames of a list match its records: grown by one where they need one more; none where it cannot be had (R349, R181). -/
def State.growList (s : State) (i l : Nat) : Option State :=
  let c := s.coll i
  let need := listFrames c.data.dim (inList c.data l).length
  let have' := sumOf (fun b => if b.tag = listTag i l then b.n else 0) s.tm.bulk
  if need ≤ have' then some s else s.takeBulk c.dom (c.chanOf l) (listTag i l) (need - have')

/-- Frames that compacted lists of a collection have left go back once no scan that began on them runs (R354). -/
def State.freeOld (s : State) (i : Nat) : State :=
  let base := oldTag i 0
  let busy (l : Nat) : Bool := s.se.queries.any fun q => q.coll == i && q.wait.contains l
  s.each ((s.tm.bulk.filter fun b => decide (base ≤ b.tag) && decide (b.tag < base + 65536) && !busy (b.tag - base)).map (·.tag)) fun t s => s.freeBulk t

/-- Every frame of a collection, and its place in the near reserve, goes back (R349, R356, R511). -/
def State.dropColl (s : State) (i : Nat) : State :=
  let c := s.coll i
  let near := (c.chans.headD 0, 8 * c.data.dim)
  let mine (b : Bulk) : Bool := decide (collTag i ≤ b.tag) && decide (b.tag < collTag (i + 1))
  let s := s.each (s.tm.bulk.filter mine) fun b s => s.freeBulkFrames b
  let s : State := { s with tm := { s.tm with bulk := s.tm.bulk.filter fun b => !mine b, claims := s.tm.claims.erase near } }
  s.setColl i {}

/-- Live records of a collection. -/
def Coll.live (c : Coll) : Nat := c.data.recs.countP fun r => r.died == 0

/-- The commands that run on a collection end with BAD_STATE and their progress (R355, R364, R366); a VEC_SEARCH flushes what it wrote first (R362). -/
def State.endColl (s : State) (i : Nat) : State :=
  let d := (s.coll i).dom
  let s : State := { s with se := { s.se with queries := s.se.queries.filter fun (q : Query) => q.coll != i } }
  let uses (r : DRun) : Bool := [0x49, 0x4A, 0x4B].contains r.q.d.opcode && decide (le r.q.input 2 2 = i) && decide (r.q.inSt ≠ 4)
  (s.each ((s.dring d).running.filter uses) fun r s => if r.q.d.opcode = 0x4B then s.endOutput d r.id (le r.q.input 6 2) stBad else s.endDrun d r.id stBad r.a 0).freeOld i

/-- A collection enters FAILED (R355). -/
def State.failColl (s : State) (i : Nat) : State :=
  let c := s.coll i
  if c.st ≠ 1 then s else (s.setColl i { c with st := 2 }).endColl i

/-- Collections left without a channel that could act as home (R364). -/
def collsHomeless (s : State) : State :=
  s.each ((s.se.colls.filter fun e => e.2.st == 1 && decide (s.collHome e.2 = none)).map (·.1)) fun i s => s.endColl i

/-- A channel has left ON: collections with lists on it fail, and their frames on it are gone (R355). -/
def collsLeave (c : Nat) (s : State) : State :=
  s.each ((s.se.colls.filter fun e => e.2.chans.contains c).map (·.1)) fun i s => s.failColl i

/-! ## Quantisation and scores (R347, R350) -/

/-- The FP32 product q_j × s_j rounded to BF16 (R350). -/
def toBf16 (v : Nat) : Num := bf16.read (bf16.write false (f32 v)).1

/-- A stored vector's codes (R350): round((x_j − o_j) / s_j), limited to −128 to 127. -/
def quantise (scales offs x : List Nat) : List Nat := ((x.zip offs).zip scales).map fun e => (toInt8 (f32 (fdiv (fsub e.1.1 e.1.2) e.2))).1

/-- The vector that codes read back as: x′_j = s_j × c_j + o_j. -/
def readBack (scales offs codes : List Nat) : List Nat :=
  ((codes.zip offs).zip scales).map fun e => fadd (fmul e.2 (let i := toSigned 8 e.1.1; toF32 (.fin (decide (i < 0)) i.natAbs 1))) e.1.2

/-- ‖x‖² in FP32. -/
def normSq (x : List Nat) : Nat := fsum (x.map fun v => fmul v v)

/-- A vector as its collection's distance takes it: divided by its norm under COSINE (R350, R347). -/
def prepare (dist : Nat) (x : List Nat) : List Nat := if dist = 1 then let n := fnorm x; x.map fun v => fdiv v n else x

/-- q · x′ as the search unit computes it (R350): exact products of BF16 factors, accumulated in FP32 in record order, and Σ q_j × o_j. -/
def dotStored (scales offs q codes : List Nat) : Nat :=
  let step (a : Nat) (e : (Nat × Nat) × Nat) : Nat :=
    let i := toSigned 8 e.2
    toF32 ((f32 a).add ((toBf16 (fmul e.1.1 e.1.2)).mul (.fin (decide (i < 0)) i.natAbs 1)))
  let a := ((q.zip scales).zip codes).foldl step 0
  fadd a (fsum ((q.zip offs).map fun e => fmul e.1 e.2))

/-- The score of a stored vector (R347); `q` is prepared. -/
def score (c : CollData) (q : List Nat) (norm : Nat) (codes : List Nat) : Nat :=
  let d := dotStored c.scales c.offs q codes
  if c.dist = 2 then
    let v := fadd (fsub (normSq q) (fmul 0x40000000 d)) norm
    if flt v 0 then 0 else v
  else d

/-- Result order (R347): native ordering, descending but for SQUARED_L2; ties to the lower identifier. -/
def resultBefore (dist : Nat) (a b : Nat × Nat) : Bool := SelReq.before { op := 0, asc := decide (dist = 2) } { idx := a.1, key := a.2 } { idx := b.1, key := b.2 }

/-- The lists in the order of their centroids' scores (R359, R358). -/
def rankLists (c : CollData) (q : List Nat) : List Nat :=
  let sc := ((List.range c.cents.length).zip c.cents).map fun e => (e.1, score c q e.2.1 e.2.2)
  (sortBy (resultBefore c.dist) sc).map (·.1)

/-- Stores a vector: codes and stored norm. -/
def storeVec (c : CollData) (x : List Nat) : Nat × List Nat :=
  let k := quantise c.scales c.offs (prepare c.dist x)
  (normSq (readBack c.scales c.offs k), k)

/-- Elements of a type code (R357), as FP32. -/
def elems (ty : Nat) (b : Bytes) (off n : Nat) : List Nat :=
  (List.range n).map fun j => if ty = 1 then le b (off + 4 * j) 4 else widen ty (le b (off + 2 * j) 2)

/-- Bytes of an element type. -/
def elemBytes (ty : Nat) : Nat := if ty = 1 then 4 else 2

/-- An FP32 value is finite. -/
def finite (v : Nat) : Bool := decide (v % 2 ^ 31 < 0x7F800000)

/-- A collection's vectors are finite, and have a norm under COSINE (R358, R360). -/
def vecOk (dist : Nat) (x : List Nat) : Bool := x.all finite && !(decide (dist = 1) && (f32 (fnorm x)).isZero)

/-! ## COLLECTION_CREATE (R356) -/

/-- The create record's checks, and the collection it gives. -/
def parseColl (b : Bytes) : Option CollData :=
  let d := le b 4 2
  let n := le b 8 4
  let vec (o k : Nat) : List Nat := (List.range k).map fun j => le b (o + 4 * j) 4
  let scales := vec 64 d
  let offs := vec (64 + 4 * d) d
  let ok := decide (le b 1 1 ≤ 1) && decide (le b 2 1 ≤ 2) && decide (le b 3 1 < 16) && decide (1 ≤ d) && decide (d ≤ 4096) && zeroAt b 6 2 &&
    decide (1 ≤ n) && decide (n ≤ 65536) && decide (1 ≤ le b 12 4) && decide (le b 12 4 ≤ 268435456) && zeroAt b 16 48 &&
    decide (b.length = 64 + 8 * d + 4 * n * d) && scales.all (fun v => finite v && flt 0 v) && offs.all finite &&
    (vec (64 + 8 * d) (n * d)).all finite
  if ok then
    let c : CollData := { dist := le b 2 1, mask := le b 3 1, dim := d, lists := n, capacity := le b 12 4, scales := scales, offs := offs }
    some { c with cents := (List.range n).map fun l => storeVec c (vec (64 + 8 * d + 4 * d * l) d) }
  else none

/-- Collections of a domain. -/
def State.collsOf (s : State) (d : Nat) : Nat := s.se.colls.countP fun e => e.2.st != 0 && e.2.dom == d

/-- A create that waits for its frames tries again, up to `dtier.frame_grace` picks (R349). -/
def State.tryCreate (s : State) (d : Nat) (r : DRun) (c : CollData) : State :=
  let i := r.q.d.count
  let allowed := s.domChans d
  let cs := if s.reg Dict.dsecClass 0 d = 2 ∨ c.mask = 0 then allowed else allowed.filter fun n => bit c.mask n
  let home := cs.headD 0
  let near := 8 * c.dim
  if cs = [] then s.endDrun d r.id stBad 0 0
  else
    let got := if s.reserveUsed home + near ≤ s.reservePool home then s.takeBulk d home (collTag i) (baseFrames c.dim c.lists c.capacity) else none
    match got with
    | some s =>
      let s : State := { s with tm := { s.tm with claims := s.tm.claims ++ [(home, near)] } }
      (s.setColl i { st := 1, dom := d, chans := cs, data := c }).endDrun d r.id stDone 0 0
    | none => s.domWait d r.since [home] fun s => s.endDrun d r.id stNoFrames 0 0

/-- COLLECTION_CREATE (R356): creates a collection, or with no data deletes one. -/
def execCollectionCreate (t : Nat) (d : Nat) (rec : Option Bytes) (s : State) : Host.Outcome State Fault Refusal :=
  run (.collectionCreate t d rec) t s fun s => s.startDomIn d 0x48 rec fun r b s =>
    let i := r.q.d.count
    let c := s.coll i
    if !s.holdsKeys d then s.endDrun d r.id stDenied 0 0
    else if 4096 ≤ i ∨ descBare r.q.d = false then s.endDrun d r.id stBad 0 0
    else if r.q.d.dataLen = 0 then
      if c.st = 0 ∨ c.dom ≠ d then s.endDrun d r.id stDenied 0 0 else (s.dropColl i).endDrun d r.id stDone 0 0
    else if c.st ≠ 0 then s.endDrun d r.id stBad 0 0
    else if s.sreg Dict.dsearchMaxCollections 0 d ≤ s.collsOf d then s.endDrun d r.id stDenied 0 0
    else match parseColl b with
      | none => s.endDrun d r.id stBad 0 0
      | some c => let r := { r with q := { r.q with input := b } }; (s.setDrun d r).tryCreate d r c

/-! ## Items (R357) -/

/-- The stride of a command's items. -/
def itemStride (op ty dim : Nat) : Nat := if op = 0x49 then 64 * ((16 + dim * elemBytes ty + 63) / 64) else if op = 0x4A then 4 else 64 + 64 * ((dim * elemBytes ty + 63) / 64)

/-- A VEC command's common checks (R161, R355, R357, R364): the status with which it ends, or none. -/
def State.vecCheck (s : State) (d : Nat) (r : DRun) (b : Bytes) : Option Nat :=
  let op := r.q.d.opcode
  let i := le b 2 2
  let c := s.coll i
  let ty := if op = 0x4A then 1 else le b 4 1
  let resv := if op = 0x49 then zeroAt b 5 59 else if op = 0x4A then zeroAt b 4 60 else zeroAt b 5 1 && zeroAt b 12 4 && zeroAt b 32 32
  if b.length < 64 ∨ 1 < le b 1 1 ∨ descBare r.q.d = false ∨ r.q.d.count < 1 ∨ 65536 < r.q.d.count ∨ 4096 ≤ i then some stBad
  else if c.st = 0 ∨ c.dom ≠ d then some stDenied
  else if ty < 1 ∨ 3 < ty ∨ resv = false ∨ c.st = 2 ∨ s.collHome c = none then some stBad
  else if b.length ≠ 64 + r.q.d.count * itemStride op ty c.data.dim then some stBad
  else none

/-! ## Insert and delete (R353, R358) -/

/-- The live record of an identifier is marked died at the current pick (R353). -/
def killRec (id pick : Nat) (rs : List VRec) : List VRec := rs.map fun r => if r.id = id ∧ r.died = 0 then { r with died := pick % 2 ^ 48 } else r

/-- One item of a VEC_INSERT: none where its list needs a frame that cannot be had; otherwise whether it was applied. -/
def State.insertItem (s : State) (d i : Nat) (b : Bytes) (ty off : Nat) : Option (Bool × State) :=
  let c := s.coll i
  let home := (s.collHome c).getD 0
  let id := le b off 4
  let l := le b (off + 4) 4
  let x := elems ty b (off + 16) c.data.dim
  let old := c.data.recs.any fun r => r.id == id && r.died == 0
  let skip := (decide (c.data.lists ≤ l) && decide (l ≠ 0xFFFFFFFF)) || decide (id = 0xFFFFFFFF) || !vecOk c.data.dist x || decide (c.data.capacity ≤ c.live)
  if skip then some (false, (s.inc Dict.searchInsertRefused 1 0 home).ev 0x16A (some home) 1 i (some d))
  else
    let l := if l = 0xFFFFFFFF then (rankLists c.data (prepare c.data.dist x)).headD 0 else l
    let v := storeVec c.data x
    let r : VRec := { id := id, list := l, tags := le b (off + 8) 8, born := s.pk.current % 2 ^ 48, died := 0, norm := v.1, codes := v.2 }
    let recs := killRec id s.pk.current c.data.recs ++ [r]
    let s := s.setColl i { c with data := { c.data with recs := recs } }
    (s.growList i l).map fun s =>
      let s := (s.inc Dict.searchInsertCount 1 0 home).ev 0x167 (some home) 1 i (some d)
      (true, s.when old fun s => s.ev 0x168 (some home) 1 i (some d))

/-- A VEC_INSERT goes on from its next item while its frames can be had (R358, R366): `b` counts items done, `a` those applied. -/
def State.insertItems : Nat → Nat → Nat → State → State
  | 0, _, _, s => s
  | n + 1, d, id, s =>
    match s.drun d id with
    | none => s
    | some r =>
      let b := r.q.input
      let i := le b 2 2
      let ty := le b 4 1
      let stride := itemStride 0x49 ty (s.coll i).data.dim
      if r.q.d.count ≤ r.b then s.endDrun d id (if r.a = r.q.d.count then stDone else stPartial) r.a 0
      else match s.insertItem d i b ty (64 + r.b * stride) with
        | none => s
        | some (ok, s) => State.insertItems n d id (s.setDrun d { r with b := r.b + 1, a := r.a + b2n ok, since := s.pk.current })

/-- The channel whose frame a waiting VEC_INSERT needs: that of its next item's list. -/
def State.insertChan (s : State) (r : DRun) : Nat :=
  let b := r.q.input
  let c := s.coll (le b 2 2)
  let off := 64 + r.b * itemStride 0x49 (le b 4 1) c.data.dim
  let l := le b (off + 4) 4
  c.chanOf (if l = 0xFFFFFFFF then (rankLists c.data (prepare c.data.dist (elems (le b 4 1) b (off + 16) c.data.dim))).headD 0 else l)

/-- A VEC_INSERT that waits for a list frame tries again; NO_FRAMES after `dtier.frame_grace` picks; PICK_LOST and a checkpoint drain stop it (R366). -/
def State.tryInsert (s : State) (d id : Nat) : State :=
  match s.drun d id with
  | none => s
  | some r =>
    if s.pk.st = .lost then s.endDrun d id stPickLost r.a 0
    else if s.ck.drain then s.endDrun d id stHold r.a 0
    else
      let s := State.insertItems (r.q.d.count + 1) d id s
      match s.drun d id with
      | some r => s.domWait d r.since [s.insertChan r] fun s => s.endDrun d id stNoFrames r.a 0
      | none => s

/-- VEC_INSERT (R358). -/
def execVecInsert (t : Nat) (d : Nat) (rec : Option Bytes) (s : State) : Host.Outcome State Fault Refusal :=
  run (.vecInsert t d rec) t s fun s => s.startDomIn d 0x49 rec fun r b s =>
    match s.vecCheck d r b with
    | some st => s.endDrun d r.id st 0 0
    | none => (s.setDrun d { r with q := { r.q with input := b } }).tryInsert d r.id

/-- VEC_DELETE (R353): progress counts the records deleted. -/
def execVecDelete (t : Nat) (d : Nat) (rec : Option Bytes) (s : State) : Host.Outcome State Fault Refusal :=
  run (.vecDelete t d rec) t s fun s => s.startDomIn d 0x4A rec fun r b s =>
    match s.vecCheck d r b with
    | some st => s.endDrun d r.id st 0 0
    | none =>
      let i := le b 2 2
      let c := s.coll i
      let home := (s.collHome c).getD 0
      let step (a : List VRec × Nat) (j : Nat) : List VRec × Nat :=
        let id := le b (64 + 4 * j) 4
        if a.1.any fun r => r.id == id && r.died == 0 then (killRec id s.pk.current a.1, a.2 + 1) else a
      let res := (List.range r.q.d.count).foldl step (c.data.recs, 0)
      let s := s.setColl i { c with data := { c.data with recs := res.1 } }
      let s := (s.inc Dict.searchDeleteCount res.2 0 home).ev 0x169 (some home) res.2 i (some d)
      s.endDrun d r.id stDone res.2 0

/-! ## Queries (R352, R359-R365) -/

/-- A record is visible to a query that started in S (R352). -/
def State.visible (s : State) (r : VRec) (start : Nat) : Bool := decide (s.pick48 r.born < start) && (decide (r.died = 0) || decide (start ≤ s.pick48 r.died))

/-- A record passes a query's tag tests. -/
def tagsPass (q : Query) (tags : Nat) : Bool :=
  decide (tags &&& q.require = q.require) && decide (tags &&& q.exclude = 0) && (decide (q.any = 0) || decide (tags &&& q.any ≠ 0))

/-- The query head's ranges (R358's table), for a collection. -/
def headOk (b : Bytes) (o lists : Nat) : Bool :=
  decide (1 ≤ le b o 2) && decide (le b o 2 ≤ 4096) && zeroAt b (o + 2) 2 && decide (1 ≤ le b (o + 4) 4) && decide (le b (o + 4) 4 ≤ lists) &&
  (decide (le b (o + 8) 4 = 0) || (decide (le b (o + 4) 4 ≤ le b (o + 8) 4) && decide (le b (o + 8) 4 ≤ lists))) && zeroAt b (o + 12) 4 && zeroAt b (o + 40) 24

/-- A query of a command's record. -/
def State.queryOf (s : State) (d id i j home : Nat) (b : Bytes) : Query :=
  let c := (s.coll i).data
  let o := 64 + j * itemStride 0x4B (le b 4 1) c.dim
  let np := le b (o + 4) 4
  let mp := le b (o + 8) 4
  { d := d, id := id, idx := j, coll := i, start := s.pk.current, k := le b o 2, nprobe := np, limit := if mp = 0 then np else Nat.min mp (s.sreg Dict.searchMaxProbe 0 home), widen := decide (mp ≠ 0), require := le b (o + 16) 8, exclude := le b (o + 24) 8, any := le b (o + 32) 8, q := elems (le b 4 1) b (o + 64) c.dim }

/-- w of R361: the largest k in the command. -/
def State.searchWidth (s : State) (b : Bytes) (count : Nat) : Nat :=
  let stride := itemStride 0x4B (le b 4 1) (s.coll (le b 2 2)).data.dim
  ((List.range count).map fun j => le b (64 + j * stride) 2).foldl Nat.max 0

/-- A query's result (R361): its status, flags, elements. -/
def resultBytes (q : Query) (status : Nat) (limitReached : Bool) : Bytes :=
  let n := if status = stBad then 0 else q.k
  let fill := List.replicate (n - q.best.length) (0xFFFFFFFF, fNegInf)
  let es := if status = stBad then [] else q.best ++ fill
  [1, 1, status, b2n (decide (1 < q.rounds)) + 2 * b2n limitReached] ++ leBytes 4 n ++ leBytes 4 (if status = stBad then 0 else q.best.length) ++ leBytes 4 q.probed ++
  leBytes 8 q.matched ++ leBytes 8 q.scanned ++ leBytes 4 q.idx ++ leBytes 4 q.start ++ List.replicate 24 0 ++
  es.flatMap fun e => leBytes 4 e.1 ++ leBytes 4 e.2

/-- A query ends: its result is written, and the command ends with its last (R360-R362, R366).  `rows` keeps each query's status. -/
def State.endQuery (s : State) (q : Query) (status : Nat) : State :=
  let s : State := { s with se := { s.se with queries := s.se.queries.filter fun x => !(x.d == q.d && x.id == q.id && x.idx == q.idx) } }
  match s.drun q.d q.id with
  | none => s
  | some r =>
    let b := r.q.input
    let c := s.coll q.coll
    let home := (s.collHome c).getD 0
    let flow := le b 6 2
    let stop (s : State) (st : Nat) : State :=
      let s : State := { s with se := { s.se with queries := s.se.queries.filter fun x => !(x.d == q.d && x.id == q.id) } }
      (s.freeOld q.coll).endOutput q.d q.id flow st
    if s.flowReady flow = false then stop s stAbort
    else
      let bytes := resultBytes q status (decide (status = stFewer) && decide (q.limit ≤ q.probed))
      let s := s.txWrite flow (le b 8 4) (le b 16 8 + q.idx * (64 + 8 * s.searchWidth b r.q.d.count)) bytes (some (.domFlush q.d q.id))
      let s := s.ev 0x161 (some home) 1 q.coll (some q.d)
      let s := s.when (decide (status = stFewer)) fun s => (s.inc Dict.searchFewerCount 1 0 home).ev 0x166 (some home) 1 q.coll (some q.d)
      let r := { r with a := r.a + 1, b := r.b + bytes.length, rows := r.rows ++ [[q.idx, status]] }
      let s := s.setDrun q.d r
      if r.a = r.q.d.count then
        stop s (if r.rows.any fun e => e.getD 1 0 == stBad then stBad else if r.rows.any fun e => e.getD 1 0 == stFewer then stFewer else stDone)
      else if s.isLate r.q.d.deadline then stop s stDeadline
      else if s.pk.st = .lost then stop s stPickLost
      else if s.ck.drain then stop s stHold else s

/-- VEC_SEARCH (R357-R360): its queries start in this pick; one that cannot run ends at once with BAD_STATE. -/
def execVecSearch (t : Nat) (d : Nat) (rec : Option Bytes) (s : State) : Host.Outcome State Fault Refusal :=
  run (.vecSearch t d rec) t s fun s => s.startDomIn d 0x4B rec fun r b s =>
    match s.vecCheck d r b with
    | some st => s.endDrun d r.id st 0 0
    | none =>
      let i := le b 2 2
      let c := s.coll i
      let home := (s.collHome c).getD 0
      let n := r.q.d.count
      let stride := itemStride 0x4B (le b 4 1) c.data.dim
      if ((List.range n).all fun j => headOk b (64 + j * stride) c.data.lists) = false ∨ le b 24 8 < n * (64 + 8 * s.searchWidth b n) then s.endDrun d r.id stBad 0 0
      else
        let s := s.setDrun d { r with q := { r.q with input := b } }
        let qs := (List.range n).map fun j => s.queryOf d r.id i j home b
        let s : State := { s with se := { s.se with queries := s.se.queries ++ qs } }
        let s := (s.inc Dict.searchQueryCount n 0 home).ev 0x160 (some home) n i (some d)
        s.each (qs.filter fun q => !vecOk c.data.dist q.q) fun q s => s.endQuery q stBad

/-- The lists of a query's next round (R359, step 2). -/
def Query.nextRound (q : Query) : List Nat := ((q.rank.getD []).drop q.probed).take (Nat.min q.nprobe (q.limit - q.probed))

/-- Replaces a running query. -/
def State.setQuery (s : State) (q : Query) : State :=
  let f (x : Query) : Query := if x.d = q.d ∧ x.id = q.id ∧ x.idx = q.idx then q else x
  { s with se := { s.se with queries := s.se.queries.map f } }

/-- The home channel merges the partial lists of a round as a SELECT row of its selection unit (R365, R344). -/
def State.mergeRound (s : State) (home d : Nat) : State :=
  (((s.inc Dict.selRowCount 1 0 home).ev 0x140 (some home) 1 0 (some d)).ev 0x143 (some home) 1 0 (some d)).ev 0x148 (some home) 1 0 (some d)

/-- A query begins a round, or ends (R359, step 4). -/
def State.stepQuery (s : State) (q : Query) : State :=
  let home := (s.collHome (s.coll q.coll)).getD 0
  if q.best.length < q.k ∧ q.probed < q.limit ∧ q.nextRound ≠ [] then
    let q' := { q with wait := q.nextRound, rounds := q.rounds + 1 }
    let s := s.setQuery q'
    s.when (decide (1 < q'.rounds)) fun s => (s.inc Dict.searchWidenCount 1 0 home).ev 0x165 (some home) 1 q.coll (some q.d)
  else s.endQuery q (if q.best.length < q.k then stFewer else stDone)

/-- A scan of a list for a query (R359, step 2): what it matches enters its best k; the last list of a round ends the round. -/
def State.scanList (s : State) (q : Query) (l : Nat) : State :=
  let c := s.coll q.coll
  let ch := if s.auxOn (c.chanOf l) then c.chanOf l else (s.collHome c).getD 0
  let vis := (inList c.data l).filter fun r => s.visible r q.start
  let hits := vis.filter fun r => tagsPass q r.tags
  let qv := prepare c.data.dist q.q
  let found := hits.map fun r => (r.id, score c.data qv r.norm r.codes)
  let best := (sortBy (resultBefore c.data.dist) (q.best ++ found)).take q.k
  let q := { q with best := best, matched := q.matched + hits.length, scanned := q.scanned + vis.length, wait := q.wait.filter (· != l), probed := q.probed + 1 }
  let s := (s.setQuery q).inc Dict.searchRecordsScanned vis.length 0 ch
  if q.wait = [] then (s.mergeRound ((s.collHome c).getD 0) q.d).stepQuery q else s

/-- Records in frames whose block failed are removed at the current pick (R355). -/
def State.loseRecs (s : State) (i : Nat) (bad : List Nat) : State :=
  let c := s.coll i
  let home := (s.collHome c).getD 0
  let gone := bad.filter fun id => c.data.recs.any fun r => r.id == id && r.died == 0
  if gone = [] then s
  else
    let recs := gone.foldl (fun rs id => killRec id s.pk.current rs) c.data.recs
    let s := s.setColl i { c with data := { c.data with recs := recs } }
    let s := ((s.inc Dict.searchRecordsLost gone.length 0 home).ev 0x16C (some home) gone.length i (some c.dom)).journal 1 home 0x16C c.dom i []
    s.notify 0x1701 (beBytes 2 i ++ beBytes 4 gone.length)

/-- LIST_PASS_COMPLETE (R359, R363): a centroid pass (no list) or a list pass ends for the queries that share it. -/
def execListPassComplete (t : Nat) (d id : Nat) (qs : List Nat) (list : Option Nat) (bad : List Nat) (s : State) : Host.Outcome State Fault Refusal :=
  run (.listPassComplete t d id qs list bad) t s fun s =>
    let able := s.se.queries.filter fun q => q.d == d && q.id == id && qs.contains q.idx && match list with
      | none => q.rank.isNone
      | some l => q.wait.contains l
    let mine := (able.filter fun q => decide (some q.rounds = able.head?.map (·.rounds))).take 64
    match mine with
    | [] => s
    | q0 :: _ =>
      let c := s.coll q0.coll
      let home := (s.collHome c).getD 0
      match list with
      | none =>
        if bad ≠ [] then (s.journal 1 home 0x16C c.dom q0.coll []).failColl q0.coll
        else
          s.each mine fun q s => (s.ev 0x163 (some home) 1 q.coll (some d)).stepQuery { q with rank := some (rankLists c.data (prepare c.data.dist q.q)) }
      | some l =>
        let s := s.loseRecs q0.coll bad
        let ch := c.chanOf l
        let s := s.when (!s.auxOn ch) fun s => s.ev 0x16D (some home) 1 q0.coll (some d)
        let bytes := (inList c.data l).length * recBytes c.data.dim
        let s := (s.ev 0x162 (some ch) 1 q0.coll (some d)).ev 0x164 (some ch) (bytes / 1024) q0.coll (some d)
        (s.each mine fun q s => s.scanList q l).freeOld q0.coll

/-- A record is reclaimable (R354). -/
def State.reclaimable (s : State) (i : Nat) (r : VRec) : Bool :=
  decide (r.died ≠ 0) && s.se.queries.all fun q => q.coll != i || decide (s.pick48 r.died < q.start)

/-- LIST_COMPACTION (R354): due once the reclaimable records reach `search.compact_quarter` quarters of a list's.  The remaining records go to fresh frames,
without which the list stays as it is (log 176); the old frames stay while scans that began on them run. -/
def execListCompaction (t : Nat) (id list : Nat) (s : State) : Host.Outcome State Fault Refusal :=
  run (.listCompaction t id list) t s fun s =>
    let c := s.coll id
    let ch := c.chanOf list
    let rs := inList c.data list
    let n := rs.countP (s.reclaimable id)
    if c.st = 1 ∧ 0 < n ∧ s.sreg Dict.searchCompactQuarter 0 ch * rs.length ≤ 4 * n then
      let s0 := s
      let s : State := { s with tm := { s.tm with bulk := s.tm.bulk.map fun b => if b.tag = listTag id list then { b with tag := oldTag id list } else b } }
      match s.takeBulk c.dom ch (listTag id list) (listFrames c.data.dim (rs.length - n)) with
      | none => s0
      | some s =>
        let recs := c.data.recs.filter fun r => !(r.list == list && s0.reclaimable id r)
        let s := s.setColl id { c with data := { c.data with recs := recs } }
        ((s.inc Dict.searchCompactionCount 1 0 ch).ev 0x16B (some ch) 1 id (some c.dom)).freeOld id
    else s

end Sys2Proof.Machine
end

