-- ==== Sys2Proof/Machine/Kv.lean ====
section
/-! DEFINITION. The keys and values a session's steps write (spec/08, R244-R251, R258-R259; spec/09, R268, R276): staging frames, tail pages, cairns,
truncation, and the pages that a step attends. -/

namespace Sys2Proof.Machine

open Sys2Proof

/-- The blocks of n tokens that positions lo to hi − 1 lie in. -/
def blocksOf (lo hi n : Nat) : List Nat :=
  if hi ≤ lo then [] else (List.range ((hi - 1) / Nat.max 1 n - lo / Nat.max 1 n + 1)).map (· + lo / Nat.max 1 n)

/-- The first layer whose pages this device writes, and how many it does (R235). -/
def Model.span (m : Model) : Nat × Nat := if m.placement = 2 then (stageStart m.total (m.stages + 1) m.stage, m.layers) else (0, m.total)

/-- The target's KV pages of positions lo to hi − 1 (R171). -/
def Model.kvPages (m : Model) (lo hi : Nat) : List Nat :=
  (blocksOf lo hi m.block).flatMap fun b => (List.range m.span.2).map fun i => b * m.total + m.span.1 + i

/-- The draft's KV pages of positions lo to hi − 1 (R276). -/
def Model.draftPages (m d : Model) (lo hi : Nat) : List Nat :=
  (blocksOf lo hi m.block).flatMap fun b => (List.range d.total).map fun i => m.draftBase + b * d.total + i

/-- The token pages of positions lo to hi − 1 (R171). -/
def tokenPages (lo hi : Nat) : List Nat := (blocksOf lo hi 16384).map (tokenLpn + ·)

/-! ## Staging frames (R247) -/

/-- Staging frames for the pages that do not exist yet, list pages among them: all, or none. -/
def State.stageAll (s : State) (k : Nat) (ls : List Nat) : Option State :=
  let x := s.sess k
  let new := ls.filter fun l => (x.page? l).isNone
  let all := new ++ (new.flatMap x.listFor).eraseDups
  (all.filter fun l => !(x.stage.any fun e => e.1 == l)).foldl (fun o l => o.bind fun s =>
    (s.placeNear k l).map fun r =>
      let y := r.2.2.sess k
      (r.2.2.setSess k { y with stage := y.stage ++ [(l, r.1, r.2.1)] }).ev 0x0C9 (some r.1) 1 (s.handle k) (some x.dom) (some (s.handle k))) (some s)

/-- A staging frame becomes a page of its session; without one a near frame is taken. -/
def State.landStage (s : State) (k l : Nat) : State :=
  let x := s.sess k
  if (x.page? l).isSome then s
  else match x.stage.find? fun e => e.1 == l with
    | some e =>
      (s.setSess k { x with stage := x.stage.filter fun e => e.1 != l }).setPage k l { inc := s.incOf e.2.1, ch := e.2.1, frame := e.2.2, touch := s.pk.current }
    | none => (s.newPage k l).getD s

/-- A page with the list pages that locate it. -/
def State.landWithList (s : State) (k l : Nat) : State :=
  let s := s.each ((s.sess k).listFor l) fun p s => s.landStage k p
  s.landStage k l

/-- Staging frames go back when the session leaves PREFILL and DECODE. -/
def State.releaseStage (s : State) (k : Nat) : State :=
  let x := s.sess k
  let s := s.each x.stage fun e s => s.freeFrame e.2.1 0 e.2.2 false
  s.setSess k { s.sess k with stage := [] }

/-! ## Writing keys and values (R245, R246, R259) -/

/-- R245: one token's keys and values of one layer, quantised head by head. -/
def quantTok (m : Model) (vals : List Nat) : KvTok :=
  let rs := (runsOf m.headDim vals).map (kvQuant m.kvFmt)
  { codes := rs.flatMap (·.1), scales := rs.flatMap (·.2) }

/-- A head's key of a token, as attention reads it. -/
def keyOf (t : KvTok) (m : Model) (h : Nat) : List Nat :=
  (List.range m.headDim).map fun j =>
    let i := h * m.headDim + j
    kvRead m.kvFmt (t.codes.getD i 0) (if m.kvFmt = 4 then le t.scales (2 * (i / 64)) 2 else t.scales.getD (i / 32) 0)

/-- The cairn of a full page (R258, R259). -/
def cairnOf (m : Model) (kv : List KvTok) : Bytes :=
  cairnBytes m.headDim kv.length ((List.range m.kvHeads).map fun h => kv.map fun t => keyOf t m h)

/-- Writes one token of a page at an offset in its block.  A full page gets its cairn. -/
def State.putKv (s : State) (k : Nat) (m : Model) (l off : Nat) (vals : List Nat) : State :=
  let s := s.landWithList k l
  match (s.sess k).page? l with
  | none => s
  | some p =>
    let kv := p.kv.take off ++ [quantTok m vals] ++ p.kv.drop (off + 1)
    let sat := sumOf (fun r => kvSaturated m.kvFmt r) (runsOf m.headDim vals)
    let s := s.when (decide (0 < sat)) fun s => s.ev 0x018 (some p.ch) sat (s.handle k) (some (s.sess k).dom) (some (s.handle k))
    let full := decide (kv.length = m.block)
    let s := s.setPage k l { p with tier := if p.tier = 3 then 0 else p.tier, held := false, kv := kv, count := kv.length, cairn := if full then cairnOf m kv else [], touch := s.pk.current }
    s.when full fun s => s.ev 0x0CA (some p.ch) 1 (s.handle k) (some (s.sess k).dom) (some (s.handle k))

/-- Writes the target's keys and values from position lo on (per position, per layer). -/
def State.putTarget (s : State) (k lo : Nat) (kvs : List (List (List Nat))) : State :=
  let m := s.model (s.sess k).model
  s.each ((List.range kvs.length).zip kvs) fun e s =>
    let p := lo + e.1
    s.each (List.range m.span.2) fun i s => s.putKv k m (p / Nat.max 1 m.block * m.total + m.span.1 + i) (p % Nat.max 1 m.block) (e.2.getD i [])

/-- Writes the draft's keys and values from position lo on. -/
def State.putDraft (s : State) (k lo : Nat) (kvs : List (List (List Nat))) : State :=
  let m := s.model (s.sess k).model
  match s.draftOf (s.sess k).model with
  | none => s
  | some d =>
    let dm := s.model d
    s.each ((List.range kvs.length).zip kvs) fun e s =>
      let p := lo + e.1
      s.each (List.range dm.total) fun i s => s.putKv k dm (m.draftBase + p / Nat.max 1 m.block * dm.total + i) (p % Nat.max 1 m.block) (e.2.getD i [])

/-- Token pages for positions lo to hi − 1: each is there, and touched (R182). -/
def State.putTokens (s : State) (k lo hi : Nat) : State :=
  s.each (tokenPages lo hi) fun l s =>
    let s := s.landWithList k l
    match (s.sess k).page? l with
    | some p => s.setPage k l { p with touch := s.pk.current }
    | none => s

/-- A recompute writes a page only where the position is not there yet (R202). -/
def State.fillKv (s : State) (k : Nat) (m : Model) (l off : Nat) (vals : List Nat) : State :=
  match (s.sess k).page? l with
  | none => s
  | some p => if off < p.kv.length then s else s.putKv k m l off vals

/-- Recomputed keys and values from position lo on: the target's layers, then the draft's. -/
def State.fillAll (s : State) (k lo : Nat) (kvs : List (List (List Nat))) : State :=
  let m := s.model (s.sess k).model
  s.each ((List.range kvs.length).zip kvs) fun e s =>
    let p := lo + e.1
    let b := p / Nat.max 1 m.block
    let off := p % Nat.max 1 m.block
    let s := s.each (List.range m.span.2) fun i s => s.fillKv k m (b * m.total + m.span.1 + i) off (e.2.getD i [])
    match s.draftOf (s.sess k).model with
    | none => s
    | some d =>
      let dm := s.model d
      s.each (List.range dm.total) fun i s => s.fillKv k dm (m.draftBase + b * dm.total + i) off (e.2.getD (m.span.2 + i) [])

/-! ## Truncation (R171, R259, R279) -/

/-- A KV page keeps its first n tokens, or goes when it keeps none. -/
def State.cutPage (s : State) (k l n : Nat) : State :=
  match (s.sess k).page? l with
  | none => s
  | some p =>
    if n = 0 then s.dropPage k l
    else if n < p.kv.length then s.setPage k l { p with kv := p.kv.take n, count := n, cairn := [] } else s

/-- The session's pages are cut: token pages to n tokens of the log, the target's KV to a positions, the draft's to b; with how many KV pages went. -/
def State.cutKv (s : State) (k n a b : Nat) : Nat × State :=
  let x := s.sess k
  let m := s.model x.model
  let d0 := m.draftBase
  let before := x.pageCount
  let s := s.each x.pages fun e s =>
    let l := e.1
    if isTok l then s.when (decide (n ≤ 16384 * (l - tokenLpn))) fun s => s.dropPage k l
    else if isKv l then
      let blk := s.blockOf x l
      s.cutPage k l ((if l < d0 then a else b) - blk * m.block)
    else s
  let x := s.sess k
  (before - x.pageCount, s.setSess k { x with kvLen := Nat.min x.kvLen a, draftLen := Nat.min x.draftLen b })

/-! ## What a step attends (R173, R182, R186, R261) -/

/-- A session is in retrieval mode at the start of a step (R261). -/
def State.retrieves (s : State) (k : Nat) : Bool :=
  let x := s.sess k
  decide (s.sreg Dict.mattnRetrievalThreshold 0 x.model < x.length)

/-- The candidate blocks of a step in retrieval mode: neither sinks nor the last W. -/
def State.candidates (s : State) (k hi : Nat) : List Nat :=
  let x := s.sess k
  let m := s.model x.model
  let n := (hi + m.block - 1) / Nat.max 1 m.block
  (List.range n).filter fun b => decide (s.sreg Dict.mattnSinkBlocks 0 x.model ≤ b) && decide (b + s.sreg Dict.mattnTailBlocks 0 x.model < n)

/-- The KV pages that a step reads, `hot` being the pages that retrieval selected, and whether a selection ran. -/
def State.attended (s : State) (k hi : Nat) (hot : List Nat) : List Nat × Bool :=
  let x := s.sess k
  let all := (x.pages.filter fun e => isKv e.1).map (·.1)
  let cs := s.candidates k hi
  if s.retrieves k && decide (s.sreg Dict.mattnTopPages 0 x.model < cs.length) then
    (all.filter fun l => !cs.contains (s.blockOf x l) || hot.contains l, true)
  else (all, false)

/-- A deep page that a step reads is promoted in the background (R186). -/
def State.promote (s : State) (k l : Nat) : State :=
  let x := s.sess k
  match x.page? l with
  | none => s
  | some p =>
    if p.tier = 1 ∧ p.moving = false ∧ p.poisoned = false ∧ s.stale p = false then
      match s.placing k l with
      | [] => s
      | c :: _ =>
        if s.lowWater c 0 < s.freeFrames c 0 then
          match s.takeFrame x.dom c 0 with
          | some (n, s) => s.addMove { k := k, lpn := l, tier := 0, ch := c, frame := n, region := 0, why := 3, started := false }
          | none => s
        else s
    else s

/-- The walkers of a session's channels read the block runs of its pages (R249): the location words of all layers of each block. -/
def State.walkRuns (s : State) (k : Nat) (ls : List Nat) : State :=
  let m := s.model (s.sess k).model
  let layers (run : Nat) : Nat := if run / 2 ^ 31 % 2 = 0 then m.total else ((s.draftOf (s.sess k).model).map fun d => (s.model d).total).getD 0
  let runs := (ls.map fun l => s.runKey k l).eraseDups
  s.each ((s.stepChans k).flatMap fun c => runs.map fun r => (c, r)) fun e s => s.walkRun e.1 e.2 (layers e.2)

/-- A step's reads of deep pages and of pages on other channels hold STEP slots until they are done (R236); those beyond the cap wait, and are counted (R238). -/
def State.stepSlots (s : State) (k : Nat) (ls : List Nat) : State :=
  let c := chOf k
  let far := ls.countP fun l => match (s.sess k).page? l with
    | some p => decide (p.tier = 1) || (decide (p.tier = 0) && decide (p.ch ≠ c))
    | none => false
  let r := (List.range far).foldl (fun (a : List Nat × State) _ => match a.2.takeSlot c 1 with
    | some (i, s) => (a.1 ++ [i], s)
    | none => (a.1, a.2.trackWait c)) ([], s)
  r.2.each r.1 fun i s => s.freeSlot c i

/-- A step reads its pages: they are touched, hot is set on those selected and cleared on the others, and deep ones are promoted. -/
def State.readPages (s : State) (k hi : Nat) (hot : List Nat) : State :=
  let (ls, ran) := s.attended k hi hot
  let x := s.sess k
  let c := chOf k
  let m := s.model x.model
  let sel (l : Nat) : Bool := ran && hot.contains l
  let s := s.setSess k { x with pages := x.pages.map fun e => if isKv e.1 then (e.1, { e.2 with hot := sel e.1, touch := if ls.contains e.1 then s.pk.current else e.2.touch }) else e }
  let s := (s.walkRuns k (ls.filter fun l => !sel l)).stepSlots k ls
  let s := s.each (ls.filter sel) fun l s => s.lookup c k l
  let s := s.when (s.retrieves k) fun s => s.inc Dict.attnRetrievalSteps m.span.2 0 c
  let s := s.when ran fun s =>
    let s := ((s.inc Dict.selRowCount m.span.2 0 c).evS k 0x140 m.span.2).evS k 0x142 m.span.2
    let cs := s.candidates k hi
    let pages := (x.pages.filter fun e => isKv e.1 && cs.contains (s.blockOf x e.1))
    let deep := (pages.countP fun e => e.2.tier == 1)
    let s := s.each pages fun e s => s.lookup c k e.1
    let s := s.ev 0x0CF (some c) pages.length (s.handle k) (some x.dom) (some (s.handle k))
    let s := s.ev 0x0D0 (some c) (pages.countP fun e => hot.contains e.1) (s.handle k) (some x.dom) (some (s.handle k))
    s.when (decide (0 < deep)) fun s => ((s.inc Dict.attnCairnDeepReads deep 0 c).ev 0x0D1 (some c) deep (s.handle k) (some x.dom) (some (s.handle k))).each ((pages.filter fun e => e.2.tier == 1).map (·.1)) fun l s => s.promote k l
  s.each ls fun l s => s.promote k l

/-- Pages that must be near before a step of PREFILL or DECODE (R186, R248): tail pages and those the step appends to, list pages, and every far page. -/
def State.mustPromote (s : State) (k : Nat) (ls : List Nat) : List Nat :=
  let x := s.sess k
  (x.pages.filter fun e => decide (e.2.tier = 2) || (decide (e.2.tier = 1) && (s.isTail x e.1 || ls.contains e.1 || decide (0x4000000 ≤ e.1)))).map (·.1)

/-- Promotions of R186 and R248 before a step that appends to the pages `ls`: whether none is outstanding.  Those not yet moving are set going, and where no frame is
free the allocation waits.  A page being moved is never written (R191), and before its first step a session waits for every switch (R193). -/
def State.promoteFirst (s : State) (k : Nat) (ls : List Nat) : Bool × State :=
  let x := s.sess k
  let must := s.mustPromote k ls
  let inFlight := x.pages.any fun e => e.2.moving && (x.fresh || ls.contains e.1 || s.isTail x e.1)
  let go := must.filter fun l => match x.page? l with
    | some p => !p.moving
    | none => false
  let r := go.foldl (fun (a : Bool × State) l =>
    match a.2.placeNear k l with
    | some (c, n, s) => (a.1, s.addMove { k := k, lpn := l, tier := 0, ch := c, frame := n, region := 0, why := 3, started := false })
    | none => (true, a.2)) (false, s)
  let ok := decide (must = []) && !inFlight
  let s := r.2.when r.1 fun s => s.allocWait k 0
  (ok, s.when (!ok) fun s => (s.inc Dict.tierPromoteWaitCount 1 0 (chOf k)).ev 0x052 (some (chOf k)) 1 (s.handle k) (some x.dom) (some (s.handle k)))

end Sys2Proof.Machine
end

