-- ==== Sys2Proof/Machine/Warp.lean ====
section
/-! DEFINITION. Dernyx as a receiver (spec/14): flits, forwarded commands, activations, heartbeats and stage reports. -/

namespace Sys2Proof.Machine

open Sys2Proof

/-! ## Links as functions (R411, R412) -/

/-- A link without what a training, a failure or a stop ends: sequences, replay buffer, waiting flits and credits. -/
def Link.fresh (l : Link) : Link :=
  { delay := l.delay, peerDev := l.peerDev, peerLink := l.peerLink, version := l.version, failCode := l.failCode, peerId := l.peerId, replays := l.replays, crcFails := l.crcFails }

/-- NOTIFY 0x0701 (R444). -/
def linkNote (n old new : Nat) (s : State) : State := s.notify 0x0701 [n, old, new]

/-- A link begins training. -/
def linkStarting (n old : Nat) (s : State) : State := linkNote n old 1 (s.setLink n (s.link n).fresh)

/-- A link begins STOPPING: the peer is told (R411). -/
def linkStopping (n old : Nat) (s : State) : State := linkNote n old 3 (s.sendCtl n (s.link n).peerDev (ctlBytes 0x12 0 []))

/-- A link is OFF. -/
def linkOff (n old : Nat) (s : State) : State := linkNote n old 0 (s.setLink n (s.link n).fresh)

/-! ## Flits (R418-R420) -/

/-- The acknowledgement and credit fields of a flit's trailer are taken (R418, R419). -/
def State.takeTrailer (s : State) (n : Nat) (f : Flit) : State :=
  let s := s.when (f.ackValid || f.nak) fun s => s.ackLink n f.ackSeq
  let l := s.link n
  let s := s.when (decide (f.crClass < 3)) fun s => s.setLink n { l with ret := Tbl.put 0 l.ret (4 * f.crVc + f.crClass) f.crTotal }
  let s := s.when f.nak fun s => s.replayLink n
  s.pumpLink n

/-- The domain that a message's first flit names; none for a control flit. -/
def flitDom (f : Flit) : Option Nat := if f.vc = 3 then none else some (be f.pay 2 2 % 4096)

/-- Whether a flit's type, or its control type, is one the spec defines (R423). -/
def flitKnown (f : Flit) : Bool :=
  if f.typ = 1 then [0x01, 0x02, 0x03, 0x04, 0x10, 0x11, 0x12, 0x13, 0x14, 0x15, 0x16, 0x17, 0x18, 0x19].contains (be f.pay 2 1) else decide (f.typ ≤ 0x0C)

/-- A flit in transit goes to its next link (R420, R429): a message's first flit chooses it, the others follow; none while no set is usable. -/
def State.passFlit (s : State) (n : Nat) (f : TxFlit) (dom : Option Nat) : Option State :=
  let key := 4 * n + f.vc
  let go (s : State) (out : Nat) : State :=
    (s.queueFlits out f.vc [{ f with hops := f.hops + 1 }]).returnCredit n f.vc f.hops
  if f.first then
    (s.route f.dst dom).map fun r =>
      let s : State := { r.2 with dx := { r.2.dx with transit := Tbl.put 0 r.2.dx.transit key (r.1 + 1) } }
      go (s.ev 0x1CA none 1 n) r.1
  else
    match Tbl.get 0 s.dx.transit key with
    | 0 => none
    | out + 1 => some (go s out)

/-- The value of `transit` for a message that is dropped whole. -/
def dropMark : Nat := 100

/-- The mark of one whose flits are dropped on a sealed link, each of which counts (R134). -/
def sealMark : Nat := 101

/-- Flits held for want of a usable set go on, in order; a message's later flits wait behind its first. -/
def State.passHeld (s : State) : State :=
  let l := s.dx.held
  if l = [] then s
  else
    State.each { s with dx := { s.dx with held := [] } } l fun e s =>
      let dom := match e.2.pay with
        | .raw b => if e.2.vc = 3 then none else some (be b 2 2 % 4096)
        | .part m _ => m.dom
      let blocked := s.dx.held.any fun (x : Nat × TxFlit) => x.1 == e.1 && x.2.vc == e.2.vc
      match (if blocked then none else s.passFlit e.1 e.2 dom) with
      | some s => s
      | none => { s with dx := { s.dx with held := s.dx.held ++ [e] } }

/-- A flit accepted on link n (R418): consumed here, passed on, or dropped (R134, R420, R424). -/
def State.takeFlit (s : State) (n : Nat) (f : Flit) : State :=
  let c := n / 12
  let key := 4 * n + f.vc
  let dropAs (mark : Nat) (s : State) : State :=
    State.returnCredit { s with dx := { s.dx with transit := Tbl.put 0 s.dx.transit key (if f.last then 0 else mark) } } n f.vc f.hops
  let drop := dropAs dropMark
  let foreign (s : State) : State := (s.inc Dict.secSealedFlitDrops).ev 0x24C none 1 n (flitDom f)
  let s := (s.ev 0x1C1 none 1 n).heardFrom f.src
  if !f.first && decide (Tbl.get 0 s.dx.transit key = dropMark) then drop s
  else if !f.first && decide (Tbl.get 0 s.dx.transit key = sealMark) then dropAs sealMark ((foreign s).journal 1 c 0x24C 0xFFFF n [])
  else if f.first && decide (f.vc ≠ 3) && s.sealed c && decide (flitDom f ≠ some (s.reg Dict.sealDomain c)) then
    dropAs sealMark ((foreign s).journal 1 c 0x24C ((flitDom f).getD 0xFFFF) n [])
  else if f.dst = s.device ∨ (f.typ = 1 ∧ (be f.pay 2 1 = 1 ∨ be f.pay 2 1 = 2 ∨ be f.pay 2 1 = 0x12)) then
    let s := s.when (f.first && decide (f.vc ≠ 3)) fun s => s.ev 0x1C3 none (be f.pay 4 4 / 1024) n
    if flitKnown f then s.returnCredit n f.vc f.hops else drop s.badMsg
  else if 2 ≤ f.hops then drop ((s.inc Dict.dnxHopDropCount).ev 0x1D0 none 1 n)
  else if f.first && !s.present f.dst then drop s.badMsg
  else
    let x : TxFlit := { vc := f.vc, dst := f.dst, src := f.src, typ := f.typ, first := f.first, last := f.last, prot := f.prot, parity := f.parity, hops := f.hops, pay := .raw f.pay }
    let blocked := s.dx.held.any fun (y : Nat × TxFlit) => y.1 == n && y.2.vc == f.vc
    match (if blocked then none else s.passFlit n x (flitDom f)) with
    | some s => s
    | none => { s with dx := { s.dx with held := s.dx.held ++ [(n, x)] } }

/-- FLIT_RECEIVE (R418). -/
def execFlitReceive (t : Nat) (n : Nat) (f : Flit) (s : State) : Host.Outcome State Fault Refusal :=
  run (.flitReceive t n f) t s fun s =>
    if s.linkLive n = false then s
    else
      let l := s.link n
      if f.crcOk = false then
        ((((s.setLink n { l with crcFails := (l.crcFails + 1) % 2 ^ 32 }).inc Dict.dnxCrcFailCount).ev 0x1C4 none 1 n)).nakLink n
      else
        let s := s.takeTrailer n f
        if f.typ = 0 then s
        else if f.seq ≠ (s.link n).rxNext then s.nakLink n
        else (s.setLink n { s.link n with rxNext := (f.seq + 1) % 4096, nakSent := false }).takeFlit n f

/-- REPLAY_TIMEOUT (R419): 4 µs without progress. -/
def execReplayTimeout (t : Nat) (n : Nat) (s : State) : Host.Outcome State Fault Refusal :=
  run (.replayTimeout t n) t s fun s =>
    match (s.link n).since with
    | some u => if u + 4000 ≤ s.now then s.replayLink n else s
    | none => s

/-! ## Forwarded commands (R431, R432) -/

/-- An acknowledgement of a COMMAND, of an activation. -/
def State.ackCommand (s : State) (dst dom id : Nat) : State := s.sendMsg { typ := 0x03, dst := dst, dom := some dom, mid := id }

/-- COMMANDs of a source that were held pass to their rings while the expected id is there (fuel: how many are held). -/
def State.drainEarly : Nat → Nat → State → State
  | 0, _, s => s
  | n + 1, src, s =>
    let p := s.peer src
    match s.dx.early.find? fun (e : Nat × Nat × Nat × List Desc) => e.1 == src && e.2.1 == p.rxId with
    | none => s
    | some e =>
      let s := { s with dx := { s.dx with early := s.dx.early.filter fun (x : Nat × Nat × Nat × List Desc) => !(x.1 == src && x.2.1 == p.rxId) } }
      let s := (s.setPeer src { s.peer src with rxId := (p.rxId + 1) % 2 ^ 32 }).landCommand e.2.2.1 e.2.2.2
      State.drainEarly n src (s.ackCommand src e.2.2.1 e.2.1)

/-- COMMAND (R431): in id order, duplicates acknowledged again. -/
def execCommand (t : Nat) (e : DEnv) (ds : List Desc) (s : State) : Host.Outcome State Fault Refusal :=
  run (.command t e ds) t s fun s => s.arrive e true fun s =>
    let p := s.peer e.src
    let ahead := (e.mid + 2 ^ 32 - p.rxId) % 2 ^ 32
    if ahead = 0 then
      let s := ((s.setPeer e.src { p with rxId := (p.rxId + 1) % 2 ^ 32 }).landCommand e.dom ds).ackCommand e.src e.dom e.mid
      State.drainEarly s.dx.early.length e.src s
    else if ahead ≤ 256 then
      if s.dx.early.any fun (x : Nat × Nat × Nat × List Desc) => x.1 == e.src && x.2.1 == e.mid then s.ev 0x1CD none 1 e.link (some e.dom)
      else { s with dx := { s.dx with early := s.dx.early ++ [(e.src, e.mid, e.dom, ds)] } }
    else if 2 ^ 31 ≤ ahead then (s.ev 0x1CD none 1 e.link (some e.dom)).ackCommand e.src e.dom e.mid
    else s

/-- E2E_TIMEOUT (R432): the COMMAND is resent on a route chosen afresh. -/
def execE2eTimeout (t : Nat) (home id : Nat) (s : State) : Host.Outcome State Fault Refusal :=
  run (.e2eTimeout t home id) t s fun s =>
    match s.dx.fwd.find? fun f => f.home == home && f.id == id with
    | none => s
    | some f => match f.sent with
      | none => s
      | some u =>
        if u + 1000 * s.reg Dict.dnxE2eTimeout ≤ s.now then
          let mark (y : Fwd) : Fwd := if y.home = home ∧ y.id = id then { y with sent := some s.now } else y
          let s : State := { s with dx := { s.dx with fwd := s.dx.fwd.map mark } }
          ((s.inc Dict.dnxForwardResendCount).ev 0x1CC none 1 home (some f.dom)).sendMsg { typ := 0x02, dst := home, dom := some f.dom, mid := id, aux := f.ds.length, body := .descs f.ds }
        else s

/-! ## Pipeline stages (R179, R235, R437) -/

/-- KV pages of a session of n tokens, of another device, that this stage of a model holds on channel c (R179, R235): those of its layers, each layer on its
unsealed channel as for SPLIT, and the pages of the stage page list. -/
def State.stageNeed (s : State) (m c n : Nat) : Nat :=
  let x := s.model m
  let cs := s.domChans x.dom
  let ls := x.kvPages 0 n
  let lists := (ls.map fun l => leafLpn (l / 8192)).eraseDups ++ (if ls = [] then [] else [rootLpn])
  (ls.countP fun l => cs[l % Nat.max 1 x.total % Nat.max 1 cs.length]? == some c) + (lists.countP fun l => cs[l % Nat.max 1 cs.length]? == some c)

/-- The frames of a stage grow with a session (R179): pages of an earlier session of the slot go, and new ones take near frames; where none is free the pages
wait for the next activations (log 95). -/
def State.growStage (s : State) (m : Nat) (r : StageRow) : State :=
  let d := (s.model m).dom
  let tag := heldTag m r.handle
  let old (b : Bulk) : Bool := decide (heldTag 0 0 ≤ b.tag) && decide (b.tag ≠ tag) && decide (b.tag % 16 = m) && decide ((b.tag - heldTag 0 0) / 16 % 2 ^ 48 = r.handle % 2 ^ 48)
  let s := s.each ((s.tm.bulk.filter old).map (·.tag)) fun g s => s.freeBulk g
  s.each (s.domChans d) fun c s =>
    let need := s.stageNeed m c r.len
    let have' := s.bulkOn c tag
    if need ≤ have' then s
    else match s.takeBulk d c tag (need - have') with
      | some s => s
      | none => ((s.inc Dict.tierAllocWaitCount 1 0 c).ev 0x04B (some c) 1 r.handle (some d) (some r.handle)).starve d 0 [c]

/-- Activations go to the next stage and are held until acknowledged (R437). -/
def State.sendAct (s : State) (m mid : Nat) (rows : List StageRow) : State :=
  let x := s.model m
  let dst := beField 64 (s.reg Dict.modelStageMap 0 m) (x.stage + 1) 1
  if x.placement = 2 ∧ x.stage < x.stages ∧ dst < 64 then
    let a : ActOut := { rows := rows, mid := mid, dst := dst, dom := x.dom, slot := m, since := s.now }
    State.sendMsg { s with dx := { s.dx with acts := s.dx.acts ++ [a] } } { typ := 0x09, dst := dst, dom := some x.dom, mid := mid, aux := m, body := .act rows }
  else s

/-- ACTIVATION (R437): acknowledged; the first copy is used by this stage, whose pages of its sessions grow with them (R179), and goes on to the next. -/
def execActivation (t : Nat) (m : ActMsg) (s : State) : Host.Outcome State Fault Refusal :=
  run (.activation t m) t s fun s => s.arrive m.env true fun s =>
    let e := m.env
    let s := s.sendMsg { typ := 0x0A, dst := e.src, dom := some e.dom, mid := e.mid, aux := e.aux }
    if s.dx.actsIn.contains (e.mid, e.aux) then s.ev 0x1CD none 1 e.link (some e.dom)
    else
      let s : State := { s with dx := { s.dx with actsIn := s.dx.actsIn ++ [(e.mid, e.aux)] } }
      let x := s.model e.aux
      let mine := decide (x.st = 2) && decide (x.placement = 2) && decide (0 < x.stage) && decide (x.dom = e.dom)
      (s.when mine fun s => s.each m.rows fun r s => s.growStage e.aux r).sendAct e.aux e.mid m.rows

/-- ACTIVATION_TIMEOUT (R437): the step fails as for a lost stage (R232). -/
def execActivationTimeout (t : Nat) (mid : Nat) (s : State) : Host.Outcome State Fault Refusal :=
  run (.activationTimeout t mid) t s fun s =>
    match s.dx.acts.find? fun a => a.mid == mid with
    | none => s
    | some a =>
      if a.since + 1000000 * s.reg Dict.fabricOpTimeout 0 ((s.model a.slot).chans.headD 0) ≤ s.now then
        State.failModel { s with dx := { s.dx with acts := s.dx.acts.filter fun y => y.mid != mid } } a.slot
      else s

/-- STAGE_READY (R235): what a stage reports to the device of stage 0. -/
def execStageReady (t : Nat) (via : Via) (src slot stage dom ready : Nat) (s : State) : Host.Outcome State Fault Refusal :=
  run (.stageReady t via src slot stage dom ready) t s fun s => s.ctlArrive via.link src (mv := via.minVersion) fun s =>
    let x := s.model slot
    if x.st ≠ 0 ∧ x.placement = 2 ∧ x.stage = 0 ∧ x.dom = dom ∧ beField 64 (s.reg Dict.modelStageMap 0 slot) stage 1 = src then
      let rest := x.ready.filter (· != stage)
      let s := s.setModel slot { x with ready := if ready = 1 then rest ++ [stage] else rest }
      s.when (decide (ready = 0) && x.ready.contains stage) fun s => s.failModel slot
    else if x.placement = 2 ∧ stage = 0 ∧ ready = 0 ∧ x.dom = dom ∧ beField 64 (s.reg Dict.modelStageMap 0 slot) 0 1 = src then s.failModel slot
    else s

/-- STAGE_READY_RESEND (R423). -/
def execStageReadyResend (t : Nat) (s : State) : Host.Outcome State Fault Refusal :=
  run (.stageReadyResend t) t s fun s => s.each s.dx.stages fun e s => s.sendStage e.1 e.2

/-! ## Heartbeats (R438, R439) -/

/-- HEARTBEAT (R438). -/
def execHeartbeat (t : Nat) (via : Via) (src pick : Nat) (s : State) : Host.Outcome State Fault Refusal :=
  run (.heartbeat t via src pick) t s fun s => s.ctlArrive via.link src id via.minVersion

/-- HEARTBEAT_SEND (R439): to every UNREACHED and PRESENT device. -/
def execHeartbeatSend (t : Nat) (s : State) : Host.Outcome State Fault Refusal :=
  run (.heartbeatSend t) t s fun s =>
    s.each ((List.range 64).filter fun i => i != s.device && (s.peerState i == 1 || s.peerState i == 2)) fun i s =>
      s.routeCtl i (ctlBytes 0x10 0 ([0, 0, 0, 0] ++ beBytes 8 s.pk.current))

end Sys2Proof.Machine
end

