-- ==== Sys2Proof/Machine/Shards.lean ====
section
/-! DEFINITION. A checkpoint's shards, manifest and commit record as bytes (spec/15, R450-R453): what each holds, and the WRITEs that place them. -/

namespace Sys2Proof.Machine

open Sys2Proof

/-! ## Items (R450, R451) -/

/-- One item of a shard: what its index entry says, and its bytes, a content record or a frame. -/
structure ShItem where
  handle : Nat := 0
  lpn : Nat := 0
  layer : Nat := 0xFFFF
  heads : Nat := 0
  block : Nat := 0xFFFFFFFF
  coll : Nat := 0xFFFF
  list : Nat := 0xFFFFFFFF
  flags : Nat := 0
  tier : Nat := 0
  body : Bytes := []

/-- A shard: its kind, its domain, the channel its content came from, and its items. -/
structure Shard where
  kind : Nat
  dom : Nat
  chan : Nat
  items : List ShItem

/-- The tag in a frame's sidecar (R167). -/
def frameTag (b : Bytes) : Bytes := (b.drop 73024).take 16

/-- An item's index entry, its bytes lying at an offset. -/
def ShItem.index (x : ShItem) (kind off : Nat) : Bytes :=
  leBytes 8 x.handle ++ leBytes 4 x.lpn ++ leBytes 2 x.layer ++ [0, x.heads] ++ leBytes 4 x.block ++ leBytes 2 x.coll ++ [0, 0] ++ leBytes 4 x.list ++ [x.flags, x.tier, 0, 0] ++
  leBytes 8 off ++ leBytes 4 x.body.length ++ [0, 0, 0, 0] ++ (if kind = 2 ∧ x.body ≠ [] then frameTag x.body else List.replicate 16 0)

/-- The index of a shard whose items' bytes begin at an offset. -/
def indexFrom (kind : Nat) : Nat → List ShItem → Bytes
  | _, [] => []
  | off, x :: l => x.index kind off ++ indexFrom kind (off + x.body.length) l

/-- The section in plaintext: the index, then for kinds 1, 3 and 4 the content records. -/
def Shard.section (x : Shard) : Bytes :=
  if x.kind = 2 then indexFrom 2 0 x.items else indexFrom x.kind (64 * x.items.length) x.items ++ x.items.flatMap (·.body)

/-- The frames that follow the section. -/
def Shard.frames (x : Shard) : Bytes := if x.kind = 2 then x.items.flatMap (·.body) else []

/-- An item whose bytes are a content record in the section. -/
def ShItem.inSection (x : ShItem) : ShItem := { x with flags := 4 }

/-- A session's item of a SESSIONS shard: its entry, the fields of a running command zero, and its text context. -/
def State.sessItem (s : State) (k : Nat) : ShItem :=
  let x := s.sess k
  let s' := s.setSess k { x with deadline := 0, head := 0, tail := 0, run := none, remaining := 0, progress := 0 }
  ShItem.inSection { handle := s.handle k, body := s'.entryBytes k ++ ctxBytes x.ctx }

/-- A far page is read for its shard, through its own flow (R188). -/
def State.shardRead (s : State) (k : Nat) (p : Page) : State :=
  let e := s.farPlace (s.sess k).dom p.region p.frame
  match s.takeSlot (chOf k) 2 with
  | some (i, s') => if s.flowReady e.1 then s'.bulkRead e.1 e.2.1 e.2.2 frameBytes .drainFlush (some (chOf k, i)) else s
  | none => s.trackWait (chOf k)

/-- A page's item of a PAGES shard (R450, R451): a near page is encrypted as for a write to far, with a fresh nonce and its version; a deep or far one is copied
as it stands; a poisoned or absent one is listed only. -/
def State.pageItem (s : State) (k l : Nat) (p : Page) : ShItem × State :=
  let x := s.sess k
  let m := s.kvModel x l
  let base : ShItem :=
    { handle := s.handle k, lpn := l, tier := p.tier % 3
      layer := if isKv l then (if l < (s.model x.model).draftBase then l else l - (s.model x.model).draftBase) % Nat.max 1 m.total else 0xFFFF
      heads := if isKv l then m.kvHeads else 0
      block := if isKv l then s.blockOf x l else 0xFFFFFFFF }
  if p.tier = 3 then ({ base with flags := 2 + b2n p.poisoned }, s)
  else if p.poisoned ∨ s.stale p then ({ base with flags := 1 }, s)
  else if p.tier = 0 then
    let s := s.nextNonce p.ch
    let q : Page := { p with tier := 2, epoch := (s.domSec x.dom).active, nonce := s.nonceAt p.ch, writer := ownWriter }
    ({ base with body := s.pageFrame k l q }, s)
  else ({ base with body := s.pageFrame k l p }, s.when (decide (p.tier = 2)) fun s => s.shardRead k p)

/-- The items of a session's pages. -/
def State.pageItems (s : State) (k : Nat) : List ShItem × State :=
  (s.sess k).pages.foldl (fun a e => let r := a.2.pageItem k e.1 e.2; (a.1 ++ [r.1], r.2)) ([], s)

/-- A record of a DOMAIN shard: its kind, the handle it goes under, its length and its bytes (log 51). -/
def domainItem (kind handle : Nat) (b : Bytes) : ShItem := ShItem.inSection { body := [kind, 0] ++ leBytes 2 handle ++ leBytes 4 b.length ++ b }

/-- A ledger's record (R284, R450): reserved is zero. -/
def ledgerBytes (b : Budget) : Bytes := leBytes 8 (b.bal.emod (2 ^ 64)).toNat ++ leBytes 8 0 ++ leBytes 8 b.refilled ++ leBytes 8 b.charged ++ leBytes 8 (b.adjusted.emod (2 ^ 64)).toNat

/-- The items of a domain's DOMAIN shard. -/
def State.domainItems (s : State) (d : Nat) : List ShItem :=
  let mine {α : Type} (l : List (Nat × α)) : List (Nat × α) := l.filter fun e => e.1 / 1024 == d
  [domainItem 0 0 (ledgerBytes (s.budget d))] ++ ((mine s.tx.stops).map fun e => domainItem 1 (e.1 % 1024) (stopSetBytes e.2)) ++
  ((mine s.tx.profs).map fun e => domainItem 2 (e.1 % 1024) (profileBytes e.2)) ++ ((mine s.tx.grammars).map fun e => domainItem 3 (e.1 % 1024) (beBytes 32 e.2.1.digest)) ++
  ((s.tx.vocabs.filter fun e => e.2.dom == d).map fun e => domainItem 4 e.1 (beBytes 32 e.2.v.digest))

/-- The create record of a collection (R347). -/
def collRecord (c : CollData) : Bytes := [1, 1, c.dist, c.mask] ++ leBytes 2 c.dim ++ [0, 0] ++ leBytes 4 c.lists ++ leBytes 4 c.capacity ++ List.replicate 48 0

/-- The items of a collection's shard: its create record, scales, offsets and centroids; then each list's records. -/
def collItems (i : Nat) (c : CollData) : List ShItem :=
  ShItem.inSection { coll := i, body := collRecord c ++ c.scales.flatMap (leBytes 4) ++ c.offs.flatMap (leBytes 4) ++ c.cents.flatMap fun e => leBytes 4 e.1 ++ e.2 } ::
  ((List.range c.lists).filter fun l => !(inList c l).isEmpty).map fun l => ShItem.inSection { coll := i, list := l, body := (inList c l).flatMap (VRec.bytes c.dim) }

/-! ## Shards (R450, R451) -/

/-- Items of sessions in ascending handle order, cut into shards: one is closed before it would exceed 65,536 items. -/
def packItems : List (List ShItem) → List ShItem → List (List ShItem)
  | [], acc => if acc = [] then [] else [acc]
  | l :: rest, acc =>
    if acc.length + l.length ≤ 65536 then packItems rest (acc ++ l)
    else
      let cut := chunksOf 65536 l.length l
      (if acc = [] then [] else [acc]) ++ cut.dropLast ++ packItems rest (cut.getLastD [])

/-- A domain's shards on this device. -/
def State.domainShards (s : State) (d : Nat) : List Shard × State :=
  let mine := (s.ss.tbl.filter fun e => decide (e.2.st ≠ .free) && decide (e.2.dom = d)).map (·.1)
  let sess := ((List.range 4).map fun c => { kind := 1, dom := d, chan := c, items := (mine.filter fun k => chOf k == c).map s.sessItem : Shard }).filter fun x => !x.items.isEmpty
  let order := sortBy (fun a b => decide (s.handle a < s.handle b)) mine
  let r := order.foldl (fun (a : List (List ShItem) × State) k => let r := a.2.pageItems k; (a.1 ++ [r.1], r.2)) ([], s)
  let pages := (packItems r.1 []).map fun l => { kind := 2, dom := d, chan := chOf ((l.headD {}).handle / 2 ^ 22 % 2 ^ 20), items := l : Shard }
  let items := s.domainItems d
  let dom : List Shard := if mine = [] ∧ items.length = 1 ∧ (s.sv.budgets.any fun e => e.1 == d) = false then [] else [{ kind := 3, dom := d, chan := 0, items := items }]
  let colls := (s.se.colls.filter fun e => e.2.st == 1 && e.2.dom == d).map fun e => { kind := 4, dom := d, chan := e.2.chans.headD 0, items := collItems e.1 e.2.data : Shard }
  (sess ++ pages ++ dom ++ colls, r.2)

/-- Every shard of this device, domain by domain. -/
def State.shards (s : State) : List Shard × State :=
  (List.range 4096).foldl (fun a d => let r := a.2.domainShards d; (a.1 ++ r.1, r.2)) ([], s)

/-- A shard's bytes: header, encrypted section, frames (R451); and the digest over header and section. -/
def State.sealShard (s : State) (x : Shard) : (Bytes × Nat) × State :=
  let s := s.nextNonce x.chan
  let epoch := (s.domSec x.dom).active
  let sec := x.section
  let head := [1, 1, x.kind, 0] ++ leBytes 2 x.dom ++ [s.device, s.ck.slot] ++ leBytes 8 s.ck.p ++ leBytes 4 (s.reg Dict.warpId) ++ leBytes 4 epoch ++ leBytes 4 x.items.length ++ leBytes 4 0 ++
    leBytes 8 sec.length ++ leBytes 8 x.frames.length ++ beBytes 12 (s.nonceAt x.chan) ++ leBytes 4 0
  let key := pageKey (s.storageKey x.dom epoch) ownWriter
  let ct := gcmSeal key (s.nonceAt x.chan) sec
  let hs := head ++ gcmTagBytes key (s.nonceAt x.chan) head ct ++ beBytes 16 ownWriter ++ List.replicate 160 0 ++ ct
  ((hs ++ x.frames, Config.shake256 hs 32), s)

/-- Bytes up to the next multiple of 64 (R448). -/
def pad64 (b : Bytes) : Bytes := b ++ List.replicate ((64 - b.length % 64) % 64) 0

/-- The shards laid out from offset 0, each at a multiple of 64, and their manifest entries (R452). -/
def State.layShards (s : State) : Bytes × List Bytes × State :=
  let r := s.shards
  r.1.foldl (fun (a : Bytes × List Bytes × State) x =>
    let w := a.2.2.sealShard x
    let e := [x.kind, 0] ++ leBytes 2 x.dom ++ leBytes 4 0 ++ leBytes 8 a.1.length ++ leBytes 8 w.1.1.length ++ beBytes 32 w.1.2 ++ leBytes 8 0
    (a.1 ++ pad64 w.1.1, a.2.1 ++ [e], w.2)) ([], [], r.2)

/-! ## Manifest and commit record (R452) -/

/-- Bytes with the identity public key and the signature that one index makes. -/
def signedBytes (index : Nat) (b : Bytes) : Bytes :=
  let body := b ++ fixLen 68 Config.identityKey
  body ++ fixLen 9893 (Config.xmssSign index body)

/-- The stamp of a signing; its holdover bit is that of P (R452, R60). -/
def State.cutStamp (s : State) : Bytes := let p := s.stampNow; Stamp.bytes { p with flags := 128 * b2n s.ck.hold + p.flags % 128 }

/-- This device's manifest over its shards' entries. -/
def State.manifest (s : State) (index : Nat) (entries : List Bytes) : Bytes :=
  signedBytes index ([1, 1, s.ck.slot, s.device] ++ leBytes 4 (s.reg Dict.warpId) ++ leBytes 8 s.ck.p ++ s.cutStamp ++ leBytes 4 entries.length ++ leBytes 4 0 ++ beBytes 32 ownDigest ++
    beBytes 32 (Config.shake256 (beBytes 2048 (s.reg Dict.warpMemberTable)) 32) ++ ((List.range 4).flatMap fun c => leBytes 2 (s.reg Dict.sealDomain c)) ++ List.replicate 16 0 ++ entries.flatten)

/-- The commit record over what every device has answered (R452); each member's region key is `ckpt.shard_key` of the slot as this device has it (log 179). -/
def State.commitRecord (s : State) (index : Nat) (devs : List Nat) (answers : List CkMsg) : Bytes :=
  let member (i : Nat) : Bytes :=
    let a := (answers.find? fun a => a.src == i).getD { src := i, slot := 0, p := 0 }
    [i, 0, 0, 0] ++ leBytes 4 a.len ++ leBytes 8 a.off ++ leBytes 4 (s.reg Dict.ckptShardKey s.ck.slot) ++ List.replicate 12 0 ++
    beBytes 32 (if i = s.device then ownDigest else s.memberDigest i) ++ beBytes 32 a.digest
  signedBytes index ([1, 1, s.ck.slot, devs.length] ++ leBytes 4 (s.reg Dict.warpId) ++ leBytes 8 s.ck.p ++ s.cutStamp ++ [s.device] ++ List.replicate 31 0 ++ devs.flatMap member)

/-! ## What is written (R445, R448) -/

/-- Bytes go to a place behind `ckpt.flow`, and a FLUSH follows them. -/
def State.ckptWrite (s : State) (key off : Nat) (b : Bytes) : State :=
  let f := s.reg Dict.ckptFlow
  (s.bulkWrite f key off b).bulkFlush f .drainFlush

/-- Bytes go to a slot's place in the commit area. -/
def State.commitWrite (s : State) (slot : Nat) (b : Bytes) : State := s.ckptWrite (s.reg Dict.ckptCommitKey) (s.reg Dict.ckptCommitBase + 65536 * slot) b

/-- Bytes go into this device's region of a slot. -/
def State.slotWrite (s : State) (off : Nat) (b : Bytes) : State := s.ckptWrite (s.reg Dict.ckptShardKey s.ck.slot) (s.reg Dict.ckptShardBase s.ck.slot + off) b

end Sys2Proof.Machine
end

