-- ==== Sys2Proof/Machine/Ckpt.lean ====
section
/-! DEFINITION. Checkpoint and restore (spec/15): coordination, the drain, the commit record, and the placement of what a restore reads. -/

namespace Sys2Proof.Machine

open Sys2Proof

/-! ## Messages (R454) -/

/-- A checkpoint control message's payload (R454): version, min_version, type, flags, then the fields. -/
def ckBytes (typ : Nat) (m : CkMsg) : Bytes :=
  ctlBytes typ 0 ([m.slot, m.src, m.cause, 0] ++ beBytes 8 m.p ++ beBytes 8 m.r ++ beBytes 2 m.filter ++ List.replicate 6 0 ++ beBytes 32 m.digest ++
    beBytes 8 m.off ++ beBytes 4 m.len ++ beBytes 4 m.restored ++ beBytes 4 m.unrestored ++ m.map)

/-- Sends one to a device. -/
def State.ckSend (s : State) (dst typ : Nat) (m : CkMsg) : State := s.routeCtl dst (ckBytes typ m)

/-- Sends one to each of several devices but this one. -/
def State.ckSendAll (s : State) (dsts : List Nat) (typ : Nat) (m : CkMsg) : State :=
  s.each (dsts.filter (· != s.device)) fun i s => s.ckSend i typ m

/-- A message's arrival: over Dernyx, or from this device itself. -/
def State.ckArrive (s : State) (link : Nat) (m : CkMsg) (f : State → State) : State := if m.src = s.device then f s else s.ctlArrive link m.src f m.minVersion

/-- The P and slot of `ckpt.last_committed`. -/
def State.lastP (s : State) : Nat := beField 16 (s.reg Dict.ckptLastCommitted) 0 8
def State.lastSlot (s : State) : Nat := beField 16 (s.reg Dict.ckptLastCommitted) 8 1

/-- A device that has stopped for a checkpoint resumes at the next action point (R448, R455). -/
def State.willResume (s : State) : State := { s with ck := { s.ck with st := 0, resume := true, cmd := none, cutAt := 0 } }

/-- The status that the coordinator's command ends with, by abort cause (R455). -/
def abortStatus (cause : Nat) : Nat := if cause = 3 then stNoFrames else if cause = 4 ∨ cause = 6 then stBad else stAbort

/-- A checkpoint is aborted on this device (R455): CKPT_ABORT to every device; at the coordinator the command ends. -/
def State.abortCkpt (s : State) (cause dev : Nat) : State :=
  let k := s.ck
  if k.st = 0 ∨ k.st = 5 then s
  else
    let s := s.ckSendAll s.warpDevices 0x17 { src := s.device, slot := k.slot, cause := cause, p := k.p }
    let s := match k.cmd with
      | some (d, id) => ((s.endDrun d id (abortStatus cause) 0 0).inc Dict.ckptAbortCount).notify 0x0802 (beBytes 8 k.p ++ [cause, dev])
      | none => s
    let s := s.willResume
    { s with ck := { s.ck with ended := some (k.p, true) } }

/-! ## Beginning (R447, R448) -/

/-- A barrier becomes pending at P, unless one is (R68). -/
def State.armBarrier (s : State) (p : Nat) : State :=
  match s.pk.barrier with
  | some _ => s
  | none => { s with pk := { s.pk with barrier := some { p := p } } }

/-- A device takes CKPT_NOTICE (R448, R455): it enters ARMED, or aborts while it is being removed. -/
def State.arm (s : State) (m : CkMsg) : State :=
  if s.ck.ended = some (m.p, true) then s.ckSend m.src 0x17 { src := s.device, slot := m.slot, cause := 0, p := m.p }
  else if s.ck.st ≠ 0 ∧ s.ck.cmd = none then s
  else
    let cmd := s.ck.cmd
    let ck := { s.ck with st := 1, slot := m.slot, p := m.p, coord := m.src, cutAt := 0, resume := false, cmd := cmd }
    let s := State.armBarrier { s with ck := ck } m.p
    if s.pw.pkg = .draining ∨ s.pw.pkg = .removeReady then s.abortCkpt 6 s.device else s

/-- The conditions on a device that starts a checkpoint or a restore (R447, R457), but those on P and slot: the status of the first that fails. -/
def State.ckCommon (s : State) (d : Nat) (fields : Bool) : Option Nat :=
  if s.reg Dict.ckptDomain ≠ d then some stDenied
  else if fields = false then some stBad
  else if s.warpDevices.headD s.device ≠ s.device then some stBad
  else if s.ck.st ≠ 0 ∨ s.pk.barrier.isSome then some stHold
  else none

/-- CHECKPOINT_BEGIN (R447, R448 steps 1 and 2); `ok` says whether the zeroing of the commit record and its FLUSH succeeded.  A coordinator that aborted an earlier
checkpoint at P forgets that as it begins a new one there. -/
def execCheckpointBegin (t : Nat) (d : Nat) (ok : Bool) (s : State) : Host.Outcome State Fault Refusal :=
  run (.checkpointBegin t d ok) t s fun s => s.startDom d 0x58 fun r s =>
    let q := r.q.d
    let p := q.dataRef
    let slot := if q.count = 2 then (if s.lastP = 0 then 0 else 1 - s.lastSlot) else q.count
    let fields := decide (p < 2 ^ 48) && decide (q.count ≤ 2) && descBare q && decide (q.dataLen = 0) && decide (q.deadline = 0)
    match s.ckCommon d fields with
    | some st => s.endDrun d r.id st 0 0
    | none =>
      if p < s.pk.current + 2 ∨ p ≤ s.lastP then s.endDrun d r.id stBad 0 0
      else if s.reg Dict.ckptCommitKey = 0 ∨ s.reg Dict.ckptShardKey slot = 0 then s.endDrun d r.id stBad 0 0
      else if s.sigLeft < 2 then s.endDrun d r.id stBad 0 0
      else
        let m : CkMsg := { src := s.device, slot := slot, p := p }
        let s : State := { s with ck := { s.ck with st := 1, slot := slot, p := p, coord := s.device, cmd := some (d, r.id), devs := s.warpDevices, noticeAt := s.now, answers := [], ended := if s.ck.ended = some (p, true) then none else s.ck.ended } }
        let s := s.commitWrite slot (List.replicate 65536 0)
        if ok then (s.ckSendAll s.warpDevices 0x14 m).arm m else s.abortCkpt 2 s.device

/-- CKPT_NOTICE (R448). -/
def execCkptNotice (t : Nat) (link : Nat) (m : CkMsg) (s : State) : Host.Outcome State Fault Refusal :=
  run (.ckptNotice t link m) t s fun s => s.ckArrive link m fun s => s.arm m

/-! ## The cut (R448, R449) -/

/-- Load-class commands that run at P's action point are undone, with CHECKPOINT_HOLD (R449); inserts and selections between items stop (R343, R366). -/
def State.undoLoads (s : State) : State :=
  s.each s.ss.rings fun e s => s.each e.2.running fun r s =>
    if r.q.d.opcode = 0x40 then s.failLoad e.1 r.id (r.q.d.count % 16) stHold
    else if r.q.d.opcode = 0x48 ∨ r.q.d.opcode = 0x42 ∨ r.q.d.opcode = 0x43 then s.endDrun e.1 r.id stHold 0 0
    else if r.q.d.opcode = 0x49 then s.tryInsert e.1 r.id
    else if r.q.d.opcode = 0x50 ∧ r.stage = 1 then s.trySelect e.1 r.id else s

/-- What an action point does for checkpoints (R448, R449): at P's, step starts and sessions are held from here on; a device that resumes lets them go. -/
def ckptAction (num due : Nat) (s : State) : State :=
  let s := if s.ck.resume then { s with ck := { s.ck with resume := false, drain := false }, sv := { s.sv with held := false } } else s
  if s.ck.st = 1 ∧ s.ck.p ≤ num ∧ s.sv.held = false then
    let devs := if s.ck.cmd.isSome then s.warpDevices else s.ck.devs
    State.undoLoads { s with ck := { s.ck with cutAt := due, drain := true, devs := devs, hold := s.pk.hold }, sv := { s.sv with held := true } }
  else s

/-- The device enters WRITING once the page moves in flight have ended (R448, steps 4 and 5). -/
def State.ckptAdvance (s : State) : State :=
  if s.ck.st = 2 ∧ s.tm.moves.all (fun m => !m.started) then { s with ck := { s.ck with st := 3 } } else s

/-- CHECKPOINT_CUT (R448, step 3): the steps of P − 1 have finished, and so has the barrier at P. -/
def execCheckpointCut (t : Nat) (s : State) : Host.Outcome State Fault Refusal :=
  run (.checkpointCut t) t s fun s =>
    if s.ck.st = 1 ∧ s.sv.held = true ∧ s.sv.run = none ∧ s.pk.barrier.all (fun b => b.p ≠ s.ck.p) then State.ckptAdvance { s with ck := { s.ck with st := 2 } } else s

/-! ## Commit (R448, R452) -/

/-- The device takes the commit (R448, step 8). -/
def State.takeCommit (s : State) (p slot : Nat) : State :=
  let s := s.setReg Dict.ckptLastCommitted (p * 2 ^ 64 + slot * 2 ^ 56)
  let s := (s.store).inc Dict.ckptCommitCount
  { s with ck := { s.ck with st := 0, cmd := none, cutAt := 0, ended := some (p, false) } }

/-- The coordinator holds a CKPT_WRITTEN (R448, step 7); with the last one it signs and writes the commit record and completes the command. -/
def State.gotWritten (s : State) (m : CkMsg) (ok : Bool) : State :=
  let k := s.ck
  match k.cmd with
  | none => s
  | some (d, id) =>
    if m.p ≠ k.p then s
    else
      let answers := (k.answers.filter fun a => a.src != m.src) ++ [m]
      let s : State := { s with ck := { s.ck with answers := answers } }
      if (k.devs.all fun i => answers.any fun a => a.src == i) = false then s
      else if ok = false then s.abortCkpt 2 s.device
      else match takeIndex s with
        | none => s.abortCkpt 4 s.device
        | some (i, s) =>
          let rec' := s.commitRecord i k.devs answers
          let s := ((s.commitWrite k.slot rec').tookStamp).endDrun d id stDone k.devs.length rec'.length
          let s := (s.ckSendAll k.devs 0x16 { src := s.device, slot := k.slot, p := k.p }).takeCommit k.p k.slot
          s.notify 0x0801 (beBytes 8 k.p ++ [k.slot])

/-- The manifest that signature index i makes is written after the n bytes of the shards, and the coordinator hears of it (R448, step 6, R452). -/
def State.writeManifest (s : State) (i n : Nat) (entries : List Bytes) : State :=
  let man := s.manifest i entries
  let m : CkMsg := { src := s.device, slot := s.ck.slot, p := s.ck.p, digest := Config.shake256 man 32, off := n, len := man.length }
  let s := ((s.slotWrite n man).tookStamp).setReg Dict.ckptBytesWritten (n + man.length)
  let s : State := { s with ck := { s.ck with st := 4, resume := true, mine := m } }
  if s.ck.coord = s.device then s.gotWritten m true else s.ckSend s.ck.coord 0x15 m

/-- SHARD_WRITE_COMPLETE (R448, steps 5 and 6): the shards are laid out and written, a FLUSH follows, the manifest is signed and written, and a second FLUSH follows;
`ok` says whether all of these were answered without a failure (log 179). -/
def execShardWriteComplete (t : Nat) (ok : Bool) (s : State) : Host.Outcome State Fault Refusal :=
  run (.shardWriteComplete t ok) t s fun s =>
    if s.ck.st ≠ 3 then s
    else
      let w := s.layShards
      let n := w.1.length
      if s.reg Dict.ckptShardBytes s.ck.slot < n then s.abortCkpt 3 s.device
      else if ok = false ∨ s.flowReady (s.reg Dict.ckptFlow) = false then s.abortCkpt 2 s.device
      else match takeIndex (w.2.2.slotWrite 0 w.1) with
        | none => s.abortCkpt 4 s.device
        | some (i, s) => s.writeManifest i n w.2.1

/-- CKPT_WRITTEN (R448, R454): after the commit it is answered with CKPT_COMMIT, after an abort with CKPT_ABORT. -/
def execCkptWritten (t : Nat) (link : Nat) (m : CkMsg) (ok : Bool) (s : State) : Host.Outcome State Fault Refusal :=
  run (.ckptWritten t link m ok) t s fun s => s.ckArrive link m fun s =>
    match s.ck.ended with
    | some (p, ab) =>
      if p = m.p then s.ckSend m.src (if ab then 0x17 else 0x16) { src := s.device, slot := m.slot, p := m.p } else s.gotWritten m ok
    | none => s.gotWritten m ok

/-- CKPT_ABORT (R455). -/
def execCkptAbort (t : Nat) (link : Nat) (m : CkMsg) (s : State) : Host.Outcome State Fault Refusal :=
  run (.ckptAbort t link m) t s fun s => s.ckArrive link m fun s => if m.p = s.ck.p then s.abortCkpt m.cause m.src else s

/-- CHECKPOINT_TIMEOUT (R455): at the coordinator the checkpoint aborts; another device resumes on its own. -/
def execCheckpointTimeout (t : Nat) (s : State) : Host.Outcome State Fault Refusal :=
  run (.checkpointTimeout t) t s fun s =>
    let lim := 1000000 * s.reg Dict.ckptTimeout
    if s.ck.st = 0 ∨ s.ck.st = 5 then s
    else if s.ck.cmd.isSome then (if s.ck.noticeAt + lim ≤ s.now then s.abortCkpt 1 s.device else s)
    else if s.ck.cutAt ≠ 0 ∧ s.ck.cutAt + lim ≤ s.now then s.willResume else s

/-! ## Restore (R457-R464) -/

/-- The restore record's checks (R457). -/
def restoreOk (b : Bytes) (current : Nat) : Bool :=
  decide (b.length = 128) && decide (le b 1 1 ≤ 1) && decide (le b 2 1 ≤ 2) && zeroAt b 3 1 && (decide (le b 4 2 ≤ 4095) || decide (le b 4 2 = 0xFFFF)) && zeroAt b 6 2 &&
  decide (current + 2 ≤ le b 8 8) && zeroAt b 16 48 && (List.range 64).all fun i => decide (le b (64 + i) 1 < 64) || decide (le b (64 + i) 1 = 0xFF)

/-- Whether a commit record is valid (R458): its versions, its signature, and its key, which is the coordinator's. -/
def commitValid (c : CkCommit) : Bool := decide (c.minVersion ≤ 1) && c.sigOk && c.members.any fun e => decide (e.dev = c.coord) && decide (e.identity = c.keyDigest)

/-- The commit record that a restore takes (R458). -/
def pickCommit (slot : Nat) (l : List CkCommit) : Option CkCommit :=
  let good := l.filter commitValid
  if slot < 2 then good.find? fun c => c.slot == slot
  else good.foldl (fun a c => match a with
    | none => some c
    | some b => if b.p < c.p then some c else some b) none

/-- RESTORE_BEGIN (R457, R458); `commits` is what the commit area holds. -/
def execRestoreBegin (t : Nat) (d : Nat) (rec : Option Bytes) (commits : List CkCommit) (s : State) : Host.Outcome State Fault Refusal :=
  run (.restoreBegin t d rec commits) t s fun s => s.startDomIn d 0x59 rec fun r b s =>
    match s.ckCommon d (descBare r.q.d && decide (r.q.d.count = 0) && decide (r.q.d.dataLen = 128)) with
    | some st => s.endDrun d r.id st 0 0
    | none =>
      if s.sigLeft < 2 ∨ restoreOk b s.pk.current = false then s.endDrun d r.id stBad 0 0
      else match pickCommit (le b 2 1) commits with
        | none => s.endDrun d r.id stBad 0 0
        | some c =>
          let m : CkMsg := { src := s.device, slot := c.slot, p := c.p, r := le b 8 8, filter := le b 4 2, map := (List.range 64).map fun i => le b (64 + i) 1 }
          let ck : Ckpt := { s.ck with st := 5, slot := c.slot, p := c.p, coord := s.device, cmd := some (d, r.id), devs := s.warpDevices, noticeAt := s.now, answers := [], r := m.r, map := m.map, filter := m.filter, todo := [], doms := [], started := false, doneSent := false, restored := 0, unrestored := 0 }
          State.ckSendAll { s with ck := ck } s.warpDevices 0x18 m

/-- A pick-valued field moved by Δ = R − P (R461): 0 stays 0, and a result below 1 becomes 1. -/
def movePick (p r f : Nat) : Nat := if f = 0 then 0 else Nat.max 1 (f + r - p)

/-- The device that map M gives source i (R460), of the target devices T. -/
def mapTo (map ts : List Nat) (i auto : Nat) : Nat :=
  let m := map.getD i 0xFF
  if m = 0xFF then ts.getD (auto % Nat.max 1 ts.length) 0 else m

/-- Where an item goes (R460). -/
def State.targetOf (s : State) (ts : List Nat) (src : Nat) (x : CkItem) : Nat :=
  match x with
  | .session x =>
    match (List.range 16).find? fun m => decide ((s.model m).placement = 2) && decide ((s.model m).meas = x.meas) && decide ((s.model m).st ≠ 0) with
    | some m => beField 64 (s.reg Dict.modelStageMap 0 m) 0 1
    | none => mapTo s.ck.map ts src (handleSlot x.handle)
  | _ => mapTo s.ck.map ts src src

/-- Whether a domain's items may be restored here (R462). -/
def State.domRestorable (s : State) (src : CkManifest) (d epoch : Nat) : Bool :=
  let sealedDom := decide (s.reg Dict.dsecClass 0 d = 2)
  !(s.ss.tbl.any fun e => decide (e.2.st ≠ .free) && decide (e.2.dom = d)) && !(s.se.colls.any fun e => e.2.st != 0 && e.2.dom == d) &&
  (decide ((s.domSec d).epoch = epoch) || decide ((s.domSec d).epoch = epoch + 1)) &&
  (!sealedDom ||
    (decide (src.dev = s.device) && decide (src.identity = ownDigest) &&
      (List.range 4).all fun c => decide (src.seals.getD c 0xFFFF ≠ d) || (s.isOn (.seal c) && decide (s.reg Dict.sealDomain c = d))))

/-- A session that is not restored (R464): a record on its domain's queue. -/
def State.unrestored (s : State) (x : CkSess) (status : Nat) : State :=
  let s := (s.inc Dict.ckptUnrestoredCount).record x.dom 0 0xFFFF 0x59 status (bits x.handle 47 22) (handleGen x.handle) flUnsolicited false
  { s with ck := { s.ck with unrestored := s.ck.unrestored + 1 } }

/-- The session states of spec/05 by code. -/
def stOfCode (n : Nat) : SSt :=
  ([SSt.free, .admitted, .prefill, .decode, .toolwait, .parkedDeep, .condensed, .parkedFar, .reviving, .moving, .halted, .closing]).getD n .free

/-- The state in which a session is restored (R461); none for CLOSING. -/
def restoredState (x : CkSess) : Option SSt :=
  let rest := if x.generated then SSt.toolwait else .admitted
  let base := stOfCode (if x.st = 8 ∨ x.st = 9 then x.prior else x.st)
  match base with
  | .parkedDeep => some .parkedDeep
  | .condensed => some .condensed
  | .parkedFar => some .parkedFar
  | .halted => some .halted
  | .closing => none
  | _ => some rest

/-- The slot a restored or migrated session takes on a channel: the old one when free and in the domain's range, otherwise the lowest free one; one
whose ring holds a descriptor is left to it (R147). -/
def State.slotFor (s : State) (d c old : Nat) : Option Nat :=
  let base := s.reg Dict.dsessSlotBase c d
  let n := s.reg Dict.dsessSlotCount c d
  let free (i : Nat) : Bool := decide ((s.sess (c * 262144 + i)).st = .free) && (s.sess (c * 262144 + i)).ring.isEmpty && (s.sess (c * 262144 + i)).imm.isEmpty && !(s.dx.inn.any fun m => m.k == c * 262144 + i && !m.committed)
  if base ≤ old ∧ old < base + n ∧ free old = true then some (c * 262144 + old)
  else ((List.range n).find? fun i => free (base + i)).map fun i => c * 262144 + base + i

/-- A page of a restored session takes a frame in the tier it held (R460), written there anew (R170); none where there is no frame. -/
def State.restorePage (s : State) (k : Nat) (p : CkPage) : Option State :=
  let d := (s.sess k).dom
  let c := chOf k
  let q : Page := { poisoned := p.poisoned, hot := p.hot, ver := p.ver, touch := movePick s.ck.p s.ck.r p.touch, count := p.count, kv := p.kv, cairn := p.cairn }
  if p.absent ∨ p.poisoned then some (s.setPage k p.lpn { q with tier := 3 })
  else if p.tier = 0 then (s.placeNear k p.lpn).map fun r => r.2.2.setPage k p.lpn { q with tier := 0, inc := s.incOf r.1, ch := r.1, frame := r.2.1 }
  else if p.tier = 1 then
    (s.takeFrame d ((s.placing k p.lpn).headD c) 1).map fun r =>
      let ch := (s.placing k p.lpn).headD c
      let w := r.2.written d ch 1 q
      w.2.setPage k p.lpn { w.1 with inc := s.incOf ch, ch := ch, frame := r.1 }
  else
    ((s.farRegion d).filter fun g => s.flowReady (s.farPlace d g 0).1).bind fun g => (s.takeFar d g c).map fun r =>
      let w := r.2.written d c 2 q
      let q : Page := { w.1 with region := g, frame := r.1 }
      let (f, key, off) := s.farPlace d g r.1
      (w.2.setPage k p.lpn q).txWrite f key off (s.pageFrame k p.lpn q)

/-- A session with its pages, in a slot of this device; none where frames are missing (R460, R461). -/
def State.landSession (s : State) (k m : Nat) (x : CkSess) (st : SSt) (dP dR : Nat) : Option State :=
  let e : Sess :=
    { st := st, gen := s.genOf k, head := (s.sess k).head, tail := (s.sess k).tail, dom := x.dom, prio := x.prio, model := m, length := x.length, ttl := movePick dP dR x.ttl, sver := x.sver, grammar := x.grammar, stop := x.stop
      sampling := x.sampling, gstate := x.gstate, since := movePick dP dR x.since, slate := x.slate, charged := x.charged, generated := x.generated, tokens := x.tokens, ctx := x.ctx
      kvLen := x.kvLen, draftLen := x.draftLen, policy := x.policy, lost := decide (st = .halted) }
  let s := s.setSess k e
  x.pages.foldl (fun o p => o.bind fun s => s.restorePage k p) (some s)

/-- Places one restored item: none where frames are missing and it waits (R460-R464). -/
def State.placeItem (s : State) (it : RestItem) : Option State :=
  match it.item with
  | .session x =>
    let d := x.dom
    if s.ck.doms.contains d = false then some (s.unrestored x stDenied)
    else match restoredState x with
      | none => some (s.unrestored x stDone)
      | some st =>
        if x.pages.any fun p => !p.ok then some (s.unrestored x stPageLost)
        else match (List.range 16).find? fun m => decide ((s.model m).st = 2) && decide ((s.model m).dom = d) && decide ((s.model m).meas = x.meas) with
          | none => some (s.unrestored x stDenied)
          | some m =>
            let old := handleSlot x.handle
            let cs := s.domChans d
            let c := if cs.contains (chOf old) then chOf old else cs.headD (chOf old)
            match s.slotFor d c (old % 262144) with
            | none => some (s.unrestored x stNoFrames)
            | some k =>
              (s.landSession k m x st s.ck.p s.ck.r).map fun s =>
                let s : State := { s with ck := { s.ck with restored := s.ck.restored + 1 } }
                s.when (decide (s.handle k ≠ x.handle)) fun s =>
                  s.unsolicited k 0x59 stDone (bits x.handle 47 22) (handleGen x.handle) flChanged
  | .domain l stops profs _ =>
    let d := it.epoch
    if s.ck.doms.contains d = false then some s
    else
      let b := s.budget d
      let s := s.setBudget d { b with bal := b.bal + l.balance, adjusted := b.adjusted + l.adjusted, charged := b.charged + l.charged, refilled := b.refilled + l.refilled }
      let s := s.setBudget d (s.budget d).rebased
      let ss := stops.filterMap fun e => (parseStopSet e.2).map fun v => (d * 1024 + e.1, v)
      let ps := profs.filterMap fun e => (parseProfile e.2).map fun v => (d * 1024 + e.1, v)
      let stops' := (s.tx.stops.filter fun e => ss.all fun x => x.1 != e.1) ++ ss
      let profs' := (s.tx.profs.filter fun e => ps.all fun x => x.1 != e.1) ++ ps
      some { s with tx := { s.tx with stops := stops', profs := profs' } }
  | .collection i c =>
    let d := it.epoch
    let cs := if c.mask = 0 ∨ s.reg Dict.dsecClass 0 d = 2 then s.domChans d else (s.domChans d).filter fun n => bit c.mask n
    if s.ck.doms.contains d = false ∨ (s.coll i).st ≠ 0 ∨ cs = [] then some s
    else
      let recs := c.recs.map fun r => { r with born := movePick s.ck.p s.ck.r r.born, died := movePick s.ck.p s.ck.r r.died }
      let s := s.setColl i { st := 1, dom := d, chans := cs, data := { c with recs := recs } }
      let s : State := { s with tm := { s.tm with claims := s.tm.claims ++ [(cs.headD 0, 8 * c.dim)] } }
      (s.takeBulk d (cs.headD 0) (collTag i) (baseFrames c.dim c.lists c.capacity)).bind fun s =>
        (List.range c.lists).foldl (fun o l => o.bind fun s => s.growList i l) (some s)

/-- The coordinator holds a RESTORE_DONE; with the last one RESTORE_BEGIN completes (R463). -/
def State.gotDone (s : State) (m : CkMsg) : State :=
  let k := s.ck
  match k.cmd with
  | none => s
  | some (d, id) =>
    if m.r ≠ k.r ∨ k.st ≠ 5 then s
    else
      let answers := (k.answers.filter fun a => a.src != m.src) ++ [m]
      let s : State := { s with ck := { s.ck with answers := answers } }
      if (k.devs.all fun i => answers.any fun a => a.src == i) = false then s
      else
        let n := sumOf (·.restored) answers
        let u := sumOf (·.unrestored) answers
        let s := (s.endDrun d id (if u = 0 then stDone else stPartial) n 0).inc Dict.ckptRestoreCount
        let s := s.ckSendAll k.devs 0x16 { src := s.device, slot := k.slot, p := k.p, r := k.r }
        let s := s.notify 0x0803 (beBytes 8 k.p ++ beBytes 8 k.r ++ beBytes 4 n ++ beBytes 4 u)
        { s with ck := { s.ck with st := 0, cmd := none, started := false, ended := some (k.r, false) } }

/-- Items still to place are tried again, in order, and given up after `dtier.frame_grace` picks (R464); with none left the device sends
RESTORE_DONE (R463). -/
def State.placeAll (s : State) : State :=
  if s.ck.st ≠ 5 ∨ s.ck.started = false ∨ s.ck.doneSent then s
  else
    let s := s.each s.ck.todo fun it s =>
      let drop (s : State) : State := { s with ck := { s.ck with todo := s.ck.todo.filter fun x => decide (x ≠ it) } }
      match s.placeItem it with
      | some s => drop s
      | none =>
        let d := match it.item with
          | .session x => x.dom
          | _ => it.epoch
        if s.ck.todoAt + s.reg Dict.dtierFrameGrace 0 d ≤ s.pk.current then
          match it.item with
          | .session x => drop (s.unrestored x stNoFrames)
          | _ => drop s
        else s
    if s.ck.todo ≠ [] then s
    else
      let m : CkMsg := { src := s.device, slot := s.ck.slot, p := s.ck.p, r := s.ck.r, restored := s.ck.restored, unrestored := s.ck.unrestored }
      let s : State := { s with ck := { s.ck with doneSent := true, mine := m } }
      if s.ck.coord = s.device then s.gotDone m else s.ckSend s.ck.coord 0x19 m

/-- The items of a shard that this device places, with the domain in the place of the epoch for items that name none. -/
def State.itemsFor (s : State) (ts : List Nat) (mm : CkManifest) (sh : CkShard) : List RestItem :=
  (sh.items.filter fun i => decide (s.targetOf ts mm.dev i = s.device)).map fun i =>
    { src := mm.dev, item := i, epoch := match i with
      | .session _ => sh.epoch
      | _ => sh.dom }

/-- A grammar state is kept only when the target's grammar at that handle has the recorded digest (R461). -/
def State.keepState (s : State) (ms : List CkManifest) (it : RestItem) : RestItem :=
  match it.item with
  | .session x =>
    let recorded : Option Nat := ms.findSome? fun mm => if mm.dev = it.src then mm.shards.findSome? fun sh =>
      if sh.dom = x.dom then sh.items.findSome? fun i => match i with
        | .domain _ _ _ gs => (gs.find? fun g => g.1 == x.grammar).map (·.2)
        | _ => none
      else none else none
    let here : Option Nat := (s.grammar x.dom x.grammar).map (·.digest)
    if here.isSome ∧ here = recorded then it else { it with item := .session { x with gstate := gNone, ctx := { x.ctx with stack := [] } } }
  | _ => it

/-- Whether a shard is accepted (R459). -/
def shardAccepted (c : CkCommit) (mm : CkManifest) (sh : CkShard) : Bool :=
  decide (sh.minVersion ≤ 1) && decide (sh.p = c.p) && decide (sh.slot = c.slot) && decide (sh.warp = c.warp) && decide (sh.source = mm.dev) && decide (sh.dom = sh.entryDom) &&
  decide (sh.digest = sh.entryDigest) && sh.tagOk

/-- Whether a manifest is accepted (R459). -/
def manifestAccepted (c : CkCommit) (mm : CkManifest) : Bool :=
  decide (mm.minVersion ≤ 1) && mm.sigOk && decide (mm.p = c.p) && decide (mm.slot = c.slot) && decide (mm.warp = c.warp) &&
  c.members.any fun e => decide (e.dev = mm.dev) && decide (e.digest = mm.digest) && decide (e.identity = mm.keyDigest) && decide (e.identity = mm.identity)

/-- RESTORE_NOTICE (R458-R463): the device reads what the commit record names, keeps what it accepts for the filter's domains, and places it. -/
def execRestoreNotice (t : Nat) (link : Nat) (m : CkMsg) (commit : CkCommit) (ms : List CkManifest) (s : State) : Host.Outcome State Fault Refusal :=
  run (.restoreNotice t link m commit ms) t s fun s => s.ckArrive link m fun s =>
    if s.ck.ended = some (m.r, false) ∨ (s.ck.st ≠ 0 ∧ ¬ (s.ck.st = 5 ∧ s.ck.started = false ∧ s.ck.r = m.r)) then s
    else
      let ts := s.warpDevices
      let s : State := { s with ck := { s.ck with st := 5, slot := m.slot, p := m.p, coord := m.src, r := m.r, map := m.map, filter := m.filter, todo := [], todoAt := s.pk.current, restored := 0, unrestored := 0, started := true, doneSent := false } }
      let want (d : Nat) : Bool := decide (m.filter = 0xFFFF) || decide (m.filter = d)
      let shards := ms.flatMap fun mm => (mm.shards.filter fun sh => want sh.dom).map fun sh => (mm, sh)
      let good := shards.filter fun e => manifestAccepted commit e.1 && shardAccepted commit e.1 e.2
      let bad := shards.filter fun e => !(manifestAccepted commit e.1 && shardAccepted commit e.1 e.2)
      let rejects := ms.countP (fun mm => !manifestAccepted commit mm) + bad.countP fun e => manifestAccepted commit e.1
      let s := s.inc Dict.ckptShardRejectCount rejects
      let named := (good.map fun e => e.2.dom).eraseDups
      let doms := named.filter fun d => (good.filter fun e => e.2.dom == d).all fun e => s.domRestorable e.1 d e.2.epoch
      let lost := bad.flatMap fun e => s.itemsFor ts e.1 e.2
      let s := s.each lost fun it s => match it.item with
        | .session x => s.unrestored x stPageLost
        | _ => s
      let todo := (good.flatMap fun e => s.itemsFor ts e.1 e.2).map (s.keepState ms)
      State.placeAll { s with ck := { s.ck with doms := doms, todo := todo } }

/-- RESTORE_DONE (R463): after the restore it is answered with CKPT_COMMIT carrying R. -/
def execRestoreDone (t : Nat) (link : Nat) (m : CkMsg) (s : State) : Host.Outcome State Fault Refusal :=
  run (.restoreDone t link m) t s fun s => s.ckArrive link m fun s =>
    if s.ck.ended = some (m.r, false) then s.ckSend m.src 0x16 { src := s.device, slot := m.slot, p := m.p, r := m.r } else s.gotDone m

/-- CKPT_COMMIT (R448, R454): a checkpoint's commit, or with R the end of a restore. -/
def execCkptCommit (t : Nat) (link : Nat) (m : CkMsg) (s : State) : Host.Outcome State Fault Refusal :=
  run (.ckptCommit t link m) t s fun s => s.ckArrive link m fun s =>
    if m.r ≠ 0 then
      if s.ck.st = 5 ∧ s.ck.r = m.r then { s with ck := { s.ck with st := 0, started := false, ended := some (m.r, false) } } else s
    else if s.ck.st = 4 ∧ s.ck.p = m.p then s.takeCommit m.p m.slot else s

/-- CKPT_MESSAGE_RESEND (R454). -/
def execCkptMessageResend (t : Nat) (s : State) : Host.Outcome State Fault Refusal :=
  run (.ckptMessageResend t) t s fun s =>
    let k := s.ck
    let missing := k.devs.filter fun i => k.answers.all fun a => a.src != i
    let s := s.when k.cmd.isSome fun s =>
      if k.st = 5 then s.ckSendAll missing 0x18 { src := s.device, slot := k.slot, p := k.p, r := k.r, filter := k.filter, map := k.map }
      else s.ckSendAll missing 0x14 { src := s.device, slot := k.slot, p := k.p }
    if k.st = 4 ∧ k.coord ≠ s.device then s.ckSend k.coord 0x15 k.mine
    else if k.st = 5 ∧ k.doneSent ∧ k.coord ≠ s.device then s.ckSend k.coord 0x19 k.mine else s

/-- A device of the warp is LOST (R455 cause 5, R463). -/
def ckptPeerLost (dev : Nat) (s : State) : State :=
  match s.ck.cmd with
  | some (d, id) =>
    if s.ck.devs.contains dev then
      if s.ck.st = 5 then
        if s.ck.answers.any fun a => a.src == dev then s
        else
          let s := s.endDrun d id stAbort 0 0
          { s with ck := { s.ck with st := 0, cmd := none, started := false, ended := some (s.ck.r, false) } }
      else s.abortCkpt 5 dev
    else s
  | none => s

/-- `ckpt.flow` has entered ERROR (R455, cause 2): a checkpoint that is being written aborts. -/
def State.ckptFlowLost (s : State) (f : Nat) : State := if f = s.reg Dict.ckptFlow ∧ (s.flow f).st = 2 then s.abortCkpt 2 s.device else s

/-- A domain whose restore has begun starts no step from R's action point until its RESTORE_DONE has gone (R463). -/
def State.restoreHolds (s : State) (d : Nat) : Bool := decide (s.ck.st = 5) && s.ck.started && !s.ck.doneSent && decide (s.ck.r ≤ s.pk.current) && s.ck.doms.contains d

end Sys2Proof.Machine
end

