-- ==== Sys2Proof/Machine/Attend.lean ====
section
/-! DEFINITION. What the fabric does while a step runs (spec/07, R213-R216, R221-R224, R234; spec/08, R254-R256), event by event. -/

namespace Sys2Proof.Machine

open Sys2Proof

/-! ## Crossbar exchange (R234) -/

/-- Credits of 1 KiB that exchange traffic holds at each port. -/
def exchangeCredits : Nat := 256

/-- The bytes per second of channel c's port that exchange traffic gets while it has data waiting; memory traffic of the HUB class gets the rest of 1.6 TB/s. -/
def State.exchangeRate (s : State) (c : Nat) : Nat := 1600000000000 * s.reg Dict.fabricXbarExchangeShare 0 c / 16

/-- The bytes that an all-reduce of V bytes over k channels, a reduce-scatter and an all-gather, moves through each port in each direction. -/
def reduceBytes (k v : Nat) : Nat := 2 * ((k - 1) * v / Nat.max 1 k)

/-- An exchange pattern of a model runs on the channel. -/
def State.exchanging (s : State) (c m : Nat) : Bool :=
  s.fb.insts.any fun i => i.c == c && i.m == m && (s.model m).pats.any fun p => p.id == i.pat && p.exch

/-- n KiB leave a port under credit; without the credits the exchange waits, and is counted. -/
def State.exchange (s : State) (c m n : Nat) : State :=
  let used := Tbl.get 0 s.fb.xused c
  if s.exchanging c m = false then s
  else if exchangeCredits < used + n then s.ev 0x00B (some c)
  else State.ev { s with fb := { s.fb with xused := Tbl.put 0 s.fb.xused c (used + n) } } 0x00A (some c) n

/-! ## Attention instances (R254, R255) -/

/-- The pages of one layer that a session attends at a position: those attended of the layer, staging frames among them, ascending. -/
def State.layerPages (s : State) (m layer : Nat) (x : Triple) : List Nat :=
  let y := s.sess x.k
  let d0 := (s.model y.model).draftBase
  let mine (l : Nat) : Bool :=
    if y.model = m then decide (l < d0) && decide (l % Nat.max 1 (s.model m).total = layer)
    else decide (d0 ≤ l) && decide ((l - d0) % Nat.max 1 (s.model m).total = layer)
  (((s.attended x.k (x.pos + 1) x.hot).1.filter fun l => isKv l) ++ (y.stage.map (·.1)).filter fun l => isKv l && (y.page? l).isNone).filter mine

/-- An attention instance asks for its accumulators (R255): all of its triples', or it waits and is counted.  Its units' pages are divided into runs (R254). -/
def State.attend (s : State) (c g m layer : Nat) (half : Bool) (ts : List Triple) : State :=
  match s.fb.insts.find? fun i => i.c == c && i.m == m && i.groups.contains g with
  | none => s
  | some i =>
    let md := s.model m
    let per := Nat.max 1 (md.qHeads / Nat.max 1 md.kvHeads)
    let units := ((ts.map fun x => (x.k, x.head / per)).eraseDups).length
    let lanes := (s.laneTiles i).length
    let accs := ts.map fun x =>
      let pages := s.layerPages m layer x
      ({ acc := 0, k := x.k, layer := layer, head := x.head, pos := x.pos, runs := splitRuns (runCount pages.length lanes units) pages, tile := x.tile, half := half, dim := md.headDim, m := fNegInf, o := List.replicate md.headDim 0 } : Accum)
    match (s.reeds c).reserve accs with
    | none => (s.inc Dict.attnReedAccWaitCount 1 0 c).ev 0x0CD (some c)
    | some r => (s.setReeds c r).each (r.accs.filter fun a => decide (a.runs = [])) fun a s => s.finalise c a

/-! ## Every event -/

/-- A tile computes: it is not fenced, and its group takes part in the step. -/
def State.tileRuns (s : State) (c tile : Nat) : Bool := s.groupSched c (tile / 16) && !s.isFenced c tile

/-- The element codes of values converted to a format, and how many saturated (R222-R224). -/
def convertAll (code : Nat) (sat : Bool) (vs : List Nat) : List Nat × Nat :=
  if code ≤ 3 then
    let bs := (runsOf 32 vs).map (mxBlock code sat)
    (bs.flatMap (·.2.1), sumOf (·.2.2) bs)
  else
    let cs := vs.map fun v => convert code sat (f32 v)
    (cs.map (·.1), cs.countP (·.2))

/-- One event of the fabric. -/
def State.fabricEvent (s : State) : FabEv → State
  | .switch c g m pat vote =>
    let next := match vote with
      | none => pat
      | some (other, vs) => if vs.all (· == 1) then pat else other
    s.usePattern m next c g false
  | .dot c tile a b =>
    match matDot a b with
    | none => s
    | some v =>
      if s.tileRuns c tile = false then s
      else
        let s := s.putSram c tile [v]
        let s := s.when (decide (1024 ≤ a.elems.length)) fun s => s.ev 0x001 (some c) (a.elems.length / 1024)
        s.when (fisNan v) fun s => s.ev 0x019 (some c) 1 tile
  | .convert c tile m code vs =>
    match s.runningPat m c (tile / 16) with
    | none => s
    | some p =>
      if s.tileRuns c tile = false then s
      else
        let r := convertAll code p.sat vs
        (s.putSram c tile r.1).when (decide (0 < r.2)) fun s => s.ev 0x018 (some c) r.2 tile
  | .sramFixed c tile =>
    if s.tileRuns c tile then ((s.inc Dict.fabricSramCorrectedCount 1 0 c).ev 0x00C (some c) 1 tile).journal 0 c 0x00C 0xFFFF tile [] else s
  | .exchange c m n => s.exchange c m n
  | .exchanged c n => { s with fb := { s.fb with xused := Tbl.put 0 s.fb.xused c (Tbl.get 0 s.fb.xused c - n) } }
  | .attend c g m layer half ts => s.attend c g m layer half ts
  | .emit c tile acc run sv => if s.tileRuns c tile then s.emitRecord c tile acc run sv else s
  | .beat c tile input => s.sendBeat c tile input
  | .fold c reed input => s.foldBeat c reed input

/-- What the fabric did, in order, while the device was in a step. -/
def State.fabricRun (s : State) (fab : List FabEv) : State := if s.sv.run.isSome then s.each fab fun e s => s.fabricEvent e else s

/-- A step has ended: no instance runs (R219), the reeds are empty, the ports' credits are back, and the walkers hold no block run (R249). -/
def fabricRest (s : State) : State := { s with fb := { s.fb with insts := [], walk := [], xused := [], reeds := [] } }

end Sys2Proof.Machine
end

