-- ==== Sys2Proof/Machine/Define.lean ====
section
/-! DEFINITION. Vocabularies, grammars, stop sets and sampling profiles (spec/09, R280; spec/10, R293-R310), and the tokenising of inputs (R299-R302). -/

namespace Sys2Proof.Machine

open Sys2Proof

/-- A place in the near reserve of each channel for a copy of n bytes (R296, R511). -/
def State.reserveFits (s : State) (cs : List Nat) (n : Nat) : Bool :=
  cs.all fun c => decide (s.reserveUsed c + imageBytes n ≤ s.reservePool c)

/-- An image was loaded: one event per channel that holds a copy. -/
def State.imageLoaded (s : State) (cs : List Nat) (d : Nat) : State := s.each cs fun c s => s.ev 0x113 (some c) 1 0 (some d)

/-- A session other than FREE of the domain names a handle. -/
def State.named (s : State) (d h : Nat) (f : Sess → Nat) : Bool :=
  s.ss.tbl.any fun e => decide (e.2.st ≠ .free) && decide (e.2.dom = d) && decide (f e.2 = h)

/-- A handle in a command's count (R280, R305, R309): 1 to 1,023, the bits above zero. -/
def handleOk (q : Desc) : Bool := decide (1 ≤ q.count) && decide (q.count ≤ 1023) && descBare q

/-- VOCAB_LOAD's unload (R293, R296). -/
def State.vocabUnload (s : State) (d : Nat) (r : DRun) : State :=
  let slot := r.q.d.count
  match s.tx.vocabs.find? fun e => e.1 == slot with
  | none => s.endDrun d r.id stDone 0 0
  | some e =>
    let dg := e.2.v.digest
    let model := s.fb.models.any fun m => decide (m.2.st ≠ 0) && decide (m.2.dom = d) && decide (m.2.vocab = dg)
    let gram := (s.tx.grammars ++ s.tx.newG).any fun g => decide (g.1 / 1024 = d) && decide (g.2.1.vocab = dg)
    if e.2.dom ≠ d ∨ model = true ∨ gram = true then s.endDrun d r.id stBad 0 0
    else State.endDrun { s with tx := { s.tx with vocabs := s.tx.vocabs.filter (fun e => e.1 != slot), cache := s.tx.cache.map fun (e : Nat × List VocKey) => (e.1, e.2.filter fun k => k.slot != slot) } } d r.id stDone 0 0

/-- VOCAB_LOAD (R293-R296). -/
def State.vocabLoad (s : State) (d : Nat) (r : DRun) (b : Bytes) : State :=
  let slot := r.q.d.count
  if s.holdsKeys d = false then s.endDrun d r.id stDenied 0 0
  else if 16 ≤ slot ∨ descBare r.q.d = false then s.endDrun d r.id stBad 0 0
  else if r.q.d.dataLen = 0 then s.vocabUnload d r
  else
    let v := parseVocab b
    let cs := s.domChans d
    match s.tx.vocabs.find? fun e => e.1 == slot with
    | some e => s.endDrun d r.id (if e.2.dom = d ∧ e.2.v.digest = v.digest then stDone else stBad) 0 0
    | none =>
      if vocabOk b = false then s.endDrun d r.id stBad 0 0
      else if s.reserveFits cs b.length = false then s.endDrun d r.id stNoFrames 0 0
      else
        let s : State := { s with tx := { s.tx with vocabs := s.tx.vocabs ++ [(slot, { dom := d, v := v, chans := cs })] } }
        (s.imageLoaded cs d).endDrun d r.id stDone (if cs = [] then 0 else b.length) 0

/-- GRAMMAR_LOAD (R309, R310): a new handle takes effect at once, a replacement at the next action point. -/
def State.grammarLoad (s : State) (d : Nat) (r : DRun) (b : Bytes) : State :=
  let h := r.q.d.count
  let key := d * 1024 + h
  if s.holdsKeys d = false then s.endDrun d r.id stDenied 0 0
  else if handleOk r.q.d = false then s.endDrun d r.id stBad 0 0
  else if r.q.d.dataLen = 0 then
    if s.named d h (·.grammar) then s.endDrun d r.id stBad 0 0
    else State.endDrun { s with tx := { s.tx with grammars := s.tx.grammars.filter fun e => e.1 != key, newG := s.tx.newG.filter fun e => e.1 != key } } d r.id stDone 0 0
  else
    let g := parseGrammar b
    let cs := s.domChans d
    let busy := s.ss.tbl.any fun e => decide (e.2.st = .decode) && decide (e.2.dom = d) && decide (e.2.grammar = h)
    let old := s.tx.grammars.any fun e => e.1 == key
    match s.tx.vocabs.find? fun e => decide (e.2.dom = d) && decide (e.2.v.digest = g.vocab) with
    | none => s.endDrun d r.id stBad 0 0
    | some v =>
      if old = true ∧ busy = true ∨ grammarOk b v.2.v.entries.length = false then s.endDrun d r.id stBad 0 0
      else if s.reserveFits cs b.length = false then s.endDrun d r.id stNoFrames 0 0
      else
        let n := if cs = [] then 0 else b.length
        let s : State :=
          if old then { s with tx := { s.tx with newG := (s.tx.newG.filter fun e => e.1 != key) ++ [(key, g, cs)] } }
          else { s with tx := { s.tx with grammars := s.tx.grammars ++ [(key, g, cs)] } }
        (s.imageLoaded cs d).endDrun d r.id stDone n 0

/-- STOPSET_DEFINE (R305). -/
def State.stopDefine (s : State) (d : Nat) (r : DRun) (b : Bytes) : State :=
  let h := r.q.d.count
  let key := d * 1024 + h
  if handleOk r.q.d = false then s.endDrun d r.id stBad 0 0
  else if r.q.d.dataLen = 0 then
    if s.named d h (·.stop) then s.endDrun d r.id stBad 0 0
    else State.endDrun { s with tx := { s.tx with stops := s.tx.stops.filter fun e => e.1 != key, newS := s.tx.newS.filter fun e => e.1 != key } } d r.id stDone 0 0
  else match parseStopSet b with
    | none => s.endDrun d r.id stBad 0 0
    | some v =>
      let s : State :=
        if s.tx.stops.any fun e => e.1 == key then { s with tx := { s.tx with newS := (s.tx.newS.filter fun e => e.1 != key) ++ [(key, v)] } }
        else { s with tx := { s.tx with stops := s.tx.stops ++ [(key, v)] } }
      s.endDrun d r.id stDone 0 0

/-- SAMPLING_DEFINE (R280). -/
def State.profDefine (s : State) (d : Nat) (r : DRun) (b : Bytes) : State :=
  let h := r.q.d.count
  let key := d * 1024 + h
  if handleOk r.q.d = false then s.endDrun d r.id stBad 0 0
  else if r.q.d.dataLen = 0 then
    if s.named d h (·.sampling) then s.endDrun d r.id stBad 0 0
    else State.endDrun { s with tx := { s.tx with profs := s.tx.profs.filter fun e => e.1 != key, newP := s.tx.newP.filter fun e => e.1 != key } } d r.id stDone 0 0
  else match parseProfile b with
    | none => s.endDrun d r.id stBad 0 0
    | some v =>
      let s : State :=
        if s.tx.profs.any fun e => e.1 == key then { s with tx := { s.tx with newP := (s.tx.newP.filter fun e => e.1 != key) ++ [(key, v)] } }
        else { s with tx := { s.tx with profs := s.tx.profs ++ [(key, v)] } }
      s.endDrun d r.id stDone 0 0

/-- Replacements take effect at an action point (R280, R305, R309): sessions that name a replaced grammar get state none. -/
def newDefinitions (s : State) : State :=
  let t := s.tx
  let gs := t.newG.map (·.1)
  let hit := s.ss.tbl.filter fun e => decide (e.2.st ≠ .free) && gs.contains (e.2.dom * 1024 + e.2.grammar)
  let s : State := { s with tx := { t with grammars := (t.grammars.filter fun e => !gs.contains e.1) ++ t.newG, stops := (t.stops.filter fun e => !(t.newS.map (·.1)).contains e.1) ++ t.newS, profs := (t.profs.filter fun e => !(t.newP.map (·.1)).contains e.1) ++ t.newP, newG := [], newS := [], newP := [] } }
  s.each hit fun e s => s.resetGrammar e.1

/-! ## The commands -/

/-- VOCAB_LOAD (R293). -/
def execVocabLoad (t : Nat) (d : Nat) (img : Option Bytes) (s : State) : Host.Outcome State Fault Refusal :=
  run (.vocabLoad t d img) t s fun s => s.startDomIn d 0x42 img fun r b s => s.vocabLoad d r b

/-- GRAMMAR_LOAD (R309). -/
def execGrammarLoad (t : Nat) (d : Nat) (img : Option Bytes) (s : State) : Host.Outcome State Fault Refusal :=
  run (.grammarLoad t d img) t s fun s => s.startDomIn d 0x43 img fun r b s => s.grammarLoad d r b

/-- STOPSET_DEFINE (R305). -/
def execStopsetDefine (t : Nat) (d : Nat) (rec : Option Bytes) (s : State) : Host.Outcome State Fault Refusal :=
  run (.stopsetDefine t d rec) t s fun s => s.startDomIn d 0x44 rec fun r b s => s.stopDefine d r b

/-- SAMPLING_DEFINE (R280). -/
def execSamplingDefine (t : Nat) (d : Nat) (rec : Option Bytes) (s : State) : Host.Outcome State Fault Refusal :=
  run (.samplingDefine t d rec) t s fun s => s.startDomIn d 0x45 rec fun r b s => s.profDefine d r b

end Sys2Proof.Machine
end

