-- ==== Sys2Proof/Machine/Migrate.lean ====
section
/-! DEFINITION. Sessions leave the device (spec/01, R40; spec/05, R159; spec/06, R203; spec/14, R435, R436): the drain's choice for each, the migration
exchange on both sides, and the end of a whole-session move. -/

namespace Sys2Proof.Machine

open Sys2Proof

/-! ## The drain's choice (R40, R159) -/

/-- A page of a session as a message carries it. -/
def carried (l : Nat) (p : Page) : CkPage :=
  { lpn := l, tier := p.tier, count := p.count, ver := p.ver, touch := p.touch, kv := p.kv, cairn := p.cairn, poisoned := p.poisoned, absent := decide (p.tier = 3), hot := p.hot, epoch := p.epoch, nonce := p.nonce, writer := p.writer }

/-- A session's entry and text context as MIGRATE_COMMIT carries them. -/
def State.entryOf (s : State) (k : Nat) : CkSess :=
  let x := s.sess k
  { handle := s.handle k, st := x.st.code, prior := x.prior.code, dom := x.dom, prio := x.prio, meas := (s.model x.model).meas, length := x.length, ttl := x.ttl, since := x.since,
    sver := x.sver, grammar := x.grammar, stop := x.stop, sampling := x.sampling, gstate := x.gstate, charged := x.charged, slate := x.slate, generated := x.generated,
    kvLen := x.kvLen, draftLen := x.draftLen, policy := x.policy, tokens := x.tokens, ctx := x.ctx, pages := x.pages.map fun e => carried e.1 e.2 }

/-- The frames a session holds in a tier. -/
def Sess.inTier (x : Sess) (tier : Nat) : Nat := x.pages.countP fun e => e.2.tier == tier

/-- The PRESENT devices, others than this one, from an index up. -/
def State.peersFrom (s : State) (i : Nat) : List Nat := (List.range 64).filter fun d => decide (i ≤ d) && decide (d ≠ s.device) && s.present d

/-- Drains a session to far (R159): its record takes the next place of the export region, where it fits. -/
def State.drainFar (s : State) (k : Nat) : State :=
  let x := s.sess k
  let content := if x.st = .condensed then 0 else 1
  let off := Tbl.get 0 s.pw.drainNext x.dom
  let len := (1 + s.exportFrames k content x.policy) * frameBytes
  if s.reg Dict.dsessExportBytes 0 x.dom < off + len then { s with pw := { s.pw with drainBad := s.pw.drainBad ++ [k] } }
  else if s.flowReady (s.reg Dict.dsessExportFlow 0 x.dom) = false then s
  else
    let s : State := { s with pw := { s.pw with drainNext := Tbl.put 0 s.pw.drainNext x.dom (off + len), drainExp := s.pw.drainExp ++ [(k, off)] } }
    ((((s.touchEntry k).beginMoving k 3 x.policy).issueMoves k).exportBegin k).exportPump k

/-- Asks a peer to reserve for a session (R435, step 1). -/
def State.askPeer (s : State) (k peer : Nat) : State :=
  let x := s.sess k
  let id := s.dx.nextXfer
  let m : MigOut := { id := id, k := k, peer := peer, step := 1, since := s.now }
  let s := s.when (decide (x.st ≠ .moving)) fun s => (s.touchEntry k).beginMoving k 3 x.policy
  let s := s.setSess k { s.sess k with reserved := true }
  let s : State := { s with dx := { s.dx with out := s.dx.out ++ [m], nextXfer := id + 1 } }
  let sum : MigSum := { dom := x.dom, meas := (s.model x.model).meas, near := x.inTier 0, deep := x.inTier 1, far := x.inTier 2 }
  s.sendMsg { typ := 0x04, dst := peer, dom := some x.dom, mid := id, aux := sum.near + sum.deep + sum.far, body := .summary sum }

/-- Drains a session as `package.drain_target` sets, trying the peers from an index up (R40, R436).  At a sealed channel AUTO is FAR, and with PEER the session
stays (R136). -/
def State.drainTry (s : State) (k i : Nat) : State :=
  let target := s.reg Dict.packageDrainTarget
  let target := if target = 0 && s.sealed (chOf k) then 1 else if target = 2 && s.sealed (chOf k) then 3 else target
  match (if target = 1 ∨ target = 3 then [] else s.peersFrom i) with
  | p :: _ => s.askPeer k p
  | [] =>
    let s := s.when (decide ((s.sess k).st = .moving)) fun s => s.backToPrior k
    if 2 ≤ target then { s with pw := { s.pw with drainBad := s.pw.drainBad ++ [k] } } else s.drainFar k

/-- Step 2 or 3 of a drain is under way; a checkpoint on this device is waited for. -/
def State.draining (s : State) : Bool := decide (s.pw.pkg = .draining) && (decide (s.pw.drainStep = 2) || decide (s.pw.drainStep = 3)) && !s.sv.held

/-- A session at rest, or parked, that the drain has not taken up. -/
def State.drainable (s : State) (k : Nat) : Bool :=
  let x := s.sess k
  [SSt.admitted, .toolwait, .parkedDeep, .condensed, .parkedFar].contains x.st && !s.pw.drainBad.contains k && x.pages.all fun e => !e.2.moving

/-- The sessions not yet moved (R41). -/
def drainLeft (s : State) : Nat := s.ss.tbl.countP fun e => decide (e.2.st ≠ .free)

/-- Step 4 of a drain begins (R40): every flow in READY is completed with FLUSH. -/
def State.drainFlush (s : State) : State :=
  let s : State := { s with pw := { s.pw with drainStep := 4, flushAt := s.now } }
  s.each ((s.sl.flows.filter fun e => s.flowReady e.1).map (·.1)) fun f s => s.txFlush f .drainFlush

/-- The steps of R40 follow one another: when no step runs any more, the moves of step 3 begin; the drain takes up every session it can; when none is left, or
the rest is skipped (R41), step 4 begins. -/
def State.drainPump (s : State) : State :=
  let s := if s.draining && decide (s.pw.drainStep = 2) && s.sv.run.isNone then (if s.pw.drainSkip then s.drainFlush else { s with pw := { s.pw with drainStep := 3 } }) else s
  if s.draining && decide (s.pw.drainStep = 3) then
    let s := s.each (s.ss.tbl.map (·.1)) fun k s => if s.drainable k && !s.pinFull k then s.drainTry k 0 else s
    if drainLeft s = 0 then s.drainFlush else s
  else s

/-- A drained session's record is whole (R159): its slot becomes FREE. -/
def State.finishExport (s : State) (k off : Nat) : State :=
  let x := s.sess k
  let n := s.exportFrames k (if x.prior = .condensed then 0 else 1) x.policy
  let s : State := { s with pw := { s.pw with drainExp := s.pw.drainExp.filter fun e => e.1 != k } }
  let s := s.unsolicited k 0x07 stDone (off / frameBytes) ((1 + n) * frameBytes) 0
  (s.freeAll k).freeSlotOf k flStale

/-- A drained session's record could not be placed (R41): the session is home again, and not moved. -/
def State.exportFail (s : State) (k : Nat) : State :=
  State.backToPrior { s with pw := { s.pw with drainExp := s.pw.drainExp.filter (fun e => e.1 != k), drainBad := s.pw.drainBad ++ [k] } } k

/-- SESSION_MOVE_COMPLETE (R145): every page of a whole-session move has switched, or every frame of its record is placed.  Pages that other moves held when it
began are taken now, so that none stays behind (R196, R197, R200). -/
def execSessionMoveComplete (t : Nat) (k : Nat) (s : State) : Host.Outcome State Fault Refusal :=
  run (.sessionMoveComplete t k) t s fun s =>
    let x := s.sess k
    if x.st = .moving ∧ x.closePend = false ∧ x.reserved = true ∧ (s.tm.moves.any fun m => m.k == k) = false then
      let out := s.pw.drainExp.find? fun e => e.1 == k
      let s :=
        if x.target = 3 then
          if x.xst < 3 then s
          else match out with
            | some e => if x.xst = 4 then s.exportFail k else s.finishExport k e.2
            | none => s.finishMove k
        else if s.movePlan k = [] ∨ x.lost then s.finishMove k
        else State.issueMoves (s.setSess k { x with reserved := false }) k
      s.ckptAdvance.drainPump
    else s

/-! ## The source's side (R435, R436) -/

/-- Pages from a page number up, and the commit (R435, steps 3 and 4). -/
def State.sendPages (s : State) (m : MigOut) (lo : Nat) : State :=
  let x := s.sess m.k
  let s := s.each (x.pages.filter fun e => decide (lo ≤ e.1) && decide (e.2.tier ≠ 3)) fun e s =>
    let (w, s) := s.written x.dom (chOf m.k) 1 e.2
    (s.sendMsg { typ := 0x06, dst := m.peer, dom := some x.dom, mid := m.id, aux := e.1, body := .page { carried e.1 w with tier := e.2.tier } }).ev 0x044 (some (chOf m.k)) 1 (s.handle m.k) (some x.dom) (some (s.handle m.k))
  s.sendMsg { typ := 0x07, dst := m.peer, dom := some x.dom, mid := m.id, body := .entry (s.entryOf m.k) }

/-- A transfer is given up before its commit is acknowledged: the source stays home (R203). -/
def State.dropOut (s : State) (m : MigOut) : State :=
  let s : State := { s with dx := { s.dx with out := s.dx.out.filter fun y => y.id != m.id } }
  s.when (decide ((s.sess m.k).st = .moving)) fun s => s.backToPrior m.k

/-- MIGRATE_REPLY (R435, R436): the pages and the commit go, or another peer is asked. -/
def execMigrateReply (t : Nat) (e : DEnv) (s : State) : Host.Outcome State Fault Refusal :=
  run (.migrateReply t e) t s fun s => s.arrive e true fun s =>
    match s.dx.out.find? fun m => m.id == e.mid && m.peer == e.src && m.step == 1 with
    | none => s
    | some m =>
      if e.aux = 0 then
        let mark (y : MigOut) : MigOut := if y.id = m.id then { y with step := 3 } else y
        State.sendPages { s with dx := { s.dx with out := s.dx.out.map mark } } m 0
      else
        let s := s.dropOut m
        if s.draining then s.drainTry m.k (m.peer + 1) else s

/-- MIGRATE_COMMIT_ACK (R435, R203): the peer is home and the source frees its entry and frames; or pages are missing and go again. -/
def execMigrateCommitAck (t : Nat) (e : DEnv) (status : Nat) (s : State) : Host.Outcome State Fault Refusal :=
  run (.migrateCommitAck t e status) t s fun s => s.arrive e true fun s =>
    match s.dx.out.find? fun m => m.id == e.mid && m.peer == e.src && m.step == 3 with
    | none => s
    | some m =>
      if status = 0 then
        let s : State := { s with dx := { s.dx with out := s.dx.out.filter fun y => y.id != m.id } }
        ((s.freeAll m.k).freeSlotOf m.k flStale).drainPump
      else if status = 3 then s.sendPages m e.aux
      else s

/-! ## The peer's side (R435, R436) -/

/-- A transfer of a source. -/
def State.migIn (s : State) (src id : Nat) : Option MigIn := s.dx.inn.find? fun m => m.src == src && m.id == id

/-- Replaces a transfer. -/
def State.setMigIn (s : State) (m : MigIn) : State :=
  { s with dx := { s.dx with inn := (s.dx.inn.filter fun (y : MigIn) => !(y.src == m.src && y.id == m.id)) ++ [m] } }

/-- Reserves n frames of near (0), deep (1) or far (2) for a domain, in turn on the channels it may use: all of them, or none.  Which page takes which is settled when
it arrives (R179). -/
def State.reserveFor (s : State) (d tier n : Nat) : Option (List (Nat × Nat × Nat) × State) :=
  (List.range n).foldl (fun o i => o.bind fun a =>
    if tier < 2 then (rotate (i % Nat.max 1 (a.2.domChans d).length) (a.2.domChans d)).findSome? fun c => (a.2.takeFrame d c tier).map fun r => (a.1 ++ [(tier, c, r.1)], r.2)
    else ((a.2.farRegion d).filter fun g => a.2.flowReady (a.2.farPlace d g 0).1).bind fun g => (a.2.domChans d).findSome? fun c => (a.2.takeFar d g c).map fun r => (a.1 ++ [(2, g, r.1)], r.2)) (some ([], s))

/-- The READY model of a domain with a measurement: its slot. -/
def State.modelOf (s : State) (d meas : Nat) : Option Nat :=
  (List.range 16).find? fun i => decide ((s.model i).st = 2) && decide ((s.model i).dom = d) && decide ((s.model i).meas = meas)

/-- The READY model of a domain with a measurement, on a channel, and a free slot of the domain there (R435's status 2 where none). -/
def State.placeFor (s : State) (x : MigSum) : Option Nat :=
  (s.domChans x.dom).findSome? fun c =>
    if (s.fb.models.any fun m => decide (m.2.st = 2) && decide (m.2.dom = x.dom) && decide (m.2.meas = x.meas) && (decide (m.2.placement ≠ 0) || m.2.chans.contains c)) = true then
      s.slotFor x.dom c 262144
    else none

/-- Answers a reservation, and remembers it: a refused one keeps no slot. -/
def State.reserveFail (s : State) (e : DEnv) (x : MigSum) (status : Nat) : State :=
  s.setMigIn { src := e.src, id := e.mid, reply := status, sum := x, k := 1048576, frames := [], since := s.now }

/-- Sends the answer of a transfer. -/
def State.migReply (s : State) (e : DEnv) (status : Nat) : State := s.sendMsg { typ := 0x05, dst := e.src, dom := some e.dom, mid := e.mid, aux := status }

/-- MIGRATE_RESERVE (R435): frames in each tier, a slot and a model, or the reason there is none; a known transfer gets its first answer. -/
def execMigrateReserve (t : Nat) (e : DEnv) (x : MigSum) (s : State) : Host.Outcome State Fault Refusal :=
  run (.migrateReserve t e x) t s fun s => s.arrive e true fun s =>
    match s.migIn e.src e.mid with
    | some m => s.migReply e m.reply
    | none =>
      match s.placeFor x with
      | none => (s.reserveFail e x 2).migReply e 2
      | some k =>
        let got := (s.reserveFor x.dom 0 x.near).bind fun a => (a.2.reserveFor x.dom 1 x.deep).bind fun b => (b.2.reserveFor x.dom 2 x.far).map fun f => (a.1 ++ b.1 ++ f.1, f.2)
        match got with
        | none => (s.reserveFail e x 1).migReply e 1
        | some r => (r.2.setMigIn { src := e.src, id := e.mid, reply := 0, sum := x, k := k, frames := r.1, since := s.now }).migReply e 0

/-- A PAGE_DATA whose tag fails, or whose header names another page, counts as a tag failure (R424). -/
def State.pageBad (s : State) (e : DEnv) : State :=
  let detail := beBytes 2 e.dom ++ beBytes 8 0
  (((s.inc Dict.secTagFailCount).ev 0x244 none 1 0 (some e.dom)).journal 1 0xFF 0x244 e.dom 0 detail).notify 0x0506 detail

/-- The reserved frame that an arriving page takes: in its tier, on the first channel where it would be placed that has one (R179). -/
def State.frameFor (s : State) (m : MigIn) (p : CkPage) : Option (Nat × Nat × Nat) :=
  let fs := m.frames.filter fun f => f.1 == p.tier
  let home := match s.modelOf m.sum.dom m.sum.meas with
    | none => []
    | some i => s.placingOf m.k i m.sum.dom p.lpn
  match home.findSome? fun c => fs.find? fun f => f.2.1 == c with
  | some f => some f
  | none => fs.head?

/-- PAGE_DATA (R424, R436): a page lands in a reserved frame of its tier; one that is held with its version is discarded. -/
def execPageData (t : Nat) (e : DEnv) (p : CkPage) (s : State) : Host.Outcome State Fault Refusal :=
  run (.pageData t e p) t s fun s => s.arrive e false fun s =>
    match s.migIn e.src e.mid with
    | none => s
    | some m =>
      if m.reply ≠ 0 ∨ m.committed = true then s.ev 0x1CD none 1 e.link (some e.dom)
      else if p.ok = false ∨ p.lpn ≠ e.aux then s.pageBad e
      else match m.pages.find? fun y => y.1.lpn == p.lpn with
        | some y =>
          if y.1.ver = p.ver then s.ev 0x1CD none 1 e.link (some e.dom)
          else s.setMigIn { m with pages := m.pages.map fun z => if z.1.lpn = p.lpn then (p, z.2) else z }
        | none =>
          match s.frameFor m p with
          | none => s
          | some f => (s.setMigIn { m with frames := m.frames.erase f, pages := m.pages ++ [(p, f)] }).ev 0x045 (some (chOf m.k)) 1 0 (some e.dom)

/-- A reserved frame goes back. -/
def State.unreserve (s : State) (d : Nat) (f : Nat × Nat × Nat) : State :=
  if f.1 < 2 then s.freeFrame f.2.1 f.1 f.2.2 false else s.freeFar d f.2.1 f.2.2

/-- A page of an arrived session at home in its frame: a deep or far one as it came, encrypted by its source (R126, R435); a far one is written to its region. -/
def State.landPage (s : State) (k : Nat) (p : CkPage) (f : Nat × Nat × Nat) : State :=
  let stored := decide (f.1 ≠ 0)
  let q : Page :=
    { tier := f.1, poisoned := p.poisoned, hot := p.hot, inc := if f.1 < 2 then s.incOf f.2.1 else 0, ch := if f.1 < 2 then f.2.1 else 0, frame := f.2.2, region := if f.1 = 2 then f.2.1 else 0,
      ver := p.ver, epoch := if stored then p.epoch else 0, nonce := if stored then p.nonce else 0, writer := if stored then p.writer else 0, touch := s.pk.current, count := p.count, kv := p.kv, cairn := p.cairn }
  (s.setPage k p.lpn q).when (decide (f.1 = 2)) fun u =>
    let (fl, key, off) := s.farPlace (s.sess k).dom f.2.1 f.2.2
    u.txWrite fl key off (u.pageFrame k p.lpn q)

/-- An arrived session's entry, with its pages in the frames kept for them (R203). -/
def State.landMigration (s : State) (m : MigIn) (x : CkSess) (st : SSt) (model : Nat) : State :=
  let k := m.k
  let s := s.setSess k
    { st := st, gen := s.genOf k, head := (s.sess k).head, tail := (s.sess k).tail, ring := (s.sess k).ring, imm := (s.sess k).imm, dom := x.dom, prio := x.prio, model := model, length := x.length,
      ttl := x.ttl, sver := (x.sver + 1) % 2 ^ 32, grammar := x.grammar, stop := x.stop, sampling := x.sampling,
      gstate := x.gstate, since := x.since, slate := x.slate, charged := x.charged, generated := x.generated, tokens := x.tokens, ctx := x.ctx, kvLen := x.kvLen, draftLen := x.draftLen, policy := x.policy }
  let s := s.each (x.pages.filter (·.absent)) fun p s => s.setPage k p.lpn { tier := 3, poisoned := p.poisoned, count := p.count }
  let s := s.each m.pages fun p s => s.landPage k p.1 p.2
  let s := s.when (decide (st = .toolwait)) fun s => s.evS k 0x08B
  s.each m.frames fun f s => s.unreserve x.dom f

/-- Answers a commit. -/
def State.commitReply (s : State) (e : DEnv) (status aux : Nat) : State := s.sendMsg { typ := 0x08, dst := e.src, dom := some e.dom, mid := e.mid, aux := if status = 3 then aux else status }

/-- MIGRATE_COMMIT (R435): with every page there and the digest right, this device is home and writes the record of R159; otherwise it names the lowest page
absent.  A commit that comes again is answered as before. -/
def execMigrateCommit (t : Nat) (e : DEnv) (x : CkSess) (digestOk : Bool) (s : State) : Host.Outcome State Fault Refusal :=
  run (.migrateCommit t e x digestOk) t s fun s => s.arrive e true fun s =>
    match s.migIn e.src e.mid with
    | none => s
    | some m =>
      if m.reply ≠ 0 then s
      else if m.committed then s.commitReply e 0 0
      else
        let need := (x.pages.filter fun p => !p.absent).map (·.lpn)
        let lacks := if digestOk then need.filter fun l => !(m.pages.any fun y => y.1.lpn == l) else need
        match lacks with
        | l :: ls => s.commitReply e 3 (ls.foldl Nat.min l)
        | [] =>
          match restoredState x, s.modelOf x.dom x.meas with
          | some st, some model =>
            let s := (s.landMigration m x st model).setMigIn { m with committed := true, frames := [], pages := [] }
            ((s.evS m.k 0x090).unsolicited m.k 0x08 stDone (bits x.handle 47 22) (handleGen x.handle) flChanged).commitReply e 0 0
          | _, _ => s

/-- An arriving transfer is given up: what it reserved goes back (R436). -/
def State.dropIn (s : State) (m : MigIn) : State :=
  let s : State := { s with dx := { s.dx with inn := s.dx.inn.filter fun (y : MigIn) => !(y.src == m.src && y.id == m.id) } }
  if m.committed then s
  else s.each (m.frames ++ m.pages.map (·.2)) fun f s => s.unreserve m.sum.dom f

/-- MIGRATION_TIMEOUT (R436): a transfer not committed within `package.drain_timeout` is abandoned, on either side. -/
def execMigrationTimeout (t : Nat) (peer id : Nat) (s : State) : Host.Outcome State Fault Refusal :=
  run (.migrationTimeout t peer id) t s fun s =>
    let past (since : Nat) : Bool := decide (since + 1000000000 * s.reg Dict.packageDrainTimeout ≤ s.now)
    let s := match s.dx.out.find? fun m => m.id == id && m.peer == peer && past m.since with
      | some m =>
        let s := s.dropOut m
        if s.draining then s.drainTry m.k (m.peer + 1) else s
      | none => s
    match s.dx.inn.find? fun m => m.src == peer && m.id == id && !m.committed && past m.since with
    | some m => s.dropIn m
    | none => s

/-- A device has left the warp or is LOST (R481): before its commit a session stays where it was; transfers from it end. -/
def migrationsLose (dev : Nat) (s : State) : State :=
  let s := s.each (s.dx.out.filter fun m => m.peer == dev) fun m s => s.dropOut m
  (s.each (s.dx.inn.filter fun m => m.src == dev) fun m s => s.dropIn m).drainPump

end Sys2Proof.Machine
end

