-- ==== Sys2Proof/Machine/Serve.lean ====
section
/-! DEFINITION. The serving step (spec/09): its start and batch, the decode phase's commit, prefill chunks, and its end; masks (spec/10, R314, R315); text at commit
(R304-R308). -/

namespace Sys2Proof.Machine

open Sys2Proof

/-! ## Running commands end -/

/-- The running command of a session in PREFILL or DECODE ends with a status: held bytes go out, staging frames go back, and the session rests, or is
HALTED by GRAMMAR_DEADEND and PAGE_LOST (R145, R160, R304). -/
def State.stopRun (s : State) (k status : Nat) : State :=
  let s := s.flushHeld k
  let x := s.sess k
  let s := (s.releaseStage k).endRun k status x.doneSoFar x.outLen
  let s := s.when (decide (status = stDeadend)) fun s => (s.inc Dict.grammarDeadendCount 1 0 (chOf k)).evS k 0x110
  let s := s.when (decide (status = stBudget)) fun s => (s.inc Dict.dbudgetExhaustedCount 1 0 x.dom).evS k 0x256
  if status = stDeadend ∨ status = stPageLost then s.toState k .halted else s.toRest k

/-- The session has work in the running step. -/
def State.inStep (s : State) (k : Nat) : Bool :=
  match s.sv.run with
  | none => false
  | some v => (v.rows.any fun r => r.k == k) || v.chunks.any fun c => c.k == k

/-- The session is in PREFILL or DECODE. -/
def Sess.serving (x : Sess) : Bool := decide (x.st = .prefill) || decide (x.st = .decode)

/-- What a session in PREFILL or DECODE meets at a step boundary: a poisoned or stale page (R145, R194), a model that is not READY (R232), output that was refused (R379), PICK_LOST
(R61), a drain (R40), a late deadline (R156); the first that applies ends its command. -/
def State.boundary (s : State) (k : Nat) : State :=
  let x := s.sess k
  if x.serving = false ∨ x.run = none then s
  else if x.lost || (x.pages.any fun e => s.stale e.2) then s.stopRun k stPageLost
  else if (s.model x.model).st ≠ 2 then s.stopRun k stBad
  else if x.outFail then s.stopRun k stAbort
  else if s.pk.st = .lost then s.stopRun k stPickLost
  else if s.pw.pkg = .draining then s.stopRun k stPartial
  else if s.isLate x.deadline then s.stopRun k stDeadline
  else s

/-- The boundary of every session that has no work in the running step. -/
def State.boundaries (s : State) : State :=
  s.each ((s.ss.tbl.filter fun e => e.2.serving).map (·.1)) fun k s => if s.inStep k then s else s.boundary k

/-! ## Filling the batch (R271-R273, R277, R286, R288) -/

/-- k_eff before the budget (R277). -/
def State.keffWanted (s : State) (k : Nat) : Nat :=
  let x := s.sess k
  if (s.draftOf x.model).isNone ∨ x.draftStale ∨ x.draftLen < x.kvLen then 0
  else Nat.min (s.sreg Dict.mstepDraftTokens 0 x.model) (Nat.min (x.remaining - 1) (1048576 - x.length - 1))

/-- The pages that a step of k_eff proposals reaches (R247). -/
def State.stepPages (s : State) (k keff : Nat) : List Nat :=
  let x := s.sess k
  let m := s.model x.model
  let lo := x.length - 1
  m.kvPages lo (lo + keff + 1) ++
  (match s.draftOf x.model with
    | some d => if keff = 0 then [] else m.draftPages (s.model d) lo (lo + keff)
    | none => []) ++
  tokenPages x.length (x.length + keff + 1)

/-- R271, and R343's auxiliary engine domain, but for the budget: whether the session is ready, with its promotions set going and its staging frames reserved. -/
def State.decodeReady (s : State) (k : Nat) : Bool × State :=
  let s := s.dropDraft k
  let x := s.sess k
  if x.st ≠ .decode ∨ x.run = none ∨ s.auxOn (chOf k) = false ∨ s.stalled x.dom ∨ s.restoreHolds x.dom ∨ x.closePend ∨ x.length ≠ x.kvLen + 1 ∧ x.kvLen < x.length ∨
      s.canDecode k = false then (false, s)
  else
    let (ok, s) := s.promoteFirst k (s.stepPages k (s.keffWanted k))
    if !ok then (false, s)
    else match s.stageAll k (s.stepPages k (s.keffWanted k)) with
      | some s => (true, s.setSess k { s.sess k with waitFrom := none })
      | none => (false, s.allocWait k 0)

/-- Lists compared place by place. -/
def lexLt : List Nat → List Nat → Bool
  | a :: as, b :: bs => if a = b then lexLt as bs else decide (a < b)
  | [], _ :: _ => true
  | _, [] => false

/-- A deadline as an order key: none comes last. -/
def State.dueKey (s : State) (f : Nat) : List Nat := if f % 2 ^ 48 = 0 then [1, 0] else [0, s.pick48 f]

/-- R273: earliest deadline, higher priority, more picks since the last step, lower handle. -/
def State.rowKey (s : State) (k : Nat) : List Nat :=
  let x := s.sess k
  s.dueKey x.deadline ++ [7 - x.prio, x.lastStep, s.handle k]

/-- Adds a row to the running step's batch. -/
def State.addRow (s : State) (r : Row) : State :=
  match s.sv.run with
  | none => s
  | some v => { s with sv := { s.sv with run := some { v with rows := v.rows ++ [r] } } }

/-- A session waits for budget (R288): beyond its grace the generation ends. -/
def State.budgetWait (s : State) (k : Nat) : State :=
  let x := s.sess k
  let s := (s.setSess k { x with bwait := x.bwait + 1 }).inc Dict.dbudgetWaitCount 1 0 x.dom
  let s := s.evS k 0x255
  let s := s.when (!s.sv.waiters.contains x.dom) fun s =>
    State.notify { s with sv := { s.sv with waiters := s.sv.waiters ++ [x.dom] } } 0x2301 (beBytes 2 x.dom ++ beBytes 8 (ofSigned 64 (s.budget x.dom).bal))
  s.when (decide (s.sreg Dict.dbudgetGrace 0 x.dom < x.bwait + 1)) fun s => s.stopRun k stBudget

/-- R286: a session takes a row: whether it did. -/
def State.takeRow (s : State) (k : Nat) : Bool × State :=
  let x := s.sess k
  let lim := s.sreg Dict.dbudgetSessionLimit 0 x.dom
  if lim ≠ 0 ∧ lim ≤ x.charged then (false, (s.evS k 0x257).stopRun k stBudget)
  else
    let want := s.keffWanted k
    let keff := if lim = 0 then want else Nat.min want (lim - x.charged - 1)
    let bal := (s.budget x.dom).bal
    let go (e : Nat) (s : State) : State :=
      let s := s.reserveTokens x.dom (e + 1)
      (s.setSess k { s.sess k with bwait := 0, lastStep := s.pk.current, fresh := false }).addRow { k := k, keff := e, r := e + 1 }
    if (keff : Int) + 1 ≤ bal then (true, go keff s)
    else if 1 ≤ bal then (true, go (bal.toNat - 1) (s.evS k 0x254))
    else (false, s.budgetWait k)

/-- A row is free on every channel that the session's step uses (R252). -/
def State.rowFree (s : State) (k : Nat) : Bool :=
  match s.sv.run with
  | none => false
  | some v => (s.stepChans k).all fun c => decide ((v.rows.countP fun r => (s.stepChans r.k).contains c) < 2048)

/-- Up to n sessions of a domain take rows, in order: those not asked, how many did, and the state. -/
def State.fillRows : Nat → List Nat → State → List Nat × Nat × State
  | _, [], s => ([], 0, s)
  | n, k :: ks, s =>
    if n = 0 ∨ s.rowFree k = false then (k :: ks, 0, s)
    else
      let (ok, s) := s.takeRow k
      let r := State.fillRows (if ok then n - 1 else n) ks s
      (r.1, r.2.1 + b2n ok, r.2.2)

/-- The rows that remain are handed out one at a time (R272): domains with the sessions not yet asked, after the domain of the last hand-out. -/
def State.handOut : Nat → List (Nat × List Nat) → Nat → State → List (Nat × List Nat) × Nat × State
  | 0, ps, last, s => (ps, last, s)
  | n + 1, ps, last, s =>
    let order := (ps.filter fun p => decide (last ≤ p.1)) ++ ps.filter fun p => decide (p.1 < last)
    let r := order.foldl (fun (a : Option Nat × List (Nat × List Nat) × State) p =>
      if a.1.isSome then a
      else
        let f := State.fillRows 1 p.2 a.2.2
        (if f.2.1 = 1 then some p.1 else none, a.2.1.map fun q => if q.1 = p.1 then (p.1, f.1) else q, f.2.2)) (none, ps, s)
    match r.1 with
    | some d => State.handOut n r.2.1 (d + 1) r.2.2
    | none => (r.2.1, last, r.2.2)

/-- The rows of a channel are shared between domains (R272), and within one by R273; sessions left out are counted. -/
def State.fillChannel (s : State) (c : Nat) : State :=
  let live := (s.ss.tbl.filter fun e => decide (chOf e.1 = c) && decide (e.2.st = .decode)).map (·.1)
  let r := live.foldl (fun (a : List Nat × State) k => let q := a.2.decodeReady k; (if q.1 then a.1 ++ [k] else a.1, q.2)) ([], s)
  let (cands, s) := r
  let doms := sortBy (fun a b => decide (a < b)) ((cands.map fun k => (s.sess k).dom).eraseDups)
  let pools := doms.map fun d => (d, sortBy (fun a b => lexLt (s.rowKey a) (s.rowKey b)) (cands.filter fun k => decide ((s.sess k).dom = d)))
  let w (ks : List Nat) : Nat := sumOf (fun k => (s.sess k).prio + 1) ks
  let total := w cands
  let quota (p : Nat × List Nat) : Nat := if cands.length ≤ 2048 then p.2.length else Nat.min p.2.length (2048 * w p.2 / Nat.max 1 total)
  let f := pools.foldl (fun (a : List (Nat × List Nat) × Nat × State) p => let r := State.fillRows (quota p) p.2 a.2.2; (a.1 ++ [(p.1, r.1)], a.2.1 + r.2.1, r.2.2)) ([], 0, s)
  let h := State.handOut (2048 - f.2.1) f.1 (Tbl.get 0 f.2.2.sv.lastDom c) f.2.2
  let left := sumOf (fun p => p.2.length) h.1
  let s := h.2.2
  let s : State := { s with sv := { s.sv with lastDom := Tbl.put 0 s.sv.lastDom c h.2.1 } }
  s.when (decide (0 < left)) fun s => (s.inc Dict.stepLeftOutCount left 0 c).ev 0x25A (some c) left

/-! ## Chunks: who may run one (R277, R283, R202, R307) -/

/-- The kind of chunk a session has waiting, if any. -/
def State.chunkKind (s : State) (k : Nat) : Option Nat :=
  let x := s.sess k
  let trim := if x.kvLen + 1 < x.length then some 3 else none
  match x.st with
  | .reviving => if x.reserved && !x.closePend && x.recompute.isSome && !s.tm.moves.any (fun m => m.k == k) then some 1 else none
  | .prefill => match x.run with
    | some r => if r.tokenised ∧ r.toks ≠ [] then some 0 else none
    | none => none
  | .decode =>
    if trim.isSome then trim
    else if (s.draftOf x.model).isSome ∧ 0 < s.sreg Dict.mstepDraftTokens 0 x.model ∧ x.draftStale = false ∧ x.draftLen < x.kvLen then some 2 else none
  | .admitted => trim
  | .toolwait => trim
  | _ => none

/-- R283's order: recompute, draft prefill and TRIM count as deadline 0. -/
def State.chunkKey (s : State) (k : Nat) : List Nat :=
  let x := s.sess k
  s.dueKey (if s.chunkKind k = some 0 then x.deadline else 0) ++ [7 - x.prio, x.since, s.handle k]

/-- The session may start a chunk now but for the order and its frames: it joined the step where R267 asks for it, has no chunk running, its domain is not
held, it has eligible groups, and on the groups that the decode phase uses it waits for that phase, unless prefill owns some (R267, R269). -/
def State.chunkMay (s : State) (v : Serving) (k : Nat) : Bool :=
  let x := s.sess k
  match s.chunkKind k with
  | none => false
  | some kind =>
    (kind == 1 || kind == 3 && decide (x.st ≠ .decode) || v.joined.contains k) && !v.skip.contains k && !(v.chunks.any fun c => c.k == k) && !(v.rows.any fun r => r.k == k) &&
    !s.stalled x.dom && !s.restoreHolds x.dom && !s.sv.held && !x.closePend && s.canStep k && decide (s.pk.st ≠ .lost) &&
    let shared := v.rows.any fun r => (s.stepChans k).any fun c =>
      (s.stepChans r.k).contains c && (s.eligibleGroups x.model c).any fun g => s.groupEligible (s.sess r.k).model c g
    !shared || s.canPrefill k

/-- The prefill phase may start chunks on channel c until its cutoff (R270). -/
def State.beforeCutoff (s : State) (v : Serving) (c : Nat) : Bool :=
  let period := if s.pk.intervals.length < 4 then 4000000 else s.pk.intervals.foldl (· + ·) 0 / s.pk.intervals.length
  decide ((s.now - v.start) * 16 < s.sreg Dict.stepPrefillCutoff 0 c * period)

/-- The sessions that may start a chunk, in R283's order. -/
def State.chunkQueue (s : State) (v : Serving) : List Nat :=
  sortBy (fun a b => lexLt (s.chunkKey a) (s.chunkKey b)) ((s.ss.tbl.map (·.1)).filter fun k => s.chunkMay v k && s.beforeCutoff v (chOf k))

/-! ## The start of a step (R266, R269, R219) -/

/-- A step may start now: the package serves, a channel is ON, picks are not lost, and neither a checkpoint, a barrier's cut nor a running step holds it. -/
def State.stepMay (s : State) : Bool :=
  s.sv.run.isNone && !s.sv.held && decide (s.pk.st ≠ .lost) && decide (s.pk.st ≠ .unset) && ((List.range 4).any fun c => s.chOn c) &&
  match s.pk.barrier with
  | some b => !b.cut
  | none => true

/-- The serving step of the current pick starts. -/
def State.startStep (s : State) : State :=
  let s := (applyGroups s).boundaries
  let ons := (List.range 4).filter fun c => s.chOn c
  let serving := (s.ss.tbl.filter fun e => e.2.serving).map (·.1)
  let s := s.each ons fun c s =>
    s.when (s.ss.tbl.any fun e => (serving.contains e.1 || (s.chunkKind e.1).isSome) && (s.stepChans e.1).contains c && decide ((s.model e.2.model).st = 2) && !s.chanRuns e.2.model c) fun s => s.inc Dict.fabricNoGroupCount 1 0 c
  let qEmpty := (s.ss.tbl.all fun e => (s.chunkKind e.1).isNone)
  let v : Serving := { pick := s.pk.current, start := s.pk.actAt, rows := [], chunks := [], qEmpty := qEmpty, joined := serving, groups := (List.range 72).filter fun n => decide (n % 18 < 16) && s.isOn (.dom n), seals := (List.range 4).map fun c => (s.fn (.seal c)).st }
  let old := s.sv.waiters
  let s : State := { s with sv := { s.sv with run := some v, owed := false } }
  let s := s.ev 0x20D none (s.now - v.start)
  let s := s.each ons fun c s => ((s.inc Dict.stepCount 1 0 c).ev 0x259 (some c)).fillChannel c
  let still := old.filter fun d => s.ss.tbl.any fun e => decide (e.2.dom = d) && decide (0 < e.2.bwait)
  let now := (s.sv.waiters.filter fun d => !old.contains d) ++ still
  let rows := match s.sv.run with
    | some v => v.rows
    | none => []
  let s : State := { s with sv := { s.sv with waiters := now } }
  let s := s.each ons fun c s => s.setReg Dict.stepBatchRows (rows.countP fun r => (s.stepChans r.k).contains c) 0 c
  let split := (rows.map fun r => (s.sess r.k).model).eraseDups.filter fun m => decide ((s.model m).placement = 2)
  s.each split fun m s =>
    let mine := rows.filter fun r => (s.sess r.k).model == m
    s.sendAct m (s.pk.current % 2 ^ 48 * 65536 + m) (mine.map fun r => { handle := s.handle r.k, len := (s.sess r.k).length + r.keff })

/-- A barrier message's fields after the flags (R51): the root's alignment delay and index are its own at a root, and at a follower those of the last message
of the tree; no delay accumulates. -/
def State.barrierMsg (s : State) (p : Nat) : Bytes :=
  let follower := decide (s.reg Dict.pickSource = 2)
  let align := if follower then s.pk.rootAlign else s.reg Dict.pickAlignDelay
  let root := if follower then s.pk.rootIdx else s.device
  beBytes 4 align ++ beBytes 8 s.pk.current ++ [0, 0, 0] ++ [root] ++ beBytes 8 p

/-- Every operation issued before the cut has completed (R68): the step of the pick before, what was sent on every flow, and on Dernyx the forwarded COMMANDs,
activations, migrations and sub-requests. -/
def State.cutSettled (s : State) (b : Barrier) : Bool :=
  s.sv.run.isNone &&
  (b.marks.all fun e => !s.flowReady e.1 || (((s.flow e.1).unacked ++ (s.flow e.1).waiting).all fun p => decide (e.2 ≤ p.seq)) && (s.flow e.1).ops.all fun o => decide (o.what ≠ .drainFlush)) &&
  (s.dx.fwd.all fun f => decide (b.cutAt ≤ f.since)) && (s.dx.acts.all fun a => decide (b.cutAt ≤ a.since)) &&
  (s.dx.out.all fun m => decide (b.cutAt ≤ m.since)) && s.se.subs.all fun u => u.res.isSome || decide (b.cutAt ≤ u.since)

/-- Advances a pending barrier (R68): this device reports when its step and the operations it issued before the cut have completed; with every device's report
the barrier completes and lets the step start. -/
def State.advanceBarrier (s : State) : State :=
  match s.pk.barrier with
  | none => s
  | some b =>
    if b.cut && !b.sent && s.cutSettled b then
      let b := { b with sent := true, done := if b.done.contains s.device then b.done else b.done ++ [s.device] }
      let s : State := { s with pk := { s.pk with barrier := some b } }
      let s := s.each (s.warpDevices.filter fun d => decide (d ≠ s.device)) fun d s => s.routeCtl d (ctlBytes 4 0 (s.barrierMsg b.p))
      if s.warpDevices.all b.done.contains then
        State.notify (({ s with pk := { s.pk with barrier := none } }.setReg Dict.pickBarrierDone b.p).ev 0x20B) 0x0402 (beBytes 8 b.p)
      else s
    else if b.cut && b.sent && s.warpDevices.all b.done.contains then
      State.notify (({ s with pk := { s.pk with barrier := none } }.setReg Dict.pickBarrierDone b.p).ev 0x20B) 0x0402 (beBytes 8 b.p)
    else s

/-- The running step completes when its rows have committed, no chunk runs, and none may start (R270). -/
def State.finishStep (s : State) : State :=
  match s.sv.run with
  | none => s
  | some v =>
    if v.rows = [] ∧ v.chunks = [] ∧ s.chunkQueue v = [] then
      let s := applyGroups (fabricRest { s with sv := { s.sv with run := none } })
      match v.passedAt with
      | some a => s.ev 0x20E none (s.now - a)
      | none => s
    else s

/-- What follows from a step's end, a barrier's or a transfer's: far work that waited goes on (R188), sessions meet their boundary, the barrier advances, an owed step starts (R63), and a drain goes on (R40). -/
def settle (s : State) : State :=
  let s := s.farPump.finishStep.advanceBarrier
  let s := if s.sv.owed ∧ s.stepMay then s.startStep.finishStep else s
  let s := if s.draining ∧ s.sv.run.isNone then s.boundaries else s
  s.drainPump.fillLanes

/-- An action point's step (R266, R63): it starts, or is owed after an overrun or behind a barrier; one that a barrier already holds at the next action point is
an overrun (R69). -/
def stepDue (due : Nat) (s : State) : State :=
  let s := s.finishStep
  match s.sv.run with
  | some v =>
    let v := { v with passedAt := if v.passedAt.isSome then v.passedAt else some due }
    (({ s with sv := { s.sv with run := some v, owed := true } }).inc Dict.pickOverrunCount).ev 0x203
  | none =>
    if s.stepMay then s.startStep
    else
      let barred := match s.pk.barrier with
        | some b => b.cut
        | none => false
      let late := barred && s.sv.owed
      let s : State := { s with sv := { s.sv with owed := s.sv.owed || barred } }
      s.when late fun s => (s.inc Dict.pickOverrunCount).ev 0x203

/-! ## Text at commit (R304-R308) -/

/-- What the engines make of a step's emitted tokens: those that stay, the bytes to deliver, the tail, the grammar position, the ending status, and the
bytes that TRIM tokenises again. -/
structure Scan where
  kept : List Nat := []
  out : Bytes := []
  tail : Bytes
  pos : GPos
  status : Option Nat := none
  trim : Option Bytes := none
  deriving DecidableEq, Repr

/-- R308 over the emitted tokens in order; `left` is what the generation may still emit, `room` the bytes that still fit (R152). -/
def Scan.run (v : Vocab) (ss : Option StopSet) : List Nat → Nat → Nat → Scan → Scan
  | [], _, _, a => a
  | t :: ts, left, room, a =>
    let b := v.render t
    if v.eos.contains t then { a with kept := a.kept ++ [t], pos := a.pos.after t, status := some stEos }
    else
      match ss.bind fun x => (stopMatch x.strs a.tail b).map fun r => (r.1, x.keep) with
      | some (n, keep) =>
        if room < n then { a with status := some stLimit }
        else
        let stays := keep || decide (n = b.length)
        { a with kept := if stays then a.kept ++ [t] else a.kept, out := a.out ++ b.take n, pos := if stays then a.pos.after t else a.pos, status := some stStopString, trim := if stays then none else some (b.take n) }
      | none =>
        let p := a.pos.after t
        let tool := match p.g with
          | some g => g.accepts p.w
          | none => false
        let limit := decide (left ≤ 1)
        if room < b.length then { a with status := some stLimit }
        else
          let tail := a.tail ++ b
          let a := { a with kept := a.kept ++ [t], out := a.out ++ b, tail := tail.drop (tail.length - 63), pos := p }
          if tool then { a with status := some stTool }
          else if limit then { a with status := some stLimit }
          else Scan.run v ss ts (left - 1) (room - b.length) a

/-- R311: tokens appended under TRIM are fed to the grammar; one that is not permitted leaves none. -/
def feedTokens (p : GPos) (ts : List Nat) : GPos :=
  ts.foldl (fun p t => if p.w = gNone ∨ p.permit t = false then { p with w := gNone, stack := [] } else p.after t) p

/-- The text engine of a session's channel looks vocabulary entries up in its cache (R302). -/
def State.lookVocab (s : State) (k : Nat) (keys : List VocKey) : State :=
  let c := chOf k
  let r := keys.foldl cacheLook (Tbl.get [] s.tx.cache c, 0, 0)
  let s : State := { s with tx := { s.tx with cache := Tbl.put [] s.tx.cache c r.1 } }
  (((s.inc Dict.textCacheHitCount r.2.1 0 c).evS k 0x104 r.2.1).inc Dict.textCacheMissCount r.2.2 0 c).evS k 0x105 r.2.2

/-- Delivery (R304): rendered bytes go out but for the longest proper prefix of a UTF-8 sequence; bytes past the capacity do not. -/
def State.deliver (s : State) (k : Nat) (data : Bytes) : State :=
  let x := s.sess k
  match x.run with
  | none => s
  | some r =>
    let all := x.ctx.held ++ data
    let n := heldCount all
    let go := (all.take (all.length - n)).take (r.q.d.dataLen - x.ctx.delivered)
    let s := s.output r.q.dom r.q.d.dataRef r.q.d.dataLen x.ctx.delivered go (some (.sessIn k r.q.d.seq))
    let s := s.setSess k { x with ctx := { x.ctx with held := all.drop (all.length - n), delivered := x.ctx.delivered + go.length } }
    s.evS k 0x107 (n - x.ctx.held.length)

/-- The grammar state and stack after a commit; a change to none is counted (R311, R318). -/
def State.setGrammarPos (s : State) (k : Nat) (p : GPos) : State :=
  match p.g with
  | none => s
  | some _ =>
    if p.w = gNone then s.resetGrammar k
    else
      let x := s.sess k
      s.setSess k { x with gstate := p.w, ctx := { x.ctx with stack := p.stack } }

/-! ## The decode phase commits (R274-R282, R287) -/

/-- A row leaves the batch with its reservation resolved: e tokens charged. -/
def State.leaveRow (s : State) (r : Row) (e : Nat) : State :=
  let s := s.resolveTokens r.k r.r e
  match s.sv.run with
  | none => s
  | some v => { s with sv := { s.sv with run := some { v with rows := v.rows.filter fun y => y.k != r.k } } }

/-- The position at which a row's first token is sampled. -/
def State.gpos (s : State) (k : Nat) : GPos :=
  let x := s.sess k
  let eos := match s.vocabOf (s.model x.model) with
    | some v => v.2.v.eos
    | none => []
  { g := s.grammar x.dom x.grammar, eos := eos, w := x.gstate, stack := x.ctx.stack }

/-- Mask work along a row's proposals (R313): the longest mask in nanoseconds, and the context-dependent tokens tested. -/
def maskWork (entries : Nat) (p : GPos) : List Nat → Nat × Nat
  | ts =>
    match p.g with
    | none => (0, 0)
    | some g =>
      let one (p : GPos) : Nat × Nat := ((maskCycles g entries p.w * 5 + 5) / 6, (g.at p.w).cd.length)
      let r := ts.foldl (fun (a : GPos × Nat × Nat) t => let p := a.1.after t; if p.w = gNone then a else let o := one p; (p, Nat.max a.2.1 o.1, a.2.2 + o.2)) (p, one p)
      r.2

/-- The sampling rows of a batch row are counted (R341, R344): those of the draft's passes and those of the target's. -/
def State.sampled (s : State) (k : Nat) (props : List Nat) (p : GPos) (draft target : List (List Nat)) (prof : Profile) : State :=
  let x := s.sess k
  let m := s.model x.model
  let c := chOf k
  let slices := if m.placement = 0 then 1 else m.chans.length
  let depth := s.sreg Dict.selPartialDepth 0 c
  let a := sampleRows prof slices depth p x.tokens props draft
  let b := sampleRows prof slices depth p x.tokens props target
  let rows := a.1 + b.1
  let fewer := a.2.1 + b.2.1
  let cont := a.2.2 + b.2.2
  let s := ((s.inc Dict.selRowCount rows 0 c).evS k 0x140 rows).evS k 0x141 rows
  let s := (s.inc Dict.selFewerCount fewer 0 c).evS k 0x144 fewer
  (s.inc Dict.selContinuationCount cont 0 c).evS k 0x147 cont

/-- One row's stages 4 to 6 (R274): sampling, verification, text and commit. -/
def State.commitRow (s : State) (r : Row) (o : RowOut) : State :=
  let k := r.k
  let x := s.sess k
  let m := s.model x.model
  let c := chOf k
  let v : Vocab := ((s.vocabOf m).map (·.2.v)).getD { len := 0, digest := 0, entries := [], merges := [], form := 0, base := 0, eos := [], classes := [], index := [], blocks := [], decs := [], pairs := [] }
  let p := s.gpos k
  let s := s.readPages k (x.length + r.keff) o.hot
  let s := (s.reread c o.rereads (s.handle k) x.dom).each o.lost fun l s => s.readLost c k l
  if (s.sess k).lost then (s.leaveRow r 0).stopRun k stPageLost
  else if o.late ∧ p.g.isSome then
    let s := ((s.leaveRow r 0).inc Dict.grammarMaskLateCount 1 0 c).evS k 0x10E
    let y := s.sess k
    (s.setSess k { y with late := true, masks := y.masks.filter (· == 1) }).evS k 0x264
  else if p.alive = false then (s.leaveRow r 0).stopRun k stDeadend
  else
    let prof := (s.profile x.dom x.sampling).getD greedy
    let env : DrawEnv := { prof := prof, handle := s.handle k, next := s.sc.draws }
    let (props, env) := propose env p x.tokens x.length (o.draft.take r.keff)
    let (vd, env) := verify env p x.tokens x.length props o.target
    let s : State := { s with sc := { s.sc with draws := env.next } }
    let e := vd.emitted.length
    let s := s.sampled k (props.map (·.1)) p (o.draft.take props.length) o.target prof
    let nf := vd.nonfin + sumOf nanCount (o.draft.take props.length) + draftLastResorts prof p x.tokens props o.draft
    let s := s.when (decide (0 < nf)) fun s => (s.inc Dict.stepNonfiniteCount nf 0 c).evS k 0x263 nf
    let s := (s.inc Dict.stepSpecProposed props.length 0 c).inc Dict.stepSpecAccepted vd.accepted 0 c
    let s := ((s.evS k 0x25B props.length).evS k 0x25C vd.accepted).evS k 0x25D (b2n (decide (vd.last = 1)))
    let s := s.evS k 0x25E (b2n (decide (vd.last = 2)))
    let s := s.when (p.g.isSome && decide (o.draft.length < r.keff) && !(props.any fun y => p.ends y.1)) fun s => s.evS k 0x10F
    let mw := maskWork v.entries.length p (props.map (·.1))
    let s := (s.maxReg Dict.grammarMaskTimeMax mw.1 0 c).evS k 0x10D mw.2
    -- the first e input positions commit (R279)
    let lo := x.length - 1
    let kd := props.length
    let e' := if x.length = 0 then e - 1 else e
    let s := s.putTarget k lo ((List.range e').map fun i => o.kv.getD i [])
    let s := s.when (decide (0 < kd)) fun s => s.putDraft k lo ((List.range (Nat.min e' kd)).map fun i => o.dkv.getD i [])
    let s := (s.evS k 0x0C6 (r.keff + 1)).evS k 0x0C7 e
    let s := s.evS k 0x0C8 (r.keff + 1 - e)
    let y := s.sess k
    let s := s.setSess k { y with kvLen := Nat.max y.kvLen (lo + e'), draftLen := if kd = 0 then y.draftLen else Nat.max y.draftLen (lo + Nat.min e' kd), masks := [], late := false }
    -- text (R304-R308)
    let room := ((x.run.map fun q => q.q.d.dataLen).getD 0) - x.ctx.delivered - x.ctx.held.length
    let vs := ((s.vocabOf m).map (·.1)).getD 0
    let special := decide (s.sreg Dict.mtextSpecialMatch 0 x.model = 1)
    let sc := Scan.run v (s.stopSet x.dom x.stop) vd.emitted (Nat.min x.remaining (1048576 - x.length)) room { tail := x.ctx.tail, pos := p }
    let kept := x.length + sc.kept.length
    let app := (sc.trim.map fun b => (tokenise v special b).map (·.1)).getD []
    let seen := (vd.emitted.take (sc.kept.length + b2n sc.trim.isSome)).map (VocKey.token vs)
    let s := s.lookVocab k (seen ++ (sc.trim.map fun b => tokeniseKeys v vs special b).getD [])
    let badIn := (sc.trim.map fun b => badBytes v special b).getD 0
    let s := (s.inc Dict.textInvalidUtf8Count badIn 0 c).evS k 0x103 badIn
    let cut := if app = [] then Nat.max x.kvLen (kept - 1) else kept
    let n := kept + app.length
    let s := s.putTokens k x.length n
    let y := s.sess k
    let s := s.setSess k { y with tokens := x.tokens ++ sc.kept ++ app, length := n, remaining := x.remaining - e, progress := x.progress + sc.kept.length, sver := if e = 0 then x.sver else (x.sver + 1) % 2 ^ 32, ctx := { y.ctx with tail := sc.tail } }
    let s := s.when (decide (kept < x.length + e)) fun s => (s.cutKv k n cut cut).2
    let s := s.setGrammarPos k (if app = [] then sc.pos else feedTokens sc.pos app)
    let s := s.evS k 0x106 sc.kept.length
    let s := s.when (decide (sc.status = some stStopString)) fun s => (s.inc Dict.textStopMatchCount 1 0 c).evS k 0x108
    let s := s.when (decide (app ≠ [])) fun s => ((s.inc Dict.textTrimCount 1 0 c).evS k 0x109).evS k 0x10A app.length
    let s := s.when (decide (sc.status = some stTool)) fun s => s.evS k 0x111
    let s := (s.deliver k sc.out).leaveRow r e
    match sc.status with
    | some st => s.stopRun k st
    | none => if vd.dead then s.stopRun k stDeadend else s

/-- DECODE_PHASE_COMMIT (R279): the rows that the fabric delivers commit, in batch order; a row that met a tile error is released (R212). -/
def execDecodePhaseCommit (t : Nat) (out : PhaseOut) (s : State) : Host.Outcome State Fault Refusal :=
  run (.decodePhaseCommit t out) t s fun s =>
    let s := s.fabricRun out.fab
    match s.sv.run with
    | none => s
    | some v =>
      let s := s.each v.rows fun r s => s.when (decide (16 ≤ s.lanesHeld (chOf r.k))) fun s => s.evS r.k 0x14A
      let s := s.each v.rows fun r s =>
        match out.rows.find? fun o => o.k == r.k with
        | none => s
        | some o => (if r.retake || decide ((s.sess r.k).st ≠ .decode) then s.leaveRow r 0 else s.commitRow r o).boundary r.k
      settle s

/-- MASK_COMPLETE (R314, R315): a row's mask is ready; an empty one at position 1 is a dead end, at which the row leaves the step. -/
def execMaskComplete (t : Nat) (k pos : Nat) (s : State) : Host.Outcome State Fault Refusal :=
  run (.maskComplete t k pos) t s fun s =>
    match s.sv.run.bind fun v => v.rows.find? fun r => r.k == k with
    | none => s
    | some r =>
      let x := s.sess k
      let p := s.gpos k
      if p.g = none ∨ pos = 0 ∨ r.keff + 1 < pos ∨ x.masks.contains pos then s
      else
        let s := ((s.setSess k { x with masks := x.masks ++ [pos] }).inc Dict.grammarMaskCount 1 0 (chOf k)).evS k 0x10B
        if pos = 1 ∧ p.alive = false then settle ((s.leaveRow r 0).stopRun k stDeadend) else s

/-! ## Prefill chunks (R267, R270, R283, R247, R202) -/

/-- The first position of a session's next chunk, its tokens, and the pages it reaches. -/
def State.chunkPlan (s : State) (k kind : Nat) : Nat × Nat × List Nat :=
  let x := s.sess k
  let m := s.model x.model
  let sz := s.sreg Dict.stepChunkTokens 0 (chOf k)
  if kind = 0 then
    let n := Nat.min sz ((x.run.map fun r => r.toks.length).getD 0)
    (x.kvLen, n, m.kvPages x.kvLen (x.length + n) ++ tokenPages x.length (x.length + n))
  else if kind = 1 then
    let p := x.recompute.getD 0
    (p, Nat.min sz (x.recompTo - p), [])
  else if kind = 2 then
    let n := Nat.min sz (x.kvLen - x.draftLen)
    (x.draftLen, n, match s.draftOf x.model with
      | some d => m.draftPages (s.model d) x.draftLen (x.draftLen + n)
      | none => [])
  else
    let n := Nat.min sz (x.length - 1 - x.kvLen)
    (x.kvLen, n, m.kvPages x.kvLen (x.kvLen + n))

/-- PREFILL_CHUNK_START (R270, R283): the first session in the order starts its chunk once its promotions are complete and its staging frames are reserved. -/
def execPrefillChunkStart (t : Nat) (k : Nat) (s : State) : Host.Outcome State Fault Refusal :=
  run (.prefillChunkStart t k) t s fun s =>
    match s.sv.run with
    | none => s
    | some v =>
      if s.chunkMay v k = true ∧ s.beforeCutoff v (chOf k) = false then settle (s.evS k 0x262)
      else
        let first := (s.chunkQueue v).find? fun j => decide (chOf j = chOf k)
        match s.chunkKind k with
        | none => s
        | some kind =>
          if first ≠ some k then s
          else
            let (ok, s) := if kind = 1 then (true, s) else s.promoteFirst k (s.chunkPlan k kind).2.2
            let later (s : State) : State := settle { s with sv := { s.sv with run := some { v with skip := v.skip ++ [k] } } }
            if !ok then later s
            else
              let (pos, n, ls) := s.chunkPlan k kind
              match s.stageAll k ls with
              | none => later (s.allocWait k 0)
              | some s =>
                let s := s.setSess k { s.sess k with waitFrom := none, lastStep := s.pk.current, fresh := false }
                { s with sv := { s.sv with run := some { v with chunks := v.chunks ++ [{ k := k, pos := pos, n := n, kind := kind }] } } }

/-- A chunk's results commit (R283, R202, R277, R307); `kv` holds what its pass wrote, per position and layer. -/
def State.commitChunk (s : State) (ch : Chunk) (kv : List (List (List Nat))) : State :=
  let k := ch.k
  let x := s.sess k
  let c := chOf k
  let up (s : State) : State := let x := s.sess k; s.setSess k { x with sver := (x.sver + 1) % 2 ^ 32 }
  let s := s.inc Dict.stepChunkCount 1 0 c
  if ch.kind = 0 then
    match x.run with
    | none => s
    | some r =>
      let ts := r.toks.take ch.n
      let hi := x.length + ts.length
      let s := (s.putTarget k ch.pos ((List.range (hi - ch.pos)).map fun i => kv.getD i [])).putTokens k x.length hi
      let y := s.sess k
      let r := { r with toks := r.toks.drop ch.n, appended := r.appended + ts.length, consumed := r.consumed + sumOf (·.2) ts }
      let s := s.setSess k { y with tokens := x.tokens ++ ts.map (·.1), length := hi, kvLen := hi, progress := r.appended, run := some r }
      let s := ((up s).evS k 0x25F).evS k 0x0C7 ts.length
      if r.toks = [] then s.stopRun k stDone else s
  else if ch.kind = 1 then
    let s := s.fillAll k ch.pos ((List.range ch.n).map fun i => kv.getD i [])
    let p := ch.pos + ch.n
    let y := s.sess k
    let s := s.setSess k { y with recompute := if y.recompTo ≤ p then none else some p }
    (((up s).inc Dict.dtierRecomputeTokens ch.n 0 x.dom).evS k 0x04F ch.n).evS k 0x260
  else if ch.kind = 2 then
    let s := s.putDraft k ch.pos ((List.range ch.n).map fun i => kv.getD i [])
    let s := s.setSess k { s.sess k with draftLen := ch.pos + ch.n }
    (up s).evS k 0x261
  else
    let s := s.putTarget k ch.pos ((List.range ch.n).map fun i => kv.getD i [])
    let s := s.setSess k { s.sess k with kvLen := ch.pos + ch.n }
    (up s).evS k 0x25F

/-- PREFILL_CHUNK_COMMIT (R283): the session's running chunk ends; one that met a tile error is discarded (R212), one whose reads failed ends its
command with PAGE_LOST (R145). -/
def execPrefillChunkCommit (t : Nat) (k : Nat) (kv : List (List (List Nat))) (reads : Reads) (s : State) : Host.Outcome State Fault Refusal :=
  run (.prefillChunkCommit t k kv reads) t s fun s =>
    let s := s.fabricRun reads.fab
    match s.sv.run.bind fun v => (v.chunks.find? fun c => c.k == k).map fun c => (v, c) with
    | none => s
    | some (v, ch) =>
      let s : State := { s with sv := { s.sv with run := some { v with chunks := v.chunks.filter fun c => c.k != k } } }
      let s := (s.reread (chOf k) reads.rereads (s.handle k) (s.sess k).dom).each reads.lost fun l s => s.readLost (chOf k) k l
      let x := s.sess k
      let s :=
        if ch.bad ∨ x.lost then s.releaseStage k
        else
          let s := s.setSess k { x with pages := x.pages.map fun e => if isKv e.1 then (e.1, { e.2 with touch := s.pk.current }) else e }
          let ls := (x.pages.filter fun e => isKv e.1).map (·.1)
          let s := (s.walkRuns k ls).stepSlots k ls
          let s := s.each ((x.pages.filter fun e => isKv e.1 && e.2.tier == 1).map (·.1)) fun l s => s.promote k l
          s.commitChunk ch kv
      let s := s.when (decide ((s.sess k).serving = false)) fun s => s.releaseStage k
      settle (s.boundary k)

/-! ## Deadlines, grace counts and tokenising -/

/-- TOKENISING_COMPLETE (R299-R302): the input of the running OPEN or APPEND becomes tokens; ones that do not fit the context end the command. -/
def execTokenisingComplete (t : Nat) (k : Nat) (s : State) : Host.Outcome State Fault Refusal :=
  run (.tokenisingComplete t k) t s fun s =>
    let x := s.sess k
    match x.run, s.vocabOf (s.model x.model) with
    | some r, some (slot, vs) =>
      if x.st ≠ .prefill ∨ r.tokenised then s
      else
        let special := decide (s.sreg Dict.mtextSpecialMatch 0 x.model = 1)
        let ts := tokenise vs.v special r.q.input
        let n := r.q.input.length
        let bad := badBytes vs.v special r.q.input
        let c := chOf k
        let s := ((s.inc Dict.textBytesTokenised n 0 c).evS k 0x100 (n / 1024)).inc Dict.textTokensProduced ts.length 0 c
        let s := ((s.evS k 0x101 ts.length).inc Dict.textInvalidUtf8Count bad 0 c).evS k 0x103 bad
        let s := (s.evS k 0x102 (specialCount vs.v special r.q.input)).lookVocab k (tokeniseKeys vs.v slot special r.q.input)
        if 1048576 < x.length + ts.length then s.stopRun k stLimit
        else if ts = [] then (s.setSess k { x with run := some { r with tokenised := true, consumed := n } }).stopRun k stDone
        else s.setSess k { x with run := some { r with toks := ts, tokenised := true } }
    | _, _ => s

/-- BUDGET_GRACE_EXPIRE (R288): the wait for budget has lasted longer than `dbudget.grace`. -/
def execBudgetGraceExpire (t : Nat) (k : Nat) (s : State) : Host.Outcome State Fault Refusal :=
  run (.budgetGraceExpire t k) t s fun s =>
    let x := s.sess k
    if x.st = .decode ∧ s.sreg Dict.dbudgetGrace 0 x.dom < x.bwait ∧ s.inStep k = false then s.stopRun k stBudget else s

/-- ALLOC_GRACE_EXPIRE (R189): an allocation has waited `dtier.frame_grace` picks; the APPEND or GENERATE, the move or the revival fails with NO_FRAMES. -/
def State.allocGrace (s : State) (k : Nat) : State :=
  let x := s.sess k
  match x.waitFrom with
  | none => s
  | some p =>
    if p + s.reg Dict.dtierFrameGrace 0 x.dom ≤ s.pk.current ∧ p < s.pk.current ∧ s.inStep k = false then
      let s := s.notify 0x1202 (beBytes 2 x.dom ++ [if x.st = .moving then (if x.target = 2 then 2 else 1) else 0])
      if x.serving then s.stopRun k stNoFrames
      else if x.st = .moving ∨ x.st = .reviving then s.failSession k stNoFrames
      else s
    else s

/-- ALLOC_GRACE_EXPIRE (R189). -/
def execAllocGraceExpire (t : Nat) (k : Nat) (s : State) : Host.Outcome State Fault Refusal :=
  run (.allocGraceExpire t k) t s fun s => s.allocGrace k

end Sys2Proof.Machine
end

