-- ==== Sys2Proof/Machine/Due.lean ====
section
/-! DEFINITION. What falls due at an action point (spec/09, R266; spec/02, R64): refills, deadlines, park picks and times to live (spec/06, R196-R201), new keys
and definitions, waits that try again, and the checkpoint cut; and the timers' own commands. -/

namespace Sys2Proof.Machine

open Sys2Proof

/-! ## Park picks and times to live (R196-R201, R189, R162) -/

/-- A session is at rest with no step work, and nothing holds its timers: in PICK_LOST they do not advance (R61). -/
def State.timerFree (s : State) (k : Nat) : Bool :=
  let x := s.sess k
  decide (s.pk.st ≠ .lost) && decide (x.ttl ≠ 0) && decide (x.ttl ≤ s.pk.current) && x.run.isNone && !s.inStep k && !s.sv.held && !x.closePend

/-- The park pick is reached (R196): the session begins its move to deep, or stays in place where deep cannot reserve it (R189). -/
def State.parkDue (s : State) (k : Nat) : State :=
  let x := s.sess k
  if s.timerFree k && (decide (x.st = .admitted) || decide (x.st = .toolwait)) then
    if s.pinFull k then s.pinWait k
    else
      let s' := ((s.touchEntry k).beginMoving k 0 0).issueMoves k
      if (s'.sess k).reserved || decide ((s'.sess k).st ≠ .moving) then s'
      else
        let cs := s.placing k 0
        ((s.inc Dict.tierAllocWaitCount 1 0 (cs.headD (chOf k))).evS k 0x04B).starve x.dom 1 cs
  else s

/-- The time to live in PARKED_DEEP expires (R197): the session condenses by its domain's policy. -/
def State.deepDue (s : State) (k : Nat) : State :=
  let x := s.sess k
  if s.timerFree k && decide (x.st = .parkedDeep) then
    if s.pinFull k then s.pinWait k else ((s.touchEntry k).beginMoving k 1 (s.reg Dict.dtierSlatePolicy 0 x.dom)).issueMoves k
  else s

/-- The time to live of a slate expires (R199): it moves to far, or is deleted. -/
def State.slateDue (s : State) (k : Nat) : State :=
  let x := s.sess k
  if s.timerFree k && decide (x.st = .condensed) then
    if s.pinFull k then s.pinWait k
    else if s.reg Dict.dtierSlateExpiry 0 x.dom = 0 then ((s.touchEntry k).beginMoving k 2 x.policy).issueMoves k
    else ((s.touchEntry k).unsolicited k 0x0A stDone x.pageCount 0 0).toState k .closing
  else s

/-- The time to live in PARKED_FAR expires (R201): one record, and the timer is off. -/
def State.farDue (s : State) (k : Nat) : State :=
  let x := s.sess k
  if s.timerFree k && decide (x.st = .parkedFar) then (s.setSess k { x with ttl := 0 }).unsolicited k 0x09 stDone x.length 0 0 else s

/-- A session's timer, by its state. -/
def State.timerDue (s : State) (k : Nat) : State := (((s.parkDue k).when (decide ((s.sess k).st = .parkedDeep)) fun s => s.deepDue k).when (decide ((s.sess k).st = .condensed)) fun s => s.slateDue k).when (decide ((s.sess k).st = .parkedFar)) fun s => s.farDue k

/-! ## Deadlines (R156, R266) -/

/-- Descriptors of a session ring, or of a control ring, that are late: they end with DEADLINE_MISSED and do nothing. -/
def State.lateInRing (s : State) (k : Nat) : State :=
  let x := s.sess k
  let hit := x.ring.filter fun q => s.isLate q.d.deadline
  let s := s.setSess k { x with ring := x.ring.filter fun q => !s.isLate q.d.deadline, head := (x.head + hit.length) % 65536, revivePend := x.revivePend && !(match x.ring with | q :: _ => s.isLate q.d.deadline | [] => false) }
  s.each hit fun q s => s.endDesc q stDeadline 0 0 0

/-- Late descriptors that wait in a control ring. -/
def State.lateInDring (s : State) (d : Nat) : State :=
  let g := s.dring d
  let hit := g.waiting.filter fun q => s.isLate q.d.deadline
  (s.setDring d { g with waiting := g.waiting.filter fun q => !s.isLate q.d.deadline }).each hit fun q s => s.endDom q stDeadline 0 0

/-- A running command whose deadline has passed and whose session has no work in the running step ends (R266, item 2). -/
def State.lateRun (s : State) (k : Nat) : State :=
  let x := s.sess k
  if x.serving && x.run.isSome && s.isLate x.deadline && !s.inStep k then (s.stopRun k stDeadline).evS k 0x265 else s

/-! ## The due items -/

/-- Waiting allocations, loads, selections, inserts and restores try again (R189, R231, R334, R349, R464). -/
def State.retryWaits (s : State) : State :=
  let s := s.each (s.ss.tbl.map (·.1)) fun k s =>
    let x := s.sess k
    let s := s.when (x.waitFrom.isSome && !s.sv.held) fun s => s.allocGrace k
    if s.sv.held then s
    else if x.st = .moving then s.issueMoves k
    else if x.st = .reviving then s.issueRevival k else s
  let s := s.each s.ss.rings fun e s => s.each e.2.running fun r s =>
    if r.q.d.opcode = 0x40 ∧ r.stage = 0 then s.tryLoad e.1 r
    else if r.q.d.opcode = 0x50 then s.trySelect e.1 r.id
    else if r.q.d.opcode = 0x48 then (match parseColl r.q.input with
      | some c => s.tryCreate e.1 r c
      | none => s)
    else if r.q.d.opcode = 0x49 then s.tryInsert e.1 r.id
    else s
  s.farPump.placeAll

/-- A window opened in an earlier pick is revoked at an action point (R400). -/
def State.windowDue (s : State) (i : Nat) : State :=
  let w := s.win i
  if w.isOpen && decide (w.pick < s.pk.current) then s.revoke i else s

/-- Domains with records waiting count one stall per pick (R157). -/
def State.countStalls (s : State) : State :=
  s.each (s.ss.cq.filter fun e => decide (e.2.held ≠ [])) fun e s => s.inc Dict.dsessCqStallCount 1 0 e.1

/-- Sessions that a drain would take up but for the pin limit wait for the next pick (R162). -/
def State.drainPins (s : State) : State :=
  if s.draining && decide (s.pw.drainStep = 3) then s.each (s.ss.tbl.map (·.1)) fun k s => if s.drainable k && s.pinFull k then s.pinWait k else s else s

/-- The items of R266, for the action point that moves the current pick from `prev` to `num`. -/
def dueItems (prev num : Nat) (s : State) : State :=
  let s : State := { s with sv := { s.sv with sched := [] } }
  let s := s.refill (num - prev)
  let ks := s.ss.tbl.map (·.1)
  let s := s.each ks fun k s => (s.lateRun k).lateInRing k
  let s := s.each (s.ss.rings.map (·.1)) fun d s => s.lateInDring d
  let s := s.each ks fun k s => s.timerDue k
  let s := newDefinitions (newEpochs s)
  let s := s.each (s.sl.wins.map (·.1)) fun i s => s.windowDue i
  let s := s.retryWaits.countStalls.drainPins
  ckptAction num s.pk.actAt s

/-- Entry to PICK_LOST (R61): commands of sessions without step work end now, the others when their step does; VEC_INSERTs that wait end. -/
def pickLostSessions (s : State) : State :=
  let s := s.boundaries
  s.each s.ss.rings fun e s => s.each e.2.running fun r s => if r.q.d.opcode = 0x49 then s.tryInsert e.1 r.id else if r.q.d.opcode = 0x50 ∧ r.stage = 1 then s.trySelect e.1 r.id else s

/-! ## The timers' commands -/

/-- PARK_PICK_REACHED (R196). -/
def execParkPickReached (t : Nat) (k : Nat) (s : State) : Host.Outcome State Fault Refusal := run (.parkPickReached t k) t s fun s => s.parkDue k

/-- DEEP_TTL_EXPIRE (R197). -/
def execDeepTtlExpire (t : Nat) (k : Nat) (s : State) : Host.Outcome State Fault Refusal := run (.deepTtlExpire t k) t s fun s => s.deepDue k

/-- SLATE_TTL_EXPIRE (R199). -/
def execSlateTtlExpire (t : Nat) (k : Nat) (s : State) : Host.Outcome State Fault Refusal := run (.slateTtlExpire t k) t s fun s => s.slateDue k

/-- FAR_TTL_EXPIRE (R201). -/
def execFarTtlExpire (t : Nat) (k : Nat) (s : State) : Host.Outcome State Fault Refusal := run (.farTtlExpire t k) t s fun s => s.farDue k

/-- DEADLINE_EXPIRE (R156): late descriptors of a ring end, and a late running command without step work. -/
def execDeadlineExpire (t : Nat) (r : RingId) (s : State) : Host.Outcome State Fault Refusal :=
  run (.deadlineExpire t r) t s fun s => match r with
    | .sess k => (s.lateRun k).lateInRing k
    | .dom d => s.lateInDring d

end Sys2Proof.Machine
end

