-- ==== Sys2Proof/Machine/Picks.lean ====
section
/-! DEFINITION. Picks (spec/02): arrival and numbering, the action point, holdover and PICK_LOST, and pick barriers. -/

namespace Sys2Proof.Machine

open Sys2Proof

/-- The pick logic takes picks from the entry to BOOT until ISOLATED (R508). -/
def State.picksTaken (s : State) : Bool :=
  match s.pw.pkg with
  | .boot => true
  | .managed => true
  | .serving => true
  | .draining => true
  | .removeReady => true
  | _ => false

/-- The last number taken: that of the newest pick whose action point is to come, else the current one (R53, R54). -/
def Pick.lastNum (p : Pick) : Nat := (p.pend.getLast?.map (·.num)).getD p.current

/-- T: the mean of the learned intervals, known from 4 on (R59). -/
def Pick.period (p : Pick) : Nat := if p.intervals.length = 0 then 0 else p.intervals.foldl (· + ·) 0 / p.intervals.length

/-- At least 4 intervals have been learned (R59). -/
def Pick.learned (p : Pick) : Bool := decide (4 ≤ p.intervals.length)

/-- A pick is coalesced when it arrives within `pick.min_separation` of the action point of the last one that was not (R58). -/
def State.coalesces (s : State) (arrival : Nat) : Bool :=
  let from' := match (s.pk.pend.filter (!·.coal)).getLast? with
    | some p => some p.due
    | none => s.pk.sepFrom
  match from' with
  | none => false
  | some a => decide (arrival < a + 1000 * s.reg Dict.pickMinSeparation)

/-- A pick message's payload (R51). -/
def pickBytes (m : PickMsg) (typ : Nat) : Bytes :=
  ctlBytes typ m.flags (beBytes 4 m.align ++ beBytes 8 m.pick ++ beBytes 2 m.accum ++ [m.hops, m.root] ++ beBytes 8 m.barrier)

/-- A device is a root when it takes its picks from its contacts or from hosts (R48). -/
def State.isRoot (s : State) : Bool := decide (s.reg Dict.pickSource = 1) || decide (s.reg Dict.pickSource = 3)

/-- A PICK or LOST flit to every tree child whose link is ON, one hop (R51, R423). -/
def State.toTree (s : State) (typ : Nat) (m : PickMsg) : State :=
  s.each ((List.range 48).filter fun n => bit (s.reg Dict.warpTreeChildren) n && s.linkOn n) fun n s => s.sendCtl n (s.link n).peerDev (pickBytes m typ)

/-- The flit a root writes for one of its picks (R51): no delay has accumulated at its edge. -/
def State.rootFlit (s : State) (n : Nat) (hold coal late : Bool) : PickMsg :=
  { version := 1, minVersion := 1, flags := b2n hold + 2 * b2n coal + 4 * b2n late, align := s.reg Dict.pickAlignDelay, pick := n, accum := 0, hops := 0, root := s.device, barrier := 0 }

/-- A pick enters the pending list: late when less than 100 ns remain to its action point (R56). -/
def State.queuePick (s : State) (n due : Nat) (hold coal src : Bool) : State :=
  let late := decide (due < s.now + 100)
  let p : PendPick := { num := n, due := Nat.max due (s.now + 100), hold := hold, coal := coal, late := late, src := src }
  let s := { s with pk := { s.pk with pend := s.pk.pend ++ [p] } }
  let s := s.when late fun s => (s.inc Dict.pickLateCount).ev 0x20A
  s.when coal fun s => (s.inc Dict.pickCoalesceCount).ev 0x201

/-- What R53 makes of a numbered message. -/
inductive Numbering where
  | normal | jump | tooFar | duplicate
  deriving DecidableEq, Repr

/-- R53's rows for a message numbered n. -/
def Pick.numbering (p : Pick) (n : Nat) : Numbering :=
  if n ≤ p.lastNum then .duplicate
  else if n = p.lastNum + 1 then .normal
  else if n ≤ p.lastNum + 2 ^ 40 then .jump
  else .tooFar

/-- A message counted in `pick.reject_count` (R48, R50, R53). -/
def State.rejectPick (s : State) : State := (s.inc Dict.pickRejectCount).ev 0x208

/-- A valid source pick ends holdover (R60). -/
def State.sourceSeen (s : State) : State := { s with pk := { s.pk with holdNext := none } }

/-- A duplicate: absorbed in HOLDOVER, where it ends holdover and the moment its action point would have had takes the place of the last
action point; otherwise counted (R53, R60). -/
def State.duplicatePick (s : State) (due : Nat) : State :=
  if s.pk.st = .holdover then { s with pk := { s.pk with st := .synced, holdNext := none, lastAct := some due } }
  else s.rejectPick

/-- A numbered message from the selected source, with the action point R56 gives it and its flags (R53, R56, R58). -/
def State.messagePick (s : State) (n due : Nat) (hold coal : Bool) : State :=
  match s.pk.numbering n with
  | .duplicate => s.duplicatePick due
  | .tooFar => s.rejectPick
  | k =>
    let s := s.when (decide (k = .jump)) fun s => (s.inc Dict.pickGapCount).ev 0x209
    s.sourceSeen.queuePick n due hold coal true

/-- PICK_CONTACT_EDGE (R49): `width` is how long the input stays high, `low` how long it had been low before. -/
def execPickContactEdge (t width low : Nat) (s : State) : Host.Outcome State Fault Refusal :=
  run (.pickContactEdge t width low) t s fun s =>
    if !s.picksTaken then s
    else if width < 20 then (s.inc Dict.pickGlitchCount).ev 0x204
    else if s.pk.stuck && low < 1000 then s
    else
      let edge := s.now
      let s := { s with pk := { s.pk with stuck := false, edgeAt := some edge, edgeHigh := width } }
      if s.reg Dict.pickSource ≠ 1 then s.inc Dict.pickRejectCount
      else
        let n := Nat.max (s.pk.lastNum + 1) (s.reg Dict.pickNextNumber)
        let coal := s.coalesces edge
        let s := s.sourceSeen.queuePick n (edge + s.reg Dict.pickAlignDelay) false coal true
        s.toTree 1 (s.rootFlit n false coal false)

/-- HOST_PICK_MESSAGE (R50). -/
def execHostPickMessage (t port : Nat) (m : HostPick) (s : State) : Host.Outcome State Fault Refusal :=
  run (.hostPickMessage t port m) t s fun s =>
    if !(s.picksTaken && s.isOn (.port port) && s.vidOk port m.vid) then s
    else
      let msg := [m.version, m.minVersion, m.typ, m.flags] ++ beBytes 4 m.resv ++ beBytes 8 m.pick
      let tagOk := decide (s.reg Dict.pickMsgAuth = 0) || decide (Config.gmac (s.reg Dict.pickMsgKey) m.pick msg = m.tag)
      if s.reg Dict.pickSource = 3 ∧ m.minVersion ≤ 1 ∧ m.typ = 1 ∧ m.flags = 0 ∧ m.resv = 0 ∧ tagOk then
        let coal := s.coalesces s.now
        let fresh := s.pk.numbering m.pick = .normal ∨ s.pk.numbering m.pick = .jump
        let s := s.messagePick m.pick (s.now + s.reg Dict.pickAlignDelay) false coal
        s.when (decide fresh) fun s => s.toTree 1 (s.rootFlit m.pick false coal false)
      else s.rejectPick

/-- What a follower writes into a tree message it forwards (R51): its arrival delay, one hop more, and the flags of R56 and R58. -/
def forwardedPick (m : PickMsg) (a : Nat) (late : Bool) : PickMsg :=
  { m with flags := b2n (bit m.flags 0) + 2 * b2n (bit m.flags 1) + 4 * b2n late, accum := a % 2 ^ 16, hops := (m.hops + 1) % 256 }

/-- What a follower keeps of a tree message with arrival delay a (R51, R70). -/
def State.sawTree (s : State) (m : PickMsg) (a : Nat) : State := { s with pk := { s.pk with hopDelay := a, rootIdx := m.root, rootAlign := m.align } }

/-- PICK (R51): a follower takes the flit of its tree parent. -/
def execPick (t link : Nat) (m : PickMsg) (s : State) : Host.Outcome State Fault Refusal :=
  run (.pick t link m) t s fun s =>
    if !s.picksTaken then s
    else s.ctlArrive link (s.link link).peerDev fun s => if s.reg Dict.pickSource = 2 ∧ s.reg Dict.warpTreeParent = link ∧ m.minVersion ≤ 1 then
      let a := m.accum + (s.link link).delay
      let s := s.sawTree m a
      let coal := bit m.flags 1 || s.coalesces s.now
      let fresh := s.pk.numbering m.pick = .normal ∨ s.pk.numbering m.pick = .jump
      let due := s.now + m.align - a
      let late := decide (due < s.now + 100) || bit m.flags 2
      let s := s.messagePick m.pick due (bit m.flags 0) coal
      s.when (decide fresh) fun s => s.toTree 1 (forwardedPick m a late)
    else s.rejectPick

/-! ## The action point -/

/-- A counter at the action point of pick p (R494-R496, R498): its count starts, ends, or its window ends. -/
def monAtAction (p : Nat) (f : FnId) (s : State) : State :=
  let m := s.mon f
  let mode := beField 24 (s.monCfg f) 2 1
  let win := beField 24 (s.monCfg f) 8 4
  let snap (flags : Nat) := some (m.value, p, m.wraps, flags + 8 * b2n s.pk.hold)
  match (s.fn f).st with
  | .starting => s.when (!m.counting) fun s => s.setMon f { m with value := 0, wraps := 0, counting := true, winStart := p, lostIn := false }
  | .stopping =>
    s.when m.counting fun s =>
      s.setMon f { m with counting := false, due := if mode = 0 then none else snap (1 + 4 * b2n m.lostIn) }
  | .on =>
    let merged := 2 * b2n (decide (m.winStart + 2 * win ≤ p))
    s.when (decide (mode ≠ 0) && (m.lostIn || decide (m.winStart + win ≤ p))) fun s =>
      s.setMon f { m with value := if mode = 1 then 0 else m.value, wraps := if mode = 1 then 0 else m.wraps, winStart := p, lostIn := false, due := snap (1 + merged + 4 * b2n m.lostIn) }
  | .off => s

/-- Trace capture at an action point that passes the picks above `prev` up to p (R499, R502). -/
def traceAtAction (prev p : Nat) (s : State) : State :=
  match (s.fn .trace).st with
  | .starting => { s with mn := { s.mn with trace := { s.mn.trace with counting := true, due := true } } }
  | .stopping => { s with mn := { s.mn with trace := { s.mn.trace with counting := false, due := true } } }
  | .on =>
    let stop := s.reg Dict.traceStopPick
    s.when (decide (prev < stop) && decide (stop ≤ p)) fun s => { s with mn := { s.mn with trace := { s.mn.trace with counting := false, due := true } } }
  | .off => s

/-- The learned intervals after a pick acted upon at `due` (R59).  DESIGN CHOICE (log 157): an interval runs from action point to action point, the mean is
rounded down, and the interval across a change of `pick.source` enters it. -/
def Pick.learn (p : Pick) (q : PendPick) : Pick :=
  if q.coal then p
  else if q.hold || !q.src then { p with lastSrc := none }
  else
    match p.lastSrc with
    | none => { p with lastSrc := some q.due }
    | some a =>
      let i := q.due - a
      let ok := decide (200000 ≤ i) && decide (i ≤ 1000000000)
      { p with lastSrc := some q.due, intervals := if ok then (i :: p.intervals).take 16 else p.intervals }

/-- The pick state after a pick acted upon (R60): a follower mirrors a holdover flag. -/
def PendPick.state (q : PendPick) : PState := if q.hold then .holdover else .synced

/-- Entry to PICK_LOST (R61).  Whether LOST goes down the tree is the caller's (R60). -/
def enterLost (s : State) : State :=
  let s := { s with pk := { s.pk with st := .lost, holdNext := none, lastSrc := none } }
  let s := (s.inc Dict.pickLostCount).ev 0x207
  let s := s.notify 0x0401 (beBytes 8 s.pk.current)
  let s := s.each counters fun f s =>
    s.when (s.isOn f.1) fun s => s.setMon f.1 { s.mon f.1 with lostIn := true }
  pickLostSessions s

/-- The holdover count has ended (R60): PICK_LOST, and a root sends LOST down the tree. -/
def holdoverEnds (s : State) : State :=
  enterLost (s.when s.isRoot fun s => s.toTree 2 (s.rootFlit s.pk.current false false false))

/-- Entry to HOLDOVER with the next holdover pick due at a moment (R60). -/
def enterHoldover (next : Nat) (s : State) : State :=
  let s := s.ev 0x206
  if s.reg Dict.pickHoldoverMax = 0 then holdoverEnds s
  else { s with pk := { s.pk with st := .holdover, holdRem := s.reg Dict.pickHoldoverMax, holdNext := some next, lastSrc := none } }

/-- What a stuck input leads to in SYNCED (R60): its holdover picks keep the alignment of its edge. -/
def stuckTransition (s : State) : State :=
  if s.pk.st = .synced then
    if s.pk.learned then enterHoldover ((s.pk.edgeAt.getD s.now) + s.pk.period + s.reg Dict.pickAlignDelay) s else enterLost s
  else s

/-- A flow on which something has been issued that is not known to be placed (R68, R392). -/
def Flow.unsettled (x : Flow) : Bool := x.unplaced || decide (x.unacked ≠ []) || decide (x.waiting ≠ []) || decide (x.ops ≠ [])

/-- The barrier's cut (R68): at the action point of its pick the device starts no step, and a FLUSH follows what it has issued on every flow. -/
def barrierCut (num due : Nat) (s : State) : State :=
  match s.pk.barrier with
  | none => s
  | some b =>
    if b.p ≤ num && !b.cut then
      let fs := (s.sl.flows.filter fun e => s.flowReady e.1 && e.2.unsettled).map (·.1)
      let s := s.each fs fun f s => s.txFlush f .drainFlush
      let b := { b with cut := true, cutAt := due, marks := fs.map fun f => (f, (s.flow f).tx) }
      { s with pk := { s.pk with barrier := some b } }
    else s

/-- A pick acted upon (R55, R56, R58, R60, R63, R64): the number and the floor, counters, due items, then the step, an overrun, or none. -/
def actOn (q : PendPick) (s : State) : State :=
  let prev := s.pk.current
  let pk := s.pk.learn q
  let mirror := q.hold && decide (s.pk.st ≠ .holdover)
  let s : State := { s with pk := { pk with current := q.num, hold := q.hold, seq := 0, lastAct := some q.due, actAt := q.due, st := q.state, sepFrom := if q.coal then pk.sepFrom else some q.due } }
  let s := s.when (decide (s.nv.floor ≤ q.num)) fun s => ({ s with nv := { s.nv with floor := q.num + 65536 } }).store
  let s := s.each counters fun f s => monAtAction q.num f.1 s
  let s := traceAtAction prev q.num s
  let s := ((s.ev 0x200).when mirror fun s => s.ev 0x206).when q.hold fun s => s.inc Dict.pickHoldoverCount
  let s := s.when (decide (s.reg Dict.ptpEnable = 1)) fun s =>
    { s with et := { s.et with ptpPick := q.num, ptpTime := ((q.due : Int) + s.et.ptpDelta).toNat } }
  let s := dueItems prev q.num s
  let s := barrierCut q.num q.due s
  let s := s.when (!q.coal) fun s => stepDue q.due s
  let s := settle s
  if s.pk.stuckPend then stuckTransition { s with pk := { s.pk with stuckPend := false } } else s

/-- PICK_ACTION_POINT (R56, R266): the first pending pick's action point has come. -/
def execPickActionPoint (t : Nat) (s : State) : Host.Outcome State Fault Refusal :=
  run (.pickActionPoint t) t s fun s =>
    match s.pk.pend with
    | [] => s
    | q :: rest =>
      if q.due ≤ s.now && s.picksTaken then actOn q { s with pk := { s.pk with pend := rest } } else s

/-- PICK_STUCK_INPUT (R49, R60): the high of the last qualified edge is still there 10 us after it. -/
def execPickStuckInput (t : Nat) (s : State) : Host.Outcome State Fault Refusal :=
  run (.pickStuckInput t) t s fun s =>
    match s.pk.edgeAt with
    | none => s
    | some e =>
      if s.picksTaken && !s.pk.stuck && 10000 ≤ s.pk.edgeHigh && e + 10000 ≤ s.now then
        let s := (s.inc Dict.pickStuckCount).ev 0x205
        let s := { s with pk := { s.pk with stuck := true } }
        if s.reg Dict.pickSource ≠ 1 then s
        else if s.pk.pend = [] then stuckTransition s
        else { s with pk := { s.pk with stuckPend := true } }
      else s

/-- LOST (R51, R60): from the tree parent, forwarded to the tree children; in SYNCED or HOLDOVER the device enters PICK_LOST. -/
def execLost (t link : Nat) (m : PickMsg) (s : State) : Host.Outcome State Fault Refusal :=
  run (.lost t link m) t s fun s =>
    if !s.picksTaken then s
    else s.ctlArrive link (s.link link).peerDev fun s =>
      if s.reg Dict.pickSource = 2 ∧ s.reg Dict.warpTreeParent = link ∧ m.minVersion ≤ 1 then
        let a := m.accum + (s.link link).delay
        let s := (s.sawTree m a).toTree 2 (forwardedPick m a (bit m.flags 2))
        s.when (decide (s.pk.st = .synced) || decide (s.pk.st = .holdover)) enterLost
      else s.rejectPick

/-- The moment by which a pick must come in SYNCED (R60). -/
def State.missAt (s : State) : Option Nat :=
  s.pk.lastAct.map fun a =>
    if s.pk.learned then a + s.pk.period * s.reg Dict.pickMissFactor / 16 else a + 1000000000 * s.reg Dict.pickMissFactor / 16

/-- A holdover pick acted upon at a moment (R60): flagged and forwarded. -/
def holdoverPick (due : Nat) (s : State) : State :=
  let n := s.pk.lastNum + 1
  let s := { s with pk := { s.pk with holdRem := s.pk.holdRem - 1, holdNext := some (due + s.pk.period) } }
  let s := s.ev 0x202
  let s := s.toTree 1 (s.rootFlit n true false false)
  let next := s.pk.holdNext
  let s := actOn { num := n, due := due, hold := true, coal := false, late := false, src := false } s
  if s.pk.st = .holdover then { s with pk := { s.pk with holdNext := next } } else s

/-- PICK_MISS_TIMEOUT (R60): with 4 intervals learned HOLDOVER begins with a holdover pick at once, else PICK_LOST. -/
def execPickMissTimeout (t : Nat) (s : State) : Host.Outcome State Fault Refusal :=
  run (.pickMissTimeout t) t s fun s =>
    let waits := decide (s.pk.st = .synced) || (decide (s.pk.st = .holdover) && s.pk.holdNext.isNone)
    match s.missAt with
    | none => s
    | some a =>
      if s.picksTaken && waits && decide (s.pk.pend = []) && decide (a ≤ s.now) then
        if s.pk.learned then
          let s := enterHoldover s.now s
          if s.pk.st = .holdover then holdoverPick s.now s else s
        else enterLost s
      else s

/-- HOLDOVER_PICK_DUE (R60): the pick is acted upon, or at count zero PICK_LOST is entered. -/
def execHoldoverPickDue (t : Nat) (s : State) : Host.Outcome State Fault Refusal :=
  run (.holdoverPickDue t) t s fun s =>
    match s.pk.holdNext with
    | none => s
    | some d =>
      if s.picksTaken && decide (s.pk.st = .holdover) && decide (d ≤ s.now) then
        if s.pk.holdRem = 0 then holdoverEnds s else holdoverPick d s
      else s

/-! ## Barriers (R68, R69) -/

/-- A barrier becomes pending at P (R68). -/
def barrierPending (p : Nat) (mine : Bool) (s : State) : State :=
  match s.pk.barrier with
  | some _ => s
  | none => { s with pk := { s.pk with barrier := some { p := p, mine := mine } } }

/-- The device that starts a barrier sends BARRIER_REQUEST to every other device of the warp (R68). -/
def startBarrier (p : Nat) (s : State) : State :=
  let s := barrierPending p true s
  s.each (s.warpDevices.filter (· ≠ s.device)) fun d s => s.routeCtl d (ctlBytes 3 0 (s.barrierMsg p))

/-- BARRIER_REQUEST (R68). -/
def execBarrierRequest (t link dev : Nat) (m : PickMsg) (s : State) : Host.Outcome State Fault Refusal :=
  run (.barrierRequest t link dev m) t s fun s =>
    s.ctlArrive link dev fun s => s.when (s.picksTaken && decide (m.minVersion ≤ 1)) fun s => barrierPending m.barrier false s

/-- BARRIER_DONE (R68): a report is held; when all have reported the barrier completes. -/
def execBarrierDone (t link dev : Nat) (m : PickMsg) (s : State) : Host.Outcome State Fault Refusal :=
  run (.barrierDone t link dev m) t s fun s =>
    s.ctlArrive link dev fun s =>
      match s.pk.barrier with
      | some b =>
        if s.picksTaken && decide (m.minVersion ≤ 1) && decide (b.p = m.barrier) && !b.done.contains dev then
          settle { s with pk := { s.pk with barrier := some { b with done := b.done ++ [dev] } } }
        else s
      | none => s

/-- BARRIER_TIMEOUT (R69): the step starts without the missing devices, which the notification names. -/
def execBarrierTimeout (t : Nat) (s : State) : Host.Outcome State Fault Refusal :=
  run (.barrierTimeout t) t s fun s =>
    match s.pk.barrier with
    | some b =>
      if b.cut && b.cutAt + 1000000 * s.reg Dict.pickBarrierTimeout ≤ s.now then
        let missing := sumOf (fun d => if b.done.contains d then 0 else 2 ^ d) s.warpDevices
        let s := { s with pk := { s.pk with barrier := none } }
        let s := (s.inc Dict.pickBarrierFailCount).ev 0x20C
        let s := s.notify 0x0403 (beBytes 8 b.p ++ beBytes 8 missing)
        settle s
      else s
    | none => s

/-- BARRIER_MESSAGE_RESEND (R423): every 100 us a pending barrier's messages go out again. -/
def execBarrierMessageResend (t : Nat) (s : State) : Host.Outcome State Fault Refusal :=
  run (.barrierMessageResend t) t s fun s =>
    match s.pk.barrier with
    | some b =>
      let others := s.warpDevices.filter (· ≠ s.device)
      if b.sent then s.each others fun d s => s.routeCtl d (ctlBytes 4 0 (s.barrierMsg b.p))
      else s.when b.mine fun s => s.each others fun d s => s.routeCtl d (ctlBytes 3 0 (s.barrierMsg b.p))
    | none => s

end Sys2Proof.Machine
end

