-- ==== Sys2Proof/Machine/Cmd.lean ====
section
/-! DEFINITION. The session commands (spec/05, R145-R156; spec/06, R196-R205; spec/16, R471), the completion of moves and revivals, and the events of frames. -/

namespace Sys2Proof.Machine

open Sys2Proof

/-! ## Taking a command -/

/-- A slot that is reserved for a session on its way here (R435): its ring's head waits until the session has landed or the transfer has ended (log 165). -/
def State.slotReserved (s : State) (k : Nat) : Bool := s.dx.inn.any fun m => m.k == k && !m.committed

/-- The head of slot k's ring is taken, but not while the session has work in the running step. -/
def State.takeCmd (s : State) (k opcode : Nat) (go : QDesc → State → State) : State := if s.inStep k || s.slotReserved k then s else s.takeHead k opcode go

/-- The handles that a descriptor names are defined (R151). -/
def State.handlesOk (s : State) (k d : Nat) (q : QDesc) : Bool := (s.bindHandles k d q).isSome

/-- The command's handles bound to its session. -/
def State.bound (s : State) (k d : Nat) (q : QDesc) : State := (s.bindHandles k d q).getD s

/-- The session is revived first, the command waiting at the ring head (R154, R155, R202); without AUTO_REVIVE it ends with BAD_STATE. -/
def State.reviveFirst (s : State) (k : Nat) (q : QDesc) : State :=
  let x := s.sess k
  if bit q.d.flags 1 = false then s.endHead k stBad 0
  else if s.pinFull k then s.pinWait k
  else if s.moverFull (chOf k) then s.setHead k q
  else
    let s := (s.setHead k q).evS k 0x08D
    (s.setSess k { s.sess k with revivePend := true, policy := x.policy, deadline := q.d.deadline % 2 ^ 48 }).beginRevival k

/-- R149: the command's input is read, then the rest of the command follows with the descriptor that holds it; a failed read ends it. -/
def State.withInput (s : State) (k : Nat) (q : QDesc) (go : QDesc → State → State) : State :=
  let (q, s) := s.fetch q (.sessIn k q.d.seq) (chOf k)
  if q.inSt = 2 then go q s
  else if q.inSt = 3 then s.endHead k q.inErr 0
  else s.setHead k q

/-! ## OPEN (R151, R235) -/

/-- The slot lies in the domain's range (R142). -/
def State.inRange (s : State) (d k : Nat) : Bool :=
  let c := chOf k
  decide (s.reg Dict.dsessSlotBase c d ≤ k % 262144) && decide (k % 262144 < s.reg Dict.dsessSlotBase c d + s.reg Dict.dsessSlotCount c d)

/-- Sessions of a domain that are open on the device. -/
def State.openCount (s : State) (d : Nat) : Nat := s.ss.tbl.countP fun e => decide (e.2.st ≠ .free) && decide (e.2.dom = d)

/-- What OPEN and IMPORT ask of a domain and slot: keys, range, quota and a channel that the domain may use (R151, R142, R160). -/
def State.mayHold (s : State) (d k : Nat) : Bool :=
  s.holdsKeys d && s.inRange d k && decide (s.openCount d < s.reg Dict.dsessMaxSessions 0 d) && (s.domChans d).contains (chOf k)

/-- The model slot holds a model of the domain, with a copy on the slot's channel where it is REPLICATED, and is the first stage with every stage READY where the model spans devices (R151, R229, R235). -/
def State.modelFor (s : State) (d m k : Nat) : Bool :=
  let x := s.model m
  (decide (x.st = 2) || decide (x.st = 4)) && decide (x.dom = d) && (decide (x.placement ≠ 0) || x.chans.contains (chOf k)) &&
  (decide (x.placement ≠ 2) || (decide (x.stage = 0) && (List.range x.stages).all fun i => x.ready.contains (i + 1)))

/-- A new session in a slot: its ring and generation stay. -/
def State.openSlot (s : State) (k d m : Nat) (q : QDesc) : State :=
  let x := s.sess k
  let prio := Nat.min (if bit q.d.deadline 51 then bits q.d.deadline 50 48 else s.reg Dict.dsessDefaultPriority 0 d) (if bit q.d.deadline 51 then s.reg Dict.dsessPriorityCap 0 d else 7)
  let y : Sess := { st := .admitted, gen := x.gen, dom := d, model := m, prio := prio, head := x.head, tail := x.tail, ring := x.ring, imm := x.imm, closePend := x.closePend, lastStep := s.pk.current, since := s.pk.current }
  s.setSess k y

/-- OPEN with its checks passed and its input read. -/
def State.doOpen (s : State) (k m : Nat) (q : QDesc) : State :=
  let s := ((s.openSlot k q.dom m q).evS k 0x080).setHead k q
  let s := s.bound k q.dom q
  if q.d.dataLen = 0 then (s.toRest k).endHead k stDone 0
  else let s := s.startRun k q; (s.setSess k { s.sess k with fresh := true }).toState k .prefill

/-- OPEN (R151): FREE slots only; a device that drains refuses it (R40). -/
def execOpenSession (t : Nat) (k : Nat) (s : State) : Host.Outcome State Fault Refusal :=
  run (.openSession t k) t s fun s => s.takeCmd k 0x01 fun q s =>
    let m := q.d.count % 16
    if matrix (s.sess k).st 0x01 ≠ .x ∨ s.pw.pkg = .draining ∨ 16 ≤ q.d.count ∨ 16777216 < q.d.dataLen then s.endHead k stBad 0
    else if (s.mayHold q.dom k && s.modelFor q.dom m k) = false then s.endHead k stDenied 0
    else if s.handlesOk k q.dom q = false ∨ (0 < q.d.dataLen ∧ (s.model m).st ≠ 2) then s.endHead k stBad 0
    else if 0 < q.d.dataLen ∧ s.pinFull k then s.pinWait k
    else s.withInput k q fun q s => s.doOpen k m q

/-! ## APPEND and GENERATE (R145, R299-R311) -/

/-- APPEND (R299, R301): its input is read, a parked session is revived where AUTO_REVIVE asks for it, and the input is queued for tokenising and prefill. -/
def execAppend (t : Nat) (k : Nat) (s : State) : Host.Outcome State Fault Refusal :=
  run (.append t k) t s fun s => s.takeCmd k 0x02 fun q s =>
    let x := s.sess k
    let cell := matrix x.st 0x02
    if cell = .b ∨ (cell = .a ∧ bit q.d.flags 1 = false) ∨ q.d.count ≠ 0 ∨ 16777216 < q.d.dataLen ∨ s.handlesOk k x.dom q = false then s.endHead k stBad 0
    else s.withInput k q fun q s =>
      if cell = .a then s.reviveFirst k q
      else if (s.model x.model).st ≠ 2 then s.endHead k stBad 0
      else if s.pinFull k then (s.setHead k q).pinWait k
      else
        let s := ((s.setHead k q).bound k x.dom q).startRun k q
        (s.setSess k { s.sess k with ttl := 0, fresh := true }).toState k .prefill

/-- The grammar of a handle is being replaced (R309). -/
def State.replacing (s : State) (d h : Nat) : Bool :=
  (s.tx.newG.any fun e => e.1 == d * 1024 + h) || (s.dring d).running.any fun r => r.q.d.opcode == 0x43 && r.q.d.count % 1024 == h && decide (0 < r.q.d.dataLen)

/-- GENERATE starts: a grammar with state none begins at its start state (R311), and the text context but the stack is zeroed (R303). -/
def State.doGenerate (s : State) (k : Nat) (q : QDesc) : State :=
  let s := (s.bound k q.dom q).startRun k q
  let x := s.sess k
  let g := s.grammar x.dom x.grammar
  let w := match g with
    | some g => if x.gstate = gNone then g.start else x.gstate
    | none => x.gstate
  let stack := if g.isSome && decide (x.gstate = gNone) then [] else x.ctx.stack
  let s := s.setSess k { x with gstate := w, ctx := { stack := stack }, remaining := q.d.count, progress := 0, generated := true, ttl := 0, lastStep := s.pk.current, fresh := true }
  s.toState k .decode

/-- GENERATE (R145, R152, R309, R311). -/
def execGenerate (t : Nat) (k : Nat) (s : State) : Host.Outcome State Fault Refusal :=
  run (.generate t k) t s fun s => s.takeCmd k 0x03 fun q s =>
    let x := s.sess k
    let cell := matrix x.st 0x03
    let g := if q.d.grammar = 0 then x.grammar else q.d.grammar
    let wrong : Bool := match s.grammar x.dom g with
      | some y => decide (y.vocab ≠ (s.model x.model).vocab)
      | none => false
    if cell = .b ∨ (cell = .a ∧ bit q.d.flags 1 = false) ∨ q.d.count = 0 ∨ 1048576 < q.d.count ∨ s.handlesOk k x.dom q = false ∨ wrong then s.endHead k stBad 0
    else match s.ref x.dom q.d.dataRef q.d.dataLen true with
      | .fail st => s.endHead k st 0
      | .wait => s
      | _ =>
        if cell = .a then s.reviveFirst k q
        else if (s.model x.model).st ≠ 2 then s.endHead k stBad 0
        else if x.length = 1048576 then s.endHead k stLimit 0
        else if s.replacing x.dom g then s
        else if s.pinFull k then s.pinWait k
        else s.doGenerate k q

/-! ## Whole-session commands (R196-R205) -/

/-- A whole-session move starts for a command: it runs, and the session is MOVING; while the mover queue is full the command waits at the ring head (R189). -/
def State.moveFor (s : State) (k target policy : Nat) (q : QDesc) : State :=
  if s.moverFull (chOf k) then s
  else
    let s := (((s.bound k q.dom q).startRun k q).beginMoving k target policy).issueMoves k
    if target = 3 then (s.exportBegin k).exportPump k else s

/-- PARK (R196, R200): DONE at once where the session is already in the tier it names; a slate lies in deep. -/
def execPark (t : Nat) (k : Nat) (s : State) : Host.Outcome State Fault Refusal :=
  run (.park t k) t s fun s => s.takeCmd k 0x04 fun q s =>
    let x := s.sess k
    if matrix x.st 0x04 ≠ .x ∨ 1 < q.d.count ∨ (q.d.count = 1 ∧ 16 ≤ q.d.dataRef) ∨ s.handlesOk k x.dom q = false then s.endHead k stBad 0
    else if (q.d.count = 0 ∧ (x.st = .parkedDeep ∨ x.st = .condensed)) ∨ (q.d.count = 1 ∧ x.st = .parkedFar) then s.endHead k stDone 0
    else if s.pinFull k then s.pinWait k
    else s.moveFor k (if q.d.count = 1 then 2 else 0) x.policy q

/-- REVIVE (R202). -/
def execRevive (t : Nat) (k : Nat) (s : State) : Host.Outcome State Fault Refusal :=
  run (.revive t k) t s fun s => s.takeCmd k 0x05 fun q s =>
    let x := s.sess k
    let cell := matrix x.st 0x05
    if cell = .b ∨ q.d.count ≠ 0 ∨ s.handlesOk k x.dom q = false then s.endHead k stBad 0
    else if cell = .d then s.endHead k stDone 0
    else if s.pinFull k then s.pinWait k
    else if s.moverFull (chOf k) then s
    else ((s.bound k x.dom q).startRun k q).beginRevival k

/-- CONDENSE (R197). -/
def execCondense (t : Nat) (k : Nat) (s : State) : Host.Outcome State Fault Refusal :=
  run (.condense t k) t s fun s => s.takeCmd k 0x06 fun q s =>
    let x := s.sess k
    let cell := matrix x.st 0x06
    if cell = .b ∨ 2 < q.d.count ∨ s.handlesOk k x.dom q = false then s.endHead k stBad 0
    else if cell = .d then s.endHead k stDone 0
    else if s.pinFull k then s.pinWait k
    else s.moveFor k 1 q.d.count q

/-- The bytes of a far reference (R397): region k holds the offset and a length. -/
def State.farFits (s : State) (d ref n : Nat) : Bool :=
  decide (ref / 2 ^ 62 % 4 = 2) && decide (ref % 2 ^ 48 + n ≤ s.reg Dict.dtierFarFrames (bits ref 59 56) d * frameBytes)

/-- EXPORT (R204): the session goes out whole, or as its slate, and its slot becomes FREE when the record is complete. -/
def execExportSession (t : Nat) (k : Nat) (s : State) : Host.Outcome State Fault Refusal :=
  run (.exportSession t k) t s fun s => s.takeCmd k 0x07 fun q s =>
    let x := s.sess k
    let policy := if x.st = .condensed then x.policy else s.reg Dict.dtierSlatePolicy 0 x.dom
    if matrix x.st 0x07 ≠ .x ∨ 1 < q.d.count ∨ s.handlesOk k x.dom q = false ∨ s.farFits x.dom q.d.dataRef ((1 + s.exportFrames k q.d.count policy) * frameBytes) = false then s.endHead k stBad 0
    else match s.ref x.dom q.d.dataRef q.d.dataLen true with
      | .fail st => s.endHead k st 0
      | .wait => s
      | _ => if s.pinFull k then s.pinWait k else s.moveFor k 3 policy q

/-- The committed KV positions of an imported session: what its last recorded block holds, or the whole length where the slate has none. -/
def recPositions (x : XRec) (m : Model) : Nat :=
  let kv := x.pages.filter fun p => isKv p.lpn && decide (p.lpn < m.draftBase)
  match kv.getLast? with
  | none => x.length
  | some p => p.lpn / Nat.max 1 m.total * m.block + p.count

/-- The entry that IMPORT makes of a record (R205): MOVING from FREE, its pages still to land in deep. -/
def State.importEntry (s : State) (k m : Nat) (q : QDesc) (x : XRec) : State :=
  let md := s.model m
  let pos := recPositions x md
  let absent := if x.content = 1 ∨ x.policy = 0 then [] else List.range ((pos + md.block - 1) / Nat.max 1 md.block * md.total)
  let base : Tbl Page := absent.foldl (fun t l => Tbl.insert t l { tier := 3 }) []
  let pages := x.pages.foldl (fun (t : Tbl Page) (p : CkPage) => Tbl.insert t p.lpn { tier := 3, moving := true, count := p.count, kv := p.kv, cairn := p.cairn }) base
  let s := s.openSlot k q.dom m q
  let y := s.sess k
  let s := s.setSess k { y with st := .moving, prior := .free, prio := if bit q.d.deadline 51 then y.prio else x.prio, length := x.length, sver := x.sver, grammar := x.grammar, stop := x.stop, sampling := x.sampling, gstate := x.gstate, tokens := x.tokens, pages := pages, ctx := x.ctx, kvLen := pos, slate := decide (x.content = 0), policy := x.policy, target := if x.content = 0 then 1 else 0, pausedAt := s.pk.current }
  let s := (s.bound k q.dom q).startRun k q
  s.setSess k { s.sess k with run := (s.sess k).run.map fun r => { r with moved := x.pages.length } }

/-- IMPORT (R205); `x` is the record as the transfer brings it, none where the transfer fails. -/
def execImportSession (t : Nat) (k : Nat) (x : Option XRec) (s : State) : Host.Outcome State Fault Refusal :=
  run (.importSession t k x) t s fun s => s.takeCmd k 0x08 fun q s =>
    if matrix (s.sess k).st 0x08 ≠ .x ∨ q.d.count ≠ 0 ∨ q.d.dataRef / 2 ^ 62 % 4 ≠ 2 ∨ s.handlesOk k q.dom q = false then s.endHead k stBad 0
    else if s.mayHold q.dom k = false then s.endHead k stDenied 0
    else match s.ref q.dom q.d.dataRef q.d.dataLen false with
      | .fail st => s.endHead k st 0
      | .wait => s
      | _ =>
        match x with
        | none => s.endHead k stAbort 0
        | some x =>
          if x.ok = false ∨ (s.reg Dict.dsecClass 0 q.dom = 2 ∧ x.writer ≠ ownWriter) then
            let detail := beBytes 2 q.dom ++ beBytes 8 (s.handle k)
            let s := ((s.inc Dict.secTagFailCount).ev 0x244 none 1 (s.handle k) (some q.dom)).journal 1 (chOf k) 0x244 q.dom (s.handle k) detail
            (s.notify 0x0506 detail).endHead k stPageLost 0
          else if x.domain ≠ q.dom then s.endHead k stDenied 0
          else if (s.model x.model).st ≠ 2 ∨ (s.model x.model).dom ≠ q.dom ∨ (s.model x.model).meas ≠ x.meas then s.endHead k stBad 0
          else if s.pinFull k then s.pinWait k
          else (s.importEntry k x.model q x).issueMoves k

/-! ## TRUNCATE (R145, R151, R471) -/

/-- TRUNCATE's effect: length, pages and version change at once; a HALTED session without a poisoned page returns to TOOLWAIT. -/
def State.truncate (s : State) (k : Nat) (q : QDesc) : State :=
  let n := q.d.count
  let s := (s.bound k q.dom q).resetGrammar k
  let (gone, s) := s.cutKv k n n n
  let x := s.sess k
  let s := s.setSess k { x with length := n, tokens := x.tokens.take n, sver := (x.sver + 1) % 2 ^ 32 }
  let s := s.when (decide (x.st = .halted) && !(x.pages.any fun e => e.2.poisoned || s.stale e.2)) fun s =>
    let s := (s.setSess k { s.sess k with lost := false }).toState k .toolwait
    let d := s.reg Dict.dtierParkDelay 0 x.dom
    s.setSess k { s.sess k with ttl := if d = 0 then 0 else s.pk.current + d }
  s.endHead k stDone gone

/-- TRUNCATE. -/
def execTruncate (t : Nat) (k : Nat) (s : State) : Host.Outcome State Fault Refusal :=
  run (.truncate t k) t s fun s => s.takeCmd k 0x0B fun q s =>
    let x := s.sess k
    let cell := matrix x.st 0x0B
    if cell = .b ∨ x.length ≤ q.d.count ∨ s.handlesOk k x.dom q = false then s.endHead k stBad 0
    else if cell = .a then s.reviveFirst k q
    else if s.tm.moves.any fun m => m.k == k then s
    else s.truncate k q

/-! ## Immediate commands (R148, R153) -/

/-- The first immediate descriptor of a session, where it is of this opcode and the session is at a step boundary. -/
def State.takeImm (s : State) (k opcode : Nat) (go : QDesc → State → State) : State :=
  let x := s.sess k
  match x.imm with
  | [] => s
  | q :: rest =>
    if q.d.opcode ≠ opcode ∨ s.inStep k ∨ s.stalled q.dom ∨ s.sv.held then s
    else
      let leave (s : State) : State := s.setSess k { s.sess k with imm := rest }
      if s.handlesOk k q.dom q = false ∨ q.d.count ≠ 0 ∨ x.st = .free then
        let s := leave s
        (s.setSess k { s.sess k with closePend := (s.sess k).closePend && decide (opcode ≠ 0x0A) }).endDesc q stBad 0 0 0
      else go q (s.touchEntry k)

/-- The QUERY result (R153). -/
def State.queryBytes (s : State) (k : Nat) : Bytes :=
  let x := s.sess k
  [1, 1, x.st.code, x.tier, x.model, x.prio] ++ leBytes 2 (s.genOf k) ++ leBytes 4 x.length ++ leBytes 4 x.sver ++ leBytes 4 x.pageCount ++
  leBytes 2 x.ring.length ++ [0, 0] ++ leBytes 8 (x.deadline % 2 ^ 48) ++ leBytes 8 (x.ttlShown % 2 ^ 48) ++ leBytes 8 (x.since % 2 ^ 48)

/-- QUERY (R148, R153). -/
def execQuery (t : Nat) (k : Nat) (s : State) : Host.Outcome State Fault Refusal :=
  run (.query t k) t s fun s => s.takeImm k 0x09 fun q s =>
    let leave (s : State) : State := s.setSess k { s.sess k with imm := (s.sess k).imm.drop 1 }
    match s.ref q.dom q.d.dataRef q.d.dataLen true with
    | .fail st => (leave s).endDesc q st 0 0 0
    | .wait => s
    | _ =>
      let data := (s.queryBytes k).take q.d.dataLen
      let s := ((leave s).bound k q.dom q).output q.dom q.d.dataRef q.d.dataLen 0 data
      s.endDesc q stDone (s.sess k).length data.length 0

/-- The pages that a whole-session move or a revival has made arrive so far. -/
def State.arrived (s : State) (k : Nat) : Nat :=
  let x := s.sess k
  if x.st = .reviving then x.pages.countP fun e => isKv e.1 && decide (e.2.tier = 0)
  else ((x.run.map (·.moved)).getD 0) - s.tm.moves.countP fun m => m.k == k

/-- CLOSE (R145, R148): moves already issued complete first, and no further page moves. -/
def execClose (t : Nat) (k : Nat) (s : State) : Host.Outcome State Fault Refusal :=
  run (.close t k) t s fun s => s.takeImm k 0x0A fun q s =>
    let x := s.sess k
    let leave (s : State) : State := s.setSess k { s.sess k with imm := (s.sess k).imm.drop 1 }
    if x.st = .closing then (leave s).endDesc q stBad 0 0 0
    else if s.pinFull k then s.pinWait k
    else
      let s := s.when (decide (x.st = .moving) || decide (x.st = .reviving)) fun s =>
        s.each (s.tm.moves.filter fun m => m.k == k && !m.started) fun m s => s.failMove m
      let s := s.each (s.dx.out.filter fun m => m.k == k && decide (m.step < 3)) fun m s => s.dropOut m
      let s : State := { s with pw := { s.pw with drainExp := s.pw.drainExp.filter fun e => e.1 != k } }
      if (decide (x.st = .moving) || decide (x.st = .reviving)) && (s.tm.moves.any (fun m => m.k == k) || s.dx.out.any (fun m => m.k == k) || decide (0 < (s.sess k).xio) || decide ((s.sess k).xst = 2)) then s
      else
        let n := s.arrived k
        let whole := decide (x.st = .moving) || decide (x.st = .reviving)
        let s := s.when whole fun s => s.setSess k { s.sess k with run := (s.sess k).run.map fun r => { r with moved := n } }
        ((leave s).releaseStage k).beginClose k q

/-! ## What completes (R145, R190, R202, R251) -/

/-- REVIVAL_COMPLETE (R202, step 4). -/
def execRevivalComplete (t : Nat) (k : Nat) (s : State) : Host.Outcome State Fault Refusal :=
  run (.revivalComplete t k) t s fun s =>
    let x := s.sess k
    if x.st = .reviving ∧ x.closePend = false ∧ x.reserved ∧ x.recompute = none ∧ s.inStep k = false ∧ (s.tm.moves.any fun m => m.k == k) = false then s.finishRevival k else s

/-- CLOSING_COMPLETE (R145). -/
def execClosingComplete (t : Nat) (k : Nat) (s : State) : Host.Outcome State Fault Refusal :=
  run (.closingComplete t k) t s fun s => if (s.sess k).st = .closing then s.finishClose k else s

/-- A failed page of a whole-session move is taken up again (R190: its source stayed home), where a frame is found for it; not once a CLOSE is pending (R148). -/
def State.remove (s : State) (m : Move) : State :=
  let x := s.sess m.k
  if m.why ≠ 0 ∨ x.closePend then s
  else
    let again := if x.st = .reviving then (s.placeNear m.k m.lpn).map fun r => ({ m with ch := r.1, frame := r.2.1, started := false, io := 0, image := none }, r.2.2)
      else if x.st = .moving then s.reserveDest m.k m.lpn m.tier else none
    match again with
    | some (m, s) => s.addMove m
    | none => if x.st = .reviving ∨ x.st = .moving then s.failSession m.k stNoFrames else s

/-- A page whose read failed has been poisoned: its move fails, and with it a whole-session move (R194, R145). -/
def State.lostMove (s : State) (m : Move) : State :=
  let s := s.failMove m
  let x := s.sess m.k
  if x.st = .moving ∨ x.st = .reviving then s.failSession m.k stPageLost else s

/-- PAGE_MOVE_SWITCH (R190, R194, R127): the copy of a page has ended; a far one ends with its Slaisk operation (R188).  A revival that waited for the switch goes
on (R193). -/
def execPageMoveSwitch (t : Nat) (k lpn : Nat) (v : MoveEnd) (s : State) : Host.Outcome State Fault Refusal :=
  run (.pageMoveSwitch t k lpn v) t s fun s =>
    match s.tm.moves.find? fun m => m.k == k && m.lpn == lpn && m.started with
    | none => s
    | some m =>
      let c := s.moverOf m
      if m.io = 1 then s
      else
        let s := match (if m.io = 3 then .failed else v) with
          | .ok n => (s.reread c n (s.handle k) (s.sess k).dom).switchHome m
          | .crcLost => (s.readLost c k lpn).lostMove m
          | .tagBad => (s.tagFail k lpn false).lostMove m
          | .versionBad => (s.tagFail k lpn true).lostMove m
          | .failed => (s.failMove m).remove m
        (s.issueRevival k).ckptAdvance

/-- BACKGROUND_EVICTION (R184); a session that it condenses does so at once (R185). -/
def execBackgroundEviction (t : Nat) (c tier : Nat) (s : State) : Host.Outcome State Fault Refusal :=
  run (.backgroundEviction t c tier) t s fun s =>
    let s := s.background c tier
    s.each ((s.ss.tbl.filter fun e => e.2.st == .moving && !e.2.reserved && decide (e.2.target = 1)).map (·.1)) fun k s => s.issueMoves k

/-- FRAME_LEASE_RELEASE (R251): the last read of a freed frame has completed; a frame of a poisoned page goes to its test (R195). -/
def execFrameLeaseRelease (t : Nat) (c tier frame : Nat) (s : State) : Host.Outcome State Fault Refusal :=
  run (.frameLeaseRelease t c tier frame) t s fun s =>
    let f := s.frame c tier frame
    if f.st = 2 then s.setFrame c tier frame { f with st := if f.bad then 3 else 0 } else s

/-- COMPLETION_RECORD_RELEASE (R157). -/
def execCompletionRecordRelease (t : Nat) (d : Nat) (s : State) : Host.Outcome State Fault Refusal :=
  run (.completionRecordRelease t d) t s fun s => s.release d

/-- GENERATE_STREAM_RECORD (R158): every n picks a progress record. -/
def execGenerateStreamRecord (t : Nat) (k : Nat) (s : State) : Host.Outcome State Fault Refusal :=
  run (.generateStreamRecord t k) t s fun s =>
    let x := s.sess k
    let n := s.reg Dict.dsessStreamEvery 0 x.dom
    match x.run with
    | none => s
    | some r =>
      if r.q.d.opcode = 0x03 ∧ x.st = .decode ∧ 0 < n ∧ r.lastRec + n ≤ s.pk.current then
        let s := s.setSess k { x with run := some { r with lastRec := s.pk.current } }
        s.record x.dom r.q.d.session r.q.d.seq 0x03 stPartial x.progress x.ctx.delivered (flMore + flForwarded * b2n r.q.fwd) (bit r.q.d.flags 0)
      else s

end Sys2Proof.Machine
end

