-- ==== Sys2Proof/Machine/Slaisk.lean ====
section
/-! DEFINITION. Slaisk as a receiver (spec/13, R378-R406): a packet's checks, sequencing and acknowledgement, and what each opcode does at the KB480; windows and
doorbells. -/

namespace Sys2Proof.Machine

open Sys2Proof

/-! ## Acknowledgements (R387-R389) -/

/-- Sends an ACK or a NAK (R385: its counter rises by one), when a permitted port is ON. -/
def State.sendAck (s : State) (f : Nat) (nak : Bool) (psn syndrome : Nat) : State :=
  let x := s.flow f
  let s := s.setFlow f { x with ctrTx := x.ctrTx + 1, rxCount := 0, rxSince := none }
  match s.flowPort f with
  | none => s
  | some p => s.send (.ackNak p f nak psn syndrome (x.ctrTx + 1))

/-- The highest PSN received in order (R378). -/
def Flow.lastRx (x : Flow) : Nat := (x.rx + 2 ^ 24 - 1) % 2 ^ 24

/-- An acknowledgement of PSN n acknowledges every packet up to n (R388); one that makes progress restarts the timer (R389): whether it did. -/
def State.takeAck (s : State) (f n : Nat) : Bool × State :=
  let x := s.flow f
  let rest := x.unacked.filter fun p => decide (2 ^ 23 ≤ (n + 2 ^ 24 - p.seq % 2 ^ 24) % 2 ^ 24)
  if rest.length = x.unacked.length then (false, s)
  else (true, (s.setFlow f { x with unacked := rest, expiries := 0, rtoAt := none }).pump f)

/-- A retransmission without progress: at the limit of consecutive ones the flow enters ERROR (R389). -/
def State.retry (s : State) (f : Nat) : State :=
  let x := s.flow f
  let n := x.expiries + 1
  if s.reg Dict.slaiskRetryLimit ≤ n then (s.setFlow f { x with expiries := n }).flowFail f |>.ckptFlowLost f
  else ((s.setFlow f { x with expiries := n, rtoAt := none }).resend f).armRto f

/-! ## The checks of a packet (R384-R386, R122) -/

/-- A packet reaches its flow (R384), its CRC and tag pass (R386), and it is counted; `f` follows. -/
def State.rxPacket (s : State) (p : SPkt) (f : State → State) : State :=
  if s.isOn (.port p.port) = false ∨ s.vidOk p.port p.vid = false ∨ s.fa.fatal = true then s
  else
    let x := s.flow p.flow
    if s.flowReady p.flow = false ∨ bit x.cfg.ports p.port = false ∨ p.srcOk = false ∨ p.domain ≠ x.cfg.dom then
      (s.inc Dict.slaiskMismatchCount).ev 0x18D none 1 p.flow
    else if p.data ≠ [] ∧ p.crcOk = false then (s.inc Dict.slaiskCrcFailCount).ev 0x18C none 1 p.flow (some p.domain)
    else if (s.protects p.domain || p.prot) && (!p.prot || !p.tagOk || !s.parityOk p.domain p.parity) then
      ((s.inc Dict.slaiskAuthFailCount).inc Dict.dslaiskAuthFailCount 1 0 p.domain).ev 0x18B none 1 p.flow (some p.domain)
    else f (((s.inc Dict.slaiskRxPackets).ev 0x181 none 1 p.flow (some p.domain)).ev 0x183 none (p.data.length / 1024) p.flow (some p.domain))

/-- A packet's form (R379): no reserved bit or opcode, a version that R11 accepts, and a payload within the flow's limit. -/
def State.formOk (s : State) (p : SPkt) : Bool :=
  !p.resv && decide (p.minVersion ≤ 1) && decide (p.data.length ≤ s.payloadLimit (s.flow p.flow).cfg)

/-- A sequenced packet (R387, R388): the expected one is carried out, `op` giving the syndrome of an error NAK or 0; a duplicate is acknowledged at once; a
gap gets one NAK. -/
def State.rxSeq (s : State) (p : SPkt) (op : State → Nat × State) : State :=
  s.rxPacket p fun s =>
    let s := s.when p.ackValid fun s => (s.takeAck p.flow p.ackPsn).2
    let x := s.flow p.flow
    let ahead := (p.psn + 2 ^ 24 - x.rx % 2 ^ 24) % 2 ^ 24
    if ahead = 0 then
      let s := s.setFlow p.flow { x with rx := x.rx + 1, gap := false, rxCount := x.rxCount + 1, rxSince := if x.rxSince.isSome then x.rxSince else some s.now }
      let r := if s.formOk p then op s else (0x15, s)
      if r.1 ≠ 0 then ((r.2.sendAck p.flow true p.psn r.1).inc Dict.slaiskNakErrorCount).ev 0x187 none 1 p.flow (some p.domain)
      else if p.ackReq ∨ s.reg Dict.slaiskAckCoalesce ≤ (r.2.flow p.flow).rxCount then r.2.sendAck p.flow false p.psn 0 else r.2
    else if 2 ^ 23 ≤ ahead then s.sendAck p.flow false x.lastRx 0
    else if x.gap then s
    else (((s.setFlow p.flow { x with gap := true }).sendAck p.flow true x.lastRx 1).inc Dict.slaiskNakSequenceCount).ev 0x185 none 1 p.flow (some p.domain)

/-! ## Targets (R381) -/

/-- A device target's type. -/
def tgtType (t : Nat) : Nat := bits t 31 28

/-- The target names a device target: a defined type with its zero bits zero. -/
def tgtOk (t : Nat) : Bool :=
  match tgtType t with
  | 1 => decide (bits t 27 26 = 0)
  | 2 => decide (bits t 27 26 = 0) && decide (bits t 19 12 = 0)
  | 3 => true
  | 4 => decide (bits t 27 12 = 0)
  | _ => false

/-- A window named by a target, as a packet of a domain finds it (R400): 0, or the syndrome of the refusal. -/
def State.winCheck (s : State) (t d : Nat) : Nat :=
  let w := s.win (t % 65536)
  if !w.isOpen || w.revoked || decide (w.gen ≠ bits t 27 16) then 0x12
  else if w.dom ≠ d then 0x13
  else if s.isOn (.window (t % 65536)) = false then 0x10 else 0

/-- A refusal that names a revoked window is counted (R400). -/
def State.winRefuse (s : State) (f e : Nat) : Nat × State :=
  (e, s.when (decide (e = 0x12)) fun s => (s.inc Dict.slaiskRevokedCount).ev 0x190 none 1 f)

/-! ## SEND (R380, R403) -/

/-- A descriptor's 64 bytes (spec/05). -/
def parseDesc (b : Bytes) : Desc :=
  { opcode := le b 0 1, version := le b 1 1 / 16, minVersion := le b 1 1 % 16, seq := le b 2 2, flags := le b 4 1, count := le b 5 3, session := le b 8 8, dataRef := le b 16 8, dataLen := le b 24 4, grammar := le b 28 4, stopSet := le b 32 4, sampling := le b 36 4, deadline := le b 40 8, tailZero := zeroAt b 48 16 }

/-- The descriptors of a message. -/
def parseDescs (b : Bytes) : List Desc := (List.range (b.length / 64)).map fun i => parseDesc ((b.drop (64 * i)).take 64)

/-- A whole message reaches its ring. -/
def State.landSend (s : State) (t d : Nat) (b : Bytes) : State :=
  let ds := parseDescs b
  let s := s.ev 0x191 none ds.length 0 (some d)
  if tgtType t = 1 then s.sendSess (bits t 25 20) (bits t 19 0) d ds else s.sendDom (bits t 25 20) d ds

/-- A SEND packet. -/
def State.opSend (s : State) (p : SPkt) : Nat × State :=
  let x := s.flow p.flow
  let drop (s : State) : State := s.setFlow p.flow { s.flow p.flow with msg := none }
  if p.first = true ∧ x.msg.isSome = true then (0x15, drop s)
  else if p.first = false ∧ x.msg.isSome = false then (0x15, s)
  else
    let m := if p.first then (p.target, p.aux, []) else x.msg.getD (0, 0, [])
    let b := m.2.2 ++ p.data
    if tgtOk p.target = false then (0x10, drop s)
    else if tgtType p.target ≠ 1 ∧ tgtType p.target ≠ 2 then (0x14, drop s)
    else if tgtType p.target = 2 ∧ bits p.target 11 0 ≠ p.domain then (0x13, drop s)
    else if m.1 ≠ p.target ∨ m.2.1 ≠ p.aux ∨ p.offset ≠ m.2.2.length ∨ p.aux = 0 ∨ 4096 < p.aux ∨ p.aux % 64 ≠ 0 ∨ p.aux < b.length ∨ (p.last = true ∧ b.length ≠ p.aux) ∨ (p.last = false ∧ b.length = p.aux) then
      (0x15, drop s)
    else if p.last then (0, (drop s).landSend p.target p.domain b)
    else (0, s.setFlow p.flow { x with msg := some (p.target, p.aux, b) })

/-- SLAISK_SEND (R380, R403). -/
def execSlaiskSend (t : Nat) (p : SPkt) (s : State) : Host.Outcome State Fault Refusal :=
  run (.slaiskSend t p) t s fun s => s.rxSeq p fun s => s.opSend p

/-! ## WRITE, doorbells and FLUSH (R394, R402) -/

/-- A doorbell's WRITE (R402). -/
def State.doorbell (s : State) (p : SPkt) : Nat × State :=
  let d := p.target % 4096
  if d ≠ p.domain then (0x13, s)
  else if p.offset ≠ 0 ∨ p.data.length ≠ 8 then (0x11, s)
  else
    let i := le p.data 0 4
    let last := s.reg Dict.dsessCompletionConsumed 0 d
    let s := s.ev 0x199 none 1 p.flow (some d)
    if ((s.cq d).written + 2 ^ 32 - last) % 2 ^ 32 < (i + 2 ^ 32 - last) % 2 ^ 32 then (0, s.inc Dict.slaiskBadDoorbellCount)
    else (0, (s.setReg Dict.dsessCompletionConsumed i 0 d).release d)

/-- A WRITE packet: into a window, or a doorbell. -/
def State.opWrite (s : State) (p : SPkt) : Nat × State :=
  if tgtOk p.target = false then (0x10, s)
  else if tgtType p.target = 4 then s.doorbell p
  else if tgtType p.target ≠ 3 then (0x14, s)
  else
    let e := s.winCheck p.target p.domain
    let i := p.target % 65536
    if e ≠ 0 then s.winRefuse p.flow e
    else if (s.win i).size < p.offset + p.data.length then (0x11, s)
    else (0, s.setWin i ((s.win i).write p.offset p.data))

/-- SLAISK_WRITE (R394). -/
def execSlaiskWrite (t : Nat) (p : SPkt) (s : State) : Host.Outcome State Fault Refusal :=
  run (.slaiskWrite t p) t s fun s => s.rxSeq p fun s => s.opWrite p

/-- DOORBELL_WRITE (R402): a WRITE whose target is a doorbell. -/
def execDoorbellWrite (t : Nat) (p : SPkt) (s : State) : Host.Outcome State Fault Refusal :=
  run (.doorbellWrite t p) t s fun s => s.rxSeq p fun s => if tgtOk p.target = false then (0x10, s) else if tgtType p.target ≠ 4 then s.opWrite p else s.doorbell p

/-- A FLUSH packet: everything is placed already (R394), so it is answered at once. -/
def State.opFlush (s : State) (p : SPkt) : Nat × State :=
  let answer (s : State) : Nat × State := (0, (s.txPacket p.flow 9 true true 0 0 0 p.psn []).ev 0x193 none 1 p.flow (some p.domain))
  if p.target = 0 then answer s
  else if tgtOk p.target = false then (0x10, s)
  else if tgtType p.target = 4 then (if p.target % 4096 = p.domain then answer s else (0x13, s))
  else if tgtType p.target ≠ 3 then (0x14, s)
  else
    let e := s.winCheck p.target p.domain
    if e ≠ 0 then s.winRefuse p.flow e else answer s

/-- SLAISK_FLUSH (R394). -/
def execSlaiskFlush (t : Nat) (p : SPkt) (s : State) : Host.Outcome State Fault Refusal :=
  run (.slaiskFlush t p) t s fun s => s.rxSeq p fun s => s.opFlush p

/-- SLAISK_READ: refused at the KB480 with BAD_OP (R381). -/
def execSlaiskRead (t : Nat) (p : SPkt) (s : State) : Host.Outcome State Fault Refusal :=
  run (.slaiskRead t p) t s fun s => s.rxSeq p fun s => (0x14, s)

/-- SLAISK_ATOMIC_ADD: refused at the KB480 with BAD_OP (R381). -/
def execSlaiskAtomicAdd (t : Nat) (p : SPkt) (s : State) : Host.Outcome State Fault Refusal :=
  run (.slaiskAtomicAdd t p) t s fun s => s.rxSeq p fun s => (0x14, s)

/-- SLAISK_CAS: refused at the KB480 with BAD_OP (R381). -/
def execSlaiskCas (t : Nat) (p : SPkt) (s : State) : Host.Outcome State Fault Refusal :=
  run (.slaiskCas t p) t s fun s => s.rxSeq p fun s => (0x14, s)

/-! ## Responses (R379, R380, R392) -/

/-- An operation of the KB480 leaves its flow, and its tracker slot. -/
def State.dropOp (s : State) (f : Nat) (o : TxOp) : State :=
  let x := s.flow f
  let s := s.setFlow f { x with ops := x.ops.filter fun y => y.psn != o.psn }
  match o.trk with
  | some (c, i) => s.freeSlot c i
  | none => s

/-- A READ_RESPONSE packet: the next bytes of an outstanding READ. -/
def State.opReadResponse (s : State) (p : SPkt) : Nat × State :=
  let x := s.flow p.flow
  match x.ops.find? fun o => o.read && o.psn == p.aux % 2 ^ 24 with
  | none => (0x15, s)
  | some o =>
    let got := o.got ++ p.data
    if p.offset ≠ o.got.length ∨ p.first ≠ decide (o.got = []) ∨ o.want < got.length ∨ p.last ≠ decide (got.length = o.want) then (0x15, s)
    else if p.last then (0, (s.dropOp p.flow o).inputRead o.what (some got) 0)
    else (0, s.setFlow p.flow { x with ops := x.ops.map fun y => if y.psn = o.psn then { y with got := got } else y })

/-- SLAISK_READ_RESPONSE (R380, R392). -/
def execSlaiskReadResponse (t : Nat) (p : SPkt) (s : State) : Host.Outcome State Fault Refusal :=
  run (.slaiskReadResponse t p) t s fun s => settle (s.rxSeq p fun s => s.opReadResponse p)

/-- SLAISK_ATOMIC_RESPONSE: the KB480 has no atomic outstanding, so it is refused (R379, R393). -/
def execSlaiskAtomicResponse (t : Nat) (p : SPkt) (s : State) : Host.Outcome State Fault Refusal :=
  run (.slaiskAtomicResponse t p) t s fun s => s.rxSeq p fun s => (0x15, s)

/-- SLAISK_FLUSH_RESPONSE (R392): what waited for the FLUSH goes on, a barrier's cut among it; a bulk transfer's waits for the responses of both flows (R396). -/
def execSlaiskFlushResponse (t : Nat) (p : SPkt) (s : State) : Host.Outcome State Fault Refusal :=
  run (.slaiskFlushResponse t p) t s fun s => settle (s.rxSeq p fun s =>
    match (s.flow p.flow).ops.find? fun o => !o.read && o.psn == p.aux % 2 ^ 24 with
    | none => (0x15, s)
    | some o =>
      let s := s.dropOp p.flow o
      (0, if o.what.bulk && s.flushOpen o.what then s else s.inputRead o.what (some []) 0))

/-- WINDOW_REPLY: the KB480 opens no window at a remote end, so it is refused (R379). -/
def execWindowReply (t : Nat) (p : SPkt) (s : State) : Host.Outcome State Fault Refusal :=
  run (.windowReply t p) t s fun s => s.rxSeq p fun s => (0x15, s)

/-! ## ACK, NAK and the timers (R385, R388, R389) -/

/-- An ACK or NAK whose counter is above the last accepted; `f` follows. -/
def State.rxCtr (s : State) (p : SPkt) (f : State → State) : State :=
  s.rxPacket p fun s =>
    let x := s.flow p.flow
    if p.offset ≤ x.ctrRx ∨ s.formOk p = false then s else f (s.setFlow p.flow { x with ctrRx := p.offset })

/-- SLAISK_ACK (R388). -/
def execSlaiskAck (t : Nat) (p : SPkt) (s : State) : Host.Outcome State Fault Refusal :=
  run (.slaiskAck t p) t s fun s => settle (s.rxCtr p fun s => (s.takeAck p.flow p.ackPsn).2)

/-- SLAISK_NAK (R379, R389): SEQUENCE resends; an error NAK acknowledges the refused packet and ends its operation in failure. -/
def execSlaiskNak (t : Nat) (p : SPkt) (s : State) : Host.Outcome State Fault Refusal :=
  run (.slaiskNak t p) t s fun s => settle (s.rxCtr p fun s =>
    if p.syndrome = 1 then
      let (moved, s) := ((s.inc Dict.slaiskNakSequenceCount).ev 0x186 none 1 p.flow (some p.domain)).takeAck p.flow p.ackPsn
      if moved then s.resend p.flow else s.retry p.flow
    else if 0x10 ≤ p.syndrome then
      let s := (s.inc Dict.slaiskNakErrorCount).ev 0x188 none 1 p.flow (some p.domain)
      let hit := ((s.flow p.flow).unacked.find? fun q => q.seq % 2 ^ 24 == p.ackPsn)
      let (_, s) := s.takeAck p.flow p.ackPsn
      match hit with
      | none => s
      | some q =>
        let s := s.outputLost q
        match (s.flow p.flow).ops.find? fun o => o.psn == q.seq % 2 ^ 24 with
        | none => s
        | some o => (s.dropOp p.flow o).inputRead o.what none stAbort
    else s)

/-- ACK_COALESCE_TIMER (R388): 2 us after the first packet not yet acknowledged. -/
def execAckCoalesceTimer (t : Nat) (f : Nat) (s : State) : Host.Outcome State Fault Refusal :=
  run (.ackCoalesceTimer t f) t s fun s =>
    match (s.flow f).rxSince with
    | none => s
    | some a => if s.flowReady f ∧ a + 2000 ≤ s.now then s.sendAck f false (s.flow f).lastRx 0 else s

/-- RETRANSMIT_TIMEOUT (R389). -/
def execRetransmitTimeout (t : Nat) (f : Nat) (s : State) : Host.Outcome State Fault Refusal :=
  run (.retransmitTimeout t f) t s fun s =>
    match (s.flow f).rtoAt with
    | none => s
    | some a => if s.flowReady f ∧ a ≤ s.now ∧ (s.flow f).unacked ≠ [] then settle ((s.ev 0x189 none 1 f).retry f) else s

/-! ## Windows (R399, R400) -/

/-- Windows of the pool: those not yet returned. -/
def State.wins (s : State) : List Window := (s.sl.wins.map (·.2)).filter (·.isOpen)

/-- The 32-bit handle of a window. -/
def winHandle (i gen : Nat) : Nat := 3 * 2 ^ 28 + gen * 65536 + i

/-- WINDOW_REPLY (R379, R399). -/
def State.winReply (s : State) (f syndrome target psn : Nat) : State := s.txPacket f 12 true true target 0 syndrome psn []

/-- A WINDOW_OPEN packet. -/
def State.opWindowOpen (s : State) (p : SPkt) : Nat × State :=
  if p.target ≠ 0 ∨ p.aux < 64 ∨ 16777216 < p.aux ∨ p.aux % 64 ≠ 0 then (0x15, s)
  else
    let k := handleSlot p.offset
    let c := chOf k
    if handleDev p.offset ≠ s.device then (0, s.winReply p.flow 0x17 0 p.psn)
    else if s.inRange p.domain k = false then (0, s.winReply p.flow 0x13 0 p.psn)
    else if s.reg Dict.dslaiskMaxWindows 0 p.domain ≤ (s.wins.countP fun w => w.dom == p.domain) ∨ 65536 ≤ s.wins.length ∨ s.chOn c = false ∨
        s.reg Dict.slaiskWindowPool * 1048576 < p.aux + sumOf (fun w => if w.ch = c then w.size else 0) s.wins then
      (0, s.winReply p.flow 0x16 0 p.psn)
    else
      let used := (s.sl.wins.filter fun e => e.2.isOpen).map (·.1)
      let i := ((List.range (used.length + 1)).find? fun i => !used.contains i).getD 0
      let w : Window := { gen := ((s.win i).gen + 1) % 4096, dom := p.domain, ch := c, size := p.aux, flow := p.flow, psn := p.psn, pick := s.pk.current, isOpen := true }
      (0, (s.setWin i w).setFn (.window i) { st := .starting })

/-- WINDOW_OPEN (R399). -/
def execWindowOpen (t : Nat) (p : SPkt) (s : State) : Host.Outcome State Fault Refusal :=
  run (.windowOpen t p) t s fun s => s.rxSeq p fun s => s.opWindowOpen p

/-- WINDOW_START_COMPLETE (R399): the buffer is zeroed and the window is ON; one revoked in STARTING replies REVOKED and stops (R400, R32). -/
def execWindowStartComplete (t : Nat) (i : Nat) (s : State) : Host.Outcome State Fault Refusal :=
  run (.windowStartComplete t i) t s fun s =>
    let w := s.win i
    let f := s.fn (.window i)
    if f.st ≠ .starting then s
    else if f.pend = .off then (s.setFn (.window i) { st := .stopping }).winReply w.flow 0x12 (winHandle i w.gen) w.psn
    else ((s.setFn (.window i) { st := .on }).ev 0x18E none 1 i (some w.dom)).winReply w.flow 0 (winHandle i w.gen) w.psn

/-- WINDOW_REVOKE (R400). -/
def execWindowRevoke (t : Nat) (p : SPkt) (s : State) : Host.Outcome State Fault Refusal :=
  run (.windowRevoke t p) t s fun s => s.rxSeq p fun s =>
    if tgtOk p.target = false then (0x10, s)
    else if tgtType p.target ≠ 3 then (0x14, s)
    else
      let e := s.winCheck p.target p.domain
      if e = 0x12 ∨ e = 0x13 then s.winRefuse p.flow e else (0, s.revoke (p.target % 65536))

/-- WINDOW_EXPIRE (R400): the action point of the pick after the one it was opened in. -/
def execWindowExpire (t : Nat) (i : Nat) (s : State) : Host.Outcome State Fault Refusal :=
  run (.windowExpire t i) t s fun s => s.windowDue i

/-- WINDOW_STOP_COMPLETE (R400): the buffer is zeroed and returns to the pool. -/
def execWindowStopComplete (t : Nat) (i : Nat) (s : State) : Host.Outcome State Fault Refusal :=
  run (.windowStopComplete t i) t s fun s =>
    if (s.fn (.window i)).st ≠ .stopping then s
    else (s.setWin i { gen := (s.win i).gen }).setFn (.window i) {}

end Sys2Proof.Machine
end

