-- ==== Sys2Proof/Machine/Eth.lean ====
section
/-! DEFINITION. The Ethernet ports (spec/13, R371-R377): pauses, the PTP clock, and what a port answers on its own. -/

namespace Sys2Proof.Machine

open Sys2Proof

/-- Replaces a port's PFC state. -/
def State.setPort (s : State) (p : Nat) (x : Port) : State := { s with et := { s.et with ports := Tbl.put {} s.et.ports p x } }

/-! ## Modes and lanes (R17, R369) -/

/-- The lanes that a mode uses, and each one's rate in Gb/s: 400G-2, 400G-4, 200G-2 and 100G-1. -/
def modeLanes (mode : Nat) : List Nat × Nat :=
  match mode with
  | 1 => ([0, 1, 2, 3], 100)
  | 2 => ([0, 1], 100)
  | 3 => ([0], 100)
  | _ => ([0, 1], 200)

/-- A lane's transmitter is on: the port's mode uses the lane and the port is not OFF; the other lanes are idle with their transmitters off. -/
def State.laneTx (s : State) (p lane : Nat) : Bool := (modeLanes (s.reg Dict.ethMode p)).1.contains lane && !s.isOff (.port p)

/-- A port's rate in Gb/s, over the lanes its mode uses. -/
def State.portRate (s : State) (p : Nat) : Nat := let m := modeLanes (s.reg Dict.ethMode p); m.1.length * m.2

/-! ## Ports come and go (R391) -/

/-- The flows that may use a port. -/
def State.flowsOn (s : State) (p : Nat) : List Nat := (s.sl.flows.filter fun e => decide (e.2.st = 1) && bit e.2.cfg.ports p).map (·.1)

/-- A port has left ON: its pauses end, and its flows move to the other permitted port and resend, or stop their timers. -/
def portOff (p : Nat) (s : State) : State :=
  let s := s.setPort p {}
  s.each (s.flowsOn p) fun f s =>
    let x := s.flow f
    if x.port ≠ some p then s
    else match s.flowPort f with
      | some q => (((s.setFlow f { x with port := some q }).resend f).armRto f)
      | none => s.setFlow f { x with port := none, rtoAt := none }

/-- A port is ON: flows that had none resend and go on. -/
def portOn (p : Nat) (s : State) : State :=
  s.each (s.flowsOn p) fun f s =>
    let x := s.flow f
    if x.port.isSome then s else (((s.setFlow f { x with port := s.flowPort f }).resend f).armRto f).pump f

/-! ## PFC (R375, R376) -/

/-- One pause quantum, 512 bit times, in picoseconds, at a port's rate (R369). -/
def State.quantumPs (s : State) (p : Nat) : Nat := 512000 / Nat.max 1 (s.portRate p)

/-- A transmit priority's pause ends: its time is counted in hub-control-clock cycles of 1.2 GHz, and its flows go on. -/
def State.endPause (s : State) (p prio : Nat) : State :=
  let x := s.portSt p
  match Tbl.get 0 x.pausedAt prio with
  | 0 => s
  | a + 1 =>
    let s := s.setPort p { x with pausedAt := Tbl.erase x.pausedAt prio, pausedTo := Tbl.erase x.pausedTo prio, dropping := x.dropping.filter (· != prio) }
    let s := s.ev 0x196 none ((s.now - a) * 6 / 5) p
    s.each ((s.flowsOn p).filter fun f => (s.flow f).cfg.prio == prio) fun f s => s.pump f

/-- PFC_FRAME_RECEIVE (R375): each enabled priority is paused for its quanta, or, with 0, resumes. -/
def execPfcFrameReceive (t : Nat) (p : Nat) (enable : Nat) (quanta : List Nat) (s : State) : Host.Outcome State Fault Refusal :=
  run (.pfcFrameReceive t p enable quanta) t s fun s =>
    if s.isOn (.port p) = false then s
    else
      let s := (s.inc Dict.ethPfcRxCount).ev 0x195 none 1 p
      s.each ((List.range 8).filter fun i => bit enable i) fun i s =>
        let q := quanta.getD i 0
        if q = 0 then s.endPause p i
        else
          let x := s.portSt p
          let since := Tbl.get 0 x.pausedAt i
          s.setPort p { x with pausedAt := Tbl.put 0 x.pausedAt i (if since = 0 then s.now + 1 else since), pausedTo := Tbl.put 0 x.pausedTo i (s.now + (q * s.quantumPs p + 999) / 1000) }

/-- PFC_PAUSE_EXPIRE (R375): the quanta have run out. -/
def execPfcPauseExpire (t : Nat) (p prio : Nat) (s : State) : Host.Outcome State Fault Refusal :=
  run (.pfcPauseExpire t p prio) t s fun s => if Tbl.get 0 (s.portSt p).pausedTo prio ≤ s.now then s.endPause p prio else s

/-- A PFC frame sent. -/
def State.sendPfc (s : State) (p prio quanta : Nat) : State := ((s.send (.pfc p prio quanta)).inc Dict.ethPfcTxCount).ev 0x194 none 1 p

/-- PFC_REFRESH_TIMER (R375): a lossless receive priority's occupancy (bytes) against XOFF and XON. -/
def execPfcRefreshTimer (t : Nat) (p prio occupancy : Nat) (s : State) : Host.Outcome State Fault Refusal :=
  run (.pfcRefreshTimer t p prio occupancy) t s fun s =>
    let x := s.portSt p
    if s.isOn (.port p) = false ∨ bit (s.reg Dict.ethPfcEnable) prio = false then s
    else if x.xoff.contains prio then
      if occupancy < s.reg Dict.ethPfcXon * 1024 then (s.setPort p { x with xoff := x.xoff.filter (· != prio) }).sendPfc p prio 0
      else if s.reg Dict.ethPfcXon * 1024 < occupancy then s.sendPfc p prio 0xFFFF else s
    else if s.reg Dict.ethPfcXoff * 1024 < occupancy then (s.setPort p { x with xoff := x.xoff ++ [prio] }).sendPfc p prio 0xFFFF
    else s

/-- PFC_WATCHDOG_EXPIRE (R376): the priority's frames are discarded until its pause ends. -/
def execPfcWatchdogExpire (t : Nat) (p prio : Nat) (s : State) : Host.Outcome State Fault Refusal :=
  run (.pfcWatchdogExpire t p prio) t s fun s =>
    let x := s.portSt p
    match Tbl.get 0 x.pausedAt prio with
    | 0 => s
    | a + 1 =>
      let wd := s.reg Dict.ethPfcWatchdog
      if wd = 0 ∨ x.dropping.contains prio ∨ s.now < a + wd * 1000000 then s
      else
        let s := s.setPort p { x with dropping := x.dropping ++ [prio] }
        let s := ((s.inc Dict.ethPfcWatchdogCount).ev 0x197 none 1 p).notify 0x0602 [p, prio]
        s.each ((s.flowsOn p).filter fun f => (s.flow f).cfg.prio == prio) fun f s => s.pump f

/-! ## PTP (R377) -/

/-- PTP_EVENT_MESSAGE (R377): the clock takes the master's time; nothing is ever scheduled by it. -/
def execPtpEventMessage (t : Nat) (p : Nat) (m : PtpMsg) (s : State) : Host.Outcome State Fault Refusal :=
  run (.ptpEventMessage t p m) t s fun s =>
    if s.isOn (.port p) = false ∨ s.vidOk p m.vid = false ∨ s.reg Dict.ptpEnable = 0 ∨ m.domain ≠ s.reg Dict.ptpDomain then s
    else { s with et := { s.et with ptpSt := if m.lock then 2 else 1, ptpDelta := ((m.masterNs + m.delay : Nat) : Int) - m.localNs, ptpOff := m.offset, ptpDelay := m.delay } }

/-! ## ARP, Neighbor Discovery, echo (R372, R373) -/

/-- The port's static IPv4 address, its static IPv6 address (0 where none is set), and its link-local address, formed from the MAC address (R372). -/
def State.ip4 (s : State) (p : Nat) : Nat := beField 12 (s.reg Dict.ethIpv4 p) 0 4
def State.ip6 (s : State) (p : Nat) : Nat := beField 36 (s.reg Dict.ethIpv6 p) 0 16
def linkLocal (p : Nat) : Nat :=
  let m := Config.constEntry (Dict.ethMac.addr + p) % 2 ^ 48
  let hi := m / 2 ^ 24
  let flip := if bit hi 17 then hi - 2 ^ 17 else hi + 2 ^ 17
  0xFE80 * 2 ^ 112 + flip * 2 ^ 40 + 0xFFFE * 2 ^ 24 + m % 2 ^ 24

/-- The addresses a port answers for, of a version. -/
def State.addrs (s : State) (p : Nat) (v6 : Bool) : List Nat := (if v6 then [linkLocal p, s.ip6 p] else [s.ip4 p]).filter (· != 0)

/-- A message for one of the port's addresses is answered; a fragment or one with options is discarded and counted. -/
def State.ipAnswer (s : State) (p kind : Nat) (m : IpMsg) : State :=
  if s.isOn (.port p) = false ∨ s.vidOk p m.vid = false then s
  else if m.odd then s.inc Dict.ethDropCount
  else if m.request && (s.addrs p m.v6).contains m.target then s.send (.ipReply p kind m.target m.sender m.data) else s

/-- ARP (R372): a request for the port's IPv4 address is answered. -/
def execArp (t : Nat) (p : Nat) (m : IpMsg) (s : State) : Host.Outcome State Fault Refusal :=
  run (.arp t p m) t s fun s => s.ipAnswer p 0 { m with v6 := false }

/-- NEIGHBOR_DISCOVERY (R372): a solicitation for one of the port's IPv6 addresses is answered. -/
def execNeighborDiscovery (t : Nat) (p : Nat) (m : IpMsg) (s : State) : Host.Outcome State Fault Refusal :=
  run (.neighborDiscovery t p m) t s fun s => s.ipAnswer p 1 { m with v6 := true }

/-- ICMP_ECHO (R372): an echo request to one of the port's addresses is answered with its data. -/
def execIcmpEcho (t : Nat) (p : Nat) (m : IpMsg) (s : State) : Host.Outcome State Fault Refusal :=
  run (.icmpEcho t p m) t s fun s => s.ipAnswer p 2 m

end Sys2Proof.Machine
end

