-- ==== Sys2Proof/Machine/Leave.lean ====
section
/-! DEFINITION. A channel leaves ON (spec/16, R473-R475, R509; spec/07, R232; spec/12, R355): its steps and moves stop, its sessions are lost and reported, and
the frames they held elsewhere are swept. -/

namespace Sys2Proof.Machine

open Sys2Proof

/-! ## Loss records (R475) -/

/-- One loss record to a domain: n sessions, the output length's field. -/
def State.lossRecord (s : State) (d n field : Nat) : State :=
  let s := s.record d 0 0xFFFF 0 stPageLost n field flUnsolicited false
  ((s.inc Dict.faultLossRecords).ev 0x236 none 1 0 (some d)).notify 0x0903 (beBytes 2 d ++ beBytes 4 n ++ beBytes 2 field)

/-- The output length of a loss record: channel (0xFF for a whole device), device, cause. -/
def lossField (chan dev cause : Nat) : Nat := chan + 256 * (dev % 64) + 16384 * cause

/-! ## Steps and moves of the channel (R473, R212, R474) -/

/-- A session's row or chunk leaves the running step, uncharged, with its staging frames. -/
def State.leaveStep (s : State) (k : Nat) : State :=
  match s.sv.run with
  | none => s
  | some v =>
    let s := match v.rows.find? fun r => r.k == k with
      | some r => s.leaveRow r 0
      | none => s
    let s := match s.sv.run with
      | some v => { s with sv := { s.sv with run := some { v with chunks := v.chunks.filter fun c => c.k != k } } }
      | none => s
    s.releaseStage k

/-- The sessions with work in the running step. -/
def State.stepSessions (s : State) : List Nat :=
  match s.sv.run with
  | none => []
  | some v => (v.rows.map (·.k) ++ v.chunks.map (·.k)).eraseDups

/-- Work of the running step that depends on a channel is discarded (R473). -/
def State.leaveSteps (s : State) (c : Nat) : State :=
  s.each (s.stepSessions.filter fun k => decide (chOf k = c) || (s.stepChans k).contains c) fun k s => s.leaveStep k

/-- Moves of the channel's pages and frames (R474): with the destination there, the source stays home and the move is taken up elsewhere; with the source
there, the destination is freed and the page poisoned. -/
def State.leaveMoves (s : State) (c : Nat) : State :=
  s.each s.tm.moves fun m s =>
    match (s.sess m.k).page? m.lpn with
    | none => s
    | some p =>
      if p.tier < 2 ∧ p.ch = c then (s.poison m.k m.lpn 0x04A []).lostMove m
      else if m.tier < 2 ∧ m.ch = c then (s.failMove m).remove m else s

/-- SELECTs whose domain has no permitted channel left end with BAD_STATE (R343). -/
def selectsLeave (s : State) : State :=
  s.each s.ss.rings fun e s => s.each (e.2.running.filter fun r => r.q.d.opcode == 0x50 && decide (s.selChans e.1 = [])) fun r s => s.endSelect e.1 r stBad

/-! ## Sessions of the channel (R473-R475) -/

/-- The domains with sessions homed on a channel, and how many each has. -/
def State.homedOn (s : State) (c : Nat) : List (Nat × Nat) :=
  let xs := s.ss.tbl.filter fun e => decide (chOf e.1 = c) && decide (e.2.st ≠ .free)
  (xs.map (·.2.dom)).eraseDups.map fun d => (d, xs.countP fun e => e.2.dom == d)

/-- Every slot of the channel is out of service; the sessions' commands end without records. -/
def State.dropSlots (s : State) (c : Nat) : State :=
  let tbl := s.ss.tbl.filter fun e => decide (chOf e.1 ≠ c)
  { s with ss := { s.ss with tbl := tbl, cache := Tbl.erase s.ss.cache c, bumps := Tbl.erase s.ss.bumps c } }

/-- The channel's frames, far records, claims, trackers and buffers are gone; retired frames stay retired (R195), and far frames recorded there are no longer
known (R509). -/
def State.dropFrames (s : State) (c : Nat) : State :=
  let frames := s.tm.frames.filter fun e => decide (e.1 / 2 ^ 25 ≠ c) || decide (e.2.st = 4)
  let far := s.tm.far.map fun e => if farRec e.2 = c + 1 then (e.1, farLost) else e
  let bulk := s.tm.bulk.filter fun b => b.ch != c
  let claims := s.tm.claims.filter fun e => e.1 != c
  let evicting := s.tm.evicting.filter fun e => e / 2 != c
  let flows := s.sl.flows.map fun e => (e.1, { e.2 with ops := e.2.ops.map fun o => if (o.trk.map (·.1)) = some c then { o with trk := none } else o })
  let wins := s.sl.wins.map fun e => if e.2.isOpen && decide (e.2.ch = c) then (e.1, ({ gen := e.2.gen } : Window)) else e
  let gone := (s.sl.wins.filter fun e => e.2.isOpen && decide (e.2.ch = c)).map (·.1)
  let s : State := { s with tm := { s.tm with frames := frames, far := far, bulk := bulk, claims := claims, evicting := evicting }, fb := { s.fb with track := Tbl.erase s.fb.track c, lab := Tbl.erase s.fb.lab c, walk := Tbl.erase s.fb.walk c, insts := s.fb.insts.filter (fun i => i.c != c), sram := s.fb.sram.filter (fun e => decide (e.1 / 256 ≠ c)), xused := Tbl.erase s.fb.xused c, reeds := Tbl.erase s.fb.reeds c }, sl := { s.sl with flows := flows, wins := wins } }
  s.each gone fun i s => s.setFn (.window i) {}

/-- Copies of vocabularies and grammars on the channel are gone. -/
def State.dropCopies (s : State) (c : Nat) : State :=
  let keep (l : List Nat) : List Nat := l.filter (· != c)
  { s with tx := { s.tx with cache := Tbl.erase s.tx.cache c, vocabs := s.tx.vocabs.map (fun (e : Nat × VSlot) => (e.1, { e.2 with chans := keep e.2.chans })), grammars := s.tx.grammars.map (fun (e : Nat × Grammar × List Nat) => (e.1, e.2.1, keep e.2.2)), newG := s.tx.newG.map (fun (e : Nat × Grammar × List Nat) => (e.1, e.2.1, keep e.2.2)) } }

/-- Migrations of the channel's sessions end; what arrived for them is swept with their frames. -/
def State.dropMigrations (s : State) (c : Nat) : State :=
  { s with dx := { s.dx with out := s.dx.out.filter (fun (m : MigOut) => chOf m.k != c), inn := s.dx.inn.filter (fun (m : MigIn) => chOf m.k != c) } }

/-- Channel c has left ON (R473, R474): by a CHANNEL fault (cause 0) or a stop (cause 2). -/
def channelLeave (c cause : Nat) (s : State) : State :=
  let lost := s.homedOn c
  let s := (((s.leaveSteps c).leaveMoves c).dropMigrations c).dropSlots c
  let s := { s with tm := { s.tm with moves := s.tm.moves.filter (fun (m : Move) => chOf m.k != c) } }
  let s := collsLeave c (modelsLeave c (s.dropFrames c))
  let s := selectsLeave (s.dropCopies c)
  let s := { s with fa := { s.fa with sweeping := if s.fa.sweeping.contains c then s.fa.sweeping else s.fa.sweeping ++ [c] } }
  let s := s.each lost fun e s => s.lossRecord e.1 e.2 (lossField c s.device cause)
  settle s

/-! ## The sweep (R509) -/

/-- A near or deep frame that a living session, a move, an arriving migration, or a model, collection or command in bulk holds. -/
def State.heldFrames (s : State) : List Nat :=
  (s.tm.bulk.flatMap fun b => b.fr.map fun n => frameKey b.ch 0 n) ++
  (s.ss.tbl.flatMap fun e => (e.2.pages.filter fun p => decide (p.2.tier < 2 ∨ (p.2.tier = 3 ∧ p.2.held))).map (fun p => frameKey p.2.ch (p.2.tier % 3) p.2.frame) ++ e.2.stage.map fun x => frameKey x.2.1 0 x.2.2) ++
  ((s.tm.moves.filter fun m => decide (m.tier < 2)).map fun m => frameKey m.ch m.tier m.frame) ++
  (s.dx.inn.flatMap fun m => ((m.frames.filter fun f => decide (f.1 < 2)).map fun f => frameKey f.2.1 f.1 f.2.2) ++ ((m.pages.filter fun f => decide (f.2.1 < 2)).map fun f => frameKey f.2.2.1 f.2.1 f.2.2.2))

/-- Likewise of far frames. -/
def State.heldFar (s : State) : List Nat :=
  (s.ss.tbl.flatMap fun e => (e.2.pages.filter fun p => decide (p.2.tier = 2)).map fun p => farKey e.2.dom p.2.region p.2.frame) ++
  ((s.tm.moves.filter fun m => decide (m.tier = 2)).map fun m => farKey (s.sess m.k).dom m.region m.frame) ++
  (s.dx.inn.flatMap fun m => ((m.frames.filter fun f => decide (f.1 = 2)).map fun f => farKey m.sum.dom f.2.1 f.2.2) ++ ((m.pages.filter fun f => decide (f.2.1 = 2)).map fun f => farKey m.sum.dom f.2.2.1 f.2.2.2))

/-- Frames on other channels whose header's owner was a session of the channel: those that nothing holds any more. -/
def State.sweep (s : State) : State :=
  let held := s.heldFrames
  let far := s.heldFar
  let frames := s.tm.frames.map fun e => if e.2.st = 1 ∧ held.contains e.1 = false then (e.1, { e.2 with st := if s.sv.run.isSome then 2 else if e.2.bad then 3 else 0 }) else e
  { s with tm := { s.tm with frames := frames, far := s.tm.far.filter fun e => decide (10 ≤ e.2) || far.contains e.1 } }

end Sys2Proof.Machine
end

