-- ==== Sys2Proof/Machine/Functions.lean ====
section
/-! DEFINITION. Switchable functions: the parents of R28, the request and completion rules of R29-R34, and what starting, stopping, reaching
ON and reaching OFF means for each function. -/

namespace Sys2Proof.Machine

open Sys2Proof

/-- The parent of a function (R28, R132, R371, R411, R488, R499). -/
def parentOf : FnId → Option FnId
  | .dom n =>
    if 72 ≤ n then none
    else if n % 18 = 16 then some (.dom (if n < 36 then 77 else 78))
    else some (.dom (n - n % 18 + 16))
  | .port _ => some (.dom 76)
  | .link n => some (.dom (72 + n / 12))
  | .seal c => some (.dom (18 * c + 16))
  | .hubMon _ => none
  | .chMon c _ => some (.dom (18 * c + 16))
  | .trace => some (.dom 79)
  | .window _ => none

/-- The children of a function (R28). -/
def childrenOf : FnId → List FnId
  | .dom n =>
    if n < 72 then
      if n % 18 = 16 then
        let c := n / 18
        ((List.range 16).map fun g => FnId.dom (18 * c + g)) ++ [.dom (18 * c + 17), .seal c] ++ ((List.range 16).map fun k => FnId.chMon c k)
      else []
    else if n < 76 then (List.range 12).map fun i => FnId.link (12 * (n - 72) + i)
    else if n = 76 then [.port 0, .port 1]
    else if n = 77 then [.dom 16, .dom 34]
    else if n = 78 then [.dom 52, .dom 70]
    else [.trace]
  | _ => []

/-- A channel service domain (R27). -/
def isService : FnId → Bool
  | .dom n => decide (n < 72) && decide (n % 18 = 16)
  | _ => false

/-- NOTIFY 0x0601 (R371). -/
def portNote (p old new : Nat) (s : State) : State := s.notify 0x0601 [p, old, new]

/-- What begins with STARTING (R474, R499, R371, R411); `old` is the code of the state before. -/
def onStarting (f : FnId) (old : Nat) (s : State) : State :=
  match f with
  | .dom n =>
    let s := s.ev 0x224 none 1 n
    let s := s.when (decide (72 ≤ n) && decide (n < 76)) fun s =>
      s.each (List.range 12) fun i s =>
        let l := 12 * (n - 72) + i
        s.when (bit (s.reg Dict.dnxLinkEnable) l && s.isOff (.link l)) fun s => linkStarting l 0 (s.setFn (.link l) { s.fn (.link l) with st := .starting, pend := .none })
    s.when (isService f) fun s =>
      ({ s with nv := { s.nv with starts := Tbl.put 0 s.nv.starts (n / 18) ((Tbl.get 0 s.nv.starts (n / 18) + 1) % 2 ^ 32) } }).store
  | .trace => { s with mn := { s.mn with trace := {} } }
  | .link n => linkStarting n old s
  | .port p => portNote p old 1 s
  | .seal c => { s with sc := { s.sc with scrub := Tbl.put 0 s.sc.scrub c 0 } }
  | _ => s

/-- The auxiliary engine domain of channel c leaves ON (R343): the channel's decode rows leave the step, uncharged, and SELECTs that have no channel left end. -/
def auxLeaves (c : Nat) (s : State) : State :=
  let rows := match s.sv.run with
    | some v => v.rows.filter fun r => decide (chOf r.k = c)
    | none => []
  settle (collsHomeless (selectsLeave (s.each rows fun r s => s.leaveRow r 0)))

/-- What begins with STOPPING (R474, R343, R412, R391). -/
def onStopping (f : FnId) (old : Nat) (s : State) : State :=
  match f with
  | .dom n =>
    let s := s.ev 0x225 none 1 n
    let s := s.when (decide (n < 72) && decide (n % 18 = 17)) fun s => auxLeaves (n / 18) s
    s.when (isService f) fun s => channelLeave (n / 18) 2 s
  | .link n => linkStopping n old s
  | .port p => portNote p old 3 (portOff p s)
  | .seal c => { s with sc := { s.sc with scrub := Tbl.put 0 s.sc.scrub c 0 } }
  | _ => s

/-- Begins STARTING; a channel whose departure is still being swept waits in OFF with ON in its slot (R509). -/
def beginStart (f : FnId) (s : State) : State :=
  match f with
  | .dom n =>
    if isService f && s.fa.sweeping.contains (n / 18) then s.setFn f { s.fn f with st := .off, pend := .on }
    else onStarting f (s.fn f).st.code (s.setFn f { s.fn f with st := .starting, pend := .none })
  | _ => onStarting f (s.fn f).st.code (s.setFn f { s.fn f with st := .starting, pend := .none })

/-- Begins STOPPING. -/
def beginStop (f : FnId) (s : State) : State :=
  onStopping f (s.fn f).st.code (s.setFn f { s.fn f with st := .stopping, pend := .none })

/-- Writes a request into the pending slot (R32); one that overwrites an older request counts in source 0x226. -/
def latch (f : FnId) (p : Pend) (s : State) : State :=
  let r := s.fn f
  let s := s.setFn f { r with pend := p }
  s.when (decide (r.pend ≠ .none)) fun s => s.ev 0x226 none 1 (fnKey f)

/-- Every child of f is OFF. -/
def State.childrenOff (s : State) (f : FnId) : Bool := (childrenOf f).all fun c => s.isOff c

/-- A counter or trace capture that R30 stops goes OFF at once, with no final snapshot (R498, R504). -/
def dropMonitor (f : FnId) (s : State) : State :=
  match f with
  | .trace =>
    let s := s.setFn f {}
    { s with mn := { s.mn with trace := {} } }
  | _ =>
    let s := s.setFn f { s.fn f with st := .off, pend := .none }
    s.setMon f { s.mon f with counting := false, due := none }

/-- An OFF request (R30, R32): children first, k deep; `imposed` when it comes from a parent. -/
def reqOff : Nat → Bool → FnId → State → State
  | 0, _, _, s => s
  | k + 1, imposed, f, s =>
    let s := s.each (childrenOf f) fun c s => reqOff k true c s
    match f, imposed with
    | .chMon _ _, true => dropMonitor f s
    | .trace, true => dropMonitor f s
    | _, _ =>
      match (s.fn f).st with
      | .off => s.setFn f { s.fn f with pend := .none }
      | .starting => latch f .off s
      | .stopping => s.setFn f { s.fn f with pend := .none }
      | .on => if s.childrenOff f then beginStop f s else latch f .off s

/-- The ON column of R32. -/
def engineOn (f : FnId) (s : State) : State :=
  match (s.fn f).st with
  | .off => if (s.fn f).pend = .on then latch f .on s else beginStart f s
  | .starting => s.setFn f { s.fn f with pend := .none }
  | .on => s
  | .stopping => latch f .on s

/-- An ON request (R29, R32): none when it is refused. -/
def reqOn (f : FnId) (s : State) : Option State :=
  match parentOf f with
  | none => some (engineOn f s)
  | some p =>
    if (s.fn p).pend = .off then none
    else
      match (s.fn p).st with
      | .on => some (engineOn f s)
      | .stopping => none
      | .starting =>
        if s.isOff f then some (latch f .on s) else some (engineOn f s)
      | .off =>
        if isService f then some (latch f .on (engineOn p s)) else none

/-- A request: ON (v = 1) or OFF (v = 0); a refused one changes nothing. -/
def request (f : FnId) (v : Nat) (s : State) : Option State :=
  if v = 1 then reqOn f s else some (reqOff 4 false f s)

/-- A request that the device makes on its own account. -/
def tryOn (f : FnId) (s : State) : State := (reqOn f s).getD s

/-- The package enters SERVING from MANAGED at the first moment at which all four channel service domains are ON (R38). -/
def serveIfUp (s : State) : State :=
  s.when (decide (s.pw.pkg = .managed) && (List.range 4).all fun c => s.chOn c) fun s => State.setPkg { s with pw := { s.pw with bringup := false } } .serving

/-- What reaching ON means (R38, R474, R211, R371, R411). -/
def onOn (f : FnId) (s : State) : State :=
  match f with
  | .dom n =>
    if isService f then
      let c := n / 18
      serveIfUp (s.when s.pw.bringup fun s => tryOn (.dom (18 * c + 17)) (s.each (List.range 16) fun g s => tryOn (.dom (18 * c + g)) s))
    else if n = 76 then
      s.each (List.range 2) fun p s => tryOn (.port p) s
    else s
  | .port p => portNote p 1 2 (portOn p s)
  | .link n => ((linkNote n 1 2 s).ev 0x1C7 none 1 n).routeWaiting.passHeld
  | _ => s

/-- A tile group that has stopped has cleared its slots (R35). -/
def clearedOff (f : FnId) (s : State) : State :=
  match f with
  | .dom n => if n < 72 && n % 18 < 16 then tileGroupOff (n / 18) (n % 18) s else s
  | _ => s

/-- What reaching OFF means (R35, R411, R371); `old` is the code of the state before. -/
def onOff (f : FnId) (old : Nat) (s : State) : State :=
  match f with
  | .link n => linkOff n old s
  | .port p => portNote p old 0 s
  | _ => clearedOff f s

/-- A parent that waits for its children begins its own STOPPING once they are all OFF (R30). -/
def parentCheck (f : FnId) (s : State) : State :=
  match parentOf f with
  | none => s
  | some p =>
    if (s.fn p).st = .on && (s.fn p).pend = .off && s.childrenOff p then beginStop p s else s

/-- A function has reached OFF. -/
def reachedOff (f : FnId) (old : Nat) (s : State) : State := parentCheck f (onOff f old s)

/-- STARTING completes (R33, R29); a parent with OFF pending waits for children that are not OFF (R30). -/
def fnStarted (f : FnId) (s : State) : State :=
  if (s.fn f).st = .starting then
    if (s.fn f).pend = .off then
      if s.childrenOff f then beginStop f (s.setFn f { s.fn f with fault := false }) else s.setFn f { st := .on, pend := .off, fault := false }
    else
      let s := onOn f (s.setFn f { st := .on, pend := .none, fault := false })
      s.each (childrenOf f) fun c s => s.when (s.isOff c && decide ((s.fn c).pend = .on)) fun s => beginStart c s
  else s

/-- The journal's source and object of a failed start (R33); seals give the channel. -/
def failSource : FnId → Nat × Nat
  | .link n => (0x1C9, n)
  | .seal c => (0x24D, c)
  | .dom n => (0x227, n)
  | _ => (0x227, 0)

/-- STARTING fails (R33, R29); a link group's links go with it. -/
def fnFailed (f : FnId) (s : State) : State :=
  if (s.fn f).st = .starting then
    let s := s.setFn f { st := .off, pend := .none, fault := true }
    let s := s.ev (failSource f).1 none 1 (failSource f).2
    let s := s.journal 1 0xFF (failSource f).1 0xFFFF (failSource f).2
      (match f with | .dom n => [n] | _ => [])
    let s := s.each (childrenOf f) fun c s =>
      match c with
      | .link n => if s.isOff c then s.setFn c { s.fn c with pend := .none } else linkOff n (s.fn c).st.code (s.setFn c { s.fn c with st := .off, pend := .none })
      | _ => s.when (s.isOff c) fun s => s.setFn c { s.fn c with pend := .none }
    reachedOff f 1 s
  else s

/-- What turning seal c ON asks (R132). -/
def State.sealMay (s : State) (c : Nat) : Bool :=
  let d := s.reg Dict.sealDomain c
  s.chOn c && decide (d < 4096) && decide (s.reg Dict.dsecClass 0 d = 2) && s.holdsKeys d &&
  (s.ss.tbl.all fun e => decide (e.2.st = .free) || (if e.2.dom = d then s.sealed (chOf e.1) else decide (chOf e.1 ≠ c))) &&
  (s.fb.models.all fun e => decide (e.2.st = 0) || decide (e.2.dom = d) || !e.2.chans.contains c) &&
  (s.se.colls.all fun e => decide (e.2.st = 0) || decide (e.2.dom = d) || !e.2.chans.contains c) &&
  (s.regs.all fun e => decide (e.1 / 4096 ≠ Dict.dsecTileGroups.addr) || decide (e.1 % 4096 = d) || decide (bits e.2 (16 * c + 15) (16 * c) = 0))

/-- A latched ON may start its function now: a seal as R132 asks (log 164). -/
def State.startMay (s : State) (f : FnId) : Bool :=
  match f with
  | .seal c => s.sealMay c
  | _ => true

/-- STOPPING completes (R33, R34). -/
def fnStopped (f : FnId) (s : State) : State :=
  if (s.fn f).st = .stopping then
    if (s.fn f).pend = .on && s.startMay f then beginStart f (clearedOff f (s.setFn f { s.fn f with pend := .none }))
    else reachedOff f 3 (s.setFn f { s.fn f with st := .off, pend := .none })
  else s

/-- Power domains complete their starts by FUNCTION_START_COMPLETE; the other functions by their own commands. -/
def isDomain : FnId → Bool
  | .dom _ => true
  | _ => false

/-- Power domains, ports and links complete their stops by FUNCTION_STOP_COMPLETE. -/
def plainStop : FnId → Bool
  | .dom _ => true
  | .port _ => true
  | .link _ => true
  | _ => false

/-- A tile group's self-test has named the tiles that fail (R210, R211). -/
def selfTest (f : FnId) (bad : List Nat) (s : State) : State :=
  match f with
  | .dom n => if n < 72 && n % 18 < 16 then groupReached (n / 18) (n % 18) bad s else s
  | _ => s

/-- FUNCTION_START_COMPLETE (R33): a tile group's self-test names the tiles it fences (R211). -/
def execFunctionStartComplete (t : Nat) (f : FnId) (bad : List Nat) (s : State) : Host.Outcome State Fault Refusal :=
  run (.functionStartComplete t f bad) t s fun s =>
    s.when (isDomain f && decide ((s.fn f).st = .starting)) fun s => settle (selfTest f bad (fnStarted f s))

/-- FUNCTION_START_FAIL (R33), with NOTIFY 0x0303 for a power domain. -/
def execFunctionStartFail (t : Nat) (f : FnId) (s : State) : Host.Outcome State Fault Refusal :=
  run (.functionStartFail t f) t s fun s =>
    match f with
    | .dom n => s.when (decide ((s.fn f).st = .starting)) fun s => (fnFailed f s).notify 0x0303 [n]
    | .seal c => s.when (decide ((s.fn f).st = .starting)) fun s => (fnFailed f s).notify 0x0505 ([c] ++ beBytes 2 (s.reg Dict.sealDomain c))
    | _ => s

/-- A tile group finishes its current step before it powers off (R35). -/
def State.stopsLater (s : State) (f : FnId) : Bool :=
  match f, s.sv.run with
  | .dom n, some v => v.groups.contains n
  | _, _ => false

/-- FUNCTION_STOP_COMPLETE (R33, R30, R35). -/
def execFunctionStopComplete (t : Nat) (f : FnId) (s : State) : Host.Outcome State Fault Refusal :=
  run (.functionStopComplete t f) t s fun s => s.when (plainStop f && !s.stopsLater f) fun s => fnStopped f s

end Sys2Proof.Machine
end

