-- ==== Sys2Proof/Machine/Faults.lean ====
section
/-! DEFINITION. Faults and conservation (spec/16): channel faults, the sweep, frame tests, the FATAL path, audits, and tracker timeouts (spec/07, R237). -/

namespace Sys2Proof.Machine

open Sys2Proof

/-! ## Channel faults (R472, R473, R509) -/

/-- A child of a failed channel goes to OFF at once; a seal without a scrub, a counter without a final snapshot (R473, R498). -/
def dropChild (f : FnId) (s : State) : State :=
  match f with
  | .chMon _ _ =>
    let was := (s.fn f).st
    let s := dropMonitor f s
    s.when (decide (was ≠ .off)) fun s => s.setFn f { s.fn f with fault := true }
  | .seal c =>
    let was := (s.fn f).st
    let s := s.setFn f { s.fn f with st := .off, pend := .none }
    let d := s.reg Dict.sealDomain c
    s.when (decide (was ≠ .off)) fun s => (s.ev 0x24B none 1 c (some d)).notify 0x0504 ([c, 0] ++ beBytes 2 d)
  | _ => clearedOff f (s.setFn f { s.fn f with st := .off, pend := .none })

/-- A CHANNEL fault of channel c with an event source (R473). -/
def channelFault (c src : Nat) (s : State) : State :=
  let f := FnId.dom (18 * c + 16)
  if (s.fn f).st = .off then s
  else
    let s := s.each (childrenOf f) dropChild
    let s := s.setFn f { st := .off, pend := .none, fault := true }
    let detail := [c] ++ beBytes 2 src
    let s := (s.journal 2 c src 0xFFFF 0 detail).notify 0x0902 detail
    parentCheck f (channelLeave c 0 s)

/-- CHANNEL_FAULT (R472, R473). -/
def execChannelFault (t c src : Nat) (s : State) : Host.Outcome State Fault Refusal :=
  run (.channelFault t c src) t s (channelFault c src)

/-- CHANNEL_SWEEP_COMPLETE (R509): what the lost sessions held elsewhere is free, and a start that waited begins, where the PHY pair is ON (R29). -/
def execChannelSweepComplete (t c : Nat) (s : State) : Host.Outcome State Fault Refusal :=
  run (.channelSweepComplete t c) t s fun s =>
    if s.fa.sweeping.contains c then
      let s := s.sweep
      let s := { s with fa := { s.fa with sweeping := s.fa.sweeping.filter (· != c) } }
      let f := FnId.dom (18 * c + 16)
      s.when (s.isOff f && decide ((s.fn f).pend = .on) && ((parentOf f).map s.isOn).getD true) fun s => beginStart f s
    else s

/-- Retired frames of an HBM4 stack in this pick (R472). -/
def State.retiredOn (s : State) (stack : Nat) : Nat := if s.fa.retirePick = s.pk.current then Tbl.get 0 s.fa.retired stack else 0

/-- The stacks of channel c that hold the failed blocks of a near frame (R175). -/
def badStacks (c : Nat) (bad : List Nat) : List Nat := [2 * c, 2 * c + 1].filter fun st => bad.any fun b => b % 2 == st % 2

/-- FRAME_TEST_COMPLETE (R195, R472): a frame under test rejoins its pool or is retired; too many of one stack in a pick fail the channel. -/
def execFrameTestComplete (t c tier frame : Nat) (bad : List Nat) (s : State) : Host.Outcome State Fault Refusal :=
  run (.frameTestComplete t c tier frame bad) t s fun s =>
    let x := s.frame c tier frame
    if x.st ≠ 3 then s
    else if bad = [] then s.setFrame c tier frame { x with st := 0, bad := false }
    else
      let s := s.setFrame c tier frame { x with st := 4, bad := false }
      let s := (s.inc Dict.tierFramesRetired 1 0 c).ev 0x053 (some c) 1 frame
      let s := s.notify 0x1201 ([c, tier] ++ beBytes 4 frame)
      if tier ≠ 0 then s
      else
        let hit := badStacks c bad
        let counts := hit.map fun st => (st, s.retiredOn st + 1)
        let old : Tbl Nat := if s.fa.retirePick = s.pk.current then s.fa.retired else []
        let s := { s with fa := { s.fa with retirePick := s.pk.current, retired := counts.foldl (fun (m : Tbl Nat) (e : Nat × Nat) => Tbl.put 0 m e.1 e.2) old } }
        s.when (counts.any fun e => decide (s.reg Dict.faultChannelRetireLimit < e.2)) fun s => channelFault c 0x053 s

/-! ## The FATAL path (R476-R480) -/

/-- FATAL notices (R478): a NOTIFY to every open association through each port in ON, a record on every READY flow, and a control message on every link in
ON. -/
def fatalNotices (reason : Nat) (s : State) : State :=
  let s := s.notifyVia (fun _ => [0, 1]) 0x0901 ([reason] ++ beBytes 8 s.pk.current)
  let r : Rec := { handle := 0, seq := 0xFFFF, opcode := 0, status := 0x1F, progress := reason, outLen := 0, pick := s.pk.current % 2 ^ 48, ns := s.stampNow.ns, flags := flUnsolicited + 1024 * b2n s.pk.hold }
  let flows := (s.sl.flows.filter fun e => decide (e.2.st = 1)).map (·.1)
  let links := (List.range 48).filter fun n => s.isOn (.link n)
  let s := s.each flows fun f s => s.txSend f (r.bytes)
  let s := s.each links fun n s => s.sendCtl n (s.link n).peerDev (ctlBytes 0x11 0 ([reason, 0, 0, 0] ++ beBytes 8 s.pk.current))
  s.ev 0x233 none (s.wr.assocs.countP (·.opened) * ((List.range 2).countP fun p => s.isOn (.port p)) + flows.length + links.length)

/-- FATAL_ABORT records for running commands whose domain's io flow is READY (R477). -/
def fatalAborts (s : State) : State :=
  let s := s.each (s.ss.tbl.filter fun e => e.2.run.isSome && s.flowReady (s.ioFlow e.2.dom)) fun e s =>
    match e.2.run with
    | some r => s.record e.2.dom r.q.d.session r.q.d.seq r.q.d.opcode 0x1F e.2.progress 0 (flForwarded * b2n r.q.fwd) false
    | none => s
  s.each (s.ss.rings.filter fun e => s.flowReady (s.ioFlow e.1)) fun e s =>
    s.each e.2.running fun r s => s.record e.1 r.q.d.session r.q.d.seq r.q.d.opcode 0x1F r.a r.b (flForwarded * b2n r.q.fwd) false

/-- The dictionary values that outlive a reset (R46, R97): those in the non-volatile store, and on no account a value of an entry that is not. -/
def storedRegs (regs : Tbl Nat) : Tbl Nat :=
  regs.filter fun e => Dict.table.any fun x => x.persist && decide (x.addr ≤ e.1 % 2 ^ 40 / 4096) && decide (e.1 % 2 ^ 40 / 4096 < x.addr + x.span)

/-- The package without power: only the non-volatile store is left, and what no reset changes: retired frames stay retired (R195), the random bit
generator and the key pairs do not repeat (R104), and FORCE_OFF_N is the board's. -/
def unpowered (s : State) : State :=
  let u := State.reset
  { u with now := s.now, out := s.out, pending := s.pending, nv := s.nv, regs := storedRegs s.regs, tm := { u.tm with frames := s.tm.frames.filter fun e => e.2.st == 4 }, wr := { u.wr with keys := s.wr.keys }, sc := { u.sc with draws := s.sc.draws }, pw := { u.pw with forceOff := s.pw.forceOff } }

/-- The package with every switched domain OFF and its input still there (R20, R477): of the volatile state the always-on domain keeps the fault journal, the
signature-index state, the pick logic and the notifications logged; associations, sessions, pages, flows and links are gone. -/
def offline (s : State) : State :=
  let u := unpowered s
  { u with
    pw := { u.pw with pkg := s.pw.pkg, isolated := true, spd := s.pw.spd },
    pk := s.pk,
    wr := { u.wr with nseq := s.wr.nseq, nlog := s.wr.nlog },
    sc := { u.sc with running := s.sc.running, n := s.sc.n, reserving := s.sc.reserving, storeFailed := s.sc.storeFailed },
    fa := { u.fa with journal := s.fa.journal, jseq := s.fa.jseq } }

/-- The FATAL path (R477) as one act: the fault is journalled, the notices and records go out, every switched domain goes OFF, the journal is copied and
`fault.last_fatal` written, and the package is ISOLATED, without plaintext (R480). -/
def fatalPath (reason : Nat) (s : State) : State :=
  if s.fa.fatal then s
  else
    let s : State := { s with fa := { s.fa with fatal := true } }
    let stamp := s.stampNow
    let s := s.journal 3 0xFF 0x238 0xFFFF 0 ([reason] ++ beBytes 8 s.pk.current) reason
    let s := (fatalAborts (fatalNotices reason s)).copyJournal
    let s := s.setReg Dict.faultLastFatal (beNat ([reason, 0, 0, 0, 0, 0, 0, 0] ++ stamp.bytes ++ beBytes 4 s.fa.jseq ++ [0, 0, 0, 0]))
    (offline s.store).setPkg .isolated

/-- FATAL_DETECT (R476). -/
def execFatalDetect (t reason : Nat) (s : State) : Host.Outcome State Fault Refusal :=
  run (.fatalDetect t reason) t s (fatalPath reason)

/-! ## Conservation (R482-R485) -/

/-- A failed audit: scope object, expected value, value found. -/
abbrev AuditFail := Nat × Nat × Nat

/-- Law 1 (R483): per tier of each channel in ON, and per far region. -/
def State.auditFrames (s : State) : Option AuditFail :=
  let pools := ((List.range 4).filter fun c => s.chOn c).flatMap fun c => [0, 1].map fun tier =>
    let fs := s.framesOf c tier
    let owned := fs.countP (fun f => f.st == 1)
    let transit := fs.countP fun f => f.st == 2 || f.st == 3
    (2 * c + tier, s.poolTotal c tier, s.freeFrames c tier + owned + transit)
  let regions := (s.tm.far.map fun e => e.1 / 2 ^ 40).eraseDups.map fun r =>
    let mine := s.tm.far.filter fun e => decide (e.1 / 2 ^ 40 = r)
    let total := s.reg Dict.dtierFarFrames (r % 16) (r / 16)
    (2 ^ 32 + r, total, Nat.max total mine.length)
  (pools ++ regions).find? fun x => decide (x.2.1 ≠ x.2.2)

/-- Law 2 (R485): each link in ON, each READY flow, the forward buffer and the hub buffer. -/
def State.auditCredits (s : State) : Option AuditFail :=
  let links := ((List.range 48).filter fun n => s.isOn (.link n)).flatMap fun n => (List.range 16).map fun key =>
    let l := s.link n
    let out := (Tbl.get 0 l.used key + 4096 - Tbl.get 0 l.ret key) % 4096
    (n, grant (key / 4), Nat.max (grant (key / 4)) out)
  let flows := (s.sl.flows.filter fun e => decide (e.2.st = 1)).map fun e => (2 ^ 32 + e.1, e.2.cfg.window, Nat.max e.2.cfg.window e.2.unacked.length)
  let fwd := s.dx.fwd.length
  (links ++ flows ++ [(2 ^ 33, 4096, Nat.max 4096 fwd), (2 ^ 33 + 1, 4096, Nat.max 4096 s.hubHeld)]).find? fun x => decide (x.2.1 ≠ x.2.2)

/-- The reservations of a domain that are open: its rows of the running step (R287). -/
def State.openReserved (s : State) (d : Nat) : Nat :=
  match s.sv.run with
  | none => 0
  | some v => sumOf (fun r => if (s.sess r.k).dom = d then r.r else 0) v.rows

/-- Law 3 (R483, R287). -/
def State.auditBudget (s : State) : Option AuditFail :=
  (s.sv.budgets.map (·.1)).findSome? fun d =>
    let b := s.budget d
    let want : Int := b.charged + b.bal + b.reserved - b.base
    let have_ : Int := b.refilled + b.adjusted
    if want ≠ have_ then some (d, ofSigned 64 want, ofSigned 64 have_)
    else if b.reserved ≠ s.openReserved d then some (d, s.openReserved d, b.reserved)
    else none

/-- Law 4 (R483): the entries other than FREE are those of the domains' open counts, and each is on a channel of this device that is ON. -/
def State.auditHomes (s : State) : Option AuditFail :=
  let open' := s.ss.tbl.filter fun e => decide (e.2.st ≠ .free)
  let here := open'.countP fun e => s.chOn (chOf e.1)
  if here = open'.length then none else some (0, open'.length, here)

/-- Law 5 (R483): no more than 4,096 slots of a channel's tracker are held, and none twice. -/
def State.auditTracker (s : State) : Option AuditFail :=
  (List.range 4).findSome? fun c =>
    let ts := (s.tracks c).map (·.slot)
    if ts.length = ts.eraseDups.length ∧ ts.length ≤ 4096 then none else some (c, 4096, ts.length)

/-- One law's audit (R484). -/
def State.auditLaw (s : State) (law : Nat) : State :=
  let fails := match law with
    | 1 => s.auditFrames
    | 2 => s.auditCredits
    | 3 => s.auditBudget
    | 4 => s.auditHomes
    | _ => s.auditTracker
  let passed := match law with
    | 1 => Dict.auditFrames
    | 2 => Dict.auditCredits
    | 3 => Dict.auditBudget
    | 4 => Dict.auditHomes
    | _ => Dict.auditTracker
  match fails with
  | none => (s.inc passed).ev 0x234
  | some (o, want, found) =>
    let s := (s.journal 1 0xFF 0x235 0xFFFF o ([law] ++ leBytes 8 o ++ leBytes 8 want ++ leBytes 7 found)).ev 0x235
    let s := s.setReg Dict.auditLastFailure (beNat ((s.fa.journal.getLast?.map JEntry.bytes).getD []))
    fatalPath 5 s.store

/-- CONSERVATION_AUDIT (R483): at an action point, every `audit.interval` picks; the first failure ends it. -/
def execConservationAudit (t : Nat) (s : State) : Host.Outcome State Fault Refusal :=
  run (.conservationAudit t) t s fun s =>
    let dueNow := match s.fa.lastAudit with
      | none => s.pk.lastAct.isSome
      | some p => decide (p + s.reg Dict.auditInterval ≤ s.pk.current)
    s.when dueNow fun s =>
      let s := { s with fa := { s.fa with lastAudit := some s.pk.current } }
      s.each [1, 2, 3, 4, 5] fun law s => s.when s.live fun s => s.auditLaw law

/-! ## Tracker timeouts (R237) -/

/-- The operation that holds a tracker slot fails: a move's source stays home; a remote operation ends with TRANSPORT_ABORT. -/
def State.failTracked (s : State) (c op : Nat) : State :=
  match s.tm.moves.find? fun m => m.started && m.slot == op && decide (s.moverOf m = c) with
  | some m => ((s.failMove m).remove m).ckptAdvance
  | none =>
    match s.se.subs.find? fun u => u.chan == c && u.slot == op && u.res.isNone with
    | some u =>
      match s.drun u.d u.id with
      | some r => s.endSelect u.d { r with a := 0, b := 0 } stAbort
      | none => s.freeSlot c op
    | none =>
      match s.sl.flows.findSome? fun e => (e.2.ops.find? fun o => o.trk == some (c, op)).map fun o => (e.1, o) with
      | some (f, o) => (s.dropOp f o).inputRead o.what none stAbort
      | none => s.freeSlot c op

/-- TRACKER_OP_TIMEOUT (R237). -/
def execTrackerOpTimeout (t c op : Nat) (s : State) : Host.Outcome State Fault Refusal :=
  run (.trackerOpTimeout t c op) t s fun s =>
    match (s.tracks c).find? fun x => x.slot == op with
    | none => s
    | some x =>
      if x.since + 1000000 * s.reg Dict.fabricOpTimeout ≤ s.now then
        let s := (s.inc Dict.fabricOpTimeoutCount 1 0 c).ev 0x013 (some c) 1 op
        let s := (s.journal 1 c 0x013 0xFFFF op [c, x.cls]).notify 0x1102 [c, x.cls]
        s.failTracked c op
      else s

end Sys2Proof.Machine
end

