-- ==== Sys2Proof/Machine/Links.lean ====
section
/-! DEFINITION. Links, ports and members (spec/14, R411-R415, R437-R441; spec/13, R371; spec/16, R481): training, failures, stops, the loss of a peer, and what the
membership entries do. -/

namespace Sys2Proof.Machine

open Sys2Proof

/-! ## Ports (R371) -/

/-- PORT_LINK_UP (R371): the port's training ends. -/
def execPortLinkUp (t : Nat) (p : Nat) (s : State) : Host.Outcome State Fault Refusal :=
  run (.portLinkUp t p) t s (fnStarted (.port p))

/-- PORT_ALIGNMENT_LOSS (R371): a port in ON retrains; its pending slot is kept. -/
def execPortAlignmentLoss (t : Nat) (p : Nat) (s : State) : Host.Outcome State Fault Refusal :=
  run (.portAlignmentLoss t p) t s fun s =>
    if s.isOn (.port p) then
      let s := s.setFn (.port p) { s.fn (.port p) with st := .starting }
      portNote p 2 1 (portOff p ((s.inc Dict.ethLinkDownCount).ev 0x198 none 1 p))
    else s

/-! ## Links (R411-R415) -/

/-- A link's training fails with a code (R414, R33). -/
def trainFail (n code : Nat) (s : State) : State :=
  if (s.fn (.link n)).st = .starting then
    let s := s.setLink n { s.link n with failCode := code }
    fnFailed (.link n) ((s.inc Dict.dnxTrainingFailCount).notify 0x0703 [n, code])
  else s

/-- The reason for which a training block is refused (R414): the first row that matches, 0 where none does. -/
def State.trainCode (s : State) (b : TrainBlk) : Nat :=
  let vmax := s.reg Dict.verDernyxMax
  if Nat.min vmax b.vmax < Nat.max 1 b.vmin then 3
  else if b.warp ≠ s.reg Dict.warpId then 4
  else if b.identity ≠ s.memberDigest b.device ∨ s.peerState b.device = 3 then 5
  else if b.identity = ownDigest then 6
  else if 500 < b.delay then 7
  else 0

/-- LINK_TRAINING_COMPLETE (R413-R415): the block is checked; the link records its peer and the delay, and enters ON. -/
def execLinkTrainingComplete (t : Nat) (n : Nat) (b : TrainBlk) (s : State) : Host.Outcome State Fault Refusal :=
  run (.linkTrainingComplete t n b) t s fun s =>
    if (s.fn (.link n)).st = .starting then
      let code := s.trainCode b
      if code = 0 then
        let l := { (s.link n).fresh with delay := b.delay, peerDev := b.device, peerLink := b.link, version := Nat.min (s.reg Dict.verDernyxMax) b.vmax, failCode := 0, peerId := b.identity / 2 ^ 192 }
        settle (fnStarted (.link n) (s.setLink n l))
      else trainFail n code s
    else s

/-- LINK_TRAINING_FAIL (R414): LANE or SKEW, before training blocks are exchanged. -/
def execLinkTrainingFail (t : Nat) (n code : Nat) (s : State) : Host.Outcome State Fault Refusal :=
  run (.linkTrainingFail t n code) t s (trainFail n code)

/-- LINK_FAILURE (R412): the link goes down as a whole and retrains; its pending slot is kept.  A failure for replays needs
`dnx.replay_limit` of them without progress. -/
def execLinkFailure (t : Nat) (n : Nat) (replay : Bool) (s : State) : Host.Outcome State Fault Refusal :=
  run (.linkFailure t n replay) t s fun s =>
    if s.isOn (.link n) ∧ (replay = false ∨ s.reg Dict.dnxReplayLimit ≤ (s.link n).idle) then
      let s := (s.inc Dict.dnxLinkDownCount).ev 0x1C8 none 1 n
      linkStarting n 2 (s.setFn (.link n) { s.fn (.link n) with st := .starting })
    else s

/-- STOPPING (R411): the peer stops the link, and this end goes OFF without fault, as though it had been requested. -/
def execStopping (t : Nat) (via : Via) (s : State) : Host.Outcome State Fault Refusal :=
  run (.stopping t via) t s fun s => s.when (s.isOn (.link via.link)) fun s => if via.minVersion ≤ 1 then reqOff 4 false (.link via.link) s else s.badMsg

/-! ## The loss of a peer (R434, R438, R481) -/

/-- COMMANDs to a device end on this device (R434): each descriptor with BAD_STATE, NO_HOME and FORWARDED; how many sessions of each domain they named. -/
def State.failForwards (s : State) (dev : Nat) : List (Nat × Nat) × State :=
  let mine := s.dx.fwd.filter fun f => f.home == dev
  let s : State := { s with dx := { s.dx with fwd := s.dx.fwd.filter fun f => f.home != dev } }
  let s := s.each mine fun f s => s.each f.ds fun d s => s.failDesc { d := d, dom := f.dom } stBad (flNoHome + flForwarded)
  let doms := (mine.map (·.dom)).eraseDups
  (doms.map fun d => (d, (((mine.filter fun f => f.dom == d).flatMap (·.ds)).map (·.session)).eraseDups.length), s.pumpForward)

/-- What a device's departure ends here (R232, R343, R434, R439, R455, R481). -/
def State.peerGone (s : State) (dev : Nat) : State :=
  let s := s.each ((List.range 48).filter fun n => s.isOn (.link n) && decide ((s.link n).peerDev = dev)) fun n s => reqOff 4 false (.link n) s
  let (lost, s) := s.failForwards dev
  let s : State := { s with dx := { s.dx with early := s.dx.early.filter fun (e : Nat × Nat × Nat × List Desc) => e.1 != dev, waiting := s.dx.waiting.filter fun (m : DMsg) => m.dst != dev } }
  let s := selectsLose dev (stageLost dev (migrationsLose dev s))
  let (held, s) := s.freeStage fun h _ => decide (h / 2 ^ 42 % 64 = dev)
  let doms := (lost ++ held).map (·.1) |>.eraseDups
  s.each doms fun d s => s.lossRecord d (sumOf (fun e => if e.1 = d then e.2 else 0) (lost ++ held)) (lossField 0xFF dev 1)

/-- A device enters LOST (R438, R481): 0 timeout, 1 FATAL. -/
def peerLost (dev cause : Nat) (s : State) : State :=
  if dev = s.device ∨ s.peerState dev ≠ 2 then s
  else
    let s := s.setPeer dev { s.peer dev with st := 3 }
    let s := (s.inc Dict.warpPeerLostCount).ev 0x1D1 none 1 dev
    let s := (s.journal 1 0xFF 0x1D1 0xFFFF dev [dev, cause]).notify 0x0702 [dev, cause]
    settle (ckptPeerLost dev (s.peerGone dev))

/-- PEER_TIMEOUT (R438). -/
def execPeerTimeout (t : Nat) (dev : Nat) (s : State) : Host.Outcome State Fault Refusal :=
  run (.peerTimeout t dev) t s fun s => if (s.peer dev).heard + 1000 * s.reg Dict.warpPeerTimeout ≤ s.now then peerLost dev 0 s else s

/-- FATAL_MESSAGE (R438, R478). -/
def execFatalMessage (t : Nat) (via : Via) (src reason pick : Nat) (s : State) : Host.Outcome State Fault Refusal :=
  run (.fatalMessage t via src reason pick) t s fun s => s.ctlArrive via.link src (peerLost src 1) via.minVersion

/-- COMMAND_ACK (R432). -/
def execCommandAck (t : Nat) (e : DEnv) (s : State) : Host.Outcome State Fault Refusal :=
  run (.commandAck t e) t s fun s => s.arrive e true fun s =>
    settle (State.pumpForward { s with dx := { s.dx with fwd := s.dx.fwd.filter fun f => !(f.home == e.src && f.id == e.mid) } })

/-- ACTIVATION_ACK (R437). -/
def execActivationAck (t : Nat) (e : DEnv) (s : State) : Host.Outcome State Fault Refusal :=
  run (.activationAck t e) t s fun s => s.arrive e true fun s =>
    settle { s with dx := { s.dx with acts := s.dx.acts.filter fun a => !(a.mid == e.mid && a.dst == e.src) } }

/-! ## Membership and routes, as written (R427, R428, R439, R440) -/

/-- The content check of `warp.member_table` (R439). -/
def State.memberOk (s : State) (v : Nat) : Bool :=
  let e (i : Nat) : Nat := beField 2048 v (32 * i) 32
  let es := (List.range 64).map e
  decide (e s.device = ownDigest) && (List.range 64).all (fun i => s.memberDigest i == 0 || e i == 0 || s.memberDigest i == e i) &&
  decide ((es.filter (· != 0)).eraseDups.length = es.countP (· != 0))

/-- A write of `warp.member_table` (R438, R439): a cleared entry makes its device leave; a written one is UNREACHED, and both forward sequences start again (R431). -/
def memberApply (v : Nat) (s : State) : State :=
  let was := s.reg Dict.warpMemberTable
  let at_ (x i : Nat) : Nat := beField 2048 x (32 * i) 32
  let changed := (List.range 64).filter fun i => at_ was i != at_ v i && i != s.device
  let gone := changed.filter fun i => decide (at_ v i = 0)
  let left := gone.filter fun i => s.present i
  let s := s.setReg Dict.warpMemberTable v
  let s := s.each left fun i s => s.peerGone i
  let s := s.each changed fun i s => s.setPeer i (if at_ v i = 0 then {} else { st := 1 })
  settle s

/-- R428: 0 the route may be written, 1 RANGE, 2 STATE.  A set's reserved bytes are ignored (R10). -/
def State.routeCheck (s : State) (dst v : Nat) : Nat :=
  let set (i : Nat) : Nat × Nat × Nat := (beField 64 v (16 * i) 8, beField 64 v (16 * i + 8) 1, beField 64 v (16 * i + 10) 2)
  let used := (List.range 4).filter fun i => decide (0 < (set i).2.1)
  let form := used.all (fun i => decide ((set i).1 ≠ 0) && decide ((set i).1 < 2 ^ 48) && (decide ((set i).2.2 = 0xFFFF) || decide ((set i).2.2 < 4096))) &&
    (decide (dst ≠ s.device) || decide (v = 0))
  let sealedTo (d n : Nat) : Bool := s.sealed (n / 12) && decide (s.reg Dict.sealDomain (n / 12) = d)
  let bad := used.any fun i =>
    (List.range 48).any fun n => bit (set i).1 n && (if (set i).2.2 = 0xFFFF then s.sealed (n / 12) else s.sealed (n / 12) && !sealedTo (set i).2.2 n)
  if form = false then 1 else if bad then 2 else 0

end Sys2Proof.Machine
end

