-- ==== Sys2Proof/Machine/Reset.lean ====
section
/-! DEFINITION. Boot and reset (spec/01, R37-R45; spec/03, R97; spec/04, R107-R111), and the drain's steps (R40-R42). -/

namespace Sys2Proof.Machine

open Sys2Proof

/-! ## Boot (R97, R107, R110, R111, R121, R384) -/

/-- The writable entries that `dict.restore_defaults` does not cover (R97). -/
def keptAddrs : List Nat :=
  [Dict.roleSecretObserver.addr, Dict.roleSecretOperator.addr, Dict.roleSecretFabric.addr, Dict.roleSecretCustodian.addr, Dict.pickMsgKey.addr]

/-- An entry that software can write. -/
def Entry.writable (e : Entry) : Bool :=
  match e.acc with
  | .rw => true
  | .rws => true
  | .wo => true
  | _ => false

/-- Stored values marked for replacement take their defaults (R97), and the flow records with them: they are what `slaisk.flow_config` stores. -/
def restoreDefaults (s : State) : State :=
  if s.nv.restoreMark then
    let marked (a : Nat) : Bool := !keptAddrs.contains a && Dict.table.any fun e => e.writable && decide (e.addr ≤ a) && decide (a < e.addr + e.span)
    ({ s with nv := { s.nv with restoreMark := false, flows := [] }, regs := s.regs.filter fun e => !marked (e.1 / 4096) }).store
  else s

/-- A slot's image verifies (R106). -/
def State.fwVerifies (s : State) (i : Nat) : Bool :=
  match s.fwSlot i with
  | some x => x.ok && decide (s.nv.fusedSvn ≤ x.svn)
  | none => false

/-- The image of a slot runs. -/
def State.runFirmware (s : State) (i : Nat) : State := { s with sc := { s.sc with running := some i } }

/-- The boot ROM's choice of image, with the trial rule (R107). -/
def chooseFirmware (s : State) : State :=
  let pref := s.reg Dict.secFwPreferred
  let conf := s.nv.fwConfirmed
  match [pref, 1 - pref].find? fun i => s.fwVerifies i with
  | none => s
  | some i =>
    if i = conf then s.runFirmware i
    else if s.nv.fwTrials < 3 then
      (({ s with nv := { s.nv with fwTrials := s.nv.fwTrials + 1 } }).store).runFirmware i
    else
      let s := (({ s with nv := { s.nv with fwTrials := 0 } }).setReg Dict.secFwPreferred conf).store
      let s := (s.journal 1 0xFF 0 0xFFFF 0 [i]).notify 0x0502 [i]
      if s.fwVerifies conf then s.runFirmware conf else s

/-- At boot the signature index starts at the stored end, and what the close record says was skipped is counted (R110, R111); a fall below the low-water mark
is reported (R113). -/
def bootIndex (s : State) : State :=
  let e := s.nv.sigEnd
  let s : State := { s with sc := { s.sc with n := e, reserving := true } }
  match s.nv.sigClose with
  | some (e', n) => if e' = e then ((s.inc Dict.secXmssSkipped (e - n)).store).lowCheck (2 ^ 40 - n) else (s.inc Dict.secXmssUnclosedCount).store
  | none => (s.inc Dict.secXmssUnclosedCount).store

/-- What the store gives the volatile state back: Welrid's UDP port (R102), the pick floor (R54), domain keys (R121), counters (R126, R170, R425), flow records (R384), and the journal's
saved copy (R470). -/
def bootState (s : State) : State :=
  let doms : Tbl DomSec := s.nv.keys.map fun (e : Nat × Nat × Nat) => (e.1, { root := Config.dukWrap.symm e.2.1, epoch := e.2.2, active := e.2.2 })
  let flows : Tbl Flow := s.nv.flows.map fun (e : Nat × FlowCfg) => (e.1, { st := 1, cfg := e.2 })
  let groups : Tbl Nat := (s.regs.filter fun e => decide (e.1 / 4096 = Dict.dsecTileGroups.addr)).map fun e => (e.1 % 4096, e.2)
  { s with wr := { s.wr with udp := s.reg Dict.welridUdpPort }, pw := { s.pw with pkg := .boot }, pk := { s.pk with current := s.nv.floor }, nv := { s.nv with jsaved := s.nv.jcopy }, tm := { s.tm with vers := s.nv.versionEnd }, sc := { s.sc with doms := doms, nonces := s.nv.nonceEnd }, dx := { s.dx with counter := s.nv.msgEnd }, sl := { s.sl with flows := flows }, sv := { s.sv with groups := groups } }

/-- The entry to BOOT (R37, R107): where an image runs, it starts the Ethernet block; where none verifies the package stays in BOOT (R39). -/
def bootStart (s : State) : State :=
  let s := bootIndex (chooseFirmware (bootState (restoreDefaults s)))
  s.when s.sc.running.isSome (beginStart (.dom 76))

/-- The running image is confirmed, and the trial count cleared (R107). -/
def confirmFirmware (s : State) : State :=
  match s.sc.running with
  | some i => ({ s with nv := { s.nv with fwConfirmed := i, fwTrials := 0 } }).store
  | none => s

/-- Bring-up (R38): the channel service domains, through their PHY pairs, with their children as they reach ON, and the link groups. -/
def bringup (s : State) : State :=
  let s : State := { s with pw := { s.pw with bringup := true } }
  s.each [16, 34, 52, 70, 72, 73, 74, 75] fun n s => tryOn (.dom n) s

/-- A cold reset asked for through `package.reset` (R45, R111, R470). -/
def coldReset (s : State) : State := bootStart (unpowered (closeIndex s.copyJournal))

/-! ## The drain (R40-R42) -/

/-- DRAINING begins (R40): sessions meet their boundary, and the moves of step 3 begin. -/
def enterDrain (s : State) : State :=
  let s := s.setPkg .draining
  settle { s with pw := { s.pw with drainStep := 2, drainAt := s.now, drainSkip := false, drainCancel := false, drainNext := [], drainExp := [], drainBad := [], drainReported := false } }

/-- The rest of the moves is skipped (R41): from step 3 the drain goes on with step 4, from step 2 once the steps that run have ended. -/
def skipDrain (s : State) : State :=
  if s.pw.drainStep = 3 then s.drainFlush else if s.pw.drainStep = 2 then { s with pw := { s.pw with drainSkip := true } } else s

/-- REMOVE_READY ends by a written 0 (R42): the package restarts its domains. -/
def leaveRemoveReady (s : State) : State := serveIfUp (bringup (s.setPkg .managed))

/-- A write of `package.remove_request` (R40-R42), the function state rule with SERVING as ON, DRAINING as STOPPING and REMOVE_READY as OFF.  DESIGN CHOICE
(log 155): a 2 is accepted in DRAINING whether or not the timeout of R41 has been reported. -/
def removeRequest (v : Nat) (s : State) : State :=
  match s.pw.pkg, v with
  | .serving, 1 => enterDrain s
  | .managed, 1 => enterDrain s
  | .draining, 0 => { s with pw := { s.pw with drainCancel := true } }
  | .draining, 1 => { s with pw := { s.pw with drainCancel := false } }
  | .draining, 2 => skipDrain s
  | .removeReady, 0 => leaveRemoveReady s
  | _, _ => s

/-- Source 0x225 for a power domain that stops for removal (R47): one in ON or STARTING enters STOPPING on its way to OFF. -/
def noteStop (f : FnId) (s : State) : State :=
  match f with
  | .dom n => s.when (decide ((s.fn f).st = .on) || decide ((s.fn f).st = .starting)) fun s => s.ev 0x225 none 1 n
  | _ => s

/-- One channel stops for removal and is scrubbed as a seal scrubs (R40, step 5). -/
def stopChannel (c : Nat) (s : State) : State :=
  let f := FnId.dom (18 * c + 16)
  let was := s.chOn c
  let s := s.each (childrenOf f) fun x s => dropChild x (noteStop x s)
  let s := noteStop f s
  let s := s.setFn f { st := .off, pend := .none, fault := (s.fn f).fault }
  s.when was (channelLeave c 2)

/-- A domain stops for removal (R40, step 6); a link of it in ON tells its peer (R411). -/
def stopDomain (n : Nat) (s : State) : State :=
  let s := noteStop (.dom n) s
  let s := s.each (childrenOf (.dom n)) fun c s =>
    match c with
    | .link l => s.when (!s.isOff c) fun s =>
      let s := s.when (s.isOn c) (linkStopping l 2)
      linkOff l (if s.isOn c then 3 else (s.fn c).st.code) (s.setFn c { s.fn c with st := .off, pend := .none })
    | .trace => dropMonitor .trace s
    | _ => s
  s.setFn (.dom n) { s.fn (.dom n) with st := .off, pend := .none }

/-- Steps 5 and 6 of a drain (R40): the channels stop and are scrubbed, and every switched domain but the Ethernet block is OFF. -/
def stopForRemoval (s : State) : State :=
  let s := s.each (List.range 4) stopChannel
  let s := s.each [72, 73, 74, 75, 77, 78, 79] stopDomain
  { s with fa := { s.fa with sweeping := [] }, tm := { s.tm with frames := s.tm.frames.filter fun e => e.2.st == 4 } }

end Sys2Proof.Machine
end

