-- ==== Sys2Proof/Machine/Entries.lean ====
section
/-! DEFINITION. The object dictionary's entries as software meets them (spec/03; each chapter's table): finding an entry, its window's object, its range and state
rules, and what a read of it returns. -/

namespace Sys2Proof.Machine

open Sys2Proof

/-! ## Entries, types and windows (R84, R94, R95) -/

/-- The entry at an address (R101: nothing else exists), and its sub-index offset. -/
def findEntry (a : Nat) : Option (Entry × Nat) :=
  (Dict.table.find? fun e => decide (e.addr ≤ a) && decide (a < e.addr + e.span)).map fun e => (e, a - e.addr)

/-- Type codes (R84). -/
def Ty.code : Ty → Nat
  | .bool => 1
  | .u8 => 2
  | .u16 => 3
  | .u32 => 4
  | .u64 => 5
  | .i64 => 6
  | .f32 => 7
  | .octets _ => 8
  | .string => 9
  | .block _ => 10

/-- A BLOCK entry. -/
def Ty.isBlock : Ty → Bool
  | .block _ => true
  | _ => false

/-- Access class codes. -/
def Acc.code : Acc → Nat
  | .const => 0
  | .ro => 1
  | .rw => 2
  | .wo => 3
  | .rws => 4

/-- The select values of an association (R94). -/
structure Sel where
  chan : Nat := 0
  dom : Nat := 0xFFFF
  mod : Nat := 0xFF
  deriving DecidableEq, Repr

/-- The windows (spec/03, index map). -/
inductive Window3 where
  | device | channel | domain | model
  deriving DecidableEq, Repr

/-- The window an entry lies in. -/
def Entry.window (e : Entry) : Window3 :=
  let i := e.addr / 256
  if 0x1000 ≤ i ∧ i < 0x2000 then .channel else if 0x2100 ≤ i ∧ i < 0x3000 then .domain else if 0x3100 ≤ i ∧ i < 0x4000 then .model else .device

/-- Step 6 of R507 (R94, R95): NO_SELECTION, BROADCAST_READ, or 0. -/
def selCheck (e : Entry) (sel : Sel) (read : Bool) : Nat :=
  match e.window with
  | .device => 0
  | .channel => if read && decide (sel.chan = 0xFF) then 0x08 else 0
  | .domain => if sel.dom = 0xFFFF then 0x07 else 0
  | .model => if sel.mod = 0xFF then 0x07 else 0

/-- The window objects an access is for; all four channels with `channel.select` 0xFF (R95). -/
def targets (e : Entry) (sel : Sel) : List Nat :=
  match e.window with
  | .device => [0]
  | .channel => if sel.chan = 0xFF then [0, 1, 2, 3] else [sel.chan]
  | .domain => [sel.dom]
  | .model => [sel.mod]

/-- Whether an address is this entry's. -/
def Entry.is (e x : Entry) : Bool := decide (e.addr = x.addr)

/-- Whether an entry is one of a list. -/
def Entry.isIn (e : Entry) (l : List Entry) : Bool := l.any fun x => e.is x

/-! ## Event selectors (R493, R500) -/

/-- Event sources that a chapter's table gives an event (R489). -/
def sourceRanges : List (Nat × Nat) :=
  [(0x000, 0x019), (0x040, 0x053), (0x080, 0x090), (0x0C0, 0x0D1), (0x100, 0x113), (0x140, 0x14B), (0x160, 0x16D), (0x180, 0x19B), (0x1C0, 0x1D1),
   (0x200, 0x20E), (0x220, 0x229), (0x230, 0x238), (0x240, 0x24D), (0x250, 0x265)]

/-- A source that is not reserved. -/
def sourceKnown (n : Nat) : Bool := sourceRanges.any fun r => decide (r.1 ≤ n) && decide (n ≤ r.2)

/-- A session handle that is not malformed (R139). -/
def handleWellFormed (h : Nat) : Bool := decide (h / 2 ^ 48 ≠ 0) && decide (h % 2 ^ 22 = 0)

/-- The checks that counters and selectors share (R493): source, flags, domain and session. -/
def selectorOk (hub : Bool) (src flags dom sess : Nat) : Bool :=
  sourceKnown src && !bit flags 4 && decide (dom < 4096) && (hub || !hubSource src) && (hub || decide (flags % 16 = 0)) && (!bit flags 5 || handleWellFormed sess)

/-- A counter's configuration may be written (R493). -/
def monOk (hub : Bool) (v : Nat) : Bool :=
  let f (o n : Nat) : Nat := beField 24 v o n
  decide (f 0 2 < 1024) && selectorOk hub (f 0 2) (f 3 1) (f 4 2) (f 16 8) && decide (f 2 1 ≤ 2) && decide (f 6 2 = 0) && decide (f 12 4 = 0) &&
  (decide (f 2 1 = 0) || (decide (1 ≤ f 8 4) && decide (f 8 4 ≤ 1048576)))

/-- Trace selectors may be written (R500): each enabled one is checked. -/
def traceOk (v : Nat) : Bool :=
  (List.range 8).all fun i =>
    let f (o n : Nat) : Nat := beField 128 v (16 * i + o) n
    !bit (f 0 2) 15 || (decide (bits (f 0 2) 14 10 = 0) && selectorOk true (bits (f 0 2) 9 0) (f 2 1) (f 4 2) (f 8 8) && !bit (f 2 1) 7 && decide (f 3 1 = 0) && decide (f 6 2 = 0))

/-! ## Ranges (R507, step 7) -/

/-- A value is in a range that the table gives alone. -/
def Rng.holds (r : Rng) (v : Nat) : Bool :=
  match r with
  | .any => true
  | .between lo hi => decide (lo ≤ v) && decide (v ≤ hi)
  | .upToOr hi o => decide (v ≤ hi) || decide (v = o)
  | .multiple n => decide (v % n = 0)
  | .pow2 lo hi => decide (lo ≤ v) && decide (v ≤ hi) && decide (2 ^ v.log2 = v)
  | .nonzero => decide (v ≠ 0)
  | .special => true

/-- Three shares of sixteen, each 1 to 14 (R188's entries). -/
def sharesOk (v : Nat) : Bool :=
  let f (i : Nat) : Nat := beField 3 v i 1
  decide (f 0 + f 1 + f 2 = 16) && [f 0, f 1, f 2].all fun x => decide (1 ≤ x) && decide (x ≤ 14)

/-- The three tracker caps of a channel, one of them replaced (R236). -/
def State.capsOk (s : State) (c cls v : Nat) : Bool := decide (sumOf (fun i => if i = cls then v else s.trackCap c i) [0, 1, 2] ≤ 4096)

/-- A flow number that is none, or not a configured flow of another domain. -/
def State.flowOf (s : State) (f d : Nat) : Bool := decide (f = 0xFFFF) || decide ((s.flow f).st = 0) || decide ((s.flow f).cfg.dom = d)

/-- Ranges that depend on other state, by entry (each owning chapter's table). -/
def State.specialRange (s : State) (e : Entry) (i v : Nat) : Bool :=
  if e.is Dict.pickNextNumber then decide (s.pk.current < v) && decide (v ≤ s.pk.current + 2 ^ 40)
  else if e.is Dict.pickBarrierAt then decide (s.pk.current + 2 ≤ v)
  else if e.is Dict.tierNearLowWater then decide (v ≤ 262144)
  else if e.is Dict.tierNearHighWater then decide (s.reg Dict.tierNearLowWater 0 i ≤ v) && decide (v ≤ 524288)
  else if e.is Dict.tierDeepLowWater then decide (v ≤ 1048576)
  else if e.is Dict.tierDeepHighWater then decide (s.reg Dict.tierDeepLowWater 0 i ≤ v) && decide (v ≤ 2097152)
  else if e.is Dict.tierShareNear || e.is Dict.tierShareDeep then sharesOk v
  else if e.is Dict.dtierNearCap then decide (s.reg Dict.dtierNearFloor 0 i ≤ v)
  else if e.is Dict.dtierDeepCap then decide (s.reg Dict.dtierDeepFloor 0 i ≤ v)
  else if e.is Dict.tierMoverSlots then s.capsOk i 0 v
  else if e.is Dict.fabricSlotsStep then decide (64 ≤ v) && decide (v ≤ 3968) && s.capsOk i 1 v
  else if e.is Dict.fabricSlotsRemote then decide (64 ≤ v) && decide (v ≤ 3968) && s.capsOk i 2 v
  else if e.is Dict.modelStageMap then (List.range 64).all fun k => decide (beField 64 v k 1 < 64) || decide (beField 64 v k 1 = 0xFF)
  else if e.is Dict.stepChunkTokens then decide (16 ≤ v) && decide (v ≤ 4096) && decide (v % 16 = 0)
  else if e.is Dict.ethIpv4 then decide (beField 12 v 8 1 ≤ 32) && decide (beField 12 v 9 3 = 0)
  else if e.is Dict.ethIpv6 then decide (beField 36 v 32 1 ≤ 128) && decide (beField 36 v 33 3 = 0)
  else if e.is Dict.ethPfcXoff then decide (256 ≤ v) && decide (v ≤ 4096)
  else if e.is Dict.ethPfcXon then decide (64 ≤ v) && decide (v < s.reg Dict.ethPfcXoff)
  else if e.is Dict.warpDeviceIndex then decide (v < 64)
  else if e.is Dict.warpTreeChildren || e.is Dict.dnxLinkEnable then decide (v < 2 ^ 48)
  else if e.is Dict.warpHeartbeatInterval then decide (10 ≤ v) && decide (v ≤ 10000)
  else if e.is Dict.warpPeerTimeout then decide (10 * s.reg Dict.warpHeartbeatInterval ≤ v) && decide (v ≤ 1000000)
  else if e.is Dict.ckptFlow then s.flowOf v (s.reg Dict.ckptDomain)
  else if e.is Dict.dsessExportFlow then s.flowOf v i
  else if e.is Dict.monConfig then monOk true v
  else if e.is Dict.chmonConfig then monOk false v
  else if e.is Dict.traceConfig then traceOk v
  else if e.is Dict.traceStopPick then decide (v = 0) || decide (s.pk.current < v)
  else if e.is Dict.secFwSvnCommit then decide (s.nv.fusedSvn < v) && decide (v ≤ ((s.sc.running.bind fun i => s.fwSlot i).map (·.svn)).getD 0)
  else if e.is Dict.dsecTrafficProtect then decide (v = 1) || decide (s.reg Dict.dsecClass 0 i = 0)
  else true

/-- Step 7 of R507. -/
def State.rangeOk (s : State) (e : Entry) (sub i v : Nat) : Bool :=
  (e.ty != .bool || decide (v ≤ 1)) && e.rng.holds v && s.specialRange e i v && (!e.is Dict.warpRoute || s.routeCheck sub v != 1)

/-! ## State rules (R507, step 8) -/

/-- The function that an RWS entry governs is OFF (R83; R137, R241, R407, R440, R493, R500). -/
def State.rwsOff (s : State) (e : Entry) (sub i : Nat) : Bool :=
  if e.is Dict.sealDomain then s.isOff (.seal sub)
  else if e.is Dict.modelStageMap then decide ((s.model i).st = 0)
  else if e.isIn [Dict.ethMode, Dict.ethMtu, Dict.ethAutoneg, Dict.ethVlanMode] then s.isOff (.port sub)
  else if e.is Dict.warpId || e.is Dict.warpDeviceIndex then [72, 73, 74, 75].all fun n => s.isOff (.dom n)
  else if e.is Dict.monConfig then s.isOff (.hubMon sub)
  else if e.is Dict.chmonConfig then s.isOff (.chMon i sub)
  else if e.is Dict.traceConfig || e.is Dict.traceMode then s.isOff .trace
  else s.isOff (.dom (18 * i + 16))

/-- A seal that is not OFF names the domain (R128, R136). -/
def State.sealedTo (s : State) (d : Nat) : Bool := (List.range 4).any fun c => !s.isOff (.seal c) && decide (s.reg Dict.sealDomain c = d)

/-- The sealing domain holds an entry other than FREE on the channel (R135). -/
def State.sealHeld (s : State) (c : Nat) : Bool :=
  s.ss.tbl.any fun e => decide (chOf e.1 = c) && decide (e.2.st ≠ .free) && decide (e.2.dom = s.reg Dict.sealDomain c)

/-- A domain's tile groups may be written (R129). -/
def State.tileGroupsMay (s : State) (d v : Nat) : Bool :=
  decide (s.reg Dict.dsecClass 0 d = 1) &&
  (s.regs.all fun e => decide (e.1 / 4096 ≠ Dict.dsecTileGroups.addr) || decide (e.1 % 4096 = d) || decide (e.2 &&& v = 0)) &&
  (List.range 4).all fun c => s.isOff (.seal c) || decide (bits v (16 * c + 15) (16 * c) = 0)

/-- The channels that share a pool with a domain's frames (R180). -/
def State.poolChans (s : State) (d : Nat) : List Nat :=
  if s.sealedTo d then (List.range 4).filter fun c => s.sealed c && decide (s.reg Dict.sealDomain c = d) else (List.range 4).filter fun c => !s.sealed c

/-- The floors of a tier, domain d's replaced by v, fit the tier's pool (R180). -/
def State.floorFits (s : State) (d tier v : Nat) : Bool :=
  let e := if tier = 0 then Dict.dtierNearFloor else Dict.dtierDeepFloor
  let cs := s.poolChans d
  let others := s.regs.filter fun r => decide (r.1 / 4096 = e.addr) && decide (r.1 % 4096 ≠ d) && s.poolChans (r.1 % 4096) == cs
  decide (sumOf (·.2) others + v ≤ sumOf (fun c => if s.chOn c then s.poolTotal c tier else 0) cs)

/-- A domain's slot range on channel c: base and count (R142). -/
def State.slotRange (s : State) (c d : Nat) : Nat × Nat := (s.reg Dict.dsessSlotBase c d, s.reg Dict.dsessSlotCount c d)

/-- A new range of domain d on channel c: it overlaps none of another domain, and leaves no slot of a session out (R142, R165). -/
def State.slotRangeMay (s : State) (c d base n : Nat) : Bool :=
  let doms := ((s.regs.filter fun e => decide (e.1 / 4096 = Dict.dsessSlotCount.addr + c)).map fun e => e.1 % 4096).filter (· ≠ d)
  (doms.all fun o => let r := s.slotRange c o; decide (n = 0) || decide (r.2 = 0) || decide (base + n ≤ r.1) || decide (r.1 + r.2 ≤ base)) &&
  s.ss.tbl.all fun e => decide (e.2.st = .free) || decide (e.2.dom ≠ d) || decide (chOf e.1 ≠ c) || (decide (base ≤ e.1 % 262144) && decide (e.1 % 262144 < base + n))

/-- A domain has commands that were taken and have not completed (R408). -/
def State.hasTaken (s : State) (d : Nat) : Bool :=
  decide ((s.dring d).running ≠ []) || s.ss.tbl.any fun e => decide (e.2.dom = d) && e.2.run.isSome

/-- The frames of a region of a domain, other than lost ones (R206, R509). -/
def State.regionOwned (s : State) (d region : Nat) : Nat := s.tm.far.countP fun e => decide (e.1 / 2 ^ 40 = 16 * d + region) && decide (e.2 < 10)

/-- A target may name a draft slot (R275). -/
def State.draftMay (s : State) (m v : Nat) : Bool :=
  let t := s.model m
  let x := s.model v
  decide (v = 0xFF) ||
  (decide (x.st = 2) && decide (x.dom = t.dom) && decide (x.vocab = t.vocab) && decide (x.block = t.block) && decide (t.placement ≠ 2) &&
   (t.chans.all fun c => x.chans.contains c) && decide (t.draftBase + 1048576 / Nat.max 1 t.block * x.total ≤ tokenLpn))

/-- The function and request that a request entry names. -/
def reqFn (e : Entry) (sub i : Nat) : Option FnId :=
  if e.is Dict.powerHubRequest then some (.dom (72 + sub))
  else if e.is Dict.chpowerRequest then some (.dom (18 * i + sub))
  else if e.is Dict.ethRequest then some (.port sub)
  else if e.is Dict.dnxLinkRequest then some (.link sub)
  else if e.is Dict.sealRequest then some (.seal sub)
  else if e.is Dict.monRequest then some (.hubMon sub)
  else if e.is Dict.chmonRequest then some (.chMon i sub)
  else if e.is Dict.traceRequest then some .trace else none

/-- A request is not refused (R29, R31, R132, R135, R371).  What R132 asks is asked of a request that would start the seal: in ON it is ignored, in STARTING and
STOPPING latched (R32). -/
def State.reqMay (s : State) (f : FnId) (v : Nat) : Bool :=
  (v == 0 || (reqOn f s).isSome) &&
  match f with
  | .dom n => decide (n ≠ 76) || v == 1
  | .port p => v == 1 || s.isOn (.port (1 - p))
  | .seal c => if v = 1 then !s.isOff (.seal c) || s.sealMay c else !s.sealHeld c
  | _ => true

/-- Domains with a certificate's key pending (R116). -/
def State.pendingKeys (s : State) (but : Nat) : Nat := s.sc.doms.countP fun e => decide (e.1 ≠ but) && decide (e.2.keyNo ≠ 0)

/-- Step 8 of R507: 0, or the code that refuses the write. -/
def State.stateCheck (s : State) (e : Entry) (sub i v : Nat) : Nat :=
  let rule (ok : Bool) : Nat := if ok then 0 else 0x06
  if e.acc = .rws && !s.rwsOff e sub i then 0x06
  else
    match reqFn e sub i with
    | some f => rule (s.reqMay f v)
    | none =>
      if e.is Dict.pickBarrierAt then rule s.pk.barrier.isNone
      else if e.is Dict.dsecAttestNonce then (if 64 ≤ s.pendingKeys i then 0x09 else 0)
      else if e.is Dict.dsecClass || e.is Dict.dsecKeyErase then rule (!s.domBusy i && !s.sealedTo i)
      else if e.is Dict.dsecTileGroups then rule (s.tileGroupsMay i v)
      else if e.is Dict.warpDeviceIndex then rule ((s.ss.tbl.all fun x => decide (x.2.st = .free)) && (s.fb.models.all fun x => decide (x.2.st = 0)) && s.se.colls.all fun x => decide (x.2.st = 0))
      else if e.is Dict.warpRoute then rule (s.routeCheck sub v != 2)
      else if e.isIn [Dict.dsessCompletionKey, Dict.dsessCompletionOffset, Dict.dsessCompletionEntries] then rule (decide (s.openCount i = 0))
      else if e.is Dict.dsessSlotBase then rule (s.slotRangeMay sub i v (s.slotRange sub i).2)
      else if e.is Dict.dsessSlotCount then rule (s.slotRangeMay sub i (s.slotRange sub i).1 v)
      else if e.is Dict.dtierNearFloor then rule (s.floorFits i 0 v)
      else if e.is Dict.dtierDeepFloor then rule (s.floorFits i 1 v)
      else if e.isIn [Dict.dtierFarFlow, Dict.dtierFarKey, Dict.dtierFarBase, Dict.dtierFarFrames] then rule (decide (s.regionOwned i sub = 0))
      else if e.is Dict.mstepDraftSlot then rule (s.draftMay i v)
      else if e.is Dict.slaiskWindowPool then rule (s.sl.wins.all fun w => !w.2.isOpen)
      else if e.is Dict.dslaiskIoFlow then rule (!s.hasTaken i && s.flowOf v i)
      else if e.isIn [Dict.dslaiskInputKey, Dict.dslaiskInputBase, Dict.dslaiskInputBytes, Dict.dslaiskOutputKey, Dict.dslaiskOutputBase, Dict.dslaiskOutputBytes] then rule (!s.hasTaken i)
      else if e.is Dict.dsessNotifyFlow then rule (s.flowOf v i)
      else if decide (Dict.ckptDomain.addr ≤ e.addr) && decide (e.addr ≤ Dict.ckptTimeout.addr) then rule (decide (s.ck.st = 0))
      else 0

/-! ## What a read returns (each chapter's table) -/

/-- A function's status word (R35), with the fenced bit of a tile group. -/
def State.status (s : State) (f : FnId) : Nat :=
  let fenced := match f with
    | .dom n => decide (n < 72) && decide (n % 18 < 16) && (List.range 16).any fun i => s.isFenced (n / 18) (16 * (n % 18) + i)
    | _ => false
  (s.fn f).word fenced

/-- The package and power entries. -/
def State.readPower (s : State) (e : Entry) (sub i : Nat) : Option Nat :=
  if e.is Dict.packageState then some s.pw.pkg.code
  else if e.is Dict.powerInputVoltage then some s.pw.volt
  else if e.is Dict.powerInputCurrent then some s.pw.amp
  else if e.is Dict.powerInputPower then some s.pw.powBits
  else if e.is Dict.powerThrottleLevel then some s.pw.level
  else if e.is Dict.thermalDieTemp then some (beNat s.pw.die)
  else if e.is Dict.thermalHbmTemp then some (beNat s.pw.hbm)
  else if e.is Dict.powerHubStatus then some (s.status (.dom (72 + sub)))
  else if e.is Dict.chpowerStatus then some (s.status (.dom (18 * i + sub)))
  else none

/-- `pick.state` codes (R60). -/
def PState.code : PState → Nat
  | .unset => 0
  | .synced => 1
  | .holdover => 2
  | .lost => 3

/-- The pick entries. -/
def State.readPick (s : State) (e : Entry) : Option Nat :=
  if e.is Dict.pickCurrent then some s.pk.current
  else if e.is Dict.pickState then some s.pk.st.code
  else if e.is Dict.pickLearnedPeriod then some s.pk.period
  else if e.is Dict.pickHoldoverRemaining then some s.pk.holdRem
  else if e.is Dict.pickHopDelay then some s.pk.hopDelay
  else if e.is Dict.pickFloor then some s.nv.floor
  else none

/-- A firmware slot's version; 0 when its image is invalid. -/
def State.fwVersion (s : State) (i : Nat) : Nat := if s.fwVerifies i then ((s.fwSlot i).map (·.ver)).getD 0 else 0

/-- The role secrets, in role order. -/
def roleSecrets : List Entry := [Dict.roleSecretObserver, Dict.roleSecretOperator, Dict.roleSecretFabric, Dict.roleSecretCustodian]

/-- The entries whose value is set at manufacture and not given by the spec (R102, R137, R372), but for the identity digest. -/
def setAtManufacture : List Entry := [Dict.idStepping, Dict.idSerial, Dict.verBootRom, Dict.secVendorKeyDigest, Dict.ethMac]

/-- The identity, Welrid and role entries, as an association of a role reads them. -/
def State.readWelrid (s : State) (role : Nat) (e : Entry) (sub : Nat) : Option Nat :=
  if e.is Dict.idIdentityDigest then some ownDigest
  else if e.isIn setAtManufacture then some (Config.constEntry (e.addr + sub) % 2 ^ e.ty.width)
  else if e.is Dict.verFirmwareA then some (s.fwVersion 0)
  else if e.is Dict.verFirmwareB then some (s.fwVersion 1)
  else if e.is Dict.verFirmwareActive then some (s.sc.running.getD 0)
  else if e.is Dict.welridOpenAssociations then some (s.wr.assocs.countP (·.opened))
  else if e.is Dict.welridClaimed then some (b2n s.nv.claimed)
  else if e.is Dict.welridRole then some role
  else if e.is Dict.roleEnabled then some (sumOf (fun i => if s.reg (roleSecrets.getD i Dict.roleSecretObserver) = 0 then 0 else 2 ^ i) [0, 1, 2, 3])
  else if e.is Dict.welridNotifyLast then some s.wr.nseq
  else none

/-- The security entries. -/
def State.readSec (s : State) (e : Entry) (sub i : Nat) : Option Nat :=
  if e.is Dict.secFusedSvn then some s.nv.fusedSvn
  else if e.is Dict.secFwConfirmed then some s.nv.fwConfirmed
  else if e.is Dict.secFwTrialCount then some s.nv.fwTrials
  else if e.is Dict.secXmssNext then some s.sc.n
  else if e.is Dict.secXmssReservedEnd then some s.nv.sigEnd
  else if e.is Dict.secXmssRemaining then some s.sigLeft
  else if e.is Dict.secParamsDigest then some s.paramsDigest
  else if e.is Dict.sealStatus then some (s.status (.seal sub))
  else if e.is Dict.sealScrubProgress then some (Tbl.get 0 s.sc.scrub sub)
  else if e.is Dict.dsecTrafficProtect then some (b2n (s.protects i))
  else if e.is Dict.dsecKeyState then some (b2n (s.holdsKeys i))
  else if e.is Dict.dsecEpoch then some (s.domSec i).epoch
  else if e.is Dict.dsecPrevEpochPages then some (s.prevPages i)
  else if e.is Dict.dsecAttestState then some (s.domSec i).attest
  else if e.is Dict.dsecKeyConfirm then some (s.domSec i).confirm
  else none

/-- A channel's sessions other than FREE. -/
def State.inUse (s : State) (c : Nat) : Nat := s.ss.tbl.countP fun e => decide (chOf e.1 = c) && decide (e.2.st ≠ .free)

/-- The session states, in code order. -/
def sstAll : List SSt := [.free, .admitted, .prefill, .decode, .toolwait, .parkedDeep, .condensed, .parkedFar, .reviving, .moving, .halted, .closing]

/-- The session, step and budget entries. -/
def State.readSess (s : State) (e : Entry) (i : Nat) : Option Nat :=
  if e.is Dict.sessInUse then some (s.inUse i)
  else if e.is Dict.sessStateCounts then
    some (beNat (sstAll.flatMap fun st => beBytes 4 (if st = .free then 262144 - s.inUse i else s.ss.tbl.countP fun e => decide (chOf e.1 = i) && decide (e.2.st = st))))
  else if e.is Dict.sessPinned then some (s.pinned i)
  else if e.is Dict.dsessOpenSessions then some (s.openCount i)
  else if e.is Dict.dbudgetBalance then some (ofSigned 64 (s.budget i).bal)
  else if e.is Dict.dbudgetReserved then some (s.budget i).reserved
  else if e.is Dict.dbudgetRefilled then some (s.budget i).refilled
  else if e.is Dict.dbudgetCharged then some (s.budget i).charged
  else if e.is Dict.dbudgetAdjusted then some (ofSigned 64 (s.budget i).adjusted)
  else if e.is Dict.mstepDraftLpnBase then some (if (s.model i).st = 0 then 0 else (s.model i).draftBase)
  else none

/-- The tier entries. -/
def State.readTier (s : State) (e : Entry) (i : Nat) : Option Nat :=
  if e.is Dict.tierNearFramesTotal then some (s.poolTotal i 0)
  else if e.is Dict.tierNearFramesFree then some (s.freeFrames i 0)
  else if e.is Dict.tierDeepFramesTotal then some (s.poolTotal i 1)
  else if e.is Dict.tierDeepFramesFree then some (s.freeFrames i 1)
  else if e.is Dict.tierMoverQueued then some (Nat.min 65536 (s.moverQueue i))
  else if e.is Dict.dtierNearOwned then some (s.owned i 0)
  else if e.is Dict.dtierDeepOwned then some (s.owned i 1)
  else if e.is Dict.dtierFarOwned then some (s.farOwned i)
  else none

/-- The fabric and per-model entries. -/
def State.readFabric (s : State) (e : Entry) (i : Nat) : Option Nat :=
  let m := s.model i
  if e.is Dict.fabricTilesWorking then some (s.tilesWorking i)
  else if e.is Dict.fabricPeakFp4 then some (s.peakFp4 i)
  else if e.is Dict.fabricTrackerInUse then some (beNat ([0, 1, 2].flatMap fun k => beBytes 2 ((s.tracks i).countP fun t => t.cls == k)))
  else if e.is Dict.modelState then some m.st
  else if e.is Dict.modelDomain then some m.dom
  else if e.is Dict.modelPlacement then some m.placement
  else if e.is Dict.modelChannels then some (sumOf (fun c => 2 ^ c) m.chans)
  else if e.is Dict.modelFrames then some (s.modelFrames i)
  else if e.is Dict.modelLayers then some m.layers
  else if e.is Dict.modelBlockTokens then some m.block
  else if e.is Dict.modelMeasurement then some (if m.measured then m.meas else 0)
  else if e.is Dict.modelPinnedSlots then some (s.pinnedOf i).length
  else if e.is Dict.modelStage then some m.stage
  else if e.is Dict.modelStageCount then some m.stages
  else if e.is Dict.attnStagingFrames then some (sumOf (fun x => x.2.stage.countP fun f => decide (f.2.1 = i)) s.ss.tbl)
  else if e.is Dict.mattnCairnPool then some m.pool
  else if e.is Dict.mattnKvFormat then some m.kvFmt
  else none

/-- The text, selection and search entries. -/
def State.readText (s : State) (e : Entry) (i : Nat) : Option Nat :=
  let bulk (lo hi : Nat) : Nat := sumOf (fun (b : Bulk) => if b.ch = i ∧ lo ≤ b.tag ∧ b.tag < hi then b.n else 0) s.tm.bulk
  if e.is Dict.textVocabLoaded then some (sumOf (fun v => if v.2.chans.contains i then 2 ^ v.1 else 0) s.tx.vocabs)
  else if e.is Dict.mtextVocabSlot then some (if (s.model i).st = 0 then 0xFF else ((s.vocabOf (s.model i)).map (·.1)).getD 0xFF)
  else if e.is Dict.selStagingFrames then some (bulk (2 ^ 41) (2 ^ 60))
  else if e.is Dict.searchCollections then some (s.se.colls.countP fun c => decide (c.2.st ≠ 0) && c.2.chans.contains i)
  else if e.is Dict.searchFrames then some (bulk (2 ^ 32) (2 ^ 41))
  else if e.is Dict.dsearchCollections then some (s.se.colls.countP fun c => decide (c.2.st ≠ 0) && decide (c.2.dom = i))
  else if e.is Dict.dsearchRecords then some (sumOf (fun c => if c.2.st ≠ 0 ∧ c.2.dom = i then c.2.live else 0) s.se.colls)
  else none

/-- The Ethernet, Slaisk and Dernyx entries. -/
def State.readNet (s : State) (e : Entry) (sub i : Nat) : Option Nat :=
  if e.is Dict.ethStatus then some (s.status (.port sub))
  else if e.is Dict.slaiskFlowsReady then some (s.sl.flows.countP fun f => decide (f.2.st = 1))
  else if e.is Dict.slaiskWindowsOpen then some (s.sl.wins.countP fun w => w.2.isOpen)
  else if e.is Dict.dslaiskWindowsOpen then some (s.sl.wins.countP fun w => w.2.isOpen && decide (w.2.dom = i))
  else if e.is Dict.ptpState then some (if s.reg Dict.ptpEnable = 0 then 0 else s.et.ptpSt)
  else if e.is Dict.ptpTimeAtPick then some (s.et.ptpPick * 2 ^ 64 + s.et.ptpTime % 2 ^ 64)
  else if e.is Dict.ptpOffsetNs then some (ofSigned 64 s.et.ptpOff)
  else if e.is Dict.ptpPathDelayNs then some s.et.ptpDelay
  else if e.is Dict.warpMemberState then some (beNat ((List.range 64).map fun k => s.peerState k))
  else if e.is Dict.warpPresentCount then some s.warpDevices.length
  else if e.is Dict.dnxForwardPending then some s.dx.fwd.length
  else if e.is Dict.dnxLinkStatus then some (s.status (.link sub))
  else if e.is Dict.ckptState then some s.ck.st
  else if e.is Dict.faultJournalLast then some s.fa.jseq
  else none

/-- A snapshot's 24 bytes (R496). -/
def snapBytes (x : Nat × Nat × Nat × Nat) : Nat := beNat (beBytes 8 x.1 ++ beBytes 8 x.2.1 ++ beBytes 2 x.2.2.1 ++ [x.2.2.2, 0, 0, 0, 0, 0])

/-- The monitor and trace entries. -/
def State.readMon (s : State) (e : Entry) (sub i : Nat) : Option Nat :=
  let f := if e.isIn [Dict.monStatus, Dict.monValue, Dict.monSnapshot] then FnId.hubMon sub else .chMon i sub
  if e.is Dict.monStatus || e.is Dict.chmonStatus then some (s.status f)
  else if e.is Dict.monValue || e.is Dict.chmonValue then some (s.mon f).value
  else if e.is Dict.monSnapshot || e.is Dict.chmonSnapshot then some (((s.mon f).snap.map snapBytes).getD 0)
  else if e.is Dict.traceStatus then some (s.status .trace)
  else if e.is Dict.traceCount then some s.mn.trace.buf.length
  else if e.is Dict.traceDropped then some s.mn.trace.dropped
  else if e.is Dict.traceFirstPick then some ((s.mn.trace.buf.head?.map (·.stamp.pick)).getD 0)
  else none

/-- The value of an entry for a window object: computed from the state it shows, else the stored one. -/
def State.readVal (s : State) (role : Nat) (sel : Sel) (e : Entry) (sub i : Nat) : Nat :=
  if e.is Dict.channelSelect then sel.chan
  else if e.is Dict.domainSelect then sel.dom
  else if e.is Dict.modelSelect then sel.mod
  else
    ([s.readPower e sub i, s.readPick e, s.readWelrid role e sub, s.readSec e sub i, s.readSess e i, s.readTier e i, s.readFabric e i, s.readText e i, s.readNet e sub i, s.readMon e sub i].findSome? id).getD (s.reg e sub i)

/-- The size of an entry's value on the wire; a STRING's is its length. -/
def Entry.size (e : Entry) : Nat :=
  match e.ty with
  | .string => (e.dflt.log2 + 8) / 8
  | .block n => n
  | t => t.width / 8

/-- The 12-byte descriptor (R85): no role reads a WO entry. -/
def Entry.describe (e : Entry) : Nat :=
  beNat ([e.ty.code, e.acc.code, if e.acc = .wo then 0 else 15, e.wr, b2n e.persist, 0, 0, 0] ++ beBytes 4 e.size)

/-! ## BLOCK contents (R92) -/

/-- A NOTIFY's body (R98). -/
def NLog.body (n : NLog) : Bytes := beBytes 4 n.seq ++ n.stamp.bytes ++ beBytes 2 n.reason ++ beBytes 4 n.addr ++ beBytes 2 n.detail.length ++ [0, 0] ++ n.detail

/-- An entry of `welrid.notify_log`: 108 bytes (R98). -/
def NLog.bytes (n : NLog) : Bytes := beBytes 2 n.body.length ++ [1, 0] ++ beBytes 4 n.count ++ (n.body ++ List.replicate 100 0).take 100

/-- A trace record: 32 bytes (R501). -/
def TRec.bytes (r : TRec) : Bytes := r.stamp.bytes ++ leBytes 2 r.src ++ [r.chan, b2n r.dropped] ++ leBytes 4 r.value ++ leBytes 8 r.obj

/-- A row of `slaisk.flow_table`. -/
def State.flowRow (s : State) (f : Nat) : Bytes :=
  let x := s.flow f
  beBytes 2 f ++ [x.st, ((x.port.map id).getD 0xFF)] ++ beBytes 4 (Tbl.get 0 s.nv.flowGens f) ++ beBytes 4 (x.tx % 2 ^ 24) ++ beBytes 4 (x.rx % 2 ^ 24)

/-- A row of `dnx.link_table`. -/
def State.linkRow (s : State) (n : Nat) : Bytes :=
  let l := s.link n
  [n, (s.fn (.link n)).st.code] ++ beBytes 2 (s.status (.link n)) ++ [l.peerDev, l.peerLink, l.version, l.failCode] ++ beBytes 4 l.delay ++ beBytes 8 l.peerId ++
  beBytes 4 l.replays ++ beBytes 4 l.crcFails ++ [0, 0, 0, 0]

/-- The content of a BLOCK entry. -/
def State.blockContent (s : State) (e : Entry) (i : Nat) : Bytes :=
  if e.is Dict.idDeviceCert then Config.deviceCert
  else if e.is Dict.welridNotifyLog then s.wr.nlog.flatMap NLog.bytes ++ List.replicate (108 * (256 - s.wr.nlog.length)) 0
  else if e.is Dict.dsecAttestCert then (((s.domSec i).cert.map Cert.der).getD [])
  else if e.is Dict.slaiskFlowTable then (List.range 65536).flatMap s.flowRow
  else if e.is Dict.dnxLinkTable then (List.range 48).flatMap s.linkRow
  else if e.is Dict.warpMemberTable then beBytes 2048 (s.reg Dict.warpMemberTable)
  else if e.is Dict.faultJournal then s.fa.journal.flatMap JEntry.bytes
  else if e.is Dict.faultJournalSaved then s.nv.jsaved.flatMap JEntry.bytes
  else if e.is Dict.traceBuffer then s.mn.trace.buf.flatMap TRec.bytes
  else []

/-- The state rule of a block read (R503): `trace.buffer` is readable while capture is OFF and domain 79 is ON. -/
def State.blockReadable (s : State) (e : Entry) : Bool := !e.is Dict.traceBuffer || (s.isOff .trace && s.isOn (.dom 79))

end Sys2Proof.Machine
end

