-- ==== Sys2Proof/Machine/Welrid.lean ====
section
/-! DEFINITION. Welrid (spec/03): admission of requests, HELLO, READ, WRITE and block transfers, and what an accepted write does (each owning chapter). -/

namespace Sys2Proof.Machine

open Sys2Proof

/-! ## Associations and replies (R73-R80, R90) -/

/-- Sends a reply to where its request came from, from the address and UDP port it came to (R72, R73). -/
def State.answer (s : State) (w : WEnv) (prot : Bool) (assoc seq : Nat) (r : WReply) : State := s.send (.welrid w.port w.src assoc seq prot r w.loc w.udp)

/-- A datagram is a Welrid message to this device: it comes to the UDP port in force on a port that is ON (R72, R102), in a frame of a VLAN in use there (R373). -/
def State.hears (s : State) (w : WEnv) : Bool := s.isOn (.port w.port) && decide (w.udp = s.wr.udp) && s.vidOk w.port w.vid

/-- An ERROR (R100); item 0xFF where it concerns no item. -/
def wErr (code : Nat) (item : Nat := 0xFF) (addr : Nat := 0) (detail : Nat := 0) : WReply := .error code item addr detail

/-- The answer to a header that this version does not read (R11), has a reserved type, or sets reserved bits (R74).  DESIGN CHOICE (log 158): ERROR VERSION for
the first. -/
def headerErr (w : WEnv) : Option WReply :=
  if 1 < w.minVersion then some (wErr 0x0A 0xFF 0 0x01010000) else if w.badType || w.resv then some (wErr 0x0B) else none

/-- Changes one association. -/
def State.setAssoc (s : State) (id : Nat) (f : Assoc → Assoc) : State :=
  { s with wr := { s.wr with assocs := s.wr.assocs.map fun a => if a.id = id then f a else a } }

/-- An association ends, with its key, select values, transfers and snapshots (R79). -/
def endAssoc (id : Nat) (s : State) : State :=
  { s with wr := { s.wr with assocs := s.wr.assocs.filter (fun a => a.id != id), snaps := s.wr.snaps.filter (fun x => x.assoc != id), xfers := s.wr.xfers.filter (fun x => x.assoc != id) } }

/-- What executing a request does: its reply, the state, and what follows the reply. -/
abbrev WAct := Assoc → State → WReply × State × (State → State)

/-- A request (R72-R75, R79, R80, R87, R90).  `free`: R80 answers it before an association is open. -/
def welridRequest (w : WEnv) (free : Bool) (act : WAct) (s : State) : State :=
  if !s.hears w then s
  else if !w.sizeOk then s.inc Dict.welridErrorCount
  else
    let go (a : Assoc) : WReply × State × (State → State) :=
      match headerErr w with
      | some r => (r, s, id)
      | none => act a s
    match s.wr.assocs.find? fun a => w.prot && a.opened && a.id == w.assoc with
    | none =>
      if !w.prot && free && w.assoc == 0 then
        let r := go { id := 0, role := 0 }
        r.2.2 (r.2.1.answer w false 0 w.seq r.1)
      else s.answer w false w.assoc w.seq (wErr 0x0D)
    | some a =>
      if !w.tagOk then s.inc Dict.welridAuthFailCount
      else
        match (if w.seq = a.q then a.kept else none) with
        | some r => (s.setAssoc a.id fun a => { a with lastReq := s.now, port := w.port, src := w.src, loc := w.loc }).answer w true a.id w.seq r
        | none =>
          if w.seq ≠ a.q + 1 then s.inc Dict.welridReplayCount
          else
            let r := go a
            let s := (r.2.1.setAssoc a.id fun a => { a with q := w.seq, kept := some r.1, lastReq := s.now, port := w.port, src := w.src, loc := w.loc }).answer w true a.id w.seq r.1
            r.2.2 (s.when (decide (w.seq = 0xFFFFFFFF)) (endAssoc a.id))

/-- An association's select values (R94). -/
def Assoc.sel (a : Assoc) : Sel := { chan := a.chanSel, dom := a.domSel, mod := a.modSel }

/-! ## READ (R85) -/

/-- An item of a READ, checked in the order of R507.  DESIGN CHOICE (log 159): a describe item's value carries the type code of OCTETS. -/
def State.readItem (s : State) (role : Nat) (sel : Sel) (it : RItem) : RVal :=
  let bad (c : Nat) : RVal := { status := c, typ := 0, len := 0, val := 0 }
  match findEntry it.addr with
  | none => bad 0x01
  | some (e, sub) =>
    if it.describe then { status := 0, typ := 8, len := 12, val := e.describe }
    else if e.acc = .wo then bad 0x02
    else if e.ty.isBlock then bad 0x04
    else if selCheck e sel true ≠ 0 then bad (selCheck e sel true)
    else { status := 0, typ := e.ty.code, len := e.size, val := s.readVal role sel e sub ((targets e sel).headD 0) % 256 ^ e.size }

/-- READ (R85, R100).  DESIGN CHOICE (log 159): an item with a reserved flag bit makes the whole message BAD_MESSAGE, with item index 0xFF. -/
def readAct (prot : Bool) (items : List RItem) : WAct := fun a s =>
  let vals := items.map (s.readItem a.role a.sel)
  if items.length = 0 ∨ 32 < items.length ∨ items.any (·.resv) = true then (wErr 0x0B, s, id)
  else if 1280 < 20 + 16 * b2n prot + sumOf (fun v => 4 + v.len) vals then (wErr 0x0C, s, id)
  else (.read vals, s, id)

/-- The index range that R80 opens. -/
def inIdentity (a : Nat) : Bool := decide (a / 256 = 0x0100)

/-! ## WRITE: its checks (R86, R95, R507) -/

/-- An item of a WRITE that carries value v of an entry. -/
def itemOf (e : Entry) (sub v : Nat) : WItem := { addr := e.addr + sub, typ := e.ty.code, len := e.size, val := v }

/-- An item's value: what its bytes hold. -/
def valueOf (it : WItem) : Nat := it.val % 256 ^ it.len

/-- The select values after an item. -/
def selAfter (sel : Sel) (it : WItem) : Sel :=
  if it.addr = Dict.channelSelect.addr then { sel with chan := valueOf it }
  else if it.addr = Dict.domainSelect.addr then { sel with dom := valueOf it }
  else if it.addr = Dict.modelSelect.addr then { sel with mod := valueOf it }
  else sel

/-- Steps 1 to 4 of R507 for a write. -/
def State.writeMay (s : State) (role : Nat) (addr : Nat) : Nat :=
  match findEntry addr with
  | none => 0x01
  | some (e, _) =>
    if s.nv.claimed = false ∧ e.is Dict.roleSecretCustodian = false then 0x0E
    else if e.writable = false then 0x02
    else if bit e.wr (role - 1) = false then 0x03
    else 0

/-- An item of a WRITE under R507: 0 or the code, and the detail (R95). -/
def State.checkItem (s : State) (role : Nat) (sel : Sel) (it : WItem) : Nat × Nat :=
  if s.writeMay role it.addr ≠ 0 then (s.writeMay role it.addr, 0)
  else
    match findEntry it.addr with
    | none => (0x01, 0)
    | some (e, sub) =>
      if e.ty.isBlock = true ∨ it.typ ≠ e.ty.code ∨ it.len ≠ e.size then (0x04, 0)
      else if selCheck e sel false ≠ 0 then (selCheck e sel false, 0)
      else
        let one (i : Nat) : Nat := if s.rangeOk e sub i (valueOf it) then s.stateCheck e sub i (valueOf it) else 0x05
        match (targets e sel).find? fun i => one i != 0 with
        | some i => (one i, if e.window = .channel ∧ sel.chan = 0xFF then i else 0)
        | none => (0, 0)

/-- The values an item gives, for the checks of the items after it (R86, R142; log 116). -/
def State.supposing (s : State) (sel : Sel) (it : WItem) : State :=
  match findEntry it.addr with
  | none => s
  | some (e, sub) => s.each (targets e sel) fun i s => s.setReg e (valueOf it) sub i

/-- The first item that fails, as an ERROR: each is checked with the select values and the values that the items before it establish. -/
def State.checkItems (role : Nat) : Nat → Sel → List WItem → State → Option WReply
  | _, _, [], _ => none
  | n, sel, it :: rest, s =>
    let r := s.checkItem role sel it
    if r.1 ≠ 0 then some (wErr r.1 n it.addr r.2) else State.checkItems role (n + 1) (selAfter sel it) rest (s.supposing sel it)

/-- An accepted item makes the store hold a value. -/
def persists (it : WItem) : Bool :=
  match findEntry it.addr with
  | none => false
  | some (e, _) => e.persist || e.isIn [Dict.secFwConfirm, Dict.secFwSvnCommit, Dict.dsecKeyErase, Dict.dictRestoreDefaults]

/-! ## WRITE: its effects -/

/-- `dsess.notify_flow` (R157): 0xFFFF discards the waiting notifications; another flow carries them, in order. -/
def notifyFlow (d v : Nat) (s : State) : State :=
  let q := s.cq d
  let held := (q.held.filter fun h => !h.notif).map fun h => { h with wantsNotif := false }
  (if v = 0xFFFF then s.setCq d { q with held := held, flushing := [] } else s).release d

/-- `mstep.draft_slot` (R275, R276): draft pages written for another draft slot are stale. -/
def draftSlot (m v : Nat) (s : State) : State :=
  if s.reg Dict.mstepDraftSlot 0 m = v then s
  else
    let ks := (s.ss.tbl.filter fun e => decide (e.2.st ≠ .free) && decide (e.2.model = m)).map (·.1)
    (s.setReg Dict.mstepDraftSlot v 0 m).each ks fun k s => s.setSess k { s.sess k with draftStale := true }

/-- `dsec.tile_groups` (R129): it takes effect at the next step boundary; at once where no step runs (log 123). -/
def tileGroups (d v : Nat) (s : State) : State :=
  let s := s.setReg Dict.dsecTileGroups v 0 d
  s.when s.sv.run.isNone applyGroups

/-- `dsec.attest_nonce` (R116, R117): the pending key is destroyed, and a certificate with a new one is asked for. -/
def attestNonce (d v : Nat) (s : State) : State :=
  let (k, s) := s.newKey
  s.setDomSec d { s.domSec d with attest := 1, nonce := v, cert := none, keyNo := k, issued := s.now }

/-- A far region written anew (R206, R509): its lost frames are forgotten. -/
def regionWrite (e : Entry) (d sub v : Nat) (s : State) : State :=
  let s := s.setReg e v sub d
  { s with tm := { s.tm with far := s.tm.far.filter fun x => decide (x.1 / 2 ^ 40 ≠ 16 * d + sub) } }

/-- A role's secret (R81, R82). -/
def roleSecret (e : Entry) (v : Nat) (s : State) : State :=
  let s := s.setReg e v
  if e.is Dict.roleSecretCustodian then { s with nv := { s.nv with claimed := true } } else s

/-- What an item writes beside or in place of its value: none where it only replaces the value. -/
def State.special (s : State) (e : Entry) (sub i v : Nat) : Option State :=
  if e.is Dict.dictRestoreDefaults then some (State.store { s with nv := { s.nv with restoreMark := true } })
  else if e.isIn roleSecrets then some (roleSecret e v s)
  else if e.is Dict.packageReset then some s
  else if e.is Dict.packageRemoveRequest then some (removeRequest v (s.setReg e v))
  else if e.is Dict.pickBarrierAt then some (startBarrier v (s.setReg e v))
  else if e.is Dict.secFwSvnCommit then some (State.store { s with nv := { s.nv with fusedSvn := Nat.max s.nv.fusedSvn v } })
  else if e.is Dict.secFwConfirm then some (confirmFirmware s)
  else if e.is Dict.dsecAttestNonce then some (attestNonce i v s)
  else if e.is Dict.dsecKeyErase then some (eraseKeys i s)
  else if e.is Dict.dsecTileGroups then some (tileGroups i v s)
  else if e.is Dict.fabricFenceClear then some (clearFences i s)
  else if e.is Dict.dbudgetAdjust then some (s.adjustTokens i (toSigned 64 v))
  else if e.is Dict.dbudgetRefill || e.is Dict.dbudgetCap then some ((s.settleBudget i).setReg e v sub i)
  else if e.is Dict.mstepDraftSlot then some (draftSlot i v s)
  else if e.is Dict.dsessNotifyFlow then some (notifyFlow i v (s.setReg e v 0 i))
  else if e.is Dict.dslaiskIoFlow then some ((s.setReg e v 0 i).release i)
  else if e.isIn [Dict.dtierFarFlow, Dict.dtierFarKey, Dict.dtierFarBase, Dict.dtierFarFrames] then some (regionWrite e i sub v s)
  else if e.is Dict.warpRoute then some ((s.setReg e v sub i).routeWaiting.passHeld)
  else if e.is Dict.ptpEnable then some { s.setReg e v with et := { s.et with ptpSt := if v = 0 then 1 else s.et.ptpSt } }
  else none

/-- Settings that work scheduled against picks reads: a new value governs from the next action point (R88, R206, R264, R289, R318, R344, R367). -/
def schedEntries : List Entry :=
  [Dict.stepPrefillCutoff, Dict.stepPrefillShare, Dict.stepChunkTokens, Dict.tierNearLowWater, Dict.tierNearHighWater, Dict.tierDeepLowWater, Dict.tierDeepHighWater,
    Dict.tierMoverSlots, Dict.mattnRetrievalThreshold, Dict.mattnSinkBlocks, Dict.mattnTailBlocks, Dict.mattnTopPages, Dict.mstepDraftTokens, Dict.dbudgetGrace,
    Dict.dbudgetSessionLimit, Dict.mtextSpecialMatch, Dict.selSelectLanes, Dict.selPartialDepth, Dict.searchMaxProbe, Dict.searchCompactQuarter, Dict.dsearchMaxCollections]

/-- An item's effect on one window object. -/
def applyOne (e : Entry) (sub v i : Nat) (s : State) : State :=
  let s := s.when (schedEntries.any e.is) fun s => s.keepSched e sub i
  let s' :=
    match reqFn e sub i with
    | some f => (request f v s).getD s
    | none => (s.special e sub i v).getD (s.setReg e v sub i)
  s'.when e.persist State.store

/-- An item's effect, on its association or on every object it is for. -/
def applyItem (aid : Nat) (sel : Sel) (it : WItem) (s : State) : State :=
  match findEntry it.addr with
  | none => s
  | some (e, sub) =>
    let v := valueOf it
    if e.is Dict.channelSelect then s.setAssoc aid fun a => { a with chanSel := v }
    else if e.is Dict.domainSelect then s.setAssoc aid fun a => { a with domSel := v }
    else if e.is Dict.modelSelect then s.setAssoc aid fun a => { a with modSel := v }
    else s.each (targets e sel) (applyOne e sub v)

/-- The items' effects, in order. -/
def applyItems (aid : Nat) : Sel → List WItem → State → State
  | _, [], s => s
  | sel, it :: rest, s => applyItems aid (selAfter sel it) rest (applyItem aid sel it s)

/-- What follows the reply: a written role secret ends its role's open associations (R79), and `package.reset` resets (R45).  DESIGN CHOICE (log 160): a HELLO
of the role in progress goes on, and its proof is checked against the new secret. -/
def afterWrite (items : List WItem) (s : State) : State :=
  let roles := [1, 2, 3, 4].filter fun r => items.any fun it => it.addr == Dict.roleSecretObserver.addr + (r - 1)
  let s := s.each (s.wr.assocs.filter fun a => a.opened && roles.contains a.role) fun a s => endAssoc a.id s
  s.when (items.any fun it => it.addr == Dict.packageReset.addr) coldReset

/-- WRITE (R86, R87, R91). -/
def writeAct (storeOk : Bool) (items : List WItem) : WAct := fun a s =>
  if items.length = 0 ∨ 32 < items.length then (wErr 0x0B, s, id)
  else
    match State.checkItems a.role 0 a.sel items s with
    | some r => (r, s, id)
    | none =>
      match (if storeOk then none else findIdx? persists items) with
      | some n => (wErr 0x11 n ((items.map (·.addr)).getD n 0), s, id)
      | none => (.write, settle (applyItems a.id a.sel items s), afterWrite items)

/-- A WRITE request. -/
def welridWrite (w : WEnv) (items : List WItem) (s : State) : State := welridRequest w false (writeAct w.storeOk items) s

/-! ## READ_BLOCK (R92) -/

/-- Checks of R507 for a READ_BLOCK: 0 or the code.  DESIGN CHOICE (log 159): a length above 1,024 is RANGE; an entry that may not be read now is STATE, before
the RANGE of a missing snapshot. -/
def State.blockMay (s : State) (sel : Sel) (addr len : Nat) : Nat :=
  match findEntry addr with
  | none => 0x01
  | some (e, _) =>
    if e.acc = .wo then 0x02 else if e.ty.isBlock = false then 0x04 else if selCheck e sel true ≠ 0 then selCheck e sel true
    else if 1024 < len then 0x05 else if s.blockReadable e = false then 0x06 else 0

/-- The snapshots that have not expired. -/
def State.liveSnaps (s : State) : List Snap := s.wr.snaps.filter fun x => decide (s.now < x.last + 10000000000)

/-- An offset-0 READ_BLOCK releases what its association holds (R92). -/
def State.dropSnap (s : State) (off : Nat) (a : Assoc) : State :=
  s.when (decide (off = 0)) fun s => { s with wr := { s.wr with snaps := s.wr.snaps.filter fun x => x.assoc != a.id } }

/-- READ_BLOCK: a snapshot at offset 0, then segments of it. -/
def readBlockAct (addr off len : Nat) : WAct := fun a s =>
  let s := s.dropSnap off a
  if s.blockMay a.sel addr len ≠ 0 then (wErr (s.blockMay a.sel addr len) 0xFF addr, s, id)
  else
    let others := s.liveSnaps.filter fun x => x.assoc != a.id
    let own := s.liveSnaps.find? fun x => x.assoc == a.id && x.addr == addr
    let snap : Option (List Snap × Bytes) :=
      if off = 0 then
        match findEntry addr with
        | some (e, _) => some (others, s.blockContent e ((targets e a.sel).headD 0))
        | none => none
      else own.map fun x => (s.liveSnaps.filter fun y => y.assoc != a.id || y.addr != addr, x.data)
    match snap with
    | none => (wErr 0x05 0xFF addr, s, id)
    | some (rest, data) =>
      if off = 0 ∧ 4 ≤ others.length then (wErr 0x09 0xFF addr, s, id)
      else if off ≠ 0 ∧ data.length ≤ off then (wErr 0x05 0xFF addr, s, id)
      else
        let keep : List Snap := if data.length ≤ off + len then [] else [{ assoc := a.id, addr := addr, data := data, last := s.now }]
        (.block addr off data.length ((data.drop off).take len), { s with wr := { s.wr with snaps := rest ++ keep } }, id)

/-! ## WRITE_BLOCK: contents (each owning chapter) -/

/-- A BLOCK's content is written: 0, or the code that refuses it. -/
abbrev BlockWrite := Bytes → State → Nat × State

/-- `sec.fw_image` (R106, R108): the slot that does not run. -/
def fwImage (storeOk : Bool) : BlockWrite := fun b s =>
  let n := leNat ((b.drop 16).take 8)
  let svn := leNat ((b.drop 4).take 4)
  let sum := leNat ((b.drop 24).take 32)
  let hdr := b.take 64
  let ok := decide (2884 ≤ b.length) && decide (be b 1 1 ≤ 1) && decide (b.length = 2884 + n) && decide (1 ≤ svn) && decide (svn ≤ 64) &&
    decide (s.nv.fusedSvn ≤ svn) && decide (leNat (beBytes 32 (Config.shake256 (b.drop 2884) 32)) = sum) && Config.fwSigOk hdr ((b.drop 64).take 2820)
  if ok = false then (0x10, s)
  else if storeOk = false then (0x11, s)
  else
    let slot : FwSlot := { svn := svn, ver := leNat ((b.drop 8).take 4), hdr := beNat hdr, ok := true }
    let nv := if s.sc.running = some 0 then { s.nv with fwB := some slot } else { s.nv with fwA := some slot }
    (0, State.store { s with nv := nv })

/-- `dsec.key_capsule` (R116, R120, R121). -/
def keyCapsule (storeOk : Bool) (d : Nat) : BlockWrite := fun b s =>
  let r := s.applyCapsule d b
  if r.1 = 0 then (if storeOk then (0, r.2) else (0x11, dropPendingKey d s))
  else (if r.1 = 1 then 0x10 else 0x06, r.2)

/-- A flow record's number, operation and fields (R382). -/
def parseFlow (b : Bytes) : Nat × Nat × FlowCfg :=
  (be b 2 2, be b 4 1,
   { ports := be b 5 1, prio := be b 6 1, ipv := be b 7 1, dom := be b 8 2, vlan := be b 10 2, rport := be b 12 2, partner := be b 14 2, addr := be b 16 16, window := be b 32 2, dscp := be b 34 1 })

/-- The content checks of R382. -/
def State.flowOk (s : State) (b : Bytes) : Bool :=
  let (f, op, c) := parseFlow b
  let partner := s.flow c.partner
  decide (b.length = 64) && decide (be b 1 1 ≤ 1) && zeroAt b 35 29 && decide (op ≤ 1) && decide (c.ports < 4) && decide (1 ≤ c.ports) && decide (c.prio ≤ 7) &&
  (decide (c.ipv = 4) || decide (c.ipv = 6)) && decide (c.dom < 4096) && decide (c.vlan ≤ 4094) && decide (1 ≤ c.rport) && (decide (c.ipv = 6) || zeroAt b 16 12) &&
  (decide (c.partner = 0xFFFF) || (decide (c.partner ≠ f) && decide (partner.st ≠ 0) && decide (partner.cfg.dom = c.dom) && decide (partner.cfg.addr = c.addr))) &&
  decide (16 ≤ c.window) && decide (c.window ≤ 8192) && decide (c.dscp ≤ 63) && decide (s.payloadLimit c ≠ 0)

/-- A per-domain entry names the flow (R384). -/
def State.flowNamed (s : State) (f : Nat) : Bool :=
  s.regs.any fun e =>
    let a := e.1 / 4096
    decide (e.2 = f) && ([Dict.dsessNotifyFlow.addr, Dict.dsessExportFlow.addr, Dict.dslaiskIoFlow.addr].contains a || (decide (Dict.dtierFarFlow.addr ≤ a) && decide (a < Dict.dtierFarFlow.addr + 16)))

/-- A flow is configured (R384). -/
def configureFlow (f : Nat) (c : FlowCfg) (s : State) : State :=
  let s := s.abortOps f
  let s := s.setFlow f { st := 1, cfg := c }
  let s := s.setFlow f { s.flow f with port := s.flowPort f }
  State.store { s with nv := { s.nv with flows := Tbl.insert s.nv.flows f c, flowGens := Tbl.put 0 s.nv.flowGens f ((Tbl.get 0 s.nv.flowGens f + 1) % 2 ^ 32) } }

/-- A flow is removed (R384). -/
def removeFlow (f : Nat) (s : State) : State :=
  let s := (s.abortOps f).setFlow f {}
  State.store { s with nv := { s.nv with flows := Tbl.erase s.nv.flows f } }

/-- `slaisk.flow_config` (R382, R384). -/
def flowConfig (storeOk : Bool) : BlockWrite := fun b s =>
  let (f, op, c) := parseFlow b
  if s.flowOk b = false then (0x10, s)
  else if s.flowNamed f then (0x06, s)
  else if storeOk = false then (0x11, s)
  else (0, settle (if op = 0 then configureFlow f c s else removeFlow f s))

/-- `warp.member_table` (R439). -/
def memberTable (storeOk : Bool) : BlockWrite := fun b s =>
  if b.length ≠ 2048 ∨ s.memberOk (beNat b) = false then (0x10, s)
  else if storeOk = false then (0x11, s)
  else (0, (memberApply (beNat b) s).store)

/-- The content of a BLOCK entry that may be written. -/
def writeContent (storeOk : Bool) (e : Entry) (i : Nat) : BlockWrite :=
  if e.is Dict.secFwImage then fwImage storeOk
  else if e.is Dict.dsecKeyCapsule then keyCapsule storeOk i
  else if e.is Dict.slaiskFlowConfig then flowConfig storeOk
  else memberTable storeOk

/-! ## WRITE_BLOCK: segments (R93) -/

/-- Checks of R507 for a WRITE_BLOCK before its segment's: 0 or the code. -/
def State.wblockMay (s : State) (role : Nat) (sel : Sel) (addr : Nat) : Nat :=
  if s.writeMay role addr ≠ 0 then s.writeMay role addr
  else
    match findEntry addr with
    | none => 0x01
    | some (e, _) => if e.ty.isBlock = false then 0x04 else selCheck e sel false

/-- A BLOCK's maximum size. -/
def Ty.maxBlock : Ty → Nat
  | .block n => n
  | _ => 0

/-- The transfers other than those of an entry's object. -/
def State.xfersBut (s : State) (addr i : Nat) : List Xfer := s.wr.xfers.filter fun x => x.addr != addr || x.scope != i

/-- A segment goes on from the bytes before it.  DESIGN CHOICE (log 161): one longer than 1,024 bytes, or of a total above the entry's maximum, is out of
order too. -/
def segmentOk (b : WBlk) (before : Nat) (max : Nat) : Bool :=
  decide (b.off = before) && decide (b.data.length ≤ 1024) && decide (b.total ≤ max) && decide (b.off + b.data.length ≤ b.total) &&
  (b.last == decide (b.off + b.data.length = b.total))

/-- WRITE_BLOCK (R93).  DESIGN CHOICE (log 161): FIRST at offset 0 from the association whose transfer is in progress starts it anew. -/
def writeBlockAct (storeOk : Bool) (b : WBlk) : WAct := fun a s =>
  let err (c : Nat) : WReply := wErr c 0xFF b.addr
  if b.resv then (err 0x0B, s, id)
  else if s.wblockMay a.role a.sel b.addr ≠ 0 then (err (s.wblockMay a.role a.sel b.addr), s, id)
  else
    match findEntry b.addr with
    | none => (err 0x01, s, id)
    | some (e, _) =>
      let i := (targets e a.sel).headD 0
      let here (x : Xfer) : Bool := x.addr == b.addr && x.scope == i
      let own := s.wr.xfers.find? fun x => here x && x.assoc == a.id
      let other := s.wr.xfers.any fun x => here x && x.assoc != a.id && decide (s.now < x.last + 10000000000)
      let drop : State := { s with wr := { s.wr with xfers := s.wr.xfers.filter fun x => !(here x && x.assoc == a.id) } }
      let before : Bytes := if b.first then [] else (own.map (·.data)).getD []
      let same := b.first || own.any fun x => x.total == b.total
      if (b.first = true ∨ own.isNone = true) ∧ other = true then (err 0x09, s, id)
      else if b.first = false ∧ own.isNone = true then (err 0x05, s, id)
      else if same = false ∨ segmentOk b before.length e.ty.maxBlock = false then (err 0x05, drop, id)
      else
        let data := before ++ b.data
        let gone : State := { s with wr := { s.wr with xfers := s.xfersBut b.addr i } }
        if b.last then
          let r := writeContent storeOk e i data gone
          (if r.1 = 0 then .wblock b.addr else err r.1, r.2, id)
        else (.wblock b.addr, { gone with wr := { gone.wr with xfers := gone.wr.xfers ++ [{ addr := b.addr, scope := i, assoc := a.id, total := b.total, data := data, last := s.now }] } }, id)

/-- A WRITE_BLOCK request. -/
def welridBlock (w : WEnv) (b : WBlk) (s : State) : State := welridRequest w false (writeBlockAct w.storeOk b) s

/-! ## HELLO (R76-R79) -/

/-- OFFERs in progress. -/
def State.hellos (s : State) : Nat := s.wr.assocs.countP fun a => !a.opened

/-- The first limit of R78 that an OFFER meets. -/
def State.offerLimit (s : State) (vmax vmin : Nat) : Option WReply :=
  if (s.wr.throttleUntil.any fun u => decide (s.now < u)) = true then some (wErr 0x09)
  else if Nat.min vmax 1 < Nat.max vmin 1 then some (wErr 0x0A 0xFF 0 (1 * 2 ^ 24 + 1 * 2 ^ 16))
  else if 32 ≤ s.wr.assocs.length then some (wErr 0x0F)
  else if 4 ≤ s.hellos then some (wErr 0x09)
  else if s.nv.sigEnd ≤ s.sc.n then some (wErr 0x09 0xFF 0 1)
  else none

/-- An OFFER that meets no limit is answered with CHALLENGE (R76, R77). -/
def challenge (w : WEnv) (vmax vmin role nonce : Nat) (s : State) : State :=
  match takeIndex s with
  | none => s
  | some (n, s) =>
    let (k, s) := s.newKey
    let cert := s.certFor n nonce 1 0 k
    let id := s.wr.nextId
    let der := cert.der
    let offer := [vmax, vmin, role, 0] ++ beBytes 32 nonce ++ [1, 0, 0, 0] ++ beBytes 4 id ++ der
    let a : Assoc := { id := id, role := role, offerAt := s.now, port := w.port, src := w.src, loc := w.loc, offer := offer, keyNo := k }
    let s : State := { s with wr := { s.wr with nextId := id % (2 ^ 32 - 1) + 1, assocs := s.wr.assocs ++ [a] } }
    (s.ev 0x240).answer w false id w.seq (.challenge 1 id der)

/-- HELLO_OFFER (R76, R78). -/
def helloOffer (w : WEnv) (vmax vmin role nonce : Nat) (s : State) : State :=
  if !s.hears w then s
  else if !w.sizeOk then s.inc Dict.welridErrorCount
  else
    match headerErr w with
    | some r => s.answer w false w.assoc w.seq r
    | none =>
      match s.offerLimit vmax vmin with
      | some r => s.answer w false 0 w.seq r
      | none => challenge w vmax vmin role nonce s

/-- A role is enabled (R81), or is CUSTODIAN's on an unclaimed device (R82). -/
def State.roleEnabled (s : State) (role : Nat) : Bool :=
  if s.nv.claimed = false then decide (role = 4) else decide (1 ≤ role) && decide (role ≤ 4) && decide (s.reg (roleSecrets.getD (role - 1) Dict.roleSecretObserver) ≠ 0)

/-- The transcript digest T, the management key and the role proof of a HELLO (R77, R118). -/
def State.helloKeys (s : State) (a : Assoc) (ct : Nat) : Nat × Nat :=
  let t := beBytes 32 (Config.shake256 (a.offer ++ beBytes 1568 ct) 32)
  let ss := beBytes 32 (Config.mlkemDecaps a.keyNo ct)
  (Config.shake256 (label "KB480-MGMT" ++ ss ++ t) 32, Config.shake256 (beBytes 32 (s.reg (roleSecrets.getD (a.role - 1) Dict.roleSecretObserver)) ++ t) 32)

/-- A failed role proof counts toward the throttle (R78). -/
def proofFailed (s : State) : State :=
  let fails := (s.now :: s.wr.fails).filter fun x => decide (s.now < x + 60000000000)
  { s with wr := { s.wr with fails := fails, throttleUntil := if 8 ≤ fails.length then some (s.now + 60000000000) else s.wr.throttleUntil } }

/-- HELLO_KEY (R77, R78). -/
def helloKey (w : WEnv) (ct proof : Nat) (s : State) : State :=
  if !s.hears w then s
  else
    match s.wr.assocs.find? fun a => a.id == w.assoc && !a.opened with
    | none => s.inc Dict.welridErrorCount
    | some a =>
      if !w.sizeOk then s.inc Dict.welridErrorCount
      else if (headerErr w).isSome then s.answer w false w.assoc w.seq ((headerErr w).getD (wErr 0x0B))
      else
        let (key, want) := s.helloKeys a ct
        if s.roleEnabled a.role && decide (proof = want) then
          let s := s.setAssoc a.id fun a => { a with opened := true, key := key, q := 0, kept := none, lastReq := s.now, port := w.port, src := w.src, loc := w.loc, offer := [], keyNo := 0 }
          s.answer w true a.id 0 (.accept a.role s.pk.current)
        else
          let s := s.when (s.roleEnabled a.role) proofFailed
          ((endAssoc a.id s).inc Dict.welridAuthFailCount).answer w false a.id w.seq (wErr 0x03)

/-- HELLO_BYE (R79): a verified BYE in sequence ends its association; nothing answers it, unless its header is refused (R74). -/
def helloBye (w : WEnv) (s : State) : State :=
  if !s.hears w then s
  else if !w.sizeOk then s.inc Dict.welridErrorCount
  else
    match s.wr.assocs.find? fun a => w.prot && a.opened && a.id == w.assoc with
    | none => s.answer w false w.assoc w.seq (wErr 0x0D)
    | some a =>
      if !w.tagOk then s.inc Dict.welridAuthFailCount
      else if w.seq ≠ a.q + 1 then s.inc Dict.welridReplayCount
      else
        match headerErr w with
        | some r => (s.setAssoc a.id fun a => { a with q := w.seq, kept := some r, lastReq := s.now, port := w.port, src := w.src, loc := w.loc }).answer w true a.id w.seq r
        | none => endAssoc a.id s

/-! ## The commands -/

/-- HELLO_OFFER (R76, R78). -/
def execHelloOffer (t : Nat) (w : WEnv) (vmax vmin role nonce : Nat) (s : State) : Host.Outcome State Fault Refusal :=
  run (.helloOffer t w vmax vmin role nonce) t s (helloOffer w vmax vmin role nonce)

/-- HELLO_KEY (R77). -/
def execHelloKey (t : Nat) (w : WEnv) (ct proof : Nat) (s : State) : Host.Outcome State Fault Refusal :=
  run (.helloKey t w ct proof) t s (helloKey w ct proof)

/-- HELLO_BYE (R79). -/
def execHelloBye (t : Nat) (w : WEnv) (reason : Nat) (s : State) : Host.Outcome State Fault Refusal :=
  run (.helloBye t w reason) t s (helloBye w)

/-- HELLO_TIMEOUT (R78): a HELLO that has not reached ACCEPT within 5 s of its OFFER is discarded, and its key with it (R116). -/
def execHelloTimeout (t assoc : Nat) (s : State) : Host.Outcome State Fault Refusal :=
  run (.helloTimeout t assoc) t s fun s =>
    s.when (s.wr.assocs.any fun a => a.id == assoc && !a.opened && decide (a.offerAt + 5000000000 ≤ s.now)) (endAssoc assoc)

/-- HELLO_THROTTLE_EXPIRE (R78). -/
def execHelloThrottleExpire (t : Nat) (s : State) : Host.Outcome State Fault Refusal :=
  run (.helloThrottleExpire t) t s fun s =>
    s.when (s.wr.throttleUntil.any fun u => decide (u ≤ s.now)) fun s => { s with wr := { s.wr with throttleUntil := none } }

/-- ASSOCIATION_IDLE_TIMEOUT (R79). -/
def execAssociationIdleTimeout (t assoc : Nat) (s : State) : Host.Outcome State Fault Refusal :=
  run (.associationIdleTimeout t assoc) t s fun s =>
    s.when (s.wr.assocs.any fun a => a.id == assoc && a.opened && decide (a.lastReq + 1000000000 * s.reg Dict.welridIdleTimeout ≤ s.now)) (endAssoc assoc)

/-- READ (R85). -/
def execRead (t : Nat) (w : WEnv) (items : List RItem) (s : State) : Host.Outcome State Fault Refusal :=
  run (.read t w items) t s (welridRequest w (items.all fun it => inIdentity it.addr) (readAct w.prot items))

/-- REGISTER_WRITE (R86). -/
def execRegisterWrite (t : Nat) (w : WEnv) (items : List WItem) (s : State) : Host.Outcome State Fault Refusal :=
  run (.registerWrite t w items) t s (welridWrite w items)

/-- READ_BLOCK (R92). -/
def execReadBlock (t : Nat) (w : WEnv) (addr off len : Nat) (s : State) : Host.Outcome State Fault Refusal :=
  run (.readBlock t w addr off len) t s (welridRequest w (inIdentity addr) (readBlockAct addr off len))

/-- WRITE_BLOCK (R93). -/
def execWriteBlock (t : Nat) (w : WEnv) (b : WBlk) (s : State) : Host.Outcome State Fault Refusal :=
  run (.writeBlock t w b) t s (welridBlock w b)

/-- SNAPSHOT_EXPIRE (R92): 10 s without a READ_BLOCK release an association's snapshot. -/
def execSnapshotExpire (t assoc : Nat) (s : State) : Host.Outcome State Fault Refusal :=
  run (.snapshotExpire t assoc) t s fun s =>
    { s with wr := { s.wr with snaps := s.wr.snaps.filter fun x => x.assoc != assoc || decide (s.now < x.last + 10000000000) } }

/-- BLOCK_TRANSFER_IDLE (R93): transfers to an entry that have been idle for 10 s hold it no longer. -/
def execBlockTransferIdle (t addr : Nat) (s : State) : Host.Outcome State Fault Refusal :=
  run (.blockTransferIdle t addr) t s fun s =>
    { s with wr := { s.wr with xfers := s.wr.xfers.filter fun x => x.addr != addr || decide (s.now < x.last + 10000000000) } }

/-- ROLE_SECRET_WRITE (R81, R82). -/
def execRoleSecretWrite (t : Nat) (w : WEnv) (role secret : Nat) (s : State) : Host.Outcome State Fault Refusal :=
  run (.roleSecretWrite t w role secret) t s (welridWrite w [itemOf (roleSecrets.getD (role - 1) Dict.roleSecretObserver) 0 secret])

/-- RESTORE_DEFAULTS (R97). -/
def execRestoreDefaults (t : Nat) (w : WEnv) (v : Nat) (s : State) : Host.Outcome State Fault Refusal :=
  run (.restoreDefaults t w v) t s (welridWrite w [itemOf Dict.dictRestoreDefaults 0 v])

end Sys2Proof.Machine
end

