-- ==== Sys2Proof/Machine/Writes.lean ====
section
/-! DEFINITION. The commands that are a WRITE of one entry, or a WRITE_BLOCK of one: each is the request that carries it (spec/03), with the checks and effects of the entry's
own chapter. -/

namespace Sys2Proof.Machine

open Sys2Proof

/-- CHPOWER_REQUEST (R29, R30, R32): domain 18c + k of the selected channel. -/
def execChpowerRequest (t : Nat) (w : WEnv) (k v : Nat) (s : State) : Host.Outcome State Fault Refusal :=
  run (.chpowerRequest t w k v) t s (welridWrite w [itemOf Dict.chpowerRequest k v])

/-- HUB_POWER_REQUEST (R31, R32): domain 72 + k. -/
def execHubPowerRequest (t : Nat) (w : WEnv) (k v : Nat) (s : State) : Host.Outcome State Fault Refusal :=
  run (.hubPowerRequest t w k v) t s (welridWrite w [itemOf Dict.powerHubRequest k v])

/-- PICK_SOURCE_WRITE (R52): the learned period, the holdover count and the current number are kept. -/
def execPickSourceWrite (t : Nat) (w : WEnv) (v : Nat) (s : State) : Host.Outcome State Fault Refusal :=
  run (.pickSourceWrite t w v) t s (welridWrite w [itemOf Dict.pickSource 0 v])

/-- BARRIER_AT_WRITE (R68). -/
def execBarrierAtWrite (t : Nat) (w : WEnv) (p : Nat) (s : State) : Host.Outcome State Fault Refusal :=
  run (.barrierAtWrite t w p) t s (welridWrite w [itemOf Dict.pickBarrierAt 0 p])

/-- FW_IMAGE_WRITE (R108): a segment of a WRITE_BLOCK to `sec.fw_image`. -/
def execFwImageWrite (t : Nat) (w : WEnv) (b : WBlk) (s : State) : Host.Outcome State Fault Refusal :=
  run (.fwImageWrite t w b) t s (welridBlock w { b with addr := Dict.secFwImage.addr })

/-- FW_SVN_COMMIT (R109). -/
def execFwSvnCommit (t : Nat) (w : WEnv) (v : Nat) (s : State) : Host.Outcome State Fault Refusal :=
  run (.fwSvnCommit t w v) t s (welridWrite w [itemOf Dict.secFwSvnCommit 0 v])

/-- FW_CONFIRM (R107). -/
def execFwConfirm (t : Nat) (w : WEnv) (v : Nat) (s : State) : Host.Outcome State Fault Refusal :=
  run (.fwConfirm t w v) t s (welridWrite w [itemOf Dict.secFwConfirm 0 v])

/-- ATTEST_NONCE_WRITE (R116, R117). -/
def execAttestNonceWrite (t : Nat) (w : WEnv) (nonce : Nat) (s : State) : Host.Outcome State Fault Refusal :=
  run (.attestNonceWrite t w nonce) t s (welridWrite w [itemOf Dict.dsecAttestNonce 0 nonce])

/-- KEY_CAPSULE_WRITE (R119-R121): a segment of a WRITE_BLOCK to `dsec.key_capsule`. -/
def execKeyCapsuleWrite (t : Nat) (w : WEnv) (b : WBlk) (s : State) : Host.Outcome State Fault Refusal :=
  run (.keyCapsuleWrite t w b) t s (welridBlock w { b with addr := Dict.dsecKeyCapsule.addr })

/-- KEY_ERASE (R123). -/
def execKeyErase (t : Nat) (w : WEnv) (v : Nat) (s : State) : Host.Outcome State Fault Refusal :=
  run (.keyErase t w v) t s (welridWrite w [itemOf Dict.dsecKeyErase 0 v])

/-- DSEC_CLASS_WRITE (R128). -/
def execDsecClassWrite (t : Nat) (w : WEnv) (v : Nat) (s : State) : Host.Outcome State Fault Refusal :=
  run (.dsecClassWrite t w v) t s (welridWrite w [itemOf Dict.dsecClass 0 v])

/-- TILE_GROUPS_WRITE (R129). -/
def execTileGroupsWrite (t : Nat) (w : WEnv) (v : Nat) (s : State) : Host.Outcome State Fault Refusal :=
  run (.tileGroupsWrite t w v) t s (welridWrite w [itemOf Dict.dsecTileGroups 0 v])

/-- SEAL_REQUEST (R132, R135). -/
def execSealRequest (t : Nat) (w : WEnv) (c v : Nat) (s : State) : Host.Outcome State Fault Refusal :=
  run (.sealRequest t w c v) t s (welridWrite w [itemOf Dict.sealRequest c v])

/-- NOTIFY_FLOW_WRITE (R157). -/
def execNotifyFlowWrite (t : Nat) (w : WEnv) (v : Nat) (s : State) : Host.Outcome State Fault Refusal :=
  run (.notifyFlowWrite t w v) t s (welridWrite w [itemOf Dict.dsessNotifyFlow 0 v])

/-- FENCE_CLEAR (R211). -/
def execFenceClear (t : Nat) (w : WEnv) (v : Nat) (s : State) : Host.Outcome State Fault Refusal :=
  run (.fenceClear t w v) t s (welridWrite w [itemOf Dict.fabricFenceClear 0 v])

/-- BUDGET_ADJUST (R285). -/
def execBudgetAdjust (t : Nat) (w : WEnv) (v : Nat) (s : State) : Host.Outcome State Fault Refusal :=
  run (.budgetAdjust t w v) t s (welridWrite w [itemOf Dict.dbudgetAdjust 0 v])

/-- DRAFT_SLOT_WRITE (R275). -/
def execDraftSlotWrite (t : Nat) (w : WEnv) (v : Nat) (s : State) : Host.Outcome State Fault Refusal :=
  run (.draftSlotWrite t w v) t s (welridWrite w [itemOf Dict.mstepDraftSlot 0 v])

/-- ETH_REQUEST (R371). -/
def execEthRequest (t : Nat) (w : WEnv) (p v : Nat) (s : State) : Host.Outcome State Fault Refusal :=
  run (.ethRequest t w p v) t s (welridWrite w [itemOf Dict.ethRequest p v])

/-- FLOW_CONFIGURE (R382, R384): a WRITE_BLOCK to `slaisk.flow_config`, whose record's op is 0. -/
def execFlowConfigure (t : Nat) (w : WEnv) (b : WBlk) (s : State) : Host.Outcome State Fault Refusal :=
  run (.flowConfigure t w b) t s (welridBlock w { b with addr := Dict.slaiskFlowConfig.addr })

/-- FLOW_REMOVE (R384): a WRITE_BLOCK to `slaisk.flow_config`, whose record's op is 1. -/
def execFlowRemove (t : Nat) (w : WEnv) (b : WBlk) (s : State) : Host.Outcome State Fault Refusal :=
  run (.flowRemove t w b) t s (welridBlock w { b with addr := Dict.slaiskFlowConfig.addr })

/-- LINK_REQUEST (R411). -/
def execLinkRequest (t : Nat) (w : WEnv) (n v : Nat) (s : State) : Host.Outcome State Fault Refusal :=
  run (.linkRequest t w n v) t s (welridWrite w [itemOf Dict.dnxLinkRequest n v])

/-- MEMBER_TABLE_WRITE (R439): a segment of a WRITE_BLOCK to `warp.member_table`. -/
def execMemberTableWrite (t : Nat) (w : WEnv) (b : WBlk) (s : State) : Host.Outcome State Fault Refusal :=
  run (.memberTableWrite t w b) t s (welridBlock w { b with addr := Dict.warpMemberTable.addr })

/-- ROUTE_WRITE (R428). -/
def execRouteWrite (t : Nat) (w : WEnv) (i v : Nat) (s : State) : Host.Outcome State Fault Refusal :=
  run (.routeWrite t w i v) t s (welridWrite w [itemOf Dict.warpRoute i v])

/-- TREE_PARENT_WRITE (R441): `warp.tree_parent` or `warp.tree_children`. -/
def execTreeParentWrite (t : Nat) (w : WEnv) (children : Bool) (v : Nat) (s : State) : Host.Outcome State Fault Refusal :=
  run (.treeParentWrite t w children v) t s (welridWrite w [itemOf (if children then Dict.warpTreeChildren else Dict.warpTreeParent) 0 v])

/-- DEVICE_INDEX_WRITE (R440): `warp.device_index` or `warp.id`. -/
def execDeviceIndexWrite (t : Nat) (w : WEnv) (warp : Bool) (v : Nat) (s : State) : Host.Outcome State Fault Refusal :=
  run (.deviceIndexWrite t w warp v) t s (welridWrite w [itemOf (if warp then Dict.warpId else Dict.warpDeviceIndex) 0 v])

/-- MON_REQUEST (R494): `mon.request` or, for the selected channel, `chmon.request`. -/
def execMonRequest (t : Nat) (w : WEnv) (hub : Bool) (k v : Nat) (s : State) : Host.Outcome State Fault Refusal :=
  run (.monRequest t w hub k v) t s (welridWrite w [itemOf (if hub then Dict.monRequest else Dict.chmonRequest) k v])

/-- MON_CONFIG_WRITE (R493). -/
def execMonConfigWrite (t : Nat) (w : WEnv) (hub : Bool) (k cfg : Nat) (s : State) : Host.Outcome State Fault Refusal :=
  run (.monConfigWrite t w hub k cfg) t s (welridWrite w [itemOf (if hub then Dict.monConfig else Dict.chmonConfig) k cfg])

/-- TRACE_REQUEST (R499). -/
def execTraceRequest (t : Nat) (w : WEnv) (v : Nat) (s : State) : Host.Outcome State Fault Refusal :=
  run (.traceRequest t w v) t s (welridWrite w [itemOf Dict.traceRequest 0 v])

/-- TRACE_CONFIG_WRITE (R500). -/
def execTraceConfigWrite (t : Nat) (w : WEnv) (cfg : Nat) (s : State) : Host.Outcome State Fault Refusal :=
  run (.traceConfigWrite t w cfg) t s (welridWrite w [itemOf Dict.traceConfig 0 cfg])

end Sys2Proof.Machine
end

