-- ==== Sys2Proof/Machine/Monitors.lean ====
section
/-! DEFINITION. Event counters and trace capture (spec/17): transitions, windows and stops, once their action point has come. -/

namespace Sys2Proof.Machine

open Sys2Proof

/-- A counter's transition at an action point it has passed (R494). -/
def monTransition (f : FnId) (s : State) : State :=
  match (s.fn f).st with
  | .starting => s.when (s.mon f).counting fun s => fnStarted f s
  | .stopping =>
    s.when (!(s.mon f).counting) fun s =>
      let m := s.mon f
      fnStopped f (s.setMon f { m with snap := if m.due.isSome then m.due else m.snap, due := none })
  | _ => s

/-- The trace's due action point is dealt with. -/
def traceTaken (s : State) : State := { s with mn := { s.mn with trace := { s.mn.trace with due := false } } }

/-- Trace capture's transition at an action point it has passed (R499). -/
def traceTransition (s : State) : State :=
  if s.mn.trace.due then
    match (s.fn .trace).st with
    | .starting => fnStarted .trace (traceTaken s)
    | .stopping => fnStopped .trace (traceTaken s)
    | _ => s
  else s

/-- MONITOR_TRANSITION (R494, R499). -/
def execMonitorTransition (t : Nat) (f : FnId) (s : State) : Host.Outcome State Fault Refusal :=
  run (.monitorTransition t f) t s fun s =>
    match f with
    | .hubMon _ => monTransition f s
    | .chMon _ _ => monTransition f s
    | .trace => traceTransition s
    | _ => s

/-- MONITOR_WINDOW_END (R495, R496): the values that the action point left are copied. -/
def execMonitorWindowEnd (t : Nat) (f : FnId) (s : State) : Host.Outcome State Fault Refusal :=
  run (.monitorWindowEnd t f) t s fun s =>
    let m := s.mon f
    s.when (s.isOn f && m.due.isSome) fun s => s.setMon f { m with snap := m.due, due := none }

/-- TRACE_BUFFER_FULL (R502): in STOP mode the record that filled the buffer ends capture. -/
def execTraceBufferFull (t : Nat) (s : State) : Host.Outcome State Fault Refusal :=
  run (.traceBufferFull t) t s fun s =>
    s.when (s.mn.trace.full && s.isOn .trace) fun s => (beginStop .trace s).notify 0x0A02 (beBytes 4 s.mn.trace.buf.length)

/-- TRACE_STOP_PICK (R502): the action point of `trace.stop_pick` has stopped capture. -/
def execTraceStopPick (t : Nat) (s : State) : Host.Outcome State Fault Refusal :=
  run (.traceStopPick t) t s fun s =>
    s.when (s.mn.trace.due && s.isOn .trace) fun s => fnStopped .trace (beginStop .trace (traceTaken s))

end Sys2Proof.Machine
end

