-- ==== Sys2Proof/Machine/Package.lean ====
section
/-! DEFINITION. The package (spec/01): insertion and boot, power input, throttling, removal by request, surprise removal and FORCE_OFF_N. -/

namespace Sys2Proof.Machine

open Sys2Proof

/-! ## Insertion and boot (R37-R39) -/

/-- PRECHARGE_START (R37): 44V_PRE mates on an unpowered package. -/
def execPrechargeStart (t : Nat) (s : State) : Host.Outcome State Fault Refusal :=
  runAny (.prechargeStart t) t s fun s =>
    s.when (decide (s.pw.pkg = .unpowered)) fun s => { s with pw := { s.pw with pkg := .precharge } }

/-- The package is ISOLATED from the start: FORCE_OFF_N is held low (R44). -/
def isolate (s : State) : State := { s with pw := { s.pw with pkg := .isolated, isolated := true } }

/-- BUS_CHARGED (R37, R107): the always-on domain starts, and the boot ROM chooses the firmware. -/
def execBusCharged (t : Nat) (s : State) : Host.Outcome State Fault Refusal :=
  runAny (.busCharged t) t s fun s =>
    if s.pw.pkg = .precharge then (if s.pw.forceOff then isolate s else bootStart s) else s

/-- MANAGED (R38, R107): a trial image is confirmed where `sec.fw_auto_confirm` says so, and with `package.autostart` 1 bring-up begins. -/
def enterManaged (s : State) : State :=
  let s := (fnStarted (.dom 76) s).setPkg .managed
  let s := s.when (decide (s.sc.running ≠ some s.nv.fwConfirmed) && decide (s.reg Dict.secFwAutoConfirm = 1)) confirmFirmware
  serveIfUp (s.when (decide (s.reg Dict.packageAutostart = 1)) bringup)

/-- BOOT_COMPLETE (R38): firmware runs and the Ethernet block is up.  `spd` is the module size in GiB on each DDR5 channel, DDR_A first (R4). -/
def execBootComplete (t : Nat) (spd : List Nat) (s : State) : Host.Outcome State Fault Refusal :=
  run (.bootComplete t spd) t s fun s =>
    if s.pw.pkg = .boot ∧ s.sc.running.isSome = true then enterManaged { s with pw := { s.pw with spd := spd } } else s

/-! ## Power input (R19-R25) -/

/-- INPUT_EXCURSION_END (R19): an excursion of `dur` ns whose longest stay below 30 V or above 55 V was `stay` ns. -/
def execInputExcursionEnd (t dur stay : Nat) (s : State) : Host.Outcome State Fault Refusal :=
  run (.inputExcursionEnd t dur stay) t s fun s =>
    s.when (decide (dur < 1000000) && decide (stay < 10000)) fun s => (s.inc Dict.powerRidethroughCount).ev 0x223

/-- EXCURSION_TIMEOUT (R19, R20). -/
def execExcursionTimeout (t : Nat) (s : State) : Host.Outcome State Fault Refusal :=
  run (.excursionTimeout t) t s (fatalPath 1)

/-- COLLAPSE_TIMEOUT (R19, R20). -/
def execCollapseTimeout (t : Nat) (s : State) : Host.Outcome State Fault Refusal :=
  run (.collapseTimeout t) t s (fatalPath 1)

/-- THERMAL_TRIP (R24). -/
def execThermalTrip (t : Nat) (s : State) : Host.Outcome State Fault Refusal :=
  run (.thermalTrip t) t s (fatalPath 2)

/-- Hub-clock cycles (1.2 GHz, R14) up to a moment. -/
def hubCycles (ns : Nat) : Nat := ns * 6 / 5

/-- Source 0x222 counts the hub-clock cycles spent at level 1 or higher since they were last counted (R47). -/
def countHot (s : State) : State :=
  match s.pw.hotSince with
  | none => s
  | some a => State.ev { s with pw := { s.pw with hotSince := some s.now } } 0x222 none (hubCycles s.now - hubCycles a)

/-- The throttle level rises by one, up to 8 (R23). -/
def raiseLevel (s : State) : State :=
  if s.pw.level < 8 then
    let since := if s.pw.level = 0 then some s.now else s.pw.hotSince
    State.ev { s with pw := { s.pw with level := s.pw.level + 1, hotSince := since } } 0x220
  else s

/-- The throttle level falls by one (R23); at 0 the cycles of R47 end. -/
def lowerLevel (s : State) : State :=
  if 0 < s.pw.level then
    let s := countHot s
    let since := if s.pw.level = 1 then none else s.pw.hotSince
    State.ev { s with pw := { s.pw with level := s.pw.level - 1, hotSince := since } } 0x221
  else s

/-- CURRENT_LIMIT_TICK (R22): the limit engages at 58 A, raises L every 10 us, and ends below 56 A. -/
def execCurrentLimitTick (t milliamps : Nat) (s : State) : Host.Outcome State Fault Refusal :=
  run (.currentLimitTick t milliamps) t s fun s =>
    if s.pw.limitOn then
      if milliamps < 56000 then { s with pw := { s.pw with limitOn := false } } else raiseLevel s
    else if 58000 ≤ milliamps then
      raiseLevel ((State.inc { s with pw := { s.pw with limitOn := true } } Dict.powerCurrentLimitCount).ev 0x229)
    else s

/-- The sensors' readings are held (R46). -/
def holdSensors (sn : Sensors) (s : State) : State := { s with pw := { s.pw with volt := sn.volt, amp := sn.amp, powBits := sn.powBits, die := sn.die, hbm := sn.hbm } }

/-- L is adjusted (R23): up when either value is over its limit, down when both have been 5 % under for 1 ms.  DESIGN CHOICE (log 155): after each fall the
1 ms begins anew. -/
def throttle (sn : Sensors) (s : State) : State :=
  let hot := sn.die.foldl Nat.max 0
  let pLim := 1000 * s.reg Dict.powerInputLimit
  let tLim := s.reg Dict.thermalThrottleTemp
  let mark (u : Option Nat) : State := { s with pw := { s.pw with underSince := u } }
  if pLim < sn.powMw ∨ tLim < hot then raiseLevel (mark none)
  else if 100 * sn.powMw ≤ 95 * pLim ∧ 100 * hot ≤ 95 * tLim then
    match s.pw.underSince with
    | none => mark (some s.now)
    | some a => if a + 1000000 ≤ s.now ∧ s.pw.limitOn = false then lowerLevel (mark (some s.now)) else s
  else mark none

/-- THROTTLE_EVALUATE (R23), every 100 us: the cycles spent throttled are counted (R47), and L is adjusted. -/
def execThrottleEvaluate (t : Nat) (sn : Sensors) (s : State) : Host.Outcome State Fault Refusal :=
  run (.throttleEvaluate t sn) t s fun s => throttle sn (countHot (holdSensors sn s))

/-- HBM_REFRESH_DOUBLING (R25). -/
def execHbmRefreshDoubling (t stack temp : Nat) (s : State) : Host.Outcome State Fault Refusal :=
  run (.hbmRefreshDoubling t stack temp) t s fun s =>
    let hot := decide (85 < temp)
    let s' : State := { s with pw := { s.pw with hbm2x := setBit s.pw.hbm2x stack hot } }
    s'.when (hot && !bit s.pw.hbm2x stack) fun s => s.ev 0x228 none 1 stack

/-! ## Losing power (R18, R39, R43) -/

/-- SURPRISE_REMOVAL (R43): the hold-up energy writes the final journal entry and closes the signature-index reservation. -/
def execSurpriseRemoval (t : Nat) (s : State) : Host.Outcome State Fault Refusal :=
  runAny (.surpriseRemoval t) t s fun s =>
    s.when s.pw.pkg.removeLow fun s => unpowered (closeIndex (s.journal 3 0xFF 0x238 0xFFFF 0 ([1] ++ beBytes 8 s.pk.current) 1).copyJournal)

/-- POWER_REMOVAL (R18): input power goes while REMOVE_READY is released. -/
def execPowerRemoval (t : Nat) (s : State) : Host.Outcome State Fault Refusal :=
  runAny (.powerRemoval t) t s fun s => s.when (!s.pw.pkg.removeLow) unpowered

/-! ## Forced off and reset (R44, R45) -/

/-- FORCE_OFF_ASSERT (R44): a running device takes the FATAL path; the contact is held low from now on. -/
def execForceOffAssert (t : Nat) (s : State) : Host.Outcome State Fault Refusal :=
  runAny (.forceOffAssert t) t s fun s =>
    let s := s.when s.live (fatalPath 3)
    { s with pw := { s.pw with forceOff := true } }

/-- FORCE_OFF_RELEASE (R44): a cold reset from BOOT, where the always-on domain has power. -/
def execForceOffRelease (t : Nat) (s : State) : Host.Outcome State Fault Refusal :=
  runAny (.forceOffRelease t) t s fun s =>
    if s.pw.forceOff then
      let s : State := { s with pw := { s.pw with forceOff := false } }
      s.when (decide (s.pw.pkg = .isolated)) fun s => bootStart (unpowered s)
    else s

/-- PACKAGE_RESET (R45): a WRITE of 1 to `package.reset`; its response is the last message of every association. -/
def execPackageReset (t : Nat) (w : WEnv) (s : State) : Host.Outcome State Fault Refusal :=
  run (.packageReset t w) t s (welridWrite w [itemOf Dict.packageReset 0 1])

/-! ## Removal by request (R40-R42) -/

/-- REMOVE_REQUEST (R40). -/
def execRemoveRequest (t : Nat) (w : WEnv) (s : State) : Host.Outcome State Fault Refusal :=
  run (.removeRequest t w) t s (welridWrite w [itemOf Dict.packageRemoveRequest 0 1])

/-- REMOVE_REQUEST_SKIP (R41). -/
def execRemoveRequestSkip (t : Nat) (w : WEnv) (s : State) : Host.Outcome State Fault Refusal :=
  run (.removeRequestSkip t w) t s (welridWrite w [itemOf Dict.packageRemoveRequest 0 2])

/-- REMOVE_REQUEST_CANCEL (R42). -/
def execRemoveRequestCancel (t : Nat) (w : WEnv) (s : State) : Host.Outcome State Fault Refusal :=
  run (.removeRequestCancel t w) t s (welridWrite w [itemOf Dict.packageRemoveRequest 0 0])

/-- The drain is late (R41): the sessions not yet moved are counted and reported. -/
def drainLate (s : State) : State :=
  let n := drainLeft s
  let s : State := { s with pw := { s.pw with drainReported := true } }
  (s.setReg Dict.packageDrainUnmoved n).notify 0x0301 (beBytes 4 n)

/-- DRAIN_TIMEOUT (R41): `package.drain_timeout` seconds have passed and step 3 has not completed. -/
def execDrainTimeout (t : Nat) (s : State) : Host.Outcome State Fault Refusal :=
  run (.drainTimeout t) t s fun s =>
    s.when (decide (s.pw.pkg = .draining) && decide (s.pw.drainStep < 4) && !s.pw.drainReported && decide (s.pw.drainAt + 1000000000 * s.reg Dict.packageDrainTimeout ≤ s.now)) drainLate

/-- REMOVE_READY is entered (R40, R111, R470). -/
def removeReady (s : State) : State :=
  let s := closeIndex (stopForRemoval s).copyJournal
  State.setPkg { s with pw := { s.pw with drainStep := 0, drainSkip := false, drainReported := false } } .removeReady

/-- Step 4 of a drain is done (R40): every FLUSH has been answered, and the links are quiet: no flit waits on one, and its replay buffer is acknowledged
or 10 us have passed (R411). -/
def State.drainFlushed (s : State) : Bool :=
  (s.sl.flows.all fun e => e.2.ops.all fun o => decide (o.what ≠ .drainFlush)) &&
  (List.range 48).all fun n => !s.isOn (.link n) || ((s.link n).q.all fun e => e.2.isEmpty) && ((s.link n).replay.isEmpty || decide (s.pw.flushAt + 10000 ≤ s.now))

/-- DRAIN_COMPLETE (R40, R42): steps 5 and 6, once no step runs and step 4 is done; a latched 0 restarts the domains. -/
def execDrainComplete (t : Nat) (s : State) : Host.Outcome State Fault Refusal :=
  run (.drainComplete t) t s fun s =>
    s.when (decide (s.pw.pkg = .draining) && decide (s.pw.drainStep = 4) && s.drainFlushed && s.sv.run.isNone) fun s =>
      let cancel := s.pw.drainCancel
      let s := removeReady s
      s.when cancel fun s => leaveRemoveReady { s with pw := { s.pw with drainCancel := false } }

end Sys2Proof.Machine
end

