-- ==== Sys2Proof/Machine/Security.lean ====
section
/-! DEFINITION. The security element's own events (spec/04): certificates, key timeouts, epochs, signature indices, and the sealing of a channel. -/

namespace Sys2Proof.Machine

open Sys2Proof

/-! ## Certificates and keys (R113, R116, R117, R122) -/

/-- ATTEST_CERT_READY (R113, R117): the certificate is signed, and its key's time begins; with no index the request fails, unless a block of indices is on its way. -/
def execAttestCertReady (t d : Nat) (s : State) : Host.Outcome State Fault Refusal :=
  run (.attestCertReady t d) t s fun s =>
    let ds := s.domSec d
    if ds.attest = 1 then
      match takeIndex s with
      | none => if s.sc.reserving ∧ s.sigLeft ≠ 0 then s else s.setDomSec d { ds with attest := 3, keyNo := 0 }
      | some (n, s) =>
        let cert := s.certFor n ds.nonce 2 d ds.keyNo
        (s.setDomSec d { s.domSec d with attest := 2, cert := some cert, issued := s.now }).ev 0x240 none 1 d (some d)
    else s

/-- CAPSULE_TIMEOUT (R116): the pending key is destroyed `sec.capsule_timeout` seconds after issue. -/
def execCapsuleTimeout (t d : Nat) (s : State) : Host.Outcome State Fault Refusal :=
  run (.capsuleTimeout t d) t s fun s =>
    let ds := s.domSec d
    s.when (decide (ds.keyNo ≠ 0) && decide (ds.attest = 2) && decide (ds.issued + 1000000000 * s.reg Dict.secCapsuleTimeout ≤ s.now)) (dropPendingKey d)

/-- EPOCH_OVERLAP_EXPIRE (R122): `sec.epoch_overlap` picks after the new epoch took effect, traffic under the old one ends. -/
def execEpochOverlapExpire (t d : Nat) (s : State) : Host.Outcome State Fault Refusal :=
  run (.epochOverlapExpire t d) t s fun s =>
    let ds := s.domSec d
    match ds.prevUntil with
    | some p => if p ≤ s.pk.current then s.setDomSec d { ds with prevUntil := none } else s
    | none => s

/-- SIGNATURE_INDEX_BLOCK_RESERVED (R110): the store write of E + 1,024 ends. -/
def execSignatureIndexBlockReserved (t : Nat) (ok : Bool) (s : State) : Host.Outcome State Fault Refusal :=
  run (.signatureIndexBlockReserved t ok) t s fun s =>
    if s.sc.reserving then
      let s : State := { s with sc := { s.sc with reserving := false, storeFailed := !ok } }
      if ok then (State.store { s with nv := { s.nv with sigEnd := Nat.min (s.nv.sigEnd + 1024) (2 ^ 40) } }).ev 0x241
      else s.journal 1 0xFF 0x241 0xFFFF 0 []
    else s

/-! ## Moving other domains off a channel (R133, step 2) -/

/-- A frame of domain d on channel c is taken anew on the first of the channels that has one; the domain's cap counts it once. -/
def State.reseat (s : State) (d c tier n : Nat) (cs : List Nat) : Option (Nat × Nat × State) :=
  let s := s.setFrame c tier n { s.frame c tier n with own := 0xFFFF }
  (cs.filter (· != c)).findSome? fun x => (s.takeFrame d x tier).map fun r => (x, r.1, r.2)

/-- A page of session k on channel c goes to another channel under the one home rule; a revival's reserved frame too. -/
def State.sealPage (s : State) (c k l : Nat) : Option State :=
  let x := s.sess k
  match x.page? l with
  | none => some s
  | some p =>
    (s.reseat x.dom c (p.tier % 3) p.frame (s.placing k l)).map fun r =>
      if p.tier = 3 then (r.2.2.setPage k l { p with ch := r.1, frame := r.2.1, inc := s.incOf r.1 }).freeFrame c 0 p.frame false
      else r.2.2.switchHome { k := k, lpn := l, tier := p.tier, ch := r.1, frame := r.2.1, region := 0, why := 4, started := false }

/-- A session's staging frames on channel c are taken elsewhere. -/
def State.sealStage (s : State) (c k : Nat) : Option State :=
  (s.sess k).stage.foldl (fun (o : Option State) (e : Nat × Nat × Nat) => o.bind fun s =>
    if e.2.1 ≠ c then some s
    else (s.reseat (s.sess k).dom c 0 e.2.2 (s.placing k e.1)).map fun r =>
      (r.2.2.setSess k { r.2.2.sess k with stage := (r.2.2.sess k).stage.map fun y => if y = e then (e.1, r.1, r.2.1) else y }).freeFrame c 0 e.2.2 false) (some s)

/-- The pages of a session that hold a frame of channel c. -/
def State.pagesOn (s : State) (c k : Nat) : List Nat :=
  let x := s.sess k
  (x.pages.filter fun e => decide (e.2.ch = c) && (decide (e.2.tier < 2) || (decide (e.2.tier = 3) && e.2.held))).map (·.1)

/-- The far records that channel c holds for other domains go where their pages would be placed (R133), as far as the reserves there have room. -/
def State.sealFar (s : State) (c d : Nat) : Option State :=
  (s.tm.far.filter fun e => farRec e.2 == c + 1 && decide (e.1 / 2 ^ 44 ≠ d)).foldl (fun (o : Option State) (e : Nat × Nat) => o.bind fun s =>
    let dom := e.1 / 2 ^ 44
    let home := s.ss.tbl.findSome? fun x =>
      if x.2.dom = dom then (x.2.pages.find? fun p => decide (p.2.tier = 2) && decide (farKey dom p.2.region p.2.frame = e.1)).map fun p => (x.1, p.1) else none
    let cs := match home with
      | some (k, l) => s.placing k l
      | none => s.domChans dom
    ((cs.filter (· != c)).find? fun x => decide (s.reserveUsed x + 16 ≤ s.reservePool x)).map fun x =>
      { s with tm := { s.tm with far := Tbl.put 0 s.tm.far e.1 (e.2 / 10 * 10 + x + 1) } }) (some s)

/-- The frames that arriving migrations hold on channel c are taken elsewhere. -/
def State.sealArrivals (s : State) (c d : Nat) : Option State :=
  let fix (dom : Nat) (o : Option (List (Nat × Nat × Nat) × State)) (f : Nat × Nat × Nat) : Option (List (Nat × Nat × Nat) × State) :=
    o.bind fun a =>
      if f.1 < 2 ∧ f.2.1 = c then (a.2.reseat dom c f.1 f.2.2 (a.2.domChans dom)).map fun r => (a.1 ++ [(f.1, r.1, r.2.1)], r.2.2) else some (a.1 ++ [f], a.2)
  (s.dx.inn.filter fun m => decide (m.sum.dom ≠ d) && decide (chOf m.k ≠ c)).foldl (fun (o : Option State) (m : MigIn) => o.bind fun s =>
    (m.frames.foldl (fix m.sum.dom) (some ([], s))).bind fun fs =>
      ((m.pages.map (·.2)).foldl (fix m.sum.dom) (some ([], fs.2))).map fun ps =>
        let new : MigIn := { m with frames := fs.1, pages := (m.pages.map (·.1)).zip ps.1 }
        { ps.2 with dx := { ps.2.dx with inn := ps.2.dx.inn.map fun y => if y.src = m.src ∧ y.id = m.id then new else y } }) (some s)

/-- Step 2 of R133: whether everything of other domains found a place elsewhere; where it did not, what has moved stays there. -/
def sealMoves (c d : Nat) (s : State) : Bool × State :=
  let touching := s.tm.moves.filter fun m =>
    (decide (m.tier < 2) && decide (m.ch = c)) || (match (s.sess m.k).page? m.lpn with
      | some p => decide (p.tier < 2) && decide (p.ch = c)
      | none => false)
  let s := s.each touching fun m s => s.failMove m
  let step (a : Bool × State) (f : State → Option State) : Bool × State := if a.1 then (match f a.2 with
    | some s => (true, s)
    | none => (false, a.2)) else a
  let ks := (s.ss.tbl.filter fun e => decide (e.2.st ≠ .free) && decide (e.2.dom ≠ d)).map (·.1)
  let a := ks.foldl (fun (a : Bool × State) (k : Nat) => step ((a.2.pagesOn c k).foldl (fun (a : Bool × State) (l : Nat) => step a fun s => s.sealPage c k l) a) fun s => s.sealStage c k) (true, s)
  let a := step (step a fun s => s.sealFar c d) fun s => s.sealArrivals c d
  (a.1, a.2.each (touching.filter fun m => decide (m.why = 0)) fun m s => if (s.tm.moves.any fun y => y.k == m.k && y.lpn == m.lpn) then s else s.remove m)

/-! ## The scrub (R133, R135) -/

/-- Copies of images on channel c, but those of domain d, are gone. -/
def State.dropCopiesBut (s : State) (c d : Nat) : State :=
  let keep (dom : Nat) (l : List Nat) : List Nat := if dom = d then l else l.filter (· != c)
  { s with tx := { s.tx with cache := Tbl.erase s.tx.cache c, vocabs := s.tx.vocabs.map (fun (e : Nat × VSlot) => (e.1, { e.2 with chans := keep e.2.dom e.2.chans })), grammars := s.tx.grammars.map (fun (e : Nat × Grammar × List Nat) => (e.1, e.2.1, keep (e.1 / 1024) e.2.2)), newG := s.tx.newG.map (fun (e : Nat × Grammar × List Nat) => (e.1, e.2.1, keep (e.1 / 1024) e.2.2)) } }

/-- Every entry of the channel is FREE with its generation raised (R133, step 5). -/
def State.raiseGens (s : State) (c : Nat) : State :=
  let tbl : Tbl Sess := s.ss.tbl.filterMap fun (e : Nat × Sess) => if chOf e.1 ≠ c then some e else if e.2.gen = 0 then none else some (e.1, { gen := genNext e.2.gen })
  { s with ss := { s.ss with tbl := tbl, cache := Tbl.erase s.ss.cache c, bumps := Tbl.put 0 s.ss.bumps c (Tbl.get 0 s.ss.bumps c + 1) } }

/-- MiB that a scrub of channel c writes: both HBM4 stacks and the channel's DDR5. -/
def State.scrubMiB (s : State) (c : Nat) : Nat := 131072 + 1024 * sumOf (fun i => s.pw.spd.getD (4 * c + i) 0) (List.range 4)

/-- The scrub of channel c and the raising of its generations; image copies of domain d stay.  Sessions that an imposed stop left there are lost (R475). -/
def sealScrub (c d : Nat) (s : State) : State :=
  let lost := s.homedOn c
  let s := ((s.leaveSteps c).leaveMoves c).dropMigrations c
  let s := (s.dropFrames c).raiseGens c
  let s : State := { s with tm := { s.tm with moves := s.tm.moves.filter fun (m : Move) => chOf m.k != c } }
  let s := (collsLeave c (modelsLeave c s)).dropCopiesBut c d
  let s := s.each (List.range 16) fun g s => tileGroupOff c g s
  let s : State := { s with sc := { s.sc with scrub := Tbl.put 0 s.sc.scrub c 100 } }
  let s := s.ev 0x249 none (s.scrubMiB c) c
  let s := s.when (decide (lost ≠ [])) State.sweep
  s.each lost fun e s => s.lossRecord e.1 e.2 (lossField c s.device 2)

/-- The state of seal c when the step that runs began, and its state now where none runs: the channel's work stops at a step boundary (R133, R135, step 1). -/
def State.sealBegan (s : State) (c : Nat) : FState :=
  match s.sv.run with
  | some v => v.seals.getD c .off
  | none => (s.fn (.seal c)).st

/-- SEAL_STARTING_COMPLETE (R133): moves, scrub, generations and the routing rule; without frames elsewhere the start fails. -/
def execSealStartingComplete (t c : Nat) (s : State) : Host.Outcome State Fault Refusal :=
  run (.sealStartingComplete t c) t s fun s =>
    if (s.fn (.seal c)).st = .starting ∧ s.sealBegan c = .starting then
      let d := s.reg Dict.sealDomain c
      let r := sealMoves c d s
      if r.1 then
        let s := fnStarted (.seal c) (sealScrub c d r.2)
        settle (s.when (s.isOn (.seal c)) fun s => (s.ev 0x24A none 1 c (some d)).notify 0x0504 ([c, 2] ++ beBytes 2 d))
      else settle ((fnFailed (.seal c) r.2).notify 0x0505 ([c] ++ beBytes 2 d))
    else s

/-- SEAL_STOPPING_COMPLETE (R135). -/
def execSealStoppingComplete (t c : Nat) (s : State) : Host.Outcome State Fault Refusal :=
  run (.sealStoppingComplete t c) t s fun s =>
    if (s.fn (.seal c)).st = .stopping ∧ s.sealBegan c = .stopping then
      let d := s.reg Dict.sealDomain c
      let s := fnStopped (.seal c) (sealScrub c 0xFFFF s)
      settle (s.when (s.isOff (.seal c)) fun s => (s.ev 0x24B none 1 c (some d)).notify 0x0504 ([c, 0] ++ beBytes 2 d))
    else s

end Sys2Proof.Machine
end

