-- ==== Sys2Proof/Machine/Dispatch.lean ====
section
/-! DEFINITION. The meaning of every command: one arm per constructor, each a call of that command's meaning. -/

namespace Sys2Proof.Machine

/-- What a command does to everything but the queue. -/
def exec (i : Instr) (s : State) : Host.Outcome State Fault Refusal :=
  match i with
  | .prechargeStart t => Sys2Proof.Machine.execPrechargeStart t s
  | .busCharged t => Sys2Proof.Machine.execBusCharged t s
  | .bootComplete t spd => Sys2Proof.Machine.execBootComplete t spd s
  | .inputExcursionEnd t dur stay => Sys2Proof.Machine.execInputExcursionEnd t dur stay s
  | .excursionTimeout t => Sys2Proof.Machine.execExcursionTimeout t s
  | .collapseTimeout t => Sys2Proof.Machine.execCollapseTimeout t s
  | .currentLimitTick t milliamps => Sys2Proof.Machine.execCurrentLimitTick t milliamps s
  | .throttleEvaluate t sn => Sys2Proof.Machine.execThrottleEvaluate t sn s
  | .thermalTrip t => Sys2Proof.Machine.execThermalTrip t s
  | .hbmRefreshDoubling t stack temp => Sys2Proof.Machine.execHbmRefreshDoubling t stack temp s
  | .surpriseRemoval t => Sys2Proof.Machine.execSurpriseRemoval t s
  | .forceOffAssert t => Sys2Proof.Machine.execForceOffAssert t s
  | .forceOffRelease t => Sys2Proof.Machine.execForceOffRelease t s
  | .packageReset t w => Sys2Proof.Machine.execPackageReset t w s
  | .removeRequest t w => Sys2Proof.Machine.execRemoveRequest t w s
  | .removeRequestSkip t w => Sys2Proof.Machine.execRemoveRequestSkip t w s
  | .removeRequestCancel t w => Sys2Proof.Machine.execRemoveRequestCancel t w s
  | .drainTimeout t => Sys2Proof.Machine.execDrainTimeout t s
  | .drainComplete t => Sys2Proof.Machine.execDrainComplete t s
  | .chpowerRequest t w k v => Sys2Proof.Machine.execChpowerRequest t w k v s
  | .hubPowerRequest t w k v => Sys2Proof.Machine.execHubPowerRequest t w k v s
  | .functionStartComplete t f bad => Sys2Proof.Machine.execFunctionStartComplete t f bad s
  | .functionStartFail t f => Sys2Proof.Machine.execFunctionStartFail t f s
  | .functionStopComplete t f => Sys2Proof.Machine.execFunctionStopComplete t f s
  | .pickContactEdge t width low => Sys2Proof.Machine.execPickContactEdge t width low s
  | .pickStuckInput t => Sys2Proof.Machine.execPickStuckInput t s
  | .hostPickMessage t port m => Sys2Proof.Machine.execHostPickMessage t port m s
  | .pick t link m => Sys2Proof.Machine.execPick t link m s
  | .lost t link m => Sys2Proof.Machine.execLost t link m s
  | .pickSourceWrite t w v => Sys2Proof.Machine.execPickSourceWrite t w v s
  | .pickActionPoint t => Sys2Proof.Machine.execPickActionPoint t s
  | .pickMissTimeout t => Sys2Proof.Machine.execPickMissTimeout t s
  | .holdoverPickDue t => Sys2Proof.Machine.execHoldoverPickDue t s
  | .barrierAtWrite t w p => Sys2Proof.Machine.execBarrierAtWrite t w p s
  | .barrierRequest t link dev m => Sys2Proof.Machine.execBarrierRequest t link dev m s
  | .barrierDone t link dev m => Sys2Proof.Machine.execBarrierDone t link dev m s
  | .barrierTimeout t => Sys2Proof.Machine.execBarrierTimeout t s
  | .barrierMessageResend t => Sys2Proof.Machine.execBarrierMessageResend t s
  | .helloOffer t w vmax vmin role nonce => Sys2Proof.Machine.execHelloOffer t w vmax vmin role nonce s
  | .helloKey t w ct proof => Sys2Proof.Machine.execHelloKey t w ct proof s
  | .helloBye t w reason => Sys2Proof.Machine.execHelloBye t w reason s
  | .helloTimeout t assoc => Sys2Proof.Machine.execHelloTimeout t assoc s
  | .helloThrottleExpire t => Sys2Proof.Machine.execHelloThrottleExpire t s
  | .associationIdleTimeout t assoc => Sys2Proof.Machine.execAssociationIdleTimeout t assoc s
  | .read t w items => Sys2Proof.Machine.execRead t w items s
  | .registerWrite t w items => Sys2Proof.Machine.execRegisterWrite t w items s
  | .readBlock t w addr off len => Sys2Proof.Machine.execReadBlock t w addr off len s
  | .writeBlock t w b => Sys2Proof.Machine.execWriteBlock t w b s
  | .snapshotExpire t assoc => Sys2Proof.Machine.execSnapshotExpire t assoc s
  | .blockTransferIdle t addr => Sys2Proof.Machine.execBlockTransferIdle t addr s
  | .roleSecretWrite t w role secret => Sys2Proof.Machine.execRoleSecretWrite t w role secret s
  | .restoreDefaults t w v => Sys2Proof.Machine.execRestoreDefaults t w v s
  | .fwImageWrite t w b => Sys2Proof.Machine.execFwImageWrite t w b s
  | .fwSvnCommit t w v => Sys2Proof.Machine.execFwSvnCommit t w v s
  | .fwConfirm t w v => Sys2Proof.Machine.execFwConfirm t w v s
  | .attestNonceWrite t w nonce => Sys2Proof.Machine.execAttestNonceWrite t w nonce s
  | .attestCertReady t d => Sys2Proof.Machine.execAttestCertReady t d s
  | .capsuleTimeout t d => Sys2Proof.Machine.execCapsuleTimeout t d s
  | .keyCapsuleWrite t w b => Sys2Proof.Machine.execKeyCapsuleWrite t w b s
  | .epochOverlapExpire t d => Sys2Proof.Machine.execEpochOverlapExpire t d s
  | .keyErase t w v => Sys2Proof.Machine.execKeyErase t w v s
  | .dsecClassWrite t w v => Sys2Proof.Machine.execDsecClassWrite t w v s
  | .tileGroupsWrite t w v => Sys2Proof.Machine.execTileGroupsWrite t w v s
  | .sealRequest t w c v => Sys2Proof.Machine.execSealRequest t w c v s
  | .sealStartingComplete t c => Sys2Proof.Machine.execSealStartingComplete t c s
  | .sealStoppingComplete t c => Sys2Proof.Machine.execSealStoppingComplete t c s
  | .openSession t k => Sys2Proof.Machine.execOpenSession t k s
  | .append t k => Sys2Proof.Machine.execAppend t k s
  | .generate t k => Sys2Proof.Machine.execGenerate t k s
  | .park t k => Sys2Proof.Machine.execPark t k s
  | .revive t k => Sys2Proof.Machine.execRevive t k s
  | .condense t k => Sys2Proof.Machine.execCondense t k s
  | .exportSession t k => Sys2Proof.Machine.execExportSession t k s
  | .importSession t k x => Sys2Proof.Machine.execImportSession t k x s
  | .query t k => Sys2Proof.Machine.execQuery t k s
  | .close t k => Sys2Proof.Machine.execClose t k s
  | .truncate t k => Sys2Proof.Machine.execTruncate t k s
  | .deadlineExpire t r => Sys2Proof.Machine.execDeadlineExpire t r s
  | .parkPickReached t k => Sys2Proof.Machine.execParkPickReached t k s
  | .deepTtlExpire t k => Sys2Proof.Machine.execDeepTtlExpire t k s
  | .slateTtlExpire t k => Sys2Proof.Machine.execSlateTtlExpire t k s
  | .farTtlExpire t k => Sys2Proof.Machine.execFarTtlExpire t k s
  | .sessionMoveComplete t k => Sys2Proof.Machine.execSessionMoveComplete t k s
  | .revivalComplete t k => Sys2Proof.Machine.execRevivalComplete t k s
  | .closingComplete t k => Sys2Proof.Machine.execClosingComplete t k s
  | .completionRecordRelease t d => Sys2Proof.Machine.execCompletionRecordRelease t d s
  | .generateStreamRecord t k => Sys2Proof.Machine.execGenerateStreamRecord t k s
  | .notifyFlowWrite t w v => Sys2Proof.Machine.execNotifyFlowWrite t w v s
  | .backgroundEviction t c tier => Sys2Proof.Machine.execBackgroundEviction t c tier s
  | .pageMoveSwitch t k lpn v => Sys2Proof.Machine.execPageMoveSwitch t k lpn v s
  | .frameLeaseRelease t c tier frame => Sys2Proof.Machine.execFrameLeaseRelease t c tier frame s
  | .frameTestComplete t c tier frame bad => Sys2Proof.Machine.execFrameTestComplete t c tier frame bad s
  | .allocGraceExpire t k => Sys2Proof.Machine.execAllocGraceExpire t k s
  | .fenceClear t w v => Sys2Proof.Machine.execFenceClear t w v s
  | .tileError t c tile ks => Sys2Proof.Machine.execTileError t c tile ks s
  | .patternLoadComplete t c g model pat => Sys2Proof.Machine.execPatternLoadComplete t c g model pat s
  | .modelLoad t d x => Sys2Proof.Machine.execModelLoad t d x s
  | .modelUnload t d => Sys2Proof.Machine.execModelUnload t d s
  | .trackerOpTimeout t c op => Sys2Proof.Machine.execTrackerOpTimeout t c op s
  | .maskComplete t k pos => Sys2Proof.Machine.execMaskComplete t k pos s
  | .decodePhaseCommit t out => Sys2Proof.Machine.execDecodePhaseCommit t out s
  | .prefillChunkStart t k => Sys2Proof.Machine.execPrefillChunkStart t k s
  | .prefillChunkCommit t k kv reads => Sys2Proof.Machine.execPrefillChunkCommit t k kv reads s
  | .budgetGraceExpire t k => Sys2Proof.Machine.execBudgetGraceExpire t k s
  | .budgetAdjust t w v => Sys2Proof.Machine.execBudgetAdjust t w v s
  | .draftSlotWrite t w v => Sys2Proof.Machine.execDraftSlotWrite t w v s
  | .samplingDefine t d rec => Sys2Proof.Machine.execSamplingDefine t d rec s
  | .vocabLoad t d img => Sys2Proof.Machine.execVocabLoad t d img s
  | .grammarLoad t d img => Sys2Proof.Machine.execGrammarLoad t d img s
  | .stopsetDefine t d rec => Sys2Proof.Machine.execStopsetDefine t d rec s
  | .select t d rec => Sys2Proof.Machine.execSelect t d rec s
  | .selectRowComplete t d id row ns data => Sys2Proof.Machine.execSelectRowComplete t d id row ns data s
  | .collectionCreate t d rec => Sys2Proof.Machine.execCollectionCreate t d rec s
  | .vecInsert t d rec => Sys2Proof.Machine.execVecInsert t d rec s
  | .vecDelete t d rec => Sys2Proof.Machine.execVecDelete t d rec s
  | .vecSearch t d rec => Sys2Proof.Machine.execVecSearch t d rec s
  | .listCompaction t id list => Sys2Proof.Machine.execListCompaction t id list s
  | .ethRequest t w p v => Sys2Proof.Machine.execEthRequest t w p v s
  | .portLinkUp t p => Sys2Proof.Machine.execPortLinkUp t p s
  | .portAlignmentLoss t p => Sys2Proof.Machine.execPortAlignmentLoss t p s
  | .pfcFrameReceive t p enable quanta => Sys2Proof.Machine.execPfcFrameReceive t p enable quanta s
  | .pfcRefreshTimer t p prio occupancy => Sys2Proof.Machine.execPfcRefreshTimer t p prio occupancy s
  | .pfcWatchdogExpire t p prio => Sys2Proof.Machine.execPfcWatchdogExpire t p prio s
  | .ptpEventMessage t p m => Sys2Proof.Machine.execPtpEventMessage t p m s
  | .arp t p m => Sys2Proof.Machine.execArp t p m s
  | .neighborDiscovery t p m => Sys2Proof.Machine.execNeighborDiscovery t p m s
  | .icmpEcho t p m => Sys2Proof.Machine.execIcmpEcho t p m s
  | .slaiskSend t p => Sys2Proof.Machine.execSlaiskSend t p s
  | .slaiskWrite t p => Sys2Proof.Machine.execSlaiskWrite t p s
  | .slaiskRead t p => Sys2Proof.Machine.execSlaiskRead t p s
  | .slaiskAtomicAdd t p => Sys2Proof.Machine.execSlaiskAtomicAdd t p s
  | .slaiskCas t p => Sys2Proof.Machine.execSlaiskCas t p s
  | .slaiskReadResponse t p => Sys2Proof.Machine.execSlaiskReadResponse t p s
  | .slaiskAtomicResponse t p => Sys2Proof.Machine.execSlaiskAtomicResponse t p s
  | .slaiskFlush t p => Sys2Proof.Machine.execSlaiskFlush t p s
  | .slaiskFlushResponse t p => Sys2Proof.Machine.execSlaiskFlushResponse t p s
  | .windowOpen t p => Sys2Proof.Machine.execWindowOpen t p s
  | .windowStartComplete t idx => Sys2Proof.Machine.execWindowStartComplete t idx s
  | .windowRevoke t p => Sys2Proof.Machine.execWindowRevoke t p s
  | .windowExpire t idx => Sys2Proof.Machine.execWindowExpire t idx s
  | .windowStopComplete t idx => Sys2Proof.Machine.execWindowStopComplete t idx s
  | .windowReply t p => Sys2Proof.Machine.execWindowReply t p s
  | .doorbellWrite t p => Sys2Proof.Machine.execDoorbellWrite t p s
  | .slaiskAck t p => Sys2Proof.Machine.execSlaiskAck t p s
  | .slaiskNak t p => Sys2Proof.Machine.execSlaiskNak t p s
  | .ackCoalesceTimer t f => Sys2Proof.Machine.execAckCoalesceTimer t f s
  | .retransmitTimeout t f => Sys2Proof.Machine.execRetransmitTimeout t f s
  | .flowConfigure t w b => Sys2Proof.Machine.execFlowConfigure t w b s
  | .flowRemove t w b => Sys2Proof.Machine.execFlowRemove t w b s
  | .linkRequest t w n v => Sys2Proof.Machine.execLinkRequest t w n v s
  | .linkTrainingComplete t n b => Sys2Proof.Machine.execLinkTrainingComplete t n b s
  | .linkTrainingFail t n code => Sys2Proof.Machine.execLinkTrainingFail t n code s
  | .linkFailure t n replay => Sys2Proof.Machine.execLinkFailure t n replay s
  | .stopping t via => Sys2Proof.Machine.execStopping t via s
  | .flitReceive t n f => Sys2Proof.Machine.execFlitReceive t n f s
  | .replayTimeout t n => Sys2Proof.Machine.execReplayTimeout t n s
  | .command t e ds => Sys2Proof.Machine.execCommand t e ds s
  | .commandAck t e => Sys2Proof.Machine.execCommandAck t e s
  | .e2eTimeout t home id => Sys2Proof.Machine.execE2eTimeout t home id s
  | .migrateReserve t e x => Sys2Proof.Machine.execMigrateReserve t e x s
  | .migrateReply t e => Sys2Proof.Machine.execMigrateReply t e s
  | .pageData t e p => Sys2Proof.Machine.execPageData t e p s
  | .migrateCommit t e x digestOk => Sys2Proof.Machine.execMigrateCommit t e x digestOk s
  | .migrateCommitAck t e status => Sys2Proof.Machine.execMigrateCommitAck t e status s
  | .migrationTimeout t peer id => Sys2Proof.Machine.execMigrationTimeout t peer id s
  | .activation t m => Sys2Proof.Machine.execActivation t m s
  | .activationAck t e => Sys2Proof.Machine.execActivationAck t e s
  | .activationTimeout t mid => Sys2Proof.Machine.execActivationTimeout t mid s
  | .subrequest t e q data => Sys2Proof.Machine.execSubrequest t e q data s
  | .subresult t e p => Sys2Proof.Machine.execSubresult t e p s
  | .heartbeat t via src pick => Sys2Proof.Machine.execHeartbeat t via src pick s
  | .heartbeatSend t => Sys2Proof.Machine.execHeartbeatSend t s
  | .peerTimeout t dev => Sys2Proof.Machine.execPeerTimeout t dev s
  | .fatalMessage t via src reason pick => Sys2Proof.Machine.execFatalMessage t via src reason pick s
  | .stageReady t via src slot stage dom ready => Sys2Proof.Machine.execStageReady t via src slot stage dom ready s
  | .stageReadyResend t => Sys2Proof.Machine.execStageReadyResend t s
  | .memberTableWrite t w b => Sys2Proof.Machine.execMemberTableWrite t w b s
  | .routeWrite t w ix v => Sys2Proof.Machine.execRouteWrite t w ix v s
  | .treeParentWrite t w children v => Sys2Proof.Machine.execTreeParentWrite t w children v s
  | .deviceIndexWrite t w warp v => Sys2Proof.Machine.execDeviceIndexWrite t w warp v s
  | .checkpointBegin t d ok => Sys2Proof.Machine.execCheckpointBegin t d ok s
  | .ckptNotice t link m => Sys2Proof.Machine.execCkptNotice t link m s
  | .checkpointCut t => Sys2Proof.Machine.execCheckpointCut t s
  | .shardWriteComplete t ok => Sys2Proof.Machine.execShardWriteComplete t ok s
  | .ckptWritten t link m ok => Sys2Proof.Machine.execCkptWritten t link m ok s
  | .ckptCommit t link m => Sys2Proof.Machine.execCkptCommit t link m s
  | .ckptAbort t link m => Sys2Proof.Machine.execCkptAbort t link m s
  | .checkpointTimeout t => Sys2Proof.Machine.execCheckpointTimeout t s
  | .ckptMessageResend t => Sys2Proof.Machine.execCkptMessageResend t s
  | .restoreBegin t d rec commits => Sys2Proof.Machine.execRestoreBegin t d rec commits s
  | .restoreNotice t link m commit ms => Sys2Proof.Machine.execRestoreNotice t link m commit ms s
  | .restoreDone t link m => Sys2Proof.Machine.execRestoreDone t link m s
  | .channelFault t c src => Sys2Proof.Machine.execChannelFault t c src s
  | .channelSweepComplete t c => Sys2Proof.Machine.execChannelSweepComplete t c s
  | .fatalDetect t reason => Sys2Proof.Machine.execFatalDetect t reason s
  | .conservationAudit t => Sys2Proof.Machine.execConservationAudit t s
  | .monRequest t w hub k v => Sys2Proof.Machine.execMonRequest t w hub k v s
  | .monConfigWrite t w hub k cfg => Sys2Proof.Machine.execMonConfigWrite t w hub k cfg s
  | .monitorTransition t f => Sys2Proof.Machine.execMonitorTransition t f s
  | .monitorWindowEnd t f => Sys2Proof.Machine.execMonitorWindowEnd t f s
  | .traceRequest t w v => Sys2Proof.Machine.execTraceRequest t w v s
  | .traceConfigWrite t w cfg => Sys2Proof.Machine.execTraceConfigWrite t w cfg s
  | .traceBufferFull t => Sys2Proof.Machine.execTraceBufferFull t s
  | .traceStopPick t => Sys2Proof.Machine.execTraceStopPick t s
  | .powerRemoval t => Sys2Proof.Machine.execPowerRemoval t s
  | .pfcPauseExpire t p prio => Sys2Proof.Machine.execPfcPauseExpire t p prio s
  | .signatureIndexBlockReserved t ok => Sys2Proof.Machine.execSignatureIndexBlockReserved t ok s
  | .tokenisingComplete t k => Sys2Proof.Machine.execTokenisingComplete t k s
  | .listPassComplete t d id qs list bad => Sys2Proof.Machine.execListPassComplete t d id qs list bad s

end Sys2Proof.Machine
end

