-- ==== Sys2Proof/Safety.lean ====
section
/-! DEFINITION. What counts as a safe run, in the terms the statements use: the tables are in canonical form, and what the spec bounds is within its
bound. -/

namespace Sys2Proof.Machine

open Sys2Proof

/-- Keys strictly rising. -/
def Tbl.sorted {α : Type} (m : Tbl α) : Prop := m.Pairwise fun a b => a.1 < b.1

/-- A window's bytes in canonical form: addresses strictly rising, and no byte listed that an unlisted one reads as (R401's zero). -/
def memWf (m : List Host.Cell) : Bool := Tbl.wf (fun _ => (0 : BitVec 8)) m

/-- The tables are in canonical form: dictionary values, functions' records, windows' bytes. -/
structure State.Canonical (s : State) : Prop where
  regs : Tbl.sorted s.regs
  fns : Tbl.wf (fun _ => ({} : Fn)) s.fns = true
  mem : ∀ e ∈ s.sl.wins, memWf e.2.mem = true

/-- What the spec bounds: the throttle level at 8 (R23), the pick intervals in the mean at 16 (R59), the kept notifications at 256 and their numbers
at 32 bits (R98), the fault journal at 4,096 entries (R469), the trace buffer at 524,288 records (R502). -/
structure State.Bounded (s : State) : Prop where
  level : s.pw.level ≤ 8
  intervals : s.pk.intervals.length ≤ 16
  notices : s.wr.nlog.length ≤ 256
  number : s.wr.nseq < 2 ^ 32
  journal : s.fa.journal.length ≤ 4096
  trace : s.mn.trace.buf.length ≤ 524288

/-- The machine's invariant. -/
structure State.Inv (s : State) : Prop where
  canonical : s.Canonical
  bounded : s.Bounded

/-! ## Requests -/

/-- The open association that a request is protected for. -/
def State.assocOf (s : State) (w : WEnv) : Option Assoc := s.wr.assocs.find? fun a => w.prot && a.opened && a.id == w.assoc

/-- The device takes up a request as association a's next: it is live, the port is ON, the datagram comes to the UDP port in force in a frame of the port's VLAN, is
as its header says, and is of a version and type this device reads; its tag verifies, and its sequence is the one after the last (R11, R72-R75, R87, R90, R102,
R373). -/
structure State.Takes (s : State) (w : WEnv) (a : Assoc) : Prop where
  live : s.live = true
  port : s.isOn (.port w.port) = true
  udp : w.udp = s.wr.udp
  vlan : s.vidOk w.port w.vid = true
  size : w.sizeOk = true
  version : w.minVersion ≤ 1
  kind : w.badType = false
  fields : w.resv = false
  assoc : s.assocOf w = some a
  tag : w.tagOk = true
  seq : w.seq = a.q + 1

/-- A WRITE of these items passes every check of R86 and R507, and the store accepts it (R97). -/
structure State.Accepts (s : State) (w : WEnv) (a : Assoc) (items : List WItem) : Prop where
  given : items ≠ []
  few : items.length ≤ 32
  checks : s.checkItems a.role 0 a.sel items = none
  store : w.storeOk = true

/-- A reply to a request of association a has been sent. -/
def State.replied (u : State) (w : WEnv) (a : Assoc) (r : WReply) : Prop := Output.welrid w.port w.src a.id w.seq true r w.loc w.udp ∈ u.out

end Sys2Proof.Machine
end

