-- ==== Sys2Proof/Machine/Parts.lean ====
section
/-! DEFINITION. The parts of the state, as the statements name them: what a command leaves as it was. -/

namespace Sys2Proof.Machine

open Sys2Proof

/-- The non-volatile store but for the ends of reserved counters (R126, R170, R425). -/
def NV.rest (x : NV) : NV := { x with nonceEnd := [], versionEnd := [], msgEnd := 0 }

/-- The package's state but for what a drain has moved (R40). -/
def Power.rest (x : Power) : Power := { x with drainNext := [], drainExp := [], drainBad := [] }

/-- The pick logic's state but for the barrier and the count of stamps. -/
def Pick.rest (x : Pick) : Pick := { x with barrier := none, seq := 0 }

/-- The security element's state but for the page nonce counters. -/
def Security.rest (x : Security) : Security := { x with nonces := [] }

/-- The pick logic's state but for the count of stamps taken. -/
def State.pkCore (s : State) : Pick := { s.pk with seq := 0 }

/-- Welrid's state but for the notifications numbered and kept. -/
def State.wrCore (s : State) : Welrid := { s.wr with nseq := 0, nlog := [] }

/-- The settings and every other dictionary value that the device does not write of itself are as they were. -/
def State.sameSettings (s t : State) : Prop := ∀ x ∈ Dict.table, x.acc ≠ .ro → ∀ sub i, t.reg x sub i = s.reg x sub i

/-- A Slaisk window (R399). -/
def FnId.isWindow : FnId → Bool
  | .window _ => true
  | _ => false

/-- The functions that are not windows have the records they had. -/
def State.sameFns (s t : State) : Prop := ∀ f : FnId, f.exists = true → FnId.isWindow f = false → t.fn f = s.fn f

/-- The parts of the state. -/
inductive Part where
  /-- The block's time. -/
  | clock
  /-- The commands that wait. -/
  | queue
  /-- What the block has sent: packets, records, replies, notifications, messages. -/
  | sent
  /-- Every stored value of the dictionary, the counters among them. -/
  | values
  /-- The dictionary's values that the device does not write of itself. -/
  | settings
  /-- The non-volatile store; and it but for the ends of reserved counters. -/
  | store
  | storeCore
  /-- The functions' records; and those of functions that are not Slaisk windows. -/
  | functions
  | fixedFns
  /-- The package and its power; and it but for what a drain has moved. -/
  | package
  | packageCore
  /-- The pick logic; it but for the count of stamps; and it but for that and the barrier. -/
  | picks
  | pickCore
  | pickState
  /-- Welrid's associations, snapshots and transfers, and its notifications; and all but the notifications. -/
  | welrid
  | welridCore
  /-- The security element; and it but for the page nonce counters. -/
  | security
  | securityCore
  | sessions
  | frames
  | fabric
  | serving
  | text
  | search
  | slaisk
  | ethernet
  | warp
  | checkpoint
  | faults
  | monitors
  deriving DecidableEq, Repr

/-- u has that part of s as it was. -/
def Part.same (s u : State) : Part → Prop
  | .clock => u.now = s.now
  | .queue => u.pending = s.pending
  | .sent => u.out = s.out
  | .values => u.regs = s.regs
  | .settings => s.sameSettings u
  | .store => u.nv = s.nv
  | .storeCore => u.nv.rest = s.nv.rest
  | .functions => u.fns = s.fns
  | .fixedFns => s.sameFns u
  | .package => u.pw = s.pw
  | .packageCore => u.pw.rest = s.pw.rest
  | .picks => u.pk = s.pk
  | .pickCore => u.pkCore = s.pkCore
  | .pickState => u.pk.rest = s.pk.rest
  | .welrid => u.wr = s.wr
  | .welridCore => u.wrCore = s.wrCore
  | .security => u.sc = s.sc
  | .securityCore => u.sc.rest = s.sc.rest
  | .sessions => u.ss = s.ss
  | .frames => u.tm = s.tm
  | .fabric => u.fb = s.fb
  | .serving => u.sv = s.sv
  | .text => u.tx = s.tx
  | .search => u.se = s.se
  | .slaisk => u.sl = s.sl
  | .ethernet => u.et = s.et
  | .warp => u.dx = s.dx
  | .checkpoint => u.ck = s.ck
  | .faults => u.fa = s.fa
  | .monitors => u.mn = s.mn

/-- u is s in every part but those of the list. -/
def State.sameBut (s : State) (l : List Part) (u : State) : Prop := ∀ p : Part, p ∉ l → p.same s u

end Sys2Proof.Machine
end

