-- ==== Sys2Proof/Machine/Terms.lean ====
section
/-! DEFINITION. Terms that the statements use: what a command does when it has its effect. -/

namespace Sys2Proof.Machine

open Sys2Proof

/-- What an event or a notification changes: what is sent, the stamps, the notification log, the counters and the trace. -/
def noted : List Part := [.sent, .picks, .welrid, .monitors]

/-- The parts that are lost with the switched domains' power: they are as at reset, and of the fault state only the journal is left (R20). -/
def State.lostAll (u : State) : Prop :=
  u.fa = { State.reset.fa with journal := u.fa.journal, jseq := u.fa.jseq } ∧
  ∀ p ∈ [Part.functions, .serving, .sessions, .fabric, .text, .search, .slaisk, .ethernet, .warp, .checkpoint, .monitors], p.same State.reset u

/-- The command takes the FATAL path with that reason (R477, R478): the package is ISOLATED, everything volatile is lost, the store is as it was but
for the journal's copy, whose last entry is this fault, as the journal's own is, `fault.last_fatal` begins with the reason, and every open association has been sent
the notice on each port that is ON. -/
def Isolates (s : State) (i : Instr) (reason : Nat) : Prop :=
  ∃ u, exec i s = .next u ∧ u.pw.pkg = .isolated ∧ u.pw.isolated = true ∧ u.pk.current = s.pk.current ∧ u.lostAll ∧
    (∃ l j, u.nv = { s.nv with jcopy := l } ∧ l.getLast? = some j ∧ j.cls = 3 ∧ j.chan = 0xFF ∧ j.reason = reason ∧ u.fa.journal.getLast? = some j) ∧
    beField 32 (u.reg Dict.faultLastFatal) 0 1 = reason ∧ (∀ o ∈ s.out, o ∈ u.out) ∧
    ∀ a ∈ s.wr.assocs, a.opened = true → ∀ p < 2, s.isOn (.port p) = true →
      ∃ n, Output.notify p a.src a.id n a.loc s.wr.udp ∈ u.out ∧ n.reason = 0x0901 ∧ n.detail = [reason] ++ beBytes 8 s.pk.current

/-- Whether the image of a slot verifies: it is there, its signatures and digests hold, and its SVN is not below the fused one (R106). -/
def NV.verifies (n : NV) (i : Nat) : Prop := ∃ x, (if i = 0 then n.fwA else n.fwB) = some x ∧ x.ok = true ∧ n.fusedSvn ≤ x.svn

/-- u has booted from the store n with preferred slot pref (R54, R107, R110, R121): BOOT, the pick floor, the domains' keys and the signature index come from
the store; the preferred slot runs if it verifies, else the other, else none (`was` still stands); an unconfirmed image counts a trial, and after three the
confirmed one is preferred again.  The Ethernet block starts when an image runs. -/
def Boots (n : NV) (pref : Nat) (was : Option Nat) (u : State) : Prop :=
  let runs (i : Nat) : Prop :=
    (i = n.fwConfirmed → u.sc.running = some i ∧ u.nv.fwTrials = n.fwTrials) ∧
    (i ≠ n.fwConfirmed → n.fwTrials < 3 → u.sc.running = some i ∧ u.nv.fwTrials = n.fwTrials + 1) ∧
    (i ≠ n.fwConfirmed → 3 ≤ n.fwTrials → u.nv.fwTrials = 0 ∧ u.reg Dict.secFwPreferred = n.fwConfirmed ∧
      (n.verifies n.fwConfirmed → u.sc.running = some n.fwConfirmed) ∧ (¬n.verifies n.fwConfirmed → u.sc.running = was))
  u.pw.pkg = .boot ∧ u.pk.current = n.floor ∧ u.sc.n = n.sigEnd ∧ u.sc.doms = n.keys.map (fun e => (e.1, { root := Config.dukWrap.symm e.2.1, epoch := e.2.2, active := e.2.2 })) ∧
  u.nv.fusedSvn = n.fusedSvn ∧ u.nv.claimed = n.claimed ∧ u.nv.fwConfirmed = n.fwConfirmed ∧ u.nv.restoreMark = false ∧
  (n.verifies pref → runs pref) ∧ (¬n.verifies pref → n.verifies (1 - pref) → runs (1 - pref)) ∧
  (¬n.verifies pref → ¬n.verifies (1 - pref) → u.sc.running = was ∧ u.nv.fwTrials = n.fwTrials) ∧
  (u.sc.running ≠ none → (u.fn (.dom 76)).st = .starting)

/-- The command completes, with a WRITE's reply: its setting has the value written, on every object the selection names, and no other setting has
changed. -/
def Stores (s : State) (i : Instr) (w : WEnv) (a : Assoc) (e : Entry) (sub v : Nat) : Prop :=
  ∃ u, exec i s = .next u ∧ u.replied w a .write ∧ (∀ o ∈ targets e a.sel, u.reg e sub o = v % 256 ^ e.size) ∧
    ∀ x ∈ Dict.table, x.acc ≠ .ro → ∀ sub' o', (∀ o ∈ targets e a.sel, regKey x sub' o' ≠ regKey e sub o) → u.reg x sub' o' = s.reg x sub' o'

/-- What the end of a running step, an owed step, a pending barrier or a drain may change after a WRITE (R40, R63, R68, R270), with its reply. -/
def settled : List Part :=
  [.sent, .values, .store, .package, .packageCore, .picks, .pickCore, .welrid, .welridCore, .security, .sessions, .frames, .fabric, .serving, .search, .slaisk, .warp, .faults, .monitors]

/-- No step is owed, no barrier is pending and no drain goes on: nothing but the running step's end can follow a WRITE. -/
def State.still (s : State) : Prop := s.sv.owed = false ∧ s.pk.barrier = none ∧ s.pw.pkg ≠ .draining

/-- The command completes, with a WRITE's reply, and leaves a state with property p; beside what may follow any WRITE, only the parts of l change. -/
def Writes (s : State) (t : Nat) (i : Instr) (w : WEnv) (a : Assoc) (l : List Part) (p : State → Prop) : Prop :=
  ∃ u, exec i s = .next u ∧ u.replied w a .write ∧ (s.at t).sameBut (l ++ settled) u ∧ p u

/-- An entry whose WRITE only replaces its value (R94): it is no select value, requests nothing, and its chapter gives its WRITE no other effect. -/
def Entry.plain (e : Entry) : Bool :=
  !e.isIn [Dict.channelSelect, Dict.domainSelect, Dict.modelSelect, Dict.powerHubRequest, Dict.chpowerRequest, Dict.ethRequest, Dict.dnxLinkRequest, Dict.sealRequest, Dict.monRequest,
    Dict.chmonRequest, Dict.traceRequest, Dict.dictRestoreDefaults, Dict.roleSecretObserver, Dict.roleSecretOperator, Dict.roleSecretFabric, Dict.roleSecretCustodian, Dict.packageReset,
    Dict.packageRemoveRequest, Dict.pickBarrierAt, Dict.secFwSvnCommit, Dict.secFwConfirm, Dict.dsecAttestNonce, Dict.dsecKeyErase, Dict.dsecTileGroups, Dict.fabricFenceClear,
    Dict.dbudgetAdjust, Dict.dbudgetRefill, Dict.dbudgetCap, Dict.mstepDraftSlot, Dict.dsessNotifyFlow, Dict.dslaiskIoFlow, Dict.dtierFarFlow, Dict.dtierFarKey, Dict.dtierFarBase,
    Dict.dtierFarFrames, Dict.warpRoute, Dict.ptpEnable]

/-- A Welrid message of a HELLO reaches this device, and its header is sound (R11, R72, R74). -/
structure State.Heard (s : State) (w : WEnv) : Prop where
  live : s.live = true
  port : s.isOn (.port w.port) = true
  udp : w.udp = s.wr.udp
  vlan : s.vidOk w.port w.vid = true
  size : w.sizeOk = true
  version : w.minVersion ≤ 1
  kind : w.badType = false
  fields : w.resv = false

/-- The segment b ends association a's transfer to a BLOCK entry, whose content is `data` (R93): it is the only segment, or goes on from what the transfer holds, and no other
association's transfer keeps the entry. -/
structure State.LastSegment (s : State) (a : Assoc) (e : Entry) (b : WBlk) (data : Bytes) : Prop where
  fields : b.resv = false
  may : s.wblockMay a.role a.sel e.addr = 0
  last : b.last = true
  size : b.data.length ≤ 1024 ∧ b.total ≤ e.ty.maxBlock ∧ data.length = b.total
  whole : (b.first = true ∧ b.off = 0 ∧ data = b.data ∧
      ∀ x ∈ s.wr.xfers, x.addr = e.addr → x.scope = (targets e a.sel).headD 0 → x.assoc ≠ a.id → x.last + 10000000000 ≤ s.now) ∨
    (b.first = false ∧ ∃ x, (s.wr.xfers.find? fun x => x.addr == e.addr && x.scope == (targets e a.sel).headD 0 && x.assoc == a.id) = some x ∧
      x.total = b.total ∧ b.off = x.data.length ∧ data = x.data ++ b.data)

/-- A firmware image that R106 and R108 accept on a device with that fused SVN: the header's fields, the length, the image's digest and both signatures. -/
def imageOk (fused : Nat) (b : Bytes) : Prop :=
  2884 ≤ b.length ∧ be b 1 1 ≤ 1 ∧ b.length = 2884 + leNat ((b.drop 16).take 8) ∧
  1 ≤ leNat ((b.drop 4).take 4) ∧ leNat ((b.drop 4).take 4) ≤ 64 ∧ fused ≤ leNat ((b.drop 4).take 4) ∧
  leNat (beBytes 32 (Config.shake256 (b.drop 2884) 32)) = leNat ((b.drop 24).take 32) ∧ Config.fwSigOk (b.take 64) ((b.drop 64).take 2820) = true

/-- A counter of the dictionary has counted one more (R8: it wraps at its width). -/
def State.counted (s : State) (e : Entry) (u : State) : Prop := u.reg e = (s.reg e + 1) % 2 ^ e.ty.width

/-- The pick with number n that waits for its action point from a moment s on (R56): the action point is `due`, or 100 ns ahead, and it is late when less remains. -/
def State.waiting (s : State) (n due : Nat) (hold coal : Bool) : PendPick :=
  { num := n, due := Nat.max due (s.now + 100), hold := hold, coal := coal, late := decide (due < s.now + 100), src := true }

/-- What the action point of pick q leaves of the pick logic (R55, R58-R60), `rest` still waiting. -/
def Pick.acted (p : Pick) (q : PendPick) (rest : List PendPick) : Pick :=
  { p.learn q with
    pend := rest, current := q.num, hold := q.hold, seq := 0, lastAct := some q.due, actAt := q.due, st := if q.hold then .holdover else .synced, sepFrom := if q.coal then p.sepFrom else some q.due }

/-- PICK_LOST is entered (R60, R61). -/
def Pick.toLost (p : Pick) : Pick := { p with st := .lost, holdNext := none, lastSrc := none }

/-- The command queues pick n for action at `due`; beside that, the pick logic is as pk has it (R51, R52, R56). -/
def State.QueuesPick (s : State) (t : Nat) (i : Instr) (n due : Nat) (hold coal : Bool) (pk : Pick) : Prop :=
  ∃ u, exec i s = .next u ∧ u.pk.rest = { pk with holdNext := none, pend := s.pk.pend ++ [(s.at t).waiting n due hold coal] }.rest ∧
    (s.at t).sameBut ([.values, .pickCore, .pickState, .warp] ++ noted) u

/-- The command is counted as a rejected pick, and the pick logic is as pk has it (R51, R55). -/
def State.RejectsPick (s : State) (t : Nat) (i : Instr) (pk : Pick) : Prop :=
  ∃ u, exec i s = .next u ∧ u.pk.rest = pk.rest ∧ s.counted Dict.pickRejectCount u ∧ (s.at t).sameBut ([.values, .pickCore, .pickState, .warp] ++ noted) u

/-- What the command does with a message's pick n (R55, R60): a number above the last one's, by at most 2^40, is queued, any other rejected; but one that is not above it is
absorbed in HOLDOVER. -/
def State.NumbersPick (s : State) (t : Nat) (i : Instr) (n due : Nat) (hold coal : Bool) (pk : Pick) : Prop :=
  (s.pk.lastNum < n → n ≤ s.pk.lastNum + 2 ^ 40 → s.QueuesPick t i n due hold coal pk) ∧ (s.pk.lastNum + 2 ^ 40 < n → s.RejectsPick t i pk) ∧
  (n ≤ s.pk.lastNum → s.pk.st ≠ .holdover → s.RejectsPick t i pk) ∧
  (n ≤ s.pk.lastNum → s.pk.st = .holdover → ∃ u, exec i s = .next u ∧ u.pk.rest = { pk with st := .synced, holdNext := none, lastAct := some due }.rest)

/-! ## Function requests (R29-R32) -/

/-- f is a channel service domain whose departure is still swept (R509). -/
def State.stillSwept (s : State) : FnId → Bool
  | .dom n => isService (.dom n) && s.fa.sweeping.contains (n / 18)
  | _ => false

/-- The ON column of R32; a channel whose departure is still swept waits in OFF (R509). -/
def State.onColumn (s : State) (f : FnId) : Fn :=
  let r := s.fn f
  match r.st with
  | .off => if r.pend = .on then r else if s.stillSwept f then { r with st := .off, pend := .on } else { r with st := .starting, pend := .none }
  | .starting => { r with pend := .none }
  | .on => r
  | .stopping => { r with pend := .on }

/-- The record of f after an ON request that R29 does not refuse: the ON column of R32 where the parent is ON or there is none, R29's waiting where it is
STARTING, and the exception for a channel whose PHY pair is OFF. -/
def State.afterOn (s : State) (f : FnId) : Fn :=
  match parentOf f with
  | none => s.onColumn f
  | some p =>
    match (s.fn p).st with
    | .on => s.onColumn f
    | .starting => if (s.fn f).st = .off then { s.fn f with pend := .on } else s.onColumn f
    | _ => { s.fn f with pend := .on }

/-- What an OFF request leaves of a record, after R30 and R32's OFF column: one that is ON begins STOPPING, or waits for its children with OFF in its slot. -/
def Fn.afterOff (r u : Fn) : Prop :=
  match r.st with
  | .off => u = { r with pend := .none }
  | .starting => u = { r with pend := .off }
  | .stopping => u = { r with pend := .none }
  | .on => u = { r with st := .stopping, pend := .none } ∨ u = { r with pend := .off }

/-- The command completes, with a WRITE's reply, as a request for each function of fs: ON where v is 1, OFF where it is 0. -/
def Asks (s : State) (i : Instr) (w : WEnv) (a : Assoc) (fs : List FnId) (v : Nat) : Prop :=
  ∃ u, exec i s = .next u ∧ u.replied w a .write ∧ (∀ f ∈ fs, (v = 1 → u.fn f = s.afterOn f) ∧ (v = 0 → (s.fn f).afterOff (u.fn f))) ∧
    ∀ g : FnId, g.exists = true → FnId.isWindow g = false → g ∉ fs → (∀ f ∈ fs, parentOf f ≠ some g ∧ parentOf g ≠ some f ∧ (parentOf g).bind parentOf ≠ some f) → u.fn g = s.fn g

/-! ## Transitions (R29, R30, R33, R509) -/

/-- What the completion of STARTING leaves of f (R33, R29, R30): ON without fault; where OFF is pending, STOPPING, or ON that waits for its children. -/
def State.afterStart (s : State) (f : FnId) (u : State) : Prop :=
  ((s.fn f).pend ≠ .off → u.fn f = { st := .on, pend := .none, fault := false }) ∧
  ((s.fn f).pend = .off → s.childrenOff f = true → u.fn f = { st := .stopping, pend := .none, fault := false }) ∧
  ((s.fn f).pend = .off → s.childrenOff f = false → u.fn f = { st := .on, pend := .off, fault := false })

/-- What the completion of STOPPING leaves of f (R33): OFF; where ON is pending, STARTING, but for a channel that is still swept (R509); a seal starts again only as R132
asks (log 164). -/
def State.afterStop (s : State) (f : FnId) (u : State) : Prop :=
  ((s.fn f).pend ≠ .on ∨ s.startMay f = false → u.fn f = { s.fn f with st := .off, pend := .none }) ∧
  ((s.fn f).pend = .on → s.startMay f = true → s.stillSwept f = false → u.fn f = { s.fn f with st := .starting, pend := .none }) ∧
  ((s.fn f).pend = .on → s.startMay f = true → s.stillSwept f = true → u.fn f = { s.fn f with st := .off, pend := .on })

/-- Every open association whose port is ON has been sent a notification of that reason and detail (R98). -/
def State.notified (s : State) (reason : Nat) (detail : Bytes) (u : State) : Prop :=
  ∀ a ∈ s.wr.assocs, a.opened = true → s.isOn (.port a.port) = true → ∃ n, Output.notify a.port a.src a.id n a.loc s.wr.udp ∈ u.out ∧ n.reason = reason ∧ n.detail = detail

/-- No function has a new record but f, its children and its parent. -/
def State.onlyNear (s : State) (f : FnId) (u : State) : Prop :=
  ∀ g : FnId, g.exists = true → FnId.isWindow g = false → g ≠ f → parentOf g ≠ some f → parentOf f ≠ some g → u.fn g = s.fn g

/-- An event counter (R488). -/
def FnId.isCounter : FnId → Bool
  | .hubMon _ => true
  | .chMon _ _ => true
  | _ => false

/-- The last notification has that reason and detail. -/
def State.lastNotice (u : State) (reason : Nat) (detail : Bytes) : Prop := ∃ n, u.wr.nlog.getLast? = some n ∧ n.reason = reason ∧ n.detail = detail

/-! ## Sessions (R145-R157) -/

/-- Slot k's ring begins with q, a command of that opcode that can be taken up (R147, R152, R157): its session runs no command, has none of its rows in the running step and is
not being closed, no record of its domain waits, nothing is held, and no session is on its way to the slot (R435). -/
structure State.Ready (s : State) (k opcode : Nat) (q : QDesc) (rest : List QDesc) : Prop where
  ring : (s.sess k).ring = q :: rest
  op : q.d.opcode = opcode
  free : (s.sess k).run = none
  room : s.stalled q.dom = false
  held : s.sv.held = false
  opened : (s.sess k).closePend = false
  idle : s.inStep k = false
  unreserved : s.slotReserved k = false
  tables : Tbl.sorted s.ss.tbl ∧ Tbl.sorted s.ss.cq

/-- A ready command that is neither late nor turned away in PICK_LOST, and whose cell does not make it wait (R154, R156, R61). -/
structure State.Goes (s : State) (k opcode : Nat) (q : QDesc) (rest : List QDesc) : Prop extends s.Ready k opcode q rest where
  inTime : s.isLate q.d.deadline = false
  picks : ¬(s.pk.st = .lost ∧ Machine.admits opcode = true)
  cell : matrix (s.sess k).st opcode ≠ .w

/-- The priority that slot k's session has once the command is taken (R147). -/
def State.prioOf (s : State) (k : Nat) (q : QDesc) : Nat :=
  if bit q.d.deadline 51 && decide (q.d.opcode ≠ 1) && decide ((s.sess k).st ≠ .free) then Nat.min (bits q.d.deadline 50 48) (s.reg Dict.dsessPriorityCap 0 (s.sess k).dom)
  else (s.sess k).prio

/-- The state in which a command that is taken checks its operands: its session's entry is used (R162), and its priority set. -/
def State.taking (s : State) (k : Nat) (q : QDesc) : State :=
  let x := s.sess k
  (s.when (decide (q.inSt = 0)) fun s => s.touchEntry k).when (bit q.d.deadline 51 && decide (q.d.opcode ≠ 1) && decide (x.st ≠ .free)) fun s =>
    s.setSess k { s.sess k with prio := Nat.min (bits q.d.deadline 50 48) (s.reg Dict.dsessPriorityCap 0 x.dom) }

/-- The session's entry without the command at its ring's head. -/
def Sess.popped (x : Sess) (rest : List QDesc) : Sess := { x with ring := rest, head := (x.head + 1) % 65536 }

/-- A record for domain d was posted (R157): written where its queue has room, otherwise held. -/
def State.posts (s : State) (d : Nat) (p : Rec → Prop) (u : State) : Prop :=
  (s.cqRoom d = true → (u.cq d).written = ((s.cq d).written + 1) % 2 ^ 32) ∧ (s.cqRoom d = false → ∃ h, (u.cq d).held = [h] ∧ h.notif = false ∧ p h.r)

/-- A descriptor's completion with that status and progress. -/
def Rec.completes (q : QDesc) (status progress : Nat) (r : Rec) : Prop :=
  r.handle = q.d.session ∧ r.seq = q.d.seq ∧ r.opcode = q.d.opcode ∧ r.status = status ∧ r.progress = progress % 2 ^ 32

/-- The command q at slot k's ring head completes with that status, as state v found it: it leaves the ring, its record is posted, no deadline is left (R156), and beside that the session is as v has it. -/
def State.EndsHead (s v : State) (i : Instr) (k : Nat) (q : QDesc) (rest : List QDesc) (status : Nat) : Prop :=
  ∃ u, exec i s = .next u ∧ u.sess k = { (v.sess k).popped rest with deadline := 0 } ∧ v.posts q.dom (Rec.completes q status 0) u

/-- The session after a command's handles are bound (R151, R303, R311): a grammar handle that is not 0 resets the grammar state. -/
def Sess.bind (x : Sess) (q : QDesc) : Sess :=
  { (if q.d.grammar ≠ 0 ∧ x.gstate ≠ gNone then { x with gstate := gNone, ctx := { x.ctx with stack := [] } } else x) with
    grammar := if q.d.grammar = 0 then x.grammar else q.d.grammar, stop := if q.d.stopSet = 0 then x.stop else q.d.stopSet, sampling := if q.d.sampling = 0 then x.sampling else q.d.sampling }

/-- The session with the command at its ring's head running (R147, R156). -/
def Sess.started (x : Sess) (q : QDesc) (rest : List QDesc) (current : Nat) : Sess :=
  { x.popped rest with run := some { q := q, lastRec := current }, outFail := false, deadline := q.d.deadline % 2 ^ 48, waitFrom := none, bwait := 0 }

/-- A session but for its pages and what its moves and its draft keep beside them. -/
def Sess.core (x : Sess) : Sess :=
  { x with pages := [], waitFrom := none, reserved := false, draftLen := 0, draftStale := false, kvLen := 0, recompute := none, recompTo := 0, slate := false, stage := [], fresh := false, xst := 0, xask := [], xio := 0, run := x.run.map fun r => { r with moved := 0 } }

/-- The session after its running command has ended (R156). -/
def Sess.ended (x : Sess) : Sess := { x with run := none, deadline := 0, waitFrom := none, bwait := 0, masks := [], late := false }

/-- Session k's running command r ends with that status: the session is left in state st without it, as f says, and the command's record is posted. -/
def State.RowEnds (s : State) (i : Instr) (k : Nat) (r : Run) (st : SSt) (status : Nat) (f : Sess → Prop) : Prop :=
  ∃ u, exec i s = .next u ∧ (u.sess k).st = st ∧ (u.sess k).run = none ∧ f (u.sess k) ∧ ∃ (w : State) (n : Nat), w.ss.cq = s.ss.cq ∧ w.posts r.q.dom (Rec.completes r.q status n) u

/-! ## Domain commands (R150) -/

/-- Domain d's control ring begins with q, a command of that opcode that is taken now, with `rest` behind it (R150, R161); no record of the domain waits. -/
structure State.Taken (s : State) (d opcode : Nat) (q : QDesc) (rest : List QDesc) : Prop where
  head : s.domHead d opcode = some q
  ring : (s.dring d).waiting = q :: rest
  fresh : ∀ r ∈ (s.dring d).running, r.id ≠ (s.dring d).nextId
  own : q.dom = d
  room : s.stalled d = false
  cq : Tbl.sorted s.ss.cq
  rings : Tbl.sorted s.ss.rings

/-- A command that is taken, and neither late nor turned away in PICK_LOST or by a checkpoint drain (R156, R61, R449). -/
structure State.Starts (s : State) (d opcode : Nat) (q : QDesc) (rest : List QDesc) : Prop extends s.Taken d opcode q rest where
  inTime : s.isLate q.d.deadline = false
  picks : ¬(s.pk.st = .lost ∧ Machine.admits opcode = true)
  drain : ¬(s.ck.drain = true ∧ drainHolds opcode = true)

/-- The bytes b are its input (R149, R397): none where its length is 0, else what its region gave. -/
def State.Brings (s : State) (d : Nat) (q : QDesc) (rec : Option Bytes) (b : Bytes) : Prop :=
  (q.d.dataLen = 0 ∧ b = []) ∨ (q.d.dataLen ≠ 0 ∧ (∃ f k o, s.ref d q.d.dataRef q.d.dataLen false = .region f k o) ∧ rec = some b ∧ b.length = q.d.dataLen)

/-- The command q at the front of domain d's ring completes with that status and progress: it leaves the ring, the commands that run go on, its record is posted, and the state has
property p. -/
def State.DomDone (s : State) (i : Instr) (d : Nat) (q : QDesc) (rest : List QDesc) (status progress : Nat) (p : State → Prop) : Prop :=
  ∃ u, exec i s = .next u ∧ (u.dring d).waiting = rest ∧ (u.dring d).running = (s.dring d).running ∧ (∃ w : State, w.ss.cq = s.ss.cq ∧ w.posts d (Rec.completes q status progress) u) ∧ p u

/-- The command q at the front of domain d's ring runs on: it has left the ring and is among the running ones as r gives it, and the state has property p. -/
def State.DomRuns (s : State) (i : Instr) (d : Nat) (rest : List QDesc) (r : DRun) (p : State → Prop) : Prop :=
  ∃ u, exec i s = .next u ∧ (u.dring d).waiting = rest ∧ (u.dring d).running = (s.dring d).running ++ [r] ∧ p u

/-- The running command r of domain d's ring completes with that status and progress: it leaves the running ones, its record is posted, and the state has property p. -/
def State.RunEnds (s : State) (i : Instr) (d : Nat) (r : DRun) (status progress : Nat) (p : State → Prop) : Prop :=
  ∃ u, exec i s = .next u ∧ (u.dring d).waiting = (s.dring d).waiting ∧ (u.dring d).running = (s.dring d).running.filter (fun x => x.id != r.id) ∧
    (∃ w : State, w.ss.cq = s.ss.cq ∧ w.posts d (Rec.completes r.q status progress) u) ∧ p u

/-- The command r of domain d runs, and a record of the domain finds room or can be held. -/
structure State.Runs (s : State) (d : Nat) (r : DRun) : Prop where
  run : s.drun d r.id = some r
  own : r.q.dom = d
  room : s.stalled d = false
  cq : Tbl.sorted s.ss.cq
  rings : Tbl.sorted s.ss.rings

/-- The record of command q as it starts to run. -/
def State.runOf (s : State) (d : Nat) (q : QDesc) : DRun := { id := (s.dring d).nextId, q := q, since := s.pk.current }

/-- A counter of a channel has counted n more. -/
def State.countedOn (s : State) (e : Entry) (c n : Nat) (u : State) : Prop := u.reg e 0 c = (s.reg e 0 c + n) % 2 ^ e.ty.width

/-! ## Slaisk packets (R378, R384-R392) -/

/-- WRITE packets for the region `key` that carry those bytes, from byte offset `off` on, were queued on flow f behind what it had (R378, R392). -/
def State.wrote (s : State) (f key off : Nat) (b : Bytes) (u : State) : Prop :=
  ∃ ps : List TxPkt, (u.flow f).unacked ++ (u.flow f).waiting = (s.flow f).unacked ++ (s.flow f).waiting ++ ps ∧ ps.flatMap (·.data) = b ∧ (∀ p ∈ ps, p.op = 2 ∧ p.target = key) ∧ ∀ p ∈ ps.head?, p.offset = off

/-- One packet of that opcode, target, syndrome and aux was queued on flow f behind what it had. -/
def State.queued (s : State) (f op target syndrome aux : Nat) (u : State) : Prop :=
  ∃ p : TxPkt, (u.flow f).unacked ++ (u.flow f).waiting = (s.flow f).unacked ++ (s.flow f).waiting ++ [p] ∧ p.op = op ∧ p.target = target ∧ p.syndrome = syndrome ∧ p.aux = aux

/-- A packet reaches its flow and passes every check before its sequence (R384, R386, R122), and its form is sound (R379). -/
structure State.Accepted (s : State) (p : SPkt) : Prop where
  live : s.live = true
  on : p.port < 2 ∧ s.isOn (.port p.port) = true
  sound : s.fa.fatal = false
  ready : s.flowReady p.flow = true
  ports : bit (s.flow p.flow).cfg.ports p.port = true
  vlan : s.vidOk p.port p.vid = true
  src : p.srcOk = true
  dom : p.domain = (s.flow p.flow).cfg.dom
  crc : p.data = [] ∨ p.crcOk = true
  auth : (s.protects p.domain || p.prot) = true → p.prot = true ∧ p.tagOk = true ∧ s.parityOk p.domain p.parity = true
  form : s.formOk p = true
  flows : Tbl.sorted s.sl.flows

/-- How far a packet's PSN is ahead of the one its flow expects, modulo 2^24 (R387). -/
def State.ahead (s : State) (p : SPkt) : Nat := (p.psn + 2 ^ 24 - (s.flow p.flow).rx % 2 ^ 24) % 2 ^ 24

/-- An accepted packet is the next of its flow (R387), and acknowledges nothing. -/
structure State.InOrder (s : State) (p : SPkt) : Prop extends s.Accepted p where
  next : s.ahead p = 0
  plain : p.ackValid = false

/-- An ACK (false) or NAK (true) of that PSN and syndrome was sent on the flow's port, where it has one that is ON (R385, R388). -/
def State.answered (s : State) (p : SPkt) (nak : Bool) (psn syndrome : Nat) (u : State) : Prop :=
  ∀ port, s.flowPort p.flow = some port → Output.ackNak port p.flow nak psn syndrome ((s.flow p.flow).ctrTx + 1) ∈ u.out

/-- The packet is carried out: its flow expects the next PSN, a packet that asks for it is acknowledged, and the state has property f (R387, R388). -/
def State.Carries (s : State) (i : Instr) (p : SPkt) (f : State → Prop) : Prop :=
  ∃ u, exec i s = .next u ∧ (u.flow p.flow).rx = (s.flow p.flow).rx + 1 ∧ (u.flow p.flow).gap = false ∧ (p.ackReq = true → s.answered p false p.psn 0 u) ∧ f u

/-- The packet is refused with that syndrome: its flow expects the next PSN, an error NAK was sent and counted, and windows, sessions and rings are as they were (R379, R387). -/
def State.RefusesPkt (s : State) (t : Nat) (i : Instr) (p : SPkt) (syndrome : Nat) : Prop :=
  ∃ u, exec i s = .next u ∧ (u.flow p.flow).rx = (s.flow p.flow).rx + 1 ∧ s.answered p true p.psn syndrome u ∧ (Tbl.sorted s.regs → s.counted Dict.slaiskNakErrorCount u) ∧ u.sl.wins = s.sl.wins ∧
    (s.at t).sameBut (.slaisk :: .values :: noted) u

/-- Nothing waits for an operation to end: a step that runs has rows or chunks left, none is owed, no barrier is pending, no drain goes on, no export reads or writes, no far frame waits for its test, no
move for its start, and no SELECT for a lane. -/
structure State.atRest (s : State) : Prop where
  run : ∀ v, s.sv.run = some v → v.rows ≠ [] ∨ v.chunks ≠ []
  owed : s.sv.owed = false
  barrier : s.pk.barrier = none
  drain : s.pw.pkg ≠ .draining
  exports : ∀ e ∈ s.ss.tbl, e.2.xst ≠ 1
  tests : ∀ e ∈ s.tm.far, e.2 / 10 ≠ 1
  moves : ∀ m ∈ s.tm.moves, m.started = true
  lanes : s.se.selects = [] ∧ s.se.lanes = []

/-! ## Messages of the warp (R422-R426, R429) -/

/-- The tables of links and of each link's waiting flits, and of the members, are in canonical form. -/
structure State.Linked (s : State) : Prop where
  links : Tbl.sorted s.dx.links
  queues : ∀ n, Tbl.sorted (s.link n).q
  peers : Tbl.sorted s.dx.peers

/-- A message with property p is on its way: it waits for a usable set, or a flit that begins it waits on a link or has gone out (R422, R429). -/
def State.sends (u : State) (p : DMsg → Prop) : Prop :=
  ∃ m, p m ∧ (m ∈ u.dx.waiting ∨ (∃ n vc, ∃ f ∈ (u.link n).queue vc, f.pay = .part m 0) ∨ ∃ n seq f, Output.flit n seq f ∈ u.out ∧ f.pay = .part m 0)

/-- A message's fields. -/
def DMsg.is (m : DMsg) (typ dst : Nat) (dom : Option Nat) (mid aux : Nat) : Prop := m.typ = typ ∧ m.dst = dst ∧ m.dom = dom ∧ m.mid = mid ∧ m.aux = aux

/-- A message reaches this device and passes the checks of R11, R134, R424 and, where it is protected, R122 and R426. -/
structure State.Arrives (s : State) (e : DEnv) (prot : Bool) : Prop where
  live : s.live = true
  link : e.link < 48 ∧ s.linkLive e.link = true
  own : s.sealed (e.link / 12) = true → s.reg Dict.sealDomain (e.link / 12) = e.dom
  here : s.present s.device = true
  keyed : s.holdsKeys e.dom = true
  version : e.minVersion ≤ 1
  auth : prot = true → e.tagOk = true ∧ s.parityOk e.dom e.parity = true ∧ s.memberDigest e.src / 2 ^ 128 ≠ 0 ∧ s.replayed (s.memberDigest e.src / 2 ^ 128) e.counter = false
  tables : s.Linked

/-- A control message reaches this device (R424, R438). -/
structure State.CtlArrives (s : State) (link src : Nat) : Prop where
  live : s.live = true
  link : link < 48 ∧ src < 64 ∧ s.linkLive link = true
  here : s.present s.device = true
  tables : s.Linked

/-! ## Checkpoints (R448, R454, R455) -/

/-- A checkpoint message of that type is on its way to a device (R454). -/
def State.tells (u : State) (dst typ : Nat) (m : CkMsg) : Prop := u.sends fun y => y.is 1 dst none 0 0 ∧ y.body = .ctl (ckBytes typ m)

/-- A checkpoint message reaches this device, over Dernyx or from itself, and is of a version it knows (R11, R454). -/
def State.CkArrives (s : State) (link : Nat) (m : CkMsg) : Prop := link < 48 ∧ m.src < 64 ∧ (m.src = s.device ∨ s.CtlArrives link m.src ∧ m.minVersion ≤ 1)

/-- The device's part in the checkpoint at p is over: committed, or aborted where ab (R448, R455). -/
def Ckpt.closed (c : Ckpt) (p : Nat) (ab : Bool) : Prop := c.st = 0 ∧ c.cmd = none ∧ c.cutAt = 0 ∧ c.ended = some (p, ab)

/-- The command aborts the checkpoint with that cause, which a device reported (R455): every other device of the warp is told, serving goes on at the next action point, and at the
coordinator the abort is counted and notified, and CHECKPOINT_BEGIN completes with the cause's status. -/
def State.AbortsCkpt (s : State) (i : Instr) (cause dev : Nat) : Prop :=
  ∃ u, exec i s = .next u ∧ u.ck.closed s.ck.p true ∧ u.ck.resume = true ∧
    (∀ j ∈ s.warpDevices, j ≠ s.device → u.tells j 0x17 { src := s.device, slot := s.ck.slot, cause := cause, p := s.ck.p }) ∧
    ∀ c id r, s.ck.cmd = some (c, id) → s.Runs c r → r.id = id → u.drun c id = none ∧ s.counted Dict.ckptAbortCount u ∧ s.notified 0x0802 (beBytes 8 s.ck.p ++ [cause, dev]) u ∧
      ∃ w : State, w.ss.cq = s.ss.cq ∧ w.posts c (Rec.completes r.q (abortStatus cause) 0) u

/-- The device takes the commit of the checkpoint at p in a slot (R448, step 8). -/
def State.TakesCommit (s : State) (p slot : Nat) (u : State) : Prop :=
  u.ck.closed p false ∧ u.reg Dict.ckptLastCommitted = p * 2 ^ 64 + slot * 2 ^ 56 ∧ s.counted Dict.ckptCommitCount u

/-- The command commits the checkpoint at its coordinator (R448, steps 7 and 8): CHECKPOINT_BEGIN completes with DONE and the number of devices, each of which is told. -/
def State.CommitsCkpt (s : State) (i : Instr) : Prop :=
  ∃ u, exec i s = .next u ∧ s.TakesCommit s.ck.p s.ck.slot u ∧ s.notified 0x0801 (beBytes 8 s.ck.p ++ [s.ck.slot]) u ∧
    (∀ j ∈ s.ck.devs, j ≠ s.device → u.tells j 0x16 { src := s.device, slot := s.ck.slot, p := s.ck.p }) ∧
    ∀ c id r, s.ck.cmd = some (c, id) → s.Runs c r → r.id = id → u.drun c id = none ∧ ∃ w : State, w.ss.cq = s.ss.cq ∧ w.posts c (Rec.completes r.q stDone s.ck.devs.length) u

/-- The coordinator holds m beside the answers of the other devices (R448, step 7). -/
def Ckpt.holding (k : Ckpt) (m : CkMsg) : List CkMsg := (k.answers.filter fun a => a.src != m.src) ++ [m]

/-- m is the last answer that the coordinator waits for. -/
def Ckpt.lastAnswer (k : Ckpt) (m : CkMsg) : Prop := ∀ i ∈ k.devs, i = m.src ∨ ∃ a ∈ k.answers, a.src = i

end Sys2Proof.Machine
end

