-- ==== Sys2Proof/Machine/Wire.lean ====
section
/-! DEFINITION. What goes over the wire (R9; spec/03, R72-R75; spec/13, R373-R374, R378, R385; spec/14, R416, R422, R425): the bytes that stand for the block's outputs, their
keys, nonces and tags, and how an operand of a command is read from the bytes that arrive. -/

namespace Sys2Proof.Machine

open Sys2Proof

/-! ## Frames (R373, R374) -/

/-- An IEEE 802.1Q tag: type, then priority and VLAN identifier. -/
def qTag (prio vid : Nat) : Bytes := [0x81, 0x00] ++ beBytes 2 (prio % 8 * 8192 + vid % 4096)

/-- The tag of a Slaisk frame: the flow's priority; in mode 1 the flow's VID, in mode 0 VID 0. -/
def State.flowTag (s : State) (port f : Nat) : Bytes := qTag (s.flow f).cfg.prio (if s.reg Dict.ethVlanMode port = 1 then (s.flow f).cfg.vlan else 0)

/-- The tag of a management frame: Welrid at priority 6, pick messages, PTP, ARP, ND and ICMP at 7. -/
def State.mgmtTag (s : State) (port prio : Nat) : Bytes := qTag prio (if s.reg Dict.ethVlanMode port = 1 then s.reg Dict.ethMgmtVlan else 0)

/-! ## Slaisk (R378, R385) -/

/-- A Slaisk header's fields. -/
structure SHdr where
  version : Nat := 1
  minVersion : Nat := 1
  op : Nat
  flow : Nat
  psn : Nat
  ackValid : Bool := false
  ackReq : Bool := false
  last : Bool
  first : Bool
  prot : Bool
  ackPsn : Nat := 0
  syndrome : Nat
  target : Nat
  offset : Nat
  length : Nat
  parity : Nat := 0
  domain : Nat
  aux : Nat
  deriving DecidableEq, Repr

/-- The header's 32 bytes, big-endian. -/
def SHdr.bytes (h : SHdr) : Bytes :=
  [16 * h.version + h.minVersion, h.op] ++ beBytes 2 h.flow ++ beBytes 3 h.psn ++ [16 * b2n h.ackValid + 8 * b2n h.ackReq + 4 * b2n h.last + 2 * b2n h.first + b2n h.prot] ++
  beBytes 3 h.ackPsn ++ [h.syndrome] ++ beBytes 4 h.target ++ beBytes 8 h.offset ++ beBytes 2 h.length ++ beBytes 2 (32768 * h.parity + h.domain) ++ beBytes 4 h.aux

/-- Every field fits its place. -/
def SHdr.Fits (h : SHdr) : Prop :=
  h.version < 16 ∧ h.minVersion < 16 ∧ h.op < 256 ∧ h.flow < 2 ^ 16 ∧ h.psn < 2 ^ 24 ∧ h.ackPsn < 2 ^ 24 ∧ h.syndrome < 256 ∧ h.target < 2 ^ 32 ∧ h.offset < 2 ^ 64 ∧ h.length < 2 ^ 16 ∧
  h.parity < 2 ∧ h.domain < 4096 ∧ h.aux < 2 ^ 32

/-- A header as it is read. -/
def SHdr.parse (b : Bytes) : SHdr :=
  { version := be b 0 1 / 16, minVersion := be b 0 1 % 16, op := be b 1 1, flow := be b 2 2, psn := be b 4 3, ackValid := bit (be b 7 1) 4, ackReq := bit (be b 7 1) 3, last := bit (be b 7 1) 2
    first := bit (be b 7 1) 1, prot := bit (be b 7 1) 0, ackPsn := be b 8 3, syndrome := be b 11 1, target := be b 12 4, offset := be b 16 8, length := be b 24 2, parity := be b 26 2 / 32768
    domain := be b 26 2 % 4096, aux := be b 28 4 }

/-- Whether a reserved bit of a header is set (R379). -/
def slaiskResv (b : Bytes) : Bool := decide (32 ≤ be b 7 1) || decide (be b 26 2 / 4096 % 8 ≠ 0)

/-- The key of a flow and direction (R385). -/
def State.flowKey (s : State) (f epoch : Nat) (toHost : Bool) : Nat :=
  Config.shake256 (label "KB480-FLOW" ++ beBytes 32 (s.trafficKey toHost (s.flow f).cfg.dom epoch) ++ beBytes 16 (Config.constEntry Dict.idSerial.addr) ++ beBytes 2 f ++ beBytes 4 (Tbl.get 0 s.nv.flowGens f)) 32

/-- The 12-byte nonce of a packet: direction, kind, two zero bytes, counter (R385). -/
def slaiskNonce (toHost ack : Bool) (ctr : Nat) : Nat := beNat ([b2n toHost, b2n ack, 0, 0] ++ beBytes 8 ctr)

/-- A packet's bytes: header, payload, its CRC where it is not empty, and the tag where it is protected (R378, R385). -/
def slaiskPacket (h : SHdr) (data : Bytes) (key nonce : Nat) : Bytes :=
  let sent := if h.prot then gcmSeal key nonce data else data
  h.bytes ++ sent ++ (if sent = [] then [] else beBytes 4 (crc32c sent)) ++ (if h.prot then gcmTagBytes key nonce h.bytes sent else [])

/-- The header of a packet that the KB480 sends on a flow. -/
def State.txHdr (s : State) (f : Nat) (p : TxPkt) : SHdr :=
  { op := p.op, flow := f, psn := p.seq % 2 ^ 24, last := p.last, first := p.first, prot := p.prot, syndrome := p.syndrome, target := p.target, offset := p.offset, length := p.data.length
    parity := p.epoch % 2, domain := (s.flow f).cfg.dom, aux := p.aux }

/-- The UDP payload of a packet sent, or sent again byte for byte (R390). -/
def State.txBytes (s : State) (f : Nat) (p : TxPkt) : Bytes := slaiskPacket (s.txHdr f p) p.data (s.flowKey f p.epoch true) (slaiskNonce true false p.seq)

/-- The UDP payload of an ACK or NAK (R385): on a protected flow it carries a tag over the header alone. -/
def State.ackBytes (s : State) (f : Nat) (nak : Bool) (psn syndrome ctr : Nat) : Bytes :=
  let dom := (s.flow f).cfg.dom
  let epoch := (s.domSec dom).active
  slaiskPacket { op := if nak then 0x0F else 0x0E, flow := f, psn := 0, ackValid := true, last := false, first := false, prot := s.protects dom, ackPsn := psn, syndrome := syndrome, target := 0, offset := ctr
                 length := 0, parity := epoch % 2, domain := dom, aux := 0 } [] (s.flowKey f epoch true) (slaiskNonce true true ctr)

/-- The operand that a received packet's UDP payload spells: the port, the VLAN identifier and whether the source is the flow's are the frame's, the plaintext and the
tag's verdict the protection's (log 10). -/
def slaiskOperand (b : Bytes) (port vid : Nat) (srcOk : Bool) (plain : Bytes) (tagOk : Bool) : SPkt :=
  let h := SHdr.parse b
  let sent := (b.drop 32).take h.length
  { port := port, srcOk := srcOk, version := h.version, minVersion := h.minVersion, resv := slaiskResv b, flow := h.flow, psn := h.psn, first := h.first, last := h.last, ackReq := h.ackReq
    ackValid := h.ackValid, ackPsn := h.ackPsn, syndrome := h.syndrome, target := h.target, offset := h.offset, domain := h.domain, parity := h.parity, aux := h.aux
    data := if h.prot then plain else sent, crcOk := decide (sent = []) || decide (be b (32 + h.length) 4 = crc32c sent), prot := h.prot, tagOk := tagOk, vid := vid }

/-- The tag's verdict for a received packet (R385, R386), as the flow's keys give it; `ctr` is the extended PSN, or an ACK's offset field. -/
def State.slaiskTagOk (s : State) (b : Bytes) (epoch ctr : Nat) : Bool :=
  let h := SHdr.parse b
  let sent := (b.drop 32).take h.length
  let at_ := 32 + h.length + (if sent = [] then 0 else 4)
  let ack := decide (h.op = 0x0E) || decide (h.op = 0x0F)
  decide ((b.drop at_).take 16 = gcmTagBytes (s.flowKey h.flow epoch false) (slaiskNonce false ack ctr) (b.take 32) sent)

/-! ## Dernyx flits (R416) -/

/-- The 64 bits of a flit header: reserved bits are zero. -/
def flitHeader (vc dst src typ : Nat) (first last prot : Bool) (parity hops seq : Nat) : Nat :=
  vc * 2 ^ 62 + dst * 2 ^ 56 + src * 2 ^ 50 + typ * 2 ^ 44 + b2n first * 2 ^ 43 + b2n last * 2 ^ 42 + b2n prot * 2 ^ 41 + parity * 2 ^ 40 + hops * 2 ^ 38 + seq * 2 ^ 24

/-- A flit without its CRC: header, 240 bytes of payload, and the trailer's acknowledgement and credit fields. -/
def flitBody (f : Flit) : Bytes :=
  beBytes 8 (flitHeader f.vc f.dst f.src f.typ f.first f.last f.prot f.parity f.hops f.seq) ++ fixLen 240 f.pay ++ beBytes 2 (f.ackSeq * 16 + 8 * b2n f.ackValid + 4 * b2n f.nak) ++
  beBytes 2 (f.crVc * 16384 + f.crClass * 4096 + f.crTotal)

/-- A flit's 256 bytes. -/
def flitBytes (f : Flit) : Bytes := flitBody f ++ beBytes 4 (crc32c (flitBody f))

/-- Every field of a flit fits its place, and its CRC is right. -/
def FlitFits (f : Flit) : Prop :=
  f.vc < 4 ∧ f.dst < 64 ∧ f.src < 64 ∧ f.typ < 64 ∧ f.parity < 2 ∧ f.hops < 4 ∧ f.seq < 4096 ∧ f.ackSeq < 4096 ∧ f.crVc < 4 ∧ f.crClass < 4 ∧ f.crTotal < 4096 ∧ f.pay.length = 240 ∧
  (∀ x ∈ f.pay, x < 256) ∧ f.crcOk = true

/-- The operand that a received flit's 256 bytes spell. -/
def parseFlit (b : Bytes) : Flit :=
  let h := be b 0 8
  let a := be b 248 2
  let c := be b 250 2
  { vc := bits h 63 62, dst := bits h 61 56, src := bits h 55 50, typ := bits h 49 44, first := bit h 43, last := bit h 42, prot := bit h 41, parity := bits h 40 40, hops := bits h 39 38
    seq := bits h 35 24, ackSeq := bits a 15 4, ackValid := bit a 3, nak := bit a 2, crVc := bits c 15 14, crClass := bits c 13 12, crTotal := bits c 11 0
    crcOk := decide (be b 252 4 = crc32c (b.take 252)), pay := (b.drop 8).take 240 }

/-! ## Dernyx messages (R422, R425) -/

/-- The 12-byte nonce field of a message: source device, zero, counter; zero where it is not protected. -/
def msgNonce (src counter : Nat) (prot : Bool) : Nat := if prot then src * 2 ^ 88 + counter % 2 ^ 80 else 0

/-- The message header's 32 bytes, big-endian. -/
def msgHeader (dom len mid nonce aux : Nat) : Bytes := [0x11, 0] ++ beBytes 2 dom ++ beBytes 4 len ++ beBytes 8 mid ++ beBytes 12 nonce ++ beBytes 4 aux

/-- The message key of a source identity (R425). -/
def State.msgKey (s : State) (d epoch identity : Nat) : Nat := Config.shake256 (label "KB480-LINKMSG" ++ beBytes 32 (s.linkKey d epoch) ++ beBytes 16 (identity / 2 ^ 128)) 32

/-- The additional authenticated data: the message header, then vc, destination, source and type of the first flit (log 181). -/
def msgAad (header : Bytes) (vc dst src typ : Nat) : Bytes := header ++ [vc, dst, src, typ]

/-- The bytes of a message of this device with a body: header, body, and the tag where it is protected; a protected body is encrypted.  A control message is its
payload alone. -/
def State.msgBytes (s : State) (m : DMsg) (body : Bytes) (epoch : Nat) : Bytes :=
  if m.typ = 1 then fixLen 240 body
  else
    let nonce := msgNonce s.device m.counter (protOf m.typ)
    let hdr := msgHeader (m.dom.getD 0) body.length m.mid nonce m.aux
    if protOf m.typ then
      let key := s.msgKey (m.dom.getD 0) epoch ownDigest
      let ct := gcmSeal key nonce body
      hdr ++ ct ++ gcmTagBytes key nonce (msgAad hdr (vcOf m.typ) m.dst s.device m.typ) ct
    else hdr ++ body

/-- The operand that a message's header spells, on a link and from a source; the tag's verdict is the protection's (log 10). -/
def msgOperand (b : Bytes) (link src parity : Nat) (tagOk : Bool) : DEnv :=
  { link := link, src := src, dom := be b 2 2 % 4096, mid := be b 8 8, aux := be b 28 4, parity := parity, counter := be b 18 10, tagOk := tagOk, version := be b 0 1 / 16, minVersion := be b 0 1 % 16 }

/-! ## Welrid (R72-R75) -/

/-- The Welrid header's 16 bytes, big-endian. -/
def welridHeader (version typ flags assoc seq len : Nat) : Bytes := [version, 1, typ, flags] ++ beBytes 4 assoc ++ beBytes 4 seq ++ beBytes 2 len ++ [0, 0]

/-- The 12-byte nonce: association, direction, three zero bytes, sequence. -/
def welridNonce (assoc dir seq : Nat) : Nat := beNat (beBytes 4 assoc ++ [dir, 0, 0, 0] ++ beBytes 4 seq)

/-- A datagram: header, body, and the tag where it is protected; the header is the additional authenticated data. -/
def welridMessage (hdr body : Bytes) (prot : Bool) (key nonce : Nat) : Bytes :=
  if prot then let ct := gcmSeal key nonce body; hdr ++ ct ++ gcmTagBytes key nonce hdr ct else hdr ++ body

/-- A READ response's item (R85). -/
def RVal.wire (v : RVal) : Bytes := [v.status, v.typ] ++ beBytes 2 v.len ++ beBytes v.len v.val

/-- An address field: index, sub-index, one reserved byte. -/
def addrField (a : Nat) : Bytes := beBytes 2 (a / 256) ++ [a % 256, 0]

/-- An answer's message type and body (R75-R77, R85, R92, R100); a WRITE's answer carries no items, a WRITE_BLOCK's an empty body (log 181). -/
def WReply.wire : WReply → Nat × Bytes
  | .read items => (0x02, [items.length, 0, 0, 0] ++ items.flatMap RVal.wire)
  | .write => (0x03, [0, 0, 0, 0])
  | .block addr off total data => (0x04, addrField addr ++ beBytes 8 off ++ beBytes 8 total ++ beBytes 2 data.length ++ [0, 0] ++ data)
  | .wblock _ => (0x05, [])
  | .error code item addr detail => (0x07, [code, item, 0, 0] ++ addrField addr ++ beBytes 4 detail)
  | .challenge version assoc der => (0x01, [2, 0, 1, 0] ++ beBytes 4 (8 + der.length) ++ [version, 0, 0, 0] ++ beBytes 4 assoc ++ der)
  | .accept role pick => (0x01, [4, 0, 1, 0] ++ beBytes 4 12 ++ [role, 0, 0, 0] ++ beBytes 8 pick)

/-- The datagram of an answer on an association with a version and a key. -/
def WReply.datagram (r : WReply) (version assoc seq key : Nat) (prot : Bool) : Bytes :=
  let w := r.wire
  welridMessage (welridHeader version w.1 (2 + b2n prot) assoc seq w.2.length) w.2 prot key (welridNonce assoc 1 seq)

/-- A NOTIFY's datagram (R98): its body is what the log holds of it. -/
def NLog.datagram (n : NLog) (version assoc key : Nat) : Bytes :=
  welridMessage (welridHeader version 0x06 1 assoc n.seq n.body.length) n.body true key (welridNonce assoc 2 n.seq)

/-- The tag's verdict for a protected request (R75). -/
def welridTagOk (b : Bytes) (key : Nat) : Bool :=
  let len := be b 12 2
  decide ((b.drop (16 + len)).take 16 = gcmTagBytes key (welridNonce (be b 4 4) 0 (be b 8 4)) (b.take 16) ((b.drop 16).take len))

end Sys2Proof.Machine
end

