-- ==== Sys2Proof/Certificates/Slice0/Obligations.lean ====
section
/-! DEFINITION. The statements for the provers. -/

set_option maxRecDepth 20000

open Sys2Proof Sys2Proof.Machine

/-- A step takes the command at the front of the queue and is that command on the state with the queue's rest; on an empty queue the block idles (the model's choice: log 1, log 2). -/
def Obligations.StepRunsTheFrontCommand : Prop :=
  (∀ (c : Instr) (s : State) (rest : List Instr), s.pending = c :: rest → step s = exec c { s with pending := rest }) ∧ ∀ s : State, s.pending = [] → step s = .next s

/-- Every command completes, unless it names an object that does not exist (R5, R10): it leaves the queue alone, the block's time does not go back, and what was sent stays sent. -/
def Obligations.CommandsCompleteOrNameAbsentObjects : Prop :=
  ∀ (i : Instr) (s : State),
    (i.wf = false → exec i s = .fault .noSuchObject) ∧
    (i.wf = true → ∃ u, exec i s = .next u ∧ u.pending = s.pending ∧ u.now = Nat.max s.now i.time ∧ ∀ o ∈ s.out, o ∈ u.out)

/-- R18, R19, R480: without the always-on domain, and in ISOLATED, the device answers nothing: a command other than the package's power contacts changes nothing but the time; so an
isolated device leaves ISOLATED only through FORCE_OFF_N or its power. -/
def Obligations.DeadDeviceAnswersNothing : Prop :=
  ∀ (i : Instr) (s : State), s.live = false → i.wf = true →
    exec i s = .next (s.at i.time) ∨
    i = .prechargeStart i.time ∨ i = .busCharged i.time ∨ i = .surpriseRemoval i.time ∨ i = .powerRemoval i.time ∨ i = .forceOffAssert i.time ∨ i = .forceOffRelease i.time

/-- Every step keeps the machine's invariant: dictionary values, functions' records and windows' bytes stay in canonical form (R401), the throttle level at most 8 (R23), the mean over
at most 16 intervals (R59), the notification log at 256 and its numbers at 32 bits (R98), the fault journal at 4,096 entries (R469), the trace buffer at 524,288 records (R502). -/
def Obligations.StepKeepsInvariant : Prop :=
  ∀ s u : State, s.Inv → step s = .next u → u.Inv

/-- The invariant holds at reset. -/
def Obligations.ResetMeetsInvariant : Prop := State.reset.Inv

/-- R106, R109, R82: whatever the block is told, the fused SVN does not fall, and a package that has been claimed stays claimed. -/
def Obligations.FusedSvnAndClaimAreNeverUndone : Prop :=
  ∀ s u : State, step s = .next u → s.nv.fusedSvn ≤ u.nv.fusedSvn ∧ (s.nv.claimed = true → u.nv.claimed = true)

/-- What reset leaves (R17, R82, R54, R97, R468, R502): no power, unclaimed with no secret, no pick, every function OFF, every dictionary value at its default, no session, no
association, an empty journal and trace, and no command waiting. -/
def Obligations.ResetLeavesAnUnclaimedPackage : Prop :=
  let z := State.reset
  z.pw.pkg = .unpowered ∧ z.nv.claimed = false ∧ z.nv.fusedSvn = 0 ∧ z.pk.current = 0 ∧ z.pk.pend = [] ∧ z.wr.assocs = [] ∧ z.fa.journal = [] ∧ z.mn.trace.buf = [] ∧ z.pending = [] ∧ z.out = [] ∧
  (∀ f : FnId, (z.fn f).st = .off ∧ (z.fn f).pend = .none ∧ (z.fn f).fault = false) ∧ (∀ (e : Entry) (sub i : Nat), z.reg e sub i = e.dflt) ∧ (∀ k, (z.sess k).st = .free) ∧
  ∀ i, (z.win i).isOpen = false ∧ (z.win i).mem = []

/-- R94, R52, R128, R129, R157, R275, R428, R440, R441, R493, R500: an accepted WRITE of one of these settings stores the value, and changes no other
setting; the reply is sent. -/
def Obligations.WrittenSettingIsStored : Prop :=
  ∀ (s : State) (t : Nat) (w : WEnv) (a : Assoc) (v : Nat), Tbl.sorted s.regs → (s.at t).Takes w a →
    ((s.at t).Accepts w a [itemOf Dict.pickSource 0 v] → Stores s (.pickSourceWrite t w v) w a Dict.pickSource 0 v) ∧
    ((s.at t).Accepts w a [itemOf Dict.dsecClass 0 v] → Stores s (.dsecClassWrite t w v) w a Dict.dsecClass 0 v) ∧
    ((s.at t).Accepts w a [itemOf Dict.dsecTileGroups 0 v] → Stores s (.tileGroupsWrite t w v) w a Dict.dsecTileGroups 0 v) ∧
    ((s.at t).Accepts w a [itemOf Dict.dsessNotifyFlow 0 v] → Stores s (.notifyFlowWrite t w v) w a Dict.dsessNotifyFlow 0 v) ∧
    ((s.at t).Accepts w a [itemOf Dict.mstepDraftSlot 0 v] → Stores s (.draftSlotWrite t w v) w a Dict.mstepDraftSlot 0 v) ∧
    (∀ i < 64, (s.at t).Accepts w a [itemOf Dict.warpRoute i v] → Stores s (.routeWrite t w i v) w a Dict.warpRoute i v) ∧
    (∀ c, (s.at t).Accepts w a [itemOf (if c then Dict.warpTreeChildren else Dict.warpTreeParent) 0 v] →
      Stores s (.treeParentWrite t w c v) w a (if c then Dict.warpTreeChildren else Dict.warpTreeParent) 0 v) ∧
    (∀ c, (s.at t).Accepts w a [itemOf (if c then Dict.warpId else Dict.warpDeviceIndex) 0 v] →
      Stores s (.deviceIndexWrite t w c v) w a (if c then Dict.warpId else Dict.warpDeviceIndex) 0 v) ∧
    (∀ hub, ∀ k < 16, (s.at t).Accepts w a [itemOf (if hub then Dict.monConfig else Dict.chmonConfig) k v] →
      Stores s (.monConfigWrite t w hub k v) w a (if hub then Dict.monConfig else Dict.chmonConfig) k v) ∧
    ((s.at t).Accepts w a [itemOf Dict.traceConfig 0 v] → Stores s (.traceConfigWrite t w v) w a Dict.traceConfig 0 v)

/-- R29, R30, R32, R95: an accepted request for a power domain of the hub, or of the selected channel or all four, is handled by the function state rule on each of them, and no other function but
their parents, their children and theirs is touched. -/
def Obligations.PowerRequestsFollowTheRule : Prop :=
  ∀ (s : State) (t : Nat) (w : WEnv) (a : Assoc) (v : Nat), Tbl.sorted s.fns → (s.at t).Takes w a → v < 2 →
    (∀ k < 18, a.chanSel < 4 ∨ a.chanSel = 0xFF → (s.at t).Accepts w a [itemOf Dict.chpowerRequest k v] →
      Asks s (.chpowerRequest t w k v) w a ((targets Dict.chpowerRequest a.sel).map fun c => .dom (18 * c + k)) v) ∧
    (∀ k < 8, (s.at t).Accepts w a [itemOf Dict.powerHubRequest k v] → Asks s (.hubPowerRequest t w k v) w a [.dom (72 + k)] v)

/-- R29, R30, R32, R95: an accepted request for a seal, a port, a link, an event counter (a channel's, of the selected channel or all four) or the trace capture is handled by the function state rule,
and no other function but its parent, its children and theirs is touched. -/
def Obligations.FunctionRequestFollowsTheRule : Prop :=
  ∀ (s : State) (t : Nat) (w : WEnv) (a : Assoc) (v : Nat), Tbl.sorted s.fns → (s.at t).Takes w a → v < 2 →
    (∀ c < 4, (s.at t).Accepts w a [itemOf Dict.sealRequest c v] → Asks s (.sealRequest t w c v) w a [.seal c] v) ∧
    (∀ p < 2, (s.at t).Accepts w a [itemOf Dict.ethRequest p v] → Asks s (.ethRequest t w p v) w a [.port p] v) ∧
    (∀ n < 48, (s.at t).Accepts w a [itemOf Dict.dnxLinkRequest n v] → Asks s (.linkRequest t w n v) w a [.link n] v) ∧
    (∀ k < 16, (s.at t).Accepts w a [itemOf Dict.monRequest k v] → Asks s (.monRequest t w true k v) w a [.hubMon k] v) ∧
    (∀ k < 16, a.chanSel < 4 ∨ a.chanSel = 0xFF → (s.at t).Accepts w a [itemOf Dict.chmonRequest k v] →
      Asks s (.monRequest t w false k v) w a ((targets Dict.chmonRequest a.sel).map fun c => .chMon c k) v) ∧
    ((s.at t).Accepts w a [itemOf Dict.traceRequest 0 v] → Asks s (.traceRequest t w v) w a [.trace] v)

/-- R18, R19, R22, R23, R25, R37: mating and losing power, the current limit, the throttle level, refresh doubling and the ride-through of a short excursion.  That after a
fall of the level the millisecond below both limits starts anew is the model's choice (log 155). -/
def Obligations.PowerInputActsAsWritten : Prop :=
  ∀ (s : State) (t : Nat), Tbl.sorted s.regs →
    (s.pw.pkg = .unpowered → ∃ u, exec (.prechargeStart t) s = .next u ∧ u.pw = { s.pw with pkg := .precharge } ∧ (s.at t).sameBut [.package, .packageCore] u) ∧
    (s.pw.pkg.removeLow = false → ∃ u, exec (.powerRemoval t) s = .next u ∧ u.pw.pkg = .unpowered ∧ u.nv = s.nv ∧ u.out = s.out ∧ u.lostAll) ∧
    (s.live = true → ∀ dur stay, ∃ u, exec (.inputExcursionEnd t dur stay) s = .next u ∧
      u.reg Dict.powerRidethroughCount = (if dur < 1000000 ∧ stay < 10000 then (s.reg Dict.powerRidethroughCount + 1) % 2 ^ 32 else s.reg Dict.powerRidethroughCount) ∧
      (s.at t).sameBut (.values :: noted) u) ∧
    (s.live = true → ∀ mA, ∃ u, exec (.currentLimitTick t mA) s = .next u ∧
      (let on := if s.pw.limitOn then decide (56000 ≤ mA) else decide (58000 ≤ mA)
       u.pw = { s.pw with limitOn := on, level := if on = true ∧ s.pw.level < 8 then s.pw.level + 1 else s.pw.level, hotSince := if on = true ∧ s.pw.level = 0 then some (Nat.max s.now t) else s.pw.hotSince } ∧
       u.reg Dict.powerCurrentLimitCount = (if on = true ∧ s.pw.limitOn = false then (s.reg Dict.powerCurrentLimitCount + 1) % 2 ^ 32 else s.reg Dict.powerCurrentLimitCount)) ∧
      (s.at t).sameBut ([.package, .packageCore, .values] ++ noted) u) ∧
    (s.live = true → ∀ sn, (Instr.throttleEvaluate t sn).wf = true → ∃ u, exec (.throttleEvaluate t sn) s = .next u ∧
      (let hot := sn.die.foldl Nat.max 0
       let high := 1000 * s.reg Dict.powerInputLimit < sn.powMw ∨ s.reg Dict.thermalThrottleTemp < hot
       let low := 100 * sn.powMw ≤ 95 * (1000 * s.reg Dict.powerInputLimit) ∧ 100 * hot ≤ 95 * s.reg Dict.thermalThrottleTemp
       (high → u.pw.level = (if s.pw.level < 8 then s.pw.level + 1 else s.pw.level) ∧ u.pw.underSince = none) ∧
       (¬high → ¬low → u.pw.level = s.pw.level ∧ u.pw.underSince = none) ∧
       (¬high → low → s.pw.underSince = none → u.pw.level = s.pw.level ∧ u.pw.underSince = some (Nat.max s.now t)) ∧
       (¬high → low → ∀ b, s.pw.underSince = some b →
         (b + 1000000 ≤ Nat.max s.now t ∧ s.pw.limitOn = false → u.pw.level = s.pw.level - 1 ∧ u.pw.underSince = some (Nat.max s.now t)) ∧
         (¬(b + 1000000 ≤ Nat.max s.now t ∧ s.pw.limitOn = false) → u.pw.level = s.pw.level ∧ u.pw.underSince = some b))) ∧
      u.pw.volt = sn.volt ∧ u.pw.amp = sn.amp ∧ u.pw.powBits = sn.powBits ∧ u.pw.die = sn.die ∧ u.pw.hbm = sn.hbm ∧
      (s.at t).sameBut ([.package, .packageCore] ++ noted) u) ∧
    (s.live = true → ∀ stack temp, (Instr.hbmRefreshDoubling t stack temp).wf = true → ∃ u, exec (.hbmRefreshDoubling t stack temp) s = .next u ∧
      (∃ x, u.pw = { s.pw with hbm2x := x } ∧ bit x stack = decide (85 < temp) ∧ ∀ j, j ≠ stack → bit x j = bit s.pw.hbm2x j) ∧
      (s.at t).sameBut ([.package, .packageCore] ++ noted) u)

/-- R19, R20, R24, R44, R476-R478: an excursion that lasts, a collapse, a thermal trip, FORCE_OFF_N and a detected FATAL cause each take the FATAL path, with the
reason code that R476's table gives it; FORCE_OFF_N on a device that is not live is held. -/
def Obligations.FatalCausesIsolateThePackage : Prop :=
  ∀ (s : State) (t : Nat), Tbl.sorted s.regs → s.fa.fatal = false →
    (s.live = true → Isolates s (.excursionTimeout t) 1 ∧ Isolates s (.collapseTimeout t) 1 ∧ Isolates s (.thermalTrip t) 2 ∧ Isolates s (.forceOffAssert t) 3 ∧
      ∀ r, 1 ≤ r → r ≤ 8 → Isolates s (.fatalDetect t r) r) ∧
    (s.live = false → ∃ u, exec (.forceOffAssert t) s = .next u ∧ u = { s.at t with pw := { s.pw with forceOff := true } })

/-- R37, R38, R44, R54, R107, R110, R121: boot, with and without FORCE_OFF_N; firmware that runs brings the package to MANAGED, or to SERVING where four channels are ON already, with the Ethernet block ON; and
releasing FORCE_OFF_N boots an ISOLATED package from the store alone. -/
def Obligations.BootActsAsWritten : Prop :=
  ∀ (s : State) (t : Nat), s.Canonical →
    (let pref := if s.nv.restoreMark then Dict.secFwPreferred.dflt else s.reg Dict.secFwPreferred
     (s.pw.pkg = .precharge → s.pw.forceOff = false → ∃ u, exec (.busCharged t) s = .next u ∧ Boots s.nv pref s.sc.running u) ∧
     (s.pw.pkg = .precharge → s.pw.forceOff = true →
       ∃ u, exec (.busCharged t) s = .next u ∧ u = { s.at t with pw := { s.pw with pkg := .isolated, isolated := true } }) ∧
     (s.pw.forceOff = true → s.pw.pkg = .isolated → ∃ u, exec (.forceOffRelease t) s = .next u ∧ Boots s.nv pref none u ∧ u.pw.forceOff = false) ∧
     (s.pw.forceOff = true → s.pw.pkg ≠ .isolated → ∃ u, exec (.forceOffRelease t) s = .next u ∧ u = { s.at t with pw := { s.pw with forceOff := false } })) ∧
    (∀ spd i, spd.length = 16 → s.pw.pkg = .boot → s.sc.running = some i → s.fn (.dom 76) = { st := .starting, pend := .none, fault := (s.fn (.dom 76)).fault } →
      ∃ u, exec (.bootComplete t spd) s = .next u ∧ u.pw.spd = spd ∧ u.fn (.dom 76) = { st := .on, pend := .none, fault := false } ∧
        ((∃ c < 4, s.chOn c = false) → u.pw.pkg = .managed ∧ u.pw.bringup = (s.pw.bringup || decide (s.reg Dict.packageAutostart = 1))) ∧
        ((∀ c < 4, s.chOn c = true) → u.pw.pkg = .serving ∧ u.pw.bringup = false) ∧
        (s.reg Dict.packageAutostart ≠ 1 → i ≠ s.nv.fwConfirmed → s.reg Dict.secFwAutoConfirm = 1 → u.nv.fwConfirmed = i ∧ u.nv.fwTrials = 0) ∧
        (s.reg Dict.packageAutostart ≠ 1 → i = s.nv.fwConfirmed ∨ s.reg Dict.secFwAutoConfirm ≠ 1 → u.nv = s.nv))

/-- R29, R30, R33, R371, R411-R414, R509: the completion or failure of STARTING and the completion of STOPPING, as the commands report it for power domains, ports and links (a tile group
that a step still uses stops after the step, R35), and the failures that send a port or a link back to STARTING, leave the function as the function state rule says; only its children and its parent may change with it. -/
def Obligations.TransitionsFollowTheRule : Prop :=
  ∀ (s : State) (t : Nat), s.live = true → Tbl.sorted s.fns →
    (∀ n bad, n < 80 → (s.fn (.dom n)).st = .starting → ∃ u, exec (.functionStartComplete t (.dom n) bad) s = .next u ∧ s.afterStart (.dom n) u ∧ s.onlyNear (.dom n) u) ∧
    (∀ n, n < 80 → (s.fn (.dom n)).st = .starting → ∃ u, exec (.functionStartFail t (.dom n)) s = .next u ∧
      u.fn (.dom n) = { st := .off, pend := .none, fault := true } ∧ u.lastNotice 0x0303 [n] ∧ s.onlyNear (.dom n) u) ∧
    (∀ f, f.exists = true → plainStop f = true → (s.fn f).st = .stopping → s.stopsLater f = false → ∃ u, exec (.functionStopComplete t f) s = .next u ∧ s.afterStop f u ∧ s.onlyNear f u) ∧
    (∀ f, f.exists = true → s.stopsLater f = true → exec (.functionStopComplete t f) s = .next (s.at t)) ∧
    (∀ p, p < 2 → (s.fn (.port p)).st = .starting → ∃ u, exec (.portLinkUp t p) s = .next u ∧ s.afterStart (.port p) u ∧ s.onlyNear (.port p) u) ∧
    (∀ p, p < 2 → (s.fn (.port p)).st = .on → ∃ u, exec (.portAlignmentLoss t p) s = .next u ∧ u.fn (.port p) = { s.fn (.port p) with st := .starting } ∧ s.onlyNear (.port p) u) ∧
    (∀ n b, n < 48 → (s.fn (.link n)).st = .starting → (Instr.linkTrainingComplete t n b).wf = true →
      ∃ u, exec (.linkTrainingComplete t n b) s = .next u ∧ s.onlyNear (.link n) u ∧
        (s.trainCode b = 0 → s.afterStart (.link n) u) ∧ (s.trainCode b ≠ 0 → u.fn (.link n) = { st := .off, pend := .none, fault := true })) ∧
    (∀ n code, n < 48 → (s.fn (.link n)).st = .starting → (Instr.linkTrainingFail t n code).wf = true →
      ∃ u, exec (.linkTrainingFail t n code) s = .next u ∧ u.fn (.link n) = { st := .off, pend := .none, fault := true } ∧ s.onlyNear (.link n) u) ∧
    (∀ n replay, n < 48 → (s.fn (.link n)).st = .on → replay = false ∨ s.reg Dict.dnxReplayLimit ≤ (s.link n).idle →
      ∃ u, exec (.linkFailure t n replay) s = .next u ∧ u.fn (.link n) = { s.fn (.link n) with st := .starting } ∧ s.onlyNear (.link n) u) ∧
    (∀ n mv, n < 48 → mv ≤ 1 → (s.fn (.link n)).st = .on → ∃ u, exec (.stopping t ⟨n, mv⟩) s = .next u ∧ u.fn (.link n) = { s.fn (.link n) with st := .stopping, pend := .none } ∧ s.onlyNear (.link n) u) ∧
    (∀ n mv, n < 48 → 2 ≤ mv → (s.fn (.link n)).st = .on → ∃ u, exec (.stopping t ⟨n, mv⟩) s = .next u ∧ (Tbl.sorted s.regs → s.counted Dict.dnxBadMessageCount u) ∧ (s.at t).sameBut [.values] u)

/-- R40-R42, R45: an accepted write of `package.remove_request` or `package.reset` is answered and moves the package as written: a drain waits in its
step 2 while a step of the serving schedule runs, and its moves, then its flushes, follow.  That a 2 is accepted before a drain timeout was reported is the model's choice (log 155). -/
def Obligations.RemovalAndResetAsWritten : Prop :=
  ∀ (s : State) (t : Nat) (w : WEnv) (a : Assoc), s.Canonical → (s.at t).Takes w a →
    ((s.at t).Accepts w a [itemOf Dict.packageRemoveRequest 0 1] → ∃ u, exec (.removeRequest t w) s = .next u ∧ u.replied w a .write ∧
      (s.pw.pkg = .serving ∨ s.pw.pkg = .managed → u.pw.pkg = .draining ∧ 2 ≤ u.pw.drainStep ∧ u.pw.drainStep ≤ 4 ∧ u.pw.drainAt = Nat.max s.now t ∧ u.pw.drainCancel = false ∧
        ∀ v, s.sv.run = some v → v.rows ≠ [] → u.pw.drainStep = 2) ∧
      (s.pw.pkg = .draining → u.pw.pkg = .draining ∧ u.pw.drainCancel = false) ∧
      (s.pw.pkg = .boot ∨ s.pw.pkg = .removeReady → u.pw.rest = s.pw.rest)) ∧
    ((s.at t).Accepts w a [itemOf Dict.packageRemoveRequest 0 2] → ∃ u, exec (.removeRequestSkip t w) s = .next u ∧ u.replied w a .write ∧
      (s.pw.pkg = .draining → s.pw.drainStep = 3 → u.pw.drainStep = 4) ∧
      (s.pw.pkg = .draining → s.pw.drainStep = 2 → u.pw.drainStep = 4 ∨ (u.pw.drainStep = 2 ∧ u.pw.drainSkip = true)) ∧
      (s.pw.pkg = .draining → u.pw.pkg = .draining ∧ u.pw.drainCancel = s.pw.drainCancel) ∧ (s.pw.pkg ≠ .draining → u.pw.rest = s.pw.rest)) ∧
    ((s.at t).Accepts w a [itemOf Dict.packageRemoveRequest 0 0] → ∃ u, exec (.removeRequestCancel t w) s = .next u ∧ u.replied w a .write ∧
      (s.pw.pkg = .draining → u.pw.pkg = .draining ∧ u.pw.drainCancel = true) ∧
      (s.pw.pkg = .removeReady → (∃ c < 4, s.chOn c = false) → u.pw.pkg = .managed ∧ u.pw.bringup = true) ∧
      (s.pw.pkg ≠ .draining → s.pw.pkg ≠ .removeReady → u.pw.rest = s.pw.rest)) ∧
    ((s.at t).Accepts w a [itemOf Dict.packageReset 0 1] → ∃ u, exec (.packageReset t w) s = .next u ∧ u.replied w a .write ∧
      u.pw.pkg = .boot ∧ u.wr.assocs = [] ∧ u.nv.claimed = s.nv.claimed ∧ u.sv = { State.reset.sv with groups := u.sv.groups } ∧
      ∀ p ∈ [Part.sessions, .fabric, .text, .search, .ethernet, .checkpoint], p.same State.reset u)

/-- R40-R43, R111, R470: the end of a drain stops every power domain but the Ethernet block, closes the signature index and releases REMOVE_READY, or restarts where the
request was withdrawn; a drain that is late is reported once; and a surprise removal leaves the store with the final journal entry and the close record. -/
def Obligations.DrainsAndRemovalsEndAsWritten : Prop :=
  ∀ (s : State) (t : Nat), s.Canonical →
    (s.live = true → s.pw.pkg = .draining → s.pw.drainStep = 4 → (s.at t).drainFlushed = true → s.sv.run = none →
      ∃ u, exec (.drainComplete t) s = .next u ∧
        (s.pw.drainCancel = false → u.pw.pkg = .removeReady ∧ u.nv.sigClose = some (s.nv.sigEnd, s.sc.n) ∧ ∀ n, n < 80 → n ≠ 76 → u.isOff (.dom n) = true) ∧
        (s.pw.drainCancel = true → u.pw.pkg = .managed ∧ u.pw.drainCancel = false ∧ u.pw.bringup = true)) ∧
    (s.live = true → s.pw.pkg = .draining → s.pw.drainStep < 4 → s.pw.drainReported = false →
      s.pw.drainAt + 1000000000 * s.reg Dict.packageDrainTimeout ≤ Nat.max s.now t →
      ∃ u, exec (.drainTimeout t) s = .next u ∧ u.pw = { s.pw with drainReported := true } ∧ u.reg Dict.packageDrainUnmoved = drainLeft (s.at t) ∧
        u.lastNotice 0x0301 (beBytes 4 (drainLeft (s.at t))) ∧ (s.at t).sameBut ([.values, .package, .packageCore] ++ noted) u) ∧
    (s.pw.pkg.removeLow = true → ∃ u, exec (.surpriseRemoval t) s = .next u ∧ u.pw.pkg = .unpowered ∧ u.lostAll ∧
      ∃ l j, u.nv = { s.nv with jcopy := l, sigClose := some (s.nv.sigEnd, s.sc.n) } ∧ l.getLast? = some j ∧ j.cls = 3 ∧ j.reason = 1)

/-- R68, R81, R82, R97, R107, R109, R116, R117, R123, R211, R285: an accepted WRITE of one of these entries is answered and has the effect that the entry's table
gives it; beside it, only what a running step, an owed step, a pending barrier or a drain does next may change. -/
def Obligations.ActionWritesActAsWritten : Prop :=
  ∀ (s : State) (t : Nat) (w : WEnv) (a : Assoc) (v : Nat), Tbl.sorted s.regs → (s.at t).Takes w a →
    ((s.at t).Accepts w a [itemOf Dict.secFwSvnCommit 0 v] → Writes s t (.fwSvnCommit t w v) w a [.storeCore] fun u =>
      s.nv.fusedSvn < v % 256 ∧ u.nv.rest = { s.nv with fusedSvn := v % 256 }.rest) ∧
    ((s.at t).Accepts w a [itemOf Dict.secFwConfirm 0 v] → Writes s t (.fwConfirm t w v) w a [.storeCore] fun u =>
      ∀ i, s.sc.running = some i → u.nv.rest = { s.nv with fwConfirmed := i, fwTrials := 0 }.rest) ∧
    ((s.at t).Accepts w a [itemOf Dict.dictRestoreDefaults 0 v] → Writes s t (.restoreDefaults t w v) w a [.storeCore] fun u =>
      u.nv.rest = { s.nv with restoreMark := true }.rest) ∧
    (∀ r, 1 ≤ r → r ≤ 4 → let e := roleSecrets.getD (r - 1) Dict.roleSecretObserver
      (s.at t).Accepts w a [itemOf e 0 v] → Writes s t (.roleSecretWrite t w r v) w a [.storeCore, .settings] fun u =>
        u.reg e = v % 2 ^ 256 ∧ u.nv.rest = { s.nv with claimed := s.nv.claimed || decide (r = 4) }.rest ∧
        ∀ b ∈ u.wr.assocs, b.opened = true → b.role ≠ r) ∧
    ((s.at t).Accepts w a [itemOf Dict.dsecAttestNonce 0 v] → Writes s t (.attestNonceWrite t w v) w a [.security, .securityCore] fun u =>
      u.domSec a.domSel = { s.domSec a.domSel with attest := 1, nonce := v % 2 ^ 256, cert := none, keyNo := s.wr.keys + 1, issued := Nat.max s.now t }) ∧
    ((s.at t).Accepts w a [itemOf Dict.dsecKeyErase 0 v] → Writes s t (.keyErase t w v) w a [.storeCore, .security, .securityCore] fun u =>
      u.sc.doms = Tbl.put {} s.sc.doms a.domSel {} ∧ u.nv.rest = { s.nv with keys := Tbl.erase s.nv.keys a.domSel }.rest) ∧
    ((s.at t).Accepts w a [itemOf Dict.pickBarrierAt 0 v] → Writes s t (.barrierAtWrite t w v) w a [.settings] fun u =>
      u.pk.barrier = some { p := v % 2 ^ 64, mine := true } ∧ s.pk.current + 2 ≤ v % 2 ^ 64 ∧ u.reg Dict.pickBarrierAt = v % 2 ^ 64) ∧
    ((s.at t).Accepts w a [itemOf Dict.fabricFenceClear 0 v] → Writes s t (.fenceClear t w v) w a [] fun u =>
      (s.at t).still → a.chanSel < 4 → ∀ n < 256, u.isFenced a.chanSel n = (s.isFenced a.chanSel n && !s.isOff (.dom (18 * a.chanSel + n / 16)))) ∧
    ((s.at t).Accepts w a [itemOf Dict.dbudgetAdjust 0 v] → Writes s t (.budgetAdjust t w v) w a [] fun u =>
      (s.at t).still → u.sv.budgets = Tbl.put {} s.sv.budgets a.domSel
        { s.budget a.domSel with bal := (s.budget a.domSel).bal + toSigned 64 (v % 2 ^ 64), adjusted := (s.budget a.domSel).adjusted + toSigned 64 (v % 2 ^ 64) })

/-- R76-R79, R82, R90: an OFFER that meets no limit is answered with CHALLENGE and takes a signature index; KEY with the right role proof opens the association,
with a wrong one ends it; BYE ends it in silence; a late HELLO, the throttle and an idle association end when their time has passed, and not before. -/
def Obligations.AssociationsBeginAndEndAsWritten : Prop :=
  ∀ (s : State) (t : Nat) (w : WEnv), s.live = true →
    (∀ vmax vmin role nonce, s.Heard w → (∀ m, s.wr.throttleUntil = some m → m ≤ Nat.max s.now t) → 1 ≤ vmax → vmin ≤ 1 →
      s.wr.assocs.length < 32 → (s.wr.assocs.filter fun a => !a.opened).length < 4 → s.sc.n < s.nv.sigEnd →
      ∃ u a der, exec (.helloOffer t w vmax vmin role nonce) s = .next u ∧ Output.welrid w.port w.src s.wr.nextId w.seq false (.challenge 1 s.wr.nextId der) w.loc w.udp ∈ u.out ∧
        u.wr.assocs = s.wr.assocs ++ [a] ∧ a.id = s.wr.nextId ∧ a.role = role ∧ a.opened = false ∧ a.offerAt = Nat.max s.now t ∧
        u.sc.n = s.sc.n + 1 ∧ u.wr.keys = s.wr.keys + 1 ∧ (s.at t).sameBut ([.values, .security, .securityCore, .welridCore] ++ noted) u) ∧
    (∀ a ct proof, s.Heard w → (s.wr.assocs.find? fun a => a.id == w.assoc && !a.opened) = some a →
      ∃ u, exec (.helloKey t w ct proof) s = .next u ∧
        (s.roleEnabled a.role = true → proof = (s.helloKeys a ct).2 → Output.welrid w.port w.src a.id 0 true (.accept a.role s.pk.current) w.loc w.udp ∈ u.out ∧
          (∀ b ∈ u.wr.assocs, b.id = a.id → b.opened = true ∧ b.key = (s.helloKeys a ct).1 ∧ b.q = 0 ∧ b.kept = none) ∧ (∃ b ∈ u.wr.assocs, b.id = a.id ∧ b.role = a.role)) ∧
        (s.roleEnabled a.role = false ∨ proof ≠ (s.helloKeys a ct).2 → Output.welrid w.port w.src a.id w.seq false (.error 0x03 0xFF 0 0) w.loc w.udp ∈ u.out ∧ ∀ b ∈ u.wr.assocs, b.id ≠ a.id) ∧
        (∀ b, b.id ≠ a.id → (b ∈ u.wr.assocs ↔ b ∈ s.wr.assocs)) ∧ (s.at t).sameBut [.sent, .values, .welrid, .welridCore] u) ∧
    (∀ a reason, (s.at t).Takes w a → ∃ u, exec (.helloBye t w reason) s = .next u ∧ u.out = s.out ∧
        u.wr.assocs = s.wr.assocs.filter (fun b => b.id != a.id) ∧ (s.at t).sameBut [.welrid, .welridCore] u) ∧
    (∀ id, ∃ u, exec (.helloTimeout t id) s = .next u ∧ (s.at t).sameBut [.welrid, .welridCore] u ∧
      ((∃ a ∈ s.wr.assocs, a.id = id ∧ a.opened = false ∧ a.offerAt + 5000000000 ≤ Nat.max s.now t) → u.wr.assocs = s.wr.assocs.filter (fun b => b.id != id)) ∧
      (¬(∃ a ∈ s.wr.assocs, a.id = id ∧ a.opened = false ∧ a.offerAt + 5000000000 ≤ Nat.max s.now t) → u = s.at t)) ∧
    (∃ u, exec (.helloThrottleExpire t) s = .next u ∧ (s.at t).sameBut [.welrid, .welridCore] u ∧
      u.wr = { s.wr with throttleUntil := s.wr.throttleUntil.filter fun m => decide (Nat.max s.now t < m) }) ∧
    (∀ id, ∃ u, exec (.associationIdleTimeout t id) s = .next u ∧ (s.at t).sameBut [.welrid, .welridCore] u ∧
      (let idle := ∃ a ∈ s.wr.assocs, a.id = id ∧ a.opened = true ∧ a.lastReq + 1000000000 * s.reg Dict.welridIdleTimeout ≤ Nat.max s.now t
       (idle → u.wr.assocs = s.wr.assocs.filter (fun b => b.id != id)) ∧ (¬idle → u = s.at t)))

/-- R85, R86, R87, R92-R94, R507: READ answers with each item's value and READ_BLOCK with a snapshot's segment, and change nothing; a WRITE with an item that fails is refused
whole; an accepted WRITE of an entry that has no other effect stores its value; the first segment of a WRITE_BLOCK is held; what has been idle for 10 s is released. -/
def Obligations.ReadsAndWritesAreAnswered : Prop :=
  (∀ (s : State) (t : Nat) (w : WEnv) (a : Assoc), (s.at t).Takes w a →
    (∀ items : List RItem, items ≠ [] → items.length ≤ 32 → (∀ it ∈ items, it.resv = false) →
      (let vals := items.map ((s.at t).readItem a.role a.sel)
       36 + sumOf (fun v => 4 + v.len) vals ≤ 1280 → ∃ u, exec (.read t w items) s = .next u ∧ u.replied w a (.read vals) ∧ (s.at t).sameBut [.sent, .welrid, .welridCore] u)) ∧
    (∀ e ∈ Dict.table, ∀ sub < e.span, e.acc ≠ .wo → e.ty.isBlock = false → selCheck e a.sel true = 0 →
      (s.at t).readItem a.role a.sel { addr := e.addr + sub, describe := false, resv := false } =
        { status := 0, typ := e.ty.code, len := e.size, val := (s.at t).readVal a.role a.sel e sub ((targets e a.sel).headD 0) % 256 ^ e.size }) ∧
    (∀ e ∈ Dict.table, ∀ len ≤ 1024, e.acc ≠ .wo → e.ty.isBlock = true → selCheck e a.sel true = 0 → (s.at t).blockReadable e = true →
      ((s.at t).liveSnaps.filter fun x => x.assoc != a.id).length < 4 →
      (let data := (s.at t).blockContent e ((targets e a.sel).headD 0)
       ∃ u, exec (.readBlock t w e.addr 0 len) s = .next u ∧ u.replied w a (.block e.addr 0 data.length (data.take len)) ∧ (s.at t).sameBut [.sent, .welrid, .welridCore] u ∧
         (len < data.length → w.seq ≠ 0xFFFFFFFF → { assoc := a.id, addr := e.addr, data := data, last := Nat.max s.now t } ∈ u.wr.snaps))) ∧
    (∀ items r, items ≠ [] → items.length ≤ 32 → (s.at t).checkItems a.role 0 a.sel items = some r →
      ∃ u, exec (.registerWrite t w items) s = .next u ∧ u.replied w a r ∧ (s.at t).sameBut [.sent, .welrid, .welridCore] u) ∧
    (∀ e ∈ Dict.table, ∀ sub < e.span, ∀ v, e.plain = true → e.acc ≠ .ro → Tbl.sorted s.regs → (s.at t).Accepts w a [itemOf e sub v] →
      Stores s (.registerWrite t w [itemOf e sub v]) w a e sub v) ∧
    (∀ e ∈ Dict.table, ∀ b : WBlk, b.addr = e.addr → b.resv = false → b.first = true → b.off = 0 → b.last = false → b.data.length ≤ 1024 → b.data.length < b.total → b.total ≤ e.ty.maxBlock →
      (s.at t).wblockMay a.role a.sel b.addr = 0 →
      (∀ x ∈ s.wr.xfers, x.addr = b.addr → x.scope = (targets e a.sel).headD 0 → x.assoc ≠ a.id → x.last + 10000000000 ≤ Nat.max s.now t) →
      ∃ u, exec (.writeBlock t w b) s = .next u ∧ u.replied w a (.wblock b.addr) ∧ (s.at t).sameBut [.sent, .welrid, .welridCore] u ∧
        (w.seq ≠ 0xFFFFFFFF → { addr := b.addr, scope := (targets e a.sel).headD 0, assoc := a.id, total := b.total, data := b.data, last := Nat.max s.now t } ∈ u.wr.xfers))) ∧
  (∀ (s : State) (t : Nat), s.live = true →
    (∀ id, ∃ u, exec (.snapshotExpire t id) s = .next u ∧ (s.at t).sameBut [.welrid, .welridCore] u ∧
      u.wr = { s.wr with snaps := s.wr.snaps.filter fun x => x.assoc != id || decide (Nat.max s.now t < x.last + 10000000000) }) ∧
    (∀ addr, ∃ u, exec (.blockTransferIdle t addr) s = .next u ∧ (s.at t).sameBut [.welrid, .welridCore] u ∧
      u.wr = { s.wr with xfers := s.wr.xfers.filter fun x => x.addr != addr || decide (Nat.max s.now t < x.last + 10000000000) }))

/-- R93, R106, R108, R116, R120, R121, R382, R384, R439: what the last segment of a WRITE_BLOCK writes: a firmware image into the slot that does not run, a domain's keys, a flow's
configuration or removal, the member table; content that is refused changes none of it. -/
def Obligations.BlocksAreWrittenWhole : Prop :=
  ∀ (s : State) (t : Nat) (w : WEnv) (a : Assoc) (b : WBlk) (data : Bytes), (s.at t).Takes w a → w.storeOk = true →
    ((s.at t).LastSegment a Dict.secFwImage b data → ∃ u, exec (.fwImageWrite t w b) s = .next u ∧ (s.at t).sameBut [.sent, .values, .store, .storeCore, .welrid, .welridCore] u ∧
      (let x : FwSlot := { svn := leNat ((data.drop 4).take 4), ver := leNat ((data.drop 8).take 4), hdr := beNat (data.take 64), ok := true }
       (imageOk s.nv.fusedSvn data → u.replied w a (.wblock Dict.secFwImage.addr) ∧ u.nv = (if s.sc.running = some 0 then { s.nv with fwB := some x } else { s.nv with fwA := some x })) ∧
       (¬imageOk s.nv.fusedSvn data → u.replied w a (.error 0x10 0xFF Dict.secFwImage.addr 0) ∧ u.nv = s.nv))) ∧
    ((s.at t).LastSegment a Dict.dsecKeyCapsule b data → ∃ u, exec (.keyCapsuleWrite t w b) s = .next u ∧
      (s.at t).sameBut ([.values, .store, .storeCore, .security, .securityCore, .welridCore] ++ noted) u ∧
      (let d := a.domSel
       let gone := if (s.domSec d).keyNo = 0 then s.domSec d else { s.domSec d with attest := 0, keyNo := 0 }
       (∀ root epoch st, s.openCapsule d data = (some (root, epoch), st) → u.replied w a (.wblock Dict.dsecKeyCapsule.addr) ∧ u.nv = { s.nv with keys := Tbl.insert s.nv.keys d (Config.dukWrap root, epoch) } ∧
         (epoch ≠ 0 → ∃ c p, u.domSec d = { gone with root := root, epoch := epoch, confirm := c, prevRoot := p })) ∧
       (∀ st, s.openCapsule d data = (none, st) → u.replied w a (.error (if st then 0x06 else 0x10) 0xFF Dict.dsecKeyCapsule.addr 0) ∧ u.nv = s.nv ∧
         u.sc.doms = (if (s.domSec d).keyNo = 0 then s.sc.doms else Tbl.put {} s.sc.doms d gone)))) ∧
    ((s.at t).LastSegment a Dict.slaiskFlowConfig b data →
      (let ok := s.flowOk data = true ∧ s.flowNamed (parseFlow data).1 = false
       let code := if s.flowOk data = false then 0x10 else 0x06
       ((ok → (parseFlow data).2.1 = 0) → ∃ u, exec (.flowConfigure t w b) s = .next u ∧ (s.at t).sameBut ([.storeCore] ++ settled) u ∧
         (ok → u.replied w a (.wblock Dict.slaiskFlowConfig.addr) ∧ u.nv.rest =
           { s.nv with flows := Tbl.insert s.nv.flows (parseFlow data).1 (parseFlow data).2.2, flowGens := Tbl.put 0 s.nv.flowGens (parseFlow data).1 ((Tbl.get 0 s.nv.flowGens (parseFlow data).1 + 1) % 2 ^ 32) }.rest) ∧
         (¬ok → u.replied w a (.error code 0xFF Dict.slaiskFlowConfig.addr 0) ∧ u.nv = s.nv)) ∧
       ((ok → (parseFlow data).2.1 = 1) → ∃ u, exec (.flowRemove t w b) s = .next u ∧ (s.at t).sameBut ([.storeCore] ++ settled) u ∧
         (ok → u.replied w a (.wblock Dict.slaiskFlowConfig.addr) ∧ u.nv.rest = { s.nv with flows := Tbl.erase s.nv.flows (parseFlow data).1 }.rest) ∧
         (¬ok → u.replied w a (.error code 0xFF Dict.slaiskFlowConfig.addr 0) ∧ u.nv = s.nv)))) ∧
    (Tbl.sorted s.regs → (s.at t).LastSegment a Dict.warpMemberTable b data → ∃ u, exec (.memberTableWrite t w b) s = .next u ∧
      (let ok := data.length = 2048 ∧ s.memberOk (beNat data) = true
       (ok → u.replied w a (.wblock Dict.warpMemberTable.addr) ∧ u.reg Dict.warpMemberTable = beNat data ∧
         ∀ x ∈ Dict.table, x.acc ≠ .ro → ∀ sub i, regKey x sub i ≠ regKey Dict.warpMemberTable 0 0 → u.reg x sub i = s.reg x sub i) ∧
       (¬ok → u.replied w a (.error 0x10 0xFF Dict.warpMemberTable.addr 0) ∧ (s.at t).sameBut [.sent, .welrid, .welridCore] u)))

/-- R110, R113, R116, R117, R122, R133, R135: the certificate of a pending request, the pending key's time, the end of an epoch's overlap, the reservation of signature indices,
and the end of a seal's STARTING and STOPPING; where its condition does not hold, such an event changes nothing. -/
def Obligations.SecurityEventsActAsWritten : Prop :=
  ∀ (s : State) (t : Nat), s.live = true →
    (∀ d < 4096, ∃ u, exec (.attestCertReady t d) s = .next u ∧ (s.at t).sameBut ([.security, .securityCore] ++ noted) u ∧
      ((s.domSec d).attest ≠ 1 → u = s.at t) ∧
      ((s.domSec d).attest = 1 → s.sc.n < s.nv.sigEnd → u.sc.n = s.sc.n + 1 ∧
        ∃ c, u.domSec d = { s.domSec d with attest := 2, cert := some c, issued := Nat.max s.now t } ∧
          c.sig = s.sc.n ∧ c.nonce = (s.domSec d).nonce ∧ c.purpose = 2 ∧ c.domain = d ∧ c.keyNo = (s.domSec d).keyNo ∧ c.pick = s.pk.current ∧ c.device = s.device) ∧
      ((s.domSec d).attest = 1 → s.nv.sigEnd ≤ s.sc.n → ¬(s.sc.reserving = true ∧ s.sc.n < 2 ^ 40) → u.domSec d = { s.domSec d with attest := 3, keyNo := 0 })) ∧
    (∀ d < 4096, ∃ u, exec (.capsuleTimeout t d) s = .next u ∧ (s.at t).sameBut [.security, .securityCore] u ∧
      (let due := (s.domSec d).keyNo ≠ 0 ∧ (s.domSec d).attest = 2 ∧ (s.domSec d).issued + 1000000000 * s.reg Dict.secCapsuleTimeout ≤ Nat.max s.now t
       (due → u.sc = { s.sc with doms := Tbl.put {} s.sc.doms d { s.domSec d with attest := 0, keyNo := 0 } }) ∧ (¬due → u = s.at t))) ∧
    (∀ d < 4096, ∃ u, exec (.epochOverlapExpire t d) s = .next u ∧ (s.at t).sameBut [.security, .securityCore] u ∧
      (let due := ∃ p, (s.domSec d).prevUntil = some p ∧ p ≤ s.pk.current
       (due → u.sc = { s.sc with doms := Tbl.put {} s.sc.doms d { s.domSec d with prevUntil := none } }) ∧ (¬due → u = s.at t))) ∧
    (∀ ok, ∃ u, exec (.signatureIndexBlockReserved t ok) s = .next u ∧ (s.at t).sameBut ([.values, .store, .storeCore, .security, .securityCore, .faults] ++ noted) u ∧
      (s.sc.reserving = false → u = s.at t) ∧
      (s.sc.reserving = true → u.sc = { s.sc with reserving := false, storeFailed := !ok } ∧
        u.nv = (if ok then { s.nv with sigEnd := Nat.min (s.nv.sigEnd + 1024) (2 ^ 40) } else s.nv) ∧
        (ok = false → ∃ j, u.fa.journal.getLast? = some j ∧ j.cls = 1 ∧ j.src = 0x241))) ∧
    (∀ c < 4, Tbl.sorted s.fns → ∃ u, exec (.sealStartingComplete t c) s = .next u ∧ (s.at t).onlyNear (.seal c) u ∧
      (¬((s.fn (.seal c)).st = .starting ∧ s.sealBegan c = .starting) → u = s.at t) ∧
      ((s.fn (.seal c)).st = .starting → s.sealBegan c = .starting → (sealMoves c (s.reg Dict.sealDomain c) (s.at t)).1 = true → (s.at t).afterStart (.seal c) u) ∧
      ((s.fn (.seal c)).st = .starting → s.sealBegan c = .starting → (sealMoves c (s.reg Dict.sealDomain c) (s.at t)).1 = false → u.fn (.seal c) = { st := .off, pend := .none, fault := true })) ∧
    (∀ c < 4, Tbl.sorted s.fns → ∃ u, exec (.sealStoppingComplete t c) s = .next u ∧ (s.at t).onlyNear (.seal c) u ∧
      (¬((s.fn (.seal c)).st = .stopping ∧ s.sealBegan c = .stopping) → u = s.at t) ∧ ((s.fn (.seal c)).st = .stopping → s.sealBegan c = .stopping → (s.at t).afterStop (.seal c) u))

/-- R48-R50, R52, R55, R56, R60, R61, R508: what an edge of the contact does and what a high that lasts does: a pulse below 20 ns is a glitch, an edge of the selected source queues the next
pick, one of another source is rejected, and a high still there after 10 us is a stuck input, which ends a synchronised source. -/
def Obligations.ContactEdgesMakePicks : Prop :=
  ∀ (s : State) (t : Nat), s.live = true → s.picksTaken = true → Tbl.sorted s.regs →
    (let now := Nat.max s.now t
     (∀ width low, width < 20 → ∃ u, exec (.pickContactEdge t width low) s = .next u ∧ s.counted Dict.pickGlitchCount u ∧ (s.at t).sameBut (.values :: noted) u) ∧
     (∀ width low, 20 ≤ width → s.pk.stuck = true → low < 1000 → exec (.pickContactEdge t width low) s = .next (s.at t)) ∧
     (∀ width low, 20 ≤ width → (s.pk.stuck = true → 1000 ≤ low) →
       (let pk := { s.pk with stuck := false, edgeAt := some now, edgeHigh := width }
        (s.reg Dict.pickSource = 1 → s.QueuesPick t (.pickContactEdge t width low) (Nat.max (s.pk.lastNum + 1) (s.reg Dict.pickNextNumber)) (now + s.reg Dict.pickAlignDelay) false (s.coalesces now) pk) ∧
        (s.reg Dict.pickSource ≠ 1 → s.RejectsPick t (.pickContactEdge t width low) pk))) ∧
     (∀ e, s.pk.edgeAt = some e → s.pk.stuck = false → 10000 ≤ s.pk.edgeHigh → e + 10000 ≤ now → ∃ u, exec (.pickStuckInput t) s = .next u ∧ u.pk.stuck = true ∧
       (s.reg Dict.pickSource ≠ 1 ∨ s.pk.pend ≠ [] → s.counted Dict.pickStuckCount u) ∧
       (s.reg Dict.pickSource = 1 → s.pk.pend = [] → s.pk.st = .synced → s.pk.learned = true → s.reg Dict.pickHoldoverMax ≠ 0 → u.pk.st = .holdover ∧ u.pk.holdRem = s.reg Dict.pickHoldoverMax ∧
         u.pk.holdNext = some (e + s.pk.period + s.reg Dict.pickAlignDelay)) ∧
       (s.reg Dict.pickSource = 1 → s.pk.pend = [] → s.pk.st = .synced → s.pk.learned = false ∨ s.reg Dict.pickHoldoverMax = 0 → u.pk.st = .lost)) ∧
     (∀ e, s.pk.edgeAt = some e → s.pk.edgeHigh < 10000 → exec (.pickStuckInput t) s = .next (s.at t)))

/-- R51-R56, R60, R61, R508: a host's pick message, and a PICK or LOST flit of the tree's parent, reach the pick logic with the number, the alignment delay and the flags they carry; a
message of another source, or that is not in form, is rejected. -/
def Obligations.PickMessagesAreNumbered : Prop :=
  ∀ (s : State) (t : Nat), s.live = true → s.picksTaken = true → Tbl.sorted s.regs →
    (let now := Nat.max s.now t
     (∀ port < 2, ∀ m : HostPick, s.isOn (.port port) = true → s.vidOk port m.vid = true →
       (let good := s.reg Dict.pickSource = 3 ∧ m.minVersion ≤ 1 ∧ m.typ = 1 ∧ m.flags = 0 ∧ m.resv = 0 ∧
          (s.reg Dict.pickMsgAuth = 0 ∨ Config.gmac (s.reg Dict.pickMsgKey) m.pick ([m.version, m.minVersion, m.typ, m.flags] ++ beBytes 4 m.resv ++ beBytes 8 m.pick) = m.tag)
        (good → s.NumbersPick t (.hostPickMessage t port m) m.pick (now + s.reg Dict.pickAlignDelay) false (s.coalesces now) s.pk) ∧ (¬good → s.RejectsPick t (.hostPickMessage t port m) s.pk))) ∧
     (∀ link < 48, ∀ m : PickMsg, s.linkLive link = true → ((s.at t).heardFrom (s.link link).peerDev).present s.device = true →
       (let good := s.reg Dict.pickSource = 2 ∧ s.reg Dict.warpTreeParent = link ∧ m.minVersion ≤ 1
        let a := m.accum + (s.link link).delay
        let seen := { s.pk with hopDelay := a, rootIdx := m.root, rootAlign := m.align }
        (good → s.NumbersPick t (.pick t link m) m.pick (now + m.align - a) (bit m.flags 0) (bit m.flags 1 || s.coalesces now) seen) ∧
        (¬good → s.RejectsPick t (.pick t link m) s.pk ∧ s.RejectsPick t (.lost t link m) s.pk) ∧
        (good → s.pk.st = .synced ∨ s.pk.st = .holdover → ∃ u, exec (.lost t link m) s = .next u ∧ u.pk.rest = seen.toLost.rest) ∧
        (good → ¬(s.pk.st = .synced ∨ s.pk.st = .holdover) → ∃ u, exec (.lost t link m) s = .next u ∧ u.pk.rest = seen.rest))))

/-- R53-R56, R58-R60: at its action point a pick becomes the current one and leaves the queue, the mean and the miss test go on from it, and the stored floor stays above it. -/
def Obligations.ActionPointMakesThePickCurrent : Prop :=
  ∀ (s : State) (t : Nat) (q : PendPick) (rest : List PendPick), s.live = true → s.picksTaken = true → s.pk.pend = q :: rest → q.due ≤ Nat.max s.now t →
    ∃ u, exec (.pickActionPoint t) s = .next u ∧ u.pk.current = q.num ∧ u.pk.pend = rest ∧
      (s.pk.stuckPend = false → u.pk.rest = (s.pk.acted q rest).rest) ∧ u.nv.floor = (if s.nv.floor ≤ q.num then q.num + 65536 else s.nv.floor) ∧
      ∀ p ∈ [Part.clock, .queue, .settings, .fixedFns, .packageCore, .welridCore], p.same (s.at t) u

/-- R59-R61: a pick that is missed enters HOLDOVER with a first holdover pick where a period is learned and holdover is allowed, otherwise PICK_LOST; a holdover pick that is due advances the
pick number by one, and after the last one PICK_LOST is entered. -/
def Obligations.MissedPicksAreHeldOverOrLost : Prop :=
  ∀ (s : State) (t : Nat), s.live = true → s.picksTaken = true → Tbl.sorted s.regs → s.pk.stuckPend = false →
    (let now := Nat.max s.now t
     (∀ a, s.pk.st = .synced ∨ s.pk.st = .holdover ∧ s.pk.holdNext = none → s.pk.pend = [] → s.missAt = some a → a ≤ now → ∃ u, exec (.pickMissTimeout t) s = .next u ∧
       (s.pk.learned = false ∨ s.reg Dict.pickHoldoverMax = 0 → u.pk.st = .lost ∧ u.pk.current = s.pk.current) ∧
       (s.pk.learned = true → s.reg Dict.pickHoldoverMax ≠ 0 → u.pk.st = .holdover ∧ u.pk.current = s.pk.current + 1 ∧ u.pk.holdRem = s.reg Dict.pickHoldoverMax - 1 ∧
         u.pk.holdNext = some (now + s.pk.period) ∧ u.pk.lastAct = some now)) ∧
     (∀ d, s.pk.st = .holdover → s.pk.holdNext = some d → d ≤ now → ∃ u, exec (.holdoverPickDue t) s = .next u ∧
       (s.pk.holdRem = 0 → u.pk.rest = s.pk.toLost.rest) ∧
       (s.pk.holdRem ≠ 0 → u.pk.st = .holdover ∧ u.pk.current = s.pk.lastNum + 1 ∧ u.pk.holdRem = s.pk.holdRem - 1 ∧ u.pk.holdNext = some (d + s.pk.period) ∧ u.pk.lastAct = some d)))

/-- R68, R69, R423: what a barrier's messages, its timeout and their resending do to the barrier that is pending. -/
def Obligations.BarriersCollectTheirReports : Prop :=
  ∀ (s : State) (t : Nat), s.live = true → Tbl.sorted s.regs →
    (let quiet := s.sv.run = none ∧ s.sv.owed = false ∧ s.pw.pkg ≠ .draining
     let moved := [Part.values, .store, .storeCore, .package, .packageCore, .picks, .pickCore, .security, .securityCore, .sessions, .frames, .fabric, .serving, .search, .slaisk, .warp, .faults, .sent, .welrid, .monitors]
     (∀ link < 48, ∀ dev < 64, ∀ m : PickMsg, s.linkLive link = true → ((s.at t).heardFrom dev).present s.device = true → s.picksTaken = true → m.minVersion ≤ 1 →
       (∃ u, exec (.barrierRequest t link dev m) s = .next u ∧
         u.pk = { s.pk with barrier := some (s.pk.barrier.getD { p := m.barrier, mine := false }) } ∧ (s.at t).sameBut [.picks, .pickCore, .warp] u) ∧
       ∀ b, s.pk.barrier = some b → b.p = m.barrier → b.done.contains dev = false → ∃ u, exec (.barrierDone t link dev m) s = .next u ∧ (s.at t).sameBut moved u ∧
         (b.cut = false ∨ ((s.at t).heardFrom dev).warpDevices.all (b.done ++ [dev]).contains = false ∧ b.sent = true → u.pk.barrier = some { b with done := b.done ++ [dev] }) ∧
         (b.cut = true → b.sent = true → ((s.at t).heardFrom dev).warpDevices.all (b.done ++ [dev]).contains = true → u.pk.barrier = none ∧
           (quiet → u.reg Dict.pickBarrierDone = b.p ∧ u.lastNotice 0x0402 (beBytes 8 b.p)))) ∧
     (∀ b, s.pk.barrier = some b → b.cut = true → b.cutAt + 1000000 * s.reg Dict.pickBarrierTimeout ≤ Nat.max s.now t → ∃ u, exec (.barrierTimeout t) s = .next u ∧
       u.pk.barrier = none ∧ (s.at t).sameBut moved u ∧
       (quiet → s.counted Dict.pickBarrierFailCount u ∧ u.reg Dict.pickBarrierDone = s.reg Dict.pickBarrierDone ∧
         u.lastNotice 0x0403 (beBytes 8 b.p ++ beBytes 8 (sumOf (fun d => if b.done.contains d then 0 else 2 ^ d) s.warpDevices)))) ∧
     (∃ u, exec (.barrierMessageResend t) s = .next u ∧ (s.at t).sameBut (.warp :: noted) u ∧ u.pk.rest = s.pk.rest ∧
       ∀ b, s.pk.barrier = some b → b.sent = true ∨ b.mine = true →
         u = (s.at t).each (s.warpDevices.filter (· ≠ s.device)) fun d s => s.routeCtl d (ctlBytes (if b.sent then 4 else 3) 0 (s.barrierMsg b.p))))

/-- R147, R149, R151, R152, R154, R156, R61: the matrix of R154, for every command of a session ring.  A late command ends with DEADLINE_MISSED, one that admits work in PICK_LOST with PICK_LOST, one
whose cell is B with BAD_STATE, one whose cell is A without AUTO_REVIVE with BAD_STATE, one whose cell is D with DONE, and one whose cell is W waits. -/
def Obligations.SessionCommandsMeetTheirCell : Prop :=
  ∀ (s : State) (t k : Nat) (x : Option XRec) (i : Instr) (op : Nat) (q : QDesc) (rest : List QDesc), s.live = true → k < 2 ^ 20 →
    (i, op) ∈ [(Instr.openSession t k, 0x01), (.append t k, 0x02), (.generate t k, 0x03), (.park t k, 0x04), (.revive t k, 0x05), (.condense t k, 0x06), (.exportSession t k, 0x07),
      (.importSession t k x, 0x08), (.truncate t k, 0x0B)] →
    s.Ready k op q rest →
    (let lost := s.pk.st = .lost ∧ admits op = true
     let cell := matrix (s.sess k).st op
     let v := (s.at t).taking k q
     v.sess k = { s.sess k with prio := s.prioOf k q } ∧
     (s.isLate q.d.deadline = true → s.EndsHead (s.at t) i k q rest stDeadline) ∧
     (s.isLate q.d.deadline = false → lost → s.EndsHead (s.at t) i k q rest stPickLost) ∧
     (s.isLate q.d.deadline = false → ¬lost →
       (cell = .w → exec i s = .next (s.at t)) ∧
       (cell = .b → s.EndsHead v i k q rest stBad) ∧
       (cell = .a → bit q.d.flags 1 = false → op = 0x02 ∨ op = 0x03 → s.EndsHead v i k q rest stBad) ∧
       (cell = .d → q.d.count ≤ 2 → (op = 0x05 → q.d.count = 0) → v.handlesOk k (s.sess k).dom q = true → s.EndsHead v i k q rest stDone)))

/-- R145, R151, R152, R299, R301, R303, R309, R311, R471: what OPEN, APPEND, GENERATE and TRUNCATE do once they are taken and their checks pass.  `v` is the state in which the checks are made. -/
def Obligations.SessionCommandsRun : Prop :=
  ∀ (s : State) (t k : Nat) (q : QDesc) (rest : List QDesc), s.live = true → k < 2 ^ 20 →
    (let v := (s.at t).taking k q
     let x := v.sess k
     let cur := s.pk.current
     let q' := { q with inSt := 2 }
     let ready := q.inSt = 2 ∨ q.inSt = 0 ∧ q.d.dataLen = 0
     (∀ m < 16, s.Goes k 0x01 q rest → x.st = .free → s.pw.pkg ≠ .draining → q.d.count = m → q.d.dataLen ≤ 16777216 → v.mayHold q.dom k = true → v.modelFor q.dom m k = true → v.handlesOk k q.dom q = true → ready →
       (let prio := Nat.min (if bit q.d.deadline 51 then bits q.d.deadline 50 48 else v.reg Dict.dsessDefaultPriority 0 q.dom) (if bit q.d.deadline 51 then v.reg Dict.dsessPriorityCap 0 q.dom else 7)
        let y : Sess := { st := .admitted, gen := x.gen, dom := q.dom, model := m, prio := prio, head := x.head, tail := x.tail, ring := q' :: rest, imm := x.imm, closePend := x.closePend, lastStep := cur, since := cur }
        (q.d.dataLen = 0 → ∃ u, exec (.openSession t k) s = .next u ∧
          u.sess k = { (y.bind q').popped rest with ttl := if s.reg Dict.dtierParkDelay 0 q.dom = 0 then 0 else cur + s.reg Dict.dtierParkDelay 0 q.dom } ∧
          ∃ w : State, w.ss.cq = s.ss.cq ∧ w.sl = s.sl ∧ w.posts q.dom (Rec.completes q stDone 0) u) ∧
        (0 < q.d.dataLen → (v.model m).st = 2 → v.pinFull k = false → ∃ u, exec (.openSession t k) s = .next u ∧ u.sess k = { (y.bind q').started q' rest cur with st := .prefill, fresh := true }))) ∧
     (s.Goes k 0x02 q rest → x.st = .admitted ∨ x.st = .toolwait → q.d.count = 0 → q.d.dataLen ≤ 16777216 → v.handlesOk k x.dom q = true → ready → (v.model x.model).st = 2 → v.pinFull k = false →
       ∃ u, exec (.append t k) s = .next u ∧ u.sess k = { (x.bind q').started q' rest cur with st := .prefill, since := cur, ttl := 0, fresh := true }) ∧
     (s.Goes k 0x03 q rest → x.st = .admitted ∨ x.st = .toolwait → 1 ≤ q.d.count → q.d.count ≤ 1048576 → v.handlesOk k x.dom q = true →
       (let g := v.grammar x.dom (if q.d.grammar = 0 then x.grammar else q.d.grammar)
        (∀ y, g = some y → y.vocab = (v.model x.model).vocab) →
        (∀ st, v.ref x.dom q.d.dataRef q.d.dataLen true ≠ .fail st) → v.ref x.dom q.d.dataRef q.d.dataLen true ≠ .wait → (v.model x.model).st = 2 → x.length ≠ 1048576 →
        v.replacing x.dom (if q.d.grammar = 0 then x.grammar else q.d.grammar) = false → v.pinFull k = false → q.dom = x.dom →
        ∃ u, exec (.generate t k) s = .next u ∧
          (let y := (x.bind q).started q rest cur
           let begins := y.gstate = gNone
           let w := match g with
             | some z => if begins then z.start else y.gstate
             | none => y.gstate
           u.sess k = { y with gstate := w, ctx := { stack := if g.isSome = true ∧ begins then [] else y.ctx.stack }, remaining := q.d.count, progress := 0, generated := true, ttl := 0, lastStep := cur, fresh := true, st := .decode, since := cur }))) ∧
     (s.Goes k 0x0B q rest → x.st = .admitted ∨ x.st = .toolwait → q.d.count < x.length → v.handlesOk k x.dom q = true → (v.tm.moves.any fun m => m.k == k) = false → q.dom = x.dom →
       ∃ u, exec (.truncate t k) s = .next u ∧
         (u.sess k).core = ({ (x.bind q).popped rest with gstate := gNone, ctx := (if x.gstate = gNone then x.ctx else { x.ctx with stack := [] }), length := q.d.count, tokens := x.tokens.take q.d.count, sver := (x.sver + 1) % 2 ^ 32, deadline := 0 } : Sess).core ∧
         ∃ (w : State) (n : Nat), w.ss.cq = s.ss.cq ∧ w.sl = s.sl ∧ w.posts q.dom (Rec.completes q stDone n) u))

/-- R145, R154, R155, R192, R196, R197, R200, R202, R204, R205: what PARK, CONDENSE, EXPORT and IMPORT, REVIVE, and a command that revives its session first, do once they are taken and their checks
pass.  `v` is the state in which the checks are made; `core` leaves out the pages and what their moves keep. -/
def Obligations.WholeSessionCommandsBegin : Prop :=
  ∀ (s : State) (t k : Nat) (q : QDesc) (rest : List QDesc), s.live = true → k < 2 ^ 20 →
    (let v := (s.at t).taking k q
     let x := v.sess k
     let cur := s.pk.current
     let ok := v.handlesOk k x.dom q = true ∧ v.pinFull k = false ∧ q.dom = x.dom ∧ v.moverFull (chOf k) = false ∧ ∀ e ∈ x.pages, v.stale e.2 = false
     let moves (i : Instr) (target policy : Nat) : Prop :=
       ∃ u, exec i s = .next u ∧ (u.sess k).core = ({ (x.bind q).started q rest cur with st := .moving, prior := x.st, target := target, policy := policy, pausedAt := cur } : Sess).core
     let revives (i : Instr) : Prop :=
       ∃ u, exec i s = .next u ∧ (u.sess k).core = ({ x with st := .reviving, prior := x.st, revivePend := true, pausedAt := cur, deadline := q.d.deadline % 2 ^ 48 } : Sess).core
     (s.Goes k 0x04 q rest → ok → matrix x.st 0x04 = .x →
       (q.d.count = 0 → x.st ≠ .parkedDeep → x.st ≠ .condensed → moves (.park t k) 0 x.policy) ∧
       (q.d.count = 1 → q.d.dataRef < 16 → x.st ≠ .parkedFar → moves (.park t k) 2 x.policy) ∧
       (q.d.count = 0 → x.st = .parkedDeep ∨ x.st = .condensed → s.EndsHead v (.park t k) k q rest stDone) ∧
       (q.d.count = 1 → q.d.dataRef < 16 → x.st = .parkedFar → s.EndsHead v (.park t k) k q rest stDone)) ∧
     (s.Goes k 0x06 q rest → ok → matrix x.st 0x06 = .x → q.d.count ≤ 2 → moves (.condense t k) 1 q.d.count) ∧
     (s.Goes k 0x05 q rest → ok → matrix x.st 0x05 = .x → q.d.count = 0 → ∃ u, exec (.revive t k) s = .next u ∧
       (u.sess k).core = ({ (x.bind q).started q rest cur with st := .reviving, prior := x.st, pausedAt := cur } : Sess).core) ∧
     (s.Goes k 0x07 q rest → ok → matrix x.st 0x07 = .x → q.d.count ≤ 1 →
       (let policy := if x.st = .condensed then x.policy else v.reg Dict.dtierSlatePolicy 0 x.dom
        v.farFits x.dom q.d.dataRef ((1 + v.exportFrames k q.d.count policy) * frameBytes) = true →
        (∀ st, v.ref x.dom q.d.dataRef q.d.dataLen true ≠ .fail st) → v.ref x.dom q.d.dataRef q.d.dataLen true ≠ .wait → moves (.exportSession t k) 3 policy)) ∧
     (s.Goes k 0x0B q rest → ok → matrix x.st 0x0B = .a → bit q.d.flags 1 = true → q.d.count < x.length → revives (.truncate t k)) ∧
     (s.Goes k 0x02 q rest → ok → matrix x.st 0x02 = .a → bit q.d.flags 1 = true → q.d.count = 0 → q.d.dataLen ≤ 16777216 → q.inSt = 2 → revives (.append t k)) ∧
     (∀ z : XRec, s.Goes k 0x08 q rest → x.st = .free → q.d.count = 0 → q.d.dataRef / 2 ^ 62 % 4 = 2 → v.handlesOk k q.dom q = true → v.pinFull k = false → v.mayHold q.dom k = true →
       (∀ st, v.ref q.dom q.d.dataRef q.d.dataLen false ≠ .fail st) → v.ref q.dom q.d.dataRef q.d.dataLen false ≠ .wait → z.ok = true → ¬(v.reg Dict.dsecClass 0 q.dom = 2 ∧ z.writer ≠ ownWriter) → z.domain = q.dom → (v.model z.model).st = 2 → (v.model z.model).dom = q.dom →
       (v.model z.model).meas = z.meas →
       ∃ u, exec (.importSession t k (some z)) s = .next u ∧ (u.sess k).st = .moving ∧ (u.sess k).prior = .free ∧ (u.sess k).dom = q.dom ∧ (u.sess k).model = z.model ∧ (u.sess k).length = z.length ∧
         (u.sess k).sver = z.sver ∧ (u.sess k).tokens = z.tokens ∧ (u.sess k).ring = rest ∧ (u.sess k).gen = x.gen ∧ (u.sess k).run.map (·.q) = some q))

/-- R156, R158, R160, R189, R195-R201, R251, R288: what the timers of a session and of a frame do when their condition holds, and that they do nothing when it does not. -/
def Obligations.TimersActWhenTheyAreDue : Prop :=
  ∀ (s : State) (t : Nat), s.live = true → Tbl.sorted s.ss.tbl → Tbl.sorted s.ss.cq →
    (let v := s.at t
     let cur := s.pk.current
     (∀ k < 2 ^ 20,
       (let x := s.sess k
        let moving (target policy : Nat) : Sess := { x with st := .moving, prior := x.st, target := target, policy := policy, pausedAt := cur }
        let ends (i : Instr) (r : Run) (st : SSt) (status : Nat) : Prop := ∃ u, exec i s = .next u ∧ (u.sess k).st = st ∧ (u.sess k).run = none ∧ (u.sess k).ring = x.ring ∧ (u.sess k).length = x.length ∧
          ∃ (w : State) (n : Nat), w.ss.cq = s.ss.cq ∧ w.posts r.q.dom (Rec.completes r.q status n) u
        (s.timerFree k = false → exec (.parkPickReached t k) s = .next v ∧ exec (.deepTtlExpire t k) s = .next v ∧ exec (.slateTtlExpire t k) s = .next v ∧ exec (.farTtlExpire t k) s = .next v) ∧
        (s.timerFree k = true → s.pinFull k = false → (∀ e ∈ x.pages, s.stale e.2 = false) →
          (x.st = .admitted ∨ x.st = .toolwait → ∃ u, exec (.parkPickReached t k) s = .next u ∧
            (u.sess k).core = (if ((((v.touchEntry k).beginMoving k 0 0).issueMoves k).sess k).reserved then (moving 0 0).core else x.core)) ∧
          (x.st = .parkedDeep → ∃ u, exec (.deepTtlExpire t k) s = .next u ∧ (u.sess k).core = (moving 1 (s.reg Dict.dtierSlatePolicy 0 x.dom)).core) ∧
          (x.st = .condensed → s.reg Dict.dtierSlateExpiry 0 x.dom = 0 → ∃ u, exec (.slateTtlExpire t k) s = .next u ∧ (u.sess k).core = (moving 2 x.policy).core) ∧
          (x.st = .condensed → s.reg Dict.dtierSlateExpiry 0 x.dom ≠ 0 → s.stalled x.dom = false → ∃ u, exec (.slateTtlExpire t k) s = .next u ∧ u.sess k = { x with st := .closing, since := cur } ∧
            s.posts x.dom (fun r => r.handle = s.handle k ∧ r.seq = 0xFFFF ∧ r.opcode = 0x0A ∧ r.status = stDone ∧ r.progress = x.pageCount % 2 ^ 32) u)) ∧
        (s.timerFree k = true → x.st = .parkedFar → s.stalled x.dom = false → ∃ u, exec (.farTtlExpire t k) s = .next u ∧ u.sess k = { x with ttl := 0 } ∧
          s.posts x.dom (fun r => r.handle = s.handle k ∧ r.seq = 0xFFFF ∧ r.opcode = 0x09 ∧ r.status = stDone ∧ r.progress = x.length % 2 ^ 32) u) ∧
        (x.serving = false → ∃ u, exec (.deadlineExpire t (.sess k)) s = .next u ∧ (u.sess k).ring = x.ring.filter (fun q => !s.isLate q.d.deadline) ∧
          (u.sess k).head = (x.head + (x.ring.filter fun q => s.isLate q.d.deadline).length) % 65536 ∧ (u.sess k).st = x.st) ∧
        (∀ r, x.run = some r → x.serving = true → s.isLate x.deadline = true → s.inStep k = false → s.stalled r.q.dom = false → (∀ q ∈ x.ring, s.isLate q.d.deadline = false) → ends (.deadlineExpire t (.sess k)) r x.rest stDeadline) ∧
        (∀ r, x.run = some r → x.st = .decode → s.sreg Dict.dbudgetGrace 0 x.dom < x.bwait → s.inStep k = false → s.stalled r.q.dom = false → ends (.budgetGraceExpire t k) r x.rest stBudget) ∧
        (∀ r p, x.run = some r → x.serving = true → x.waitFrom = some p → p + s.reg Dict.dtierFrameGrace 0 x.dom ≤ cur → p < cur → s.inStep k = false → s.stalled r.q.dom = false → ends (.allocGraceExpire t k) r x.rest stNoFrames) ∧
        (∀ r, x.run = some r → r.q.d.opcode = 0x03 → x.st = .decode → 0 < s.reg Dict.dsessStreamEvery 0 x.dom → r.lastRec + s.reg Dict.dsessStreamEvery 0 x.dom ≤ cur → s.stalled x.dom = false →
          ∃ u, exec (.generateStreamRecord t k) s = .next u ∧ u.sess k = { x with run := some { r with lastRec := cur } } ∧
            s.posts x.dom (fun y => y.handle = r.q.d.session ∧ y.seq = r.q.d.seq ∧ y.opcode = 0x03 ∧ y.status = stPartial ∧ y.progress = x.progress % 2 ^ 32) u))) ∧
     (∀ d < 4096, ∃ u, exec (.deadlineExpire t (.dom d)) s = .next u ∧ u.ss.tbl = s.ss.tbl) ∧
     (∀ d < 4096, ∀ h, (s.cq d).held = [h] → h.notif = false → h.wantsNotif = false → s.cqRoom d = true → ∃ u, exec (.completionRecordRelease t d) s = .next u ∧ (u.cq d).held = [] ∧
       (u.cq d).written = ((s.cq d).written + 1) % 2 ^ 32) ∧
     (∀ c < 4, ∀ tier < 2, ∀ n < 16777216, Tbl.sorted s.tm.frames →
       (let f := s.frame c tier n
        (f.st = 2 → ∃ u, exec (.frameLeaseRelease t c tier n) s = .next u ∧ u.frame c tier n = { f with st := if f.bad then 3 else 0 } ∧ (s.at t).sameBut [.frames] u) ∧
        (f.st ≠ 2 → exec (.frameLeaseRelease t c tier n) s = .next v) ∧
        (f.st = 3 → ∃ u, exec (.frameTestComplete t c tier n []) s = .next u ∧ u.frame c tier n = { f with st := 0, bad := false } ∧ (s.at t).sameBut [.frames] u) ∧
        (f.st = 3 → tier = 1 → ∀ b < 72, ∃ u, exec (.frameTestComplete t c tier n [b]) s = .next u ∧ u.frame c tier n = { f with st := 4, bad := false } ∧ u.lastNotice 0x1201 ([c, tier] ++ beBytes 4 n)) ∧
        (f.st ≠ 3 → exec (.frameTestComplete t c tier n []) s = .next v))))

/-- R145, R148, R153, R202, R299: what QUERY and CLOSE do once they are handled, and what a whole-session move, a revival, a closing and a tokenising leave when they are complete. -/
def Obligations.SessionsAnswerAndComplete : Prop :=
  ∀ (s : State) (t k : Nat), s.live = true → k < 2 ^ 20 → Tbl.sorted s.ss.tbl → Tbl.sorted s.ss.cq →
    (let x := s.sess k
     let imm (op : Nat) (q : QDesc) (rest : List QDesc) : Prop := x.imm = q :: rest ∧ q.d.opcode = op ∧ s.inStep k = false ∧ s.stalled q.dom = false ∧ s.sv.held = false ∧ s.handlesOk k q.dom q = true ∧
       q.d.count = 0 ∧ x.st ≠ .free
     let posted (d : Nat) (q : QDesc) (status n : Nat) (u : State) : Prop := ∃ w : State, w.ss.cq = s.ss.cq ∧ w.posts d (Rec.completes q status n) u
     let arrives (i : Instr) (r : Run) (st : SSt) : Prop := ∃ u, exec i s = .next u ∧ (u.sess k).st = st ∧ (u.sess k).run = none ∧ (u.sess k).sver = (x.sver + 1) % 2 ^ 32 ∧ (u.sess k).ring = x.ring ∧
       (u.sess k).length = x.length ∧ (u.sess k).tokens = x.tokens ∧ ∃ n, posted r.q.dom r.q stDone n u
     let freed (y : Sess) : Prop := y = { gen := genNext (s.genOf k), head := (x.head + x.ring.length) % 65536, tail := x.tail }
     (∀ q rest, imm 0x09 q rest → (∀ st, s.ref q.dom q.d.dataRef q.d.dataLen true ≠ .fail st) → s.ref q.dom q.d.dataRef q.d.dataLen true ≠ .wait →
       ∃ u, exec (.query t k) s = .next u ∧ u.sess k = { x with imm := rest }.bind q ∧ posted q.dom q stDone x.length u) ∧
     (∀ q rest, imm 0x0A q rest → x.st = .closing → ∃ u, exec (.close t k) s = .next u ∧ u.sess k = { x with imm := rest } ∧ posted q.dom q stBad 0 u) ∧
     (∀ q rest, imm 0x0A q rest → x.st ≠ .closing → x.st ≠ .moving → x.st ≠ .reviving → s.pinFull k = false → (∀ m ∈ s.dx.out, m.k ≠ k) →
       ∃ u, exec (.close t k) s = .next u ∧ (u.sess k).st = .closing ∧ (u.sess k).imm = rest ∧ (u.sess k).ring = [] ∧ (u.sess k).run.map (·.q) = some q ∧ (u.sess k).length = x.length ∧ (u.sess k).tokens = x.tokens ∧
         (∀ r, x.run = some r → x.ring = [] → s.stalled r.q.dom = false → ∃ n, posted r.q.dom r.q stPartial n u)) ∧
     (∀ r, x.st = .moving → x.closePend = false → x.reserved = true → (∀ m ∈ s.tm.moves, m.k ≠ k) → (∀ e ∈ s.pw.drainExp, e.1 ≠ k) → s.pw.pkg ≠ .draining → x.run = some r → s.stalled r.q.dom = false →
       (x.lost = false → s.movePlan k = [] →
         (x.target = 0 → arrives (.sessionMoveComplete t k) r .parkedDeep) ∧ (x.target = 1 → arrives (.sessionMoveComplete t k) r .condensed) ∧ (x.target = 2 → arrives (.sessionMoveComplete t k) r .parkedFar) ∧
         (x.target = 3 → x.xst = 3 → x.ring = [] → x.imm = [] → ∃ u, exec (.sessionMoveComplete t k) s = .next u ∧ freed (u.sess k) ∧ posted r.q.dom r.q stDone 0 u)) ∧
       (x.lost = true → x.target ≠ 3 ∨ x.xst = 3 → x.prior ≠ .free → x.revivePend = false → ∃ u, exec (.sessionMoveComplete t k) s = .next u ∧ (u.sess k).st = .halted ∧ (u.sess k).run = none ∧ posted r.q.dom r.q stPageLost 0 u)) ∧
     (x.st ≠ .moving → exec (.sessionMoveComplete t k) s = .next (s.at t)) ∧
     (x.st = .reviving → x.closePend = false → x.reserved = true → x.recompute = none → s.inStep k = false → (∀ m ∈ s.tm.moves, m.k ≠ k) → x.lost = false →
       (∀ r, x.run = some r → s.stalled r.q.dom = false → arrives (.revivalComplete t k) r x.rest) ∧
       (x.run = none → ∃ u, exec (.revivalComplete t k) s = .next u ∧ (u.sess k).st = x.rest ∧ (u.sess k).revivePend = false ∧ (u.sess k).ring = x.ring ∧ (u.sess k).sver = (x.sver + 1) % 2 ^ 32 ∧ u.ss.cq = s.ss.cq)) ∧
     (x.st ≠ .reviving → exec (.revivalComplete t k) s = .next (s.at t)) ∧
     (x.st = .closing → x.ring = [] → x.imm = [] → ∃ u, exec (.closingComplete t k) s = .next u ∧ freed (u.sess k) ∧ ∀ r, x.run = some r → s.stalled r.q.dom = false → posted r.q.dom r.q stDone r.moved u) ∧
     (x.st ≠ .closing → exec (.closingComplete t k) s = .next (s.at t)) ∧
     (∀ r i vs, x.run = some r → s.vocabOf (s.model x.model) = some (i, vs) → x.st = .prefill → r.tokenised = false →
       (let ts := tokenise vs.v (decide (s.sreg Dict.mtextSpecialMatch 0 x.model = 1)) r.q.input
        (x.length + ts.length ≤ 1048576 → ts ≠ [] → ∃ u, exec (.tokenisingComplete t k) s = .next u ∧ u.sess k = { x with run := some { r with toks := ts, tokenised := true } } ∧
          (Tbl.sorted s.regs → s.countedOn Dict.textTokensProduced (chOf k) ts.length u)) ∧
        (1048576 < x.length + ts.length → s.stalled r.q.dom = false → ∃ u, exec (.tokenisingComplete t k) s = .next u ∧ (u.sess k).st = x.rest ∧ (u.sess k).run = none ∧ ∃ n, posted r.q.dom r.q stLimit n u) ∧
        (x.length ≤ 1048576 → ts = [] → s.stalled r.q.dom = false → ∃ u, exec (.tokenisingComplete t k) s = .next u ∧ (u.sess k).st = x.rest ∧ (u.sess k).run = none ∧ ∃ n, posted r.q.dom r.q stDone n u))))

/-- R184, R185, R190, R194, R127: background eviction runs between the water marks and moves a near victim to deep, a page's move switches its home, and a move that fails leaves the source
home, poisoned where its bytes were lost. -/
def Obligations.PagesMoveAndAreEvicted : Prop :=
  ∀ (s : State) (t : Nat), s.live = true → Tbl.sorted s.ss.tbl → Tbl.sorted s.tm.frames → Tbl.sorted s.regs →
    ((∀ e ∈ s.ss.tbl, e.2.st = .moving → e.2.reserved = true ∨ e.2.target ≠ 1) → ∀ c < 4, ∀ tier < 2,
      (let key := 2 * c + tier
       let low := s.sreg (if tier = 0 then Dict.tierNearLowWater else Dict.tierDeepLowWater) 0 c
       let high := s.sreg (if tier = 0 then Dict.tierNearHighWater else Dict.tierDeepHighWater) 0 c
       let going := s.freeFrames c tier < low ∨ (s.tm.evicting.contains key = true ∧ s.freeFrames c tier < high)
       (s.chOn c = false → exec (.backgroundEviction t c tier) s = .next (s.at t)) ∧
       (s.chOn c = true → ¬going → ∃ u, exec (.backgroundEviction t c tier) s = .next u ∧ u.tm = { s.tm with evicting := s.tm.evicting.filter (· != key) } ∧ (s.at t).sameBut [.frames] u) ∧
       (s.chOn c = true → going → s.victim c tier none = none → ∃ u, exec (.backgroundEviction t c tier) s = .next u ∧ key ∈ u.tm.evicting ∧ u.tm.frames = s.tm.frames ∧ (s.at t).sameBut [.frames] u) ∧
       (s.chOn c = true → going → s.pk.st ≠ .lost → s.moverFull c = false → tier = 0 → ∀ k l p n w, s.victim c 0 none = some (k, l, p) → s.takeFrame (s.sess k).dom c 1 = some (n, w) →
         ∃ u p', exec (.backgroundEviction t c tier) s = .next u ∧ key ∈ u.tm.evicting ∧ (s.sess k).page? l = some p' ∧ (u.sess k).page? l = some { p' with moving := true } ∧
           (∃ m ∈ u.tm.moves, m.k = k ∧ m.lpn = l ∧ m.tier = 1 ∧ m.ch = c ∧ m.frame = n ∧ m.why = 1) ∧ (u.frame c 1 n).st = 1))) ∧
    (∀ k < 2 ^ 20, ∀ lpn,
      ((s.tm.moves.find? fun m => m.k == k && m.lpn == lpn && m.started) = none → ∀ v, exec (.pageMoveSwitch t k lpn v) s = .next (s.at t)) ∧
      (∀ m v, (s.tm.moves.find? fun m => m.k == k && m.lpn == lpn && m.started) = some m → m.io = 1 → exec (.pageMoveSwitch t k lpn v) s = .next (s.at t)) ∧
      (∀ m p, (s.tm.moves.find? fun m => m.k == k && m.lpn == lpn && m.started) = some m → m.io ≠ 1 → m.io ≠ 3 → (s.sess k).st ≠ .reviving ∨ (s.sess k).reserved = true → (s.sess k).page? lpn = some p →
        (let left (c tier n : Nat) (bad : Bool) (u : State) : Prop := tier < 2 → (s.frame c tier n).st = 1 → (u.frame c tier n).st = if s.sv.run.isSome then 2 else if bad then 3 else 0
         let gone (u : State) : Prop := ∀ y ∈ u.tm.moves, ¬(y.k = k ∧ y.lpn = lpn)
         let lost (i : Instr) : Prop := ∃ u, exec i s = .next u ∧ gone u ∧ (u.sess k).lost = true ∧ (u.sess k).st = (s.sess k).st ∧ left m.ch m.tier m.frame false u ∧
           (u.sess k).page? lpn = some { p with moving := false, poisoned := true }
         (∀ n, ∃ u q, exec (.pageMoveSwitch t k lpn (.ok n)) s = .next u ∧ gone u ∧ (u.sess k).page? lpn = some q ∧ q.tier = m.tier ∧ q.ch = m.ch ∧ q.frame = m.frame ∧
           q.region = m.region ∧ q.moving = false ∧ q.kv = p.kv ∧ (s.stale p = false → left p.ch p.tier p.frame p.poisoned u)) ∧
         (m.why ≠ 0 → ∃ u, exec (.pageMoveSwitch t k lpn .failed) s = .next u ∧ gone u ∧ (u.sess k).page? lpn = some { p with moving := false } ∧ left m.ch m.tier m.frame false u) ∧
         (p.poisoned = false → (s.sess k).st ≠ .moving → (s.sess k).st ≠ .reviving → lost (.pageMoveSwitch t k lpn .crcLost) ∧ lost (.pageMoveSwitch t k lpn .tagBad) ∧ lost (.pageMoveSwitch t k lpn .versionBad)))))

/-- R212, R216, R228, R230, R231, R233: a tile's error fences it, a pattern's load takes a slot of its group, and a model's slot follows its loading and unloading. -/
def Obligations.FabricFollowsItsLoads : Prop :=
  ∀ (s : State) (t : Nat), s.live = true → Tbl.sorted s.regs → Tbl.sorted s.fb.slots → Tbl.sorted s.fb.models →
    (∀ c < 4, ∀ n < 256, ∀ ks,
      (let hit := (s.groupOn c (n / 16) = true ∨ s.groupSched c (n / 16) = true) ∧ s.isFenced c n = false
       (¬hit → exec (.tileError t c n ks) s = .next (s.at t)) ∧
       (hit → ∃ u, exec (.tileError t c n ks) s = .next u ∧ u.isFenced c n = true ∧ (∀ m < 256, m ≠ n → u.isFenced c m = s.isFenced c m) ∧ s.notified 0x1101 [c, n] u ∧
         s.countedOn Dict.fabricTileErrorCount c 1 u ∧ (s.sv.run = none → u.sv = s.sv) ∧
         (∀ v, s.sv.run = some v → ∃ v', u.sv.run = some v' ∧ v'.rows = v.rows.map (fun r => if ks.contains r.k then { r with retake := true } else r) ∧
           v'.chunks = v.chunks.map fun r => if ks.contains r.k then { r with bad := true } else r)))) ∧
    (∀ c < 4, ∀ g < 16, ∀ m < 16, ∀ p < 32, ∀ P : Pat, s.groupOn c g = true → (s.model m).st = 2 → (s.model m).chans.contains c = true → ((s.model m).pats.find? fun x => x.id == p) = some P →
      (let key := 32 * m + p
       let i := P.instAt m c g
       let free (g' old : Nat) : Prop := ((s.patSlots c g').reverse.find? fun k => !s.isPinned k && !(s.runningOn c g').contains k) = some old
       let room (g' : Nat) : Prop := (s.patSlots c g').contains key = true ∨ (s.patSlots c g').length < 8 ∨ ∃ old, free g' old
       let all := ∀ g' ∈ i.groups, (s.patSlots c g').contains key = true
       let holds (u : State) : Prop := ∀ g' ∈ i.groups,
         ((s.patSlots c g').contains key = true → u.patSlots c g' = key :: (s.patSlots c g').filter (· != key)) ∧
         ((s.patSlots c g').contains key = false → (s.patSlots c g').length < 8 → u.patSlots c g' = key :: s.patSlots c g') ∧
         (∀ old, (s.patSlots c g').contains key = false → 8 ≤ (s.patSlots c g').length → free g' old → u.patSlots c g' = key :: (s.patSlots c g').filter (· != old))
       (s.mayPlace P i = false ∨ ¬(∀ g' ∈ i.groups, room g') → exec (.patternLoadComplete t c g m p) s = .next (s.at t)) ∧
       (s.mayPlace P i = true → (∀ g' ∈ i.groups, room g') → ∃ u, exec (.patternLoadComplete t c g m p) s = .next u ∧ holds u ∧ i ∈ u.fb.insts ∧
         (∀ c' g', (∀ g'' ∈ i.groups, 16 * c' + g' ≠ 16 * c + g'') → u.patSlots c' g' = s.patSlots c' g') ∧
         (all → s.countedOn Dict.fabricPatternHitCount c 1 u) ∧ (¬all → s.countedOn Dict.fabricPatternMissCount c 1 u) ∧ (s.at t).sameBut (.values :: .fabric :: noted) u))) ∧
    (∀ d < 4096, ∀ (b : Bytes) (q : QDesc) (rest : List QDesc), (s.at t).Starts d 0x40 q rest → (s.at t).Brings d q (some b) b →
      (let img := parseModel b
       let f := q.d.count
       let m := f % 16
       let place := bits f 5 4
       let stage := bits f 11 6
       let stages := bits f 17 12 + 1
       let cs := s.domChans d
       let n := modelImgFrames img place stage stages cs.length
       let i := Instr.modelLoad t d (.tables b)
       let fields := f < 2 ^ 18 ∧ place ≤ 2 ∧ stage < stages ∧ (place = 2 ∨ f / 64 = 0) ∧ descBare q.d = true
       let free := (s.model m).st = 0 ∨ ((s.model m).st = 4 ∧ (s.model m).dom = d ∧ (s.model m).meas = img.digest)
       let fits := modelImgOk img place cs.length = true ∧ cs ≠ [] ∧ img.imgLen ≤ q.d.dataLen ∧ s.tx.vocabs.any (fun v => decide (v.2.v.digest = img.vocabDigest) && decide (v.2.dom = d) && decide (v.2.v.entries.length = img.vocabEntries)) = true
       (s.holdsKeys d = false → s.DomDone i d q rest stDenied 0 fun u => u.fb.models = s.fb.models) ∧
       (s.holdsKeys d = true → ¬(fields ∧ free) → s.DomDone i d q rest stBad 0 fun u => u.fb.models = s.fb.models) ∧
       (s.holdsKeys d = true → fields → free → s.reg Dict.dsecClass 0 d = 2 → place ≠ 0 → s.DomDone i d q rest stDenied 0 fun u => u.fb.models = s.fb.models) ∧
       (s.holdsKeys d = true → fields → free → ¬(s.reg Dict.dsecClass 0 d = 2 ∧ place ≠ 0) → ¬fits → s.DomDone i d q rest stBad 0 fun u => u.fb.models = s.fb.models) ∧
       (s.holdsKeys d = true → fields → free → ¬(s.reg Dict.dsecClass 0 d = 2 ∧ place ≠ 0) → fits → Tbl.sorted s.tm.frames → (∀ c ∈ cs, n ≤ s.freeFrames c 0) → s.owned d 0 + cs.length * n ≤ s.tierCap d 0 →
         ∃ r, r.q = q ∧ r.stage = 1 ∧ r.a = cs.length * n ∧ s.DomRuns i d rest r fun u => (u.model m).st = 1 ∧ (u.model m).dom = d ∧ (u.model m).meas = img.digest ∧ (u.model m).chans = cs ∧ (u.model m).placement = place))) ∧
    (∀ d < 4096, ∀ r, s.Runs d r → ((s.dring d).running.find? fun x => x.q.d.opcode == 0x40) = some r → r.stage = 1 →
      (let m := r.q.d.count % 16
       let x := s.model m
       let failed (u : State) : Prop := (x.was = none → u.model m = {}) ∧ (∀ w, x.was = some w → u.model m = { x with st := 4, placement := w.1, stage := w.2.1, stages := w.2.2.1, chans := w.2.2.2, was := none }) ∧
         ∀ b ∈ u.tm.bulk, b.tag ≠ loadTag m
       (r.b ≠ 0 → s.pinsFit m = true → s.RunEnds (.modelLoad t d .whole) d r stDone r.a fun u => u.model m = { x with st := 2, was := none, measured := true, ready := [x.stage] }) ∧
       (r.b = 0 ∨ s.pinsFit m = false → s.RunEnds (.modelLoad t d .whole) d r stBad 0 failed) ∧ s.RunEnds (.modelLoad t d .lost) d r stAbort 0 failed)) ∧
    (∀ d < 4096, ∀ (q : QDesc) (rest : List QDesc), (s.at t).Starts d 0x41 q rest →
      (let m := q.d.count % 16
       let x := s.model m
       let named := q.d.count < 16 ∧ descBare q.d = true ∧ x.dom = d ∧ (x.st = 2 ∨ x.st = 4)
       let used := (∃ e ∈ s.ss.tbl, e.2.st ≠ .free ∧ e.2.model = m ∧ e.2.dom = d) ∨ ∃ j < 16, (s.model j).st ≠ 0 ∧ s.reg Dict.mstepDraftSlot 0 j = m
       (¬named ∨ used → s.DomDone (.modelUnload t d) d q rest stBad 0 fun u => u.fb = s.fb ∧ u.tm = s.tm) ∧
       (named → ¬used → s.DomDone (.modelUnload t d) d q rest stDone (s.modelFrames m) fun u => u.model m = {} ∧ (∀ b ∈ u.tm.bulk, b.tag ≠ modelTag m) ∧ (∀ e ∈ u.fb.slots, ∀ k ∈ e.2, k / 32 ≠ m) ∧
         ∀ j, j ≠ m → u.model j = s.model j)))

/-- R145, R270, R274, R278, R279, R283, R287, R304, R308, R314, R315: the rows that the fabric delivers, in a step after which nothing else is waiting: a session without a delivered row keeps its
tokens; a delivered row commits its tokens, or leaves the step without them where it is retaken, late, dead or has lost a page. -/
def Obligations.DecodeRowsCommit : Prop :=
  ∀ (s : State) (t k : Nat) (v : Serving) (fab : List FabEv), s.live = true → k < 2 ^ 20 → s.still → s.sv.run = some v → Tbl.sorted s.ss.tbl → Tbl.sorted s.ss.cq →
    (let x := s.sess k
     (∀ rows : List RowOut, (∀ r ∈ v.rows, r.k ≠ k ∨ r.retake = true ∨ ∀ o ∈ rows, o.k ≠ k) → ∃ u, exec (.decodePhaseCommit t ⟨rows, fab⟩) s = .next u ∧
       (u.sess k).tokens = x.tokens ∧ (u.sess k).length = x.length) ∧
     ∀ (r : Row) (o : RowOut) (as bs : List Row) (run : Run), v.rows = as ++ r :: bs → r.k = k → (∀ y ∈ as ++ bs, y.k ≠ k) → o.k = k → x.run = some run → s.stalled run.q.dom = false → Tbl.sorted s.sv.budgets →
       (let i := Instr.decodePhaseCommit t ⟨[o], fab⟩
        let p := s.gpos k
        let same (y : Sess) : Prop := y.tokens = x.tokens ∧ y.length = x.length ∧ y.charged = x.charged
        let ends (st : SSt) (status : Nat) (f : Sess → Prop) : Prop := s.RowEnds i k run st status f
        let resolves (e : Nat) (u : State) : Prop := (u.sess k).charged = x.charged + e ∧ (∀ w, u.sv.run = some w → ∀ y ∈ w.rows, y.k ≠ k) ∧
          u.budget x.dom = { s.budget x.dom with bal := (s.budget x.dom).bal + (r.r - e : Nat), reserved := (s.budget x.dom).reserved - r.r, charged := (s.budget x.dom).charged + e }
        (r.retake = true ∨ x.st ≠ .decode → ∃ u, exec i s = .next u ∧ resolves 0 u ∧ same (u.sess k)) ∧
        (r.retake = false → x.st = .decode → x.lost = true ∨ (∃ l ∈ o.lost, ∃ g, x.page? l = some g ∧ g.poisoned = false) → ends .halted stPageLost same) ∧
        (r.retake = false → x.st = .decode → x.lost = false → o.lost = [] →
          (o.late = true → p.g ≠ none → ∃ u, exec i s = .next u ∧ resolves 0 u ∧ same (u.sess k)) ∧
          (o.late = false ∨ p.g = none → p.alive = false → ends .halted stDeadend same) ∧
          (o.late = false ∨ p.g = none → p.alive = true → ∀ j vs, s.vocabOf (s.model x.model) = some (j, vs) →
            (let pe := propose { prof := (s.profile x.dom x.sampling).getD greedy, handle := s.handle k, next := s.sc.draws } p x.tokens x.length (o.draft.take r.keff)
             let vd := (verify pe.2 p x.tokens x.length pe.1 o.target).1
             let sc := Scan.run vs.v (s.stopSet x.dom x.stop) vd.emitted (Nat.min x.remaining (1048576 - x.length)) (run.q.d.dataLen - x.ctx.delivered - x.ctx.held.length) { tail := x.ctx.tail, pos := p }
             let app := (sc.trim.map fun b => (tokenise vs.v (decide (s.sreg Dict.mtextSpecialMatch 0 x.model = 1)) b).map (·.1)).getD []
             let commits (y : Sess) : Prop := y.tokens = x.tokens ++ sc.kept ++ app ∧ y.length = x.length + sc.kept.length + app.length ∧ y.remaining = x.remaining - vd.emitted.length ∧ y.progress = x.progress + sc.kept.length
             (∃ u, exec i s = .next u ∧ resolves vd.emitted.length u ∧ commits (u.sess k)) ∧
             (∀ st, sc.status = some st → st ≠ stDeadend → st ≠ stPageLost → ends x.rest st commits) ∧
             (sc.status = none → vd.dead = true → ends .halted stDeadend commits))))))

/-- R202, R274, R278, R283, R308: in a step after which nothing else is waiting, a mask that completes is the row's, and a position with no way on ends the row; a prefill chunk starts where it may and
before the cut-off, and not otherwise. -/
def Obligations.MasksCompleteAndChunksStart : Prop :=
  ∀ (s : State) (t k : Nat) (v : Serving), s.live = true → k < 2 ^ 20 → s.still → s.sv.run = some v → Tbl.sorted s.ss.tbl → Tbl.sorted s.ss.cq →
    (let z := s.at t
     let x := s.sess k
     (∀ (r : Row) (pos : Nat), v.rows.find? (fun y => y.k == k) = some r →
       (let i := Instr.maskComplete t k pos
        let p := s.gpos k
        let waits := p.g ≠ none ∧ pos ≠ 0 ∧ pos ≤ r.keff + 1 ∧ pos ∉ x.masks
        (¬waits → exec i s = .next z) ∧
        (waits → ¬(pos = 1 ∧ p.alive = false) → ∃ u, exec i s = .next u ∧ u.sess k = { x with masks := x.masks ++ [pos] } ∧ (Tbl.sorted s.regs → s.countedOn Dict.grammarMaskCount (chOf k) 1 u) ∧
          z.sameBut (.values :: .sessions :: noted) u) ∧
        (waits → pos = 1 → p.alive = false → ∀ run, x.run = some run → s.stalled run.q.dom = false →
          s.RowEnds i k run .halted stDeadend fun y => y.tokens = x.tokens ∧ y.length = x.length ∧ y.charged = x.charged))) ∧
     ((∀ r ∈ v.rows, r.k ≠ k) → ∀ pos, exec (.maskComplete t k pos) s = .next z) ∧
     (∀ kind, s.chunkKind k = some kind →
       (let i := Instr.prefillChunkStart t k
        let plan := z.chunkPlan k kind
        (z.chunkMay v k = false → exec i s = .next z) ∧
        (z.chunkMay v k = true → z.beforeCutoff v (chOf k) = false → ∃ u, exec i s = .next u ∧ (u.sess k).core = x.core ∧ ∀ w, u.sv.run = some w → w = v) ∧
        (z.beforeCutoff v (chOf k) = true → (z.chunkQueue v).find? (fun j => decide (chOf j = chOf k)) = some k → kind = 1 ∨ s.mustPromote k plan.2.2 = [] ∧ (∀ e ∈ x.pages, e.2.moving = false) →
          (z.stageAll k plan.2.2).isSome = true → ∃ u, exec i s = .next u ∧ u.sv = { s.sv with run := some { v with chunks := v.chunks ++ [{ k := k, pos := plan.1, n := plan.2.1, kind := kind }] } } ∧
            (u.sess k).core = ({ x with lastStep := s.pk.current } : Sess).core))))

/-- R145, R202, R274, R279, R287: a prefill chunk of the step commits: it appends its tokens, recomputes, fills the draft's positions or redoes a trimmed tail; one that is marked bad commits nothing,
and one that has lost a page ends its command. -/
def Obligations.PrefillChunksCommit : Prop :=
  ∀ (s : State) (t k : Nat) (v : Serving) (ch : Chunk) (kv : List (List (List Nat))) (reads : Reads), s.live = true → k < 2 ^ 20 → s.still → s.sv.run = some v → Tbl.sorted s.ss.tbl →
    Tbl.sorted s.ss.cq → v.chunks.find? (fun c => c.k == k) = some ch →
    (let x := s.sess k
     let i := Instr.prefillChunkCommit t k kv reads
     let same (y : Sess) : Prop := y.tokens = x.tokens ∧ y.length = x.length ∧ y.charged = x.charged
     let done (u : State) : Prop := ∀ w, u.sv.run = some w → ∀ c ∈ w.chunks, c.k ≠ k
     (ch.bad = true → ∃ u, exec i s = .next u ∧ done u ∧ same (u.sess k) ∧ (u.sess k).kvLen = x.kvLen ∧ (u.sess k).draftLen = x.draftLen ∧ (u.sess k).recompute = x.recompute) ∧
     (∀ r, x.lost = true ∨ (∃ l ∈ reads.lost, ∃ g, x.page? l = some g ∧ g.poisoned = false) → x.serving = true → x.run = some r → s.stalled r.q.dom = false → s.RowEnds i k r .halted stPageLost same) ∧
     (ch.bad = false → x.lost = false → reads.lost = [] →
       (∀ r, ch.kind = 0 → x.run = some r →
         (let ts := r.toks.take ch.n
          let lands (y : Sess) : Prop := y.tokens = x.tokens ++ ts.map (·.1) ∧ y.length = x.length + ts.length ∧ y.kvLen = x.length + ts.length ∧ y.progress = r.appended + ts.length
          (∃ u, exec i s = .next u ∧ done u ∧ lands (u.sess k)) ∧
          (r.toks.drop ch.n = [] → s.stalled r.q.dom = false → s.RowEnds i k r x.rest stDone lands))) ∧
       (ch.kind = 1 → x.st = .reviving → ∃ u, exec i s = .next u ∧ done u ∧ (u.sess k).recompute = (if x.recompTo ≤ ch.pos + ch.n then none else some (ch.pos + ch.n)) ∧ same (u.sess k)) ∧
       (ch.kind = 2 → ∃ u, exec i s = .next u ∧ done u ∧ (u.sess k).draftLen = ch.pos + ch.n ∧ same (u.sess k)) ∧
       (ch.kind = 3 → ∃ u, exec i s = .next u ∧ done u ∧ (u.sess k).kvLen = ch.pos + ch.n ∧ same (u.sess k))))

/-- R280, R293, R296, R305, R309, R310: what a definition or an image changes once its command is taken and its input is there; a new handle is in force at once, a replacement at the next
action point. -/
def Obligations.DefinitionsTakeTheirHandles : Prop :=
  ∀ (s : State) (t d : Nat) (q : QDesc) (rest : List QDesc) (rec : Option Bytes) (b : Bytes), s.live = true → d < 4096 → (s.at t).Brings d q rec b →
    (let h := q.d.count
     let key := d * 1024 + h
     let ok := 1 ≤ h ∧ h ≤ 1023 ∧ descBare q.d = true
     let names (f : Sess → Nat) : Prop := ∃ e ∈ s.ss.tbl, e.2.st ≠ .free ∧ e.2.dom = d ∧ f e.2 = h
     let held (u : State) : Prop := u.tx = s.tx
     ((s.at t).Starts d 0x45 q rest →
       (let ends := s.DomDone (.samplingDefine t d rec) d q rest
        (¬ok → ends stBad 0 held) ∧
        (ok → q.d.dataLen = 0 → names (·.sampling) → ends stBad 0 held) ∧
        (ok → q.d.dataLen = 0 → ¬names (·.sampling) → ends stDone 0 fun u => u.tx = { s.tx with profs := s.tx.profs.filter (·.1 != key), newP := s.tx.newP.filter (·.1 != key) }) ∧
        (ok → q.d.dataLen ≠ 0 → parseProfile b = none → ends stBad 0 held) ∧
        (∀ v, ok → q.d.dataLen ≠ 0 → parseProfile b = some v →
          ((∀ e ∈ s.tx.profs, e.1 ≠ key) → ends stDone 0 fun u => u.tx = { s.tx with profs := s.tx.profs ++ [(key, v)] }) ∧
          ((∃ e ∈ s.tx.profs, e.1 = key) → ends stDone 0 fun u => u.tx = { s.tx with newP := s.tx.newP.filter (·.1 != key) ++ [(key, v)] })))) ∧
     ((s.at t).Starts d 0x44 q rest →
       (let ends := s.DomDone (.stopsetDefine t d rec) d q rest
        (¬ok → ends stBad 0 held) ∧
        (ok → q.d.dataLen = 0 → names (·.stop) → ends stBad 0 held) ∧
        (ok → q.d.dataLen = 0 → ¬names (·.stop) → ends stDone 0 fun u => u.tx = { s.tx with stops := s.tx.stops.filter (·.1 != key), newS := s.tx.newS.filter (·.1 != key) }) ∧
        (ok → q.d.dataLen ≠ 0 → parseStopSet b = none → ends stBad 0 held) ∧
        (∀ v, ok → q.d.dataLen ≠ 0 → parseStopSet b = some v →
          ((∀ e ∈ s.tx.stops, e.1 ≠ key) → ends stDone 0 fun u => u.tx = { s.tx with stops := s.tx.stops ++ [(key, v)] }) ∧
          ((∃ e ∈ s.tx.stops, e.1 = key) → ends stDone 0 fun u => u.tx = { s.tx with newS := s.tx.newS.filter (·.1 != key) ++ [(key, v)] })))) ∧
     ((s.at t).Starts d 0x43 q rest →
       (let ends := s.DomDone (.grammarLoad t d rec) d q rest
        let g := parseGrammar b
        let cs := s.domChans d
        let n := if cs = [] then 0 else b.length
        (s.holdsKeys d = false → ends stDenied 0 held) ∧
        (s.holdsKeys d = true → ¬ok → ends stBad 0 held) ∧
        (s.holdsKeys d = true → ok → q.d.dataLen = 0 → names (·.grammar) → ends stBad 0 held) ∧
        (s.holdsKeys d = true → ok → q.d.dataLen = 0 → ¬names (·.grammar) →
          ends stDone 0 fun u => u.tx = { s.tx with grammars := s.tx.grammars.filter (·.1 != key), newG := s.tx.newG.filter (·.1 != key) }) ∧
        (s.holdsKeys d = true → ok → q.d.dataLen ≠ 0 → (∀ e ∈ s.tx.vocabs, ¬(e.2.dom = d ∧ e.2.v.digest = g.vocab)) → ends stBad 0 held) ∧
        (∀ v, s.holdsKeys d = true → ok → q.d.dataLen ≠ 0 → (s.tx.vocabs.find? fun e => decide (e.2.dom = d) && decide (e.2.v.digest = g.vocab)) = some v →
          (grammarOk b v.2.v.entries.length = false → ends stBad 0 held) ∧
          (grammarOk b v.2.v.entries.length = true → (∀ e ∈ s.tx.grammars, e.1 ≠ key) → (s.reserveFits cs b.length = false → ends stNoFrames 0 held) ∧
            (s.reserveFits cs b.length = true → ends stDone n fun u => u.tx = { s.tx with grammars := s.tx.grammars ++ [(key, g, cs)] })) ∧
          (grammarOk b v.2.v.entries.length = true → (∃ e ∈ s.tx.grammars, e.1 = key) →
            ((∃ e ∈ s.ss.tbl, e.2.st = .decode ∧ e.2.dom = d ∧ e.2.grammar = h) → ends stBad 0 held) ∧
            ((∀ e ∈ s.ss.tbl, ¬(e.2.st = .decode ∧ e.2.dom = d ∧ e.2.grammar = h)) → s.reserveFits cs b.length = true →
              ends stDone n fun u => u.tx = { s.tx with newG := s.tx.newG.filter (·.1 != key) ++ [(key, g, cs)] }))))) ∧
     ((s.at t).Starts d 0x42 q rest →
       (let ends := s.DomDone (.vocabLoad t d rec) d q rest
        let slot := q.d.count
        let v := parseVocab b
        let cs := s.domChans d
        let n := if cs = [] then 0 else b.length
        let mine (e : Nat × VSlot) : Prop := (∃ m ∈ s.fb.models, m.2.st ≠ 0 ∧ m.2.dom = d ∧ m.2.vocab = e.2.v.digest) ∨ (∃ g ∈ s.tx.grammars ++ s.tx.newG, g.1 / 1024 = d ∧ g.2.1.vocab = e.2.v.digest)
        (s.holdsKeys d = false → ends stDenied 0 held) ∧
        (s.holdsKeys d = true → 16 ≤ slot ∨ descBare q.d = false → ends stBad 0 held) ∧
        (s.holdsKeys d = true → slot < 16 → descBare q.d = true →
          (q.d.dataLen = 0 →
            ((∀ e ∈ s.tx.vocabs, e.1 ≠ slot) → ends stDone 0 held) ∧
            (∀ e, (s.tx.vocabs.find? fun e => e.1 == slot) = some e →
              (e.2.dom ≠ d ∨ mine e → ends stBad 0 held) ∧
              (e.2.dom = d → ¬mine e → ends stDone 0 fun u => u.tx = { s.tx with vocabs := s.tx.vocabs.filter (·.1 != slot), cache := s.tx.cache.map fun c => (c.1, c.2.filter (·.slot != slot)) }))) ∧
          (q.d.dataLen ≠ 0 →
            (∀ e, (s.tx.vocabs.find? fun e => e.1 == slot) = some e → (e.2.dom = d ∧ e.2.v.digest = v.digest → ends stDone 0 held) ∧ (¬(e.2.dom = d ∧ e.2.v.digest = v.digest) → ends stBad 0 held)) ∧
            ((∀ e ∈ s.tx.vocabs, e.1 ≠ slot) →
              (vocabOk b = false → ends stBad 0 held) ∧
              (vocabOk b = true → s.reserveFits cs b.length = false → ends stNoFrames 0 held) ∧
              (vocabOk b = true → s.reserveFits cs b.length = true → ends stDone n fun u => u.tx = { s.tx with vocabs := s.tx.vocabs ++ [(slot, { dom := d, v := v, chans := cs })] })))))))

/-- R333, R336-R340, R343: a SELECT is checked and begins, its rows are written as they complete and the last ends it, and runs on other devices are asked for and answered. -/
def Obligations.SelectionsRunRowByRow : Prop :=
  ∀ (s : State) (t d : Nat), s.live = true → d < 4096 →
    (∀ (q : QDesc) (rest : List QDesc) (rec : Option Bytes) (b : Bytes), (s.at t).Starts d 0x50 q rest → (s.at t).Brings d q rec b →
      (let i := Instr.select t d rec
       let cs := s.selChans d
       let es := (List.range (le b 20 2)).map (runEntry b)
       let sound := descBare q.d = true ∧ reqOk b q.d.count = true
       let apart := s.reg Dict.dsecClass 0 d = 2 ∧ ∃ e ∈ es, e.1 ≠ s.device ∧ s.usableSets e.1 (some d) = []
       let ends (st : Nat) : Prop := s.DomDone i d q rest st 0 fun u => u.se = s.se
       (¬sound → ends stBad) ∧ (sound → apart → ends stDenied) ∧ (sound → ¬apart → cs = [] → ends stBad) ∧
       (sound → ¬apart → cs ≠ [] → stageFrames b = 0 → ∃ r, r.q = { q with input := b } ∧ r.stage = 1 ∧ r.id = (s.dring d).nextId ∧ s.DomRuns i d rest r fun u =>
         ((∀ e ∈ es, e.1 = s.device) → u.se = { s.se with selects := s.se.selects ++ [(d, r.id)], lanes := u.se.lanes }) ∧
         ∀ n < le b 20 2, (runEntry b n).1 ≠ s.device → ∃ y ∈ u.se.subs, y.d = d ∧ y.id = r.id ∧ y.run = n ∧ y.dev = (runEntry b n).1 ∧ y.res = none))) ∧
    (∀ id row ns data, (∀ l ∈ s.se.lanes, ¬(l.d = d ∧ l.id = id ∧ l.row = row)) → exec (.selectRowComplete t d id row ns data) s = .next (s.at t)) ∧
    (∀ (r : DRun) (row ns : Nat) (lane : SelLane), s.Runs d r → Tbl.sorted s.sl.flows → Tbl.sorted s.regs → (s.se.lanes.find? fun l => l.d == d && l.id == r.id && l.row == row) = some lane →
      (let b := r.q.input
       let flow := le b 48 2
       (r.b = 0 → s.RunEnds (.selectRowComplete t d r.id row ns none) d r stAbort r.a fun u => ∀ l ∈ u.se.lanes, ¬(l.d = d ∧ l.id = r.id)) ∧
       (∀ data o, s.rowResult d r.id b data = some (o, false) → s.flowReady flow = true →
         (let i := Instr.selectRowComplete t d r.id row ns (some data)
          let bytes := o.bytes row
          let done : DRun := { r with a := r.a + 1, b := r.b + bytes.length, rows := r.rows ++ [[row, b2n o.fewer]] }
          let stops (st : Nat) : Prop := ∃ u, exec i s = .next u ∧ u.drun d r.id = some { done with stage := st, q := { done.q with inSt := 4 } } ∧ ∀ y ∈ u.se.subs, ¬(y.d = d ∧ y.id = r.id)
          (r.a + 1 < r.q.d.count → s.isLate r.q.d.deadline = false → s.pk.st ≠ .lost → s.ck.drain = false → ∃ u, exec i s = .next u ∧ u.drun d r.id = some done ∧
            s.wrote flow (le b 28 4) (le b 40 8 + row * (64 + 8 * selWidth b)) bytes u ∧ s.countedOn Dict.selRowCount lane.c 1 u ∧ lane ∉ u.se.lanes) ∧
          (r.a + 1 = r.q.d.count → (∀ e ∈ done.rows, e.getD 1 0 ≠ 1) → stops stDone) ∧
          (r.a + 1 = r.q.d.count → (∃ e ∈ done.rows, e.getD 1 0 = 1) → stops stFewer) ∧
          (r.a + 1 ≠ r.q.d.count → s.isLate r.q.d.deadline = true → stops stDeadline) ∧
          (r.a + 1 ≠ r.q.d.count → s.isLate r.q.d.deadline = false → s.pk.st = .lost → stops stPickLost) ∧
          (r.a + 1 ≠ r.q.d.count → s.isLate r.q.d.deadline = false → s.pk.st ≠ .lost → s.ck.drain = true → stops stHold))))) ∧
    (∀ (e : DEnv) (q : SubQ), s.Arrives e true → Tbl.sorted s.regs →
      (let r : SelReq := { op := q.op, asc := bit q.flags 0, ka140 := bit q.flags 1, ties := bit q.flags 2, noNan := bit q.flags 3, noNegInf := bit q.flags 4, softmax := bit q.flags 5, ty := q.ty, k := q.k, param := q.param }
       let answers (data : Option Bytes) (p : PartRes → Prop) : Prop := ∃ u x, exec (.subrequest t e q data) s = .next u ∧ p x ∧ u.sends fun m => m.is 0x0C e.src (some e.dom) e.mid 0 ∧ m.body = .part x
       (∀ b, s.selChans e.dom ≠ [] → answers (some b) fun x => x = partialOf r (runElems q.ty b)) ∧ answers none (fun x => x.ok = false) ∧ (s.selChans e.dom = [] → ∀ b, answers (some b) fun x => x.ok = false))) ∧
    (∀ (e : DEnv) (p : PartRes), s.Arrives e true →
      (let hit (u : SubReq) : Bool := u.dev == e.src && u.slot == e.mid && u.res.isNone
       (s.se.subs.find? hit = none → ∃ u, exec (.subresult t e p) s = .next u ∧ (s.at t).sameBut (.warp :: noted) u) ∧
       (∀ y r, s.se.subs.find? hit = some y → s.drun y.d y.id = some r → r.stage = 1 → r.q.inSt ≠ 4 → p.ok = true → s.isLate r.q.d.deadline = false → s.pk.st ≠ .lost → s.ck.drain = false → Tbl.sorted s.fb.track → ∃ u, exec (.subresult t e p) s = .next u ∧
         (∃ z ∈ u.se.subs, z.d = y.d ∧ z.id = y.id ∧ z.run = y.run ∧ z.dev = y.dev ∧ z.res = some p) ∧ u.ss = s.ss)))

/-- R349, R352-R356, R358-R361, R363: collections are created and deleted, records inserted, marked as died and reclaimed, and queries run in rounds of list passes. -/
def Obligations.CollectionsHoldAndAnswer : Prop :=
  ∀ (s : State) (t d : Nat), s.live = true → d < 4096 → Tbl.sorted s.regs → Tbl.sorted s.se.colls → Tbl.sorted s.tm.frames →
    (let cur := s.pk.current
     let held (u : State) : Prop := u.se = s.se
     (∀ (q : QDesc) (rest : List QDesc) (rec : Option Bytes) (b : Bytes), (s.at t).Starts d 0x48 q rest → (s.at t).Brings d q rec b →
       (let i := q.d.count
        let c := s.coll i
        let ends := s.DomDone (.collectionCreate t d rec) d q rest
        let good := s.holdsKeys d = true ∧ i < 4096 ∧ descBare q.d = true
        (s.holdsKeys d = false → ends stDenied 0 held) ∧
        (s.holdsKeys d = true → 4096 ≤ i ∨ descBare q.d = false → ends stBad 0 held) ∧
        (good → q.d.dataLen = 0 → c.st = 0 ∨ c.dom ≠ d → ends stDenied 0 held) ∧
        (good → q.d.dataLen = 0 → c.st ≠ 0 → c.dom = d → ends stDone 0 fun u => u.coll i = {} ∧ (∀ j, j ≠ i → u.coll j = s.coll j) ∧
          u.tm.bulk = s.tm.bulk.filter fun x => !(decide (collTag i ≤ x.tag) && decide (x.tag < collTag (i + 1)))) ∧
        (good → q.d.dataLen ≠ 0 → c.st ≠ 0 → ends stBad 0 held) ∧
        (good → q.d.dataLen ≠ 0 → c.st = 0 → s.sreg Dict.dsearchMaxCollections 0 d ≤ s.collsOf d → ends stDenied 0 held) ∧
        (good → q.d.dataLen ≠ 0 → c.st = 0 → s.collsOf d < s.sreg Dict.dsearchMaxCollections 0 d →
          (parseColl b = none → ends stBad 0 held) ∧
          (∀ x, parseColl b = some x →
            (let cs := if s.reg Dict.dsecClass 0 d = 2 ∨ x.mask = 0 then s.domChans d else (s.domChans d).filter fun n => bit x.mask n
             let home := cs.headD 0
             let n := baseFrames x.dim x.lists x.capacity
             (cs = [] → ends stBad 0 held) ∧
             (cs ≠ [] → s.reserveUsed home + 8 * x.dim ≤ s.reservePool home → s.owned d 0 + n ≤ s.tierCap d 0 → n ≤ s.freeFrames home 0 →
               ends stDone 0 fun u => u.coll i = { st := 1, dom := d, chans := cs, data := x } ∧ (∀ j, j ≠ i → u.coll j = s.coll j) ∧ u.tm.claims = s.tm.claims ++ [(home, 8 * x.dim)])))))) ∧
     (∀ (q : QDesc) (rest : List QDesc) (rec : Option Bytes) (b : Bytes), (s.at t).Brings d q rec b →
       (let r := (s.at t).runOf d q
        let i := le b 2 2
        let c := s.coll i
        let home := (s.collHome c).getD 0
        ((s.at t).Starts d 0x49 q rest →
          (let op := Instr.vecInsert t d rec
           (∀ st, s.vecCheck d r b = some st → s.DomDone op d q rest st 0 held) ∧
           (s.vecCheck d r b = none → ∃ u, exec op s = .next u ∧ (u.dring d).waiting = rest ∧ (∀ j, j ≠ i → u.coll j = s.coll j) ∧
             ∀ x ∈ c.data.recs, x ∈ (u.coll i).data.recs ∨ { x with died := cur % 2 ^ 48 } ∈ (u.coll i).data.recs) ∧
           (s.vecCheck d r b = none → q.d.count = 1 →
             (let id := le b 64 4
              let l := le b 68 4
              let x := elems (le b 4 1) b 80 c.data.dim
              let refused := (c.data.lists ≤ l ∧ l ≠ 0xFFFFFFFF) ∨ id = 0xFFFFFFFF ∨ vecOk c.data.dist x = false ∨ c.data.capacity ≤ c.live
              let dest := if l = 0xFFFFFFFF then (rankLists c.data (prepare c.data.dist x)).headD 0 else l
              let new : VRec := { id := id, list := dest, tags := le b 72 8, born := cur % 2 ^ 48, died := 0, norm := (storeVec c.data x).1, codes := (storeVec c.data x).2 }
              let grown : Coll := { c with data := { c.data with recs := killRec id cur c.data.recs ++ [new] } }
              (refused → s.DomDone op d q rest stPartial 0 fun u => u.coll i = c ∧ s.countedOn Dict.searchInsertRefused home 1 u) ∧
              (¬refused → ((s.setColl i grown).growList i dest).isSome = true → s.DomDone op d q rest stDone 1 fun u => u.coll i = grown ∧ s.countedOn Dict.searchInsertCount home 1 u))))) ∧
        ((s.at t).Starts d 0x4A q rest →
          (∀ st, s.vecCheck d r b = some st → s.DomDone (.vecDelete t d rec) d q rest st 0 held) ∧
          (s.vecCheck d r b = none → ∃ n ≤ q.d.count, s.DomDone (.vecDelete t d rec) d q rest stDone n fun u => (∀ j, j ≠ i → u.coll j = s.coll j) ∧ s.countedOn Dict.searchDeleteCount home n u ∧
            (u.coll i).data.recs = c.data.recs.map fun x => if x.died = 0 ∧ (∃ j < q.d.count, le b (64 + 4 * j) 4 = x.id) then { x with died := cur % 2 ^ 48 } else x)) ∧
        ((s.at t).Starts d 0x4B q rest →
          (let n := q.d.count
           let stride := itemStride 0x4B (le b 4 1) c.data.dim
           let heads := (∀ j < n, headOk b (64 + j * stride) c.data.lists = true) ∧ n * (64 + 8 * s.searchWidth b n) ≤ le b 24 8
           let qs := (List.range n).map fun j => s.queryOf d r.id i j home b
           (∀ st, s.vecCheck d r b = some st → s.DomDone (.vecSearch t d rec) d q rest st 0 held) ∧
           (s.vecCheck d r b = none → ¬heads → s.DomDone (.vecSearch t d rec) d q rest stBad 0 held) ∧
           (s.vecCheck d r b = none → heads → (∀ x ∈ qs, vecOk c.data.dist x.q = true) →
             s.DomRuns (.vecSearch t d rec) d rest { r with q := { q with input := b } } fun u => u.se = { s.se with queries := s.se.queries ++ qs } ∧ s.countedOn Dict.searchQueryCount home n u))))) ∧
     (∀ id < 4096, ∀ list,
       (let c := s.coll id
        let ch := c.chanOf list
        let rs := inList c.data list
        let n := rs.countP (s.reclaimable id)
        let due := c.st = 1 ∧ 0 < n ∧ s.sreg Dict.searchCompactQuarter 0 ch * rs.length ≤ 4 * n
        let need := listFrames c.data.dim (rs.length - n)
        let fits := need ≤ s.freeFrames ch 0 ∧ s.owned c.dom 0 + need ≤ s.tierCap c.dom 0
        (due → 0 < need → ¬fits → exec (.listCompaction t id list) s = .next (s.at t)) ∧
        (due → fits ∨ need = 0 → ∃ u, exec (.listCompaction t id list) s = .next u ∧ u.coll id = { c with data := { c.data with recs := c.data.recs.filter fun r => !(r.list == list && s.reclaimable id r) } } ∧
          (∀ j, j ≠ id → u.coll j = s.coll j) ∧ s.countedOn Dict.searchCompactionCount ch 1 u ∧ (s.at t).sameBut (.search :: .frames :: .values :: noted) u) ∧
        (¬due → exec (.listCompaction t id list) s = .next (s.at t)))) ∧
     (∀ (id : Nat) (qs : List Nat) (q : Query), (s.se.queries.filter fun x => x.d == d && x.id == id && qs.contains x.idx) = [q] →
       (let c := s.coll q.coll
        let on (x : Query) : Prop := x.best.length < x.k ∧ x.probed < x.limit ∧ x.nextRound ≠ []
        let goes (op : Instr) (x : Query) : Prop := ∃ u, exec op s = .next u ∧ { x with wait := x.nextRound, rounds := x.rounds + 1 } ∈ u.se.queries ∧ (∀ y ∈ s.se.queries, ¬(y.d = q.d ∧ y.id = q.id ∧ y.idx = q.idx) → y ∈ u.se.queries)
        let ranked : Query := { q with rank := some (rankLists c.data (prepare c.data.dist q.q)) }
        (q.rank = none → on ranked → goes (.listPassComplete t d id qs none []) ranked) ∧
        (q.rank = none → c.st = 1 → ∀ bad, bad ≠ [] → ∃ u, exec (.listPassComplete t d id qs none bad) s = .next u ∧ u.coll q.coll = { c with st := 2 } ∧ ∀ y ∈ u.se.queries, y.coll ≠ q.coll) ∧
        (∀ l, q.wait.contains l = true →
          (let vis := (inList c.data l).filter fun r => s.visible r q.start
           let hits := vis.filter fun r => tagsPass q r.tags
           let found := hits.map fun r => (r.id, score c.data (prepare c.data.dist q.q) r.norm r.codes)
           let scanned : Query := { q with best := (sortBy (resultBefore c.data.dist) (q.best ++ found)).take q.k, matched := q.matched + hits.length, scanned := q.scanned + vis.length, wait := q.wait.filter (· != l), probed := q.probed + 1 }
           (scanned.wait ≠ [] → ∃ u, exec (.listPassComplete t d id qs (some l) []) s = .next u ∧ scanned ∈ u.se.queries ∧ u.se.colls = s.se.colls) ∧
           (scanned.wait = [] → on scanned → goes (.listPassComplete t d id qs (some l) []) scanned) ∧
           (scanned.wait = [] → ¬on scanned → ∀ r, s.drun d id = some r → s.flowReady (le r.q.input 6 2) = true → r.a + 1 < r.q.d.count → s.isLate r.q.d.deadline = false → s.pk.st ≠ .lost → s.ck.drain = false →
             Tbl.sorted s.ss.rings → ∃ u r', exec (.listPassComplete t d id qs (some l) []) s = .next u ∧ u.drun d id = some r' ∧ r'.a = r.a + 1 ∧
               r'.rows = r.rows ++ [[q.idx, if scanned.best.length < q.k then stFewer else stDone]] ∧ (∀ y ∈ u.se.queries, ¬(y.d = q.d ∧ y.id = q.id ∧ y.idx = q.idx))))))))

/-- R61, R156, R343, R366, R449: a control command that is late, that admits work in PICK_LOST, or that a checkpoint drain holds ends with the status the spec gives it, and has none of its effect. -/
def Obligations.ControlCommandsAreTurnedAway : Prop :=
  ∀ (s : State) (t d : Nat) (rec : Option Bytes) (img : Option Bytes) (ok : Bool) (commits : List CkCommit) (i : Instr) (op : Nat) (q : QDesc) (rest : List QDesc), s.live = true → d < 4096 →
    (i, op) ∈ [(Instr.modelUnload t d, 0x41), (.vocabLoad t d img, 0x42), (.grammarLoad t d img, 0x43), (.stopsetDefine t d rec, 0x44), (.samplingDefine t d rec, 0x45), (.collectionCreate t d rec, 0x48),
      (.vecInsert t d rec, 0x49), (.vecDelete t d rec, 0x4A), (.vecSearch t d rec, 0x4B), (.select t d rec, 0x50), (.checkpointBegin t d ok, 0x58), (.restoreBegin t d rec commits, 0x59)] →
    s.Taken d op q rest → q.d.dataLen = 0 ∨ s.ref d q.d.dataRef q.d.dataLen false ≠ .wait →
    (let idle (u : State) : Prop := u.tm = s.tm ∧ u.fb = s.fb ∧ u.tx = s.tx ∧ u.se = s.se ∧ u.ck = s.ck ∧ u.sl.wins = s.sl.wins ∧ u.ss.tbl = s.ss.tbl
     let late := s.isLate q.d.deadline = true
     let lost := s.pk.st = .lost ∧ admits op = true
     (late → s.DomDone i d q rest stDeadline 0 idle) ∧ (¬late → lost → s.DomDone i d q rest stPickLost 0 idle) ∧
     (¬late → ¬lost → s.ck.drain = true → drainHolds op = true → s.DomDone i d q rest stHold 0 idle))

/-- R372, R373, R375-R377: what a port does with a PFC frame, the end of a pause, its own buffer's occupancy and the watchdog, with a PTP message, and with messages for its addresses. -/
def Obligations.EthernetPortsPauseAndAnswer : Prop :=
  ∀ (s : State) (t p : Nat), s.live = true → p < 2 → Tbl.sorted s.regs → Tbl.sorted s.et.ports → Tbl.sorted (s.portSt p).pausedAt → Tbl.sorted (s.portSt p).pausedTo →
    (let now := Nat.max s.now t
     let x := s.portSt p
     let cleared (i : Nat) (u : State) : Prop := Tbl.get 0 (u.portSt p).pausedAt i = 0 ∧ Tbl.get 0 (u.portSt p).pausedTo i = 0 ∧ (u.portSt p).dropping.contains i = false
     (∀ enable quanta, s.isOn (.port p) = true → quanta.length = 8 → ∃ u, exec (.pfcFrameReceive t p enable quanta) s = .next u ∧
        (s.at t).sameBut [.sent, .values, .slaisk, .ethernet, .picks, .welrid, .monitors] u ∧
        ∀ i < 8,
          (bit enable i = true → quanta.getD i 0 ≠ 0 → Tbl.get 0 (u.portSt p).pausedTo i = now + (quanta.getD i 0 * s.quantumPs p + 999) / 1000 ∧
            Tbl.get 0 (u.portSt p).pausedAt i = (if Tbl.get 0 x.pausedAt i = 0 then now + 1 else Tbl.get 0 x.pausedAt i) ∧ (u.portSt p).dropping.contains i = x.dropping.contains i) ∧
          (bit enable i = true → quanta.getD i 0 = 0 → Tbl.get 0 x.pausedAt i ≠ 0 → cleared i u) ∧
          (bit enable i = false → Tbl.get 0 (u.portSt p).pausedAt i = Tbl.get 0 x.pausedAt i ∧ Tbl.get 0 (u.portSt p).pausedTo i = Tbl.get 0 x.pausedTo i ∧
            (u.portSt p).dropping.contains i = x.dropping.contains i)) ∧
     (∀ i < 8, (Tbl.get 0 x.pausedAt i ≠ 0 → Tbl.get 0 x.pausedTo i ≤ now → ∃ u, exec (.pfcPauseExpire t p i) s = .next u ∧ cleared i u) ∧
        (now < Tbl.get 0 x.pausedTo i → exec (.pfcPauseExpire t p i) s = .next (s.at t))) ∧
     (∀ i < 8, ∀ occ, s.isOn (.port p) = true → bit (s.reg Dict.ethPfcEnable) i = true →
        (let sends (quanta : Nat) (y : Port) : Prop := ∃ u, exec (.pfcRefreshTimer t p i occ) s = .next u ∧ u.portSt p = y ∧ Output.pfc p i quanta ∈ u.out ∧ s.counted Dict.ethPfcTxCount u ∧
           (s.at t).sameBut (.values :: .ethernet :: noted) u
         (x.xoff.contains i = false → s.reg Dict.ethPfcXoff * 1024 < occ → sends 0xFFFF { x with xoff := x.xoff ++ [i] }) ∧
         (x.xoff.contains i = true → occ < s.reg Dict.ethPfcXon * 1024 → sends 0 { x with xoff := x.xoff.filter (· != i) }) ∧
         (x.xoff.contains i = true → s.reg Dict.ethPfcXon * 1024 < occ → sends 0xFFFF x) ∧
         (x.xoff.contains i = false → occ ≤ s.reg Dict.ethPfcXoff * 1024 → exec (.pfcRefreshTimer t p i occ) s = .next (s.at t)))) ∧
     (∀ i < 8, ∀ a, Tbl.get 0 x.pausedAt i = a + 1 →
        (let due := s.reg Dict.ethPfcWatchdog ≠ 0 ∧ x.dropping.contains i = false ∧ a + s.reg Dict.ethPfcWatchdog * 1000000 ≤ now
         (due → ∃ u, exec (.pfcWatchdogExpire t p i) s = .next u ∧ u.portSt p = { x with dropping := x.dropping ++ [i] } ∧ s.notified 0x0602 [p, i] u ∧
           ((∀ f ∈ s.flowsOn p, (s.flow f).cfg.prio ≠ i) → s.counted Dict.ethPfcWatchdogCount u)) ∧
         (¬due → exec (.pfcWatchdogExpire t p i) s = .next (s.at t)))) ∧
     (∀ m : PtpMsg, (let heard := s.isOn (.port p) = true ∧ s.vidOk p m.vid = true ∧ s.reg Dict.ptpEnable ≠ 0 ∧ m.domain = s.reg Dict.ptpDomain
        (heard → ∃ u, exec (.ptpEventMessage t p m) s = .next u ∧ u = { s.at t with et := u.et } ∧ u.et.ptpSt = (if m.lock then 2 else 1) ∧ u.et.ptpOff = m.offset ∧ u.et.ptpDelay = m.delay ∧
          u.et.ptpDelta + m.localNs = m.masterNs + m.delay ∧ u.et.ports = s.et.ports) ∧
        (¬heard → exec (.ptpEventMessage t p m) s = .next (s.at t)))) ∧
     (∀ (i : Instr) (m : IpMsg) (kind : Nat) (v6 : Bool), (i, kind, v6) ∈ [(Instr.arp t p m, 0, false), (.neighborDiscovery t p m, 1, true), (.icmpEcho t p m, 2, m.v6)] →
        s.isOn (.port p) = true → s.vidOk p m.vid = true →
        (m.odd = true → ∃ u, exec i s = .next u ∧ s.counted Dict.ethDropCount u ∧ (s.at t).sameBut [.values] u) ∧
        (m.odd = false → m.request = true → (s.addrs p v6).contains m.target = true → exec i s = .next ((s.at t).send (.ipReply p kind m.target m.sender m.data))) ∧
        (m.odd = false → m.request = false ∨ (s.addrs p v6).contains m.target = false → exec i s = .next (s.at t))))

/-- R146, R379-R381, R392-R394, R400, R402, R403, R433: what the next packet of a flow does at the KB480, by its opcode: descriptors that arrive in a SEND, bytes that a WRITE places, a doorbell, a FLUSH and
what answers an operation of the device; and the syndrome with which a packet of no effect is refused. -/
def Obligations.PacketsDoWhatTheirOpcodeSays : Prop :=
  ∀ (s : State) (t : Nat) (p : SPkt), s.InOrder p →
    (let x := s.flow p.flow
     let dom := p.domain
     let bad (i : Instr) (e : Nat) : Prop := s.RefusesPkt t i p e
     (∀ i ∈ [Instr.slaiskRead t p, .slaiskAtomicAdd t p, .slaiskCas t p], bad i 0x14) ∧
     (∀ i ∈ [Instr.slaiskAtomicResponse t p, .windowReply t p], bad i 0x15) ∧
     (let i := Instr.slaiskSend t p
      let m := if p.first = true then (p.target, p.aux, []) else x.msg.getD (0, 0, [])
      let b := m.2.2 ++ p.data
      let begins := (p.first = true ↔ x.msg = none)
      let fits := m.1 = p.target ∧ m.2.1 = p.aux ∧ p.offset = m.2.2.length ∧ 0 < p.aux ∧ p.aux ≤ 4096 ∧ p.aux % 64 = 0 ∧ b.length ≤ p.aux ∧ (p.last = true ↔ b.length = p.aux)
      let ds := parseDescs b
      let dev := bits p.target 25 20
      let k := bits p.target 19 0
      let y := s.sess k
      let q (d : Desc) : QDesc := { d := d, dom := dom }
      let whole (f : State → Prop) : Prop := p.last = true → s.Carries i p fun u => (u.flow p.flow).msg = none ∧ f u
      let fails (d : Desc) (st : Nat) (u : State) : Prop := ∃ w : State, w.ss.cq = s.ss.cq ∧ w.posts dom (Rec.completes (q d) st 0) u
      (¬begins → bad i 0x15) ∧
      (begins → tgtOk p.target = false → bad i 0x10) ∧
      (begins → tgtOk p.target = true →
        (tgtType p.target ≠ 1 → tgtType p.target ≠ 2 → bad i 0x14) ∧
        (tgtType p.target = 2 → bits p.target 11 0 ≠ dom → bad i 0x13) ∧
        (tgtType p.target = 1 ∨ tgtType p.target = 2 ∧ bits p.target 11 0 = dom → ¬fits → bad i 0x15) ∧
        (tgtType p.target = 1 ∨ tgtType p.target = 2 ∧ bits p.target 11 0 = dom → fits → p.last = false → s.Carries i p fun u => (u.flow p.flow).msg = some (p.target, p.aux, b) ∧ u.ss = s.ss) ∧
        (tgtType p.target = 2 → bits p.target 11 0 = dom → fits → dev = s.device → Tbl.sorted s.ss.rings → Tbl.sorted s.ss.cq →
          ((∀ d ∈ ds, descForm domOps d = true ∧ s.isLate d.deadline = false) → (s.dring dom).waiting.length + ds.length ≤ 256 → whole fun u => u.dring dom = { s.dring dom with waiting := (s.dring dom).waiting ++ ds.map q }) ∧
          (∀ d, ds = [d] → s.stalled dom = false →
            (descForm domOps d = false → whole fun u => u.ss.rings = s.ss.rings ∧ fails d stBad u) ∧
            (descForm domOps d = true → s.isLate d.deadline = true → whole fun u => u.ss.rings = s.ss.rings ∧ fails d stDeadline u) ∧
            (descForm domOps d = true → s.isLate d.deadline = false → 256 ≤ (s.dring dom).waiting.length → whole fun u => u.ss.rings = s.ss.rings ∧ fails d stBusy u))) ∧
        (tgtType p.target = 1 → fits → dev = s.device → Tbl.sorted s.ss.tbl → Tbl.sorted s.ss.cq →
          (let opens (d : Desc) : Prop := d.opcode = 0x01 ∨ d.opcode = 0x08
           let mine (d : Desc) : Prop := s.firstChecks dev k d = none ∧ s.chOn (chOf k) = true ∧ (opens d ∨ y.st = .free ∨ y.dom = dom) ∧ handleGen d.session = s.genOf k
           let sound (d : Desc) : Prop := mine d ∧ s.isLate d.deadline = false
           let at_ (f : Sess → Prop) : Prop := whole fun u => f (u.sess k)
           ((∀ d ∈ ds, sound d ∧ d.opcode ≠ 0x09 ∧ d.opcode ≠ 0x0A) → y.ring.length + ds.length ≤ 16 → at_ fun z => z = { y with ring := y.ring ++ ds.map q, tail := (y.tail + ds.length) % 65536 }) ∧
           (∀ d, ds = [d] → sound d →
             (d.opcode = 0x09 → at_ fun z => z = { y with imm := y.imm ++ [q d] }) ∧ (d.opcode = 0x0A → y.closePend = false → at_ fun z => z = { y with imm := y.imm ++ [q d], closePend := true })) ∧
           (∀ d, ds = [d] → s.stalled dom = false →
             (let ends (st : Nat) : Prop := whole fun u => u.sess k = y ∧ fails d st u
              (∀ e, s.firstChecks dev k d = some e → ends e.1) ∧ (s.firstChecks dev k d = none → s.chOn (chOf k) = false → ends stBad) ∧
              (s.firstChecks dev k d = none → s.chOn (chOf k) = true → ¬opens d → y.st ≠ .free → y.dom ≠ dom → ends stDenied) ∧
              (s.firstChecks dev k d = none → s.chOn (chOf k) = true → opens d ∨ y.st = .free ∨ y.dom = dom → handleGen d.session ≠ s.genOf k → ends stBad) ∧
              (mine d → s.isLate d.deadline = true → ends stDeadline) ∧
              (sound d → d.opcode = 0x0A → y.closePend = true → ends stBusy) ∧ (sound d → d.opcode ≠ 0x09 → d.opcode ≠ 0x0A → 16 ≤ y.ring.length → ends stBusy))))) ∧
        (fits → tgtType p.target = 1 → dev ≠ s.device → ds ≠ [] → (∀ d ∈ ds, s.firstChecks dev k d = none) → Tbl.sorted s.dx.peers →
          (s.dx.fwd.length < 4096 → whole fun u => (∃ f ∈ u.dx.fwd, f.home = dev ∧ f.id = (s.peer dev).txId ∧ f.dom = dom ∧ f.ds = ds) ∧ u.ss = s.ss) ∧
          (∀ d, ds = [d] → 4096 ≤ s.dx.fwd.length → s.stalled dom = false → Tbl.sorted s.ss.cq → whole fun u => u.dx.fwd = s.dx.fwd ∧ fails d stBusy u)))) ∧
     (∀ i ∈ [Instr.slaiskWrite t p, .doorbellWrite t p],
       (let w := p.target % 65536
        let e := s.winCheck p.target dom
        let n := le p.data 0 4
        let last := s.reg Dict.dsessCompletionConsumed 0 dom
        (tgtOk p.target = false → bad i 0x10) ∧ (tgtOk p.target = true → tgtType p.target ≠ 3 → tgtType p.target ≠ 4 → bad i 0x14) ∧
        (tgtOk p.target = true → tgtType p.target = 3 → (e ≠ 0 → bad i e) ∧ (e = 0 → (s.win w).size < p.offset + p.data.length → bad i 0x11) ∧
          (e = 0 → p.offset + p.data.length ≤ (s.win w).size → Tbl.sorted s.sl.wins → s.Carries i p fun u => u.win w = (s.win w).write p.offset p.data ∧ ∀ j ≠ w, u.win j = s.win j)) ∧
        (tgtOk p.target = true → tgtType p.target = 4 → (p.target % 4096 ≠ dom → bad i 0x13) ∧ (p.target % 4096 = dom → p.offset ≠ 0 ∨ p.data.length ≠ 8 → bad i 0x11) ∧
          (p.target % 4096 = dom → p.offset = 0 → p.data.length = 8 → Tbl.sorted s.regs → Tbl.sorted s.ss.cq →
            (((s.cq dom).written + 2 ^ 32 - last) % 2 ^ 32 < (n + 2 ^ 32 - last) % 2 ^ 32 → s.Carries i p fun u => s.counted Dict.slaiskBadDoorbellCount u ∧ u.reg Dict.dsessCompletionConsumed 0 dom = last ∧ u.ss = s.ss) ∧
            ((n + 2 ^ 32 - last) % 2 ^ 32 ≤ ((s.cq dom).written + 2 ^ 32 - last) % 2 ^ 32 → s.Carries i p fun u => u.reg Dict.dsessCompletionConsumed 0 dom = n ∧ ((s.cq dom).held = [] → (u.cq dom).written = (s.cq dom).written)))))) ∧
     (let i := Instr.slaiskFlush t p
      let answers : Prop := s.Carries i p fun u => s.queued p.flow 9 0 0 p.psn u ∧ u.sl.wins = s.sl.wins
      let e := s.winCheck p.target dom
      (p.target = 0 → answers) ∧
      (p.target ≠ 0 → (tgtOk p.target = false → bad i 0x10) ∧
        (tgtOk p.target = true → (tgtType p.target = 4 → (p.target % 4096 = dom → answers) ∧ (p.target % 4096 ≠ dom → bad i 0x13)) ∧ (tgtType p.target ≠ 3 → tgtType p.target ≠ 4 → bad i 0x14) ∧
          (tgtType p.target = 3 → (e = 0 → answers) ∧ (e ≠ 0 → bad i e))))) ∧
     (let own (read : Bool) (o : TxOp) : Prop := x.ops.find? (fun o => (o.read == read) && o.psn == p.aux % 2 ^ 24) = some o
      let gone (u : State) : Prop := ∀ o ∈ (u.flow p.flow).ops, o ∈ x.ops ∧ o.psn ≠ p.aux % 2 ^ 24
      (s.atRest → (∀ o, ¬own true o) → bad (.slaiskReadResponse t p) 0x15) ∧
      (s.atRest → ∀ o, own true o →
        (let got := o.got ++ p.data
         let fits := p.offset = o.got.length ∧ p.first = decide (o.got = []) ∧ got.length ≤ o.want ∧ p.last = decide (got.length = o.want)
         (¬fits → bad (.slaiskReadResponse t p) 0x15) ∧
         (fits → p.last = false → s.Carries (.slaiskReadResponse t p) p fun u => (u.flow p.flow).ops = x.ops.map (fun y => if y.psn = o.psn then { y with got := got } else y) ∧ u.ss = s.ss) ∧
         (fits → p.last = true → ∀ k seq q rest, o.what = .sessIn k seq → (s.sess k).ring = q :: rest → q.inSt = 1 → q.d.seq = seq → Tbl.sorted s.ss.tbl →
           s.Carries (.slaiskReadResponse t p) p fun u => gone u ∧ u.sess k = { s.sess k with ring := { q with inSt := 2, input := got } :: rest }) ∧
         (fits → p.last = true → ∀ d id r, o.what = .domIn d id → s.drun d id = some r → r.q.inSt = 1 → Tbl.sorted s.ss.rings →
           s.Carries (.slaiskReadResponse t p) p fun u => gone u ∧ ∃ r', u.drun d id = some r' ∧ r'.q = { r.q with inSt := 2, input := got }))) ∧
      (s.atRest → ((∀ o, ¬own false o) → bad (.slaiskFlushResponse t p) 0x15) ∧
        (∀ o, own false o →
          (∀ d id r, o.what = .domFlush d id → s.Runs d r → r.id = id → s.Carries (.slaiskFlushResponse t p) p fun u => u.drun d id = none ∧ ∃ w : State, w.ss.cq = s.ss.cq ∧ w.posts d (Rec.completes r.q r.stage r.a) u) ∧
          (o.what = .drainFlush → s.Carries (.slaiskFlushResponse t p) p fun u => gone u ∧ u.ss = s.ss)))))

/-- R381, R399, R400: a window is opened, starts, is revoked by its owner or at the pick after its own, and stops, each with the reply the spec gives it; a request that may not be met is answered with its syndrome. -/
def Obligations.WindowsOpenAndClose : Prop :=
  ∀ (s : State) (t : Nat), s.live = true → Tbl.sorted s.sl.wins → Tbl.sorted s.fns → Tbl.sorted s.sl.flows →
    (let z := s.at t
     let revoked (i : Nat) (u : State) : Prop := u.win i = { s.win i with revoked := true } ∧ (∀ j ≠ i, u.win j = s.win j) ∧
       u.fn (.window i) = (match (s.fn (.window i)).st with
         | .starting => { s.fn (.window i) with pend := .off }
         | .on => { s.fn (.window i) with st := .stopping, pend := .none }
         | _ => s.fn (.window i))
     let answers (i : Nat) (syndrome : Nat) (u : State) : Prop := s.flowReady (s.win i).flow = true → s.queued (s.win i).flow 12 (winHandle i (s.win i).gen) syndrome (s.win i).psn u
     (∀ p : SPkt, s.InOrder p →
       (let o := Instr.windowOpen t p
        let k := handleSlot p.offset
        let form := p.target = 0 ∧ 64 ≤ p.aux ∧ p.aux ≤ 16777216 ∧ p.aux % 64 = 0
        let room := (s.wins.countP fun w => w.dom == p.domain) < s.reg Dict.dslaiskMaxWindows 0 p.domain ∧ s.wins.length < 65536 ∧ s.chOn (chOf k) = true ∧
          p.aux + sumOf (fun w => if w.ch = chOf k then w.size else 0) s.wins ≤ s.reg Dict.slaiskWindowPool * 1048576
        let turned (syndrome : Nat) : Prop := s.Carries o p fun u => s.queued p.flow 12 0 syndrome p.psn u ∧ u.sl.wins = s.sl.wins ∧ u.fns = s.fns
        (¬form → s.RefusesPkt t o p 0x15) ∧
        (form → handleDev p.offset ≠ s.device → turned 0x17) ∧
        (form → handleDev p.offset = s.device → s.inRange p.domain k = false → turned 0x13) ∧
        (form → handleDev p.offset = s.device → s.inRange p.domain k = true → ¬room → turned 0x16) ∧
        (form → handleDev p.offset = s.device → s.inRange p.domain k = true → room → s.Carries o p fun u => ∃ i < 65536, (s.win i).isOpen = false ∧ u.fn (.window i) = { st := .starting } ∧
          u.win i = { gen := ((s.win i).gen + 1) % 4096, dom := p.domain, ch := chOf k, size := p.aux, flow := p.flow, psn := p.psn, pick := s.pk.current, isOpen := true } ∧ ∀ j ≠ i, u.win j = s.win j))) ∧
     (∀ p : SPkt, s.InOrder p →
       (let o := Instr.windowRevoke t p
        let i := p.target % 65536
        let e := s.winCheck p.target p.domain
        (tgtOk p.target = false → s.RefusesPkt t o p 0x10) ∧ (tgtOk p.target = true → tgtType p.target ≠ 3 → s.RefusesPkt t o p 0x14) ∧
        (tgtOk p.target = true → tgtType p.target = 3 → (e = 0x12 ∨ e = 0x13 → s.RefusesPkt t o p e) ∧ (e ≠ 0x12 → e ≠ 0x13 → s.Carries o p (revoked i))))) ∧
     (∀ i < 65536,
       (let w := s.win i
        let f := s.fn (.window i)
        (f.st = .starting → ∃ u, exec (.windowStartComplete t i) s = .next u ∧ u.sl.wins = s.sl.wins ∧
          (f.pend = .off → u.fn (.window i) = { st := .stopping } ∧ answers i 0x12 u) ∧ (f.pend ≠ .off → u.fn (.window i) = { st := .on } ∧ answers i 0 u)) ∧
        (f.st ≠ .starting → exec (.windowStartComplete t i) s = .next z) ∧
        (w.isOpen = true → w.pick < s.pk.current → w.revoked = false → ∃ u, exec (.windowExpire t i) s = .next u ∧ revoked i u ∧ z.sameBut (.functions :: .slaisk :: .values :: noted) u) ∧
        (w.isOpen = false ∨ s.pk.current ≤ w.pick ∨ w.revoked = true → exec (.windowExpire t i) s = .next z) ∧
        (f.st = .stopping → ∃ u, exec (.windowStopComplete t i) s = .next u ∧ u.win i = { gen := w.gen } ∧ (∀ j ≠ i, u.win j = s.win j) ∧ u.fn (.window i) = {} ∧ z.sameBut [.functions, .slaisk] u) ∧
        (f.st ≠ .stopping → exec (.windowStopComplete t i) s = .next z))))

/-- R379, R385, R388, R389: an ACK takes the packets it covers out of the window, a NAK resends or ends the refused operation, and the timers acknowledge, retransmit or end the flow. -/
def Obligations.AcknowledgementsMoveTheWindow : Prop :=
  ∀ (s : State) (t : Nat), s.atRest → Tbl.sorted s.sl.flows → Tbl.sorted s.regs →
    (let z := s.at t
     let left (f n : Nat) : List TxPkt := (s.flow f).unacked.filter fun q => decide (2 ^ 23 ≤ (n + 2 ^ 24 - q.seq % 2 ^ 24) % 2 ^ 24)
     let taken (f n : Nat) (u : State) : Prop := (u.flow f).unacked ++ (u.flow f).waiting = left f n ++ (s.flow f).waiting
     let moves (f n : Nat) : Prop := left f n ≠ (s.flow f).unacked
     let resent (f : Nat) (u : State) : Prop := z.flowPaused f = false → ∀ port, s.flowPort f = some port → ∀ q ∈ (u.flow f).unacked, Output.slaisk port f q ∈ u.out
     let retried (f : Nat) (u : State) : Prop :=
       let n := (s.flow f).expiries + 1
       (n < s.reg Dict.slaiskRetryLimit → (u.flow f).expiries = n ∧ (u.flow f).unacked = (s.flow f).unacked ∧ (u.flow f).waiting = (s.flow f).waiting ∧ resent f u) ∧
       (s.reg Dict.slaiskRetryLimit ≤ n → (u.flow f).st = 2 ∧ (u.flow f).unacked = [] ∧ (u.flow f).waiting = [] ∧ (u.flow f).ops = [] ∧ s.counted Dict.slaiskFlowErrorCount u ∧
         s.notified 0x0603 (beBytes 2 f ++ beBytes 2 (s.flow f).cfg.dom ++ beBytes 4 ((s.flow f).tx % 2 ^ 24)) u)
     (∀ p : SPkt, s.Accepted p →
       (p.offset ≤ (s.flow p.flow).ctrRx → ∀ i ∈ [Instr.slaiskAck t p, .slaiskNak t p], ∃ u, exec i s = .next u ∧ z.sameBut (.values :: noted) u) ∧
       ((s.flow p.flow).ctrRx < p.offset →
         (∃ u, exec (.slaiskAck t p) s = .next u ∧ taken p.flow p.ackPsn u ∧ (u.flow p.flow).ctrRx = p.offset ∧ (u.flow p.flow).rx = (s.flow p.flow).rx ∧ (moves p.flow p.ackPsn → (u.flow p.flow).expiries = 0) ∧ u.ss = s.ss ∧ u.sl.wins = s.sl.wins) ∧
         (p.syndrome = 1 → (moves p.flow p.ackPsn → ∃ u, exec (.slaiskNak t p) s = .next u ∧ taken p.flow p.ackPsn u ∧ (u.flow p.flow).ctrRx = p.offset ∧ (u.flow p.flow).expiries = 0 ∧ resent p.flow u ∧
             s.counted Dict.slaiskNakSequenceCount u ∧ u.ss = s.ss) ∧
           (¬moves p.flow p.ackPsn → ∃ u, exec (.slaiskNak t p) s = .next u ∧ retried p.flow u ∧ s.counted Dict.slaiskNakSequenceCount u)) ∧
         (0x10 ≤ p.syndrome →
           (∃ u, exec (.slaiskNak t p) s = .next u ∧ s.counted Dict.slaiskNakErrorCount u ∧ (u.flow p.flow).ctrRx = p.offset) ∧
           (∀ q, (s.flow p.flow).unacked.find? (fun q => q.seq % 2 ^ 24 == p.ackPsn) = some q →
             (∀ k seq run, q.own = some (.sessIn k seq) → (s.sess k).run = some run → run.q.d.seq = seq → (s.flow p.flow).ops = [] → Tbl.sorted s.ss.tbl → ∃ u, exec (.slaiskNak t p) s = .next u ∧ taken p.flow p.ackPsn u ∧
               u.sess k = { s.sess k with outFail := true }) ∧
             (∀ o k seq y rest, q.own = none → (s.flow p.flow).ops.find? (fun o => o.psn == q.seq % 2 ^ 24) = some o → o.what = .sessIn k seq → (s.sess k).ring = y :: rest → y.inSt = 1 → y.d.seq = seq → Tbl.sorted s.ss.tbl →
               ∃ u, exec (.slaiskNak t p) s = .next u ∧ taken p.flow p.ackPsn u ∧ (∀ x ∈ (u.flow p.flow).ops, x.psn ≠ o.psn) ∧ u.sess k = { s.sess k with ring := { y with inSt := 3, inErr := stAbort } :: rest }))) ∧
         (p.syndrome ≠ 1 → p.syndrome < 0x10 → ∃ u, exec (.slaiskNak t p) s = .next u ∧ u.flow p.flow = { s.flow p.flow with ctrRx := p.offset } ∧ u.ss = s.ss))) ∧
     (s.live = true → ∀ f < 65536,
       (let x := s.flow f
        (∀ a, x.rxSince = some a → s.flowReady f = true → a + 2000 ≤ Nat.max s.now t → ∃ u, exec (.ackCoalesceTimer t f) s = .next u ∧ u.flow f = { x with ctrTx := x.ctrTx + 1, rxCount := 0, rxSince := none } ∧
          (∀ port, s.flowPort f = some port → Output.ackNak port f false x.lastRx 0 (x.ctrTx + 1) ∈ u.out) ∧ z.sameBut [.slaisk, .sent] u) ∧
        (x.rxSince = none ∨ s.flowReady f = false ∨ (∃ a, x.rxSince = some a ∧ Nat.max s.now t < a + 2000) → exec (.ackCoalesceTimer t f) s = .next z) ∧
        (∀ a, x.rtoAt = some a → s.flowReady f = true → a ≤ Nat.max s.now t → x.unacked ≠ [] → ∃ u, exec (.retransmitTimeout t f) s = .next u ∧ retried f u) ∧
        (x.rtoAt = none ∨ s.flowReady f = false ∨ x.unacked = [] ∨ (∃ a, x.rtoAt = some a ∧ Nat.max s.now t < a) → exec (.retransmitTimeout t f) s = .next z))))

/-- R134, R146, R418-R421, R423, R424, R429-R432: a flit is checked, taken or passed on, and answered on its link, replays follow the timer, and a forwarded COMMAND lands once, in its source's order, is
acknowledged, and is resent until it is. -/
def Obligations.LinksCarryCommandsInOrder : Prop :=
  ∀ (s : State) (t : Nat), s.live = true → s.Linked → Tbl.sorted s.regs →
    (let z := s.at t
     (∀ n < 48, ∀ f : Flit,
       (let i := Instr.flitReceive t n f
        let l := s.link n
        let nak (u : State) : Prop := (u.link n).nakSent = true ∧ (l.nakSent = false → Output.trailer n ((l.rxNext + 4095) % 4096) true 0 0 (Tbl.get 0 l.given 0) ∈ u.out)
        let acked : List (Nat × TxFlit) := if f.ackValid = true ∨ f.nak = true then (match findIdx? (fun e => e.1 == f.ackSeq) l.replay with | some j => l.replay.drop (j + 1) | none => l.replay) else l.replay
        (s.linkLive n = false → exec i s = .next z) ∧
        (s.linkLive n = true →
          (f.crcOk = false → ∃ u, exec i s = .next u ∧ u.link n = { l with crcFails := (l.crcFails + 1) % 2 ^ 32, nakSent := true } ∧ s.counted Dict.dnxCrcFailCount u ∧ nak u) ∧
          (f.crcOk = true → ∃ u, exec i s = .next u ∧ (f.nak = true → (∀ e ∈ acked, Output.flit n e.1 e.2 ∈ u.out) ∧ (acked ≠ [] → s.counted Dict.dnxReplayCount u)) ∧
            (f.typ = 0 → (u.link n).rxNext = l.rxNext ∧ (u.link n).nakSent = l.nakSent ∧ (f.crClass < 3 → Tbl.sorted l.ret → Tbl.get 0 (u.link n).ret (4 * f.crVc + f.crClass) = f.crTotal)) ∧
            (f.typ ≠ 0 → f.seq ≠ l.rxNext → (u.link n).rxNext = l.rxNext ∧ nak u) ∧
            (f.typ ≠ 0 → f.seq = l.rxNext →
              (let dom := flitDom f
               let first := f.first = true
               let sealedOff := f.vc ≠ 3 ∧ s.sealed (n / 12) = true ∧ dom ≠ some (s.reg Dict.sealDomain (n / 12))
               let here := f.dst = s.device ∨ f.typ = 1 ∧ (be f.pay 2 1 = 1 ∨ be f.pay 2 1 = 2 ∨ be f.pay 2 1 = 0x12)
               let x : TxFlit := { vc := f.vc, dst := f.dst, src := f.src, typ := f.typ, first := f.first, last := f.last, prot := f.prot, parity := f.parity, hops := f.hops, pay := .raw f.pay }
               let returned : Prop := Tbl.sorted l.given → Output.trailer n (f.seq % 4096) false f.vc f.hops ((Tbl.get 0 l.given (4 * f.vc + f.hops) + 1) % 4096) ∈ u.out
               let kept : Prop := u.dx.held = s.dx.held
               (u.link n).rxNext = (f.seq + 1) % 4096 ∧ (u.link n).nakSent = false ∧
               (first → sealedOff → s.counted Dict.secSealedFlitDrops u ∧ returned ∧ kept) ∧
               (first → ¬sealedOff → here → flitKnown f = true → returned ∧ kept) ∧
               (first → ¬sealedOff → here → flitKnown f = false → s.counted Dict.dnxBadMessageCount u ∧ returned ∧ kept) ∧
               (first → ¬sealedOff → ¬here → 2 ≤ f.hops → s.counted Dict.dnxHopDropCount u ∧ returned ∧ kept) ∧
               (first → ¬sealedOff → ¬here → f.hops < 2 → f.dst ≠ f.src → s.present f.dst = false → s.counted Dict.dnxBadMessageCount u ∧ returned ∧ kept) ∧
               (first → ¬sealedOff → ¬here → f.hops < 2 → s.present f.dst = true → (∀ y ∈ s.dx.held, ¬(y.1 = n ∧ y.2.vc = f.vc)) →
                 (s.usableSets f.dst dom = [] → u.dx.held = s.dx.held ++ [(n, x)]) ∧
                 (s.usableSets f.dst dom ≠ [] → kept ∧ returned ∧ ∃ o, { x with hops := f.hops + 1 } ∈ (u.link o).queue f.vc ∨ ∃ seq, Output.flit o seq { x with hops := f.hops + 1 } ∈ u.out)))))))) ∧
     (∀ n < 48,
       (let l := s.link n
        (∀ a, l.since = some a → a + 4000 ≤ Nat.max s.now t → l.replay ≠ [] → ∃ u, exec (.replayTimeout t n) s = .next u ∧
          u.link n = { l with replays := (l.replays + 1) % 2 ^ 32, idle := l.idle + 1, since := some (Nat.max s.now t) } ∧ s.counted Dict.dnxReplayCount u ∧ (∀ e ∈ l.replay, Output.flit n e.1 e.2 ∈ u.out) ∧
          z.sameBut (.warp :: .values :: noted) u) ∧
        (l.since = none ∨ l.replay = [] ∨ (∃ a, l.since = some a ∧ Nat.max s.now t < a + 4000) → exec (.replayTimeout t n) s = .next z))) ∧
     (∀ (e : DEnv) (ds : List Desc), s.Arrives e true →
       (let i := Instr.command t e ds
        let p := s.peer e.src
        let ahead := (e.mid + 2 ^ 32 - p.rxId) % 2 ^ 32
        let held (id : Nat) : Prop := ∃ x ∈ s.dx.early, x.1 = e.src ∧ x.2.1 = id
        let acks (u : State) : Prop := u.sends fun m => m.is 0x03 e.src (some e.dom) e.mid 0
        let q (d : Desc) : QDesc := { d := d, dom := e.dom, fwd := true }
        (ahead = 0 → ¬held ((p.rxId + 1) % 2 ^ 32) →
          ((∀ d ∈ ds, d.opcode ∉ sessOps ∧ descForm domOps d = true ∧ s.isLate d.deadline = false) → (s.dring e.dom).waiting.length + ds.length ≤ 256 → Tbl.sorted s.ss.rings → ∃ u, exec i s = .next u ∧
            (u.peer e.src).rxId = (p.rxId + 1) % 2 ^ 32 ∧ acks u ∧ u.dring e.dom = { s.dring e.dom with waiting := (s.dring e.dom).waiting ++ ds.map q }) ∧
          (∀ k, (∀ d ∈ ds, d.opcode ∈ sessOps ∧ d.opcode ≠ 0x09 ∧ d.opcode ≠ 0x0A ∧ handleSlot d.session = k ∧ (d.opcode = 0x01 ∨ d.opcode = 0x08 ∨ (s.sess k).st = .free ∨ (s.sess k).dom = e.dom) ∧
              handleGen d.session = s.genOf k ∧ s.isLate d.deadline = false) → s.chOn (chOf k) = true → (s.sess k).ring.length + ds.length ≤ 16 → ds ≠ [] → Tbl.sorted s.ss.tbl → ∃ u, exec i s = .next u ∧
            (u.peer e.src).rxId = (p.rxId + 1) % 2 ^ 32 ∧ acks u ∧ u.sess k = { s.sess k with ring := (s.sess k).ring ++ ds.map q, tail := ((s.sess k).tail + ds.length) % 65536 })) ∧
        (0 < ahead → ahead ≤ 256 → ¬held e.mid → ∃ u, exec i s = .next u ∧ u.dx.early = s.dx.early ++ [(e.src, e.mid, e.dom, ds)] ∧ (u.peer e.src).rxId = p.rxId ∧ u.ss = s.ss) ∧
        (0 < ahead → ahead ≤ 256 → held e.mid → ∃ u, exec i s = .next u ∧ u.dx.early = s.dx.early ∧ (u.peer e.src).rxId = p.rxId ∧ u.ss = s.ss) ∧
        (2 ^ 31 ≤ ahead → ∃ u, exec i s = .next u ∧ acks u ∧ (u.peer e.src).rxId = p.rxId ∧ u.ss = s.ss) ∧
        (256 < ahead → ahead < 2 ^ 31 → ∃ u, exec i s = .next u ∧ u.dx.early = s.dx.early ∧ (u.peer e.src).rxId = p.rxId ∧ u.ss = s.ss))) ∧
     (∀ e : DEnv, s.Arrives e true → s.atRest → ∃ u, exec (.commandAck t e) s = .next u ∧ (∀ f ∈ u.dx.fwd, ¬(f.home = e.src ∧ f.id = e.mid)) ∧ u.ss = s.ss ∧
       ∀ f ∈ s.dx.fwd, ¬(f.home = e.src ∧ f.id = e.mid) → ∃ g ∈ u.dx.fwd, { g with sent := none } = { f with sent := none }) ∧
     (∀ home < 64, ∀ id,
       (let hit := s.dx.fwd.find? fun f => f.home == home && f.id == id
        let due (f : Fwd) : Prop := ∃ a, f.sent = some a ∧ a + 1000 * s.reg Dict.dnxE2eTimeout ≤ Nat.max s.now t
        (∀ f, hit = some f → due f → ∃ u, exec (.e2eTimeout t home id) s = .next u ∧ s.counted Dict.dnxForwardResendCount u ∧
          (u.sends fun m => m.is 0x02 home (some f.dom) id f.ds.length ∧ m.body = .descs f.ds) ∧ ∀ g ∈ u.dx.fwd, g.home = home → g.id = id → g.sent = some (Nat.max s.now t)) ∧
        (hit = none ∨ (∃ f, hit = some f ∧ ¬due f) → exec (.e2eTimeout t home id) s = .next z))))

/-- R159, R203, R424, R435, R436: a migration reserves at the peer, carries its pages, commits once every page is there, ends at the source when the commit is acknowledged, and is given up by either side that
waits too long. -/
def Obligations.MigrationMovesASession : Prop :=
  ∀ (s : State) (t : Nat), s.live = true → s.Linked → Tbl.sorted s.ss.tbl → Tbl.sorted s.ss.cq →
    (let z := s.at t
     let known (e : DEnv) (m : MigIn) : Prop := s.migIn e.src e.mid = some m
     let replies (e : DEnv) (n : Nat) (u : State) : Prop := u.sends fun m => m.is 0x05 e.src (some e.dom) e.mid n
     (∀ (e : DEnv) (x : MigSum), s.Arrives e true →
       (let i := Instr.migrateReserve t e x
        let got := (s.reserveFor x.dom 0 x.near).bind fun a => (a.2.reserveFor x.dom 1 x.deep).bind fun b => (b.2.reserveFor x.dom 2 x.far).map fun f => a.1 ++ b.1 ++ f.1
        let turned (n : Nat) : Prop := ∃ u m, exec i s = .next u ∧ replies e n u ∧ u.migIn e.src e.mid = some m ∧ m.reply = n ∧ m.frames = [] ∧ u.ss = s.ss ∧ u.tm = s.tm
        (∀ m, known e m → ∃ u, exec i s = .next u ∧ replies e m.reply u ∧ u.dx.inn = s.dx.inn ∧ u.ss = s.ss ∧ u.tm = s.tm) ∧
        (s.migIn e.src e.mid = none → s.placeFor x = none → turned 2) ∧
        (s.migIn e.src e.mid = none → ∀ k, s.placeFor x = some k → got = none → turned 1) ∧
        (s.migIn e.src e.mid = none → ∀ k fs, s.placeFor x = some k → got = some fs → ∃ u, exec i s = .next u ∧ replies e 0 u ∧ u.ss = s.ss ∧
          u.migIn e.src e.mid = some { src := e.src, id := e.mid, reply := 0, sum := x, k := k, frames := fs, since := Nat.max s.now t }))) ∧
     (∀ e : DEnv, s.Arrives e true →
       (let i := Instr.migrateReply t e
        let hit := s.dx.out.find? fun m => m.id == e.mid && m.peer == e.src && m.step == 1
        (hit = none → ∃ u, exec i s = .next u ∧ z.sameBut (.warp :: noted) u) ∧
        (∀ m, hit = some m →
          (e.aux = 0 → ∃ u, exec i s = .next u ∧ (∀ y ∈ u.dx.out, y.id = m.id → y.step = 3) ∧ (u.sends fun y => y.is 0x07 m.peer (some (s.sess m.k).dom) m.id 0 ∧ y.body = .entry (s.entryOf m.k)) ∧ u.ss = s.ss ∧
            ∀ g ∈ (s.sess m.k).pages, g.2.tier ≠ 3 → u.sends fun y => y.is 0x06 m.peer (some (s.sess m.k).dom) m.id g.1) ∧
          (e.aux ≠ 0 → s.draining = false → ∃ u, exec i s = .next u ∧ (∀ y ∈ u.dx.out, y.id ≠ m.id) ∧ ((s.sess m.k).st = .moving → (u.sess m.k).core = ((z.backToPrior m.k).sess m.k).core)) ∧
          (e.aux ≠ 0 → s.draining = true → s.reg Dict.packageDrainTarget = 0 ∨ s.reg Dict.packageDrainTarget = 2 → s.sealed (chOf m.k) = false → ∀ p more, s.peersFrom (m.peer + 1) = p :: more → ∃ u, exec i s = .next u ∧ ∃ y ∈ u.dx.out, y.k = m.k ∧ y.peer = p ∧ y.step = 1)))) ∧
     (∀ (e : DEnv) (p : CkPage), s.Arrives e false →
       (let i := Instr.pageData t e p
        let keeps : Prop := ∃ u, exec i s = .next u ∧ u.dx.inn = s.dx.inn ∧ u.ss = s.ss ∧ u.tm = s.tm
        (s.migIn e.src e.mid = none → keeps) ∧
        (∀ m, known e m → (m.reply ≠ 0 ∨ m.committed = true → keeps) ∧
          (m.reply = 0 → m.committed = false →
            (p.ok = false ∨ p.lpn ≠ e.aux → keeps ∧ (Tbl.sorted s.regs → ∃ u, exec i s = .next u ∧ s.counted Dict.secTagFailCount u ∧ s.notified 0x0506 (beBytes 2 e.dom ++ beBytes 8 0) u)) ∧
            (p.ok = true → p.lpn = e.aux →
              (∀ y, m.pages.find? (fun y => y.1.lpn == p.lpn) = some y → (y.1.ver = p.ver → keeps) ∧
                (y.1.ver ≠ p.ver → ∃ u, exec i s = .next u ∧ u.migIn e.src e.mid = some { m with pages := m.pages.map fun z => if z.1.lpn = p.lpn then (p, z.2) else z } ∧ u.ss = s.ss)) ∧
              (m.pages.find? (fun y => y.1.lpn == p.lpn) = none →
                (s.frameFor m p = none → keeps) ∧
                (∀ f, s.frameFor m p = some f → ∃ u, exec i s = .next u ∧
                  u.migIn e.src e.mid = some { m with frames := m.frames.erase f, pages := m.pages ++ [(p, f)] } ∧ u.ss = s.ss))))))) ∧
     (∀ (e : DEnv) (x : CkSess) (ok : Bool), s.Arrives e true →
       (let i := Instr.migrateCommit t e x ok
        let need := (x.pages.filter fun p => !p.absent).map (·.lpn)
        let lacks (m : MigIn) : List Nat := if ok = true then need.filter fun l => !(m.pages.any fun y => y.1.lpn == l) else need
        let answers (n : Nat) (u : State) : Prop := u.sends fun y => y.is 0x08 e.src (some e.dom) e.mid n
        (∀ m, known e m → m.reply = 0 →
          (m.committed = true → ∃ u, exec i s = .next u ∧ answers 0 u ∧ u.dx.inn = s.dx.inn ∧ u.ss = s.ss) ∧
          (m.committed = false → lacks m ≠ [] → ∃ u, exec i s = .next u ∧ (∃ l ∈ lacks m, (∀ y ∈ lacks m, l ≤ y) ∧ answers l u) ∧ u.dx.inn = s.dx.inn ∧ u.ss = s.ss) ∧
          (m.committed = false → lacks m = [] → ∀ st model, restoredState x = some st →
            s.modelOf x.dom x.meas = some model → s.stalled x.dom = false → ∃ u, exec i s = .next u ∧ answers 0 u ∧
            (∃ m', u.migIn e.src e.mid = some m' ∧ m'.committed = true) ∧
            (u.sess m.k).core = ({ st := st, gen := s.genOf m.k, head := (s.sess m.k).head, tail := (s.sess m.k).tail, ring := (s.sess m.k).ring, imm := (s.sess m.k).imm, dom := x.dom, prio := x.prio, model := model, length := x.length, ttl := x.ttl, sver := (x.sver + 1) % 2 ^ 32, grammar := x.grammar, stop := x.stop, sampling := x.sampling, gstate := x.gstate, since := x.since, slate := x.slate, charged := x.charged, generated := x.generated, tokens := x.tokens, ctx := x.ctx, policy := x.policy } : Sess).core ∧
            ∃ w : State, w.ss.cq = s.ss.cq ∧ w.posts x.dom (fun r => r.handle = s.handle m.k ∧ r.seq = 0xFFFF ∧ r.opcode = 0x08 ∧ r.status = stDone ∧ r.progress = bits x.handle 47 22 % 2 ^ 32) u)))) ∧
     (∀ (e : DEnv) (status : Nat), s.Arrives e true →
       (let i := Instr.migrateCommitAck t e status
        let hit := s.dx.out.find? fun m => m.id == e.mid && m.peer == e.src && m.step == 3
        (hit = none → ∃ u, exec i s = .next u ∧ z.sameBut (.warp :: noted) u) ∧
        (∀ m, hit = some m →
          (status = 0 → ∃ u, exec i s = .next u ∧ u.sess m.k = { gen := genNext (s.genOf m.k), head := ((s.sess m.k).head + (s.sess m.k).ring.length) % 65536, tail := (s.sess m.k).tail }) ∧
          (status = 3 → ∃ u, exec i s = .next u ∧ u.dx.out = s.dx.out ∧ u.ss = s.ss ∧ (u.sends fun y => y.is 0x07 m.peer (some (s.sess m.k).dom) m.id 0) ∧
            ∀ g ∈ (s.sess m.k).pages, e.aux ≤ g.1 → g.2.tier ≠ 3 → u.sends fun y => y.is 0x06 m.peer (some (s.sess m.k).dom) m.id g.1) ∧
          (status ≠ 0 → status ≠ 3 → ∃ u, exec i s = .next u ∧ z.sameBut (.warp :: noted) u)))) ∧
     (∀ peer < 64, ∀ id,
       (let i := Instr.migrationTimeout t peer id
        let past (since : Nat) : Bool := decide (since + 1000000000 * s.reg Dict.packageDrainTimeout ≤ Nat.max s.now t)
        let out := s.dx.out.find? fun m => m.id == id && m.peer == peer && past m.since
        let inn := s.dx.inn.find? fun m => m.src == peer && m.id == id && !m.committed && past m.since
        (out = none → inn = none → exec i s = .next z) ∧
        (s.draining = false → ∀ m, out = some m → inn = none → ∃ u, exec i s = .next u ∧ (∀ y ∈ u.dx.out, y.id ≠ id) ∧ ((s.sess m.k).st = .moving → (u.sess m.k).st = (s.sess m.k).prior) ∧ u.dx.inn = s.dx.inn) ∧
        (out = none → ∀ m, inn = some m → ∃ u, exec i s = .next u ∧ u.migIn peer id = none ∧ u.dx.out = s.dx.out ∧ u.ss = s.ss))))

/-- R232, R235, R434, R437-R439, R478, R481: activations and stage reports go along the stages, heartbeats keep a member PRESENT, and a member that is silent too long or says it is FATAL is LOST. -/
def Obligations.MembersAndStagesAreFollowed : Prop :=
  ∀ (s : State) (t : Nat), s.live = true → s.Linked → Tbl.sorted s.regs →
    (let z := s.at t
     let hears (src : Nat) (u : State) : Prop := src ≠ s.device → s.memberDigest src ≠ 0 → (s.peer src).st ≠ 3 → u.peer src = { s.peer src with st := 2, heard := Nat.max s.now t }
     let loses (i : Instr) (dev cause : Nat) : Prop := ∃ u, exec i s = .next u ∧ (u.peer dev).st = 3 ∧ s.counted Dict.warpPeerLostCount u ∧ s.notified 0x0702 [dev, cause] u ∧ (∀ f ∈ u.dx.fwd, f.home ≠ dev)
     let nextStage (slot : Nat) : Nat := beField 64 (s.reg Dict.modelStageMap 0 slot) ((s.model slot).stage + 1) 1
     (∀ (e : DEnv) (rows : List StageRow), s.Arrives e true →
       (let x := s.model e.aux
        let acks (u : State) : Prop := u.sends fun m => m.is 0x0A e.src (some e.dom) e.mid e.aux
        ((e.mid, e.aux) ∈ s.dx.actsIn → ∃ u, exec (.activation t ⟨e, rows⟩) s = .next u ∧ acks u ∧ u.dx.actsIn = s.dx.actsIn ∧ u.dx.acts = s.dx.acts) ∧
        ((e.mid, e.aux) ∉ s.dx.actsIn → ∃ u, exec (.activation t ⟨e, rows⟩) s = .next u ∧ acks u ∧ u.dx.actsIn = s.dx.actsIn ++ [(e.mid, e.aux)] ∧
          (x.placement = 2 → x.stage < x.stages → nextStage e.aux < 64 → (u.sends fun m => m.is 0x09 (nextStage e.aux) (some x.dom) e.mid e.aux ∧ m.body = .act rows) ∧
            u.dx.acts = s.dx.acts ++ [{ rows := rows, mid := e.mid, dst := nextStage e.aux, dom := x.dom, slot := e.aux, since := Nat.max s.now t }]) ∧
          (¬(x.placement = 2 ∧ x.stage < x.stages ∧ nextStage e.aux < 64) → u.dx.acts = s.dx.acts)))) ∧
     (∀ e : DEnv, s.Arrives e true → s.atRest → ∃ u, exec (.activationAck t e) s = .next u ∧ u.dx.acts = s.dx.acts.filter (fun a => !(a.mid == e.mid && a.dst == e.src)) ∧ z.sameBut (.warp :: noted) u) ∧
     (∀ mid,
       (let hit := s.dx.acts.find? fun a => a.mid == mid
        let due (a : ActOut) : Prop := a.since + 1000000 * s.reg Dict.fabricOpTimeout 0 ((s.model a.slot).chans.headD 0) ≤ Nat.max s.now t
        (∀ a, hit = some a → due a → Tbl.sorted s.fb.models → ∃ u, exec (.activationTimeout t mid) s = .next u ∧ (∀ b ∈ u.dx.acts, b.mid ≠ mid) ∧
          ((s.model a.slot).st = 2 → u.model a.slot = { s.model a.slot with st := 4 } ∧ s.notified 0x3101 ([a.slot] ++ beBytes 2 (s.model a.slot).dom) u) ∧ ((s.model a.slot).st ≠ 2 → u.fb = s.fb)) ∧
        (hit = none ∨ (∃ a, hit = some a ∧ ¬due a) → exec (.activationTimeout t mid) s = .next z))) ∧
     (∀ link src pick mv, s.CtlArrives link src → mv ≤ 1 → ∃ u, exec (.heartbeat t ⟨link, mv⟩ src pick) s = .next u ∧ hears src u ∧ (∀ j ≠ src, u.peer j = s.peer j) ∧ z.sameBut [.warp] u) ∧
     (∃ u, exec (.heartbeatSend t) s = .next u ∧ z.sameBut (.warp :: noted) u ∧
       ∀ i < 64, i ≠ s.device → s.peerState i = 1 ∨ s.peerState i = 2 → u.sends fun m => m.is 1 i none 0 0 ∧ m.body = .ctl (ctlBytes 0x10 0 ([0, 0, 0, 0] ++ beBytes 8 s.pk.current))) ∧
     (∀ dev < 64,
       (let due := (s.peer dev).heard + 1000 * s.reg Dict.warpPeerTimeout ≤ Nat.max s.now t
        (due → dev ≠ s.device → s.peerState dev = 2 → loses (.peerTimeout t dev) dev 0) ∧ (¬due ∨ dev = s.device ∨ s.peerState dev ≠ 2 → exec (.peerTimeout t dev) s = .next z))) ∧
     (∀ link src reason pick mv, s.CtlArrives link src → mv ≤ 1 → src ≠ s.device → s.memberDigest src ≠ 0 → (s.peer src).st ≠ 3 → loses (.fatalMessage t ⟨link, mv⟩ src reason pick) src 1) ∧
     (∀ link src pick reason slot stage dom ready mv, s.CtlArrives link src → 2 ≤ mv → slot < 16 → ∀ i ∈ [Instr.heartbeat t ⟨link, mv⟩ src pick, .fatalMessage t ⟨link, mv⟩ src reason pick, .stageReady t ⟨link, mv⟩ src slot stage dom ready],
       ∃ u, exec i s = .next u ∧ s.counted Dict.dnxBadMessageCount u ∧ u.fb = s.fb) ∧
     (∀ link src slot stage dom ready mv, s.CtlArrives link src → mv ≤ 1 → slot < 16 → Tbl.sorted s.fb.models →
       (let i := Instr.stageReady t ⟨link, mv⟩ src slot stage dom ready
        let x := s.model slot
        let at_ (n : Nat) : Prop := beField 64 (s.reg Dict.modelStageMap 0 slot) n 1 = src
        let mine := x.st ≠ 0 ∧ x.placement = 2 ∧ x.stage = 0 ∧ x.dom = dom ∧ at_ stage
        let gone := x.placement = 2 ∧ stage = 0 ∧ ready = 0 ∧ x.dom = dom ∧ at_ 0
        let rest := x.ready.filter (· != stage)
        (mine → ready = 1 ∨ x.ready.contains stage = false → ∃ u, exec i s = .next u ∧ hears src u ∧ u.model slot = { x with ready := if ready = 1 then rest ++ [stage] else rest } ∧ ∀ j ≠ slot, u.model j = s.model j) ∧
        (mine → ready = 0 → x.ready.contains stage = true → ∃ u, exec i s = .next u ∧ hears src u ∧ u.model slot = { x with ready := rest, st := if x.st = 2 then 4 else x.st } ∧ ∀ j ≠ slot, u.model j = s.model j) ∧
        (¬mine → gone → ∃ u, exec i s = .next u ∧ hears src u ∧ u.model slot = { x with st := if x.st = 2 then 4 else x.st } ∧ ∀ j ≠ slot, u.model j = s.model j) ∧
        (¬mine → ¬gone → ∃ u, exec i s = .next u ∧ hears src u ∧ u.fb = s.fb))) ∧
     (∃ u, exec (.stageReadyResend t) s = .next u ∧ z.sameBut (.warp :: noted) u ∧
       ∀ e ∈ s.dx.stages, (let dst := beField 64 (s.reg Dict.modelStageMap 0 e.1) 0 1
         dst ≠ s.device → dst < 64 → u.sends fun m => m.is 1 dst none 0 0 ∧ m.body = .ctl (ctlBytes 0x13 0 ([e.1, (s.model e.1).stage] ++ beBytes 2 (s.model e.1).dom ++ [b2n e.2])))))

/-- R447, R448, R454: CHECKPOINT_BEGIN's checks in order, what a checkpoint's beginning leaves at its coordinator, CKPT_NOTICE at the other devices, and the messages that are sent again
until they are answered. -/
def Obligations.CheckpointsBeginAndAreTold : Prop :=
  ∀ (s : State) (t : Nat), s.live = true → s.Linked → Tbl.sorted s.regs →
    (let z := s.at t
     let k := s.ck
     let leaving := s.pw.pkg = .draining ∨ s.pw.pkg = .removeReady
     (∀ d < 4096, ∀ q rest ok, z.Starts d 0x58 q rest →
       (let i := Instr.checkpointBegin t d ok
        let p := q.d.dataRef
        let slot := if q.d.count = 2 then (if s.lastP = 0 then 0 else 1 - s.lastSlot) else q.d.count
        let fields := decide (p < 2 ^ 48) && decide (q.d.count ≤ 2) && descBare q.d && decide (q.d.dataLen = 0) && decide (q.d.deadline = 0)
        let may := s.pk.current + 2 ≤ p ∧ s.lastP < p ∧ s.reg Dict.ckptCommitKey ≠ 0 ∧ s.reg Dict.ckptShardKey slot ≠ 0 ∧ 2 ≤ s.sigLeft
        let begun : Ckpt := { k with st := 1, slot := slot, p := p, coord := s.device, cmd := some (d, (s.dring d).nextId), devs := s.warpDevices, noticeAt := Nat.max s.now t, answers := [], cutAt := 0, resume := false, ended := if k.ended = some (p, true) then none else k.ended }
        let fails (status cause : Nat) : Prop := z.DomDone i d q rest status 0 fun u => u.ck.closed p true ∧ s.counted Dict.ckptAbortCount u ∧ s.notified 0x0802 (beBytes 8 p ++ [cause, s.device]) u
        (∀ st, s.ckCommon d fields = some st → z.DomDone i d q rest st 0 fun u => u.ck = k) ∧
        (s.ckCommon d fields = none → ¬may → z.DomDone i d q rest stBad 0 fun u => u.ck = k) ∧
        (s.ckCommon d fields = none → may → ok = false → fails stAbort 2) ∧
        (s.ckCommon d fields = none → may → ok = true → leaving → fails stBad 6) ∧
        (s.ckCommon d fields = none → may → ok = true → ¬leaving → z.DomRuns i d rest (z.runOf d q) fun u => u.ck = begun ∧
          u.pk.barrier = some { p := p } ∧ ∀ j ∈ s.warpDevices, j ≠ s.device → u.tells j 0x14 { src := s.device, slot := slot, p := p }))) ∧
     (∀ link m, s.CkArrives link m →
       (let i := Instr.ckptNotice t link m
        (k.ended = some (m.p, true) → ∃ u, exec i s = .next u ∧ u.ck = k ∧ u.tells m.src 0x17 { src := s.device, slot := m.slot, cause := 0, p := m.p }) ∧
        (k.ended ≠ some (m.p, true) → k.st ≠ 0 → k.cmd = none → ∃ u, exec i s = .next u ∧ z.sameBut [.warp] u) ∧
        (k.ended ≠ some (m.p, true) → k.st = 0 ∨ k.cmd ≠ none → ¬leaving → ∃ u, exec i s = .next u ∧
          u.ck = { k with st := 1, slot := m.slot, p := m.p, coord := m.src, cutAt := 0, resume := false } ∧ u.pk.barrier = (if s.pk.barrier = none then some { p := m.p } else s.pk.barrier) ∧
          z.sameBut [.warp, .checkpoint, .picks, .pickCore] u) ∧
        (k.ended ≠ some (m.p, true) → k.st = 0 → k.cmd = none → leaving → ∃ u, exec i s = .next u ∧ u.ck.closed m.p true ∧
          ∀ j ∈ s.warpDevices, j ≠ s.device → u.tells j 0x17 { src := s.device, slot := m.slot, cause := 6, p := m.p }))) ∧
     ∃ u, exec (.ckptMessageResend t) s = .next u ∧ z.sameBut (.warp :: noted) u ∧
       (∀ j ∈ k.devs, j ≠ s.device → k.cmd ≠ none → (∀ a ∈ k.answers, a.src ≠ j) →
         u.tells j (if k.st = 5 then 0x18 else 0x14) (if k.st = 5 then { src := s.device, slot := k.slot, p := k.p, r := k.r, filter := k.filter, map := k.map } else { src := s.device, slot := k.slot, p := k.p })) ∧
       (k.st = 4 → k.coord ≠ s.device → u.tells k.coord 0x15 k.mine) ∧ (k.st = 5 → k.doneSent = true → k.coord ≠ s.device → u.tells k.coord 0x19 k.mine))

/-- R448 (steps 3 and 4), R455: the cut waits for the running step and the barrier at P, and writing for the page moves in flight; CKPT_ABORT, and `ckpt.timeout` at the coordinator, abort the
checkpoint; another device that hears nothing for that long resumes. -/
def Obligations.CheckpointsCutAndAbort : Prop :=
  ∀ (s : State) (t : Nat), s.live = true → s.Linked → Tbl.sorted s.regs → Tbl.sorted s.ss.cq → Tbl.sorted s.ss.rings →
    (let z := s.at t
     let k := s.ck
     let active := k.st ≠ 0 ∧ k.st ≠ 5
     (let may := k.st = 1 ∧ s.sv.held = true ∧ s.sv.run = none ∧ ∀ b, s.pk.barrier = some b → b.p ≠ k.p
      (may → exec (.checkpointCut t) s = .next { z with ck := { k with st := if s.tm.moves.all (fun m => !m.started) then 3 else 2 } }) ∧ (¬may → exec (.checkpointCut t) s = .next z)) ∧
     (∀ link m, s.CkArrives link m →
       (m.p = k.p → active → s.AbortsCkpt (.ckptAbort t link m) m.cause m.src) ∧ (m.p ≠ k.p ∨ ¬active → ∃ u, exec (.ckptAbort t link m) s = .next u ∧ z.sameBut [.warp] u)) ∧
     (let lim := 1000000 * s.reg Dict.ckptTimeout
      (active → k.cmd ≠ none → k.noticeAt + lim ≤ Nat.max s.now t → s.AbortsCkpt (.checkpointTimeout t) 1 s.device) ∧
      (active → k.cmd = none → k.cutAt ≠ 0 → k.cutAt + lim ≤ Nat.max s.now t → exec (.checkpointTimeout t) s = .next { z with ck := { k with st := 0, resume := true, cmd := none, cutAt := 0 } }) ∧
      (¬active ∨ (k.cmd ≠ none ∧ Nat.max s.now t < k.noticeAt + lim) ∨ (k.cmd = none ∧ (k.cutAt = 0 ∨ Nat.max s.now t < k.cutAt + lim)) → exec (.checkpointTimeout t) s = .next z)))

/-- R448 (steps 5 to 8), R452, R454, R455: shards that do not fit, are not written or cannot be signed for abort the checkpoint; otherwise the manifest that a signature index makes over their
entries is written behind them and the coordinator hears of it; with the last device's word it commits, and a device that is told so takes the commit. -/
def Obligations.ShardsAreWrittenAndCommitted : Prop :=
  ∀ (s : State) (t : Nat), s.live = true → s.Linked → Tbl.sorted s.regs → Tbl.sorted s.ss.cq → Tbl.sorted s.ss.rings →
    (let z := s.at t
     let k := s.ck
     let active := k.st ≠ 0 ∧ k.st ≠ 5
     (∀ ok,
       (let i := Instr.shardWriteComplete t ok
        let laid := z.layShards
        let n := laid.1.length
        let fits := n ≤ s.reg Dict.ckptShardBytes k.slot
        let sent := ok = true ∧ s.flowReady (s.reg Dict.ckptFlow) = true
        let placed := laid.2.2.slotWrite 0 laid.1
        (k.st ≠ 3 → exec i s = .next z) ∧
        (k.st = 3 → (¬fits → s.AbortsCkpt i 3 s.device) ∧ (fits → ¬sent → s.AbortsCkpt i 2 s.device) ∧ (fits → sent → takeIndex placed = none → s.AbortsCkpt i 4 s.device) ∧
          (fits → sent → ∀ idx v, takeIndex placed = some (idx, v) → idx = s.sc.n ∧
            (let man := v.manifest idx laid.2.1
             let m : CkMsg := { src := s.device, slot := k.slot, p := k.p, digest := Config.shake256 man 32, off := n, len := man.length }
             (k.coord ≠ s.device → ∃ u, exec i s = .next u ∧ u.ck = { k with st := 4, resume := true, mine := m } ∧ u.sc.n = idx + 1 ∧ u.reg Dict.ckptBytesWritten = n + man.length ∧ u.tells k.coord 0x15 m) ∧
             (k.coord = s.device → k.cmd ≠ none → ¬k.lastAnswer m → ∃ u, exec i s = .next u ∧ u.ck = { k with st := 4, resume := true, mine := m, answers := k.holding m } ∧ u.sc.n = idx + 1 ∧
               u.reg Dict.ckptBytesWritten = n + man.length) ∧
             (k.coord = s.device → k.cmd ≠ none → k.lastAnswer m → (idx + 1 < s.nv.sigEnd → s.CommitsCkpt i) ∧ (s.nv.sigEnd ≤ idx + 1 → s.AbortsCkpt i 4 s.device))))))) ∧
     (∀ link m ok, s.CkArrives link m →
       (let i := Instr.ckptWritten t link m ok
        (∀ ab, k.ended = some (m.p, ab) → ∃ u, exec i s = .next u ∧ u.ck = k ∧ u.tells m.src (if ab then 0x17 else 0x16) { src := s.device, slot := m.slot, p := m.p }) ∧
        ((∀ ab, k.ended ≠ some (m.p, ab)) →
          (k.cmd = none ∨ m.p ≠ k.p → ∃ u, exec i s = .next u ∧ z.sameBut [.warp] u) ∧
          (k.cmd ≠ none → m.p = k.p →
            (¬k.lastAnswer m → ∃ u, exec i s = .next u ∧ u.ck = { k with answers := k.holding m }) ∧
            (k.lastAnswer m → ok = false → active → s.AbortsCkpt i 2 s.device) ∧ (k.lastAnswer m → ok = true → s.nv.sigEnd ≤ s.sc.n → active → s.AbortsCkpt i 4 s.device) ∧
            (k.lastAnswer m → ok = true → s.sc.n < s.nv.sigEnd → s.CommitsCkpt i))))) ∧
     (∀ link m, s.CkArrives link m →
       (let i := Instr.ckptCommit t link m
        (m.r = 0 → k.st = 4 → k.p = m.p → ∃ u, exec i s = .next u ∧ s.TakesCommit m.p m.slot u) ∧
        (m.r ≠ 0 → k.st = 5 → k.r = m.r → ∃ u, exec i s = .next u ∧ u.ck = { k with st := 0, started := false, ended := some (m.r, false) } ∧ z.sameBut [.warp, .checkpoint] u) ∧
        (m.r = 0 ∧ ¬(k.st = 4 ∧ k.p = m.p) ∨ m.r ≠ 0 ∧ ¬(k.st = 5 ∧ k.r = m.r) → ∃ u, exec i s = .next u ∧ z.sameBut [.warp] u))))

/-- R457-R460, R462, R463: a restore is checked and begins at its coordinator, a device that is told of it keeps the shards it accepts and places what is its own, and the command ends when every device is done. -/
def Obligations.RestoresReachEveryDevice : Prop :=
  ∀ (s : State) (t : Nat), s.live = true → s.Linked → Tbl.sorted s.regs → Tbl.sorted s.ss.cq → Tbl.sorted s.ss.rings →
    (let z := s.at t
     let k := s.ck
     (∀ d < 4096, ∀ q rest rec b commits, (s.at t).Starts d 0x59 q rest → (s.at t).Brings d q rec b →
       (let i := Instr.restoreBegin t d rec commits
        let common := s.ckCommon d (descBare q.d && decide (q.d.count = 0) && decide (q.d.dataLen = 128))
        let sound := 2 ≤ s.sigLeft ∧ restoreOk b s.pk.current = true
        let map := (List.range 64).map fun j => le b (64 + j) 1
        (∀ st, common = some st → s.DomDone i d q rest st 0 fun u => u.ck = k) ∧
        (common = none → ¬sound → s.DomDone i d q rest stBad 0 fun u => u.ck = k) ∧
        (common = none → sound → pickCommit (le b 2 1) commits = none → s.DomDone i d q rest stBad 0 fun u => u.ck = k) ∧
        (common = none → sound → ∀ c, pickCommit (le b 2 1) commits = some c → s.DomRuns i d rest (s.runOf d q) fun u =>
          (u.ck.st = 5 ∧ u.ck.slot = c.slot ∧ u.ck.p = c.p ∧ u.ck.r = le b 8 8 ∧ u.ck.filter = le b 4 2 ∧ u.ck.map = map ∧ u.ck.coord = s.device ∧ u.ck.cmd = some (d, (s.dring d).nextId) ∧ u.ck.devs = s.warpDevices ∧
            u.ck.answers = [] ∧ u.ck.started = false ∧ u.ck.doneSent = false) ∧
          ∀ j ∈ s.warpDevices, j ≠ s.device → u.tells j 0x18 { src := s.device, slot := c.slot, p := c.p, r := le b 8 8, filter := le b 4 2, map := map }))) ∧
     (∀ link m commit (ms : List CkManifest), s.CkArrives link m →
       (let i := Instr.restoreNotice t link m commit ms
        let ignored := k.ended = some (m.r, false) ∨ (k.st ≠ 0 ∧ ¬(k.st = 5 ∧ k.started = false ∧ k.r = m.r))
        let shards := ms.flatMap fun x => (x.shards.filter fun sh => decide (m.filter = 0xFFFF) || decide (m.filter = sh.dom)).map fun sh => (x, sh)
        let fine (e : CkManifest × CkShard) : Bool := manifestAccepted commit e.1 && shardAccepted commit e.1 e.2
        let good := shards.filter fine
        let rejects := ms.countP (fun x => !manifestAccepted commit x) + (shards.filter fun e => !fine e).countP fun e => manifestAccepted commit e.1
        (ignored → ∃ u, exec i s = .next u ∧ z.sameBut [.warp] u) ∧
        (¬ignored → m.src ≠ s.device → ∃ u, exec i s = .next u ∧ u.ck.st = 5 ∧ u.ck.slot = m.slot ∧ u.ck.p = m.p ∧ u.ck.r = m.r ∧ u.ck.coord = m.src ∧ u.ck.filter = m.filter ∧ u.ck.map = m.map ∧ u.ck.started = true ∧
          s.countedOn Dict.ckptShardRejectCount 0 rejects u ∧ u.ck.doms = ((good.map fun e => e.2.dom).eraseDups).filter (fun d => (good.filter fun e => e.2.dom == d).all fun e => s.domRestorable e.1 d e.2.epoch) ∧
          (u.ck.doneSent = true ↔ u.ck.todo = []) ∧
          (u.ck.doneSent = true → u.tells m.src 0x19 { src := s.device, slot := m.slot, p := m.p, r := m.r, restored := u.ck.restored, unrestored := u.ck.unrestored })))) ∧
     (∀ link m, s.CkArrives link m →
       (let i := Instr.restoreDone t link m
        let answers := k.holding m
        let n := sumOf (·.restored) answers
        let lost := sumOf (·.unrestored) answers
        let all := ∀ j ∈ k.devs, ∃ a ∈ answers, a.src = j
        (k.ended = some (m.r, false) → ∃ u, exec i s = .next u ∧ u.ck = k ∧ u.tells m.src 0x16 { src := s.device, slot := m.slot, p := m.p, r := m.r }) ∧
        (k.ended ≠ some (m.r, false) →
          (k.cmd = none ∨ m.r ≠ k.r ∨ k.st ≠ 5 → ∃ u, exec i s = .next u ∧ z.sameBut [.warp] u) ∧
          (k.cmd ≠ none → m.r = k.r → k.st = 5 → ¬all → ∃ u, exec i s = .next u ∧ u.ck = { k with answers := answers }) ∧
          (∀ c id r, k.cmd = some (c, id) → m.r = k.r → k.st = 5 → all → s.Runs c r → r.id = id → ∃ u, exec i s = .next u ∧ u.ck = { k with answers := answers, st := 0, cmd := none, started := false, ended := some (k.r, false) } ∧
            (∃ w : State, w.ss.cq = s.ss.cq ∧ w.posts c (Rec.completes r.q (if lost = 0 then stDone else stPartial) n) u) ∧ s.counted Dict.ckptRestoreCount u ∧
            s.notified 0x0803 (beBytes 8 k.p ++ beBytes 8 k.r ++ beBytes 4 n ++ beBytes 4 lost) u ∧ ∀ j ∈ k.devs, j ≠ s.device → u.tells j 0x16 { src := s.device, slot := k.slot, p := k.p, r := k.r })))))

/-- R473, R509, R483, R484 and R237: a CHANNEL fault takes the channel and its children OFF at once, the end of a sweep frees the channel to start again, the audits count or take the FATAL
path, and a tracker operation that timed out is reported.  What the sweep frees at once is the model's choice (log 79). -/
def Obligations.FaultsActAsWritten : Prop :=
  ∀ (s : State) (t : Nat), s.live = true → Tbl.sorted s.fns → Tbl.sorted s.regs →
    (∀ c < 4, ∀ src, (let f := FnId.dom (18 * c + 16)
      ((s.fn f).st ≠ .off → ∃ u, exec (.channelFault t c src) s = .next u ∧ u.fn f = { st := .off, pend := .none, fault := true } ∧ (∀ g ∈ childrenOf f, (u.fn g).st = .off ∧ (u.fn g).pend = .none) ∧
        s.onlyNear f u ∧ s.notified 0x0902 ([c] ++ beBytes 2 src) u) ∧
      ((s.fn f).st = .off → exec (.channelFault t c src) s = .next (s.at t)))) ∧
    (∀ c < 4, (let f := FnId.dom (18 * c + 16)
      (s.fa.sweeping.contains c = true → ∃ u, exec (.channelSweepComplete t c) s = .next u ∧ u.fa.sweeping = s.fa.sweeping.filter (· != c) ∧
        u.fn f = (if (s.fn f).st = .off ∧ (s.fn f).pend = .on ∧ (∀ p, parentOf f = some p → (s.fn p).st = .on) then { s.fn f with st := .starting, pend := .none } else s.fn f) ∧
        (∀ g : FnId, g.exists = true → FnId.isWindow g = false → g ≠ f → u.fn g = s.fn g)) ∧
      (s.fa.sweeping.contains c = false → exec (.channelSweepComplete t c) s = .next (s.at t)))) ∧
    (let due := (s.fa.lastAudit = none ∧ s.pk.lastAct.isSome = true) ∨ ∃ p, s.fa.lastAudit = some p ∧ p + s.reg Dict.auditInterval ≤ s.pk.current
     let laws := [s.auditFrames, s.auditCredits, s.auditBudget, s.auditHomes, s.auditTracker]
     (¬due → exec (.conservationAudit t) s = .next (s.at t)) ∧
     (due → (∀ x ∈ laws, x = none) → ∃ u, exec (.conservationAudit t) s = .next u ∧ u.fa.lastAudit = some s.pk.current ∧ (s.at t).sameBut (.values :: .faults :: noted) u ∧
        ∀ e ∈ [Dict.auditFrames, Dict.auditCredits, Dict.auditBudget, Dict.auditHomes, Dict.auditTracker], s.counted e u) ∧
     (due → s.fa.fatal = false → (∃ x ∈ laws, x ≠ none) → ∃ u, exec (.conservationAudit t) s = .next u ∧ u.pw.pkg = .isolated ∧ beField 32 (u.reg Dict.faultLastFatal) 0 1 = 5)) ∧
    (∀ c < 4, ∀ op x, ((s.tracks c).find? fun y => y.slot == op) = some x →
      (s.now < x.since + 1000000 * s.reg Dict.fabricOpTimeout → t < x.since + 1000000 * s.reg Dict.fabricOpTimeout → exec (.trackerOpTimeout t c op) s = .next (s.at t)) ∧
      (x.since + 1000000 * s.reg Dict.fabricOpTimeout ≤ Nat.max s.now t → ∃ u, exec (.trackerOpTimeout t c op) s = .next u ∧ s.notified 0x1102 [c, x.cls] u ∧
        ((∀ m ∈ s.tm.moves, m.started = true → m.slot ≠ op) → s.se.subs = [] → (∀ e ∈ s.sl.flows, e.2.ops = []) → Tbl.sorted s.fb.track → u.tracks c = (s.tracks c).filter fun y => y.slot != op)))

/-- R494-R496, R499, R502: counters and trace capture change state once their action point has passed, and not before; a window's end copies what the action point left; a full buffer and
`trace.stop_pick` end capture. -/
def Obligations.CountersAndTraceTransition : Prop :=
  ∀ (s : State) (t : Nat), s.live = true → Tbl.sorted s.fns → Tbl.sorted s.mn.mons →
    (∀ f : FnId, f.exists = true → FnId.isCounter f = true →
      ((s.fn f).st = .starting → (s.mon f).counting = true → ∃ u, exec (.monitorTransition t f) s = .next u ∧ s.afterStart f u ∧ s.onlyNear f u) ∧
      ((s.fn f).st = .stopping → (s.mon f).counting = false → ∃ u, exec (.monitorTransition t f) s = .next u ∧ s.afterStop f u ∧ s.onlyNear f u ∧
        (∀ k, f = .hubMon k → (s.fn f).pend ≠ .on → u.mon f = { s.mon f with snap := if (s.mon f).due.isSome then (s.mon f).due else (s.mon f).snap, due := none })) ∧
      (((s.fn f).st = .starting → (s.mon f).counting = false) → ((s.fn f).st = .stopping → (s.mon f).counting = true) → exec (.monitorTransition t f) s = .next (s.at t)) ∧
      ((s.fn f).st = .on → (s.mon f).due.isSome = true → ∃ u, exec (.monitorWindowEnd t f) s = .next u ∧ u.mon f = { s.mon f with snap := (s.mon f).due, due := none } ∧
        (∀ g : FnId, g.exists = true → g ≠ f → u.mon g = s.mon g) ∧ (s.at t).sameBut [.monitors] u) ∧
      (¬((s.fn f).st = .on ∧ (s.mon f).due.isSome = true) → exec (.monitorWindowEnd t f) s = .next (s.at t))) ∧
    (s.mn.trace.due = true →
      ((s.fn .trace).st = .starting → ∃ u, exec (.monitorTransition t .trace) s = .next u ∧ s.afterStart .trace u ∧ s.onlyNear .trace u) ∧
      ((s.fn .trace).st = .stopping → ∃ u, exec (.monitorTransition t .trace) s = .next u ∧ s.afterStop .trace u ∧ s.onlyNear .trace u) ∧
      ((s.fn .trace).st = .on → ∃ u, exec (.traceStopPick t) s = .next u ∧ u.fn .trace = { s.fn .trace with st := .off, pend := .none } ∧ s.onlyNear .trace u)) ∧
    (s.mn.trace.due = false → exec (.monitorTransition t .trace) s = .next (s.at t) ∧ exec (.traceStopPick t) s = .next (s.at t)) ∧
    ((s.fn .trace).st = .on → s.mn.trace.full = true → ∃ u, exec (.traceBufferFull t) s = .next u ∧ u.fn .trace = { s.fn .trace with st := .stopping, pend := .none } ∧
      u.lastNotice 0x0A02 (beBytes 4 s.mn.trace.buf.length) ∧ (s.at t).sameBut (.functions :: .fixedFns :: noted) u) ∧
    ((s.fn .trace).st ≠ .on ∨ s.mn.trace.full = false → exec (.traceBufferFull t) s = .next (s.at t))

/-- R6: a session's channel and slot are the channel and slot fields of its handle, and its home device is the one that the handle's warp device index names; the device's own sessions are at home here. -/
def Obligations.HandleNamesChannelSlotAndHome : Prop :=
  ∀ (s : State), ∀ k < 2 ^ 20, bits (s.handle k) 41 40 = chOf k ∧ bits (s.handle k) 39 22 = k % 2 ^ 18 ∧ handleSlot (s.handle k) = k ∧ handleDev (s.handle k) = s.device % 64

/-- R497: a counter wraps at 2^48, its wrap count rises, and it notifies where its configuration asks for that; value and wraps together are the exact count while the wrap count is below 0xFFFF. -/
def Obligations.CounterWrapsAndKeepsTheExactCount : Prop :=
  ∀ (s : State) (f : FnId) (chan k src qty : Nat), Tbl.sorted s.mn.mons →
    (let m := s.mon f
     let u := s.monAdd f chan k src qty
     let m' := u.mon f
     m'.value = (m.value + qty) % 2 ^ 48 ∧ m'.wraps = Nat.min 0xFFFF (m.wraps + (m.value + qty) / 2 ^ 48) ∧
     (2 ^ 48 ≤ m.value + qty → bit (beField 24 (s.monCfg f) 3 1) 7 = true → s.notified 0x0A01 ([chan, k] ++ beBytes 2 src) u) ∧
     (m'.wraps < 0xFFFF → m'.value + m'.wraps * 2 ^ 48 = m.value + m.wraps * 2 ^ 48 + qty))

/-- R492: while a channel is sealed, an event there that carries another domain than the sealing one is counted by no counter, a channel counter or a hub counter, whatever its filters say. -/
def Obligations.SealedChannelHidesOtherDomains : Prop :=
  ∀ (s : State) (c src qty obj d : Nat) (h : Option Nat), s.isOn (.seal c) = true → d ≠ s.reg Dict.sealDomain c → ∀ f : FnId, (s.ev src (some c) qty obj (some d) h).mon f = s.mon f

/-- R480: in ISOLATED no command is answered, everything volatile is lost, and only FORCE_OFF_N's release and the loss of power lead out.  The volatile state is lost in every state without power or in ISOLATED that is
reached from one of that kind. -/
def Obligations.IsolatedDeviceAnswersAndHoldsNothing : Prop :=
  (∀ (i : Instr) (s u : State), s.pw.pkg = .isolated → exec i s = .next u →
    (u.pw.pkg = .isolated → u.out = s.out) ∧ (u.pw.pkg ≠ .isolated → s.pw.forceOff = true ∧ i = .forceOffRelease i.time ∨ i = .powerRemoval i.time)) ∧
  (∀ s u : State, (s.live = false → s.lostAll) → step s = .next u → u.live = false → u.lostAll)

/-- R9, R378: a Slaisk header is read back from the 32 big-endian bytes that stand for it, with every field at every value that fits its place. -/
def Obligations.SlaiskHeadersAreReadBack : Prop :=
  ∀ h : SHdr, h.Fits → h.bytes.length = 32 ∧ SHdr.parse h.bytes = h ∧ slaiskResv h.bytes = false

/-- R9, R416: a Dernyx flit is read back from the 256 bytes that stand for it, its CRC right, with every field at every value that fits its place. -/
def Obligations.FlitsAreReadBack : Prop :=
  ∀ f : Flit, FlitFits f → (flitBytes f).length = 256 ∧ parseFlit (flitBytes f) = f
end

