-- ==== Sys2Proof/Laws/Tables.lean ====
section
/-! SUPPORT. The sparse tables: writing keeps their canonical form, and what is read after a write. -/

namespace Sys2Proof.Machine

open Sys2Proof

theorem Tbl.erase_mem {α : Type} {m : Tbl α} {i : Nat} {e : Nat × α} (h : e ∈ Tbl.erase m i) : e ∈ m := by
  induction m with
  | nil => exact h
  | cons a m ih =>
    unfold Tbl.erase at h
    split at h
    · exact List.mem_cons_of_mem _ h
    · rcases List.mem_cons.mp h with h | h
      · exact h ▸ List.mem_cons_self
      · exact List.mem_cons_of_mem _ (ih h)

theorem Tbl.insert_mem {α : Type} {m : Tbl α} {i : Nat} {x : α} {e : Nat × α} (h : e ∈ Tbl.insert m i x) : e = (i, x) ∨ e ∈ m := by
  induction m with
  | nil => exact .inl (by simpa [Tbl.insert] using h)
  | cons a m ih =>
    unfold Tbl.insert at h
    split at h
    · rcases List.mem_cons.mp h with h | h
      · exact .inl h
      · exact .inr h
    · split at h
      · rcases List.mem_cons.mp h with h | h
        · exact .inl h
        · exact .inr (List.mem_cons_of_mem _ h)
      · rcases List.mem_cons.mp h with h | h
        · exact .inr (h ▸ List.mem_cons_self)
        · rcases ih h with h | h
          · exact .inl h
          · exact .inr (List.mem_cons_of_mem _ h)

theorem Tbl.put_mem {α : Type} [DecidableEq α] {d : α} {m : Tbl α} {i : Nat} {x : α} {e : Nat × α} (h : e ∈ Tbl.put d m i x) : e = (i, x) ∨ e ∈ m := by
  unfold Tbl.put at h
  split at h
  · exact .inr (Tbl.erase_mem h)
  · exact Tbl.insert_mem h

theorem Tbl.all_erase {α : Type} {m : Tbl α} {i k : Nat} (h : (m.all fun e => decide (k < e.1)) = true) :
    ((Tbl.erase m i).all fun e => decide (k < e.1)) = true := by
  rw [List.all_eq_true] at h ⊢
  exact fun e he => h e (Tbl.erase_mem he)

/-- Erasing keeps the canonical form. -/
theorem Tbl.erase_wf {α : Type} [DecidableEq α] {d : Nat → α} {m : Tbl α} {i : Nat} (h : Tbl.wf d m = true) : Tbl.wf d (Tbl.erase m i) = true := by
  induction m with
  | nil => exact h
  | cons a m ih =>
    simp only [Tbl.wf, Bool.and_eq_true] at h
    unfold Tbl.erase
    split
    · exact h.2
    · simp only [Tbl.wf, Bool.and_eq_true]
      exact ⟨⟨h.1.1, Tbl.all_erase h.1.2⟩, ih h.2⟩

/-- Inserting a value that is not the default keeps the canonical form. -/
theorem Tbl.insert_wf {α : Type} [DecidableEq α] {d : Nat → α} {m : Tbl α} {i : Nat} {x : α} (hx : x ≠ d i) (h : Tbl.wf d m = true) :
    Tbl.wf d (Tbl.insert m i x) = true := by
  induction m with
  | nil => simp [Tbl.insert, Tbl.wf, hx]
  | cons a m ih =>
    simp only [Tbl.wf, Bool.and_eq_true] at h
    unfold Tbl.insert
    split
    · rename_i hl
      simp only [Tbl.wf, Bool.and_eq_true, List.all_cons]
      refine ⟨⟨decide_eq_true hx, decide_eq_true hl, ?_⟩, h⟩
      have h2 := List.all_eq_true.mp h.1.2
      exact List.all_eq_true.mpr fun e he => by have := h2 e he; simp only [decide_eq_true_eq] at this ⊢; omega
    · split
      · rename_i _ e
        subst e
        simp only [Tbl.wf, Bool.and_eq_true]
        exact ⟨⟨decide_eq_true hx, h.1.2⟩, h.2⟩
      · simp only [Tbl.wf, Bool.and_eq_true]
        refine ⟨⟨h.1.1, ?_⟩, ih h.2⟩
        refine List.all_eq_true.mpr fun e he => ?_
        rcases Tbl.insert_mem he with he | he
        · simp only [he, decide_eq_true_eq]; omega
        · exact List.all_eq_true.mp h.1.2 e he

/-- Writing keeps the canonical form. -/
theorem Tbl.put_wf {α : Type} [DecidableEq α] {d : α} {m : Tbl α} {i : Nat} {x : α} (h : Tbl.wf (fun _ => d) m = true) :
    Tbl.wf (fun _ => d) (Tbl.put d m i x) = true := by
  unfold Tbl.put
  split
  · exact Tbl.erase_wf h
  · rename_i hx
    exact Tbl.insert_wf hx h

/-- A table in canonical form has its keys strictly rising. -/
theorem Tbl.wf_sorted {α : Type} [DecidableEq α] {d : Nat → α} {m : Tbl α} (h : Tbl.wf d m = true) : Tbl.sorted m := by
  induction m with
  | nil => exact List.Pairwise.nil
  | cons a m ih =>
    simp only [Tbl.wf, Bool.and_eq_true] at h
    exact List.pairwise_cons.mpr ⟨fun e he => by simpa using List.all_eq_true.mp h.1.2 e he, ih h.2⟩

/-- Erasing keeps the keys rising. -/
theorem Tbl.erase_sorted {α : Type} {m : Tbl α} {i : Nat} (h : Tbl.sorted m) : Tbl.sorted (Tbl.erase m i) := by
  induction m with
  | nil => exact h
  | cons a m ih =>
    obtain ⟨h1, h2⟩ := List.pairwise_cons.mp h
    unfold Tbl.erase
    split
    · exact h2
    · exact List.pairwise_cons.mpr ⟨fun e he => h1 e (Tbl.erase_mem he), ih h2⟩

/-- Inserting keeps the keys rising. -/
theorem Tbl.insert_sorted {α : Type} {m : Tbl α} {i : Nat} {x : α} (h : Tbl.sorted m) : Tbl.sorted (Tbl.insert m i x) := by
  induction m with
  | nil => exact List.pairwise_singleton _ _
  | cons a m ih =>
    obtain ⟨h1, h2⟩ := List.pairwise_cons.mp h
    unfold Tbl.insert
    split
    · rename_i hl
      refine List.pairwise_cons.mpr ⟨fun e he => ?_, h⟩
      rcases List.mem_cons.mp he with rfl | he
      · exact hl
      · exact Nat.lt_trans hl (h1 e he)
    · split
      · rename_i e
        exact List.pairwise_cons.mpr ⟨fun b hb => e ▸ h1 b hb, h2⟩
      · refine List.pairwise_cons.mpr ⟨fun e he => ?_, ih h2⟩
        rcases Tbl.insert_mem he with rfl | he
        · dsimp only; omega
        · exact h1 e he

/-- Writing keeps the keys rising. -/
theorem Tbl.put_sorted {α : Type} [DecidableEq α] {d : α} {m : Tbl α} {i : Nat} {x : α} (h : Tbl.sorted m) : Tbl.sorted (Tbl.put d m i x) := by
  unfold Tbl.put
  split
  · exact Tbl.erase_sorted h
  · exact Tbl.insert_sorted h

/-- A key below all that a table lists reads as the default. -/
theorem Tbl.get_below {α : Type} {d : α} {m : Tbl α} {j : Nat} (h : ∀ e ∈ m, j < e.1) : Tbl.get d m j = d := by
  induction m with
  | nil => rfl
  | cons a m ih =>
    have := h a List.mem_cons_self
    unfold Tbl.get
    rw [if_neg (by omega)]
    exact ih fun e he => h e (List.mem_cons_of_mem _ he)

/-- Reading after erasing. -/
theorem Tbl.get_erase {α : Type} {d : α} {m : Tbl α} {i j : Nat} (h : Tbl.sorted m) :
    Tbl.get d (Tbl.erase m i) j = if j = i then d else Tbl.get d m j := by
  induction m with
  | nil => simp [Tbl.erase, Tbl.get]
  | cons a m ih =>
    obtain ⟨h1, h2⟩ := List.pairwise_cons.mp h
    unfold Tbl.erase
    split
    · rename_i e
      split
      · rename_i e'
        exact Tbl.get_below fun b hb => by have := h1 b hb; omega
      · rename_i e'
        conv => rhs; unfold Tbl.get
        rw [if_neg (by omega)]
    · rename_i e
      conv => lhs; unfold Tbl.get
      conv => rhs; unfold Tbl.get
      rw [ih h2]
      split
      · rw [if_neg (by omega)]
      · rfl

/-- Reading after inserting. -/
theorem Tbl.get_insert {α : Type} {d : α} {m : Tbl α} {i j : Nat} {x : α} :
    Tbl.get d (Tbl.insert m i x) j = if j = i then x else Tbl.get d m j := by
  induction m with
  | nil => simp only [Tbl.insert, Tbl.get]
  | cons a m ih =>
    unfold Tbl.insert
    split
    · rfl
    · split
      · rename_i e
        unfold Tbl.get
        split
        · rfl
        · rw [if_neg (by omega)]
      · unfold Tbl.get
        rw [ih]
        split
        · rw [if_neg (by omega)]
        · rfl

/-- Reading after writing: the value written at its key, and what stood before at every other. -/
theorem Tbl.get_put {α : Type} [DecidableEq α] {d : α} {m : Tbl α} {i j : Nat} {x : α} (h : Tbl.sorted m) :
    Tbl.get d (Tbl.put d m i x) j = if j = i then x else Tbl.get d m j := by
  unfold Tbl.put
  split
  · rename_i e
    rw [Tbl.get_erase h, e]
  · exact Tbl.get_insert

/-- Reading another key after writing. -/
theorem Tbl.get_put_ne {α : Type} [DecidableEq α] {c d : α} {m : Tbl α} {i j : Nat} {x : α} (h : j ≠ i) :
    Tbl.get c (Tbl.put d m i x) j = Tbl.get c m j := by
  unfold Tbl.put
  split
  · induction m with
    | nil => rfl
    | cons a m ih =>
      unfold Tbl.erase
      split
      · conv => rhs; unfold Tbl.get
        rw [if_neg (by omega)]
      · unfold Tbl.get
        rw [ih]
  · rw [Tbl.get_insert, if_neg h]

end Sys2Proof.Machine
end

