-- ==== Sys2Proof/Laws/Keeps.lean ====
section
/-! SUPPORT. What an operation can do to the state, said once: a predicate that holds before it and is kept by each of the changes that the
operation is made of holds after it.  `Prim` names the changes, `Stable T P` says that P is kept by those in T, and each operation has one
lemma `<its name>_keeps` with the changes it is made of.  Frames (P says that a part of the state has a given value) and
invariants both follow from these lemmas. -/

namespace Sys2Proof.Machine

open Sys2Proof

/-- The throttle level stays within its range (R23). -/
def PwSide (s : State) (x : Power) : Prop := s.pw.level ≤ 8 → x.level ≤ 8

/-- The intervals in the mean stay 16 at most (R59). -/
def PkSide (s : State) (x : Pick) : Prop := s.pk.intervals.length ≤ 16 → x.intervals.length ≤ 16

/-- The trace buffer stays within its size (R502). -/
def MnSide (s : State) (x : Monitors) : Prop := s.mn.trace.buf.length ≤ 524288 → x.trace.buf.length ≤ 524288

/-- The fused SVN does not fall (R106), and a claimed package stays claimed (R82). -/
def NvSide (s : State) (x : NV) : Prop := s.nv.fusedSvn ≤ x.fusedSvn ∧ (s.nv.claimed = true → x.claimed = true)

/-- Windows keep their bytes, or have none. -/
def SlSide (s : State) (x : Slaisk) : Prop := ∀ e ∈ x.wins, e.2.mem = [] ∨ ∃ e' ∈ s.sl.wins, e'.2.mem = e.2.mem

/-- Dictionary values are only taken away. -/
def RegsSide (s : State) (x : Tbl Nat) : Prop := x.Sublist s.regs

/-- A window's bytes stay in canonical form. -/
def WinSide (s : State) (i : Nat) (w : Window) : Prop := memWf (s.win i).mem = true → memWf w.mem = true

theorem PwSide.mk {s : State} {x : Power} (h : s.pw.level ≤ 8 → x.level ≤ 8) : PwSide s x := h

theorem PkSide.mk {s : State} {x : Pick} (h : s.pk.intervals.length ≤ 16 → x.intervals.length ≤ 16) : PkSide s x := h

theorem MnSide.mk {s : State} {x : Monitors} (h : s.mn.trace.buf.length ≤ 524288 → x.trace.buf.length ≤ 524288) : MnSide s x := h

theorem NvSide.mk {s : State} {x : NV} (h : s.nv.fusedSvn ≤ x.fusedSvn ∧ (s.nv.claimed = true → x.claimed = true)) : NvSide s x := h

theorem SlSide.mk {s : State} {x : Slaisk} (h : ∀ e ∈ x.wins, e.2.mem = [] ∨ ∃ e' ∈ s.sl.wins, e'.2.mem = e.2.mem) : SlSide s x := h

theorem RegsSide.mk {s : State} {x : Tbl Nat} (h : x.Sublist s.regs) : RegsSide s x := h

theorem WinSide.mk {s : State} {i : Nat} {w : Window} (h : memWf (s.win i).mem = true → memWf w.mem = true) : WinSide s i w := h

/-- Writing bytes into a window keeps the canonical form. -/
theorem Window.write_wf {w : Window} {off : Nat} {data : Bytes} (h : memWf w.mem = true) : memWf (w.write off data).mem = true := by
  unfold Window.write
  dsimp only
  generalize (List.range data.length).zip data = l
  revert h
  generalize w.mem = m
  intro h
  induction l generalizing m with
  | nil => exact h
  | cons a l ih => exact ih _ (Tbl.put_wf h)

/-- A window's new bytes are its old ones, none, or those that a write leaves. -/
theorem WinSide.write {s : State} {i : Nat} {off : Nat} {data : Bytes} : WinSide s i ((s.win i).write off data) := fun h => Window.write_wf h

/-- The changes that operations are made of.  A component's name is an update of it that leaves certain fields as they were
(`Prim.Ok` names them); the name with `Any` is any update of it. -/
inductive Prim where
  | out | pending | regs | nv | nvAny | pw | pwAny | pk | pkAny | wr | sc | scAny | ss | tm | fb | sv | tx | se | sl | slAny | et | dx | ck | fa | mn | mnAny | ctr | reg | fn | wfn | stamp | notify | journal | ev | off | iso | win
  deriving DecidableEq, Repr

/-- A predicate is kept by a change. -/
def Prim.Ok (P : State → Prop) : Prim → Prop
  | .out => ∀ (s : State) (x : Output), P s → P (s.send x)
  | .pending => ∀ (s : State) (x : List Instr), P s → P { s with pending := x }
  | .regs => ∀ (s : State) (x : Tbl Nat), RegsSide s x → P s → P { s with regs := x }
  | .nv => ∀ (s : State) (x : NV), NV.rest x = NV.rest s.nv → P s → P { s with nv := x }
  | .nvAny => ∀ (s : State) (x : NV), NvSide s x → P s → P { s with nv := x }
  | .pw => ∀ (s : State) (x : Power), Power.rest x = Power.rest s.pw → P s → P { s with pw := x }
  | .pwAny => ∀ (s : State) (x : Power), PwSide s x → P s → P { s with pw := x }
  | .pk => ∀ (s : State) (x : Pick), Pick.rest x = Pick.rest s.pk → P s → P { s with pk := x }
  | .pkAny => ∀ (s : State) (x : Pick), PkSide s x → P s → P { s with pk := x }
  | .wr => ∀ (s : State) (x : Welrid), x.nlog = s.wr.nlog → x.nseq = s.wr.nseq → P s → P { s with wr := x }
  | .sc => ∀ (s : State) (x : Security), Security.rest x = Security.rest s.sc → P s → P { s with sc := x }
  | .scAny => ∀ (s : State) (x : Security), P s → P { s with sc := x }
  | .ss => ∀ (s : State) (x : Sessions), P s → P { s with ss := x }
  | .tm => ∀ (s : State) (x : Tiers), P s → P { s with tm := x }
  | .fb => ∀ (s : State) (x : Fabric), P s → P { s with fb := x }
  | .sv => ∀ (s : State) (x : Step), P s → P { s with sv := x }
  | .tx => ∀ (s : State) (x : Text), P s → P { s with tx := x }
  | .se => ∀ (s : State) (x : Search), P s → P { s with se := x }
  | .sl => ∀ (s : State) (x : Slaisk), x.wins = s.sl.wins → P s → P { s with sl := x }
  | .slAny => ∀ (s : State) (x : Slaisk), SlSide s x → P s → P { s with sl := x }
  | .et => ∀ (s : State) (x : Eth), P s → P { s with et := x }
  | .dx => ∀ (s : State) (x : Dernyx), P s → P { s with dx := x }
  | .ck => ∀ (s : State) (x : Ckpt), P s → P { s with ck := x }
  | .fa => ∀ (s : State) (x : Faults), x.journal = s.fa.journal → P s → P { s with fa := x }
  | .mn => ∀ (s : State) (x : Monitors), x.trace = s.mn.trace → P s → P { s with mn := x }
  | .mnAny => ∀ (s : State) (x : Monitors), MnSide s x → P s → P { s with mn := x }
  | .ctr => ∀ (s : State) (e : Entry) (v sub i : Nat), e.acc = .ro → P s → P (s.setReg e v sub i)
  | .reg => ∀ (s : State) (e : Entry) (v sub i : Nat), P s → P (s.setReg e v sub i)
  | .fn => ∀ (s : State) (f : FnId) (r : Fn), P s → P (s.setFn f r)
  | .wfn => ∀ (s : State) (i : Nat) (r : Fn), P s → P (s.setFn (.window i) r)
  | .stamp => ∀ (s : State), P s → P s.tookStamp
  | .notify => ∀ (s : State) (via : Assoc → List Nat) (r : Nat) (d : Bytes), P s → P (s.notifyVia via r d)
  | .journal => ∀ (s : State) (a b c d e : Nat) (f : Bytes) (g : Nat), P s → P (s.journal a b c d e f g)
  | .ev => ∀ (s : State) (a : Nat) (b : Option Nat) (c d : Nat) (e f : Option Nat), P s → P (s.ev a b c d e f)
  | .off => ∀ (s : State), P s → P (unpowered s)
  | .iso => ∀ (s : State), P s → P (offline s)
  | .win => ∀ (s : State) (i : Nat) (w : Window), WinSide s i w → P s → P (s.setWin i w)

/-- A predicate is kept by every change of a list. -/
def Stable (T : List Prim) (P : State → Prop) : Prop := ∀ p ∈ T, p.Ok P

variable {P : State → Prop} {T U : List Prim}

theorem Stable.mono (h : Stable T P) (e : U.all (fun p => T.contains p) = true) : Stable U P := fun p hp =>
  h p (by simpa using List.all_eq_true.mp e p hp)

theorem Stable.out (h : Stable T P) (e : T.contains .out = true) : ∀ (s : State) (x : Output), P s → P (s.send x) := h .out (by simpa using e)

theorem Stable.pending (h : Stable T P) (e : T.contains .pending = true) : ∀ (s : State) (x : List Instr), P s → P { s with pending := x } := h .pending (by simpa using e)

theorem Stable.regs (h : Stable T P) (e : T.contains .regs = true) : ∀ (s : State) (x : Tbl Nat), RegsSide s x → P s → P { s with regs := x } := h .regs (by simpa using e)

theorem Stable.nv (h : Stable T P) (e : T.contains .nv = true) : ∀ (s : State) (x : NV), NV.rest x = NV.rest s.nv → P s → P { s with nv := x } := h .nv (by simpa using e)

theorem Stable.nvAny (h : Stable T P) (e : T.contains .nvAny = true) : ∀ (s : State) (x : NV), NvSide s x → P s → P { s with nv := x } := h .nvAny (by simpa using e)

theorem Stable.pw (h : Stable T P) (e : T.contains .pw = true) : ∀ (s : State) (x : Power), Power.rest x = Power.rest s.pw → P s → P { s with pw := x } := h .pw (by simpa using e)

theorem Stable.pwAny (h : Stable T P) (e : T.contains .pwAny = true) : ∀ (s : State) (x : Power), PwSide s x → P s → P { s with pw := x } := h .pwAny (by simpa using e)

theorem Stable.pk (h : Stable T P) (e : T.contains .pk = true) : ∀ (s : State) (x : Pick), Pick.rest x = Pick.rest s.pk → P s → P { s with pk := x } := h .pk (by simpa using e)

theorem Stable.pkAny (h : Stable T P) (e : T.contains .pkAny = true) : ∀ (s : State) (x : Pick), PkSide s x → P s → P { s with pk := x } := h .pkAny (by simpa using e)

theorem Stable.wr (h : Stable T P) (e : T.contains .wr = true) : ∀ (s : State) (x : Welrid), x.nlog = s.wr.nlog → x.nseq = s.wr.nseq → P s → P { s with wr := x } := h .wr (by simpa using e)

theorem Stable.sc (h : Stable T P) (e : T.contains .sc = true) : ∀ (s : State) (x : Security), Security.rest x = Security.rest s.sc → P s → P { s with sc := x } := h .sc (by simpa using e)

theorem Stable.scAny (h : Stable T P) (e : T.contains .scAny = true) : ∀ (s : State) (x : Security), P s → P { s with sc := x } := h .scAny (by simpa using e)

theorem Stable.ss (h : Stable T P) (e : T.contains .ss = true) : ∀ (s : State) (x : Sessions), P s → P { s with ss := x } := h .ss (by simpa using e)

theorem Stable.tm (h : Stable T P) (e : T.contains .tm = true) : ∀ (s : State) (x : Tiers), P s → P { s with tm := x } := h .tm (by simpa using e)

theorem Stable.fb (h : Stable T P) (e : T.contains .fb = true) : ∀ (s : State) (x : Fabric), P s → P { s with fb := x } := h .fb (by simpa using e)

theorem Stable.sv (h : Stable T P) (e : T.contains .sv = true) : ∀ (s : State) (x : Step), P s → P { s with sv := x } := h .sv (by simpa using e)

theorem Stable.tx (h : Stable T P) (e : T.contains .tx = true) : ∀ (s : State) (x : Text), P s → P { s with tx := x } := h .tx (by simpa using e)

theorem Stable.se (h : Stable T P) (e : T.contains .se = true) : ∀ (s : State) (x : Search), P s → P { s with se := x } := h .se (by simpa using e)

theorem Stable.sl (h : Stable T P) (e : T.contains .sl = true) : ∀ (s : State) (x : Slaisk), x.wins = s.sl.wins → P s → P { s with sl := x } := h .sl (by simpa using e)

theorem Stable.slAny (h : Stable T P) (e : T.contains .slAny = true) : ∀ (s : State) (x : Slaisk), SlSide s x → P s → P { s with sl := x } := h .slAny (by simpa using e)

theorem Stable.et (h : Stable T P) (e : T.contains .et = true) : ∀ (s : State) (x : Eth), P s → P { s with et := x } := h .et (by simpa using e)

theorem Stable.dx (h : Stable T P) (e : T.contains .dx = true) : ∀ (s : State) (x : Dernyx), P s → P { s with dx := x } := h .dx (by simpa using e)

theorem Stable.ck (h : Stable T P) (e : T.contains .ck = true) : ∀ (s : State) (x : Ckpt), P s → P { s with ck := x } := h .ck (by simpa using e)

theorem Stable.fa (h : Stable T P) (e : T.contains .fa = true) : ∀ (s : State) (x : Faults), x.journal = s.fa.journal → P s → P { s with fa := x } := h .fa (by simpa using e)

theorem Stable.mn (h : Stable T P) (e : T.contains .mn = true) : ∀ (s : State) (x : Monitors), x.trace = s.mn.trace → P s → P { s with mn := x } := h .mn (by simpa using e)

theorem Stable.mnAny (h : Stable T P) (e : T.contains .mnAny = true) : ∀ (s : State) (x : Monitors), MnSide s x → P s → P { s with mn := x } := h .mnAny (by simpa using e)

theorem Stable.ctr (h : Stable T P) (e : T.contains .ctr = true) : ∀ (s : State) (e : Entry) (v sub i : Nat), e.acc = .ro → P s → P (s.setReg e v sub i) := h .ctr (by simpa using e)

theorem Stable.reg (h : Stable T P) (e : T.contains .reg = true) : ∀ (s : State) (e : Entry) (v sub i : Nat), P s → P (s.setReg e v sub i) := h .reg (by simpa using e)

theorem Stable.fn (h : Stable T P) (e : T.contains .fn = true) : ∀ (s : State) (f : FnId) (r : Fn), P s → P (s.setFn f r) := h .fn (by simpa using e)

theorem Stable.wfn (h : Stable T P) (e : T.contains .wfn = true) : ∀ (s : State) (i : Nat) (r : Fn), P s → P (s.setFn (.window i) r) := h .wfn (by simpa using e)

theorem Stable.stamp (h : Stable T P) (e : T.contains .stamp = true) : ∀ (s : State), P s → P s.tookStamp := h .stamp (by simpa using e)

theorem Stable.notifyVia (h : Stable T P) (e : T.contains .notify = true) : ∀ (s : State) (via : Assoc → List Nat) (r : Nat) (d : Bytes), P s → P (s.notifyVia via r d) := h .notify (by simpa using e)

theorem Stable.notify (h : Stable T P) (e : T.contains .notify = true) : ∀ (s : State) (r : Nat) (d : Bytes), P s → P (s.notify r d) := fun s => h.notifyVia e s _

theorem Stable.journal (h : Stable T P) (e : T.contains .journal = true) : ∀ (s : State) (a b c d e : Nat) (f : Bytes) (g : Nat), P s → P (s.journal a b c d e f g) := h .journal (by simpa using e)

theorem Stable.ev (h : Stable T P) (e : T.contains .ev = true) : ∀ (s : State) (a : Nat) (b : Option Nat) (c d : Nat) (e f : Option Nat), P s → P (s.ev a b c d e f) := h .ev (by simpa using e)

theorem Stable.off (h : Stable T P) (e : T.contains .off = true) : ∀ (s : State), P s → P (unpowered s) := h .off (by simpa using e)

theorem Stable.iso (h : Stable T P) (e : T.contains .iso = true) : ∀ (s : State), P s → P (offline s) := h .iso (by simpa using e)

theorem Stable.win (h : Stable T P) (e : T.contains .win = true) : ∀ (s : State) (i : Nat) (w : Window), WinSide s i w → P s → P (s.setWin i w) := h .win (by simpa using e)

theorem Stable.ctrInc (h : Stable T P) (e : T.contains .ctr = true) : ∀ (s : State) (x : Entry) (n sub i : Nat), x.acc = .ro → P s → P (s.inc x n sub i) :=
  fun s x _ sub i hx hs => h.ctr e s x _ sub i hx hs

theorem Stable.regInc (h : Stable T P) (e : T.contains .reg = true) : ∀ (s : State) (x : Entry) (n sub i : Nat), P s → P (s.inc x n sub i) :=
  fun s x _ sub i hs => h.reg e s x _ sub i hs

theorem Stable.ctrMax (h : Stable T P) (e : T.contains .ctr = true) : ∀ (s : State) (x : Entry) (n sub i : Nat), x.acc = .ro → P s → P (s.maxReg x n sub i) := by
  intro s x n sub i hx hs
  unfold State.maxReg
  split
  · exact h.ctr e s x n sub i hx hs
  · exact hs

theorem Stable.regMax (h : Stable T P) (e : T.contains .reg = true) : ∀ (s : State) (x : Entry) (n sub i : Nat), P s → P (s.maxReg x n sub i) := by
  intro s x n sub i hs
  unfold State.maxReg
  split
  · exact h.reg e s x n sub i hs
  · exact hs

theorem Stable.store (h : Stable T P) (e : T.contains .ctr = true) : ∀ s : State, P s → P s.store :=
  fun s hs => h.ctrInc e s _ _ _ _ rfl hs

theorem classCount_ro (c : Nat) : (classCount c).acc = .ro := by
  unfold classCount
  split <;> [rfl; (split <;> [rfl; (split <;> rfl)])]

theorem ite_ro {c : Prop} [Decidable c] {a b : Entry} (h1 : a.acc = .ro) (h2 : b.acc = .ro) : (if c then a else b).acc = .ro := by split <;> assumption

/-! ## Updates of several components at once -/

theorem Stable.RegsNv (h : Stable T P) (e0 : T.contains .regs = true) (e1 : T.contains .nvAny = true) : ∀ (s : State) (x0 : Tbl Nat) (x1 : NV), RegsSide s x0 → NvSide s x1 → P s → P { s with regs := x0, nv := x1 } := by
  intro s x0 x1 q0 q1 hs
  have hs := h.regs e0 s x0 q0 hs
  have hs := h.nvAny e1 { s with regs := x0 } x1 q1 hs
  exact hs

theorem Stable.TmFbSl (h : Stable T P) (e0 : T.contains .tm = true) (e1 : T.contains .fb = true) (e2 : T.contains .slAny = true) : ∀ (s : State) (x0 : Tiers) (x1 : Fabric) (x2 : Slaisk), SlSide s x2 → P s → P { s with tm := x0, fb := x1, sl := x2 } := by
  intro s x0 x1 x2 q0 hs
  have hs := h.tm e0 s x0  hs
  have hs := h.fb e1 { s with tm := x0 } x1  hs
  have hs := h.slAny e2 { s with tm := x0, fb := x1 } x2 q0 hs
  exact hs

theorem Stable.SvCk (h : Stable T P) (e0 : T.contains .sv = true) (e1 : T.contains .ck = true) : ∀ (s : State) (x0 : Step) (x1 : Ckpt), P s → P { s with sv := x0, ck := x1 } := by
  intro s x0 x1  hs
  have hs := h.sv e0 s x0  hs
  have hs := h.ck e1 { s with sv := x0 } x1  hs
  exact hs

theorem Stable.NvPwPkWrScTmSvSlDx (h : Stable T P) (e0 : T.contains .nvAny = true) (e1 : T.contains .pwAny = true) (e2 : T.contains .pkAny = true) (e3 : T.contains .wr = true) (e4 : T.contains .scAny = true) (e5 : T.contains .tm = true) (e6 : T.contains .sv = true) (e7 : T.contains .sl = true) (e8 : T.contains .dx = true) : ∀ (s : State) (x0 : NV) (x1 : Power) (x2 : Pick) (x3 : Welrid) (x4 : Security) (x5 : Tiers) (x6 : Step) (x7 : Slaisk) (x8 : Dernyx), NvSide s x0 → PwSide s x1 → PkSide s x2 → x3.nlog = s.wr.nlog → x3.nseq = s.wr.nseq → x7.wins = s.sl.wins → P s → P { s with nv := x0, pw := x1, pk := x2, wr := x3, sc := x4, tm := x5, sv := x6, sl := x7, dx := x8 } := by
  intro s x0 x1 x2 x3 x4 x5 x6 x7 x8 q0 q1 q2 q3 q4 q5 hs
  have hs := h.nvAny e0 s x0 q0 hs
  have hs := h.pwAny e1 { s with nv := x0 } x1 q1 hs
  have hs := h.pkAny e2 { s with nv := x0, pw := x1 } x2 q2 hs
  have hs := h.wr e3 { s with nv := x0, pw := x1, pk := x2 } x3 q3 q4 hs
  have hs := h.scAny e4 { s with nv := x0, pw := x1, pk := x2, wr := x3 } x4  hs
  have hs := h.tm e5 { s with nv := x0, pw := x1, pk := x2, wr := x3, sc := x4 } x5  hs
  have hs := h.sv e6 { s with nv := x0, pw := x1, pk := x2, wr := x3, sc := x4, tm := x5 } x6  hs
  have hs := h.sl e7 { s with nv := x0, pw := x1, pk := x2, wr := x3, sc := x4, tm := x5, sv := x6 } x7 q5 hs
  have hs := h.dx e8 { s with nv := x0, pw := x1, pk := x2, wr := x3, sc := x4, tm := x5, sv := x6, sl := x7 } x8  hs
  exact hs

theorem Stable.TmFa (h : Stable T P) (e0 : T.contains .tm = true) (e1 : T.contains .fa = true) : ∀ (s : State) (x0 : Tiers) (x1 : Faults), x1.journal = s.fa.journal → P s → P { s with tm := x0, fa := x1 } := by
  intro s x0 x1 q0 hs
  have hs := h.tm e0 s x0  hs
  have hs := h.fa e1 { s with tm := x0 } x1 q0 hs
  exact hs

/-! ## Results that hold a state -/

/-- Every value in an optional result meets Q. -/
def OkOpt {β : Type} (Q : β → Prop) (x : Option β) : Prop := ∀ b, x = some b → Q b

/-- Every state in an optional result meets P. -/
abbrev OkO (P : State → Prop) (x : Option State) : Prop := OkOpt P x

/-- The state beside a value meets P. -/
def OkP {α : Type} (P : State → Prop) (x : α × State) : Prop := P x.2

/-- The state before a value meets P. -/
def OkP1 {α : Type} (P : State → Prop) (x : State × α) : Prop := P x.1

/-- Every state beside a value in an optional result meets P. -/
abbrev OkOP {α : Type} (P : State → Prop) (x : Option (α × State)) : Prop := OkOpt (fun p => P p.2) x

/-- As `OkOP`, beside two values. -/
abbrev OkOPP {α β : Type} (P : State → Prop) (x : Option (α × β × State)) : Prop := OkOpt (fun p => P p.2.2) x

/-- The state beside two values meets P. -/
def OkPP {α β : Type} (P : State → Prop) (x : α × β × State) : Prop := P x.2.2

/-- The state between two values meets P. -/
def OkM {α β : Type} (P : State → Prop) (x : α × State × β) : Prop := P x.2.1

/-- The next state, where there is one, meets P. -/
def OkX (P : State → Prop) (x : Host.Outcome State Fault Refusal) : Prop := ∀ t, x = .next t → P t

/-- A request's act keeps P: before its reply, and in what follows the reply. -/
def ActOk (P : State → Prop) (act : WAct) : Prop := ∀ a s, P s → P (act a s).2.1 ∧ ∀ u, P u → P ((act a s).2.2 u)

theorem ActOk.err {r : WReply} {s : State} (hs : P s) : P (r, s, (id : State → State)).2.1 ∧ ∀ u, P u → P ((r, s, (id : State → State)).2.2 u) :=
  ⟨hs, fun _ hu => hu⟩

theorem OkOpt.some {β : Type} {Q : β → Prop} {b : β} (h : Q b) : OkOpt Q (some b) := fun t e => by cases e; exact h

theorem OkOpt.none {β : Type} {Q : β → Prop} : OkOpt Q none := fun t e => by cases e

theorem OkOpt.any {β : Type} {x : Option β} : OkOpt (fun _ => True) x := fun _ _ => trivial

theorem OkOpt.map {β γ : Type} {Q : β → Prop} {R : γ → Prop} {x : Option β} {f : β → γ} (h : OkOpt Q x) (hf : ∀ b, Q b → R (f b)) :
    OkOpt R (x.map f) := by
  cases x with
  | none => exact OkOpt.none
  | some b => exact OkOpt.some (hf b (h b rfl))

theorem OkOpt.bind {β γ : Type} {Q : β → Prop} {R : γ → Prop} {x : Option β} {f : β → Option γ} (h : OkOpt Q x)
    (hf : ∀ b, Q b → OkOpt R (f b)) : OkOpt R (x.bind f) := by
  cases x with
  | none => exact OkOpt.none
  | some b => exact hf b (h b rfl)

theorem OkOpt.find {α β : Type} {Q : β → Prop} {l : List α} {f : α → Option β} (hf : ∀ a, OkOpt Q (f a)) : OkOpt Q (l.findSome? f) := by
  induction l with
  | nil => exact OkOpt.none
  | cons a l ih =>
    rw [List.findSome?_cons]
    split
    · rename_i b e
      exact OkOpt.some (hf a b e)
    · exact ih

theorem OkOpt.fold {α β : Type} {Q : β → Prop} {l : List α} {f : Option β → α → Option β} {x : Option β} (hf : ∀ o a, OkOpt Q o → OkOpt Q (f o a))
    (hx : OkOpt Q x) : OkOpt Q (l.foldl f x) := by
  induction l generalizing x with
  | nil => exact hx
  | cons a l ih => exact ih (hf x a hx)

theorem OkOpt.getD {x : Option State} {s : State} (h : OkOpt P x) (hs : P s) : P (x.getD s) := by
  cases x with
  | none => exact hs
  | some b => exact h b rfl

theorem OkO.get {x : Option State} {t : State} (e : x = Option.some t) (h : OkOpt P x) : P t := h t e

theorem OkP.mk {α : Type} {a : α} {s : State} (h : P s) : OkP P (a, s) := h

theorem OkP.get {α : Type} {x : α × State} {a : α} {t : State} (e : x = (a, t)) (h : OkP P x) : P t := by subst e; exact h

theorem OkP.snd {α : Type} {x : α × State} (h : OkP P x) : P x.2 := h

theorem OkP1.mk {α : Type} {a : α} {s : State} (h : P s) : OkP1 P (s, a) := h

theorem OkP1.fst {α : Type} {x : State × α} (h : OkP1 P x) : P x.1 := h

theorem OkOP.get {α : Type} {x : Option (α × State)} {a : α} {t : State} (e : x = Option.some (a, t)) (h : OkOpt (fun p => P p.2) x) : P t :=
  h (a, t) e

theorem OkOPP.get {α β : Type} {x : Option (α × β × State)} {a : α} {b : β} {t : State} (e : x = Option.some (a, b, t))
    (h : OkOpt (fun p => P p.2.2) x) : P t := h (a, b, t) e

theorem OkPP.mk {α β : Type} {a : α} {b : β} {s : State} (h : P s) : OkPP P (a, b, s) := h

theorem OkPP.get {α β : Type} {x : α × β × State} {a : α} {b : β} {t : State} (e : x = (a, b, t)) (h : OkPP P x) : P t := by subst e; exact h

theorem OkM.mk {α β : Type} {a : α} {b : β} {s : State} (h : P s) : OkM P (a, s, b) := h

/-! ## Control -/

theorem iteOpt_keeps {β : Type} {Q : β → Prop} {c : Prop} [Decidable c] {a b : Option β} (h1 : OkOpt Q a) (h2 : OkOpt Q b) :
    OkOpt Q (if c then a else b) := by split <;> assumption

theorem iteP_keeps {α : Type} {c : Prop} [Decidable c] {a b : α × State} (h1 : OkP P a) (h2 : OkP P b) : OkP P (if c then a else b) := by
  split <;> assumption

theorem ite_keeps {c : Prop} [Decidable c] {a b : State} (h1 : P a) (h2 : P b) : P (if c then a else b) := by split <;> assumption

theorem id_keeps {s : State} (hs : P s) : P (id s) := hs

theorem each_keeps {α : Type} {l : List α} {f : α → State → State} {s : State} (hf : ∀ a s, P s → P (f a s)) (hs : P s) : P (s.each l f) := by
  unfold State.each
  induction l generalizing s with
  | nil => exact hs
  | cons a l ih => exact ih (hf a s hs)

theorem foldl_keeps {α : Type} {l : List α} {f : State → α → State} {s : State} (hf : ∀ s a, P s → P (f s a)) (hs : P s) : P (l.foldl f s) := by
  induction l generalizing s with
  | nil => exact hs
  | cons a l ih => exact ih (hf s a hs)

theorem foldP_keeps {α β : Type} {l : List α} {f : β × State → α → β × State} {x : β × State} (hf : ∀ x a, OkP P x → OkP P (f x a)) (hx : OkP P x) :
    OkP P (l.foldl f x) := by
  induction l generalizing x with
  | nil => exact hx
  | cons a l ih => exact ih (hf x a hx)

theorem foldPP_keeps {α β γ : Type} {l : List α} {f : β × γ × State → α → β × γ × State} {x : β × γ × State} (hf : ∀ x a, OkPP P x → OkPP P (f x a))
    (hx : OkPP P x) : OkPP P (l.foldl f x) := by
  induction l generalizing x with
  | nil => exact hx
  | cons a l ih => exact ih (hf x a hx)

theorem when_keeps {b : Bool} {f : State → State} {s : State} (hf : ∀ s, P s → P (f s)) (hs : P s) : P (s.when b f) := by
  unfold State.when
  split
  · exact hf s hs
  · exact hs

theorem runAny_keeps {i : Instr} {t : Nat} {s : State} {f : State → State} (hf : ∀ s, P s → P (f s)) (hs : P (s.at t)) : OkX P (runAny i t s f) := by
  intro s' hs'
  unfold runAny at hs'
  split at hs'
  · cases hs'
    exact hf _ hs
  · cases hs'

theorem run_keeps {i : Instr} {t : Nat} {s : State} {f : State → State} (hf : ∀ s, P s → P (f s)) (hs : P (s.at t)) : OkX P (run i t s f) := by
  unfold run
  refine runAny_keeps ?_ hs
  intro s hs
  split
  · exact hf s hs
  · exact hs

end Sys2Proof.Machine
end

