-- ==== Sys2Proof/Laws/KeepsOps.lean ====
section
/-! SUPPORT. What the operations of Machine/Ops.lean can do to the state (`Laws/Keeps.lean`): one lemma per operation. -/

set_option linter.all false

namespace Sys2Proof.Machine

open Sys2Proof

theorem State.keepSched_keeps {P : State → Prop} (h : Stable [.sv] P) (s : State) (a1 : _) (a2 : _) (a3 : _) (hs : P s) : P (State.keepSched s a1 a2 a3) := by
  have pUsv := h.sv rfl
  unfold State.keepSched
  repeat'
    first
    | with_reducible assumption
    | rfl
    | (with_reducible refine pUsv _ _ (by with_reducible assumption))
    | (with_reducible apply ite_keeps (P := P))
    | (with_reducible apply foldl_keeps (P := P))
    | (refine fun (t : State) (ht : P t) => ?_)
    | (refine fun (_ : _) (t : State) (ht : P t) => ?_)
    | (with_reducible intro t; first | (refine (fun (ht : P t) => ?_) (?_ : P t); rotate_left; subst t; rotate_right; clear_value t) | skip | skip)
    | lift_lets -underBinder
    | split
    | (with_reducible apply pUsv)

theorem State.setMon_keeps {P : State → Prop} (h : Stable [.mn] P) (s : State) (a1 : _) (a2 : _) (hs : P s) : P (State.setMon s a1 a2) := by
  have pUmn := h.mn rfl
  unfold State.setMon
  repeat'
    first
    | with_reducible assumption
    | rfl
    | (with_reducible refine pUmn _ _ (by rfl) (by with_reducible assumption))
    | (with_reducible apply ite_keeps (P := P))
    | (with_reducible apply foldl_keeps (P := P))
    | (refine fun (t : State) (ht : P t) => ?_)
    | (refine fun (_ : _) (t : State) (ht : P t) => ?_)
    | (with_reducible intro t; first | (refine (fun (ht : P t) => ?_) (?_ : P t); rotate_left; subst t; rotate_right; clear_value t) | skip | skip)
    | lift_lets -underBinder
    | split
    | (with_reducible apply pUmn)

theorem State.copyJournal_keeps {P : State → Prop} (h : Stable [.ctr, .nvAny] P) (s : State) (hs : P s) : P (State.copyJournal s) := by
  have pStore := h.store rfl
  have pUnvAny := h.nvAny rfl
  unfold State.copyJournal
  repeat'
    first
    | ((with_reducible apply NvSide.mk); first | exact ⟨Nat.le_refl _, id⟩ | exact ⟨Nat.le_max_left _ _, id⟩ | exact ⟨Nat.le_refl _, fun _ => rfl⟩ | (split <;> exact ⟨Nat.le_refl _, id⟩))
    | with_reducible assumption
    | rfl
    | (with_reducible apply pStore)
    | (with_reducible apply ite_keeps (P := P))
    | (with_reducible apply foldl_keeps (P := P))
    | (refine fun (t : State) (ht : P t) => ?_)
    | (refine fun (_ : _) (t : State) (ht : P t) => ?_)
    | (with_reducible intro t; first | (refine (fun (ht : P t) => ?_) (?_ : P t); rotate_left; subst t; rotate_right; clear_value t) | skip | skip)
    | lift_lets -underBinder
    | split
    | (with_reducible apply pUnvAny)

theorem State.setPkg_keeps {P : State → Prop} (h : Stable [.pwAny, .notify] P) (s : State) (a1 : _) (hs : P s) : P (State.setPkg s a1) := by
  have pNotify := h.notify rfl
  have pUpwAny := h.pwAny rfl
  unfold State.setPkg
  repeat'
    first
    | ((with_reducible apply PwSide.mk); first | exact id | (dsimp only at *; omega))
    | with_reducible assumption
    | rfl
    | (with_reducible apply pNotify)
    | (with_reducible apply ite_keeps (P := P))
    | (with_reducible apply foldl_keeps (P := P))
    | (refine fun (t : State) (ht : P t) => ?_)
    | (refine fun (_ : _) (t : State) (ht : P t) => ?_)
    | (with_reducible intro t; first | (refine (fun (ht : P t) => ?_) (?_ : P t); rotate_left; subst t; rotate_right; clear_value t) | skip | skip)
    | lift_lets -underBinder
    | split
    | (with_reducible apply pUpwAny)

end Sys2Proof.Machine
end

