-- ==== Sys2Proof/Laws/KeepsKeys.lean ====
section
/-! SUPPORT. What the operations of Machine/Keys.lean can do to the state (`Laws/Keeps.lean`): one lemma per operation. -/

set_option linter.all false

namespace Sys2Proof.Machine

open Sys2Proof

theorem State.setDomSec_keeps {P : State → Prop} (h : Stable [.scAny] P) (s : State) (a1 : _) (a2 : _) (hs : P s) : P (State.setDomSec s a1 a2) := by
  have pUscAny := h.scAny rfl
  unfold State.setDomSec
  repeat'
    first
    | with_reducible assumption
    | rfl
    | (with_reducible refine pUscAny _ _ (by with_reducible assumption))
    | (with_reducible apply ite_keeps (P := P))
    | (with_reducible apply foldl_keeps (P := P))
    | (refine fun (t : State) (ht : P t) => ?_)
    | (refine fun (_ : _) (t : State) (ht : P t) => ?_)
    | (with_reducible intro t; first | (refine (fun (ht : P t) => ?_) (?_ : P t); rotate_left; subst t; rotate_right; clear_value t) | skip | skip)
    | lift_lets -underBinder
    | split
    | (with_reducible apply pUscAny)

end Sys2Proof.Machine
end

