-- ==== Sys2Proof/Laws/KeepsFlows.lean ====
section
/-! SUPPORT. What the operations of Machine/Flows.lean can do to the state (`Laws/Keeps.lean`): one lemma per operation. -/

set_option linter.all false

namespace Sys2Proof.Machine

open Sys2Proof

theorem State.setSess_keeps {P : State → Prop} (h : Stable [.ss] P) (s : State) (a1 : _) (a2 : _) (hs : P s) : P (State.setSess s a1 a2) := by
  have pUss := h.ss rfl
  unfold State.setSess
  repeat'
    first
    | with_reducible assumption
    | rfl
    | (with_reducible refine pUss _ _ (by with_reducible assumption))
    | (with_reducible apply ite_keeps (P := P))
    | (with_reducible apply foldl_keeps (P := P))
    | (refine fun (t : State) (ht : P t) => ?_)
    | (refine fun (_ : _) (t : State) (ht : P t) => ?_)
    | (with_reducible intro t; first | (refine (fun (ht : P t) => ?_) (?_ : P t); rotate_left; subst t; rotate_right; clear_value t) | skip | skip)
    | lift_lets -underBinder
    | split
    | (with_reducible apply pUss)

theorem State.takeSlot_keeps {P : State → Prop} (h : Stable [.fb, .ev] P) (s : State) (a1 : _) (a2 : _) (hs : P s) : OkOP P (State.takeSlot s a1 a2) := by
  have pEv := h.ev rfl
  have pUfb := h.fb rfl
  unfold State.takeSlot
  repeat'
    first
    | with_reducible assumption
    | rfl
    | (with_reducible apply pEv)
    | (with_reducible refine pUfb _ _ (by with_reducible assumption))
    | (with_reducible apply OkOpt.some)
    | (with_reducible apply OkOpt.none)
    | (with_reducible apply iteOpt_keeps)
    | (with_reducible apply OkOpt.map)
    | (with_reducible apply OkOpt.bind)
    | (with_reducible apply OkOpt.find)
    | (with_reducible apply OkOpt.fold)
    | (with_reducible apply OkOpt.getD (P := P))
    | (with_reducible apply ite_keeps (P := P))
    | (with_reducible apply foldl_keeps (P := P))
    | (refine OkO.get (P := P) (by with_reducible assumption) ?_)
    | (refine OkOP.get (P := P) (by with_reducible assumption) ?_)
    | (refine OkOPP.get (P := P) (by with_reducible assumption) ?_)
    | (refine fun (t : State) (ht : P t) => ?_)
    | (refine fun (_ : _) (t : State) (ht : P t) => ?_)
    | (with_reducible intro t; first | (refine (fun (ht : P t) => ?_) (?_ : P t); rotate_left; subst t; rotate_right; clear_value t) | skip | skip)
    | lift_lets -underBinder
    | split
    | (with_reducible apply pUfb)
    | exact OkOpt.any

theorem State.trackWait_keeps {P : State → Prop} (h : Stable [.ctr, .ev] P) (s : State) (a1 : _) (hs : P s) : P (State.trackWait s a1) := by
  have pInc := h.ctrInc rfl
  have pEv := h.ev rfl
  unfold State.trackWait
  repeat'
    first
    | with_reducible assumption
    | rfl
    | (with_reducible apply pInc)
    | (with_reducible apply pEv)
    | (with_reducible apply ite_keeps (P := P))
    | (with_reducible apply foldl_keeps (P := P))
    | (refine fun (t : State) (ht : P t) => ?_)
    | (refine fun (_ : _) (t : State) (ht : P t) => ?_)
    | (with_reducible intro t; first | (refine (fun (ht : P t) => ?_) (?_ : P t); rotate_left; subst t; rotate_right; clear_value t) | skip | skip)
    | lift_lets -underBinder
    | split

theorem State.freeSlot_keeps {P : State → Prop} (h : Stable [.fb, .ev] P) (s : State) (a1 : _) (a2 : _) (hs : P s) : P (State.freeSlot s a1 a2) := by
  have pEv := h.ev rfl
  have pUfb := h.fb rfl
  unfold State.freeSlot
  repeat'
    first
    | with_reducible assumption
    | rfl
    | (with_reducible apply pEv)
    | (with_reducible refine pUfb _ _ (by with_reducible assumption))
    | (with_reducible apply ite_keeps (P := P))
    | (with_reducible apply foldl_keeps (P := P))
    | (refine fun (t : State) (ht : P t) => ?_)
    | (refine fun (_ : _) (t : State) (ht : P t) => ?_)
    | (with_reducible intro t; first | (refine (fun (ht : P t) => ?_) (?_ : P t); rotate_left; subst t; rotate_right; clear_value t) | skip | skip)
    | lift_lets -underBinder
    | split
    | (with_reducible apply pUfb)

theorem State.setFlow_keeps {P : State → Prop} (h : Stable [.sl] P) (s : State) (a1 : _) (a2 : _) (hs : P s) : P (State.setFlow s a1 a2) := by
  have pUsl := h.sl rfl
  unfold State.setFlow
  repeat'
    first
    | with_reducible assumption
    | rfl
    | (with_reducible refine pUsl _ _ (by rfl) (by with_reducible assumption))
    | (with_reducible apply ite_keeps (P := P))
    | (with_reducible apply foldl_keeps (P := P))
    | (refine fun (t : State) (ht : P t) => ?_)
    | (refine fun (_ : _) (t : State) (ht : P t) => ?_)
    | (with_reducible intro t; first | (refine (fun (ht : P t) => ?_) (?_ : P t); rotate_left; subst t; rotate_right; clear_value t) | skip | skip)
    | lift_lets -underBinder
    | split
    | (with_reducible apply pUsl)

theorem State.emit_keeps {P : State → Prop} (h : Stable [.out, .ctr, .ev] P) (s : State) (a1 : _) (a2 : _) (hs : P s) : P (State.emit s a1 a2) := by
  have pInc := h.ctrInc rfl
  have pEv := h.ev rfl
  have pOut := h.out rfl
  unfold State.emit
  repeat'
    first
    | with_reducible assumption
    | rfl
    | (with_reducible apply pInc)
    | (with_reducible apply pEv)
    | (with_reducible apply pOut)
    | (with_reducible apply ite_keeps (P := P))
    | (with_reducible apply foldl_keeps (P := P))
    | (refine fun (t : State) (ht : P t) => ?_)
    | (refine fun (_ : _) (t : State) (ht : P t) => ?_)
    | (with_reducible intro t; first | (refine (fun (ht : P t) => ?_) (?_ : P t); rotate_left; subst t; rotate_right; clear_value t) | skip | skip)
    | lift_lets -underBinder
    | split

theorem State.armRto_keeps {P : State → Prop} (h : Stable [.sl] P) (s : State) (a1 : _) (hs : P s) : P (State.armRto s a1) := by
  have k1 := @State.setFlow_keeps P (h.mono rfl)
  unfold State.armRto
  repeat'
    first
    | with_reducible assumption
    | rfl
    | (with_reducible apply k1)
    | (with_reducible apply ite_keeps (P := P))
    | (with_reducible apply foldl_keeps (P := P))
    | (refine fun (t : State) (ht : P t) => ?_)
    | (refine fun (_ : _) (t : State) (ht : P t) => ?_)
    | (with_reducible intro t; first | (refine (fun (ht : P t) => ?_) (?_ : P t); rotate_left; subst t; rotate_right; clear_value t) | skip | skip)
    | lift_lets -underBinder
    | split

theorem State.pump_keeps {P : State → Prop} (h : Stable [.out, .ctr, .sl, .ev] P) (s : State) (a1 : _) (hs : P s) : P (State.pump s a1) := by
  have k1 := @State.setFlow_keeps P (h.mono rfl)
  have k2 := @State.armRto_keeps P (h.mono rfl)
  have k3 := @State.emit_keeps P (h.mono rfl)
  unfold State.pump
  repeat'
    first
    | with_reducible assumption
    | rfl
    | (with_reducible apply k1)
    | (with_reducible apply k2)
    | (with_reducible apply k3)
    | (with_reducible apply ite_keeps (P := P))
    | (with_reducible apply each_keeps (P := P))
    | (with_reducible apply foldl_keeps (P := P))
    | (refine fun (t : State) (ht : P t) => ?_)
    | (refine fun (_ : _) (t : State) (ht : P t) => ?_)
    | (with_reducible intro t; first | (refine (fun (ht : P t) => ?_) (?_ : P t); rotate_left; subst t; rotate_right; clear_value t) | skip | skip)
    | lift_lets -underBinder
    | split

theorem State.txPacket_keeps {P : State → Prop} (h : Stable [.out, .ctr, .sl, .ev] P) (s : State) (a1 : _) (a2 : _) (a3 : _) (a4 : _) (a5 : _) (a6 : _) (a7 : _) (a8 : _) (a9 : _) (a10 : _) (hs : P s) : P (State.txPacket s a1 a2 a3 a4 a5 a6 a7 a8 a9 a10) := by
  have k1 := @State.pump_keeps P (h.mono rfl)
  have k2 := @State.setFlow_keeps P (h.mono rfl)
  unfold State.txPacket
  repeat'
    first
    | with_reducible assumption
    | rfl
    | (with_reducible apply k1)
    | (with_reducible apply k2)
    | (with_reducible apply ite_keeps (P := P))
    | (with_reducible apply foldl_keeps (P := P))
    | (refine fun (t : State) (ht : P t) => ?_)
    | (refine fun (_ : _) (t : State) (ht : P t) => ?_)
    | (with_reducible intro t; first | (refine (fun (ht : P t) => ?_) (?_ : P t); rotate_left; subst t; rotate_right; clear_value t) | skip | skip)
    | lift_lets -underBinder
    | split

theorem State.txWrite_keeps {P : State → Prop} (h : Stable [.out, .ctr, .sl, .ev] P) (s : State) (a1 : _) (a2 : _) (a3 : _) (a4 : _) (a5 : _) (hs : P s) : P (State.txWrite s a1 a2 a3 a4 a5) := by
  have k1 := @State.setFlow_keeps P (h.mono rfl)
  have k2 := @State.txPacket_keeps P (h.mono rfl)
  unfold State.txWrite
  repeat'
    first
    | with_reducible assumption
    | rfl
    | (with_reducible apply k1)
    | (with_reducible apply k2)
    | (with_reducible apply ite_keeps (P := P))
    | (with_reducible apply each_keeps (P := P))
    | (with_reducible apply when_keeps (P := P))
    | (with_reducible apply foldl_keeps (P := P))
    | (refine fun (t : State) (ht : P t) => ?_)
    | (refine fun (_ : _) (t : State) (ht : P t) => ?_)
    | (with_reducible intro t; first | (refine (fun (ht : P t) => ?_) (?_ : P t); rotate_left; subst t; rotate_right; clear_value t) | skip | skip)
    | lift_lets -underBinder
    | split

theorem State.txSend_keeps {P : State → Prop} (h : Stable [.out, .ctr, .sl, .ev] P) (s : State) (a1 : _) (a2 : _) (hs : P s) : P (State.txSend s a1 a2) := by
  have k1 := @State.txPacket_keeps P (h.mono rfl)
  unfold State.txSend
  repeat'
    first
    | with_reducible assumption
    | rfl
    | (with_reducible apply k1)
    | (with_reducible apply ite_keeps (P := P))
    | (with_reducible apply foldl_keeps (P := P))
    | (refine fun (t : State) (ht : P t) => ?_)
    | (refine fun (_ : _) (t : State) (ht : P t) => ?_)
    | (with_reducible intro t; first | (refine (fun (ht : P t) => ?_) (?_ : P t); rotate_left; subst t; rotate_right; clear_value t) | skip | skip)
    | lift_lets -underBinder
    | split

theorem State.txRead_keeps {P : State → Prop} (h : Stable [.out, .ctr, .sl, .ev] P) (s : State) (a1 : _) (a2 : _) (a3 : _) (a4 : _) (a5 : _) (a6 : _) (hs : P s) : P (State.txRead s a1 a2 a3 a4 a5 a6) := by
  have k1 := @State.setFlow_keeps P (h.mono rfl)
  have k2 := @State.txPacket_keeps P (h.mono rfl)
  unfold State.txRead
  repeat'
    first
    | with_reducible assumption
    | rfl
    | (with_reducible apply k1)
    | (with_reducible apply k2)
    | (with_reducible apply ite_keeps (P := P))
    | (with_reducible apply foldl_keeps (P := P))
    | (refine fun (t : State) (ht : P t) => ?_)
    | (refine fun (_ : _) (t : State) (ht : P t) => ?_)
    | (with_reducible intro t; first | (refine (fun (ht : P t) => ?_) (?_ : P t); rotate_left; subst t; rotate_right; clear_value t) | skip | skip)
    | lift_lets -underBinder
    | split

theorem State.txFlush_keeps {P : State → Prop} (h : Stable [.out, .ctr, .sl, .ev] P) (s : State) (a1 : _) (a2 : _) (hs : P s) : P (State.txFlush s a1 a2) := by
  have k1 := @State.setFlow_keeps P (h.mono rfl)
  have k2 := @State.txPacket_keeps P (h.mono rfl)
  have pEv := h.ev rfl
  unfold State.txFlush
  repeat'
    first
    | with_reducible assumption
    | rfl
    | (with_reducible apply k1)
    | (with_reducible apply k2)
    | (with_reducible apply pEv)
    | (with_reducible apply ite_keeps (P := P))
    | (with_reducible apply foldl_keeps (P := P))
    | (refine fun (t : State) (ht : P t) => ?_)
    | (refine fun (_ : _) (t : State) (ht : P t) => ?_)
    | (with_reducible intro t; first | (refine (fun (ht : P t) => ?_) (?_ : P t); rotate_left; subst t; rotate_right; clear_value t) | skip | skip)
    | lift_lets -underBinder
    | split

theorem State.bulkFlow_keeps {P : State → Prop} (h : Stable [.sl] P) (s : State) (a1 : _) (hs : P s) : OkP P (State.bulkFlow s a1) := by
  have k1 := @State.setFlow_keeps P (h.mono rfl)
  unfold State.bulkFlow
  repeat'
    first
    | with_reducible assumption
    | rfl
    | (with_reducible apply k1)
    | (with_reducible apply iteP_keeps (P := P))
    | (with_reducible apply ite_keeps (P := P))
    | (with_reducible apply foldl_keeps (P := P))
    | (with_reducible apply foldP_keeps (P := P))
    | (refine OkP.get (P := P) (by with_reducible assumption) ?_)
    | (with_reducible apply OkP.snd (P := P))
    | (refine fun (t : State) (ht : P t) => ?_)
    | (refine fun (_ : _) (t : State) (ht : P t) => ?_)
    | (with_reducible intro t; first | (refine (fun (ht : P t) => ?_) (?_ : P t); rotate_left; subst t; rotate_right; clear_value t) | skip | skip)
    | lift_lets -underBinder
    | split
    | (with_reducible apply OkP.mk (P := P))

theorem State.bulkWrite_keeps {P : State → Prop} (h : Stable [.out, .ctr, .sl, .ev] P) (s : State) (a1 : _) (a2 : _) (a3 : _) (a4 : _) (a5 : _) (hs : P s) : P (State.bulkWrite s a1 a2 a3 a4 a5) := by
  have k1 := @State.txWrite_keeps P (h.mono rfl)
  have k2 := @State.bulkFlow_keeps P (h.mono rfl)
  unfold State.bulkWrite
  repeat'
    first
    | with_reducible assumption
    | rfl
    | (with_reducible apply k1)
    | (with_reducible apply k2)
    | (with_reducible apply iteP_keeps (P := P))
    | (with_reducible apply ite_keeps (P := P))
    | (with_reducible apply each_keeps (P := P))
    | (with_reducible apply foldl_keeps (P := P))
    | (with_reducible apply foldP_keeps (P := P))
    | (refine OkP.get (P := P) (by with_reducible assumption) ?_)
    | (with_reducible apply OkP.snd (P := P))
    | (refine fun (t : State) (ht : P t) => ?_)
    | (refine fun (_ : _) (t : State) (ht : P t) => ?_)
    | (with_reducible intro t; first | (refine (fun (ht : P t) => ?_) (?_ : P t); rotate_left; subst t; rotate_right; clear_value t) | skip | skip)
    | lift_lets -underBinder
    | split
    | (with_reducible apply OkP.mk (P := P))

theorem State.bulkRead_keeps {P : State → Prop} (h : Stable [.out, .ctr, .sl, .ev] P) (s : State) (a1 : _) (a2 : _) (a3 : _) (a4 : _) (a5 : _) (a6 : _) (hs : P s) : P (State.bulkRead s a1 a2 a3 a4 a5 a6) := by
  have k1 := @State.txRead_keeps P (h.mono rfl)
  have k2 := @State.bulkFlow_keeps P (h.mono rfl)
  unfold State.bulkRead
  repeat'
    first
    | with_reducible assumption
    | rfl
    | (with_reducible apply k1)
    | (with_reducible apply k2)
    | (with_reducible apply iteP_keeps (P := P))
    | (with_reducible apply ite_keeps (P := P))
    | (with_reducible apply foldl_keeps (P := P))
    | (with_reducible apply foldP_keeps (P := P))
    | (refine OkP.get (P := P) (by with_reducible assumption) ?_)
    | (with_reducible apply OkP.snd (P := P))
    | (refine fun (t : State) (ht : P t) => ?_)
    | (refine fun (_ : _) (t : State) (ht : P t) => ?_)
    | (with_reducible intro t; first | (refine (fun (ht : P t) => ?_) (?_ : P t); rotate_left; subst t; rotate_right; clear_value t) | skip | skip)
    | lift_lets -underBinder
    | split
    | (with_reducible apply OkP.mk (P := P))

theorem State.bulkFlush_keeps {P : State → Prop} (h : Stable [.out, .ctr, .sl, .ev] P) (s : State) (a1 : _) (a2 : _) (hs : P s) : P (State.bulkFlush s a1 a2) := by
  have k1 := @State.txFlush_keeps P (h.mono rfl)
  unfold State.bulkFlush
  repeat'
    first
    | with_reducible assumption
    | rfl
    | (with_reducible apply k1)
    | (with_reducible apply ite_keeps (P := P))
    | (with_reducible apply when_keeps (P := P))
    | (with_reducible apply foldl_keeps (P := P))
    | (refine fun (t : State) (ht : P t) => ?_)
    | (refine fun (_ : _) (t : State) (ht : P t) => ?_)
    | (with_reducible intro t; first | (refine (fun (ht : P t) => ?_) (?_ : P t); rotate_left; subst t; rotate_right; clear_value t) | skip | skip)
    | lift_lets -underBinder
    | split

theorem State.forgetOps_keeps {P : State → Prop} (h : Stable [.sl] P) (s : State) (a1 : _) (hs : P s) : P (State.forgetOps s a1) := by
  have pUsl := h.sl rfl
  unfold State.forgetOps
  repeat'
    first
    | with_reducible assumption
    | rfl
    | (with_reducible refine pUsl _ _ (by rfl) (by with_reducible assumption))
    | (with_reducible apply ite_keeps (P := P))
    | (with_reducible apply foldl_keeps (P := P))
    | (refine fun (t : State) (ht : P t) => ?_)
    | (refine fun (_ : _) (t : State) (ht : P t) => ?_)
    | (with_reducible intro t; first | (refine (fun (ht : P t) => ?_) (?_ : P t); rotate_left; subst t; rotate_right; clear_value t) | skip | skip)
    | lift_lets -underBinder
    | split
    | (with_reducible apply pUsl)

theorem State.resend_keeps {P : State → Prop} (h : Stable [.out, .ctr, .ev] P) (s : State) (a1 : _) (hs : P s) : P (State.resend s a1) := by
  have k1 := @State.emit_keeps P (h.mono rfl)
  have pInc := h.ctrInc rfl
  have pEv := h.ev rfl
  unfold State.resend
  repeat'
    first
    | with_reducible assumption
    | rfl
    | (with_reducible apply k1)
    | (with_reducible apply pInc)
    | (with_reducible apply pEv)
    | (with_reducible apply ite_keeps (P := P))
    | (with_reducible apply foldl_keeps (P := P))
    | (refine fun (t : State) (ht : P t) => ?_)
    | (refine fun (_ : _) (t : State) (ht : P t) => ?_)
    | (with_reducible intro t; first | (refine (fun (ht : P t) => ?_) (?_ : P t); rotate_left; subst t; rotate_right; clear_value t) | skip | skip)
    | lift_lets -underBinder
    | split

theorem State.setCq_keeps {P : State → Prop} (h : Stable [.ss] P) (s : State) (a1 : _) (a2 : _) (hs : P s) : P (State.setCq s a1 a2) := by
  have pUss := h.ss rfl
  unfold State.setCq
  repeat'
    first
    | with_reducible assumption
    | rfl
    | (with_reducible refine pUss _ _ (by with_reducible assumption))
    | (with_reducible apply ite_keeps (P := P))
    | (with_reducible apply foldl_keeps (P := P))
    | (refine fun (t : State) (ht : P t) => ?_)
    | (refine fun (_ : _) (t : State) (ht : P t) => ?_)
    | (with_reducible intro t; first | (refine (fun (ht : P t) => ?_) (?_ : P t); rotate_left; subst t; rotate_right; clear_value t) | skip | skip)
    | lift_lets -underBinder
    | split
    | (with_reducible apply pUss)

theorem State.writeRec_keeps {P : State → Prop} (h : Stable [.out, .ctr, .ss, .sl, .ev] P) (s : State) (a1 : _) (a2 : _) (hs : P s) : P (State.writeRec s a1 a2) := by
  have k1 := @State.txWrite_keeps P (h.mono rfl)
  have k2 := @State.setCq_keeps P (h.mono rfl)
  unfold State.writeRec
  repeat'
    first
    | with_reducible assumption
    | rfl
    | (with_reducible apply k1)
    | (with_reducible apply k2)
    | (with_reducible apply ite_keeps (P := P))
    | (with_reducible apply foldl_keeps (P := P))
    | (refine fun (t : State) (ht : P t) => ?_)
    | (refine fun (_ : _) (t : State) (ht : P t) => ?_)
    | (with_reducible intro t; first | (refine (fun (ht : P t) => ?_) (?_ : P t); rotate_left; subst t; rotate_right; clear_value t) | skip | skip)
    | lift_lets -underBinder
    | split

theorem State.sendNotif_keeps {P : State → Prop} (h : Stable [.out, .ctr, .ss, .sl, .ev] P) (s : State) (a1 : _) (a2 : _) (hs : P s) : P (State.sendNotif s a1 a2) := by
  have k1 := @State.txSend_keeps P (h.mono rfl)
  have k2 := @State.txFlush_keeps P (h.mono rfl)
  have k3 := @State.setCq_keeps P (h.mono rfl)
  have pEv := h.ev rfl
  unfold State.sendNotif
  repeat'
    first
    | with_reducible assumption
    | rfl
    | (with_reducible apply k1)
    | (with_reducible apply k2)
    | (with_reducible apply k3)
    | (with_reducible apply pEv)
    | (with_reducible apply ite_keeps (P := P))
    | (with_reducible apply foldl_keeps (P := P))
    | (refine fun (t : State) (ht : P t) => ?_)
    | (refine fun (_ : _) (t : State) (ht : P t) => ?_)
    | (with_reducible intro t; first | (refine (fun (ht : P t) => ?_) (?_ : P t); rotate_left; subst t; rotate_right; clear_value t) | skip | skip)
    | lift_lets -underBinder
    | split

theorem State.hubRose_keeps {P : State → Prop} (h : Stable [.notify, .ev] P) (s : State) (a1 : _) (a2 : _) (hs : P s) : P (State.hubRose s a1 a2) := by
  have pEv := h.ev rfl
  have pNotify := h.notify rfl
  unfold State.hubRose
  repeat'
    first
    | with_reducible assumption
    | rfl
    | (with_reducible apply pEv)
    | (with_reducible apply pNotify)
    | (with_reducible apply ite_keeps (P := P))
    | (with_reducible apply when_keeps (P := P))
    | (with_reducible apply foldl_keeps (P := P))
    | (refine fun (t : State) (ht : P t) => ?_)
    | (refine fun (_ : _) (t : State) (ht : P t) => ?_)
    | (with_reducible intro t; first | (refine (fun (ht : P t) => ?_) (?_ : P t); rotate_left; subst t; rotate_right; clear_value t) | skip | skip)
    | lift_lets -underBinder
    | split

theorem State.holdRec_keeps {P : State → Prop} (h : Stable [.notify, .ss, .ev] P) (s : State) (a1 : _) (a2 : _) (a3 : _) (a4 : _) (a5 : _) (hs : P s) : P (State.holdRec s a1 a2 a3 a4 a5) := by
  have k1 := @State.hubRose_keeps P (h.mono rfl)
  have k2 := @State.setCq_keeps P (h.mono rfl)
  unfold State.holdRec
  repeat'
    first
    | with_reducible assumption
    | rfl
    | (with_reducible apply k1)
    | (with_reducible apply k2)
    | (with_reducible apply ite_keeps (P := P))
    | (with_reducible apply foldl_keeps (P := P))
    | (refine fun (t : State) (ht : P t) => ?_)
    | (refine fun (_ : _) (t : State) (ht : P t) => ?_)
    | (with_reducible intro t; first | (refine (fun (ht : P t) => ?_) (?_ : P t); rotate_left; subst t; rotate_right; clear_value t) | skip | skip)
    | lift_lets -underBinder
    | split

theorem State.postNotif_keeps {P : State → Prop} (h : Stable [.out, .ctr, .notify, .ss, .sl, .ev] P) (s : State) (a1 : _) (a2 : _) (hs : P s) : P (State.postNotif s a1 a2) := by
  have k1 := @State.sendNotif_keeps P (h.mono rfl)
  have k2 := @State.holdRec_keeps P (h.mono rfl)
  unfold State.postNotif
  repeat'
    first
    | with_reducible assumption
    | rfl
    | (with_reducible apply k1)
    | (with_reducible apply k2)
    | (with_reducible apply ite_keeps (P := P))
    | (with_reducible apply foldl_keeps (P := P))
    | (refine fun (t : State) (ht : P t) => ?_)
    | (refine fun (_ : _) (t : State) (ht : P t) => ?_)
    | (with_reducible intro t; first | (refine (fun (ht : P t) => ?_) (?_ : P t); rotate_left; subst t; rotate_right; clear_value t) | skip | skip)
    | lift_lets -underBinder
    | split

theorem State.postRec_keeps {P : State → Prop} (h : Stable [.out, .ctr, .notify, .ss, .sl, .ev] P) (s : State) (a1 : _) (a2 : _) (a3 : _) (a4 : _) (hs : P s) : P (State.postRec s a1 a2 a3 a4) := by
  have k1 := @State.writeRec_keeps P (h.mono rfl)
  have k2 := @State.postNotif_keeps P (h.mono rfl)
  have k3 := @State.holdRec_keeps P (h.mono rfl)
  unfold State.postRec
  repeat'
    first
    | with_reducible assumption
    | rfl
    | (with_reducible apply k1)
    | (with_reducible apply k2)
    | (with_reducible apply k3)
    | (with_reducible apply ite_keeps (P := P))
    | (with_reducible apply when_keeps (P := P))
    | (with_reducible apply foldl_keeps (P := P))
    | (refine fun (t : State) (ht : P t) => ?_)
    | (refine fun (_ : _) (t : State) (ht : P t) => ?_)
    | (with_reducible intro t; first | (refine (fun (ht : P t) => ?_) (?_ : P t); rotate_left; subst t; rotate_right; clear_value t) | skip | skip)
    | lift_lets -underBinder
    | split

theorem State.releaseOne_keeps {P : State → Prop} (h : Stable [.out, .ctr, .ss, .sl, .ev] P) (s : State) (a1 : _) (hs : P s) : OkP1 P (State.releaseOne s a1) := by
  have k1 := @State.setCq_keeps P (h.mono rfl)
  have k2 := @State.sendNotif_keeps P (h.mono rfl)
  have k3 := @State.writeRec_keeps P (h.mono rfl)
  unfold State.releaseOne
  repeat'
    first
    | with_reducible assumption
    | rfl
    | (with_reducible apply k1)
    | (with_reducible apply k2)
    | (with_reducible apply k3)
    | (with_reducible apply ite_keeps (P := P))
    | (with_reducible apply foldl_keeps (P := P))
    | (with_reducible apply OkP1.fst (P := P))
    | (refine fun (t : State) (ht : P t) => ?_)
    | (refine fun (_ : _) (t : State) (ht : P t) => ?_)
    | (with_reducible intro t; first | (refine (fun (ht : P t) => ?_) (?_ : P t); rotate_left; subst t; rotate_right; clear_value t) | skip | skip)
    | lift_lets -underBinder
    | split
    | (with_reducible apply OkP1.mk (P := P))

theorem State.releaseSome_keeps {P : State → Prop} (h : Stable [.out, .ctr, .ss, .sl, .ev] P) (a0 : _) (a1 : _) (s : State) (hs : P s) : P (State.releaseSome a0 a1 s) := by
  have k1 := @State.releaseOne_keeps P (h.mono rfl)
  induction a0 generalizing a1 s with
  | zero =>
    unfold State.releaseSome
    repeat'
      first
      | with_reducible assumption
      | rfl
      | (with_reducible apply k1)
      | (with_reducible apply ite_keeps (P := P))
      | (with_reducible apply foldl_keeps (P := P))
      | (with_reducible apply OkP1.fst (P := P))
      | (refine fun (t : State) (ht : P t) => ?_)
      | (refine fun (_ : _) (t : State) (ht : P t) => ?_)
      | (with_reducible intro t; first | (refine (fun (ht : P t) => ?_) (?_ : P t); rotate_left; subst t; rotate_right; clear_value t) | skip | skip)
      | lift_lets -underBinder
      | split
      | (with_reducible apply OkP1.mk (P := P))
  | succ n ih =>
    unfold State.releaseSome
    repeat'
      first
      | with_reducible assumption
      | rfl
      | (with_reducible apply ih)
      | (with_reducible apply k1)
      | (with_reducible apply ite_keeps (P := P))
      | (with_reducible apply foldl_keeps (P := P))
      | (with_reducible apply OkP1.fst (P := P))
      | (refine fun (t : State) (ht : P t) => ?_)
      | (refine fun (_ : _) (t : State) (ht : P t) => ?_)
      | (with_reducible intro t; first | (refine (fun (ht : P t) => ?_) (?_ : P t); rotate_left; subst t; rotate_right; clear_value t) | skip | skip)
      | lift_lets -underBinder
      | split
      | (with_reducible apply OkP1.mk (P := P))

theorem State.setDring_keeps {P : State → Prop} (h : Stable [.ss] P) (s : State) (a1 : _) (a2 : _) (hs : P s) : P (State.setDring s a1 a2) := by
  have pUss := h.ss rfl
  unfold State.setDring
  repeat'
    first
    | with_reducible assumption
    | rfl
    | (with_reducible refine pUss _ _ (by with_reducible assumption))
    | (with_reducible apply ite_keeps (P := P))
    | (with_reducible apply foldl_keeps (P := P))
    | (refine fun (t : State) (ht : P t) => ?_)
    | (refine fun (_ : _) (t : State) (ht : P t) => ?_)
    | (with_reducible intro t; first | (refine (fun (ht : P t) => ?_) (?_ : P t); rotate_left; subst t; rotate_right; clear_value t) | skip | skip)
    | lift_lets -underBinder
    | split
    | (with_reducible apply pUss)

theorem State.leaveKept_keeps {P : State → Prop} (h : Stable [.ss] P) (s : State) (a1 : _) (hs : P s) : P (State.leaveKept s a1) := by
  have k1 := @State.setDring_keeps P (h.mono rfl)
  unfold State.leaveKept
  repeat'
    first
    | with_reducible assumption
    | rfl
    | (with_reducible apply k1)
    | (with_reducible apply ite_keeps (P := P))
    | (with_reducible apply foldl_keeps (P := P))
    | (refine fun (t : State) (ht : P t) => ?_)
    | (refine fun (_ : _) (t : State) (ht : P t) => ?_)
    | (with_reducible intro t; first | (refine (fun (ht : P t) => ?_) (?_ : P t); rotate_left; subst t; rotate_right; clear_value t) | skip | skip)
    | lift_lets -underBinder
    | split

theorem State.fillHub_keeps {P : State → Prop} (h : Stable [.notify, .ss, .ev] P) (s : State) (hs : P s) : P (State.fillHub s) := by
  have k1 := @State.leaveKept_keeps P (h.mono rfl)
  have k2 := @State.hubRose_keeps P (h.mono rfl)
  have k3 := @State.setCq_keeps P (h.mono rfl)
  unfold State.fillHub
  repeat'
    first
    | with_reducible assumption
    | rfl
    | (with_reducible apply k1)
    | (with_reducible apply k2)
    | (with_reducible apply k3)
    | (with_reducible apply ite_keeps (P := P))
    | (with_reducible apply each_keeps (P := P))
    | (with_reducible apply foldl_keeps (P := P))
    | (refine fun (t : State) (ht : P t) => ?_)
    | (refine fun (_ : _) (t : State) (ht : P t) => ?_)
    | (with_reducible intro t; first | (refine (fun (ht : P t) => ?_) (?_ : P t); rotate_left; subst t; rotate_right; clear_value t) | skip | skip)
    | lift_lets -underBinder
    | split

theorem State.release_keeps {P : State → Prop} (h : Stable [.out, .ctr, .notify, .ss, .sl, .ev] P) (s : State) (a1 : _) (hs : P s) : P (State.release s a1) := by
  have k1 := @State.fillHub_keeps P (h.mono rfl)
  have k2 := @State.releaseSome_keeps P (h.mono rfl)
  unfold State.release
  repeat'
    first
    | with_reducible assumption
    | rfl
    | (with_reducible apply k1)
    | (with_reducible apply k2)
    | (with_reducible apply ite_keeps (P := P))
    | (with_reducible apply foldl_keeps (P := P))
    | (refine fun (t : State) (ht : P t) => ?_)
    | (refine fun (_ : _) (t : State) (ht : P t) => ?_)
    | (with_reducible intro t; first | (refine (fun (ht : P t) => ?_) (?_ : P t); rotate_left; subst t; rotate_right; clear_value t) | skip | skip)
    | lift_lets -underBinder
    | split

theorem State.record_keeps {P : State → Prop} (h : Stable [.out, .ctr, .notify, .ss, .sl, .ev] P) (s : State) (a1 : _) (a2 : _) (a3 : _) (a4 : _) (a5 : _) (a6 : _) (a7 : _) (a8 : _) (a9 : _) (a10 : _) (hs : P s) : P (State.record s a1 a2 a3 a4 a5 a6 a7 a8 a9 a10) := by
  have k1 := @State.postRec_keeps P (h.mono rfl)
  unfold State.record
  repeat'
    first
    | with_reducible assumption
    | rfl
    | (with_reducible apply k1)
    | (with_reducible apply ite_keeps (P := P))
    | (with_reducible apply foldl_keeps (P := P))
    | (refine fun (t : State) (ht : P t) => ?_)
    | (refine fun (_ : _) (t : State) (ht : P t) => ?_)
    | (with_reducible intro t; first | (refine (fun (ht : P t) => ?_) (?_ : P t); rotate_left; subst t; rotate_right; clear_value t) | skip | skip)
    | lift_lets -underBinder
    | split

theorem State.endDom_keeps {P : State → Prop} (h : Stable [.out, .ctr, .notify, .ss, .sl, .ev] P) (s : State) (a1 : _) (a2 : _) (a3 : _) (a4 : _) (a5 : _) (hs : P s) : P (State.endDom s a1 a2 a3 a4 a5) := by
  have k1 := @State.record_keeps P (h.mono rfl)
  have pInc := h.ctrInc rfl
  have pEv := h.ev rfl
  unfold State.endDom
  repeat'
    first
    | with_reducible assumption
    | rfl
    | (with_reducible apply k1)
    | (with_reducible apply pInc)
    | (with_reducible apply pEv)
    | (with_reducible apply ite_keeps (P := P))
    | (with_reducible apply when_keeps (P := P))
    | (with_reducible apply foldl_keeps (P := P))
    | (refine fun (t : State) (ht : P t) => ?_)
    | (refine fun (_ : _) (t : State) (ht : P t) => ?_)
    | (with_reducible intro t; first | (refine (fun (ht : P t) => ?_) (?_ : P t); rotate_left; subst t; rotate_right; clear_value t) | skip | skip)
    | lift_lets -underBinder
    | split

theorem State.setDrun_keeps {P : State → Prop} (h : Stable [.ss] P) (s : State) (a1 : _) (a2 : _) (hs : P s) : P (State.setDrun s a1 a2) := by
  have k1 := @State.setDring_keeps P (h.mono rfl)
  unfold State.setDrun
  repeat'
    first
    | with_reducible assumption
    | rfl
    | (with_reducible apply k1)
    | (with_reducible apply ite_keeps (P := P))
    | (with_reducible apply foldl_keeps (P := P))
    | (refine fun (t : State) (ht : P t) => ?_)
    | (refine fun (_ : _) (t : State) (ht : P t) => ?_)
    | (with_reducible intro t; first | (refine (fun (ht : P t) => ?_) (?_ : P t); rotate_left; subst t; rotate_right; clear_value t) | skip | skip)
    | lift_lets -underBinder
    | split

theorem State.endDrun_keeps {P : State → Prop} (h : Stable [.out, .ctr, .notify, .ss, .sl, .ev] P) (s : State) (a1 : _) (a2 : _) (a3 : _) (a4 : _) (a5 : _) (hs : P s) : P (State.endDrun s a1 a2 a3 a4 a5) := by
  have k1 := @State.leaveKept_keeps P (h.mono rfl)
  have k2 := @State.endDom_keeps P (h.mono rfl)
  have k3 := @State.setDring_keeps P (h.mono rfl)
  unfold State.endDrun
  repeat'
    first
    | with_reducible assumption
    | rfl
    | (with_reducible apply k1)
    | (with_reducible apply k2)
    | (with_reducible apply k3)
    | (with_reducible apply ite_keeps (P := P))
    | (with_reducible apply foldl_keeps (P := P))
    | (refine fun (t : State) (ht : P t) => ?_)
    | (refine fun (_ : _) (t : State) (ht : P t) => ?_)
    | (with_reducible intro t; first | (refine (fun (ht : P t) => ?_) (?_ : P t); rotate_left; subst t; rotate_right; clear_value t) | skip | skip)
    | lift_lets -underBinder
    | split

theorem State.farTested_keeps {P : State → Prop} (h : Stable [.ctr, .notify, .tm, .ev] P) (s : State) (a1 : _) (a2 : _) (hs : P s) : P (State.farTested s a1 a2) := by
  have pInc := h.ctrInc rfl
  have pEv := h.ev rfl
  have pNotify := h.notify rfl
  have pUtm := h.tm rfl
  unfold State.farTested
  repeat'
    first
    | with_reducible assumption
    | rfl
    | (with_reducible apply pInc)
    | (with_reducible apply pEv)
    | (with_reducible apply pNotify)
    | (with_reducible refine pUtm _ _ (by with_reducible assumption))
    | (with_reducible apply ite_keeps (P := P))
    | (with_reducible apply foldl_keeps (P := P))
    | (refine fun (t : State) (ht : P t) => ?_)
    | (refine fun (_ : _) (t : State) (ht : P t) => ?_)
    | (with_reducible intro t; first | (refine (fun (ht : P t) => ?_) (?_ : P t); rotate_left; subst t; rotate_right; clear_value t) | skip | skip)
    | lift_lets -underBinder
    | split
    | (with_reducible apply pUtm)

theorem State.inputRead_keeps {P : State → Prop} (h : Stable [.out, .ctr, .notify, .ss, .tm, .sl, .ev] P) (s : State) (a1 : _) (a2 : _) (a3 : _) (hs : P s) : P (State.inputRead s a1 a2 a3) := by
  have k1 := @State.setSess_keeps P (h.mono rfl)
  have k2 := @State.setDrun_keeps P (h.mono rfl)
  have k3 := @State.endDrun_keeps P (h.mono rfl)
  have k4 := @State.setCq_keeps P (h.mono rfl)
  have k5 := @State.txSend_keeps P (h.mono rfl)
  have k6 := @State.holdRec_keeps P (h.mono rfl)
  have k7 := @State.farTested_keeps P (h.mono rfl)
  have pEv := h.ev rfl
  have pUtm := h.tm rfl
  unfold State.inputRead
  repeat'
    first
    | with_reducible assumption
    | rfl
    | (with_reducible apply k1)
    | (with_reducible apply k2)
    | (with_reducible apply k3)
    | (with_reducible apply k4)
    | (with_reducible apply k5)
    | (with_reducible apply k6)
    | (with_reducible apply k7)
    | (with_reducible apply pEv)
    | (with_reducible refine pUtm _ _ (by with_reducible assumption))
    | (with_reducible apply ite_keeps (P := P))
    | (with_reducible apply foldl_keeps (P := P))
    | (refine fun (t : State) (ht : P t) => ?_)
    | (refine fun (_ : _) (t : State) (ht : P t) => ?_)
    | (with_reducible intro t; first | (refine (fun (ht : P t) => ?_) (?_ : P t); rotate_left; subst t; rotate_right; clear_value t) | skip | skip)
    | lift_lets -underBinder
    | split
    | (with_reducible apply pUtm)

theorem State.outputLost_keeps {P : State → Prop} (h : Stable [.out, .ctr, .notify, .ss, .tm, .sl, .ev] P) (s : State) (a1 : _) (hs : P s) : P (State.outputLost s a1) := by
  have k1 := @State.setSess_keeps P (h.mono rfl)
  have k2 := @State.inputRead_keeps P (h.mono rfl)
  unfold State.outputLost
  repeat'
    first
    | with_reducible assumption
    | rfl
    | (with_reducible apply k1)
    | (with_reducible apply k2)
    | (with_reducible apply ite_keeps (P := P))
    | (with_reducible apply foldl_keeps (P := P))
    | (refine fun (t : State) (ht : P t) => ?_)
    | (refine fun (_ : _) (t : State) (ht : P t) => ?_)
    | (with_reducible intro t; first | (refine (fun (ht : P t) => ?_) (?_ : P t); rotate_left; subst t; rotate_right; clear_value t) | skip | skip)
    | lift_lets -underBinder
    | split

theorem State.abortOps_keeps {P : State → Prop} (h : Stable [.out, .ctr, .notify, .ss, .tm, .fb, .sl, .ev] P) (s : State) (a1 : _) (hs : P s) : P (State.abortOps s a1) := by
  have k1 := @State.setFlow_keeps P (h.mono rfl)
  have k2 := @State.outputLost_keeps P (h.mono rfl)
  have k3 := @State.freeSlot_keeps P (h.mono rfl)
  have k4 := @State.inputRead_keeps P (h.mono rfl)
  unfold State.abortOps
  repeat'
    first
    | with_reducible assumption
    | rfl
    | (with_reducible apply k1)
    | (with_reducible apply k2)
    | (with_reducible apply k3)
    | (with_reducible apply k4)
    | (with_reducible apply ite_keeps (P := P))
    | (with_reducible apply each_keeps (P := P))
    | (with_reducible apply foldl_keeps (P := P))
    | (refine fun (t : State) (ht : P t) => ?_)
    | (refine fun (_ : _) (t : State) (ht : P t) => ?_)
    | (with_reducible intro t; first | (refine (fun (ht : P t) => ?_) (?_ : P t); rotate_left; subst t; rotate_right; clear_value t) | skip | skip)
    | lift_lets -underBinder
    | split

theorem State.flowFail_keeps {P : State → Prop} (h : Stable [.out, .ctr, .notify, .ss, .tm, .fb, .sl, .ev] P) (s : State) (a1 : _) (hs : P s) : P (State.flowFail s a1) := by
  have k1 := @State.abortOps_keeps P (h.mono rfl)
  have k2 := @State.setFlow_keeps P (h.mono rfl)
  have pInc := h.ctrInc rfl
  have pEv := h.ev rfl
  have pNotify := h.notify rfl
  unfold State.flowFail
  repeat'
    first
    | with_reducible assumption
    | rfl
    | (with_reducible apply k1)
    | (with_reducible apply k2)
    | (with_reducible apply pInc)
    | (with_reducible apply pEv)
    | (with_reducible apply pNotify)
    | (with_reducible apply ite_keeps (P := P))
    | (with_reducible apply foldl_keeps (P := P))
    | (refine fun (t : State) (ht : P t) => ?_)
    | (refine fun (_ : _) (t : State) (ht : P t) => ?_)
    | (with_reducible intro t; first | (refine (fun (ht : P t) => ?_) (?_ : P t); rotate_left; subst t; rotate_right; clear_value t) | skip | skip)
    | lift_lets -underBinder
    | split

end Sys2Proof.Machine
end

