-- ==== Sys2Proof/Laws/KeepsBudget.lean ====
section
/-! SUPPORT. What the operations of Machine/Budget.lean can do to the state (`Laws/Keeps.lean`): one lemma per operation. -/

set_option linter.all false

namespace Sys2Proof.Machine

open Sys2Proof

theorem State.setBudget_keeps {P : State → Prop} (h : Stable [.sv] P) (s : State) (a1 : _) (a2 : _) (hs : P s) : P (State.setBudget s a1 a2) := by
  have pUsv := h.sv rfl
  unfold State.setBudget
  repeat'
    first
    | with_reducible assumption
    | rfl
    | (with_reducible refine pUsv _ _ (by with_reducible assumption))
    | (with_reducible apply ite_keeps (P := P))
    | (with_reducible apply foldl_keeps (P := P))
    | (refine fun (t : State) (ht : P t) => ?_)
    | (refine fun (_ : _) (t : State) (ht : P t) => ?_)
    | (with_reducible intro t; first | (refine (fun (ht : P t) => ?_) (?_ : P t); rotate_left; subst t; rotate_right; clear_value t) | skip | skip)
    | lift_lets -underBinder
    | split
    | (with_reducible apply pUsv)

theorem State.settleBudget_keeps {P : State → Prop} (h : Stable [.sv] P) (s : State) (a1 : _) (hs : P s) : P (State.settleBudget s a1) := by
  have k1 := @State.setBudget_keeps P (h.mono rfl)
  unfold State.settleBudget
  repeat'
    first
    | with_reducible assumption
    | rfl
    | (with_reducible apply k1)
    | (with_reducible apply ite_keeps (P := P))
    | (with_reducible apply foldl_keeps (P := P))
    | (refine fun (t : State) (ht : P t) => ?_)
    | (refine fun (_ : _) (t : State) (ht : P t) => ?_)
    | (with_reducible intro t; first | (refine (fun (ht : P t) => ?_) (?_ : P t); rotate_left; subst t; rotate_right; clear_value t) | skip | skip)
    | lift_lets -underBinder
    | split

theorem State.refill_keeps {P : State → Prop} (h : Stable [.sv, .ev] P) (s : State) (a1 : _) (hs : P s) : P (State.refill s a1) := by
  have pEv := h.ev rfl
  have pUsv := h.sv rfl
  unfold State.refill
  repeat'
    first
    | with_reducible assumption
    | rfl
    | (with_reducible apply pEv)
    | (with_reducible refine pUsv _ _ (by with_reducible assumption))
    | (with_reducible apply ite_keeps (P := P))
    | (with_reducible apply each_keeps (P := P))
    | (with_reducible apply when_keeps (P := P))
    | (with_reducible apply foldl_keeps (P := P))
    | (refine fun (t : State) (ht : P t) => ?_)
    | (refine fun (_ : _) (t : State) (ht : P t) => ?_)
    | (with_reducible intro t; first | (refine (fun (ht : P t) => ?_) (?_ : P t); rotate_left; subst t; rotate_right; clear_value t) | skip | skip)
    | lift_lets -underBinder
    | split
    | (with_reducible apply pUsv)

theorem State.reserveTokens_keeps {P : State → Prop} (h : Stable [.sv, .ev] P) (s : State) (a1 : _) (a2 : _) (hs : P s) : P (State.reserveTokens s a1 a2) := by
  have k1 := @State.setBudget_keeps P (h.mono rfl)
  have pEv := h.ev rfl
  unfold State.reserveTokens
  repeat'
    first
    | with_reducible assumption
    | rfl
    | (with_reducible apply k1)
    | (with_reducible apply pEv)
    | (with_reducible apply ite_keeps (P := P))
    | (with_reducible apply foldl_keeps (P := P))
    | (refine fun (t : State) (ht : P t) => ?_)
    | (refine fun (_ : _) (t : State) (ht : P t) => ?_)
    | (with_reducible intro t; first | (refine (fun (ht : P t) => ?_) (?_ : P t); rotate_left; subst t; rotate_right; clear_value t) | skip | skip)
    | lift_lets -underBinder
    | split

theorem State.resolveTokens_keeps {P : State → Prop} (h : Stable [.ss, .sv, .ev] P) (s : State) (a1 : _) (a2 : _) (a3 : _) (hs : P s) : P (State.resolveTokens s a1 a2 a3) := by
  have k1 := @State.setBudget_keeps P (h.mono rfl)
  have k2 := @State.setSess_keeps P (h.mono rfl)
  have pEv := h.ev rfl
  unfold State.resolveTokens
  repeat'
    first
    | with_reducible assumption
    | rfl
    | (with_reducible apply k1)
    | (with_reducible apply k2)
    | (with_reducible apply pEv)
    | (with_reducible apply ite_keeps (P := P))
    | (with_reducible apply when_keeps (P := P))
    | (with_reducible apply foldl_keeps (P := P))
    | (refine fun (t : State) (ht : P t) => ?_)
    | (refine fun (_ : _) (t : State) (ht : P t) => ?_)
    | (with_reducible intro t; first | (refine (fun (ht : P t) => ?_) (?_ : P t); rotate_left; subst t; rotate_right; clear_value t) | skip | skip)
    | lift_lets -underBinder
    | split

theorem State.adjustTokens_keeps {P : State → Prop} (h : Stable [.sv, .ev] P) (s : State) (a1 : _) (a2 : _) (hs : P s) : P (State.adjustTokens s a1 a2) := by
  have k1 := @State.setBudget_keeps P (h.mono rfl)
  have pEv := h.ev rfl
  unfold State.adjustTokens
  repeat'
    first
    | with_reducible assumption
    | rfl
    | (with_reducible apply k1)
    | (with_reducible apply pEv)
    | (with_reducible apply ite_keeps (P := P))
    | (with_reducible apply foldl_keeps (P := P))
    | (refine fun (t : State) (ht : P t) => ?_)
    | (refine fun (_ : _) (t : State) (ht : P t) => ?_)
    | (with_reducible intro t; first | (refine (fun (ht : P t) => ?_) (?_ : P t); rotate_left; subst t; rotate_right; clear_value t) | skip | skip)
    | lift_lets -underBinder
    | split

end Sys2Proof.Machine
end

