-- ==== Sys2Proof/Laws/KeepsFrames.lean ====
section
/-! SUPPORT. What the operations of Machine/Frames.lean can do to the state (`Laws/Keeps.lean`): one lemma per operation. -/

set_option linter.all false

namespace Sys2Proof.Machine

open Sys2Proof

theorem State.setFrame_keeps {P : State → Prop} (h : Stable [.tm] P) (s : State) (a1 : _) (a2 : _) (a3 : _) (a4 : _) (hs : P s) : P (State.setFrame s a1 a2 a3 a4) := by
  have pUtm := h.tm rfl
  unfold State.setFrame
  repeat'
    first
    | with_reducible assumption
    | rfl
    | (with_reducible refine pUtm _ _ (by with_reducible assumption))
    | (with_reducible apply ite_keeps (P := P))
    | (with_reducible apply foldl_keeps (P := P))
    | (refine fun (t : State) (ht : P t) => ?_)
    | (refine fun (_ : _) (t : State) (ht : P t) => ?_)
    | (with_reducible intro t; first | (refine (fun (ht : P t) => ?_) (?_ : P t); rotate_left; subst t; rotate_right; clear_value t) | skip | skip)
    | lift_lets -underBinder
    | split
    | (with_reducible apply pUtm)

theorem State.takeFrame_keeps {P : State → Prop} (h : Stable [.ctr, .notify, .tm, .ev] P) (s : State) (a1 : _) (a2 : _) (a3 : _) (hs : P s) : OkOP P (State.takeFrame s a1 a2 a3) := by
  have k1 := @State.setFrame_keeps P (h.mono rfl)
  have pInc := h.ctrInc rfl
  have pEv := h.ev rfl
  have pNotify := h.notify rfl
  unfold State.takeFrame
  repeat'
    first
    | with_reducible assumption
    | rfl
    | (with_reducible apply k1)
    | (with_reducible apply pInc)
    | (with_reducible apply pEv)
    | (with_reducible apply pNotify)
    | (with_reducible apply OkOpt.some)
    | (with_reducible apply OkOpt.none)
    | (with_reducible apply iteOpt_keeps)
    | (with_reducible apply OkOpt.map)
    | (with_reducible apply OkOpt.bind)
    | (with_reducible apply OkOpt.find)
    | (with_reducible apply OkOpt.fold)
    | (with_reducible apply OkOpt.getD (P := P))
    | (with_reducible apply ite_keeps (P := P))
    | (with_reducible apply when_keeps (P := P))
    | (with_reducible apply foldl_keeps (P := P))
    | (refine OkO.get (P := P) (by with_reducible assumption) ?_)
    | (refine OkOP.get (P := P) (by with_reducible assumption) ?_)
    | (refine OkOPP.get (P := P) (by with_reducible assumption) ?_)
    | (refine fun (t : State) (ht : P t) => ?_)
    | (refine fun (_ : _) (t : State) (ht : P t) => ?_)
    | (with_reducible intro t; first | (refine (fun (ht : P t) => ?_) (?_ : P t); rotate_left; subst t; rotate_right; clear_value t) | skip | skip)
    | lift_lets -underBinder
    | split
    | exact OkOpt.any

theorem State.takeFrames_keeps {P : State → Prop} (h : Stable [.ctr, .notify, .tm, .ev] P) (s : State) (a1 : _) (a2 : _) (a3 : _) (hs : P s) : OkOP P (State.takeFrames s a1 a2 a3) := by
  have k1 := @State.takeFrame_keeps P (h.mono rfl)
  unfold State.takeFrames
  repeat'
    first
    | with_reducible assumption
    | rfl
    | (with_reducible apply k1)
    | (with_reducible apply OkOpt.some)
    | (with_reducible apply OkOpt.none)
    | (with_reducible apply iteOpt_keeps)
    | (with_reducible apply OkOpt.map)
    | (with_reducible apply OkOpt.bind)
    | (with_reducible apply OkOpt.find)
    | (with_reducible apply OkOpt.fold)
    | (with_reducible apply OkOpt.getD (P := P))
    | (with_reducible apply ite_keeps (P := P))
    | (with_reducible apply foldl_keeps (P := P))
    | (refine OkO.get (P := P) (by with_reducible assumption) ?_)
    | (refine OkOP.get (P := P) (by with_reducible assumption) ?_)
    | (refine OkOPP.get (P := P) (by with_reducible assumption) ?_)
    | (refine fun (t : State) (ht : P t) => ?_)
    | (refine fun (_ : _) (t : State) (ht : P t) => ?_)
    | (with_reducible intro t; first | (refine (fun (ht : P t) => ?_) (?_ : P t); rotate_left; subst t; rotate_right; clear_value t) | skip | skip)
    | lift_lets -underBinder
    | split
    | exact OkOpt.any

theorem State.takeBulk_keeps {P : State → Prop} (h : Stable [.ctr, .notify, .tm, .ev] P) (s : State) (a1 : _) (a2 : _) (a3 : _) (a4 : _) (hs : P s) : OkO P (State.takeBulk s a1 a2 a3 a4) := by
  have k1 := @State.takeFrames_keeps P (h.mono rfl)
  have pUtm := h.tm rfl
  unfold State.takeBulk
  repeat'
    first
    | with_reducible assumption
    | rfl
    | (with_reducible apply k1)
    | (with_reducible refine pUtm _ _ (by with_reducible assumption))
    | (with_reducible apply OkOpt.some)
    | (with_reducible apply OkOpt.none)
    | (with_reducible apply iteOpt_keeps)
    | (with_reducible apply OkOpt.map)
    | (with_reducible apply OkOpt.bind)
    | (with_reducible apply OkOpt.find)
    | (with_reducible apply OkOpt.fold)
    | (with_reducible apply OkOpt.getD (P := P))
    | (with_reducible apply ite_keeps (P := P))
    | (with_reducible apply foldl_keeps (P := P))
    | (refine OkO.get (P := P) (by with_reducible assumption) ?_)
    | (refine OkOP.get (P := P) (by with_reducible assumption) ?_)
    | (refine OkOPP.get (P := P) (by with_reducible assumption) ?_)
    | (refine fun (t : State) (ht : P t) => ?_)
    | (refine fun (_ : _) (t : State) (ht : P t) => ?_)
    | (with_reducible intro t; first | (refine (fun (ht : P t) => ?_) (?_ : P t); rotate_left; subst t; rotate_right; clear_value t) | skip | skip)
    | lift_lets -underBinder
    | split
    | (with_reducible apply pUtm)
    | exact OkOpt.any

theorem State.freeBulkFrames_keeps {P : State → Prop} (h : Stable [.tm] P) (s : State) (a1 : _) (hs : P s) : P (State.freeBulkFrames s a1) := by
  have k1 := @State.setFrame_keeps P (h.mono rfl)
  unfold State.freeBulkFrames
  repeat'
    first
    | with_reducible assumption
    | rfl
    | (with_reducible apply k1)
    | (with_reducible apply ite_keeps (P := P))
    | (with_reducible apply each_keeps (P := P))
    | (with_reducible apply foldl_keeps (P := P))
    | (refine fun (t : State) (ht : P t) => ?_)
    | (refine fun (_ : _) (t : State) (ht : P t) => ?_)
    | (with_reducible intro t; first | (refine (fun (ht : P t) => ?_) (?_ : P t); rotate_left; subst t; rotate_right; clear_value t) | skip | skip)
    | lift_lets -underBinder
    | split

theorem State.freeBulk_keeps {P : State → Prop} (h : Stable [.tm] P) (s : State) (a1 : _) (hs : P s) : P (State.freeBulk s a1) := by
  have k1 := @State.freeBulkFrames_keeps P (h.mono rfl)
  have pUtm := h.tm rfl
  unfold State.freeBulk
  repeat'
    first
    | with_reducible assumption
    | rfl
    | (with_reducible apply k1)
    | (with_reducible refine pUtm _ _ (by with_reducible assumption))
    | (with_reducible apply ite_keeps (P := P))
    | (with_reducible apply each_keeps (P := P))
    | (with_reducible apply foldl_keeps (P := P))
    | (refine fun (t : State) (ht : P t) => ?_)
    | (refine fun (_ : _) (t : State) (ht : P t) => ?_)
    | (with_reducible intro t; first | (refine (fun (ht : P t) => ?_) (?_ : P t); rotate_left; subst t; rotate_right; clear_value t) | skip | skip)
    | lift_lets -underBinder
    | split
    | (with_reducible apply pUtm)

theorem State.fitBulk_keeps {P : State → Prop} (h : Stable [.tm] P) (s : State) (a1 : _) (a2 : _) (a3 : _) (a4 : _) (hs : P s) : P (State.fitBulk s a1 a2 a3 a4) := by
  have k1 := @State.freeBulkFrames_keeps P (h.mono rfl)
  have pUtm := h.tm rfl
  unfold State.fitBulk
  repeat'
    first
    | with_reducible assumption
    | rfl
    | (with_reducible apply k1)
    | (with_reducible refine pUtm _ _ (by with_reducible assumption))
    | (with_reducible apply ite_keeps (P := P))
    | (with_reducible apply foldl_keeps (P := P))
    | (refine fun (t : State) (ht : P t) => ?_)
    | (refine fun (_ : _) (t : State) (ht : P t) => ?_)
    | (with_reducible intro t; first | (refine (fun (ht : P t) => ?_) (?_ : P t); rotate_left; subst t; rotate_right; clear_value t) | skip | skip)
    | lift_lets -underBinder
    | split
    | (with_reducible apply pUtm)

theorem State.freeFrame_keeps {P : State → Prop} (h : Stable [.tm] P) (s : State) (a1 : _) (a2 : _) (a3 : _) (a4 : _) (hs : P s) : P (State.freeFrame s a1 a2 a3 a4) := by
  have k1 := @State.setFrame_keeps P (h.mono rfl)
  unfold State.freeFrame
  repeat'
    first
    | with_reducible assumption
    | rfl
    | (with_reducible apply k1)
    | (with_reducible apply ite_keeps (P := P))
    | (with_reducible apply foldl_keeps (P := P))
    | (refine fun (t : State) (ht : P t) => ?_)
    | (refine fun (_ : _) (t : State) (ht : P t) => ?_)
    | (with_reducible intro t; first | (refine (fun (ht : P t) => ?_) (?_ : P t); rotate_left; subst t; rotate_right; clear_value t) | skip | skip)
    | lift_lets -underBinder
    | split

theorem State.takeFar_keeps {P : State → Prop} (h : Stable [.tm] P) (s : State) (a1 : _) (a2 : _) (a3 : _) (hs : P s) : OkOP P (State.takeFar s a1 a2 a3) := by
  have pUtm := h.tm rfl
  unfold State.takeFar
  repeat'
    first
    | with_reducible assumption
    | rfl
    | (with_reducible refine pUtm _ _ (by with_reducible assumption))
    | (with_reducible apply OkOpt.some)
    | (with_reducible apply OkOpt.none)
    | (with_reducible apply iteOpt_keeps)
    | (with_reducible apply OkOpt.map)
    | (with_reducible apply OkOpt.bind)
    | (with_reducible apply OkOpt.find)
    | (with_reducible apply OkOpt.fold)
    | (with_reducible apply OkOpt.getD (P := P))
    | (with_reducible apply ite_keeps (P := P))
    | (with_reducible apply foldl_keeps (P := P))
    | (refine OkO.get (P := P) (by with_reducible assumption) ?_)
    | (refine OkOP.get (P := P) (by with_reducible assumption) ?_)
    | (refine OkOPP.get (P := P) (by with_reducible assumption) ?_)
    | (refine fun (t : State) (ht : P t) => ?_)
    | (refine fun (_ : _) (t : State) (ht : P t) => ?_)
    | (with_reducible intro t; first | (refine (fun (ht : P t) => ?_) (?_ : P t); rotate_left; subst t; rotate_right; clear_value t) | skip | skip)
    | lift_lets -underBinder
    | split
    | (with_reducible apply pUtm)
    | exact OkOpt.any

theorem State.freeFar_keeps {P : State → Prop} (h : Stable [.tm] P) (s : State) (a1 : _) (a2 : _) (a3 : _) (a4 : _) (hs : P s) : P (State.freeFar s a1 a2 a3 a4) := by
  have pUtm := h.tm rfl
  unfold State.freeFar
  repeat'
    first
    | with_reducible assumption
    | rfl
    | (with_reducible refine pUtm _ _ (by with_reducible assumption))
    | (with_reducible apply ite_keeps (P := P))
    | (with_reducible apply foldl_keeps (P := P))
    | (refine fun (t : State) (ht : P t) => ?_)
    | (refine fun (_ : _) (t : State) (ht : P t) => ?_)
    | (with_reducible intro t; first | (refine (fun (ht : P t) => ?_) (?_ : P t); rotate_left; subst t; rotate_right; clear_value t) | skip | skip)
    | lift_lets -underBinder
    | split
    | (with_reducible apply pUtm)

theorem State.farTests_keeps {P : State → Prop} (h : Stable [.out, .ctr, .tm, .sl, .ev] P) (s : State) (hs : P s) : P (State.farTests s) := by
  have k1 := @State.txRead_keeps P (h.mono rfl)
  have k2 := @State.txWrite_keeps P (h.mono rfl)
  have pUtm := h.tm rfl
  unfold State.farTests
  repeat'
    first
    | with_reducible assumption
    | rfl
    | (with_reducible apply k1)
    | (with_reducible apply k2)
    | (with_reducible refine pUtm _ _ (by with_reducible assumption))
    | (with_reducible apply ite_keeps (P := P))
    | (with_reducible apply each_keeps (P := P))
    | (with_reducible apply foldl_keeps (P := P))
    | (refine fun (t : State) (ht : P t) => ?_)
    | (refine fun (_ : _) (t : State) (ht : P t) => ?_)
    | (with_reducible intro t; first | (refine (fun (ht : P t) => ?_) (?_ : P t); rotate_left; subst t; rotate_right; clear_value t) | skip | skip)
    | lift_lets -underBinder
    | split
    | (with_reducible apply pUtm)

theorem State.setModel_keeps {P : State → Prop} (h : Stable [.fb] P) (s : State) (a1 : _) (a2 : _) (hs : P s) : P (State.setModel s a1 a2) := by
  have pUfb := h.fb rfl
  unfold State.setModel
  repeat'
    first
    | with_reducible assumption
    | rfl
    | (with_reducible refine pUfb _ _ (by with_reducible assumption))
    | (with_reducible apply ite_keeps (P := P))
    | (with_reducible apply foldl_keeps (P := P))
    | (refine fun (t : State) (ht : P t) => ?_)
    | (refine fun (_ : _) (t : State) (ht : P t) => ?_)
    | (with_reducible intro t; first | (refine (fun (ht : P t) => ?_) (?_ : P t); rotate_left; subst t; rotate_right; clear_value t) | skip | skip)
    | lift_lets -underBinder
    | split
    | (with_reducible apply pUfb)

theorem State.invalidate_keeps {P : State → Prop} (h : Stable [.ctr, .fb, .ev] P) (s : State) (a1 : _) (a2 : _) (hs : P s) : P (State.invalidate s a1 a2) := by
  have pInc := h.ctrInc rfl
  have pEv := h.ev rfl
  have pUfb := h.fb rfl
  unfold State.invalidate
  repeat'
    first
    | with_reducible assumption
    | rfl
    | (with_reducible apply pInc)
    | (with_reducible apply pEv)
    | (with_reducible refine pUfb _ _ (by with_reducible assumption))
    | (with_reducible apply ite_keeps (P := P))
    | (with_reducible apply each_keeps (P := P))
    | (with_reducible apply foldl_keeps (P := P))
    | (refine fun (t : State) (ht : P t) => ?_)
    | (refine fun (_ : _) (t : State) (ht : P t) => ?_)
    | (with_reducible intro t; first | (refine (fun (ht : P t) => ?_) (?_ : P t); rotate_left; subst t; rotate_right; clear_value t) | skip | skip)
    | lift_lets -underBinder
    | split
    | (with_reducible apply pUfb)

theorem State.trimWalk_keeps {P : State → Prop} (h : Stable [.fb, .ev] P) (s : State) (a1 : _) (a2 : _) (hs : P s) : P (State.trimWalk s a1 a2) := by
  have pEv := h.ev rfl
  have pUfb := h.fb rfl
  induction a2 generalizing s with
  | nil =>
    unfold State.trimWalk
    repeat'
      first
      | with_reducible assumption
      | rfl
      | (with_reducible apply pEv)
      | (with_reducible refine pUfb _ _ (by with_reducible assumption))
      | (with_reducible apply ite_keeps (P := P))
      | (with_reducible apply foldl_keeps (P := P))
      | (refine fun (t : State) (ht : P t) => ?_)
      | (refine fun (_ : _) (t : State) (ht : P t) => ?_)
      | (with_reducible intro t; first | (refine (fun (ht : P t) => ?_) (?_ : P t); rotate_left; subst t; rotate_right; clear_value t) | skip | skip)
      | lift_lets -underBinder
      | split
      | (with_reducible apply pUfb)
  | cons b l ih =>
    unfold State.trimWalk
    repeat'
      first
      | with_reducible assumption
      | rfl
      | (with_reducible apply ih)
      | (with_reducible apply pEv)
      | (with_reducible refine pUfb _ _ (by with_reducible assumption))
      | (with_reducible apply ite_keeps (P := P))
      | (with_reducible apply foldl_keeps (P := P))
      | (refine fun (t : State) (ht : P t) => ?_)
      | (refine fun (_ : _) (t : State) (ht : P t) => ?_)
      | (with_reducible intro t; first | (refine (fun (ht : P t) => ?_) (?_ : P t); rotate_left; subst t; rotate_right; clear_value t) | skip | skip)
      | lift_lets -underBinder
      | split
      | (with_reducible apply pUfb)

theorem State.walkRun_keeps {P : State → Prop} (h : Stable [.fb, .ev] P) (s : State) (a1 : _) (a2 : _) (a3 : _) (hs : P s) : P (State.walkRun s a1 a2 a3) := by
  have k1 := @State.trimWalk_keeps P (h.mono rfl)
  have pEv := h.ev rfl
  unfold State.walkRun
  repeat'
    first
    | with_reducible assumption
    | rfl
    | (with_reducible apply k1)
    | (with_reducible apply pEv)
    | (with_reducible apply ite_keeps (P := P))
    | (with_reducible apply foldl_keeps (P := P))
    | (refine fun (t : State) (ht : P t) => ?_)
    | (refine fun (_ : _) (t : State) (ht : P t) => ?_)
    | (with_reducible intro t; first | (refine (fun (ht : P t) => ?_) (?_ : P t); rotate_left; subst t; rotate_right; clear_value t) | skip | skip)
    | lift_lets -underBinder
    | split

theorem State.lookup_keeps {P : State → Prop} (h : Stable [.ctr, .fb, .ev] P) (s : State) (a1 : _) (a2 : _) (a3 : _) (hs : P s) : P (State.lookup s a1 a2 a3) := by
  have pInc := h.ctrInc rfl
  have pEv := h.ev rfl
  have pUfb := h.fb rfl
  unfold State.lookup
  repeat'
    first
    | with_reducible assumption
    | rfl
    | (with_reducible apply pInc)
    | (with_reducible apply pEv)
    | (with_reducible refine pUfb _ _ (by with_reducible assumption))
    | (with_reducible apply ite_keeps (P := P))
    | (with_reducible apply foldl_keeps (P := P))
    | (refine fun (t : State) (ht : P t) => ?_)
    | (refine fun (_ : _) (t : State) (ht : P t) => ?_)
    | (with_reducible intro t; first | (refine (fun (ht : P t) => ?_) (?_ : P t); rotate_left; subst t; rotate_right; clear_value t) | skip | skip)
    | lift_lets -underBinder
    | split
    | (with_reducible apply pUfb)

theorem State.setPage_keeps {P : State → Prop} (h : Stable [.ss] P) (s : State) (a1 : _) (a2 : _) (a3 : _) (hs : P s) : P (State.setPage s a1 a2 a3) := by
  have k1 := @State.setSess_keeps P (h.mono rfl)
  unfold State.setPage
  repeat'
    first
    | with_reducible assumption
    | rfl
    | (with_reducible apply k1)
    | (with_reducible apply ite_keeps (P := P))
    | (with_reducible apply foldl_keeps (P := P))
    | (refine fun (t : State) (ht : P t) => ?_)
    | (refine fun (_ : _) (t : State) (ht : P t) => ?_)
    | (with_reducible intro t; first | (refine (fun (ht : P t) => ?_) (?_ : P t); rotate_left; subst t; rotate_right; clear_value t) | skip | skip)
    | lift_lets -underBinder
    | split

theorem State.freeHome_keeps {P : State → Prop} (h : Stable [.tm] P) (s : State) (a1 : _) (a2 : _) (hs : P s) : P (State.freeHome s a1 a2) := by
  have k1 := @State.freeFrame_keeps P (h.mono rfl)
  have k2 := @State.freeFar_keeps P (h.mono rfl)
  unfold State.freeHome
  repeat'
    first
    | with_reducible assumption
    | rfl
    | (with_reducible apply k1)
    | (with_reducible apply k2)
    | (with_reducible apply ite_keeps (P := P))
    | (with_reducible apply foldl_keeps (P := P))
    | (refine fun (t : State) (ht : P t) => ?_)
    | (refine fun (_ : _) (t : State) (ht : P t) => ?_)
    | (with_reducible intro t; first | (refine (fun (ht : P t) => ?_) (?_ : P t); rotate_left; subst t; rotate_right; clear_value t) | skip | skip)
    | lift_lets -underBinder
    | split

theorem State.dropOne_keeps {P : State → Prop} (h : Stable [.ctr, .ss, .tm, .fb, .ev] P) (s : State) (a1 : _) (a2 : _) (hs : P s) : P (State.dropOne s a1 a2) := by
  have k1 := @State.invalidate_keeps P (h.mono rfl)
  have k2 := @State.freeHome_keeps P (h.mono rfl)
  have k3 := @State.setSess_keeps P (h.mono rfl)
  unfold State.dropOne
  repeat'
    first
    | with_reducible assumption
    | rfl
    | (with_reducible apply k1)
    | (with_reducible apply k2)
    | (with_reducible apply k3)
    | (with_reducible apply ite_keeps (P := P))
    | (with_reducible apply foldl_keeps (P := P))
    | (refine fun (t : State) (ht : P t) => ?_)
    | (refine fun (_ : _) (t : State) (ht : P t) => ?_)
    | (with_reducible intro t; first | (refine (fun (ht : P t) => ?_) (?_ : P t); rotate_left; subst t; rotate_right; clear_value t) | skip | skip)
    | lift_lets -underBinder
    | split

theorem State.dropPage_keeps {P : State → Prop} (h : Stable [.ctr, .ss, .tm, .fb, .ev] P) (s : State) (a1 : _) (a2 : _) (hs : P s) : P (State.dropPage s a1 a2) := by
  have k1 := @State.dropOne_keeps P (h.mono rfl)
  unfold State.dropPage
  repeat'
    first
    | with_reducible assumption
    | rfl
    | (with_reducible apply k1)
    | (with_reducible apply ite_keeps (P := P))
    | (with_reducible apply foldl_keeps (P := P))
    | (refine fun (t : State) (ht : P t) => ?_)
    | (refine fun (_ : _) (t : State) (ht : P t) => ?_)
    | (with_reducible intro t; first | (refine (fun (ht : P t) => ?_) (?_ : P t); rotate_left; subst t; rotate_right; clear_value t) | skip | skip)
    | lift_lets -underBinder
    | split

theorem State.placeNear_keeps {P : State → Prop} (h : Stable [.ctr, .notify, .tm, .ev] P) (s : State) (a1 : _) (a2 : _) (hs : P s) : OkOPP P (State.placeNear s a1 a2) := by
  have k1 := @State.takeFrame_keeps P (h.mono rfl)
  unfold State.placeNear
  repeat'
    first
    | with_reducible assumption
    | rfl
    | (with_reducible apply k1)
    | (with_reducible apply OkOpt.some)
    | (with_reducible apply OkOpt.none)
    | (with_reducible apply iteOpt_keeps)
    | (with_reducible apply OkOpt.map)
    | (with_reducible apply OkOpt.bind)
    | (with_reducible apply OkOpt.find)
    | (with_reducible apply OkOpt.fold)
    | (with_reducible apply OkOpt.getD (P := P))
    | (with_reducible apply ite_keeps (P := P))
    | (with_reducible apply foldl_keeps (P := P))
    | (refine OkO.get (P := P) (by with_reducible assumption) ?_)
    | (refine OkOP.get (P := P) (by with_reducible assumption) ?_)
    | (refine OkOPP.get (P := P) (by with_reducible assumption) ?_)
    | (refine fun (t : State) (ht : P t) => ?_)
    | (refine fun (_ : _) (t : State) (ht : P t) => ?_)
    | (with_reducible intro t; first | (refine (fun (ht : P t) => ?_) (?_ : P t); rotate_left; subst t; rotate_right; clear_value t) | skip | skip)
    | lift_lets -underBinder
    | split
    | exact OkOpt.any

theorem State.newPage_keeps {P : State → Prop} (h : Stable [.ctr, .notify, .ss, .tm, .ev] P) (s : State) (a1 : _) (a2 : _) (hs : P s) : OkO P (State.newPage s a1 a2) := by
  have k1 := @State.setPage_keeps P (h.mono rfl)
  have k2 := @State.placeNear_keeps P (h.mono rfl)
  unfold State.newPage
  repeat'
    first
    | with_reducible assumption
    | rfl
    | (with_reducible apply k1)
    | (with_reducible apply k2)
    | (with_reducible apply OkOpt.some)
    | (with_reducible apply OkOpt.none)
    | (with_reducible apply iteOpt_keeps)
    | (with_reducible apply OkOpt.map)
    | (with_reducible apply OkOpt.bind)
    | (with_reducible apply OkOpt.find)
    | (with_reducible apply OkOpt.fold)
    | (with_reducible apply OkOpt.getD (P := P))
    | (with_reducible apply ite_keeps (P := P))
    | (with_reducible apply foldl_keeps (P := P))
    | (refine OkO.get (P := P) (by with_reducible assumption) ?_)
    | (refine OkOP.get (P := P) (by with_reducible assumption) ?_)
    | (refine OkOPP.get (P := P) (by with_reducible assumption) ?_)
    | (refine fun (t : State) (ht : P t) => ?_)
    | (refine fun (_ : _) (t : State) (ht : P t) => ?_)
    | (with_reducible intro t; first | (refine (fun (ht : P t) => ?_) (?_ : P t); rotate_left; subst t; rotate_right; clear_value t) | skip | skip)
    | lift_lets -underBinder
    | split
    | exact OkOpt.any

theorem State.newPages_keeps {P : State → Prop} (h : Stable [.ctr, .notify, .ss, .tm, .ev] P) (s : State) (a1 : _) (a2 : _) (hs : P s) : OkO P (State.newPages s a1 a2) := by
  have k1 := @State.newPage_keeps P (h.mono rfl)
  unfold State.newPages
  repeat'
    first
    | with_reducible assumption
    | rfl
    | (with_reducible apply k1)
    | (with_reducible apply OkOpt.some)
    | (with_reducible apply OkOpt.none)
    | (with_reducible apply iteOpt_keeps)
    | (with_reducible apply OkOpt.map)
    | (with_reducible apply OkOpt.bind)
    | (with_reducible apply OkOpt.find)
    | (with_reducible apply OkOpt.fold)
    | (with_reducible apply OkOpt.getD (P := P))
    | (with_reducible apply ite_keeps (P := P))
    | (with_reducible apply foldl_keeps (P := P))
    | (refine OkO.get (P := P) (by with_reducible assumption) ?_)
    | (refine OkOP.get (P := P) (by with_reducible assumption) ?_)
    | (refine OkOPP.get (P := P) (by with_reducible assumption) ?_)
    | (refine fun (t : State) (ht : P t) => ?_)
    | (refine fun (_ : _) (t : State) (ht : P t) => ?_)
    | (with_reducible intro t; first | (refine (fun (ht : P t) => ?_) (?_ : P t); rotate_left; subst t; rotate_right; clear_value t) | skip | skip)
    | lift_lets -underBinder
    | split
    | exact OkOpt.any

theorem State.poison_keeps {P : State → Prop} (h : Stable [.ctr, .ss, .tm, .fb, .journal, .ev] P) (s : State) (a1 : _) (a2 : _) (a3 : _) (a4 : _) (hs : P s) : P (State.poison s a1 a2 a3 a4) := by
  have k1 := @State.setSess_keeps P (h.mono rfl)
  have k2 := @State.setFrame_keeps P (h.mono rfl)
  have k3 := @State.invalidate_keeps P (h.mono rfl)
  have pInc := h.ctrInc rfl
  have pEv := h.ev rfl
  have pJournal := h.journal rfl
  unfold State.poison
  repeat'
    first
    | with_reducible assumption
    | rfl
    | (with_reducible apply k1)
    | (with_reducible apply k2)
    | (with_reducible apply k3)
    | (with_reducible apply pInc)
    | (with_reducible apply pEv)
    | (with_reducible apply pJournal)
    | (with_reducible apply ite_keeps (P := P))
    | (with_reducible apply when_keeps (P := P))
    | (with_reducible apply foldl_keeps (P := P))
    | (refine fun (t : State) (ht : P t) => ?_)
    | (refine fun (_ : _) (t : State) (ht : P t) => ?_)
    | (with_reducible intro t; first | (refine (fun (ht : P t) => ?_) (?_ : P t); rotate_left; subst t; rotate_right; clear_value t) | skip | skip)
    | lift_lets -underBinder
    | split

theorem State.tagFail_keeps {P : State → Prop} (h : Stable [.ctr, .notify, .ss, .tm, .fb, .journal, .ev] P) (s : State) (a1 : _) (a2 : _) (a3 : _) (hs : P s) : P (State.tagFail s a1 a2 a3) := by
  have k1 := @State.poison_keeps P (h.mono rfl)
  have pInc := h.ctrInc rfl
  have pEv := h.ev rfl
  have pNotify := h.notify rfl
  unfold State.tagFail
  repeat'
    first
    | with_reducible assumption
    | rfl
    | exact ite_ro rfl rfl
    | (with_reducible apply k1)
    | (with_reducible apply pInc)
    | (with_reducible apply pEv)
    | (with_reducible apply pNotify)
    | (with_reducible apply ite_keeps (P := P))
    | (with_reducible apply foldl_keeps (P := P))
    | (refine fun (t : State) (ht : P t) => ?_)
    | (refine fun (_ : _) (t : State) (ht : P t) => ?_)
    | (with_reducible intro t; first | (refine (fun (ht : P t) => ?_) (?_ : P t); rotate_left; subst t; rotate_right; clear_value t) | skip | skip)
    | lift_lets -underBinder
    | split

theorem State.readLost_keeps {P : State → Prop} (h : Stable [.ctr, .ss, .tm, .fb, .journal, .ev] P) (s : State) (a1 : _) (a2 : _) (a3 : _) (hs : P s) : P (State.readLost s a1 a2 a3) := by
  have k1 := @State.poison_keeps P (h.mono rfl)
  have pInc := h.ctrInc rfl
  have pEv := h.ev rfl
  unfold State.readLost
  repeat'
    first
    | with_reducible assumption
    | rfl
    | (with_reducible apply k1)
    | (with_reducible apply pInc)
    | (with_reducible apply pEv)
    | (with_reducible apply ite_keeps (P := P))
    | (with_reducible apply foldl_keeps (P := P))
    | (refine fun (t : State) (ht : P t) => ?_)
    | (refine fun (_ : _) (t : State) (ht : P t) => ?_)
    | (with_reducible intro t; first | (refine (fun (ht : P t) => ?_) (?_ : P t); rotate_left; subst t; rotate_right; clear_value t) | skip | skip)
    | lift_lets -underBinder
    | split

theorem State.reread_keeps {P : State → Prop} (h : Stable [.ctr, .journal, .ev] P) (s : State) (a1 : _) (a2 : _) (a3 : _) (a4 : _) (hs : P s) : P (State.reread s a1 a2 a3 a4) := by
  have pInc := h.ctrInc rfl
  have pEv := h.ev rfl
  have pJournal := h.journal rfl
  unfold State.reread
  repeat'
    first
    | with_reducible assumption
    | rfl
    | (with_reducible apply pInc)
    | (with_reducible apply pEv)
    | (with_reducible apply pJournal)
    | (with_reducible apply ite_keeps (P := P))
    | (with_reducible apply when_keeps (P := P))
    | (with_reducible apply foldl_keeps (P := P))
    | (refine fun (t : State) (ht : P t) => ?_)
    | (refine fun (_ : _) (t : State) (ht : P t) => ?_)
    | (with_reducible intro t; first | (refine (fun (ht : P t) => ?_) (?_ : P t); rotate_left; subst t; rotate_right; clear_value t) | skip | skip)
    | lift_lets -underBinder
    | split

theorem State.nextNonce_keeps {P : State → Prop} (h : Stable [.ctr, .nv, .sc] P) (s : State) (a1 : _) (hs : P s) : P (State.nextNonce s a1) := by
  have pStore := h.store rfl
  have pUsc := h.sc rfl
  have pUnv := h.nv rfl
  unfold State.nextNonce
  repeat'
    first
    | with_reducible assumption
    | rfl
    | (with_reducible apply pStore)
    | (with_reducible refine pUsc _ _ (by dsimp only [Security.rest]) (by with_reducible assumption))
    | (with_reducible refine pUnv _ _ (by dsimp only [NV.rest]) (by with_reducible assumption))
    | (with_reducible apply ite_keeps (P := P))
    | (with_reducible apply when_keeps (P := P))
    | (with_reducible apply foldl_keeps (P := P))
    | (refine fun (t : State) (ht : P t) => ?_)
    | (refine fun (_ : _) (t : State) (ht : P t) => ?_)
    | (with_reducible intro t; first | (refine (fun (ht : P t) => ?_) (?_ : P t); rotate_left; subst t; rotate_right; clear_value t) | skip | skip)
    | lift_lets -underBinder
    | split
    | (with_reducible apply pUsc)
    | (with_reducible apply pUnv)

theorem State.nextVersion_keeps {P : State → Prop} (h : Stable [.ctr, .nv, .sc, .tm] P) (s : State) (a1 : _) (hs : P s) : OkP P (State.nextVersion s a1) := by
  have k1 := @State.nextNonce_keeps P (h.mono rfl)
  have pStore := h.store rfl
  have pUtm := h.tm rfl
  have pUnv := h.nv rfl
  unfold State.nextVersion
  repeat'
    first
    | with_reducible assumption
    | rfl
    | (with_reducible apply k1)
    | (with_reducible apply pStore)
    | (with_reducible refine pUtm _ _ (by with_reducible assumption))
    | (with_reducible refine pUnv _ _ (by dsimp only [NV.rest]) (by with_reducible assumption))
    | (with_reducible apply iteP_keeps (P := P))
    | (with_reducible apply ite_keeps (P := P))
    | (with_reducible apply when_keeps (P := P))
    | (with_reducible apply foldl_keeps (P := P))
    | (with_reducible apply foldP_keeps (P := P))
    | (refine OkP.get (P := P) (by with_reducible assumption) ?_)
    | (with_reducible apply OkP.snd (P := P))
    | (refine fun (t : State) (ht : P t) => ?_)
    | (refine fun (_ : _) (t : State) (ht : P t) => ?_)
    | (with_reducible intro t; first | (refine (fun (ht : P t) => ?_) (?_ : P t); rotate_left; subst t; rotate_right; clear_value t) | skip | skip)
    | lift_lets -underBinder
    | split
    | (with_reducible apply pUtm)
    | (with_reducible apply pUnv)
    | (with_reducible apply OkP.mk (P := P))

theorem State.written_keeps {P : State → Prop} (h : Stable [.ctr, .nv, .sc, .tm] P) (s : State) (a1 : _) (a2 : _) (a3 : _) (a4 : _) (hs : P s) : OkP P (State.written s a1 a2 a3 a4) := by
  have k1 := @State.nextVersion_keeps P (h.mono rfl)
  unfold State.written
  repeat'
    first
    | with_reducible assumption
    | rfl
    | (with_reducible apply k1)
    | (with_reducible apply iteP_keeps (P := P))
    | (with_reducible apply ite_keeps (P := P))
    | (with_reducible apply foldl_keeps (P := P))
    | (with_reducible apply foldP_keeps (P := P))
    | (refine OkP.get (P := P) (by with_reducible assumption) ?_)
    | (with_reducible apply OkP.snd (P := P))
    | (refine fun (t : State) (ht : P t) => ?_)
    | (refine fun (_ : _) (t : State) (ht : P t) => ?_)
    | (with_reducible intro t; first | (refine (fun (ht : P t) => ?_) (?_ : P t); rotate_left; subst t; rotate_right; clear_value t) | skip | skip)
    | lift_lets -underBinder
    | split
    | (with_reducible apply OkP.mk (P := P))

theorem State.setMove_keeps {P : State → Prop} (h : Stable [.tm] P) (s : State) (a1 : _) (hs : P s) : P (State.setMove s a1) := by
  have pUtm := h.tm rfl
  unfold State.setMove
  repeat'
    first
    | with_reducible assumption
    | rfl
    | (with_reducible refine pUtm _ _ (by with_reducible assumption))
    | (with_reducible apply ite_keeps (P := P))
    | (with_reducible apply foldl_keeps (P := P))
    | (refine fun (t : State) (ht : P t) => ?_)
    | (refine fun (_ : _) (t : State) (ht : P t) => ?_)
    | (with_reducible intro t; first | (refine (fun (ht : P t) => ?_) (?_ : P t); rotate_left; subst t; rotate_right; clear_value t) | skip | skip)
    | lift_lets -underBinder
    | split
    | (with_reducible apply pUtm)

theorem State.farIo_keeps {P : State → Prop} (h : Stable [.out, .ctr, .nv, .sc, .tm, .sl, .ev] P) (s : State) (a1 : _) (hs : P s) : P (State.farIo s a1) := by
  have k1 := @State.written_keeps P (h.mono rfl)
  have k2 := @State.setMove_keeps P (h.mono rfl)
  have k3 := @State.bulkFlush_keeps P (h.mono rfl)
  have k4 := @State.bulkWrite_keeps P (h.mono rfl)
  have k5 := @State.bulkRead_keeps P (h.mono rfl)
  unfold State.farIo
  repeat'
    first
    | with_reducible assumption
    | rfl
    | (with_reducible apply k1)
    | (with_reducible apply k2)
    | (with_reducible apply k3)
    | (with_reducible apply k4)
    | (with_reducible apply k5)
    | (with_reducible apply iteP_keeps (P := P))
    | (with_reducible apply ite_keeps (P := P))
    | (with_reducible apply foldl_keeps (P := P))
    | (with_reducible apply foldP_keeps (P := P))
    | (refine OkP.get (P := P) (by with_reducible assumption) ?_)
    | (with_reducible apply OkP.snd (P := P))
    | (refine fun (t : State) (ht : P t) => ?_)
    | (refine fun (_ : _) (t : State) (ht : P t) => ?_)
    | (with_reducible intro t; first | (refine (fun (ht : P t) => ?_) (?_ : P t); rotate_left; subst t; rotate_right; clear_value t) | skip | skip)
    | lift_lets -underBinder
    | split
    | (with_reducible apply OkP.mk (P := P))

theorem State.startMoves_keeps {P : State → Prop} (h : Stable [.out, .ctr, .nv, .sc, .tm, .fb, .sl, .ev] P) (s : State) (hs : P s) : P (State.startMoves s) := by
  have k1 := @State.takeSlot_keeps P (h.mono rfl)
  have k2 := @State.farIo_keeps P (h.mono rfl)
  have k3 := @State.lookup_keeps P (h.mono rfl)
  have k4 := @State.setMove_keeps P (h.mono rfl)
  unfold State.startMoves
  repeat'
    first
    | with_reducible assumption
    | rfl
    | (with_reducible apply k1)
    | (with_reducible apply k2)
    | (with_reducible apply k3)
    | (with_reducible apply k4)
    | (with_reducible apply OkOpt.some)
    | (with_reducible apply OkOpt.none)
    | (with_reducible apply iteOpt_keeps)
    | (with_reducible apply OkOpt.map)
    | (with_reducible apply OkOpt.bind)
    | (with_reducible apply OkOpt.find)
    | (with_reducible apply OkOpt.fold)
    | (with_reducible apply OkOpt.getD (P := P))
    | (with_reducible apply ite_keeps (P := P))
    | (with_reducible apply each_keeps (P := P))
    | (with_reducible apply foldl_keeps (P := P))
    | (refine OkO.get (P := P) (by with_reducible assumption) ?_)
    | (refine OkOP.get (P := P) (by with_reducible assumption) ?_)
    | (refine OkOPP.get (P := P) (by with_reducible assumption) ?_)
    | (refine fun (t : State) (ht : P t) => ?_)
    | (refine fun (_ : _) (t : State) (ht : P t) => ?_)
    | (with_reducible intro t; first | (refine (fun (ht : P t) => ?_) (?_ : P t); rotate_left; subst t; rotate_right; clear_value t) | skip | skip)
    | lift_lets -underBinder
    | split
    | exact OkOpt.any

theorem State.addMove_keeps {P : State → Prop} (h : Stable [.out, .ctr, .nv, .sc, .ss, .tm, .fb, .sl, .ev] P) (s : State) (a1 : _) (hs : P s) : P (State.addMove s a1) := by
  have k1 := @State.setPage_keeps P (h.mono rfl)
  have k2 := @State.startMoves_keeps P (h.mono rfl)
  have k3 := @State.trackWait_keeps P (h.mono rfl)
  have pEv := h.ev rfl
  have pUtm := h.tm rfl
  unfold State.addMove
  repeat'
    first
    | with_reducible assumption
    | rfl
    | (with_reducible apply k1)
    | (with_reducible apply k2)
    | (with_reducible apply k3)
    | (with_reducible apply pEv)
    | (with_reducible refine pUtm _ _ (by with_reducible assumption))
    | (with_reducible apply ite_keeps (P := P))
    | (with_reducible apply when_keeps (P := P))
    | (with_reducible apply foldl_keeps (P := P))
    | (refine fun (t : State) (ht : P t) => ?_)
    | (refine fun (_ : _) (t : State) (ht : P t) => ?_)
    | (with_reducible intro t; first | (refine (fun (ht : P t) => ?_) (?_ : P t); rotate_left; subst t; rotate_right; clear_value t) | skip | skip)
    | lift_lets -underBinder
    | split
    | (with_reducible apply pUtm)

theorem State.freeDest_keeps {P : State → Prop} (h : Stable [.tm] P) (s : State) (a1 : _) (hs : P s) : P (State.freeDest s a1) := by
  have k1 := @State.freeFrame_keeps P (h.mono rfl)
  have k2 := @State.freeFar_keeps P (h.mono rfl)
  unfold State.freeDest
  repeat'
    first
    | with_reducible assumption
    | rfl
    | (with_reducible apply k1)
    | (with_reducible apply k2)
    | (with_reducible apply ite_keeps (P := P))
    | (with_reducible apply foldl_keeps (P := P))
    | (refine fun (t : State) (ht : P t) => ?_)
    | (refine fun (_ : _) (t : State) (ht : P t) => ?_)
    | (with_reducible intro t; first | (refine (fun (ht : P t) => ?_) (?_ : P t); rotate_left; subst t; rotate_right; clear_value t) | skip | skip)
    | lift_lets -underBinder
    | split

theorem State.endMove_keeps {P : State → Prop} (h : Stable [.out, .ctr, .nv, .sc, .tm, .fb, .sl, .ev] P) (s : State) (a1 : _) (hs : P s) : P (State.endMove s a1) := by
  have k1 := @State.forgetOps_keeps P (h.mono rfl)
  have k2 := @State.startMoves_keeps P (h.mono rfl)
  have k3 := @State.freeSlot_keeps P (h.mono rfl)
  have pUtm := h.tm rfl
  unfold State.endMove
  repeat'
    first
    | with_reducible assumption
    | rfl
    | (with_reducible apply k1)
    | (with_reducible apply k2)
    | (with_reducible apply k3)
    | (with_reducible refine pUtm _ _ (by with_reducible assumption))
    | (with_reducible apply ite_keeps (P := P))
    | (with_reducible apply when_keeps (P := P))
    | (with_reducible apply foldl_keeps (P := P))
    | (refine fun (t : State) (ht : P t) => ?_)
    | (refine fun (_ : _) (t : State) (ht : P t) => ?_)
    | (with_reducible intro t; first | (refine (fun (ht : P t) => ?_) (?_ : P t); rotate_left; subst t; rotate_right; clear_value t) | skip | skip)
    | lift_lets -underBinder
    | split
    | (with_reducible apply pUtm)

theorem State.failMove_keeps {P : State → Prop} (h : Stable [.out, .ctr, .nv, .sc, .ss, .tm, .fb, .sl, .ev] P) (s : State) (a1 : _) (hs : P s) : P (State.failMove s a1) := by
  have k1 := @State.endMove_keeps P (h.mono rfl)
  have k2 := @State.freeDest_keeps P (h.mono rfl)
  have k3 := @State.setPage_keeps P (h.mono rfl)
  unfold State.failMove
  repeat'
    first
    | with_reducible assumption
    | rfl
    | (with_reducible apply k1)
    | (with_reducible apply k2)
    | (with_reducible apply k3)
    | (with_reducible apply ite_keeps (P := P))
    | (with_reducible apply foldl_keeps (P := P))
    | (refine fun (t : State) (ht : P t) => ?_)
    | (refine fun (_ : _) (t : State) (ht : P t) => ?_)
    | (with_reducible intro t; first | (refine (fun (ht : P t) => ?_) (?_ : P t); rotate_left; subst t; rotate_right; clear_value t) | skip | skip)
    | lift_lets -underBinder
    | split

theorem State.switchHome_keeps {P : State → Prop} (h : Stable [.out, .ctr, .nv, .sc, .ss, .tm, .fb, .sl, .ev] P) (s : State) (a1 : _) (hs : P s) : P (State.switchHome s a1) := by
  have k1 := @State.failMove_keeps P (h.mono rfl)
  have k2 := @State.written_keeps P (h.mono rfl)
  have k3 := @State.endMove_keeps P (h.mono rfl)
  have k4 := @State.invalidate_keeps P (h.mono rfl)
  have k5 := @State.freeHome_keeps P (h.mono rfl)
  have k6 := @State.setPage_keeps P (h.mono rfl)
  have pInc := h.ctrInc rfl
  have pEv := h.ev rfl
  unfold State.switchHome
  repeat'
    first
    | with_reducible assumption
    | rfl
    | (with_reducible apply k1)
    | (with_reducible apply k2)
    | (with_reducible apply k3)
    | (with_reducible apply k4)
    | (with_reducible apply k5)
    | (with_reducible apply k6)
    | (with_reducible apply pInc)
    | (with_reducible apply pEv)
    | (with_reducible apply iteP_keeps (P := P))
    | (with_reducible apply ite_keeps (P := P))
    | (with_reducible apply when_keeps (P := P))
    | (with_reducible apply foldl_keeps (P := P))
    | (with_reducible apply foldP_keeps (P := P))
    | (refine OkP.get (P := P) (by with_reducible assumption) ?_)
    | (with_reducible apply OkP.snd (P := P))
    | (refine fun (t : State) (ht : P t) => ?_)
    | (refine fun (_ : _) (t : State) (ht : P t) => ?_)
    | (with_reducible intro t; first | (refine (fun (ht : P t) => ?_) (?_ : P t); rotate_left; subst t; rotate_right; clear_value t) | clear_value t | skip)
    | lift_lets -underBinder
    | split
    | (with_reducible apply OkP.mk (P := P))

theorem State.touchEntry_keeps {P : State → Prop} (h : Stable [.ctr, .ss, .ev] P) (s : State) (a1 : _) (hs : P s) : P (State.touchEntry s a1) := by
  have pInc := h.ctrInc rfl
  have pEv := h.ev rfl
  have pUss := h.ss rfl
  unfold State.touchEntry
  repeat'
    first
    | with_reducible assumption
    | rfl
    | (with_reducible apply pInc)
    | (with_reducible apply pEv)
    | (with_reducible refine pUss _ _ (by with_reducible assumption))
    | (with_reducible apply ite_keeps (P := P))
    | (with_reducible apply foldl_keeps (P := P))
    | (refine fun (t : State) (ht : P t) => ?_)
    | (refine fun (_ : _) (t : State) (ht : P t) => ?_)
    | (with_reducible intro t; first | (refine (fun (ht : P t) => ?_) (?_ : P t); rotate_left; subst t; rotate_right; clear_value t) | skip | skip)
    | lift_lets -underBinder
    | split
    | (with_reducible apply pUss)

theorem State.pinWait_keeps {P : State → Prop} (h : Stable [.ctr, .ev] P) (s : State) (a1 : _) (hs : P s) : P (State.pinWait s a1) := by
  have pInc := h.ctrInc rfl
  have pEv := h.ev rfl
  unfold State.pinWait
  repeat'
    first
    | with_reducible assumption
    | rfl
    | (with_reducible apply pInc)
    | (with_reducible apply pEv)
    | (with_reducible apply ite_keeps (P := P))
    | (with_reducible apply foldl_keeps (P := P))
    | (refine fun (t : State) (ht : P t) => ?_)
    | (refine fun (_ : _) (t : State) (ht : P t) => ?_)
    | (with_reducible intro t; first | (refine (fun (ht : P t) => ?_) (?_ : P t); rotate_left; subst t; rotate_right; clear_value t) | skip | skip)
    | lift_lets -underBinder
    | split

theorem State.toState_keeps {P : State → Prop} (h : Stable [.ss, .ev] P) (s : State) (a1 : _) (a2 : _) (hs : P s) : P (State.toState s a1 a2) := by
  have k1 := @State.setSess_keeps P (h.mono rfl)
  have pEv := h.ev rfl
  unfold State.toState
  repeat'
    first
    | with_reducible assumption
    | rfl
    | (with_reducible apply k1)
    | (with_reducible apply pEv)
    | (with_reducible apply ite_keeps (P := P))
    | (with_reducible apply foldl_keeps (P := P))
    | (refine fun (t : State) (ht : P t) => ?_)
    | (refine fun (_ : _) (t : State) (ht : P t) => ?_)
    | (with_reducible intro t; first | (refine (fun (ht : P t) => ?_) (?_ : P t); rotate_left; subst t; rotate_right; clear_value t) | skip | skip)
    | lift_lets -underBinder
    | split

theorem State.dropDraft_keeps {P : State → Prop} (h : Stable [.ctr, .ss, .tm, .fb, .ev] P) (s : State) (a1 : _) (hs : P s) : P (State.dropDraft s a1) := by
  have k1 := @State.dropPage_keeps P (h.mono rfl)
  have k2 := @State.setSess_keeps P (h.mono rfl)
  unfold State.dropDraft
  repeat'
    first
    | with_reducible assumption
    | rfl
    | (with_reducible apply k1)
    | (with_reducible apply k2)
    | (with_reducible apply ite_keeps (P := P))
    | (with_reducible apply each_keeps (P := P))
    | (with_reducible apply foldl_keeps (P := P))
    | (refine fun (t : State) (ht : P t) => ?_)
    | (refine fun (_ : _) (t : State) (ht : P t) => ?_)
    | (with_reducible intro t; first | (refine (fun (ht : P t) => ?_) (?_ : P t); rotate_left; subst t; rotate_right; clear_value t) | skip | skip)
    | lift_lets -underBinder
    | split

theorem State.beginMoving_keeps {P : State → Prop} (h : Stable [.ctr, .ss, .tm, .fb, .ev] P) (s : State) (a1 : _) (a2 : _) (a3 : _) (hs : P s) : P (State.beginMoving s a1 a2 a3) := by
  have k1 := @State.dropDraft_keeps P (h.mono rfl)
  have k2 := @State.setSess_keeps P (h.mono rfl)
  have k3 := @State.toState_keeps P (h.mono rfl)
  unfold State.beginMoving
  repeat'
    first
    | with_reducible assumption
    | rfl
    | (with_reducible apply k1)
    | (with_reducible apply k2)
    | (with_reducible apply k3)
    | (with_reducible apply ite_keeps (P := P))
    | (with_reducible apply foldl_keeps (P := P))
    | (refine fun (t : State) (ht : P t) => ?_)
    | (refine fun (_ : _) (t : State) (ht : P t) => ?_)
    | (with_reducible intro t; first | (refine (fun (ht : P t) => ?_) (?_ : P t); rotate_left; subst t; rotate_right; clear_value t) | skip | skip)
    | lift_lets -underBinder
    | split

theorem State.evictDeep_keeps {P : State → Prop} (h : Stable [.out, .ctr, .nv, .sc, .ss, .tm, .fb, .sl, .ev] P) (s : State) (a1 : _) (a2 : _) (hs : P s) : P (State.evictDeep s a1 a2) := by
  have k1 := @State.pinWait_keeps P (h.mono rfl)
  have k2 := @State.beginMoving_keeps P (h.mono rfl)
  have k3 := @State.touchEntry_keeps P (h.mono rfl)
  have k4 := @State.takeFar_keeps P (h.mono rfl)
  have k5 := @State.addMove_keeps P (h.mono rfl)
  unfold State.evictDeep
  repeat'
    first
    | with_reducible assumption
    | rfl
    | (with_reducible apply k1)
    | (with_reducible apply k2)
    | (with_reducible apply k3)
    | (with_reducible apply k4)
    | (with_reducible apply k5)
    | (with_reducible apply OkOpt.some)
    | (with_reducible apply OkOpt.none)
    | (with_reducible apply iteOpt_keeps)
    | (with_reducible apply OkOpt.map)
    | (with_reducible apply OkOpt.bind)
    | (with_reducible apply OkOpt.find)
    | (with_reducible apply OkOpt.fold)
    | (with_reducible apply OkOpt.getD (P := P))
    | (with_reducible apply ite_keeps (P := P))
    | (with_reducible apply foldl_keeps (P := P))
    | (refine OkO.get (P := P) (by with_reducible assumption) ?_)
    | (refine OkOP.get (P := P) (by with_reducible assumption) ?_)
    | (refine OkOPP.get (P := P) (by with_reducible assumption) ?_)
    | (refine fun (t : State) (ht : P t) => ?_)
    | (refine fun (_ : _) (t : State) (ht : P t) => ?_)
    | (with_reducible intro t; first | (refine (fun (ht : P t) => ?_) (?_ : P t); rotate_left; subst t; rotate_right; clear_value t) | skip | skip)
    | lift_lets -underBinder
    | split
    | exact OkOpt.any

theorem State.evictOne_keeps {P : State → Prop} (h : Stable [.out, .ctr, .nv, .notify, .sc, .ss, .tm, .fb, .sl, .ev] P) (s : State) (a1 : _) (a2 : _) (a3 : _) (hs : P s) : P (State.evictOne s a1 a2 a3) := by
  have k1 := @State.takeFrame_keeps P (h.mono rfl)
  have k2 := @State.addMove_keeps P (h.mono rfl)
  have k3 := @State.evictDeep_keeps P (h.mono rfl)
  unfold State.evictOne
  repeat'
    first
    | with_reducible assumption
    | rfl
    | (with_reducible apply k1)
    | (with_reducible apply k2)
    | (with_reducible apply k3)
    | (with_reducible apply OkOpt.some)
    | (with_reducible apply OkOpt.none)
    | (with_reducible apply iteOpt_keeps)
    | (with_reducible apply OkOpt.map)
    | (with_reducible apply OkOpt.bind)
    | (with_reducible apply OkOpt.find)
    | (with_reducible apply OkOpt.fold)
    | (with_reducible apply OkOpt.getD (P := P))
    | (with_reducible apply ite_keeps (P := P))
    | (with_reducible apply foldl_keeps (P := P))
    | (refine OkO.get (P := P) (by with_reducible assumption) ?_)
    | (refine OkOP.get (P := P) (by with_reducible assumption) ?_)
    | (refine OkOPP.get (P := P) (by with_reducible assumption) ?_)
    | (refine fun (t : State) (ht : P t) => ?_)
    | (refine fun (_ : _) (t : State) (ht : P t) => ?_)
    | (with_reducible intro t; first | (refine (fun (ht : P t) => ?_) (?_ : P t); rotate_left; subst t; rotate_right; clear_value t) | skip | skip)
    | lift_lets -underBinder
    | split
    | exact OkOpt.any

theorem State.markEvicting_keeps {P : State → Prop} (h : Stable [.tm] P) (s : State) (a1 : _) (a2 : _) (hs : P s) : P (State.markEvicting s a1 a2) := by
  have pUtm := h.tm rfl
  unfold State.markEvicting
  repeat'
    first
    | with_reducible assumption
    | rfl
    | (with_reducible refine pUtm _ _ (by with_reducible assumption))
    | (with_reducible apply ite_keeps (P := P))
    | (with_reducible apply foldl_keeps (P := P))
    | (refine fun (t : State) (ht : P t) => ?_)
    | (refine fun (_ : _) (t : State) (ht : P t) => ?_)
    | (with_reducible intro t; first | (refine (fun (ht : P t) => ?_) (?_ : P t); rotate_left; subst t; rotate_right; clear_value t) | skip | skip)
    | lift_lets -underBinder
    | split
    | (with_reducible apply pUtm)

theorem State.background_keeps {P : State → Prop} (h : Stable [.out, .ctr, .nv, .notify, .sc, .ss, .tm, .fb, .sl, .ev] P) (s : State) (a1 : _) (a2 : _) (hs : P s) : P (State.background s a1 a2) := by
  have k1 := @State.evictOne_keeps P (h.mono rfl)
  have k2 := @State.markEvicting_keeps P (h.mono rfl)
  have pUtm := h.tm rfl
  unfold State.background
  repeat'
    first
    | with_reducible assumption
    | rfl
    | (with_reducible apply k1)
    | (with_reducible apply k2)
    | (with_reducible refine pUtm _ _ (by with_reducible assumption))
    | (with_reducible apply ite_keeps (P := P))
    | (with_reducible apply foldl_keeps (P := P))
    | (refine fun (t : State) (ht : P t) => ?_)
    | (refine fun (_ : _) (t : State) (ht : P t) => ?_)
    | (with_reducible intro t; first | (refine (fun (ht : P t) => ?_) (?_ : P t); rotate_left; subst t; rotate_right; clear_value t) | skip | skip)
    | lift_lets -underBinder
    | split
    | (with_reducible apply pUtm)

theorem State.starve_keeps {P : State → Prop} (h : Stable [.out, .ctr, .nv, .notify, .sc, .ss, .tm, .fb, .sl, .ev] P) (s : State) (a1 : _) (a2 : _) (a3 : _) (hs : P s) : P (State.starve s a1 a2 a3) := by
  have k1 := @State.evictOne_keeps P (h.mono rfl)
  have k2 := @State.markEvicting_keeps P (h.mono rfl)
  unfold State.starve
  repeat'
    first
    | with_reducible assumption
    | rfl
    | (with_reducible apply k1)
    | (with_reducible apply k2)
    | (with_reducible apply ite_keeps (P := P))
    | (with_reducible apply each_keeps (P := P))
    | (with_reducible apply foldl_keeps (P := P))
    | (refine fun (t : State) (ht : P t) => ?_)
    | (refine fun (_ : _) (t : State) (ht : P t) => ?_)
    | (with_reducible intro t; first | (refine (fun (ht : P t) => ?_) (?_ : P t); rotate_left; subst t; rotate_right; clear_value t) | skip | skip)
    | lift_lets -underBinder
    | split

theorem State.domWait_keeps {P : State → Prop} (h : Stable [.out, .ctr, .nv, .notify, .sc, .ss, .tm, .fb, .sl, .ev] P) (s : State) (a1 : _) (a2 : _) (a3 : _) (f : State → State) (hf : ∀ t, P t → P (f t)) (hs : P s) : P (State.domWait s a1 a2 a3 f) := by
  have k1 := @State.starve_keeps P (h.mono rfl)
  have pInc := h.ctrInc rfl
  have pEv := h.ev rfl
  have pNotify := h.notify rfl
  unfold State.domWait
  repeat'
    first
    | with_reducible assumption
    | rfl
    | (with_reducible apply k1)
    | (with_reducible apply pInc)
    | (with_reducible apply pEv)
    | (with_reducible apply pNotify)
    | (with_reducible apply ite_keeps (P := P))
    | (with_reducible apply foldl_keeps (P := P))
    | (with_reducible apply hf)
    | (refine fun (t : State) (ht : P t) => ?_)
    | (refine fun (_ : _) (t : State) (ht : P t) => ?_)
    | (with_reducible intro t; first | (refine (fun (ht : P t) => ?_) (?_ : P t); rotate_left; subst t; rotate_right; clear_value t) | skip | skip)
    | lift_lets -underBinder
    | split

theorem State.allocWait_keeps {P : State → Prop} (h : Stable [.out, .ctr, .nv, .notify, .sc, .ss, .tm, .fb, .sl, .ev] P) (s : State) (a1 : _) (a2 : _) (hs : P s) : P (State.allocWait s a1 a2) := by
  have k1 := @State.setSess_keeps P (h.mono rfl)
  have k2 := @State.starve_keeps P (h.mono rfl)
  have pInc := h.ctrInc rfl
  have pEv := h.ev rfl
  unfold State.allocWait
  repeat'
    first
    | with_reducible assumption
    | rfl
    | (with_reducible apply k1)
    | (with_reducible apply k2)
    | (with_reducible apply pInc)
    | (with_reducible apply pEv)
    | (with_reducible apply ite_keeps (P := P))
    | (with_reducible apply foldl_keeps (P := P))
    | (refine fun (t : State) (ht : P t) => ?_)
    | (refine fun (_ : _) (t : State) (ht : P t) => ?_)
    | (with_reducible intro t; first | (refine (fun (ht : P t) => ?_) (?_ : P t); rotate_left; subst t; rotate_right; clear_value t) | skip | skip)
    | lift_lets -underBinder
    | split

end Sys2Proof.Machine
end

