-- ==== Sys2Proof/Laws/KeepsReeds.lean ====
section
/-! SUPPORT. What the operations of Machine/Reeds.lean can do to the state (`Laws/Keeps.lean`): one lemma per operation. -/

set_option linter.all false

namespace Sys2Proof.Machine

open Sys2Proof

theorem State.setReeds_keeps {P : State → Prop} (h : Stable [.fb] P) (s : State) (a1 : _) (a2 : _) (hs : P s) : P (State.setReeds s a1 a2) := by
  have pUfb := h.fb rfl
  unfold State.setReeds
  repeat'
    first
    | with_reducible assumption
    | rfl
    | (with_reducible refine pUfb _ _ (by with_reducible assumption))
    | (with_reducible apply ite_keeps (P := P))
    | (with_reducible apply foldl_keeps (P := P))
    | (refine fun (t : State) (ht : P t) => ?_)
    | (refine fun (_ : _) (t : State) (ht : P t) => ?_)
    | (with_reducible intro t; first | (refine (fun (ht : P t) => ?_) (?_ : P t); rotate_left; subst t; rotate_right; clear_value t) | skip | skip)
    | lift_lets -underBinder
    | split
    | (with_reducible apply pUfb)

theorem State.putSram_keeps {P : State → Prop} (h : Stable [.fb] P) (s : State) (a1 : _) (a2 : _) (a3 : _) (hs : P s) : P (State.putSram s a1 a2 a3) := by
  have pUfb := h.fb rfl
  unfold State.putSram
  repeat'
    first
    | with_reducible assumption
    | rfl
    | (with_reducible refine pUfb _ _ (by with_reducible assumption))
    | (with_reducible apply ite_keeps (P := P))
    | (with_reducible apply foldl_keeps (P := P))
    | (refine fun (t : State) (ht : P t) => ?_)
    | (refine fun (_ : _) (t : State) (ht : P t) => ?_)
    | (with_reducible intro t; first | (refine (fun (ht : P t) => ?_) (?_ : P t); rotate_left; subst t; rotate_right; clear_value t) | skip | skip)
    | lift_lets -underBinder
    | split
    | (with_reducible apply pUfb)

theorem State.finalise_keeps {P : State → Prop} (h : Stable [.ctr, .fb, .ev] P) (s : State) (a1 : _) (a2 : _) (hs : P s) : P (State.finalise s a1 a2) := by
  have k1 := @State.setReeds_keeps P (h.mono rfl)
  have k2 := @State.putSram_keeps P (h.mono rfl)
  have pInc := h.ctrInc rfl
  have pEv := h.ev rfl
  unfold State.finalise
  repeat'
    first
    | with_reducible assumption
    | rfl
    | (with_reducible apply k1)
    | (with_reducible apply k2)
    | (with_reducible apply pInc)
    | (with_reducible apply pEv)
    | (with_reducible apply ite_keeps (P := P))
    | (with_reducible apply when_keeps (P := P))
    | (with_reducible apply foldl_keeps (P := P))
    | (refine fun (t : State) (ht : P t) => ?_)
    | (refine fun (_ : _) (t : State) (ht : P t) => ?_)
    | (with_reducible intro t; first | (refine (fun (ht : P t) => ?_) (?_ : P t); rotate_left; subst t; rotate_right; clear_value t) | skip | skip)
    | lift_lets -underBinder
    | split

theorem State.emitRecord_keeps {P : State → Prop} (h : Stable [.ctr, .fb, .ev] P) (s : State) (a1 : _) (a2 : _) (a3 : _) (a4 : _) (a5 : _) (hs : P s) : P (State.emitRecord s a1 a2 a3 a4 a5) := by
  have k1 := @State.setReeds_keeps P (h.mono rfl)
  have pInc := h.ctrInc rfl
  have pEv := h.ev rfl
  unfold State.emitRecord
  repeat'
    first
    | with_reducible assumption
    | rfl
    | (with_reducible apply k1)
    | (with_reducible apply pInc)
    | (with_reducible apply pEv)
    | (with_reducible apply ite_keeps (P := P))
    | (with_reducible apply foldl_keeps (P := P))
    | (refine fun (t : State) (ht : P t) => ?_)
    | (refine fun (_ : _) (t : State) (ht : P t) => ?_)
    | (with_reducible intro t; first | (refine (fun (ht : P t) => ?_) (?_ : P t); rotate_left; subst t; rotate_right; clear_value t) | skip | skip)
    | lift_lets -underBinder
    | split

theorem State.sendBeat_keeps {P : State → Prop} (h : Stable [.fb] P) (s : State) (a1 : _) (a2 : _) (a3 : _) (hs : P s) : P (State.sendBeat s a1 a2 a3) := by
  have k1 := @State.setReeds_keeps P (h.mono rfl)
  unfold State.sendBeat
  repeat'
    first
    | with_reducible assumption
    | rfl
    | (with_reducible apply k1)
    | (with_reducible apply ite_keeps (P := P))
    | (with_reducible apply foldl_keeps (P := P))
    | (refine fun (t : State) (ht : P t) => ?_)
    | (refine fun (_ : _) (t : State) (ht : P t) => ?_)
    | (with_reducible intro t; first | (refine (fun (ht : P t) => ?_) (?_ : P t); rotate_left; subst t; rotate_right; clear_value t) | skip | skip)
    | lift_lets -underBinder
    | split

theorem State.foldBeat_keeps {P : State → Prop} (h : Stable [.ctr, .fb, .ev] P) (s : State) (a1 : _) (a2 : _) (a3 : _) (hs : P s) : P (State.foldBeat s a1 a2 a3) := by
  have k1 := @State.setReeds_keeps P (h.mono rfl)
  have k2 := @State.finalise_keeps P (h.mono rfl)
  have pInc := h.ctrInc rfl
  have pEv := h.ev rfl
  unfold State.foldBeat
  repeat'
    first
    | with_reducible assumption
    | rfl
    | (with_reducible apply k1)
    | (with_reducible apply k2)
    | (with_reducible apply pInc)
    | (with_reducible apply pEv)
    | (with_reducible apply ite_keeps (P := P))
    | (with_reducible apply foldl_keeps (P := P))
    | (refine fun (t : State) (ht : P t) => ?_)
    | (refine fun (_ : _) (t : State) (ht : P t) => ?_)
    | (with_reducible intro t; first | (refine (fun (ht : P t) => ?_) (?_ : P t); rotate_left; subst t; rotate_right; clear_value t) | skip | skip)
    | lift_lets -underBinder
    | split

theorem State.releaseAccs_keeps {P : State → Prop} (h : Stable [.fb] P) (s : State) (a1 : _) (a2 : _) (hs : P s) : P (State.releaseAccs s a1 a2) := by
  have k1 := @State.setReeds_keeps P (h.mono rfl)
  unfold State.releaseAccs
  repeat'
    first
    | with_reducible assumption
    | rfl
    | (with_reducible apply k1)
    | (with_reducible apply ite_keeps (P := P))
    | (with_reducible apply foldl_keeps (P := P))
    | (refine fun (t : State) (ht : P t) => ?_)
    | (refine fun (_ : _) (t : State) (ht : P t) => ?_)
    | (with_reducible intro t; first | (refine (fun (ht : P t) => ?_) (?_ : P t); rotate_left; subst t; rotate_right; clear_value t) | skip | skip)
    | lift_lets -underBinder
    | split

end Sys2Proof.Machine
end

