-- ==== Sys2Proof/Laws/KeepsSess.lean ====
section
/-! SUPPORT. What the operations of Machine/Sess.lean can do to the state (`Laws/Keeps.lean`): one lemma per operation. -/

set_option linter.all false

namespace Sys2Proof.Machine

open Sys2Proof

theorem State.evS_keeps {P : State → Prop} (h : Stable [.ev] P) (s : State) (a1 : _) (a2 : _) (a3 : _) (hs : P s) : P (State.evS s a1 a2 a3) := by
  have pEv := h.ev rfl
  unfold State.evS
  repeat'
    first
    | with_reducible assumption
    | rfl
    | (with_reducible apply pEv)
    | (with_reducible apply ite_keeps (P := P))
    | (with_reducible apply when_keeps (P := P))
    | (with_reducible apply foldl_keeps (P := P))
    | (refine fun (t : State) (ht : P t) => ?_)
    | (refine fun (_ : _) (t : State) (ht : P t) => ?_)
    | (with_reducible intro t; first | (refine (fun (ht : P t) => ?_) (?_ : P t); rotate_left; subst t; rotate_right; clear_value t) | skip | skip)
    | lift_lets -underBinder
    | split

theorem State.endDesc_keeps {P : State → Prop} (h : Stable [.out, .ctr, .notify, .ss, .sl, .ev] P) (s : State) (a1 : _) (a2 : _) (a3 : _) (a4 : _) (a5 : _) (hs : P s) : P (State.endDesc s a1 a2 a3 a4 a5) := by
  have k1 := @State.record_keeps P (h.mono rfl)
  have pInc := h.ctrInc rfl
  have pEv := h.ev rfl
  unfold State.endDesc
  repeat'
    first
    | with_reducible assumption
    | rfl
    | (with_reducible apply k1)
    | (with_reducible apply pInc)
    | (with_reducible apply pEv)
    | (with_reducible apply ite_keeps (P := P))
    | (with_reducible apply when_keeps (P := P))
    | (with_reducible apply foldl_keeps (P := P))
    | (refine fun (t : State) (ht : P t) => ?_)
    | (refine fun (_ : _) (t : State) (ht : P t) => ?_)
    | (with_reducible intro t; first | (refine (fun (ht : P t) => ?_) (?_ : P t); rotate_left; subst t; rotate_right; clear_value t) | skip | skip)
    | lift_lets -underBinder
    | split

theorem State.popHead_keeps {P : State → Prop} (h : Stable [.ss, .ev] P) (s : State) (a1 : _) (hs : P s) : P (State.popHead s a1) := by
  have k1 := @State.setSess_keeps P (h.mono rfl)
  have pEv := h.ev rfl
  unfold State.popHead
  repeat'
    first
    | with_reducible assumption
    | rfl
    | (with_reducible apply k1)
    | (with_reducible apply pEv)
    | (with_reducible apply ite_keeps (P := P))
    | (with_reducible apply foldl_keeps (P := P))
    | (refine fun (t : State) (ht : P t) => ?_)
    | (refine fun (_ : _) (t : State) (ht : P t) => ?_)
    | (with_reducible intro t; first | (refine (fun (ht : P t) => ?_) (?_ : P t); rotate_left; subst t; rotate_right; clear_value t) | skip | skip)
    | lift_lets -underBinder
    | split

theorem State.endHead_keeps {P : State → Prop} (h : Stable [.out, .ctr, .notify, .ss, .sl, .ev] P) (s : State) (a1 : _) (a2 : _) (a3 : _) (hs : P s) : P (State.endHead s a1 a2 a3) := by
  have k1 := @State.endDesc_keeps P (h.mono rfl)
  have k2 := @State.setSess_keeps P (h.mono rfl)
  have k3 := @State.popHead_keeps P (h.mono rfl)
  unfold State.endHead
  repeat'
    first
    | with_reducible assumption
    | rfl
    | (with_reducible apply k1)
    | (with_reducible apply k2)
    | (with_reducible apply k3)
    | (with_reducible apply ite_keeps (P := P))
    | (with_reducible apply foldl_keeps (P := P))
    | (refine fun (t : State) (ht : P t) => ?_)
    | (refine fun (_ : _) (t : State) (ht : P t) => ?_)
    | (with_reducible intro t; first | (refine (fun (ht : P t) => ?_) (?_ : P t); rotate_left; subst t; rotate_right; clear_value t) | skip | skip)
    | lift_lets -underBinder
    | split

theorem State.toRest_keeps {P : State → Prop} (h : Stable [.ss, .ev] P) (s : State) (a1 : _) (hs : P s) : P (State.toRest s a1) := by
  have k1 := @State.toState_keeps P (h.mono rfl)
  have k2 := @State.setSess_keeps P (h.mono rfl)
  unfold State.toRest
  repeat'
    first
    | with_reducible assumption
    | rfl
    | (with_reducible apply k1)
    | (with_reducible apply k2)
    | (with_reducible apply ite_keeps (P := P))
    | (with_reducible apply foldl_keeps (P := P))
    | (refine fun (t : State) (ht : P t) => ?_)
    | (refine fun (_ : _) (t : State) (ht : P t) => ?_)
    | (with_reducible intro t; first | (refine (fun (ht : P t) => ?_) (?_ : P t); rotate_left; subst t; rotate_right; clear_value t) | skip | skip)
    | lift_lets -underBinder
    | split

theorem State.endRun_keeps {P : State → Prop} (h : Stable [.out, .ctr, .notify, .ss, .sl, .ev] P) (s : State) (a1 : _) (a2 : _) (a3 : _) (a4 : _) (hs : P s) : P (State.endRun s a1 a2 a3 a4) := by
  have k1 := @State.endDesc_keeps P (h.mono rfl)
  have k2 := @State.setSess_keeps P (h.mono rfl)
  unfold State.endRun
  repeat'
    first
    | with_reducible assumption
    | rfl
    | (with_reducible apply k1)
    | (with_reducible apply k2)
    | (with_reducible apply ite_keeps (P := P))
    | (with_reducible apply foldl_keeps (P := P))
    | (refine fun (t : State) (ht : P t) => ?_)
    | (refine fun (_ : _) (t : State) (ht : P t) => ?_)
    | (with_reducible intro t; first | (refine (fun (ht : P t) => ?_) (?_ : P t); rotate_left; subst t; rotate_right; clear_value t) | skip | skip)
    | lift_lets -underBinder
    | split

theorem State.unsolicited_keeps {P : State → Prop} (h : Stable [.out, .ctr, .notify, .ss, .sl, .ev] P) (s : State) (a1 : _) (a2 : _) (a3 : _) (a4 : _) (a5 : _) (a6 : _) (hs : P s) : P (State.unsolicited s a1 a2 a3 a4 a5 a6) := by
  have k1 := @State.record_keeps P (h.mono rfl)
  unfold State.unsolicited
  repeat'
    first
    | with_reducible assumption
    | rfl
    | (with_reducible apply k1)
    | (with_reducible apply ite_keeps (P := P))
    | (with_reducible apply foldl_keeps (P := P))
    | (refine fun (t : State) (ht : P t) => ?_)
    | (refine fun (_ : _) (t : State) (ht : P t) => ?_)
    | (with_reducible intro t; first | (refine (fun (ht : P t) => ?_) (?_ : P t); rotate_left; subst t; rotate_right; clear_value t) | skip | skip)
    | lift_lets -underBinder
    | split

theorem State.revoke_keeps {P : State → Prop} (h : Stable [.wfn, .win, .ev] P) (s : State) (a1 : _) (hs : P s) : P (State.revoke s a1) := by
  have pEv := h.ev rfl
  have pFn := h.wfn rfl
  have pWin := h.win rfl
  unfold State.revoke
  repeat'
    first
    | ((with_reducible apply WinSide.mk); first | exact id | exact fun _ => rfl | exact WinSide.write)
    | with_reducible assumption
    | rfl
    | (with_reducible apply pEv)
    | (with_reducible apply pFn)
    | (with_reducible apply pWin)
    | (with_reducible apply ite_keeps (P := P))
    | (with_reducible apply foldl_keeps (P := P))
    | (refine fun (t : State) (ht : P t) => ?_)
    | (refine fun (_ : _) (t : State) (ht : P t) => ?_)
    | (with_reducible intro t; first | (refine (fun (ht : P t) => ?_) (?_ : P t); rotate_left; subst t; rotate_right; clear_value t) | skip | skip)
    | lift_lets -underBinder
    | split

theorem State.fetch_keeps {P : State → Prop} (h : Stable [.out, .ctr, .wfn, .win, .fb, .sl, .ev] P) (s : State) (a1 : _) (a2 : _) (a3 : _) (hs : P s) : OkP P (State.fetch s a1 a2 a3) := by
  have k1 := @State.revoke_keeps P (h.mono rfl)
  have k2 := @State.takeSlot_keeps P (h.mono rfl)
  have k3 := @State.trackWait_keeps P (h.mono rfl)
  have k4 := @State.txRead_keeps P (h.mono rfl)
  unfold State.fetch
  repeat'
    first
    | with_reducible assumption
    | rfl
    | (with_reducible apply k1)
    | (with_reducible apply k2)
    | (with_reducible apply k3)
    | (with_reducible apply k4)
    | (with_reducible apply OkOpt.some)
    | (with_reducible apply OkOpt.none)
    | (with_reducible apply iteOpt_keeps)
    | (with_reducible apply OkOpt.map)
    | (with_reducible apply OkOpt.bind)
    | (with_reducible apply OkOpt.find)
    | (with_reducible apply OkOpt.fold)
    | (with_reducible apply OkOpt.getD (P := P))
    | (with_reducible apply iteP_keeps (P := P))
    | (with_reducible apply ite_keeps (P := P))
    | (with_reducible apply foldl_keeps (P := P))
    | (with_reducible apply foldP_keeps (P := P))
    | (refine OkO.get (P := P) (by with_reducible assumption) ?_)
    | (refine OkOP.get (P := P) (by with_reducible assumption) ?_)
    | (refine OkOPP.get (P := P) (by with_reducible assumption) ?_)
    | (refine OkP.get (P := P) (by with_reducible assumption) ?_)
    | (with_reducible apply OkP.snd (P := P))
    | (refine fun (t : State) (ht : P t) => ?_)
    | (refine fun (_ : _) (t : State) (ht : P t) => ?_)
    | (with_reducible intro t; first | (refine (fun (ht : P t) => ?_) (?_ : P t); rotate_left; subst t; rotate_right; clear_value t) | skip | skip)
    | lift_lets -underBinder
    | split
    | (with_reducible apply OkP.mk (P := P))
    | exact OkOpt.any

theorem State.output_keeps {P : State → Prop} (h : Stable [.out, .ctr, .sl, .ev] P) (s : State) (a1 : _) (a2 : _) (a3 : _) (a4 : _) (a5 : _) (a6 : _) (hs : P s) : P (State.output s a1 a2 a3 a4 a5 a6) := by
  have k1 := @State.txWrite_keeps P (h.mono rfl)
  unfold State.output
  repeat'
    first
    | with_reducible assumption
    | rfl
    | (with_reducible apply k1)
    | (with_reducible apply ite_keeps (P := P))
    | (with_reducible apply foldl_keeps (P := P))
    | (refine fun (t : State) (ht : P t) => ?_)
    | (refine fun (_ : _) (t : State) (ht : P t) => ?_)
    | (with_reducible intro t; first | (refine (fun (ht : P t) => ?_) (?_ : P t); rotate_left; subst t; rotate_right; clear_value t) | skip | skip)
    | lift_lets -underBinder
    | split

theorem State.takeHead_keeps {P : State → Prop} (h : Stable [.out, .ctr, .notify, .ss, .sl, .ev] P) (s : State) (a1 : _) (a2 : _) (f : QDesc → State → State) (hf : ∀ q0 t, P t → P (f q0 t)) (hs : P s) : P (State.takeHead s a1 a2 f) := by
  have k1 := @State.endHead_keeps P (h.mono rfl)
  have k2 := @State.touchEntry_keeps P (h.mono rfl)
  have k3 := @State.setSess_keeps P (h.mono rfl)
  unfold State.takeHead
  repeat'
    first
    | with_reducible assumption
    | rfl
    | (with_reducible apply k1)
    | (with_reducible apply k2)
    | (with_reducible apply k3)
    | (with_reducible apply ite_keeps (P := P))
    | (with_reducible apply when_keeps (P := P))
    | (with_reducible apply foldl_keeps (P := P))
    | (with_reducible apply hf)
    | (refine fun (t : State) (ht : P t) => ?_)
    | (refine fun (_ : _) (t : State) (ht : P t) => ?_)
    | (with_reducible intro t; first | (refine (fun (ht : P t) => ?_) (?_ : P t); rotate_left; subst t; rotate_right; clear_value t) | skip | skip)
    | lift_lets -underBinder
    | split

theorem State.startRun_keeps {P : State → Prop} (h : Stable [.ss, .ev] P) (s : State) (a1 : _) (a2 : _) (hs : P s) : P (State.startRun s a1 a2) := by
  have k1 := @State.popHead_keeps P (h.mono rfl)
  have k2 := @State.setSess_keeps P (h.mono rfl)
  unfold State.startRun
  repeat'
    first
    | with_reducible assumption
    | rfl
    | (with_reducible apply k1)
    | (with_reducible apply k2)
    | (with_reducible apply ite_keeps (P := P))
    | (with_reducible apply foldl_keeps (P := P))
    | (refine fun (t : State) (ht : P t) => ?_)
    | (refine fun (_ : _) (t : State) (ht : P t) => ?_)
    | (with_reducible intro t; first | (refine (fun (ht : P t) => ?_) (?_ : P t); rotate_left; subst t; rotate_right; clear_value t) | skip | skip)
    | lift_lets -underBinder
    | split

theorem State.setHead_keeps {P : State → Prop} (h : Stable [.ss] P) (s : State) (a1 : _) (a2 : _) (hs : P s) : P (State.setHead s a1 a2) := by
  have k1 := @State.setSess_keeps P (h.mono rfl)
  unfold State.setHead
  repeat'
    first
    | with_reducible assumption
    | rfl
    | (with_reducible apply k1)
    | (with_reducible apply ite_keeps (P := P))
    | (with_reducible apply foldl_keeps (P := P))
    | (refine fun (t : State) (ht : P t) => ?_)
    | (refine fun (_ : _) (t : State) (ht : P t) => ?_)
    | (with_reducible intro t; first | (refine (fun (ht : P t) => ?_) (?_ : P t); rotate_left; subst t; rotate_right; clear_value t) | skip | skip)
    | lift_lets -underBinder
    | split

theorem State.resetGrammar_keeps {P : State → Prop} (h : Stable [.ctr, .ss, .ev] P) (s : State) (a1 : _) (hs : P s) : P (State.resetGrammar s a1) := by
  have k1 := @State.setSess_keeps P (h.mono rfl)
  have pInc := h.ctrInc rfl
  have pEv := h.ev rfl
  unfold State.resetGrammar
  repeat'
    first
    | with_reducible assumption
    | rfl
    | (with_reducible apply k1)
    | (with_reducible apply pInc)
    | (with_reducible apply pEv)
    | (with_reducible apply ite_keeps (P := P))
    | (with_reducible apply foldl_keeps (P := P))
    | (refine fun (t : State) (ht : P t) => ?_)
    | (refine fun (_ : _) (t : State) (ht : P t) => ?_)
    | (with_reducible intro t; first | (refine (fun (ht : P t) => ?_) (?_ : P t); rotate_left; subst t; rotate_right; clear_value t) | skip | skip)
    | lift_lets -underBinder
    | split

theorem State.bindHandles_keeps {P : State → Prop} (h : Stable [.ctr, .ss, .ev] P) (s : State) (a1 : _) (a2 : _) (a3 : _) (hs : P s) : OkO P (State.bindHandles s a1 a2 a3) := by
  have k1 := @State.resetGrammar_keeps P (h.mono rfl)
  have k2 := @State.setSess_keeps P (h.mono rfl)
  unfold State.bindHandles
  repeat'
    first
    | with_reducible assumption
    | rfl
    | (with_reducible apply k1)
    | (with_reducible apply k2)
    | (with_reducible apply OkOpt.some)
    | (with_reducible apply OkOpt.none)
    | (with_reducible apply iteOpt_keeps)
    | (with_reducible apply OkOpt.map)
    | (with_reducible apply OkOpt.bind)
    | (with_reducible apply OkOpt.find)
    | (with_reducible apply OkOpt.fold)
    | (with_reducible apply OkOpt.getD (P := P))
    | (with_reducible apply ite_keeps (P := P))
    | (with_reducible apply when_keeps (P := P))
    | (with_reducible apply foldl_keeps (P := P))
    | (refine OkO.get (P := P) (by with_reducible assumption) ?_)
    | (refine OkOP.get (P := P) (by with_reducible assumption) ?_)
    | (refine OkOPP.get (P := P) (by with_reducible assumption) ?_)
    | (refine fun (t : State) (ht : P t) => ?_)
    | (refine fun (_ : _) (t : State) (ht : P t) => ?_)
    | (with_reducible intro t; first | (refine (fun (ht : P t) => ?_) (?_ : P t); rotate_left; subst t; rotate_right; clear_value t) | skip | skip)
    | lift_lets -underBinder
    | split
    | exact OkOpt.any

theorem State.freeAll_keeps {P : State → Prop} (h : Stable [.out, .ctr, .nv, .sc, .ss, .tm, .fb, .sl, .ev] P) (s : State) (a1 : _) (hs : P s) : P (State.freeAll s a1) := by
  have k1 := @State.failMove_keeps P (h.mono rfl)
  have k2 := @State.freeFrame_keeps P (h.mono rfl)
  have k3 := @State.invalidate_keeps P (h.mono rfl)
  have k4 := @State.freeHome_keeps P (h.mono rfl)
  unfold State.freeAll
  repeat'
    first
    | with_reducible assumption
    | rfl
    | (with_reducible apply k1)
    | (with_reducible apply k2)
    | (with_reducible apply k3)
    | (with_reducible apply k4)
    | (with_reducible apply ite_keeps (P := P))
    | (with_reducible apply each_keeps (P := P))
    | (with_reducible apply foldl_keeps (P := P))
    | (refine fun (t : State) (ht : P t) => ?_)
    | (refine fun (_ : _) (t : State) (ht : P t) => ?_)
    | (with_reducible intro t; first | (refine (fun (ht : P t) => ?_) (?_ : P t); rotate_left; subst t; rotate_right; clear_value t) | skip | skip)
    | lift_lets -underBinder
    | split

theorem State.freeSlotOf_keeps {P : State → Prop} (h : Stable [.out, .ctr, .notify, .ss, .sl, .ev] P) (s : State) (a1 : _) (a2 : _) (hs : P s) : P (State.freeSlotOf s a1 a2) := by
  have k1 := @State.setSess_keeps P (h.mono rfl)
  have k2 := @State.endDesc_keeps P (h.mono rfl)
  have pEv := h.ev rfl
  unfold State.freeSlotOf
  repeat'
    first
    | with_reducible assumption
    | rfl
    | (with_reducible apply k1)
    | (with_reducible apply k2)
    | (with_reducible apply pEv)
    | (with_reducible apply ite_keeps (P := P))
    | (with_reducible apply each_keeps (P := P))
    | (with_reducible apply foldl_keeps (P := P))
    | (refine fun (t : State) (ht : P t) => ?_)
    | (refine fun (_ : _) (t : State) (ht : P t) => ?_)
    | (with_reducible intro t; first | (refine (fun (ht : P t) => ?_) (?_ : P t); rotate_left; subst t; rotate_right; clear_value t) | skip | skip)
    | lift_lets -underBinder
    | split

theorem State.reserveDest_keeps {P : State → Prop} (h : Stable [.ctr, .notify, .tm, .ev] P) (s : State) (a1 : _) (a2 : _) (a3 : _) (hs : P s) : OkOP P (State.reserveDest s a1 a2 a3) := by
  have k1 := @State.takeFrame_keeps P (h.mono rfl)
  have k2 := @State.takeFar_keeps P (h.mono rfl)
  unfold State.reserveDest
  repeat'
    first
    | with_reducible assumption
    | rfl
    | (with_reducible apply k1)
    | (with_reducible apply k2)
    | (with_reducible apply OkOpt.some)
    | (with_reducible apply OkOpt.none)
    | (with_reducible apply iteOpt_keeps)
    | (with_reducible apply OkOpt.map)
    | (with_reducible apply OkOpt.bind)
    | (with_reducible apply OkOpt.find)
    | (with_reducible apply OkOpt.fold)
    | (with_reducible apply OkOpt.getD (P := P))
    | (with_reducible apply ite_keeps (P := P))
    | (with_reducible apply foldl_keeps (P := P))
    | (refine OkO.get (P := P) (by with_reducible assumption) ?_)
    | (refine OkOP.get (P := P) (by with_reducible assumption) ?_)
    | (refine OkOPP.get (P := P) (by with_reducible assumption) ?_)
    | (refine fun (t : State) (ht : P t) => ?_)
    | (refine fun (_ : _) (t : State) (ht : P t) => ?_)
    | (with_reducible intro t; first | (refine (fun (ht : P t) => ?_) (?_ : P t); rotate_left; subst t; rotate_right; clear_value t) | skip | skip)
    | lift_lets -underBinder
    | split
    | exact OkOpt.any

theorem State.reserveAll_keeps {P : State → Prop} (h : Stable [.ctr, .notify, .tm, .ev] P) (s : State) (a1 : _) (hs : P s) : OkOP P (State.reserveAll s a1) := by
  have k1 := @State.reserveDest_keeps P (h.mono rfl)
  unfold State.reserveAll
  repeat'
    first
    | with_reducible assumption
    | rfl
    | (with_reducible apply k1)
    | (with_reducible apply OkOpt.some)
    | (with_reducible apply OkOpt.none)
    | (with_reducible apply iteOpt_keeps)
    | (with_reducible apply OkOpt.map)
    | (with_reducible apply OkOpt.bind)
    | (with_reducible apply OkOpt.find)
    | (with_reducible apply OkOpt.fold)
    | (with_reducible apply OkOpt.getD (P := P))
    | (with_reducible apply ite_keeps (P := P))
    | (with_reducible apply foldl_keeps (P := P))
    | (refine OkO.get (P := P) (by with_reducible assumption) ?_)
    | (refine OkOP.get (P := P) (by with_reducible assumption) ?_)
    | (refine OkOPP.get (P := P) (by with_reducible assumption) ?_)
    | (refine fun (t : State) (ht : P t) => ?_)
    | (refine fun (_ : _) (t : State) (ht : P t) => ?_)
    | (with_reducible intro t; first | (refine (fun (ht : P t) => ?_) (?_ : P t); rotate_left; subst t; rotate_right; clear_value t) | skip | skip)
    | lift_lets -underBinder
    | split
    | exact OkOpt.any

theorem State.landImport_keeps {P : State → Prop} (h : Stable [.ctr, .nv, .notify, .sc, .ss, .tm, .ev] P) (s : State) (a1 : _) (hs : P s) : OkO P (State.landImport s a1) := by
  have k1 := @State.written_keeps P (h.mono rfl)
  have k2 := @State.setPage_keeps P (h.mono rfl)
  have k3 := @State.takeFrame_keeps P (h.mono rfl)
  unfold State.landImport
  repeat'
    first
    | with_reducible assumption
    | rfl
    | (with_reducible apply k1)
    | (with_reducible apply k2)
    | (with_reducible apply k3)
    | (with_reducible apply OkOpt.some)
    | (with_reducible apply OkOpt.none)
    | (with_reducible apply iteOpt_keeps)
    | (with_reducible apply OkOpt.map)
    | (with_reducible apply OkOpt.bind)
    | (with_reducible apply OkOpt.find)
    | (with_reducible apply OkOpt.fold)
    | (with_reducible apply OkOpt.getD (P := P))
    | (with_reducible apply iteP_keeps (P := P))
    | (with_reducible apply ite_keeps (P := P))
    | (with_reducible apply foldl_keeps (P := P))
    | (with_reducible apply foldP_keeps (P := P))
    | (refine OkO.get (P := P) (by with_reducible assumption) ?_)
    | (refine OkOP.get (P := P) (by with_reducible assumption) ?_)
    | (refine OkOPP.get (P := P) (by with_reducible assumption) ?_)
    | (refine OkP.get (P := P) (by with_reducible assumption) ?_)
    | (with_reducible apply OkP.snd (P := P))
    | (refine fun (t : State) (ht : P t) => ?_)
    | (refine fun (_ : _) (t : State) (ht : P t) => ?_)
    | (with_reducible intro t; first | (refine (fun (ht : P t) => ?_) (?_ : P t); rotate_left; subst t; rotate_right; clear_value t) | skip | skip)
    | lift_lets -underBinder
    | split
    | (with_reducible apply OkP.mk (P := P))
    | exact OkOpt.any

theorem State.releaseHeld_keeps {P : State → Prop} (h : Stable [.ss, .tm] P) (s : State) (a1 : _) (hs : P s) : P (State.releaseHeld s a1) := by
  have k1 := @State.setPage_keeps P (h.mono rfl)
  have k2 := @State.freeHome_keeps P (h.mono rfl)
  unfold State.releaseHeld
  repeat'
    first
    | with_reducible assumption
    | rfl
    | (with_reducible apply k1)
    | (with_reducible apply k2)
    | (with_reducible apply ite_keeps (P := P))
    | (with_reducible apply each_keeps (P := P))
    | (with_reducible apply foldl_keeps (P := P))
    | (refine fun (t : State) (ht : P t) => ?_)
    | (refine fun (_ : _) (t : State) (ht : P t) => ?_)
    | (with_reducible intro t; first | (refine (fun (ht : P t) => ?_) (?_ : P t); rotate_left; subst t; rotate_right; clear_value t) | skip | skip)
    | lift_lets -underBinder
    | split

theorem State.backToPrior_keeps {P : State → Prop} (h : Stable [.ss, .tm, .ev] P) (s : State) (a1 : _) (hs : P s) : P (State.backToPrior s a1) := by
  have k1 := @State.releaseHeld_keeps P (h.mono rfl)
  have k2 := @State.setSess_keeps P (h.mono rfl)
  have pEv := h.ev rfl
  unfold State.backToPrior
  repeat'
    first
    | with_reducible assumption
    | rfl
    | (with_reducible apply k1)
    | (with_reducible apply k2)
    | (with_reducible apply pEv)
    | (with_reducible apply ite_keeps (P := P))
    | (with_reducible apply when_keeps (P := P))
    | (with_reducible apply foldl_keeps (P := P))
    | (refine fun (t : State) (ht : P t) => ?_)
    | (refine fun (_ : _) (t : State) (ht : P t) => ?_)
    | (with_reducible intro t; first | (refine (fun (ht : P t) => ?_) (?_ : P t); rotate_left; subst t; rotate_right; clear_value t) | skip | skip)
    | lift_lets -underBinder
    | split

theorem State.failSession_keeps {P : State → Prop} (h : Stable [.out, .ctr, .nv, .notify, .sc, .ss, .tm, .fb, .sl, .ev] P) (s : State) (a1 : _) (a2 : _) (hs : P s) : P (State.failSession s a1 a2) := by
  have k1 := @State.failMove_keeps P (h.mono rfl)
  have k2 := @State.endRun_keeps P (h.mono rfl)
  have k3 := @State.freeSlotOf_keeps P (h.mono rfl)
  have k4 := @State.freeAll_keeps P (h.mono rfl)
  have k5 := @State.toState_keeps P (h.mono rfl)
  have k6 := @State.releaseHeld_keeps P (h.mono rfl)
  have k7 := @State.backToPrior_keeps P (h.mono rfl)
  have k8 := @State.setSess_keeps P (h.mono rfl)
  have k9 := @State.endHead_keeps P (h.mono rfl)
  unfold State.failSession
  repeat'
    first
    | with_reducible assumption
    | rfl
    | (with_reducible apply k1)
    | (with_reducible apply k2)
    | (with_reducible apply k3)
    | (with_reducible apply k4)
    | (with_reducible apply k5)
    | (with_reducible apply k6)
    | (with_reducible apply k7)
    | (with_reducible apply k8)
    | (with_reducible apply k9)
    | (with_reducible apply ite_keeps (P := P))
    | (with_reducible apply each_keeps (P := P))
    | (with_reducible apply foldl_keeps (P := P))
    | (refine fun (t : State) (ht : P t) => ?_)
    | (refine fun (_ : _) (t : State) (ht : P t) => ?_)
    | (with_reducible intro t; first | (refine (fun (ht : P t) => ?_) (?_ : P t); rotate_left; subst t; rotate_right; clear_value t) | skip | skip)
    | lift_lets -underBinder
    | split

theorem State.meetStale_keeps {P : State → Prop} (h : Stable [.out, .ctr, .nv, .notify, .sc, .ss, .tm, .fb, .sl, .journal, .ev] P) (s : State) (a1 : _) (f : State → State) (hf : ∀ t, P t → P (f t)) (hs : P s) : P (State.meetStale s a1 f) := by
  have k1 := @State.failSession_keeps P (h.mono rfl)
  have k2 := @State.poison_keeps P (h.mono rfl)
  unfold State.meetStale
  repeat'
    first
    | with_reducible assumption
    | rfl
    | (with_reducible apply k1)
    | (with_reducible apply k2)
    | (with_reducible apply ite_keeps (P := P))
    | (with_reducible apply each_keeps (P := P))
    | (with_reducible apply foldl_keeps (P := P))
    | (with_reducible apply hf)
    | (refine fun (t : State) (ht : P t) => ?_)
    | (refine fun (_ : _) (t : State) (ht : P t) => ?_)
    | (with_reducible intro t; first | (refine (fun (ht : P t) => ?_) (?_ : P t); rotate_left; subst t; rotate_right; clear_value t) | skip | skip)
    | lift_lets -underBinder
    | split

theorem State.issueMoves_keeps {P : State → Prop} (h : Stable [.out, .ctr, .nv, .notify, .sc, .ss, .tm, .fb, .sl, .journal, .ev] P) (s : State) (a1 : _) (hs : P s) : P (State.issueMoves s a1) := by
  have k1 := @State.landImport_keeps P (h.mono rfl)
  have k2 := @State.allocWait_keeps P (h.mono rfl)
  have k3 := @State.setSess_keeps P (h.mono rfl)
  have k4 := @State.meetStale_keeps P (h.mono rfl)
  have k5 := @State.reserveAll_keeps P (h.mono rfl)
  have k6 := @State.addMove_keeps P (h.mono rfl)
  unfold State.issueMoves
  repeat'
    first
    | with_reducible assumption
    | rfl
    | (with_reducible apply k1)
    | (with_reducible apply k2)
    | (with_reducible apply k3)
    | (with_reducible apply k4)
    | (with_reducible apply k5)
    | (with_reducible apply k6)
    | (with_reducible apply OkOpt.some)
    | (with_reducible apply OkOpt.none)
    | (with_reducible apply iteOpt_keeps)
    | (with_reducible apply OkOpt.map)
    | (with_reducible apply OkOpt.bind)
    | (with_reducible apply OkOpt.find)
    | (with_reducible apply OkOpt.fold)
    | (with_reducible apply OkOpt.getD (P := P))
    | (with_reducible apply ite_keeps (P := P))
    | (with_reducible apply each_keeps (P := P))
    | (with_reducible apply foldl_keeps (P := P))
    | (refine OkO.get (P := P) (by with_reducible assumption) ?_)
    | (refine OkOP.get (P := P) (by with_reducible assumption) ?_)
    | (refine OkOPP.get (P := P) (by with_reducible assumption) ?_)
    | (refine fun (t : State) (ht : P t) => ?_)
    | (refine fun (_ : _) (t : State) (ht : P t) => ?_)
    | (with_reducible intro t; first | (refine (fun (ht : P t) => ?_) (?_ : P t); rotate_left; subst t; rotate_right; clear_value t) | skip | skip)
    | lift_lets -underBinder
    | split
    | exact OkOpt.any

theorem State.exportBegin_keeps {P : State → Prop} (h : Stable [.ss] P) (s : State) (a1 : _) (hs : P s) : P (State.exportBegin s a1) := by
  have k1 := @State.setSess_keeps P (h.mono rfl)
  unfold State.exportBegin
  repeat'
    first
    | with_reducible assumption
    | rfl
    | (with_reducible apply k1)
    | (with_reducible apply ite_keeps (P := P))
    | (with_reducible apply foldl_keeps (P := P))
    | (refine fun (t : State) (ht : P t) => ?_)
    | (refine fun (_ : _) (t : State) (ht : P t) => ?_)
    | (with_reducible intro t; first | (refine (fun (ht : P t) => ?_) (?_ : P t); rotate_left; subst t; rotate_right; clear_value t) | skip | skip)
    | lift_lets -underBinder
    | split

theorem State.exportReads_keeps {P : State → Prop} (h : Stable [.out, .ctr, .ss, .fb, .sl, .ev] P) (s : State) (a1 : _) (hs : P s) : P (State.exportReads s a1) := by
  have k1 := @State.takeSlot_keeps P (h.mono rfl)
  have k2 := @State.bulkRead_keeps P (h.mono rfl)
  have k3 := @State.setSess_keeps P (h.mono rfl)
  unfold State.exportReads
  repeat'
    first
    | with_reducible assumption
    | rfl
    | (with_reducible apply k1)
    | (with_reducible apply k2)
    | (with_reducible apply k3)
    | (with_reducible apply OkOpt.some)
    | (with_reducible apply OkOpt.none)
    | (with_reducible apply iteOpt_keeps)
    | (with_reducible apply OkOpt.map)
    | (with_reducible apply OkOpt.bind)
    | (with_reducible apply OkOpt.find)
    | (with_reducible apply OkOpt.fold)
    | (with_reducible apply OkOpt.getD (P := P))
    | (with_reducible apply ite_keeps (P := P))
    | (with_reducible apply each_keeps (P := P))
    | (with_reducible apply foldl_keeps (P := P))
    | (refine OkO.get (P := P) (by with_reducible assumption) ?_)
    | (refine OkOP.get (P := P) (by with_reducible assumption) ?_)
    | (refine OkOPP.get (P := P) (by with_reducible assumption) ?_)
    | (refine fun (t : State) (ht : P t) => ?_)
    | (refine fun (_ : _) (t : State) (ht : P t) => ?_)
    | (with_reducible intro t; first | (refine (fun (ht : P t) => ?_) (?_ : P t); rotate_left; subst t; rotate_right; clear_value t) | skip | skip)
    | lift_lets -underBinder
    | split
    | exact OkOpt.any

theorem State.exportWrite_keeps {P : State → Prop} (h : Stable [.out, .ctr, .nv, .sc, .ss, .tm, .sl, .ev] P) (s : State) (a1 : _) (a2 : _) (a3 : _) (a4 : _) (a5 : _) (hs : P s) : P (State.exportWrite s a1 a2 a3 a4 a5) := by
  have k1 := @State.written_keeps P (h.mono rfl)
  have k2 := @State.bulkWrite_keeps P (h.mono rfl)
  have k3 := @State.bulkFlush_keeps P (h.mono rfl)
  have k4 := @State.setSess_keeps P (h.mono rfl)
  unfold State.exportWrite
  repeat'
    first
    | with_reducible assumption
    | rfl
    | (with_reducible apply k1)
    | (with_reducible apply k2)
    | (with_reducible apply k3)
    | (with_reducible apply k4)
    | (with_reducible apply iteP_keeps (P := P))
    | (with_reducible apply ite_keeps (P := P))
    | (with_reducible apply each_keeps (P := P))
    | (with_reducible apply foldl_keeps (P := P))
    | (with_reducible apply foldP_keeps (P := P))
    | (refine OkP.get (P := P) (by with_reducible assumption) ?_)
    | (with_reducible apply OkP.snd (P := P))
    | (refine fun (t : State) (ht : P t) => ?_)
    | (refine fun (_ : _) (t : State) (ht : P t) => ?_)
    | (with_reducible intro t; first | (refine (fun (ht : P t) => ?_) (?_ : P t); rotate_left; subst t; rotate_right; clear_value t) | skip | skip)
    | lift_lets -underBinder
    | split
    | (with_reducible apply OkP.mk (P := P))

theorem State.exportPump_keeps {P : State → Prop} (h : Stable [.out, .ctr, .nv, .sc, .ss, .tm, .fb, .sl, .ev] P) (s : State) (a1 : _) (hs : P s) : P (State.exportPump s a1) := by
  have k1 := @State.exportReads_keeps P (h.mono rfl)
  have k2 := @State.exportWrite_keeps P (h.mono rfl)
  unfold State.exportPump
  repeat'
    first
    | with_reducible assumption
    | rfl
    | (with_reducible apply k1)
    | (with_reducible apply k2)
    | (with_reducible apply ite_keeps (P := P))
    | (with_reducible apply foldl_keeps (P := P))
    | (refine fun (t : State) (ht : P t) => ?_)
    | (refine fun (_ : _) (t : State) (ht : P t) => ?_)
    | (with_reducible intro t; first | (refine (fun (ht : P t) => ?_) (?_ : P t); rotate_left; subst t; rotate_right; clear_value t) | skip | skip)
    | lift_lets -underBinder
    | split

theorem State.farPump_keeps {P : State → Prop} (h : Stable [.out, .ctr, .nv, .sc, .ss, .tm, .fb, .sl, .ev] P) (s : State) (hs : P s) : P (State.farPump s) := by
  have k1 := @State.exportPump_keeps P (h.mono rfl)
  have k2 := @State.startMoves_keeps P (h.mono rfl)
  have k3 := @State.farTests_keeps P (h.mono rfl)
  unfold State.farPump
  repeat'
    first
    | with_reducible assumption
    | rfl
    | (with_reducible apply k1)
    | (with_reducible apply k2)
    | (with_reducible apply k3)
    | (with_reducible apply ite_keeps (P := P))
    | (with_reducible apply each_keeps (P := P))
    | (with_reducible apply foldl_keeps (P := P))
    | (refine fun (t : State) (ht : P t) => ?_)
    | (refine fun (_ : _) (t : State) (ht : P t) => ?_)
    | (with_reducible intro t; first | (refine (fun (ht : P t) => ?_) (?_ : P t); rotate_left; subst t; rotate_right; clear_value t) | skip | skip)
    | lift_lets -underBinder
    | split

theorem State.condense_keeps {P : State → Prop} (h : Stable [.ctr, .ss, .tm, .fb, .ev] P) (s : State) (a1 : _) (hs : P s) : OkP P (State.condense s a1) := by
  have k1 := @State.invalidate_keeps P (h.mono rfl)
  have k2 := @State.freeHome_keeps P (h.mono rfl)
  have k3 := @State.setSess_keeps P (h.mono rfl)
  unfold State.condense
  repeat'
    first
    | with_reducible assumption
    | rfl
    | (with_reducible apply k1)
    | (with_reducible apply k2)
    | (with_reducible apply k3)
    | (with_reducible apply iteP_keeps (P := P))
    | (with_reducible apply ite_keeps (P := P))
    | (with_reducible apply each_keeps (P := P))
    | (with_reducible apply foldl_keeps (P := P))
    | (with_reducible apply foldP_keeps (P := P))
    | (refine OkP.get (P := P) (by with_reducible assumption) ?_)
    | (with_reducible apply OkP.snd (P := P))
    | (refine fun (t : State) (ht : P t) => ?_)
    | (refine fun (_ : _) (t : State) (ht : P t) => ?_)
    | (with_reducible intro t; first | (refine (fun (ht : P t) => ?_) (?_ : P t); rotate_left; subst t; rotate_right; clear_value t) | skip | skip)
    | lift_lets -underBinder
    | split
    | (with_reducible apply OkP.mk (P := P))

theorem State.finishMove_keeps {P : State → Prop} (h : Stable [.out, .ctr, .nv, .notify, .sc, .ss, .tm, .fb, .sl, .ev] P) (s : State) (a1 : _) (hs : P s) : P (State.finishMove s a1) := by
  have k1 := @State.setSess_keeps P (h.mono rfl)
  have k2 := @State.failSession_keeps P (h.mono rfl)
  have k3 := @State.toState_keeps P (h.mono rfl)
  have k4 := @State.endRun_keeps P (h.mono rfl)
  have k5 := @State.condense_keeps P (h.mono rfl)
  have k6 := @State.freeSlotOf_keeps P (h.mono rfl)
  have k7 := @State.freeAll_keeps P (h.mono rfl)
  have pEv := h.ev rfl
  unfold State.finishMove
  repeat'
    first
    | with_reducible assumption
    | rfl
    | (with_reducible apply k1)
    | (with_reducible apply k2)
    | (with_reducible apply k3)
    | (with_reducible apply k4)
    | (with_reducible apply k5)
    | (with_reducible apply k6)
    | (with_reducible apply k7)
    | (with_reducible apply pEv)
    | (with_reducible apply iteP_keeps (P := P))
    | (with_reducible apply ite_keeps (P := P))
    | (with_reducible apply foldl_keeps (P := P))
    | (with_reducible apply foldP_keeps (P := P))
    | (refine OkP.get (P := P) (by with_reducible assumption) ?_)
    | (with_reducible apply OkP.snd (P := P))
    | (refine fun (t : State) (ht : P t) => ?_)
    | (refine fun (_ : _) (t : State) (ht : P t) => ?_)
    | (with_reducible intro t; first | (refine (fun (ht : P t) => ?_) (?_ : P t); rotate_left; subst t; rotate_right; clear_value t) | skip | skip)
    | lift_lets -underBinder
    | split
    | (with_reducible apply OkP.mk (P := P))

theorem State.rebuildList_keeps {P : State → Prop} (h : Stable [.ss] P) (s : State) (a1 : _) (hs : P s) : P (State.rebuildList s a1) := by
  have k1 := @State.setSess_keeps P (h.mono rfl)
  unfold State.rebuildList
  repeat'
    first
    | with_reducible assumption
    | rfl
    | (with_reducible apply k1)
    | (with_reducible apply ite_keeps (P := P))
    | (with_reducible apply foldl_keeps (P := P))
    | (refine fun (t : State) (ht : P t) => ?_)
    | (refine fun (_ : _) (t : State) (ht : P t) => ?_)
    | (with_reducible intro t; first | (refine (fun (ht : P t) => ?_) (?_ : P t); rotate_left; subst t; rotate_right; clear_value t) | skip | skip)
    | lift_lets -underBinder
    | split

theorem State.reserveRevival_keeps {P : State → Prop} (h : Stable [.ctr, .notify, .ss, .tm, .ev] P) (s : State) (a1 : _) (hs : P s) : OkOP P (State.reserveRevival s a1) := by
  have k1 := @State.newPage_keeps P (h.mono rfl)
  have k2 := @State.setPage_keeps P (h.mono rfl)
  have k3 := @State.placeNear_keeps P (h.mono rfl)
  unfold State.reserveRevival
  repeat'
    first
    | with_reducible assumption
    | rfl
    | (with_reducible apply k1)
    | (with_reducible apply k2)
    | (with_reducible apply k3)
    | (with_reducible apply OkOpt.some)
    | (with_reducible apply OkOpt.none)
    | (with_reducible apply iteOpt_keeps)
    | (with_reducible apply OkOpt.map)
    | (with_reducible apply OkOpt.bind)
    | (with_reducible apply OkOpt.find)
    | (with_reducible apply OkOpt.fold)
    | (with_reducible apply OkOpt.getD (P := P))
    | (with_reducible apply ite_keeps (P := P))
    | (with_reducible apply foldl_keeps (P := P))
    | (refine OkO.get (P := P) (by with_reducible assumption) ?_)
    | (refine OkOP.get (P := P) (by with_reducible assumption) ?_)
    | (refine OkOPP.get (P := P) (by with_reducible assumption) ?_)
    | (refine fun (t : State) (ht : P t) => ?_)
    | (refine fun (_ : _) (t : State) (ht : P t) => ?_)
    | (with_reducible intro t; first | (refine (fun (ht : P t) => ?_) (?_ : P t); rotate_left; subst t; rotate_right; clear_value t) | skip | skip)
    | lift_lets -underBinder
    | split
    | exact OkOpt.any

theorem State.issueRevival_keeps {P : State → Prop} (h : Stable [.out, .ctr, .nv, .notify, .sc, .ss, .tm, .fb, .sl, .journal, .ev] P) (s : State) (a1 : _) (hs : P s) : P (State.issueRevival s a1) := by
  have k1 := @State.meetStale_keeps P (h.mono rfl)
  have k2 := @State.rebuildList_keeps P (h.mono rfl)
  have k3 := @State.reserveRevival_keeps P (h.mono rfl)
  have k4 := @State.allocWait_keeps P (h.mono rfl)
  have k5 := @State.setSess_keeps P (h.mono rfl)
  have k6 := @State.addMove_keeps P (h.mono rfl)
  unfold State.issueRevival
  repeat'
    first
    | with_reducible assumption
    | rfl
    | (with_reducible apply k1)
    | (with_reducible apply k2)
    | (with_reducible apply k3)
    | (with_reducible apply k4)
    | (with_reducible apply k5)
    | (with_reducible apply k6)
    | (with_reducible apply OkOpt.some)
    | (with_reducible apply OkOpt.none)
    | (with_reducible apply iteOpt_keeps)
    | (with_reducible apply OkOpt.map)
    | (with_reducible apply OkOpt.bind)
    | (with_reducible apply OkOpt.find)
    | (with_reducible apply OkOpt.fold)
    | (with_reducible apply OkOpt.getD (P := P))
    | (with_reducible apply ite_keeps (P := P))
    | (with_reducible apply each_keeps (P := P))
    | (with_reducible apply when_keeps (P := P))
    | (with_reducible apply foldl_keeps (P := P))
    | (refine OkO.get (P := P) (by with_reducible assumption) ?_)
    | (refine OkOP.get (P := P) (by with_reducible assumption) ?_)
    | (refine OkOPP.get (P := P) (by with_reducible assumption) ?_)
    | (refine fun (t : State) (ht : P t) => ?_)
    | (refine fun (_ : _) (t : State) (ht : P t) => ?_)
    | (with_reducible intro t; first | (refine (fun (ht : P t) => ?_) (?_ : P t); rotate_left; subst t; rotate_right; clear_value t) | skip | skip)
    | lift_lets -underBinder
    | split
    | exact OkOpt.any

theorem State.beginRevival_keeps {P : State → Prop} (h : Stable [.out, .ctr, .nv, .notify, .sc, .ss, .tm, .fb, .sl, .journal, .ev] P) (s : State) (a1 : _) (hs : P s) : P (State.beginRevival s a1) := by
  have k1 := @State.dropDraft_keeps P (h.mono rfl)
  have k2 := @State.setSess_keeps P (h.mono rfl)
  have k3 := @State.toState_keeps P (h.mono rfl)
  have k4 := @State.issueRevival_keeps P (h.mono rfl)
  unfold State.beginRevival
  repeat'
    first
    | with_reducible assumption
    | rfl
    | (with_reducible apply k1)
    | (with_reducible apply k2)
    | (with_reducible apply k3)
    | (with_reducible apply k4)
    | (with_reducible apply ite_keeps (P := P))
    | (with_reducible apply foldl_keeps (P := P))
    | (refine fun (t : State) (ht : P t) => ?_)
    | (refine fun (_ : _) (t : State) (ht : P t) => ?_)
    | (with_reducible intro t; first | (refine (fun (ht : P t) => ?_) (?_ : P t); rotate_left; subst t; rotate_right; clear_value t) | skip | skip)
    | lift_lets -underBinder
    | split

theorem State.finishRevival_keeps {P : State → Prop} (h : Stable [.out, .ctr, .nv, .notify, .sc, .ss, .tm, .fb, .sl, .ev] P) (s : State) (a1 : _) (hs : P s) : P (State.finishRevival s a1) := by
  have k1 := @State.failSession_keeps P (h.mono rfl)
  have k2 := @State.setSess_keeps P (h.mono rfl)
  have k3 := @State.toRest_keeps P (h.mono rfl)
  have k4 := @State.endRun_keeps P (h.mono rfl)
  have pEv := h.ev rfl
  unfold State.finishRevival
  repeat'
    first
    | with_reducible assumption
    | rfl
    | (with_reducible apply k1)
    | (with_reducible apply k2)
    | (with_reducible apply k3)
    | (with_reducible apply k4)
    | (with_reducible apply pEv)
    | (with_reducible apply ite_keeps (P := P))
    | (with_reducible apply foldl_keeps (P := P))
    | (refine fun (t : State) (ht : P t) => ?_)
    | (refine fun (_ : _) (t : State) (ht : P t) => ?_)
    | (with_reducible intro t; first | (refine (fun (ht : P t) => ?_) (?_ : P t); rotate_left; subst t; rotate_right; clear_value t) | skip | skip)
    | lift_lets -underBinder
    | split

theorem State.flushHeld_keeps {P : State → Prop} (h : Stable [.out, .ctr, .ss, .sl, .ev] P) (s : State) (a1 : _) (hs : P s) : P (State.flushHeld s a1) := by
  have k1 := @State.output_keeps P (h.mono rfl)
  have k2 := @State.setSess_keeps P (h.mono rfl)
  unfold State.flushHeld
  repeat'
    first
    | with_reducible assumption
    | rfl
    | (with_reducible apply k1)
    | (with_reducible apply k2)
    | (with_reducible apply ite_keeps (P := P))
    | (with_reducible apply foldl_keeps (P := P))
    | (refine fun (t : State) (ht : P t) => ?_)
    | (refine fun (_ : _) (t : State) (ht : P t) => ?_)
    | (with_reducible intro t; first | (refine (fun (ht : P t) => ?_) (?_ : P t); rotate_left; subst t; rotate_right; clear_value t) | skip | skip)
    | lift_lets -underBinder
    | split

theorem State.endEarly_keeps {P : State → Prop} (h : Stable [.out, .ctr, .notify, .ss, .sl, .ev] P) (s : State) (a1 : _) (a2 : _) (hs : P s) : P (State.endEarly s a1 a2) := by
  have k1 := @State.flushHeld_keeps P (h.mono rfl)
  have k2 := @State.endRun_keeps P (h.mono rfl)
  unfold State.endEarly
  repeat'
    first
    | with_reducible assumption
    | rfl
    | (with_reducible apply k1)
    | (with_reducible apply k2)
    | (with_reducible apply ite_keeps (P := P))
    | (with_reducible apply foldl_keeps (P := P))
    | (refine fun (t : State) (ht : P t) => ?_)
    | (refine fun (_ : _) (t : State) (ht : P t) => ?_)
    | (with_reducible intro t; first | (refine (fun (ht : P t) => ?_) (?_ : P t); rotate_left; subst t; rotate_right; clear_value t) | skip | skip)
    | lift_lets -underBinder
    | split

theorem State.beginClose_keeps {P : State → Prop} (h : Stable [.out, .ctr, .notify, .ss, .tm, .sl, .ev] P) (s : State) (a1 : _) (a2 : _) (hs : P s) : P (State.beginClose s a1 a2) := by
  have k1 := @State.endEarly_keeps P (h.mono rfl)
  have k2 := @State.setSess_keeps P (h.mono rfl)
  have k3 := @State.endDesc_keeps P (h.mono rfl)
  have k4 := @State.releaseHeld_keeps P (h.mono rfl)
  have k5 := @State.toState_keeps P (h.mono rfl)
  unfold State.beginClose
  repeat'
    first
    | with_reducible assumption
    | rfl
    | (with_reducible apply k1)
    | (with_reducible apply k2)
    | (with_reducible apply k3)
    | (with_reducible apply k4)
    | (with_reducible apply k5)
    | (with_reducible apply ite_keeps (P := P))
    | (with_reducible apply each_keeps (P := P))
    | (with_reducible apply foldl_keeps (P := P))
    | (refine fun (t : State) (ht : P t) => ?_)
    | (refine fun (_ : _) (t : State) (ht : P t) => ?_)
    | (with_reducible intro t; first | (refine (fun (ht : P t) => ?_) (?_ : P t); rotate_left; subst t; rotate_right; clear_value t) | skip | skip)
    | lift_lets -underBinder
    | split

theorem State.finishClose_keeps {P : State → Prop} (h : Stable [.out, .ctr, .nv, .notify, .sc, .ss, .tm, .fb, .sl, .ev] P) (s : State) (a1 : _) (hs : P s) : P (State.finishClose s a1) := by
  have k1 := @State.freeAll_keeps P (h.mono rfl)
  have k2 := @State.endRun_keeps P (h.mono rfl)
  have k3 := @State.freeSlotOf_keeps P (h.mono rfl)
  unfold State.finishClose
  repeat'
    first
    | with_reducible assumption
    | rfl
    | (with_reducible apply k1)
    | (with_reducible apply k2)
    | (with_reducible apply k3)
    | (with_reducible apply ite_keeps (P := P))
    | (with_reducible apply foldl_keeps (P := P))
    | (refine fun (t : State) (ht : P t) => ?_)
    | (refine fun (_ : _) (t : State) (ht : P t) => ?_)
    | (with_reducible intro t; first | (refine (fun (ht : P t) => ?_) (?_ : P t); rotate_left; subst t; rotate_right; clear_value t) | skip | skip)
    | lift_lets -underBinder
    | split

end Sys2Proof.Machine
end

