-- ==== Sys2Proof/Laws/KeepsSecOps.lean ====
section
/-! SUPPORT. What the operations of Machine/SecOps.lean can do to the state (`Laws/Keeps.lean`): one lemma per operation. -/

set_option linter.all false

namespace Sys2Proof.Machine

open Sys2Proof

theorem State.lowCheck_keeps {P : State → Prop} (h : Stable [.notify] P) (s : State) (a1 : _) (hs : P s) : P (State.lowCheck s a1) := by
  have pNotify := h.notify rfl
  unfold State.lowCheck
  repeat'
    first
    | with_reducible assumption
    | rfl
    | (with_reducible apply pNotify)
    | (with_reducible apply ite_keeps (P := P))
    | (with_reducible apply when_keeps (P := P))
    | (with_reducible apply foldl_keeps (P := P))
    | (refine fun (t : State) (ht : P t) => ?_)
    | (refine fun (_ : _) (t : State) (ht : P t) => ?_)
    | (with_reducible intro t; first | (refine (fun (ht : P t) => ?_) (?_ : P t); rotate_left; subst t; rotate_right; clear_value t) | skip | skip)
    | lift_lets -underBinder
    | split

theorem takeIndex_keeps {P : State → Prop} (h : Stable [.notify, .scAny] P) (s : State) (hs : P s) : OkOP P (takeIndex s) := by
  have k1 := @State.lowCheck_keeps P (h.mono rfl)
  have pUscAny := h.scAny rfl
  unfold takeIndex
  repeat'
    first
    | with_reducible assumption
    | rfl
    | (with_reducible apply k1)
    | (with_reducible refine pUscAny _ _ (by with_reducible assumption))
    | (with_reducible apply OkOpt.some)
    | (with_reducible apply OkOpt.none)
    | (with_reducible apply iteOpt_keeps)
    | (with_reducible apply OkOpt.map)
    | (with_reducible apply OkOpt.bind)
    | (with_reducible apply OkOpt.find)
    | (with_reducible apply OkOpt.fold)
    | (with_reducible apply OkOpt.getD (P := P))
    | (with_reducible apply ite_keeps (P := P))
    | (with_reducible apply foldl_keeps (P := P))
    | (refine OkO.get (P := P) (by with_reducible assumption) ?_)
    | (refine OkOP.get (P := P) (by with_reducible assumption) ?_)
    | (refine OkOPP.get (P := P) (by with_reducible assumption) ?_)
    | (refine fun (t : State) (ht : P t) => ?_)
    | (refine fun (_ : _) (t : State) (ht : P t) => ?_)
    | (with_reducible intro t; first | (refine (fun (ht : P t) => ?_) (?_ : P t); rotate_left; subst t; rotate_right; clear_value t) | skip | skip)
    | lift_lets -underBinder
    | split
    | (with_reducible apply pUscAny)
    | exact OkOpt.any

theorem closeIndex_keeps {P : State → Prop} (h : Stable [.ctr, .nvAny] P) (s : State) (hs : P s) : P (closeIndex s) := by
  have pStore := h.store rfl
  have pUnvAny := h.nvAny rfl
  unfold closeIndex
  repeat'
    first
    | ((with_reducible apply NvSide.mk); first | exact ⟨Nat.le_refl _, id⟩ | exact ⟨Nat.le_max_left _ _, id⟩ | exact ⟨Nat.le_refl _, fun _ => rfl⟩ | (split <;> exact ⟨Nat.le_refl _, id⟩))
    | with_reducible assumption
    | rfl
    | (with_reducible apply pStore)
    | (with_reducible apply ite_keeps (P := P))
    | (with_reducible apply foldl_keeps (P := P))
    | (refine fun (t : State) (ht : P t) => ?_)
    | (refine fun (_ : _) (t : State) (ht : P t) => ?_)
    | (with_reducible intro t; first | (refine (fun (ht : P t) => ?_) (?_ : P t); rotate_left; subst t; rotate_right; clear_value t) | skip | skip)
    | lift_lets -underBinder
    | split
    | (with_reducible apply pUnvAny)

theorem State.newKey_keeps {P : State → Prop} (h : Stable [.wr] P) (s : State) (hs : P s) : OkP P (State.newKey s) := by
  have pUwr := h.wr rfl
  unfold State.newKey
  repeat'
    first
    | with_reducible assumption
    | rfl
    | (with_reducible refine pUwr _ _ (by rfl) (by rfl) (by with_reducible assumption))
    | (with_reducible apply iteP_keeps (P := P))
    | (with_reducible apply ite_keeps (P := P))
    | (with_reducible apply foldl_keeps (P := P))
    | (with_reducible apply foldP_keeps (P := P))
    | (refine OkP.get (P := P) (by with_reducible assumption) ?_)
    | (with_reducible apply OkP.snd (P := P))
    | (refine fun (t : State) (ht : P t) => ?_)
    | (refine fun (_ : _) (t : State) (ht : P t) => ?_)
    | (with_reducible intro t; first | (refine (fun (ht : P t) => ?_) (?_ : P t); rotate_left; subst t; rotate_right; clear_value t) | skip | skip)
    | lift_lets -underBinder
    | split
    | (with_reducible apply pUwr)
    | (with_reducible apply OkP.mk (P := P))

theorem dropPendingKey_keeps {P : State → Prop} (h : Stable [.scAny] P) (a0 : _) (s : State) (hs : P s) : P (dropPendingKey a0 s) := by
  have k1 := @State.setDomSec_keeps P (h.mono rfl)
  unfold dropPendingKey
  repeat'
    first
    | with_reducible assumption
    | rfl
    | (with_reducible apply k1)
    | (with_reducible apply ite_keeps (P := P))
    | (with_reducible apply foldl_keeps (P := P))
    | (refine fun (t : State) (ht : P t) => ?_)
    | (refine fun (_ : _) (t : State) (ht : P t) => ?_)
    | (with_reducible intro t; first | (refine (fun (ht : P t) => ?_) (?_ : P t); rotate_left; subst t; rotate_right; clear_value t) | skip | skip)
    | lift_lets -underBinder
    | split

theorem State.applyCapsule_keeps {P : State → Prop} (h : Stable [.ctr, .nvAny, .notify, .scAny, .ev] P) (s : State) (a1 : _) (a2 : _) (hs : P s) : OkP P (State.applyCapsule s a1 a2) := by
  have k1 := @dropPendingKey_keeps P (h.mono rfl)
  have k2 := @State.setDomSec_keeps P (h.mono rfl)
  unfold State.applyCapsule
  extract_lets ds c r t
  have ht : P t := ite_keeps hs (k1 _ _ hs)
  clear_value t r c ds
  split
  · exact h.ev rfl _ _ _ _ _ _ _ (h.ctrInc rfl _ _ _ _ _ rfl ht)
  · exact h.notify rfl _ _ _ (h.ev rfl _ _ _ _ _ _ _ (h.store rfl _ (h.nvAny rfl _ _ ⟨Nat.le_refl _, id⟩ (k2 _ _ _ ht))))

theorem newEpochs_keeps {P : State → Prop} (h : Stable [.scAny] P) (s : State) (hs : P s) : P (newEpochs s) := by
  have k1 := @State.setDomSec_keeps P (h.mono rfl)
  unfold newEpochs
  repeat'
    first
    | with_reducible assumption
    | rfl
    | (with_reducible apply k1)
    | (with_reducible apply ite_keeps (P := P))
    | (with_reducible apply each_keeps (P := P))
    | (with_reducible apply foldl_keeps (P := P))
    | (refine fun (t : State) (ht : P t) => ?_)
    | (refine fun (_ : _) (t : State) (ht : P t) => ?_)
    | (with_reducible intro t; first | (refine (fun (ht : P t) => ?_) (?_ : P t); rotate_left; subst t; rotate_right; clear_value t) | skip | skip)
    | lift_lets -underBinder
    | split

theorem eraseKeys_keeps {P : State → Prop} (h : Stable [.ctr, .nvAny, .scAny] P) (a0 : _) (s : State) (hs : P s) : P (eraseKeys a0 s) := by
  have k1 := @State.setDomSec_keeps P (h.mono rfl)
  have pStore := h.store rfl
  have pUnvAny := h.nvAny rfl
  unfold eraseKeys
  repeat'
    first
    | ((with_reducible apply NvSide.mk); first | exact ⟨Nat.le_refl _, id⟩ | exact ⟨Nat.le_max_left _ _, id⟩ | exact ⟨Nat.le_refl _, fun _ => rfl⟩ | (split <;> exact ⟨Nat.le_refl _, id⟩))
    | with_reducible assumption
    | rfl
    | (with_reducible apply k1)
    | (with_reducible apply pStore)
    | (with_reducible apply ite_keeps (P := P))
    | (with_reducible apply foldl_keeps (P := P))
    | (refine fun (t : State) (ht : P t) => ?_)
    | (refine fun (_ : _) (t : State) (ht : P t) => ?_)
    | (with_reducible intro t; first | (refine (fun (ht : P t) => ?_) (?_ : P t); rotate_left; subst t; rotate_right; clear_value t) | skip | skip)
    | lift_lets -underBinder
    | split
    | (with_reducible apply pUnvAny)

end Sys2Proof.Machine
end

