-- ==== Sys2Proof/Laws/KeepsCtl.lean ====
section
/-! SUPPORT. What the operations of Machine/Ctl.lean can do to the state (`Laws/Keeps.lean`): one lemma per operation. -/

set_option linter.all false

namespace Sys2Proof.Machine

open Sys2Proof

theorem State.startDom_keeps {P : State → Prop} (h : Stable [.out, .ctr, .notify, .ss, .sl, .ev] P) (s : State) (a1 : _) (a2 : _) (f : DRun → State → State) (hf : ∀ q0 t, P t → P (f q0 t)) (hs : P s) : P (State.startDom s a1 a2 f) := by
  have k1 := @State.setDring_keeps P (h.mono rfl)
  have k2 := @State.endDrun_keeps P (h.mono rfl)
  have pEv := h.ev rfl
  unfold State.startDom
  repeat'
    first
    | with_reducible assumption
    | rfl
    | (with_reducible apply k1)
    | (with_reducible apply k2)
    | (with_reducible apply pEv)
    | (with_reducible apply ite_keeps (P := P))
    | (with_reducible apply foldl_keeps (P := P))
    | (with_reducible apply hf)
    | (refine fun (t : State) (ht : P t) => ?_)
    | (refine fun (_ : _) (t : State) (ht : P t) => ?_)
    | (with_reducible intro t; first | (refine (fun (ht : P t) => ?_) (?_ : P t); rotate_left; subst t; rotate_right; clear_value t) | skip | skip)
    | lift_lets -underBinder
    | split

theorem State.domInput_keeps {P : State → Prop} (h : Stable [.wfn, .win, .ev] P) (s : State) (a1 : _) (a2 : _) (hs : P s) : OkP P (State.domInput s a1 a2) := by
  have k1 := @State.revoke_keeps P (h.mono rfl)
  unfold State.domInput
  repeat'
    first
    | with_reducible assumption
    | rfl
    | (with_reducible apply k1)
    | (with_reducible apply iteP_keeps (P := P))
    | (with_reducible apply ite_keeps (P := P))
    | (with_reducible apply foldl_keeps (P := P))
    | (with_reducible apply foldP_keeps (P := P))
    | (refine OkP.get (P := P) (by with_reducible assumption) ?_)
    | (with_reducible apply OkP.snd (P := P))
    | (refine fun (t : State) (ht : P t) => ?_)
    | (refine fun (_ : _) (t : State) (ht : P t) => ?_)
    | (with_reducible intro t; first | (refine (fun (ht : P t) => ?_) (?_ : P t); rotate_left; subst t; rotate_right; clear_value t) | skip | skip)
    | lift_lets -underBinder
    | split
    | (with_reducible apply OkP.mk (P := P))

theorem State.startDomIn_keeps {P : State → Prop} (h : Stable [.out, .ctr, .wfn, .win, .notify, .ss, .sl, .ev] P) (s : State) (a1 : _) (a2 : _) (a3 : _) (f : DRun → Bytes → State → State) (hf : ∀ q0 q1 t, P t → P (f q0 q1 t)) (hs : P s) : P (State.startDomIn s a1 a2 a3 f) := by
  have k1 := @State.startDom_keeps P (h.mono rfl)
  have k2 := @State.domInput_keeps P (h.mono rfl)
  have k3 := @State.endDrun_keeps P (h.mono rfl)
  unfold State.startDomIn
  repeat'
    first
    | with_reducible assumption
    | rfl
    | (with_reducible apply k1)
    | (with_reducible apply k2)
    | (with_reducible apply k3)
    | (with_reducible apply iteP_keeps (P := P))
    | (with_reducible apply ite_keeps (P := P))
    | (with_reducible apply foldl_keeps (P := P))
    | (with_reducible apply foldP_keeps (P := P))
    | (with_reducible apply hf)
    | (refine OkP.get (P := P) (by with_reducible assumption) ?_)
    | (with_reducible apply OkP.snd (P := P))
    | (refine fun (t : State) (ht : P t) => ?_)
    | (refine fun (_ : _) (t : State) (ht : P t) => ?_)
    | (with_reducible intro t; first | (refine (fun (ht : P t) => ?_) (?_ : P t); rotate_left; subst t; rotate_right; clear_value t) | skip | skip)
    | lift_lets -underBinder
    | split
    | (with_reducible apply OkP.mk (P := P))

end Sys2Proof.Machine
end

