-- ==== Sys2Proof/Laws/KeepsDnx.lean ====
section
/-! SUPPORT. What the operations of Machine/Dnx.lean can do to the state (`Laws/Keeps.lean`): one lemma per operation. -/

set_option linter.all false

namespace Sys2Proof.Machine

open Sys2Proof

theorem State.setPeer_keeps {P : State → Prop} (h : Stable [.dx] P) (s : State) (a1 : _) (a2 : _) (hs : P s) : P (State.setPeer s a1 a2) := by
  have pUdx := h.dx rfl
  unfold State.setPeer
  repeat'
    first
    | with_reducible assumption
    | rfl
    | (with_reducible refine pUdx _ _ (by with_reducible assumption))
    | (with_reducible apply ite_keeps (P := P))
    | (with_reducible apply foldl_keeps (P := P))
    | (refine fun (t : State) (ht : P t) => ?_)
    | (refine fun (_ : _) (t : State) (ht : P t) => ?_)
    | (with_reducible intro t; first | (refine (fun (ht : P t) => ?_) (?_ : P t); rotate_left; subst t; rotate_right; clear_value t) | skip | skip)
    | lift_lets -underBinder
    | split
    | (with_reducible apply pUdx)

theorem State.heardFrom_keeps {P : State → Prop} (h : Stable [.dx] P) (s : State) (a1 : _) (hs : P s) : P (State.heardFrom s a1) := by
  have k1 := @State.setPeer_keeps P (h.mono rfl)
  unfold State.heardFrom
  repeat'
    first
    | with_reducible assumption
    | rfl
    | (with_reducible apply k1)
    | (with_reducible apply ite_keeps (P := P))
    | (with_reducible apply foldl_keeps (P := P))
    | (refine fun (t : State) (ht : P t) => ?_)
    | (refine fun (_ : _) (t : State) (ht : P t) => ?_)
    | (with_reducible intro t; first | (refine (fun (ht : P t) => ?_) (?_ : P t); rotate_left; subst t; rotate_right; clear_value t) | skip | skip)
    | lift_lets -underBinder
    | split

theorem State.setLink_keeps {P : State → Prop} (h : Stable [.dx] P) (s : State) (a1 : _) (a2 : _) (hs : P s) : P (State.setLink s a1 a2) := by
  have pUdx := h.dx rfl
  unfold State.setLink
  repeat'
    first
    | with_reducible assumption
    | rfl
    | (with_reducible refine pUdx _ _ (by with_reducible assumption))
    | (with_reducible apply ite_keeps (P := P))
    | (with_reducible apply foldl_keeps (P := P))
    | (refine fun (t : State) (ht : P t) => ?_)
    | (refine fun (_ : _) (t : State) (ht : P t) => ?_)
    | (with_reducible intro t; first | (refine (fun (ht : P t) => ?_) (?_ : P t); rotate_left; subst t; rotate_right; clear_value t) | skip | skip)
    | lift_lets -underBinder
    | split
    | (with_reducible apply pUdx)

theorem State.sendFlit_keeps {P : State → Prop} (h : Stable [.out, .dx, .ev] P) (s : State) (a1 : _) (hs : P s) : OkO P (State.sendFlit s a1) := by
  have k1 := @State.setLink_keeps P (h.mono rfl)
  have pEv := h.ev rfl
  have pOut := h.out rfl
  unfold State.sendFlit
  repeat'
    first
    | with_reducible assumption
    | rfl
    | (with_reducible apply k1)
    | (with_reducible apply pEv)
    | (with_reducible apply pOut)
    | (with_reducible apply OkOpt.some)
    | (with_reducible apply OkOpt.none)
    | (with_reducible apply iteOpt_keeps)
    | (with_reducible apply OkOpt.map)
    | (with_reducible apply OkOpt.bind)
    | (with_reducible apply OkOpt.find)
    | (with_reducible apply OkOpt.fold)
    | (with_reducible apply OkOpt.getD (P := P))
    | (with_reducible apply ite_keeps (P := P))
    | (with_reducible apply foldl_keeps (P := P))
    | (refine OkO.get (P := P) (by with_reducible assumption) ?_)
    | (refine OkOP.get (P := P) (by with_reducible assumption) ?_)
    | (refine OkOPP.get (P := P) (by with_reducible assumption) ?_)
    | (refine fun (t : State) (ht : P t) => ?_)
    | (refine fun (_ : _) (t : State) (ht : P t) => ?_)
    | (with_reducible intro t; first | (refine (fun (ht : P t) => ?_) (?_ : P t); rotate_left; subst t; rotate_right; clear_value t) | skip | skip)
    | lift_lets -underBinder
    | split
    | exact OkOpt.any

theorem State.pumpSome_keeps {P : State → Prop} (h : Stable [.out, .dx, .ev] P) (a0 : _) (a1 : _) (s : State) (hs : P s) : P (State.pumpSome a0 a1 s) := by
  have k1 := @State.sendFlit_keeps P (h.mono rfl)
  induction a0 generalizing a1 s with
  | zero =>
    unfold State.pumpSome
    repeat'
      first
      | with_reducible assumption
      | rfl
      | (with_reducible apply k1)
      | (with_reducible apply OkOpt.some)
      | (with_reducible apply OkOpt.none)
      | (with_reducible apply iteOpt_keeps)
      | (with_reducible apply OkOpt.map)
      | (with_reducible apply OkOpt.bind)
      | (with_reducible apply OkOpt.find)
      | (with_reducible apply OkOpt.fold)
      | (with_reducible apply OkOpt.getD (P := P))
      | (with_reducible apply ite_keeps (P := P))
      | (with_reducible apply foldl_keeps (P := P))
      | (refine OkO.get (P := P) (by with_reducible assumption) ?_)
      | (refine OkOP.get (P := P) (by with_reducible assumption) ?_)
      | (refine OkOPP.get (P := P) (by with_reducible assumption) ?_)
      | (refine fun (t : State) (ht : P t) => ?_)
      | (refine fun (_ : _) (t : State) (ht : P t) => ?_)
      | (with_reducible intro t; first | (refine (fun (ht : P t) => ?_) (?_ : P t); rotate_left; subst t; rotate_right; clear_value t) | skip | skip)
      | lift_lets -underBinder
      | split
      | exact OkOpt.any
  | succ n ih =>
    unfold State.pumpSome
    repeat'
      first
      | with_reducible assumption
      | rfl
      | (with_reducible apply ih)
      | (with_reducible apply k1)
      | (with_reducible apply OkOpt.some)
      | (with_reducible apply OkOpt.none)
      | (with_reducible apply iteOpt_keeps)
      | (with_reducible apply OkOpt.map)
      | (with_reducible apply OkOpt.bind)
      | (with_reducible apply OkOpt.find)
      | (with_reducible apply OkOpt.fold)
      | (with_reducible apply OkOpt.getD (P := P))
      | (with_reducible apply ite_keeps (P := P))
      | (with_reducible apply foldl_keeps (P := P))
      | (refine OkO.get (P := P) (by with_reducible assumption) ?_)
      | (refine OkOP.get (P := P) (by with_reducible assumption) ?_)
      | (refine OkOPP.get (P := P) (by with_reducible assumption) ?_)
      | (refine fun (t : State) (ht : P t) => ?_)
      | (refine fun (_ : _) (t : State) (ht : P t) => ?_)
      | (with_reducible intro t; first | (refine (fun (ht : P t) => ?_) (?_ : P t); rotate_left; subst t; rotate_right; clear_value t) | skip | skip)
      | lift_lets -underBinder
      | split
      | exact OkOpt.any

theorem State.pumpLink_keeps {P : State → Prop} (h : Stable [.out, .dx, .ev] P) (s : State) (a1 : _) (hs : P s) : P (State.pumpLink s a1) := by
  have k1 := @State.pumpSome_keeps P (h.mono rfl)
  unfold State.pumpLink
  repeat'
    first
    | with_reducible assumption
    | rfl
    | (with_reducible apply k1)
    | (with_reducible apply ite_keeps (P := P))
    | (with_reducible apply foldl_keeps (P := P))
    | (refine fun (t : State) (ht : P t) => ?_)
    | (refine fun (_ : _) (t : State) (ht : P t) => ?_)
    | (with_reducible intro t; first | (refine (fun (ht : P t) => ?_) (?_ : P t); rotate_left; subst t; rotate_right; clear_value t) | skip | skip)
    | lift_lets -underBinder
    | split

theorem State.queueFlits_keeps {P : State → Prop} (h : Stable [.out, .dx, .ev] P) (s : State) (a1 : _) (a2 : _) (a3 : _) (hs : P s) : P (State.queueFlits s a1 a2 a3) := by
  have k1 := @State.pumpLink_keeps P (h.mono rfl)
  have k2 := @State.setLink_keeps P (h.mono rfl)
  unfold State.queueFlits
  repeat'
    first
    | with_reducible assumption
    | rfl
    | (with_reducible apply k1)
    | (with_reducible apply k2)
    | (with_reducible apply ite_keeps (P := P))
    | (with_reducible apply foldl_keeps (P := P))
    | (refine fun (t : State) (ht : P t) => ?_)
    | (refine fun (_ : _) (t : State) (ht : P t) => ?_)
    | (with_reducible intro t; first | (refine (fun (ht : P t) => ?_) (?_ : P t); rotate_left; subst t; rotate_right; clear_value t) | skip | skip)
    | lift_lets -underBinder
    | split

theorem State.ackLink_keeps {P : State → Prop} (h : Stable [.out, .dx, .ev] P) (s : State) (a1 : _) (a2 : _) (hs : P s) : P (State.ackLink s a1 a2) := by
  have k1 := @State.pumpLink_keeps P (h.mono rfl)
  have k2 := @State.setLink_keeps P (h.mono rfl)
  unfold State.ackLink
  repeat'
    first
    | with_reducible assumption
    | rfl
    | (with_reducible apply k1)
    | (with_reducible apply k2)
    | (with_reducible apply ite_keeps (P := P))
    | (with_reducible apply foldl_keeps (P := P))
    | (refine fun (t : State) (ht : P t) => ?_)
    | (refine fun (_ : _) (t : State) (ht : P t) => ?_)
    | (with_reducible intro t; first | (refine (fun (ht : P t) => ?_) (?_ : P t); rotate_left; subst t; rotate_right; clear_value t) | skip | skip)
    | lift_lets -underBinder
    | split

theorem State.replayLink_keeps {P : State → Prop} (h : Stable [.out, .ctr, .dx, .ev] P) (s : State) (a1 : _) (hs : P s) : P (State.replayLink s a1) := by
  have k1 := @State.setLink_keeps P (h.mono rfl)
  have pInc := h.ctrInc rfl
  have pEv := h.ev rfl
  have pOut := h.out rfl
  unfold State.replayLink
  repeat'
    first
    | with_reducible assumption
    | rfl
    | (with_reducible apply k1)
    | (with_reducible apply pInc)
    | (with_reducible apply pEv)
    | (with_reducible apply pOut)
    | (with_reducible apply ite_keeps (P := P))
    | (with_reducible apply each_keeps (P := P))
    | (with_reducible apply foldl_keeps (P := P))
    | (refine fun (t : State) (ht : P t) => ?_)
    | (refine fun (_ : _) (t : State) (ht : P t) => ?_)
    | (with_reducible intro t; first | (refine (fun (ht : P t) => ?_) (?_ : P t); rotate_left; subst t; rotate_right; clear_value t) | skip | skip)
    | lift_lets -underBinder
    | split

theorem State.returnCredit_keeps {P : State → Prop} (h : Stable [.out, .dx] P) (s : State) (a1 : _) (a2 : _) (a3 : _) (hs : P s) : P (State.returnCredit s a1 a2 a3) := by
  have k1 := @State.setLink_keeps P (h.mono rfl)
  have pOut := h.out rfl
  unfold State.returnCredit
  repeat'
    first
    | with_reducible assumption
    | rfl
    | (with_reducible apply k1)
    | (with_reducible apply pOut)
    | (with_reducible apply ite_keeps (P := P))
    | (with_reducible apply foldl_keeps (P := P))
    | (refine fun (t : State) (ht : P t) => ?_)
    | (refine fun (_ : _) (t : State) (ht : P t) => ?_)
    | (with_reducible intro t; first | (refine (fun (ht : P t) => ?_) (?_ : P t); rotate_left; subst t; rotate_right; clear_value t) | skip | skip)
    | lift_lets -underBinder
    | split

theorem State.nakLink_keeps {P : State → Prop} (h : Stable [.out, .dx] P) (s : State) (a1 : _) (hs : P s) : P (State.nakLink s a1) := by
  have k1 := @State.setLink_keeps P (h.mono rfl)
  have pOut := h.out rfl
  unfold State.nakLink
  repeat'
    first
    | with_reducible assumption
    | rfl
    | (with_reducible apply k1)
    | (with_reducible apply pOut)
    | (with_reducible apply ite_keeps (P := P))
    | (with_reducible apply foldl_keeps (P := P))
    | (refine fun (t : State) (ht : P t) => ?_)
    | (refine fun (_ : _) (t : State) (ht : P t) => ?_)
    | (with_reducible intro t; first | (refine (fun (ht : P t) => ?_) (?_ : P t); rotate_left; subst t; rotate_right; clear_value t) | skip | skip)
    | lift_lets -underBinder
    | split

theorem State.route_keeps {P : State → Prop} (h : Stable [.dx] P) (s : State) (a1 : _) (a2 : _) (hs : P s) : OkOP P (State.route s a1 a2) := by
  have pUdx := h.dx rfl
  unfold State.route
  repeat'
    first
    | with_reducible assumption
    | rfl
    | (with_reducible refine pUdx _ _ (by with_reducible assumption))
    | (with_reducible apply OkOpt.some)
    | (with_reducible apply OkOpt.none)
    | (with_reducible apply iteOpt_keeps)
    | (with_reducible apply OkOpt.map)
    | (with_reducible apply OkOpt.bind)
    | (with_reducible apply OkOpt.find)
    | (with_reducible apply OkOpt.fold)
    | (with_reducible apply OkOpt.getD (P := P))
    | (with_reducible apply ite_keeps (P := P))
    | (with_reducible apply foldl_keeps (P := P))
    | (refine OkO.get (P := P) (by with_reducible assumption) ?_)
    | (refine OkOP.get (P := P) (by with_reducible assumption) ?_)
    | (refine OkOPP.get (P := P) (by with_reducible assumption) ?_)
    | (refine fun (t : State) (ht : P t) => ?_)
    | (refine fun (_ : _) (t : State) (ht : P t) => ?_)
    | (with_reducible intro t; first | (refine (fun (ht : P t) => ?_) (?_ : P t); rotate_left; subst t; rotate_right; clear_value t) | clear_value t | skip)
    | lift_lets -underBinder
    | split
    | (with_reducible apply pUdx)
    | exact OkOpt.any

theorem State.putMsg_keeps {P : State → Prop} (h : Stable [.out, .dx, .ev] P) (s : State) (a1 : _) (a2 : _) (hs : P s) : P (State.putMsg s a1 a2) := by
  have k1 := @State.queueFlits_keeps P (h.mono rfl)
  have pEv := h.ev rfl
  unfold State.putMsg
  repeat'
    first
    | with_reducible assumption
    | rfl
    | (with_reducible apply k1)
    | (with_reducible apply pEv)
    | (with_reducible apply ite_keeps (P := P))
    | (with_reducible apply foldl_keeps (P := P))
    | (refine fun (t : State) (ht : P t) => ?_)
    | (refine fun (_ : _) (t : State) (ht : P t) => ?_)
    | (with_reducible intro t; first | (refine (fun (ht : P t) => ?_) (?_ : P t); rotate_left; subst t; rotate_right; clear_value t) | skip | skip)
    | lift_lets -underBinder
    | split

theorem State.routeMsg_keeps {P : State → Prop} (h : Stable [.out, .dx, .ev] P) (s : State) (a1 : _) (hs : P s) : P (State.routeMsg s a1) := by
  have k1 := @State.route_keeps P (h.mono rfl)
  have k2 := @State.putMsg_keeps P (h.mono rfl)
  have pUdx := h.dx rfl
  unfold State.routeMsg
  repeat'
    first
    | with_reducible assumption
    | rfl
    | (with_reducible apply k1)
    | (with_reducible apply k2)
    | (with_reducible refine pUdx _ _ (by with_reducible assumption))
    | (with_reducible apply OkOpt.some)
    | (with_reducible apply OkOpt.none)
    | (with_reducible apply iteOpt_keeps)
    | (with_reducible apply OkOpt.map)
    | (with_reducible apply OkOpt.bind)
    | (with_reducible apply OkOpt.find)
    | (with_reducible apply OkOpt.fold)
    | (with_reducible apply OkOpt.getD (P := P))
    | (with_reducible apply ite_keeps (P := P))
    | (with_reducible apply foldl_keeps (P := P))
    | (refine OkO.get (P := P) (by with_reducible assumption) ?_)
    | (refine OkOP.get (P := P) (by with_reducible assumption) ?_)
    | (refine OkOPP.get (P := P) (by with_reducible assumption) ?_)
    | (refine fun (t : State) (ht : P t) => ?_)
    | (refine fun (_ : _) (t : State) (ht : P t) => ?_)
    | (with_reducible intro t; first | (refine (fun (ht : P t) => ?_) (?_ : P t); rotate_left; subst t; rotate_right; clear_value t) | skip | skip)
    | lift_lets -underBinder
    | split
    | (with_reducible apply pUdx)
    | exact OkOpt.any

theorem State.routeWaiting_keeps {P : State → Prop} (h : Stable [.out, .dx, .ev] P) (s : State) (hs : P s) : P (State.routeWaiting s) := by
  have k1 := @State.routeMsg_keeps P (h.mono rfl)
  have pUdx := h.dx rfl
  unfold State.routeWaiting
  repeat'
    first
    | with_reducible assumption
    | rfl
    | (with_reducible apply k1)
    | (with_reducible refine pUdx _ _ (by with_reducible assumption))
    | (with_reducible apply ite_keeps (P := P))
    | (with_reducible apply each_keeps (P := P))
    | (with_reducible apply foldl_keeps (P := P))
    | (refine fun (t : State) (ht : P t) => ?_)
    | (refine fun (_ : _) (t : State) (ht : P t) => ?_)
    | (with_reducible intro t; first | (refine (fun (ht : P t) => ?_) (?_ : P t); rotate_left; subst t; rotate_right; clear_value t) | skip | skip)
    | lift_lets -underBinder
    | split
    | (with_reducible apply pUdx)

theorem State.stampMsg_keeps {P : State → Prop} (h : Stable [.ctr, .nv, .dx] P) (s : State) (a1 : _) (hs : P s) : OkP P (State.stampMsg s a1) := by
  have pStore := h.store rfl
  have pUdx := h.dx rfl
  have pUnv := h.nv rfl
  unfold State.stampMsg
  repeat'
    first
    | with_reducible assumption
    | rfl
    | (with_reducible apply pStore)
    | (with_reducible refine pUdx _ _ (by with_reducible assumption))
    | (with_reducible refine pUnv _ _ (by dsimp only [NV.rest]) (by with_reducible assumption))
    | (with_reducible apply iteP_keeps (P := P))
    | (with_reducible apply ite_keeps (P := P))
    | (with_reducible apply when_keeps (P := P))
    | (with_reducible apply foldl_keeps (P := P))
    | (with_reducible apply foldP_keeps (P := P))
    | (refine OkP.get (P := P) (by with_reducible assumption) ?_)
    | (with_reducible apply OkP.snd (P := P))
    | (refine fun (t : State) (ht : P t) => ?_)
    | (refine fun (_ : _) (t : State) (ht : P t) => ?_)
    | (with_reducible intro t; first | (refine (fun (ht : P t) => ?_) (?_ : P t); rotate_left; subst t; rotate_right; clear_value t) | skip | skip)
    | lift_lets -underBinder
    | split
    | (with_reducible apply pUdx)
    | (with_reducible apply pUnv)
    | (with_reducible apply OkP.mk (P := P))

theorem State.sendMsg_keeps {P : State → Prop} (h : Stable [.out, .ctr, .nv, .dx, .ev] P) (s : State) (a1 : _) (hs : P s) : P (State.sendMsg s a1) := by
  have k1 := @State.stampMsg_keeps P (h.mono rfl)
  have k2 := @State.routeMsg_keeps P (h.mono rfl)
  unfold State.sendMsg
  repeat'
    first
    | with_reducible assumption
    | rfl
    | (with_reducible apply k1)
    | (with_reducible apply k2)
    | (with_reducible apply iteP_keeps (P := P))
    | (with_reducible apply ite_keeps (P := P))
    | (with_reducible apply foldl_keeps (P := P))
    | (with_reducible apply foldP_keeps (P := P))
    | (refine OkP.get (P := P) (by with_reducible assumption) ?_)
    | (with_reducible apply OkP.snd (P := P))
    | (refine fun (t : State) (ht : P t) => ?_)
    | (refine fun (_ : _) (t : State) (ht : P t) => ?_)
    | (with_reducible intro t; first | (refine (fun (ht : P t) => ?_) (?_ : P t); rotate_left; subst t; rotate_right; clear_value t) | skip | skip)
    | lift_lets -underBinder
    | split
    | (with_reducible apply OkP.mk (P := P))

theorem State.sendCtl_keeps {P : State → Prop} (h : Stable [.out, .dx, .ev] P) (s : State) (a1 : _) (a2 : _) (a3 : _) (hs : P s) : P (State.sendCtl s a1 a2 a3) := by
  have k1 := @State.putMsg_keeps P (h.mono rfl)
  unfold State.sendCtl
  repeat'
    first
    | with_reducible assumption
    | rfl
    | (with_reducible apply k1)
    | (with_reducible apply ite_keeps (P := P))
    | (with_reducible apply foldl_keeps (P := P))
    | (refine fun (t : State) (ht : P t) => ?_)
    | (refine fun (_ : _) (t : State) (ht : P t) => ?_)
    | (with_reducible intro t; first | (refine (fun (ht : P t) => ?_) (?_ : P t); rotate_left; subst t; rotate_right; clear_value t) | skip | skip)
    | lift_lets -underBinder
    | split

theorem State.routeCtl_keeps {P : State → Prop} (h : Stable [.out, .dx, .ev] P) (s : State) (a1 : _) (a2 : _) (hs : P s) : P (State.routeCtl s a1 a2) := by
  have k1 := @State.routeMsg_keeps P (h.mono rfl)
  unfold State.routeCtl
  repeat'
    first
    | with_reducible assumption
    | rfl
    | (with_reducible apply k1)
    | (with_reducible apply ite_keeps (P := P))
    | (with_reducible apply foldl_keeps (P := P))
    | (refine fun (t : State) (ht : P t) => ?_)
    | (refine fun (_ : _) (t : State) (ht : P t) => ?_)
    | (with_reducible intro t; first | (refine (fun (ht : P t) => ?_) (?_ : P t); rotate_left; subst t; rotate_right; clear_value t) | skip | skip)
    | lift_lets -underBinder
    | split

theorem State.markSeen_keeps {P : State → Prop} (h : Stable [.dx] P) (s : State) (a1 : _) (a2 : _) (hs : P s) : P (State.markSeen s a1 a2) := by
  have pUdx := h.dx rfl
  unfold State.markSeen
  repeat'
    first
    | with_reducible assumption
    | rfl
    | (with_reducible refine pUdx _ _ (by with_reducible assumption))
    | (with_reducible apply ite_keeps (P := P))
    | (with_reducible apply foldl_keeps (P := P))
    | (refine fun (t : State) (ht : P t) => ?_)
    | (refine fun (_ : _) (t : State) (ht : P t) => ?_)
    | (with_reducible intro t; first | (refine (fun (ht : P t) => ?_) (?_ : P t); rotate_left; subst t; rotate_right; clear_value t) | skip | skip)
    | lift_lets -underBinder
    | split
    | (with_reducible apply pUdx)

theorem State.badMsg_keeps {P : State → Prop} (h : Stable [.ctr] P) (s : State) (hs : P s) : P (State.badMsg s) := by
  have pInc := h.ctrInc rfl
  unfold State.badMsg
  repeat'
    first
    | with_reducible assumption
    | rfl
    | (with_reducible apply pInc)
    | (with_reducible apply ite_keeps (P := P))
    | (with_reducible apply foldl_keeps (P := P))
    | (refine fun (t : State) (ht : P t) => ?_)
    | (refine fun (_ : _) (t : State) (ht : P t) => ?_)
    | (with_reducible intro t; first | (refine (fun (ht : P t) => ?_) (?_ : P t); rotate_left; subst t; rotate_right; clear_value t) | skip | skip)
    | lift_lets -underBinder
    | split

theorem State.arrive_keeps {P : State → Prop} (h : Stable [.ctr, .dx, .journal, .ev] P) (s : State) (a1 : _) (a2 : _) (f : State → State) (hf : ∀ t, P t → P (f t)) (hs : P s) : P (State.arrive s a1 a2 f) := by
  have k1 := @State.heardFrom_keeps P (h.mono rfl)
  have k2 := @State.badMsg_keeps P (h.mono rfl)
  have k3 := @State.markSeen_keeps P (h.mono rfl)
  have pInc := h.ctrInc rfl
  have pEv := h.ev rfl
  have pJournal := h.journal rfl
  unfold State.arrive
  repeat'
    first
    | with_reducible assumption
    | rfl
    | (with_reducible apply k1)
    | (with_reducible apply k2)
    | (with_reducible apply k3)
    | (with_reducible apply pInc)
    | (with_reducible apply pEv)
    | (with_reducible apply pJournal)
    | (with_reducible apply ite_keeps (P := P))
    | (with_reducible apply foldl_keeps (P := P))
    | (with_reducible apply hf)
    | (refine fun (t : State) (ht : P t) => ?_)
    | (refine fun (_ : _) (t : State) (ht : P t) => ?_)
    | (with_reducible intro t; first | (refine (fun (ht : P t) => ?_) (?_ : P t); rotate_left; subst t; rotate_right; clear_value t) | skip | skip)
    | lift_lets -underBinder
    | split

theorem State.ctlArrive_keeps {P : State → Prop} (h : Stable [.ctr, .dx] P) (s : State) (a1 : _) (a2 : _) (f : State → State) (hf : ∀ t, P t → P (f t)) (a4 : _) (hs : P s) : P (State.ctlArrive s a1 a2 f a4) := by
  have k1 := @State.heardFrom_keeps P (h.mono rfl)
  have k2 := @State.badMsg_keeps P (h.mono rfl)
  unfold State.ctlArrive
  repeat'
    first
    | with_reducible assumption
    | rfl
    | (with_reducible apply k1)
    | (with_reducible apply k2)
    | (with_reducible apply ite_keeps (P := P))
    | (with_reducible apply foldl_keeps (P := P))
    | (with_reducible apply hf)
    | (refine fun (t : State) (ht : P t) => ?_)
    | (refine fun (_ : _) (t : State) (ht : P t) => ?_)
    | (with_reducible intro t; first | (refine (fun (ht : P t) => ?_) (?_ : P t); rotate_left; subst t; rotate_right; clear_value t) | skip | skip)
    | lift_lets -underBinder
    | split

end Sys2Proof.Machine
end

