-- ==== Sys2Proof/Laws/KeepsRing.lean ====
section
/-! SUPPORT. What the operations of Machine/Ring.lean can do to the state (`Laws/Keeps.lean`): one lemma per operation. -/

set_option linter.all false

namespace Sys2Proof.Machine

open Sys2Proof

theorem State.failDesc_keeps {P : State → Prop} (h : Stable [.out, .ctr, .notify, .ss, .sl, .ev] P) (s : State) (a1 : _) (a2 : _) (a3 : _) (hs : P s) : P (State.failDesc s a1 a2 a3) := by
  have k1 := @State.endDesc_keeps P (h.mono rfl)
  unfold State.failDesc
  repeat'
    first
    | with_reducible assumption
    | rfl
    | (with_reducible apply k1)
    | (with_reducible apply ite_keeps (P := P))
    | (with_reducible apply foldl_keeps (P := P))
    | (refine fun (t : State) (ht : P t) => ?_)
    | (refine fun (_ : _) (t : State) (ht : P t) => ?_)
    | (with_reducible intro t; first | (refine (fun (ht : P t) => ?_) (?_ : P t); rotate_left; subst t; rotate_right; clear_value t) | skip | skip)
    | lift_lets -underBinder
    | split

theorem State.enqueue_keeps {P : State → Prop} (h : Stable [.out, .ctr, .notify, .ss, .sl, .ev] P) (s : State) (a1 : _) (a2 : _) (hs : P s) : P (State.enqueue s a1 a2) := by
  have k1 := @State.failDesc_keeps P (h.mono rfl)
  have k2 := @State.setSess_keeps P (h.mono rfl)
  have pInc := h.ctrInc rfl
  have pEv := h.ev rfl
  unfold State.enqueue
  repeat'
    first
    | with_reducible assumption
    | rfl
    | (with_reducible apply k1)
    | (with_reducible apply k2)
    | (with_reducible apply pInc)
    | (with_reducible apply pEv)
    | (with_reducible apply ite_keeps (P := P))
    | (with_reducible apply foldl_keeps (P := P))
    | (refine fun (t : State) (ht : P t) => ?_)
    | (refine fun (_ : _) (t : State) (ht : P t) => ?_)
    | (with_reducible intro t; first | (refine (fun (ht : P t) => ?_) (?_ : P t); rotate_left; subst t; rotate_right; clear_value t) | skip | skip)
    | lift_lets -underBinder
    | split

theorem State.enqueueDom_keeps {P : State → Prop} (h : Stable [.out, .ctr, .notify, .ss, .sl, .ev] P) (s : State) (a1 : _) (a2 : _) (hs : P s) : P (State.enqueueDom s a1 a2) := by
  have k1 := @State.failDesc_keeps P (h.mono rfl)
  have k2 := @State.endDom_keeps P (h.mono rfl)
  have k3 := @State.setDring_keeps P (h.mono rfl)
  have pEv := h.ev rfl
  unfold State.enqueueDom
  repeat'
    first
    | with_reducible assumption
    | rfl
    | (with_reducible apply k1)
    | (with_reducible apply k2)
    | (with_reducible apply k3)
    | (with_reducible apply pEv)
    | (with_reducible apply ite_keeps (P := P))
    | (with_reducible apply foldl_keeps (P := P))
    | (refine fun (t : State) (ht : P t) => ?_)
    | (refine fun (_ : _) (t : State) (ht : P t) => ?_)
    | (with_reducible intro t; first | (refine (fun (ht : P t) => ?_) (?_ : P t); rotate_left; subst t; rotate_right; clear_value t) | skip | skip)
    | lift_lets -underBinder
    | split

theorem State.pumpForward_keeps {P : State → Prop} (h : Stable [.out, .ctr, .nv, .dx, .ev] P) (s : State) (hs : P s) : P (State.pumpForward s) := by
  have k1 := @State.sendMsg_keeps P (h.mono rfl)
  have pEv := h.ev rfl
  have pUdx := h.dx rfl
  unfold State.pumpForward
  repeat'
    first
    | with_reducible assumption
    | rfl
    | (with_reducible apply k1)
    | (with_reducible apply pEv)
    | (with_reducible refine pUdx _ _ (by with_reducible assumption))
    | (with_reducible apply ite_keeps (P := P))
    | (with_reducible apply each_keeps (P := P))
    | (with_reducible apply foldl_keeps (P := P))
    | (refine fun (t : State) (ht : P t) => ?_)
    | (refine fun (_ : _) (t : State) (ht : P t) => ?_)
    | (with_reducible intro t; first | (refine (fun (ht : P t) => ?_) (?_ : P t); rotate_left; subst t; rotate_right; clear_value t) | skip | skip)
    | lift_lets -underBinder
    | split
    | (with_reducible apply pUdx)

theorem State.forward_keeps {P : State → Prop} (h : Stable [.out, .ctr, .nv, .notify, .ss, .sl, .dx, .ev] P) (s : State) (a1 : _) (a2 : _) (a3 : _) (a4 : _) (hs : P s) : P (State.forward s a1 a2 a3 a4) := by
  have k1 := @State.failDesc_keeps P (h.mono rfl)
  have k2 := @State.setPeer_keeps P (h.mono rfl)
  have k3 := @State.pumpForward_keeps P (h.mono rfl)
  have pInc := h.ctrInc rfl
  have pEv := h.ev rfl
  have pUdx := h.dx rfl
  unfold State.forward
  repeat'
    first
    | with_reducible assumption
    | rfl
    | (with_reducible apply k1)
    | (with_reducible apply k2)
    | (with_reducible apply k3)
    | (with_reducible apply pInc)
    | (with_reducible apply pEv)
    | (with_reducible refine pUdx _ _ (by with_reducible assumption))
    | (with_reducible apply ite_keeps (P := P))
    | (with_reducible apply each_keeps (P := P))
    | (with_reducible apply foldl_keeps (P := P))
    | (refine fun (t : State) (ht : P t) => ?_)
    | (refine fun (_ : _) (t : State) (ht : P t) => ?_)
    | (with_reducible intro t; first | (refine (fun (ht : P t) => ?_) (?_ : P t); rotate_left; subst t; rotate_right; clear_value t) | skip | skip)
    | lift_lets -underBinder
    | split
    | (with_reducible apply pUdx)

theorem State.sendSess_keeps {P : State → Prop} (h : Stable [.out, .ctr, .nv, .notify, .ss, .sl, .dx, .ev] P) (s : State) (a1 : _) (a2 : _) (a3 : _) (a4 : _) (hs : P s) : P (State.sendSess s a1 a2 a3 a4) := by
  have k1 := @State.failDesc_keeps P (h.mono rfl)
  have k2 := @State.enqueue_keeps P (h.mono rfl)
  have k3 := @State.forward_keeps P (h.mono rfl)
  have pEv := h.ev rfl
  unfold State.sendSess
  repeat'
    first
    | with_reducible assumption
    | rfl
    | (with_reducible apply k1)
    | (with_reducible apply k2)
    | (with_reducible apply k3)
    | (with_reducible apply pEv)
    | (with_reducible apply ite_keeps (P := P))
    | (with_reducible apply each_keeps (P := P))
    | (with_reducible apply when_keeps (P := P))
    | (with_reducible apply foldl_keeps (P := P))
    | (refine fun (t : State) (ht : P t) => ?_)
    | (refine fun (_ : _) (t : State) (ht : P t) => ?_)
    | (with_reducible intro t; first | (refine (fun (ht : P t) => ?_) (?_ : P t); rotate_left; subst t; rotate_right; clear_value t) | skip | skip)
    | lift_lets -underBinder
    | split

theorem State.sendDom_keeps {P : State → Prop} (h : Stable [.out, .ctr, .nv, .notify, .ss, .sl, .dx, .ev] P) (s : State) (a1 : _) (a2 : _) (a3 : _) (hs : P s) : P (State.sendDom s a1 a2 a3) := by
  have k1 := @State.enqueueDom_keeps P (h.mono rfl)
  have k2 := @State.failDesc_keeps P (h.mono rfl)
  have k3 := @State.forward_keeps P (h.mono rfl)
  unfold State.sendDom
  repeat'
    first
    | with_reducible assumption
    | rfl
    | (with_reducible apply k1)
    | (with_reducible apply k2)
    | (with_reducible apply k3)
    | (with_reducible apply ite_keeps (P := P))
    | (with_reducible apply each_keeps (P := P))
    | (with_reducible apply foldl_keeps (P := P))
    | (refine fun (t : State) (ht : P t) => ?_)
    | (refine fun (_ : _) (t : State) (ht : P t) => ?_)
    | (with_reducible intro t; first | (refine (fun (ht : P t) => ?_) (?_ : P t); rotate_left; subst t; rotate_right; clear_value t) | skip | skip)
    | lift_lets -underBinder
    | split

theorem State.landCommand_keeps {P : State → Prop} (h : Stable [.out, .ctr, .notify, .ss, .sl, .ev] P) (s : State) (a1 : _) (a2 : _) (hs : P s) : P (State.landCommand s a1 a2) := by
  have k1 := @State.enqueue_keeps P (h.mono rfl)
  have k2 := @State.enqueueDom_keeps P (h.mono rfl)
  unfold State.landCommand
  repeat'
    first
    | with_reducible assumption
    | rfl
    | (with_reducible apply k1)
    | (with_reducible apply k2)
    | (with_reducible apply ite_keeps (P := P))
    | (with_reducible apply each_keeps (P := P))
    | (with_reducible apply foldl_keeps (P := P))
    | (refine fun (t : State) (ht : P t) => ?_)
    | (refine fun (_ : _) (t : State) (ht : P t) => ?_)
    | (with_reducible intro t; first | (refine (fun (ht : P t) => ?_) (?_ : P t); rotate_left; subst t; rotate_right; clear_value t) | skip | skip)
    | lift_lets -underBinder
    | split

end Sys2Proof.Machine
end

