-- ==== Sys2Proof/Laws/KeepsFabric.lean ====
section
/-! SUPPORT. What the operations of Machine/Fabric.lean can do to the state (`Laws/Keeps.lean`): one lemma per operation. -/

set_option linter.all false

namespace Sys2Proof.Machine

open Sys2Proof

theorem State.setFence_keeps {P : State → Prop} (h : Stable [.ctr] P) (s : State) (a1 : _) (a2 : _) (a3 : _) (hs : P s) : P (State.setFence s a1 a2 a3) := by
  have pSet := h.ctr rfl
  unfold State.setFence
  repeat'
    first
    | with_reducible assumption
    | rfl
    | (with_reducible apply pSet)
    | (with_reducible apply ite_keeps (P := P))
    | (with_reducible apply foldl_keeps (P := P))
    | (refine fun (t : State) (ht : P t) => ?_)
    | (refine fun (_ : _) (t : State) (ht : P t) => ?_)
    | (with_reducible intro t; first | (refine (fun (ht : P t) => ?_) (?_ : P t); rotate_left; subst t; rotate_right; clear_value t) | skip | skip)
    | lift_lets -underBinder
    | split

theorem State.fenceTile_keeps {P : State → Prop} (h : Stable [.ctr, .notify, .ev] P) (s : State) (a1 : _) (a2 : _) (hs : P s) : P (State.fenceTile s a1 a2) := by
  have k1 := @State.setFence_keeps P (h.mono rfl)
  have pStore := h.store rfl
  have pEv := h.ev rfl
  have pNotify := h.notify rfl
  unfold State.fenceTile
  repeat'
    first
    | with_reducible assumption
    | rfl
    | (with_reducible apply k1)
    | (with_reducible apply pStore)
    | (with_reducible apply pEv)
    | (with_reducible apply pNotify)
    | (with_reducible apply ite_keeps (P := P))
    | (with_reducible apply foldl_keeps (P := P))
    | (refine fun (t : State) (ht : P t) => ?_)
    | (refine fun (_ : _) (t : State) (ht : P t) => ?_)
    | (with_reducible intro t; first | (refine (fun (ht : P t) => ?_) (?_ : P t); rotate_left; subst t; rotate_right; clear_value t) | skip | skip)
    | lift_lets -underBinder
    | split

theorem State.setPatSlots_keeps {P : State → Prop} (h : Stable [.fb] P) (s : State) (a1 : _) (a2 : _) (a3 : _) (hs : P s) : P (State.setPatSlots s a1 a2 a3) := by
  have pUfb := h.fb rfl
  unfold State.setPatSlots
  repeat'
    first
    | with_reducible assumption
    | rfl
    | (with_reducible refine pUfb _ _ (by with_reducible assumption))
    | (with_reducible apply ite_keeps (P := P))
    | (with_reducible apply foldl_keeps (P := P))
    | (refine fun (t : State) (ht : P t) => ?_)
    | (refine fun (_ : _) (t : State) (ht : P t) => ?_)
    | (with_reducible intro t; first | (refine (fun (ht : P t) => ?_) (?_ : P t); rotate_left; subst t; rotate_right; clear_value t) | skip | skip)
    | lift_lets -underBinder
    | split
    | (with_reducible apply pUfb)

theorem State.fillSlots_keeps {P : State → Prop} (h : Stable [.fb] P) (s : State) (a1 : _) (a2 : _) (a3 : _) (hs : P s) : OkO P (State.fillSlots s a1 a2 a3) := by
  have k1 := @State.setPatSlots_keeps P (h.mono rfl)
  unfold State.fillSlots
  repeat'
    first
    | with_reducible assumption
    | rfl
    | (with_reducible apply k1)
    | (with_reducible apply OkOpt.some)
    | (with_reducible apply OkOpt.none)
    | (with_reducible apply iteOpt_keeps)
    | (with_reducible apply OkOpt.map)
    | (with_reducible apply OkOpt.bind)
    | (with_reducible apply OkOpt.find)
    | (with_reducible apply OkOpt.fold)
    | (with_reducible apply OkOpt.getD (P := P))
    | (with_reducible apply ite_keeps (P := P))
    | (with_reducible apply foldl_keeps (P := P))
    | (refine OkO.get (P := P) (by with_reducible assumption) ?_)
    | (refine OkOP.get (P := P) (by with_reducible assumption) ?_)
    | (refine OkOPP.get (P := P) (by with_reducible assumption) ?_)
    | (refine fun (t : State) (ht : P t) => ?_)
    | (refine fun (_ : _) (t : State) (ht : P t) => ?_)
    | (with_reducible intro t; first | (refine (fun (ht : P t) => ?_) (?_ : P t); rotate_left; subst t; rotate_right; clear_value t) | skip | skip)
    | lift_lets -underBinder
    | split
    | exact OkOpt.any

theorem State.pinInto_keeps {P : State → Prop} (h : Stable [.fb] P) (s : State) (a1 : _) (a2 : _) (a3 : _) (hs : P s) : P (State.pinInto s a1 a2 a3) := by
  have k1 := @State.setPatSlots_keeps P (h.mono rfl)
  unfold State.pinInto
  repeat'
    first
    | with_reducible assumption
    | rfl
    | (with_reducible apply k1)
    | (with_reducible apply OkOpt.some)
    | (with_reducible apply OkOpt.none)
    | (with_reducible apply iteOpt_keeps)
    | (with_reducible apply OkOpt.map)
    | (with_reducible apply OkOpt.bind)
    | (with_reducible apply OkOpt.find)
    | (with_reducible apply OkOpt.fold)
    | (with_reducible apply OkOpt.getD (P := P))
    | (with_reducible apply ite_keeps (P := P))
    | (with_reducible apply each_keeps (P := P))
    | (with_reducible apply foldl_keeps (P := P))
    | (refine OkO.get (P := P) (by with_reducible assumption) ?_)
    | (refine OkOP.get (P := P) (by with_reducible assumption) ?_)
    | (refine OkOPP.get (P := P) (by with_reducible assumption) ?_)
    | (refine fun (t : State) (ht : P t) => ?_)
    | (refine fun (_ : _) (t : State) (ht : P t) => ?_)
    | (with_reducible intro t; first | (refine (fun (ht : P t) => ?_) (?_ : P t); rotate_left; subst t; rotate_right; clear_value t) | skip | skip)
    | lift_lets -underBinder
    | split
    | exact OkOpt.any

theorem State.runInst_keeps {P : State → Prop} (h : Stable [.ctr, .fb, .ev] P) (s : State) (a1 : _) (hs : P s) : P (State.runInst s a1) := by
  unfold State.runInst
  extract_lets same clear old x t
  have ht : P t := h.fb rfl _ _ hs
  clear_value t old
  split
  · exact ite_keeps ht (h.ev rfl _ _ _ _ _ _ _ (h.ctrInc rfl _ _ _ _ _ rfl ht))
  · exact h.ev rfl _ _ _ _ _ _ _ ht

theorem State.usePattern_keeps {P : State → Prop} (h : Stable [.ctr, .fb, .ev] P) (s : State) (a1 : _) (a2 : _) (a3 : _) (a4 : _) (a5 : _) (hs : P s) : P (State.usePattern s a1 a2 a3 a4 a5) := by
  have k1 := @State.fillSlots_keeps P (h.mono rfl)
  have k2 := @State.runInst_keeps P (h.mono rfl)
  have pInc := h.ctrInc rfl
  have pEv := h.ev rfl
  unfold State.usePattern
  repeat'
    first
    | with_reducible assumption
    | rfl
    | (with_reducible apply k1)
    | (with_reducible apply k2)
    | (with_reducible apply pInc)
    | (with_reducible apply pEv)
    | (with_reducible apply OkOpt.some)
    | (with_reducible apply OkOpt.none)
    | (with_reducible apply iteOpt_keeps)
    | (with_reducible apply OkOpt.map)
    | (with_reducible apply OkOpt.bind)
    | (with_reducible apply OkOpt.find)
    | (with_reducible apply OkOpt.fold)
    | (with_reducible apply OkOpt.getD (P := P))
    | (with_reducible apply ite_keeps (P := P))
    | (with_reducible apply foldl_keeps (P := P))
    | (refine OkO.get (P := P) (by with_reducible assumption) ?_)
    | (refine OkOP.get (P := P) (by with_reducible assumption) ?_)
    | (refine OkOPP.get (P := P) (by with_reducible assumption) ?_)
    | (refine fun (t : State) (ht : P t) => ?_)
    | (refine fun (_ : _) (t : State) (ht : P t) => ?_)
    | (with_reducible intro t; first | (refine (fun (ht : P t) => ?_) (?_ : P t); rotate_left; subst t; rotate_right; clear_value t) | subst t | skip)
    | lift_lets -underBinder
    | split
    | exact OkOpt.any

theorem tileGroupOff_keeps {P : State → Prop} (h : Stable [.fb] P) (a0 : _) (a1 : _) (s : State) (hs : P s) : P (tileGroupOff a0 a1 s) := by
  have k1 := @State.setPatSlots_keeps P (h.mono rfl)
  have pUfb := h.fb rfl
  unfold tileGroupOff
  repeat'
    first
    | with_reducible assumption
    | rfl
    | (with_reducible apply k1)
    | (with_reducible refine pUfb _ _ (by with_reducible assumption))
    | (with_reducible apply ite_keeps (P := P))
    | (with_reducible apply foldl_keeps (P := P))
    | (refine fun (t : State) (ht : P t) => ?_)
    | (refine fun (_ : _) (t : State) (ht : P t) => ?_)
    | (with_reducible intro t; first | (refine (fun (ht : P t) => ?_) (?_ : P t); rotate_left; subst t; rotate_right; clear_value t) | skip | skip)
    | lift_lets -underBinder
    | split
    | (with_reducible apply pUfb)

theorem groupReached_keeps {P : State → Prop} (h : Stable [.ctr, .notify, .fb, .ev] P) (a0 : _) (a1 : _) (a2 : _) (s : State) (hs : P s) : P (groupReached a0 a1 a2 s) := by
  have k1 := @State.fenceTile_keeps P (h.mono rfl)
  have k2 := @State.pinInto_keeps P (h.mono rfl)
  unfold groupReached
  repeat'
    first
    | with_reducible assumption
    | rfl
    | (with_reducible apply k1)
    | (with_reducible apply k2)
    | (with_reducible apply ite_keeps (P := P))
    | (with_reducible apply each_keeps (P := P))
    | (with_reducible apply foldl_keeps (P := P))
    | (refine fun (t : State) (ht : P t) => ?_)
    | (refine fun (_ : _) (t : State) (ht : P t) => ?_)
    | (with_reducible intro t; first | (refine (fun (ht : P t) => ?_) (?_ : P t); rotate_left; subst t; rotate_right; clear_value t) | skip | skip)
    | lift_lets -underBinder
    | split

theorem applyGroups_keeps {P : State → Prop} (h : Stable [.fb, .sv] P) (s : State) (hs : P s) : P (applyGroups s) := by
  have k1 := @tileGroupOff_keeps P (h.mono rfl)
  have pUsv := h.sv rfl
  unfold applyGroups
  repeat'
    first
    | with_reducible assumption
    | rfl
    | (with_reducible apply k1)
    | (with_reducible refine pUsv _ _ (by with_reducible assumption))
    | (with_reducible apply ite_keeps (P := P))
    | (with_reducible apply each_keeps (P := P))
    | (with_reducible apply foldl_keeps (P := P))
    | (refine fun (t : State) (ht : P t) => ?_)
    | (refine fun (_ : _) (t : State) (ht : P t) => ?_)
    | (with_reducible intro t; first | (refine (fun (ht : P t) => ?_) (?_ : P t); rotate_left; subst t; rotate_right; clear_value t) | skip | skip)
    | lift_lets -underBinder
    | split
    | (with_reducible apply pUsv)

theorem clearFences_keeps {P : State → Prop} (h : Stable [.ctr] P) (a0 : _) (s : State) (hs : P s) : P (clearFences a0 s) := by
  have k1 := @State.setFence_keeps P (h.mono rfl)
  have pStore := h.store rfl
  unfold clearFences
  repeat'
    first
    | with_reducible assumption
    | rfl
    | (with_reducible apply k1)
    | (with_reducible apply pStore)
    | (with_reducible apply ite_keeps (P := P))
    | (with_reducible apply each_keeps (P := P))
    | (with_reducible apply foldl_keeps (P := P))
    | (refine fun (t : State) (ht : P t) => ?_)
    | (refine fun (_ : _) (t : State) (ht : P t) => ?_)
    | (with_reducible intro t; first | (refine (fun (ht : P t) => ?_) (?_ : P t); rotate_left; subst t; rotate_right; clear_value t) | skip | skip)
    | lift_lets -underBinder
    | split

theorem State.clearModelRegs_keeps {P : State → Prop} (h : Stable [.regs] P) (s : State) (a1 : _) (hs : P s) : P (State.clearModelRegs s a1) := by
  have pUregs := h.regs rfl
  unfold State.clearModelRegs
  repeat'
    first
    | ((with_reducible apply RegsSide.mk); exact List.filter_sublist)
    | with_reducible assumption
    | rfl
    | (with_reducible apply ite_keeps (P := P))
    | (with_reducible apply foldl_keeps (P := P))
    | (refine fun (t : State) (ht : P t) => ?_)
    | (refine fun (_ : _) (t : State) (ht : P t) => ?_)
    | (with_reducible intro t; first | (refine (fun (ht : P t) => ?_) (?_ : P t); rotate_left; subst t; rotate_right; clear_value t) | skip | skip)
    | lift_lets -underBinder
    | split
    | (with_reducible apply pUregs)

theorem State.freeStage_keeps {P : State → Prop} (h : Stable [.tm] P) (s : State) (a1 : _) (hs : P s) : OkP P (State.freeStage s a1) := by
  have k1 := @State.freeBulk_keeps P (h.mono rfl)
  unfold State.freeStage
  repeat'
    first
    | with_reducible assumption
    | rfl
    | (with_reducible apply k1)
    | (with_reducible apply iteP_keeps (P := P))
    | (with_reducible apply ite_keeps (P := P))
    | (with_reducible apply each_keeps (P := P))
    | (with_reducible apply foldl_keeps (P := P))
    | (with_reducible apply foldP_keeps (P := P))
    | (refine OkP.get (P := P) (by with_reducible assumption) ?_)
    | (with_reducible apply OkP.snd (P := P))
    | (refine fun (t : State) (ht : P t) => ?_)
    | (refine fun (_ : _) (t : State) (ht : P t) => ?_)
    | (with_reducible intro t; first | (refine (fun (ht : P t) => ?_) (?_ : P t); rotate_left; subst t; rotate_right; clear_value t) | skip | skip)
    | lift_lets -underBinder
    | split
    | (with_reducible apply OkP.mk (P := P))

theorem State.sendStage_keeps {P : State → Prop} (h : Stable [.out, .dx, .ev] P) (s : State) (a1 : _) (a2 : _) (hs : P s) : P (State.sendStage s a1 a2) := by
  have k1 := @State.routeCtl_keeps P (h.mono rfl)
  unfold State.sendStage
  repeat'
    first
    | with_reducible assumption
    | rfl
    | (with_reducible apply k1)
    | (with_reducible apply ite_keeps (P := P))
    | (with_reducible apply each_keeps (P := P))
    | (with_reducible apply foldl_keeps (P := P))
    | (refine fun (t : State) (ht : P t) => ?_)
    | (refine fun (_ : _) (t : State) (ht : P t) => ?_)
    | (with_reducible intro t; first | (refine (fun (ht : P t) => ?_) (?_ : P t); rotate_left; subst t; rotate_right; clear_value t) | skip | skip)
    | lift_lets -underBinder
    | split

theorem State.reportStage_keeps {P : State → Prop} (h : Stable [.out, .dx, .ev] P) (s : State) (a1 : _) (a2 : _) (a3 : _) (hs : P s) : P (State.reportStage s a1 a2 a3) := by
  have k1 := @State.sendStage_keeps P (h.mono rfl)
  have pUdx := h.dx rfl
  unfold State.reportStage
  repeat'
    first
    | with_reducible assumption
    | rfl
    | (with_reducible apply k1)
    | (with_reducible refine pUdx _ _ (by with_reducible assumption))
    | (with_reducible apply ite_keeps (P := P))
    | (with_reducible apply foldl_keeps (P := P))
    | (refine fun (t : State) (ht : P t) => ?_)
    | (refine fun (_ : _) (t : State) (ht : P t) => ?_)
    | (with_reducible intro t; first | (refine (fun (ht : P t) => ?_) (?_ : P t); rotate_left; subst t; rotate_right; clear_value t) | skip | skip)
    | lift_lets -underBinder
    | split
    | (with_reducible apply pUdx)

theorem State.failLoad_keeps {P : State → Prop} (h : Stable [.out, .ctr, .notify, .ss, .tm, .fb, .sl, .ev] P) (s : State) (a1 : _) (a2 : _) (a3 : _) (a4 : _) (hs : P s) : P (State.failLoad s a1 a2 a3 a4) := by
  have k1 := @State.freeBulk_keeps P (h.mono rfl)
  have k2 := @State.setModel_keeps P (h.mono rfl)
  have k3 := @State.endDrun_keeps P (h.mono rfl)
  unfold State.failLoad
  repeat'
    first
    | with_reducible assumption
    | rfl
    | (with_reducible apply k1)
    | (with_reducible apply k2)
    | (with_reducible apply k3)
    | (with_reducible apply ite_keeps (P := P))
    | (with_reducible apply foldl_keeps (P := P))
    | (refine fun (t : State) (ht : P t) => ?_)
    | (refine fun (_ : _) (t : State) (ht : P t) => ?_)
    | (with_reducible intro t; first | (refine (fun (ht : P t) => ?_) (?_ : P t); rotate_left; subst t; rotate_right; clear_value t) | skip | skip)
    | lift_lets -underBinder
    | split

theorem State.tryLoad_keeps {P : State → Prop} (h : Stable [.out, .ctr, .nv, .notify, .sc, .ss, .tm, .fb, .sl, .ev] P) (s : State) (a1 : _) (a2 : _) (hs : P s) : P (State.tryLoad s a1 a2) := by
  have k1 := @State.takeBulk_keeps P (h.mono rfl)
  have k2 := @State.setDrun_keeps P (h.mono rfl)
  have k3 := @State.domWait_keeps P (h.mono rfl)
  have k4 := @State.failLoad_keeps P (h.mono rfl)
  unfold State.tryLoad
  repeat'
    first
    | with_reducible assumption
    | rfl
    | (with_reducible apply k1)
    | (with_reducible apply k2)
    | (with_reducible apply k3)
    | (with_reducible apply k4)
    | (with_reducible apply OkOpt.some)
    | (with_reducible apply OkOpt.none)
    | (with_reducible apply iteOpt_keeps)
    | (with_reducible apply OkOpt.map)
    | (with_reducible apply OkOpt.bind)
    | (with_reducible apply OkOpt.find)
    | (with_reducible apply OkOpt.fold)
    | (with_reducible apply OkOpt.getD (P := P))
    | (with_reducible apply ite_keeps (P := P))
    | (with_reducible apply foldl_keeps (P := P))
    | (refine OkO.get (P := P) (by with_reducible assumption) ?_)
    | (refine OkOP.get (P := P) (by with_reducible assumption) ?_)
    | (refine OkOPP.get (P := P) (by with_reducible assumption) ?_)
    | (refine fun (t : State) (ht : P t) => ?_)
    | (refine fun (_ : _) (t : State) (ht : P t) => ?_)
    | (with_reducible intro t; first | (refine (fun (ht : P t) => ?_) (?_ : P t); rotate_left; subst t; rotate_right; clear_value t) | subst t | skip)
    | lift_lets -underBinder
    | split
    | exact OkOpt.any

theorem State.beginLoad_keeps {P : State → Prop} (h : Stable [.out, .ctr, .nv, .notify, .sc, .ss, .tm, .fb, .sl, .ev] P) (s : State) (a1 : _) (a2 : _) (a3 : _) (hs : P s) : P (State.beginLoad s a1 a2 a3) := by
  have k1 := @State.endDrun_keeps P (h.mono rfl)
  have k2 := @State.setModel_keeps P (h.mono rfl)
  have k3 := @State.tryLoad_keeps P (h.mono rfl)
  have k4 := @State.setDrun_keeps P (h.mono rfl)
  unfold State.beginLoad
  repeat'
    first
    | with_reducible assumption
    | rfl
    | (with_reducible apply k1)
    | (with_reducible apply k2)
    | (with_reducible apply k3)
    | (with_reducible apply k4)
    | (with_reducible apply ite_keeps (P := P))
    | (with_reducible apply foldl_keeps (P := P))
    | (refine fun (t : State) (ht : P t) => ?_)
    | (refine fun (_ : _) (t : State) (ht : P t) => ?_)
    | (with_reducible intro t; first | (refine (fun (ht : P t) => ?_) (?_ : P t); rotate_left; subst t; rotate_right; clear_value t) | skip | skip)
    | lift_lets -underBinder
    | split

theorem State.settleLoad_keeps {P : State → Prop} (h : Stable [.tm] P) (s : State) (a1 : _) (a2 : _) (a3 : _) (hs : P s) : P (State.settleLoad s a1 a2 a3) := by
  have k1 := @State.fitBulk_keeps P (h.mono rfl)
  have pUtm := h.tm rfl
  unfold State.settleLoad
  repeat'
    first
    | with_reducible assumption
    | rfl
    | (with_reducible apply k1)
    | (with_reducible refine pUtm _ _ (by with_reducible assumption))
    | (with_reducible apply ite_keeps (P := P))
    | (with_reducible apply each_keeps (P := P))
    | (with_reducible apply foldl_keeps (P := P))
    | (refine fun (t : State) (ht : P t) => ?_)
    | (refine fun (_ : _) (t : State) (ht : P t) => ?_)
    | (with_reducible intro t; first | (refine (fun (ht : P t) => ?_) (?_ : P t); rotate_left; subst t; rotate_right; clear_value t) | skip | skip)
    | lift_lets -underBinder
    | split
    | (with_reducible apply pUtm)

theorem State.finishLoad_keeps {P : State → Prop} (h : Stable [.out, .ctr, .notify, .ss, .tm, .fb, .sl, .dx, .ev] P) (s : State) (a1 : _) (a2 : _) (hs : P s) : P (State.finishLoad s a1 a2) := by
  have k1 := @State.failLoad_keeps P (h.mono rfl)
  have k2 := @State.setModel_keeps P (h.mono rfl)
  have k3 := @State.settleLoad_keeps P (h.mono rfl)
  have k4 := @State.pinInto_keeps P (h.mono rfl)
  have k5 := @State.reportStage_keeps P (h.mono rfl)
  have k6 := @State.endDrun_keeps P (h.mono rfl)
  have pEv := h.ev rfl
  have pUdx := h.dx rfl
  unfold State.finishLoad
  repeat'
    first
    | with_reducible assumption
    | rfl
    | (with_reducible apply k1)
    | (with_reducible apply k2)
    | (with_reducible apply k3)
    | (with_reducible apply k4)
    | (with_reducible apply k5)
    | (with_reducible apply k6)
    | (with_reducible apply pEv)
    | (with_reducible refine pUdx _ _ (by with_reducible assumption))
    | (with_reducible apply ite_keeps (P := P))
    | (with_reducible apply each_keeps (P := P))
    | (with_reducible apply when_keeps (P := P))
    | (with_reducible apply foldl_keeps (P := P))
    | (refine fun (t : State) (ht : P t) => ?_)
    | (refine fun (_ : _) (t : State) (ht : P t) => ?_)
    | (with_reducible intro t; first | (refine (fun (ht : P t) => ?_) (?_ : P t); rotate_left; subst t; rotate_right; clear_value t) | skip | skip)
    | lift_lets -underBinder
    | split
    | (with_reducible apply pUdx)

theorem State.failModel_keeps {P : State → Prop} (h : Stable [.out, .notify, .fb, .dx, .ev] P) (s : State) (a1 : _) (hs : P s) : P (State.failModel s a1) := by
  have k1 := @State.setModel_keeps P (h.mono rfl)
  have k2 := @State.reportStage_keeps P (h.mono rfl)
  have pEv := h.ev rfl
  have pNotify := h.notify rfl
  unfold State.failModel
  repeat'
    first
    | with_reducible assumption
    | rfl
    | (with_reducible apply k1)
    | (with_reducible apply k2)
    | (with_reducible apply pEv)
    | (with_reducible apply pNotify)
    | (with_reducible apply ite_keeps (P := P))
    | (with_reducible apply when_keeps (P := P))
    | (with_reducible apply foldl_keeps (P := P))
    | (refine fun (t : State) (ht : P t) => ?_)
    | (refine fun (_ : _) (t : State) (ht : P t) => ?_)
    | (with_reducible intro t; first | (refine (fun (ht : P t) => ?_) (?_ : P t); rotate_left; subst t; rotate_right; clear_value t) | skip | skip)
    | lift_lets -underBinder
    | split

theorem modelsLeave_keeps {P : State → Prop} (h : Stable [.out, .ctr, .notify, .ss, .tm, .fb, .sl, .dx, .ev] P) (a0 : _) (s : State) (hs : P s) : P (modelsLeave a0 s) := by
  have k1 := @State.failLoad_keeps P (h.mono rfl)
  have k2 := @State.setModel_keeps P (h.mono rfl)
  have k3 := @State.failModel_keeps P (h.mono rfl)
  have pUtm := h.tm rfl
  unfold modelsLeave
  repeat'
    first
    | with_reducible assumption
    | rfl
    | (with_reducible apply k1)
    | (with_reducible apply k2)
    | (with_reducible apply k3)
    | (with_reducible refine pUtm _ _ (by with_reducible assumption))
    | (with_reducible apply ite_keeps (P := P))
    | (with_reducible apply each_keeps (P := P))
    | (with_reducible apply when_keeps (P := P))
    | (with_reducible apply foldl_keeps (P := P))
    | (refine fun (t : State) (ht : P t) => ?_)
    | (refine fun (_ : _) (t : State) (ht : P t) => ?_)
    | (with_reducible intro t; first | (refine (fun (ht : P t) => ?_) (?_ : P t); rotate_left; subst t; rotate_right; clear_value t) | skip | skip)
    | lift_lets -underBinder
    | split
    | (with_reducible apply pUtm)

theorem stageLost_keeps {P : State → Prop} (h : Stable [.out, .ctr, .notify, .ss, .tm, .fb, .sl, .dx, .ev] P) (a0 : _) (s : State) (hs : P s) : P (stageLost a0 s) := by
  have k1 := @State.failLoad_keeps P (h.mono rfl)
  have k2 := @State.failModel_keeps P (h.mono rfl)
  unfold stageLost
  repeat'
    first
    | with_reducible assumption
    | rfl
    | (with_reducible apply k1)
    | (with_reducible apply k2)
    | (with_reducible apply ite_keeps (P := P))
    | (with_reducible apply each_keeps (P := P))
    | (with_reducible apply foldl_keeps (P := P))
    | (refine fun (t : State) (ht : P t) => ?_)
    | (refine fun (_ : _) (t : State) (ht : P t) => ?_)
    | (with_reducible intro t; first | (refine (fun (ht : P t) => ?_) (?_ : P t); rotate_left; subst t; rotate_right; clear_value t) | skip | skip)
    | lift_lets -underBinder
    | split

theorem State.unload_keeps {P : State → Prop} (h : Stable [.out, .regs, .ctr, .notify, .ss, .tm, .fb, .sl, .dx, .ev] P) (s : State) (a1 : _) (a2 : _) (hs : P s) : P (State.unload s a1 a2) := by
  have k1 := @State.endDrun_keeps P (h.mono rfl)
  have k2 := @State.reportStage_keeps P (h.mono rfl)
  have k3 := @State.clearModelRegs_keeps P (h.mono rfl)
  have k4 := @State.setModel_keeps P (h.mono rfl)
  have k5 := @State.freeBulk_keeps P (h.mono rfl)
  have k6 := @State.freeStage_keeps P (h.mono rfl)
  have pEv := h.ev rfl
  have pUfb := h.fb rfl
  unfold State.unload
  repeat'
    first
    | with_reducible assumption
    | rfl
    | (with_reducible apply k1)
    | (with_reducible apply k2)
    | (with_reducible apply k3)
    | (with_reducible apply k4)
    | (with_reducible apply k5)
    | (with_reducible apply k6)
    | (with_reducible apply pEv)
    | (with_reducible refine pUfb _ _ (by with_reducible assumption))
    | (with_reducible apply iteP_keeps (P := P))
    | (with_reducible apply ite_keeps (P := P))
    | (with_reducible apply when_keeps (P := P))
    | (with_reducible apply foldl_keeps (P := P))
    | (with_reducible apply foldP_keeps (P := P))
    | (refine OkP.get (P := P) (by with_reducible assumption) ?_)
    | (with_reducible apply OkP.snd (P := P))
    | (refine fun (t : State) (ht : P t) => ?_)
    | (refine fun (_ : _) (t : State) (ht : P t) => ?_)
    | (with_reducible intro t; first | (refine (fun (ht : P t) => ?_) (?_ : P t); rotate_left; subst t; rotate_right; clear_value t) | skip | skip)
    | lift_lets -underBinder
    | split
    | (with_reducible apply pUfb)
    | (with_reducible apply OkP.mk (P := P))

theorem execTileError_keeps {P : State → Prop} (h : Stable [.ctr, .notify, .fb, .sv, .journal, .ev] P) (a0 : _) (a1 : _) (a2 : _) (a3 : _) (s : State) (hs : P (s.at a0)) : OkX P (execTileError a0 a1 a2 a3 s) := by
  have k1 := @State.fenceTile_keeps P (h.mono rfl)
  have k2 := @State.releaseAccs_keeps P (h.mono rfl)
  have pInc := h.ctrInc rfl
  have pEv := h.ev rfl
  have pJournal := h.journal rfl
  have pUfb := h.fb rfl
  have pUsv := h.sv rfl
  unfold execTileError
  repeat'
    first
    | with_reducible assumption
    | rfl
    | (refine run_keeps ?_ (by assumption))
    | (with_reducible apply k1)
    | (with_reducible apply k2)
    | (with_reducible apply pInc)
    | (with_reducible apply pEv)
    | (with_reducible apply pJournal)
    | (with_reducible refine pUfb _ _ (by with_reducible assumption))
    | (with_reducible refine pUsv _ _ (by with_reducible assumption))
    | (with_reducible apply ite_keeps (P := P))
    | (with_reducible apply each_keeps (P := P))
    | (with_reducible apply foldl_keeps (P := P))
    | (refine fun (t : State) (ht : P t) => ?_)
    | (refine fun (_ : _) (t : State) (ht : P t) => ?_)
    | (with_reducible intro t; first | (refine (fun (ht : P t) => ?_) (?_ : P t); rotate_left; subst t; rotate_right; clear_value t) | skip | skip)
    | lift_lets -underBinder
    | split
    | (with_reducible apply pUfb)
    | (with_reducible apply pUsv)

theorem execPatternLoadComplete_keeps {P : State → Prop} (h : Stable [.ctr, .fb, .ev] P) (a0 : _) (a1 : _) (a2 : _) (a3 : _) (a4 : _) (s : State) (hs : P (s.at a0)) : OkX P (execPatternLoadComplete a0 a1 a2 a3 a4 s) := by
  have k1 := @State.usePattern_keeps P (h.mono rfl)
  unfold execPatternLoadComplete
  repeat'
    first
    | with_reducible assumption
    | rfl
    | (refine run_keeps ?_ (by assumption))
    | (with_reducible apply k1)
    | (with_reducible apply ite_keeps (P := P))
    | (with_reducible apply foldl_keeps (P := P))
    | (refine fun (t : State) (ht : P t) => ?_)
    | (refine fun (_ : _) (t : State) (ht : P t) => ?_)
    | (with_reducible intro t; first | (refine (fun (ht : P t) => ?_) (?_ : P t); rotate_left; subst t; rotate_right; clear_value t) | skip | skip)
    | lift_lets -underBinder
    | split

theorem execModelLoad_keeps {P : State → Prop} (h : Stable [.out, .ctr, .nv, .wfn, .win, .notify, .sc, .ss, .tm, .fb, .sl, .dx, .ev] P) (a0 : _) (a1 : _) (a2 : _) (s : State) (hs : P (s.at a0)) : OkX P (execModelLoad a0 a1 a2 s) := by
  have k1 := @State.startDomIn_keeps P (h.mono rfl)
  have k2 := @State.beginLoad_keeps P (h.mono rfl)
  have k3 := @State.finishLoad_keeps P (h.mono rfl)
  have k4 := @State.failLoad_keeps P (h.mono rfl)
  unfold execModelLoad
  repeat'
    first
    | with_reducible assumption
    | rfl
    | (refine run_keeps ?_ (by assumption))
    | (with_reducible apply k1)
    | (with_reducible apply k2)
    | (with_reducible apply k3)
    | (with_reducible apply k4)
    | (with_reducible apply ite_keeps (P := P))
    | (with_reducible apply foldl_keeps (P := P))
    | (refine fun (t : State) (ht : P t) => ?_)
    | (refine fun (_ : _) (t : State) (ht : P t) => ?_)
    | (with_reducible intro t; first | (refine (fun (ht : P t) => ?_) (?_ : P t); rotate_left; subst t; rotate_right; clear_value t) | subst t | skip)
    | lift_lets -underBinder
    | split

theorem execModelUnload_keeps {P : State → Prop} (h : Stable [.out, .regs, .ctr, .notify, .ss, .tm, .fb, .sl, .dx, .ev] P) (a0 : _) (a1 : _) (s : State) (hs : P (s.at a0)) : OkX P (execModelUnload a0 a1 s) := by
  have k1 := @State.startDom_keeps P (h.mono rfl)
  have k2 := @State.unload_keeps P (h.mono rfl)
  unfold execModelUnload
  repeat'
    first
    | with_reducible assumption
    | rfl
    | (refine run_keeps ?_ (by assumption))
    | (with_reducible apply k1)
    | (with_reducible apply k2)
    | (with_reducible apply ite_keeps (P := P))
    | (with_reducible apply foldl_keeps (P := P))
    | (refine fun (t : State) (ht : P t) => ?_)
    | (refine fun (_ : _) (t : State) (ht : P t) => ?_)
    | (with_reducible intro t; first | (refine (fun (ht : P t) => ?_) (?_ : P t); rotate_left; subst t; rotate_right; clear_value t) | skip | skip)
    | lift_lets -underBinder
    | split

end Sys2Proof.Machine
end

