-- ==== Sys2Proof/Laws/KeepsAttend.lean ====
section
/-! SUPPORT. What the operations of Machine/Attend.lean can do to the state (`Laws/Keeps.lean`): one lemma per operation. -/

set_option linter.all false

namespace Sys2Proof.Machine

open Sys2Proof

theorem State.exchange_keeps {P : State → Prop} (h : Stable [.fb, .ev] P) (s : State) (a1 : _) (a2 : _) (a3 : _) (hs : P s) : P (State.exchange s a1 a2 a3) := by
  have pEv := h.ev rfl
  have pUfb := h.fb rfl
  unfold State.exchange
  repeat'
    first
    | with_reducible assumption
    | rfl
    | (with_reducible apply pEv)
    | (with_reducible refine pUfb _ _ (by with_reducible assumption))
    | (with_reducible apply ite_keeps (P := P))
    | (with_reducible apply foldl_keeps (P := P))
    | (refine fun (t : State) (ht : P t) => ?_)
    | (refine fun (_ : _) (t : State) (ht : P t) => ?_)
    | (with_reducible intro t; first | (refine (fun (ht : P t) => ?_) (?_ : P t); rotate_left; subst t; rotate_right; clear_value t) | skip | skip)
    | lift_lets -underBinder
    | split
    | (with_reducible apply pUfb)

theorem State.attend_keeps {P : State → Prop} (h : Stable [.ctr, .fb, .ev] P) (s : State) (a1 : _) (a2 : _) (a3 : _) (a4 : _) (a5 : _) (a6 : _) (hs : P s) : P (State.attend s a1 a2 a3 a4 a5 a6) := by
  have k1 := @State.setReeds_keeps P (h.mono rfl)
  have k2 := @State.finalise_keeps P (h.mono rfl)
  have pInc := h.ctrInc rfl
  have pEv := h.ev rfl
  unfold State.attend
  repeat'
    first
    | with_reducible assumption
    | rfl
    | (with_reducible apply k1)
    | (with_reducible apply k2)
    | (with_reducible apply pInc)
    | (with_reducible apply pEv)
    | (with_reducible apply ite_keeps (P := P))
    | (with_reducible apply each_keeps (P := P))
    | (with_reducible apply foldl_keeps (P := P))
    | (refine fun (t : State) (ht : P t) => ?_)
    | (refine fun (_ : _) (t : State) (ht : P t) => ?_)
    | (with_reducible intro t; first | (refine (fun (ht : P t) => ?_) (?_ : P t); rotate_left; subst t; rotate_right; clear_value t) | skip | skip)
    | lift_lets -underBinder
    | split

theorem State.fabricEvent_keeps {P : State → Prop} (h : Stable [.ctr, .fb, .journal, .ev] P) (s : State) (a1 : _) (hs : P s) : P (State.fabricEvent s a1) := by
  have k1 := @State.usePattern_keeps P (h.mono rfl)
  have k2 := @State.putSram_keeps P (h.mono rfl)
  have k3 := @State.exchange_keeps P (h.mono rfl)
  have k4 := @State.attend_keeps P (h.mono rfl)
  have k5 := @State.emitRecord_keeps P (h.mono rfl)
  have k6 := @State.sendBeat_keeps P (h.mono rfl)
  have k7 := @State.foldBeat_keeps P (h.mono rfl)
  have pInc := h.ctrInc rfl
  have pEv := h.ev rfl
  have pJournal := h.journal rfl
  have pUfb := h.fb rfl
  unfold State.fabricEvent
  repeat'
    first
    | with_reducible assumption
    | rfl
    | (with_reducible apply k1)
    | (with_reducible apply k2)
    | (with_reducible apply k3)
    | (with_reducible apply k4)
    | (with_reducible apply k5)
    | (with_reducible apply k6)
    | (with_reducible apply k7)
    | (with_reducible apply pInc)
    | (with_reducible apply pEv)
    | (with_reducible apply pJournal)
    | (with_reducible refine pUfb _ _ (by with_reducible assumption))
    | (with_reducible apply ite_keeps (P := P))
    | (with_reducible apply when_keeps (P := P))
    | (with_reducible apply foldl_keeps (P := P))
    | (refine fun (t : State) (ht : P t) => ?_)
    | (refine fun (_ : _) (t : State) (ht : P t) => ?_)
    | (with_reducible intro t; first | (refine (fun (ht : P t) => ?_) (?_ : P t); rotate_left; subst t; rotate_right; clear_value t) | skip | skip)
    | lift_lets -underBinder
    | split
    | (with_reducible apply pUfb)

theorem State.fabricRun_keeps {P : State → Prop} (h : Stable [.ctr, .fb, .journal, .ev] P) (s : State) (a1 : _) (hs : P s) : P (State.fabricRun s a1) := by
  have k1 := @State.fabricEvent_keeps P (h.mono rfl)
  unfold State.fabricRun
  repeat'
    first
    | with_reducible assumption
    | rfl
    | (with_reducible apply k1)
    | (with_reducible apply ite_keeps (P := P))
    | (with_reducible apply each_keeps (P := P))
    | (with_reducible apply foldl_keeps (P := P))
    | (refine fun (t : State) (ht : P t) => ?_)
    | (refine fun (_ : _) (t : State) (ht : P t) => ?_)
    | (with_reducible intro t; first | (refine (fun (ht : P t) => ?_) (?_ : P t); rotate_left; subst t; rotate_right; clear_value t) | skip | skip)
    | lift_lets -underBinder
    | split

theorem fabricRest_keeps {P : State → Prop} (h : Stable [.fb] P) (s : State) (hs : P s) : P (fabricRest s) := by
  have pUfb := h.fb rfl
  unfold fabricRest
  repeat'
    first
    | with_reducible assumption
    | rfl
    | (with_reducible refine pUfb _ _ (by with_reducible assumption))
    | (with_reducible apply ite_keeps (P := P))
    | (with_reducible apply foldl_keeps (P := P))
    | (refine fun (t : State) (ht : P t) => ?_)
    | (refine fun (_ : _) (t : State) (ht : P t) => ?_)
    | (with_reducible intro t; first | (refine (fun (ht : P t) => ?_) (?_ : P t); rotate_left; subst t; rotate_right; clear_value t) | skip | skip)
    | lift_lets -underBinder
    | split
    | (with_reducible apply pUfb)

end Sys2Proof.Machine
end

