-- ==== Sys2Proof/Laws/KeepsSelCmd.lean ====
section
/-! SUPPORT. What the operations of Machine/SelCmd.lean can do to the state (`Laws/Keeps.lean`): one lemma per operation. -/

set_option linter.all false

namespace Sys2Proof.Machine

open Sys2Proof

theorem State.fillSelect_keeps {P : State → Prop} (h : Stable [.se] P) (s : State) (a1 : _) (hs : P s) : P (State.fillSelect s a1) := by
  have pUse := h.se rfl
  unfold State.fillSelect
  repeat'
    first
    | with_reducible assumption
    | rfl
    | (with_reducible refine pUse _ _ (by with_reducible assumption))
    | (with_reducible apply ite_keeps (P := P))
    | (with_reducible apply each_keeps (P := P))
    | (with_reducible apply foldl_keeps (P := P))
    | (refine fun (t : State) (ht : P t) => ?_)
    | (refine fun (_ : _) (t : State) (ht : P t) => ?_)
    | (with_reducible intro t; first | (refine (fun (ht : P t) => ?_) (?_ : P t); rotate_left; subst t; rotate_right; clear_value t) | skip | skip)
    | lift_lets -underBinder
    | split
    | (with_reducible apply pUse)

theorem State.fillLanes_keeps {P : State → Prop} (h : Stable [.se] P) (s : State) (hs : P s) : P (State.fillLanes s) := by
  have k1 := @State.fillSelect_keeps P (h.mono rfl)
  have pUse := h.se rfl
  unfold State.fillLanes
  repeat'
    first
    | with_reducible assumption
    | rfl
    | (with_reducible apply k1)
    | (with_reducible refine pUse _ _ (by with_reducible assumption))
    | (with_reducible apply ite_keeps (P := P))
    | (with_reducible apply each_keeps (P := P))
    | (with_reducible apply foldl_keeps (P := P))
    | (refine fun (t : State) (ht : P t) => ?_)
    | (refine fun (_ : _) (t : State) (ht : P t) => ?_)
    | (with_reducible intro t; first | (refine (fun (ht : P t) => ?_) (?_ : P t); rotate_left; subst t; rotate_right; clear_value t) | skip | skip)
    | lift_lets -underBinder
    | split
    | (with_reducible apply pUse)

theorem State.dropLanes_keeps {P : State → Prop} (h : Stable [.se] P) (s : State) (a1 : _) (a2 : _) (hs : P s) : P (State.dropLanes s a1 a2) := by
  have pUse := h.se rfl
  unfold State.dropLanes
  repeat'
    first
    | with_reducible assumption
    | rfl
    | (with_reducible refine pUse _ _ (by with_reducible assumption))
    | (with_reducible apply ite_keeps (P := P))
    | (with_reducible apply foldl_keeps (P := P))
    | (refine fun (t : State) (ht : P t) => ?_)
    | (refine fun (_ : _) (t : State) (ht : P t) => ?_)
    | (with_reducible intro t; first | (refine (fun (ht : P t) => ?_) (?_ : P t); rotate_left; subst t; rotate_right; clear_value t) | skip | skip)
    | lift_lets -underBinder
    | split
    | (with_reducible apply pUse)

theorem State.sendSubs_keeps {P : State → Prop} (h : Stable [.out, .ctr, .nv, .fb, .se, .dx, .ev] P) (s : State) (a1 : _) (a2 : _) (a3 : _) (hs : P s) : P (State.sendSubs s a1 a2 a3) := by
  have k1 := @State.takeSlot_keeps P (h.mono rfl)
  have k2 := @State.trackWait_keeps P (h.mono rfl)
  have k3 := @State.sendMsg_keeps P (h.mono rfl)
  have pUse := h.se rfl
  unfold State.sendSubs
  repeat'
    first
    | with_reducible assumption
    | rfl
    | (with_reducible apply k1)
    | (with_reducible apply k2)
    | (with_reducible apply k3)
    | (with_reducible refine pUse _ _ (by with_reducible assumption))
    | (with_reducible apply OkOpt.some)
    | (with_reducible apply OkOpt.none)
    | (with_reducible apply iteOpt_keeps)
    | (with_reducible apply OkOpt.map)
    | (with_reducible apply OkOpt.bind)
    | (with_reducible apply OkOpt.find)
    | (with_reducible apply OkOpt.fold)
    | (with_reducible apply OkOpt.getD (P := P))
    | (with_reducible apply ite_keeps (P := P))
    | (with_reducible apply each_keeps (P := P))
    | (with_reducible apply foldl_keeps (P := P))
    | (refine OkO.get (P := P) (by with_reducible assumption) ?_)
    | (refine OkOP.get (P := P) (by with_reducible assumption) ?_)
    | (refine OkOPP.get (P := P) (by with_reducible assumption) ?_)
    | (refine fun (t : State) (ht : P t) => ?_)
    | (refine fun (_ : _) (t : State) (ht : P t) => ?_)
    | (with_reducible intro t; first | (refine (fun (ht : P t) => ?_) (?_ : P t); rotate_left; subst t; rotate_right; clear_value t) | skip | skip)
    | lift_lets -underBinder
    | split
    | (with_reducible apply pUse)
    | exact OkOpt.any

theorem State.dropSubs_keeps {P : State → Prop} (h : Stable [.fb, .se, .ev] P) (s : State) (a1 : _) (a2 : _) (hs : P s) : P (State.dropSubs s a1 a2) := by
  have k1 := @State.freeSlot_keeps P (h.mono rfl)
  have pUse := h.se rfl
  unfold State.dropSubs
  repeat'
    first
    | with_reducible assumption
    | rfl
    | (with_reducible apply k1)
    | (with_reducible refine pUse _ _ (by with_reducible assumption))
    | (with_reducible apply ite_keeps (P := P))
    | (with_reducible apply each_keeps (P := P))
    | (with_reducible apply foldl_keeps (P := P))
    | (refine fun (t : State) (ht : P t) => ?_)
    | (refine fun (_ : _) (t : State) (ht : P t) => ?_)
    | (with_reducible intro t; first | (refine (fun (ht : P t) => ?_) (?_ : P t); rotate_left; subst t; rotate_right; clear_value t) | skip | skip)
    | lift_lets -underBinder
    | split
    | (with_reducible apply pUse)

theorem State.endOutput_keeps {P : State → Prop} (h : Stable [.out, .ctr, .notify, .ss, .sl, .ev] P) (s : State) (a1 : _) (a2 : _) (a3 : _) (a4 : _) (hs : P s) : P (State.endOutput s a1 a2 a3 a4) := by
  have k1 := @State.txFlush_keeps P (h.mono rfl)
  have k2 := @State.setDrun_keeps P (h.mono rfl)
  have k3 := @State.endDrun_keeps P (h.mono rfl)
  unfold State.endOutput
  repeat'
    first
    | with_reducible assumption
    | rfl
    | (with_reducible apply k1)
    | (with_reducible apply k2)
    | (with_reducible apply k3)
    | (with_reducible apply ite_keeps (P := P))
    | (with_reducible apply foldl_keeps (P := P))
    | (refine fun (t : State) (ht : P t) => ?_)
    | (refine fun (_ : _) (t : State) (ht : P t) => ?_)
    | (with_reducible intro t; first | (refine (fun (ht : P t) => ?_) (?_ : P t); rotate_left; subst t; rotate_right; clear_value t) | skip | skip)
    | lift_lets -underBinder
    | split

theorem State.endSelect_keeps {P : State → Prop} (h : Stable [.out, .ctr, .notify, .ss, .tm, .fb, .se, .sl, .ev] P) (s : State) (a1 : _) (a2 : _) (a3 : _) (hs : P s) : P (State.endSelect s a1 a2 a3) := by
  have k1 := @State.dropLanes_keeps P (h.mono rfl)
  have k2 := @State.freeBulk_keeps P (h.mono rfl)
  have k3 := @State.dropSubs_keeps P (h.mono rfl)
  have k4 := @State.endOutput_keeps P (h.mono rfl)
  have pInc := h.ctrInc rfl
  have pEv := h.ev rfl
  unfold State.endSelect
  repeat'
    first
    | with_reducible assumption
    | rfl
    | (with_reducible apply k1)
    | (with_reducible apply k2)
    | (with_reducible apply k3)
    | (with_reducible apply k4)
    | (with_reducible apply pInc)
    | (with_reducible apply pEv)
    | (with_reducible apply ite_keeps (P := P))
    | (with_reducible apply when_keeps (P := P))
    | (with_reducible apply foldl_keeps (P := P))
    | (refine fun (t : State) (ht : P t) => ?_)
    | (refine fun (_ : _) (t : State) (ht : P t) => ?_)
    | (with_reducible intro t; first | (refine (fun (ht : P t) => ?_) (?_ : P t); rotate_left; subst t; rotate_right; clear_value t) | skip | skip)
    | lift_lets -underBinder
    | split

theorem State.trySelect_keeps {P : State → Prop} (h : Stable [.out, .ctr, .nv, .notify, .sc, .ss, .tm, .fb, .se, .sl, .dx, .ev] P) (s : State) (a1 : _) (a2 : _) (hs : P s) : P (State.trySelect s a1 a2) := by
  have k1 := @State.endSelect_keeps P (h.mono rfl)
  have k2 := @State.fillLanes_keeps P (h.mono rfl)
  have k3 := @State.sendSubs_keeps P (h.mono rfl)
  have k4 := @State.takeBulk_keeps P (h.mono rfl)
  have k5 := @State.setDrun_keeps P (h.mono rfl)
  have k6 := @State.domWait_keeps P (h.mono rfl)
  have pUse := h.se rfl
  unfold State.trySelect
  repeat'
    first
    | with_reducible assumption
    | rfl
    | (with_reducible apply k1)
    | (with_reducible apply k2)
    | (with_reducible apply k3)
    | (with_reducible apply k4)
    | (with_reducible apply k5)
    | (with_reducible apply k6)
    | (with_reducible refine pUse _ _ (by with_reducible assumption))
    | (with_reducible apply OkOpt.some)
    | (with_reducible apply OkOpt.none)
    | (with_reducible apply iteOpt_keeps)
    | (with_reducible apply OkOpt.map)
    | (with_reducible apply OkOpt.bind)
    | (with_reducible apply OkOpt.find)
    | (with_reducible apply OkOpt.fold)
    | (with_reducible apply OkOpt.getD (P := P))
    | (with_reducible apply ite_keeps (P := P))
    | (with_reducible apply foldl_keeps (P := P))
    | (refine OkO.get (P := P) (by with_reducible assumption) ?_)
    | (refine OkOP.get (P := P) (by with_reducible assumption) ?_)
    | (refine OkOPP.get (P := P) (by with_reducible assumption) ?_)
    | (refine fun (t : State) (ht : P t) => ?_)
    | (refine fun (_ : _) (t : State) (ht : P t) => ?_)
    | (with_reducible intro t; first | (refine (fun (ht : P t) => ?_) (?_ : P t); rotate_left; subst t; rotate_right; clear_value t) | skip | skip)
    | lift_lets -underBinder
    | split
    | (with_reducible apply pUse)
    | exact OkOpt.any

theorem execSelect_keeps {P : State → Prop} (h : Stable [.out, .ctr, .nv, .wfn, .win, .notify, .sc, .ss, .tm, .fb, .se, .sl, .dx, .ev] P) (a0 : _) (a1 : _) (a2 : _) (s : State) (hs : P (s.at a0)) : OkX P (execSelect a0 a1 a2 s) := by
  have k1 := @State.startDomIn_keeps P (h.mono rfl)
  have k2 := @State.endDrun_keeps P (h.mono rfl)
  have k3 := @State.trySelect_keeps P (h.mono rfl)
  have k4 := @State.setDrun_keeps P (h.mono rfl)
  have pUse := h.se rfl
  unfold execSelect
  repeat'
    first
    | with_reducible assumption
    | rfl
    | (refine run_keeps ?_ (by assumption))
    | (with_reducible apply k1)
    | (with_reducible apply k2)
    | (with_reducible apply k3)
    | (with_reducible apply k4)
    | (with_reducible refine pUse _ _ (by with_reducible assumption))
    | (with_reducible apply ite_keeps (P := P))
    | (with_reducible apply foldl_keeps (P := P))
    | (refine fun (t : State) (ht : P t) => ?_)
    | (refine fun (_ : _) (t : State) (ht : P t) => ?_)
    | (with_reducible intro t; first | (refine (fun (ht : P t) => ?_) (?_ : P t); rotate_left; subst t; rotate_right; clear_value t) | skip | skip)
    | lift_lets -underBinder
    | split
    | (with_reducible apply pUse)

theorem State.countRow_keeps {P : State → Prop} (h : Stable [.ctr, .ev] P) (s : State) (a1 : _) (a2 : _) (a3 : _) (a4 : _) (a5 : _) (a6 : _) (hs : P s) : P (State.countRow s a1 a2 a3 a4 a5 a6) := by
  have pInc := h.ctrInc rfl
  have pMax := h.ctrMax rfl
  have pEv := h.ev rfl
  unfold State.countRow
  repeat'
    first
    | with_reducible assumption
    | rfl
    | (with_reducible apply pInc)
    | (with_reducible apply pMax)
    | (with_reducible apply pEv)
    | (with_reducible apply ite_keeps (P := P))
    | (with_reducible apply when_keeps (P := P))
    | (with_reducible apply foldl_keeps (P := P))
    | (refine fun (t : State) (ht : P t) => ?_)
    | (refine fun (_ : _) (t : State) (ht : P t) => ?_)
    | (with_reducible intro t; first | (refine (fun (ht : P t) => ?_) (?_ : P t); rotate_left; subst t; rotate_right; clear_value t) | skip | skip)
    | lift_lets -underBinder
    | split

theorem execSelectRowComplete_keeps {P : State → Prop} (h : Stable [.out, .ctr, .notify, .ss, .tm, .fb, .se, .sl, .ev] P) (a0 : _) (a1 : _) (a2 : _) (a3 : _) (a4 : _) (a5 : _) (s : State) (hs : P (s.at a0)) : OkX P (execSelectRowComplete a0 a1 a2 a3 a4 a5 s) := by
  have k1 := @State.endSelect_keeps P (h.mono rfl)
  have k2 := @State.txWrite_keeps P (h.mono rfl)
  have k3 := @State.countRow_keeps P (h.mono rfl)
  have k4 := @State.setDrun_keeps P (h.mono rfl)
  have k5 := @State.fillLanes_keeps P (h.mono rfl)
  have pUse := h.se rfl
  unfold execSelectRowComplete
  repeat'
    first
    | with_reducible assumption
    | rfl
    | (refine run_keeps ?_ (by assumption))
    | (with_reducible apply k1)
    | (with_reducible apply k2)
    | (with_reducible apply k3)
    | (with_reducible apply k4)
    | (with_reducible apply k5)
    | (with_reducible refine pUse _ _ (by with_reducible assumption))
    | (with_reducible apply ite_keeps (P := P))
    | (with_reducible apply foldl_keeps (P := P))
    | (refine fun (t : State) (ht : P t) => ?_)
    | (refine fun (_ : _) (t : State) (ht : P t) => ?_)
    | (with_reducible intro t; first | (refine (fun (ht : P t) => ?_) (?_ : P t); rotate_left; subst t; rotate_right; clear_value t) | skip | skip)
    | lift_lets -underBinder
    | split
    | (with_reducible apply pUse)

theorem execSubrequest_keeps {P : State → Prop} (h : Stable [.out, .ctr, .nv, .dx, .journal, .ev] P) (a0 : _) (a1 : _) (a2 : _) (a3 : _) (s : State) (hs : P (s.at a0)) : OkX P (execSubrequest a0 a1 a2 a3 s) := by
  have k1 := @State.arrive_keeps P (h.mono rfl)
  have k2 := @State.sendMsg_keeps P (h.mono rfl)
  have pInc := h.ctrInc rfl
  have pEv := h.ev rfl
  unfold execSubrequest
  repeat'
    first
    | with_reducible assumption
    | rfl
    | (refine run_keeps ?_ (by assumption))
    | (with_reducible apply k1)
    | (with_reducible apply k2)
    | (with_reducible apply pInc)
    | (with_reducible apply pEv)
    | (with_reducible apply ite_keeps (P := P))
    | (with_reducible apply foldl_keeps (P := P))
    | (refine fun (t : State) (ht : P t) => ?_)
    | (refine fun (_ : _) (t : State) (ht : P t) => ?_)
    | (with_reducible intro t; first | (refine (fun (ht : P t) => ?_) (?_ : P t); rotate_left; subst t; rotate_right; clear_value t) | skip | skip)
    | lift_lets -underBinder
    | split

theorem execSubresult_keeps {P : State → Prop} (h : Stable [.out, .ctr, .nv, .notify, .sc, .ss, .tm, .fb, .se, .sl, .dx, .journal, .ev] P) (a0 : _) (a1 : _) (a2 : _) (s : State) (hs : P (s.at a0)) : OkX P (execSubresult a0 a1 a2 s) := by
  have k1 := @State.arrive_keeps P (h.mono rfl)
  have k2 := @State.freeSlot_keeps P (h.mono rfl)
  have k3 := @State.trySelect_keeps P (h.mono rfl)
  have k4 := @State.endSelect_keeps P (h.mono rfl)
  have pEv := h.ev rfl
  have pUse := h.se rfl
  unfold execSubresult
  repeat'
    first
    | with_reducible assumption
    | rfl
    | (refine run_keeps ?_ (by assumption))
    | (with_reducible apply k1)
    | (with_reducible apply k2)
    | (with_reducible apply k3)
    | (with_reducible apply k4)
    | (with_reducible apply pEv)
    | (with_reducible refine pUse _ _ (by with_reducible assumption))
    | (with_reducible apply ite_keeps (P := P))
    | (with_reducible apply foldl_keeps (P := P))
    | (refine fun (t : State) (ht : P t) => ?_)
    | (refine fun (_ : _) (t : State) (ht : P t) => ?_)
    | (with_reducible intro t; first | (refine (fun (ht : P t) => ?_) (?_ : P t); rotate_left; subst t; rotate_right; clear_value t) | skip | skip)
    | lift_lets -underBinder
    | split
    | (with_reducible apply pUse)

theorem selectsLose_keeps {P : State → Prop} (h : Stable [.out, .ctr, .notify, .ss, .tm, .fb, .se, .sl, .ev] P) (a0 : _) (s : State) (hs : P s) : P (selectsLose a0 s) := by
  have k1 := @State.endSelect_keeps P (h.mono rfl)
  unfold selectsLose
  repeat'
    first
    | with_reducible assumption
    | rfl
    | (with_reducible apply k1)
    | (with_reducible apply ite_keeps (P := P))
    | (with_reducible apply each_keeps (P := P))
    | (with_reducible apply foldl_keeps (P := P))
    | (refine fun (t : State) (ht : P t) => ?_)
    | (refine fun (_ : _) (t : State) (ht : P t) => ?_)
    | (with_reducible intro t; first | (refine (fun (ht : P t) => ?_) (?_ : P t); rotate_left; subst t; rotate_right; clear_value t) | skip | skip)
    | lift_lets -underBinder
    | split

end Sys2Proof.Machine
end

