-- ==== Sys2Proof/Laws/KeepsSearch.lean ====
section
/-! SUPPORT. What the operations of Machine/Search.lean can do to the state (`Laws/Keeps.lean`): one lemma per operation. -/

set_option linter.all false

namespace Sys2Proof.Machine

open Sys2Proof

theorem State.setColl_keeps {P : State → Prop} (h : Stable [.se] P) (s : State) (a1 : _) (a2 : _) (hs : P s) : P (State.setColl s a1 a2) := by
  have pUse := h.se rfl
  unfold State.setColl
  repeat'
    first
    | with_reducible assumption
    | rfl
    | (with_reducible refine pUse _ _ (by with_reducible assumption))
    | (with_reducible apply ite_keeps (P := P))
    | (with_reducible apply foldl_keeps (P := P))
    | (refine fun (t : State) (ht : P t) => ?_)
    | (refine fun (_ : _) (t : State) (ht : P t) => ?_)
    | (with_reducible intro t; first | (refine (fun (ht : P t) => ?_) (?_ : P t); rotate_left; subst t; rotate_right; clear_value t) | skip | skip)
    | lift_lets -underBinder
    | split
    | (with_reducible apply pUse)

theorem State.growList_keeps {P : State → Prop} (h : Stable [.ctr, .notify, .tm, .ev] P) (s : State) (a1 : _) (a2 : _) (hs : P s) : OkO P (State.growList s a1 a2) := by
  have k1 := @State.takeBulk_keeps P (h.mono rfl)
  unfold State.growList
  repeat'
    first
    | with_reducible assumption
    | rfl
    | (with_reducible apply k1)
    | (with_reducible apply OkOpt.some)
    | (with_reducible apply OkOpt.none)
    | (with_reducible apply iteOpt_keeps)
    | (with_reducible apply OkOpt.map)
    | (with_reducible apply OkOpt.bind)
    | (with_reducible apply OkOpt.find)
    | (with_reducible apply OkOpt.fold)
    | (with_reducible apply OkOpt.getD (P := P))
    | (with_reducible apply ite_keeps (P := P))
    | (with_reducible apply foldl_keeps (P := P))
    | (refine OkO.get (P := P) (by with_reducible assumption) ?_)
    | (refine OkOP.get (P := P) (by with_reducible assumption) ?_)
    | (refine OkOPP.get (P := P) (by with_reducible assumption) ?_)
    | (refine fun (t : State) (ht : P t) => ?_)
    | (refine fun (_ : _) (t : State) (ht : P t) => ?_)
    | (with_reducible intro t; first | (refine (fun (ht : P t) => ?_) (?_ : P t); rotate_left; subst t; rotate_right; clear_value t) | skip | skip)
    | lift_lets -underBinder
    | split
    | exact OkOpt.any

theorem State.freeOld_keeps {P : State → Prop} (h : Stable [.tm] P) (s : State) (a1 : _) (hs : P s) : P (State.freeOld s a1) := by
  have k1 := @State.freeBulk_keeps P (h.mono rfl)
  unfold State.freeOld
  repeat'
    first
    | with_reducible assumption
    | rfl
    | (with_reducible apply k1)
    | (with_reducible apply ite_keeps (P := P))
    | (with_reducible apply each_keeps (P := P))
    | (with_reducible apply foldl_keeps (P := P))
    | (refine fun (t : State) (ht : P t) => ?_)
    | (refine fun (_ : _) (t : State) (ht : P t) => ?_)
    | (with_reducible intro t; first | (refine (fun (ht : P t) => ?_) (?_ : P t); rotate_left; subst t; rotate_right; clear_value t) | skip | skip)
    | lift_lets -underBinder
    | split

theorem State.dropColl_keeps {P : State → Prop} (h : Stable [.tm, .se] P) (s : State) (a1 : _) (hs : P s) : P (State.dropColl s a1) := by
  have k1 := @State.freeBulkFrames_keeps P (h.mono rfl)
  have k2 := @State.setColl_keeps P (h.mono rfl)
  have pUtm := h.tm rfl
  unfold State.dropColl
  repeat'
    first
    | with_reducible assumption
    | rfl
    | (with_reducible apply k1)
    | (with_reducible apply k2)
    | (with_reducible refine pUtm _ _ (by with_reducible assumption))
    | (with_reducible apply ite_keeps (P := P))
    | (with_reducible apply each_keeps (P := P))
    | (with_reducible apply foldl_keeps (P := P))
    | (refine fun (t : State) (ht : P t) => ?_)
    | (refine fun (_ : _) (t : State) (ht : P t) => ?_)
    | (with_reducible intro t; first | (refine (fun (ht : P t) => ?_) (?_ : P t); rotate_left; subst t; rotate_right; clear_value t) | skip | skip)
    | lift_lets -underBinder
    | split
    | (with_reducible apply pUtm)

theorem State.endColl_keeps {P : State → Prop} (h : Stable [.out, .ctr, .notify, .ss, .tm, .se, .sl, .ev] P) (s : State) (a1 : _) (hs : P s) : P (State.endColl s a1) := by
  have k1 := @State.freeOld_keeps P (h.mono rfl)
  have k2 := @State.endOutput_keeps P (h.mono rfl)
  have k3 := @State.endDrun_keeps P (h.mono rfl)
  have pUse := h.se rfl
  unfold State.endColl
  repeat'
    first
    | with_reducible assumption
    | rfl
    | (with_reducible apply k1)
    | (with_reducible apply k2)
    | (with_reducible apply k3)
    | (with_reducible refine pUse _ _ (by with_reducible assumption))
    | (with_reducible apply ite_keeps (P := P))
    | (with_reducible apply each_keeps (P := P))
    | (with_reducible apply foldl_keeps (P := P))
    | (refine fun (t : State) (ht : P t) => ?_)
    | (refine fun (_ : _) (t : State) (ht : P t) => ?_)
    | (with_reducible intro t; first | (refine (fun (ht : P t) => ?_) (?_ : P t); rotate_left; subst t; rotate_right; clear_value t) | skip | skip)
    | lift_lets -underBinder
    | split
    | (with_reducible apply pUse)

theorem State.failColl_keeps {P : State → Prop} (h : Stable [.out, .ctr, .notify, .ss, .tm, .se, .sl, .ev] P) (s : State) (a1 : _) (hs : P s) : P (State.failColl s a1) := by
  have k1 := @State.endColl_keeps P (h.mono rfl)
  have k2 := @State.setColl_keeps P (h.mono rfl)
  unfold State.failColl
  repeat'
    first
    | with_reducible assumption
    | rfl
    | (with_reducible apply k1)
    | (with_reducible apply k2)
    | (with_reducible apply ite_keeps (P := P))
    | (with_reducible apply foldl_keeps (P := P))
    | (refine fun (t : State) (ht : P t) => ?_)
    | (refine fun (_ : _) (t : State) (ht : P t) => ?_)
    | (with_reducible intro t; first | (refine (fun (ht : P t) => ?_) (?_ : P t); rotate_left; subst t; rotate_right; clear_value t) | skip | skip)
    | lift_lets -underBinder
    | split

theorem collsHomeless_keeps {P : State → Prop} (h : Stable [.out, .ctr, .notify, .ss, .tm, .se, .sl, .ev] P) (s : State) (hs : P s) : P (collsHomeless s) := by
  have k1 := @State.endColl_keeps P (h.mono rfl)
  unfold collsHomeless
  repeat'
    first
    | with_reducible assumption
    | rfl
    | (with_reducible apply k1)
    | (with_reducible apply ite_keeps (P := P))
    | (with_reducible apply each_keeps (P := P))
    | (with_reducible apply foldl_keeps (P := P))
    | (refine fun (t : State) (ht : P t) => ?_)
    | (refine fun (_ : _) (t : State) (ht : P t) => ?_)
    | (with_reducible intro t; first | (refine (fun (ht : P t) => ?_) (?_ : P t); rotate_left; subst t; rotate_right; clear_value t) | skip | skip)
    | lift_lets -underBinder
    | split

theorem collsLeave_keeps {P : State → Prop} (h : Stable [.out, .ctr, .notify, .ss, .tm, .se, .sl, .ev] P) (a0 : _) (s : State) (hs : P s) : P (collsLeave a0 s) := by
  have k1 := @State.failColl_keeps P (h.mono rfl)
  unfold collsLeave
  repeat'
    first
    | with_reducible assumption
    | rfl
    | (with_reducible apply k1)
    | (with_reducible apply ite_keeps (P := P))
    | (with_reducible apply each_keeps (P := P))
    | (with_reducible apply foldl_keeps (P := P))
    | (refine fun (t : State) (ht : P t) => ?_)
    | (refine fun (_ : _) (t : State) (ht : P t) => ?_)
    | (with_reducible intro t; first | (refine (fun (ht : P t) => ?_) (?_ : P t); rotate_left; subst t; rotate_right; clear_value t) | skip | skip)
    | lift_lets -underBinder
    | split

theorem State.tryCreate_keeps {P : State → Prop} (h : Stable [.out, .ctr, .nv, .notify, .sc, .ss, .tm, .fb, .se, .sl, .ev] P) (s : State) (a1 : _) (a2 : _) (a3 : _) (hs : P s) : P (State.tryCreate s a1 a2 a3) := by
  have k1 := @State.endDrun_keeps P (h.mono rfl)
  have k2 := @State.takeBulk_keeps P (h.mono rfl)
  have k3 := @State.setColl_keeps P (h.mono rfl)
  have k4 := @State.domWait_keeps P (h.mono rfl)
  have pUtm := h.tm rfl
  unfold State.tryCreate
  repeat'
    first
    | with_reducible assumption
    | rfl
    | (with_reducible apply k1)
    | (with_reducible apply k2)
    | (with_reducible apply k3)
    | (with_reducible apply k4)
    | (with_reducible refine pUtm _ _ (by with_reducible assumption))
    | (with_reducible apply OkOpt.some)
    | (with_reducible apply OkOpt.none)
    | (with_reducible apply iteOpt_keeps)
    | (with_reducible apply OkOpt.map)
    | (with_reducible apply OkOpt.bind)
    | (with_reducible apply OkOpt.find)
    | (with_reducible apply OkOpt.fold)
    | (with_reducible apply OkOpt.getD (P := P))
    | (with_reducible apply ite_keeps (P := P))
    | (with_reducible apply foldl_keeps (P := P))
    | (refine OkO.get (P := P) (by with_reducible assumption) ?_)
    | (refine OkOP.get (P := P) (by with_reducible assumption) ?_)
    | (refine OkOPP.get (P := P) (by with_reducible assumption) ?_)
    | (refine fun (t : State) (ht : P t) => ?_)
    | (refine fun (_ : _) (t : State) (ht : P t) => ?_)
    | (with_reducible intro t; first | (refine (fun (ht : P t) => ?_) (?_ : P t); rotate_left; subst t; rotate_right; clear_value t) | subst t | skip)
    | lift_lets -underBinder
    | split
    | (with_reducible apply pUtm)
    | exact OkOpt.any

theorem execCollectionCreate_keeps {P : State → Prop} (h : Stable [.out, .ctr, .nv, .wfn, .win, .notify, .sc, .ss, .tm, .fb, .se, .sl, .ev] P) (a0 : _) (a1 : _) (a2 : _) (s : State) (hs : P (s.at a0)) : OkX P (execCollectionCreate a0 a1 a2 s) := by
  have k1 := @State.startDomIn_keeps P (h.mono rfl)
  have k2 := @State.endDrun_keeps P (h.mono rfl)
  have k3 := @State.dropColl_keeps P (h.mono rfl)
  have k4 := @State.tryCreate_keeps P (h.mono rfl)
  have k5 := @State.setDrun_keeps P (h.mono rfl)
  unfold execCollectionCreate
  repeat'
    first
    | with_reducible assumption
    | rfl
    | (refine run_keeps ?_ (by assumption))
    | (with_reducible apply k1)
    | (with_reducible apply k2)
    | (with_reducible apply k3)
    | (with_reducible apply k4)
    | (with_reducible apply k5)
    | (with_reducible apply ite_keeps (P := P))
    | (with_reducible apply foldl_keeps (P := P))
    | (refine fun (t : State) (ht : P t) => ?_)
    | (refine fun (_ : _) (t : State) (ht : P t) => ?_)
    | (with_reducible intro t; first | (refine (fun (ht : P t) => ?_) (?_ : P t); rotate_left; subst t; rotate_right; clear_value t) | skip | skip)
    | lift_lets -underBinder
    | split

theorem State.insertItem_keeps {P : State → Prop} (h : Stable [.ctr, .notify, .tm, .se, .ev] P) (s : State) (a1 : _) (a2 : _) (a3 : _) (a4 : _) (a5 : _) (hs : P s) : OkOP P (State.insertItem s a1 a2 a3 a4 a5) := by
  have k1 := @State.setColl_keeps P (h.mono rfl)
  have k2 := @State.growList_keeps P (h.mono rfl)
  have pInc := h.ctrInc rfl
  have pEv := h.ev rfl
  unfold State.insertItem
  repeat'
    first
    | with_reducible assumption
    | rfl
    | (with_reducible apply k1)
    | (with_reducible apply k2)
    | (with_reducible apply pInc)
    | (with_reducible apply pEv)
    | (with_reducible apply OkOpt.some)
    | (with_reducible apply OkOpt.none)
    | (with_reducible apply iteOpt_keeps)
    | (with_reducible apply OkOpt.map)
    | (with_reducible apply OkOpt.bind)
    | (with_reducible apply OkOpt.find)
    | (with_reducible apply OkOpt.fold)
    | (with_reducible apply OkOpt.getD (P := P))
    | (with_reducible apply ite_keeps (P := P))
    | (with_reducible apply when_keeps (P := P))
    | (with_reducible apply foldl_keeps (P := P))
    | (refine OkO.get (P := P) (by with_reducible assumption) ?_)
    | (refine OkOP.get (P := P) (by with_reducible assumption) ?_)
    | (refine OkOPP.get (P := P) (by with_reducible assumption) ?_)
    | (refine fun (t : State) (ht : P t) => ?_)
    | (refine fun (_ : _) (t : State) (ht : P t) => ?_)
    | (with_reducible intro t; first | (refine (fun (ht : P t) => ?_) (?_ : P t); rotate_left; subst t; rotate_right; clear_value t) | skip | skip)
    | lift_lets -underBinder
    | split
    | exact OkOpt.any

theorem State.insertItems_keeps {P : State → Prop} (h : Stable [.out, .ctr, .notify, .ss, .tm, .se, .sl, .ev] P) (a0 : _) (a1 : _) (a2 : _) (s : State) (hs : P s) : P (State.insertItems a0 a1 a2 s) := by
  have k1 := @State.endDrun_keeps P (h.mono rfl)
  have k2 := @State.insertItem_keeps P (h.mono rfl)
  have k3 := @State.setDrun_keeps P (h.mono rfl)
  induction a0 generalizing a1 a2 s with
  | zero =>
    unfold State.insertItems
    repeat'
      first
      | with_reducible assumption
      | rfl
      | (with_reducible apply k1)
      | (with_reducible apply k2)
      | (with_reducible apply k3)
      | (with_reducible apply OkOpt.some)
      | (with_reducible apply OkOpt.none)
      | (with_reducible apply iteOpt_keeps)
      | (with_reducible apply OkOpt.map)
      | (with_reducible apply OkOpt.bind)
      | (with_reducible apply OkOpt.find)
      | (with_reducible apply OkOpt.fold)
      | (with_reducible apply OkOpt.getD (P := P))
      | (with_reducible apply ite_keeps (P := P))
      | (with_reducible apply foldl_keeps (P := P))
      | (refine OkO.get (P := P) (by with_reducible assumption) ?_)
      | (refine OkOP.get (P := P) (by with_reducible assumption) ?_)
      | (refine OkOPP.get (P := P) (by with_reducible assumption) ?_)
      | (refine fun (t : State) (ht : P t) => ?_)
      | (refine fun (_ : _) (t : State) (ht : P t) => ?_)
      | (with_reducible intro t; first | (refine (fun (ht : P t) => ?_) (?_ : P t); rotate_left; subst t; rotate_right; clear_value t) | skip | skip)
      | lift_lets -underBinder
      | split
      | exact OkOpt.any
  | succ n ih =>
    unfold State.insertItems
    repeat'
      first
      | with_reducible assumption
      | rfl
      | (with_reducible apply ih)
      | (with_reducible apply k1)
      | (with_reducible apply k2)
      | (with_reducible apply k3)
      | (with_reducible apply OkOpt.some)
      | (with_reducible apply OkOpt.none)
      | (with_reducible apply iteOpt_keeps)
      | (with_reducible apply OkOpt.map)
      | (with_reducible apply OkOpt.bind)
      | (with_reducible apply OkOpt.find)
      | (with_reducible apply OkOpt.fold)
      | (with_reducible apply OkOpt.getD (P := P))
      | (with_reducible apply ite_keeps (P := P))
      | (with_reducible apply foldl_keeps (P := P))
      | (refine OkO.get (P := P) (by with_reducible assumption) ?_)
      | (refine OkOP.get (P := P) (by with_reducible assumption) ?_)
      | (refine OkOPP.get (P := P) (by with_reducible assumption) ?_)
      | (refine fun (t : State) (ht : P t) => ?_)
      | (refine fun (_ : _) (t : State) (ht : P t) => ?_)
      | (with_reducible intro t; first | (refine (fun (ht : P t) => ?_) (?_ : P t); rotate_left; subst t; rotate_right; clear_value t) | skip | skip)
      | lift_lets -underBinder
      | split
      | exact OkOpt.any

theorem State.tryInsert_keeps {P : State → Prop} (h : Stable [.out, .ctr, .nv, .notify, .sc, .ss, .tm, .fb, .se, .sl, .ev] P) (s : State) (a1 : _) (a2 : _) (hs : P s) : P (State.tryInsert s a1 a2) := by
  have k1 := @State.endDrun_keeps P (h.mono rfl)
  have k2 := @State.insertItems_keeps P (h.mono rfl)
  have k3 := @State.domWait_keeps P (h.mono rfl)
  unfold State.tryInsert
  repeat'
    first
    | with_reducible assumption
    | rfl
    | (with_reducible apply k1)
    | (with_reducible apply k2)
    | (with_reducible apply k3)
    | (with_reducible apply ite_keeps (P := P))
    | (with_reducible apply foldl_keeps (P := P))
    | (refine fun (t : State) (ht : P t) => ?_)
    | (refine fun (_ : _) (t : State) (ht : P t) => ?_)
    | (with_reducible intro t; first | (refine (fun (ht : P t) => ?_) (?_ : P t); rotate_left; subst t; rotate_right; clear_value t) | skip | skip)
    | lift_lets -underBinder
    | split

theorem execVecInsert_keeps {P : State → Prop} (h : Stable [.out, .ctr, .nv, .wfn, .win, .notify, .sc, .ss, .tm, .fb, .se, .sl, .ev] P) (a0 : _) (a1 : _) (a2 : _) (s : State) (hs : P (s.at a0)) : OkX P (execVecInsert a0 a1 a2 s) := by
  have k1 := @State.startDomIn_keeps P (h.mono rfl)
  have k2 := @State.endDrun_keeps P (h.mono rfl)
  have k3 := @State.tryInsert_keeps P (h.mono rfl)
  have k4 := @State.setDrun_keeps P (h.mono rfl)
  unfold execVecInsert
  repeat'
    first
    | with_reducible assumption
    | rfl
    | (refine run_keeps ?_ (by assumption))
    | (with_reducible apply k1)
    | (with_reducible apply k2)
    | (with_reducible apply k3)
    | (with_reducible apply k4)
    | (with_reducible apply ite_keeps (P := P))
    | (with_reducible apply foldl_keeps (P := P))
    | (refine fun (t : State) (ht : P t) => ?_)
    | (refine fun (_ : _) (t : State) (ht : P t) => ?_)
    | (with_reducible intro t; first | (refine (fun (ht : P t) => ?_) (?_ : P t); rotate_left; subst t; rotate_right; clear_value t) | skip | skip)
    | lift_lets -underBinder
    | split

theorem execVecDelete_keeps {P : State → Prop} (h : Stable [.out, .ctr, .wfn, .win, .notify, .ss, .se, .sl, .ev] P) (a0 : _) (a1 : _) (a2 : _) (s : State) (hs : P (s.at a0)) : OkX P (execVecDelete a0 a1 a2 s) := by
  have k1 := @State.startDomIn_keeps P (h.mono rfl)
  have k2 := @State.endDrun_keeps P (h.mono rfl)
  have k3 := @State.setColl_keeps P (h.mono rfl)
  have pInc := h.ctrInc rfl
  have pEv := h.ev rfl
  unfold execVecDelete
  repeat'
    first
    | with_reducible assumption
    | rfl
    | (refine run_keeps ?_ (by assumption))
    | (with_reducible apply k1)
    | (with_reducible apply k2)
    | (with_reducible apply k3)
    | (with_reducible apply pInc)
    | (with_reducible apply pEv)
    | (with_reducible apply ite_keeps (P := P))
    | (with_reducible apply foldl_keeps (P := P))
    | (refine fun (t : State) (ht : P t) => ?_)
    | (refine fun (_ : _) (t : State) (ht : P t) => ?_)
    | (with_reducible intro t; first | (refine (fun (ht : P t) => ?_) (?_ : P t); rotate_left; subst t; rotate_right; clear_value t) | skip | skip)
    | lift_lets -underBinder
    | split

theorem State.endQuery_keeps {P : State → Prop} (h : Stable [.out, .ctr, .notify, .ss, .tm, .se, .sl, .ev] P) (s : State) (a1 : _) (a2 : _) (hs : P s) : P (State.endQuery s a1 a2) := by
  have k1 := @State.endOutput_keeps P (h.mono rfl)
  have k2 := @State.freeOld_keeps P (h.mono rfl)
  have k3 := @State.txWrite_keeps P (h.mono rfl)
  have k4 := @State.setDrun_keeps P (h.mono rfl)
  have pInc := h.ctrInc rfl
  have pEv := h.ev rfl
  have pUse := h.se rfl
  unfold State.endQuery
  repeat'
    first
    | with_reducible assumption
    | rfl
    | (with_reducible apply k1)
    | (with_reducible apply k2)
    | (with_reducible apply k3)
    | (with_reducible apply k4)
    | (with_reducible apply pInc)
    | (with_reducible apply pEv)
    | (with_reducible refine pUse _ _ (by with_reducible assumption))
    | (with_reducible apply ite_keeps (P := P))
    | (with_reducible apply when_keeps (P := P))
    | (with_reducible apply foldl_keeps (P := P))
    | (refine fun (t : State) (ht : P t) => ?_)
    | (refine fun (_ : _) (t : State) (ht : P t) => ?_)
    | (with_reducible intro t; first | (refine (fun (ht : P t) => ?_) (?_ : P t); rotate_left; subst t; rotate_right; clear_value t) | skip | skip)
    | lift_lets -underBinder
    | split
    | (with_reducible apply pUse)

theorem execVecSearch_keeps {P : State → Prop} (h : Stable [.out, .ctr, .wfn, .win, .notify, .ss, .tm, .se, .sl, .ev] P) (a0 : _) (a1 : _) (a2 : _) (s : State) (hs : P (s.at a0)) : OkX P (execVecSearch a0 a1 a2 s) := by
  have k1 := @State.startDomIn_keeps P (h.mono rfl)
  have k2 := @State.endDrun_keeps P (h.mono rfl)
  have k3 := @State.setDrun_keeps P (h.mono rfl)
  have k4 := @State.endQuery_keeps P (h.mono rfl)
  have pInc := h.ctrInc rfl
  have pEv := h.ev rfl
  have pUse := h.se rfl
  unfold execVecSearch
  repeat'
    first
    | with_reducible assumption
    | rfl
    | (refine run_keeps ?_ (by assumption))
    | (with_reducible apply k1)
    | (with_reducible apply k2)
    | (with_reducible apply k3)
    | (with_reducible apply k4)
    | (with_reducible apply pInc)
    | (with_reducible apply pEv)
    | (with_reducible refine pUse _ _ (by with_reducible assumption))
    | (with_reducible apply ite_keeps (P := P))
    | (with_reducible apply each_keeps (P := P))
    | (with_reducible apply foldl_keeps (P := P))
    | (refine fun (t : State) (ht : P t) => ?_)
    | (refine fun (_ : _) (t : State) (ht : P t) => ?_)
    | (with_reducible intro t; first | (refine (fun (ht : P t) => ?_) (?_ : P t); rotate_left; subst t; rotate_right; clear_value t) | skip | skip)
    | lift_lets -underBinder
    | split
    | (with_reducible apply pUse)

theorem State.setQuery_keeps {P : State → Prop} (h : Stable [.se] P) (s : State) (a1 : _) (hs : P s) : P (State.setQuery s a1) := by
  have pUse := h.se rfl
  unfold State.setQuery
  repeat'
    first
    | with_reducible assumption
    | rfl
    | (with_reducible refine pUse _ _ (by with_reducible assumption))
    | (with_reducible apply ite_keeps (P := P))
    | (with_reducible apply foldl_keeps (P := P))
    | (refine fun (t : State) (ht : P t) => ?_)
    | (refine fun (_ : _) (t : State) (ht : P t) => ?_)
    | (with_reducible intro t; first | (refine (fun (ht : P t) => ?_) (?_ : P t); rotate_left; subst t; rotate_right; clear_value t) | skip | skip)
    | lift_lets -underBinder
    | split
    | (with_reducible apply pUse)

theorem State.mergeRound_keeps {P : State → Prop} (h : Stable [.ctr, .ev] P) (s : State) (a1 : _) (a2 : _) (hs : P s) : P (State.mergeRound s a1 a2) := by
  have pInc := h.ctrInc rfl
  have pEv := h.ev rfl
  unfold State.mergeRound
  repeat'
    first
    | with_reducible assumption
    | rfl
    | (with_reducible apply pInc)
    | (with_reducible apply pEv)
    | (with_reducible apply ite_keeps (P := P))
    | (with_reducible apply foldl_keeps (P := P))
    | (refine fun (t : State) (ht : P t) => ?_)
    | (refine fun (_ : _) (t : State) (ht : P t) => ?_)
    | (with_reducible intro t; first | (refine (fun (ht : P t) => ?_) (?_ : P t); rotate_left; subst t; rotate_right; clear_value t) | skip | skip)
    | lift_lets -underBinder
    | split

theorem State.stepQuery_keeps {P : State → Prop} (h : Stable [.out, .ctr, .notify, .ss, .tm, .se, .sl, .ev] P) (s : State) (a1 : _) (hs : P s) : P (State.stepQuery s a1) := by
  have k1 := @State.setQuery_keeps P (h.mono rfl)
  have k2 := @State.endQuery_keeps P (h.mono rfl)
  have pInc := h.ctrInc rfl
  have pEv := h.ev rfl
  unfold State.stepQuery
  repeat'
    first
    | with_reducible assumption
    | rfl
    | (with_reducible apply k1)
    | (with_reducible apply k2)
    | (with_reducible apply pInc)
    | (with_reducible apply pEv)
    | (with_reducible apply ite_keeps (P := P))
    | (with_reducible apply when_keeps (P := P))
    | (with_reducible apply foldl_keeps (P := P))
    | (refine fun (t : State) (ht : P t) => ?_)
    | (refine fun (_ : _) (t : State) (ht : P t) => ?_)
    | (with_reducible intro t; first | (refine (fun (ht : P t) => ?_) (?_ : P t); rotate_left; subst t; rotate_right; clear_value t) | skip | skip)
    | lift_lets -underBinder
    | split

theorem State.scanList_keeps {P : State → Prop} (h : Stable [.out, .ctr, .notify, .ss, .tm, .se, .sl, .ev] P) (s : State) (a1 : _) (a2 : _) (hs : P s) : P (State.scanList s a1 a2) := by
  have k1 := @State.setQuery_keeps P (h.mono rfl)
  have k2 := @State.stepQuery_keeps P (h.mono rfl)
  have k3 := @State.mergeRound_keeps P (h.mono rfl)
  have pInc := h.ctrInc rfl
  unfold State.scanList
  repeat'
    first
    | with_reducible assumption
    | rfl
    | (with_reducible apply k1)
    | (with_reducible apply k2)
    | (with_reducible apply k3)
    | (with_reducible apply pInc)
    | (with_reducible apply ite_keeps (P := P))
    | (with_reducible apply foldl_keeps (P := P))
    | (refine fun (t : State) (ht : P t) => ?_)
    | (refine fun (_ : _) (t : State) (ht : P t) => ?_)
    | (with_reducible intro t; first | (refine (fun (ht : P t) => ?_) (?_ : P t); rotate_left; subst t; rotate_right; clear_value t) | skip | skip)
    | lift_lets -underBinder
    | split

theorem State.loseRecs_keeps {P : State → Prop} (h : Stable [.ctr, .notify, .se, .journal, .ev] P) (s : State) (a1 : _) (a2 : _) (hs : P s) : P (State.loseRecs s a1 a2) := by
  have k1 := @State.setColl_keeps P (h.mono rfl)
  have pInc := h.ctrInc rfl
  have pEv := h.ev rfl
  have pNotify := h.notify rfl
  have pJournal := h.journal rfl
  unfold State.loseRecs
  repeat'
    first
    | with_reducible assumption
    | rfl
    | (with_reducible apply k1)
    | (with_reducible apply pInc)
    | (with_reducible apply pEv)
    | (with_reducible apply pNotify)
    | (with_reducible apply pJournal)
    | (with_reducible apply ite_keeps (P := P))
    | (with_reducible apply foldl_keeps (P := P))
    | (refine fun (t : State) (ht : P t) => ?_)
    | (refine fun (_ : _) (t : State) (ht : P t) => ?_)
    | (with_reducible intro t; first | (refine (fun (ht : P t) => ?_) (?_ : P t); rotate_left; subst t; rotate_right; clear_value t) | skip | skip)
    | lift_lets -underBinder
    | split

theorem execListPassComplete_keeps {P : State → Prop} (h : Stable [.out, .ctr, .notify, .ss, .tm, .se, .sl, .journal, .ev] P) (a0 : _) (a1 : _) (a2 : _) (a3 : _) (a4 : _) (a5 : _) (s : State) (hs : P (s.at a0)) : OkX P (execListPassComplete a0 a1 a2 a3 a4 a5 s) := by
  have k1 := @State.failColl_keeps P (h.mono rfl)
  have k2 := @State.stepQuery_keeps P (h.mono rfl)
  have k3 := @State.loseRecs_keeps P (h.mono rfl)
  have k4 := @State.freeOld_keeps P (h.mono rfl)
  have k5 := @State.scanList_keeps P (h.mono rfl)
  have pEv := h.ev rfl
  have pJournal := h.journal rfl
  unfold execListPassComplete
  repeat'
    first
    | with_reducible assumption
    | rfl
    | (refine run_keeps ?_ (by assumption))
    | (with_reducible apply k1)
    | (with_reducible apply k2)
    | (with_reducible apply k3)
    | (with_reducible apply k4)
    | (with_reducible apply k5)
    | (with_reducible apply pEv)
    | (with_reducible apply pJournal)
    | (with_reducible apply ite_keeps (P := P))
    | (with_reducible apply each_keeps (P := P))
    | (with_reducible apply when_keeps (P := P))
    | (with_reducible apply foldl_keeps (P := P))
    | (refine fun (t : State) (ht : P t) => ?_)
    | (refine fun (_ : _) (t : State) (ht : P t) => ?_)
    | (with_reducible intro t; first | (refine (fun (ht : P t) => ?_) (?_ : P t); rotate_left; subst t; rotate_right; clear_value t) | subst t | skip)
    | lift_lets -underBinder
    | split

theorem execListCompaction_keeps {P : State → Prop} (h : Stable [.ctr, .notify, .tm, .se, .ev] P) (a0 : _) (a1 : _) (a2 : _) (s : State) (hs : P (s.at a0)) : OkX P (execListCompaction a0 a1 a2 s) := by
  have k1 := @State.takeBulk_keeps P (h.mono rfl)
  have k2 := @State.setColl_keeps P (h.mono rfl)
  have k3 := @State.freeOld_keeps P (h.mono rfl)
  have pInc := h.ctrInc rfl
  have pEv := h.ev rfl
  have pUtm := h.tm rfl
  unfold execListCompaction
  repeat'
    first
    | with_reducible assumption
    | rfl
    | (refine run_keeps ?_ (by assumption))
    | (with_reducible apply k1)
    | (with_reducible apply k2)
    | (with_reducible apply k3)
    | (with_reducible apply pInc)
    | (with_reducible apply pEv)
    | (with_reducible refine pUtm _ _ (by with_reducible assumption))
    | (with_reducible apply OkOpt.some)
    | (with_reducible apply OkOpt.none)
    | (with_reducible apply iteOpt_keeps)
    | (with_reducible apply OkOpt.map)
    | (with_reducible apply OkOpt.bind)
    | (with_reducible apply OkOpt.find)
    | (with_reducible apply OkOpt.fold)
    | (with_reducible apply OkOpt.getD (P := P))
    | (with_reducible apply ite_keeps (P := P))
    | (with_reducible apply foldl_keeps (P := P))
    | (refine OkO.get (P := P) (by with_reducible assumption) ?_)
    | (refine OkOP.get (P := P) (by with_reducible assumption) ?_)
    | (refine OkOPP.get (P := P) (by with_reducible assumption) ?_)
    | (refine fun (t : State) (ht : P t) => ?_)
    | (refine fun (_ : _) (t : State) (ht : P t) => ?_)
    | (with_reducible intro t; first | (refine (fun (ht : P t) => ?_) (?_ : P t); rotate_left; subst t; rotate_right; clear_value t) | skip | skip)
    | lift_lets -underBinder
    | split
    | (with_reducible apply pUtm)
    | exact OkOpt.any

end Sys2Proof.Machine
end

