-- ==== Sys2Proof/Laws/KeepsWarp.lean ====
section
/-! SUPPORT. What the operations of Machine/Warp.lean can do to the state (`Laws/Keeps.lean`): one lemma per operation. -/

set_option linter.all false

namespace Sys2Proof.Machine

open Sys2Proof

theorem linkNote_keeps {P : State → Prop} (h : Stable [.notify] P) (a0 : _) (a1 : _) (a2 : _) (s : State) (hs : P s) : P (linkNote a0 a1 a2 s) := by
  have pNotify := h.notify rfl
  unfold linkNote
  repeat'
    first
    | with_reducible assumption
    | rfl
    | (with_reducible apply pNotify)
    | (with_reducible apply ite_keeps (P := P))
    | (with_reducible apply foldl_keeps (P := P))
    | (refine fun (t : State) (ht : P t) => ?_)
    | (refine fun (_ : _) (t : State) (ht : P t) => ?_)
    | (with_reducible intro t; first | (refine (fun (ht : P t) => ?_) (?_ : P t); rotate_left; subst t; rotate_right; clear_value t) | skip | skip)
    | lift_lets -underBinder
    | split

theorem linkStarting_keeps {P : State → Prop} (h : Stable [.notify, .dx] P) (a0 : _) (a1 : _) (s : State) (hs : P s) : P (linkStarting a0 a1 s) := by
  have k1 := @linkNote_keeps P (h.mono rfl)
  have k2 := @State.setLink_keeps P (h.mono rfl)
  unfold linkStarting
  repeat'
    first
    | with_reducible assumption
    | rfl
    | (with_reducible apply k1)
    | (with_reducible apply k2)
    | (with_reducible apply ite_keeps (P := P))
    | (with_reducible apply foldl_keeps (P := P))
    | (refine fun (t : State) (ht : P t) => ?_)
    | (refine fun (_ : _) (t : State) (ht : P t) => ?_)
    | (with_reducible intro t; first | (refine (fun (ht : P t) => ?_) (?_ : P t); rotate_left; subst t; rotate_right; clear_value t) | skip | skip)
    | lift_lets -underBinder
    | split

theorem linkStopping_keeps {P : State → Prop} (h : Stable [.out, .notify, .dx, .ev] P) (a0 : _) (a1 : _) (s : State) (hs : P s) : P (linkStopping a0 a1 s) := by
  have k1 := @linkNote_keeps P (h.mono rfl)
  have k2 := @State.sendCtl_keeps P (h.mono rfl)
  unfold linkStopping
  repeat'
    first
    | with_reducible assumption
    | rfl
    | (with_reducible apply k1)
    | (with_reducible apply k2)
    | (with_reducible apply ite_keeps (P := P))
    | (with_reducible apply foldl_keeps (P := P))
    | (refine fun (t : State) (ht : P t) => ?_)
    | (refine fun (_ : _) (t : State) (ht : P t) => ?_)
    | (with_reducible intro t; first | (refine (fun (ht : P t) => ?_) (?_ : P t); rotate_left; subst t; rotate_right; clear_value t) | skip | skip)
    | lift_lets -underBinder
    | split

theorem linkOff_keeps {P : State → Prop} (h : Stable [.notify, .dx] P) (a0 : _) (a1 : _) (s : State) (hs : P s) : P (linkOff a0 a1 s) := by
  have k1 := @linkNote_keeps P (h.mono rfl)
  have k2 := @State.setLink_keeps P (h.mono rfl)
  unfold linkOff
  repeat'
    first
    | with_reducible assumption
    | rfl
    | (with_reducible apply k1)
    | (with_reducible apply k2)
    | (with_reducible apply ite_keeps (P := P))
    | (with_reducible apply foldl_keeps (P := P))
    | (refine fun (t : State) (ht : P t) => ?_)
    | (refine fun (_ : _) (t : State) (ht : P t) => ?_)
    | (with_reducible intro t; first | (refine (fun (ht : P t) => ?_) (?_ : P t); rotate_left; subst t; rotate_right; clear_value t) | skip | skip)
    | lift_lets -underBinder
    | split

theorem State.takeTrailer_keeps {P : State → Prop} (h : Stable [.out, .ctr, .dx, .ev] P) (s : State) (a1 : _) (a2 : _) (hs : P s) : P (State.takeTrailer s a1 a2) := by
  have k1 := @State.ackLink_keeps P (h.mono rfl)
  have k2 := @State.setLink_keeps P (h.mono rfl)
  have k3 := @State.replayLink_keeps P (h.mono rfl)
  have k4 := @State.pumpLink_keeps P (h.mono rfl)
  unfold State.takeTrailer
  repeat'
    first
    | with_reducible assumption
    | rfl
    | (with_reducible apply k1)
    | (with_reducible apply k2)
    | (with_reducible apply k3)
    | (with_reducible apply k4)
    | (with_reducible apply ite_keeps (P := P))
    | (with_reducible apply when_keeps (P := P))
    | (with_reducible apply foldl_keeps (P := P))
    | (refine fun (t : State) (ht : P t) => ?_)
    | (refine fun (_ : _) (t : State) (ht : P t) => ?_)
    | (with_reducible intro t; first | (refine (fun (ht : P t) => ?_) (?_ : P t); rotate_left; subst t; rotate_right; clear_value t) | skip | skip)
    | lift_lets -underBinder
    | split

theorem State.passFlit_keeps {P : State → Prop} (h : Stable [.out, .dx, .ev] P) (s : State) (a1 : _) (a2 : _) (a3 : _) (hs : P s) : OkO P (State.passFlit s a1 a2 a3) := by
  have k1 := @State.returnCredit_keeps P (h.mono rfl)
  have k2 := @State.queueFlits_keeps P (h.mono rfl)
  have k3 := @State.route_keeps P (h.mono rfl)
  have pEv := h.ev rfl
  have pUdx := h.dx rfl
  unfold State.passFlit
  repeat'
    first
    | with_reducible assumption
    | rfl
    | (with_reducible apply k1)
    | (with_reducible apply k2)
    | (with_reducible apply k3)
    | (with_reducible apply pEv)
    | (with_reducible refine pUdx _ _ (by with_reducible assumption))
    | (with_reducible apply OkOpt.some)
    | (with_reducible apply OkOpt.none)
    | (with_reducible apply iteOpt_keeps)
    | (with_reducible apply OkOpt.map)
    | (with_reducible apply OkOpt.bind)
    | (with_reducible apply OkOpt.find)
    | (with_reducible apply OkOpt.fold)
    | (with_reducible apply OkOpt.getD (P := P))
    | (with_reducible apply ite_keeps (P := P))
    | (with_reducible apply foldl_keeps (P := P))
    | (refine OkO.get (P := P) (by with_reducible assumption) ?_)
    | (refine OkOP.get (P := P) (by with_reducible assumption) ?_)
    | (refine OkOPP.get (P := P) (by with_reducible assumption) ?_)
    | (refine fun (t : State) (ht : P t) => ?_)
    | (refine fun (_ : _) (t : State) (ht : P t) => ?_)
    | (with_reducible intro t; first | (refine (fun (ht : P t) => ?_) (?_ : P t); rotate_left; subst t; rotate_right; clear_value t) | skip | skip)
    | lift_lets -underBinder
    | split
    | (with_reducible apply pUdx)
    | exact OkOpt.any

theorem State.passHeld_keeps {P : State → Prop} (h : Stable [.out, .dx, .ev] P) (s : State) (hs : P s) : P (State.passHeld s) := by
  have k1 := @State.passFlit_keeps P (h.mono rfl)
  have pUdx := h.dx rfl
  unfold State.passHeld
  repeat'
    first
    | with_reducible assumption
    | rfl
    | (with_reducible apply k1)
    | (with_reducible refine pUdx _ _ (by with_reducible assumption))
    | (with_reducible apply OkOpt.some)
    | (with_reducible apply OkOpt.none)
    | (with_reducible apply iteOpt_keeps)
    | (with_reducible apply OkOpt.map)
    | (with_reducible apply OkOpt.bind)
    | (with_reducible apply OkOpt.find)
    | (with_reducible apply OkOpt.fold)
    | (with_reducible apply OkOpt.getD (P := P))
    | (with_reducible apply ite_keeps (P := P))
    | (with_reducible apply each_keeps (P := P))
    | (with_reducible apply foldl_keeps (P := P))
    | (refine OkO.get (P := P) (by with_reducible assumption) ?_)
    | (refine OkOP.get (P := P) (by with_reducible assumption) ?_)
    | (refine OkOPP.get (P := P) (by with_reducible assumption) ?_)
    | (refine fun (t : State) (ht : P t) => ?_)
    | (refine fun (_ : _) (t : State) (ht : P t) => ?_)
    | (with_reducible intro t; first | (refine (fun (ht : P t) => ?_) (?_ : P t); rotate_left; subst t; rotate_right; clear_value t) | skip | skip)
    | lift_lets -underBinder
    | split
    | (with_reducible apply pUdx)
    | exact OkOpt.any

theorem State.takeFlit_keeps {P : State → Prop} (h : Stable [.out, .ctr, .dx, .journal, .ev] P) (s : State) (a1 : _) (a2 : _) (hs : P s) : P (State.takeFlit s a1 a2) := by
  have k1 := @State.returnCredit_keeps P (h.mono rfl)
  have k2 := @State.heardFrom_keeps P (h.mono rfl)
  have k3 := @State.badMsg_keeps P (h.mono rfl)
  have k4 := @State.passFlit_keeps P (h.mono rfl)
  have pInc := h.ctrInc rfl
  have pEv := h.ev rfl
  have pJournal := h.journal rfl
  have pUdx := h.dx rfl
  unfold State.takeFlit
  repeat'
    first
    | with_reducible assumption
    | rfl
    | (with_reducible apply k1)
    | (with_reducible apply k2)
    | (with_reducible apply k3)
    | (with_reducible apply k4)
    | (with_reducible apply pInc)
    | (with_reducible apply pEv)
    | (with_reducible apply pJournal)
    | (with_reducible refine pUdx _ _ (by with_reducible assumption))
    | (with_reducible apply OkOpt.some)
    | (with_reducible apply OkOpt.none)
    | (with_reducible apply iteOpt_keeps)
    | (with_reducible apply OkOpt.map)
    | (with_reducible apply OkOpt.bind)
    | (with_reducible apply OkOpt.find)
    | (with_reducible apply OkOpt.fold)
    | (with_reducible apply OkOpt.getD (P := P))
    | (with_reducible apply ite_keeps (P := P))
    | (with_reducible apply when_keeps (P := P))
    | (with_reducible apply foldl_keeps (P := P))
    | (refine OkO.get (P := P) (by with_reducible assumption) ?_)
    | (refine OkOP.get (P := P) (by with_reducible assumption) ?_)
    | (refine OkOPP.get (P := P) (by with_reducible assumption) ?_)
    | (refine fun (t : State) (ht : P t) => ?_)
    | (refine fun (_ : _) (t : State) (ht : P t) => ?_)
    | (with_reducible intro t; first | (refine (fun (ht : P t) => ?_) (?_ : P t); rotate_left; subst t; rotate_right; clear_value t) | skip | skip)
    | lift_lets -underBinder
    | split
    | (with_reducible apply pUdx)
    | exact OkOpt.any

theorem execFlitReceive_keeps {P : State → Prop} (h : Stable [.out, .ctr, .dx, .journal, .ev] P) (a0 : _) (a1 : _) (a2 : _) (s : State) (hs : P (s.at a0)) : OkX P (execFlitReceive a0 a1 a2 s) := by
  have k1 := @State.nakLink_keeps P (h.mono rfl)
  have k2 := @State.setLink_keeps P (h.mono rfl)
  have k3 := @State.takeTrailer_keeps P (h.mono rfl)
  have k4 := @State.takeFlit_keeps P (h.mono rfl)
  have pInc := h.ctrInc rfl
  have pEv := h.ev rfl
  unfold execFlitReceive
  repeat'
    first
    | with_reducible assumption
    | rfl
    | (refine run_keeps ?_ (by assumption))
    | (with_reducible apply k1)
    | (with_reducible apply k2)
    | (with_reducible apply k3)
    | (with_reducible apply k4)
    | (with_reducible apply pInc)
    | (with_reducible apply pEv)
    | (with_reducible apply ite_keeps (P := P))
    | (with_reducible apply foldl_keeps (P := P))
    | (refine fun (t : State) (ht : P t) => ?_)
    | (refine fun (_ : _) (t : State) (ht : P t) => ?_)
    | (with_reducible intro t; first | (refine (fun (ht : P t) => ?_) (?_ : P t); rotate_left; subst t; rotate_right; clear_value t) | skip | skip)
    | lift_lets -underBinder
    | split

theorem execReplayTimeout_keeps {P : State → Prop} (h : Stable [.out, .ctr, .dx, .ev] P) (a0 : _) (a1 : _) (s : State) (hs : P (s.at a0)) : OkX P (execReplayTimeout a0 a1 s) := by
  have k1 := @State.replayLink_keeps P (h.mono rfl)
  unfold execReplayTimeout
  repeat'
    first
    | with_reducible assumption
    | rfl
    | (refine run_keeps ?_ (by assumption))
    | (with_reducible apply k1)
    | (with_reducible apply ite_keeps (P := P))
    | (with_reducible apply foldl_keeps (P := P))
    | (refine fun (t : State) (ht : P t) => ?_)
    | (refine fun (_ : _) (t : State) (ht : P t) => ?_)
    | (with_reducible intro t; first | (refine (fun (ht : P t) => ?_) (?_ : P t); rotate_left; subst t; rotate_right; clear_value t) | skip | skip)
    | lift_lets -underBinder
    | split

theorem State.ackCommand_keeps {P : State → Prop} (h : Stable [.out, .ctr, .nv, .dx, .ev] P) (s : State) (a1 : _) (a2 : _) (a3 : _) (hs : P s) : P (State.ackCommand s a1 a2 a3) := by
  have k1 := @State.sendMsg_keeps P (h.mono rfl)
  unfold State.ackCommand
  repeat'
    first
    | with_reducible assumption
    | rfl
    | (with_reducible apply k1)
    | (with_reducible apply ite_keeps (P := P))
    | (with_reducible apply foldl_keeps (P := P))
    | (refine fun (t : State) (ht : P t) => ?_)
    | (refine fun (_ : _) (t : State) (ht : P t) => ?_)
    | (with_reducible intro t; first | (refine (fun (ht : P t) => ?_) (?_ : P t); rotate_left; subst t; rotate_right; clear_value t) | skip | skip)
    | lift_lets -underBinder
    | split

theorem State.drainEarly_keeps {P : State → Prop} (h : Stable [.out, .ctr, .nv, .notify, .ss, .sl, .dx, .ev] P) (a0 : _) (a1 : _) (s : State) (hs : P s) : P (State.drainEarly a0 a1 s) := by
  have k1 := @State.landCommand_keeps P (h.mono rfl)
  have k2 := @State.setPeer_keeps P (h.mono rfl)
  have k3 := @State.ackCommand_keeps P (h.mono rfl)
  have pUdx := h.dx rfl
  induction a0 generalizing a1 s with
  | zero =>
    unfold State.drainEarly
    repeat'
      first
      | with_reducible assumption
      | rfl
      | (with_reducible apply k1)
      | (with_reducible apply k2)
      | (with_reducible apply k3)
      | (with_reducible refine pUdx _ _ (by with_reducible assumption))
      | (with_reducible apply ite_keeps (P := P))
      | (with_reducible apply foldl_keeps (P := P))
      | (refine fun (t : State) (ht : P t) => ?_)
      | (refine fun (_ : _) (t : State) (ht : P t) => ?_)
      | (with_reducible intro t; first | (refine (fun (ht : P t) => ?_) (?_ : P t); rotate_left; subst t; rotate_right; clear_value t) | skip | skip)
      | lift_lets -underBinder
      | split
      | (with_reducible apply pUdx)
  | succ n ih =>
    unfold State.drainEarly
    repeat'
      first
      | with_reducible assumption
      | rfl
      | (with_reducible apply ih)
      | (with_reducible apply k1)
      | (with_reducible apply k2)
      | (with_reducible apply k3)
      | (with_reducible refine pUdx _ _ (by with_reducible assumption))
      | (with_reducible apply ite_keeps (P := P))
      | (with_reducible apply foldl_keeps (P := P))
      | (refine fun (t : State) (ht : P t) => ?_)
      | (refine fun (_ : _) (t : State) (ht : P t) => ?_)
      | (with_reducible intro t; first | (refine (fun (ht : P t) => ?_) (?_ : P t); rotate_left; subst t; rotate_right; clear_value t) | skip | skip)
      | lift_lets -underBinder
      | split
      | (with_reducible apply pUdx)

theorem execCommand_keeps {P : State → Prop} (h : Stable [.out, .ctr, .nv, .notify, .ss, .sl, .dx, .journal, .ev] P) (a0 : _) (a1 : _) (a2 : _) (s : State) (hs : P (s.at a0)) : OkX P (execCommand a0 a1 a2 s) := by
  have k1 := @State.arrive_keeps P (h.mono rfl)
  have k2 := @State.ackCommand_keeps P (h.mono rfl)
  have k3 := @State.landCommand_keeps P (h.mono rfl)
  have k4 := @State.setPeer_keeps P (h.mono rfl)
  have k5 := @State.drainEarly_keeps P (h.mono rfl)
  have pEv := h.ev rfl
  have pUdx := h.dx rfl
  unfold execCommand
  repeat'
    first
    | with_reducible assumption
    | rfl
    | (refine run_keeps ?_ (by assumption))
    | (with_reducible apply k1)
    | (with_reducible apply k2)
    | (with_reducible apply k3)
    | (with_reducible apply k4)
    | (with_reducible apply k5)
    | (with_reducible apply pEv)
    | (with_reducible refine pUdx _ _ (by with_reducible assumption))
    | (with_reducible apply ite_keeps (P := P))
    | (with_reducible apply foldl_keeps (P := P))
    | (refine fun (t : State) (ht : P t) => ?_)
    | (refine fun (_ : _) (t : State) (ht : P t) => ?_)
    | (with_reducible intro t; first | (refine (fun (ht : P t) => ?_) (?_ : P t); rotate_left; subst t; rotate_right; clear_value t) | skip | skip)
    | lift_lets -underBinder
    | split
    | (with_reducible apply pUdx)

theorem execE2eTimeout_keeps {P : State → Prop} (h : Stable [.out, .ctr, .nv, .dx, .ev] P) (a0 : _) (a1 : _) (a2 : _) (s : State) (hs : P (s.at a0)) : OkX P (execE2eTimeout a0 a1 a2 s) := by
  have k1 := @State.sendMsg_keeps P (h.mono rfl)
  have pInc := h.ctrInc rfl
  have pEv := h.ev rfl
  have pUdx := h.dx rfl
  unfold execE2eTimeout
  repeat'
    first
    | with_reducible assumption
    | rfl
    | (refine run_keeps ?_ (by assumption))
    | (with_reducible apply k1)
    | (with_reducible apply pInc)
    | (with_reducible apply pEv)
    | (with_reducible refine pUdx _ _ (by with_reducible assumption))
    | (with_reducible apply ite_keeps (P := P))
    | (with_reducible apply foldl_keeps (P := P))
    | (refine fun (t : State) (ht : P t) => ?_)
    | (refine fun (_ : _) (t : State) (ht : P t) => ?_)
    | (with_reducible intro t; first | (refine (fun (ht : P t) => ?_) (?_ : P t); rotate_left; subst t; rotate_right; clear_value t) | skip | skip)
    | lift_lets -underBinder
    | split
    | (with_reducible apply pUdx)

theorem State.growStage_keeps {P : State → Prop} (h : Stable [.out, .ctr, .nv, .notify, .sc, .ss, .tm, .fb, .sl, .ev] P) (s : State) (a1 : _) (a2 : _) (hs : P s) : P (State.growStage s a1 a2) := by
  have k1 := @State.freeBulk_keeps P (h.mono rfl)
  have k2 := @State.takeBulk_keeps P (h.mono rfl)
  have k3 := @State.starve_keeps P (h.mono rfl)
  have pInc := h.ctrInc rfl
  have pEv := h.ev rfl
  unfold State.growStage
  repeat'
    first
    | with_reducible assumption
    | rfl
    | (with_reducible apply k1)
    | (with_reducible apply k2)
    | (with_reducible apply k3)
    | (with_reducible apply pInc)
    | (with_reducible apply pEv)
    | (with_reducible apply OkOpt.some)
    | (with_reducible apply OkOpt.none)
    | (with_reducible apply iteOpt_keeps)
    | (with_reducible apply OkOpt.map)
    | (with_reducible apply OkOpt.bind)
    | (with_reducible apply OkOpt.find)
    | (with_reducible apply OkOpt.fold)
    | (with_reducible apply OkOpt.getD (P := P))
    | (with_reducible apply ite_keeps (P := P))
    | (with_reducible apply each_keeps (P := P))
    | (with_reducible apply foldl_keeps (P := P))
    | (refine OkO.get (P := P) (by with_reducible assumption) ?_)
    | (refine OkOP.get (P := P) (by with_reducible assumption) ?_)
    | (refine OkOPP.get (P := P) (by with_reducible assumption) ?_)
    | (refine fun (t : State) (ht : P t) => ?_)
    | (refine fun (_ : _) (t : State) (ht : P t) => ?_)
    | (with_reducible intro t; first | (refine (fun (ht : P t) => ?_) (?_ : P t); rotate_left; subst t; rotate_right; clear_value t) | skip | skip)
    | lift_lets -underBinder
    | split
    | exact OkOpt.any

theorem State.sendAct_keeps {P : State → Prop} (h : Stable [.out, .ctr, .nv, .dx, .ev] P) (s : State) (a1 : _) (a2 : _) (a3 : _) (hs : P s) : P (State.sendAct s a1 a2 a3) := by
  have k1 := @State.sendMsg_keeps P (h.mono rfl)
  have pUdx := h.dx rfl
  unfold State.sendAct
  repeat'
    first
    | with_reducible assumption
    | rfl
    | (with_reducible apply k1)
    | (with_reducible refine pUdx _ _ (by with_reducible assumption))
    | (with_reducible apply ite_keeps (P := P))
    | (with_reducible apply foldl_keeps (P := P))
    | (refine fun (t : State) (ht : P t) => ?_)
    | (refine fun (_ : _) (t : State) (ht : P t) => ?_)
    | (with_reducible intro t; first | (refine (fun (ht : P t) => ?_) (?_ : P t); rotate_left; subst t; rotate_right; clear_value t) | skip | skip)
    | lift_lets -underBinder
    | split
    | (with_reducible apply pUdx)

theorem execActivation_keeps {P : State → Prop} (h : Stable [.out, .ctr, .nv, .notify, .sc, .ss, .tm, .fb, .sl, .dx, .journal, .ev] P) (a0 : _) (a1 : _) (s : State) (hs : P (s.at a0)) : OkX P (execActivation a0 a1 s) := by
  have k1 := @State.arrive_keeps P (h.mono rfl)
  have k2 := @State.sendMsg_keeps P (h.mono rfl)
  have k3 := @State.sendAct_keeps P (h.mono rfl)
  have k4 := @State.growStage_keeps P (h.mono rfl)
  have pEv := h.ev rfl
  have pUdx := h.dx rfl
  unfold execActivation
  repeat'
    first
    | with_reducible assumption
    | rfl
    | (refine run_keeps ?_ (by assumption))
    | (with_reducible apply k1)
    | (with_reducible apply k2)
    | (with_reducible apply k3)
    | (with_reducible apply k4)
    | (with_reducible apply pEv)
    | (with_reducible refine pUdx _ _ (by with_reducible assumption))
    | (with_reducible apply ite_keeps (P := P))
    | (with_reducible apply each_keeps (P := P))
    | (with_reducible apply when_keeps (P := P))
    | (with_reducible apply foldl_keeps (P := P))
    | (refine fun (t : State) (ht : P t) => ?_)
    | (refine fun (_ : _) (t : State) (ht : P t) => ?_)
    | (with_reducible intro t; first | (refine (fun (ht : P t) => ?_) (?_ : P t); rotate_left; subst t; rotate_right; clear_value t) | skip | skip)
    | lift_lets -underBinder
    | split
    | (with_reducible apply pUdx)

theorem execActivationTimeout_keeps {P : State → Prop} (h : Stable [.out, .notify, .fb, .dx, .ev] P) (a0 : _) (a1 : _) (s : State) (hs : P (s.at a0)) : OkX P (execActivationTimeout a0 a1 s) := by
  have k1 := @State.failModel_keeps P (h.mono rfl)
  have pUdx := h.dx rfl
  unfold execActivationTimeout
  repeat'
    first
    | with_reducible assumption
    | rfl
    | (refine run_keeps ?_ (by assumption))
    | (with_reducible apply k1)
    | (with_reducible refine pUdx _ _ (by with_reducible assumption))
    | (with_reducible apply ite_keeps (P := P))
    | (with_reducible apply foldl_keeps (P := P))
    | (refine fun (t : State) (ht : P t) => ?_)
    | (refine fun (_ : _) (t : State) (ht : P t) => ?_)
    | (with_reducible intro t; first | (refine (fun (ht : P t) => ?_) (?_ : P t); rotate_left; subst t; rotate_right; clear_value t) | skip | skip)
    | lift_lets -underBinder
    | split
    | (with_reducible apply pUdx)

theorem execStageReady_keeps {P : State → Prop} (h : Stable [.out, .ctr, .notify, .fb, .dx, .ev] P) (a0 : _) (a1 : _) (a2 : _) (a3 : _) (a4 : _) (a5 : _) (a6 : _) (s : State) (hs : P (s.at a0)) : OkX P (execStageReady a0 a1 a2 a3 a4 a5 a6 s) := by
  have k1 := @State.ctlArrive_keeps P (h.mono rfl)
  have k2 := @State.setModel_keeps P (h.mono rfl)
  have k3 := @State.failModel_keeps P (h.mono rfl)
  unfold execStageReady
  repeat'
    first
    | with_reducible assumption
    | rfl
    | (refine run_keeps ?_ (by assumption))
    | (with_reducible apply k1)
    | (with_reducible apply k2)
    | (with_reducible apply k3)
    | (with_reducible apply ite_keeps (P := P))
    | (with_reducible apply when_keeps (P := P))
    | (with_reducible apply foldl_keeps (P := P))
    | (refine fun (t : State) (ht : P t) => ?_)
    | (refine fun (_ : _) (t : State) (ht : P t) => ?_)
    | (with_reducible intro t; first | (refine (fun (ht : P t) => ?_) (?_ : P t); rotate_left; subst t; rotate_right; clear_value t) | skip | skip)
    | lift_lets -underBinder
    | split

theorem execStageReadyResend_keeps {P : State → Prop} (h : Stable [.out, .dx, .ev] P) (a0 : _) (s : State) (hs : P (s.at a0)) : OkX P (execStageReadyResend a0 s) := by
  have k1 := @State.sendStage_keeps P (h.mono rfl)
  unfold execStageReadyResend
  repeat'
    first
    | with_reducible assumption
    | rfl
    | (refine run_keeps ?_ (by assumption))
    | (with_reducible apply k1)
    | (with_reducible apply ite_keeps (P := P))
    | (with_reducible apply each_keeps (P := P))
    | (with_reducible apply foldl_keeps (P := P))
    | (refine fun (t : State) (ht : P t) => ?_)
    | (refine fun (_ : _) (t : State) (ht : P t) => ?_)
    | (with_reducible intro t; first | (refine (fun (ht : P t) => ?_) (?_ : P t); rotate_left; subst t; rotate_right; clear_value t) | skip | skip)
    | lift_lets -underBinder
    | split

theorem execHeartbeat_keeps {P : State → Prop} (h : Stable [.ctr, .dx] P) (a0 : _) (a1 : _) (a2 : _) (a3 : _) (s : State) (hs : P (s.at a0)) : OkX P (execHeartbeat a0 a1 a2 a3 s) := by
  have k1 := @State.ctlArrive_keeps P (h.mono rfl)
  unfold execHeartbeat
  repeat'
    first
    | with_reducible assumption
    | rfl
    | (refine run_keeps ?_ (by assumption))
    | (with_reducible apply k1)
    | (with_reducible apply id_keeps (P := P))
    | (with_reducible apply ite_keeps (P := P))
    | (with_reducible apply foldl_keeps (P := P))
    | (refine fun (t : State) (ht : P t) => ?_)
    | (refine fun (_ : _) (t : State) (ht : P t) => ?_)
    | (with_reducible intro t; first | (refine (fun (ht : P t) => ?_) (?_ : P t); rotate_left; subst t; rotate_right; clear_value t) | clear_value t | skip)
    | lift_lets -underBinder
    | split

theorem execHeartbeatSend_keeps {P : State → Prop} (h : Stable [.out, .dx, .ev] P) (a0 : _) (s : State) (hs : P (s.at a0)) : OkX P (execHeartbeatSend a0 s) := by
  have k1 := @State.routeCtl_keeps P (h.mono rfl)
  unfold execHeartbeatSend
  repeat'
    first
    | with_reducible assumption
    | rfl
    | (refine run_keeps ?_ (by assumption))
    | (with_reducible apply k1)
    | (with_reducible apply ite_keeps (P := P))
    | (with_reducible apply each_keeps (P := P))
    | (with_reducible apply foldl_keeps (P := P))
    | (refine fun (t : State) (ht : P t) => ?_)
    | (refine fun (_ : _) (t : State) (ht : P t) => ?_)
    | (with_reducible intro t; first | (refine (fun (ht : P t) => ?_) (?_ : P t); rotate_left; subst t; rotate_right; clear_value t) | skip | skip)
    | lift_lets -underBinder
    | split

end Sys2Proof.Machine
end

