-- ==== Sys2Proof/Laws/KeepsShards.lean ====
section
/-! SUPPORT. What the operations of Machine/Shards.lean can do to the state (`Laws/Keeps.lean`): one lemma per operation. -/

set_option linter.all false

namespace Sys2Proof.Machine

open Sys2Proof

theorem State.shardRead_keeps {P : State → Prop} (h : Stable [.out, .ctr, .fb, .sl, .ev] P) (s : State) (a1 : _) (a2 : _) (hs : P s) : P (State.shardRead s a1 a2) := by
  have k1 := @State.takeSlot_keeps P (h.mono rfl)
  have k2 := @State.bulkRead_keeps P (h.mono rfl)
  have k3 := @State.trackWait_keeps P (h.mono rfl)
  unfold State.shardRead
  repeat'
    first
    | with_reducible assumption
    | rfl
    | (with_reducible apply k1)
    | (with_reducible apply k2)
    | (with_reducible apply k3)
    | (with_reducible apply OkOpt.some)
    | (with_reducible apply OkOpt.none)
    | (with_reducible apply iteOpt_keeps)
    | (with_reducible apply OkOpt.map)
    | (with_reducible apply OkOpt.bind)
    | (with_reducible apply OkOpt.find)
    | (with_reducible apply OkOpt.fold)
    | (with_reducible apply OkOpt.getD (P := P))
    | (with_reducible apply ite_keeps (P := P))
    | (with_reducible apply foldl_keeps (P := P))
    | (refine OkO.get (P := P) (by with_reducible assumption) ?_)
    | (refine OkOP.get (P := P) (by with_reducible assumption) ?_)
    | (refine OkOPP.get (P := P) (by with_reducible assumption) ?_)
    | (refine fun (t : State) (ht : P t) => ?_)
    | (refine fun (_ : _) (t : State) (ht : P t) => ?_)
    | (with_reducible intro t; first | (refine (fun (ht : P t) => ?_) (?_ : P t); rotate_left; subst t; rotate_right; clear_value t) | skip | skip)
    | lift_lets -underBinder
    | split
    | exact OkOpt.any

theorem State.pageItem_keeps {P : State → Prop} (h : Stable [.out, .ctr, .nv, .sc, .fb, .sl, .ev] P) (s : State) (a1 : _) (a2 : _) (a3 : _) (hs : P s) : OkP P (State.pageItem s a1 a2 a3) := by
  have k1 := @State.nextNonce_keeps P (h.mono rfl)
  have k2 := @State.shardRead_keeps P (h.mono rfl)
  unfold State.pageItem
  repeat'
    first
    | with_reducible assumption
    | rfl
    | (with_reducible apply k1)
    | (with_reducible apply k2)
    | (with_reducible apply iteP_keeps (P := P))
    | (with_reducible apply ite_keeps (P := P))
    | (with_reducible apply when_keeps (P := P))
    | (with_reducible apply foldl_keeps (P := P))
    | (with_reducible apply foldP_keeps (P := P))
    | (refine OkP.get (P := P) (by with_reducible assumption) ?_)
    | (with_reducible apply OkP.snd (P := P))
    | (refine fun (t : State) (ht : P t) => ?_)
    | (refine fun (_ : _) (t : State) (ht : P t) => ?_)
    | (with_reducible intro t; first | (refine (fun (ht : P t) => ?_) (?_ : P t); rotate_left; subst t; rotate_right; clear_value t) | skip | skip)
    | lift_lets -underBinder
    | split
    | (with_reducible apply OkP.mk (P := P))

theorem State.pageItems_keeps {P : State → Prop} (h : Stable [.out, .ctr, .nv, .sc, .fb, .sl, .ev] P) (s : State) (a1 : _) (hs : P s) : OkP P (State.pageItems s a1) := by
  have k1 := @State.pageItem_keeps P (h.mono rfl)
  unfold State.pageItems
  repeat'
    first
    | with_reducible assumption
    | rfl
    | (with_reducible apply k1)
    | (with_reducible apply iteP_keeps (P := P))
    | (with_reducible apply ite_keeps (P := P))
    | (with_reducible apply foldl_keeps (P := P))
    | (with_reducible apply foldP_keeps (P := P))
    | (refine OkP.get (P := P) (by with_reducible assumption) ?_)
    | (with_reducible apply OkP.snd (P := P))
    | (refine fun (t : State) (ht : P t) => ?_)
    | (refine fun (_ : _) (t : State) (ht : P t) => ?_)
    | (with_reducible intro t; first | (refine (fun (ht : P t) => ?_) (?_ : P t); rotate_left; subst t; rotate_right; clear_value t) | skip | skip)
    | lift_lets -underBinder
    | split
    | (with_reducible apply OkP.mk (P := P))

theorem State.domainShards_keeps {P : State → Prop} (h : Stable [.out, .ctr, .nv, .sc, .fb, .sl, .ev] P) (s : State) (a1 : _) (hs : P s) : OkP P (State.domainShards s a1) := by
  have k1 := @State.pageItems_keeps P (h.mono rfl)
  unfold State.domainShards
  repeat'
    first
    | with_reducible assumption
    | rfl
    | (with_reducible apply k1)
    | (with_reducible apply iteP_keeps (P := P))
    | (with_reducible apply ite_keeps (P := P))
    | (with_reducible apply foldl_keeps (P := P))
    | (with_reducible apply foldP_keeps (P := P))
    | (refine OkP.get (P := P) (by with_reducible assumption) ?_)
    | (with_reducible apply OkP.snd (P := P))
    | (refine fun (t : State) (ht : P t) => ?_)
    | (refine fun (_ : _) (t : State) (ht : P t) => ?_)
    | (with_reducible intro t; first | (refine (fun (ht : P t) => ?_) (?_ : P t); rotate_left; subst t; rotate_right; clear_value t) | skip | skip)
    | lift_lets -underBinder
    | split
    | (with_reducible apply OkP.mk (P := P))

theorem State.shards_keeps {P : State → Prop} (h : Stable [.out, .ctr, .nv, .sc, .fb, .sl, .ev] P) (s : State) (hs : P s) : OkP P (State.shards s) := by
  have k1 := @State.domainShards_keeps P (h.mono rfl)
  unfold State.shards
  generalize List.range 4096 = l
  exact foldP_keeps (P := P) (fun x d hx => k1 x.2 d hx) hs

theorem State.sealShard_keeps {P : State → Prop} (h : Stable [.ctr, .nv, .sc] P) (s : State) (a1 : _) (hs : P s) : OkP P (State.sealShard s a1) := by
  have k1 := @State.nextNonce_keeps P (h.mono rfl)
  unfold State.sealShard
  repeat'
    first
    | with_reducible assumption
    | rfl
    | (with_reducible apply k1)
    | (with_reducible apply iteP_keeps (P := P))
    | (with_reducible apply ite_keeps (P := P))
    | (with_reducible apply foldl_keeps (P := P))
    | (with_reducible apply foldP_keeps (P := P))
    | (refine OkP.get (P := P) (by with_reducible assumption) ?_)
    | (with_reducible apply OkP.snd (P := P))
    | (refine fun (t : State) (ht : P t) => ?_)
    | (refine fun (_ : _) (t : State) (ht : P t) => ?_)
    | (with_reducible intro t; first | (refine (fun (ht : P t) => ?_) (?_ : P t); rotate_left; subst t; rotate_right; clear_value t) | skip | skip)
    | lift_lets -underBinder
    | split
    | (with_reducible apply OkP.mk (P := P))

theorem State.layShards_keeps {P : State → Prop} (h : Stable [.out, .ctr, .nv, .sc, .fb, .sl, .ev] P) (s : State) (hs : P s) : OkPP P (State.layShards s) := by
  have k1 := @State.shards_keeps P (h.mono rfl)
  have k2 := @State.sealShard_keeps P (h.mono rfl)
  unfold State.layShards
  exact foldPP_keeps (P := P) (fun x d hx => OkPP.mk (OkP.snd (k2 x.2.2 d hx))) (OkPP.mk (OkP.snd (k1 s hs)))

theorem State.ckptWrite_keeps {P : State → Prop} (h : Stable [.out, .ctr, .sl, .ev] P) (s : State) (a1 : _) (a2 : _) (a3 : _) (hs : P s) : P (State.ckptWrite s a1 a2 a3) := by
  have k1 := @State.bulkFlush_keeps P (h.mono rfl)
  have k2 := @State.bulkWrite_keeps P (h.mono rfl)
  unfold State.ckptWrite
  repeat'
    first
    | with_reducible assumption
    | rfl
    | (with_reducible apply k1)
    | (with_reducible apply k2)
    | (with_reducible apply ite_keeps (P := P))
    | (with_reducible apply foldl_keeps (P := P))
    | (refine fun (t : State) (ht : P t) => ?_)
    | (refine fun (_ : _) (t : State) (ht : P t) => ?_)
    | (with_reducible intro t; first | (refine (fun (ht : P t) => ?_) (?_ : P t); rotate_left; subst t; rotate_right; clear_value t) | skip | skip)
    | lift_lets -underBinder
    | split

theorem State.commitWrite_keeps {P : State → Prop} (h : Stable [.out, .ctr, .sl, .ev] P) (s : State) (a1 : _) (a2 : _) (hs : P s) : P (State.commitWrite s a1 a2) := by
  have k1 := @State.ckptWrite_keeps P (h.mono rfl)
  unfold State.commitWrite
  repeat'
    first
    | with_reducible assumption
    | rfl
    | (with_reducible apply k1)
    | (with_reducible apply ite_keeps (P := P))
    | (with_reducible apply foldl_keeps (P := P))
    | (refine fun (t : State) (ht : P t) => ?_)
    | (refine fun (_ : _) (t : State) (ht : P t) => ?_)
    | (with_reducible intro t; first | (refine (fun (ht : P t) => ?_) (?_ : P t); rotate_left; subst t; rotate_right; clear_value t) | skip | skip)
    | lift_lets -underBinder
    | split

theorem State.slotWrite_keeps {P : State → Prop} (h : Stable [.out, .ctr, .sl, .ev] P) (s : State) (a1 : _) (a2 : _) (hs : P s) : P (State.slotWrite s a1 a2) := by
  have k1 := @State.ckptWrite_keeps P (h.mono rfl)
  unfold State.slotWrite
  repeat'
    first
    | with_reducible assumption
    | rfl
    | (with_reducible apply k1)
    | (with_reducible apply ite_keeps (P := P))
    | (with_reducible apply foldl_keeps (P := P))
    | (refine fun (t : State) (ht : P t) => ?_)
    | (refine fun (_ : _) (t : State) (ht : P t) => ?_)
    | (with_reducible intro t; first | (refine (fun (ht : P t) => ?_) (?_ : P t); rotate_left; subst t; rotate_right; clear_value t) | skip | skip)
    | lift_lets -underBinder
    | split

end Sys2Proof.Machine
end

