-- ==== Sys2Proof/Laws/KeepsCkpt.lean ====
section
/-! SUPPORT. What the operations of Machine/Ckpt.lean can do to the state (`Laws/Keeps.lean`): one lemma per operation. -/

set_option linter.all false

namespace Sys2Proof.Machine

open Sys2Proof

theorem State.ckSend_keeps {P : State → Prop} (h : Stable [.out, .dx, .ev] P) (s : State) (a1 : _) (a2 : _) (a3 : _) (hs : P s) : P (State.ckSend s a1 a2 a3) := by
  have k1 := @State.routeCtl_keeps P (h.mono rfl)
  unfold State.ckSend
  repeat'
    first
    | with_reducible assumption
    | rfl
    | (with_reducible apply k1)
    | (with_reducible apply ite_keeps (P := P))
    | (with_reducible apply foldl_keeps (P := P))
    | (refine fun (t : State) (ht : P t) => ?_)
    | (refine fun (_ : _) (t : State) (ht : P t) => ?_)
    | (with_reducible intro t; first | (refine (fun (ht : P t) => ?_) (?_ : P t); rotate_left; subst t; rotate_right; clear_value t) | skip | skip)
    | lift_lets -underBinder
    | split

theorem State.ckSendAll_keeps {P : State → Prop} (h : Stable [.out, .dx, .ev] P) (s : State) (a1 : _) (a2 : _) (a3 : _) (hs : P s) : P (State.ckSendAll s a1 a2 a3) := by
  have k1 := @State.ckSend_keeps P (h.mono rfl)
  unfold State.ckSendAll
  repeat'
    first
    | with_reducible assumption
    | rfl
    | (with_reducible apply k1)
    | (with_reducible apply ite_keeps (P := P))
    | (with_reducible apply each_keeps (P := P))
    | (with_reducible apply foldl_keeps (P := P))
    | (refine fun (t : State) (ht : P t) => ?_)
    | (refine fun (_ : _) (t : State) (ht : P t) => ?_)
    | (with_reducible intro t; first | (refine (fun (ht : P t) => ?_) (?_ : P t); rotate_left; subst t; rotate_right; clear_value t) | skip | skip)
    | lift_lets -underBinder
    | split

theorem State.ckArrive_keeps {P : State → Prop} (h : Stable [.ctr, .dx] P) (s : State) (a1 : _) (a2 : _) (f : State → State) (hf : ∀ t, P t → P (f t)) (hs : P s) : P (State.ckArrive s a1 a2 f) := by
  have k1 := @State.ctlArrive_keeps P (h.mono rfl)
  unfold State.ckArrive
  repeat'
    first
    | with_reducible assumption
    | rfl
    | (with_reducible apply k1)
    | (with_reducible apply ite_keeps (P := P))
    | (with_reducible apply foldl_keeps (P := P))
    | (with_reducible apply hf)
    | (refine fun (t : State) (ht : P t) => ?_)
    | (refine fun (_ : _) (t : State) (ht : P t) => ?_)
    | (with_reducible intro t; first | (refine (fun (ht : P t) => ?_) (?_ : P t); rotate_left; subst t; rotate_right; clear_value t) | skip | skip)
    | lift_lets -underBinder
    | split

theorem State.willResume_keeps {P : State → Prop} (h : Stable [.ck] P) (s : State) (hs : P s) : P (State.willResume s) := by
  have pUck := h.ck rfl
  unfold State.willResume
  repeat'
    first
    | with_reducible assumption
    | rfl
    | (with_reducible refine pUck _ _ (by with_reducible assumption))
    | (with_reducible apply ite_keeps (P := P))
    | (with_reducible apply foldl_keeps (P := P))
    | (refine fun (t : State) (ht : P t) => ?_)
    | (refine fun (_ : _) (t : State) (ht : P t) => ?_)
    | (with_reducible intro t; first | (refine (fun (ht : P t) => ?_) (?_ : P t); rotate_left; subst t; rotate_right; clear_value t) | skip | skip)
    | lift_lets -underBinder
    | split
    | (with_reducible apply pUck)

theorem State.abortCkpt_keeps {P : State → Prop} (h : Stable [.out, .ctr, .notify, .ss, .sl, .dx, .ck, .ev] P) (s : State) (a1 : _) (a2 : _) (hs : P s) : P (State.abortCkpt s a1 a2) := by
  have k1 := @State.ckSendAll_keeps P (h.mono rfl)
  have k2 := @State.endDrun_keeps P (h.mono rfl)
  have k3 := @State.willResume_keeps P (h.mono rfl)
  have pInc := h.ctrInc rfl
  have pNotify := h.notify rfl
  have pUck := h.ck rfl
  unfold State.abortCkpt
  repeat'
    first
    | with_reducible assumption
    | rfl
    | (with_reducible apply k1)
    | (with_reducible apply k2)
    | (with_reducible apply k3)
    | (with_reducible apply pInc)
    | (with_reducible apply pNotify)
    | (with_reducible refine pUck _ _ (by with_reducible assumption))
    | (with_reducible apply ite_keeps (P := P))
    | (with_reducible apply foldl_keeps (P := P))
    | (refine fun (t : State) (ht : P t) => ?_)
    | (refine fun (_ : _) (t : State) (ht : P t) => ?_)
    | (with_reducible intro t; first | (refine (fun (ht : P t) => ?_) (?_ : P t); rotate_left; subst t; rotate_right; clear_value t) | skip | skip)
    | lift_lets -underBinder
    | split
    | (with_reducible apply pUck)

theorem State.armBarrier_keeps {P : State → Prop} (h : Stable [.pk] P) (s : State) (a1 : _) (hs : P s) : P (State.armBarrier s a1) := by
  have pUpk := h.pk rfl
  unfold State.armBarrier
  repeat'
    first
    | with_reducible assumption
    | rfl
    | (with_reducible refine pUpk _ _ (by dsimp only [Pick.rest]) (by with_reducible assumption))
    | (with_reducible apply ite_keeps (P := P))
    | (with_reducible apply foldl_keeps (P := P))
    | (refine fun (t : State) (ht : P t) => ?_)
    | (refine fun (_ : _) (t : State) (ht : P t) => ?_)
    | (with_reducible intro t; first | (refine (fun (ht : P t) => ?_) (?_ : P t); rotate_left; subst t; rotate_right; clear_value t) | skip | skip)
    | lift_lets -underBinder
    | split
    | (with_reducible apply pUpk)

theorem State.arm_keeps {P : State → Prop} (h : Stable [.out, .ctr, .pk, .notify, .ss, .sl, .dx, .ck, .ev] P) (s : State) (a1 : _) (hs : P s) : P (State.arm s a1) := by
  have k1 := @State.ckSend_keeps P (h.mono rfl)
  have k2 := @State.armBarrier_keeps P (h.mono rfl)
  have k3 := @State.abortCkpt_keeps P (h.mono rfl)
  have pUck := h.ck rfl
  unfold State.arm
  repeat'
    first
    | with_reducible assumption
    | rfl
    | (with_reducible apply k1)
    | (with_reducible apply k2)
    | (with_reducible apply k3)
    | (with_reducible refine pUck _ _ (by with_reducible assumption))
    | (with_reducible apply ite_keeps (P := P))
    | (with_reducible apply foldl_keeps (P := P))
    | (refine fun (t : State) (ht : P t) => ?_)
    | (refine fun (_ : _) (t : State) (ht : P t) => ?_)
    | (with_reducible intro t; first | (refine (fun (ht : P t) => ?_) (?_ : P t); rotate_left; subst t; rotate_right; clear_value t) | skip | skip)
    | lift_lets -underBinder
    | split
    | (with_reducible apply pUck)

theorem execCheckpointBegin_keeps {P : State → Prop} (h : Stable [.out, .ctr, .pk, .notify, .ss, .sl, .dx, .ck, .ev] P) (a0 : _) (a1 : _) (a2 : _) (s : State) (hs : P (s.at a0)) : OkX P (execCheckpointBegin a0 a1 a2 s) := by
  have k1 := @State.startDom_keeps P (h.mono rfl)
  have k2 := @State.endDrun_keeps P (h.mono rfl)
  have k3 := @State.commitWrite_keeps P (h.mono rfl)
  have k4 := @State.arm_keeps P (h.mono rfl)
  have k5 := @State.ckSendAll_keeps P (h.mono rfl)
  have k6 := @State.abortCkpt_keeps P (h.mono rfl)
  have pUck := h.ck rfl
  unfold execCheckpointBegin
  repeat'
    first
    | with_reducible assumption
    | rfl
    | (refine run_keeps ?_ (by assumption))
    | (with_reducible apply k1)
    | (with_reducible apply k2)
    | (with_reducible apply k3)
    | (with_reducible apply k4)
    | (with_reducible apply k5)
    | (with_reducible apply k6)
    | (with_reducible refine pUck _ _ (by with_reducible assumption))
    | (with_reducible apply ite_keeps (P := P))
    | (with_reducible apply foldl_keeps (P := P))
    | (refine fun (t : State) (ht : P t) => ?_)
    | (refine fun (_ : _) (t : State) (ht : P t) => ?_)
    | (with_reducible intro t; first | (refine (fun (ht : P t) => ?_) (?_ : P t); rotate_left; subst t; rotate_right; clear_value t) | skip | skip)
    | lift_lets -underBinder
    | split
    | (with_reducible apply pUck)

theorem execCkptNotice_keeps {P : State → Prop} (h : Stable [.out, .ctr, .pk, .notify, .ss, .sl, .dx, .ck, .ev] P) (a0 : _) (a1 : _) (a2 : _) (s : State) (hs : P (s.at a0)) : OkX P (execCkptNotice a0 a1 a2 s) := by
  have k1 := @State.ckArrive_keeps P (h.mono rfl)
  have k2 := @State.arm_keeps P (h.mono rfl)
  unfold execCkptNotice
  repeat'
    first
    | with_reducible assumption
    | rfl
    | (refine run_keeps ?_ (by assumption))
    | (with_reducible apply k1)
    | (with_reducible apply k2)
    | (with_reducible apply ite_keeps (P := P))
    | (with_reducible apply foldl_keeps (P := P))
    | (refine fun (t : State) (ht : P t) => ?_)
    | (refine fun (_ : _) (t : State) (ht : P t) => ?_)
    | (with_reducible intro t; first | (refine (fun (ht : P t) => ?_) (?_ : P t); rotate_left; subst t; rotate_right; clear_value t) | skip | skip)
    | lift_lets -underBinder
    | split

theorem State.undoLoads_keeps {P : State → Prop} (h : Stable [.out, .ctr, .nv, .notify, .sc, .ss, .tm, .fb, .se, .sl, .dx, .ev] P) (s : State) (hs : P s) : P (State.undoLoads s) := by
  have k1 := @State.failLoad_keeps P (h.mono rfl)
  have k2 := @State.endDrun_keeps P (h.mono rfl)
  have k3 := @State.tryInsert_keeps P (h.mono rfl)
  have k4 := @State.trySelect_keeps P (h.mono rfl)
  unfold State.undoLoads
  repeat'
    first
    | with_reducible assumption
    | rfl
    | (with_reducible apply k1)
    | (with_reducible apply k2)
    | (with_reducible apply k3)
    | (with_reducible apply k4)
    | (with_reducible apply ite_keeps (P := P))
    | (with_reducible apply each_keeps (P := P))
    | (with_reducible apply foldl_keeps (P := P))
    | (refine fun (t : State) (ht : P t) => ?_)
    | (refine fun (_ : _) (t : State) (ht : P t) => ?_)
    | (with_reducible intro t; first | (refine (fun (ht : P t) => ?_) (?_ : P t); rotate_left; subst t; rotate_right; clear_value t) | skip | skip)
    | lift_lets -underBinder
    | split

theorem ckptAction_keeps {P : State → Prop} (h : Stable [.out, .ctr, .nv, .notify, .sc, .ss, .tm, .fb, .sv, .se, .sl, .dx, .ck, .ev] P) (a0 : _) (a1 : _) (s : State) (hs : P s) : P (ckptAction a0 a1 s) := by
  have k1 := @State.undoLoads_keeps P (h.mono rfl)
  have pUsvck := h.SvCk rfl rfl
  unfold ckptAction
  repeat'
    first
    | with_reducible assumption
    | rfl
    | (with_reducible apply k1)
    | (with_reducible refine pUsvck _ _ _ (by with_reducible assumption))
    | (with_reducible apply ite_keeps (P := P))
    | (with_reducible apply foldl_keeps (P := P))
    | (refine fun (t : State) (ht : P t) => ?_)
    | (refine fun (_ : _) (t : State) (ht : P t) => ?_)
    | (with_reducible intro t; first | (refine (fun (ht : P t) => ?_) (?_ : P t); rotate_left; subst t; rotate_right; clear_value t) | skip | skip)
    | lift_lets -underBinder
    | split
    | (with_reducible apply pUsvck)

theorem State.ckptAdvance_keeps {P : State → Prop} (h : Stable [.ck] P) (s : State) (hs : P s) : P (State.ckptAdvance s) := by
  have pUck := h.ck rfl
  unfold State.ckptAdvance
  repeat'
    first
    | with_reducible assumption
    | rfl
    | (with_reducible refine pUck _ _ (by with_reducible assumption))
    | (with_reducible apply ite_keeps (P := P))
    | (with_reducible apply foldl_keeps (P := P))
    | (refine fun (t : State) (ht : P t) => ?_)
    | (refine fun (_ : _) (t : State) (ht : P t) => ?_)
    | (with_reducible intro t; first | (refine (fun (ht : P t) => ?_) (?_ : P t); rotate_left; subst t; rotate_right; clear_value t) | skip | skip)
    | lift_lets -underBinder
    | split
    | (with_reducible apply pUck)

theorem execCheckpointCut_keeps {P : State → Prop} (h : Stable [.ck] P) (a0 : _) (s : State) (hs : P (s.at a0)) : OkX P (execCheckpointCut a0 s) := by
  have k1 := @State.ckptAdvance_keeps P (h.mono rfl)
  have pUck := h.ck rfl
  unfold execCheckpointCut
  repeat'
    first
    | with_reducible assumption
    | rfl
    | (refine run_keeps ?_ (by assumption))
    | (with_reducible apply k1)
    | (with_reducible refine pUck _ _ (by with_reducible assumption))
    | (with_reducible apply ite_keeps (P := P))
    | (with_reducible apply foldl_keeps (P := P))
    | (refine fun (t : State) (ht : P t) => ?_)
    | (refine fun (_ : _) (t : State) (ht : P t) => ?_)
    | (with_reducible intro t; first | (refine (fun (ht : P t) => ?_) (?_ : P t); rotate_left; subst t; rotate_right; clear_value t) | skip | skip)
    | lift_lets -underBinder
    | split
    | (with_reducible apply pUck)

theorem State.takeCommit_keeps {P : State → Prop} (h : Stable [.ctr, .ck] P) (s : State) (a1 : _) (a2 : _) (hs : P s) : P (State.takeCommit s a1 a2) := by
  have pInc := h.ctrInc rfl
  have pSet := h.ctr rfl
  have pStore := h.store rfl
  have pUck := h.ck rfl
  unfold State.takeCommit
  repeat'
    first
    | with_reducible assumption
    | rfl
    | (with_reducible apply pInc)
    | (with_reducible apply pSet)
    | (with_reducible apply pStore)
    | (with_reducible refine pUck _ _ (by with_reducible assumption))
    | (with_reducible apply ite_keeps (P := P))
    | (with_reducible apply foldl_keeps (P := P))
    | (refine fun (t : State) (ht : P t) => ?_)
    | (refine fun (_ : _) (t : State) (ht : P t) => ?_)
    | (with_reducible intro t; first | (refine (fun (ht : P t) => ?_) (?_ : P t); rotate_left; subst t; rotate_right; clear_value t) | skip | skip)
    | lift_lets -underBinder
    | split
    | (with_reducible apply pUck)

theorem State.gotWritten_keeps {P : State → Prop} (h : Stable [.out, .ctr, .stamp, .notify, .scAny, .ss, .sl, .dx, .ck, .ev] P) (s : State) (a1 : _) (a2 : _) (hs : P s) : P (State.gotWritten s a1 a2) := by
  have k1 := @State.abortCkpt_keeps P (h.mono rfl)
  have k2 := @takeIndex_keeps P (h.mono rfl)
  have k3 := @State.endDrun_keeps P (h.mono rfl)
  have k4 := @State.commitWrite_keeps P (h.mono rfl)
  have k5 := @State.takeCommit_keeps P (h.mono rfl)
  have k6 := @State.ckSendAll_keeps P (h.mono rfl)
  have pNotify := h.notify rfl
  have pStamp := h.stamp rfl
  have pUck := h.ck rfl
  unfold State.gotWritten
  repeat'
    first
    | with_reducible assumption
    | rfl
    | (with_reducible apply k1)
    | (with_reducible apply k2)
    | (with_reducible apply k3)
    | (with_reducible apply k4)
    | (with_reducible apply k5)
    | (with_reducible apply k6)
    | (with_reducible apply pNotify)
    | (with_reducible apply pStamp)
    | (with_reducible refine pUck _ _ (by with_reducible assumption))
    | (with_reducible apply OkOpt.some)
    | (with_reducible apply OkOpt.none)
    | (with_reducible apply iteOpt_keeps)
    | (with_reducible apply OkOpt.map)
    | (with_reducible apply OkOpt.bind)
    | (with_reducible apply OkOpt.find)
    | (with_reducible apply OkOpt.fold)
    | (with_reducible apply OkOpt.getD (P := P))
    | (with_reducible apply ite_keeps (P := P))
    | (with_reducible apply foldl_keeps (P := P))
    | (refine OkO.get (P := P) (by with_reducible assumption) ?_)
    | (refine OkOP.get (P := P) (by with_reducible assumption) ?_)
    | (refine OkOPP.get (P := P) (by with_reducible assumption) ?_)
    | (refine fun (t : State) (ht : P t) => ?_)
    | (refine fun (_ : _) (t : State) (ht : P t) => ?_)
    | (with_reducible intro t; first | (refine (fun (ht : P t) => ?_) (?_ : P t); rotate_left; subst t; rotate_right; clear_value t) | skip | skip)
    | lift_lets -underBinder
    | split
    | (with_reducible apply pUck)
    | exact OkOpt.any

theorem State.writeManifest_keeps {P : State → Prop} (h : Stable [.out, .ctr, .stamp, .notify, .scAny, .ss, .sl, .dx, .ck, .ev] P) (s : State) (a1 : _) (a2 : _) (a3 : _) (hs : P s) : P (State.writeManifest s a1 a2 a3) := by
  have k1 := @State.slotWrite_keeps P (h.mono rfl)
  have k2 := @State.gotWritten_keeps P (h.mono rfl)
  have k3 := @State.ckSend_keeps P (h.mono rfl)
  unfold State.writeManifest
  extract_lets man m u
  have hu : P u := h.ctr rfl _ _ _ _ _ rfl (h.stamp rfl _ (k1 s a2 man hs))
  clear_value u m man
  exact ite_keeps (P := P) (k2 _ _ _ (h.ck rfl u _ hu)) (k3 _ _ _ _ (h.ck rfl u _ hu))

theorem execShardWriteComplete_keeps {P : State → Prop} (h : Stable [.out, .ctr, .nv, .stamp, .notify, .sc, .scAny, .ss, .fb, .sl, .dx, .ck, .ev] P) (a0 : _) (a1 : _) (s : State) (hs : P (s.at a0)) : OkX P (execShardWriteComplete a0 a1 s) := by
  have k1 := @State.layShards_keeps P (h.mono rfl)
  have k2 := @State.abortCkpt_keeps P (h.mono rfl)
  have k3 := @takeIndex_keeps P (h.mono rfl)
  have k4 := @State.slotWrite_keeps P (h.mono rfl)
  have k5 := @State.writeManifest_keeps P (h.mono rfl)
  unfold execShardWriteComplete
  refine run_keeps (P := P) (fun t ht => ite_keeps (P := P) ht ?_) hs
  have hw := k1 t ht
  generalize t.layShards = w at hw ⊢
  obtain ⟨b, l, u⟩ := w
  dsimp only
  refine ite_keeps (P := P) (k2 t _ _ ht) (ite_keeps (P := P) (k2 t _ _ ht) ?_)
  split
  · exact k2 t _ _ ht
  · rename_i i v e
    exact k5 _ _ _ _ (OkOP.get (P := P) e (k3 _ (k4 _ _ _ hw)))

theorem execCkptWritten_keeps {P : State → Prop} (h : Stable [.out, .ctr, .stamp, .notify, .scAny, .ss, .sl, .dx, .ck, .ev] P) (a0 : _) (a1 : _) (a2 : _) (a3 : _) (s : State) (hs : P (s.at a0)) : OkX P (execCkptWritten a0 a1 a2 a3 s) := by
  have k1 := @State.ckArrive_keeps P (h.mono rfl)
  have k2 := @State.ckSend_keeps P (h.mono rfl)
  have k3 := @State.gotWritten_keeps P (h.mono rfl)
  unfold execCkptWritten
  repeat'
    first
    | with_reducible assumption
    | rfl
    | (refine run_keeps ?_ (by assumption))
    | (with_reducible apply k1)
    | (with_reducible apply k2)
    | (with_reducible apply k3)
    | (with_reducible apply ite_keeps (P := P))
    | (with_reducible apply foldl_keeps (P := P))
    | (refine fun (t : State) (ht : P t) => ?_)
    | (refine fun (_ : _) (t : State) (ht : P t) => ?_)
    | (with_reducible intro t; first | (refine (fun (ht : P t) => ?_) (?_ : P t); rotate_left; subst t; rotate_right; clear_value t) | skip | skip)
    | lift_lets -underBinder
    | split

theorem execCkptAbort_keeps {P : State → Prop} (h : Stable [.out, .ctr, .notify, .ss, .sl, .dx, .ck, .ev] P) (a0 : _) (a1 : _) (a2 : _) (s : State) (hs : P (s.at a0)) : OkX P (execCkptAbort a0 a1 a2 s) := by
  have k1 := @State.ckArrive_keeps P (h.mono rfl)
  have k2 := @State.abortCkpt_keeps P (h.mono rfl)
  unfold execCkptAbort
  repeat'
    first
    | with_reducible assumption
    | rfl
    | (refine run_keeps ?_ (by assumption))
    | (with_reducible apply k1)
    | (with_reducible apply k2)
    | (with_reducible apply ite_keeps (P := P))
    | (with_reducible apply foldl_keeps (P := P))
    | (refine fun (t : State) (ht : P t) => ?_)
    | (refine fun (_ : _) (t : State) (ht : P t) => ?_)
    | (with_reducible intro t; first | (refine (fun (ht : P t) => ?_) (?_ : P t); rotate_left; subst t; rotate_right; clear_value t) | skip | skip)
    | lift_lets -underBinder
    | split

theorem execCheckpointTimeout_keeps {P : State → Prop} (h : Stable [.out, .ctr, .notify, .ss, .sl, .dx, .ck, .ev] P) (a0 : _) (s : State) (hs : P (s.at a0)) : OkX P (execCheckpointTimeout a0 s) := by
  have k1 := @State.abortCkpt_keeps P (h.mono rfl)
  have k2 := @State.willResume_keeps P (h.mono rfl)
  unfold execCheckpointTimeout
  repeat'
    first
    | with_reducible assumption
    | rfl
    | (refine run_keeps ?_ (by assumption))
    | (with_reducible apply k1)
    | (with_reducible apply k2)
    | (with_reducible apply ite_keeps (P := P))
    | (with_reducible apply foldl_keeps (P := P))
    | (refine fun (t : State) (ht : P t) => ?_)
    | (refine fun (_ : _) (t : State) (ht : P t) => ?_)
    | (with_reducible intro t; first | (refine (fun (ht : P t) => ?_) (?_ : P t); rotate_left; subst t; rotate_right; clear_value t) | skip | skip)
    | lift_lets -underBinder
    | split

theorem execRestoreBegin_keeps {P : State → Prop} (h : Stable [.out, .ctr, .wfn, .win, .notify, .ss, .sl, .dx, .ck, .ev] P) (a0 : _) (a1 : _) (a2 : _) (a3 : _) (s : State) (hs : P (s.at a0)) : OkX P (execRestoreBegin a0 a1 a2 a3 s) := by
  have k1 := @State.startDomIn_keeps P (h.mono rfl)
  have k2 := @State.endDrun_keeps P (h.mono rfl)
  have k3 := @State.ckSendAll_keeps P (h.mono rfl)
  have pUck := h.ck rfl
  unfold execRestoreBegin
  repeat'
    first
    | with_reducible assumption
    | rfl
    | (refine run_keeps ?_ (by assumption))
    | (with_reducible apply k1)
    | (with_reducible apply k2)
    | (with_reducible apply k3)
    | (with_reducible refine pUck _ _ (by with_reducible assumption))
    | (with_reducible apply ite_keeps (P := P))
    | (with_reducible apply foldl_keeps (P := P))
    | (refine fun (t : State) (ht : P t) => ?_)
    | (refine fun (_ : _) (t : State) (ht : P t) => ?_)
    | (with_reducible intro t; first | (refine (fun (ht : P t) => ?_) (?_ : P t); rotate_left; subst t; rotate_right; clear_value t) | skip | skip)
    | lift_lets -underBinder
    | split
    | (with_reducible apply pUck)

theorem State.unrestored_keeps {P : State → Prop} (h : Stable [.out, .ctr, .notify, .ss, .sl, .ck, .ev] P) (s : State) (a1 : _) (a2 : _) (hs : P s) : P (State.unrestored s a1 a2) := by
  have k1 := @State.record_keeps P (h.mono rfl)
  have pInc := h.ctrInc rfl
  have pUck := h.ck rfl
  unfold State.unrestored
  repeat'
    first
    | with_reducible assumption
    | rfl
    | (with_reducible apply k1)
    | (with_reducible apply pInc)
    | (with_reducible refine pUck _ _ (by with_reducible assumption))
    | (with_reducible apply ite_keeps (P := P))
    | (with_reducible apply foldl_keeps (P := P))
    | (refine fun (t : State) (ht : P t) => ?_)
    | (refine fun (_ : _) (t : State) (ht : P t) => ?_)
    | (with_reducible intro t; first | (refine (fun (ht : P t) => ?_) (?_ : P t); rotate_left; subst t; rotate_right; clear_value t) | skip | skip)
    | lift_lets -underBinder
    | split
    | (with_reducible apply pUck)

theorem State.restorePage_keeps {P : State → Prop} (h : Stable [.out, .ctr, .nv, .notify, .sc, .ss, .tm, .sl, .ev] P) (s : State) (a1 : _) (a2 : _) (hs : P s) : OkO P (State.restorePage s a1 a2) := by
  have k1 := @State.setPage_keeps P (h.mono rfl)
  have k2 := @State.placeNear_keeps P (h.mono rfl)
  have k3 := @State.written_keeps P (h.mono rfl)
  have k4 := @State.takeFrame_keeps P (h.mono rfl)
  have k5 := @State.txWrite_keeps P (h.mono rfl)
  have k6 := @State.takeFar_keeps P (h.mono rfl)
  unfold State.restorePage
  repeat'
    first
    | with_reducible assumption
    | rfl
    | (with_reducible apply k1)
    | (with_reducible apply k2)
    | (with_reducible apply k3)
    | (with_reducible apply k4)
    | (with_reducible apply k5)
    | (with_reducible apply k6)
    | (with_reducible apply OkOpt.some)
    | (with_reducible apply OkOpt.none)
    | (with_reducible apply iteOpt_keeps)
    | (with_reducible apply OkOpt.map)
    | (with_reducible apply OkOpt.bind)
    | (with_reducible apply OkOpt.find)
    | (with_reducible apply OkOpt.fold)
    | (with_reducible apply OkOpt.getD (P := P))
    | (with_reducible apply iteP_keeps (P := P))
    | (with_reducible apply ite_keeps (P := P))
    | (with_reducible apply foldl_keeps (P := P))
    | (with_reducible apply foldP_keeps (P := P))
    | (refine OkO.get (P := P) (by with_reducible assumption) ?_)
    | (refine OkOP.get (P := P) (by with_reducible assumption) ?_)
    | (refine OkOPP.get (P := P) (by with_reducible assumption) ?_)
    | (refine OkP.get (P := P) (by with_reducible assumption) ?_)
    | (with_reducible apply OkP.snd (P := P))
    | (refine fun (t : State) (ht : P t) => ?_)
    | (refine fun (_ : _) (t : State) (ht : P t) => ?_)
    | (with_reducible intro t; first | (refine (fun (ht : P t) => ?_) (?_ : P t); rotate_left; subst t; rotate_right; clear_value t) | skip | skip)
    | lift_lets -underBinder
    | split
    | (with_reducible apply OkP.mk (P := P))
    | exact OkOpt.any

theorem State.landSession_keeps {P : State → Prop} (h : Stable [.out, .ctr, .nv, .notify, .sc, .ss, .tm, .sl, .ev] P) (s : State) (a1 : _) (a2 : _) (a3 : _) (a4 : _) (a5 : _) (a6 : _) (hs : P s) : OkO P (State.landSession s a1 a2 a3 a4 a5 a6) := by
  have k1 := @State.setSess_keeps P (h.mono rfl)
  have k2 := @State.restorePage_keeps P (h.mono rfl)
  unfold State.landSession
  repeat'
    first
    | with_reducible assumption
    | rfl
    | (with_reducible apply k1)
    | (with_reducible apply k2)
    | (with_reducible apply OkOpt.some)
    | (with_reducible apply OkOpt.none)
    | (with_reducible apply iteOpt_keeps)
    | (with_reducible apply OkOpt.map)
    | (with_reducible apply OkOpt.bind)
    | (with_reducible apply OkOpt.find)
    | (with_reducible apply OkOpt.fold)
    | (with_reducible apply OkOpt.getD (P := P))
    | (with_reducible apply ite_keeps (P := P))
    | (with_reducible apply foldl_keeps (P := P))
    | (refine OkO.get (P := P) (by with_reducible assumption) ?_)
    | (refine OkOP.get (P := P) (by with_reducible assumption) ?_)
    | (refine OkOPP.get (P := P) (by with_reducible assumption) ?_)
    | (refine fun (t : State) (ht : P t) => ?_)
    | (refine fun (_ : _) (t : State) (ht : P t) => ?_)
    | (with_reducible intro t; first | (refine (fun (ht : P t) => ?_) (?_ : P t); rotate_left; subst t; rotate_right; clear_value t) | skip | skip)
    | lift_lets -underBinder
    | split
    | exact OkOpt.any

theorem State.placeItem_keeps {P : State → Prop} (h : Stable [.out, .ctr, .nv, .notify, .sc, .ss, .tm, .sv, .tx, .se, .sl, .ck, .ev] P) (s : State) (a1 : _) (hs : P s) : OkO P (State.placeItem s a1) := by
  have k1 := @State.unrestored_keeps P (h.mono rfl)
  have k2 := @State.unsolicited_keeps P (h.mono rfl)
  have k3 := @State.landSession_keeps P (h.mono rfl)
  have k4 := @State.setBudget_keeps P (h.mono rfl)
  have k5 := @State.setColl_keeps P (h.mono rfl)
  have k6 := @State.takeBulk_keeps P (h.mono rfl)
  have k7 := @State.growList_keeps P (h.mono rfl)
  have pUck := h.ck rfl
  have pUtx := h.tx rfl
  have pUtm := h.tm rfl
  unfold State.placeItem
  repeat'
    first
    | with_reducible assumption
    | rfl
    | (with_reducible apply k1)
    | (with_reducible apply k2)
    | (with_reducible apply k3)
    | (with_reducible apply k4)
    | (with_reducible apply k5)
    | (with_reducible apply k6)
    | (with_reducible apply k7)
    | (with_reducible refine pUck _ _ (by with_reducible assumption))
    | (with_reducible refine pUtx _ _ (by with_reducible assumption))
    | (with_reducible refine pUtm _ _ (by with_reducible assumption))
    | (with_reducible apply OkOpt.some)
    | (with_reducible apply OkOpt.none)
    | (with_reducible apply iteOpt_keeps)
    | (with_reducible apply OkOpt.map)
    | (with_reducible apply OkOpt.bind)
    | (with_reducible apply OkOpt.find)
    | (with_reducible apply OkOpt.fold)
    | (with_reducible apply OkOpt.getD (P := P))
    | (with_reducible apply ite_keeps (P := P))
    | (with_reducible apply when_keeps (P := P))
    | (with_reducible apply foldl_keeps (P := P))
    | (refine OkO.get (P := P) (by with_reducible assumption) ?_)
    | (refine OkOP.get (P := P) (by with_reducible assumption) ?_)
    | (refine OkOPP.get (P := P) (by with_reducible assumption) ?_)
    | (refine fun (t : State) (ht : P t) => ?_)
    | (refine fun (_ : _) (t : State) (ht : P t) => ?_)
    | (with_reducible intro t; first | (refine (fun (ht : P t) => ?_) (?_ : P t); rotate_left; subst t; rotate_right; clear_value t) | skip | skip)
    | lift_lets -underBinder
    | split
    | (with_reducible apply pUck)
    | (with_reducible apply pUtx)
    | (with_reducible apply pUtm)
    | exact OkOpt.any

theorem State.gotDone_keeps {P : State → Prop} (h : Stable [.out, .ctr, .notify, .ss, .sl, .dx, .ck, .ev] P) (s : State) (a1 : _) (hs : P s) : P (State.gotDone s a1) := by
  have k1 := @State.endDrun_keeps P (h.mono rfl)
  have k2 := @State.ckSendAll_keeps P (h.mono rfl)
  have pInc := h.ctrInc rfl
  have pNotify := h.notify rfl
  have pUck := h.ck rfl
  unfold State.gotDone
  repeat'
    first
    | with_reducible assumption
    | rfl
    | (with_reducible apply k1)
    | (with_reducible apply k2)
    | (with_reducible apply pInc)
    | (with_reducible apply pNotify)
    | (with_reducible refine pUck _ _ (by with_reducible assumption))
    | (with_reducible apply ite_keeps (P := P))
    | (with_reducible apply foldl_keeps (P := P))
    | (refine fun (t : State) (ht : P t) => ?_)
    | (refine fun (_ : _) (t : State) (ht : P t) => ?_)
    | (with_reducible intro t; first | (refine (fun (ht : P t) => ?_) (?_ : P t); rotate_left; subst t; rotate_right; clear_value t) | skip | skip)
    | lift_lets -underBinder
    | split
    | (with_reducible apply pUck)

theorem State.placeAll_keeps {P : State → Prop} (h : Stable [.out, .ctr, .nv, .notify, .sc, .ss, .tm, .sv, .tx, .se, .sl, .dx, .ck, .ev] P) (s : State) (hs : P s) : P (State.placeAll s) := by
  have k1 := @State.placeItem_keeps P (h.mono rfl)
  have k2 := @State.unrestored_keeps P (h.mono rfl)
  have k3 := @State.gotDone_keeps P (h.mono rfl)
  have k4 := @State.ckSend_keeps P (h.mono rfl)
  have pUck := h.ck rfl
  unfold State.placeAll
  repeat'
    first
    | with_reducible assumption
    | rfl
    | (with_reducible apply k1)
    | (with_reducible apply k2)
    | (with_reducible apply k3)
    | (with_reducible apply k4)
    | (with_reducible refine pUck _ _ (by with_reducible assumption))
    | (with_reducible apply OkOpt.some)
    | (with_reducible apply OkOpt.none)
    | (with_reducible apply iteOpt_keeps)
    | (with_reducible apply OkOpt.map)
    | (with_reducible apply OkOpt.bind)
    | (with_reducible apply OkOpt.find)
    | (with_reducible apply OkOpt.fold)
    | (with_reducible apply OkOpt.getD (P := P))
    | (with_reducible apply ite_keeps (P := P))
    | (with_reducible apply each_keeps (P := P))
    | (with_reducible apply foldl_keeps (P := P))
    | (refine OkO.get (P := P) (by with_reducible assumption) ?_)
    | (refine OkOP.get (P := P) (by with_reducible assumption) ?_)
    | (refine OkOPP.get (P := P) (by with_reducible assumption) ?_)
    | (refine fun (t : State) (ht : P t) => ?_)
    | (refine fun (_ : _) (t : State) (ht : P t) => ?_)
    | (with_reducible intro t; first | (refine (fun (ht : P t) => ?_) (?_ : P t); rotate_left; subst t; rotate_right; clear_value t) | skip | skip)
    | lift_lets -underBinder
    | split
    | (with_reducible apply pUck)
    | exact OkOpt.any

theorem execRestoreNotice_keeps {P : State → Prop} (h : Stable [.out, .ctr, .nv, .notify, .sc, .ss, .tm, .sv, .tx, .se, .sl, .dx, .ck, .ev] P) (a0 : _) (a1 : _) (a2 : _) (a3 : _) (a4 : _) (s : State) (hs : P (s.at a0)) : OkX P (execRestoreNotice a0 a1 a2 a3 a4 s) := by
  have k1 := @State.ckArrive_keeps P (h.mono rfl)
  have k2 := @State.unrestored_keeps P (h.mono rfl)
  have k3 := @State.placeAll_keeps P (h.mono rfl)
  have pInc := h.ctrInc rfl
  have pUck := h.ck rfl
  unfold execRestoreNotice
  repeat'
    first
    | with_reducible assumption
    | rfl
    | (refine run_keeps ?_ (by assumption))
    | (with_reducible apply k1)
    | (with_reducible apply k2)
    | (with_reducible apply k3)
    | (with_reducible apply pInc)
    | (with_reducible refine pUck _ _ (by with_reducible assumption))
    | (with_reducible apply ite_keeps (P := P))
    | (with_reducible apply each_keeps (P := P))
    | (with_reducible apply foldl_keeps (P := P))
    | (refine fun (t : State) (ht : P t) => ?_)
    | (refine fun (_ : _) (t : State) (ht : P t) => ?_)
    | (with_reducible intro t; first | (refine (fun (ht : P t) => ?_) (?_ : P t); rotate_left; subst t; rotate_right; clear_value t) | skip | skip)
    | lift_lets -underBinder
    | split
    | (with_reducible apply pUck)

theorem execRestoreDone_keeps {P : State → Prop} (h : Stable [.out, .ctr, .notify, .ss, .sl, .dx, .ck, .ev] P) (a0 : _) (a1 : _) (a2 : _) (s : State) (hs : P (s.at a0)) : OkX P (execRestoreDone a0 a1 a2 s) := by
  have k1 := @State.ckArrive_keeps P (h.mono rfl)
  have k2 := @State.ckSend_keeps P (h.mono rfl)
  have k3 := @State.gotDone_keeps P (h.mono rfl)
  unfold execRestoreDone
  repeat'
    first
    | with_reducible assumption
    | rfl
    | (refine run_keeps ?_ (by assumption))
    | (with_reducible apply k1)
    | (with_reducible apply k2)
    | (with_reducible apply k3)
    | (with_reducible apply ite_keeps (P := P))
    | (with_reducible apply foldl_keeps (P := P))
    | (refine fun (t : State) (ht : P t) => ?_)
    | (refine fun (_ : _) (t : State) (ht : P t) => ?_)
    | (with_reducible intro t; first | (refine (fun (ht : P t) => ?_) (?_ : P t); rotate_left; subst t; rotate_right; clear_value t) | skip | skip)
    | lift_lets -underBinder
    | split

theorem execCkptCommit_keeps {P : State → Prop} (h : Stable [.ctr, .dx, .ck] P) (a0 : _) (a1 : _) (a2 : _) (s : State) (hs : P (s.at a0)) : OkX P (execCkptCommit a0 a1 a2 s) := by
  have k1 := @State.ckArrive_keeps P (h.mono rfl)
  have k2 := @State.takeCommit_keeps P (h.mono rfl)
  have pUck := h.ck rfl
  unfold execCkptCommit
  repeat'
    first
    | with_reducible assumption
    | rfl
    | (refine run_keeps ?_ (by assumption))
    | (with_reducible apply k1)
    | (with_reducible apply k2)
    | (with_reducible refine pUck _ _ (by with_reducible assumption))
    | (with_reducible apply ite_keeps (P := P))
    | (with_reducible apply foldl_keeps (P := P))
    | (refine fun (t : State) (ht : P t) => ?_)
    | (refine fun (_ : _) (t : State) (ht : P t) => ?_)
    | (with_reducible intro t; first | (refine (fun (ht : P t) => ?_) (?_ : P t); rotate_left; subst t; rotate_right; clear_value t) | skip | skip)
    | lift_lets -underBinder
    | split
    | (with_reducible apply pUck)

theorem execCkptMessageResend_keeps {P : State → Prop} (h : Stable [.out, .dx, .ev] P) (a0 : _) (s : State) (hs : P (s.at a0)) : OkX P (execCkptMessageResend a0 s) := by
  have k1 := @State.ckSendAll_keeps P (h.mono rfl)
  have k2 := @State.ckSend_keeps P (h.mono rfl)
  unfold execCkptMessageResend
  repeat'
    first
    | with_reducible assumption
    | rfl
    | (refine run_keeps ?_ (by assumption))
    | (with_reducible apply k1)
    | (with_reducible apply k2)
    | (with_reducible apply ite_keeps (P := P))
    | (with_reducible apply when_keeps (P := P))
    | (with_reducible apply foldl_keeps (P := P))
    | (refine fun (t : State) (ht : P t) => ?_)
    | (refine fun (_ : _) (t : State) (ht : P t) => ?_)
    | (with_reducible intro t; first | (refine (fun (ht : P t) => ?_) (?_ : P t); rotate_left; subst t; rotate_right; clear_value t) | skip | skip)
    | lift_lets -underBinder
    | split

theorem ckptPeerLost_keeps {P : State → Prop} (h : Stable [.out, .ctr, .notify, .ss, .sl, .dx, .ck, .ev] P) (a0 : _) (s : State) (hs : P s) : P (ckptPeerLost a0 s) := by
  have k1 := @State.endDrun_keeps P (h.mono rfl)
  have k2 := @State.abortCkpt_keeps P (h.mono rfl)
  have pUck := h.ck rfl
  unfold ckptPeerLost
  repeat'
    first
    | with_reducible assumption
    | rfl
    | (with_reducible apply k1)
    | (with_reducible apply k2)
    | (with_reducible refine pUck _ _ (by with_reducible assumption))
    | (with_reducible apply ite_keeps (P := P))
    | (with_reducible apply foldl_keeps (P := P))
    | (refine fun (t : State) (ht : P t) => ?_)
    | (refine fun (_ : _) (t : State) (ht : P t) => ?_)
    | (with_reducible intro t; first | (refine (fun (ht : P t) => ?_) (?_ : P t); rotate_left; subst t; rotate_right; clear_value t) | skip | skip)
    | lift_lets -underBinder
    | split
    | (with_reducible apply pUck)

theorem State.ckptFlowLost_keeps {P : State → Prop} (h : Stable [.out, .ctr, .notify, .ss, .sl, .dx, .ck, .ev] P) (s : State) (a1 : _) (hs : P s) : P (State.ckptFlowLost s a1) := by
  have k1 := @State.abortCkpt_keeps P (h.mono rfl)
  unfold State.ckptFlowLost
  repeat'
    first
    | with_reducible assumption
    | rfl
    | (with_reducible apply k1)
    | (with_reducible apply ite_keeps (P := P))
    | (with_reducible apply foldl_keeps (P := P))
    | (refine fun (t : State) (ht : P t) => ?_)
    | (refine fun (_ : _) (t : State) (ht : P t) => ?_)
    | (with_reducible intro t; first | (refine (fun (ht : P t) => ?_) (?_ : P t); rotate_left; subst t; rotate_right; clear_value t) | skip | skip)
    | lift_lets -underBinder
    | split

end Sys2Proof.Machine
end

