-- ==== Sys2Proof/Laws/KeepsMigrate.lean ====
section
/-! SUPPORT. What the operations of Machine/Migrate.lean can do to the state (`Laws/Keeps.lean`): one lemma per operation. -/

set_option linter.all false

namespace Sys2Proof.Machine

open Sys2Proof

theorem State.drainFar_keeps {P : State → Prop} (h : Stable [.out, .ctr, .nv, .pw, .notify, .sc, .ss, .tm, .fb, .sl, .journal, .ev] P) (s : State) (a1 : _) (hs : P s) : P (State.drainFar s a1) := by
  have k1 := @State.exportPump_keeps P (h.mono rfl)
  have k2 := @State.exportBegin_keeps P (h.mono rfl)
  have k3 := @State.issueMoves_keeps P (h.mono rfl)
  have k4 := @State.beginMoving_keeps P (h.mono rfl)
  have k5 := @State.touchEntry_keeps P (h.mono rfl)
  have pUpw := h.pw rfl
  unfold State.drainFar
  repeat'
    first
    | with_reducible assumption
    | rfl
    | (with_reducible apply k1)
    | (with_reducible apply k2)
    | (with_reducible apply k3)
    | (with_reducible apply k4)
    | (with_reducible apply k5)
    | (with_reducible refine pUpw _ _ (by dsimp only [Power.rest]) (by with_reducible assumption))
    | (with_reducible apply ite_keeps (P := P))
    | (with_reducible apply foldl_keeps (P := P))
    | (refine fun (t : State) (ht : P t) => ?_)
    | (refine fun (_ : _) (t : State) (ht : P t) => ?_)
    | (with_reducible intro t; first | (refine (fun (ht : P t) => ?_) (?_ : P t); rotate_left; subst t; rotate_right; clear_value t) | skip | skip)
    | lift_lets -underBinder
    | split
    | (with_reducible apply pUpw)

theorem State.askPeer_keeps {P : State → Prop} (h : Stable [.out, .ctr, .nv, .ss, .tm, .fb, .dx, .ev] P) (s : State) (a1 : _) (a2 : _) (hs : P s) : P (State.askPeer s a1 a2) := by
  have k1 := @State.beginMoving_keeps P (h.mono rfl)
  have k2 := @State.touchEntry_keeps P (h.mono rfl)
  have k3 := @State.setSess_keeps P (h.mono rfl)
  have k4 := @State.sendMsg_keeps P (h.mono rfl)
  have pUdx := h.dx rfl
  unfold State.askPeer
  repeat'
    first
    | with_reducible assumption
    | rfl
    | (with_reducible apply k1)
    | (with_reducible apply k2)
    | (with_reducible apply k3)
    | (with_reducible apply k4)
    | (with_reducible refine pUdx _ _ (by with_reducible assumption))
    | (with_reducible apply ite_keeps (P := P))
    | (with_reducible apply when_keeps (P := P))
    | (with_reducible apply foldl_keeps (P := P))
    | (refine fun (t : State) (ht : P t) => ?_)
    | (refine fun (_ : _) (t : State) (ht : P t) => ?_)
    | (with_reducible intro t; first | (refine (fun (ht : P t) => ?_) (?_ : P t); rotate_left; subst t; rotate_right; clear_value t) | skip | skip)
    | lift_lets -underBinder
    | split
    | (with_reducible apply pUdx)

theorem State.drainTry_keeps {P : State → Prop} (h : Stable [.out, .ctr, .nv, .pw, .notify, .sc, .ss, .tm, .fb, .sl, .dx, .journal, .ev] P) (s : State) (a1 : _) (a2 : _) (hs : P s) : P (State.drainTry s a1 a2) := by
  have k1 := @State.askPeer_keeps P (h.mono rfl)
  have k2 := @State.backToPrior_keeps P (h.mono rfl)
  have k3 := @State.drainFar_keeps P (h.mono rfl)
  have pUpw := h.pw rfl
  unfold State.drainTry
  repeat'
    first
    | with_reducible assumption
    | rfl
    | (with_reducible apply k1)
    | (with_reducible apply k2)
    | (with_reducible apply k3)
    | (with_reducible refine pUpw _ _ (by dsimp only [Power.rest]) (by with_reducible assumption))
    | (with_reducible apply ite_keeps (P := P))
    | (with_reducible apply when_keeps (P := P))
    | (with_reducible apply foldl_keeps (P := P))
    | (refine fun (t : State) (ht : P t) => ?_)
    | (refine fun (_ : _) (t : State) (ht : P t) => ?_)
    | (with_reducible intro t; first | (refine (fun (ht : P t) => ?_) (?_ : P t); rotate_left; subst t; rotate_right; clear_value t) | skip | skip)
    | lift_lets -underBinder
    | split
    | (with_reducible apply pUpw)

theorem State.drainFlush_keeps {P : State → Prop} (h : Stable [.out, .ctr, .pwAny, .sl, .ev] P) (s : State) (hs : P s) : P (State.drainFlush s) := by
  have k1 := @State.txFlush_keeps P (h.mono rfl)
  have pUpwAny := h.pwAny rfl
  unfold State.drainFlush
  repeat'
    first
    | ((with_reducible apply PwSide.mk); first | exact id | (dsimp only at *; omega))
    | with_reducible assumption
    | rfl
    | (with_reducible apply k1)
    | (with_reducible apply ite_keeps (P := P))
    | (with_reducible apply each_keeps (P := P))
    | (with_reducible apply foldl_keeps (P := P))
    | (refine fun (t : State) (ht : P t) => ?_)
    | (refine fun (_ : _) (t : State) (ht : P t) => ?_)
    | (with_reducible intro t; first | (refine (fun (ht : P t) => ?_) (?_ : P t); rotate_left; subst t; rotate_right; clear_value t) | skip | skip)
    | lift_lets -underBinder
    | split
    | (with_reducible apply pUpwAny)

theorem State.drainPump_keeps {P : State → Prop} (h : Stable [.out, .ctr, .nv, .pw, .pwAny, .notify, .sc, .ss, .tm, .fb, .sl, .dx, .journal, .ev] P) (s : State) (hs : P s) : P (State.drainPump s) := by
  have k1 := @State.drainFlush_keeps P (h.mono rfl)
  have k2 := @State.drainTry_keeps P (h.mono rfl)
  have pUpwAny := h.pwAny rfl
  unfold State.drainPump
  repeat'
    first
    | ((with_reducible apply PwSide.mk); first | exact id | (dsimp only at *; omega))
    | with_reducible assumption
    | rfl
    | (with_reducible apply k1)
    | (with_reducible apply k2)
    | (with_reducible apply ite_keeps (P := P))
    | (with_reducible apply each_keeps (P := P))
    | (with_reducible apply foldl_keeps (P := P))
    | (refine fun (t : State) (ht : P t) => ?_)
    | (refine fun (_ : _) (t : State) (ht : P t) => ?_)
    | (with_reducible intro t; first | (refine (fun (ht : P t) => ?_) (?_ : P t); rotate_left; subst t; rotate_right; clear_value t) | skip | skip)
    | lift_lets -underBinder
    | split
    | (with_reducible apply pUpwAny)

theorem State.finishExport_keeps {P : State → Prop} (h : Stable [.out, .ctr, .nv, .pw, .notify, .sc, .ss, .tm, .fb, .sl, .ev] P) (s : State) (a1 : _) (a2 : _) (hs : P s) : P (State.finishExport s a1 a2) := by
  have k1 := @State.unsolicited_keeps P (h.mono rfl)
  have k2 := @State.freeSlotOf_keeps P (h.mono rfl)
  have k3 := @State.freeAll_keeps P (h.mono rfl)
  have pUpw := h.pw rfl
  unfold State.finishExport
  repeat'
    first
    | with_reducible assumption
    | rfl
    | (with_reducible apply k1)
    | (with_reducible apply k2)
    | (with_reducible apply k3)
    | (with_reducible refine pUpw _ _ (by dsimp only [Power.rest]) (by with_reducible assumption))
    | (with_reducible apply ite_keeps (P := P))
    | (with_reducible apply foldl_keeps (P := P))
    | (refine fun (t : State) (ht : P t) => ?_)
    | (refine fun (_ : _) (t : State) (ht : P t) => ?_)
    | (with_reducible intro t; first | (refine (fun (ht : P t) => ?_) (?_ : P t); rotate_left; subst t; rotate_right; clear_value t) | skip | skip)
    | lift_lets -underBinder
    | split
    | (with_reducible apply pUpw)

theorem State.exportFail_keeps {P : State → Prop} (h : Stable [.pw, .ss, .tm, .ev] P) (s : State) (a1 : _) (hs : P s) : P (State.exportFail s a1) := by
  have k1 := @State.backToPrior_keeps P (h.mono rfl)
  have pUpw := h.pw rfl
  unfold State.exportFail
  repeat'
    first
    | with_reducible assumption
    | rfl
    | (with_reducible apply k1)
    | (with_reducible refine pUpw _ _ (by dsimp only [Power.rest]) (by with_reducible assumption))
    | (with_reducible apply ite_keeps (P := P))
    | (with_reducible apply foldl_keeps (P := P))
    | (refine fun (t : State) (ht : P t) => ?_)
    | (refine fun (_ : _) (t : State) (ht : P t) => ?_)
    | (with_reducible intro t; first | (refine (fun (ht : P t) => ?_) (?_ : P t); rotate_left; subst t; rotate_right; clear_value t) | skip | skip)
    | lift_lets -underBinder
    | split
    | (with_reducible apply pUpw)

theorem execSessionMoveComplete_keeps {P : State → Prop} (h : Stable [.out, .ctr, .nv, .pw, .pwAny, .notify, .sc, .ss, .tm, .fb, .sl, .dx, .ck, .journal, .ev] P) (a0 : _) (a1 : _) (s : State) (hs : P (s.at a0)) : OkX P (execSessionMoveComplete a0 a1 s) := by
  have k1 := @State.exportFail_keeps P (h.mono rfl)
  have k2 := @State.finishExport_keeps P (h.mono rfl)
  have k3 := @State.finishMove_keeps P (h.mono rfl)
  have k4 := @State.issueMoves_keeps P (h.mono rfl)
  have k5 := @State.setSess_keeps P (h.mono rfl)
  have k6 := @State.drainPump_keeps P (h.mono rfl)
  have k7 := @State.ckptAdvance_keeps P (h.mono rfl)
  unfold execSessionMoveComplete
  repeat'
    first
    | with_reducible assumption
    | rfl
    | (refine run_keeps ?_ (by assumption))
    | (with_reducible apply k1)
    | (with_reducible apply k2)
    | (with_reducible apply k3)
    | (with_reducible apply k4)
    | (with_reducible apply k5)
    | (with_reducible apply k6)
    | (with_reducible apply k7)
    | (with_reducible apply ite_keeps (P := P))
    | (with_reducible apply foldl_keeps (P := P))
    | (refine fun (t : State) (ht : P t) => ?_)
    | (refine fun (_ : _) (t : State) (ht : P t) => ?_)
    | (with_reducible intro t; first | (refine (fun (ht : P t) => ?_) (?_ : P t); rotate_left; subst t; rotate_right; clear_value t) | skip | skip)
    | lift_lets -underBinder
    | split

theorem State.sendPages_keeps {P : State → Prop} (h : Stable [.out, .ctr, .nv, .sc, .tm, .dx, .ev] P) (s : State) (a1 : _) (a2 : _) (hs : P s) : P (State.sendPages s a1 a2) := by
  have k1 := @State.written_keeps P (h.mono rfl)
  have k2 := @State.sendMsg_keeps P (h.mono rfl)
  have pEv := h.ev rfl
  unfold State.sendPages
  repeat'
    first
    | with_reducible assumption
    | rfl
    | (with_reducible apply k1)
    | (with_reducible apply k2)
    | (with_reducible apply pEv)
    | (with_reducible apply iteP_keeps (P := P))
    | (with_reducible apply ite_keeps (P := P))
    | (with_reducible apply each_keeps (P := P))
    | (with_reducible apply foldl_keeps (P := P))
    | (with_reducible apply foldP_keeps (P := P))
    | (refine OkP.get (P := P) (by with_reducible assumption) ?_)
    | (with_reducible apply OkP.snd (P := P))
    | (refine fun (t : State) (ht : P t) => ?_)
    | (refine fun (_ : _) (t : State) (ht : P t) => ?_)
    | (with_reducible intro t; first | (refine (fun (ht : P t) => ?_) (?_ : P t); rotate_left; subst t; rotate_right; clear_value t) | skip | skip)
    | lift_lets -underBinder
    | split
    | (with_reducible apply OkP.mk (P := P))

theorem State.dropOut_keeps {P : State → Prop} (h : Stable [.ss, .tm, .dx, .ev] P) (s : State) (a1 : _) (hs : P s) : P (State.dropOut s a1) := by
  have k1 := @State.backToPrior_keeps P (h.mono rfl)
  have pUdx := h.dx rfl
  unfold State.dropOut
  repeat'
    first
    | with_reducible assumption
    | rfl
    | (with_reducible apply k1)
    | (with_reducible refine pUdx _ _ (by with_reducible assumption))
    | (with_reducible apply ite_keeps (P := P))
    | (with_reducible apply when_keeps (P := P))
    | (with_reducible apply foldl_keeps (P := P))
    | (refine fun (t : State) (ht : P t) => ?_)
    | (refine fun (_ : _) (t : State) (ht : P t) => ?_)
    | (with_reducible intro t; first | (refine (fun (ht : P t) => ?_) (?_ : P t); rotate_left; subst t; rotate_right; clear_value t) | skip | skip)
    | lift_lets -underBinder
    | split
    | (with_reducible apply pUdx)

theorem execMigrateReply_keeps {P : State → Prop} (h : Stable [.out, .ctr, .nv, .pw, .notify, .sc, .ss, .tm, .fb, .sl, .dx, .journal, .ev] P) (a0 : _) (a1 : _) (s : State) (hs : P (s.at a0)) : OkX P (execMigrateReply a0 a1 s) := by
  have k1 := @State.arrive_keeps P (h.mono rfl)
  have k2 := @State.sendPages_keeps P (h.mono rfl)
  have k3 := @State.dropOut_keeps P (h.mono rfl)
  have k4 := @State.drainTry_keeps P (h.mono rfl)
  have pUdx := h.dx rfl
  unfold execMigrateReply
  repeat'
    first
    | with_reducible assumption
    | rfl
    | (refine run_keeps ?_ (by assumption))
    | (with_reducible apply k1)
    | (with_reducible apply k2)
    | (with_reducible apply k3)
    | (with_reducible apply k4)
    | (with_reducible refine pUdx _ _ (by with_reducible assumption))
    | (with_reducible apply ite_keeps (P := P))
    | (with_reducible apply foldl_keeps (P := P))
    | (refine fun (t : State) (ht : P t) => ?_)
    | (refine fun (_ : _) (t : State) (ht : P t) => ?_)
    | (with_reducible intro t; first | (refine (fun (ht : P t) => ?_) (?_ : P t); rotate_left; subst t; rotate_right; clear_value t) | skip | skip)
    | lift_lets -underBinder
    | split
    | (with_reducible apply pUdx)

theorem execMigrateCommitAck_keeps {P : State → Prop} (h : Stable [.out, .ctr, .nv, .pw, .pwAny, .notify, .sc, .ss, .tm, .fb, .sl, .dx, .journal, .ev] P) (a0 : _) (a1 : _) (a2 : _) (s : State) (hs : P (s.at a0)) : OkX P (execMigrateCommitAck a0 a1 a2 s) := by
  have k1 := @State.arrive_keeps P (h.mono rfl)
  have k2 := @State.drainPump_keeps P (h.mono rfl)
  have k3 := @State.freeSlotOf_keeps P (h.mono rfl)
  have k4 := @State.freeAll_keeps P (h.mono rfl)
  have k5 := @State.sendPages_keeps P (h.mono rfl)
  have pUdx := h.dx rfl
  unfold execMigrateCommitAck
  repeat'
    first
    | with_reducible assumption
    | rfl
    | (refine run_keeps ?_ (by assumption))
    | (with_reducible apply k1)
    | (with_reducible apply k2)
    | (with_reducible apply k3)
    | (with_reducible apply k4)
    | (with_reducible apply k5)
    | (with_reducible refine pUdx _ _ (by with_reducible assumption))
    | (with_reducible apply ite_keeps (P := P))
    | (with_reducible apply foldl_keeps (P := P))
    | (refine fun (t : State) (ht : P t) => ?_)
    | (refine fun (_ : _) (t : State) (ht : P t) => ?_)
    | (with_reducible intro t; first | (refine (fun (ht : P t) => ?_) (?_ : P t); rotate_left; subst t; rotate_right; clear_value t) | skip | skip)
    | lift_lets -underBinder
    | split
    | (with_reducible apply pUdx)

theorem State.setMigIn_keeps {P : State → Prop} (h : Stable [.dx] P) (s : State) (a1 : _) (hs : P s) : P (State.setMigIn s a1) := by
  have pUdx := h.dx rfl
  unfold State.setMigIn
  repeat'
    first
    | with_reducible assumption
    | rfl
    | (with_reducible refine pUdx _ _ (by with_reducible assumption))
    | (with_reducible apply ite_keeps (P := P))
    | (with_reducible apply foldl_keeps (P := P))
    | (refine fun (t : State) (ht : P t) => ?_)
    | (refine fun (_ : _) (t : State) (ht : P t) => ?_)
    | (with_reducible intro t; first | (refine (fun (ht : P t) => ?_) (?_ : P t); rotate_left; subst t; rotate_right; clear_value t) | skip | skip)
    | lift_lets -underBinder
    | split
    | (with_reducible apply pUdx)

theorem State.reserveFor_keeps {P : State → Prop} (h : Stable [.ctr, .notify, .tm, .ev] P) (s : State) (a1 : _) (a2 : _) (a3 : _) (hs : P s) : OkOP P (State.reserveFor s a1 a2 a3) := by
  have k1 := @State.takeFrame_keeps P (h.mono rfl)
  have k2 := @State.takeFar_keeps P (h.mono rfl)
  unfold State.reserveFor
  repeat'
    first
    | with_reducible assumption
    | rfl
    | (with_reducible apply k1)
    | (with_reducible apply k2)
    | (with_reducible apply OkOpt.some)
    | (with_reducible apply OkOpt.none)
    | (with_reducible apply iteOpt_keeps)
    | (with_reducible apply OkOpt.map)
    | (with_reducible apply OkOpt.bind)
    | (with_reducible apply OkOpt.find)
    | (with_reducible apply OkOpt.fold)
    | (with_reducible apply OkOpt.getD (P := P))
    | (with_reducible apply ite_keeps (P := P))
    | (with_reducible apply foldl_keeps (P := P))
    | (refine OkO.get (P := P) (by with_reducible assumption) ?_)
    | (refine OkOP.get (P := P) (by with_reducible assumption) ?_)
    | (refine OkOPP.get (P := P) (by with_reducible assumption) ?_)
    | (refine fun (t : State) (ht : P t) => ?_)
    | (refine fun (_ : _) (t : State) (ht : P t) => ?_)
    | (with_reducible intro t; first | (refine (fun (ht : P t) => ?_) (?_ : P t); rotate_left; subst t; rotate_right; clear_value t) | skip | skip)
    | lift_lets -underBinder
    | split
    | exact OkOpt.any

theorem State.reserveFail_keeps {P : State → Prop} (h : Stable [.dx] P) (s : State) (a1 : _) (a2 : _) (a3 : _) (hs : P s) : P (State.reserveFail s a1 a2 a3) := by
  have k1 := @State.setMigIn_keeps P (h.mono rfl)
  unfold State.reserveFail
  repeat'
    first
    | with_reducible assumption
    | rfl
    | (with_reducible apply k1)
    | (with_reducible apply ite_keeps (P := P))
    | (with_reducible apply foldl_keeps (P := P))
    | (refine fun (t : State) (ht : P t) => ?_)
    | (refine fun (_ : _) (t : State) (ht : P t) => ?_)
    | (with_reducible intro t; first | (refine (fun (ht : P t) => ?_) (?_ : P t); rotate_left; subst t; rotate_right; clear_value t) | skip | skip)
    | lift_lets -underBinder
    | split

theorem State.migReply_keeps {P : State → Prop} (h : Stable [.out, .ctr, .nv, .dx, .ev] P) (s : State) (a1 : _) (a2 : _) (hs : P s) : P (State.migReply s a1 a2) := by
  have k1 := @State.sendMsg_keeps P (h.mono rfl)
  unfold State.migReply
  repeat'
    first
    | with_reducible assumption
    | rfl
    | (with_reducible apply k1)
    | (with_reducible apply ite_keeps (P := P))
    | (with_reducible apply foldl_keeps (P := P))
    | (refine fun (t : State) (ht : P t) => ?_)
    | (refine fun (_ : _) (t : State) (ht : P t) => ?_)
    | (with_reducible intro t; first | (refine (fun (ht : P t) => ?_) (?_ : P t); rotate_left; subst t; rotate_right; clear_value t) | skip | skip)
    | lift_lets -underBinder
    | split

theorem execMigrateReserve_keeps {P : State → Prop} (h : Stable [.out, .ctr, .nv, .notify, .tm, .dx, .journal, .ev] P) (a0 : _) (a1 : _) (a2 : _) (s : State) (hs : P (s.at a0)) : OkX P (execMigrateReserve a0 a1 a2 s) := by
  have k1 := @State.arrive_keeps P (h.mono rfl)
  have k2 := @State.migReply_keeps P (h.mono rfl)
  have k3 := @State.reserveFail_keeps P (h.mono rfl)
  have k4 := @State.reserveFor_keeps P (h.mono rfl)
  have k5 := @State.setMigIn_keeps P (h.mono rfl)
  unfold execMigrateReserve
  repeat'
    first
    | with_reducible assumption
    | rfl
    | (refine run_keeps ?_ (by assumption))
    | (with_reducible apply k1)
    | (with_reducible apply k2)
    | (with_reducible apply k3)
    | (with_reducible apply k4)
    | (with_reducible apply k5)
    | (with_reducible apply OkOpt.some)
    | (with_reducible apply OkOpt.none)
    | (with_reducible apply iteOpt_keeps)
    | (with_reducible apply OkOpt.map)
    | (with_reducible apply OkOpt.bind)
    | (with_reducible apply OkOpt.find)
    | (with_reducible apply OkOpt.fold)
    | (with_reducible apply OkOpt.getD (P := P))
    | (with_reducible apply ite_keeps (P := P))
    | (with_reducible apply foldl_keeps (P := P))
    | (refine OkO.get (P := P) (by with_reducible assumption) ?_)
    | (refine OkOP.get (P := P) (by with_reducible assumption) ?_)
    | (refine OkOPP.get (P := P) (by with_reducible assumption) ?_)
    | (refine fun (t : State) (ht : P t) => ?_)
    | (refine fun (_ : _) (t : State) (ht : P t) => ?_)
    | (with_reducible intro t; first | (refine (fun (ht : P t) => ?_) (?_ : P t); rotate_left; subst t; rotate_right; clear_value t) | subst t | skip)
    | lift_lets -underBinder
    | split
    | exact OkOpt.any

theorem State.pageBad_keeps {P : State → Prop} (h : Stable [.ctr, .notify, .journal, .ev] P) (s : State) (a1 : _) (hs : P s) : P (State.pageBad s a1) := by
  have pInc := h.ctrInc rfl
  have pEv := h.ev rfl
  have pNotify := h.notify rfl
  have pJournal := h.journal rfl
  unfold State.pageBad
  repeat'
    first
    | with_reducible assumption
    | rfl
    | (with_reducible apply pInc)
    | (with_reducible apply pEv)
    | (with_reducible apply pNotify)
    | (with_reducible apply pJournal)
    | (with_reducible apply ite_keeps (P := P))
    | (with_reducible apply foldl_keeps (P := P))
    | (refine fun (t : State) (ht : P t) => ?_)
    | (refine fun (_ : _) (t : State) (ht : P t) => ?_)
    | (with_reducible intro t; first | (refine (fun (ht : P t) => ?_) (?_ : P t); rotate_left; subst t; rotate_right; clear_value t) | skip | skip)
    | lift_lets -underBinder
    | split

theorem execPageData_keeps {P : State → Prop} (h : Stable [.ctr, .notify, .dx, .journal, .ev] P) (a0 : _) (a1 : _) (a2 : _) (s : State) (hs : P (s.at a0)) : OkX P (execPageData a0 a1 a2 s) := by
  have k1 := @State.arrive_keeps P (h.mono rfl)
  have k2 := @State.pageBad_keeps P (h.mono rfl)
  have k3 := @State.setMigIn_keeps P (h.mono rfl)
  have pEv := h.ev rfl
  unfold execPageData
  repeat'
    first
    | with_reducible assumption
    | rfl
    | (refine run_keeps ?_ (by assumption))
    | (with_reducible apply k1)
    | (with_reducible apply k2)
    | (with_reducible apply k3)
    | (with_reducible apply pEv)
    | (with_reducible apply ite_keeps (P := P))
    | (with_reducible apply foldl_keeps (P := P))
    | (refine fun (t : State) (ht : P t) => ?_)
    | (refine fun (_ : _) (t : State) (ht : P t) => ?_)
    | (with_reducible intro t; first | (refine (fun (ht : P t) => ?_) (?_ : P t); rotate_left; subst t; rotate_right; clear_value t) | skip | skip)
    | lift_lets -underBinder
    | split

theorem State.unreserve_keeps {P : State → Prop} (h : Stable [.tm] P) (s : State) (a1 : _) (a2 : _) (hs : P s) : P (State.unreserve s a1 a2) := by
  have k1 := @State.freeFrame_keeps P (h.mono rfl)
  have k2 := @State.freeFar_keeps P (h.mono rfl)
  unfold State.unreserve
  repeat'
    first
    | with_reducible assumption
    | rfl
    | (with_reducible apply k1)
    | (with_reducible apply k2)
    | (with_reducible apply ite_keeps (P := P))
    | (with_reducible apply foldl_keeps (P := P))
    | (refine fun (t : State) (ht : P t) => ?_)
    | (refine fun (_ : _) (t : State) (ht : P t) => ?_)
    | (with_reducible intro t; first | (refine (fun (ht : P t) => ?_) (?_ : P t); rotate_left; subst t; rotate_right; clear_value t) | skip | skip)
    | lift_lets -underBinder
    | split

theorem State.landPage_keeps {P : State → Prop} (h : Stable [.out, .ctr, .ss, .sl, .ev] P) (s : State) (a1 : _) (a2 : _) (a3 : _) (hs : P s) : P (State.landPage s a1 a2 a3) := by
  have k1 := @State.setPage_keeps P (h.mono rfl)
  have k2 := @State.txWrite_keeps P (h.mono rfl)
  unfold State.landPage
  repeat'
    first
    | with_reducible assumption
    | rfl
    | (with_reducible apply k1)
    | (with_reducible apply k2)
    | (with_reducible apply ite_keeps (P := P))
    | (with_reducible apply when_keeps (P := P))
    | (with_reducible apply foldl_keeps (P := P))
    | (refine fun (t : State) (ht : P t) => ?_)
    | (refine fun (_ : _) (t : State) (ht : P t) => ?_)
    | (with_reducible intro t; first | (refine (fun (ht : P t) => ?_) (?_ : P t); rotate_left; subst t; rotate_right; clear_value t) | skip | skip)
    | lift_lets -underBinder
    | split

theorem State.landMigration_keeps {P : State → Prop} (h : Stable [.out, .ctr, .ss, .tm, .sl, .ev] P) (s : State) (a1 : _) (a2 : _) (a3 : _) (a4 : _) (hs : P s) : P (State.landMigration s a1 a2 a3 a4) := by
  have k1 := @State.setSess_keeps P (h.mono rfl)
  have k2 := @State.setPage_keeps P (h.mono rfl)
  have k3 := @State.landPage_keeps P (h.mono rfl)
  have k4 := @State.evS_keeps P (h.mono rfl)
  have k5 := @State.unreserve_keeps P (h.mono rfl)
  unfold State.landMigration
  repeat'
    first
    | with_reducible assumption
    | rfl
    | (with_reducible apply k1)
    | (with_reducible apply k2)
    | (with_reducible apply k3)
    | (with_reducible apply k4)
    | (with_reducible apply k5)
    | (with_reducible apply ite_keeps (P := P))
    | (with_reducible apply each_keeps (P := P))
    | (with_reducible apply when_keeps (P := P))
    | (with_reducible apply foldl_keeps (P := P))
    | (refine fun (t : State) (ht : P t) => ?_)
    | (refine fun (_ : _) (t : State) (ht : P t) => ?_)
    | (with_reducible intro t; first | (refine (fun (ht : P t) => ?_) (?_ : P t); rotate_left; subst t; rotate_right; clear_value t) | skip | skip)
    | lift_lets -underBinder
    | split

theorem State.commitReply_keeps {P : State → Prop} (h : Stable [.out, .ctr, .nv, .dx, .ev] P) (s : State) (a1 : _) (a2 : _) (a3 : _) (hs : P s) : P (State.commitReply s a1 a2 a3) := by
  have k1 := @State.sendMsg_keeps P (h.mono rfl)
  unfold State.commitReply
  repeat'
    first
    | with_reducible assumption
    | rfl
    | (with_reducible apply k1)
    | (with_reducible apply ite_keeps (P := P))
    | (with_reducible apply foldl_keeps (P := P))
    | (refine fun (t : State) (ht : P t) => ?_)
    | (refine fun (_ : _) (t : State) (ht : P t) => ?_)
    | (with_reducible intro t; first | (refine (fun (ht : P t) => ?_) (?_ : P t); rotate_left; subst t; rotate_right; clear_value t) | skip | skip)
    | lift_lets -underBinder
    | split

theorem execMigrateCommit_keeps {P : State → Prop} (h : Stable [.out, .ctr, .nv, .notify, .ss, .tm, .sl, .dx, .journal, .ev] P) (a0 : _) (a1 : _) (a2 : _) (a3 : _) (s : State) (hs : P (s.at a0)) : OkX P (execMigrateCommit a0 a1 a2 a3 s) := by
  have k1 := @State.arrive_keeps P (h.mono rfl)
  have k2 := @State.commitReply_keeps P (h.mono rfl)
  have k3 := @State.setMigIn_keeps P (h.mono rfl)
  have k4 := @State.landMigration_keeps P (h.mono rfl)
  have k5 := @State.unsolicited_keeps P (h.mono rfl)
  have k6 := @State.evS_keeps P (h.mono rfl)
  unfold execMigrateCommit
  repeat'
    first
    | with_reducible assumption
    | rfl
    | (refine run_keeps ?_ (by assumption))
    | (with_reducible apply k1)
    | (with_reducible apply k2)
    | (with_reducible apply k3)
    | (with_reducible apply k4)
    | (with_reducible apply k5)
    | (with_reducible apply k6)
    | (with_reducible apply ite_keeps (P := P))
    | (with_reducible apply foldl_keeps (P := P))
    | (refine fun (t : State) (ht : P t) => ?_)
    | (refine fun (_ : _) (t : State) (ht : P t) => ?_)
    | (with_reducible intro t; first | (refine (fun (ht : P t) => ?_) (?_ : P t); rotate_left; subst t; rotate_right; clear_value t) | subst t | skip)
    | lift_lets -underBinder
    | split

theorem State.dropIn_keeps {P : State → Prop} (h : Stable [.tm, .dx] P) (s : State) (a1 : _) (hs : P s) : P (State.dropIn s a1) := by
  have k1 := @State.unreserve_keeps P (h.mono rfl)
  have pUdx := h.dx rfl
  unfold State.dropIn
  repeat'
    first
    | with_reducible assumption
    | rfl
    | (with_reducible apply k1)
    | (with_reducible refine pUdx _ _ (by with_reducible assumption))
    | (with_reducible apply ite_keeps (P := P))
    | (with_reducible apply each_keeps (P := P))
    | (with_reducible apply foldl_keeps (P := P))
    | (refine fun (t : State) (ht : P t) => ?_)
    | (refine fun (_ : _) (t : State) (ht : P t) => ?_)
    | (with_reducible intro t; first | (refine (fun (ht : P t) => ?_) (?_ : P t); rotate_left; subst t; rotate_right; clear_value t) | skip | skip)
    | lift_lets -underBinder
    | split
    | (with_reducible apply pUdx)

theorem execMigrationTimeout_keeps {P : State → Prop} (h : Stable [.out, .ctr, .nv, .pw, .notify, .sc, .ss, .tm, .fb, .sl, .dx, .journal, .ev] P) (a0 : _) (a1 : _) (a2 : _) (s : State) (hs : P (s.at a0)) : OkX P (execMigrationTimeout a0 a1 a2 s) := by
  have k1 := @State.dropOut_keeps P (h.mono rfl)
  have k2 := @State.drainTry_keeps P (h.mono rfl)
  have k3 := @State.dropIn_keeps P (h.mono rfl)
  unfold execMigrationTimeout
  repeat'
    first
    | with_reducible assumption
    | rfl
    | (refine run_keeps ?_ (by assumption))
    | (with_reducible apply k1)
    | (with_reducible apply k2)
    | (with_reducible apply k3)
    | (with_reducible apply ite_keeps (P := P))
    | (with_reducible apply foldl_keeps (P := P))
    | (refine fun (t : State) (ht : P t) => ?_)
    | (refine fun (_ : _) (t : State) (ht : P t) => ?_)
    | (with_reducible intro t; first | (refine (fun (ht : P t) => ?_) (?_ : P t); rotate_left; subst t; rotate_right; clear_value t) | clear_value t | skip)
    | lift_lets -underBinder
    | split

theorem migrationsLose_keeps {P : State → Prop} (h : Stable [.out, .ctr, .nv, .pw, .pwAny, .notify, .sc, .ss, .tm, .fb, .sl, .dx, .journal, .ev] P) (a0 : _) (s : State) (hs : P s) : P (migrationsLose a0 s) := by
  have k1 := @State.dropOut_keeps P (h.mono rfl)
  have k2 := @State.drainPump_keeps P (h.mono rfl)
  have k3 := @State.dropIn_keeps P (h.mono rfl)
  unfold migrationsLose
  repeat'
    first
    | with_reducible assumption
    | rfl
    | (with_reducible apply k1)
    | (with_reducible apply k2)
    | (with_reducible apply k3)
    | (with_reducible apply ite_keeps (P := P))
    | (with_reducible apply each_keeps (P := P))
    | (with_reducible apply foldl_keeps (P := P))
    | (refine fun (t : State) (ht : P t) => ?_)
    | (refine fun (_ : _) (t : State) (ht : P t) => ?_)
    | (with_reducible intro t; first | (refine (fun (ht : P t) => ?_) (?_ : P t); rotate_left; subst t; rotate_right; clear_value t) | skip | skip)
    | lift_lets -underBinder
    | split

end Sys2Proof.Machine
end

