-- ==== Sys2Proof/Laws/KeepsDefine.lean ====
section
/-! SUPPORT. What the operations of Machine/Define.lean can do to the state (`Laws/Keeps.lean`): one lemma per operation. -/

set_option linter.all false

namespace Sys2Proof.Machine

open Sys2Proof

theorem State.imageLoaded_keeps {P : State → Prop} (h : Stable [.ev] P) (s : State) (a1 : _) (a2 : _) (hs : P s) : P (State.imageLoaded s a1 a2) := by
  have pEv := h.ev rfl
  unfold State.imageLoaded
  repeat'
    first
    | with_reducible assumption
    | rfl
    | (with_reducible apply pEv)
    | (with_reducible apply ite_keeps (P := P))
    | (with_reducible apply each_keeps (P := P))
    | (with_reducible apply foldl_keeps (P := P))
    | (refine fun (t : State) (ht : P t) => ?_)
    | (refine fun (_ : _) (t : State) (ht : P t) => ?_)
    | (with_reducible intro t; first | (refine (fun (ht : P t) => ?_) (?_ : P t); rotate_left; subst t; rotate_right; clear_value t) | skip | skip)
    | lift_lets -underBinder
    | split

theorem State.vocabUnload_keeps {P : State → Prop} (h : Stable [.out, .ctr, .notify, .ss, .tx, .sl, .ev] P) (s : State) (a1 : _) (a2 : _) (hs : P s) : P (State.vocabUnload s a1 a2) := by
  have k1 := @State.endDrun_keeps P (h.mono rfl)
  have pUtx := h.tx rfl
  unfold State.vocabUnload
  repeat'
    first
    | with_reducible assumption
    | rfl
    | (with_reducible apply k1)
    | (with_reducible refine pUtx _ _ (by with_reducible assumption))
    | (with_reducible apply ite_keeps (P := P))
    | (with_reducible apply foldl_keeps (P := P))
    | (refine fun (t : State) (ht : P t) => ?_)
    | (refine fun (_ : _) (t : State) (ht : P t) => ?_)
    | (with_reducible intro t; first | (refine (fun (ht : P t) => ?_) (?_ : P t); rotate_left; subst t; rotate_right; clear_value t) | skip | skip)
    | lift_lets -underBinder
    | split
    | (with_reducible apply pUtx)

theorem State.vocabLoad_keeps {P : State → Prop} (h : Stable [.out, .ctr, .notify, .ss, .tx, .sl, .ev] P) (s : State) (a1 : _) (a2 : _) (a3 : _) (hs : P s) : P (State.vocabLoad s a1 a2 a3) := by
  have k1 := @State.endDrun_keeps P (h.mono rfl)
  have k2 := @State.vocabUnload_keeps P (h.mono rfl)
  have k3 := @State.imageLoaded_keeps P (h.mono rfl)
  have pUtx := h.tx rfl
  unfold State.vocabLoad
  repeat'
    first
    | with_reducible assumption
    | rfl
    | (with_reducible apply k1)
    | (with_reducible apply k2)
    | (with_reducible apply k3)
    | (with_reducible refine pUtx _ _ (by with_reducible assumption))
    | (with_reducible apply ite_keeps (P := P))
    | (with_reducible apply foldl_keeps (P := P))
    | (refine fun (t : State) (ht : P t) => ?_)
    | (refine fun (_ : _) (t : State) (ht : P t) => ?_)
    | (with_reducible intro t; first | (refine (fun (ht : P t) => ?_) (?_ : P t); rotate_left; subst t; rotate_right; clear_value t) | skip | skip)
    | lift_lets -underBinder
    | split
    | (with_reducible apply pUtx)

theorem State.grammarLoad_keeps {P : State → Prop} (h : Stable [.out, .ctr, .notify, .ss, .tx, .sl, .ev] P) (s : State) (a1 : _) (a2 : _) (a3 : _) (hs : P s) : P (State.grammarLoad s a1 a2 a3) := by
  have k1 := @State.endDrun_keeps P (h.mono rfl)
  have k2 := @State.imageLoaded_keeps P (h.mono rfl)
  have pUtx := h.tx rfl
  unfold State.grammarLoad
  repeat'
    first
    | with_reducible assumption
    | rfl
    | (with_reducible apply k1)
    | (with_reducible apply k2)
    | (with_reducible refine pUtx _ _ (by with_reducible assumption))
    | (with_reducible apply ite_keeps (P := P))
    | (with_reducible apply foldl_keeps (P := P))
    | (refine fun (t : State) (ht : P t) => ?_)
    | (refine fun (_ : _) (t : State) (ht : P t) => ?_)
    | (with_reducible intro t; first | (refine (fun (ht : P t) => ?_) (?_ : P t); rotate_left; subst t; rotate_right; clear_value t) | skip | skip)
    | lift_lets -underBinder
    | split
    | (with_reducible apply pUtx)

theorem State.stopDefine_keeps {P : State → Prop} (h : Stable [.out, .ctr, .notify, .ss, .tx, .sl, .ev] P) (s : State) (a1 : _) (a2 : _) (a3 : _) (hs : P s) : P (State.stopDefine s a1 a2 a3) := by
  have k1 := @State.endDrun_keeps P (h.mono rfl)
  have pUtx := h.tx rfl
  unfold State.stopDefine
  repeat'
    first
    | with_reducible assumption
    | rfl
    | (with_reducible apply k1)
    | (with_reducible refine pUtx _ _ (by with_reducible assumption))
    | (with_reducible apply ite_keeps (P := P))
    | (with_reducible apply foldl_keeps (P := P))
    | (refine fun (t : State) (ht : P t) => ?_)
    | (refine fun (_ : _) (t : State) (ht : P t) => ?_)
    | (with_reducible intro t; first | (refine (fun (ht : P t) => ?_) (?_ : P t); rotate_left; subst t; rotate_right; clear_value t) | skip | skip)
    | lift_lets -underBinder
    | split
    | (with_reducible apply pUtx)

theorem State.profDefine_keeps {P : State → Prop} (h : Stable [.out, .ctr, .notify, .ss, .tx, .sl, .ev] P) (s : State) (a1 : _) (a2 : _) (a3 : _) (hs : P s) : P (State.profDefine s a1 a2 a3) := by
  have k1 := @State.endDrun_keeps P (h.mono rfl)
  have pUtx := h.tx rfl
  unfold State.profDefine
  repeat'
    first
    | with_reducible assumption
    | rfl
    | (with_reducible apply k1)
    | (with_reducible refine pUtx _ _ (by with_reducible assumption))
    | (with_reducible apply ite_keeps (P := P))
    | (with_reducible apply foldl_keeps (P := P))
    | (refine fun (t : State) (ht : P t) => ?_)
    | (refine fun (_ : _) (t : State) (ht : P t) => ?_)
    | (with_reducible intro t; first | (refine (fun (ht : P t) => ?_) (?_ : P t); rotate_left; subst t; rotate_right; clear_value t) | skip | skip)
    | lift_lets -underBinder
    | split
    | (with_reducible apply pUtx)

theorem newDefinitions_keeps {P : State → Prop} (h : Stable [.ctr, .ss, .tx, .ev] P) (s : State) (hs : P s) : P (newDefinitions s) := by
  have k1 := @State.resetGrammar_keeps P (h.mono rfl)
  have pUtx := h.tx rfl
  unfold newDefinitions
  repeat'
    first
    | with_reducible assumption
    | rfl
    | (with_reducible apply k1)
    | (with_reducible refine pUtx _ _ (by with_reducible assumption))
    | (with_reducible apply ite_keeps (P := P))
    | (with_reducible apply each_keeps (P := P))
    | (with_reducible apply foldl_keeps (P := P))
    | (refine fun (t : State) (ht : P t) => ?_)
    | (refine fun (_ : _) (t : State) (ht : P t) => ?_)
    | (with_reducible intro t; first | (refine (fun (ht : P t) => ?_) (?_ : P t); rotate_left; subst t; rotate_right; clear_value t) | skip | skip)
    | lift_lets -underBinder
    | split
    | (with_reducible apply pUtx)

theorem execVocabLoad_keeps {P : State → Prop} (h : Stable [.out, .ctr, .wfn, .win, .notify, .ss, .tx, .sl, .ev] P) (a0 : _) (a1 : _) (a2 : _) (s : State) (hs : P (s.at a0)) : OkX P (execVocabLoad a0 a1 a2 s) := by
  have k1 := @State.startDomIn_keeps P (h.mono rfl)
  have k2 := @State.vocabLoad_keeps P (h.mono rfl)
  unfold execVocabLoad
  repeat'
    first
    | with_reducible assumption
    | rfl
    | (refine run_keeps ?_ (by assumption))
    | (with_reducible apply k1)
    | (with_reducible apply k2)
    | (with_reducible apply ite_keeps (P := P))
    | (with_reducible apply foldl_keeps (P := P))
    | (refine fun (t : State) (ht : P t) => ?_)
    | (refine fun (_ : _) (t : State) (ht : P t) => ?_)
    | (with_reducible intro t; first | (refine (fun (ht : P t) => ?_) (?_ : P t); rotate_left; subst t; rotate_right; clear_value t) | skip | skip)
    | lift_lets -underBinder
    | split

theorem execGrammarLoad_keeps {P : State → Prop} (h : Stable [.out, .ctr, .wfn, .win, .notify, .ss, .tx, .sl, .ev] P) (a0 : _) (a1 : _) (a2 : _) (s : State) (hs : P (s.at a0)) : OkX P (execGrammarLoad a0 a1 a2 s) := by
  have k1 := @State.startDomIn_keeps P (h.mono rfl)
  have k2 := @State.grammarLoad_keeps P (h.mono rfl)
  unfold execGrammarLoad
  repeat'
    first
    | with_reducible assumption
    | rfl
    | (refine run_keeps ?_ (by assumption))
    | (with_reducible apply k1)
    | (with_reducible apply k2)
    | (with_reducible apply ite_keeps (P := P))
    | (with_reducible apply foldl_keeps (P := P))
    | (refine fun (t : State) (ht : P t) => ?_)
    | (refine fun (_ : _) (t : State) (ht : P t) => ?_)
    | (with_reducible intro t; first | (refine (fun (ht : P t) => ?_) (?_ : P t); rotate_left; subst t; rotate_right; clear_value t) | skip | skip)
    | lift_lets -underBinder
    | split

theorem execStopsetDefine_keeps {P : State → Prop} (h : Stable [.out, .ctr, .wfn, .win, .notify, .ss, .tx, .sl, .ev] P) (a0 : _) (a1 : _) (a2 : _) (s : State) (hs : P (s.at a0)) : OkX P (execStopsetDefine a0 a1 a2 s) := by
  have k1 := @State.startDomIn_keeps P (h.mono rfl)
  have k2 := @State.stopDefine_keeps P (h.mono rfl)
  unfold execStopsetDefine
  repeat'
    first
    | with_reducible assumption
    | rfl
    | (refine run_keeps ?_ (by assumption))
    | (with_reducible apply k1)
    | (with_reducible apply k2)
    | (with_reducible apply ite_keeps (P := P))
    | (with_reducible apply foldl_keeps (P := P))
    | (refine fun (t : State) (ht : P t) => ?_)
    | (refine fun (_ : _) (t : State) (ht : P t) => ?_)
    | (with_reducible intro t; first | (refine (fun (ht : P t) => ?_) (?_ : P t); rotate_left; subst t; rotate_right; clear_value t) | skip | skip)
    | lift_lets -underBinder
    | split

theorem execSamplingDefine_keeps {P : State → Prop} (h : Stable [.out, .ctr, .wfn, .win, .notify, .ss, .tx, .sl, .ev] P) (a0 : _) (a1 : _) (a2 : _) (s : State) (hs : P (s.at a0)) : OkX P (execSamplingDefine a0 a1 a2 s) := by
  have k1 := @State.startDomIn_keeps P (h.mono rfl)
  have k2 := @State.profDefine_keeps P (h.mono rfl)
  unfold execSamplingDefine
  repeat'
    first
    | with_reducible assumption
    | rfl
    | (refine run_keeps ?_ (by assumption))
    | (with_reducible apply k1)
    | (with_reducible apply k2)
    | (with_reducible apply ite_keeps (P := P))
    | (with_reducible apply foldl_keeps (P := P))
    | (refine fun (t : State) (ht : P t) => ?_)
    | (refine fun (_ : _) (t : State) (ht : P t) => ?_)
    | (with_reducible intro t; first | (refine (fun (ht : P t) => ?_) (?_ : P t); rotate_left; subst t; rotate_right; clear_value t) | skip | skip)
    | lift_lets -underBinder
    | split

end Sys2Proof.Machine
end

