-- ==== Sys2Proof/Laws/KeepsServe.lean ====
section
/-! SUPPORT. What the operations of Machine/Serve.lean can do to the state (`Laws/Keeps.lean`): one lemma per operation. -/

set_option linter.all false

namespace Sys2Proof.Machine

open Sys2Proof

theorem State.stopRun_keeps {P : State → Prop} (h : Stable [.out, .ctr, .notify, .ss, .tm, .sl, .ev] P) (s : State) (a1 : _) (a2 : _) (hs : P s) : P (State.stopRun s a1 a2) := by
  have k1 := @State.flushHeld_keeps P (h.mono rfl)
  have k2 := @State.endRun_keeps P (h.mono rfl)
  have k3 := @State.releaseStage_keeps P (h.mono rfl)
  have k4 := @State.evS_keeps P (h.mono rfl)
  have k5 := @State.toState_keeps P (h.mono rfl)
  have k6 := @State.toRest_keeps P (h.mono rfl)
  have pInc := h.ctrInc rfl
  unfold State.stopRun
  repeat'
    first
    | with_reducible assumption
    | rfl
    | (with_reducible apply k1)
    | (with_reducible apply k2)
    | (with_reducible apply k3)
    | (with_reducible apply k4)
    | (with_reducible apply k5)
    | (with_reducible apply k6)
    | (with_reducible apply pInc)
    | (with_reducible apply ite_keeps (P := P))
    | (with_reducible apply when_keeps (P := P))
    | (with_reducible apply foldl_keeps (P := P))
    | (refine fun (t : State) (ht : P t) => ?_)
    | (refine fun (_ : _) (t : State) (ht : P t) => ?_)
    | (with_reducible intro t; first | (refine (fun (ht : P t) => ?_) (?_ : P t); rotate_left; subst t; rotate_right; clear_value t) | skip | skip)
    | lift_lets -underBinder
    | split

theorem State.boundary_keeps {P : State → Prop} (h : Stable [.out, .ctr, .notify, .ss, .tm, .sl, .ev] P) (s : State) (a1 : _) (hs : P s) : P (State.boundary s a1) := by
  have k1 := @State.stopRun_keeps P (h.mono rfl)
  unfold State.boundary
  repeat'
    first
    | with_reducible assumption
    | rfl
    | (with_reducible apply k1)
    | (with_reducible apply ite_keeps (P := P))
    | (with_reducible apply foldl_keeps (P := P))
    | (refine fun (t : State) (ht : P t) => ?_)
    | (refine fun (_ : _) (t : State) (ht : P t) => ?_)
    | (with_reducible intro t; first | (refine (fun (ht : P t) => ?_) (?_ : P t); rotate_left; subst t; rotate_right; clear_value t) | skip | skip)
    | lift_lets -underBinder
    | split

theorem State.boundaries_keeps {P : State → Prop} (h : Stable [.out, .ctr, .notify, .ss, .tm, .sl, .ev] P) (s : State) (hs : P s) : P (State.boundaries s) := by
  have k1 := @State.boundary_keeps P (h.mono rfl)
  unfold State.boundaries
  repeat'
    first
    | with_reducible assumption
    | rfl
    | (with_reducible apply k1)
    | (with_reducible apply ite_keeps (P := P))
    | (with_reducible apply each_keeps (P := P))
    | (with_reducible apply foldl_keeps (P := P))
    | (refine fun (t : State) (ht : P t) => ?_)
    | (refine fun (_ : _) (t : State) (ht : P t) => ?_)
    | (with_reducible intro t; first | (refine (fun (ht : P t) => ?_) (?_ : P t); rotate_left; subst t; rotate_right; clear_value t) | skip | skip)
    | lift_lets -underBinder
    | split

theorem State.decodeReady_keeps {P : State → Prop} (h : Stable [.out, .ctr, .nv, .notify, .sc, .ss, .tm, .fb, .sl, .ev] P) (s : State) (a1 : _) (hs : P s) : OkP P (State.decodeReady s a1) := by
  have k1 := @State.dropDraft_keeps P (h.mono rfl)
  have k2 := @State.promoteFirst_keeps P (h.mono rfl)
  have k3 := @State.stageAll_keeps P (h.mono rfl)
  have k4 := @State.setSess_keeps P (h.mono rfl)
  have k5 := @State.allocWait_keeps P (h.mono rfl)
  unfold State.decodeReady
  have h1 := k1 s a1 hs
  generalize s.dropDraft a1 = u at h1
  dsimp only
  split
  · exact h1
  · have h2 : P (u.promoteFirst a1 (u.stepPages a1 (u.keffWanted a1))).2 := k2 u a1 _ h1
    generalize u.promoteFirst a1 (u.stepPages a1 (u.keffWanted a1)) = v at h2
    split
    · exact h2
    · split
      · rename_i w e
        exact k4 _ _ _ (k3 _ _ _ h2 w e)
      · exact OkP.mk (k5 v.2 a1 0 h2)

theorem State.addRow_keeps {P : State → Prop} (h : Stable [.sv] P) (s : State) (a1 : _) (hs : P s) : P (State.addRow s a1) := by
  have pUsv := h.sv rfl
  unfold State.addRow
  repeat'
    first
    | with_reducible assumption
    | rfl
    | (with_reducible refine pUsv _ _ (by with_reducible assumption))
    | (with_reducible apply ite_keeps (P := P))
    | (with_reducible apply foldl_keeps (P := P))
    | (refine fun (t : State) (ht : P t) => ?_)
    | (refine fun (_ : _) (t : State) (ht : P t) => ?_)
    | (with_reducible intro t; first | (refine (fun (ht : P t) => ?_) (?_ : P t); rotate_left; subst t; rotate_right; clear_value t) | skip | skip)
    | lift_lets -underBinder
    | split
    | (with_reducible apply pUsv)

theorem State.budgetWait_keeps {P : State → Prop} (h : Stable [.out, .ctr, .notify, .ss, .tm, .sv, .sl, .ev] P) (s : State) (a1 : _) (hs : P s) : P (State.budgetWait s a1) := by
  have k1 := @State.setSess_keeps P (h.mono rfl)
  have k2 := @State.evS_keeps P (h.mono rfl)
  have k3 := @State.stopRun_keeps P (h.mono rfl)
  have pInc := h.ctrInc rfl
  have pNotify := h.notify rfl
  have pUsv := h.sv rfl
  unfold State.budgetWait
  repeat'
    first
    | with_reducible assumption
    | rfl
    | (with_reducible apply k1)
    | (with_reducible apply k2)
    | (with_reducible apply k3)
    | (with_reducible apply pInc)
    | (with_reducible apply pNotify)
    | (with_reducible refine pUsv _ _ (by with_reducible assumption))
    | (with_reducible apply ite_keeps (P := P))
    | (with_reducible apply when_keeps (P := P))
    | (with_reducible apply foldl_keeps (P := P))
    | (refine fun (t : State) (ht : P t) => ?_)
    | (refine fun (_ : _) (t : State) (ht : P t) => ?_)
    | (with_reducible intro t; first | (refine (fun (ht : P t) => ?_) (?_ : P t); rotate_left; subst t; rotate_right; clear_value t) | skip | skip)
    | lift_lets -underBinder
    | split
    | (with_reducible apply pUsv)

theorem State.takeRow_keeps {P : State → Prop} (h : Stable [.out, .ctr, .notify, .ss, .tm, .sv, .sl, .ev] P) (s : State) (a1 : _) (hs : P s) : OkP P (State.takeRow s a1) := by
  have k1 := @State.stopRun_keeps P (h.mono rfl)
  have k2 := @State.evS_keeps P (h.mono rfl)
  have k3 := @State.reserveTokens_keeps P (h.mono rfl)
  have k4 := @State.addRow_keeps P (h.mono rfl)
  have k5 := @State.setSess_keeps P (h.mono rfl)
  have k6 := @State.budgetWait_keeps P (h.mono rfl)
  unfold State.takeRow
  repeat'
    first
    | with_reducible assumption
    | rfl
    | (with_reducible apply k1)
    | (with_reducible apply k2)
    | (with_reducible apply k3)
    | (with_reducible apply k4)
    | (with_reducible apply k5)
    | (with_reducible apply k6)
    | (with_reducible apply iteP_keeps (P := P))
    | (with_reducible apply ite_keeps (P := P))
    | (with_reducible apply foldl_keeps (P := P))
    | (with_reducible apply foldP_keeps (P := P))
    | (refine OkP.get (P := P) (by with_reducible assumption) ?_)
    | (with_reducible apply OkP.snd (P := P))
    | (refine fun (t : State) (ht : P t) => ?_)
    | (refine fun (_ : _) (t : State) (ht : P t) => ?_)
    | (with_reducible intro t; first | (refine (fun (ht : P t) => ?_) (?_ : P t); rotate_left; subst t; rotate_right; clear_value t) | skip | skip)
    | lift_lets -underBinder
    | split
    | (with_reducible apply OkP.mk (P := P))

theorem State.fillRows_keeps {P : State → Prop} (h : Stable [.out, .ctr, .notify, .ss, .tm, .sv, .sl, .ev] P) (a0 : _) (a1 : _) (s : State) (hs : P s) : OkPP P (State.fillRows a0 a1 s) := by
  have k := @State.takeRow_keeps P (h.mono rfl)
  induction a1 generalizing a0 s with
  | nil => unfold State.fillRows; exact hs
  | cons b l ih =>
    unfold State.fillRows
    split
    · exact hs
    · have h1 : P (s.takeRow b).2 := k s b hs
      generalize s.takeRow b = v at h1
      exact ih _ _ h1

theorem State.handOut_keeps {P : State → Prop} (h : Stable [.out, .ctr, .notify, .ss, .tm, .sv, .sl, .ev] P) (a0 : _) (a1 : _) (a2 : _) (s : State) (hs : P s) : OkPP P (State.handOut a0 a1 a2 s) := by
  have k := @State.fillRows_keeps P (h.mono rfl)
  induction a0 generalizing a1 a2 s with
  | zero => unfold State.handOut; exact hs
  | succ n ih =>
    unfold State.handOut
    dsimp only
    have h1 : ∀ (l : List (Nat × List Nat)) (x : Option Nat × List (Nat × List Nat) × State), OkPP P x → OkPP P (l.foldl
      (fun (a : Option Nat × List (Nat × List Nat) × State) p =>
        if a.1.isSome then a
        else
          (if (State.fillRows 1 p.2 a.2.2).2.1 = 1 then some p.1 else none,
            a.2.1.map fun q => if q.1 = p.1 then (p.1, (State.fillRows 1 p.2 a.2.2).1) else q, (State.fillRows 1 p.2 a.2.2).2.2)) x) := by
      intro l x hx
      refine foldPP_keeps (fun y p hy => ?_) hx
      split
      · exact hy
      · exact k 1 p.2 _ hy
    have h2 := h1 ((a1.filter fun p => decide (a2 ≤ p.1)) ++ a1.filter fun p => decide (p.1 < a2)) (none, a1, s) hs
    generalize List.foldl _ _ _ = r at h2 ⊢
    split
    · exact ih _ _ _ h2
    · exact h2

theorem State.fillChannel_keeps {P : State → Prop} (h : Stable [.out, .ctr, .nv, .notify, .sc, .ss, .tm, .fb, .sv, .sl, .ev] P) (s : State) (a1 : _) (hs : P s) : P (State.fillChannel s a1) := by
  have k1 := @State.decodeReady_keeps P (h.mono rfl)
  have k2 := @State.fillRows_keeps P (h.mono rfl)
  have k3 := @State.handOut_keeps P (h.mono rfl)
  unfold State.fillChannel
  dsimp only
  have h1 : ∀ (l : List Nat) (x : List Nat × State), OkP P x → OkP P (l.foldl
      (fun (a : List Nat × State) k => (if (a.2.decodeReady k).1 then a.1 ++ [k] else a.1, (a.2.decodeReady k).2)) x) := by
    intro l x hx
    refine foldP_keeps (fun y p hy => ?_) hx
    exact k1 _ p hy
  have h2 := h1 ((s.ss.tbl.filter fun e => decide (chOf e.1 = a1) && decide (e.2.st = .decode)).map (·.1)) ([], s) hs
  generalize List.foldl _ ([], s) _ = r at h2 ⊢
  obtain ⟨cands, u⟩ := r
  dsimp only
  have h3 : ∀ (q : Nat × List Nat → Nat) (l : List (Nat × List Nat)) (x : List (Nat × List Nat) × Nat × State), OkPP P x → OkPP P (l.foldl
      (fun (a : List (Nat × List Nat) × Nat × State) p => (a.1 ++ [(p.1, (State.fillRows (q p) p.2 a.2.2).1)],
        a.2.1 + (State.fillRows (q p) p.2 a.2.2).2.1, (State.fillRows (q p) p.2 a.2.2).2.2)) x) := by
    intro q l x hx
    refine foldPP_keeps (fun y p hy => ?_) hx
    exact k2 _ p.2 _ hy
  refine when_keeps (P := P) (fun t ht => h.ev rfl _ _ _ _ _ _ _ (h.ctrInc rfl _ _ _ _ _ rfl ht)) (h.sv rfl _ _ (k3 _ _ _ _ ?_))
  exact h3 _ _ ([], 0, u) h2

theorem State.startStep_keeps {P : State → Prop} (h : Stable [.out, .ctr, .nv, .notify, .sc, .ss, .tm, .fb, .sv, .sl, .dx, .ev] P) (s : State) (hs : P s) : P (State.startStep s) := by
  have k1 := @State.boundaries_keeps P (h.mono rfl)
  have k2 := @applyGroups_keeps P (h.mono rfl)
  have k3 := @State.fillChannel_keeps P (h.mono rfl)
  have k4 := @State.sendAct_keeps P (h.mono rfl)
  have pInc := h.ctrInc rfl
  have pSet := h.ctr rfl
  have pEv := h.ev rfl
  have pUsv := h.sv rfl
  unfold State.startStep
  repeat'
    first
    | with_reducible assumption
    | rfl
    | (with_reducible apply k1)
    | (with_reducible apply k2)
    | (with_reducible apply k3)
    | (with_reducible apply k4)
    | (with_reducible apply pInc)
    | (with_reducible apply pSet)
    | (with_reducible apply pEv)
    | (with_reducible refine pUsv _ _ (by with_reducible assumption))
    | (with_reducible apply ite_keeps (P := P))
    | (with_reducible apply each_keeps (P := P))
    | (with_reducible apply when_keeps (P := P))
    | (with_reducible apply foldl_keeps (P := P))
    | (refine fun (t : State) (ht : P t) => ?_)
    | (refine fun (_ : _) (t : State) (ht : P t) => ?_)
    | (with_reducible intro t; first | (refine (fun (ht : P t) => ?_) (?_ : P t); rotate_left; subst t; rotate_right; clear_value t) | skip | skip)
    | lift_lets -underBinder
    | split
    | (with_reducible apply pUsv)

theorem State.advanceBarrier_keeps {P : State → Prop} (h : Stable [.out, .ctr, .pk, .notify, .dx, .ev] P) (s : State) (hs : P s) : P (State.advanceBarrier s) := by
  have k1 := @State.routeCtl_keeps P (h.mono rfl)
  have pSet := h.ctr rfl
  have pEv := h.ev rfl
  have pNotify := h.notify rfl
  have pUpk := h.pk rfl
  unfold State.advanceBarrier
  repeat'
    first
    | with_reducible assumption
    | rfl
    | (with_reducible apply k1)
    | (with_reducible apply pSet)
    | (with_reducible apply pEv)
    | (with_reducible apply pNotify)
    | (with_reducible refine pUpk _ _ (by dsimp only [Pick.rest]) (by with_reducible assumption))
    | (with_reducible apply ite_keeps (P := P))
    | (with_reducible apply each_keeps (P := P))
    | (with_reducible apply foldl_keeps (P := P))
    | (refine fun (t : State) (ht : P t) => ?_)
    | (refine fun (_ : _) (t : State) (ht : P t) => ?_)
    | (with_reducible intro t; first | (refine (fun (ht : P t) => ?_) (?_ : P t); rotate_left; subst t; rotate_right; clear_value t) | subst t | skip)
    | lift_lets -underBinder
    | split
    | (with_reducible apply pUpk)

theorem State.finishStep_keeps {P : State → Prop} (h : Stable [.fb, .sv, .ev] P) (s : State) (hs : P s) : P (State.finishStep s) := by
  have k1 := @applyGroups_keeps P (h.mono rfl)
  have k2 := @fabricRest_keeps P (h.mono rfl)
  have pEv := h.ev rfl
  have pUsv := h.sv rfl
  unfold State.finishStep
  repeat'
    first
    | with_reducible assumption
    | rfl
    | (with_reducible apply k1)
    | (with_reducible apply k2)
    | (with_reducible apply pEv)
    | (with_reducible refine pUsv _ _ (by with_reducible assumption))
    | (with_reducible apply ite_keeps (P := P))
    | (with_reducible apply foldl_keeps (P := P))
    | (refine fun (t : State) (ht : P t) => ?_)
    | (refine fun (_ : _) (t : State) (ht : P t) => ?_)
    | (with_reducible intro t; first | (refine (fun (ht : P t) => ?_) (?_ : P t); rotate_left; subst t; rotate_right; clear_value t) | skip | skip)
    | lift_lets -underBinder
    | split
    | (with_reducible apply pUsv)

theorem settle_keeps {P : State → Prop} (h : Stable [.out, .ctr, .nv, .pw, .pwAny, .pk, .notify, .sc, .ss, .tm, .fb, .sv, .se, .sl, .dx, .journal, .ev] P) (s : State) (hs : P s) : P (settle s) := by
  have k1 := @State.advanceBarrier_keeps P (h.mono rfl)
  have k2 := @State.finishStep_keeps P (h.mono rfl)
  have k3 := @State.farPump_keeps P (h.mono rfl)
  have k4 := @State.startStep_keeps P (h.mono rfl)
  have k5 := @State.boundaries_keeps P (h.mono rfl)
  have k6 := @State.fillLanes_keeps P (h.mono rfl)
  have k7 := @State.drainPump_keeps P (h.mono rfl)
  unfold settle
  repeat'
    first
    | with_reducible assumption
    | rfl
    | (with_reducible apply k1)
    | (with_reducible apply k2)
    | (with_reducible apply k3)
    | (with_reducible apply k4)
    | (with_reducible apply k5)
    | (with_reducible apply k6)
    | (with_reducible apply k7)
    | (with_reducible apply ite_keeps (P := P))
    | (with_reducible apply foldl_keeps (P := P))
    | (refine fun (t : State) (ht : P t) => ?_)
    | (refine fun (_ : _) (t : State) (ht : P t) => ?_)
    | (with_reducible intro t; first | (refine (fun (ht : P t) => ?_) (?_ : P t); rotate_left; subst t; rotate_right; clear_value t) | skip | skip)
    | lift_lets -underBinder
    | split

theorem stepDue_keeps {P : State → Prop} (h : Stable [.out, .ctr, .nv, .notify, .sc, .ss, .tm, .fb, .sv, .sl, .dx, .ev] P) (a0 : _) (s : State) (hs : P s) : P (stepDue a0 s) := by
  have k1 := @State.finishStep_keeps P (h.mono rfl)
  have k2 := @State.startStep_keeps P (h.mono rfl)
  have pInc := h.ctrInc rfl
  have pEv := h.ev rfl
  have pUsv := h.sv rfl
  unfold stepDue
  repeat'
    first
    | with_reducible assumption
    | rfl
    | (with_reducible apply k1)
    | (with_reducible apply k2)
    | (with_reducible apply pInc)
    | (with_reducible apply pEv)
    | (with_reducible refine pUsv _ _ (by with_reducible assumption))
    | (with_reducible apply ite_keeps (P := P))
    | (with_reducible apply when_keeps (P := P))
    | (with_reducible apply foldl_keeps (P := P))
    | (refine fun (t : State) (ht : P t) => ?_)
    | (refine fun (_ : _) (t : State) (ht : P t) => ?_)
    | (with_reducible intro t; first | (refine (fun (ht : P t) => ?_) (?_ : P t); rotate_left; subst t; rotate_right; clear_value t) | skip | skip)
    | lift_lets -underBinder
    | split
    | (with_reducible apply pUsv)

theorem State.lookVocab_keeps {P : State → Prop} (h : Stable [.ctr, .tx, .ev] P) (s : State) (a1 : _) (a2 : _) (hs : P s) : P (State.lookVocab s a1 a2) := by
  have k1 := @State.evS_keeps P (h.mono rfl)
  have pInc := h.ctrInc rfl
  have pUtx := h.tx rfl
  unfold State.lookVocab
  repeat'
    first
    | with_reducible assumption
    | rfl
    | (with_reducible apply k1)
    | (with_reducible apply pInc)
    | (with_reducible refine pUtx _ _ (by with_reducible assumption))
    | (with_reducible apply ite_keeps (P := P))
    | (with_reducible apply foldl_keeps (P := P))
    | (refine fun (t : State) (ht : P t) => ?_)
    | (refine fun (_ : _) (t : State) (ht : P t) => ?_)
    | (with_reducible intro t; first | (refine (fun (ht : P t) => ?_) (?_ : P t); rotate_left; subst t; rotate_right; clear_value t) | skip | skip)
    | lift_lets -underBinder
    | split
    | (with_reducible apply pUtx)

theorem State.deliver_keeps {P : State → Prop} (h : Stable [.out, .ctr, .ss, .sl, .ev] P) (s : State) (a1 : _) (a2 : _) (hs : P s) : P (State.deliver s a1 a2) := by
  have k1 := @State.output_keeps P (h.mono rfl)
  have k2 := @State.setSess_keeps P (h.mono rfl)
  have k3 := @State.evS_keeps P (h.mono rfl)
  unfold State.deliver
  repeat'
    first
    | with_reducible assumption
    | rfl
    | (with_reducible apply k1)
    | (with_reducible apply k2)
    | (with_reducible apply k3)
    | (with_reducible apply ite_keeps (P := P))
    | (with_reducible apply foldl_keeps (P := P))
    | (refine fun (t : State) (ht : P t) => ?_)
    | (refine fun (_ : _) (t : State) (ht : P t) => ?_)
    | (with_reducible intro t; first | (refine (fun (ht : P t) => ?_) (?_ : P t); rotate_left; subst t; rotate_right; clear_value t) | skip | skip)
    | lift_lets -underBinder
    | split

theorem State.setGrammarPos_keeps {P : State → Prop} (h : Stable [.ctr, .ss, .ev] P) (s : State) (a1 : _) (a2 : _) (hs : P s) : P (State.setGrammarPos s a1 a2) := by
  have k1 := @State.resetGrammar_keeps P (h.mono rfl)
  have k2 := @State.setSess_keeps P (h.mono rfl)
  unfold State.setGrammarPos
  repeat'
    first
    | with_reducible assumption
    | rfl
    | (with_reducible apply k1)
    | (with_reducible apply k2)
    | (with_reducible apply ite_keeps (P := P))
    | (with_reducible apply foldl_keeps (P := P))
    | (refine fun (t : State) (ht : P t) => ?_)
    | (refine fun (_ : _) (t : State) (ht : P t) => ?_)
    | (with_reducible intro t; first | (refine (fun (ht : P t) => ?_) (?_ : P t); rotate_left; subst t; rotate_right; clear_value t) | skip | skip)
    | lift_lets -underBinder
    | split

theorem State.leaveRow_keeps {P : State → Prop} (h : Stable [.ss, .sv, .ev] P) (s : State) (a1 : _) (a2 : _) (hs : P s) : P (State.leaveRow s a1 a2) := by
  have k1 := @State.resolveTokens_keeps P (h.mono rfl)
  have pUsv := h.sv rfl
  unfold State.leaveRow
  repeat'
    first
    | with_reducible assumption
    | rfl
    | (with_reducible apply k1)
    | (with_reducible refine pUsv _ _ (by with_reducible assumption))
    | (with_reducible apply ite_keeps (P := P))
    | (with_reducible apply foldl_keeps (P := P))
    | (refine fun (t : State) (ht : P t) => ?_)
    | (refine fun (_ : _) (t : State) (ht : P t) => ?_)
    | (with_reducible intro t; first | (refine (fun (ht : P t) => ?_) (?_ : P t); rotate_left; subst t; rotate_right; clear_value t) | skip | skip)
    | lift_lets -underBinder
    | split
    | (with_reducible apply pUsv)

theorem State.sampled_keeps {P : State → Prop} (h : Stable [.ctr, .ev] P) (s : State) (a1 : _) (a2 : _) (a3 : _) (a4 : _) (a5 : _) (a6 : _) (hs : P s) : P (State.sampled s a1 a2 a3 a4 a5 a6) := by
  have k1 := @State.evS_keeps P (h.mono rfl)
  have pInc := h.ctrInc rfl
  unfold State.sampled
  repeat'
    first
    | with_reducible assumption
    | rfl
    | (with_reducible apply k1)
    | (with_reducible apply pInc)
    | (with_reducible apply ite_keeps (P := P))
    | (with_reducible apply foldl_keeps (P := P))
    | (refine fun (t : State) (ht : P t) => ?_)
    | (refine fun (_ : _) (t : State) (ht : P t) => ?_)
    | (with_reducible intro t; first | (refine (fun (ht : P t) => ?_) (?_ : P t); rotate_left; subst t; rotate_right; clear_value t) | skip | skip)
    | lift_lets -underBinder
    | split

theorem State.commitRow_keeps {P : State → Prop} (h : Stable [.out, .ctr, .nv, .notify, .sc, .scAny, .ss, .tm, .fb, .sv, .tx, .sl, .journal, .ev] P) (s : State) (a1 : _) (a2 : _) (hs : P s) : P (State.commitRow s a1 a2) := by
  have k1 := @State.readPages_keeps P (h.mono rfl)
  have k2 := @State.reread_keeps P (h.mono rfl)
  have k3 := @State.readLost_keeps P (h.mono rfl)
  have k4 := @State.stopRun_keeps P (h.mono rfl)
  have k5 := @State.leaveRow_keeps P (h.mono rfl)
  have k6 := @State.evS_keeps P (h.mono rfl)
  have k7 := @State.setSess_keeps P (h.mono rfl)
  have k8 := @State.sampled_keeps P (h.mono rfl)
  have k9 := @State.putTarget_keeps P (h.mono rfl)
  have k10 := @State.putDraft_keeps P (h.mono rfl)
  have k11 := @State.lookVocab_keeps P (h.mono rfl)
  have k12 := @State.putTokens_keeps P (h.mono rfl)
  have k13 := @State.cutKv_keeps P (h.mono rfl)
  have k14 := @State.setGrammarPos_keeps P (h.mono rfl)
  have k15 := @State.deliver_keeps P (h.mono rfl)
  have pInc := h.ctrInc rfl
  have pMax := h.ctrMax rfl
  have pUscAny := h.scAny rfl
  unfold State.commitRow
  repeat'
    first
    | with_reducible assumption
    | rfl
    | (with_reducible apply k1)
    | (with_reducible apply k2)
    | (with_reducible apply k3)
    | (with_reducible apply k4)
    | (with_reducible apply k5)
    | (with_reducible apply k6)
    | (with_reducible apply k7)
    | (with_reducible apply k8)
    | (with_reducible apply k9)
    | (with_reducible apply k10)
    | (with_reducible apply k11)
    | (with_reducible apply k12)
    | (with_reducible apply k13)
    | (with_reducible apply k14)
    | (with_reducible apply k15)
    | (with_reducible apply pInc)
    | (with_reducible apply pMax)
    | (with_reducible refine pUscAny _ _ (by with_reducible assumption))
    | (with_reducible apply iteP_keeps (P := P))
    | (with_reducible apply ite_keeps (P := P))
    | (with_reducible apply each_keeps (P := P))
    | (with_reducible apply when_keeps (P := P))
    | (with_reducible apply foldl_keeps (P := P))
    | (with_reducible apply foldP_keeps (P := P))
    | (refine OkP.get (P := P) (by with_reducible assumption) ?_)
    | (with_reducible apply OkP.snd (P := P))
    | (refine fun (t : State) (ht : P t) => ?_)
    | (refine fun (_ : _) (t : State) (ht : P t) => ?_)
    | (with_reducible intro t; first | (refine (fun (ht : P t) => ?_) (?_ : P t); rotate_left; subst t; rotate_right; clear_value t) | skip | skip)
    | lift_lets -underBinder
    | split
    | (with_reducible apply pUscAny)
    | (with_reducible apply OkP.mk (P := P))

theorem execDecodePhaseCommit_keeps {P : State → Prop} (h : Stable [.out, .ctr, .nv, .pw, .pwAny, .pk, .notify, .sc, .scAny, .ss, .tm, .fb, .sv, .tx, .se, .sl, .dx, .journal, .ev] P) (a0 : _) (a1 : _) (s : State) (hs : P (s.at a0)) : OkX P (execDecodePhaseCommit a0 a1 s) := by
  have k1 := @State.fabricRun_keeps P (h.mono rfl)
  have k2 := @State.evS_keeps P (h.mono rfl)
  have k3 := @State.boundary_keeps P (h.mono rfl)
  have k4 := @State.leaveRow_keeps P (h.mono rfl)
  have k5 := @State.commitRow_keeps P (h.mono rfl)
  have k6 := @settle_keeps P (h.mono rfl)
  unfold execDecodePhaseCommit
  repeat'
    first
    | with_reducible assumption
    | rfl
    | (refine run_keeps ?_ (by assumption))
    | (with_reducible apply k1)
    | (with_reducible apply k2)
    | (with_reducible apply k3)
    | (with_reducible apply k4)
    | (with_reducible apply k5)
    | (with_reducible apply k6)
    | (with_reducible apply ite_keeps (P := P))
    | (with_reducible apply each_keeps (P := P))
    | (with_reducible apply when_keeps (P := P))
    | (with_reducible apply foldl_keeps (P := P))
    | (refine fun (t : State) (ht : P t) => ?_)
    | (refine fun (_ : _) (t : State) (ht : P t) => ?_)
    | (with_reducible intro t; first | (refine (fun (ht : P t) => ?_) (?_ : P t); rotate_left; subst t; rotate_right; clear_value t) | skip | skip)
    | lift_lets -underBinder
    | split

theorem execMaskComplete_keeps {P : State → Prop} (h : Stable [.out, .ctr, .nv, .pw, .pwAny, .pk, .notify, .sc, .ss, .tm, .fb, .sv, .se, .sl, .dx, .journal, .ev] P) (a0 : _) (a1 : _) (a2 : _) (s : State) (hs : P (s.at a0)) : OkX P (execMaskComplete a0 a1 a2 s) := by
  have k1 := @State.evS_keeps P (h.mono rfl)
  have k2 := @State.setSess_keeps P (h.mono rfl)
  have k3 := @settle_keeps P (h.mono rfl)
  have k4 := @State.stopRun_keeps P (h.mono rfl)
  have k5 := @State.leaveRow_keeps P (h.mono rfl)
  have pInc := h.ctrInc rfl
  unfold execMaskComplete
  repeat'
    first
    | with_reducible assumption
    | rfl
    | (refine run_keeps ?_ (by assumption))
    | (with_reducible apply k1)
    | (with_reducible apply k2)
    | (with_reducible apply k3)
    | (with_reducible apply k4)
    | (with_reducible apply k5)
    | (with_reducible apply pInc)
    | (with_reducible apply ite_keeps (P := P))
    | (with_reducible apply foldl_keeps (P := P))
    | (refine fun (t : State) (ht : P t) => ?_)
    | (refine fun (_ : _) (t : State) (ht : P t) => ?_)
    | (with_reducible intro t; first | (refine (fun (ht : P t) => ?_) (?_ : P t); rotate_left; subst t; rotate_right; clear_value t) | skip | skip)
    | lift_lets -underBinder
    | split

theorem execPrefillChunkStart_keeps {P : State → Prop} (h : Stable [.out, .ctr, .nv, .pw, .pwAny, .pk, .notify, .sc, .ss, .tm, .fb, .sv, .se, .sl, .dx, .journal, .ev] P) (a0 : _) (a1 : _) (s : State) (hs : P (s.at a0)) : OkX P (execPrefillChunkStart a0 a1 s) := by
  have k1 := @settle_keeps P (h.mono rfl)
  have k2 := @State.evS_keeps P (h.mono rfl)
  have k3 := @State.promoteFirst_keeps P (h.mono rfl)
  have k4 := @State.stageAll_keeps P (h.mono rfl)
  have k5 := @State.allocWait_keeps P (h.mono rfl)
  have k6 := @State.setSess_keeps P (h.mono rfl)
  have pUsv := h.sv rfl
  unfold execPrefillChunkStart
  repeat'
    first
    | with_reducible assumption
    | rfl
    | (refine run_keeps ?_ (by assumption))
    | (with_reducible apply k1)
    | (with_reducible apply k2)
    | (with_reducible apply k3)
    | (with_reducible apply k4)
    | (with_reducible apply k5)
    | (with_reducible apply k6)
    | (with_reducible refine pUsv _ _ (by with_reducible assumption))
    | (with_reducible apply OkOpt.some)
    | (with_reducible apply OkOpt.none)
    | (with_reducible apply iteOpt_keeps)
    | (with_reducible apply OkOpt.map)
    | (with_reducible apply OkOpt.bind)
    | (with_reducible apply OkOpt.find)
    | (with_reducible apply OkOpt.fold)
    | (with_reducible apply OkOpt.getD (P := P))
    | (with_reducible apply iteP_keeps (P := P))
    | (with_reducible apply ite_keeps (P := P))
    | (with_reducible apply foldl_keeps (P := P))
    | (with_reducible apply foldP_keeps (P := P))
    | (refine OkO.get (P := P) (by with_reducible assumption) ?_)
    | (refine OkOP.get (P := P) (by with_reducible assumption) ?_)
    | (refine OkOPP.get (P := P) (by with_reducible assumption) ?_)
    | (refine OkP.get (P := P) (by with_reducible assumption) ?_)
    | (with_reducible apply OkP.snd (P := P))
    | (refine fun (t : State) (ht : P t) => ?_)
    | (refine fun (_ : _) (t : State) (ht : P t) => ?_)
    | (with_reducible intro t; first | (refine (fun (ht : P t) => ?_) (?_ : P t); rotate_left; subst t; rotate_right; clear_value t) | skip | skip)
    | lift_lets -underBinder
    | split
    | (with_reducible apply pUsv)
    | (with_reducible apply OkP.mk (P := P))
    | exact OkOpt.any

theorem State.commitChunk_keeps {P : State → Prop} (h : Stable [.out, .ctr, .notify, .ss, .tm, .sl, .ev] P) (s : State) (a1 : _) (a2 : _) (hs : P s) : P (State.commitChunk s a1 a2) := by
  have k1 := @State.setSess_keeps P (h.mono rfl)
  have k2 := @State.putTokens_keeps P (h.mono rfl)
  have k3 := @State.putTarget_keeps P (h.mono rfl)
  have k4 := @State.evS_keeps P (h.mono rfl)
  have k5 := @State.stopRun_keeps P (h.mono rfl)
  have k6 := @State.fillAll_keeps P (h.mono rfl)
  have k7 := @State.putDraft_keeps P (h.mono rfl)
  have pInc := h.ctrInc rfl
  unfold State.commitChunk
  repeat'
    first
    | with_reducible assumption
    | rfl
    | (with_reducible apply k1)
    | (with_reducible apply k2)
    | (with_reducible apply k3)
    | (with_reducible apply k4)
    | (with_reducible apply k5)
    | (with_reducible apply k6)
    | (with_reducible apply k7)
    | (with_reducible apply pInc)
    | (with_reducible apply ite_keeps (P := P))
    | (with_reducible apply foldl_keeps (P := P))
    | (refine fun (t : State) (ht : P t) => ?_)
    | (refine fun (_ : _) (t : State) (ht : P t) => ?_)
    | (with_reducible intro t; first | (refine (fun (ht : P t) => ?_) (?_ : P t); rotate_left; subst t; rotate_right; clear_value t) | skip | skip)
    | lift_lets -underBinder
    | split

theorem execPrefillChunkCommit_keeps {P : State → Prop} (h : Stable [.out, .ctr, .nv, .pw, .pwAny, .pk, .notify, .sc, .ss, .tm, .fb, .sv, .se, .sl, .dx, .journal, .ev] P) (a0 : _) (a1 : _) (a2 : _) (a3 : _) (s : State) (hs : P (s.at a0)) : OkX P (execPrefillChunkCommit a0 a1 a2 a3 s) := by
  have k1 := @State.fabricRun_keeps P (h.mono rfl)
  have k2 := @State.reread_keeps P (h.mono rfl)
  have k3 := @State.readLost_keeps P (h.mono rfl)
  have k4 := @State.releaseStage_keeps P (h.mono rfl)
  have k5 := @State.setSess_keeps P (h.mono rfl)
  have k6 := @State.stepSlots_keeps P (h.mono rfl)
  have k7 := @State.walkRuns_keeps P (h.mono rfl)
  have k8 := @State.promote_keeps P (h.mono rfl)
  have k9 := @State.commitChunk_keeps P (h.mono rfl)
  have k10 := @settle_keeps P (h.mono rfl)
  have k11 := @State.boundary_keeps P (h.mono rfl)
  have pUsv := h.sv rfl
  unfold execPrefillChunkCommit
  repeat'
    first
    | with_reducible assumption
    | rfl
    | (refine run_keeps ?_ (by assumption))
    | (with_reducible apply k1)
    | (with_reducible apply k2)
    | (with_reducible apply k3)
    | (with_reducible apply k4)
    | (with_reducible apply k5)
    | (with_reducible apply k6)
    | (with_reducible apply k7)
    | (with_reducible apply k8)
    | (with_reducible apply k9)
    | (with_reducible apply k10)
    | (with_reducible apply k11)
    | (with_reducible refine pUsv _ _ (by with_reducible assumption))
    | (with_reducible apply ite_keeps (P := P))
    | (with_reducible apply each_keeps (P := P))
    | (with_reducible apply when_keeps (P := P))
    | (with_reducible apply foldl_keeps (P := P))
    | (refine fun (t : State) (ht : P t) => ?_)
    | (refine fun (_ : _) (t : State) (ht : P t) => ?_)
    | (with_reducible intro t; first | (refine (fun (ht : P t) => ?_) (?_ : P t); rotate_left; subst t; rotate_right; clear_value t) | skip | skip)
    | lift_lets -underBinder
    | split
    | (with_reducible apply pUsv)

theorem execTokenisingComplete_keeps {P : State → Prop} (h : Stable [.out, .ctr, .notify, .ss, .tm, .tx, .sl, .ev] P) (a0 : _) (a1 : _) (s : State) (hs : P (s.at a0)) : OkX P (execTokenisingComplete a0 a1 s) := by
  have k1 := @State.evS_keeps P (h.mono rfl)
  have k2 := @State.lookVocab_keeps P (h.mono rfl)
  have k3 := @State.stopRun_keeps P (h.mono rfl)
  have k4 := @State.setSess_keeps P (h.mono rfl)
  have pInc := h.ctrInc rfl
  unfold execTokenisingComplete
  repeat'
    first
    | with_reducible assumption
    | rfl
    | (refine run_keeps ?_ (by assumption))
    | (with_reducible apply k1)
    | (with_reducible apply k2)
    | (with_reducible apply k3)
    | (with_reducible apply k4)
    | (with_reducible apply pInc)
    | (with_reducible apply ite_keeps (P := P))
    | (with_reducible apply foldl_keeps (P := P))
    | (refine fun (t : State) (ht : P t) => ?_)
    | (refine fun (_ : _) (t : State) (ht : P t) => ?_)
    | (with_reducible intro t; first | (refine (fun (ht : P t) => ?_) (?_ : P t); rotate_left; subst t; rotate_right; clear_value t) | skip | skip)
    | lift_lets -underBinder
    | split

theorem execBudgetGraceExpire_keeps {P : State → Prop} (h : Stable [.out, .ctr, .notify, .ss, .tm, .sl, .ev] P) (a0 : _) (a1 : _) (s : State) (hs : P (s.at a0)) : OkX P (execBudgetGraceExpire a0 a1 s) := by
  have k1 := @State.stopRun_keeps P (h.mono rfl)
  unfold execBudgetGraceExpire
  repeat'
    first
    | with_reducible assumption
    | rfl
    | (refine run_keeps ?_ (by assumption))
    | (with_reducible apply k1)
    | (with_reducible apply ite_keeps (P := P))
    | (with_reducible apply foldl_keeps (P := P))
    | (refine fun (t : State) (ht : P t) => ?_)
    | (refine fun (_ : _) (t : State) (ht : P t) => ?_)
    | (with_reducible intro t; first | (refine (fun (ht : P t) => ?_) (?_ : P t); rotate_left; subst t; rotate_right; clear_value t) | skip | skip)
    | lift_lets -underBinder
    | split

theorem State.allocGrace_keeps {P : State → Prop} (h : Stable [.out, .ctr, .nv, .notify, .sc, .ss, .tm, .fb, .sl, .ev] P) (s : State) (a1 : _) (hs : P s) : P (State.allocGrace s a1) := by
  have k1 := @State.stopRun_keeps P (h.mono rfl)
  have k2 := @State.failSession_keeps P (h.mono rfl)
  have pNotify := h.notify rfl
  unfold State.allocGrace
  repeat'
    first
    | with_reducible assumption
    | rfl
    | (with_reducible apply k1)
    | (with_reducible apply k2)
    | (with_reducible apply pNotify)
    | (with_reducible apply ite_keeps (P := P))
    | (with_reducible apply foldl_keeps (P := P))
    | (refine fun (t : State) (ht : P t) => ?_)
    | (refine fun (_ : _) (t : State) (ht : P t) => ?_)
    | (with_reducible intro t; first | (refine (fun (ht : P t) => ?_) (?_ : P t); rotate_left; subst t; rotate_right; clear_value t) | skip | skip)
    | lift_lets -underBinder
    | split

theorem execAllocGraceExpire_keeps {P : State → Prop} (h : Stable [.out, .ctr, .nv, .notify, .sc, .ss, .tm, .fb, .sl, .ev] P) (a0 : _) (a1 : _) (s : State) (hs : P (s.at a0)) : OkX P (execAllocGraceExpire a0 a1 s) := by
  have k1 := @State.allocGrace_keeps P (h.mono rfl)
  unfold execAllocGraceExpire
  repeat'
    first
    | with_reducible assumption
    | rfl
    | (refine run_keeps ?_ (by assumption))
    | (with_reducible apply k1)
    | (with_reducible apply ite_keeps (P := P))
    | (with_reducible apply foldl_keeps (P := P))
    | (refine fun (t : State) (ht : P t) => ?_)
    | (refine fun (_ : _) (t : State) (ht : P t) => ?_)
    | (with_reducible intro t; first | (refine (fun (ht : P t) => ?_) (?_ : P t); rotate_left; subst t; rotate_right; clear_value t) | skip | skip)
    | lift_lets -underBinder
    | split

end Sys2Proof.Machine
end

