-- ==== Sys2Proof/Laws/KeepsDue.lean ====
section
/-! SUPPORT. What the operations of Machine/Due.lean can do to the state (`Laws/Keeps.lean`): one lemma per operation. -/

set_option linter.all false

namespace Sys2Proof.Machine

open Sys2Proof

theorem State.parkDue_keeps {P : State → Prop} (h : Stable [.out, .ctr, .nv, .notify, .sc, .ss, .tm, .fb, .sl, .journal, .ev] P) (s : State) (a1 : _) (hs : P s) : P (State.parkDue s a1) := by
  have k1 := @State.pinWait_keeps P (h.mono rfl)
  have k2 := @State.issueMoves_keeps P (h.mono rfl)
  have k3 := @State.beginMoving_keeps P (h.mono rfl)
  have k4 := @State.touchEntry_keeps P (h.mono rfl)
  have k5 := @State.starve_keeps P (h.mono rfl)
  have k6 := @State.evS_keeps P (h.mono rfl)
  have pInc := h.ctrInc rfl
  unfold State.parkDue
  repeat'
    first
    | with_reducible assumption
    | rfl
    | (with_reducible apply k1)
    | (with_reducible apply k2)
    | (with_reducible apply k3)
    | (with_reducible apply k4)
    | (with_reducible apply k5)
    | (with_reducible apply k6)
    | (with_reducible apply pInc)
    | (with_reducible apply ite_keeps (P := P))
    | (with_reducible apply foldl_keeps (P := P))
    | (refine fun (t : State) (ht : P t) => ?_)
    | (refine fun (_ : _) (t : State) (ht : P t) => ?_)
    | (with_reducible intro t; first | (refine (fun (ht : P t) => ?_) (?_ : P t); rotate_left; subst t; rotate_right; clear_value t) | skip | skip)
    | lift_lets -underBinder
    | split

theorem State.deepDue_keeps {P : State → Prop} (h : Stable [.out, .ctr, .nv, .notify, .sc, .ss, .tm, .fb, .sl, .journal, .ev] P) (s : State) (a1 : _) (hs : P s) : P (State.deepDue s a1) := by
  have k1 := @State.pinWait_keeps P (h.mono rfl)
  have k2 := @State.issueMoves_keeps P (h.mono rfl)
  have k3 := @State.beginMoving_keeps P (h.mono rfl)
  have k4 := @State.touchEntry_keeps P (h.mono rfl)
  unfold State.deepDue
  repeat'
    first
    | with_reducible assumption
    | rfl
    | (with_reducible apply k1)
    | (with_reducible apply k2)
    | (with_reducible apply k3)
    | (with_reducible apply k4)
    | (with_reducible apply ite_keeps (P := P))
    | (with_reducible apply foldl_keeps (P := P))
    | (refine fun (t : State) (ht : P t) => ?_)
    | (refine fun (_ : _) (t : State) (ht : P t) => ?_)
    | (with_reducible intro t; first | (refine (fun (ht : P t) => ?_) (?_ : P t); rotate_left; subst t; rotate_right; clear_value t) | skip | skip)
    | lift_lets -underBinder
    | split

theorem State.slateDue_keeps {P : State → Prop} (h : Stable [.out, .ctr, .nv, .notify, .sc, .ss, .tm, .fb, .sl, .journal, .ev] P) (s : State) (a1 : _) (hs : P s) : P (State.slateDue s a1) := by
  have k1 := @State.pinWait_keeps P (h.mono rfl)
  have k2 := @State.issueMoves_keeps P (h.mono rfl)
  have k3 := @State.beginMoving_keeps P (h.mono rfl)
  have k4 := @State.touchEntry_keeps P (h.mono rfl)
  have k5 := @State.toState_keeps P (h.mono rfl)
  have k6 := @State.unsolicited_keeps P (h.mono rfl)
  unfold State.slateDue
  repeat'
    first
    | with_reducible assumption
    | rfl
    | (with_reducible apply k1)
    | (with_reducible apply k2)
    | (with_reducible apply k3)
    | (with_reducible apply k4)
    | (with_reducible apply k5)
    | (with_reducible apply k6)
    | (with_reducible apply ite_keeps (P := P))
    | (with_reducible apply foldl_keeps (P := P))
    | (refine fun (t : State) (ht : P t) => ?_)
    | (refine fun (_ : _) (t : State) (ht : P t) => ?_)
    | (with_reducible intro t; first | (refine (fun (ht : P t) => ?_) (?_ : P t); rotate_left; subst t; rotate_right; clear_value t) | skip | skip)
    | lift_lets -underBinder
    | split

theorem State.farDue_keeps {P : State → Prop} (h : Stable [.out, .ctr, .notify, .ss, .sl, .ev] P) (s : State) (a1 : _) (hs : P s) : P (State.farDue s a1) := by
  have k1 := @State.unsolicited_keeps P (h.mono rfl)
  have k2 := @State.setSess_keeps P (h.mono rfl)
  unfold State.farDue
  repeat'
    first
    | with_reducible assumption
    | rfl
    | (with_reducible apply k1)
    | (with_reducible apply k2)
    | (with_reducible apply ite_keeps (P := P))
    | (with_reducible apply foldl_keeps (P := P))
    | (refine fun (t : State) (ht : P t) => ?_)
    | (refine fun (_ : _) (t : State) (ht : P t) => ?_)
    | (with_reducible intro t; first | (refine (fun (ht : P t) => ?_) (?_ : P t); rotate_left; subst t; rotate_right; clear_value t) | skip | skip)
    | lift_lets -underBinder
    | split

theorem State.timerDue_keeps {P : State → Prop} (h : Stable [.out, .ctr, .nv, .notify, .sc, .ss, .tm, .fb, .sl, .journal, .ev] P) (s : State) (a1 : _) (hs : P s) : P (State.timerDue s a1) := by
  have k1 := @State.parkDue_keeps P (h.mono rfl)
  have k2 := @State.deepDue_keeps P (h.mono rfl)
  have k3 := @State.slateDue_keeps P (h.mono rfl)
  have k4 := @State.farDue_keeps P (h.mono rfl)
  unfold State.timerDue
  repeat'
    first
    | with_reducible assumption
    | rfl
    | (with_reducible apply k1)
    | (with_reducible apply k2)
    | (with_reducible apply k3)
    | (with_reducible apply k4)
    | (with_reducible apply ite_keeps (P := P))
    | (with_reducible apply when_keeps (P := P))
    | (with_reducible apply foldl_keeps (P := P))
    | (refine fun (t : State) (ht : P t) => ?_)
    | (refine fun (_ : _) (t : State) (ht : P t) => ?_)
    | (with_reducible intro t; first | (refine (fun (ht : P t) => ?_) (?_ : P t); rotate_left; subst t; rotate_right; clear_value t) | skip | skip)
    | lift_lets -underBinder
    | split

theorem State.lateInRing_keeps {P : State → Prop} (h : Stable [.out, .ctr, .notify, .ss, .sl, .ev] P) (s : State) (a1 : _) (hs : P s) : P (State.lateInRing s a1) := by
  have k1 := @State.setSess_keeps P (h.mono rfl)
  have k2 := @State.endDesc_keeps P (h.mono rfl)
  unfold State.lateInRing
  repeat'
    first
    | with_reducible assumption
    | rfl
    | (with_reducible apply k1)
    | (with_reducible apply k2)
    | (with_reducible apply ite_keeps (P := P))
    | (with_reducible apply each_keeps (P := P))
    | (with_reducible apply foldl_keeps (P := P))
    | (refine fun (t : State) (ht : P t) => ?_)
    | (refine fun (_ : _) (t : State) (ht : P t) => ?_)
    | (with_reducible intro t; first | (refine (fun (ht : P t) => ?_) (?_ : P t); rotate_left; subst t; rotate_right; clear_value t) | skip | skip)
    | lift_lets -underBinder
    | split

theorem State.lateInDring_keeps {P : State → Prop} (h : Stable [.out, .ctr, .notify, .ss, .sl, .ev] P) (s : State) (a1 : _) (hs : P s) : P (State.lateInDring s a1) := by
  have k1 := @State.setDring_keeps P (h.mono rfl)
  have k2 := @State.endDom_keeps P (h.mono rfl)
  unfold State.lateInDring
  repeat'
    first
    | with_reducible assumption
    | rfl
    | (with_reducible apply k1)
    | (with_reducible apply k2)
    | (with_reducible apply ite_keeps (P := P))
    | (with_reducible apply each_keeps (P := P))
    | (with_reducible apply foldl_keeps (P := P))
    | (refine fun (t : State) (ht : P t) => ?_)
    | (refine fun (_ : _) (t : State) (ht : P t) => ?_)
    | (with_reducible intro t; first | (refine (fun (ht : P t) => ?_) (?_ : P t); rotate_left; subst t; rotate_right; clear_value t) | skip | skip)
    | lift_lets -underBinder
    | split

theorem State.lateRun_keeps {P : State → Prop} (h : Stable [.out, .ctr, .notify, .ss, .tm, .sl, .ev] P) (s : State) (a1 : _) (hs : P s) : P (State.lateRun s a1) := by
  have k1 := @State.evS_keeps P (h.mono rfl)
  have k2 := @State.stopRun_keeps P (h.mono rfl)
  unfold State.lateRun
  repeat'
    first
    | with_reducible assumption
    | rfl
    | (with_reducible apply k1)
    | (with_reducible apply k2)
    | (with_reducible apply ite_keeps (P := P))
    | (with_reducible apply foldl_keeps (P := P))
    | (refine fun (t : State) (ht : P t) => ?_)
    | (refine fun (_ : _) (t : State) (ht : P t) => ?_)
    | (with_reducible intro t; first | (refine (fun (ht : P t) => ?_) (?_ : P t); rotate_left; subst t; rotate_right; clear_value t) | skip | skip)
    | lift_lets -underBinder
    | split

theorem State.retryWaits_keeps {P : State → Prop} (h : Stable [.out, .ctr, .nv, .notify, .sc, .ss, .tm, .fb, .sv, .tx, .se, .sl, .dx, .ck, .journal, .ev] P) (s : State) (hs : P s) : P (State.retryWaits s) := by
  have k1 := @State.allocGrace_keeps P (h.mono rfl)
  have k2 := @State.issueMoves_keeps P (h.mono rfl)
  have k3 := @State.issueRevival_keeps P (h.mono rfl)
  have k4 := @State.tryLoad_keeps P (h.mono rfl)
  have k5 := @State.trySelect_keeps P (h.mono rfl)
  have k6 := @State.tryCreate_keeps P (h.mono rfl)
  have k7 := @State.tryInsert_keeps P (h.mono rfl)
  have k8 := @State.placeAll_keeps P (h.mono rfl)
  have k9 := @State.farPump_keeps P (h.mono rfl)
  unfold State.retryWaits
  repeat'
    first
    | with_reducible assumption
    | rfl
    | (with_reducible apply k1)
    | (with_reducible apply k2)
    | (with_reducible apply k3)
    | (with_reducible apply k4)
    | (with_reducible apply k5)
    | (with_reducible apply k6)
    | (with_reducible apply k7)
    | (with_reducible apply k8)
    | (with_reducible apply k9)
    | (with_reducible apply ite_keeps (P := P))
    | (with_reducible apply each_keeps (P := P))
    | (with_reducible apply when_keeps (P := P))
    | (with_reducible apply foldl_keeps (P := P))
    | (refine fun (t : State) (ht : P t) => ?_)
    | (refine fun (_ : _) (t : State) (ht : P t) => ?_)
    | (with_reducible intro t; first | (refine (fun (ht : P t) => ?_) (?_ : P t); rotate_left; subst t; rotate_right; clear_value t) | skip | skip)
    | lift_lets -underBinder
    | split

theorem State.windowDue_keeps {P : State → Prop} (h : Stable [.wfn, .win, .ev] P) (s : State) (a1 : _) (hs : P s) : P (State.windowDue s a1) := by
  have k1 := @State.revoke_keeps P (h.mono rfl)
  unfold State.windowDue
  repeat'
    first
    | with_reducible assumption
    | rfl
    | (with_reducible apply k1)
    | (with_reducible apply ite_keeps (P := P))
    | (with_reducible apply foldl_keeps (P := P))
    | (refine fun (t : State) (ht : P t) => ?_)
    | (refine fun (_ : _) (t : State) (ht : P t) => ?_)
    | (with_reducible intro t; first | (refine (fun (ht : P t) => ?_) (?_ : P t); rotate_left; subst t; rotate_right; clear_value t) | skip | skip)
    | lift_lets -underBinder
    | split

theorem State.countStalls_keeps {P : State → Prop} (h : Stable [.ctr] P) (s : State) (hs : P s) : P (State.countStalls s) := by
  have pInc := h.ctrInc rfl
  unfold State.countStalls
  repeat'
    first
    | with_reducible assumption
    | rfl
    | (with_reducible apply pInc)
    | (with_reducible apply ite_keeps (P := P))
    | (with_reducible apply each_keeps (P := P))
    | (with_reducible apply foldl_keeps (P := P))
    | (refine fun (t : State) (ht : P t) => ?_)
    | (refine fun (_ : _) (t : State) (ht : P t) => ?_)
    | (with_reducible intro t; first | (refine (fun (ht : P t) => ?_) (?_ : P t); rotate_left; subst t; rotate_right; clear_value t) | skip | skip)
    | lift_lets -underBinder
    | split

theorem State.drainPins_keeps {P : State → Prop} (h : Stable [.ctr, .ev] P) (s : State) (hs : P s) : P (State.drainPins s) := by
  have k1 := @State.pinWait_keeps P (h.mono rfl)
  unfold State.drainPins
  repeat'
    first
    | with_reducible assumption
    | rfl
    | (with_reducible apply k1)
    | (with_reducible apply ite_keeps (P := P))
    | (with_reducible apply each_keeps (P := P))
    | (with_reducible apply foldl_keeps (P := P))
    | (refine fun (t : State) (ht : P t) => ?_)
    | (refine fun (_ : _) (t : State) (ht : P t) => ?_)
    | (with_reducible intro t; first | (refine (fun (ht : P t) => ?_) (?_ : P t); rotate_left; subst t; rotate_right; clear_value t) | skip | skip)
    | lift_lets -underBinder
    | split

theorem dueItems_keeps {P : State → Prop} (h : Stable [.out, .ctr, .nv, .wfn, .win, .notify, .sc, .scAny, .ss, .tm, .fb, .sv, .tx, .se, .sl, .dx, .ck, .journal, .ev] P) (a0 : _) (a1 : _) (s : State) (hs : P s) : P (dueItems a0 a1 s) := by
  have k1 := @State.refill_keeps P (h.mono rfl)
  have k2 := @State.lateInRing_keeps P (h.mono rfl)
  have k3 := @State.lateRun_keeps P (h.mono rfl)
  have k4 := @State.lateInDring_keeps P (h.mono rfl)
  have k5 := @State.timerDue_keeps P (h.mono rfl)
  have k6 := @newDefinitions_keeps P (h.mono rfl)
  have k7 := @newEpochs_keeps P (h.mono rfl)
  have k8 := @State.windowDue_keeps P (h.mono rfl)
  have k9 := @State.drainPins_keeps P (h.mono rfl)
  have k10 := @State.countStalls_keeps P (h.mono rfl)
  have k11 := @State.retryWaits_keeps P (h.mono rfl)
  have k12 := @ckptAction_keeps P (h.mono rfl)
  have pUsv := h.sv rfl
  unfold dueItems
  repeat'
    first
    | with_reducible assumption
    | rfl
    | (with_reducible apply k1)
    | (with_reducible apply k2)
    | (with_reducible apply k3)
    | (with_reducible apply k4)
    | (with_reducible apply k5)
    | (with_reducible apply k6)
    | (with_reducible apply k7)
    | (with_reducible apply k8)
    | (with_reducible apply k9)
    | (with_reducible apply k10)
    | (with_reducible apply k11)
    | (with_reducible apply k12)
    | (with_reducible refine pUsv _ _ (by with_reducible assumption))
    | (with_reducible apply ite_keeps (P := P))
    | (with_reducible apply each_keeps (P := P))
    | (with_reducible apply foldl_keeps (P := P))
    | (refine fun (t : State) (ht : P t) => ?_)
    | (refine fun (_ : _) (t : State) (ht : P t) => ?_)
    | (with_reducible intro t; first | (refine (fun (ht : P t) => ?_) (?_ : P t); rotate_left; subst t; rotate_right; clear_value t) | skip | skip)
    | lift_lets -underBinder
    | split
    | (with_reducible apply pUsv)

theorem pickLostSessions_keeps {P : State → Prop} (h : Stable [.out, .ctr, .nv, .notify, .sc, .ss, .tm, .fb, .se, .sl, .dx, .ev] P) (s : State) (hs : P s) : P (pickLostSessions s) := by
  have k1 := @State.boundaries_keeps P (h.mono rfl)
  have k2 := @State.tryInsert_keeps P (h.mono rfl)
  have k3 := @State.trySelect_keeps P (h.mono rfl)
  unfold pickLostSessions
  repeat'
    first
    | with_reducible assumption
    | rfl
    | (with_reducible apply k1)
    | (with_reducible apply k2)
    | (with_reducible apply k3)
    | (with_reducible apply ite_keeps (P := P))
    | (with_reducible apply each_keeps (P := P))
    | (with_reducible apply foldl_keeps (P := P))
    | (refine fun (t : State) (ht : P t) => ?_)
    | (refine fun (_ : _) (t : State) (ht : P t) => ?_)
    | (with_reducible intro t; first | (refine (fun (ht : P t) => ?_) (?_ : P t); rotate_left; subst t; rotate_right; clear_value t) | skip | skip)
    | lift_lets -underBinder
    | split

theorem execParkPickReached_keeps {P : State → Prop} (h : Stable [.out, .ctr, .nv, .notify, .sc, .ss, .tm, .fb, .sl, .journal, .ev] P) (a0 : _) (a1 : _) (s : State) (hs : P (s.at a0)) : OkX P (execParkPickReached a0 a1 s) := by
  have k1 := @State.parkDue_keeps P (h.mono rfl)
  unfold execParkPickReached
  repeat'
    first
    | with_reducible assumption
    | rfl
    | (refine run_keeps ?_ (by assumption))
    | (with_reducible apply k1)
    | (with_reducible apply ite_keeps (P := P))
    | (with_reducible apply foldl_keeps (P := P))
    | (refine fun (t : State) (ht : P t) => ?_)
    | (refine fun (_ : _) (t : State) (ht : P t) => ?_)
    | (with_reducible intro t; first | (refine (fun (ht : P t) => ?_) (?_ : P t); rotate_left; subst t; rotate_right; clear_value t) | skip | skip)
    | lift_lets -underBinder
    | split

theorem execDeepTtlExpire_keeps {P : State → Prop} (h : Stable [.out, .ctr, .nv, .notify, .sc, .ss, .tm, .fb, .sl, .journal, .ev] P) (a0 : _) (a1 : _) (s : State) (hs : P (s.at a0)) : OkX P (execDeepTtlExpire a0 a1 s) := by
  have k1 := @State.deepDue_keeps P (h.mono rfl)
  unfold execDeepTtlExpire
  repeat'
    first
    | with_reducible assumption
    | rfl
    | (refine run_keeps ?_ (by assumption))
    | (with_reducible apply k1)
    | (with_reducible apply ite_keeps (P := P))
    | (with_reducible apply foldl_keeps (P := P))
    | (refine fun (t : State) (ht : P t) => ?_)
    | (refine fun (_ : _) (t : State) (ht : P t) => ?_)
    | (with_reducible intro t; first | (refine (fun (ht : P t) => ?_) (?_ : P t); rotate_left; subst t; rotate_right; clear_value t) | skip | skip)
    | lift_lets -underBinder
    | split

theorem execSlateTtlExpire_keeps {P : State → Prop} (h : Stable [.out, .ctr, .nv, .notify, .sc, .ss, .tm, .fb, .sl, .journal, .ev] P) (a0 : _) (a1 : _) (s : State) (hs : P (s.at a0)) : OkX P (execSlateTtlExpire a0 a1 s) := by
  have k1 := @State.slateDue_keeps P (h.mono rfl)
  unfold execSlateTtlExpire
  repeat'
    first
    | with_reducible assumption
    | rfl
    | (refine run_keeps ?_ (by assumption))
    | (with_reducible apply k1)
    | (with_reducible apply ite_keeps (P := P))
    | (with_reducible apply foldl_keeps (P := P))
    | (refine fun (t : State) (ht : P t) => ?_)
    | (refine fun (_ : _) (t : State) (ht : P t) => ?_)
    | (with_reducible intro t; first | (refine (fun (ht : P t) => ?_) (?_ : P t); rotate_left; subst t; rotate_right; clear_value t) | skip | skip)
    | lift_lets -underBinder
    | split

theorem execFarTtlExpire_keeps {P : State → Prop} (h : Stable [.out, .ctr, .notify, .ss, .sl, .ev] P) (a0 : _) (a1 : _) (s : State) (hs : P (s.at a0)) : OkX P (execFarTtlExpire a0 a1 s) := by
  have k1 := @State.farDue_keeps P (h.mono rfl)
  unfold execFarTtlExpire
  repeat'
    first
    | with_reducible assumption
    | rfl
    | (refine run_keeps ?_ (by assumption))
    | (with_reducible apply k1)
    | (with_reducible apply ite_keeps (P := P))
    | (with_reducible apply foldl_keeps (P := P))
    | (refine fun (t : State) (ht : P t) => ?_)
    | (refine fun (_ : _) (t : State) (ht : P t) => ?_)
    | (with_reducible intro t; first | (refine (fun (ht : P t) => ?_) (?_ : P t); rotate_left; subst t; rotate_right; clear_value t) | skip | skip)
    | lift_lets -underBinder
    | split

theorem execDeadlineExpire_keeps {P : State → Prop} (h : Stable [.out, .ctr, .notify, .ss, .tm, .sl, .ev] P) (a0 : _) (a1 : _) (s : State) (hs : P (s.at a0)) : OkX P (execDeadlineExpire a0 a1 s) := by
  have k1 := @State.lateInRing_keeps P (h.mono rfl)
  have k2 := @State.lateRun_keeps P (h.mono rfl)
  have k3 := @State.lateInDring_keeps P (h.mono rfl)
  unfold execDeadlineExpire
  repeat'
    first
    | with_reducible assumption
    | rfl
    | (refine run_keeps ?_ (by assumption))
    | (with_reducible apply k1)
    | (with_reducible apply k2)
    | (with_reducible apply k3)
    | (with_reducible apply ite_keeps (P := P))
    | (with_reducible apply foldl_keeps (P := P))
    | (refine fun (t : State) (ht : P t) => ?_)
    | (refine fun (_ : _) (t : State) (ht : P t) => ?_)
    | (with_reducible intro t; first | (refine (fun (ht : P t) => ?_) (?_ : P t); rotate_left; subst t; rotate_right; clear_value t) | skip | skip)
    | lift_lets -underBinder
    | split

end Sys2Proof.Machine
end

