-- ==== Sys2Proof/Laws/KeepsPicks.lean ====
section
/-! SUPPORT. What the operations of Machine/Picks.lean can do to the state (`Laws/Keeps.lean`): one lemma per operation. -/

set_option linter.all false

namespace Sys2Proof.Machine

open Sys2Proof

theorem Pick.learn_length {p : Pick} {q : PendPick} (h : p.intervals.length ≤ 16) : (p.learn q).intervals.length ≤ 16 := by
  unfold Pick.learn
  split
  · exact h
  · split
    · exact h
    · split
      · exact h
      · dsimp only
        split
        · exact List.length_take_le 16 _
        · exact h

theorem State.toTree_keeps {P : State → Prop} (h : Stable [.out, .dx, .ev] P) (s : State) (a1 : _) (a2 : _) (hs : P s) : P (State.toTree s a1 a2) := by
  have k1 := @State.sendCtl_keeps P (h.mono rfl)
  unfold State.toTree
  repeat'
    first
    | with_reducible assumption
    | rfl
    | (with_reducible apply k1)
    | (with_reducible apply ite_keeps (P := P))
    | (with_reducible apply each_keeps (P := P))
    | (with_reducible apply foldl_keeps (P := P))
    | (refine fun (t : State) (ht : P t) => ?_)
    | (refine fun (_ : _) (t : State) (ht : P t) => ?_)
    | (with_reducible intro t; first | (refine (fun (ht : P t) => ?_) (?_ : P t); rotate_left; subst t; rotate_right; clear_value t) | skip | skip)
    | lift_lets -underBinder
    | split

theorem State.queuePick_keeps {P : State → Prop} (h : Stable [.ctr, .pkAny, .ev] P) (s : State) (a1 : _) (a2 : _) (a3 : _) (a4 : _) (a5 : _) (hs : P s) : P (State.queuePick s a1 a2 a3 a4 a5) := by
  have pInc := h.ctrInc rfl
  have pEv := h.ev rfl
  have pUpkAny := h.pkAny rfl
  unfold State.queuePick
  repeat'
    first
    | ((with_reducible apply PkSide.mk); first | exact id | exact Pick.learn_length)
    | with_reducible assumption
    | rfl
    | (with_reducible apply pInc)
    | (with_reducible apply pEv)
    | (with_reducible apply ite_keeps (P := P))
    | (with_reducible apply when_keeps (P := P))
    | (with_reducible apply foldl_keeps (P := P))
    | (refine fun (t : State) (ht : P t) => ?_)
    | (refine fun (_ : _) (t : State) (ht : P t) => ?_)
    | (with_reducible intro t; first | (refine (fun (ht : P t) => ?_) (?_ : P t); rotate_left; subst t; rotate_right; clear_value t) | skip | skip)
    | lift_lets -underBinder
    | split
    | (with_reducible apply pUpkAny)

theorem State.rejectPick_keeps {P : State → Prop} (h : Stable [.ctr, .ev] P) (s : State) (hs : P s) : P (State.rejectPick s) := by
  have pInc := h.ctrInc rfl
  have pEv := h.ev rfl
  unfold State.rejectPick
  repeat'
    first
    | with_reducible assumption
    | rfl
    | (with_reducible apply pInc)
    | (with_reducible apply pEv)
    | (with_reducible apply ite_keeps (P := P))
    | (with_reducible apply foldl_keeps (P := P))
    | (refine fun (t : State) (ht : P t) => ?_)
    | (refine fun (_ : _) (t : State) (ht : P t) => ?_)
    | (with_reducible intro t; first | (refine (fun (ht : P t) => ?_) (?_ : P t); rotate_left; subst t; rotate_right; clear_value t) | skip | skip)
    | lift_lets -underBinder
    | split

theorem State.sourceSeen_keeps {P : State → Prop} (h : Stable [.pkAny] P) (s : State) (hs : P s) : P (State.sourceSeen s) := by
  have pUpkAny := h.pkAny rfl
  unfold State.sourceSeen
  repeat'
    first
    | ((with_reducible apply PkSide.mk); first | exact id | exact Pick.learn_length)
    | with_reducible assumption
    | rfl
    | (with_reducible apply ite_keeps (P := P))
    | (with_reducible apply foldl_keeps (P := P))
    | (refine fun (t : State) (ht : P t) => ?_)
    | (refine fun (_ : _) (t : State) (ht : P t) => ?_)
    | (with_reducible intro t; first | (refine (fun (ht : P t) => ?_) (?_ : P t); rotate_left; subst t; rotate_right; clear_value t) | skip | skip)
    | lift_lets -underBinder
    | split
    | (with_reducible apply pUpkAny)

theorem State.duplicatePick_keeps {P : State → Prop} (h : Stable [.ctr, .pkAny, .ev] P) (s : State) (a1 : _) (hs : P s) : P (State.duplicatePick s a1) := by
  have k1 := @State.rejectPick_keeps P (h.mono rfl)
  have pUpkAny := h.pkAny rfl
  unfold State.duplicatePick
  repeat'
    first
    | ((with_reducible apply PkSide.mk); first | exact id | exact Pick.learn_length)
    | with_reducible assumption
    | rfl
    | (with_reducible apply k1)
    | (with_reducible apply ite_keeps (P := P))
    | (with_reducible apply foldl_keeps (P := P))
    | (refine fun (t : State) (ht : P t) => ?_)
    | (refine fun (_ : _) (t : State) (ht : P t) => ?_)
    | (with_reducible intro t; first | (refine (fun (ht : P t) => ?_) (?_ : P t); rotate_left; subst t; rotate_right; clear_value t) | skip | skip)
    | lift_lets -underBinder
    | split
    | (with_reducible apply pUpkAny)

theorem State.messagePick_keeps {P : State → Prop} (h : Stable [.ctr, .pkAny, .ev] P) (s : State) (a1 : _) (a2 : _) (a3 : _) (a4 : _) (hs : P s) : P (State.messagePick s a1 a2 a3 a4) := by
  have k1 := @State.duplicatePick_keeps P (h.mono rfl)
  have k2 := @State.rejectPick_keeps P (h.mono rfl)
  have k3 := @State.queuePick_keeps P (h.mono rfl)
  have k4 := @State.sourceSeen_keeps P (h.mono rfl)
  have pInc := h.ctrInc rfl
  have pEv := h.ev rfl
  unfold State.messagePick
  repeat'
    first
    | with_reducible assumption
    | rfl
    | (with_reducible apply k1)
    | (with_reducible apply k2)
    | (with_reducible apply k3)
    | (with_reducible apply k4)
    | (with_reducible apply pInc)
    | (with_reducible apply pEv)
    | (with_reducible apply ite_keeps (P := P))
    | (with_reducible apply when_keeps (P := P))
    | (with_reducible apply foldl_keeps (P := P))
    | (refine fun (t : State) (ht : P t) => ?_)
    | (refine fun (_ : _) (t : State) (ht : P t) => ?_)
    | (with_reducible intro t; first | (refine (fun (ht : P t) => ?_) (?_ : P t); rotate_left; subst t; rotate_right; clear_value t) | skip | skip)
    | lift_lets -underBinder
    | split

theorem execPickContactEdge_keeps {P : State → Prop} (h : Stable [.out, .ctr, .pkAny, .dx, .ev] P) (a0 : _) (a1 : _) (a2 : _) (s : State) (hs : P (s.at a0)) : OkX P (execPickContactEdge a0 a1 a2 s) := by
  have k1 := @State.queuePick_keeps P (h.mono rfl)
  have k2 := @State.sourceSeen_keeps P (h.mono rfl)
  have k3 := @State.toTree_keeps P (h.mono rfl)
  have pInc := h.ctrInc rfl
  have pEv := h.ev rfl
  have pUpkAny := h.pkAny rfl
  unfold execPickContactEdge
  repeat'
    first
    | ((with_reducible apply PkSide.mk); first | exact id | exact Pick.learn_length)
    | with_reducible assumption
    | rfl
    | (refine run_keeps ?_ (by assumption))
    | (with_reducible apply k1)
    | (with_reducible apply k2)
    | (with_reducible apply k3)
    | (with_reducible apply pInc)
    | (with_reducible apply pEv)
    | (with_reducible apply ite_keeps (P := P))
    | (with_reducible apply foldl_keeps (P := P))
    | (refine fun (t : State) (ht : P t) => ?_)
    | (refine fun (_ : _) (t : State) (ht : P t) => ?_)
    | (with_reducible intro t; first | (refine (fun (ht : P t) => ?_) (?_ : P t); rotate_left; subst t; rotate_right; clear_value t) | skip | skip)
    | lift_lets -underBinder
    | split
    | (with_reducible apply pUpkAny)

theorem execHostPickMessage_keeps {P : State → Prop} (h : Stable [.out, .ctr, .pkAny, .dx, .ev] P) (a0 : _) (a1 : _) (a2 : _) (s : State) (hs : P (s.at a0)) : OkX P (execHostPickMessage a0 a1 a2 s) := by
  have k1 := @State.messagePick_keeps P (h.mono rfl)
  have k2 := @State.toTree_keeps P (h.mono rfl)
  have k3 := @State.rejectPick_keeps P (h.mono rfl)
  unfold execHostPickMessage
  repeat'
    first
    | with_reducible assumption
    | rfl
    | (refine run_keeps ?_ (by assumption))
    | (with_reducible apply k1)
    | (with_reducible apply k2)
    | (with_reducible apply k3)
    | (with_reducible apply ite_keeps (P := P))
    | (with_reducible apply when_keeps (P := P))
    | (with_reducible apply foldl_keeps (P := P))
    | (refine fun (t : State) (ht : P t) => ?_)
    | (refine fun (_ : _) (t : State) (ht : P t) => ?_)
    | (with_reducible intro t; first | (refine (fun (ht : P t) => ?_) (?_ : P t); rotate_left; subst t; rotate_right; clear_value t) | skip | skip)
    | lift_lets -underBinder
    | split

theorem State.sawTree_keeps {P : State → Prop} (h : Stable [.pkAny] P) (s : State) (a1 : _) (a2 : _) (hs : P s) : P (State.sawTree s a1 a2) := by
  have pUpkAny := h.pkAny rfl
  unfold State.sawTree
  repeat'
    first
    | ((with_reducible apply PkSide.mk); first | exact id | exact Pick.learn_length)
    | with_reducible assumption
    | rfl
    | (with_reducible apply ite_keeps (P := P))
    | (with_reducible apply foldl_keeps (P := P))
    | (refine fun (t : State) (ht : P t) => ?_)
    | (refine fun (_ : _) (t : State) (ht : P t) => ?_)
    | (with_reducible intro t; first | (refine (fun (ht : P t) => ?_) (?_ : P t); rotate_left; subst t; rotate_right; clear_value t) | skip | skip)
    | lift_lets -underBinder
    | split
    | (with_reducible apply pUpkAny)

theorem execPick_keeps {P : State → Prop} (h : Stable [.out, .ctr, .pkAny, .dx, .ev] P) (a0 : _) (a1 : _) (a2 : _) (s : State) (hs : P (s.at a0)) : OkX P (execPick a0 a1 a2 s) := by
  have k1 := @State.ctlArrive_keeps P (h.mono rfl)
  have k2 := @State.sawTree_keeps P (h.mono rfl)
  have k3 := @State.messagePick_keeps P (h.mono rfl)
  have k4 := @State.toTree_keeps P (h.mono rfl)
  have k5 := @State.rejectPick_keeps P (h.mono rfl)
  unfold execPick
  repeat'
    first
    | with_reducible assumption
    | rfl
    | (refine run_keeps ?_ (by assumption))
    | (with_reducible apply k1)
    | (with_reducible apply k2)
    | (with_reducible apply k3)
    | (with_reducible apply k4)
    | (with_reducible apply k5)
    | (with_reducible apply ite_keeps (P := P))
    | (with_reducible apply when_keeps (P := P))
    | (with_reducible apply foldl_keeps (P := P))
    | (refine fun (t : State) (ht : P t) => ?_)
    | (refine fun (_ : _) (t : State) (ht : P t) => ?_)
    | (with_reducible intro t; first | (refine (fun (ht : P t) => ?_) (?_ : P t); rotate_left; subst t; rotate_right; clear_value t) | skip | skip)
    | lift_lets -underBinder
    | split

theorem monAtAction_keeps {P : State → Prop} (h : Stable [.mn] P) (a0 : _) (a1 : _) (s : State) (hs : P s) : P (monAtAction a0 a1 s) := by
  have k1 := @State.setMon_keeps P (h.mono rfl)
  unfold monAtAction
  repeat'
    first
    | with_reducible assumption
    | rfl
    | (with_reducible apply k1)
    | (with_reducible apply ite_keeps (P := P))
    | (with_reducible apply when_keeps (P := P))
    | (with_reducible apply foldl_keeps (P := P))
    | (refine fun (t : State) (ht : P t) => ?_)
    | (refine fun (_ : _) (t : State) (ht : P t) => ?_)
    | (with_reducible intro t; first | (refine (fun (ht : P t) => ?_) (?_ : P t); rotate_left; subst t; rotate_right; clear_value t) | skip | skip)
    | lift_lets -underBinder
    | split

theorem traceAtAction_keeps {P : State → Prop} (h : Stable [.mnAny] P) (a0 : _) (a1 : _) (s : State) (hs : P s) : P (traceAtAction a0 a1 s) := by
  have pUmnAny := h.mnAny rfl
  unfold traceAtAction
  repeat'
    first
    | ((with_reducible apply MnSide.mk); first | exact id | exact fun _ => Nat.zero_le _)
    | with_reducible assumption
    | rfl
    | (with_reducible apply ite_keeps (P := P))
    | (with_reducible apply when_keeps (P := P))
    | (with_reducible apply foldl_keeps (P := P))
    | (refine fun (t : State) (ht : P t) => ?_)
    | (refine fun (_ : _) (t : State) (ht : P t) => ?_)
    | (with_reducible intro t; first | (refine (fun (ht : P t) => ?_) (?_ : P t); rotate_left; subst t; rotate_right; clear_value t) | skip | skip)
    | lift_lets -underBinder
    | split
    | (with_reducible apply pUmnAny)

theorem enterLost_keeps {P : State → Prop} (h : Stable [.out, .ctr, .nv, .pkAny, .notify, .sc, .ss, .tm, .fb, .se, .sl, .dx, .mn, .ev] P) (s : State) (hs : P s) : P (enterLost s) := by
  have k1 := @State.setMon_keeps P (h.mono rfl)
  have k2 := @pickLostSessions_keeps P (h.mono rfl)
  have pInc := h.ctrInc rfl
  have pEv := h.ev rfl
  have pNotify := h.notify rfl
  have pUpkAny := h.pkAny rfl
  unfold enterLost
  repeat'
    first
    | ((with_reducible apply PkSide.mk); first | exact id | exact Pick.learn_length)
    | with_reducible assumption
    | rfl
    | (with_reducible apply k1)
    | (with_reducible apply k2)
    | (with_reducible apply pInc)
    | (with_reducible apply pEv)
    | (with_reducible apply pNotify)
    | (with_reducible apply ite_keeps (P := P))
    | (with_reducible apply each_keeps (P := P))
    | (with_reducible apply when_keeps (P := P))
    | (with_reducible apply foldl_keeps (P := P))
    | (refine fun (t : State) (ht : P t) => ?_)
    | (refine fun (_ : _) (t : State) (ht : P t) => ?_)
    | (with_reducible intro t; first | (refine (fun (ht : P t) => ?_) (?_ : P t); rotate_left; subst t; rotate_right; clear_value t) | skip | skip)
    | lift_lets -underBinder
    | split
    | (with_reducible apply pUpkAny)

theorem holdoverEnds_keeps {P : State → Prop} (h : Stable [.out, .ctr, .nv, .pkAny, .notify, .sc, .ss, .tm, .fb, .se, .sl, .dx, .mn, .ev] P) (s : State) (hs : P s) : P (holdoverEnds s) := by
  have k1 := @enterLost_keeps P (h.mono rfl)
  have k2 := @State.toTree_keeps P (h.mono rfl)
  unfold holdoverEnds
  repeat'
    first
    | with_reducible assumption
    | rfl
    | (with_reducible apply k1)
    | (with_reducible apply k2)
    | (with_reducible apply ite_keeps (P := P))
    | (with_reducible apply when_keeps (P := P))
    | (with_reducible apply foldl_keeps (P := P))
    | (refine fun (t : State) (ht : P t) => ?_)
    | (refine fun (_ : _) (t : State) (ht : P t) => ?_)
    | (with_reducible intro t; first | (refine (fun (ht : P t) => ?_) (?_ : P t); rotate_left; subst t; rotate_right; clear_value t) | skip | skip)
    | lift_lets -underBinder
    | split

theorem enterHoldover_keeps {P : State → Prop} (h : Stable [.out, .ctr, .nv, .pkAny, .notify, .sc, .ss, .tm, .fb, .se, .sl, .dx, .mn, .ev] P) (a0 : _) (s : State) (hs : P s) : P (enterHoldover a0 s) := by
  have k1 := @holdoverEnds_keeps P (h.mono rfl)
  have pEv := h.ev rfl
  have pUpkAny := h.pkAny rfl
  unfold enterHoldover
  repeat'
    first
    | ((with_reducible apply PkSide.mk); first | exact id | exact Pick.learn_length)
    | with_reducible assumption
    | rfl
    | (with_reducible apply k1)
    | (with_reducible apply pEv)
    | (with_reducible apply ite_keeps (P := P))
    | (with_reducible apply foldl_keeps (P := P))
    | (refine fun (t : State) (ht : P t) => ?_)
    | (refine fun (_ : _) (t : State) (ht : P t) => ?_)
    | (with_reducible intro t; first | (refine (fun (ht : P t) => ?_) (?_ : P t); rotate_left; subst t; rotate_right; clear_value t) | skip | skip)
    | lift_lets -underBinder
    | split
    | (with_reducible apply pUpkAny)

theorem stuckTransition_keeps {P : State → Prop} (h : Stable [.out, .ctr, .nv, .pkAny, .notify, .sc, .ss, .tm, .fb, .se, .sl, .dx, .mn, .ev] P) (s : State) (hs : P s) : P (stuckTransition s) := by
  have k1 := @enterHoldover_keeps P (h.mono rfl)
  have k2 := @enterLost_keeps P (h.mono rfl)
  unfold stuckTransition
  repeat'
    first
    | with_reducible assumption
    | rfl
    | (with_reducible apply k1)
    | (with_reducible apply k2)
    | (with_reducible apply ite_keeps (P := P))
    | (with_reducible apply foldl_keeps (P := P))
    | (refine fun (t : State) (ht : P t) => ?_)
    | (refine fun (_ : _) (t : State) (ht : P t) => ?_)
    | (with_reducible intro t; first | (refine (fun (ht : P t) => ?_) (?_ : P t); rotate_left; subst t; rotate_right; clear_value t) | skip | skip)
    | lift_lets -underBinder
    | split

theorem barrierCut_keeps {P : State → Prop} (h : Stable [.out, .ctr, .pk, .sl, .ev] P) (a0 : _) (a1 : _) (s : State) (hs : P s) : P (barrierCut a0 a1 s) := by
  have k1 := @State.txFlush_keeps P (h.mono rfl)
  have pUpk := h.pk rfl
  unfold barrierCut
  repeat'
    first
    | with_reducible assumption
    | rfl
    | (with_reducible apply k1)
    | (with_reducible refine pUpk _ _ (by dsimp only [Pick.rest]) (by with_reducible assumption))
    | (with_reducible apply ite_keeps (P := P))
    | (with_reducible apply each_keeps (P := P))
    | (with_reducible apply foldl_keeps (P := P))
    | (refine fun (t : State) (ht : P t) => ?_)
    | (refine fun (_ : _) (t : State) (ht : P t) => ?_)
    | (with_reducible intro t; first | (refine (fun (ht : P t) => ?_) (?_ : P t); rotate_left; subst t; rotate_right; clear_value t) | skip | skip)
    | lift_lets -underBinder
    | split
    | (with_reducible apply pUpk)

theorem actOn_keeps {P : State → Prop} (h : Stable [.out, .ctr, .nv, .nvAny, .wfn, .win, .pw, .pwAny, .pk, .pkAny, .notify, .sc, .scAny, .ss, .tm, .fb, .sv, .tx, .se, .sl, .et, .dx, .ck, .journal, .mn, .mnAny, .ev] P) (a0 : _) (s : State) (hs : P s) : P (actOn a0 s) := by
  have k1 := @monAtAction_keeps P (h.mono rfl)
  have k2 := @traceAtAction_keeps P (h.mono rfl)
  have k3 := @dueItems_keeps P (h.mono rfl)
  have k4 := @barrierCut_keeps P (h.mono rfl)
  have k5 := @stepDue_keeps P (h.mono rfl)
  have k6 := @settle_keeps P (h.mono rfl)
  have k7 := @stuckTransition_keeps P (h.mono rfl)
  unfold actOn
  extract_lets prev pk mirror s1 s2 s3 s4 s5 s6 s7 s8 s9 s10
  have h1 : P s1 := h.pkAny rfl s _ (fun q => Pick.learn_length q) hs
  have h2 : P s2 := when_keeps (P := P) (fun t ht => h.store rfl _ (h.nvAny rfl t _ ⟨Nat.le_refl _, id⟩ ht)) h1
  have h3 : P s3 := each_keeps (P := P) (fun f t ht => k1 _ _ t ht) h2
  have h4 : P s4 := k2 _ _ s3 h3
  have h5 : P s5 := when_keeps (P := P) (fun t ht => h.ctrInc rfl t _ _ _ _ rfl ht) (when_keeps (P := P) (fun t ht => h.ev rfl t _ _ _ _ _ _ ht) (h.ev rfl s4 _ _ _ _ _ _ h4))
  have h6 : P s6 := when_keeps (P := P) (fun t ht => h.et rfl t _ ht) h5
  have h7 : P s7 := k3 _ _ s6 h6
  have h8 : P s8 := k4 _ _ s7 h7
  have h9 : P s9 := when_keeps (P := P) (fun t ht => k5 _ t ht) h8
  have h10 : P s10 := k6 s9 h9
  clear_value s10
  exact ite_keeps (P := P) (k7 _ (h.pkAny rfl s10 _ id h10)) h10

theorem execPickActionPoint_keeps {P : State → Prop} (h : Stable [.out, .ctr, .nv, .nvAny, .wfn, .win, .pw, .pwAny, .pk, .pkAny, .notify, .sc, .scAny, .ss, .tm, .fb, .sv, .tx, .se, .sl, .et, .dx, .ck, .journal, .mn, .mnAny, .ev] P) (a0 : _) (s : State) (hs : P (s.at a0)) : OkX P (execPickActionPoint a0 s) := by
  have k1 := @actOn_keeps P (h.mono rfl)
  have pUpkAny := h.pkAny rfl
  unfold execPickActionPoint
  repeat'
    first
    | ((with_reducible apply PkSide.mk); first | exact id | exact Pick.learn_length)
    | with_reducible assumption
    | rfl
    | (refine run_keeps ?_ (by assumption))
    | (with_reducible apply k1)
    | (with_reducible apply ite_keeps (P := P))
    | (with_reducible apply foldl_keeps (P := P))
    | (refine fun (t : State) (ht : P t) => ?_)
    | (refine fun (_ : _) (t : State) (ht : P t) => ?_)
    | (with_reducible intro t; first | (refine (fun (ht : P t) => ?_) (?_ : P t); rotate_left; subst t; rotate_right; clear_value t) | skip | skip)
    | lift_lets -underBinder
    | split
    | (with_reducible apply pUpkAny)

theorem execPickStuckInput_keeps {P : State → Prop} (h : Stable [.out, .ctr, .nv, .pkAny, .notify, .sc, .ss, .tm, .fb, .se, .sl, .dx, .mn, .ev] P) (a0 : _) (s : State) (hs : P (s.at a0)) : OkX P (execPickStuckInput a0 s) := by
  have k1 := @stuckTransition_keeps P (h.mono rfl)
  have pInc := h.ctrInc rfl
  have pEv := h.ev rfl
  have pUpkAny := h.pkAny rfl
  unfold execPickStuckInput
  repeat'
    first
    | ((with_reducible apply PkSide.mk); first | exact id | exact Pick.learn_length)
    | with_reducible assumption
    | rfl
    | (refine run_keeps ?_ (by assumption))
    | (with_reducible apply k1)
    | (with_reducible apply pInc)
    | (with_reducible apply pEv)
    | (with_reducible apply ite_keeps (P := P))
    | (with_reducible apply foldl_keeps (P := P))
    | (refine fun (t : State) (ht : P t) => ?_)
    | (refine fun (_ : _) (t : State) (ht : P t) => ?_)
    | (with_reducible intro t; first | (refine (fun (ht : P t) => ?_) (?_ : P t); rotate_left; subst t; rotate_right; clear_value t) | skip | skip)
    | lift_lets -underBinder
    | split
    | (with_reducible apply pUpkAny)

theorem execLost_keeps {P : State → Prop} (h : Stable [.out, .ctr, .nv, .pkAny, .notify, .sc, .ss, .tm, .fb, .se, .sl, .dx, .mn, .ev] P) (a0 : _) (a1 : _) (a2 : _) (s : State) (hs : P (s.at a0)) : OkX P (execLost a0 a1 a2 s) := by
  have k1 := @State.ctlArrive_keeps P (h.mono rfl)
  have k2 := @State.toTree_keeps P (h.mono rfl)
  have k3 := @State.sawTree_keeps P (h.mono rfl)
  have k4 := @enterLost_keeps P (h.mono rfl)
  have k5 := @State.rejectPick_keeps P (h.mono rfl)
  unfold execLost
  repeat'
    first
    | with_reducible assumption
    | rfl
    | (refine run_keeps ?_ (by assumption))
    | (with_reducible apply k1)
    | (with_reducible apply k2)
    | (with_reducible apply k3)
    | (with_reducible apply k4)
    | (with_reducible apply k5)
    | (with_reducible apply ite_keeps (P := P))
    | (with_reducible apply when_keeps (P := P))
    | (with_reducible apply foldl_keeps (P := P))
    | (refine fun (t : State) (ht : P t) => ?_)
    | (refine fun (_ : _) (t : State) (ht : P t) => ?_)
    | (with_reducible intro t; first | (refine (fun (ht : P t) => ?_) (?_ : P t); rotate_left; subst t; rotate_right; clear_value t) | skip | skip)
    | lift_lets -underBinder
    | split

theorem holdoverPick_keeps {P : State → Prop} (h : Stable [.out, .ctr, .nv, .nvAny, .wfn, .win, .pw, .pwAny, .pk, .pkAny, .notify, .sc, .scAny, .ss, .tm, .fb, .sv, .tx, .se, .sl, .et, .dx, .ck, .journal, .mn, .mnAny, .ev] P) (a0 : _) (s : State) (hs : P s) : P (holdoverPick a0 s) := by
  have k1 := @State.toTree_keeps P (h.mono rfl)
  have k2 := @actOn_keeps P (h.mono rfl)
  unfold holdoverPick
  extract_lets n x s1 s2 s3 next s4
  have h1 : P s1 := h.pkAny rfl s _ id hs
  have h2 : P s2 := h.ev rfl s1 _ _ _ _ _ _ h1
  have h3 : P s3 := k1 s2 _ _ h2
  have h4 : P s4 := k2 _ s3 h3
  clear_value s4
  exact ite_keeps (P := P) (h.pkAny rfl s4 _ id h4) h4

theorem execPickMissTimeout_keeps {P : State → Prop} (h : Stable [.out, .ctr, .nv, .nvAny, .wfn, .win, .pw, .pwAny, .pk, .pkAny, .notify, .sc, .scAny, .ss, .tm, .fb, .sv, .tx, .se, .sl, .et, .dx, .ck, .journal, .mn, .mnAny, .ev] P) (a0 : _) (s : State) (hs : P (s.at a0)) : OkX P (execPickMissTimeout a0 s) := by
  have k1 := @enterHoldover_keeps P (h.mono rfl)
  have k2 := @holdoverPick_keeps P (h.mono rfl)
  have k3 := @enterLost_keeps P (h.mono rfl)
  unfold execPickMissTimeout
  repeat'
    first
    | with_reducible assumption
    | rfl
    | (refine run_keeps ?_ (by assumption))
    | (with_reducible apply k1)
    | (with_reducible apply k2)
    | (with_reducible apply k3)
    | (with_reducible apply ite_keeps (P := P))
    | (with_reducible apply foldl_keeps (P := P))
    | (refine fun (t : State) (ht : P t) => ?_)
    | (refine fun (_ : _) (t : State) (ht : P t) => ?_)
    | (with_reducible intro t; first | (refine (fun (ht : P t) => ?_) (?_ : P t); rotate_left; subst t; rotate_right; clear_value t) | skip | skip)
    | lift_lets -underBinder
    | split

theorem execHoldoverPickDue_keeps {P : State → Prop} (h : Stable [.out, .ctr, .nv, .nvAny, .wfn, .win, .pw, .pwAny, .pk, .pkAny, .notify, .sc, .scAny, .ss, .tm, .fb, .sv, .tx, .se, .sl, .et, .dx, .ck, .journal, .mn, .mnAny, .ev] P) (a0 : _) (s : State) (hs : P (s.at a0)) : OkX P (execHoldoverPickDue a0 s) := by
  have k1 := @holdoverEnds_keeps P (h.mono rfl)
  have k2 := @holdoverPick_keeps P (h.mono rfl)
  unfold execHoldoverPickDue
  repeat'
    first
    | with_reducible assumption
    | rfl
    | (refine run_keeps ?_ (by assumption))
    | (with_reducible apply k1)
    | (with_reducible apply k2)
    | (with_reducible apply ite_keeps (P := P))
    | (with_reducible apply foldl_keeps (P := P))
    | (refine fun (t : State) (ht : P t) => ?_)
    | (refine fun (_ : _) (t : State) (ht : P t) => ?_)
    | (with_reducible intro t; first | (refine (fun (ht : P t) => ?_) (?_ : P t); rotate_left; subst t; rotate_right; clear_value t) | skip | skip)
    | lift_lets -underBinder
    | split

theorem barrierPending_keeps {P : State → Prop} (h : Stable [.pk] P) (a0 : _) (a1 : _) (s : State) (hs : P s) : P (barrierPending a0 a1 s) := by
  have pUpk := h.pk rfl
  unfold barrierPending
  repeat'
    first
    | with_reducible assumption
    | rfl
    | (with_reducible refine pUpk _ _ (by dsimp only [Pick.rest]) (by with_reducible assumption))
    | (with_reducible apply ite_keeps (P := P))
    | (with_reducible apply foldl_keeps (P := P))
    | (refine fun (t : State) (ht : P t) => ?_)
    | (refine fun (_ : _) (t : State) (ht : P t) => ?_)
    | (with_reducible intro t; first | (refine (fun (ht : P t) => ?_) (?_ : P t); rotate_left; subst t; rotate_right; clear_value t) | skip | skip)
    | lift_lets -underBinder
    | split
    | (with_reducible apply pUpk)

theorem startBarrier_keeps {P : State → Prop} (h : Stable [.out, .pk, .dx, .ev] P) (a0 : _) (s : State) (hs : P s) : P (startBarrier a0 s) := by
  have k1 := @barrierPending_keeps P (h.mono rfl)
  have k2 := @State.routeCtl_keeps P (h.mono rfl)
  unfold startBarrier
  repeat'
    first
    | with_reducible assumption
    | rfl
    | (with_reducible apply k1)
    | (with_reducible apply k2)
    | (with_reducible apply ite_keeps (P := P))
    | (with_reducible apply each_keeps (P := P))
    | (with_reducible apply foldl_keeps (P := P))
    | (refine fun (t : State) (ht : P t) => ?_)
    | (refine fun (_ : _) (t : State) (ht : P t) => ?_)
    | (with_reducible intro t; first | (refine (fun (ht : P t) => ?_) (?_ : P t); rotate_left; subst t; rotate_right; clear_value t) | skip | skip)
    | lift_lets -underBinder
    | split

theorem execBarrierRequest_keeps {P : State → Prop} (h : Stable [.ctr, .pk, .dx] P) (a0 : _) (a1 : _) (a2 : _) (a3 : _) (s : State) (hs : P (s.at a0)) : OkX P (execBarrierRequest a0 a1 a2 a3 s) := by
  have k1 := @State.ctlArrive_keeps P (h.mono rfl)
  have k2 := @barrierPending_keeps P (h.mono rfl)
  unfold execBarrierRequest
  repeat'
    first
    | with_reducible assumption
    | rfl
    | (refine run_keeps ?_ (by assumption))
    | (with_reducible apply k1)
    | (with_reducible apply k2)
    | (with_reducible apply ite_keeps (P := P))
    | (with_reducible apply when_keeps (P := P))
    | (with_reducible apply foldl_keeps (P := P))
    | (refine fun (t : State) (ht : P t) => ?_)
    | (refine fun (_ : _) (t : State) (ht : P t) => ?_)
    | (with_reducible intro t; first | (refine (fun (ht : P t) => ?_) (?_ : P t); rotate_left; subst t; rotate_right; clear_value t) | skip | skip)
    | lift_lets -underBinder
    | split

theorem execBarrierDone_keeps {P : State → Prop} (h : Stable [.out, .ctr, .nv, .pw, .pwAny, .pk, .notify, .sc, .ss, .tm, .fb, .sv, .se, .sl, .dx, .journal, .ev] P) (a0 : _) (a1 : _) (a2 : _) (a3 : _) (s : State) (hs : P (s.at a0)) : OkX P (execBarrierDone a0 a1 a2 a3 s) := by
  have k1 := @State.ctlArrive_keeps P (h.mono rfl)
  have k2 := @settle_keeps P (h.mono rfl)
  have pUpk := h.pk rfl
  unfold execBarrierDone
  repeat'
    first
    | with_reducible assumption
    | rfl
    | (refine run_keeps ?_ (by assumption))
    | (with_reducible apply k1)
    | (with_reducible apply k2)
    | (with_reducible refine pUpk _ _ (by dsimp only [Pick.rest]) (by with_reducible assumption))
    | (with_reducible apply ite_keeps (P := P))
    | (with_reducible apply foldl_keeps (P := P))
    | (refine fun (t : State) (ht : P t) => ?_)
    | (refine fun (_ : _) (t : State) (ht : P t) => ?_)
    | (with_reducible intro t; first | (refine (fun (ht : P t) => ?_) (?_ : P t); rotate_left; subst t; rotate_right; clear_value t) | skip | skip)
    | lift_lets -underBinder
    | split
    | (with_reducible apply pUpk)

theorem execBarrierTimeout_keeps {P : State → Prop} (h : Stable [.out, .ctr, .nv, .pw, .pwAny, .pk, .notify, .sc, .ss, .tm, .fb, .sv, .se, .sl, .dx, .journal, .ev] P) (a0 : _) (s : State) (hs : P (s.at a0)) : OkX P (execBarrierTimeout a0 s) := by
  have k1 := @settle_keeps P (h.mono rfl)
  have pInc := h.ctrInc rfl
  have pEv := h.ev rfl
  have pNotify := h.notify rfl
  have pUpk := h.pk rfl
  unfold execBarrierTimeout
  repeat'
    first
    | with_reducible assumption
    | rfl
    | (refine run_keeps ?_ (by assumption))
    | (with_reducible apply k1)
    | (with_reducible apply pInc)
    | (with_reducible apply pEv)
    | (with_reducible apply pNotify)
    | (with_reducible refine pUpk _ _ (by dsimp only [Pick.rest]) (by with_reducible assumption))
    | (with_reducible apply ite_keeps (P := P))
    | (with_reducible apply foldl_keeps (P := P))
    | (refine fun (t : State) (ht : P t) => ?_)
    | (refine fun (_ : _) (t : State) (ht : P t) => ?_)
    | (with_reducible intro t; first | (refine (fun (ht : P t) => ?_) (?_ : P t); rotate_left; subst t; rotate_right; clear_value t) | skip | skip)
    | lift_lets -underBinder
    | split
    | (with_reducible apply pUpk)

theorem execBarrierMessageResend_keeps {P : State → Prop} (h : Stable [.out, .dx, .ev] P) (a0 : _) (s : State) (hs : P (s.at a0)) : OkX P (execBarrierMessageResend a0 s) := by
  have k1 := @State.routeCtl_keeps P (h.mono rfl)
  unfold execBarrierMessageResend
  repeat'
    first
    | with_reducible assumption
    | rfl
    | (refine run_keeps ?_ (by assumption))
    | (with_reducible apply k1)
    | (with_reducible apply ite_keeps (P := P))
    | (with_reducible apply each_keeps (P := P))
    | (with_reducible apply when_keeps (P := P))
    | (with_reducible apply foldl_keeps (P := P))
    | (refine fun (t : State) (ht : P t) => ?_)
    | (refine fun (_ : _) (t : State) (ht : P t) => ?_)
    | (with_reducible intro t; first | (refine (fun (ht : P t) => ?_) (?_ : P t); rotate_left; subst t; rotate_right; clear_value t) | skip | skip)
    | lift_lets -underBinder
    | split

end Sys2Proof.Machine
end

