-- ==== Sys2Proof/Laws/KeepsCmd.lean ====
section
/-! SUPPORT. What the operations of Machine/Cmd.lean can do to the state (`Laws/Keeps.lean`): one lemma per operation. -/

set_option linter.all false

namespace Sys2Proof.Machine

open Sys2Proof

theorem State.takeCmd_keeps {P : State → Prop} (h : Stable [.out, .ctr, .notify, .ss, .sl, .ev] P) (s : State) (a1 : _) (a2 : _) (f : QDesc → State → State) (hf : ∀ q0 t, P t → P (f q0 t)) (hs : P s) : P (State.takeCmd s a1 a2 f) := by
  have k1 := @State.takeHead_keeps P (h.mono rfl)
  unfold State.takeCmd
  repeat'
    first
    | with_reducible assumption
    | rfl
    | (with_reducible apply k1)
    | (with_reducible apply ite_keeps (P := P))
    | (with_reducible apply foldl_keeps (P := P))
    | (with_reducible apply hf)
    | (refine fun (t : State) (ht : P t) => ?_)
    | (refine fun (_ : _) (t : State) (ht : P t) => ?_)
    | (with_reducible intro t; first | (refine (fun (ht : P t) => ?_) (?_ : P t); rotate_left; subst t; rotate_right; clear_value t) | skip | skip)
    | lift_lets -underBinder
    | split

theorem State.bound_keeps {P : State → Prop} (h : Stable [.ctr, .ss, .ev] P) (s : State) (a1 : _) (a2 : _) (a3 : _) (hs : P s) : P (State.bound s a1 a2 a3) := by
  have k1 := @State.bindHandles_keeps P (h.mono rfl)
  unfold State.bound
  repeat'
    first
    | with_reducible assumption
    | rfl
    | (with_reducible apply k1)
    | (with_reducible apply OkOpt.some)
    | (with_reducible apply OkOpt.none)
    | (with_reducible apply iteOpt_keeps)
    | (with_reducible apply OkOpt.map)
    | (with_reducible apply OkOpt.bind)
    | (with_reducible apply OkOpt.find)
    | (with_reducible apply OkOpt.fold)
    | (with_reducible apply OkOpt.getD (P := P))
    | (with_reducible apply ite_keeps (P := P))
    | (with_reducible apply foldl_keeps (P := P))
    | (refine OkO.get (P := P) (by with_reducible assumption) ?_)
    | (refine OkOP.get (P := P) (by with_reducible assumption) ?_)
    | (refine OkOPP.get (P := P) (by with_reducible assumption) ?_)
    | (refine fun (t : State) (ht : P t) => ?_)
    | (refine fun (_ : _) (t : State) (ht : P t) => ?_)
    | (with_reducible intro t; first | (refine (fun (ht : P t) => ?_) (?_ : P t); rotate_left; subst t; rotate_right; clear_value t) | skip | skip)
    | lift_lets -underBinder
    | split
    | exact OkOpt.any

theorem State.reviveFirst_keeps {P : State → Prop} (h : Stable [.out, .ctr, .nv, .notify, .sc, .ss, .tm, .fb, .sl, .journal, .ev] P) (s : State) (a1 : _) (a2 : _) (hs : P s) : P (State.reviveFirst s a1 a2) := by
  have k1 := @State.endHead_keeps P (h.mono rfl)
  have k2 := @State.pinWait_keeps P (h.mono rfl)
  have k3 := @State.setHead_keeps P (h.mono rfl)
  have k4 := @State.evS_keeps P (h.mono rfl)
  have k5 := @State.beginRevival_keeps P (h.mono rfl)
  have k6 := @State.setSess_keeps P (h.mono rfl)
  unfold State.reviveFirst
  repeat'
    first
    | with_reducible assumption
    | rfl
    | (with_reducible apply k1)
    | (with_reducible apply k2)
    | (with_reducible apply k3)
    | (with_reducible apply k4)
    | (with_reducible apply k5)
    | (with_reducible apply k6)
    | (with_reducible apply ite_keeps (P := P))
    | (with_reducible apply foldl_keeps (P := P))
    | (refine fun (t : State) (ht : P t) => ?_)
    | (refine fun (_ : _) (t : State) (ht : P t) => ?_)
    | (with_reducible intro t; first | (refine (fun (ht : P t) => ?_) (?_ : P t); rotate_left; subst t; rotate_right; clear_value t) | skip | skip)
    | lift_lets -underBinder
    | split

theorem State.withInput_keeps {P : State → Prop} (h : Stable [.out, .ctr, .wfn, .win, .notify, .ss, .fb, .sl, .ev] P) (s : State) (a1 : _) (a2 : _) (f : QDesc → State → State) (hf : ∀ q0 t, P t → P (f q0 t)) (hs : P s) : P (State.withInput s a1 a2 f) := by
  have k1 := @State.fetch_keeps P (h.mono rfl)
  have k2 := @State.endHead_keeps P (h.mono rfl)
  have k3 := @State.setHead_keeps P (h.mono rfl)
  unfold State.withInput
  repeat'
    first
    | with_reducible assumption
    | rfl
    | (with_reducible apply k1)
    | (with_reducible apply k2)
    | (with_reducible apply k3)
    | (with_reducible apply iteP_keeps (P := P))
    | (with_reducible apply ite_keeps (P := P))
    | (with_reducible apply foldl_keeps (P := P))
    | (with_reducible apply foldP_keeps (P := P))
    | (with_reducible apply hf)
    | (refine OkP.get (P := P) (by with_reducible assumption) ?_)
    | (with_reducible apply OkP.snd (P := P))
    | (refine fun (t : State) (ht : P t) => ?_)
    | (refine fun (_ : _) (t : State) (ht : P t) => ?_)
    | (with_reducible intro t; first | (refine (fun (ht : P t) => ?_) (?_ : P t); rotate_left; subst t; rotate_right; clear_value t) | skip | skip)
    | lift_lets -underBinder
    | split
    | (with_reducible apply OkP.mk (P := P))

theorem State.openSlot_keeps {P : State → Prop} (h : Stable [.ss] P) (s : State) (a1 : _) (a2 : _) (a3 : _) (a4 : _) (hs : P s) : P (State.openSlot s a1 a2 a3 a4) := by
  have k1 := @State.setSess_keeps P (h.mono rfl)
  unfold State.openSlot
  repeat'
    first
    | with_reducible assumption
    | rfl
    | (with_reducible apply k1)
    | (with_reducible apply ite_keeps (P := P))
    | (with_reducible apply foldl_keeps (P := P))
    | (refine fun (t : State) (ht : P t) => ?_)
    | (refine fun (_ : _) (t : State) (ht : P t) => ?_)
    | (with_reducible intro t; first | (refine (fun (ht : P t) => ?_) (?_ : P t); rotate_left; subst t; rotate_right; clear_value t) | skip | skip)
    | lift_lets -underBinder
    | split

theorem State.doOpen_keeps {P : State → Prop} (h : Stable [.out, .ctr, .notify, .ss, .sl, .ev] P) (s : State) (a1 : _) (a2 : _) (a3 : _) (hs : P s) : P (State.doOpen s a1 a2 a3) := by
  have k1 := @State.setHead_keeps P (h.mono rfl)
  have k2 := @State.evS_keeps P (h.mono rfl)
  have k3 := @State.openSlot_keeps P (h.mono rfl)
  have k4 := @State.bound_keeps P (h.mono rfl)
  have k5 := @State.endHead_keeps P (h.mono rfl)
  have k6 := @State.toRest_keeps P (h.mono rfl)
  have k7 := @State.startRun_keeps P (h.mono rfl)
  have k8 := @State.toState_keeps P (h.mono rfl)
  have k9 := @State.setSess_keeps P (h.mono rfl)
  unfold State.doOpen
  repeat'
    first
    | with_reducible assumption
    | rfl
    | (with_reducible apply k1)
    | (with_reducible apply k2)
    | (with_reducible apply k3)
    | (with_reducible apply k4)
    | (with_reducible apply k5)
    | (with_reducible apply k6)
    | (with_reducible apply k7)
    | (with_reducible apply k8)
    | (with_reducible apply k9)
    | (with_reducible apply ite_keeps (P := P))
    | (with_reducible apply foldl_keeps (P := P))
    | (refine fun (t : State) (ht : P t) => ?_)
    | (refine fun (_ : _) (t : State) (ht : P t) => ?_)
    | (with_reducible intro t; first | (refine (fun (ht : P t) => ?_) (?_ : P t); rotate_left; subst t; rotate_right; clear_value t) | skip | skip)
    | lift_lets -underBinder
    | split

theorem execOpenSession_keeps {P : State → Prop} (h : Stable [.out, .ctr, .wfn, .win, .notify, .ss, .fb, .sl, .ev] P) (a0 : _) (a1 : _) (s : State) (hs : P (s.at a0)) : OkX P (execOpenSession a0 a1 s) := by
  have k1 := @State.takeCmd_keeps P (h.mono rfl)
  have k2 := @State.endHead_keeps P (h.mono rfl)
  have k3 := @State.pinWait_keeps P (h.mono rfl)
  have k4 := @State.withInput_keeps P (h.mono rfl)
  have k5 := @State.doOpen_keeps P (h.mono rfl)
  unfold execOpenSession
  repeat'
    first
    | with_reducible assumption
    | rfl
    | (refine run_keeps ?_ (by assumption))
    | (with_reducible apply k1)
    | (with_reducible apply k2)
    | (with_reducible apply k3)
    | (with_reducible apply k4)
    | (with_reducible apply k5)
    | (with_reducible apply ite_keeps (P := P))
    | (with_reducible apply foldl_keeps (P := P))
    | (refine fun (t : State) (ht : P t) => ?_)
    | (refine fun (_ : _) (t : State) (ht : P t) => ?_)
    | (with_reducible intro t; first | (refine (fun (ht : P t) => ?_) (?_ : P t); rotate_left; subst t; rotate_right; clear_value t) | skip | skip)
    | lift_lets -underBinder
    | split

theorem execAppend_keeps {P : State → Prop} (h : Stable [.out, .ctr, .nv, .wfn, .win, .notify, .sc, .ss, .tm, .fb, .sl, .journal, .ev] P) (a0 : _) (a1 : _) (s : State) (hs : P (s.at a0)) : OkX P (execAppend a0 a1 s) := by
  have k1 := @State.takeCmd_keeps P (h.mono rfl)
  have k2 := @State.endHead_keeps P (h.mono rfl)
  have k3 := @State.withInput_keeps P (h.mono rfl)
  have k4 := @State.reviveFirst_keeps P (h.mono rfl)
  have k5 := @State.pinWait_keeps P (h.mono rfl)
  have k6 := @State.setHead_keeps P (h.mono rfl)
  have k7 := @State.startRun_keeps P (h.mono rfl)
  have k8 := @State.bound_keeps P (h.mono rfl)
  have k9 := @State.toState_keeps P (h.mono rfl)
  have k10 := @State.setSess_keeps P (h.mono rfl)
  unfold execAppend
  repeat'
    first
    | with_reducible assumption
    | rfl
    | (refine run_keeps ?_ (by assumption))
    | (with_reducible apply k1)
    | (with_reducible apply k2)
    | (with_reducible apply k3)
    | (with_reducible apply k4)
    | (with_reducible apply k5)
    | (with_reducible apply k6)
    | (with_reducible apply k7)
    | (with_reducible apply k8)
    | (with_reducible apply k9)
    | (with_reducible apply k10)
    | (with_reducible apply ite_keeps (P := P))
    | (with_reducible apply foldl_keeps (P := P))
    | (refine fun (t : State) (ht : P t) => ?_)
    | (refine fun (_ : _) (t : State) (ht : P t) => ?_)
    | (with_reducible intro t; first | (refine (fun (ht : P t) => ?_) (?_ : P t); rotate_left; subst t; rotate_right; clear_value t) | skip | skip)
    | lift_lets -underBinder
    | split

theorem State.doGenerate_keeps {P : State → Prop} (h : Stable [.ctr, .ss, .ev] P) (s : State) (a1 : _) (a2 : _) (hs : P s) : P (State.doGenerate s a1 a2) := by
  have k1 := @State.startRun_keeps P (h.mono rfl)
  have k2 := @State.bound_keeps P (h.mono rfl)
  have k3 := @State.setSess_keeps P (h.mono rfl)
  have k4 := @State.toState_keeps P (h.mono rfl)
  unfold State.doGenerate
  repeat'
    first
    | with_reducible assumption
    | rfl
    | (with_reducible apply k1)
    | (with_reducible apply k2)
    | (with_reducible apply k3)
    | (with_reducible apply k4)
    | (with_reducible apply ite_keeps (P := P))
    | (with_reducible apply foldl_keeps (P := P))
    | (refine fun (t : State) (ht : P t) => ?_)
    | (refine fun (_ : _) (t : State) (ht : P t) => ?_)
    | (with_reducible intro t; first | (refine (fun (ht : P t) => ?_) (?_ : P t); rotate_left; subst t; rotate_right; clear_value t) | skip | skip)
    | lift_lets -underBinder
    | split

theorem execGenerate_keeps {P : State → Prop} (h : Stable [.out, .ctr, .nv, .notify, .sc, .ss, .tm, .fb, .sl, .journal, .ev] P) (a0 : _) (a1 : _) (s : State) (hs : P (s.at a0)) : OkX P (execGenerate a0 a1 s) := by
  have k1 := @State.takeCmd_keeps P (h.mono rfl)
  have k2 := @State.endHead_keeps P (h.mono rfl)
  have k3 := @State.reviveFirst_keeps P (h.mono rfl)
  have k4 := @State.pinWait_keeps P (h.mono rfl)
  have k5 := @State.doGenerate_keeps P (h.mono rfl)
  unfold execGenerate
  repeat'
    first
    | with_reducible assumption
    | rfl
    | (refine run_keeps ?_ (by assumption))
    | (with_reducible apply k1)
    | (with_reducible apply k2)
    | (with_reducible apply k3)
    | (with_reducible apply k4)
    | (with_reducible apply k5)
    | (with_reducible apply ite_keeps (P := P))
    | (with_reducible apply foldl_keeps (P := P))
    | (refine fun (t : State) (ht : P t) => ?_)
    | (refine fun (_ : _) (t : State) (ht : P t) => ?_)
    | (with_reducible intro t; first | (refine (fun (ht : P t) => ?_) (?_ : P t); rotate_left; subst t; rotate_right; clear_value t) | skip | skip)
    | lift_lets -underBinder
    | split

theorem State.moveFor_keeps {P : State → Prop} (h : Stable [.out, .ctr, .nv, .notify, .sc, .ss, .tm, .fb, .sl, .journal, .ev] P) (s : State) (a1 : _) (a2 : _) (a3 : _) (a4 : _) (hs : P s) : P (State.moveFor s a1 a2 a3 a4) := by
  have k1 := @State.issueMoves_keeps P (h.mono rfl)
  have k2 := @State.beginMoving_keeps P (h.mono rfl)
  have k3 := @State.startRun_keeps P (h.mono rfl)
  have k4 := @State.bound_keeps P (h.mono rfl)
  have k5 := @State.exportPump_keeps P (h.mono rfl)
  have k6 := @State.exportBegin_keeps P (h.mono rfl)
  unfold State.moveFor
  repeat'
    first
    | with_reducible assumption
    | rfl
    | (with_reducible apply k1)
    | (with_reducible apply k2)
    | (with_reducible apply k3)
    | (with_reducible apply k4)
    | (with_reducible apply k5)
    | (with_reducible apply k6)
    | (with_reducible apply ite_keeps (P := P))
    | (with_reducible apply foldl_keeps (P := P))
    | (refine fun (t : State) (ht : P t) => ?_)
    | (refine fun (_ : _) (t : State) (ht : P t) => ?_)
    | (with_reducible intro t; first | (refine (fun (ht : P t) => ?_) (?_ : P t); rotate_left; subst t; rotate_right; clear_value t) | skip | skip)
    | lift_lets -underBinder
    | split

theorem execPark_keeps {P : State → Prop} (h : Stable [.out, .ctr, .nv, .notify, .sc, .ss, .tm, .fb, .sl, .journal, .ev] P) (a0 : _) (a1 : _) (s : State) (hs : P (s.at a0)) : OkX P (execPark a0 a1 s) := by
  have k1 := @State.takeCmd_keeps P (h.mono rfl)
  have k2 := @State.endHead_keeps P (h.mono rfl)
  have k3 := @State.pinWait_keeps P (h.mono rfl)
  have k4 := @State.moveFor_keeps P (h.mono rfl)
  unfold execPark
  repeat'
    first
    | with_reducible assumption
    | rfl
    | (refine run_keeps ?_ (by assumption))
    | (with_reducible apply k1)
    | (with_reducible apply k2)
    | (with_reducible apply k3)
    | (with_reducible apply k4)
    | (with_reducible apply ite_keeps (P := P))
    | (with_reducible apply foldl_keeps (P := P))
    | (refine fun (t : State) (ht : P t) => ?_)
    | (refine fun (_ : _) (t : State) (ht : P t) => ?_)
    | (with_reducible intro t; first | (refine (fun (ht : P t) => ?_) (?_ : P t); rotate_left; subst t; rotate_right; clear_value t) | skip | skip)
    | lift_lets -underBinder
    | split

theorem execRevive_keeps {P : State → Prop} (h : Stable [.out, .ctr, .nv, .notify, .sc, .ss, .tm, .fb, .sl, .journal, .ev] P) (a0 : _) (a1 : _) (s : State) (hs : P (s.at a0)) : OkX P (execRevive a0 a1 s) := by
  have k1 := @State.takeCmd_keeps P (h.mono rfl)
  have k2 := @State.endHead_keeps P (h.mono rfl)
  have k3 := @State.pinWait_keeps P (h.mono rfl)
  have k4 := @State.beginRevival_keeps P (h.mono rfl)
  have k5 := @State.startRun_keeps P (h.mono rfl)
  have k6 := @State.bound_keeps P (h.mono rfl)
  unfold execRevive
  repeat'
    first
    | with_reducible assumption
    | rfl
    | (refine run_keeps ?_ (by assumption))
    | (with_reducible apply k1)
    | (with_reducible apply k2)
    | (with_reducible apply k3)
    | (with_reducible apply k4)
    | (with_reducible apply k5)
    | (with_reducible apply k6)
    | (with_reducible apply ite_keeps (P := P))
    | (with_reducible apply foldl_keeps (P := P))
    | (refine fun (t : State) (ht : P t) => ?_)
    | (refine fun (_ : _) (t : State) (ht : P t) => ?_)
    | (with_reducible intro t; first | (refine (fun (ht : P t) => ?_) (?_ : P t); rotate_left; subst t; rotate_right; clear_value t) | skip | skip)
    | lift_lets -underBinder
    | split

theorem execCondense_keeps {P : State → Prop} (h : Stable [.out, .ctr, .nv, .notify, .sc, .ss, .tm, .fb, .sl, .journal, .ev] P) (a0 : _) (a1 : _) (s : State) (hs : P (s.at a0)) : OkX P (execCondense a0 a1 s) := by
  have k1 := @State.takeCmd_keeps P (h.mono rfl)
  have k2 := @State.endHead_keeps P (h.mono rfl)
  have k3 := @State.pinWait_keeps P (h.mono rfl)
  have k4 := @State.moveFor_keeps P (h.mono rfl)
  unfold execCondense
  repeat'
    first
    | with_reducible assumption
    | rfl
    | (refine run_keeps ?_ (by assumption))
    | (with_reducible apply k1)
    | (with_reducible apply k2)
    | (with_reducible apply k3)
    | (with_reducible apply k4)
    | (with_reducible apply ite_keeps (P := P))
    | (with_reducible apply foldl_keeps (P := P))
    | (refine fun (t : State) (ht : P t) => ?_)
    | (refine fun (_ : _) (t : State) (ht : P t) => ?_)
    | (with_reducible intro t; first | (refine (fun (ht : P t) => ?_) (?_ : P t); rotate_left; subst t; rotate_right; clear_value t) | skip | skip)
    | lift_lets -underBinder
    | split

theorem execExportSession_keeps {P : State → Prop} (h : Stable [.out, .ctr, .nv, .notify, .sc, .ss, .tm, .fb, .sl, .journal, .ev] P) (a0 : _) (a1 : _) (s : State) (hs : P (s.at a0)) : OkX P (execExportSession a0 a1 s) := by
  have k1 := @State.takeCmd_keeps P (h.mono rfl)
  have k2 := @State.endHead_keeps P (h.mono rfl)
  have k3 := @State.pinWait_keeps P (h.mono rfl)
  have k4 := @State.moveFor_keeps P (h.mono rfl)
  unfold execExportSession
  repeat'
    first
    | with_reducible assumption
    | rfl
    | (refine run_keeps ?_ (by assumption))
    | (with_reducible apply k1)
    | (with_reducible apply k2)
    | (with_reducible apply k3)
    | (with_reducible apply k4)
    | (with_reducible apply ite_keeps (P := P))
    | (with_reducible apply foldl_keeps (P := P))
    | (refine fun (t : State) (ht : P t) => ?_)
    | (refine fun (_ : _) (t : State) (ht : P t) => ?_)
    | (with_reducible intro t; first | (refine (fun (ht : P t) => ?_) (?_ : P t); rotate_left; subst t; rotate_right; clear_value t) | skip | skip)
    | lift_lets -underBinder
    | split

theorem State.importEntry_keeps {P : State → Prop} (h : Stable [.ctr, .ss, .ev] P) (s : State) (a1 : _) (a2 : _) (a3 : _) (a4 : _) (hs : P s) : P (State.importEntry s a1 a2 a3 a4) := by
  have k1 := @State.openSlot_keeps P (h.mono rfl)
  have k2 := @State.setSess_keeps P (h.mono rfl)
  have k3 := @State.startRun_keeps P (h.mono rfl)
  have k4 := @State.bound_keeps P (h.mono rfl)
  unfold State.importEntry
  repeat'
    first
    | with_reducible assumption
    | rfl
    | (with_reducible apply k1)
    | (with_reducible apply k2)
    | (with_reducible apply k3)
    | (with_reducible apply k4)
    | (with_reducible apply ite_keeps (P := P))
    | (with_reducible apply foldl_keeps (P := P))
    | (refine fun (t : State) (ht : P t) => ?_)
    | (refine fun (_ : _) (t : State) (ht : P t) => ?_)
    | (with_reducible intro t; first | (refine (fun (ht : P t) => ?_) (?_ : P t); rotate_left; subst t; rotate_right; clear_value t) | skip | skip)
    | lift_lets -underBinder
    | split

theorem execImportSession_keeps {P : State → Prop} (h : Stable [.out, .ctr, .nv, .notify, .sc, .ss, .tm, .fb, .sl, .journal, .ev] P) (a0 : _) (a1 : _) (a2 : _) (s : State) (hs : P (s.at a0)) : OkX P (execImportSession a0 a1 a2 s) := by
  have k1 := @State.takeCmd_keeps P (h.mono rfl)
  have k2 := @State.endHead_keeps P (h.mono rfl)
  have k3 := @State.pinWait_keeps P (h.mono rfl)
  have k4 := @State.issueMoves_keeps P (h.mono rfl)
  have k5 := @State.importEntry_keeps P (h.mono rfl)
  have pInc := h.ctrInc rfl
  have pEv := h.ev rfl
  have pNotify := h.notify rfl
  have pJournal := h.journal rfl
  unfold execImportSession
  repeat'
    first
    | with_reducible assumption
    | rfl
    | (refine run_keeps ?_ (by assumption))
    | (with_reducible apply k1)
    | (with_reducible apply k2)
    | (with_reducible apply k3)
    | (with_reducible apply k4)
    | (with_reducible apply k5)
    | (with_reducible apply pInc)
    | (with_reducible apply pEv)
    | (with_reducible apply pNotify)
    | (with_reducible apply pJournal)
    | (with_reducible apply ite_keeps (P := P))
    | (with_reducible apply foldl_keeps (P := P))
    | (refine fun (t : State) (ht : P t) => ?_)
    | (refine fun (_ : _) (t : State) (ht : P t) => ?_)
    | (with_reducible intro t; first | (refine (fun (ht : P t) => ?_) (?_ : P t); rotate_left; subst t; rotate_right; clear_value t) | skip | skip)
    | lift_lets -underBinder
    | split

theorem State.truncate_keeps {P : State → Prop} (h : Stable [.out, .ctr, .notify, .ss, .tm, .fb, .sl, .ev] P) (s : State) (a1 : _) (a2 : _) (hs : P s) : P (State.truncate s a1 a2) := by
  have k1 := @State.resetGrammar_keeps P (h.mono rfl)
  have k2 := @State.bound_keeps P (h.mono rfl)
  have k3 := @State.cutKv_keeps P (h.mono rfl)
  have k4 := @State.setSess_keeps P (h.mono rfl)
  have k5 := @State.toState_keeps P (h.mono rfl)
  have k6 := @State.endHead_keeps P (h.mono rfl)
  unfold State.truncate
  repeat'
    first
    | with_reducible assumption
    | rfl
    | (with_reducible apply k1)
    | (with_reducible apply k2)
    | (with_reducible apply k3)
    | (with_reducible apply k4)
    | (with_reducible apply k5)
    | (with_reducible apply k6)
    | (with_reducible apply iteP_keeps (P := P))
    | (with_reducible apply ite_keeps (P := P))
    | (with_reducible apply when_keeps (P := P))
    | (with_reducible apply foldl_keeps (P := P))
    | (with_reducible apply foldP_keeps (P := P))
    | (refine OkP.get (P := P) (by with_reducible assumption) ?_)
    | (with_reducible apply OkP.snd (P := P))
    | (refine fun (t : State) (ht : P t) => ?_)
    | (refine fun (_ : _) (t : State) (ht : P t) => ?_)
    | (with_reducible intro t; first | (refine (fun (ht : P t) => ?_) (?_ : P t); rotate_left; subst t; rotate_right; clear_value t) | skip | skip)
    | lift_lets -underBinder
    | split
    | (with_reducible apply OkP.mk (P := P))

theorem execTruncate_keeps {P : State → Prop} (h : Stable [.out, .ctr, .nv, .notify, .sc, .ss, .tm, .fb, .sl, .journal, .ev] P) (a0 : _) (a1 : _) (s : State) (hs : P (s.at a0)) : OkX P (execTruncate a0 a1 s) := by
  have k1 := @State.takeCmd_keeps P (h.mono rfl)
  have k2 := @State.endHead_keeps P (h.mono rfl)
  have k3 := @State.reviveFirst_keeps P (h.mono rfl)
  have k4 := @State.truncate_keeps P (h.mono rfl)
  unfold execTruncate
  repeat'
    first
    | with_reducible assumption
    | rfl
    | (refine run_keeps ?_ (by assumption))
    | (with_reducible apply k1)
    | (with_reducible apply k2)
    | (with_reducible apply k3)
    | (with_reducible apply k4)
    | (with_reducible apply ite_keeps (P := P))
    | (with_reducible apply foldl_keeps (P := P))
    | (refine fun (t : State) (ht : P t) => ?_)
    | (refine fun (_ : _) (t : State) (ht : P t) => ?_)
    | (with_reducible intro t; first | (refine (fun (ht : P t) => ?_) (?_ : P t); rotate_left; subst t; rotate_right; clear_value t) | skip | skip)
    | lift_lets -underBinder
    | split

theorem State.takeImm_keeps {P : State → Prop} (h : Stable [.out, .ctr, .notify, .ss, .sl, .ev] P) (s : State) (a1 : _) (a2 : _) (f : QDesc → State → State) (hf : ∀ q0 t, P t → P (f q0 t)) (hs : P s) : P (State.takeImm s a1 a2 f) := by
  have k1 := @State.setSess_keeps P (h.mono rfl)
  have k2 := @State.endDesc_keeps P (h.mono rfl)
  have k3 := @State.touchEntry_keeps P (h.mono rfl)
  unfold State.takeImm
  repeat'
    first
    | with_reducible assumption
    | rfl
    | (with_reducible apply k1)
    | (with_reducible apply k2)
    | (with_reducible apply k3)
    | (with_reducible apply ite_keeps (P := P))
    | (with_reducible apply foldl_keeps (P := P))
    | (with_reducible apply hf)
    | (refine fun (t : State) (ht : P t) => ?_)
    | (refine fun (_ : _) (t : State) (ht : P t) => ?_)
    | (with_reducible intro t; first | (refine (fun (ht : P t) => ?_) (?_ : P t); rotate_left; subst t; rotate_right; clear_value t) | skip | skip)
    | lift_lets -underBinder
    | split

theorem execQuery_keeps {P : State → Prop} (h : Stable [.out, .ctr, .notify, .ss, .sl, .ev] P) (a0 : _) (a1 : _) (s : State) (hs : P (s.at a0)) : OkX P (execQuery a0 a1 s) := by
  have k1 := @State.takeImm_keeps P (h.mono rfl)
  have k2 := @State.setSess_keeps P (h.mono rfl)
  have k3 := @State.endDesc_keeps P (h.mono rfl)
  have k4 := @State.output_keeps P (h.mono rfl)
  have k5 := @State.bound_keeps P (h.mono rfl)
  unfold execQuery
  repeat'
    first
    | with_reducible assumption
    | rfl
    | (refine run_keeps ?_ (by assumption))
    | (with_reducible apply k1)
    | (with_reducible apply k2)
    | (with_reducible apply k3)
    | (with_reducible apply k4)
    | (with_reducible apply k5)
    | (with_reducible apply ite_keeps (P := P))
    | (with_reducible apply foldl_keeps (P := P))
    | (refine fun (t : State) (ht : P t) => ?_)
    | (refine fun (_ : _) (t : State) (ht : P t) => ?_)
    | (with_reducible intro t; first | (refine (fun (ht : P t) => ?_) (?_ : P t); rotate_left; subst t; rotate_right; clear_value t) | skip | skip)
    | lift_lets -underBinder
    | split

theorem execClose_keeps {P : State → Prop} (h : Stable [.out, .ctr, .nv, .pw, .notify, .sc, .ss, .tm, .fb, .sl, .dx, .ev] P) (a0 : _) (a1 : _) (s : State) (hs : P (s.at a0)) : OkX P (execClose a0 a1 s) := by
  have k1 := @State.takeImm_keeps P (h.mono rfl)
  have k2 := @State.setSess_keeps P (h.mono rfl)
  have k3 := @State.endDesc_keeps P (h.mono rfl)
  have k4 := @State.pinWait_keeps P (h.mono rfl)
  have k5 := @State.failMove_keeps P (h.mono rfl)
  have k6 := @State.dropOut_keeps P (h.mono rfl)
  have k7 := @State.beginClose_keeps P (h.mono rfl)
  have k8 := @State.releaseStage_keeps P (h.mono rfl)
  have pUpw := h.pw rfl
  unfold execClose
  repeat'
    first
    | with_reducible assumption
    | rfl
    | (refine run_keeps ?_ (by assumption))
    | (with_reducible apply k1)
    | (with_reducible apply k2)
    | (with_reducible apply k3)
    | (with_reducible apply k4)
    | (with_reducible apply k5)
    | (with_reducible apply k6)
    | (with_reducible apply k7)
    | (with_reducible apply k8)
    | (with_reducible refine pUpw _ _ (by dsimp only [Power.rest]) (by with_reducible assumption))
    | (with_reducible apply ite_keeps (P := P))
    | (with_reducible apply each_keeps (P := P))
    | (with_reducible apply when_keeps (P := P))
    | (with_reducible apply foldl_keeps (P := P))
    | (refine fun (t : State) (ht : P t) => ?_)
    | (refine fun (_ : _) (t : State) (ht : P t) => ?_)
    | (with_reducible intro t; first | (refine (fun (ht : P t) => ?_) (?_ : P t); rotate_left; subst t; rotate_right; clear_value t) | skip | skip)
    | lift_lets -underBinder
    | split
    | (with_reducible apply pUpw)

theorem execRevivalComplete_keeps {P : State → Prop} (h : Stable [.out, .ctr, .nv, .notify, .sc, .ss, .tm, .fb, .sl, .ev] P) (a0 : _) (a1 : _) (s : State) (hs : P (s.at a0)) : OkX P (execRevivalComplete a0 a1 s) := by
  have k1 := @State.finishRevival_keeps P (h.mono rfl)
  unfold execRevivalComplete
  repeat'
    first
    | with_reducible assumption
    | rfl
    | (refine run_keeps ?_ (by assumption))
    | (with_reducible apply k1)
    | (with_reducible apply ite_keeps (P := P))
    | (with_reducible apply foldl_keeps (P := P))
    | (refine fun (t : State) (ht : P t) => ?_)
    | (refine fun (_ : _) (t : State) (ht : P t) => ?_)
    | (with_reducible intro t; first | (refine (fun (ht : P t) => ?_) (?_ : P t); rotate_left; subst t; rotate_right; clear_value t) | skip | skip)
    | lift_lets -underBinder
    | split

theorem execClosingComplete_keeps {P : State → Prop} (h : Stable [.out, .ctr, .nv, .notify, .sc, .ss, .tm, .fb, .sl, .ev] P) (a0 : _) (a1 : _) (s : State) (hs : P (s.at a0)) : OkX P (execClosingComplete a0 a1 s) := by
  have k1 := @State.finishClose_keeps P (h.mono rfl)
  unfold execClosingComplete
  repeat'
    first
    | with_reducible assumption
    | rfl
    | (refine run_keeps ?_ (by assumption))
    | (with_reducible apply k1)
    | (with_reducible apply ite_keeps (P := P))
    | (with_reducible apply foldl_keeps (P := P))
    | (refine fun (t : State) (ht : P t) => ?_)
    | (refine fun (_ : _) (t : State) (ht : P t) => ?_)
    | (with_reducible intro t; first | (refine (fun (ht : P t) => ?_) (?_ : P t); rotate_left; subst t; rotate_right; clear_value t) | skip | skip)
    | lift_lets -underBinder
    | split

theorem State.remove_keeps {P : State → Prop} (h : Stable [.out, .ctr, .nv, .notify, .sc, .ss, .tm, .fb, .sl, .ev] P) (s : State) (a1 : _) (hs : P s) : P (State.remove s a1) := by
  have k1 := @State.placeNear_keeps P (h.mono rfl)
  have k2 := @State.reserveDest_keeps P (h.mono rfl)
  have k3 := @State.addMove_keeps P (h.mono rfl)
  have k4 := @State.failSession_keeps P (h.mono rfl)
  unfold State.remove
  repeat'
    first
    | with_reducible assumption
    | rfl
    | (with_reducible apply k1)
    | (with_reducible apply k2)
    | (with_reducible apply k3)
    | (with_reducible apply k4)
    | (with_reducible apply OkOpt.some)
    | (with_reducible apply OkOpt.none)
    | (with_reducible apply iteOpt_keeps)
    | (with_reducible apply OkOpt.map)
    | (with_reducible apply OkOpt.bind)
    | (with_reducible apply OkOpt.find)
    | (with_reducible apply OkOpt.fold)
    | (with_reducible apply OkOpt.getD (P := P))
    | (with_reducible apply ite_keeps (P := P))
    | (with_reducible apply foldl_keeps (P := P))
    | (refine OkO.get (P := P) (by with_reducible assumption) ?_)
    | (refine OkOP.get (P := P) (by with_reducible assumption) ?_)
    | (refine OkOPP.get (P := P) (by with_reducible assumption) ?_)
    | (refine fun (t : State) (ht : P t) => ?_)
    | (refine fun (_ : _) (t : State) (ht : P t) => ?_)
    | (with_reducible intro t; first | (refine (fun (ht : P t) => ?_) (?_ : P t); rotate_left; subst t; rotate_right; clear_value t) | subst t | skip)
    | lift_lets -underBinder
    | split
    | exact OkOpt.any

theorem State.lostMove_keeps {P : State → Prop} (h : Stable [.out, .ctr, .nv, .notify, .sc, .ss, .tm, .fb, .sl, .ev] P) (s : State) (a1 : _) (hs : P s) : P (State.lostMove s a1) := by
  have k1 := @State.failMove_keeps P (h.mono rfl)
  have k2 := @State.failSession_keeps P (h.mono rfl)
  unfold State.lostMove
  repeat'
    first
    | with_reducible assumption
    | rfl
    | (with_reducible apply k1)
    | (with_reducible apply k2)
    | (with_reducible apply ite_keeps (P := P))
    | (with_reducible apply foldl_keeps (P := P))
    | (refine fun (t : State) (ht : P t) => ?_)
    | (refine fun (_ : _) (t : State) (ht : P t) => ?_)
    | (with_reducible intro t; first | (refine (fun (ht : P t) => ?_) (?_ : P t); rotate_left; subst t; rotate_right; clear_value t) | skip | skip)
    | lift_lets -underBinder
    | split

theorem execPageMoveSwitch_keeps {P : State → Prop} (h : Stable [.out, .ctr, .nv, .notify, .sc, .ss, .tm, .fb, .sl, .ck, .journal, .ev] P) (a0 : _) (a1 : _) (a2 : _) (a3 : _) (s : State) (hs : P (s.at a0)) : OkX P (execPageMoveSwitch a0 a1 a2 a3 s) := by
  have k1 := @State.switchHome_keeps P (h.mono rfl)
  have k2 := @State.reread_keeps P (h.mono rfl)
  have k3 := @State.lostMove_keeps P (h.mono rfl)
  have k4 := @State.readLost_keeps P (h.mono rfl)
  have k5 := @State.tagFail_keeps P (h.mono rfl)
  have k6 := @State.remove_keeps P (h.mono rfl)
  have k7 := @State.failMove_keeps P (h.mono rfl)
  have k8 := @State.ckptAdvance_keeps P (h.mono rfl)
  have k9 := @State.issueRevival_keeps P (h.mono rfl)
  unfold execPageMoveSwitch
  repeat'
    first
    | with_reducible assumption
    | rfl
    | (refine run_keeps ?_ (by assumption))
    | (with_reducible apply k1)
    | (with_reducible apply k2)
    | (with_reducible apply k3)
    | (with_reducible apply k4)
    | (with_reducible apply k5)
    | (with_reducible apply k6)
    | (with_reducible apply k7)
    | (with_reducible apply k8)
    | (with_reducible apply k9)
    | (with_reducible apply ite_keeps (P := P))
    | (with_reducible apply foldl_keeps (P := P))
    | (refine fun (t : State) (ht : P t) => ?_)
    | (refine fun (_ : _) (t : State) (ht : P t) => ?_)
    | (with_reducible intro t; first | (refine (fun (ht : P t) => ?_) (?_ : P t); rotate_left; subst t; rotate_right; clear_value t) | skip | skip)
    | lift_lets -underBinder
    | split

theorem execBackgroundEviction_keeps {P : State → Prop} (h : Stable [.out, .ctr, .nv, .notify, .sc, .ss, .tm, .fb, .sl, .journal, .ev] P) (a0 : _) (a1 : _) (a2 : _) (s : State) (hs : P (s.at a0)) : OkX P (execBackgroundEviction a0 a1 a2 s) := by
  have k1 := @State.background_keeps P (h.mono rfl)
  have k2 := @State.issueMoves_keeps P (h.mono rfl)
  unfold execBackgroundEviction
  repeat'
    first
    | with_reducible assumption
    | rfl
    | (refine run_keeps ?_ (by assumption))
    | (with_reducible apply k1)
    | (with_reducible apply k2)
    | (with_reducible apply ite_keeps (P := P))
    | (with_reducible apply each_keeps (P := P))
    | (with_reducible apply foldl_keeps (P := P))
    | (refine fun (t : State) (ht : P t) => ?_)
    | (refine fun (_ : _) (t : State) (ht : P t) => ?_)
    | (with_reducible intro t; first | (refine (fun (ht : P t) => ?_) (?_ : P t); rotate_left; subst t; rotate_right; clear_value t) | skip | skip)
    | lift_lets -underBinder
    | split

theorem execFrameLeaseRelease_keeps {P : State → Prop} (h : Stable [.tm] P) (a0 : _) (a1 : _) (a2 : _) (a3 : _) (s : State) (hs : P (s.at a0)) : OkX P (execFrameLeaseRelease a0 a1 a2 a3 s) := by
  have k1 := @State.setFrame_keeps P (h.mono rfl)
  unfold execFrameLeaseRelease
  repeat'
    first
    | with_reducible assumption
    | rfl
    | (refine run_keeps ?_ (by assumption))
    | (with_reducible apply k1)
    | (with_reducible apply ite_keeps (P := P))
    | (with_reducible apply foldl_keeps (P := P))
    | (refine fun (t : State) (ht : P t) => ?_)
    | (refine fun (_ : _) (t : State) (ht : P t) => ?_)
    | (with_reducible intro t; first | (refine (fun (ht : P t) => ?_) (?_ : P t); rotate_left; subst t; rotate_right; clear_value t) | skip | skip)
    | lift_lets -underBinder
    | split

theorem execCompletionRecordRelease_keeps {P : State → Prop} (h : Stable [.out, .ctr, .notify, .ss, .sl, .ev] P) (a0 : _) (a1 : _) (s : State) (hs : P (s.at a0)) : OkX P (execCompletionRecordRelease a0 a1 s) := by
  have k1 := @State.release_keeps P (h.mono rfl)
  unfold execCompletionRecordRelease
  repeat'
    first
    | with_reducible assumption
    | rfl
    | (refine run_keeps ?_ (by assumption))
    | (with_reducible apply k1)
    | (with_reducible apply ite_keeps (P := P))
    | (with_reducible apply foldl_keeps (P := P))
    | (refine fun (t : State) (ht : P t) => ?_)
    | (refine fun (_ : _) (t : State) (ht : P t) => ?_)
    | (with_reducible intro t; first | (refine (fun (ht : P t) => ?_) (?_ : P t); rotate_left; subst t; rotate_right; clear_value t) | skip | skip)
    | lift_lets -underBinder
    | split

theorem execGenerateStreamRecord_keeps {P : State → Prop} (h : Stable [.out, .ctr, .notify, .ss, .sl, .ev] P) (a0 : _) (a1 : _) (s : State) (hs : P (s.at a0)) : OkX P (execGenerateStreamRecord a0 a1 s) := by
  have k1 := @State.setSess_keeps P (h.mono rfl)
  have k2 := @State.record_keeps P (h.mono rfl)
  unfold execGenerateStreamRecord
  repeat'
    first
    | with_reducible assumption
    | rfl
    | (refine run_keeps ?_ (by assumption))
    | (with_reducible apply k1)
    | (with_reducible apply k2)
    | (with_reducible apply ite_keeps (P := P))
    | (with_reducible apply foldl_keeps (P := P))
    | (refine fun (t : State) (ht : P t) => ?_)
    | (refine fun (_ : _) (t : State) (ht : P t) => ?_)
    | (with_reducible intro t; first | (refine (fun (ht : P t) => ?_) (?_ : P t); rotate_left; subst t; rotate_right; clear_value t) | skip | skip)
    | lift_lets -underBinder
    | split

end Sys2Proof.Machine
end

