-- ==== Sys2Proof/Laws/KeepsSlaisk.lean ====
section
/-! SUPPORT. What the operations of Machine/Slaisk.lean can do to the state (`Laws/Keeps.lean`): one lemma per operation. -/

set_option linter.all false

namespace Sys2Proof.Machine

open Sys2Proof

theorem State.sendAck_keeps {P : State → Prop} (h : Stable [.out, .sl] P) (s : State) (a1 : _) (a2 : _) (a3 : _) (a4 : _) (hs : P s) : P (State.sendAck s a1 a2 a3 a4) := by
  have k1 := @State.setFlow_keeps P (h.mono rfl)
  have pOut := h.out rfl
  unfold State.sendAck
  repeat'
    first
    | with_reducible assumption
    | rfl
    | (with_reducible apply k1)
    | (with_reducible apply pOut)
    | (with_reducible apply ite_keeps (P := P))
    | (with_reducible apply foldl_keeps (P := P))
    | (refine fun (t : State) (ht : P t) => ?_)
    | (refine fun (_ : _) (t : State) (ht : P t) => ?_)
    | (with_reducible intro t; first | (refine (fun (ht : P t) => ?_) (?_ : P t); rotate_left; subst t; rotate_right; clear_value t) | skip | skip)
    | lift_lets -underBinder
    | split

theorem State.takeAck_keeps {P : State → Prop} (h : Stable [.out, .ctr, .sl, .ev] P) (s : State) (a1 : _) (a2 : _) (hs : P s) : OkP P (State.takeAck s a1 a2) := by
  have k1 := @State.pump_keeps P (h.mono rfl)
  have k2 := @State.setFlow_keeps P (h.mono rfl)
  unfold State.takeAck
  repeat'
    first
    | with_reducible assumption
    | rfl
    | (with_reducible apply k1)
    | (with_reducible apply k2)
    | (with_reducible apply iteP_keeps (P := P))
    | (with_reducible apply ite_keeps (P := P))
    | (with_reducible apply foldl_keeps (P := P))
    | (with_reducible apply foldP_keeps (P := P))
    | (refine OkP.get (P := P) (by with_reducible assumption) ?_)
    | (with_reducible apply OkP.snd (P := P))
    | (refine fun (t : State) (ht : P t) => ?_)
    | (refine fun (_ : _) (t : State) (ht : P t) => ?_)
    | (with_reducible intro t; first | (refine (fun (ht : P t) => ?_) (?_ : P t); rotate_left; subst t; rotate_right; clear_value t) | skip | skip)
    | lift_lets -underBinder
    | split
    | (with_reducible apply OkP.mk (P := P))

theorem State.retry_keeps {P : State → Prop} (h : Stable [.out, .ctr, .notify, .ss, .tm, .fb, .sl, .dx, .ck, .ev] P) (s : State) (a1 : _) (hs : P s) : P (State.retry s a1) := by
  have k1 := @State.ckptFlowLost_keeps P (h.mono rfl)
  have k2 := @State.flowFail_keeps P (h.mono rfl)
  have k3 := @State.setFlow_keeps P (h.mono rfl)
  have k4 := @State.armRto_keeps P (h.mono rfl)
  have k5 := @State.resend_keeps P (h.mono rfl)
  unfold State.retry
  repeat'
    first
    | with_reducible assumption
    | rfl
    | (with_reducible apply k1)
    | (with_reducible apply k2)
    | (with_reducible apply k3)
    | (with_reducible apply k4)
    | (with_reducible apply k5)
    | (with_reducible apply ite_keeps (P := P))
    | (with_reducible apply foldl_keeps (P := P))
    | (refine fun (t : State) (ht : P t) => ?_)
    | (refine fun (_ : _) (t : State) (ht : P t) => ?_)
    | (with_reducible intro t; first | (refine (fun (ht : P t) => ?_) (?_ : P t); rotate_left; subst t; rotate_right; clear_value t) | skip | skip)
    | lift_lets -underBinder
    | split

theorem State.rxPacket_keeps {P : State → Prop} (h : Stable [.ctr, .ev] P) (s : State) (a1 : _) (f : State → State) (hf : ∀ t, P t → P (f t)) (hs : P s) : P (State.rxPacket s a1 f) := by
  have pInc := h.ctrInc rfl
  have pEv := h.ev rfl
  unfold State.rxPacket
  repeat'
    first
    | with_reducible assumption
    | rfl
    | (with_reducible apply pInc)
    | (with_reducible apply pEv)
    | (with_reducible apply ite_keeps (P := P))
    | (with_reducible apply foldl_keeps (P := P))
    | (with_reducible apply hf)
    | (refine fun (t : State) (ht : P t) => ?_)
    | (refine fun (_ : _) (t : State) (ht : P t) => ?_)
    | (with_reducible intro t; first | (refine (fun (ht : P t) => ?_) (?_ : P t); rotate_left; subst t; rotate_right; clear_value t) | skip | skip)
    | lift_lets -underBinder
    | split

theorem State.rxSeq_keeps {P : State → Prop} (h : Stable [.out, .ctr, .sl, .ev] P) (s : State) (a1 : _) (f : State → ℕ × State) (hf : ∀ t, P t → OkP P (f t)) (hs : P s) : P (State.rxSeq s a1 f) := by
  have k1 := @State.rxPacket_keeps P (h.mono rfl)
  have k2 := @State.takeAck_keeps P (h.mono rfl)
  have k3 := @State.setFlow_keeps P (h.mono rfl)
  have k4 := @State.sendAck_keeps P (h.mono rfl)
  have pInc := h.ctrInc rfl
  have pEv := h.ev rfl
  unfold State.rxSeq
  repeat'
    first
    | with_reducible assumption
    | rfl
    | (with_reducible apply k1)
    | (with_reducible apply k2)
    | (with_reducible apply k3)
    | (with_reducible apply k4)
    | (with_reducible apply pInc)
    | (with_reducible apply pEv)
    | (with_reducible apply iteP_keeps (P := P))
    | (with_reducible apply ite_keeps (P := P))
    | (with_reducible apply when_keeps (P := P))
    | (with_reducible apply foldl_keeps (P := P))
    | (with_reducible apply foldP_keeps (P := P))
    | (with_reducible apply hf)
    | (refine OkP.get (P := P) (by with_reducible assumption) ?_)
    | (with_reducible apply OkP.snd (P := P))
    | (refine fun (t : State) (ht : P t) => ?_)
    | (refine fun (_ : _) (t : State) (ht : P t) => ?_)
    | (with_reducible intro t; first | (refine (fun (ht : P t) => ?_) (?_ : P t); rotate_left; subst t; rotate_right; clear_value t) | skip | skip)
    | lift_lets -underBinder
    | split
    | (with_reducible apply OkP.mk (P := P))

theorem State.winRefuse_keeps {P : State → Prop} (h : Stable [.ctr, .ev] P) (s : State) (a1 : _) (a2 : _) (hs : P s) : OkP P (State.winRefuse s a1 a2) := by
  have pInc := h.ctrInc rfl
  have pEv := h.ev rfl
  unfold State.winRefuse
  repeat'
    first
    | with_reducible assumption
    | rfl
    | (with_reducible apply pInc)
    | (with_reducible apply pEv)
    | (with_reducible apply iteP_keeps (P := P))
    | (with_reducible apply ite_keeps (P := P))
    | (with_reducible apply when_keeps (P := P))
    | (with_reducible apply foldl_keeps (P := P))
    | (with_reducible apply foldP_keeps (P := P))
    | (refine OkP.get (P := P) (by with_reducible assumption) ?_)
    | (with_reducible apply OkP.snd (P := P))
    | (refine fun (t : State) (ht : P t) => ?_)
    | (refine fun (_ : _) (t : State) (ht : P t) => ?_)
    | (with_reducible intro t; first | (refine (fun (ht : P t) => ?_) (?_ : P t); rotate_left; subst t; rotate_right; clear_value t) | skip | skip)
    | lift_lets -underBinder
    | split
    | (with_reducible apply OkP.mk (P := P))

theorem State.landSend_keeps {P : State → Prop} (h : Stable [.out, .ctr, .nv, .notify, .ss, .sl, .dx, .ev] P) (s : State) (a1 : _) (a2 : _) (a3 : _) (hs : P s) : P (State.landSend s a1 a2 a3) := by
  have k1 := @State.sendSess_keeps P (h.mono rfl)
  have k2 := @State.sendDom_keeps P (h.mono rfl)
  have pEv := h.ev rfl
  unfold State.landSend
  repeat'
    first
    | with_reducible assumption
    | rfl
    | (with_reducible apply k1)
    | (with_reducible apply k2)
    | (with_reducible apply pEv)
    | (with_reducible apply ite_keeps (P := P))
    | (with_reducible apply foldl_keeps (P := P))
    | (refine fun (t : State) (ht : P t) => ?_)
    | (refine fun (_ : _) (t : State) (ht : P t) => ?_)
    | (with_reducible intro t; first | (refine (fun (ht : P t) => ?_) (?_ : P t); rotate_left; subst t; rotate_right; clear_value t) | skip | skip)
    | lift_lets -underBinder
    | split

theorem State.opSend_keeps {P : State → Prop} (h : Stable [.out, .ctr, .nv, .notify, .ss, .sl, .dx, .ev] P) (s : State) (a1 : _) (hs : P s) : OkP P (State.opSend s a1) := by
  have k1 := @State.setFlow_keeps P (h.mono rfl)
  have k2 := @State.landSend_keeps P (h.mono rfl)
  unfold State.opSend
  repeat'
    first
    | with_reducible assumption
    | rfl
    | (with_reducible apply k1)
    | (with_reducible apply k2)
    | (with_reducible apply iteP_keeps (P := P))
    | (with_reducible apply ite_keeps (P := P))
    | (with_reducible apply foldl_keeps (P := P))
    | (with_reducible apply foldP_keeps (P := P))
    | (refine OkP.get (P := P) (by with_reducible assumption) ?_)
    | (with_reducible apply OkP.snd (P := P))
    | (refine fun (t : State) (ht : P t) => ?_)
    | (refine fun (_ : _) (t : State) (ht : P t) => ?_)
    | (with_reducible intro t; first | (refine (fun (ht : P t) => ?_) (?_ : P t); rotate_left; subst t; rotate_right; clear_value t) | skip | skip)
    | lift_lets -underBinder
    | split
    | (with_reducible apply OkP.mk (P := P))

theorem execSlaiskSend_keeps {P : State → Prop} (h : Stable [.out, .ctr, .nv, .notify, .ss, .sl, .dx, .ev] P) (a0 : _) (a1 : _) (s : State) (hs : P (s.at a0)) : OkX P (execSlaiskSend a0 a1 s) := by
  have k1 := @State.rxSeq_keeps P (h.mono rfl)
  have k2 := @State.opSend_keeps P (h.mono rfl)
  unfold execSlaiskSend
  repeat'
    first
    | with_reducible assumption
    | rfl
    | (refine run_keeps ?_ (by assumption))
    | (with_reducible apply k1)
    | (with_reducible apply k2)
    | (with_reducible apply iteP_keeps (P := P))
    | (with_reducible apply ite_keeps (P := P))
    | (with_reducible apply foldl_keeps (P := P))
    | (with_reducible apply foldP_keeps (P := P))
    | (refine OkP.get (P := P) (by with_reducible assumption) ?_)
    | (with_reducible apply OkP.snd (P := P))
    | (refine fun (t : State) (ht : P t) => ?_)
    | (refine fun (_ : _) (t : State) (ht : P t) => ?_)
    | (with_reducible intro t; first | (refine (fun (ht : P t) => ?_) (?_ : P t); rotate_left; subst t; rotate_right; clear_value t) | skip | skip)
    | lift_lets -underBinder
    | split
    | (with_reducible apply OkP.mk (P := P))

theorem State.doorbell_keeps {P : State → Prop} (h : Stable [.out, .ctr, .notify, .ss, .sl, .ev] P) (s : State) (a1 : _) (hs : P s) : OkP P (State.doorbell s a1) := by
  have k1 := @State.release_keeps P (h.mono rfl)
  have pInc := h.ctrInc rfl
  have pSet := h.ctr rfl
  have pEv := h.ev rfl
  unfold State.doorbell
  repeat'
    first
    | with_reducible assumption
    | rfl
    | (with_reducible apply k1)
    | (with_reducible apply pInc)
    | (with_reducible apply pSet)
    | (with_reducible apply pEv)
    | (with_reducible apply iteP_keeps (P := P))
    | (with_reducible apply ite_keeps (P := P))
    | (with_reducible apply foldl_keeps (P := P))
    | (with_reducible apply foldP_keeps (P := P))
    | (refine OkP.get (P := P) (by with_reducible assumption) ?_)
    | (with_reducible apply OkP.snd (P := P))
    | (refine fun (t : State) (ht : P t) => ?_)
    | (refine fun (_ : _) (t : State) (ht : P t) => ?_)
    | (with_reducible intro t; first | (refine (fun (ht : P t) => ?_) (?_ : P t); rotate_left; subst t; rotate_right; clear_value t) | skip | skip)
    | lift_lets -underBinder
    | split
    | (with_reducible apply OkP.mk (P := P))

theorem State.opWrite_keeps {P : State → Prop} (h : Stable [.out, .ctr, .win, .notify, .ss, .sl, .ev] P) (s : State) (a1 : _) (hs : P s) : OkP P (State.opWrite s a1) := by
  have k1 := @State.doorbell_keeps P (h.mono rfl)
  have k2 := @State.winRefuse_keeps P (h.mono rfl)
  have pWin := h.win rfl
  unfold State.opWrite
  repeat'
    first
    | ((with_reducible apply WinSide.mk); first | exact id | exact fun _ => rfl | exact WinSide.write)
    | with_reducible assumption
    | rfl
    | (with_reducible apply k1)
    | (with_reducible apply k2)
    | (with_reducible apply pWin)
    | (with_reducible apply iteP_keeps (P := P))
    | (with_reducible apply ite_keeps (P := P))
    | (with_reducible apply foldl_keeps (P := P))
    | (with_reducible apply foldP_keeps (P := P))
    | (refine OkP.get (P := P) (by with_reducible assumption) ?_)
    | (with_reducible apply OkP.snd (P := P))
    | (refine fun (t : State) (ht : P t) => ?_)
    | (refine fun (_ : _) (t : State) (ht : P t) => ?_)
    | (with_reducible intro t; first | (refine (fun (ht : P t) => ?_) (?_ : P t); rotate_left; subst t; rotate_right; clear_value t) | skip | skip)
    | lift_lets -underBinder
    | split
    | (with_reducible apply OkP.mk (P := P))

theorem execSlaiskWrite_keeps {P : State → Prop} (h : Stable [.out, .ctr, .win, .notify, .ss, .sl, .ev] P) (a0 : _) (a1 : _) (s : State) (hs : P (s.at a0)) : OkX P (execSlaiskWrite a0 a1 s) := by
  have k1 := @State.rxSeq_keeps P (h.mono rfl)
  have k2 := @State.opWrite_keeps P (h.mono rfl)
  unfold execSlaiskWrite
  repeat'
    first
    | with_reducible assumption
    | rfl
    | (refine run_keeps ?_ (by assumption))
    | (with_reducible apply k1)
    | (with_reducible apply k2)
    | (with_reducible apply iteP_keeps (P := P))
    | (with_reducible apply ite_keeps (P := P))
    | (with_reducible apply foldl_keeps (P := P))
    | (with_reducible apply foldP_keeps (P := P))
    | (refine OkP.get (P := P) (by with_reducible assumption) ?_)
    | (with_reducible apply OkP.snd (P := P))
    | (refine fun (t : State) (ht : P t) => ?_)
    | (refine fun (_ : _) (t : State) (ht : P t) => ?_)
    | (with_reducible intro t; first | (refine (fun (ht : P t) => ?_) (?_ : P t); rotate_left; subst t; rotate_right; clear_value t) | skip | skip)
    | lift_lets -underBinder
    | split
    | (with_reducible apply OkP.mk (P := P))

theorem execDoorbellWrite_keeps {P : State → Prop} (h : Stable [.out, .ctr, .win, .notify, .ss, .sl, .ev] P) (a0 : _) (a1 : _) (s : State) (hs : P (s.at a0)) : OkX P (execDoorbellWrite a0 a1 s) := by
  have k1 := @State.rxSeq_keeps P (h.mono rfl)
  have k2 := @State.opWrite_keeps P (h.mono rfl)
  have k3 := @State.doorbell_keeps P (h.mono rfl)
  unfold execDoorbellWrite
  repeat'
    first
    | with_reducible assumption
    | rfl
    | (refine run_keeps ?_ (by assumption))
    | (with_reducible apply k1)
    | (with_reducible apply k2)
    | (with_reducible apply k3)
    | (with_reducible apply iteP_keeps (P := P))
    | (with_reducible apply ite_keeps (P := P))
    | (with_reducible apply foldl_keeps (P := P))
    | (with_reducible apply foldP_keeps (P := P))
    | (refine OkP.get (P := P) (by with_reducible assumption) ?_)
    | (with_reducible apply OkP.snd (P := P))
    | (refine fun (t : State) (ht : P t) => ?_)
    | (refine fun (_ : _) (t : State) (ht : P t) => ?_)
    | (with_reducible intro t; first | (refine (fun (ht : P t) => ?_) (?_ : P t); rotate_left; subst t; rotate_right; clear_value t) | skip | skip)
    | lift_lets -underBinder
    | split
    | (with_reducible apply OkP.mk (P := P))

theorem State.opFlush_keeps {P : State → Prop} (h : Stable [.out, .ctr, .sl, .ev] P) (s : State) (a1 : _) (hs : P s) : OkP P (State.opFlush s a1) := by
  have k1 := @State.txPacket_keeps P (h.mono rfl)
  have k2 := @State.winRefuse_keeps P (h.mono rfl)
  have pEv := h.ev rfl
  unfold State.opFlush
  repeat'
    first
    | with_reducible assumption
    | rfl
    | (with_reducible apply k1)
    | (with_reducible apply k2)
    | (with_reducible apply pEv)
    | (with_reducible apply iteP_keeps (P := P))
    | (with_reducible apply ite_keeps (P := P))
    | (with_reducible apply foldl_keeps (P := P))
    | (with_reducible apply foldP_keeps (P := P))
    | (refine OkP.get (P := P) (by with_reducible assumption) ?_)
    | (with_reducible apply OkP.snd (P := P))
    | (refine fun (t : State) (ht : P t) => ?_)
    | (refine fun (_ : _) (t : State) (ht : P t) => ?_)
    | (with_reducible intro t; first | (refine (fun (ht : P t) => ?_) (?_ : P t); rotate_left; subst t; rotate_right; clear_value t) | skip | skip)
    | lift_lets -underBinder
    | split
    | (with_reducible apply OkP.mk (P := P))

theorem execSlaiskFlush_keeps {P : State → Prop} (h : Stable [.out, .ctr, .sl, .ev] P) (a0 : _) (a1 : _) (s : State) (hs : P (s.at a0)) : OkX P (execSlaiskFlush a0 a1 s) := by
  have k1 := @State.rxSeq_keeps P (h.mono rfl)
  have k2 := @State.opFlush_keeps P (h.mono rfl)
  unfold execSlaiskFlush
  repeat'
    first
    | with_reducible assumption
    | rfl
    | (refine run_keeps ?_ (by assumption))
    | (with_reducible apply k1)
    | (with_reducible apply k2)
    | (with_reducible apply iteP_keeps (P := P))
    | (with_reducible apply ite_keeps (P := P))
    | (with_reducible apply foldl_keeps (P := P))
    | (with_reducible apply foldP_keeps (P := P))
    | (refine OkP.get (P := P) (by with_reducible assumption) ?_)
    | (with_reducible apply OkP.snd (P := P))
    | (refine fun (t : State) (ht : P t) => ?_)
    | (refine fun (_ : _) (t : State) (ht : P t) => ?_)
    | (with_reducible intro t; first | (refine (fun (ht : P t) => ?_) (?_ : P t); rotate_left; subst t; rotate_right; clear_value t) | skip | skip)
    | lift_lets -underBinder
    | split
    | (with_reducible apply OkP.mk (P := P))

theorem execSlaiskRead_keeps {P : State → Prop} (h : Stable [.out, .ctr, .sl, .ev] P) (a0 : _) (a1 : _) (s : State) (hs : P (s.at a0)) : OkX P (execSlaiskRead a0 a1 s) := by
  have k1 := @State.rxSeq_keeps P (h.mono rfl)
  unfold execSlaiskRead
  repeat'
    first
    | with_reducible assumption
    | rfl
    | (refine run_keeps ?_ (by assumption))
    | (with_reducible apply k1)
    | (with_reducible apply iteP_keeps (P := P))
    | (with_reducible apply ite_keeps (P := P))
    | (with_reducible apply foldl_keeps (P := P))
    | (with_reducible apply foldP_keeps (P := P))
    | (refine OkP.get (P := P) (by with_reducible assumption) ?_)
    | (with_reducible apply OkP.snd (P := P))
    | (refine fun (t : State) (ht : P t) => ?_)
    | (refine fun (_ : _) (t : State) (ht : P t) => ?_)
    | (with_reducible intro t; first | (refine (fun (ht : P t) => ?_) (?_ : P t); rotate_left; subst t; rotate_right; clear_value t) | skip | skip)
    | lift_lets -underBinder
    | split
    | (with_reducible apply OkP.mk (P := P))

theorem execSlaiskAtomicAdd_keeps {P : State → Prop} (h : Stable [.out, .ctr, .sl, .ev] P) (a0 : _) (a1 : _) (s : State) (hs : P (s.at a0)) : OkX P (execSlaiskAtomicAdd a0 a1 s) := by
  have k1 := @State.rxSeq_keeps P (h.mono rfl)
  unfold execSlaiskAtomicAdd
  repeat'
    first
    | with_reducible assumption
    | rfl
    | (refine run_keeps ?_ (by assumption))
    | (with_reducible apply k1)
    | (with_reducible apply iteP_keeps (P := P))
    | (with_reducible apply ite_keeps (P := P))
    | (with_reducible apply foldl_keeps (P := P))
    | (with_reducible apply foldP_keeps (P := P))
    | (refine OkP.get (P := P) (by with_reducible assumption) ?_)
    | (with_reducible apply OkP.snd (P := P))
    | (refine fun (t : State) (ht : P t) => ?_)
    | (refine fun (_ : _) (t : State) (ht : P t) => ?_)
    | (with_reducible intro t; first | (refine (fun (ht : P t) => ?_) (?_ : P t); rotate_left; subst t; rotate_right; clear_value t) | skip | skip)
    | lift_lets -underBinder
    | split
    | (with_reducible apply OkP.mk (P := P))

theorem execSlaiskCas_keeps {P : State → Prop} (h : Stable [.out, .ctr, .sl, .ev] P) (a0 : _) (a1 : _) (s : State) (hs : P (s.at a0)) : OkX P (execSlaiskCas a0 a1 s) := by
  have k1 := @State.rxSeq_keeps P (h.mono rfl)
  unfold execSlaiskCas
  repeat'
    first
    | with_reducible assumption
    | rfl
    | (refine run_keeps ?_ (by assumption))
    | (with_reducible apply k1)
    | (with_reducible apply iteP_keeps (P := P))
    | (with_reducible apply ite_keeps (P := P))
    | (with_reducible apply foldl_keeps (P := P))
    | (with_reducible apply foldP_keeps (P := P))
    | (refine OkP.get (P := P) (by with_reducible assumption) ?_)
    | (with_reducible apply OkP.snd (P := P))
    | (refine fun (t : State) (ht : P t) => ?_)
    | (refine fun (_ : _) (t : State) (ht : P t) => ?_)
    | (with_reducible intro t; first | (refine (fun (ht : P t) => ?_) (?_ : P t); rotate_left; subst t; rotate_right; clear_value t) | skip | skip)
    | lift_lets -underBinder
    | split
    | (with_reducible apply OkP.mk (P := P))

theorem State.dropOp_keeps {P : State → Prop} (h : Stable [.fb, .sl, .ev] P) (s : State) (a1 : _) (a2 : _) (hs : P s) : P (State.dropOp s a1 a2) := by
  have k1 := @State.setFlow_keeps P (h.mono rfl)
  have k2 := @State.freeSlot_keeps P (h.mono rfl)
  unfold State.dropOp
  repeat'
    first
    | with_reducible assumption
    | rfl
    | (with_reducible apply k1)
    | (with_reducible apply k2)
    | (with_reducible apply ite_keeps (P := P))
    | (with_reducible apply foldl_keeps (P := P))
    | (refine fun (t : State) (ht : P t) => ?_)
    | (refine fun (_ : _) (t : State) (ht : P t) => ?_)
    | (with_reducible intro t; first | (refine (fun (ht : P t) => ?_) (?_ : P t); rotate_left; subst t; rotate_right; clear_value t) | skip | skip)
    | lift_lets -underBinder
    | split

theorem State.opReadResponse_keeps {P : State → Prop} (h : Stable [.out, .ctr, .notify, .ss, .tm, .fb, .sl, .ev] P) (s : State) (a1 : _) (hs : P s) : OkP P (State.opReadResponse s a1) := by
  have k1 := @State.inputRead_keeps P (h.mono rfl)
  have k2 := @State.dropOp_keeps P (h.mono rfl)
  have k3 := @State.setFlow_keeps P (h.mono rfl)
  unfold State.opReadResponse
  repeat'
    first
    | with_reducible assumption
    | rfl
    | (with_reducible apply k1)
    | (with_reducible apply k2)
    | (with_reducible apply k3)
    | (with_reducible apply iteP_keeps (P := P))
    | (with_reducible apply ite_keeps (P := P))
    | (with_reducible apply foldl_keeps (P := P))
    | (with_reducible apply foldP_keeps (P := P))
    | (refine OkP.get (P := P) (by with_reducible assumption) ?_)
    | (with_reducible apply OkP.snd (P := P))
    | (refine fun (t : State) (ht : P t) => ?_)
    | (refine fun (_ : _) (t : State) (ht : P t) => ?_)
    | (with_reducible intro t; first | (refine (fun (ht : P t) => ?_) (?_ : P t); rotate_left; subst t; rotate_right; clear_value t) | skip | skip)
    | lift_lets -underBinder
    | split
    | (with_reducible apply OkP.mk (P := P))

theorem execSlaiskReadResponse_keeps {P : State → Prop} (h : Stable [.out, .ctr, .nv, .pw, .pwAny, .pk, .notify, .sc, .ss, .tm, .fb, .sv, .se, .sl, .dx, .journal, .ev] P) (a0 : _) (a1 : _) (s : State) (hs : P (s.at a0)) : OkX P (execSlaiskReadResponse a0 a1 s) := by
  have k1 := @settle_keeps P (h.mono rfl)
  have k2 := @State.rxSeq_keeps P (h.mono rfl)
  have k3 := @State.opReadResponse_keeps P (h.mono rfl)
  unfold execSlaiskReadResponse
  repeat'
    first
    | with_reducible assumption
    | rfl
    | (refine run_keeps ?_ (by assumption))
    | (with_reducible apply k1)
    | (with_reducible apply k2)
    | (with_reducible apply k3)
    | (with_reducible apply iteP_keeps (P := P))
    | (with_reducible apply ite_keeps (P := P))
    | (with_reducible apply foldl_keeps (P := P))
    | (with_reducible apply foldP_keeps (P := P))
    | (refine OkP.get (P := P) (by with_reducible assumption) ?_)
    | (with_reducible apply OkP.snd (P := P))
    | (refine fun (t : State) (ht : P t) => ?_)
    | (refine fun (_ : _) (t : State) (ht : P t) => ?_)
    | (with_reducible intro t; first | (refine (fun (ht : P t) => ?_) (?_ : P t); rotate_left; subst t; rotate_right; clear_value t) | skip | skip)
    | lift_lets -underBinder
    | split
    | (with_reducible apply OkP.mk (P := P))

theorem execSlaiskAtomicResponse_keeps {P : State → Prop} (h : Stable [.out, .ctr, .sl, .ev] P) (a0 : _) (a1 : _) (s : State) (hs : P (s.at a0)) : OkX P (execSlaiskAtomicResponse a0 a1 s) := by
  have k1 := @State.rxSeq_keeps P (h.mono rfl)
  unfold execSlaiskAtomicResponse
  repeat'
    first
    | with_reducible assumption
    | rfl
    | (refine run_keeps ?_ (by assumption))
    | (with_reducible apply k1)
    | (with_reducible apply iteP_keeps (P := P))
    | (with_reducible apply ite_keeps (P := P))
    | (with_reducible apply foldl_keeps (P := P))
    | (with_reducible apply foldP_keeps (P := P))
    | (refine OkP.get (P := P) (by with_reducible assumption) ?_)
    | (with_reducible apply OkP.snd (P := P))
    | (refine fun (t : State) (ht : P t) => ?_)
    | (refine fun (_ : _) (t : State) (ht : P t) => ?_)
    | (with_reducible intro t; first | (refine (fun (ht : P t) => ?_) (?_ : P t); rotate_left; subst t; rotate_right; clear_value t) | skip | skip)
    | lift_lets -underBinder
    | split
    | (with_reducible apply OkP.mk (P := P))

theorem execSlaiskFlushResponse_keeps {P : State → Prop} (h : Stable [.out, .ctr, .nv, .pw, .pwAny, .pk, .notify, .sc, .ss, .tm, .fb, .sv, .se, .sl, .dx, .journal, .ev] P) (a0 : _) (a1 : _) (s : State) (hs : P (s.at a0)) : OkX P (execSlaiskFlushResponse a0 a1 s) := by
  have k1 := @settle_keeps P (h.mono rfl)
  have k2 := @State.rxSeq_keeps P (h.mono rfl)
  have k3 := @State.dropOp_keeps P (h.mono rfl)
  have k4 := @State.inputRead_keeps P (h.mono rfl)
  unfold execSlaiskFlushResponse
  repeat'
    first
    | with_reducible assumption
    | rfl
    | (refine run_keeps ?_ (by assumption))
    | (with_reducible apply k1)
    | (with_reducible apply k2)
    | (with_reducible apply k3)
    | (with_reducible apply k4)
    | (with_reducible apply iteP_keeps (P := P))
    | (with_reducible apply ite_keeps (P := P))
    | (with_reducible apply foldl_keeps (P := P))
    | (with_reducible apply foldP_keeps (P := P))
    | (refine OkP.get (P := P) (by with_reducible assumption) ?_)
    | (with_reducible apply OkP.snd (P := P))
    | (refine fun (t : State) (ht : P t) => ?_)
    | (refine fun (_ : _) (t : State) (ht : P t) => ?_)
    | (with_reducible intro t; first | (refine (fun (ht : P t) => ?_) (?_ : P t); rotate_left; subst t; rotate_right; clear_value t) | skip | skip)
    | lift_lets -underBinder
    | split
    | (with_reducible apply OkP.mk (P := P))

theorem execWindowReply_keeps {P : State → Prop} (h : Stable [.out, .ctr, .sl, .ev] P) (a0 : _) (a1 : _) (s : State) (hs : P (s.at a0)) : OkX P (execWindowReply a0 a1 s) := by
  have k1 := @State.rxSeq_keeps P (h.mono rfl)
  unfold execWindowReply
  repeat'
    first
    | with_reducible assumption
    | rfl
    | (refine run_keeps ?_ (by assumption))
    | (with_reducible apply k1)
    | (with_reducible apply iteP_keeps (P := P))
    | (with_reducible apply ite_keeps (P := P))
    | (with_reducible apply foldl_keeps (P := P))
    | (with_reducible apply foldP_keeps (P := P))
    | (refine OkP.get (P := P) (by with_reducible assumption) ?_)
    | (with_reducible apply OkP.snd (P := P))
    | (refine fun (t : State) (ht : P t) => ?_)
    | (refine fun (_ : _) (t : State) (ht : P t) => ?_)
    | (with_reducible intro t; first | (refine (fun (ht : P t) => ?_) (?_ : P t); rotate_left; subst t; rotate_right; clear_value t) | skip | skip)
    | lift_lets -underBinder
    | split
    | (with_reducible apply OkP.mk (P := P))

theorem State.rxCtr_keeps {P : State → Prop} (h : Stable [.ctr, .sl, .ev] P) (s : State) (a1 : _) (f : State → State) (hf : ∀ t, P t → P (f t)) (hs : P s) : P (State.rxCtr s a1 f) := by
  have k1 := @State.rxPacket_keeps P (h.mono rfl)
  have k2 := @State.setFlow_keeps P (h.mono rfl)
  unfold State.rxCtr
  repeat'
    first
    | with_reducible assumption
    | rfl
    | (with_reducible apply k1)
    | (with_reducible apply k2)
    | (with_reducible apply ite_keeps (P := P))
    | (with_reducible apply foldl_keeps (P := P))
    | (with_reducible apply hf)
    | (refine fun (t : State) (ht : P t) => ?_)
    | (refine fun (_ : _) (t : State) (ht : P t) => ?_)
    | (with_reducible intro t; first | (refine (fun (ht : P t) => ?_) (?_ : P t); rotate_left; subst t; rotate_right; clear_value t) | skip | skip)
    | lift_lets -underBinder
    | split

theorem execSlaiskAck_keeps {P : State → Prop} (h : Stable [.out, .ctr, .nv, .pw, .pwAny, .pk, .notify, .sc, .ss, .tm, .fb, .sv, .se, .sl, .dx, .journal, .ev] P) (a0 : _) (a1 : _) (s : State) (hs : P (s.at a0)) : OkX P (execSlaiskAck a0 a1 s) := by
  have k1 := @settle_keeps P (h.mono rfl)
  have k2 := @State.rxCtr_keeps P (h.mono rfl)
  have k3 := @State.takeAck_keeps P (h.mono rfl)
  unfold execSlaiskAck
  repeat'
    first
    | with_reducible assumption
    | rfl
    | (refine run_keeps ?_ (by assumption))
    | (with_reducible apply k1)
    | (with_reducible apply k2)
    | (with_reducible apply k3)
    | (with_reducible apply iteP_keeps (P := P))
    | (with_reducible apply ite_keeps (P := P))
    | (with_reducible apply foldl_keeps (P := P))
    | (with_reducible apply foldP_keeps (P := P))
    | (refine OkP.get (P := P) (by with_reducible assumption) ?_)
    | (with_reducible apply OkP.snd (P := P))
    | (refine fun (t : State) (ht : P t) => ?_)
    | (refine fun (_ : _) (t : State) (ht : P t) => ?_)
    | (with_reducible intro t; first | (refine (fun (ht : P t) => ?_) (?_ : P t); rotate_left; subst t; rotate_right; clear_value t) | skip | skip)
    | lift_lets -underBinder
    | split
    | (with_reducible apply OkP.mk (P := P))

theorem execSlaiskNak_keeps {P : State → Prop} (h : Stable [.out, .ctr, .nv, .pw, .pwAny, .pk, .notify, .sc, .ss, .tm, .fb, .sv, .se, .sl, .dx, .ck, .journal, .ev] P) (a0 : _) (a1 : _) (s : State) (hs : P (s.at a0)) : OkX P (execSlaiskNak a0 a1 s) := by
  have k1 := @settle_keeps P (h.mono rfl)
  have k2 := @State.rxCtr_keeps P (h.mono rfl)
  have k3 := @State.takeAck_keeps P (h.mono rfl)
  have k4 := @State.resend_keeps P (h.mono rfl)
  have k5 := @State.retry_keeps P (h.mono rfl)
  have k6 := @State.outputLost_keeps P (h.mono rfl)
  have k7 := @State.inputRead_keeps P (h.mono rfl)
  have k8 := @State.dropOp_keeps P (h.mono rfl)
  have pInc := h.ctrInc rfl
  have pEv := h.ev rfl
  unfold execSlaiskNak
  repeat'
    first
    | with_reducible assumption
    | rfl
    | (refine run_keeps ?_ (by assumption))
    | (with_reducible apply k1)
    | (with_reducible apply k2)
    | (with_reducible apply k3)
    | (with_reducible apply k4)
    | (with_reducible apply k5)
    | (with_reducible apply k6)
    | (with_reducible apply k7)
    | (with_reducible apply k8)
    | (with_reducible apply pInc)
    | (with_reducible apply pEv)
    | (with_reducible apply iteP_keeps (P := P))
    | (with_reducible apply ite_keeps (P := P))
    | (with_reducible apply foldl_keeps (P := P))
    | (with_reducible apply foldP_keeps (P := P))
    | (refine OkP.get (P := P) (by with_reducible assumption) ?_)
    | (with_reducible apply OkP.snd (P := P))
    | (refine fun (t : State) (ht : P t) => ?_)
    | (refine fun (_ : _) (t : State) (ht : P t) => ?_)
    | (with_reducible intro t; first | (refine (fun (ht : P t) => ?_) (?_ : P t); rotate_left; subst t; rotate_right; clear_value t) | subst t | skip)
    | lift_lets -underBinder
    | split
    | (with_reducible apply OkP.mk (P := P))

theorem execAckCoalesceTimer_keeps {P : State → Prop} (h : Stable [.out, .sl] P) (a0 : _) (a1 : _) (s : State) (hs : P (s.at a0)) : OkX P (execAckCoalesceTimer a0 a1 s) := by
  have k1 := @State.sendAck_keeps P (h.mono rfl)
  unfold execAckCoalesceTimer
  repeat'
    first
    | with_reducible assumption
    | rfl
    | (refine run_keeps ?_ (by assumption))
    | (with_reducible apply k1)
    | (with_reducible apply ite_keeps (P := P))
    | (with_reducible apply foldl_keeps (P := P))
    | (refine fun (t : State) (ht : P t) => ?_)
    | (refine fun (_ : _) (t : State) (ht : P t) => ?_)
    | (with_reducible intro t; first | (refine (fun (ht : P t) => ?_) (?_ : P t); rotate_left; subst t; rotate_right; clear_value t) | skip | skip)
    | lift_lets -underBinder
    | split

theorem execRetransmitTimeout_keeps {P : State → Prop} (h : Stable [.out, .ctr, .nv, .pw, .pwAny, .pk, .notify, .sc, .ss, .tm, .fb, .sv, .se, .sl, .dx, .ck, .journal, .ev] P) (a0 : _) (a1 : _) (s : State) (hs : P (s.at a0)) : OkX P (execRetransmitTimeout a0 a1 s) := by
  have k1 := @settle_keeps P (h.mono rfl)
  have k2 := @State.retry_keeps P (h.mono rfl)
  have pEv := h.ev rfl
  unfold execRetransmitTimeout
  repeat'
    first
    | with_reducible assumption
    | rfl
    | (refine run_keeps ?_ (by assumption))
    | (with_reducible apply k1)
    | (with_reducible apply k2)
    | (with_reducible apply pEv)
    | (with_reducible apply ite_keeps (P := P))
    | (with_reducible apply foldl_keeps (P := P))
    | (refine fun (t : State) (ht : P t) => ?_)
    | (refine fun (_ : _) (t : State) (ht : P t) => ?_)
    | (with_reducible intro t; first | (refine (fun (ht : P t) => ?_) (?_ : P t); rotate_left; subst t; rotate_right; clear_value t) | skip | skip)
    | lift_lets -underBinder
    | split

theorem State.winReply_keeps {P : State → Prop} (h : Stable [.out, .ctr, .sl, .ev] P) (s : State) (a1 : _) (a2 : _) (a3 : _) (a4 : _) (hs : P s) : P (State.winReply s a1 a2 a3 a4) := by
  have k1 := @State.txPacket_keeps P (h.mono rfl)
  unfold State.winReply
  repeat'
    first
    | with_reducible assumption
    | rfl
    | (with_reducible apply k1)
    | (with_reducible apply ite_keeps (P := P))
    | (with_reducible apply foldl_keeps (P := P))
    | (refine fun (t : State) (ht : P t) => ?_)
    | (refine fun (_ : _) (t : State) (ht : P t) => ?_)
    | (with_reducible intro t; first | (refine (fun (ht : P t) => ?_) (?_ : P t); rotate_left; subst t; rotate_right; clear_value t) | skip | skip)
    | lift_lets -underBinder
    | split

theorem State.opWindowOpen_keeps {P : State → Prop} (h : Stable [.out, .ctr, .wfn, .win, .sl, .ev] P) (s : State) (a1 : _) (hs : P s) : OkP P (State.opWindowOpen s a1) := by
  have k1 := @State.winReply_keeps P (h.mono rfl)
  have pFn := h.wfn rfl
  have pWin := h.win rfl
  unfold State.opWindowOpen
  repeat'
    first
    | ((with_reducible apply WinSide.mk); first | exact id | exact fun _ => rfl | exact WinSide.write)
    | with_reducible assumption
    | rfl
    | (with_reducible apply k1)
    | (with_reducible apply pFn)
    | (with_reducible apply pWin)
    | (with_reducible apply iteP_keeps (P := P))
    | (with_reducible apply ite_keeps (P := P))
    | (with_reducible apply foldl_keeps (P := P))
    | (with_reducible apply foldP_keeps (P := P))
    | (refine OkP.get (P := P) (by with_reducible assumption) ?_)
    | (with_reducible apply OkP.snd (P := P))
    | (refine fun (t : State) (ht : P t) => ?_)
    | (refine fun (_ : _) (t : State) (ht : P t) => ?_)
    | (with_reducible intro t; first | (refine (fun (ht : P t) => ?_) (?_ : P t); rotate_left; subst t; rotate_right; clear_value t) | skip | skip)
    | lift_lets -underBinder
    | split
    | (with_reducible apply OkP.mk (P := P))

theorem execWindowOpen_keeps {P : State → Prop} (h : Stable [.out, .ctr, .wfn, .win, .sl, .ev] P) (a0 : _) (a1 : _) (s : State) (hs : P (s.at a0)) : OkX P (execWindowOpen a0 a1 s) := by
  have k1 := @State.rxSeq_keeps P (h.mono rfl)
  have k2 := @State.opWindowOpen_keeps P (h.mono rfl)
  unfold execWindowOpen
  repeat'
    first
    | with_reducible assumption
    | rfl
    | (refine run_keeps ?_ (by assumption))
    | (with_reducible apply k1)
    | (with_reducible apply k2)
    | (with_reducible apply iteP_keeps (P := P))
    | (with_reducible apply ite_keeps (P := P))
    | (with_reducible apply foldl_keeps (P := P))
    | (with_reducible apply foldP_keeps (P := P))
    | (refine OkP.get (P := P) (by with_reducible assumption) ?_)
    | (with_reducible apply OkP.snd (P := P))
    | (refine fun (t : State) (ht : P t) => ?_)
    | (refine fun (_ : _) (t : State) (ht : P t) => ?_)
    | (with_reducible intro t; first | (refine (fun (ht : P t) => ?_) (?_ : P t); rotate_left; subst t; rotate_right; clear_value t) | skip | skip)
    | lift_lets -underBinder
    | split
    | (with_reducible apply OkP.mk (P := P))

theorem execWindowStartComplete_keeps {P : State → Prop} (h : Stable [.out, .ctr, .wfn, .sl, .ev] P) (a0 : _) (a1 : _) (s : State) (hs : P (s.at a0)) : OkX P (execWindowStartComplete a0 a1 s) := by
  have k1 := @State.winReply_keeps P (h.mono rfl)
  have pEv := h.ev rfl
  have pFn := h.wfn rfl
  unfold execWindowStartComplete
  repeat'
    first
    | with_reducible assumption
    | rfl
    | (refine run_keeps ?_ (by assumption))
    | (with_reducible apply k1)
    | (with_reducible apply pEv)
    | (with_reducible apply pFn)
    | (with_reducible apply ite_keeps (P := P))
    | (with_reducible apply foldl_keeps (P := P))
    | (refine fun (t : State) (ht : P t) => ?_)
    | (refine fun (_ : _) (t : State) (ht : P t) => ?_)
    | (with_reducible intro t; first | (refine (fun (ht : P t) => ?_) (?_ : P t); rotate_left; subst t; rotate_right; clear_value t) | skip | skip)
    | lift_lets -underBinder
    | split

theorem execWindowRevoke_keeps {P : State → Prop} (h : Stable [.out, .ctr, .wfn, .win, .sl, .ev] P) (a0 : _) (a1 : _) (s : State) (hs : P (s.at a0)) : OkX P (execWindowRevoke a0 a1 s) := by
  have k1 := @State.rxSeq_keeps P (h.mono rfl)
  have k2 := @State.winRefuse_keeps P (h.mono rfl)
  have k3 := @State.revoke_keeps P (h.mono rfl)
  unfold execWindowRevoke
  repeat'
    first
    | with_reducible assumption
    | rfl
    | (refine run_keeps ?_ (by assumption))
    | (with_reducible apply k1)
    | (with_reducible apply k2)
    | (with_reducible apply k3)
    | (with_reducible apply iteP_keeps (P := P))
    | (with_reducible apply ite_keeps (P := P))
    | (with_reducible apply foldl_keeps (P := P))
    | (with_reducible apply foldP_keeps (P := P))
    | (refine OkP.get (P := P) (by with_reducible assumption) ?_)
    | (with_reducible apply OkP.snd (P := P))
    | (refine fun (t : State) (ht : P t) => ?_)
    | (refine fun (_ : _) (t : State) (ht : P t) => ?_)
    | (with_reducible intro t; first | (refine (fun (ht : P t) => ?_) (?_ : P t); rotate_left; subst t; rotate_right; clear_value t) | skip | skip)
    | lift_lets -underBinder
    | split
    | (with_reducible apply OkP.mk (P := P))

theorem execWindowExpire_keeps {P : State → Prop} (h : Stable [.wfn, .win, .ev] P) (a0 : _) (a1 : _) (s : State) (hs : P (s.at a0)) : OkX P (execWindowExpire a0 a1 s) := by
  have k1 := @State.windowDue_keeps P (h.mono rfl)
  unfold execWindowExpire
  repeat'
    first
    | with_reducible assumption
    | rfl
    | (refine run_keeps ?_ (by assumption))
    | (with_reducible apply k1)
    | (with_reducible apply ite_keeps (P := P))
    | (with_reducible apply foldl_keeps (P := P))
    | (refine fun (t : State) (ht : P t) => ?_)
    | (refine fun (_ : _) (t : State) (ht : P t) => ?_)
    | (with_reducible intro t; first | (refine (fun (ht : P t) => ?_) (?_ : P t); rotate_left; subst t; rotate_right; clear_value t) | skip | skip)
    | lift_lets -underBinder
    | split

theorem execWindowStopComplete_keeps {P : State → Prop} (h : Stable [.wfn, .win] P) (a0 : _) (a1 : _) (s : State) (hs : P (s.at a0)) : OkX P (execWindowStopComplete a0 a1 s) := by
  have pFn := h.wfn rfl
  have pWin := h.win rfl
  unfold execWindowStopComplete
  repeat'
    first
    | ((with_reducible apply WinSide.mk); first | exact id | exact fun _ => rfl | exact WinSide.write)
    | with_reducible assumption
    | rfl
    | (refine run_keeps ?_ (by assumption))
    | (with_reducible apply pFn)
    | (with_reducible apply pWin)
    | (with_reducible apply ite_keeps (P := P))
    | (with_reducible apply foldl_keeps (P := P))
    | (refine fun (t : State) (ht : P t) => ?_)
    | (refine fun (_ : _) (t : State) (ht : P t) => ?_)
    | (with_reducible intro t; first | (refine (fun (ht : P t) => ?_) (?_ : P t); rotate_left; subst t; rotate_right; clear_value t) | skip | skip)
    | lift_lets -underBinder
    | split

end Sys2Proof.Machine
end

