-- ==== Sys2Proof/Laws/KeepsLeave.lean ====
section
/-! SUPPORT. What the operations of Machine/Leave.lean can do to the state (`Laws/Keeps.lean`): one lemma per operation. -/

set_option linter.all false

namespace Sys2Proof.Machine

open Sys2Proof

theorem State.lossRecord_keeps {P : State → Prop} (h : Stable [.out, .ctr, .notify, .ss, .sl, .ev] P) (s : State) (a1 : _) (a2 : _) (a3 : _) (hs : P s) : P (State.lossRecord s a1 a2 a3) := by
  have k1 := @State.record_keeps P (h.mono rfl)
  have pInc := h.ctrInc rfl
  have pEv := h.ev rfl
  have pNotify := h.notify rfl
  unfold State.lossRecord
  repeat'
    first
    | with_reducible assumption
    | rfl
    | (with_reducible apply k1)
    | (with_reducible apply pInc)
    | (with_reducible apply pEv)
    | (with_reducible apply pNotify)
    | (with_reducible apply ite_keeps (P := P))
    | (with_reducible apply foldl_keeps (P := P))
    | (refine fun (t : State) (ht : P t) => ?_)
    | (refine fun (_ : _) (t : State) (ht : P t) => ?_)
    | (with_reducible intro t; first | (refine (fun (ht : P t) => ?_) (?_ : P t); rotate_left; subst t; rotate_right; clear_value t) | skip | skip)
    | lift_lets -underBinder
    | split

theorem State.leaveStep_keeps {P : State → Prop} (h : Stable [.ss, .tm, .sv, .ev] P) (s : State) (a1 : _) (hs : P s) : P (State.leaveStep s a1) := by
  have k1 := @State.leaveRow_keeps P (h.mono rfl)
  have k2 := @State.releaseStage_keeps P (h.mono rfl)
  have pUsv := h.sv rfl
  unfold State.leaveStep
  repeat'
    first
    | with_reducible assumption
    | rfl
    | (with_reducible apply k1)
    | (with_reducible apply k2)
    | (with_reducible refine pUsv _ _ (by with_reducible assumption))
    | (with_reducible apply ite_keeps (P := P))
    | (with_reducible apply foldl_keeps (P := P))
    | (refine fun (t : State) (ht : P t) => ?_)
    | (refine fun (_ : _) (t : State) (ht : P t) => ?_)
    | (with_reducible intro t; first | (refine (fun (ht : P t) => ?_) (?_ : P t); rotate_left; subst t; rotate_right; clear_value t) | skip | skip)
    | lift_lets -underBinder
    | split
    | (with_reducible apply pUsv)

theorem State.leaveSteps_keeps {P : State → Prop} (h : Stable [.ss, .tm, .sv, .ev] P) (s : State) (a1 : _) (hs : P s) : P (State.leaveSteps s a1) := by
  have k1 := @State.leaveStep_keeps P (h.mono rfl)
  unfold State.leaveSteps
  repeat'
    first
    | with_reducible assumption
    | rfl
    | (with_reducible apply k1)
    | (with_reducible apply ite_keeps (P := P))
    | (with_reducible apply each_keeps (P := P))
    | (with_reducible apply foldl_keeps (P := P))
    | (refine fun (t : State) (ht : P t) => ?_)
    | (refine fun (_ : _) (t : State) (ht : P t) => ?_)
    | (with_reducible intro t; first | (refine (fun (ht : P t) => ?_) (?_ : P t); rotate_left; subst t; rotate_right; clear_value t) | skip | skip)
    | lift_lets -underBinder
    | split

theorem State.leaveMoves_keeps {P : State → Prop} (h : Stable [.out, .ctr, .nv, .notify, .sc, .ss, .tm, .fb, .sl, .journal, .ev] P) (s : State) (a1 : _) (hs : P s) : P (State.leaveMoves s a1) := by
  have k1 := @State.lostMove_keeps P (h.mono rfl)
  have k2 := @State.poison_keeps P (h.mono rfl)
  have k3 := @State.remove_keeps P (h.mono rfl)
  have k4 := @State.failMove_keeps P (h.mono rfl)
  unfold State.leaveMoves
  repeat'
    first
    | with_reducible assumption
    | rfl
    | (with_reducible apply k1)
    | (with_reducible apply k2)
    | (with_reducible apply k3)
    | (with_reducible apply k4)
    | (with_reducible apply ite_keeps (P := P))
    | (with_reducible apply each_keeps (P := P))
    | (with_reducible apply foldl_keeps (P := P))
    | (refine fun (t : State) (ht : P t) => ?_)
    | (refine fun (_ : _) (t : State) (ht : P t) => ?_)
    | (with_reducible intro t; first | (refine (fun (ht : P t) => ?_) (?_ : P t); rotate_left; subst t; rotate_right; clear_value t) | skip | skip)
    | lift_lets -underBinder
    | split

theorem selectsLeave_keeps {P : State → Prop} (h : Stable [.out, .ctr, .notify, .ss, .tm, .fb, .se, .sl, .ev] P) (s : State) (hs : P s) : P (selectsLeave s) := by
  have k1 := @State.endSelect_keeps P (h.mono rfl)
  unfold selectsLeave
  repeat'
    first
    | with_reducible assumption
    | rfl
    | (with_reducible apply k1)
    | (with_reducible apply ite_keeps (P := P))
    | (with_reducible apply each_keeps (P := P))
    | (with_reducible apply foldl_keeps (P := P))
    | (refine fun (t : State) (ht : P t) => ?_)
    | (refine fun (_ : _) (t : State) (ht : P t) => ?_)
    | (with_reducible intro t; first | (refine (fun (ht : P t) => ?_) (?_ : P t); rotate_left; subst t; rotate_right; clear_value t) | skip | skip)
    | lift_lets -underBinder
    | split

theorem State.dropSlots_keeps {P : State → Prop} (h : Stable [.ss] P) (s : State) (a1 : _) (hs : P s) : P (State.dropSlots s a1) := by
  have pUss := h.ss rfl
  unfold State.dropSlots
  repeat'
    first
    | with_reducible assumption
    | rfl
    | (with_reducible refine pUss _ _ (by with_reducible assumption))
    | (with_reducible apply ite_keeps (P := P))
    | (with_reducible apply foldl_keeps (P := P))
    | (refine fun (t : State) (ht : P t) => ?_)
    | (refine fun (_ : _) (t : State) (ht : P t) => ?_)
    | (with_reducible intro t; first | (refine (fun (ht : P t) => ?_) (?_ : P t); rotate_left; subst t; rotate_right; clear_value t) | skip | skip)
    | lift_lets -underBinder
    | split
    | (with_reducible apply pUss)

theorem State.dropFrames_keeps {P : State → Prop} (h : Stable [.wfn, .tm, .fb, .slAny] P) (s : State) (a1 : _) (hs : P s) : P (State.dropFrames s a1) := by
  have k1 := h.wfn rfl
  have k2 := h.TmFbSl rfl rfl rfl
  unfold State.dropFrames
  refine each_keeps (P := P) (fun a t ht => k1 _ _ _ ht) (k2 s _ _ _ ?_ hs)
  intro e he
  obtain ⟨e', he', rfl⟩ := List.mem_map.mp he
  split
  · exact .inl rfl
  · exact .inr ⟨e', he', rfl⟩

theorem State.dropCopies_keeps {P : State → Prop} (h : Stable [.tx] P) (s : State) (a1 : _) (hs : P s) : P (State.dropCopies s a1) := by
  have pUtx := h.tx rfl
  unfold State.dropCopies
  repeat'
    first
    | with_reducible assumption
    | rfl
    | (with_reducible refine pUtx _ _ (by with_reducible assumption))
    | (with_reducible apply ite_keeps (P := P))
    | (with_reducible apply foldl_keeps (P := P))
    | (refine fun (t : State) (ht : P t) => ?_)
    | (refine fun (_ : _) (t : State) (ht : P t) => ?_)
    | (with_reducible intro t; first | (refine (fun (ht : P t) => ?_) (?_ : P t); rotate_left; subst t; rotate_right; clear_value t) | skip | skip)
    | lift_lets -underBinder
    | split
    | (with_reducible apply pUtx)

theorem State.dropMigrations_keeps {P : State → Prop} (h : Stable [.dx] P) (s : State) (a1 : _) (hs : P s) : P (State.dropMigrations s a1) := by
  have pUdx := h.dx rfl
  unfold State.dropMigrations
  repeat'
    first
    | with_reducible assumption
    | rfl
    | (with_reducible refine pUdx _ _ (by with_reducible assumption))
    | (with_reducible apply ite_keeps (P := P))
    | (with_reducible apply foldl_keeps (P := P))
    | (refine fun (t : State) (ht : P t) => ?_)
    | (refine fun (_ : _) (t : State) (ht : P t) => ?_)
    | (with_reducible intro t; first | (refine (fun (ht : P t) => ?_) (?_ : P t); rotate_left; subst t; rotate_right; clear_value t) | skip | skip)
    | lift_lets -underBinder
    | split
    | (with_reducible apply pUdx)

theorem channelLeave_keeps {P : State → Prop} (h : Stable [.out, .ctr, .nv, .wfn, .pw, .pwAny, .pk, .notify, .sc, .ss, .tm, .fb, .sv, .tx, .se, .sl, .slAny, .dx, .fa, .journal, .ev] P) (a0 : _) (a1 : _) (s : State) (hs : P s) : P (channelLeave a0 a1 s) := by
  have k1 := @State.dropSlots_keeps P (h.mono rfl)
  have k2 := @State.dropMigrations_keeps P (h.mono rfl)
  have k3 := @State.leaveMoves_keeps P (h.mono rfl)
  have k4 := @State.leaveSteps_keeps P (h.mono rfl)
  have k5 := @collsLeave_keeps P (h.mono rfl)
  have k6 := @modelsLeave_keeps P (h.mono rfl)
  have k7 := @State.dropFrames_keeps P (h.mono rfl)
  have k8 := @selectsLeave_keeps P (h.mono rfl)
  have k9 := @State.dropCopies_keeps P (h.mono rfl)
  have k10 := @State.lossRecord_keeps P (h.mono rfl)
  have k11 := @settle_keeps P (h.mono rfl)
  unfold channelLeave
  extract_lets lost s1 x s2 s3 s4 y s5 s6
  have h1 : P s1 := k1 _ _ (k2 _ _ (k3 _ _ (k4 s _ hs)))
  clear_value s1
  have h2 : P s2 := h.tm rfl s1 _ h1
  clear_value s2
  have h3 : P s3 := k5 _ _ (k6 _ _ (k7 s2 _ h2))
  clear_value s3
  have h4 : P s4 := k8 _ (k9 s3 _ h3)
  clear_value s4
  have h5 : P s5 := h.fa rfl s4 _ rfl h4
  clear_value s5
  have h6 : P s6 := each_keeps (P := P) (fun e t ht => k10 t _ _ _ ht) h5
  clear_value s6
  exact k11 s6 h6

theorem State.sweep_keeps {P : State → Prop} (h : Stable [.tm] P) (s : State) (hs : P s) : P (State.sweep s) := by
  have pUtm := h.tm rfl
  unfold State.sweep
  repeat'
    first
    | with_reducible assumption
    | rfl
    | (with_reducible refine pUtm _ _ (by with_reducible assumption))
    | (with_reducible apply ite_keeps (P := P))
    | (with_reducible apply foldl_keeps (P := P))
    | (refine fun (t : State) (ht : P t) => ?_)
    | (refine fun (_ : _) (t : State) (ht : P t) => ?_)
    | (with_reducible intro t; first | (refine (fun (ht : P t) => ?_) (?_ : P t); rotate_left; subst t; rotate_right; clear_value t) | skip | skip)
    | lift_lets -underBinder
    | split
    | (with_reducible apply pUtm)

end Sys2Proof.Machine
end

