-- ==== Sys2Proof/Laws/KeepsFunctions.lean ====
section
/-! SUPPORT. What the operations of Machine/Functions.lean can do to the state (`Laws/Keeps.lean`): one lemma per operation. -/

set_option linter.all false

namespace Sys2Proof.Machine

open Sys2Proof

theorem portNote_keeps {P : State → Prop} (h : Stable [.notify] P) (a0 : _) (a1 : _) (a2 : _) (s : State) (hs : P s) : P (portNote a0 a1 a2 s) := by
  have pNotify := h.notify rfl
  unfold portNote
  repeat'
    first
    | with_reducible assumption
    | rfl
    | (with_reducible apply pNotify)
    | (with_reducible apply ite_keeps (P := P))
    | (with_reducible apply foldl_keeps (P := P))
    | (refine fun (t : State) (ht : P t) => ?_)
    | (refine fun (_ : _) (t : State) (ht : P t) => ?_)
    | (with_reducible intro t; first | (refine (fun (ht : P t) => ?_) (?_ : P t); rotate_left; subst t; rotate_right; clear_value t) | skip | skip)
    | lift_lets -underBinder
    | split

theorem onStarting_keeps {P : State → Prop} (h : Stable [.ctr, .nvAny, .fn, .notify, .scAny, .dx, .mnAny, .ev] P) (a0 : _) (a1 : _) (s : State) (hs : P s) : P (onStarting a0 a1 s) := by
  have k1 := @linkStarting_keeps P (h.mono rfl)
  have k2 := @portNote_keeps P (h.mono rfl)
  have pStore := h.store rfl
  have pEv := h.ev rfl
  have pFn := h.fn rfl
  have pUnvAny := h.nvAny rfl
  have pUmnAny := h.mnAny rfl
  have pUscAny := h.scAny rfl
  unfold onStarting
  repeat'
    first
    | ((with_reducible apply NvSide.mk); first | exact ⟨Nat.le_refl _, id⟩ | exact ⟨Nat.le_max_left _ _, id⟩ | exact ⟨Nat.le_refl _, fun _ => rfl⟩ | (split <;> exact ⟨Nat.le_refl _, id⟩))
    | ((with_reducible apply MnSide.mk); first | exact id | exact fun _ => Nat.zero_le _)
    | with_reducible assumption
    | rfl
    | (with_reducible apply k1)
    | (with_reducible apply k2)
    | (with_reducible apply pStore)
    | (with_reducible apply pEv)
    | (with_reducible apply pFn)
    | (with_reducible refine pUscAny _ _ (by with_reducible assumption))
    | (with_reducible apply ite_keeps (P := P))
    | (with_reducible apply each_keeps (P := P))
    | (with_reducible apply when_keeps (P := P))
    | (with_reducible apply foldl_keeps (P := P))
    | (refine fun (t : State) (ht : P t) => ?_)
    | (refine fun (_ : _) (t : State) (ht : P t) => ?_)
    | (with_reducible intro t; first | (refine (fun (ht : P t) => ?_) (?_ : P t); rotate_left; subst t; rotate_right; clear_value t) | skip | skip)
    | lift_lets -underBinder
    | split
    | (with_reducible apply pUnvAny)
    | (with_reducible apply pUmnAny)
    | (with_reducible apply pUscAny)

theorem auxLeaves_keeps {P : State → Prop} (h : Stable [.out, .ctr, .nv, .pw, .pwAny, .pk, .notify, .sc, .ss, .tm, .fb, .sv, .se, .sl, .dx, .journal, .ev] P) (a0 : _) (s : State) (hs : P s) : P (auxLeaves a0 s) := by
  have k1 := @settle_keeps P (h.mono rfl)
  have k2 := @collsHomeless_keeps P (h.mono rfl)
  have k3 := @selectsLeave_keeps P (h.mono rfl)
  have k4 := @State.leaveRow_keeps P (h.mono rfl)
  unfold auxLeaves
  repeat'
    first
    | with_reducible assumption
    | rfl
    | (with_reducible apply k1)
    | (with_reducible apply k2)
    | (with_reducible apply k3)
    | (with_reducible apply k4)
    | (with_reducible apply ite_keeps (P := P))
    | (with_reducible apply each_keeps (P := P))
    | (with_reducible apply foldl_keeps (P := P))
    | (refine fun (t : State) (ht : P t) => ?_)
    | (refine fun (_ : _) (t : State) (ht : P t) => ?_)
    | (with_reducible intro t; first | (refine (fun (ht : P t) => ?_) (?_ : P t); rotate_left; subst t; rotate_right; clear_value t) | skip | skip)
    | lift_lets -underBinder
    | split

theorem onStopping_keeps {P : State → Prop} (h : Stable [.out, .ctr, .nv, .wfn, .pw, .pwAny, .pk, .notify, .sc, .scAny, .ss, .tm, .fb, .sv, .tx, .se, .sl, .slAny, .et, .dx, .fa, .journal, .ev] P) (a0 : _) (a1 : _) (s : State) (hs : P s) : P (onStopping a0 a1 s) := by
  have k1 := @auxLeaves_keeps P (h.mono rfl)
  have k2 := @channelLeave_keeps P (h.mono rfl)
  have k3 := @linkStopping_keeps P (h.mono rfl)
  have k4 := @portNote_keeps P (h.mono rfl)
  have k5 := @portOff_keeps P (h.mono rfl)
  have pEv := h.ev rfl
  have pUscAny := h.scAny rfl
  unfold onStopping
  repeat'
    first
    | with_reducible assumption
    | rfl
    | (with_reducible apply k1)
    | (with_reducible apply k2)
    | (with_reducible apply k3)
    | (with_reducible apply k4)
    | (with_reducible apply k5)
    | (with_reducible apply pEv)
    | (with_reducible refine pUscAny _ _ (by with_reducible assumption))
    | (with_reducible apply ite_keeps (P := P))
    | (with_reducible apply when_keeps (P := P))
    | (with_reducible apply foldl_keeps (P := P))
    | (refine fun (t : State) (ht : P t) => ?_)
    | (refine fun (_ : _) (t : State) (ht : P t) => ?_)
    | (with_reducible intro t; first | (refine (fun (ht : P t) => ?_) (?_ : P t); rotate_left; subst t; rotate_right; clear_value t) | skip | skip)
    | lift_lets -underBinder
    | split
    | (with_reducible apply pUscAny)

theorem beginStart_keeps {P : State → Prop} (h : Stable [.ctr, .nvAny, .fn, .notify, .scAny, .dx, .mnAny, .ev] P) (a0 : _) (s : State) (hs : P s) : P (beginStart a0 s) := by
  have k1 := @onStarting_keeps P (h.mono rfl)
  have pFn := h.fn rfl
  unfold beginStart
  repeat'
    first
    | with_reducible assumption
    | rfl
    | (with_reducible apply k1)
    | (with_reducible apply pFn)
    | (with_reducible apply ite_keeps (P := P))
    | (with_reducible apply foldl_keeps (P := P))
    | (refine fun (t : State) (ht : P t) => ?_)
    | (refine fun (_ : _) (t : State) (ht : P t) => ?_)
    | (with_reducible intro t; first | (refine (fun (ht : P t) => ?_) (?_ : P t); rotate_left; subst t; rotate_right; clear_value t) | skip | skip)
    | lift_lets -underBinder
    | split

theorem beginStop_keeps {P : State → Prop} (h : Stable [.out, .ctr, .nv, .fn, .wfn, .pw, .pwAny, .pk, .notify, .sc, .scAny, .ss, .tm, .fb, .sv, .tx, .se, .sl, .slAny, .et, .dx, .fa, .journal, .ev] P) (a0 : _) (s : State) (hs : P s) : P (beginStop a0 s) := by
  have k1 := @onStopping_keeps P (h.mono rfl)
  have pFn := h.fn rfl
  unfold beginStop
  repeat'
    first
    | with_reducible assumption
    | rfl
    | (with_reducible apply k1)
    | (with_reducible apply pFn)
    | (with_reducible apply ite_keeps (P := P))
    | (with_reducible apply foldl_keeps (P := P))
    | (refine fun (t : State) (ht : P t) => ?_)
    | (refine fun (_ : _) (t : State) (ht : P t) => ?_)
    | (with_reducible intro t; first | (refine (fun (ht : P t) => ?_) (?_ : P t); rotate_left; subst t; rotate_right; clear_value t) | skip | skip)
    | lift_lets -underBinder
    | split

theorem latch_keeps {P : State → Prop} (h : Stable [.fn, .ev] P) (a0 : _) (a1 : _) (s : State) (hs : P s) : P (latch a0 a1 s) := by
  have pEv := h.ev rfl
  have pFn := h.fn rfl
  unfold latch
  repeat'
    first
    | with_reducible assumption
    | rfl
    | (with_reducible apply pEv)
    | (with_reducible apply pFn)
    | (with_reducible apply ite_keeps (P := P))
    | (with_reducible apply when_keeps (P := P))
    | (with_reducible apply foldl_keeps (P := P))
    | (refine fun (t : State) (ht : P t) => ?_)
    | (refine fun (_ : _) (t : State) (ht : P t) => ?_)
    | (with_reducible intro t; first | (refine (fun (ht : P t) => ?_) (?_ : P t); rotate_left; subst t; rotate_right; clear_value t) | skip | skip)
    | lift_lets -underBinder
    | split

theorem dropMonitor_keeps {P : State → Prop} (h : Stable [.fn, .mn, .mnAny] P) (a0 : _) (s : State) (hs : P s) : P (dropMonitor a0 s) := by
  have k1 := @State.setMon_keeps P (h.mono rfl)
  have pFn := h.fn rfl
  have pUmnAny := h.mnAny rfl
  unfold dropMonitor
  repeat'
    first
    | ((with_reducible apply MnSide.mk); first | exact id | exact fun _ => Nat.zero_le _)
    | with_reducible assumption
    | rfl
    | (with_reducible apply k1)
    | (with_reducible apply pFn)
    | (with_reducible apply ite_keeps (P := P))
    | (with_reducible apply foldl_keeps (P := P))
    | (refine fun (t : State) (ht : P t) => ?_)
    | (refine fun (_ : _) (t : State) (ht : P t) => ?_)
    | (with_reducible intro t; first | (refine (fun (ht : P t) => ?_) (?_ : P t); rotate_left; subst t; rotate_right; clear_value t) | skip | skip)
    | lift_lets -underBinder
    | split
    | (with_reducible apply pUmnAny)

theorem reqOff_keeps {P : State → Prop} (h : Stable [.out, .ctr, .nv, .fn, .wfn, .pw, .pwAny, .pk, .notify, .sc, .scAny, .ss, .tm, .fb, .sv, .tx, .se, .sl, .slAny, .et, .dx, .fa, .journal, .mn, .mnAny, .ev] P) (a0 : _) (a1 : _) (a2 : _) (s : State) (hs : P s) : P (reqOff a0 a1 a2 s) := by
  have k1 := @dropMonitor_keeps P (h.mono rfl)
  have k2 := @latch_keeps P (h.mono rfl)
  have k3 := @beginStop_keeps P (h.mono rfl)
  have pFn := h.fn rfl
  induction a0 generalizing a1 a2 s with
  | zero =>
    unfold reqOff
    repeat'
      first
      | with_reducible assumption
      | rfl
      | (with_reducible apply k1)
      | (with_reducible apply k2)
      | (with_reducible apply k3)
      | (with_reducible apply pFn)
      | (with_reducible apply ite_keeps (P := P))
      | (with_reducible apply each_keeps (P := P))
      | (with_reducible apply foldl_keeps (P := P))
      | (refine fun (t : State) (ht : P t) => ?_)
      | (refine fun (_ : _) (t : State) (ht : P t) => ?_)
      | (with_reducible intro t; first | (refine (fun (ht : P t) => ?_) (?_ : P t); rotate_left; subst t; rotate_right; clear_value t) | skip | skip)
      | lift_lets -underBinder
      | split
  | succ n ih =>
    unfold reqOff
    repeat'
      first
      | with_reducible assumption
      | rfl
      | (with_reducible apply ih)
      | (with_reducible apply k1)
      | (with_reducible apply k2)
      | (with_reducible apply k3)
      | (with_reducible apply pFn)
      | (with_reducible apply ite_keeps (P := P))
      | (with_reducible apply each_keeps (P := P))
      | (with_reducible apply foldl_keeps (P := P))
      | (refine fun (t : State) (ht : P t) => ?_)
      | (refine fun (_ : _) (t : State) (ht : P t) => ?_)
      | (with_reducible intro t; first | (refine (fun (ht : P t) => ?_) (?_ : P t); rotate_left; subst t; rotate_right; clear_value t) | skip | skip)
      | lift_lets -underBinder
      | split

theorem engineOn_keeps {P : State → Prop} (h : Stable [.ctr, .nvAny, .fn, .notify, .scAny, .dx, .mnAny, .ev] P) (a0 : _) (s : State) (hs : P s) : P (engineOn a0 s) := by
  have k1 := @latch_keeps P (h.mono rfl)
  have k2 := @beginStart_keeps P (h.mono rfl)
  have pFn := h.fn rfl
  unfold engineOn
  repeat'
    first
    | with_reducible assumption
    | rfl
    | (with_reducible apply k1)
    | (with_reducible apply k2)
    | (with_reducible apply pFn)
    | (with_reducible apply ite_keeps (P := P))
    | (with_reducible apply foldl_keeps (P := P))
    | (refine fun (t : State) (ht : P t) => ?_)
    | (refine fun (_ : _) (t : State) (ht : P t) => ?_)
    | (with_reducible intro t; first | (refine (fun (ht : P t) => ?_) (?_ : P t); rotate_left; subst t; rotate_right; clear_value t) | skip | skip)
    | lift_lets -underBinder
    | split

theorem reqOn_keeps {P : State → Prop} (h : Stable [.ctr, .nvAny, .fn, .notify, .scAny, .dx, .mnAny, .ev] P) (a0 : _) (s : State) (hs : P s) : OkO P (reqOn a0 s) := by
  have k1 := @engineOn_keeps P (h.mono rfl)
  have k2 := @latch_keeps P (h.mono rfl)
  unfold reqOn
  repeat'
    first
    | with_reducible assumption
    | rfl
    | (with_reducible apply k1)
    | (with_reducible apply k2)
    | (with_reducible apply OkOpt.some)
    | (with_reducible apply OkOpt.none)
    | (with_reducible apply iteOpt_keeps)
    | (with_reducible apply OkOpt.map)
    | (with_reducible apply OkOpt.bind)
    | (with_reducible apply OkOpt.find)
    | (with_reducible apply OkOpt.fold)
    | (with_reducible apply OkOpt.getD (P := P))
    | (with_reducible apply ite_keeps (P := P))
    | (with_reducible apply foldl_keeps (P := P))
    | (refine OkO.get (P := P) (by with_reducible assumption) ?_)
    | (refine OkOP.get (P := P) (by with_reducible assumption) ?_)
    | (refine OkOPP.get (P := P) (by with_reducible assumption) ?_)
    | (refine fun (t : State) (ht : P t) => ?_)
    | (refine fun (_ : _) (t : State) (ht : P t) => ?_)
    | (with_reducible intro t; first | (refine (fun (ht : P t) => ?_) (?_ : P t); rotate_left; subst t; rotate_right; clear_value t) | skip | skip)
    | lift_lets -underBinder
    | split
    | exact OkOpt.any

theorem request_keeps {P : State → Prop} (h : Stable [.out, .ctr, .nv, .nvAny, .fn, .wfn, .pw, .pwAny, .pk, .notify, .sc, .scAny, .ss, .tm, .fb, .sv, .tx, .se, .sl, .slAny, .et, .dx, .fa, .journal, .mn, .mnAny, .ev] P) (a0 : _) (a1 : _) (s : State) (hs : P s) : OkO P (request a0 a1 s) := by
  have k1 := @reqOn_keeps P (h.mono rfl)
  have k2 := @reqOff_keeps P (h.mono rfl)
  unfold request
  repeat'
    first
    | with_reducible assumption
    | rfl
    | (with_reducible apply k1)
    | (with_reducible apply k2)
    | (with_reducible apply OkOpt.some)
    | (with_reducible apply OkOpt.none)
    | (with_reducible apply iteOpt_keeps)
    | (with_reducible apply OkOpt.map)
    | (with_reducible apply OkOpt.bind)
    | (with_reducible apply OkOpt.find)
    | (with_reducible apply OkOpt.fold)
    | (with_reducible apply OkOpt.getD (P := P))
    | (with_reducible apply ite_keeps (P := P))
    | (with_reducible apply foldl_keeps (P := P))
    | (refine OkO.get (P := P) (by with_reducible assumption) ?_)
    | (refine OkOP.get (P := P) (by with_reducible assumption) ?_)
    | (refine OkOPP.get (P := P) (by with_reducible assumption) ?_)
    | (refine fun (t : State) (ht : P t) => ?_)
    | (refine fun (_ : _) (t : State) (ht : P t) => ?_)
    | (with_reducible intro t; first | (refine (fun (ht : P t) => ?_) (?_ : P t); rotate_left; subst t; rotate_right; clear_value t) | skip | skip)
    | lift_lets -underBinder
    | split
    | exact OkOpt.any

theorem tryOn_keeps {P : State → Prop} (h : Stable [.ctr, .nvAny, .fn, .notify, .scAny, .dx, .mnAny, .ev] P) (a0 : _) (s : State) (hs : P s) : P (tryOn a0 s) := by
  have k1 := @reqOn_keeps P (h.mono rfl)
  unfold tryOn
  repeat'
    first
    | with_reducible assumption
    | rfl
    | (with_reducible apply k1)
    | (with_reducible apply OkOpt.some)
    | (with_reducible apply OkOpt.none)
    | (with_reducible apply iteOpt_keeps)
    | (with_reducible apply OkOpt.map)
    | (with_reducible apply OkOpt.bind)
    | (with_reducible apply OkOpt.find)
    | (with_reducible apply OkOpt.fold)
    | (with_reducible apply OkOpt.getD (P := P))
    | (with_reducible apply ite_keeps (P := P))
    | (with_reducible apply foldl_keeps (P := P))
    | (refine OkO.get (P := P) (by with_reducible assumption) ?_)
    | (refine OkOP.get (P := P) (by with_reducible assumption) ?_)
    | (refine OkOPP.get (P := P) (by with_reducible assumption) ?_)
    | (refine fun (t : State) (ht : P t) => ?_)
    | (refine fun (_ : _) (t : State) (ht : P t) => ?_)
    | (with_reducible intro t; first | (refine (fun (ht : P t) => ?_) (?_ : P t); rotate_left; subst t; rotate_right; clear_value t) | skip | skip)
    | lift_lets -underBinder
    | split
    | exact OkOpt.any

theorem serveIfUp_keeps {P : State → Prop} (h : Stable [.pwAny, .notify] P) (s : State) (hs : P s) : P (serveIfUp s) := by
  have k1 := @State.setPkg_keeps P (h.mono rfl)
  have pUpwAny := h.pwAny rfl
  unfold serveIfUp
  repeat'
    first
    | ((with_reducible apply PwSide.mk); first | exact id | (dsimp only at *; omega))
    | with_reducible assumption
    | rfl
    | (with_reducible apply k1)
    | (with_reducible apply ite_keeps (P := P))
    | (with_reducible apply when_keeps (P := P))
    | (with_reducible apply foldl_keeps (P := P))
    | (refine fun (t : State) (ht : P t) => ?_)
    | (refine fun (_ : _) (t : State) (ht : P t) => ?_)
    | (with_reducible intro t; first | (refine (fun (ht : P t) => ?_) (?_ : P t); rotate_left; subst t; rotate_right; clear_value t) | skip | skip)
    | lift_lets -underBinder
    | split
    | (with_reducible apply pUpwAny)

theorem onOn_keeps {P : State → Prop} (h : Stable [.out, .ctr, .nvAny, .fn, .pwAny, .notify, .scAny, .sl, .dx, .mnAny, .ev] P) (a0 : _) (s : State) (hs : P s) : P (onOn a0 s) := by
  have k1 := @serveIfUp_keeps P (h.mono rfl)
  have k2 := @tryOn_keeps P (h.mono rfl)
  have k3 := @portNote_keeps P (h.mono rfl)
  have k4 := @portOn_keeps P (h.mono rfl)
  have k5 := @State.passHeld_keeps P (h.mono rfl)
  have k6 := @State.routeWaiting_keeps P (h.mono rfl)
  have k7 := @linkNote_keeps P (h.mono rfl)
  have pEv := h.ev rfl
  unfold onOn
  repeat'
    first
    | with_reducible assumption
    | rfl
    | (with_reducible apply k1)
    | (with_reducible apply k2)
    | (with_reducible apply k3)
    | (with_reducible apply k4)
    | (with_reducible apply k5)
    | (with_reducible apply k6)
    | (with_reducible apply k7)
    | (with_reducible apply pEv)
    | (with_reducible apply ite_keeps (P := P))
    | (with_reducible apply each_keeps (P := P))
    | (with_reducible apply when_keeps (P := P))
    | (with_reducible apply foldl_keeps (P := P))
    | (refine fun (t : State) (ht : P t) => ?_)
    | (refine fun (_ : _) (t : State) (ht : P t) => ?_)
    | (with_reducible intro t; first | (refine (fun (ht : P t) => ?_) (?_ : P t); rotate_left; subst t; rotate_right; clear_value t) | skip | skip)
    | lift_lets -underBinder
    | split

theorem clearedOff_keeps {P : State → Prop} (h : Stable [.fb] P) (a0 : _) (s : State) (hs : P s) : P (clearedOff a0 s) := by
  have k1 := @tileGroupOff_keeps P (h.mono rfl)
  unfold clearedOff
  repeat'
    first
    | with_reducible assumption
    | rfl
    | (with_reducible apply k1)
    | (with_reducible apply ite_keeps (P := P))
    | (with_reducible apply foldl_keeps (P := P))
    | (refine fun (t : State) (ht : P t) => ?_)
    | (refine fun (_ : _) (t : State) (ht : P t) => ?_)
    | (with_reducible intro t; first | (refine (fun (ht : P t) => ?_) (?_ : P t); rotate_left; subst t; rotate_right; clear_value t) | skip | skip)
    | lift_lets -underBinder
    | split

theorem onOff_keeps {P : State → Prop} (h : Stable [.notify, .fb, .dx] P) (a0 : _) (a1 : _) (s : State) (hs : P s) : P (onOff a0 a1 s) := by
  have k1 := @linkOff_keeps P (h.mono rfl)
  have k2 := @portNote_keeps P (h.mono rfl)
  have k3 := @clearedOff_keeps P (h.mono rfl)
  unfold onOff
  repeat'
    first
    | with_reducible assumption
    | rfl
    | (with_reducible apply k1)
    | (with_reducible apply k2)
    | (with_reducible apply k3)
    | (with_reducible apply ite_keeps (P := P))
    | (with_reducible apply foldl_keeps (P := P))
    | (refine fun (t : State) (ht : P t) => ?_)
    | (refine fun (_ : _) (t : State) (ht : P t) => ?_)
    | (with_reducible intro t; first | (refine (fun (ht : P t) => ?_) (?_ : P t); rotate_left; subst t; rotate_right; clear_value t) | skip | skip)
    | lift_lets -underBinder
    | split

theorem parentCheck_keeps {P : State → Prop} (h : Stable [.out, .ctr, .nv, .fn, .wfn, .pw, .pwAny, .pk, .notify, .sc, .scAny, .ss, .tm, .fb, .sv, .tx, .se, .sl, .slAny, .et, .dx, .fa, .journal, .ev] P) (a0 : _) (s : State) (hs : P s) : P (parentCheck a0 s) := by
  have k1 := @beginStop_keeps P (h.mono rfl)
  unfold parentCheck
  repeat'
    first
    | with_reducible assumption
    | rfl
    | (with_reducible apply k1)
    | (with_reducible apply ite_keeps (P := P))
    | (with_reducible apply foldl_keeps (P := P))
    | (refine fun (t : State) (ht : P t) => ?_)
    | (refine fun (_ : _) (t : State) (ht : P t) => ?_)
    | (with_reducible intro t; first | (refine (fun (ht : P t) => ?_) (?_ : P t); rotate_left; subst t; rotate_right; clear_value t) | skip | skip)
    | lift_lets -underBinder
    | split

theorem reachedOff_keeps {P : State → Prop} (h : Stable [.out, .ctr, .nv, .fn, .wfn, .pw, .pwAny, .pk, .notify, .sc, .scAny, .ss, .tm, .fb, .sv, .tx, .se, .sl, .slAny, .et, .dx, .fa, .journal, .ev] P) (a0 : _) (a1 : _) (s : State) (hs : P s) : P (reachedOff a0 a1 s) := by
  have k1 := @parentCheck_keeps P (h.mono rfl)
  have k2 := @onOff_keeps P (h.mono rfl)
  unfold reachedOff
  repeat'
    first
    | with_reducible assumption
    | rfl
    | (with_reducible apply k1)
    | (with_reducible apply k2)
    | (with_reducible apply ite_keeps (P := P))
    | (with_reducible apply foldl_keeps (P := P))
    | (refine fun (t : State) (ht : P t) => ?_)
    | (refine fun (_ : _) (t : State) (ht : P t) => ?_)
    | (with_reducible intro t; first | (refine (fun (ht : P t) => ?_) (?_ : P t); rotate_left; subst t; rotate_right; clear_value t) | skip | skip)
    | lift_lets -underBinder
    | split

theorem fnStarted_keeps {P : State → Prop} (h : Stable [.out, .ctr, .nv, .nvAny, .fn, .wfn, .pw, .pwAny, .pk, .notify, .sc, .scAny, .ss, .tm, .fb, .sv, .tx, .se, .sl, .slAny, .et, .dx, .fa, .journal, .mnAny, .ev] P) (a0 : _) (s : State) (hs : P s) : P (fnStarted a0 s) := by
  have k1 := @beginStop_keeps P (h.mono rfl)
  have k2 := @onOn_keeps P (h.mono rfl)
  have k3 := @beginStart_keeps P (h.mono rfl)
  have pFn := h.fn rfl
  unfold fnStarted
  repeat'
    first
    | with_reducible assumption
    | rfl
    | (with_reducible apply k1)
    | (with_reducible apply k2)
    | (with_reducible apply k3)
    | (with_reducible apply pFn)
    | (with_reducible apply ite_keeps (P := P))
    | (with_reducible apply each_keeps (P := P))
    | (with_reducible apply when_keeps (P := P))
    | (with_reducible apply foldl_keeps (P := P))
    | (refine fun (t : State) (ht : P t) => ?_)
    | (refine fun (_ : _) (t : State) (ht : P t) => ?_)
    | (with_reducible intro t; first | (refine (fun (ht : P t) => ?_) (?_ : P t); rotate_left; subst t; rotate_right; clear_value t) | skip | skip)
    | lift_lets -underBinder
    | split

theorem fnFailed_keeps {P : State → Prop} (h : Stable [.out, .ctr, .nv, .fn, .wfn, .pw, .pwAny, .pk, .notify, .sc, .scAny, .ss, .tm, .fb, .sv, .tx, .se, .sl, .slAny, .et, .dx, .fa, .journal, .ev] P) (a0 : _) (s : State) (hs : P s) : P (fnFailed a0 s) := by
  have k1 := @linkOff_keeps P (h.mono rfl)
  have k2 := @reachedOff_keeps P (h.mono rfl)
  have pEv := h.ev rfl
  have pJournal := h.journal rfl
  have pFn := h.fn rfl
  unfold fnFailed
  repeat'
    first
    | with_reducible assumption
    | rfl
    | (with_reducible apply k1)
    | (with_reducible apply k2)
    | (with_reducible apply pEv)
    | (with_reducible apply pJournal)
    | (with_reducible apply pFn)
    | (with_reducible apply ite_keeps (P := P))
    | (with_reducible apply each_keeps (P := P))
    | (with_reducible apply when_keeps (P := P))
    | (with_reducible apply foldl_keeps (P := P))
    | (refine fun (t : State) (ht : P t) => ?_)
    | (refine fun (_ : _) (t : State) (ht : P t) => ?_)
    | (with_reducible intro t; first | (refine (fun (ht : P t) => ?_) (?_ : P t); rotate_left; subst t; rotate_right; clear_value t) | skip | skip)
    | lift_lets -underBinder
    | split

theorem fnStopped_keeps {P : State → Prop} (h : Stable [.out, .ctr, .nv, .nvAny, .fn, .wfn, .pw, .pwAny, .pk, .notify, .sc, .scAny, .ss, .tm, .fb, .sv, .tx, .se, .sl, .slAny, .et, .dx, .fa, .journal, .mnAny, .ev] P) (a0 : _) (s : State) (hs : P s) : P (fnStopped a0 s) := by
  have k1 := @beginStart_keeps P (h.mono rfl)
  have k2 := @clearedOff_keeps P (h.mono rfl)
  have k3 := @reachedOff_keeps P (h.mono rfl)
  have pFn := h.fn rfl
  unfold fnStopped
  repeat'
    first
    | with_reducible assumption
    | rfl
    | (with_reducible apply k1)
    | (with_reducible apply k2)
    | (with_reducible apply k3)
    | (with_reducible apply pFn)
    | (with_reducible apply ite_keeps (P := P))
    | (with_reducible apply foldl_keeps (P := P))
    | (refine fun (t : State) (ht : P t) => ?_)
    | (refine fun (_ : _) (t : State) (ht : P t) => ?_)
    | (with_reducible intro t; first | (refine (fun (ht : P t) => ?_) (?_ : P t); rotate_left; subst t; rotate_right; clear_value t) | skip | skip)
    | lift_lets -underBinder
    | split

theorem selfTest_keeps {P : State → Prop} (h : Stable [.ctr, .notify, .fb, .ev] P) (a0 : _) (a1 : _) (s : State) (hs : P s) : P (selfTest a0 a1 s) := by
  have k1 := @groupReached_keeps P (h.mono rfl)
  unfold selfTest
  repeat'
    first
    | with_reducible assumption
    | rfl
    | (with_reducible apply k1)
    | (with_reducible apply ite_keeps (P := P))
    | (with_reducible apply foldl_keeps (P := P))
    | (refine fun (t : State) (ht : P t) => ?_)
    | (refine fun (_ : _) (t : State) (ht : P t) => ?_)
    | (with_reducible intro t; first | (refine (fun (ht : P t) => ?_) (?_ : P t); rotate_left; subst t; rotate_right; clear_value t) | skip | skip)
    | lift_lets -underBinder
    | split

theorem execFunctionStartComplete_keeps {P : State → Prop} (h : Stable [.out, .ctr, .nv, .nvAny, .fn, .wfn, .pw, .pwAny, .pk, .notify, .sc, .scAny, .ss, .tm, .fb, .sv, .tx, .se, .sl, .slAny, .et, .dx, .fa, .journal, .mnAny, .ev] P) (a0 : _) (a1 : _) (a2 : _) (s : State) (hs : P (s.at a0)) : OkX P (execFunctionStartComplete a0 a1 a2 s) := by
  have k1 := @settle_keeps P (h.mono rfl)
  have k2 := @selfTest_keeps P (h.mono rfl)
  have k3 := @fnStarted_keeps P (h.mono rfl)
  unfold execFunctionStartComplete
  repeat'
    first
    | with_reducible assumption
    | rfl
    | (refine run_keeps ?_ (by assumption))
    | (with_reducible apply k1)
    | (with_reducible apply k2)
    | (with_reducible apply k3)
    | (with_reducible apply ite_keeps (P := P))
    | (with_reducible apply when_keeps (P := P))
    | (with_reducible apply foldl_keeps (P := P))
    | (refine fun (t : State) (ht : P t) => ?_)
    | (refine fun (_ : _) (t : State) (ht : P t) => ?_)
    | (with_reducible intro t; first | (refine (fun (ht : P t) => ?_) (?_ : P t); rotate_left; subst t; rotate_right; clear_value t) | skip | skip)
    | lift_lets -underBinder
    | split

theorem execFunctionStartFail_keeps {P : State → Prop} (h : Stable [.out, .ctr, .nv, .fn, .wfn, .pw, .pwAny, .pk, .notify, .sc, .scAny, .ss, .tm, .fb, .sv, .tx, .se, .sl, .slAny, .et, .dx, .fa, .journal, .ev] P) (a0 : _) (a1 : _) (s : State) (hs : P (s.at a0)) : OkX P (execFunctionStartFail a0 a1 s) := by
  have k1 := @fnFailed_keeps P (h.mono rfl)
  have pNotify := h.notify rfl
  unfold execFunctionStartFail
  repeat'
    first
    | with_reducible assumption
    | rfl
    | (refine run_keeps ?_ (by assumption))
    | (with_reducible apply k1)
    | (with_reducible apply pNotify)
    | (with_reducible apply ite_keeps (P := P))
    | (with_reducible apply when_keeps (P := P))
    | (with_reducible apply foldl_keeps (P := P))
    | (refine fun (t : State) (ht : P t) => ?_)
    | (refine fun (_ : _) (t : State) (ht : P t) => ?_)
    | (with_reducible intro t; first | (refine (fun (ht : P t) => ?_) (?_ : P t); rotate_left; subst t; rotate_right; clear_value t) | skip | skip)
    | lift_lets -underBinder
    | split

theorem execFunctionStopComplete_keeps {P : State → Prop} (h : Stable [.out, .ctr, .nv, .nvAny, .fn, .wfn, .pw, .pwAny, .pk, .notify, .sc, .scAny, .ss, .tm, .fb, .sv, .tx, .se, .sl, .slAny, .et, .dx, .fa, .journal, .mnAny, .ev] P) (a0 : _) (a1 : _) (s : State) (hs : P (s.at a0)) : OkX P (execFunctionStopComplete a0 a1 s) := by
  have k1 := @fnStopped_keeps P (h.mono rfl)
  unfold execFunctionStopComplete
  repeat'
    first
    | with_reducible assumption
    | rfl
    | (refine run_keeps ?_ (by assumption))
    | (with_reducible apply k1)
    | (with_reducible apply ite_keeps (P := P))
    | (with_reducible apply when_keeps (P := P))
    | (with_reducible apply foldl_keeps (P := P))
    | (refine fun (t : State) (ht : P t) => ?_)
    | (refine fun (_ : _) (t : State) (ht : P t) => ?_)
    | (with_reducible intro t; first | (refine (fun (ht : P t) => ?_) (?_ : P t); rotate_left; subst t; rotate_right; clear_value t) | skip | skip)
    | lift_lets -underBinder
    | split

end Sys2Proof.Machine
end

