-- ==== Sys2Proof/Laws/KeepsFaults.lean ====
section
/-! SUPPORT. What the operations of Machine/Faults.lean can do to the state (`Laws/Keeps.lean`): one lemma per operation. -/

set_option linter.all false

namespace Sys2Proof.Machine

open Sys2Proof

theorem dropChild_keeps {P : State → Prop} (h : Stable [.fn, .notify, .fb, .mn, .mnAny, .ev] P) (a0 : _) (s : State) (hs : P s) : P (dropChild a0 s) := by
  have k1 := @dropMonitor_keeps P (h.mono rfl)
  have k2 := @clearedOff_keeps P (h.mono rfl)
  have pEv := h.ev rfl
  have pNotify := h.notify rfl
  have pFn := h.fn rfl
  unfold dropChild
  repeat'
    first
    | with_reducible assumption
    | rfl
    | (with_reducible apply k1)
    | (with_reducible apply k2)
    | (with_reducible apply pEv)
    | (with_reducible apply pNotify)
    | (with_reducible apply pFn)
    | (with_reducible apply ite_keeps (P := P))
    | (with_reducible apply when_keeps (P := P))
    | (with_reducible apply foldl_keeps (P := P))
    | (refine fun (t : State) (ht : P t) => ?_)
    | (refine fun (_ : _) (t : State) (ht : P t) => ?_)
    | (with_reducible intro t; first | (refine (fun (ht : P t) => ?_) (?_ : P t); rotate_left; subst t; rotate_right; clear_value t) | skip | skip)
    | lift_lets -underBinder
    | split

theorem channelFault_keeps {P : State → Prop} (h : Stable [.out, .ctr, .nv, .fn, .wfn, .pw, .pwAny, .pk, .notify, .sc, .scAny, .ss, .tm, .fb, .sv, .tx, .se, .sl, .slAny, .et, .dx, .fa, .journal, .mn, .mnAny, .ev] P) (a0 : _) (a1 : _) (s : State) (hs : P s) : P (channelFault a0 a1 s) := by
  have k1 := @dropChild_keeps P (h.mono rfl)
  have k2 := @parentCheck_keeps P (h.mono rfl)
  have k3 := @channelLeave_keeps P (h.mono rfl)
  have pNotify := h.notify rfl
  have pJournal := h.journal rfl
  have pFn := h.fn rfl
  unfold channelFault
  repeat'
    first
    | with_reducible assumption
    | rfl
    | (with_reducible apply k1)
    | (with_reducible apply k2)
    | (with_reducible apply k3)
    | (with_reducible apply pNotify)
    | (with_reducible apply pJournal)
    | (with_reducible apply pFn)
    | (with_reducible apply ite_keeps (P := P))
    | (with_reducible apply each_keeps (P := P))
    | (with_reducible apply foldl_keeps (P := P))
    | (refine fun (t : State) (ht : P t) => ?_)
    | (refine fun (_ : _) (t : State) (ht : P t) => ?_)
    | (with_reducible intro t; first | (refine (fun (ht : P t) => ?_) (?_ : P t); rotate_left; subst t; rotate_right; clear_value t) | skip | skip)
    | lift_lets -underBinder
    | split

theorem execChannelFault_keeps {P : State → Prop} (h : Stable [.out, .ctr, .nv, .fn, .wfn, .pw, .pwAny, .pk, .notify, .sc, .scAny, .ss, .tm, .fb, .sv, .tx, .se, .sl, .slAny, .et, .dx, .fa, .journal, .mn, .mnAny, .ev] P) (a0 : _) (a1 : _) (a2 : _) (s : State) (hs : P (s.at a0)) : OkX P (execChannelFault a0 a1 a2 s) := by
  have k1 := @channelFault_keeps P (h.mono rfl)
  unfold execChannelFault
  repeat'
    first
    | with_reducible assumption
    | rfl
    | (refine run_keeps ?_ (by assumption))
    | (with_reducible apply k1)
    | (with_reducible apply ite_keeps (P := P))
    | (with_reducible apply foldl_keeps (P := P))
    | (refine fun (t : State) (ht : P t) => ?_)
    | (refine fun (_ : _) (t : State) (ht : P t) => ?_)
    | (with_reducible intro t; first | (refine (fun (ht : P t) => ?_) (?_ : P t); rotate_left; subst t; rotate_right; clear_value t) | skip | skip)
    | lift_lets -underBinder
    | split

theorem execChannelSweepComplete_keeps {P : State → Prop} (h : Stable [.ctr, .nvAny, .fn, .notify, .scAny, .tm, .dx, .fa, .mnAny, .ev] P) (a0 : _) (a1 : _) (s : State) (hs : P (s.at a0)) : OkX P (execChannelSweepComplete a0 a1 s) := by
  have k1 := @State.sweep_keeps P (h.mono rfl)
  have k2 := @beginStart_keeps P (h.mono rfl)
  have pUfa := h.fa rfl
  unfold execChannelSweepComplete
  repeat'
    first
    | with_reducible assumption
    | rfl
    | (refine run_keeps ?_ (by assumption))
    | (with_reducible apply k1)
    | (with_reducible apply k2)
    | (with_reducible refine pUfa _ _ (by rfl) (by with_reducible assumption))
    | (with_reducible apply ite_keeps (P := P))
    | (with_reducible apply when_keeps (P := P))
    | (with_reducible apply foldl_keeps (P := P))
    | (refine fun (t : State) (ht : P t) => ?_)
    | (refine fun (_ : _) (t : State) (ht : P t) => ?_)
    | (with_reducible intro t; first | (refine (fun (ht : P t) => ?_) (?_ : P t); rotate_left; subst t; rotate_right; clear_value t) | skip | skip)
    | lift_lets -underBinder
    | split
    | (with_reducible apply pUfa)

theorem execFrameTestComplete_keeps {P : State → Prop} (h : Stable [.out, .ctr, .nv, .fn, .wfn, .pw, .pwAny, .pk, .notify, .sc, .scAny, .ss, .tm, .fb, .sv, .tx, .se, .sl, .slAny, .et, .dx, .fa, .journal, .mn, .mnAny, .ev] P) (a0 : _) (a1 : _) (a2 : _) (a3 : _) (a4 : _) (s : State) (hs : P (s.at a0)) : OkX P (execFrameTestComplete a0 a1 a2 a3 a4 s) := by
  have k1 := @State.setFrame_keeps P (h.mono rfl)
  have k2 := @channelFault_keeps P (h.mono rfl)
  have pInc := h.ctrInc rfl
  have pEv := h.ev rfl
  have pNotify := h.notify rfl
  have pUfa := h.fa rfl
  unfold execFrameTestComplete
  repeat'
    first
    | with_reducible assumption
    | rfl
    | (refine run_keeps ?_ (by assumption))
    | (with_reducible apply k1)
    | (with_reducible apply k2)
    | (with_reducible apply pInc)
    | (with_reducible apply pEv)
    | (with_reducible apply pNotify)
    | (with_reducible refine pUfa _ _ (by rfl) (by with_reducible assumption))
    | (with_reducible apply ite_keeps (P := P))
    | (with_reducible apply when_keeps (P := P))
    | (with_reducible apply foldl_keeps (P := P))
    | (refine fun (t : State) (ht : P t) => ?_)
    | (refine fun (_ : _) (t : State) (ht : P t) => ?_)
    | (with_reducible intro t; first | (refine (fun (ht : P t) => ?_) (?_ : P t); rotate_left; subst t; rotate_right; clear_value t) | skip | skip)
    | lift_lets -underBinder
    | split
    | (with_reducible apply pUfa)

theorem fatalNotices_keeps {P : State → Prop} (h : Stable [.out, .ctr, .notify, .sl, .dx, .ev] P) (a0 : _) (s : State) (hs : P s) : P (fatalNotices a0 s) := by
  have k1 := @State.txSend_keeps P (h.mono rfl)
  have k2 := @State.sendCtl_keeps P (h.mono rfl)
  have pEv := h.ev rfl
  have pNotifyVia := h.notifyVia rfl
  unfold fatalNotices
  repeat'
    first
    | with_reducible assumption
    | rfl
    | (with_reducible apply k1)
    | (with_reducible apply k2)
    | (with_reducible apply pEv)
    | (with_reducible apply pNotifyVia)
    | (with_reducible apply ite_keeps (P := P))
    | (with_reducible apply each_keeps (P := P))
    | (with_reducible apply foldl_keeps (P := P))
    | (refine fun (t : State) (ht : P t) => ?_)
    | (refine fun (_ : _) (t : State) (ht : P t) => ?_)
    | (with_reducible intro t; first | (refine (fun (ht : P t) => ?_) (?_ : P t); rotate_left; subst t; rotate_right; clear_value t) | skip | skip)
    | lift_lets -underBinder
    | split

theorem fatalAborts_keeps {P : State → Prop} (h : Stable [.out, .ctr, .notify, .ss, .sl, .ev] P) (s : State) (hs : P s) : P (fatalAborts s) := by
  have k1 := @State.record_keeps P (h.mono rfl)
  unfold fatalAborts
  repeat'
    first
    | with_reducible assumption
    | rfl
    | (with_reducible apply k1)
    | (with_reducible apply ite_keeps (P := P))
    | (with_reducible apply each_keeps (P := P))
    | (with_reducible apply foldl_keeps (P := P))
    | (refine fun (t : State) (ht : P t) => ?_)
    | (refine fun (_ : _) (t : State) (ht : P t) => ?_)
    | (with_reducible intro t; first | (refine (fun (ht : P t) => ?_) (?_ : P t); rotate_left; subst t; rotate_right; clear_value t) | skip | skip)
    | lift_lets -underBinder
    | split

theorem fatalPath_keeps {P : State → Prop} (h : Stable [.out, .ctr, .nvAny, .iso, .pwAny, .notify, .ss, .sl, .dx, .fa, .journal, .ev] P) (a0 : _) (s : State) (hs : P s) : P (fatalPath a0 s) := by
  have k1 := @State.copyJournal_keeps P (h.mono rfl)
  have k2 := @fatalAborts_keeps P (h.mono rfl)
  have k3 := @fatalNotices_keeps P (h.mono rfl)
  have k4 := @State.setPkg_keeps P (h.mono rfl)
  have pSet := h.ctr rfl
  have pStore := h.store rfl
  have pJournal := h.journal rfl
  have pIso := h.iso rfl
  have pUfa := h.fa rfl
  unfold fatalPath
  repeat'
    first
    | with_reducible assumption
    | rfl
    | (with_reducible apply k1)
    | (with_reducible apply k2)
    | (with_reducible apply k3)
    | (with_reducible apply k4)
    | (with_reducible apply pSet)
    | (with_reducible apply pStore)
    | (with_reducible apply pJournal)
    | (with_reducible apply pIso)
    | (with_reducible refine pUfa _ _ (by rfl) (by with_reducible assumption))
    | (with_reducible apply ite_keeps (P := P))
    | (with_reducible apply foldl_keeps (P := P))
    | (refine fun (t : State) (ht : P t) => ?_)
    | (refine fun (_ : _) (t : State) (ht : P t) => ?_)
    | (with_reducible intro t; first | (refine (fun (ht : P t) => ?_) (?_ : P t); rotate_left; subst t; rotate_right; clear_value t) | skip | skip)
    | lift_lets -underBinder
    | split
    | (with_reducible apply pUfa)

theorem execFatalDetect_keeps {P : State → Prop} (h : Stable [.out, .ctr, .nvAny, .iso, .pwAny, .notify, .ss, .sl, .dx, .fa, .journal, .ev] P) (a0 : _) (a1 : _) (s : State) (hs : P (s.at a0)) : OkX P (execFatalDetect a0 a1 s) := by
  have k1 := @fatalPath_keeps P (h.mono rfl)
  unfold execFatalDetect
  repeat'
    first
    | with_reducible assumption
    | rfl
    | (refine run_keeps ?_ (by assumption))
    | (with_reducible apply k1)
    | (with_reducible apply ite_keeps (P := P))
    | (with_reducible apply foldl_keeps (P := P))
    | (refine fun (t : State) (ht : P t) => ?_)
    | (refine fun (_ : _) (t : State) (ht : P t) => ?_)
    | (with_reducible intro t; first | (refine (fun (ht : P t) => ?_) (?_ : P t); rotate_left; subst t; rotate_right; clear_value t) | skip | skip)
    | lift_lets -underBinder
    | split

theorem State.auditLaw_keeps {P : State → Prop} (h : Stable [.out, .ctr, .reg, .nvAny, .iso, .pwAny, .notify, .ss, .sl, .dx, .fa, .journal, .ev] P) (s : State) (a1 : _) (hs : P s) : P (State.auditLaw s a1) := by
  have k1 := @fatalPath_keeps P (h.mono rfl)
  have pInc := h.regInc rfl
  have pSet := h.reg rfl
  have pStore := h.store rfl
  have pEv := h.ev rfl
  have pJournal := h.journal rfl
  unfold State.auditLaw
  repeat'
    first
    | with_reducible assumption
    | rfl
    | (with_reducible apply k1)
    | (with_reducible apply pInc)
    | (with_reducible apply pSet)
    | (with_reducible apply pStore)
    | (with_reducible apply pEv)
    | (with_reducible apply pJournal)
    | (with_reducible apply ite_keeps (P := P))
    | (with_reducible apply foldl_keeps (P := P))
    | (refine fun (t : State) (ht : P t) => ?_)
    | (refine fun (_ : _) (t : State) (ht : P t) => ?_)
    | (with_reducible intro t; first | (refine (fun (ht : P t) => ?_) (?_ : P t); rotate_left; subst t; rotate_right; clear_value t) | subst t | skip)
    | lift_lets -underBinder
    | split

theorem execConservationAudit_keeps {P : State → Prop} (h : Stable [.out, .ctr, .reg, .nvAny, .iso, .pwAny, .notify, .ss, .sl, .dx, .fa, .journal, .ev] P) (a0 : _) (s : State) (hs : P (s.at a0)) : OkX P (execConservationAudit a0 s) := by
  have k1 := @State.auditLaw_keeps P (h.mono rfl)
  have pUfa := h.fa rfl
  unfold execConservationAudit
  repeat'
    first
    | with_reducible assumption
    | rfl
    | (refine run_keeps ?_ (by assumption))
    | (with_reducible apply k1)
    | (with_reducible refine pUfa _ _ (by rfl) (by with_reducible assumption))
    | (with_reducible apply ite_keeps (P := P))
    | (with_reducible apply each_keeps (P := P))
    | (with_reducible apply when_keeps (P := P))
    | (with_reducible apply foldl_keeps (P := P))
    | (refine fun (t : State) (ht : P t) => ?_)
    | (refine fun (_ : _) (t : State) (ht : P t) => ?_)
    | (with_reducible intro t; first | (refine (fun (ht : P t) => ?_) (?_ : P t); rotate_left; subst t; rotate_right; clear_value t) | skip | skip)
    | lift_lets -underBinder
    | split
    | (with_reducible apply pUfa)

theorem State.failTracked_keeps {P : State → Prop} (h : Stable [.out, .ctr, .nv, .notify, .sc, .ss, .tm, .fb, .se, .sl, .ck, .ev] P) (s : State) (a1 : _) (a2 : _) (hs : P s) : P (State.failTracked s a1 a2) := by
  have k1 := @State.ckptAdvance_keeps P (h.mono rfl)
  have k2 := @State.remove_keeps P (h.mono rfl)
  have k3 := @State.failMove_keeps P (h.mono rfl)
  have k4 := @State.endSelect_keeps P (h.mono rfl)
  have k5 := @State.freeSlot_keeps P (h.mono rfl)
  have k6 := @State.inputRead_keeps P (h.mono rfl)
  have k7 := @State.dropOp_keeps P (h.mono rfl)
  unfold State.failTracked
  repeat'
    first
    | with_reducible assumption
    | rfl
    | (with_reducible apply k1)
    | (with_reducible apply k2)
    | (with_reducible apply k3)
    | (with_reducible apply k4)
    | (with_reducible apply k5)
    | (with_reducible apply k6)
    | (with_reducible apply k7)
    | (with_reducible apply ite_keeps (P := P))
    | (with_reducible apply foldl_keeps (P := P))
    | (refine fun (t : State) (ht : P t) => ?_)
    | (refine fun (_ : _) (t : State) (ht : P t) => ?_)
    | (with_reducible intro t; first | (refine (fun (ht : P t) => ?_) (?_ : P t); rotate_left; subst t; rotate_right; clear_value t) | skip | skip)
    | lift_lets -underBinder
    | split

theorem execTrackerOpTimeout_keeps {P : State → Prop} (h : Stable [.out, .ctr, .nv, .notify, .sc, .ss, .tm, .fb, .se, .sl, .ck, .journal, .ev] P) (a0 : _) (a1 : _) (a2 : _) (s : State) (hs : P (s.at a0)) : OkX P (execTrackerOpTimeout a0 a1 a2 s) := by
  have k1 := @State.failTracked_keeps P (h.mono rfl)
  have pInc := h.ctrInc rfl
  have pEv := h.ev rfl
  have pNotify := h.notify rfl
  have pJournal := h.journal rfl
  unfold execTrackerOpTimeout
  repeat'
    first
    | with_reducible assumption
    | rfl
    | (refine run_keeps ?_ (by assumption))
    | (with_reducible apply k1)
    | (with_reducible apply pInc)
    | (with_reducible apply pEv)
    | (with_reducible apply pNotify)
    | (with_reducible apply pJournal)
    | (with_reducible apply ite_keeps (P := P))
    | (with_reducible apply foldl_keeps (P := P))
    | (refine fun (t : State) (ht : P t) => ?_)
    | (refine fun (_ : _) (t : State) (ht : P t) => ?_)
    | (with_reducible intro t; first | (refine (fun (ht : P t) => ?_) (?_ : P t); rotate_left; subst t; rotate_right; clear_value t) | skip | skip)
    | lift_lets -underBinder
    | split

end Sys2Proof.Machine
end

