-- ==== Sys2Proof/Laws/KeepsLinks.lean ====
section
/-! SUPPORT. What the operations of Machine/Links.lean can do to the state (`Laws/Keeps.lean`): one lemma per operation. -/

set_option linter.all false

namespace Sys2Proof.Machine

open Sys2Proof

theorem execPortLinkUp_keeps {P : State → Prop} (h : Stable [.out, .ctr, .nv, .nvAny, .fn, .wfn, .pw, .pwAny, .pk, .notify, .sc, .scAny, .ss, .tm, .fb, .sv, .tx, .se, .sl, .slAny, .et, .dx, .fa, .journal, .mnAny, .ev] P) (a0 : _) (a1 : _) (s : State) (hs : P (s.at a0)) : OkX P (execPortLinkUp a0 a1 s) := by
  have k1 := @fnStarted_keeps P (h.mono rfl)
  unfold execPortLinkUp
  repeat'
    first
    | with_reducible assumption
    | rfl
    | (refine run_keeps ?_ (by assumption))
    | (with_reducible apply k1)
    | (with_reducible apply ite_keeps (P := P))
    | (with_reducible apply foldl_keeps (P := P))
    | (refine fun (t : State) (ht : P t) => ?_)
    | (refine fun (_ : _) (t : State) (ht : P t) => ?_)
    | (with_reducible intro t; first | (refine (fun (ht : P t) => ?_) (?_ : P t); rotate_left; subst t; rotate_right; clear_value t) | skip | skip)
    | lift_lets -underBinder
    | split

theorem execPortAlignmentLoss_keeps {P : State → Prop} (h : Stable [.out, .ctr, .fn, .notify, .sl, .et, .ev] P) (a0 : _) (a1 : _) (s : State) (hs : P (s.at a0)) : OkX P (execPortAlignmentLoss a0 a1 s) := by
  have k1 := @portNote_keeps P (h.mono rfl)
  have k2 := @portOff_keeps P (h.mono rfl)
  have pInc := h.ctrInc rfl
  have pEv := h.ev rfl
  have pFn := h.fn rfl
  unfold execPortAlignmentLoss
  repeat'
    first
    | with_reducible assumption
    | rfl
    | (refine run_keeps ?_ (by assumption))
    | (with_reducible apply k1)
    | (with_reducible apply k2)
    | (with_reducible apply pInc)
    | (with_reducible apply pEv)
    | (with_reducible apply pFn)
    | (with_reducible apply ite_keeps (P := P))
    | (with_reducible apply foldl_keeps (P := P))
    | (refine fun (t : State) (ht : P t) => ?_)
    | (refine fun (_ : _) (t : State) (ht : P t) => ?_)
    | (with_reducible intro t; first | (refine (fun (ht : P t) => ?_) (?_ : P t); rotate_left; subst t; rotate_right; clear_value t) | skip | skip)
    | lift_lets -underBinder
    | split

theorem trainFail_keeps {P : State → Prop} (h : Stable [.out, .ctr, .nv, .fn, .wfn, .pw, .pwAny, .pk, .notify, .sc, .scAny, .ss, .tm, .fb, .sv, .tx, .se, .sl, .slAny, .et, .dx, .fa, .journal, .ev] P) (a0 : _) (a1 : _) (s : State) (hs : P s) : P (trainFail a0 a1 s) := by
  have k1 := @State.setLink_keeps P (h.mono rfl)
  have k2 := @fnFailed_keeps P (h.mono rfl)
  have pInc := h.ctrInc rfl
  have pNotify := h.notify rfl
  unfold trainFail
  repeat'
    first
    | with_reducible assumption
    | rfl
    | (with_reducible apply k1)
    | (with_reducible apply k2)
    | (with_reducible apply pInc)
    | (with_reducible apply pNotify)
    | (with_reducible apply ite_keeps (P := P))
    | (with_reducible apply foldl_keeps (P := P))
    | (refine fun (t : State) (ht : P t) => ?_)
    | (refine fun (_ : _) (t : State) (ht : P t) => ?_)
    | (with_reducible intro t; first | (refine (fun (ht : P t) => ?_) (?_ : P t); rotate_left; subst t; rotate_right; clear_value t) | skip | skip)
    | lift_lets -underBinder
    | split

theorem execLinkTrainingComplete_keeps {P : State → Prop} (h : Stable [.out, .ctr, .nv, .nvAny, .fn, .wfn, .pw, .pwAny, .pk, .notify, .sc, .scAny, .ss, .tm, .fb, .sv, .tx, .se, .sl, .slAny, .et, .dx, .fa, .journal, .mnAny, .ev] P) (a0 : _) (a1 : _) (a2 : _) (s : State) (hs : P (s.at a0)) : OkX P (execLinkTrainingComplete a0 a1 a2 s) := by
  have k1 := @settle_keeps P (h.mono rfl)
  have k2 := @fnStarted_keeps P (h.mono rfl)
  have k3 := @State.setLink_keeps P (h.mono rfl)
  have k4 := @trainFail_keeps P (h.mono rfl)
  unfold execLinkTrainingComplete
  repeat'
    first
    | with_reducible assumption
    | rfl
    | (refine run_keeps ?_ (by assumption))
    | (with_reducible apply k1)
    | (with_reducible apply k2)
    | (with_reducible apply k3)
    | (with_reducible apply k4)
    | (with_reducible apply ite_keeps (P := P))
    | (with_reducible apply foldl_keeps (P := P))
    | (refine fun (t : State) (ht : P t) => ?_)
    | (refine fun (_ : _) (t : State) (ht : P t) => ?_)
    | (with_reducible intro t; first | (refine (fun (ht : P t) => ?_) (?_ : P t); rotate_left; subst t; rotate_right; clear_value t) | skip | skip)
    | lift_lets -underBinder
    | split

theorem execLinkTrainingFail_keeps {P : State → Prop} (h : Stable [.out, .ctr, .nv, .fn, .wfn, .pw, .pwAny, .pk, .notify, .sc, .scAny, .ss, .tm, .fb, .sv, .tx, .se, .sl, .slAny, .et, .dx, .fa, .journal, .ev] P) (a0 : _) (a1 : _) (a2 : _) (s : State) (hs : P (s.at a0)) : OkX P (execLinkTrainingFail a0 a1 a2 s) := by
  have k1 := @trainFail_keeps P (h.mono rfl)
  unfold execLinkTrainingFail
  repeat'
    first
    | with_reducible assumption
    | rfl
    | (refine run_keeps ?_ (by assumption))
    | (with_reducible apply k1)
    | (with_reducible apply ite_keeps (P := P))
    | (with_reducible apply foldl_keeps (P := P))
    | (refine fun (t : State) (ht : P t) => ?_)
    | (refine fun (_ : _) (t : State) (ht : P t) => ?_)
    | (with_reducible intro t; first | (refine (fun (ht : P t) => ?_) (?_ : P t); rotate_left; subst t; rotate_right; clear_value t) | skip | skip)
    | lift_lets -underBinder
    | split

theorem execLinkFailure_keeps {P : State → Prop} (h : Stable [.ctr, .fn, .notify, .dx, .ev] P) (a0 : _) (a1 : _) (a2 : _) (s : State) (hs : P (s.at a0)) : OkX P (execLinkFailure a0 a1 a2 s) := by
  have k1 := @linkStarting_keeps P (h.mono rfl)
  have pInc := h.ctrInc rfl
  have pEv := h.ev rfl
  have pFn := h.fn rfl
  unfold execLinkFailure
  repeat'
    first
    | with_reducible assumption
    | rfl
    | (refine run_keeps ?_ (by assumption))
    | (with_reducible apply k1)
    | (with_reducible apply pInc)
    | (with_reducible apply pEv)
    | (with_reducible apply pFn)
    | (with_reducible apply ite_keeps (P := P))
    | (with_reducible apply foldl_keeps (P := P))
    | (refine fun (t : State) (ht : P t) => ?_)
    | (refine fun (_ : _) (t : State) (ht : P t) => ?_)
    | (with_reducible intro t; first | (refine (fun (ht : P t) => ?_) (?_ : P t); rotate_left; subst t; rotate_right; clear_value t) | skip | skip)
    | lift_lets -underBinder
    | split

theorem execStopping_keeps {P : State → Prop} (h : Stable [.out, .ctr, .nv, .fn, .wfn, .pw, .pwAny, .pk, .notify, .sc, .scAny, .ss, .tm, .fb, .sv, .tx, .se, .sl, .slAny, .et, .dx, .fa, .journal, .mn, .mnAny, .ev] P) (a0 : _) (a1 : _) (s : State) (hs : P (s.at a0)) : OkX P (execStopping a0 a1 s) := by
  have k1 := @reqOff_keeps P (h.mono rfl)
  have k2 := @State.badMsg_keeps P (h.mono rfl)
  unfold execStopping
  repeat'
    first
    | with_reducible assumption
    | rfl
    | (refine run_keeps ?_ (by assumption))
    | (with_reducible apply k1)
    | (with_reducible apply k2)
    | (with_reducible apply ite_keeps (P := P))
    | (with_reducible apply when_keeps (P := P))
    | (with_reducible apply foldl_keeps (P := P))
    | (refine fun (t : State) (ht : P t) => ?_)
    | (refine fun (_ : _) (t : State) (ht : P t) => ?_)
    | (with_reducible intro t; first | (refine (fun (ht : P t) => ?_) (?_ : P t); rotate_left; subst t; rotate_right; clear_value t) | skip | skip)
    | lift_lets -underBinder
    | split

theorem State.failForwards_keeps {P : State → Prop} (h : Stable [.out, .ctr, .nv, .notify, .ss, .sl, .dx, .ev] P) (s : State) (a1 : _) (hs : P s) : OkP P (State.failForwards s a1) := by
  have k1 := @State.failDesc_keeps P (h.mono rfl)
  have k2 := @State.pumpForward_keeps P (h.mono rfl)
  have pUdx := h.dx rfl
  unfold State.failForwards
  repeat'
    first
    | with_reducible assumption
    | rfl
    | (with_reducible apply k1)
    | (with_reducible apply k2)
    | (with_reducible refine pUdx _ _ (by with_reducible assumption))
    | (with_reducible apply iteP_keeps (P := P))
    | (with_reducible apply ite_keeps (P := P))
    | (with_reducible apply each_keeps (P := P))
    | (with_reducible apply foldl_keeps (P := P))
    | (with_reducible apply foldP_keeps (P := P))
    | (refine OkP.get (P := P) (by with_reducible assumption) ?_)
    | (with_reducible apply OkP.snd (P := P))
    | (refine fun (t : State) (ht : P t) => ?_)
    | (refine fun (_ : _) (t : State) (ht : P t) => ?_)
    | (with_reducible intro t; first | (refine (fun (ht : P t) => ?_) (?_ : P t); rotate_left; subst t; rotate_right; clear_value t) | skip | skip)
    | lift_lets -underBinder
    | split
    | (with_reducible apply pUdx)
    | (with_reducible apply OkP.mk (P := P))

theorem State.peerGone_keeps {P : State → Prop} (h : Stable [.out, .ctr, .nv, .fn, .wfn, .pw, .pwAny, .pk, .notify, .sc, .scAny, .ss, .tm, .fb, .sv, .tx, .se, .sl, .slAny, .et, .dx, .fa, .journal, .mn, .mnAny, .ev] P) (s : State) (a1 : _) (hs : P s) : P (State.peerGone s a1) := by
  have k1 := @reqOff_keeps P (h.mono rfl)
  have k2 := @State.failForwards_keeps P (h.mono rfl)
  have k3 := @selectsLose_keeps P (h.mono rfl)
  have k4 := @stageLost_keeps P (h.mono rfl)
  have k5 := @migrationsLose_keeps P (h.mono rfl)
  have k6 := @State.freeStage_keeps P (h.mono rfl)
  have k7 := @State.lossRecord_keeps P (h.mono rfl)
  have pUdx := h.dx rfl
  unfold State.peerGone
  repeat'
    first
    | with_reducible assumption
    | rfl
    | (with_reducible apply k1)
    | (with_reducible apply k2)
    | (with_reducible apply k3)
    | (with_reducible apply k4)
    | (with_reducible apply k5)
    | (with_reducible apply k6)
    | (with_reducible apply k7)
    | (with_reducible refine pUdx _ _ (by with_reducible assumption))
    | (with_reducible apply iteP_keeps (P := P))
    | (with_reducible apply ite_keeps (P := P))
    | (with_reducible apply each_keeps (P := P))
    | (with_reducible apply foldl_keeps (P := P))
    | (with_reducible apply foldP_keeps (P := P))
    | (refine OkP.get (P := P) (by with_reducible assumption) ?_)
    | (with_reducible apply OkP.snd (P := P))
    | (refine fun (t : State) (ht : P t) => ?_)
    | (refine fun (_ : _) (t : State) (ht : P t) => ?_)
    | (with_reducible intro t; first | (refine (fun (ht : P t) => ?_) (?_ : P t); rotate_left; subst t; rotate_right; clear_value t) | skip | skip)
    | lift_lets -underBinder
    | split
    | (with_reducible apply pUdx)
    | (with_reducible apply OkP.mk (P := P))

theorem peerLost_keeps {P : State → Prop} (h : Stable [.out, .ctr, .nv, .fn, .wfn, .pw, .pwAny, .pk, .notify, .sc, .scAny, .ss, .tm, .fb, .sv, .tx, .se, .sl, .slAny, .et, .dx, .ck, .fa, .journal, .mn, .mnAny, .ev] P) (a0 : _) (a1 : _) (s : State) (hs : P s) : P (peerLost a0 a1 s) := by
  have k1 := @State.setPeer_keeps P (h.mono rfl)
  have k2 := @settle_keeps P (h.mono rfl)
  have k3 := @ckptPeerLost_keeps P (h.mono rfl)
  have k4 := @State.peerGone_keeps P (h.mono rfl)
  have pInc := h.ctrInc rfl
  have pEv := h.ev rfl
  have pNotify := h.notify rfl
  have pJournal := h.journal rfl
  unfold peerLost
  repeat'
    first
    | with_reducible assumption
    | rfl
    | (with_reducible apply k1)
    | (with_reducible apply k2)
    | (with_reducible apply k3)
    | (with_reducible apply k4)
    | (with_reducible apply pInc)
    | (with_reducible apply pEv)
    | (with_reducible apply pNotify)
    | (with_reducible apply pJournal)
    | (with_reducible apply ite_keeps (P := P))
    | (with_reducible apply foldl_keeps (P := P))
    | (refine fun (t : State) (ht : P t) => ?_)
    | (refine fun (_ : _) (t : State) (ht : P t) => ?_)
    | (with_reducible intro t; first | (refine (fun (ht : P t) => ?_) (?_ : P t); rotate_left; subst t; rotate_right; clear_value t) | skip | skip)
    | lift_lets -underBinder
    | split

theorem execPeerTimeout_keeps {P : State → Prop} (h : Stable [.out, .ctr, .nv, .fn, .wfn, .pw, .pwAny, .pk, .notify, .sc, .scAny, .ss, .tm, .fb, .sv, .tx, .se, .sl, .slAny, .et, .dx, .ck, .fa, .journal, .mn, .mnAny, .ev] P) (a0 : _) (a1 : _) (s : State) (hs : P (s.at a0)) : OkX P (execPeerTimeout a0 a1 s) := by
  have k1 := @peerLost_keeps P (h.mono rfl)
  unfold execPeerTimeout
  repeat'
    first
    | with_reducible assumption
    | rfl
    | (refine run_keeps ?_ (by assumption))
    | (with_reducible apply k1)
    | (with_reducible apply ite_keeps (P := P))
    | (with_reducible apply foldl_keeps (P := P))
    | (refine fun (t : State) (ht : P t) => ?_)
    | (refine fun (_ : _) (t : State) (ht : P t) => ?_)
    | (with_reducible intro t; first | (refine (fun (ht : P t) => ?_) (?_ : P t); rotate_left; subst t; rotate_right; clear_value t) | skip | skip)
    | lift_lets -underBinder
    | split

theorem execFatalMessage_keeps {P : State → Prop} (h : Stable [.out, .ctr, .nv, .fn, .wfn, .pw, .pwAny, .pk, .notify, .sc, .scAny, .ss, .tm, .fb, .sv, .tx, .se, .sl, .slAny, .et, .dx, .ck, .fa, .journal, .mn, .mnAny, .ev] P) (a0 : _) (a1 : _) (a2 : _) (a3 : _) (a4 : _) (s : State) (hs : P (s.at a0)) : OkX P (execFatalMessage a0 a1 a2 a3 a4 s) := by
  have k1 := @State.ctlArrive_keeps P (h.mono rfl)
  have k2 := @peerLost_keeps P (h.mono rfl)
  unfold execFatalMessage
  repeat'
    first
    | with_reducible assumption
    | rfl
    | (refine run_keeps ?_ (by assumption))
    | (with_reducible apply k1)
    | (with_reducible apply k2)
    | (with_reducible apply ite_keeps (P := P))
    | (with_reducible apply foldl_keeps (P := P))
    | (refine fun (t : State) (ht : P t) => ?_)
    | (refine fun (_ : _) (t : State) (ht : P t) => ?_)
    | (with_reducible intro t; first | (refine (fun (ht : P t) => ?_) (?_ : P t); rotate_left; subst t; rotate_right; clear_value t) | skip | skip)
    | lift_lets -underBinder
    | split

theorem execCommandAck_keeps {P : State → Prop} (h : Stable [.out, .ctr, .nv, .pw, .pwAny, .pk, .notify, .sc, .ss, .tm, .fb, .sv, .se, .sl, .dx, .journal, .ev] P) (a0 : _) (a1 : _) (s : State) (hs : P (s.at a0)) : OkX P (execCommandAck a0 a1 s) := by
  have k1 := @State.arrive_keeps P (h.mono rfl)
  have k2 := @settle_keeps P (h.mono rfl)
  have k3 := @State.pumpForward_keeps P (h.mono rfl)
  have pUdx := h.dx rfl
  unfold execCommandAck
  repeat'
    first
    | with_reducible assumption
    | rfl
    | (refine run_keeps ?_ (by assumption))
    | (with_reducible apply k1)
    | (with_reducible apply k2)
    | (with_reducible apply k3)
    | (with_reducible refine pUdx _ _ (by with_reducible assumption))
    | (with_reducible apply ite_keeps (P := P))
    | (with_reducible apply foldl_keeps (P := P))
    | (refine fun (t : State) (ht : P t) => ?_)
    | (refine fun (_ : _) (t : State) (ht : P t) => ?_)
    | (with_reducible intro t; first | (refine (fun (ht : P t) => ?_) (?_ : P t); rotate_left; subst t; rotate_right; clear_value t) | skip | skip)
    | lift_lets -underBinder
    | split
    | (with_reducible apply pUdx)

theorem execActivationAck_keeps {P : State → Prop} (h : Stable [.out, .ctr, .nv, .pw, .pwAny, .pk, .notify, .sc, .ss, .tm, .fb, .sv, .se, .sl, .dx, .journal, .ev] P) (a0 : _) (a1 : _) (s : State) (hs : P (s.at a0)) : OkX P (execActivationAck a0 a1 s) := by
  have k1 := @State.arrive_keeps P (h.mono rfl)
  have k2 := @settle_keeps P (h.mono rfl)
  have pUdx := h.dx rfl
  unfold execActivationAck
  repeat'
    first
    | with_reducible assumption
    | rfl
    | (refine run_keeps ?_ (by assumption))
    | (with_reducible apply k1)
    | (with_reducible apply k2)
    | (with_reducible refine pUdx _ _ (by with_reducible assumption))
    | (with_reducible apply ite_keeps (P := P))
    | (with_reducible apply foldl_keeps (P := P))
    | (refine fun (t : State) (ht : P t) => ?_)
    | (refine fun (_ : _) (t : State) (ht : P t) => ?_)
    | (with_reducible intro t; first | (refine (fun (ht : P t) => ?_) (?_ : P t); rotate_left; subst t; rotate_right; clear_value t) | skip | skip)
    | lift_lets -underBinder
    | split
    | (with_reducible apply pUdx)

theorem memberApply_keeps {P : State → Prop} (h : Stable [.out, .ctr, .reg, .nv, .fn, .wfn, .pw, .pwAny, .pk, .notify, .sc, .scAny, .ss, .tm, .fb, .sv, .tx, .se, .sl, .slAny, .et, .dx, .fa, .journal, .mn, .mnAny, .ev] P) (a0 : _) (s : State) (hs : P s) : P (memberApply a0 s) := by
  have k1 := @State.peerGone_keeps P (h.mono rfl)
  have k2 := @State.setPeer_keeps P (h.mono rfl)
  have k3 := @settle_keeps P (h.mono rfl)
  have pSet := h.reg rfl
  unfold memberApply
  repeat'
    first
    | with_reducible assumption
    | rfl
    | (with_reducible apply k1)
    | (with_reducible apply k2)
    | (with_reducible apply k3)
    | (with_reducible apply pSet)
    | (with_reducible apply ite_keeps (P := P))
    | (with_reducible apply each_keeps (P := P))
    | (with_reducible apply foldl_keeps (P := P))
    | (refine fun (t : State) (ht : P t) => ?_)
    | (refine fun (_ : _) (t : State) (ht : P t) => ?_)
    | (with_reducible intro t; first | (refine (fun (ht : P t) => ?_) (?_ : P t); rotate_left; subst t; rotate_right; clear_value t) | skip | skip)
    | lift_lets -underBinder
    | split

end Sys2Proof.Machine
end

