-- ==== Sys2Proof/Laws/KeepsReset.lean ====
section
/-! SUPPORT. What the operations of Machine/Reset.lean can do to the state (`Laws/Keeps.lean`): one lemma per operation. -/

set_option linter.all false

namespace Sys2Proof.Machine

open Sys2Proof

theorem restoreDefaults_keeps {P : State → Prop} (h : Stable [.regs, .ctr, .nvAny] P) (s : State) (hs : P s) : P (restoreDefaults s) := by
  have pStore := h.store rfl
  have pUregsnvAny := h.RegsNv rfl rfl
  unfold restoreDefaults
  repeat'
    first
    | ((with_reducible apply NvSide.mk); first | exact ⟨Nat.le_refl _, id⟩ | exact ⟨Nat.le_max_left _ _, id⟩ | exact ⟨Nat.le_refl _, fun _ => rfl⟩ | (split <;> exact ⟨Nat.le_refl _, id⟩))
    | ((with_reducible apply RegsSide.mk); exact List.filter_sublist)
    | with_reducible assumption
    | rfl
    | (with_reducible apply pStore)
    | (with_reducible apply ite_keeps (P := P))
    | (with_reducible apply foldl_keeps (P := P))
    | (refine fun (t : State) (ht : P t) => ?_)
    | (refine fun (_ : _) (t : State) (ht : P t) => ?_)
    | (with_reducible intro t; first | (refine (fun (ht : P t) => ?_) (?_ : P t); rotate_left; subst t; rotate_right; clear_value t) | skip | skip)
    | lift_lets -underBinder
    | split
    | (with_reducible apply pUregsnvAny)

theorem State.runFirmware_keeps {P : State → Prop} (h : Stable [.scAny] P) (s : State) (a1 : _) (hs : P s) : P (State.runFirmware s a1) := by
  have pUscAny := h.scAny rfl
  unfold State.runFirmware
  repeat'
    first
    | with_reducible assumption
    | rfl
    | (with_reducible refine pUscAny _ _ (by with_reducible assumption))
    | (with_reducible apply ite_keeps (P := P))
    | (with_reducible apply foldl_keeps (P := P))
    | (refine fun (t : State) (ht : P t) => ?_)
    | (refine fun (_ : _) (t : State) (ht : P t) => ?_)
    | (with_reducible intro t; first | (refine (fun (ht : P t) => ?_) (?_ : P t); rotate_left; subst t; rotate_right; clear_value t) | skip | skip)
    | lift_lets -underBinder
    | split
    | (with_reducible apply pUscAny)

theorem chooseFirmware_keeps {P : State → Prop} (h : Stable [.ctr, .reg, .nvAny, .notify, .scAny, .journal] P) (s : State) (hs : P s) : P (chooseFirmware s) := by
  have k1 := @State.runFirmware_keeps P (h.mono rfl)
  have pSet := h.reg rfl
  have pStore := h.store rfl
  have pNotify := h.notify rfl
  have pJournal := h.journal rfl
  have pUnvAny := h.nvAny rfl
  unfold chooseFirmware
  repeat'
    first
    | ((with_reducible apply NvSide.mk); first | exact ⟨Nat.le_refl _, id⟩ | exact ⟨Nat.le_max_left _ _, id⟩ | exact ⟨Nat.le_refl _, fun _ => rfl⟩ | (split <;> exact ⟨Nat.le_refl _, id⟩))
    | with_reducible assumption
    | rfl
    | (with_reducible apply k1)
    | (with_reducible apply pSet)
    | (with_reducible apply pStore)
    | (with_reducible apply pNotify)
    | (with_reducible apply pJournal)
    | (with_reducible apply ite_keeps (P := P))
    | (with_reducible apply foldl_keeps (P := P))
    | (refine fun (t : State) (ht : P t) => ?_)
    | (refine fun (_ : _) (t : State) (ht : P t) => ?_)
    | (with_reducible intro t; first | (refine (fun (ht : P t) => ?_) (?_ : P t); rotate_left; subst t; rotate_right; clear_value t) | skip | skip)
    | lift_lets -underBinder
    | split
    | (with_reducible apply pUnvAny)

theorem bootIndex_keeps {P : State → Prop} (h : Stable [.ctr, .notify, .scAny] P) (s : State) (hs : P s) : P (bootIndex s) := by
  have k1 := @State.lowCheck_keeps P (h.mono rfl)
  have pInc := h.ctrInc rfl
  have pStore := h.store rfl
  have pUscAny := h.scAny rfl
  unfold bootIndex
  repeat'
    first
    | with_reducible assumption
    | rfl
    | (with_reducible apply k1)
    | (with_reducible apply pInc)
    | (with_reducible apply pStore)
    | (with_reducible refine pUscAny _ _ (by with_reducible assumption))
    | (with_reducible apply ite_keeps (P := P))
    | (with_reducible apply foldl_keeps (P := P))
    | (refine fun (t : State) (ht : P t) => ?_)
    | (refine fun (_ : _) (t : State) (ht : P t) => ?_)
    | (with_reducible intro t; first | (refine (fun (ht : P t) => ?_) (?_ : P t); rotate_left; subst t; rotate_right; clear_value t) | skip | skip)
    | lift_lets -underBinder
    | split
    | (with_reducible apply pUscAny)

theorem bootState_keeps {P : State → Prop} (h : Stable [.nvAny, .pwAny, .pkAny, .wr, .scAny, .tm, .sv, .sl, .dx] P) (s : State) (hs : P s) : P (bootState s) := by
  have pUnvAnypwAnypkAnywrscAnytmsvsldx := h.NvPwPkWrScTmSvSlDx rfl rfl rfl rfl rfl rfl rfl rfl rfl
  unfold bootState
  repeat'
    first
    | ((with_reducible apply NvSide.mk); first | exact ⟨Nat.le_refl _, id⟩ | exact ⟨Nat.le_max_left _ _, id⟩ | exact ⟨Nat.le_refl _, fun _ => rfl⟩ | (split <;> exact ⟨Nat.le_refl _, id⟩))
    | ((with_reducible apply PwSide.mk); first | exact id | (dsimp only at *; omega))
    | ((with_reducible apply PkSide.mk); first | exact id | exact Pick.learn_length)
    | with_reducible assumption
    | rfl
    | (with_reducible apply ite_keeps (P := P))
    | (with_reducible apply foldl_keeps (P := P))
    | (refine fun (t : State) (ht : P t) => ?_)
    | (refine fun (_ : _) (t : State) (ht : P t) => ?_)
    | (with_reducible intro t; first | (refine (fun (ht : P t) => ?_) (?_ : P t); rotate_left; subst t; rotate_right; clear_value t) | skip | skip)
    | lift_lets -underBinder
    | split
    | (with_reducible apply pUnvAnypwAnypkAnywrscAnytmsvsldx)

theorem bootStart_keeps {P : State → Prop} (h : Stable [.regs, .ctr, .reg, .nvAny, .fn, .pwAny, .pkAny, .wr, .notify, .scAny, .tm, .sv, .sl, .dx, .journal, .mnAny, .ev] P) (s : State) (hs : P s) : P (bootStart s) := by
  have k1 := @bootIndex_keeps P (h.mono rfl)
  have k2 := @chooseFirmware_keeps P (h.mono rfl)
  have k3 := @bootState_keeps P (h.mono rfl)
  have k4 := @restoreDefaults_keeps P (h.mono rfl)
  have k5 := @beginStart_keeps P (h.mono rfl)
  unfold bootStart
  repeat'
    first
    | with_reducible assumption
    | rfl
    | (with_reducible apply k1)
    | (with_reducible apply k2)
    | (with_reducible apply k3)
    | (with_reducible apply k4)
    | (with_reducible apply k5)
    | (with_reducible apply ite_keeps (P := P))
    | (with_reducible apply when_keeps (P := P))
    | (with_reducible apply foldl_keeps (P := P))
    | (refine fun (t : State) (ht : P t) => ?_)
    | (refine fun (_ : _) (t : State) (ht : P t) => ?_)
    | (with_reducible intro t; first | (refine (fun (ht : P t) => ?_) (?_ : P t); rotate_left; subst t; rotate_right; clear_value t) | skip | skip)
    | lift_lets -underBinder
    | split

theorem confirmFirmware_keeps {P : State → Prop} (h : Stable [.ctr, .nvAny] P) (s : State) (hs : P s) : P (confirmFirmware s) := by
  have pStore := h.store rfl
  have pUnvAny := h.nvAny rfl
  unfold confirmFirmware
  repeat'
    first
    | ((with_reducible apply NvSide.mk); first | exact ⟨Nat.le_refl _, id⟩ | exact ⟨Nat.le_max_left _ _, id⟩ | exact ⟨Nat.le_refl _, fun _ => rfl⟩ | (split <;> exact ⟨Nat.le_refl _, id⟩))
    | with_reducible assumption
    | rfl
    | (with_reducible apply pStore)
    | (with_reducible apply ite_keeps (P := P))
    | (with_reducible apply foldl_keeps (P := P))
    | (refine fun (t : State) (ht : P t) => ?_)
    | (refine fun (_ : _) (t : State) (ht : P t) => ?_)
    | (with_reducible intro t; first | (refine (fun (ht : P t) => ?_) (?_ : P t); rotate_left; subst t; rotate_right; clear_value t) | skip | skip)
    | lift_lets -underBinder
    | split
    | (with_reducible apply pUnvAny)

theorem bringup_keeps {P : State → Prop} (h : Stable [.ctr, .nvAny, .fn, .pwAny, .notify, .scAny, .dx, .mnAny, .ev] P) (s : State) (hs : P s) : P (bringup s) := by
  have k1 := @tryOn_keeps P (h.mono rfl)
  have pUpwAny := h.pwAny rfl
  unfold bringup
  repeat'
    first
    | ((with_reducible apply PwSide.mk); first | exact id | (dsimp only at *; omega))
    | with_reducible assumption
    | rfl
    | (with_reducible apply k1)
    | (with_reducible apply ite_keeps (P := P))
    | (with_reducible apply each_keeps (P := P))
    | (with_reducible apply foldl_keeps (P := P))
    | (refine fun (t : State) (ht : P t) => ?_)
    | (refine fun (_ : _) (t : State) (ht : P t) => ?_)
    | (with_reducible intro t; first | (refine (fun (ht : P t) => ?_) (?_ : P t); rotate_left; subst t; rotate_right; clear_value t) | skip | skip)
    | lift_lets -underBinder
    | split
    | (with_reducible apply pUpwAny)

theorem coldReset_keeps {P : State → Prop} (h : Stable [.regs, .ctr, .reg, .nvAny, .fn, .off, .pwAny, .pkAny, .wr, .notify, .scAny, .tm, .sv, .sl, .dx, .journal, .mnAny, .ev] P) (s : State) (hs : P s) : P (coldReset s) := by
  have k1 := @bootStart_keeps P (h.mono rfl)
  have k2 := @closeIndex_keeps P (h.mono rfl)
  have k3 := @State.copyJournal_keeps P (h.mono rfl)
  have pOff := h.off rfl
  unfold coldReset
  repeat'
    first
    | with_reducible assumption
    | rfl
    | (with_reducible apply k1)
    | (with_reducible apply k2)
    | (with_reducible apply k3)
    | (with_reducible apply pOff)
    | (with_reducible apply ite_keeps (P := P))
    | (with_reducible apply foldl_keeps (P := P))
    | (refine fun (t : State) (ht : P t) => ?_)
    | (refine fun (_ : _) (t : State) (ht : P t) => ?_)
    | (with_reducible intro t; first | (refine (fun (ht : P t) => ?_) (?_ : P t); rotate_left; subst t; rotate_right; clear_value t) | skip | skip)
    | lift_lets -underBinder
    | split

theorem enterDrain_keeps {P : State → Prop} (h : Stable [.out, .ctr, .nv, .pw, .pwAny, .pk, .notify, .sc, .ss, .tm, .fb, .sv, .se, .sl, .dx, .journal, .ev] P) (s : State) (hs : P s) : P (enterDrain s) := by
  have k1 := @State.setPkg_keeps P (h.mono rfl)
  have k2 := @settle_keeps P (h.mono rfl)
  have pUpwAny := h.pwAny rfl
  unfold enterDrain
  repeat'
    first
    | ((with_reducible apply PwSide.mk); first | exact id | (dsimp only at *; omega))
    | with_reducible assumption
    | rfl
    | (with_reducible apply k1)
    | (with_reducible apply k2)
    | (with_reducible apply ite_keeps (P := P))
    | (with_reducible apply foldl_keeps (P := P))
    | (refine fun (t : State) (ht : P t) => ?_)
    | (refine fun (_ : _) (t : State) (ht : P t) => ?_)
    | (with_reducible intro t; first | (refine (fun (ht : P t) => ?_) (?_ : P t); rotate_left; subst t; rotate_right; clear_value t) | skip | skip)
    | lift_lets -underBinder
    | split
    | (with_reducible apply pUpwAny)

theorem skipDrain_keeps {P : State → Prop} (h : Stable [.out, .ctr, .pwAny, .sl, .ev] P) (s : State) (hs : P s) : P (skipDrain s) := by
  have k1 := @State.drainFlush_keeps P (h.mono rfl)
  have pUpwAny := h.pwAny rfl
  unfold skipDrain
  repeat'
    first
    | ((with_reducible apply PwSide.mk); first | exact id | (dsimp only at *; omega))
    | with_reducible assumption
    | rfl
    | (with_reducible apply k1)
    | (with_reducible apply ite_keeps (P := P))
    | (with_reducible apply foldl_keeps (P := P))
    | (refine fun (t : State) (ht : P t) => ?_)
    | (refine fun (_ : _) (t : State) (ht : P t) => ?_)
    | (with_reducible intro t; first | (refine (fun (ht : P t) => ?_) (?_ : P t); rotate_left; subst t; rotate_right; clear_value t) | skip | skip)
    | lift_lets -underBinder
    | split
    | (with_reducible apply pUpwAny)

theorem leaveRemoveReady_keeps {P : State → Prop} (h : Stable [.ctr, .nvAny, .fn, .pwAny, .notify, .scAny, .dx, .mnAny, .ev] P) (s : State) (hs : P s) : P (leaveRemoveReady s) := by
  have k1 := @serveIfUp_keeps P (h.mono rfl)
  have k2 := @bringup_keeps P (h.mono rfl)
  have k3 := @State.setPkg_keeps P (h.mono rfl)
  unfold leaveRemoveReady
  repeat'
    first
    | with_reducible assumption
    | rfl
    | (with_reducible apply k1)
    | (with_reducible apply k2)
    | (with_reducible apply k3)
    | (with_reducible apply ite_keeps (P := P))
    | (with_reducible apply foldl_keeps (P := P))
    | (refine fun (t : State) (ht : P t) => ?_)
    | (refine fun (_ : _) (t : State) (ht : P t) => ?_)
    | (with_reducible intro t; first | (refine (fun (ht : P t) => ?_) (?_ : P t); rotate_left; subst t; rotate_right; clear_value t) | skip | skip)
    | lift_lets -underBinder
    | split

theorem removeRequest_keeps {P : State → Prop} (h : Stable [.out, .ctr, .nv, .nvAny, .fn, .pw, .pwAny, .pk, .notify, .sc, .scAny, .ss, .tm, .fb, .sv, .se, .sl, .dx, .journal, .mnAny, .ev] P) (a0 : _) (s : State) (hs : P s) : P (removeRequest a0 s) := by
  have k1 := @enterDrain_keeps P (h.mono rfl)
  have k2 := @skipDrain_keeps P (h.mono rfl)
  have k3 := @leaveRemoveReady_keeps P (h.mono rfl)
  have pUpwAny := h.pwAny rfl
  unfold removeRequest
  repeat'
    first
    | ((with_reducible apply PwSide.mk); first | exact id | (dsimp only at *; omega))
    | with_reducible assumption
    | rfl
    | (with_reducible apply k1)
    | (with_reducible apply k2)
    | (with_reducible apply k3)
    | (with_reducible apply ite_keeps (P := P))
    | (with_reducible apply foldl_keeps (P := P))
    | (refine fun (t : State) (ht : P t) => ?_)
    | (refine fun (_ : _) (t : State) (ht : P t) => ?_)
    | (with_reducible intro t; first | (refine (fun (ht : P t) => ?_) (?_ : P t); rotate_left; subst t; rotate_right; clear_value t) | skip | skip)
    | lift_lets -underBinder
    | split
    | (with_reducible apply pUpwAny)

theorem noteStop_keeps {P : State → Prop} (h : Stable [.ev] P) (a0 : _) (s : State) (hs : P s) : P (noteStop a0 s) := by
  have pEv := h.ev rfl
  unfold noteStop
  repeat'
    first
    | with_reducible assumption
    | rfl
    | (with_reducible apply pEv)
    | (with_reducible apply ite_keeps (P := P))
    | (with_reducible apply when_keeps (P := P))
    | (with_reducible apply foldl_keeps (P := P))
    | (refine fun (t : State) (ht : P t) => ?_)
    | (refine fun (_ : _) (t : State) (ht : P t) => ?_)
    | (with_reducible intro t; first | (refine (fun (ht : P t) => ?_) (?_ : P t); rotate_left; subst t; rotate_right; clear_value t) | skip | skip)
    | lift_lets -underBinder
    | split

theorem stopChannel_keeps {P : State → Prop} (h : Stable [.out, .ctr, .nv, .fn, .wfn, .pw, .pwAny, .pk, .notify, .sc, .ss, .tm, .fb, .sv, .tx, .se, .sl, .slAny, .dx, .fa, .journal, .mn, .mnAny, .ev] P) (a0 : _) (s : State) (hs : P s) : P (stopChannel a0 s) := by
  have k1 := @dropChild_keeps P (h.mono rfl)
  have k2 := @noteStop_keeps P (h.mono rfl)
  have k3 := @channelLeave_keeps P (h.mono rfl)
  have pFn := h.fn rfl
  unfold stopChannel
  repeat'
    first
    | with_reducible assumption
    | rfl
    | (with_reducible apply k1)
    | (with_reducible apply k2)
    | (with_reducible apply k3)
    | (with_reducible apply pFn)
    | (with_reducible apply ite_keeps (P := P))
    | (with_reducible apply each_keeps (P := P))
    | (with_reducible apply when_keeps (P := P))
    | (with_reducible apply foldl_keeps (P := P))
    | (refine fun (t : State) (ht : P t) => ?_)
    | (refine fun (_ : _) (t : State) (ht : P t) => ?_)
    | (with_reducible intro t; first | (refine (fun (ht : P t) => ?_) (?_ : P t); rotate_left; subst t; rotate_right; clear_value t) | skip | skip)
    | lift_lets -underBinder
    | split

theorem stopDomain_keeps {P : State → Prop} (h : Stable [.out, .fn, .notify, .dx, .mn, .mnAny, .ev] P) (a0 : _) (s : State) (hs : P s) : P (stopDomain a0 s) := by
  have k1 := @noteStop_keeps P (h.mono rfl)
  have k2 := @linkStopping_keeps P (h.mono rfl)
  have k3 := @linkOff_keeps P (h.mono rfl)
  have k4 := @dropMonitor_keeps P (h.mono rfl)
  have pFn := h.fn rfl
  unfold stopDomain
  repeat'
    first
    | with_reducible assumption
    | rfl
    | (with_reducible apply k1)
    | (with_reducible apply k2)
    | (with_reducible apply k3)
    | (with_reducible apply k4)
    | (with_reducible apply pFn)
    | (with_reducible apply ite_keeps (P := P))
    | (with_reducible apply each_keeps (P := P))
    | (with_reducible apply when_keeps (P := P))
    | (with_reducible apply foldl_keeps (P := P))
    | (refine fun (t : State) (ht : P t) => ?_)
    | (refine fun (_ : _) (t : State) (ht : P t) => ?_)
    | (with_reducible intro t; first | (refine (fun (ht : P t) => ?_) (?_ : P t); rotate_left; subst t; rotate_right; clear_value t) | skip | skip)
    | lift_lets -underBinder
    | split

theorem stopForRemoval_keeps {P : State → Prop} (h : Stable [.out, .ctr, .nv, .fn, .wfn, .pw, .pwAny, .pk, .notify, .sc, .ss, .tm, .fb, .sv, .tx, .se, .sl, .slAny, .dx, .fa, .journal, .mn, .mnAny, .ev] P) (s : State) (hs : P s) : P (stopForRemoval s) := by
  have k1 := @stopChannel_keeps P (h.mono rfl)
  have k2 := @stopDomain_keeps P (h.mono rfl)
  have pUtmfa := h.TmFa rfl rfl
  unfold stopForRemoval
  repeat'
    first
    | with_reducible assumption
    | rfl
    | (with_reducible apply k1)
    | (with_reducible apply k2)
    | (with_reducible refine pUtmfa _ _ _ (by rfl) (by with_reducible assumption))
    | (with_reducible apply ite_keeps (P := P))
    | (with_reducible apply each_keeps (P := P))
    | (with_reducible apply foldl_keeps (P := P))
    | (refine fun (t : State) (ht : P t) => ?_)
    | (refine fun (_ : _) (t : State) (ht : P t) => ?_)
    | (with_reducible intro t; first | (refine (fun (ht : P t) => ?_) (?_ : P t); rotate_left; subst t; rotate_right; clear_value t) | skip | skip)
    | lift_lets -underBinder
    | split
    | (with_reducible apply pUtmfa)

end Sys2Proof.Machine
end

