-- ==== Sys2Proof/Laws/KeepsWelrid.lean ====
section
/-! SUPPORT. What the operations of Machine/Welrid.lean can do to the state (`Laws/Keeps.lean`): one lemma per operation. -/

set_option linter.all false

namespace Sys2Proof.Machine

open Sys2Proof

theorem State.answer_keeps {P : State → Prop} (h : Stable [.out] P) (s : State) (a1 : _) (a2 : _) (a3 : _) (a4 : _) (a5 : _) (hs : P s) : P (State.answer s a1 a2 a3 a4 a5) := by
  have pOut := h.out rfl
  unfold State.answer
  repeat'
    first
    | with_reducible assumption
    | rfl
    | (with_reducible apply pOut)
    | (with_reducible apply ite_keeps (P := P))
    | (with_reducible apply foldl_keeps (P := P))
    | (refine fun (t : State) (ht : P t) => ?_)
    | (refine fun (_ : _) (t : State) (ht : P t) => ?_)
    | (with_reducible intro t; first | (refine (fun (ht : P t) => ?_) (?_ : P t); rotate_left; subst t; rotate_right; clear_value t) | skip | skip)
    | lift_lets -underBinder
    | split

theorem State.setAssoc_keeps {P : State → Prop} (h : Stable [.wr] P) (s : State) (a1 : _) (a2 : _) (hs : P s) : P (State.setAssoc s a1 a2) := by
  have pUwr := h.wr rfl
  unfold State.setAssoc
  repeat'
    first
    | with_reducible assumption
    | rfl
    | (with_reducible refine pUwr _ _ (by rfl) (by rfl) (by with_reducible assumption))
    | (with_reducible apply ite_keeps (P := P))
    | (with_reducible apply foldl_keeps (P := P))
    | (refine fun (t : State) (ht : P t) => ?_)
    | (refine fun (_ : _) (t : State) (ht : P t) => ?_)
    | (with_reducible intro t; first | (refine (fun (ht : P t) => ?_) (?_ : P t); rotate_left; subst t; rotate_right; clear_value t) | skip | skip)
    | lift_lets -underBinder
    | split
    | (with_reducible apply pUwr)

theorem endAssoc_keeps {P : State → Prop} (h : Stable [.wr] P) (a0 : _) (s : State) (hs : P s) : P (endAssoc a0 s) := by
  have pUwr := h.wr rfl
  unfold endAssoc
  repeat'
    first
    | with_reducible assumption
    | rfl
    | (with_reducible refine pUwr _ _ (by rfl) (by rfl) (by with_reducible assumption))
    | (with_reducible apply ite_keeps (P := P))
    | (with_reducible apply foldl_keeps (P := P))
    | (refine fun (t : State) (ht : P t) => ?_)
    | (refine fun (_ : _) (t : State) (ht : P t) => ?_)
    | (with_reducible intro t; first | (refine (fun (ht : P t) => ?_) (?_ : P t); rotate_left; subst t; rotate_right; clear_value t) | skip | skip)
    | lift_lets -underBinder
    | split
    | (with_reducible apply pUwr)

theorem welridRequest_keeps {P : State → Prop} (h : Stable [.out, .ctr, .wr] P) (a0 : _) (a1 : _) (a2 : _) (s : State) (ha : ActOk P a2) (hs : P s) : P (welridRequest a0 a1 a2 s) := by
  have k1 := @State.answer_keeps P (h.mono rfl)
  have k2 := @State.setAssoc_keeps P (h.mono rfl)
  have k3 := @endAssoc_keeps P (h.mono rfl)
  have ki := h.ctrInc rfl
  have hr : ∀ (a : Assoc), P (match headerErr a0 with | some r => (r, s, (id : State → State)) | none => a2 a s).2.1 ∧
      ∀ u, P u → P ((match headerErr a0 with | some r => (r, s, (id : State → State)) | none => a2 a s).2.2 u) := by
    intro a
    split
    · exact ActOk.err hs
    · exact ha a s hs
  unfold welridRequest
  extract_lets go
  have hg : ∀ a : Assoc, P (go a).2.1 ∧ ∀ u, P u → P ((go a).2.2 u) := hr
  clear_value go
  split
  · exact hs
  · split
    · exact ki _ _ _ _ _ rfl hs
    · split
      · split
        · exact (hg _).2 _ (k1 _ _ _ _ _ _ (hg _).1)
        · exact k1 _ _ _ _ _ _ hs
      · split
        · exact ki _ _ _ _ _ rfl hs
        · split
          · exact k1 _ _ _ _ _ _ (k2 _ _ _ hs)
          · split
            · exact ki _ _ _ _ _ rfl hs
            · exact (hg _).2 _ (when_keeps (P := P) (fun t ht => k3 _ _ ht) (k1 _ _ _ _ _ _ (k2 _ _ _ (hg _).1)))

theorem readAct_keeps {P : State → Prop} (h : Stable [] P) (a0 : _) (a1 : _) : ActOk P (readAct a0 a1) := by
  intro a s hs
  unfold readAct
  dsimp only
  split
  · exact ActOk.err hs
  · split <;> exact ActOk.err hs

theorem notifyFlow_keeps {P : State → Prop} (h : Stable [.out, .ctr, .notify, .ss, .sl, .ev] P) (a0 : _) (a1 : _) (s : State) (hs : P s) : P (notifyFlow a0 a1 s) := by
  have k1 := @State.release_keeps P (h.mono rfl)
  have k2 := @State.setCq_keeps P (h.mono rfl)
  unfold notifyFlow
  repeat'
    first
    | with_reducible assumption
    | rfl
    | (with_reducible apply k1)
    | (with_reducible apply k2)
    | (with_reducible apply ite_keeps (P := P))
    | (with_reducible apply foldl_keeps (P := P))
    | (refine fun (t : State) (ht : P t) => ?_)
    | (refine fun (_ : _) (t : State) (ht : P t) => ?_)
    | (with_reducible intro t; first | (refine (fun (ht : P t) => ?_) (?_ : P t); rotate_left; subst t; rotate_right; clear_value t) | skip | skip)
    | lift_lets -underBinder
    | split

theorem draftSlot_keeps {P : State → Prop} (h : Stable [.reg, .ss] P) (a0 : _) (a1 : _) (s : State) (hs : P s) : P (draftSlot a0 a1 s) := by
  have k1 := @State.setSess_keeps P (h.mono rfl)
  have pSet := h.reg rfl
  unfold draftSlot
  repeat'
    first
    | with_reducible assumption
    | rfl
    | (with_reducible apply k1)
    | (with_reducible apply pSet)
    | (with_reducible apply ite_keeps (P := P))
    | (with_reducible apply each_keeps (P := P))
    | (with_reducible apply foldl_keeps (P := P))
    | (refine fun (t : State) (ht : P t) => ?_)
    | (refine fun (_ : _) (t : State) (ht : P t) => ?_)
    | (with_reducible intro t; first | (refine (fun (ht : P t) => ?_) (?_ : P t); rotate_left; subst t; rotate_right; clear_value t) | skip | skip)
    | lift_lets -underBinder
    | split

theorem tileGroups_keeps {P : State → Prop} (h : Stable [.reg, .fb, .sv] P) (a0 : _) (a1 : _) (s : State) (hs : P s) : P (tileGroups a0 a1 s) := by
  have k1 := @applyGroups_keeps P (h.mono rfl)
  have pSet := h.reg rfl
  unfold tileGroups
  repeat'
    first
    | with_reducible assumption
    | rfl
    | (with_reducible apply k1)
    | (with_reducible apply pSet)
    | (with_reducible apply ite_keeps (P := P))
    | (with_reducible apply when_keeps (P := P))
    | (with_reducible apply foldl_keeps (P := P))
    | (refine fun (t : State) (ht : P t) => ?_)
    | (refine fun (_ : _) (t : State) (ht : P t) => ?_)
    | (with_reducible intro t; first | (refine (fun (ht : P t) => ?_) (?_ : P t); rotate_left; subst t; rotate_right; clear_value t) | skip | skip)
    | lift_lets -underBinder
    | split

theorem attestNonce_keeps {P : State → Prop} (h : Stable [.wr, .scAny] P) (a0 : _) (a1 : _) (s : State) (hs : P s) : P (attestNonce a0 a1 s) := by
  have k1 := @State.newKey_keeps P (h.mono rfl)
  have k2 := @State.setDomSec_keeps P (h.mono rfl)
  unfold attestNonce
  repeat'
    first
    | with_reducible assumption
    | rfl
    | (with_reducible apply k1)
    | (with_reducible apply k2)
    | (with_reducible apply iteP_keeps (P := P))
    | (with_reducible apply ite_keeps (P := P))
    | (with_reducible apply foldl_keeps (P := P))
    | (with_reducible apply foldP_keeps (P := P))
    | (refine OkP.get (P := P) (by with_reducible assumption) ?_)
    | (with_reducible apply OkP.snd (P := P))
    | (refine fun (t : State) (ht : P t) => ?_)
    | (refine fun (_ : _) (t : State) (ht : P t) => ?_)
    | (with_reducible intro t; first | (refine (fun (ht : P t) => ?_) (?_ : P t); rotate_left; subst t; rotate_right; clear_value t) | skip | skip)
    | lift_lets -underBinder
    | split
    | (with_reducible apply OkP.mk (P := P))

theorem regionWrite_keeps {P : State → Prop} (h : Stable [.reg, .tm] P) (a0 : _) (a1 : _) (a2 : _) (a3 : _) (s : State) (hs : P s) : P (regionWrite a0 a1 a2 a3 s) := by
  have pSet := h.reg rfl
  have pUtm := h.tm rfl
  unfold regionWrite
  repeat'
    first
    | with_reducible assumption
    | rfl
    | (with_reducible apply pSet)
    | (with_reducible refine pUtm _ _ (by with_reducible assumption))
    | (with_reducible apply ite_keeps (P := P))
    | (with_reducible apply foldl_keeps (P := P))
    | (refine fun (t : State) (ht : P t) => ?_)
    | (refine fun (_ : _) (t : State) (ht : P t) => ?_)
    | (with_reducible intro t; first | (refine (fun (ht : P t) => ?_) (?_ : P t); rotate_left; subst t; rotate_right; clear_value t) | skip | skip)
    | lift_lets -underBinder
    | split
    | (with_reducible apply pUtm)

theorem roleSecret_keeps {P : State → Prop} (h : Stable [.reg, .nvAny] P) (a0 : _) (a1 : _) (s : State) (hs : P s) : P (roleSecret a0 a1 s) := by
  have pSet := h.reg rfl
  have pUnvAny := h.nvAny rfl
  unfold roleSecret
  repeat'
    first
    | ((with_reducible apply NvSide.mk); first | exact ⟨Nat.le_refl _, id⟩ | exact ⟨Nat.le_max_left _ _, id⟩ | exact ⟨Nat.le_refl _, fun _ => rfl⟩ | (split <;> exact ⟨Nat.le_refl _, id⟩))
    | with_reducible assumption
    | rfl
    | (with_reducible apply pSet)
    | (with_reducible apply ite_keeps (P := P))
    | (with_reducible apply foldl_keeps (P := P))
    | (refine fun (t : State) (ht : P t) => ?_)
    | (refine fun (_ : _) (t : State) (ht : P t) => ?_)
    | (with_reducible intro t; first | (refine (fun (ht : P t) => ?_) (?_ : P t); rotate_left; subst t; rotate_right; clear_value t) | skip | skip)
    | lift_lets -underBinder
    | split
    | (with_reducible apply pUnvAny)

theorem State.special_keeps {P : State → Prop} (h : Stable [.out, .ctr, .reg, .nv, .nvAny, .fn, .pw, .pwAny, .pk, .wr, .notify, .sc, .scAny, .ss, .tm, .fb, .sv, .se, .sl, .et, .dx, .journal, .mnAny, .ev] P) (s : State) (a1 : _) (a2 : _) (a3 : _) (a4 : _) (hs : P s) : OkO P (State.special s a1 a2 a3 a4) := by
  have k1 := @roleSecret_keeps P (h.mono rfl)
  have k2 := @removeRequest_keeps P (h.mono rfl)
  have k3 := @startBarrier_keeps P (h.mono rfl)
  have k4 := @confirmFirmware_keeps P (h.mono rfl)
  have k5 := @attestNonce_keeps P (h.mono rfl)
  have k6 := @eraseKeys_keeps P (h.mono rfl)
  have k7 := @tileGroups_keeps P (h.mono rfl)
  have k8 := @clearFences_keeps P (h.mono rfl)
  have k9 := @State.adjustTokens_keeps P (h.mono rfl)
  have k10 := @State.settleBudget_keeps P (h.mono rfl)
  have k11 := @draftSlot_keeps P (h.mono rfl)
  have k12 := @notifyFlow_keeps P (h.mono rfl)
  have k13 := @State.release_keeps P (h.mono rfl)
  have k14 := @regionWrite_keeps P (h.mono rfl)
  have k15 := @State.passHeld_keeps P (h.mono rfl)
  have k16 := @State.routeWaiting_keeps P (h.mono rfl)
  have pSet := h.reg rfl
  have pStore := h.store rfl
  have pUnvAny := h.nvAny rfl
  have pUet := h.et rfl
  unfold State.special
  repeat'
    first
    | ((with_reducible apply NvSide.mk); first | exact ⟨Nat.le_refl _, id⟩ | exact ⟨Nat.le_max_left _ _, id⟩ | exact ⟨Nat.le_refl _, fun _ => rfl⟩ | (split <;> exact ⟨Nat.le_refl _, id⟩))
    | with_reducible assumption
    | rfl
    | (with_reducible apply k1)
    | (with_reducible apply k2)
    | (with_reducible apply k3)
    | (with_reducible apply k4)
    | (with_reducible apply k5)
    | (with_reducible apply k6)
    | (with_reducible apply k7)
    | (with_reducible apply k8)
    | (with_reducible apply k9)
    | (with_reducible apply k10)
    | (with_reducible apply k11)
    | (with_reducible apply k12)
    | (with_reducible apply k13)
    | (with_reducible apply k14)
    | (with_reducible apply k15)
    | (with_reducible apply k16)
    | (with_reducible apply pSet)
    | (with_reducible apply pStore)
    | (with_reducible refine pUet _ _ (by with_reducible assumption))
    | (with_reducible apply OkOpt.some)
    | (with_reducible apply OkOpt.none)
    | (with_reducible apply iteOpt_keeps)
    | (with_reducible apply OkOpt.map)
    | (with_reducible apply OkOpt.bind)
    | (with_reducible apply OkOpt.find)
    | (with_reducible apply OkOpt.fold)
    | (with_reducible apply OkOpt.getD (P := P))
    | (with_reducible apply ite_keeps (P := P))
    | (with_reducible apply foldl_keeps (P := P))
    | (refine OkO.get (P := P) (by with_reducible assumption) ?_)
    | (refine OkOP.get (P := P) (by with_reducible assumption) ?_)
    | (refine OkOPP.get (P := P) (by with_reducible assumption) ?_)
    | (refine fun (t : State) (ht : P t) => ?_)
    | (refine fun (_ : _) (t : State) (ht : P t) => ?_)
    | (with_reducible intro t; first | (refine (fun (ht : P t) => ?_) (?_ : P t); rotate_left; subst t; rotate_right; clear_value t) | skip | skip)
    | lift_lets -underBinder
    | split
    | (with_reducible apply pUnvAny)
    | (with_reducible apply pUet)
    | exact OkOpt.any

theorem applyOne_keeps {P : State → Prop} (h : Stable [.out, .ctr, .reg, .nv, .nvAny, .fn, .wfn, .pw, .pwAny, .pk, .wr, .notify, .sc, .scAny, .ss, .tm, .fb, .sv, .tx, .se, .sl, .slAny, .et, .dx, .fa, .journal, .mn, .mnAny, .ev] P) (a0 : _) (a1 : _) (a2 : _) (a3 : _) (s : State) (hs : P s) : P (applyOne a0 a1 a2 a3 s) := by
  have k1 := @State.keepSched_keeps P (h.mono rfl)
  have k2 := @request_keeps P (h.mono rfl)
  have k3 := @State.special_keeps P (h.mono rfl)
  have pSet := h.reg rfl
  have pStore := h.store rfl
  unfold applyOne
  repeat'
    first
    | with_reducible assumption
    | rfl
    | (with_reducible apply k1)
    | (with_reducible apply k2)
    | (with_reducible apply k3)
    | (with_reducible apply pSet)
    | (with_reducible apply pStore)
    | (with_reducible apply OkOpt.some)
    | (with_reducible apply OkOpt.none)
    | (with_reducible apply iteOpt_keeps)
    | (with_reducible apply OkOpt.map)
    | (with_reducible apply OkOpt.bind)
    | (with_reducible apply OkOpt.find)
    | (with_reducible apply OkOpt.fold)
    | (with_reducible apply OkOpt.getD (P := P))
    | (with_reducible apply ite_keeps (P := P))
    | (with_reducible apply when_keeps (P := P))
    | (with_reducible apply foldl_keeps (P := P))
    | (refine OkO.get (P := P) (by with_reducible assumption) ?_)
    | (refine OkOP.get (P := P) (by with_reducible assumption) ?_)
    | (refine OkOPP.get (P := P) (by with_reducible assumption) ?_)
    | (refine fun (t : State) (ht : P t) => ?_)
    | (refine fun (_ : _) (t : State) (ht : P t) => ?_)
    | (with_reducible intro t; first | (refine (fun (ht : P t) => ?_) (?_ : P t); rotate_left; subst t; rotate_right; clear_value t) | skip | skip)
    | lift_lets -underBinder
    | split
    | exact OkOpt.any

theorem applyItem_keeps {P : State → Prop} (h : Stable [.out, .ctr, .reg, .nv, .nvAny, .fn, .wfn, .pw, .pwAny, .pk, .wr, .notify, .sc, .scAny, .ss, .tm, .fb, .sv, .tx, .se, .sl, .slAny, .et, .dx, .fa, .journal, .mn, .mnAny, .ev] P) (a0 : _) (a1 : _) (a2 : _) (s : State) (hs : P s) : P (applyItem a0 a1 a2 s) := by
  have k1 := @State.setAssoc_keeps P (h.mono rfl)
  have k2 := @applyOne_keeps P (h.mono rfl)
  unfold applyItem
  repeat'
    first
    | with_reducible assumption
    | rfl
    | (with_reducible apply k1)
    | (with_reducible apply k2)
    | (with_reducible apply ite_keeps (P := P))
    | (with_reducible apply each_keeps (P := P))
    | (with_reducible apply foldl_keeps (P := P))
    | (refine fun (t : State) (ht : P t) => ?_)
    | (refine fun (_ : _) (t : State) (ht : P t) => ?_)
    | (with_reducible intro t; first | (refine (fun (ht : P t) => ?_) (?_ : P t); rotate_left; subst t; rotate_right; clear_value t) | skip | skip)
    | lift_lets -underBinder
    | split

theorem applyItems_keeps {P : State → Prop} (h : Stable [.out, .ctr, .reg, .nv, .nvAny, .fn, .wfn, .pw, .pwAny, .pk, .wr, .notify, .sc, .scAny, .ss, .tm, .fb, .sv, .tx, .se, .sl, .slAny, .et, .dx, .fa, .journal, .mn, .mnAny, .ev] P) (a0 : _) (a1 : _) (a2 : _) (s : State) (hs : P s) : P (applyItems a0 a1 a2 s) := by
  have k1 := @applyItem_keeps P (h.mono rfl)
  induction a2 generalizing a1 s with
  | nil =>
    unfold applyItems
    repeat'
      first
      | with_reducible assumption
      | rfl
      | (with_reducible apply k1)
      | (with_reducible apply ite_keeps (P := P))
      | (with_reducible apply foldl_keeps (P := P))
      | (refine fun (t : State) (ht : P t) => ?_)
      | (refine fun (_ : _) (t : State) (ht : P t) => ?_)
      | (with_reducible intro t; first | (refine (fun (ht : P t) => ?_) (?_ : P t); rotate_left; subst t; rotate_right; clear_value t) | skip | skip)
      | lift_lets -underBinder
      | split
  | cons b l ih =>
    unfold applyItems
    repeat'
      first
      | with_reducible assumption
      | rfl
      | (with_reducible apply ih)
      | (with_reducible apply k1)
      | (with_reducible apply ite_keeps (P := P))
      | (with_reducible apply foldl_keeps (P := P))
      | (refine fun (t : State) (ht : P t) => ?_)
      | (refine fun (_ : _) (t : State) (ht : P t) => ?_)
      | (with_reducible intro t; first | (refine (fun (ht : P t) => ?_) (?_ : P t); rotate_left; subst t; rotate_right; clear_value t) | skip | skip)
      | lift_lets -underBinder
      | split

theorem afterWrite_keeps {P : State → Prop} (h : Stable [.regs, .ctr, .reg, .nvAny, .fn, .off, .pwAny, .pkAny, .wr, .notify, .scAny, .tm, .sv, .sl, .dx, .journal, .mnAny, .ev] P) (a0 : _) (s : State) (hs : P s) : P (afterWrite a0 s) := by
  have k1 := @endAssoc_keeps P (h.mono rfl)
  have k2 := @coldReset_keeps P (h.mono rfl)
  unfold afterWrite
  repeat'
    first
    | with_reducible assumption
    | rfl
    | (with_reducible apply k1)
    | (with_reducible apply k2)
    | (with_reducible apply ite_keeps (P := P))
    | (with_reducible apply each_keeps (P := P))
    | (with_reducible apply when_keeps (P := P))
    | (with_reducible apply foldl_keeps (P := P))
    | (refine fun (t : State) (ht : P t) => ?_)
    | (refine fun (_ : _) (t : State) (ht : P t) => ?_)
    | (with_reducible intro t; first | (refine (fun (ht : P t) => ?_) (?_ : P t); rotate_left; subst t; rotate_right; clear_value t) | skip | skip)
    | lift_lets -underBinder
    | split

theorem writeAct_keeps {P : State → Prop} (h : Stable [.out, .regs, .ctr, .reg, .nv, .nvAny, .fn, .wfn, .off, .pw, .pwAny, .pk, .pkAny, .wr, .notify, .sc, .scAny, .ss, .tm, .fb, .sv, .tx, .se, .sl, .slAny, .et, .dx, .fa, .journal, .mn, .mnAny, .ev] P) (a0 : _) (a1 : _) : ActOk P (writeAct a0 a1) := by
  have k1 := @applyItems_keeps P (h.mono rfl)
  have k2 := @settle_keeps P (h.mono rfl)
  have k3 := @afterWrite_keeps P (h.mono rfl)
  intro a s hs
  unfold writeAct
  generalize (if a0 = true then none else findIdx? persists a1) = q
  split
  · exact ActOk.err hs
  · split
    · exact ActOk.err hs
    · cases q with
      | some n => exact ActOk.err (r := wErr 0x11 n _) hs
      | none => dsimp only; exact ⟨k2 _ (k1 _ _ _ _ hs), fun u hu => k3 _ _ hu⟩

theorem welridWrite_keeps {P : State → Prop} (h : Stable [.out, .regs, .ctr, .reg, .nv, .nvAny, .fn, .wfn, .off, .pw, .pwAny, .pk, .pkAny, .wr, .notify, .sc, .scAny, .ss, .tm, .fb, .sv, .tx, .se, .sl, .slAny, .et, .dx, .fa, .journal, .mn, .mnAny, .ev] P) (a0 : _) (a1 : _) (s : State) (hs : P s) : P (welridWrite a0 a1 s) := by
  have k1 := @welridRequest_keeps P (h.mono rfl)
  have k2 := @writeAct_keeps P (h.mono rfl)
  unfold welridWrite
  repeat'
    first
    | with_reducible assumption
    | rfl
    | (with_reducible apply k1)
    | (with_reducible apply k2)
    | (with_reducible apply ite_keeps (P := P))
    | (with_reducible apply foldl_keeps (P := P))
    | (refine fun (t : State) (ht : P t) => ?_)
    | (refine fun (_ : _) (t : State) (ht : P t) => ?_)
    | (with_reducible intro t; first | (refine (fun (ht : P t) => ?_) (?_ : P t); rotate_left; subst t; rotate_right; clear_value t) | skip | skip)
    | lift_lets -underBinder
    | split
    | (with_reducible apply OkM.mk (P := P))

theorem State.dropSnap_keeps {P : State → Prop} (h : Stable [.wr] P) (s : State) (a1 : _) (a2 : _) (hs : P s) : P (State.dropSnap s a1 a2) := by
  have pUwr := h.wr rfl
  unfold State.dropSnap
  repeat'
    first
    | with_reducible assumption
    | rfl
    | (with_reducible refine pUwr _ _ (by rfl) (by rfl) (by with_reducible assumption))
    | (with_reducible apply ite_keeps (P := P))
    | (with_reducible apply when_keeps (P := P))
    | (with_reducible apply foldl_keeps (P := P))
    | (refine fun (t : State) (ht : P t) => ?_)
    | (refine fun (_ : _) (t : State) (ht : P t) => ?_)
    | (with_reducible intro t; first | (refine (fun (ht : P t) => ?_) (?_ : P t); rotate_left; subst t; rotate_right; clear_value t) | skip | skip)
    | lift_lets -underBinder
    | split
    | (with_reducible apply pUwr)

theorem readBlockAct_keeps {P : State → Prop} (h : Stable [.wr] P) (a0 : _) (a1 : _) (a2 : _) : ActOk P (readBlockAct a0 a1 a2) := by
  intro a s hs
  have hd : P (s.dropSnap a1 a) := when_keeps (P := P) (fun t ht => h.wr rfl t _ rfl rfl ht) hs
  unfold readBlockAct
  extract_lets u others own snap x
  have hu : P u := hd
  clear_value snap own others
  subst x
  clear_value u
  split
  · exact ActOk.err hu
  · cases snap with
    | none => exact ActOk.err (r := wErr 0x05 0xFF _) hu
    | some e =>
      dsimp only
      split
      · exact ActOk.err hu
      · split
        · exact ActOk.err hu
        · exact ActOk.err (h.wr rfl u _ rfl rfl hu)

theorem fwImage_keeps {P : State → Prop} (h : Stable [.ctr, .nvAny] P) (a0 : _) (a1 : _) (s : State) (hs : P s) : OkP P (fwImage a0 a1 s) := by
  have pStore := h.store rfl
  have pUnvAny := h.nvAny rfl
  unfold fwImage
  repeat'
    first
    | ((with_reducible apply NvSide.mk); first | exact ⟨Nat.le_refl _, id⟩ | exact ⟨Nat.le_max_left _ _, id⟩ | exact ⟨Nat.le_refl _, fun _ => rfl⟩ | (split <;> exact ⟨Nat.le_refl _, id⟩))
    | with_reducible assumption
    | rfl
    | (with_reducible apply pStore)
    | (with_reducible apply iteP_keeps (P := P))
    | (with_reducible apply ite_keeps (P := P))
    | (with_reducible apply foldl_keeps (P := P))
    | (with_reducible apply foldP_keeps (P := P))
    | (refine OkP.get (P := P) (by with_reducible assumption) ?_)
    | (with_reducible apply OkP.snd (P := P))
    | (refine fun (t : State) (ht : P t) => ?_)
    | (refine fun (_ : _) (t : State) (ht : P t) => ?_)
    | (with_reducible intro t; first | (refine (fun (ht : P t) => ?_) (?_ : P t); rotate_left; subst t; rotate_right; clear_value t) | subst t | skip)
    | lift_lets -underBinder
    | split
    | (with_reducible apply pUnvAny)
    | (with_reducible apply OkP.mk (P := P))

theorem keyCapsule_keeps {P : State → Prop} (h : Stable [.ctr, .nvAny, .notify, .scAny, .ev] P) (a0 : _) (a1 : _) (a2 : _) (s : State) (hs : P s) : OkP P (keyCapsule a0 a1 a2 s) := by
  have k1 := @State.applyCapsule_keeps P (h.mono rfl)
  have k2 := @dropPendingKey_keeps P (h.mono rfl)
  unfold keyCapsule
  repeat'
    first
    | with_reducible assumption
    | rfl
    | (with_reducible apply k1)
    | (with_reducible apply k2)
    | (with_reducible apply iteP_keeps (P := P))
    | (with_reducible apply ite_keeps (P := P))
    | (with_reducible apply foldl_keeps (P := P))
    | (with_reducible apply foldP_keeps (P := P))
    | (refine OkP.get (P := P) (by with_reducible assumption) ?_)
    | (with_reducible apply OkP.snd (P := P))
    | (refine fun (t : State) (ht : P t) => ?_)
    | (refine fun (_ : _) (t : State) (ht : P t) => ?_)
    | (with_reducible intro t; first | (refine (fun (ht : P t) => ?_) (?_ : P t); rotate_left; subst t; rotate_right; clear_value t) | skip | skip)
    | lift_lets -underBinder
    | split
    | (with_reducible apply OkP.mk (P := P))

theorem configureFlow_keeps {P : State → Prop} (h : Stable [.out, .ctr, .nvAny, .notify, .ss, .tm, .fb, .sl, .ev] P) (a0 : _) (a1 : _) (s : State) (hs : P s) : P (configureFlow a0 a1 s) := by
  have k1 := @State.abortOps_keeps P (h.mono rfl)
  have k2 := @State.setFlow_keeps P (h.mono rfl)
  have pStore := h.store rfl
  have pUnvAny := h.nvAny rfl
  unfold configureFlow
  repeat'
    first
    | ((with_reducible apply NvSide.mk); first | exact ⟨Nat.le_refl _, id⟩ | exact ⟨Nat.le_max_left _ _, id⟩ | exact ⟨Nat.le_refl _, fun _ => rfl⟩ | (split <;> exact ⟨Nat.le_refl _, id⟩))
    | with_reducible assumption
    | rfl
    | (with_reducible apply k1)
    | (with_reducible apply k2)
    | (with_reducible apply pStore)
    | (with_reducible apply ite_keeps (P := P))
    | (with_reducible apply foldl_keeps (P := P))
    | (refine fun (t : State) (ht : P t) => ?_)
    | (refine fun (_ : _) (t : State) (ht : P t) => ?_)
    | (with_reducible intro t; first | (refine (fun (ht : P t) => ?_) (?_ : P t); rotate_left; subst t; rotate_right; clear_value t) | skip | skip)
    | lift_lets -underBinder
    | split
    | (with_reducible apply pUnvAny)

theorem removeFlow_keeps {P : State → Prop} (h : Stable [.out, .ctr, .nvAny, .notify, .ss, .tm, .fb, .sl, .ev] P) (a0 : _) (s : State) (hs : P s) : P (removeFlow a0 s) := by
  have k1 := @State.setFlow_keeps P (h.mono rfl)
  have k2 := @State.abortOps_keeps P (h.mono rfl)
  have pStore := h.store rfl
  have pUnvAny := h.nvAny rfl
  unfold removeFlow
  repeat'
    first
    | ((with_reducible apply NvSide.mk); first | exact ⟨Nat.le_refl _, id⟩ | exact ⟨Nat.le_max_left _ _, id⟩ | exact ⟨Nat.le_refl _, fun _ => rfl⟩ | (split <;> exact ⟨Nat.le_refl _, id⟩))
    | with_reducible assumption
    | rfl
    | (with_reducible apply k1)
    | (with_reducible apply k2)
    | (with_reducible apply pStore)
    | (with_reducible apply ite_keeps (P := P))
    | (with_reducible apply foldl_keeps (P := P))
    | (refine fun (t : State) (ht : P t) => ?_)
    | (refine fun (_ : _) (t : State) (ht : P t) => ?_)
    | (with_reducible intro t; first | (refine (fun (ht : P t) => ?_) (?_ : P t); rotate_left; subst t; rotate_right; clear_value t) | skip | skip)
    | lift_lets -underBinder
    | split
    | (with_reducible apply pUnvAny)

theorem flowConfig_keeps {P : State → Prop} (h : Stable [.out, .ctr, .nv, .nvAny, .pw, .pwAny, .pk, .notify, .sc, .ss, .tm, .fb, .sv, .se, .sl, .dx, .journal, .ev] P) (a0 : _) (a1 : _) (s : State) (hs : P s) : OkP P (flowConfig a0 a1 s) := by
  have k1 := @settle_keeps P (h.mono rfl)
  have k2 := @configureFlow_keeps P (h.mono rfl)
  have k3 := @removeFlow_keeps P (h.mono rfl)
  unfold flowConfig
  repeat'
    first
    | with_reducible assumption
    | rfl
    | (with_reducible apply k1)
    | (with_reducible apply k2)
    | (with_reducible apply k3)
    | (with_reducible apply iteP_keeps (P := P))
    | (with_reducible apply ite_keeps (P := P))
    | (with_reducible apply foldl_keeps (P := P))
    | (with_reducible apply foldP_keeps (P := P))
    | (refine OkP.get (P := P) (by with_reducible assumption) ?_)
    | (with_reducible apply OkP.snd (P := P))
    | (refine fun (t : State) (ht : P t) => ?_)
    | (refine fun (_ : _) (t : State) (ht : P t) => ?_)
    | (with_reducible intro t; first | (refine (fun (ht : P t) => ?_) (?_ : P t); rotate_left; subst t; rotate_right; clear_value t) | skip | skip)
    | lift_lets -underBinder
    | split
    | (with_reducible apply OkP.mk (P := P))

theorem memberTable_keeps {P : State → Prop} (h : Stable [.out, .ctr, .reg, .nv, .fn, .wfn, .pw, .pwAny, .pk, .notify, .sc, .scAny, .ss, .tm, .fb, .sv, .tx, .se, .sl, .slAny, .et, .dx, .fa, .journal, .mn, .mnAny, .ev] P) (a0 : _) (a1 : _) (s : State) (hs : P s) : OkP P (memberTable a0 a1 s) := by
  have k1 := @memberApply_keeps P (h.mono rfl)
  have pStore := h.store rfl
  unfold memberTable
  repeat'
    first
    | with_reducible assumption
    | rfl
    | (with_reducible apply k1)
    | (with_reducible apply pStore)
    | (with_reducible apply iteP_keeps (P := P))
    | (with_reducible apply ite_keeps (P := P))
    | (with_reducible apply foldl_keeps (P := P))
    | (with_reducible apply foldP_keeps (P := P))
    | (refine OkP.get (P := P) (by with_reducible assumption) ?_)
    | (with_reducible apply OkP.snd (P := P))
    | (refine fun (t : State) (ht : P t) => ?_)
    | (refine fun (_ : _) (t : State) (ht : P t) => ?_)
    | (with_reducible intro t; first | (refine (fun (ht : P t) => ?_) (?_ : P t); rotate_left; subst t; rotate_right; clear_value t) | skip | skip)
    | lift_lets -underBinder
    | split
    | (with_reducible apply OkP.mk (P := P))

theorem writeContent_keeps {P : State → Prop} (h : Stable [.out, .ctr, .reg, .nv, .nvAny, .fn, .wfn, .pw, .pwAny, .pk, .notify, .sc, .scAny, .ss, .tm, .fb, .sv, .tx, .se, .sl, .slAny, .et, .dx, .fa, .journal, .mn, .mnAny, .ev] P) (a0 : _) (a1 : _) (a2 : _) (a3 : _) (s : State) (hs : P s) : OkP P (writeContent a0 a1 a2 a3 s) := by
  have k1 := @fwImage_keeps P (h.mono rfl)
  have k2 := @keyCapsule_keeps P (h.mono rfl)
  have k3 := @flowConfig_keeps P (h.mono rfl)
  have k4 := @memberTable_keeps P (h.mono rfl)
  unfold writeContent
  repeat'
    first
    | with_reducible assumption
    | rfl
    | (with_reducible apply k1)
    | (with_reducible apply k2)
    | (with_reducible apply k3)
    | (with_reducible apply k4)
    | (with_reducible apply iteP_keeps (P := P))
    | (with_reducible apply ite_keeps (P := P))
    | (with_reducible apply foldl_keeps (P := P))
    | (with_reducible apply foldP_keeps (P := P))
    | (refine OkP.get (P := P) (by with_reducible assumption) ?_)
    | (with_reducible apply OkP.snd (P := P))
    | (refine fun (t : State) (ht : P t) => ?_)
    | (refine fun (_ : _) (t : State) (ht : P t) => ?_)
    | (with_reducible intro t; first | (refine (fun (ht : P t) => ?_) (?_ : P t); rotate_left; subst t; rotate_right; clear_value t) | skip | skip)
    | lift_lets -underBinder
    | split
    | (with_reducible apply OkP.mk (P := P))

theorem writeBlockAct_keeps {P : State → Prop} (h : Stable [.out, .ctr, .reg, .nv, .nvAny, .fn, .wfn, .pw, .pwAny, .pk, .wr, .notify, .sc, .scAny, .ss, .tm, .fb, .sv, .tx, .se, .sl, .slAny, .et, .dx, .fa, .journal, .mn, .mnAny, .ev] P) (a0 : _) (a1 : _) : ActOk P (writeBlockAct a0 a1) := by
  have k1 := @writeContent_keeps P (h.mono rfl)
  intro a s hs
  constructor
  · unfold writeBlockAct
    repeat'
      first
      | (with_reducible intro t)
      | lift_lets -underBinder
      | split
      | exact hs
      | exact h.wr rfl s _ rfl rfl hs
      | exact k1 _ _ _ _ _ (h.wr rfl s _ rfl rfl hs)
      | exact h.wr rfl _ _ rfl rfl (h.wr rfl s _ rfl rfl hs)
  · intro u hu
    unfold writeBlockAct
    repeat'
      first
      | (with_reducible intro t)
      | lift_lets -underBinder
      | split
      | exact hu

theorem welridBlock_keeps {P : State → Prop} (h : Stable [.out, .ctr, .reg, .nv, .nvAny, .fn, .wfn, .pw, .pwAny, .pk, .wr, .notify, .sc, .scAny, .ss, .tm, .fb, .sv, .tx, .se, .sl, .slAny, .et, .dx, .fa, .journal, .mn, .mnAny, .ev] P) (a0 : _) (a1 : _) (s : State) (hs : P s) : P (welridBlock a0 a1 s) := by
  have k1 := @welridRequest_keeps P (h.mono rfl)
  have k2 := @writeBlockAct_keeps P (h.mono rfl)
  unfold welridBlock
  repeat'
    first
    | with_reducible assumption
    | rfl
    | (with_reducible apply k1)
    | (with_reducible apply k2)
    | (with_reducible apply ite_keeps (P := P))
    | (with_reducible apply foldl_keeps (P := P))
    | (refine fun (t : State) (ht : P t) => ?_)
    | (refine fun (_ : _) (t : State) (ht : P t) => ?_)
    | (with_reducible intro t; first | (refine (fun (ht : P t) => ?_) (?_ : P t); rotate_left; subst t; rotate_right; clear_value t) | skip | skip)
    | lift_lets -underBinder
    | split
    | (with_reducible apply OkM.mk (P := P))

theorem challenge_keeps {P : State → Prop} (h : Stable [.out, .wr, .notify, .scAny, .ev] P) (a0 : _) (a1 : _) (a2 : _) (a3 : _) (a4 : _) (s : State) (hs : P s) : P (challenge a0 a1 a2 a3 a4 s) := by
  have k1 := @takeIndex_keeps P (h.mono rfl)
  have k2 := @State.newKey_keeps P (h.mono rfl)
  have k3 := @State.answer_keeps P (h.mono rfl)
  have pEv := h.ev rfl
  have pUwr := h.wr rfl
  unfold challenge
  repeat'
    first
    | with_reducible assumption
    | rfl
    | (with_reducible apply k1)
    | (with_reducible apply k2)
    | (with_reducible apply k3)
    | (with_reducible apply pEv)
    | (with_reducible refine pUwr _ _ (by rfl) (by rfl) (by with_reducible assumption))
    | (with_reducible apply OkOpt.some)
    | (with_reducible apply OkOpt.none)
    | (with_reducible apply iteOpt_keeps)
    | (with_reducible apply OkOpt.map)
    | (with_reducible apply OkOpt.bind)
    | (with_reducible apply OkOpt.find)
    | (with_reducible apply OkOpt.fold)
    | (with_reducible apply OkOpt.getD (P := P))
    | (with_reducible apply iteP_keeps (P := P))
    | (with_reducible apply ite_keeps (P := P))
    | (with_reducible apply foldl_keeps (P := P))
    | (with_reducible apply foldP_keeps (P := P))
    | (refine OkO.get (P := P) (by with_reducible assumption) ?_)
    | (refine OkOP.get (P := P) (by with_reducible assumption) ?_)
    | (refine OkOPP.get (P := P) (by with_reducible assumption) ?_)
    | (refine OkP.get (P := P) (by with_reducible assumption) ?_)
    | (with_reducible apply OkP.snd (P := P))
    | (refine fun (t : State) (ht : P t) => ?_)
    | (refine fun (_ : _) (t : State) (ht : P t) => ?_)
    | (with_reducible intro t; first | (refine (fun (ht : P t) => ?_) (?_ : P t); rotate_left; subst t; rotate_right; clear_value t) | skip | skip)
    | lift_lets -underBinder
    | split
    | (with_reducible apply pUwr)
    | (with_reducible apply OkP.mk (P := P))
    | exact OkOpt.any

theorem helloOffer_keeps {P : State → Prop} (h : Stable [.out, .ctr, .wr, .notify, .scAny, .ev] P) (a0 : _) (a1 : _) (a2 : _) (a3 : _) (a4 : _) (s : State) (hs : P s) : P (helloOffer a0 a1 a2 a3 a4 s) := by
  have k1 := @State.answer_keeps P (h.mono rfl)
  have k2 := @challenge_keeps P (h.mono rfl)
  have pInc := h.ctrInc rfl
  unfold helloOffer
  repeat'
    first
    | with_reducible assumption
    | rfl
    | (with_reducible apply k1)
    | (with_reducible apply k2)
    | (with_reducible apply pInc)
    | (with_reducible apply ite_keeps (P := P))
    | (with_reducible apply foldl_keeps (P := P))
    | (refine fun (t : State) (ht : P t) => ?_)
    | (refine fun (_ : _) (t : State) (ht : P t) => ?_)
    | (with_reducible intro t; first | (refine (fun (ht : P t) => ?_) (?_ : P t); rotate_left; subst t; rotate_right; clear_value t) | skip | skip)
    | lift_lets -underBinder
    | split

theorem proofFailed_keeps {P : State → Prop} (h : Stable [.wr] P) (s : State) (hs : P s) : P (proofFailed s) := by
  have pUwr := h.wr rfl
  unfold proofFailed
  repeat'
    first
    | with_reducible assumption
    | rfl
    | (with_reducible refine pUwr _ _ (by rfl) (by rfl) (by with_reducible assumption))
    | (with_reducible apply ite_keeps (P := P))
    | (with_reducible apply foldl_keeps (P := P))
    | (refine fun (t : State) (ht : P t) => ?_)
    | (refine fun (_ : _) (t : State) (ht : P t) => ?_)
    | (with_reducible intro t; first | (refine (fun (ht : P t) => ?_) (?_ : P t); rotate_left; subst t; rotate_right; clear_value t) | skip | skip)
    | lift_lets -underBinder
    | split
    | (with_reducible apply pUwr)

theorem helloKey_keeps {P : State → Prop} (h : Stable [.out, .ctr, .wr] P) (a0 : _) (a1 : _) (a2 : _) (s : State) (hs : P s) : P (helloKey a0 a1 a2 s) := by
  have k1 := @State.answer_keeps P (h.mono rfl)
  have k2 := @State.setAssoc_keeps P (h.mono rfl)
  have k3 := @proofFailed_keeps P (h.mono rfl)
  have k4 := @endAssoc_keeps P (h.mono rfl)
  have pInc := h.ctrInc rfl
  unfold helloKey
  repeat'
    first
    | with_reducible assumption
    | rfl
    | (with_reducible apply k1)
    | (with_reducible apply k2)
    | (with_reducible apply k3)
    | (with_reducible apply k4)
    | (with_reducible apply pInc)
    | (with_reducible apply ite_keeps (P := P))
    | (with_reducible apply when_keeps (P := P))
    | (with_reducible apply foldl_keeps (P := P))
    | (refine fun (t : State) (ht : P t) => ?_)
    | (refine fun (_ : _) (t : State) (ht : P t) => ?_)
    | (with_reducible intro t; first | (refine (fun (ht : P t) => ?_) (?_ : P t); rotate_left; subst t; rotate_right; clear_value t) | skip | skip)
    | lift_lets -underBinder
    | split

theorem helloBye_keeps {P : State → Prop} (h : Stable [.out, .ctr, .wr] P) (a0 : _) (s : State) (hs : P s) : P (helloBye a0 s) := by
  have k1 := @State.answer_keeps P (h.mono rfl)
  have k2 := @State.setAssoc_keeps P (h.mono rfl)
  have k3 := @endAssoc_keeps P (h.mono rfl)
  have pInc := h.ctrInc rfl
  unfold helloBye
  repeat'
    first
    | with_reducible assumption
    | rfl
    | (with_reducible apply k1)
    | (with_reducible apply k2)
    | (with_reducible apply k3)
    | (with_reducible apply pInc)
    | (with_reducible apply ite_keeps (P := P))
    | (with_reducible apply foldl_keeps (P := P))
    | (refine fun (t : State) (ht : P t) => ?_)
    | (refine fun (_ : _) (t : State) (ht : P t) => ?_)
    | (with_reducible intro t; first | (refine (fun (ht : P t) => ?_) (?_ : P t); rotate_left; subst t; rotate_right; clear_value t) | skip | skip)
    | lift_lets -underBinder
    | split

theorem execHelloOffer_keeps {P : State → Prop} (h : Stable [.out, .ctr, .wr, .notify, .scAny, .ev] P) (a0 : _) (a1 : _) (a2 : _) (a3 : _) (a4 : _) (a5 : _) (s : State) (hs : P (s.at a0)) : OkX P (execHelloOffer a0 a1 a2 a3 a4 a5 s) := by
  have k1 := @helloOffer_keeps P (h.mono rfl)
  unfold execHelloOffer
  repeat'
    first
    | with_reducible assumption
    | rfl
    | (refine run_keeps ?_ (by assumption))
    | (with_reducible apply k1)
    | (with_reducible apply ite_keeps (P := P))
    | (with_reducible apply foldl_keeps (P := P))
    | (refine fun (t : State) (ht : P t) => ?_)
    | (refine fun (_ : _) (t : State) (ht : P t) => ?_)
    | (with_reducible intro t; first | (refine (fun (ht : P t) => ?_) (?_ : P t); rotate_left; subst t; rotate_right; clear_value t) | skip | skip)
    | lift_lets -underBinder
    | split

theorem execHelloKey_keeps {P : State → Prop} (h : Stable [.out, .ctr, .wr] P) (a0 : _) (a1 : _) (a2 : _) (a3 : _) (s : State) (hs : P (s.at a0)) : OkX P (execHelloKey a0 a1 a2 a3 s) := by
  have k1 := @helloKey_keeps P (h.mono rfl)
  unfold execHelloKey
  repeat'
    first
    | with_reducible assumption
    | rfl
    | (refine run_keeps ?_ (by assumption))
    | (with_reducible apply k1)
    | (with_reducible apply ite_keeps (P := P))
    | (with_reducible apply foldl_keeps (P := P))
    | (refine fun (t : State) (ht : P t) => ?_)
    | (refine fun (_ : _) (t : State) (ht : P t) => ?_)
    | (with_reducible intro t; first | (refine (fun (ht : P t) => ?_) (?_ : P t); rotate_left; subst t; rotate_right; clear_value t) | skip | skip)
    | lift_lets -underBinder
    | split

theorem execHelloBye_keeps {P : State → Prop} (h : Stable [.out, .ctr, .wr] P) (a0 : _) (a1 : _) (a2 : _) (s : State) (hs : P (s.at a0)) : OkX P (execHelloBye a0 a1 a2 s) := by
  have k1 := @helloBye_keeps P (h.mono rfl)
  unfold execHelloBye
  repeat'
    first
    | with_reducible assumption
    | rfl
    | (refine run_keeps ?_ (by assumption))
    | (with_reducible apply k1)
    | (with_reducible apply ite_keeps (P := P))
    | (with_reducible apply foldl_keeps (P := P))
    | (refine fun (t : State) (ht : P t) => ?_)
    | (refine fun (_ : _) (t : State) (ht : P t) => ?_)
    | (with_reducible intro t; first | (refine (fun (ht : P t) => ?_) (?_ : P t); rotate_left; subst t; rotate_right; clear_value t) | skip | skip)
    | lift_lets -underBinder
    | split

theorem execHelloTimeout_keeps {P : State → Prop} (h : Stable [.wr] P) (a0 : _) (a1 : _) (s : State) (hs : P (s.at a0)) : OkX P (execHelloTimeout a0 a1 s) := by
  have k1 := @endAssoc_keeps P (h.mono rfl)
  unfold execHelloTimeout
  repeat'
    first
    | with_reducible assumption
    | rfl
    | (refine run_keeps ?_ (by assumption))
    | (with_reducible apply k1)
    | (with_reducible apply ite_keeps (P := P))
    | (with_reducible apply when_keeps (P := P))
    | (with_reducible apply foldl_keeps (P := P))
    | (refine fun (t : State) (ht : P t) => ?_)
    | (refine fun (_ : _) (t : State) (ht : P t) => ?_)
    | (with_reducible intro t; first | (refine (fun (ht : P t) => ?_) (?_ : P t); rotate_left; subst t; rotate_right; clear_value t) | skip | skip)
    | lift_lets -underBinder
    | split

theorem execHelloThrottleExpire_keeps {P : State → Prop} (h : Stable [.wr] P) (a0 : _) (s : State) (hs : P (s.at a0)) : OkX P (execHelloThrottleExpire a0 s) := by
  have pUwr := h.wr rfl
  unfold execHelloThrottleExpire
  repeat'
    first
    | with_reducible assumption
    | rfl
    | (refine run_keeps ?_ (by assumption))
    | (with_reducible refine pUwr _ _ (by rfl) (by rfl) (by with_reducible assumption))
    | (with_reducible apply ite_keeps (P := P))
    | (with_reducible apply when_keeps (P := P))
    | (with_reducible apply foldl_keeps (P := P))
    | (refine fun (t : State) (ht : P t) => ?_)
    | (refine fun (_ : _) (t : State) (ht : P t) => ?_)
    | (with_reducible intro t; first | (refine (fun (ht : P t) => ?_) (?_ : P t); rotate_left; subst t; rotate_right; clear_value t) | skip | skip)
    | lift_lets -underBinder
    | split
    | (with_reducible apply pUwr)

theorem execAssociationIdleTimeout_keeps {P : State → Prop} (h : Stable [.wr] P) (a0 : _) (a1 : _) (s : State) (hs : P (s.at a0)) : OkX P (execAssociationIdleTimeout a0 a1 s) := by
  have k1 := @endAssoc_keeps P (h.mono rfl)
  unfold execAssociationIdleTimeout
  repeat'
    first
    | with_reducible assumption
    | rfl
    | (refine run_keeps ?_ (by assumption))
    | (with_reducible apply k1)
    | (with_reducible apply ite_keeps (P := P))
    | (with_reducible apply when_keeps (P := P))
    | (with_reducible apply foldl_keeps (P := P))
    | (refine fun (t : State) (ht : P t) => ?_)
    | (refine fun (_ : _) (t : State) (ht : P t) => ?_)
    | (with_reducible intro t; first | (refine (fun (ht : P t) => ?_) (?_ : P t); rotate_left; subst t; rotate_right; clear_value t) | skip | skip)
    | lift_lets -underBinder
    | split

theorem execRead_keeps {P : State → Prop} (h : Stable [.out, .ctr, .wr] P) (a0 : _) (a1 : _) (a2 : _) (s : State) (hs : P (s.at a0)) : OkX P (execRead a0 a1 a2 s) := by
  have k1 := @welridRequest_keeps P (h.mono rfl)
  have k2 := @readAct_keeps P (h.mono rfl)
  unfold execRead
  repeat'
    first
    | with_reducible assumption
    | rfl
    | (refine run_keeps ?_ (by assumption))
    | (with_reducible apply k1)
    | (with_reducible apply k2)
    | (with_reducible apply ite_keeps (P := P))
    | (with_reducible apply foldl_keeps (P := P))
    | (refine fun (t : State) (ht : P t) => ?_)
    | (refine fun (_ : _) (t : State) (ht : P t) => ?_)
    | (with_reducible intro t; first | (refine (fun (ht : P t) => ?_) (?_ : P t); rotate_left; subst t; rotate_right; clear_value t) | skip | skip)
    | lift_lets -underBinder
    | split
    | (with_reducible apply OkM.mk (P := P))

theorem execRegisterWrite_keeps {P : State → Prop} (h : Stable [.out, .regs, .ctr, .reg, .nv, .nvAny, .fn, .wfn, .off, .pw, .pwAny, .pk, .pkAny, .wr, .notify, .sc, .scAny, .ss, .tm, .fb, .sv, .tx, .se, .sl, .slAny, .et, .dx, .fa, .journal, .mn, .mnAny, .ev] P) (a0 : _) (a1 : _) (a2 : _) (s : State) (hs : P (s.at a0)) : OkX P (execRegisterWrite a0 a1 a2 s) := by
  have k1 := @welridWrite_keeps P (h.mono rfl)
  unfold execRegisterWrite
  repeat'
    first
    | with_reducible assumption
    | rfl
    | (refine run_keeps ?_ (by assumption))
    | (with_reducible apply k1)
    | (with_reducible apply ite_keeps (P := P))
    | (with_reducible apply foldl_keeps (P := P))
    | (refine fun (t : State) (ht : P t) => ?_)
    | (refine fun (_ : _) (t : State) (ht : P t) => ?_)
    | (with_reducible intro t; first | (refine (fun (ht : P t) => ?_) (?_ : P t); rotate_left; subst t; rotate_right; clear_value t) | skip | skip)
    | lift_lets -underBinder
    | split

theorem execReadBlock_keeps {P : State → Prop} (h : Stable [.out, .ctr, .wr] P) (a0 : _) (a1 : _) (a2 : _) (a3 : _) (a4 : _) (s : State) (hs : P (s.at a0)) : OkX P (execReadBlock a0 a1 a2 a3 a4 s) := by
  have k1 := @welridRequest_keeps P (h.mono rfl)
  have k2 := @readBlockAct_keeps P (h.mono rfl)
  unfold execReadBlock
  repeat'
    first
    | with_reducible assumption
    | rfl
    | (refine run_keeps ?_ (by assumption))
    | (with_reducible apply k1)
    | (with_reducible apply k2)
    | (with_reducible apply ite_keeps (P := P))
    | (with_reducible apply foldl_keeps (P := P))
    | (refine fun (t : State) (ht : P t) => ?_)
    | (refine fun (_ : _) (t : State) (ht : P t) => ?_)
    | (with_reducible intro t; first | (refine (fun (ht : P t) => ?_) (?_ : P t); rotate_left; subst t; rotate_right; clear_value t) | skip | skip)
    | lift_lets -underBinder
    | split
    | (with_reducible apply OkM.mk (P := P))

theorem execWriteBlock_keeps {P : State → Prop} (h : Stable [.out, .ctr, .reg, .nv, .nvAny, .fn, .wfn, .pw, .pwAny, .pk, .wr, .notify, .sc, .scAny, .ss, .tm, .fb, .sv, .tx, .se, .sl, .slAny, .et, .dx, .fa, .journal, .mn, .mnAny, .ev] P) (a0 : _) (a1 : _) (a2 : _) (s : State) (hs : P (s.at a0)) : OkX P (execWriteBlock a0 a1 a2 s) := by
  have k1 := @welridBlock_keeps P (h.mono rfl)
  unfold execWriteBlock
  repeat'
    first
    | with_reducible assumption
    | rfl
    | (refine run_keeps ?_ (by assumption))
    | (with_reducible apply k1)
    | (with_reducible apply ite_keeps (P := P))
    | (with_reducible apply foldl_keeps (P := P))
    | (refine fun (t : State) (ht : P t) => ?_)
    | (refine fun (_ : _) (t : State) (ht : P t) => ?_)
    | (with_reducible intro t; first | (refine (fun (ht : P t) => ?_) (?_ : P t); rotate_left; subst t; rotate_right; clear_value t) | skip | skip)
    | lift_lets -underBinder
    | split

theorem execSnapshotExpire_keeps {P : State → Prop} (h : Stable [.wr] P) (a0 : _) (a1 : _) (s : State) (hs : P (s.at a0)) : OkX P (execSnapshotExpire a0 a1 s) := by
  have pUwr := h.wr rfl
  unfold execSnapshotExpire
  repeat'
    first
    | with_reducible assumption
    | rfl
    | (refine run_keeps ?_ (by assumption))
    | (with_reducible refine pUwr _ _ (by rfl) (by rfl) (by with_reducible assumption))
    | (with_reducible apply ite_keeps (P := P))
    | (with_reducible apply foldl_keeps (P := P))
    | (refine fun (t : State) (ht : P t) => ?_)
    | (refine fun (_ : _) (t : State) (ht : P t) => ?_)
    | (with_reducible intro t; first | (refine (fun (ht : P t) => ?_) (?_ : P t); rotate_left; subst t; rotate_right; clear_value t) | skip | skip)
    | lift_lets -underBinder
    | split
    | (with_reducible apply pUwr)

theorem execBlockTransferIdle_keeps {P : State → Prop} (h : Stable [.wr] P) (a0 : _) (a1 : _) (s : State) (hs : P (s.at a0)) : OkX P (execBlockTransferIdle a0 a1 s) := by
  have pUwr := h.wr rfl
  unfold execBlockTransferIdle
  repeat'
    first
    | with_reducible assumption
    | rfl
    | (refine run_keeps ?_ (by assumption))
    | (with_reducible refine pUwr _ _ (by rfl) (by rfl) (by with_reducible assumption))
    | (with_reducible apply ite_keeps (P := P))
    | (with_reducible apply foldl_keeps (P := P))
    | (refine fun (t : State) (ht : P t) => ?_)
    | (refine fun (_ : _) (t : State) (ht : P t) => ?_)
    | (with_reducible intro t; first | (refine (fun (ht : P t) => ?_) (?_ : P t); rotate_left; subst t; rotate_right; clear_value t) | skip | skip)
    | lift_lets -underBinder
    | split
    | (with_reducible apply pUwr)

theorem execRoleSecretWrite_keeps {P : State → Prop} (h : Stable [.out, .regs, .ctr, .reg, .nv, .nvAny, .fn, .wfn, .off, .pw, .pwAny, .pk, .pkAny, .wr, .notify, .sc, .scAny, .ss, .tm, .fb, .sv, .tx, .se, .sl, .slAny, .et, .dx, .fa, .journal, .mn, .mnAny, .ev] P) (a0 : _) (a1 : _) (a2 : _) (a3 : _) (s : State) (hs : P (s.at a0)) : OkX P (execRoleSecretWrite a0 a1 a2 a3 s) := by
  have k1 := @welridWrite_keeps P (h.mono rfl)
  unfold execRoleSecretWrite
  repeat'
    first
    | with_reducible assumption
    | rfl
    | (refine run_keeps ?_ (by assumption))
    | (with_reducible apply k1)
    | (with_reducible apply ite_keeps (P := P))
    | (with_reducible apply foldl_keeps (P := P))
    | (refine fun (t : State) (ht : P t) => ?_)
    | (refine fun (_ : _) (t : State) (ht : P t) => ?_)
    | (with_reducible intro t; first | (refine (fun (ht : P t) => ?_) (?_ : P t); rotate_left; subst t; rotate_right; clear_value t) | skip | skip)
    | lift_lets -underBinder
    | split

theorem execRestoreDefaults_keeps {P : State → Prop} (h : Stable [.out, .regs, .ctr, .reg, .nv, .nvAny, .fn, .wfn, .off, .pw, .pwAny, .pk, .pkAny, .wr, .notify, .sc, .scAny, .ss, .tm, .fb, .sv, .tx, .se, .sl, .slAny, .et, .dx, .fa, .journal, .mn, .mnAny, .ev] P) (a0 : _) (a1 : _) (a2 : _) (s : State) (hs : P (s.at a0)) : OkX P (execRestoreDefaults a0 a1 a2 s) := by
  have k1 := @welridWrite_keeps P (h.mono rfl)
  unfold execRestoreDefaults
  repeat'
    first
    | with_reducible assumption
    | rfl
    | (refine run_keeps ?_ (by assumption))
    | (with_reducible apply k1)
    | (with_reducible apply ite_keeps (P := P))
    | (with_reducible apply foldl_keeps (P := P))
    | (refine fun (t : State) (ht : P t) => ?_)
    | (refine fun (_ : _) (t : State) (ht : P t) => ?_)
    | (with_reducible intro t; first | (refine (fun (ht : P t) => ?_) (?_ : P t); rotate_left; subst t; rotate_right; clear_value t) | skip | skip)
    | lift_lets -underBinder
    | split

end Sys2Proof.Machine
end

