-- ==== Sys2Proof/Laws/KeepsWrites.lean ====
section
/-! SUPPORT. What the operations of Machine/Writes.lean can do to the state (`Laws/Keeps.lean`): one lemma per operation. -/

set_option linter.all false

namespace Sys2Proof.Machine

open Sys2Proof

theorem execChpowerRequest_keeps {P : State → Prop} (h : Stable [.out, .regs, .ctr, .reg, .nv, .nvAny, .fn, .wfn, .off, .pw, .pwAny, .pk, .pkAny, .wr, .notify, .sc, .scAny, .ss, .tm, .fb, .sv, .tx, .se, .sl, .slAny, .et, .dx, .fa, .journal, .mn, .mnAny, .ev] P) (a0 : _) (a1 : _) (a2 : _) (a3 : _) (s : State) (hs : P (s.at a0)) : OkX P (execChpowerRequest a0 a1 a2 a3 s) := by
  have k1 := @welridWrite_keeps P (h.mono rfl)
  unfold execChpowerRequest
  repeat'
    first
    | with_reducible assumption
    | rfl
    | (refine run_keeps ?_ (by assumption))
    | (with_reducible apply k1)
    | (with_reducible apply ite_keeps (P := P))
    | (with_reducible apply foldl_keeps (P := P))
    | (refine fun (t : State) (ht : P t) => ?_)
    | (refine fun (_ : _) (t : State) (ht : P t) => ?_)
    | (with_reducible intro t; first | (refine (fun (ht : P t) => ?_) (?_ : P t); rotate_left; subst t; rotate_right; clear_value t) | skip | skip)
    | lift_lets -underBinder
    | split

theorem execHubPowerRequest_keeps {P : State → Prop} (h : Stable [.out, .regs, .ctr, .reg, .nv, .nvAny, .fn, .wfn, .off, .pw, .pwAny, .pk, .pkAny, .wr, .notify, .sc, .scAny, .ss, .tm, .fb, .sv, .tx, .se, .sl, .slAny, .et, .dx, .fa, .journal, .mn, .mnAny, .ev] P) (a0 : _) (a1 : _) (a2 : _) (a3 : _) (s : State) (hs : P (s.at a0)) : OkX P (execHubPowerRequest a0 a1 a2 a3 s) := by
  have k1 := @welridWrite_keeps P (h.mono rfl)
  unfold execHubPowerRequest
  repeat'
    first
    | with_reducible assumption
    | rfl
    | (refine run_keeps ?_ (by assumption))
    | (with_reducible apply k1)
    | (with_reducible apply ite_keeps (P := P))
    | (with_reducible apply foldl_keeps (P := P))
    | (refine fun (t : State) (ht : P t) => ?_)
    | (refine fun (_ : _) (t : State) (ht : P t) => ?_)
    | (with_reducible intro t; first | (refine (fun (ht : P t) => ?_) (?_ : P t); rotate_left; subst t; rotate_right; clear_value t) | skip | skip)
    | lift_lets -underBinder
    | split

theorem execPickSourceWrite_keeps {P : State → Prop} (h : Stable [.out, .regs, .ctr, .reg, .nv, .nvAny, .fn, .wfn, .off, .pw, .pwAny, .pk, .pkAny, .wr, .notify, .sc, .scAny, .ss, .tm, .fb, .sv, .tx, .se, .sl, .slAny, .et, .dx, .fa, .journal, .mn, .mnAny, .ev] P) (a0 : _) (a1 : _) (a2 : _) (s : State) (hs : P (s.at a0)) : OkX P (execPickSourceWrite a0 a1 a2 s) := by
  have k1 := @welridWrite_keeps P (h.mono rfl)
  unfold execPickSourceWrite
  repeat'
    first
    | with_reducible assumption
    | rfl
    | (refine run_keeps ?_ (by assumption))
    | (with_reducible apply k1)
    | (with_reducible apply ite_keeps (P := P))
    | (with_reducible apply foldl_keeps (P := P))
    | (refine fun (t : State) (ht : P t) => ?_)
    | (refine fun (_ : _) (t : State) (ht : P t) => ?_)
    | (with_reducible intro t; first | (refine (fun (ht : P t) => ?_) (?_ : P t); rotate_left; subst t; rotate_right; clear_value t) | skip | skip)
    | lift_lets -underBinder
    | split

theorem execBarrierAtWrite_keeps {P : State → Prop} (h : Stable [.out, .regs, .ctr, .reg, .nv, .nvAny, .fn, .wfn, .off, .pw, .pwAny, .pk, .pkAny, .wr, .notify, .sc, .scAny, .ss, .tm, .fb, .sv, .tx, .se, .sl, .slAny, .et, .dx, .fa, .journal, .mn, .mnAny, .ev] P) (a0 : _) (a1 : _) (a2 : _) (s : State) (hs : P (s.at a0)) : OkX P (execBarrierAtWrite a0 a1 a2 s) := by
  have k1 := @welridWrite_keeps P (h.mono rfl)
  unfold execBarrierAtWrite
  repeat'
    first
    | with_reducible assumption
    | rfl
    | (refine run_keeps ?_ (by assumption))
    | (with_reducible apply k1)
    | (with_reducible apply ite_keeps (P := P))
    | (with_reducible apply foldl_keeps (P := P))
    | (refine fun (t : State) (ht : P t) => ?_)
    | (refine fun (_ : _) (t : State) (ht : P t) => ?_)
    | (with_reducible intro t; first | (refine (fun (ht : P t) => ?_) (?_ : P t); rotate_left; subst t; rotate_right; clear_value t) | skip | skip)
    | lift_lets -underBinder
    | split

theorem execFwImageWrite_keeps {P : State → Prop} (h : Stable [.out, .ctr, .reg, .nv, .nvAny, .fn, .wfn, .pw, .pwAny, .pk, .wr, .notify, .sc, .scAny, .ss, .tm, .fb, .sv, .tx, .se, .sl, .slAny, .et, .dx, .fa, .journal, .mn, .mnAny, .ev] P) (a0 : _) (a1 : _) (a2 : _) (s : State) (hs : P (s.at a0)) : OkX P (execFwImageWrite a0 a1 a2 s) := by
  have k1 := @welridBlock_keeps P (h.mono rfl)
  unfold execFwImageWrite
  repeat'
    first
    | with_reducible assumption
    | rfl
    | (refine run_keeps ?_ (by assumption))
    | (with_reducible apply k1)
    | (with_reducible apply ite_keeps (P := P))
    | (with_reducible apply foldl_keeps (P := P))
    | (refine fun (t : State) (ht : P t) => ?_)
    | (refine fun (_ : _) (t : State) (ht : P t) => ?_)
    | (with_reducible intro t; first | (refine (fun (ht : P t) => ?_) (?_ : P t); rotate_left; subst t; rotate_right; clear_value t) | skip | skip)
    | lift_lets -underBinder
    | split

theorem execFwSvnCommit_keeps {P : State → Prop} (h : Stable [.out, .regs, .ctr, .reg, .nv, .nvAny, .fn, .wfn, .off, .pw, .pwAny, .pk, .pkAny, .wr, .notify, .sc, .scAny, .ss, .tm, .fb, .sv, .tx, .se, .sl, .slAny, .et, .dx, .fa, .journal, .mn, .mnAny, .ev] P) (a0 : _) (a1 : _) (a2 : _) (s : State) (hs : P (s.at a0)) : OkX P (execFwSvnCommit a0 a1 a2 s) := by
  have k1 := @welridWrite_keeps P (h.mono rfl)
  unfold execFwSvnCommit
  repeat'
    first
    | with_reducible assumption
    | rfl
    | (refine run_keeps ?_ (by assumption))
    | (with_reducible apply k1)
    | (with_reducible apply ite_keeps (P := P))
    | (with_reducible apply foldl_keeps (P := P))
    | (refine fun (t : State) (ht : P t) => ?_)
    | (refine fun (_ : _) (t : State) (ht : P t) => ?_)
    | (with_reducible intro t; first | (refine (fun (ht : P t) => ?_) (?_ : P t); rotate_left; subst t; rotate_right; clear_value t) | skip | skip)
    | lift_lets -underBinder
    | split

theorem execFwConfirm_keeps {P : State → Prop} (h : Stable [.out, .regs, .ctr, .reg, .nv, .nvAny, .fn, .wfn, .off, .pw, .pwAny, .pk, .pkAny, .wr, .notify, .sc, .scAny, .ss, .tm, .fb, .sv, .tx, .se, .sl, .slAny, .et, .dx, .fa, .journal, .mn, .mnAny, .ev] P) (a0 : _) (a1 : _) (a2 : _) (s : State) (hs : P (s.at a0)) : OkX P (execFwConfirm a0 a1 a2 s) := by
  have k1 := @welridWrite_keeps P (h.mono rfl)
  unfold execFwConfirm
  repeat'
    first
    | with_reducible assumption
    | rfl
    | (refine run_keeps ?_ (by assumption))
    | (with_reducible apply k1)
    | (with_reducible apply ite_keeps (P := P))
    | (with_reducible apply foldl_keeps (P := P))
    | (refine fun (t : State) (ht : P t) => ?_)
    | (refine fun (_ : _) (t : State) (ht : P t) => ?_)
    | (with_reducible intro t; first | (refine (fun (ht : P t) => ?_) (?_ : P t); rotate_left; subst t; rotate_right; clear_value t) | skip | skip)
    | lift_lets -underBinder
    | split

theorem execAttestNonceWrite_keeps {P : State → Prop} (h : Stable [.out, .regs, .ctr, .reg, .nv, .nvAny, .fn, .wfn, .off, .pw, .pwAny, .pk, .pkAny, .wr, .notify, .sc, .scAny, .ss, .tm, .fb, .sv, .tx, .se, .sl, .slAny, .et, .dx, .fa, .journal, .mn, .mnAny, .ev] P) (a0 : _) (a1 : _) (a2 : _) (s : State) (hs : P (s.at a0)) : OkX P (execAttestNonceWrite a0 a1 a2 s) := by
  have k1 := @welridWrite_keeps P (h.mono rfl)
  unfold execAttestNonceWrite
  repeat'
    first
    | with_reducible assumption
    | rfl
    | (refine run_keeps ?_ (by assumption))
    | (with_reducible apply k1)
    | (with_reducible apply ite_keeps (P := P))
    | (with_reducible apply foldl_keeps (P := P))
    | (refine fun (t : State) (ht : P t) => ?_)
    | (refine fun (_ : _) (t : State) (ht : P t) => ?_)
    | (with_reducible intro t; first | (refine (fun (ht : P t) => ?_) (?_ : P t); rotate_left; subst t; rotate_right; clear_value t) | skip | skip)
    | lift_lets -underBinder
    | split

theorem execKeyCapsuleWrite_keeps {P : State → Prop} (h : Stable [.out, .ctr, .reg, .nv, .nvAny, .fn, .wfn, .pw, .pwAny, .pk, .wr, .notify, .sc, .scAny, .ss, .tm, .fb, .sv, .tx, .se, .sl, .slAny, .et, .dx, .fa, .journal, .mn, .mnAny, .ev] P) (a0 : _) (a1 : _) (a2 : _) (s : State) (hs : P (s.at a0)) : OkX P (execKeyCapsuleWrite a0 a1 a2 s) := by
  have k1 := @welridBlock_keeps P (h.mono rfl)
  unfold execKeyCapsuleWrite
  repeat'
    first
    | with_reducible assumption
    | rfl
    | (refine run_keeps ?_ (by assumption))
    | (with_reducible apply k1)
    | (with_reducible apply ite_keeps (P := P))
    | (with_reducible apply foldl_keeps (P := P))
    | (refine fun (t : State) (ht : P t) => ?_)
    | (refine fun (_ : _) (t : State) (ht : P t) => ?_)
    | (with_reducible intro t; first | (refine (fun (ht : P t) => ?_) (?_ : P t); rotate_left; subst t; rotate_right; clear_value t) | skip | skip)
    | lift_lets -underBinder
    | split

theorem execKeyErase_keeps {P : State → Prop} (h : Stable [.out, .regs, .ctr, .reg, .nv, .nvAny, .fn, .wfn, .off, .pw, .pwAny, .pk, .pkAny, .wr, .notify, .sc, .scAny, .ss, .tm, .fb, .sv, .tx, .se, .sl, .slAny, .et, .dx, .fa, .journal, .mn, .mnAny, .ev] P) (a0 : _) (a1 : _) (a2 : _) (s : State) (hs : P (s.at a0)) : OkX P (execKeyErase a0 a1 a2 s) := by
  have k1 := @welridWrite_keeps P (h.mono rfl)
  unfold execKeyErase
  repeat'
    first
    | with_reducible assumption
    | rfl
    | (refine run_keeps ?_ (by assumption))
    | (with_reducible apply k1)
    | (with_reducible apply ite_keeps (P := P))
    | (with_reducible apply foldl_keeps (P := P))
    | (refine fun (t : State) (ht : P t) => ?_)
    | (refine fun (_ : _) (t : State) (ht : P t) => ?_)
    | (with_reducible intro t; first | (refine (fun (ht : P t) => ?_) (?_ : P t); rotate_left; subst t; rotate_right; clear_value t) | skip | skip)
    | lift_lets -underBinder
    | split

theorem execDsecClassWrite_keeps {P : State → Prop} (h : Stable [.out, .regs, .ctr, .reg, .nv, .nvAny, .fn, .wfn, .off, .pw, .pwAny, .pk, .pkAny, .wr, .notify, .sc, .scAny, .ss, .tm, .fb, .sv, .tx, .se, .sl, .slAny, .et, .dx, .fa, .journal, .mn, .mnAny, .ev] P) (a0 : _) (a1 : _) (a2 : _) (s : State) (hs : P (s.at a0)) : OkX P (execDsecClassWrite a0 a1 a2 s) := by
  have k1 := @welridWrite_keeps P (h.mono rfl)
  unfold execDsecClassWrite
  repeat'
    first
    | with_reducible assumption
    | rfl
    | (refine run_keeps ?_ (by assumption))
    | (with_reducible apply k1)
    | (with_reducible apply ite_keeps (P := P))
    | (with_reducible apply foldl_keeps (P := P))
    | (refine fun (t : State) (ht : P t) => ?_)
    | (refine fun (_ : _) (t : State) (ht : P t) => ?_)
    | (with_reducible intro t; first | (refine (fun (ht : P t) => ?_) (?_ : P t); rotate_left; subst t; rotate_right; clear_value t) | skip | skip)
    | lift_lets -underBinder
    | split

theorem execTileGroupsWrite_keeps {P : State → Prop} (h : Stable [.out, .regs, .ctr, .reg, .nv, .nvAny, .fn, .wfn, .off, .pw, .pwAny, .pk, .pkAny, .wr, .notify, .sc, .scAny, .ss, .tm, .fb, .sv, .tx, .se, .sl, .slAny, .et, .dx, .fa, .journal, .mn, .mnAny, .ev] P) (a0 : _) (a1 : _) (a2 : _) (s : State) (hs : P (s.at a0)) : OkX P (execTileGroupsWrite a0 a1 a2 s) := by
  have k1 := @welridWrite_keeps P (h.mono rfl)
  unfold execTileGroupsWrite
  repeat'
    first
    | with_reducible assumption
    | rfl
    | (refine run_keeps ?_ (by assumption))
    | (with_reducible apply k1)
    | (with_reducible apply ite_keeps (P := P))
    | (with_reducible apply foldl_keeps (P := P))
    | (refine fun (t : State) (ht : P t) => ?_)
    | (refine fun (_ : _) (t : State) (ht : P t) => ?_)
    | (with_reducible intro t; first | (refine (fun (ht : P t) => ?_) (?_ : P t); rotate_left; subst t; rotate_right; clear_value t) | skip | skip)
    | lift_lets -underBinder
    | split

theorem execSealRequest_keeps {P : State → Prop} (h : Stable [.out, .regs, .ctr, .reg, .nv, .nvAny, .fn, .wfn, .off, .pw, .pwAny, .pk, .pkAny, .wr, .notify, .sc, .scAny, .ss, .tm, .fb, .sv, .tx, .se, .sl, .slAny, .et, .dx, .fa, .journal, .mn, .mnAny, .ev] P) (a0 : _) (a1 : _) (a2 : _) (a3 : _) (s : State) (hs : P (s.at a0)) : OkX P (execSealRequest a0 a1 a2 a3 s) := by
  have k1 := @welridWrite_keeps P (h.mono rfl)
  unfold execSealRequest
  repeat'
    first
    | with_reducible assumption
    | rfl
    | (refine run_keeps ?_ (by assumption))
    | (with_reducible apply k1)
    | (with_reducible apply ite_keeps (P := P))
    | (with_reducible apply foldl_keeps (P := P))
    | (refine fun (t : State) (ht : P t) => ?_)
    | (refine fun (_ : _) (t : State) (ht : P t) => ?_)
    | (with_reducible intro t; first | (refine (fun (ht : P t) => ?_) (?_ : P t); rotate_left; subst t; rotate_right; clear_value t) | skip | skip)
    | lift_lets -underBinder
    | split

theorem execNotifyFlowWrite_keeps {P : State → Prop} (h : Stable [.out, .regs, .ctr, .reg, .nv, .nvAny, .fn, .wfn, .off, .pw, .pwAny, .pk, .pkAny, .wr, .notify, .sc, .scAny, .ss, .tm, .fb, .sv, .tx, .se, .sl, .slAny, .et, .dx, .fa, .journal, .mn, .mnAny, .ev] P) (a0 : _) (a1 : _) (a2 : _) (s : State) (hs : P (s.at a0)) : OkX P (execNotifyFlowWrite a0 a1 a2 s) := by
  have k1 := @welridWrite_keeps P (h.mono rfl)
  unfold execNotifyFlowWrite
  repeat'
    first
    | with_reducible assumption
    | rfl
    | (refine run_keeps ?_ (by assumption))
    | (with_reducible apply k1)
    | (with_reducible apply ite_keeps (P := P))
    | (with_reducible apply foldl_keeps (P := P))
    | (refine fun (t : State) (ht : P t) => ?_)
    | (refine fun (_ : _) (t : State) (ht : P t) => ?_)
    | (with_reducible intro t; first | (refine (fun (ht : P t) => ?_) (?_ : P t); rotate_left; subst t; rotate_right; clear_value t) | skip | skip)
    | lift_lets -underBinder
    | split

theorem execFenceClear_keeps {P : State → Prop} (h : Stable [.out, .regs, .ctr, .reg, .nv, .nvAny, .fn, .wfn, .off, .pw, .pwAny, .pk, .pkAny, .wr, .notify, .sc, .scAny, .ss, .tm, .fb, .sv, .tx, .se, .sl, .slAny, .et, .dx, .fa, .journal, .mn, .mnAny, .ev] P) (a0 : _) (a1 : _) (a2 : _) (s : State) (hs : P (s.at a0)) : OkX P (execFenceClear a0 a1 a2 s) := by
  have k1 := @welridWrite_keeps P (h.mono rfl)
  unfold execFenceClear
  repeat'
    first
    | with_reducible assumption
    | rfl
    | (refine run_keeps ?_ (by assumption))
    | (with_reducible apply k1)
    | (with_reducible apply ite_keeps (P := P))
    | (with_reducible apply foldl_keeps (P := P))
    | (refine fun (t : State) (ht : P t) => ?_)
    | (refine fun (_ : _) (t : State) (ht : P t) => ?_)
    | (with_reducible intro t; first | (refine (fun (ht : P t) => ?_) (?_ : P t); rotate_left; subst t; rotate_right; clear_value t) | skip | skip)
    | lift_lets -underBinder
    | split

theorem execBudgetAdjust_keeps {P : State → Prop} (h : Stable [.out, .regs, .ctr, .reg, .nv, .nvAny, .fn, .wfn, .off, .pw, .pwAny, .pk, .pkAny, .wr, .notify, .sc, .scAny, .ss, .tm, .fb, .sv, .tx, .se, .sl, .slAny, .et, .dx, .fa, .journal, .mn, .mnAny, .ev] P) (a0 : _) (a1 : _) (a2 : _) (s : State) (hs : P (s.at a0)) : OkX P (execBudgetAdjust a0 a1 a2 s) := by
  have k1 := @welridWrite_keeps P (h.mono rfl)
  unfold execBudgetAdjust
  repeat'
    first
    | with_reducible assumption
    | rfl
    | (refine run_keeps ?_ (by assumption))
    | (with_reducible apply k1)
    | (with_reducible apply ite_keeps (P := P))
    | (with_reducible apply foldl_keeps (P := P))
    | (refine fun (t : State) (ht : P t) => ?_)
    | (refine fun (_ : _) (t : State) (ht : P t) => ?_)
    | (with_reducible intro t; first | (refine (fun (ht : P t) => ?_) (?_ : P t); rotate_left; subst t; rotate_right; clear_value t) | skip | skip)
    | lift_lets -underBinder
    | split

theorem execDraftSlotWrite_keeps {P : State → Prop} (h : Stable [.out, .regs, .ctr, .reg, .nv, .nvAny, .fn, .wfn, .off, .pw, .pwAny, .pk, .pkAny, .wr, .notify, .sc, .scAny, .ss, .tm, .fb, .sv, .tx, .se, .sl, .slAny, .et, .dx, .fa, .journal, .mn, .mnAny, .ev] P) (a0 : _) (a1 : _) (a2 : _) (s : State) (hs : P (s.at a0)) : OkX P (execDraftSlotWrite a0 a1 a2 s) := by
  have k1 := @welridWrite_keeps P (h.mono rfl)
  unfold execDraftSlotWrite
  repeat'
    first
    | with_reducible assumption
    | rfl
    | (refine run_keeps ?_ (by assumption))
    | (with_reducible apply k1)
    | (with_reducible apply ite_keeps (P := P))
    | (with_reducible apply foldl_keeps (P := P))
    | (refine fun (t : State) (ht : P t) => ?_)
    | (refine fun (_ : _) (t : State) (ht : P t) => ?_)
    | (with_reducible intro t; first | (refine (fun (ht : P t) => ?_) (?_ : P t); rotate_left; subst t; rotate_right; clear_value t) | skip | skip)
    | lift_lets -underBinder
    | split

theorem execEthRequest_keeps {P : State → Prop} (h : Stable [.out, .regs, .ctr, .reg, .nv, .nvAny, .fn, .wfn, .off, .pw, .pwAny, .pk, .pkAny, .wr, .notify, .sc, .scAny, .ss, .tm, .fb, .sv, .tx, .se, .sl, .slAny, .et, .dx, .fa, .journal, .mn, .mnAny, .ev] P) (a0 : _) (a1 : _) (a2 : _) (a3 : _) (s : State) (hs : P (s.at a0)) : OkX P (execEthRequest a0 a1 a2 a3 s) := by
  have k1 := @welridWrite_keeps P (h.mono rfl)
  unfold execEthRequest
  repeat'
    first
    | with_reducible assumption
    | rfl
    | (refine run_keeps ?_ (by assumption))
    | (with_reducible apply k1)
    | (with_reducible apply ite_keeps (P := P))
    | (with_reducible apply foldl_keeps (P := P))
    | (refine fun (t : State) (ht : P t) => ?_)
    | (refine fun (_ : _) (t : State) (ht : P t) => ?_)
    | (with_reducible intro t; first | (refine (fun (ht : P t) => ?_) (?_ : P t); rotate_left; subst t; rotate_right; clear_value t) | skip | skip)
    | lift_lets -underBinder
    | split

theorem execFlowConfigure_keeps {P : State → Prop} (h : Stable [.out, .ctr, .reg, .nv, .nvAny, .fn, .wfn, .pw, .pwAny, .pk, .wr, .notify, .sc, .scAny, .ss, .tm, .fb, .sv, .tx, .se, .sl, .slAny, .et, .dx, .fa, .journal, .mn, .mnAny, .ev] P) (a0 : _) (a1 : _) (a2 : _) (s : State) (hs : P (s.at a0)) : OkX P (execFlowConfigure a0 a1 a2 s) := by
  have k1 := @welridBlock_keeps P (h.mono rfl)
  unfold execFlowConfigure
  repeat'
    first
    | with_reducible assumption
    | rfl
    | (refine run_keeps ?_ (by assumption))
    | (with_reducible apply k1)
    | (with_reducible apply ite_keeps (P := P))
    | (with_reducible apply foldl_keeps (P := P))
    | (refine fun (t : State) (ht : P t) => ?_)
    | (refine fun (_ : _) (t : State) (ht : P t) => ?_)
    | (with_reducible intro t; first | (refine (fun (ht : P t) => ?_) (?_ : P t); rotate_left; subst t; rotate_right; clear_value t) | skip | skip)
    | lift_lets -underBinder
    | split

theorem execFlowRemove_keeps {P : State → Prop} (h : Stable [.out, .ctr, .reg, .nv, .nvAny, .fn, .wfn, .pw, .pwAny, .pk, .wr, .notify, .sc, .scAny, .ss, .tm, .fb, .sv, .tx, .se, .sl, .slAny, .et, .dx, .fa, .journal, .mn, .mnAny, .ev] P) (a0 : _) (a1 : _) (a2 : _) (s : State) (hs : P (s.at a0)) : OkX P (execFlowRemove a0 a1 a2 s) := by
  have k1 := @welridBlock_keeps P (h.mono rfl)
  unfold execFlowRemove
  repeat'
    first
    | with_reducible assumption
    | rfl
    | (refine run_keeps ?_ (by assumption))
    | (with_reducible apply k1)
    | (with_reducible apply ite_keeps (P := P))
    | (with_reducible apply foldl_keeps (P := P))
    | (refine fun (t : State) (ht : P t) => ?_)
    | (refine fun (_ : _) (t : State) (ht : P t) => ?_)
    | (with_reducible intro t; first | (refine (fun (ht : P t) => ?_) (?_ : P t); rotate_left; subst t; rotate_right; clear_value t) | skip | skip)
    | lift_lets -underBinder
    | split

theorem execLinkRequest_keeps {P : State → Prop} (h : Stable [.out, .regs, .ctr, .reg, .nv, .nvAny, .fn, .wfn, .off, .pw, .pwAny, .pk, .pkAny, .wr, .notify, .sc, .scAny, .ss, .tm, .fb, .sv, .tx, .se, .sl, .slAny, .et, .dx, .fa, .journal, .mn, .mnAny, .ev] P) (a0 : _) (a1 : _) (a2 : _) (a3 : _) (s : State) (hs : P (s.at a0)) : OkX P (execLinkRequest a0 a1 a2 a3 s) := by
  have k1 := @welridWrite_keeps P (h.mono rfl)
  unfold execLinkRequest
  repeat'
    first
    | with_reducible assumption
    | rfl
    | (refine run_keeps ?_ (by assumption))
    | (with_reducible apply k1)
    | (with_reducible apply ite_keeps (P := P))
    | (with_reducible apply foldl_keeps (P := P))
    | (refine fun (t : State) (ht : P t) => ?_)
    | (refine fun (_ : _) (t : State) (ht : P t) => ?_)
    | (with_reducible intro t; first | (refine (fun (ht : P t) => ?_) (?_ : P t); rotate_left; subst t; rotate_right; clear_value t) | skip | skip)
    | lift_lets -underBinder
    | split

theorem execMemberTableWrite_keeps {P : State → Prop} (h : Stable [.out, .ctr, .reg, .nv, .nvAny, .fn, .wfn, .pw, .pwAny, .pk, .wr, .notify, .sc, .scAny, .ss, .tm, .fb, .sv, .tx, .se, .sl, .slAny, .et, .dx, .fa, .journal, .mn, .mnAny, .ev] P) (a0 : _) (a1 : _) (a2 : _) (s : State) (hs : P (s.at a0)) : OkX P (execMemberTableWrite a0 a1 a2 s) := by
  have k1 := @welridBlock_keeps P (h.mono rfl)
  unfold execMemberTableWrite
  repeat'
    first
    | with_reducible assumption
    | rfl
    | (refine run_keeps ?_ (by assumption))
    | (with_reducible apply k1)
    | (with_reducible apply ite_keeps (P := P))
    | (with_reducible apply foldl_keeps (P := P))
    | (refine fun (t : State) (ht : P t) => ?_)
    | (refine fun (_ : _) (t : State) (ht : P t) => ?_)
    | (with_reducible intro t; first | (refine (fun (ht : P t) => ?_) (?_ : P t); rotate_left; subst t; rotate_right; clear_value t) | skip | skip)
    | lift_lets -underBinder
    | split

theorem execRouteWrite_keeps {P : State → Prop} (h : Stable [.out, .regs, .ctr, .reg, .nv, .nvAny, .fn, .wfn, .off, .pw, .pwAny, .pk, .pkAny, .wr, .notify, .sc, .scAny, .ss, .tm, .fb, .sv, .tx, .se, .sl, .slAny, .et, .dx, .fa, .journal, .mn, .mnAny, .ev] P) (a0 : _) (a1 : _) (a2 : _) (a3 : _) (s : State) (hs : P (s.at a0)) : OkX P (execRouteWrite a0 a1 a2 a3 s) := by
  have k1 := @welridWrite_keeps P (h.mono rfl)
  unfold execRouteWrite
  repeat'
    first
    | with_reducible assumption
    | rfl
    | (refine run_keeps ?_ (by assumption))
    | (with_reducible apply k1)
    | (with_reducible apply ite_keeps (P := P))
    | (with_reducible apply foldl_keeps (P := P))
    | (refine fun (t : State) (ht : P t) => ?_)
    | (refine fun (_ : _) (t : State) (ht : P t) => ?_)
    | (with_reducible intro t; first | (refine (fun (ht : P t) => ?_) (?_ : P t); rotate_left; subst t; rotate_right; clear_value t) | skip | skip)
    | lift_lets -underBinder
    | split

theorem execTreeParentWrite_keeps {P : State → Prop} (h : Stable [.out, .regs, .ctr, .reg, .nv, .nvAny, .fn, .wfn, .off, .pw, .pwAny, .pk, .pkAny, .wr, .notify, .sc, .scAny, .ss, .tm, .fb, .sv, .tx, .se, .sl, .slAny, .et, .dx, .fa, .journal, .mn, .mnAny, .ev] P) (a0 : _) (a1 : _) (a2 : _) (a3 : _) (s : State) (hs : P (s.at a0)) : OkX P (execTreeParentWrite a0 a1 a2 a3 s) := by
  have k1 := @welridWrite_keeps P (h.mono rfl)
  unfold execTreeParentWrite
  repeat'
    first
    | with_reducible assumption
    | rfl
    | (refine run_keeps ?_ (by assumption))
    | (with_reducible apply k1)
    | (with_reducible apply ite_keeps (P := P))
    | (with_reducible apply foldl_keeps (P := P))
    | (refine fun (t : State) (ht : P t) => ?_)
    | (refine fun (_ : _) (t : State) (ht : P t) => ?_)
    | (with_reducible intro t; first | (refine (fun (ht : P t) => ?_) (?_ : P t); rotate_left; subst t; rotate_right; clear_value t) | skip | skip)
    | lift_lets -underBinder
    | split

theorem execDeviceIndexWrite_keeps {P : State → Prop} (h : Stable [.out, .regs, .ctr, .reg, .nv, .nvAny, .fn, .wfn, .off, .pw, .pwAny, .pk, .pkAny, .wr, .notify, .sc, .scAny, .ss, .tm, .fb, .sv, .tx, .se, .sl, .slAny, .et, .dx, .fa, .journal, .mn, .mnAny, .ev] P) (a0 : _) (a1 : _) (a2 : _) (a3 : _) (s : State) (hs : P (s.at a0)) : OkX P (execDeviceIndexWrite a0 a1 a2 a3 s) := by
  have k1 := @welridWrite_keeps P (h.mono rfl)
  unfold execDeviceIndexWrite
  repeat'
    first
    | with_reducible assumption
    | rfl
    | (refine run_keeps ?_ (by assumption))
    | (with_reducible apply k1)
    | (with_reducible apply ite_keeps (P := P))
    | (with_reducible apply foldl_keeps (P := P))
    | (refine fun (t : State) (ht : P t) => ?_)
    | (refine fun (_ : _) (t : State) (ht : P t) => ?_)
    | (with_reducible intro t; first | (refine (fun (ht : P t) => ?_) (?_ : P t); rotate_left; subst t; rotate_right; clear_value t) | skip | skip)
    | lift_lets -underBinder
    | split

theorem execMonRequest_keeps {P : State → Prop} (h : Stable [.out, .regs, .ctr, .reg, .nv, .nvAny, .fn, .wfn, .off, .pw, .pwAny, .pk, .pkAny, .wr, .notify, .sc, .scAny, .ss, .tm, .fb, .sv, .tx, .se, .sl, .slAny, .et, .dx, .fa, .journal, .mn, .mnAny, .ev] P) (a0 : _) (a1 : _) (a2 : _) (a3 : _) (a4 : _) (s : State) (hs : P (s.at a0)) : OkX P (execMonRequest a0 a1 a2 a3 a4 s) := by
  have k1 := @welridWrite_keeps P (h.mono rfl)
  unfold execMonRequest
  repeat'
    first
    | with_reducible assumption
    | rfl
    | (refine run_keeps ?_ (by assumption))
    | (with_reducible apply k1)
    | (with_reducible apply ite_keeps (P := P))
    | (with_reducible apply foldl_keeps (P := P))
    | (refine fun (t : State) (ht : P t) => ?_)
    | (refine fun (_ : _) (t : State) (ht : P t) => ?_)
    | (with_reducible intro t; first | (refine (fun (ht : P t) => ?_) (?_ : P t); rotate_left; subst t; rotate_right; clear_value t) | skip | skip)
    | lift_lets -underBinder
    | split

theorem execMonConfigWrite_keeps {P : State → Prop} (h : Stable [.out, .regs, .ctr, .reg, .nv, .nvAny, .fn, .wfn, .off, .pw, .pwAny, .pk, .pkAny, .wr, .notify, .sc, .scAny, .ss, .tm, .fb, .sv, .tx, .se, .sl, .slAny, .et, .dx, .fa, .journal, .mn, .mnAny, .ev] P) (a0 : _) (a1 : _) (a2 : _) (a3 : _) (a4 : _) (s : State) (hs : P (s.at a0)) : OkX P (execMonConfigWrite a0 a1 a2 a3 a4 s) := by
  have k1 := @welridWrite_keeps P (h.mono rfl)
  unfold execMonConfigWrite
  repeat'
    first
    | with_reducible assumption
    | rfl
    | (refine run_keeps ?_ (by assumption))
    | (with_reducible apply k1)
    | (with_reducible apply ite_keeps (P := P))
    | (with_reducible apply foldl_keeps (P := P))
    | (refine fun (t : State) (ht : P t) => ?_)
    | (refine fun (_ : _) (t : State) (ht : P t) => ?_)
    | (with_reducible intro t; first | (refine (fun (ht : P t) => ?_) (?_ : P t); rotate_left; subst t; rotate_right; clear_value t) | skip | skip)
    | lift_lets -underBinder
    | split

theorem execTraceRequest_keeps {P : State → Prop} (h : Stable [.out, .regs, .ctr, .reg, .nv, .nvAny, .fn, .wfn, .off, .pw, .pwAny, .pk, .pkAny, .wr, .notify, .sc, .scAny, .ss, .tm, .fb, .sv, .tx, .se, .sl, .slAny, .et, .dx, .fa, .journal, .mn, .mnAny, .ev] P) (a0 : _) (a1 : _) (a2 : _) (s : State) (hs : P (s.at a0)) : OkX P (execTraceRequest a0 a1 a2 s) := by
  have k1 := @welridWrite_keeps P (h.mono rfl)
  unfold execTraceRequest
  repeat'
    first
    | with_reducible assumption
    | rfl
    | (refine run_keeps ?_ (by assumption))
    | (with_reducible apply k1)
    | (with_reducible apply ite_keeps (P := P))
    | (with_reducible apply foldl_keeps (P := P))
    | (refine fun (t : State) (ht : P t) => ?_)
    | (refine fun (_ : _) (t : State) (ht : P t) => ?_)
    | (with_reducible intro t; first | (refine (fun (ht : P t) => ?_) (?_ : P t); rotate_left; subst t; rotate_right; clear_value t) | skip | skip)
    | lift_lets -underBinder
    | split

theorem execTraceConfigWrite_keeps {P : State → Prop} (h : Stable [.out, .regs, .ctr, .reg, .nv, .nvAny, .fn, .wfn, .off, .pw, .pwAny, .pk, .pkAny, .wr, .notify, .sc, .scAny, .ss, .tm, .fb, .sv, .tx, .se, .sl, .slAny, .et, .dx, .fa, .journal, .mn, .mnAny, .ev] P) (a0 : _) (a1 : _) (a2 : _) (s : State) (hs : P (s.at a0)) : OkX P (execTraceConfigWrite a0 a1 a2 s) := by
  have k1 := @welridWrite_keeps P (h.mono rfl)
  unfold execTraceConfigWrite
  repeat'
    first
    | with_reducible assumption
    | rfl
    | (refine run_keeps ?_ (by assumption))
    | (with_reducible apply k1)
    | (with_reducible apply ite_keeps (P := P))
    | (with_reducible apply foldl_keeps (P := P))
    | (refine fun (t : State) (ht : P t) => ?_)
    | (refine fun (_ : _) (t : State) (ht : P t) => ?_)
    | (with_reducible intro t; first | (refine (fun (ht : P t) => ?_) (?_ : P t); rotate_left; subst t; rotate_right; clear_value t) | skip | skip)
    | lift_lets -underBinder
    | split

end Sys2Proof.Machine
end

