-- ==== Sys2Proof/Laws/KeepsMonitors.lean ====
section
/-! SUPPORT. What the operations of Machine/Monitors.lean can do to the state (`Laws/Keeps.lean`): one lemma per operation. -/

set_option linter.all false

namespace Sys2Proof.Machine

open Sys2Proof

theorem monTransition_keeps {P : State → Prop} (h : Stable [.out, .ctr, .nv, .nvAny, .fn, .wfn, .pw, .pwAny, .pk, .notify, .sc, .scAny, .ss, .tm, .fb, .sv, .tx, .se, .sl, .slAny, .et, .dx, .fa, .journal, .mn, .mnAny, .ev] P) (a0 : _) (s : State) (hs : P s) : P (monTransition a0 s) := by
  have k1 := @fnStarted_keeps P (h.mono rfl)
  have k2 := @fnStopped_keeps P (h.mono rfl)
  have k3 := @State.setMon_keeps P (h.mono rfl)
  unfold monTransition
  repeat'
    first
    | with_reducible assumption
    | rfl
    | (with_reducible apply k1)
    | (with_reducible apply k2)
    | (with_reducible apply k3)
    | (with_reducible apply ite_keeps (P := P))
    | (with_reducible apply when_keeps (P := P))
    | (with_reducible apply foldl_keeps (P := P))
    | (refine fun (t : State) (ht : P t) => ?_)
    | (refine fun (_ : _) (t : State) (ht : P t) => ?_)
    | (with_reducible intro t; first | (refine (fun (ht : P t) => ?_) (?_ : P t); rotate_left; subst t; rotate_right; clear_value t) | skip | skip)
    | lift_lets -underBinder
    | split

theorem traceTaken_keeps {P : State → Prop} (h : Stable [.mnAny] P) (s : State) (hs : P s) : P (traceTaken s) := by
  have pUmnAny := h.mnAny rfl
  unfold traceTaken
  repeat'
    first
    | ((with_reducible apply MnSide.mk); first | exact id | exact fun _ => Nat.zero_le _)
    | with_reducible assumption
    | rfl
    | (with_reducible apply ite_keeps (P := P))
    | (with_reducible apply foldl_keeps (P := P))
    | (refine fun (t : State) (ht : P t) => ?_)
    | (refine fun (_ : _) (t : State) (ht : P t) => ?_)
    | (with_reducible intro t; first | (refine (fun (ht : P t) => ?_) (?_ : P t); rotate_left; subst t; rotate_right; clear_value t) | skip | skip)
    | lift_lets -underBinder
    | split
    | (with_reducible apply pUmnAny)

theorem traceTransition_keeps {P : State → Prop} (h : Stable [.out, .ctr, .nv, .nvAny, .fn, .wfn, .pw, .pwAny, .pk, .notify, .sc, .scAny, .ss, .tm, .fb, .sv, .tx, .se, .sl, .slAny, .et, .dx, .fa, .journal, .mnAny, .ev] P) (s : State) (hs : P s) : P (traceTransition s) := by
  have k1 := @fnStarted_keeps P (h.mono rfl)
  have k2 := @traceTaken_keeps P (h.mono rfl)
  have k3 := @fnStopped_keeps P (h.mono rfl)
  unfold traceTransition
  repeat'
    first
    | with_reducible assumption
    | rfl
    | (with_reducible apply k1)
    | (with_reducible apply k2)
    | (with_reducible apply k3)
    | (with_reducible apply ite_keeps (P := P))
    | (with_reducible apply foldl_keeps (P := P))
    | (refine fun (t : State) (ht : P t) => ?_)
    | (refine fun (_ : _) (t : State) (ht : P t) => ?_)
    | (with_reducible intro t; first | (refine (fun (ht : P t) => ?_) (?_ : P t); rotate_left; subst t; rotate_right; clear_value t) | skip | skip)
    | lift_lets -underBinder
    | split

theorem execMonitorTransition_keeps {P : State → Prop} (h : Stable [.out, .ctr, .nv, .nvAny, .fn, .wfn, .pw, .pwAny, .pk, .notify, .sc, .scAny, .ss, .tm, .fb, .sv, .tx, .se, .sl, .slAny, .et, .dx, .fa, .journal, .mn, .mnAny, .ev] P) (a0 : _) (a1 : _) (s : State) (hs : P (s.at a0)) : OkX P (execMonitorTransition a0 a1 s) := by
  have k1 := @monTransition_keeps P (h.mono rfl)
  have k2 := @traceTransition_keeps P (h.mono rfl)
  unfold execMonitorTransition
  repeat'
    first
    | with_reducible assumption
    | rfl
    | (refine run_keeps ?_ (by assumption))
    | (with_reducible apply k1)
    | (with_reducible apply k2)
    | (with_reducible apply ite_keeps (P := P))
    | (with_reducible apply foldl_keeps (P := P))
    | (refine fun (t : State) (ht : P t) => ?_)
    | (refine fun (_ : _) (t : State) (ht : P t) => ?_)
    | (with_reducible intro t; first | (refine (fun (ht : P t) => ?_) (?_ : P t); rotate_left; subst t; rotate_right; clear_value t) | skip | skip)
    | lift_lets -underBinder
    | split

theorem execMonitorWindowEnd_keeps {P : State → Prop} (h : Stable [.mn] P) (a0 : _) (a1 : _) (s : State) (hs : P (s.at a0)) : OkX P (execMonitorWindowEnd a0 a1 s) := by
  have k1 := @State.setMon_keeps P (h.mono rfl)
  unfold execMonitorWindowEnd
  repeat'
    first
    | with_reducible assumption
    | rfl
    | (refine run_keeps ?_ (by assumption))
    | (with_reducible apply k1)
    | (with_reducible apply ite_keeps (P := P))
    | (with_reducible apply when_keeps (P := P))
    | (with_reducible apply foldl_keeps (P := P))
    | (refine fun (t : State) (ht : P t) => ?_)
    | (refine fun (_ : _) (t : State) (ht : P t) => ?_)
    | (with_reducible intro t; first | (refine (fun (ht : P t) => ?_) (?_ : P t); rotate_left; subst t; rotate_right; clear_value t) | skip | skip)
    | lift_lets -underBinder
    | split

theorem execTraceBufferFull_keeps {P : State → Prop} (h : Stable [.out, .ctr, .nv, .fn, .wfn, .pw, .pwAny, .pk, .notify, .sc, .scAny, .ss, .tm, .fb, .sv, .tx, .se, .sl, .slAny, .et, .dx, .fa, .journal, .ev] P) (a0 : _) (s : State) (hs : P (s.at a0)) : OkX P (execTraceBufferFull a0 s) := by
  have k1 := @beginStop_keeps P (h.mono rfl)
  have pNotify := h.notify rfl
  unfold execTraceBufferFull
  repeat'
    first
    | with_reducible assumption
    | rfl
    | (refine run_keeps ?_ (by assumption))
    | (with_reducible apply k1)
    | (with_reducible apply pNotify)
    | (with_reducible apply ite_keeps (P := P))
    | (with_reducible apply when_keeps (P := P))
    | (with_reducible apply foldl_keeps (P := P))
    | (refine fun (t : State) (ht : P t) => ?_)
    | (refine fun (_ : _) (t : State) (ht : P t) => ?_)
    | (with_reducible intro t; first | (refine (fun (ht : P t) => ?_) (?_ : P t); rotate_left; subst t; rotate_right; clear_value t) | skip | skip)
    | lift_lets -underBinder
    | split

theorem execTraceStopPick_keeps {P : State → Prop} (h : Stable [.out, .ctr, .nv, .nvAny, .fn, .wfn, .pw, .pwAny, .pk, .notify, .sc, .scAny, .ss, .tm, .fb, .sv, .tx, .se, .sl, .slAny, .et, .dx, .fa, .journal, .mnAny, .ev] P) (a0 : _) (s : State) (hs : P (s.at a0)) : OkX P (execTraceStopPick a0 s) := by
  have k1 := @fnStopped_keeps P (h.mono rfl)
  have k2 := @beginStop_keeps P (h.mono rfl)
  have k3 := @traceTaken_keeps P (h.mono rfl)
  unfold execTraceStopPick
  repeat'
    first
    | with_reducible assumption
    | rfl
    | (refine run_keeps ?_ (by assumption))
    | (with_reducible apply k1)
    | (with_reducible apply k2)
    | (with_reducible apply k3)
    | (with_reducible apply ite_keeps (P := P))
    | (with_reducible apply when_keeps (P := P))
    | (with_reducible apply foldl_keeps (P := P))
    | (refine fun (t : State) (ht : P t) => ?_)
    | (refine fun (_ : _) (t : State) (ht : P t) => ?_)
    | (with_reducible intro t; first | (refine (fun (ht : P t) => ?_) (?_ : P t); rotate_left; subst t; rotate_right; clear_value t) | skip | skip)
    | lift_lets -underBinder
    | split

end Sys2Proof.Machine
end

