-- ==== Sys2Proof/Laws/KeepsPackage.lean ====
section
/-! SUPPORT. What the operations of Machine/Package.lean can do to the state (`Laws/Keeps.lean`): one lemma per operation. -/

set_option linter.all false

namespace Sys2Proof.Machine

open Sys2Proof

theorem execPrechargeStart_keeps {P : State → Prop} (h : Stable [.pwAny] P) (a0 : _) (s : State) (hs : P (s.at a0)) : OkX P (execPrechargeStart a0 s) := by
  have pUpwAny := h.pwAny rfl
  unfold execPrechargeStart
  repeat'
    first
    | ((with_reducible apply PwSide.mk); first | exact id | (dsimp only at *; omega))
    | with_reducible assumption
    | rfl
    | (refine runAny_keeps ?_ (by assumption))
    | (with_reducible apply ite_keeps (P := P))
    | (with_reducible apply when_keeps (P := P))
    | (with_reducible apply foldl_keeps (P := P))
    | (refine fun (t : State) (ht : P t) => ?_)
    | (refine fun (_ : _) (t : State) (ht : P t) => ?_)
    | (with_reducible intro t; first | (refine (fun (ht : P t) => ?_) (?_ : P t); rotate_left; subst t; rotate_right; clear_value t) | skip | skip)
    | lift_lets -underBinder
    | split
    | (with_reducible apply pUpwAny)

theorem isolate_keeps {P : State → Prop} (h : Stable [.pwAny] P) (s : State) (hs : P s) : P (isolate s) := by
  have pUpwAny := h.pwAny rfl
  unfold isolate
  repeat'
    first
    | ((with_reducible apply PwSide.mk); first | exact id | (dsimp only at *; omega))
    | with_reducible assumption
    | rfl
    | (with_reducible apply ite_keeps (P := P))
    | (with_reducible apply foldl_keeps (P := P))
    | (refine fun (t : State) (ht : P t) => ?_)
    | (refine fun (_ : _) (t : State) (ht : P t) => ?_)
    | (with_reducible intro t; first | (refine (fun (ht : P t) => ?_) (?_ : P t); rotate_left; subst t; rotate_right; clear_value t) | skip | skip)
    | lift_lets -underBinder
    | split
    | (with_reducible apply pUpwAny)

theorem execBusCharged_keeps {P : State → Prop} (h : Stable [.regs, .ctr, .reg, .nvAny, .fn, .pwAny, .pkAny, .wr, .notify, .scAny, .tm, .sv, .sl, .dx, .journal, .mnAny, .ev] P) (a0 : _) (s : State) (hs : P (s.at a0)) : OkX P (execBusCharged a0 s) := by
  have k1 := @isolate_keeps P (h.mono rfl)
  have k2 := @bootStart_keeps P (h.mono rfl)
  unfold execBusCharged
  repeat'
    first
    | with_reducible assumption
    | rfl
    | (refine runAny_keeps ?_ (by assumption))
    | (with_reducible apply k1)
    | (with_reducible apply k2)
    | (with_reducible apply ite_keeps (P := P))
    | (with_reducible apply foldl_keeps (P := P))
    | (refine fun (t : State) (ht : P t) => ?_)
    | (refine fun (_ : _) (t : State) (ht : P t) => ?_)
    | (with_reducible intro t; first | (refine (fun (ht : P t) => ?_) (?_ : P t); rotate_left; subst t; rotate_right; clear_value t) | skip | skip)
    | lift_lets -underBinder
    | split

theorem enterManaged_keeps {P : State → Prop} (h : Stable [.out, .ctr, .nv, .nvAny, .fn, .wfn, .pw, .pwAny, .pk, .notify, .sc, .scAny, .ss, .tm, .fb, .sv, .tx, .se, .sl, .slAny, .et, .dx, .fa, .journal, .mnAny, .ev] P) (s : State) (hs : P s) : P (enterManaged s) := by
  have k1 := @State.setPkg_keeps P (h.mono rfl)
  have k2 := @fnStarted_keeps P (h.mono rfl)
  have k3 := @confirmFirmware_keeps P (h.mono rfl)
  have k4 := @serveIfUp_keeps P (h.mono rfl)
  have k5 := @bringup_keeps P (h.mono rfl)
  unfold enterManaged
  repeat'
    first
    | with_reducible assumption
    | rfl
    | (with_reducible apply k1)
    | (with_reducible apply k2)
    | (with_reducible apply k3)
    | (with_reducible apply k4)
    | (with_reducible apply k5)
    | (with_reducible apply ite_keeps (P := P))
    | (with_reducible apply when_keeps (P := P))
    | (with_reducible apply foldl_keeps (P := P))
    | (refine fun (t : State) (ht : P t) => ?_)
    | (refine fun (_ : _) (t : State) (ht : P t) => ?_)
    | (with_reducible intro t; first | (refine (fun (ht : P t) => ?_) (?_ : P t); rotate_left; subst t; rotate_right; clear_value t) | skip | skip)
    | lift_lets -underBinder
    | split

theorem execBootComplete_keeps {P : State → Prop} (h : Stable [.out, .ctr, .nv, .nvAny, .fn, .wfn, .pw, .pwAny, .pk, .notify, .sc, .scAny, .ss, .tm, .fb, .sv, .tx, .se, .sl, .slAny, .et, .dx, .fa, .journal, .mnAny, .ev] P) (a0 : _) (a1 : _) (s : State) (hs : P (s.at a0)) : OkX P (execBootComplete a0 a1 s) := by
  have k1 := @enterManaged_keeps P (h.mono rfl)
  have pUpwAny := h.pwAny rfl
  unfold execBootComplete
  repeat'
    first
    | ((with_reducible apply PwSide.mk); first | exact id | (dsimp only at *; omega))
    | with_reducible assumption
    | rfl
    | (refine run_keeps ?_ (by assumption))
    | (with_reducible apply k1)
    | (with_reducible apply ite_keeps (P := P))
    | (with_reducible apply foldl_keeps (P := P))
    | (refine fun (t : State) (ht : P t) => ?_)
    | (refine fun (_ : _) (t : State) (ht : P t) => ?_)
    | (with_reducible intro t; first | (refine (fun (ht : P t) => ?_) (?_ : P t); rotate_left; subst t; rotate_right; clear_value t) | skip | skip)
    | lift_lets -underBinder
    | split
    | (with_reducible apply pUpwAny)

theorem execInputExcursionEnd_keeps {P : State → Prop} (h : Stable [.ctr, .ev] P) (a0 : _) (a1 : _) (a2 : _) (s : State) (hs : P (s.at a0)) : OkX P (execInputExcursionEnd a0 a1 a2 s) := by
  have pInc := h.ctrInc rfl
  have pEv := h.ev rfl
  unfold execInputExcursionEnd
  repeat'
    first
    | with_reducible assumption
    | rfl
    | (refine run_keeps ?_ (by assumption))
    | (with_reducible apply pInc)
    | (with_reducible apply pEv)
    | (with_reducible apply ite_keeps (P := P))
    | (with_reducible apply when_keeps (P := P))
    | (with_reducible apply foldl_keeps (P := P))
    | (refine fun (t : State) (ht : P t) => ?_)
    | (refine fun (_ : _) (t : State) (ht : P t) => ?_)
    | (with_reducible intro t; first | (refine (fun (ht : P t) => ?_) (?_ : P t); rotate_left; subst t; rotate_right; clear_value t) | skip | skip)
    | lift_lets -underBinder
    | split

theorem execExcursionTimeout_keeps {P : State → Prop} (h : Stable [.out, .ctr, .nvAny, .iso, .pwAny, .notify, .ss, .sl, .dx, .fa, .journal, .ev] P) (a0 : _) (s : State) (hs : P (s.at a0)) : OkX P (execExcursionTimeout a0 s) := by
  have k1 := @fatalPath_keeps P (h.mono rfl)
  unfold execExcursionTimeout
  repeat'
    first
    | with_reducible assumption
    | rfl
    | (refine run_keeps ?_ (by assumption))
    | (with_reducible apply k1)
    | (with_reducible apply ite_keeps (P := P))
    | (with_reducible apply foldl_keeps (P := P))
    | (refine fun (t : State) (ht : P t) => ?_)
    | (refine fun (_ : _) (t : State) (ht : P t) => ?_)
    | (with_reducible intro t; first | (refine (fun (ht : P t) => ?_) (?_ : P t); rotate_left; subst t; rotate_right; clear_value t) | skip | skip)
    | lift_lets -underBinder
    | split

theorem execCollapseTimeout_keeps {P : State → Prop} (h : Stable [.out, .ctr, .nvAny, .iso, .pwAny, .notify, .ss, .sl, .dx, .fa, .journal, .ev] P) (a0 : _) (s : State) (hs : P (s.at a0)) : OkX P (execCollapseTimeout a0 s) := by
  have k1 := @fatalPath_keeps P (h.mono rfl)
  unfold execCollapseTimeout
  repeat'
    first
    | with_reducible assumption
    | rfl
    | (refine run_keeps ?_ (by assumption))
    | (with_reducible apply k1)
    | (with_reducible apply ite_keeps (P := P))
    | (with_reducible apply foldl_keeps (P := P))
    | (refine fun (t : State) (ht : P t) => ?_)
    | (refine fun (_ : _) (t : State) (ht : P t) => ?_)
    | (with_reducible intro t; first | (refine (fun (ht : P t) => ?_) (?_ : P t); rotate_left; subst t; rotate_right; clear_value t) | skip | skip)
    | lift_lets -underBinder
    | split

theorem execThermalTrip_keeps {P : State → Prop} (h : Stable [.out, .ctr, .nvAny, .iso, .pwAny, .notify, .ss, .sl, .dx, .fa, .journal, .ev] P) (a0 : _) (s : State) (hs : P (s.at a0)) : OkX P (execThermalTrip a0 s) := by
  have k1 := @fatalPath_keeps P (h.mono rfl)
  unfold execThermalTrip
  repeat'
    first
    | with_reducible assumption
    | rfl
    | (refine run_keeps ?_ (by assumption))
    | (with_reducible apply k1)
    | (with_reducible apply ite_keeps (P := P))
    | (with_reducible apply foldl_keeps (P := P))
    | (refine fun (t : State) (ht : P t) => ?_)
    | (refine fun (_ : _) (t : State) (ht : P t) => ?_)
    | (with_reducible intro t; first | (refine (fun (ht : P t) => ?_) (?_ : P t); rotate_left; subst t; rotate_right; clear_value t) | skip | skip)
    | lift_lets -underBinder
    | split

theorem countHot_keeps {P : State → Prop} (h : Stable [.pwAny, .ev] P) (s : State) (hs : P s) : P (countHot s) := by
  have pEv := h.ev rfl
  have pUpwAny := h.pwAny rfl
  unfold countHot
  repeat'
    first
    | ((with_reducible apply PwSide.mk); first | exact id | (dsimp only at *; omega))
    | with_reducible assumption
    | rfl
    | (with_reducible apply pEv)
    | (with_reducible apply ite_keeps (P := P))
    | (with_reducible apply foldl_keeps (P := P))
    | (refine fun (t : State) (ht : P t) => ?_)
    | (refine fun (_ : _) (t : State) (ht : P t) => ?_)
    | (with_reducible intro t; first | (refine (fun (ht : P t) => ?_) (?_ : P t); rotate_left; subst t; rotate_right; clear_value t) | skip | skip)
    | lift_lets -underBinder
    | split
    | (with_reducible apply pUpwAny)

theorem raiseLevel_keeps {P : State → Prop} (h : Stable [.pwAny, .ev] P) (s : State) (hs : P s) : P (raiseLevel s) := by
  unfold raiseLevel
  split
  · rename_i l
    exact h.ev rfl _ _ _ _ _ _ _ (h.pwAny rfl s _ (fun _ => l) hs)
  · exact hs

theorem lowerLevel_keeps {P : State → Prop} (h : Stable [.pwAny, .ev] P) (s : State) (hs : P s) : P (lowerLevel s) := by
  have k1 := @countHot_keeps P (h.mono rfl) s hs
  unfold lowerLevel
  split
  · extract_lets u since
    have hu : P u := k1
    clear_value u
    exact h.ev rfl _ _ _ _ _ _ _ (h.pwAny rfl u _ (fun q => Nat.le_trans (Nat.sub_le _ _) q) hu)
  · exact hs

theorem execCurrentLimitTick_keeps {P : State → Prop} (h : Stable [.ctr, .pwAny, .ev] P) (a0 : _) (a1 : _) (s : State) (hs : P (s.at a0)) : OkX P (execCurrentLimitTick a0 a1 s) := by
  have k1 := @raiseLevel_keeps P (h.mono rfl)
  have pInc := h.ctrInc rfl
  have pEv := h.ev rfl
  have pUpwAny := h.pwAny rfl
  unfold execCurrentLimitTick
  repeat'
    first
    | ((with_reducible apply PwSide.mk); first | exact id | (dsimp only at *; omega))
    | with_reducible assumption
    | rfl
    | (refine run_keeps ?_ (by assumption))
    | (with_reducible apply k1)
    | (with_reducible apply pInc)
    | (with_reducible apply pEv)
    | (with_reducible apply ite_keeps (P := P))
    | (with_reducible apply foldl_keeps (P := P))
    | (refine fun (t : State) (ht : P t) => ?_)
    | (refine fun (_ : _) (t : State) (ht : P t) => ?_)
    | (with_reducible intro t; first | (refine (fun (ht : P t) => ?_) (?_ : P t); rotate_left; subst t; rotate_right; clear_value t) | skip | skip)
    | lift_lets -underBinder
    | split
    | (with_reducible apply pUpwAny)

theorem holdSensors_keeps {P : State → Prop} (h : Stable [.pwAny] P) (a0 : _) (s : State) (hs : P s) : P (holdSensors a0 s) := by
  have pUpwAny := h.pwAny rfl
  unfold holdSensors
  repeat'
    first
    | ((with_reducible apply PwSide.mk); first | exact id | (dsimp only at *; omega))
    | with_reducible assumption
    | rfl
    | (with_reducible apply ite_keeps (P := P))
    | (with_reducible apply foldl_keeps (P := P))
    | (refine fun (t : State) (ht : P t) => ?_)
    | (refine fun (_ : _) (t : State) (ht : P t) => ?_)
    | (with_reducible intro t; first | (refine (fun (ht : P t) => ?_) (?_ : P t); rotate_left; subst t; rotate_right; clear_value t) | skip | skip)
    | lift_lets -underBinder
    | split
    | (with_reducible apply pUpwAny)

theorem throttle_keeps {P : State → Prop} (h : Stable [.pwAny, .ev] P) (a0 : _) (s : State) (hs : P s) : P (throttle a0 s) := by
  have k1 := @raiseLevel_keeps P (h.mono rfl)
  have k2 := @lowerLevel_keeps P (h.mono rfl)
  have pUpwAny := h.pwAny rfl
  unfold throttle
  repeat'
    first
    | ((with_reducible apply PwSide.mk); first | exact id | (dsimp only at *; omega))
    | with_reducible assumption
    | rfl
    | (with_reducible apply k1)
    | (with_reducible apply k2)
    | (with_reducible apply ite_keeps (P := P))
    | (with_reducible apply foldl_keeps (P := P))
    | (refine fun (t : State) (ht : P t) => ?_)
    | (refine fun (_ : _) (t : State) (ht : P t) => ?_)
    | (with_reducible intro t; first | (refine (fun (ht : P t) => ?_) (?_ : P t); rotate_left; subst t; rotate_right; clear_value t) | skip | skip)
    | lift_lets -underBinder
    | split
    | (with_reducible apply pUpwAny)

theorem execThrottleEvaluate_keeps {P : State → Prop} (h : Stable [.pwAny, .ev] P) (a0 : _) (a1 : _) (s : State) (hs : P (s.at a0)) : OkX P (execThrottleEvaluate a0 a1 s) := by
  have k1 := @throttle_keeps P (h.mono rfl)
  have k2 := @countHot_keeps P (h.mono rfl)
  have k3 := @holdSensors_keeps P (h.mono rfl)
  unfold execThrottleEvaluate
  repeat'
    first
    | with_reducible assumption
    | rfl
    | (refine run_keeps ?_ (by assumption))
    | (with_reducible apply k1)
    | (with_reducible apply k2)
    | (with_reducible apply k3)
    | (with_reducible apply ite_keeps (P := P))
    | (with_reducible apply foldl_keeps (P := P))
    | (refine fun (t : State) (ht : P t) => ?_)
    | (refine fun (_ : _) (t : State) (ht : P t) => ?_)
    | (with_reducible intro t; first | (refine (fun (ht : P t) => ?_) (?_ : P t); rotate_left; subst t; rotate_right; clear_value t) | skip | skip)
    | lift_lets -underBinder
    | split

theorem execHbmRefreshDoubling_keeps {P : State → Prop} (h : Stable [.pwAny, .ev] P) (a0 : _) (a1 : _) (a2 : _) (s : State) (hs : P (s.at a0)) : OkX P (execHbmRefreshDoubling a0 a1 a2 s) := by
  have pEv := h.ev rfl
  have pUpwAny := h.pwAny rfl
  unfold execHbmRefreshDoubling
  repeat'
    first
    | ((with_reducible apply PwSide.mk); first | exact id | (dsimp only at *; omega))
    | with_reducible assumption
    | rfl
    | (refine run_keeps ?_ (by assumption))
    | (with_reducible apply pEv)
    | (with_reducible apply ite_keeps (P := P))
    | (with_reducible apply when_keeps (P := P))
    | (with_reducible apply foldl_keeps (P := P))
    | (refine fun (t : State) (ht : P t) => ?_)
    | (refine fun (_ : _) (t : State) (ht : P t) => ?_)
    | (with_reducible intro t; first | (refine (fun (ht : P t) => ?_) (?_ : P t); rotate_left; subst t; rotate_right; clear_value t) | skip | skip)
    | lift_lets -underBinder
    | split
    | (with_reducible apply pUpwAny)

theorem execSurpriseRemoval_keeps {P : State → Prop} (h : Stable [.ctr, .nvAny, .off, .journal] P) (a0 : _) (s : State) (hs : P (s.at a0)) : OkX P (execSurpriseRemoval a0 s) := by
  have k1 := @closeIndex_keeps P (h.mono rfl)
  have k2 := @State.copyJournal_keeps P (h.mono rfl)
  have pJournal := h.journal rfl
  have pOff := h.off rfl
  unfold execSurpriseRemoval
  repeat'
    first
    | with_reducible assumption
    | rfl
    | (refine runAny_keeps ?_ (by assumption))
    | (with_reducible apply k1)
    | (with_reducible apply k2)
    | (with_reducible apply pJournal)
    | (with_reducible apply pOff)
    | (with_reducible apply ite_keeps (P := P))
    | (with_reducible apply when_keeps (P := P))
    | (with_reducible apply foldl_keeps (P := P))
    | (refine fun (t : State) (ht : P t) => ?_)
    | (refine fun (_ : _) (t : State) (ht : P t) => ?_)
    | (with_reducible intro t; first | (refine (fun (ht : P t) => ?_) (?_ : P t); rotate_left; subst t; rotate_right; clear_value t) | skip | skip)
    | lift_lets -underBinder
    | split

theorem execPowerRemoval_keeps {P : State → Prop} (h : Stable [.off] P) (a0 : _) (s : State) (hs : P (s.at a0)) : OkX P (execPowerRemoval a0 s) := by
  have pOff := h.off rfl
  unfold execPowerRemoval
  repeat'
    first
    | with_reducible assumption
    | rfl
    | (refine runAny_keeps ?_ (by assumption))
    | (with_reducible apply pOff)
    | (with_reducible apply ite_keeps (P := P))
    | (with_reducible apply when_keeps (P := P))
    | (with_reducible apply foldl_keeps (P := P))
    | (refine fun (t : State) (ht : P t) => ?_)
    | (refine fun (_ : _) (t : State) (ht : P t) => ?_)
    | (with_reducible intro t; first | (refine (fun (ht : P t) => ?_) (?_ : P t); rotate_left; subst t; rotate_right; clear_value t) | skip | skip)
    | lift_lets -underBinder
    | split

theorem execForceOffAssert_keeps {P : State → Prop} (h : Stable [.out, .ctr, .nvAny, .iso, .pwAny, .notify, .ss, .sl, .dx, .fa, .journal, .ev] P) (a0 : _) (s : State) (hs : P (s.at a0)) : OkX P (execForceOffAssert a0 s) := by
  have k1 := @fatalPath_keeps P (h.mono rfl)
  have pUpwAny := h.pwAny rfl
  unfold execForceOffAssert
  repeat'
    first
    | ((with_reducible apply PwSide.mk); first | exact id | (dsimp only at *; omega))
    | with_reducible assumption
    | rfl
    | (refine runAny_keeps ?_ (by assumption))
    | (with_reducible apply k1)
    | (with_reducible apply ite_keeps (P := P))
    | (with_reducible apply when_keeps (P := P))
    | (with_reducible apply foldl_keeps (P := P))
    | (refine fun (t : State) (ht : P t) => ?_)
    | (refine fun (_ : _) (t : State) (ht : P t) => ?_)
    | (with_reducible intro t; first | (refine (fun (ht : P t) => ?_) (?_ : P t); rotate_left; subst t; rotate_right; clear_value t) | skip | skip)
    | lift_lets -underBinder
    | split
    | (with_reducible apply pUpwAny)

theorem execForceOffRelease_keeps {P : State → Prop} (h : Stable [.regs, .ctr, .reg, .nvAny, .fn, .off, .pwAny, .pkAny, .wr, .notify, .scAny, .tm, .sv, .sl, .dx, .journal, .mnAny, .ev] P) (a0 : _) (s : State) (hs : P (s.at a0)) : OkX P (execForceOffRelease a0 s) := by
  have k1 := @bootStart_keeps P (h.mono rfl)
  have pOff := h.off rfl
  have pUpwAny := h.pwAny rfl
  unfold execForceOffRelease
  repeat'
    first
    | ((with_reducible apply PwSide.mk); first | exact id | (dsimp only at *; omega))
    | with_reducible assumption
    | rfl
    | (refine runAny_keeps ?_ (by assumption))
    | (with_reducible apply k1)
    | (with_reducible apply pOff)
    | (with_reducible apply ite_keeps (P := P))
    | (with_reducible apply when_keeps (P := P))
    | (with_reducible apply foldl_keeps (P := P))
    | (refine fun (t : State) (ht : P t) => ?_)
    | (refine fun (_ : _) (t : State) (ht : P t) => ?_)
    | (with_reducible intro t; first | (refine (fun (ht : P t) => ?_) (?_ : P t); rotate_left; subst t; rotate_right; clear_value t) | skip | skip)
    | lift_lets -underBinder
    | split
    | (with_reducible apply pUpwAny)

theorem execPackageReset_keeps {P : State → Prop} (h : Stable [.out, .regs, .ctr, .reg, .nv, .nvAny, .fn, .wfn, .off, .pw, .pwAny, .pk, .pkAny, .wr, .notify, .sc, .scAny, .ss, .tm, .fb, .sv, .tx, .se, .sl, .slAny, .et, .dx, .fa, .journal, .mn, .mnAny, .ev] P) (a0 : _) (a1 : _) (s : State) (hs : P (s.at a0)) : OkX P (execPackageReset a0 a1 s) := by
  have k1 := @welridWrite_keeps P (h.mono rfl)
  unfold execPackageReset
  repeat'
    first
    | with_reducible assumption
    | rfl
    | (refine run_keeps ?_ (by assumption))
    | (with_reducible apply k1)
    | (with_reducible apply ite_keeps (P := P))
    | (with_reducible apply foldl_keeps (P := P))
    | (refine fun (t : State) (ht : P t) => ?_)
    | (refine fun (_ : _) (t : State) (ht : P t) => ?_)
    | (with_reducible intro t; first | (refine (fun (ht : P t) => ?_) (?_ : P t); rotate_left; subst t; rotate_right; clear_value t) | skip | skip)
    | lift_lets -underBinder
    | split

theorem execRemoveRequest_keeps {P : State → Prop} (h : Stable [.out, .regs, .ctr, .reg, .nv, .nvAny, .fn, .wfn, .off, .pw, .pwAny, .pk, .pkAny, .wr, .notify, .sc, .scAny, .ss, .tm, .fb, .sv, .tx, .se, .sl, .slAny, .et, .dx, .fa, .journal, .mn, .mnAny, .ev] P) (a0 : _) (a1 : _) (s : State) (hs : P (s.at a0)) : OkX P (execRemoveRequest a0 a1 s) := by
  have k1 := @welridWrite_keeps P (h.mono rfl)
  unfold execRemoveRequest
  repeat'
    first
    | with_reducible assumption
    | rfl
    | (refine run_keeps ?_ (by assumption))
    | (with_reducible apply k1)
    | (with_reducible apply ite_keeps (P := P))
    | (with_reducible apply foldl_keeps (P := P))
    | (refine fun (t : State) (ht : P t) => ?_)
    | (refine fun (_ : _) (t : State) (ht : P t) => ?_)
    | (with_reducible intro t; first | (refine (fun (ht : P t) => ?_) (?_ : P t); rotate_left; subst t; rotate_right; clear_value t) | skip | skip)
    | lift_lets -underBinder
    | split

theorem execRemoveRequestSkip_keeps {P : State → Prop} (h : Stable [.out, .regs, .ctr, .reg, .nv, .nvAny, .fn, .wfn, .off, .pw, .pwAny, .pk, .pkAny, .wr, .notify, .sc, .scAny, .ss, .tm, .fb, .sv, .tx, .se, .sl, .slAny, .et, .dx, .fa, .journal, .mn, .mnAny, .ev] P) (a0 : _) (a1 : _) (s : State) (hs : P (s.at a0)) : OkX P (execRemoveRequestSkip a0 a1 s) := by
  have k1 := @welridWrite_keeps P (h.mono rfl)
  unfold execRemoveRequestSkip
  repeat'
    first
    | with_reducible assumption
    | rfl
    | (refine run_keeps ?_ (by assumption))
    | (with_reducible apply k1)
    | (with_reducible apply ite_keeps (P := P))
    | (with_reducible apply foldl_keeps (P := P))
    | (refine fun (t : State) (ht : P t) => ?_)
    | (refine fun (_ : _) (t : State) (ht : P t) => ?_)
    | (with_reducible intro t; first | (refine (fun (ht : P t) => ?_) (?_ : P t); rotate_left; subst t; rotate_right; clear_value t) | skip | skip)
    | lift_lets -underBinder
    | split

theorem execRemoveRequestCancel_keeps {P : State → Prop} (h : Stable [.out, .regs, .ctr, .reg, .nv, .nvAny, .fn, .wfn, .off, .pw, .pwAny, .pk, .pkAny, .wr, .notify, .sc, .scAny, .ss, .tm, .fb, .sv, .tx, .se, .sl, .slAny, .et, .dx, .fa, .journal, .mn, .mnAny, .ev] P) (a0 : _) (a1 : _) (s : State) (hs : P (s.at a0)) : OkX P (execRemoveRequestCancel a0 a1 s) := by
  have k1 := @welridWrite_keeps P (h.mono rfl)
  unfold execRemoveRequestCancel
  repeat'
    first
    | with_reducible assumption
    | rfl
    | (refine run_keeps ?_ (by assumption))
    | (with_reducible apply k1)
    | (with_reducible apply ite_keeps (P := P))
    | (with_reducible apply foldl_keeps (P := P))
    | (refine fun (t : State) (ht : P t) => ?_)
    | (refine fun (_ : _) (t : State) (ht : P t) => ?_)
    | (with_reducible intro t; first | (refine (fun (ht : P t) => ?_) (?_ : P t); rotate_left; subst t; rotate_right; clear_value t) | skip | skip)
    | lift_lets -underBinder
    | split

theorem drainLate_keeps {P : State → Prop} (h : Stable [.ctr, .pwAny, .notify] P) (s : State) (hs : P s) : P (drainLate s) := by
  have pSet := h.ctr rfl
  have pNotify := h.notify rfl
  have pUpwAny := h.pwAny rfl
  unfold drainLate
  repeat'
    first
    | ((with_reducible apply PwSide.mk); first | exact id | (dsimp only at *; omega))
    | with_reducible assumption
    | rfl
    | (with_reducible apply pSet)
    | (with_reducible apply pNotify)
    | (with_reducible apply ite_keeps (P := P))
    | (with_reducible apply foldl_keeps (P := P))
    | (refine fun (t : State) (ht : P t) => ?_)
    | (refine fun (_ : _) (t : State) (ht : P t) => ?_)
    | (with_reducible intro t; first | (refine (fun (ht : P t) => ?_) (?_ : P t); rotate_left; subst t; rotate_right; clear_value t) | skip | skip)
    | lift_lets -underBinder
    | split
    | (with_reducible apply pUpwAny)

theorem execDrainTimeout_keeps {P : State → Prop} (h : Stable [.ctr, .pwAny, .notify] P) (a0 : _) (s : State) (hs : P (s.at a0)) : OkX P (execDrainTimeout a0 s) := by
  have k1 := @drainLate_keeps P (h.mono rfl)
  unfold execDrainTimeout
  repeat'
    first
    | with_reducible assumption
    | rfl
    | (refine run_keeps ?_ (by assumption))
    | (with_reducible apply k1)
    | (with_reducible apply ite_keeps (P := P))
    | (with_reducible apply when_keeps (P := P))
    | (with_reducible apply foldl_keeps (P := P))
    | (refine fun (t : State) (ht : P t) => ?_)
    | (refine fun (_ : _) (t : State) (ht : P t) => ?_)
    | (with_reducible intro t; first | (refine (fun (ht : P t) => ?_) (?_ : P t); rotate_left; subst t; rotate_right; clear_value t) | skip | skip)
    | lift_lets -underBinder
    | split

theorem removeReady_keeps {P : State → Prop} (h : Stable [.out, .ctr, .nv, .nvAny, .fn, .wfn, .pw, .pwAny, .pk, .notify, .sc, .ss, .tm, .fb, .sv, .tx, .se, .sl, .slAny, .dx, .fa, .journal, .mn, .mnAny, .ev] P) (s : State) (hs : P s) : P (removeReady s) := by
  have k1 := @closeIndex_keeps P (h.mono rfl)
  have k2 := @State.copyJournal_keeps P (h.mono rfl)
  have k3 := @stopForRemoval_keeps P (h.mono rfl)
  have k4 := @State.setPkg_keeps P (h.mono rfl)
  unfold removeReady
  extract_lets u
  have hu : P u := k1 _ (k2 _ (k3 s hs))
  clear_value u
  exact k4 _ _ (h.pwAny rfl u _ id hu)

theorem execDrainComplete_keeps {P : State → Prop} (h : Stable [.out, .ctr, .nv, .nvAny, .fn, .wfn, .pw, .pwAny, .pk, .notify, .sc, .scAny, .ss, .tm, .fb, .sv, .tx, .se, .sl, .slAny, .dx, .fa, .journal, .mn, .mnAny, .ev] P) (a0 : _) (s : State) (hs : P (s.at a0)) : OkX P (execDrainComplete a0 s) := by
  have k1 := @removeReady_keeps P (h.mono rfl)
  have k2 := @leaveRemoveReady_keeps P (h.mono rfl)
  have pUpwAny := h.pwAny rfl
  unfold execDrainComplete
  repeat'
    first
    | ((with_reducible apply PwSide.mk); first | exact id | (dsimp only at *; omega))
    | with_reducible assumption
    | rfl
    | (refine run_keeps ?_ (by assumption))
    | (with_reducible apply k1)
    | (with_reducible apply k2)
    | (with_reducible apply ite_keeps (P := P))
    | (with_reducible apply when_keeps (P := P))
    | (with_reducible apply foldl_keeps (P := P))
    | (refine fun (t : State) (ht : P t) => ?_)
    | (refine fun (_ : _) (t : State) (ht : P t) => ?_)
    | (with_reducible intro t; first | (refine (fun (ht : P t) => ?_) (?_ : P t); rotate_left; subst t; rotate_right; clear_value t) | skip | skip)
    | lift_lets -underBinder
    | split
    | (with_reducible apply pUpwAny)

end Sys2Proof.Machine
end

