-- ==== Sys2Proof/Laws/KeepsSecurity.lean ====
section
/-! SUPPORT. What the operations of Machine/Security.lean can do to the state (`Laws/Keeps.lean`): one lemma per operation. -/

set_option linter.all false

namespace Sys2Proof.Machine

open Sys2Proof

theorem execAttestCertReady_keeps {P : State → Prop} (h : Stable [.notify, .scAny, .ev] P) (a0 : _) (a1 : _) (s : State) (hs : P (s.at a0)) : OkX P (execAttestCertReady a0 a1 s) := by
  have k1 := @takeIndex_keeps P (h.mono rfl)
  have k2 := @State.setDomSec_keeps P (h.mono rfl)
  have pEv := h.ev rfl
  unfold execAttestCertReady
  repeat'
    first
    | with_reducible assumption
    | rfl
    | (refine run_keeps ?_ (by assumption))
    | (with_reducible apply k1)
    | (with_reducible apply k2)
    | (with_reducible apply pEv)
    | (with_reducible apply OkOpt.some)
    | (with_reducible apply OkOpt.none)
    | (with_reducible apply iteOpt_keeps)
    | (with_reducible apply OkOpt.map)
    | (with_reducible apply OkOpt.bind)
    | (with_reducible apply OkOpt.find)
    | (with_reducible apply OkOpt.fold)
    | (with_reducible apply OkOpt.getD (P := P))
    | (with_reducible apply ite_keeps (P := P))
    | (with_reducible apply foldl_keeps (P := P))
    | (refine OkO.get (P := P) (by with_reducible assumption) ?_)
    | (refine OkOP.get (P := P) (by with_reducible assumption) ?_)
    | (refine OkOPP.get (P := P) (by with_reducible assumption) ?_)
    | (refine fun (t : State) (ht : P t) => ?_)
    | (refine fun (_ : _) (t : State) (ht : P t) => ?_)
    | (with_reducible intro t; first | (refine (fun (ht : P t) => ?_) (?_ : P t); rotate_left; subst t; rotate_right; clear_value t) | skip | skip)
    | lift_lets -underBinder
    | split
    | exact OkOpt.any

theorem execCapsuleTimeout_keeps {P : State → Prop} (h : Stable [.scAny] P) (a0 : _) (a1 : _) (s : State) (hs : P (s.at a0)) : OkX P (execCapsuleTimeout a0 a1 s) := by
  have k1 := @dropPendingKey_keeps P (h.mono rfl)
  unfold execCapsuleTimeout
  repeat'
    first
    | with_reducible assumption
    | rfl
    | (refine run_keeps ?_ (by assumption))
    | (with_reducible apply k1)
    | (with_reducible apply ite_keeps (P := P))
    | (with_reducible apply when_keeps (P := P))
    | (with_reducible apply foldl_keeps (P := P))
    | (refine fun (t : State) (ht : P t) => ?_)
    | (refine fun (_ : _) (t : State) (ht : P t) => ?_)
    | (with_reducible intro t; first | (refine (fun (ht : P t) => ?_) (?_ : P t); rotate_left; subst t; rotate_right; clear_value t) | skip | skip)
    | lift_lets -underBinder
    | split

theorem execEpochOverlapExpire_keeps {P : State → Prop} (h : Stable [.scAny] P) (a0 : _) (a1 : _) (s : State) (hs : P (s.at a0)) : OkX P (execEpochOverlapExpire a0 a1 s) := by
  have k1 := @State.setDomSec_keeps P (h.mono rfl)
  unfold execEpochOverlapExpire
  repeat'
    first
    | with_reducible assumption
    | rfl
    | (refine run_keeps ?_ (by assumption))
    | (with_reducible apply k1)
    | (with_reducible apply ite_keeps (P := P))
    | (with_reducible apply foldl_keeps (P := P))
    | (refine fun (t : State) (ht : P t) => ?_)
    | (refine fun (_ : _) (t : State) (ht : P t) => ?_)
    | (with_reducible intro t; first | (refine (fun (ht : P t) => ?_) (?_ : P t); rotate_left; subst t; rotate_right; clear_value t) | skip | skip)
    | lift_lets -underBinder
    | split

theorem execSignatureIndexBlockReserved_keeps {P : State → Prop} (h : Stable [.ctr, .nvAny, .scAny, .journal, .ev] P) (a0 : _) (a1 : _) (s : State) (hs : P (s.at a0)) : OkX P (execSignatureIndexBlockReserved a0 a1 s) := by
  have pStore := h.store rfl
  have pEv := h.ev rfl
  have pJournal := h.journal rfl
  have pUscAny := h.scAny rfl
  have pUnvAny := h.nvAny rfl
  unfold execSignatureIndexBlockReserved
  repeat'
    first
    | ((with_reducible apply NvSide.mk); first | exact ⟨Nat.le_refl _, id⟩ | exact ⟨Nat.le_max_left _ _, id⟩ | exact ⟨Nat.le_refl _, fun _ => rfl⟩ | (split <;> exact ⟨Nat.le_refl _, id⟩))
    | with_reducible assumption
    | rfl
    | (refine run_keeps ?_ (by assumption))
    | (with_reducible apply pStore)
    | (with_reducible apply pEv)
    | (with_reducible apply pJournal)
    | (with_reducible refine pUscAny _ _ (by with_reducible assumption))
    | (with_reducible apply ite_keeps (P := P))
    | (with_reducible apply foldl_keeps (P := P))
    | (refine fun (t : State) (ht : P t) => ?_)
    | (refine fun (_ : _) (t : State) (ht : P t) => ?_)
    | (with_reducible intro t; first | (refine (fun (ht : P t) => ?_) (?_ : P t); rotate_left; subst t; rotate_right; clear_value t) | skip | skip)
    | lift_lets -underBinder
    | split
    | (with_reducible apply pUscAny)
    | (with_reducible apply pUnvAny)

theorem State.reseat_keeps {P : State → Prop} (h : Stable [.ctr, .notify, .tm, .ev] P) (s : State) (a1 : _) (a2 : _) (a3 : _) (a4 : _) (a5 : _) (hs : P s) : OkOPP P (State.reseat s a1 a2 a3 a4 a5) := by
  have k1 := @State.setFrame_keeps P (h.mono rfl)
  have k2 := @State.takeFrame_keeps P (h.mono rfl)
  unfold State.reseat
  repeat'
    first
    | with_reducible assumption
    | rfl
    | (with_reducible apply k1)
    | (with_reducible apply k2)
    | (with_reducible apply OkOpt.some)
    | (with_reducible apply OkOpt.none)
    | (with_reducible apply iteOpt_keeps)
    | (with_reducible apply OkOpt.map)
    | (with_reducible apply OkOpt.bind)
    | (with_reducible apply OkOpt.find)
    | (with_reducible apply OkOpt.fold)
    | (with_reducible apply OkOpt.getD (P := P))
    | (with_reducible apply ite_keeps (P := P))
    | (with_reducible apply foldl_keeps (P := P))
    | (refine OkO.get (P := P) (by with_reducible assumption) ?_)
    | (refine OkOP.get (P := P) (by with_reducible assumption) ?_)
    | (refine OkOPP.get (P := P) (by with_reducible assumption) ?_)
    | (refine fun (t : State) (ht : P t) => ?_)
    | (refine fun (_ : _) (t : State) (ht : P t) => ?_)
    | (with_reducible intro t; first | (refine (fun (ht : P t) => ?_) (?_ : P t); rotate_left; subst t; rotate_right; clear_value t) | skip | skip)
    | lift_lets -underBinder
    | split
    | exact OkOpt.any

theorem State.sealPage_keeps {P : State → Prop} (h : Stable [.out, .ctr, .nv, .notify, .sc, .ss, .tm, .fb, .sl, .ev] P) (s : State) (a1 : _) (a2 : _) (a3 : _) (hs : P s) : OkO P (State.sealPage s a1 a2 a3) := by
  have k1 := @State.freeFrame_keeps P (h.mono rfl)
  have k2 := @State.setPage_keeps P (h.mono rfl)
  have k3 := @State.switchHome_keeps P (h.mono rfl)
  have k4 := @State.reseat_keeps P (h.mono rfl)
  unfold State.sealPage
  repeat'
    first
    | with_reducible assumption
    | rfl
    | (with_reducible apply k1)
    | (with_reducible apply k2)
    | (with_reducible apply k3)
    | (with_reducible apply k4)
    | (with_reducible apply OkOpt.some)
    | (with_reducible apply OkOpt.none)
    | (with_reducible apply iteOpt_keeps)
    | (with_reducible apply OkOpt.map)
    | (with_reducible apply OkOpt.bind)
    | (with_reducible apply OkOpt.find)
    | (with_reducible apply OkOpt.fold)
    | (with_reducible apply OkOpt.getD (P := P))
    | (with_reducible apply ite_keeps (P := P))
    | (with_reducible apply foldl_keeps (P := P))
    | (refine OkO.get (P := P) (by with_reducible assumption) ?_)
    | (refine OkOP.get (P := P) (by with_reducible assumption) ?_)
    | (refine OkOPP.get (P := P) (by with_reducible assumption) ?_)
    | (refine fun (t : State) (ht : P t) => ?_)
    | (refine fun (_ : _) (t : State) (ht : P t) => ?_)
    | (with_reducible intro t; first | (refine (fun (ht : P t) => ?_) (?_ : P t); rotate_left; subst t; rotate_right; clear_value t) | skip | skip)
    | lift_lets -underBinder
    | split
    | exact OkOpt.any

theorem State.sealStage_keeps {P : State → Prop} (h : Stable [.ctr, .notify, .ss, .tm, .ev] P) (s : State) (a1 : _) (a2 : _) (hs : P s) : OkO P (State.sealStage s a1 a2) := by
  have k1 := @State.freeFrame_keeps P (h.mono rfl)
  have k2 := @State.setSess_keeps P (h.mono rfl)
  have k3 := @State.reseat_keeps P (h.mono rfl)
  unfold State.sealStage
  repeat'
    first
    | with_reducible assumption
    | rfl
    | (with_reducible apply k1)
    | (with_reducible apply k2)
    | (with_reducible apply k3)
    | (with_reducible apply OkOpt.some)
    | (with_reducible apply OkOpt.none)
    | (with_reducible apply iteOpt_keeps)
    | (with_reducible apply OkOpt.map)
    | (with_reducible apply OkOpt.bind)
    | (with_reducible apply OkOpt.find)
    | (with_reducible apply OkOpt.fold)
    | (with_reducible apply OkOpt.getD (P := P))
    | (with_reducible apply ite_keeps (P := P))
    | (with_reducible apply foldl_keeps (P := P))
    | (refine OkO.get (P := P) (by with_reducible assumption) ?_)
    | (refine OkOP.get (P := P) (by with_reducible assumption) ?_)
    | (refine OkOPP.get (P := P) (by with_reducible assumption) ?_)
    | (refine fun (t : State) (ht : P t) => ?_)
    | (refine fun (_ : _) (t : State) (ht : P t) => ?_)
    | (with_reducible intro t; first | (refine (fun (ht : P t) => ?_) (?_ : P t); rotate_left; subst t; rotate_right; clear_value t) | skip | skip)
    | lift_lets -underBinder
    | split
    | exact OkOpt.any

theorem State.sealFar_keeps {P : State → Prop} (h : Stable [.tm] P) (s : State) (a1 : _) (a2 : _) (hs : P s) : OkO P (State.sealFar s a1 a2) := by
  have pUtm := h.tm rfl
  unfold State.sealFar
  repeat'
    first
    | with_reducible assumption
    | rfl
    | (with_reducible refine pUtm _ _ (by with_reducible assumption))
    | (with_reducible apply OkOpt.some)
    | (with_reducible apply OkOpt.none)
    | (with_reducible apply iteOpt_keeps)
    | (with_reducible apply OkOpt.map)
    | (with_reducible apply OkOpt.bind)
    | (with_reducible apply OkOpt.find)
    | (with_reducible apply OkOpt.fold)
    | (with_reducible apply OkOpt.getD (P := P))
    | (with_reducible apply ite_keeps (P := P))
    | (with_reducible apply foldl_keeps (P := P))
    | (refine OkO.get (P := P) (by with_reducible assumption) ?_)
    | (refine OkOP.get (P := P) (by with_reducible assumption) ?_)
    | (refine OkOPP.get (P := P) (by with_reducible assumption) ?_)
    | (refine fun (t : State) (ht : P t) => ?_)
    | (refine fun (_ : _) (t : State) (ht : P t) => ?_)
    | (with_reducible intro t; first | (refine (fun (ht : P t) => ?_) (?_ : P t); rotate_left; subst t; rotate_right; clear_value t) | skip | skip)
    | lift_lets -underBinder
    | split
    | (with_reducible apply pUtm)
    | exact OkOpt.any

theorem State.sealArrivals_keeps {P : State → Prop} (h : Stable [.ctr, .notify, .tm, .dx, .ev] P) (s : State) (a1 : _) (a2 : _) (hs : P s) : OkO P (State.sealArrivals s a1 a2) := by
  have k1 := @State.reseat_keeps P (h.mono rfl)
  have pUdx := h.dx rfl
  unfold State.sealArrivals
  repeat'
    first
    | with_reducible assumption
    | rfl
    | (with_reducible apply k1)
    | (with_reducible refine pUdx _ _ (by with_reducible assumption))
    | (with_reducible apply OkOpt.some)
    | (with_reducible apply OkOpt.none)
    | (with_reducible apply iteOpt_keeps)
    | (with_reducible apply OkOpt.map)
    | (with_reducible apply OkOpt.bind)
    | (with_reducible apply OkOpt.find)
    | (with_reducible apply OkOpt.fold)
    | (with_reducible apply OkOpt.getD (P := P))
    | (with_reducible apply ite_keeps (P := P))
    | (with_reducible apply foldl_keeps (P := P))
    | (refine OkO.get (P := P) (by with_reducible assumption) ?_)
    | (refine OkOP.get (P := P) (by with_reducible assumption) ?_)
    | (refine OkOPP.get (P := P) (by with_reducible assumption) ?_)
    | (refine fun (t : State) (ht : P t) => ?_)
    | (refine fun (_ : _) (t : State) (ht : P t) => ?_)
    | (with_reducible intro t; first | (refine (fun (ht : P t) => ?_) (?_ : P t); rotate_left; subst t; rotate_right; clear_value t) | skip | skip)
    | lift_lets -underBinder
    | split
    | (with_reducible apply pUdx)
    | exact OkOpt.any

theorem sealMoves_keeps {P : State → Prop} (h : Stable [.out, .ctr, .nv, .notify, .sc, .ss, .tm, .fb, .sl, .dx, .ev] P) (a0 : _) (a1 : _) (s : State) (hs : P s) : OkP P (sealMoves a0 a1 s) := by
  have k1 := @State.failMove_keeps P (h.mono rfl)
  have k2 := @State.sealPage_keeps P (h.mono rfl)
  have k3 := @State.sealStage_keeps P (h.mono rfl)
  have k4 := @State.sealFar_keeps P (h.mono rfl)
  have k5 := @State.sealArrivals_keeps P (h.mono rfl)
  have k6 := @State.remove_keeps P (h.mono rfl)
  have st : ∀ (a : Bool × State) (f : State → Option State), OkP P a → (∀ s, P s → OkO P (f s)) →
      OkP P (if a.1 then (match f a.2 with
        | some s => (true, s)
        | none => (false, a.2)) else a) := by
    intro a f ha hf
    split
    · split
      · rename_i t e
        exact hf _ ha t e
      · exact ha
    · exact ha
  unfold sealMoves
  dsimp only
  generalize (s.tm.moves.filter _) = touching
  have hs1 : P (s.each touching fun m s => s.failMove m) := each_keeps (P := P) (fun m t ht => k1 t m ht) hs
  generalize (s.each touching fun m s => s.failMove m) = u at hs1
  refine each_keeps (P := P) (fun m t ht => ?_) ?_
  · split
    · exact ht
    · exact k6 t m ht
  · refine st _ _ (st _ _ ?_ fun t ht => k4 t a0 a1 ht) fun t ht => k5 t a0 a1 ht
    refine foldP_keeps (P := P) (fun x k hx => ?_) hs1
    refine st _ _ ?_ fun t ht => k3 t a0 k ht
    exact foldP_keeps (P := P) (fun y l hy => st _ _ hy fun t ht => k2 t a0 k l ht) hx

theorem State.dropCopiesBut_keeps {P : State → Prop} (h : Stable [.tx] P) (s : State) (a1 : _) (a2 : _) (hs : P s) : P (State.dropCopiesBut s a1 a2) := by
  have pUtx := h.tx rfl
  unfold State.dropCopiesBut
  repeat'
    first
    | with_reducible assumption
    | rfl
    | (with_reducible refine pUtx _ _ (by with_reducible assumption))
    | (with_reducible apply ite_keeps (P := P))
    | (with_reducible apply foldl_keeps (P := P))
    | (refine fun (t : State) (ht : P t) => ?_)
    | (refine fun (_ : _) (t : State) (ht : P t) => ?_)
    | (with_reducible intro t; first | (refine (fun (ht : P t) => ?_) (?_ : P t); rotate_left; subst t; rotate_right; clear_value t) | skip | skip)
    | lift_lets -underBinder
    | split
    | (with_reducible apply pUtx)

theorem State.raiseGens_keeps {P : State → Prop} (h : Stable [.ss] P) (s : State) (a1 : _) (hs : P s) : P (State.raiseGens s a1) := by
  have pUss := h.ss rfl
  unfold State.raiseGens
  repeat'
    first
    | with_reducible assumption
    | rfl
    | (with_reducible refine pUss _ _ (by with_reducible assumption))
    | (with_reducible apply ite_keeps (P := P))
    | (with_reducible apply foldl_keeps (P := P))
    | (refine fun (t : State) (ht : P t) => ?_)
    | (refine fun (_ : _) (t : State) (ht : P t) => ?_)
    | (with_reducible intro t; first | (refine (fun (ht : P t) => ?_) (?_ : P t); rotate_left; subst t; rotate_right; clear_value t) | skip | skip)
    | lift_lets -underBinder
    | split
    | (with_reducible apply pUss)

theorem sealScrub_keeps {P : State → Prop} (h : Stable [.out, .ctr, .nv, .wfn, .notify, .sc, .scAny, .ss, .tm, .fb, .sv, .tx, .se, .sl, .slAny, .dx, .journal, .ev] P) (a0 : _) (a1 : _) (s : State) (hs : P s) : P (sealScrub a0 a1 s) := by
  have k1 := @State.dropMigrations_keeps P (h.mono rfl)
  have k2 := @State.leaveMoves_keeps P (h.mono rfl)
  have k3 := @State.leaveSteps_keeps P (h.mono rfl)
  have k4 := @State.raiseGens_keeps P (h.mono rfl)
  have k5 := @State.dropFrames_keeps P (h.mono rfl)
  have k6 := @State.dropCopiesBut_keeps P (h.mono rfl)
  have k7 := @collsLeave_keeps P (h.mono rfl)
  have k8 := @modelsLeave_keeps P (h.mono rfl)
  have k9 := @tileGroupOff_keeps P (h.mono rfl)
  have k10 := @State.sweep_keeps P (h.mono rfl)
  have k11 := @State.lossRecord_keeps P (h.mono rfl)
  have pEv := h.ev rfl
  have pUtm := h.tm rfl
  have pUscAny := h.scAny rfl
  unfold sealScrub
  repeat'
    first
    | with_reducible assumption
    | rfl
    | (with_reducible apply k1)
    | (with_reducible apply k2)
    | (with_reducible apply k3)
    | (with_reducible apply k4)
    | (with_reducible apply k5)
    | (with_reducible apply k6)
    | (with_reducible apply k7)
    | (with_reducible apply k8)
    | (with_reducible apply k9)
    | (with_reducible apply k10)
    | (with_reducible apply k11)
    | (with_reducible apply pEv)
    | (with_reducible refine pUtm _ _ (by with_reducible assumption))
    | (with_reducible refine pUscAny _ _ (by with_reducible assumption))
    | (with_reducible apply ite_keeps (P := P))
    | (with_reducible apply each_keeps (P := P))
    | (with_reducible apply when_keeps (P := P))
    | (with_reducible apply foldl_keeps (P := P))
    | (refine fun (t : State) (ht : P t) => ?_)
    | (refine fun (_ : _) (t : State) (ht : P t) => ?_)
    | (with_reducible intro t; first | (refine (fun (ht : P t) => ?_) (?_ : P t); rotate_left; subst t; rotate_right; clear_value t) | skip | skip)
    | lift_lets -underBinder
    | split
    | (with_reducible apply pUtm)
    | (with_reducible apply pUscAny)

theorem execSealStartingComplete_keeps {P : State → Prop} (h : Stable [.out, .ctr, .nv, .nvAny, .fn, .wfn, .pw, .pwAny, .pk, .notify, .sc, .scAny, .ss, .tm, .fb, .sv, .tx, .se, .sl, .slAny, .et, .dx, .fa, .journal, .mnAny, .ev] P) (a0 : _) (a1 : _) (s : State) (hs : P (s.at a0)) : OkX P (execSealStartingComplete a0 a1 s) := by
  have k1 := @sealMoves_keeps P (h.mono rfl)
  have k2 := @fnStarted_keeps P (h.mono rfl)
  have k3 := @sealScrub_keeps P (h.mono rfl)
  have k4 := @settle_keeps P (h.mono rfl)
  have k5 := @fnFailed_keeps P (h.mono rfl)
  have pEv := h.ev rfl
  have pNotify := h.notify rfl
  unfold execSealStartingComplete
  repeat'
    first
    | with_reducible assumption
    | rfl
    | (refine run_keeps ?_ (by assumption))
    | (with_reducible apply k1)
    | (with_reducible apply k2)
    | (with_reducible apply k3)
    | (with_reducible apply k4)
    | (with_reducible apply k5)
    | (with_reducible apply pEv)
    | (with_reducible apply pNotify)
    | (with_reducible apply iteP_keeps (P := P))
    | (with_reducible apply ite_keeps (P := P))
    | (with_reducible apply when_keeps (P := P))
    | (with_reducible apply foldl_keeps (P := P))
    | (with_reducible apply foldP_keeps (P := P))
    | (refine OkP.get (P := P) (by with_reducible assumption) ?_)
    | (with_reducible apply OkP.snd (P := P))
    | (refine fun (t : State) (ht : P t) => ?_)
    | (refine fun (_ : _) (t : State) (ht : P t) => ?_)
    | (with_reducible intro t; first | (refine (fun (ht : P t) => ?_) (?_ : P t); rotate_left; subst t; rotate_right; clear_value t) | skip | skip)
    | lift_lets -underBinder
    | split
    | (with_reducible apply OkP.mk (P := P))

theorem execSealStoppingComplete_keeps {P : State → Prop} (h : Stable [.out, .ctr, .nv, .nvAny, .fn, .wfn, .pw, .pwAny, .pk, .notify, .sc, .scAny, .ss, .tm, .fb, .sv, .tx, .se, .sl, .slAny, .et, .dx, .fa, .journal, .mnAny, .ev] P) (a0 : _) (a1 : _) (s : State) (hs : P (s.at a0)) : OkX P (execSealStoppingComplete a0 a1 s) := by
  have k1 := @fnStopped_keeps P (h.mono rfl)
  have k2 := @sealScrub_keeps P (h.mono rfl)
  have k3 := @settle_keeps P (h.mono rfl)
  have pEv := h.ev rfl
  have pNotify := h.notify rfl
  unfold execSealStoppingComplete
  repeat'
    first
    | with_reducible assumption
    | rfl
    | (refine run_keeps ?_ (by assumption))
    | (with_reducible apply k1)
    | (with_reducible apply k2)
    | (with_reducible apply k3)
    | (with_reducible apply pEv)
    | (with_reducible apply pNotify)
    | (with_reducible apply ite_keeps (P := P))
    | (with_reducible apply when_keeps (P := P))
    | (with_reducible apply foldl_keeps (P := P))
    | (refine fun (t : State) (ht : P t) => ?_)
    | (refine fun (_ : _) (t : State) (ht : P t) => ?_)
    | (with_reducible intro t; first | (refine (fun (ht : P t) => ?_) (?_ : P t); rotate_left; subst t; rotate_right; clear_value t) | skip | skip)
    | lift_lets -underBinder
    | split

end Sys2Proof.Machine
end

