-- ==== Sys2Proof/Laws/KeepsExec.lean ====
section
/-! SUPPORT. What a command, and so a step, can do to the state: the changes that commands are made of (`Laws/Keeps.lean`), all together. -/

namespace Sys2Proof.Machine

open Sys2Proof

/-- Every change that some command makes. -/
def allPrims : List Prim := [.out, .regs, .ctr, .reg, .nv, .nvAny, .fn, .wfn, .off, .iso, .win, .pw, .pwAny, .pk, .pkAny, .stamp, .wr, .notify, .sc, .scAny, .ss, .tm, .fb, .sv, .tx, .se, .sl, .slAny, .et, .dx, .ck, .fa, .journal, .mn, .mnAny, .ev]

/-- Whatever command runs, what every change keeps holds after it. -/
theorem exec_keeps {P : State → Prop} (h : Stable allPrims P) (i : Instr) (s : State) (hs : P (s.at i.time)) : OkX P (exec i s) := by
  cases i with
  | prechargeStart t => exact execPrechargeStart_keeps (h.mono rfl) t s hs
  | busCharged t => exact execBusCharged_keeps (h.mono rfl) t s hs
  | bootComplete t spd => exact execBootComplete_keeps (h.mono rfl) t spd s hs
  | inputExcursionEnd t dur stay => exact execInputExcursionEnd_keeps (h.mono rfl) t dur stay s hs
  | excursionTimeout t => exact execExcursionTimeout_keeps (h.mono rfl) t s hs
  | collapseTimeout t => exact execCollapseTimeout_keeps (h.mono rfl) t s hs
  | currentLimitTick t milliamps => exact execCurrentLimitTick_keeps (h.mono rfl) t milliamps s hs
  | throttleEvaluate t sn => exact execThrottleEvaluate_keeps (h.mono rfl) t sn s hs
  | thermalTrip t => exact execThermalTrip_keeps (h.mono rfl) t s hs
  | hbmRefreshDoubling t stack temp => exact execHbmRefreshDoubling_keeps (h.mono rfl) t stack temp s hs
  | surpriseRemoval t => exact execSurpriseRemoval_keeps (h.mono rfl) t s hs
  | forceOffAssert t => exact execForceOffAssert_keeps (h.mono rfl) t s hs
  | forceOffRelease t => exact execForceOffRelease_keeps (h.mono rfl) t s hs
  | packageReset t w => exact execPackageReset_keeps (h.mono rfl) t w s hs
  | removeRequest t w => exact execRemoveRequest_keeps (h.mono rfl) t w s hs
  | removeRequestSkip t w => exact execRemoveRequestSkip_keeps (h.mono rfl) t w s hs
  | removeRequestCancel t w => exact execRemoveRequestCancel_keeps (h.mono rfl) t w s hs
  | drainTimeout t => exact execDrainTimeout_keeps (h.mono rfl) t s hs
  | drainComplete t => exact execDrainComplete_keeps (h.mono rfl) t s hs
  | chpowerRequest t w k v => exact execChpowerRequest_keeps (h.mono rfl) t w k v s hs
  | hubPowerRequest t w k v => exact execHubPowerRequest_keeps (h.mono rfl) t w k v s hs
  | functionStartComplete t f bad => exact execFunctionStartComplete_keeps (h.mono rfl) t f bad s hs
  | functionStartFail t f => exact execFunctionStartFail_keeps (h.mono rfl) t f s hs
  | functionStopComplete t f => exact execFunctionStopComplete_keeps (h.mono rfl) t f s hs
  | pickContactEdge t width low => exact execPickContactEdge_keeps (h.mono rfl) t width low s hs
  | pickStuckInput t => exact execPickStuckInput_keeps (h.mono rfl) t s hs
  | hostPickMessage t port m => exact execHostPickMessage_keeps (h.mono rfl) t port m s hs
  | pick t link m => exact execPick_keeps (h.mono rfl) t link m s hs
  | lost t link m => exact execLost_keeps (h.mono rfl) t link m s hs
  | pickSourceWrite t w v => exact execPickSourceWrite_keeps (h.mono rfl) t w v s hs
  | pickActionPoint t => exact execPickActionPoint_keeps (h.mono rfl) t s hs
  | pickMissTimeout t => exact execPickMissTimeout_keeps (h.mono rfl) t s hs
  | holdoverPickDue t => exact execHoldoverPickDue_keeps (h.mono rfl) t s hs
  | barrierAtWrite t w p => exact execBarrierAtWrite_keeps (h.mono rfl) t w p s hs
  | barrierRequest t link dev m => exact execBarrierRequest_keeps (h.mono rfl) t link dev m s hs
  | barrierDone t link dev m => exact execBarrierDone_keeps (h.mono rfl) t link dev m s hs
  | barrierTimeout t => exact execBarrierTimeout_keeps (h.mono rfl) t s hs
  | barrierMessageResend t => exact execBarrierMessageResend_keeps (h.mono rfl) t s hs
  | helloOffer t w vmax vmin role nonce => exact execHelloOffer_keeps (h.mono rfl) t w vmax vmin role nonce s hs
  | helloKey t w ct proof => exact execHelloKey_keeps (h.mono rfl) t w ct proof s hs
  | helloBye t w reason => exact execHelloBye_keeps (h.mono rfl) t w reason s hs
  | helloTimeout t assoc => exact execHelloTimeout_keeps (h.mono rfl) t assoc s hs
  | helloThrottleExpire t => exact execHelloThrottleExpire_keeps (h.mono rfl) t s hs
  | associationIdleTimeout t assoc => exact execAssociationIdleTimeout_keeps (h.mono rfl) t assoc s hs
  | read t w items => exact execRead_keeps (h.mono rfl) t w items s hs
  | registerWrite t w items => exact execRegisterWrite_keeps (h.mono rfl) t w items s hs
  | readBlock t w addr off len => exact execReadBlock_keeps (h.mono rfl) t w addr off len s hs
  | writeBlock t w b => exact execWriteBlock_keeps (h.mono rfl) t w b s hs
  | snapshotExpire t assoc => exact execSnapshotExpire_keeps (h.mono rfl) t assoc s hs
  | blockTransferIdle t addr => exact execBlockTransferIdle_keeps (h.mono rfl) t addr s hs
  | roleSecretWrite t w role secret => exact execRoleSecretWrite_keeps (h.mono rfl) t w role secret s hs
  | restoreDefaults t w v => exact execRestoreDefaults_keeps (h.mono rfl) t w v s hs
  | fwImageWrite t w b => exact execFwImageWrite_keeps (h.mono rfl) t w b s hs
  | fwSvnCommit t w v => exact execFwSvnCommit_keeps (h.mono rfl) t w v s hs
  | fwConfirm t w v => exact execFwConfirm_keeps (h.mono rfl) t w v s hs
  | attestNonceWrite t w nonce => exact execAttestNonceWrite_keeps (h.mono rfl) t w nonce s hs
  | attestCertReady t d => exact execAttestCertReady_keeps (h.mono rfl) t d s hs
  | capsuleTimeout t d => exact execCapsuleTimeout_keeps (h.mono rfl) t d s hs
  | keyCapsuleWrite t w b => exact execKeyCapsuleWrite_keeps (h.mono rfl) t w b s hs
  | epochOverlapExpire t d => exact execEpochOverlapExpire_keeps (h.mono rfl) t d s hs
  | keyErase t w v => exact execKeyErase_keeps (h.mono rfl) t w v s hs
  | dsecClassWrite t w v => exact execDsecClassWrite_keeps (h.mono rfl) t w v s hs
  | tileGroupsWrite t w v => exact execTileGroupsWrite_keeps (h.mono rfl) t w v s hs
  | sealRequest t w c v => exact execSealRequest_keeps (h.mono rfl) t w c v s hs
  | sealStartingComplete t c => exact execSealStartingComplete_keeps (h.mono rfl) t c s hs
  | sealStoppingComplete t c => exact execSealStoppingComplete_keeps (h.mono rfl) t c s hs
  | openSession t k => exact execOpenSession_keeps (h.mono rfl) t k s hs
  | append t k => exact execAppend_keeps (h.mono rfl) t k s hs
  | generate t k => exact execGenerate_keeps (h.mono rfl) t k s hs
  | park t k => exact execPark_keeps (h.mono rfl) t k s hs
  | revive t k => exact execRevive_keeps (h.mono rfl) t k s hs
  | condense t k => exact execCondense_keeps (h.mono rfl) t k s hs
  | exportSession t k => exact execExportSession_keeps (h.mono rfl) t k s hs
  | importSession t k x => exact execImportSession_keeps (h.mono rfl) t k x s hs
  | query t k => exact execQuery_keeps (h.mono rfl) t k s hs
  | close t k => exact execClose_keeps (h.mono rfl) t k s hs
  | truncate t k => exact execTruncate_keeps (h.mono rfl) t k s hs
  | deadlineExpire t r => exact execDeadlineExpire_keeps (h.mono rfl) t r s hs
  | parkPickReached t k => exact execParkPickReached_keeps (h.mono rfl) t k s hs
  | deepTtlExpire t k => exact execDeepTtlExpire_keeps (h.mono rfl) t k s hs
  | slateTtlExpire t k => exact execSlateTtlExpire_keeps (h.mono rfl) t k s hs
  | farTtlExpire t k => exact execFarTtlExpire_keeps (h.mono rfl) t k s hs
  | sessionMoveComplete t k => exact execSessionMoveComplete_keeps (h.mono rfl) t k s hs
  | revivalComplete t k => exact execRevivalComplete_keeps (h.mono rfl) t k s hs
  | closingComplete t k => exact execClosingComplete_keeps (h.mono rfl) t k s hs
  | completionRecordRelease t d => exact execCompletionRecordRelease_keeps (h.mono rfl) t d s hs
  | generateStreamRecord t k => exact execGenerateStreamRecord_keeps (h.mono rfl) t k s hs
  | notifyFlowWrite t w v => exact execNotifyFlowWrite_keeps (h.mono rfl) t w v s hs
  | backgroundEviction t c tier => exact execBackgroundEviction_keeps (h.mono rfl) t c tier s hs
  | pageMoveSwitch t k lpn v => exact execPageMoveSwitch_keeps (h.mono rfl) t k lpn v s hs
  | frameLeaseRelease t c tier frame => exact execFrameLeaseRelease_keeps (h.mono rfl) t c tier frame s hs
  | frameTestComplete t c tier frame bad => exact execFrameTestComplete_keeps (h.mono rfl) t c tier frame bad s hs
  | allocGraceExpire t k => exact execAllocGraceExpire_keeps (h.mono rfl) t k s hs
  | fenceClear t w v => exact execFenceClear_keeps (h.mono rfl) t w v s hs
  | tileError t c tile ks => exact execTileError_keeps (h.mono rfl) t c tile ks s hs
  | patternLoadComplete t c g model pat => exact execPatternLoadComplete_keeps (h.mono rfl) t c g model pat s hs
  | modelLoad t d x => exact execModelLoad_keeps (h.mono rfl) t d x s hs
  | modelUnload t d => exact execModelUnload_keeps (h.mono rfl) t d s hs
  | trackerOpTimeout t c op => exact execTrackerOpTimeout_keeps (h.mono rfl) t c op s hs
  | maskComplete t k pos => exact execMaskComplete_keeps (h.mono rfl) t k pos s hs
  | decodePhaseCommit t out => exact execDecodePhaseCommit_keeps (h.mono rfl) t out s hs
  | prefillChunkStart t k => exact execPrefillChunkStart_keeps (h.mono rfl) t k s hs
  | prefillChunkCommit t k kv reads => exact execPrefillChunkCommit_keeps (h.mono rfl) t k kv reads s hs
  | budgetGraceExpire t k => exact execBudgetGraceExpire_keeps (h.mono rfl) t k s hs
  | budgetAdjust t w v => exact execBudgetAdjust_keeps (h.mono rfl) t w v s hs
  | draftSlotWrite t w v => exact execDraftSlotWrite_keeps (h.mono rfl) t w v s hs
  | samplingDefine t d rec => exact execSamplingDefine_keeps (h.mono rfl) t d rec s hs
  | vocabLoad t d img => exact execVocabLoad_keeps (h.mono rfl) t d img s hs
  | grammarLoad t d img => exact execGrammarLoad_keeps (h.mono rfl) t d img s hs
  | stopsetDefine t d rec => exact execStopsetDefine_keeps (h.mono rfl) t d rec s hs
  | select t d rec => exact execSelect_keeps (h.mono rfl) t d rec s hs
  | selectRowComplete t d id row ns data => exact execSelectRowComplete_keeps (h.mono rfl) t d id row ns data s hs
  | collectionCreate t d rec => exact execCollectionCreate_keeps (h.mono rfl) t d rec s hs
  | vecInsert t d rec => exact execVecInsert_keeps (h.mono rfl) t d rec s hs
  | vecDelete t d rec => exact execVecDelete_keeps (h.mono rfl) t d rec s hs
  | vecSearch t d rec => exact execVecSearch_keeps (h.mono rfl) t d rec s hs
  | listCompaction t id list => exact execListCompaction_keeps (h.mono rfl) t id list s hs
  | ethRequest t w p v => exact execEthRequest_keeps (h.mono rfl) t w p v s hs
  | portLinkUp t p => exact execPortLinkUp_keeps (h.mono rfl) t p s hs
  | portAlignmentLoss t p => exact execPortAlignmentLoss_keeps (h.mono rfl) t p s hs
  | pfcFrameReceive t p enable quanta => exact execPfcFrameReceive_keeps (h.mono rfl) t p enable quanta s hs
  | pfcRefreshTimer t p prio occupancy => exact execPfcRefreshTimer_keeps (h.mono rfl) t p prio occupancy s hs
  | pfcWatchdogExpire t p prio => exact execPfcWatchdogExpire_keeps (h.mono rfl) t p prio s hs
  | ptpEventMessage t p m => exact execPtpEventMessage_keeps (h.mono rfl) t p m s hs
  | arp t p m => exact execArp_keeps (h.mono rfl) t p m s hs
  | neighborDiscovery t p m => exact execNeighborDiscovery_keeps (h.mono rfl) t p m s hs
  | icmpEcho t p m => exact execIcmpEcho_keeps (h.mono rfl) t p m s hs
  | slaiskSend t p => exact execSlaiskSend_keeps (h.mono rfl) t p s hs
  | slaiskWrite t p => exact execSlaiskWrite_keeps (h.mono rfl) t p s hs
  | slaiskRead t p => exact execSlaiskRead_keeps (h.mono rfl) t p s hs
  | slaiskAtomicAdd t p => exact execSlaiskAtomicAdd_keeps (h.mono rfl) t p s hs
  | slaiskCas t p => exact execSlaiskCas_keeps (h.mono rfl) t p s hs
  | slaiskReadResponse t p => exact execSlaiskReadResponse_keeps (h.mono rfl) t p s hs
  | slaiskAtomicResponse t p => exact execSlaiskAtomicResponse_keeps (h.mono rfl) t p s hs
  | slaiskFlush t p => exact execSlaiskFlush_keeps (h.mono rfl) t p s hs
  | slaiskFlushResponse t p => exact execSlaiskFlushResponse_keeps (h.mono rfl) t p s hs
  | windowOpen t p => exact execWindowOpen_keeps (h.mono rfl) t p s hs
  | windowStartComplete t idx => exact execWindowStartComplete_keeps (h.mono rfl) t idx s hs
  | windowRevoke t p => exact execWindowRevoke_keeps (h.mono rfl) t p s hs
  | windowExpire t idx => exact execWindowExpire_keeps (h.mono rfl) t idx s hs
  | windowStopComplete t idx => exact execWindowStopComplete_keeps (h.mono rfl) t idx s hs
  | windowReply t p => exact execWindowReply_keeps (h.mono rfl) t p s hs
  | doorbellWrite t p => exact execDoorbellWrite_keeps (h.mono rfl) t p s hs
  | slaiskAck t p => exact execSlaiskAck_keeps (h.mono rfl) t p s hs
  | slaiskNak t p => exact execSlaiskNak_keeps (h.mono rfl) t p s hs
  | ackCoalesceTimer t f => exact execAckCoalesceTimer_keeps (h.mono rfl) t f s hs
  | retransmitTimeout t f => exact execRetransmitTimeout_keeps (h.mono rfl) t f s hs
  | flowConfigure t w b => exact execFlowConfigure_keeps (h.mono rfl) t w b s hs
  | flowRemove t w b => exact execFlowRemove_keeps (h.mono rfl) t w b s hs
  | linkRequest t w n v => exact execLinkRequest_keeps (h.mono rfl) t w n v s hs
  | linkTrainingComplete t n b => exact execLinkTrainingComplete_keeps (h.mono rfl) t n b s hs
  | linkTrainingFail t n code => exact execLinkTrainingFail_keeps (h.mono rfl) t n code s hs
  | linkFailure t n replay => exact execLinkFailure_keeps (h.mono rfl) t n replay s hs
  | stopping t via => exact execStopping_keeps (h.mono rfl) t via s hs
  | flitReceive t n f => exact execFlitReceive_keeps (h.mono rfl) t n f s hs
  | replayTimeout t n => exact execReplayTimeout_keeps (h.mono rfl) t n s hs
  | command t e ds => exact execCommand_keeps (h.mono rfl) t e ds s hs
  | commandAck t e => exact execCommandAck_keeps (h.mono rfl) t e s hs
  | e2eTimeout t home id => exact execE2eTimeout_keeps (h.mono rfl) t home id s hs
  | migrateReserve t e x => exact execMigrateReserve_keeps (h.mono rfl) t e x s hs
  | migrateReply t e => exact execMigrateReply_keeps (h.mono rfl) t e s hs
  | pageData t e p => exact execPageData_keeps (h.mono rfl) t e p s hs
  | migrateCommit t e x digestOk => exact execMigrateCommit_keeps (h.mono rfl) t e x digestOk s hs
  | migrateCommitAck t e status => exact execMigrateCommitAck_keeps (h.mono rfl) t e status s hs
  | migrationTimeout t peer id => exact execMigrationTimeout_keeps (h.mono rfl) t peer id s hs
  | activation t m => exact execActivation_keeps (h.mono rfl) t m s hs
  | activationAck t e => exact execActivationAck_keeps (h.mono rfl) t e s hs
  | activationTimeout t mid => exact execActivationTimeout_keeps (h.mono rfl) t mid s hs
  | subrequest t e q data => exact execSubrequest_keeps (h.mono rfl) t e q data s hs
  | subresult t e p => exact execSubresult_keeps (h.mono rfl) t e p s hs
  | heartbeat t via src pick => exact execHeartbeat_keeps (h.mono rfl) t via src pick s hs
  | heartbeatSend t => exact execHeartbeatSend_keeps (h.mono rfl) t s hs
  | peerTimeout t dev => exact execPeerTimeout_keeps (h.mono rfl) t dev s hs
  | fatalMessage t via src reason pick => exact execFatalMessage_keeps (h.mono rfl) t via src reason pick s hs
  | stageReady t via src slot stage dom ready => exact execStageReady_keeps (h.mono rfl) t via src slot stage dom ready s hs
  | stageReadyResend t => exact execStageReadyResend_keeps (h.mono rfl) t s hs
  | memberTableWrite t w b => exact execMemberTableWrite_keeps (h.mono rfl) t w b s hs
  | routeWrite t w ix v => exact execRouteWrite_keeps (h.mono rfl) t w ix v s hs
  | treeParentWrite t w children v => exact execTreeParentWrite_keeps (h.mono rfl) t w children v s hs
  | deviceIndexWrite t w warp v => exact execDeviceIndexWrite_keeps (h.mono rfl) t w warp v s hs
  | checkpointBegin t d ok => exact execCheckpointBegin_keeps (h.mono rfl) t d ok s hs
  | ckptNotice t link m => exact execCkptNotice_keeps (h.mono rfl) t link m s hs
  | checkpointCut t => exact execCheckpointCut_keeps (h.mono rfl) t s hs
  | shardWriteComplete t ok => exact execShardWriteComplete_keeps (h.mono rfl) t ok s hs
  | ckptWritten t link m ok => exact execCkptWritten_keeps (h.mono rfl) t link m ok s hs
  | ckptCommit t link m => exact execCkptCommit_keeps (h.mono rfl) t link m s hs
  | ckptAbort t link m => exact execCkptAbort_keeps (h.mono rfl) t link m s hs
  | checkpointTimeout t => exact execCheckpointTimeout_keeps (h.mono rfl) t s hs
  | ckptMessageResend t => exact execCkptMessageResend_keeps (h.mono rfl) t s hs
  | restoreBegin t d rec commits => exact execRestoreBegin_keeps (h.mono rfl) t d rec commits s hs
  | restoreNotice t link m commit ms => exact execRestoreNotice_keeps (h.mono rfl) t link m commit ms s hs
  | restoreDone t link m => exact execRestoreDone_keeps (h.mono rfl) t link m s hs
  | channelFault t c src => exact execChannelFault_keeps (h.mono rfl) t c src s hs
  | channelSweepComplete t c => exact execChannelSweepComplete_keeps (h.mono rfl) t c s hs
  | fatalDetect t reason => exact execFatalDetect_keeps (h.mono rfl) t reason s hs
  | conservationAudit t => exact execConservationAudit_keeps (h.mono rfl) t s hs
  | monRequest t w hub k v => exact execMonRequest_keeps (h.mono rfl) t w hub k v s hs
  | monConfigWrite t w hub k cfg => exact execMonConfigWrite_keeps (h.mono rfl) t w hub k cfg s hs
  | monitorTransition t f => exact execMonitorTransition_keeps (h.mono rfl) t f s hs
  | monitorWindowEnd t f => exact execMonitorWindowEnd_keeps (h.mono rfl) t f s hs
  | traceRequest t w v => exact execTraceRequest_keeps (h.mono rfl) t w v s hs
  | traceConfigWrite t w cfg => exact execTraceConfigWrite_keeps (h.mono rfl) t w cfg s hs
  | traceBufferFull t => exact execTraceBufferFull_keeps (h.mono rfl) t s hs
  | traceStopPick t => exact execTraceStopPick_keeps (h.mono rfl) t s hs
  | powerRemoval t => exact execPowerRemoval_keeps (h.mono rfl) t s hs
  | pfcPauseExpire t p prio => exact execPfcPauseExpire_keeps (h.mono rfl) t p prio s hs
  | signatureIndexBlockReserved t ok => exact execSignatureIndexBlockReserved_keeps (h.mono rfl) t ok s hs
  | tokenisingComplete t k => exact execTokenisingComplete_keeps (h.mono rfl) t k s hs
  | listPassComplete t d id qs list bad => exact execListPassComplete_keeps (h.mono rfl) t d id qs list bad s hs

end Sys2Proof.Machine
end

