-- ==== Sys2Proof/Laws/State.lean ====
section
/-! SUPPORT. What a named update of the state leaves of each of its fields. -/

set_option linter.all false

namespace Sys2Proof.Machine

open Sys2Proof

@[simp] theorem State.at_out (s : State) (t : Nat) : (s.at t).out = s.out := rfl
@[simp] theorem State.at_pending (s : State) (t : Nat) : (s.at t).pending = s.pending := rfl
@[simp] theorem State.at_regs (s : State) (t : Nat) : (s.at t).regs = s.regs := rfl
@[simp] theorem State.at_nv (s : State) (t : Nat) : (s.at t).nv = s.nv := rfl
@[simp] theorem State.at_fns (s : State) (t : Nat) : (s.at t).fns = s.fns := rfl
@[simp] theorem State.at_pw (s : State) (t : Nat) : (s.at t).pw = s.pw := rfl
@[simp] theorem State.at_pk (s : State) (t : Nat) : (s.at t).pk = s.pk := rfl
@[simp] theorem State.at_wr (s : State) (t : Nat) : (s.at t).wr = s.wr := rfl
@[simp] theorem State.at_sc (s : State) (t : Nat) : (s.at t).sc = s.sc := rfl
@[simp] theorem State.at_ss (s : State) (t : Nat) : (s.at t).ss = s.ss := rfl
@[simp] theorem State.at_tm (s : State) (t : Nat) : (s.at t).tm = s.tm := rfl
@[simp] theorem State.at_fb (s : State) (t : Nat) : (s.at t).fb = s.fb := rfl
@[simp] theorem State.at_sv (s : State) (t : Nat) : (s.at t).sv = s.sv := rfl
@[simp] theorem State.at_tx (s : State) (t : Nat) : (s.at t).tx = s.tx := rfl
@[simp] theorem State.at_se (s : State) (t : Nat) : (s.at t).se = s.se := rfl
@[simp] theorem State.at_sl (s : State) (t : Nat) : (s.at t).sl = s.sl := rfl
@[simp] theorem State.at_et (s : State) (t : Nat) : (s.at t).et = s.et := rfl
@[simp] theorem State.at_dx (s : State) (t : Nat) : (s.at t).dx = s.dx := rfl
@[simp] theorem State.at_ck (s : State) (t : Nat) : (s.at t).ck = s.ck := rfl
@[simp] theorem State.at_fa (s : State) (t : Nat) : (s.at t).fa = s.fa := rfl
@[simp] theorem State.at_mn (s : State) (t : Nat) : (s.at t).mn = s.mn := rfl

@[simp] theorem State.send_now (s : State) (o : Output) : (s.send o).now = s.now := rfl
@[simp] theorem State.send_pending (s : State) (o : Output) : (s.send o).pending = s.pending := rfl
@[simp] theorem State.send_regs (s : State) (o : Output) : (s.send o).regs = s.regs := rfl
@[simp] theorem State.send_nv (s : State) (o : Output) : (s.send o).nv = s.nv := rfl
@[simp] theorem State.send_fns (s : State) (o : Output) : (s.send o).fns = s.fns := rfl
@[simp] theorem State.send_pw (s : State) (o : Output) : (s.send o).pw = s.pw := rfl
@[simp] theorem State.send_pk (s : State) (o : Output) : (s.send o).pk = s.pk := rfl
@[simp] theorem State.send_wr (s : State) (o : Output) : (s.send o).wr = s.wr := rfl
@[simp] theorem State.send_sc (s : State) (o : Output) : (s.send o).sc = s.sc := rfl
@[simp] theorem State.send_ss (s : State) (o : Output) : (s.send o).ss = s.ss := rfl
@[simp] theorem State.send_tm (s : State) (o : Output) : (s.send o).tm = s.tm := rfl
@[simp] theorem State.send_fb (s : State) (o : Output) : (s.send o).fb = s.fb := rfl
@[simp] theorem State.send_sv (s : State) (o : Output) : (s.send o).sv = s.sv := rfl
@[simp] theorem State.send_tx (s : State) (o : Output) : (s.send o).tx = s.tx := rfl
@[simp] theorem State.send_se (s : State) (o : Output) : (s.send o).se = s.se := rfl
@[simp] theorem State.send_sl (s : State) (o : Output) : (s.send o).sl = s.sl := rfl
@[simp] theorem State.send_et (s : State) (o : Output) : (s.send o).et = s.et := rfl
@[simp] theorem State.send_dx (s : State) (o : Output) : (s.send o).dx = s.dx := rfl
@[simp] theorem State.send_ck (s : State) (o : Output) : (s.send o).ck = s.ck := rfl
@[simp] theorem State.send_fa (s : State) (o : Output) : (s.send o).fa = s.fa := rfl
@[simp] theorem State.send_mn (s : State) (o : Output) : (s.send o).mn = s.mn := rfl

@[simp] theorem State.setReg_now (s : State) (e : Entry) (v sub i : Nat) : (s.setReg e v sub i).now = s.now := rfl
@[simp] theorem State.setReg_out (s : State) (e : Entry) (v sub i : Nat) : (s.setReg e v sub i).out = s.out := rfl
@[simp] theorem State.setReg_pending (s : State) (e : Entry) (v sub i : Nat) : (s.setReg e v sub i).pending = s.pending := rfl
@[simp] theorem State.setReg_nv (s : State) (e : Entry) (v sub i : Nat) : (s.setReg e v sub i).nv = s.nv := rfl
@[simp] theorem State.setReg_fns (s : State) (e : Entry) (v sub i : Nat) : (s.setReg e v sub i).fns = s.fns := rfl
@[simp] theorem State.setReg_pw (s : State) (e : Entry) (v sub i : Nat) : (s.setReg e v sub i).pw = s.pw := rfl
@[simp] theorem State.setReg_pk (s : State) (e : Entry) (v sub i : Nat) : (s.setReg e v sub i).pk = s.pk := rfl
@[simp] theorem State.setReg_wr (s : State) (e : Entry) (v sub i : Nat) : (s.setReg e v sub i).wr = s.wr := rfl
@[simp] theorem State.setReg_sc (s : State) (e : Entry) (v sub i : Nat) : (s.setReg e v sub i).sc = s.sc := rfl
@[simp] theorem State.setReg_ss (s : State) (e : Entry) (v sub i : Nat) : (s.setReg e v sub i).ss = s.ss := rfl
@[simp] theorem State.setReg_tm (s : State) (e : Entry) (v sub i : Nat) : (s.setReg e v sub i).tm = s.tm := rfl
@[simp] theorem State.setReg_fb (s : State) (e : Entry) (v sub i : Nat) : (s.setReg e v sub i).fb = s.fb := rfl
@[simp] theorem State.setReg_sv (s : State) (e : Entry) (v sub i : Nat) : (s.setReg e v sub i).sv = s.sv := rfl
@[simp] theorem State.setReg_tx (s : State) (e : Entry) (v sub i : Nat) : (s.setReg e v sub i).tx = s.tx := rfl
@[simp] theorem State.setReg_se (s : State) (e : Entry) (v sub i : Nat) : (s.setReg e v sub i).se = s.se := rfl
@[simp] theorem State.setReg_sl (s : State) (e : Entry) (v sub i : Nat) : (s.setReg e v sub i).sl = s.sl := rfl
@[simp] theorem State.setReg_et (s : State) (e : Entry) (v sub i : Nat) : (s.setReg e v sub i).et = s.et := rfl
@[simp] theorem State.setReg_dx (s : State) (e : Entry) (v sub i : Nat) : (s.setReg e v sub i).dx = s.dx := rfl
@[simp] theorem State.setReg_ck (s : State) (e : Entry) (v sub i : Nat) : (s.setReg e v sub i).ck = s.ck := rfl
@[simp] theorem State.setReg_fa (s : State) (e : Entry) (v sub i : Nat) : (s.setReg e v sub i).fa = s.fa := rfl
@[simp] theorem State.setReg_mn (s : State) (e : Entry) (v sub i : Nat) : (s.setReg e v sub i).mn = s.mn := rfl

@[simp] theorem State.inc_now (s : State) (e : Entry) (n sub i : Nat) : (s.inc e n sub i).now = s.now := rfl
@[simp] theorem State.inc_out (s : State) (e : Entry) (n sub i : Nat) : (s.inc e n sub i).out = s.out := rfl
@[simp] theorem State.inc_pending (s : State) (e : Entry) (n sub i : Nat) : (s.inc e n sub i).pending = s.pending := rfl
@[simp] theorem State.inc_nv (s : State) (e : Entry) (n sub i : Nat) : (s.inc e n sub i).nv = s.nv := rfl
@[simp] theorem State.inc_fns (s : State) (e : Entry) (n sub i : Nat) : (s.inc e n sub i).fns = s.fns := rfl
@[simp] theorem State.inc_pw (s : State) (e : Entry) (n sub i : Nat) : (s.inc e n sub i).pw = s.pw := rfl
@[simp] theorem State.inc_pk (s : State) (e : Entry) (n sub i : Nat) : (s.inc e n sub i).pk = s.pk := rfl
@[simp] theorem State.inc_wr (s : State) (e : Entry) (n sub i : Nat) : (s.inc e n sub i).wr = s.wr := rfl
@[simp] theorem State.inc_sc (s : State) (e : Entry) (n sub i : Nat) : (s.inc e n sub i).sc = s.sc := rfl
@[simp] theorem State.inc_ss (s : State) (e : Entry) (n sub i : Nat) : (s.inc e n sub i).ss = s.ss := rfl
@[simp] theorem State.inc_tm (s : State) (e : Entry) (n sub i : Nat) : (s.inc e n sub i).tm = s.tm := rfl
@[simp] theorem State.inc_fb (s : State) (e : Entry) (n sub i : Nat) : (s.inc e n sub i).fb = s.fb := rfl
@[simp] theorem State.inc_sv (s : State) (e : Entry) (n sub i : Nat) : (s.inc e n sub i).sv = s.sv := rfl
@[simp] theorem State.inc_tx (s : State) (e : Entry) (n sub i : Nat) : (s.inc e n sub i).tx = s.tx := rfl
@[simp] theorem State.inc_se (s : State) (e : Entry) (n sub i : Nat) : (s.inc e n sub i).se = s.se := rfl
@[simp] theorem State.inc_sl (s : State) (e : Entry) (n sub i : Nat) : (s.inc e n sub i).sl = s.sl := rfl
@[simp] theorem State.inc_et (s : State) (e : Entry) (n sub i : Nat) : (s.inc e n sub i).et = s.et := rfl
@[simp] theorem State.inc_dx (s : State) (e : Entry) (n sub i : Nat) : (s.inc e n sub i).dx = s.dx := rfl
@[simp] theorem State.inc_ck (s : State) (e : Entry) (n sub i : Nat) : (s.inc e n sub i).ck = s.ck := rfl
@[simp] theorem State.inc_fa (s : State) (e : Entry) (n sub i : Nat) : (s.inc e n sub i).fa = s.fa := rfl
@[simp] theorem State.inc_mn (s : State) (e : Entry) (n sub i : Nat) : (s.inc e n sub i).mn = s.mn := rfl

@[simp] theorem State.store_now (s : State) : (s.store).now = s.now := rfl
@[simp] theorem State.store_out (s : State) : (s.store).out = s.out := rfl
@[simp] theorem State.store_pending (s : State) : (s.store).pending = s.pending := rfl
@[simp] theorem State.store_nv (s : State) : (s.store).nv = s.nv := rfl
@[simp] theorem State.store_fns (s : State) : (s.store).fns = s.fns := rfl
@[simp] theorem State.store_pw (s : State) : (s.store).pw = s.pw := rfl
@[simp] theorem State.store_pk (s : State) : (s.store).pk = s.pk := rfl
@[simp] theorem State.store_wr (s : State) : (s.store).wr = s.wr := rfl
@[simp] theorem State.store_sc (s : State) : (s.store).sc = s.sc := rfl
@[simp] theorem State.store_ss (s : State) : (s.store).ss = s.ss := rfl
@[simp] theorem State.store_tm (s : State) : (s.store).tm = s.tm := rfl
@[simp] theorem State.store_fb (s : State) : (s.store).fb = s.fb := rfl
@[simp] theorem State.store_sv (s : State) : (s.store).sv = s.sv := rfl
@[simp] theorem State.store_tx (s : State) : (s.store).tx = s.tx := rfl
@[simp] theorem State.store_se (s : State) : (s.store).se = s.se := rfl
@[simp] theorem State.store_sl (s : State) : (s.store).sl = s.sl := rfl
@[simp] theorem State.store_et (s : State) : (s.store).et = s.et := rfl
@[simp] theorem State.store_dx (s : State) : (s.store).dx = s.dx := rfl
@[simp] theorem State.store_ck (s : State) : (s.store).ck = s.ck := rfl
@[simp] theorem State.store_fa (s : State) : (s.store).fa = s.fa := rfl
@[simp] theorem State.store_mn (s : State) : (s.store).mn = s.mn := rfl

@[simp] theorem State.setFn_now (s : State) (f : FnId) (r : Fn) : (s.setFn f r).now = s.now := rfl
@[simp] theorem State.setFn_out (s : State) (f : FnId) (r : Fn) : (s.setFn f r).out = s.out := rfl
@[simp] theorem State.setFn_pending (s : State) (f : FnId) (r : Fn) : (s.setFn f r).pending = s.pending := rfl
@[simp] theorem State.setFn_regs (s : State) (f : FnId) (r : Fn) : (s.setFn f r).regs = s.regs := rfl
@[simp] theorem State.setFn_nv (s : State) (f : FnId) (r : Fn) : (s.setFn f r).nv = s.nv := rfl
@[simp] theorem State.setFn_pw (s : State) (f : FnId) (r : Fn) : (s.setFn f r).pw = s.pw := rfl
@[simp] theorem State.setFn_pk (s : State) (f : FnId) (r : Fn) : (s.setFn f r).pk = s.pk := rfl
@[simp] theorem State.setFn_wr (s : State) (f : FnId) (r : Fn) : (s.setFn f r).wr = s.wr := rfl
@[simp] theorem State.setFn_sc (s : State) (f : FnId) (r : Fn) : (s.setFn f r).sc = s.sc := rfl
@[simp] theorem State.setFn_ss (s : State) (f : FnId) (r : Fn) : (s.setFn f r).ss = s.ss := rfl
@[simp] theorem State.setFn_tm (s : State) (f : FnId) (r : Fn) : (s.setFn f r).tm = s.tm := rfl
@[simp] theorem State.setFn_fb (s : State) (f : FnId) (r : Fn) : (s.setFn f r).fb = s.fb := rfl
@[simp] theorem State.setFn_sv (s : State) (f : FnId) (r : Fn) : (s.setFn f r).sv = s.sv := rfl
@[simp] theorem State.setFn_tx (s : State) (f : FnId) (r : Fn) : (s.setFn f r).tx = s.tx := rfl
@[simp] theorem State.setFn_se (s : State) (f : FnId) (r : Fn) : (s.setFn f r).se = s.se := rfl
@[simp] theorem State.setFn_sl (s : State) (f : FnId) (r : Fn) : (s.setFn f r).sl = s.sl := rfl
@[simp] theorem State.setFn_et (s : State) (f : FnId) (r : Fn) : (s.setFn f r).et = s.et := rfl
@[simp] theorem State.setFn_dx (s : State) (f : FnId) (r : Fn) : (s.setFn f r).dx = s.dx := rfl
@[simp] theorem State.setFn_ck (s : State) (f : FnId) (r : Fn) : (s.setFn f r).ck = s.ck := rfl
@[simp] theorem State.setFn_fa (s : State) (f : FnId) (r : Fn) : (s.setFn f r).fa = s.fa := rfl
@[simp] theorem State.setFn_mn (s : State) (f : FnId) (r : Fn) : (s.setFn f r).mn = s.mn := rfl

@[simp] theorem State.tookStamp_now (s : State) : (s.tookStamp).now = s.now := rfl
@[simp] theorem State.tookStamp_out (s : State) : (s.tookStamp).out = s.out := rfl
@[simp] theorem State.tookStamp_pending (s : State) : (s.tookStamp).pending = s.pending := rfl
@[simp] theorem State.tookStamp_regs (s : State) : (s.tookStamp).regs = s.regs := rfl
@[simp] theorem State.tookStamp_nv (s : State) : (s.tookStamp).nv = s.nv := rfl
@[simp] theorem State.tookStamp_fns (s : State) : (s.tookStamp).fns = s.fns := rfl
@[simp] theorem State.tookStamp_pw (s : State) : (s.tookStamp).pw = s.pw := rfl
@[simp] theorem State.tookStamp_wr (s : State) : (s.tookStamp).wr = s.wr := rfl
@[simp] theorem State.tookStamp_sc (s : State) : (s.tookStamp).sc = s.sc := rfl
@[simp] theorem State.tookStamp_ss (s : State) : (s.tookStamp).ss = s.ss := rfl
@[simp] theorem State.tookStamp_tm (s : State) : (s.tookStamp).tm = s.tm := rfl
@[simp] theorem State.tookStamp_fb (s : State) : (s.tookStamp).fb = s.fb := rfl
@[simp] theorem State.tookStamp_sv (s : State) : (s.tookStamp).sv = s.sv := rfl
@[simp] theorem State.tookStamp_tx (s : State) : (s.tookStamp).tx = s.tx := rfl
@[simp] theorem State.tookStamp_se (s : State) : (s.tookStamp).se = s.se := rfl
@[simp] theorem State.tookStamp_sl (s : State) : (s.tookStamp).sl = s.sl := rfl
@[simp] theorem State.tookStamp_et (s : State) : (s.tookStamp).et = s.et := rfl
@[simp] theorem State.tookStamp_dx (s : State) : (s.tookStamp).dx = s.dx := rfl
@[simp] theorem State.tookStamp_ck (s : State) : (s.tookStamp).ck = s.ck := rfl
@[simp] theorem State.tookStamp_fa (s : State) : (s.tookStamp).fa = s.fa := rfl
@[simp] theorem State.tookStamp_mn (s : State) : (s.tookStamp).mn = s.mn := rfl

@[simp] theorem State.setMon_now (s : State) (f : FnId) (m : Mon) : (s.setMon f m).now = s.now := rfl
@[simp] theorem State.setMon_out (s : State) (f : FnId) (m : Mon) : (s.setMon f m).out = s.out := rfl
@[simp] theorem State.setMon_pending (s : State) (f : FnId) (m : Mon) : (s.setMon f m).pending = s.pending := rfl
@[simp] theorem State.setMon_regs (s : State) (f : FnId) (m : Mon) : (s.setMon f m).regs = s.regs := rfl
@[simp] theorem State.setMon_nv (s : State) (f : FnId) (m : Mon) : (s.setMon f m).nv = s.nv := rfl
@[simp] theorem State.setMon_fns (s : State) (f : FnId) (m : Mon) : (s.setMon f m).fns = s.fns := rfl
@[simp] theorem State.setMon_pw (s : State) (f : FnId) (m : Mon) : (s.setMon f m).pw = s.pw := rfl
@[simp] theorem State.setMon_pk (s : State) (f : FnId) (m : Mon) : (s.setMon f m).pk = s.pk := rfl
@[simp] theorem State.setMon_wr (s : State) (f : FnId) (m : Mon) : (s.setMon f m).wr = s.wr := rfl
@[simp] theorem State.setMon_sc (s : State) (f : FnId) (m : Mon) : (s.setMon f m).sc = s.sc := rfl
@[simp] theorem State.setMon_ss (s : State) (f : FnId) (m : Mon) : (s.setMon f m).ss = s.ss := rfl
@[simp] theorem State.setMon_tm (s : State) (f : FnId) (m : Mon) : (s.setMon f m).tm = s.tm := rfl
@[simp] theorem State.setMon_fb (s : State) (f : FnId) (m : Mon) : (s.setMon f m).fb = s.fb := rfl
@[simp] theorem State.setMon_sv (s : State) (f : FnId) (m : Mon) : (s.setMon f m).sv = s.sv := rfl
@[simp] theorem State.setMon_tx (s : State) (f : FnId) (m : Mon) : (s.setMon f m).tx = s.tx := rfl
@[simp] theorem State.setMon_se (s : State) (f : FnId) (m : Mon) : (s.setMon f m).se = s.se := rfl
@[simp] theorem State.setMon_sl (s : State) (f : FnId) (m : Mon) : (s.setMon f m).sl = s.sl := rfl
@[simp] theorem State.setMon_et (s : State) (f : FnId) (m : Mon) : (s.setMon f m).et = s.et := rfl
@[simp] theorem State.setMon_dx (s : State) (f : FnId) (m : Mon) : (s.setMon f m).dx = s.dx := rfl
@[simp] theorem State.setMon_ck (s : State) (f : FnId) (m : Mon) : (s.setMon f m).ck = s.ck := rfl
@[simp] theorem State.setMon_fa (s : State) (f : FnId) (m : Mon) : (s.setMon f m).fa = s.fa := rfl

@[simp] theorem State.setDomSec_now (s : State) (d : Nat) (x : DomSec) : (s.setDomSec d x).now = s.now := rfl
@[simp] theorem State.setDomSec_out (s : State) (d : Nat) (x : DomSec) : (s.setDomSec d x).out = s.out := rfl
@[simp] theorem State.setDomSec_pending (s : State) (d : Nat) (x : DomSec) : (s.setDomSec d x).pending = s.pending := rfl
@[simp] theorem State.setDomSec_regs (s : State) (d : Nat) (x : DomSec) : (s.setDomSec d x).regs = s.regs := rfl
@[simp] theorem State.setDomSec_nv (s : State) (d : Nat) (x : DomSec) : (s.setDomSec d x).nv = s.nv := rfl
@[simp] theorem State.setDomSec_fns (s : State) (d : Nat) (x : DomSec) : (s.setDomSec d x).fns = s.fns := rfl
@[simp] theorem State.setDomSec_pw (s : State) (d : Nat) (x : DomSec) : (s.setDomSec d x).pw = s.pw := rfl
@[simp] theorem State.setDomSec_pk (s : State) (d : Nat) (x : DomSec) : (s.setDomSec d x).pk = s.pk := rfl
@[simp] theorem State.setDomSec_wr (s : State) (d : Nat) (x : DomSec) : (s.setDomSec d x).wr = s.wr := rfl
@[simp] theorem State.setDomSec_ss (s : State) (d : Nat) (x : DomSec) : (s.setDomSec d x).ss = s.ss := rfl
@[simp] theorem State.setDomSec_tm (s : State) (d : Nat) (x : DomSec) : (s.setDomSec d x).tm = s.tm := rfl
@[simp] theorem State.setDomSec_fb (s : State) (d : Nat) (x : DomSec) : (s.setDomSec d x).fb = s.fb := rfl
@[simp] theorem State.setDomSec_sv (s : State) (d : Nat) (x : DomSec) : (s.setDomSec d x).sv = s.sv := rfl
@[simp] theorem State.setDomSec_tx (s : State) (d : Nat) (x : DomSec) : (s.setDomSec d x).tx = s.tx := rfl
@[simp] theorem State.setDomSec_se (s : State) (d : Nat) (x : DomSec) : (s.setDomSec d x).se = s.se := rfl
@[simp] theorem State.setDomSec_sl (s : State) (d : Nat) (x : DomSec) : (s.setDomSec d x).sl = s.sl := rfl
@[simp] theorem State.setDomSec_et (s : State) (d : Nat) (x : DomSec) : (s.setDomSec d x).et = s.et := rfl
@[simp] theorem State.setDomSec_dx (s : State) (d : Nat) (x : DomSec) : (s.setDomSec d x).dx = s.dx := rfl
@[simp] theorem State.setDomSec_ck (s : State) (d : Nat) (x : DomSec) : (s.setDomSec d x).ck = s.ck := rfl
@[simp] theorem State.setDomSec_fa (s : State) (d : Nat) (x : DomSec) : (s.setDomSec d x).fa = s.fa := rfl
@[simp] theorem State.setDomSec_mn (s : State) (d : Nat) (x : DomSec) : (s.setDomSec d x).mn = s.mn := rfl

@[simp] theorem State.setFlow_now (s : State) (f : Nat) (x : Flow) : (s.setFlow f x).now = s.now := rfl
@[simp] theorem State.setFlow_out (s : State) (f : Nat) (x : Flow) : (s.setFlow f x).out = s.out := rfl
@[simp] theorem State.setFlow_pending (s : State) (f : Nat) (x : Flow) : (s.setFlow f x).pending = s.pending := rfl
@[simp] theorem State.setFlow_regs (s : State) (f : Nat) (x : Flow) : (s.setFlow f x).regs = s.regs := rfl
@[simp] theorem State.setFlow_nv (s : State) (f : Nat) (x : Flow) : (s.setFlow f x).nv = s.nv := rfl
@[simp] theorem State.setFlow_fns (s : State) (f : Nat) (x : Flow) : (s.setFlow f x).fns = s.fns := rfl
@[simp] theorem State.setFlow_pw (s : State) (f : Nat) (x : Flow) : (s.setFlow f x).pw = s.pw := rfl
@[simp] theorem State.setFlow_pk (s : State) (f : Nat) (x : Flow) : (s.setFlow f x).pk = s.pk := rfl
@[simp] theorem State.setFlow_wr (s : State) (f : Nat) (x : Flow) : (s.setFlow f x).wr = s.wr := rfl
@[simp] theorem State.setFlow_sc (s : State) (f : Nat) (x : Flow) : (s.setFlow f x).sc = s.sc := rfl
@[simp] theorem State.setFlow_ss (s : State) (f : Nat) (x : Flow) : (s.setFlow f x).ss = s.ss := rfl
@[simp] theorem State.setFlow_tm (s : State) (f : Nat) (x : Flow) : (s.setFlow f x).tm = s.tm := rfl
@[simp] theorem State.setFlow_fb (s : State) (f : Nat) (x : Flow) : (s.setFlow f x).fb = s.fb := rfl
@[simp] theorem State.setFlow_sv (s : State) (f : Nat) (x : Flow) : (s.setFlow f x).sv = s.sv := rfl
@[simp] theorem State.setFlow_tx (s : State) (f : Nat) (x : Flow) : (s.setFlow f x).tx = s.tx := rfl
@[simp] theorem State.setFlow_se (s : State) (f : Nat) (x : Flow) : (s.setFlow f x).se = s.se := rfl
@[simp] theorem State.setFlow_et (s : State) (f : Nat) (x : Flow) : (s.setFlow f x).et = s.et := rfl
@[simp] theorem State.setFlow_dx (s : State) (f : Nat) (x : Flow) : (s.setFlow f x).dx = s.dx := rfl
@[simp] theorem State.setFlow_ck (s : State) (f : Nat) (x : Flow) : (s.setFlow f x).ck = s.ck := rfl
@[simp] theorem State.setFlow_fa (s : State) (f : Nat) (x : Flow) : (s.setFlow f x).fa = s.fa := rfl
@[simp] theorem State.setFlow_mn (s : State) (f : Nat) (x : Flow) : (s.setFlow f x).mn = s.mn := rfl

@[simp] theorem State.setWin_now (s : State) (i : Nat) (w : Window) : (s.setWin i w).now = s.now := rfl
@[simp] theorem State.setWin_out (s : State) (i : Nat) (w : Window) : (s.setWin i w).out = s.out := rfl
@[simp] theorem State.setWin_pending (s : State) (i : Nat) (w : Window) : (s.setWin i w).pending = s.pending := rfl
@[simp] theorem State.setWin_regs (s : State) (i : Nat) (w : Window) : (s.setWin i w).regs = s.regs := rfl
@[simp] theorem State.setWin_nv (s : State) (i : Nat) (w : Window) : (s.setWin i w).nv = s.nv := rfl
@[simp] theorem State.setWin_fns (s : State) (i : Nat) (w : Window) : (s.setWin i w).fns = s.fns := rfl
@[simp] theorem State.setWin_pw (s : State) (i : Nat) (w : Window) : (s.setWin i w).pw = s.pw := rfl
@[simp] theorem State.setWin_pk (s : State) (i : Nat) (w : Window) : (s.setWin i w).pk = s.pk := rfl
@[simp] theorem State.setWin_wr (s : State) (i : Nat) (w : Window) : (s.setWin i w).wr = s.wr := rfl
@[simp] theorem State.setWin_sc (s : State) (i : Nat) (w : Window) : (s.setWin i w).sc = s.sc := rfl
@[simp] theorem State.setWin_ss (s : State) (i : Nat) (w : Window) : (s.setWin i w).ss = s.ss := rfl
@[simp] theorem State.setWin_tm (s : State) (i : Nat) (w : Window) : (s.setWin i w).tm = s.tm := rfl
@[simp] theorem State.setWin_fb (s : State) (i : Nat) (w : Window) : (s.setWin i w).fb = s.fb := rfl
@[simp] theorem State.setWin_sv (s : State) (i : Nat) (w : Window) : (s.setWin i w).sv = s.sv := rfl
@[simp] theorem State.setWin_tx (s : State) (i : Nat) (w : Window) : (s.setWin i w).tx = s.tx := rfl
@[simp] theorem State.setWin_se (s : State) (i : Nat) (w : Window) : (s.setWin i w).se = s.se := rfl
@[simp] theorem State.setWin_et (s : State) (i : Nat) (w : Window) : (s.setWin i w).et = s.et := rfl
@[simp] theorem State.setWin_dx (s : State) (i : Nat) (w : Window) : (s.setWin i w).dx = s.dx := rfl
@[simp] theorem State.setWin_ck (s : State) (i : Nat) (w : Window) : (s.setWin i w).ck = s.ck := rfl
@[simp] theorem State.setWin_fa (s : State) (i : Nat) (w : Window) : (s.setWin i w).fa = s.fa := rfl
@[simp] theorem State.setWin_mn (s : State) (i : Nat) (w : Window) : (s.setWin i w).mn = s.mn := rfl

@[simp] theorem State.setCq_now (s : State) (d : Nat) (x : CQ) : (s.setCq d x).now = s.now := rfl
@[simp] theorem State.setCq_out (s : State) (d : Nat) (x : CQ) : (s.setCq d x).out = s.out := rfl
@[simp] theorem State.setCq_pending (s : State) (d : Nat) (x : CQ) : (s.setCq d x).pending = s.pending := rfl
@[simp] theorem State.setCq_regs (s : State) (d : Nat) (x : CQ) : (s.setCq d x).regs = s.regs := rfl
@[simp] theorem State.setCq_nv (s : State) (d : Nat) (x : CQ) : (s.setCq d x).nv = s.nv := rfl
@[simp] theorem State.setCq_fns (s : State) (d : Nat) (x : CQ) : (s.setCq d x).fns = s.fns := rfl
@[simp] theorem State.setCq_pw (s : State) (d : Nat) (x : CQ) : (s.setCq d x).pw = s.pw := rfl
@[simp] theorem State.setCq_pk (s : State) (d : Nat) (x : CQ) : (s.setCq d x).pk = s.pk := rfl
@[simp] theorem State.setCq_wr (s : State) (d : Nat) (x : CQ) : (s.setCq d x).wr = s.wr := rfl
@[simp] theorem State.setCq_sc (s : State) (d : Nat) (x : CQ) : (s.setCq d x).sc = s.sc := rfl
@[simp] theorem State.setCq_tm (s : State) (d : Nat) (x : CQ) : (s.setCq d x).tm = s.tm := rfl
@[simp] theorem State.setCq_fb (s : State) (d : Nat) (x : CQ) : (s.setCq d x).fb = s.fb := rfl
@[simp] theorem State.setCq_sv (s : State) (d : Nat) (x : CQ) : (s.setCq d x).sv = s.sv := rfl
@[simp] theorem State.setCq_tx (s : State) (d : Nat) (x : CQ) : (s.setCq d x).tx = s.tx := rfl
@[simp] theorem State.setCq_se (s : State) (d : Nat) (x : CQ) : (s.setCq d x).se = s.se := rfl
@[simp] theorem State.setCq_sl (s : State) (d : Nat) (x : CQ) : (s.setCq d x).sl = s.sl := rfl
@[simp] theorem State.setCq_et (s : State) (d : Nat) (x : CQ) : (s.setCq d x).et = s.et := rfl
@[simp] theorem State.setCq_dx (s : State) (d : Nat) (x : CQ) : (s.setCq d x).dx = s.dx := rfl
@[simp] theorem State.setCq_ck (s : State) (d : Nat) (x : CQ) : (s.setCq d x).ck = s.ck := rfl
@[simp] theorem State.setCq_fa (s : State) (d : Nat) (x : CQ) : (s.setCq d x).fa = s.fa := rfl
@[simp] theorem State.setCq_mn (s : State) (d : Nat) (x : CQ) : (s.setCq d x).mn = s.mn := rfl

@[simp] theorem State.setDring_now (s : State) (d : Nat) (x : DRing) : (s.setDring d x).now = s.now := rfl
@[simp] theorem State.setDring_out (s : State) (d : Nat) (x : DRing) : (s.setDring d x).out = s.out := rfl
@[simp] theorem State.setDring_pending (s : State) (d : Nat) (x : DRing) : (s.setDring d x).pending = s.pending := rfl
@[simp] theorem State.setDring_regs (s : State) (d : Nat) (x : DRing) : (s.setDring d x).regs = s.regs := rfl
@[simp] theorem State.setDring_nv (s : State) (d : Nat) (x : DRing) : (s.setDring d x).nv = s.nv := rfl
@[simp] theorem State.setDring_fns (s : State) (d : Nat) (x : DRing) : (s.setDring d x).fns = s.fns := rfl
@[simp] theorem State.setDring_pw (s : State) (d : Nat) (x : DRing) : (s.setDring d x).pw = s.pw := rfl
@[simp] theorem State.setDring_pk (s : State) (d : Nat) (x : DRing) : (s.setDring d x).pk = s.pk := rfl
@[simp] theorem State.setDring_wr (s : State) (d : Nat) (x : DRing) : (s.setDring d x).wr = s.wr := rfl
@[simp] theorem State.setDring_sc (s : State) (d : Nat) (x : DRing) : (s.setDring d x).sc = s.sc := rfl
@[simp] theorem State.setDring_tm (s : State) (d : Nat) (x : DRing) : (s.setDring d x).tm = s.tm := rfl
@[simp] theorem State.setDring_fb (s : State) (d : Nat) (x : DRing) : (s.setDring d x).fb = s.fb := rfl
@[simp] theorem State.setDring_sv (s : State) (d : Nat) (x : DRing) : (s.setDring d x).sv = s.sv := rfl
@[simp] theorem State.setDring_tx (s : State) (d : Nat) (x : DRing) : (s.setDring d x).tx = s.tx := rfl
@[simp] theorem State.setDring_se (s : State) (d : Nat) (x : DRing) : (s.setDring d x).se = s.se := rfl
@[simp] theorem State.setDring_sl (s : State) (d : Nat) (x : DRing) : (s.setDring d x).sl = s.sl := rfl
@[simp] theorem State.setDring_et (s : State) (d : Nat) (x : DRing) : (s.setDring d x).et = s.et := rfl
@[simp] theorem State.setDring_dx (s : State) (d : Nat) (x : DRing) : (s.setDring d x).dx = s.dx := rfl
@[simp] theorem State.setDring_ck (s : State) (d : Nat) (x : DRing) : (s.setDring d x).ck = s.ck := rfl
@[simp] theorem State.setDring_fa (s : State) (d : Nat) (x : DRing) : (s.setDring d x).fa = s.fa := rfl
@[simp] theorem State.setDring_mn (s : State) (d : Nat) (x : DRing) : (s.setDring d x).mn = s.mn := rfl

@[simp] theorem State.setSess_now (s : State) (k : Nat) (x : Sess) : (s.setSess k x).now = s.now := rfl
@[simp] theorem State.setSess_out (s : State) (k : Nat) (x : Sess) : (s.setSess k x).out = s.out := rfl
@[simp] theorem State.setSess_pending (s : State) (k : Nat) (x : Sess) : (s.setSess k x).pending = s.pending := rfl
@[simp] theorem State.setSess_regs (s : State) (k : Nat) (x : Sess) : (s.setSess k x).regs = s.regs := rfl
@[simp] theorem State.setSess_nv (s : State) (k : Nat) (x : Sess) : (s.setSess k x).nv = s.nv := rfl
@[simp] theorem State.setSess_fns (s : State) (k : Nat) (x : Sess) : (s.setSess k x).fns = s.fns := rfl
@[simp] theorem State.setSess_pw (s : State) (k : Nat) (x : Sess) : (s.setSess k x).pw = s.pw := rfl
@[simp] theorem State.setSess_pk (s : State) (k : Nat) (x : Sess) : (s.setSess k x).pk = s.pk := rfl
@[simp] theorem State.setSess_wr (s : State) (k : Nat) (x : Sess) : (s.setSess k x).wr = s.wr := rfl
@[simp] theorem State.setSess_sc (s : State) (k : Nat) (x : Sess) : (s.setSess k x).sc = s.sc := rfl
@[simp] theorem State.setSess_tm (s : State) (k : Nat) (x : Sess) : (s.setSess k x).tm = s.tm := rfl
@[simp] theorem State.setSess_fb (s : State) (k : Nat) (x : Sess) : (s.setSess k x).fb = s.fb := rfl
@[simp] theorem State.setSess_sv (s : State) (k : Nat) (x : Sess) : (s.setSess k x).sv = s.sv := rfl
@[simp] theorem State.setSess_tx (s : State) (k : Nat) (x : Sess) : (s.setSess k x).tx = s.tx := rfl
@[simp] theorem State.setSess_se (s : State) (k : Nat) (x : Sess) : (s.setSess k x).se = s.se := rfl
@[simp] theorem State.setSess_sl (s : State) (k : Nat) (x : Sess) : (s.setSess k x).sl = s.sl := rfl
@[simp] theorem State.setSess_et (s : State) (k : Nat) (x : Sess) : (s.setSess k x).et = s.et := rfl
@[simp] theorem State.setSess_dx (s : State) (k : Nat) (x : Sess) : (s.setSess k x).dx = s.dx := rfl
@[simp] theorem State.setSess_ck (s : State) (k : Nat) (x : Sess) : (s.setSess k x).ck = s.ck := rfl
@[simp] theorem State.setSess_fa (s : State) (k : Nat) (x : Sess) : (s.setSess k x).fa = s.fa := rfl
@[simp] theorem State.setSess_mn (s : State) (k : Nat) (x : Sess) : (s.setSess k x).mn = s.mn := rfl

@[simp] theorem State.setFrame_now (s : State) (c tier n : Nat) (x : Frame) : (s.setFrame c tier n x).now = s.now := rfl
@[simp] theorem State.setFrame_out (s : State) (c tier n : Nat) (x : Frame) : (s.setFrame c tier n x).out = s.out := rfl
@[simp] theorem State.setFrame_pending (s : State) (c tier n : Nat) (x : Frame) : (s.setFrame c tier n x).pending = s.pending := rfl
@[simp] theorem State.setFrame_regs (s : State) (c tier n : Nat) (x : Frame) : (s.setFrame c tier n x).regs = s.regs := rfl
@[simp] theorem State.setFrame_nv (s : State) (c tier n : Nat) (x : Frame) : (s.setFrame c tier n x).nv = s.nv := rfl
@[simp] theorem State.setFrame_fns (s : State) (c tier n : Nat) (x : Frame) : (s.setFrame c tier n x).fns = s.fns := rfl
@[simp] theorem State.setFrame_pw (s : State) (c tier n : Nat) (x : Frame) : (s.setFrame c tier n x).pw = s.pw := rfl
@[simp] theorem State.setFrame_pk (s : State) (c tier n : Nat) (x : Frame) : (s.setFrame c tier n x).pk = s.pk := rfl
@[simp] theorem State.setFrame_wr (s : State) (c tier n : Nat) (x : Frame) : (s.setFrame c tier n x).wr = s.wr := rfl
@[simp] theorem State.setFrame_sc (s : State) (c tier n : Nat) (x : Frame) : (s.setFrame c tier n x).sc = s.sc := rfl
@[simp] theorem State.setFrame_ss (s : State) (c tier n : Nat) (x : Frame) : (s.setFrame c tier n x).ss = s.ss := rfl
@[simp] theorem State.setFrame_fb (s : State) (c tier n : Nat) (x : Frame) : (s.setFrame c tier n x).fb = s.fb := rfl
@[simp] theorem State.setFrame_sv (s : State) (c tier n : Nat) (x : Frame) : (s.setFrame c tier n x).sv = s.sv := rfl
@[simp] theorem State.setFrame_tx (s : State) (c tier n : Nat) (x : Frame) : (s.setFrame c tier n x).tx = s.tx := rfl
@[simp] theorem State.setFrame_se (s : State) (c tier n : Nat) (x : Frame) : (s.setFrame c tier n x).se = s.se := rfl
@[simp] theorem State.setFrame_sl (s : State) (c tier n : Nat) (x : Frame) : (s.setFrame c tier n x).sl = s.sl := rfl
@[simp] theorem State.setFrame_et (s : State) (c tier n : Nat) (x : Frame) : (s.setFrame c tier n x).et = s.et := rfl
@[simp] theorem State.setFrame_dx (s : State) (c tier n : Nat) (x : Frame) : (s.setFrame c tier n x).dx = s.dx := rfl
@[simp] theorem State.setFrame_ck (s : State) (c tier n : Nat) (x : Frame) : (s.setFrame c tier n x).ck = s.ck := rfl
@[simp] theorem State.setFrame_fa (s : State) (c tier n : Nat) (x : Frame) : (s.setFrame c tier n x).fa = s.fa := rfl
@[simp] theorem State.setFrame_mn (s : State) (c tier n : Nat) (x : Frame) : (s.setFrame c tier n x).mn = s.mn := rfl

@[simp] theorem State.setModel_now (s : State) (m : Nat) (x : Model) : (s.setModel m x).now = s.now := rfl
@[simp] theorem State.setModel_out (s : State) (m : Nat) (x : Model) : (s.setModel m x).out = s.out := rfl
@[simp] theorem State.setModel_pending (s : State) (m : Nat) (x : Model) : (s.setModel m x).pending = s.pending := rfl
@[simp] theorem State.setModel_regs (s : State) (m : Nat) (x : Model) : (s.setModel m x).regs = s.regs := rfl
@[simp] theorem State.setModel_nv (s : State) (m : Nat) (x : Model) : (s.setModel m x).nv = s.nv := rfl
@[simp] theorem State.setModel_fns (s : State) (m : Nat) (x : Model) : (s.setModel m x).fns = s.fns := rfl
@[simp] theorem State.setModel_pw (s : State) (m : Nat) (x : Model) : (s.setModel m x).pw = s.pw := rfl
@[simp] theorem State.setModel_pk (s : State) (m : Nat) (x : Model) : (s.setModel m x).pk = s.pk := rfl
@[simp] theorem State.setModel_wr (s : State) (m : Nat) (x : Model) : (s.setModel m x).wr = s.wr := rfl
@[simp] theorem State.setModel_sc (s : State) (m : Nat) (x : Model) : (s.setModel m x).sc = s.sc := rfl
@[simp] theorem State.setModel_ss (s : State) (m : Nat) (x : Model) : (s.setModel m x).ss = s.ss := rfl
@[simp] theorem State.setModel_tm (s : State) (m : Nat) (x : Model) : (s.setModel m x).tm = s.tm := rfl
@[simp] theorem State.setModel_sv (s : State) (m : Nat) (x : Model) : (s.setModel m x).sv = s.sv := rfl
@[simp] theorem State.setModel_tx (s : State) (m : Nat) (x : Model) : (s.setModel m x).tx = s.tx := rfl
@[simp] theorem State.setModel_se (s : State) (m : Nat) (x : Model) : (s.setModel m x).se = s.se := rfl
@[simp] theorem State.setModel_sl (s : State) (m : Nat) (x : Model) : (s.setModel m x).sl = s.sl := rfl
@[simp] theorem State.setModel_et (s : State) (m : Nat) (x : Model) : (s.setModel m x).et = s.et := rfl
@[simp] theorem State.setModel_dx (s : State) (m : Nat) (x : Model) : (s.setModel m x).dx = s.dx := rfl
@[simp] theorem State.setModel_ck (s : State) (m : Nat) (x : Model) : (s.setModel m x).ck = s.ck := rfl
@[simp] theorem State.setModel_fa (s : State) (m : Nat) (x : Model) : (s.setModel m x).fa = s.fa := rfl
@[simp] theorem State.setModel_mn (s : State) (m : Nat) (x : Model) : (s.setModel m x).mn = s.mn := rfl

@[simp] theorem State.setBudget_now (s : State) (d : Nat) (x : Budget) : (s.setBudget d x).now = s.now := rfl
@[simp] theorem State.setBudget_out (s : State) (d : Nat) (x : Budget) : (s.setBudget d x).out = s.out := rfl
@[simp] theorem State.setBudget_pending (s : State) (d : Nat) (x : Budget) : (s.setBudget d x).pending = s.pending := rfl
@[simp] theorem State.setBudget_regs (s : State) (d : Nat) (x : Budget) : (s.setBudget d x).regs = s.regs := rfl
@[simp] theorem State.setBudget_nv (s : State) (d : Nat) (x : Budget) : (s.setBudget d x).nv = s.nv := rfl
@[simp] theorem State.setBudget_fns (s : State) (d : Nat) (x : Budget) : (s.setBudget d x).fns = s.fns := rfl
@[simp] theorem State.setBudget_pw (s : State) (d : Nat) (x : Budget) : (s.setBudget d x).pw = s.pw := rfl
@[simp] theorem State.setBudget_pk (s : State) (d : Nat) (x : Budget) : (s.setBudget d x).pk = s.pk := rfl
@[simp] theorem State.setBudget_wr (s : State) (d : Nat) (x : Budget) : (s.setBudget d x).wr = s.wr := rfl
@[simp] theorem State.setBudget_sc (s : State) (d : Nat) (x : Budget) : (s.setBudget d x).sc = s.sc := rfl
@[simp] theorem State.setBudget_ss (s : State) (d : Nat) (x : Budget) : (s.setBudget d x).ss = s.ss := rfl
@[simp] theorem State.setBudget_tm (s : State) (d : Nat) (x : Budget) : (s.setBudget d x).tm = s.tm := rfl
@[simp] theorem State.setBudget_fb (s : State) (d : Nat) (x : Budget) : (s.setBudget d x).fb = s.fb := rfl
@[simp] theorem State.setBudget_tx (s : State) (d : Nat) (x : Budget) : (s.setBudget d x).tx = s.tx := rfl
@[simp] theorem State.setBudget_se (s : State) (d : Nat) (x : Budget) : (s.setBudget d x).se = s.se := rfl
@[simp] theorem State.setBudget_sl (s : State) (d : Nat) (x : Budget) : (s.setBudget d x).sl = s.sl := rfl
@[simp] theorem State.setBudget_et (s : State) (d : Nat) (x : Budget) : (s.setBudget d x).et = s.et := rfl
@[simp] theorem State.setBudget_dx (s : State) (d : Nat) (x : Budget) : (s.setBudget d x).dx = s.dx := rfl
@[simp] theorem State.setBudget_ck (s : State) (d : Nat) (x : Budget) : (s.setBudget d x).ck = s.ck := rfl
@[simp] theorem State.setBudget_fa (s : State) (d : Nat) (x : Budget) : (s.setBudget d x).fa = s.fa := rfl
@[simp] theorem State.setBudget_mn (s : State) (d : Nat) (x : Budget) : (s.setBudget d x).mn = s.mn := rfl

@[simp] theorem State.setQuery_now (s : State) (q : Query) : (s.setQuery q).now = s.now := rfl
@[simp] theorem State.setQuery_out (s : State) (q : Query) : (s.setQuery q).out = s.out := rfl
@[simp] theorem State.setQuery_pending (s : State) (q : Query) : (s.setQuery q).pending = s.pending := rfl
@[simp] theorem State.setQuery_regs (s : State) (q : Query) : (s.setQuery q).regs = s.regs := rfl
@[simp] theorem State.setQuery_nv (s : State) (q : Query) : (s.setQuery q).nv = s.nv := rfl
@[simp] theorem State.setQuery_fns (s : State) (q : Query) : (s.setQuery q).fns = s.fns := rfl
@[simp] theorem State.setQuery_pw (s : State) (q : Query) : (s.setQuery q).pw = s.pw := rfl
@[simp] theorem State.setQuery_pk (s : State) (q : Query) : (s.setQuery q).pk = s.pk := rfl
@[simp] theorem State.setQuery_wr (s : State) (q : Query) : (s.setQuery q).wr = s.wr := rfl
@[simp] theorem State.setQuery_sc (s : State) (q : Query) : (s.setQuery q).sc = s.sc := rfl
@[simp] theorem State.setQuery_ss (s : State) (q : Query) : (s.setQuery q).ss = s.ss := rfl
@[simp] theorem State.setQuery_tm (s : State) (q : Query) : (s.setQuery q).tm = s.tm := rfl
@[simp] theorem State.setQuery_fb (s : State) (q : Query) : (s.setQuery q).fb = s.fb := rfl
@[simp] theorem State.setQuery_sv (s : State) (q : Query) : (s.setQuery q).sv = s.sv := rfl
@[simp] theorem State.setQuery_tx (s : State) (q : Query) : (s.setQuery q).tx = s.tx := rfl
@[simp] theorem State.setQuery_sl (s : State) (q : Query) : (s.setQuery q).sl = s.sl := rfl
@[simp] theorem State.setQuery_et (s : State) (q : Query) : (s.setQuery q).et = s.et := rfl
@[simp] theorem State.setQuery_dx (s : State) (q : Query) : (s.setQuery q).dx = s.dx := rfl
@[simp] theorem State.setQuery_ck (s : State) (q : Query) : (s.setQuery q).ck = s.ck := rfl
@[simp] theorem State.setQuery_fa (s : State) (q : Query) : (s.setQuery q).fa = s.fa := rfl
@[simp] theorem State.setQuery_mn (s : State) (q : Query) : (s.setQuery q).mn = s.mn := rfl

@[simp] theorem State.setColl_now (s : State) (i : Nat) (x : Coll) : (s.setColl i x).now = s.now := rfl
@[simp] theorem State.setColl_out (s : State) (i : Nat) (x : Coll) : (s.setColl i x).out = s.out := rfl
@[simp] theorem State.setColl_pending (s : State) (i : Nat) (x : Coll) : (s.setColl i x).pending = s.pending := rfl
@[simp] theorem State.setColl_regs (s : State) (i : Nat) (x : Coll) : (s.setColl i x).regs = s.regs := rfl
@[simp] theorem State.setColl_nv (s : State) (i : Nat) (x : Coll) : (s.setColl i x).nv = s.nv := rfl
@[simp] theorem State.setColl_fns (s : State) (i : Nat) (x : Coll) : (s.setColl i x).fns = s.fns := rfl
@[simp] theorem State.setColl_pw (s : State) (i : Nat) (x : Coll) : (s.setColl i x).pw = s.pw := rfl
@[simp] theorem State.setColl_pk (s : State) (i : Nat) (x : Coll) : (s.setColl i x).pk = s.pk := rfl
@[simp] theorem State.setColl_wr (s : State) (i : Nat) (x : Coll) : (s.setColl i x).wr = s.wr := rfl
@[simp] theorem State.setColl_sc (s : State) (i : Nat) (x : Coll) : (s.setColl i x).sc = s.sc := rfl
@[simp] theorem State.setColl_ss (s : State) (i : Nat) (x : Coll) : (s.setColl i x).ss = s.ss := rfl
@[simp] theorem State.setColl_tm (s : State) (i : Nat) (x : Coll) : (s.setColl i x).tm = s.tm := rfl
@[simp] theorem State.setColl_fb (s : State) (i : Nat) (x : Coll) : (s.setColl i x).fb = s.fb := rfl
@[simp] theorem State.setColl_sv (s : State) (i : Nat) (x : Coll) : (s.setColl i x).sv = s.sv := rfl
@[simp] theorem State.setColl_tx (s : State) (i : Nat) (x : Coll) : (s.setColl i x).tx = s.tx := rfl
@[simp] theorem State.setColl_sl (s : State) (i : Nat) (x : Coll) : (s.setColl i x).sl = s.sl := rfl
@[simp] theorem State.setColl_et (s : State) (i : Nat) (x : Coll) : (s.setColl i x).et = s.et := rfl
@[simp] theorem State.setColl_dx (s : State) (i : Nat) (x : Coll) : (s.setColl i x).dx = s.dx := rfl
@[simp] theorem State.setColl_ck (s : State) (i : Nat) (x : Coll) : (s.setColl i x).ck = s.ck := rfl
@[simp] theorem State.setColl_fa (s : State) (i : Nat) (x : Coll) : (s.setColl i x).fa = s.fa := rfl
@[simp] theorem State.setColl_mn (s : State) (i : Nat) (x : Coll) : (s.setColl i x).mn = s.mn := rfl

@[simp] theorem State.setPort_now (s : State) (p : Nat) (x : Port) : (s.setPort p x).now = s.now := rfl
@[simp] theorem State.setPort_out (s : State) (p : Nat) (x : Port) : (s.setPort p x).out = s.out := rfl
@[simp] theorem State.setPort_pending (s : State) (p : Nat) (x : Port) : (s.setPort p x).pending = s.pending := rfl
@[simp] theorem State.setPort_regs (s : State) (p : Nat) (x : Port) : (s.setPort p x).regs = s.regs := rfl
@[simp] theorem State.setPort_nv (s : State) (p : Nat) (x : Port) : (s.setPort p x).nv = s.nv := rfl
@[simp] theorem State.setPort_fns (s : State) (p : Nat) (x : Port) : (s.setPort p x).fns = s.fns := rfl
@[simp] theorem State.setPort_pw (s : State) (p : Nat) (x : Port) : (s.setPort p x).pw = s.pw := rfl
@[simp] theorem State.setPort_pk (s : State) (p : Nat) (x : Port) : (s.setPort p x).pk = s.pk := rfl
@[simp] theorem State.setPort_wr (s : State) (p : Nat) (x : Port) : (s.setPort p x).wr = s.wr := rfl
@[simp] theorem State.setPort_sc (s : State) (p : Nat) (x : Port) : (s.setPort p x).sc = s.sc := rfl
@[simp] theorem State.setPort_ss (s : State) (p : Nat) (x : Port) : (s.setPort p x).ss = s.ss := rfl
@[simp] theorem State.setPort_tm (s : State) (p : Nat) (x : Port) : (s.setPort p x).tm = s.tm := rfl
@[simp] theorem State.setPort_fb (s : State) (p : Nat) (x : Port) : (s.setPort p x).fb = s.fb := rfl
@[simp] theorem State.setPort_sv (s : State) (p : Nat) (x : Port) : (s.setPort p x).sv = s.sv := rfl
@[simp] theorem State.setPort_tx (s : State) (p : Nat) (x : Port) : (s.setPort p x).tx = s.tx := rfl
@[simp] theorem State.setPort_se (s : State) (p : Nat) (x : Port) : (s.setPort p x).se = s.se := rfl
@[simp] theorem State.setPort_sl (s : State) (p : Nat) (x : Port) : (s.setPort p x).sl = s.sl := rfl
@[simp] theorem State.setPort_dx (s : State) (p : Nat) (x : Port) : (s.setPort p x).dx = s.dx := rfl
@[simp] theorem State.setPort_ck (s : State) (p : Nat) (x : Port) : (s.setPort p x).ck = s.ck := rfl
@[simp] theorem State.setPort_fa (s : State) (p : Nat) (x : Port) : (s.setPort p x).fa = s.fa := rfl
@[simp] theorem State.setPort_mn (s : State) (p : Nat) (x : Port) : (s.setPort p x).mn = s.mn := rfl

@[simp] theorem State.setLink_now (s : State) (n : Nat) (x : Link) : (s.setLink n x).now = s.now := rfl
@[simp] theorem State.setLink_out (s : State) (n : Nat) (x : Link) : (s.setLink n x).out = s.out := rfl
@[simp] theorem State.setLink_pending (s : State) (n : Nat) (x : Link) : (s.setLink n x).pending = s.pending := rfl
@[simp] theorem State.setLink_regs (s : State) (n : Nat) (x : Link) : (s.setLink n x).regs = s.regs := rfl
@[simp] theorem State.setLink_nv (s : State) (n : Nat) (x : Link) : (s.setLink n x).nv = s.nv := rfl
@[simp] theorem State.setLink_fns (s : State) (n : Nat) (x : Link) : (s.setLink n x).fns = s.fns := rfl
@[simp] theorem State.setLink_pw (s : State) (n : Nat) (x : Link) : (s.setLink n x).pw = s.pw := rfl
@[simp] theorem State.setLink_pk (s : State) (n : Nat) (x : Link) : (s.setLink n x).pk = s.pk := rfl
@[simp] theorem State.setLink_wr (s : State) (n : Nat) (x : Link) : (s.setLink n x).wr = s.wr := rfl
@[simp] theorem State.setLink_sc (s : State) (n : Nat) (x : Link) : (s.setLink n x).sc = s.sc := rfl
@[simp] theorem State.setLink_ss (s : State) (n : Nat) (x : Link) : (s.setLink n x).ss = s.ss := rfl
@[simp] theorem State.setLink_tm (s : State) (n : Nat) (x : Link) : (s.setLink n x).tm = s.tm := rfl
@[simp] theorem State.setLink_fb (s : State) (n : Nat) (x : Link) : (s.setLink n x).fb = s.fb := rfl
@[simp] theorem State.setLink_sv (s : State) (n : Nat) (x : Link) : (s.setLink n x).sv = s.sv := rfl
@[simp] theorem State.setLink_tx (s : State) (n : Nat) (x : Link) : (s.setLink n x).tx = s.tx := rfl
@[simp] theorem State.setLink_se (s : State) (n : Nat) (x : Link) : (s.setLink n x).se = s.se := rfl
@[simp] theorem State.setLink_sl (s : State) (n : Nat) (x : Link) : (s.setLink n x).sl = s.sl := rfl
@[simp] theorem State.setLink_et (s : State) (n : Nat) (x : Link) : (s.setLink n x).et = s.et := rfl
@[simp] theorem State.setLink_ck (s : State) (n : Nat) (x : Link) : (s.setLink n x).ck = s.ck := rfl
@[simp] theorem State.setLink_fa (s : State) (n : Nat) (x : Link) : (s.setLink n x).fa = s.fa := rfl
@[simp] theorem State.setLink_mn (s : State) (n : Nat) (x : Link) : (s.setLink n x).mn = s.mn := rfl

@[simp] theorem State.setPeer_now (s : State) (d : Nat) (x : Peer) : (s.setPeer d x).now = s.now := rfl
@[simp] theorem State.setPeer_out (s : State) (d : Nat) (x : Peer) : (s.setPeer d x).out = s.out := rfl
@[simp] theorem State.setPeer_pending (s : State) (d : Nat) (x : Peer) : (s.setPeer d x).pending = s.pending := rfl
@[simp] theorem State.setPeer_regs (s : State) (d : Nat) (x : Peer) : (s.setPeer d x).regs = s.regs := rfl
@[simp] theorem State.setPeer_nv (s : State) (d : Nat) (x : Peer) : (s.setPeer d x).nv = s.nv := rfl
@[simp] theorem State.setPeer_fns (s : State) (d : Nat) (x : Peer) : (s.setPeer d x).fns = s.fns := rfl
@[simp] theorem State.setPeer_pw (s : State) (d : Nat) (x : Peer) : (s.setPeer d x).pw = s.pw := rfl
@[simp] theorem State.setPeer_pk (s : State) (d : Nat) (x : Peer) : (s.setPeer d x).pk = s.pk := rfl
@[simp] theorem State.setPeer_wr (s : State) (d : Nat) (x : Peer) : (s.setPeer d x).wr = s.wr := rfl
@[simp] theorem State.setPeer_sc (s : State) (d : Nat) (x : Peer) : (s.setPeer d x).sc = s.sc := rfl
@[simp] theorem State.setPeer_ss (s : State) (d : Nat) (x : Peer) : (s.setPeer d x).ss = s.ss := rfl
@[simp] theorem State.setPeer_tm (s : State) (d : Nat) (x : Peer) : (s.setPeer d x).tm = s.tm := rfl
@[simp] theorem State.setPeer_fb (s : State) (d : Nat) (x : Peer) : (s.setPeer d x).fb = s.fb := rfl
@[simp] theorem State.setPeer_sv (s : State) (d : Nat) (x : Peer) : (s.setPeer d x).sv = s.sv := rfl
@[simp] theorem State.setPeer_tx (s : State) (d : Nat) (x : Peer) : (s.setPeer d x).tx = s.tx := rfl
@[simp] theorem State.setPeer_se (s : State) (d : Nat) (x : Peer) : (s.setPeer d x).se = s.se := rfl
@[simp] theorem State.setPeer_sl (s : State) (d : Nat) (x : Peer) : (s.setPeer d x).sl = s.sl := rfl
@[simp] theorem State.setPeer_et (s : State) (d : Nat) (x : Peer) : (s.setPeer d x).et = s.et := rfl
@[simp] theorem State.setPeer_ck (s : State) (d : Nat) (x : Peer) : (s.setPeer d x).ck = s.ck := rfl
@[simp] theorem State.setPeer_fa (s : State) (d : Nat) (x : Peer) : (s.setPeer d x).fa = s.fa := rfl
@[simp] theorem State.setPeer_mn (s : State) (d : Nat) (x : Peer) : (s.setPeer d x).mn = s.mn := rfl

@[simp] theorem State.setMigIn_now (s : State) (x : MigIn) : (s.setMigIn x).now = s.now := rfl
@[simp] theorem State.setMigIn_out (s : State) (x : MigIn) : (s.setMigIn x).out = s.out := rfl
@[simp] theorem State.setMigIn_pending (s : State) (x : MigIn) : (s.setMigIn x).pending = s.pending := rfl
@[simp] theorem State.setMigIn_regs (s : State) (x : MigIn) : (s.setMigIn x).regs = s.regs := rfl
@[simp] theorem State.setMigIn_nv (s : State) (x : MigIn) : (s.setMigIn x).nv = s.nv := rfl
@[simp] theorem State.setMigIn_fns (s : State) (x : MigIn) : (s.setMigIn x).fns = s.fns := rfl
@[simp] theorem State.setMigIn_pw (s : State) (x : MigIn) : (s.setMigIn x).pw = s.pw := rfl
@[simp] theorem State.setMigIn_pk (s : State) (x : MigIn) : (s.setMigIn x).pk = s.pk := rfl
@[simp] theorem State.setMigIn_wr (s : State) (x : MigIn) : (s.setMigIn x).wr = s.wr := rfl
@[simp] theorem State.setMigIn_sc (s : State) (x : MigIn) : (s.setMigIn x).sc = s.sc := rfl
@[simp] theorem State.setMigIn_ss (s : State) (x : MigIn) : (s.setMigIn x).ss = s.ss := rfl
@[simp] theorem State.setMigIn_tm (s : State) (x : MigIn) : (s.setMigIn x).tm = s.tm := rfl
@[simp] theorem State.setMigIn_fb (s : State) (x : MigIn) : (s.setMigIn x).fb = s.fb := rfl
@[simp] theorem State.setMigIn_sv (s : State) (x : MigIn) : (s.setMigIn x).sv = s.sv := rfl
@[simp] theorem State.setMigIn_tx (s : State) (x : MigIn) : (s.setMigIn x).tx = s.tx := rfl
@[simp] theorem State.setMigIn_se (s : State) (x : MigIn) : (s.setMigIn x).se = s.se := rfl
@[simp] theorem State.setMigIn_sl (s : State) (x : MigIn) : (s.setMigIn x).sl = s.sl := rfl
@[simp] theorem State.setMigIn_et (s : State) (x : MigIn) : (s.setMigIn x).et = s.et := rfl
@[simp] theorem State.setMigIn_ck (s : State) (x : MigIn) : (s.setMigIn x).ck = s.ck := rfl
@[simp] theorem State.setMigIn_fa (s : State) (x : MigIn) : (s.setMigIn x).fa = s.fa := rfl
@[simp] theorem State.setMigIn_mn (s : State) (x : MigIn) : (s.setMigIn x).mn = s.mn := rfl

@[simp] theorem State.setReeds_now (s : State) (c : Nat) (r : Reeds) : (s.setReeds c r).now = s.now := rfl
@[simp] theorem State.setReeds_out (s : State) (c : Nat) (r : Reeds) : (s.setReeds c r).out = s.out := rfl
@[simp] theorem State.setReeds_pending (s : State) (c : Nat) (r : Reeds) : (s.setReeds c r).pending = s.pending := rfl
@[simp] theorem State.setReeds_regs (s : State) (c : Nat) (r : Reeds) : (s.setReeds c r).regs = s.regs := rfl
@[simp] theorem State.setReeds_nv (s : State) (c : Nat) (r : Reeds) : (s.setReeds c r).nv = s.nv := rfl
@[simp] theorem State.setReeds_fns (s : State) (c : Nat) (r : Reeds) : (s.setReeds c r).fns = s.fns := rfl
@[simp] theorem State.setReeds_pw (s : State) (c : Nat) (r : Reeds) : (s.setReeds c r).pw = s.pw := rfl
@[simp] theorem State.setReeds_pk (s : State) (c : Nat) (r : Reeds) : (s.setReeds c r).pk = s.pk := rfl
@[simp] theorem State.setReeds_wr (s : State) (c : Nat) (r : Reeds) : (s.setReeds c r).wr = s.wr := rfl
@[simp] theorem State.setReeds_sc (s : State) (c : Nat) (r : Reeds) : (s.setReeds c r).sc = s.sc := rfl
@[simp] theorem State.setReeds_ss (s : State) (c : Nat) (r : Reeds) : (s.setReeds c r).ss = s.ss := rfl
@[simp] theorem State.setReeds_tm (s : State) (c : Nat) (r : Reeds) : (s.setReeds c r).tm = s.tm := rfl
@[simp] theorem State.setReeds_sv (s : State) (c : Nat) (r : Reeds) : (s.setReeds c r).sv = s.sv := rfl
@[simp] theorem State.setReeds_tx (s : State) (c : Nat) (r : Reeds) : (s.setReeds c r).tx = s.tx := rfl
@[simp] theorem State.setReeds_se (s : State) (c : Nat) (r : Reeds) : (s.setReeds c r).se = s.se := rfl
@[simp] theorem State.setReeds_sl (s : State) (c : Nat) (r : Reeds) : (s.setReeds c r).sl = s.sl := rfl
@[simp] theorem State.setReeds_et (s : State) (c : Nat) (r : Reeds) : (s.setReeds c r).et = s.et := rfl
@[simp] theorem State.setReeds_dx (s : State) (c : Nat) (r : Reeds) : (s.setReeds c r).dx = s.dx := rfl
@[simp] theorem State.setReeds_ck (s : State) (c : Nat) (r : Reeds) : (s.setReeds c r).ck = s.ck := rfl
@[simp] theorem State.setReeds_fa (s : State) (c : Nat) (r : Reeds) : (s.setReeds c r).fa = s.fa := rfl
@[simp] theorem State.setReeds_mn (s : State) (c : Nat) (r : Reeds) : (s.setReeds c r).mn = s.mn := rfl

@[simp] theorem State.setAssoc_now (s : State) (id : Nat) (f : Assoc → Assoc) : (s.setAssoc id f).now = s.now := rfl
@[simp] theorem State.setAssoc_out (s : State) (id : Nat) (f : Assoc → Assoc) : (s.setAssoc id f).out = s.out := rfl
@[simp] theorem State.setAssoc_pending (s : State) (id : Nat) (f : Assoc → Assoc) : (s.setAssoc id f).pending = s.pending := rfl
@[simp] theorem State.setAssoc_regs (s : State) (id : Nat) (f : Assoc → Assoc) : (s.setAssoc id f).regs = s.regs := rfl
@[simp] theorem State.setAssoc_nv (s : State) (id : Nat) (f : Assoc → Assoc) : (s.setAssoc id f).nv = s.nv := rfl
@[simp] theorem State.setAssoc_fns (s : State) (id : Nat) (f : Assoc → Assoc) : (s.setAssoc id f).fns = s.fns := rfl
@[simp] theorem State.setAssoc_pw (s : State) (id : Nat) (f : Assoc → Assoc) : (s.setAssoc id f).pw = s.pw := rfl
@[simp] theorem State.setAssoc_pk (s : State) (id : Nat) (f : Assoc → Assoc) : (s.setAssoc id f).pk = s.pk := rfl
@[simp] theorem State.setAssoc_sc (s : State) (id : Nat) (f : Assoc → Assoc) : (s.setAssoc id f).sc = s.sc := rfl
@[simp] theorem State.setAssoc_ss (s : State) (id : Nat) (f : Assoc → Assoc) : (s.setAssoc id f).ss = s.ss := rfl
@[simp] theorem State.setAssoc_tm (s : State) (id : Nat) (f : Assoc → Assoc) : (s.setAssoc id f).tm = s.tm := rfl
@[simp] theorem State.setAssoc_fb (s : State) (id : Nat) (f : Assoc → Assoc) : (s.setAssoc id f).fb = s.fb := rfl
@[simp] theorem State.setAssoc_sv (s : State) (id : Nat) (f : Assoc → Assoc) : (s.setAssoc id f).sv = s.sv := rfl
@[simp] theorem State.setAssoc_tx (s : State) (id : Nat) (f : Assoc → Assoc) : (s.setAssoc id f).tx = s.tx := rfl
@[simp] theorem State.setAssoc_se (s : State) (id : Nat) (f : Assoc → Assoc) : (s.setAssoc id f).se = s.se := rfl
@[simp] theorem State.setAssoc_sl (s : State) (id : Nat) (f : Assoc → Assoc) : (s.setAssoc id f).sl = s.sl := rfl
@[simp] theorem State.setAssoc_et (s : State) (id : Nat) (f : Assoc → Assoc) : (s.setAssoc id f).et = s.et := rfl
@[simp] theorem State.setAssoc_dx (s : State) (id : Nat) (f : Assoc → Assoc) : (s.setAssoc id f).dx = s.dx := rfl
@[simp] theorem State.setAssoc_ck (s : State) (id : Nat) (f : Assoc → Assoc) : (s.setAssoc id f).ck = s.ck := rfl
@[simp] theorem State.setAssoc_fa (s : State) (id : Nat) (f : Assoc → Assoc) : (s.setAssoc id f).fa = s.fa := rfl
@[simp] theorem State.setAssoc_mn (s : State) (id : Nat) (f : Assoc → Assoc) : (s.setAssoc id f).mn = s.mn := rfl

@[simp] theorem State.setPatSlots_now (s : State) (c g : Nat) (l : List Nat) : (s.setPatSlots c g l).now = s.now := rfl
@[simp] theorem State.setPatSlots_out (s : State) (c g : Nat) (l : List Nat) : (s.setPatSlots c g l).out = s.out := rfl
@[simp] theorem State.setPatSlots_pending (s : State) (c g : Nat) (l : List Nat) : (s.setPatSlots c g l).pending = s.pending := rfl
@[simp] theorem State.setPatSlots_regs (s : State) (c g : Nat) (l : List Nat) : (s.setPatSlots c g l).regs = s.regs := rfl
@[simp] theorem State.setPatSlots_nv (s : State) (c g : Nat) (l : List Nat) : (s.setPatSlots c g l).nv = s.nv := rfl
@[simp] theorem State.setPatSlots_fns (s : State) (c g : Nat) (l : List Nat) : (s.setPatSlots c g l).fns = s.fns := rfl
@[simp] theorem State.setPatSlots_pw (s : State) (c g : Nat) (l : List Nat) : (s.setPatSlots c g l).pw = s.pw := rfl
@[simp] theorem State.setPatSlots_pk (s : State) (c g : Nat) (l : List Nat) : (s.setPatSlots c g l).pk = s.pk := rfl
@[simp] theorem State.setPatSlots_wr (s : State) (c g : Nat) (l : List Nat) : (s.setPatSlots c g l).wr = s.wr := rfl
@[simp] theorem State.setPatSlots_sc (s : State) (c g : Nat) (l : List Nat) : (s.setPatSlots c g l).sc = s.sc := rfl
@[simp] theorem State.setPatSlots_ss (s : State) (c g : Nat) (l : List Nat) : (s.setPatSlots c g l).ss = s.ss := rfl
@[simp] theorem State.setPatSlots_tm (s : State) (c g : Nat) (l : List Nat) : (s.setPatSlots c g l).tm = s.tm := rfl
@[simp] theorem State.setPatSlots_sv (s : State) (c g : Nat) (l : List Nat) : (s.setPatSlots c g l).sv = s.sv := rfl
@[simp] theorem State.setPatSlots_tx (s : State) (c g : Nat) (l : List Nat) : (s.setPatSlots c g l).tx = s.tx := rfl
@[simp] theorem State.setPatSlots_se (s : State) (c g : Nat) (l : List Nat) : (s.setPatSlots c g l).se = s.se := rfl
@[simp] theorem State.setPatSlots_sl (s : State) (c g : Nat) (l : List Nat) : (s.setPatSlots c g l).sl = s.sl := rfl
@[simp] theorem State.setPatSlots_et (s : State) (c g : Nat) (l : List Nat) : (s.setPatSlots c g l).et = s.et := rfl
@[simp] theorem State.setPatSlots_dx (s : State) (c g : Nat) (l : List Nat) : (s.setPatSlots c g l).dx = s.dx := rfl
@[simp] theorem State.setPatSlots_ck (s : State) (c g : Nat) (l : List Nat) : (s.setPatSlots c g l).ck = s.ck := rfl
@[simp] theorem State.setPatSlots_fa (s : State) (c g : Nat) (l : List Nat) : (s.setPatSlots c g l).fa = s.fa := rfl
@[simp] theorem State.setPatSlots_mn (s : State) (c g : Nat) (l : List Nat) : (s.setPatSlots c g l).mn = s.mn := rfl

end Sys2Proof.Machine
end

