-- ==== Sys2Proof/Laws/Frames.lean ====
section
/-! SUPPORT. Frames: which changes leave which part of the state as it is.  `frame_X` gives, for the lemmas of `Laws/Keeps.lean`, that part X keeps
its value; the simplifier's lemmas say the same of the operations that everything uses. -/

set_option linter.all false

namespace Sys2Proof.Machine

open Sys2Proof

/-- The part of pw that most operations leave. -/
def State.pwRest (s : State) : Power := Power.rest s.pw

/-- The part of pk that most operations leave. -/
def State.pkRest (s : State) : Pick := Pick.rest s.pk

/-- The part of nv that most operations leave. -/
def State.nvRest (s : State) : NV := NV.rest s.nv

/-- The part of sc that most operations leave. -/
def State.scRest (s : State) : Security := Security.rest s.sc

/-! ### out -/

@[simp] theorem State.maxReg_out (s : State) (e : Entry) (v sub i : Nat) : (s.maxReg e v sub i).out = s.out :=
  ite_keeps (P := fun t => t.out = s.out) rfl rfl

/-- The changes that leave it. -/
def Prim.keepsOut : Prim → Bool
  | .out => false
  | .notify => false
  | .journal => false
  | .ev => false
  | _ => true

theorem frame_out {T : List Prim} (e : T.all Prim.keepsOut = true) (s : State) : Stable T (fun t => t.out = s.out) := by
  intro p hp
  have hk := List.all_eq_true.mp e p hp
  cases p <;> first | cases hk | skip
  all_goals first
    | (intro a; intros; rename_i h; exact h)

/-! ### pending -/

@[simp] theorem State.notifyVia_pending (s : State) (v : Assoc → List Nat) (r : Nat) (d : Bytes) : (s.notifyVia v r d).pending = s.pending :=
  each_keeps (P := fun t => t.pending = s.pending) (fun _ _ h => each_keeps (P := fun t => t.pending = s.pending) (fun _ _ h => h) h) rfl

@[simp] theorem State.notify_pending (s : State) (r : Nat) (d : Bytes) : (s.notify r d).pending = s.pending := s.notifyVia_pending _ r d

@[simp] theorem State.monAdd_pending (s : State) (f : FnId) (a b d e : Nat) : (s.monAdd f a b d e).pending = s.pending :=
  when_keeps (P := fun t => t.pending = s.pending) (fun t h => (State.notify_pending t _ _).trans h) rfl

@[simp] theorem State.traceAdd_pending (s : State) (a : Nat) (b : Option Nat) (d e : Nat) : (s.traceAdd a b d e).pending = s.pending :=
  ite_keeps (P := fun t => t.pending = s.pending) rfl rfl

@[simp] theorem State.ev_pending (s : State) (a : Nat) (b : Option Nat) (d e : Nat) (f g : Option Nat) : (s.ev a b d e f g).pending = s.pending :=
  when_keeps (P := fun t => t.pending = s.pending) (fun t h => (State.traceAdd_pending t _ _ _ _).trans h) (each_keeps (P := fun t => t.pending = s.pending) (fun _ t h => (State.monAdd_pending t _ _ _ _ _).trans h) rfl)

@[simp] theorem State.journal_pending (s : State) (a b d e f : Nat) (g : Bytes) (k : Nat) : (s.journal a b d e f g k).pending = s.pending := by
  have h1 : (((s.inc (classCount a)).ev (classSource a)).when (decide (a = 3)) State.store).pending = s.pending :=
    when_keeps (P := fun t => t.pending = s.pending) (fun _ h => h) (by simp only [State.ev_pending]; rfl)
  unfold State.journal
  dsimp only
  split
  · exact h1
  · exact when_keeps (P := fun t => t.pending = s.pending) (fun t h => by simp only [State.ev_pending]; exact h) h1

@[simp] theorem State.maxReg_pending (s : State) (e : Entry) (v sub i : Nat) : (s.maxReg e v sub i).pending = s.pending :=
  ite_keeps (P := fun t => t.pending = s.pending) rfl rfl

/-- The changes that leave it. -/
def Prim.keepsPending : Prim → Bool
  | .pending => false
  | _ => true

theorem frame_pending {T : List Prim} (e : T.all Prim.keepsPending = true) (s : State) : Stable T (fun t => t.pending = s.pending) := by
  intro p hp
  have hk := List.all_eq_true.mp e p hp
  cases p <;> first | cases hk | skip
  all_goals first
    | exact fun t v r d h => (State.notifyVia_pending t v r d).trans h
    | exact fun t a b d e f g k h => (State.journal_pending t a b d e f g k).trans h
    | exact fun t a b d e f g h => (State.ev_pending t a b d e f g).trans h
    | (intro a; intros; rename_i h; exact h)

/-! ### regs -/

@[simp] theorem State.notifyVia_regs (s : State) (v : Assoc → List Nat) (r : Nat) (d : Bytes) : (s.notifyVia v r d).regs = s.regs :=
  each_keeps (P := fun t => t.regs = s.regs) (fun _ _ h => each_keeps (P := fun t => t.regs = s.regs) (fun _ _ h => h) h) rfl

@[simp] theorem State.notify_regs (s : State) (r : Nat) (d : Bytes) : (s.notify r d).regs = s.regs := s.notifyVia_regs _ r d

@[simp] theorem State.monAdd_regs (s : State) (f : FnId) (a b d e : Nat) : (s.monAdd f a b d e).regs = s.regs :=
  when_keeps (P := fun t => t.regs = s.regs) (fun t h => (State.notify_regs t _ _).trans h) rfl

@[simp] theorem State.traceAdd_regs (s : State) (a : Nat) (b : Option Nat) (d e : Nat) : (s.traceAdd a b d e).regs = s.regs :=
  ite_keeps (P := fun t => t.regs = s.regs) rfl rfl

@[simp] theorem State.ev_regs (s : State) (a : Nat) (b : Option Nat) (d e : Nat) (f g : Option Nat) : (s.ev a b d e f g).regs = s.regs :=
  when_keeps (P := fun t => t.regs = s.regs) (fun t h => (State.traceAdd_regs t _ _ _ _).trans h) (each_keeps (P := fun t => t.regs = s.regs) (fun _ t h => (State.monAdd_regs t _ _ _ _ _).trans h) rfl)

/-- The changes that leave it. -/
def Prim.keepsRegs : Prim → Bool
  | .regs => false
  | .ctr => false
  | .reg => false
  | .journal => false
  | .off => false
  | .iso => false
  | _ => true

theorem frame_regs {T : List Prim} (e : T.all Prim.keepsRegs = true) (s : State) : Stable T (fun t => t.regs = s.regs) := by
  intro p hp
  have hk := List.all_eq_true.mp e p hp
  cases p <;> first | cases hk | skip
  all_goals first
    | exact fun t v r d h => (State.notifyVia_regs t v r d).trans h
    | exact fun t a b d e f g h => (State.ev_regs t a b d e f g).trans h
    | (intro a; intros; rename_i h; exact h)

/-! ### nv -/

@[simp] theorem State.notifyVia_nv (s : State) (v : Assoc → List Nat) (r : Nat) (d : Bytes) : (s.notifyVia v r d).nv = s.nv :=
  each_keeps (P := fun t => t.nv = s.nv) (fun _ _ h => each_keeps (P := fun t => t.nv = s.nv) (fun _ _ h => h) h) rfl

@[simp] theorem State.notify_nv (s : State) (r : Nat) (d : Bytes) : (s.notify r d).nv = s.nv := s.notifyVia_nv _ r d

@[simp] theorem State.monAdd_nv (s : State) (f : FnId) (a b d e : Nat) : (s.monAdd f a b d e).nv = s.nv :=
  when_keeps (P := fun t => t.nv = s.nv) (fun t h => (State.notify_nv t _ _).trans h) rfl

@[simp] theorem State.traceAdd_nv (s : State) (a : Nat) (b : Option Nat) (d e : Nat) : (s.traceAdd a b d e).nv = s.nv :=
  ite_keeps (P := fun t => t.nv = s.nv) rfl rfl

@[simp] theorem State.ev_nv (s : State) (a : Nat) (b : Option Nat) (d e : Nat) (f g : Option Nat) : (s.ev a b d e f g).nv = s.nv :=
  when_keeps (P := fun t => t.nv = s.nv) (fun t h => (State.traceAdd_nv t _ _ _ _).trans h) (each_keeps (P := fun t => t.nv = s.nv) (fun _ t h => (State.monAdd_nv t _ _ _ _ _).trans h) rfl)

@[simp] theorem State.journal_nv (s : State) (a b d e f : Nat) (g : Bytes) (k : Nat) : (s.journal a b d e f g k).nv = s.nv := by
  have h1 : (((s.inc (classCount a)).ev (classSource a)).when (decide (a = 3)) State.store).nv = s.nv :=
    when_keeps (P := fun t => t.nv = s.nv) (fun _ h => h) (by simp only [State.ev_nv]; rfl)
  unfold State.journal
  dsimp only
  split
  · exact h1
  · exact when_keeps (P := fun t => t.nv = s.nv) (fun t h => by simp only [State.ev_nv]; exact h) h1

@[simp] theorem State.maxReg_nv (s : State) (e : Entry) (v sub i : Nat) : (s.maxReg e v sub i).nv = s.nv :=
  ite_keeps (P := fun t => t.nv = s.nv) rfl rfl

/-- The changes that leave it. -/
def Prim.keepsNv : Prim → Bool
  | .nv => false
  | .nvAny => false
  | _ => true

theorem frame_nv {T : List Prim} (e : T.all Prim.keepsNv = true) (s : State) : Stable T (fun t => t.nv = s.nv) := by
  intro p hp
  have hk := List.all_eq_true.mp e p hp
  cases p <;> first | cases hk | skip
  all_goals first
    | exact fun t v r d h => (State.notifyVia_nv t v r d).trans h
    | exact fun t a b d e f g k h => (State.journal_nv t a b d e f g k).trans h
    | exact fun t a b d e f g h => (State.ev_nv t a b d e f g).trans h
    | (intro a; intros; rename_i h; exact h)

/-! ### fns -/

@[simp] theorem State.notifyVia_fns (s : State) (v : Assoc → List Nat) (r : Nat) (d : Bytes) : (s.notifyVia v r d).fns = s.fns :=
  each_keeps (P := fun t => t.fns = s.fns) (fun _ _ h => each_keeps (P := fun t => t.fns = s.fns) (fun _ _ h => h) h) rfl

@[simp] theorem State.notify_fns (s : State) (r : Nat) (d : Bytes) : (s.notify r d).fns = s.fns := s.notifyVia_fns _ r d

@[simp] theorem State.monAdd_fns (s : State) (f : FnId) (a b d e : Nat) : (s.monAdd f a b d e).fns = s.fns :=
  when_keeps (P := fun t => t.fns = s.fns) (fun t h => (State.notify_fns t _ _).trans h) rfl

@[simp] theorem State.traceAdd_fns (s : State) (a : Nat) (b : Option Nat) (d e : Nat) : (s.traceAdd a b d e).fns = s.fns :=
  ite_keeps (P := fun t => t.fns = s.fns) rfl rfl

@[simp] theorem State.ev_fns (s : State) (a : Nat) (b : Option Nat) (d e : Nat) (f g : Option Nat) : (s.ev a b d e f g).fns = s.fns :=
  when_keeps (P := fun t => t.fns = s.fns) (fun t h => (State.traceAdd_fns t _ _ _ _).trans h) (each_keeps (P := fun t => t.fns = s.fns) (fun _ t h => (State.monAdd_fns t _ _ _ _ _).trans h) rfl)

@[simp] theorem State.journal_fns (s : State) (a b d e f : Nat) (g : Bytes) (k : Nat) : (s.journal a b d e f g k).fns = s.fns := by
  have h1 : (((s.inc (classCount a)).ev (classSource a)).when (decide (a = 3)) State.store).fns = s.fns :=
    when_keeps (P := fun t => t.fns = s.fns) (fun _ h => h) (by simp only [State.ev_fns]; rfl)
  unfold State.journal
  dsimp only
  split
  · exact h1
  · exact when_keeps (P := fun t => t.fns = s.fns) (fun t h => by simp only [State.ev_fns]; exact h) h1

@[simp] theorem State.maxReg_fns (s : State) (e : Entry) (v sub i : Nat) : (s.maxReg e v sub i).fns = s.fns :=
  ite_keeps (P := fun t => t.fns = s.fns) rfl rfl

/-- The changes that leave it. -/
def Prim.keepsFns : Prim → Bool
  | .fn => false
  | .wfn => false
  | .off => false
  | .iso => false
  | _ => true

theorem frame_fns {T : List Prim} (e : T.all Prim.keepsFns = true) (s : State) : Stable T (fun t => t.fns = s.fns) := by
  intro p hp
  have hk := List.all_eq_true.mp e p hp
  cases p <;> first | cases hk | skip
  all_goals first
    | exact fun t v r d h => (State.notifyVia_fns t v r d).trans h
    | exact fun t a b d e f g k h => (State.journal_fns t a b d e f g k).trans h
    | exact fun t a b d e f g h => (State.ev_fns t a b d e f g).trans h
    | (intro a; intros; rename_i h; exact h)

/-! ### pw -/

@[simp] theorem State.notifyVia_pw (s : State) (v : Assoc → List Nat) (r : Nat) (d : Bytes) : (s.notifyVia v r d).pw = s.pw :=
  each_keeps (P := fun t => t.pw = s.pw) (fun _ _ h => each_keeps (P := fun t => t.pw = s.pw) (fun _ _ h => h) h) rfl

@[simp] theorem State.notify_pw (s : State) (r : Nat) (d : Bytes) : (s.notify r d).pw = s.pw := s.notifyVia_pw _ r d

@[simp] theorem State.monAdd_pw (s : State) (f : FnId) (a b d e : Nat) : (s.monAdd f a b d e).pw = s.pw :=
  when_keeps (P := fun t => t.pw = s.pw) (fun t h => (State.notify_pw t _ _).trans h) rfl

@[simp] theorem State.traceAdd_pw (s : State) (a : Nat) (b : Option Nat) (d e : Nat) : (s.traceAdd a b d e).pw = s.pw :=
  ite_keeps (P := fun t => t.pw = s.pw) rfl rfl

@[simp] theorem State.ev_pw (s : State) (a : Nat) (b : Option Nat) (d e : Nat) (f g : Option Nat) : (s.ev a b d e f g).pw = s.pw :=
  when_keeps (P := fun t => t.pw = s.pw) (fun t h => (State.traceAdd_pw t _ _ _ _).trans h) (each_keeps (P := fun t => t.pw = s.pw) (fun _ t h => (State.monAdd_pw t _ _ _ _ _).trans h) rfl)

@[simp] theorem State.journal_pw (s : State) (a b d e f : Nat) (g : Bytes) (k : Nat) : (s.journal a b d e f g k).pw = s.pw := by
  have h1 : (((s.inc (classCount a)).ev (classSource a)).when (decide (a = 3)) State.store).pw = s.pw :=
    when_keeps (P := fun t => t.pw = s.pw) (fun _ h => h) (by simp only [State.ev_pw]; rfl)
  unfold State.journal
  dsimp only
  split
  · exact h1
  · exact when_keeps (P := fun t => t.pw = s.pw) (fun t h => by simp only [State.ev_pw]; exact h) h1

@[simp] theorem State.maxReg_pw (s : State) (e : Entry) (v sub i : Nat) : (s.maxReg e v sub i).pw = s.pw :=
  ite_keeps (P := fun t => t.pw = s.pw) rfl rfl

/-- The changes that leave it. -/
def Prim.keepsPw : Prim → Bool
  | .pw => false
  | .pwAny => false
  | .off => false
  | .iso => false
  | _ => true

theorem frame_pw {T : List Prim} (e : T.all Prim.keepsPw = true) (s : State) : Stable T (fun t => t.pw = s.pw) := by
  intro p hp
  have hk := List.all_eq_true.mp e p hp
  cases p <;> first | cases hk | skip
  all_goals first
    | exact fun t v r d h => (State.notifyVia_pw t v r d).trans h
    | exact fun t a b d e f g k h => (State.journal_pw t a b d e f g k).trans h
    | exact fun t a b d e f g h => (State.ev_pw t a b d e f g).trans h
    | (intro a; intros; rename_i h; exact h)

/-! ### pk -/

@[simp] theorem State.maxReg_pk (s : State) (e : Entry) (v sub i : Nat) : (s.maxReg e v sub i).pk = s.pk :=
  ite_keeps (P := fun t => t.pk = s.pk) rfl rfl

/-- The changes that leave it. -/
def Prim.keepsPk : Prim → Bool
  | .pk => false
  | .pkAny => false
  | .stamp => false
  | .notify => false
  | .journal => false
  | .ev => false
  | .off => false
  | _ => true

theorem frame_pk {T : List Prim} (e : T.all Prim.keepsPk = true) (s : State) : Stable T (fun t => t.pk = s.pk) := by
  intro p hp
  have hk := List.all_eq_true.mp e p hp
  cases p <;> first | cases hk | skip
  all_goals first
    | (intro a; intros; rename_i h; exact h)

/-! ### wr -/

@[simp] theorem State.maxReg_wr (s : State) (e : Entry) (v sub i : Nat) : (s.maxReg e v sub i).wr = s.wr :=
  ite_keeps (P := fun t => t.wr = s.wr) rfl rfl

/-- The changes that leave it. -/
def Prim.keepsWr : Prim → Bool
  | .wr => false
  | .notify => false
  | .journal => false
  | .ev => false
  | .off => false
  | .iso => false
  | _ => true

theorem frame_wr {T : List Prim} (e : T.all Prim.keepsWr = true) (s : State) : Stable T (fun t => t.wr = s.wr) := by
  intro p hp
  have hk := List.all_eq_true.mp e p hp
  cases p <;> first | cases hk | skip
  all_goals first
    | (intro a; intros; rename_i h; exact h)

/-! ### sc -/

@[simp] theorem State.notifyVia_sc (s : State) (v : Assoc → List Nat) (r : Nat) (d : Bytes) : (s.notifyVia v r d).sc = s.sc :=
  each_keeps (P := fun t => t.sc = s.sc) (fun _ _ h => each_keeps (P := fun t => t.sc = s.sc) (fun _ _ h => h) h) rfl

@[simp] theorem State.notify_sc (s : State) (r : Nat) (d : Bytes) : (s.notify r d).sc = s.sc := s.notifyVia_sc _ r d

@[simp] theorem State.monAdd_sc (s : State) (f : FnId) (a b d e : Nat) : (s.monAdd f a b d e).sc = s.sc :=
  when_keeps (P := fun t => t.sc = s.sc) (fun t h => (State.notify_sc t _ _).trans h) rfl

@[simp] theorem State.traceAdd_sc (s : State) (a : Nat) (b : Option Nat) (d e : Nat) : (s.traceAdd a b d e).sc = s.sc :=
  ite_keeps (P := fun t => t.sc = s.sc) rfl rfl

@[simp] theorem State.ev_sc (s : State) (a : Nat) (b : Option Nat) (d e : Nat) (f g : Option Nat) : (s.ev a b d e f g).sc = s.sc :=
  when_keeps (P := fun t => t.sc = s.sc) (fun t h => (State.traceAdd_sc t _ _ _ _).trans h) (each_keeps (P := fun t => t.sc = s.sc) (fun _ t h => (State.monAdd_sc t _ _ _ _ _).trans h) rfl)

@[simp] theorem State.journal_sc (s : State) (a b d e f : Nat) (g : Bytes) (k : Nat) : (s.journal a b d e f g k).sc = s.sc := by
  have h1 : (((s.inc (classCount a)).ev (classSource a)).when (decide (a = 3)) State.store).sc = s.sc :=
    when_keeps (P := fun t => t.sc = s.sc) (fun _ h => h) (by simp only [State.ev_sc]; rfl)
  unfold State.journal
  dsimp only
  split
  · exact h1
  · exact when_keeps (P := fun t => t.sc = s.sc) (fun t h => by simp only [State.ev_sc]; exact h) h1

@[simp] theorem State.maxReg_sc (s : State) (e : Entry) (v sub i : Nat) : (s.maxReg e v sub i).sc = s.sc :=
  ite_keeps (P := fun t => t.sc = s.sc) rfl rfl

/-- The changes that leave it. -/
def Prim.keepsSc : Prim → Bool
  | .sc => false
  | .scAny => false
  | .off => false
  | .iso => false
  | _ => true

theorem frame_sc {T : List Prim} (e : T.all Prim.keepsSc = true) (s : State) : Stable T (fun t => t.sc = s.sc) := by
  intro p hp
  have hk := List.all_eq_true.mp e p hp
  cases p <;> first | cases hk | skip
  all_goals first
    | exact fun t v r d h => (State.notifyVia_sc t v r d).trans h
    | exact fun t a b d e f g k h => (State.journal_sc t a b d e f g k).trans h
    | exact fun t a b d e f g h => (State.ev_sc t a b d e f g).trans h
    | (intro a; intros; rename_i h; exact h)

/-! ### ss -/

@[simp] theorem State.notifyVia_ss (s : State) (v : Assoc → List Nat) (r : Nat) (d : Bytes) : (s.notifyVia v r d).ss = s.ss :=
  each_keeps (P := fun t => t.ss = s.ss) (fun _ _ h => each_keeps (P := fun t => t.ss = s.ss) (fun _ _ h => h) h) rfl

@[simp] theorem State.notify_ss (s : State) (r : Nat) (d : Bytes) : (s.notify r d).ss = s.ss := s.notifyVia_ss _ r d

@[simp] theorem State.monAdd_ss (s : State) (f : FnId) (a b d e : Nat) : (s.monAdd f a b d e).ss = s.ss :=
  when_keeps (P := fun t => t.ss = s.ss) (fun t h => (State.notify_ss t _ _).trans h) rfl

@[simp] theorem State.traceAdd_ss (s : State) (a : Nat) (b : Option Nat) (d e : Nat) : (s.traceAdd a b d e).ss = s.ss :=
  ite_keeps (P := fun t => t.ss = s.ss) rfl rfl

@[simp] theorem State.ev_ss (s : State) (a : Nat) (b : Option Nat) (d e : Nat) (f g : Option Nat) : (s.ev a b d e f g).ss = s.ss :=
  when_keeps (P := fun t => t.ss = s.ss) (fun t h => (State.traceAdd_ss t _ _ _ _).trans h) (each_keeps (P := fun t => t.ss = s.ss) (fun _ t h => (State.monAdd_ss t _ _ _ _ _).trans h) rfl)

@[simp] theorem State.journal_ss (s : State) (a b d e f : Nat) (g : Bytes) (k : Nat) : (s.journal a b d e f g k).ss = s.ss := by
  have h1 : (((s.inc (classCount a)).ev (classSource a)).when (decide (a = 3)) State.store).ss = s.ss :=
    when_keeps (P := fun t => t.ss = s.ss) (fun _ h => h) (by simp only [State.ev_ss]; rfl)
  unfold State.journal
  dsimp only
  split
  · exact h1
  · exact when_keeps (P := fun t => t.ss = s.ss) (fun t h => by simp only [State.ev_ss]; exact h) h1

@[simp] theorem State.maxReg_ss (s : State) (e : Entry) (v sub i : Nat) : (s.maxReg e v sub i).ss = s.ss :=
  ite_keeps (P := fun t => t.ss = s.ss) rfl rfl

/-- The changes that leave it. -/
def Prim.keepsSs : Prim → Bool
  | .ss => false
  | .off => false
  | .iso => false
  | _ => true

theorem frame_ss {T : List Prim} (e : T.all Prim.keepsSs = true) (s : State) : Stable T (fun t => t.ss = s.ss) := by
  intro p hp
  have hk := List.all_eq_true.mp e p hp
  cases p <;> first | cases hk | skip
  all_goals first
    | exact fun t v r d h => (State.notifyVia_ss t v r d).trans h
    | exact fun t a b d e f g k h => (State.journal_ss t a b d e f g k).trans h
    | exact fun t a b d e f g h => (State.ev_ss t a b d e f g).trans h
    | (intro a; intros; rename_i h; exact h)

/-! ### tm -/

@[simp] theorem State.notifyVia_tm (s : State) (v : Assoc → List Nat) (r : Nat) (d : Bytes) : (s.notifyVia v r d).tm = s.tm :=
  each_keeps (P := fun t => t.tm = s.tm) (fun _ _ h => each_keeps (P := fun t => t.tm = s.tm) (fun _ _ h => h) h) rfl

@[simp] theorem State.notify_tm (s : State) (r : Nat) (d : Bytes) : (s.notify r d).tm = s.tm := s.notifyVia_tm _ r d

@[simp] theorem State.monAdd_tm (s : State) (f : FnId) (a b d e : Nat) : (s.monAdd f a b d e).tm = s.tm :=
  when_keeps (P := fun t => t.tm = s.tm) (fun t h => (State.notify_tm t _ _).trans h) rfl

@[simp] theorem State.traceAdd_tm (s : State) (a : Nat) (b : Option Nat) (d e : Nat) : (s.traceAdd a b d e).tm = s.tm :=
  ite_keeps (P := fun t => t.tm = s.tm) rfl rfl

@[simp] theorem State.ev_tm (s : State) (a : Nat) (b : Option Nat) (d e : Nat) (f g : Option Nat) : (s.ev a b d e f g).tm = s.tm :=
  when_keeps (P := fun t => t.tm = s.tm) (fun t h => (State.traceAdd_tm t _ _ _ _).trans h) (each_keeps (P := fun t => t.tm = s.tm) (fun _ t h => (State.monAdd_tm t _ _ _ _ _).trans h) rfl)

@[simp] theorem State.journal_tm (s : State) (a b d e f : Nat) (g : Bytes) (k : Nat) : (s.journal a b d e f g k).tm = s.tm := by
  have h1 : (((s.inc (classCount a)).ev (classSource a)).when (decide (a = 3)) State.store).tm = s.tm :=
    when_keeps (P := fun t => t.tm = s.tm) (fun _ h => h) (by simp only [State.ev_tm]; rfl)
  unfold State.journal
  dsimp only
  split
  · exact h1
  · exact when_keeps (P := fun t => t.tm = s.tm) (fun t h => by simp only [State.ev_tm]; exact h) h1

@[simp] theorem State.maxReg_tm (s : State) (e : Entry) (v sub i : Nat) : (s.maxReg e v sub i).tm = s.tm :=
  ite_keeps (P := fun t => t.tm = s.tm) rfl rfl

/-- The changes that leave it. -/
def Prim.keepsTm : Prim → Bool
  | .tm => false
  | .off => false
  | .iso => false
  | _ => true

theorem frame_tm {T : List Prim} (e : T.all Prim.keepsTm = true) (s : State) : Stable T (fun t => t.tm = s.tm) := by
  intro p hp
  have hk := List.all_eq_true.mp e p hp
  cases p <;> first | cases hk | skip
  all_goals first
    | exact fun t v r d h => (State.notifyVia_tm t v r d).trans h
    | exact fun t a b d e f g k h => (State.journal_tm t a b d e f g k).trans h
    | exact fun t a b d e f g h => (State.ev_tm t a b d e f g).trans h
    | (intro a; intros; rename_i h; exact h)

/-! ### fb -/

@[simp] theorem State.notifyVia_fb (s : State) (v : Assoc → List Nat) (r : Nat) (d : Bytes) : (s.notifyVia v r d).fb = s.fb :=
  each_keeps (P := fun t => t.fb = s.fb) (fun _ _ h => each_keeps (P := fun t => t.fb = s.fb) (fun _ _ h => h) h) rfl

@[simp] theorem State.notify_fb (s : State) (r : Nat) (d : Bytes) : (s.notify r d).fb = s.fb := s.notifyVia_fb _ r d

@[simp] theorem State.monAdd_fb (s : State) (f : FnId) (a b d e : Nat) : (s.monAdd f a b d e).fb = s.fb :=
  when_keeps (P := fun t => t.fb = s.fb) (fun t h => (State.notify_fb t _ _).trans h) rfl

@[simp] theorem State.traceAdd_fb (s : State) (a : Nat) (b : Option Nat) (d e : Nat) : (s.traceAdd a b d e).fb = s.fb :=
  ite_keeps (P := fun t => t.fb = s.fb) rfl rfl

@[simp] theorem State.ev_fb (s : State) (a : Nat) (b : Option Nat) (d e : Nat) (f g : Option Nat) : (s.ev a b d e f g).fb = s.fb :=
  when_keeps (P := fun t => t.fb = s.fb) (fun t h => (State.traceAdd_fb t _ _ _ _).trans h) (each_keeps (P := fun t => t.fb = s.fb) (fun _ t h => (State.monAdd_fb t _ _ _ _ _).trans h) rfl)

@[simp] theorem State.journal_fb (s : State) (a b d e f : Nat) (g : Bytes) (k : Nat) : (s.journal a b d e f g k).fb = s.fb := by
  have h1 : (((s.inc (classCount a)).ev (classSource a)).when (decide (a = 3)) State.store).fb = s.fb :=
    when_keeps (P := fun t => t.fb = s.fb) (fun _ h => h) (by simp only [State.ev_fb]; rfl)
  unfold State.journal
  dsimp only
  split
  · exact h1
  · exact when_keeps (P := fun t => t.fb = s.fb) (fun t h => by simp only [State.ev_fb]; exact h) h1

@[simp] theorem State.maxReg_fb (s : State) (e : Entry) (v sub i : Nat) : (s.maxReg e v sub i).fb = s.fb :=
  ite_keeps (P := fun t => t.fb = s.fb) rfl rfl

/-- The changes that leave it. -/
def Prim.keepsFb : Prim → Bool
  | .fb => false
  | .off => false
  | .iso => false
  | _ => true

theorem frame_fb {T : List Prim} (e : T.all Prim.keepsFb = true) (s : State) : Stable T (fun t => t.fb = s.fb) := by
  intro p hp
  have hk := List.all_eq_true.mp e p hp
  cases p <;> first | cases hk | skip
  all_goals first
    | exact fun t v r d h => (State.notifyVia_fb t v r d).trans h
    | exact fun t a b d e f g k h => (State.journal_fb t a b d e f g k).trans h
    | exact fun t a b d e f g h => (State.ev_fb t a b d e f g).trans h
    | (intro a; intros; rename_i h; exact h)

/-! ### sv -/

@[simp] theorem State.notifyVia_sv (s : State) (v : Assoc → List Nat) (r : Nat) (d : Bytes) : (s.notifyVia v r d).sv = s.sv :=
  each_keeps (P := fun t => t.sv = s.sv) (fun _ _ h => each_keeps (P := fun t => t.sv = s.sv) (fun _ _ h => h) h) rfl

@[simp] theorem State.notify_sv (s : State) (r : Nat) (d : Bytes) : (s.notify r d).sv = s.sv := s.notifyVia_sv _ r d

@[simp] theorem State.monAdd_sv (s : State) (f : FnId) (a b d e : Nat) : (s.monAdd f a b d e).sv = s.sv :=
  when_keeps (P := fun t => t.sv = s.sv) (fun t h => (State.notify_sv t _ _).trans h) rfl

@[simp] theorem State.traceAdd_sv (s : State) (a : Nat) (b : Option Nat) (d e : Nat) : (s.traceAdd a b d e).sv = s.sv :=
  ite_keeps (P := fun t => t.sv = s.sv) rfl rfl

@[simp] theorem State.ev_sv (s : State) (a : Nat) (b : Option Nat) (d e : Nat) (f g : Option Nat) : (s.ev a b d e f g).sv = s.sv :=
  when_keeps (P := fun t => t.sv = s.sv) (fun t h => (State.traceAdd_sv t _ _ _ _).trans h) (each_keeps (P := fun t => t.sv = s.sv) (fun _ t h => (State.monAdd_sv t _ _ _ _ _).trans h) rfl)

@[simp] theorem State.journal_sv (s : State) (a b d e f : Nat) (g : Bytes) (k : Nat) : (s.journal a b d e f g k).sv = s.sv := by
  have h1 : (((s.inc (classCount a)).ev (classSource a)).when (decide (a = 3)) State.store).sv = s.sv :=
    when_keeps (P := fun t => t.sv = s.sv) (fun _ h => h) (by simp only [State.ev_sv]; rfl)
  unfold State.journal
  dsimp only
  split
  · exact h1
  · exact when_keeps (P := fun t => t.sv = s.sv) (fun t h => by simp only [State.ev_sv]; exact h) h1

@[simp] theorem State.maxReg_sv (s : State) (e : Entry) (v sub i : Nat) : (s.maxReg e v sub i).sv = s.sv :=
  ite_keeps (P := fun t => t.sv = s.sv) rfl rfl

/-- The changes that leave it. -/
def Prim.keepsSv : Prim → Bool
  | .sv => false
  | .off => false
  | .iso => false
  | _ => true

theorem frame_sv {T : List Prim} (e : T.all Prim.keepsSv = true) (s : State) : Stable T (fun t => t.sv = s.sv) := by
  intro p hp
  have hk := List.all_eq_true.mp e p hp
  cases p <;> first | cases hk | skip
  all_goals first
    | exact fun t v r d h => (State.notifyVia_sv t v r d).trans h
    | exact fun t a b d e f g k h => (State.journal_sv t a b d e f g k).trans h
    | exact fun t a b d e f g h => (State.ev_sv t a b d e f g).trans h
    | (intro a; intros; rename_i h; exact h)

/-! ### tx -/

@[simp] theorem State.notifyVia_tx (s : State) (v : Assoc → List Nat) (r : Nat) (d : Bytes) : (s.notifyVia v r d).tx = s.tx :=
  each_keeps (P := fun t => t.tx = s.tx) (fun _ _ h => each_keeps (P := fun t => t.tx = s.tx) (fun _ _ h => h) h) rfl

@[simp] theorem State.notify_tx (s : State) (r : Nat) (d : Bytes) : (s.notify r d).tx = s.tx := s.notifyVia_tx _ r d

@[simp] theorem State.monAdd_tx (s : State) (f : FnId) (a b d e : Nat) : (s.monAdd f a b d e).tx = s.tx :=
  when_keeps (P := fun t => t.tx = s.tx) (fun t h => (State.notify_tx t _ _).trans h) rfl

@[simp] theorem State.traceAdd_tx (s : State) (a : Nat) (b : Option Nat) (d e : Nat) : (s.traceAdd a b d e).tx = s.tx :=
  ite_keeps (P := fun t => t.tx = s.tx) rfl rfl

@[simp] theorem State.ev_tx (s : State) (a : Nat) (b : Option Nat) (d e : Nat) (f g : Option Nat) : (s.ev a b d e f g).tx = s.tx :=
  when_keeps (P := fun t => t.tx = s.tx) (fun t h => (State.traceAdd_tx t _ _ _ _).trans h) (each_keeps (P := fun t => t.tx = s.tx) (fun _ t h => (State.monAdd_tx t _ _ _ _ _).trans h) rfl)

@[simp] theorem State.journal_tx (s : State) (a b d e f : Nat) (g : Bytes) (k : Nat) : (s.journal a b d e f g k).tx = s.tx := by
  have h1 : (((s.inc (classCount a)).ev (classSource a)).when (decide (a = 3)) State.store).tx = s.tx :=
    when_keeps (P := fun t => t.tx = s.tx) (fun _ h => h) (by simp only [State.ev_tx]; rfl)
  unfold State.journal
  dsimp only
  split
  · exact h1
  · exact when_keeps (P := fun t => t.tx = s.tx) (fun t h => by simp only [State.ev_tx]; exact h) h1

@[simp] theorem State.maxReg_tx (s : State) (e : Entry) (v sub i : Nat) : (s.maxReg e v sub i).tx = s.tx :=
  ite_keeps (P := fun t => t.tx = s.tx) rfl rfl

/-- The changes that leave it. -/
def Prim.keepsTx : Prim → Bool
  | .tx => false
  | .off => false
  | .iso => false
  | _ => true

theorem frame_tx {T : List Prim} (e : T.all Prim.keepsTx = true) (s : State) : Stable T (fun t => t.tx = s.tx) := by
  intro p hp
  have hk := List.all_eq_true.mp e p hp
  cases p <;> first | cases hk | skip
  all_goals first
    | exact fun t v r d h => (State.notifyVia_tx t v r d).trans h
    | exact fun t a b d e f g k h => (State.journal_tx t a b d e f g k).trans h
    | exact fun t a b d e f g h => (State.ev_tx t a b d e f g).trans h
    | (intro a; intros; rename_i h; exact h)

/-! ### se -/

@[simp] theorem State.notifyVia_se (s : State) (v : Assoc → List Nat) (r : Nat) (d : Bytes) : (s.notifyVia v r d).se = s.se :=
  each_keeps (P := fun t => t.se = s.se) (fun _ _ h => each_keeps (P := fun t => t.se = s.se) (fun _ _ h => h) h) rfl

@[simp] theorem State.notify_se (s : State) (r : Nat) (d : Bytes) : (s.notify r d).se = s.se := s.notifyVia_se _ r d

@[simp] theorem State.monAdd_se (s : State) (f : FnId) (a b d e : Nat) : (s.monAdd f a b d e).se = s.se :=
  when_keeps (P := fun t => t.se = s.se) (fun t h => (State.notify_se t _ _).trans h) rfl

@[simp] theorem State.traceAdd_se (s : State) (a : Nat) (b : Option Nat) (d e : Nat) : (s.traceAdd a b d e).se = s.se :=
  ite_keeps (P := fun t => t.se = s.se) rfl rfl

@[simp] theorem State.ev_se (s : State) (a : Nat) (b : Option Nat) (d e : Nat) (f g : Option Nat) : (s.ev a b d e f g).se = s.se :=
  when_keeps (P := fun t => t.se = s.se) (fun t h => (State.traceAdd_se t _ _ _ _).trans h) (each_keeps (P := fun t => t.se = s.se) (fun _ t h => (State.monAdd_se t _ _ _ _ _).trans h) rfl)

@[simp] theorem State.journal_se (s : State) (a b d e f : Nat) (g : Bytes) (k : Nat) : (s.journal a b d e f g k).se = s.se := by
  have h1 : (((s.inc (classCount a)).ev (classSource a)).when (decide (a = 3)) State.store).se = s.se :=
    when_keeps (P := fun t => t.se = s.se) (fun _ h => h) (by simp only [State.ev_se]; rfl)
  unfold State.journal
  dsimp only
  split
  · exact h1
  · exact when_keeps (P := fun t => t.se = s.se) (fun t h => by simp only [State.ev_se]; exact h) h1

@[simp] theorem State.maxReg_se (s : State) (e : Entry) (v sub i : Nat) : (s.maxReg e v sub i).se = s.se :=
  ite_keeps (P := fun t => t.se = s.se) rfl rfl

/-- The changes that leave it. -/
def Prim.keepsSe : Prim → Bool
  | .se => false
  | .off => false
  | .iso => false
  | _ => true

theorem frame_se {T : List Prim} (e : T.all Prim.keepsSe = true) (s : State) : Stable T (fun t => t.se = s.se) := by
  intro p hp
  have hk := List.all_eq_true.mp e p hp
  cases p <;> first | cases hk | skip
  all_goals first
    | exact fun t v r d h => (State.notifyVia_se t v r d).trans h
    | exact fun t a b d e f g k h => (State.journal_se t a b d e f g k).trans h
    | exact fun t a b d e f g h => (State.ev_se t a b d e f g).trans h
    | (intro a; intros; rename_i h; exact h)

/-! ### sl -/

@[simp] theorem State.notifyVia_sl (s : State) (v : Assoc → List Nat) (r : Nat) (d : Bytes) : (s.notifyVia v r d).sl = s.sl :=
  each_keeps (P := fun t => t.sl = s.sl) (fun _ _ h => each_keeps (P := fun t => t.sl = s.sl) (fun _ _ h => h) h) rfl

@[simp] theorem State.notify_sl (s : State) (r : Nat) (d : Bytes) : (s.notify r d).sl = s.sl := s.notifyVia_sl _ r d

@[simp] theorem State.monAdd_sl (s : State) (f : FnId) (a b d e : Nat) : (s.monAdd f a b d e).sl = s.sl :=
  when_keeps (P := fun t => t.sl = s.sl) (fun t h => (State.notify_sl t _ _).trans h) rfl

@[simp] theorem State.traceAdd_sl (s : State) (a : Nat) (b : Option Nat) (d e : Nat) : (s.traceAdd a b d e).sl = s.sl :=
  ite_keeps (P := fun t => t.sl = s.sl) rfl rfl

@[simp] theorem State.ev_sl (s : State) (a : Nat) (b : Option Nat) (d e : Nat) (f g : Option Nat) : (s.ev a b d e f g).sl = s.sl :=
  when_keeps (P := fun t => t.sl = s.sl) (fun t h => (State.traceAdd_sl t _ _ _ _).trans h) (each_keeps (P := fun t => t.sl = s.sl) (fun _ t h => (State.monAdd_sl t _ _ _ _ _).trans h) rfl)

@[simp] theorem State.journal_sl (s : State) (a b d e f : Nat) (g : Bytes) (k : Nat) : (s.journal a b d e f g k).sl = s.sl := by
  have h1 : (((s.inc (classCount a)).ev (classSource a)).when (decide (a = 3)) State.store).sl = s.sl :=
    when_keeps (P := fun t => t.sl = s.sl) (fun _ h => h) (by simp only [State.ev_sl]; rfl)
  unfold State.journal
  dsimp only
  split
  · exact h1
  · exact when_keeps (P := fun t => t.sl = s.sl) (fun t h => by simp only [State.ev_sl]; exact h) h1

@[simp] theorem State.maxReg_sl (s : State) (e : Entry) (v sub i : Nat) : (s.maxReg e v sub i).sl = s.sl :=
  ite_keeps (P := fun t => t.sl = s.sl) rfl rfl

/-- The changes that leave it. -/
def Prim.keepsSl : Prim → Bool
  | .sl => false
  | .slAny => false
  | .off => false
  | .win => false
  | .iso => false
  | _ => true

theorem frame_sl {T : List Prim} (e : T.all Prim.keepsSl = true) (s : State) : Stable T (fun t => t.sl = s.sl) := by
  intro p hp
  have hk := List.all_eq_true.mp e p hp
  cases p <;> first | cases hk | skip
  all_goals first
    | exact fun t v r d h => (State.notifyVia_sl t v r d).trans h
    | exact fun t a b d e f g k h => (State.journal_sl t a b d e f g k).trans h
    | exact fun t a b d e f g h => (State.ev_sl t a b d e f g).trans h
    | (intro a; intros; rename_i h; exact h)

/-! ### et -/

@[simp] theorem State.notifyVia_et (s : State) (v : Assoc → List Nat) (r : Nat) (d : Bytes) : (s.notifyVia v r d).et = s.et :=
  each_keeps (P := fun t => t.et = s.et) (fun _ _ h => each_keeps (P := fun t => t.et = s.et) (fun _ _ h => h) h) rfl

@[simp] theorem State.notify_et (s : State) (r : Nat) (d : Bytes) : (s.notify r d).et = s.et := s.notifyVia_et _ r d

@[simp] theorem State.monAdd_et (s : State) (f : FnId) (a b d e : Nat) : (s.monAdd f a b d e).et = s.et :=
  when_keeps (P := fun t => t.et = s.et) (fun t h => (State.notify_et t _ _).trans h) rfl

@[simp] theorem State.traceAdd_et (s : State) (a : Nat) (b : Option Nat) (d e : Nat) : (s.traceAdd a b d e).et = s.et :=
  ite_keeps (P := fun t => t.et = s.et) rfl rfl

@[simp] theorem State.ev_et (s : State) (a : Nat) (b : Option Nat) (d e : Nat) (f g : Option Nat) : (s.ev a b d e f g).et = s.et :=
  when_keeps (P := fun t => t.et = s.et) (fun t h => (State.traceAdd_et t _ _ _ _).trans h) (each_keeps (P := fun t => t.et = s.et) (fun _ t h => (State.monAdd_et t _ _ _ _ _).trans h) rfl)

@[simp] theorem State.journal_et (s : State) (a b d e f : Nat) (g : Bytes) (k : Nat) : (s.journal a b d e f g k).et = s.et := by
  have h1 : (((s.inc (classCount a)).ev (classSource a)).when (decide (a = 3)) State.store).et = s.et :=
    when_keeps (P := fun t => t.et = s.et) (fun _ h => h) (by simp only [State.ev_et]; rfl)
  unfold State.journal
  dsimp only
  split
  · exact h1
  · exact when_keeps (P := fun t => t.et = s.et) (fun t h => by simp only [State.ev_et]; exact h) h1

@[simp] theorem State.maxReg_et (s : State) (e : Entry) (v sub i : Nat) : (s.maxReg e v sub i).et = s.et :=
  ite_keeps (P := fun t => t.et = s.et) rfl rfl

/-- The changes that leave it. -/
def Prim.keepsEt : Prim → Bool
  | .et => false
  | .off => false
  | .iso => false
  | _ => true

theorem frame_et {T : List Prim} (e : T.all Prim.keepsEt = true) (s : State) : Stable T (fun t => t.et = s.et) := by
  intro p hp
  have hk := List.all_eq_true.mp e p hp
  cases p <;> first | cases hk | skip
  all_goals first
    | exact fun t v r d h => (State.notifyVia_et t v r d).trans h
    | exact fun t a b d e f g k h => (State.journal_et t a b d e f g k).trans h
    | exact fun t a b d e f g h => (State.ev_et t a b d e f g).trans h
    | (intro a; intros; rename_i h; exact h)

/-! ### dx -/

@[simp] theorem State.notifyVia_dx (s : State) (v : Assoc → List Nat) (r : Nat) (d : Bytes) : (s.notifyVia v r d).dx = s.dx :=
  each_keeps (P := fun t => t.dx = s.dx) (fun _ _ h => each_keeps (P := fun t => t.dx = s.dx) (fun _ _ h => h) h) rfl

@[simp] theorem State.notify_dx (s : State) (r : Nat) (d : Bytes) : (s.notify r d).dx = s.dx := s.notifyVia_dx _ r d

@[simp] theorem State.monAdd_dx (s : State) (f : FnId) (a b d e : Nat) : (s.monAdd f a b d e).dx = s.dx :=
  when_keeps (P := fun t => t.dx = s.dx) (fun t h => (State.notify_dx t _ _).trans h) rfl

@[simp] theorem State.traceAdd_dx (s : State) (a : Nat) (b : Option Nat) (d e : Nat) : (s.traceAdd a b d e).dx = s.dx :=
  ite_keeps (P := fun t => t.dx = s.dx) rfl rfl

@[simp] theorem State.ev_dx (s : State) (a : Nat) (b : Option Nat) (d e : Nat) (f g : Option Nat) : (s.ev a b d e f g).dx = s.dx :=
  when_keeps (P := fun t => t.dx = s.dx) (fun t h => (State.traceAdd_dx t _ _ _ _).trans h) (each_keeps (P := fun t => t.dx = s.dx) (fun _ t h => (State.monAdd_dx t _ _ _ _ _).trans h) rfl)

@[simp] theorem State.journal_dx (s : State) (a b d e f : Nat) (g : Bytes) (k : Nat) : (s.journal a b d e f g k).dx = s.dx := by
  have h1 : (((s.inc (classCount a)).ev (classSource a)).when (decide (a = 3)) State.store).dx = s.dx :=
    when_keeps (P := fun t => t.dx = s.dx) (fun _ h => h) (by simp only [State.ev_dx]; rfl)
  unfold State.journal
  dsimp only
  split
  · exact h1
  · exact when_keeps (P := fun t => t.dx = s.dx) (fun t h => by simp only [State.ev_dx]; exact h) h1

@[simp] theorem State.maxReg_dx (s : State) (e : Entry) (v sub i : Nat) : (s.maxReg e v sub i).dx = s.dx :=
  ite_keeps (P := fun t => t.dx = s.dx) rfl rfl

/-- The changes that leave it. -/
def Prim.keepsDx : Prim → Bool
  | .dx => false
  | .off => false
  | .iso => false
  | _ => true

theorem frame_dx {T : List Prim} (e : T.all Prim.keepsDx = true) (s : State) : Stable T (fun t => t.dx = s.dx) := by
  intro p hp
  have hk := List.all_eq_true.mp e p hp
  cases p <;> first | cases hk | skip
  all_goals first
    | exact fun t v r d h => (State.notifyVia_dx t v r d).trans h
    | exact fun t a b d e f g k h => (State.journal_dx t a b d e f g k).trans h
    | exact fun t a b d e f g h => (State.ev_dx t a b d e f g).trans h
    | (intro a; intros; rename_i h; exact h)

/-! ### ck -/

@[simp] theorem State.notifyVia_ck (s : State) (v : Assoc → List Nat) (r : Nat) (d : Bytes) : (s.notifyVia v r d).ck = s.ck :=
  each_keeps (P := fun t => t.ck = s.ck) (fun _ _ h => each_keeps (P := fun t => t.ck = s.ck) (fun _ _ h => h) h) rfl

@[simp] theorem State.notify_ck (s : State) (r : Nat) (d : Bytes) : (s.notify r d).ck = s.ck := s.notifyVia_ck _ r d

@[simp] theorem State.monAdd_ck (s : State) (f : FnId) (a b d e : Nat) : (s.monAdd f a b d e).ck = s.ck :=
  when_keeps (P := fun t => t.ck = s.ck) (fun t h => (State.notify_ck t _ _).trans h) rfl

@[simp] theorem State.traceAdd_ck (s : State) (a : Nat) (b : Option Nat) (d e : Nat) : (s.traceAdd a b d e).ck = s.ck :=
  ite_keeps (P := fun t => t.ck = s.ck) rfl rfl

@[simp] theorem State.ev_ck (s : State) (a : Nat) (b : Option Nat) (d e : Nat) (f g : Option Nat) : (s.ev a b d e f g).ck = s.ck :=
  when_keeps (P := fun t => t.ck = s.ck) (fun t h => (State.traceAdd_ck t _ _ _ _).trans h) (each_keeps (P := fun t => t.ck = s.ck) (fun _ t h => (State.monAdd_ck t _ _ _ _ _).trans h) rfl)

@[simp] theorem State.journal_ck (s : State) (a b d e f : Nat) (g : Bytes) (k : Nat) : (s.journal a b d e f g k).ck = s.ck := by
  have h1 : (((s.inc (classCount a)).ev (classSource a)).when (decide (a = 3)) State.store).ck = s.ck :=
    when_keeps (P := fun t => t.ck = s.ck) (fun _ h => h) (by simp only [State.ev_ck]; rfl)
  unfold State.journal
  dsimp only
  split
  · exact h1
  · exact when_keeps (P := fun t => t.ck = s.ck) (fun t h => by simp only [State.ev_ck]; exact h) h1

@[simp] theorem State.maxReg_ck (s : State) (e : Entry) (v sub i : Nat) : (s.maxReg e v sub i).ck = s.ck :=
  ite_keeps (P := fun t => t.ck = s.ck) rfl rfl

/-- The changes that leave it. -/
def Prim.keepsCk : Prim → Bool
  | .ck => false
  | .off => false
  | .iso => false
  | _ => true

theorem frame_ck {T : List Prim} (e : T.all Prim.keepsCk = true) (s : State) : Stable T (fun t => t.ck = s.ck) := by
  intro p hp
  have hk := List.all_eq_true.mp e p hp
  cases p <;> first | cases hk | skip
  all_goals first
    | exact fun t v r d h => (State.notifyVia_ck t v r d).trans h
    | exact fun t a b d e f g k h => (State.journal_ck t a b d e f g k).trans h
    | exact fun t a b d e f g h => (State.ev_ck t a b d e f g).trans h
    | (intro a; intros; rename_i h; exact h)

/-! ### fa -/

@[simp] theorem State.notifyVia_fa (s : State) (v : Assoc → List Nat) (r : Nat) (d : Bytes) : (s.notifyVia v r d).fa = s.fa :=
  each_keeps (P := fun t => t.fa = s.fa) (fun _ _ h => each_keeps (P := fun t => t.fa = s.fa) (fun _ _ h => h) h) rfl

@[simp] theorem State.notify_fa (s : State) (r : Nat) (d : Bytes) : (s.notify r d).fa = s.fa := s.notifyVia_fa _ r d

@[simp] theorem State.monAdd_fa (s : State) (f : FnId) (a b d e : Nat) : (s.monAdd f a b d e).fa = s.fa :=
  when_keeps (P := fun t => t.fa = s.fa) (fun t h => (State.notify_fa t _ _).trans h) rfl

@[simp] theorem State.traceAdd_fa (s : State) (a : Nat) (b : Option Nat) (d e : Nat) : (s.traceAdd a b d e).fa = s.fa :=
  ite_keeps (P := fun t => t.fa = s.fa) rfl rfl

@[simp] theorem State.ev_fa (s : State) (a : Nat) (b : Option Nat) (d e : Nat) (f g : Option Nat) : (s.ev a b d e f g).fa = s.fa :=
  when_keeps (P := fun t => t.fa = s.fa) (fun t h => (State.traceAdd_fa t _ _ _ _).trans h) (each_keeps (P := fun t => t.fa = s.fa) (fun _ t h => (State.monAdd_fa t _ _ _ _ _).trans h) rfl)

@[simp] theorem State.maxReg_fa (s : State) (e : Entry) (v sub i : Nat) : (s.maxReg e v sub i).fa = s.fa :=
  ite_keeps (P := fun t => t.fa = s.fa) rfl rfl

/-- The changes that leave it. -/
def Prim.keepsFa : Prim → Bool
  | .fa => false
  | .journal => false
  | .off => false
  | .iso => false
  | _ => true

theorem frame_fa {T : List Prim} (e : T.all Prim.keepsFa = true) (s : State) : Stable T (fun t => t.fa = s.fa) := by
  intro p hp
  have hk := List.all_eq_true.mp e p hp
  cases p <;> first | cases hk | skip
  all_goals first
    | exact fun t v r d h => (State.notifyVia_fa t v r d).trans h
    | exact fun t a b d e f g h => (State.ev_fa t a b d e f g).trans h
    | (intro a; intros; rename_i h; exact h)

/-! ### mn -/

@[simp] theorem State.notifyVia_mn (s : State) (v : Assoc → List Nat) (r : Nat) (d : Bytes) : (s.notifyVia v r d).mn = s.mn :=
  each_keeps (P := fun t => t.mn = s.mn) (fun _ _ h => each_keeps (P := fun t => t.mn = s.mn) (fun _ _ h => h) h) rfl

@[simp] theorem State.notify_mn (s : State) (r : Nat) (d : Bytes) : (s.notify r d).mn = s.mn := s.notifyVia_mn _ r d

@[simp] theorem State.maxReg_mn (s : State) (e : Entry) (v sub i : Nat) : (s.maxReg e v sub i).mn = s.mn :=
  ite_keeps (P := fun t => t.mn = s.mn) rfl rfl

/-- The changes that leave it. -/
def Prim.keepsMn : Prim → Bool
  | .mn => false
  | .mnAny => false
  | .journal => false
  | .ev => false
  | .off => false
  | .iso => false
  | _ => true

theorem frame_mn {T : List Prim} (e : T.all Prim.keepsMn = true) (s : State) : Stable T (fun t => t.mn = s.mn) := by
  intro p hp
  have hk := List.all_eq_true.mp e p hp
  cases p <;> first | cases hk | skip
  all_goals first
    | exact fun t v r d h => (State.notifyVia_mn t v r d).trans h
    | (intro a; intros; rename_i h; exact h)

/-! ### now -/

@[simp] theorem State.notifyVia_now (s : State) (v : Assoc → List Nat) (r : Nat) (d : Bytes) : (s.notifyVia v r d).now = s.now :=
  each_keeps (P := fun t => t.now = s.now) (fun _ _ h => each_keeps (P := fun t => t.now = s.now) (fun _ _ h => h) h) rfl

@[simp] theorem State.notify_now (s : State) (r : Nat) (d : Bytes) : (s.notify r d).now = s.now := s.notifyVia_now _ r d

@[simp] theorem State.monAdd_now (s : State) (f : FnId) (a b d e : Nat) : (s.monAdd f a b d e).now = s.now :=
  when_keeps (P := fun t => t.now = s.now) (fun t h => (State.notify_now t _ _).trans h) rfl

@[simp] theorem State.traceAdd_now (s : State) (a : Nat) (b : Option Nat) (d e : Nat) : (s.traceAdd a b d e).now = s.now :=
  ite_keeps (P := fun t => t.now = s.now) rfl rfl

@[simp] theorem State.ev_now (s : State) (a : Nat) (b : Option Nat) (d e : Nat) (f g : Option Nat) : (s.ev a b d e f g).now = s.now :=
  when_keeps (P := fun t => t.now = s.now) (fun t h => (State.traceAdd_now t _ _ _ _).trans h) (each_keeps (P := fun t => t.now = s.now) (fun _ t h => (State.monAdd_now t _ _ _ _ _).trans h) rfl)

@[simp] theorem State.journal_now (s : State) (a b d e f : Nat) (g : Bytes) (k : Nat) : (s.journal a b d e f g k).now = s.now := by
  have h1 : (((s.inc (classCount a)).ev (classSource a)).when (decide (a = 3)) State.store).now = s.now :=
    when_keeps (P := fun t => t.now = s.now) (fun _ h => h) (by simp only [State.ev_now]; rfl)
  unfold State.journal
  dsimp only
  split
  · exact h1
  · exact when_keeps (P := fun t => t.now = s.now) (fun t h => by simp only [State.ev_now]; exact h) h1

@[simp] theorem State.maxReg_now (s : State) (e : Entry) (v sub i : Nat) : (s.maxReg e v sub i).now = s.now :=
  ite_keeps (P := fun t => t.now = s.now) rfl rfl

/-- The changes that leave it. -/
def Prim.keepsNow : Prim → Bool
  | _ => true

theorem frame_now {T : List Prim} (e : T.all Prim.keepsNow = true) (s : State) : Stable T (fun t => t.now = s.now) := by
  intro p hp
  have hk := List.all_eq_true.mp e p hp
  cases p <;> first | cases hk | skip
  all_goals first
    | exact fun t v r d h => (State.notifyVia_now t v r d).trans h
    | exact fun t a b d e f g k h => (State.journal_now t a b d e f g k).trans h
    | exact fun t a b d e f g h => (State.ev_now t a b d e f g).trans h
    | (intro a; intros; rename_i h; exact h)

/-! ### pkCore -/

@[simp] theorem State.notifyVia_pkCore (s : State) (v : Assoc → List Nat) (r : Nat) (d : Bytes) : (s.notifyVia v r d).pkCore = s.pkCore :=
  each_keeps (P := fun t => t.pkCore = s.pkCore) (fun _ _ h => each_keeps (P := fun t => t.pkCore = s.pkCore) (fun _ _ h => h) h) rfl

@[simp] theorem State.notify_pkCore (s : State) (r : Nat) (d : Bytes) : (s.notify r d).pkCore = s.pkCore := s.notifyVia_pkCore _ r d

@[simp] theorem State.monAdd_pkCore (s : State) (f : FnId) (a b d e : Nat) : (s.monAdd f a b d e).pkCore = s.pkCore :=
  when_keeps (P := fun t => t.pkCore = s.pkCore) (fun t h => (State.notify_pkCore t _ _).trans h) rfl

@[simp] theorem State.traceAdd_pkCore (s : State) (a : Nat) (b : Option Nat) (d e : Nat) : (s.traceAdd a b d e).pkCore = s.pkCore :=
  ite_keeps (P := fun t => t.pkCore = s.pkCore) rfl rfl

@[simp] theorem State.ev_pkCore (s : State) (a : Nat) (b : Option Nat) (d e : Nat) (f g : Option Nat) : (s.ev a b d e f g).pkCore = s.pkCore :=
  when_keeps (P := fun t => t.pkCore = s.pkCore) (fun t h => (State.traceAdd_pkCore t _ _ _ _).trans h) (each_keeps (P := fun t => t.pkCore = s.pkCore) (fun _ t h => (State.monAdd_pkCore t _ _ _ _ _).trans h) rfl)

@[simp] theorem State.journal_pkCore (s : State) (a b d e f : Nat) (g : Bytes) (k : Nat) : (s.journal a b d e f g k).pkCore = s.pkCore := by
  have h1 : (((s.inc (classCount a)).ev (classSource a)).when (decide (a = 3)) State.store).pkCore = s.pkCore :=
    when_keeps (P := fun t => t.pkCore = s.pkCore) (fun _ h => h) (by simp only [State.ev_pkCore]; rfl)
  unfold State.journal
  dsimp only
  split
  · exact h1
  · exact when_keeps (P := fun t => t.pkCore = s.pkCore) (fun t h => by simp only [State.ev_pkCore]; exact h) h1

/-- The changes that leave it. -/
def Prim.keepsPkCore : Prim → Bool
  | .pk => false
  | .pkAny => false
  | .off => false
  | _ => true

theorem frame_pkCore {T : List Prim} (e : T.all Prim.keepsPkCore = true) (s : State) : Stable T (fun t => t.pkCore = s.pkCore) := by
  intro p hp
  have hk := List.all_eq_true.mp e p hp
  cases p <;> first | cases hk | skip
  all_goals first
    | exact fun t v r d h => (State.notifyVia_pkCore t v r d).trans h
    | exact fun t a b d e f g k h => (State.journal_pkCore t a b d e f g k).trans h
    | exact fun t a b d e f g h => (State.ev_pkCore t a b d e f g).trans h
    | (intro a; intros; rename_i h; exact h)

/-! ### wrCore -/

@[simp] theorem State.notifyVia_wrCore (s : State) (v : Assoc → List Nat) (r : Nat) (d : Bytes) : (s.notifyVia v r d).wrCore = s.wrCore :=
  each_keeps (P := fun t => t.wrCore = s.wrCore) (fun _ _ h => each_keeps (P := fun t => t.wrCore = s.wrCore) (fun _ _ h => h) h) rfl

@[simp] theorem State.notify_wrCore (s : State) (r : Nat) (d : Bytes) : (s.notify r d).wrCore = s.wrCore := s.notifyVia_wrCore _ r d

@[simp] theorem State.monAdd_wrCore (s : State) (f : FnId) (a b d e : Nat) : (s.monAdd f a b d e).wrCore = s.wrCore :=
  when_keeps (P := fun t => t.wrCore = s.wrCore) (fun t h => (State.notify_wrCore t _ _).trans h) rfl

@[simp] theorem State.traceAdd_wrCore (s : State) (a : Nat) (b : Option Nat) (d e : Nat) : (s.traceAdd a b d e).wrCore = s.wrCore :=
  ite_keeps (P := fun t => t.wrCore = s.wrCore) rfl rfl

@[simp] theorem State.ev_wrCore (s : State) (a : Nat) (b : Option Nat) (d e : Nat) (f g : Option Nat) : (s.ev a b d e f g).wrCore = s.wrCore :=
  when_keeps (P := fun t => t.wrCore = s.wrCore) (fun t h => (State.traceAdd_wrCore t _ _ _ _).trans h) (each_keeps (P := fun t => t.wrCore = s.wrCore) (fun _ t h => (State.monAdd_wrCore t _ _ _ _ _).trans h) rfl)

@[simp] theorem State.journal_wrCore (s : State) (a b d e f : Nat) (g : Bytes) (k : Nat) : (s.journal a b d e f g k).wrCore = s.wrCore := by
  have h1 : (((s.inc (classCount a)).ev (classSource a)).when (decide (a = 3)) State.store).wrCore = s.wrCore :=
    when_keeps (P := fun t => t.wrCore = s.wrCore) (fun _ h => h) (by simp only [State.ev_wrCore]; rfl)
  unfold State.journal
  dsimp only
  split
  · exact h1
  · exact when_keeps (P := fun t => t.wrCore = s.wrCore) (fun t h => by simp only [State.ev_wrCore]; exact h) h1

/-- The changes that leave it. -/
def Prim.keepsWrCore : Prim → Bool
  | .wr => false
  | .off => false
  | .iso => false
  | _ => true

theorem frame_wrCore {T : List Prim} (e : T.all Prim.keepsWrCore = true) (s : State) : Stable T (fun t => t.wrCore = s.wrCore) := by
  intro p hp
  have hk := List.all_eq_true.mp e p hp
  cases p <;> first | cases hk | skip
  all_goals first
    | exact fun t v r d h => (State.notifyVia_wrCore t v r d).trans h
    | exact fun t a b d e f g k h => (State.journal_wrCore t a b d e f g k).trans h
    | exact fun t a b d e f g h => (State.ev_wrCore t a b d e f g).trans h
    | (intro a; intros; rename_i h; exact h)

/-! ### pwRest -/

@[simp] theorem State.notifyVia_pwRest (s : State) (v : Assoc → List Nat) (r : Nat) (d : Bytes) : (s.notifyVia v r d).pwRest = s.pwRest :=
  each_keeps (P := fun t => t.pwRest = s.pwRest) (fun _ _ h => each_keeps (P := fun t => t.pwRest = s.pwRest) (fun _ _ h => h) h) rfl

@[simp] theorem State.notify_pwRest (s : State) (r : Nat) (d : Bytes) : (s.notify r d).pwRest = s.pwRest := s.notifyVia_pwRest _ r d

@[simp] theorem State.monAdd_pwRest (s : State) (f : FnId) (a b d e : Nat) : (s.monAdd f a b d e).pwRest = s.pwRest :=
  when_keeps (P := fun t => t.pwRest = s.pwRest) (fun t h => (State.notify_pwRest t _ _).trans h) rfl

@[simp] theorem State.traceAdd_pwRest (s : State) (a : Nat) (b : Option Nat) (d e : Nat) : (s.traceAdd a b d e).pwRest = s.pwRest :=
  ite_keeps (P := fun t => t.pwRest = s.pwRest) rfl rfl

@[simp] theorem State.ev_pwRest (s : State) (a : Nat) (b : Option Nat) (d e : Nat) (f g : Option Nat) : (s.ev a b d e f g).pwRest = s.pwRest :=
  when_keeps (P := fun t => t.pwRest = s.pwRest) (fun t h => (State.traceAdd_pwRest t _ _ _ _).trans h) (each_keeps (P := fun t => t.pwRest = s.pwRest) (fun _ t h => (State.monAdd_pwRest t _ _ _ _ _).trans h) rfl)

@[simp] theorem State.journal_pwRest (s : State) (a b d e f : Nat) (g : Bytes) (k : Nat) : (s.journal a b d e f g k).pwRest = s.pwRest := by
  have h1 : (((s.inc (classCount a)).ev (classSource a)).when (decide (a = 3)) State.store).pwRest = s.pwRest :=
    when_keeps (P := fun t => t.pwRest = s.pwRest) (fun _ h => h) (by simp only [State.ev_pwRest]; rfl)
  unfold State.journal
  dsimp only
  split
  · exact h1
  · exact when_keeps (P := fun t => t.pwRest = s.pwRest) (fun t h => by simp only [State.ev_pwRest]; exact h) h1

/-- The changes that leave it. -/
def Prim.keepsPwRest : Prim → Bool
  | .pwAny => false
  | .off => false
  | .iso => false
  | _ => true

theorem frame_pwRest {T : List Prim} (e : T.all Prim.keepsPwRest = true) (s : State) : Stable T (fun t => t.pwRest = s.pwRest) := by
  intro p hp
  have hk := List.all_eq_true.mp e p hp
  cases p <;> first | cases hk | skip
  all_goals first
    | exact fun t x q h => q.trans h
    | exact fun t v r d h => (State.notifyVia_pwRest t v r d).trans h
    | exact fun t a b d e f g k h => (State.journal_pwRest t a b d e f g k).trans h
    | exact fun t a b d e f g h => (State.ev_pwRest t a b d e f g).trans h
    | (intro a; intros; rename_i h; exact h)

/-! ### pkRest -/

@[simp] theorem State.notifyVia_pkRest (s : State) (v : Assoc → List Nat) (r : Nat) (d : Bytes) : (s.notifyVia v r d).pkRest = s.pkRest :=
  each_keeps (P := fun t => t.pkRest = s.pkRest) (fun _ _ h => each_keeps (P := fun t => t.pkRest = s.pkRest) (fun _ _ h => h) h) rfl

@[simp] theorem State.notify_pkRest (s : State) (r : Nat) (d : Bytes) : (s.notify r d).pkRest = s.pkRest := s.notifyVia_pkRest _ r d

@[simp] theorem State.monAdd_pkRest (s : State) (f : FnId) (a b d e : Nat) : (s.monAdd f a b d e).pkRest = s.pkRest :=
  when_keeps (P := fun t => t.pkRest = s.pkRest) (fun t h => (State.notify_pkRest t _ _).trans h) rfl

@[simp] theorem State.traceAdd_pkRest (s : State) (a : Nat) (b : Option Nat) (d e : Nat) : (s.traceAdd a b d e).pkRest = s.pkRest :=
  ite_keeps (P := fun t => t.pkRest = s.pkRest) rfl rfl

@[simp] theorem State.ev_pkRest (s : State) (a : Nat) (b : Option Nat) (d e : Nat) (f g : Option Nat) : (s.ev a b d e f g).pkRest = s.pkRest :=
  when_keeps (P := fun t => t.pkRest = s.pkRest) (fun t h => (State.traceAdd_pkRest t _ _ _ _).trans h) (each_keeps (P := fun t => t.pkRest = s.pkRest) (fun _ t h => (State.monAdd_pkRest t _ _ _ _ _).trans h) rfl)

@[simp] theorem State.journal_pkRest (s : State) (a b d e f : Nat) (g : Bytes) (k : Nat) : (s.journal a b d e f g k).pkRest = s.pkRest := by
  have h1 : (((s.inc (classCount a)).ev (classSource a)).when (decide (a = 3)) State.store).pkRest = s.pkRest :=
    when_keeps (P := fun t => t.pkRest = s.pkRest) (fun _ h => h) (by simp only [State.ev_pkRest]; rfl)
  unfold State.journal
  dsimp only
  split
  · exact h1
  · exact when_keeps (P := fun t => t.pkRest = s.pkRest) (fun t h => by simp only [State.ev_pkRest]; exact h) h1

/-- The changes that leave it. -/
def Prim.keepsPkRest : Prim → Bool
  | .pkAny => false
  | .off => false
  | _ => true

theorem frame_pkRest {T : List Prim} (e : T.all Prim.keepsPkRest = true) (s : State) : Stable T (fun t => t.pkRest = s.pkRest) := by
  intro p hp
  have hk := List.all_eq_true.mp e p hp
  cases p <;> first | cases hk | skip
  all_goals first
    | exact fun t x q h => q.trans h
    | exact fun t v r d h => (State.notifyVia_pkRest t v r d).trans h
    | exact fun t a b d e f g k h => (State.journal_pkRest t a b d e f g k).trans h
    | exact fun t a b d e f g h => (State.ev_pkRest t a b d e f g).trans h
    | (intro a; intros; rename_i h; exact h)

/-! ### nvRest -/

@[simp] theorem State.notifyVia_nvRest (s : State) (v : Assoc → List Nat) (r : Nat) (d : Bytes) : (s.notifyVia v r d).nvRest = s.nvRest :=
  each_keeps (P := fun t => t.nvRest = s.nvRest) (fun _ _ h => each_keeps (P := fun t => t.nvRest = s.nvRest) (fun _ _ h => h) h) rfl

@[simp] theorem State.notify_nvRest (s : State) (r : Nat) (d : Bytes) : (s.notify r d).nvRest = s.nvRest := s.notifyVia_nvRest _ r d

@[simp] theorem State.monAdd_nvRest (s : State) (f : FnId) (a b d e : Nat) : (s.monAdd f a b d e).nvRest = s.nvRest :=
  when_keeps (P := fun t => t.nvRest = s.nvRest) (fun t h => (State.notify_nvRest t _ _).trans h) rfl

@[simp] theorem State.traceAdd_nvRest (s : State) (a : Nat) (b : Option Nat) (d e : Nat) : (s.traceAdd a b d e).nvRest = s.nvRest :=
  ite_keeps (P := fun t => t.nvRest = s.nvRest) rfl rfl

@[simp] theorem State.ev_nvRest (s : State) (a : Nat) (b : Option Nat) (d e : Nat) (f g : Option Nat) : (s.ev a b d e f g).nvRest = s.nvRest :=
  when_keeps (P := fun t => t.nvRest = s.nvRest) (fun t h => (State.traceAdd_nvRest t _ _ _ _).trans h) (each_keeps (P := fun t => t.nvRest = s.nvRest) (fun _ t h => (State.monAdd_nvRest t _ _ _ _ _).trans h) rfl)

@[simp] theorem State.journal_nvRest (s : State) (a b d e f : Nat) (g : Bytes) (k : Nat) : (s.journal a b d e f g k).nvRest = s.nvRest := by
  have h1 : (((s.inc (classCount a)).ev (classSource a)).when (decide (a = 3)) State.store).nvRest = s.nvRest :=
    when_keeps (P := fun t => t.nvRest = s.nvRest) (fun _ h => h) (by simp only [State.ev_nvRest]; rfl)
  unfold State.journal
  dsimp only
  split
  · exact h1
  · exact when_keeps (P := fun t => t.nvRest = s.nvRest) (fun t h => by simp only [State.ev_nvRest]; exact h) h1

/-- The changes that leave it. -/
def Prim.keepsNvRest : Prim → Bool
  | .nvAny => false
  | _ => true

theorem frame_nvRest {T : List Prim} (e : T.all Prim.keepsNvRest = true) (s : State) : Stable T (fun t => t.nvRest = s.nvRest) := by
  intro p hp
  have hk := List.all_eq_true.mp e p hp
  cases p <;> first | cases hk | skip
  all_goals first
    | exact fun t x q h => q.trans h
    | exact fun t v r d h => (State.notifyVia_nvRest t v r d).trans h
    | exact fun t a b d e f g k h => (State.journal_nvRest t a b d e f g k).trans h
    | exact fun t a b d e f g h => (State.ev_nvRest t a b d e f g).trans h
    | (intro a; intros; rename_i h; exact h)

/-! ### scRest -/

@[simp] theorem State.notifyVia_scRest (s : State) (v : Assoc → List Nat) (r : Nat) (d : Bytes) : (s.notifyVia v r d).scRest = s.scRest :=
  each_keeps (P := fun t => t.scRest = s.scRest) (fun _ _ h => each_keeps (P := fun t => t.scRest = s.scRest) (fun _ _ h => h) h) rfl

@[simp] theorem State.notify_scRest (s : State) (r : Nat) (d : Bytes) : (s.notify r d).scRest = s.scRest := s.notifyVia_scRest _ r d

@[simp] theorem State.monAdd_scRest (s : State) (f : FnId) (a b d e : Nat) : (s.monAdd f a b d e).scRest = s.scRest :=
  when_keeps (P := fun t => t.scRest = s.scRest) (fun t h => (State.notify_scRest t _ _).trans h) rfl

@[simp] theorem State.traceAdd_scRest (s : State) (a : Nat) (b : Option Nat) (d e : Nat) : (s.traceAdd a b d e).scRest = s.scRest :=
  ite_keeps (P := fun t => t.scRest = s.scRest) rfl rfl

@[simp] theorem State.ev_scRest (s : State) (a : Nat) (b : Option Nat) (d e : Nat) (f g : Option Nat) : (s.ev a b d e f g).scRest = s.scRest :=
  when_keeps (P := fun t => t.scRest = s.scRest) (fun t h => (State.traceAdd_scRest t _ _ _ _).trans h) (each_keeps (P := fun t => t.scRest = s.scRest) (fun _ t h => (State.monAdd_scRest t _ _ _ _ _).trans h) rfl)

@[simp] theorem State.journal_scRest (s : State) (a b d e f : Nat) (g : Bytes) (k : Nat) : (s.journal a b d e f g k).scRest = s.scRest := by
  have h1 : (((s.inc (classCount a)).ev (classSource a)).when (decide (a = 3)) State.store).scRest = s.scRest :=
    when_keeps (P := fun t => t.scRest = s.scRest) (fun _ h => h) (by simp only [State.ev_scRest]; rfl)
  unfold State.journal
  dsimp only
  split
  · exact h1
  · exact when_keeps (P := fun t => t.scRest = s.scRest) (fun t h => by simp only [State.ev_scRest]; exact h) h1

/-- The changes that leave it. -/
def Prim.keepsScRest : Prim → Bool
  | .scAny => false
  | .off => false
  | .iso => false
  | _ => true

theorem frame_scRest {T : List Prim} (e : T.all Prim.keepsScRest = true) (s : State) : Stable T (fun t => t.scRest = s.scRest) := by
  intro p hp
  have hk := List.all_eq_true.mp e p hp
  cases p <;> first | cases hk | skip
  all_goals first
    | exact fun t x q h => q.trans h
    | exact fun t v r d h => (State.notifyVia_scRest t v r d).trans h
    | exact fun t a b d e f g k h => (State.journal_scRest t a b d e f g k).trans h
    | exact fun t a b d e f g h => (State.ev_scRest t a b d e f g).trans h
    | (intro a; intros; rename_i h; exact h)

/-! ### Settings -/

set_option maxRecDepth 20000 in
/-- The table's addresses lie below 2^28. -/
theorem Dict.table_low : ∀ x ∈ Dict.table, x.addr + Nat.max 1 x.span ≤ 2 ^ 28 := by
  intro x hx
  have h : (Dict.table.all fun x => decide (x.addr + Nat.max 1 x.span ≤ 2 ^ 28)) = true := by decide
  exact of_decide_eq_true (List.all_eq_true.mp h x hx)

theorem regKey_low {x : Entry} (h : x.addr + Nat.max 1 x.span ≤ 2 ^ 28) (r : x.acc ≠ .ro) (sub i : Nat) : regKey x sub i < 2 ^ 40 := by
  have h1 : sub % Nat.max 1 x.span < Nat.max 1 x.span := Nat.mod_lt _ (Nat.lt_of_lt_of_le Nat.zero_lt_one (Nat.le_max_left 1 _))
  have h2 : i % 4096 < 4096 := Nat.mod_lt _ (by decide)
  unfold regKey
  rw [if_neg r]
  omega

theorem regKey_high {e : Entry} (h : e.acc = .ro) (sub i : Nat) : 2 ^ 40 ≤ regKey e sub i := by
  unfold regKey
  rw [if_pos h]
  omega

/-- A value that only the device writes does not change a setting. -/
theorem State.setReg_settings {s t : State} (h : s.sameSettings t) {e : Entry} (r : e.acc = .ro) (v sub i : Nat) : s.sameSettings (t.setReg e v sub i) := by
  intro x hx hr sub' i'
  have h1 := regKey_low (Dict.table_low x hx) hr sub' i'
  have h2 := regKey_high r sub i
  unfold State.reg State.setReg
  dsimp only
  rw [Tbl.get_put_ne (by omega)]
  exact h x hx hr sub' i'

theorem State.sameSettings_of_regs {s t u : State} (h : s.sameSettings t) (e : u.regs = t.regs) : s.sameSettings u := by
  intro x hx hr sub i
  have := h x hx hr sub i
  unfold State.reg at this ⊢
  rw [e]
  exact this

theorem State.store_settings {s t : State} (h : s.sameSettings t) : s.sameSettings t.store := State.setReg_settings h rfl _ _ _

theorem State.journal_settings {s t : State} (h : s.sameSettings t) (a b c d e : Nat) (f : Bytes) (g : Nat) : s.sameSettings (t.journal a b c d e f g) := by
  have h1 : s.sameSettings (((t.inc (classCount a)).ev (classSource a)).when (decide (a = 3)) State.store) :=
    when_keeps (P := s.sameSettings) (fun _ h => State.store_settings h)
      (State.sameSettings_of_regs (State.setReg_settings h (classCount_ro a) _ _ _) (State.ev_regs _ _ _ _ _ _ _))
  unfold State.journal
  dsimp only
  split
  · exact State.sameSettings_of_regs h1 rfl
  · exact when_keeps (P := s.sameSettings) (fun u h => State.sameSettings_of_regs (State.setReg_settings h rfl _ _ _) (State.ev_regs _ _ _ _ _ _ _))
      (State.sameSettings_of_regs h1 rfl)

/-- The changes that leave every setting. -/
def Prim.keepsSettings : Prim → Bool
  | .regs => false
  | .reg => false
  | .off => false
  | .iso => false
  | _ => true

theorem frame_settings {T : List Prim} (e : T.all Prim.keepsSettings = true) (s : State) : Stable T (s.sameSettings ·) := by
  intro p hp
  have hk := List.all_eq_true.mp e p hp
  cases p <;> first | cases hk | skip
  all_goals first
    | exact fun t e v sub i r h => State.setReg_settings h r v sub i
    | exact fun t v r d h => State.sameSettings_of_regs h (State.notifyVia_regs t v r d)
    | exact fun t a b d e f g k h => State.journal_settings h a b d e f g k
    | exact fun t a b d e f g h => State.sameSettings_of_regs h (State.ev_regs t a b d e f g)
    | (intro a; intros; rename_i h; exact State.sameSettings_of_regs h rfl)

/-! ### Functions -/

theorem fnKey_low {f : FnId} (h : f.exists = true) (w : FnId.isWindow f = false) : fnKey f < 1000 := by
  cases f <;> simp only [FnId.exists, FnId.isWindow, fnKey, Bool.and_eq_true, decide_eq_true_eq] at * <;> first | omega | cases w

/-- Functions have keys of their own. -/
theorem fnKey_inj {f g : FnId} (hf : f.exists = true) (hg : g.exists = true) (h : fnKey f = fnKey g) : f = g := by
  cases f <;> cases g <;> simp only [FnId.exists, fnKey, Bool.and_eq_true, decide_eq_true_eq] at * <;> first
    | omega
    | (congr 1 <;> omega)

theorem State.sameFns_of_fns {s t u : State} (h : s.sameFns t) (e : u.fns = t.fns) : s.sameFns u := by
  intro f hf hw
  have := h f hf hw
  unfold State.fn at this ⊢
  rw [e]
  exact this

theorem State.setFn_window {s t : State} (h : s.sameFns t) (i : Nat) (r : Fn) : s.sameFns (t.setFn (.window i) r) := by
  intro f hf hw
  have h1 := fnKey_low hf hw
  have : (t.setFn (.window i) r).fn f = t.fn f := Tbl.get_put_ne (by simp only [fnKey] at h1 ⊢; omega)
  rw [this]
  exact h f hf hw

/-- The changes that leave every function but the windows. -/
def Prim.keepsSameFns : Prim → Bool
  | .fn => false
  | .off => false
  | .iso => false
  | _ => true

theorem frame_sameFns {T : List Prim} (e : T.all Prim.keepsSameFns = true) (s : State) : Stable T (s.sameFns ·) := by
  intro p hp
  have hk := List.all_eq_true.mp e p hp
  cases p <;> first | cases hk | skip
  all_goals first
    | exact fun t i r h => State.setFn_window h i r
    | exact fun t v r d h => State.sameFns_of_fns h (State.notifyVia_fns t v r d)
    | exact fun t a b d e f g k h => State.sameFns_of_fns h (State.journal_fns t a b d e f g k)
    | exact fun t a b d e f g h => State.sameFns_of_fns h (State.ev_fns t a b d e f g)
    | (intro a; intros; rename_i h; exact State.sameFns_of_fns h rfl)

/-! ### Parts -/

/-- The changes that leave a part. -/
def Part.keptBy : Part → Prim → Bool
  | .clock => Prim.keepsNow
  | .queue => Prim.keepsPending
  | .sent => Prim.keepsOut
  | .values => Prim.keepsRegs
  | .settings => Prim.keepsSettings
  | .store => Prim.keepsNv
  | .storeCore => Prim.keepsNvRest
  | .functions => Prim.keepsFns
  | .fixedFns => Prim.keepsSameFns
  | .package => Prim.keepsPw
  | .packageCore => Prim.keepsPwRest
  | .picks => Prim.keepsPk
  | .pickCore => Prim.keepsPkCore
  | .pickState => Prim.keepsPkRest
  | .welrid => Prim.keepsWr
  | .welridCore => Prim.keepsWrCore
  | .security => Prim.keepsSc
  | .securityCore => Prim.keepsScRest
  | .sessions => Prim.keepsSs
  | .frames => Prim.keepsTm
  | .fabric => Prim.keepsFb
  | .serving => Prim.keepsSv
  | .text => Prim.keepsTx
  | .search => Prim.keepsSe
  | .slaisk => Prim.keepsSl
  | .ethernet => Prim.keepsEt
  | .warp => Prim.keepsDx
  | .checkpoint => Prim.keepsCk
  | .faults => Prim.keepsFa
  | .monitors => Prim.keepsMn

/-- A part survives whatever is made of changes that leave it. -/
theorem frame_part {T : List Prim} (p : Part) (e : T.all p.keptBy = true) (s : State) : Stable T (fun t => p.same s t) := by
  cases p
  case clock => exact frame_now e s
  case queue => exact frame_pending e s
  case sent => exact frame_out e s
  case values => exact frame_regs e s
  case settings => exact frame_settings e s
  case store => exact frame_nv e s
  case storeCore => exact frame_nvRest e s
  case functions => exact frame_fns e s
  case fixedFns => exact frame_sameFns e s
  case package => exact frame_pw e s
  case packageCore => exact frame_pwRest e s
  case picks => exact frame_pk e s
  case pickCore => exact frame_pkCore e s
  case pickState => exact frame_pkRest e s
  case welrid => exact frame_wr e s
  case welridCore => exact frame_wrCore e s
  case security => exact frame_sc e s
  case securityCore => exact frame_scRest e s
  case sessions => exact frame_ss e s
  case frames => exact frame_tm e s
  case fabric => exact frame_fb e s
  case serving => exact frame_sv e s
  case text => exact frame_tx e s
  case search => exact frame_se e s
  case slaisk => exact frame_sl e s
  case ethernet => exact frame_et e s
  case warp => exact frame_dx e s
  case checkpoint => exact frame_ck e s
  case faults => exact frame_fa e s
  case monitors => exact frame_mn e s

theorem Part.same_refl (s : State) (p : Part) : p.same s s := by
  cases p <;> first | rfl | exact fun _ _ _ _ _ => rfl | exact fun _ _ _ => rfl

/-- Every part. -/
def Part.all : List Part := [.clock, .queue, .sent, .values, .settings, .store, .storeCore, .functions, .fixedFns, .package, .packageCore, .picks, .pickCore, .pickState, .welrid, .welridCore, .security, .securityCore, .sessions, .frames, .fabric, .serving, .text, .search, .slaisk, .ethernet, .warp, .checkpoint, .faults, .monitors]

theorem Part.mem_all (p : Part) : p ∈ Part.all := by
  cases p <;> decide

theorem State.sameBut_refl (s : State) (l : List Part) : s.sameBut l s := fun p _ => p.same_refl s

/-- An operation that is made of a list of changes leaves the parts that each of them leaves. -/
theorem frame_op {T : List Prim} {l : List Part} {s u : State} (e : Part.all.all (fun p => l.contains p || T.all p.keptBy) = true)
    (hk : ∀ {P : State → Prop}, Stable T P → P s → P u) : s.sameBut l u := by
  intro p hp
  have hT : T.all p.keptBy = true := by
    have := List.all_eq_true.mp e p p.mem_all
    simpa [hp] using this
  exact hk (frame_part p hT s) (p.same_refl _)

theorem Part.same_trans {s t u : State} {p : Part} (h : p.same s t) (k : p.same t u) : p.same s u := by
  cases p
  case settings => exact fun x hx hr sub i => (k x hx hr sub i).trans (h x hx hr sub i)
  case fixedFns => exact fun f hf hw => (k f hf hw).trans (h f hf hw)
  all_goals exact Eq.trans k h

theorem State.sameBut.trans {s t u : State} {l : List Part} (h : s.sameBut l t) (k : t.sameBut l u) : s.sameBut l u :=
  fun p hp => Part.same_trans (h p hp) (k p hp)

theorem State.sameBut.mono {s u : State} {l m : List Part} (h : s.sameBut l u) (e : l.all (fun p => m.contains p) = true) : s.sameBut m u :=
  fun p hp => h p fun q => hp (by simpa using List.all_eq_true.mp e p q)

/-- A command that is made of a list of changes leaves the parts that each of them leaves. -/
theorem frame_exec {T : List Prim} {l : List Part} {s : State} {t : Nat} {x : Host.Outcome State Fault Refusal}
    (e : Part.all.all (fun p => l.contains p || T.all p.keptBy) = true)
    (hk : ∀ {P : State → Prop}, Stable T P → P (s.at t) → OkX P x) {u : State} (h : x = .next u) : (s.at t).sameBut l u := by
  intro p hp
  have hT : T.all p.keptBy = true := by
    have := List.all_eq_true.mp e p p.mem_all
    simpa [hp] using this
  exact hk (frame_part p hT (s.at t)) (p.same_refl _) u h

end Sys2Proof.Machine
end

