-- ==== Sys2Proof/Laws/Requests.lean ====
section
/-! SUPPORT. Welrid requests: what an accepted request does, said once; and entries are found at their addresses. -/

namespace Sys2Proof.Machine

open Sys2Proof

/-! ## Entries -/

/-- No entry of the list shares an address with e. -/
def apartFrom (e : Entry) (l : List Entry) : Bool := l.all fun x => Nat.ble (e.addr + e.span) x.addr || Nat.ble (x.addr + x.span) e.addr

/-- No two entries of the list share an address. -/
def apart : List Entry → Bool
  | [] => true
  | e :: l => apartFrom e l && apart l

set_option maxRecDepth 100000 in
theorem Dict.table_apart : apart Dict.table = true := by decide +kernel

theorem find_apart {l : List Entry} {e : Entry} {a : Nat} (h : apart l = true) (he : e ∈ l) (h1 : e.addr ≤ a) (h2 : a < e.addr + e.span) :
    (l.find? fun e => decide (e.addr ≤ a) && decide (a < e.addr + e.span)) = some e := by
  induction l with
  | nil => cases he
  | cons x l ih =>
    simp only [apart, Bool.and_eq_true] at h
    rcases List.mem_cons.mp he with rfl | he
    · rw [List.find?_cons_of_pos]
      simp [h1, h2]
    · have hx := List.all_eq_true.mp h.1 e he
      simp only [Bool.or_eq_true, Nat.ble_eq] at hx
      rw [List.find?_cons_of_neg]
      · exact ih h.2 he
      · simp only [Bool.and_eq_true, decide_eq_true_eq, not_and]
        omega

/-- The dictionary's table finds an entry at each of its addresses. -/
theorem findEntry_of_mem {e : Entry} {sub : Nat} (he : e ∈ Dict.table) (h : sub < e.span) : findEntry (e.addr + sub) = some (e, sub) := by
  unfold findEntry
  rw [find_apart Dict.table_apart he (by omega) (by omega)]
  simp

/-! ## What is sent stays sent -/

theorem State.notifyVia_sent {o : Output} (t : State) (v : Assoc → List Nat) (r : Nat) (d : Bytes) (h : o ∈ t.out) : o ∈ (t.notifyVia v r d).out :=
  each_keeps (P := fun t => o ∈ t.out) (fun _ _ h => each_keeps (P := fun t => o ∈ t.out) (fun _ _ h => List.mem_append_left _ h) h) h

theorem State.notify_sent {o : Output} (t : State) (r : Nat) (d : Bytes) (h : o ∈ t.out) : o ∈ (t.notify r d).out := t.notifyVia_sent _ r d h

theorem State.traceAdd_sent {o : Output} (t : State) (a : Nat) (b : Option Nat) (c d : Nat) (h : o ∈ t.out) : o ∈ (t.traceAdd a b c d).out :=
  ite_keeps (P := fun t => o ∈ t.out) h h

theorem State.monAdd_sent {o : Output} (t : State) (f : FnId) (a b c d : Nat) (h : o ∈ t.out) : o ∈ (t.monAdd f a b c d).out :=
  when_keeps (P := fun t => o ∈ t.out) (fun t h => State.notify_sent t _ _ h) h

theorem State.ev_sent {o : Output} (t : State) (a : Nat) (b : Option Nat) (c d : Nat) (e f : Option Nat) (h : o ∈ t.out) : o ∈ (t.ev a b c d e f).out :=
  when_keeps (P := fun t => o ∈ t.out) (fun t h => State.traceAdd_sent t _ _ _ _ h) (each_keeps (P := fun t => o ∈ t.out) (fun _ t h => State.monAdd_sent t _ _ _ _ _ h) h)

theorem State.journal_sent {o : Output} (t : State) (a b c d e : Nat) (f : Bytes) (g : Nat) (h : o ∈ t.out) : o ∈ (t.journal a b c d e f g).out := by
  have h1 : o ∈ (((t.inc (classCount a)).ev (classSource a)).when (decide (a = 3)) State.store).out :=
    when_keeps (P := fun t => o ∈ t.out) (fun _ h => h) (State.ev_sent _ _ _ _ _ _ _ h)
  unfold State.journal
  dsimp only
  split
  · exact h1
  · exact when_keeps (P := fun t => o ∈ t.out) (fun _ h => State.ev_sent _ _ _ _ _ _ _ h) h1

/-- No change takes back what has been sent. -/
theorem sent_stable (T : List Prim) (o : Output) : Stable T (fun t => o ∈ t.out) := by
  intro p _
  cases p <;> intro _ <;> first
    | exact fun _ h => List.mem_append_left _ h
    | exact State.notifyVia_sent _
    | exact State.ev_sent _
    | exact State.journal_sent _
    | (intros; rename_i h; exact h)

/-! ## Requests -/

/-- What a request that is taken up leaves before what follows its reply. -/
def State.afterReply (s : State) (w : WEnv) (a : Assoc) (r : WReply) (u : State) : State :=
  ((u.setAssoc a.id fun b => { b with q := w.seq, kept := some r, lastReq := s.now, port := w.port, src := w.src, loc := w.loc }).answer w true a.id w.seq r).when
    (decide (w.seq = 0xFFFFFFFF)) (endAssoc a.id)

/-- A request that is taken up is executed and answered. -/
theorem welridRequest_taken {s : State} {w : WEnv} {a : Assoc} (h : s.Takes w a) (free : Bool) (act : WAct) :
    welridRequest w free act s = (act a s).2.2 (s.afterReply w a (act a s).1 (act a s).2.1) := by
  have hears : s.hears w = true := by simp [State.hears, h.port, h.udp, h.vlan]
  have header : headerErr w = none := by simp [headerErr, h.version, h.kind, h.fields]
  have found := h.assoc
  unfold State.assocOf at found
  have seq := h.seq
  unfold welridRequest State.afterReply
  have hq : w.seq ≠ a.q := by omega
  simp only [hears, h.size, header, found, h.tag, hq, Bool.not_true, Bool.false_eq_true, if_false]
  rw [if_neg (by omega)]

theorem afterReply_keeps {P : State → Prop} (h : Stable [.out, .wr] P) (s : State) (w : WEnv) (a : Assoc) (r : WReply) {u : State} (hs : P u) :
    P (s.afterReply w a r u) :=
  when_keeps (P := P) (fun _ ht => endAssoc_keeps (h.mono rfl) _ _ ht) (State.answer_keeps (h.mono rfl) _ _ _ _ _ _ (State.setAssoc_keeps (h.mono rfl) _ _ _ hs))

theorem afterReply_replied (s : State) (w : WEnv) (a : Assoc) (r : WReply) (u : State) : (s.afterReply w a r u).replied w a r :=
  when_keeps (P := fun t => t.replied w a r) (fun _ h => h) (List.mem_append_right _ (List.mem_singleton.mpr rfl))

theorem writeAct_accepted {s : State} {w : WEnv} {a : Assoc} {items : List WItem} (h : s.Accepts w a items) :
    writeAct w.storeOk items a s = (.write, settle (applyItems a.id a.sel items s), afterWrite items) := by
  obtain ⟨h1, h2, h3, h4⟩ := h
  unfold writeAct
  rw [if_neg, h3, h4]
  · rfl
  · have : items.length ≠ 0 := fun e => h1 (List.length_eq_zero_iff.mp e)
    omega

/-- A WRITE that is taken up and accepted. -/
theorem welridWrite_accepted {s : State} {w : WEnv} {a : Assoc} {items : List WItem} (h : s.Takes w a) (k : s.Accepts w a items) :
    welridWrite w items s = afterWrite items (s.afterReply w a .write (settle (applyItems a.id a.sel items s))) := by
  unfold welridWrite
  rw [welridRequest_taken h, writeAct_accepted k]

/-- An item that is neither a role's secret nor `package.reset`. -/
def quietItem (it : WItem) : Bool :=
  ([1, 2, 3, 4].all fun r => it.addr != Dict.roleSecretObserver.addr + (r - 1)) && it.addr != Dict.packageReset.addr

theorem afterWrite_quiet {it : WItem} (h : quietItem it = true) (s : State) : afterWrite [it] s = s := by
  unfold quietItem at h
  simp only [Bool.and_eq_true, List.all_cons, List.all_nil, Bool.and_true, bne_iff_ne, ne_eq] at h
  have e : ([1, 2, 3, 4].filter fun r => [it].any fun it => it.addr == Dict.roleSecretObserver.addr + (r - 1)) = [] := by
    simp only [List.any_cons, List.any_nil, Bool.or_false, List.filter_eq_nil_iff, beq_iff_eq]
    intro r hr
    simp only [List.mem_cons, List.not_mem_nil, or_false] at hr
    rcases hr with rfl | rfl | rfl | rfl
    · exact h.1.1
    · exact h.1.2.1
    · exact h.1.2.2.1
    · exact h.1.2.2.2
  unfold afterWrite
  rw [e]
  simp [State.when, State.each, h.2]

theorem run_wf {i : Instr} {t : Nat} {s : State} (f : State → State) (h : i.wf = true) (l : s.live = true) : run i t s f = .next (f (s.at t)) := by
  have l' : (s.at t).live = true := l
  unfold run runAny
  rw [if_pos h]
  dsimp only
  rw [if_pos l']

theorem runAny_wf {i : Instr} {t : Nat} {s : State} (f : State → State) (h : i.wf = true) : runAny i t s f = .next (f (s.at t)) := by
  unfold runAny
  rw [if_pos h]

/-- A well-formed command to a live device has its effect, and leaves the parts that what it is made of leaves. -/
theorem run_does {T : List Prim} {l : List Part} {i : Instr} {t : Nat} {s : State} {f : State → State} {x : Host.Outcome State Fault Refusal} (hi : x = run i t s f) (hw : i.wf = true) (hl : s.live = true)
    (e : Part.all.all (fun p => l.contains p || T.all p.keptBy) = true) (hk : ∀ {P : State → Prop}, Stable T P → P (s.at t) → OkX P x) :
    x = .next (f (s.at t)) ∧ (s.at t).sameBut l (f (s.at t)) :=
  have h := hi.trans (run_wf f hw hl)
  ⟨h, frame_exec e hk h⟩

theorem runAny_does {T : List Prim} {l : List Part} {i : Instr} {t : Nat} {s : State} {f : State → State} {x : Host.Outcome State Fault Refusal} (hi : x = runAny i t s f) (hw : i.wf = true)
    (e : Part.all.all (fun p => l.contains p || T.all p.keptBy) = true) (hk : ∀ {P : State → Prop}, Stable T P → P (s.at t) → OkX P x) :
    x = .next (f (s.at t)) ∧ (s.at t).sameBut l (f (s.at t)) :=
  have h := hi.trans (runAny_wf f hw)
  ⟨h, frame_exec e hk h⟩

end Sys2Proof.Machine
end

