-- ==== Sys2Proof/Laws/Settings.lean ====
section
/-! SUPPORT. What an accepted WRITE of a setting leaves in the dictionary: the value written, and every other setting as it was. -/

namespace Sys2Proof.Machine

open Sys2Proof

/-! ## The dictionary's keys stay rising -/

theorem State.notifyVia_sorted (t : State) (v : Assoc → List Nat) (r : Nat) (d : Bytes) (h : Tbl.sorted t.regs) : Tbl.sorted (t.notifyVia v r d).regs := by
  rw [State.notifyVia_regs]; exact h

theorem State.ev_sorted (t : State) (a : Nat) (b : Option Nat) (c d : Nat) (e f : Option Nat) (h : Tbl.sorted t.regs) :
    Tbl.sorted (t.ev a b c d e f).regs := by
  rw [State.ev_regs]; exact h

theorem State.setReg_sorted (t : State) (e : Entry) (v sub i : Nat) (h : Tbl.sorted t.regs) : Tbl.sorted (t.setReg e v sub i).regs :=
  Tbl.put_sorted h

theorem State.journal_sorted (t : State) (a b c d e : Nat) (f : Bytes) (g : Nat) (h : Tbl.sorted t.regs) : Tbl.sorted (t.journal a b c d e f g).regs := by
  have h1 : Tbl.sorted (((t.inc (classCount a)).ev (classSource a)).when (decide (a = 3)) State.store).regs :=
    when_keeps (P := fun t => Tbl.sorted t.regs) (fun t h => State.setReg_sorted t _ _ _ _ h) (State.ev_sorted _ _ _ _ _ _ _ (State.setReg_sorted t _ _ _ _ h))
  unfold State.journal
  dsimp only
  split
  · exact h1
  · exact when_keeps (P := fun t => Tbl.sorted t.regs) (fun t h => State.ev_sorted _ _ _ _ _ _ _ (State.setReg_sorted t _ _ _ _ h)) h1

/-- Every change keeps the keys of the dictionary's values rising. -/
theorem sorted_stable (T : List Prim) : Stable T (fun t => Tbl.sorted t.regs) := by
  intro p _
  cases p <;> intro t <;> first
    | exact fun x a b h => List.Pairwise.sublist (a.trans (List.Sublist.refl _)) h
    | exact State.notifyVia_sorted t
    | exact State.ev_sorted t
    | exact State.journal_sorted t
    | exact fun e v sub i _ h => State.setReg_sorted t e v sub i h
    | exact fun e v sub i h => State.setReg_sorted t e v sub i h
    | exact fun x a h => List.Pairwise.sublist a h
    | exact fun h => List.Pairwise.sublist List.filter_sublist h
    | (intros; rename_i h; exact h)

/-! ## Reading after writing -/

theorem State.setReg_reg {t : State} (h : Tbl.sorted t.regs) (e : Entry) (v sub i sub' i' : Nat) :
    (t.setReg e v sub i).reg e sub' i' = if regKey e sub' i' = regKey e sub i then v else t.reg e sub' i' := Tbl.get_put h

theorem State.setReg_other {t : State} {x e : Entry} {v sub i sub' i' : Nat} (h : regKey x sub' i' ≠ regKey e sub i) :
    (t.setReg e v sub i).reg x sub' i' = t.reg x sub' i' := Tbl.get_put_ne h

/-- g leaves v at sub-index offset sub of e for its object, and every other setting as it was. -/
def SetsTo (e : Entry) (sub v : Nat) (g : Nat → State → State) : Prop := ∀ i s, Tbl.sorted s.regs →
  Tbl.sorted (g i s).regs ∧ (∀ i', s.reg e sub i' = v ∨ i' = i → (g i s).reg e sub i' = v) ∧
  ∀ x ∈ Dict.table, x.acc ≠ .ro → ∀ sub' i', regKey x sub' i' ≠ regKey e sub i → (g i s).reg x sub' i' = s.reg x sub' i'

/-- Writing v and then making changes that leave the settings. -/
theorem SetsTo.of {e : Entry} {sub v : Nat} {g : Nat → State → State} (he : e ∈ Dict.table) (hr : e.acc ≠ .ro)
    (h : ∀ i s, (s.setReg e v sub i).sameSettings (g i s) ∧ (Tbl.sorted s.regs → Tbl.sorted (g i s).regs)) : SetsTo e sub v g := by
  intro i s hs
  obtain ⟨h1, h2⟩ := h i s
  refine ⟨h2 hs, fun i' hi => ?_, fun x hx xr sub' i' hk => ?_⟩
  · rw [h1 e he hr, State.setReg_reg hs]
    split
    · rfl
    · rcases hi with hi | rfl
      · exact hi
      · rename_i q; exact absurd rfl q
  · rw [h1 x hx xr, State.setReg_other hk]

theorem SetsTo.each {e : Entry} {sub v : Nat} {g : Nat → State → State} (h : SetsTo e sub v g) (l : List Nat) (s : State) (hs : Tbl.sorted s.regs) :
    Tbl.sorted (s.each l g).regs ∧ (∀ i', s.reg e sub i' = v ∨ i' ∈ l → (s.each l g).reg e sub i' = v) ∧
    ∀ x ∈ Dict.table, x.acc ≠ .ro → ∀ sub' i', (∀ i ∈ l, regKey x sub' i' ≠ regKey e sub i) → (s.each l g).reg x sub' i' = s.reg x sub' i' := by
  induction l generalizing s with
  | nil => exact ⟨hs, fun i' hi => hi.elim id (fun q => nomatch q), fun _ _ _ _ _ _ => rfl⟩
  | cons i l ih =>
    obtain ⟨a1, a2, a3⟩ := h i s hs
    obtain ⟨b1, b2, b3⟩ := ih (g i s) a1
    refine ⟨b1, fun i' hi => b2 i' ?_, fun x hx xr sub' i' hk => ?_⟩
    · rcases hi with hi | hi
      · exact .inl (a2 i' (.inl hi))
      · rcases List.mem_cons.mp hi with rfl | hi
        · exact .inl (a2 _ (.inr rfl))
        · exact .inr hi
    · exact (b3 x hx xr sub' i' fun j hj => hk j (List.mem_cons_of_mem _ hj)).trans (a3 x hx xr sub' i' (hk i List.mem_cons_self))

/-- A select value (R94). -/
def Entry.isSelect (e : Entry) : Bool := e.is Dict.channelSelect || e.is Dict.domainSelect || e.is Dict.modelSelect

theorem applyItem_itemOf {e : Entry} {sub : Nat} (he : e ∈ Dict.table) (hs : sub < e.span) (hx : e.isSelect = false) (aid : Nat) (sel : Sel) (v : Nat) (s : State) :
    applyItem aid sel (itemOf e sub v) s = s.each (targets e sel) (applyOne e sub (v % 256 ^ e.size)) := by
  unfold applyItem
  have h1 : (itemOf e sub v).addr = e.addr + sub := rfl
  rw [h1, findEntry_of_mem he hs]
  unfold Entry.isSelect at hx
  simp only [Bool.or_eq_false_iff] at hx
  dsimp only
  rw [hx.1.1, hx.1.2, hx.2]
  rfl

/-- What an accepted WRITE of one item leaves. -/
theorem welridWrite_item {e : Entry} {sub v : Nat} (he : e ∈ Dict.table) (hsub : sub < e.span) (hx : e.isSelect = false) (hq : quietItem (itemOf e sub v) = true) {s : State} {w : WEnv}
    {a : Assoc} (h : s.Takes w a) (k : s.Accepts w a [itemOf e sub v]) :
    welridWrite w [itemOf e sub v] s = s.afterReply w a .write (settle (s.each (targets e a.sel) (applyOne e sub (v % 256 ^ e.size)))) := by
  rw [welridWrite_accepted h k, afterWrite_quiet hq]
  rw [← applyItem_itemOf he hsub hx a.id a.sel v s]
  rfl

/-- The settings after an accepted WRITE of one. -/
theorem written_setting {e : Entry} {sub v : Nat} (he : e ∈ Dict.table) (hsub : sub < e.span) (hx : e.isSelect = false) (hq : quietItem (itemOf e sub v) = true)
    (hr : e.acc ≠ .ro) (hg : SetsTo e sub (v % 256 ^ e.size) (applyOne e sub (v % 256 ^ e.size))) {s : State} (hs : Tbl.sorted s.regs) {w : WEnv} {a : Assoc}
    (h : s.Takes w a) (k : s.Accepts w a [itemOf e sub v]) :
    (welridWrite w [itemOf e sub v] s).replied w a .write ∧
    (∀ i ∈ targets e a.sel, (welridWrite w [itemOf e sub v] s).reg e sub i = v % 256 ^ e.size) ∧
    ∀ x ∈ Dict.table, x.acc ≠ .ro → ∀ sub' i', (∀ i ∈ targets e a.sel, regKey x sub' i' ≠ regKey e sub i) →
      (welridWrite w [itemOf e sub v] s).reg x sub' i' = s.reg x sub' i' := by
  have e1 : welridWrite w [itemOf e sub v] s = s.afterReply w a .write (settle (s.each (targets e a.sel) (applyOne e sub (v % 256 ^ e.size)))) := by
    rw [welridWrite_accepted h k, afterWrite_quiet hq]
    rw [← applyItem_itemOf he hsub hx a.id a.sel v s]
    rfl
  rw [e1]
  obtain ⟨_, b2, b3⟩ := hg.each (targets e a.sel) s hs
  generalize s.each (targets e a.sel) (applyOne e sub (v % 256 ^ e.size)) = u at b2 b3
  have h1 : u.sameSettings (s.afterReply w a .write (settle u)) :=
    afterReply_keeps (frame_settings rfl u) s w a .write (settle_keeps (frame_settings rfl u) u (fun _ _ _ _ _ => rfl))
  refine ⟨afterReply_replied _ _ _ _ _, fun i hi => ?_, fun x hx' xr sub' i' hk => ?_⟩
  · rw [h1 e he hr]
    exact b2 i (.inr hi)
  · rw [h1 x hx' xr]
    exact b3 x hx' xr sub' i' hk

/-- Keeping a step-latched value for the step that runs leaves the dictionary. -/
theorem sched_regs (s : State) (e : Entry) (sub i : Nat) : (s.when (schedEntries.any e.is) fun s => s.keepSched e sub i).regs = s.regs :=
  when_keeps (P := fun t => t.regs = s.regs) (fun _ h => ite_keeps (P := fun t => t.regs = s.regs) h h) rfl

theorem sched_setReg {s u : State} (h : u.regs = s.regs) (e : Entry) (v sub i : Nat) : (s.setReg e v sub i).sameSettings (u.setReg e v sub i) :=
  State.sameSettings_of_regs (fun _ _ _ _ _ => rfl) (by unfold State.setReg; rw [h])

/-- A write that only replaces the value. -/
theorem applyOne_plain {e : Entry} {sub v : Nat} (h1 : ∀ i, reqFn e sub i = none) (h2 : ∀ i (s : State), s.special e sub i v = none) (he : e ∈ Dict.table)
    (hr : e.acc ≠ .ro) : SetsTo e sub v (applyOne e sub v) := by
  refine SetsTo.of he hr fun i s => ?_
  unfold applyOne
  dsimp only
  have hu := sched_regs s e sub i
  generalize (s.when (schedEntries.any e.is) fun s => s.keepSched e sub i) = u at hu ⊢
  rw [h1, h2]
  exact ⟨when_keeps (P := (s.setReg e v sub i).sameSettings) (fun _ h => State.store_settings h) (sched_setReg hu e v sub i),
    fun h => when_keeps (P := fun t => Tbl.sorted t.regs) (fun t h => State.setReg_sorted t _ _ _ _ h) (State.setReg_sorted u _ _ _ _ (hu ▸ h))⟩

/-- A write that replaces the value and then does what its chapter says. -/
theorem applyOne_more {e : Entry} {sub v : Nat} {T : List Prim} {f : Nat → State → State} (hT : T.all Prim.keepsSettings = true) (h1 : ∀ i, reqFn e sub i = none)
    (h2 : ∀ i (s : State), s.special e sub i v = some (f i (s.setReg e v sub i))) (hf : ∀ {P : State → Prop}, Stable T P → ∀ i s, P s → P (f i s))
    (he : e ∈ Dict.table) (hr : e.acc ≠ .ro) : SetsTo e sub v (applyOne e sub v) := by
  refine SetsTo.of he hr fun i s => ?_
  unfold applyOne
  dsimp only
  have hu := sched_regs s e sub i
  generalize (s.when (schedEntries.any e.is) fun s => s.keepSched e sub i) = u at hu ⊢
  rw [h1, h2]
  refine ⟨when_keeps (P := (s.setReg e v sub i).sameSettings) (fun _ h => State.store_settings h) ?_,
    fun h => when_keeps (P := fun t => Tbl.sorted t.regs) (fun t h => State.setReg_sorted t _ _ _ _ h) ?_⟩
  · exact hf (frame_settings hT _) i _ (sched_setReg hu e v sub i)
  · exact hf (sorted_stable T) i _ (State.setReg_sorted u _ _ _ _ (hu ▸ h))

/-! ## Items that pass their checks -/

theorem accepted_one {s : State} {w : WEnv} {a : Assoc} {e : Entry} {sub v : Nat} (he : e ∈ Dict.table) (hs : sub < e.span) (h : s.Accepts w a [itemOf e sub v]) :
    ∀ i ∈ targets e a.sel, s.rangeOk e sub i (v % 256 ^ e.size) = true ∧ s.stateCheck e sub i (v % 256 ^ e.size) = 0 := by
  have h1 := h.checks
  unfold State.checkItems at h1
  have h2 : (s.checkItem a.role a.sel (itemOf e sub v)).1 = 0 := by
    by_contra q
    simp only [q, ne_eq, not_false_eq_true, if_true] at h1
    cases h1
  have ha : (itemOf e sub v).addr = e.addr + sub := rfl
  have hv : valueOf (itemOf e sub v) = v % 256 ^ e.size := rfl
  unfold State.checkItem at h2
  split at h2
  · rename_i q
    exact absurd h2 q
  · rw [ha, findEntry_of_mem he hs] at h2
    dsimp only at h2
    split at h2
    · cases h2
    · split at h2
      · rename_i q
        exact absurd h2 q
      · intro i hi
        split at h2
        · rename_i j hj
          have := List.find?_some hj
          simp only [bne_iff_ne, ne_eq] at this
          exact absurd h2 this
        · rename_i hj
          have := List.find?_eq_none.mp hj i hi
          simp only [bne_iff_ne, ne_eq, not_not, hv] at this
          split at this
          · rename_i q
            exact ⟨q, this⟩
          · cases this

theorem quiet_of {e : Entry} {sub v : Nat} (h : ([1, 2, 3, 4].all fun r => decide (e.addr + e.span ≤ Dict.roleSecretObserver.addr + (r - 1)) || decide (Dict.roleSecretObserver.addr + (r - 1) < e.addr)) = true)
    (h2 : e.addr + e.span ≤ Dict.packageReset.addr ∨ Dict.packageReset.addr < e.addr) (hs : sub < e.span) : quietItem (itemOf e sub v) = true := by
  unfold quietItem
  have ha : (itemOf e sub v).addr = e.addr + sub := rfl
  rw [ha]
  simp only [Bool.and_eq_true, bne_iff_ne, ne_eq]
  refine ⟨List.all_eq_true.mpr fun r hr => ?_, by omega⟩
  have := List.all_eq_true.mp h r hr
  simp only [Bool.or_eq_true, decide_eq_true_eq] at this
  simp only [bne_iff_ne, ne_eq]
  omega

theorem targets_chan {e : Entry} (h : e.window = .channel) {a : Assoc} (hc : a.chanSel < 4) : targets e a.sel = [a.chanSel] := by
  unfold targets
  rw [h]
  dsimp only
  rw [if_neg]
  · rfl
  · show a.chanSel ≠ 0xFF
    omega

end Sys2Proof.Machine
end

