-- ==== Sys2Proof/Laws/Functions.lean ====
section
/-! SUPPORT. Function records: what is read after one is replaced, and which functions a request can touch (R28-R32). -/

set_option linter.all false

namespace Sys2Proof.Machine

open Sys2Proof

/-- The records are in key order, and g's is r. -/
def FnIs (g : FnId) (r : Fn) (u : State) : Prop := Tbl.sorted u.fns ∧ u.fn g = r

theorem FnIs.of_fns {g : FnId} {r : Fn} {t u : State} (h : FnIs g r t) (e : u.fns = t.fns) : FnIs g r u := by
  unfold FnIs State.fn at *
  rw [e]
  exact h

theorem FnIs.set {g f : FnId} {r : Fn} {u : State} (h : FnIs g r u) (hg : g.exists = true) (hf : f.exists = true) (ne : g ≠ f) (x : Fn) : FnIs g r (u.setFn f x) :=
  ⟨Tbl.put_sorted h.1, (Tbl.get_put_ne fun e => ne (fnKey_inj hg hf e)).trans h.2⟩

theorem FnIs.setWindow {g : FnId} {r : Fn} {u : State} (h : FnIs g r u) (hg : g.exists = true) (hw : FnId.isWindow g = false) (i : Nat) (x : Fn) :
    FnIs g r (u.setFn (.window i) x) := by
  have hne : fnKey g ≠ fnKey (.window i) := by
    have h1 := fnKey_low hg hw
    have h2 : fnKey (.window i) = 1000 + i := rfl
    omega
  exact ⟨Tbl.put_sorted h.1, (Tbl.get_put_ne hne).trans h.2⟩

theorem FnIs.own {f : FnId} {u : State} (h : Tbl.sorted u.fns) (x : Fn) : FnIs f x (u.setFn f x) :=
  ⟨Tbl.put_sorted h, (Tbl.get_put h).trans (if_pos rfl)⟩

/-- A function's record survives whatever sets no function but windows. -/
theorem fnIs_stable {T : List Prim} (e : T.all Prim.keepsSameFns = true) {g : FnId} (hg : g.exists = true) (hw : FnId.isWindow g = false) (r : Fn) :
    Stable T (FnIs g r) := by
  intro p hp
  have hk := List.all_eq_true.mp e p hp
  cases p <;> first | cases hk | skip
  case wfn => exact fun t i x h => h.setWindow hg hw i x
  case notify => exact fun t v a d h => h.of_fns (State.notifyVia_fns t v a d)
  case journal => exact fun t a b d e f k l h => h.of_fns (State.journal_fns t a b d e f k l)
  case ev => exact fun t a b d e f k h => h.of_fns (State.ev_fns t a b d e f k)
  all_goals (intro a; intros; rename_i h; exact FnIs.of_fns h rfl)

/-! ## The tree of functions -/

/-- A function's children exist, and it is their parent. -/
theorem childrenOf_parent {f c : FnId} (hf : f.exists = true) (h : c ∈ childrenOf f) : c.exists = true ∧ parentOf c = some f := by
  cases f with
  | dom n =>
    simp only [FnId.exists, decide_eq_true_eq] at hf
    unfold childrenOf at h
    dsimp only at h
    split at h
    · split at h
      · simp only [List.mem_append, List.mem_map, List.mem_range, List.mem_cons, List.not_mem_nil, or_false] at h
        rcases h with (⟨g, hg, rfl⟩ | rfl | rfl) | ⟨k, hk, rfl⟩ <;>
          simp only [FnId.exists, parentOf, Bool.and_eq_true, decide_eq_true_eq]
        · rw [if_neg (by omega), if_neg (by omega)]
          refine ⟨by omega, ?_⟩
          congr 2
          omega
        · rw [if_neg (by omega), if_neg (by omega)]
          refine ⟨by omega, ?_⟩
          congr 2
          omega
        · refine ⟨by omega, ?_⟩
          congr 2
          omega
        · refine ⟨by omega, ?_⟩
          congr 2
          omega
      · cases h
    · split at h
      · simp only [List.mem_map, List.mem_range] at h
        obtain ⟨i, hi, rfl⟩ := h
        simp only [FnId.exists, parentOf, decide_eq_true_eq]
        refine ⟨by omega, ?_⟩
        congr 2
        omega
      · split at h
        · rename_i e
          subst e
          simp only [List.mem_cons, List.not_mem_nil, or_false] at h
          rcases h with rfl | rfl <;> exact ⟨rfl, rfl⟩
        · split at h
          · rename_i e
            subst e
            simp only [List.mem_cons, List.not_mem_nil, or_false] at h
            rcases h with rfl | rfl <;> exact ⟨rfl, rfl⟩
          · split at h
            · rename_i e
              subst e
              simp only [List.mem_cons, List.not_mem_nil, or_false] at h
              rcases h with rfl | rfl <;> exact ⟨rfl, rfl⟩
            · have : n = 79 := by omega
              subst this
              simp only [List.mem_cons, List.not_mem_nil, or_false] at h
              subst h
              exact ⟨rfl, rfl⟩
  | _ => cases h

/-- No function has a great-grandparent. -/
theorem parentOf_depth {g x : FnId} (hg : g.exists = true) (h : (parentOf g).bind parentOf = some x) : parentOf x = none := by
  have key : ∀ m : Nat, m < 80 → ∀ y, parentOf (.dom m) = some y → (parentOf y).bind parentOf = none := by
    intro m hm y hy
    unfold parentOf at hy
    dsimp only at hy
    split at hy
    · cases hy
    · split at hy
      · cases hy
        split <;> rfl
      · cases hy
        simp only [parentOf]
        rw [if_neg (by omega), if_pos (by omega)]
        simp only [Option.bind]
        split <;> rfl
  match g, hg, h with
  | .dom n, hg, h =>
    simp only [FnId.exists, decide_eq_true_eq] at hg
    cases hp : parentOf (.dom n) with
    | none => rw [hp] at h; cases h
    | some y =>
      rw [hp] at h
      have := key n hg y hp
      rw [show (parentOf y).bind parentOf = parentOf x by rw [show parentOf y = some x from h]; rfl] at this
      exact this
  | .port p, hg, h => simp only [parentOf, Option.bind] at h; cases h
  | .link n, hg, h =>
    simp only [FnId.exists, decide_eq_true_eq] at hg
    simp only [parentOf, Option.bind] at h
    rw [if_pos (by omega)] at h
    cases h
  | .seal c, hg, h =>
    simp only [FnId.exists, decide_eq_true_eq] at hg
    simp only [parentOf, Option.bind] at h
    rw [if_neg (by omega), if_pos (by omega)] at h
    cases h
    split <;> rfl
  | .hubMon k, hg, h => cases h
  | .chMon c k, hg, h =>
    simp only [FnId.exists, Bool.and_eq_true, decide_eq_true_eq] at hg
    simp only [parentOf, Option.bind] at h
    rw [if_neg (by omega), if_pos (by omega)] at h
    cases h
    split <;> rfl
  | .trace, hg, h => cases h
  | .window i, hg, h => cases h

/-- g is neither f nor below it. -/
structure Beside (g f : FnId) : Prop where
  self : g ≠ f
  child : parentOf g ≠ some f
  grand : (parentOf g).bind parentOf ≠ some f

theorem Beside.down {g f c : FnId} (hg : g.exists = true) (h : Beside g f) (hc : parentOf c = some f) : Beside g c := by
  refine ⟨?_, ?_, ?_⟩
  · rintro rfl
    exact h.child hc
  · intro e
    exact h.grand (by rw [e]; exact hc)
  · intro e
    rw [parentOf_depth hg e] at hc
    cases hc

/-- A function is beside its own children. -/
theorem beside_child {f c : FnId} (hf : f.exists = true) (hc : parentOf c = some f) : Beside f c := by
  refine ⟨?_, ?_, ?_⟩
  · rintro rfl
    have := parentOf_depth hf (x := f) (by rw [hc]; exact hc)
    rw [this] at hc
    cases hc
  · intro e
    have := parentOf_depth hf (x := f) (by rw [e]; exact hc)
    rw [this] at e
    cases e
  · intro e
    rw [parentOf_depth hf e] at hc
    cases hc

/-! ## Requests -/

theorem latch_fnIs {g f : FnId} {r : Fn} {s : State} (hg : g.exists = true) (hw : FnId.isWindow g = false) (hf : f.exists = true) (ne : g ≠ f) (p : Pend) (h : FnIs g r s) :
    FnIs g r (latch f p s) :=
  when_keeps (P := FnIs g r) (fun t ht => ht.of_fns (State.ev_fns _ _ _ _ _ _ _)) (h.set hg hf ne _)

theorem latch_own {f : FnId} {s : State} (h : Tbl.sorted s.fns) (p : Pend) : FnIs f { s.fn f with pend := p } (latch f p s) :=
  when_keeps (P := FnIs f { s.fn f with pend := p }) (fun t ht => ht.of_fns (State.ev_fns _ _ _ _ _ _ _)) (FnIs.own h _)

theorem dropMonitor_fnIs {g f : FnId} {r : Fn} {s : State} (hg : g.exists = true) (hf : f.exists = true) (ne : g ≠ f) (h : FnIs g r s) : FnIs g r (dropMonitor f s) := by
  unfold dropMonitor
  split
  · exact FnIs.of_fns (h.set hg hf ne ({} : Fn)) rfl
  · exact FnIs.of_fns (h.set hg hf ne { s.fn f with st := .off, pend := .none }) rfl

theorem beginStop_fnIs {g f : FnId} {r : Fn} {s : State} (hg : g.exists = true) (hw : FnId.isWindow g = false) (hf : f.exists = true) (ne : g ≠ f) (h : FnIs g r s) :
    FnIs g r (beginStop f s) :=
  onStopping_keeps (fnIs_stable rfl hg hw r) _ _ _ (h.set hg hf ne _)

theorem beginStop_own {f : FnId} {s : State} (hf : f.exists = true) (hw : FnId.isWindow f = false) (h : Tbl.sorted s.fns) :
    FnIs f { s.fn f with st := .stopping, pend := .none } (beginStop f s) :=
  onStopping_keeps (fnIs_stable rfl hf hw _) _ _ _ (FnIs.own h _)

/-- An OFF request touches nothing beside its function. -/
theorem reqOff_beside {g : FnId} {r : Fn} (hg : g.exists = true) (hw : FnId.isWindow g = false) (k : Nat) (imposed : Bool) (f : FnId) (s : State) (hf : f.exists = true)
    (hb : Beside g f) (h : FnIs g r s) : FnIs g r (reqOff k imposed f s) := by
  induction k generalizing imposed f s with
  | zero => exact h
  | succ k ih =>
    have h1 : FnIs g r (s.each (childrenOf f) fun c s => reqOff k true c s) := by
      have key : ∀ (l : List FnId) (t : State), (∀ c ∈ l, c ∈ childrenOf f) → FnIs g r t → FnIs g r (t.each l fun c s => reqOff k true c s) := by
        intro l
        induction l with
        | nil => exact fun t _ h => h
        | cons c l il =>
          intro t hl ht
          obtain ⟨hc, hp⟩ := childrenOf_parent hf (hl c List.mem_cons_self)
          exact il _ (fun c hc => hl c (List.mem_cons_of_mem _ hc)) (ih true c t hc (hb.down hg hp) ht)
      exact key _ _ (fun _ h => h) h
    unfold reqOff
    generalize (s.each (childrenOf f) fun c s => reqOff k true c s) = u at h1
    dsimp only
    split
    · exact dropMonitor_fnIs hg hf hb.self h1
    · exact dropMonitor_fnIs hg hf hb.self h1
    · split
      · exact h1.set hg hf hb.self _
      · exact latch_fnIs hg hw hf hb.self _ h1
      · exact h1.set hg hf hb.self _
      · split
        · exact beginStop_fnIs hg hw hf hb.self h1
        · exact latch_fnIs hg hw hf hb.self _ h1

/-- An OFF request that no parent imposes. -/
theorem reqOff_asked (k : Nat) (f : FnId) (s : State) : reqOff (k + 1) false f s =
    match ((s.each (childrenOf f) fun c s => reqOff k true c s).fn f).st with
    | .off => (s.each (childrenOf f) fun c s => reqOff k true c s).setFn f { (s.each (childrenOf f) fun c s => reqOff k true c s).fn f with pend := .none }
    | .starting => latch f .off (s.each (childrenOf f) fun c s => reqOff k true c s)
    | .stopping => (s.each (childrenOf f) fun c s => reqOff k true c s).setFn f { (s.each (childrenOf f) fun c s => reqOff k true c s).fn f with pend := .none }
    | .on => if (s.each (childrenOf f) fun c s => reqOff k true c s).childrenOff f then beginStop f (s.each (childrenOf f) fun c s => reqOff k true c s)
      else latch f .off (s.each (childrenOf f) fun c s => reqOff k true c s) := by
  cases f <;> rfl

/-- What an OFF request leaves of its own function's record. -/
theorem reqOff_own {f : FnId} {s : State} (hf : f.exists = true) (hw : FnId.isWindow f = false) (h : Tbl.sorted s.fns) (k : Nat) :
    Tbl.sorted (reqOff (k + 1) false f s).fns ∧
    match (s.fn f).st with
    | .off => (reqOff (k + 1) false f s).fn f = { s.fn f with pend := .none }
    | .starting => (reqOff (k + 1) false f s).fn f = { s.fn f with pend := .off }
    | .stopping => (reqOff (k + 1) false f s).fn f = { s.fn f with pend := .none }
    | .on => (reqOff (k + 1) false f s).fn f = { s.fn f with st := .stopping, pend := .none } ∨ (reqOff (k + 1) false f s).fn f = { s.fn f with pend := .off } := by
  have h1 : FnIs f (s.fn f) (s.each (childrenOf f) fun c s => reqOff k true c s) := by
    have key : ∀ (l : List FnId) (t : State), (∀ c ∈ l, c ∈ childrenOf f) → FnIs f (s.fn f) t → FnIs f (s.fn f) (t.each l fun c s => reqOff k true c s) := by
      intro l
      induction l with
      | nil => exact fun t _ h => h
      | cons c l il =>
        intro t hl ht
        obtain ⟨hc, hp⟩ := childrenOf_parent hf (hl c List.mem_cons_self)
        exact il _ (fun c hc => hl c (List.mem_cons_of_mem _ hc)) (reqOff_beside hf hw k true c t hc (beside_child hf hp) ht)
    exact key _ _ (fun _ h => h) ⟨h, rfl⟩
  rw [reqOff_asked]
  generalize (s.each (childrenOf f) fun c s => reqOff k true c s) = u at h1
  obtain ⟨h2, h3⟩ := h1
  rw [← h3]
  cases e : (u.fn f).st
  · exact FnIs.own h2 _
  · exact latch_own h2 _
  · dsimp only
    split
    · exact ⟨(beginStop_own hf hw h2).1, .inl (beginStop_own hf hw h2).2⟩
    · exact ⟨(latch_own h2 _).1, .inr (latch_own h2 _).2⟩
  · exact FnIs.own h2 _

/-- Starting touches nothing but the function and its links. -/
theorem beginStart_fnIs {g f : FnId} {r : Fn} {s : State} (hg : g.exists = true) (hw : FnId.isWindow g = false) (hf : f.exists = true) (ne : g ≠ f)
    (np : parentOf g ≠ some f ∨ ∀ n, f = .dom n → n < 72 ∨ 76 ≤ n) (h : FnIs g r s) : FnIs g r (beginStart f s) := by
  have key : ∀ x old, FnIs g r (onStarting f old (s.setFn f x)) := by
    intro x old
    have h0 := h.set hg hf ne x
    match f, hf, ne, np, h0 with
    | .dom n, hf, ne, np, h0 =>
      simp only [FnId.exists, decide_eq_true_eq] at hf
      unfold onStarting
      dsimp only
      refine when_keeps (P := FnIs g r) (fun t ht => FnIs.of_fns ht (State.store_fns _)) ?_
      by_cases hn : 72 ≤ n ∧ n < 76
      · refine when_keeps (P := FnIs g r) (fun t ht => ?_) (h0.of_fns (State.ev_fns _ _ _ _ _ _ _))
        have each' : ∀ (l : List Nat) (t : State), (∀ i ∈ l, i < 12) → FnIs g r t → FnIs g r (t.each l fun i s =>
            s.when (bit (s.reg Dict.dnxLinkEnable) (12 * (n - 72) + i) && s.isOff (.link (12 * (n - 72) + i))) fun s =>
              linkStarting (12 * (n - 72) + i) 0 (s.setFn (.link (12 * (n - 72) + i)) { s.fn (.link (12 * (n - 72) + i)) with st := .starting, pend := .none })) := by
          intro l
          induction l with
          | nil => exact fun t _ ht => ht
          | cons i l il =>
            intro t hl ht
            have hi := hl i List.mem_cons_self
            refine il _ (fun i hi => hl i (List.mem_cons_of_mem _ hi)) (when_keeps (P := FnIs g r) (fun t ht => ?_) ht)
            refine linkStarting_keeps (fnIs_stable rfl hg hw r) _ _ _ (ht.set hg (by simp only [FnId.exists, decide_eq_true_eq]; omega) ?_ _)
            rintro rfl
            rcases np with np | np
            · apply np
              simp only [parentOf]
              congr 2
              omega
            · have := np n rfl
              omega
        exact each' _ t (fun i hi => List.mem_range.mp hi) ht
      · have : (decide (72 ≤ n) && decide (n < 76)) = false := by simpa using hn
        rw [this]
        exact h0.of_fns (State.ev_fns _ _ _ _ _ _ _)
    | .trace, _, _, _, h0 => exact FnIs.of_fns h0 rfl
    | .link n, _, _, _, h0 => exact linkStarting_keeps (fnIs_stable rfl hg hw r) _ _ _ h0
    | .port p, _, _, _, h0 => exact portNote_keeps (fnIs_stable rfl hg hw r) _ _ _ _ h0
    | .seal c, _, _, _, h0 => exact FnIs.of_fns h0 rfl
    | .hubMon _, _, _, _, h0 => exact h0
    | .chMon _ _, _, _, _, h0 => exact h0
    | .window _, _, _, _, h0 => exact h0
  unfold beginStart
  split
  · split
    · exact h.set hg hf ne _
    · exact key _ _
  · exact key _ _

/-- What beginning to start leaves of the function. -/
theorem beginStart_own {f : FnId} {s : State} (hf : f.exists = true) (hw : FnId.isWindow f = false) (h : Tbl.sorted s.fns) :
    FnIs f (if s.stillSwept f then { s.fn f with st := .off, pend := .on } else { s.fn f with st := .starting, pend := .none }) (beginStart f s) := by
  have key : ∀ x old, FnIs f x (onStarting f old (s.setFn f x)) := by
    intro x old
    have h0 : FnIs f x (s.setFn f x) := FnIs.own h x
    generalize s.setFn f x = u at h0
    match f, hf, hw, h0 with
    | .dom n, hf, hw, h0 =>
      simp only [FnId.exists, decide_eq_true_eq] at hf
      unfold onStarting
      dsimp only
      refine when_keeps (P := FnIs _ x) (fun t ht => FnIs.of_fns ht (State.store_fns _)) ?_
      by_cases hn : 72 ≤ n ∧ n < 76
      · refine when_keeps (P := FnIs _ x) (fun t ht => ?_) (h0.of_fns (State.ev_fns _ _ _ _ _ _ _))
        have each' : ∀ (l : List Nat) (t : State), (∀ i ∈ l, i < 12) → FnIs (.dom n) x t → FnIs (.dom n) x (t.each l fun i s =>
            s.when (bit (s.reg Dict.dnxLinkEnable) (12 * (n - 72) + i) && s.isOff (.link (12 * (n - 72) + i))) fun s =>
              linkStarting (12 * (n - 72) + i) 0 (s.setFn (.link (12 * (n - 72) + i)) { s.fn (.link (12 * (n - 72) + i)) with st := .starting, pend := .none })) := by
          intro l
          induction l with
          | nil => exact fun t _ ht => ht
          | cons i l il =>
            intro t hl ht
            have hi := hl i List.mem_cons_self
            refine il _ (fun i hi => hl i (List.mem_cons_of_mem _ hi)) (when_keeps (P := FnIs (.dom n) x) (fun t ht => ?_) ht)
            refine linkStarting_keeps (fnIs_stable rfl (by simp only [FnId.exists, decide_eq_true_eq]; omega) hw x) _ _ _ (ht.set (by simp only [FnId.exists, decide_eq_true_eq]; omega) (by simp only [FnId.exists, decide_eq_true_eq]; omega) (by intro e; cases e) _)
        exact each' _ t (fun i hi => List.mem_range.mp hi) ht
      · have : (decide (72 ≤ n) && decide (n < 76)) = false := by simpa using hn
        rw [this]
        exact h0.of_fns (State.ev_fns _ _ _ _ _ _ _)
    | .trace, _, _, h0 => exact FnIs.of_fns h0 rfl
    | .link n, hf, hw, h0 => exact linkStarting_keeps (fnIs_stable rfl hf hw x) _ _ _ h0
    | .port p, hf, hw, h0 => exact portNote_keeps (fnIs_stable rfl hf hw x) _ _ _ _ h0
    | .seal c, _, _, h0 => exact FnIs.of_fns h0 rfl
    | .hubMon _, _, _, h0 => exact h0
    | .chMon _ _, _, _, h0 => exact h0
    | .window _, _, _, h0 => exact h0
  cases f with
  | dom n =>
    unfold beginStart State.stillSwept
    dsimp only
    split
    · exact FnIs.own h _
    · exact key _ _
  | port n => exact key _ (s.fn (.port n)).st.code
  | link n => exact key _ (s.fn (.link n)).st.code
  | _ =>
    unfold beginStart
    exact key _ _

theorem engineOn_own {f : FnId} {s : State} (hf : f.exists = true) (hw : FnId.isWindow f = false) (h : Tbl.sorted s.fns) :
    FnIs f (s.onColumn f) (engineOn f s) := by
  have start := beginStart_own hf hw h
  unfold engineOn State.onColumn
  dsimp only
  cases hq : (s.fn f).st
  · dsimp only
    split
    · rename_i hp
      have h1 := latch_own (f := f) h .on
      rw [← hp] at h1
      exact hp ▸ h1
    · exact start
  · exact FnIs.own h _
  · exact ⟨h, rfl⟩
  · have h1 := latch_own (f := f) h .on
    dsimp only at h1
    rw [hq] at h1
    exact h1

theorem engineOn_fnIs {g f : FnId} {r : Fn} {s : State} (hg : g.exists = true) (hw : FnId.isWindow g = false) (hf : f.exists = true) (ne : g ≠ f) (np : parentOf g ≠ some f ∨ ∀ n, f = .dom n → n < 72 ∨ 76 ≤ n)
    (h : FnIs g r s) : FnIs g r (engineOn f s) := by
  unfold engineOn
  split
  · split
    · exact latch_fnIs hg hw hf ne _ h
    · exact beginStart_fnIs hg hw hf ne np h
  · exact h.set hg hf ne _
  · exact h
  · exact latch_fnIs hg hw hf ne _ h

theorem parent_exists {f p : FnId} (hf : f.exists = true) (h : parentOf f = some p) : p.exists = true ∧ FnId.isWindow p = false := by
  match f, hf, h with
  | .dom n, hf, h =>
    simp only [FnId.exists, decide_eq_true_eq] at hf
    simp only [parentOf] at h
    split at h
    · cases h
    · split at h
      · cases h
        split <;> exact ⟨rfl, rfl⟩
      · cases h
        simp only [FnId.exists, FnId.isWindow, decide_eq_true_eq, and_true]
        omega
  | .port p, hf, h => cases h; exact ⟨rfl, rfl⟩
  | .link n, hf, h =>
    simp only [FnId.exists, decide_eq_true_eq] at hf
    cases h
    simp only [FnId.exists, FnId.isWindow, decide_eq_true_eq, and_true]
    omega
  | .seal c, hf, h =>
    simp only [FnId.exists, decide_eq_true_eq] at hf
    cases h
    simp only [FnId.exists, FnId.isWindow, decide_eq_true_eq, and_true]
    omega
  | .hubMon k, hf, h => cases h
  | .chMon c k, hf, h =>
    simp only [FnId.exists, Bool.and_eq_true, decide_eq_true_eq] at hf
    cases h
    simp only [FnId.exists, FnId.isWindow, decide_eq_true_eq, and_true]
    omega
  | .trace, hf, h => cases h; exact ⟨rfl, rfl⟩
  | .window i, hf, h => cases h

theorem service_parent {f : FnId} {n : Nat} (hs : isService f = true) (h : parentOf f = some (.dom n)) : n < 72 ∨ 76 ≤ n := by
  cases f with
  | dom m =>
    simp only [isService, Bool.and_eq_true, decide_eq_true_eq] at hs
    simp only [parentOf] at h
    rw [if_neg (by omega), if_pos hs.2] at h
    cases h
    split <;> omega
  | _ => cases hs

theorem reqOn_own {f : FnId} {s u : State} (hf : f.exists = true) (hw : FnId.isWindow f = false) (h : Tbl.sorted s.fns) (e : reqOn f s = some u) : FnIs f (s.afterOn f) u := by
  unfold reqOn at e
  unfold State.afterOn
  dsimp only
  cases hp : parentOf f with
  | none =>
    rw [hp] at e
    cases e
    exact engineOn_own hf hw h
  | some p =>
    rw [hp] at e
    dsimp only at e ⊢
    obtain ⟨pe, pw⟩ := parent_exists hf hp
    split at e
    · cases e
    · cases q : (s.fn p).st <;> rw [q] at e <;> dsimp only at e ⊢
      · split at e
        · cases e
          have h1 : FnIs f (s.fn f) (engineOn p s) := by
            have hb := beside_child (f := p) (c := f) pe hp
            refine engineOn_fnIs hf hw pe (fun e => hb.self e.symm) (.inr ?_) ⟨h, rfl⟩
            rintro n rfl
            exact service_parent (by assumption) hp
          rw [← h1.2]
          exact latch_own h1.1 .on
        · cases e
      · split at e
        · rename_i q2
          rw [if_pos (by simpa [State.isOff] using q2)]
          cases e
          exact latch_own h .on
        · rename_i q2
          rw [if_neg (by simpa [State.isOff] using q2)]
          cases e
          exact engineOn_own hf hw h
      · cases e
        exact engineOn_own hf hw h
      · cases e

theorem reqOn_beside {f g : FnId} {r : Fn} {s u : State} (hf : f.exists = true) (hg : g.exists = true) (hw : FnId.isWindow g = false) (ne : g ≠ f) (n1 : parentOf f ≠ some g)
    (n2 : parentOf g ≠ some f) (h : FnIs g r s) (e : reqOn f s = some u) : FnIs g r u := by
  unfold reqOn at e
  cases hp : parentOf f with
  | none =>
    rw [hp] at e
    cases e
    exact engineOn_fnIs hg hw hf ne (.inl n2) h
  | some p =>
    rw [hp] at e
    dsimp only at e
    obtain ⟨pe, pw⟩ := parent_exists hf hp
    have hgp : g ≠ p := fun e => n1 (e ▸ hp)
    split at e
    · cases e
    · cases q : (s.fn p).st <;> rw [q] at e <;> dsimp only at e
      · split at e
        · rename_i q2
          cases e
          refine latch_fnIs hg hw hf ne _ (engineOn_fnIs hg hw pe hgp (.inr ?_) h)
          rintro n rfl
          exact service_parent q2 hp
        · cases e
      · split at e
        · cases e
          exact latch_fnIs hg hw hf ne _ h
        · cases e
          exact engineOn_fnIs hg hw hf ne (.inl n2) h
      · cases e
        exact engineOn_fnIs hg hw hf ne (.inl n2) h
      · cases e

/-! ## Transitions -/

theorem child_low {f : FnId} {n : Nat} (h : parentOf (.dom n) = some f) : n < 72 := by
  unfold parentOf at h
  dsimp only at h
  split at h
  · cases h
  · omega

/-- A child's start leaves everything but itself. -/
theorem child_start {f c g : FnId} {r : Fn} {s : State} (hf : f.exists = true) (hc : c ∈ childrenOf f) (hg : g.exists = true) (hw : FnId.isWindow g = false) (ne : g ≠ c)
    (h : FnIs g r s) : FnIs g r (beginStart c s) ∧ FnIs g r (engineOn c s) := by
  obtain ⟨hce, hp⟩ := childrenOf_parent hf hc
  have np : parentOf g ≠ some c ∨ ∀ n, c = .dom n → n < 72 ∨ 76 ≤ n := .inr fun n hn => by subst hn; exact .inl (child_low hp)
  exact ⟨beginStart_fnIs hg hw hce ne np h, engineOn_fnIs hg hw hce ne np h⟩

/-- A child of a function that is ON is asked for at once. -/
theorem tryOn_child {f c : FnId} {s : State} (hp : parentOf c = some f) (h : (s.fn f).st = .on) (h2 : (s.fn f).pend ≠ .off) : tryOn c s = engineOn c s := by
  unfold tryOn reqOn
  rw [hp]
  dsimp only
  rw [if_neg h2, h]
  rfl

theorem State.setPkg_fns (s : State) (p : Pkg) : (s.setPkg p).fns = s.fns := by
  unfold State.setPkg
  split
  · rfl
  · rw [State.notify_fns]

theorem serveIfUp_fnIs {g : FnId} {r : Fn} {s : State} (h : FnIs g r s) : FnIs g r (serveIfUp s) :=
  when_keeps (P := FnIs g r) (fun t ht => FnIs.of_fns ht (State.setPkg_fns _ _)) h

/-- Reaching ON leaves everything but the function's children. -/
theorem onOn_fnIs {f g : FnId} {r : Fn} {s : State} (hf : f.exists = true) (hg : g.exists = true) (hw : FnId.isWindow g = false) (np : parentOf g ≠ some f)
    (h1 : (s.fn f).st = .on) (h2 : (s.fn f).pend ≠ .off) (hwf : FnId.isWindow f = false) (h : FnIs g r s) : FnIs g r (onOn f s) := by
  have two : ∀ u, FnIs f (s.fn f) u ∧ FnIs g r u → ∀ c ∈ childrenOf f, FnIs f (s.fn f) (tryOn c u) ∧ FnIs g r (tryOn c u) := by
    intro u hu c hc
    obtain ⟨hce, hp⟩ := childrenOf_parent hf hc
    rw [tryOn_child hp (by rw [hu.1.2]; exact h1) (by rw [hu.1.2]; exact h2)]
    refine ⟨(child_start hf hc hf hwf ?_ hu.1).2, (child_start hf hc hg hw ?_ hu.2).2⟩
    · exact (beside_child hf hp).self
    · rintro rfl
      exact np hp
  have all : ∀ (l : List FnId) u, (∀ c ∈ l, c ∈ childrenOf f) → FnIs f (s.fn f) u ∧ FnIs g r u → FnIs f (s.fn f) (u.each l tryOn) ∧ FnIs g r (u.each l tryOn) := by
    intro l
    induction l with
    | nil => exact fun u _ hu => hu
    | cons c l il => exact fun u hl hu => il _ (fun c hc => hl c (List.mem_cons_of_mem _ hc)) (two u hu c (hl c List.mem_cons_self))
  unfold onOn
  split
  · rename_i n
    simp only [FnId.exists, decide_eq_true_eq] at hf
    split
    · rename_i hs
      have hn : n < 72 ∧ n % 18 = 16 := by simpa [isService] using hs
      have hc : childrenOf (.dom n) = ((List.range 16).map fun g => FnId.dom (18 * (n / 18) + g)) ++ [.dom (18 * (n / 18) + 17), .seal (n / 18)] ++ ((List.range 16).map fun k => FnId.chMon (n / 18) k) := by
        unfold childrenOf
        dsimp only
        rw [if_pos hn.1, if_pos hn.2]
      dsimp only
      refine serveIfUp_fnIs (when_keeps (P := fun u => FnIs (.dom n) (s.fn (.dom n)) u ∧ FnIs g r u) (fun t ht => ?_) ⟨⟨h.1, rfl⟩, h⟩).2
      · have ranged : ∀ (l : List Nat) u, (∀ k ∈ l, k < 16) → FnIs (.dom n) (s.fn (.dom n)) u ∧ FnIs g r u →
            FnIs (.dom n) (s.fn (.dom n)) (u.each l fun k s => tryOn (.dom (18 * (n / 18) + k)) s) ∧ FnIs g r (u.each l fun k s => tryOn (.dom (18 * (n / 18) + k)) s) := by
          intro l
          induction l with
          | nil => exact fun u _ hu => hu
          | cons k l il =>
            refine fun u hl hu => il _ (fun k hk => hl k (List.mem_cons_of_mem _ hk)) (two u hu _ ?_)
            rw [hc]
            exact List.mem_append_left _ (List.mem_append_left _ (List.mem_map.mpr ⟨k, List.mem_range.mpr (hl k List.mem_cons_self), rfl⟩))
        refine two _ (ranged _ t (fun k hk => List.mem_range.mp hk) ht) _ ?_
        rw [hc]
        exact List.mem_append_left _ (List.mem_append_right _ List.mem_cons_self)
    · split
      · rename_i q
        subst q
        exact (all [.port 0, .port 1] s (fun c hc => hc) ⟨⟨h.1, rfl⟩, h⟩).2
      · exact h
  · exact portNote_keeps (fnIs_stable rfl hg hw r) _ _ _ _ (portOn_keeps (fnIs_stable rfl hg hw r) _ _ h)
  · exact State.passHeld_keeps (fnIs_stable rfl hg hw r) _ (State.routeWaiting_keeps (fnIs_stable rfl hg hw r) _ (FnIs.of_fns (linkNote_keeps (fnIs_stable rfl hg hw r) _ _ _ _ h) (State.ev_fns _ _ _ _ _ _ _)))
  · exact h

/-- The end of STARTING leaves everything but the function and its children. -/
theorem fnStarted_fnIs {f g : FnId} {r : Fn} {s : State} (hf : f.exists = true) (hwf : FnId.isWindow f = false) (hg : g.exists = true) (hw : FnId.isWindow g = false) (ne : g ≠ f)
    (np : parentOf g ≠ some f) (h : FnIs g r s) : FnIs g r (fnStarted f s) := by
  unfold fnStarted
  split
  · split
    · split
      · exact beginStop_fnIs hg hw hf ne (h.set hg hf ne _)
      · exact h.set hg hf ne _
    · dsimp only
      have h1 : FnIs g r (onOn f (s.setFn f { st := .on, pend := .none, fault := false })) := by
        have e := (FnIs.own (f := f) h.1 { st := .on, pend := .none, fault := false }).2
        exact onOn_fnIs hf hg hw np (by rw [e]) (by rw [e]; decide) hwf (h.set hg hf ne _)
      have all : ∀ (l : List FnId) u, (∀ c ∈ l, c ∈ childrenOf f) → FnIs g r u → FnIs g r (u.each l fun c s => s.when (s.isOff c && decide ((s.fn c).pend = .on)) fun s => beginStart c s) := by
        intro l
        induction l with
        | nil => exact fun u _ hu => hu
        | cons c l il =>
          refine fun u hl hu => il _ (fun c hc => hl c (List.mem_cons_of_mem _ hc)) (when_keeps (P := FnIs g r) (fun t ht => ?_) hu)
          have hc := hl c List.mem_cons_self
          refine (child_start hf hc hg hw ?_ ht).1
          rintro rfl
          exact np (childrenOf_parent hf hc).2
      exact all _ _ (fun c hc => hc) h1
  · exact h

/-- What the end of STARTING leaves of the function. -/
theorem fnStarted_own {f : FnId} {s : State} (hf : f.exists = true) (hw : FnId.isWindow f = false) (hs : Tbl.sorted s.fns) (h : (s.fn f).st = .starting) :
    Tbl.sorted (fnStarted f s).fns ∧ s.afterStart f (fnStarted f s) := by
  have np : parentOf f ≠ some f := fun e => (beside_child hf e).self rfl
  have key : ∀ v : State, FnIs f { st := .on, pend := .none, fault := false } v →
      FnIs f { st := .on, pend := .none, fault := false } ((onOn f v).each (childrenOf f) fun c s => s.when (s.isOff c && decide ((s.fn c).pend = .on)) fun s => beginStart c s) := by
    intro v hv
    have h1 := onOn_fnIs hf hf hw np (by rw [hv.2]) (by rw [hv.2]; decide) hw hv
    have all : ∀ (l : List FnId) u, (∀ c ∈ l, c ∈ childrenOf f) → FnIs f { st := .on, pend := .none, fault := false } u →
        FnIs f { st := .on, pend := .none, fault := false } (u.each l fun c s => s.when (s.isOff c && decide ((s.fn c).pend = .on)) fun s => beginStart c s) := by
      intro l
      induction l with
      | nil => exact fun u _ hu => hu
      | cons c l il =>
        refine fun u hl hu => il _ (fun c hc => hl c (List.mem_cons_of_mem _ hc)) (when_keeps (P := FnIs f _) (fun t ht => ?_) hu)
        have hc := hl c List.mem_cons_self
        exact (child_start hf hc hf hw (beside_child hf (childrenOf_parent hf hc).2).self ht).1
    exact all _ _ (fun c hc => hc) h1
  unfold fnStarted State.afterStart
  rw [if_pos h]
  split
  · rename_i q
    split
    · rename_i q2
      have h0 := FnIs.own (f := f) hs { s.fn f with fault := false }
      have h1 := beginStop_own (f := f) (s := s.setFn f { s.fn f with fault := false }) hf hw h0.1
      rw [h0.2] at h1
      exact ⟨h1.1, fun n => absurd q n, fun _ _ => h1.2, fun _ n => absurd q2 (by rw [n]; decide)⟩
    · rename_i q2
      have h1 := FnIs.own (f := f) hs { st := .on, pend := .off, fault := false }
      exact ⟨h1.1, fun n => absurd q n, fun _ n => absurd n q2, fun _ _ => h1.2⟩
  · rename_i q
    have h1 := key _ (FnIs.own hs { st := .on, pend := .none, fault := false })
    exact ⟨h1.1, fun _ => h1.2, fun n => absurd n q, fun n => absurd n q⟩

/-- Reaching OFF leaves everything but the function and its parent. -/
theorem reachedOff_fnIs {f g : FnId} {r : Fn} {s : State} (hf : f.exists = true) (hg : g.exists = true) (hw : FnId.isWindow g = false) (np : parentOf f ≠ some g) (old : Nat)
    (h : FnIs g r s) : FnIs g r (reachedOff f old s) := by
  have h1 : FnIs g r (onOff f old s) := by
    unfold onOff
    split
    · exact linkOff_keeps (fnIs_stable rfl hg hw r) _ _ _ h
    · exact portNote_keeps (fnIs_stable rfl hg hw r) _ _ _ _ h
    · exact clearedOff_keeps (fnIs_stable rfl hg hw r) _ _ h
  unfold reachedOff parentCheck
  cases hp : parentOf f with
  | none => exact h1
  | some p =>
    dsimp only
    split
    · exact beginStop_fnIs hg hw (parent_exists hf hp).1 (fun e => np (e ▸ hp)) h1
    · exact h1

/-- The end of STOPPING leaves everything but the function, its links and its parent. -/
theorem fnStopped_fnIs {f g : FnId} {r : Fn} {s : State} (hf : f.exists = true) (hg : g.exists = true) (hw : FnId.isWindow g = false) (ne : g ≠ f)
    (nc : parentOf g ≠ some f) (np : parentOf f ≠ some g) (h : FnIs g r s) : FnIs g r (fnStopped f s) := by
  unfold fnStopped
  split
  · split
    · exact beginStart_fnIs hg hw hf ne (.inl nc) (clearedOff_keeps (fnIs_stable rfl hg hw r) _ _ (h.set hg hf ne _))
    · exact reachedOff_fnIs hf hg hw np _ (h.set hg hf ne _)
  · exact h

/-- What the end of STOPPING leaves of the function. -/
theorem fnStopped_own {f : FnId} {s : State} (hf : f.exists = true) (hw : FnId.isWindow f = false) (hs : Tbl.sorted s.fns) (h : (s.fn f).st = .stopping) :
    Tbl.sorted (fnStopped f s).fns ∧ s.afterStop f (fnStopped f s) := by
  have np : parentOf f ≠ some f := fun e => (beside_child hf e).self rfl
  unfold fnStopped State.afterStop
  rw [if_pos h]
  split
  · rename_i q
    have h0 := clearedOff_keeps (fnIs_stable rfl hf hw { s.fn f with pend := .none }) f _ (FnIs.own (f := f) hs { s.fn f with pend := .none })
    have h1 := beginStart_own hf hw h0.1
    have e : (clearedOff f (s.setFn f { s.fn f with pend := .none })).stillSwept f = s.stillSwept f := by
      have : (clearedOff f (s.setFn f { s.fn f with pend := .none })).fa = s.fa := clearedOff_keeps (frame_fa rfl s) f _ rfl
      unfold State.stillSwept
      rw [this]
    rw [h0.2, e] at h1
    simp only [Bool.and_eq_true, decide_eq_true_eq] at q
    refine ⟨h1.1, fun n => n.elim (fun n => absurd q.1 n) (fun n => by rw [q.2] at n; cases n), fun _ _ n => ?_, fun _ _ n => ?_⟩
    · rw [h1.2, n]; rfl
    · rw [h1.2, n]; rfl
  · rename_i q
    have h1 := reachedOff_fnIs hf hf hw np 3 (FnIs.own (f := f) hs { s.fn f with st := .off, pend := .none })
    simp only [Bool.and_eq_true, decide_eq_true_eq, not_and] at q
    exact ⟨h1.1, fun _ => h1.2, fun n m => absurd m (q n), fun n m => absurd m (q n)⟩

/-- A failed start leaves everything but the function, its children and its parent. -/
theorem fnFailed_fnIs {f g : FnId} {r : Fn} {s : State} (hf : f.exists = true) (hg : g.exists = true) (hw : FnId.isWindow g = false) (nc : parentOf g ≠ some f) (np : parentOf f ≠ some g)
    (h : FnIs g r (if (s.fn f).st = .starting then s.setFn f { st := .off, pend := .none, fault := true } else s)) : FnIs g r (fnFailed f s) := by
  unfold fnFailed
  split at h
  · rename_i q
    rw [if_pos q]
    dsimp only
    refine reachedOff_fnIs hf hg hw np 1 ?_
    have h1 : ∀ d, FnIs g r (((s.setFn f { st := .off, pend := .none, fault := true }).ev (failSource f).1 none 1 (failSource f).2).journal 1 0xFF (failSource f).1 0xFFFF (failSource f).2 d) :=
      fun d => h.of_fns (by rw [State.journal_fns, State.ev_fns])
    have all : ∀ (l : List FnId) u, (∀ c ∈ l, c ∈ childrenOf f) → FnIs g r u → FnIs g r (u.each l fun c s =>
        match c with
        | .link n => if s.isOff c then s.setFn c { s.fn c with pend := .none } else linkOff n (s.fn c).st.code (s.setFn c { s.fn c with st := .off, pend := .none })
        | _ => s.when (s.isOff c) fun s => s.setFn c { s.fn c with pend := .none }) := by
      intro l
      induction l with
      | nil => exact fun u _ hu => hu
      | cons c l il =>
        refine fun u hl hu => il _ (fun c hc => hl c (List.mem_cons_of_mem _ hc)) ?_
        obtain ⟨hce, hp⟩ := childrenOf_parent hf (hl c List.mem_cons_self)
        have ne : g ≠ c := by
          rintro rfl
          exact nc hp
        dsimp only
        split
        · split
          · exact hu.set hg hce ne _
          · exact linkOff_keeps (fnIs_stable rfl hg hw r) _ _ _ (hu.set hg hce ne _)
        · exact when_keeps (P := FnIs g r) (fun t ht => ht.set hg hce ne _) hu
    exact all _ _ (fun c hc => hc) (h1 _)
  · rename_i q
    rw [if_neg q]
    exact h

/-- What a failed start leaves of the function. -/
theorem fnFailed_own {f : FnId} {s : State} (hf : f.exists = true) (hw : FnId.isWindow f = false) (hs : Tbl.sorted s.fns) (h : (s.fn f).st = .starting) :
    FnIs f { st := .off, pend := .none, fault := true } (fnFailed f s) := by
  have np : parentOf f ≠ some f := fun e => (beside_child hf e).self rfl
  refine fnFailed_fnIs hf hf hw np np ?_
  rw [if_pos h]
  exact FnIs.own hs _

theorem fnFailed_near {f g : FnId} {r : Fn} {s : State} (hf : f.exists = true) (hg : g.exists = true) (hw : FnId.isWindow g = false) (ne : g ≠ f) (nc : parentOf g ≠ some f)
    (np : parentOf f ≠ some g) (h : FnIs g r s) : FnIs g r (fnFailed f s) := by
  refine fnFailed_fnIs hf hg hw nc np ?_
  split
  · exact h.set hg hf ne _
  · exact h

/-- What a notification leaves last. -/
theorem State.notify_last (s : State) (r : Nat) (d : Bytes) : (s.notify r d).lastNotice r d := by
  unfold State.notify State.notifyVia
  dsimp only
  refine each_keeps (P := fun u => u.lastNotice r d) (fun _ _ h => each_keeps (P := fun u => u.lastNotice r d) (fun _ _ h => h) h) ?_
  dsimp only [State.tookStamp]
  generalize hn : NLog.mk _ _ _ _ _ _ = n
  refine ⟨n, ?_, by rw [← hn], by rw [← hn]⟩
  dsimp only
  rw [List.getLast?_drop, if_neg]
  · exact List.getLast?_concat
  · simp only [List.length_append, List.length_singleton]
    omega

end Sys2Proof.Machine
end

