-- ==== Sys2Proof/Laws/Sessions.lean ====
section
/-! SUPPORT. What the session operations leave of a session's entry, and what a completion record does to its queue. -/

set_option linter.all false

namespace Sys2Proof.Machine

open Sys2Proof

/-! ### What leaves the session entries -/

theorem tbl_of {T : List Prim} {s u : State} (e : T.all Prim.keepsSs = true) (h : ∀ {P : State → Prop}, Stable T P → P s → P u) : u.ss.tbl = s.ss.tbl :=
  (congrArg Sessions.tbl (h (P := fun v => v.ss = s.ss) (frame_ss e s) rfl) :)

@[simp] theorem State.setCq_tbl (s : State) (d : Nat) (q : CQ) : (s.setCq d q).ss.tbl = s.ss.tbl := rfl

theorem State.holdRec_tbl (s : State) (d : Nat) (r : Rec) (a b : Bool) (n : Option Nat) : (s.holdRec d r a b n).ss.tbl = s.ss.tbl := by
  unfold State.holdRec
  dsimp only
  exact tbl_of (T := [.notify, .ev]) rfl (s := s.setCq d _) fun {P} h hs => State.hubRose_keeps h _ _ _ hs

theorem State.writeRec_tbl (s : State) (d : Nat) (r : Rec) : (s.writeRec d r).ss.tbl = s.ss.tbl := by
  unfold State.writeRec
  dsimp only
  exact tbl_of (T := [.out, .ctr, .sl, .ev]) rfl (s := s.setCq d _) fun {P} h hs => State.txWrite_keeps h _ _ _ _ _ _ hs

theorem State.sendNotif_tbl (s : State) (d : Nat) (r : Rec) : (s.sendNotif d r).ss.tbl = s.ss.tbl := by
  unfold State.sendNotif
  dsimp only
  split
  · exact tbl_of (T := [.out, .ctr, .sl, .ev]) rfl (s := s) fun {P} h hs => h.ev rfl _ _ _ _ _ _ _ (h.ev rfl _ _ _ _ _ _ _ (State.txSend_keeps h _ _ _ hs))
  · exact tbl_of (T := [.out, .ctr, .sl, .ev]) rfl (s := s.setCq d _) fun {P} h hs => State.txFlush_keeps h _ _ _ hs

theorem State.postNotif_tbl (s : State) (d : Nat) (r : Rec) : (s.postNotif d r).ss.tbl = s.ss.tbl := by
  unfold State.postNotif
  dsimp only
  split
  · rfl
  · split
    · exact State.sendNotif_tbl _ _ _
    · exact State.holdRec_tbl _ _ _ _ _ _

theorem State.postRec_tbl (s : State) (d : Nat) (r : Rec) (w : Bool) (n : Option Nat) : (s.postRec d r w n).ss.tbl = s.ss.tbl := by
  unfold State.postRec
  split
  · exact when_keeps (P := fun u => u.ss.tbl = s.ss.tbl) (fun u hu => (State.postNotif_tbl _ _ _).trans hu) (State.writeRec_tbl _ _ _)
  · exact State.holdRec_tbl _ _ _ _ _ _

theorem State.record_tbl (s : State) (d a b c e f g i : Nat) (w : Bool) (n : Option Nat) : (s.record d a b c e f g i w n).ss.tbl = s.ss.tbl := State.postRec_tbl _ _ _ _ _

theorem State.endDesc_tbl (s : State) (q : QDesc) (a b c d : Nat) : (s.endDesc q a b c d).ss.tbl = s.ss.tbl := by
  unfold State.endDesc
  dsimp only
  refine (tbl_of (T := [.ctr, .ev]) rfl fun {P} h hs => h.ev rfl _ _ _ _ _ _ _ (when_keeps (P := P) (fun u hu => h.ctr rfl _ _ _ _ _ rfl hu) (when_keeps (P := P) (fun u hu => h.ev rfl _ _ _ _ _ _ _ (h.ctr rfl _ _ _ _ _ rfl hu)) hs))).trans
    (State.record_tbl _ _ _ _ _ _ _ _ _ _ _)

theorem incEv_tbl (s : State) (e : Entry) (he : e.acc = .ro) (n sub i : Nat) (a : Nat) (b : Option Nat) (c d : Nat) (f g : Option Nat) : ((s.inc e n sub i).ev a b c d f g).ss.tbl = s.ss.tbl :=
  tbl_of (T := [.ctr, .ev]) rfl fun {_P} h hs => h.ev rfl _ _ _ _ _ _ _ (h.ctr rfl _ _ _ _ _ he hs)

theorem State.touchEntry_tbl (s : State) (k : Nat) : (s.touchEntry k).ss.tbl = s.ss.tbl := by
  unfold State.touchEntry
  dsimp only
  split
  · split <;> exact incEv_tbl _ _ rfl _ _ _ _ _ _ _ _ _
  · split <;> exact incEv_tbl _ _ rfl _ _ _ _ _ _ _ _ _

theorem State.sess_of_tbl {s u : State} (e : u.ss.tbl = s.ss.tbl) (k : Nat) : u.sess k = s.sess k := by
  unfold State.sess
  rw [e]

theorem State.setSess_sess {s : State} (h : Tbl.sorted s.ss.tbl) (k j : Nat) (x : Sess) : (s.setSess k x).sess j = if j = k then x else s.sess j := by
  unfold State.sess State.setSess
  dsimp only
  rw [Tbl.get_put h]

theorem State.setSess_sorted {s : State} (h : Tbl.sorted s.ss.tbl) (k : Nat) (x : Sess) : Tbl.sorted (s.setSess k x).ss.tbl := Tbl.put_sorted h

/-- Slot k's entry is x, in a table in order. -/
def SessIs (k : Nat) (x : Sess) (u : State) : Prop := Tbl.sorted u.ss.tbl ∧ u.sess k = x

theorem SessIs.of {k : Nat} {x : Sess} {s u : State} (h : SessIs k x s) (e : u.ss.tbl = s.ss.tbl) : SessIs k x u :=
  ⟨by rw [e]; exact h.1, (State.sess_of_tbl e k).trans h.2⟩

theorem SessIs.set {k : Nat} {x : Sess} {s : State} (h : SessIs k x s) (y : Sess) : SessIs k y (s.setSess k y) :=
  ⟨State.setSess_sorted h.1 _ _, (State.setSess_sess h.1 k k y).trans (if_pos rfl)⟩

theorem SessIs.ev {k : Nat} {x : Sess} {s : State} (h : SessIs k x s) (a : Nat) (b : Option Nat) (c d : Nat) (e f : Option Nat) : SessIs k x (s.ev a b c d e f) :=
  h.of (congrArg Sessions.tbl (State.ev_ss _ _ _ _ _ _ _) :)

theorem SessIs.endDesc {k : Nat} {x : Sess} {s : State} (h : SessIs k x s) (q : QDesc) (a b c d : Nat) : SessIs k x (s.endDesc q a b c d) := h.of (State.endDesc_tbl _ _ _ _ _ _)

theorem SessIs.popHead {k : Nat} {x : Sess} {s : State} {q : QDesc} {rest : List QDesc} (h : SessIs k x s) (hr : x.ring = q :: rest) :
    SessIs k { x with ring := rest, head := (x.head + 1) % 65536 } (s.popHead k) := by
  unfold State.popHead
  dsimp only
  rw [h.2, hr]
  exact (h.set _).ev _ _ _ _ _ _

theorem SessIs.endHead {k : Nat} {x : Sess} {s : State} {q : QDesc} {rest : List QDesc} (h : SessIs k x s) (hr : x.ring = q :: rest) (a b : Nat) :
    SessIs k { x.popped rest with deadline := 0 } (s.endHead k a b) := by
  unfold State.endHead
  rw [h.2, hr]
  have h1 := h.popHead hr
  dsimp only
  rw [h1.2]
  exact (h1.set _).endDesc _ _ _ _ _

/-- Slot k's entry has that core, in a table in order. -/
def CoreIs (k : Nat) (c : Sess) (u : State) : Prop := Tbl.sorted u.ss.tbl ∧ (u.sess k).core = c

theorem SessIs.core {k : Nat} {x : Sess} {u : State} (h : SessIs k x u) : CoreIs k x.core u := ⟨h.1, by rw [h.2]⟩

theorem CoreIs.of {k : Nat} {c : Sess} {s u : State} (h : CoreIs k c s) (e : u.ss.tbl = s.ss.tbl) : CoreIs k c u :=
  ⟨by rw [e]; exact h.1, by rw [State.sess_of_tbl e k]; exact h.2⟩

theorem CoreIs.is {k : Nat} {c : Sess} {s : State} (h : CoreIs k c s) : SessIs k (s.sess k) s := ⟨h.1, rfl⟩

theorem CoreIs.stable {T : List Prim} (e : T.all Prim.keepsSs = true) (k : Nat) (c : Sess) : Stable T (CoreIs k c) := by
  intro p hp
  have f := fun s => frame_ss e s p hp
  have w : ∀ s u : State, u.ss = s.ss → CoreIs k c s → CoreIs k c u := fun s u q h => h.of (congrArg Sessions.tbl q :)
  have hk := List.all_eq_true.mp e p hp
  cases p <;> first | cases hk | skip
  all_goals intro s; intros; first
    | exact w s _ rfl (by assumption)
    | exact w s _ (State.notifyVia_ss _ _ _ _) (by assumption)
    | exact w s _ (State.journal_ss _ _ _ _ _ _ _ _) (by assumption)
    | exact w s _ (State.ev_ss _ _ _ _ _ _ _) (by assumption)

theorem CoreIs.setSess {j k : Nat} {c : Sess} {s : State} (h : CoreIs j c s) (x : Sess) (hx : x.core = (s.sess k).core) : CoreIs j c (s.setSess k x) := by
  refine ⟨State.setSess_sorted h.1 _ _, ?_⟩
  rw [State.setSess_sess h.1]
  split
  · rename_i e
    rw [hx, ← e]
    exact h.2
  · exact h.2

theorem CoreIs.setPage {j k : Nat} {c : Sess} {s : State} (h : CoreIs j c s) (l : Nat) (p : Page) : CoreIs j c (s.setPage k l p) := h.setSess _ rfl

/-- The changes that setting page moves going, and ending them, is made of, beside the pages themselves. -/
def pageMoves : List Prim := [.out, .ctr, .nv, .notify, .sc, .tm, .fb, .sl, .ev]

/-- P does not mind what a session's entry keeps of its pages. -/
def PageOk (P : State → Prop) : Prop := ∀ (s : State) (k : Nat) (x : Sess), x.core = (s.sess k).core → P s → P (s.setSess k x)

theorem PageOk.page {P : State → Prop} (h : PageOk P) {s : State} (hs : P s) (k l : Nat) (p : Page) : P (s.setPage k l p) := h _ _ _ rfl hs

theorem CoreIs.pageOk (j : Nat) (c : Sess) : PageOk (CoreIs j c) := fun _ _ x e h => h.setSess x e

theorem cq_pageOk (q : Tbl CQ) : PageOk (fun u => u.ss.cq = q) := fun _ _ _ _ h => h

theorem State.addMove_by {P : State → Prop} (st : Stable pageMoves P) (hp : PageOk P) {s : State} (m : Move) (h : P s) : P (s.addMove m) := by
  unfold State.addMove
  dsimp only
  split
  · exact h
  · have k0 := st
    exact when_keeps (P := P) (fun u hu => when_keeps (P := P) (fun u hu => State.trackWait_keeps (k0.mono rfl) _ _ hu) (k0.ev rfl _ _ _ _ _ _ _ hu))
      (State.startMoves_keeps (k0.mono rfl) _ (k0.tm rfl _ _ (hp.page h _ _ _)))

theorem State.addMove_core {j : Nat} {c : Sess} {s : State} (m : Move) (h : CoreIs j c s) : CoreIs j c (s.addMove m) := State.addMove_by (CoreIs.stable rfl j c) (CoreIs.pageOk j c) m h

theorem State.failMove_by {P : State → Prop} (st : Stable pageMoves P) (hp : PageOk P) {s : State} (m : Move) (h : P s) : P (s.failMove m) := by
  unfold State.failMove
  dsimp only
  have k0 := st
  have h1 : P ((s.freeDest m).endMove m) := State.endMove_keeps (k0.mono rfl) _ _ (State.freeDest_keeps (k0.mono rfl) _ _ h)
  split
  · exact hp.page h1 _ _ _
  · exact h1

theorem State.failMove_core {j : Nat} {c : Sess} {s : State} (m : Move) (h : CoreIs j c s) : CoreIs j c (s.failMove m) := State.failMove_by (CoreIs.stable rfl j c) (CoreIs.pageOk j c) m h

theorem State.dropOne_by {P : State → Prop} (st : Stable pageMoves P) (hp : PageOk P) {s : State} (k l : Nat) (h : P s) : P (s.dropOne k l) := by
  unfold State.dropOne
  dsimp only
  have k0 := st
  split
  · exact h
  · exact State.invalidate_keeps (k0.mono rfl) _ _ _ (State.freeHome_keeps (k0.mono rfl) _ _ _ (hp _ _ _ rfl h))

theorem State.dropOne_core {j : Nat} {c : Sess} {s : State} (k l : Nat) (h : CoreIs j c s) : CoreIs j c (s.dropOne k l) := State.dropOne_by (CoreIs.stable rfl j c) (CoreIs.pageOk j c) k l h

theorem State.dropPage_by {P : State → Prop} (st : Stable pageMoves P) (hp : PageOk P) {s : State} (k l : Nat) (h : P s) : P (s.dropPage k l) := by
  unfold State.dropPage
  dsimp only
  have h1 := State.dropOne_by (st.mono rfl) hp k l h
  split
  · exact h1
  · have h2 := State.dropOne_by (st.mono rfl) hp k (leafLpn (l / 8192)) h1
    split
    · exact h2
    · exact State.dropOne_by (st.mono rfl) hp _ _ h2

theorem State.dropPage_core {j : Nat} {c : Sess} {s : State} (k l : Nat) (h : CoreIs j c s) : CoreIs j c (s.dropPage k l) := State.dropPage_by (CoreIs.stable rfl j c) (CoreIs.pageOk j c) k l h

theorem State.dropDraft_by {P : State → Prop} (st : Stable pageMoves P) (hp : PageOk P) {s : State} (k : Nat) (h : P s) : P (s.dropDraft k) := by
  unfold State.dropDraft
  dsimp only
  split
  · have h1 := each_keeps (P := P) (l := (s.sess k).pages.filter fun e => isKv e.1 && decide ((s.model (s.sess k).model).draftBase ≤ e.1) && !e.2.moving) (fun e u hu => State.dropPage_by (st.mono rfl) hp k e.1 hu) h
    exact hp _ _ _ rfl h1
  · exact h

theorem State.dropDraft_core {j : Nat} {c : Sess} {s : State} (k : Nat) (h : CoreIs j c s) : CoreIs j c (s.dropDraft k) := State.dropDraft_by (CoreIs.stable rfl j c) (CoreIs.pageOk j c) k h

theorem State.toState_other {j k : Nat} {c : Sess} {s : State} (st : SSt) (h : CoreIs j c s) (n : j ≠ k) : CoreIs j c (s.toState k st) := by
  unfold State.toState
  dsimp only
  have h1 : CoreIs j c (s.setSess k { s.sess k with st := st, since := s.pk.current }) := ⟨State.setSess_sorted h.1 _ _, by rw [State.setSess_sess h.1, if_neg n]; exact h.2⟩
  split
  · exact (CoreIs.stable (T := [.ev]) rfl j c).ev rfl _ _ _ _ _ _ _ h1
  · split
    · exact (CoreIs.stable (T := [.ev]) rfl j c).ev rfl _ _ _ _ _ _ _ h1
    · exact h1

theorem CoreIs.other {j k : Nat} {c x : Sess} {s : State} (h : CoreIs j c s) (n : j ≠ k) : CoreIs j c (s.setSess k x) :=
  ⟨State.setSess_sorted h.1 _ _, by rw [State.setSess_sess h.1, if_neg n]; exact h.2⟩

theorem State.beginMoving_other {j k : Nat} {c : Sess} {s : State} (a b : Nat) (h : CoreIs j c s) (n : j ≠ k) : CoreIs j c (s.beginMoving k a b) := by
  unfold State.beginMoving
  dsimp only
  exact ((State.toState_other _ ((State.dropDraft_core k h).other n) n)).other n

theorem State.evictDeep_core {j : Nat} {c : Sess} {s : State} (ch : Nat) (only : Option Nat) (h : CoreIs j c s) (n : c.st ≠ .parkedDeep) : CoreIs j c (s.evictDeep ch only) := by
  have kt := (CoreIs.stable (T := pageMoves) rfl j c)
  unfold State.evictDeep
  split
  · exact h
  · rename_i k l _ _
    dsimp only
    split
    · rename_i deep
      split
      · exact State.pinWait_keeps (kt.mono rfl) _ _ h
      · refine State.beginMoving_other _ _ (h.of (State.touchEntry_tbl _ _)) ?_
        rintro rfl
        have : (s.sess j).core.st = .parkedDeep := deep.2
        rw [h.2] at this
        exact n this
    · split
      · rename_i e
        refine State.addMove_core _ ?_
        have := (OkOpt.bind (Q := fun _ => True) (R := fun p : Nat × Nat × State => CoreIs j c p.2.2) OkOpt.any (fun r _ => OkOpt.map (State.takeFar_keeps (kt.mono rfl) s _ r ch h) fun b hb => hb)) _ e
        exact this
      · exact h

theorem State.evictOne_core {j : Nat} {c : Sess} {s : State} (ch tier : Nat) (only : Option Nat) (h : CoreIs j c s) (n : c.st ≠ .parkedDeep) : CoreIs j c (s.evictOne ch tier only) := by
  have kt := (CoreIs.stable (T := pageMoves) rfl j c)
  unfold State.evictOne
  split
  · exact h
  · split
    · split
      · exact h
      · rename_i k l _ _
        dsimp only
        have t := State.takeFrame_keeps (kt.mono rfl) s (s.sess k).dom ch 1 h
        split
        · rename_i a u e
          exact State.addMove_core _ (OkOP.get e t)
        · exact State.evictDeep_core _ _ h n
    · exact State.evictDeep_core _ _ h n

theorem State.starve_core {j : Nat} {c : Sess} {s : State} (d tier : Nat) (cs : List Nat) (h : CoreIs j c s) (n : c.st ≠ .parkedDeep) : CoreIs j c (s.starve d tier cs) := by
  unfold State.starve
  split
  · split
    · exact State.evictOne_core _ _ _ h n
    · exact h
  · exact each_keeps (P := CoreIs j c) (fun a u hu => State.evictOne_core _ _ _ ((CoreIs.stable (T := [.tm]) rfl j c).tm rfl _ _ hu) n) h

theorem State.allocWait_core {j : Nat} {c : Sess} {s : State} (k tier : Nat) (h : CoreIs j c s) (n : c.st ≠ .parkedDeep) : CoreIs j c (s.allocWait k tier) := by
  unfold State.allocWait
  dsimp only
  have k0 := (CoreIs.stable (T := [.ctr, .ev]) rfl j c)
  split
  · exact k0.ev rfl _ _ _ _ _ _ _ (k0.ctr rfl _ _ _ _ _ rfl (h.setSess _ rfl))
  · exact State.starve_core _ _ _ (k0.ev rfl _ _ _ _ _ _ _ (k0.ctr rfl _ _ _ _ _ rfl (h.setSess _ rfl))) n

theorem State.reserveDest_by {P : State → Prop} (st : Stable pageMoves P) (hp : PageOk P) {s : State} (k l tier : Nat) (h : P s) : OkOP (P) (s.reserveDest k l tier) := by
  have kt := st
  unfold State.reserveDest
  dsimp only
  split
  · exact OkOpt.none
  · split
    · exact OkOpt.map (State.takeFrame_keeps (kt.mono rfl) s _ _ 1 h) fun b hb => hb
    · exact OkOpt.map (State.takeFar_keeps (kt.mono rfl) s _ _ _ h) fun b hb => hb

theorem State.reserveAll_by {P : State → Prop} (st : Stable pageMoves P) (hp : PageOk P) {s : State} (k : Nat) (h : P s) : OkOP (P) (s.reserveAll k) := by
  unfold State.reserveAll
  exact OkOpt.fold (fun o e ho => OkOpt.bind ho fun b hb => OkOpt.map (State.reserveDest_by (st.mono rfl) hp k e.1 e.2 hb) fun b hb => hb) (OkOpt.some h)

theorem State.reserveAll_core {j : Nat} {c : Sess} {s : State} (k : Nat) (h : CoreIs j c s) : OkOP (CoreIs j c) (s.reserveAll k) := State.reserveAll_by (CoreIs.stable rfl j c) (CoreIs.pageOk j c) k h

theorem State.landImport_by {P : State → Prop} (st : Stable pageMoves P) (hp : PageOk P) {s : State} (k : Nat) (h : P s) : OkO (P) (s.landImport k) := by
  have kt := st
  unfold State.landImport
  refine OkOpt.fold (fun o e ho => OkOpt.bind ho fun b hb => OkOpt.find fun ch => OkOpt.map (State.takeFrame_keeps (kt.mono rfl) b _ _ 1 hb) fun r hr => ?_) (OkOpt.some h)
  dsimp only
  exact hp.page (State.written_keeps (kt.mono rfl) r.2 _ ch 1 _ hr).snd _ _ _

theorem State.landImport_core {j : Nat} {c : Sess} {s : State} (k : Nat) (h : CoreIs j c s) : OkO (CoreIs j c) (s.landImport k) := State.landImport_by (CoreIs.stable rfl j c) (CoreIs.pageOk j c) k h

theorem map_again (r : Option Run) (n : Nat) : ((r.map fun y => { y with moved := y.moved + n }).map fun y => { y with moved := 0 }) = r.map fun y => { y with moved := 0 } := by
  cases r <;> rfl

theorem map_moved (r : Option Run) (n : Nat) : ((r.map fun y => { y with moved := n }).map fun y => { y with moved := 0 }) = r.map fun y => { y with moved := 0 } := by
  cases r <;> rfl

/-- No page of slot k's session is stale (R172). -/
def State.noneStale (s : State) (k : Nat) : Prop := ∀ e ∈ (s.sess k).pages, s.stale e.2 = false

/-- Which pages are stale depends on the functions' states, on the channels' starts and on the page list. -/
theorem State.noneStale.of {s v : State} {k : Nat} (h : s.noneStale k) (e1 : v.fns = s.fns) (e2 : v.nv = s.nv) (e3 : (v.sess k).pages = (s.sess k).pages) : v.noneStale k := by
  intro e he
  have t : v.stale e.2 = s.stale e.2 := by
    unfold State.stale State.chOn State.isOn State.fn State.startsOf
    rw [e1, e2]
  rw [t]
  exact h e (e3 ▸ he)

theorem State.meetStale_none {s : State} {k : Nat} (h : s.noneStale k) (go : State → State) : s.meetStale k go = go s := by
  unfold State.meetStale
  rw [List.filter_eq_nil_iff.mpr fun e he => by rw [h e he]; decide]

theorem State.issueMoves_core {j : Nat} {c : Sess} {s : State} (k : Nat) (h : CoreIs j c s) (n : c.st ≠ .parkedDeep) (f : s.noneStale k) : CoreIs j c (s.issueMoves k) := by
  unfold State.issueMoves
  dsimp only
  split
  · exact h
  · split
    · have t := State.landImport_core k h
      split
      · exact State.allocWait_core _ _ h n
      · rename_i u e
        exact (OkO.get e t).setSess _ rfl
    · rw [State.meetStale_none f]
      have t := State.reserveAll_core k h
      split
      · exact State.allocWait_core _ _ h n
      · rename_i ms u e
        refine each_keeps (P := CoreIs j c) (fun m v hv => State.addMove_core m hv) ?_
        refine (OkOP.get e t).setSess _ ?_
        unfold Sess.core
        dsimp only
        rw [map_again]

theorem State.newPage_by {P : State → Prop} (st : Stable pageMoves P) (hp : PageOk P) {s : State} (k l : Nat) (h : P s) : OkO (P) (s.newPage k l) := by
  have kt := st
  unfold State.newPage
  exact OkOpt.map (State.placeNear_keeps (kt.mono rfl) s k l h) fun r hr => hp.page hr _ _ _

theorem State.rebuildList_by {P : State → Prop} (st : Stable pageMoves P) (hp : PageOk P) {s : State} (k : Nat) (h : P s) : P (s.rebuildList k) := by
  unfold State.rebuildList
  exact hp _ _ _ rfl h

theorem State.rebuildList_core {j : Nat} {c : Sess} {s : State} (k : Nat) (h : CoreIs j c s) : CoreIs j c (s.rebuildList k) := State.rebuildList_by (CoreIs.stable rfl j c) (CoreIs.pageOk j c) k h

theorem State.reserveRevival_by {P : State → Prop} (st : Stable pageMoves P) (hp : PageOk P) {s : State} (k : Nat) (h : P s) : OkOP (P) (s.reserveRevival k) := by
  have kt := st
  unfold State.reserveRevival
  dsimp only
  refine OkOpt.fold (fun o l ho => OkOpt.bind ho fun a ha => ?_) (OkOpt.map (Q := P) ?_ fun b hb => hb)
  · split
    · exact OkOpt.some ha
    · split
      · exact OkOpt.some ha
      · refine OkOpt.map (State.placeNear_keeps (kt.mono rfl) a.2 k l ha) fun r hr => ?_
        split
        · exact hp.page hr _ _ _
        · exact hr
  · exact OkOpt.fold (fun o l ho => OkOpt.bind ho fun b hb => State.newPage_by (st.mono rfl) hp k l hb) (OkOpt.some h)

theorem State.reserveRevival_core {j : Nat} {c : Sess} {s : State} (k : Nat) (h : CoreIs j c s) : OkOP (CoreIs j c) (s.reserveRevival k) := State.reserveRevival_by (CoreIs.stable rfl j c) (CoreIs.pageOk j c) k h

theorem State.issueRevival_core {j : Nat} {c : Sess} {s : State} (k : Nat) (h : CoreIs j c s) (n : c.st ≠ .parkedDeep) (f : s.noneStale k) : CoreIs j c (s.issueRevival k) := by
  unfold State.issueRevival
  dsimp only
  split
  · exact h
  · rw [State.meetStale_none f]
    have h1 : CoreIs j c (s.when ((s.sess k).slate && decide ((s.sess k).policy = 0)) fun s => s.rebuildList k) := when_keeps (P := CoreIs j c) (fun u hu => State.rebuildList_core k hu) h
    have t := State.reserveRevival_core k h1
    split
    · exact State.allocWait_core _ _ h n
    · rename_i ms u e
      refine each_keeps (P := CoreIs j c) (fun m v hv => State.addMove_core m hv) ?_
      refine (OkOP.get e t).setSess _ ?_
      unfold Sess.core
      dsimp only
      rw [map_moved]

theorem State.cutPage_by {P : State → Prop} (st : Stable pageMoves P) (hp : PageOk P) {s : State} (k l n : Nat) (h : P s) : P (s.cutPage k l n) := by
  unfold State.cutPage
  split
  · exact h
  · split
    · exact State.dropPage_by st hp _ _ h
    · split
      · exact hp.page h _ _ _
      · exact h

theorem State.cutKv_by {P : State → Prop} (st : Stable pageMoves P) (hp : PageOk P) {s : State} (k n a b : Nat) (h : P s) : OkP P (s.cutKv k n a b) := by
  unfold State.cutKv
  dsimp only
  refine OkP.mk (hp _ _ _ rfl (each_keeps (P := P) (fun e u hu => ?_) h))
  split
  · exact when_keeps (P := P) (fun v hv => State.dropPage_by st hp _ _ hv) hu
  · split
    · exact State.cutPage_by st hp _ _ _ hu
    · exact hu

theorem State.Ready.at {s : State} {k op t : Nat} {q : QDesc} {rest : List QDesc} (h : s.Ready k op q rest) : (s.at t).Ready k op q rest := ⟨h.ring, h.op, h.free, h.room, h.held, h.opened, h.idle, h.unreserved, h.tables⟩

theorem takeCmd_late {s : State} {k op : Nat} {q : QDesc} {rest : List QDesc} (h : s.Ready k op q rest) (l : s.isLate q.d.deadline = true) (go : QDesc → State → State) :
    s.takeCmd k op go = s.endHead k stDeadline 0 := by
  unfold State.takeCmd State.takeHead
  rw [if_neg (by rw [h.idle, h.unreserved]; decide)]
  dsimp only
  rw [h.ring]
  dsimp only
  rw [if_neg (by rw [h.op, h.free, h.room, h.held, h.opened]; simp), if_pos l]

theorem takeCmd_lost {s : State} {k op : Nat} {q : QDesc} {rest : List QDesc} (h : s.Ready k op q rest) (l : s.isLate q.d.deadline = false) (p : s.pk.st = .lost ∧ admits op = true) (go : QDesc → State → State) :
    s.takeCmd k op go = s.endHead k stPickLost 0 := by
  unfold State.takeCmd State.takeHead
  rw [if_neg (by rw [h.idle, h.unreserved]; decide)]
  dsimp only
  rw [h.ring]
  dsimp only
  rw [if_neg (by rw [h.op, h.free, h.room, h.held, h.opened]; simp), if_neg (by rw [l]; decide), if_pos p]

theorem takeCmd_wait {s : State} {k op : Nat} {q : QDesc} {rest : List QDesc} (h : s.Ready k op q rest) (l : s.isLate q.d.deadline = false) (p : ¬(s.pk.st = .lost ∧ admits op = true))
    (w : matrix (s.sess k).st op = .w) (go : QDesc → State → State) : s.takeCmd k op go = s := by
  unfold State.takeCmd State.takeHead
  rw [if_neg (by rw [h.idle, h.unreserved]; decide)]
  dsimp only
  rw [h.ring]
  dsimp only
  rw [if_neg (by rw [h.op, h.free, h.room, h.held, h.opened]; simp), if_neg (by rw [l]; decide), if_neg p, if_pos w]

theorem takeCmd_goes {s : State} {k op : Nat} {q : QDesc} {rest : List QDesc} (h : s.Goes k op q rest) (go : QDesc → State → State) : s.takeCmd k op go = go q (s.taking k q) := by
  unfold State.takeCmd State.takeHead State.taking
  rw [if_neg (by rw [h.idle, h.unreserved]; decide)]
  dsimp only
  rw [h.ring]
  dsimp only
  rw [if_neg (by rw [h.op, h.free, h.room, h.held, h.opened]; simp), if_neg (by rw [h.inTime]; decide), if_neg h.picks, if_neg h.cell, h.op]

theorem taking_is {s : State} {k : Nat} {q : QDesc} (h : Tbl.sorted s.ss.tbl) : SessIs k { s.sess k with prio := s.prioOf k q } (s.taking k q) := by
  have h0 : SessIs k (s.sess k) s := ⟨h, rfl⟩
  have h1 : SessIs k (s.sess k) (s.when (decide (q.inSt = 0)) fun s => s.touchEntry k) := when_keeps (P := SessIs k (s.sess k)) (fun u hu => hu.of (State.touchEntry_tbl _ _)) h0
  have h2 : ∀ x : Entry, x.acc ≠ .ro → x ∈ Dict.table → ∀ d, (s.when (decide (q.inSt = 0)) fun s => s.touchEntry k).reg x 0 d = s.reg x 0 d := fun x hx hm d =>
    when_keeps (P := s.sameSettings) (fun u hu => State.touchEntry_keeps (P := s.sameSettings) (frame_settings rfl s) u k hu) (fun _ _ _ _ _ => rfl) x hm hx 0 d
  unfold State.taking State.prioOf
  dsimp only
  generalize (s.when (decide (q.inSt = 0)) fun s => s.touchEntry k) = z at *
  unfold State.when
  split
  · dsimp only
    rw [h1.2, h2 _ (by decide) (by decide +kernel)]
    exact h1.set _
  · exact h1

theorem taking_keeps {P : State → Prop} (h : Stable [.ctr, .ss, .ev] P) {s : State} {k : Nat} {q : QDesc} (hs : P s) : P (s.taking k q) := by
  unfold State.taking
  exact when_keeps (P := P) (fun u hu => h.ss rfl _ _ hu) (when_keeps (P := P) (fun u hu => State.touchEntry_keeps h _ _ hu) hs)

/-! ### The completion queue -/

theorem touchEntry_cq (s : State) (k : Nat) : (s.touchEntry k).ss.cq = s.ss.cq := by
  have g : ∀ (z : State) (e : Entry) (he : e.acc = .ro) (n sub i : Nat) (a : Nat) (b : Option Nat) (c d : Nat) (f g : Option Nat), ((z.inc e n sub i).ev a b c d f g).ss.cq = z.ss.cq := fun z e he n sub i a b c d f g =>
    (congrArg Sessions.cq (State.ev_ss _ _ _ _ _ _ _) :)
  unfold State.touchEntry
  dsimp only
  split
  · split <;> exact g _ _ rfl _ _ _ _ _ _ _ _ _
  · split <;> exact g _ _ rfl _ _ _ _ _ _ _ _ _

theorem taking_cq (s : State) (k : Nat) (q : QDesc) : (s.taking k q).ss.cq = s.ss.cq := by
  unfold State.taking
  exact when_keeps (P := fun u => u.ss.cq = s.ss.cq) (fun u hu => hu) (when_keeps (P := fun u => u.ss.cq = s.ss.cq) (fun u hu => (touchEntry_cq u k).trans hu) rfl)

theorem popHead_cq (s : State) (k : Nat) : (s.popHead k).ss.cq = s.ss.cq := by
  unfold State.popHead
  dsimp only
  split
  · rfl
  · exact (congrArg Sessions.cq (State.ev_ss _ _ _ _ _ _ _) :)

theorem cqRoom_eq {s v : State} (h1 : v.sl = s.sl) (h2 : v.regs = s.regs) (h3 : v.ss.cq = s.ss.cq) (d : Nat) : v.cqRoom d = s.cqRoom d := by
  unfold State.cqRoom State.flowReady State.flow State.ioFlow State.cq State.reg
  rw [h1, h2, h3]

theorem cq_setCq {s : State} (h : Tbl.sorted s.ss.cq) (d : Nat) (q : CQ) : (s.setCq d q).cq d = q := by
  unfold State.cq State.setCq
  dsimp only
  rw [Tbl.get_put h, if_pos rfl]

theorem cq_of_ss {s u : State} (e : u.ss = s.ss) (d : Nat) : u.cq d = s.cq d := by
  unfold State.cq
  rw [e]

theorem writeRec_cq {s : State} (h : Tbl.sorted s.ss.cq) (d : Nat) (r : Rec) : ((s.writeRec d r).cq d).written = ((s.cq d).written + 1) % 2 ^ 32 ∧ Tbl.sorted (s.writeRec d r).ss.cq := by
  unfold State.writeRec
  dsimp only
  generalize hz : s.setCq d { (s.cq d) with written := ((s.cq d).written + 1) % 2 ^ 32 } = z
  have e : ∀ f key off b, (z.txWrite f key off b).ss = z.ss := fun f key off b => State.txWrite_keeps (P := fun u => u.ss = z.ss) (frame_ss rfl z) z _ _ _ _ _ rfl
  constructor
  · rw [cq_of_ss (e _ _ _ _), ← hz, cq_setCq h]
  · rw [e, ← hz]
    exact Tbl.put_sorted h

theorem holdRec_cq {s : State} (h : Tbl.sorted s.ss.cq) (d : Nat) (r : Rec) (a b : Bool) (n : Option Nat) : ((s.holdRec d r a b n).cq d).written = (s.cq d).written ∧
    ∃ hub, ((s.holdRec d r a b n).cq d).held = (s.cq d).held ++ [{ r := r, notif := a, hub := hub, wantsNotif := b, drun := n }] := by
  unfold State.holdRec
  dsimp only
  have e : ∀ z : State, ∀ w : Nat, (z.hubRose d w).ss = z.ss := fun z w => State.hubRose_keeps (P := fun u => u.ss = z.ss) (frame_ss rfl z) z _ _ rfl
  rw [cq_of_ss (e _ _), cq_setCq h]
  exact ⟨rfl, _, rfl⟩

theorem postNotif_cq {s : State} (h : Tbl.sorted s.ss.cq) (d : Nat) (r : Rec) : ((s.postNotif d r).cq d).written = (s.cq d).written := by
  unfold State.postNotif State.sendNotif
  dsimp only
  split
  · rfl
  · split
    · split
      · have e : (((s.txSend (s.reg Dict.dsessNotifyFlow 0 d) r.bytes).ev 0x08F none 1 0 (some d)).ev 0x19A none 1 (s.reg Dict.dsessNotifyFlow 0 d) (some d)).ss = s.ss :=
          (State.ev_ss _ _ _ _ _ _ _).trans ((State.ev_ss _ _ _ _ _ _ _).trans (State.txSend_keeps (P := fun u => u.ss = s.ss) (frame_ss rfl s) s _ _ rfl))
        rw [cq_of_ss e]
      · generalize hz : s.setCq d { (s.cq d) with flushing := (s.cq d).flushing ++ [r] } = z
        have e : (z.txFlush (s.ioFlow d) (.notifFlush d)).ss = z.ss := State.txFlush_keeps (P := fun u => u.ss = z.ss) (frame_ss rfl z) z _ _ rfl
        rw [cq_of_ss e, ← hz, cq_setCq h]
    · exact (holdRec_cq h _ _ _ _ _).1

theorem record_posts {s : State} (h : Tbl.sorted s.ss.cq) {d : Nat} (st : s.stalled d = false) (hd sq op a b c f : Nat) (w : Bool) (n : Option Nat) :
    s.posts d (fun r => r.handle = hd ∧ r.seq = sq ∧ r.opcode = op ∧ r.status = a ∧ r.progress = b % 2 ^ 32) (s.record d hd sq op a b c f w n) := by
  have he : (s.cq d).held = [] := by
    unfold State.stalled at st
    exact Decidable.of_not_not (of_decide_eq_false st)
  unfold State.record State.postRec State.posts
  dsimp only
  rw [st]
  constructor
  · intro r
    rw [r, if_pos (by rfl)]
    obtain ⟨w1, w2⟩ := writeRec_cq h d { handle := hd, seq := sq, opcode := op, status := a, progress := b % 2 ^ 32, outLen := c % 2 ^ 32, pick := s.pk.current % 2 ^ 48, ns := s.stampNow.ns, flags := f + 1024 * b2n s.pk.hold }
    unfold State.when
    split
    · rw [postNotif_cq w2, w1]
    · exact w1
  · intro r
    rw [r, if_neg (by decide)]
    obtain ⟨hub, e⟩ := (holdRec_cq h d { handle := hd, seq := sq, opcode := op, status := a, progress := b % 2 ^ 32, outLen := c % 2 ^ 32, pick := s.pk.current % 2 ^ 48, ns := s.stampNow.ns, flags := f + 1024 * b2n s.pk.hold } false w n).2
    rw [e, he]
    exact ⟨_, rfl, rfl, rfl, rfl, rfl, rfl, rfl⟩

theorem State.posts.at' {s u w : State} {d : Nat} {p : Rec → Prop} (h : s.posts d p u) (e : w.ss = u.ss) : s.posts d p w := by
  have e' : w.cq d = u.cq d := by unfold State.cq; rw [e]
  unfold State.posts at h ⊢
  rw [e']
  exact h

theorem endDesc_posts {s : State} (h : Tbl.sorted s.ss.cq) {q : QDesc} (st : s.stalled q.dom = false) (a b c f : Nat) : s.posts q.dom (Rec.completes q a b) (s.endDesc q a b c f) := by
  have tail : ∀ z : State, ∀ w1 w2 : Bool, ∀ ch : Nat, ((((z.when w1 fun s => (s.inc Dict.dsessDeadlineMissCount 1 0 q.dom).ev 0x08A (some ch) 1 q.d.session (some q.dom) (some q.d.session)).when w2 fun s => s.inc Dict.ckptHoldCount).ev
      0x083 (some ch) 1 q.d.session (some q.dom) (some q.d.session)).ss) = z.ss := fun z w1 w2 ch =>
    (State.ev_ss _ _ _ _ _ _ _).trans (when_keeps (P := fun u => u.ss = z.ss) (fun u hu => hu) (when_keeps (P := fun u => u.ss = z.ss) (fun u hu => (State.ev_ss _ _ _ _ _ _ _).trans hu) rfl))
  unfold State.endDesc
  dsimp only
  exact (record_posts h st _ _ _ _ _ _ _ _ none).at' (tail _ _ _ _)

theorem State.posts.from {s v u : State} {d : Nat} {p : Rec → Prop} (h : v.posts d p u) (h1 : v.cqRoom d = s.cqRoom d) (h2 : v.ss.cq = s.ss.cq) : s.posts d p u := by
  have e : v.cq d = s.cq d := by unfold State.cq; rw [h2]
  unfold State.posts at h ⊢
  rw [← h1, ← e]
  exact h

theorem setSess_cq (s : State) (k : Nat) (x : Sess) : (s.setSess k x).ss.cq = s.ss.cq := rfl

theorem stalled_setSess (s : State) (k : Nat) (x : Sess) (d : Nat) : (s.setSess k x).stalled d = s.stalled d := rfl

theorem endHead_ends {v : State} {k : Nat} {q : QDesc} {rest : List QDesc} {x : Sess} (h : SessIs k x v) (hr : x.ring = q :: rest) (hc : Tbl.sorted v.ss.cq) (st : v.stalled q.dom = false) (a b : Nat) :
    (v.endHead k a b).sess k = { x.popped rest with deadline := 0 } ∧ v.posts q.dom (Rec.completes q a b) (v.endHead k a b) := by
  refine ⟨(h.endHead hr a b).2, ?_⟩
  have e : v.endHead k a b = ((v.popHead k).setSess k { (v.popHead k).sess k with deadline := 0 }).endDesc q a b 0 0 := by
    unfold State.endHead
    rw [h.2, hr]
  have c := popHead_cq v k
  have s2 : (v.popHead k).stalled q.dom = false := by
    unfold State.stalled State.cq at st ⊢
    rw [c]
    exact st
  rw [e]
  have s3 : Tbl.sorted (v.popHead k).ss.cq := by rw [c]; exact hc
  refine State.posts.from (v := (v.popHead k).setSess k { (v.popHead k).sess k with deadline := 0 }) (endDesc_posts ((setSess_cq _ _ _).symm ▸ s3) ((stalled_setSess _ _ _ _).trans s2) a b 0 0) ?_ ((setSess_cq _ _ _).trans c)
  have k1 : ∀ {P : State → Prop}, Stable [.ss, .ev] P → P v → P (v.popHead k) := fun {P} h hs => by
    unfold State.popHead
    dsimp only
    split
    · exact hs
    · exact h.ev rfl _ _ _ _ _ _ _ (h.ss rfl _ _ hs)
  exact cqRoom_eq ((State.setSess_sl _ _ _).trans (k1 (P := fun u => u.sl = v.sl) (frame_sl rfl v) rfl)) ((State.setSess_regs _ _ _).trans (k1 (P := fun u => u.regs = v.regs) (frame_regs rfl v) rfl)) ((setSess_cq _ _ _).trans c) q.dom

/-- The state in which a ready command checks its operands keeps what the ring's head says. -/
theorem taking_ready {s : State} {k op : Nat} {q : QDesc} {rest : List QDesc} (r : s.Ready k op q rest) : (s.taking k q).stalled q.dom = false ∧ Tbl.sorted (s.taking k q).ss.cq ∧
    SessIs k { s.sess k with prio := s.prioOf k q } (s.taking k q) := by
  refine ⟨?_, by rw [taking_cq]; exact r.tables.2, taking_is r.tables.1⟩
  have := r.room
  unfold State.stalled State.cq at this ⊢
  rw [taking_cq]
  exact this

theorem pickHandle_val {f c : Nat} {g : Nat → Bool} {h : Nat} (e : pickHandle f c g = some h) : h = if f = 0 then c else f := by
  unfold pickHandle at e
  split at e
  · rename_i q
    rw [if_pos q]
    exact (Option.some.inj e).symm
  · rename_i q
    rw [if_neg q]
    split at e
    · exact (Option.some.inj e).symm
    · split at e
      · exact (Option.some.inj e).symm
      · cases e

theorem pickHandle_some {f c c' : Nat} {g : Nat → Bool} : (pickHandle f c g).isSome = (pickHandle f c' g).isSome := by
  unfold pickHandle
  split
  · rfl
  · rfl

theorem SessIs.resetGrammar {k : Nat} {x : Sess} {s : State} (h : SessIs k x s) :
    SessIs k (if x.gstate ≠ gNone then { x with gstate := gNone, ctx := { x.ctx with stack := [] } } else x) (s.resetGrammar k) := by
  unfold State.resetGrammar
  dsimp only
  rw [h.2]
  by_cases g : x.gstate = gNone
  · rw [if_pos g, if_neg (fun q => q g)]
    exact h
  · rw [if_neg g, if_pos g]
    exact (h.set { x with gstate := gNone, ctx := { x.ctx with stack := [] } }).of (incEv_tbl _ _ rfl _ _ _ _ _ _ _ _ _)

theorem bindHandles_is {k d : Nat} {x : Sess} {s u : State} {q : QDesc} (h : SessIs k x s) (e : s.bindHandles k d q = some u) : SessIs k (x.bind q) u := by
  unfold State.bindHandles at e
  dsimp only at e
  rw [h.2] at e
  split at e
  · rename_i g st sm e1 e2 e3
    have e := Option.some.inj e
    rw [← e]
    have h1 : SessIs k (if q.d.grammar ≠ 0 ∧ x.gstate ≠ gNone then { x with gstate := gNone, ctx := { x.ctx with stack := [] } } else x) (s.when (decide (q.d.grammar ≠ 0)) fun s => s.resetGrammar k) := by
      unfold State.when
      by_cases g0 : q.d.grammar ≠ 0
      · rw [if_pos (decide_eq_true g0)]
        have := h.resetGrammar
        by_cases g1 : x.gstate ≠ gNone
        · rw [if_pos ⟨g0, g1⟩]
          rw [if_pos g1] at this
          exact this
        · rw [if_neg (fun q => g1 q.2)]
          rw [if_neg g1] at this
          exact this
      · rw [if_neg (fun q => g0 (of_decide_eq_true q)), if_neg (fun q => g0 q.1)]
        exact h
    rw [h1.2]
    have := h1.set { (if q.d.grammar ≠ 0 ∧ x.gstate ≠ gNone then { x with gstate := gNone, ctx := { x.ctx with stack := [] } } else x) with grammar := g, stop := st, sampling := sm }
    rw [pickHandle_val e1, pickHandle_val e2, pickHandle_val e3] at this ⊢
    exact this
  · cases e

theorem handlesOk_tx {k d : Nat} {s z : State} {q : QDesc} (h : z.tx = s.tx) : z.handlesOk k d q = s.handlesOk k d q := by
  have key : ∀ y : State, y.handlesOk k d q = ((pickHandle q.d.grammar 0 fun h => (y.grammar d h).isSome || y.tx.newG.any fun e => e.1 == d * 1024 + h).isSome &&
      (pickHandle q.d.stopSet 0 fun h => (y.stopSet d h).isSome || y.tx.newS.any fun e => e.1 == d * 1024 + h).isSome &&
      (pickHandle q.d.sampling 0 fun h => (y.profile d h).isSome || y.tx.newP.any fun e => e.1 == d * 1024 + h).isSome) := fun y => by
    unfold State.handlesOk State.bindHandles
    dsimp only
    rw [pickHandle_some (c := 0) (c' := (y.sess k).grammar), pickHandle_some (c := 0) (c' := (y.sess k).stop), pickHandle_some (c := 0) (c' := (y.sess k).sampling)]
    generalize pickHandle q.d.grammar _ _ = a
    generalize pickHandle q.d.stopSet _ _ = b
    generalize pickHandle q.d.sampling _ _ = c
    cases a <;> cases b <;> cases c <;> rfl
  rw [key, key]
  unfold State.grammar State.stopSet State.profile
  rw [h]

theorem bound_is {k d : Nat} {x : Sess} {s : State} {q : QDesc} (h : SessIs k x s) (e : s.handlesOk k d q = true) : SessIs k (x.bind q) (s.bound k d q) := by
  unfold State.handlesOk at e
  unfold State.bound
  cases b : s.bindHandles k d q with
  | none => rw [b] at e; cases e
  | some u => exact bindHandles_is h b

theorem bound_keeps {P : State → Prop} (h : Stable [.ctr, .ss, .ev] P) {s : State} {k d : Nat} {q : QDesc} (hs : P s) : P (s.bound k d q) := OkOpt.getD (State.bindHandles_keeps h s k d q hs) hs

theorem popHead_keeps {P : State → Prop} (h : Stable [.ss, .ev] P) {v : State} {k : Nat} (hs : P v) : P (v.popHead k) := by
  unfold State.popHead
  dsimp only
  split
  · exact hs
  · exact h.ev rfl _ _ _ _ _ _ _ (h.ss rfl _ _ hs)

theorem startRun_is {k : Nat} {x : Sess} {s : State} {q q' : QDesc} {rest : List QDesc} (h : SessIs k x s) (hr : x.ring = q' :: rest) : SessIs k (x.started q rest s.pk.current) (s.startRun k q) := by
  unfold State.startRun
  dsimp only
  have h1 := h.popHead hr
  rw [h1.2]
  have c : (s.popHead k).pk.current = s.pk.current := (congrArg Pick.current (popHead_keeps (P := fun u => u.pkRest = s.pkRest) (frame_pkRest rfl s) rfl) :)
  rw [c]
  exact h1.set _

theorem startRun_keeps {P : State → Prop} (h : Stable [.ss, .ev] P) {v : State} {k : Nat} {q : QDesc} (hs : P v) : P (v.startRun k q) := h.ss rfl _ _ (popHead_keeps h hs)

theorem toState_is {k : Nat} {x : Sess} {s : State} (h : SessIs k x s) (st : SSt) : SessIs k { x with st := st, since := s.pk.current } (s.toState k st) := by
  unfold State.toState
  dsimp only
  rw [h.2]
  split
  · exact (h.set _).ev _ _ _ _ _ _
  · split
    · exact (h.set _).ev _ _ _ _ _ _
    · exact h.set _

theorem setHead_is {k : Nat} {x : Sess} {s : State} {q q' : QDesc} {rest : List QDesc} (h : SessIs k x s) (hr : x.ring = q' :: rest) : SessIs k { x with ring := q :: rest } (s.setHead k q) := by
  unfold State.setHead
  dsimp only
  rw [h.2, hr]
  exact h.set _

theorem withInput_ready {k : Nat} {s : State} {q : QDesc} {go : QDesc → State → State} (h : q.inSt = 2 ∨ q.inSt = 0 ∧ q.d.dataLen = 0) : s.withInput k q go = go { q with inSt := 2 } s := by
  unfold State.withInput State.fetch
  rcases h with h | ⟨h, h'⟩
  · have e : ({ q with inSt := 2 } : QDesc) = q := by rw [← h]
    rw [if_pos (by rw [h]; decide), e]
    dsimp only
    rw [if_pos h]
  · rw [if_neg (fun c => c h), if_pos h']
    rfl

theorem bind_ring (x : Sess) (q : QDesc) (r : List QDesc) : Sess.bind { x with ring := r } q = { x.bind q with ring := r } := by
  unfold Sess.bind
  dsimp only
  split <;> rfl

theorem bind_kept (x : Sess) (q : QDesc) : (x.bind q).ring = x.ring ∧ (x.bind q).st = x.st ∧ (x.bind q).generated = x.generated ∧ (x.bind q).dom = x.dom ∧ (x.bind q).tokens = x.tokens ∧ (x.bind q).sver = x.sver ∧
    (x.bind q).model = x.model ∧ (x.bind q).lost = x.lost := by
  unfold Sess.bind
  split <;> exact ⟨rfl, rfl, rfl, rfl, rfl, rfl, rfl, rfl⟩

theorem bound_current {s : State} {k d : Nat} {q : QDesc} : (s.bound k d q).pk.current = s.pk.current :=
  (congrArg Pick.current (bound_keeps (P := fun u => u.pkRest = s.pkRest) (frame_pkRest rfl s) (s := s) (k := k) (d := d) (q := q) rfl) :)

theorem startRun_current {s : State} {k : Nat} {q : QDesc} : (s.startRun k q).pk.current = s.pk.current :=
  (congrArg Pick.current (startRun_keeps (P := fun u => u.pkRest = s.pkRest) (frame_pkRest rfl s) (v := s) (k := k) (q := q) rfl) :)

theorem bound_tx {s : State} {k d : Nat} {q : QDesc} : (s.bound k d q).tx = s.tx := bound_keeps (P := fun u => u.tx = s.tx) (frame_tx rfl s) (s := s) rfl

theorem startRun_tx {s : State} {k : Nat} {q : QDesc} : (s.startRun k q).tx = s.tx := startRun_keeps (P := fun u => u.tx = s.tx) (frame_tx rfl s) (v := s) rfl

/-- A command whose head is set, whose handles are bound and which starts. -/
theorem begun_is {k : Nat} {x : Sess} {s : State} {q q' : QDesc} {rest : List QDesc} (h : SessIs k x s) (hr : x.ring = q :: rest) {d : Nat} (ok : s.handlesOk k d q' = true) :
    SessIs k ((x.bind q').started q' rest s.pk.current) (((s.setHead k q').bound k d q').startRun k q') := by
  have a1 := setHead_is (q := q') h hr
  have a2 := bound_is (d := d) a1 (q := q') ((handlesOk_tx (q := q') (s := s) (z := s.setHead k q') rfl).trans ok)
  rw [bind_ring] at a2
  have a3 := startRun_is a2 (q := q') rfl
  rw [bound_current] at a3
  exact a3

theorem goes_at {s : State} {k op t : Nat} {q : QDesc} {rest : List QDesc} (h : s.Goes k op q rest) : (s.at t).Goes k op q rest := ⟨h.toReady.at, h.inTime, h.picks, h.cell⟩

/-- What the state in which the checks are made has from s. -/
theorem taking_facts {s : State} {t k op : Nat} {q : QDesc} {rest : List QDesc} (h : s.Goes k op q rest) :
    let v := (s.at t).taking k q
    SessIs k (v.sess k) v ∧ (v.sess k).ring = q :: rest ∧ v.pk.current = s.pk.current ∧ v.ss.cq = s.ss.cq ∧ v.stalled q.dom = false := by
  intro v
  obtain ⟨a, b, c⟩ := taking_ready (goes_at (t := t) h).toReady
  refine ⟨⟨c.1, rfl⟩, ?_, ?_, taking_cq _ _ _, a⟩
  · rw [c.2]
    exact h.ring
  · exact (congrArg Pick.current (taking_keeps (P := fun u => u.pkRest = s.pkRest) (frame_pkRest rfl (s.at t)) (s := s.at t) (k := k) (q := q) rfl) :)

theorem beginMoving_core {k a b : Nat} {s : State} {x : Sess} (h : SessIs k x s) (c : Nat) (hc : s.pk.current = c) :
    CoreIs k ({ x with st := .moving, prior := x.st, target := a, policy := b, pausedAt := c } : Sess).core (s.beginMoving k a b) := by
  unfold State.beginMoving
  dsimp only
  have d := State.dropDraft_core (j := k) k h.core
  have dc : (s.dropDraft k).pk.current = c := ((congrArg Pick.current (State.dropDraft_keeps (P := fun u => u.pkRest = s.pkRest) (frame_pkRest rfl s) s k rfl) :) : _ = s.pk.current).trans hc
  generalize s.dropDraft k = z at *
  have d1 : SessIs k (z.sess k) z := ⟨d.1, rfl⟩
  have d2 := toState_is (d1.set { z.sess k with prior := (z.sess k).st, target := a, policy := b, pausedAt := z.pk.current, reserved := false, waitFrom := none }) .moving
  have d3 := d2.set { ((z.setSess k { z.sess k with prior := (z.sess k).st, target := a, policy := b, pausedAt := z.pk.current, reserved := false, waitFrom := none }).toState k .moving).sess k with since := (z.sess k).since }
  refine ⟨d3.1, ?_⟩
  rw [d3.2, d2.2, dc]
  have key : ∀ y : Sess, Sess.core { y with st := .moving, prior := y.st, target := a, policy := b, pausedAt := c } = { y.core with st := .moving, prior := y.core.st, target := a, policy := b, pausedAt := c } := fun y => rfl
  rw [key x, ← d.2]
  rfl

theorem moveFor_core {k a b : Nat} {v : State} {x : Sess} {q : QDesc} {rest : List QDesc} (h : SessIs k x v) (hr : x.ring = q :: rest) (ok : v.handlesOk k q.dom q = true) {c : Nat} (hc : v.pk.current = c)
    (room : v.moverFull (chOf k) = false) (near : a ≠ 3) (f : (((v.bound k q.dom q).startRun k q).beginMoving k a b).noneStale k) :
    CoreIs k ({ (x.bind q).started q rest c with st := .moving, prior := x.st, target := a, policy := b, pausedAt := c } : Sess).core (v.moveFor k a b q) := by
  unfold State.moveFor
  rw [if_neg (by rw [room]; decide)]
  dsimp only
  rw [if_neg near]
  have a1 := bound_is h ok
  have a2 := startRun_is a1 (q := q) ((bind_kept _ _).1.trans hr)
  have pc : ((v.bound k q.dom q).startRun k q).pk.current = c := startRun_current.trans (bound_current.trans hc)
  rw [bound_current, hc] at a2
  have a3 := beginMoving_core (a := a) (b := b) a2 c pc
  have st : (Sess.started (x.bind q) q rest c).st = x.st := (bind_kept x q).2.1
  rw [st] at a3
  exact State.issueMoves_core k a3 (by intro h; cases h) f

theorem beginRevival_core {k : Nat} {s : State} {x : Sess} (h : SessIs k x s) (c : Nat) (hc : s.pk.current = c) (f : (s.dropDraft k).noneStale k) :
    CoreIs k ({ x with st := .reviving, prior := x.st, pausedAt := c } : Sess).core (s.beginRevival k) := by
  unfold State.beginRevival
  dsimp only
  have d := State.dropDraft_core (j := k) k h.core
  have dc : (s.dropDraft k).pk.current = c := ((congrArg Pick.current (State.dropDraft_keeps (P := fun u => u.pkRest = s.pkRest) (frame_pkRest rfl s) s k rfl) :) : _ = s.pk.current).trans hc
  generalize s.dropDraft k = z at *
  have d1 : SessIs k (z.sess k) z := ⟨d.1, rfl⟩
  have g1 : ∀ v : State, (v.toState k .reviving).fns = v.fns := fun v => State.toState_keeps (P := fun u => u.fns = v.fns) (frame_fns rfl v) v k _ rfl
  have g2 : ∀ v : State, (v.toState k .reviving).nv = v.nv := fun v => State.toState_keeps (P := fun u => u.nv = v.nv) (frame_nv rfl v) v k _ rfl
  have d2 := toState_is (d1.set { z.sess k with prior := (z.sess k).st, pausedAt := z.pk.current, reserved := false, waitFrom := none }) .reviving
  have d3 := d2.set { ((z.setSess k { z.sess k with prior := (z.sess k).st, pausedAt := z.pk.current, reserved := false, waitFrom := none }).toState k .reviving).sess k with since := (z.sess k).since }
  refine State.issueRevival_core k (c := ({ x with st := .reviving, prior := x.st, pausedAt := c } : Sess).core) ⟨d3.1, ?_⟩ (fun h => SSt.noConfusion h) ?_
  rotate_left
  · refine f.of ((State.setSess_fns _ _ _).trans ((g1 _).trans (State.setSess_fns _ _ _))) ((State.setSess_nv _ _ _).trans ((g2 _).trans (State.setSess_nv _ _ _))) ?_
    rw [d3.2, d2.2]
  rw [d3.2, d2.2, dc]
  have key : ∀ y : Sess, Sess.core { y with st := .reviving, prior := y.st, pausedAt := c } = { y.core with st := .reviving, prior := y.core.st, pausedAt := c } := fun y => rfl
  rw [key x, ← d.2]
  rfl

theorem State.posts.to {s u w : State} {d : Nat} {p : Rec → Prop} (h : s.posts d p u) (e : w.ss.cq = u.ss.cq) : s.posts d p w := by
  have e' : w.cq d = u.cq d := by unfold State.cq; rw [e]
  unfold State.posts at h ⊢
  rw [e']
  exact h

theorem ev_cq (s : State) (a : Nat) (b : Option Nat) (c d : Nat) (e f : Option Nat) : (s.ev a b c d e f).ss.cq = s.ss.cq := (congrArg Sessions.cq (State.ev_ss _ _ _ _ _ _ _) :)

theorem evS_ss (s : State) (k a n : Nat) : (s.evS k a n).ss = s.ss := when_keeps (P := fun u => u.ss = s.ss) (fun u hu => (State.ev_ss _ _ _ _ _ _ _).trans hu) rfl

theorem toState_cq (s : State) (k : Nat) (st : SSt) : (s.toState k st).ss.cq = s.ss.cq := by
  unfold State.toState
  dsimp only
  split
  · exact ev_cq _ _ _ _ _ _ _
  · split
    · exact ev_cq _ _ _ _ _ _ _
    · rfl

theorem toRest_is {k : Nat} {x : Sess} {s : State} (h : SessIs k x s) :
    SessIs k { x with st := x.rest, since := s.pk.current, ttl := if s.reg Dict.dtierParkDelay 0 x.dom = 0 then 0 else s.pk.current + s.reg Dict.dtierParkDelay 0 x.dom } (s.toRest k) := by
  unfold State.toRest
  dsimp only
  rw [h.2]
  have a3 := toState_is h x.rest
  have e1 : (s.toState k x.rest).regs = s.regs := State.toState_keeps (P := fun u => u.regs = s.regs) (frame_regs rfl s) s k x.rest rfl
  have e2 : (s.toState k x.rest).pk.current = s.pk.current := (congrArg Pick.current (State.toState_keeps (P := fun u => u.pkRest = s.pkRest) (frame_pkRest rfl s) s k x.rest rfl) :)
  generalize s.toState k x.rest = w at *
  rw [a3.2, e2]
  unfold State.reg
  rw [e1]
  exact a3.set _

theorem toRest_cq (s : State) (k : Nat) : (s.toRest k).ss.cq = s.ss.cq := toState_cq s k _

theorem endRun_is {k : Nat} {x : Sess} {s : State} {r : Run} (h : SessIs k x s) (hr : x.run = some r) (hc : Tbl.sorted s.ss.cq) (st : s.stalled r.q.dom = false) (a b c : Nat) :
    SessIs k x.ended (s.endRun k a b c) ∧ s.posts r.q.dom (Rec.completes r.q a b) (s.endRun k a b c) := by
  unfold State.endRun
  dsimp only
  rw [h.2, hr]
  dsimp only
  have z := h.set x.ended
  refine ⟨z.endDesc _ _ _ _ _, ?_⟩
  exact (endDesc_posts (s := s.setSess k x.ended) hc st a b c 0).from rfl rfl

theorem output_ss (s : State) (d v n a : Nat) (b : Bytes) (o : Option OpFor) : (s.output d v n a b o).ss = s.ss := State.output_keeps (P := fun u => u.ss = s.ss) (frame_ss rfl s) s _ _ _ _ _ _ rfl

theorem flushHeld_is {k : Nat} {x : Sess} {s : State} {r : Run} (h : SessIs k x s) (hr : x.run = some r) : (∃ c, SessIs k { x with ctx := c } (s.flushHeld k)) ∧ (s.flushHeld k).ss.cq = s.ss.cq := by
  unfold State.flushHeld
  dsimp only
  rw [h.2, hr]
  dsimp only
  split
  · generalize hz : s.output r.q.dom r.q.d.dataRef r.q.d.dataLen x.ctx.delivered (List.take (r.q.d.dataLen - x.ctx.delivered) x.ctx.held) (some (.sessIn k r.q.d.seq)) = z
    have e : z.ss = s.ss := by rw [← hz]; exact output_ss _ _ _ _ _ _ _
    have hz' : SessIs k x z := h.of (by rw [e])
    exact ⟨⟨_, hz'.set _⟩, by show z.ss.cq = _; rw [e]⟩
  · exact ⟨⟨x.ctx, by rw [← hr]; exact h⟩, rfl⟩

theorem releaseStage_is {k : Nat} {x : Sess} {s : State} (h : SessIs k x s) : SessIs k { x with stage := [] } (s.releaseStage k) ∧ (s.releaseStage k).ss.cq = s.ss.cq := by
  unfold State.releaseStage
  dsimp only
  have e : (s.each (s.sess k).stage fun e s => s.freeFrame e.2.1 0 e.2.2 false).ss = s.ss := each_keeps (P := fun u => u.ss = s.ss) (fun a u hu => State.freeFrame_keeps (P := fun u => u.ss = s.ss) (frame_ss rfl s) u _ _ _ _ hu) rfl
  generalize (s.each (s.sess k).stage fun e s => s.freeFrame e.2.1 0 e.2.2 false) = z at *
  have h1 : SessIs k x z := h.of (by rw [e])
  rw [h1.2]
  exact ⟨h1.set _, by show z.ss.cq = _; rw [e]⟩

/-- A running command that is stopped (R145, R160): its record is posted, and the session rests, or is HALTED. -/
theorem stopRun_is {k : Nat} {x : Sess} {s : State} {r : Run} (h : SessIs k x s) (hr : x.run = some r) (hc : Tbl.sorted s.ss.cq) (st : s.stalled r.q.dom = false) (a : Nat) :
    (∃ y, SessIs k y (s.stopRun k a) ∧ y.st = (if a = stDeadend ∨ a = stPageLost then .halted else x.rest) ∧ y.run = none ∧ y.deadline = 0 ∧ y.ring = x.ring ∧ y.length = x.length ∧ y.tokens = x.tokens) ∧
    ∃ (w : State) (n : Nat), w.ss.cq = s.ss.cq ∧ w.posts r.q.dom (Rec.completes r.q a n) (s.stopRun k a) := by
  unfold State.stopRun
  dsimp only
  obtain ⟨⟨c, h1⟩, q1⟩ := flushHeld_is h hr
  generalize s.flushHeld k = z at *
  obtain ⟨h2, q2⟩ := releaseStage_is h1
  rw [h1.2]
  generalize z.releaseStage k = z2 at *
  have st2 : z2.stalled r.q.dom = false := by
    unfold State.stalled State.cq at st ⊢
    rw [q2, q1]
    exact st
  obtain ⟨h3, p3⟩ := endRun_is h2 (r := r) hr (by rw [q2, q1]; exact hc) st2 a (Sess.doneSoFar { x with ctx := c }) (Sess.outLen { x with ctx := c })
  generalize z2.endRun k a (Sess.doneSoFar { x with ctx := c }) (Sess.outLen { x with ctx := c }) = z3 at *
  have tail : ∀ (b1 b2 : Bool) (d : Nat), (((z3.when b1 fun s => (s.inc Dict.grammarDeadendCount 1 0 (chOf k)).evS k 0x110).when b2 fun s => (s.inc Dict.dbudgetExhaustedCount 1 0 d).evS k 0x256).ss) = z3.ss := fun b1 b2 d =>
    when_keeps (P := fun u => u.ss = z3.ss) (fun u hu => (evS_ss _ _ _ _).trans hu) (when_keeps (P := fun u => u.ss = z3.ss) (fun u hu => (evS_ss _ _ _ _).trans hu) rfl)
  have t1 := tail (decide (a = stDeadend)) (decide (a = stBudget)) ({ x with ctx := c } : Sess).dom
  generalize ((z3.when (decide (a = stDeadend)) fun s => (s.inc Dict.grammarDeadendCount 1 0 (chOf k)).evS k 0x110).when (decide (a = stBudget)) fun s => (s.inc Dict.dbudgetExhaustedCount 1 0 ({ x with ctx := c } : Sess).dom).evS k 0x256) = z4 at *
  have h4 := h3.of (u := z4) (by rw [t1])
  refine ⟨?_, z2, _, q2.trans q1, p3.to ?_⟩
  · split
    · exact ⟨_, toState_is h4 _, rfl, rfl, rfl, rfl, rfl, rfl⟩
    · exact ⟨_, toRest_is h4, rfl, rfl, rfl, rfl, rfl, rfl⟩
  · split
    · rw [toState_cq, t1]
    · rw [toRest_cq, t1]

end Sys2Proof.Machine
end

