-- ==== Sys2Proof/Laws/Domains.lean ====
section
/-! SUPPORT. What the start and the completion of a command of a domain's control ring leave. -/

set_option linter.all false

namespace Sys2Proof.Machine

open Sys2Proof

/-! ### Domain control rings -/

/-- The state in which a command of a domain's ring that is taken does its work. -/
def State.started (s : State) (d : Nat) (q : QDesc) : State :=
  (s.setDring d { (s.dring d) with waiting := (s.dring d).waiting.drop 1, running := (s.dring d).running ++ [s.runOf d q], nextId := (s.dring d).nextId + 1 }).ev 0x082 none 1 0 (some d)

theorem ev_current (z : State) (a : Nat) (b : Option Nat) (c d : Nat) (e f : Option Nat) : (z.ev a b c d e f).pkRest = z.pkRest :=
  (frame_pkRest (T := [.ev]) rfl z).ev rfl z _ _ _ _ _ _ rfl

/-- What the start of a command leaves: the ring, and what an event leaves. -/
theorem started_facts (s : State) (d : Nat) (q : QDesc) :
    (s.started d q).ss = (s.setDring d { (s.dring d) with waiting := (s.dring d).waiting.drop 1, running := (s.dring d).running ++ [s.runOf d q], nextId := (s.dring d).nextId + 1 }).ss ∧
    (s.started d q).pk.st = s.pk.st ∧ (s.started d q).pk.current = s.pk.current ∧ s.sameBut (.sessions :: noted) (s.started d q) := by
  have r : (s.started d q).pkRest = s.pkRest := ev_current _ _ _ _ _ _ _
  refine ⟨State.ev_ss _ _ _ _ _ _ _, (congrArg Pick.st r :), (congrArg Pick.current r :), ?_⟩
  exact frame_op (T := [.ss, .ev]) (by decide) fun {P} h hs => h.ev rfl _ _ _ _ _ _ _ (h.ss rfl s _ hs)

theorem started_ring {s : State} {d : Nat} {q : QDesc} (h : Tbl.sorted s.ss.rings) :
    (s.started d q).dring d = { (s.dring d) with waiting := (s.dring d).waiting.drop 1, running := (s.dring d).running ++ [s.runOf d q], nextId := (s.dring d).nextId + 1 } ∧ Tbl.sorted (s.started d q).ss.rings ∧
    (s.started d q).ss.cq = s.ss.cq ∧ (s.started d q).ss.tbl = s.ss.tbl := by
  obtain ⟨e, -⟩ := started_facts s d q
  refine ⟨?_, ?_, ?_, ?_⟩
  · unfold State.dring at *
    rw [e]
    unfold State.setDring
    dsimp only
    rw [Tbl.get_put h, if_pos rfl]
  · rw [e]
    exact Tbl.put_sorted h
  · rw [e]; rfl
  · rw [e]; rfl

theorem startDom_starts {s : State} {d op : Nat} {q : QDesc} {rest : List QDesc} (h : s.Starts d op q rest) (go : DRun → State → State) :
    s.startDom d op go = go (s.runOf d q) (s.started d q) := by
  obtain ⟨e, e2, e1, f⟩ := started_facts s d q
  have e3 : (s.started d q).ck = s.ck := f .checkpoint (by decide)
  have l : (s.started d q).isLate q.d.deadline = s.isLate q.d.deadline := by unfold State.isLate State.pick48; rw [e1]
  have c1 : ¬((s.started d q).isLate q.d.deadline = true) := by rw [l, h.inTime]; decide
  have c2 : ¬((s.started d q).pk.st = .lost ∧ admits op = true) := by rw [e2]; exact h.picks
  have c3 : ¬((s.started d q).ck.drain = true ∧ drainHolds op = true) := by rw [e3]; exact h.drain
  unfold State.startDom
  rw [h.head]
  exact (if_neg c1).trans ((if_neg c2).trans (if_neg c3))

/-- A command that starts, with its input at hand. -/
theorem startDomIn_starts {s : State} {d op : Nat} {q : QDesc} {rest : List QDesc} {rec : Option Bytes} {b : Bytes} (h : s.Starts d op q rest) (hb : s.Brings d q rec b) (go : DRun → Bytes → State → State) :
    s.startDomIn d op rec go = go (s.runOf d q) b (s.started d q) := by
  have hd : q.dom = d := h.own
  have rf : ∀ {x y : State}, x.regs = y.regs → x.sl = y.sl → x.ref d q.d.dataRef q.d.dataLen false = y.ref d q.d.dataRef q.d.dataLen false := fun e1 e2 => by
    unfold State.ref State.flowReady State.flow State.ioFlow State.reg
    rw [e1, e2]
  obtain ⟨-, -, -, f⟩ := started_facts s d q
  have f1 : (s.started d q).regs = s.regs := f .values (by decide)
  have f2 : (s.started d q).sl = s.sl := f .slaisk (by decide)
  unfold State.startDomIn
  rw [h.head]
  dsimp only
  rw [hd]
  rcases hb with ⟨h0, rfl⟩ | ⟨h0, ⟨ff, k, o, hr⟩, hrec, hl⟩
  · rw [if_neg (fun c => c.1 h0), startDom_starts h]
    unfold State.domInput
    rw [if_pos (show (s.runOf d q).q.d.dataLen = 0 from h0)]
    rfl
  · rw [if_neg (by rw [hr]; exact fun c => nomatch c.2), startDom_starts h]
    have hr' : (s.started d q).ref q.dom q.d.dataRef q.d.dataLen false = .region ff k o := by rw [hd, rf f1 f2, hr]
    have e : (s.started d q).domInput q rec = ((b, stDone), s.started d q) := by
      unfold State.domInput
      rw [if_neg h0, hr', hrec]
      exact if_pos hl
    have e' : (s.started d q).domInput (s.runOf d q).q rec = ((b, stDone), s.started d q) := e
    rw [e']
    rfl

theorem State.posts.sub {s v u : State} {d : Nat} {p p' : Rec → Prop} (h : v.posts d p u) (e : v.ss.cq = s.ss.cq) : ∃ w : State, w.ss.cq = s.ss.cq ∧ w.posts d p u := ⟨v, e, h⟩

theorem record_rings (s : State) (d a b c e f g i : Nat) (w : Bool) (n : Option Nat) : (s.record d a b c e f g i w n).ss.rings = s.ss.rings := by
  have hold : ∀ (z : State) (d : Nat) (r : Rec) (a b : Bool) (n : Option Nat), (z.holdRec d r a b n).ss.rings = z.ss.rings := fun z d r a b n => by
    unfold State.holdRec
    dsimp only
    generalize hy : z.setCq d _ = y
    exact ((congrArg Sessions.rings (State.hubRose_keeps (P := fun u => u.ss = y.ss) (frame_ss rfl y) y d _ rfl) :) : (y.hubRose d _).ss.rings = y.ss.rings).trans (by rw [← hy]; rfl)
  have wr : ∀ (z : State) (d : Nat) (r : Rec), (z.writeRec d r).ss.rings = z.ss.rings := fun z d r => by
    unfold State.writeRec
    dsimp only
    generalize hz : z.setCq d _ = y
    have e : ∀ f key off b, (y.txWrite f key off b).ss = y.ss := fun f key off b => State.txWrite_keeps (P := fun u => u.ss = y.ss) (frame_ss rfl y) y _ _ _ _ _ rfl
    rw [e, ← hz]
    rfl
  have nt : ∀ (z : State) (d : Nat) (r : Rec), (z.postNotif d r).ss.rings = z.ss.rings := fun z d r => by
    unfold State.postNotif State.sendNotif
    dsimp only
    split
    · rfl
    · split
      · split
        · exact (congrArg Sessions.rings ((State.ev_ss _ _ _ _ _ _ _).trans ((State.ev_ss _ _ _ _ _ _ _).trans (State.txSend_keeps (P := fun u => u.ss = z.ss) (frame_ss rfl z) z _ _ rfl))) :)
        · generalize hz : z.setCq d _ = y
          have e : (y.txFlush (z.ioFlow d) (.notifFlush d)).ss = y.ss := State.txFlush_keeps (P := fun u => u.ss = y.ss) (frame_ss rfl y) y _ _ rfl
          rw [e, ← hz]
          rfl
      · exact hold _ _ _ _ _ _
  unfold State.record State.postRec
  dsimp only
  split
  · exact when_keeps (P := fun u => u.ss.rings = s.ss.rings) (fun u hu => (nt _ _ _).trans hu) (wr _ _ _)
  · exact hold _ _ _ _ _ _

/-- What a control command's completion leaves. -/
theorem endDom_facts {s : State} (h : Tbl.sorted s.ss.cq) {q : QDesc} (st : s.stalled q.dom = false) (a b c : Nat) (n : Option Nat) :
    s.posts q.dom (Rec.completes q a b) (s.endDom q a b c n) ∧ (s.endDom q a b c n).ss.rings = s.ss.rings := by
  have tail : ∀ z : State, ∀ w1 w2 : Bool, ((((z.when w1 fun s => (s.inc Dict.dsessDeadlineMissCount 1 0 q.dom).ev 0x08A none 1 q.d.session (some q.dom)).when w2 fun s => s.inc Dict.ckptHoldCount).ev
      0x083 none 1 q.d.session (some q.dom)).ss) = z.ss := fun z w1 w2 =>
    (State.ev_ss _ _ _ _ _ _ _).trans (when_keeps (P := fun u => u.ss = z.ss) (fun u hu => hu) (when_keeps (P := fun u => u.ss = z.ss) (fun u hu => (State.ev_ss _ _ _ _ _ _ _).trans hu) rfl))
  unfold State.endDom
  dsimp only
  refine ⟨(record_posts h st _ _ _ _ _ _ _ _ n).at' (tail _ _ _), ?_⟩
  rw [tail]
  exact record_rings _ _ _ _ _ _ _ _ _ _ _

theorem dring_of {s u : State} (e : u.ss.rings = s.ss.rings) (d : Nat) : u.dring d = s.dring d := by
  unfold State.dring
  rw [e]

/-- Dropping the finished commands whose records have a place leaves the waiting and the running ones, and the records. -/
theorem leaveKept_facts {s : State} {d : Nat} (h : Tbl.sorted s.ss.rings) :
    ((s.leaveKept d).dring d).waiting = (s.dring d).waiting ∧ ((s.leaveKept d).dring d).running = (s.dring d).running ∧ (s.leaveKept d).ss.cq = s.ss.cq := by
  unfold State.leaveKept
  dsimp only
  have e : ∀ g : DRing, (s.setDring d g).dring d = g := fun g => by
    unfold State.dring State.setDring
    dsimp only
    rw [Tbl.get_put h, if_pos rfl]
  rw [e]
  exact ⟨rfl, rfl, rfl⟩

/-- A command of a domain's ring that ends, from the state in which the ring is without it. -/
theorem ended_facts {z : State} {d : Nat} {r : DRun} (hs : Tbl.sorted z.ss.rings) (h : Tbl.sorted z.ss.cq) (own : r.q.dom = d) (st : z.stalled d = false) (a b c : Nat) (n : Option Nat) :
    (((z.endDom r.q a b c n).leaveKept d).dring d).waiting = (z.dring d).waiting ∧ (((z.endDom r.q a b c n).leaveKept d).dring d).running = (z.dring d).running ∧
    z.posts d (Rec.completes r.q a b) ((z.endDom r.q a b c n).leaveKept d) := by
  obtain ⟨p1, p2⟩ := endDom_facts (s := z) h (q := r.q) (by rw [own]; exact st) a b c n
  rw [own] at p1
  generalize z.endDom r.q a b c n = y at *
  obtain ⟨k1, k2, k3⟩ := leaveKept_facts (s := y) (d := d) (by rw [p2]; exact hs)
  rw [k1, k2, dring_of p2]
  exact ⟨rfl, rfl, p1.to k3⟩

/-- A command that runs completes: it leaves the running ones, and its record is posted. -/
theorem endDrun_facts {s : State} {d : Nat} {r : DRun} {old : List DRun} (hr : (s.dring d).running = old ++ [r]) (fresh : ∀ x ∈ old, x.id ≠ r.id) (hs : Tbl.sorted s.ss.rings) (h : Tbl.sorted s.ss.cq)
    (own : r.q.dom = d) (st : s.stalled d = false) (a b c : Nat) :
    ((s.endDrun d r.id a b c).dring d).waiting = (s.dring d).waiting ∧ ((s.endDrun d r.id a b c).dring d).running = old ∧ ∃ w : State, w.ss.cq = s.ss.cq ∧ w.posts d (Rec.completes r.q a b) (s.endDrun d r.id a b c) := by
  have f : s.drun d r.id = some r := by
    unfold State.drun
    rw [hr, List.find?_append]
    have : (old.find? fun x => x.id == r.id) = none := List.find?_eq_none.mpr fun x hx c => fresh x hx (by simpa using c)
    rw [this]
    simp
  have flt : (old ++ [r]).filter (fun x => x.id != r.id) = old := by
    rw [List.filter_append]
    have e1 : old.filter (fun x => x.id != r.id) = old := List.filter_eq_self.mpr fun x hx => by simpa using fresh x hx
    rw [e1]
    simp
  unfold State.endDrun
  rw [f]
  dsimp only
  rw [hr, flt]
  have set : ∀ g : DRing, (s.setDring d g).dring d = g := fun g => by
    unfold State.dring State.setDring
    dsimp only
    rw [Tbl.get_put hs, if_pos rfl]
  obtain ⟨k1, k2, k3⟩ := ended_facts (z := s.setDring d _) (Tbl.put_sorted hs) h own st a b c (some r.id)
  rw [k1, k2, set]
  exact ⟨rfl, rfl, _, rfl, k3⟩

theorem State.Taken.at {s : State} {d op t : Nat} {q : QDesc} {rest : List QDesc} (h : s.Taken d op q rest) : (s.at t).Taken d op q rest := ⟨h.head, h.ring, h.fresh, h.own, h.room, h.cq, h.rings⟩

theorem State.Starts.at {s : State} {d op t : Nat} {q : QDesc} {rest : List QDesc} (h : s.Starts d op q rest) : (s.at t).Starts d op q rest := ⟨h.toTaken.at, h.inTime, h.picks, h.drain⟩

/-- What a taken command's start does (R156, R61, R449). -/
theorem startDom_taken {s : State} {d op : Nat} {q : QDesc} {rest : List QDesc} (h : s.Taken d op q rest) (go : DRun → State → State) :
    (s.isLate q.d.deadline = true → s.startDom d op go = (s.started d q).endDrun d (s.runOf d q).id stDeadline 0 0) ∧
    (s.isLate q.d.deadline = false → s.pk.st = .lost → admits op = true → s.startDom d op go = (s.started d q).endDrun d (s.runOf d q).id stPickLost 0 0) ∧
    (s.isLate q.d.deadline = false → ¬(s.pk.st = .lost ∧ admits op = true) → s.ck.drain = true → drainHolds op = true → s.startDom d op go = (s.started d q).endDrun d (s.runOf d q).id stHold 0 0) := by
  obtain ⟨e, e2, e1, f⟩ := started_facts s d q
  have e3 : (s.started d q).ck = s.ck := f .checkpoint (by decide)
  have l : (s.started d q).isLate q.d.deadline = s.isLate q.d.deadline := by unfold State.isLate State.pick48; rw [e1]
  unfold State.startDom
  rw [h.head]
  refine ⟨fun a => ?_, fun a b c => ?_, fun a b c c' => ?_⟩
  · have c1 : ((s.started d q).isLate q.d.deadline = true) := by rw [l, a]
    exact if_pos c1
  · have c1 : ¬((s.started d q).isLate q.d.deadline = true) := by rw [l, a]; decide
    have c2 : ((s.started d q).pk.st = .lost ∧ admits op = true) := by rw [e2]; exact ⟨b, c⟩
    exact (if_neg c1).trans (if_pos c2)
  · have c1 : ¬((s.started d q).isLate q.d.deadline = true) := by rw [l, a]; decide
    have c2 : ¬((s.started d q).pk.st = .lost ∧ admits op = true) := by rw [e2]; exact b
    have c3 : ((s.started d q).ck.drain = true ∧ drainHolds op = true) := by rw [e3]; exact ⟨c, c'⟩
    exact (if_neg c1).trans ((if_neg c2).trans (if_pos c3))

theorem startDomIn_taken {s : State} {d op : Nat} {q : QDesc} {rest : List QDesc} (h : s.Taken d op q rest) (hw : s.ref d q.d.dataRef q.d.dataLen false ≠ .wait) (rec : Option Bytes) (go : DRun → Bytes → State → State) :
    ∃ go', s.startDomIn d op rec go = s.startDom d op go' := by
  unfold State.startDomIn
  rw [h.head]
  dsimp only
  rw [if_neg (by rw [h.own]; exact fun c => hw c.2)]
  exact ⟨_, rfl⟩

/-- A command that starts, does something that leaves the rings and the completion queues, and completes. -/
theorem domDone_of {s : State} {t d op : Nat} {i : Instr} {q : QDesc} {rest : List QDesc} {v : State} {a b c : Nat} {p : State → Prop} (h : (s.at t).Taken d op q rest) (hx : exec i s = .next (v.endDrun d ((s.at t).runOf d q).id a b c))
    (vr : v.ss.rings = ((s.at t).started d q).ss.rings) (vc : v.ss.cq = ((s.at t).started d q).ss.cq) (hp : p (v.endDrun d ((s.at t).runOf d q).id a b c)) : s.DomDone i d q rest a b p := by
  obtain ⟨r1, r2, r3, -⟩ := started_ring (s := s.at t) (d := d) (q := q) h.rings
  have vd : v.dring d = ((s.at t).started d q).dring d := dring_of vr d
  have run : (v.dring d).running = ((s.at t).dring d).running ++ [(s.at t).runOf d q] := by rw [vd, r1]
  obtain ⟨e1, e2, w, e3, e4⟩ := endDrun_facts run h.fresh (by rw [vr]; exact r2) (by rw [vc, r3]; exact h.cq) h.own (by
    have := h.room
    unfold State.stalled State.cq at this ⊢
    rw [vc, r3]
    exact this) a b c
  refine ⟨_, hx, ?_, e2, ⟨w, e3.trans (vc.trans r3), e4⟩, hp⟩
  rw [e1, vd, r1]
  show ((s.at t).dring d).waiting.drop 1 = rest
  rw [h.ring]
  rfl

/-- What the check of a command's operands reads is as the command found it. -/
theorem started_reads (s : State) (d : Nat) (q : QDesc) :
    (s.started d q).regs = s.regs ∧ (s.started d q).fns = s.fns ∧ (s.started d q).pw = s.pw ∧ (s.started d q).sc = s.sc ∧ (s.started d q).tm = s.tm ∧ (s.started d q).fb = s.fb ∧ (s.started d q).tx = s.tx ∧
    (s.started d q).se = s.se ∧ (s.started d q).sl = s.sl ∧ (s.started d q).dx = s.dx ∧ (s.started d q).ck = s.ck ∧ (s.started d q).sv = s.sv := by
  obtain ⟨-, -, -, f⟩ := started_facts s d q
  exact ⟨f .values (by decide), f .functions (by decide), f .package (by decide), f .security (by decide), f .frames (by decide), f .fabric (by decide), f .text (by decide), f .search (by decide),
    f .slaisk (by decide), f .warp (by decide), f .checkpoint (by decide), f .serving (by decide)⟩

theorem started_holds (s : State) (d : Nat) (q : QDesc) (e : Nat) : (s.started d q).holdsKeys e = s.holdsKeys e := by
  have h := (started_reads s d q).2.2.2.1
  unfold State.holdsKeys State.domSec
  rw [h]

theorem started_chans (s : State) (d : Nat) (q : QDesc) (e : Nat) : (s.started d q).domChans e = s.domChans e := by
  obtain ⟨h1, h2, -⟩ := started_reads s d q
  unfold State.domChans State.chOn State.chanAdmits State.isOn State.isOff State.fn State.reg
  rw [h1, h2]

theorem started_fits (s : State) (d : Nat) (q : QDesc) (cs : List Nat) (n : Nat) : (s.started d q).reserveFits cs n = s.reserveFits cs n := by
  obtain ⟨h1, h2, h3, h4, h5, h6, h7, -⟩ := started_reads s d q
  unfold State.reserveFits State.reserveUsed State.reservePool State.frameTotal State.reg
  rw [h1, h3, h5, h7]

theorem State.Runs.at {s : State} {d t : Nat} {r : DRun} (h : s.Runs d r) : (s.at t).Runs d r := ⟨h.run, h.own, h.room, h.cq, h.rings⟩

/-- A running command's work that leaves the rings and the completion queues, and then completes it. -/
theorem runEnds_of {s : State} {d : Nat} {i : Instr} {r : DRun} {v : State} {a b c : Nat} {p : State → Prop} (h : s.Runs d r) (hx : exec i s = .next (v.endDrun d r.id a b c))
    (vr : v.ss.rings = s.ss.rings) (vc : v.ss.cq = s.ss.cq) (hp : p (v.endDrun d r.id a b c)) : s.RunEnds i d r a b p := by
  have vd : v.dring d = s.dring d := dring_of vr d
  have f : v.drun d r.id = some r := by unfold State.drun; rw [vd]; exact h.run
  have key : ((v.endDrun d r.id a b c).dring d).waiting = (s.dring d).waiting ∧ ((v.endDrun d r.id a b c).dring d).running = (s.dring d).running.filter (fun x => x.id != r.id) ∧
      ∃ w : State, w.ss.cq = s.ss.cq ∧ w.posts d (Rec.completes r.q a b) (v.endDrun d r.id a b c) := by
    unfold State.endDrun
    rw [f]
    dsimp only
    rw [vd]
    have sorted : Tbl.sorted v.ss.rings := by rw [vr]; exact h.rings
    have set : ∀ g : DRing, (v.setDring d g).dring d = g := fun g => by
      unfold State.dring State.setDring
      dsimp only
      rw [Tbl.get_put sorted, if_pos rfl]
    have st : v.stalled d = false := by
      have := h.room
      unfold State.stalled State.cq at this ⊢
      rw [vc]
      exact this
    obtain ⟨k1, k2, k3⟩ := ended_facts (z := v.setDring d _) (Tbl.put_sorted sorted) (by show Tbl.sorted v.ss.cq; rw [vc]; exact h.cq) h.own st a b c (some r.id)
    rw [k1, k2, set]
    exact ⟨rfl, rfl, _, vc, k3⟩
  exact ⟨_, hx, key.1, key.2.1, key.2.2, hp⟩

end Sys2Proof.Machine
end

