-- ==== Sys2Proof/Laws/Runs.lean ====
section
/-! SUPPORT. Every command is one run of its effect: on a live device, but for the package's power contacts. -/

set_option linter.all false

namespace Sys2Proof.Machine

open Sys2Proof

/-- The commands that act on the package whatever its state: its power and the FORCE_OFF contact. -/
def Instr.power (i : Instr) : Prop :=
  i = .prechargeStart i.time ∨ i = .busCharged i.time ∨ i = .surpriseRemoval i.time ∨ i = .powerRemoval i.time ∨ i = .forceOffAssert i.time ∨ i = .forceOffRelease i.time

/-- A command's effect stands apart from its checks: its operands name objects that exist, and its device is live. -/
theorem exec_runs (i : Instr) (s : State) : (∃ f, exec i s = run i i.time s f) ∨ (Instr.power i ∧ ∃ f, exec i s = runAny i i.time s f) := by
  cases i with
  | prechargeStart t => exact .inr ⟨.inl rfl, _, execPrechargeStart.eq_1 t s⟩
  | busCharged t => exact .inr ⟨.inr (.inl rfl), _, execBusCharged.eq_1 t s⟩
  | bootComplete t spd => exact .inl ⟨_, execBootComplete.eq_1 t spd s⟩
  | inputExcursionEnd t dur stay => exact .inl ⟨_, execInputExcursionEnd.eq_1 t dur stay s⟩
  | excursionTimeout t => exact .inl ⟨_, execExcursionTimeout.eq_1 t s⟩
  | collapseTimeout t => exact .inl ⟨_, execCollapseTimeout.eq_1 t s⟩
  | currentLimitTick t milliamps => exact .inl ⟨_, execCurrentLimitTick.eq_1 t milliamps s⟩
  | throttleEvaluate t sn => exact .inl ⟨_, execThrottleEvaluate.eq_1 t sn s⟩
  | thermalTrip t => exact .inl ⟨_, execThermalTrip.eq_1 t s⟩
  | hbmRefreshDoubling t stack temp => exact .inl ⟨_, execHbmRefreshDoubling.eq_1 t stack temp s⟩
  | surpriseRemoval t => exact .inr ⟨.inr (.inr (.inl rfl)), _, execSurpriseRemoval.eq_1 t s⟩
  | forceOffAssert t => exact .inr ⟨.inr (.inr (.inr (.inr (.inl rfl)))), _, execForceOffAssert.eq_1 t s⟩
  | forceOffRelease t => exact .inr ⟨.inr (.inr (.inr (.inr (.inr (rfl))))), _, execForceOffRelease.eq_1 t s⟩
  | packageReset t w => exact .inl ⟨_, execPackageReset.eq_1 t w s⟩
  | removeRequest t w => exact .inl ⟨_, execRemoveRequest.eq_1 t w s⟩
  | removeRequestSkip t w => exact .inl ⟨_, execRemoveRequestSkip.eq_1 t w s⟩
  | removeRequestCancel t w => exact .inl ⟨_, execRemoveRequestCancel.eq_1 t w s⟩
  | drainTimeout t => exact .inl ⟨_, execDrainTimeout.eq_1 t s⟩
  | drainComplete t => exact .inl ⟨_, execDrainComplete.eq_1 t s⟩
  | chpowerRequest t w k v => exact .inl ⟨_, execChpowerRequest.eq_1 t w k v s⟩
  | hubPowerRequest t w k v => exact .inl ⟨_, execHubPowerRequest.eq_1 t w k v s⟩
  | functionStartComplete t f bad => exact .inl ⟨_, execFunctionStartComplete.eq_1 t f bad s⟩
  | functionStartFail t f => exact .inl ⟨_, execFunctionStartFail.eq_1 t f s⟩
  | functionStopComplete t f => exact .inl ⟨_, execFunctionStopComplete.eq_1 t f s⟩
  | pickContactEdge t width low => exact .inl ⟨_, execPickContactEdge.eq_1 t width low s⟩
  | pickStuckInput t => exact .inl ⟨_, execPickStuckInput.eq_1 t s⟩
  | hostPickMessage t port m => exact .inl ⟨_, execHostPickMessage.eq_1 t port m s⟩
  | pick t link m => exact .inl ⟨_, execPick.eq_1 t link m s⟩
  | lost t link m => exact .inl ⟨_, execLost.eq_1 t link m s⟩
  | pickSourceWrite t w v => exact .inl ⟨_, execPickSourceWrite.eq_1 t w v s⟩
  | pickActionPoint t => exact .inl ⟨_, execPickActionPoint.eq_1 t s⟩
  | pickMissTimeout t => exact .inl ⟨_, execPickMissTimeout.eq_1 t s⟩
  | holdoverPickDue t => exact .inl ⟨_, execHoldoverPickDue.eq_1 t s⟩
  | barrierAtWrite t w p => exact .inl ⟨_, execBarrierAtWrite.eq_1 t w p s⟩
  | barrierRequest t link dev m => exact .inl ⟨_, execBarrierRequest.eq_1 t link dev m s⟩
  | barrierDone t link dev m => exact .inl ⟨_, execBarrierDone.eq_1 t link dev m s⟩
  | barrierTimeout t => exact .inl ⟨_, execBarrierTimeout.eq_1 t s⟩
  | barrierMessageResend t => exact .inl ⟨_, execBarrierMessageResend.eq_1 t s⟩
  | helloOffer t w vmax vmin role nonce => exact .inl ⟨_, execHelloOffer.eq_1 t w vmax vmin role nonce s⟩
  | helloKey t w ct proof => exact .inl ⟨_, execHelloKey.eq_1 t w ct proof s⟩
  | helloBye t w reason => exact .inl ⟨_, execHelloBye.eq_1 t w reason s⟩
  | helloTimeout t assoc => exact .inl ⟨_, execHelloTimeout.eq_1 t assoc s⟩
  | helloThrottleExpire t => exact .inl ⟨_, execHelloThrottleExpire.eq_1 t s⟩
  | associationIdleTimeout t assoc => exact .inl ⟨_, execAssociationIdleTimeout.eq_1 t assoc s⟩
  | read t w items => exact .inl ⟨_, execRead.eq_1 t w items s⟩
  | registerWrite t w items => exact .inl ⟨_, execRegisterWrite.eq_1 t w items s⟩
  | readBlock t w addr off len => exact .inl ⟨_, execReadBlock.eq_1 t w addr off len s⟩
  | writeBlock t w b => exact .inl ⟨_, execWriteBlock.eq_1 t w b s⟩
  | snapshotExpire t assoc => exact .inl ⟨_, execSnapshotExpire.eq_1 t assoc s⟩
  | blockTransferIdle t addr => exact .inl ⟨_, execBlockTransferIdle.eq_1 t addr s⟩
  | roleSecretWrite t w role secret => exact .inl ⟨_, execRoleSecretWrite.eq_1 t w role secret s⟩
  | restoreDefaults t w v => exact .inl ⟨_, execRestoreDefaults.eq_1 t w v s⟩
  | fwImageWrite t w b => exact .inl ⟨_, execFwImageWrite.eq_1 t w b s⟩
  | fwSvnCommit t w v => exact .inl ⟨_, execFwSvnCommit.eq_1 t w v s⟩
  | fwConfirm t w v => exact .inl ⟨_, execFwConfirm.eq_1 t w v s⟩
  | attestNonceWrite t w nonce => exact .inl ⟨_, execAttestNonceWrite.eq_1 t w nonce s⟩
  | attestCertReady t d => exact .inl ⟨_, execAttestCertReady.eq_1 t d s⟩
  | capsuleTimeout t d => exact .inl ⟨_, execCapsuleTimeout.eq_1 t d s⟩
  | keyCapsuleWrite t w b => exact .inl ⟨_, execKeyCapsuleWrite.eq_1 t w b s⟩
  | epochOverlapExpire t d => exact .inl ⟨_, execEpochOverlapExpire.eq_1 t d s⟩
  | keyErase t w v => exact .inl ⟨_, execKeyErase.eq_1 t w v s⟩
  | dsecClassWrite t w v => exact .inl ⟨_, execDsecClassWrite.eq_1 t w v s⟩
  | tileGroupsWrite t w v => exact .inl ⟨_, execTileGroupsWrite.eq_1 t w v s⟩
  | sealRequest t w c v => exact .inl ⟨_, execSealRequest.eq_1 t w c v s⟩
  | sealStartingComplete t c => exact .inl ⟨_, execSealStartingComplete.eq_1 t c s⟩
  | sealStoppingComplete t c => exact .inl ⟨_, execSealStoppingComplete.eq_1 t c s⟩
  | openSession t k => exact .inl ⟨_, execOpenSession.eq_1 t k s⟩
  | append t k => exact .inl ⟨_, execAppend.eq_1 t k s⟩
  | generate t k => exact .inl ⟨_, execGenerate.eq_1 t k s⟩
  | park t k => exact .inl ⟨_, execPark.eq_1 t k s⟩
  | revive t k => exact .inl ⟨_, execRevive.eq_1 t k s⟩
  | condense t k => exact .inl ⟨_, execCondense.eq_1 t k s⟩
  | exportSession t k => exact .inl ⟨_, execExportSession.eq_1 t k s⟩
  | importSession t k x => exact .inl ⟨_, execImportSession.eq_1 t k x s⟩
  | query t k => exact .inl ⟨_, execQuery.eq_1 t k s⟩
  | close t k => exact .inl ⟨_, execClose.eq_1 t k s⟩
  | truncate t k => exact .inl ⟨_, execTruncate.eq_1 t k s⟩
  | deadlineExpire t r => exact .inl ⟨_, execDeadlineExpire.eq_1 t r s⟩
  | parkPickReached t k => exact .inl ⟨_, execParkPickReached.eq_1 t k s⟩
  | deepTtlExpire t k => exact .inl ⟨_, execDeepTtlExpire.eq_1 t k s⟩
  | slateTtlExpire t k => exact .inl ⟨_, execSlateTtlExpire.eq_1 t k s⟩
  | farTtlExpire t k => exact .inl ⟨_, execFarTtlExpire.eq_1 t k s⟩
  | sessionMoveComplete t k => exact .inl ⟨_, execSessionMoveComplete.eq_1 t k s⟩
  | revivalComplete t k => exact .inl ⟨_, execRevivalComplete.eq_1 t k s⟩
  | closingComplete t k => exact .inl ⟨_, execClosingComplete.eq_1 t k s⟩
  | completionRecordRelease t d => exact .inl ⟨_, execCompletionRecordRelease.eq_1 t d s⟩
  | generateStreamRecord t k => exact .inl ⟨_, execGenerateStreamRecord.eq_1 t k s⟩
  | notifyFlowWrite t w v => exact .inl ⟨_, execNotifyFlowWrite.eq_1 t w v s⟩
  | backgroundEviction t c tier => exact .inl ⟨_, execBackgroundEviction.eq_1 t c tier s⟩
  | pageMoveSwitch t k lpn v => exact .inl ⟨_, execPageMoveSwitch.eq_1 t k lpn v s⟩
  | frameLeaseRelease t c tier frame => exact .inl ⟨_, execFrameLeaseRelease.eq_1 t c tier frame s⟩
  | frameTestComplete t c tier frame bad => exact .inl ⟨_, execFrameTestComplete.eq_1 t c tier frame bad s⟩
  | allocGraceExpire t k => exact .inl ⟨_, execAllocGraceExpire.eq_1 t k s⟩
  | fenceClear t w v => exact .inl ⟨_, execFenceClear.eq_1 t w v s⟩
  | tileError t c tile ks => exact .inl ⟨_, execTileError.eq_1 t c tile ks s⟩
  | patternLoadComplete t c g model pat => exact .inl ⟨_, execPatternLoadComplete.eq_1 t c g model pat s⟩
  | modelLoad t d x => exact .inl ⟨_, execModelLoad.eq_1 t d x s⟩
  | modelUnload t d => exact .inl ⟨_, execModelUnload.eq_1 t d s⟩
  | trackerOpTimeout t c op => exact .inl ⟨_, execTrackerOpTimeout.eq_1 t c op s⟩
  | maskComplete t k pos => exact .inl ⟨_, execMaskComplete.eq_1 t k pos s⟩
  | decodePhaseCommit t out => exact .inl ⟨_, execDecodePhaseCommit.eq_1 t out s⟩
  | prefillChunkStart t k => exact .inl ⟨_, execPrefillChunkStart.eq_1 t k s⟩
  | prefillChunkCommit t k kv reads => exact .inl ⟨_, execPrefillChunkCommit.eq_1 t k kv reads s⟩
  | budgetGraceExpire t k => exact .inl ⟨_, execBudgetGraceExpire.eq_1 t k s⟩
  | budgetAdjust t w v => exact .inl ⟨_, execBudgetAdjust.eq_1 t w v s⟩
  | draftSlotWrite t w v => exact .inl ⟨_, execDraftSlotWrite.eq_1 t w v s⟩
  | samplingDefine t d rec => exact .inl ⟨_, execSamplingDefine.eq_1 t d rec s⟩
  | vocabLoad t d img => exact .inl ⟨_, execVocabLoad.eq_1 t d img s⟩
  | grammarLoad t d img => exact .inl ⟨_, execGrammarLoad.eq_1 t d img s⟩
  | stopsetDefine t d rec => exact .inl ⟨_, execStopsetDefine.eq_1 t d rec s⟩
  | select t d rec => exact .inl ⟨_, execSelect.eq_1 t d rec s⟩
  | selectRowComplete t d id row ns data => exact .inl ⟨_, execSelectRowComplete.eq_1 t d id row ns data s⟩
  | collectionCreate t d rec => exact .inl ⟨_, execCollectionCreate.eq_1 t d rec s⟩
  | vecInsert t d rec => exact .inl ⟨_, execVecInsert.eq_1 t d rec s⟩
  | vecDelete t d rec => exact .inl ⟨_, execVecDelete.eq_1 t d rec s⟩
  | vecSearch t d rec => exact .inl ⟨_, execVecSearch.eq_1 t d rec s⟩
  | listCompaction t id list => exact .inl ⟨_, execListCompaction.eq_1 t id list s⟩
  | ethRequest t w p v => exact .inl ⟨_, execEthRequest.eq_1 t w p v s⟩
  | portLinkUp t p => exact .inl ⟨_, execPortLinkUp.eq_1 t p s⟩
  | portAlignmentLoss t p => exact .inl ⟨_, execPortAlignmentLoss.eq_1 t p s⟩
  | pfcFrameReceive t p enable quanta => exact .inl ⟨_, execPfcFrameReceive.eq_1 t p enable quanta s⟩
  | pfcRefreshTimer t p prio occupancy => exact .inl ⟨_, execPfcRefreshTimer.eq_1 t p prio occupancy s⟩
  | pfcWatchdogExpire t p prio => exact .inl ⟨_, execPfcWatchdogExpire.eq_1 t p prio s⟩
  | ptpEventMessage t p m => exact .inl ⟨_, execPtpEventMessage.eq_1 t p m s⟩
  | arp t p m => exact .inl ⟨_, execArp.eq_1 t p m s⟩
  | neighborDiscovery t p m => exact .inl ⟨_, execNeighborDiscovery.eq_1 t p m s⟩
  | icmpEcho t p m => exact .inl ⟨_, execIcmpEcho.eq_1 t p m s⟩
  | slaiskSend t p => exact .inl ⟨_, execSlaiskSend.eq_1 t p s⟩
  | slaiskWrite t p => exact .inl ⟨_, execSlaiskWrite.eq_1 t p s⟩
  | slaiskRead t p => exact .inl ⟨_, execSlaiskRead.eq_1 t p s⟩
  | slaiskAtomicAdd t p => exact .inl ⟨_, execSlaiskAtomicAdd.eq_1 t p s⟩
  | slaiskCas t p => exact .inl ⟨_, execSlaiskCas.eq_1 t p s⟩
  | slaiskReadResponse t p => exact .inl ⟨_, execSlaiskReadResponse.eq_1 t p s⟩
  | slaiskAtomicResponse t p => exact .inl ⟨_, execSlaiskAtomicResponse.eq_1 t p s⟩
  | slaiskFlush t p => exact .inl ⟨_, execSlaiskFlush.eq_1 t p s⟩
  | slaiskFlushResponse t p => exact .inl ⟨_, execSlaiskFlushResponse.eq_1 t p s⟩
  | windowOpen t p => exact .inl ⟨_, execWindowOpen.eq_1 t p s⟩
  | windowStartComplete t idx => exact .inl ⟨_, execWindowStartComplete.eq_1 t idx s⟩
  | windowRevoke t p => exact .inl ⟨_, execWindowRevoke.eq_1 t p s⟩
  | windowExpire t idx => exact .inl ⟨_, execWindowExpire.eq_1 t idx s⟩
  | windowStopComplete t idx => exact .inl ⟨_, execWindowStopComplete.eq_1 t idx s⟩
  | windowReply t p => exact .inl ⟨_, execWindowReply.eq_1 t p s⟩
  | doorbellWrite t p => exact .inl ⟨_, execDoorbellWrite.eq_1 t p s⟩
  | slaiskAck t p => exact .inl ⟨_, execSlaiskAck.eq_1 t p s⟩
  | slaiskNak t p => exact .inl ⟨_, execSlaiskNak.eq_1 t p s⟩
  | ackCoalesceTimer t f => exact .inl ⟨_, execAckCoalesceTimer.eq_1 t f s⟩
  | retransmitTimeout t f => exact .inl ⟨_, execRetransmitTimeout.eq_1 t f s⟩
  | flowConfigure t w b => exact .inl ⟨_, execFlowConfigure.eq_1 t w b s⟩
  | flowRemove t w b => exact .inl ⟨_, execFlowRemove.eq_1 t w b s⟩
  | linkRequest t w n v => exact .inl ⟨_, execLinkRequest.eq_1 t w n v s⟩
  | linkTrainingComplete t n b => exact .inl ⟨_, execLinkTrainingComplete.eq_1 t n b s⟩
  | linkTrainingFail t n code => exact .inl ⟨_, execLinkTrainingFail.eq_1 t n code s⟩
  | linkFailure t n replay => exact .inl ⟨_, execLinkFailure.eq_1 t n replay s⟩
  | stopping t via => exact .inl ⟨_, execStopping.eq_1 t via s⟩
  | flitReceive t n f => exact .inl ⟨_, execFlitReceive.eq_1 t n f s⟩
  | replayTimeout t n => exact .inl ⟨_, execReplayTimeout.eq_1 t n s⟩
  | command t e ds => exact .inl ⟨_, execCommand.eq_1 t e ds s⟩
  | commandAck t e => exact .inl ⟨_, execCommandAck.eq_1 t e s⟩
  | e2eTimeout t home id => exact .inl ⟨_, execE2eTimeout.eq_1 t home id s⟩
  | migrateReserve t e x => exact .inl ⟨_, execMigrateReserve.eq_1 t e x s⟩
  | migrateReply t e => exact .inl ⟨_, execMigrateReply.eq_1 t e s⟩
  | pageData t e p => exact .inl ⟨_, execPageData.eq_1 t e p s⟩
  | migrateCommit t e x digestOk => exact .inl ⟨_, execMigrateCommit.eq_1 t e x digestOk s⟩
  | migrateCommitAck t e status => exact .inl ⟨_, execMigrateCommitAck.eq_1 t e status s⟩
  | migrationTimeout t peer id => exact .inl ⟨_, execMigrationTimeout.eq_1 t peer id s⟩
  | activation t m => exact .inl ⟨_, execActivation.eq_1 t m s⟩
  | activationAck t e => exact .inl ⟨_, execActivationAck.eq_1 t e s⟩
  | activationTimeout t mid => exact .inl ⟨_, execActivationTimeout.eq_1 t mid s⟩
  | subrequest t e q data => exact .inl ⟨_, execSubrequest.eq_1 t e q data s⟩
  | subresult t e p => exact .inl ⟨_, execSubresult.eq_1 t e p s⟩
  | heartbeat t via src pick => exact .inl ⟨_, execHeartbeat.eq_1 t via src pick s⟩
  | heartbeatSend t => exact .inl ⟨_, execHeartbeatSend.eq_1 t s⟩
  | peerTimeout t dev => exact .inl ⟨_, execPeerTimeout.eq_1 t dev s⟩
  | fatalMessage t via src reason pick => exact .inl ⟨_, execFatalMessage.eq_1 t via src reason pick s⟩
  | stageReady t via src slot stage dom ready => exact .inl ⟨_, execStageReady.eq_1 t via src slot stage dom ready s⟩
  | stageReadyResend t => exact .inl ⟨_, execStageReadyResend.eq_1 t s⟩
  | memberTableWrite t w b => exact .inl ⟨_, execMemberTableWrite.eq_1 t w b s⟩
  | routeWrite t w ix v => exact .inl ⟨_, execRouteWrite.eq_1 t w ix v s⟩
  | treeParentWrite t w children v => exact .inl ⟨_, execTreeParentWrite.eq_1 t w children v s⟩
  | deviceIndexWrite t w warp v => exact .inl ⟨_, execDeviceIndexWrite.eq_1 t w warp v s⟩
  | checkpointBegin t d ok => exact .inl ⟨_, execCheckpointBegin.eq_1 t d ok s⟩
  | ckptNotice t link m => exact .inl ⟨_, execCkptNotice.eq_1 t link m s⟩
  | checkpointCut t => exact .inl ⟨_, execCheckpointCut.eq_1 t s⟩
  | shardWriteComplete t ok => exact .inl ⟨_, execShardWriteComplete.eq_1 t ok s⟩
  | ckptWritten t link m ok => exact .inl ⟨_, execCkptWritten.eq_1 t link m ok s⟩
  | ckptCommit t link m => exact .inl ⟨_, execCkptCommit.eq_1 t link m s⟩
  | ckptAbort t link m => exact .inl ⟨_, execCkptAbort.eq_1 t link m s⟩
  | checkpointTimeout t => exact .inl ⟨_, execCheckpointTimeout.eq_1 t s⟩
  | ckptMessageResend t => exact .inl ⟨_, execCkptMessageResend.eq_1 t s⟩
  | restoreBegin t d rec commits => exact .inl ⟨_, execRestoreBegin.eq_1 t d rec commits s⟩
  | restoreNotice t link m commit ms => exact .inl ⟨_, execRestoreNotice.eq_1 t link m commit ms s⟩
  | restoreDone t link m => exact .inl ⟨_, execRestoreDone.eq_1 t link m s⟩
  | channelFault t c src => exact .inl ⟨_, execChannelFault.eq_1 t c src s⟩
  | channelSweepComplete t c => exact .inl ⟨_, execChannelSweepComplete.eq_1 t c s⟩
  | fatalDetect t reason => exact .inl ⟨_, execFatalDetect.eq_1 t reason s⟩
  | conservationAudit t => exact .inl ⟨_, execConservationAudit.eq_1 t s⟩
  | monRequest t w hub k v => exact .inl ⟨_, execMonRequest.eq_1 t w hub k v s⟩
  | monConfigWrite t w hub k cfg => exact .inl ⟨_, execMonConfigWrite.eq_1 t w hub k cfg s⟩
  | monitorTransition t f => exact .inl ⟨_, execMonitorTransition.eq_1 t f s⟩
  | monitorWindowEnd t f => exact .inl ⟨_, execMonitorWindowEnd.eq_1 t f s⟩
  | traceRequest t w v => exact .inl ⟨_, execTraceRequest.eq_1 t w v s⟩
  | traceConfigWrite t w cfg => exact .inl ⟨_, execTraceConfigWrite.eq_1 t w cfg s⟩
  | traceBufferFull t => exact .inl ⟨_, execTraceBufferFull.eq_1 t s⟩
  | traceStopPick t => exact .inl ⟨_, execTraceStopPick.eq_1 t s⟩
  | powerRemoval t => exact .inr ⟨.inr (.inr (.inr (.inl rfl))), _, execPowerRemoval.eq_1 t s⟩
  | pfcPauseExpire t p prio => exact .inl ⟨_, execPfcPauseExpire.eq_1 t p prio s⟩
  | signatureIndexBlockReserved t ok => exact .inl ⟨_, execSignatureIndexBlockReserved.eq_1 t ok s⟩
  | tokenisingComplete t k => exact .inl ⟨_, execTokenisingComplete.eq_1 t k s⟩
  | listPassComplete t d id qs list bad => exact .inl ⟨_, execListPassComplete.eq_1 t d id qs list bad s⟩

theorem run_next {i : Instr} {t : Nat} {s : State} {f : State → State} (h : i.wf = true) : ∃ u, run i t s f = .next u := by
  unfold run runAny
  rw [if_pos h]
  exact ⟨_, rfl⟩

theorem runAny_next {i : Instr} {t : Nat} {s : State} {f : State → State} (h : i.wf = true) : ∃ u, runAny i t s f = .next u := by
  unfold runAny
  rw [if_pos h]
  exact ⟨_, rfl⟩

theorem run_fault {i : Instr} {t : Nat} {s : State} {f : State → State} (h : i.wf = false) : run i t s f = .fault .noSuchObject := by
  unfold run runAny
  rw [if_neg (by rw [h]; decide)]

theorem runAny_fault {i : Instr} {t : Nat} {s : State} {f : State → State} (h : i.wf = false) : runAny i t s f = .fault .noSuchObject := by
  unfold runAny
  rw [if_neg (by rw [h]; decide)]

theorem run_dead {i : Instr} {t : Nat} {s : State} {f : State → State} (l : s.live = false) (h : i.wf = true) : run i t s f = .next (s.at t) := by
  have l' : (s.at t).live = false := l
  unfold run runAny
  rw [if_pos h]
  dsimp only
  rw [if_neg (by rw [l']; decide)]

end Sys2Proof.Machine
end

