-- ==== Sys2Proof/Laws/Steps.lean ====
section
/-! SUPPORT. What the operations of the package, the store, Welrid and the pick logic do, said once. -/

set_option linter.all false

namespace Sys2Proof.Machine

open Sys2Proof

theorem Tbl.get_filter {α : Type} {d : α} {m : Tbl α} {p : Nat × α → Bool} {k : Nat} (h : ∀ e ∈ m, e.1 = k → p e = true) : Tbl.get d (m.filter p) k = Tbl.get d m k := by
  induction m with
  | nil => rfl
  | cons a m ih =>
    obtain ⟨i, x⟩ := a
    have ih := ih fun e he => h e (List.mem_cons_of_mem _ he)
    by_cases q : k = i
    · subst q
      rw [List.filter_cons_of_pos (h _ List.mem_cons_self rfl)]
      unfold Tbl.get
      rw [if_pos rfl, if_pos rfl]
    · rw [List.filter_cons]
      split
      · unfold Tbl.get
        rw [if_neg q, if_neg q]
        exact ih
      · rw [ih]
        conv_rhs => unfold Tbl.get
        rw [if_neg q]

/-- A value in the non-volatile store outlives a loss of power. -/
theorem storedRegs_get {e : Entry} {m : Tbl Nat} (he : e ∈ Dict.table) (hp : e.persist = true) (h1 : 1 ≤ e.span) (sub i : Nat) (hs : sub < e.span) (ht : e.addr + e.span ≤ 2 ^ 28) :
    Tbl.get e.dflt (storedRegs m) (regKey e sub i) = Tbl.get e.dflt m (regKey e sub i) := by
  refine Tbl.get_filter fun x hx hk => ?_
  refine List.any_eq_true.mpr ⟨e, he, ?_⟩
  rw [hk]
  have h2 : sub % Nat.max 1 e.span = sub := Nat.mod_eq_of_lt (Nat.lt_of_lt_of_le hs (Nat.le_max_right _ _))
  have h3 : i % 4096 < 4096 := Nat.mod_lt _ (by decide)
  have h4 : regKey e sub i % 2 ^ 40 = (e.addr + sub) * 4096 + i % 4096 := by
    unfold regKey
    rw [h2]
    split
    · rw [Nat.add_mod_right]; omega
    · omega
  rw [h4, hp]
  simp only [Bool.and_eq_true, decide_eq_true_eq, Bool.true_and]
  omega

theorem beNat_append (a b : Bytes) : beNat (a ++ b) = beNat a * 256 ^ b.length + beNat b := by
  unfold beNat
  rw [List.foldl_append]
  have : ∀ (b : Bytes) (x : Nat), b.foldl (fun a b => a * 256 + b % 256) x = x * 256 ^ b.length + b.foldl (fun a b => a * 256 + b % 256) 0 := by
    intro b
    induction b with
    | nil => intro x; simp
    | cons c b ih =>
      intro x
      rw [List.foldl_cons, ih, List.foldl_cons, ih (0 * 256 + c % 256), List.length_cons, Nat.pow_succ]
      ring
  exact this b _

theorem beNat_lt (b : Bytes) : beNat b < 256 ^ b.length := by
  induction b with
  | nil => simp [beNat]
  | cons c b ih =>
    have := beNat_append [c] b
    rw [List.singleton_append] at this
    rw [this, List.length_cons, Nat.pow_succ]
    have : beNat [c] < 256 := by unfold beNat; simp; omega
    nlinarith

/-- A journal entry that is not shared is the last one. -/
theorem State.journal_last (s : State) (a b c d e : Nat) (f : Bytes) (g : Nat) (ha : a ≠ 0) :
    ∃ j, (s.journal a b c d e f g).fa.journal.getLast? = some j ∧ j.cls = a ∧ j.chan = b ∧ j.src = c ∧ j.dom = d ∧ j.obj = e ∧ j.detail = f ∧ j.reason = g := by
  unfold State.journal
  dsimp only
  rw [if_neg]
  · refine when_keeps (P := fun u => ∃ j, u.fa.journal.getLast? = some j ∧ j.cls = a ∧ j.chan = b ∧ j.src = c ∧ j.dom = d ∧ j.obj = e ∧ j.detail = f ∧ j.reason = g)
      (fun u h => ?_) ?_
    · rw [State.ev_fa]; exact h
    · exact ⟨_, List.getLast?_concat, rfl, rfl, rfl, rfl, rfl, rfl, rfl⟩
  · simp only [List.any_eq_true, not_exists, not_and, JEntry.shares, Bool.not_eq_true]
    intro x _
    simp [ha]

theorem getLast_drop {α : Type} {l : List α} {j : α} (h : l.getLast? = some j) : (l.drop (l.length - 256)).getLast? = some j := by
  have h0 : l ≠ [] := by rintro rfl; cases h
  have hl : l.length ≠ 0 := fun e => h0 (List.length_eq_zero_iff.mp e)
  rw [List.getLast?_drop, if_neg (by omega)]
  exact h

/-- A notification reaches every open association on each of its ports that is ON. -/
theorem State.notifyVia_sends {s : State} {a : Assoc} (via : Assoc → List Nat) (r : Nat) (d : Bytes) (ha : a ∈ s.wr.assocs) (ho : a.opened = true) {p : Nat} (hv : p ∈ via a) (hp : s.isOn (.port p) = true) :
    ∃ n, Output.notify p a.src a.id n a.loc s.wr.udp ∈ (s.notifyVia via r d).out ∧ n.reason = r ∧ n.detail = d := by
  unfold State.notifyVia
  extract_lets ports n log s1 w s2
  refine ⟨n, ?_, rfl, rfl⟩
  have hm : p ∈ ports a := by
    show p ∈ if a.opened then (via a).filter (fun p => s.isOn (.port p)) else []
    rw [if_pos ho, List.mem_filter]
    exact ⟨hv, hp⟩
  have hu : s2.wr.udp = s.wr.udp := rfl
  have hl : s2.wr.assocs = s.wr.assocs := rfl
  clear_value n ports
  clear_value s2
  have all : ∀ (x : Output) (f : Assoc → Nat → State → Output) (l : List Assoc) (u : State), x ∈ u.out → x ∈ (u.each l fun a s => s.each (ports a) fun p s => s.send (f a p s)).out := fun x f l u h =>
    each_keeps (P := fun u => x ∈ u.out) (fun a u h => each_keeps (P := fun u => x ∈ u.out) (fun _ _ h => List.mem_append_left _ h) h) h
  have wr : ∀ (f : Assoc → Nat → State → Output) (b : Assoc) (u : State), (u.each (ports b) fun p s => s.send (f b p s)).wr = u.wr := fun f b u => each_keeps (P := fun v => v.wr = u.wr) (fun _ _ h => h) rfl
  have one : ∀ (l : List Nat) (u : State), u.wr.udp = s.wr.udp → p ∈ l → Output.notify p a.src a.id n a.loc s.wr.udp ∈ (u.each l fun p s => s.send (.notify p a.src a.id n a.loc s.wr.udp)).out := by
    intro l
    induction l with
    | nil => intro u _ h; cases h
    | cons b l ih =>
      intro u e h
      rcases List.mem_cons.mp h with rfl | h
      · refine each_keeps (P := fun u => Output.notify p a.src a.id n a.loc s.wr.udp ∈ u.out) (s := u.send (.notify p a.src a.id n a.loc u.wr.udp)) (fun _ _ h => List.mem_append_left _ h) ?_
        rw [e]
        exact List.mem_append_right u.out (List.mem_singleton.mpr rfl)
      · exact ih (u.send _) e h
  have key : ∀ (l : List Assoc) (u : State), u.wr.udp = s.wr.udp → a ∈ l → Output.notify p a.src a.id n a.loc s.wr.udp ∈ (u.each l fun a s => s.each (ports a) fun p s => s.send (.notify p a.src a.id n a.loc s.wr.udp)).out := by
    intro l
    induction l with
    | nil => intro u _ h; cases h
    | cons b l ih =>
      intro u e h
      rcases List.mem_cons.mp h with rfl | h
      · exact all _ (fun a p s => .notify p a.src a.id n a.loc s.wr.udp) l _ (one _ u e hm)
      · exact ih _ ((congrArg Welrid.udp (wr (fun a p s => .notify p a.src a.id n a.loc s.wr.udp) b u)).trans e) h
  exact key _ _ hu (hl.symm ▸ ha)

theorem State.notify_sends {s : State} {a : Assoc} (r : Nat) (d : Bytes) (ha : a ∈ s.wr.assocs) (ho : a.opened = true) (hp : s.isOn (.port a.port) = true) :
    ∃ n, Output.notify a.port a.src a.id n a.loc s.wr.udp ∈ (s.notify r d).out ∧ n.reason = r ∧ n.detail = d :=
  State.notifyVia_sends (fun a => [a.port]) r d ha ho (List.mem_singleton.mpr rfl) hp

theorem Tbl.sorted_filter {α : Type} {m : Tbl α} {p : Nat × α → Bool} (h : Tbl.sorted m) : Tbl.sorted (m.filter p) := List.Pairwise.sublist List.filter_sublist h

theorem Tbl.get_filter_none {α : Type} {d : α} {m : Tbl α} {p : Nat × α → Bool} {k : Nat} (h : ∀ e ∈ m, e.1 = k → p e = false) : Tbl.get d (m.filter p) k = d := by
  induction m with
  | nil => rfl
  | cons a m ih =>
    obtain ⟨i, x⟩ := a
    have ih := ih fun e he => h e (List.mem_cons_of_mem _ he)
    rw [List.filter_cons]
    split
    · rename_i q
      unfold Tbl.get
      rw [if_neg, ih]
      rintro rfl
      rw [h _ List.mem_cons_self rfl] at q
      cases q
    · exact ih

theorem verifies_iff (s : State) (i : Nat) : s.fwVerifies i = true ↔ s.nv.verifies i := by
  unfold State.fwVerifies State.fwSlot NV.verifies
  generalize (if i = 0 then s.nv.fwA else s.nv.fwB) = o
  cases o with
  | none => simp
  | some x => simp

theorem restoreDefaults_does (s : State) (hs : Tbl.sorted s.regs) :
    (∃ fl, (restoreDefaults s).nv = { s.nv with restoreMark := false, flows := fl }) ∧ Tbl.sorted (restoreDefaults s).regs ∧ (restoreDefaults s).sc = s.sc ∧
    (restoreDefaults s).fns = s.fns ∧ (restoreDefaults s).pw = s.pw ∧
    (restoreDefaults s).reg Dict.secFwPreferred = (if s.nv.restoreMark then Dict.secFwPreferred.dflt else s.reg Dict.secFwPreferred) := by
  unfold restoreDefaults
  split
  · rename_i q
    refine ⟨⟨[], rfl⟩, State.setReg_sorted _ _ _ _ _ (Tbl.sorted_filter hs), rfl, rfl, rfl, ?_⟩
    refine (State.setReg_other (by decide)).trans ?_
    refine Tbl.get_filter_none fun e _ he => ?_
    have h : regKey Dict.secFwPreferred 0 0 / 4096 = Dict.secFwPreferred.addr := by decide
    rw [he, h]
    decide +kernel
  · rename_i q
    refine ⟨⟨s.nv.flows, ?_⟩, hs, rfl, rfl, rfl, rfl⟩
    simp only [Bool.not_eq_true] at q
    rw [← q]

/-- What the choice of an image leaves (R107). -/
theorem chooseFirmware_does (b : State) (hb : Tbl.sorted b.regs) :
    (∃ tr, (chooseFirmware b).nv = { b.nv with fwTrials := tr }) ∧ (chooseFirmware b).sc = { b.sc with running := (chooseFirmware b).sc.running } ∧
    (chooseFirmware b).fns = b.fns ∧ (chooseFirmware b).pw = b.pw ∧ (chooseFirmware b).pk.current = b.pk.current ∧ Tbl.sorted (chooseFirmware b).regs ∧
    (let runs (i : Nat) : Prop :=
        (i = b.nv.fwConfirmed → (chooseFirmware b).sc.running = some i ∧ (chooseFirmware b).nv.fwTrials = b.nv.fwTrials) ∧
        (i ≠ b.nv.fwConfirmed → b.nv.fwTrials < 3 → (chooseFirmware b).sc.running = some i ∧ (chooseFirmware b).nv.fwTrials = b.nv.fwTrials + 1) ∧
        (i ≠ b.nv.fwConfirmed → 3 ≤ b.nv.fwTrials → (chooseFirmware b).nv.fwTrials = 0 ∧ (chooseFirmware b).reg Dict.secFwPreferred = b.nv.fwConfirmed ∧
          (b.nv.verifies b.nv.fwConfirmed → (chooseFirmware b).sc.running = some b.nv.fwConfirmed) ∧
          (¬b.nv.verifies b.nv.fwConfirmed → (chooseFirmware b).sc.running = b.sc.running))
      let pref := b.reg Dict.secFwPreferred
      (b.nv.verifies pref → runs pref) ∧ (¬b.nv.verifies pref → b.nv.verifies (1 - pref) → runs (1 - pref)) ∧
      (¬b.nv.verifies pref → ¬b.nv.verifies (1 - pref) → (chooseFirmware b).sc.running = b.sc.running ∧ (chooseFirmware b).nv.fwTrials = b.nv.fwTrials)) := by
  obtain ⟨c, hc⟩ : ∃ c, chooseFirmware b = c := ⟨_, rfl⟩
  rw [hc]
  unfold chooseFirmware at hc
  dsimp only at hc
  have fin : ∀ i, (if i = b.nv.fwConfirmed then b.runFirmware i
      else if b.nv.fwTrials < 3 then (({ b with nv := { b.nv with fwTrials := b.nv.fwTrials + 1 } }).store).runFirmware i
      else
        let v := ((({ b with nv := { b.nv with fwTrials := 0 } }).setReg Dict.secFwPreferred b.nv.fwConfirmed).store.journal 1 0xFF 0 0xFFFF 0 [i]).notify 0x0502 [i]
        if v.fwVerifies b.nv.fwConfirmed then v.runFirmware b.nv.fwConfirmed else v) = c →
      (∃ tr, c.nv = { b.nv with fwTrials := tr }) ∧ c.sc = { b.sc with running := c.sc.running } ∧ c.fns = b.fns ∧ c.pw = b.pw ∧ c.pk.current = b.pk.current ∧ Tbl.sorted c.regs ∧
      (i = b.nv.fwConfirmed → c.sc.running = some i ∧ c.nv.fwTrials = b.nv.fwTrials) ∧
      (i ≠ b.nv.fwConfirmed → b.nv.fwTrials < 3 → c.sc.running = some i ∧ c.nv.fwTrials = b.nv.fwTrials + 1) ∧
      (i ≠ b.nv.fwConfirmed → 3 ≤ b.nv.fwTrials → c.nv.fwTrials = 0 ∧ c.reg Dict.secFwPreferred = b.nv.fwConfirmed ∧
          (b.nv.verifies b.nv.fwConfirmed → c.sc.running = some b.nv.fwConfirmed) ∧ (¬b.nv.verifies b.nv.fwConfirmed → c.sc.running = b.sc.running)) := by
    intro i h
    split at h
    · rename_i q
      subst h
      exact ⟨⟨b.nv.fwTrials, rfl⟩, rfl, rfl, rfl, rfl, hb, fun _ => ⟨rfl, rfl⟩, fun n => absurd q n, fun n => absurd q n⟩
    · rename_i q
      split at h
      · rename_i q2
        subst h
        exact ⟨⟨b.nv.fwTrials + 1, rfl⟩, rfl, rfl, rfl, rfl, State.setReg_sorted _ _ _ _ _ hb, fun n => absurd n q, fun _ _ => ⟨rfl, rfl⟩, fun _ n => by omega⟩
      · rename_i q2
        dsimp only at h
        generalize hv : State.notify _ _ _ = v at h
        have v1 : v.nv = { b.nv with fwTrials := 0 } := by rw [← hv, State.notify_nv, State.journal_nv]; rfl
        have v2 : v.sc = b.sc := by rw [← hv, State.notify_sc, State.journal_sc]; rfl
        have v3 : v.fns = b.fns := by rw [← hv, State.notify_fns, State.journal_fns]; rfl
        have v4 : v.pw = b.pw := by rw [← hv, State.notify_pw, State.journal_pw]; rfl
        have v5 : v.pk.current = b.pk.current := by
          have := congrArg Pick.current (show v.pkCore = b.pkCore by rw [← hv, State.notify_pkCore, State.journal_pkCore]; rfl)
          exact this
        have v6 : Tbl.sorted v.regs := by
          rw [← hv]; exact State.notifyVia_sorted _ _ _ _ (State.journal_sorted _ _ _ _ _ _ _ _ (State.setReg_sorted _ _ _ _ _ (State.setReg_sorted _ _ _ _ _ hb)))
        have v7 : v.reg Dict.secFwPreferred = b.nv.fwConfirmed := by
          have h1 : State.sameSettings ((({ b with nv := { b.nv with fwTrials := 0 } }).setReg Dict.secFwPreferred b.nv.fwConfirmed).store) v := by
            rw [← hv]
            exact State.sameSettings_of_regs (State.journal_settings (fun _ _ _ _ _ => rfl) _ _ _ _ _ _ _) (State.notify_regs _ _ _)
          rw [h1 Dict.secFwPreferred (by decide +kernel) (by decide)]
          unfold State.store State.inc
          rw [State.setReg_other (by decide)]
          exact (State.setReg_reg hb _ _ _ _ _ _).trans (if_pos rfl)
        have v8 : v.fwVerifies b.nv.fwConfirmed = true ↔ b.nv.verifies b.nv.fwConfirmed := by
          rw [verifies_iff, v1]; rfl
        split at h
        · rename_i q3
          subst h
          exact ⟨⟨0, v1⟩, by rw [← v2]; rfl, v3, v4, v5, v6, fun n => absurd n q, fun _ n => absurd n q2,
            fun _ _ => ⟨by rw [show (v.runFirmware b.nv.fwConfirmed).nv = v.nv from rfl, v1], v7, fun _ => rfl, fun n => absurd (v8.mp q3) n⟩⟩
        · rename_i q3
          subst h
          exact ⟨⟨0, v1⟩, by rw [v2], v3, v4, v5, v6, fun n => absurd n q, fun _ n => absurd n q2,
            fun _ _ => ⟨by rw [v1], v7, fun n => absurd (v8.mpr n) q3, fun _ => by rw [v2]⟩⟩
  split at hc
  · rename_i q
    rw [List.find?_eq_none] at q
    have q1 := q _ List.mem_cons_self
    have q2 := q _ (List.mem_cons_of_mem _ List.mem_cons_self)
    rw [verifies_iff] at q1 q2
    subst hc
    exact ⟨⟨_, rfl⟩, rfl, rfl, rfl, rfl, hb, fun n => absurd n q1, fun _ n => absurd n q2, fun _ _ => ⟨rfl, rfl⟩⟩
  · rename_i i q
    obtain ⟨a1, a2, a3, a4, a5, a6, a7⟩ := fin i hc
    refine ⟨a1, a2, a3, a4, a5, a6, ?_⟩
    rw [List.find?_cons] at q
    split at q
    · rename_i q1
      cases q
      exact ⟨fun _ => a7, fun n => absurd ((verifies_iff _ _).mp q1) n, fun n => absurd ((verifies_iff _ _).mp q1) n⟩
    · rename_i q1
      have n1 : ¬b.nv.verifies (b.reg Dict.secFwPreferred) := fun n => by rw [(verifies_iff _ _).mpr n] at q1; cases q1
      rw [List.find?_cons] at q
      split at q
      · rename_i q2
        cases q
        exact ⟨fun n => absurd n n1, fun _ _ => a7, fun _ n => absurd ((verifies_iff _ _).mp q2) n⟩
      · cases q

theorem lowCheck_leaves (s : State) (n : Nat) : (s.lowCheck n).nv = s.nv ∧ (s.lowCheck n).sc = s.sc ∧ (s.lowCheck n).fns = s.fns ∧ (s.lowCheck n).pw = s.pw ∧ (s.lowCheck n).pkCore = s.pkCore ∧ (s.lowCheck n).regs = s.regs :=
  ⟨State.lowCheck_keeps (P := fun u => u.nv = s.nv) (frame_nv rfl s) s n rfl, State.lowCheck_keeps (P := fun u => u.sc = s.sc) (frame_sc rfl s) s n rfl,
    State.lowCheck_keeps (P := fun u => u.fns = s.fns) (frame_fns rfl s) s n rfl, State.lowCheck_keeps (P := fun u => u.pw = s.pw) (frame_pw rfl s) s n rfl,
    State.lowCheck_keeps (P := fun u => u.pkCore = s.pkCore) (frame_pkCore rfl s) s n rfl, State.lowCheck_keeps (P := fun u => u.regs = s.regs) (frame_regs rfl s) s n rfl⟩

/-- What boot leaves. -/
theorem bootStart_does (s : State) (hs : Tbl.sorted s.regs) (hf : Tbl.sorted s.fns) :
    Boots s.nv (if s.nv.restoreMark then Dict.secFwPreferred.dflt else s.reg Dict.secFwPreferred) s.sc.running (bootStart s) ∧ (bootStart s).pw.forceOff = s.pw.forceOff := by
  unfold bootStart
  dsimp only
  obtain ⟨⟨fl, r1⟩, r2, r3, r4, r5, r6⟩ := restoreDefaults_does s hs
  rw [← r6]
  generalize restoreDefaults s = r at *
  have b1 : (bootState r).nv = { r.nv with jsaved := r.nv.jcopy } := rfl
  have b2 : (bootState r).sc = { r.sc with doms := r.nv.keys.map fun (e : Nat × Nat × Nat) => (e.1, { root := Config.dukWrap.symm e.2.1, epoch := e.2.2, active := e.2.2 }), nonces := r.nv.nonceEnd } := rfl
  have b3 : (bootState r).regs = r.regs := rfl
  have b4 : (bootState r).fns = r.fns := rfl
  have b5 : (bootState r).pw = { r.pw with pkg := .boot } := rfl
  have b6 : (bootState r).pk.current = r.nv.floor := rfl
  generalize bootState r = b at *
  obtain ⟨⟨tr, c1⟩, c2, c3, c4, c5, c6, c7⟩ := chooseFirmware_does b (b3 ▸ r2)
  have e0 : b.reg Dict.secFwPreferred = r.reg Dict.secFwPreferred := by unfold State.reg; rw [b3]
  generalize chooseFirmware b = c at *
  have d1 : (bootIndex c).nv = c.nv ∧ (bootIndex c).sc = { c.sc with n := c.nv.sigEnd, reserving := true } ∧ (bootIndex c).fns = c.fns ∧ (bootIndex c).pw = c.pw ∧
      (bootIndex c).pkCore = c.pkCore ∧ Tbl.sorted (bootIndex c).regs ∧ (bootIndex c).reg Dict.secFwPreferred = c.reg Dict.secFwPreferred := by
    unfold bootIndex
    dsimp only
    have key : ∀ (e : Entry) (n : Nat), regKey Dict.secFwPreferred 0 0 ≠ regKey e 0 0 →
        ((State.inc { c with sc := { c.sc with n := c.nv.sigEnd, reserving := true } } e n).store).reg Dict.secFwPreferred = c.reg Dict.secFwPreferred := by
      intro e n h
      unfold State.store State.inc
      rw [State.setReg_other (by decide), State.setReg_other h]
      rfl
    have so : ∀ (e : Entry) (n : Nat), Tbl.sorted ((State.inc { c with sc := { c.sc with n := c.nv.sigEnd, reserving := true } } e n).store).regs := fun e n =>
      State.setReg_sorted _ _ _ _ _ (State.setReg_sorted _ _ _ _ _ c6)
    split
    · split
      · obtain ⟨l1, l2, l3, l4, l5, l6⟩ := lowCheck_leaves ((State.inc { c with sc := { c.sc with n := c.nv.sigEnd, reserving := true } } Dict.secXmssSkipped (c.nv.sigEnd - ‹Nat›)).store) (2 ^ 40 - ‹Nat›)
        refine ⟨l1, l2, l3, l4, l5, by rw [l6]; exact so _ _, ?_⟩
        unfold State.reg at key ⊢
        rw [l6]
        exact key _ _ (by decide)
      · exact ⟨rfl, rfl, rfl, rfl, rfl, so _ _, key _ _ (by decide)⟩
    · exact ⟨rfl, rfl, rfl, rfl, rfl, so _ _, key _ _ (by decide)⟩
  generalize bootIndex c = d at *
  obtain ⟨d1, d2, d3, d4, d5, d6, d7⟩ := d1
  obtain ⟨u, hu⟩ : ∃ u, d.when d.sc.running.isSome (beginStart (.dom 76)) = u := ⟨_, rfl⟩
  rw [hu]
  have key : ∀ x, (onStarting (.dom 76) x (d.setFn (.dom 76) { d.fn (.dom 76) with st := .starting, pend := .none })) = (d.setFn (.dom 76) { d.fn (.dom 76) with st := .starting, pend := .none }).ev 0x224 none 1 76 := fun _ => rfl
  have u1 : u.nv = d.nv ∧ u.sc = d.sc ∧ u.regs = d.regs ∧ u.pw = d.pw ∧ u.pkCore = d.pkCore ∧ (d.sc.running.isSome = true → (u.fn (.dom 76)).st = .starting) := by
    subst hu
    unfold State.when
    split
    · have e : beginStart (.dom 76) d = (d.setFn (.dom 76) { d.fn (.dom 76) with st := .starting, pend := .none }).ev 0x224 none 1 76 := by
        unfold beginStart
        rfl
      rw [e]
      refine ⟨State.ev_nv _ _ _ _ _ _ _, State.ev_sc _ _ _ _ _ _ _, State.ev_regs _ _ _ _ _ _ _, State.ev_pw _ _ _ _ _ _ _, State.ev_pkCore _ _ _ _ _ _ _, fun _ => ?_⟩
      have := (FnIs.own (f := .dom 76) (u := d) (by rw [d3, c3, b4, r4]; exact hf) { d.fn (.dom 76) with st := .starting, pend := .none }).2
      unfold State.fn at *
      rw [State.ev_fns, this]
    · rename_i q
      exact ⟨rfl, rfl, rfl, rfl, rfl, fun n => absurd n q⟩
  obtain ⟨u1, u2, u3, u4, u5, u6⟩ := u1
  have uc : u.pk.current = s.nv.floor := by
    have h : u.pk.current = c.pk.current := (congrArg Pick.current (u5.trans d5) :)
    rw [h, c5, b6, r1]
  have ur : u.reg Dict.secFwPreferred = c.reg Dict.secFwPreferred := by rw [← d7]; unfold State.reg; rw [u3]
  have us : u.sc.running = c.sc.running := by rw [u2, d2]
  have un : u.nv = c.nv := u1.trans d1
  have ver : ∀ i, b.nv.verifies i ↔ s.nv.verifies i := fun i => by rw [b1, r1]; rfl
  have w : b.sc.running = s.sc.running := by rw [b2, r3]
  have cf : b.nv.fwConfirmed = s.nv.fwConfirmed ∧ b.nv.fwTrials = s.nv.fwTrials := by rw [b1, r1]; exact ⟨rfl, rfl⟩
  simp only [ver, w, cf.1, cf.2, e0] at c7
  unfold Boots
  refine ⟨⟨?_, uc, ?_, ?_, ?_, ?_, ?_, ?_, ?_, ?_, ?_, ?_⟩, ?_⟩
  · rw [u4, d4, c4, b5]
  · rw [u2, d2, c1, b1, r1]
  · rw [u2, d2, c2, b2, r1]
  · rw [un, c1, b1, r1]
  · rw [un, c1, b1, r1]
  · rw [un, c1, b1, r1]
  · rw [un, c1, b1, r1]
  · rw [us, un, ur]; exact c7.1
  · rw [us, un, ur]; exact c7.2.1
  · rw [us, un]; exact c7.2.2
  · intro h
    refine u6 ?_
    rw [← u2]
    cases q : u.sc.running with
    | none => exact absurd q h
    | some _ => rfl
  · rw [u4, d4, c4, b5]; exact r5 ▸ rfl

theorem setPkg_pw (s : State) (p : Pkg) : (s.setPkg p).pw = { s.pw with pkg := p } := by
  unfold State.setPkg
  split
  · rename_i h; rw [← h]
  · rw [State.notify_pw]

theorem bit_add {v i j : Nat} (h : bit v i = false) : bit (v + 2 ^ i) j = if j = i then true else bit v j := by
  unfold bit at *
  simp only [beq_eq_false_iff_ne, ne_eq] at h
  have hp : 0 < 2 ^ i := Nat.two_pow_pos i
  rcases Nat.lt_trichotomy j i with q | rfl | q
  · rw [if_neg (by omega)]
    obtain ⟨d, rfl⟩ : ∃ d, i = j + 1 + d := ⟨i - j - 1, by omega⟩
    have : v + 2 ^ (j + 1 + d) = v + 2 ^ j * (2 * 2 ^ d) := by rw [Nat.pow_add, Nat.pow_succ, Nat.mul_assoc]
    rw [this, Nat.add_mul_div_left _ _ (Nat.two_pow_pos j)]
    congr 1
    omega
  · rw [if_pos rfl, Nat.add_div_right _ hp]
    simp only [beq_iff_eq]
    omega
  · rw [if_neg (by omega)]
    obtain ⟨d, rfl⟩ : ∃ d, j = i + 1 + d := ⟨j - i - 1, by omega⟩
    have e : ∀ x, x / 2 ^ (i + 1 + d) = x / 2 ^ i / 2 / 2 ^ d := fun x => by rw [Nat.pow_add, Nat.pow_succ, Nat.div_div_eq_div_mul, Nat.div_div_eq_div_mul, Nat.mul_assoc]
    rw [e, e, Nat.add_div_right _ hp]
    congr 3
    omega

theorem bit_setBit (v i j : Nat) (b : Bool) : bit (setBit v i b) j = if j = i then b else bit v j := by
  unfold setBit
  split
  · rename_i h
    simp only [beq_iff_eq] at h
    split
    · subst_vars; rfl
    · rfl
  · rename_i h
    cases b
    · have hb : bit v i = true := by simpa using h
      have h2 : 2 ^ i ≤ v := by
        unfold bit at hb
        simp only [beq_iff_eq] at hb
        by_contra q
        rw [Nat.div_eq_of_lt (by omega)] at hb
        cases hb
      have h1 : bit (v - 2 ^ i) i = false := by
        unfold bit at *
        have : v = v - 2 ^ i + 2 ^ i := by omega
        rw [this, Nat.add_div_right _ (Nat.two_pow_pos i)] at hb
        simp only [beq_iff_eq, beq_eq_false_iff_ne, ne_eq] at *
        omega
      have h3 := bit_add (j := j) h1
      rw [Nat.sub_add_cancel h2] at h3
      simp only [Bool.false_eq_true, if_false]
      split
      · subst_vars; exact h1
      · rename_i ne
        rw [if_neg ne] at h3
        exact h3.symm
    · have hb : bit v i = false := by simpa using h
      simp only [if_true]
      exact bit_add hb

/-- The changes that what follows a WRITE is made of. -/
def settlePrims : List Prim := [.out, .ctr, .nv, .pw, .pwAny, .pk, .notify, .sc, .ss, .tm, .fb, .sv, .se, .sl, .dx, .journal, .ev, .wr]

theorem writes_of {T : List Prim} {l : List Part} {s : State} {t : Nat} {w : WEnv} {a : Assoc} {i : Instr} {e : Entry} {sub v : Nat} (he : e ∈ Dict.table) (hsub : sub < e.span)
    (hx : e.isSelect = false) (hq : quietItem (itemOf e sub v) = true) (h : (s.at t).Takes w a) (hi : exec i s = run i t s (welridWrite w [itemOf e sub v])) (wf : i.wf = true)
    (k : (s.at t).Accepts w a [itemOf e sub v])
    (hf : ∀ {P : State → Prop}, Stable T P → ∀ s, P s → P (s.each (targets e a.sel) (applyOne e sub (v % 256 ^ e.size))))
    (el : Part.all.all (fun p => (l ++ settled).contains p || (T ++ settlePrims).all p.keptBy) = true) {p : State → Prop}
    (hp : p ((s.at t).afterReply w a .write (settle ((s.at t).each (targets e a.sel) (applyOne e sub (v % 256 ^ e.size)))))) : Writes s t i w a l p := by
  have h0 := welridWrite_item he hsub hx hq h k
  refine ⟨_, hi.trans (run_wf _ wf h.live), ?_, ?_, ?_⟩
  · rw [h0]; exact afterReply_replied _ _ _ _ _
  · rw [h0]
    refine frame_op (T := T ++ settlePrims) el fun hP hs => ?_
    have hT : Stable T _ := fun p hp => hP p (List.mem_append_left _ hp)
    have hS : Stable settlePrims _ := fun p hp => hP p (List.mem_append_right _ hp)
    exact afterReply_keeps (hS.mono rfl) _ _ _ _ (settle_keeps (hS.mono rfl) _ (hf hT _ hs))
  · rw [h0]; exact hp

theorem settled_keeps {P : State → Prop} (h : Stable settlePrims P) {s u : State} {w : WEnv} {a : Assoc} {r : WReply} (hs : P u) : P (s.afterReply w a r (settle u)) :=
  afterReply_keeps (h.mono rfl) _ _ _ _ (settle_keeps (h.mono rfl) _ hs)

theorem settled_nv (s u : State) (w : WEnv) (a : Assoc) (r : WReply) : (s.afterReply w a r (settle u)).nv.rest = u.nv.rest := by
  have := settled_keeps (s := s) (u := u) (w := w) (a := a) (r := r) (frame_nvRest (T := settlePrims) rfl u) rfl
  exact this

theorem settled_sc (s u : State) (w : WEnv) (a : Assoc) (r : WReply) : (s.afterReply w a r (settle u)).sc.rest = u.sc.rest := by
  have := settled_keeps (s := s) (u := u) (w := w) (a := a) (r := r) (frame_scRest (T := settlePrims) rfl u) rfl
  exact this

theorem barrier_of {x y : State} (e : x.pkCore = y.pkCore) : x.pk.barrier = y.pk.barrier := (congrArg Pick.barrier e :)

/-- Applying the domains' groups leaves all of the serving state but them. -/
theorem applyGroups_sv (s : State) : ∃ g, (applyGroups s).sv = { s.sv with groups := g } := by
  unfold applyGroups
  refine each_keeps (P := fun u => ∃ g, u.sv = { s.sv with groups := g }) (fun d u hu => ?_) ⟨_, rfl⟩
  obtain ⟨g, e⟩ := hu
  have k : ∀ (l : List Nat) (f : Nat → Nat × Nat) (v : State), (v.each l fun i s => tileGroupOff (f i).1 (f i).2 s).sv = v.sv := fun l f v =>
    each_keeps (P := fun w => w.sv = v.sv) (fun i w hw => (tileGroupOff_keeps (P := fun x => x.sv = w.sv) (frame_sv rfl w) _ _ w rfl).trans hw) rfl
  dsimp only
  rw [k _ (fun i => (i / 16, i % 16)), e]
  exact ⟨_, rfl⟩

/-- A step's end leaves the step owed, the barrier and the package's state. -/
theorem finishStep_leaves (u : State) : u.finishStep.sv.owed = u.sv.owed ∧ u.finishStep.sv.budgets = u.sv.budgets ∧ u.finishStep.pkCore = u.pkCore ∧ u.finishStep.pw = u.pw ∧ u.finishStep.regs = u.regs := by
  have sv : u.finishStep.sv.owed = u.sv.owed ∧ u.finishStep.sv.budgets = u.sv.budgets := by
    unfold State.finishStep
    split
    · exact ⟨rfl, rfl⟩
    · dsimp only
      split
      · obtain ⟨g, e⟩ := applyGroups_sv (fabricRest { u with sv := { u.sv with run := none } })
        generalize applyGroups (fabricRest { u with sv := { u.sv with run := none } }) = v at *
        have o : v.sv.owed = u.sv.owed ∧ v.sv.budgets = u.sv.budgets := by rw [e]; exact ⟨rfl, rfl⟩
        split
        · rw [State.ev_sv]; exact o
        · exact o
      · exact ⟨rfl, rfl⟩
  exact ⟨sv.1, sv.2, State.finishStep_keeps (P := fun v => v.pkCore = u.pkCore) (frame_pkCore rfl u) _ rfl, State.finishStep_keeps (P := fun v => v.pw = u.pw) (frame_pw rfl u) _ rfl,
    State.finishStep_keeps (P := fun v => v.regs = u.regs) (frame_regs rfl u) _ rfl⟩

theorem farPump_leaves (u : State) : u.farPump.sv = u.sv ∧ u.farPump.pkCore = u.pkCore ∧ u.farPump.pw = u.pw :=
  ⟨State.farPump_keeps (P := fun v => v.sv = u.sv) (frame_sv rfl u) _ rfl, State.farPump_keeps (P := fun v => v.pkCore = u.pkCore) (frame_pkCore rfl u) _ rfl,
    State.farPump_keeps (P := fun v => v.pw = u.pw) (frame_pw rfl u) _ rfl⟩

/-- What follows where no step is owed and no drain goes on. -/
theorem settle_idle {u : State} (h1 : u.sv.owed = false) (h2 : u.pw.pkg ≠ .draining) : settle u = u.farPump.finishStep.advanceBarrier.fillLanes := by
  unfold settle
  dsimp only
  obtain ⟨f1, -, f3⟩ := farPump_leaves u
  obtain ⟨g1, -, -, g4, -⟩ := finishStep_leaves u.farPump
  generalize u.farPump.finishStep = v at *
  have a1 : v.advanceBarrier.sv = v.sv := State.advanceBarrier_keeps (P := fun w => w.sv = v.sv) (frame_sv rfl v) _ rfl
  have a2 : v.advanceBarrier.pw = v.pw := State.advanceBarrier_keeps (P := fun w => w.pw = v.pw) (frame_pw rfl v) _ rfl
  generalize v.advanceBarrier = w at *
  have o : w.sv.owed = false := by rw [a1, g1, f1, h1]
  have d : w.draining = false := by
    unfold State.draining
    rw [a2, g4, f3, decide_eq_false h2]
    rfl
  have n1 : ¬(w.sv.owed = true ∧ w.stepMay = true) := fun q => by rw [o] at q; cases q.1
  have n2 : ¬(w.draining = true ∧ w.sv.run.isNone = true) := fun q => by rw [d] at q; cases q.1
  rw [if_neg n1, if_neg n2]
  have e : w.drainPump = w := by
    unfold State.drainPump
    simp only [d, Bool.false_and, Bool.false_eq_true, if_false]
  rw [e]

/-- Nothing but the far queues, the running step's end and the lanes follows a WRITE in a still state. -/
theorem still_settle {u : State} (h : u.still) : settle u = u.farPump.finishStep.fillLanes := by
  obtain ⟨a, b, c⟩ := h
  rw [settle_idle a c]
  have e : u.farPump.finishStep.pk.barrier = none := (barrier_of ((finishStep_leaves _).2.2.1.trans (farPump_leaves u).2.1)).trans b
  unfold State.advanceBarrier
  rw [e]

theorem finish_none {u : State} (h : u.sv.run = none) : u.finishStep = u := by
  unfold State.finishStep
  rw [h]

theorem settle_quiet {u : State} (h1 : u.sv.run = none) (h2 : u.sv.owed = false) (h3 : u.pw.pkg ≠ .draining) : settle u = u.farPump.advanceBarrier.fillLanes := by
  rw [settle_idle h2 h3, finish_none ((congrArg Step.run (farPump_leaves u).1).trans h1)]

theorem settle_pk (u : State) : (settle u).pk.rest = u.pk.rest := settle_keeps (P := fun v => v.pkRest = u.pkRest) (frame_pkRest rfl u) _ rfl

/-- What follows a command leaves of a barrier what `advanceBarrier` leaves. -/
theorem settle_bar (u : State) : (settle u).pk.barrier = u.farPump.finishStep.advanceBarrier.pk.barrier := by
  unfold settle
  dsimp only
  generalize u.farPump.finishStep.advanceBarrier = v
  have fin : ∀ x : State, x.finishStep.pk.barrier = x.pk.barrier := fun x => barrier_of (finishStep_leaves x).2.2.1
  have go : ∀ x : State, x.startStep.pk.barrier = x.pk.barrier := fun x =>
    have e : x.startStep.pkCore = x.pkCore := State.startStep_keeps (P := fun y => y.pkCore = x.pkCore) (frame_pkCore rfl x) _ rfl
    barrier_of e
  have bo : ∀ x : State, x.boundaries.pk.barrier = x.pk.barrier := fun x =>
    have e : x.boundaries.pkCore = x.pkCore := State.boundaries_keeps (P := fun y => y.pkCore = x.pkCore) (frame_pkCore rfl x) _ rfl
    barrier_of e
  have dr : ∀ x : State, x.drainPump.pk.barrier = x.pk.barrier := fun x =>
    have e : x.drainPump.pkCore = x.pkCore := State.drainPump_keeps (P := fun y => y.pkCore = x.pkCore) (frame_pkCore rfl x) _ rfl
    barrier_of e
  have fl : ∀ x : State, x.fillLanes.pk.barrier = x.pk.barrier := fun x =>
    have e : x.fillLanes.pkCore = x.pkCore := State.fillLanes_keeps (P := fun y => y.pkCore = x.pkCore) (frame_pkCore rfl x) _ rfl
    barrier_of e
  rw [fl, dr]
  have h2 : ∀ x : State, (if x.draining = true ∧ x.sv.run.isNone = true then x.boundaries else x).pk.barrier = x.pk.barrier := fun x => by
    split
    · exact bo x
    · rfl
  have h1 : (if v.sv.owed = true ∧ v.stepMay = true then v.startStep.finishStep else v).pk.barrier = v.pk.barrier := by
    split
    · rw [fin, go]
    · rfl
  exact (h2 _).trans h1

/-- A barrier that is not cut stays as it is through what follows a WRITE. -/
theorem settle_barrier {u : State} {b : Barrier} (h : u.pk.barrier = some b) (hc : b.cut = false) : (settle u).pk.barrier = some b := by
  rw [settle_bar]
  have e : u.farPump.finishStep.pk.barrier = some b := (barrier_of ((finishStep_leaves _).2.2.1.trans (farPump_leaves u).2.1)).trans h
  generalize u.farPump.finishStep = v at e
  unfold State.advanceBarrier
  rw [e]
  dsimp only
  rw [hc]
  exact e

/-- What an accepted last segment writes. -/
theorem block_last {s : State} {a : Assoc} {e : Entry} {b : WBlk} {data : Bytes} (he : e ∈ Dict.table) (hb : e.ty.isBlock = true) (h : s.LastSegment a e b data) (ok : Bool) :
    writeBlockAct ok { b with addr := e.addr } a s =
      (let r := writeContent ok e ((targets e a.sel).headD 0) data { s with wr := { s.wr with xfers := s.xfersBut e.addr ((targets e a.sel).headD 0) } }
       (if r.1 = 0 then .wblock e.addr else wErr r.1 0xFF e.addr, r.2, id)) := by
  have hspan : 0 < e.span := by
    have := List.all_eq_true.mp (show (Dict.table.all fun e => decide (0 < e.span)) = true by decide +kernel) e he
    exact of_decide_eq_true this
  have hf : findEntry e.addr = some (e, 0) := findEntry_of_mem (sub := 0) he hspan
  obtain ⟨h1, h2, h3, ⟨h4, h5, h6⟩, h7⟩ := h
  unfold writeBlockAct
  dsimp only
  rw [h1, h2, if_neg Bool.false_ne_true, if_neg (fun q => q rfl), hf]
  dsimp only
  generalize hi : (targets e a.sel).headD 0 = i at h7 ⊢
  rcases h7 with ⟨g1, g2, g3, g4⟩ | ⟨g1, x, g2, g3, g4, g5⟩
  · have other : (s.wr.xfers.any fun x => (x.addr == e.addr && x.scope == i) && x.assoc != a.id && decide (s.now < x.last + 10000000000)) = false := by
      rw [Bool.eq_false_iff]
      intro q
      obtain ⟨y, hy, q⟩ := List.any_eq_true.mp q
      obtain ⟨q1, q2⟩ := Bool.and_eq_true_iff.mp q
      obtain ⟨q3, q4⟩ := Bool.and_eq_true_iff.mp q1
      obtain ⟨q5, q6⟩ := Bool.and_eq_true_iff.mp q3
      have := g4 y hy (beq_iff_eq.mp q5) (beq_iff_eq.mp q6) (bne_iff_ne.mp q4)
      exact absurd (of_decide_eq_true q2) (Nat.not_lt_of_le this)
    have seg : segmentOk { b with addr := e.addr } ([] : Bytes).length e.ty.maxBlock = true := by
      unfold segmentOk
      have e1 : b.off + b.data.length = b.total := by rw [g2, ← g3]; omega
      have e2 : b.off + b.data.length ≤ b.total := by omega
      dsimp only
      rw [decide_eq_true e1, h3, decide_eq_true h4, decide_eq_true h5, decide_eq_true e2, g2]
      rfl
    rw [other, g1, h3, if_neg (fun q => by cases q.2), if_neg (fun q => by cases q.1), if_neg]
    · rw [g3]
      rfl
    · rintro (q | q)
      · cases q
      · rw [g1, h3, h1] at seg
        rw [if_pos rfl, seg] at q
        cases q
  · have seg : segmentOk { b with addr := e.addr } x.data.length e.ty.maxBlock = true := by
      unfold segmentOk
      have e1 : b.off + b.data.length = b.total := by rw [g4, ← h6, g5, List.length_append]
      have e2 : b.off + b.data.length ≤ b.total := by omega
      dsimp only
      rw [decide_eq_true e1, h3, decide_eq_true h4, decide_eq_true h5, decide_eq_true e2, decide_eq_true g4]
      rfl
    rw [g1, g2, h3, if_neg (fun q => by rcases q with ⟨q | q, _⟩ <;> cases q), if_neg (fun q => by cases q.2), if_neg]
    · rw [g5]
      rfl
    · rintro (q | q)
      · have : (x.total == b.total) = true := beq_iff_eq.mpr g3
        have q : (false || (x.total == b.total)) = false := q
        rw [this] at q
        cases q
      · rw [g1, h3, h1] at seg
        exact Bool.false_ne_true (q.symm.trans seg)

theorem block_does {s : State} {t : Nat} {w : WEnv} {a : Assoc} {b : WBlk} {data : Bytes} {e : Entry} {i : Instr} (h : (s.at t).Takes w a) (hw : w.storeOk = true) (he : e ∈ Dict.table)
    (hb : e.ty.isBlock = true) (hl : (s.at t).LastSegment a e b data) (hi : exec i s = run i t s (welridBlock w { b with addr := e.addr })) (wf : i.wf = true) :
    ∃ u g c v, exec i s = .next u ∧ g = ({ s.at t with wr := { s.wr with xfers := (s.at t).xfersBut e.addr ((targets e a.sel).headD 0) } } : State) ∧
      writeContent true e ((targets e a.sel).headD 0) data g = (c, v) ∧ u = (s.at t).afterReply w a (if c = 0 then .wblock e.addr else wErr c 0xFF e.addr) v ∧
      u.replied w a (if c = 0 then .wblock e.addr else wErr c 0xFF e.addr) := by
  generalize hr : writeContent true e ((targets e a.sel).headD 0) data { s.at t with wr := { s.wr with xfers := (s.at t).xfersBut e.addr ((targets e a.sel).headD 0) } } = r
  obtain ⟨c, v⟩ := r
  have e1 : welridBlock w { b with addr := e.addr } (s.at t) = (s.at t).afterReply w a (if c = 0 then .wblock e.addr else wErr c 0xFF e.addr) v := by
    have e1 := welridRequest_taken h false (writeBlockAct w.storeOk { b with addr := e.addr })
    rw [block_last he hb hl, hw] at e1
    have hr' : writeContent true e ((targets e a.sel).headD 0) data { (s.at t) with wr := { (s.at t).wr with xfers := (s.at t).xfersBut e.addr ((targets e a.sel).headD 0) } } = (c, v) := hr
    rw [hr'] at e1
    unfold welridBlock
    rw [hw]
    exact e1
  refine ⟨_, _, c, v, hi.trans (run_wf _ wf h.live), rfl, hr, e1, ?_⟩
  rw [e1]
  exact afterReply_replied _ _ _ _ _

theorem inc_counted {s : State} (h : Tbl.sorted s.regs) (e : Entry) : s.counted e (s.inc e) := (State.setReg_reg h e _ 0 0 0 0).trans (if_pos rfl)

theorem ev_reg (s : State) (a : Nat) (b : Option Nat) (c d : Nat) (e f : Option Nat) (x : Entry) : (s.ev a b c d e f).reg x = s.reg x := by
  unfold State.reg
  rw [State.ev_regs]

theorem inc_other {s : State} {e x : Entry} (h : regKey x 0 0 ≠ regKey e 0 0) : (s.inc e).reg x = s.reg x := State.setReg_other h

theorem counted_of {s v u : State} {e : Entry} (h : s.counted e v) (e1 : u.reg e = v.reg e) : s.counted e u := e1.trans h

theorem notify_reg (s : State) (r : Nat) (d : Bytes) (x : Entry) : (s.notify r d).reg x = s.reg x := by
  unfold State.reg
  rw [State.notify_regs]

theorem live_ctl {s : State} {t : Nat} {link dev : Nat} {f : State → State} (h1 : s.linkLive link = true) (h2 : ((s.at t).heardFrom dev).present s.device = true) :
    (s.at t).ctlArrive link dev f = f ((s.at t).heardFrom dev) := by
  unfold State.ctlArrive
  dsimp only
  have h1' : ¬((s.at t).linkLive link = false) := by
    have : (s.at t).linkLive link = s.linkLive link := rfl
    rw [this, h1]
    decide
  rw [if_neg h1']
  have hd : ((s.at t).heardFrom dev).device = s.device := by
    unfold State.heardFrom
    split <;> rfl
  rw [hd, if_pos ⟨h2, Nat.le_refl 1⟩]

theorem heardFrom_eq (s : State) (i : Nat) : ∃ d, s.heardFrom i = { s with dx := d } := by
  unfold State.heardFrom
  split
  · exact ⟨_, rfl⟩
  · exact ⟨_, rfl⟩

theorem fin_bar (x : State) : x.finishStep.pk.barrier = x.pk.barrier := (congrArg Pick.barrier (State.finishStep_keeps (P := fun y => y.pkCore = x.pkCore) (frame_pkCore rfl x) _ rfl) :)

theorem finish_regs (x : State) : x.finishStep.regs = x.regs := State.finishStep_keeps (P := fun y => y.regs = x.regs) (frame_regs rfl x) _ rfl

theorem finish_devices (x : State) : x.finishStep.warpDevices = x.warpDevices := by
  have w1 : x.finishStep.dx = x.dx := State.finishStep_keeps (P := fun y => y.dx = x.dx) (frame_dx rfl x) _ rfl
  unfold State.warpDevices State.present State.peerState State.peer State.memberDigest State.device State.reg
  rw [w1, finish_regs]

theorem queuePick_pk (s : State) (n due : Nat) (hold coal : Bool) : (s.queuePick n due hold coal true).pk.rest = { s.pk with pend := s.pk.pend ++ [s.waiting n due hold coal] }.rest := by
  let z : State := { s with pk := { s.pk with pend := s.pk.pend ++ [s.waiting n due hold coal] } }
  have f := frame_pkRest (T := [.ctr, .ev]) rfl z
  have e : s.queuePick n due hold coal true = (z.when (decide (due < s.now + 100)) fun s => (s.inc Dict.pickLateCount).ev 0x20A).when coal fun s => (s.inc Dict.pickCoalesceCount).ev 0x201 := rfl
  rw [e]
  exact when_keeps (P := fun u => u.pkRest = z.pkRest) (fun u h => f.ev rfl _ _ _ _ _ _ _ (f.ctr rfl _ _ _ _ _ rfl h))
    (when_keeps (P := fun u => u.pkRest = z.pkRest) (fun u h => f.ev rfl _ _ _ _ _ _ _ (f.ctr rfl _ _ _ _ _ rfl h)) rfl)

theorem rejectPick_pk (s : State) : s.rejectPick.pk.rest = s.pk.rest :=
  State.rejectPick_keeps (P := fun u => u.pkRest = s.pkRest) (frame_pkRest (T := [.ctr, .ev]) rfl s) s rfl

theorem rejectPick_counted {s : State} (h : Tbl.sorted s.regs) : s.counted Dict.pickRejectCount s.rejectPick := counted_of (inc_counted h _) (ev_reg _ _ _ _ _ _ _ _)

theorem sourceSeen_pk (s : State) : s.sourceSeen.pk = { s.pk with holdNext := none } := rfl

theorem toTree_pk (s : State) (typ : Nat) (m : PickMsg) : (s.toTree typ m).pk.rest = s.pk.rest :=
  State.toTree_keeps (P := fun u => u.pkRest = s.pkRest) (frame_pkRest (T := [.out, .dx, .ev]) rfl s) s _ _ rfl

theorem Pick.rest_pend {p q : Pick} (h : p.rest = q.rest) : p.pend = q.pend ∧ p.current = q.current ∧ p.st = q.st ∧ p.holdRem = q.holdRem ∧ p.holdNext = q.holdNext ∧ p.lastAct = q.lastAct ∧ p.stuck = q.stuck ∧ p.stuckPend = q.stuckPend :=
  ⟨(congrArg Pick.pend h :), (congrArg Pick.current h :), (congrArg Pick.st h :), (congrArg Pick.holdRem h :), (congrArg Pick.holdNext h :), (congrArg Pick.lastAct h :), (congrArg Pick.stuck h :), (congrArg Pick.stuckPend h :)⟩

/-- A numbered message's pick, by R53's row. -/
theorem messagePick_pk {s : State} (hs : Tbl.sorted s.regs) {n due : Nat} {hold coal : Bool} :
    (s.pk.lastNum < n → n ≤ s.pk.lastNum + 2 ^ 40 → (s.messagePick n due hold coal).pk.rest = { s.pk with holdNext := none, pend := s.pk.pend ++ [s.waiting n due hold coal] }.rest ∧
      (s.pk.numbering n = .normal ∨ s.pk.numbering n = .jump)) ∧
    (s.pk.lastNum + 2 ^ 40 < n → s.messagePick n due hold coal = s.rejectPick ∧ ¬(s.pk.numbering n = .normal ∨ s.pk.numbering n = .jump)) ∧
    (n ≤ s.pk.lastNum → s.pk.st ≠ .holdover → s.messagePick n due hold coal = s.rejectPick ∧ ¬(s.pk.numbering n = .normal ∨ s.pk.numbering n = .jump)) ∧
    (n ≤ s.pk.lastNum → s.pk.st = .holdover → s.messagePick n due hold coal = { s with pk := { s.pk with st := .synced, holdNext := none, lastAct := some due } } ∧ ¬(s.pk.numbering n = .normal ∨ s.pk.numbering n = .jump)) := by
  have far : s.pk.lastNum + 2 ^ 40 < n → s.pk.numbering n = .tooFar := fun h => by
    unfold Pick.numbering
    rw [if_neg (by omega), if_neg (by omega), if_neg (by omega)]
  have dup : n ≤ s.pk.lastNum → s.pk.numbering n = .duplicate := fun h => by
    unfold Pick.numbering
    rw [if_pos h]
  refine ⟨fun h1 h2 => ?_, fun h => ⟨?_, ?_⟩, fun h h2 => ⟨?_, ?_⟩, fun h h2 => ⟨?_, ?_⟩⟩
  · have k : s.pk.numbering n = .normal ∨ s.pk.numbering n = .jump := by
      unfold Pick.numbering
      rw [if_neg (by omega)]
      by_cases q : n = s.pk.lastNum + 1
      · rw [if_pos q]; exact .inl rfl
      · rw [if_neg q, if_pos h2]; exact .inr rfl
    refine ⟨?_, k⟩
    unfold State.messagePick
    rcases k with k | k
    · rw [k]
      exact queuePick_pk _ _ _ _ _
    · rw [k]
      dsimp only
      have e : s.when (decide (Numbering.jump = Numbering.jump)) (fun s => (s.inc Dict.pickGapCount).ev 0x209) = (s.inc Dict.pickGapCount).ev 0x209 := rfl
      rw [e, queuePick_pk, sourceSeen_pk]
      have p : ((s.inc Dict.pickGapCount).ev 0x209).pk.rest = s.pk.rest := (frame_pkRest (T := [.ev]) rfl s).ev rfl _ _ _ _ _ _ _ rfl
      have w : ((s.inc Dict.pickGapCount).ev 0x209).sourceSeen.waiting n due hold coal = s.waiting n due hold coal := by
        have : ((s.inc Dict.pickGapCount).ev 0x209).sourceSeen.now = s.now := State.ev_now _ _ _ _ _ _ _
        unfold State.waiting
        rw [this]
      rw [w]
      generalize ((s.inc Dict.pickGapCount).ev 0x209).pk = y at p
      have g : ∀ (a b : Pick) (l : PendPick), a.rest = b.rest → Pick.rest { a with holdNext := none, pend := a.pend ++ [l] } = Pick.rest { b with holdNext := none, pend := b.pend ++ [l] } := by
        intro a b l h
        have : ∀ c : Pick, Pick.rest { c with holdNext := none, pend := c.pend ++ [l] } = { c.rest with holdNext := none, pend := c.rest.pend ++ [l] } := fun c => rfl
        rw [this, this, h]
      exact g y s.pk _ p
  · unfold State.messagePick
    rw [far h]
  · rw [far h]; rintro (q | q) <;> cases q
  · unfold State.messagePick
    rw [dup h]
    exact if_neg h2
  · rw [dup h]; rintro (q | q) <;> cases q
  · unfold State.messagePick
    rw [dup h]
    exact if_pos h2
  · rw [dup h]; rintro (q | q) <;> cases q

/-- The two commands that carry a number, from the pick logic's side. -/
theorem numbered_of {s v : State} {t : Nat} {i : Instr} {n due : Nat} {hold coal : Bool} {pk : Pick} {g : State → State} (hv : v.pk = pk) (hs : Tbl.sorted v.regs) (hl : pk.lastNum = s.pk.lastNum)
    (hp : pk.pend = s.pk.pend) (ho : pk.st = s.pk.st) (hn : v.now = Nat.max s.now t) (hr : v.reg Dict.pickRejectCount = s.reg Dict.pickRejectCount) (hg : ∀ u, (g u).pk.rest = u.pk.rest)
    (hi : exec i s = .next ((v.messagePick n due hold coal).when (decide (v.pk.numbering n = .normal ∨ v.pk.numbering n = .jump)) g))
    (hf : ∀ u, exec i s = .next u → (s.at t).sameBut ([.values, .pickCore, .pickState, .warp] ++ noted) u) :
    (s.pk.lastNum < n → n ≤ s.pk.lastNum + 2 ^ 40 → ∃ u, exec i s = .next u ∧ u.pk.rest = { pk with holdNext := none, pend := s.pk.pend ++ [(s.at t).waiting n due hold coal] }.rest ∧
         (s.at t).sameBut ([.values, .pickCore, .pickState, .warp] ++ noted) u) ∧
    (s.pk.lastNum + 2 ^ 40 < n → ∃ u, exec i s = .next u ∧ u.pk.rest = pk.rest ∧ s.counted Dict.pickRejectCount u ∧ (s.at t).sameBut ([.values, .pickCore, .pickState, .warp] ++ noted) u) ∧
    (n ≤ s.pk.lastNum → s.pk.st ≠ .holdover → ∃ u, exec i s = .next u ∧ u.pk.rest = pk.rest ∧ s.counted Dict.pickRejectCount u ∧ (s.at t).sameBut ([.values, .pickCore, .pickState, .warp] ++ noted) u) ∧
    (n ≤ s.pk.lastNum → s.pk.st = .holdover → ∃ u, exec i s = .next u ∧ u.pk.rest = { pk with st := .synced, holdNext := none, lastAct := some due }.rest) := by
  obtain ⟨m1, m2, m3, m4⟩ := messagePick_pk (s := v) hs (n := n) (due := due) (hold := hold) (coal := coal)
  rw [hv, hl] at m1 m2 m3 m4
  rw [hv] at hi
  have rej : v.messagePick n due hold coal = v.rejectPick ∧ ¬(pk.numbering n = .normal ∨ pk.numbering n = .jump) →
      ∃ u, exec i s = .next u ∧ u.pk.rest = pk.rest ∧ s.counted Dict.pickRejectCount u ∧ (s.at t).sameBut ([.values, .pickCore, .pickState, .warp] ++ noted) u := by
    rintro ⟨q1, q2⟩
    have e : (v.messagePick n due hold coal).when (decide (pk.numbering n = .normal ∨ pk.numbering n = .jump)) g = v.rejectPick := by
      unfold State.when
      rw [decide_eq_false q2, if_neg Bool.false_ne_true, q1]
    rw [e] at hi
    refine ⟨_, hi, (rejectPick_pk v).trans (by rw [hv]), ?_, hf _ hi⟩
    have := rejectPick_counted hs
    unfold State.counted at this ⊢
    rw [this, hr]
  refine ⟨fun h1 h2 => ?_, fun h => rej (m2 h), fun h h2 => rej (m3 h (by rw [ho]; exact h2)), fun h h2 => ?_⟩
  · obtain ⟨q1, q2⟩ := m1 h1 h2
    have e : (v.messagePick n due hold coal).when (decide (pk.numbering n = .normal ∨ pk.numbering n = .jump)) g = g (v.messagePick n due hold coal) := by
      unfold State.when
      rw [decide_eq_true q2, if_pos rfl]
    rw [e] at hi
    refine ⟨_, hi, ?_, hf _ hi⟩
    rw [hg, q1, hp]
    have : v.waiting n due hold coal = (s.at t).waiting n due hold coal := by
      unfold State.waiting
      rw [hn]
      rfl
    rw [this]
  · obtain ⟨q1, q2⟩ := m4 h (by rw [ho]; exact h2)
    have e : (v.messagePick n due hold coal).when (decide (pk.numbering n = .normal ∨ pk.numbering n = .jump)) g = v.messagePick n due hold coal := by
      unfold State.when
      rw [decide_eq_false q2, if_neg Bool.false_ne_true]
    rw [e, q1] at hi
    exact ⟨_, hi, rfl⟩

theorem holdNext_edge (p : Pick) (l : List PendPick) (b : Bool) (e : Option Nat) (w : Nat) :
    Pick.rest { { p with stuck := b, edgeAt := e, edgeHigh := w, holdNext := none } with pend := l } = Pick.rest { { p with stuck := b, edgeAt := e, edgeHigh := w } with holdNext := none, pend := l } := rfl

theorem contact_case {s : State} {t : Nat} (l : s.live = true) (hp : s.picksTaken = true) (hs : Tbl.sorted s.regs) (width low : Nat) :
    (width < 20 → ∃ u, exec (.pickContactEdge t width low) s = .next u ∧ s.counted Dict.pickGlitchCount u ∧ (s.at t).sameBut (.values :: noted) u) ∧
    (20 ≤ width → (s.pk.stuck = true → 1000 ≤ low) →
      (s.reg Dict.pickSource = 1 → ∃ u, exec (.pickContactEdge t width low) s = .next u ∧ u.pk.rest = { ({ s.pk with stuck := false, edgeAt := some (Nat.max s.now t), edgeHigh := width } : Pick) with
          holdNext := none, pend := s.pk.pend ++ [(s.at t).waiting (Nat.max (s.pk.lastNum + 1) (s.reg Dict.pickNextNumber)) (Nat.max s.now t + s.reg Dict.pickAlignDelay) false (s.coalesces (Nat.max s.now t))] }.rest ∧
         (s.at t).sameBut ([.values, .pickCore, .pickState, .warp] ++ noted) u) ∧
      (s.reg Dict.pickSource ≠ 1 → ∃ u, exec (.pickContactEdge t width low) s = .next u ∧ u.pk.rest = ({ s.pk with stuck := false, edgeAt := some (Nat.max s.now t), edgeHigh := width } : Pick).rest ∧ s.counted Dict.pickRejectCount u ∧
         (s.at t).sameBut ([.values, .pickCore, .pickState, .warp] ++ noted) u)) := by
  obtain ⟨e1, e2⟩ := run_does (l := ([.values, .pickCore, .pickState, .warp] ++ noted)) (execPickContactEdge.eq_1 t width low s) rfl l rfl fun k hs => execPickContactEdge_keeps k _ _ _ s hs
  have hp' : (s.at t).picksTaken = true := hp
  dsimp only at e1 e2
  rw [hp'] at e1 e2
  have nt : ¬((!true) = true) := by decide
  rw [if_neg nt] at e1 e2
  refine ⟨fun h => ?_, fun h1 h2 => ⟨fun h3 => ?_, fun h3 => ?_⟩⟩
  · rw [if_pos h] at e1 e2
    refine ⟨_, e1, counted_of (inc_counted (s := s.at t) hs _) (ev_reg _ _ _ _ _ _ _ _), frame_op (T := [.ctr, .ev]) rfl fun hP hs => hP.ev rfl _ _ _ _ _ _ _ (hP.ctr rfl _ _ _ _ _ rfl hs)⟩
  all_goals
    have h2' : ¬(((s.at t).pk.stuck && decide (low < 1000)) = true) := fun q => by
      obtain ⟨q1, q2⟩ := Bool.and_eq_true_iff.mp q
      have := h2 q1
      have := of_decide_eq_true q2
      omega
    rw [if_neg (by omega : ¬width < 20), if_neg h2'] at e1 e2
  · have h3' : ¬(State.reg { s.at t with pk := { (s.at t).pk with stuck := false, edgeAt := some (s.at t).now, edgeHigh := width } } Dict.pickSource ≠ 1) := fun q => q h3
    rw [if_neg h3'] at e1 e2
    refine ⟨_, e1, ?_, e2⟩
    rw [toTree_pk, queuePick_pk]
    rfl
  · have h3' : State.reg { s.at t with pk := { (s.at t).pk with stuck := false, edgeAt := some (s.at t).now, edgeHigh := width } } Dict.pickSource ≠ 1 := h3
    rw [if_pos h3'] at e1 e2
    refine ⟨_, e1, rfl, inc_counted (s := { s.at t with pk := { (s.at t).pk with stuck := false, edgeAt := some (s.at t).now, edgeHigh := width } }) hs _, ?_⟩
    exact frame_op (T := [.pkAny, .ctr]) rfl fun {_P} hP hs => hP.ctr rfl { s.at t with pk := { (s.at t).pk with stuck := false, edgeAt := some (s.at t).now, edgeHigh := width } } _ _ _ _ rfl (hP.pkAny rfl (s.at t) _ id hs)

theorem host_case {s : State} {t : Nat} (l : s.live = true) (hp : s.picksTaken = true) (hs : Tbl.sorted s.regs) {port : Nat} (hport : port < 2) (m : HostPick) (ho : s.isOn (.port port) = true) (hv : (s.at t).vidOk port m.vid = true) :
    let good := s.reg Dict.pickSource = 3 ∧ m.minVersion ≤ 1 ∧ m.typ = 1 ∧ m.flags = 0 ∧ m.resv = 0 ∧
          (s.reg Dict.pickMsgAuth = 0 ∨ Config.gmac (s.reg Dict.pickMsgKey) m.pick ([m.version, m.minVersion, m.typ, m.flags] ++ beBytes 4 m.resv ++ beBytes 8 m.pick) = m.tag)
    (good → exec (.hostPickMessage t port m) s = .next (((s.at t).messagePick m.pick (Nat.max s.now t + s.reg Dict.pickAlignDelay) false (s.coalesces (Nat.max s.now t))).when
        (decide (s.pk.numbering m.pick = .normal ∨ s.pk.numbering m.pick = .jump)) fun s' => s'.toTree 1 (s'.rootFlit m.pick false (s.coalesces (Nat.max s.now t)) false))) ∧
    (¬good → exec (.hostPickMessage t port m) s = .next (s.at t).rejectPick) := by
  intro good
  have wf : (Instr.hostPickMessage t port m).wf = true := decide_eq_true hport
  have e1 := (execHostPickMessage.eq_1 t port m s).trans (run_wf _ wf l)
  have hp' : (s.at t).picksTaken = true := hp
  have ho' : (s.at t).isOn (.port port) = true := ho
  dsimp only at e1
  rw [hp', ho', hv] at e1
  have nt : ¬((!(true && true && true)) = true) := by decide
  rw [if_neg nt] at e1
  refine ⟨fun g => ?_, fun g => ?_⟩
  · obtain ⟨g1, g2, g3, g4, g5, g6⟩ := g
    rw [if_pos] at e1
    · exact e1
    · refine ⟨g1, g2, g3, g4, g5, ?_⟩
      rcases g6 with g6 | g6
      · exact Bool.or_eq_true_iff.mpr (.inl (decide_eq_true g6))
      · exact Bool.or_eq_true_iff.mpr (.inr (decide_eq_true g6))
  · rw [if_neg] at e1
    · exact e1
    · rintro ⟨g1, g2, g3, g4, g5, g6⟩
      refine g ⟨g1, g2, g3, g4, g5, ?_⟩
      rcases Bool.or_eq_true_iff.mp g6 with g6 | g6
      · exact .inl (of_decide_eq_true g6)
      · exact .inr (of_decide_eq_true g6)

theorem enterLost_from {P : State → Prop} (h : Stable [.out, .ctr, .nv, .notify, .sc, .ss, .tm, .fb, .se, .sl, .dx, .mn, .ev] P) (s : State) (hs : P { s with pk := s.pk.toLost }) : P (enterLost s) := by
  unfold enterLost
  dsimp only
  have k2 := @pickLostSessions_keeps P (h.mono rfl)
  refine k2 _ ?_
  refine each_keeps (P := P) (fun f u hu => when_keeps (P := P) (fun u hu => ?_) hu) ?_
  · exact h.mn rfl u _ rfl hu
  · exact h.notify rfl _ _ _ (h.ev rfl _ _ _ _ _ _ _ (h.ctr rfl _ _ _ _ _ rfl hs))

theorem enterLost_pk (s : State) : (enterLost s).pk.rest = s.pk.toLost.rest :=
  enterLost_from (P := fun u => u.pkRest = State.pkRest { s with pk := s.pk.toLost }) (frame_pkRest rfl _) s rfl

theorem enterHoldover_pk (next : Nat) (s : State) : (s.reg Dict.pickHoldoverMax = 0 → (enterHoldover next s).pk.rest = s.pk.toLost.rest) ∧
    (s.reg Dict.pickHoldoverMax ≠ 0 → (enterHoldover next s).pk.rest = { s.pk with st := .holdover, holdRem := s.reg Dict.pickHoldoverMax, holdNext := some next, lastSrc := none }.rest) := by
  unfold enterHoldover
  dsimp only
  have p : (s.ev 0x206).pk.rest = s.pk.rest := (frame_pkRest (T := [.ev]) rfl s).ev rfl _ _ _ _ _ _ _ rfl
  have r : (s.ev 0x206).reg Dict.pickHoldoverMax = s.reg Dict.pickHoldoverMax := ev_reg _ _ _ _ _ _ _ _
  have g : ∀ (a b : Pick), a.rest = b.rest → a.toLost.rest = b.toLost.rest := fun a b h => by
    have : ∀ c : Pick, c.toLost.rest = c.rest.toLost.rest := fun c => rfl
    rw [this a, this b, h]
  have g2 : ∀ (a b : Pick) (x : Nat) (y : Option Nat), a.rest = b.rest → Pick.rest { a with st := .holdover, holdRem := x, holdNext := y, lastSrc := none } = Pick.rest { b with st := .holdover, holdRem := x, holdNext := y, lastSrc := none } := fun a b x y h => by
    have : ∀ c : Pick, Pick.rest { c with st := .holdover, holdRem := x, holdNext := y, lastSrc := none } = Pick.rest { c.rest with st := .holdover, holdRem := x, holdNext := y, lastSrc := none } := fun c => rfl
    rw [this a, this b, h]
  refine ⟨fun h => ?_, fun h => ?_⟩
  · rw [r, if_pos h]
    unfold holdoverEnds
    rw [enterLost_pk]
    refine g _ _ (Eq.trans ?_ p)
    unfold State.when
    split
    · exact toTree_pk _ _ _
    · rfl
  · rw [r, if_neg h]
    exact g2 _ _ _ _ p

end Sys2Proof.Machine
end

