-- ==== Sys2Proof/Laws/Commands.lean ====
section
/-! SUPPORT. Small facts that several commands' statements need. -/

set_option linter.all false

namespace Sys2Proof.Machine

open Sys2Proof

/-- A notification is sent to every open association, and what follows leaves it sent. -/
theorem notified_of {T : List Prim} {s v u : State} {r : Nat} {d : Bytes} (e1 : v.wr.assocs = s.wr.assocs) (e2 : v.fns = s.fns) (e3 : v.wr.udp = s.wr.udp)
    (h : ∀ {P : State → Prop}, Stable T P → P (v.notify r d) → P u) : s.notified r d u := fun a ha ho hp => by
  have hp' : v.isOn (.port a.port) = true := by unfold State.isOn State.fn at hp ⊢; rw [e2]; exact hp
  obtain ⟨n, hn, n1, n2⟩ := State.notify_sends r d (e1 ▸ ha) ho hp'
  rw [e3] at hn
  exact ⟨n, h (sent_stable T _) hn, n1, n2⟩

theorem journal_reg (t : State) (a b c d e : Nat) (f : Bytes) (g : Nat) {x : Entry} {sub i : Nat} (h1 : regKey x sub i ≠ regKey (classCount a) 0 0) (h2 : regKey x sub i ≠ regKey Dict.dictStoreWrites 0 0)
    (h3 : regKey x sub i ≠ regKey Dict.faultJournalOverwrites 0 0) : (t.journal a b c d e f g).reg x sub i = t.reg x sub i := by
  have evr : ∀ (z : State) (a : Nat) (b : Option Nat) (c d : Nat) (e f : Option Nat), (z.ev a b c d e f).reg x sub i = z.reg x sub i := fun z a b c d e f => by unfold State.reg; rw [State.ev_regs]
  unfold State.journal
  dsimp only
  have z1 : (((t.inc (classCount a)).ev (classSource a)).when (decide (a = 3)) State.store).reg x sub i = t.reg x sub i :=
    when_keeps (P := fun u => u.reg x sub i = t.reg x sub i) (fun u hu => (State.setReg_other h2).trans hu) ((evr _ _ _ _ _ _ _).trans (State.setReg_other h1))
  split
  · exact z1
  · exact when_keeps (P := fun u => u.reg x sub i = t.reg x sub i) (fun u hu => (evr _ _ _ _ _ _ _).trans ((State.setReg_other h3).trans hu)) z1

theorem ev_reg' (s : State) (a : Nat) (b : Option Nat) (c d : Nat) (e f : Option Nat) (x : Entry) (sub i : Nat) : (s.ev a b c d e f).reg x sub i = s.reg x sub i := by
  unfold State.reg; rw [State.ev_regs]

theorem notify_reg' (s : State) (r : Nat) (d : Bytes) (x : Entry) (sub i : Nat) : (s.notify r d).reg x sub i = s.reg x sub i := by
  unfold State.reg; rw [State.notify_regs]

theorem fenceBit_inj {a b : Nat} (ha : a < 256) (hb : b < 256) (h : fenceBit a = fenceBit b) : a = b := by
  unfold fenceBit at h
  omega

theorem key_far {x e : Entry} (sub sub' i i' : Nat) (h : (x.addr + Nat.max 1 x.span ≤ e.addr ∨ e.addr + Nat.max 1 e.span ≤ x.addr)) (ha : x.acc = e.acc) : regKey x sub i ≠ regKey e sub' i' := by
  unfold regKey
  have h1 : sub % Nat.max 1 x.span < Nat.max 1 x.span := Nat.mod_lt _ (by simp)
  have h2 : sub' % Nat.max 1 e.span < Nat.max 1 e.span := Nat.mod_lt _ (by simp)
  rw [ha]
  split <;> omega

theorem inc_own {s : State} (h : Tbl.sorted s.regs) (e : Entry) (n c : Nat) : s.countedOn e c n (s.inc e n 0 c) := (State.setReg_reg h e _ 0 c 0 c).trans (if_pos rfl)

theorem slots_put {s : State} (h : Tbl.sorted s.fb.slots) (c g : Nat) (l : List Nat) (c' g' : Nat) : (s.setPatSlots c g l).patSlots c' g' = if 16 * c' + g' = 16 * c + g then l else s.patSlots c' g' := Tbl.get_put h

theorem slots_of {s u : State} (h : u.fb = s.fb) (c g : Nat) : u.patSlots c g = s.patSlots c g := by unfold State.patSlots; rw [h]


end Sys2Proof.Machine
end

