-- ==== Sys2Proof/Laws/PerInstr.lean ====
section
/-! SUPPORT. A command's moment says nothing about whether it is well formed, and is the only thing that moving it changes: per constructor. -/

namespace Sys2Proof.Laws

open Sys2Proof

/-- Moving a command changes its moment, and neither its being well formed nor anything else. -/
def Times.Statement (i : Instr) : Prop := ∀ u, (i.moved u).time = u ∧ (i.moved u).wf = i.wf ∧ (i.moved u).moved i.time = i

theorem Times.prechargeStart (t : Nat) : Times.Statement (.prechargeStart t) := fun _ => ⟨rfl, rfl, rfl⟩

theorem Times.busCharged (t : Nat) : Times.Statement (.busCharged t) := fun _ => ⟨rfl, rfl, rfl⟩

theorem Times.bootComplete (t : Nat) (spd : List Nat) : Times.Statement (.bootComplete t spd) := fun _ => ⟨rfl, rfl, rfl⟩

theorem Times.inputExcursionEnd (t : Nat) (dur stay : Nat) : Times.Statement (.inputExcursionEnd t dur stay) := fun _ => ⟨rfl, rfl, rfl⟩

theorem Times.excursionTimeout (t : Nat) : Times.Statement (.excursionTimeout t) := fun _ => ⟨rfl, rfl, rfl⟩

theorem Times.collapseTimeout (t : Nat) : Times.Statement (.collapseTimeout t) := fun _ => ⟨rfl, rfl, rfl⟩

theorem Times.currentLimitTick (t : Nat) (milliamps : Nat) : Times.Statement (.currentLimitTick t milliamps) := fun _ => ⟨rfl, rfl, rfl⟩

theorem Times.throttleEvaluate (t : Nat) (sn : Sensors) : Times.Statement (.throttleEvaluate t sn) := fun _ => ⟨rfl, rfl, rfl⟩

theorem Times.thermalTrip (t : Nat) : Times.Statement (.thermalTrip t) := fun _ => ⟨rfl, rfl, rfl⟩

theorem Times.hbmRefreshDoubling (t : Nat) (stack temp : Nat) : Times.Statement (.hbmRefreshDoubling t stack temp) := fun _ => ⟨rfl, rfl, rfl⟩

theorem Times.surpriseRemoval (t : Nat) : Times.Statement (.surpriseRemoval t) := fun _ => ⟨rfl, rfl, rfl⟩

theorem Times.forceOffAssert (t : Nat) : Times.Statement (.forceOffAssert t) := fun _ => ⟨rfl, rfl, rfl⟩

theorem Times.forceOffRelease (t : Nat) : Times.Statement (.forceOffRelease t) := fun _ => ⟨rfl, rfl, rfl⟩

theorem Times.packageReset (t : Nat) (w : WEnv) : Times.Statement (.packageReset t w) := fun _ => ⟨rfl, rfl, rfl⟩

theorem Times.removeRequest (t : Nat) (w : WEnv) : Times.Statement (.removeRequest t w) := fun _ => ⟨rfl, rfl, rfl⟩

theorem Times.removeRequestSkip (t : Nat) (w : WEnv) : Times.Statement (.removeRequestSkip t w) := fun _ => ⟨rfl, rfl, rfl⟩

theorem Times.removeRequestCancel (t : Nat) (w : WEnv) : Times.Statement (.removeRequestCancel t w) := fun _ => ⟨rfl, rfl, rfl⟩

theorem Times.drainTimeout (t : Nat) : Times.Statement (.drainTimeout t) := fun _ => ⟨rfl, rfl, rfl⟩

theorem Times.drainComplete (t : Nat) : Times.Statement (.drainComplete t) := fun _ => ⟨rfl, rfl, rfl⟩

theorem Times.chpowerRequest (t : Nat) (w : WEnv) (k v : Nat) : Times.Statement (.chpowerRequest t w k v) := fun _ => ⟨rfl, rfl, rfl⟩

theorem Times.hubPowerRequest (t : Nat) (w : WEnv) (k v : Nat) : Times.Statement (.hubPowerRequest t w k v) := fun _ => ⟨rfl, rfl, rfl⟩

theorem Times.functionStartComplete (t : Nat) (f : FnId) (bad : List Nat) : Times.Statement (.functionStartComplete t f bad) := fun _ => ⟨rfl, rfl, rfl⟩

theorem Times.functionStartFail (t : Nat) (f : FnId) : Times.Statement (.functionStartFail t f) := fun _ => ⟨rfl, rfl, rfl⟩

theorem Times.functionStopComplete (t : Nat) (f : FnId) : Times.Statement (.functionStopComplete t f) := fun _ => ⟨rfl, rfl, rfl⟩

theorem Times.pickContactEdge (t : Nat) (width low : Nat) : Times.Statement (.pickContactEdge t width low) := fun _ => ⟨rfl, rfl, rfl⟩

theorem Times.pickStuckInput (t : Nat) : Times.Statement (.pickStuckInput t) := fun _ => ⟨rfl, rfl, rfl⟩

theorem Times.hostPickMessage (t : Nat) (port : Nat) (m : HostPick) : Times.Statement (.hostPickMessage t port m) := fun _ => ⟨rfl, rfl, rfl⟩

theorem Times.pick (t : Nat) (link : Nat) (m : PickMsg) : Times.Statement (.pick t link m) := fun _ => ⟨rfl, rfl, rfl⟩

theorem Times.lost (t : Nat) (link : Nat) (m : PickMsg) : Times.Statement (.lost t link m) := fun _ => ⟨rfl, rfl, rfl⟩

theorem Times.pickSourceWrite (t : Nat) (w : WEnv) (v : Nat) : Times.Statement (.pickSourceWrite t w v) := fun _ => ⟨rfl, rfl, rfl⟩

theorem Times.pickActionPoint (t : Nat) : Times.Statement (.pickActionPoint t) := fun _ => ⟨rfl, rfl, rfl⟩

theorem Times.pickMissTimeout (t : Nat) : Times.Statement (.pickMissTimeout t) := fun _ => ⟨rfl, rfl, rfl⟩

theorem Times.holdoverPickDue (t : Nat) : Times.Statement (.holdoverPickDue t) := fun _ => ⟨rfl, rfl, rfl⟩

theorem Times.barrierAtWrite (t : Nat) (w : WEnv) (p : Nat) : Times.Statement (.barrierAtWrite t w p) := fun _ => ⟨rfl, rfl, rfl⟩

theorem Times.barrierRequest (t : Nat) (link dev : Nat) (m : PickMsg) : Times.Statement (.barrierRequest t link dev m) := fun _ => ⟨rfl, rfl, rfl⟩

theorem Times.barrierDone (t : Nat) (link dev : Nat) (m : PickMsg) : Times.Statement (.barrierDone t link dev m) := fun _ => ⟨rfl, rfl, rfl⟩

theorem Times.barrierTimeout (t : Nat) : Times.Statement (.barrierTimeout t) := fun _ => ⟨rfl, rfl, rfl⟩

theorem Times.barrierMessageResend (t : Nat) : Times.Statement (.barrierMessageResend t) := fun _ => ⟨rfl, rfl, rfl⟩

theorem Times.helloOffer (t : Nat) (w : WEnv) (vmax vmin role nonce : Nat) : Times.Statement (.helloOffer t w vmax vmin role nonce) := fun _ => ⟨rfl, rfl, rfl⟩

theorem Times.helloKey (t : Nat) (w : WEnv) (ct proof : Nat) : Times.Statement (.helloKey t w ct proof) := fun _ => ⟨rfl, rfl, rfl⟩

theorem Times.helloBye (t : Nat) (w : WEnv) (reason : Nat) : Times.Statement (.helloBye t w reason) := fun _ => ⟨rfl, rfl, rfl⟩

theorem Times.helloTimeout (t : Nat) (assoc : Nat) : Times.Statement (.helloTimeout t assoc) := fun _ => ⟨rfl, rfl, rfl⟩

theorem Times.helloThrottleExpire (t : Nat) : Times.Statement (.helloThrottleExpire t) := fun _ => ⟨rfl, rfl, rfl⟩

theorem Times.associationIdleTimeout (t : Nat) (assoc : Nat) : Times.Statement (.associationIdleTimeout t assoc) := fun _ => ⟨rfl, rfl, rfl⟩

theorem Times.read (t : Nat) (w : WEnv) (items : List RItem) : Times.Statement (.read t w items) := fun _ => ⟨rfl, rfl, rfl⟩

theorem Times.registerWrite (t : Nat) (w : WEnv) (items : List WItem) : Times.Statement (.registerWrite t w items) := fun _ => ⟨rfl, rfl, rfl⟩

theorem Times.readBlock (t : Nat) (w : WEnv) (addr off len : Nat) : Times.Statement (.readBlock t w addr off len) := fun _ => ⟨rfl, rfl, rfl⟩

theorem Times.writeBlock (t : Nat) (w : WEnv) (b : WBlk) : Times.Statement (.writeBlock t w b) := fun _ => ⟨rfl, rfl, rfl⟩

theorem Times.snapshotExpire (t : Nat) (assoc : Nat) : Times.Statement (.snapshotExpire t assoc) := fun _ => ⟨rfl, rfl, rfl⟩

theorem Times.blockTransferIdle (t : Nat) (addr : Nat) : Times.Statement (.blockTransferIdle t addr) := fun _ => ⟨rfl, rfl, rfl⟩

theorem Times.roleSecretWrite (t : Nat) (w : WEnv) (role secret : Nat) : Times.Statement (.roleSecretWrite t w role secret) := fun _ => ⟨rfl, rfl, rfl⟩

theorem Times.restoreDefaults (t : Nat) (w : WEnv) (v : Nat) : Times.Statement (.restoreDefaults t w v) := fun _ => ⟨rfl, rfl, rfl⟩

theorem Times.fwImageWrite (t : Nat) (w : WEnv) (b : WBlk) : Times.Statement (.fwImageWrite t w b) := fun _ => ⟨rfl, rfl, rfl⟩

theorem Times.fwSvnCommit (t : Nat) (w : WEnv) (v : Nat) : Times.Statement (.fwSvnCommit t w v) := fun _ => ⟨rfl, rfl, rfl⟩

theorem Times.fwConfirm (t : Nat) (w : WEnv) (v : Nat) : Times.Statement (.fwConfirm t w v) := fun _ => ⟨rfl, rfl, rfl⟩

theorem Times.attestNonceWrite (t : Nat) (w : WEnv) (nonce : Nat) : Times.Statement (.attestNonceWrite t w nonce) := fun _ => ⟨rfl, rfl, rfl⟩

theorem Times.attestCertReady (t : Nat) (d : Nat) : Times.Statement (.attestCertReady t d) := fun _ => ⟨rfl, rfl, rfl⟩

theorem Times.capsuleTimeout (t : Nat) (d : Nat) : Times.Statement (.capsuleTimeout t d) := fun _ => ⟨rfl, rfl, rfl⟩

theorem Times.keyCapsuleWrite (t : Nat) (w : WEnv) (b : WBlk) : Times.Statement (.keyCapsuleWrite t w b) := fun _ => ⟨rfl, rfl, rfl⟩

theorem Times.epochOverlapExpire (t : Nat) (d : Nat) : Times.Statement (.epochOverlapExpire t d) := fun _ => ⟨rfl, rfl, rfl⟩

theorem Times.keyErase (t : Nat) (w : WEnv) (v : Nat) : Times.Statement (.keyErase t w v) := fun _ => ⟨rfl, rfl, rfl⟩

theorem Times.dsecClassWrite (t : Nat) (w : WEnv) (v : Nat) : Times.Statement (.dsecClassWrite t w v) := fun _ => ⟨rfl, rfl, rfl⟩

theorem Times.tileGroupsWrite (t : Nat) (w : WEnv) (v : Nat) : Times.Statement (.tileGroupsWrite t w v) := fun _ => ⟨rfl, rfl, rfl⟩

theorem Times.sealRequest (t : Nat) (w : WEnv) (c v : Nat) : Times.Statement (.sealRequest t w c v) := fun _ => ⟨rfl, rfl, rfl⟩

theorem Times.sealStartingComplete (t : Nat) (c : Nat) : Times.Statement (.sealStartingComplete t c) := fun _ => ⟨rfl, rfl, rfl⟩

theorem Times.sealStoppingComplete (t : Nat) (c : Nat) : Times.Statement (.sealStoppingComplete t c) := fun _ => ⟨rfl, rfl, rfl⟩

theorem Times.openSession (t : Nat) (k : Nat) : Times.Statement (.openSession t k) := fun _ => ⟨rfl, rfl, rfl⟩

theorem Times.append (t : Nat) (k : Nat) : Times.Statement (.append t k) := fun _ => ⟨rfl, rfl, rfl⟩

theorem Times.generate (t : Nat) (k : Nat) : Times.Statement (.generate t k) := fun _ => ⟨rfl, rfl, rfl⟩

theorem Times.park (t : Nat) (k : Nat) : Times.Statement (.park t k) := fun _ => ⟨rfl, rfl, rfl⟩

theorem Times.revive (t : Nat) (k : Nat) : Times.Statement (.revive t k) := fun _ => ⟨rfl, rfl, rfl⟩

theorem Times.condense (t : Nat) (k : Nat) : Times.Statement (.condense t k) := fun _ => ⟨rfl, rfl, rfl⟩

theorem Times.exportSession (t : Nat) (k : Nat) : Times.Statement (.exportSession t k) := fun _ => ⟨rfl, rfl, rfl⟩

theorem Times.importSession (t : Nat) (k : Nat) (x : Option XRec) : Times.Statement (.importSession t k x) := fun _ => ⟨rfl, rfl, rfl⟩

theorem Times.query (t : Nat) (k : Nat) : Times.Statement (.query t k) := fun _ => ⟨rfl, rfl, rfl⟩

theorem Times.close (t : Nat) (k : Nat) : Times.Statement (.close t k) := fun _ => ⟨rfl, rfl, rfl⟩

theorem Times.truncate (t : Nat) (k : Nat) : Times.Statement (.truncate t k) := fun _ => ⟨rfl, rfl, rfl⟩

theorem Times.deadlineExpire (t : Nat) (r : RingId) : Times.Statement (.deadlineExpire t r) := fun _ => ⟨rfl, rfl, rfl⟩

theorem Times.parkPickReached (t : Nat) (k : Nat) : Times.Statement (.parkPickReached t k) := fun _ => ⟨rfl, rfl, rfl⟩

theorem Times.deepTtlExpire (t : Nat) (k : Nat) : Times.Statement (.deepTtlExpire t k) := fun _ => ⟨rfl, rfl, rfl⟩

theorem Times.slateTtlExpire (t : Nat) (k : Nat) : Times.Statement (.slateTtlExpire t k) := fun _ => ⟨rfl, rfl, rfl⟩

theorem Times.farTtlExpire (t : Nat) (k : Nat) : Times.Statement (.farTtlExpire t k) := fun _ => ⟨rfl, rfl, rfl⟩

theorem Times.sessionMoveComplete (t : Nat) (k : Nat) : Times.Statement (.sessionMoveComplete t k) := fun _ => ⟨rfl, rfl, rfl⟩

theorem Times.revivalComplete (t : Nat) (k : Nat) : Times.Statement (.revivalComplete t k) := fun _ => ⟨rfl, rfl, rfl⟩

theorem Times.closingComplete (t : Nat) (k : Nat) : Times.Statement (.closingComplete t k) := fun _ => ⟨rfl, rfl, rfl⟩

theorem Times.completionRecordRelease (t : Nat) (d : Nat) : Times.Statement (.completionRecordRelease t d) := fun _ => ⟨rfl, rfl, rfl⟩

theorem Times.generateStreamRecord (t : Nat) (k : Nat) : Times.Statement (.generateStreamRecord t k) := fun _ => ⟨rfl, rfl, rfl⟩

theorem Times.notifyFlowWrite (t : Nat) (w : WEnv) (v : Nat) : Times.Statement (.notifyFlowWrite t w v) := fun _ => ⟨rfl, rfl, rfl⟩

theorem Times.backgroundEviction (t : Nat) (c tier : Nat) : Times.Statement (.backgroundEviction t c tier) := fun _ => ⟨rfl, rfl, rfl⟩

theorem Times.pageMoveSwitch (t : Nat) (k lpn : Nat) (v : MoveEnd) : Times.Statement (.pageMoveSwitch t k lpn v) := fun _ => ⟨rfl, rfl, rfl⟩

theorem Times.frameLeaseRelease (t : Nat) (c tier frame : Nat) : Times.Statement (.frameLeaseRelease t c tier frame) := fun _ => ⟨rfl, rfl, rfl⟩

theorem Times.frameTestComplete (t : Nat) (c tier frame : Nat) (bad : List Nat) : Times.Statement (.frameTestComplete t c tier frame bad) := fun _ => ⟨rfl, rfl, rfl⟩

theorem Times.allocGraceExpire (t : Nat) (k : Nat) : Times.Statement (.allocGraceExpire t k) := fun _ => ⟨rfl, rfl, rfl⟩

theorem Times.fenceClear (t : Nat) (w : WEnv) (v : Nat) : Times.Statement (.fenceClear t w v) := fun _ => ⟨rfl, rfl, rfl⟩

theorem Times.tileError (t : Nat) (c tile : Nat) (ks : List Nat) : Times.Statement (.tileError t c tile ks) := fun _ => ⟨rfl, rfl, rfl⟩

theorem Times.patternLoadComplete (t : Nat) (c g model pat : Nat) : Times.Statement (.patternLoadComplete t c g model pat) := fun _ => ⟨rfl, rfl, rfl⟩

theorem Times.modelLoad (t : Nat) (d : Nat) (x : ImgArrive) : Times.Statement (.modelLoad t d x) := fun _ => ⟨rfl, rfl, rfl⟩

theorem Times.modelUnload (t : Nat) (d : Nat) : Times.Statement (.modelUnload t d) := fun _ => ⟨rfl, rfl, rfl⟩

theorem Times.trackerOpTimeout (t : Nat) (c : Nat) (op : Nat) : Times.Statement (.trackerOpTimeout t c op) := fun _ => ⟨rfl, rfl, rfl⟩

theorem Times.maskComplete (t : Nat) (k pos : Nat) : Times.Statement (.maskComplete t k pos) := fun _ => ⟨rfl, rfl, rfl⟩

theorem Times.decodePhaseCommit (t : Nat) (out : PhaseOut) : Times.Statement (.decodePhaseCommit t out) := fun _ => ⟨rfl, rfl, rfl⟩

theorem Times.prefillChunkStart (t : Nat) (k : Nat) : Times.Statement (.prefillChunkStart t k) := fun _ => ⟨rfl, rfl, rfl⟩

theorem Times.prefillChunkCommit (t : Nat) (k : Nat) (kv : List (List (List Nat))) (reads : Reads) : Times.Statement (.prefillChunkCommit t k kv reads) := fun _ => ⟨rfl, rfl, rfl⟩

theorem Times.budgetGraceExpire (t : Nat) (k : Nat) : Times.Statement (.budgetGraceExpire t k) := fun _ => ⟨rfl, rfl, rfl⟩

theorem Times.budgetAdjust (t : Nat) (w : WEnv) (v : Nat) : Times.Statement (.budgetAdjust t w v) := fun _ => ⟨rfl, rfl, rfl⟩

theorem Times.draftSlotWrite (t : Nat) (w : WEnv) (v : Nat) : Times.Statement (.draftSlotWrite t w v) := fun _ => ⟨rfl, rfl, rfl⟩

theorem Times.samplingDefine (t : Nat) (d : Nat) (rec : Option Bytes) : Times.Statement (.samplingDefine t d rec) := fun _ => ⟨rfl, rfl, rfl⟩

theorem Times.vocabLoad (t : Nat) (d : Nat) (img : Option Bytes) : Times.Statement (.vocabLoad t d img) := fun _ => ⟨rfl, rfl, rfl⟩

theorem Times.grammarLoad (t : Nat) (d : Nat) (img : Option Bytes) : Times.Statement (.grammarLoad t d img) := fun _ => ⟨rfl, rfl, rfl⟩

theorem Times.stopsetDefine (t : Nat) (d : Nat) (rec : Option Bytes) : Times.Statement (.stopsetDefine t d rec) := fun _ => ⟨rfl, rfl, rfl⟩

theorem Times.select (t : Nat) (d : Nat) (rec : Option Bytes) : Times.Statement (.select t d rec) := fun _ => ⟨rfl, rfl, rfl⟩

theorem Times.selectRowComplete (t : Nat) (d id row ns : Nat) (data : Option (List Bytes)) : Times.Statement (.selectRowComplete t d id row ns data) := fun _ => ⟨rfl, rfl, rfl⟩

theorem Times.collectionCreate (t : Nat) (d : Nat) (rec : Option Bytes) : Times.Statement (.collectionCreate t d rec) := fun _ => ⟨rfl, rfl, rfl⟩

theorem Times.vecInsert (t : Nat) (d : Nat) (rec : Option Bytes) : Times.Statement (.vecInsert t d rec) := fun _ => ⟨rfl, rfl, rfl⟩

theorem Times.vecDelete (t : Nat) (d : Nat) (rec : Option Bytes) : Times.Statement (.vecDelete t d rec) := fun _ => ⟨rfl, rfl, rfl⟩

theorem Times.vecSearch (t : Nat) (d : Nat) (rec : Option Bytes) : Times.Statement (.vecSearch t d rec) := fun _ => ⟨rfl, rfl, rfl⟩

theorem Times.listCompaction (t : Nat) (id list : Nat) : Times.Statement (.listCompaction t id list) := fun _ => ⟨rfl, rfl, rfl⟩

theorem Times.ethRequest (t : Nat) (w : WEnv) (p v : Nat) : Times.Statement (.ethRequest t w p v) := fun _ => ⟨rfl, rfl, rfl⟩

theorem Times.portLinkUp (t : Nat) (p : Nat) : Times.Statement (.portLinkUp t p) := fun _ => ⟨rfl, rfl, rfl⟩

theorem Times.portAlignmentLoss (t : Nat) (p : Nat) : Times.Statement (.portAlignmentLoss t p) := fun _ => ⟨rfl, rfl, rfl⟩

theorem Times.pfcFrameReceive (t : Nat) (p : Nat) (enable : Nat) (quanta : List Nat) : Times.Statement (.pfcFrameReceive t p enable quanta) := fun _ => ⟨rfl, rfl, rfl⟩

theorem Times.pfcRefreshTimer (t : Nat) (p prio occupancy : Nat) : Times.Statement (.pfcRefreshTimer t p prio occupancy) := fun _ => ⟨rfl, rfl, rfl⟩

theorem Times.pfcWatchdogExpire (t : Nat) (p prio : Nat) : Times.Statement (.pfcWatchdogExpire t p prio) := fun _ => ⟨rfl, rfl, rfl⟩

theorem Times.ptpEventMessage (t : Nat) (p : Nat) (m : PtpMsg) : Times.Statement (.ptpEventMessage t p m) := fun _ => ⟨rfl, rfl, rfl⟩

theorem Times.arp (t : Nat) (p : Nat) (m : IpMsg) : Times.Statement (.arp t p m) := fun _ => ⟨rfl, rfl, rfl⟩

theorem Times.neighborDiscovery (t : Nat) (p : Nat) (m : IpMsg) : Times.Statement (.neighborDiscovery t p m) := fun _ => ⟨rfl, rfl, rfl⟩

theorem Times.icmpEcho (t : Nat) (p : Nat) (m : IpMsg) : Times.Statement (.icmpEcho t p m) := fun _ => ⟨rfl, rfl, rfl⟩

theorem Times.slaiskSend (t : Nat) (p : SPkt) : Times.Statement (.slaiskSend t p) := fun _ => ⟨rfl, rfl, rfl⟩

theorem Times.slaiskWrite (t : Nat) (p : SPkt) : Times.Statement (.slaiskWrite t p) := fun _ => ⟨rfl, rfl, rfl⟩

theorem Times.slaiskRead (t : Nat) (p : SPkt) : Times.Statement (.slaiskRead t p) := fun _ => ⟨rfl, rfl, rfl⟩

theorem Times.slaiskAtomicAdd (t : Nat) (p : SPkt) : Times.Statement (.slaiskAtomicAdd t p) := fun _ => ⟨rfl, rfl, rfl⟩

theorem Times.slaiskCas (t : Nat) (p : SPkt) : Times.Statement (.slaiskCas t p) := fun _ => ⟨rfl, rfl, rfl⟩

theorem Times.slaiskReadResponse (t : Nat) (p : SPkt) : Times.Statement (.slaiskReadResponse t p) := fun _ => ⟨rfl, rfl, rfl⟩

theorem Times.slaiskAtomicResponse (t : Nat) (p : SPkt) : Times.Statement (.slaiskAtomicResponse t p) := fun _ => ⟨rfl, rfl, rfl⟩

theorem Times.slaiskFlush (t : Nat) (p : SPkt) : Times.Statement (.slaiskFlush t p) := fun _ => ⟨rfl, rfl, rfl⟩

theorem Times.slaiskFlushResponse (t : Nat) (p : SPkt) : Times.Statement (.slaiskFlushResponse t p) := fun _ => ⟨rfl, rfl, rfl⟩

theorem Times.windowOpen (t : Nat) (p : SPkt) : Times.Statement (.windowOpen t p) := fun _ => ⟨rfl, rfl, rfl⟩

theorem Times.windowStartComplete (t : Nat) (idx : Nat) : Times.Statement (.windowStartComplete t idx) := fun _ => ⟨rfl, rfl, rfl⟩

theorem Times.windowRevoke (t : Nat) (p : SPkt) : Times.Statement (.windowRevoke t p) := fun _ => ⟨rfl, rfl, rfl⟩

theorem Times.windowExpire (t : Nat) (idx : Nat) : Times.Statement (.windowExpire t idx) := fun _ => ⟨rfl, rfl, rfl⟩

theorem Times.windowStopComplete (t : Nat) (idx : Nat) : Times.Statement (.windowStopComplete t idx) := fun _ => ⟨rfl, rfl, rfl⟩

theorem Times.windowReply (t : Nat) (p : SPkt) : Times.Statement (.windowReply t p) := fun _ => ⟨rfl, rfl, rfl⟩

theorem Times.doorbellWrite (t : Nat) (p : SPkt) : Times.Statement (.doorbellWrite t p) := fun _ => ⟨rfl, rfl, rfl⟩

theorem Times.slaiskAck (t : Nat) (p : SPkt) : Times.Statement (.slaiskAck t p) := fun _ => ⟨rfl, rfl, rfl⟩

theorem Times.slaiskNak (t : Nat) (p : SPkt) : Times.Statement (.slaiskNak t p) := fun _ => ⟨rfl, rfl, rfl⟩

theorem Times.ackCoalesceTimer (t : Nat) (f : Nat) : Times.Statement (.ackCoalesceTimer t f) := fun _ => ⟨rfl, rfl, rfl⟩

theorem Times.retransmitTimeout (t : Nat) (f : Nat) : Times.Statement (.retransmitTimeout t f) := fun _ => ⟨rfl, rfl, rfl⟩

theorem Times.flowConfigure (t : Nat) (w : WEnv) (b : WBlk) : Times.Statement (.flowConfigure t w b) := fun _ => ⟨rfl, rfl, rfl⟩

theorem Times.flowRemove (t : Nat) (w : WEnv) (b : WBlk) : Times.Statement (.flowRemove t w b) := fun _ => ⟨rfl, rfl, rfl⟩

theorem Times.linkRequest (t : Nat) (w : WEnv) (n v : Nat) : Times.Statement (.linkRequest t w n v) := fun _ => ⟨rfl, rfl, rfl⟩

theorem Times.linkTrainingComplete (t : Nat) (n : Nat) (b : TrainBlk) : Times.Statement (.linkTrainingComplete t n b) := fun _ => ⟨rfl, rfl, rfl⟩

theorem Times.linkTrainingFail (t : Nat) (n code : Nat) : Times.Statement (.linkTrainingFail t n code) := fun _ => ⟨rfl, rfl, rfl⟩

theorem Times.linkFailure (t : Nat) (n : Nat) (replay : Bool) : Times.Statement (.linkFailure t n replay) := fun _ => ⟨rfl, rfl, rfl⟩

theorem Times.stopping (t : Nat) (via : Via) : Times.Statement (.stopping t via) := fun _ => ⟨rfl, rfl, rfl⟩

theorem Times.flitReceive (t : Nat) (n : Nat) (f : Flit) : Times.Statement (.flitReceive t n f) := fun _ => ⟨rfl, rfl, rfl⟩

theorem Times.replayTimeout (t : Nat) (n : Nat) : Times.Statement (.replayTimeout t n) := fun _ => ⟨rfl, rfl, rfl⟩

theorem Times.command (t : Nat) (e : DEnv) (ds : List Desc) : Times.Statement (.command t e ds) := fun _ => ⟨rfl, rfl, rfl⟩

theorem Times.commandAck (t : Nat) (e : DEnv) : Times.Statement (.commandAck t e) := fun _ => ⟨rfl, rfl, rfl⟩

theorem Times.e2eTimeout (t : Nat) (home id : Nat) : Times.Statement (.e2eTimeout t home id) := fun _ => ⟨rfl, rfl, rfl⟩

theorem Times.migrateReserve (t : Nat) (e : DEnv) (x : MigSum) : Times.Statement (.migrateReserve t e x) := fun _ => ⟨rfl, rfl, rfl⟩

theorem Times.migrateReply (t : Nat) (e : DEnv) : Times.Statement (.migrateReply t e) := fun _ => ⟨rfl, rfl, rfl⟩

theorem Times.pageData (t : Nat) (e : DEnv) (p : CkPage) : Times.Statement (.pageData t e p) := fun _ => ⟨rfl, rfl, rfl⟩

theorem Times.migrateCommit (t : Nat) (e : DEnv) (x : CkSess) (digestOk : Bool) : Times.Statement (.migrateCommit t e x digestOk) := fun _ => ⟨rfl, rfl, rfl⟩

theorem Times.migrateCommitAck (t : Nat) (e : DEnv) (status : Nat) : Times.Statement (.migrateCommitAck t e status) := fun _ => ⟨rfl, rfl, rfl⟩

theorem Times.migrationTimeout (t : Nat) (peer id : Nat) : Times.Statement (.migrationTimeout t peer id) := fun _ => ⟨rfl, rfl, rfl⟩

theorem Times.activation (t : Nat) (m : ActMsg) : Times.Statement (.activation t m) := fun _ => ⟨rfl, rfl, rfl⟩

theorem Times.activationAck (t : Nat) (e : DEnv) : Times.Statement (.activationAck t e) := fun _ => ⟨rfl, rfl, rfl⟩

theorem Times.activationTimeout (t : Nat) (mid : Nat) : Times.Statement (.activationTimeout t mid) := fun _ => ⟨rfl, rfl, rfl⟩

theorem Times.subrequest (t : Nat) (e : DEnv) (q : SubQ) (data : Option Bytes) : Times.Statement (.subrequest t e q data) := fun _ => ⟨rfl, rfl, rfl⟩

theorem Times.subresult (t : Nat) (e : DEnv) (p : PartRes) : Times.Statement (.subresult t e p) := fun _ => ⟨rfl, rfl, rfl⟩

theorem Times.heartbeat (t : Nat) (via : Via) (src pick : Nat) : Times.Statement (.heartbeat t via src pick) := fun _ => ⟨rfl, rfl, rfl⟩

theorem Times.heartbeatSend (t : Nat) : Times.Statement (.heartbeatSend t) := fun _ => ⟨rfl, rfl, rfl⟩

theorem Times.peerTimeout (t : Nat) (dev : Nat) : Times.Statement (.peerTimeout t dev) := fun _ => ⟨rfl, rfl, rfl⟩

theorem Times.fatalMessage (t : Nat) (via : Via) (src reason pick : Nat) : Times.Statement (.fatalMessage t via src reason pick) := fun _ => ⟨rfl, rfl, rfl⟩

theorem Times.stageReady (t : Nat) (via : Via) (src slot stage dom ready : Nat) : Times.Statement (.stageReady t via src slot stage dom ready) := fun _ => ⟨rfl, rfl, rfl⟩

theorem Times.stageReadyResend (t : Nat) : Times.Statement (.stageReadyResend t) := fun _ => ⟨rfl, rfl, rfl⟩

theorem Times.memberTableWrite (t : Nat) (w : WEnv) (b : WBlk) : Times.Statement (.memberTableWrite t w b) := fun _ => ⟨rfl, rfl, rfl⟩

theorem Times.routeWrite (t : Nat) (w : WEnv) (ix v : Nat) : Times.Statement (.routeWrite t w ix v) := fun _ => ⟨rfl, rfl, rfl⟩

theorem Times.treeParentWrite (t : Nat) (w : WEnv) (children : Bool) (v : Nat) : Times.Statement (.treeParentWrite t w children v) := fun _ => ⟨rfl, rfl, rfl⟩

theorem Times.deviceIndexWrite (t : Nat) (w : WEnv) (warp : Bool) (v : Nat) : Times.Statement (.deviceIndexWrite t w warp v) := fun _ => ⟨rfl, rfl, rfl⟩

theorem Times.checkpointBegin (t : Nat) (d : Nat) (ok : Bool) : Times.Statement (.checkpointBegin t d ok) := fun _ => ⟨rfl, rfl, rfl⟩

theorem Times.ckptNotice (t : Nat) (link : Nat) (m : CkMsg) : Times.Statement (.ckptNotice t link m) := fun _ => ⟨rfl, rfl, rfl⟩

theorem Times.checkpointCut (t : Nat) : Times.Statement (.checkpointCut t) := fun _ => ⟨rfl, rfl, rfl⟩

theorem Times.shardWriteComplete (t : Nat) (ok : Bool) : Times.Statement (.shardWriteComplete t ok) := fun _ => ⟨rfl, rfl, rfl⟩

theorem Times.ckptWritten (t : Nat) (link : Nat) (m : CkMsg) (ok : Bool) : Times.Statement (.ckptWritten t link m ok) := fun _ => ⟨rfl, rfl, rfl⟩

theorem Times.ckptCommit (t : Nat) (link : Nat) (m : CkMsg) : Times.Statement (.ckptCommit t link m) := fun _ => ⟨rfl, rfl, rfl⟩

theorem Times.ckptAbort (t : Nat) (link : Nat) (m : CkMsg) : Times.Statement (.ckptAbort t link m) := fun _ => ⟨rfl, rfl, rfl⟩

theorem Times.checkpointTimeout (t : Nat) : Times.Statement (.checkpointTimeout t) := fun _ => ⟨rfl, rfl, rfl⟩

theorem Times.ckptMessageResend (t : Nat) : Times.Statement (.ckptMessageResend t) := fun _ => ⟨rfl, rfl, rfl⟩

theorem Times.restoreBegin (t : Nat) (d : Nat) (rec : Option Bytes) (commits : List CkCommit) : Times.Statement (.restoreBegin t d rec commits) := fun _ => ⟨rfl, rfl, rfl⟩

theorem Times.restoreNotice (t : Nat) (link : Nat) (m : CkMsg) (commit : CkCommit) (ms : List CkManifest) : Times.Statement (.restoreNotice t link m commit ms) := fun _ => ⟨rfl, rfl, rfl⟩

theorem Times.restoreDone (t : Nat) (link : Nat) (m : CkMsg) : Times.Statement (.restoreDone t link m) := fun _ => ⟨rfl, rfl, rfl⟩

theorem Times.channelFault (t : Nat) (c src : Nat) : Times.Statement (.channelFault t c src) := fun _ => ⟨rfl, rfl, rfl⟩

theorem Times.channelSweepComplete (t : Nat) (c : Nat) : Times.Statement (.channelSweepComplete t c) := fun _ => ⟨rfl, rfl, rfl⟩

theorem Times.fatalDetect (t : Nat) (reason : Nat) : Times.Statement (.fatalDetect t reason) := fun _ => ⟨rfl, rfl, rfl⟩

theorem Times.conservationAudit (t : Nat) : Times.Statement (.conservationAudit t) := fun _ => ⟨rfl, rfl, rfl⟩

theorem Times.monRequest (t : Nat) (w : WEnv) (hub : Bool) (k v : Nat) : Times.Statement (.monRequest t w hub k v) := fun _ => ⟨rfl, rfl, rfl⟩

theorem Times.monConfigWrite (t : Nat) (w : WEnv) (hub : Bool) (k cfg : Nat) : Times.Statement (.monConfigWrite t w hub k cfg) := fun _ => ⟨rfl, rfl, rfl⟩

theorem Times.monitorTransition (t : Nat) (f : FnId) : Times.Statement (.monitorTransition t f) := fun _ => ⟨rfl, rfl, rfl⟩

theorem Times.monitorWindowEnd (t : Nat) (f : FnId) : Times.Statement (.monitorWindowEnd t f) := fun _ => ⟨rfl, rfl, rfl⟩

theorem Times.traceRequest (t : Nat) (w : WEnv) (v : Nat) : Times.Statement (.traceRequest t w v) := fun _ => ⟨rfl, rfl, rfl⟩

theorem Times.traceConfigWrite (t : Nat) (w : WEnv) (cfg : Nat) : Times.Statement (.traceConfigWrite t w cfg) := fun _ => ⟨rfl, rfl, rfl⟩

theorem Times.traceBufferFull (t : Nat) : Times.Statement (.traceBufferFull t) := fun _ => ⟨rfl, rfl, rfl⟩

theorem Times.traceStopPick (t : Nat) : Times.Statement (.traceStopPick t) := fun _ => ⟨rfl, rfl, rfl⟩

theorem Times.powerRemoval (t : Nat) : Times.Statement (.powerRemoval t) := fun _ => ⟨rfl, rfl, rfl⟩

theorem Times.pfcPauseExpire (t : Nat) (p prio : Nat) : Times.Statement (.pfcPauseExpire t p prio) := fun _ => ⟨rfl, rfl, rfl⟩

theorem Times.signatureIndexBlockReserved (t : Nat) (ok : Bool) : Times.Statement (.signatureIndexBlockReserved t ok) := fun _ => ⟨rfl, rfl, rfl⟩

theorem Times.tokenisingComplete (t : Nat) (k : Nat) : Times.Statement (.tokenisingComplete t k) := fun _ => ⟨rfl, rfl, rfl⟩

theorem Times.listPassComplete (t : Nat) (d id : Nat) (qs : List Nat) (list : Option Nat) (bad : List Nat) : Times.Statement (.listPassComplete t d id qs list bad) := fun _ => ⟨rfl, rfl, rfl⟩

end Sys2Proof.Laws
end

