-- ==== Sys2Proof/Laws/Serving.lean ====
section
/-! SUPPORT. What the serving step's operations leave of a session's tokens, its length, and the step itself. -/

set_option linter.all false

namespace Sys2Proof.Machine

open Sys2Proof

/-- Session k's tokens and length. -/
def LogIs (k : Nat) (T : List Nat) (L : Nat) (u : State) : Prop := Tbl.sorted u.ss.tbl ∧ (u.sess k).tokens = T ∧ (u.sess k).length = L

theorem LogIs.of {k : Nat} {T : List Nat} {L : Nat} {s u : State} (h : LogIs k T L s) (e : u.ss.tbl = s.ss.tbl) : LogIs k T L u :=
  ⟨by rw [e]; exact h.1, by rw [State.sess_of_tbl e k]; exact h.2.1, by rw [State.sess_of_tbl e k]; exact h.2.2⟩

theorem LogIs.stable {T : List Prim} (e : T.all Prim.keepsSs = true) (k : Nat) (A : List Nat) (L : Nat) : Stable T (LogIs k A L) := by
  intro p hp
  have w : ∀ s u : State, u.ss = s.ss → LogIs k A L s → LogIs k A L u := fun s u q h => h.of (congrArg Sessions.tbl q :)
  have hk := List.all_eq_true.mp e p hp
  cases p <;> first | cases hk | skip
  all_goals intro s; intros; first
    | exact w s _ rfl (by assumption)
    | exact w s _ (State.notifyVia_ss _ _ _ _) (by assumption)
    | exact w s _ (State.journal_ss _ _ _ _ _ _ _ _) (by assumption)
    | exact w s _ (State.ev_ss _ _ _ _ _ _ _) (by assumption)

theorem LogIs.set {k j : Nat} {T : List Nat} {L : Nat} {s : State} (h : LogIs k T L s) (x : Sess) (h1 : x.tokens = (s.sess j).tokens) (h2 : x.length = (s.sess j).length) : LogIs k T L (s.setSess j x) := by
  refine ⟨State.setSess_sorted h.1 _ _, ?_, ?_⟩
  · rw [State.setSess_sess h.1]
    split
    · rename_i e; rw [h1, ← e]; exact h.2.1
    · exact h.2.1
  · rw [State.setSess_sess h.1]
    split
    · rename_i e; rw [h2, ← e]; exact h.2.2
    · exact h.2.2

theorem LogIs.own {k : Nat} {T : List Nat} {L : Nat} {s : State} (h : LogIs k T L s) (x : Sess) : LogIs k x.tokens x.length (s.setSess k x) := by
  refine ⟨State.setSess_sorted h.1 _ _, ?_, ?_⟩ <;> rw [State.setSess_sess h.1, if_pos rfl]

theorem LogIs.pageOk (k : Nat) (T : List Nat) (L : Nat) : PageOk (LogIs k T L) := fun _ _ _ e h => h.set _ (congrArg Sess.tokens e :) (congrArg Sess.length e :)

/-! ### Pages that the step writes -/

theorem State.landStage_by {P : State → Prop} (st : Stable pageMoves P) (hp : PageOk P) {s : State} (k l : Nat) (h : P s) : P (s.landStage k l) := by
  unfold State.landStage
  dsimp only
  split
  · exact h
  · split
    · refine hp.page ?_ _ _ _
      exact hp _ _ _ rfl h
    · have t := State.newPage_by st hp k l h
      generalize s.newPage k l = o at t ⊢
      cases o with
      | none => exact h
      | some u => exact OkO.get rfl t

theorem State.landWithList_by {P : State → Prop} (st : Stable pageMoves P) (hp : PageOk P) {s : State} (k l : Nat) (h : P s) : P (s.landWithList k l) := by
  unfold State.landWithList
  exact State.landStage_by st hp _ _ (each_keeps (P := P) (fun a u hu => State.landStage_by st hp _ _ hu) h)

theorem State.putKv_by {P : State → Prop} (st : Stable pageMoves P) (hp : PageOk P) {s : State} (k : Nat) (m : Model) (l off : Nat) (vals : List Nat) (h : P s) : P (s.putKv k m l off vals) := by
  unfold State.putKv
  dsimp only
  have h1 := State.landWithList_by st hp k l h
  split
  · exact h1
  · exact when_keeps (P := P) (fun u hu => st.ev rfl _ _ _ _ _ _ _ hu) (hp.page (when_keeps (P := P) (fun u hu => st.ev rfl _ _ _ _ _ _ _ hu) h1) _ _ _)

theorem State.putTarget_by {P : State → Prop} (st : Stable pageMoves P) (hp : PageOk P) {s : State} (k lo : Nat) (kvs : List (List (List Nat))) (h : P s) : P (s.putTarget k lo kvs) := by
  unfold State.putTarget
  exact each_keeps (P := P) (fun e u hu => each_keeps (P := P) (fun i u hu => State.putKv_by st hp _ _ _ _ _ hu) hu) h

theorem State.putDraft_by {P : State → Prop} (st : Stable pageMoves P) (hp : PageOk P) {s : State} (k lo : Nat) (kvs : List (List (List Nat))) (h : P s) : P (s.putDraft k lo kvs) := by
  unfold State.putDraft
  dsimp only
  split
  · exact h
  · exact each_keeps (P := P) (fun e u hu => each_keeps (P := P) (fun i u hu => State.putKv_by st hp _ _ _ _ _ hu) hu) h

theorem State.putTokens_by {P : State → Prop} (st : Stable pageMoves P) (hp : PageOk P) {s : State} (k lo hi : Nat) (h : P s) : P (s.putTokens k lo hi) := by
  unfold State.putTokens
  refine each_keeps (P := P) (fun l u hu => ?_) h
  have h1 := State.landWithList_by st hp k l hu
  dsimp only
  split
  · exact hp.page h1 _ _ _
  · exact h1

theorem State.fillKv_by {P : State → Prop} (st : Stable pageMoves P) (hp : PageOk P) {s : State} (k : Nat) (m : Model) (l off : Nat) (vals : List Nat) (h : P s) : P (s.fillKv k m l off vals) := by
  unfold State.fillKv
  split
  · exact h
  · split
    · exact h
    · exact State.putKv_by st hp _ _ _ _ _ h

theorem State.fillAll_by {P : State → Prop} (st : Stable pageMoves P) (hp : PageOk P) {s : State} (k lo : Nat) (kvs : List (List (List Nat))) (h : P s) : P (s.fillAll k lo kvs) := by
  unfold State.fillAll
  dsimp only
  refine each_keeps (P := P) (fun e u hu => ?_) h
  have h1 : P (u.each (List.range (s.model (s.sess k).model).span.2) fun i s' => s'.fillKv k (s.model (s.sess k).model) ((lo + e.1) / Nat.max 1 (s.model (s.sess k).model).block * (s.model (s.sess k).model).total + (s.model (s.sess k).model).span.1 + i) ((lo + e.1) % Nat.max 1 (s.model (s.sess k).model).block) (e.2.getD i [])) :=
    each_keeps (P := P) (fun i u hu => State.fillKv_by st hp _ _ _ _ _ hu) hu
  split
  · exact h1
  · exact each_keeps (P := P) (fun i u hu => State.fillKv_by st hp _ _ _ _ _ hu) h1

theorem State.promote_by {P : State → Prop} (st : Stable pageMoves P) (hp : PageOk P) {s : State} (k l : Nat) (h : P s) : P (s.promote k l) := by
  unfold State.promote
  dsimp only
  split
  · exact h
  · split
    · split
      · exact h
      · split
        · have t := State.takeFrame_keeps (st.mono rfl) s (s.sess k).dom (by assumption) 0 h
          split
          · rename_i e
            exact State.addMove_by (st.mono rfl) hp _ (OkOP.get e t)
          · exact h
        · exact h
    · exact h

theorem State.readPages_by {P : State → Prop} (st : Stable pageMoves P) (hp : PageOk P) {s : State} (k hi : Nat) (hot : List Nat) (h : P s) : P (s.readPages k hi hot) := by
  unfold State.readPages
  dsimp only
  have pr : ∀ (l : List Nat) (u : State), P u → P (u.each l fun l s => s.promote k l) := fun l u hu => each_keeps (P := P) (fun a u hu => State.promote_by st hp _ _ hu) hu
  have lk : ∀ {α : Type} (f : α → Nat) (c : Nat) (l : List α) (u : State), P u → P (u.each l fun e s => s.lookup c k (f e)) := fun f c l u hu => each_keeps (P := P) (fun e u hu => State.lookup_keeps (st.mono rfl) _ _ _ _ hu) hu
  have es : ∀ (u : State) (a n : Nat), P u → P (u.evS k a n) := fun u a n hu => State.evS_keeps (st.mono rfl) _ _ _ _ hu
  refine pr _ _ (when_keeps (P := P) (fun u hu => ?_) (when_keeps (P := P) (fun u hu => st.ctrInc rfl _ _ _ _ _ rfl hu)
    (lk id _ _ _ (State.stepSlots_keeps (st.mono rfl) _ _ _ (State.walkRuns_keeps (st.mono rfl) _ _ _ (hp _ _ _ rfl h))))))
  refine when_keeps (P := P) (fun u hu => pr _ _ (st.ev rfl _ _ _ _ _ _ _ (st.ctrInc rfl _ _ _ _ _ rfl hu))) (st.ev rfl _ _ _ _ _ _ _ (st.ev rfl _ _ _ _ _ _ _ ?_))
  exact lk (fun (e : Nat × Page) => e.1) _ _ _ (es _ _ _ (es _ _ _ (st.ctrInc rfl _ _ _ _ _ rfl hu)))

/-! ### The end of a running command -/

theorem LogIs.evS {k : Nat} {T : List Nat} {L : Nat} {s : State} (h : LogIs k T L s) (j a n : Nat) : LogIs k T L (s.evS j a n) := h.of (congrArg Sessions.tbl (evS_ss _ _ _ _) :)

theorem LogIs.inc {k : Nat} {T : List Nat} {L : Nat} {s : State} (h : LogIs k T L s) (e : Entry) (n sub i : Nat) : LogIs k T L (s.inc e n sub i) := h.of rfl

theorem LogIs.toState {k j : Nat} {T : List Nat} {L : Nat} {s : State} (h : LogIs k T L s) (st : SSt) : LogIs k T L (s.toState j st) := by
  unfold State.toState
  dsimp only
  have h1 := h.set (j := j) { s.sess j with st := st, since := s.pk.current } rfl rfl
  split
  · exact (LogIs.stable (T := [.ev]) rfl _ _ _).ev rfl _ _ _ _ _ _ _ h1
  · split
    · exact (LogIs.stable (T := [.ev]) rfl _ _ _).ev rfl _ _ _ _ _ _ _ h1
    · exact h1

theorem LogIs.output {k : Nat} {T : List Nat} {L : Nat} {s : State} (h : LogIs k T L s) (d v n a : Nat) (b : Bytes) (o : Option OpFor) : LogIs k T L (s.output d v n a b o) :=
  State.output_keeps (LogIs.stable rfl _ _ _) _ _ _ _ _ _ _ h

theorem LogIs.flushHeld {k j : Nat} {T : List Nat} {L : Nat} {s : State} (h : LogIs k T L s) : LogIs k T L (s.flushHeld j) := by
  unfold State.flushHeld
  dsimp only
  split
  · split
    · rename_i r _ _
      have e : ((s.output r.q.dom r.q.d.dataRef r.q.d.dataLen (s.sess j).ctx.delivered ((s.sess j).ctx.held.take (r.q.d.dataLen - (s.sess j).ctx.delivered)) (some (.sessIn j r.q.d.seq)))).ss = s.ss :=
        State.output_keeps (P := fun u => u.ss = s.ss) (frame_ss rfl s) _ _ _ _ _ _ _ rfl
      have e2 := State.sess_of_tbl (congrArg Sessions.tbl e :) j
      exact (h.output _ _ _ _ _ _).set _ (by rw [e2]) (by rw [e2])
    · exact h
  · exact h

theorem LogIs.releaseStage {k j : Nat} {T : List Nat} {L : Nat} {s : State} (h : LogIs k T L s) : LogIs k T L (s.releaseStage j) := by
  unfold State.releaseStage
  dsimp only
  exact LogIs.set (each_keeps (P := LogIs k T L) (fun a u hu => State.freeFrame_keeps (LogIs.stable (T := [.tm]) rfl _ _ _) u _ _ _ _ hu) h) _ rfl rfl

theorem LogIs.endRun {k j : Nat} {T : List Nat} {L : Nat} {s : State} (h : LogIs k T L s) (a b c : Nat) : LogIs k T L (s.endRun j a b c) := by
  unfold State.endRun
  dsimp only
  split
  · exact h
  · exact (h.set (j := j) { s.sess j with run := none, deadline := 0, waitFrom := none, bwait := 0, masks := [], late := false } rfl rfl).of (State.endDesc_tbl _ _ _ _ _ _)

theorem LogIs.toRest {k j : Nat} {T : List Nat} {L : Nat} {s : State} (h : LogIs k T L s) : LogIs k T L (s.toRest j) := by
  unfold State.toRest
  dsimp only
  exact (h.toState _).set _ rfl rfl

theorem LogIs.stopRun {k j : Nat} {T : List Nat} {L : Nat} {s : State} (h : LogIs k T L s) (a : Nat) : LogIs k T L (s.stopRun j a) := by
  unfold State.stopRun
  dsimp only
  have h1 := (h.flushHeld (j := j)).releaseStage (j := j)
  generalize ((s.flushHeld j).sess j).doneSoFar = b
  generalize ((s.flushHeld j).sess j).outLen = c
  generalize ((s.flushHeld j).sess j).dom = d
  have h2 := h1.endRun (j := j) a b c
  have h3 := when_keeps (P := LogIs k T L) (b := decide (a = stBudget)) (f := fun s => (s.inc Dict.dbudgetExhaustedCount 1 0 d).evS j 0x256) (fun u hu => (hu.inc _ _ _ _).evS _ _ _)
    (when_keeps (P := LogIs k T L) (b := decide (a = stDeadend)) (f := fun s => (s.inc Dict.grammarDeadendCount 1 0 (chOf j)).evS j 0x110) (fun u hu => (hu.inc _ _ _ _).evS _ _ _) h2)
  split
  · exact h3.toState _
  · exact h3.toRest

theorem LogIs.boundary {k j : Nat} {T : List Nat} {L : Nat} {s : State} (h : LogIs k T L s) : LogIs k T L (s.boundary j) := by
  unfold State.boundary
  dsimp only
  exact ite_keeps (P := LogIs k T L) h (ite_keeps (P := LogIs k T L) (h.stopRun _) (ite_keeps (P := LogIs k T L) (h.stopRun _) (ite_keeps (P := LogIs k T L) (h.stopRun _) (ite_keeps (P := LogIs k T L) (h.stopRun _)
    (ite_keeps (P := LogIs k T L) (h.stopRun _) (ite_keeps (P := LogIs k T L) (h.stopRun _) h))))))

theorem LogIs.finishStep {k : Nat} {T : List Nat} {L : Nat} {s : State} (h : LogIs k T L s) : LogIs k T L s.finishStep := by
  unfold State.finishStep
  split
  · exact h
  · dsimp only
    split
    · have h1 : LogIs k T L (applyGroups (fabricRest { s with sv := { s.sv with run := none } })) := applyGroups_keeps (LogIs.stable rfl _ _ _) _ (fabricRest_keeps (LogIs.stable rfl _ _ _) _ (h.of rfl))
      split
      · exact (LogIs.stable (T := [.ev]) rfl _ _ _).ev rfl _ _ _ _ _ _ _ h1
      · exact h1
    · exact h

end Sys2Proof.Machine
end

