-- ==== Sys2Proof/Tests/Slice0.lean ====
section
/-! SUPPORT. Small tests: the checks of well-formedness, one step of each family of commands on small states, and for each statement with premises concrete states
and operands that meet them. -/

namespace Sys2Proof.Tests

set_option maxRecDepth 20000
set_option Elab.async false

open Sys2Proof Sys2Proof.Machine

/-! ## Small states -/

/-- A function that is ON. -/
def on : Fn := { st := .on }

/-- An open association of a role, number and role alike, on port 0. -/
def assoc (r : Nat) : Assoc := { id := r, role := r, opened := true, port := 0, src := 9, key := 77, chanSel := 0, domSel := 5, modSel := 2 }

/-- A request of association r that comes in order. -/
def env (r : Nat) : WEnv := { port := 0, src := 9, sizeOk := true, resv := false, prot := true, assoc := r, seq := 1, tagOk := true, storeOk := true }

/-- A session slot of channel 0, and its handle's first field values: the channel has started once. -/
def base : State :=
  { State.reset with
    now := 1000000
    nv := { State.reset.nv with claimed := true, sigEnd := 1024, sigClose := none, starts := [(0, 1)] }
    pw := { State.reset.pw with pkg := .serving, spd := List.replicate 16 64 }
    pk := { State.reset.pk with current := 100, st := .synced }
    sc := { State.reset.sc with running := some 0, n := 3 }
    fns := (List.range 80).map (fun n => (n, on)) ++ [(100, on), (200, on)]
    wr := { State.reset.wr with assocs := [assoc 1, assoc 2, assoc 3, assoc 4], nextId := 5 } }

/-- exec answers a next state that passes p. -/
def ok (i : Instr) (s : State) (p : State → Bool) : Bool :=
  match exec i s with
  | .next u => p u
  | _ => false

/-! ## Premises as checks -/

theorem sorted_of {α : Type} {m : Tbl α} (h : decide (m.Pairwise fun a b => a.1 < b.1) = true) : Tbl.sorted m := by
  have := of_decide_eq_true h
  exact this

theorem takes_of {s : State} {w : WEnv} {a : Assoc}
    (h : s.live = true ∧ s.isOn (.port w.port) = true ∧ (w.udp = s.wr.udp ∧ s.vidOk w.port w.vid = true) ∧ (w.sizeOk = true ∧ w.minVersion ≤ 1 ∧ w.badType = false ∧ w.resv = false) ∧
      s.assocOf w = some a ∧ w.tagOk = true ∧ w.seq = a.q + 1) : s.Takes w a :=
  let ⟨live, port, ⟨udp, vlan⟩, ⟨size, version, kind, fields⟩, assoc, tag, seq⟩ := h
  { live, port, udp, vlan, size, version, kind, fields, assoc, tag, seq }

theorem accepts_of {s : State} {w : WEnv} {a : Assoc} {l : List WItem}
    (h : (l ≠ [] ∧ l.length ≤ 32) ∧ s.checkItems a.role 0 a.sel l = none ∧ w.storeOk = true) : s.Accepts w a l :=
  let ⟨⟨given, few⟩, checks, store⟩ := h
  { given, few, checks, store }

theorem canonical_of {s : State} (h : decide (s.regs.Pairwise fun a b => a.1 < b.1) = true) (f : Tbl.wf (fun _ => ({} : Fn)) s.fns = true)
    (m : (s.sl.wins.all fun e => memWf e.2.mem) = true) : s.Canonical := ⟨sorted_of h, f, by simpa using m⟩

/-- Every WRITE of one of these items (entry, sub-index, value) is accepted. -/
theorem accepts_all {s : State} {w : WEnv} {a : Assoc} (l : List (Entry × Nat × Nat))
    (h : (w.storeOk && l.all fun p => decide (s.checkItems a.role 0 a.sel [itemOf p.1 p.2.1 p.2.2] = none)) = true) : ∀ p ∈ l, s.Accepts w a [itemOf p.1 p.2.1 p.2.2] := by
  intro p hp
  rw [Bool.and_eq_true, List.all_eq_true] at h
  exact ⟨by simp, by simp, of_decide_eq_true (h.2 p hp), h.1⟩

/-! ## A warp: this device at index 0, and others -/

/-- A member table: this device's digest in entry 0, and m in the entries after it. -/
def table (m : Nat) : Nat := ownDigest * 2 ^ 16128 + m

theorem ownDigest_pos : 0 < ownDigest := Nat.succ_pos _

theorem ownDigest_lt : ownDigest < 2 ^ 256 := by
  have := Nat.mod_lt (Config.constEntry Dict.idIdentityDigest.addr) (show 0 < 2 ^ 256 - 1 by decide)
  unfold ownDigest
  omega

theorem table_own {m : Nat} (hm : m < 2 ^ 16128) : beField 2048 (table m) 0 32 = ownDigest := by
  have h1 : (256 : Nat) ^ (2048 - 0 - 32) = 2 ^ 16128 := by decide +kernel
  have h2 : (256 : Nat) ^ 32 = 2 ^ 256 := by decide +kernel
  unfold beField
  rw [h1, h2, table, Nat.mul_comm, Nat.mul_add_div (by positivity), Nat.div_eq_of_lt hm, Nat.add_zero, Nat.mod_eq_of_lt ownDigest_lt]

theorem table_other (m : Nat) {i : Nat} (h0 : 0 < i) (h1 : i < 64) : beField 2048 (table m) (32 * i) 32 = beField 2048 m (32 * i) 32 := by
  have he : ∃ k, 2 ^ 16128 = 256 ^ (2048 - 32 * i - 32) * (256 ^ 32 * k) := by
    refine ⟨256 ^ (32 * i - 32), ?_⟩
    rw [← Nat.pow_add, ← Nat.pow_add, show 2048 - 32 * i - 32 + (32 + (32 * i - 32)) = 2016 by omega]
    decide +kernel
  obtain ⟨k, hk⟩ := he
  unfold beField table
  rw [hk, show ownDigest * (256 ^ (2048 - 32 * i - 32) * (256 ^ 32 * k)) = 256 ^ (2048 - 32 * i - 32) * (256 ^ 32 * (ownDigest * k)) by ring, Nat.mul_add_div (by positivity), Nat.mul_add_mod]

/-- The device is PRESENT at index 0. -/
theorem present_own {s : State} {m : Nat} (hr : s.reg Dict.warpMemberTable = table m) (hm : m < 2 ^ 16128) (hd : s.device = 0) : s.present s.device = true := by
  have h : s.memberDigest 0 = ownDigest := by
    unfold State.memberDigest
    rw [hr]
    exact table_own hm
  unfold State.present State.peerState
  rw [hd, h, if_neg (Nat.pos_iff_ne_zero.mp ownDigest_pos), if_pos rfl, if_pos rfl]
  rfl

theorem heard_reg (s : State) (i : Nat) : (s.heardFrom i).reg Dict.warpMemberTable = s.reg Dict.warpMemberTable ∧ (s.heardFrom i).device = s.device := by
  unfold State.heardFrom
  split <;> exact ⟨rfl, rfl⟩

theorem heard_present {s : State} {m : Nat} (i : Nat) (hr : s.reg Dict.warpMemberTable = table m) (hm : m < 2 ^ 16128) (hd : s.device = 0) : (s.heardFrom i).present s.device = true := by
  have h := heard_reg s i
  rw [← h.2]
  exact present_own (h.1.trans hr) hm (h.2.trans hd)

/-- Devices 1 and 63 of the warp have the digests 1 and 2; 1 is PRESENT since 1 ms. -/
def member (s : State) : State :=
  { s with regs := [(regKey Dict.warpMemberTable 0 0, table (2 ^ 15872 + 2))], dx := { s.dx with peers := [(1, { st := 2, heard := 1000000 }), (63, { st := 1 })] } }

theorem member_reg (s : State) : (member s).reg Dict.warpMemberTable = table (2 ^ 15872 + 2) := by
  unfold State.reg member Tbl.get
  rw [if_pos (by decide)]
theorem member_lt : 2 ^ 15872 + 2 < 2 ^ 16128 := by decide +kernel
theorem member_device (s : State) : (member s).device = 0 := rfl
theorem member_digest_1 (s : State) : (member s).memberDigest 1 = 1 := by
  unfold State.memberDigest
  rw [member_reg, table_other _ (by decide) (by decide)]
  decide +kernel
theorem member_digest_63 (s : State) : (member s).memberDigest 63 = 2 := by
  unfold State.memberDigest
  rw [member_reg, table_other _ (by decide) (by decide)]
  decide +kernel

/-! ## A domain that is served -/

/-- A vocabulary of four tokens: a, b, ab and an end token, with one merge. -/
def vocab : Vocab :=
  { len := 100, digest := 55, entries := [([97], 0), ([98], 0), ([97, 98], 0), ([], 0)], merges := [(97, 98, 2, 0)], form := 0, base := 0, eos := [3], classes := [], index := [], blocks := [], decs := [], pairs := [] }

/-- A pattern of footprint 1 with no exchange. -/
def pattern (n : Nat) (pinned : Bool) : Pat := { id := n, foot := 1, pinned := pinned, sat := true, exch := false, minLanes := 1 }

/-- A model of domain 5 on channel 0: one layer, blocks of 16 tokens, one KV head of one element. -/
def model : Model :=
  { st := 2, dom := 5, chans := [0], layers := 1, total := 1, block := 16, meas := 66, vocab := 55, qHeads := 1, kvHeads := 1, headDim := 1, pats := [pattern 0 false, pattern 1 true], stages := 1 }

/-- Domain 5 holds keys, slots 0 to 9 of channel 0, room in memory, its I/O and far regions over flow 7, model slot 2 and vocabulary slot 0. -/
def hosting : State :=
  let s := { base with
    sc := { base.sc with doms := [(5, { epoch := 1, root := 9, active := 1 })] }
    sl := { base.sl with flows := [(7, { st := 1, cfg := { ports := 1, dom := 5 } })] }
    fb := { base.fb with models := [(2, model)] }
    tx := { base.tx with vocabs := [(0, { dom := 5, v := vocab, chans := [0] })] } }
  let s := ((s.setReg Dict.dsessSlotCount 10 0 5).setReg Dict.dsessMaxSessions 8 0 5).setReg Dict.dslaiskIoFlow 7 0 5
  let s := ((s.setReg Dict.dslaiskInputBytes 65536 0 5).setReg Dict.dslaiskOutputBytes 65536 0 5).setReg Dict.dtierFarFlow 7 0 5
  let s := ((s.setReg Dict.dtierFarFrames 1000 0 5).setReg Dict.dtierNearCap 100000 0 5).setReg Dict.dtierDeepCap 100000 0 5
  s.setReg Dict.dsearchMaxCollections 4 0 5

/-- A descriptor of slot 1's ring or of a control ring. -/
def desc (op count session : Nat) : Desc :=
  { opcode := op, version := 1, minVersion := 1, seq := 3, flags := 0, count := count, session := session, dataRef := 0, dataLen := 0, grammar := 0, stopSet := 0, sampling := 0, deadline := 0, tailZero := true }

/-- Slot 1's handle. -/
def handle1 : Nat := 562949957615616

/-- A queued command of domain 5 for slot 1, and one for the domain's control ring. -/
def cmd (op count : Nat) : QDesc := { d := desc op count handle1, dom := 5 }
def ctl (op count : Nat) : QDesc := { d := desc op count 0, dom := 5 }

/-- A session of domain 5 with four tokens. -/
def sess (st : SSt) (ring : List QDesc) : Sess := { st := st, dom := 5, model := 2, prio := 3, length := 4, tokens := [0, 1, 2, 0], kvLen := 4, ring := ring, since := 90 }

/-- Slot 1 holds x. -/
def holds (x : Sess) : State := { hosting with ss := { hosting.ss with tbl := [(1, x)] } }

/-- Domain 5's control ring begins with q. -/
def asked (q : QDesc) : State := { hosting with ss := { hosting.ss with rings := [(5, { waiting := [q] })] } }

/-- A table whose keys rise. -/
def rising {α : Type} (m : Tbl α) : Bool := decide (m.Pairwise fun a b => a.1 < b.1)

theorem sorted_of_rising {α : Type} {m : Tbl α} (h : rising m = true) : Tbl.sorted m := sorted_of h

/-- What makes a ring's head ready, as one decidable condition. -/
def readyB (s : State) (k op : Nat) (q : QDesc) (rest : List QDesc) : Bool :=
  decide (((s.sess k).ring = q :: rest ∧ q.d.opcode = op) ∧ ((s.sess k).run = none ∧ (s.sess k).closePend = false ∧ s.inStep k = false ∧ s.slotReserved k = false) ∧
    (s.stalled q.dom = false ∧ s.sv.held = false) ∧ rising s.ss.tbl = true ∧ rising s.ss.cq = true)

theorem ready_of {s : State} {k op : Nat} {q : QDesc} {rest : List QDesc} (h : readyB s k op q rest = true) : s.Ready k op q rest :=
  let ⟨⟨ring, op⟩, ⟨free, opened, idle, unreserved⟩, ⟨room, held⟩, tbl, cq⟩ := of_decide_eq_true h
  { ring, op, free, opened, idle, unreserved, room, held, tables := ⟨sorted_of_rising tbl, sorted_of_rising cq⟩ }

/-- The same for a command that goes on to its cell. -/
def goesB (s : State) (k op : Nat) (q : QDesc) (rest : List QDesc) : Bool :=
  decide (readyB s k op q rest = true ∧ s.isLate q.d.deadline = false ∧ ¬(s.pk.st = .lost ∧ admits op = true) ∧ matrix (s.sess k).st op ≠ .w)

theorem goes_of {s : State} {k op : Nat} {q : QDesc} {rest : List QDesc} (h : goesB s k op q rest = true) : s.Goes k op q rest :=
  let ⟨ready, inTime, picks, cell⟩ := of_decide_eq_true h
  { ready_of ready with inTime, picks, cell }

/-- What lets the front command of a control ring be taken. -/
def startsB (s : State) (d op : Nat) (q : QDesc) (rest : List QDesc) : Bool :=
  decide ((s.domHead d op = some q ∧ (s.dring d).waiting = q :: rest ∧ ∀ r ∈ (s.dring d).running, r.id ≠ (s.dring d).nextId) ∧ (q.dom = d ∧ s.stalled d = false) ∧ rising s.ss.cq = true ∧ rising s.ss.rings = true)

theorem taken_of {s : State} {d op : Nat} {q : QDesc} {rest : List QDesc} (h : startsB s d op q rest = true) : s.Taken d op q rest :=
  let ⟨⟨head, ring, fresh⟩, ⟨own, room⟩, cq, rings⟩ := of_decide_eq_true h
  { head, ring, fresh, own, room, cq := sorted_of_rising cq, rings := sorted_of_rising rings }

theorem starts_of {s : State} {d op : Nat} {q : QDesc} {rest : List QDesc}
    (h : startsB s d op q rest = true ∧ s.isLate q.d.deadline = false ∧ s.pk.st ≠ .lost ∧ s.ck.drain = false) : s.Starts d op q rest :=
  let ⟨taken, inTime, picks, drain⟩ := h
  { taken_of taken with inTime, picks := fun x => picks x.1, drain := fun x => Bool.false_ne_true (drain.symm.trans x.1) }

/-- Domain 5's control ring holds r, which runs. -/
def runs (r : DRun) : State := { hosting with ss := { hosting.ss with rings := [(5, { running := [r], nextId := 2 })] } }

theorem runs_of {s : State} {d : Nat} {r : DRun} (h : (s.drun d r.id = some r ∧ r.q.dom = d ∧ s.stalled d = false) ∧ rising s.ss.cq = true ∧ rising s.ss.rings = true) : s.Runs d r :=
  let ⟨⟨run, own, room⟩, cq, rings⟩ := h
  { run, own, room, cq := sorted_of_rising cq, rings := sorted_of_rising rings }

/-- A command of n input bytes that its ring holds. -/
def given (op count : Nat) (b : Bytes) : QDesc := { cmd op count with d := { desc op count handle1 with dataLen := b.length }, inSt := 2, input := b }

/-- A running command. -/
def running (op count : Nat) : Run := { q := cmd op count, lastRec := 90 }

/-- A near page in frame n of channel 0. -/
def page (n : Nat) : Page := { tier := 0, inc := 1, ch := 0, frame := n, touch := 50 }

/-- A grammar whose first state permits the tokens of a mask and goes from token 2 to a state that permits none. -/
def oneToken (mask : Nat) : Grammar :=
  { len := 0, digest := 0, vocab := 55, start := 0, maxDepth := 0, states := [{ mask := mask, flags := 0, trans := [(2, { next := 1, pop := [], push := [] })], cd := [] }, { mask := 0, flags := 0, trans := [], cd := [] }] }

/-! ## A device of a warp whose members 1 and 63 hold keys with it -/

def inWarp (s : State) : State :=
  { s with regs := Tbl.insert s.regs (regKey Dict.warpMemberTable 0 0) (table (2 ^ 128 * 2 ^ 15872 + 2 ^ 128)), dx := { s.dx with peers := [(1, { st := 2, heard := 1000000 }), (63, { st := 2, heard := 1000000 })] } }

theorem inWarp_reg (s : State) : (inWarp s).reg Dict.warpMemberTable = table (2 ^ 128 * 2 ^ 15872 + 2 ^ 128) := by
  unfold State.reg inWarp
  rw [Tbl.get_insert, if_pos rfl]

theorem inWarp_digest {s : State} {i : Nat} (h : i = 1 ∨ i = 63) : (inWarp s).memberDigest i = 2 ^ 128 := by
  unfold State.memberDigest
  rcases h with rfl | rfl
  · rw [inWarp_reg, table_other _ (by decide) (by decide)]
    decide +kernel
  · rw [inWarp_reg, table_other _ (by decide) (by decide)]
    decide +kernel

/-- The tables of links and members have rising keys. -/
def linkedB (s : State) : Bool := rising s.dx.links && rising s.dx.peers && s.dx.links.all fun e => rising e.2.q

theorem linked_of {s : State} (h : linkedB s = true) : s.Linked := by
  simp only [linkedB, Bool.and_eq_true, List.all_eq_true] at h
  refine ⟨sorted_of_rising h.1.1, fun n => ?_, sorted_of_rising h.1.2⟩
  have hg : ∀ m : Tbl Link, (∀ e ∈ m, rising e.2.q = true) → Tbl.sorted (Tbl.get {} m n).q := by
    intro m
    induction m with
    | nil => exact fun _ => .nil
    | cons e m ih =>
      intro hm
      unfold Tbl.get
      split
      · exact sorted_of_rising (hm e (by simp))
      · exact ih fun x hx => hm x (by simp [hx])
  exact hg _ h.2

/-- An envelope from device 1 on link 0, and what makes it arrive. -/
def from1 (mid aux : Nat) : DEnv := { link := 0, src := 1, dom := 5, mid := mid, aux := aux, parity := 1, counter := 7, tagOk := true }

def arrivesB (s : State) (e : DEnv) : Bool :=
  decide ((s.live = true ∧ e.link < 48 ∧ s.linkLive e.link = true ∧ s.sealed (e.link / 12) = false) ∧ (s.holdsKeys e.dom = true ∧ e.minVersion ≤ 1) ∧
    (e.tagOk = true ∧ s.parityOk e.dom e.parity = true ∧ s.replayed 1 e.counter = false) ∧ (s.device = 0 ∧ (e.src = 1 ∨ e.src = 63)) ∧ linkedB s = true)

theorem arrives_of {s : State} {e : DEnv} (prot : Bool) (h : arrivesB (inWarp s) e = true) : (inWarp s).Arrives e prot := by
  obtain ⟨⟨live, low, up, own⟩, ⟨keyed, version⟩, ⟨tag, parity, new⟩, ⟨dev, src⟩, tables⟩ := of_decide_eq_true h
  have digest : (inWarp s).memberDigest e.src / 2 ^ 128 = 1 := by rw [inWarp_digest src]; rfl
  exact { live, link := ⟨low, up⟩, own := fun x => absurd (own.symm.trans x) Bool.false_ne_true, here := present_own (inWarp_reg s) (by decide +kernel) dev, keyed, version
          auth := fun _ => ⟨tag, parity, by rw [digest]; decide, by rw [digest]; exact new⟩, tables := linked_of tables }

theorem ctlArrives_of {s : State} {link src : Nat}
    (h : (inWarp s).live = true ∧ (link < 48 ∧ src < 64 ∧ (inWarp s).linkLive link = true) ∧ (inWarp s).device = 0 ∧ linkedB (inWarp s) = true) : (inWarp s).CtlArrives link src :=
  let ⟨live, link, dev, tables⟩ := h
  { live, link, here := present_own (inWarp_reg s) (by decide +kernel) dev, tables := linked_of tables }

/-! ## Packets -/

/-- A packet of flow 7 on port 0. -/
def pkt (target offset aux : Nat) (data : Bytes) : SPkt :=
  { port := 0, srcOk := true, version := 1, minVersion := 1, resv := false, flow := 7, psn := 0, first := true, last := true, ackReq := true, ackValid := false, ackPsn := 0, syndrome := 0, target := target, offset := offset, domain := 5,
    parity := 1, aux := aux, data := data, crcOk := true, prot := true, tagOk := true }

def acceptedB (s : State) (p : SPkt) : Bool :=
  decide ((s.live = true ∧ (p.port < 2 ∧ s.isOn (.port p.port) = true) ∧ s.fa.fatal = false) ∧ (s.flowReady p.flow = true ∧ bit (s.flow p.flow).cfg.ports p.port = true ∧ s.vidOk p.port p.vid = true) ∧
    (p.srcOk = true ∧ p.domain = (s.flow p.flow).cfg.dom ∧ p.crcOk = true) ∧ (p.prot = true ∧ p.tagOk = true ∧ s.parityOk p.domain p.parity = true) ∧ s.formOk p = true ∧ rising s.sl.flows = true)

theorem accepted_of {s : State} {p : SPkt} (h : acceptedB s p = true) : s.Accepted p :=
  let ⟨⟨live, on, sound⟩, ⟨ready, ports, vlan⟩, ⟨src, dom, crc⟩, auth, form, flows⟩ := of_decide_eq_true h
  { live, on, sound, ready, ports, vlan, src, dom, crc := .inr crc, auth := fun _ => auth, form, flows := sorted_of_rising flows }

theorem inOrder_of {s : State} {p : SPkt} (h : (acceptedB s p && decide (s.ahead p = 0) && !p.ackValid) = true) : s.InOrder p := by
  simp only [Bool.and_eq_true, decide_eq_true_eq, Bool.not_eq_true'] at h
  exact ⟨accepted_of h.1.1, h.1.2, h.2⟩

/-- A definition's command with n bytes. -/
def defines (op count n : Nat) : QDesc := { ctl op count with d := { desc op count 0 with dataLen := n } }

theorem brings_of {s : State} {d : Nat} {q : QDesc} {b : Bytes} (h : (decide (q.d.dataLen = b.length) && decide (b.length ≠ 0) && decide (s.ref d q.d.dataRef q.d.dataLen false = .region 7 0 0)) = true) : s.Brings d q (some b) b := by
  simp only [Bool.and_eq_true, decide_eq_true_eq] at h
  exact .inr ⟨by rw [h.1.1]; exact h.1.2, ⟨_, _, _, h.2⟩, rfl, h.1.1.symm⟩

/-- PICK_LOST. -/
def lostPick (s : State) : State := { s with pk := { s.pk with st := .lost } }

/-- The request of a TOPK with k = 1 over rows of two FP32 elements, contiguous or, with runs, in one run on a device. -/
def topk (dev : Option Nat) : Bytes :=
  [1, 1, 0, 8, 1, 0, 1, 0] ++ leBytes 8 2 ++ leBytes 4 0 ++ leBytes 2 (if dev = none then 0 else 1) ++ leBytes 2 0 ++ leBytes 4 0 ++ leBytes 4 3 ++ leBytes 8 0 ++ leBytes 8 4096 ++ leBytes 2 7 ++ leBytes 6 0 ++ leBytes 8 1000 ++
    match dev with
    | none => []
    | some n => [n, 0] ++ leBytes 2 7 ++ leBytes 4 3 ++ leBytes 8 0 ++ leBytes 4 2 ++ leBytes 12 0

/-- A SELECT of n rows with that request, and the one that runs as command 1. -/
def selects (n : Nat) (dev : Option Nat) : QDesc := defines 0x50 n (topk dev).length
def selRun (n done : Nat) (dev : Option Nat) : DRun := { id := 1, q := { selects n dev with input := topk dev }, since := 99, stage := 1, a := done, b := 8 * done, rows := (List.range done).map fun i => [i, 0] }

/-- The data of a row: the values 1.0 and 2.0. -/
def rowData : List Bytes := [leBytes 4 0x3F800000 ++ leBytes 4 0x40000000]
def nans : List Bytes := [leBytes 4 0x7FC00000 ++ leBytes 4 0x7FC00000]

/-- A sub-request to device 1 in tracker slot 4. -/
def subReq : SubReq := { d := 5, id := 1, run := 0, dev := 1, chan := 0, slot := 4 }
def subQ : SubQ := { op := 0, flags := 0, ty := 1, k := 1, param := 0, flow := 7, key := 3, off := 0, n := 2 }

/-- Domain 5 is of class 2; no auxiliary unit is ON; a checkpoint drains. -/
def class2 (s : State) : State := s.setReg Dict.dsecClass 2 0 5
def auxOff (s : State) : State := { s with fns := s.fns.filter fun e => e.1 % 18 != 17 }
def drained (s : State) : State := { s with ck := { s.ck with drain := true } }
def lateRun (r : DRun) : DRun := { r with q := { r.q with d := { r.q.d with deadline := 99 } } }

/-- A control command whose deadline has passed. -/
def lateDefines (op : Nat) : QDesc := { ctl op 1 with d := { desc op 1 0 with deadline := 99 } }

/-! ## Packets of a flow -/

/-- Flow 7 of domain 5 as x gives it; control ring 5 holds n commands; slot 1 holds y. -/
def flowing (f : Flow → Flow) (n : Nat) (y : Sess) : State :=
  let s := holds y
  { s with sl := { s.sl with flows := [(7, f { st := 1, cfg := { ports := 1, dom := 5 } })] }, ss := { s.ss with rings := [(5, { waiting := List.replicate n (ctl 0x44 1) })] } }
def plainFlow : State := flowing id 0 (sess .toolwait [])

/-- A descriptor's 64 bytes. -/
def descBytes (d : Desc) : Bytes :=
  [d.opcode, 17] ++ leBytes 2 d.seq ++ [d.flags] ++ leBytes 3 d.count ++ leBytes 8 d.session ++ leBytes 8 d.dataRef ++ leBytes 4 d.dataLen ++ leBytes 4 d.grammar ++ leBytes 4 d.stopSet ++ leBytes 4 d.sampling ++ leBytes 8 d.deadline ++
    List.replicate 16 0

/-- Targets: slot 1 of a device, the control ring, window i, the doorbell. -/
def tgtSess (dev : Nat) : Nat := 2 ^ 28 + dev * 2 ^ 20 + 1
def tgtRing (d : Nat) : Nat := 2 * 2 ^ 28 + d
def tgtWin (i gen : Nat) : Nat := 3 * 2 ^ 28 + gen * 65536 + i
def tgtBell (d : Nat) : Nat := 4 * 2 ^ 28 + d

/-- A whole SEND of these descriptors. -/
def sends (target : Nat) (ds : List Desc) : SPkt := pkt target 0 (64 * ds.length) (ds.flatMap descBytes)

/-- Window i is open and ON. -/
def win (gen : Nat) : Window := { gen := gen, dom := 5, ch := 0, size := 64, flow := 7, psn := 3, pick := 100, isOpen := true }
def windowed (i : Nat) (f : Fn) (w : Window) : State := { plainFlow with fns := hosting.fns ++ [(1000 + i, f)], sl := { plainFlow.sl with wins := [(i, w)] } }

theorem present_1 {s : State} (h : (decide ((inWarp s).device = 0)) = true) : (inWarp s).present 1 = true := by
  unfold State.present State.peerState
  rw [inWarp_digest (.inl rfl), if_neg (by decide), of_decide_eq_true h, if_neg (by decide)]
  rfl

theorem inOrder_all {l : List (State × SPkt)} (h : (l.all fun e => acceptedB e.1 e.2 && decide (e.1.ahead e.2 = 0) && !e.2.ackValid) = true) : ∀ e ∈ l, e.1.InOrder e.2 := fun e he => inOrder_of (List.all_eq_true.mp h e he)

/-- The first or the last 64 bytes of a SEND of two descriptors to the control ring. -/
def halfSend (first : Bool) : SPkt := { pkt (tgtRing 5) (if first then 0 else 64) 128 (descBytes (desc 0x44 1 0)) with first := first, last := !first }
def openMsg (x : Flow) : Flow := { x with msg := some (tgtRing 5, 128, descBytes (desc 0x44 1 0)) }

/-- The flow waits for a READ of two bytes for slot 1's ring, or for a control command, or for a FLUSH. -/
def waits (what : OpFor) (read : Bool) (x : Flow) : Flow := { x with ops := [{ psn := 5, read := read, want := if read then 2 else 0, got := [], what := what }] }
def answer (data : Bytes) (last : Bool) : SPkt := { pkt 0 0 5 data with last := last }
def incoming : QDesc := { cmd 2 0 with d := { desc 2 0 handle1 with dataLen := 2 }, inSt := 1 }

/-- Command 1 of domain 5 waits for the FLUSH that ends it. -/
def flushing : State := { runs (selRun 2 2 none) with sl := { hosting.sl with flows := [(7, waits (.domFlush 5 1) false { st := 1, cfg := { ports := 1, dom := 5 } })] } }

theorem atRest_of {s : State}
    (h : (s.sv.run = none ∧ s.sv.owed = false) ∧ (s.pk.barrier = none ∧ s.pw.pkg ≠ .draining) ∧ (∀ e ∈ s.ss.tbl, e.2.xst ≠ 1) ∧ ((∀ e ∈ s.tm.far, e.2 / 10 ≠ 1) ∧ ∀ m ∈ s.tm.moves, m.started = true) ∧ s.se.selects = [] ∧ s.se.lanes = []) :
    s.atRest :=
  let ⟨⟨run, owed⟩, ⟨barrier, drain⟩, exports, ⟨tests, moves⟩, lanes⟩ := h
  { run := fun _ e => absurd (run.symm.trans e) nofun, owed, barrier, drain, exports, tests, moves, lanes }

theorem inWarp_other {s : State} {i : Nat} (h0 : 0 < i) (h1 : i < 64) : (inWarp s).memberDigest i = beField 2048 (2 ^ 128 * 2 ^ 15872 + 2 ^ 128) (32 * i) 32 := by
  unfold State.memberDigest
  rw [inWarp_reg, table_other _ h0 h1]

theorem arrives_all {l : List (State × DEnv)} (prot : Bool) (h : (l.all fun e => arrivesB (inWarp e.1) e.2) = true) : ∀ e ∈ l, (inWarp e.1).Arrives e.2 prot := fun e he => arrives_of prot (List.all_eq_true.mp h e he)

/-! ## The machine as a whole -/

/-- Two commands wait. -/
def queued : State := { base with pending := [.pickContactEdge 2000000 19 0, .heartbeatSend 2000000] }

theorem meets_StepRunsTheFrontCommand : queued.pending = .pickContactEdge 2000000 19 0 :: [.heartbeatSend 2000000] ∧ base.pending = [] := ⟨rfl, rfl⟩

theorem meets_CommandsCompleteOrNameAbsentObjects : (Instr.portLinkUp 0 2).wf = false ∧ (Instr.portLinkUp 0 1).wf = true := by decide

theorem meets_DeadDeviceAnswersNothing : State.reset.live = false ∧ (Instr.heartbeatSend 5).wf = true := by decide

theorem meets_StepKeepsInvariant : queued.Inv ∧ ∃ u, step queued = .next u := by
  refine ⟨⟨canonical_of (by decide +kernel) (by decide +kernel) (by decide +kernel), ?_⟩, _, rfl⟩
  constructor <;> decide +kernel

theorem meets_FusedSvnAndClaimAreNeverUndone : queued.nv.claimed = true ∧ ∃ u, step queued = .next u := ⟨rfl, _, rfl⟩

theorem test_step_takes_the_front : (match step queued with | .next u => decide (u.pending = [.heartbeatSend 2000000] ∧ u.now = 2000000 ∧ u.reg Dict.pickGlitchCount = 1) | _ => false) = true := by
  decide +kernel
theorem test_step_idles : step State.reset = .next State.reset := rfl
theorem test_dead_device : exec (.heartbeatSend 5) State.reset = .next (State.reset.at 5) := rfl
theorem test_decode_rows : decodeTableWord 8 0 = none := by decide

/-! ## Settings, requests and writes -/

/-- The four Dernyx blocks are OFF. -/
def unlinked : State := { base with fns := ((List.range 80).filter fun n => !(decide (72 ≤ n) && decide (n < 76))).map (fun n => (n, on)) ++ [(100, on)] }

/-- Domain 5 has SHARED_TILES class; no flow is configured. -/
def shared : State := { base with regs := [(regKey Dict.dsecClass 0 5, 1)] }

theorem meets_WrittenSettingIsStored :
    Tbl.sorted base.regs ∧ (base.at 2000000).Takes (env 3) (assoc 3) ∧
    ∀ p ∈ [(Dict.pickSource, 0, 3), (Dict.dsecClass, 0, 2), (Dict.dsessNotifyFlow, 0, 65535), (Dict.mstepDraftSlot, 0, 255), (Dict.warpTreeChildren, 0, 0), (Dict.warpTreeParent, 0, 47),
      (Dict.monConfig, 0, 0), (Dict.monConfig, 15, 0), (Dict.chmonConfig, 0, 0), (Dict.chmonConfig, 15, 0), (Dict.traceConfig, 0, 0)],
      (base.at 2000000).Accepts (env 3) (assoc 3) [itemOf p.1 p.2.1 p.2.2] :=
  ⟨sorted_of (by decide +kernel), takes_of (by decide +kernel), accepts_all _ (by decide +kernel)⟩

theorem meets_WrittenSettingIsStored_groups :
    Tbl.sorted shared.regs ∧ (shared.at 2000000).Takes (env 3) (assoc 3) ∧ (shared.at 2000000).Accepts (env 3) (assoc 3) [itemOf Dict.dsecTileGroups 0 0xF000000000000001] :=
  ⟨sorted_of (by decide +kernel), takes_of (by decide +kernel), accepts_of (by decide +kernel)⟩

theorem meets_WrittenSettingIsStored_warp :
    Tbl.sorted unlinked.regs ∧ (unlinked.at 2000000).Takes (env 3) (assoc 3) ∧
    ∀ p ∈ [(Dict.warpId, 0, 7), (Dict.warpDeviceIndex, 0, 63), (Dict.warpRoute, 0, 0), (Dict.warpRoute, 63, 0)], (unlinked.at 2000000).Accepts (env 3) (assoc 3) [itemOf p.1 p.2.1 p.2.2] :=
  ⟨sorted_of (by decide +kernel), takes_of (by decide +kernel), accepts_all _ (by decide +kernel)⟩

/-- Domain 5 is SEALED class with keys, and channel 0's seal is set to it. -/
def sealable : State :=
  { base with regs := [(regKey Dict.sealDomain 0 0, 5), (regKey Dict.dsecClass 0 5, 2)], sc := { base.sc with doms := [(5, { epoch := 1, root := 9, active := 1 })] } }

/-- Association 2 has selected all four channels. -/
def allChannels : Assoc := { assoc 2 with chanSel := 0xFF }
def broadcast : State := { base with wr := { base.wr with assocs := [allChannels] } }

theorem meets_PowerRequestsFollowTheRule :
    Tbl.sorted base.fns ∧ (base.at 2000000).Takes (env 2) (assoc 2) ∧ (assoc 2).chanSel < 4 ∧
    (∀ p ∈ [(Dict.chpowerRequest, 0, 0), (Dict.chpowerRequest, 17, 1), (Dict.powerHubRequest, 0, 0), (Dict.powerHubRequest, 7, 1)], (base.at 2000000).Accepts (env 2) (assoc 2) [itemOf p.1 p.2.1 p.2.2]) ∧
    Tbl.sorted broadcast.fns ∧ (broadcast.at 2000000).Takes (env 2) allChannels ∧ allChannels.chanSel = 0xFF ∧
    (∀ p ∈ [(Dict.chpowerRequest, 0, 0), (Dict.chpowerRequest, 17, 1)], (broadcast.at 2000000).Accepts (env 2) allChannels [itemOf p.1 p.2.1 p.2.2]) :=
  ⟨sorted_of (by decide +kernel), takes_of (by decide +kernel), by decide, accepts_all _ (by decide +kernel), sorted_of (by decide +kernel), takes_of (by decide +kernel), rfl, accepts_all _ (by decide +kernel)⟩

theorem meets_FunctionRequestFollowsTheRule :
    Tbl.sorted base.fns ∧ (base.at 2000000).Takes (env 2) (assoc 2) ∧ (assoc 2).chanSel < 4 ∧
    (∀ p ∈ [(Dict.monRequest, 0, 1), (Dict.monRequest, 15, 0), (Dict.chmonRequest, 0, 0), (Dict.chmonRequest, 15, 1), (Dict.traceRequest, 0, 1), (Dict.ethRequest, 0, 1), (Dict.ethRequest, 1, 0)],
      (base.at 2000000).Accepts (env 2) (assoc 2) [itemOf p.1 p.2.1 p.2.2]) ∧
    ((broadcast.at 2000000).Takes (env 2) allChannels ∧ (broadcast.at 2000000).Accepts (env 2) allChannels [itemOf Dict.chmonRequest 15 1]) ∧
    (base.at 2000000).Takes (env 3) (assoc 3) ∧
    ∀ p ∈ [(Dict.dnxLinkRequest, 0, 0), (Dict.dnxLinkRequest, 47, 1), (Dict.sealRequest, 3, 0)], (base.at 2000000).Accepts (env 3) (assoc 3) [itemOf p.1 p.2.1 p.2.2] :=
  ⟨sorted_of (by decide +kernel), takes_of (by decide +kernel), by decide, accepts_all _ (by decide +kernel), ⟨takes_of (by decide +kernel), accepts_of (by decide +kernel)⟩, takes_of (by decide +kernel),
    accepts_all _ (by decide +kernel)⟩

theorem meets_FunctionRequestFollowsTheRule_seal :
    Tbl.sorted sealable.fns ∧ (sealable.at 2000000).Takes (env 3) (assoc 3) ∧ (sealable.at 2000000).Accepts (env 3) (assoc 3) [itemOf Dict.sealRequest 0 1] :=
  ⟨sorted_of (by decide +kernel), takes_of (by decide +kernel), accepts_of (by decide +kernel)⟩

theorem test_channel_off_request : ok (.chpowerRequest 2000000 (env 2) 0 0) base (fun u => decide ((u.fn (.dom 0)).st = .stopping)) = true := by decide +kernel
theorem test_channels_off_request : ok (.chpowerRequest 2000000 (env 2) 0 0) broadcast (fun u => decide (([0, 18, 36, 54].map fun n => (u.fn (.dom n)).st) = List.replicate 4 .stopping)) = true := by decide +kernel
theorem test_link_on_request : ok (.linkRequest 2000000 (env 3) 47 1) base (fun u => decide ((u.fn (.link 47)).st = .starting)) = true := by decide +kernel
theorem test_seal_request : ok (.sealRequest 2000000 (env 3) 0 1) sealable (fun u => decide ((u.fn (.seal 0)).st = .starting)) = true := by decide +kernel
theorem test_setting_written : ok (.pickSourceWrite 2000000 (env 3) 3) base (fun u => decide (u.reg Dict.pickSource = 3)) = true := by decide +kernel
theorem test_setting_role_refused : ok (.pickSourceWrite 2000000 (env 1) 3) base (fun u => decide (u.reg Dict.pickSource = 1 ∧ u.out = [.welrid 0 9 1 1 true (.error 0x03 0 0x040001 0) 0 48111])) = true := by
  decide +kernel

/-! ## Power and package -/

/-- A reading of the sensors with that power. -/
def sensors (powMw die : Nat) : Sensors := { volt := 1, amp := 2, powBits := 3, powMw := powMw, die := [20, 20, die, 20, 20], hbm := [30, 30, 30, 30, 30, 30, 30, 30] }

/-- The same package in another state. -/
def pkgIs (s : State) (p : Pkg) : State := { s with pw := { s.pw with pkg := p } }

theorem meets_PowerInputActsAsWritten :
    Tbl.sorted base.regs ∧ State.reset.pw.pkg = .unpowered ∧ (pkgIs base .isolated).pw.pkg.removeLow = false ∧ base.live = true ∧
    (∀ p ∈ [(0, 0), (2200001, 0), (2100000, 0), (0, 255)], (Instr.throttleEvaluate 5 (sensors p.1 p.2)).wf = true) ∧ (Instr.hbmRefreshDoubling 5 7 86).wf = true := by
  refine ⟨sorted_of (by decide +kernel), ?_⟩
  decide +kernel

theorem test_ridethrough_counts : ok (.inputExcursionEnd 2000000 999999 9999) base (fun u => decide (u.reg Dict.powerRidethroughCount = 1)) = true := by decide +kernel
theorem test_ridethrough_boundary : ok (.inputExcursionEnd 2000000 1000000 9999) base (fun u => decide (u.reg Dict.powerRidethroughCount = 0)) = true := by decide +kernel
theorem test_current_limit : ok (.currentLimitTick 2000000 58000) base (fun u => decide (u.pw.level = 1 ∧ u.pw.limitOn = true)) = true := by decide +kernel
theorem test_throttle_rises : ok (.throttleEvaluate 2000000 (sensors 2200001 20)) base (fun u => decide (u.pw.level = 1)) = true := by decide +kernel
theorem test_refresh_doubles : ok (.hbmRefreshDoubling 2000000 7 86) base (fun u => decide (u.pw.hbm2x = 128)) = true := by decide +kernel
theorem test_refresh_boundary : ok (.hbmRefreshDoubling 2000000 7 85) base (fun u => decide (u.pw.hbm2x = 0)) = true := by decide +kernel

theorem meets_FatalCausesIsolateThePackage : Tbl.sorted base.regs ∧ base.fa.fatal = false ∧ base.live = true ∧ State.reset.live = false ∧ State.reset.fa.fatal = false :=
  ⟨sorted_of (by decide +kernel), rfl, rfl, rfl, rfl⟩

theorem test_force_off_isolates : ok (.forceOffAssert 2000000) base (fun u => decide (u.pw.pkg = .isolated ∧ u.fns = [] ∧ beField 32 (u.reg Dict.faultLastFatal) 0 1 = 3)) = true := by decide +kernel
theorem test_fatal_detect : ok (.fatalDetect 2000000 8) base (fun u => decide (u.pw.pkg = .isolated ∧ beField 32 (u.reg Dict.faultLastFatal) 0 1 = 8)) = true := by decide +kernel

/-- BOOT with image 0 running and the Ethernet block starting. -/
def booting : State := { pkgIs base .boot with fns := [(76, { st := .starting })] }

theorem meets_BootActsAsWritten :
    (pkgIs State.reset .precharge).Canonical ∧ (pkgIs State.reset .precharge).pw.pkg = .precharge ∧ (pkgIs State.reset .precharge).pw.forceOff = false ∧
    (let s : State := { State.reset with pw := { State.reset.pw with pkg := .isolated, forceOff := true } }; s.Canonical ∧ s.pw.forceOff = true ∧ s.pw.pkg = .isolated) ∧
    (let s : State := { State.reset with pw := { State.reset.pw with pkg := .precharge, forceOff := true } }; s.Canonical ∧ s.pw.forceOff = true ∧ s.pw.pkg = .precharge ∧ s.pw.pkg ≠ .isolated) ∧
    booting.Canonical ∧ (List.replicate 16 64).length = 16 ∧ booting.pw.pkg = .boot ∧ booting.sc.running = some 0 ∧
    booting.fn (.dom 76) = { st := .starting, pend := .none, fault := (booting.fn (.dom 76)).fault } := by
  refine ⟨canonical_of (by decide +kernel) (by decide +kernel) (by decide +kernel), by decide +kernel, by decide +kernel, ⟨canonical_of (by decide +kernel) (by decide +kernel) (by decide +kernel), by decide +kernel⟩,
    ⟨canonical_of (by decide +kernel) (by decide +kernel) (by decide +kernel), by decide +kernel⟩, canonical_of (by decide +kernel) (by decide +kernel) (by decide +kernel), by decide +kernel⟩

theorem test_bus_charged : ok (.busCharged 5) (pkgIs State.reset .precharge) (fun u => decide (u.pw.pkg = .boot ∧ u.sc.running = some 0 ∧ (u.fn (.dom 76)).st = .starting)) = true := by decide +kernel
theorem test_boot_complete : ok (.bootComplete 2000000 (List.replicate 16 64)) booting (fun u => decide (u.pw.pkg = .managed ∧ (u.fn (.dom 76)).st = .on)) = true := by decide +kernel

/-- Functions that start and that stop, and one waiting request. -/
def moving : State := { base with fns := [(0, { st := .starting }), (1, { st := .stopping, pend := .on }), (16, on), (72, on), (76, on), (79, { st := .starting, pend := .off }), (100, { st := .starting }), (101, on), (200, { st := .starting }),
  (211, on), (247, { st := .stopping })] }

/-- A training block that matches in everything, and one of another version. -/
def block (vmin identity : Nat) : TrainBlk := { vmax := 1, vmin := vmin, link := 3, device := 7, warp := 0, identity := identity, delay := 20 }

/-- A device of the warp at index 7, whose digest is one that this device's is not. -/
def paired (x : Nat) : State := { moving with regs := [(regKey Dict.warpMemberTable 0 0, x * 2 ^ (8 * (2048 - 32 * 8)))] }

theorem meets_TransitionsFollowTheRule :
    moving.live = true ∧ Tbl.sorted moving.fns ∧ (moving.fn (.dom 0)).st = .starting ∧ (moving.fn (.dom 79)).st = .starting ∧ (moving.fn (.dom 79)).pend = .off ∧
    (FnId.dom 1).exists = true ∧ plainStop (.dom 1) = true ∧ (moving.fn (.dom 1)).st = .stopping ∧ (moving.fn (.port 0)).st = .starting ∧ (moving.fn (.port 1)).st = .on ∧
    (moving.fn (.link 0)).st = .starting ∧ (Instr.linkTrainingComplete 5 0 (block 2 0)).wf = true ∧ moving.trainCode (block 2 0) ≠ 0 ∧ (Instr.linkTrainingFail 5 0 1).wf = true ∧ (moving.fn (.link 11)).st = .on ∧
    (moving.fn (.link 47)).st = .stopping ∧ plainStop (.link 47) = true := by
  refine ⟨by decide +kernel, sorted_of (by decide +kernel), ?_⟩
  decide +kernel

theorem meets_TransitionsFollowTheRule_trained : ∃ x, (paired x).live = true ∧ Tbl.sorted (paired x).fns ∧ ((paired x).fn (.link 0)).st = .starting ∧ (Instr.linkTrainingComplete 5 0 (block 1 x)).wf = true ∧
    (paired x).trainCode (block 1 x) = 0 := by
  have key : ∀ x, x = 1 ∨ x = 2 → ¬x = ownDigest → (paired x).trainCode (block 1 x) = 0 := by
    intro x hx hn
    unfold State.trainCode
    rw [if_neg (by rcases hx with rfl | rfl <;> decide +kernel), if_neg (by rcases hx with rfl | rfl <;> decide +kernel), if_neg (by rcases hx with rfl | rfl <;> decide +kernel), if_neg (show ¬(block 1 x).identity = ownDigest from hn),
      if_neg (show ¬(block 1 x).delay > 500 from Nat.not_lt.mpr (Nat.le_of_ble_eq_true rfl))]
  by_cases h : 1 = ownDigest
  · exact ⟨2, by decide +kernel, sorted_of (by decide +kernel), by decide +kernel, by decide +kernel, key 2 (.inr rfl) (by omega)⟩
  · exact ⟨1, by decide +kernel, sorted_of (by decide +kernel), by decide +kernel, by decide +kernel, key 1 (.inl rfl) h⟩

theorem test_start_complete : ok (.functionStartComplete 2000000 (.dom 0) []) moving (fun u => decide (u.fn (.dom 0) = { st := .on })) = true := by decide +kernel
theorem test_start_complete_off_waits : ok (.functionStartComplete 2000000 (.dom 79) []) moving (fun u => decide (u.fn (.dom 79) = { st := .stopping })) = true := by decide +kernel
theorem test_start_fail : ok (.functionStartFail 2000000 (.dom 0)) moving (fun u => decide (u.fn (.dom 0) = { fault := true })) = true := by decide +kernel
theorem test_stop_complete : ok (.functionStopComplete 2000000 (.dom 1)) moving (fun u => decide ((u.fn (.dom 1)).st = .starting)) = true := by decide +kernel
theorem test_training_version : ok (.linkTrainingComplete 2000000 0 (block 2 0)) moving (fun u => decide (u.fn (.link 0) = { fault := true } ∧ (u.link 0).failCode = 3)) = true := by decide +kernel
theorem test_port_link_up : ok (.portLinkUp 2000000 0) moving (fun u => decide ((u.fn (.port 0)).st = .on)) = true := by decide +kernel

/-- DRAINING, in its step s of R40, since 5 s of the block's time. -/
def draining (step : Nat) (cancel : Bool) : State := { base with pw := { base.pw with pkg := .draining, drainStep := step, drainAt := 5000000000, drainCancel := cancel } }

/-- REMOVE_READY: only the Ethernet block and a port are ON. -/
def removable : State := { pkgIs base .removeReady with fns := [(76, on), (100, on)] }

/-- A step runs with a session's row. -/
def stepRuns (s : State) : State := { s with sv := { s.sv with run := some { pick := 100, start := 999000, rows := [{ k := 1, keff := 0, r := 1 }], chunks := [], qEmpty := true, joined := [1] } } }

theorem meets_RemovalAndResetAsWritten :
    (∀ s ∈ [base, pkgIs base .managed, stepRuns base, pkgIs base .boot, pkgIs base .removeReady, removable, draining 2 false, draining 3 false, draining 4 false],
      s.Canonical ∧ (s.at 2000000).Takes (env 2) (assoc 2) ∧
      ∀ p ∈ [(Dict.packageRemoveRequest, 0, 0), (Dict.packageRemoveRequest, 0, 1), (Dict.packageRemoveRequest, 0, 2), (Dict.packageReset, 0, 1)], (s.at 2000000).Accepts (env 2) (assoc 2) [itemOf p.1 p.2.1 p.2.2]) ∧
    base.pw.pkg = .serving ∧ (∃ v, (stepRuns base).sv.run = some v ∧ v.rows ≠ []) ∧ removable.pw.pkg = .removeReady ∧ removable.chOn 3 = false ∧ (draining 2 false).pw.drainStep = 2 ∧ (draining 3 false).pw.drainStep = 3 := by
  refine ⟨?_, rfl, ⟨_, rfl, by decide⟩, rfl, by decide +kernel, rfl, rfl⟩
  intro s hs
  simp only [List.mem_cons, List.not_mem_nil, or_false] at hs
  rcases hs with rfl | rfl | rfl | rfl | rfl | rfl | rfl | rfl | rfl <;>
    exact ⟨canonical_of (by decide +kernel) (by decide +kernel) (by decide +kernel), takes_of (by decide +kernel), accepts_all _ (by decide +kernel)⟩

theorem test_remove_request : ok (.removeRequest 2000000 (env 2)) base (fun u => decide (u.pw.pkg = .draining ∧ u.pw.drainStep = 4)) = true := by decide +kernel
theorem test_remove_request_waits : ok (.removeRequest 2000000 (env 2)) (stepRuns base) (fun u => decide (u.pw.pkg = .draining ∧ u.pw.drainStep = 2)) = true := by decide +kernel
theorem test_package_reset : ok (.packageReset 2000000 (env 2)) base (fun u => decide (u.pw.pkg = .boot ∧ u.wr.assocs = [] ∧ u.nv.claimed = true)) = true := by decide +kernel

theorem meets_DrainsAndRemovalsEndAsWritten :
    (∀ c ∈ [true, false], (draining 4 c).Canonical ∧ (draining 4 c).live = true ∧ (draining 4 c).pw.pkg = .draining ∧ (draining 4 c).pw.drainStep = 4 ∧ ((draining 4 c).at 5).drainFlushed = true ∧ (draining 4 c).sv.run = none) ∧
    (draining 3 false).Canonical ∧ (draining 3 false).pw.drainStep < 4 ∧
    (draining 3 false).pw.drainReported = false ∧ (draining 3 false).pw.drainAt + 1000000000 * (draining 3 false).reg Dict.packageDrainTimeout ≤ Nat.max (draining 3 false).now 605000000000 ∧
    base.Canonical ∧ base.pw.pkg.removeLow = true := by
  refine ⟨?_, canonical_of (by decide +kernel) (by decide +kernel) (by decide +kernel), by decide +kernel, by decide +kernel, by decide +kernel, canonical_of (by decide +kernel) (by decide +kernel) (by decide +kernel), rfl⟩
  intro c hc
  simp only [List.mem_cons, List.not_mem_nil, or_false] at hc
  rcases hc with rfl | rfl <;> exact ⟨canonical_of (by decide +kernel) (by decide +kernel) (by decide +kernel), by decide +kernel⟩

theorem test_drain_complete : ok (.drainComplete 2000000) (draining 4 false) (fun u => decide (u.pw.pkg = .removeReady ∧ u.nv.sigClose = some (1024, 3) ∧ (u.fn (.dom 76)).st = .on ∧ (u.fn (.dom 16)).st = .off)) = true := by
  decide +kernel
theorem test_drain_timeout : ok (.drainTimeout 605000000000) (draining 3 false) (fun u => u.pw.drainReported) = true := by decide +kernel
theorem test_drain_timeout_boundary : ok (.drainTimeout 604999999999) (draining 3 false) (fun u => !u.pw.drainReported) = true := by decide +kernel
theorem test_surprise_removal : ok (.surpriseRemoval 2000000) base (fun u => decide (u.pw.pkg = .unpowered ∧ u.nv.sigClose = some (1024, 3))) = true := by decide +kernel

/-! ## Welrid -/

/-- With role secrets, and an association 5 whose HELLO is in progress since 1 ms. -/
def greeted : State :=
  { base with
    regs := [(regKey Dict.roleSecretObserver 0 0, 41)]
    nv := { base.nv with fusedSvn := 0 }
    wr := { base.wr with assocs := base.wr.assocs ++ [{ id := 5, role := 1, offerAt := 1000000 }], nextId := 6, throttleUntil := some 3000000
                         snaps := [{ assoc := 4, addr := Dict.secXmssNext.addr, data := [1], last := 5 }]
                         xfers := [{ addr := Dict.slaiskFlowConfig.addr, scope := 0, assoc := 3, total := 64, data := [1, 2], last := 1000000 }] } }

theorem meets_ActionWritesActAsWritten :
    Tbl.sorted base.regs ∧ (base.at 2000000).Takes (env 4) (assoc 4) ∧
    (∀ p ∈ [(Dict.secFwSvnCommit, 0, 1), (Dict.secFwConfirm, 0, 1), (Dict.dictRestoreDefaults, 0, 1), (Dict.roleSecretObserver, 0, 1), (Dict.roleSecretCustodian, 0, 2 ^ 256 - 1), (Dict.dsecAttestNonce, 0, 2 ^ 256 - 1),
      (Dict.dsecKeyErase, 0, 1)], (base.at 2000000).Accepts (env 4) (assoc 4) [itemOf p.1 p.2.1 p.2.2]) ∧
    base.sc.running = some 0 ∧ (base.at 2000000).Takes (env 3) (assoc 3) ∧ (base.at 2000000).Accepts (env 3) (assoc 3) [itemOf Dict.pickBarrierAt 0 102] ∧
    (∀ p ∈ [(Dict.dbudgetAdjust, 0, 2 ^ 63)], (base.at 2000000).Accepts (env 3) (assoc 3) [itemOf p.1 p.2.1 p.2.2]) ∧ (base.at 2000000).Takes (env 2) (assoc 2) ∧
    (base.at 2000000).Accepts (env 2) (assoc 2) [itemOf Dict.fabricFenceClear 0 1] ∧
    (base.at 2000000).still ∧ (assoc 2).chanSel < 4 :=
  ⟨sorted_of (by decide +kernel), takes_of (by decide +kernel), accepts_all _ (by decide +kernel), rfl, takes_of (by decide +kernel), accepts_of (by decide +kernel),
    accepts_all _ (by decide +kernel), takes_of (by decide +kernel), accepts_of (by decide +kernel), ⟨rfl, rfl, by decide +kernel⟩, by decide⟩

theorem test_svn_commit : ok (.fwSvnCommit 2000000 (env 4) 1) base (fun u => decide (u.nv.fusedSvn = 1)) = true := by decide +kernel
theorem test_svn_commit_above_running : ok (.fwSvnCommit 2000000 (env 4) 2) base (fun u => decide (u.nv.fusedSvn = 0 ∧ u.out = [.welrid 0 9 4 1 true (.error 0x05 0 0x050003 0) 0 48111])) = true := by decide +kernel
theorem test_barrier_at : ok (.barrierAtWrite 2000000 (env 3) 102) base (fun u => decide (u.pk.barrier = some { p := 102, mine := true })) = true := by decide +kernel
theorem test_budget_adjust_negative : ok (.budgetAdjust 2000000 (env 3) (2 ^ 64 - 7)) base (fun u => decide ((u.budget 5).bal = -7)) = true := by decide +kernel
theorem test_attest_nonce : ok (.attestNonceWrite 2000000 (env 4) 9) base (fun u => decide ((u.domSec 5).attest = 1 ∧ (u.domSec 5).nonce = 9)) = true := by decide +kernel
theorem test_role_secret_ends_role : ok (.roleSecretWrite 2000000 (env 4) 1 7) base (fun u => decide (u.wr.assocs.map (·.id) = [2, 3, 4])) = true := by decide +kernel

theorem heard_of {s : State} {w : WEnv}
    (h : s.live = true ∧ s.isOn (.port w.port) = true ∧ (w.udp = s.wr.udp ∧ s.vidOk w.port w.vid = true) ∧ w.sizeOk = true ∧ w.minVersion ≤ 1 ∧ w.badType = false ∧ w.resv = false) : s.Heard w :=
  let ⟨live, port, ⟨udp, vlan⟩, size, version, kind, fields⟩ := h
  { live, port, udp, vlan, size, version, kind, fields }

theorem meets_AssociationsBeginAndEndAsWritten :
    base.live = true ∧ base.Heard (env 0) ∧ greeted.Heard (env 5) ∧ (∀ m, base.wr.throttleUntil = some m → m ≤ Nat.max base.now 2000000) ∧
    base.wr.assocs.length < 32 ∧ (base.wr.assocs.filter fun a => !a.opened).length < 4 ∧ base.sc.n < base.nv.sigEnd ∧
    greeted.live = true ∧ (greeted.wr.assocs.find? fun a => a.id == (env 5).assoc && !a.opened) = some { id := 5, role := 1, offerAt := 1000000 } ∧ greeted.roleEnabled 1 = true ∧
    (∃ proof, proof = (greeted.helloKeys { id := 5, role := 1, offerAt := 1000000 } 0).2) ∧ (∃ proof, proof ≠ (greeted.helloKeys { id := 5, role := 1, offerAt := 1000000 } 0).2) ∧
    (base.at 2000000).Takes (env 1) (assoc 1) ∧ (∃ a ∈ greeted.wr.assocs, a.id = 5 ∧ a.opened = false ∧ a.offerAt + 5000000000 ≤ Nat.max greeted.now 5001000000) ∧
    ¬(∃ a ∈ greeted.wr.assocs, a.id = 5 ∧ a.opened = false ∧ a.offerAt + 5000000000 ≤ Nat.max greeted.now 5000999999) ∧
    (∃ a ∈ base.wr.assocs, a.id = 1 ∧ a.opened = true ∧ a.lastReq + 1000000000 * base.reg Dict.welridIdleTimeout ≤ Nat.max base.now (1000000000 * base.reg Dict.welridIdleTimeout)) ∧
    ¬(∃ a ∈ base.wr.assocs, a.id = 1 ∧ a.opened = true ∧ a.lastReq + 1000000000 * base.reg Dict.welridIdleTimeout ≤ Nat.max base.now 2000000) :=
  ⟨rfl, heard_of (by decide +kernel), heard_of (by decide +kernel), (by intro m h; cases h), by decide +kernel, by decide +kernel, by decide +kernel, rfl, by decide +kernel, by decide +kernel, ⟨_, rfl⟩,
    ⟨_, Nat.succ_ne_self _⟩, takes_of (by decide +kernel), by decide +kernel, by decide +kernel, by decide +kernel, by decide +kernel⟩

theorem test_hello_timeout : ok (.helloTimeout 5001000000 5) greeted (fun u => decide (u.wr.assocs.length = 4)) = true := by decide +kernel
theorem test_hello_timeout_boundary : ok (.helloTimeout 5000999999 5) greeted (fun u => decide (u.wr.assocs.length = 5)) = true := by decide +kernel
theorem test_bye : ok (.helloBye 2000000 (env 1) 0) base (fun u => decide (u.wr.assocs.map (·.id) = [2, 3, 4] ∧ u.out = [])) = true := by decide +kernel
theorem test_offer_uses_an_index : ok (.helloOffer 2000000 { env 0 with prot := false } 1 1 1 7) base (fun u => decide (u.sc.n = 4 ∧ u.wr.assocs.length = 5)) = true := by decide +kernel
theorem test_offer_version : ok (.helloOffer 2000000 { env 0 with prot := false } 2 2 1 7) base (fun u => decide (u.out = [.welrid 0 9 0 1 false (.error 0x0A 0xFF 0 0x01010000) 0 48111])) = true := by decide +kernel
theorem test_throttle_expires : ok (.helloThrottleExpire 3000000) greeted (fun u => decide (u.wr.throttleUntil = none)) = true := by decide +kernel

/-- One segment of a transfer to an entry. -/
def seg (e : Entry) (data : Bytes) (total : Nat) (first last : Bool) : WBlk := { addr := e.addr, off := 0, total := total, first := first, last := last, resv := false, data := data }

theorem meets_ReadsAndWritesAreAnswered :
    (base.at 2000000).Takes (env 4) (assoc 4) ∧
    (let items : List RItem := [{ addr := 0x030001, describe := false, resv := false }, { addr := 0x030001, describe := true, resv := false }]
     items ≠ [] ∧ items.length ≤ 32 ∧ (∀ it ∈ items, it.resv = false) ∧ 36 + sumOf (fun v => 4 + v.len) (items.map ((base.at 2000000).readItem 4 (assoc 4).sel)) ≤ 1280) ∧
    (∀ p ∈ [(Dict.packageState, 0), (Dict.chpowerStatus, 17), (Dict.dsecClass, 0), (Dict.modelStageMap, 0)],
      p.1 ∈ Dict.table ∧ p.2 < p.1.span ∧ p.1.acc ≠ .wo ∧ p.1.ty.isBlock = false ∧ selCheck p.1 (assoc 4).sel true = 0) ∧
    (Dict.traceBuffer ∈ Dict.table ∧ Dict.traceBuffer.acc ≠ .wo ∧ Dict.traceBuffer.ty.isBlock = true ∧ selCheck Dict.traceBuffer (assoc 4).sel true = 0 ∧ (base.at 2000000).blockReadable Dict.traceBuffer = true ∧
      ((base.at 2000000).liveSnaps.filter fun x => x.assoc != (assoc 4).id).length < 4) ∧
    (∃ r, (base.at 2000000).checkItems (assoc 4).role 0 (assoc 4).sel [itemOf Dict.packageState 0 0] = some r) ∧
    (Dict.secFwAutoConfirm ∈ Dict.table ∧ 0 < Dict.secFwAutoConfirm.span ∧ Dict.secFwAutoConfirm.plain = true ∧ Dict.secFwAutoConfirm.acc ≠ .ro ∧ Tbl.sorted base.regs ∧
      (base.at 2000000).Accepts (env 4) (assoc 4) [itemOf Dict.secFwAutoConfirm 0 1]) ∧
    (let b := seg Dict.secFwImage (List.replicate 1024 0) 4000 true false
     Dict.secFwImage ∈ Dict.table ∧ b.addr = Dict.secFwImage.addr ∧ b.resv = false ∧ b.first = true ∧ b.off = 0 ∧ b.last = false ∧ b.data.length ≤ 1024 ∧ b.data.length < b.total ∧ b.total ≤ Dict.secFwImage.ty.maxBlock ∧
     (base.at 2000000).wblockMay (assoc 4).role (assoc 4).sel b.addr = 0 ∧
     ∀ x ∈ base.wr.xfers, x.addr = b.addr → x.scope = (targets Dict.secFwImage (assoc 4).sel).headD 0 → x.assoc ≠ (assoc 4).id → x.last + 10000000000 ≤ Nat.max base.now 2000000) ∧
    (env 4).seq ≠ 0xFFFFFFFF ∧ greeted.live = true := by
  refine ⟨takes_of (by decide +kernel), by decide +kernel, by decide +kernel, by decide +kernel, ⟨wErr 0x02 0 Dict.packageState.addr 0, by decide +kernel⟩,
    ⟨by decide +kernel, by decide, by decide +kernel, by decide, sorted_of (by decide +kernel), accepts_of (by decide +kernel)⟩, by decide +kernel, by decide, rfl⟩

theorem test_read_state : ok (.read 2000000 (env 1) [{ addr := 0x030001, describe := false, resv := false }]) base (fun u => decide (u.out = [.welrid 0 9 1 1 true (.read [⟨0, 2, 1, 4⟩]) 0 48111])) = true := by decide +kernel
theorem test_read_absent : ok (.read 2000000 (env 1) [{ addr := 0x0300FF, describe := false, resv := false }]) base (fun u => decide (u.out = [.welrid 0 9 1 1 true (.read [⟨1, 0, 0, 0⟩]) 0 48111])) = true := by decide +kernel
theorem test_write_plain : ok (.registerWrite 2000000 (env 4) [itemOf Dict.secFwAutoConfirm 0 0]) base (fun u => decide (u.reg Dict.secFwAutoConfirm = 0)) = true := by decide +kernel
theorem test_write_refused_whole : ok (.registerWrite 2000000 (env 4) [itemOf Dict.secFwAutoConfirm 0 0, itemOf Dict.packageState 0 0]) base (fun u => decide (u.reg Dict.secFwAutoConfirm = 1)) = true := by decide +kernel
theorem test_snapshot_expires : ok (.snapshotExpire 10000000005 4) greeted (fun u => decide (u.wr.snaps = [])) = true := by decide +kernel
theorem test_transfer_idle : ok (.blockTransferIdle 10001000000 Dict.slaiskFlowConfig.addr) greeted (fun u => decide (u.wr.xfers = [])) = true := by decide +kernel
theorem test_write_block_held : ok (.writeBlock 2000000 (env 4) (seg Dict.secFwImage [1, 2, 3] 4000 true false)) base (fun u => decide (u.wr.xfers.map (·.data) = [[1, 2, 3]])) = true := by decide +kernel

/-- A flow record: number, operation, ports, priority, IP version, domain, VLAN, remote port, partner, address, window, DSCP. -/
def flowRec (op : Nat) : Bytes :=
  [1, 1] ++ beBytes 2 7 ++ [op, 1, 3, 4] ++ beBytes 2 5 ++ beBytes 2 0 ++ beBytes 2 4791 ++ beBytes 2 0xFFFF ++ beBytes 16 0x0A000001 ++ beBytes 2 16 ++ [0] ++ List.replicate 29 0

theorem lastSegment_of {s : State} {a : Assoc} {e : Entry} {data : Bytes}
    (h : s.wblockMay a.role a.sel e.addr = 0 ∧ data.length ≤ 1024 ∧ data.length ≤ e.ty.maxBlock ∧ s.wr.xfers = []) :
    s.LastSegment a e (seg e data data.length true true) data := by
  let ⟨may, small, fits, idle⟩ := h
  exact ⟨rfl, may, rfl, ⟨small, fits, rfl⟩, .inl ⟨rfl, rfl, rfl, by simp [idle]⟩⟩

theorem meets_BlocksAreWrittenWhole :
    (base.at 2000000).Takes (env 4) (assoc 4) ∧ (env 4).storeOk = true ∧ (base.at 2000000).LastSegment (assoc 4) Dict.secFwImage (seg Dict.secFwImage [1, 2] 2 true true) [1, 2] ∧ ¬imageOk base.nv.fusedSvn [1, 2] ∧
    (base.at 2000000).LastSegment (assoc 4) Dict.dsecKeyCapsule (seg Dict.dsecKeyCapsule [1] 1 true true) [1] ∧ base.openCapsule 5 [1] = (none, false) ∧
    (base.at 2000000).Takes (env 3) (assoc 3) ∧
    (base.at 2000000).LastSegment (assoc 3) Dict.slaiskFlowConfig (seg Dict.slaiskFlowConfig (flowRec 0) 64 true true) (flowRec 0) ∧ base.flowOk (flowRec 0) = true ∧ base.flowNamed 7 = false ∧ (parseFlow (flowRec 0)).2.1 = 0 ∧
    (base.at 2000000).LastSegment (assoc 3) Dict.slaiskFlowConfig (seg Dict.slaiskFlowConfig (flowRec 1) 64 true true) (flowRec 1) ∧ base.flowOk (flowRec 1) = true ∧ (parseFlow (flowRec 1)).2.1 = 1 ∧
    Tbl.sorted base.regs ∧ (base.at 2000000).LastSegment (assoc 3) Dict.warpMemberTable (seg Dict.warpMemberTable [1] 1 true true) [1] ∧ ¬[1].length = 2048 := by
  refine ⟨takes_of (by decide +kernel), rfl, lastSegment_of (by decide +kernel), by intro h; exact absurd h.1 (by decide), lastSegment_of (by decide +kernel), by decide +kernel, takes_of (by decide +kernel),
    lastSegment_of (by decide +kernel), by decide +kernel, by decide +kernel, by decide +kernel, lastSegment_of (by decide +kernel), by decide +kernel, by decide +kernel, sorted_of (by decide +kernel),
    lastSegment_of (by decide +kernel), by decide⟩

theorem test_flow_configured : ok (.flowConfigure 2000000 (env 3) (seg Dict.slaiskFlowConfig (flowRec 0) 64 true true)) base (fun u => decide ((u.flow 7).st = 1 ∧ (u.flow 7).cfg.dom = 5 ∧ (u.flow 7).cfg.rport = 4791)) = true := by
  decide +kernel
theorem test_flow_removed : ok (.flowRemove 2000000 (env 3) (seg Dict.slaiskFlowConfig (flowRec 1) 64 true true)) base (fun u => decide ((u.flow 7).st = 0)) = true := by decide +kernel
theorem test_member_table_short : ok (.memberTableWrite 2000000 (env 3) (seg Dict.warpMemberTable [1] 1 true true)) base (fun u => decide (u.reg Dict.warpMemberTable = 0)) = true := by decide +kernel

/-! ## Security -/

/-- Domain 5 has asked for a certificate, domain 6 has one whose key is pending, domain 7's overlap is over, domain 8 is SEALED with keys; seals 0 and 1 start and stop. -/
def securing : State :=
  { base with
    fns := (List.range 80).map (fun n => (n, on)) ++ [(100, on), (300, { st := .starting }), (301, { st := .stopping, pend := .on })]
    regs := [(regKey Dict.sealDomain 1 0, 8), (regKey Dict.dsecClass 0 8, 2)]
    sc := { base.sc with
      doms := [(5, { attest := 1, nonce := 8, keyNo := 1 }), (6, { attest := 2, keyNo := 2, issued := 1000000 }), (7, { epoch := 2, prevUntil := some 100 }), (8, { epoch := 1, root := 9, active := 1 })], reserving := true } }

theorem meets_SecurityEventsActAsWritten :
    securing.live = true ∧ 5 < 4096 ∧ (securing.domSec 5).attest = 1 ∧ securing.sc.n < securing.nv.sigEnd ∧ (securing.domSec 4095).attest ≠ 1 ∧
    (let s : State := { securing with sc := { securing.sc with n := 1024, reserving := false } }; (s.domSec 5).attest = 1 ∧ s.nv.sigEnd ≤ s.sc.n ∧ ¬(s.sc.reserving = true ∧ s.sc.n < 2 ^ 40)) ∧
    ((securing.domSec 6).keyNo ≠ 0 ∧ (securing.domSec 6).attest = 2 ∧ (securing.domSec 6).issued + 1000000000 * securing.reg Dict.secCapsuleTimeout ≤ Nat.max securing.now (1000000 + 1000000000 * securing.reg Dict.secCapsuleTimeout)) ∧
    (∃ p, (securing.domSec 7).prevUntil = some p ∧ p ≤ securing.pk.current) ∧ securing.sc.reserving = true ∧ base.sc.reserving = false ∧ Tbl.sorted securing.fns ∧ securing.sealBegan 0 = .starting ∧ securing.sealBegan 1 = .stopping ∧
    (securing.fn (.seal 0)).st = .starting ∧ (sealMoves 0 (securing.reg Dict.sealDomain 0) (securing.at 2000000)).1 = true ∧ (securing.fn (.seal 1)).st = .stopping ∧ (securing.fn (.seal 2)).st ≠ .starting := by
  refine ⟨rfl, by decide, by decide +kernel, by decide +kernel, by decide +kernel, by decide +kernel, by decide +kernel, ⟨100, by decide +kernel⟩, rfl, rfl, sorted_of (by decide +kernel), ?_⟩
  decide +kernel

theorem test_certificate : ok (.attestCertReady 2000000 5) securing (fun u => decide ((u.domSec 5).attest = 2 ∧ u.sc.n = 4 ∧ (u.domSec 5).cert.map (·.nonce) = some 8)) = true := by decide +kernel
theorem test_overlap_ends : ok (.epochOverlapExpire 2000000 7) securing (fun u => decide ((u.domSec 7).prevUntil = none)) = true := by decide +kernel
theorem test_index_block : ok (.signatureIndexBlockReserved 2000000 true) securing (fun u => decide (u.nv.sigEnd = 2048 ∧ u.sc.reserving = false)) = true := by decide +kernel
theorem test_seal_on : ok (.sealStartingComplete 2000000 0) securing (fun u => decide ((u.fn (.seal 0)).st = .on)) = true := by decide +kernel
theorem test_seal_off_starts_again : ok (.sealStoppingComplete 2000000 1) securing (fun u => decide ((u.fn (.seal 1)).st = .starting)) = true := by decide +kernel

/-! ## Picks and barriers -/

/-- `pick.source` is s, and host picks carry no tag. -/
def fromSource (s : Nat) : State := (base.setReg Dict.pickSource s).setReg Dict.pickMsgAuth 0

/-- A host pick message with number n. -/
def hostMsg (n : Nat) : HostPick := { version := 1, minVersion := 1, typ := 1, flags := 0, resv := 0, pick := n, tag := 0 }

/-- A pick message. -/
def pickMsg (n : Nat) : PickMsg := { version := 1, minVersion := 1, flags := 0, align := 500, pick := n, accum := 0, hops := 1, root := 0, barrier := 102 }

/-- A member that takes picks of its tree parent on link 0. -/
def follower : State :=
  let s := member base
  { s with regs := [(regKey Dict.pickSource 0 0, 2), (regKey Dict.warpMemberTable 0 0, table (2 ^ 15872 + 2)), (regKey Dict.warpTreeParent 0 0, 0)] }

theorem follower_reg : follower.reg Dict.warpMemberTable = table (2 ^ 15872 + 2) := by
  show Tbl.get _ [(regKey Dict.pickSource 0 0, 2), (regKey Dict.warpMemberTable 0 0, table (2 ^ 15872 + 2)), (regKey Dict.warpTreeParent 0 0, 0)] (regKey Dict.warpMemberTable 0 0) = _
  rw [Tbl.get, if_neg (by decide), Tbl.get, if_pos rfl]

/-- Synchronised with intervals learned, last acted upon at 1 ms; a pick waits. -/
def learned : State :=
  { base with pk := { base.pk with intervals := [1000000, 1000000, 1000000, 1000000], lastAct := some 1000000, edgeAt := some 1000000, edgeHigh := 10000 } }

/-- Synchronised, with no interval learned. -/
def unlearned : State := { learned with pk := { learned.pk with intervals := [] } }

/-- In HOLDOVER, the next pick due at 2 ms, h left. -/
def holding (h : Nat) : State := { learned with pk := { learned.pk with st := .holdover, holdRem := h, holdNext := some 2000000 } }

/-- Pick 101 waits for its action point at 2 ms. -/
def waiting101 : State := { base with pk := { base.pk with pend := [{ num := 101, due := 2000000, hold := false, coal := false, late := false, src := true }] } }

/-- The contact has been declared stuck; a high of 1 us has ended. -/
def stuckHigh : State := { base with pk := { base.pk with stuck := true } }
def shortHigh : State := { learned with pk := { learned.pk with edgeHigh := 1000 } }

theorem meets_ContactEdgesMakePicks :
    (∀ s ∈ [base, fromSource 0, stuckHigh, learned, shortHigh, unlearned], s.live = true ∧ s.picksTaken = true ∧ Tbl.sorted s.regs) ∧
    stuckHigh.pk.stuck = true ∧ base.pk.stuck = false ∧ base.reg Dict.pickSource = 1 ∧ (fromSource 0).reg Dict.pickSource ≠ 1 ∧
    learned.pk.edgeAt = some 1000000 ∧ learned.pk.stuck = false ∧ 10000 ≤ learned.pk.edgeHigh ∧ learned.pk.pend = [] ∧ learned.pk.st = .synced ∧ learned.pk.learned = true ∧ learned.reg Dict.pickHoldoverMax ≠ 0 ∧
    unlearned.pk.edgeAt = some 1000000 ∧ unlearned.pk.learned = false ∧ shortHigh.pk.edgeAt = some 1000000 ∧ shortHigh.pk.edgeHigh < 10000 := by
  refine ⟨?_, by decide +kernel⟩
  intro s hs
  simp only [List.mem_cons, List.not_mem_nil, or_false] at hs
  rcases hs with rfl | rfl | rfl | rfl | rfl | rfl <;> exact ⟨rfl, rfl, sorted_of (by decide +kernel)⟩

theorem meets_PickMessagesAreNumbered :
    (fromSource 3).live = true ∧ (fromSource 3).picksTaken = true ∧ Tbl.sorted (fromSource 3).regs ∧ (fromSource 3).isOn (.port 0) = true ∧ (fromSource 3).vidOk 0 (hostMsg 101).vid = true ∧
    ((fromSource 3).reg Dict.pickSource = 3 ∧ (hostMsg 101).minVersion ≤ 1 ∧ (hostMsg 101).typ = 1 ∧ (hostMsg 101).flags = 0 ∧ (hostMsg 101).resv = 0 ∧ (fromSource 3).reg Dict.pickMsgAuth = 0) ∧
    (fromSource 3).pk.lastNum = 100 ∧ (fromSource 0).reg Dict.pickSource ≠ 3 ∧ Tbl.sorted (fromSource 0).regs :=
  ⟨rfl, rfl, sorted_of (by decide +kernel), by decide +kernel, by decide +kernel, by decide +kernel, by decide +kernel, by decide +kernel, sorted_of (by decide +kernel)⟩

theorem meets_PickMessagesAreNumbered_flit :
    follower.live = true ∧ follower.picksTaken = true ∧ Tbl.sorted follower.regs ∧ follower.linkLive 0 = true ∧ ((follower.at 2000000).heardFrom (follower.link 0).peerDev).present follower.device = true ∧
    follower.reg Dict.pickSource = 2 ∧ follower.reg Dict.warpTreeParent = 0 ∧ (pickMsg 101).minVersion ≤ 1 ∧ follower.pk.st = .synced :=
  ⟨rfl, rfl, sorted_of (by decide +kernel), by decide +kernel, heard_present (s := follower.at 2000000) _ follower_reg member_lt rfl,
    by decide +kernel, by decide +kernel, by decide, rfl⟩

theorem meets_ActionPointMakesThePickCurrent :
    waiting101.live = true ∧ waiting101.picksTaken = true ∧ waiting101.pk.pend = [{ num := 101, due := 2000000, hold := false, coal := false, late := false, src := true }] ∧ 2000000 ≤ Nat.max waiting101.now 2000000 ∧
    waiting101.pk.stuckPend = false := ⟨rfl, rfl, rfl, Nat.le_max_right _ _, rfl⟩

theorem meets_MissedPicksAreHeldOverOrLost :
    (∀ s ∈ [learned, unlearned, holding 5, holding 0], s.live = true ∧ s.picksTaken = true ∧ Tbl.sorted s.regs ∧ s.pk.stuckPend = false) ∧
    (∀ s ∈ [learned, unlearned], s.pk.st = .synced ∧ s.pk.pend = [] ∧ ∃ a, s.missAt = some a ∧ a ≤ Nat.max s.now a) ∧ learned.pk.learned = true ∧ learned.reg Dict.pickHoldoverMax ≠ 0 ∧ unlearned.pk.learned = false ∧
    (∀ h, (holding h).pk.st = .holdover ∧ (holding h).pk.holdNext = some 2000000 ∧ (holding h).pk.holdRem = h) := by
  refine ⟨?_, ?_, rfl, by decide +kernel, rfl, fun _ => ⟨rfl, rfl, rfl⟩⟩
  · intro s hs
    simp only [List.mem_cons, List.not_mem_nil, or_false] at hs
    rcases hs with rfl | rfl | rfl | rfl <;> exact ⟨rfl, rfl, sorted_of (by decide +kernel), rfl⟩
  · intro s hs
    simp only [List.mem_cons, List.not_mem_nil, or_false] at hs
    rcases hs with rfl | rfl <;> exact ⟨rfl, rfl, _, rfl, Nat.le_max_right _ _⟩

theorem test_contact_edge : ok (.pickContactEdge 2000000 20 0) base (fun u => decide (u.pk.pend.map (fun q => (q.num, q.late)) = [(101, false)])) = true := by decide +kernel
theorem test_contact_glitch : ok (.pickContactEdge 2000000 19 0) base (fun u => decide (u.pk.pend = [] ∧ u.reg Dict.pickGlitchCount = 1)) = true := by decide +kernel
theorem test_host_pick_window : ok (.hostPickMessage 2000000 0 (hostMsg (100 + 2 ^ 40))) (fromSource 3) (fun u => decide (u.pk.pend.map (·.num) = [100 + 2 ^ 40])) = true := by decide +kernel
theorem test_host_pick_beyond : ok (.hostPickMessage 2000000 0 (hostMsg (101 + 2 ^ 40))) (fromSource 3) (fun u => decide (u.pk.pend = [] ∧ u.reg Dict.pickRejectCount = 1)) = true := by decide +kernel
theorem test_action_point : ok (.pickActionPoint 2000000) waiting101 (fun u => decide (u.pk.current = 101 ∧ u.pk.pend = [] ∧ u.pk.lastAct = some 2000000 ∧ u.nv.floor = 65637)) = true := by decide +kernel
theorem test_action_point_early : ok (.pickActionPoint 1999999) waiting101 (fun u => decide (u.pk.current = 100)) = true := by decide +kernel
theorem test_stuck_to_holdover : ok (.pickStuckInput 1010000) learned (fun u => decide (u.pk.stuck = true ∧ u.pk.st = .holdover)) = true := by decide +kernel
theorem test_holdover_pick : ok (.holdoverPickDue 2000000) (holding 5) (fun u => decide (u.pk.current = 101 ∧ u.pk.holdRem = 4 ∧ u.pk.holdNext = some 3000000)) = true := by decide +kernel
theorem test_holdover_ends_lost : ok (.holdoverPickDue 2000000) (holding 0) (fun u => decide (u.pk.current = 100 ∧ u.pk.st = .lost)) = true := by decide +kernel
theorem test_miss_to_holdover : ok (.pickMissTimeout 3000000) learned (fun u => decide (u.pk.st = .holdover ∧ u.pk.current = 101)) = true := by decide +kernel

/-- A barrier at pick 102 is cut here, and its BARRIER_DONE has been sent. -/
def barred (s : State) (cut : Bool) : State := { s with pk := { s.pk with barrier := some { p := 102, cut := cut, cutAt := 1000000, sent := true, done := [] } } }

theorem meets_BarriersCollectTheirReports :
    (barred (member base) true).live = true ∧ (barred (member base) true).linkLive 0 = true ∧ (∀ dev ∈ [1, 63], (((barred (member base) true).at 2000000).heardFrom dev).present (barred (member base) true).device = true) ∧
    (barred (member base) true).picksTaken = true ∧ (pickMsg 101).minVersion ≤ 1 ∧
    (∀ c ∈ [true, false], (barred (member base) c).pk.barrier = some { p := 102, cut := c, cutAt := 1000000, sent := true, done := [] } ∧ 102 = (pickMsg 101).barrier) ∧ ([] : List Nat).contains 1 = false ∧
    Tbl.sorted (barred (member base) true).regs ∧
    1000000 + 1000000 * (barred base true).reg Dict.pickBarrierTimeout ≤ Nat.max base.now (1000000 + 1000000 * (barred base true).reg Dict.pickBarrierTimeout) ∧ base.sv.run = none ∧ base.sv.owed = false ∧ base.pw.pkg ≠ .draining :=
  ⟨rfl, by decide +kernel, fun dev _ => heard_present (s := (barred (member base) true).at 2000000) dev (member_reg base) member_lt rfl, rfl, by decide, by decide, rfl, sorted_of (by decide +kernel), Nat.le_max_right _ _, rfl, rfl, by decide⟩

theorem test_barrier_timeout : ok (.barrierTimeout (1000000 + 1000000 * (barred base true).reg Dict.pickBarrierTimeout)) (barred base true) (fun u => decide (u.pk.barrier = none ∧ u.reg Dict.pickBarrierFailCount = 1)) = true := by decide +kernel
theorem test_barrier_timeout_uncut : ok (.barrierTimeout 9000000000000) (barred base false) (fun u => decide (u.pk.barrier ≠ none)) = true := by decide +kernel

/-! ## Sessions -/

/-- With a deadline that has passed. -/
def lateCmd (op count : Nat) : QDesc := { cmd op count with d := { desc op count handle1 with deadline := 99 } }

/-- With AUTO_REVIVE. -/
def autoCmd (op count : Nat) : QDesc := { cmd op count with d := { desc op count handle1 with flags := 2 } }

theorem meets_SessionCommandsMeetTheirCell :
    (∀ p ∈ [(0x01, SSt.admitted, Cell.b), (0x02, .parkedDeep, .a), (0x03, .condensed, .a), (0x04, .halted, .b), (0x05, .admitted, .d), (0x06, .condensed, .d), (0x07, .moving, .w), (0x08, .closing, .b),
        (0x0B, .reviving, .w)],
      (holds (sess p.2.1 [cmd p.1 0])).live = true ∧ (holds (sess p.2.1 [cmd p.1 0])).Ready 1 p.1 (cmd p.1 0) [] ∧ matrix ((holds (sess p.2.1 [cmd p.1 0])).sess 1).st p.1 = p.2.2 ∧
      (holds (sess p.2.1 [cmd p.1 0])).isLate (cmd p.1 0).d.deadline = false) ∧
    (∀ p ∈ [0x01, 0x02, 0x03, 0x04, 0x05, 0x06, 0x07, 0x08, 0x0B],
      (holds (sess .toolwait [lateCmd p 0])).Ready 1 p (lateCmd p 0) [] ∧ (holds (sess .toolwait [lateCmd p 0])).isLate (lateCmd p 0).d.deadline = true) ∧
    (lostPick (holds (sess .toolwait [cmd 0x03 1]))).Ready 1 0x03 (cmd 0x03 1) [] ∧ (lostPick (holds (sess .toolwait [cmd 0x03 1]))).pk.st = .lost ∧ Machine.admits 0x03 = true ∧
    (bit (cmd 0x02 0).d.flags 1 = false) ∧
    (∀ p ∈ [0x05, 0x06], (cmd p 0).d.count ≤ 2 ∧ (((holds (sess .condensed [cmd p 0])).at 5).taking 1 (cmd p 0)).handlesOk 1 5 (cmd p 0) = true) := by
  have h1 : ([(0x01, SSt.admitted, Cell.b), (0x02, .parkedDeep, .a), (0x03, .condensed, .a), (0x04, .halted, .b), (0x05, .admitted, .d), (0x06, .condensed, .d), (0x07, .moving, .w), (0x08, .closing, .b),
      (0x0B, .reviving, .w)].all fun p => readyB (holds (sess p.2.1 [cmd p.1 0])) 1 p.1 (cmd p.1 0) [] && decide (matrix ((holds (sess p.2.1 [cmd p.1 0])).sess 1).st p.1 = p.2.2) &&
        !(holds (sess p.2.1 [cmd p.1 0])).isLate (cmd p.1 0).d.deadline) = true := by decide +kernel
  have h2 : ([0x01, 0x02, 0x03, 0x04, 0x05, 0x06, 0x07, 0x08, 0x0B].all fun p => readyB (holds (sess .toolwait [lateCmd p 0])) 1 p (lateCmd p 0) [] &&
      (holds (sess .toolwait [lateCmd p 0])).isLate (lateCmd p 0).d.deadline) = true := by decide +kernel
  refine ⟨fun p hp => ?_, fun p hp => ?_, ready_of (by decide +kernel), rfl, rfl, by decide, by decide +kernel⟩
  · have h := List.all_eq_true.mp h1 p hp
    simp only [Bool.and_eq_true, decide_eq_true_eq, Bool.not_eq_true'] at h
    exact ⟨rfl, ready_of h.1.1, h.1.2, h.2⟩
  · have h := List.all_eq_true.mp h2 p hp
    simp only [Bool.and_eq_true] at h
    exact ⟨ready_of h.1, h.2⟩

theorem test_open : ok (.openSession 2000000 1) (holds { ring := [cmd 1 2] }) (fun u => decide ((u.sess 1).st = .admitted ∧ (u.sess 1).model = 2 ∧ (u.cq 5).written = 1)) = true := by decide +kernel
theorem test_open_late : ok (.openSession 2000000 1) (holds { ring := [lateCmd 1 2] }) (fun u => decide ((u.sess 1).st = .free ∧ (u.sess 1).ring = [] ∧ (u.cq 5).written = 1)) = true := by decide +kernel
theorem test_generate : ok (.generate 2000000 1) (holds (sess .toolwait [cmd 3 5])) (fun u => decide ((u.sess 1).st = .decode ∧ (u.sess 1).remaining = 5)) = true := by decide +kernel
theorem test_generate_moving_waits : ok (.generate 2000000 1) (holds (sess .moving [cmd 3 5])) (fun u => decide ((u.sess 1).ring = [cmd 3 5])) = true := by decide +kernel
theorem test_truncate : ok (.truncate 2000000 1) (holds (sess .toolwait [cmd 0x0B 2])) (fun u => decide ((u.sess 1).length = 2 ∧ (u.sess 1).tokens = [0, 1] ∧ (u.sess 1).sver = 1)) = true := by decide +kernel
theorem test_truncate_no_change : ok (.truncate 2000000 1) (holds (sess .toolwait [cmd 0x0B 4])) (fun u => decide ((u.sess 1).length = 4 ∧ (u.cq 5).written = 1)) = true := by decide +kernel

theorem meets_SessionCommandsRun :
    (let s := holds { ring := [cmd 1 2] }
     let v := (s.at 5).taking 1 (cmd 1 2)
     s.live = true ∧ s.Goes 1 0x01 (cmd 1 2) [] ∧ (v.sess 1).st = .free ∧ s.pw.pkg ≠ .draining ∧ v.mayHold 5 1 = true ∧ v.modelFor 5 2 1 = true ∧ v.handlesOk 1 5 (cmd 1 2) = true ∧ (cmd 1 2).inSt = 0 ∧ (cmd 1 2).d.dataLen = 0 ∧ (cmd 1 2).d.count = 2) ∧
    (let q := given 1 2 [97, 98]
     let s := holds { ring := [q] }
     let v := (s.at 5).taking 1 q
     s.Goes 1 0x01 q [] ∧ (v.sess 1).st = .free ∧ v.mayHold 5 1 = true ∧ v.modelFor 5 2 1 = true ∧ v.handlesOk 1 5 q = true ∧ q.inSt = 2 ∧ 0 < q.d.dataLen ∧ q.d.dataLen ≤ 16777216 ∧ (v.model 2).st = 2 ∧ v.pinFull 1 = false) ∧
    (let q := given 2 0 [97, 98]
     let s := holds (sess .toolwait [q])
     let v := (s.at 5).taking 1 q
     s.Goes 1 0x02 q [] ∧ (v.sess 1).st = .toolwait ∧ q.d.count = 0 ∧ v.handlesOk 1 (v.sess 1).dom q = true ∧ q.inSt = 2 ∧ (v.model (v.sess 1).model).st = 2 ∧ v.pinFull 1 = false) ∧
    (let q := cmd 3 1048576
     let s := holds (sess .admitted [q])
     let v := (s.at 5).taking 1 q
     s.Goes 1 0x03 q [] ∧ (v.sess 1).st = .admitted ∧ v.handlesOk 1 (v.sess 1).dom q = true ∧ v.grammar 5 0xFFFFFFFF = none ∧ v.ref 5 0 0 true ≠ .wait ∧ (∀ st, v.ref 5 0 0 true ≠ .fail st) ∧ (v.model 2).st = 2 ∧ (v.sess 1).length ≠ 1048576 ∧
       v.replacing 5 0xFFFFFFFF = false ∧ v.pinFull 1 = false ∧ q.dom = (v.sess 1).dom) ∧
    (let q := cmd 0x0B 3
     let s := holds (sess .admitted [q])
     let v := (s.at 5).taking 1 q
     s.Goes 1 0x0B q [] ∧ (v.sess 1).st = .admitted ∧ q.d.count < (v.sess 1).length ∧ v.handlesOk 1 (v.sess 1).dom q = true ∧ (v.tm.moves.any fun m => m.k == 1) = false ∧ q.dom = (v.sess 1).dom) := by
  have href : ((((holds (sess .admitted [cmd 3 1048576])).at 5).taking 1 (cmd 3 1048576)).ref 5 0 0 true) = .region 7 0 0 := by decide +kernel
  refine ⟨⟨rfl, goes_of (by decide +kernel), by decide +kernel⟩, ⟨goes_of (by decide +kernel), by decide +kernel⟩, ⟨goes_of (by decide +kernel), by decide +kernel⟩,
    ⟨goes_of (by decide +kernel), by decide +kernel, by decide +kernel, by decide +kernel, by rw [href]; decide, by rw [href]; intro st; exact nofun, by decide +kernel⟩, ⟨goes_of (by decide +kernel), by decide +kernel⟩⟩

/-- A record that IMPORT brings. -/
def xrec : XRec :=
  { ok := true, content := 1, policy := 0, domain := 5, model := 2, prio := 3, handle := handle1, length := 4, sver := 8, frames := 0, grammar := 0xFFFFFFFF, stop := 0xFFFFFFFF, sampling := 0xFFFFFFFF, gstate := 0xFFFFFFFF,
    meas := 66, tokens := [0, 1, 2, 0], pages := [], ctx := {} }

/-- EXPORT and IMPORT, which name a far region. -/
def farCmd (op n : Nat) : QDesc := { cmd op 0 with d := { desc op 0 handle1 with dataRef := 2 ^ 63, dataLen := n } }

theorem meets_WholeSessionCommandsBegin :
    (∀ p ∈ [(0x04, SSt.toolwait, 0), (0x04, .parkedFar, 0), (0x04, .admitted, 1), (0x04, .parkedDeep, 0), (0x04, .parkedFar, 1), (0x06, .parkedDeep, 2), (0x05, .parkedDeep, 0)],
      (let q := cmd p.1 p.2.2
       let s := holds (sess p.2.1 [q])
       let v := (s.at 5).taking 1 q
       s.Goes 1 p.1 q [] ∧ (v.sess 1).st = p.2.1 ∧ matrix (v.sess 1).st p.1 = .x ∧ v.handlesOk 1 (v.sess 1).dom q = true ∧ v.pinFull 1 = false ∧ q.dom = (v.sess 1).dom ∧ v.moverFull (chOf 1) = false ∧ (v.sess 1).pages = [] ∧ q.d.dataRef < 16)) ∧
    (let q := farCmd 0x07 0
     let s := holds (sess .toolwait [q])
     let v := (s.at 5).taking 1 q
     s.Goes 1 0x07 q [] ∧ v.handlesOk 1 (v.sess 1).dom q = true ∧ v.pinFull 1 = false ∧ q.dom = (v.sess 1).dom ∧ v.moverFull (chOf 1) = false ∧ (v.sess 1).pages = [] ∧ matrix (v.sess 1).st 0x07 = .x ∧ q.d.count ≤ 1 ∧
       v.farFits (v.sess 1).dom q.d.dataRef ((1 + v.exportFrames 1 q.d.count (v.reg Dict.dtierSlatePolicy 0 (v.sess 1).dom)) * frameBytes) = true ∧ v.ref (v.sess 1).dom q.d.dataRef q.d.dataLen true ≠ .wait ∧
       ∀ st, v.ref (v.sess 1).dom q.d.dataRef q.d.dataLen true ≠ .fail st) ∧
    (∀ p ∈ [(0x0B, 3), (0x02, 0)],
      (let q : QDesc := { autoCmd p.1 p.2 with inSt := 2 }
       let s := holds (sess .parkedDeep [q])
       let v := (s.at 5).taking 1 q
       s.Goes 1 p.1 q [] ∧ v.handlesOk 1 (v.sess 1).dom q = true ∧ v.pinFull 1 = false ∧ q.dom = (v.sess 1).dom ∧ v.moverFull (chOf 1) = false ∧ (v.sess 1).pages = [] ∧ matrix (v.sess 1).st p.1 = .a ∧ bit q.d.flags 1 = true ∧ q.d.count < (v.sess 1).length)) ∧
    (let q := farCmd 0x08 65536
     let s := holds { ring := [q] }
     let v := (s.at 5).taking 1 q
     s.Goes 1 0x08 q [] ∧ (v.sess 1).st = .free ∧ q.d.count = 0 ∧ q.d.dataRef / 2 ^ 62 % 4 = 2 ∧ v.handlesOk 1 q.dom q = true ∧ v.pinFull 1 = false ∧ v.mayHold q.dom 1 = true ∧ v.ref q.dom q.d.dataRef q.d.dataLen false ≠ .wait ∧
       (∀ st, v.ref q.dom q.d.dataRef q.d.dataLen false ≠ .fail st) ∧ xrec.ok = true ∧ xrec.domain = q.dom ∧ (v.model xrec.model).st = 2 ∧ (v.model xrec.model).dom = q.dom ∧ (v.model xrec.model).meas = xrec.meas ∧ v.reg Dict.dsecClass 0 q.dom ≠ 2) := by
  have h1 : ([(0x04, SSt.toolwait, 0), (0x04, .parkedFar, 0), (0x04, .admitted, 1), (0x04, .parkedDeep, 0), (0x04, .parkedFar, 1), (0x06, .parkedDeep, 2), (0x05, .parkedDeep, 0)].all fun p =>
      (let q := cmd p.1 p.2.2
       let s := holds (sess p.2.1 [q])
       let v := (s.at 5).taking 1 q
       goesB s 1 p.1 q [] && decide ((v.sess 1).st = p.2.1 ∧ matrix (v.sess 1).st p.1 = .x ∧ v.handlesOk 1 (v.sess 1).dom q = true ∧ v.pinFull 1 = false ∧ q.dom = (v.sess 1).dom ∧ v.moverFull (chOf 1) = false ∧ (v.sess 1).pages = [] ∧ q.d.dataRef < 16))) = true := by decide +kernel
  have h2 : ([(0x0B, 3), (0x02, 0)].all fun p =>
      (let q : QDesc := { autoCmd p.1 p.2 with inSt := 2 }
       let s := holds (sess .parkedDeep [q])
       let v := (s.at 5).taking 1 q
       goesB s 1 p.1 q [] && decide (v.handlesOk 1 (v.sess 1).dom q = true ∧ v.pinFull 1 = false ∧ q.dom = (v.sess 1).dom ∧ v.moverFull (chOf 1) = false ∧ (v.sess 1).pages = [] ∧ matrix (v.sess 1).st p.1 = .a ∧ bit q.d.flags 1 = true ∧ q.d.count < (v.sess 1).length))) = true := by
    decide +kernel
  have e1 : ((((holds (sess .toolwait [farCmd 0x07 0])).at 5).taking 1 (farCmd 0x07 0)).ref ((((holds (sess .toolwait [farCmd 0x07 0])).at 5).taking 1 (farCmd 0x07 0)).sess 1).dom (2 ^ 63) 0 true) = .region 7 0 0 := by decide +kernel
  have e2 : ((((holds { ring := [farCmd 0x08 65536] }).at 5).taking 1 (farCmd 0x08 65536)).ref 5 (2 ^ 63) 65536 false) = .region 7 0 0 := by decide +kernel
  refine ⟨fun p hp => ?_, ⟨goes_of (by decide +kernel), by decide +kernel, by decide +kernel, by decide +kernel, by decide +kernel, by decide +kernel, by decide +kernel, by decide, by decide +kernel, (ne_of_eq_of_ne e1 (by decide)), fun st => ne_of_eq_of_ne e1 nofun⟩,
    fun p hp => ?_, ⟨goes_of (by decide +kernel), by decide +kernel, by decide, by decide, by decide +kernel, by decide +kernel, by decide +kernel, ne_of_eq_of_ne e2 (by decide), fun st => ne_of_eq_of_ne e2 nofun, by decide +kernel⟩⟩
  · have h := List.all_eq_true.mp h1 p hp
    simp only [Bool.and_eq_true] at h
    exact ⟨goes_of h.1, of_decide_eq_true h.2⟩
  · have h := List.all_eq_true.mp h2 p hp
    simp only [Bool.and_eq_true] at h
    exact ⟨goes_of h.1, of_decide_eq_true h.2⟩

theorem test_park : ok (.park 2000000 1) (holds (sess .toolwait [cmd 4 0])) (fun u => decide ((u.sess 1).st = .moving ∧ (u.sess 1).target = 0 ∧ (u.sess 1).prior = .toolwait)) = true := by decide +kernel
theorem test_condense : ok (.condense 2000000 1) (holds (sess .parkedDeep [cmd 6 2])) (fun u => decide ((u.sess 1).st = .moving ∧ (u.sess 1).target = 1 ∧ (u.sess 1).policy = 2)) = true := by decide +kernel
theorem test_revive : ok (.revive 2000000 1) (holds (sess .parkedDeep [cmd 5 0])) (fun u => decide ((u.sess 1).st = .reviving)) = true := by decide +kernel
theorem test_export : ok (.exportSession 2000000 1) (holds { sess .toolwait [{ farCmd 7 0 with d := { (farCmd 7 0).d with count := 1 } }] with pages := [(0, { tier := 2, frame := 3 })] }) (fun u => decide ((u.sess 1).st = .moving ∧ (u.sess 1).target = 3)) = true := by decide +kernel
theorem test_import : ok (.importSession 2000000 1 (some xrec)) (holds { ring := [farCmd 8 65536] }) (fun u => decide ((u.sess 1).st = .moving ∧ (u.sess 1).length = 4 ∧ (u.sess 1).sver = 8)) = true := by decide +kernel
theorem test_append_revives_first : ok (.append 2000000 1) (holds (sess .parkedDeep [{ autoCmd 2 0 with inSt := 2 }])) (fun u => decide ((u.sess 1).st = .reviving ∧ (u.sess 1).revivePend = true)) = true := by decide +kernel

/-- A record of domain 5 is held, and its queue has room. -/
def heldRec : Held := { r := { handle := handle1, seq := 3, opcode := 3, status := 0, progress := 0, outLen := 0, pick := 100, ns := 0, flags := 0 }, notif := false, hub := true, wantsNotif := false }

theorem meets_TimersActWhenTheyAreDue :
    (∀ p ∈ [SSt.admitted, .parkedDeep, .condensed, .parkedFar],
      (let s := holds { sess p [] with ttl := 100 }
       s.live = true ∧ Tbl.sorted s.ss.tbl ∧ Tbl.sorted s.ss.cq ∧ s.timerFree 1 = true ∧ s.pinFull 1 = false ∧ (s.sess 1).st = p ∧ s.reg Dict.dtierSlateExpiry 0 5 = 0 ∧ s.stalled 5 = false)) ∧
    (holds { sess .admitted [] with ttl := 101 }).timerFree 1 = false ∧
    (let s := (holds { sess .condensed [] with ttl := 100 }).setReg Dict.dtierSlateExpiry 1 0 5
     Tbl.sorted s.ss.tbl ∧ Tbl.sorted s.ss.cq ∧ s.timerFree 1 = true ∧ s.pinFull 1 = false ∧ (s.sess 1).st = .condensed ∧ s.reg Dict.dtierSlateExpiry 0 5 ≠ 0 ∧ s.stalled 5 = false) ∧
    ((holds (sess .toolwait [lateCmd 3 5])).sess 1).serving = false ∧
    (let s := holds { sess .decode [] with run := some (running 3 5), deadline := 99, bwait := 17, waitFrom := some 84 }
     let x := s.sess 1
     x.run = some (running 3 5) ∧ x.serving = true ∧ s.isLate x.deadline = true ∧ s.inStep 1 = false ∧ s.stalled 5 = false ∧ x.ring = [] ∧ x.st = .decode ∧ s.reg Dict.dbudgetGrace 0 x.dom < x.bwait ∧ x.waitFrom = some 84 ∧
       84 + s.reg Dict.dtierFrameGrace 0 x.dom ≤ s.pk.current ∧ 84 < s.pk.current) ∧
    (let s := (holds { sess .decode [] with run := some (running 3 5) }).setReg Dict.dsessStreamEvery 10 0 5
     (s.sess 1).run = some (running 3 5) ∧ (running 3 5).q.d.opcode = 0x03 ∧ (s.sess 1).st = .decode ∧ 0 < s.reg Dict.dsessStreamEvery 0 (s.sess 1).dom ∧
       (running 3 5).lastRec + s.reg Dict.dsessStreamEvery 0 (s.sess 1).dom ≤ s.pk.current ∧ s.stalled (s.sess 1).dom = false) ∧
    (let s : State := { hosting with ss := { hosting.ss with cq := [(5, { held := [heldRec] })] } }
     (s.cq 5).held = [heldRec] ∧ heldRec.notif = false ∧ heldRec.wantsNotif = false ∧ s.cqRoom 5 = true ∧ Tbl.sorted s.ss.cq) ∧
    (let s : State := { hosting with tm := { hosting.tm with frames := [(frameKey 0 0 8, { own := 5, st := 2 }), (frameKey 3 1 16777215, { own := 5, st := 3 })] } }
     Tbl.sorted s.tm.frames ∧ (s.frame 0 0 8).st = 2 ∧ (s.frame 3 1 16777215).st = 3 ∧ (s.frame 0 0 9).st ≠ 2) := by
  refine ⟨?_, by decide +kernel, ⟨sorted_of (by decide +kernel), sorted_of (by decide +kernel), by decide +kernel⟩, by decide +kernel, by decide +kernel, by decide +kernel,
    ⟨by decide +kernel, rfl, rfl, by decide +kernel, sorted_of (by decide +kernel)⟩, sorted_of (by decide +kernel), by decide +kernel⟩
  intro p hp
  have h : ([SSt.admitted, .parkedDeep, .condensed, .parkedFar].all fun p =>
      (let s := holds { sess p [] with ttl := 100 }
       rising s.ss.tbl && rising s.ss.cq && decide (s.timerFree 1 = true ∧ s.pinFull 1 = false ∧ (s.sess 1).st = p ∧ s.reg Dict.dtierSlateExpiry 0 5 = 0 ∧ s.stalled 5 = false))) = true := by decide +kernel
  have h := List.all_eq_true.mp h p hp
  simp only [Bool.and_eq_true] at h
  exact ⟨rfl, sorted_of h.1.1, sorted_of h.1.2, of_decide_eq_true h.2⟩

theorem test_deep_ttl : ok (.deepTtlExpire 2000000 1) (holds { sess .parkedDeep [] with ttl := 100 }) (fun u => decide ((u.sess 1).st = .moving ∧ (u.sess 1).target = 1)) = true := by decide +kernel
theorem test_far_ttl : ok (.farTtlExpire 2000000 1) (holds { sess .parkedFar [] with ttl := 100 }) (fun u => decide ((u.sess 1).ttl = 0 ∧ (u.cq 5).written = 1)) = true := by decide +kernel
theorem test_deadline_of_run : ok (.deadlineExpire 2000000 (.sess 1)) (holds { sess .decode [] with run := some (running 3 5), deadline := 99, generated := true }) (fun u => decide ((u.sess 1).st = .toolwait ∧ (u.sess 1).run = none)) = true := by
  decide +kernel
theorem test_park_pick : ok (.parkPickReached 2000000 1) (holds { sess .toolwait [] with ttl := 100 }) (fun u => decide ((u.sess 1).st = .moving)) = true := by decide +kernel
theorem test_park_pick_early : ok (.parkPickReached 2000000 1) (holds { sess .toolwait [] with ttl := 101 }) (fun u => decide ((u.sess 1).st = .toolwait)) = true := by decide +kernel
theorem test_budget_grace : ok (.budgetGraceExpire 2000000 1) (holds { sess .decode [] with run := some (running 3 5), bwait := 17 }) (fun u => decide ((u.sess 1).run = none ∧ (u.cq 5).written = 1)) = true := by decide +kernel
theorem test_lease_released : ok (.frameLeaseRelease 2000000 0 0 8) { hosting with tm := { hosting.tm with frames := [(frameKey 0 0 8, { own := 5, st := 2, bad := true })] } } (fun u => decide ((u.frame 0 0 8).st = 3)) = true := by
  decide +kernel
theorem test_frame_retired : ok (.frameTestComplete 2000000 0 1 8 [71]) { hosting with tm := { hosting.tm with frames := [(frameKey 0 1 8, { own := 5, st := 3 })] } } (fun u => decide ((u.frame 0 1 8).st = 4)) = true := by decide +kernel
theorem test_record_released : ok (.completionRecordRelease 2000000 5) { hosting with ss := { hosting.ss with cq := [(5, { held := [heldRec] })] } } (fun u => decide ((u.cq 5).held = [] ∧ (u.cq 5).written = 1)) = true := by decide +kernel

/-- Immediate commands of slot 1. -/
def immed (x : Sess) (op : Nat) : Sess := { x with imm := [cmd op 0] }

/-- A whole-session move of slot 1 to a target, whose last page has switched. -/
def arriving (target : Nat) : Sess := { sess .moving [] with run := some (running 4 0), reserved := true, target := target, prior := .toolwait, xst := 3 }

theorem meets_SessionsAnswerAndComplete :
    (∀ p ∈ [(SSt.toolwait, 0x09), (.closing, 0x0A), (.decode, 0x0A)],
      (let s := holds { immed (sess p.1 []) p.2 with run := if p.1 = .decode then some (running 3 5) else none }
       s.live = true ∧ Tbl.sorted s.ss.tbl ∧ Tbl.sorted s.ss.cq ∧ (s.sess 1).imm = cmd p.2 0 :: [] ∧ (cmd p.2 0).d.opcode = p.2 ∧ s.inStep 1 = false ∧ s.stalled 5 = false ∧ s.sv.held = false ∧ s.handlesOk 1 5 (cmd p.2 0) = true ∧
         (cmd p.2 0).d.count = 0 ∧ (s.sess 1).st ≠ .free ∧ (s.sess 1).st = p.1 ∧ s.pinFull 1 = false ∧ s.dx.out = [] ∧ s.ref 5 0 0 true = .region 7 0 0)) ∧
    (∀ target ∈ [0, 1, 2, 3],
      (let s := holds (arriving target)
       (s.sess 1).st = .moving ∧ (s.sess 1).reserved = true ∧ (∀ m ∈ s.tm.moves, m.k ≠ 1) ∧ (∀ e ∈ s.pw.drainExp, e.1 ≠ 1) ∧ s.pw.pkg ≠ .draining ∧ (s.sess 1).run = some (running 4 0) ∧ s.stalled 5 = false ∧ (s.sess 1).lost = false ∧
         (s.sess 1).target = target ∧ (s.sess 1).ring = [] ∧ (s.sess 1).imm = [] ∧ (s.sess 1).closePend = false ∧ s.movePlan 1 = [] ∧ (s.sess 1).xst = 3)) ∧
    (let s := holds { arriving 0 with lost := true }
     (s.sess 1).lost = true ∧ (s.sess 1).prior ≠ .free ∧ (s.sess 1).revivePend = false) ∧
    (∀ r ∈ [some (running 5 0), none],
      (let s := holds { sess .reviving [] with reserved := true, run := r, prior := .parkedDeep }
       (s.sess 1).st = .reviving ∧ (s.sess 1).reserved = true ∧ (s.sess 1).recompute = none ∧ s.inStep 1 = false ∧ (∀ m ∈ s.tm.moves, m.k ≠ 1) ∧ (s.sess 1).lost = false ∧ (s.sess 1).closePend = false ∧ (s.sess 1).run = r)) ∧
    (let s := holds { sess .closing [] with run := some (running 0x0A 0) }
     (s.sess 1).st = .closing ∧ (s.sess 1).ring = [] ∧ (s.sess 1).imm = [] ∧ (s.sess 1).run = some (running 0x0A 0)) ∧
    (∀ b ∈ [([97, 98] : Bytes), []], ∀ n ∈ [4, 1048575, 1048576],
      (let s := holds { sess .prefill [] with run := some { q := given 2 0 b, lastRec := 90 }, length := n }
       (s.sess 1).run = some { q := given 2 0 b, lastRec := 90 } ∧ s.vocabOf (s.model 2) = some (0, { dom := 5, v := vocab, chans := [0] }) ∧ (s.sess 1).st = .prefill)) ∧
    (tokenise vocab (decide (hosting.reg Dict.mtextSpecialMatch 0 2 = 1)) [97, 98]).length = 1 ∧ (tokenise vocab (decide (hosting.reg Dict.mtextSpecialMatch 0 2 = 1)) []) = [] := by
  refine ⟨?_, by decide +kernel, by decide +kernel, by decide +kernel, by decide +kernel, by decide +kernel, by decide +kernel, by decide +kernel⟩
  intro p hp
  have h : ([(SSt.toolwait, 0x09), (.closing, 0x0A), (.decode, 0x0A)].all fun p =>
      (let s := holds { immed (sess p.1 []) p.2 with run := if p.1 = .decode then some (running 3 5) else none }
       rising s.ss.tbl && rising s.ss.cq && decide ((s.sess 1).imm = cmd p.2 0 :: [] ∧ (cmd p.2 0).d.opcode = p.2 ∧ s.inStep 1 = false ∧ s.stalled 5 = false ∧ s.sv.held = false ∧ s.handlesOk 1 5 (cmd p.2 0) = true ∧
         (cmd p.2 0).d.count = 0 ∧ (s.sess 1).st ≠ .free ∧ (s.sess 1).st = p.1 ∧ s.pinFull 1 = false ∧ s.dx.out = [] ∧ s.ref 5 0 0 true = .region 7 0 0))) = true := by decide +kernel
  have h := List.all_eq_true.mp h p hp
  simp only [Bool.and_eq_true] at h
  exact ⟨rfl, sorted_of h.1.1, sorted_of h.1.2, of_decide_eq_true h.2⟩

theorem test_query : ok (.query 2000000 1) (holds (immed (sess .toolwait []) 9)) (fun u => decide ((u.sess 1).imm = [] ∧ (u.cq 5).written = 1)) = true := by decide +kernel
theorem test_query_bytes : ((holds { sess .toolwait [] with sver := 7 }).queryBytes 1) = [1, 1, 4, 0, 2, 3, 2, 0, 4, 0, 0, 0, 7, 0, 0, 0] ++ leBytes 24 0 ++ leBytes 8 90 := by
  decide +kernel
theorem test_close : ok (.close 2000000 1) (holds (immed (sess .toolwait []) 0x0A)) (fun u => decide ((u.sess 1).st = .closing)) = true := by decide +kernel
theorem test_move_to_deep : ok (.sessionMoveComplete 2000000 1) (holds (arriving 0)) (fun u => decide ((u.sess 1).st = .parkedDeep ∧ (u.sess 1).sver = 1 ∧ (u.cq 5).written = 1)) = true := by decide +kernel
theorem test_closed_slot_is_free : ok (.closingComplete 2000000 1) (holds { sess .closing [] with run := some (running 0x0A 0) }) (fun u => decide (u.sess 1 = { gen := 3 } ∧ (u.cq 5).written = 1)) = true := by decide +kernel
theorem test_tokenised : ok (.tokenisingComplete 2000000 1) (holds { sess .prefill [] with run := some { q := given 2 0 [97, 98], lastRec := 90 } })
    (fun u => decide ((u.sess 1).run.map (fun r => (r.toks.map (·.1), r.tokenised)) = some ([2], true))) = true := by decide +kernel
theorem test_tokenised_beyond : ok (.tokenisingComplete 2000000 1) (holds { sess .prefill [] with run := some { q := given 2 0 [97, 98], lastRec := 90 }, length := 1048576 }) (fun u => decide ((u.sess 1).run = none)) = true := by decide +kernel

/-! ## Pages, tiles and models -/

/-- A move of slot 1's page 0 to frame 3 of deep. -/
def move (why : Nat) : Move := { k := 1, lpn := 0, tier := 1, ch := 0, frame := 3, region := 0, why := why, started := true, slot := 6 }

/-- Slot 1 has a page with its list in near; channel 0's near water marks lie at n frames and above it. -/
def paged (st : SSt) (n : Nat) (moves : List Move) : State :=
  let s := ((holds { sess st [] with pages := [(0, { page 8 with moving := !moves.isEmpty }), (leafLpn 0, page 9), (rootLpn, page 10)] }).setReg Dict.tierNearLowWater n).setReg Dict.tierNearHighWater (n + 1)
  { s with tm := { s.tm with
      frames := [(frameKey 0 0 8, { own := 5, st := 1 }), (frameKey 0 0 9, { own := 5, st := 1 }), (frameKey 0 0 10, { own := 5, st := 1 }), (frameKey 0 1 3, { own := 5, st := 1 })], moves := moves } }

theorem meets_PagesMoveAndAreEvicted :
    (let s := paged .toolwait 3000000 []
     s.live = true ∧ Tbl.sorted s.ss.tbl ∧ Tbl.sorted s.tm.frames ∧ Tbl.sorted s.regs ∧ s.chOn 0 = true ∧ s.freeFrames 0 0 < s.sreg Dict.tierNearLowWater 0 0 ∧ s.pk.st ≠ .lost ∧ s.moverFull 0 = false ∧ (∀ e ∈ s.ss.tbl, e.2.st = .moving → e.2.reserved = true ∨ e.2.target ≠ 1) ∧ (∃ l p, s.victim 0 0 none = some (1, l, p)) ∧
       ∃ n w, s.takeFrame (s.sess 1).dom 0 1 = some (n, w)) ∧
    (let s := paged .toolwait 5 []; ¬(s.freeFrames 0 0 < s.sreg Dict.tierNearLowWater 0 0 ∨ (s.tm.evicting.contains 0 = true ∧ s.freeFrames 0 0 < s.sreg Dict.tierNearHighWater 0 0))) ∧
    (let s := hosting.setReg Dict.tierNearLowWater 3000000; s.freeFrames 0 0 < s.sreg Dict.tierNearLowWater 0 0 ∧ s.victim 0 0 none = none) ∧
    ({ base with fns := [] } : State).chOn 0 = false ∧
    (∀ w ∈ [0, 1, 3],
      (let s := paged .toolwait 5 [move w]
       Tbl.sorted s.tm.frames ∧ (s.tm.moves.find? fun m => m.k == 1 && m.lpn == 0 && m.started) = some (move w) ∧ (move w).io ≠ 1 ∧ (move w).io ≠ 3 ∧ (s.sess 1).page? 0 = some { page 8 with moving := true } ∧ s.stale { page 8 with moving := true } = false ∧
         (s.sess 1).st ≠ .moving ∧ (s.sess 1).st ≠ .reviving ∧ (s.frame 0 1 3).st = 1 ∧ (s.frame 0 0 8).st = 1)) ∧
    ((paged .toolwait 5 []).tm.moves.find? fun m => m.k == 1 && m.lpn == 0 && m.started) = none ∧
    (let m := { move 1 with io := 1 }; ((paged .toolwait 5 [m]).tm.moves.find? fun m => m.k == 1 && m.lpn == 0 && m.started) = some m ∧ m.io = 1) := by
  have h : (match (paged .toolwait 3000000 []).victim 0 0 none, (paged .toolwait 3000000 []).takeFrame ((paged .toolwait 3000000 []).sess 1).dom 0 1 with
      | some (1, _, _), some _ => true
      | _, _ => false) = true := by decide +kernel
  refine ⟨⟨rfl, sorted_of (by decide +kernel), sorted_of (by decide +kernel), sorted_of (by decide +kernel), by decide +kernel, by decide +kernel, by decide +kernel, by decide +kernel, by decide +kernel, ?_⟩, by decide +kernel, by decide +kernel, by decide +kernel, ?_, by decide +kernel, by decide +kernel⟩
  · split at h
    · rename_i l p r hv hf
      exact ⟨⟨l, p, hv⟩, r.1, r.2, hf⟩
    · exact absurd h (by decide)
  · intro w hw
    refine ⟨sorted_of_rising ?_, ?_⟩
    · revert w
      decide +kernel
    · revert w
      decide +kernel

theorem test_eviction : ok (.backgroundEviction 2000000 0 0) (paged .toolwait 3000000 []) (fun u => decide (u.tm.moves.map (fun m => (m.k, m.lpn, m.tier, m.why)) = [(1, 0, 1, 1)] ∧ u.tm.evicting = [0])) = true := by decide +kernel
theorem test_move_switch : ok (.pageMoveSwitch 2000000 1 0 (.ok 0)) (paged .toolwait 5 [move 1]) (fun u => decide (((u.sess 1).page? 0).map (fun p => (p.tier, p.frame, p.moving)) = some (1, 3, false) ∧ (u.frame 0 0 8).st = 0)) = true := by
  decide +kernel
theorem test_move_lost : ok (.pageMoveSwitch 2000000 1 0 .crcLost) (paged .toolwait 5 [move 1]) (fun u => decide (((u.sess 1).page? 0).map (·.poisoned) = some true ∧ (u.sess 1).lost = true ∧ u.tm.moves = [])) = true := by decide +kernel

/-- A model image of one channel: header, a pattern of footprint 1 with one byte of program and no route, a tensor, 64 bytes of weights. -/
def image : Bytes :=
  [1, 1, 0, 0] ++ leBytes 4 256 ++ leBytes 8 449 ++ leBytes 2 1 ++ leBytes 2 1 ++ leBytes 2 1 ++ leBytes 2 64 ++ leBytes 4 64 ++ leBytes 4 4 ++ leBytes 2 16 ++ [1, 1] ++ leBytes 2 64 ++ leBytes 2 4 ++ leBytes 4 1 ++ leBytes 4 1 ++
    leBytes 8 256 ++ leBytes 8 288 ++ leBytes 8 385 ++ leBytes 8 64 ++ beBytes 32 55 ++ beBytes 32 0 ++ List.replicate 112 0 ++
    (leBytes 8 320 ++ leBytes 8 65 ++ List.replicate 16 0) ++
    (leBytes 8 0 ++ leBytes 8 64 ++ [9, 0, 0, 0] ++ leBytes 4 0 ++ leBytes 4 10 ++ leBytes 4 10) ++
    ([1, 1, 0, 0, 1, 0, 1, 0] ++ leBytes 4 1 ++ leBytes 4 0 ++ List.replicate 48 0 ++ [7]) ++ List.replicate 64 0

/-- MODEL_LOAD into slot 3, REPLICATED. -/
def loading : QDesc := { ctl 0x40 3 with d := { desc 0x40 3 0 with dataLen := 449 } }

/-- The load into slot 3 that runs, its image checked. -/
def loadRun (good : Nat) : State :=
  let s := runs { id := 1, q := loading, since := 99, stage := 1, a := 4, b := good }
  { s with fb := { s.fb with models := [(2, model), (3, { model with st := 1, meas := 77, chans := [0, 1, 2, 3] })] } }

/-- Group 15 of channel 0 holds these patterns. -/
def pinnedIn (l : List Nat) : State := { hosting with fb := { hosting.fb with slots := [(15, l)] } }

theorem meets_FabricFollowsItsLoads :
    (hosting.live = true ∧ Tbl.sorted hosting.regs ∧ Tbl.sorted hosting.fb.slots ∧ Tbl.sorted hosting.fb.models) ∧ (hosting.groupOn 3 15 = true ∧ hosting.isFenced 3 255 = false) ∧
    (∀ p ∈ [(pinnedIn [65], pattern 0 false, true), (pinnedIn [65], pattern 1 true, true), (pinnedIn [65, 1, 2, 3, 4, 5, 6, 7], pattern 0 false, true), (pinnedIn [], pattern 0 false, false)],
      (p.1.groupOn 0 15 = true ∧ (p.1.model 2).st = 2 ∧ (p.1.model 2).chans.contains 0 = true ∧ (p.1.model 2).pats.find? (fun x => x.id == p.2.1.id) = some p.2.1) ∧ p.1.mayPlace p.2.1 (p.2.1.instAt 2 0 15) = p.2.2 ∧
        (p.2.1.instAt 2 0 15).groups = [15]) ∧
    (((pinnedIn [65, 1, 2, 3, 4, 5, 6, 7]).patSlots 0 15).reverse.find? fun k => !(pinnedIn [65, 1, 2, 3, 4, 5, 6, 7]).isPinned k && !((pinnedIn [65, 1, 2, 3, 4, 5, 6, 7]).runningOn 0 15).contains k) = some 7 ∧
    (let s := asked loading
     (s.at 5).Starts 5 0x40 loading [] ∧ s.ref 5 0 449 false = .region 7 0 0 ∧ s.holdsKeys 5 = true ∧ (s.model 3).st = 0 ∧ s.domChans 5 = [0, 1, 2, 3] ∧ (s.at 5).Brings 5 loading (some image) image ∧ modelImgOk (parseModel image) 0 4 = true ∧ (parseModel image).imgLen ≤ loading.d.dataLen ∧
       s.tx.vocabs.any (fun v => decide (v.2.v.digest = (parseModel image).vocabDigest) && decide (v.2.dom = 5) && decide (v.2.v.entries.length = (parseModel image).vocabEntries)) = true ∧ (∀ c ∈ s.domChans 5, modelImgFrames (parseModel image) 0 0 1 4 ≤ s.freeFrames c 0) ∧
       s.owned 5 0 + 4 * modelImgFrames (parseModel image) 0 0 1 4 ≤ s.tierCap 5 0 ∧ Tbl.sorted s.tm.frames ∧ ¬(s.reg Dict.dsecClass 0 5 = 2 ∧ (0 : Nat) ≠ 0)) ∧
    (∀ good ∈ [0, 1],
      (let s := loadRun good
       let r : DRun := { id := 1, q := loading, since := 99, stage := 1, a := 4, b := good }
       s.Runs 5 r ∧ ((s.dring 5).running.find? fun x => x.q.d.opcode == 0x40) = some r ∧ s.pinsFit 3 = true)) ∧
    (let s := asked (ctl 0x41 2)
     (s.at 5).Starts 5 0x41 (ctl 0x41 2) [] ∧ descBare (ctl 0x41 2).d = true ∧ (s.model 2).dom = 5 ∧ (s.model 2).st = 2 ∧
       ¬((∃ e ∈ s.ss.tbl, e.2.st ≠ .free ∧ e.2.model = 2 ∧ e.2.dom = 5) ∨ ∃ j < 16, (s.model j).st ≠ 0 ∧ s.reg Dict.mstepDraftSlot 0 j = 2)) ∧
    (let s := asked (ctl 0x41 16); (s.at 5).Starts 5 0x41 (ctl 0x41 16) []) := by
  refine ⟨⟨rfl, sorted_of (by decide +kernel), sorted_of (by decide +kernel), sorted_of (by decide +kernel)⟩, by decide +kernel, by decide +kernel, by decide +kernel,
    ⟨starts_of (by decide +kernel), by decide +kernel, by decide +kernel, by decide +kernel, by decide +kernel, brings_of (by decide +kernel), by decide +kernel, by decide +kernel, by decide +kernel, by decide +kernel, by decide +kernel,
      sorted_of (by decide +kernel), by decide +kernel⟩, ?_, ⟨starts_of (by decide +kernel), by decide +kernel⟩, starts_of (by decide +kernel)⟩
  intro good hg
  simp only [List.mem_cons, List.not_mem_nil, or_false] at hg
  rcases hg with rfl | rfl <;> exact ⟨runs_of (by decide +kernel), by decide +kernel⟩

theorem test_tile_fenced : ok (.tileError 2000000 3 255 []) hosting (fun u => decide (u.isFenced 3 255 = true ∧ u.isFenced 3 254 = false)) = true := by decide +kernel
theorem test_pattern_loaded : ok (.patternLoadComplete 2000000 0 15 2 0) (pinnedIn [65]) (fun u => decide (u.patSlots 0 15 = [64, 65] ∧ u.reg Dict.fabricPatternMissCount = 1)) = true := by decide +kernel
theorem test_load_begins : ok (.modelLoad 2000000 5 (.tables image)) (asked loading) (fun u => decide ((u.model 3).st = 1 ∧ (u.dring 5).running.map (fun r => (r.stage, r.a)) = [(1, 4)])) = true := by decide +kernel
theorem test_load_ready : ok (.modelLoad 2000000 5 .whole) (loadRun 1) (fun u => decide ((u.model 3).st = 2 ∧ (u.dring 5).running = [] ∧ (u.cq 5).written = 1)) = true := by decide +kernel
theorem test_unload : ok (.modelUnload 2000000 5) (asked (ctl 0x41 2)) (fun u => decide (u.model 2 = {} ∧ (u.cq 5).written = 1)) = true := by decide +kernel

/-! ## The serving step -/

/-- The step of pick 100, with these rows and chunks; slot 1 joined it. -/
def stepOf (rows : List Row) (chunks : List Chunk) : Serving := { pick := 100, start := 999000, rows := rows, chunks := chunks, qEmpty := true, joined := [1], groups := List.range 16 }

/-- That step runs, slot 1 holds x, and the model's pinned pattern is in group 0 of channel 0. -/
def stepping (x : Sess) (rows : List Row) (chunks : List Chunk) : State :=
  let s := holds x
  { s with sv := { s.sv with run := some (stepOf rows chunks), budgets := [(5, { bal := 10, reserved := 1 })] }, fb := { s.fb with slots := [(0, [65])] } }

/-- Slot 1's row of n proposals, and what its pass gives: for each of these tokens, logits that favour it. -/
def row (n : Nat) : Row := { k := 1, keff := n, r := 1 }
def logits (t : Nat) : List Nat := [0, 0, 0, 0].set t 0x43000000
def passed (ts : List Nat) : RowOut := { k := 1, target := ts.map logits, draft := ts.dropLast.map logits, late := false, hot := [], lost := [], kv := [], dkv := [] }

/-- Slot 1's GENERATE of at most n tokens into 64 bytes. -/
def generates (n : Nat) : Run := { q := { cmd 3 n with d := { desc 3 n handle1 with dataLen := 64 } }, lastRec := 90 }
def decoding (n : Nat) : Sess := { sess .decode [] with run := some (generates n), remaining := n, kvLen := 3, pages := [(0, page 8)] }

/-- Slot 1 names grammar 4, which is such a grammar. -/
def bound (x : Sess) : Sess := { x with grammar := 4, gstate := 0 }
def ruled (mask : Nat) (s : State) : State := { s with tx := { s.tx with grammars := [(5 * 1024 + 4, oneToken mask, [0])] } }

/-- Slot 1's APPEND, of which one token is still to be filled. -/
def filling : Run := { q := given 2 0 [97], toks := [(0, 1)], tokenised := true, lastRec := 90 }
/-- A chunk of slot 1 of one kind. -/
def chunk (kind n : Nat) : Chunk := { k := 1, pos := 3, n := n, kind := kind }

/-- Keys rise in the tables that a step's statement names, and the step runs. -/
def midStep (s : State) (v : Serving) : Bool :=
  decide (s.live = true ∧ (s.sv.owed = false ∧ s.pk.barrier = none ∧ s.pw.pkg ≠ .draining ∧ s.sv.run = some v) ∧ (rising s.ss.tbl = true ∧ rising s.ss.cq = true) ∧ rising s.sv.budgets = true ∧ rising s.regs = true)

theorem midStep_of {s : State} {v : Serving} (h : midStep s v = true) :
    s.live = true ∧ s.still ∧ s.sv.run = some v ∧ Tbl.sorted s.ss.tbl ∧ Tbl.sorted s.ss.cq ∧ Tbl.sorted s.sv.budgets ∧ Tbl.sorted s.regs :=
  let ⟨live, ⟨owed, barrier, drain, run⟩, ⟨tbl, cq⟩, budgets, regs⟩ := of_decide_eq_true h
  ⟨live, ⟨owed, barrier, drain⟩, run, sorted_of_rising tbl, sorted_of_rising cq, sorted_of_rising budgets, sorted_of_rising regs⟩

theorem meets_DecodeRowsCommit :
    (∀ s ∈ [stepping (decoding 5) [row 0] [], stepping (decoding 1) [{ row 0 with retake := true }] [], stepping { decoding 1 with st := .moving } [row 0] [], ruled 15 (stepping (bound (decoding 5)) [row 1] []),
        ruled 0 (stepping (bound (decoding 5)) [row 1] []), stepping (decoding 1) [row 1] []],
      ∃ v, s.live = true ∧ s.still ∧ s.sv.run = some v ∧ Tbl.sorted s.ss.tbl ∧ Tbl.sorted s.ss.cq ∧ Tbl.sorted s.sv.budgets ∧ Tbl.sorted s.regs) ∧
    (∀ s ∈ [stepping (decoding 5) [row 0] [], ruled 15 (stepping (bound (decoding 5)) [row 1] []), ruled 0 (stepping (bound (decoding 5)) [row 1] []), stepping (decoding 1) [row 1] []],
      (s.sess 1).run.isSome = true ∧ s.stalled 5 = false ∧ (s.sess 1).st = .decode ∧ (s.sess 1).lost = false ∧ (s.sess 1).page? 0 = some (page 8) ∧ s.vocabOf (s.model 2) = some (0, { dom := 5, v := vocab, chans := [0] })) ∧
    (ruled 0 (stepping (bound (decoding 5)) [row 1] [])).gpos 1 = { g := some (oneToken 0), eos := [3], w := 0, stack := [] } ∧
    ((ruled 0 (stepping (bound (decoding 5)) [row 1] [])).gpos 1).alive = false ∧ ((ruled 15 (stepping (bound (decoding 5)) [row 1] [])).gpos 1).alive = true ∧ ((ruled 15 (stepping (bound (decoding 5)) [row 1] [])).gpos 1).g ≠ none ∧
    ((stepping (decoding 5) [row 0] []).gpos 1).alive = true ∧ ((stepping (decoding 5) [row 0] []).gpos 1).g = none := by
  refine ⟨?_, by decide +kernel, by decide +kernel, by decide +kernel, by decide +kernel, by decide +kernel, by decide +kernel, by decide +kernel⟩
  intro s hs
  have h : ([stepping (decoding 5) [row 0] [], stepping (decoding 1) [{ row 0 with retake := true }] [], stepping { decoding 1 with st := .moving } [row 0] [], ruled 15 (stepping (bound (decoding 5)) [row 1] []),
      ruled 0 (stepping (bound (decoding 5)) [row 1] []), stepping (decoding 1) [row 1] []].all fun s => match s.sv.run with
        | some v => midStep s v
        | none => false) = true := by decide +kernel
  have h := List.all_eq_true.mp h s hs
  split at h
  · exact ⟨_, midStep_of h⟩
  · exact absurd h (by decide)

/-- Slot 1's APPEND is being filled, in a step with no row. -/
def fills : State := stepping { sess .prefill [] with run := some filling } [] []

theorem meets_MasksCompleteAndChunksStart :
    (∀ p ∈ [(15, 1), (15, 2), (0, 1)],
      (let s := ruled p.1 (stepping (bound (decoding 5)) [row 1] [])
       midStep s (stepOf [row 1] []) = true ∧ (stepOf [row 1] []).rows.find? (fun y => y.k == 1) = some (row 1) ∧ (s.gpos 1).g ≠ none ∧ 1 ≤ p.2 ∧ p.2 ≤ (row 1).keff + 1 ∧ (s.sess 1).masks = [] ∧
         (s.gpos 1).alive = decide (p.1 = 15) ∧ (s.sess 1).run = some (generates 5) ∧ s.stalled (generates 5).q.dom = false)) ∧
    midStep fills (stepOf [] []) = true ∧ fills.chunkKind 1 = some 0 ∧ (fills.at 5).chunkMay (stepOf [] []) 1 = true ∧ (fills.at 5).beforeCutoff (stepOf [] []) 0 = true ∧ (fills.at 4000000).beforeCutoff (stepOf [] []) 0 = false ∧
    ((fills.at 5).chunkQueue (stepOf [] [])).find? (fun j => decide (chOf j = chOf 1)) = some 1 ∧ fills.mustPromote 1 ((fills.at 5).chunkPlan 1 0).2.2 = [] ∧ (fills.sess 1).pages = [] ∧
    ((fills.at 5).stageAll 1 ((fills.at 5).chunkPlan 1 0).2.2).isSome = true ∧ ({ fills with sv := { fills.sv with held := true } } : State).chunkMay (stepOf [] []) 1 = false := by decide +kernel

theorem meets_PrefillChunksCommit :
    (∀ p ∈ [(0, false), (0, true), (3, false)],
      (let c := { chunk p.1 1 with bad := p.2 }
       let s := stepping { sess .prefill [] with run := some filling, pages := [(0, page 8)] } [] [c]
       midStep s (stepOf [] [c]) = true ∧ (stepOf [] [c]).chunks.find? (fun y => y.k == 1) = some c ∧ (s.sess 1).serving = true ∧ (s.sess 1).run = some filling ∧ s.stalled filling.q.dom = false ∧ (s.sess 1).lost = false ∧
         (s.sess 1).page? 0 = some (page 8) ∧ filling.toks.drop 1 = [])) ∧
    (∀ p ∈ [(1, SSt.reviving), (2, .decode)],
      (let s := stepping { sess p.2 [] with recompute := some 3, recompTo := 4 } [] [chunk p.1 1]
       midStep s (stepOf [] [chunk p.1 1]) = true ∧ (stepOf [] [chunk p.1 1]).chunks.find? (fun y => y.k == 1) = some (chunk p.1 1) ∧ (s.sess 1).st = p.2 ∧ (s.sess 1).lost = false)) := by decide +kernel

theorem test_token_commits : ok (.decodePhaseCommit 2000000 { rows := [passed [2]] }) (stepping (decoding 5) [row 0] []) (fun u => decide ((u.sess 1).tokens = [0, 1, 2, 0, 2] ∧ (u.sess 1).charged = 1 ∧ (u.sess 1).remaining = 4)) = true := by
  decide +kernel
theorem test_proposals_commit : ok (.decodePhaseCommit 2000000 { rows := [passed [2, 1]] }) (stepping (decoding 5) [row 1] []) (fun u => decide ((u.sess 1).tokens = [0, 1, 2, 0, 2, 1] ∧ (u.sess 1).st = .decode)) = true := by decide +kernel
theorem test_dead_end : ok (.decodePhaseCommit 2000000 { rows := [passed [2, 2]] }) (ruled 15 (stepping (bound (decoding 5)) [row 1] [])) (fun u => decide ((u.sess 1).tokens = [0, 1, 2, 0, 2] ∧ (u.sess 1).st = .halted)) = true := by decide +kernel
theorem test_last_token : ok (.decodePhaseCommit 2000000 { rows := [passed [2]] }) (stepping (decoding 1) [row 0] []) (fun u => decide ((u.sess 1).run = none ∧ (u.cq 5).written = 1)) = true := by decide +kernel
theorem test_end_of_sequence : ok (.decodePhaseCommit 2000000 { rows := [passed [3]] }) (stepping (decoding 5) [row 0] []) (fun u => decide ((u.sess 1).run = none ∧ (u.cq 5).written = 1)) = true := by decide +kernel
theorem test_page_lost : ok (.decodePhaseCommit 2000000 { rows := [{ passed [2] with lost := [0] }] }) (stepping (decoding 5) [row 0] []) (fun u => decide ((u.sess 1).st = .halted ∧ (u.sess 1).length = 4)) = true := by decide +kernel
theorem test_mask : ok (.maskComplete 2000000 1 2) (ruled 15 (stepping (bound (decoding 5)) [row 1] [])) (fun u => decide ((u.sess 1).masks = [2])) = true := by decide +kernel
theorem test_mask_dead : ok (.maskComplete 2000000 1 1) (ruled 0 (stepping (bound (decoding 5)) [row 1] [])) (fun u => decide ((u.sess 1).st = .halted)) = true := by decide +kernel
theorem test_chunk_starts : ok (.prefillChunkStart 5 1) (stepping { sess .prefill [] with run := some filling } [] []) (fun u => decide (u.sv.run.map (fun v => v.chunks.map (fun c => (c.k, c.pos, c.n, c.kind))) = some [(1, 4, 1, 0)])) = true := by
  decide +kernel
theorem test_chunk_commits : ok (.prefillChunkCommit 5 1 [[[1]]] {}) (stepping { sess .prefill [] with run := some filling } [] [chunk 0 1]) (fun u => decide ((u.sess 1).tokens = [0, 1, 2, 0, 0] ∧ (u.sess 1).run = none ∧ (u.sess 1).kvLen = 5)) = true := by
  decide +kernel

/-! ## Definitions and images -/

/-- Greedy decoding; the stop string a; and a grammar of one state that permits tokens 0 and 1 and returns to itself. -/
def greedyBytes : Bytes := [1, 1, 0, 0] ++ leBytes 4 0x3F800000 ++ leBytes 4 0x3F800000 ++ leBytes 4 0 ++ leBytes 2 0 ++ leBytes 2 0 ++ leBytes 4 0x3F800000 ++ List.replicate 40 0
def stopBytes : Bytes := [1, 1, 0, 1, 0, 0, 0, 0] ++ [1, 0, 0, 0, 0, 0, 0, 0] ++ 97 :: List.replicate 63 0
def grammarHead : Bytes :=
  [1, 1, 0, 0] ++ leBytes 4 192 ++ leBytes 8 336 ++ beBytes 32 55 ++ leBytes 4 4 ++ leBytes 4 1 ++ leBytes 4 0 ++ leBytes 2 1 ++ [1, 0] ++ leBytes 4 1 ++ leBytes 4 1 ++ leBytes 4 0 ++ leBytes 4 2 ++ leBytes 8 192 ++ leBytes 8 216 ++
    leBytes 8 280 ++ leBytes 8 0 ++ leBytes 8 320 ++ leBytes 8 0
def grammarBody : Bytes := List.replicate 16 0 ++ leBytes 4 2 ++ leBytes 4 0 ++ leBytes 64 3 ++ List.replicate 40 0 ++ leBytes 4 0 ++ leBytes 4 0 ++ leBytes 4 1 ++ leBytes 4 0
def grammarBytes : Bytes := grammarHead ++ (beBytes 32 (Config.shake256 grammarBody 32) ++ (List.replicate 32 0 ++ grammarBody))

theorem beNat_beBytes (n v : Nat) : beNat (beBytes n v) = v % 256 ^ n := by
  induction n with
  | zero => simp [beBytes, beNat, Nat.mod_one]
  | succ n ih =>
    have h := beNat_append [v / 256 ^ n % 256] (beBytes n v)
    have hl : ∀ n, (beBytes n v).length = n := fun n => by induction n <;> simp_all [beBytes]
    rw [beBytes, show v / 256 ^ n % 256 :: beBytes n v = [v / 256 ^ n % 256] ++ beBytes n v from rfl, h, ih, hl]
    rw [show beNat [v / 256 ^ n % 256] = v / 256 ^ n % 256 by simp [beNat], Nat.pow_succ, Nat.mod_mul]
    ring

theorem beBytes_length (n v : Nat) : (beBytes n v).length = n := by induction n <;> simp_all [beBytes]

/-- An image's digest, read where the image holds it. -/
theorem digest_read (a b c : Bytes) (o : Nat) (h : a.length = o) : be (a ++ (beBytes 32 (Config.shake256 b 32) ++ c)) o 32 = Config.shake256 b 32 := by
  unfold be
  rw [← h, List.drop_left, List.take_left' (beBytes_length 32 _), beNat_beBytes, Config.shake256, Nat.mod_mod]

theorem grammarBytes_digest : Config.shake256 (grammarBytes.drop 192) 32 = be grammarBytes 128 32 := by
  rw [show grammarBytes.drop 192 = grammarBody by decide +kernel]
  exact (digest_read grammarHead grammarBody (List.replicate 32 0 ++ grammarBody) 128 (by decide +kernel)).symm

theorem grammarBytes_ok : grammarOk grammarBytes 4 = true := by
  unfold grammarOk
  simp only [Bool.and_eq_true]
  repeat' apply And.intro
  all_goals first
    | decide +kernel
    | exact decide_eq_true grammarBytes_digest

/-- A vocabulary image: the 256 bytes and one end token. -/
def vocabHead : Bytes :=
  [1, 1, 0, 0] ++ leBytes 4 256 ++ leBytes 8 2568 ++ leBytes 4 257 ++ leBytes 4 0 ++ [0, 0, 0, 0] ++ leBytes 4 0 ++ [1, 0, 0, 0] ++ leBytes 4 256 ++ List.replicate 12 255 ++ List.replicate 4 0 ++ leBytes 8 256 ++ leBytes 8 2312 ++
    List.replicate 40 0
def vocabBody : Bytes := ((List.range 256).flatMap fun i => [i, 0, 0, 0, 1, 0, 0, 0]) ++ ([0, 0, 0, 0, 1, 0, 1, 0] ++ List.range 256)
def vocabBytes : Bytes := vocabHead ++ (beBytes 32 (Config.shake256 vocabBody 32) ++ (List.replicate 112 0 ++ vocabBody))

theorem vocabBytes_digest : Config.shake256 (vocabBytes.drop 256) 32 = be vocabBytes 112 32 := by
  rw [show vocabBytes.drop 256 = vocabBody by decide +kernel]
  exact (digest_read vocabHead vocabBody (List.replicate 112 0 ++ vocabBody) 112 (by decide +kernel)).symm

/-- A table of 8-byte items, read at an item. -/
theorem drop_items {f : Nat → Bytes} (hf : ∀ i, (f i).length = 8) (rest : Bytes) : ∀ (l : List Nat) (i x : Nat), l[i]? = some x → ∃ tail, (l.flatMap f ++ rest).drop (8 * i) = f x ++ tail
  | [], _, _, h => by simp at h
  | y :: l, 0, x, h => by
    simp at h
    exact ⟨l.flatMap f ++ rest, by simp [h]⟩
  | y :: l, i + 1, x, h => by
    obtain ⟨tail, ht⟩ := drop_items hf rest l i x (by simpa using h)
    refine ⟨tail, ?_⟩
    rw [← ht, List.flatMap_cons, List.append_assoc, List.drop_append, hf, List.drop_of_length_le (by rw [hf]; omega), List.nil_append]
    congr 1

def vocabItem (i : Nat) : Bytes := [i, 0, 0, 0, 1, 0, 0, 0]

theorem vocabBytes_item {i : Nat} (h : i < 256) : ∃ tail, vocabBytes.drop (256 + 8 * i) = vocabItem i ++ tail := by
  obtain ⟨tail, ht⟩ := drop_items (f := vocabItem) (fun _ => rfl) ([0, 0, 0, 0, 1, 0, 1, 0] ++ List.range 256) (List.range 256) i i (by simp [h])
  refine ⟨tail, ?_⟩
  rw [← ht, ← List.drop_drop]
  congr 1

theorem vocabBytes_text {i : Nat} (h : i < 256) : (vocabBytes.drop (2312 + i)).take 1 = [i] := by
  rw [← List.drop_drop, show vocabBytes.drop 2312 = List.range 256 by decide +kernel]
  revert i
  decide +kernel

theorem vocabBytes_le {i : Nat} (h : i < 256) : le vocabBytes (256 + 8 * i) 4 = i ∧ le vocabBytes (256 + 8 * i + 4) 2 = 1 ∧ le vocabBytes (256 + 8 * i + 6) 1 = 0 ∧ zeroAt vocabBytes (256 + 8 * i + 7) 1 = true := by
  obtain ⟨tail, ht⟩ := vocabBytes_item h
  unfold le zeroAt
  rw [← List.drop_drop (i := 4) (j := 256 + 8 * i), ← List.drop_drop (i := 6) (j := 256 + 8 * i), ← List.drop_drop (i := 7) (j := 256 + 8 * i), ht]
  simp [vocabItem, leNat]
  omega

theorem vocabBytes_head : le vocabBytes 16 4 = 257 ∧ le vocabBytes 56 8 = 256 ∧ le vocabBytes 64 8 = 2312 ∧ le vocabBytes 28 4 = 0 ∧ vocabBytes.length = 2568 := by decide +kernel

theorem vocabBytes_entry {i : Nat} (h : i < 256) : (parseVocab vocabBytes).entries.getD i ([], 0) = ([i], 0) := by
  obtain ⟨h1, h2, h3, _⟩ := vocabBytes_head
  obtain ⟨e1, e2, e3, _⟩ := vocabBytes_le h
  have e : (parseVocab vocabBytes).entries = (List.range 257).map fun i => ((vocabBytes.drop (2312 + le vocabBytes (256 + 8 * i) 4)).take (le vocabBytes (256 + 8 * i + 4) 2), le vocabBytes (256 + 8 * i + 6) 1) := by
    rw [← h1, ← h2, ← h3]
    rfl
  rw [e, List.getD_eq_getElem?_getD, List.getElem?_map, List.getElem?_range (by omega)]
  simp only [Option.map_some, Option.getD_some, e1, e2, e3, vocabBytes_text h]

theorem vocabBytes_ok : vocabOk vocabBytes = true := by
  obtain ⟨h1, h2, h3, h4, h5⟩ := vocabBytes_head
  unfold vocabOk
  simp only [Bool.and_eq_true]
  repeat' apply And.intro
  case left.left.left.left.left.left.left.left.left.left.left.right =>
    exact decide_eq_true vocabBytes_digest
  case left.left.left.left.left.left.left.left.left.left.right =>
    rw [h1, h2, h3, h5, List.all_eq_true]
    intro i hi
    rcases Nat.lt_or_eq_of_le (Nat.le_of_lt_succ (List.mem_range.mp hi)) with hi | rfl
    · obtain ⟨e1, e2, e3, e4⟩ := vocabBytes_le hi
      rw [e1, e2, e3, e4]
      simp
      exact ⟨⟨by decide, by omega⟩, by decide⟩
    · decide +kernel
  case left.left.left.left.left.left.left.left.right =>
    rw [List.all_eq_true]
    intro i hi
    have hb : (parseVocab vocabBytes).base = 0 := h4
    rw [hb, Nat.zero_add, vocabBytes_entry (List.mem_range.mp hi)]
    simp
    decide
  all_goals decide +kernel

/-- The handles 1 of domain 5 are defined and slot 1 names them all; or not. -/
def defined (s : State) : State :=
  { s with tx := { s.tx with profs := [(5 * 1024 + 1, greedy)], stops := [(5 * 1024 + 1, { keep := true, strs := [[98]] })], grammars := [(5 * 1024 + 1, oneToken 15, [0])] } }
def naming (st : SSt) (s : State) : State := { s with ss := { s.ss with tbl := [(1, { sess st [] with sampling := 1, stop := 1, grammar := 1 })] } }

theorem meets_DefinitionsTakeTheirHandles :
    (∀ p ∈ [(0x45, 1, greedyBytes), (0x45, 1023, greedyBytes), (0x45, 1024, greedyBytes), (0x45, 1, stopBytes), (0x44, 1, stopBytes), (0x44, 1023, stopBytes), (0x44, 0, stopBytes), (0x44, 1, greedyBytes), (0x43, 1, grammarBytes),
        (0x43, 1023, grammarBytes), (0x42, 15, grammarBytes), (0x42, 15, vocabBytes), (0x42, 16, stopBytes)],
      (let q := defines p.1 p.2.1 p.2.2.length
       ∀ f ∈ [id, defined, fun s => naming .toolwait (defined s)], ((f (asked q)).at 5).Starts 5 p.1 q [] ∧ ((f (asked q)).at 5).Brings 5 q (some p.2.2) p.2.2)) ∧
    (∀ p ∈ [0x45, 0x44, 0x43, 0x42],
      (let q := defines p 1 0
       ∀ f ∈ [id, defined, fun s => naming .toolwait (defined s)], ((f (asked q)).at 5).Starts 5 p q [] ∧ ((f (asked q)).at 5).Brings 5 q none [])) ∧
    parseProfile greedyBytes = some greedy ∧ parseProfile stopBytes = none ∧ parseStopSet stopBytes = some { keep := false, strs := [[97]] } ∧ parseStopSet greedyBytes = none ∧
    (hosting.holdsKeys 5 = true ∧ hosting.holdsKeys 6 = false) ∧
    (parseGrammar grammarBytes).vocab = 55 ∧ (hosting.tx.vocabs.find? fun e => decide (e.2.dom = 5) && decide (e.2.v.digest = 55)) = some (0, { dom := 5, v := vocab, chans := [0] }) ∧
    grammarOk grammarBytes vocab.entries.length = true ∧ grammarOk greedyBytes vocab.entries.length = false ∧ hosting.reserveFits (hosting.domChans 5) grammarBytes.length = true ∧
    hosting.reserveFits [0] (2 ^ 40) = false ∧ vocabOk grammarBytes = false ∧ vocabOk vocabBytes = true ∧ (∀ e ∈ hosting.tx.vocabs, e.1 ≠ 15) := by
  refine ⟨?_, ?_, by decide +kernel, by decide +kernel, by decide +kernel, by decide +kernel, by decide +kernel, by decide +kernel, by decide +kernel, grammarBytes_ok, by decide +kernel, by decide +kernel, by decide +kernel, by decide +kernel, vocabBytes_ok, by decide +kernel⟩
  · intro p hp
    simp only [List.mem_cons, List.not_mem_nil, or_false] at hp
    rcases hp with rfl | rfl | rfl | rfl | rfl | rfl | rfl | rfl | rfl | rfl | rfl | rfl | rfl <;>
      (intro q f hf
       simp only [List.mem_cons, List.not_mem_nil, or_false] at hf
       rcases hf with rfl | rfl | rfl <;> exact ⟨starts_of (by decide +kernel), brings_of (by decide +kernel)⟩)
  · intro p hp
    simp only [List.mem_cons, List.not_mem_nil, or_false] at hp
    rcases hp with rfl | rfl | rfl | rfl <;>
      (intro q f hf
       simp only [List.mem_cons, List.not_mem_nil, or_false] at hf
       rcases hf with rfl | rfl | rfl <;> exact ⟨starts_of (by decide +kernel), .inl ⟨rfl, rfl⟩⟩)

theorem test_profile : ok (.samplingDefine 5 5 (some greedyBytes)) (asked (defines 0x45 1023 64)) (fun u => decide (u.tx.profs = [(5 * 1024 + 1023, greedy)] ∧ (u.cq 5).written = 1)) = true := by decide +kernel
theorem test_profile_replaced : ok (.samplingDefine 5 5 (some greedyBytes)) (defined (asked (defines 0x45 1 64))) (fun u => decide (u.tx.newP = [(5 * 1024 + 1, greedy)])) = true := by decide +kernel
theorem test_stop_set : ok (.stopsetDefine 5 5 (some stopBytes)) (asked (defines 0x44 1 80)) (fun u => decide (u.tx.stops = [(5 * 1024 + 1, { keep := false, strs := [[97]] })])) = true := by decide +kernel
theorem test_stop_set_named : ok (.stopsetDefine 5 5 none) (naming .toolwait (defined (asked (defines 0x44 1 0)))) (fun u => decide (u.tx.stops.length = 1 ∧ (u.cq 5).written = 1)) = true := by decide +kernel
theorem test_grammar_dropped : ok (.grammarLoad 5 5 none) (defined (asked (defines 0x43 1 0))) (fun u => decide (u.tx.grammars = [])) = true := by decide +kernel
theorem test_vocab_dropped : ok (.vocabLoad 5 5 none) (let s := asked (defines 0x42 0 0); { s with fb := { s.fb with models := [] } }) (fun u => decide (u.tx.vocabs = [])) = true := by decide +kernel

/-! ## Selections -/

/-- Command 1 of domain 5 runs, its next row in lane 0. -/
def laned (r : DRun) : State := { runs r with se := { hosting.se with lanes := [{ c := 0, d := 5, id := 1, row := r.a }] } }

theorem meets_SelectionsRunRowByRow :
    (∀ p ∈ [(2, none), (13, none), (14, none), (1, some 0), (1, some 1)],
      (let q := selects p.1 p.2
       ∀ f ∈ [id, class2, auxOff], ((f (asked q)).at 5).Starts 5 0x50 q [] ∧ ((f (asked q)).at 5).Brings 5 q (some (topk p.2)) (topk p.2))) ∧
    (∀ p ∈ [(2, none, true), (13, none, true), (14, none, false), (1, some 0, true), (1, some 1, true)], descBare (selects p.1 p.2.1).d = true ∧ reqOk (topk p.2.1) p.1 = p.2.2 ∧ stageFrames (topk p.2.1) = 0) ∧
    (hosting.selChans 5 = [0, 1, 2, 3] ∧ (auxOff hosting).selChans 5 = [] ∧ (runEntry (topk (some 0)) 0).1 = hosting.device ∧ (runEntry (topk (some 1)) 0).1 ≠ hosting.device ∧ le (topk (some 1)) 20 2 = 1 ∧
      (class2 hosting).reg Dict.dsecClass 0 5 = 2 ∧ (class2 hosting).usableSets 1 (some 5) = []) ∧
    (∀ r ∈ [selRun 2 0 none, selRun 2 1 none, selRun 13 12 none, selRun 1 0 (some 0), lateRun (selRun 2 0 none)], ∀ f ∈ [id, auxOff, drained, lostPick],
      (f (laned r)).Runs 5 r ∧ Tbl.sorted (f (laned r)).sl.flows ∧ Tbl.sorted (f (laned r)).regs ∧
      ((f (laned r)).se.lanes.find? fun l => l.d == 5 && l.id == r.id && l.row == r.a) = some { c := 0, d := 5, id := 1, row := r.a }) ∧
    (∀ p ∈ [(selRun 2 0 none, rowData, false), (selRun 2 1 none, nans, true)],
      ((laned p.1).rowResult 5 1 p.1.q.input p.2.1).map (fun x => (x.1.fewer, x.2)) = some (p.2.2, false) ∧ (laned p.1).flowReady (le p.1.q.input 48 2) = true) ∧
    ((laned (selRun 2 0 none)).isLate 0 = false ∧ (runs (selRun 2 0 none)).isLate 99 = true ∧ (lostPick hosting).pk.st = .lost ∧ (drained hosting).ck.drain = true) ∧
    (∀ f ∈ [id, auxOff], (inWarp (f hosting)).Arrives (from1 4 0) true ∧ Tbl.sorted (inWarp (f hosting)).regs) ∧
    ((inWarp hosting).selChans 5 = [0, 1, 2, 3] ∧ (inWarp (auxOff hosting)).selChans 5 = []) ∧
    (let s := runs (selRun 1 0 (some 1))
     let s : State := { s with se := { s.se with subs := [subReq] } }
     (inWarp s).Arrives (from1 4 0) true ∧ (inWarp s).se.subs.find? (fun u => u.dev == 1 && u.slot == 4 && u.res.isNone) = some subReq ∧ (inWarp s).drun 5 1 = some (selRun 1 0 (some 1)) ∧ (selRun 1 0 (some 1)).stage = 1 ∧ (selRun 1 0 (some 1)).q.inSt ≠ 4 ∧ Tbl.sorted s.fb.track) := by
  refine ⟨?_, by decide +kernel, by decide +kernel, ?_, by decide +kernel, by decide +kernel, ?_, by decide +kernel, arrives_of true (by decide +kernel), by decide +kernel, by decide +kernel, rfl, by decide, sorted_of (by decide +kernel)⟩
  · intro p hp
    simp only [List.mem_cons, List.not_mem_nil, or_false] at hp
    rcases hp with rfl | rfl | rfl | rfl | rfl <;>
      (intro q f hf
       simp only [List.mem_cons, List.not_mem_nil, or_false] at hf
       rcases hf with rfl | rfl | rfl <;> exact ⟨starts_of (by decide +kernel), brings_of (by decide +kernel)⟩)
  · intro r hr
    simp only [List.mem_cons, List.not_mem_nil, or_false] at hr
    rcases hr with rfl | rfl | rfl | rfl | rfl <;>
      (intro f hf
       simp only [List.mem_cons, List.not_mem_nil, or_false] at hf
       rcases hf with rfl | rfl | rfl | rfl <;> exact ⟨runs_of (by decide +kernel), sorted_of (by decide +kernel), sorted_of (by decide +kernel), by decide +kernel⟩)
  · intro f hf
    simp only [List.mem_cons, List.not_mem_nil, or_false] at hf
    rcases hf with rfl | rfl <;> exact ⟨arrives_of true (by decide +kernel), sorted_of (by decide +kernel)⟩

theorem test_select_begins : ok (.select 5 5 (some (topk none))) (asked (selects 2 none)) (fun u => decide ((u.dring 5).running.map (fun r => (r.id, r.stage)) = [(1, 1)])) = true := by decide +kernel
theorem test_select_too_many : ok (.select 5 5 (some (topk none))) (asked (selects 14 none)) (fun u => decide ((u.dring 5).running = [] ∧ (u.cq 5).written = 1)) = true := by decide +kernel
theorem test_select_row : ok (.selectRowComplete 5 5 1 0 10 (some rowData)) (laned (selRun 2 0 none)) (fun u => decide ((u.drun 5 1).map (fun r => (r.a, r.rows)) = some (1, [[0, 0]]))) = true := by decide +kernel
theorem test_row_bytes : (select (reqOf (topk none)) (rowElems (topk none) (rowData.headD []))).out = [(1, 0x40000000)] := by decide +kernel

/-! ## Collections -/

/-- The create record of a collection of one dimension and two lists, for 4 records. -/
def createBytes : Bytes := [1, 1, 0, 0] ++ leBytes 2 1 ++ [0, 0] ++ leBytes 4 2 ++ leBytes 4 4 ++ List.replicate 48 0 ++ leBytes 4 0x3F800000 ++ leBytes 4 0 ++ leBytes 4 0 ++ leBytes 4 0x40000000
def collData : CollData := { dist := 0, mask := 0, dim := 1, lists := 2, capacity := 4, scales := [0x3F800000], offs := [0], cents := [(0, [0]), (0x40800000, [2])] }

/-- Collection 4095 of domain 5, with these records. -/
def coll (rs : List VRec) : Coll := { st := 1, dom := 5, chans := [0], data := { collData with recs := rs } }
def collected (rs : List VRec) (s : State) : State := { s with se := { s.se with colls := [(4095, coll rs)] } }
def vrec (id list died : Nat) : VRec := { id := id, list := list, tags := 1, born := 50, died := died, norm := 0x40800000, codes := [2] }

/-- VEC_INSERT's record of one item into a list, VEC_DELETE's of two identifiers, VEC_SEARCH's of one query with k = 1. -/
def insertBytes (id list : Nat) : Bytes := [1, 1, 255, 15, 1] ++ List.replicate 59 0 ++ leBytes 4 id ++ leBytes 4 list ++ leBytes 8 1 ++ leBytes 4 0x40000000 ++ List.replicate 44 0
def deleteBytes (a b : Nat) : Bytes := [1, 1, 255, 15] ++ List.replicate 60 0 ++ leBytes 4 a ++ leBytes 4 b
def searchBytes (nprobe : Nat) : Bytes :=
  [1, 1, 255, 15, 1, 0] ++ leBytes 2 7 ++ leBytes 4 3 ++ leBytes 4 0 ++ leBytes 8 4096 ++ leBytes 8 1000 ++ List.replicate 32 0 ++ (leBytes 2 1 ++ [0, 0] ++ leBytes 4 nprobe ++ leBytes 4 0 ++ leBytes 4 0 ++ List.replicate 48 0) ++
    (leBytes 4 0x40000000 ++ List.replicate 60 0)

/-- A query of command 1, before it is ranked and while list 1 is read. -/
def query : Query := { d := 5, id := 1, idx := 0, coll := 4095, start := 99, k := 1, nprobe := 1, limit := 1, widen := true, require := 0, exclude := 0, any := 0, q := [0x40000000] }
def querying (n : Nat) : Query := { query with nprobe := n, limit := n, rank := some [1, 0], wait := [1, 0].take n, rounds := 1 }
def searchRun (n : Nat) : DRun := { id := 1, q := { defines 0x4B n 192 with input := searchBytes 1 }, since := 99 }
def searching (q : Query) (n : Nat) : State := let s := collected [vrec 9 1 0] (runs (searchRun n)); { s with se := { s.se with queries := [q] } }

theorem meets_CollectionsHoldAndAnswer :
    (∀ p ∈ [(0x48, 0, createBytes), (0x48, 4095, createBytes), (0x48, 4096, createBytes), (0x48, 0, topk none), (0x49, 1, insertBytes 3 1), (0x49, 1, insertBytes 3 2), (0x49, 1, insertBytes 3 0xFFFFFFFF), (0x49, 1, insertBytes 0xFFFFFFFF 1),
        (0x4A, 2, deleteBytes 9 1), (0x4B, 1, searchBytes 1), (0x4B, 1, searchBytes 2), (0x4B, 1, searchBytes 3), (0x49, 2, insertBytes 3 1)],
      (let q := defines p.1 p.2.1 p.2.2.length
       ∀ f ∈ [id, collected [vrec 9 1 0], class2], ((f (asked q)).at 5).Starts 5 p.1 q [] ∧ ((f (asked q)).at 5).Brings 5 q (some p.2.2) p.2.2 ∧ Tbl.sorted (f (asked q)).regs ∧ Tbl.sorted (f (asked q)).se.colls ∧ Tbl.sorted (f (asked q)).tm.frames)) ∧
    (let q := defines 0x48 4095 0; ∀ f ∈ [id, collected []], ((f (asked q)).at 5).Starts 5 0x48 q [] ∧ ((f (asked q)).at 5).Brings 5 q none []) ∧
    (hosting.holdsKeys 5 = true ∧ hosting.coll 4095 = {} ∧ hosting.collsOf 5 < hosting.sreg Dict.dsearchMaxCollections 0 5 ∧ parseColl createBytes = some collData ∧ parseColl (topk none) = none ∧ hosting.domChans 5 = [0, 1, 2, 3] ∧
      (class2 hosting).domChans 5 = [] ∧ hosting.reserveUsed 0 + 8 * 1 ≤ hosting.reservePool 0 ∧ hosting.owned 5 0 + baseFrames 1 2 4 ≤ hosting.tierCap 5 0 ∧ baseFrames 1 2 4 ≤ hosting.freeFrames 0 0) ∧
    (∀ p ∈ [(0x49, 1, insertBytes 3 1), (0x49, 1, insertBytes 3 2), (0x49, 1, insertBytes 3 0xFFFFFFFF), (0x4A, 2, deleteBytes 9 1), (0x4B, 1, searchBytes 1)],
      ∀ rs ∈ [[], [vrec 9 1 0], [vrec 1 1 0, vrec 2 1 0, vrec 3 1 0, vrec 4 1 0]], (collected rs hosting).vecCheck 5 { id := 1, q := defines p.1 p.2.1 p.2.2.length, since := 100 } p.2.2 = none) ∧
    ((collected [] hosting).vecCheck 5 { id := 1, q := defines 0x49 2 (insertBytes 3 1).length, since := 100 } (insertBytes 3 1) = some stBad ∧
      hosting.vecCheck 5 { id := 1, q := defines 0x49 1 (insertBytes 3 1).length, since := 100 } (insertBytes 3 1) = some stDenied) ∧
    ((coll [vrec 1 1 0, vrec 2 1 0, vrec 3 1 0, vrec 4 1 0]).live = 4 ∧ vecOk 0 (elems 1 (insertBytes 3 1) 80 1) = true ∧ vecOk 1 [0] = false ∧ (((collected [vrec 9 1 0] hosting).setColl 4095 (coll [vrec 9 1 0, vrec 3 1 0])).growList 4095 1).isSome = true) ∧
    (headOk (searchBytes 1) 64 2 = true ∧ headOk (searchBytes 2) 64 2 = true ∧ headOk (searchBytes 3) 64 2 = false ∧ (1 : Nat) * (64 + 8 * (collected [] hosting).searchWidth (searchBytes 1) 1) ≤ le (searchBytes 1) 24 8) ∧
    (let s := collected [vrec 9 1 60, vrec 8 1 0] hosting; (s.coll 4095).st = 1 ∧ 0 < (inList (s.coll 4095).data 1).countP (s.reclaimable 4095) ∧ s.sreg Dict.searchCompactQuarter 0 0 * (inList (s.coll 4095).data 1).length ≤ 4 * (inList (s.coll 4095).data 1).countP (s.reclaimable 4095)) ∧
    (let s := collected [vrec 8 1 0] hosting; ¬(0 < (inList (s.coll 4095).data 1).countP (s.reclaimable 4095))) ∧
    (∀ p ∈ [(query, 2), (querying 1, 2), (querying 2, 1), ({ querying 1 with k := 2, limit := 2 }, 1)],
      (let s := searching p.1 p.2
       s.live = true ∧ Tbl.sorted s.regs ∧ Tbl.sorted s.se.colls ∧ Tbl.sorted s.ss.rings ∧ (s.se.queries.filter fun x => x.d == 5 && x.id == 1 && [0].contains x.idx) = [p.1] ∧ s.drun 5 1 = some (searchRun p.2) ∧ s.flowReady 7 = true)) ∧
    (let ranked : Query := { query with rank := some (rankLists collData (prepare 0 query.q)) }; query.rank = none ∧ ranked.best.length < ranked.k ∧ ranked.probed < ranked.limit ∧ ranked.nextRound ≠ []) ∧
    ((querying 1).wait.contains 1 = true ∧ (querying 1).wait.filter (· != 1) = [] ∧ (querying 2).wait.filter (· != 1) ≠ [] ∧
      (let x : Query := { querying 1 with k := 2, limit := 2, best := [(9, 0)], wait := [], probed := 1 }; x.best.length < x.k ∧ x.probed < x.limit ∧ x.nextRound ≠ [])) ∧
    (le (searchRun 2).q.input 6 2 = 7 ∧ (searchRun 2).a + 1 < (searchRun 2).q.d.count) := by
  refine ⟨?_, ?_, by decide +kernel, by decide +kernel, by decide +kernel, by decide +kernel, by decide +kernel, by decide +kernel, by decide +kernel, ?_, by decide +kernel, by decide +kernel, by decide +kernel⟩
  · intro p hp
    simp only [List.mem_cons, List.not_mem_nil, or_false] at hp
    rcases hp with rfl | rfl | rfl | rfl | rfl | rfl | rfl | rfl | rfl | rfl | rfl | rfl | rfl <;>
      (intro q f hf
       simp only [List.mem_cons, List.not_mem_nil, or_false] at hf
       rcases hf with rfl | rfl | rfl <;> exact ⟨starts_of (by decide +kernel), brings_of (by decide +kernel), sorted_of (by decide +kernel), sorted_of (by decide +kernel), sorted_of (by decide +kernel)⟩)
  · intro q f hf
    simp only [List.mem_cons, List.not_mem_nil, or_false] at hf
    rcases hf with rfl | rfl <;> exact ⟨starts_of (by decide +kernel), .inl ⟨rfl, rfl⟩⟩
  · intro p hp
    simp only [List.mem_cons, List.not_mem_nil, or_false] at hp
    rcases hp with rfl | rfl | rfl | rfl <;> exact ⟨rfl, sorted_of (by decide +kernel), sorted_of (by decide +kernel), sorted_of (by decide +kernel), by decide +kernel⟩

theorem test_collection_created : ok (.collectionCreate 5 5 (some createBytes)) (asked (defines 0x48 4095 80)) (fun u => decide ((u.coll 4095).data = collData ∧ (u.cq 5).written = 1)) = true := by decide +kernel
theorem test_collection_deleted : ok (.collectionCreate 5 5 none) (collected [] (asked (defines 0x48 4095 0))) (fun u => decide (u.coll 4095 = {})) = true := by decide +kernel
theorem test_insert : ok (.vecInsert 5 5 (some (insertBytes 9 1))) (collected [vrec 9 1 0] (asked (defines 0x49 1 128))) (fun u => decide ((u.coll 4095).data.recs = [vrec 9 1 100, { vrec 9 1 0 with born := 100 }])) = true := by decide +kernel
theorem test_insert_bad_list : ok (.vecInsert 5 5 (some (insertBytes 9 2))) (collected [vrec 9 1 0] (asked (defines 0x49 1 128))) (fun u => decide ((u.coll 4095).data.recs = [vrec 9 1 0] ∧ (u.cq 5).written = 1)) = true := by decide +kernel
theorem test_delete : ok (.vecDelete 5 5 (some (deleteBytes 9 7))) (collected [vrec 9 1 0, vrec 7 0 3] (asked (defines 0x4A 2 72))) (fun u => decide ((u.coll 4095).data.recs = [vrec 9 1 100, vrec 7 0 3])) = true := by decide +kernel
theorem test_search_begins : ok (.vecSearch 5 5 (some (searchBytes 1))) (collected [vrec 9 1 0] (asked (defines 0x4B 1 192))) (fun u => decide (u.se.queries.map (fun q => (q.d, q.id, q.k, q.nprobe, q.start)) = [(5, 1, 1, 1, 100)])) = true := by decide +kernel
theorem test_lists_ranked : ok (.listPassComplete 5 5 1 [0] none []) (searching query 2) (fun u => decide (u.se.queries.map (fun q => (q.rank, q.wait, q.rounds)) = [(some [1, 0], [1], 1)])) = true := by decide +kernel
theorem test_list_read : ok (.listPassComplete 5 5 1 [0] (some 1) []) (searching (querying 2) 1) (fun u => decide (u.se.queries.map (fun q => (q.best.map (·.1), q.wait, q.matched)) = [([9], [0], 1)])) = true := by decide +kernel
theorem test_compaction : ok (.listCompaction 5 4095 1) (collected [vrec 9 1 60, vrec 8 1 0] hosting) (fun u => decide ((u.coll 4095).data.recs = [vrec 8 1 0])) = true := by decide +kernel

/-! ## Control commands turned away -/

def controlOps : List Nat := [0x41, 0x42, 0x43, 0x44, 0x45, 0x48, 0x49, 0x4A, 0x4B, 0x50, 0x58, 0x59]

theorem meets_ControlCommandsAreTurnedAway :
    (∀ op ∈ controlOps, (asked (lateDefines op)).Taken 5 op (lateDefines op) [] ∧ (asked (lateDefines op)).isLate (lateDefines op).d.deadline = true ∧
      ((lateDefines op).d.dataLen = 0 ∨ (asked (lateDefines op)).ref 5 (lateDefines op).d.dataRef (lateDefines op).d.dataLen false ≠ .wait)) ∧
    (∀ f ∈ [lostPick, drained], ∀ op ∈ controlOps.filter (fun op => op ≠ 0x44 && op ≠ 0x45), (f (asked (ctl op 1))).Taken 5 op (ctl op 1) [] ∧ (f (asked (ctl op 1))).isLate (ctl op 1).d.deadline = false ∧ (ctl op 1).d.dataLen = 0) ∧
    ((lostPick hosting).pk.st = .lost ∧ (drained hosting).ck.drain = true) ∧ controlOps.filter Machine.admits = [0x49, 0x4A, 0x4B, 0x50, 0x58, 0x59] ∧
    controlOps.filter drainHolds = [0x41, 0x42, 0x43, 0x48, 0x49, 0x4A, 0x4B, 0x50, 0x58, 0x59] := by
  refine ⟨?_, ?_, by decide +kernel, by decide +kernel, by decide +kernel⟩
  · intro op h
    have h := List.all_eq_true.mp (show (controlOps.all fun op => startsB (asked (lateDefines op)) 5 op (lateDefines op) [] && (asked (lateDefines op)).isLate (lateDefines op).d.deadline) = true by decide +kernel) op h
    rw [Bool.and_eq_true] at h
    exact ⟨taken_of h.1, h.2, by revert op; decide +kernel⟩
  · intro f hf op h
    have h := List.all_eq_true.mp (show ((controlOps.filter fun op => op ≠ 0x44 && op ≠ 0x45).all fun op => [lostPick, drained].all fun f => startsB (f (asked (ctl op 1))) 5 op (ctl op 1) [] && !(f (asked (ctl op 1))).isLate (ctl op 1).d.deadline) = true by decide +kernel) op h
    have h := List.all_eq_true.mp h f hf
    rw [Bool.and_eq_true, Bool.not_eq_true'] at h
    exact ⟨taken_of h.1, h.2, rfl⟩

theorem test_late_control : ok (.stopsetDefine 5 5 none) (asked (lateDefines 0x44)) (fun u => decide (u.tx = hosting.tx ∧ (u.dring 5).waiting = [] ∧ (u.cq 5).written = 1)) = true := by decide +kernel

/-! ## Ethernet ports -/

/-- Port 0 with these pauses of priority 3 (begun at a - 1, until b), and whether it sent XOFF for it; and with addresses. -/
def porting (a b : Nat) (off : Bool) : State :=
  let s := (base.setReg Dict.ethIpv4 (0x0A000001 * 2 ^ 64) 0).setReg Dict.ethIpv6 (5 * 2 ^ 160) 0
  { s with et := { s.et with ports := [(0, { pausedAt := if a = 0 then [] else [(3, a)], pausedTo := if b = 0 then [] else [(3, b)], xoff := if off then [3] else [] })] } }

def ipMsg (target : Nat) (request odd : Bool) : IpMsg := { vid := 0, target := target, sender := 8, v6 := false, request := request, odd := odd, data := [1, 2] }

theorem meets_EthernetPortsPauseAndAnswer :
    (∀ s ∈ [porting 0 0 false, porting 1 1000000 false, porting 500000 2000000 true], s.live = true ∧ Tbl.sorted s.regs ∧ Tbl.sorted s.et.ports ∧ Tbl.sorted (s.portSt 0).pausedAt ∧ Tbl.sorted (s.portSt 0).pausedTo ∧
      s.isOn (.port 0) = true ∧ (∀ i ∈ [3, 6, 7], bit (s.reg Dict.ethPfcEnable) i = true)) ∧
    ([0, 0, 0, 65535, 0, 0, 0, 1].length = 8 ∧ bit 0x88 3 = true ∧ bit 0x88 7 = true ∧ bit 0x88 0 = false) ∧
    (let x := (porting 1 1000000 false).portSt 0; Tbl.get 0 x.pausedAt 3 = 0 + 1 ∧ Tbl.get 0 x.pausedTo 3 ≤ Nat.max base.now 5 ∧ x.dropping.contains 3 = false ∧ base.reg Dict.ethPfcWatchdog ≠ 0) ∧
    (let x := (porting 500000 2000000 true).portSt 0; Tbl.get 0 x.pausedAt 3 ≠ 0 ∧ Nat.max base.now 5 < Tbl.get 0 x.pausedTo 3 ∧ x.xoff.contains 3 = true) ∧
    (0 + base.reg Dict.ethPfcWatchdog * 1000000 ≤ Nat.max base.now 100000000 ∧ ¬(0 + base.reg Dict.ethPfcWatchdog * 1000000 ≤ Nat.max base.now 99999999)) ∧
    ((porting 0 0 false).portSt 0).xoff.contains 3 = false ∧ base.reg Dict.ethPfcXoff * 1024 = 1048576 ∧ base.reg Dict.ethPfcXon * 1024 = 524288 ∧
    (base.reg Dict.ptpEnable ≠ 0 ∧ base.reg Dict.ptpDomain = 0) ∧
    ((porting 0 0 false).vidOk 0 0 = true ∧ ((porting 0 0 false).addrs 0 false).contains 0x0A000001 = true ∧ ((porting 0 0 false).addrs 0 false).contains 7 = false) ∧
    ((porting 0 0 false).addrs 0 true).contains 5 = true := by
  refine ⟨?_, by decide +kernel, by decide +kernel, by decide +kernel, by decide +kernel, by decide +kernel, by decide +kernel, by decide +kernel, by decide +kernel, by decide +kernel, ?_⟩
  · intro s hs
    simp only [List.mem_cons, List.not_mem_nil, or_false] at hs
    rcases hs with rfl | rfl | rfl <;>
      exact ⟨rfl, sorted_of (by decide +kernel), sorted_of (by decide +kernel), sorted_of (by decide +kernel), sorted_of (by decide +kernel), by decide +kernel, by decide +kernel⟩
  · rw [List.contains_iff_mem]
    unfold State.addrs
    rw [if_pos rfl, List.mem_filter]
    exact ⟨by rw [show (porting 0 0 false).ip6 0 = 5 by decide +kernel]; simp, by decide⟩

theorem test_pfc_pause : ok (.pfcFrameReceive 2000000 0 0x88 [0, 0, 0, 65535, 0, 0, 0, 1]) (porting 0 0 false) (fun u => decide ((u.portSt 0).pausedAt = [(3, 2000001), (7, 2000001)] ∧ Tbl.get 0 (u.portSt 0).pausedTo 3 = 2000000 + 83885)) = true := by
  decide +kernel
theorem test_pfc_expire : ok (.pfcPauseExpire 2000000 0 3) (porting 1 1000000 false) (fun u => decide ((u.portSt 0).pausedAt = [])) = true := by decide +kernel
theorem test_pfc_xoff : ok (.pfcRefreshTimer 2000000 0 3 1048577) (porting 0 0 false) (fun u => decide ((u.portSt 0).xoff = [3] ∧ u.out.contains (.pfc 0 3 65535))) = true := by decide +kernel
theorem test_pfc_xoff_not_yet : ok (.pfcRefreshTimer 2000000 0 3 1048576) (porting 0 0 false) (fun u => decide ((u.portSt 0).xoff = [])) = true := by decide +kernel
theorem test_pfc_watchdog : ok (.pfcWatchdogExpire 100000000 0 3) (porting 1 2000000 false) (fun u => decide ((u.portSt 0).dropping = [3])) = true := by decide +kernel
theorem test_ptp : ok (.ptpEventMessage 5 0 { domain := 0, masterNs := 500, localNs := 400, offset := -3, delay := 20, lock := true }) base (fun u => decide (u.et.ptpSt = 2 ∧ u.et.ptpDelta = 120 ∧ u.et.ptpOff = -3)) = true := by decide +kernel
theorem test_arp : ok (.arp 5 0 (ipMsg 0x0A000001 true false)) (porting 0 0 false) (fun u => decide (u.out.contains (.ipReply 0 0 0x0A000001 8 [1, 2]))) = true := by decide +kernel
theorem test_echo_other : ok (.icmpEcho 5 0 (ipMsg 7 true false)) (porting 0 0 false) (fun u => decide (u.out = [])) = true := by decide +kernel
theorem test_solicitation_fragment : ok (.neighborDiscovery 5 0 (ipMsg 5 true true)) (porting 0 0 false) (fun u => decide (u.out = [] ∧ u.reg Dict.ethDropCount = 1)) = true := by decide +kernel

/-! ## Packets -/

theorem meets_PacketsDoWhatTheirOpcodeSays :
    (∀ e ∈ [(plainFlow, pkt 0 0 0 []), (flowing openMsg 0 {}, halfSend true), (plainFlow, halfSend false), (plainFlow, sends 0 [desc 3 1 handle1]), (plainFlow, sends (tgtWin 0 0) [desc 3 1 handle1]), (plainFlow, sends (tgtRing 6) [desc 0x44 1 0]),
        (plainFlow, pkt (tgtRing 5) 0 0 []), (plainFlow, halfSend true), (flowing openMsg 0 {}, halfSend false), (plainFlow, sends (tgtRing 5) [desc 0x44 1 0]), (flowing id 255 {}, sends (tgtRing 5) [desc 0x44 1 0]),
        (flowing id 256 {}, sends (tgtRing 5) [desc 0x44 1 0]), (plainFlow, sends (tgtRing 5) [(lateDefines 0x44).d]), (plainFlow, sends (tgtRing 5) [desc 1 0 0]), (plainFlow, sends (tgtSess 0) [desc 3 1 handle1]),
        (flowing id 0 (sess .toolwait (List.replicate 15 (cmd 3 1))), sends (tgtSess 0) [desc 3 1 handle1]), (flowing id 0 (sess .toolwait (List.replicate 16 (cmd 3 1))), sends (tgtSess 0) [desc 3 1 handle1]),
        (plainFlow, sends (tgtSess 0) [desc 9 0 handle1]), (plainFlow, sends (tgtSess 0) [desc 0x0A 0 handle1]), (flowing id 0 { sess .toolwait [] with closePend := true }, sends (tgtSess 0) [desc 0x0A 0 handle1]),
        (plainFlow, sends (tgtSess 0) [desc 3 1 (handle1 + 2 ^ 48)]), (inWarp plainFlow, sends (tgtSess 1) [desc 3 1 (handle1 + 2 ^ 42)])], e.1.InOrder e.2) ∧
    (tgtOk 0 = false ∧ tgtOk (tgtRing 5) = true ∧ tgtType (tgtRing 5) = 2 ∧ tgtOk (tgtSess 63) = true ∧ tgtType (tgtSess 63) = 1 ∧ tgtOk (tgtWin 65535 4095) = true ∧ tgtType (tgtWin 65535 4095) = 3 ∧ tgtOk (tgtBell 4095) = true ∧ tgtType (tgtBell 4095) = 4) ∧
    (parseDescs (halfSend true).data = [desc 0x44 1 0] ∧ descForm domOps (desc 0x44 1 0) = true ∧ descForm domOps (desc 1 0 0) = false ∧ plainFlow.isLate 0 = false ∧ plainFlow.isLate 99 = true ∧ plainFlow.stalled 5 = false) ∧
    (parseDescs (sends (tgtSess 0) [desc 3 1 handle1]).data = [desc 3 1 handle1] ∧ plainFlow.firstChecks 0 1 (desc 3 1 handle1) = none ∧ plainFlow.chOn 0 = true ∧ handleGen handle1 = plainFlow.genOf 1 ∧
      handleGen (handle1 + 2 ^ 48) ≠ plainFlow.genOf 1 ∧ plainFlow.firstChecks 0 1 (desc 3 1 0) = some (stBad, flMalformed)) ∧
    ((inWarp plainFlow).firstChecks 1 1 (desc 3 1 (handle1 + 2 ^ 42)) = none ∧ (1 : Nat) ≠ (inWarp plainFlow).device ∧ (inWarp plainFlow).dx.fwd.length < 4096) ∧
    (∀ s ∈ [plainFlow, flowing openMsg 255 {}, flowing id 0 { sess .toolwait [] with closePend := true }], Tbl.sorted s.ss.rings ∧ Tbl.sorted s.ss.cq ∧ Tbl.sorted s.ss.tbl ∧ Tbl.sorted s.dx.peers ∧ Tbl.sorted s.regs ∧ Tbl.sorted s.sl.wins) ∧
    (∀ e ∈ [(plainFlow, pkt 0 0 0 [1]), (plainFlow, pkt (tgtSess 0) 0 0 [1]), (windowed 0 on (win 1), pkt (tgtWin 0 1) 0 0 [1]), (windowed 65535 on (win 4095), pkt (tgtWin 65535 4095) 63 0 [1]), (windowed 0 on (win 1), pkt (tgtWin 0 1) 64 0 [1]),
        (windowed 0 on (win 1), pkt (tgtWin 0 2) 0 0 [1]), (plainFlow, pkt (tgtBell 5) 0 0 (leBytes 8 0)), (plainFlow, pkt (tgtBell 6) 0 0 (leBytes 8 0)), (plainFlow, pkt (tgtBell 5) 8 0 (leBytes 8 0)), (plainFlow, pkt (tgtBell 5) 0 0 (leBytes 8 1)),
        (plainFlow, pkt (tgtBell 5) 0 0 []), (windowed 0 on (win 1), pkt (tgtWin 0 1) 0 0 [])], e.1.InOrder e.2) ∧
    ((windowed 0 on (win 1)).winCheck (tgtWin 0 1) 5 = 0 ∧ (windowed 65535 on (win 4095)).winCheck (tgtWin 65535 4095) 5 = 0 ∧ (windowed 0 on (win 1)).winCheck (tgtWin 0 2) 5 = 0x12 ∧ (windowed 0 on (win 1)).winCheck (tgtWin 0 1) 6 = 0x13) ∧
    ((plainFlow.cq 5).written = 0 ∧ plainFlow.reg Dict.dsessCompletionConsumed 0 5 = 0 ∧ (plainFlow.cq 5).held = []) ∧
    (∀ e ∈ [(plainFlow, answer [97, 98] true), (flowing (waits (.sessIn 1 3) true) 0 (sess .toolwait [incoming]), answer [97, 98] true), (flowing (waits (.sessIn 1 3) true) 0 (sess .toolwait [incoming]), answer [97] false),
        (flowing (waits (.sessIn 1 3) true) 0 (sess .toolwait [incoming]), answer [97] true), (flushing, answer [] true), (flowing (waits .drainFlush false) 0 {}, answer [] true)], e.1.InOrder e.2) ∧
    (let s := flowing (waits (.sessIn 1 3) true) 0 (sess .toolwait [incoming])
     (s.sess 1).ring = incoming :: [] ∧ incoming.inSt = 1 ∧ incoming.d.seq = 3 ∧ ((s.flow 7).ops.find? fun o => (o.read == true) && o.psn == (answer [97, 98] true).aux % 2 ^ 24) = some { psn := 5, read := true, want := 2, got := [], what := .sessIn 1 3 }) ∧
    (flushing.Runs 5 (selRun 2 2 none) ∧ flushing.atRest ∧ plainFlow.atRest ∧ ((flushing.flow 7).ops.find? fun o => (o.read == false) && o.psn == (answer [] true).aux % 2 ^ 24) = some { psn := 5, read := false, want := 0, got := [], what := .domFlush 5 1 }) := by
  refine ⟨inOrder_all (by decide +kernel), by decide +kernel, by decide +kernel, by decide +kernel, ⟨?_, by decide +kernel, by decide +kernel⟩, ?_, inOrder_all (by decide +kernel), by decide +kernel, by decide +kernel, inOrder_all (by decide +kernel), by decide +kernel,
    runs_of (by decide +kernel), atRest_of (by decide +kernel), atRest_of (by decide +kernel), by decide +kernel⟩
  · unfold State.firstChecks
    rw [present_1 (by decide +kernel)]
    decide +kernel
  · intro s hs
    simp only [List.mem_cons, List.not_mem_nil, or_false] at hs
    rcases hs with rfl | rfl | rfl <;> exact ⟨sorted_of (by decide +kernel), sorted_of (by decide +kernel), sorted_of (by decide +kernel), sorted_of (by decide +kernel), sorted_of (by decide +kernel), sorted_of (by decide +kernel)⟩

theorem test_send_to_ring : ok (.slaiskSend 5 (sends (tgtRing 5) [desc 0x44 1 0])) (flowing id 255 {}) (fun u => decide ((u.dring 5).waiting.length = 256 ∧ (u.flow 7).rx = 1)) = true := by decide +kernel
theorem test_send_to_full_ring : ok (.slaiskSend 5 (sends (tgtRing 5) [desc 0x44 1 0])) (flowing id 256 {}) (fun u => decide ((u.dring 5).waiting.length = 256 ∧ (u.cq 5).written = 1)) = true := by decide +kernel
theorem test_send_to_session : ok (.slaiskSend 5 (sends (tgtSess 0) [desc 3 1 handle1])) plainFlow (fun u => decide ((u.sess 1).ring = [cmd 3 1] ∧ (u.sess 1).tail = 1)) = true := by decide +kernel
theorem test_send_in_two : ok (.slaiskSend 5 (halfSend false)) (flowing openMsg 0 {}) (fun u => decide ((u.dring 5).waiting.length = 2 ∧ (u.flow 7).msg = none)) = true := by decide +kernel
theorem test_write_in_window : ok (.slaiskWrite 5 (pkt (tgtWin 65535 4095) 63 0 [9])) (windowed 65535 on (win 4095)) (fun u => decide ((u.win 65535).mem = [(63, 9)])) = true := by decide +kernel
theorem test_write_past_window : ok (.slaiskWrite 5 (pkt (tgtWin 0 1) 64 0 [9])) (windowed 0 on (win 1)) (fun u => decide ((u.win 0).mem = [] ∧ u.out.contains (.ackNak 0 7 true 0 0x11 1))) = true := by decide +kernel
theorem test_doorbell : ok (.doorbellWrite 5 (pkt (tgtBell 5) 0 0 (leBytes 8 1))) plainFlow (fun u => decide (u.reg Dict.slaiskBadDoorbellCount = 1 ∧ u.reg Dict.dsessCompletionConsumed 0 5 = 0)) = true := by decide +kernel
theorem test_flush : ok (.slaiskFlush 5 (pkt 0 0 0 [])) plainFlow (fun u => decide ((u.flow 7).unacked.map (fun q => (q.op, q.aux)) = [(9, 0)])) = true := by decide +kernel
theorem test_read_refused : ok (.slaiskRead 5 (pkt 0 0 0 [])) plainFlow (fun u => decide (u.out.contains (.ackNak 0 7 true 0 0x14 1) ∧ (u.flow 7).rx = 1)) = true := by decide +kernel
theorem test_read_response : ok (.slaiskReadResponse 5 (answer [97, 98] true)) (flowing (waits (.sessIn 1 3) true) 0 (sess .toolwait [incoming])) (fun u => decide ((u.sess 1).ring.map (fun q => (q.inSt, q.input)) = [(2, [97, 98])] ∧ (u.flow 7).ops = [])) = true := by
  decide +kernel
theorem test_flush_ends_select : ok (.slaiskFlushResponse 5 (answer [] true)) flushing (fun u => decide (u.drun 5 1 = none ∧ (u.cq 5).written = 1)) = true := by decide +kernel

/-! ## Windows and acknowledgements -/

theorem meets_WindowsOpenAndClose :
    (∀ s ∈ [plainFlow, windowed 0 on (win 1), windowed 65535 { st := .starting } (win 4095)], s.live = true ∧ Tbl.sorted s.sl.wins ∧ Tbl.sorted s.fns ∧ Tbl.sorted s.sl.flows) ∧
    (∀ e ∈ [(plainFlow, pkt 0 handle1 64 []), (plainFlow, pkt 0 handle1 16777216 []), (plainFlow, pkt 0 handle1 32 []), (plainFlow, pkt 0 (handle1 + 2 ^ 42) 64 []), (plainFlow, pkt 0 (handle1 + 10 * 2 ^ 22) 64 []),
        (plainFlow.setReg Dict.dslaiskMaxWindows 0 0 5, pkt 0 handle1 64 []), (windowed 0 on (win 1), pkt (tgtWin 0 1) 0 0 []), (windowed 0 on (win 1), pkt (tgtWin 0 2) 0 0 []), (plainFlow, pkt 0 0 0 []), (plainFlow, pkt (tgtSess 0) 0 0 []),
        (windowed 65535 { st := .starting } (win 4095), pkt (tgtWin 65535 4095) 0 0 [])], e.1.InOrder e.2) ∧
    (handleDev handle1 = plainFlow.device ∧ handleDev (handle1 + 2 ^ 42) ≠ plainFlow.device ∧ plainFlow.inRange 5 (handleSlot handle1) = true ∧ handleDev (handle1 + 10 * 2 ^ 22) = 0 ∧ plainFlow.inRange 5 (handleSlot (handle1 + 10 * 2 ^ 22)) = false) ∧
    ((plainFlow.wins.countP fun w => w.dom == 5) < plainFlow.reg Dict.dslaiskMaxWindows 0 5 ∧ plainFlow.wins.length < 65536 ∧ plainFlow.chOn (chOf (handleSlot handle1)) = true ∧
      (∀ n ∈ [64, 16777216], n + sumOf (fun w => if w.ch = chOf (handleSlot handle1) then w.size else 0) plainFlow.wins ≤ plainFlow.reg Dict.slaiskWindowPool * 1048576) ∧
      (plainFlow.setReg Dict.dslaiskMaxWindows 0 0 5).reg Dict.dslaiskMaxWindows 0 5 = 0) ∧
    ((windowed 0 on (win 1)).winCheck (tgtWin 0 1) 5 = 0 ∧ (windowed 0 on (win 1)).winCheck (tgtWin 0 2) 5 = 0x12 ∧ (windowed 65535 { st := .starting } (win 4095)).winCheck (tgtWin 65535 4095) 5 = 0x10) ∧
    (∀ f ∈ [({ st := .starting } : Fn), { st := .starting, pend := .off }, on, { st := .stopping }], ∀ i ∈ [0, 65535], (windowed i f (win 1)).fn (.window i) = f ∧ (windowed i f (win 1)).flowReady ((windowed i f (win 1)).win i).flow = true) ∧
    (let s := windowed 0 on { win 1 with pick := 99 }; (s.win 0).isOpen = true ∧ (s.win 0).pick < s.pk.current ∧ (s.win 0).revoked = false ∧ (s.win 1).isOpen = false) := by
  refine ⟨?_, inOrder_all (by decide +kernel), by decide +kernel, by decide +kernel, by decide +kernel, by decide +kernel, by decide +kernel⟩
  intro s hs
  simp only [List.mem_cons, List.not_mem_nil, or_false] at hs
  rcases hs with rfl | rfl | rfl <;> exact ⟨rfl, sorted_of (by decide +kernel), sorted_of (by decide +kernel), sorted_of (by decide +kernel)⟩

theorem test_window_opens : ok (.windowOpen 5 (pkt 0 handle1 64 [])) (windowed 0 on (win 1)) (fun u => decide (u.win 1 = { win 1 with psn := 0 } ∧ u.fn (.window 1) = { st := .starting })) = true := by decide +kernel
theorem test_window_too_small : ok (.windowOpen 5 (pkt 0 handle1 32 [])) plainFlow (fun u => decide (u.sl.wins = [] ∧ u.out.contains (.ackNak 0 7 true 0 0x15 1))) = true := by decide +kernel
theorem test_window_starts : ok (.windowStartComplete 5 0) (windowed 0 { st := .starting } (win 1)) (fun u => decide (u.fn (.window 0) = on ∧ (u.flow 7).unacked.map (fun q => (q.op, q.target, q.syndrome, q.aux)) = [(12, 0x30010000, 0, 3)])) = true := by
  decide +kernel
theorem test_window_revoked : ok (.windowRevoke 5 (pkt (tgtWin 0 1) 0 0 [])) (windowed 0 on (win 1)) (fun u => decide ((u.win 0).revoked = true ∧ (u.fn (.window 0)).st = .stopping)) = true := by decide +kernel
theorem test_window_expires : ok (.windowExpire 5 0) (windowed 0 on { win 1 with pick := 99 }) (fun u => decide ((u.win 0).revoked = true)) = true := by decide +kernel
theorem test_window_not_yet : ok (.windowExpire 5 0) (windowed 0 on (win 1)) (fun u => decide ((u.win 0).revoked = false)) = true := by decide +kernel
theorem test_window_stops : ok (.windowStopComplete 5 0) (windowed 0 { st := .stopping } { win 1 with mem := [(63, 9)] }) (fun u => decide (u.win 0 = { gen := 1 } ∧ u.fn (.window 0) = {})) = true := by decide +kernel

/-- A packet of a flow that waits for its acknowledgement. -/
def inFlight (seq : Nat) (own : Option OpFor) : TxPkt := { seq := seq, op := 2, first := true, last := true, target := 3, offset := 0, syndrome := 0, aux := 0, data := [1], own := own }
/-- Two packets wait, the first with PSN 2^24 - 1. -/
def awaiting (own : Option OpFor) (x : Flow) : Flow := { x with tx := 2 ^ 24 + 1, unacked := [inFlight (2 ^ 24 - 1) own, inFlight (2 ^ 24) own], rtoAt := some 1500000, rxSince := some 999000, port := some 0 }
def ackPkt (psn syndrome : Nat) : SPkt := { pkt 0 1 0 [] with ackPsn := psn, syndrome := syndrome }

theorem accepted_all {l : List (State × SPkt)} (h : (l.all fun e => acceptedB e.1 e.2) = true) : ∀ e ∈ l, e.1.Accepted e.2 := fun e he => accepted_of (List.all_eq_true.mp h e he)

theorem meets_AcknowledgementsMoveTheWindow :
    (∀ s ∈ [flowing (awaiting none) 0 {}, plainFlow], s.live = true ∧ s.atRest ∧ Tbl.sorted s.sl.flows ∧ Tbl.sorted s.regs) ∧
    (∀ e ∈ [(flowing (awaiting none) 0 {}, ackPkt (2 ^ 24 - 1) 0), (flowing (awaiting none) 0 {}, ackPkt 0 0), (flowing (awaiting none) 0 {}, ackPkt (2 ^ 24 - 1) 1), (flowing (awaiting none) 0 {}, ackPkt (2 ^ 24 - 2) 1), (flowing (awaiting none) 0 {}, ackPkt 0 0x10),
        (flowing (awaiting none) 0 {}, ackPkt 0 0x17), (flowing (awaiting none) 0 {}, ackPkt 0 0xF), (flowing (fun x => { awaiting none x with ctrRx := 1 }) 0 {}, ackPkt 0 0),
        (flowing (awaiting (some (.sessIn 1 3))) 0 { sess .decode [] with run := some (running 3 5) }, ackPkt (2 ^ 24 - 1) 0x10),
        (flowing (fun x => { awaiting none x with ops := [{ psn := 2 ^ 24 - 1, read := true, want := 2, got := [], what := .sessIn 1 3 }] }) 0 (sess .toolwait [incoming]), ackPkt (2 ^ 24 - 1) 0x10)], e.1.Accepted e.2) ∧
    (let x := (flowing (awaiting none) 0 {}).flow 7
     let left (n : Nat) := x.unacked.filter fun q => decide (2 ^ 23 ≤ (n + 2 ^ 24 - q.seq % 2 ^ 24) % 2 ^ 24)
     x.ctrRx < 1 ∧ left (2 ^ 24 - 1) = [inFlight (2 ^ 24) none] ∧ left 0 = [] ∧ left (2 ^ 24 - 2) = x.unacked ∧ x.unacked.find? (fun q => q.seq % 2 ^ 24 == 2 ^ 24 - 1) = some (inFlight (2 ^ 24 - 1) none)) ∧
    (let s := flowing (awaiting (some (.sessIn 1 3))) 0 { sess .decode [] with run := some (running 3 5) }
     (s.sess 1).run = some (running 3 5) ∧ (running 3 5).q.d.seq = 3 ∧ (s.flow 7).ops = [] ∧ s.ss.tbl = [(1, s.sess 1)]) ∧
    (let s := flowing (awaiting none) 0 {}
     s.flowPaused 7 = false ∧ s.flowPort 7 = some 0 ∧ s.flowReady 7 = true ∧ (s.flow 7).rxSince = some 999000 ∧ 999000 + 2000 ≤ Nat.max s.now 1001000 ∧ Nat.max s.now 1000999 < 999000 + 2000 ∧ (s.flow 7).rtoAt = some 1500000 ∧
       1500000 ≤ Nat.max s.now 1500000 ∧ Nat.max s.now 1499999 < 1500000 ∧ (s.flow 7).expiries + 1 < s.reg Dict.slaiskRetryLimit) ∧
    (let s := flowing (fun x => { awaiting none x with expiries := 6 }) 0 {}; s.reg Dict.slaiskRetryLimit ≤ (s.flow 7).expiries + 1) ∧
    plainFlow.flowReady 65535 = false := by
  refine ⟨?_, accepted_all (by decide +kernel), by decide +kernel, by decide +kernel, by decide +kernel, by decide +kernel, by decide +kernel⟩
  intro s hs
  simp only [List.mem_cons, List.not_mem_nil, or_false] at hs
  rcases hs with rfl | rfl <;> exact ⟨rfl, atRest_of (by decide +kernel), sorted_of (by decide +kernel), sorted_of (by decide +kernel)⟩

theorem test_ack : ok (.slaiskAck 2000000 (ackPkt (2 ^ 24 - 1) 0)) (flowing (awaiting none) 0 {}) (fun u => decide ((u.flow 7).unacked.map (·.seq) = [2 ^ 24])) = true := by decide +kernel
theorem test_nak_sequence : ok (.slaiskNak 2000000 (ackPkt (2 ^ 24 - 1) 1)) (flowing (awaiting none) 0 {}) (fun u => decide (u.out.contains (.slaisk 0 7 (inFlight (2 ^ 24) none)))) = true := by decide +kernel
theorem test_nak_error : ok (.slaiskNak 2000000 (ackPkt (2 ^ 24 - 1) 0x10)) (flowing (awaiting (some (.sessIn 1 3))) 0 { sess .decode [] with run := some (running 3 5) }) (fun u => decide ((u.sess 1).outFail = true)) = true := by decide +kernel
theorem test_coalesce : ok (.ackCoalesceTimer 1001000 7) (flowing (awaiting none) 0 {}) (fun u => decide ((u.flow 7).rxSince = none ∧ (u.flow 7).ctrTx = 1)) = true := by decide +kernel
theorem test_coalesce_early : ok (.ackCoalesceTimer 1000999 7) (flowing (awaiting none) 0 {}) (fun u => decide ((u.flow 7).rxSince = some 999000)) = true := by decide +kernel
theorem test_retransmit : ok (.retransmitTimeout 1500000 7) (flowing (awaiting none) 0 {}) (fun u => decide ((u.flow 7).expiries = 1 ∧ u.out.contains (.slaisk 0 7 (inFlight (2 ^ 24 - 1) none)))) = true := by decide +kernel
theorem test_flow_fails : ok (.retransmitTimeout 1500000 7) (flowing (fun x => { awaiting none x with expiries := 6 }) 0 {}) (fun u => decide ((u.flow 7).st = 2 ∧ (u.flow 7).unacked = [])) = true := by decide +kernel

/-! ## Links and forwarded commands -/

/-- A flit of one whole message on virtual channel vc, and a way to device 1 over link 0. -/
def flit (vc typ dst src seq hops : Nat) : Flit :=
  { vc := vc, dst := dst, src := src, typ := typ, first := true, last := true, prot := true, parity := 1, hops := hops, seq := seq, ackSeq := 0, ackValid := false, nak := false, crVc := 3, crClass := 2, crTotal := 4095, crcOk := true,
    pay := [0, 0, 0, 5] }
def routed (s : State) : State := s.setReg Dict.warpRoute (256 ^ 56 + 256 ^ 55 + 0xFFFF * 256 ^ 52) 1 0

/-- Link 0 keeps one flit of sequence 4095 for replay, and expects sequence 4095. -/
def txFlit : TxFlit := { vc := 0, dst := 1, src := 0, typ := 2, first := true, last := true, prot := true, parity := 1, hops := 0, pay := .raw [] }
def linking (s : State) : State := { s with dx := { s.dx with links := [(0, { rxNext := 4095, replay := [(4095, txFlit)], txNext := 0, since := some 1000000 })] } }
/-- Channel 0 is sealed for domain 9. -/
def sealed9 (s : State) : State := { s.setReg Dict.sealDomain 9 0 with fns := s.fns ++ [(300, on)] }
/-- Descriptors for device 1 were sent 1 ms ago, or wait. -/
def fwd (sent : Option Nat) : Fwd := { home := 1, id := 6, dom := 5, ds := [desc 3 1 (handle1 + 2 ^ 42)], sent := sent }
def forwarding (sent : Option Nat) (s : State) : State := { s with dx := { s.dx with fwd := [fwd sent] } }
/-- A COMMAND of device 1 is held early. -/
def early (s : State) : State := { s with dx := { s.dx with early := [(1, 3, 5, [desc 0x44 1 0])] } }

theorem meets_LinksCarryCommandsInOrder :
    (∀ s ∈ [linking base, routed (linking base), sealed9 (linking base), { base with fns := [] }, forwarding (some 1000000) hosting], s.live = true ∧ s.Linked ∧ Tbl.sorted s.regs) ∧
    ((linking base).linkLive 0 = true ∧ (linking base).linkLive 47 = false ∧ ((linking base).link 0).rxNext = 4095 ∧ findIdx? (fun e => e.1 == 4095) ((linking base).link 0).replay = some 0 ∧ Tbl.sorted ((linking base).link 0).ret) ∧
    ((flit 0 2 0 1 4095 0).crcOk = true ∧ flitDom (flit 0 2 0 1 4095 0) = some 5 ∧ flitKnown (flit 0 0xC 0 1 4095 0) = true ∧ flitKnown (flit 0 0xD 0 1 4095 0) = false ∧ flitDom (flit 3 1 0 1 4095 0) = none) ∧
    ((sealed9 (linking base)).isOn (.seal 0) = true ∧ (sealed9 (linking base)).reg Dict.sealDomain 0 = 9 ∧ (linking base).isOn (.seal 0) = false ∧ (linking base).device = 0 ∧ (linking base).present 5 = false) ∧
    ((inWarp (linking base)).present 1 = true ∧ (inWarp (linking base)).usableSets 1 (some 5) = [] ∧ (inWarp (routed (linking base))).present 1 = true ∧ (inWarp (routed (linking base))).usableSets 1 (some 5) ≠ [] ∧ (inWarp (routed (linking base))).Linked) ∧
    (((linking base).link 0).since = some 1000000 ∧ ((linking base).link 0).replay ≠ [] ∧ 1000000 + 4000 ≤ Nat.max base.now 1004000 ∧ Nat.max base.now 1003999 < 1000000 + 4000) ∧
    (∀ f ∈ [id, early], ∀ mid ∈ [0, 3, 256, 257, 2 ^ 31 - 1, 2 ^ 31, 2 ^ 32 - 1], (inWarp (f (holds (sess .toolwait [])))).Arrives (from1 mid 0) true) ∧
    ((inWarp hosting).peer 1).rxId = 0 ∧ (early hosting).dx.early = [(1, 3, 5, [desc 0x44 1 0])] ∧
    (descForm domOps (desc 0x44 1 0) = true ∧ hosting.isLate 0 = false ∧ (hosting.dring 5).waiting.length + 1 ≤ 256 ∧ Tbl.sorted hosting.ss.rings ∧ sessOps.contains (desc 0x44 1 0).opcode = false) ∧
    (let s := holds (sess .toolwait []); sessOps.contains 3 = true ∧ handleSlot handle1 = 1 ∧ (s.sess 1).dom = 5 ∧ handleGen handle1 = s.genOf 1 ∧ s.chOn (chOf 1) = true ∧ (s.sess 1).ring.length + 1 ≤ 16 ∧ Tbl.sorted s.ss.tbl) ∧
    ((inWarp (forwarding (some 1000000) hosting)).Arrives (from1 6 0) true ∧ (inWarp (forwarding (some 1000000) hosting)).atRest) ∧
    (let s := forwarding (some 1000000) hosting
     (s.dx.fwd.find? fun f => f.home == 1 && f.id == 6) = some (fwd (some 1000000)) ∧ 1000000 + 1000 * s.reg Dict.dnxE2eTimeout ≤ Nat.max s.now (1000000 + 1000 * s.reg Dict.dnxE2eTimeout) ∧ (s.dx.fwd.find? fun f => f.home == 63 && f.id == 6) = none) := by
  refine ⟨?_, ⟨by decide +kernel, by decide +kernel, by decide +kernel, by decide +kernel, sorted_of (by decide +kernel)⟩, by decide +kernel, by decide +kernel,
    ⟨present_1 (by decide +kernel), by decide +kernel, present_1 (by decide +kernel), by decide +kernel, linked_of (by decide +kernel)⟩, by decide +kernel, ?_, by decide +kernel, by decide +kernel,
    ⟨by decide +kernel, by decide +kernel, by decide +kernel, sorted_of (by decide +kernel), by decide +kernel⟩,
    ⟨by decide +kernel, by decide +kernel, by decide +kernel, by decide +kernel, by decide +kernel, by decide +kernel, sorted_of (by decide +kernel)⟩, ⟨arrives_of true (by decide +kernel), atRest_of (by decide +kernel)⟩, by decide +kernel⟩
  · intro s hs
    simp only [List.mem_cons, List.not_mem_nil, or_false] at hs
    rcases hs with rfl | rfl | rfl | rfl | rfl <;> exact ⟨rfl, linked_of (by decide +kernel), sorted_of (by decide +kernel)⟩
  · intro f hf mid hm
    refine arrives_of true ?_
    revert mid f
    decide +kernel

theorem test_flit_taken : ok (.flitReceive 5 0 (flit 0 2 0 1 4095 0)) (linking base) (fun u => decide ((u.link 0).rxNext = 0 ∧ u.out.contains (.trailer 0 4095 false 0 0 1))) = true := by decide +kernel
theorem test_flit_out_of_order : ok (.flitReceive 5 0 (flit 0 2 0 1 4094 0)) (linking base) (fun u => decide ((u.link 0).rxNext = 4095 ∧ (u.link 0).nakSent = true)) = true := by decide +kernel
theorem test_flit_crc : ok (.flitReceive 5 0 { flit 0 2 0 1 4095 0 with crcOk := false }) (linking base) (fun u => decide ((u.link 0).crcFails = 1 ∧ u.reg Dict.dnxCrcFailCount = 1)) = true := by decide +kernel
theorem test_flit_acknowledges : ok (.flitReceive 5 0 { flit 0 0 0 1 4095 0 with ackValid := true, ackSeq := 4095 }) (linking base) (fun u => decide ((u.link 0).replay = [])) = true := by decide +kernel
theorem test_flit_hops : ok (.flitReceive 5 0 (flit 0 2 1 2 4095 2)) (linking base) (fun u => decide (u.reg Dict.dnxHopDropCount = 1)) = true := by decide +kernel
theorem test_replay : ok (.replayTimeout 1004000 0) (linking base) (fun u => decide ((u.link 0).replays = 1 ∧ u.out.contains (.flit 0 4095 txFlit))) = true := by decide +kernel
theorem test_replay_early : ok (.replayTimeout 1003999 0) (linking base) (fun u => decide ((u.link 0).replays = 0)) = true := by decide +kernel

/-! ## Migration -/

/-- The peers of a device 0 of this warp after device 1. -/
theorem peersFrom_2 {s : State} (h : (inWarp s).device = 0) : (inWarp s).peersFrom 2 = [63] := by
  have hd : ∀ i < 64, decide (2 ≤ i) = true → (inWarp s).present i = decide (i = 63) := by
    intro i h1 h2
    have h2 := of_decide_eq_true h2
    unfold State.present State.peerState
    rw [inWarp_other (by omega) h1, h, if_neg (show i ≠ 0 by omega)]
    have hp : (inWarp s).peer i = Tbl.get {} [(1, { st := 2, heard := 1000000 }), (63, { st := 2, heard := 1000000 })] i := rfl
    rw [hp]
    clear hp h
    revert i
    decide +kernel
  unfold State.peersFrom
  rw [h, show [63] = (List.range 64).filter fun d => decide (2 ≤ d) && decide (d = 63) by decide +kernel]
  refine List.filter_congr fun i hi => ?_
  by_cases h2 : 2 ≤ i
  · rw [hd i (List.mem_range.mp hi) (decide_eq_true h2), decide_eq_true h2, decide_eq_true (show i ≠ 0 by omega)]
    rfl
  · simp [h2]

/-- This device's session of slot 1 leaves for device 1, at a step; a session of device 1 comes into slot 2. -/
def leaving (step since : Nat) : MigOut := { id := 3, k := 1, peer := 1, step := step, since := since }
def arrivals (reply : Nat) (done : Bool) (pages : List (CkPage × Nat × Nat × Nat)) : MigIn :=
  { src := 1, id := 3, reply := reply, sum := { dom := 5, meas := 66, near := 1, deep := 0, far := 0 }, k := 2, frames := if pages = [] then [(0, 0, 12)] else [], pages := pages, since := 1000000, committed := done }
def paging (lpn ver : Nat) (good : Bool) : CkPage := { lpn := lpn, tier := 0, count := 4, ver := ver, touch := 50, ok := good }
def migrating (out : List MigOut) (inn : List MigIn) : State :=
  let s := holds { sess .moving [] with prior := .toolwait, reserved := true, pages := [(0, page 8)] }
  { s with dx := { s.dx with out := out, inn := inn } }
def draining3 (s : State) : State := { s with pw := { s.pw with pkg := .draining, drainStep := 3 } }

/-- A session as a commit carries it. -/
def ckSess (st : Nat) (pages : List CkPage) : CkSess :=
  { handle := handle1, st := st, prior := 4, dom := 5, prio := 3, meas := 66, length := 4, ttl := 100, since := 90, sver := 7, grammar := 0xFFFFFFFF, stop := 0xFFFFFFFF, sampling := 0xFFFFFFFF, gstate := 0xFFFFFFFF, charged := 9, slate := false,
    generated := true, kvLen := 4, draftLen := 0, policy := 0, tokens := [0, 1, 2, 0], ctx := {}, pages := pages }

theorem meets_MigrationMovesASession :
    (∀ e ∈ [(hosting, from1 3 0), (migrating [leaving 1 0] [], from1 3 0), (migrating [leaving 1 0] [], from1 3 2), (draining3 (migrating [leaving 1 0] []), from1 3 2), (migrating [leaving 3 0] [], from1 3 0), (migrating [leaving 3 0] [], from1 3 4294967295),
        (migrating [] [arrivals 0 false []], from1 3 0), (migrating [] [arrivals 1 false []], from1 3 0), (migrating [] [arrivals 0 true []], from1 3 0), (migrating [] [arrivals 0 false [(paging 0 1 true, 0, 0, 12)]], from1 3 0)],
      ∀ prot ∈ [false, true], (inWarp e.1).Arrives e.2 prot) ∧
    (∀ s ∈ [hosting, migrating [leaving 1 0] [], migrating [] [arrivals 0 false []]], (inWarp s).live = true ∧ (inWarp s).Linked ∧ Tbl.sorted (inWarp s).ss.tbl ∧ Tbl.sorted (inWarp s).ss.cq ∧ Tbl.sorted (inWarp s).regs) ∧
    (let s := inWarp hosting; s.migIn 1 3 = none ∧ s.placeFor { dom := 5, meas := 66, near := 1, deep := 0, far := 0 } = some 0 ∧ s.placeFor { dom := 5, meas := 65, near := 1, deep := 0, far := 0 } = none ∧ (s.reserveFor 5 0 1).isSome = true ∧ (s.reserveFor 5 0 0).isSome = true) ∧
    ((inWarp (hosting.setReg Dict.dtierNearCap 0 0 5)).reserveFor 5 0 1).isNone = true ∧
    (let s := migrating [leaving 1 0] []; (s.dx.out.find? fun m => m.id == 3 && m.peer == 1 && m.step == 1) = some (leaving 1 0) ∧ (s.dx.out.find? fun m => m.id == 3 && m.peer == 1 && m.step == 3) = none ∧ s.draining = false ∧ (s.sess 1).st = .moving) ∧
    (let s := inWarp (draining3 (migrating [leaving 1 0] [])); s.draining = true ∧ (s.reg Dict.packageDrainTarget = 0 ∨ s.reg Dict.packageDrainTarget = 2) ∧ s.sealed (chOf 1) = false ∧ s.peersFrom 2 = [63]) ∧
    ((inWarp (migrating [] [arrivals 0 false []])).migIn 1 3 = some (arrivals 0 false []) ∧ (inWarp (migrating [] [arrivals 0 false []])).frameFor (arrivals 0 false []) (paging 0 1 true) = some (0, 0, 12) ∧
      (arrivals 0 false [(paging 0 1 true, 0, 0, 12)]).pages.find? (fun y => y.1.lpn == 0) = some (paging 0 1 true, 0, 0, 12) ∧ (inWarp (migrating [] [arrivals 0 false []])).frameFor (arrivals 0 false [(paging 0 1 true, 0, 0, 12)]) (paging 1 1 true) = none ∧ (paging 0 1 true).lpn = (from1 3 0).aux ∧ (paging 0 1 true).ver ≠ (paging 0 2 true).ver) ∧
    (let s := inWarp (migrating [] [arrivals 0 false [(paging 0 1 true, 0, 0, 12)]])
     restoredState (ckSess 4 [paging 0 1 true]) = some .toolwait ∧ s.modelOf 5 66 = some 2 ∧ s.stalled 5 = false ∧
       ((ckSess 4 [paging 0 1 true]).pages.filter fun p => !p.absent).map (·.lpn) = [0]) ∧
    ((migrating [leaving 3 0] []).dx.out.find? fun m => m.id == 3 && m.peer == 1 && m.step == 3) = some (leaving 3 0) ∧
    (let s := migrating [leaving 3 1000000] [arrivals 0 false []]
     let d := 1000000000 * s.reg Dict.packageDrainTimeout
     (s.dx.out.find? fun m => m.id == 3 && m.peer == 1 && decide (m.since + d ≤ Nat.max s.now (1000000 + d))) = some (leaving 3 1000000) ∧ (s.dx.out.find? fun m => m.id == 3 && m.peer == 1 && decide (m.since + d ≤ Nat.max s.now (999999 + d))) = none ∧
       (s.dx.inn.find? fun m => m.src == 1 && m.id == 3 && !m.committed && decide (m.since + d ≤ Nat.max s.now (1000000 + d))) = some (arrivals 0 false [])) := by
  refine ⟨fun e he prot _ => arrives_all prot (by decide +kernel) e he, ?_, by decide +kernel, by decide +kernel, by decide +kernel, ⟨by decide +kernel, by decide +kernel, by decide +kernel, peersFrom_2 (by decide +kernel)⟩, by decide +kernel, by decide +kernel, by decide +kernel, by decide +kernel⟩
  intro s hs
  simp only [List.mem_cons, List.not_mem_nil, or_false] at hs
  rcases hs with rfl | rfl | rfl <;> exact ⟨rfl, linked_of (by decide +kernel), sorted_of (by decide +kernel), sorted_of (by decide +kernel), sorted_of (by decide +kernel)⟩

theorem test_migration_abandoned : ok (.migrationTimeout (1000000 + 1000000000 * base.reg Dict.packageDrainTimeout) 1 3) (migrating [leaving 3 1000000] []) (fun u => decide (u.dx.out = [] ∧ (u.sess 1).st = .toolwait)) = true := by decide +kernel
theorem test_migration_not_yet : ok (.migrationTimeout 2000000 1 3) (migrating [leaving 3 1000000] []) (fun u => decide (u.dx.out = [leaving 3 1000000])) = true := by decide +kernel
theorem test_arrival_abandoned : ok (.migrationTimeout (1000000 + 1000000000 * base.reg Dict.packageDrainTimeout) 1 3) (migrating [] [arrivals 0 false []]) (fun u => decide (u.dx.inn = [])) = true := by decide +kernel
theorem test_restored_state : restoredState (ckSess 8 []) = some .toolwait ∧ restoredState (ckSess 11 []) = none := by decide +kernel

/-! ## Members and stages -/

/-- Model slot 2 is a stage of a model of two stages, whose stages are on devices 0 and 63; an activation that this device sent on; the members' stages to be told. -/
def staged (stage : Nat) : State :=
  let s := hosting.setReg Dict.modelStageMap (63 * 256 ^ 62) 0 2
  { s with fb := { s.fb with models := [(2, { model with placement := 2, stages := 1, stage := stage })] }, dx := { s.dx with stages := [(2, true)] } }
def actOut : ActOut := { mid := 3, dst := 1, dom := 5, slot := 2, since := 1000000 }
def acting (s : State) : State := { s with dx := { s.dx with acts := [actOut], actsIn := [(3, 2)] } }

/-- The same, where the model's stage 0 is on device 63 and its stage 1 here. -/
def stagedFrom63 : State :=
  let s := hosting.setReg Dict.modelStageMap (63 * 256 ^ 63) 0 2
  { s with fb := { s.fb with models := [(2, { model with placement := 2, stages := 1, stage := 1 })] } }

theorem inWarp_peerState {s : State} {i : Nat} (h : (inWarp s).device = 0) (hi : i = 1 ∨ i = 63) : (inWarp s).peerState i = 2 := by
  unfold State.peerState
  rw [inWarp_digest hi, if_neg (by decide), h]
  rcases hi with rfl | rfl <;> rfl

theorem meets_MembersAndStagesAreFollowed :
    (∀ s ∈ [hosting, staged 0, staged 1, acting (staged 0)], (inWarp s).live = true ∧ (inWarp s).Linked ∧ Tbl.sorted (inWarp s).regs ∧ Tbl.sorted (inWarp s).fb.models) ∧
    (∀ e ∈ [(staged 0, from1 3 2), (acting (staged 0), from1 3 2), (staged 1, from1 3 2)], (inWarp e.1).Arrives e.2 true) ∧
    ((inWarp (acting (staged 0))).atRest ∧ (3, 2) ∈ (acting (staged 0)).dx.actsIn ∧ (3, 2) ∉ (staged 0).dx.actsIn) ∧
    (let s := inWarp (staged 0); (s.model 2).placement = 2 ∧ (s.model 2).stage < (s.model 2).stages ∧ beField 64 (s.reg Dict.modelStageMap 0 2) ((s.model 2).stage + 1) 1 = 63 ∧ ¬((s.model 3).placement = 2)) ∧
    (let s := acting (staged 0)
     let d := 1000000 * s.reg Dict.fabricOpTimeout 0 0
     (s.dx.acts.find? fun a => a.mid == 3) = some actOut ∧ (s.dx.acts.find? fun a => a.mid == 4) = none ∧ actOut.since + d ≤ Nat.max s.now (1000000 + d) ∧ ¬(actOut.since + d ≤ Nat.max s.now (999999 + d)) ∧ (s.model actOut.slot).st = 2 ∧
       (s.model actOut.slot).chans.headD 0 = 0) ∧
    (∀ p ∈ [(0, 1), (0, 63)], (inWarp hosting).CtlArrives p.1 p.2 ∧ p.2 ≠ (inWarp hosting).device ∧ (inWarp hosting).memberDigest p.2 ≠ 0 ∧ ((inWarp hosting).peer p.2).st ≠ 3) ∧
    (∀ i ∈ [1, 63], (inWarp hosting).peerState i = 2) ∧
    (let s := inWarp hosting
     let d := 1000 * s.reg Dict.warpPeerTimeout
     (s.peer 1).heard + d ≤ Nat.max s.now (1000000 + d) ∧ ¬((s.peer 1).heard + d ≤ Nat.max s.now (999999 + d))) ∧
    ((inWarp (staged 0)).CtlArrives 0 63 ∧ (let x := (inWarp (staged 0)).model 2; x.st ≠ 0 ∧ x.placement = 2 ∧ x.stage = 0 ∧ x.dom = 5 ∧ beField 64 ((inWarp (staged 0)).reg Dict.modelStageMap 0 2) 1 1 = 63) ∧ ((inWarp (staged 1)).model 2).stage ≠ 0) ∧
    ((inWarp stagedFrom63).CtlArrives 0 63 ∧ (let s := inWarp stagedFrom63; (s.model 2).stage ≠ 0 ∧ (s.model 2).placement = 2 ∧ (s.model 2).dom = 5 ∧ beField 64 (s.reg Dict.modelStageMap 0 2) 0 1 = 63)) ∧
    (2, true) ∈ (staged 0).dx.stages := by
  refine ⟨?_, arrives_all true (by decide +kernel), ⟨atRest_of (by decide +kernel), by decide +kernel, by decide +kernel⟩, by decide +kernel, by decide +kernel, ?_, ?_, by decide +kernel, ⟨ctlArrives_of (by decide +kernel), by decide +kernel, by decide +kernel⟩, ⟨ctlArrives_of (by decide +kernel), by decide +kernel⟩, by decide +kernel⟩
  · intro s hs
    simp only [List.mem_cons, List.not_mem_nil, or_false] at hs
    rcases hs with rfl | rfl | rfl | rfl <;> exact ⟨rfl, linked_of (by decide +kernel), sorted_of (by decide +kernel), sorted_of (by decide +kernel)⟩
  · intro p hp
    simp only [List.mem_cons, List.not_mem_nil, or_false] at hp
    rcases hp with rfl | rfl
    · exact ⟨ctlArrives_of (by decide +kernel), by decide +kernel, by rw [inWarp_digest (.inl rfl)]; decide, by decide +kernel⟩
    · exact ⟨ctlArrives_of (by decide +kernel), by decide +kernel, by rw [inWarp_digest (.inr rfl)]; decide, by decide +kernel⟩
  · intro i hi
    simp only [List.mem_cons, List.not_mem_nil, or_false] at hi
    exact inWarp_peerState (by decide +kernel) hi

theorem test_activation_lost : ok (.activationTimeout (1000000 + 1000000 * base.reg Dict.fabricOpTimeout 0 0) 3) (acting (staged 0)) (fun u => decide ((u.model 2).st = 4 ∧ u.dx.acts = [])) = true := by decide +kernel
theorem test_activation_waits : ok (.activationTimeout 2000000 3) (acting (staged 0)) (fun u => decide (u.dx.acts = [actOut])) = true := by decide +kernel
theorem test_heartbeats_alone : ok (.heartbeatSend 5) { hosting with dx := { hosting.dx with peers := [] } } (fun u => decide (u.out = [])) = true := by decide +kernel
theorem test_peer_absent : ok (.peerTimeout 2000000000 1) hosting (fun u => decide (u.dx.peers = hosting.dx.peers)) = true := by decide +kernel

/-! ## Checkpoints -/

/-- What a coordinator of domain 5 has set. -/
def ckSet (s : State) : State :=
  ((((s.setReg Dict.ckptDomain 5).setReg Dict.ckptCommitKey 9).setReg Dict.ckptShardKey 9 0).setReg Dict.ckptShardKey 9 1).setReg Dict.ckptFlow 7
def ckBegin (count p : Nat) : QDesc := { ctl 0x58 count with d := { desc 0x58 count 0 with dataRef := p } }

/-- CHECKPOINT_BEGIN runs as command 1, and the checkpoint is as k says. -/
def ckRun : DRun := { id := 1, q := ckBegin 0 102, since := 99 }
def cking (k : Ckpt) : State :=
  let s := (ckSet { hosting with tx := base.tx }).setReg Dict.ckptShardBytes 1000000 0
  { s with ck := k, ss := { s.ss with rings := [(5, { running := [ckRun], nextId := 2 })] }, sl := { s.sl with flows := [(7, { st := 1, cfg := { ports := 1, dom := 5 } })] } }
def coordinating (st : Nat) (devs : List Nat) : Ckpt := { st := st, p := 102, cmd := some (5, 1), devs := devs, noticeAt := 1000000, cutAt := 1000000 }
def armed (st : Nat) : Ckpt := { st := st, p := 102, coord := 1, cutAt := 1000000 }
def heldBy (s : State) : State := { s with sv := { s.sv with held := true } }
def ckMsg (src p : Nat) : CkMsg := { src := src, slot := 0, p := p }

/-- A restore at its coordinator, one device of two having answered. -/
def restoring : Ckpt := { st := 5, p := 90, r := 102, cmd := some (5, 1), devs := [0, 1], answers := [ckMsg 0 90] }

/-- A fold that lays one domain's shards after another, where no domain's shards change the state. -/
theorem shards_fold {s : State} (h : ∀ d, (s.domainShards d).2 = s) :
    ∀ (l : List Nat) (a : List Shard), l.foldl (fun a d => let r := a.2.domainShards d; (a.1 ++ r.1, r.2)) (a, s) = (a ++ l.flatMap fun d => (s.domainShards d).1, s)
  | [], a => by simp
  | d :: l, a => by
    rw [List.foldl_cons]
    dsimp only
    rw [h d, shards_fold h l]
    simp

theorem shards_of {s : State} (h : ∀ d, (s.domainShards d).2 = s) : s.shards = ((List.range 4096).flatMap fun d => (s.domainShards d).1, s) := by
  unfold State.shards
  rw [shards_fold h, List.nil_append]

/-- A device that holds nothing writes no shard. -/
theorem lays_nothing {s : State} (h : ∀ d, s.domainShards d = ([], s)) : s.layShards = ([], [], s) := by
  unfold State.layShards
  rw [shards_of fun d => by rw [h d], List.flatMap_eq_nil_iff.mpr fun d _ => by rw [h d]]
  rfl

theorem cking_shards (k : Ckpt) : (cking k).layShards = ([], [], cking k) := lays_nothing fun _ => rfl

theorem grows {α β : Type} {f : Bytes × β → α → Bytes × β} (h : ∀ a x, a.1.length < (f a x).1.length) : ∀ (l : List α) a, a.1.length + l.length ≤ (l.foldl f a).1.length
  | [], _ => Nat.le_refl _
  | x :: l, a => by
    have h1 := h a x
    have h2 := grows h l (f a x)
    rw [List.foldl_cons, List.length_cons]
    omega

theorem shard_length (s : State) (x : Shard) : 0 < (s.sealShard x).1.1.length := by
  unfold State.sealShard
  simp only [List.length_append, List.length_cons]
  omega

theorem lays_some {s : State} (h : s.shards.1 ≠ []) : 0 < s.layShards.1.length := by
  have hl := List.length_pos_iff.mpr h
  have hg : s.shards.1.length ≤ s.layShards.1.length := by
    unfold State.layShards
    refine Nat.le_trans (Nat.le_add_left _ _) (grows (fun a x => ?_) _ _)
    have := shard_length a.2.2 x
    simp only [List.length_append, pad64]
    omega
  omega

/-- A device whose shards do not fit in its shard area, and one that has no signature index left. -/
def ckFull : State := let s := (cking (armed 3)).setReg Dict.ckptShardBytes 0 0; { s with sv := { s.sv with budgets := [(5, { bal := 1 })] } }
def ckSpent : State := let s := cking (armed 3); { s with nv := { s.nv with sigEnd := s.sc.n } }

theorem ckFull_shards : ckFull.reg Dict.ckptShardBytes ckFull.ck.slot < ckFull.layShards.1.length := by
  have h0 : ckFull.reg Dict.ckptShardBytes ckFull.ck.slot = 0 := by decide +kernel
  rw [h0]
  refine lays_some ?_
  have hs : ∀ d, (ckFull.domainShards d).2 = ckFull := fun _ => rfl
  rw [shards_of hs]
  refine List.ne_nil_of_mem (a := ((ckFull.domainShards 5).1.headD { kind := 0, dom := 0, chan := 0, items := [] })) (List.mem_flatMap.mpr ⟨5, by simp, ?_⟩)
  have h5 : ∃ x, (ckFull.domainShards 5).1 = [x] := ⟨_, rfl⟩
  obtain ⟨x, hx⟩ := h5
  rw [hx]
  exact List.mem_singleton_self x

theorem ckArrives_of {s : State} {link : Nat} {m : CkMsg}
    (h : decide ((m.src = 1 ∧ m.minVersion ≤ 1) ∧ (inWarp s).live = true ∧ (link < 48 ∧ m.src < 64 ∧ (inWarp s).linkLive link = true) ∧ (inWarp s).device = 0 ∧ linkedB (inWarp s) = true) = true) : (inWarp s).CkArrives link m :=
  let ⟨⟨_, version⟩, rest⟩ := of_decide_eq_true h
  let c := ctlArrives_of rest
  ⟨c.link.1, c.link.2.1, .inr ⟨c, version⟩⟩

/-- The tables that a checkpoint's statements ask for. -/
theorem cking_tables {s : State} (h : decide (s.live = true ∧ linkedB s = true ∧ rising s.regs = true ∧ rising s.ss.cq = true ∧ rising s.ss.rings = true) = true) :
    s.live = true ∧ s.Linked ∧ Tbl.sorted s.regs ∧ Tbl.sorted s.ss.cq ∧ Tbl.sorted s.ss.rings :=
  let ⟨live, linked, regs, cq, rings⟩ := of_decide_eq_true h
  ⟨live, linked_of linked, sorted_of_rising regs, sorted_of_rising cq, sorted_of_rising rings⟩

/-- A package that drains. -/
def drainingPkg (s : State) : State := { s with pw := { s.pw with pkg := .draining } }

theorem meets_CheckpointsBeginAndAreTold :
    (∀ s ∈ [cking {}, cking (coordinating 1 [0]), cking (armed 4), drainingPkg (cking {}), ckSet (asked (ckBegin 0 102)), asked (ckBegin 0 102)], s.live = true ∧ s.Linked ∧ Tbl.sorted s.regs ∧ Tbl.sorted s.ss.cq ∧ Tbl.sorted s.ss.rings) ∧
    (∀ p ∈ [(0, 102), (1, 2 ^ 48 - 1), (2, 102), (3, 102), (0, 101), (0, 2 ^ 48)], (ckSet (asked (ckBegin p.1 p.2))).Starts 5 0x58 (ckBegin p.1 p.2) [] ∧ (asked (ckBegin p.1 p.2)).Starts 5 0x58 (ckBegin p.1 p.2) []) ∧
    (let s := ckSet hosting
     (s.ckCommon 5 true = none ∧ s.ckCommon 6 true = some stDenied ∧ s.ckCommon 5 false = some stBad ∧ (cking (coordinating 1 [0])).ckCommon 5 true = some stHold) ∧ (s.pk.current + 2 ≤ 102 ∧ ¬(s.pk.current + 2 ≤ 101)) ∧ s.lastP < 102 ∧
       s.reg Dict.ckptCommitKey ≠ 0 ∧ s.reg Dict.ckptShardKey 0 ≠ 0 ∧ s.reg Dict.ckptShardKey 1 ≠ 0 ∧ 2 ≤ s.sigLeft ∧ s.pw.pkg = .serving ∧ (drainingPkg s).pw.pkg = .draining) ∧
    (∀ m ∈ [ckMsg 1 102, ckMsg 1 103], ∀ s ∈ [cking {}, cking { ended := some (102, true) }, cking (armed 1), cking (coordinating 4 [0, 1]), drainingPkg (cking {})], (inWarp s).CkArrives 0 m) ∧
    ((cking { ended := some (102, true) }).ck.ended = some ((ckMsg 1 102).p, true) ∧ (cking (armed 1)).ck.st ≠ 0 ∧ (cking (armed 1)).ck.cmd = none ∧ (cking {}).ck.st = 0 ∧ (cking (coordinating 4 [0, 1])).ck.cmd ≠ none) ∧
    (let k := coordinating 4 [0, 1]; 1 ∈ k.devs ∧ (∀ a ∈ k.answers, a.src ≠ 1) ∧ k.cmd ≠ none ∧ (armed 4).coord ≠ (cking (armed 4)).device) := by
  refine ⟨?_, ?_, by decide +kernel, ?_, by decide +kernel, by decide +kernel⟩
  · intro s hs
    refine cking_tables ?_
    revert s
    decide +kernel
  · intro p hp
    simp only [List.mem_cons, List.not_mem_nil, or_false] at hp
    rcases hp with rfl | rfl | rfl | rfl | rfl | rfl <;> exact ⟨starts_of (by decide +kernel), starts_of (by decide +kernel)⟩
  · intro m hm s hs
    refine ckArrives_of ?_
    revert m s
    decide +kernel

theorem meets_CheckpointsCutAndAbort :
    (∀ s ∈ [heldBy (cking (armed 1)), cking (coordinating 4 [0, 1]), cking (armed 4)], s.live = true ∧ s.Linked ∧ Tbl.sorted s.regs ∧ Tbl.sorted s.ss.cq ∧ Tbl.sorted s.ss.rings) ∧
    (let s := heldBy (cking (armed 1)); s.ck.st = 1 ∧ s.sv.held = true ∧ s.sv.run = none ∧ s.pk.barrier = none) ∧
    (∀ m ∈ [ckMsg 1 102, ckMsg 1 103], ∀ s ∈ [cking {}, cking (armed 4), cking (coordinating 4 [0, 1])], (inWarp s).CkArrives 0 m) ∧ (cking (coordinating 4 [0, 1])).Runs 5 ckRun ∧
    (let s := cking (coordinating 1 [0]); s.ck.cmd ≠ none ∧ s.ck.noticeAt + 1000000 * s.reg Dict.ckptTimeout ≤ Nat.max s.now 60001000000 ∧ Nat.max s.now 60000999999 < s.ck.noticeAt + 1000000 * s.reg Dict.ckptTimeout) ∧
    (let s := cking (armed 4); s.ck.cmd = none ∧ s.ck.cutAt ≠ 0 ∧ s.ck.cutAt + 1000000 * s.reg Dict.ckptTimeout ≤ Nat.max s.now 60001000000 ∧ Nat.max s.now 60000999999 < s.ck.cutAt + 1000000 * s.reg Dict.ckptTimeout) := by
  refine ⟨?_, by decide +kernel, ?_, runs_of (by decide +kernel), by decide +kernel, by decide +kernel⟩
  · intro s hs
    refine cking_tables ?_
    revert s
    decide +kernel
  · intro m hm s hs
    refine ckArrives_of ?_
    revert m s
    decide +kernel

theorem meets_ShardsAreWrittenAndCommitted :
    (∀ s ∈ [cking (coordinating 3 [0]), cking (coordinating 3 [0, 1]), cking (armed 3), cking (armed 4), cking restoring], s.live = true ∧ s.Linked ∧ Tbl.sorted s.regs ∧ Tbl.sorted s.ss.cq ∧ Tbl.sorted s.ss.rings) ∧
    (∀ k ∈ [coordinating 3 [0], coordinating 3 [0, 1], armed 3],
      (cking k).layShards.1.length ≤ (cking k).reg Dict.ckptShardBytes k.slot ∧ (cking k).flowReady ((cking k).reg Dict.ckptFlow) = true ∧ (takeIndex ((cking k).layShards.2.2.slotWrite 0 (cking k).layShards.1)).map (·.1) = some 3 ∧ 3 + 1 < (cking k).nv.sigEnd) ∧
    ((armed 3).coord ≠ (cking (armed 3)).device ∧ (coordinating 3 [0]).coord = (cking {}).device ∧ (coordinating 3 [0]).cmd ≠ none ∧ (∀ m : CkMsg, m.src = 0 → (coordinating 3 [0]).lastAnswer m ∧ ¬(coordinating 3 [0, 1]).lastAnswer m)) ∧
    (ckFull.ck.st = 3 ∧ ckFull.reg Dict.ckptShardBytes ckFull.ck.slot < ckFull.layShards.1.length) ∧
    (ckSpent.ck.st = 3 ∧ ckSpent.layShards.1.length ≤ ckSpent.reg Dict.ckptShardBytes ckSpent.ck.slot ∧ takeIndex (ckSpent.layShards.2.2.slotWrite 0 ckSpent.layShards.1) = none) ∧
    (∀ m ∈ [ckMsg 1 102, ckMsg 1 103, { ckMsg 1 90 with r := 102 }], ∀ s ∈ [cking { ended := some (102, true) }, cking { ended := some (102, false) }, cking { coordinating 4 [0, 1] with answers := [ckMsg 0 102] }, cking (armed 4), cking restoring], (inWarp s).CkArrives 0 m) ∧
    (let s := inWarp (cking { coordinating 4 [0, 1] with answers := [ckMsg 0 102] }); s.Runs 5 ckRun ∧ s.ck.lastAnswer (ckMsg 1 102) ∧ s.ck.p = 102 ∧ s.sc.n < s.nv.sigEnd) ∧
    ((armed 4).st = 4 ∧ (armed 4).p = (ckMsg 1 102).p ∧ restoring.st = 5 ∧ restoring.r = 102) := by
  refine ⟨?_, ?_, ⟨by decide +kernel, rfl, by decide +kernel, fun m hm => ?_⟩, ⟨rfl, ckFull_shards⟩, ⟨rfl, ?_⟩, ?_, ⟨runs_of (by decide +kernel), ?_, rfl, by decide +kernel⟩, by decide +kernel⟩
  · intro s hs
    refine cking_tables ?_
    revert s
    decide +kernel
  · intro k hk
    rw [cking_shards]
    refine ⟨Nat.zero_le _, ?_⟩
    revert k
    decide +kernel
  · simp [Ckpt.lastAnswer, coordinating, hm]
  · rw [show ckSpent.layShards = ([], [], ckSpent) from lays_nothing fun _ => rfl]
    exact ⟨Nat.zero_le _, by decide +kernel⟩
  · intro m hm s hs
    refine ckArrives_of ?_
    revert m s
    decide +kernel
  · show ({ coordinating 4 [0, 1] with answers := [ckMsg 0 102] } : Ckpt).lastAnswer (ckMsg 1 102)
    simp [Ckpt.lastAnswer, coordinating, ckMsg]

theorem test_checkpoint_begins : ok (.checkpointBegin 5 5 true) (ckSet (asked (ckBegin 2 102))) (fun u => decide (u.ck.st = 1 ∧ u.ck.p = 102 ∧ u.ck.slot = 0 ∧ u.ck.cmd = some (5, 1) ∧ u.pk.barrier.map (·.p) = some 102)) = true := by decide +kernel
theorem test_checkpoint_too_soon : ok (.checkpointBegin 5 5 true) (ckSet (asked (ckBegin 0 101))) (fun u => decide (u.ck.st = 0 ∧ (u.cq 5).written = 1)) = true := by decide +kernel
theorem test_checkpoint_cut : ok (.checkpointCut 5) (heldBy (cking (armed 1))) (fun u => decide (u.ck.st = 3)) = true := by decide +kernel
theorem test_commit_taken : ok (.ckptCommit 5 0 (ckMsg 0 102)) (cking { armed 4 with coord := 0 }) (fun u => decide (u.ck.ended = some (102, false) ∧ u.lastP = 102)) = true := by decide +kernel
theorem test_abort_ends_command : ok (.ckptAbort 5 0 { ckMsg 0 102 with cause := 3 }) (cking (coordinating 4 [0])) (fun u => decide (u.ck.ended = some (102, true) ∧ u.ck.resume = true ∧ (u.dring 5).running = [] ∧ (u.cq 5).written = 1)) = true := by decide +kernel
theorem test_notice : ok (.ckptNotice 5 0 (ckMsg 0 102)) (cking {}) (fun u => decide (u.ck.st = 1 ∧ u.pk.barrier.map (·.p) = some 102)) = true := by decide +kernel
theorem test_checkpoint_timeout : ok (.checkpointTimeout 60001000000) (cking (armed 4)) (fun u => decide (u.ck.st = 0 ∧ u.ck.resume = true)) = true := by decide +kernel
theorem test_written_waits : ok (.ckptWritten 5 0 (ckMsg 0 102) true) (cking (coordinating 4 [0, 1])) (fun u => decide (u.ck.answers = [ckMsg 0 102] ∧ u.ck.st = 4)) = true := by decide +kernel
theorem test_write_failure_aborts : ok (.ckptWritten 5 0 (ckMsg 0 102) false) (cking (coordinating 4 [0])) (fun u => decide (u.ck.ended = some (102, true) ∧ (u.cq 5).written = 1)) = true := by decide +kernel

/-- The restore record for pick 102, of the newest checkpoint, all domains and the automatic map; and what the commit area holds. -/
def restoreBytes : Bytes := [1, 1, 2, 0, 255, 255, 0, 0] ++ leBytes 8 102 ++ List.replicate 48 0 ++ List.replicate 64 255
def commitOf (slot p : Nat) (good : Bool) : CkCommit := { slot := slot, warp := 0, p := p, coord := 0, members := [{ dev := 0, len := 0, off := 0, key := 9, identity := 77, digest := 0 }], keyDigest := 77, sigOk := good }
def restoreCmd : QDesc := defines 0x59 0 128

theorem meets_RestoresReachEveryDevice :
    (∀ k ∈ [{}, restoring, { armed 5 with r := 102 }], (inWarp (cking k)).live = true ∧ (inWarp (cking k)).Linked ∧ Tbl.sorted (inWarp (cking k)).regs ∧ Tbl.sorted (inWarp (cking k)).ss.cq ∧ Tbl.sorted (inWarp (cking k)).ss.rings) ∧
    (((ckSet (asked restoreCmd)).at 5).Starts 5 0x59 restoreCmd [] ∧ ((ckSet (asked restoreCmd)).at 5).Brings 5 restoreCmd (some restoreBytes) restoreBytes ∧ ((asked restoreCmd).at 5).Starts 5 0x59 restoreCmd []) ∧
    (let s := ckSet hosting
     s.ckCommon 5 (descBare restoreCmd.d && decide (restoreCmd.d.count = 0) && decide (restoreCmd.d.dataLen = 128)) = none ∧ hosting.ckCommon 5 true = some stDenied ∧ 2 ≤ s.sigLeft ∧ restoreOk restoreBytes 100 = true ∧ restoreOk restoreBytes 101 = false ∧
       pickCommit 2 [commitOf 0 80 true, commitOf 1 90 true, commitOf 1 95 false] = some (commitOf 1 90 true) ∧ pickCommit 0 [commitOf 1 90 true] = none) ∧
    (∀ m ∈ [{ ckMsg 1 90 with r := 102 }, { ckMsg 1 90 with r := 103 }], ∀ k ∈ [({} : Ckpt), { ended := some (102, false) }, restoring, { restoring with devs := [0, 1, 63] }, armed 1],
(inWarp (cking k)).CkArrives 0 m) ∧
    ((1 : Nat) ≠ (inWarp (cking {})).device ∧ (inWarp (cking {})).ck.st = 0 ∧ (inWarp (cking {})).ck.ended ≠ some (102, false) ∧ (inWarp (cking (armed 1))).ck.st ≠ 0) ∧
    (let answers := (restoring.answers.filter fun a => a.src != 1) ++ [{ ckMsg 1 90 with r := 102 }]; (∀ j ∈ restoring.devs, ∃ a ∈ answers, a.src = j) ∧ ¬(∀ j ∈ ({ restoring with devs := [0, 1, 63] } : Ckpt).devs, ∃ a ∈ answers, a.src = j)) ∧
    (inWarp (cking restoring)).Runs 5 ckRun := by
  refine ⟨?_, ⟨starts_of (by decide +kernel), brings_of (by decide +kernel), starts_of (by decide +kernel)⟩, by decide +kernel, ?_, by decide +kernel, by decide +kernel, runs_of (by decide +kernel)⟩
  · intro k hk
    simp only [List.mem_cons, List.not_mem_nil, or_false] at hk
    rcases hk with rfl | rfl | rfl <;> exact ⟨rfl, linked_of (by decide +kernel), sorted_of (by decide +kernel), sorted_of (by decide +kernel), sorted_of (by decide +kernel)⟩
  · intro m hm k hk
    refine ckArrives_of ?_
    revert m k
    decide +kernel

theorem test_restore_begins : ok (.restoreBegin 5 5 (some restoreBytes) [commitOf 0 80 true, commitOf 1 90 true]) (ckSet (asked restoreCmd)) (fun u => decide (u.ck.st = 5 ∧ u.ck.slot = 1 ∧ u.ck.p = 90 ∧ u.ck.r = 102 ∧ u.ck.devs = [0])) = true := by decide +kernel
theorem test_restore_without_commit : ok (.restoreBegin 5 5 (some restoreBytes) [commitOf 1 90 false]) (ckSet (asked restoreCmd)) (fun u => decide (u.ck.st = 0 ∧ (u.cq 5).written = 1)) = true := by decide +kernel
theorem test_restore_done : ok (.restoreDone 5 0 { ckMsg 0 90 with r := 102, restored := 3, unrestored := 1 }) (cking { restoring with devs := [0], answers := [] }) (fun u => decide (u.ck.ended = some (102, false) ∧ (u.dring 5).running = [] ∧ (u.cq 5).written = 1)) = true := by
  decide +kernel
theorem test_pick_moves : movePick 90 102 50 = 62 ∧ movePick 90 50 30 = 1 ∧ movePick 90 102 0 = 0 := by decide +kernel

/-! ## Faults, counters, isolation -/

def swept (s : State) : State := { s with fa := { s.fa with sweeping := [0, 3] } }
def audited (last : Option Nat) : State := { hosting with pk := { hosting.pk with lastAct := some 999000 }, fa := { hosting.fa with lastAudit := last } }
def unbalanced : State := { audited none with sv := { hosting.sv with budgets := [(5, { bal := 1 })] } }
def tracked : State := { hosting with fb := { hosting.fb with track := [(3, [{ cls := 2, slot := 4095, gen := 1, since := 1000000 }])] } }
def lawsOf (s : State) : List (Option AuditFail) := [s.auditFrames, s.auditCredits, s.auditBudget, s.auditHomes, s.auditTracker]

theorem meets_FaultsActAsWritten :
    (∀ s ∈ [base, { base with fns := [] }, swept base, audited none, audited (some 60), unbalanced, tracked], s.live = true ∧ Tbl.sorted s.fns ∧ Tbl.sorted s.regs) ∧
    (∀ c ∈ [0, 3], (base.fn (.dom (18 * c + 16))).st ≠ .off ∧ (({ base with fns := [] } : State).fn (.dom (18 * c + 16))).st = .off ∧ (swept base).fa.sweeping.contains c = true ∧ base.fa.sweeping.contains c = false) ∧
    (((audited none).fa.lastAudit = none ∧ (audited none).pk.lastAct.isSome = true) ∧ ((audited (some 100)).fa.lastAudit = some 100 ∧ ¬(100 + (audited (some 100)).reg Dict.auditInterval ≤ (audited (some 100)).pk.current))) ∧
    (∀ x ∈ lawsOf (audited none), x = none) ∧ (∃ x ∈ lawsOf unbalanced, x ≠ none) ∧ unbalanced.fa.fatal = false ∧
    (((tracked.tracks 3).find? fun y => y.slot == 4095) = some { cls := 2, slot := 4095, gen := 1, since := 1000000 } ∧ tracked.now < 1000000 + 1000000 * tracked.reg Dict.fabricOpTimeout ∧
      1000000 + 1000000 * tracked.reg Dict.fabricOpTimeout ≤ Nat.max tracked.now (1000000 + 1000000 * tracked.reg Dict.fabricOpTimeout) ∧ tracked.tm.moves = [] ∧ tracked.se.subs = [] ∧ (∀ e ∈ tracked.sl.flows, e.2.ops = []) ∧ tracked.fb.track.length = 1) := by
  refine ⟨?_, by decide +kernel, by decide +kernel, by decide +kernel, by decide +kernel, by decide +kernel, by decide +kernel⟩
  intro s hs
  simp only [List.mem_cons, List.not_mem_nil, or_false] at hs
  rcases hs with rfl | rfl | rfl | rfl | rfl | rfl | rfl <;> exact ⟨rfl, sorted_of (by decide +kernel), sorted_of (by decide +kernel)⟩

theorem test_channel_fault : ok (.channelFault 5 3 7) base (fun u => decide (u.fn (.dom 70) = { st := .off, pend := .none, fault := true } ∧ (u.fn (.dom 55)).st = .off ∧ (u.fn (.dom 37)).st = .on)) = true := by decide +kernel
theorem test_sweep_ends : ok (.channelSweepComplete 5 3) (swept base) (fun u => decide (u.fa.sweeping = [0])) = true := by decide +kernel
theorem test_audit_passes : ok (.conservationAudit 5) (audited none) (fun u => decide (u.fa.lastAudit = some 100 ∧ u.reg Dict.auditBudget = 1)) = true := by decide +kernel
theorem test_audit_fails : ok (.conservationAudit 5) unbalanced (fun u => decide (u.pw.pkg = .isolated)) = true := by decide +kernel
theorem test_tracker_timeout : ok (.trackerOpTimeout (1000000 + 1000000 * base.reg Dict.fabricOpTimeout) 3 4095) tracked (fun u => decide (u.tracks 3 = [])) = true := by decide +kernel

/-- Hub counter 7, channel counter 15 of channel 3 and the trace, in these states. -/
def counting (f : Fn) (m : Mon) : State :=
  { base with fns := (List.range 80).map (fun n => (n, on)) ++ [(100, on), (200, on), (407, f), (563, f), (600, f)], mn := { base.mn with mons := [(407, m), (563, m)], trace := { base.mn.trace with due := m.counting, full := m.counting } } }

theorem meets_CountersAndTraceTransition :
    (∀ s ∈ [counting { st := .starting } { counting := true }, counting { st := .stopping } {}, counting on { due := some (1, 0, 100, 0) }], s.live = true ∧ Tbl.sorted s.fns ∧ Tbl.sorted s.mn.mons) ∧
    (∀ f ∈ [FnId.hubMon 7, .chMon 3 15], f.exists = true ∧ FnId.isCounter f = true ∧
      (let s := counting { st := .starting } { counting := true }; (s.fn f).st = .starting ∧ (s.mon f).counting = true) ∧ (let s := counting { st := .stopping } { due := some (1, 0, 100, 0) }; (s.fn f).st = .stopping ∧ (s.mon f).counting = false ∧ (s.fn f).pend ≠ .on) ∧
      (let s := counting on { due := some (1, 0, 100, 0) }; (s.fn f).st = .on ∧ (s.mon f).due.isSome = true) ∧ (let s := counting { st := .starting } {}; (s.fn f).st = .starting ∧ (s.mon f).counting = false)) ∧
    (∀ f ∈ [{ st := .starting }, { st := .stopping }, on], (let s := counting f { counting := true }; s.mn.trace.due = true ∧ s.fn .trace = f ∧ s.mn.trace.full = true) ∧ (counting f {}).mn.trace.due = false ∧ (counting f {}).mn.trace.full = false) := by
  refine ⟨?_, by decide +kernel, by decide +kernel⟩
  intro s hs
  simp only [List.mem_cons, List.not_mem_nil, or_false] at hs
  rcases hs with rfl | rfl | rfl <;> exact ⟨rfl, sorted_of (by decide +kernel), sorted_of (by decide +kernel)⟩

theorem test_counter_starts : ok (.monitorTransition 5 (.hubMon 7)) (counting { st := .starting } { counting := true }) (fun u => decide (u.fn (.hubMon 7) = on)) = true := by decide +kernel
theorem test_window_end : ok (.monitorWindowEnd 5 (.chMon 3 15)) (counting on { due := some (1, 0, 100, 0) }) (fun u => decide ((u.mon (.chMon 3 15)).snap = some (1, 0, 100, 0) ∧ (u.mon (.hubMon 7)).snap = none)) = true := by decide +kernel
theorem test_trace_stops : ok (.traceStopPick 5) (counting on { counting := true }) (fun u => decide ((u.fn .trace).st = .off)) = true := by decide +kernel
theorem test_trace_full : ok (.traceBufferFull 5) (counting on { counting := true }) (fun u => decide ((u.fn .trace).st = .stopping)) = true := by decide +kernel

theorem meets_HandleNamesChannelSlotAndHome : chOf (2 ^ 20 - 1) = 3 ∧ (2 ^ 20 - 1 : Nat) < 2 ^ 20 := by decide

theorem meets_CounterWrapsAndKeepsTheExactCount :
    (let s : State := { counting on { value := 2 ^ 48 - 1, wraps := 65534 } with regs := [(regKey Dict.monConfig 7 0, 0x80 * 256 ^ 20)] }
     Tbl.sorted s.mn.mons ∧ 2 ^ 48 ≤ (s.mon (.hubMon 7)).value + 1 ∧ bit (beField 24 (s.monCfg (.hubMon 7)) 3 1) 7 = true ∧ ((s.monAdd (.hubMon 7) 0xFF 7 0x10 1).mon (.hubMon 7)).wraps = 65535) ∧
    (let s := counting on { value := 2 ^ 48 - 1 }; ((s.monAdd (.hubMon 7) 0xFF 7 0x10 1).mon (.hubMon 7)).wraps < 0xFFFF) := ⟨⟨sorted_of (by decide +kernel), by decide +kernel⟩, by decide +kernel⟩

theorem meets_SealedChannelHidesOtherDomains : (let s : State := { base with fns := base.fns ++ [(300, on)] }; s.isOn (.seal 0) = true ∧ 6 ≠ s.reg Dict.sealDomain 0) := by decide +kernel

/-- An isolated package, whose FORCE_OFF_N is held or not. -/
def isolated (held : Bool) : State := { State.reset with pw := { State.reset.pw with pkg := .isolated, isolated := true, forceOff := held } }

theorem meets_IsolatedDeviceAnswersAndHoldsNothing :
    (∀ p ∈ [(Instr.powerRemoval 5, true), (.forceOffRelease 5, true), (.heartbeatSend 5, true)], (isolated p.2).pw.pkg = .isolated ∧ (ok p.1 (isolated p.2) fun _ => true) = true) ∧
    ((isolated true).live = false ∧ (isolated true).lostAll ∧ (match step { isolated true with pending := [.powerRemoval 5] } with
      | .next u => !u.live
      | _ => false) = true) := by
  refine ⟨by decide +kernel, by decide +kernel, ⟨rfl, ?_⟩, by decide +kernel⟩
  intro p hp
  simp only [List.mem_cons, List.not_mem_nil, or_false] at hp
  rcases hp with rfl | rfl | rfl | rfl | rfl | rfl | rfl | rfl | rfl | rfl | rfl <;> rfl

theorem test_isolated_is_silent : ok (.heartbeatSend 5) (isolated true) (fun u => decide (u.out = [] ∧ u.pw.pkg = .isolated)) = true := by decide +kernel
theorem test_isolated_until_release : ok (.forceOffRelease 5) (isolated true) (fun u => decide (u.pw.pkg ≠ .isolated)) = true := by decide +kernel

/-! ## The wire -/

/-- The header of the last packet of a protected WRITE of 16 bytes on flow 7, every multi-byte field with a first byte of its own. -/
def wireHdr : SHdr := { op := 0x03, flow := 0x0107, psn := 0x020304, ackReq := true, last := true, first := false, prot := true, ackPsn := 0x050607, syndrome := 0, target := 0x10000009, offset := 0x0102030405060708, length := 16, parity := 1, domain := 5, aux := 0x0A0B0C0D }

/-- A flit of the command channel from device 1 to device 2. -/
def wireFlit : Flit :=
  { vc := 2, dst := 2, src := 1, typ := 0x20, first := true, last := true, prot := true, parity := 1, hops := 1, seq := 0x123, ackSeq := 0xFED, ackValid := true, nak := false, crVc := 3, crClass := 1, crTotal := 0x456
    crcOk := true, pay := List.replicate 240 0xA5 }

theorem meets_SlaiskHeadersAreReadBack : wireHdr.Fits := by unfold SHdr.Fits; decide +kernel

theorem meets_FlitsAreReadBack : FlitFits wireFlit := by unfold FlitFits; decide +kernel

theorem test_slaisk_header : wireHdr.bytes.take 16 = [0x11, 0x03, 0x01, 0x07, 0x02, 0x03, 0x04, 0x0D, 0x05, 0x06, 0x07, 0x00, 0x10, 0x00, 0x00, 0x09] ∧
    wireHdr.bytes.drop 16 = [0x01, 0x02, 0x03, 0x04, 0x05, 0x06, 0x07, 0x08, 0x00, 0x10, 0x80, 0x05, 0x0A, 0x0B, 0x0C, 0x0D] := by decide +kernel

theorem test_flit_header : (flitBody wireFlit).take 8 = [0x82, 0x06, 0x0F, 0x41, 0x23, 0, 0, 0] ∧ (flitBody wireFlit).drop 248 = [0xFE, 0xD8, 0xD4, 0x56] := by decide +kernel

/-! ## Well-formedness: each check refuses a term -/

/-- Every command of the list is ill formed. -/
def refusedAll (l : List Instr) : Bool := l.all fun i => !i.wf

def farPkt : SPkt := { pkt 0 0 0 [] with port := 2 }
def farEnv : DEnv := { from1 0 0 with link := 48 }
def farMsg : CkMsg := { src := 64, slot := 0, p := 0 }
def nearMsg : CkMsg := { src := 1, slot := 0, p := 0 }
def counted (die hbm : Nat) : Sensors := { volt := 0, amp := 0, powBits := 0, powMw := 0, die := List.replicate die 40, hbm := List.replicate hbm 40 }
def anyPick : PickMsg := { version := 1, minVersion := 1, flags := 0, align := 0, pick := 0, accum := 0, hops := 0, root := 0, barrier := 0 }
def anyIp : IpMsg := { vid := 0, target := 0, sender := 0, v6 := false, request := true, odd := false, data := [] }

theorem test_wf_package :
    refusedAll [.bootComplete 0 (List.replicate 15 64), .throttleEvaluate 0 (counted 4 8), .throttleEvaluate 0 (counted 5 7), .hbmRefreshDoubling 0 8 40, .chpowerRequest 0 (env 3) 18 1, .hubPowerRequest 0 (env 3) 8 1,
      .functionStartComplete 0 (.dom 80) [], .functionStartFail 0 (.port 2), .functionStopComplete 0 (.link 48), .monitorTransition 0 (.hubMon 16), .monitorTransition 0 (.chMon 4 0), .monitorWindowEnd 0 (.chMon 3 16),
      .functionStopComplete 0 (.window 65536), .functionStartFail 0 (.seal 4), .monRequest 0 (env 3) true 16 1, .monConfigWrite 0 (env 3) false 16 0, .channelFault 0 4 0, .channelSweepComplete 0 4, .fatalDetect 0 0, .fatalDetect 0 9] = true := by
  decide

theorem test_wf_secure :
    refusedAll [.roleSecretWrite 0 (env 3) 0 7, .roleSecretWrite 0 (env 3) 5 7, .attestCertReady 0 4096, .capsuleTimeout 0 4096, .epochOverlapExpire 0 4096, .sealRequest 0 (env 3) 4 1, .sealStartingComplete 0 4, .sealStoppingComplete 0 4] = true := by
  decide

theorem test_wf_sessions :
    refusedAll ([Instr.openSession 0, Instr.append 0, Instr.generate 0, Instr.park 0, Instr.revive 0, Instr.condense 0, Instr.exportSession 0, fun k => Instr.importSession 0 k none, Instr.query 0, Instr.close 0, Instr.truncate 0,
      Instr.parkPickReached 0, Instr.deepTtlExpire 0, Instr.slateTtlExpire 0, Instr.farTtlExpire 0, Instr.sessionMoveComplete 0, Instr.revivalComplete 0, Instr.closingComplete 0, Instr.generateStreamRecord 0,
      fun k => Instr.pageMoveSwitch 0 k 0 .failed, Instr.allocGraceExpire 0, fun k => Instr.maskComplete 0 k 0, Instr.prefillChunkStart 0, fun k => Instr.prefillChunkCommit 0 k [] {}, Instr.budgetGraceExpire 0, Instr.tokenisingComplete 0,
      fun k => Instr.deadlineExpire 0 (.sess k),
      fun k => Instr.decodePhaseCommit 0 { rows := [{ k := k, target := [], draft := [], late := false, hot := [], lost := [], kv := [], dkv := [] }] }].map fun f => f 1048576) = true := by
  decide

theorem test_wf_domains :
    refusedAll ([fun d => Instr.deadlineExpire 0 (.dom d), Instr.completionRecordRelease 0, fun d => Instr.modelLoad 0 d .lost, Instr.modelUnload 0, fun d => Instr.samplingDefine 0 d none, fun d => Instr.vocabLoad 0 d none,
      fun d => Instr.grammarLoad 0 d none, fun d => Instr.stopsetDefine 0 d none, fun d => Instr.select 0 d none, fun d => Instr.selectRowComplete 0 d 0 0 0 none, fun d => Instr.collectionCreate 0 d none,
      fun d => Instr.vecInsert 0 d none, fun d => Instr.vecDelete 0 d none, fun d => Instr.vecSearch 0 d none, fun n => Instr.listCompaction 0 n 0, fun d => Instr.checkpointBegin 0 d true, fun d => Instr.restoreBegin 0 d none [],
      fun d => Instr.listPassComplete 0 d 0 [] none []].map fun f => f 4096) = true := by
  decide

theorem test_wf_channels :
    refusedAll [.backgroundEviction 0 4 0, .backgroundEviction 0 3 2, .frameLeaseRelease 0 4 0 0, .frameLeaseRelease 0 0 2 0, .frameLeaseRelease 0 0 0 16777216, .frameTestComplete 0 4 0 0 [], .frameTestComplete 0 0 2 0 [],
      .frameTestComplete 0 0 0 16777216 [], .frameTestComplete 0 0 0 0 [71, 72], .tileError 0 4 0 [], .tileError 0 0 256 [], .patternLoadComplete 0 4 0 0 0, .patternLoadComplete 0 0 16 0 0, .patternLoadComplete 0 0 0 16 0,
      .patternLoadComplete 0 0 0 0 32, .trackerOpTimeout 0 4 0] = true := by
  decide

theorem test_wf_ports :
    refusedAll ([.hostPickMessage 0 2 { version := 1, minVersion := 1, typ := 0, flags := 0, resv := 0, pick := 0, tag := 0 }, .ethRequest 0 (env 3) 2 1, .portLinkUp 0 2, .portAlignmentLoss 0 2, .pfcFrameReceive 0 2 0 (List.replicate 8 0),
      .pfcFrameReceive 0 0 0 (List.replicate 7 0), .pfcRefreshTimer 0 2 0 0, .pfcRefreshTimer 0 0 8 0, .pfcWatchdogExpire 0 2 0, .pfcWatchdogExpire 0 0 8, .pfcPauseExpire 0 2 0, .pfcPauseExpire 0 0 8,
      .ptpEventMessage 0 2 { domain := 0, masterNs := 0, localNs := 0, offset := 0, delay := 0, lock := false }, .arp 0 2 anyIp, .neighborDiscovery 0 2 anyIp, .icmpEcho 0 2 anyIp, .windowStartComplete 0 65536, .windowExpire 0 65536,
      .windowStopComplete 0 65536, .ackCoalesceTimer 0 65536, .retransmitTimeout 0 65536] ++
    [Instr.slaiskSend 0, Instr.slaiskWrite 0, Instr.slaiskRead 0, Instr.slaiskAtomicAdd 0, Instr.slaiskCas 0, Instr.slaiskReadResponse 0, Instr.slaiskAtomicResponse 0, Instr.slaiskFlush 0, Instr.slaiskFlushResponse 0, Instr.windowOpen 0,
      Instr.windowRevoke 0, Instr.windowReply 0, Instr.doorbellWrite 0, Instr.slaiskAck 0, Instr.slaiskNak 0].map fun f => f farPkt) = true := by
  decide

theorem test_wf_links :
    refusedAll ([.pick 0 48 anyPick, .lost 0 48 anyPick, .barrierRequest 0 48 0 anyPick, .barrierRequest 0 0 64 anyPick, .barrierDone 0 48 0 anyPick, .barrierDone 0 0 64 anyPick, .linkRequest 0 (env 3) 48 1,
      .linkTrainingComplete 0 48 { vmax := 1, vmin := 1, link := 0, device := 0, warp := 0, identity := 0, delay := 0 }, .linkTrainingFail 0 48 0, .linkFailure 0 48 false, .stopping 0 { link := 48 },
      .flitReceive 0 48 { vc := 0, dst := 0, src := 0, typ := 0, first := true, last := true, prot := false, parity := 0, hops := 0, seq := 0, ackSeq := 0, ackValid := false, nak := false, crVc := 0, crClass := 0, crTotal := 0, crcOk := true, pay := [] },
      .replayTimeout 0 48, .e2eTimeout 0 64 0, .migrationTimeout 0 64 0, .heartbeat 0 { link := 48 } 1 0, .heartbeat 0 { link := 0 } 64 0, .peerTimeout 0 64, .fatalMessage 0 { link := 48 } 1 1 0, .fatalMessage 0 { link := 0 } 64 1 0, .stageReady 0 { link := 48 } 1 0 0 5 0, .stageReady 0 { link := 0 } 64 0 0 5 0,
      .stageReady 0 { link := 0 } 1 16 0 5 0, .routeWrite 0 (env 3) 64 0] ++
    [fun e => Instr.command 0 e [], Instr.commandAck 0, fun e => Instr.migrateReserve 0 e { dom := 5, meas := 0, near := 0, deep := 0, far := 0 }, Instr.migrateReply 0,
      fun e => Instr.pageData 0 e { lpn := 0, tier := 0, count := 0, ver := 0, touch := 0 }, fun e => Instr.migrateCommitAck 0 e 0, fun e => Instr.activation 0 { env := e }, Instr.activationAck 0, fun e => Instr.subrequest 0 e subQ none,
      fun e => Instr.subresult 0 e { ok := true, elems := [], tied := 0, kth := none, valid := 0, invalid := 0, left := 0 },
      fun e => Instr.migrateCommit 0 e { handle := 0, st := 0, prior := 0, dom := 5, prio := 0, meas := 0, length := 0, ttl := 0, since := 0, sver := 0, grammar := 0, stop := 0, sampling := 0, gstate := 0, charged := 0, slate := false, generated := false, kvLen := 0, draftLen := 0, policy := 0, tokens := [], ctx := {}, pages := [] } true].map fun f => f farEnv) = true := by
  decide

theorem test_wf_checkpoints :
    refusedAll ([Instr.ckptNotice 0, fun l m => Instr.ckptWritten 0 l m true, Instr.ckptCommit 0, Instr.ckptAbort 0, fun l m => Instr.restoreNotice 0 l m { slot := 0, warp := 0, p := 0, coord := 0, members := [], keyDigest := 0, sigOk := true } [],
      Instr.restoreDone 0].flatMap fun f => [f 48 nearMsg, f 0 farMsg]) = true := by
  decide

/-- An ill-formed command faults, whatever the state. -/
theorem test_ill_formed_faults : ∀ s : State, exec (.peerTimeout 0 64) s = .fault .noSuchObject ∧ exec (.thermalTrip 0) s ≠ .fault .noSuchObject := fun _ => ⟨rfl, fun h => by cases h⟩

end Sys2Proof.Tests
end

section
/-! SUPPORT. Proofs of the scope chapter's statements: a step and its command, a session's handle, and the Slaisk header and Dernyx flit read back from their bytes. -/

namespace Sys2Proof.Machine

open Sys2Proof

/-! ## A step and its command -/

/-- Settles O1, by the two cases of the queue. -/
theorem stepRunsTheFrontCommand : Obligations.StepRunsTheFrontCommand := by
  refine ⟨fun c s rest h => ?_, fun s h => ?_⟩
  · unfold step
    rw [h]
  · unfold step
    rw [h]

/-- A command that names an object that does not exist faults. -/
theorem exec_fault {i : Instr} (s : State) (h : i.wf = false) : exec i s = .fault .noSuchObject := by
  rcases exec_runs i s with ⟨f, e⟩ | ⟨-, f, e⟩
  · exact e.trans (run_fault h)
  · exact e.trans (runAny_fault h)

/-- Any other command completes. -/
theorem exec_next {i : Instr} (s : State) (h : i.wf = true) : ∃ u, exec i s = .next u := by
  rcases exec_runs i s with ⟨f, e⟩ | ⟨-, f, e⟩
  · exact e ▸ run_next h
  · exact e ▸ runAny_next h

/-- No command touches the queue, and each leaves the clock at its own moment or where it was. -/
theorem exec_pending_now {i : Instr} {s u : State} (h : exec i s = .next u) : u.pending = s.pending ∧ u.now = Nat.max s.now i.time :=
  ⟨exec_keeps (frame_pending rfl s) i s rfl u h, exec_keeps (frame_now rfl (s.at i.time)) i s rfl u h⟩

/-- No command takes back what has been sent. -/
theorem exec_sent {i : Instr} {s u : State} (h : exec i s = .next u) {o : Output} (ho : o ∈ s.out) : o ∈ u.out :=
  exec_keeps (sent_stable allPrims o) i s ho u h

/-- Settles O2: `exec_runs` says when a command completes, and `exec_keeps` what every completed one leaves. -/
theorem commandsCompleteOrNameAbsentObjects : Obligations.CommandsCompleteOrNameAbsentObjects := by
  intro i s
  refine ⟨exec_fault s, fun h => ?_⟩
  obtain ⟨u, hu⟩ := exec_next s h
  obtain ⟨pending, now⟩ := exec_pending_now hu
  exact ⟨u, hu, pending, now, fun _ => exec_sent hu⟩

/-! ## A session's handle (R6, R139) -/

/-- The fields of a handle's generation, device index and slot: each is read back from its place, the slot with its channel above 2^18. -/
theorem handle_fields {g d k : Nat} (hd : d < 64) (hk : k < 2 ^ 20) :
    let h := g * 2 ^ 48 + d * 2 ^ 42 + k * 2 ^ 22
    bits h 41 40 = k / 262144 ∧ bits h 39 22 = k % 2 ^ 18 ∧ bits h 41 22 = k ∧ bits h 47 42 = d := by
  simp only [bits, Nat.reduceSub, Nat.reduceAdd, Nat.reducePow] at *
  omega

/-- Settles O54: a handle is made of the fields that are read from it. -/
theorem handleNamesChannelSlotAndHome : Obligations.HandleNamesChannelSlotAndHome := by
  intro s k hk
  unfold State.handle handleSlot handleDev chOf
  exact handle_fields (Nat.mod_lt s.device (by decide)) hk

/-! ## Bytes read back (R9) -/

/-- A read that begins at or after the end of the first part is a read of the rest. -/
theorem be_append_of_le {a b : Bytes} {o n : Nat} (h : a.length ≤ o) : be (a ++ b) o n = be b (o - a.length) n := by
  unfold be
  rw [List.drop_append, List.drop_of_length_le h, List.nil_append]

/-- A read beyond a field of m bytes is a read of what follows it. -/
theorem be_skip {m o : Nat} (h : m ≤ o) (v n : Nat) (b : Bytes) : be (beBytes m v ++ b) o n = be b (o - m) n := by
  rw [be_append_of_le (by rwa [Tests.beBytes_length]), Tests.beBytes_length]

/-- A field of n bytes that its value fits is read back. -/
theorem be_beBytes_append {n v : Nat} (h : v < 256 ^ n) (b : Bytes) : be (beBytes n v ++ b) 0 n = v := by
  unfold be
  rw [List.drop_zero, List.take_left' (Tests.beBytes_length n v), Tests.beNat_beBytes, Nat.mod_eq_of_lt h]

/-- So is one with nothing after it. -/
theorem be_beBytes {n v : Nat} (h : v < 256 ^ n) : be (beBytes n v) 0 n = v := by
  simpa using be_beBytes_append h []

/-- A byte written as a number is a field of one byte. -/
theorem singleton_eq_beBytes {x : Nat} (h : x < 256) : [x] = beBytes 1 x := by
  simp [beBytes, Nat.mod_eq_of_lt h]

/-- A bit that is 0 or 1 as b is false or true. -/
theorem bit_eq_of_b2n {v i : Nat} {b : Bool} (h : v / 2 ^ i % 2 = b2n b) : bit v i = b := by
  unfold bit
  rw [h]
  cases b <;> rfl

theorem b2n_lt_two (b : Bool) : b2n b < 2 := by cases b <;> decide

/-! ## Slaisk headers (R378) -/

/-- The flag byte of a header. -/
def flagByte (ackValid ackReq last first prot : Bool) : Nat := 16 * b2n ackValid + 8 * b2n ackReq + 4 * b2n last + 2 * b2n first + b2n prot

/-- Each flag is a bit of its own, and the reserved bits above them are 0. -/
theorem flagByte_bits : ∀ a r l f p : Bool,
    bit (flagByte a r l f p) 4 = a ∧ bit (flagByte a r l f p) 3 = r ∧ bit (flagByte a r l f p) 2 = l ∧ bit (flagByte a r l f p) 1 = f ∧ bit (flagByte a r l f p) 0 = p ∧
      flagByte a r l f p < 32 := by
  decide

/-- A header's bytes as a row of big-endian fields. -/
theorem SHdr.bytes_eq_fields (h : SHdr) (hf : h.Fits) :
    h.bytes = beBytes 1 (16 * h.version + h.minVersion) ++ (beBytes 1 h.op ++ (beBytes 2 h.flow ++ (beBytes 3 h.psn ++ (beBytes 1 (flagByte h.ackValid h.ackReq h.last h.first h.prot) ++
      (beBytes 3 h.ackPsn ++ (beBytes 1 h.syndrome ++ (beBytes 4 h.target ++ (beBytes 8 h.offset ++ (beBytes 2 h.length ++ (beBytes 2 (32768 * h.parity + h.domain) ++ beBytes 4 h.aux)))))))))) := by
  obtain ⟨version, minVersion, op, -, -, -, syndrome, -⟩ := hf
  obtain ⟨-, -, -, -, -, flags⟩ := flagByte_bits h.ackValid h.ackReq h.last h.first h.prot
  rw [← singleton_eq_beBytes (by omega : 16 * h.version + h.minVersion < 256), ← singleton_eq_beBytes op, ← singleton_eq_beBytes (by omega : flagByte _ _ _ _ _ < 256),
    ← singleton_eq_beBytes syndrome]
  simp only [SHdr.bytes, flagByte, List.append_assoc, List.cons_append, List.nil_append]

/-- What is read at each of a header's places. -/
structure SHdr.Reads (h : SHdr) (b : Bytes) : Prop where
  versions : be b 0 1 = 16 * h.version + h.minVersion
  op : be b 1 1 = h.op
  flow : be b 2 2 = h.flow
  psn : be b 4 3 = h.psn
  flags : be b 7 1 = flagByte h.ackValid h.ackReq h.last h.first h.prot
  ackPsn : be b 8 3 = h.ackPsn
  syndrome : be b 11 1 = h.syndrome
  target : be b 12 4 = h.target
  offset : be b 16 8 = h.offset
  length : be b 24 2 = h.length
  domain : be b 26 2 = 32768 * h.parity + h.domain
  aux : be b 28 4 = h.aux

theorem SHdr.bytes_reads (h : SHdr) (hf : h.Fits) : SHdr.Reads h h.bytes := by
  have e := h.bytes_eq_fields hf
  obtain ⟨version, minVersion, op, flow, psn, ackPsn, syndrome, target, offset, length, parity, domain, aux⟩ := hf
  obtain ⟨-, -, -, -, -, flags⟩ := flagByte_bits h.ackValid h.ackReq h.last h.first h.prot
  constructor
  all_goals
    rw [e]
    simp (disch := omega) only [be_skip, be_beBytes_append, be_beBytes, Nat.reduceSub]

/-- A header's bytes are 32. -/
theorem SHdr.bytes_length (h : SHdr) (hf : h.Fits) : h.bytes.length = 32 := by
  rw [h.bytes_eq_fields hf]
  simp only [List.length_append, Tests.beBytes_length]

/-- The versions share a byte, and the epoch's parity and the domain share two with three reserved bits: each is read apart from the others. -/
theorem SHdr.shared_places (h : SHdr) (hf : h.Fits) :
    ((16 * h.version + h.minVersion) / 16 = h.version ∧ (16 * h.version + h.minVersion) % 16 = h.minVersion) ∧
    ((32768 * h.parity + h.domain) / 32768 = h.parity ∧ (32768 * h.parity + h.domain) % 4096 = h.domain) ∧ (32768 * h.parity + h.domain) / 4096 % 8 = 0 := by
  obtain ⟨-, minVersion, -, -, -, -, -, -, -, -, -, domain, -⟩ := hf
  omega

/-- Settles O58: every place of the header's bytes reads as what was put there (`SHdr.bytes_reads`), and the places that hold several fields keep them apart. -/
theorem slaiskHeadersAreReadBack : Obligations.SlaiskHeadersAreReadBack := by
  intro h hf
  have reads := h.bytes_reads hf
  obtain ⟨ackValid, ackReq, last, first, prot, resv⟩ := flagByte_bits h.ackValid h.ackReq h.last h.first h.prot
  obtain ⟨⟨version, minVersion⟩, ⟨parity, domain⟩, domainResv⟩ := h.shared_places hf
  refine ⟨h.bytes_length hf, ?_, ?_⟩
  · simp only [SHdr.parse, reads.versions, reads.op, reads.flow, reads.psn, reads.flags, reads.ackPsn, reads.syndrome, reads.target, reads.offset, reads.length, reads.domain, reads.aux,
      version, minVersion, parity, domain, ackValid, ackReq, last, first, prot]
  · simp only [slaiskResv, reads.flags, reads.domain, decide_eq_false (Nat.not_le.mpr resv), domainResv, ne_eq, not_true, decide_false, Bool.or_false]

/-! ## Dernyx flits (R416) -/

/-- One bit of the CRC's division keeps it in 32 bits. -/
theorem crcBit_lt {c : Nat} (h : c < 2 ^ 32) : crcBit c < 2 ^ 32 := by
  unfold crcBit
  split
  · exact Nat.xor_lt_two_pow (by omega) (by decide)
  · omega

/-- So does one byte. -/
theorem crcByte_lt {c : Nat} (h : c < 2 ^ 32) (b : Nat) : crcByte c b < 2 ^ 32 := by
  have start : c ^^^ b % 256 < 2 ^ 32 := Nat.xor_lt_two_pow h (by omega)
  unfold crcByte
  iterate 8 apply crcBit_lt
  exact start

/-- A CRC-32C fits four bytes. -/
theorem crc32c_lt (b : Bytes) : crc32c b < 2 ^ 32 := by
  have fold : b.foldl crcByte 0xFFFFFFFF < 2 ^ 32 :=
    List.foldlRecOn (motive := (· < 2 ^ 32)) b crcByte (by decide) fun _ hc x _ => crcByte_lt hc x
  exact Nat.xor_lt_two_pow fold (by decide)

/-- A byte string of the length asked for stays as it is. -/
theorem fixLen_of_length {n : Nat} {b : Bytes} (h : b.length = n) : fixLen n b = b := by
  unfold fixLen
  rw [List.take_left' h]

/-- The 64 bits of a flit's header. -/
def flitHeaderField (f : Flit) : Nat := flitHeader f.vc f.dst f.src f.typ f.first f.last f.prot f.parity f.hops f.seq

/-- The trailer's acknowledgement: a sequence number, whether it counts, and whether it is a NAK. -/
def flitAckField (f : Flit) : Nat := f.ackSeq * 16 + 8 * b2n f.ackValid + 4 * b2n f.nak

/-- The trailer's credit. -/
def flitCreditField (f : Flit) : Nat := f.crVc * 16384 + f.crClass * 4096 + f.crTotal

/-- The header fits its 8 bytes and keeps its parts apart. -/
theorem flitHeaderField_parts {f : Flit} (hf : FlitFits f) :
    let h := flitHeaderField f
    h < 256 ^ 8 ∧ bits h 63 62 = f.vc ∧ bits h 61 56 = f.dst ∧ bits h 55 50 = f.src ∧ bits h 49 44 = f.typ ∧ bit h 43 = f.first ∧ bit h 42 = f.last ∧ bit h 41 = f.prot ∧
      bits h 40 40 = f.parity ∧ bits h 39 38 = f.hops ∧ bits h 35 24 = f.seq := by
  intro h
  obtain ⟨vc, dst, src, typ, parity, hops, seq, -⟩ := hf
  have first := b2n_lt_two f.first
  have last := b2n_lt_two f.last
  have prot := b2n_lt_two f.prot
  simp only [h, flitHeaderField, flitHeader, bits, Nat.reduceSub, Nat.reduceAdd]
  refine ⟨?_, ?_, ?_, ?_, ?_, bit_eq_of_b2n ?_, bit_eq_of_b2n ?_, bit_eq_of_b2n ?_, ?_, ?_, ?_⟩ <;> omega

/-- So does the acknowledgement in its 2 bytes. -/
theorem flitAckField_parts {f : Flit} (hf : FlitFits f) :
    flitAckField f < 256 ^ 2 ∧ bits (flitAckField f) 15 4 = f.ackSeq ∧ bit (flitAckField f) 3 = f.ackValid ∧ bit (flitAckField f) 2 = f.nak := by
  obtain ⟨-, -, -, -, -, -, -, ackSeq, -⟩ := hf
  have ackValid := b2n_lt_two f.ackValid
  have nak := b2n_lt_two f.nak
  simp only [flitAckField, bits, Nat.reduceSub, Nat.reduceAdd]
  refine ⟨?_, ?_, bit_eq_of_b2n ?_, bit_eq_of_b2n ?_⟩ <;> omega

/-- And the credit. -/
theorem flitCreditField_parts {f : Flit} (hf : FlitFits f) :
    flitCreditField f < 256 ^ 2 ∧ bits (flitCreditField f) 15 14 = f.crVc ∧ bits (flitCreditField f) 13 12 = f.crClass ∧ bits (flitCreditField f) 11 0 = f.crTotal := by
  obtain ⟨-, -, -, -, -, -, -, -, crVc, crClass, crTotal, -⟩ := hf
  simp only [flitCreditField, bits, Nat.reduceSub, Nat.reduceAdd]
  omega

/-- A flit's bytes as a row of big-endian fields with the payload among them. -/
theorem flitBytes_eq_fields {f : Flit} (hpay : f.pay.length = 240) :
    flitBytes f = beBytes 8 (flitHeaderField f) ++ (f.pay ++ (beBytes 2 (flitAckField f) ++ (beBytes 2 (flitCreditField f) ++ beBytes 4 (crc32c (flitBody f))))) := by
  unfold flitBytes
  conv_lhs => arg 1; unfold flitBody
  simp only [fixLen_of_length hpay, List.append_assoc, flitHeaderField, flitAckField, flitCreditField]

/-- A flit without its CRC is 252 bytes. -/
theorem flitBody_length {f : Flit} (hpay : f.pay.length = 240) : (flitBody f).length = 252 := by
  simp only [flitBody, fixLen_of_length hpay, List.length_append, Tests.beBytes_length, hpay]

/-- What is read at each of a flit's places. -/
structure FlitReads (f : Flit) (b : Bytes) : Prop where
  header : be b 0 8 = flitHeaderField f
  pay : (b.drop 8).take 240 = f.pay
  ack : be b 248 2 = flitAckField f
  credit : be b 250 2 = flitCreditField f
  body : b.take 252 = flitBody f
  crc : be b 252 4 = crc32c (flitBody f)

theorem flitBytes_reads {f : Flit} (hf : FlitFits f) : FlitReads f (flitBytes f) := by
  obtain ⟨header, -⟩ := flitHeaderField_parts hf
  obtain ⟨ack, -⟩ := flitAckField_parts hf
  obtain ⟨credit, -⟩ := flitCreditField_parts hf
  obtain ⟨-, -, -, -, -, -, -, -, -, -, -, hpay, -⟩ := hf
  have crc := crc32c_lt (flitBody f)
  have e := flitBytes_eq_fields hpay
  have skipPay {o : Nat} (ho : 240 ≤ o) (n : Nat) (b : Bytes) : be (f.pay ++ b) o n = be b (o - 240) n := by rw [be_append_of_le (hpay ▸ ho), hpay]
  constructor
  case pay => rw [e, List.drop_left' (Tests.beBytes_length 8 _), List.take_left' hpay]
  case body => exact List.take_left' (flitBody_length hpay)
  all_goals
    rw [e]
    simp (disch := omega) only [be_skip, skipPay, be_beBytes_append, be_beBytes, Nat.reduceSub]

/-- Settles O59: every place of the flit's bytes reads as what was put there (`flitBytes_reads`), each field keeps its parts apart, and the CRC read is that of the bytes before it. -/
theorem flitsAreReadBack : Obligations.FlitsAreReadBack := by
  intro f hf
  have reads := flitBytes_reads hf
  obtain ⟨-, vc, dst, src, typ, first, last, prot, parity, hops, seq⟩ := flitHeaderField_parts hf
  obtain ⟨-, ackSeq, ackValid, nak⟩ := flitAckField_parts hf
  obtain ⟨-, crVc, crClass, crTotal⟩ := flitCreditField_parts hf
  obtain ⟨-, -, -, -, -, -, -, -, -, -, -, hpay, -, crcOk⟩ := hf
  constructor
  · simp only [flitBytes, List.length_append, flitBody_length hpay, Tests.beBytes_length]
  · simp only [parseFlit, reads.header, reads.pay, reads.ack, reads.credit, reads.body, reads.crc, vc, dst, src, typ, first, last, prot, parity, hops, seq, ackSeq, ackValid, nak, crVc, crClass,
      crTotal, decide_true, ← crcOk]

end Sys2Proof.Machine
end

section
/-! SUPPORT. Proofs of the dictionary chapter's statements on WRITE: what a write of a setting does beside replacing its value, and the settings that O8 names. -/

namespace Sys2Proof.Machine

open Sys2Proof

/-! ## Writes of one setting -/

/-- An accepted WRITE of one entry, whose effect on each object sets it, stores the value. -/
theorem stores_of {e : Entry} {sub v : Nat} {s : State} {t : Nat} {w : WEnv} {a : Assoc} {i : Instr} (he : e ∈ Dict.table) (hsub : sub < e.span) (hx : e.isSelect = false)
    (hq : quietItem (itemOf e sub v) = true) (hr : e.acc ≠ .ro) (sets : SetsTo e sub (v % 256 ^ e.size) (applyOne e sub (v % 256 ^ e.size))) (hs : Tbl.sorted s.regs)
    (h : (s.at t).Takes w a) (hi : exec i s = run i t s (welridWrite w [itemOf e sub v])) (wf : i.wf = true) (k : (s.at t).Accepts w a [itemOf e sub v]) : Stores s i w a e sub v :=
  ⟨_, hi.trans (run_wf _ wf h.live), written_setting he hsub hx hq hr sets (s := s.at t) hs h k⟩

/-! ## Settings that a WRITE only replaces (R94) -/

/-- Such an entry is none of those whose WRITE selects, requests or has another effect. -/
theorem Entry.plain_facts {e : Entry} (h : e.plain = true) : e.isSelect = false ∧ (∀ sub i, reqFn e sub i = none) ∧ ∀ sub i v (s : State), s.special e sub i v = none := by
  simp only [Entry.plain, Entry.isIn, List.any_cons, List.any_nil, Bool.or_false, Bool.not_eq_true', Bool.or_eq_false_iff] at h
  refine ⟨?_, fun sub i => ?_, fun sub i v s => ?_⟩
  · simp only [Entry.isSelect, h, Bool.or_false]
  · simp only [reqFn, h, Bool.false_eq_true, if_false]
  · simp only [State.special, roleSecrets, Entry.isIn, List.any_cons, List.any_nil, h, Bool.or_false, Bool.false_eq_true, if_false]

set_option maxRecDepth 100000 in
/-- No such entry has the address of a role's secret or of `package.reset`. -/
theorem plain_quiet {e : Entry} (he : e ∈ Dict.table) (h : e.plain = true) {sub v : Nat} (hs : sub < e.span) : quietItem (itemOf e sub v) = true := by
  have apart : (Dict.table.all fun e => !e.plain ||
      ([1, 2, 3, 4].all fun r => decide (e.addr + e.span ≤ Dict.roleSecretObserver.addr + (r - 1)) || decide (Dict.roleSecretObserver.addr + (r - 1) < e.addr)) &&
      (decide (e.addr + e.span ≤ Dict.packageReset.addr) || decide (Dict.packageReset.addr < e.addr))) = true := by decide +kernel
  have own := List.all_eq_true.mp apart e he
  simp only [h, Bool.not_true, Bool.false_or, Bool.and_eq_true, Bool.or_eq_true, decide_eq_true_eq] at own
  exact quiet_of own.1 own.2 hs

/-- An accepted WRITE of such an entry stores its value. -/
theorem plain_stores {e : Entry} {sub v : Nat} {s : State} {t : Nat} {w : WEnv} {a : Assoc} {i : Instr} (he : e ∈ Dict.table) (hp : e.plain = true) (hsub : sub < e.span) (hr : e.acc ≠ .ro)
    (hs : Tbl.sorted s.regs) (h : (s.at t).Takes w a) (hi : exec i s = run i t s (welridWrite w [itemOf e sub v])) (wf : i.wf = true) (k : (s.at t).Accepts w a [itemOf e sub v]) :
    Stores s i w a e sub v := by
  obtain ⟨select, request, special⟩ := Entry.plain_facts hp
  exact stores_of he hsub select (plain_quiet he hp hsub) hr (applyOne_plain (request sub) (fun i s => special sub i _ s) he hr) hs h hi wf k

/-! ## Settings whose WRITE does more -/

/-- `dsec.tile_groups`: the groups are applied where no step runs (R129). -/
theorem tileGroups_sets (v : Nat) : SetsTo Dict.dsecTileGroups 0 v (applyOne Dict.dsecTileGroups 0 v) :=
  applyOne_more (f := fun _ s => s.when s.sv.run.isNone applyGroups) (T := [.fb, .sv]) rfl (fun _ => rfl) (fun _ _ => rfl)
    (fun {P} hP _ _ h => when_keeps (P := P) (fun _ => applyGroups_keeps (hP.mono rfl) _) h) (by decide +kernel) (by decide)

/-- `dsess.notify_flow`: waiting notifications go out or are discarded (R157). -/
theorem notifyFlow_sets (v : Nat) : SetsTo Dict.dsessNotifyFlow 0 v (applyOne Dict.dsessNotifyFlow 0 v) :=
  applyOne_more (f := fun i s => notifyFlow i v s) (T := [.out, .ctr, .notify, .ss, .sl, .ev]) rfl (fun _ => rfl) (fun _ _ => rfl)
    (fun hP _ _ h => notifyFlow_keeps (hP.mono rfl) _ _ _ h) (by decide +kernel) (by decide)

/-- `warp.route`: messages that waited for a route go out (R428). -/
theorem route_sets (sub v : Nat) : SetsTo Dict.warpRoute sub v (applyOne Dict.warpRoute sub v) :=
  applyOne_more (f := fun _ s => s.routeWaiting.passHeld) (T := [.out, .dx, .ev]) rfl (fun _ => rfl) (fun _ _ => rfl)
    (fun hP _ _ h => State.passHeld_keeps (hP.mono rfl) _ (State.routeWaiting_keeps (hP.mono rfl) _ h)) (by decide +kernel) (by decide)

/-- Another draft slot for a model: it is written, and the draft pages written for the old one are stale (R276). -/
def newDraftSlot (m v : Nat) (s : State) : State :=
  let ks := (s.ss.tbl.filter fun e => decide (e.2.st ≠ .free) && decide (e.2.model = m)).map (·.1)
  (s.setReg Dict.mstepDraftSlot v 0 m).each ks fun k s => s.setSess k { s.sess k with draftStale := true }

theorem draftSlot_eq (m v : Nat) (s : State) : draftSlot m v s = if s.reg Dict.mstepDraftSlot 0 m = v then s else newDraftSlot m v s := rfl

theorem newDraftSlot_sets (v : Nat) : SetsTo Dict.mstepDraftSlot 0 v (fun m s => (newDraftSlot m v s).when Dict.mstepDraftSlot.persist State.store) := by
  have from_write {P : State → Prop} (hP : Stable [.ss, .ctr] P) (m : Nat) (s : State) (h : P (s.setReg Dict.mstepDraftSlot v 0 m)) :
      P ((newDraftSlot m v s).when Dict.mstepDraftSlot.persist State.store) :=
    when_keeps (P := P) (fun _ => hP.store rfl _) (each_keeps (P := P) (fun _ _ => State.setSess_keeps (hP.mono rfl) _ _ _) h)
  exact SetsTo.of (by decide +kernel) (by decide) fun m s =>
    ⟨from_write (frame_settings rfl _) m s fun _ _ _ _ _ => rfl, fun hs => from_write (sorted_stable _) m s (State.setReg_sorted s _ _ _ _ hs)⟩

/-- `mstep.draft_slot`: a value that it has already is not written again (R275). -/
theorem draftSlot_sets (v : Nat) : SetsTo Dict.mstepDraftSlot 0 v (applyOne Dict.mstepDraftSlot 0 v) := by
  intro m s hs
  have apply_eq : applyOne Dict.mstepDraftSlot 0 v m s = (draftSlot m v s).when Dict.mstepDraftSlot.persist State.store := rfl
  rw [apply_eq, draftSlot_eq]
  split
  · rename_i own
    have same : s.sameSettings (s.when Dict.mstepDraftSlot.persist State.store) := when_keeps (P := s.sameSettings) (fun _ => State.store_settings) fun _ _ _ _ _ => rfl
    have sorted : Tbl.sorted (s.when Dict.mstepDraftSlot.persist State.store).regs := when_keeps (P := fun u => Tbl.sorted u.regs) (fun u => State.setReg_sorted u _ _ _ _) hs
    refine ⟨sorted, fun m' hm => ?_, fun x hx xr sub' i' _ => same x hx xr sub' i'⟩
    rw [same _ (by decide +kernel) (by decide)]
    rcases hm with hm | rfl
    · exact hm
    · exact own
  · exact newDraftSlot_sets v m s hs

/-! ## The statement -/

/-- Settles O8: each WRITE stores its value by `plain_stores` where it only replaces it, and by what its own effect sets where it does more. -/
theorem writtenSettingIsStored : Obligations.WrittenSettingIsStored := by
  intro s t w a v hs h
  refine ⟨fun k => ?_, fun k => ?_, fun k => ?_, fun k => ?_, fun k => ?_, fun i hi k => ?_, fun c k => ?_, fun c k => ?_, fun hub n hn k => ?_, fun k => ?_⟩
  · exact plain_stores (by decide +kernel) (by decide) (by decide) (by decide) hs h rfl rfl k
  · exact plain_stores (by decide +kernel) (by decide) (by decide) (by decide) hs h rfl rfl k
  · exact stores_of (by decide +kernel) Nat.one_pos rfl (quiet_of (by decide) (by decide) Nat.one_pos) (by decide) (tileGroups_sets _) hs h rfl rfl k
  · exact stores_of (by decide +kernel) Nat.one_pos rfl (quiet_of (by decide) (by decide) Nat.one_pos) (by decide) (notifyFlow_sets _) hs h rfl rfl k
  · exact stores_of (by decide +kernel) Nat.one_pos rfl (quiet_of (by decide) (by decide) Nat.one_pos) (by decide) (draftSlot_sets _) hs h rfl rfl k
  · exact stores_of (by decide +kernel) hi rfl (quiet_of (by decide) (by decide) hi) (by decide) (route_sets i _) hs h rfl (decide_eq_true hi) k
  · cases c <;> exact plain_stores (by decide +kernel) (by decide) (by decide) (by decide) hs h rfl rfl k
  · cases c <;> exact plain_stores (by decide +kernel) (by decide) (by decide) (by decide) hs h rfl rfl k
  · cases hub <;> exact plain_stores (by decide +kernel) (by decide) hn (by decide) hs h rfl (decide_eq_true hn) k
  · exact plain_stores (by decide +kernel) (by decide) (by decide) (by decide) hs h rfl rfl k

end Sys2Proof.Machine
end

section
/-! SUPPORT. Proofs of the dictionary chapter's statement on associations: the messages of HELLO, and the events that end an association. -/

namespace Sys2Proof.Machine

open Sys2Proof

/-! ## Ending and changing an association -/

theorem endAssoc_assocs (id : Nat) (s : State) : (endAssoc id s).wr.assocs = s.wr.assocs.filter fun b => b.id != id := rfl

/-- An association of another number is there after a change to one if it was before. -/
theorem mem_setAssoc_other {s : State} {id : Nat} {f : Assoc → Assoc} (hf : ∀ a, (f a).id = a.id) {b : Assoc} (h : b.id ≠ id) : b ∈ (s.setAssoc id f).wr.assocs ↔ b ∈ s.wr.assocs := by
  unfold State.setAssoc
  rw [List.mem_map]
  constructor
  · rintro ⟨a, ha, rfl⟩
    split at h
    · rename_i own
      exact absurd ((hf a).trans own) h
    · rename_i other
      rwa [if_neg other]
  · exact fun hb => ⟨b, hb, if_neg h⟩

/-- What is there of the number of a changed association has been changed. -/
theorem mem_setAssoc_own {s : State} {id : Nat} {f : Assoc → Assoc} {b : Assoc} (h : b ∈ (s.setAssoc id f).wr.assocs) (own : b.id = id) : ∃ a, b = f a := by
  obtain ⟨a, -, rfl⟩ := List.mem_map.mp h
  split at own
  · rename_i q
    exact ⟨a, if_pos q⟩
  · rename_i q
    exact absurd own q

theorem setAssoc_mem {s : State} {f : Assoc → Assoc} {a : Assoc} (h : a ∈ s.wr.assocs) : f a ∈ (s.setAssoc a.id f).wr.assocs := List.mem_map.mpr ⟨a, h, if_pos rfl⟩

/-! ## What reaches the device -/

theorem State.Heard.hears {s : State} {w : WEnv} (h : s.Heard w) : s.hears w = true := by simp [State.hears, h.port, h.udp, h.vlan]

theorem State.Heard.header {s : State} {w : WEnv} (h : s.Heard w) : headerErr w = none := by simp [headerErr, h.version, h.kind, h.fields]

theorem State.Heard.at {s : State} {w : WEnv} (h : s.Heard w) (t : Nat) : (s.at t).Heard w := ⟨h.live, h.port, h.udp, h.vlan, h.size, h.version, h.kind, h.fields⟩

theorem State.Takes.heard {s : State} {w : WEnv} {a : Assoc} (h : s.Takes w a) : s.Heard w := ⟨h.live, h.port, h.udp, h.vlan, h.size, h.version, h.kind, h.fields⟩

/-! ## OFFER (R76, R78) -/

/-- None of R78's limits is met. -/
theorem offerLimit_none {s : State} {vmax vmin : Nat} (throttle : ∀ m, s.wr.throttleUntil = some m → m ≤ s.now) (hi : 1 ≤ vmax) (lo : vmin ≤ 1) (room : s.wr.assocs.length < 32)
    (few : (s.wr.assocs.filter fun a => !a.opened).length < 4) (index : s.sc.n < s.nv.sigEnd) : s.offerLimit vmax vmin = none := by
  have free : (s.wr.throttleUntil.any fun u => decide (s.now < u)) = false := by
    cases q : s.wr.throttleUntil with
    | none => rfl
    | some m => simpa using throttle m q
  have hellos : s.hellos < 4 := by rwa [State.hellos, List.countP_eq_length_filter]
  simp only [State.offerLimit, free, Bool.false_eq_true, if_false]
  rw [if_neg (by rw [show vmax.min 1 = 1 from Nat.min_eq_right hi, show vmin.max 1 = 1 from Nat.max_eq_right lo]; decide), if_neg (Nat.not_le_of_lt room), if_neg (Nat.not_le_of_lt hellos), if_neg (Nat.not_le_of_lt index)]

/-- A signature index below the reserved end is taken, and of all else only a notification may follow. -/
theorem takeIndex_some {s : State} (h : s.sc.n < s.nv.sigEnd) :
    ∃ u, takeIndex s = some (s.sc.n, u) ∧ u.sc.n = s.sc.n + 1 ∧ u.wrCore = s.wrCore ∧ u.now = s.now := by
  let v : State := { s with sc := { s.sc with n := s.sc.n + 1, reserving := s.sc.reserving || decide (s.nv.sigEnd < s.sc.n + 1 + 256) } }
  refine ⟨v.lowCheck s.sigLeft, if_neg (by omega), ?_, ?_, ?_⟩
  · exact congrArg Security.n (State.lowCheck_keeps (P := fun u => u.sc = v.sc) (frame_sc rfl v) v _ rfl)
  · exact State.lowCheck_keeps (P := fun u => u.wrCore = v.wrCore) (frame_wrCore rfl v) v _ rfl
  · exact State.lowCheck_keeps (P := fun u => u.now = v.now) (frame_now rfl v) v _ rfl

/-- The CHALLENGE, once a signature index is taken: an association more, a key more, and the message. -/
theorem challenge_eq {s u : State} {w : WEnv} {vmax vmin role nonce n : Nat} (taken : takeIndex s = some (n, u)) :
    ∃ a der, challenge w vmax vmin role nonce s =
        (State.ev { u with wr := { u.wr with keys := u.wr.keys + 1, nextId := u.wr.nextId % (2 ^ 32 - 1) + 1, assocs := u.wr.assocs ++ [a] } } 0x240).answer w false u.wr.nextId w.seq
          (.challenge 1 u.wr.nextId der) ∧
      a.id = u.wr.nextId ∧ a.role = role ∧ a.opened = false ∧ a.offerAt = u.now := by
  unfold challenge
  rw [taken]
  exact ⟨_, _, rfl, rfl, rfl, rfl, rfl⟩

/-- What the CHALLENGE leaves: the new association, and its key and signature index used up. -/
theorem challenge_does {s : State} {w : WEnv} {vmax vmin role nonce : Nat} (h : s.sc.n < s.nv.sigEnd) :
    ∃ a der, Output.welrid w.port w.src s.wr.nextId w.seq false (.challenge 1 s.wr.nextId der) w.loc w.udp ∈ (challenge w vmax vmin role nonce s).out ∧
      (challenge w vmax vmin role nonce s).wr.assocs = s.wr.assocs ++ [a] ∧ a.id = s.wr.nextId ∧ a.role = role ∧ a.opened = false ∧ a.offerAt = s.now ∧
      (challenge w vmax vmin role nonce s).sc.n = s.sc.n + 1 ∧ (challenge w vmax vmin role nonce s).wr.keys = s.wr.keys + 1 := by
  obtain ⟨u, taken, index, core, now⟩ := takeIndex_some h
  obtain ⟨a, der, e, id, role, opened, offerAt⟩ := challenge_eq (w := w) (vmax := vmax) (vmin := vmin) (role := role) (nonce := nonce) taken
  have assocs : u.wr.assocs = s.wr.assocs := (congrArg Welrid.assocs core :)
  have next : u.wr.nextId = s.wr.nextId := (congrArg Welrid.nextId core :)
  have keys : u.wr.keys = s.wr.keys := (congrArg Welrid.keys core :)
  rw [assocs, next, keys] at e
  rw [e]
  generalize hv : ({ u with wr := { u.wr with keys := s.wr.keys + 1, nextId := s.wr.nextId % (2 ^ 32 - 1) + 1, assocs := s.wr.assocs ++ [a] } } : State) = v
  have left : (v.ev 0x240).wrCore = v.wrCore := State.ev_wrCore _ _ _ _ _ _ _
  refine ⟨a, der, List.mem_append_right _ List.mem_cons_self, ?_, id.trans next, role, opened, offerAt.trans now, ?_, ?_⟩
  · exact (congrArg Welrid.assocs left :).trans (by rw [← hv]; rfl)
  · exact (congrArg Security.n (State.ev_sc _ _ _ _ _ _ _)).trans (by rw [← hv]; exact index)
  · exact (congrArg Welrid.keys left :).trans (by rw [← hv]; rfl)

/-- An OFFER that meets no limit is answered with a CHALLENGE. -/
theorem helloOffer_challenges {s : State} {w : WEnv} {vmax vmin role nonce : Nat} (h : s.Heard w) (limit : s.offerLimit vmax vmin = none) :
    helloOffer w vmax vmin role nonce s = challenge w vmax vmin role nonce s := by
  simp only [helloOffer, h.hears, h.size, h.header, limit, Bool.not_true, Bool.false_eq_true, if_false]

/-! ## KEY (R77, R78) -/

/-- The association that a KEY with the right role proof opens. -/
def Assoc.opens (a : Assoc) (w : WEnv) (key now : Nat) : Assoc :=
  { a with opened := true, key := key, q := 0, kept := none, lastReq := now, port := w.port, src := w.src, loc := w.loc, offer := [], keyNo := 0 }

/-- A KEY to a HELLO in progress is judged by its role proof. -/
theorem helloKey_judges {s : State} {w : WEnv} {a : Assoc} {ct proof : Nat} (h : s.Heard w) (found : (s.wr.assocs.find? fun a => a.id == w.assoc && !a.opened) = some a) :
    helloKey w ct proof s =
      if s.roleEnabled a.role && decide (proof = (s.helloKeys a ct).2) then (s.setAssoc a.id fun b => b.opens w (s.helloKeys a ct).1 s.now).answer w true a.id 0 (.accept a.role s.pk.current)
      else ((endAssoc a.id (s.when (s.roleEnabled a.role) proofFailed)).inc Dict.welridAuthFailCount).answer w false a.id w.seq (wErr 0x03) := by
  unfold helloKey
  rw [if_neg (by rw [h.hears]; decide)]
  split
  · rename_i missing
    cases found.symm.trans missing
  · rename_i b hb
    obtain rfl : a = b := Option.some.inj (found.symm.trans hb)
    rw [if_neg (by rw [h.size]; decide), if_neg (by rw [h.header]; decide)]
    generalize s.helloKeys a ct = keys
    rfl

/-- Of Welrid's state a failed proof changes the failures and the throttle only. -/
theorem proofFailed_eq (s : State) : ∃ l u, proofFailed s = { s with wr := { s.wr with fails := l, throttleUntil := u } } := ⟨_, _, rfl⟩

theorem proofFailed_assocs (s : State) : (proofFailed s).wr.assocs = s.wr.assocs := by
  obtain ⟨l, u, e⟩ := proofFailed_eq s
  rw [e]

theorem when_proofFailed_assocs (s : State) (b : Bool) : (s.when b proofFailed).wr.assocs = s.wr.assocs :=
  when_keeps (P := fun u => u.wr.assocs = s.wr.assocs) (fun u h => (proofFailed_assocs u).trans h) rfl

/-! ## BYE (R79) -/

/-- A BYE that is taken up. -/
theorem helloBye_ends {s : State} {w : WEnv} {a : Assoc} (h : s.Takes w a) : helloBye w s = endAssoc a.id s := by
  have found := h.assoc
  unfold State.assocOf at found
  simp only [helloBye, h.heard.hears, h.size, h.heard.header, found, h.tag, h.seq, Bool.not_true, Bool.false_eq_true, if_false, ne_eq, not_true_eq_false]

/-! ## The statement's parts -/

section

variable {s : State} {t : Nat} {w : WEnv}

/-- What an OFFER does that meets no limit. -/
theorem offer_challenged {vmax vmin role nonce : Nat} (h : s.Heard w) (throttle : ∀ m, s.wr.throttleUntil = some m → m ≤ Nat.max s.now t) (hi : 1 ≤ vmax) (lo : vmin ≤ 1)
    (room : s.wr.assocs.length < 32) (few : (s.wr.assocs.filter fun a => !a.opened).length < 4) (index : s.sc.n < s.nv.sigEnd) :
    ∃ u a der, exec (.helloOffer t w vmax vmin role nonce) s = .next u ∧ Output.welrid w.port w.src s.wr.nextId w.seq false (.challenge 1 s.wr.nextId der) w.loc w.udp ∈ u.out ∧
      u.wr.assocs = s.wr.assocs ++ [a] ∧ a.id = s.wr.nextId ∧ a.role = role ∧ a.opened = false ∧ a.offerAt = Nat.max s.now t ∧
      u.sc.n = s.sc.n + 1 ∧ u.wr.keys = s.wr.keys + 1 ∧ (s.at t).sameBut ([.values, .security, .securityCore, .welridCore] ++ noted) u := by
  obtain ⟨e, frame⟩ := run_does (l := [.values, .security, .securityCore, .welridCore] ++ noted) (execHelloOffer.eq_1 t w vmax vmin role nonce s) rfl h.live rfl
    fun k hs => execHelloOffer_keeps k _ _ _ _ _ _ s hs
  rw [helloOffer_challenges (h.at t) (offerLimit_none (s := s.at t) throttle hi lo room few index)] at e frame
  obtain ⟨a, der, sent, assocs, id, hrole, opened, offerAt, n, keys⟩ := challenge_does (s := s.at t) (w := w) (vmax := vmax) (vmin := vmin) (role := role) (nonce := nonce) index
  exact ⟨_, a, der, e, sent, assocs, id, hrole, opened, offerAt, n, keys, frame⟩

/-- What a KEY does to the HELLO that it names. -/
theorem key_answered {a : Assoc} (ct proof : Nat) (h : s.Heard w) (found : (s.wr.assocs.find? fun a => a.id == w.assoc && !a.opened) = some a) :
    ∃ u, exec (.helloKey t w ct proof) s = .next u ∧
      (s.roleEnabled a.role = true → proof = (s.helloKeys a ct).2 → Output.welrid w.port w.src a.id 0 true (.accept a.role s.pk.current) w.loc w.udp ∈ u.out ∧
        (∀ b ∈ u.wr.assocs, b.id = a.id → b.opened = true ∧ b.key = (s.helloKeys a ct).1 ∧ b.q = 0 ∧ b.kept = none) ∧ (∃ b ∈ u.wr.assocs, b.id = a.id ∧ b.role = a.role)) ∧
      (s.roleEnabled a.role = false ∨ proof ≠ (s.helloKeys a ct).2 → Output.welrid w.port w.src a.id w.seq false (.error 0x03 0xFF 0 0) w.loc w.udp ∈ u.out ∧ ∀ b ∈ u.wr.assocs, b.id ≠ a.id) ∧
      (∀ b, b.id ≠ a.id → (b ∈ u.wr.assocs ↔ b ∈ s.wr.assocs)) ∧ (s.at t).sameBut [.sent, .values, .welrid, .welridCore] u := by
  obtain ⟨e, frame⟩ := run_does (l := [.sent, .values, .welrid, .welridCore]) (execHelloKey.eq_1 t w ct proof s) rfl h.live rfl fun k hs => execHelloKey_keeps k _ _ _ _ s hs
  have hid : ∀ b, (Assoc.opens b w (s.helloKeys a ct).1 (s.at t).now).id = b.id := fun _ => rfl
  rw [helloKey_judges (h.at t) found] at e frame
  refine ⟨_, e, fun enabled right => ?_, fun wrong => ?_, fun b other => ?_, frame⟩
  · rw [if_pos (by rw [Bool.and_eq_true]; exact ⟨enabled, decide_eq_true right⟩)]
    refine ⟨List.mem_append_right _ List.mem_cons_self, fun b hb own => ?_, _, setAssoc_mem (List.mem_of_find?_eq_some found), rfl, rfl⟩
    obtain ⟨c, rfl⟩ := mem_setAssoc_own hb own
    exact ⟨rfl, rfl, rfl, rfl⟩
  · rw [if_neg (by rw [Bool.and_eq_true, decide_eq_true_eq, not_and_or, Bool.not_eq_true]; exact wrong)]
    refine ⟨List.mem_append_right _ List.mem_cons_self, fun b hb => ?_⟩
    exact bne_iff_ne.mp (List.mem_filter.mp hb).2
  · split
    · exact mem_setAssoc_other hid other
    · have left : b ∈ ((s.at t).when ((s.at t).roleEnabled a.role) proofFailed).wr.assocs.filter (fun b => b.id != a.id) ↔ b ∈ s.wr.assocs := by
        rw [when_proofFailed_assocs, List.mem_filter, bne_iff_ne]
        exact ⟨And.left, fun hb => ⟨hb, other⟩⟩
      exact left

/-- A BYE that is taken up ends its association and is not answered. -/
theorem bye_silent {a : Assoc} (reason : Nat) (h : (s.at t).Takes w a) :
    ∃ u, exec (.helloBye t w reason) s = .next u ∧ u.out = s.out ∧ u.wr.assocs = s.wr.assocs.filter (fun b => b.id != a.id) ∧ (s.at t).sameBut [.welrid, .welridCore] u :=
  ⟨_, (execHelloBye.eq_1 t w reason s).trans ((run_wf (s := s) _ rfl h.live).trans (congrArg Host.Outcome.next (helloBye_ends h))), rfl, rfl,
    frame_op (T := [.wr]) rfl fun hP hs => endAssoc_keeps hP _ _ hs⟩

/-- An event that ends an association where a condition holds does so then, and else nothing. -/
theorem ends_when {i : Instr} {id : Nat} {c : State → Bool} {due : Prop} (live : s.live = true) (wf : i.wf = true) (hi : exec i s = run i t s fun s => s.when (c s) (endAssoc id))
    (hc : c (s.at t) = true ↔ due) :
    ∃ u, exec i s = .next u ∧ (s.at t).sameBut [.welrid, .welridCore] u ∧ (due → u.wr.assocs = s.wr.assocs.filter (fun b => b.id != id)) ∧ (¬due → u = s.at t) := by
  refine ⟨_, hi.trans (run_wf _ wf live), frame_op (T := [.wr]) rfl fun {P} hP hs => when_keeps (P := P) (fun _ => endAssoc_keeps hP _ _) hs, fun h => ?_, fun h => ?_⟩
  · rw [State.when, if_pos (hc.mpr h)]
    rfl
  · rw [State.when, if_neg (mt hc.mp h)]

/-- A moment that has come is dropped, and a later one stays. -/
theorem filter_later (o : Option Nat) (n : Nat) : (o.filter fun m => decide (n < m)) = if o.any (fun m => decide (m ≤ n)) then none else o := by
  cases o with
  | none => rfl
  | some m =>
    by_cases h : m ≤ n
    · simp [Option.filter, h, Nat.not_lt_of_le h]
    · simp [Option.filter, h, Nat.lt_of_not_le h]

/-- The throttle ends when its time has passed (R78). -/
theorem throttle_ends (live : s.live = true) :
    ∃ u, exec (.helloThrottleExpire t) s = .next u ∧ (s.at t).sameBut [.welrid, .welridCore] u ∧
      u.wr = { s.wr with throttleUntil := s.wr.throttleUntil.filter fun m => decide (Nat.max s.now t < m) } := by
  obtain ⟨e, frame⟩ := run_does (l := [.welrid, .welridCore]) (execHelloThrottleExpire.eq_1 t s) rfl live rfl fun k hs => execHelloThrottleExpire_keeps k _ s hs
  refine ⟨_, e, frame, ?_⟩
  rw [filter_later]
  exact apply_ite State.wr (s.wr.throttleUntil.any (fun m => decide (m ≤ Nat.max s.now t)) = true) { s.at t with wr := { s.wr with throttleUntil := none } } (s.at t)
    |>.trans (apply_ite (fun o => { s.wr with throttleUntil := o }) _ none s.wr.throttleUntil).symm

end

/-! ## The statement -/

/-- Settles O18: each message and event by the lemma of its own above. -/
theorem associationsBeginAndEndAsWritten : Obligations.AssociationsBeginAndEndAsWritten := by
  intro s t w live
  refine ⟨fun vmax vmin role nonce h throttle hi lo room few index => offer_challenged h throttle hi lo room few index, fun a ct proof h found => key_answered ct proof h found,
    fun a reason h => bye_silent reason h, fun id => ?_, throttle_ends live, fun id => ?_⟩
  · refine ends_when live rfl (execHelloTimeout.eq_1 t id s) ?_
    simp only [List.any_eq_true, Bool.and_eq_true, beq_iff_eq, Bool.not_eq_true', decide_eq_true_eq, and_assoc]
    rfl
  · refine ends_when live rfl (execAssociationIdleTimeout.eq_1 t id s) ?_
    simp only [List.any_eq_true, Bool.and_eq_true, beq_iff_eq, decide_eq_true_eq, and_assoc]
    rfl

end Sys2Proof.Machine
end

section
/-! SUPPORT. Proofs of the dictionary chapter's statement on reads and writes: what each request that is taken up answers and leaves. -/

namespace Sys2Proof.Machine

open Sys2Proof

/-! ## The answer of a request -/

/-- A request that is taken up completes with its answer. -/
theorem request_completes {s : State} {t : Nat} {w : WEnv} {a : Assoc} {i : Instr} {free : Bool} {act : WAct} {r : WReply} {v : State} (h : (s.at t).Takes w a)
    (hi : exec i s = run i t s (welridRequest w free act)) (wf : i.wf = true) (answers : act a (s.at t) = (r, v, id)) : exec i s = .next ((s.at t).afterReply w a r v) := by
  have taken := welridRequest_taken h free act
  rw [answers] at taken
  exact hi.trans ((run_wf (s := s) _ wf h.live).trans (congrArg Host.Outcome.next taken))

/-- Answering changes Welrid's associations and sends the reply. -/
theorem afterReply_frame (s : State) (w : WEnv) (a : Assoc) (r : WReply) {u : State} (hu : ∀ {P : State → Prop}, Stable [.out, .wr] P → P s → P u) :
    s.sameBut [.sent, .welrid, .welridCore] (s.afterReply w a r u) :=
  frame_op (T := [.out, .wr]) rfl fun hP hs => afterReply_keeps hP s w a r (hu hP hs)

/-- The snapshots and transfers that a request leaves stay, unless its sequence was the last. -/
theorem afterReply_holds {s u : State} {w : WEnv} {a : Assoc} {r : WReply} (h : w.seq ≠ 0xFFFFFFFF) :
    (s.afterReply w a r u).wr.snaps = u.wr.snaps ∧ (s.afterReply w a r u).wr.xfers = u.wr.xfers := by
  rw [State.afterReply, State.when, if_neg (by simpa using h)]
  exact ⟨rfl, rfl⟩

theorem State.Takes.prot {s : State} {w : WEnv} {a : Assoc} (h : s.Takes w a) : w.prot = true := by
  have := List.find?_some h.assoc
  simp only [Bool.and_eq_true] at this
  exact this.1.1

/-- Every entry has an address. -/
theorem Dict.table_span : ∀ e ∈ Dict.table, 0 < e.span := fun e he =>
  of_decide_eq_true (List.all_eq_true.mp (show (Dict.table.all fun e => decide (0 < e.span)) = true by decide +kernel) e he)

/-! ## READ (R85) -/

/-- An item's value, for an entry that may be read. -/
theorem readItem_value {s : State} {e : Entry} {sub role : Nat} {sel : Sel} (he : e ∈ Dict.table) (hs : sub < e.span) (readable : e.acc ≠ .wo) (single : e.ty.isBlock = false)
    (selected : selCheck e sel true = 0) :
    s.readItem role sel { addr := e.addr + sub, describe := false, resv := false } =
      { status := 0, typ := e.ty.code, len := e.size, val := s.readVal role sel e sub ((targets e sel).headD 0) % 256 ^ e.size } := by
  simp only [State.readItem, findEntry_of_mem he hs, Bool.false_eq_true, if_false, readable, single, selected, ne_eq, not_true_eq_false]

/-- A READ of 1 to 32 items whose answer fits a datagram. -/
theorem readAct_answers {s : State} {a : Assoc} {items : List RItem} (given : items ≠ []) (few : items.length ≤ 32) (resv : ∀ it ∈ items, it.resv = false)
    (fits : 36 + sumOf (fun v => 4 + v.len) (items.map (s.readItem a.role a.sel)) ≤ 1280) :
    readAct true items a s = (.read (items.map (s.readItem a.role a.sel)), s, id) := by
  have sound : ¬(items.length = 0 ∨ 32 < items.length ∨ items.any (·.resv) = true) := by
    rintro (none | many | bad)
    · exact given (List.length_eq_zero_iff.mp none)
    · omega
    · obtain ⟨it, hit, q⟩ := List.any_eq_true.mp bad
      rw [resv it hit] at q
      cases q
  unfold readAct
  dsimp only
  rw [if_neg sound]
  exact if_neg (Nat.not_lt_of_le fits)

/-! ## READ_BLOCK (R92) -/

/-- A first READ_BLOCK of a readable entry: the segment's answer, and what is left of the snapshot is kept. -/
theorem readBlockAct_first {s : State} {a : Assoc} {e : Entry} {len : Nat} (he : e ∈ Dict.table) (span : 0 < e.span) (short : len ≤ 1024) (readable : e.acc ≠ .wo) (block : e.ty.isBlock = true)
    (selected : selCheck e a.sel true = 0) (may : s.blockReadable e = true) (room : (s.liveSnaps.filter fun x => x.assoc != a.id).length < 4) :
    let data := s.blockContent e ((targets e a.sel).headD 0)
    ∃ rest, readBlockAct e.addr 0 len a s =
      (.block e.addr 0 data.length (data.take len),
        { s with wr := { s.wr with snaps := rest ++ if data.length ≤ len then [] else [{ assoc := a.id, addr := e.addr, data := data, last := s.now }] } }, id) := by
  intro data
  have found : findEntry e.addr = some (e, 0) := findEntry_of_mem (sub := 0) he span
  have allowed : (s.dropSnap 0 a).blockMay a.sel e.addr len = 0 := by
    have may' : (s.dropSnap 0 a).blockReadable e = true := may
    simp only [State.blockMay, found, readable, block, selected, may', if_false, Bool.true_eq_false, ne_eq, not_true_eq_false]
    exact if_neg (Nat.not_lt_of_le short)
  have others : ((s.dropSnap 0 a).liveSnaps.filter fun x => x.assoc != a.id) = s.liveSnaps.filter fun x => x.assoc != a.id := by
    show List.filter _ (List.filter _ (List.filter _ s.wr.snaps)) = List.filter _ (List.filter _ s.wr.snaps)
    simp only [List.filter_filter]
    congr 1
    funext x
    have now : (s.dropSnap 0 a).now = s.now := rfl
    rw [now]
    cases x.assoc != a.id <;> simp
  refine ⟨s.liveSnaps.filter fun x => x.assoc != a.id, ?_⟩
  unfold readBlockAct
  dsimp only
  rw [allowed, if_neg (by decide), others, found]
  dsimp only
  rw [if_pos rfl]
  dsimp only
  rw [if_neg (by omega), if_neg (by simp)]
  have content : (s.dropSnap 0 a).blockContent e ((targets e a.sel).headD 0) = data := rfl
  rw [content, Nat.zero_add]
  rfl

/-! ## WRITE (R86) -/

/-- A WRITE of 1 to 32 items of which one fails. -/
theorem writeAct_refuses {s : State} {a : Assoc} {items : List WItem} {r : WReply} (given : items ≠ []) (few : items.length ≤ 32) (fails : s.checkItems a.role 0 a.sel items = some r) (ok : Bool) :
    writeAct ok items a s = (r, s, id) := by
  have counted : ¬(items.length = 0 ∨ 32 < items.length) := by
    rintro (none | many)
    · exact given (List.length_eq_zero_iff.mp none)
    · omega
  unfold writeAct
  rw [if_neg counted, fails]

/-! ## WRITE_BLOCK (R93) -/

/-- No other association's transfer keeps the entry. -/
theorem no_other_transfer {s : State} {addr scope id : Nat} (free : ∀ x ∈ s.wr.xfers, x.addr = addr → x.scope = scope → x.assoc ≠ id → x.last + 10000000000 ≤ s.now) :
    (s.wr.xfers.any fun x => (x.addr == addr && x.scope == scope) && x.assoc != id && decide (s.now < x.last + 10000000000)) = false := by
  simp only [List.any_eq_false, Bool.and_eq_true, beq_iff_eq, bne_iff_ne, decide_eq_true_eq, not_and, Nat.not_lt, and_imp]
  exact free

/-- A first segment that does not end its transfer is held. -/
theorem writeBlockAct_first {s : State} {a : Assoc} {e : Entry} {b : WBlk} (he : e ∈ Dict.table) (span : 0 < e.span) (addr : b.addr = e.addr) (resv : b.resv = false)
    (may : s.wblockMay a.role a.sel b.addr = 0) (first : b.first = true) (off : b.off = 0) (last : b.last = false) (short : b.data.length ≤ 1024) (more : b.data.length < b.total)
    (within : b.total ≤ e.ty.maxBlock)
    (free : ∀ x ∈ s.wr.xfers, x.addr = b.addr → x.scope = (targets e a.sel).headD 0 → x.assoc ≠ a.id → x.last + 10000000000 ≤ s.now) (ok : Bool) :
    writeBlockAct ok b a s =
      (.wblock b.addr, { s with wr := { s.wr with xfers := s.xfersBut b.addr ((targets e a.sel).headD 0) ++
        [{ addr := b.addr, scope := (targets e a.sel).headD 0, assoc := a.id, total := b.total, data := b.data, last := s.now }] } }, id) := by
  have found : findEntry b.addr = some (e, 0) := addr ▸ findEntry_of_mem (sub := 0) he span
  have segment : segmentOk b ([] : Bytes).length e.ty.maxBlock = true := by
    simp [segmentOk, off, last, short, within, Nat.le_of_lt more, Nat.ne_of_lt more]
  unfold writeBlockAct
  dsimp only
  rw [if_neg (by rw [resv]; decide), if_neg (by rw [may]; decide), found]
  dsimp only
  rw [no_other_transfer free, first, if_neg (by simp), if_neg (by simp), if_neg (by rw [if_pos rfl, segment]; simp), last]
  rfl

/-! ## The statement -/

/-- Settles O19: each request by what it answers, and the plain WRITE by `plain_stores`. -/
theorem readsAndWritesAreAnswered : Obligations.ReadsAndWritesAreAnswered := by
  refine ⟨fun s t w a h => ⟨fun items given few resv fits => ?_, fun e he sub hs readable single selected => ?_, fun e he len short readable block selected may room => ?_,
    fun items r given few fails => ?_, fun e he sub hs v plain writable sorted k => ?_, fun e he b addr resv first off last short more within may free => ?_⟩, fun s t live => ⟨fun id => ?_, fun addr => ?_⟩⟩
  · refine ⟨_, request_completes h (execRead.eq_1 t w items s) rfl (h.prot ▸ readAct_answers given few resv fits), afterReply_replied _ _ _ _ _, afterReply_frame _ _ _ _ fun _ hs => hs⟩
  · exact readItem_value he hs readable single selected
  · obtain ⟨rest, answers⟩ := readBlockAct_first he (Dict.table_span e he) short readable block selected may room
    refine ⟨_, request_completes h (execReadBlock.eq_1 t w e.addr 0 len s) rfl answers, afterReply_replied _ _ _ _ _, afterReply_frame _ _ _ _ fun hP hs => hP.wr rfl _ _ rfl rfl hs,
      fun left seq => ?_⟩
    rw [(afterReply_holds seq).1, if_neg (Nat.not_le_of_lt left)]
    exact List.mem_append_right _ List.mem_cons_self
  · exact ⟨_, request_completes h (execRegisterWrite.eq_1 t w items s) rfl (writeAct_refuses given few fails w.storeOk), afterReply_replied _ _ _ _ _, afterReply_frame _ _ _ _ fun _ hs => hs⟩
  · exact plain_stores he plain hs writable sorted h rfl rfl k
  · refine ⟨_, request_completes h (execWriteBlock.eq_1 t w b s) rfl (writeBlockAct_first he (Dict.table_span e he) addr resv may first off last short more within free w.storeOk), afterReply_replied _ _ _ _ _,
      afterReply_frame _ _ _ _ fun hP hs => hP.wr rfl _ _ rfl rfl hs, fun seq => ?_⟩
    rw [(afterReply_holds seq).2]
    exact List.mem_append_right _ List.mem_cons_self
  · obtain ⟨e, frame⟩ := run_does (l := [.welrid, .welridCore]) (execSnapshotExpire.eq_1 t id s) rfl live rfl fun k hs => execSnapshotExpire_keeps k _ _ s hs
    exact ⟨_, e, frame, rfl⟩
  · obtain ⟨e, frame⟩ := run_does (l := [.welrid, .welridCore]) (execBlockTransferIdle.eq_1 t addr s) rfl live rfl fun k hs => execBlockTransferIdle_keeps k _ _ s hs
    exact ⟨_, e, frame, rfl⟩

end Sys2Proof.Machine
end

section
/-! SUPPORT. Proofs of the dictionary chapter's statement on WRITE_BLOCK: what the last segment of each entry writes, or that content which is refused changes nothing. -/

namespace Sys2Proof.Machine

open Sys2Proof

/-! ## The last segment -/

/-- The state in which a last segment's content is written: the transfer is over. -/
def State.transferred (s : State) (e : Entry) (a : Assoc) : State := { s with wr := { s.wr with xfers := s.xfersBut e.addr ((targets e a.sel).headD 0) } }

/-- The answer to a last segment, by its content's code. -/
def lastReply (e : Entry) (c : Nat) : WReply := if c = 0 then .wblock e.addr else wErr c 0xFF e.addr

/-- A last segment completes with what its content writes and that content's answer; only what the content's write is made of changes, beside the association. -/
theorem lastSegment_writes (i : Instr) {T : List Prim} {l : List Part} {s : State} {t : Nat} {w : WEnv} {a : Assoc} {b : WBlk} {data : Bytes} {e : Entry} {c : Nat} {v : State}
    (h : (s.at t).Takes w a) (hw : w.storeOk = true) (he : e ∈ Dict.table) (hb : e.ty.isBlock = true) (hl : (s.at t).LastSegment a e b data)
    (hi : exec i s = run i t s (welridBlock w { b with addr := e.addr })) (wf : i.wf = true)
    (writes : writeContent true e ((targets e a.sel).headD 0) data ((s.at t).transferred e a) = (c, v))
    (el : Part.all.all (fun p => l.contains p || (T ++ [Prim.out, Prim.wr]).all p.keptBy) = true)
    (hk : ∀ {P : State → Prop}, Stable T P → P ((s.at t).transferred e a) → P v) :
    ∃ u, exec i s = .next u ∧ u.replied w a (lastReply e c) ∧ (s.at t).sameBut l u ∧ v.sameBut [.sent, .welrid, .welridCore] u := by
  obtain ⟨u, g, c', v', next, rfl, writes', rfl, replied⟩ := block_does h hw he hb hl hi wf
  obtain ⟨rfl, rfl⟩ : c' = c ∧ v' = v := Prod.mk.inj (writes'.symm.trans writes)
  refine ⟨_, next, replied, frame_op el fun {P} hP hs => ?_, frame_op (T := [.out, .wr]) rfl fun hP hs => afterReply_keeps hP _ _ _ _ hs⟩
  have hT : Stable T P := fun p hp => hP p (List.mem_append_left _ hp)
  have hR : Stable [.out, .wr] P := fun p hp => hP p (List.mem_append_right _ hp)
  exact afterReply_keeps hR _ _ _ _ (hk hT (hR.wr rfl _ _ rfl rfl hs))

/-! ## A firmware image (R106, R108) -/

/-- The slot that an image fills. -/
def imageSlot (b : Bytes) : FwSlot := { svn := leNat ((b.drop 4).take 4), ver := leNat ((b.drop 8).take 4), hdr := beNat (b.take 64), ok := true }

/-- The store with an image in the slot that does not run. -/
def State.withImage (s : State) (b : Bytes) : NV := if s.sc.running = some 0 then { s.nv with fwB := some (imageSlot b) } else { s.nv with fwA := some (imageSlot b) }

theorem fwImage_accepts {s : State} {b : Bytes} (h : imageOk s.nv.fusedSvn b) : fwImage true b s = (0, State.store { s with nv := s.withImage b }) := by
  obtain ⟨long, version, whole, low, high, fused, digest, signed⟩ := h
  simp only [fwImage, long, version, ← whole, low, high, fused, digest, signed, decide_true, Bool.and_true, Bool.true_eq_false, if_false]
  rfl

theorem fwImage_refuses {s : State} {b : Bytes} (h : ¬imageOk s.nv.fusedSvn b) : fwImage true b s = (0x10, s) := by
  unfold fwImage
  dsimp only
  refine if_pos (Bool.eq_false_iff.mpr fun good => h ?_)
  simpa only [imageOk, Bool.and_eq_true, decide_eq_true_eq, and_assoc] using good

/-! ## A domain's keys (R116, R120, R121) -/

/-- The domain's record with its pending key destroyed. -/
def DomSec.dropped (x : DomSec) : DomSec := if x.keyNo = 0 then x else { x with attest := 0, keyNo := 0 }

/-- The pending key of a domain destroyed. -/
def State.dropKey (s : State) (d : Nat) : State := if (s.domSec d).keyNo = 0 then s else dropPendingKey d s

theorem dropKey_doms (s : State) (d : Nat) : (s.dropKey d).sc.doms = if (s.domSec d).keyNo = 0 then s.sc.doms else Tbl.put {} s.sc.doms d (s.domSec d).dropped := by
  unfold State.dropKey DomSec.dropped
  split <;> rfl

theorem dropKey_nv (s : State) (d : Nat) : (s.dropKey d).nv = s.nv := by
  unfold State.dropKey
  split <;> rfl

/-- A record that is not the default is read back after it is written. -/
theorem setDomSec_read (s : State) (d : Nat) {x : DomSec} (h : x ≠ {}) : (s.setDomSec d x).domSec d = x := by
  unfold State.setDomSec State.domSec Tbl.put
  rw [if_neg h, Tbl.get_insert, if_pos rfl]

/-- Where the domain has a certificate, what is left is its record without the pending key. -/
theorem dropKey_domSec {s : State} {d : Nat} (h : (s.domSec d).cert ≠ none) : (s.dropKey d).domSec d = (s.domSec d).dropped := by
  unfold State.dropKey DomSec.dropped
  split
  · rfl
  · exact setDomSec_read s d fun e => h (congrArg DomSec.cert e :)

/-- A capsule opens for a domain with a certificate only. -/
theorem openCapsule_cert {s : State} {d : Nat} {b : Bytes} {x : Nat × Nat} {st : Bool} (h : s.openCapsule d b = (some x, st)) : (s.domSec d).cert ≠ none := by
  intro none
  unfold State.openCapsule at h
  simp only [none] at h
  cases h

/-- A capsule that does not open. -/
theorem keyCapsule_refuses {s : State} {d : Nat} {b : Bytes} {st : Bool} (h : s.openCapsule d b = (none, st)) :
    keyCapsule true d b s = (if st then 0x06 else 0x10, ((s.dropKey d).inc Dict.secCapsuleRejectCount).ev 0x243 none 1 d (some d)) := by
  unfold keyCapsule State.applyCapsule
  dsimp only
  rw [h]
  cases st <;> rfl

/-- An opened capsule's record and root secret, written and reported. -/
def capsuleWritten (d : Nat) (x : DomSec) (wrapped : Nat × Nat) (detail : Bytes) (s : State) : State :=
  ((State.store { s.setDomSec d x with nv := { s.nv with keys := Tbl.insert s.nv.keys d wrapped } }).ev 0x242 none 1 d (some d)).notify 0x0503 detail

theorem capsuleWritten_nv (d : Nat) (x : DomSec) (wrapped : Nat × Nat) (detail : Bytes) (s : State) :
    (capsuleWritten d x wrapped detail s).nv = { s.nv with keys := Tbl.insert s.nv.keys d wrapped } := by
  rw [capsuleWritten, State.notify_nv, State.ev_nv]
  rfl

theorem capsuleWritten_domSec (d : Nat) {x : DomSec} (wrapped : Nat × Nat) (detail : Bytes) (s : State) (h : x ≠ {}) : (capsuleWritten d x wrapped detail s).domSec d = x := by
  have kept : (capsuleWritten d x wrapped detail s).sc = (s.setDomSec d x).sc := by
    rw [capsuleWritten, State.notify_sc, State.ev_sc]
    rfl
  rw [State.domSec, kept]
  exact setDomSec_read s d h

/-- A capsule that opens. -/
theorem keyCapsule_accepts {s : State} {d : Nat} {b : Bytes} {root epoch : Nat} {st : Bool} (h : s.openCapsule d b = (some (root, epoch), st)) :
    ∃ v, keyCapsule true d b s = (0, v) ∧ v.nv = { s.nv with keys := Tbl.insert s.nv.keys d (Config.dukWrap root, epoch) } ∧
      (epoch ≠ 0 → ∃ c p, v.domSec d = { (s.domSec d).dropped with root := root, epoch := epoch, confirm := c, prevRoot := p }) := by
  obtain ⟨c, p, detail, e⟩ : ∃ c p detail, keyCapsule true d b s =
      (0, capsuleWritten d { (s.dropKey d).domSec d with root := root, epoch := epoch, confirm := c, prevRoot := p } (Config.dukWrap root, epoch) detail (s.dropKey d)) := by
    unfold keyCapsule State.applyCapsule
    dsimp only
    rw [h]
    exact ⟨_, _, _, rfl⟩
  refine ⟨_, e, (capsuleWritten_nv _ _ _ _ _).trans (by rw [dropKey_nv]), fun he => ⟨c, p, ?_⟩⟩
  rw [capsuleWritten_domSec _ _ _ _ fun q => he (congrArg DomSec.epoch q :), dropKey_domSec (openCapsule_cert h)]

/-! ## A flow's configuration or removal (R382, R384) -/

/-- The record may take effect: its content is sound, and no per-domain entry names its flow. -/
def State.flowMay (s : State) (b : Bytes) : Prop := s.flowOk b = true ∧ s.flowNamed (parseFlow b).1 = false

theorem flowConfig_refuses {s : State} {b : Bytes} (h : ¬s.flowMay b) : flowConfig true b s = (if s.flowOk b = false then 0x10 else 0x06, s) := by
  unfold flowConfig
  dsimp only
  split
  · rfl
  · rename_i sound
    have named : s.flowNamed (parseFlow b).1 = true := by
      by_contra free
      exact h ⟨by simpa using sound, by simpa using free⟩
    exact if_pos named

theorem flowConfig_accepts {s : State} {b : Bytes} (h : s.flowMay b) :
    flowConfig true b s = (0, settle (if (parseFlow b).2.1 = 0 then configureFlow (parseFlow b).1 (parseFlow b).2.2 s else removeFlow (parseFlow b).1 s)) := by
  obtain ⟨sound, free⟩ := h
  unfold flowConfig
  dsimp only
  rw [if_neg (by rw [sound]; decide), if_neg (by rw [free]; decide)]
  rfl

theorem abortOps_nv (s : State) (f : Nat) : (s.abortOps f).nv = s.nv := State.abortOps_keeps (P := fun u => u.nv = s.nv) (frame_nv rfl s) s f rfl

/-- The store with a flow configured: its record is held, and its generation counted on. -/
def NV.withFlow (n : NV) (f : Nat) (c : FlowCfg) : NV :=
  { n with flows := Tbl.insert n.flows f c, flowGens := Tbl.put 0 n.flowGens f ((Tbl.get 0 n.flowGens f + 1) % 2 ^ 32) }

theorem configureFlow_nv (f : Nat) (c : FlowCfg) (s : State) : (configureFlow f c s).nv = s.nv.withFlow f c := by
  rw [← abortOps_nv s f]
  rfl

theorem removeFlow_nv (f : Nat) (s : State) : (removeFlow f s).nv = { s.nv with flows := Tbl.erase s.nv.flows f } := by
  rw [← abortOps_nv s f]
  rfl

/-! ## The member table (R439) -/

theorem memberTable_refuses {s : State} {b : Bytes} (h : ¬(b.length = 2048 ∧ s.memberOk (beNat b) = true)) : memberTable true b s = (0x10, s) := by
  refine if_pos ?_
  rwa [← Bool.not_eq_true, ne_eq, ← not_and_or]

theorem memberTable_accepts {s : State} {b : Bytes} (h : b.length = 2048 ∧ s.memberOk (beNat b) = true) : memberTable true b s = (0, (memberApply (beNat b) s).store) := by
  obtain ⟨full, sound⟩ := h
  unfold memberTable
  rw [if_neg (by rw [full, sound]; simp)]
  rfl

/-- The changes that a new member table's consequences are made of. -/
def memberPrims : List Prim :=
  [.out, .ctr, .nv, .fn, .wfn, .pw, .pwAny, .pk, .notify, .sc, .scAny, .ss, .tm, .fb, .sv, .tx, .se, .sl, .slAny, .et, .dx, .fa, .journal, .mn, .mnAny, .ev]

/-- Once the table is written, what follows is made of those changes. -/
theorem memberApply_from {P : State → Prop} (h : Stable memberPrims P) {v : Nat} {s : State} (hs : P (s.setReg Dict.warpMemberTable v)) : P (memberApply v s) :=
  settle_keeps (h.mono rfl) _ (each_keeps (P := P) (fun _ _ => State.setPeer_keeps (h.mono rfl) _ _ _) (each_keeps (P := P) (fun _ _ => State.peerGone_keeps (h.mono rfl) _ _) hs))

/-- Of the settings a new member table changes its own only. -/
theorem member_settings {s u : State} {v : Nat} (hs : Tbl.sorted s.regs) (same : (s.setReg Dict.warpMemberTable v).sameSettings u) :
    u.reg Dict.warpMemberTable = v ∧ ∀ x ∈ Dict.table, x.acc ≠ .ro → ∀ sub i, regKey x sub i ≠ regKey Dict.warpMemberTable 0 0 → u.reg x sub i = s.reg x sub i :=
  ⟨(same _ (by decide +kernel) (by decide) 0 0).trans ((State.setReg_reg hs _ _ _ _ _ _).trans (if_pos rfl)),
    fun x hx xr sub i other => (same x hx xr sub i).trans (State.setReg_other other)⟩

/-! ## The statement -/

section

variable {s : State} {t : Nat} {w : WEnv} {a : Assoc} {b : WBlk} {data : Bytes}

/-- A firmware image fills the slot that does not run, or is refused. -/
theorem fwImage_written (h : (s.at t).Takes w a) (hw : w.storeOk = true) (hl : (s.at t).LastSegment a Dict.secFwImage b data) :
    ∃ u, exec (.fwImageWrite t w b) s = .next u ∧ (s.at t).sameBut [.sent, .values, .store, .storeCore, .welrid, .welridCore] u ∧
      (imageOk s.nv.fusedSvn data → u.replied w a (.wblock Dict.secFwImage.addr) ∧ u.nv = s.withImage data) ∧
      (¬imageOk s.nv.fusedSvn data → u.replied w a (.error 0x10 0xFF Dict.secFwImage.addr 0) ∧ u.nv = s.nv) := by
  generalize hr : fwImage true data ((s.at t).transferred Dict.secFwImage a) = r
  obtain ⟨c, v⟩ := r
  obtain ⟨u, next, replied, frame, left⟩ := lastSegment_writes (.fwImageWrite t w b) (T := [.ctr, .nvAny]) (l := [.sent, .values, .store, .storeCore, .welrid, .welridCore]) h hw
    (by decide +kernel) rfl hl rfl rfl hr rfl fun {P} hP hs => (show OkP P (c, v) from hr ▸ fwImage_keeps hP _ _ _ hs)
  refine ⟨u, next, frame, fun good => ?_, fun bad => ?_⟩
  · obtain ⟨rfl, rfl⟩ := Prod.mk.inj ((fwImage_accepts (s := (s.at t).transferred Dict.secFwImage a) good).symm.trans hr)
    exact ⟨replied, left .store (by decide)⟩
  · obtain ⟨rfl, rfl⟩ := Prod.mk.inj ((fwImage_refuses (s := (s.at t).transferred Dict.secFwImage a) bad).symm.trans hr)
    exact ⟨replied, left .store (by decide)⟩

/-- A key capsule brings the selected domain its keys, or is refused; either way the pending key is gone. -/
theorem keyCapsule_written (h : (s.at t).Takes w a) (hw : w.storeOk = true) (hl : (s.at t).LastSegment a Dict.dsecKeyCapsule b data) :
    ∃ u, exec (.keyCapsuleWrite t w b) s = .next u ∧ (s.at t).sameBut ([.values, .store, .storeCore, .security, .securityCore, .welridCore] ++ noted) u ∧
      (∀ root epoch st, s.openCapsule a.domSel data = (some (root, epoch), st) →
        u.replied w a (.wblock Dict.dsecKeyCapsule.addr) ∧ u.nv = { s.nv with keys := Tbl.insert s.nv.keys a.domSel (Config.dukWrap root, epoch) } ∧
        (epoch ≠ 0 → ∃ c p, u.domSec a.domSel = { (s.domSec a.domSel).dropped with root := root, epoch := epoch, confirm := c, prevRoot := p })) ∧
      (∀ st, s.openCapsule a.domSel data = (none, st) → u.replied w a (.error (if st then 0x06 else 0x10) 0xFF Dict.dsecKeyCapsule.addr 0) ∧ u.nv = s.nv ∧
        u.sc.doms = if (s.domSec a.domSel).keyNo = 0 then s.sc.doms else Tbl.put {} s.sc.doms a.domSel (s.domSec a.domSel).dropped) := by
  generalize hz : (s.at t).transferred Dict.dsecKeyCapsule a = z
  have opens : z.openCapsule a.domSel data = s.openCapsule a.domSel data := hz ▸ rfl
  have store : z.nv = s.nv := hz ▸ rfl
  have doms : z.sc = s.sc := hz ▸ rfl
  have sec : z.domSec a.domSel = s.domSec a.domSel := congrArg (fun x : Security => Tbl.get ({} : DomSec) x.doms a.domSel) doms
  generalize hr : keyCapsule true a.domSel data z = r
  obtain ⟨c, v⟩ := r
  obtain ⟨u, next, replied, frame, left⟩ := lastSegment_writes (.keyCapsuleWrite t w b) (T := [.ctr, .nvAny, .notify, .scAny, .ev])
    (l := [.values, .store, .storeCore, .security, .securityCore, .welridCore] ++ noted) h hw (by decide +kernel) rfl hl rfl rfl (hz ▸ hr) rfl
    fun {P} hP hs => (show OkP P (c, v) from hr ▸ keyCapsule_keeps hP _ _ _ _ (hz ▸ hs))
  have uStore : u.nv = v.nv := left .store (by decide)
  have uSec : u.sc = v.sc := left .security (by decide)
  refine ⟨u, next, frame, fun root epoch st good => ?_, fun st bad => ?_⟩
  · obtain ⟨v', accepted, keys, record⟩ := keyCapsule_accepts (opens.trans good)
    obtain ⟨rfl, rfl⟩ := Prod.mk.inj (accepted.symm.trans hr)
    refine ⟨replied, uStore.trans (store ▸ keys), fun he => ?_⟩
    rw [State.domSec, uSec, ← sec]
    exact record he
  · obtain ⟨rfl, rfl⟩ := Prod.mk.inj ((keyCapsule_refuses (opens.trans bad)).symm.trans hr)
    refine ⟨?_, ?_, ?_⟩
    · cases st <;> exact replied
    · rw [uStore, State.ev_nv, ← store]
      exact dropKey_nv z _
    · rw [uSec, State.ev_sc, ← doms, ← sec]
      exact dropKey_doms z _

/-- A flow record configures or removes its flow, or is refused. -/
theorem flowConfig_written (i : Instr) (hi : exec i s = run i t s (welridBlock w { b with addr := Dict.slaiskFlowConfig.addr })) (wf : i.wf = true) (h : (s.at t).Takes w a)
    (hw : w.storeOk = true) (hl : (s.at t).LastSegment a Dict.slaiskFlowConfig b data) :
    ∃ u, exec i s = .next u ∧ (s.at t).sameBut ([.storeCore] ++ settled) u ∧
      (s.flowMay data → u.replied w a (.wblock Dict.slaiskFlowConfig.addr) ∧
        ((parseFlow data).2.1 = 0 → u.nv.rest = (s.nv.withFlow (parseFlow data).1 (parseFlow data).2.2).rest) ∧
        ((parseFlow data).2.1 ≠ 0 → u.nv.rest = { s.nv with flows := Tbl.erase s.nv.flows (parseFlow data).1 }.rest)) ∧
      (¬s.flowMay data → u.replied w a (.error (if s.flowOk data = false then 0x10 else 0x06) 0xFF Dict.slaiskFlowConfig.addr 0) ∧ u.nv = s.nv) := by
  generalize hz : (s.at t).transferred Dict.slaiskFlowConfig a = z
  have store : z.nv = s.nv := hz ▸ rfl
  have sound : z.flowOk data = s.flowOk data := hz ▸ rfl
  have may : z.flowMay data ↔ s.flowMay data := hz ▸ Iff.rfl
  generalize hr : flowConfig true data z = r
  obtain ⟨c, v⟩ := r
  obtain ⟨u, next, replied, frame, left⟩ := lastSegment_writes i (T := [.out, .ctr, .nv, .nvAny, .pw, .pwAny, .pk, .notify, .sc, .ss, .tm, .fb, .sv, .se, .sl, .dx, .journal, .ev])
    (l := [.storeCore] ++ settled) h hw (by decide +kernel) rfl hl hi wf (hz ▸ hr) rfl fun {P} hP hs => (show OkP P (c, v) from hr ▸ flowConfig_keeps hP _ _ _ (hz ▸ hs))
  have uStore : u.nv = v.nv := left .store (by decide)
  refine ⟨u, next, frame, fun good => ?_, fun bad => ?_⟩
  · obtain ⟨rfl, rfl⟩ := Prod.mk.inj ((flowConfig_accepts (may.mpr good)).symm.trans hr)
    rw [uStore]
    have rest (x : State) : (settle x).nv.rest = x.nv.rest := settle_keeps (P := fun y => y.nvRest = x.nvRest) (frame_nvRest rfl x) x rfl
    refine ⟨replied, fun op => ?_, fun op => ?_⟩
    · rw [rest, if_pos op, configureFlow_nv, store]
    · rw [rest, if_neg op, removeFlow_nv, store]
  · obtain ⟨rfl, rfl⟩ := Prod.mk.inj ((flowConfig_refuses (mt may.mp bad)).symm.trans hr)
    refine ⟨?_, uStore.trans store⟩
    rw [sound] at replied
    split at replied
    · rename_i unsound; rw [if_pos unsound]; exact replied
    · rename_i unsound; rw [if_neg unsound]; exact replied

/-- A member table replaces the old one, or is refused. -/
theorem memberTable_written (sorted : Tbl.sorted s.regs) (h : (s.at t).Takes w a) (hw : w.storeOk = true) (hl : (s.at t).LastSegment a Dict.warpMemberTable b data) :
    ∃ u, exec (.memberTableWrite t w b) s = .next u ∧
      (data.length = 2048 ∧ s.memberOk (beNat data) = true → u.replied w a (.wblock Dict.warpMemberTable.addr) ∧ u.reg Dict.warpMemberTable = beNat data ∧
        ∀ x ∈ Dict.table, x.acc ≠ .ro → ∀ sub i, regKey x sub i ≠ regKey Dict.warpMemberTable 0 0 → u.reg x sub i = s.reg x sub i) ∧
      (¬(data.length = 2048 ∧ s.memberOk (beNat data) = true) → u.replied w a (.error 0x10 0xFF Dict.warpMemberTable.addr 0) ∧ (s.at t).sameBut [.sent, .welrid, .welridCore] u) := by
  by_cases ok : data.length = 2048 ∧ s.memberOk (beNat data) = true
  · obtain ⟨u, next, replied, -, left⟩ := lastSegment_writes (.memberTableWrite t w b) (l := Part.all) (T := .reg :: memberPrims) h hw (by decide +kernel) rfl hl rfl rfl
      (memberTable_accepts (s := (s.at t).transferred Dict.warpMemberTable a) ok) rfl
      fun {P} hP hs => hP.store rfl _ (memberApply_from (P := P) (hP.mono rfl) (hP.reg rfl _ _ _ _ _ hs))
    have kept : (((s.at t).transferred Dict.warpMemberTable a).setReg Dict.warpMemberTable (beNat data)).sameSettings u := by
      refine fun x hx xr sub i => (left .settings (by decide) x hx xr sub i).trans ?_
      exact State.store_settings (memberApply_from (frame_settings (T := memberPrims) rfl _) fun _ _ _ _ _ => rfl) x hx xr sub i
    exact ⟨u, next, fun _ => ⟨replied, member_settings (s := (s.at t).transferred Dict.warpMemberTable a) sorted kept⟩, fun bad => absurd ok bad⟩
  · obtain ⟨u, next, replied, frame, -⟩ := lastSegment_writes (.memberTableWrite t w b) (l := [.sent, .welrid, .welridCore]) (T := []) h hw (by decide +kernel) rfl hl rfl rfl
      (memberTable_refuses (s := (s.at t).transferred Dict.warpMemberTable a) ok) rfl fun _ hs => hs
    exact ⟨u, next, fun good => absurd good ok, fun _ => ⟨replied, frame⟩⟩

end

/-- Settles O20: each BLOCK by the lemma of its own above. -/
theorem blocksAreWrittenWhole : Obligations.BlocksAreWrittenWhole := by
  intro s t w a b data h hw
  refine ⟨fun hl => fwImage_written h hw hl, fun hl => keyCapsule_written h hw hl, fun hl => ⟨fun op => ?_, fun op => ?_⟩, fun sorted hl => memberTable_written sorted h hw hl⟩
  · obtain ⟨u, next, frame, accepted, refused⟩ := flowConfig_written (.flowConfigure t w b) rfl rfl h hw hl
    exact ⟨u, next, frame, fun ok => ⟨(accepted ok).1, (accepted ok).2.1 (op ok)⟩, refused⟩
  · obtain ⟨u, next, frame, accepted, refused⟩ := flowConfig_written (.flowRemove t w b) rfl rfl h hw hl
    exact ⟨u, next, frame, fun ok => ⟨(accepted ok).1, (accepted ok).2.2 (by rw [op ok]; decide)⟩, refused⟩

end Sys2Proof.Machine
end

section
/-! SUPPORT. Proofs of the security chapter's statements: what a command can do to the fused SVN and the claim, and a latched seal whose condition changes with the scrub. -/

namespace Sys2Proof.Machine

open Sys2Proof

/-! ## The fused SVN and the claim (R106, R82) -/

/-- What leaves the store as it was, or lets it go on from where it is, goes on from any store before. -/
theorem NvSide.trans {s t : State} {x : NV} (h : NvSide s t.nv) (q : NvSide t x) : NvSide s x := ⟨h.1.trans q.1, q.2 ∘ h.2⟩

/-- Reserving counters touches neither the fused SVN nor the claim. -/
theorem NvSide.of_rest {s : State} {x : NV} (q : x.rest = s.nv.rest) : NvSide s x := by
  have svn : x.fusedSvn = s.nv.fusedSvn := (congrArg NV.fusedSvn q :)
  have claim : x.claimed = s.nv.claimed := (congrArg NV.claimed q :)
  exact ⟨svn.ge, claim.trans⟩

/-- No change that commands are made of undoes the fused SVN or the claim. -/
theorem nvSide_stable (s : State) : Stable allPrims fun u => NvSide s u.nv := by
  intro p _
  cases p
  case nv => exact fun t x q h => h.trans (.of_rest q)
  case nvAny => exact fun t x q h => h.trans q
  case notify => exact fun t via r d h => (congrArg (NvSide s) (State.notifyVia_nv t via r d)).mpr h
  case journal => exact fun t a b c d e f g h => (congrArg (NvSide s) (State.journal_nv t a b c d e f g)).mpr h
  case ev => exact fun t a b c d e f h => (congrArg (NvSide s) (State.ev_nv t a b c d e f)).mpr h
  all_goals (intro t; intros; assumption)

/-- Settles O6: an idle step leaves the store, and a command is made of changes that all keep the fused SVN and the claim. -/
theorem fusedSvnAndClaimAreNeverUndone : Obligations.FusedSvnAndClaimAreNeverUndone := by
  intro s u h
  have same : NvSide s s.nv := ⟨Nat.le_refl _, id⟩
  unfold step at h
  split at h
  · cases h
    exact same
  · next c rest _ => exact exec_keeps (nvSide_stable s) c { s with pending := rest } same u h

/-! ## A seal's latched ON (R132, R133) -/

/-- Channel 1 is ON and seal 1 stops for domain 8, which holds keys and is SEALED, with ON latched; a session of domain 5 rests on the channel. -/
def latchedSeal : State :=
  { State.reset with
    pw := { State.reset.pw with pkg := .serving }
    fns := [(fnKey (.dom 34), { st := .on }), (fnKey (.seal 1), { st := .stopping, pend := .on })]
    regs := [(regKey Dict.sealDomain 1 0, 8), (regKey Dict.dsecClass 0 8, 2)]
    sc := { State.reset.sc with doms := [(8, { epoch := 1, root := 9, active := 1 })] }
    ss := { State.reset.ss with tbl := [(262144, { st := .toolwait, dom := 5 })] } }

/-- Before the scrub the seal may not start: the session of domain 5 is on its channel. -/
theorem latchedSeal_mayNot : (latchedSeal.at 0).startMay (.seal 1) = false := by decide +kernel

/-- The scrub frees the session's slot before the latched request is checked, and the seal starts. -/
theorem latchedSeal_starts : ∃ u, exec (.sealStoppingComplete 0 1) latchedSeal = .next u ∧ (u.fn (.seal 1)).st = .starting := ⟨_, rfl, by decide +kernel⟩

/-- Refutes O21: the last clause asks R132's condition of a latched seal in the state before the command, and the model asks it after the scrub, which ends the sessions of other domains on the
channel: in `latchedSeal` the condition fails before it and holds after it, so the seal is STARTING and not OFF. -/
theorem not_securityEventsActAsWritten : ¬ Obligations.SecurityEventsActAsWritten := by
  intro h
  obtain ⟨-, -, -, -, -, stopping⟩ := h latchedSeal 0 (by decide)
  obtain ⟨u, next, -, -, after⟩ := stopping 1 (by decide) (by unfold Tbl.sorted; decide)
  have off := (after (by decide +kernel) (by decide +kernel)).1 (.inr latchedSeal_mayNot)
  obtain ⟨v, next', starts⟩ := latchedSeal_starts
  cases next.symm.trans next'
  rw [off] at starts
  cases starts

end Sys2Proof.Machine
end

section
/-! SUPPORT. Links of the warp: what sending flits leaves of a state, and that a flit which waits on a link waits there still or has gone out. -/

namespace Sys2Proof.Machine

open Sys2Proof

/-! ## Links and members after a write -/

theorem link_setLink {s : State} (h : Tbl.sorted s.dx.links) (n : Nat) (l : Link) (m : Nat) : (s.setLink n l).link m = if m = n then l else s.link m := Tbl.get_put h

theorem peer_setPeer {s : State} (h : Tbl.sorted s.dx.peers) (i : Nat) (p : Peer) (j : Nat) : (s.setPeer i p).peer j = if j = i then p else s.peer j := Tbl.get_put h

theorem Link.queue_put {l : Link} (h : Tbl.sorted l.q) (vc : Nat) (fs : List TxFlit) (vc' : Nat) : Tbl.get [] (Tbl.put [] l.q vc fs) vc' = if vc' = vc then fs else l.queue vc' := Tbl.get_put h

/-- Only the tables of links and members are asked. -/
theorem State.Linked.of_tables {s u : State} (h : s.Linked) (links : u.dx.links = s.dx.links) (peers : u.dx.peers = s.dx.peers) : u.Linked :=
  ⟨links ▸ h.links, fun n => by unfold State.link; rw [links]; exact h.queues n, peers ▸ h.peers⟩

theorem State.Linked.of_dx {s u : State} (h : s.Linked) (e : u.dx = s.dx) : u.Linked := h.of_tables (congrArg _ e) (congrArg _ e)

theorem State.Linked.setLink {s : State} (h : s.Linked) (n : Nat) {l : Link} (hq : Tbl.sorted l.q) : (s.setLink n l).Linked := by
  refine ⟨Tbl.put_sorted h.links, fun m => ?_, h.peers⟩
  rw [link_setLink h.links]
  split
  · exact hq
  · exact h.queues m

theorem State.Linked.setPeer {s : State} (h : s.Linked) (i : Nat) (p : Peer) : (s.setPeer i p).Linked := ⟨h.links, h.queues, Tbl.put_sorted h.peers⟩

theorem link_of_dx {s u : State} (e : u.dx = s.dx) (n : Nat) : u.link n = s.link n := by
  unfold State.link
  rw [e]

/-! ## What sending leaves -/

/-- A link but for its sending side: the sequence, the replay buffer, the flits that wait, the credits used and the replays. -/
def Link.receiving (l : Link) : Link := { l with txNext := 0, replay := [], q := [], bulkRun := 0, used := [], replays := 0, idle := 0, since := none }

/-- The warp's state but for what sending flits and messages moves: links, round-robin positions, ways through, messages that wait for a way, and the count of protected messages. -/
def Dernyx.unsent (d : Dernyx) : Dernyx := { d with links := [], setRr := [], linkRr := [], transit := [], waiting := [], counter := 0 }

/-- A flit waits on a link's channel, or has gone out on the link. -/
def State.carries (s : State) (n vc : Nat) (x : TxFlit) : Prop := x ∈ (s.link n).queue vc ∨ ∃ seq, Output.flit n seq x ∈ s.out

/-- u is s after flits and messages have been sent, acknowledged or replayed: receiving sides stand, and nothing that was on its way is lost. -/
structure State.Moves (s u : State) : Prop where
  linked : u.Linked
  rest : u.dx.unsent = s.dx.unsent
  receiving : ∀ n, (u.link n).receiving = (s.link n).receiving
  carries : ∀ n vc x, s.carries n vc x → u.carries n vc x

theorem State.Moves.trans {s t u : State} (h : s.Moves t) (k : t.Moves u) : s.Moves u :=
  ⟨k.linked, k.rest.trans h.rest, fun n => (k.receiving n).trans (h.receiving n), fun n vc x c => k.carries n vc x (h.carries n vc x c)⟩

theorem State.carries.mono {s u : State} {n vc : Nat} {x : TxFlit} (c : s.carries n vc x) (l : u.link n = s.link n) (o : ∀ y ∈ s.out, y ∈ u.out) : u.carries n vc x :=
  c.imp (fun q => l ▸ q) fun ⟨seq, q⟩ => ⟨seq, o _ q⟩

/-- Changes beside the links move nothing. -/
theorem State.Moves.of_links {s u : State} (h : s.Linked) (links : u.dx.links = s.dx.links) (e : u.dx.unsent = s.dx.unsent) (o : ∀ x ∈ s.out, x ∈ u.out) : s.Moves u := by
  have same : ∀ n, u.link n = s.link n := fun n => by unfold State.link; rw [links]
  exact ⟨h.of_tables links (congrArg Dernyx.peers e :), e, fun n => by rw [same n], fun n vc x c => c.mono (same n) o⟩

theorem State.Moves.of_dx {s u : State} (h : s.Linked) (e : u.dx = s.dx) (o : ∀ x ∈ s.out, x ∈ u.out) : s.Moves u := .of_links h (congrArg _ e) (congrArg _ e) o

theorem State.Moves.refl {s : State} (h : s.Linked) : s.Moves s := .of_dx h rfl fun _ => id

/-- A new record of one link moves flits where its receiving side stands and what waited there is carried on. -/
theorem State.Moves.of_setLink {s u : State} {n : Nat} {l : Link} (h : s.Linked) (e : u.dx = (s.setLink n l).dx) (o : ∀ x ∈ s.out, x ∈ u.out) (receiving : l.receiving = (s.link n).receiving)
    (queues : Tbl.sorted l.q) (waits : ∀ vc x, x ∈ (s.link n).queue vc → u.carries n vc x) : s.Moves u := by
  have link : ∀ m, u.link m = if m = n then l else s.link m := fun m => (link_of_dx e m).trans (link_setLink h.links n l m)
  refine ⟨(h.setLink n queues).of_dx e, (congrArg Dernyx.unsent e :), fun m => ?_, fun m vc x c => ?_⟩
  · rw [link m]
    split
    · next q => rw [q, receiving]
    · rfl
  · by_cases q : m = n
    · subst q
      exact c.elim (waits vc x) fun ⟨seq, g⟩ => .inr ⟨seq, o _ g⟩
    · exact c.mono ((link m).trans (if_neg q)) o

/-! ## Flits go out (R417, R419) -/

/-- What a channel could send is the first of its queue. -/
theorem Link.ready_queue {l : Link} {vc : Nat} {f : TxFlit} (h : l.ready vc = some f) : ∃ rest, l.queue vc = f :: rest := by
  unfold Link.ready at h
  split at h
  · cases h
  · next x rest q =>
    split at h
    · cases h
      exact ⟨rest, q⟩
    · cases h

/-- The flit that goes next is the first of its channel's queue. -/
theorem Link.next_queue {l : Link} {vc : Nat} {f : TxFlit} (h : l.next = some (vc, f)) : ∃ rest, l.queue vc = f :: rest := by
  refine l.ready_queue ?_
  unfold Link.next at h
  split at h
  · cases h; assumption
  · cases h; assumption
  · split at h <;> (cases h; assumption)
  · cases h; assumption
  · cases h; assumption
  · cases h

/-- The record of a link on which the first flit of a channel has gone out. -/
def Link.sent (l : Link) (vc : Nat) (f : TxFlit) (now : Nat) : Link :=
  { l with
    txNext := (l.txNext + 1) % 4096, replay := l.replay ++ [(l.txNext, f)], q := Tbl.put [] l.q vc ((l.queue vc).drop 1)
    bulkRun := if vc = 2 then Nat.min 4 (l.bulkRun + 1) else if vc = 0 then 0 else l.bulkRun
    used := Tbl.put 0 l.used (4 * vc + f.hops) ((Tbl.get 0 l.used (4 * vc + f.hops) + 1) % 4096), since := if l.since.isSome then l.since else some now }

/-- A flit that goes out is the first of its channel's queue. -/
theorem sendFlit_does {s u : State} {n : Nat} (e : s.sendFlit n = some u) : ∃ vc f rest, (s.link n).queue vc = f :: rest ∧
    u = ((s.setLink n ((s.link n).sent vc f s.now)).send (.flit n ((((s.link n).txNext + 1) % 4096 + 4095) % 4096) f)).ev 0x1C0 none 1 n := by
  unfold State.sendFlit at e
  dsimp only at e
  split at e
  · cases e
  · obtain ⟨⟨vc, f⟩, next, rfl⟩ := Option.map_eq_some_iff.mp e
    obtain ⟨rest, queue⟩ := Link.next_queue next
    exact ⟨vc, f, rest, queue, rfl⟩

/-- Sending a flit adds it to what the link keeps for replay. -/
theorem sendFlit_moves {s u : State} {n : Nat} (h : s.Linked) (e : s.sendFlit n = some u) : s.Moves u ∧ ∀ m, (s.link m).replay <+: (u.link m).replay := by
  obtain ⟨vc, f, rest, queue, rfl⟩ := sendFlit_does e
  generalize hv : State.send _ _ = v
  have dx : v.dx = (s.setLink n ((s.link n).sent vc f s.now)).dx := hv ▸ rfl
  have out : v.out = s.out ++ [.flit n ((((s.link n).txNext + 1) % 4096 + 4095) % 4096) f] := hv ▸ rfl
  have dx' := (State.ev_dx v 0x1C0 none 1 n none none).trans dx
  have link : ∀ m, (v.ev 0x1C0 none 1 n).link m = if m = n then (s.link n).sent vc f s.now else s.link m := fun m => (link_of_dx dx' m).trans (link_setLink h.links n _ m)
  refine ⟨.of_setLink h dx' (fun x hx => State.ev_sent _ _ _ _ _ _ _ (out ▸ List.mem_append_left _ hx)) rfl (Tbl.put_sorted (h.queues n)) fun vc' x hx => ?_, fun m => ?_⟩
  · unfold State.carries
    rw [link n, if_pos rfl, Link.queue, Link.sent, Link.queue_put (h.queues n), queue]
    split
    · next same =>
      rw [same, queue] at hx
      rcases List.mem_cons.mp hx with rfl | later
      · exact .inr ⟨_, State.ev_sent _ _ _ _ _ _ _ (out ▸ List.mem_append_right _ List.mem_cons_self)⟩
      · exact .inl later
    · exact .inl hx
  · rw [link m]
    split
    · next same => rw [same]; exact List.prefix_append _ _
    · exact List.prefix_rfl

/-- Sending what can go, with any fuel. -/
theorem pumpSome_moves (k n : Nat) {s : State} (h : s.Linked) : s.Moves (State.pumpSome k n s) ∧ ∀ m, (s.link m).replay <+: ((State.pumpSome k n s).link m).replay := by
  induction k generalizing s with
  | zero => exact ⟨.refl h, fun _ => List.prefix_rfl⟩
  | succ k ih =>
    unfold State.pumpSome
    split
    · exact ⟨.refl h, fun _ => List.prefix_rfl⟩
    · next u e =>
      obtain ⟨moves, replay⟩ := sendFlit_moves h e
      obtain ⟨moves', replay'⟩ := ih moves.linked
      exact ⟨moves.trans moves', fun m => (replay m).trans (replay' m)⟩

theorem pumpLink_moves {s : State} (h : s.Linked) (n : Nat) : s.Moves (s.pumpLink n) := (pumpSome_moves _ n h).1

theorem pumpLink_replay {s : State} (h : s.Linked) (n m : Nat) : (s.link m).replay <+: ((s.pumpLink n).link m).replay := (pumpSome_moves _ n h).2 m

/-- Queueing flits carries them, and loses none. -/
theorem queueFlits_moves {s : State} (h : s.Linked) (n vc : Nat) (fs : List TxFlit) : s.Moves (s.queueFlits n vc fs) ∧ ∀ x ∈ fs, (s.queueFlits n vc fs).carries n vc x := by
  unfold State.queueFlits
  dsimp only
  generalize hv : State.setLink s n _ = v
  have queue : ∀ vc', (v.link n).queue vc' = if vc' = vc then (s.link n).queue vc ++ fs else (s.link n).queue vc' := fun vc' => by
    rw [← hv, link_setLink h.links, if_pos rfl, Link.queue, Link.queue_put (h.queues n)]
  have moves : s.Moves v := by
    refine .of_setLink h (congrArg State.dx hv.symm) (fun x hx => hv ▸ hx) rfl (Tbl.put_sorted (h.queues n)) fun vc' x hx => .inl ?_
    rw [queue]
    split
    · next same => exact List.mem_append_left _ (same ▸ hx)
    · exact hx
  have pumped := pumpLink_moves moves.linked n
  exact ⟨moves.trans pumped, fun x hx => pumped.carries n vc x (.inl (by rw [queue, if_pos rfl]; exact List.mem_append_right _ hx))⟩

/-! ## Acknowledgements and replays (R419) -/

/-- What a link keeps for replay after an acknowledgement of a flit: those behind it, or all where it keeps no such flit. -/
def Link.behind (l : Link) (ack : Nat) : List (Nat × TxFlit) :=
  match findIdx? (fun e => e.1 == ack) l.replay with
  | some j => l.replay.drop (j + 1)
  | none => l.replay

theorem ackLink_moves {s : State} (h : s.Linked) (n ack : Nat) : s.Moves (s.ackLink n ack) ∧ (s.link n).behind ack <+: ((s.ackLink n ack).link n).replay := by
  unfold State.ackLink Link.behind
  dsimp only
  cases findIdx? (fun e => e.1 == ack) (s.link n).replay with
  | none => exact ⟨.refl h, List.prefix_rfl⟩
  | some j =>
    dsimp only
    generalize hv : State.setLink s n _ = v
    have link : v.link n = { s.link n with replay := (s.link n).replay.drop (j + 1), idle := 0, since := if (s.link n).replay.drop (j + 1) = [] then none else some s.now } := by
      rw [← hv, link_setLink h.links, if_pos rfl]
    have moves : s.Moves v := .of_setLink h (congrArg State.dx hv.symm) (fun x hx => hv ▸ hx) rfl (h.queues n) fun vc x hx => .inl (by rw [link]; exact hx)
    exact ⟨moves.trans (pumpLink_moves moves.linked n), by simpa only [link] using pumpLink_replay moves.linked n n⟩

/-- The record of a link that replays. -/
def Link.replayed (l : Link) (now : Nat) : Link := { l with replays := (l.replays + 1) % 2 ^ 32, idle := l.idle + 1, since := some now }

/-- Sending each flit of a list sends them all, and does nothing else. -/
theorem sendEach_sends (n : Nat) (l : List (Nat × TxFlit)) (s : State) :
    (s.each l fun e s => s.send (.flit n e.1 e.2)) = { s with out := s.out ++ l.map fun e => Output.flit n e.1 e.2 } := by
  induction l generalizing s with
  | nil => simp [State.each]
  | cons e l ih =>
    show State.each (s.send (.flit n e.1 e.2)) l _ = _
    rw [ih]
    simp [State.send]

/-- A link that keeps nothing replays nothing. -/
theorem replayLink_nothing {s : State} {n : Nat} (h : (s.link n).replay = []) : s.replayLink n = s := by
  unfold State.replayLink
  dsimp only
  rw [if_pos h]

/-- A replay sends every flit that the link keeps, and is counted. -/
theorem replayLink_replays {s : State} {n : Nat} (h : (s.link n).replay ≠ []) :
    s.replayLink n = { ((s.setLink n ((s.link n).replayed s.now)).inc Dict.dnxReplayCount).ev 0x1C5 none 1 n with
      out := (((s.setLink n ((s.link n).replayed s.now)).inc Dict.dnxReplayCount).ev 0x1C5 none 1 n).out ++ (s.link n).replay.map fun e => Output.flit n e.1 e.2 } := by
  unfold State.replayLink
  dsimp only
  rw [if_neg h, sendEach_sends]
  rfl

theorem replayLink_dx {s : State} {n : Nat} (h : (s.link n).replay ≠ []) : (s.replayLink n).dx = (s.setLink n ((s.link n).replayed s.now)).dx := by
  rw [replayLink_replays h]
  exact State.ev_dx _ _ _ _ _ _ _

theorem replayLink_sent {s : State} {n : Nat} {e : Nat × TxFlit} (h : e ∈ (s.link n).replay) : Output.flit n e.1 e.2 ∈ (s.replayLink n).out := by
  rw [replayLink_replays (List.ne_nil_of_mem h)]
  exact List.mem_append_right _ (List.mem_map_of_mem h)

theorem replayLink_counted {s : State} {n : Nat} (hs : Tbl.sorted s.regs) (h : (s.link n).replay ≠ []) : s.counted Dict.dnxReplayCount (s.replayLink n) := by
  rw [replayLink_replays h]
  exact (ev_reg _ _ _ _ _ _ _ _).trans (inc_counted hs Dict.dnxReplayCount)

theorem replayLink_moves {s : State} (h : s.Linked) (n : Nat) : s.Moves (s.replayLink n) := by
  by_cases kept : (s.link n).replay = []
  · rw [replayLink_nothing kept]
    exact .refl h
  · refine .of_setLink h (replayLink_dx kept) (fun x hx => State.replayLink_keeps (sent_stable _ x) s n hx) rfl (h.queues n) fun vc x hx => .inl ?_
    rw [link_of_dx (replayLink_dx kept), link_setLink h.links, if_pos rfl]
    exact hx

end Sys2Proof.Machine
end

section
/-! SUPPORT. Messages of the warp: a message sent is on its way, and what arrives is heard and taken up. -/

namespace Sys2Proof.Machine

open Sys2Proof

/-! ## Sending a message (R422, R425, R429) -/

/-- A chosen link changes only the round-robin positions. -/
theorem route_some {s v : State} {dst n : Nat} {dom : Option Nat} (e : s.route dst dom = some (n, v)) : ∃ a b, v = { s with dx := { s.dx with setRr := a, linkRr := b } } := by
  unfold State.route at e
  dsimp only at e
  split at e
  · cases e
  · cases e
    exact ⟨_, _, rfl⟩

/-- There is a link where a set of the route is usable. -/
theorem route_none_iff (s : State) (dst : Nat) (dom : Option Nat) : s.route dst dom = none ↔ s.usableSets dst dom = [] := by
  unfold State.route
  dsimp only
  cases s.usableSets dst dom with
  | nil => exact iff_of_true rfl rfl
  | cons u us => exact iff_of_false nofun nofun

/-- A message begins with a flit. -/
theorem DMsg.flits_begin (m : DMsg) (src : Nat) : ∃ f ∈ m.flits src, f.pay = .part m 0 := by
  unfold DMsg.flits
  dsimp only
  have some : 0 < if m.typ = 1 then 1 else (32 + m.body.len + (if protOf m.typ then 16 else 0) + 239) / 240 := by
    split
    · exact Nat.one_pos
    · exact Nat.div_pos (by omega) (by decide)
  exact ⟨_, List.mem_map.mpr ⟨0, List.mem_range.mpr some, rfl⟩, rfl⟩

theorem putMsg_moves {s : State} (h : s.Linked) (n : Nat) (m : DMsg) : s.Moves (s.putMsg n m) ∧ ∃ vc f, f.pay = .part m 0 ∧ (s.putMsg n m).carries n vc f := by
  obtain ⟨moves, carried⟩ := queueFlits_moves h n (vcOf m.typ) (m.flits s.device)
  obtain ⟨f, member, pay⟩ := m.flits_begin s.device
  have noted := State.Moves.of_dx (u := s.putMsg n m) moves.linked (State.ev_dx _ _ _ _ _ _ _) fun x => State.ev_sent _ _ _ _ _ _ _
  exact ⟨moves.trans noted, _, f, pay, noted.carries _ _ _ (carried f member)⟩

/-- A message that is given a route, or that waits for one, is on its way. -/
theorem routeMsg_moves {s : State} (h : s.Linked) (m : DMsg) : s.Moves (s.routeMsg m) ∧ ∀ p : DMsg → Prop, p m → (s.routeMsg m).sends p := by
  unfold State.routeMsg
  split
  · next n v e =>
    obtain ⟨a, b, rfl⟩ := route_some e
    have chosen : s.Moves { s with dx := { s.dx with setRr := a, linkRr := b } } := .of_links h rfl rfl fun _ => id
    obtain ⟨moves, vc, f, pay, carried⟩ := putMsg_moves chosen.linked n m
    refine ⟨chosen.trans moves, fun p hp => ⟨m, hp, .inr ?_⟩⟩
    exact carried.imp (fun q => ⟨n, vc, f, q, pay⟩) fun ⟨seq, q⟩ => ⟨n, seq, f, q, pay⟩
  · exact ⟨.of_links h rfl rfl fun _ => id, fun p hp => ⟨m, hp, .inl (List.mem_append_right _ List.mem_cons_self)⟩⟩

/-- A message's stamp leaves its header and body. -/
theorem stampMsg_same (s : State) (m : DMsg) : ∃ c x, (s.stampMsg m).1 = { m with counter := c, parity := x } := by
  unfold State.stampMsg
  split
  · exact ⟨_, _, rfl⟩
  · exact ⟨m.counter, m.parity, rfl⟩

theorem stampMsg_moves {s : State} (h : s.Linked) (m : DMsg) : s.Moves (s.stampMsg m).2 := by
  have dx : ∃ c, (s.stampMsg m).2.dx = { s.dx with counter := c } := by
    unfold State.stampMsg
    split
    · exact ⟨_, when_keeps (P := fun u => u.dx = { s.dx with counter := s.dx.counter + 1 }) (fun _ e => e) rfl⟩
    · exact ⟨_, rfl⟩
  obtain ⟨c, e⟩ := dx
  exact .of_links h (congrArg Dernyx.links e :) (congrArg Dernyx.unsent e :) fun x hx => (State.stampMsg_keeps (sent_stable _ x) s m hx :)

theorem sendMsg_moves {s : State} (h : s.Linked) (m : DMsg) : s.Moves (s.sendMsg m) := (stampMsg_moves h m).trans (routeMsg_moves (stampMsg_moves h m).linked _).1

/-- A message sent is on its way, with what its stamp leaves. -/
theorem sendMsg_sends {s : State} (h : s.Linked) (m : DMsg) {p : DMsg → Prop} (hp : ∀ c x, p { m with counter := c, parity := x }) : (s.sendMsg m).sends p := by
  obtain ⟨c, x, e⟩ := stampMsg_same s m
  exact (routeMsg_moves (stampMsg_moves h m).linked _).2 p (e ▸ hp c x)

/-! ## Hearing (R438) -/

/-- What a device sends is heard: only its member's record changes, and not the ids of its COMMANDs. -/
theorem heardFrom_does (s : State) (i : Nat) : s.heardFrom i = s ∨ s.heardFrom i = s.setPeer i { s.peer i with st := 2, heard := s.now } := by
  unfold State.heardFrom
  split
  · exact .inl rfl
  · exact .inr rfl

theorem heardFrom_linked {s : State} (h : s.Linked) (i : Nat) : (s.heardFrom i).Linked := by
  rcases heardFrom_does s i with e | e <;> rw [e]
  · exact h
  · exact h.setPeer i _

theorem heardFrom_rxId {s : State} (h : s.Linked) (i j : Nat) : ((s.heardFrom i).peer j).rxId = (s.peer j).rxId := by
  rcases heardFrom_does s i with e | e <;> rw [e]
  rw [peer_setPeer h.peers]
  split
  · next q => rw [q]
  · rfl

/-- Only the members' records. -/
theorem heardFrom_dx (s : State) (i : Nat) : ∃ p, s.heardFrom i = { s with dx := { s.dx with peers := p } } := by
  rcases heardFrom_does s i with e | e <;> exact ⟨_, e⟩

/-- The presence of a member is told by its record, the device's index and the member table. -/
theorem present_of {s u : State} (h : s.sameSettings u) {i : Nat} (p : u.peer i = s.peer i) : u.present i = s.present i := by
  have table : u.reg Dict.warpMemberTable = s.reg Dict.warpMemberTable := h _ (by decide) (by decide) 0 0
  have device : u.device = s.device := h Dict.warpDeviceIndex (by decide) (by decide) 0 0
  unfold State.present State.peerState State.memberDigest
  rw [p, table, device]

/-- A member that is not heard is as present as it was; and one that is present stays so when it is heard. -/
theorem heardFrom_present {s : State} (h : s.Linked) {i j : Nat} (k : j ≠ i ∨ s.present j = true) : (s.heardFrom i).present j = s.present j := by
  rcases heardFrom_does s i with e | e <;> rw [e]
  have peer := peer_setPeer h.peers i { s.peer i with st := 2, heard := s.now } j
  generalize hu : State.setPeer s i _ = u at peer ⊢
  have settings : s.sameSettings u := hu ▸ fun _ _ _ _ _ => rfl
  by_cases same : j = i
  · have here : s.present j = true := k.resolve_left fun q => q same
    rw [here]
    unfold State.present State.peerState State.memberDigest at *
    rw [peer, if_pos same, show u.reg Dict.warpMemberTable = s.reg Dict.warpMemberTable from hu ▸ rfl, show u.device = s.device from hu ▸ rfl]
    split
    · next none => rw [if_pos none] at here; exact here
    · next some =>
      split
      · next own => rw [if_neg some, if_pos own] at here; exact here
      · rfl
  · exact present_of settings (peer.trans (if_neg same))

/-! ## Arrival (R11, R122, R134, R424, R426) -/

/-- What a protected message leaves before its effect: its source is heard, and its counter recorded. -/
def State.took (s : State) (e : DEnv) : State := (s.heardFrom e.src).markSeen (s.memberDigest e.src / 2 ^ 128) e.counter

/-- A protected message that passes the checks has its effect. -/
theorem arrive_protected {s : State} {e : DEnv} (h : s.Arrives e true) (f : State → State) : s.arrive e true f = f (s.took e) := by
  obtain ⟨tag, parity, identity, fresh⟩ := h.auth rfl
  obtain ⟨p, heard⟩ := heardFrom_dx s e.src
  have here : (s.heardFrom e.src).present s.device = true := by
    rw [heardFrom_present h.tables (.inr h.here), h.here]
  unfold State.arrive State.took
  rw [if_neg (by rw [h.link.2]; decide)]
  dsimp only
  rw [heard] at here ⊢
  rw [if_neg fun q => q.2 (h.own q.1), if_neg, if_neg (by decide), if_neg, if_neg]
  · rfl
  · exact fun q => Bool.false_ne_true (fresh.symm.trans q)
  · rintro (q | q | q)
    · exact Bool.false_ne_true (q.symm.trans tag)
    · exact identity q
    · exact Bool.false_ne_true (q.symm.trans parity)
  · rintro (q | q | q)
    · exact Bool.false_ne_true (q.symm.trans here)
    · exact Bool.false_ne_true (q.symm.trans h.keyed)
    · exact absurd h.version (Nat.not_le_of_lt q)

/-- A message that was taken up leaves all but the members' records and the replay record. -/
theorem took_does {s : State} (h : s.Linked) (e : DEnv) : (∃ p r, s.took e = { s with dx := { s.dx with peers := p, seen := r } }) ∧ (s.took e).Linked ∧
    ((s.took e).peer e.src).rxId = (s.peer e.src).rxId := by
  obtain ⟨p, heard⟩ := heardFrom_dx s e.src
  refine ⟨?_, (heardFrom_linked h e.src).of_tables rfl rfl, heardFrom_rxId h e.src e.src⟩
  unfold State.took
  rw [heard]
  exact ⟨_, _, rfl⟩

end Sys2Proof.Machine
end

section
/-! SUPPORT. Forwarded commands: a COMMAND's way to its rings, its acknowledgement, and its resending. -/

namespace Sys2Proof.Machine

open Sys2Proof

/-! ## A COMMAND reaches its rings (R430, R431) -/

/-- A descriptor as it stands in a ring of its home. -/
def forwarded (dom : Nat) (d : Desc) : QDesc := { d := d, dom := dom, fwd := true }

theorem dring_setDring {s : State} (h : Tbl.sorted s.ss.rings) (d : Nat) (r : DRing) : (s.setDring d r).dring d = r := (Tbl.get_put h).trans (if_pos rfl)

theorem sess_setSess {s : State} (h : Tbl.sorted s.ss.tbl) (k : Nat) (x : Sess) : (s.setSess k x).sess k = x := (Tbl.get_put h).trans (if_pos rfl)

/-- A control descriptor in form and in time joins its ring where that has room. -/
theorem enqueueDom_joins {s : State} {dom : Nat} {d : Desc} (form : descForm domOps d = true) (inTime : s.isLate d.deadline = false) (room : (s.dring dom).waiting.length < 256) :
    s.enqueueDom dom (forwarded dom d) = s.setDring dom { s.dring dom with waiting := (s.dring dom).waiting ++ [forwarded dom d] } := by
  unfold State.enqueueDom forwarded
  dsimp only
  rw [form, inTime, if_neg (by decide), if_neg (by decide), if_neg (Nat.not_le_of_lt room)]

/-- The control descriptors of a COMMAND join their domain's ring, in order. -/
theorem landCommand_dring {dom : Nat} {ds : List Desc} {s : State} (fit : ∀ d ∈ ds, d.opcode ∉ sessOps ∧ descForm domOps d = true ∧ s.isLate d.deadline = false)
    (room : (s.dring dom).waiting.length + ds.length ≤ 256) (h : Tbl.sorted s.ss.rings) :
    (s.landCommand dom ds).dring dom = { s.dring dom with waiting := (s.dring dom).waiting ++ ds.map (forwarded dom) } := by
  induction ds generalizing s with
  | nil => simp [State.landCommand, State.each]
  | cons d ds ih =>
    rw [List.length_cons] at room
    obtain ⟨control, form, inTime⟩ := fit d List.mem_cons_self
    have step : s.landCommand dom (d :: ds) = (s.enqueueDom dom (forwarded dom d)).landCommand dom ds := by
      refine congrArg (State.landCommand · dom ds) (if_neg ?_)
      rwa [List.contains_iff_mem]
    rw [step, enqueueDom_joins form inTime (by omega)]
    have ring := dring_setDring h dom { s.dring dom with waiting := (s.dring dom).waiting ++ [forwarded dom d] }
    generalize hv : State.setDring s dom _ = v at ring ⊢
    have rings : Tbl.sorted v.ss.rings := hv ▸ Tbl.put_sorted h
    have late : ∀ t, v.isLate t = s.isLate t := fun t => hv ▸ rfl
    have later : ∀ x ∈ ds, x.opcode ∉ sessOps ∧ descForm domOps x = true ∧ v.isLate x.deadline = false := fun x hx => by
      rw [late]
      exact fit x (List.mem_cons_of_mem _ hx)
    rw [ih later (by rw [ring, List.length_append, List.length_singleton]; omega) rings, ring]
    simp

/-- What the home asks of a descriptor for slot k's ring, but for room (R146). -/
def State.wants (s : State) (k dom : Nat) (d : Desc) : Prop :=
  d.opcode ∈ sessOps ∧ d.opcode ≠ 0x09 ∧ d.opcode ≠ 0x0A ∧ handleSlot d.session = k ∧ (d.opcode = 0x01 ∨ d.opcode = 0x08 ∨ (s.sess k).st = .free ∨ (s.sess k).dom = dom) ∧
    handleGen d.session = s.genOf k ∧ s.isLate d.deadline = false

/-- A slot whose ring has taken up a descriptor. -/
def Sess.joined (x : Sess) (q : QDesc) : Sess := { x with ring := x.ring ++ [q], tail := (x.tail + 1) % 65536 }

/-- A descriptor that the home admits joins the slot's ring where that has room. -/
theorem enqueue_joins {s : State} {k dom : Nat} {d : Desc} (h : s.wants k dom d) (up : s.chOn (chOf k) = true) (room : (s.sess k).ring.length < 16) :
    s.enqueue k (forwarded dom d) = s.setSess k ((s.sess k).joined (forwarded dom d)) := by
  obtain ⟨-, query, close, -, owner, gen, inTime⟩ := h
  unfold State.enqueue forwarded
  dsimp only
  rw [up, inTime, if_neg (by decide), if_neg, if_neg fun q => q gen, if_neg (by decide), if_neg close, if_neg query, if_neg (Nat.not_le_of_lt room)]
  · rfl
  · simp only [Bool.and_eq_true, Bool.not_eq_true', Bool.or_eq_false_iff, decide_eq_true_eq, decide_eq_false_iff_not]
    rintro ⟨⟨⟨open', import'⟩, held⟩, other⟩
    exact owner.elim open' fun q => q.elim import' fun q => q.elim held other

/-- A slot that has taken up a descriptor wants what it wanted. -/
theorem wants_joined {s : State} {k dom : Nat} {d : Desc} (tbl : Tbl.sorted s.ss.tbl) (h : s.wants k dom d) (q : QDesc) : (s.setSess k ((s.sess k).joined q)).wants k dom d := by
  obtain ⟨op, query, close, slot, owner, gen, inTime⟩ := h
  have same := sess_setSess tbl k ((s.sess k).joined q)
  refine ⟨op, query, close, slot, ?_, gen.trans ?_, inTime⟩
  · rw [same]
    exact owner
  · unfold State.genOf
    rw [same]
    rfl

/-- The descriptors of a COMMAND for one slot join its ring, in order. -/
theorem landCommand_sess {k dom : Nat} {d : Desc} {ds : List Desc} {s : State} (fit : ∀ x ∈ d :: ds, s.wants k dom x) (up : s.chOn (chOf k) = true)
    (room : (s.sess k).ring.length + (d :: ds).length ≤ 16) (h : Tbl.sorted s.ss.tbl) :
    (s.landCommand dom (d :: ds)).sess k = { s.sess k with ring := (s.sess k).ring ++ (d :: ds).map (forwarded dom), tail := ((s.sess k).tail + (d :: ds).length) % 65536 } := by
  have first := fit d List.mem_cons_self
  rw [List.length_cons] at room
  have step : ∀ l, s.landCommand dom (d :: l) = (s.setSess k ((s.sess k).joined (forwarded dom d))).landCommand dom l := fun l => by
    rw [← enqueue_joins first up (by omega)]
    refine congrArg (State.landCommand · dom l) ((if_pos ?_).trans ?_)
    · rw [List.contains_iff_mem]
      exact first.1
    · rw [first.2.2.2.1]
      rfl
  have own := sess_setSess h k ((s.sess k).joined (forwarded dom d))
  rw [step]
  cases ds with
  | nil => exact own
  | cons x xs =>
    rw [List.length_cons] at room
    have left : ((s.setSess k ((s.sess k).joined (forwarded dom d))).sess k).ring.length + (x :: xs).length ≤ 16 := by
      rw [own, Sess.joined, List.length_append, List.length_singleton, List.length_cons]
      omega
    rw [landCommand_sess (fun y hy => wants_joined h (fit y (List.mem_cons_of_mem _ hy)) _) up left (Tbl.put_sorted h), own]
    simp only [Sess.joined, List.map_cons, List.append_assoc, List.singleton_append, List.length_cons, Nat.mod_add_mod]
    congr 2
    omega

/-! ## COMMAND (R431) -/

theorem State.Arrives.at {s : State} {e : DEnv} {b : Bool} (h : s.Arrives e b) (t : Nat) : (s.at t).Arrives e b :=
  ⟨h.live, h.link, h.own, h.here, h.keyed, h.version, h.auth, h.tables.of_dx rfl⟩

/-- A COMMAND of this source and id is held. -/
def State.holdsEarly (s : State) (src id : Nat) : Prop := ∃ x ∈ s.dx.early, x.1 = src ∧ x.2.1 = id

theorem holdsEarly_iff (s : State) (src id : Nat) : (s.dx.early.any fun x => x.1 == src && x.2.1 == id) = true ↔ s.holdsEarly src id := by
  simp [State.holdsEarly]

/-- Nothing follows where the expected COMMAND is not held. -/
theorem drainEarly_none {s : State} {src : Nat} (n : Nat) (h : ¬s.holdsEarly src (s.peer src).rxId) : State.drainEarly n src s = s := by
  cases n with
  | zero => rfl
  | succ n =>
    have none : (s.dx.early.find? fun x => x.1 == src && x.2.1 == (s.peer src).rxId) = none := by
      rw [← holdsEarly_iff, List.any_eq_true] at h
      exact List.find?_eq_none.mpr fun x hx q => h ⟨x, hx, q⟩
    unfold State.drainEarly
    dsimp only
    rw [none]

/-- How far a message's id is ahead of the one expected of its source. -/
def State.idAhead (s : State) (e : DEnv) : Nat := (e.mid + 2 ^ 32 - (s.peer e.src).rxId) % 2 ^ 32

/-- The effect of a COMMAND with the expected id: it lands, is acknowledged, and those that were held for it follow. -/
def State.landNext (s : State) (e : DEnv) (ds : List Desc) : State :=
  let s := ((s.setPeer e.src { s.peer e.src with rxId := ((s.peer e.src).rxId + 1) % 2 ^ 32 }).landCommand e.dom ds).ackCommand e.src e.dom e.mid
  State.drainEarly s.dx.early.length e.src s

/-- The effect of a COMMAND that arrives, by how far its id is ahead. -/
def State.takeCommand (s : State) (e : DEnv) (ds : List Desc) : State :=
  if s.idAhead e = 0 then s.landNext e ds
  else if s.idAhead e ≤ 256 then
    if s.dx.early.any fun x => x.1 == e.src && x.2.1 == e.mid then s.ev 0x1CD none 1 e.link (some e.dom)
    else { s with dx := { s.dx with early := s.dx.early ++ [(e.src, e.mid, e.dom, ds)] } }
  else if 2 ^ 31 ≤ s.idAhead e then (s.ev 0x1CD none 1 e.link (some e.dom)).ackCommand e.src e.dom e.mid
  else s

theorem command_does {s : State} {e : DEnv} (h : s.Arrives e true) (t : Nat) (ds : List Desc) : exec (.command t e ds) s = .next (((s.at t).took e).takeCommand e ds) := by
  have wf : (Instr.command t e ds).wf = true := decide_eq_true h.link.1
  exact (execCommand.eq_1 t e ds s).trans ((run_wf _ wf h.live).trans (congrArg _ (arrive_protected (h.at t) _)))

/-- An acknowledgement is on its way to the COMMAND's source, and its sending leaves all but links and routes. -/
theorem ackCommand_does {s : State} (h : s.Linked) (e : DEnv) : s.Moves (s.ackCommand e.src e.dom e.mid) ∧ (s.ackCommand e.src e.dom e.mid).ss = s.ss ∧
    (s.ackCommand e.src e.dom e.mid).sends fun m => m.is 0x03 e.src (some e.dom) e.mid 0 :=
  ⟨sendMsg_moves h _, State.sendMsg_keeps (frame_ss rfl s) s _ rfl, sendMsg_sends h _ fun _ _ => ⟨rfl, rfl, rfl, rfl, rfl⟩⟩

theorem Dernyx.unsent_peers {c d : Dernyx} (h : c.unsent = d.unsent) : c.peers = d.peers := (congrArg Dernyx.peers h :)
theorem Dernyx.unsent_early {c d : Dernyx} (h : c.unsent = d.unsent) : c.early = d.early := (congrArg Dernyx.early h :)
theorem Dernyx.unsent_fwd {c d : Dernyx} (h : c.unsent = d.unsent) : c.fwd = d.fwd := (congrArg Dernyx.fwd h :)
theorem Dernyx.unsent_held {c d : Dernyx} (h : c.unsent = d.unsent) : c.held = d.held := (congrArg Dernyx.held h :)

theorem State.Moves.peer {s u : State} (h : s.Moves u) (i : Nat) : u.peer i = s.peer i := by
  unfold State.peer
  rw [Dernyx.unsent_peers h.rest]

/-- A COMMAND that comes in order, with none held behind it, raises the id, lands and is acknowledged. -/
theorem landNext_does {s : State} (h : s.Linked) (e : DEnv) (ds : List Desc) (alone : ¬s.holdsEarly e.src (((s.peer e.src).rxId + 1) % 2 ^ 32)) :
    ((s.landNext e ds).peer e.src).rxId = ((s.peer e.src).rxId + 1) % 2 ^ 32 ∧ ((s.landNext e ds).sends fun m => m.is 0x03 e.src (some e.dom) e.mid 0) ∧
    (s.landNext e ds).ss = ((s.setPeer e.src { s.peer e.src with rxId := ((s.peer e.src).rxId + 1) % 2 ^ 32 }).landCommand e.dom ds).ss := by
  unfold State.landNext
  dsimp only
  have raised := (peer_setPeer h.peers e.src { s.peer e.src with rxId := ((s.peer e.src).rxId + 1) % 2 ^ 32 } e.src).trans (if_pos rfl)
  have linked := h.setPeer e.src { s.peer e.src with rxId := ((s.peer e.src).rxId + 1) % 2 ^ 32 }
  generalize hv : State.setPeer s e.src _ = v at raised linked ⊢
  have early : v.dx.early = s.dx.early := hv ▸ rfl
  have landed : (v.landCommand e.dom ds).dx = v.dx := State.landCommand_keeps (frame_dx rfl v) v e.dom ds rfl
  obtain ⟨moves, ss, acked⟩ := ackCommand_does (linked.of_dx landed) e
  have rxId : (((v.landCommand e.dom ds).ackCommand e.src e.dom e.mid).peer e.src).rxId = ((s.peer e.src).rxId + 1) % 2 ^ 32 := by
    rw [moves.peer, State.peer, landed]
    exact congrArg Peer.rxId raised
  have none : ¬((v.landCommand e.dom ds).ackCommand e.src e.dom e.mid).holdsEarly e.src (((v.landCommand e.dom ds).ackCommand e.src e.dom e.mid).peer e.src).rxId := by
    rw [rxId, State.holdsEarly, Dernyx.unsent_early moves.rest, landed, early]
    exact alone
  rw [drainEarly_none _ none]
  exact ⟨rxId, acked, ss⟩

section
variable {s : State} {e : DEnv} (h : s.Arrives e true) (t : Nat) (ds : List Desc)
include h

/-- What stands of the state in which an arriving message takes effect. -/
theorem took_same : ((s.at t).took e).Linked ∧ (((s.at t).took e).peer e.src).rxId = (s.peer e.src).rxId ∧ ((s.at t).took e).idAhead e = s.idAhead e ∧ ((s.at t).took e).dx.early = s.dx.early ∧
    ((s.at t).took e).ss = s.ss := by
  obtain ⟨⟨p, r, took⟩, linked, rxId⟩ := took_does (h.at t).tables e
  refine ⟨linked, rxId, ?_, ?_, ?_⟩
  · unfold State.idAhead
    rw [rxId]
    rfl
  · rw [took]
    rfl
  · rw [took]
    rfl

theorem command_dring (inOrder : s.idAhead e = 0) (alone : ¬s.holdsEarly e.src (((s.peer e.src).rxId + 1) % 2 ^ 32))
    (fit : ∀ d ∈ ds, d.opcode ∉ sessOps ∧ descForm domOps d = true ∧ s.isLate d.deadline = false) (room : (s.dring e.dom).waiting.length + ds.length ≤ 256) (sorted : Tbl.sorted s.ss.rings) :
    ∃ u, exec (.command t e ds) s = .next u ∧ (u.peer e.src).rxId = ((s.peer e.src).rxId + 1) % 2 ^ 32 ∧ (u.sends fun m => m.is 0x03 e.src (some e.dom) e.mid 0) ∧
      u.dring e.dom = { s.dring e.dom with waiting := (s.dring e.dom).waiting ++ ds.map (forwarded e.dom) } := by
  refine ⟨_, command_does h t ds, ?_⟩
  obtain ⟨linked, rxId, ahead, early, -⟩ := took_same h t
  obtain ⟨⟨p, r, took⟩, -⟩ := took_does (h.at t).tables e
  rw [State.takeCommand, if_pos (ahead.trans inOrder)]
  obtain ⟨raised, acked, ss⟩ := landNext_does linked e ds (by rwa [rxId, State.holdsEarly, early])
  refine ⟨raised.trans (by rw [rxId]), acked, ?_⟩
  rw [State.dring, ss, took]
  exact landCommand_dring fit room sorted

theorem command_sess (inOrder : s.idAhead e = 0) (alone : ¬s.holdsEarly e.src (((s.peer e.src).rxId + 1) % 2 ^ 32)) {k : Nat} (fit : ∀ d ∈ ds, s.wants k e.dom d)
    (up : s.chOn (chOf k) = true) (room : (s.sess k).ring.length + ds.length ≤ 16) (given : ds ≠ []) (sorted : Tbl.sorted s.ss.tbl) :
    ∃ u, exec (.command t e ds) s = .next u ∧ (u.peer e.src).rxId = ((s.peer e.src).rxId + 1) % 2 ^ 32 ∧ (u.sends fun m => m.is 0x03 e.src (some e.dom) e.mid 0) ∧
      u.sess k = { s.sess k with ring := (s.sess k).ring ++ ds.map (forwarded e.dom), tail := ((s.sess k).tail + ds.length) % 65536 } := by
  refine ⟨_, command_does h t ds, ?_⟩
  obtain ⟨linked, rxId, ahead, early, -⟩ := took_same h t
  obtain ⟨⟨p, r, took⟩, -⟩ := took_does (h.at t).tables e
  rw [State.takeCommand, if_pos (ahead.trans inOrder)]
  obtain ⟨raised, acked, ss⟩ := landNext_does linked e ds (by rwa [rxId, State.holdsEarly, early])
  refine ⟨raised.trans (by rw [rxId]), acked, ?_⟩
  obtain ⟨d, ds, rfl⟩ := List.exists_cons_of_ne_nil given
  rw [State.sess, ss, took]
  exact landCommand_sess fit up room sorted

theorem command_early (later : 0 < s.idAhead e) (near : s.idAhead e ≤ 256) (new : ¬s.holdsEarly e.src e.mid) :
    ∃ u, exec (.command t e ds) s = .next u ∧ u.dx.early = s.dx.early ++ [(e.src, e.mid, e.dom, ds)] ∧ (u.peer e.src).rxId = (s.peer e.src).rxId ∧ u.ss = s.ss := by
  refine ⟨_, command_does h t ds, ?_⟩
  obtain ⟨-, rxId, ahead, early, ss⟩ := took_same h t
  rw [State.takeCommand, if_neg (by omega), if_pos (by omega), if_neg (by rwa [holdsEarly_iff, State.holdsEarly, early])]
  exact ⟨by rw [early], rxId, ss⟩

theorem command_heldAlready (later : 0 < s.idAhead e) (near : s.idAhead e ≤ 256) (again : s.holdsEarly e.src e.mid) :
    ∃ u, exec (.command t e ds) s = .next u ∧ u.dx.early = s.dx.early ∧ (u.peer e.src).rxId = (s.peer e.src).rxId ∧ u.ss = s.ss := by
  refine ⟨_, command_does h t ds, ?_⟩
  obtain ⟨-, rxId, ahead, early, ss⟩ := took_same h t
  rw [State.takeCommand, if_neg (by omega), if_pos (by omega), if_pos (by rwa [holdsEarly_iff, State.holdsEarly, early]), State.peer, State.ev_dx, State.ev_ss]
  exact ⟨early, rxId, ss⟩

theorem command_duplicate (behind : 2 ^ 31 ≤ s.idAhead e) :
    ∃ u, exec (.command t e ds) s = .next u ∧ (u.sends fun m => m.is 0x03 e.src (some e.dom) e.mid 0) ∧ (u.peer e.src).rxId = (s.peer e.src).rxId ∧ u.ss = s.ss := by
  refine ⟨_, command_does h t ds, ?_⟩
  obtain ⟨linked, rxId, ahead, -, ss⟩ := took_same h t
  rw [State.takeCommand, if_neg (by omega), if_neg (by omega), if_pos (by omega)]
  have dx := State.ev_dx ((s.at t).took e) 0x1CD none 1 e.link (some e.dom) none
  obtain ⟨moves, same, acked⟩ := ackCommand_does (linked.of_dx dx) e
  refine ⟨acked, ?_, same.trans ((State.ev_ss _ _ _ _ _ _ _).trans ss)⟩
  rw [moves.peer, State.peer, dx]
  exact rxId

theorem command_beyond (far : 256 < s.idAhead e) (ahead' : s.idAhead e < 2 ^ 31) :
    ∃ u, exec (.command t e ds) s = .next u ∧ u.dx.early = s.dx.early ∧ (u.peer e.src).rxId = (s.peer e.src).rxId ∧ u.ss = s.ss := by
  refine ⟨_, command_does h t ds, ?_⟩
  obtain ⟨-, rxId, ahead, early, ss⟩ := took_same h t
  rw [State.takeCommand, if_neg (by omega), if_neg (by omega), if_neg (by omega)]
  exact ⟨early, rxId, ss⟩

end

/-! ## COMMAND_ACK (R432) -/

/-- Nothing follows a command in a state at rest. -/
theorem settle_atRest {s : State} (h : s.atRest) : settle s = s := by
  obtain ⟨selects, lanes⟩ := h.lanes
  have exports : (s.ss.tbl.filter fun e => e.2.xst == 1) = [] := List.filter_eq_nil_iff.mpr fun e he q => h.exports e he (beq_iff_eq.mp q)
  have tests : (s.tm.far.filter fun e => e.2 / 10 == 1) = [] := List.filter_eq_nil_iff.mpr fun e he q => h.tests e he (beq_iff_eq.mp q)
  have moves : (s.tm.moves.filter fun m => !m.started) = [] := List.filter_eq_nil_iff.mpr fun m hm q => by rw [h.moves m hm] at q; cases q
  have pump : s.farPump = s := by
    unfold State.farPump State.farTests State.startMoves
    rw [exports]
    simp only [List.map_nil, State.each, List.foldl_nil, tests, moves]
  have finish : s.finishStep = s := by
    unfold State.finishStep
    split
    · rfl
    · next v run => exact if_neg fun q => (h.run v run).elim (fun k => k q.1) fun k => k q.2.1
  have barrier : s.advanceBarrier = s := by
    unfold State.advanceBarrier
    rw [h.barrier]
  have fill : s.fillLanes = s := by
    unfold State.fillLanes
    dsimp only
    rw [lanes, selects]
    show { s with se := { s.se with lanes := [], selects := [] } } = s
    rw [← lanes, ← selects]
  rw [settle_idle h.owed h.drain, pump, finish, barrier, fill]

/-- Being at rest is about the step, the barrier, the package, the sessions, the frames and the lanes. -/
theorem State.atRest.of_same {s u : State} (h : s.atRest) (sv : u.sv = s.sv) (pk : u.pkCore = s.pkCore) (pw : u.pw = s.pw) (ss : u.ss = s.ss) (tm : u.tm = s.tm) (se : u.se = s.se) : u.atRest :=
  ⟨sv ▸ h.run, sv ▸ h.owed, (barrier_of pk).trans h.barrier, pw ▸ h.drain, ss ▸ h.exports, tm ▸ h.tests, tm ▸ h.moves, se ▸ h.lanes⟩

/-- A COMMAND in the forward buffer but for when it was sent. -/
def Fwd.unsent (f : Fwd) : Fwd := { f with sent := none }

/-- The COMMANDs of l stand in the forward buffer and no others, whenever each was sent. -/
def State.forwards (l : List Fwd) (u : State) : Prop := u.dx.fwd.map Fwd.unsent = l.map Fwd.unsent

/-- The state with another forward buffer. -/
def State.setFwd (s : State) (l : List Fwd) : State := { s with dx := { s.dx with fwd := l } }

/-- Marking COMMANDs as sent leaves which they are. -/
theorem map_mark_unsent (l : List Fwd) (p : Fwd → Prop) [DecidablePred p] (at' : Option Nat) : (l.map fun y => if p y then { y with sent := at' } else y).map Fwd.unsent = l.map Fwd.unsent := by
  rw [List.map_map]
  refine List.map_congr_left fun y _ => ?_
  show Fwd.unsent (if p y then _ else y) = _
  split <;> rfl

/-- Sending the COMMANDs that wait leaves which they are. -/
theorem pumpForward_forwards {s : State} (h : s.Linked) : s.pumpForward.forwards s.dx.fwd := by
  refine (each_keeps (P := fun u => u.Linked ∧ u.forwards s.dx.fwd) (fun f u hu => ?_) ⟨h, rfl⟩).2
  dsimp only
  split
  · obtain ⟨linked, same⟩ := hu
    generalize hv : u.setFwd (u.dx.fwd.map fun y => if y.home = f.home ∧ y.id = f.id then { y with sent := some u.now } else y) = v
    have marked : v.forwards s.dx.fwd := hv ▸ (map_mark_unsent _ _ _).trans same
    have sent := sendMsg_moves (linked.of_tables (u := v) (hv ▸ rfl) (hv ▸ rfl)) { typ := 0x02, dst := f.home, dom := some f.dom, mid := f.id, aux := f.ds.length, body := .descs f.ds }
    have noted := State.ev_dx (v.sendMsg { typ := 0x02, dst := f.home, dom := some f.dom, mid := f.id, aux := f.ds.length, body := .descs f.ds }) 0x1CB none 1 f.home (some f.dom) none
    have after : ((v.sendMsg { typ := 0x02, dst := f.home, dom := some f.dom, mid := f.id, aux := f.ds.length, body := .descs f.ds }).ev 0x1CB none 1 f.home (some f.dom)).forwards s.dx.fwd := by
      unfold State.forwards
      rw [noted, Dernyx.unsent_fwd sent.rest]
      exact marked
    rw [← hv] at sent noted after
    exact ⟨sent.linked.of_dx noted, after⟩
  · exact hu

theorem commandAck_does {s : State} {e : DEnv} (h : s.Arrives e true) (rest : s.atRest) (t : Nat) : ∃ u, exec (.commandAck t e) s = .next u ∧ (∀ f ∈ u.dx.fwd, ¬(f.home = e.src ∧ f.id = e.mid)) ∧ u.ss = s.ss ∧
    ∀ f ∈ s.dx.fwd, ¬(f.home = e.src ∧ f.id = e.mid) → ∃ g ∈ u.dx.fwd, g.unsent = f.unsent := by
  have wf : (Instr.commandAck t e).wf = true := decide_eq_true h.link.1
  obtain ⟨⟨p, r, took⟩, linked, -⟩ := took_does (h.at t).tables e
  have does := (execCommandAck.eq_1 t e s).trans ((run_wf _ wf h.live).trans (congrArg _ (arrive_protected (h.at t) _)))
  generalize (s.at t).took e = w at took linked does
  have kept : (w.setFwd (w.dx.fwd.filter fun f => !(f.home == e.src && f.id == e.mid))).dx.fwd = s.dx.fwd.filter fun f => !(f.home == e.src && f.id == e.mid) := took ▸ rfl
  have pumped := pumpForward_forwards (s := w.setFwd (w.dx.fwd.filter fun f => !(f.home == e.src && f.id == e.mid))) (linked.of_tables rfl rfl)
  have same := State.pumpForward_keeps (P := fun u => u.ss = s.ss) (frame_ss rfl s) (w.setFwd (w.dx.fwd.filter fun f => !(f.home == e.src && f.id == e.mid))) (took ▸ rfl)
  have still : (w.setFwd (w.dx.fwd.filter fun f => !(f.home == e.src && f.id == e.mid))).pumpForward.atRest :=
    rest.of_same (State.pumpForward_keeps (frame_sv rfl s) _ (took ▸ rfl)) (State.pumpForward_keeps (frame_pkCore rfl s) _ (took ▸ rfl)) (State.pumpForward_keeps (frame_pw rfl s) _ (took ▸ rfl)) same
      (State.pumpForward_keeps (frame_tm rfl s) _ (took ▸ rfl)) (State.pumpForward_keeps (frame_se rfl s) _ (took ▸ rfl))
  refine ⟨(w.setFwd (w.dx.fwd.filter fun f => !(f.home == e.src && f.id == e.mid))).pumpForward, does.trans (congrArg _ (settle_atRest still)), ?_⟩
  clear does still
  generalize w.setFwd (w.dx.fwd.filter fun f => !(f.home == e.src && f.id == e.mid)) = v at kept pumped same ⊢
  have mem : ∀ f, f ∈ v.dx.fwd ↔ f ∈ s.dx.fwd ∧ ¬(f.home = e.src ∧ f.id = e.mid) := fun f => by
    rw [kept, List.mem_filter]
    simp only [Bool.not_eq_true', Bool.eq_false_iff, ne_eq, Bool.and_eq_true, beq_iff_eq]
  have pumped : v.pumpForward.dx.fwd.map Fwd.unsent = v.dx.fwd.map Fwd.unsent := pumped
  refine ⟨fun g hg hit => ?_, same, fun f hf other => ?_⟩
  · obtain ⟨f, hf, e⟩ := List.mem_map.mp (pumped ▸ List.mem_map_of_mem hg)
    have home : f.home = g.home := (congrArg Fwd.home e :)
    have id' : f.id = g.id := (congrArg Fwd.id e :)
    exact ((mem f).mp hf).2 (by rwa [home, id'])
  · obtain ⟨g, hg, e⟩ := List.mem_map.mp (pumped.symm ▸ List.mem_map_of_mem ((mem f).mpr ⟨hf, other⟩))
    exact ⟨g, hg, e⟩

/-! ## E2E_TIMEOUT (R432) -/

/-- A COMMAND's acknowledgement is overdue. -/
def State.overdue (s : State) (t : Nat) (f : Fwd) : Prop := ∃ a, f.sent = some a ∧ a + 1000 * s.reg Dict.dnxE2eTimeout ≤ Nat.max s.now t

/-- The COMMAND to a home with that id is sent again, and marked as sent now. -/
def State.resent (s : State) (home id : Nat) (f : Fwd) : State :=
  (((s.setFwd (s.dx.fwd.map fun y => if y.home = home ∧ y.id = id then { y with sent := some s.now } else y)).inc Dict.dnxForwardResendCount).ev 0x1CC none 1 home (some f.dom)).sendMsg
    { typ := 0x02, dst := home, dom := some f.dom, mid := id, aux := f.ds.length, body := .descs f.ds }

/-- Sending a message counts at most a write of the store. -/
theorem sendMsg_reg (s : State) (m : DMsg) {x : Entry} (other : regKey x 0 0 ≠ regKey Dict.dictStoreWrites 0 0) : (s.sendMsg m).reg x = s.reg x := by
  have routed : ∀ v : State, ∀ m, (v.routeMsg m).regs = v.regs := fun v m => State.routeMsg_keeps (frame_regs rfl v) v m rfl
  have stamped : (s.stampMsg m).2.reg x = s.reg x := by
    unfold State.stampMsg
    split
    · exact when_keeps (P := fun u => u.reg x = s.reg x) (fun u same => (State.setReg_other other).trans same) rfl
    · rfl
  refine Eq.trans ?_ stamped
  unfold State.sendMsg State.reg
  rw [routed]

theorem resent_does {s : State} (h : s.Linked) (sorted : Tbl.sorted s.regs) (home id : Nat) (f : Fwd) : s.counted Dict.dnxForwardResendCount (s.resent home id f) ∧
    ((s.resent home id f).sends fun m => m.is 0x02 home (some f.dom) id f.ds.length ∧ m.body = .descs f.ds) ∧ ∀ g ∈ (s.resent home id f).dx.fwd, g.home = home → g.id = id → g.sent = some s.now := by
  unfold State.resent
  generalize hv : State.setFwd s _ = v
  have linked : v.Linked := hv ▸ h.of_tables rfl rfl
  have counted : s.counted Dict.dnxForwardResendCount (v.inc Dict.dnxForwardResendCount) := hv ▸ inc_counted sorted _
  have marked : v.dx.fwd = s.dx.fwd.map fun y => if y.home = home ∧ y.id = id then { y with sent := some s.now } else y := hv ▸ rfl
  have dx := State.ev_dx (v.inc Dict.dnxForwardResendCount) 0x1CC none 1 home (some f.dom) none
  have sends := sendMsg_moves (linked.of_dx dx) { typ := 0x02, dst := home, dom := some f.dom, mid := id, aux := f.ds.length, body := .descs f.ds }
  refine ⟨counted_of counted ((sendMsg_reg _ _ (by decide)).trans (ev_reg _ _ _ _ _ _ _ _)), sendMsg_sends (linked.of_dx dx) _ fun _ _ => ⟨⟨rfl, rfl, rfl, rfl, rfl⟩, rfl⟩, fun g hg same same' => ?_⟩
  rw [Dernyx.unsent_fwd sends.rest, dx] at hg
  obtain ⟨y, -, rfl⟩ := List.mem_map.mp (marked ▸ hg)
  split at same
  · next hit => rw [if_pos hit]
  · next miss => exact absurd ⟨same, by rwa [if_neg miss] at same'⟩ miss

theorem e2eTimeout_resends {s : State} (t : Nat) (live : s.live = true) {home id : Nat} (low : home < 64) {f : Fwd} (hit : (s.dx.fwd.find? fun f => f.home == home && f.id == id) = some f)
    (due : s.overdue t f) : exec (.e2eTimeout t home id) s = .next ((s.at t).resent home id f) := by
  have wf : (Instr.e2eTimeout t home id).wf = true := decide_eq_true low
  obtain ⟨a, sent, late⟩ := due
  refine (execE2eTimeout.eq_1 t home id s).trans ((run_wf _ wf live).trans (congrArg _ ?_))
  have same : (s.at t).dx.fwd = s.dx.fwd := rfl
  rw [same, hit]
  dsimp only
  rw [sent]
  exact if_pos late

theorem e2eTimeout_waits {s : State} (t : Nat) (live : s.live = true) {home id : Nat} (low : home < 64)
    (h : (s.dx.fwd.find? fun f => f.home == home && f.id == id) = none ∨ ∃ f, (s.dx.fwd.find? fun f => f.home == home && f.id == id) = some f ∧ ¬s.overdue t f) :
    exec (.e2eTimeout t home id) s = .next (s.at t) := by
  have wf : (Instr.e2eTimeout t home id).wf = true := decide_eq_true low
  refine (execE2eTimeout.eq_1 t home id s).trans ((run_wf _ wf live).trans (congrArg _ ?_))
  have same : (s.at t).dx.fwd = s.dx.fwd := rfl
  rw [same]
  rcases h with none | ⟨f, hit, early⟩
  · rw [none]
  · rw [hit]
    dsimp only
    split
    · rfl
    · next a sent => exact if_neg fun late => early ⟨a, sent, late⟩

end Sys2Proof.Machine
end

section
/-! SUPPORT. Replays by the timer, and what the trailer of a flit that arrives does on its link. -/

namespace Sys2Proof.Machine

open Sys2Proof

/-! ## REPLAY_TIMEOUT (R419) -/

theorem replayTimeout_replays {s : State} (t : Nat) (live : s.live = true) (h : s.Linked) (sorted : Tbl.sorted s.regs) {n a : Nat} (low : n < 48) (since : (s.link n).since = some a)
    (due : a + 4000 ≤ Nat.max s.now t) (kept : (s.link n).replay ≠ []) : ∃ u, exec (.replayTimeout t n) s = .next u ∧ u.link n = (s.link n).replayed (Nat.max s.now t) ∧
      s.counted Dict.dnxReplayCount u ∧ (∀ e ∈ (s.link n).replay, Output.flit n e.1 e.2 ∈ u.out) ∧ (s.at t).sameBut (.warp :: .values :: noted) u := by
  have wf : (Instr.replayTimeout t n).wf = true := decide_eq_true low
  obtain ⟨next, frame⟩ := run_does (l := .warp :: .values :: noted) (execReplayTimeout.eq_1 t n s) wf live rfl fun k hs => execReplayTimeout_keeps k _ _ s hs
  have same : (s.at t).link n = s.link n := rfl
  rw [same, since] at next frame
  dsimp only at next frame
  rw [if_pos (show a + 4000 ≤ (s.at t).now from due)] at next frame
  refine ⟨_, next, ?_, replayLink_counted (s := s.at t) sorted kept, fun e he => replayLink_sent (s := s.at t) he, frame⟩
  rw [link_of_dx (replayLink_dx (s := s.at t) kept), link_setLink (s := s.at t) h.links, if_pos rfl]
  rfl

theorem replayTimeout_waits {s : State} (t : Nat) (live : s.live = true) {n : Nat} (low : n < 48)
    (h : (s.link n).since = none ∨ (s.link n).replay = [] ∨ ∃ a, (s.link n).since = some a ∧ Nat.max s.now t < a + 4000) : exec (.replayTimeout t n) s = .next (s.at t) := by
  have wf : (Instr.replayTimeout t n).wf = true := decide_eq_true low
  refine (execReplayTimeout.eq_1 t n s).trans ((run_wf _ wf live).trans (congrArg _ ?_))
  have same : (s.at t).link n = s.link n := rfl
  rw [same]
  split
  · next a since =>
    split
    · next due =>
      rcases h with none | nothing | ⟨b, since', early⟩
      · rw [none] at since; cases since
      · exact replayLink_nothing nothing
      · cases since.symm.trans since'
        exact absurd due (Nat.not_le_of_lt early)
    · rfl
  · rfl

/-! ## A flit's trailer (R418, R419, R421) -/

/-- What a link keeps for replay once a flit's acknowledgement is taken. -/
def Link.acked (l : Link) (f : Flit) : List (Nat × TxFlit) := if f.ackValid = true ∨ f.nak = true then l.behind f.ackSeq else l.replay

/-- A receiving side but for the credits that its peer has returned. -/
def Link.expecting (l : Link) : Link := { l.receiving with ret := [] }

/-- The credit that a trailer returns is recorded. -/
def State.creditBack (s : State) (n : Nat) (f : Flit) : State :=
  s.when (decide (f.crClass < 3)) fun s => s.setLink n { s.link n with ret := Tbl.put 0 (s.link n).ret (4 * f.crVc + f.crClass) f.crTotal }

theorem takeTrailer_eq (s : State) (n : Nat) (f : Flit) : s.takeTrailer n f = (((s.when (f.ackValid || f.nak) fun s => s.ackLink n f.ackSeq).creditBack n f).when f.nak fun s => s.replayLink n).pumpLink n := rfl

theorem creditBack_does {s : State} (h : s.Linked) (n : Nat) (f : Flit) : (s.creditBack n f).Linked ∧ (s.creditBack n f).dx.unsent = s.dx.unsent ∧
    (∀ m, ((s.creditBack n f).link m).expecting = (s.link m).expecting ∧ ((s.creditBack n f).link m).replay = (s.link m).replay) ∧
    (f.crClass < 3 → Tbl.sorted (s.link n).ret → Tbl.get 0 ((s.creditBack n f).link n).ret (4 * f.crVc + f.crClass) = f.crTotal) ∧ (s.creditBack n f).regs = s.regs := by
  unfold State.creditBack State.when
  by_cases given : f.crClass < 3
  · rw [if_pos (decide_eq_true given)]
    refine ⟨h.setLink n (h.queues n), rfl, fun m => ?_, fun _ sorted => ?_, rfl⟩
    · rw [link_setLink h.links]
      split
      · next same => rw [same]; exact ⟨rfl, rfl⟩
      · exact ⟨rfl, rfl⟩
    · rw [link_setLink h.links, if_pos rfl]
      exact (Tbl.get_put sorted).trans (if_pos rfl)
  · rw [if_neg (by simpa using given)]
    exact ⟨h, rfl, fun _ => ⟨rfl, rfl⟩, fun q => absurd q given, rfl⟩

/-- The acknowledgement of a trailer is taken. -/
theorem ackTaken_moves {s : State} (h : s.Linked) (n : Nat) (f : Flit) : s.Moves (s.when (f.ackValid || f.nak) fun s => s.ackLink n f.ackSeq) ∧
    (s.link n).acked f <+: ((s.when (f.ackValid || f.nak) fun s => s.ackLink n f.ackSeq).link n).replay ∧ (s.when (f.ackValid || f.nak) fun s => s.ackLink n f.ackSeq).regs = s.regs := by
  have regs : (s.when (f.ackValid || f.nak) fun s => s.ackLink n f.ackSeq).regs = s.regs := when_keeps (P := fun u => u.regs = s.regs) (fun u hu => State.ackLink_keeps (frame_regs rfl s) u _ _ hu) rfl
  refine and_assoc.mp ⟨?_, regs⟩
  clear regs
  unfold State.when Link.acked
  by_cases q : f.ackValid = true ∨ f.nak = true
  · rw [if_pos (by simpa using q), if_pos q]
    exact ackLink_moves h n f.ackSeq
  · rw [if_neg (by simpa using q), if_neg q]
    exact ⟨.refl h, List.prefix_rfl⟩

/-- The NAK of a trailer is heeded. -/
theorem nakHeeded_moves {s : State} (h : s.Linked) (n : Nat) (f : Flit) : s.Moves (s.when f.nak fun s => s.replayLink n) := by
  unfold State.when
  split
  · exact replayLink_moves h n
  · exact .refl h

theorem replayLink_reg (s : State) (n : Nat) {x : Entry} (other : regKey x 0 0 ≠ regKey Dict.dnxReplayCount 0 0) : (s.replayLink n).reg x = s.reg x := by
  by_cases kept : (s.link n).replay = []
  · rw [replayLink_nothing kept]
  · rw [replayLink_replays kept]
    exact (ev_reg _ _ _ _ _ _ _ _).trans (inc_other other)

/-- What a trailer leaves: the receiving sides but for the credits returned, and the counters but for that of replays. -/
theorem takeTrailer_leaves {s : State} (h : s.Linked) (n : Nat) (f : Flit) : (s.takeTrailer n f).Linked ∧ (s.takeTrailer n f).dx.unsent = s.dx.unsent ∧
    (∀ m, ((s.takeTrailer n f).link m).expecting = (s.link m).expecting) ∧ ∀ x : Entry, regKey x 0 0 ≠ regKey Dict.dnxReplayCount 0 0 → (s.takeTrailer n f).reg x = s.reg x := by
  rw [takeTrailer_eq]
  obtain ⟨ack, -, ackRegs⟩ := ackTaken_moves h n f
  generalize (s.when (f.ackValid || f.nak) fun s => s.ackLink n f.ackSeq) = v at ack ackRegs ⊢
  obtain ⟨linked, rest, links, -, creditRegs⟩ := creditBack_does ack.linked n f
  generalize v.creditBack n f = w at linked rest links creditRegs ⊢
  have replay := nakHeeded_moves linked n f
  have replayRegs : ∀ x : Entry, regKey x 0 0 ≠ regKey Dict.dnxReplayCount 0 0 → (w.when f.nak fun s => s.replayLink n).reg x = w.reg x := fun x other =>
    when_keeps (P := fun u => u.reg x = w.reg x) (fun u hu => (replayLink_reg u n other).trans hu) rfl
  have pump := pumpLink_moves replay.linked n
  have pumpRegs : ((w.when f.nak fun s => s.replayLink n).pumpLink n).regs = (w.when f.nak fun s => s.replayLink n).regs := State.pumpLink_keeps (frame_regs rfl _) _ n rfl
  have receiving : ∀ {a b : State}, a.Moves b → ∀ m, (b.link m).expecting = (a.link m).expecting := fun k m => congrArg (fun l : Link => { l with ret := [] }) (k.receiving m)
  refine ⟨pump.linked, pump.rest.trans (replay.rest.trans (rest.trans ack.rest)), fun m => ?_, fun x other => ?_⟩
  · exact (receiving pump m).trans ((receiving replay m).trans ((links m).1.trans (receiving ack m)))
  · have := replayRegs x other
    unfold State.reg at this ⊢
    rw [pumpRegs, this, creditRegs, ackRegs]

/-- The credit stands after what is sent because of the trailer. -/
theorem takeTrailer_credit {s : State} (h : s.Linked) (n : Nat) {f : Flit} (given : f.crClass < 3) (sorted : Tbl.sorted (s.link n).ret) :
    Tbl.get 0 ((s.takeTrailer n f).link n).ret (4 * f.crVc + f.crClass) = f.crTotal := by
  rw [takeTrailer_eq]
  obtain ⟨ack, -⟩ := ackTaken_moves h n f
  generalize (s.when (f.ackValid || f.nak) fun s => s.ackLink n f.ackSeq) = v at ack ⊢
  have ret : ∀ {a b : State}, a.Moves b → (b.link n).ret = (a.link n).ret := fun k => (congrArg Link.ret (k.receiving n) :)
  obtain ⟨linked, -, -, credit, -⟩ := creditBack_does ack.linked n f
  generalize v.creditBack n f = w at linked credit ⊢
  have replay := nakHeeded_moves linked n f
  rw [ret (pumpLink_moves replay.linked n), ret replay]
  exact credit given (ret ack ▸ sorted)

/-- A NAK has what is not acknowledged sent again, and counts a replay of something. -/
theorem takeTrailer_replays {s : State} (h : s.Linked) (sorted : Tbl.sorted s.regs) (n : Nat) {f : Flit} (nak : f.nak = true) :
    (∀ e ∈ (s.link n).acked f, Output.flit n e.1 e.2 ∈ (s.takeTrailer n f).out) ∧ ((s.link n).acked f ≠ [] → s.counted Dict.dnxReplayCount (s.takeTrailer n f)) := by
  rw [takeTrailer_eq]
  obtain ⟨ack, kept, ackRegs⟩ := ackTaken_moves h n f
  generalize (s.when (f.ackValid || f.nak) fun s => s.ackLink n f.ackSeq) = v at ack kept ackRegs ⊢
  obtain ⟨-, -, links, -, creditRegs⟩ := creditBack_does ack.linked n f
  have replay := (links n).2
  generalize v.creditBack n f = w at replay creditRegs ⊢
  have all : ∀ e ∈ (s.link n).acked f, e ∈ (w.link n).replay := fun e he => replay ▸ kept.subset he
  rw [State.when, if_pos nak]
  refine ⟨fun e he => State.pumpLink_keeps (sent_stable _ _) _ n (replayLink_sent (all e he)), fun some => ?_⟩
  have regs : w.regs = s.regs := creditRegs.trans ackRegs
  have any : (w.link n).replay ≠ [] := fun none => some (List.eq_nil_iff_forall_not_mem.mpr fun e he => by have := all e he; rw [none] at this; cases this)
  have counted := replayLink_counted (regs ▸ sorted) any
  have pumped : ((w.replayLink n).pumpLink n).regs = (w.replayLink n).regs := State.pumpLink_keeps (frame_regs rfl _) _ n rfl
  unfold State.counted State.reg at counted ⊢
  rw [pumped, counted, regs]

end Sys2Proof.Machine
end

section
/-! SUPPORT. Flits that are accepted: each is consumed here, dropped, held or passed on. -/

namespace Sys2Proof.Machine

open Sys2Proof

/-! ## What a function's state and the settings decide -/

theorem sealed_of {s u : State} (f : u.fns = s.fns) (c : Nat) : u.sealed c = s.sealed c := by
  unfold State.sealed State.fn
  rw [f]

/-- A route's usable sets are told by the settings and the functions. -/
theorem usableSets_of {s u : State} (h : s.sameSettings u) (f : u.fns = s.fns) (dst : Nat) (dom : Option Nat) : u.usableSets dst dom = s.usableSets dst dom := by
  have routes : u.reg Dict.warpRoute dst = s.reg Dict.warpRoute dst := h _ (by decide) (by decide) dst 0
  have owner : ∀ c, u.reg Dict.sealDomain c = s.reg Dict.sealDomain c := fun c => h _ (by decide) (by decide) c 0
  have level : ∀ d, u.reg Dict.dsecClass 0 d = s.reg Dict.dsecClass 0 d := fun d => h _ (by decide) (by decide) 0 d
  have sets : ∀ i, u.linkSet dst i = s.linkSet dst i := fun i => by unfold State.linkSet; rw [routes]
  have on : ∀ n, u.linkOn n = s.linkOn n := fun n => by unfold State.linkOn State.isOn State.fn; rw [f]
  have links : ∀ n filter, u.linkAdmits n filter dom = s.linkAdmits n filter dom := fun n filter => by unfold State.linkAdmits; rw [sealed_of f, owner]
  have admitted : ∀ filter, u.admits filter dom = s.admits filter dom := fun filter => by unfold State.admits; simp only [level]
  have live : ∀ l filter, u.liveLinks l filter dom = s.liveLinks l filter dom := fun l filter => by unfold State.liveLinks; simp only [on, links]
  unfold State.usableSets
  simp only [sets, live, admitted]

/-! ## The place of a flit is given back (R421) -/

/-- u is s after flits have been taken: the links expect what they expected, and no replay has been counted. -/
structure State.InStep (s u : State) : Prop where
  expects : ∀ n, (u.link n).rxNext = (s.link n).rxNext
  naks : ∀ n, (u.link n).nakSent = (s.link n).nakSent
  replays : u.reg Dict.dnxReplayCount = s.reg Dict.dnxReplayCount

theorem State.InStep.trans {s t u : State} (h : s.InStep t) (k : t.InStep u) : s.InStep u :=
  ⟨fun n => (k.expects n).trans (h.expects n), fun n => (k.naks n).trans (h.naks n), k.replays.trans h.replays⟩

theorem State.InStep.of_links {s u : State} (links : u.dx.links = s.dx.links) (replays : u.reg Dict.dnxReplayCount = s.reg Dict.dnxReplayCount) : s.InStep u := by
  have same : ∀ n, u.link n = s.link n := fun n => by unfold State.link; rw [links]
  exact ⟨fun n => by rw [same], fun n => by rw [same], replays⟩

theorem State.Moves.inStep {s u : State} (h : s.Moves u) (replays : u.reg Dict.dnxReplayCount = s.reg Dict.dnxReplayCount) : s.InStep u :=
  ⟨fun n => (congrArg Link.rxNext (h.receiving n) :), fun n => (congrArg Link.nakSent (h.receiving n) :), replays⟩

/-- A flit's place on link n is given back, and no flit is held for it. -/
def State.consumes (s : State) (n vc cls : Nat) (u : State) : Prop :=
  u.dx.held = s.dx.held ∧ Output.trailer n (((s.link n).rxNext + 4095) % 4096) false vc cls ((Tbl.get 0 (s.link n).given (4 * vc + cls) + 1) % 4096) ∈ u.out

theorem returnCredit_consumes (s : State) (n vc cls : Nat) : s.consumes n vc cls (s.returnCredit n vc cls) := ⟨rfl, List.mem_append_right _ List.mem_cons_self⟩

theorem returnCredit_inStep {s : State} (h : s.Linked) (n vc cls : Nat) : s.InStep (s.returnCredit n vc cls) := by
  unfold State.returnCredit
  dsimp only
  generalize hl : Link.mk .. = l
  have link := link_setLink h.links n l
  have same : l.rxNext = (s.link n).rxNext ∧ l.nakSent = (s.link n).nakSent := hl ▸ ⟨rfl, rfl⟩
  refine ⟨fun m => ?_, fun m => ?_, rfl⟩
  all_goals
    refine (congrArg _ (link m)).trans ?_
    split
    · next q => rw [q]; simp [same]
    · rfl

/-- What waits on a link waits there still. -/
theorem returnCredit_carries {s : State} (h : s.Linked) (n vc cls : Nat) {o vc' : Nat} {x : TxFlit} (c : s.carries o vc' x) : (s.returnCredit n vc cls).carries o vc' x := by
  refine c.imp (fun waits => ?_) fun ⟨seq, gone⟩ => ⟨seq, List.mem_append_left _ gone⟩
  have queue : ((s.returnCredit n vc cls).link o).q = (s.link o).q := by
    refine (congrArg Link.q (link_setLink h.links n _ o)).trans ?_
    split
    · next q => rw [q]
    · rfl
  unfold Link.queue at waits ⊢
  rwa [queue]

/-- A flit of a message that is dropped whole. -/
def State.dropFlit (s : State) (n : Nat) (f : Flit) (mark : Nat) : State :=
  State.returnCredit { s with dx := { s.dx with transit := Tbl.put 0 s.dx.transit (4 * n + f.vc) (if f.last then 0 else mark) } } n f.vc f.hops

theorem dropFlit_consumes {s v : State} (e : v.dx = s.dx) (n : Nat) (f : Flit) (mark : Nat) : s.consumes n f.vc f.hops (v.dropFlit n f mark) := by
  have := returnCredit_consumes { v with dx := { v.dx with transit := Tbl.put 0 v.dx.transit (4 * n + f.vc) (if f.last then 0 else mark) } } n f.vc f.hops
  unfold State.consumes State.link at this ⊢
  rw [e] at this
  rwa [State.dropFlit, e]

theorem dropFlit_inStep {s v : State} (h : s.Linked) (e : v.dx = s.dx) (replays : v.reg Dict.dnxReplayCount = s.reg Dict.dnxReplayCount) (n : Nat) (f : Flit) (mark : Nat) :
    s.InStep (v.dropFlit n f mark) := by
  have marked : s.InStep { v with dx := { v.dx with transit := Tbl.put 0 v.dx.transit (4 * n + f.vc) (if f.last then 0 else mark) } } := .of_links (congrArg Dernyx.links e :) replays
  have linked : ({ v with dx := { v.dx with transit := Tbl.put 0 v.dx.transit (4 * n + f.vc) (if f.last then 0 else mark) } } : State).Linked := h.of_tables (congrArg Dernyx.links e :) (congrArg Dernyx.peers e :)
  exact marked.trans (returnCredit_inStep linked _ _ _)

/-! ## A flit goes on (R420, R429) -/

theorem ev_moves {s : State} (h : s.Linked) (a : Nat) (b : Option Nat) (c d : Nat) (e f : Option Nat) : s.Moves (s.ev a b c d e f) :=
  .of_dx h (State.ev_dx _ _ _ _ _ _ _) fun _ => State.ev_sent _ _ _ _ _ _ _

/-- A flit that is passed on gives its place back, and is carried by another link with one hop more. -/
theorem passFlit_does {s u : State} (h : s.Linked) {n : Nat} {x : TxFlit} {dom : Option Nat} (e : s.passFlit n x dom = some u) :
    s.InStep u ∧ s.consumes n x.vc x.hops u ∧ ∃ o, u.carries o x.vc { x with hops := x.hops + 1 } := by
  have go : ∀ {v : State} (o : Nat), s.Moves v → v.reg Dict.dnxReplayCount = s.reg Dict.dnxReplayCount → (v.queueFlits o x.vc [{ x with hops := x.hops + 1 }]).returnCredit n x.vc x.hops = u →
      s.InStep u ∧ s.consumes n x.vc x.hops u ∧ ∃ o, u.carries o x.vc { x with hops := x.hops + 1 } := by
    intro v o before replays rfl
    obtain ⟨queued, carried⟩ := queueFlits_moves before.linked o x.vc [{ x with hops := x.hops + 1 }]
    have regs : (v.queueFlits o x.vc [{ x with hops := x.hops + 1 }]).regs = v.regs := State.queueFlits_keeps (frame_regs rfl v) _ _ _ _ rfl
    generalize v.queueFlits o x.vc [{ x with hops := x.hops + 1 }] = w at queued carried regs ⊢
    have moves := before.trans queued
    have replays' : w.reg Dict.dnxReplayCount = s.reg Dict.dnxReplayCount := by unfold State.reg at replays ⊢; rw [regs, replays]
    refine ⟨(moves.inStep replays').trans (returnCredit_inStep moves.linked _ _ _), ?_, o, returnCredit_carries moves.linked _ _ _ (carried _ List.mem_cons_self)⟩
    have held : w.dx.held = s.dx.held := Dernyx.unsent_held moves.rest
    have next : (w.link n).rxNext = (s.link n).rxNext := (congrArg Link.rxNext (moves.receiving n) :)
    have given : (w.link n).given = (s.link n).given := (congrArg Link.given (moves.receiving n) :)
    have := returnCredit_consumes w n x.vc x.hops
    unfold State.consumes at this ⊢
    rwa [held, next, given] at this
  unfold State.passFlit at e
  dsimp only at e
  split at e
  · obtain ⟨⟨o, v⟩, route, e⟩ := Option.map_eq_some_iff.mp e
    obtain ⟨a, b, rfl⟩ := route_some route
    dsimp only at e
    generalize hv : State.mk .. = v at e
    have dx : v.dx.links = s.dx.links ∧ v.dx.unsent = s.dx.unsent := hv ▸ ⟨rfl, rfl⟩
    have chosen : s.Moves v := .of_links h dx.1 dx.2 fun y hy => hv ▸ hy
    have regs : v.regs = s.regs := hv ▸ rfl
    refine go o (chosen.trans (ev_moves chosen.linked _ _ _ _ _ _)) ?_ e
    rw [ev_reg, State.reg, regs]
    rfl
  · split at e
    · cases e
    · exact go _ (.refl h) rfl (Option.some.inj e)

/-- A message's first flit goes on where a set of its route is usable. -/
theorem passFlit_none_iff (s : State) (n : Nat) {x : TxFlit} (dom : Option Nat) (first : x.first = true) : s.passFlit n x dom = none ↔ s.usableSets x.dst dom = [] := by
  unfold State.passFlit
  dsimp only
  rw [if_pos first, Option.map_eq_none_iff, route_none_iff]

/-! ## A flit is accepted (R134, R418, R420, R424) -/

/-- The source of an accepted flit is heard. -/
def State.flitHeard (s : State) (n : Nat) (f : Flit) : State := (s.ev 0x1C1 none 1 n).heardFrom f.src

/-- A message of a sealed channel that is not its domain's (R134). -/
def State.sealedOff (s : State) (n : Nat) (f : Flit) : Prop := f.vc ≠ 3 ∧ s.sealed (n / 12) = true ∧ flitDom f ≠ some (s.reg Dict.sealDomain (n / 12))

/-- A flit for this device, or for the device at the link's end. -/
def State.isFor (s : State) (f : Flit) : Prop := f.dst = s.device ∨ f.typ = 1 ∧ (be f.pay 2 1 = 1 ∨ be f.pay 2 1 = 2 ∨ be f.pay 2 1 = 0x12)

/-- A received flit as it stands where it goes on. -/
def onward (f : Flit) : TxFlit :=
  { vc := f.vc, dst := f.dst, src := f.src, typ := f.typ, first := f.first, last := f.last, prot := f.prot, parity := f.parity, hops := f.hops, pay := .raw f.pay }

/-- A flit that is held for want of a usable set. -/
def State.holdFlit (s : State) (n : Nat) (f : Flit) : State := { s with dx := { s.dx with held := s.dx.held ++ [(n, onward f)] } }

/-- No flit of that channel of link n is held. -/
def State.free (s : State) (n vc : Nat) : Prop := ∀ y ∈ s.dx.held, ¬(y.1 = n ∧ y.2.vc = vc)

/-- A message dropped at a sealed link is counted and told. -/
def State.foreign (s : State) (n : Nat) (f : Flit) : State := (s.inc Dict.secSealedFlitDrops).ev 0x24C none 1 n (flitDom f)

theorem foreign_dx (s : State) (n : Nat) (f : Flit) (dom : Nat) : ((s.foreign n f).journal 1 (n / 12) 0x24C dom n []).dx = s.dx := (State.journal_dx _ _ _ _ _ _ _ _).trans (State.ev_dx _ _ _ _ _ _ _)

theorem foreign_reg (s : State) (n : Nat) (f : Flit) (dom : Nat) {x : Entry} (h1 : regKey x 0 0 ≠ regKey (classCount 1) 0 0) (h2 : regKey x 0 0 ≠ regKey Dict.dictStoreWrites 0 0)
    (h3 : regKey x 0 0 ≠ regKey Dict.faultJournalOverwrites 0 0) : ((s.foreign n f).journal 1 (n / 12) 0x24C dom n []).reg x = (s.inc Dict.secSealedFlitDrops).reg x :=
  (journal_reg _ 1 (n / 12) 0x24C dom n [] 0 h1 h2 h3).trans (ev_reg (s.inc Dict.secSealedFlitDrops) 0x24C none 1 n (flitDom f) none x)

/-- A message's first flit that ends here is told. -/
def State.began (s : State) (n : Nat) (f : Flit) : State := s.when (f.first && decide (f.vc ≠ 3)) fun s => s.ev 0x1C3 none (be f.pay 4 4 / 1024) n

theorem began_same (s : State) (n : Nat) (f : Flit) : (s.began n f).dx = s.dx ∧ (s.began n f).regs = s.regs :=
  when_keeps (P := fun u => u.dx = s.dx ∧ u.regs = s.regs) (fun _ hu => ⟨(State.ev_dx _ _ _ _ _ _ _).trans hu.1, (State.ev_regs _ _ _ _ _ _ _).trans hu.2⟩) ⟨rfl, rfl⟩

end Sys2Proof.Machine
end

section
/-! SUPPORT. What an accepted flit comes to, by the order of the checks (R134, R418, R420, R424, R429). -/

namespace Sys2Proof.Machine

open Sys2Proof

/-! ## The checks -/

/-- A flit goes on, or is held behind those of its message's channel or for want of a usable set. -/
def State.passOrHold (s : State) (n : Nat) (f : Flit) : State :=
  match (if s.dx.held.any (fun (y : Nat × TxFlit) => y.1 == n && y.2.vc == f.vc) then none else s.passFlit n (onward f) (flitDom f)) with
  | some s => s
  | none => s.holdFlit n f

/-- The checks of an accepted flit, in their order. -/
theorem takeFlit_eq (s : State) (n : Nat) (f : Flit) :
    s.takeFlit n f =
      let v := s.flitHeard n f
      if !f.first && decide (Tbl.get 0 v.dx.transit (4 * n + f.vc) = dropMark) then v.dropFlit n f dropMark
      else if !f.first && decide (Tbl.get 0 v.dx.transit (4 * n + f.vc) = sealMark) then ((v.foreign n f).journal 1 (n / 12) 0x24C 0xFFFF n []).dropFlit n f sealMark
      else if f.first && decide (f.vc ≠ 3) && v.sealed (n / 12) && decide (flitDom f ≠ some (v.reg Dict.sealDomain (n / 12))) then
        ((v.foreign n f).journal 1 (n / 12) 0x24C ((flitDom f).getD 0xFFFF) n []).dropFlit n f sealMark
      else if f.dst = v.device ∨ (f.typ = 1 ∧ (be f.pay 2 1 = 1 ∨ be f.pay 2 1 = 2 ∨ be f.pay 2 1 = 0x12)) then
        if flitKnown f then (v.began n f).returnCredit n f.vc f.hops else (v.began n f).badMsg.dropFlit n f dropMark
      else if 2 ≤ f.hops then ((v.inc Dict.dnxHopDropCount).ev 0x1D0 none 1 n).dropFlit n f dropMark
      else if f.first && !v.present f.dst then v.badMsg.dropFlit n f dropMark
      else v.passOrHold n f := by
  rfl

/-- Where no flit of its message's channel is held, a first flit is held just where no set of its route is usable. -/
theorem passOrHold_holds {s : State} {n : Nat} {f : Flit} (first : f.first = true) (nothing : s.usableSets f.dst (flitDom f) = []) : s.passOrHold n f = s.holdFlit n f := by
  unfold State.passOrHold
  rw [(passFlit_none_iff s n (x := onward f) (flitDom f) first).mpr nothing, ite_self]

theorem passOrHold_passes {s : State} {n : Nat} {f : Flit} (first : f.first = true) (free : s.free n f.vc) (usable : s.usableSets f.dst (flitDom f) ≠ []) :
    s.passFlit n (onward f) (flitDom f) = some (s.passOrHold n f) := by
  unfold State.passOrHold
  rw [if_neg]
  · cases e : s.passFlit n (onward f) (flitDom f) with
    | none => exact absurd ((passFlit_none_iff s n (x := onward f) (flitDom f) first).mp e) usable
    | some u => rfl
  · intro q
    obtain ⟨y, member, same⟩ := List.any_eq_true.mp q
    exact free y member (by simpa using same)

theorem passOrHold_inStep {s : State} (h : s.Linked) (n : Nat) (f : Flit) : s.InStep (s.passOrHold n f) := by
  unfold State.passOrHold
  split
  · next u e =>
    split at e
    · cases e
    · exact (passFlit_does h e).1
  · exact .of_links rfl rfl

/-! ## Each check's outcome, for a message's first flit -/

section
variable {s : State} {n : Nat} {f : Flit} (first : f.first = true)
include first

/-- A message's first flit that the seal turns away. -/
theorem takeFlit_sealedOff (off : (s.flitHeard n f).sealedOff n f) :
    s.takeFlit n f = (((s.flitHeard n f).foreign n f).journal 1 (n / 12) 0x24C ((flitDom f).getD 0xFFFF) n []).dropFlit n f sealMark := by
  obtain ⟨vc, closed, dom⟩ := off
  rw [takeFlit_eq]
  dsimp only
  rw [if_neg (by simp [first]), if_neg (by simp [first]), if_pos]
  rw [first, closed, decide_eq_true vc, decide_eq_true dom]
  rfl

/-- One that the seal lets through. -/
theorem takeFlit_inside (inside : ¬(s.flitHeard n f).sealedOff n f) :
    s.takeFlit n f =
      let v := s.flitHeard n f
      if f.dst = v.device ∨ (f.typ = 1 ∧ (be f.pay 2 1 = 1 ∨ be f.pay 2 1 = 2 ∨ be f.pay 2 1 = 0x12)) then
        if flitKnown f then (v.began n f).returnCredit n f.vc f.hops else (v.began n f).badMsg.dropFlit n f dropMark
      else if 2 ≤ f.hops then ((v.inc Dict.dnxHopDropCount).ev 0x1D0 none 1 n).dropFlit n f dropMark
      else if f.first && !v.present f.dst then v.badMsg.dropFlit n f dropMark
      else v.passOrHold n f := by
  rw [takeFlit_eq]
  dsimp only
  rw [if_neg (by simp [first]), if_neg (by simp [first]), if_neg]
  intro q
  simp only [Bool.and_eq_true, decide_eq_true_eq] at q
  exact inside ⟨q.1.1.2, q.1.2, q.2⟩

theorem takeFlit_known (inside : ¬(s.flitHeard n f).sealedOff n f) (here : (s.flitHeard n f).isFor f) (known : flitKnown f = true) :
    s.takeFlit n f = ((s.flitHeard n f).began n f).returnCredit n f.vc f.hops := by
  rw [takeFlit_inside first inside]
  exact (if_pos here).trans (if_pos known)

theorem takeFlit_unknown (inside : ¬(s.flitHeard n f).sealedOff n f) (here : (s.flitHeard n f).isFor f) (unknown : flitKnown f = false) :
    s.takeFlit n f = ((s.flitHeard n f).began n f).badMsg.dropFlit n f dropMark := by
  rw [takeFlit_inside first inside]
  exact (if_pos here).trans (if_neg (by simp [unknown]))

theorem takeFlit_hops (inside : ¬(s.flitHeard n f).sealedOff n f) (there : ¬(s.flitHeard n f).isFor f) (hops : 2 ≤ f.hops) :
    s.takeFlit n f = (((s.flitHeard n f).inc Dict.dnxHopDropCount).ev 0x1D0 none 1 n).dropFlit n f dropMark := by
  rw [takeFlit_inside first inside]
  exact (if_neg there).trans (if_pos hops)

theorem takeFlit_absent (inside : ¬(s.flitHeard n f).sealedOff n f) (there : ¬(s.flitHeard n f).isFor f) (hops : f.hops < 2) (absent : (s.flitHeard n f).present f.dst = false) :
    s.takeFlit n f = (s.flitHeard n f).badMsg.dropFlit n f dropMark := by
  rw [takeFlit_inside first inside]
  exact (if_neg there).trans ((if_neg (Nat.not_le_of_lt hops)).trans (if_pos (by simp [first, absent])))

theorem takeFlit_onward (inside : ¬(s.flitHeard n f).sealedOff n f) (there : ¬(s.flitHeard n f).isFor f) (hops : f.hops < 2) (present : (s.flitHeard n f).present f.dst = true) :
    s.takeFlit n f = (s.flitHeard n f).passOrHold n f := by
  rw [takeFlit_inside first inside]
  exact (if_neg there).trans ((if_neg (Nat.not_le_of_lt hops)).trans (if_neg (by simp [present])))

end

/-! ## What every accepted flit leaves -/

theorem flitHeard_does (s : State) (n : Nat) (f : Flit) : (s.flitHeard n f).dx.links = s.dx.links ∧ (s.flitHeard n f).dx.held = s.dx.held ∧ (s.flitHeard n f).regs = s.regs ∧ (s.flitHeard n f).fns = s.fns := by
  obtain ⟨p, heard⟩ := heardFrom_dx (s.ev 0x1C1 none 1 n) f.src
  unfold State.flitHeard
  rw [heard]
  exact ⟨(congrArg Dernyx.links (State.ev_dx _ _ _ _ _ _ _) :), (congrArg Dernyx.held (State.ev_dx _ _ _ _ _ _ _) :), State.ev_regs _ _ _ _ _ _ _, State.ev_fns _ _ _ _ _ _ _⟩

theorem flitHeard_linked {s : State} (h : s.Linked) (n : Nat) (f : Flit) : (s.flitHeard n f).Linked := heardFrom_linked (h.of_dx (State.ev_dx _ _ _ _ _ _ _)) f.src

theorem foreign_replays (s : State) (n : Nat) (f : Flit) (dom : Nat) : ((s.foreign n f).journal 1 (n / 12) 0x24C dom n []).reg Dict.dnxReplayCount = s.reg Dict.dnxReplayCount :=
  (foreign_reg s n f dom (by decide) (by decide) (by decide)).trans (inc_other (by decide))

/-- An accepted flit leaves what the links expect, and counts no replay. -/
theorem takeFlit_inStep {s : State} (h : s.Linked) (n : Nat) (f : Flit) : s.InStep (s.takeFlit n f) := by
  obtain ⟨links, -, regs, -⟩ := flitHeard_does s n f
  have linked := flitHeard_linked h n f
  have heard : s.InStep (s.flitHeard n f) := .of_links links (by unfold State.reg; rw [regs])
  refine heard.trans ?_
  have bad : ∀ v : State, v.badMsg.reg Dict.dnxReplayCount = v.reg Dict.dnxReplayCount := fun v => inc_other (by decide)
  rw [takeFlit_eq]
  dsimp only
  generalize s.flitHeard n f = v at linked ⊢
  obtain ⟨beganDx, beganRegs⟩ := began_same v n f
  have begun : (v.began n f).reg Dict.dnxReplayCount = v.reg Dict.dnxReplayCount := by unfold State.reg; rw [beganRegs]
  split
  · exact dropFlit_inStep linked rfl rfl n f _
  split
  · exact dropFlit_inStep linked (foreign_dx v n f _) (foreign_replays v n f _) n f _
  split
  · exact dropFlit_inStep linked (foreign_dx v n f _) (foreign_replays v n f _) n f _
  split
  · split
    · exact State.InStep.trans (.of_links (congrArg Dernyx.links beganDx) begun) (returnCredit_inStep (linked.of_dx beganDx) _ _ _)
    · refine dropFlit_inStep linked ?_ ?_ n f _
      · exact beganDx
      · exact (bad _).trans begun
  split
  · refine dropFlit_inStep linked ?_ ?_ n f _
    · exact State.ev_dx _ _ _ _ _ _ _
    · rw [ev_reg]
      exact inc_other (by decide)
  split
  · refine dropFlit_inStep linked ?_ ?_ n f _
    · rfl
    · exact bad v
  · exact passOrHold_inStep linked n f

end Sys2Proof.Machine
end

section
/-! SUPPORT. FLIT_RECEIVE: a flit that fails its CRC, one out of sequence, a trailer alone, and one that is accepted (R418-R421). -/

namespace Sys2Proof.Machine

open Sys2Proof

/-! ## A NAK (R418) -/

theorem nakLink_does {s : State} (h : s.Linked) (n : Nat) : (s.nakLink n).link n = { s.link n with nakSent := true } ∧ (s.nakLink n).regs = s.regs ∧
    ((s.link n).nakSent = false → Output.trailer n (((s.link n).rxNext + 4095) % 4096) true 0 0 (Tbl.get 0 (s.link n).given 0) ∈ (s.nakLink n).out) := by
  unfold State.nakLink
  dsimp only
  by_cases sent : (s.link n).nakSent = true
  · rw [if_pos sent]
    exact ⟨by rw [← sent], rfl, fun q => absurd (q.symm.trans sent) Bool.false_ne_true⟩
  · rw [if_neg sent]
    exact ⟨(link_setLink h.links n _ n).trans (if_pos rfl), rfl, fun _ => List.mem_append_right _ List.mem_cons_self⟩

/-- Link n stands NAKed: a NAK has gone out where none had. -/
def State.naks (s : State) (n : Nat) (u : State) : Prop :=
  (u.link n).nakSent = true ∧ ((s.link n).nakSent = false → Output.trailer n (((s.link n).rxNext + 4095) % 4096) true 0 0 (Tbl.get 0 (s.link n).given 0) ∈ u.out)

/-- A NAK tells what the link expected before its peer's credits were taken. -/
theorem nakLink_naks {s v : State} (h : v.Linked) {n : Nat} (e : (v.link n).expecting = (s.link n).expecting) : s.naks n (v.nakLink n) ∧ ((v.nakLink n).link n).rxNext = (s.link n).rxNext := by
  obtain ⟨link, -, told⟩ := nakLink_does h n
  have next : (v.link n).rxNext = (s.link n).rxNext := (congrArg Link.rxNext e :)
  have given : (v.link n).given = (s.link n).given := (congrArg Link.given e :)
  have sent : (v.link n).nakSent = (s.link n).nakSent := (congrArg Link.nakSent e :)
  rw [next, given, sent] at told
  exact ⟨⟨by rw [link], told⟩, by rw [link, next]⟩

/-! ## The branches of FLIT_RECEIVE -/

/-- A link that has received what it expected. -/
def State.expectNext (s : State) (n seq : Nat) : State := s.setLink n { s.link n with rxNext := (seq + 1) % 4096, nakSent := false }

/-- The record of a link on which a flit has failed its CRC. -/
def Link.crcFailed (l : Link) : Link := { l with crcFails := (l.crcFails + 1) % 2 ^ 32 }

/-- A flit that failed its CRC. -/
def State.crcFailed (s : State) (n : Nat) : State := ((s.setLink n (s.link n).crcFailed).inc Dict.dnxCrcFailCount).ev 0x1C4 none 1 n

/-- What a flit that passes its CRC does. -/
def State.takeWhole (s : State) (n : Nat) (f : Flit) : State :=
  let s := s.takeTrailer n f
  if f.typ = 0 then s else if f.seq ≠ (s.link n).rxNext then s.nakLink n else (s.expectNext n f.seq).takeFlit n f

section
variable {s : State} (t : Nat) {n : Nat} (f : Flit) (live : s.live = true) (low : n < 48)
include live low

theorem flitReceive_down (down : s.linkLive n = false) : exec (.flitReceive t n f) s = .next (s.at t) :=
  (execFlitReceive.eq_1 t n f s).trans ((run_wf _ (show (Instr.flitReceive t n f).wf = true from decide_eq_true low) live).trans (congrArg _ (if_pos down)))

theorem flitReceive_broken (up : s.linkLive n = true) (broken : f.crcOk = false) : exec (.flitReceive t n f) s = .next (((s.at t).crcFailed n).nakLink n) :=
  (execFlitReceive.eq_1 t n f s).trans ((run_wf _ (show (Instr.flitReceive t n f).wf = true from decide_eq_true low) live).trans (congrArg _ ((if_neg fun q => Bool.false_ne_true (q.symm.trans up)).trans (if_pos broken))))

theorem flitReceive_whole (up : s.linkLive n = true) (whole : f.crcOk = true) : exec (.flitReceive t n f) s =
    .next ((s.at t).takeWhole n f) :=
  (execFlitReceive.eq_1 t n f s).trans ((run_wf _ (show (Instr.flitReceive t n f).wf = true from decide_eq_true low) live).trans
    (congrArg _ ((if_neg fun q => Bool.false_ne_true (q.symm.trans up)).trans (if_neg fun q => Bool.false_ne_true (q.symm.trans whole)))))

end

/-- A flit that failed its CRC is counted and NAKed. -/
theorem crcFailed_does {s : State} (h : s.Linked) (sorted : Tbl.sorted s.regs) (n : Nat) :
    ((s.crcFailed n).nakLink n).link n = { (s.link n).crcFailed with nakSent := true } ∧ s.counted Dict.dnxCrcFailCount ((s.crcFailed n).nakLink n) ∧
      s.naks n ((s.crcFailed n).nakLink n) := by
  have dx : (s.crcFailed n).dx = (s.setLink n (s.link n).crcFailed).dx := State.ev_dx _ _ _ _ _ _ _
  have linked : (s.crcFailed n).Linked := (h.setLink n (l := (s.link n).crcFailed) (h.queues n)).of_dx dx
  have link : (s.crcFailed n).link n = (s.link n).crcFailed := (link_of_dx dx n).trans ((link_setLink h.links n _ n).trans (if_pos rfl))
  have counted : s.counted Dict.dnxCrcFailCount (s.crcFailed n) := (ev_reg _ _ _ _ _ _ _ _).trans (inc_counted sorted Dict.dnxCrcFailCount)
  obtain ⟨nakked, regs, told⟩ := nakLink_does linked n
  rw [link] at nakked told
  refine ⟨nakked, ?_, by rw [nakked], told⟩
  unfold State.counted State.reg at counted ⊢
  rw [regs, counted]

/-! ## An accepted flit (R134, R420, R424, R429) -/

/-- v is s on the way to the checks of flit f, which link n expected. -/
structure State.Admitting (s : State) (n : Nat) (f : Flit) (v : State) : Prop where
  linked : v.Linked
  sorted : Tbl.sorted v.regs
  settings : s.sameSettings v
  fns : v.fns = s.fns
  held : v.dx.held = s.dx.held
  present : f.dst ≠ f.src ∨ s.present f.dst = true → v.present f.dst = s.present f.dst
  values : ∀ x : Entry, regKey x 0 0 ≠ regKey Dict.dnxReplayCount 0 0 → v.reg x = s.reg x
  next : (v.link n).rxNext = (f.seq + 1) % 4096
  given : (v.link n).given = (s.link n).given
  quiet : (v.link n).nakSent = false

theorem expectNext_admitting {s : State} (h : s.Linked) (sorted : Tbl.sorted s.regs) (n : Nat) (f : Flit) : s.Admitting n f ((s.takeTrailer n f).expectNext n f.seq) := by
  obtain ⟨linked, rest, links, regs⟩ := takeTrailer_leaves h n f
  have settings : s.sameSettings (s.takeTrailer n f) := State.takeTrailer_keeps (frame_settings rfl s) s n f fun _ _ _ _ _ => rfl
  have fns : (s.takeTrailer n f).fns = s.fns := State.takeTrailer_keeps (frame_fns rfl s) s n f rfl
  have order : Tbl.sorted (s.takeTrailer n f).regs := State.takeTrailer_keeps (sorted_stable _) s n f sorted
  generalize s.takeTrailer n f = v at linked rest links regs settings fns order ⊢
  have link := (link_setLink linked.links n { v.link n with rxNext := (f.seq + 1) % 4096, nakSent := false } n).trans (if_pos rfl)
  have peer : v.peer f.dst = s.peer f.dst := by unfold State.peer; rw [Dernyx.unsent_peers rest]
  exact {
    linked := linked.setLink n (linked.queues n)
    sorted := order
    settings := settings
    fns := fns
    held := Dernyx.unsent_held rest
    present := fun _ => present_of settings peer
    values := regs
    next := (congrArg Link.rxNext link :)
    given := (congrArg Link.given link :).trans (congrArg Link.given (links n) :)
    quiet := (congrArg Link.nakSent link :) }

/-- The flit's source is heard before the checks. -/
theorem flitHeard_admitting {s v : State} {n : Nat} {f : Flit} (h : s.Admitting n f v) : s.Admitting n f (v.flitHeard n f) := by
  obtain ⟨links, held, regs, fns⟩ := flitHeard_does v n f
  have link : (v.flitHeard n f).link n = v.link n := by unfold State.link; rw [links]
  have reg : ∀ x sub i, (v.flitHeard n f).reg x sub i = v.reg x sub i := fun x sub i => by unfold State.reg; rw [regs]
  exact {
    linked := flitHeard_linked h.linked n f
    sorted := regs ▸ h.sorted
    settings := fun x hx hw sub i => (reg x sub i).trans (h.settings x hx hw sub i)
    fns := fns.trans h.fns
    held := held.trans h.held
    present := fun k => by
      have told : (v.ev 0x1C1 none 1 n).present f.dst = v.present f.dst :=
        present_of (fun x _ _ sub i => ev_reg' _ _ _ _ _ _ _ x sub i) (by unfold State.peer; rw [State.ev_dx])
      have here : f.dst ≠ f.src ∨ (v.ev 0x1C1 none 1 n).present f.dst = true := k.imp_right fun q => by rw [told, h.present k, q]
      exact (heardFrom_present (h.linked.of_dx (State.ev_dx _ _ _ _ _ _ _)) here).trans (told.trans (h.present k))
    values := fun x hx => (reg x 0 0).trans (h.values x hx)
    next := by rw [link, h.next]
    given := by rw [link, h.given]
    quiet := by rw [link, h.quiet] }

section
variable {s v : State} {n : Nat} {f : Flit} (h : s.Admitting n f v)
include h

theorem admitting_sealedOff : v.sealedOff n f ↔ s.sealedOff n f := by
  unfold State.sealedOff
  rw [sealed_of h.fns, h.settings Dict.sealDomain (by decide) (by decide) (n / 12) 0]

theorem admitting_isFor : v.isFor f ↔ s.isFor f := by
  have device : v.device = s.device := h.settings Dict.warpDeviceIndex (by decide) (by decide) 0 0
  unfold State.isFor
  rw [device]

/-- The flit's place is given back with its sequence acknowledged. -/
def State.returns (s : State) (n : Nat) (f : Flit) (u : State) : Prop :=
  Tbl.sorted (s.link n).given → Output.trailer n (f.seq % 4096) false f.vc f.hops ((Tbl.get 0 (s.link n).given (4 * f.vc + f.hops) + 1) % 4096) ∈ u.out

theorem admitting_consumes {u : State} (k : v.consumes n f.vc f.hops u) : s.returns n f u ∧ u.dx.held = s.dx.held := by
  obtain ⟨held, told⟩ := k
  rw [h.next, h.given, show ((f.seq + 1) % 4096 + 4095) % 4096 = f.seq % 4096 by omega] at told
  exact ⟨fun _ => told, held.trans h.held⟩

theorem admitting_counted {u : State} {e : Entry} (other : regKey e 0 0 ≠ regKey Dict.dnxReplayCount 0 0) (k : v.counted e u) : s.counted e u := by
  unfold State.counted at k ⊢
  rw [k, h.values e other]

end

/-! ## What the checks come to -/

/-- What a flit of an accepted message's beginning comes to. -/
structure State.Outcome (s : State) (n : Nat) (f : Flit) (u : State) : Prop where
  foreign : s.sealedOff n f → s.counted Dict.secSealedFlitDrops u ∧ s.returns n f u ∧ u.dx.held = s.dx.held
  known : ¬s.sealedOff n f → s.isFor f → flitKnown f = true → s.returns n f u ∧ u.dx.held = s.dx.held
  unknown : ¬s.sealedOff n f → s.isFor f → flitKnown f = false → s.counted Dict.dnxBadMessageCount u ∧ s.returns n f u ∧ u.dx.held = s.dx.held
  hops : ¬s.sealedOff n f → ¬s.isFor f → 2 ≤ f.hops → s.counted Dict.dnxHopDropCount u ∧ s.returns n f u ∧ u.dx.held = s.dx.held
  absent : ¬s.sealedOff n f → ¬s.isFor f → f.hops < 2 → f.dst ≠ f.src → s.present f.dst = false → s.counted Dict.dnxBadMessageCount u ∧ s.returns n f u ∧ u.dx.held = s.dx.held
  waits : ¬s.sealedOff n f → ¬s.isFor f → f.hops < 2 → s.present f.dst = true → s.free n f.vc → s.usableSets f.dst (flitDom f) = [] → u.dx.held = s.dx.held ++ [(n, onward f)]
  passes : ¬s.sealedOff n f → ¬s.isFor f → f.hops < 2 → s.present f.dst = true → s.free n f.vc → s.usableSets f.dst (flitDom f) ≠ [] →
    u.dx.held = s.dx.held ∧ s.returns n f u ∧ ∃ o, u.carries o f.vc { onward f with hops := f.hops + 1 }

theorem dropFlit_counted {s v : State} {e : Entry} (h : s.counted e v) (n : Nat) (f : Flit) (mark : Nat) : s.counted e (v.dropFlit n f mark) := h

theorem takeFlit_outcome {s w : State} {n : Nat} {f : Flit} (k : s.Admitting n f w) (first : f.first = true) : s.Outcome n f (w.takeFlit n f) := by
  have h := flitHeard_admitting k
  have off := admitting_sealedOff h
  have here := admitting_isFor h
  have drop : ∀ {v : State} (mark : Nat), v.dx = (w.flitHeard n f).dx → s.returns n f (v.dropFlit n f mark) ∧ (v.dropFlit n f mark).dx.held = s.dx.held := fun mark e =>
    admitting_consumes h (dropFlit_consumes e n f mark)
  have usable := usableSets_of h.settings h.fns f.dst (flitDom f)
  obtain ⟨beganDx, beganRegs⟩ := began_same (w.flitHeard n f) n f
  have bad : ∀ mark : Nat, s.counted Dict.dnxBadMessageCount ((w.flitHeard n f).badMsg.dropFlit n f mark) := fun mark =>
    admitting_counted h (by decide) (dropFlit_counted (inc_counted h.sorted Dict.dnxBadMessageCount) n f mark)
  exact {
    foreign := fun o => by
      rw [takeFlit_sealedOff first (off.mpr o)]
      exact ⟨admitting_counted h (by decide) (dropFlit_counted ((foreign_reg _ n f _ (by decide) (by decide) (by decide)).trans (inc_counted h.sorted Dict.secSealedFlitDrops)) n f _), drop sealMark (foreign_dx _ n f _)⟩
    known := fun i m g => by
      rw [takeFlit_known first (i ∘ off.mp) (here.mpr m) g]
      have := returnCredit_consumes ((w.flitHeard n f).began n f) n f.vc f.hops
      refine admitting_consumes h ?_
      unfold State.consumes State.link at this ⊢
      rwa [beganDx] at this
    unknown := fun i m g => by
      rw [takeFlit_unknown first (i ∘ off.mp) (here.mpr m) g]
      refine ⟨admitting_counted h (by decide) (dropFlit_counted ?_ n f _), drop dropMark beganDx⟩
      have := inc_counted (beganRegs ▸ h.sorted) Dict.dnxBadMessageCount
      unfold State.counted State.reg at this ⊢
      rwa [beganRegs] at this
    hops := fun i m g => by
      rw [takeFlit_hops first (i ∘ off.mp) (m ∘ here.mp) g]
      exact ⟨admitting_counted h (by decide) (dropFlit_counted ((ev_reg _ _ _ _ _ _ _ _).trans (inc_counted h.sorted Dict.dnxHopDropCount)) n f _), drop dropMark (State.ev_dx _ _ _ _ _ _ _)⟩
    absent := fun i m g d p => by
      rw [takeFlit_absent first (i ∘ off.mp) (m ∘ here.mp) g ((h.present (.inl d)).trans p)]
      exact ⟨bad dropMark, drop dropMark rfl⟩
    waits := fun i m g p b u => by
      rw [takeFlit_onward first (i ∘ off.mp) (m ∘ here.mp) g ((h.present (.inr p)).trans p), passOrHold_holds first (usable.trans u)]
      exact congrArg (· ++ [(n, onward f)]) h.held
    passes := fun i m g p b u => by
      rw [takeFlit_onward first (i ∘ off.mp) (m ∘ here.mp) g ((h.present (.inr p)).trans p)]
      have free : (w.flitHeard n f).free n f.vc := by unfold State.free; rwa [h.held]
      obtain ⟨-, consumed, carried⟩ := passFlit_does h.linked (passOrHold_passes first free fun q => u (usable.symm.trans q))
      obtain ⟨told, held⟩ := admitting_consumes h consumed
      exact ⟨held, told, carried⟩ }

end Sys2Proof.Machine
end

section
/-! SUPPORT. What a flit does, by whether it is a trailer alone, out of its turn or in its turn, and the statement about links. -/

namespace Sys2Proof.Machine

open Sys2Proof

/-! ## A flit that passes its CRC (R418, R419) -/

theorem takeWhole_trailer (s : State) (n : Nat) {f : Flit} (alone : f.typ = 0) : s.takeWhole n f = s.takeTrailer n f := if_pos alone

section
variable {s : State} (h : s.Linked) (n : Nat) (f : Flit)
include h

theorem takeWhole_outOfTurn (more : f.typ ≠ 0) (turn : f.seq ≠ (s.link n).rxNext) : s.takeWhole n f = (s.takeTrailer n f).nakLink n := by
  have next : ((s.takeTrailer n f).link n).rxNext = (s.link n).rxNext := (congrArg Link.rxNext ((takeTrailer_leaves h n f).2.2.1 n) :)
  exact (if_neg more).trans (if_pos (by rwa [next]))

theorem takeWhole_inTurn (more : f.typ ≠ 0) (turn : f.seq = (s.link n).rxNext) : s.takeWhole n f = ((s.takeTrailer n f).expectNext n f.seq).takeFlit n f := by
  have next : ((s.takeTrailer n f).link n).rxNext = (s.link n).rxNext := (congrArg Link.rxNext ((takeTrailer_leaves h n f).2.2.1 n) :)
  exact (if_neg more).trans (if_neg fun q => q (by rwa [next]))

/-- After its trailer a flit only adds to what is sent, and counts no replay. -/
theorem takeWhole_after : (∀ o ∈ (s.takeTrailer n f).out, o ∈ (s.takeWhole n f).out) ∧ (s.takeWhole n f).reg Dict.dnxReplayCount = (s.takeTrailer n f).reg Dict.dnxReplayCount := by
  obtain ⟨linked, -⟩ := takeTrailer_leaves h n f
  unfold State.takeWhole
  dsimp only
  generalize s.takeTrailer n f = v at linked ⊢
  split
  · exact ⟨fun _ => id, rfl⟩
  split
  · refine ⟨fun o => State.nakLink_keeps (sent_stable _ o) v n, ?_⟩
    unfold State.reg
    rw [(nakLink_does linked n).2.1]
  · have expected : (v.expectNext n f.seq).Linked := linked.setLink n (linked.queues n)
    exact ⟨fun o (ho : o ∈ (v.expectNext n f.seq).out) => State.takeFlit_keeps (sent_stable _ o) _ n f ho, (takeFlit_inStep expected n f).replays⟩

/-- A NAK is heeded, whatever else the flit brings. -/
theorem takeWhole_replays (sorted : Tbl.sorted s.regs) (nak : f.nak = true) :
    (∀ e ∈ (s.link n).acked f, Output.flit n e.1 e.2 ∈ (s.takeWhole n f).out) ∧ ((s.link n).acked f ≠ [] → s.counted Dict.dnxReplayCount (s.takeWhole n f)) := by
  obtain ⟨sent, counted⟩ := takeTrailer_replays h sorted n nak
  obtain ⟨kept, same⟩ := takeWhole_after h n f
  exact ⟨fun e he => kept _ (sent e he), fun some => counted_of (counted some) same⟩

/-- An accepted flit moves the link on. -/
theorem takeWhole_expects (sorted : Tbl.sorted s.regs) (more : f.typ ≠ 0) (turn : f.seq = (s.link n).rxNext) :
    ((s.takeWhole n f).link n).rxNext = (f.seq + 1) % 4096 ∧ ((s.takeWhole n f).link n).nakSent = false := by
  have k := expectNext_admitting h sorted n f
  have step := takeFlit_inStep k.linked n f
  rw [takeWhole_inTurn h n f more turn, step.expects, step.naks]
  exact ⟨k.next, k.quiet⟩

end

/-! ## The statement -/

section
variable {s : State} (t : Nat) {n : Nat} (f : Flit) (live : s.live = true) (linked : s.Linked) (sorted : Tbl.sorted s.regs) (low : n < 48) (up : s.linkLive n = true)
include live linked sorted low up

theorem flitReceive_crc (broken : f.crcOk = false) : ∃ u, exec (.flitReceive t n f) s = .next u ∧
    u.link n = { s.link n with crcFails := ((s.link n).crcFails + 1) % 2 ^ 32, nakSent := true } ∧ s.counted Dict.dnxCrcFailCount u ∧ s.naks n u :=
  ⟨_, flitReceive_broken t f live low up broken, crcFailed_does (s := s.at t) (linked.of_dx rfl) sorted n⟩

theorem flitReceive_does (whole : f.crcOk = true) : ∃ u, exec (.flitReceive t n f) s = .next u ∧
    (f.nak = true → (∀ e ∈ (s.link n).acked f, Output.flit n e.1 e.2 ∈ u.out) ∧ ((s.link n).acked f ≠ [] → s.counted Dict.dnxReplayCount u)) ∧
    (f.typ = 0 → (u.link n).rxNext = (s.link n).rxNext ∧ (u.link n).nakSent = (s.link n).nakSent ∧
      (f.crClass < 3 → Tbl.sorted (s.link n).ret → Tbl.get 0 (u.link n).ret (4 * f.crVc + f.crClass) = f.crTotal)) ∧
    (f.typ ≠ 0 → f.seq ≠ (s.link n).rxNext → (u.link n).rxNext = (s.link n).rxNext ∧ s.naks n u) ∧
    (f.typ ≠ 0 → f.seq = (s.link n).rxNext → (u.link n).rxNext = (f.seq + 1) % 4096 ∧ (u.link n).nakSent = false ∧ (f.first = true → (s.at t).Outcome n f u)) := by
  have now : (s.at t).Linked := linked.of_dx rfl
  obtain ⟨after, -, links, -⟩ := takeTrailer_leaves now n f
  refine ⟨_, flitReceive_whole t f live low up whole, takeWhole_replays now n f sorted, fun alone => ?_, fun more turn => ?_, fun more turn => ?_⟩
  · rw [takeWhole_trailer _ n alone]
    exact ⟨(congrArg Link.rxNext (links n) :), (congrArg Link.nakSent (links n) :), takeTrailer_credit now n⟩
  · rw [takeWhole_outOfTurn now n f more turn]
    exact (nakLink_naks (s := s.at t) after (links n)).symm
  · obtain ⟨next, quiet⟩ := takeWhole_expects now n f sorted more turn
    refine ⟨next, quiet, fun first => ?_⟩
    rw [takeWhole_inTurn now n f more turn]
    exact takeFlit_outcome (expectNext_admitting now sorted n f) first

end

/-- Settles O45, a rule for each command of a link: what a flit's checks come to, what a timer resends, and where a COMMAND's descriptors land. -/
theorem linksCarryCommandsInOrder : Obligations.LinksCarryCommandsInOrder := by
  unfold Obligations.LinksCarryCommandsInOrder
  intro s t live linked sorted
  refine ⟨fun n low f => ⟨flitReceive_down t f live low, fun up => ⟨flitReceive_crc t f live linked sorted low up, fun whole => ?_⟩⟩, fun n low => ⟨fun a since due kept => ?_, replayTimeout_waits t live low⟩,
    fun e ds h => ⟨fun inOrder alone => ⟨fun fit room rings => ?_, fun k fit up room given tbl => ?_⟩, ?_, ?_, ?_, ?_⟩, fun e h rest => commandAck_does h rest t,
    fun home low id => ⟨fun f hit due => ?_, e2eTimeout_waits t live low⟩⟩
  · obtain ⟨u, next, replays, alone, wrong, right⟩ := flitReceive_does t f live linked sorted low up whole
    refine ⟨u, next, replays, alone, wrong, fun more turn => ?_⟩
    obtain ⟨expects, quiet, out⟩ := right more turn
    exact ⟨expects, quiet, fun first => (out first).foreign, fun first => (out first).known, fun first => (out first).unknown, fun first => (out first).hops, fun first => (out first).absent,
      fun first off there hops here free => ⟨(out first).waits off there hops here free, (out first).passes off there hops here free⟩⟩
  · exact replayTimeout_replays t live linked sorted low since due kept
  · exact command_dring h t ds inOrder alone fit room rings
  · exact command_sess h t ds inOrder alone fit up room given tbl
  · exact command_early h t ds
  · exact command_heldAlready h t ds
  · exact command_duplicate h t ds
  · exact command_beyond h t ds
  · obtain ⟨counted, sends, marked⟩ := resent_does (s := s.at t) (linked.of_dx rfl) sorted home id f
    exact ⟨_, e2eTimeout_resends t live low hit due, counted, sends, marked⟩

end Sys2Proof.Machine
end

section
/-! SUPPORT. Proofs of the sessions chapter's statements: how a session command meets its cell of R154. -/

namespace Sys2Proof.Machine

open Sys2Proof

/-! ## The cells of R154 -/

/-- Only REVIVE and CONDENSE have a cell D. -/
theorem matrix_done {st : SSt} {op : Nat} (h : matrix st op = .d) : op = 0x05 ∨ op = 0x06 := by
  cases st <;> grind [matrix]

/-- Only APPEND, GENERATE and TRUNCATE have a cell A. -/
theorem matrix_revives {st : SSt} {op : Nat} (h : matrix st op = .a) : op = 0x02 ∨ op = 0x03 ∨ op = 0x0B := by
  cases st <;> grind [matrix]

/-- In u the command q at slot k's ring head has been answered as its cell of R154 asks, where the cell alone decides. -/
structure State.AnswersCell (v : State) (k op : Nat) (q : QDesc) (u : State) : Prop where
  bad : matrix (v.sess k).st op = .b → u = v.endHead k stBad 0
  asleep : matrix (v.sess k).st op = .a → bit q.d.flags 1 = false → op = 0x02 ∨ op = 0x03 → u = v.endHead k stBad 0
  done : matrix (v.sess k).st op = .d → q.d.count ≤ 2 → (op = 0x05 → q.d.count = 0) → v.handlesOk k (v.sess k).dom q = true → u = v.endHead k stDone 0

/-- The command takes the head of slot k's ring, and answers it as its cell asks. -/
def MeetsCell (i : Instr) (s : State) (t k op : Nat) : Prop :=
  ∃ go : QDesc → State → State, exec i s = .next ((s.at t).takeCmd k op go) ∧ ∀ (v : State) (q : QDesc), v.AnswersCell k op q (go q v)

/-- A command whose opcode has no cell A or D answers the cell where it says that the cell is not its own. -/
theorem answersCell_plain {v u : State} {k op : Nat} {q : QDesc} (plain : op ∉ [0x02, 0x03, 0x05, 0x06]) (h : matrix (v.sess k).st op = .b → u = v.endHead k stBad 0) : v.AnswersCell k op q u where
  bad := h
  asleep _ _ c := absurd c (by simp at plain; omega)
  done c := absurd (matrix_done c) (by simp at plain; omega)

section
variable {s : State} (t : Nat) {k : Nat} (live : s.live = true) (low : k < 2 ^ 20)
include live low

theorem openSession_meetsCell : MeetsCell (.openSession t k) s t k 0x01 :=
  ⟨_, (execOpenSession.eq_1 t k s).trans (run_wf _ (decide_eq_true low) live), fun _ _ => answersCell_plain (by decide) fun b => if_pos (.inl (by rw [b]; decide))⟩

theorem append_meetsCell : MeetsCell (.append t k) s t k 0x02 :=
  ⟨_, (execAppend.eq_1 t k s).trans (run_wf _ (decide_eq_true low) live), fun _ _ =>
    ⟨fun b => if_pos (.inl b), fun a off _ => if_pos (.inr (.inl ⟨a, off⟩)), fun d => absurd (matrix_done d) (by decide)⟩⟩

theorem generate_meetsCell : MeetsCell (.generate t k) s t k 0x03 :=
  ⟨_, (execGenerate.eq_1 t k s).trans (run_wf _ (decide_eq_true low) live), fun _ _ =>
    ⟨fun b => if_pos (.inl b), fun a off _ => if_pos (.inr (.inl ⟨a, off⟩)), fun d => absurd (matrix_done d) (by decide)⟩⟩

theorem park_meetsCell : MeetsCell (.park t k) s t k 0x04 :=
  ⟨_, (execPark.eq_1 t k s).trans (run_wf _ (decide_eq_true low) live), fun _ _ => answersCell_plain (by decide) fun b => if_pos (.inl (by rw [b]; decide))⟩

theorem revive_meetsCell : MeetsCell (.revive t k) s t k 0x05 := by
  refine ⟨_, (execRevive.eq_1 t k s).trans (run_wf _ (decide_eq_true low) live), fun _ _ => ⟨fun b => if_pos (.inl b), fun a => absurd (matrix_revives a) (by decide), fun d _ none known => ?_⟩⟩
  exact (if_neg (by simp [d, none rfl, known])).trans (if_pos d)

theorem condense_meetsCell : MeetsCell (.condense t k) s t k 0x06 := by
  refine ⟨_, (execCondense.eq_1 t k s).trans (run_wf _ (decide_eq_true low) live), fun _ _ => ⟨fun b => if_pos (.inl b), fun a => absurd (matrix_revives a) (by decide), fun d few _ known => ?_⟩⟩
  exact (if_neg (by simp [d, few, known])).trans (if_pos d)

theorem exportSession_meetsCell : MeetsCell (.exportSession t k) s t k 0x07 :=
  ⟨_, (execExportSession.eq_1 t k s).trans (run_wf _ (decide_eq_true low) live), fun _ _ => answersCell_plain (by decide) fun b => if_pos (.inl (by rw [b]; decide))⟩

theorem importSession_meetsCell (x : Option XRec) : MeetsCell (.importSession t k x) s t k 0x08 :=
  ⟨_, (execImportSession.eq_1 t k x s).trans (run_wf _ (decide_eq_true low) live), fun _ _ => answersCell_plain (by decide) fun b => if_pos (.inl (by rw [b]; decide))⟩

theorem truncate_meetsCell : MeetsCell (.truncate t k) s t k 0x0B :=
  ⟨_, (execTruncate.eq_1 t k s).trans (run_wf _ (decide_eq_true low) live), fun _ _ => answersCell_plain (by decide) fun b => if_pos (.inl b)⟩

end

/-- A command that ends at its ring's head with a status, as v found the session. -/
theorem endsHead_of {s v : State} {i : Instr} {k a : Nat} {q : QDesc} {rest : List QDesc} (hi : exec i s = .next (v.endHead k a 0)) (sorted : Tbl.sorted v.ss.tbl ∧ Tbl.sorted v.ss.cq)
    (ring : (v.sess k).ring = q :: rest) (room : v.stalled q.dom = false) : s.EndsHead v i k q rest a :=
  ⟨_, hi, endHead_ends ⟨sorted.1, rfl⟩ ring sorted.2 room a 0⟩

/-- What a session command does, from how it meets its cell. -/
theorem MeetsCell.does {i : Instr} {s : State} {t k op : Nat} {q : QDesc} {rest : List QDesc} (h : MeetsCell i s t k op) (r : s.Ready k op q rest) :
    let v := (s.at t).taking k q
    let lost := s.pk.st = .lost ∧ admits op = true
    let cell := matrix (s.sess k).st op
    v.sess k = { s.sess k with prio := s.prioOf k q } ∧
    (s.isLate q.d.deadline = true → s.EndsHead (s.at t) i k q rest stDeadline) ∧
    (s.isLate q.d.deadline = false → lost → s.EndsHead (s.at t) i k q rest stPickLost) ∧
    (s.isLate q.d.deadline = false → ¬lost →
      (cell = .w → exec i s = .next (s.at t)) ∧
      (cell = .b → s.EndsHead v i k q rest stBad) ∧
      (cell = .a → bit q.d.flags 1 = false → op = 0x02 ∨ op = 0x03 → s.EndsHead v i k q rest stBad) ∧
      (cell = .d → q.d.count ≤ 2 → (op = 0x05 → q.d.count = 0) → v.handlesOk k (s.sess k).dom q = true → s.EndsHead v i k q rest stDone)) := by
  obtain ⟨go, hi, answers⟩ := h
  obtain ⟨room, cq, sorted, own⟩ := taking_ready (r.at (t := t))
  refine ⟨own, fun late => ?_, fun inTime lost => ?_, fun inTime picks => ⟨fun w => ?_, ?_⟩⟩
  · exact endsHead_of (hi.trans (congrArg _ (takeCmd_late r.at late go))) r.tables r.ring r.room
  · exact endsHead_of (hi.trans (congrArg _ (takeCmd_lost r.at inTime lost go))) r.tables r.ring r.room
  · exact hi.trans (congrArg _ (takeCmd_wait r.at inTime picks w go))
  · have ends : ∀ a, matrix (s.sess k).st op ≠ .w → go q ((s.at t).taking k q) = ((s.at t).taking k q).endHead k a 0 → s.EndsHead ((s.at t).taking k q) i k q rest a := fun a cell e =>
      endsHead_of (hi.trans (congrArg _ ((takeCmd_goes ⟨r.at, inTime, picks, cell⟩ go).trans e))) ⟨sorted, cq⟩ (own ▸ r.ring) room
    obtain ⟨bad, asleep, done⟩ := answers ((s.at t).taking k q) q
    rw [own] at bad asleep done
    exact ⟨fun b => ends _ (by rw [b]; decide) (bad b), fun a off kind => ends _ (by rw [a]; decide) (asleep a off kind), fun d few zero known => ends _ (by rw [d]; decide) (done d few zero known)⟩

/-- Settles O27: each command takes its ring's head and answers its cell (`MeetsCell`), and that settles what is asked of any of them. -/
theorem sessionCommandsMeetTheirCell : Obligations.SessionCommandsMeetTheirCell := by
  unfold Obligations.SessionCommandsMeetTheirCell
  intro s t k x i op q rest live low which ready
  have meets : MeetsCell i s t k op := by
    simp only [List.mem_cons, List.not_mem_nil, or_false, Prod.mk.injEq] at which
    rcases which with ⟨rfl, rfl⟩ | ⟨rfl, rfl⟩ | ⟨rfl, rfl⟩ | ⟨rfl, rfl⟩ | ⟨rfl, rfl⟩ | ⟨rfl, rfl⟩ | ⟨rfl, rfl⟩ | ⟨rfl, rfl⟩ | ⟨rfl, rfl⟩
    · exact openSession_meetsCell t live low
    · exact append_meetsCell t live low
    · exact generate_meetsCell t live low
    · exact park_meetsCell t live low
    · exact revive_meetsCell t live low
    · exact condense_meetsCell t live low
    · exact exportSession_meetsCell t live low
    · exact importSession_meetsCell t live low x
    · exact truncate_meetsCell t live low
  exact meets.does ready

end Sys2Proof.Machine
end

section
/-! SUPPORT. Proofs of the sessions chapter's statements: what OPEN, APPEND, GENERATE and TRUNCATE do once they run. -/

namespace Sys2Proof.Machine

open Sys2Proof

/-! ## What the parts of a command leave -/

/-- What changes nothing of the sessions' chapter keeps every property of it. -/
theorem ss_stable {T : List Prim} (e : T.all Prim.keepsSs = true) (R : Sessions → Prop) : Stable T (fun u => R u.ss) := by
  intro p hp
  have kept := List.all_eq_true.mp e p hp
  cases p <;> cases kept
  all_goals intro s; intros; first
    | (show R _; rw [State.notifyVia_ss]; assumption)
    | (show R _; rw [State.journal_ss]; assumption)
    | (show R _; rw [State.ev_ss]; assumption)
    | assumption

theorem resetGrammar_cq (s : State) (k : Nat) : (s.resetGrammar k).ss.cq = s.ss.cq := by
  unfold State.resetGrammar
  dsimp only
  split
  · rfl
  · exact ev_cq _ _ _ _ _ _ _

theorem bound_cq (s : State) (k d : Nat) (q : QDesc) : (s.bound k d q).ss.cq = s.ss.cq := by
  unfold State.bound State.bindHandles
  dsimp only
  split
  · exact when_keeps (P := fun u => u.ss.cq = s.ss.cq) (fun u hu => (resetGrammar_cq u k).trans hu) rfl
  · rfl

theorem stalled_of_cq {s u : State} (h : u.ss.cq = s.ss.cq) (d : Nat) : u.stalled d = s.stalled d := by
  unfold State.stalled State.cq
  rw [h]

/-- v is a state in which a command of s that was taken checks its operands: q is at slot k's ring head, and the queues, the flows and the settings are those of s. -/
structure State.Checks (s : State) (k : Nat) (q : QDesc) (rest : List QDesc) (v : State) : Prop where
  entry : SessIs k (v.sess k) v
  ring : (v.sess k).ring = q :: rest
  current : v.pk.current = s.pk.current
  cq : v.ss.cq = s.ss.cq
  sl : v.sl = s.sl
  pw : v.pw = s.pw
  settings : s.sameSettings v
  room : s.stalled q.dom = false
  sorted : Tbl.sorted s.ss.cq

theorem State.Goes.checks {s : State} {k op : Nat} {q : QDesc} {rest : List QDesc} (h : s.Goes k op q rest) (t : Nat) : s.Checks k q rest ((s.at t).taking k q) := by
  obtain ⟨entry, ring, current, cq, -⟩ := taking_facts (t := t) h
  exact ⟨entry, ring, current, cq, taking_keeps (P := fun u => u.sl = s.sl) (frame_sl rfl (s.at t)) rfl, taking_keeps (P := fun u => u.pw = s.pw) (frame_pw rfl (s.at t)) rfl,
    taking_keeps (frame_settings rfl s) fun _ _ _ _ _ => rfl, h.room, h.tables.2⟩

/-- A command that goes runs its body on the state in which the checks are made. -/
theorem goes_exec {i : Instr} {s : State} {t k op : Nat} {q : QDesc} {rest : List QDesc} {go : QDesc → State → State} (hi : exec i s = run i t s fun s => s.takeCmd k op go) (wf : i.wf = true)
    (live : s.live = true) (h : s.Goes k op q rest) : exec i s = .next (go q ((s.at t).taking k q)) :=
  hi.trans ((run_wf _ wf live).trans (congrArg _ (takeCmd_goes (goes_at h) go)))

/-- A command that ends at its ring's head in a state w, which has the queues and flows of s: its entry, and its record. -/
theorem endHead_completes {s w : State} {k : Nat} {x : Sess} {q' q : QDesc} {rest : List QDesc} (h : SessIs k x w) (ring : x.ring = q' :: rest) (own : q'.d = q.d ∧ q'.dom = q.dom) (cq : w.ss.cq = s.ss.cq) (sl : w.sl = s.sl)
    (sorted : Tbl.sorted s.ss.cq) (room : s.stalled q.dom = false) (st n : Nat) :
    (w.endHead k st n).sess k = { x.popped rest with deadline := 0 } ∧ ∃ w' : State, w'.ss.cq = s.ss.cq ∧ w'.sl = s.sl ∧ w'.posts q.dom (Rec.completes q st n) (w.endHead k st n) := by
  obtain ⟨entry, record⟩ := endHead_ends h ring (cq ▸ sorted) ((stalled_of_cq cq _).trans (own.2 ▸ room)) st n
  refine ⟨entry, w, cq, sl, ?_⟩
  have e : Rec.completes q' st n = Rec.completes q st n := by
    unfold Rec.completes
    rw [own.1]
  rw [← own.2, ← e]
  exact record

/-! ## OPEN -/

/-- The priority that OPEN gives a session (R147, R151). -/
def State.openPrio (v : State) (d : Nat) (q : QDesc) : Nat :=
  Nat.min (if bit q.d.deadline 51 then bits q.d.deadline 50 48 else v.reg Dict.dsessDefaultPriority 0 d) (if bit q.d.deadline 51 then v.reg Dict.dsessPriorityCap 0 d else 7)

/-- The entry of a session that OPEN has just made of a slot. -/
def Sess.opened (x : Sess) (d m prio cur : Nat) : Sess :=
  { st := .admitted, gen := x.gen, dom := d, model := m, prio := prio, head := x.head, tail := x.tail, ring := x.ring, imm := x.imm, closePend := x.closePend, lastStep := cur, since := cur }

theorem openSlot_is {v : State} {k : Nat} {x : Sess} (h : SessIs k x v) (d m : Nat) (q : QDesc) : SessIs k (x.opened d m (v.openPrio d q) v.pk.current) (v.openSlot k d m q) := by
  unfold State.openSlot
  dsimp only
  rw [h.2]
  exact h.set _

/-- The session with the handles that a command names, and its grammar state as it was. -/
def Sess.named (x : Sess) (q : QDesc) : Sess :=
  { x with grammar := if q.d.grammar = 0 then x.grammar else q.d.grammar, stop := if q.d.stopSet = 0 then x.stop else q.d.stopSet, sampling := if q.d.sampling = 0 then x.sampling else q.d.sampling }

/-- Binding handles to a session without a grammar state only names the handles. -/
theorem bind_of_none {x : Sess} (h : x.gstate = gNone) (q : QDesc) : x.bind q = x.named q := by
  unfold Sess.bind
  rw [if_neg (fun c => c.2 h)]
  rfl

/-- The state in which OPEN has made a slot's session and bound its handles (R151). -/
def State.openBound (v : State) (k m : Nat) (q : QDesc) : State := (((v.openSlot k q.dom m q).evS k 0x080).setHead k q).bound k q.dom q

theorem doOpen_eq (v : State) (k m : Nat) (q : QDesc) : v.doOpen k m q = if q.d.dataLen = 0 then ((v.openBound k m q).toRest k).endHead k stDone 0
    else let s := (v.openBound k m q).startRun k q; (s.setSess k { s.sess k with fresh := true }).toState k .prefill := rfl

theorem openBound_keeps {P : State → Prop} (h : Stable [.ctr, .ss, .ev] P) {v : State} {k m : Nat} {q : QDesc} (hv : P v) : P (v.openBound k m q) :=
  bound_keeps h (State.setHead_keeps (h.mono rfl) _ _ _ (State.evS_keeps (h.mono rfl) _ _ _ _ (State.openSlot_keeps (h.mono rfl) _ _ _ _ _ hv)))

/-- The slot's entry once OPEN has made the session and bound its handles. -/
theorem openBound_is {v : State} {k : Nat} {x : Sess} {q q' : QDesc} {rest : List QDesc} (own : SessIs k x v) (ring : x.ring = q :: rest) (m : Nat) (known : v.handlesOk k q'.dom q' = true) :
    SessIs k ({ x.opened q'.dom m (v.openPrio q'.dom q') v.pk.current with ring := q' :: rest }.bind q') (v.openBound k m q') := by
  have made := (openSlot_is own q'.dom m q').of (u := (v.openSlot k q'.dom m q').evS k 0x080) (congrArg Sessions.tbl (evS_ss _ _ _ _) :)
  have tx : (((v.openSlot k q'.dom m q').evS k 0x080).setHead k q').tx = v.tx := State.evS_keeps (P := fun u => u.tx = v.tx) (frame_tx rfl v) _ _ _ _ rfl
  exact bound_is (setHead_is made ring) ((handlesOk_tx tx).trans known)

theorem openBound_cq (v : State) (k m : Nat) (q : QDesc) : (v.openBound k m q).ss.cq = v.ss.cq :=
  (bound_cq _ _ _ _).trans (congrArg Sessions.cq (evS_ss (v.openSlot k q.dom m q) _ _ _) :)

/-- Which body OPEN runs once its checks are passed (R151). -/
theorem openSession_opens {s : State} {t k m : Nat} {q : QDesc} {rest : List QDesc} {v : State} (e : (s.at t).taking k q = v) (live : s.live = true) (low : k < 2 ^ 20) (small : m < 16) (h : s.Goes k 0x01 q rest)
    (free : (v.sess k).st = .free) (serving : s.pw.pkg ≠ .draining) (count : q.d.count = m) (short : q.d.dataLen ≤ 16777216) (may : v.mayHold q.dom k = true) (model : v.modelFor q.dom m k = true)
    (known : v.handlesOk k q.dom q = true) (ready : q.inSt = 2 ∨ q.inSt = 0 ∧ q.d.dataLen = 0) (input : 0 < q.d.dataLen → (v.model m).st = 2 ∧ v.pinFull k = false) :
    exec (.openSession t k) s = .next (v.doOpen k m { q with inSt := 2 }) := by
  have c := h.checks t
  refine (goes_exec (i := .openSession t k) (execOpenSession.eq_1 t k s) (decide_eq_true low) live h).trans (congrArg Host.Outcome.next ?_)
  rw [e] at c ⊢
  have mod : q.d.count % 16 = m := by omega
  have pkg : v.pw.pkg ≠ .draining := by rw [c.pw]; exact serving
  dsimp only
  rw [mod, if_neg (by simp [free, count, matrix, small, short, pkg]), if_neg (by simp [may, model]), if_neg (by simpa [known] using fun l => (input l).1), if_neg (by simpa using fun l => (input l).2)]
  exact withInput_ready ready

section
variable {s v : State} {k : Nat} {q : QDesc} {rest : List QDesc} (c : s.Checks k q rest v) (m : Nat) (known : v.handlesOk k q.dom q = true)
include c known

/-- OPEN without an input: the session is ADMITTED, and the command completes. -/
theorem doOpen_completes (none : q.d.dataLen = 0) :
    let q' := { q with inSt := 2 }
    let y : Sess := { (v.sess k).opened q.dom m (v.openPrio q.dom q) s.pk.current with ring := q' :: rest }
    let u := v.doOpen k m q'
    u.sess k = { (y.bind q').popped rest with ttl := if s.reg Dict.dtierParkDelay 0 q.dom = 0 then 0 else s.pk.current + s.reg Dict.dtierParkDelay 0 q.dom } ∧
      ∃ w : State, w.ss.cq = s.ss.cq ∧ w.sl = s.sl ∧ w.posts q.dom (Rec.completes q stDone 0) u := by
  intro q' y u
  have bound := openBound_is (q' := q') c.entry c.ring m known
  have current : (v.openBound k m q').pk.current = s.pk.current := (congrArg Pick.current (openBound_keeps (P := fun u => u.pkRest = v.pkRest) (frame_pkRest rfl v) rfl) :).trans c.current
  have delay : (v.openBound k m q').reg Dict.dtierParkDelay 0 q.dom = s.reg Dict.dtierParkDelay 0 q.dom :=
    openBound_keeps (frame_settings rfl s) c.settings _ (by decide +kernel) (by decide) _ _
  have sl : (v.openBound k m q').sl = s.sl := (openBound_keeps (P := fun u => u.sl = v.sl) (frame_sl rfl v) rfl).trans c.sl
  have e : u = ((v.openBound k m q').toRest k).endHead k stDone 0 := (doOpen_eq v k m q').trans (if_pos none)
  rw [e]
  have names : y.bind q' = y.named q' := bind_of_none rfl q'
  have entry : SessIs k (y.named q') (v.openBound k m q') := by
    rw [← names]
    rw [c.current] at bound
    exact bound
  have cq : (v.openBound k m q').ss.cq = s.ss.cq := (openBound_cq v k m q').trans c.cq
  generalize v.openBound k m q' = w at *
  have rests := toRest_is entry
  have delay' : w.reg Dict.dtierParkDelay 0 (y.named q').dom = s.reg Dict.dtierParkDelay 0 q.dom := delay
  rw [delay', current] at rests
  obtain ⟨after, record⟩ := endHead_completes (q := q) rests (q' := q') (rest := rest) rfl ⟨rfl, rfl⟩ ((toRest_cq w k).trans cq) ((State.toRest_keeps (P := fun u => u.sl = w.sl) (frame_sl rfl w) _ _ rfl).trans sl) c.sorted c.room stDone 0
  refine ⟨?_, record⟩
  rw [after, names]
  rfl

/-- OPEN with an input: the session is in PREFILL, and the command runs. -/
theorem doOpen_runs (some : 0 < q.d.dataLen) :
    let q' := { q with inSt := 2 }
    let y : Sess := { (v.sess k).opened q.dom m (v.openPrio q.dom q) s.pk.current with ring := q' :: rest }
    (v.doOpen k m q').sess k = { (y.bind q').started q' rest s.pk.current with st := .prefill, fresh := true } := by
  intro q' y
  have bound := openBound_is (q' := q') c.entry c.ring m known
  have current : (v.openBound k m q').pk.current = s.pk.current := (congrArg Pick.current (openBound_keeps (P := fun u => u.pkRest = v.pkRest) (frame_pkRest rfl v) rfl) :).trans c.current
  have names : y.bind q' = y.named q' := bind_of_none rfl q'
  have entry : SessIs k (y.named q') (v.openBound k m q') := by
    rw [← names]
    rw [c.current] at bound
    exact bound
  rw [doOpen_eq, if_neg (Nat.ne_of_gt some)]
  generalize v.openBound k m q' = w at *
  have runs := startRun_is entry (q := q') (q' := q') (rest := rest) rfl
  have current' : (w.startRun k q').pk.current = s.pk.current := startRun_current.trans current
  rw [current] at runs
  generalize w.startRun k q' = z at *
  dsimp only
  rw [runs.2]
  have last := toState_is (runs.set { (y.named q').started q' rest s.pk.current with fresh := true }) .prefill
  have e : (z.setSess k { (y.named q').started q' rest s.pk.current with fresh := true }).pk.current = s.pk.current := current'
  rw [e] at last
  rw [last.2, names]
  rfl

end

/-! ## APPEND and GENERATE -/

/-- An ADMITTED session or one in TOOLWAIT may run any command but OPEN, IMPORT and REVIVE (R154). -/
theorem matrix_resting {st : SSt} (h : st = .admitted ∨ st = .toolwait) {op : Nat} (plain : op ∉ [0x01, 0x05, 0x08]) : matrix st op = .x := by
  simp only [List.mem_cons, List.not_mem_nil, or_false, not_or] at plain
  obtain ⟨notOpen, notRevive, notImport⟩ := plain
  rcases h with rfl | rfl <;> simp [matrix, notOpen, notRevive, notImport]

/-- The state in which an APPEND's command runs. -/
def State.appendRuns (v : State) (k : Nat) (q : QDesc) : State :=
  let s := ((v.setHead k q).bound k (v.sess k).dom q).startRun k q
  (s.setSess k { s.sess k with ttl := 0, fresh := true }).toState k .prefill

theorem append_runs {s : State} {t k : Nat} {q : QDesc} {rest : List QDesc} {v : State} (e : (s.at t).taking k q = v) (live : s.live = true) (low : k < 2 ^ 20) (h : s.Goes k 0x02 q rest)
    (resting : (v.sess k).st = .admitted ∨ (v.sess k).st = .toolwait) (zero : q.d.count = 0) (short : q.d.dataLen ≤ 16777216) (known : v.handlesOk k (v.sess k).dom q = true)
    (ready : q.inSt = 2 ∨ q.inSt = 0 ∧ q.d.dataLen = 0) (model : (v.model (v.sess k).model).st = 2) (room : v.pinFull k = false) :
    exec (.append t k) s = .next (v.appendRuns k { q with inSt := 2 }) := by
  refine (goes_exec (i := .append t k) (execAppend.eq_1 t k s) (decide_eq_true low) live h).trans (congrArg Host.Outcome.next ?_)
  rw [e]
  have cell := matrix_resting resting (op := 0x02) (by decide)
  dsimp only
  rw [cell, if_neg (by simp [zero, short, known]), withInput_ready ready, if_neg (by decide), if_neg (by simp [model]), if_neg (by simp [room])]
  rfl

theorem appendRuns_is {s v : State} {k : Nat} {q : QDesc} {rest : List QDesc} (c : s.Checks k q rest v) (known : v.handlesOk k (v.sess k).dom q = true) :
    let q' := { q with inSt := 2 }
    (v.appendRuns k q').sess k = { ((v.sess k).bind q').started q' rest s.pk.current with st := .prefill, since := s.pk.current, ttl := 0, fresh := true } := by
  intro q'
  have begun := begun_is (q' := q') c.entry c.ring known
  rw [c.current] at begun
  have current : (((v.setHead k q').bound k (v.sess k).dom q').startRun k q').pk.current = s.pk.current := (startRun_current.trans bound_current).trans c.current
  unfold State.appendRuns
  generalize ((v.setHead k q').bound k (v.sess k).dom q').startRun k q' = z at *
  dsimp only
  rw [begun.2]
  have last := toState_is (begun.set { ((v.sess k).bind q').started q' rest s.pk.current with ttl := 0, fresh := true }) .prefill
  have e : (z.setSess k { ((v.sess k).bind q').started q' rest s.pk.current with ttl := 0, fresh := true }).pk.current = s.pk.current := current
  rw [e] at last
  exact last.2

/-- Which body GENERATE runs once its checks are passed (R309, R311). -/
theorem generate_runs {s : State} {t k : Nat} {q : QDesc} {rest : List QDesc} {v : State} (e : (s.at t).taking k q = v) (live : s.live = true) (low : k < 2 ^ 20) (h : s.Goes k 0x03 q rest)
    (resting : (v.sess k).st = .admitted ∨ (v.sess k).st = .toolwait) (given : 1 ≤ q.d.count) (few : q.d.count ≤ 1048576) (known : v.handlesOk k (v.sess k).dom q = true)
    (fits : ∀ y, v.grammar (v.sess k).dom (if q.d.grammar = 0 then (v.sess k).grammar else q.d.grammar) = some y → y.vocab = (v.model (v.sess k).model).vocab)
    (sound : ∀ st, v.ref (v.sess k).dom q.d.dataRef q.d.dataLen true ≠ .fail st) (up : v.ref (v.sess k).dom q.d.dataRef q.d.dataLen true ≠ .wait) (model : (v.model (v.sess k).model).st = 2)
    (short : (v.sess k).length ≠ 1048576) (kept : v.replacing (v.sess k).dom (if q.d.grammar = 0 then (v.sess k).grammar else q.d.grammar) = false) (room : v.pinFull k = false) :
    exec (.generate t k) s = .next (v.doGenerate k q) := by
  refine (goes_exec (i := .generate t k) (execGenerate.eq_1 t k s) (decide_eq_true low) live h).trans (congrArg Host.Outcome.next ?_)
  rw [e]
  have cell := matrix_resting resting (op := 0x03) (by decide)
  generalize hg : v.grammar (v.sess k).dom (if q.d.grammar = 0 then (v.sess k).grammar else q.d.grammar) = g at fits
  dsimp only
  rw [cell, hg, if_neg]
  · generalize v.ref (v.sess k).dom q.d.dataRef q.d.dataLen true = r at sound up
    have go : (if (Cell.x = .a) then v.reviveFirst k q else if (v.model (v.sess k).model).st ≠ 2 then v.endHead k stBad 0 else if (v.sess k).length = 1048576 then v.endHead k stLimit 0
        else if v.replacing (v.sess k).dom (if q.d.grammar = 0 then (v.sess k).grammar else q.d.grammar) = true then v else if v.pinFull k = true then v.pinWait k else v.doGenerate k q) = v.doGenerate k q := by
      rw [if_neg (by decide), if_neg (by simp [model]), if_neg short, if_neg (by simp [kept]), if_neg (by simp [room])]
    cases r with
    | fail st => exact absurd rfl (sound st)
    | wait => exact absurd rfl up
    | region f key off => exact go
    | window i gen => exact go
  · cases g with
    | none => simpa [known, few] using Nat.ne_of_gt given
    | some y => simpa [known, few, fits y rfl] using Nat.ne_of_gt given

theorem doGenerate_is {s v : State} {k : Nat} {q : QDesc} {rest : List QDesc} (c : s.Checks k q rest v) (known : v.handlesOk k (v.sess k).dom q = true) (own : q.dom = (v.sess k).dom) :
    let x := v.sess k
    let y := (x.bind q).started q rest s.pk.current
    let g := v.grammar x.dom (if q.d.grammar = 0 then x.grammar else q.d.grammar)
    let w := match g with
      | some z => if y.gstate = gNone then z.start else y.gstate
      | none => y.gstate
    (v.doGenerate k q).sess k = { y with gstate := w, ctx := { stack := if g.isSome = true ∧ y.gstate = gNone then [] else y.ctx.stack }, remaining := q.d.count, progress := 0, generated := true, ttl := 0, lastStep := s.pk.current, fresh := true, st := .decode, since := s.pk.current } := by
  intro x y g w
  have begun := startRun_is (q := q) (bound_is c.entry (d := q.dom) (by rw [own]; exact known)) ((bind_kept _ _).1.trans c.ring)
  rw [bound_current, c.current] at begun
  have current : ((v.bound k q.dom q).startRun k q).pk.current = s.pk.current := (startRun_current.trans bound_current).trans c.current
  have tx : ((v.bound k q.dom q).startRun k q).tx = v.tx := startRun_tx.trans bound_tx
  unfold State.doGenerate
  generalize (v.bound k q.dom q).startRun k q = z at *
  dsimp only
  rw [begun.2]
  have gr : z.grammar y.dom y.grammar = g := by
    have d : y.dom = x.dom := (bind_kept x q).2.2.2.1
    have n : y.grammar = if q.d.grammar = 0 then x.grammar else q.d.grammar := rfl
    unfold State.grammar
    rw [tx, d, n]
    rfl
  have gr' : z.grammar (Sess.started ((v.sess k).bind q) q rest s.pk.current).dom (Sess.started ((v.sess k).bind q) q rest s.pk.current).grammar = g := gr
  rw [gr', current]
  have cur : ∀ a : Sess, (z.setSess k a).pk.current = s.pk.current := fun _ => current
  have last := fun a : Sess => toState_is (begun.set a) .decode
  simp only [cur] at last
  rw [(last _).2]
  simp only [Bool.and_eq_true, decide_eq_true_eq]
  rfl

/-! ## TRUNCATE -/

/-- Binding handles and then giving up the grammar state leaves the same as the other order. -/
theorem bare_of_bind (x : Sess) (q : QDesc) : (if (x.bind q).gstate ≠ gNone then { x.bind q with gstate := gNone, ctx := { (x.bind q).ctx with stack := [] } } else x.bind q) =
    { x.bind q with gstate := gNone, ctx := if x.gstate = gNone then x.ctx else { x.ctx with stack := [] } } := by
  unfold Sess.bind
  by_cases g : x.gstate = gNone
  · simp [g]
  · by_cases n : q.d.grammar = 0 <;> simp [n, g]

/-- Which body TRUNCATE runs once its checks are passed. -/
theorem truncate_runs {s : State} {t k : Nat} {q : QDesc} {rest : List QDesc} {v : State} (e : (s.at t).taking k q = v) (live : s.live = true) (low : k < 2 ^ 20) (h : s.Goes k 0x0B q rest)
    (resting : (v.sess k).st = .admitted ∨ (v.sess k).st = .toolwait) (short : q.d.count < (v.sess k).length) (known : v.handlesOk k (v.sess k).dom q = true) (free : (v.tm.moves.any fun m => m.k == k) = false) :
    exec (.truncate t k) s = .next (v.truncate k q) := by
  refine (goes_exec (i := .truncate t k) (execTruncate.eq_1 t k s) (decide_eq_true low) live h).trans (congrArg Host.Outcome.next ?_)
  rw [e]
  have cell := matrix_resting resting (op := 0x0B) (by decide)
  dsimp only
  rw [cell, if_neg (by simp [known, short]), if_neg (by decide), if_neg (by simp [free])]

/-- The state in which TRUNCATE has cut the pages. -/
def State.truncCut (v : State) (k : Nat) (q : QDesc) : State := (((v.bound k q.dom q).resetGrammar k).cutKv k q.d.count q.d.count q.d.count).2

theorem truncCut_by {P : State → Prop} (st : Stable pageMoves P) (hp : PageOk P) {v : State} {k : Nat} {q : QDesc} (h : P ((v.bound k q.dom q).resetGrammar k)) : P (v.truncCut k q) :=
  State.cutKv_by st hp _ _ _ _ h

theorem truncCut_keeps {P : State → Prop} (h : Stable [.ctr, .ss, .tm, .fb, .ev] P) {v : State} {k : Nat} {q : QDesc} (hv : P v) : P (v.truncCut k q) :=
  State.cutKv_keeps h _ _ _ _ _ (State.resetGrammar_keeps (h.mono rfl) _ _ (bound_keeps (h.mono rfl) hv))

theorem truncate_eq (v : State) (k : Nat) (q : QDesc) {y : Sess} (e : (v.truncCut k q).sess k = y) (st : y.st ≠ .halted) : ∃ n,
    v.truncate k q = ((v.truncCut k q).setSess k { y with length := q.d.count, tokens := y.tokens.take q.d.count, sver := (y.sver + 1) % 2 ^ 32 }).endHead k stDone n := by
  refine ⟨(((v.bound k q.dom q).resetGrammar k).cutKv k q.d.count q.d.count q.d.count).1, ?_⟩
  subst e
  unfold State.truncate
  unfold State.truncCut at st ⊢
  dsimp only
  generalize ((v.bound k q.dom q).resetGrammar k).cutKv k q.d.count q.d.count q.d.count = c at *
  have no : decide ((c.2.sess k).st = .halted) = false := decide_eq_false st
  unfold State.when
  rw [no, Bool.false_and]
  rfl

/-- The session once TRUNCATE has cut its tokens and ended. -/
def Sess.truncated (x : Sess) (n : Nat) (rest : List QDesc) : Sess := { x.popped rest with length := n, tokens := x.tokens.take n, sver := (x.sver + 1) % 2 ^ 32, deadline := 0 }

/-- Sessions with the same core agree on everything but their pages and what their moves keep. -/
theorem kept_of_core {x y : Sess} (h : x.core = y.core) : x.ring = y.ring ∧ x.st = y.st ∧ x.head = y.head ∧ x.length = y.length ∧ x.tokens = y.tokens ∧ x.sver = y.sver ∧ x.dom = y.dom :=
  ⟨(congrArg Sess.ring h :), (congrArg Sess.st h :), (congrArg Sess.head h :), (congrArg Sess.length h :), (congrArg Sess.tokens h :), (congrArg Sess.sver h :), (congrArg Sess.dom h :)⟩

/-- A session whose pages are cut ends TRUNCATE with its tokens cut. -/
theorem truncated_completes {s z : State} {k : Nat} {x : Sess} {q : QDesc} {rest : List QDesc} (core : CoreIs k x.core z) (ring : x.ring = q :: rest) (cq : z.ss.cq = s.ss.cq) (sl : z.sl = s.sl)
    (sorted : Tbl.sorted s.ss.cq) (room : s.stalled q.dom = false) {n : Nat} {u : State}
    (e : u = (z.setSess k { z.sess k with length := q.d.count, tokens := (z.sess k).tokens.take q.d.count, sver := ((z.sess k).sver + 1) % 2 ^ 32 }).endHead k stDone n) :
    (u.sess k).core = (x.truncated q.d.count rest).core ∧ ∃ (w : State) (n : Nat), w.ss.cq = s.ss.cq ∧ w.sl = s.sl ∧ w.posts q.dom (Rec.completes q stDone n) u := by
  subst e
  obtain ⟨after, w, record⟩ := endHead_completes (q := q) (core.is.set { z.sess k with length := q.d.count, tokens := (z.sess k).tokens.take q.d.count, sver := ((z.sess k).sver + 1) % 2 ^ 32 })
    (((kept_of_core core.2).1).trans ring) ⟨rfl, rfl⟩ ((setSess_cq _ _ _).trans cq) sl sorted room stDone n
  refine ⟨?_, w, n, record⟩
  rw [after]
  exact congrArg (fun y : Sess => y.truncated q.d.count rest) core.2

/-- TRUNCATE cuts the session and completes (R145, R151, R471). -/
theorem truncate_completes {s v : State} {k : Nat} {x : Sess} {q : QDesc} {rest : List QDesc} (c : s.Checks k q rest v) (hx : v.sess k = x) (known : v.handlesOk k x.dom q = true) (own : q.dom = x.dom) (st : x.st ≠ .halted) :
    ((v.truncate k q).sess k).core = ({ (x.bind q).popped rest with gstate := gNone, ctx := (if x.gstate = gNone then x.ctx else { x.ctx with stack := [] }), length := q.d.count, tokens := x.tokens.take q.d.count, sver := (x.sver + 1) % 2 ^ 32, deadline := 0 } : Sess).core ∧
    ∃ (w : State) (n : Nat), w.ss.cq = s.ss.cq ∧ w.sl = s.sl ∧ w.posts q.dom (Rec.completes q stDone n) (v.truncate k q) := by
  have entry : SessIs k x v := hx ▸ c.entry
  have given := (bound_is entry (d := q.dom) (own ▸ known)).resetGrammar
  rw [bare_of_bind] at given
  have core := truncCut_by (CoreIs.stable rfl _ _) (CoreIs.pageOk _ _) given.core
  have cq : (v.truncCut k q).ss.cq = s.ss.cq := truncCut_by (ss_stable rfl fun z => z.cq = s.ss.cq) (cq_pageOk _) ((resetGrammar_cq _ _).trans ((bound_cq _ _ _ _).trans c.cq))
  have sl : (v.truncCut k q).sl = s.sl := truncCut_keeps (frame_sl rfl s) c.sl
  obtain ⟨ring, state, -, -, tokens, sver, -⟩ := bind_kept x q
  have halted : ((v.truncCut k q).sess k).st ≠ .halted := by
    rw [(kept_of_core core.2).2.1]
    exact fun e => st (state.symm.trans e)
  obtain ⟨n, e⟩ := truncate_eq v k q rfl halted
  have done := truncated_completes core (ring.trans ((congrArg Sess.ring hx.symm).trans c.ring)) cq sl c.sorted c.room e
  rw [← tokens, ← sver]
  exact done

/-- Settles O28: each body runs on the state in which the checks are made, and its parts are followed one after the other. -/
theorem sessionCommandsRun : Obligations.SessionCommandsRun := by
  intro s t k q rest live low v x cur q' ready
  have e : (s.at t).taking k q = v := rfl
  clear_value v
  refine ⟨fun m small goes free pkg count short may model known rdy => ⟨fun zero => ?_, fun some up room => ?_⟩, fun goes resting zero short known rdy model room => ?_,
    fun goes resting given few known fits sound up model long kept room own => ?_, fun goes resting short known still own => ?_⟩
  · exact ⟨_, openSession_opens e live low small goes free pkg count short may model known rdy (fun l => absurd zero (Nat.ne_of_gt l)), doOpen_completes (e ▸ goes.checks t) m known zero⟩
  · exact ⟨_, openSession_opens e live low small goes free pkg count short may model known rdy (fun _ => ⟨up, room⟩), doOpen_runs (e ▸ goes.checks t) m known some⟩
  · exact ⟨_, append_runs e live low goes resting zero short known rdy model room, appendRuns_is (e ▸ goes.checks t) known⟩
  · exact ⟨_, generate_runs e live low goes resting given few known fits sound up model long kept room, doGenerate_is (e ▸ goes.checks t) known own⟩
  · have st : x.st ≠ .halted := by rcases resting with h | h <;> rw [h] <;> decide
    obtain ⟨core, record⟩ := truncate_completes (e ▸ goes.checks t) rfl known own st
    exact ⟨_, truncate_runs e live low goes resting short known still, core, record⟩

end Sys2Proof.Machine
end

section
/-! SUPPORT. Proofs of the sessions chapter's statements: how PARK, CONDENSE, EXPORT, IMPORT, REVIVE and AUTO_REVIVE begin. -/

namespace Sys2Proof.Machine

open Sys2Proof

/-! ## A record that goes on changes only what a session keeps beside its core -/

theorem exportBegin_by {P : State → Prop} (hp : PageOk P) {s : State} (k : Nat) (h : P s) : P (s.exportBegin k) := by
  unfold State.exportBegin
  dsimp only
  split
  · exact h
  · exact hp _ _ _ rfl h

theorem exportReads_by {P : State → Prop} (st : Stable pageMoves P) (hp : PageOk P) {s : State} (k : Nat) (h : P s) : P (s.exportReads k) := by
  unfold State.exportReads
  refine each_keeps (P := P) (fun l u hu => ?_) h
  dsimp only
  split
  · rename_i i u' _ taken
    split
    · have same : u'.ss = u.ss := OkOP.get (P := fun w => w.ss = u.ss) taken (State.takeSlot_keeps (P := fun w => w.ss = u.ss) (frame_ss rfl u) u _ _ rfl)
      have core : ∀ y : Sess, y.core = (u.sess k).core → y.core = (u'.sess k).core := fun y e => e.trans (congrArg Sess.core (State.sess_of_tbl (congrArg Sessions.tbl same) k).symm)
      exact State.bulkRead_keeps (st.mono rfl) _ _ _ _ _ _ _ (hp _ _ _ (core _ rfl) (OkOP.get taken (State.takeSlot_keeps (st.mono rfl) u _ _ hu)))
    · exact hu
  · exact hu

theorem exportWrite_by {P : State → Prop} (st : Stable pageMoves P) (hp : PageOk P) {s : State} (k a b c d : Nat) (h : P s) : P (s.exportWrite k a b c d) := by
  unfold State.exportWrite
  dsimp only
  refine State.bulkFlush_keeps (st.mono rfl) _ _ _ (hp _ _ _ rfl (each_keeps (P := P) (fun e u hu => State.bulkWrite_keeps (st.mono rfl) _ _ _ _ _ _ hu) ?_))
  refine State.written_keeps (st.mono rfl) _ _ _ _ _ (foldP_keeps (fun r l hr => ?_) (OkP.mk h))
  split
  · exact hr
  · refine OkP.mk ?_
    split
    · exact State.written_keeps (st.mono rfl) _ _ _ _ _ hr
    · exact hr

theorem exportPump_by {P : State → Prop} (st : Stable pageMoves P) (hp : PageOk P) {s : State} (k : Nat) (h : P s) : P (s.exportPump k) := by
  unfold State.exportPump
  dsimp only
  have read := exportReads_by st hp k h
  split
  · exact h
  · split
    · split
      · exact exportWrite_by st hp _ _ _ _ _ read
      · exact read
    · exact read

/-! ## Dropping the draft's pages leaves no page that was not there -/

/-- Slot k's pages are among those of a list. -/
def State.pagesIn (k : Nat) (l : Tbl Page) (u : State) : Prop := Tbl.sorted u.ss.tbl ∧ ∀ e ∈ (u.sess k).pages, e ∈ l

theorem pagesIn_stable {T : List Prim} (e : T.all Prim.keepsSs = true) (k : Nat) (l : Tbl Page) : Stable T (State.pagesIn k l) :=
  ss_stable e fun z => Tbl.sorted z.tbl ∧ ∀ e ∈ (Tbl.get ({} : Sess) z.tbl k).pages, e ∈ l

theorem pagesIn_set {k : Nat} {l : Tbl Page} {s : State} {x : Sess} (h : s.pagesIn k l) (fewer : ∀ e ∈ x.pages, e ∈ (s.sess k).pages) : (s.setSess k x).pagesIn k l := by
  refine ⟨State.setSess_sorted h.1 _ _, ?_⟩
  rw [State.setSess_sess h.1, if_pos rfl]
  exact fun e he => h.2 e (fewer e he)

theorem dropOne_pages {k : Nat} {l : Tbl Page} {s : State} (j : Nat) (h : s.pagesIn k l) : (s.dropOne k j).pagesIn k l := by
  unfold State.dropOne
  dsimp only
  have kept := pagesIn_stable (T := [.ctr, .tm, .fb, .ev]) rfl k l
  split
  · exact h
  · exact State.invalidate_keeps (kept.mono rfl) _ _ _ (State.freeHome_keeps (kept.mono rfl) _ _ _ (pagesIn_set h fun e he => Tbl.erase_mem he))

theorem dropPage_pages {k : Nat} {l : Tbl Page} {s : State} (j : Nat) (h : s.pagesIn k l) : (s.dropPage k j).pagesIn k l := by
  unfold State.dropPage
  dsimp only
  have leaf := dropOne_pages (leafLpn (j / 8192)) (dropOne_pages j h)
  split
  · exact dropOne_pages j h
  · split
    · exact leaf
    · exact dropOne_pages _ leaf

theorem dropDraft_pages {k : Nat} {l : Tbl Page} {s : State} (h : s.pagesIn k l) : (s.dropDraft k).pagesIn k l := by
  unfold State.dropDraft
  dsimp only
  split
  · exact pagesIn_set (each_keeps (P := State.pagesIn k l) (fun e u hu => dropPage_pages e.1 hu) h) fun e he => he
  · exact h

/-- Dropping the draft's pages makes no page stale. -/
theorem dropDraft_fresh {k : Nat} {s : State} (sorted : Tbl.sorted s.ss.tbl) (h : s.noneStale k) : (s.dropDraft k).noneStale k := by
  have fns : (s.dropDraft k).fns = s.fns := State.dropDraft_keeps (frame_fns rfl s) s k rfl
  have nv : (s.dropDraft k).nv = s.nv := State.dropDraft_keeps (frame_nv rfl s) s k rfl
  obtain ⟨-, fewer⟩ := dropDraft_pages (k := k) (l := (s.sess k).pages) (s := s) ⟨sorted, fun _ he => he⟩
  intro e he
  have same : (s.dropDraft k).stale e.2 = s.stale e.2 := by
    unfold State.stale State.chOn State.isOn State.fn State.startsOf
    rw [fns, nv]
  exact same.trans (h e (fewer e he))

theorem beginMoving_fresh {k a b : Nat} {s : State} (sorted : Tbl.sorted s.ss.tbl) (h : s.noneStale k) : (s.beginMoving k a b).noneStale k := by
  have fresh := dropDraft_fresh sorted h
  have order : Tbl.sorted (s.dropDraft k).ss.tbl := (dropDraft_pages (k := k) (l := (s.sess k).pages) ⟨sorted, fun _ he => he⟩).1
  unfold State.beginMoving
  dsimp only
  generalize s.dropDraft k = z at *
  have entry : SessIs k (z.sess k) z := ⟨order, rfl⟩
  have moving := toState_is (entry.set { z.sess k with prior := (z.sess k).st, target := a, policy := b, pausedAt := z.pk.current, reserved := false, waitFrom := none }) .moving
  have fns : ∀ v : State, (v.toState k .moving).fns = v.fns := fun v => State.toState_keeps (P := fun u => u.fns = v.fns) (frame_fns rfl v) v k _ rfl
  have nv : ∀ v : State, (v.toState k .moving).nv = v.nv := fun v => State.toState_keeps (P := fun u => u.nv = v.nv) (frame_nv rfl v) v k _ rfl
  refine fresh.of ((State.setSess_fns _ _ _).trans ((fns _).trans (State.setSess_fns _ _ _))) ((State.setSess_nv _ _ _).trans ((nv _).trans (State.setSess_nv _ _ _))) ?_
  rw [(moving.set _).2, moving.2]

/-! ## Whole-session moves and revivals -/

theorem bind_pages (x : Sess) (q : QDesc) : (x.bind q).pages = x.pages := by
  unfold Sess.bind
  split <;> rfl

/-- v is a state in which a whole-session command q passed the checks that all of them make (R151, R162, R189, R172). -/
structure State.Wholes (s : State) (k : Nat) (q : QDesc) (rest : List QDesc) (v : State) : Prop extends s.Checks k q rest v where
  known : v.handlesOk k (v.sess k).dom q = true
  unpinned : v.pinFull k = false
  own : q.dom = (v.sess k).dom
  mover : v.moverFull (chOf k) = false
  fresh : v.noneStale k

section
variable {s v : State} {k : Nat} {q : QDesc} {rest : List QDesc} (w : s.Wholes k q rest v)
include w

/-- The command has started: the session's entry, and no page is stale. -/
theorem started_whole : SessIs k (((v.sess k).bind q).started q rest s.pk.current) ((v.bound k q.dom q).startRun k q) ∧ ((v.bound k q.dom q).startRun k q).pk.current = s.pk.current ∧
    ((v.bound k q.dom q).startRun k q).noneStale k := by
  have runs := startRun_is (q := q) (bound_is w.entry (d := q.dom) (w.own ▸ w.known)) ((bind_kept _ _).1.trans w.ring)
  rw [bound_current, w.current] at runs
  refine ⟨runs, startRun_current.trans (bound_current.trans w.current), w.fresh.of (startRun_keeps (frame_fns rfl v) (bound_keeps (frame_fns rfl v) rfl)) (startRun_keeps (frame_nv rfl v) (bound_keeps (frame_nv rfl v) rfl)) ?_⟩
  rw [runs.2]
  exact bind_pages _ _

/-- A whole-session move begins (R196, R197, R204). -/
theorem moveFor_begins (a b : Nat) : ((v.moveFor k a b q).sess k).core = ({ ((v.sess k).bind q).started q rest s.pk.current with st := .moving, prior := (v.sess k).st, target := a, policy := b, pausedAt := s.pk.current } : Sess).core := by
  obtain ⟨runs, current, fresh⟩ := started_whole w
  have moving := beginMoving_core (a := a) (b := b) runs s.pk.current current
  have st : (Sess.started ((v.sess k).bind q) q rest s.pk.current).st = (v.sess k).st := (bind_kept _ q).2.1
  rw [st] at moving
  have issued := State.issueMoves_core k moving (fun h => SSt.noConfusion h) (beginMoving_fresh runs.1 fresh)
  unfold State.moveFor
  rw [if_neg (by rw [w.mover]; decide)]
  dsimp only
  split
  · exact (exportPump_by (CoreIs.stable rfl _ _) (CoreIs.pageOk _ _) k (exportBegin_by (CoreIs.pageOk _ _) k issued)).2
  · exact issued.2

/-- REVIVE begins (R202). -/
theorem revive_begins : ((((v.bound k (v.sess k).dom q).startRun k q).beginRevival k).sess k).core = ({ ((v.sess k).bind q).started q rest s.pk.current with st := .reviving, prior := (v.sess k).st, pausedAt := s.pk.current } : Sess).core := by
  obtain ⟨runs, current, fresh⟩ := started_whole w
  rw [← w.own]
  have begins := beginRevival_core runs s.pk.current current (dropDraft_fresh runs.1 fresh)
  have st : (Sess.started ((v.sess k).bind q) q rest s.pk.current).st = (v.sess k).st := (bind_kept _ q).2.1
  rw [st] at begins
  exact begins.2

/-- A command with AUTO_REVIVE revives its session first (R154, R155, R202). -/
theorem reviveFirst_begins (auto : bit q.d.flags 1 = true) :
    ((v.reviveFirst k q).sess k).core = ({ v.sess k with st := .reviving, prior := (v.sess k).st, revivePend := true, pausedAt := s.pk.current, deadline := q.d.deadline % 2 ^ 48 } : Sess).core := by
  have headed := (setHead_is (q := q) w.entry w.ring).of (u := (v.setHead k q).evS k 0x08D) (congrArg Sessions.tbl (evS_ss _ _ _ _) :)
  have same : ({ v.sess k with ring := q :: rest } : Sess) = v.sess k := by rw [← w.ring]
  rw [same] at headed
  unfold State.reviveFirst
  dsimp only
  rw [if_neg (by rw [auto]; decide), if_neg (by rw [w.unpinned]; decide), if_neg (by rw [w.mover]; decide)]
  have fns : ((v.setHead k q).evS k 0x08D).fns = v.fns := State.evS_keeps (frame_fns rfl v) _ _ _ _ rfl
  have nv : ((v.setHead k q).evS k 0x08D).nv = v.nv := State.evS_keeps (frame_nv rfl v) _ _ _ _ rfl
  have current : ((v.setHead k q).evS k 0x08D).pk.current = s.pk.current := (congrArg Pick.current (State.evS_keeps (P := fun u => u.pkRest = v.pkRest) (frame_pkRest rfl v) (v.setHead k q) _ _ _ rfl) :).trans w.current
  generalize (v.setHead k q).evS k 0x08D = z at *
  rw [headed.2]
  have pending := headed.set { v.sess k with revivePend := true, policy := (v.sess k).policy, deadline := q.d.deadline % 2 ^ 48 }
  refine (beginRevival_core pending s.pk.current current (dropDraft_fresh pending.1 (w.fresh.of fns nv ?_))).2
  rw [pending.2]

end

/-! ## Which body a whole-session command runs -/

section
variable {s : State} {t k : Nat} {q : QDesc} {rest : List QDesc} {v : State} (e : (s.at t).taking k q = v) (live : s.live = true) (low : k < 2 ^ 20) (w : s.Wholes k q rest v)
include e live low w

theorem park_runs (h : s.Goes k 0x04 q rest) (cell : matrix (v.sess k).st 0x04 = .x) (few : q.d.count ≤ 1) (far : q.d.count = 1 → q.d.dataRef < 16) :
    exec (.park t k) s = .next (if (q.d.count = 0 ∧ ((v.sess k).st = .parkedDeep ∨ (v.sess k).st = .condensed)) ∨ (q.d.count = 1 ∧ (v.sess k).st = .parkedFar) then v.endHead k stDone 0
      else v.moveFor k (if q.d.count = 1 then 2 else 0) (v.sess k).policy q) := by
  refine (goes_exec (i := .park t k) (execPark.eq_1 t k s) (decide_eq_true low) live h).trans (congrArg Host.Outcome.next ?_)
  rw [e]
  dsimp only
  rw [if_neg (by simpa [cell, few, w.known] using far), if_neg (c := v.pinFull k = true) (by simp [w.unpinned])]

theorem condense_runs (h : s.Goes k 0x06 q rest) (cell : matrix (v.sess k).st 0x06 = .x) (few : q.d.count ≤ 2) : exec (.condense t k) s = .next (v.moveFor k 1 q.d.count q) := by
  refine (goes_exec (i := .condense t k) (execCondense.eq_1 t k s) (decide_eq_true low) live h).trans (congrArg Host.Outcome.next ?_)
  rw [e]
  dsimp only
  rw [cell, if_neg (by simp [few, w.known]), if_neg (by decide), if_neg (by simp [w.unpinned])]

theorem revive_runs (h : s.Goes k 0x05 q rest) (cell : matrix (v.sess k).st 0x05 = .x) (zero : q.d.count = 0) : exec (.revive t k) s = .next (((v.bound k (v.sess k).dom q).startRun k q).beginRevival k) := by
  refine (goes_exec (i := .revive t k) (execRevive.eq_1 t k s) (decide_eq_true low) live h).trans (congrArg Host.Outcome.next ?_)
  rw [e]
  dsimp only
  rw [cell, if_neg (by simp [zero, w.known]), if_neg (by decide), if_neg (by simp [w.unpinned]), if_neg (by simp [w.mover])]

theorem export_runs (h : s.Goes k 0x07 q rest) (cell : matrix (v.sess k).st 0x07 = .x) (few : q.d.count ≤ 1) {policy : Nat}
    (slate : (if (v.sess k).st = .condensed then (v.sess k).policy else v.reg Dict.dtierSlatePolicy 0 (v.sess k).dom) = policy)
    (fits : v.farFits (v.sess k).dom q.d.dataRef ((1 + v.exportFrames k q.d.count policy) * frameBytes) = true)
    (sound : ∀ st, v.ref (v.sess k).dom q.d.dataRef q.d.dataLen true ≠ .fail st) (up : v.ref (v.sess k).dom q.d.dataRef q.d.dataLen true ≠ .wait) : exec (.exportSession t k) s = .next (v.moveFor k 3 policy q) := by
  refine (goes_exec (i := .exportSession t k) (execExportSession.eq_1 t k s) (decide_eq_true low) live h).trans (congrArg Host.Outcome.next ?_)
  rw [e]
  dsimp only
  rw [slate, cell, if_neg (by simp [few, w.known, fits])]
  generalize v.ref (v.sess k).dom q.d.dataRef q.d.dataLen true = r at sound up
  have go : (if v.pinFull k = true then v.pinWait k else v.moveFor k 3 policy q) = v.moveFor k 3 policy q := if_neg (by simp [w.unpinned])
  cases r with
  | fail st => exact absurd rfl (sound st)
  | wait => exact absurd rfl up
  | region f key off => exact go
  | window i gen => exact go

theorem truncate_revives (h : s.Goes k 0x0B q rest) (cell : matrix (v.sess k).st 0x0B = .a) (short : q.d.count < (v.sess k).length) : exec (.truncate t k) s = .next (v.reviveFirst k q) := by
  refine (goes_exec (i := .truncate t k) (execTruncate.eq_1 t k s) (decide_eq_true low) live h).trans (congrArg Host.Outcome.next ?_)
  rw [e]
  dsimp only
  rw [cell, if_neg (by simp [w.known, short]), if_pos rfl]

theorem append_revives (h : s.Goes k 0x02 q rest) (cell : matrix (v.sess k).st 0x02 = .a) (auto : bit q.d.flags 1 = true) (zero : q.d.count = 0) (short : q.d.dataLen ≤ 16777216) (ready : q.inSt = 2) :
    exec (.append t k) s = .next (v.reviveFirst k q) := by
  refine (goes_exec (i := .append t k) (execAppend.eq_1 t k s) (decide_eq_true low) live h).trans (congrArg Host.Outcome.next ?_)
  rw [e]
  have same : ({ q with inSt := 2 } : QDesc) = q := by rw [← ready]
  dsimp only
  rw [cell, if_neg (by simp [auto, zero, short, w.known]), withInput_ready (.inl ready), if_pos rfl, same]

end

/-! ## IMPORT -/

theorem import_runs {s : State} {t k : Nat} {q : QDesc} {rest : List QDesc} {v : State} (e : (s.at t).taking k q = v) (live : s.live = true) (low : k < 2 ^ 20) {z : XRec} (h : s.Goes k 0x08 q rest)
    (free : (v.sess k).st = .free) (zero : q.d.count = 0) (far : q.d.dataRef / 2 ^ 62 % 4 = 2) (known : v.handlesOk k q.dom q = true) (unpinned : v.pinFull k = false) (may : v.mayHold q.dom k = true)
    (sound : ∀ st, v.ref q.dom q.d.dataRef q.d.dataLen false ≠ .fail st) (up : v.ref q.dom q.d.dataRef q.d.dataLen false ≠ .wait) (ok : z.ok = true) (own : ¬(v.reg Dict.dsecClass 0 q.dom = 2 ∧ z.writer ≠ ownWriter))
    (dom : z.domain = q.dom) (model : (v.model z.model).st = 2) (mdom : (v.model z.model).dom = q.dom) (meas : (v.model z.model).meas = z.meas) :
    exec (.importSession t k (some z)) s = .next ((v.importEntry k z.model q z).issueMoves k) := by
  refine (goes_exec (i := .importSession t k (some z)) (execImportSession.eq_1 t k (some z) s) (decide_eq_true low) live h).trans (congrArg Host.Outcome.next ?_)
  rw [e]
  dsimp only
  rw [if_neg (by simpa [free, matrix, zero, known] using far), if_neg (by simp [may])]
  generalize v.ref q.dom q.d.dataRef q.d.dataLen false = r at sound up
  have go : (if z.ok = false ∨ (v.reg Dict.dsecClass 0 q.dom = 2 ∧ z.writer ≠ ownWriter) then
            let detail := beBytes 2 q.dom ++ beBytes 8 (v.handle k)
            let s := ((v.inc Dict.secTagFailCount).ev 0x244 none 1 (v.handle k) (some q.dom)).journal 1 (chOf k) 0x244 q.dom (v.handle k) detail
            (s.notify 0x0506 detail).endHead k stPageLost 0
          else if z.domain ≠ q.dom then v.endHead k stDenied 0
          else if (v.model z.model).st ≠ 2 ∨ (v.model z.model).dom ≠ q.dom ∨ (v.model z.model).meas ≠ z.meas then v.endHead k stBad 0
          else if v.pinFull k then v.pinWait k
          else (v.importEntry k z.model q z).issueMoves k) = (v.importEntry k z.model q z).issueMoves k := by
    rw [if_neg (by rw [ok]; exact fun c => c.elim Bool.noConfusion own), if_neg (by simp [dom]), if_neg (by simp [model, mdom, meas]), if_neg (by simp [unpinned])]
  cases r with
  | fail st => exact absurd rfl (sound st)
  | wait => exact absurd rfl up
  | region f key off => exact go
  | window i gen => exact go

theorem bind_origin (x : Sess) (q : QDesc) : (x.bind q).gen = x.gen ∧ (x.bind q).prior = x.prior ∧ (x.bind q).length = x.length := by
  unfold Sess.bind
  split <;> exact ⟨rfl, rfl, rfl⟩

/-- The pages of an imported session take their frames, or wait for them (R205, R189). -/
theorem issueMoves_lands {j k : Nat} {c : Sess} {s : State} (h : CoreIs j c s) (n : c.st ≠ .parkedDeep) (free : (s.sess k).prior = .free) : CoreIs j c (s.issueMoves k) := by
  unfold State.issueMoves
  dsimp only
  split
  · exact h
  · have landed := State.landImport_core k h
    split
    · exact State.allocWait_core _ _ h n
    · rename_i u e
      exact (OkO.get e landed).setSess _ rfl

/-- y is the entry that IMPORT makes of the record z in a slot whose entry was x (R205). -/
structure Sess.Imports (x : Sess) (z : XRec) (q : QDesc) (rest : List QDesc) (y : Sess) : Prop where
  st : y.st = .moving
  prior : y.prior = .free
  dom : y.dom = q.dom
  model : y.model = z.model
  length : y.length = z.length
  sver : y.sver = z.sver
  tokens : y.tokens = z.tokens
  ring : y.ring = rest
  gen : y.gen = x.gen
  run : y.run.map (·.q) = some q

/-- Whether an entry is an imported one shows in its core. -/
theorem Sess.Imports.core {x y w : Sess} {z : XRec} {q : QDesc} {rest : List QDesc} (h : x.Imports z q rest y) (e : w.core = y.core) : x.Imports z q rest w := by
  obtain ⟨ring, st, -, length, tokens, sver, dom⟩ := kept_of_core e
  refine ⟨st.trans h.st, ((congrArg Sess.prior e :) : w.prior = y.prior).trans h.prior, dom.trans h.dom, ((congrArg Sess.model e :) : w.model = y.model).trans h.model, length.trans h.length, sver.trans h.sver,
    tokens.trans h.tokens, ring.trans h.ring, ((congrArg Sess.gen e :) : w.gen = y.gen).trans h.gen, ?_⟩
  have run : (w.run.map fun r => { r with moved := 0 }).map (·.q) = (y.run.map fun r => { r with moved := 0 }).map (·.q) := congrArg (fun c : Sess => c.run.map (·.q)) e
  rw [Option.map_map, Option.map_map] at run
  exact run.trans h.run

/-- The running command that IMPORT starts in an entry which is filled from the record. -/
theorem imported_of {o : State} {k : Nat} {x y : Sess} {z : XRec} {q : QDesc} {rest : List QDesc} (h : SessIs k y o) (ring : y.ring = q :: rest) (known : o.handlesOk k q.dom q = true) (moved : Nat)
    (st : y.st = .moving) (prior : y.prior = .free) (dom : y.dom = q.dom) (model : y.model = z.model) (length : y.length = z.length) (sver : y.sver = z.sver) (tokens : y.tokens = z.tokens) (gen : y.gen = x.gen) :
    let u := (o.bound k q.dom q).startRun k q
    let s := u.setSess k { u.sess k with run := (u.sess k).run.map fun r => { r with moved := moved } }
    SessIs k (s.sess k) s ∧ x.Imports z q rest (s.sess k) := by
  intro u s
  have runs := startRun_is (q := q) (bound_is h known) ((bind_kept _ _).1.trans ring)
  have last := runs.set { u.sess k with run := (u.sess k).run.map fun r => { r with moved := moved } }
  obtain ⟨-, bst, -, bdom, btokens, bsver, bmodel, -⟩ := bind_kept y q
  obtain ⟨bgen, bprior, blength⟩ := bind_origin y q
  refine ⟨⟨last.1, rfl⟩, ?_⟩
  rw [last.2, runs.2]
  exact ⟨bst.trans st, bprior.trans prior, bdom.trans dom, bmodel.trans model, blength.trans length, bsver.trans sver, btokens.trans tokens, rfl, bgen.trans gen, rfl⟩

/-- The entry that IMPORT makes (R205). -/
theorem importEntry_is {v : State} {k : Nat} {x : Sess} {q : QDesc} {rest : List QDesc} (h : SessIs k x v) (ring : x.ring = q :: rest) (known : v.handlesOk k q.dom q = true) (z : XRec) :
    SessIs k ((v.importEntry k z.model q z).sess k) (v.importEntry k z.model q z) ∧ x.Imports z q rest ((v.importEntry k z.model q z).sess k) := by
  have made := openSlot_is h q.dom z.model q
  have tx : (v.openSlot k q.dom z.model q).tx = v.tx := State.openSlot_keeps (P := fun u => u.tx = v.tx) (frame_tx rfl v) _ _ _ _ _ rfl
  unfold State.importEntry
  dsimp only
  generalize v.openSlot k q.dom z.model q = o at *
  rw [made.2]
  have known' : ∀ y : Sess, (o.setSess k y).handlesOk k q.dom q = true := fun y => (handlesOk_tx (z := o.setSess k y) tx).trans known
  have tail := fun (y : Sess) => imported_of (x := x) (z := z) (rest := rest) (made.set y) (known := known' y) (moved := z.pages.length)
  exact tail _ (by exact ring) (by rfl) (by rfl) (by rfl) (by rfl) (by rfl) (by rfl) (by rfl) (by rfl)

theorem import_begins {v : State} {k : Nat} {x : Sess} {q : QDesc} {rest : List QDesc} (h : SessIs k x v) (ring : x.ring = q :: rest) (known : v.handlesOk k q.dom q = true) (z : XRec) :
    x.Imports z q rest (((v.importEntry k z.model q z).issueMoves k).sess k) := by
  obtain ⟨entry, imports⟩ := importEntry_is h ring known z
  generalize v.importEntry k z.model q z = o at *
  have moving : (o.sess k).core.st ≠ .parkedDeep := fun e => SSt.noConfusion (imports.st.symm.trans e)
  exact imports.core (issueMoves_lands entry.core moving imports.prior).2

/-- Settles O29: each command runs the body of its checks' last branch, whose moves and revivals change the session's core only as they begin. -/
theorem wholeSessionCommandsBegin : Obligations.WholeSessionCommandsBegin := by
  intro s t k q rest live low v x cur ok moves revives
  have e : (s.at t).taking k q = v := rfl
  clear_value v
  have whole : ∀ {op : Nat}, s.Goes k op q rest → ok → s.Wholes k q rest v := fun goes ⟨known, unpinned, own, mover, fresh⟩ => ⟨e ▸ goes.checks t, known, unpinned, own, mover, fresh⟩
  have ends : ∀ {i : Instr}, s.Wholes k q rest v → exec i s = .next (v.endHead k stDone 0) → s.EndsHead v i k q rest stDone := fun w runs =>
    endsHead_of runs ⟨w.entry.1, w.cq ▸ w.sorted⟩ w.ring ((stalled_of_cq w.cq _).trans w.room)
  refine ⟨fun goes o cell => ?_, fun goes o cell few => ?_, fun goes o cell zero => ?_, fun goes o cell few fits sound up => ?_, fun goes o cell auto short => ?_, fun goes o cell auto zero short ready => ?_,
    fun z goes free zero far known unpinned may sound up zok own dom model mdom meas => ?_⟩
  · have w := whole goes o
    refine ⟨fun zero deep slate => ?_, fun one far out => ?_, fun zero there => ?_, fun one far there => ?_⟩
    · have runs := park_runs e live low w goes cell (by omega) (by omega)
      rw [if_neg (by rintro (c | c); exacts [c.2.elim deep slate, by omega]), if_neg (by omega)] at runs
      exact ⟨_, runs, moveFor_begins w 0 x.policy⟩
    · have runs := park_runs e live low w goes cell (by omega) (fun _ => far)
      rw [if_neg (by rintro (c | c); exacts [by omega, out c.2]), if_pos one] at runs
      exact ⟨_, runs, moveFor_begins w 2 x.policy⟩
    · have runs := park_runs e live low w goes cell (by omega) (by omega)
      rw [if_pos (.inl ⟨zero, there⟩)] at runs
      exact ends w runs
    · have runs := park_runs e live low w goes cell (by omega) (fun _ => far)
      rw [if_pos (.inr ⟨one, there⟩)] at runs
      exact ends w runs
  · have w := whole goes o
    exact ⟨_, condense_runs e live low w goes cell few, moveFor_begins w 1 q.d.count⟩
  · have w := whole goes o
    exact ⟨_, revive_runs e live low w goes cell zero, revive_begins w⟩
  · have w := whole goes o
    exact ⟨_, export_runs e live low w goes cell few rfl fits sound up, moveFor_begins w 3 _⟩
  · have w := whole goes o
    exact ⟨_, truncate_revives e live low w goes cell short, reviveFirst_begins w auto⟩
  · have w := whole goes o
    exact ⟨_, append_revives e live low w goes cell auto zero short ready, reviveFirst_begins w auto⟩
  · have c : s.Checks k q rest v := e ▸ goes.checks t
    have i := import_begins c.entry c.ring known z
    exact ⟨_, import_runs e live low goes free zero far known unpinned may sound up zok own dom model mdom meas, i.st, i.prior, i.dom, i.model, i.length, i.sver, i.tokens, i.ring, i.gen, i.run⟩

end Sys2Proof.Machine
end

section
/-! SUPPORT. Proofs of the sessions chapter's statements: the timers of sessions, rings and frames. -/

namespace Sys2Proof.Machine

open Sys2Proof

/-! ## Times to live (R196-R201) -/

/-- No timer of a session acts while the session is not free for it. -/
theorem timers_off {s : State} {k : Nat} (h : s.timerFree k = false) : s.parkDue k = s ∧ s.deepDue k = s ∧ s.slateDue k = s ∧ s.farDue k = s := by
  unfold State.parkDue State.deepDue State.slateDue State.farDue
  dsimp only
  rw [h]
  exact ⟨rfl, rfl, rfl, rfl⟩

/-- The session once its move to a tier has begun (R145). -/
def Sess.departs (x : Sess) (a b cur : Nat) : Sess := { x with st := .moving, prior := x.st, target := a, policy := b, pausedAt := cur }

section
variable {s : State} {k : Nat} {x : Sess} (entry : SessIs k x s) (free : s.timerFree k = true) (room : s.pinFull k = false) (fresh : s.noneStale k)
include entry fresh

theorem timerMove_core (a b : Nat) : CoreIs k (x.departs a b s.pk.current).core (((s.touchEntry k).beginMoving k a b).issueMoves k) := by
  have touched : SessIs k x (s.touchEntry k) := entry.of (State.touchEntry_tbl s k)
  have current : (s.touchEntry k).pk.current = s.pk.current := (congrArg Pick.current (State.touchEntry_keeps (P := fun u => u.pkRest = s.pkRest) (frame_pkRest rfl s) s k rfl) :)
  have kept : (s.touchEntry k).noneStale k := fresh.of (State.touchEntry_keeps (frame_fns rfl s) s k rfl) (State.touchEntry_keeps (frame_nv rfl s) s k rfl) (by rw [touched.2, entry.2])
  exact State.issueMoves_core k (beginMoving_core touched _ current) (fun h => SSt.noConfusion h) (beginMoving_fresh touched.1 kept)

include free room

theorem parkDue_core (rest : x.st = .admitted ∨ x.st = .toolwait) :
    ((s.parkDue k).sess k).core = if ((((s.touchEntry k).beginMoving k 0 0).issueMoves k).sess k).reserved then (x.departs 0 0 s.pk.current).core else x.core := by
  have moving := timerMove_core entry fresh 0 0
  have due : (s.timerFree k && (decide ((s.sess k).st = .admitted) || decide ((s.sess k).st = .toolwait))) = true := by
    rw [free, entry.2]
    rcases rest with h | h <;> rw [h] <;> rfl
  unfold State.parkDue
  dsimp only
  rw [if_pos due, if_neg (by rw [room]; decide)]
  have st : ((((s.touchEntry k).beginMoving k 0 0).issueMoves k).sess k).st = .moving := (kept_of_core moving.2).2.1
  rw [st]
  generalize ((s.touchEntry k).beginMoving k 0 0).issueMoves k = u at *
  cases reserved : (u.sess k).reserved with
  | true => exact moving.2
  | false =>
    refine (State.starve_core _ _ _ ((CoreIs.stable (T := [.ctr, .ev]) rfl k x.core).ev rfl _ _ _ _ _ _ _ ((CoreIs.stable (T := [.ctr]) rfl k x.core).ctr rfl _ _ _ _ _ rfl entry.core)) ?_).2
    intro h
    have h' : x.st = .parkedDeep := h
    rcases rest with r | r <;> exact SSt.noConfusion (r.symm.trans h')

theorem deepDue_core (deep : x.st = .parkedDeep) : ((s.deepDue k).sess k).core = (x.departs 1 (s.reg Dict.dtierSlatePolicy 0 x.dom) s.pk.current).core := by
  unfold State.deepDue
  dsimp only
  rw [if_pos (by rw [free, entry.2, deep]; rfl), if_neg (by rw [room]; decide), entry.2]
  exact (timerMove_core entry fresh 1 _).2

theorem slateDue_core (slate : x.st = .condensed) (moves : s.reg Dict.dtierSlateExpiry 0 x.dom = 0) : ((s.slateDue k).sess k).core = (x.departs 2 x.policy s.pk.current).core := by
  unfold State.slateDue
  dsimp only
  rw [if_pos (by rw [free, entry.2, slate]; rfl), if_neg (by rw [room]; decide), entry.2, if_pos moves]
  exact (timerMove_core entry fresh 2 _).2

end

/-- Whether a queue has room depends on the settings, the flows, the queue and what its host has consumed. -/
theorem cqRoom_settings {s v : State} (sl : v.sl = s.sl) (settings : s.sameSettings v) (cq : v.ss.cq = s.ss.cq) {d : Nat} (consumed : v.reg Dict.dsessCompletionConsumed 0 d = s.reg Dict.dsessCompletionConsumed 0 d) :
    v.cqRoom d = s.cqRoom d := by
  have io := settings Dict.dslaiskIoFlow (by decide +kernel) (by decide) 0 d
  have entries := settings Dict.dsessCompletionEntries (by decide +kernel) (by decide) 0 d
  unfold State.cqRoom State.flowReady State.flow State.ioFlow State.cq
  rw [io, consumed, entries, sl, cq]

/-- A session's own record, which no command of the host asked for (R157). -/
theorem unsolicited_posts {s : State} {k : Nat} {x : Sess} (entry : SessIs k x s) (cq : Tbl.sorted s.ss.cq) (room : s.stalled x.dom = false) (op st n a b : Nat) :
    SessIs k x (s.unsolicited k op st n a b) ∧ s.posts x.dom (fun r => r.handle = s.handle k ∧ r.seq = 0xFFFF ∧ r.opcode = op ∧ r.status = st ∧ r.progress = n % 2 ^ 32) (s.unsolicited k op st n a b) := by
  unfold State.unsolicited
  rw [entry.2]
  exact ⟨entry.of (State.record_tbl _ _ _ _ _ _ _ _ _ _ _), record_posts cq room _ _ _ _ _ _ _ _ _⟩

/-- What touching an entry leaves beside the settings: the host's consumption, the handle. -/
theorem touchEntry_reg (s : State) (k : Nat) {x : Entry} (hit : ∀ c sub i, regKey x sub i ≠ regKey Dict.sessCacheHitCount 0 c) (miss : ∀ c sub i, regKey x sub i ≠ regKey Dict.sessCacheMissCount 0 c) (sub i : Nat) :
    (s.touchEntry k).reg x sub i = s.reg x sub i := by
  have counted : ∀ (z : State) (e : Entry) (c : Nat), regKey x sub i ≠ regKey e 0 c → ∀ a b d g f h, ((z.inc e 1 0 c).ev a b d g f h).reg x sub i = z.reg x sub i := fun z e c far a b d g f h =>
    (ev_reg' _ _ _ _ _ _ _ x sub i).trans (State.setReg_other far)
  unfold State.touchEntry
  dsimp only
  split
  · split <;> exact counted _ _ _ (hit _ _ _) _ _ _ _ _ _
  · split <;> exact counted _ _ _ (miss _ _ _) _ _ _ _ _ _

theorem touchEntry_bumps (s : State) (k : Nat) : (s.touchEntry k).ss.bumps = s.ss.bumps := by
  have left : ∀ (z : State) (e : Entry) (c : Nat) a b d g f h, ((z.inc e 1 0 c).ev a b d g f h).ss.bumps = z.ss.bumps := fun z e c a b d g f h => (congrArg Sessions.bumps (State.ev_ss _ _ _ _ _ _ _) :)
  unfold State.touchEntry
  dsimp only
  split
  · split <;> exact left _ _ _ _ _ _ _ _ _
  · split <;> exact left _ _ _ _ _ _ _ _ _

theorem touchEntry_handle (s : State) (k j : Nat) : (s.touchEntry k).handle j = s.handle j := by
  have device : (s.touchEntry k).device = s.device := State.touchEntry_keeps (frame_settings rfl s) s k (fun _ _ _ _ _ => rfl) Dict.warpDeviceIndex (by decide +kernel) (by decide) 0 0
  have nv : (s.touchEntry k).nv = s.nv := State.touchEntry_keeps (frame_nv rfl s) s k rfl
  unfold State.handle State.genOf State.startsOf
  rw [device, nv, touchEntry_bumps, State.sess_of_tbl (State.touchEntry_tbl s k)]

theorem touchEntry_cqRoom (s : State) (k d : Nat) : (s.touchEntry k).cqRoom d = s.cqRoom d :=
  cqRoom_settings (State.touchEntry_keeps (P := fun u => u.sl = s.sl) (frame_sl rfl s) s k rfl) (State.touchEntry_keeps (frame_settings rfl s) s k fun _ _ _ _ _ => rfl) (touchEntry_cq s k)
    (touchEntry_reg (x := Dict.dsessCompletionConsumed) s k (fun _ _ _ => key_far _ _ _ _ (by decide) rfl) (fun _ _ _ => key_far _ _ _ _ (by decide) rfl) 0 d)

theorem slateDue_deletes {s : State} {k : Nat} {x : Sess} (entry : SessIs k x s) (cq : Tbl.sorted s.ss.cq) (free : s.timerFree k = true) (room : s.pinFull k = false) (slate : x.st = .condensed)
    (deletes : s.reg Dict.dtierSlateExpiry 0 x.dom ≠ 0) (open' : s.stalled x.dom = false) :
    (s.slateDue k).sess k = { x with st := .closing, since := s.pk.current } ∧
    s.posts x.dom (fun r => r.handle = s.handle k ∧ r.seq = 0xFFFF ∧ r.opcode = 0x0A ∧ r.status = stDone ∧ r.progress = x.pageCount % 2 ^ 32) (s.slateDue k) := by
  have e : s.slateDue k = ((s.touchEntry k).unsolicited k 0x0A stDone x.pageCount 0 0).toState k .closing := by
    unfold State.slateDue
    dsimp only
    rw [if_pos (by rw [free, entry.2, slate]; rfl), if_neg (by rw [room]; decide), entry.2, if_neg deletes]
  rw [e]
  have touched : SessIs k x (s.touchEntry k) := entry.of (State.touchEntry_tbl s k)
  have same := touchEntry_cq s k
  have current : (s.touchEntry k).pk.current = s.pk.current := (congrArg Pick.current (State.touchEntry_keeps (P := fun u => u.pkRest = s.pkRest) (frame_pkRest rfl s) s k rfl) :)
  have queue := touchEntry_cqRoom s k x.dom
  have handle := touchEntry_handle s k k
  generalize s.touchEntry k = v at *
  obtain ⟨own, record⟩ := unsolicited_posts touched (same ▸ cq) ((stalled_of_cq same _).trans open') 0x0A stDone x.pageCount 0 0
  have now : (v.unsolicited k 0x0A stDone x.pageCount 0 0).pk.current = s.pk.current := (congrArg Pick.current (State.unsolicited_keeps (P := fun u => u.pkRest = v.pkRest) (frame_pkRest rfl v) v _ _ _ _ _ _ rfl) :).trans current
  generalize v.unsolicited k 0x0A stDone x.pageCount 0 0 = u at *
  rw [handle] at record
  have closing := toState_is own .closing
  rw [now] at closing
  exact ⟨closing.2, (record.from queue same).to (toState_cq u k _)⟩

theorem farDue_records {s : State} {k : Nat} {x : Sess} (entry : SessIs k x s) (cq : Tbl.sorted s.ss.cq) (free : s.timerFree k = true) (far : x.st = .parkedFar) (room : s.stalled x.dom = false) :
    (s.farDue k).sess k = { x with ttl := 0 } ∧ s.posts x.dom (fun r => r.handle = s.handle k ∧ r.seq = 0xFFFF ∧ r.opcode = 0x09 ∧ r.status = stDone ∧ r.progress = x.length % 2 ^ 32) (s.farDue k) := by
  have e : s.farDue k = (s.setSess k { x with ttl := 0 }).unsolicited k 0x09 stDone x.length 0 0 := by
    unfold State.farDue
    dsimp only
    rw [if_pos (by rw [free, entry.2, far]; rfl), entry.2]
  rw [e]
  have off := entry.set { x with ttl := 0 }
  have handle : (s.setSess k { x with ttl := 0 }).handle k = s.handle k := by
    unfold State.handle State.genOf
    rw [off.2, entry.2]
    rfl
  obtain ⟨own, record⟩ := unsolicited_posts off cq room 0x09 stDone x.length 0 0
  rw [handle] at record
  exact ⟨own.2, record⟩

/-! ## Deadlines and graces (R156, R189, R288) -/

/-- Session k's command r has ended with that status in u: the session is in state st without it, and the command's record is posted. -/
def State.RunEnded (s : State) (k : Nat) (x : Sess) (r : Run) (st : SSt) (status : Nat) (u : State) : Prop :=
  Tbl.sorted u.ss.tbl ∧ (u.sess k).st = st ∧ (u.sess k).run = none ∧ (u.sess k).ring = x.ring ∧ (u.sess k).length = x.length ∧
  ∃ (w : State) (n : Nat), w.ss.cq = s.ss.cq ∧ w.posts r.q.dom (Rec.completes r.q status n) u

theorem State.RunEnded.of {s u w : State} {k : Nat} {x : Sess} {r : Run} {st : SSt} {status : Nat} (h : s.RunEnded k x r st status u) (e : w.ss = u.ss) : s.RunEnded k x r st status w := by
  obtain ⟨sorted, state, run, ring, length, v, n, cq, record⟩ := h
  have same : w.sess k = u.sess k := State.sess_of_tbl (congrArg Sessions.tbl e) k
  exact ⟨by rw [e]; exact sorted, by rw [same]; exact state, by rw [same]; exact run, by rw [same]; exact ring, by rw [same]; exact length, v, n, cq, record.at' e⟩

/-- A session's running command ends, and the session rests. -/
theorem stopRun_ends {s v : State} {k : Nat} {x : Sess} {r : Run} (entry : SessIs k x v) (run : x.run = some r) (cq : v.ss.cq = s.ss.cq) (order : Tbl.sorted s.ss.cq) (room : s.stalled r.q.dom = false) {status : Nat}
    (rests : status ≠ stDeadend ∧ status ≠ stPageLost) : s.RunEnded k x r x.rest status (v.stopRun k status) := by
  obtain ⟨⟨y, own, st, none, -, ring, length, -⟩, w, n, same, record⟩ := stopRun_is entry run (cq ▸ order) ((stalled_of_cq cq _).trans room) status
  rw [if_neg (fun c => c.elim rests.1 rests.2)] at st
  rw [← own.2] at st none ring length
  exact ⟨own.1, st, none, ring, length, w, n, same.trans cq, record⟩

/-- What the late descriptors of a ring leave of its session. -/
def State.lateLeft (s : State) (x : Sess) : Sess :=
  { x with ring := x.ring.filter fun q => !s.isLate q.d.deadline, head := (x.head + (x.ring.filter fun q => s.isLate q.d.deadline).length) % 65536, revivePend := x.revivePend && !(match x.ring with | q :: _ => s.isLate q.d.deadline | [] => false) }

theorem lateInRing_is {s : State} {k : Nat} {x : Sess} (entry : SessIs k x s) : SessIs k (s.lateLeft x) (s.lateInRing k) := by
  unfold State.lateInRing
  dsimp only
  rw [entry.2]
  exact each_keeps (P := SessIs k (s.lateLeft x)) (fun q u hu => hu.endDesc _ _ _ _ _) (entry.set (s.lateLeft x))

/-- Without a late descriptor the ring is as it was, and nothing is posted. -/
theorem lateInRing_quiet {s : State} {k : Nat} {x : Sess} (entry : SessIs k x s) (inTime : ∀ q ∈ x.ring, s.isLate q.d.deadline = false) : s.lateInRing k = s.setSess k (s.lateLeft x) := by
  have hit : (x.ring.filter fun q => s.isLate q.d.deadline) = [] := List.filter_eq_nil_iff.mpr fun q hq => by rw [inTime q hq]; decide
  unfold State.lateInRing State.lateLeft
  dsimp only
  rw [entry.2, hit]
  rfl

theorem lateRun_idle {s : State} {k : Nat} {x : Sess} (entry : SessIs k x s) (idle : x.serving = false) : s.lateRun k = s := by
  unfold State.lateRun
  dsimp only
  rw [entry.2, idle]
  rfl

theorem isLate_of {s v : State} (h : v.pkRest = s.pkRest) (f : Nat) : v.isLate f = s.isLate f := by
  have current : v.pk.current = s.pk.current := (congrArg Pick.current h :)
  unfold State.isLate State.pick48
  rw [current]

theorem deadline_ends {s : State} {k : Nat} {x : Sess} {r : Run} (entry : SessIs k x s) (order : Tbl.sorted s.ss.cq) (run : x.run = some r) (serving : x.serving = true) (late : s.isLate x.deadline = true)
    (idle : s.inStep k = false) (room : s.stalled r.q.dom = false) (inTime : ∀ q ∈ x.ring, s.isLate q.d.deadline = false) : s.RunEnded k x r x.rest stDeadline ((s.lateRun k).lateInRing k) := by
  have e : s.lateRun k = (s.stopRun k stDeadline).evS k 0x265 := by
    unfold State.lateRun
    exact if_pos (by rw [entry.2, serving, late, idle, run]; rfl)
  have pk : ((s.stopRun k stDeadline).evS k 0x265).pkRest = s.pkRest := State.evS_keeps (frame_pkRest rfl s) _ _ _ _ (State.stopRun_keeps (frame_pkRest rfl s) s k _ rfl)
  have ends := (stopRun_ends entry run rfl order room (by decide)).of (evS_ss (s.stopRun k stDeadline) k 0x265 1)
  rw [e]
  generalize (s.stopRun k stDeadline).evS k 0x265 = u at *
  obtain ⟨sorted, st, none, ring, length, w, n, cq, record⟩ := ends
  have own : SessIs k (u.sess k) u := ⟨sorted, rfl⟩
  have quiet : ∀ q ∈ (u.sess k).ring, u.isLate q.d.deadline = false := fun q hq => (isLate_of pk _).trans (inTime q (ring ▸ hq))
  have last := own.set (u.lateLeft (u.sess k))
  rw [lateInRing_quiet own quiet]
  refine ⟨last.1, ?_⟩
  rw [last.2]
  refine ⟨st, none, ?_, length, w, n, cq, record.to rfl⟩
  exact (List.filter_eq_self.mpr fun q hq => by rw [quiet q hq]; rfl).trans ring

theorem endDom_tbl (s : State) (q : QDesc) (a b c : Nat) (n : Option Nat) : (s.endDom q a b c n).ss.tbl = s.ss.tbl := by
  unfold State.endDom
  dsimp only
  refine (tbl_of (T := [.ctr, .ev]) rfl fun {P} h hs => h.ev rfl _ _ _ _ _ _ _ (when_keeps (P := P) (fun u hu => h.ctr rfl _ _ _ _ _ rfl hu) (when_keeps (P := P) (fun u hu => h.ev rfl _ _ _ _ _ _ _ (h.ctr rfl _ _ _ _ _ rfl hu)) hs))).trans
    (State.record_tbl _ _ _ _ _ _ _ _ _ _ _)

theorem lateInDring_tbl (s : State) (d : Nat) : (s.lateInDring d).ss.tbl = s.ss.tbl :=
  each_keeps (P := fun u => u.ss.tbl = s.ss.tbl) (fun q u hu => (endDom_tbl u q _ _ _ none).trans hu) rfl

theorem allocGrace_ends {s : State} {k : Nat} {x : Sess} {r : Run} (entry : SessIs k x s) (order : Tbl.sorted s.ss.cq) (run : x.run = some r) (serving : x.serving = true) {p : Nat} (waits : x.waitFrom = some p)
    (due : p + s.reg Dict.dtierFrameGrace 0 x.dom ≤ s.pk.current) (past : p < s.pk.current) (idle : s.inStep k = false) (room : s.stalled r.q.dom = false) : s.RunEnded k x r x.rest stNoFrames (s.allocGrace k) := by
  unfold State.allocGrace
  dsimp only
  rw [entry.2, waits]
  dsimp only
  rw [if_pos ⟨due, past, idle⟩, serving, if_pos rfl]
  have same : ∀ d, (s.notify 0x1202 d).ss = s.ss := fun d => State.notify_ss s _ _
  exact stopRun_ends (entry.of (congrArg Sessions.tbl (same _) :)) run (congrArg Sessions.cq (same _) :) order room (by decide)

theorem streamRecord_posts {s : State} {k : Nat} {x : Sess} {r : Run} (entry : SessIs k x s) (order : Tbl.sorted s.ss.cq) (room : s.stalled x.dom = false) (n : Nat) (c : Nat) (f : Nat) (w : Bool) :
    let y := { x with run := some { r with lastRec := n } }
    let u := (s.setSess k y).record x.dom r.q.d.session r.q.d.seq 0x03 stPartial x.progress c f w
    u.sess k = y ∧ s.posts x.dom (fun a => a.handle = r.q.d.session ∧ a.seq = r.q.d.seq ∧ a.opcode = 0x03 ∧ a.status = stPartial ∧ a.progress = x.progress % 2 ^ 32) u := by
  intro y u
  exact ⟨((entry.set y).of (State.record_tbl _ _ _ _ _ _ _ _ _ _ _)).2, record_posts (s := s.setSess k y) order room _ _ _ _ _ _ _ _ _⟩

/-! ## Held records (R157) -/

/-- Domain d's queue holds no record and has written n. -/
def State.allWritten (d n : Nat) (u : State) : Prop := Tbl.sorted u.ss.cq ∧ (u.cq d).held = [] ∧ (u.cq d).written = n

theorem allWritten_of {d n : Nat} {s u : State} (h : s.allWritten d n) (e : u.ss.cq = s.ss.cq) : u.allWritten d n := by
  unfold State.allWritten State.cq at h ⊢
  rw [e]
  exact h

/-- Filling the hub buffer moves no record of a queue that holds none. -/
theorem fillHub_written {d n : Nat} {s : State} (h : s.allWritten d n) : s.fillHub.allWritten d n := by
  unfold State.fillHub
  refine each_keeps (P := State.allWritten d n) (fun e u hu => ?_) h
  dsimp only
  generalize hl : List.foldl _ _ _ = l
  have set : (u.setCq e.1 { u.cq e.1 with held := l.1 }).allWritten d n := by
    obtain ⟨sorted, held, written⟩ := hu
    have other : (u.setCq e.1 { u.cq e.1 with held := l.1 }).cq d = if d = e.1 then { u.cq e.1 with held := l.1 } else u.cq d := Tbl.get_put sorted
    unfold State.allWritten
    rw [other]
    refine ⟨Tbl.put_sorted sorted, ?_⟩
    split
    · rename_i same
      rw [← same, held] at hl
      rw [← same, ← hl]
      exact ⟨rfl, written⟩
    · exact ⟨held, written⟩
  exact allWritten_of set (congrArg Sessions.cq (State.hubRose_keeps (P := fun v => v.ss = (u.setCq e.1 { u.cq e.1 with held := l.1 }).ss) (frame_ss rfl _) _ _ _ rfl) :)

theorem writeRec_held {s : State} (h : Tbl.sorted s.ss.cq) (d : Nat) (r : Rec) : ((s.writeRec d r).cq d).held = (s.cq d).held := by
  unfold State.writeRec
  dsimp only
  generalize hz : s.setCq d { (s.cq d) with written := ((s.cq d).written + 1) % 2 ^ 32 } = z
  have e : ∀ f key off b, (z.txWrite f key off b).ss = z.ss := fun f key off b => State.txWrite_keeps (P := fun u => u.ss = z.ss) (frame_ss rfl z) z _ _ _ _ _ rfl
  rw [cq_of_ss (e _ _ _ _), ← hz, cq_setCq h]

theorem release_writes {s : State} {d : Nat} {h : Held} (order : Tbl.sorted s.ss.cq) (held : (s.cq d).held = [h]) (plain : h.notif = false) (silent : h.wantsNotif = false) (room : s.cqRoom d = true) :
    (s.release d).allWritten d (((s.cq d).written + 1) % 2 ^ 32) := by
  have first : s.releaseOne d = ((s.setCq d { s.cq d with held := [] }).writeRec d h.r, true) := by
    unfold State.releaseOne
    dsimp only
    rw [held]
    dsimp only
    rw [plain, silent, room]
    rfl
  have written : ((s.setCq d { s.cq d with held := [] }).writeRec d h.r).allWritten d (((s.cq d).written + 1) % 2 ^ 32) := by
    obtain ⟨count, sorted⟩ := writeRec_cq (s := s.setCq d { s.cq d with held := [] }) (Tbl.put_sorted order) d h.r
    have none := writeRec_held (s := s.setCq d { s.cq d with held := [] }) (Tbl.put_sorted order) d h.r
    rw [cq_setCq order] at count none
    exact ⟨sorted, none, count⟩
  unfold State.release
  rw [held]
  show (State.releaseSome 2 d s).fillHub.allWritten d _
  refine fillHub_written ?_
  unfold State.releaseSome
  dsimp only
  rw [first, if_pos rfl]
  generalize (s.setCq d { s.cq d with held := [] }).writeRec d h.r = u at *
  have empty : u.releaseOne d = (u, false) := by
    unfold State.releaseOne
    dsimp only
    rw [written.2.1]
  unfold State.releaseSome
  dsimp only
  rw [empty]
  exact written

/-! ## Frames (R251, R195) -/

theorem frame_setFrame {s : State} (sorted : Tbl.sorted s.tm.frames) (c tier n : Nat) (f : Frame) : (s.setFrame c tier n f).frame c tier n = f :=
  (Tbl.get_put sorted).trans (if_pos rfl)

/-- A frame's test that failed in the deep tier retires the frame, and a notice says so. -/
theorem frameTest_retires {s : State} (sorted : Tbl.sorted s.tm.frames) (c tier n : Nat) (f : Frame) (src : Nat) (d : Bytes) :
    let u := (((s.setFrame c tier n f).inc Dict.tierFramesRetired 1 0 c).ev src (some c) 1 n).notify 0x1201 d
    u.frame c tier n = f ∧ u.lastNotice 0x1201 d := by
  intro u
  have tm : u.tm = (s.setFrame c tier n f).tm := (State.notify_tm _ _ _).trans (State.ev_tm _ _ _ _ _ _ _)
  refine ⟨?_, State.notify_last _ _ _⟩
  unfold State.frame
  rw [tm]
  exact frame_setFrame sorted c tier n f

/-! ## The commands of the timers -/

/-- The timers of a session that rest on its times to live act as its state says (R196-R201). -/
theorem ttl_timers {s : State} {t k : Nat} (live : s.live = true) (low : k < 2 ^ 20) :
    exec (.parkPickReached t k) s = .next ((s.at t).parkDue k) ∧ exec (.deepTtlExpire t k) s = .next ((s.at t).deepDue k) ∧ exec (.slateTtlExpire t k) s = .next ((s.at t).slateDue k) ∧
    exec (.farTtlExpire t k) s = .next ((s.at t).farDue k) :=
  ⟨(execParkPickReached.eq_1 t k s).trans (run_wf _ (decide_eq_true low) live), (execDeepTtlExpire.eq_1 t k s).trans (run_wf _ (decide_eq_true low) live),
    (execSlateTtlExpire.eq_1 t k s).trans (run_wf _ (decide_eq_true low) live), (execFarTtlExpire.eq_1 t k s).trans (run_wf _ (decide_eq_true low) live)⟩

theorem budgetGrace_ends {s : State} {t k : Nat} {x : Sess} {r : Run} (live : s.live = true) (low : k < 2 ^ 20) (entry : SessIs k x s) (order : Tbl.sorted s.ss.cq) (run : x.run = some r) (decode : x.st = .decode)
    (spent : s.sreg Dict.dbudgetGrace 0 x.dom < x.bwait) (idle : s.inStep k = false) (room : s.stalled r.q.dom = false) : ∃ u, exec (.budgetGraceExpire t k) s = .next u ∧ s.RunEnded k x r x.rest stBudget u := by
  have entry' : SessIs k x (s.at t) := entry
  refine ⟨(s.at t).stopRun k stBudget, (execBudgetGraceExpire.eq_1 t k s).trans ((run_wf (i := .budgetGraceExpire t k) _ (decide_eq_true low) live).trans (congrArg Host.Outcome.next ?_)), stopRun_ends entry' run rfl order room (by decide)⟩
  dsimp only
  rw [entry'.2]
  exact if_pos ⟨decode, spent, idle⟩

/-- What ends a running command, as the statement says it. -/
theorem State.RunEnded.ends {s u : State} {k : Nat} {x : Sess} {r : Run} {st : SSt} {status : Nat} (h : s.RunEnded k x r st status u) :
    (u.sess k).st = st ∧ (u.sess k).run = none ∧ (u.sess k).ring = x.ring ∧ (u.sess k).length = x.length ∧ ∃ (w : State) (n : Nat), w.ss.cq = s.ss.cq ∧ w.posts r.q.dom (Rec.completes r.q status n) u := h.2

theorem stream_records {s : State} {t k : Nat} {x : Sess} {r : Run} (live : s.live = true) (low : k < 2 ^ 20) (entry : SessIs k x s) (order : Tbl.sorted s.ss.cq) (run : x.run = some r) (gen : r.q.d.opcode = 0x03)
    (decode : x.st = .decode) (every : 0 < s.reg Dict.dsessStreamEvery 0 x.dom) (due : r.lastRec + s.reg Dict.dsessStreamEvery 0 x.dom ≤ s.pk.current) (room : s.stalled x.dom = false) :
    ∃ u, exec (.generateStreamRecord t k) s = .next u ∧ u.sess k = { x with run := some { r with lastRec := s.pk.current } } ∧
      s.posts x.dom (fun y => y.handle = r.q.d.session ∧ y.seq = r.q.d.seq ∧ y.opcode = 0x03 ∧ y.status = stPartial ∧ y.progress = x.progress % 2 ^ 32) u := by
  have entry' : SessIs k x (s.at t) := entry
  refine ⟨_, (execGenerateStreamRecord.eq_1 t k s).trans ((run_wf (i := .generateStreamRecord t k) _ (decide_eq_true low) live).trans (congrArg Host.Outcome.next ?_)),
    streamRecord_posts (s := s.at t) entry' order room s.pk.current x.ctx.delivered (flMore + flForwarded * b2n r.q.fwd) (bit r.q.d.flags 0)⟩
  dsimp only
  rw [entry'.2, run]
  exact if_pos ⟨gen, decode, every, due⟩

section
variable {s : State} {t c tier n : Nat} (live : s.live = true) (hc : c < 4) (ht : tier < 2) (hn : n < 16777216)
include hc ht hn

theorem frame_wf : (decide (c < 4) && decide (tier < 2) && decide (n < 16777216)) = true := by rw [decide_eq_true hc, decide_eq_true ht, decide_eq_true hn]; rfl

include live

theorem lease_runs : exec (.frameLeaseRelease t c tier n) s = .next (if (s.frame c tier n).st = 2 then (s.at t).setFrame c tier n { s.frame c tier n with st := if (s.frame c tier n).bad then 3 else 0 } else s.at t) :=
  (execFrameLeaseRelease.eq_1 t c tier n s).trans (run_wf (i := .frameLeaseRelease t c tier n) _ (frame_wf hc ht hn) live)

theorem frameTest_runs {bad : List Nat} (small : ∀ b ∈ bad, b < 72) (passes : bad = [] ∨ tier = 1) : exec (.frameTestComplete t c tier n bad) s = .next (if (s.frame c tier n).st ≠ 3 then s.at t
    else if bad = [] then (s.at t).setFrame c tier n { s.frame c tier n with st := 0, bad := false }
    else ((((s.at t).setFrame c tier n { s.frame c tier n with st := 4, bad := false }).inc Dict.tierFramesRetired 1 0 c).ev 0x053 (some c) 1 n).notify 0x1201 ([c, tier] ++ beBytes 4 n)) := by
  have wf : (Instr.frameTestComplete t c tier n bad).wf = true := Bool.and_eq_true_iff.mpr ⟨frame_wf hc ht hn, List.all_eq_true.mpr fun b hb => decide_eq_true (small b hb)⟩
  refine (execFrameTestComplete.eq_1 t c tier n bad s).trans ((run_wf _ wf live).trans (congrArg _ ?_))
  dsimp only
  rcases passes with none | deep
  · subst none
    rfl
  · rw [if_pos (c := tier ≠ 0) (by omega)]
    rfl

end

/-- Settles O30: each timer's command has its one effect where its condition holds, and leaves the state where it does not. -/
theorem timersActWhenTheyAreDue : Obligations.TimersActWhenTheyAreDue := by
  intro s t live tables queues v cur
  refine ⟨fun k low => ?_, fun d hd => ?_, fun d hd h held plain silent room => ?_, fun c hc tier ht n hn sorted => ?_⟩
  · intro x moving ends
    have entry : SessIs k x (s.at t) := ⟨tables, rfl⟩
    have deadline : exec (.deadlineExpire t (.sess k)) s = .next (((s.at t).lateRun k).lateInRing k) := (execDeadlineExpire.eq_1 t (.sess k) s).trans (run_wf _ (decide_eq_true low) live)
    obtain ⟨park, deep, slate, far⟩ := ttl_timers (t := t) live low
    refine ⟨fun off => ?_, fun free room fresh => ⟨fun rest => ?_, fun st => ?_, fun st zero => ?_, fun st some open' => ?_⟩, fun free st open' => ?_, fun idle => ?_, fun r run serving late idle open' inTime => ?_,
      fun r run st spent idle open' => ?_, fun r p run serving waits due past idle open' => ?_, fun r run gen st every due open' => ?_⟩
    · obtain ⟨e1, e2, e3, e4⟩ := timers_off (s := s.at t) off
      rw [e1] at park
      rw [e2] at deep
      rw [e3] at slate
      rw [e4] at far
      exact ⟨park, deep, slate, far⟩
    · exact ⟨_, park, parkDue_core entry free room fresh rest⟩
    · exact ⟨_, deep, deepDue_core entry free room fresh st⟩
    · exact ⟨_, slate, slateDue_core entry free room fresh st zero⟩
    · exact ⟨_, slate, slateDue_deletes entry queues free room st some open'⟩
    · exact ⟨_, far, farDue_records entry queues free st open'⟩
    · rw [lateRun_idle entry idle] at deadline
      have left := (lateInRing_is entry).2
      exact ⟨_, deadline, by rw [left]; rfl, by rw [left]; rfl, by rw [left]; rfl⟩
    · exact ⟨_, deadline, (deadline_ends entry queues run serving late idle open' inTime).ends⟩
    · obtain ⟨u, e, h⟩ := budgetGrace_ends (t := t) live low entry queues run st spent idle open'
      exact ⟨u, e, h.ends⟩
    · exact ⟨_, (execAllocGraceExpire.eq_1 t k s).trans (run_wf _ (decide_eq_true low) live), (allocGrace_ends entry queues run serving waits due past idle open').ends⟩
    · exact stream_records live low entry queues run gen st every due open'
  · exact ⟨_, (execDeadlineExpire.eq_1 t (.dom d) s).trans (run_wf _ (decide_eq_true hd) live), lateInDring_tbl (s.at t) d⟩
  · exact ⟨_, (execCompletionRecordRelease.eq_1 t d s).trans (run_wf _ (decide_eq_true hd) live), (release_writes (s := s.at t) queues held plain silent room).2⟩
  · have lease := lease_runs (s := s) (t := t) live hc ht hn
    have passes := frameTest_runs (s := s) (t := t) (bad := []) live hc ht hn (by simp) (.inl rfl)
    refine ⟨fun leased => ?_, fun other => ?_, fun test => ?_, fun test deep b small => ?_, fun other => ?_⟩
    · rw [if_pos leased] at lease
      exact ⟨_, lease, frame_setFrame (s := s.at t) sorted _ _ _ _, frame_op (T := [.tm]) rfl fun h hs => h.tm rfl _ _ hs⟩
    · rw [if_neg other] at lease
      exact lease
    · rw [if_neg (by simpa using test), if_pos rfl] at passes
      exact ⟨_, passes, frame_setFrame (s := s.at t) sorted _ _ _ _, frame_op (T := [.tm]) rfl fun h hs => h.tm rfl _ _ hs⟩
    · have fails := frameTest_runs (s := s) (t := t) (bad := [b]) live hc ht hn (by simpa using small) (.inr deep)
      rw [if_neg (by simpa using test), if_neg (by simp)] at fails
      exact ⟨_, fails, frameTest_retires (s := s.at t) sorted _ _ _ _ _ _⟩
    · rw [if_pos other] at passes
      exact passes

end Sys2Proof.Machine
end

section
/-! SUPPORT. Proofs of the sessions chapter's statements: QUERY and CLOSE, and what a move, a revival, a closing and a tokenising leave. -/

namespace Sys2Proof.Machine

open Sys2Proof

/-! ## What a completion record leaves beside its queue -/

/-- P does not mind what a completion queue holds. -/
def CqOk (P : State → Prop) : Prop := ∀ (s : State) (d : Nat) (q : CQ), P s → P (s.setCq d q)

/-- The changes that posting a record is made of, beside its queue. -/
def recordMoves : List Prim := [.out, .ctr, .notify, .sl, .ev]

section
variable {P : State → Prop} (st : Stable recordMoves P) (hc : CqOk P)
include st hc

theorem holdRec_by {s : State} (d : Nat) (r : Rec) (a b : Bool) (n : Option Nat) (h : P s) : P (s.holdRec d r a b n) :=
  State.hubRose_keeps (st.mono rfl) _ _ _ (hc _ _ _ h)

theorem postNotif_by {s : State} (d : Nat) (r : Rec) (h : P s) : P (s.postNotif d r) := by
  unfold State.postNotif State.sendNotif
  dsimp only
  split
  · exact h
  · split
    · split
      · exact st.ev rfl _ _ _ _ _ _ _ (st.ev rfl _ _ _ _ _ _ _ (State.txSend_keeps (st.mono rfl) _ _ _ h))
      · exact State.txFlush_keeps (st.mono rfl) _ _ _ (hc _ _ _ h)
    · exact holdRec_by st hc _ _ _ _ _ h

theorem record_by {s : State} (d a b c e f g i : Nat) (w : Bool) (n : Option Nat) (h : P s) : P (s.record d a b c e f g i w n) := by
  unfold State.record State.postRec
  dsimp only
  split
  · exact when_keeps (P := P) (fun u hu => postNotif_by st hc _ _ hu) (State.txWrite_keeps (st.mono rfl) _ _ _ _ _ _ (hc _ _ _ h))
  · exact holdRec_by st hc _ _ _ _ _ h

theorem endDesc_by {s : State} (q : QDesc) (a b c f : Nat) (h : P s) : P (s.endDesc q a b c f) := by
  unfold State.endDesc
  dsimp only
  exact st.ev rfl _ _ _ _ _ _ _ (when_keeps (P := P) (fun u hu => st.ctr rfl _ _ _ _ _ rfl hu) (when_keeps (P := P) (fun u hu => st.ev rfl _ _ _ _ _ _ _ (st.ctr rfl _ _ _ _ _ rfl hu)) (record_by st hc _ _ _ _ _ _ _ _ _ _ h)))

theorem endRun_by (hs : ∀ (s : State) (k : Nat) (x : Sess), P s → P (s.setSess k x)) {s : State} (k a b c : Nat) (h : P s) : P (s.endRun k a b c) := by
  unfold State.endRun
  dsimp only
  split
  · exact h
  · exact endDesc_by st hc _ _ _ _ _ (hs _ _ _ h)

end

/-! ## Pages that are given up -/

section
variable {P : State → Prop} (st : Stable pageMoves P) (hp : PageOk P)
include st hp

theorem freeAll_by {s : State} (k : Nat) (h : P s) : P (s.freeAll k) := by
  unfold State.freeAll
  dsimp only
  exact each_keeps (P := P) (fun e u hu => State.invalidate_keeps (st.mono rfl) _ _ _ (State.freeHome_keeps (st.mono rfl) _ _ _ hu))
    (each_keeps (P := P) (fun e u hu => State.freeFrame_keeps (st.mono rfl) _ _ _ _ _ hu) (each_keeps (P := P) (fun m u hu => State.failMove_by st hp m hu) h))

theorem releaseHeld_by {s : State} (k : Nat) (h : P s) : P (s.releaseHeld k) := by
  unfold State.releaseHeld
  exact each_keeps (P := P) (fun e u hu => hp.page (State.freeHome_keeps (st.mono rfl) _ _ _ hu) _ _ _) h

theorem condense_by {s : State} (k : Nat) (h : P s) : OkP P (s.condense k) := by
  unfold State.condense
  dsimp only
  exact OkP.mk (hp _ _ _ rfl (each_keeps (P := P) (fun e u hu => State.invalidate_keeps (st.mono rfl) _ _ _ (State.freeHome_keeps (st.mono rfl) _ _ _ hu)) h))

end

/-- The command that runs in a session shows in its core. -/
theorem run_of_core {x y : Sess} {r : Run} (h : y.core = x.core) (run : x.run = some r) : ∃ r', y.run = some r' ∧ r'.q = r.q := by
  have e : y.run.map (fun a => { a with moved := 0 }) = x.run.map (fun a => { a with moved := 0 }) := (congrArg Sess.run h :)
  rw [run] at e
  cases hy : y.run with
  | none => rw [hy] at e; cases e
  | some r' =>
    rw [hy] at e
    exact ⟨r', rfl, (congrArg Run.q (Option.some.inj e) :)⟩

theorem slot_of_core {x y : Sess} (h : x.core = y.core) : x.gen = y.gen ∧ x.tail = y.tail ∧ x.imm = y.imm ∧ x.generated = y.generated :=
  ⟨(congrArg Sess.gen h :), (congrArg Sess.tail h :), (congrArg Sess.imm h :), (congrArg Sess.generated h :)⟩

/-! ## A slot that returns to FREE -/

/-- A slot's generation depends on its entry, on its channel's starts and on the channel's seals. -/
theorem genOf_of {s u : State} {k : Nat} (gen : (u.sess k).gen = (s.sess k).gen) (nv : u.nvRest = s.nvRest) (bumps : u.ss.bumps = s.ss.bumps) : u.genOf k = s.genOf k := by
  have starts : u.nv.starts = s.nv.starts := (congrArg NV.starts nv :)
  unfold State.genOf State.startsOf
  rw [gen, starts, bumps]

/-- Slot k, whose entry was x, is FREE in u (R140, R145). -/
def State.Freed (s : State) (k : Nat) (x : Sess) (u : State) : Prop := u.sess k = { gen := genNext (s.genOf k), head := (x.head + x.ring.length) % 65536, tail := x.tail }

theorem freeSlotOf_frees {s w : State} {k : Nat} {x : Sess} (flags : Nat) (core : CoreIs k x.core w) (gen : w.genOf k = s.genOf k) (ring : x.ring = []) (imm : x.imm = []) :
    s.Freed k x (w.freeSlotOf k flags) ∧ (w.freeSlotOf k flags).ss.cq = w.ss.cq := by
  obtain ⟨ring', -, head, -⟩ := kept_of_core core.2
  obtain ⟨-, tail, imm', -⟩ := slot_of_core core.2
  unfold State.freeSlotOf
  dsimp only
  rw [ring', imm', ring, imm, gen, head, tail]
  have set := (core.is.set { gen := genNext (s.genOf k), head := (x.head + 0) % 65536, tail := x.tail }).ev 0x081 (some (chOf k)) 1 0 (some (w.sess k).dom) none
  unfold State.Freed
  rw [ring]
  exact ⟨set.2, ev_cq _ _ _ _ _ _ _⟩

/-- A command of a session has completed in u. -/
def State.Posted (s : State) (q : QDesc) (status n : Nat) (u : State) : Prop := ∃ w : State, w.ss.cq = s.ss.cq ∧ w.posts q.dom (Rec.completes q status n) u

theorem State.Posted.of {s u w : State} {q : QDesc} {a n : Nat} (h : s.Posted q a n u) (e : w.ss.cq = u.ss.cq) : s.Posted q a n w := by
  obtain ⟨v, cq, record⟩ := h
  exact ⟨v, cq, record.to e⟩

theorem State.Posted.from {s v u : State} {q : QDesc} {a n : Nat} (h : v.Posted q a n u) (e : v.ss.cq = s.ss.cq) : s.Posted q a n u := by
  obtain ⟨w, cq, record⟩ := h
  exact ⟨w, cq.trans e, record⟩

theorem endRun_posted {w : State} {k : Nat} {y : Sess} {r : Run} (h : SessIs k y w) (run : ∃ r', y.run = some r' ∧ r'.q = r.q) (order : Tbl.sorted w.ss.cq) (room : w.stalled r.q.dom = false) (a b c : Nat) :
    SessIs k y.ended (w.endRun k a b c) ∧ w.Posted r.q a b (w.endRun k a b c) := by
  obtain ⟨r', own, same⟩ := run
  rw [← same]
  obtain ⟨entry, record⟩ := endRun_is h own order (same ▸ room) a b c
  exact ⟨entry, w, rfl, record⟩

/-! ## Closing and leaving (R145, R204) -/

/-- Ending a session's running command leaves its generation, and what its entry has beside the command. -/
theorem endRun_slot {s : State} {k : Nat} {x : Sess} (entry : SessIs k x s) (a b c : Nat) : SessIs k (if x.run = none then x else x.ended) (s.endRun k a b c) ∧ (s.endRun k a b c).genOf k = s.genOf k := by
  have nv : (s.endRun k a b c).nvRest = s.nvRest := State.endRun_keeps (P := fun u => u.nvRest = s.nvRest) (frame_nvRest rfl s) s _ _ _ _ rfl
  have bumps : (s.endRun k a b c).ss.bumps = s.ss.bumps := endRun_by (P := fun u => u.ss.bumps = s.ss.bumps) (ss_stable rfl fun z => z.bumps = s.ss.bumps) (fun _ _ _ h => h) (fun _ _ _ h => h) k a b c rfl
  have after : SessIs k (if x.run = none then x else x.ended) (s.endRun k a b c) := by
    unfold State.endRun
    dsimp only
    rw [entry.2]
    cases run : x.run with
    | none => exact entry
    | some r => exact (entry.set x.ended).endDesc _ _ _ _ _
  refine ⟨after, genOf_of ?_ nv bumps⟩
  rw [after.2, entry.2]
  split <;> rfl

/-- Giving up all of a session's pages leaves the core of its entry, its generation and the queues. -/
theorem freeAll_slot {s : State} {k : Nat} {x : Sess} (entry : SessIs k x s) : CoreIs k x.core (s.freeAll k) ∧ (s.freeAll k).genOf k = s.genOf k ∧ (s.freeAll k).ss.cq = s.ss.cq := by
  have core := freeAll_by (CoreIs.stable rfl k x.core) (CoreIs.pageOk k x.core) k entry.core
  have bumps : (s.freeAll k).ss.bumps = s.ss.bumps := freeAll_by (ss_stable rfl fun z => z.bumps = s.ss.bumps) (fun _ _ _ _ h => h) k rfl
  have nv : (s.freeAll k).nvRest = s.nvRest := State.freeAll_keeps (P := fun u => u.nvRest = s.nvRest) (frame_nvRest rfl s) s k rfl
  refine ⟨core, genOf_of ?_ nv bumps, freeAll_by (ss_stable rfl fun z => z.cq = s.ss.cq) (cq_pageOk _) k rfl⟩
  rw [entry.2]
  exact (slot_of_core core.2).1

theorem finishClose_frees {s : State} {k : Nat} {x : Sess} (entry : SessIs k x s) (order : Tbl.sorted s.ss.cq) (ring : x.ring = []) (imm : x.imm = []) :
    s.Freed k x (s.finishClose k) ∧ ∀ r, x.run = some r → s.stalled r.q.dom = false → s.Posted r.q stDone r.moved (s.finishClose k) := by
  obtain ⟨core, gen, cq⟩ := freeAll_slot entry
  unfold State.finishClose
  dsimp only
  rw [entry.2]
  generalize s.freeAll k = w at *
  cases run : x.run with
  | none => exact ⟨(freeSlotOf_frees 0 core gen ring imm).1, fun r h => nomatch h⟩
  | some r =>
    dsimp only
    obtain ⟨own, gen'⟩ := endRun_slot core.is stDone r.moved 0
    obtain ⟨ring', -, head, -⟩ := kept_of_core core.2
    obtain ⟨slot, tail, imm', -⟩ := slot_of_core core.2
    obtain ⟨r', runs, -⟩ := run_of_core core.2 run
    rw [if_neg (by simp [runs])] at own
    have freed := freeSlotOf_frees (s := w) 0 own.core gen' (ring'.trans ring) (imm'.trans imm)
    obtain ⟨freed, same⟩ := freed
    refine ⟨?_, fun r2 h room => ?_⟩
    · unfold State.Freed at freed ⊢
      rw [freed, gen]
      show ({ gen := _, head := ((w.sess k).head + (w.sess k).ring.length) % 65536, tail := (w.sess k).tail } : Sess) = _
      rw [head, ring', tail]
    · obtain rfl := Option.some.inj h
      exact (((endRun_posted core.is (run_of_core core.2 run) (cq ▸ order) ((stalled_of_cq cq _).trans room) stDone r.moved 0).2.from cq)).of same

/-! ## Whole-session moves and revivals that are complete (R145, R192, R202) -/

/-- The running command r of slot k's session, whose entry was x, has ended in u with DONE, and the session is in state st with the next version. -/
def State.Arrived (s : State) (k : Nat) (x : Sess) (r : Run) (st : SSt) (u : State) : Prop :=
  (u.sess k).st = st ∧ (u.sess k).run = none ∧ (u.sess k).sver = (x.sver + 1) % 2 ^ 32 ∧ (u.sess k).ring = x.ring ∧ (u.sess k).length = x.length ∧ (u.sess k).tokens = x.tokens ∧ ∃ n, s.Posted r.q stDone n u

theorem State.Arrived.of {s u w : State} {k : Nat} {x : Sess} {r : Run} {st : SSt} (h : s.Arrived k x r st u) (e : w.ss = u.ss) : s.Arrived k x r st w := by
  have own : w.sess k = u.sess k := State.sess_of_tbl (congrArg Sessions.tbl e) k
  obtain ⟨state, none, sver, ring, length, tokens, n, posted⟩ := h
  unfold State.Arrived
  rw [own]
  exact ⟨state, none, sver, ring, length, tokens, n, posted.of (congrArg Sessions.cq e)⟩

/-- A session in that state with the next version ends its command. -/
theorem endRun_arrives {s w : State} {k : Nat} {x y : Sess} {r : Run} {st : SSt} (h : SessIs k y w) (state : y.st = st) (sver : y.sver = (x.sver + 1) % 2 ^ 32) (ring : y.ring = x.ring) (length : y.length = x.length)
    (tokens : y.tokens = x.tokens) (run : ∃ r', y.run = some r' ∧ r'.q = r.q) (cq : w.ss.cq = s.ss.cq) (order : Tbl.sorted s.ss.cq) (room : s.stalled r.q.dom = false) (n : Nat) :
    s.Arrived k x r st (w.endRun k stDone n 0) := by
  obtain ⟨own, posted⟩ := endRun_posted h run (cq ▸ order) ((stalled_of_cq cq _).trans room) stDone n 0
  unfold State.Arrived
  rw [own.2]
  exact ⟨state, rfl, sver, ring, length, tokens, n, posted.from cq⟩

/-- The session of slot k enters a parked state, with a time to live, and its command completes. -/
theorem parked_arrives {s w : State} {k : Nat} {x : Sess} {r : Run} (core : CoreIs k ({ x with sver := (x.sver + 1) % 2 ^ 32 } : Sess).core w) (cq : w.ss.cq = s.ss.cq) (run : x.run = some r) (order : Tbl.sorted s.ss.cq)
    (room : s.stalled r.q.dom = false) (st : SSt) (ttl : State → Nat) (src h n : Nat) (d : Option Nat) (j : Option Nat) :
    let u := w.toState k st
    let v := u.setSess k { u.sess k with ttl := ttl u }
    s.Arrived k x r st ((v.ev src (some (chOf k)) 1 h d j).endRun k stDone n 0) := by
  intro u v
  have state := toState_is core.is st
  have set := (state.set { u.sess k with ttl := ttl u }).ev src (some (chOf k)) 1 h d j
  obtain ⟨ring, -, -, length, tokens, sver, -⟩ := kept_of_core core.2
  have runs := run_of_core core.2 run
  refine endRun_arrives set ?_ ?_ ?_ ?_ ?_ ?_ ((ev_cq _ _ _ _ _ _ _).trans ((toState_cq w k st).trans cq)) order room n
  all_goals rw [state.2]
  exacts [sver, ring, length, tokens, runs]

/-- A move that arrives, by the tier it goes to (R196, R197, R200). -/
theorem finishMove_arrives {s : State} {k : Nat} {x : Sess} {r : Run} (entry : SessIs k x s) (run : x.run = some r) (order : Tbl.sorted s.ss.cq) (room : s.stalled r.q.dom = false) (whole : x.lost = false) :
    (x.target = 0 → s.Arrived k x r .parkedDeep (s.finishMove k)) ∧ (x.target = 1 → s.Arrived k x r .condensed (s.finishMove k)) ∧ (x.target = 2 → s.Arrived k x r .parkedFar (s.finishMove k)) := by
  have up := entry.set { x with sver := (x.sver + 1) % 2 ^ 32, reserved := false }
  unfold State.finishMove
  dsimp only
  rw [entry.2, if_neg (by rw [whole]; decide)]
  refine ⟨fun target => ?_, fun target => ?_, fun target => ?_⟩
  · rw [if_pos target]
    exact parked_arrives up.core rfl run order room .parkedDeep (fun u => u.pk.current + u.reg Dict.dtierDeepTtl 0 x.dom) _ _ _ _ _
  · rw [if_neg (by omega), if_pos target]
    have core := condense_by (CoreIs.stable rfl k _) (CoreIs.pageOk k _) k up.core
    have cq := condense_by (ss_stable rfl fun z => z.cq = s.ss.cq) (cq_pageOk _) (s := s.setSess k { x with sver := (x.sver + 1) % 2 ^ 32, reserved := false }) k rfl
    exact parked_arrives core cq run order room .condensed (fun u => u.ttlFor x.dom Dict.dtierSlateTtl) _ _ _ _ _
  · rw [if_neg (by omega), if_neg (by omega), if_pos target]
    exact parked_arrives up.core rfl run order room .parkedFar (fun u => u.ttlFor x.dom Dict.dtierFarTtl) _ _ _ _ _

/-- An EXPORT whose record is placed frees its slot (R204). -/
theorem finishMove_leaves {s : State} {k : Nat} {x : Sess} {r : Run} (entry : SessIs k x s) (run : x.run = some r) (order : Tbl.sorted s.ss.cq) (room : s.stalled r.q.dom = false) (whole : x.lost = false) (target : x.target = 3)
    (placed : x.xst = 3) (ring : x.ring = []) (imm : x.imm = []) : s.Freed k x (s.finishMove k) ∧ s.Posted r.q stDone 0 (s.finishMove k) := by
  have e : s.finishMove k = ((s.endRun k stDone 0 ((1 + s.exportFrames k r.q.d.count x.policy) * frameBytes)).freeAll k).freeSlotOf k flStale := by
    unfold State.finishMove
    dsimp only
    rw [entry.2, if_neg (by rw [whole]; decide), if_neg (by omega), if_neg (by omega), if_neg (by omega), if_neg (by omega), run]
  rw [e]
  obtain ⟨-, posted⟩ := endRun_posted entry ⟨r, run, rfl⟩ order room stDone 0 ((1 + s.exportFrames k r.q.d.count x.policy) * frameBytes)
  obtain ⟨ended, gen⟩ := endRun_slot entry stDone 0 ((1 + s.exportFrames k r.q.d.count x.policy) * frameBytes)
  generalize s.endRun k stDone 0 ((1 + s.exportFrames k r.q.d.count x.policy) * frameBytes) = w at *
  rw [if_neg (by simp [run])] at ended
  obtain ⟨core, gen', cq⟩ := freeAll_slot ended
  obtain ⟨freed, same⟩ := freeSlotOf_frees (s := s) flStale core (gen'.trans gen) ring imm
  exact ⟨freed, (posted.of cq).of same⟩

/-- A whole-session move that has lost a page halts its session (R145, R192). -/
theorem failSession_halts {s : State} {k : Nat} {x : Sess} {r : Run} (entry : SessIs k x s) (run : x.run = some r) (order : Tbl.sorted s.ss.cq) (room : s.stalled r.q.dom = false) (still : ∀ m ∈ s.tm.moves, m.k ≠ k)
    (prior : x.prior ≠ .free) (plain : x.revivePend = false) : let u := s.failSession k stPageLost
    (u.sess k).st = .halted ∧ (u.sess k).run = none ∧ s.Posted r.q stPageLost 0 u := by
  intro u
  have e : u = ((s.releaseHeld k).toState k .halted).endRun k stPageLost 0 0 := by
    have none : (s.tm.moves.filter fun m => m.k == k) = [] := List.filter_eq_nil_iff.mpr fun m hm => by simpa using still m hm
    show s.failSession k stPageLost = _
    unfold State.failSession
    dsimp only
    rw [none, entry.2, if_neg prior, plain]
    rfl
  have core := releaseHeld_by (CoreIs.stable rfl k _) (CoreIs.pageOk k _) k entry.core
  have cq : (s.releaseHeld k).ss.cq = s.ss.cq := releaseHeld_by (ss_stable rfl fun z => z.cq = s.ss.cq) (cq_pageOk _) k rfl
  have halted := toState_is core.is .halted
  have cq' := (toState_cq (s.releaseHeld k) k .halted).trans cq
  have runs := run_of_core core.2 run
  obtain ⟨own, posted⟩ := endRun_posted halted runs (cq' ▸ order) ((stalled_of_cq cq' _).trans room) stPageLost 0 0
  rw [e, own.2]
  exact ⟨rfl, rfl, posted.from cq'⟩

/-- A revival that is complete (R202). -/
theorem finishRevival_rests {s : State} {k : Nat} {x : Sess} (entry : SessIs k x s) (order : Tbl.sorted s.ss.cq) (whole : x.lost = false) :
    (∀ r, x.run = some r → s.stalled r.q.dom = false → s.Arrived k x r x.rest (s.finishRevival k)) ∧
    (x.run = none → let u := s.finishRevival k
      (u.sess k).st = x.rest ∧ (u.sess k).revivePend = false ∧ (u.sess k).ring = x.ring ∧ (u.sess k).sver = (x.sver + 1) % 2 ^ 32 ∧ u.ss.cq = s.ss.cq) := by
  have rests := toRest_is (entry.set { x with sver := (x.sver + 1) % 2 ^ 32, reserved := false, slate := false, revivePend := false })
  have cq := toRest_cq (s.setSess k { x with sver := (x.sver + 1) % 2 ^ 32, reserved := false, slate := false, revivePend := false }) k
  unfold State.finishRevival
  dsimp only
  rw [entry.2, if_neg (by rw [whole]; decide)]
  generalize (s.setSess k { x with sver := (x.sver + 1) % 2 ^ 32, reserved := false, slate := false, revivePend := false }).toRest k = w at *
  generalize (s.setSess k { x with sver := (x.sver + 1) % 2 ^ 32, reserved := false, slate := false, revivePend := false }).handle k = h
  have own := rests.ev 0x04E (some (chOf k)) 1 h (some x.dom) (some h)
  have same := (ev_cq w 0x04E (some (chOf k)) 1 h (some x.dom) (some h)).trans cq
  generalize w.ev 0x04E (some (chOf k)) 1 h (some x.dom) (some h) = v at *
  refine ⟨fun r run room => endRun_arrives own rfl rfl rfl rfl rfl ⟨r, run, rfl⟩ same order room _, fun none => ?_⟩
  have e : ∀ n, v.endRun k stDone n 0 = v := fun n => by
    unfold State.endRun
    dsimp only
    rw [own.2, none]
  rw [e, own.2]
  exact ⟨rfl, rfl, rfl, rfl, same⟩

/-! ## Immediate commands (R148, R153) -/

theorem handlesOk_setSess (s : State) (k : Nat) (x : Sess) (j d : Nat) (q : QDesc) : (s.setSess k x).handlesOk j d q = s.handlesOk j d q := handlesOk_tx (z := s.setSess k x) (s := s) rfl

/-- q is the first immediate command of slot k, and passes the checks that QUERY and CLOSE share (R148). -/
structure State.Immediate (s : State) (k op : Nat) (q : QDesc) (rest : List QDesc) : Prop where
  imm : (s.sess k).imm = q :: rest
  opcode : q.d.opcode = op
  idle : s.inStep k = false
  room : s.stalled q.dom = false
  held : s.sv.held = false
  known : s.handlesOk k q.dom q = true
  zero : q.d.count = 0
  used : (s.sess k).st ≠ .free

theorem State.Immediate.at {s : State} {k op : Nat} {q : QDesc} {rest : List QDesc} (h : s.Immediate k op q rest) (t : Nat) : (s.at t).Immediate k op q rest :=
  ⟨h.imm, h.opcode, h.idle, h.room, h.held, (handlesOk_tx (z := s.at t) (s := s) rfl).trans h.known, h.zero, h.used⟩

/-- An immediate command that passes the common checks runs its body. -/
theorem takeImm_goes {s : State} {k op : Nat} {q : QDesc} {rest : List QDesc} (h : s.Immediate k op q rest) (go : QDesc → State → State) : s.takeImm k op go = go q (s.touchEntry k) := by
  unfold State.takeImm
  dsimp only
  rw [h.imm]
  dsimp only
  rw [if_neg (by simp [h.opcode, h.idle, h.room, h.held]), if_neg (by simp [h.known, h.zero, h.used])]

/-- Where a descriptor's output goes depends on the settings and on the flows (R149). -/
theorem ref_of {s v : State} (sl : v.sl = s.sl) (settings : s.sameSettings v) (d a n : Nat) (b : Bool) : v.ref d a n b = s.ref d a n b := by
  have ready : ∀ f, v.flowReady f = s.flowReady f := fun f => by
    unfold State.flowReady State.flow
    rw [sl]
  unfold State.ref State.ioFlow
  simp only [ready, settings Dict.dslaiskOutputBytes (by decide +kernel) (by decide), settings Dict.dslaiskInputBytes (by decide +kernel) (by decide), settings Dict.dslaiskOutputKey (by decide +kernel) (by decide),
    settings Dict.dslaiskInputKey (by decide +kernel) (by decide), settings Dict.dslaiskOutputBase (by decide +kernel) (by decide), settings Dict.dslaiskInputBase (by decide +kernel) (by decide),
    settings Dict.dslaiskIoFlow (by decide +kernel) (by decide), settings Dict.dtierFarFrames (by decide +kernel) (by decide), settings Dict.dtierFarFlow (by decide +kernel) (by decide),
    settings Dict.dtierFarKey (by decide +kernel) (by decide), settings Dict.dtierFarBase (by decide +kernel) (by decide)]

theorem touchEntry_ref (s : State) (k d a n : Nat) (b : Bool) : (s.touchEntry k).ref d a n b = s.ref d a n b :=
  ref_of (State.touchEntry_keeps (P := fun u => u.sl = s.sl) (frame_sl rfl s) s k rfl) (State.touchEntry_keeps (frame_settings rfl s) s k fun _ _ _ _ _ => rfl) d a n b

theorem touchEntry_pinFull (s : State) (k j : Nat) : (s.touchEntry k).pinFull j = s.pinFull j := by
  have limit := State.touchEntry_keeps (frame_settings rfl s) s k (fun _ _ _ _ _ => rfl) Dict.sessPinLimit (by decide +kernel) (by decide) 0 (chOf j)
  unfold State.pinFull State.pinned
  rw [limit, State.sess_of_tbl (State.touchEntry_tbl s k), State.touchEntry_tbl]

/-- The body of QUERY, once its output has a place. -/
def State.answerQuery (s : State) (k : Nat) (q : QDesc) : State :=
  let data := (s.queryBytes k).take q.d.dataLen
  let u := ((s.setSess k { s.sess k with imm := (s.sess k).imm.drop 1 }).bound k q.dom q).output q.dom q.d.dataRef q.d.dataLen 0 data
  u.endDesc q stDone (u.sess k).length data.length 0

theorem answerQuery_is {s : State} {k : Nat} {x : Sess} {q : QDesc} {rest : List QDesc} (entry : SessIs k x s) (imm : x.imm = q :: rest) (known : s.handlesOk k q.dom q = true) (order : Tbl.sorted s.ss.cq)
    (room : s.stalled q.dom = false) : (s.answerQuery k q).sess k = { x with imm := rest }.bind q ∧ s.Posted q stDone x.length (s.answerQuery k q) := by
  unfold State.answerQuery
  dsimp only
  rw [entry.2, imm]
  have left := entry.set { x with imm := (q :: rest).drop 1 }
  have bound := bound_is left ((handlesOk_setSess _ _ _ _ _ _).trans known)
  have cq := (bound_cq (s.setSess k { x with imm := (q :: rest).drop 1 }) k q.dom q).trans (setSess_cq _ _ _)
  generalize (s.setSess k { x with imm := (q :: rest).drop 1 }).bound k q.dom q = w at *
  generalize List.take q.d.dataLen (s.queryBytes k) = data
  have same := output_ss w q.dom q.d.dataRef q.d.dataLen 0 data none
  have out := bound.of (congrArg Sessions.tbl same)
  have cq' := (congrArg Sessions.cq same).trans cq
  generalize w.output q.dom q.d.dataRef q.d.dataLen 0 data = v at *
  refine ⟨(out.endDesc _ _ _ _ _).2, v, cq', ?_⟩
  have length : (v.sess k).length = x.length := by rw [out.2]; exact (bind_origin _ q).2.2
  rw [length]
  exact endDesc_posts (cq' ▸ order) ((stalled_of_cq cq' _).trans room) _ _ _ _

/-- A command that runs when its session is closed ends early. -/
theorem endEarly_is {s : State} {k : Nat} {x : Sess} (entry : SessIs k x s) (status : Nat) : ∃ y, SessIs k y (s.endEarly k status) ∧ y.ring = x.ring ∧ y.imm = x.imm ∧ y.length = x.length ∧ y.tokens = x.tokens ∧
    ∀ r, x.run = some r → Tbl.sorted s.ss.cq → s.stalled r.q.dom = false → ∃ n, s.Posted r.q status n (s.endEarly k status) := by
  unfold State.endEarly
  dsimp only
  cases run : x.run with
  | none =>
    have e : s.flushHeld k = s := by
      unfold State.flushHeld
      dsimp only
      rw [entry.2, run]
    rw [e]
    have own := (endRun_slot entry status (s.sess k).doneSoFar (s.sess k).outLen).1
    rw [if_pos run] at own
    exact ⟨x, own, rfl, rfl, rfl, rfl, fun r h => nomatch h⟩
  | some r =>
    obtain ⟨⟨c, flushed⟩, cq⟩ := flushHeld_is entry run
    generalize s.flushHeld k = v at *
    have own := (endRun_slot flushed status (v.sess k).doneSoFar (v.sess k).outLen).1
    rw [if_neg (by simp [run])] at own
    refine ⟨_, own, rfl, rfl, rfl, rfl, fun r' h order room => ?_⟩
    obtain rfl := Option.some.inj h
    exact ⟨_, (endRun_posted flushed ⟨r, run, rfl⟩ (cq ▸ order) ((stalled_of_cq cq _).trans room) status _ _).2.from cq⟩

/-- What CLOSE does once the running command has ended: the ring is emptied, and the session enters CLOSING. -/
def State.closeOff (s : State) (k : Nat) (q : QDesc) : State :=
  let x := s.sess k
  let s := s.setSess k { x with ring := [], head := (x.head + x.ring.length) % 65536 }
  let s := s.each ((List.range x.ring.length).zip x.ring) fun e s => s.endDesc e.2 (if x.revivePend && e.1 == 0 then stPartial else stBad) 0 0 0
  let s := (s.releaseHeld k).setSess k { (s.releaseHeld k).sess k with run := some { q := q, moved := x.pageCount }, deadline := q.d.deadline % 2 ^ 48, revivePend := false, recompute := none, xst := 0, xask := [], xio := 0 }
  s.toState k .closing

theorem beginClose_eq (s : State) (k : Nat) (q : QDesc) : s.beginClose k q = (s.endEarly k stPartial).closeOff k q := rfl

theorem closeOff_is {v : State} {k : Nat} {y : Sess} (entry : SessIs k y v) (q : QDesc) : ∃ z, SessIs k z (v.closeOff k q) ∧ z.st = .closing ∧ z.imm = y.imm ∧ z.ring = [] ∧ z.run.map (·.q) = some q ∧ z.length = y.length ∧
    z.tokens = y.tokens ∧ (y.ring = [] → (v.closeOff k q).ss.cq = v.ss.cq) := by
  have emptied := entry.set { y with ring := [], head := (y.head + y.ring.length) % 65536 }
  unfold State.closeOff
  dsimp only
  rw [entry.2]
  have cleared := each_keeps (P := SessIs k { y with ring := [], head := (y.head + y.ring.length) % 65536 }) (l := (List.range y.ring.length).zip y.ring)
    (f := fun e s => s.endDesc e.2 (if y.revivePend && e.1 == 0 then stPartial else stBad) 0 0 0) (fun e w hw => hw.endDesc _ _ _ _ _) emptied
  have quiet : y.ring = [] → (State.each (v.setSess k { y with ring := [], head := (y.head + y.ring.length) % 65536 }) ((List.range y.ring.length).zip y.ring)
      fun e s => s.endDesc e.2 (if y.revivePend && e.1 == 0 then stPartial else stBad) 0 0 0).ss.cq = v.ss.cq := fun none => by
    rw [none]
    rfl
  generalize State.each (v.setSess k { y with ring := [], head := (y.head + y.ring.length) % 65536 }) _ _ = w at *
  have core := releaseHeld_by (CoreIs.stable rfl k _) (CoreIs.pageOk k _) k cleared.core
  have cq : (w.releaseHeld k).ss.cq = w.ss.cq := releaseHeld_by (ss_stable rfl fun z => z.cq = w.ss.cq) (cq_pageOk _) k rfl
  generalize w.releaseHeld k = z at *
  obtain ⟨ring, -, -, length, tokens, -⟩ := kept_of_core core.2
  obtain ⟨-, -, imm, -⟩ := slot_of_core core.2
  exact ⟨_, toState_is (core.is.set _) .closing, rfl, imm, ring, rfl, length, tokens, fun none => (toState_cq _ _ _).trans (cq.trans (quiet none))⟩

/-- A CLOSE that begins (R145, R148). -/
theorem beginClose_is {s : State} {k : Nat} {x : Sess} (entry : SessIs k x s) (q : QDesc) : ∃ z, SessIs k z (s.beginClose k q) ∧ z.st = .closing ∧ z.imm = x.imm ∧ z.ring = [] ∧ z.run.map (·.q) = some q ∧
    z.length = x.length ∧ z.tokens = x.tokens ∧ ∀ r, x.run = some r → x.ring = [] → Tbl.sorted s.ss.cq → s.stalled r.q.dom = false → ∃ n, s.Posted r.q stPartial n (s.beginClose k q) := by
  obtain ⟨y, early, ring, imm, length, tokens, posted⟩ := endEarly_is entry stPartial
  obtain ⟨z, own, st, zimm, zring, run, zlength, ztokens, quiet⟩ := closeOff_is early q
  rw [beginClose_eq]
  refine ⟨z, own, st, zimm.trans imm, zring, run, zlength.trans length, ztokens.trans tokens, fun r runs none order room => ?_⟩
  obtain ⟨n, record⟩ := posted r runs order room
  exact ⟨n, record.of (quiet (ring.trans none))⟩

/-! ## Tokenising (R299) -/

/-- The state in which an input has been tokenised: its counts are taken and its pieces looked up. -/
def State.tokenCounted (s : State) (k n bad special : Nat) (len : Nat) (keys : List VocKey) : State :=
  let c := chOf k
  let s := ((s.inc Dict.textBytesTokenised n 0 c).evS k 0x100 (n / 1024)).inc Dict.textTokensProduced len 0 c
  let s := ((s.evS k 0x101 len).inc Dict.textInvalidUtf8Count bad 0 c).evS k 0x103 bad
  (s.evS k 0x102 special).lookVocab k keys

theorem tokenCounted_keeps {P : State → Prop} (h : Stable [.ctr, .tx, .ev] P) {s : State} (k n bad special len : Nat) (keys : List VocKey) (hs : P s) : P (s.tokenCounted k n bad special len keys) :=
  State.lookVocab_keeps h _ _ _ (State.evS_keeps (h.mono rfl) _ _ _ _ (State.evS_keeps (h.mono rfl) _ _ _ _ (h.ctr rfl _ _ _ _ _ rfl (State.evS_keeps (h.mono rfl) _ _ _ _
    (h.ctr rfl _ _ _ _ _ rfl (State.evS_keeps (h.mono rfl) _ _ _ _ (h.ctr rfl _ _ _ _ _ rfl hs)))))))

theorem evS_regs (s : State) (k a n : Nat) : (s.evS k a n).regs = s.regs := State.evS_keeps (P := fun u => u.regs = s.regs) (frame_regs rfl s) s _ _ _ rfl

theorem evS_reg (s : State) (k a n : Nat) (x : Entry) (sub i : Nat) : (s.evS k a n).reg x sub i = s.reg x sub i := by
  unfold State.reg
  rw [evS_regs]

theorem inc_reg_far {x e : Entry} (far : x.addr + Nat.max 1 x.span ≤ e.addr ∨ e.addr + Nat.max 1 e.span ≤ x.addr) (ro : x.acc = e.acc) (u : State) (n c sub i : Nat) : (u.inc e n 0 c).reg x sub i = u.reg x sub i :=
  State.setReg_other (key_far _ _ _ _ far ro)

theorem lookVocab_reg (s : State) (k : Nat) (keys : List VocKey) (i : Nat) : (s.lookVocab k keys).reg Dict.textTokensProduced 0 i = s.reg Dict.textTokensProduced 0 i := by
  unfold State.lookVocab
  exact (evS_reg _ _ _ _ _ _ _).trans ((inc_reg_far (x := Dict.textTokensProduced) (e := Dict.textCacheMissCount) (by decide) rfl _ _ _ _ _).trans ((evS_reg _ _ _ _ _ _ _).trans (inc_reg_far (x := Dict.textTokensProduced) (e := Dict.textCacheHitCount) (by decide) rfl _ _ _ _ _)))

/-- The counter of produced tokens rises by their number, and no other count of the tokenising touches it. -/
theorem tokenCounted_counts {s : State} (sorted : Tbl.sorted s.regs) (k n bad special len : Nat) (keys : List VocKey) : s.countedOn Dict.textTokensProduced (chOf k) len (s.tokenCounted k n bad special len keys) := by
  have order : Tbl.sorted ((s.inc Dict.textBytesTokenised n 0 (chOf k)).evS k 0x100 (n / 1024)).regs := by
    rw [evS_regs]
    exact Tbl.put_sorted sorted
  unfold State.countedOn State.tokenCounted
  dsimp only
  rw [lookVocab_reg, evS_reg, evS_reg, inc_reg_far (x := Dict.textTokensProduced) (e := Dict.textInvalidUtf8Count) (by decide) rfl, evS_reg]
  refine (inc_own order Dict.textTokensProduced len (chOf k)).trans ?_
  rw [evS_reg, inc_reg_far (x := Dict.textTokensProduced) (e := Dict.textBytesTokenised) (by decide) rfl]

theorem tokenising_runs {s : State} {t k i : Nat} {x : Sess} {r : Run} {vs : VSlot} (live : s.live = true) (low : k < 2 ^ 20) (entry : SessIs k x s) (run : x.run = some r) (vocab : s.vocabOf (s.model x.model) = some (i, vs))
    (prefill : x.st = .prefill) (fresh : r.tokenised = false) {ts : List (Nat × Nat)}
    (tokens : tokenise vs.v (decide (s.sreg Dict.mtextSpecialMatch 0 x.model = 1)) r.q.input = ts) :
    ∃ n bad special keys, exec (.tokenisingComplete t k) s = .next (if 1048576 < x.length + ts.length then ((s.at t).tokenCounted k n bad special ts.length keys).stopRun k stLimit
        else if ts = [] then (((s.at t).tokenCounted k n bad special ts.length keys).setSess k { x with run := some { r with tokenised := true, consumed := n } }).stopRun k stDone
        else ((s.at t).tokenCounted k n bad special ts.length keys).setSess k { x with run := some { r with toks := ts, tokenised := true } }) := by
  subst tokens
  have entry' : SessIs k x (s.at t) := entry
  have vocab' : (s.at t).vocabOf ((s.at t).model x.model) = some (i, vs) := vocab
  let special := decide (s.sreg Dict.mtextSpecialMatch 0 x.model = 1)
  refine ⟨r.q.input.length, badBytes vs.v special r.q.input, specialCount vs.v special r.q.input, tokeniseKeys vs.v i special r.q.input, (execTokenisingComplete.eq_1 t k s).trans ((run_wf (i := .tokenisingComplete t k) _ (decide_eq_true low) live).trans (congrArg Host.Outcome.next ?_))⟩
  dsimp only
  rw [entry'.2, run, vocab']
  dsimp only
  rw [if_neg (by simp [prefill, fresh])]
  rfl

/-- What a tokenising leaves (R299). -/
theorem tokenising_leaves {s v : State} {k : Nat} {x : Sess} {r : Run} (ss : v.ss = s.ss) (entry : SessIs k x s) (order : Tbl.sorted s.ss.cq) (room : s.stalled r.q.dom = false) {r' : Run} (same : r'.q = r.q)
    {a : Nat} (rests : a ≠ stDeadend ∧ a ≠ stPageLost) : (((v.setSess k { x with run := some r' }).stopRun k a).sess k).st = x.rest ∧ (((v.setSess k { x with run := some r' }).stopRun k a).sess k).run = none ∧
    ∃ n, s.Posted r.q a n ((v.setSess k { x with run := some r' }).stopRun k a) := by
  have own := (entry.of (u := v) (by rw [ss])).set { x with run := some r' }
  obtain ⟨-, st, none, -, -, w, n, cq, record⟩ := stopRun_ends own rfl (s := s) (show v.ss.cq = s.ss.cq by rw [ss]) order (by rw [same]; exact room) rests
  rw [same] at record
  exact ⟨st, none, n, w, cq, record⟩

/-! ## The commands -/

theorem when_off (s : State) (f : State → State) : s.when false f = s := rfl

theorem each_none {α : Type} (s : State) (f : α → State → State) : s.each [] f = s := rfl

section
variable {s : State} {t k : Nat} (live : s.live = true) (low : k < 2 ^ 20)
include live low

theorem query_runs {q : QDesc} {rest : List QDesc} (h : s.Immediate k 0x09 q rest) (sound : ∀ st, s.ref q.dom q.d.dataRef q.d.dataLen true ≠ .fail st) (up : s.ref q.dom q.d.dataRef q.d.dataLen true ≠ .wait) :
    exec (.query t k) s = .next (((s.at t).touchEntry k).answerQuery k q) := by
  refine (execQuery.eq_1 t k s).trans ((run_wf (i := .query t k) _ (decide_eq_true low) live).trans (congrArg Host.Outcome.next ((takeImm_goes (h.at t) _).trans ?_)))
  have place : ((s.at t).touchEntry k).ref q.dom q.d.dataRef q.d.dataLen true = s.ref q.dom q.d.dataRef q.d.dataLen true := touchEntry_ref (s.at t) k _ _ _ _
  dsimp only
  rw [place]
  generalize s.ref q.dom q.d.dataRef q.d.dataLen true = p at sound up
  cases p with
  | fail st => exact absurd rfl (sound st)
  | wait => exact absurd rfl up
  | region f key off => rfl
  | window i gen => rfl

variable (tables : Tbl.sorted s.ss.tbl)
include tables

theorem close_refused {q : QDesc} {rest : List QDesc} (h : s.Immediate k 0x0A q rest) (closing : (s.sess k).st = .closing) :
    exec (.close t k) s = .next ((((s.at t).touchEntry k).setSess k { s.sess k with imm := rest }).endDesc q stBad 0 0 0) := by
  refine (execClose.eq_1 t k s).trans ((run_wf (i := .close t k) _ (decide_eq_true low) live).trans (congrArg Host.Outcome.next ((takeImm_goes (h.at t) _).trans ?_)))
  have own : SessIs k (s.sess k) ((s.at t).touchEntry k) := SessIs.of (s := s.at t) ⟨tables, rfl⟩ (State.touchEntry_tbl _ k)
  dsimp only
  rw [own.2, if_pos closing, h.imm]
  rfl

theorem close_runs {q : QDesc} {rest : List QDesc} (h : s.Immediate k 0x0A q rest) (fresh : (s.sess k).st ≠ .closing) (still : (s.sess k).st ≠ .moving ∧ (s.sess k).st ≠ .reviving)
    (pins : s.pinFull k = false) (home : ∀ m ∈ s.dx.out, m.k ≠ k) : ∃ z : State, z.ss = ((s.at t).touchEntry k).ss ∧
    exec (.close t k) s = .next (((z.setSess k { s.sess k with imm := rest }).releaseStage k).beginClose k q) := by
  have own : SessIs k (s.sess k) ((s.at t).touchEntry k) := SessIs.of (s := s.at t) ⟨tables, rfl⟩ (State.touchEntry_tbl _ k)
  have free : ((s.at t).touchEntry k).pinFull k = false := (touchEntry_pinFull (s.at t) k k).trans pins
  have dx : ((s.at t).touchEntry k).dx = s.dx := State.touchEntry_keeps (P := fun u => u.dx = s.dx) (frame_dx rfl (s.at t)) (s.at t) k rfl
  have none : (((s.at t).touchEntry k).dx.out.filter fun m => m.k == k && decide (m.step < 3)) = [] := by
    rw [dx]
    exact List.filter_eq_nil_iff.mpr fun m hm => by simp [home m hm]
  have whole : (decide ((s.sess k).st = .moving) || decide ((s.sess k).st = .reviving)) = false := by simp [still.1, still.2]
  refine ⟨{ (s.at t).touchEntry k with pw := { ((s.at t).touchEntry k).pw with drainExp := ((s.at t).touchEntry k).pw.drainExp.filter fun e => e.1 != k } }, rfl, ?_⟩
  refine (execClose.eq_1 t k s).trans ((run_wf (i := .close t k) _ (decide_eq_true low) live).trans (congrArg Host.Outcome.next ((takeImm_goes (h.at t) _).trans ?_)))
  generalize (s.at t).touchEntry k = w at *
  have left : ({ w with pw := { w.pw with drainExp := w.pw.drainExp.filter fun e => e.1 != k } } : State).sess k = s.sess k := own.2
  dsimp only
  rw [own.2, if_neg fresh, if_neg (by rw [free]; decide), whole]
  rw [when_off, none, each_none, Bool.false_and, if_neg Bool.false_ne_true, when_off]
  rw [left, h.imm]
  rfl

end

/-- SESSION_MOVE_COMPLETE finishes a move whose pages have all been placed, or that has lost one. -/
theorem moveComplete_runs {s : State} {t k : Nat} (live : s.live = true) (low : k < 2 ^ 20) {x : Sess} (entry : s.sess k = x) (moving : x.st = .moving) (open' : x.closePend = false) (reserved : x.reserved = true)
    (still : ∀ m ∈ s.tm.moves, m.k ≠ k) (home : ∀ e ∈ s.pw.drainExp, e.1 ≠ k) (pkg : s.pw.pkg ≠ .draining) (ends : (x.target = 3 ∧ x.xst = 3) ∨ (x.target ≠ 3 ∧ (s.movePlan k = [] ∨ x.lost = true))) :
    ∃ u, exec (.sessionMoveComplete t k) s = .next u ∧ u.ss = ((s.at t).finishMove k).ss := by
  have moves : ((s.at t).tm.moves.any fun m => m.k == k) = false := List.any_eq_false.mpr fun m hm => by simpa using still m hm
  have drains : ((s.at t).pw.drainExp.find? fun e => e.1 == k) = none := List.find?_eq_none.mpr fun e he => by simpa using home e he
  have advance : ((s.at t).finishMove k).ckptAdvance.drainPump.ss = ((s.at t).finishMove k).ss := by
    have pw : ((s.at t).finishMove k).ckptAdvance.pw.rest = s.pw.rest :=
      State.ckptAdvance_keeps (P := fun u => u.pwRest = s.pwRest) (frame_pwRest rfl s) _ (State.finishMove_keeps (P := fun u => u.pwRest = s.pwRest) (frame_pwRest rfl s) (s.at t) k rfl)
    have off : ((s.at t).finishMove k).ckptAdvance.draining = false := by
      have same : ((s.at t).finishMove k).ckptAdvance.pw.pkg = s.pw.pkg := (congrArg Power.pkg pw :)
      unfold State.draining
      rw [same, decide_eq_false pkg]
      rfl
    have quiet : ∀ u : State, u.draining = false → u.drainPump = u := fun u h => by
      unfold State.drainPump
      dsimp only
      rw [h]
      simp [h]
    rw [quiet _ off]
    exact State.ckptAdvance_keeps (P := fun u => u.ss = ((s.at t).finishMove k).ss) (frame_ss rfl _) _ rfl
  refine ⟨_, (execSessionMoveComplete.eq_1 t k s).trans ((run_wf (i := .sessionMoveComplete t k) _ (decide_eq_true low) live).trans (congrArg Host.Outcome.next ?_)), advance⟩
  have entry' : (s.at t).sess k = x := entry
  have plan : (s.at t).movePlan k = s.movePlan k := rfl
  dsimp only
  rw [entry', if_pos ⟨moving, open', reserved, moves⟩, drains, plan]
  rcases ends with ⟨target, placed⟩ | ⟨target, done⟩
  · rw [if_pos target, if_neg (by omega)]
  · rw [if_neg target, if_pos done]

theorem revivalComplete_runs {s : State} {t k : Nat} (live : s.live = true) (low : k < 2 ^ 20) {x : Sess} (entry : s.sess k = x) (reviving : x.st = .reviving) (open' : x.closePend = false) (reserved : x.reserved = true)
    (filled : x.recompute = none) (idle : s.inStep k = false) (still : ∀ m ∈ s.tm.moves, m.k ≠ k) : exec (.revivalComplete t k) s = .next ((s.at t).finishRevival k) := by
  have moves : ((s.at t).tm.moves.any fun m => m.k == k) = false := List.any_eq_false.mpr fun m hm => by simpa using still m hm
  have entry' : (s.at t).sess k = x := entry
  refine (execRevivalComplete.eq_1 t k s).trans ((run_wf (i := .revivalComplete t k) _ (decide_eq_true low) live).trans (congrArg Host.Outcome.next ?_))
  dsimp only
  rw [entry']
  exact if_pos ⟨reviving, open', reserved, filled, idle, moves⟩

section
variable {s : State} {t k : Nat} (live : s.live = true) (low : k < 2 ^ 20) (tables : Tbl.sorted s.ss.tbl) (queues : Tbl.sorted s.ss.cq)
include live low

/-- What completes a session's move, revival or closing does nothing where the session is in another state. -/
theorem completions_off : ((s.sess k).st ≠ .moving → exec (.sessionMoveComplete t k) s = .next (s.at t)) ∧ ((s.sess k).st ≠ .reviving → exec (.revivalComplete t k) s = .next (s.at t)) ∧
    ((s.sess k).st ≠ .closing → exec (.closingComplete t k) s = .next (s.at t)) :=
  ⟨fun other => (execSessionMoveComplete.eq_1 t k s).trans ((run_wf (i := .sessionMoveComplete t k) _ (decide_eq_true low) live).trans (congrArg Host.Outcome.next (if_neg fun c => other c.1))),
    fun other => (execRevivalComplete.eq_1 t k s).trans ((run_wf (i := .revivalComplete t k) _ (decide_eq_true low) live).trans (congrArg Host.Outcome.next (if_neg fun c => other c.1))),
    fun other => (execClosingComplete.eq_1 t k s).trans ((run_wf (i := .closingComplete t k) _ (decide_eq_true low) live).trans (congrArg Host.Outcome.next (if_neg other)))⟩

include tables queues

theorem query_answers {q : QDesc} {rest : List QDesc} (h : s.Immediate k 0x09 q rest) (sound : ∀ st, s.ref q.dom q.d.dataRef q.d.dataLen true ≠ .fail st) (up : s.ref q.dom q.d.dataRef q.d.dataLen true ≠ .wait) :
    ∃ u, exec (.query t k) s = .next u ∧ u.sess k = { s.sess k with imm := rest }.bind q ∧ s.Posted q stDone (s.sess k).length u := by
  have touched : SessIs k (s.sess k) ((s.at t).touchEntry k) := SessIs.of (s := s.at t) ⟨tables, rfl⟩ (State.touchEntry_tbl _ k)
  have cq : ((s.at t).touchEntry k).ss.cq = s.ss.cq := touchEntry_cq (s.at t) k
  have tx : ((s.at t).touchEntry k).tx = s.tx := State.touchEntry_keeps (P := fun u => u.tx = s.tx) (frame_tx rfl (s.at t)) (s.at t) k rfl
  refine ⟨_, query_runs live low h sound up, ?_⟩
  generalize (s.at t).touchEntry k = v at *
  obtain ⟨left, record⟩ := answerQuery_is touched h.imm ((handlesOk_tx tx).trans h.known) (cq ▸ queues) ((stalled_of_cq cq _).trans h.room)
  exact ⟨left, record.from cq⟩

theorem close_answers {q : QDesc} {rest : List QDesc} (h : s.Immediate k 0x0A q rest) (closing : (s.sess k).st = .closing) :
    ∃ u, exec (.close t k) s = .next u ∧ u.sess k = { s.sess k with imm := rest } ∧ s.Posted q stBad 0 u := by
  have touched : SessIs k (s.sess k) ((s.at t).touchEntry k) := SessIs.of (s := s.at t) ⟨tables, rfl⟩ (State.touchEntry_tbl _ k)
  have cq : ((s.at t).touchEntry k).ss.cq = s.ss.cq := touchEntry_cq (s.at t) k
  refine ⟨_, close_refused live low tables h closing, ?_⟩
  generalize (s.at t).touchEntry k = v at *
  exact ⟨((touched.set { s.sess k with imm := rest }).endDesc _ _ _ _ _).2, v.setSess k { s.sess k with imm := rest }, cq,
    endDesc_posts (s := v.setSess k { s.sess k with imm := rest }) (cq ▸ queues) ((stalled_of_cq cq _).trans h.room) _ _ _ _⟩

theorem close_begins {q : QDesc} {rest : List QDesc} (h : s.Immediate k 0x0A q rest) (fresh : (s.sess k).st ≠ .closing) (still : (s.sess k).st ≠ .moving ∧ (s.sess k).st ≠ .reviving) (pins : s.pinFull k = false)
    (home : ∀ m ∈ s.dx.out, m.k ≠ k) : ∃ u, exec (.close t k) s = .next u ∧ (u.sess k).st = .closing ∧ (u.sess k).imm = rest ∧ (u.sess k).ring = [] ∧ (u.sess k).run.map (·.q) = some q ∧
      (u.sess k).length = (s.sess k).length ∧ (u.sess k).tokens = (s.sess k).tokens ∧
      ∀ r, (s.sess k).run = some r → (s.sess k).ring = [] → s.stalled r.q.dom = false → ∃ n, s.Posted r.q stPartial n u := by
  have touched : SessIs k (s.sess k) ((s.at t).touchEntry k) := SessIs.of (s := s.at t) ⟨tables, rfl⟩ (State.touchEntry_tbl _ k)
  have cq : ((s.at t).touchEntry k).ss.cq = s.ss.cq := touchEntry_cq (s.at t) k
  obtain ⟨z, same, runs⟩ := close_runs (t := t) live low tables h fresh still pins home
  refine ⟨_, runs, ?_⟩
  generalize (s.at t).touchEntry k = v at *
  obtain ⟨staged, scq⟩ := releaseStage_is ((touched.of (u := z) (by rw [same])).set { s.sess k with imm := rest })
  have zcq : ((z.setSess k { s.sess k with imm := rest }).releaseStage k).ss.cq = s.ss.cq := scq.trans ((congrArg Sessions.cq same :).trans cq)
  generalize (z.setSess k { s.sess k with imm := rest }).releaseStage k = w at *
  obtain ⟨y, own, st, imm, ring, run, length, tokens, posted⟩ := beginClose_is staged q
  rw [own.2]
  refine ⟨st, imm, ring, run, length, tokens, fun r runs none room => ?_⟩
  obtain ⟨n, record⟩ := posted r runs none (zcq ▸ queues) ((stalled_of_cq zcq _).trans room)
  exact ⟨n, record.from zcq⟩

theorem move_completes {r : Run} (moving : (s.sess k).st = .moving) (open' : (s.sess k).closePend = false) (reserved : (s.sess k).reserved = true) (still : ∀ m ∈ s.tm.moves, m.k ≠ k) (home : ∀ e ∈ s.pw.drainExp, e.1 ≠ k)
    (pkg : s.pw.pkg ≠ .draining) (run : (s.sess k).run = some r) (room : s.stalled r.q.dom = false) (whole : (s.sess k).lost = false) (plan : s.movePlan k = []) :
    let x := s.sess k
    let arrives (st : SSt) : Prop := ∃ u, exec (.sessionMoveComplete t k) s = .next u ∧ s.Arrived k x r st u
    (x.target = 0 → arrives .parkedDeep) ∧ (x.target = 1 → arrives .condensed) ∧ (x.target = 2 → arrives .parkedFar) ∧
    (x.target = 3 → x.xst = 3 → x.ring = [] → x.imm = [] → ∃ u, exec (.sessionMoveComplete t k) s = .next u ∧ s.Freed k x u ∧ s.Posted r.q stDone 0 u) := by
  intro x arrives
  have entry : SessIs k x (s.at t) := ⟨tables, rfl⟩
  have runs := fun ends => moveComplete_runs (t := t) live low (x := x) rfl moving open' reserved still home pkg ends
  obtain ⟨deep, slate, far⟩ := finishMove_arrives entry run queues room whole
  refine ⟨fun target => ?_, fun target => ?_, fun target => ?_, fun target placed ring imm => ?_⟩
  · obtain ⟨u, e, same⟩ := runs (.inr ⟨by omega, .inl plan⟩)
    exact ⟨u, e, (deep target).of same⟩
  · obtain ⟨u, e, same⟩ := runs (.inr ⟨by omega, .inl plan⟩)
    exact ⟨u, e, (slate target).of same⟩
  · obtain ⟨u, e, same⟩ := runs (.inr ⟨by omega, .inl plan⟩)
    exact ⟨u, e, (far target).of same⟩
  · obtain ⟨u, e, same⟩ := runs (.inl ⟨target, placed⟩)
    obtain ⟨freed, posted⟩ := finishMove_leaves entry run queues room whole target placed ring imm
    exact ⟨u, e, (State.sess_of_tbl (congrArg Sessions.tbl same) k).trans freed, posted.of (congrArg Sessions.cq same)⟩

theorem move_loses {r : Run} (moving : (s.sess k).st = .moving) (open' : (s.sess k).closePend = false) (reserved : (s.sess k).reserved = true) (still : ∀ m ∈ s.tm.moves, m.k ≠ k) (home : ∀ e ∈ s.pw.drainExp, e.1 ≠ k)
    (pkg : s.pw.pkg ≠ .draining) (run : (s.sess k).run = some r) (room : s.stalled r.q.dom = false) (lost : (s.sess k).lost = true) (placed : (s.sess k).target ≠ 3 ∨ (s.sess k).xst = 3) (prior : (s.sess k).prior ≠ .free)
    (plain : (s.sess k).revivePend = false) : ∃ u, exec (.sessionMoveComplete t k) s = .next u ∧ (u.sess k).st = .halted ∧ (u.sess k).run = none ∧ s.Posted r.q stPageLost 0 u := by
  have entry : SessIs k (s.sess k) (s.at t) := ⟨tables, rfl⟩
  have ends : ((s.sess k).target = 3 ∧ (s.sess k).xst = 3) ∨ ((s.sess k).target ≠ 3 ∧ (s.movePlan k = [] ∨ (s.sess k).lost = true)) := by
    by_cases target : (s.sess k).target = 3
    · exact .inl ⟨target, placed.resolve_left fun c => c target⟩
    · exact .inr ⟨target, .inr lost⟩
  obtain ⟨u, e, same⟩ := moveComplete_runs (t := t) live low rfl moving open' reserved still home pkg ends
  have fails : (s.at t).finishMove k = (s.at t).failSession k stPageLost := by
    unfold State.finishMove
    dsimp only
    rw [entry.2, if_pos lost]
  obtain ⟨st, none, posted⟩ := failSession_halts entry run queues room still prior plain
  rw [fails] at same
  have own : u.sess k = ((s.at t).failSession k stPageLost).sess k := State.sess_of_tbl (congrArg Sessions.tbl same) k
  exact ⟨u, e, (congrArg Sess.st own).trans st, (congrArg Sess.run own).trans none, posted.of (congrArg Sessions.cq same)⟩

theorem closing_completes (closing : (s.sess k).st = .closing) (ring : (s.sess k).ring = []) (imm : (s.sess k).imm = []) :
    ∃ u, exec (.closingComplete t k) s = .next u ∧ s.Freed k (s.sess k) u ∧ ∀ r, (s.sess k).run = some r → s.stalled r.q.dom = false → s.Posted r.q stDone r.moved u :=
  ⟨_, (execClosingComplete.eq_1 t k s).trans ((run_wf (i := .closingComplete t k) _ (decide_eq_true low) live).trans (congrArg Host.Outcome.next (if_pos closing))),
    finishClose_frees (s := s.at t) ⟨tables, rfl⟩ queues ring imm⟩

theorem tokenising_completes {r : Run} {i : Nat} {vs : VSlot} (run : (s.sess k).run = some r) (vocab : s.vocabOf (s.model (s.sess k).model) = some (i, vs)) (prefill : (s.sess k).st = .prefill) (fresh : r.tokenised = false) :
    let x := s.sess k
    let ts := tokenise vs.v (decide (s.sreg Dict.mtextSpecialMatch 0 x.model = 1)) r.q.input
    let stops (a : Nat) : Prop := ∃ u, exec (.tokenisingComplete t k) s = .next u ∧ (u.sess k).st = x.rest ∧ (u.sess k).run = none ∧ ∃ n, s.Posted r.q a n u
    (x.length + ts.length ≤ 1048576 → ts ≠ [] → ∃ u, exec (.tokenisingComplete t k) s = .next u ∧ u.sess k = { x with run := some { r with toks := ts, tokenised := true } } ∧
      (Tbl.sorted s.regs → s.countedOn Dict.textTokensProduced (chOf k) ts.length u)) ∧
    (1048576 < x.length + ts.length → s.stalled r.q.dom = false → stops stLimit) ∧ (x.length ≤ 1048576 → ts = [] → s.stalled r.q.dom = false → stops stDone) := by
  intro x ts stops
  have entry : SessIs k x s := ⟨tables, rfl⟩
  obtain ⟨n, bad, special, keys, runs⟩ := tokenising_runs (t := t) live low entry run vocab prefill fresh (ts := ts) rfl
  clear_value ts
  have ss := tokenCounted_keeps (P := fun u => u.ss = s.ss) (frame_ss rfl s) (s := s.at t) k n bad special ts.length keys rfl
  have counts := fun sorted => tokenCounted_counts (s := s.at t) sorted k n bad special ts.length keys
  generalize (s.at t).tokenCounted k n bad special ts.length keys = v at *
  refine ⟨fun fits some => ?_, fun long room => ?_, fun fits none room => ?_⟩
  · rw [if_neg (by omega), if_neg some] at runs
    exact ⟨_, runs, ((entry.of (u := v) (by rw [ss])).set _).2, counts⟩
  · rw [if_pos long] at runs
    obtain ⟨-, st, none, -, -, w, m, cq, record⟩ := stopRun_ends (status := stLimit) (entry.of (u := v) (by rw [ss])) run (congrArg Sessions.cq ss) queues room (by decide)
    exact ⟨_, runs, st, none, m, w, cq, record⟩
  · have length : ts.length = 0 := by rw [none]; rfl
    rw [if_neg (by omega), if_pos none] at runs
    have leaves := tokenising_leaves (r' := { r with tokenised := true, consumed := n }) (a := stDone) ss entry queues room rfl (by decide)
    exact ⟨_, runs, leaves⟩

end

/-- Settles O31: each command runs one body on its session, and what the body leaves is said by the lemma of that body. -/
theorem sessionsAnswerAndComplete : Obligations.SessionsAnswerAndComplete := by
  intro s t k live low tables queues x imm posted arrives freed
  have entry : SessIs k x (s.at t) := ⟨tables, rfl⟩
  have immediate : ∀ {op q rest}, imm op q rest → s.Immediate k op q rest := fun ⟨h1, h2, h3, h4, h5, h6, h7, h8⟩ => ⟨h1, h2, h3, h4, h5, h6, h7, h8⟩
  obtain ⟨notMoving, notReviving, notClosing⟩ := completions_off (t := t) live low
  refine ⟨fun q rest h sound up => query_answers live low tables queues (immediate h) sound up, fun q rest h closing => close_answers live low tables queues (immediate h) closing,
    fun q rest h fresh stays rests pins home => close_begins live low tables queues (immediate h) fresh ⟨stays, rests⟩ pins home,
    fun r moving open' reserved still home pkg run room => ⟨fun whole plan => move_completes live low tables queues moving open' reserved still home pkg run room whole plan,
      fun lost placed prior plain => move_loses live low tables queues moving open' reserved still home pkg run room lost placed prior plain⟩,
    notMoving, fun reviving open' reserved filled idle still whole => ?_, notReviving, fun closing ring none => closing_completes live low tables queues closing ring none, notClosing,
    fun r i vs run vocab prefill fresh => tokenising_completes live low tables queues run vocab prefill fresh⟩
  have runs := revivalComplete_runs (t := t) live low rfl reviving open' reserved filled idle still
  obtain ⟨command, alone⟩ := finishRevival_rests entry queues whole
  exact ⟨fun r run room => ⟨_, runs, command r run room⟩, fun none => ⟨_, runs, alone none⟩⟩

end Sys2Proof.Machine
end

section
/-! SUPPORT. O34 and O36: a commit of the step whose fabric events name a channel that does not exist (R5) is answered by a fault, and has no next state. -/

namespace Sys2Proof.Machine

open Sys2Proof

/-- A fabric event of a channel above the four that there are. -/
def absentChannel : FabEv := .sramFixed 4 0

/-- A commit of rows with that event is not well formed: it is answered by the fault, and nothing follows (R5). -/
theorem decodePhaseCommit_faults (t : Nat) (s : State) : exec (.decodePhaseCommit t ⟨[], [absentChannel]⟩) s = .fault .noSuchObject := rfl

/-- So is a chunk's commit, of any session that there may be. -/
theorem prefillChunkCommit_faults (t : Nat) (s : State) : exec (.prefillChunkCommit t 0 [] { fab := [absentChannel] }) s = .fault .noSuchObject := rfl

/-- The step of pick 1, in which the chunks l run and no row is left. -/
def chunkStep (l : List Chunk) : Serving := { pick := 1, start := 0, rows := [], chunks := l, qEmpty := true, joined := [] }

/-- A package that serves, in that step, with no session. -/
def servingWith (l : List Chunk) : State := { State.reset with pw := { State.reset.pw with pkg := .serving }, sv := { State.reset.sv with run := some (chunkStep l) } }

theorem servingWith_meets (l : List Chunk) : (servingWith l).live = true ∧ (servingWith l).still ∧ Tbl.sorted (servingWith l).ss.tbl ∧ Tbl.sorted (servingWith l).ss.cq :=
  ⟨rfl, ⟨rfl, rfl, Pkg.noConfusion⟩, .nil, .nil⟩

/-- Refutes O34: for fabric events that name channel 4 the commit is a fault, so there is no state in which a session without a delivered row has kept its tokens. -/
theorem not_decodeRowsCommit : ¬ Obligations.DecodeRowsCommit := by
  unfold Obligations.DecodeRowsCommit
  intro h
  obtain ⟨live, still, tbl, cq⟩ := servingWith_meets []
  obtain ⟨u, next, -⟩ := (h (servingWith []) 0 0 (chunkStep []) [absentChannel] live (by decide) still rfl tbl cq).1 [] (fun r hr => absurd hr List.not_mem_nil)
  rw [decodePhaseCommit_faults] at next
  cases next

/-- A chunk of session 0 that met a tile error (R212). -/
def badChunk : Chunk := { k := 0, pos := 0, n := 1, kind := 0, bad := true }

/-- Refutes O36: with a bad chunk in the step, reads whose fabric events name channel 4 make the commit a fault, so there is no state in which the chunk has gone. -/
theorem not_prefillChunksCommit : ¬ Obligations.PrefillChunksCommit := by
  unfold Obligations.PrefillChunksCommit
  intro h
  obtain ⟨live, still, tbl, cq⟩ := servingWith_meets [badChunk]
  obtain ⟨u, next, -⟩ := (h (servingWith [badChunk]) 0 0 (chunkStep [badChunk]) badChunk [] { fab := [absentChannel] } live (by decide) still rfl tbl cq rfl).1 rfl
  rw [prefillChunkCommit_faults] at next
  cases next

end Sys2Proof.Machine
end

section
/-! SUPPORT. Messages of a transfer: what one more message leaves, and what a message that arrives finds. -/

namespace Sys2Proof.Machine

open Sys2Proof

/-! ## One more message (R422, R429) -/

/-- u is s after messages have been sent: nothing that was on its way is lost, and a message that waits for a route goes on waiting. -/
structure State.SendsOn (s u : State) : Prop where
  moves : s.Moves u
  waiting : ∀ m ∈ s.dx.waiting, m ∈ u.dx.waiting

theorem State.SendsOn.trans {s v u : State} (h : s.SendsOn v) (k : v.SendsOn u) : s.SendsOn u := ⟨h.moves.trans k.moves, fun m hm => k.waiting m (h.waiting m hm)⟩

/-- Changes beside the warp's state. -/
theorem State.SendsOn.of_dx {s u : State} (h : s.Linked) (e : u.dx = s.dx) (o : ∀ x ∈ s.out, x ∈ u.out) : s.SendsOn u := ⟨.of_dx h e o, fun _ hm => e ▸ hm⟩

/-- What is on its way stays on its way. -/
theorem State.SendsOn.sends {s u : State} (h : s.SendsOn u) {p : DMsg → Prop} (k : s.sends p) : u.sends p := by
  obtain ⟨m, hm, k⟩ := k
  have goes : ∀ {n vc f}, s.carries n vc f → f.pay = .part m 0 → u.sends p := fun c pay =>
    ⟨m, hm, .inr ((h.moves.carries _ _ _ c).imp (fun q => ⟨_, _, _, q, pay⟩) fun ⟨seq, q⟩ => ⟨_, seq, _, q, pay⟩)⟩
  rcases k with k | ⟨n, vc, f, q, pay⟩ | ⟨n, seq, f, q, pay⟩
  · exact ⟨m, hm, .inl (h.waiting m k)⟩
  · exact goes (.inl q) pay
  · exact goes (vc := 0) (.inr ⟨seq, q⟩) pay

theorem pumpSome_waiting (k n : Nat) (s : State) : (State.pumpSome k n s).dx.waiting = s.dx.waiting := by
  induction k generalizing s with
  | zero => rfl
  | succ k ih =>
    unfold State.pumpSome
    split
    · rfl
    · next u e =>
      obtain ⟨vc, f, rest, -, rfl⟩ := sendFlit_does e
      rw [ih, State.ev_dx]
      rfl

/-- A message that is sent joins those that wait, or takes a route. -/
theorem routeMsg_waiting (s : State) (m y : DMsg) (h : y ∈ s.dx.waiting) : y ∈ (s.routeMsg m).dx.waiting := by
  unfold State.routeMsg
  split
  · next n v e =>
    obtain ⟨a, b, rfl⟩ := route_some e
    unfold State.putMsg State.queueFlits State.pumpLink
    rw [State.ev_dx, pumpSome_waiting]
    exact h
  · exact List.mem_append_left _ h

theorem stampMsg_waiting (s : State) (m : DMsg) : (s.stampMsg m).2.dx.waiting = s.dx.waiting := by
  unfold State.stampMsg
  split
  · exact when_keeps (P := fun u => u.dx.waiting = s.dx.waiting) (fun _ e => e) rfl
  · rfl

theorem sendMsg_on {s : State} (h : s.Linked) (m : DMsg) : s.SendsOn (s.sendMsg m) :=
  ⟨sendMsg_moves h m, fun y hy => routeMsg_waiting _ _ _ (by rw [stampMsg_waiting]; exact hy)⟩

/-- What sending a message leaves of the transfers, the sessions and the frames. -/
theorem sendMsg_leaves {s : State} (h : s.Linked) (m : DMsg) : (s.sendMsg m).Linked ∧ (s.sendMsg m).ss = s.ss ∧ (s.sendMsg m).tm = s.tm ∧ (s.sendMsg m).dx.inn = s.dx.inn ∧ (s.sendMsg m).dx.out = s.dx.out := by
  obtain ⟨linked, rest, -, -⟩ := sendMsg_moves h m
  exact ⟨linked, State.sendMsg_keeps (frame_ss rfl s) s m rfl, State.sendMsg_keeps (frame_tm rfl s) s m rfl, (congrArg Dernyx.inn rest :), (congrArg Dernyx.out rest :)⟩

/-! ## A message arrives (R122, R134, R424, R426) -/

/-- What a message finds: the state at its time, in which its source has been heard and its counter recorded. -/
structure State.Met (s : State) (t src : Nat) (v : State) : Prop where
  only : ∃ p r, v = { s.at t with dx := { s.dx with peers := p, seen := r } }
  linked : v.Linked
  others : ∀ j, j ≠ src → v.present j = s.present j

variable {s v : State} {t src : Nat}

theorem State.Met.ss (h : s.Met t src v) : v.ss = s.ss := by obtain ⟨p, r, rfl⟩ := h.only; rfl
theorem State.Met.tm (h : s.Met t src v) : v.tm = s.tm := by obtain ⟨p, r, rfl⟩ := h.only; rfl
theorem State.Met.inn (h : s.Met t src v) : v.dx.inn = s.dx.inn := by obtain ⟨p, r, rfl⟩ := h.only; rfl
theorem State.Met.outs (h : s.Met t src v) : v.dx.out = s.dx.out := by obtain ⟨p, r, rfl⟩ := h.only; rfl
theorem State.Met.same (h : s.Met t src v) : (s.at t).sameBut (.warp :: noted) v := by
  obtain ⟨p, r, rfl⟩ := h.only
  exact fun q hq => by cases q <;> first | rfl | exact absurd (List.mem_cons_self) hq | exact fun _ _ _ _ _ => rfl | exact fun _ _ _ => rfl

/-- A protected message that passes the checks. -/
theorem arrives_protected {e : DEnv} (h : s.Arrives e true) (t : Nat) (f : State → State) : ∃ v, s.Met t e.src v ∧ (s.at t).arrive e true f = f v := by
  obtain ⟨⟨p, r, only⟩, linked, -⟩ := took_does (h.at t).tables e
  refine ⟨(s.at t).took e, ⟨⟨p, r, only⟩, linked, fun j other => ?_⟩, arrive_protected (h.at t) f⟩
  exact heardFrom_present (h.at t).tables (.inl other)

/-- A message without protection that passes the checks. -/
theorem arrives_plain {e : DEnv} (h : s.Arrives e false) (t : Nat) (f : State → State) : ∃ v, s.Met t e.src v ∧ (s.at t).arrive e false f = f v := by
  have k := h.at t
  obtain ⟨p, heard⟩ := heardFrom_dx (s.at t) e.src
  refine ⟨(s.at t).heardFrom e.src, ⟨⟨p, _, heard⟩, heardFrom_linked k.tables e.src, fun j other => heardFrom_present k.tables (.inl other)⟩, ?_⟩
  have here : ((s.at t).heardFrom e.src).present s.device = true := by
    refine (heardFrom_present k.tables (.inr k.here)).trans k.here
  unfold State.arrive
  rw [if_neg (by rw [k.link.2]; decide)]
  dsimp only
  rw [heard] at here ⊢
  rw [if_neg fun q => q.2 (k.own q.1), if_neg, if_pos (by decide)]
  rintro (q | q | q)
  · exact Bool.false_ne_true (q.symm.trans here)
  · exact Bool.false_ne_true (q.symm.trans k.keyed)
  · exact absurd k.version (Nat.not_le_of_lt q)

end Sys2Proof.Machine
end

section
/-! SUPPORT. A reservation's frames (R435): which they are is told by the frames, the functions, the flows and the settings. -/

namespace Sys2Proof.Machine

open Sys2Proof

/-- Two states in which the same frames can be taken. -/
structure State.Alike (a b : State) : Prop where
  tm : b.tm = a.tm
  fns : b.fns = a.fns
  sl : b.sl = a.sl
  pw : b.pw = a.pw
  tx : b.tx = a.tx
  settings : a.sameSettings b

/-- Both fail, or both give the same and leave such states. -/
def Agree {α : Type} (x y : Option (α × State)) : Prop := Option.Rel (fun p q => p.1 = q.1 ∧ p.2.Alike q.2) x y

theorem Agree.of {α : Type} {r : α} {a b : State} (h : a.Alike b) : Agree (some (r, a)) (some (r, b)) := Option.Rel.some ⟨rfl, h⟩

theorem Agree.map {α β : Type} {x y : Option (α × State)} (h : Agree x y) (f : α → β) : Agree (x.map fun r => (f r.1, r.2)) (y.map fun r => (f r.1, r.2)) := by
  cases h with
  | none => exact .none
  | some k => exact Option.Rel.some ⟨congrArg f k.1, k.2⟩

theorem Agree.bind {α β : Type} {x y : Option (α × State)} (h : Agree x y) {f g : α × State → Option (β × State)} (hf : ∀ r a b, a.Alike b → Agree (f (r, a)) (g (r, b))) : Agree (x.bind f) (y.bind g) := by
  cases h with
  | none => exact .none
  | @some p q k =>
    obtain ⟨r, a⟩ := p
    obtain ⟨r', b⟩ := q
    obtain ⟨rfl, k⟩ := k
    exact hf r a b k

theorem Agree.find {α β : Type} {f g : α → Option (β × State)} (l : List α) (h : ∀ a, Agree (f a) (g a)) : Agree (l.findSome? f) (l.findSome? g) := by
  induction l with
  | nil => exact .none
  | cons a l ih =>
    have k := h a
    unfold Agree at k
    rw [List.findSome?_cons, List.findSome?_cons]
    cases hf : f a with
    | none =>
      cases hg : g a with
      | none => exact ih
      | some q => rw [hf, hg] at k; cases k
    | some p =>
      cases hg : g a with
      | none => rw [hf, hg] at k; cases k
      | some q => rw [hf, hg] at k; exact k

theorem Agree.fold {α β : Type} {f g : Option (β × State) → α → Option (β × State)} (l : List α) (h : ∀ x y a, Agree x y → Agree (f x a) (g y a)) {x y : Option (β × State)} (k : Agree x y) :
    Agree (l.foldl f x) (l.foldl g y) := by
  induction l generalizing x y with
  | nil => exact k
  | cons a l ih => exact ih (h x y a k)

theorem Agree.fst {α : Type} {x y : Option (α × State)} (h : Agree x y) : y.map (·.1) = x.map (·.1) := by
  cases h with
  | none => rfl
  | some k => exact congrArg Option.some k.1.symm

section
variable {a b : State} (h : a.Alike b)
include h

theorem State.Alike.reg {x : Entry} (hx : x ∈ Dict.table) (rw' : x.acc ≠ .ro) (sub i : Nat) : b.reg x sub i = a.reg x sub i := h.settings x hx rw' sub i

theorem State.Alike.fn (f : FnId) : b.fn f = a.fn f := by unfold State.fn; rw [h.fns]

theorem State.Alike.chOn (c : Nat) : b.chOn c = a.chOn c := by unfold State.chOn State.isOn; rw [h.fn]

theorem State.Alike.domChans (d : Nat) : b.domChans d = a.domChans d := by
  unfold State.domChans State.chanAdmits State.isOff State.isOn
  simp only [h.chOn, h.fn, h.reg (x := Dict.dsecClass) (by decide) (by decide), h.reg (x := Dict.sealDomain) (by decide) (by decide)]

theorem State.Alike.flowReady (f : Nat) : b.flowReady f = a.flowReady f := by unfold State.flowReady State.flow; rw [h.sl]

theorem State.Alike.frameTotal (c tier : Nat) : b.frameTotal c tier = a.frameTotal c tier := by
  unfold State.frameTotal
  rw [h.pw, h.reg (x := Dict.tierNearReserve) (by decide) (by decide)]

theorem State.Alike.framesOf (c tier : Nat) : b.framesOf c tier = a.framesOf c tier := by unfold State.framesOf; rw [h.tm]

theorem State.Alike.owned (d tier : Nat) : b.owned d tier = a.owned d tier := by
  unfold State.owned
  simp only [h.framesOf]

theorem State.Alike.tierCap (d tier : Nat) : b.tierCap d tier = a.tierCap d tier := by
  unfold State.tierCap
  rw [h.reg (x := Dict.dtierNearCap) (by decide) (by decide), h.reg (x := Dict.dtierDeepCap) (by decide) (by decide)]

theorem State.Alike.freeFrames (c tier : Nat) : b.freeFrames c tier = a.freeFrames c tier := by
  unfold State.freeFrames
  rw [h.chOn, h.frameTotal, h.framesOf]

theorem State.Alike.farRegion (d : Nat) : b.farRegion d = a.farRegion d := by
  unfold State.farRegion
  simp only [h.tm, h.reg (x := Dict.dtierFarFrames) (by decide) (by decide)]

theorem State.Alike.reserveUsed (c : Nat) : b.reserveUsed c = a.reserveUsed c := by
  unfold State.reserveUsed
  rw [h.tm, h.tx]

theorem State.Alike.reservePool (c : Nat) : b.reservePool c = a.reservePool c := by
  unfold State.reservePool
  rw [h.frameTotal, h.frameTotal, h.reg (x := Dict.tierNearReserve) (by decide) (by decide), h.reg (x := Dict.slaiskWindowPool) (by decide) (by decide)]

/-- States to which the same frames were given. -/
theorem State.Alike.after {T : List Prim} (e : T.all (fun p => p.keepsFns && p.keepsSl && p.keepsPw && p.keepsTx && p.keepsSettings) = true) {u w : State} (tm : w.tm = u.tm)
    (ku : ∀ {P : State → Prop}, Stable T P → P a → P u) (kw : ∀ {P : State → Prop}, Stable T P → P b → P w) : u.Alike w := by
  simp only [List.all_eq_true, Bool.and_eq_true] at e
  have all : ∀ {f : Prim → Bool}, (∀ p ∈ T, f p = true) → T.all f = true := fun h => List.all_eq_true.mpr h
  have fns := all fun p hp => (e p hp).1.1.1.1
  have sl := all fun p hp => (e p hp).1.1.1.2
  have pw := all fun p hp => (e p hp).1.1.2
  have tx := all fun p hp => (e p hp).1.2
  have set := all fun p hp => (e p hp).2
  exact ⟨tm, (kw (frame_fns fns b) rfl).trans (h.fns.trans (ku (frame_fns fns a) rfl).symm), (kw (frame_sl sl b) rfl).trans (h.sl.trans (ku (frame_sl sl a) rfl).symm),
    (kw (frame_pw pw b) rfl).trans (h.pw.trans (ku (frame_pw pw a) rfl).symm), (kw (frame_tx tx b) rfl).trans (h.tx.trans (ku (frame_tx tx a) rfl).symm),
    fun x hx own sub i => (kw (frame_settings set b) (fun _ _ _ _ _ => rfl) x hx own sub i).trans ((h.settings x hx own sub i).trans (ku (frame_settings set a) (fun _ _ _ _ _ => rfl) x hx own sub i).symm)⟩

/-- The frame of a tier and channel that is taken next. -/
def State.nextFrame (s : State) (c tier : Nat) : Nat :=
  ((List.range (((s.tm.frames.filter fun e => decide (e.1 / 2 ^ 24 = 2 * c + tier) && e.2.st != 0).map (·.1)).length + 1)).find? fun i =>
    !((s.tm.frames.filter fun e => decide (e.1 / 2 ^ 24 = 2 * c + tier) && e.2.st != 0).map (·.1)).contains ((2 * c + tier) * 2 ^ 24 + i)).getD 0

omit h in
theorem nextFrame_of {a b : State} (tm : b.tm = a.tm) (c tier : Nat) : b.nextFrame c tier = a.nextFrame c tier := by unfold State.nextFrame; rw [tm]

/-- The state in which a frame has been taken. -/
def State.frameTaken (s : State) (d c tier n : Nat) : State :=
  let u := (s.setFrame c tier n { own := d, st := 1 }).when (decide ((s.frame c tier n).own ≠ d)) fun s => (s.inc Dict.secFramesZeroed).ev 0x248 none 1 n (some d)
  u.when (decide (tier = 1) && decide (u.freeFrames c 1 = 0)) fun s => s.notify 0x1203 [c]

omit h in
theorem takeFrame_eq (s : State) (d c tier : Nat) :
    s.takeFrame d c tier = if s.owned d tier < s.tierCap d tier ∧ 0 < s.freeFrames c tier then some (s.nextFrame c tier, s.frameTaken d c tier (s.nextFrame c tier)) else none := rfl

omit h in
theorem frameTaken_keeps {P : State → Prop} {s : State} {d c tier n : Nat} (st : Stable [.ctr, .notify, .ev] P) (k : P (s.setFrame c tier n { own := d, st := 1 })) : P (s.frameTaken d c tier n) := by
  unfold State.frameTaken
  exact when_keeps (P := P) (fun u hu => st.notify rfl _ _ _ hu) (when_keeps (P := P) (fun u hu => st.ev rfl _ _ _ _ _ _ _ (st.ctrInc rfl _ _ _ _ _ rfl hu)) k)

theorem State.Alike.takeFrame (d c tier : Nat) : Agree (a.takeFrame d c tier) (b.takeFrame d c tier) := by
  rw [takeFrame_eq, takeFrame_eq, h.owned, h.tierCap, h.freeFrames, nextFrame_of h.tm]
  split
  · refine .of (h.after (T := [.ctr, .notify, .tm, .ev]) rfl ?_ (fun st k => frameTaken_keeps (st.mono rfl) (st.tm rfl _ _ k)) fun st k => frameTaken_keeps (st.mono rfl) (st.tm rfl _ _ k))
    rw [frameTaken_keeps (frame_tm rfl (b.setFrame c tier (a.nextFrame c tier) { own := d, st := 1 })) rfl, frameTaken_keeps (frame_tm rfl (a.setFrame c tier (a.nextFrame c tier) { own := d, st := 1 })) rfl]
    unfold State.setFrame
    rw [h.tm]
  · exact .none

theorem State.Alike.takeFar (d g c : Nat) : Agree (a.takeFar d g c) (b.takeFar d g c) := by
  unfold State.takeFar
  rw [h.tm, h.reserveUsed, h.reservePool, h.reg (x := Dict.dtierFarFrames) (by decide) (by decide)]
  dsimp only
  split
  · exact .of ⟨rfl, h.fns, h.sl, h.pw, h.tx, h.settings⟩
  · exact .none

/-- The frames of a reservation are the same in two such states. -/
theorem State.Alike.reserveFor (d tier n : Nat) : Agree (a.reserveFor d tier n) (b.reserveFor d tier n) := by
  unfold State.reserveFor
  refine Agree.fold _ (fun x y i k => k.bind fun r u w kw => ?_) (.of h)
  dsimp only
  rw [kw.domChans, kw.farRegion]
  split
  · exact Agree.find _ fun c => (kw.takeFrame d c tier).map fun m => r ++ [(tier, c, m)]
  · have places : w.farPlace d = u.farPlace d := by
      funext g m
      unfold State.farPlace
      rw [kw.reg (x := Dict.dtierFarFlow) (by decide) (by decide), kw.reg (x := Dict.dtierFarKey) (by decide) (by decide), kw.reg (x := Dict.dtierFarBase) (by decide) (by decide)]
    simp only [places, kw.flowReady]
    cases (u.farRegion d).filter fun g => u.flowReady (u.farPlace d g 0).1 with
    | none => exact .none
    | some g => exact Agree.find _ fun c => (kw.takeFar d g c).map fun m => r ++ [(2, g, m)]

end

end Sys2Proof.Machine
end

section
/-! SUPPORT. O46: MIGRATE_RESERVE and MIGRATE_REPLY. -/

namespace Sys2Proof.Machine

open Sys2Proof

theorem State.Met.alike {s v : State} {t src : Nat} (h : s.Met t src v) : s.Alike v := by
  obtain ⟨p, r, rfl⟩ := h.only
  exact ⟨rfl, rfl, rfl, rfl, rfl, fun _ _ _ _ _ => rfl⟩

/-- A command that a protected message carries acts on what the message finds. -/
theorem exec_protected {s : State} {i : Instr} {t : Nat} {e : DEnv} {f : State → State} (hi : exec i s = run i t s fun s => s.arrive e true f) (wf : i.wf = decide (e.link < 48)) (h : s.Arrives e true) :
    ∃ v, s.Met t e.src v ∧ exec i s = .next (f v) := by
  obtain ⟨v, met, eq⟩ := arrives_protected h t f
  exact ⟨v, met, hi.trans ((run_wf _ (wf.trans (decide_eq_true h.link.1)) h.live).trans (congrArg _ eq))⟩

/-- So does one without protection. -/
theorem exec_plain {s : State} {i : Instr} {t : Nat} {e : DEnv} {f : State → State} (hi : exec i s = run i t s fun s => s.arrive e false f) (wf : i.wf = decide (e.link < 48)) (h : s.Arrives e false) :
    ∃ v, s.Met t e.src v ∧ exec i s = .next (f v) := by
  obtain ⟨v, met, eq⟩ := arrives_plain h t f
  exact ⟨v, met, hi.trans ((run_wf _ (wf.trans (decide_eq_true h.link.1)) h.live).trans (congrArg _ eq))⟩

/-! ## Transfers that come in -/

/-- A transfer that was put in is the one known by its source and id. -/
theorem migIn_setMigIn (s : State) (m : MigIn) : (s.setMigIn m).migIn m.src m.id = some m := by
  have other : ((s.dx.inn.filter fun (y : MigIn) => !(y.src == m.src && y.id == m.id)).find? fun y => y.src == m.src && y.id == m.id) = none := by
    rw [List.find?_eq_none]
    intro y hy q
    have := (List.mem_filter.mp hy).2
    rw [q] at this
    cases this
  unfold State.migIn State.setMigIn
  dsimp only
  rw [List.find?_append, other]
  simp

theorem migIn_of {s u : State} (h : u.dx.inn = s.dx.inn) (src id : Nat) : u.migIn src id = s.migIn src id := by unfold State.migIn; rw [h]

/-- A known transfer has the source and id that it is known by. -/
theorem migIn_key {s : State} {src id : Nat} {m : MigIn} (h : s.migIn src id = some m) : m.src = src ∧ m.id = id := by
  have := List.find?_some h
  rw [Bool.and_eq_true, beq_iff_eq, beq_iff_eq] at this
  exact this

/-! ## MIGRATE_RESERVE (R435) -/

/-- The frames that a reservation takes, in each tier. -/
def State.reserveSum (s : State) (x : MigSum) : Option (List (Nat × Nat × Nat) × State) :=
  (s.reserveFor x.dom 0 x.near).bind fun a => (a.2.reserveFor x.dom 1 x.deep).bind fun b => (b.2.reserveFor x.dom 2 x.far).map fun f => (a.1 ++ b.1 ++ f.1, f.2)

theorem State.Alike.reserveSum {a b : State} (h : a.Alike b) (x : MigSum) : Agree (a.reserveSum x) (b.reserveSum x) :=
  (h.reserveFor _ _ _).bind fun r _ _ k => (k.reserveFor _ _ _).bind fun q _ _ k => (k.reserveFor _ _ _).map fun f => r ++ q ++ f

theorem reserveSum_fst (s : State) (x : MigSum) : (s.reserveSum x).map (·.1) =
    (s.reserveFor x.dom 0 x.near).bind fun a => (a.2.reserveFor x.dom 1 x.deep).bind fun b => (b.2.reserveFor x.dom 2 x.far).map fun f => a.1 ++ b.1 ++ f.1 := by
  simp only [State.reserveSum, Option.map_bind, Option.map_map, Function.comp_def]

theorem reserveSum_keeps {P : State → Prop} (h : Stable [.ctr, .notify, .tm, .ev] P) {s : State} (x : MigSum) (hs : P s) : OkOP P (s.reserveSum x) :=
  OkOpt.bind (State.reserveFor_keeps h s _ _ _ hs) fun a ha => OkOpt.bind (State.reserveFor_keeps h a.2 _ _ _ ha) fun b hb => OkOpt.map (State.reserveFor_keeps h b.2 _ _ _ hb) fun _ hf => hf

/-- What a reservation does where the transfer is not known. -/
def State.newTransfer (s : State) (e : DEnv) (x : MigSum) : State :=
  match s.placeFor x with
  | none => (s.reserveFail e x 2).migReply e 2
  | some k =>
    match s.reserveSum x with
    | none => (s.reserveFail e x 1).migReply e 1
    | some r => (r.2.setMigIn { src := e.src, id := e.mid, reply := 0, sum := x, k := k, frames := r.1, since := s.now }).migReply e 0

theorem placeFor_met {s v : State} {t src : Nat} (h : s.Met t src v) (x : MigSum) : v.placeFor x = s.placeFor x := by
  have chans := h.alike.domChans x.dom
  obtain ⟨p, r, rfl⟩ := h.only
  unfold State.placeFor
  rw [chans]
  rfl

section
variable {s : State} {e : DEnv} (t : Nat) (h : s.Arrives e true)
include h

theorem migrateReserve_does (x : MigSum) : ∃ v, s.Met t e.src v ∧ (∀ m, s.migIn e.src e.mid = some m → exec (.migrateReserve t e x) s = .next (v.migReply e m.reply)) ∧
    (s.migIn e.src e.mid = none → exec (.migrateReserve t e x) s = .next (v.newTransfer e x)) := by
  obtain ⟨v, met, eq⟩ := exec_protected (i := .migrateReserve t e x) (execMigrateReserve.eq_1 t e x s) rfl h
  refine ⟨v, met, fun m known => ?_, fun fresh => ?_⟩
  · rw [eq, migIn_of met.inn, known]
  · rw [eq, migIn_of met.inn, fresh]
    rfl

omit h in
/-- The answer of a transfer is on its way, and the transfers, the sessions and the frames are as they were. -/
theorem migReply_does {w : State} (linked : w.Linked) (n : Nat) : (w.migReply e n).sends (fun m => m.is 0x05 e.src (some e.dom) e.mid n) ∧
    (w.migReply e n).dx.inn = w.dx.inn ∧ (w.migReply e n).ss = w.ss ∧ (w.migReply e n).tm = w.tm := by
  obtain ⟨-, ss, tm, inn, -⟩ := sendMsg_leaves linked { typ := 0x05, dst := e.src, dom := some e.dom, mid := e.mid, aux := n }
  exact ⟨sendMsg_sends linked _ fun _ _ => ⟨rfl, rfl, rfl, rfl, rfl⟩, inn, ss, tm⟩

omit h in
/-- A reservation that is turned away is remembered with its answer, and holds nothing. -/
theorem reserveFail_does {v : State} (linked : v.Linked) (x : MigSum) (n : Nat) :
    ∃ m, ((v.reserveFail e x n).migReply e n).sends (fun m => m.is 0x05 e.src (some e.dom) e.mid n) ∧ ((v.reserveFail e x n).migReply e n).migIn e.src e.mid = some m ∧ m.reply = n ∧ m.frames = [] ∧
      ((v.reserveFail e x n).migReply e n).ss = v.ss ∧ ((v.reserveFail e x n).migReply e n).tm = v.tm := by
  obtain ⟨sent, inn, ss, tm⟩ := migReply_does (e := e) (w := v.reserveFail e x n) (linked.of_tables rfl rfl) n
  exact ⟨_, sent, (migIn_of inn _ _).trans (migIn_setMigIn v { src := e.src, id := e.mid, reply := n, sum := x, k := 1048576, frames := [], since := v.now }), rfl, rfl, ss, tm⟩

theorem migrateReserve_known (x : MigSum) (m : MigIn) (known : s.migIn e.src e.mid = some m) :
    ∃ u, exec (.migrateReserve t e x) s = .next u ∧ u.sends (fun y => y.is 0x05 e.src (some e.dom) e.mid m.reply) ∧ u.dx.inn = s.dx.inn ∧ u.ss = s.ss ∧ u.tm = s.tm := by
  obtain ⟨v, met, does, -⟩ := migrateReserve_does t h x
  obtain ⟨sent, inn, ss, tm⟩ := migReply_does (e := e) met.linked m.reply
  exact ⟨_, does m known, sent, inn.trans met.inn, ss.trans met.ss, tm.trans met.tm⟩

/-- A reservation of a transfer that is not known, by where it finds a slot and frames. -/
theorem migrateReserve_turned (x : MigSum) (fresh : s.migIn e.src e.mid = none) (n : Nat)
    (why : n = 2 ∧ s.placeFor x = none ∨ n = 1 ∧ (∃ k, s.placeFor x = some k) ∧ (s.reserveSum x).map (·.1) = none) :
    ∃ u m, exec (.migrateReserve t e x) s = .next u ∧ u.sends (fun y => y.is 0x05 e.src (some e.dom) e.mid n) ∧ u.migIn e.src e.mid = some m ∧ m.reply = n ∧ m.frames = [] ∧ u.ss = s.ss ∧ u.tm = s.tm := by
  obtain ⟨v, met, -, does⟩ := migrateReserve_does t h x
  have turned : v.newTransfer e x = (v.reserveFail e x n).migReply e n := by
    unfold State.newTransfer
    rw [placeFor_met met]
    obtain ⟨rfl, nowhere⟩ | ⟨rfl, ⟨k, place⟩, nothing⟩ := why
    · rw [nowhere]
    · rw [← (met.alike.reserveSum x).fst] at nothing
      rw [place, Option.map_eq_none_iff.mp nothing]
  obtain ⟨m, sent, known, reply, frames, ss, tm⟩ := reserveFail_does (e := e) met.linked x n
  exact ⟨_, m, (does fresh).trans (congrArg _ turned), sent, known, reply, frames, ss.trans met.ss, tm.trans met.tm⟩

theorem migrateReserve_takes (x : MigSum) (fresh : s.migIn e.src e.mid = none) (k : Nat) (fs : List (Nat × Nat × Nat)) (place : s.placeFor x = some k) (got : (s.reserveSum x).map (·.1) = some fs) :
    ∃ u, exec (.migrateReserve t e x) s = .next u ∧ u.sends (fun y => y.is 0x05 e.src (some e.dom) e.mid 0) ∧ u.ss = s.ss ∧
      u.migIn e.src e.mid = some { src := e.src, id := e.mid, reply := 0, sum := x, k := k, frames := fs, since := Nat.max s.now t } := by
  obtain ⟨v, met, -, does⟩ := migrateReserve_does t h x
  rw [← (met.alike.reserveSum x).fst] at got
  obtain ⟨⟨fs, w⟩, took, rfl⟩ := Option.map_eq_some_iff.mp got
  have taken : v.newTransfer e x = (w.setMigIn { src := e.src, id := e.mid, reply := 0, sum := x, k := k, frames := fs, since := v.now }).migReply e 0 := by
    unfold State.newTransfer
    rw [placeFor_met met, place, took]
  have dx : w.dx = v.dx := reserveSum_keeps (P := fun u => u.dx = v.dx) (frame_dx rfl v) x rfl _ took
  have same : w.ss = v.ss := reserveSum_keeps (P := fun u => u.ss = v.ss) (frame_ss rfl v) x rfl _ took
  have now : v.now = Nat.max s.now t := by obtain ⟨p, r, rfl⟩ := met.only; rfl
  obtain ⟨sent, inn, ss, -⟩ := migReply_does (e := e) (w := w.setMigIn { src := e.src, id := e.mid, reply := 0, sum := x, k := k, frames := fs, since := v.now }) ((met.linked.of_dx dx).of_tables rfl rfl) 0
  refine ⟨_, (does fresh).trans (congrArg _ taken), sent, ss.trans (same.trans met.ss), (migIn_of inn _ _).trans ?_⟩
  rw [← now]
  exact migIn_setMigIn w _

end

end Sys2Proof.Machine
end

section
/-! SUPPORT. O46: the source's side of a transfer. -/

namespace Sys2Proof.Machine

open Sys2Proof

/-! ## A session's pages and its entry are sent (R435, steps 3 and 4) -/

/-- A fold of which each part sends something sends all of it, and loses nothing. -/
theorem each_sends {α : Type} {l : List α} {f : α → State → State} {p : α → DMsg → Prop} (I : State → Prop) (step : ∀ a u, I u → I (f a u) ∧ u.SendsOn (f a u) ∧ (a ∈ l → (f a u).sends (p a))) {s : State} (h : I s)
    (linked : s.Linked) : I (s.each l f) ∧ s.SendsOn (s.each l f) ∧ ∀ a ∈ l, (s.each l f).sends (p a) := by
  suffices all : ∀ (m : List α), (∀ a ∈ m, a ∈ l) → ∀ {s : State}, I s → s.Linked → I (s.each m f) ∧ s.SendsOn (s.each m f) ∧ ∀ a ∈ m, (s.each m f).sends (p a) from all l (fun _ => id) h linked
  intro m
  induction m with
  | nil => exact fun _ _ h linked => ⟨h, .of_dx linked rfl fun _ => id, fun a ha => absurd ha List.not_mem_nil⟩
  | cons a m ih =>
    intro sub s h linked
    obtain ⟨inv, on, sent⟩ := step a s h
    obtain ⟨inv', on', sent'⟩ := ih (fun b hb => sub b (List.mem_cons_of_mem _ hb)) inv on.moves.linked
    refine ⟨inv', on.trans on', fun b hb => ?_⟩
    rcases List.mem_cons.mp hb with rfl | hb
    · exact on'.sends (sent (sub b List.mem_cons_self))
    · exact sent' b hb

/-- One page of a session goes to a peer. -/
def State.sendPage (s : State) (m : MigOut) (dom : Nat) (g : Nat × Page) : State :=
  let (w, s) := s.written dom (chOf m.k) 1 g.2
  (s.sendMsg { typ := 0x06, dst := m.peer, dom := some dom, mid := m.id, aux := g.1, body := .page { carried g.1 w with tier := g.2.tier } }).ev 0x044 (some (chOf m.k)) 1 (s.handle m.k) (some dom) (some (s.handle m.k))

theorem sendPage_keeps {P : State → Prop} (h : Stable [.out, .ctr, .nv, .sc, .tm, .dx, .ev] P) {s : State} (m : MigOut) (dom : Nat) (g : Nat × Page) (hs : P s) : P (s.sendPage m dom g) :=
  h.ev rfl _ _ _ _ _ _ _ (State.sendMsg_keeps (h.mono rfl) _ _ (State.written_keeps (h.mono rfl) s dom (chOf m.k) 1 g.2 hs).snd)

theorem sendPage_sends {s : State} (linked : s.Linked) (m : MigOut) (dom : Nat) (g : Nat × Page) : s.SendsOn (s.sendPage m dom g) ∧ (s.sendPage m dom g).sends fun y => y.is 0x06 m.peer (some dom) m.id g.1 := by
  unfold State.sendPage
  have dx : (s.written dom (chOf m.k) 1 g.2).2.dx = s.dx := (State.written_keeps (P := fun u => u.dx = s.dx) (frame_dx rfl s) s dom (chOf m.k) 1 g.2 rfl).snd
  have out : ∀ x ∈ s.out, x ∈ (s.written dom (chOf m.k) 1 g.2).2.out := fun x hx => (State.written_keeps (sent_stable _ x) s dom (chOf m.k) 1 g.2 hx).snd
  generalize s.written dom (chOf m.k) 1 g.2 = r at dx out ⊢
  obtain ⟨w, v⟩ := r
  have linked' : v.Linked := linked.of_dx dx
  dsimp only
  have on := sendMsg_on linked' { typ := 0x06, dst := m.peer, dom := some dom, mid := m.id, aux := g.1, body := .page { carried g.1 w with tier := g.2.tier } }
  have sent := sendMsg_sends linked' { typ := 0x06, dst := m.peer, dom := some dom, mid := m.id, aux := g.1, body := .page { carried g.1 w with tier := g.2.tier } }
    (p := fun y => y.is 0x06 m.peer (some dom) m.id g.1) fun _ _ => ⟨rfl, rfl, rfl, rfl, rfl⟩
  have noted : ∀ (u : State) a b c, u.Linked → u.SendsOn (u.ev 0x044 a 1 b c (some b)) := fun u a b c k => .of_dx k (State.ev_dx _ _ _ _ _ _ _) fun x => State.ev_sent _ _ _ _ _ _ _
  exact ⟨(State.SendsOn.of_dx linked dx out).trans (on.trans (noted _ _ _ _ on.moves.linked)), (noted _ _ _ _ on.moves.linked).sends sent⟩

/-- What a session's entry in a message depends on. -/
theorem entryOf_of {s u : State} (ss : u.ss = s.ss) (nv : u.nvRest = s.nvRest) (settings : s.sameSettings u) (fb : u.fb = s.fb) (k : Nat) : u.entryOf k = s.entryOf k := by
  have x : u.sess k = s.sess k := by unfold State.sess; rw [ss]
  have device : u.device = s.device := settings Dict.warpDeviceIndex (by decide) (by decide) 0 0
  have gen : u.genOf k = s.genOf k := genOf_of (congrArg Sess.gen x) nv (congrArg Sessions.bumps ss)
  unfold State.entryOf State.handle State.model
  rw [x, device, gen, fb]

theorem sendPages_eq (s : State) (m : MigOut) (lo : Nat) : s.sendPages m lo =
    ((s.each ((s.sess m.k).pages.filter fun e => decide (lo ≤ e.1) && decide (e.2.tier ≠ 3)) fun g u => u.sendPage m (s.sess m.k).dom g).sendMsg
      { typ := 0x07, dst := m.peer, dom := some (s.sess m.k).dom, mid := m.id,
        body := .entry ((s.each ((s.sess m.k).pages.filter fun e => decide (lo ≤ e.1) && decide (e.2.tier ≠ 3)) fun g u => u.sendPage m (s.sess m.k).dom g).entryOf m.k) }) := rfl

/-- The pages from one on and the entry are on their way, and the sessions and the transfers are as they were. -/
theorem sendPages_does {s : State} (linked : s.Linked) (m : MigOut) (lo : Nat) : (s.sendPages m lo).ss = s.ss ∧ (s.sendPages m lo).dx.out = s.dx.out ∧
    (s.sendPages m lo).sends (fun y => y.is 0x07 m.peer (some (s.sess m.k).dom) m.id 0 ∧ y.body = .entry (s.entryOf m.k)) ∧
    ∀ g ∈ (s.sess m.k).pages, lo ≤ g.1 → g.2.tier ≠ 3 → (s.sendPages m lo).sends fun y => y.is 0x06 m.peer (some (s.sess m.k).dom) m.id g.1 := by
  rw [sendPages_eq]
  generalize hl : (s.sess m.k).pages.filter (fun e => decide (lo ≤ e.1) && decide (e.2.tier ≠ 3)) = l
  generalize (s.sess m.k).dom = dom
  obtain ⟨-, on, sent⟩ := each_sends (l := l) (f := fun g u => u.sendPage m dom g) (p := fun g y => y.is 0x06 m.peer (some dom) m.id g.1) State.Linked
    (fun g u k => ⟨(sendPage_sends k m dom g).1.moves.linked, (sendPage_sends k m dom g).1, fun _ => (sendPage_sends k m dom g).2⟩) linked linked
  have keeps : ∀ {P : State → Prop}, Stable [.out, .ctr, .nv, .sc, .tm, .dx, .ev] P → P s → P (s.each l fun g u => u.sendPage m dom g) := fun h hs => each_keeps (fun g u hu => sendPage_keeps h m dom g hu) hs
  have ss := keeps (P := fun u => u.ss = s.ss) (frame_ss rfl s) rfl
  have entry := entryOf_of ss (keeps (P := fun u => u.nvRest = s.nvRest) (frame_nvRest rfl s) rfl) (keeps (frame_settings rfl s) fun _ _ _ _ _ => rfl) (keeps (P := fun u => u.fb = s.fb) (frame_fb rfl s) rfl) m.k
  rw [entry]
  generalize (s.each l fun g u => u.sendPage m dom g) = w at *
  have last := sendMsg_on on.moves.linked { typ := 0x07, dst := m.peer, dom := some dom, mid := m.id, body := .entry (s.entryOf m.k) }
  obtain ⟨-, ss', -, -, outs⟩ := sendMsg_leaves on.moves.linked { typ := 0x07, dst := m.peer, dom := some dom, mid := m.id, body := .entry (s.entryOf m.k) }
  refine ⟨ss'.trans ss, outs.trans (congrArg Dernyx.out on.moves.rest :), sendMsg_sends on.moves.linked _ fun _ _ => ⟨⟨rfl, rfl, rfl, rfl, rfl⟩, rfl⟩, fun g hg above home => last.sends (sent g ?_)⟩
  rw [← hl, List.mem_filter]
  exact ⟨hg, by simp [above, home]⟩

/-! ## A session that is given back (R203) -/

/-- A session's core after it has gone back to the state before its move. -/
def Sess.returned (c : Sess) (cur : Nat) : Sess :=
  { c with st := c.prior, since := c.since + (cur - c.pausedAt), ttl := if c.ttl = 0 then 0 else c.ttl + (cur - c.pausedAt), revivePend := false }

theorem backToPrior_core {s : State} {k : Nat} {c : Sess} (h : CoreIs k c s) : CoreIs k (c.returned s.pk.current) (s.backToPrior k) := by
  unfold State.backToPrior
  have core := releaseHeld_by (CoreIs.stable rfl k c) (CoreIs.pageOk k c) k h
  have pk : (s.releaseHeld k).pk.current = s.pk.current := (congrArg Pick.current (State.releaseHeld_keeps (P := fun u => u.pkRest = s.pkRest) (frame_pkRest rfl s) s k rfl) :)
  generalize s.releaseHeld k = v at core pk ⊢
  dsimp only
  rw [pk]
  have own : SessIs k (v.sess k) (v.when (decide ((v.sess k).prior = .toolwait)) fun s => s.ev 0x08B (some (chOf k)) 1 (s.handle k) (some (v.sess k).dom) (some (s.handle k))) :=
    when_keeps (P := SessIs k (v.sess k)) (fun u hu => hu.of (congrArg Sessions.tbl (State.ev_ss _ _ _ _ _ _ _) :)) core.is
  refine ⟨State.setSess_sorted own.1 _ _, ?_⟩
  rw [State.setSess_sess own.1, if_pos rfl, ← core.2]
  rfl

end Sys2Proof.Machine
end

section
/-! SUPPORT. O46: the answers that the source of a transfer gets. -/

namespace Sys2Proof.Machine

open Sys2Proof

/-! ## Another peer is asked (R40, R436) -/

theorem askPeer_asks {s : State} (linked : s.Linked) (k p : Nat) : ∃ y ∈ (s.askPeer k p).dx.out, y.k = k ∧ y.peer = p ∧ y.step = 1 := by
  unfold State.askPeer
  dsimp only
  have dx : (s.when (decide ((s.sess k).st ≠ .moving)) fun u => (u.touchEntry k).beginMoving k 3 (s.sess k).policy).dx = s.dx :=
    when_keeps (P := fun u => u.dx = s.dx) (fun u hu => State.beginMoving_keeps (frame_dx rfl s) _ _ _ _ (State.touchEntry_keeps (frame_dx rfl s) _ _ hu)) rfl
  generalize (s.when (decide ((s.sess k).st ≠ .moving)) fun u => (u.touchEntry k).beginMoving k 3 (s.sess k).policy) = v at dx ⊢
  have linked' : v.Linked := linked.of_dx dx
  generalize hw : ({ v.setSess k { v.sess k with reserved := true } with dx := _ } : State) = w
  have linked'' : w.Linked := linked'.of_tables (hw ▸ rfl) (hw ▸ rfl)
  rw [(sendMsg_leaves linked'' _).2.2.2.2, ← hw]
  exact ⟨_, List.mem_append_right _ List.mem_cons_self, rfl, rfl, rfl⟩

theorem drainTry_asks {s : State} {k i p : Nat} {more : List Nat} (target : s.reg Dict.packageDrainTarget = 0 ∨ s.reg Dict.packageDrainTarget = 2) (unsealed : s.sealed (chOf k) = false)
    (peers : s.peersFrom i = p :: more) : s.drainTry k i = s.askPeer k p := by
  unfold State.drainTry
  dsimp only
  rw [unsealed, Bool.and_false, Bool.and_false, peers]
  rcases target with e | e <;> rw [e] <;> rfl

/-! ## A transfer is given up (R203) -/

theorem dropOut_keeps' {P : State → Prop} (h : Stable [.ss, .tm, .ev] P) {s : State} (m : MigOut) (hs : P { s with dx := { s.dx with out := s.dx.out.filter fun y => y.id != m.id } }) : P (s.dropOut m) :=
  when_keeps (P := P) (fun _ hu => State.backToPrior_keeps h _ _ hu) hs

theorem dropOut_dx (s : State) (m : MigOut) : (s.dropOut m).dx = { s.dx with out := s.dx.out.filter fun y => y.id != m.id } := dropOut_keeps' (P := fun u => u.dx = _) (frame_dx rfl _) m rfl

theorem dropOut_gone (s : State) (m : MigOut) : ∀ y ∈ (s.dropOut m).dx.out, y.id ≠ m.id := by
  rw [dropOut_dx]
  intro y hy
  simpa using (List.mem_filter.mp hy).2

/-- The session of a transfer that is given up goes back to the state before its move. -/
theorem dropOut_core {s : State} {k : Nat} {c : Sess} (m : MigOut) (own : m.k = k) (h : CoreIs k c s) (moving : c.st = .moving) : CoreIs k (c.returned s.pk.current) (s.dropOut m) := by
  unfold State.dropOut
  dsimp only
  generalize hv : ({ s with dx := _ } : State) = v
  have core : CoreIs k c v := hv ▸ h
  have pk : v.pk = s.pk := hv ▸ rfl
  have st : (v.sess m.k).st = .moving := by rw [own]; exact (congrArg Sess.st core.2 :).trans moving
  rw [decide_eq_true st, own, ← pk]
  exact backToPrior_core core

/-- What MIGRATE_REPLY does, by the transfer that it answers. -/
def State.replyTo (v : State) (e : DEnv) : Option MigOut → State
  | none => v
  | some m =>
    if e.aux = 0 then State.sendPages { v with dx := { v.dx with out := v.dx.out.map fun y => if y.id = m.id then { y with step := 3 } else y } } m 0
    else if (v.dropOut m).draining then (v.dropOut m).drainTry m.k (m.peer + 1) else v.dropOut m

section
variable {s : State} {e : DEnv} (t : Nat) (h : s.Arrives e true)
include h

theorem migrateReply_does : ∃ v, s.Met t e.src v ∧ ∀ hit, (s.dx.out.find? fun m => m.id == e.mid && m.peer == e.src && m.step == 1) = hit → exec (.migrateReply t e) s = .next (v.replyTo e hit) := by
  obtain ⟨v, met, eq⟩ := exec_protected (i := .migrateReply t e) (execMigrateReply.eq_1 t e s) rfl h
  refine ⟨v, met, fun hit found => eq.trans ?_⟩
  have same : (v.dx.out.find? fun m => m.id == e.mid && m.peer == e.src && m.step == 1) = hit := by rw [met.outs, found]
  rw [same]
  cases hit <;> rfl

theorem migrateReply_none (found : (s.dx.out.find? fun m => m.id == e.mid && m.peer == e.src && m.step == 1) = none) :
    ∃ u, exec (.migrateReply t e) s = .next u ∧ (s.at t).sameBut (.warp :: noted) u := by
  obtain ⟨v, met, does⟩ := migrateReply_does t h
  exact ⟨v, does _ found, met.same⟩

variable {m : MigOut} (found : (s.dx.out.find? fun m => m.id == e.mid && m.peer == e.src && m.step == 1) = some m)
include found

theorem migrateReply_sends (accepted : e.aux = 0) : ∃ u, exec (.migrateReply t e) s = .next u ∧ (∀ y ∈ u.dx.out, y.id = m.id → y.step = 3) ∧
    (u.sends fun y => y.is 0x07 m.peer (some (s.sess m.k).dom) m.id 0 ∧ y.body = .entry (s.entryOf m.k)) ∧ u.ss = s.ss ∧
    ∀ g ∈ (s.sess m.k).pages, g.2.tier ≠ 3 → u.sends fun y => y.is 0x06 m.peer (some (s.sess m.k).dom) m.id g.1 := by
  obtain ⟨v, met, does⟩ := migrateReply_does t h
  have does := does _ found
  dsimp only [State.replyTo] at does
  rw [if_pos accepted] at does
  generalize hw : ({ v with dx := _ } : State) = w at does
  have linked : w.Linked := met.linked.of_tables (hw ▸ rfl) (hw ▸ rfl)
  have ss : w.ss = s.ss := hw ▸ met.ss
  have x : w.sess m.k = s.sess m.k := by unfold State.sess; rw [ss]
  have entry : w.entryOf m.k = s.entryOf m.k := by obtain ⟨p, r, rfl⟩ := met.only; subst hw; rfl
  have outs : w.dx.out = v.dx.out.map fun y => if y.id = m.id then { y with step := 3 } else y := hw ▸ rfl
  obtain ⟨ss', outs', last, pages⟩ := sendPages_does linked m 0
  rw [x, entry] at last
  rw [x] at pages
  refine ⟨_, does, fun y hy same => ?_, last, ss'.trans ss, fun g hg => pages g hg (Nat.zero_le _)⟩
  rw [outs', outs] at hy
  obtain ⟨z, -, rfl⟩ := List.mem_map.mp hy
  by_cases hit : z.id = m.id
  · rw [if_pos hit]
  · rw [if_neg hit] at same
    exact absurd same hit

theorem migrateReply_returns (tables : Tbl.sorted s.ss.tbl) (refused : e.aux ≠ 0) (idle : s.draining = false) : ∃ u, exec (.migrateReply t e) s = .next u ∧ (∀ y ∈ u.dx.out, y.id ≠ m.id) ∧
    ((s.sess m.k).st = .moving → (u.sess m.k).core = (((s.at t).backToPrior m.k).sess m.k).core) := by
  obtain ⟨v, met, does⟩ := migrateReply_does t h
  have does := does _ found
  dsimp only [State.replyTo] at does
  have drain : (v.dropOut m).draining = s.draining := by
    have pw : (v.dropOut m).pw = s.pw := dropOut_keeps' (P := fun u => u.pw = s.pw) (frame_pw rfl s) m (by obtain ⟨p, r, rfl⟩ := met.only; rfl)
    have sv : (v.dropOut m).sv = s.sv := dropOut_keeps' (P := fun u => u.sv = s.sv) (frame_sv rfl s) m (by obtain ⟨p, r, rfl⟩ := met.only; rfl)
    unfold State.draining
    rw [pw, sv]
  rw [if_neg refused, drain, idle] at does
  refine ⟨_, does, dropOut_gone v m, fun moving => ?_⟩
  have core : CoreIs m.k (s.sess m.k).core s := ⟨tables, rfl⟩
  have back := backToPrior_core (s := s.at t) (core.of rfl)
  have pk : v.pk = s.pk := by obtain ⟨p, r, rfl⟩ := met.only; rfl
  have gone := dropOut_core (s := v) m rfl (core.of (congrArg Sessions.tbl met.ss)) moving
  exact gone.2.trans ((congrArg (fun p : Pick => (s.sess m.k).core.returned p.current) pk).trans back.2.symm)

theorem migrateReply_asks (refused : e.aux ≠ 0) (drains : s.draining = true) (target : s.reg Dict.packageDrainTarget = 0 ∨ s.reg Dict.packageDrainTarget = 2) (unsealed : s.sealed (chOf m.k) = false)
    {p : Nat} {more : List Nat} (peers : s.peersFrom (m.peer + 1) = p :: more) : ∃ u, exec (.migrateReply t e) s = .next u ∧ ∃ y ∈ u.dx.out, y.k = m.k ∧ y.peer = p ∧ y.step = 1 := by
  obtain ⟨v, met, does⟩ := migrateReply_does t h
  have does := does _ found
  dsimp only [State.replyTo] at does
  have src : m.peer = e.src := by
    have := List.find?_some found
    simp only [Bool.and_eq_true, beq_iff_eq] at this
    exact this.1.2
  have pw : (v.dropOut m).pw = s.pw := dropOut_keeps' (P := fun u => u.pw = s.pw) (frame_pw rfl s) m (by obtain ⟨p, r, rfl⟩ := met.only; rfl)
  have sv : (v.dropOut m).sv = s.sv := dropOut_keeps' (P := fun u => u.sv = s.sv) (frame_sv rfl s) m (by obtain ⟨p, r, rfl⟩ := met.only; rfl)
  have fns : (v.dropOut m).fns = s.fns := dropOut_keeps' (P := fun u => u.fns = s.fns) (frame_fns rfl s) m (by obtain ⟨p, r, rfl⟩ := met.only; rfl)
  have settings : s.sameSettings (v.dropOut m) := dropOut_keeps' (frame_settings rfl s) m (by obtain ⟨p, r, rfl⟩ := met.only; exact fun _ _ _ _ _ => rfl)
  have drain : (v.dropOut m).draining = s.draining := by
    unfold State.draining
    rw [pw, sv]
  have linked : (v.dropOut m).Linked := met.linked.of_tables (congrArg Dernyx.links (dropOut_dx v m) :) (congrArg Dernyx.peers (dropOut_dx v m) :)
  have present : ∀ j, m.peer + 1 ≤ j → (v.dropOut m).present j = s.present j := fun j above => by
    have old : s.sameSettings v := by obtain ⟨p, r, rfl⟩ := met.only; exact fun _ _ _ _ _ => rfl
    have again : v.sameSettings (v.dropOut m) := dropOut_keeps' (frame_settings rfl v) m fun _ _ _ _ _ => rfl
    have peer : (v.dropOut m).peer j = v.peer j := by unfold State.peer; rw [dropOut_dx]
    exact (present_of again peer).trans (met.others j (by omega))
  have device : (v.dropOut m).device = s.device := settings Dict.warpDeviceIndex (by decide) (by decide) 0 0
  have same : (v.dropOut m).peersFrom (m.peer + 1) = p :: more := by
    rw [← peers]
    unfold State.peersFrom
    rw [device]
    refine List.filter_congr fun j _ => ?_
    by_cases above : m.peer + 1 ≤ j
    · rw [present j above]
    · simp only [decide_eq_false above, Bool.false_and]
  rw [if_neg refused, drain, drains, if_pos rfl, drainTry_asks (by rwa [show (v.dropOut m).reg Dict.packageDrainTarget = s.reg Dict.packageDrainTarget from settings _ (by decide) (by decide) 0 0]) (by rwa [sealed_of fns]) same] at does
  exact ⟨_, does, askPeer_asks linked m.k p⟩

end

end Sys2Proof.Machine
end

section
/-! SUPPORT. O46: a transfer's pages arrive (R424, R436). -/

namespace Sys2Proof.Machine

open Sys2Proof

/-- A PAGE_DATA of a transfer that is still open. -/
def State.openPage (s : State) (e : DEnv) (m : MigIn) (p : CkPage) : State :=
  match m.pages.find? fun y => y.1.lpn == p.lpn with
  | some y => if y.1.ver = p.ver then s.ev 0x1CD none 1 e.link (some e.dom) else s.setMigIn { m with pages := m.pages.map fun z => if z.1.lpn = p.lpn then (p, z.2) else z }
  | none => match s.frameFor m p with
    | none => s
    | some f => (s.setMigIn { m with frames := m.frames.erase f, pages := m.pages ++ [(p, f)] }).ev 0x045 (some (chOf m.k)) 1 0 (some e.dom)

/-- The transfers, the sessions and the frames are as they were. -/
def State.keepsTransfers (s u : State) : Prop := u.dx.inn = s.dx.inn ∧ u.ss = s.ss ∧ u.tm = s.tm

theorem State.Met.keepsTransfers {s v : State} {t src : Nat} (h : s.Met t src v) : s.keepsTransfers v := ⟨h.inn, h.ss, h.tm⟩

theorem State.keepsTransfers.by {T : List Prim} (e : T.all (fun p => p.keepsDx && p.keepsSs && p.keepsTm) = true) {s v u : State} (h : s.keepsTransfers v) (k : ∀ {P : State → Prop}, Stable T P → P v → P u) : s.keepsTransfers u := by
  simp only [List.all_eq_true, Bool.and_eq_true] at e
  have all : ∀ {f : Prim → Bool}, (∀ p ∈ T, f p = true) → T.all f = true := fun h => List.all_eq_true.mpr h
  obtain ⟨inn, ss, tm⟩ := h
  exact ⟨(congrArg Dernyx.inn (k (frame_dx (all fun p hp => (e p hp).1.1) v) rfl) :).trans inn, (k (frame_ss (all fun p hp => (e p hp).1.2) v) rfl).trans ss, (k (frame_tm (all fun p hp => (e p hp).2) v) rfl).trans tm⟩

theorem State.keepsTransfers.ev {s v : State} (h : s.keepsTransfers v) (a : Nat) (b : Option Nat) (c d : Nat) (f g : Option Nat) : s.keepsTransfers (v.ev a b c d f g) :=
  h.by (T := [.ev]) rfl fun st k => st.ev rfl _ _ _ _ _ _ _ k

/-- A PAGE_DATA that fails its tag, or that names another page, is counted and told (R424). -/
theorem pageBad_tells {s v : State} (e : DEnv) (regs : v.regs = s.regs) (wr : v.wr = s.wr) (fns : v.fns = s.fns) : (Tbl.sorted s.regs → s.counted Dict.secTagFailCount (v.pageBad e)) ∧
    s.notified 0x0506 (beBytes 2 e.dom ++ beBytes 8 0) (v.pageBad e) := by
  let detail := beBytes 2 e.dom ++ beBytes 8 0
  have core : (((v.inc Dict.secTagFailCount).ev 0x244 none 1 0 (some e.dom)).journal 1 0xFF 0x244 e.dom 0 detail).wrCore = v.wrCore := (State.journal_wrCore _ _ _ _ _ _ _ _).trans (State.ev_wrCore _ _ _ _ _ _ _)
  refine ⟨fun sorted => ?_, notified_of (T := []) (v := ((v.inc Dict.secTagFailCount).ev 0x244 none 1 0 (some e.dom)).journal 1 0xFF 0x244 e.dom 0 detail) ?_ ?_ ?_ fun _ k => k⟩
  · have count : (v.inc Dict.secTagFailCount).reg Dict.secTagFailCount = (s.reg Dict.secTagFailCount + 1) % 2 ^ Dict.secTagFailCount.ty.width := by
      have old : v.reg Dict.secTagFailCount = s.reg Dict.secTagFailCount := by unfold State.reg; rw [regs]
      rw [inc_counted (by rwa [regs]), old]
    exact (notify_reg _ _ _ _).trans ((journal_reg _ _ _ _ _ _ _ _ (by decide) (by decide) (by decide)).trans ((ev_reg _ _ _ _ _ _ _ _).trans count))
  · exact (congrArg Welrid.assocs core :).trans (congrArg Welrid.assocs wr :)
  · exact (State.journal_fns _ _ _ _ _ _ _ _).trans ((State.ev_fns _ _ _ _ _ _ _).trans fns)
  · exact (congrArg Welrid.udp core :).trans (congrArg Welrid.udp wr :)

section
variable {s : State} {e : DEnv} (t : Nat) (h : s.Arrives e false) (p : CkPage)
include h

theorem pageData_does : ∃ v, s.Met t e.src v ∧ (s.migIn e.src e.mid = none → exec (.pageData t e p) s = .next v) ∧ ∀ m, s.migIn e.src e.mid = some m → exec (.pageData t e p) s = .next
    (if m.reply ≠ 0 ∨ m.committed = true then v.ev 0x1CD none 1 e.link (some e.dom) else if p.ok = false ∨ p.lpn ≠ e.aux then v.pageBad e else v.openPage e m p) := by
  obtain ⟨v, met, eq⟩ := exec_plain (i := .pageData t e p) (execPageData.eq_1 t e p s) rfl h
  refine ⟨v, met, fun fresh => ?_, fun m known => ?_⟩
  · rw [eq, migIn_of met.inn, fresh]
  · rw [eq, migIn_of met.inn, known]
    rfl

theorem pageData_unknown (fresh : s.migIn e.src e.mid = none) : ∃ u, exec (.pageData t e p) s = .next u ∧ s.keepsTransfers u := by
  obtain ⟨v, met, does, -⟩ := pageData_does t h p
  exact ⟨v, does fresh, met.keepsTransfers⟩

variable {m : MigIn} (known : s.migIn e.src e.mid = some m)
include known

theorem pageData_closed (closed : m.reply ≠ 0 ∨ m.committed = true) : ∃ u, exec (.pageData t e p) s = .next u ∧ s.keepsTransfers u := by
  obtain ⟨v, met, -, does⟩ := pageData_does t h p
  exact ⟨_, (does m known).trans (congrArg _ (if_pos closed)), met.keepsTransfers.ev _ _ _ _ _ _⟩

variable (opened : ¬(m.reply ≠ 0 ∨ m.committed = true))
include opened

theorem pageData_bad (bad : p.ok = false ∨ p.lpn ≠ e.aux) : ∃ u, exec (.pageData t e p) s = .next u ∧ s.keepsTransfers u ∧ (Tbl.sorted s.regs → s.counted Dict.secTagFailCount u) ∧
    s.notified 0x0506 (beBytes 2 e.dom ++ beBytes 8 0) u := by
  obtain ⟨v, met, -, does⟩ := pageData_does t h p
  refine ⟨v.pageBad e, (does m known).trans (congrArg _ ((if_neg opened).trans (if_pos bad))), met.keepsTransfers.by (T := [.ctr, .notify, .journal, .ev]) rfl fun st k => State.pageBad_keeps st v e k, ?_⟩
  obtain ⟨q, r, rfl⟩ := met.only
  exact pageBad_tells e rfl rfl rfl

variable (good : ¬(p.ok = false ∨ p.lpn ≠ e.aux))
include good

theorem pageData_open : ∃ v, s.Met t e.src v ∧ exec (.pageData t e p) s = .next (v.openPage e m p) := by
  obtain ⟨v, met, -, does⟩ := pageData_does t h p
  exact ⟨v, met, (does m known).trans (congrArg _ ((if_neg opened).trans (if_neg good)))⟩

theorem pageData_again {y : CkPage × Nat × Nat × Nat} (held : m.pages.find? (fun y => y.1.lpn == p.lpn) = some y) :
    (y.1.ver = p.ver → ∃ u, exec (.pageData t e p) s = .next u ∧ s.keepsTransfers u) ∧
    (y.1.ver ≠ p.ver → ∃ u, exec (.pageData t e p) s = .next u ∧ u.migIn e.src e.mid = some { m with pages := m.pages.map fun z => if z.1.lpn = p.lpn then (p, z.2) else z } ∧ u.ss = s.ss) := by
  obtain ⟨v, met, does⟩ := pageData_open t h p known opened good
  obtain ⟨src, id⟩ := migIn_key known
  rw [← src, ← id]
  unfold State.openPage at does
  rw [held] at does
  exact ⟨fun same => ⟨_, does.trans (congrArg _ (if_pos same)), met.keepsTransfers.ev _ _ _ _ _ _⟩,
    fun other => ⟨_, does.trans (congrArg _ (if_neg other)), migIn_setMigIn v { m with pages := m.pages.map fun z => if z.1.lpn = p.lpn then (p, z.2) else z }, met.ss⟩⟩

theorem pageData_new (fresh : m.pages.find? (fun y => y.1.lpn == p.lpn) = none) : (s.frameFor m p = none → ∃ u, exec (.pageData t e p) s = .next u ∧ s.keepsTransfers u) ∧
    ∀ f, s.frameFor m p = some f → ∃ u, exec (.pageData t e p) s = .next u ∧ u.migIn e.src e.mid = some { m with frames := m.frames.erase f, pages := m.pages ++ [(p, f)] } ∧ u.ss = s.ss := by
  obtain ⟨v, met, does⟩ := pageData_open t h p known opened good
  obtain ⟨src, id⟩ := migIn_key known
  rw [← src, ← id]
  have frame : v.frameFor m p = s.frameFor m p := by obtain ⟨q, r, rfl⟩ := met.only; rfl
  unfold State.openPage at does
  rw [fresh] at does
  dsimp only at does
  rw [frame] at does
  refine ⟨fun nothing => ?_, fun f taken => ?_⟩
  · rw [nothing] at does
    exact ⟨_, does, met.keepsTransfers⟩
  · rw [taken] at does
    refine ⟨_, does, (migIn_of (congrArg Dernyx.inn (State.ev_dx _ _ _ _ _ _ _) :) _ _).trans (migIn_setMigIn v { m with frames := m.frames.erase f, pages := m.pages ++ [(p, f)] }), ?_⟩
    exact (State.ev_ss _ _ _ _ _ _ _).trans met.ss

end

end Sys2Proof.Machine
end

section
/-! SUPPORT. O46: a transfer is committed (R159, R203, R435). -/

namespace Sys2Proof.Machine

open Sys2Proof

/-! ## An arrived session comes home -/

/-- The entry of an arrived session in slot k. -/
def State.landed (s : State) (k : Nat) (x : CkSess) (st : SSt) (model : Nat) : Sess :=
  { st := st, gen := s.genOf k, head := (s.sess k).head, tail := (s.sess k).tail, ring := (s.sess k).ring, imm := (s.sess k).imm, dom := x.dom, prio := x.prio, model := model, length := x.length, ttl := x.ttl, sver := (x.sver + 1) % 2 ^ 32, grammar := x.grammar, stop := x.stop, sampling := x.sampling, gstate := x.gstate, since := x.since, slate := x.slate, charged := x.charged, generated := x.generated, tokens := x.tokens, ctx := x.ctx, policy := x.policy }

section
variable {P : State → Prop} (st : Stable pageMoves P) (hp : PageOk P)
include st hp

theorem landPage_by {s : State} (k : Nat) (p : CkPage) (f : Nat × Nat × Nat) (h : P s) : P (s.landPage k p f) := by
  unfold State.landPage
  dsimp only
  exact when_keeps (P := P) (fun u hu => State.txWrite_keeps (st.mono rfl) _ _ _ _ _ _ hu) (hp.page h _ _ _)

/-- What landing the pages of a session is made of, once its entry is set. -/
theorem landPages_by {s : State} (k dom : Nat) (absent : List CkPage) (pages : List (CkPage × Nat × Nat × Nat)) (frames : List (Nat × Nat × Nat)) (b : Bool) (h : P s) :
    P ((((s.each absent fun p s => s.setPage k p.lpn { tier := 3, poisoned := p.poisoned, count := p.count }).each pages fun p s => s.landPage k p.1 p.2).when b fun s => s.evS k 0x08B).each frames fun f s => s.unreserve dom f) :=
  each_keeps (P := P) (fun _ _ hu => State.unreserve_keeps (st.mono rfl) _ _ _ hu) (when_keeps (P := P) (fun _ hu => State.evS_keeps (st.mono rfl) _ _ _ _ hu)
    (each_keeps (P := P) (fun p _ hu => landPage_by st hp k p.1 p.2 hu) (each_keeps (P := P) (fun _ _ hu => hp.page hu _ _ _) h)))

end

theorem landMigration_lands {s : State} (tables : Tbl.sorted s.ss.tbl) (m : MigIn) (x : CkSess) (st : SSt) (model : Nat) : CoreIs m.k (s.landed m.k x st model).core (s.landMigration m x st model) ∧
    (s.landMigration m x st model).ss.cq = s.ss.cq := by
  unfold State.landMigration
  dsimp only
  generalize hv : State.setSess s m.k _ = v
  have core : CoreIs m.k (s.landed m.k x st model).core v := by
    rw [← hv]
    refine ⟨State.setSess_sorted tables _ _, ?_⟩
    rw [State.setSess_sess tables, if_pos rfl]
    rfl
  have cq : v.ss.cq = s.ss.cq := hv ▸ setSess_cq _ _ _
  exact ⟨landPages_by (CoreIs.stable rfl _ _) (CoreIs.pageOk _ _) _ _ _ _ _ _ core, landPages_by (ss_stable rfl fun y => y.cq = s.ss.cq) (cq_pageOk _) _ _ _ _ _ _ cq⟩

theorem genOf_pos (s : State) (k : Nat) : s.genOf k ≠ 0 := by
  unfold State.genOf
  dsimp only
  split
  · exact Nat.succ_ne_zero _
  · assumption

/-! ## MIGRATE_COMMIT (R435) -/

/-- The lowest of a list. -/
theorem foldl_min_le (l : List Nat) (a : Nat) : l.foldl Nat.min a ≤ a ∧ (∀ y ∈ l, l.foldl Nat.min a ≤ y) ∧ l.foldl Nat.min a ∈ a :: l := by
  induction l generalizing a with
  | nil => exact ⟨le_rfl, fun y hy => absurd hy List.not_mem_nil, List.mem_cons_self⟩
  | cons b l ih =>
    obtain ⟨low, all, member⟩ := ih (Nat.min a b)
    refine ⟨low.trans (Nat.min_le_left _ _), fun y hy => ?_, ?_⟩
    · rcases List.mem_cons.mp hy with rfl | hy
      · exact low.trans (Nat.min_le_right _ _)
      · exact all y hy
    · rcases List.mem_cons.mp member with e | member
      · rw [List.foldl_cons, e]
        rcases Nat.le_total a b with k | k
        · rw [show Nat.min a b = a from Nat.min_eq_left k]; exact List.mem_cons_self
        · rw [show Nat.min a b = b from Nat.min_eq_right k]; exact List.mem_cons_of_mem _ List.mem_cons_self
      · exact List.mem_cons_of_mem _ (List.mem_cons_of_mem _ member)

/-- The pages that a commit names and that are not there; all that it names, where its digest is wrong. -/
def lacking (x : CkSess) (ok : Bool) (m : MigIn) : List Nat :=
  if ok = true then ((x.pages.filter fun p => !p.absent).map (·.lpn)).filter fun l => !(m.pages.any fun y => y.1.lpn == l) else (x.pages.filter fun p => !p.absent).map (·.lpn)

/-- This device is home of the session of a transfer (R159). -/
def State.comesHome (s : State) (m : MigIn) (x : CkSess) (st : SSt) (model : Nat) : State :=
  (((s.landMigration m x st model).setMigIn { m with committed := true, frames := [], pages := [] }).evS m.k 0x090).unsolicited m.k 0x08 stDone (bits x.handle 47 22) (handleGen x.handle) flChanged

/-- An answer to a commit is on its way, and sessions and transfers are as they were. -/
theorem commitReply_does {w : State} (linked : w.Linked) (e : DEnv) (status aux : Nat) :
    (w.commitReply e status aux).sends (fun y => y.is 0x08 e.src (some e.dom) e.mid (if status = 3 then aux else status)) ∧ (w.commitReply e status aux).dx.inn = w.dx.inn ∧ (w.commitReply e status aux).ss = w.ss := by
  obtain ⟨-, ss, -, inn, -⟩ := sendMsg_leaves linked { typ := 0x08, dst := e.src, dom := some e.dom, mid := e.mid, aux := if status = 3 then aux else status }
  exact ⟨sendMsg_sends linked _ fun _ _ => ⟨rfl, rfl, rfl, rfl, rfl⟩, inn, ss⟩

section
variable {s : State} {e : DEnv} (t : Nat) (h : s.Arrives e true) (x : CkSess) (ok : Bool) {m : MigIn} (known : s.migIn e.src e.mid = some m) (good : m.reply = 0)
include h known good

theorem migrateCommit_does : ∃ v, s.Met t e.src v ∧ exec (.migrateCommit t e x ok) s = .next (if m.committed then v.commitReply e 0 0 else match lacking x ok m with
    | l :: ls => v.commitReply e 3 (ls.foldl Nat.min l)
    | [] => match restoredState x, s.modelOf x.dom x.meas with
      | some st, some model => (v.comesHome m x st model).commitReply e 0 0
      | _, _ => v) := by
  obtain ⟨v, met, eq⟩ := exec_protected (i := .migrateCommit t e x ok) (execMigrateCommit.eq_1 t e x ok s) rfl h
  refine ⟨v, met, eq.trans ?_⟩
  have model : v.modelOf x.dom x.meas = s.modelOf x.dom x.meas := by obtain ⟨p, r, rfl⟩ := met.only; rfl
  rw [migIn_of met.inn, known]
  dsimp only
  rw [if_neg fun q => q good, model]
  rfl

theorem migrateCommit_again (committed : m.committed = true) : ∃ u, exec (.migrateCommit t e x ok) s = .next u ∧ (u.sends fun y => y.is 0x08 e.src (some e.dom) e.mid 0) ∧ u.dx.inn = s.dx.inn ∧ u.ss = s.ss := by
  obtain ⟨v, met, does⟩ := migrateCommit_does t h x ok known good
  rw [if_pos committed] at does
  obtain ⟨sent, inn, ss⟩ := commitReply_does met.linked e 0 0
  exact ⟨_, does, sent, inn.trans met.inn, ss.trans met.ss⟩

variable (pending : m.committed = false)
include pending

theorem migrateCommit_lacks (some' : lacking x ok m ≠ []) : ∃ u, exec (.migrateCommit t e x ok) s = .next u ∧
    (∃ l ∈ lacking x ok m, (∀ y ∈ lacking x ok m, l ≤ y) ∧ u.sends fun y => y.is 0x08 e.src (some e.dom) e.mid l) ∧ u.dx.inn = s.dx.inn ∧ u.ss = s.ss := by
  obtain ⟨v, met, does⟩ := migrateCommit_does t h x ok known good
  rw [pending, if_neg Bool.false_ne_true] at does
  generalize lacking x ok m = lacks at some' does ⊢
  cases lacks with
  | nil => exact absurd rfl some'
  | cons l ls =>
    obtain ⟨sent, inn, ss⟩ := commitReply_does met.linked e 3 (ls.foldl Nat.min l)
    obtain ⟨low, all, member⟩ := foldl_min_le ls l
    refine ⟨_, does, ⟨_, member, fun y hy => ?_, sent⟩, inn.trans met.inn, ss.trans met.ss⟩
    rcases List.mem_cons.mp hy with rfl | hy
    · exact low
    · exact all y hy

theorem migrateCommit_lands (tables : Tbl.sorted s.ss.tbl) (queues : Tbl.sorted s.ss.cq) (whole : lacking x ok m = []) {st : SSt} {model : Nat} (state : restoredState x = some st) (place : s.modelOf x.dom x.meas = some model)
    (room : s.stalled x.dom = false) : ∃ u, exec (.migrateCommit t e x ok) s = .next u ∧ (u.sends fun y => y.is 0x08 e.src (some e.dom) e.mid 0) ∧ (∃ m', u.migIn e.src e.mid = some m' ∧ m'.committed = true) ∧
      (u.sess m.k).core = (s.landed m.k x st model).core ∧
      ∃ w : State, w.ss.cq = s.ss.cq ∧ w.posts x.dom (fun r => r.handle = s.handle m.k ∧ r.seq = 0xFFFF ∧ r.opcode = 0x08 ∧ r.status = stDone ∧ r.progress = bits x.handle 47 22 % 2 ^ 32) u := by
  obtain ⟨v, met, does⟩ := migrateCommit_does t h x ok known good
  rw [pending, if_neg Bool.false_ne_true, whole] at does
  dsimp only at does
  rw [state, place] at does
  dsimp only at does
  obtain ⟨src, id⟩ := migIn_key known
  have same : v.landed m.k x st model = s.landed m.k x st model := by obtain ⟨p, r, rfl⟩ := met.only; rfl
  obtain ⟨core, cq⟩ := landMigration_lands (s := v) (met.ss ▸ tables) m x st model
  rw [same] at core
  have cq := cq.trans (congrArg Sessions.cq met.ss)
  have dx : (v.landMigration m x st model).dx = v.dx := State.landMigration_keeps (P := fun u => u.dx = v.dx) (frame_dx rfl v) v m x st model rfl
  have settings : s.sameSettings (v.landMigration m x st model) :=
    State.landMigration_keeps (frame_settings rfl s) v m x st model (by obtain ⟨p, r, rfl⟩ := met.only; exact fun _ _ _ _ _ => rfl)
  unfold State.comesHome at does
  generalize v.landMigration m x st model = w at core cq dx settings does
  generalize hz : (w.setMigIn { m with committed := true, frames := [], pages := [] }).evS m.k 0x090 = z at does
  have zss : z.ss = w.ss := hz ▸ evS_ss _ _ _ _
  have zdx : z.dx = (w.setMigIn { m with committed := true, frames := [], pages := [] }).dx := hz ▸ State.evS_keeps (P := fun u => u.dx = _) (frame_dx rfl _) _ _ _ _ rfl
  have zset : s.sameSettings z := hz ▸ State.evS_keeps (frame_settings rfl s) _ _ _ _ settings
  have zcore : CoreIs m.k (s.landed m.k x st model).core z := core.of (congrArg Sessions.tbl zss)
  have dom : (z.sess m.k).dom = x.dom := (congrArg Sess.dom zcore.2 :)
  have gen : (z.sess m.k).gen = s.genOf m.k := (congrArg Sess.gen zcore.2 :)
  have handle : z.handle m.k = s.handle m.k := by
    have own : z.genOf m.k = s.genOf m.k := by
      unfold State.genOf
      dsimp only
      rw [gen, if_neg (genOf_pos s m.k)]
      rfl
    unfold State.handle
    rw [own, show z.device = s.device from zset Dict.warpDeviceIndex (by decide) (by decide) 0 0]
  have zcq : z.ss.cq = s.ss.cq := (congrArg Sessions.cq zss).trans cq
  obtain ⟨is, posted⟩ := unsolicited_posts (k := m.k) (x := z.sess m.k) zcore.is (zcq ▸ queues) (by rw [dom, stalled_of_cq zcq]; exact room) 0x08 stDone (bits x.handle 47 22) (handleGen x.handle) flChanged
  rw [dom, handle] at posted
  have ydx : (z.unsolicited m.k 0x08 stDone (bits x.handle 47 22) (handleGen x.handle) flChanged).dx = z.dx := State.unsolicited_keeps (P := fun u => u.dx = z.dx) (frame_dx rfl z) z _ _ _ _ _ _ rfl
  generalize z.unsolicited m.k 0x08 stDone (bits x.handle 47 22) (handleGen x.handle) flChanged = y at is posted ydx does
  have linked : y.Linked := ((met.linked.of_dx dx).of_tables (u := w.setMigIn { m with committed := true, frames := [], pages := [] }) rfl rfl).of_dx (ydx.trans zdx)
  obtain ⟨sent, inn, ss⟩ := commitReply_does linked e 0 0
  refine ⟨_, does, sent, ⟨{ m with committed := true, frames := [], pages := [] }, ?_, rfl⟩, ?_, z, zcq, posted.at' ss⟩
  · rw [← src, ← id, migIn_of (inn.trans (congrArg Dernyx.inn (ydx.trans zdx)))]
    exact migIn_setMigIn w { m with committed := true, frames := [], pages := [] }
  · rw [State.sess_of_tbl (congrArg Sessions.tbl ss) m.k, is.2]
    exact zcore.2

end

end Sys2Proof.Machine
end

section
/-! SUPPORT. O46: a FREE slot stays as it is while the drain takes up the sessions of other slots. -/

namespace Sys2Proof.Machine

open Sys2Proof

/-! ## A slot aside of what happens to others -/

/-- The entry of a slot without a session: FREE, and without pages. -/
structure Sess.Idle (y : Sess) : Prop where
  st : y.st = .free
  pages : y.pages = []

theorem SessIs.stable {T : List Prim} (e : T.all Prim.keepsSs = true) (k : Nat) (y : Sess) : Stable T (SessIs k y) :=
  ss_stable e fun z => Tbl.sorted z.tbl ∧ Tbl.get ({} : Sess) z.tbl k = y

section
variable {k j : Nat} {y : Sess} {s : State}

theorem SessIs.other (h : SessIs k y s) (n : j ≠ k) (x : Sess) : SessIs k y (s.setSess j x) :=
  ⟨State.setSess_sorted h.1 _ _, (State.setSess_sess h.1 j k x).trans ((if_neg (Ne.symm n)).trans h.2)⟩

theorem SessIs.ne_of_page (h : SessIs k y s) (idle : y.Idle) {l : Nat} {p : Page} (found : (s.sess j).page? l = some p) : j ≠ k := by
  rintro rfl
  rw [h.2] at found
  unfold Sess.page? at found
  rw [idle.pages] at found
  exact nomatch found

theorem SessIs.ne_of_st (h : SessIs k y s) (idle : y.Idle) {st : SSt} (state : (s.sess j).st = st) (used : st ≠ .free) : j ≠ k := by
  rintro rfl
  rw [h.2, idle.st] at state
  exact used state.symm

/-! ## Pages and their moves -/

theorem SessIs.addMove (h : SessIs k y s) (idle : y.Idle) (m : Move) : SessIs k y (s.addMove m) := by
  have kept := SessIs.stable (T := pageMoves) rfl k y
  unfold State.addMove
  dsimp only
  split
  · exact h
  · next found =>
    exact when_keeps (P := SessIs k y) (fun u hu => when_keeps (P := SessIs k y) (fun u hu => State.trackWait_keeps (kept.mono rfl) _ _ hu) (kept.ev rfl _ _ _ _ _ _ _ hu))
      (State.startMoves_keeps (kept.mono rfl) _ (kept.tm rfl _ _ (h.other (h.ne_of_page idle found) _)))

theorem SessIs.failMove (h : SessIs k y s) (idle : y.Idle) (m : Move) : SessIs k y (s.failMove m) := by
  have kept := SessIs.stable (T := pageMoves) rfl k y
  unfold State.failMove
  dsimp only
  have ended : SessIs k y ((s.freeDest m).endMove m) := State.endMove_keeps (kept.mono rfl) _ _ (State.freeDest_keeps (kept.mono rfl) _ _ h)
  split
  · next found => exact ended.other (ended.ne_of_page idle found) _
  · exact ended

variable (n : j ≠ k)
include n

theorem SessIs.dropOne (h : SessIs k y s) (l : Nat) : SessIs k y (s.dropOne j l) := by
  have kept := SessIs.stable (T := pageMoves) rfl k y
  unfold State.dropOne
  dsimp only
  split
  · exact h
  · exact State.invalidate_keeps (kept.mono rfl) _ _ _ (State.freeHome_keeps (kept.mono rfl) _ _ _ (h.other n _))

theorem SessIs.dropPage (h : SessIs k y s) (l : Nat) : SessIs k y (s.dropPage j l) := by
  unfold State.dropPage
  dsimp only
  have leaf := (h.dropOne n l).dropOne n (leafLpn (l / 8192))
  split
  · exact h.dropOne n l
  · split
    · exact leaf
    · exact leaf.dropOne n _

theorem SessIs.dropDraft (h : SessIs k y s) : SessIs k y (s.dropDraft j) := by
  unfold State.dropDraft
  dsimp only
  split
  · have dropped : SessIs k y (s.each ((s.sess j).pages.filter fun e => isKv e.1 && decide ((s.model (s.sess j).model).draftBase ≤ e.1) && !e.2.moving) fun e s => s.dropPage j e.1) := each_keeps (P := SessIs k y) (fun e u hu => hu.dropPage n e.1) h
    exact dropped.other n _
  · exact h

theorem SessIs.poison (h : SessIs k y s) (l src : Nat) (detail : Bytes) : SessIs k y (s.poison j l src detail) := by
  have kept := SessIs.stable (T := .journal :: pageMoves) rfl k y
  unfold State.poison
  dsimp only
  split
  · exact h
  · split
    · exact h
    · exact State.invalidate_keeps (kept.mono rfl) _ _ _ (kept.journal rfl _ _ _ _ _ _ _ _ (kept.ev rfl _ _ _ _ _ _ _ (kept.ctr rfl _ _ _ _ _ rfl
        (when_keeps (P := SessIs k y) (fun u hu => State.setFrame_keeps (kept.mono rfl) _ _ _ _ _ hu) (h.other n _)))))

/-! ## States of a session -/

theorem SessIs.toState (h : SessIs k y s) (st : SSt) : SessIs k y (s.toState j st) := by
  unfold State.toState
  dsimp only
  have set := h.other n { s.sess j with st := st, since := s.pk.current }
  split
  · exact set.ev _ _ _ _ _ _
  · split
    · exact set.ev _ _ _ _ _ _
    · exact set

theorem SessIs.beginMoving (h : SessIs k y s) (a b : Nat) : SessIs k y (s.beginMoving j a b) := by
  unfold State.beginMoving
  dsimp only
  exact (((h.dropDraft n).other n _).toState n _).other n _

theorem SessIs.releaseHeld (h : SessIs k y s) : SessIs k y (s.releaseHeld j) := by
  have kept := SessIs.stable (T := pageMoves) rfl k y
  unfold State.releaseHeld
  exact each_keeps (P := SessIs k y) (fun e u hu => SessIs.other (State.freeHome_keeps (kept.mono rfl) _ _ _ hu) n _) h

theorem SessIs.backToPrior (h : SessIs k y s) : SessIs k y (s.backToPrior j) := by
  unfold State.backToPrior
  dsimp only
  exact (when_keeps (P := SessIs k y) (fun u hu => hu.ev _ _ _ _ _ _) (h.releaseHeld n)).other n _

theorem SessIs.endRunOther (h : SessIs k y s) (a b c : Nat) : SessIs k y (s.endRun j a b c) := by
  unfold State.endRun
  dsimp only
  split
  · exact h
  · exact (h.other n _).endDesc _ _ _ _ _

theorem SessIs.endHeadOther (h : SessIs k y s) (a b : Nat) : SessIs k y (s.endHead j a b) := by
  have popped : SessIs k y (s.popHead j) := by
    unfold State.popHead
    dsimp only
    split
    · exact h
    · exact (h.other n _).ev _ _ _ _ _ _
  unfold State.endHead
  split
  · exact h
  · exact (popped.other n _).endDesc _ _ _ _ _

theorem SessIs.freeSlotOther (h : SessIs k y s) (flags : Nat) : SessIs k y (s.freeSlotOf j flags) := by
  unfold State.freeSlotOf
  dsimp only
  exact each_keeps (P := SessIs k y) (fun q u hu => hu.endDesc _ _ _ _ _) ((h.other n _).ev _ _ _ _ _ _)

omit n in
theorem SessIs.freeAll (h : SessIs k y s) (idle : y.Idle) (i : Nat) : SessIs k y (s.freeAll i) := by
  have kept := SessIs.stable (T := pageMoves) rfl k y
  unfold State.freeAll
  dsimp only
  exact each_keeps (P := SessIs k y) (fun e u hu => State.invalidate_keeps (kept.mono rfl) _ _ _ (State.freeHome_keeps (kept.mono rfl) _ _ _ hu))
    (each_keeps (P := SessIs k y) (fun e u hu => State.freeFrame_keeps (kept.mono rfl) _ _ _ _ _ hu) (each_keeps (P := SessIs k y) (fun m u hu => hu.failMove idle m) h))

theorem SessIs.failSession (h : SessIs k y s) (idle : y.Idle) (status : Nat) : SessIs k y (s.failSession j status) := by
  unfold State.failSession
  dsimp only
  have failed : SessIs k y (s.each (s.tm.moves.filter fun m => m.k == j) fun m s => s.failMove m) := each_keeps (P := SessIs k y) (fun m u hu => hu.failMove idle m) h
  generalize (s.each (s.tm.moves.filter fun m => m.k == j) fun m s => s.failMove m) = v at failed ⊢
  have home : SessIs k y (if status = stPageLost then (v.releaseHeld j).toState j .halted else v.backToPrior j) := by
    split
    · exact (failed.releaseHeld n).toState n _
    · exact failed.backToPrior n
  split
  · exact ((failed.endRunOther n _ _ _).freeAll idle j).freeSlotOther n _
  · split
    · exact (home.other n _).endHeadOther n _ _
    · exact home.endRunOther n _ _ _

theorem SessIs.meetStale (h : SessIs k y s) (idle : y.Idle) {go : State → State} (goes : ∀ u, SessIs k y u → SessIs k y (go u)) : SessIs k y (s.meetStale j go) := by
  unfold State.meetStale
  split
  · exact goes _ h
  · exact SessIs.failSession n (each_keeps (P := SessIs k y) (fun e u hu => hu.poison n _ _ _) h) idle _

end

/-! ## Eviction and waiting allocations -/

section
variable {k j : Nat} {y : Sess} {s : State} (idle : y.Idle)
include idle

theorem SessIs.evictDeep (h : SessIs k y s) (c : Nat) (only : Option Nat) : SessIs k y (s.evictDeep c only) := by
  have kept := SessIs.stable (T := pageMoves) rfl k y
  unfold State.evictDeep
  split
  · exact h
  · dsimp only
    split
    · next deep =>
      split
      · exact State.pinWait_keeps (kept.mono rfl) _ _ h
      · exact (h.of (State.touchEntry_tbl _ _)).beginMoving (h.ne_of_st idle deep.2 (by decide)) _ _
    · split
      · next e =>
        exact SessIs.addMove ((OkOpt.bind (Q := fun _ => True) (R := fun p : Nat × Nat × State => SessIs k y p.2.2) OkOpt.any (fun r _ => OkOpt.map (State.takeFar_keeps (kept.mono rfl) s _ r c h) fun b hb => hb)) _ e) idle _
      · exact h

theorem SessIs.evictOne (h : SessIs k y s) (c tier : Nat) (only : Option Nat) : SessIs k y (s.evictOne c tier only) := by
  have kept := SessIs.stable (T := pageMoves) rfl k y
  unfold State.evictOne
  split
  · exact h
  · split
    · split
      · exact h
      · next i l p _ =>
        dsimp only
        split
        · next e => exact SessIs.addMove (OkOP.get e (State.takeFrame_keeps (kept.mono rfl) s (s.sess i).dom c 1 h)) idle _
        · exact h.evictDeep idle _ _
    · exact h.evictDeep idle _ _

theorem SessIs.starve (h : SessIs k y s) (d tier : Nat) (cs : List Nat) : SessIs k y (s.starve d tier cs) := by
  unfold State.starve
  split
  · split
    · exact h.evictOne idle _ _ _
    · exact h
  · exact each_keeps (P := SessIs k y) (fun c u hu => SessIs.evictOne idle ((SessIs.stable (T := [.tm]) rfl k y).tm rfl _ _ hu) _ _ _) h

variable (n : j ≠ k)
include n

theorem SessIs.allocWait (h : SessIs k y s) (tier : Nat) : SessIs k y (s.allocWait j tier) := by
  have kept := SessIs.stable (T := [.ctr, .ev]) rfl k y
  unfold State.allocWait
  dsimp only
  split
  · exact kept.ev rfl _ _ _ _ _ _ _ (kept.ctr rfl _ _ _ _ _ rfl (h.other n _))
  · exact SessIs.starve idle (kept.ev rfl _ _ _ _ _ _ _ (kept.ctr rfl _ _ _ _ _ rfl (h.other n _))) _ _ _

omit idle in
theorem SessIs.landImport (h : SessIs k y s) : OkO (SessIs k y) (s.landImport j) := by
  have kept := SessIs.stable (T := pageMoves) rfl k y
  unfold State.landImport
  refine OkOpt.fold (fun o e ho => OkOpt.bind ho fun b hb => OkOpt.find fun ch => OkOpt.map (State.takeFrame_keeps (kept.mono rfl) b _ _ 1 hb) fun r hr => ?_) (OkOpt.some h)
  dsimp only
  exact SessIs.other (State.written_keeps (kept.mono rfl) r.2 _ ch 1 _ hr).snd n _

theorem SessIs.issueMoves (h : SessIs k y s) : SessIs k y (s.issueMoves j) := by
  unfold State.issueMoves
  dsimp only
  split
  · exact h
  · split
    · split
      · exact h.allocWait idle n _
      · next e => exact (OkO.get e (h.landImport n)).other n _
    · refine h.meetStale n idle fun u hu => ?_
      split
      · exact hu.allocWait idle n _
      · next e =>
        exact each_keeps (P := SessIs k y) (fun m v hv => hv.addMove idle m) (SessIs.other (OkOP.get e (State.reserveAll_keeps ((SessIs.stable (T := pageMoves) rfl k y).mono rfl) u j hu)) n _)

end

/-! ## A record that goes on, and the drain (R40, R159) -/

section
variable {k j : Nat} {y : Sess} {s : State} (n : j ≠ k)
include n

theorem SessIs.exportBegin (h : SessIs k y s) : SessIs k y (s.exportBegin j) := by
  unfold State.exportBegin
  dsimp only
  split
  · exact h
  · exact h.other n _

theorem SessIs.exportReads (h : SessIs k y s) : SessIs k y (s.exportReads j) := by
  have kept := SessIs.stable (T := pageMoves) rfl k y
  unfold State.exportReads
  refine each_keeps (P := SessIs k y) (fun l u hu => ?_) h
  dsimp only
  split
  · next taken =>
    split
    · exact State.bulkRead_keeps (kept.mono rfl) _ _ _ _ _ _ _ (SessIs.other (OkOP.get taken (State.takeSlot_keeps (kept.mono rfl) u _ _ hu)) n _)
    · exact hu
  · exact hu

theorem SessIs.exportWrite (h : SessIs k y s) (a b c d : Nat) : SessIs k y (s.exportWrite j a b c d) := by
  have kept := SessIs.stable (T := pageMoves) rfl k y
  unfold State.exportWrite
  dsimp only
  refine State.bulkFlush_keeps (kept.mono rfl) _ _ _ (SessIs.other (each_keeps (P := SessIs k y) (fun e u hu => State.bulkWrite_keeps (kept.mono rfl) _ _ _ _ _ _ hu) ?_) n _)
  refine State.written_keeps (kept.mono rfl) _ _ _ _ _ (foldP_keeps (fun r l hr => ?_) (OkP.mk h))
  split
  · exact hr
  · refine OkP.mk ?_
    split
    · exact State.written_keeps (kept.mono rfl) _ _ _ _ _ hr
    · exact hr

theorem SessIs.exportPump (h : SessIs k y s) : SessIs k y (s.exportPump j) := by
  unfold State.exportPump
  dsimp only
  have read := h.exportReads n
  split
  · exact h
  · split
    · split
      · exact read.exportWrite n _ _ _ _
      · exact read
    · exact read

theorem SessIs.askPeer (h : SessIs k y s) (peer : Nat) : SessIs k y (s.askPeer j peer) := by
  have kept := SessIs.stable (T := .dx :: pageMoves) rfl k y
  unfold State.askPeer
  dsimp only
  exact State.sendMsg_keeps (kept.mono rfl) _ _ (kept.dx rfl _ _ (SessIs.other (when_keeps (P := SessIs k y) (fun u hu => (hu.of (State.touchEntry_tbl _ _)).beginMoving n _ _) h) n _))

variable (idle : y.Idle)
include idle

theorem SessIs.drainFar (h : SessIs k y s) : SessIs k y (s.drainFar j) := by
  unfold State.drainFar
  dsimp only
  generalize (if (s.sess j).st = .condensed then 0 else 1) = content
  split
  · exact h.of rfl
  · split
    · exact h
    · generalize hv : ({ s with pw := _ } : State) = v
      have same : v.ss.tbl = s.ss.tbl := hv ▸ rfl
      exact SessIs.exportPump n (SessIs.exportBegin n (SessIs.issueMoves idle n (SessIs.beginMoving n (SessIs.of (h.of same) (State.touchEntry_tbl _ _)) _ _)))

theorem SessIs.drainTry (h : SessIs k y s) (i : Nat) : SessIs k y (s.drainTry j i) := by
  have home : SessIs k y (s.when (decide ((s.sess j).st = .moving)) fun s => s.backToPrior j) := when_keeps (P := SessIs k y) (fun u hu => hu.backToPrior n) h
  unfold State.drainTry
  dsimp only
  generalize (if s.reg Dict.packageDrainTarget = 0 && s.sealed (chOf j) then 1 else if s.reg Dict.packageDrainTarget = 2 && s.sealed (chOf j) then 3 else s.reg Dict.packageDrainTarget) = target
  split
  · exact h.askPeer n _
  · split
    · exact home.of rfl
    · exact home.drainFar n idle

end

theorem SessIs.drainFlush {k : Nat} {y : Sess} {s : State} (h : SessIs k y s) : SessIs k y s.drainFlush := State.drainFlush_keeps (SessIs.stable rfl k y) s h

/-- A FREE slot is not taken up by the drain (R40). -/
theorem SessIs.drainPump {k : Nat} {y : Sess} {s : State} (h : SessIs k y s) (idle : y.Idle) : SessIs k y s.drainPump := by
  have tries : ∀ u : State, SessIs k y u → SessIs k y (u.each (u.ss.tbl.map (·.1)) fun j s => if s.drainable j && !s.pinFull j then s.drainTry j 0 else s) := fun u hu => by
    refine each_keeps (P := SessIs k y) (fun j v hv => ?_) hu
    split
    · next taken =>
      refine hv.drainTry ?_ idle _
      rintro rfl
      have free : (v.sess j).st = .free := by rw [hv.2, idle.st]
      unfold State.drainable at taken
      dsimp only at taken
      rw [free] at taken
      exact nomatch taken
    · exact hv
  have begun : SessIs k y (if s.draining && decide (s.pw.drainStep = 2) && s.sv.run.isNone then (if s.pw.drainSkip then s.drainFlush else { s with pw := { s.pw with drainStep := 3 } }) else s) := by
    split
    · split
      · exact SessIs.drainFlush h
      · exact h
    · exact h
  unfold State.drainPump
  dsimp only at begun ⊢
  generalize (if (s.draining && decide (s.pw.drainStep = 2) && s.sv.run.isNone) = true then (if s.pw.drainSkip = true then s.drainFlush else { s with pw := { s.pw with drainStep := 3 } }) else s) = v at begun ⊢
  split
  · split
    · exact (tries _ begun).drainFlush
    · exact tries _ begun
  · exact begun

end Sys2Proof.Machine
end

section
/-! SUPPORT. O46: MIGRATE_COMMIT_ACK and MIGRATION_TIMEOUT, and the proof of the statement. -/

namespace Sys2Proof.Machine

open Sys2Proof

/-! ## The source's entry is freed (R203, R435) -/

/-- The entry of a slot that is FREE again (R140, R145). -/
def Sess.vacant (x : Sess) (gen : Nat) : Sess := { gen := genNext gen, head := (x.head + x.ring.length) % 65536, tail := x.tail }

theorem Sess.vacant_idle (x : Sess) (gen : Nat) : (x.vacant gen).Idle := ⟨rfl, rfl⟩

theorem freeSlotOf_vacates {w : State} {k : Nat} {x : Sess} {gen : Nat} (core : CoreIs k x.core w) (same : w.genOf k = gen) (flags : Nat) : SessIs k (x.vacant gen) (w.freeSlotOf k flags) := by
  obtain ⟨ring, -, head, -⟩ := kept_of_core core.2
  obtain ⟨-, tail, -, -⟩ := slot_of_core core.2
  unfold State.freeSlotOf
  dsimp only
  rw [same, head, ring, tail]
  exact each_keeps (P := SessIs k (x.vacant gen)) (fun q u hu => hu.endDesc _ _ _ _ _) ((core.is.set (x.vacant gen)).ev _ _ _ _ _ _)

/-- A session that has left frees its slot and its frames, and the drain goes on without it. -/
theorem leaves_vacant {s : State} {k : Nat} {x : Sess} (entry : SessIs k x s) (flags : Nat) : SessIs k (x.vacant (s.genOf k)) ((s.freeAll k).freeSlotOf k flags).drainPump := by
  obtain ⟨core, gen, -⟩ := freeAll_slot entry
  exact (freeSlotOf_vacates core gen flags).drainPump (x.vacant_idle _)

/-- What MIGRATE_COMMIT_ACK does, by the transfer that it acknowledges. -/
def State.acked (v : State) (e : DEnv) (status : Nat) : Option MigOut → State
  | none => v
  | some m =>
    if status = 0 then ((({ v with dx := { v.dx with out := v.dx.out.filter fun y => y.id != m.id } } : State).freeAll m.k).freeSlotOf m.k flStale).drainPump
    else if status = 3 then v.sendPages m e.aux else v

section
variable {s : State} {e : DEnv} (t : Nat) (h : s.Arrives e true) (status : Nat)
include h

theorem migrateCommitAck_does : ∃ v, s.Met t e.src v ∧ ∀ hit, (s.dx.out.find? fun m => m.id == e.mid && m.peer == e.src && m.step == 3) = hit →
    exec (.migrateCommitAck t e status) s = .next (v.acked e status hit) := by
  obtain ⟨v, met, eq⟩ := exec_protected (i := .migrateCommitAck t e status) (execMigrateCommitAck.eq_1 t e status s) rfl h
  refine ⟨v, met, fun hit found => eq.trans ?_⟩
  have same : (v.dx.out.find? fun m => m.id == e.mid && m.peer == e.src && m.step == 3) = hit := by rw [met.outs, found]
  rw [same]
  cases hit <;> rfl

theorem migrateCommitAck_none (found : (s.dx.out.find? fun m => m.id == e.mid && m.peer == e.src && m.step == 3) = none) :
    ∃ u, exec (.migrateCommitAck t e status) s = .next u ∧ (s.at t).sameBut (.warp :: noted) u := by
  obtain ⟨v, met, does⟩ := migrateCommitAck_does t h status
  exact ⟨v, does _ found, met.same⟩

variable {m : MigOut} (found : (s.dx.out.find? fun m => m.id == e.mid && m.peer == e.src && m.step == 3) = some m)
include found

theorem migrateCommitAck_frees (tables : Tbl.sorted s.ss.tbl) (done : status = 0) : ∃ u, exec (.migrateCommitAck t e status) s = .next u ∧ u.sess m.k = (s.sess m.k).vacant (s.genOf m.k) := by
  obtain ⟨v, met, does⟩ := migrateCommitAck_does t h status
  have does := does _ found
  dsimp only [State.acked] at does
  rw [if_pos done] at does
  generalize hw : ({ v with dx := _ } : State) = w at does
  have entry : SessIs m.k (s.sess m.k) w := SessIs.of ⟨tables, rfl⟩ (hw ▸ congrArg Sessions.tbl met.ss)
  have gen : w.genOf m.k = s.genOf m.k := by obtain ⟨p, r, rfl⟩ := met.only; subst hw; rfl
  exact ⟨_, does, gen ▸ (leaves_vacant entry flStale).2⟩

theorem migrateCommitAck_again (missing : status = 3) : ∃ u, exec (.migrateCommitAck t e status) s = .next u ∧ u.dx.out = s.dx.out ∧ u.ss = s.ss ∧
    (u.sends fun y => y.is 0x07 m.peer (some (s.sess m.k).dom) m.id 0) ∧ ∀ g ∈ (s.sess m.k).pages, e.aux ≤ g.1 → g.2.tier ≠ 3 → u.sends fun y => y.is 0x06 m.peer (some (s.sess m.k).dom) m.id g.1 := by
  obtain ⟨v, met, does⟩ := migrateCommitAck_does t h status
  have does := does _ found
  dsimp only [State.acked] at does
  rw [if_neg (by omega), if_pos missing] at does
  have x : v.sess m.k = s.sess m.k := by unfold State.sess; rw [met.ss]
  obtain ⟨ss, outs, last, pages⟩ := sendPages_does met.linked m e.aux
  rw [x] at last pages
  exact ⟨_, does, outs.trans met.outs, ss.trans met.ss, last.imp fun y hy => ⟨hy.1.1, hy.2⟩, pages⟩

theorem migrateCommitAck_other (unknown : status ≠ 0) (still : status ≠ 3) : ∃ u, exec (.migrateCommitAck t e status) s = .next u ∧ (s.at t).sameBut (.warp :: noted) u := by
  obtain ⟨v, met, does⟩ := migrateCommitAck_does t h status
  have does := does _ found
  dsimp only [State.acked] at does
  rw [if_neg unknown, if_neg still] at does
  exact ⟨v, does, met.same⟩

end

/-! ## A transfer that takes too long (R436) -/

/-- The time for a transfer that began then is over. -/
def State.pastTransfer (s : State) (t since : Nat) : Bool := decide (since + 1000000000 * s.reg Dict.packageDrainTimeout ≤ Nat.max s.now t)

section
variable {s : State} (t : Nat) {peer id : Nat}

theorem migrationTimeout_does (live : s.live = true) (low : peer < 64) : exec (.migrationTimeout t peer id) s = .next
    (let v := match s.dx.out.find? fun m => m.id == id && m.peer == peer && s.pastTransfer t m.since with
      | some m => if ((s.at t).dropOut m).draining then ((s.at t).dropOut m).drainTry m.k (m.peer + 1) else (s.at t).dropOut m
      | none => s.at t
    match v.dx.inn.find? fun m => m.src == peer && m.id == id && !m.committed && s.pastTransfer t m.since with
    | some m => v.dropIn m
    | none => v) :=
  (execMigrationTimeout.eq_1 t peer id s).trans (run_wf (i := .migrationTimeout t peer id) _ (decide_eq_true low) live)

theorem dropIn_keeps' {P : State → Prop} (h : Stable [.tm] P) {s : State} (m : MigIn) (hs : P { s with dx := { s.dx with inn := s.dx.inn.filter fun (y : MigIn) => !(y.src == m.src && y.id == m.id) } }) : P (s.dropIn m) := by
  unfold State.dropIn
  dsimp only
  split
  · exact hs
  · exact each_keeps (P := P) (fun f u hu => State.unreserve_keeps h _ _ _ hu) hs

/-- A transfer that is given up is known no more. -/
theorem dropIn_gone (s : State) (m : MigIn) : (s.dropIn m).migIn m.src m.id = none ∧ (s.dropIn m).dx.out = s.dx.out ∧ (s.dropIn m).ss = s.ss := by
  have dx : (s.dropIn m).dx = { s.dx with inn := s.dx.inn.filter fun (y : MigIn) => !(y.src == m.src && y.id == m.id) } := dropIn_keeps' (P := fun u => u.dx = _) (frame_dx rfl _) m rfl
  refine ⟨?_, (congrArg Dernyx.out dx :), dropIn_keeps' (P := fun u => u.ss = s.ss) (frame_ss rfl s) m rfl⟩
  unfold State.migIn
  rw [dx, List.find?_eq_none]
  intro y hy same
  have := (List.mem_filter.mp hy).2
  rw [same] at this
  cases this

variable (live : s.live = true) (low : peer < 64)
include live low

theorem migrationTimeout_none (out : (s.dx.out.find? fun m => m.id == id && m.peer == peer && s.pastTransfer t m.since) = none)
    (inn : (s.dx.inn.find? fun m => m.src == peer && m.id == id && !m.committed && s.pastTransfer t m.since) = none) : exec (.migrationTimeout t peer id) s = .next (s.at t) := by
  rw [migrationTimeout_does t live low, out]
  dsimp only
  rw [show (s.at t).dx = s.dx from rfl, inn]

theorem migrationTimeout_source (tables : Tbl.sorted s.ss.tbl) (idle : s.draining = false) {m : MigOut} (out : (s.dx.out.find? fun m => m.id == id && m.peer == peer && s.pastTransfer t m.since) = some m)
    (inn : (s.dx.inn.find? fun m => m.src == peer && m.id == id && !m.committed && s.pastTransfer t m.since) = none) : ∃ u, exec (.migrationTimeout t peer id) s = .next u ∧ (∀ y ∈ u.dx.out, y.id ≠ id) ∧
      ((s.sess m.k).st = .moving → (u.sess m.k).st = (s.sess m.k).prior) ∧ u.dx.inn = s.dx.inn := by
  have own : m.id = id := by
    have := List.find?_some out
    simp only [Bool.and_eq_true, beq_iff_eq] at this
    exact this.1.1
  have drain : ((s.at t).dropOut m).draining = s.draining := by
    have pw : ((s.at t).dropOut m).pw = s.pw := dropOut_keeps' (P := fun u => u.pw = s.pw) (frame_pw rfl s) m rfl
    have sv : ((s.at t).dropOut m).sv = s.sv := dropOut_keeps' (P := fun u => u.sv = s.sv) (frame_sv rfl s) m rfl
    unfold State.draining
    rw [pw, sv]
  have same : ((s.at t).dropOut m).dx.inn = s.dx.inn := (congrArg Dernyx.inn (dropOut_dx (s.at t) m) :)
  have does := migrationTimeout_does (id := id) t live low
  rw [out] at does
  dsimp only at does
  rw [drain, idle, if_neg Bool.false_ne_true, same, inn] at does
  refine ⟨_, does, own ▸ dropOut_gone (s.at t) m, fun moving => ?_, same⟩
  have core : CoreIs m.k (s.sess m.k).core (s.at t) := ⟨tables, rfl⟩
  exact (congrArg Sess.st (dropOut_core m rfl core moving).2 :)

theorem migrationTimeout_target (out : (s.dx.out.find? fun m => m.id == id && m.peer == peer && s.pastTransfer t m.since) = none) {m : MigIn}
    (inn : (s.dx.inn.find? fun m => m.src == peer && m.id == id && !m.committed && s.pastTransfer t m.since) = some m) : ∃ u, exec (.migrationTimeout t peer id) s = .next u ∧ u.migIn peer id = none ∧
      u.dx.out = s.dx.out ∧ u.ss = s.ss := by
  have own : m.src = peer ∧ m.id = id := by
    have := List.find?_some inn
    simp only [Bool.and_eq_true, beq_iff_eq] at this
    exact this.1.1
  obtain ⟨src, key⟩ := own
  have does := migrationTimeout_does (id := id) t live low
  rw [out] at does
  dsimp only at does
  rw [show (s.at t).dx = s.dx from rfl, inn] at does
  obtain ⟨gone, outs, ss⟩ := dropIn_gone (s.at t) m
  exact ⟨_, does, src ▸ key ▸ gone, outs, ss⟩

end

/-- Settles O46, message by message: each of the exchange's messages finds the state in which its source has been heard; what it then does is said of each above, and the drain that goes on after a session has left does not
take up its FREE slot. -/
theorem migrationMovesASession : Obligations.MigrationMovesASession := by
  intro s t live linked tables queues z known replies
  refine ⟨fun e x h => ?_, fun e h => ?_, fun e p h => ?_, fun e x ok h => ?_, fun e status h => ?_, fun peer low id => ?_⟩
  · exact ⟨fun m hm => migrateReserve_known t h x m hm, fun fresh place => migrateReserve_turned t h x fresh 2 (.inl ⟨rfl, place⟩),
      fun fresh k place got => migrateReserve_turned t h x fresh 1 (.inr ⟨rfl, ⟨k, place⟩, (reserveSum_fst s x).trans got⟩),
      fun fresh k fs place got => migrateReserve_takes t h x fresh k fs place ((reserveSum_fst s x).trans got)⟩
  · exact ⟨fun found => migrateReply_none t h found, fun m found => ⟨migrateReply_sends t h found, migrateReply_returns t h found tables, fun refused drains target unsealed p more => migrateReply_asks t h found refused drains target unsealed⟩⟩
  · refine ⟨fun fresh => pageData_unknown t h p fresh, fun m hm => ⟨fun closed => pageData_closed t h p hm closed, fun good pending => ?_⟩⟩
    have opened : ¬(m.reply ≠ 0 ∨ m.committed = true) := by rw [good, pending]; decide
    refine ⟨fun bad => ?_, fun fine page => ?_⟩
    · obtain ⟨u, does, kept, counted, told⟩ := pageData_bad t h p hm opened bad
      exact ⟨⟨u, does, kept⟩, fun sorted => ⟨u, does, counted sorted, told⟩⟩
    · have whole : ¬(p.ok = false ∨ p.lpn ≠ e.aux) := by rw [fine, page]; simp
      exact ⟨fun y held => pageData_again t h p hm opened whole held, fun fresh => pageData_new t h p hm opened whole fresh⟩
  · intro i need lacks answers m hm good
    exact ⟨fun committed => migrateCommit_again t h x ok hm good committed, fun pending some' => migrateCommit_lacks t h x ok hm good pending some',
      fun pending whole st model state place room => migrateCommit_lands t h x ok hm good pending tables queues whole state place room⟩
  · exact ⟨fun found => migrateCommitAck_none t h status found, fun m found => ⟨migrateCommitAck_frees t h status found tables, migrateCommitAck_again t h status found, migrateCommitAck_other t h status found⟩⟩
  · exact ⟨fun out inn => migrationTimeout_none t live low out inn, fun idle m out inn => migrationTimeout_source t live low tables idle out inn, fun out m inn => migrationTimeout_target t live low out inn⟩

end Sys2Proof.Machine
end

section
/-! SUPPORT. O42: a flow's receiving side through what is sent on it. -/

namespace Sys2Proof.Machine

open Sys2Proof

/-! ## A flow but for what sending on it, and acknowledging, changes -/

/-- A flow's configuration and receiving side. -/
def Flow.still (x : Flow) : Flow := { x with tx := 0, unacked := [], waiting := [], ops := [], port := none, rtoAt := none, rxCount := 0, rxSince := none, unplaced := false }

/-- Flow f's configuration and receiving side are c's, in a table in order. -/
def FlowIs (f : Nat) (c : Flow) (u : State) : Prop := Tbl.sorted u.sl.flows ∧ (u.flow f).still = c

theorem flow_setFlow {s : State} (h : Tbl.sorted s.sl.flows) (f g : Nat) (x : Flow) : (s.setFlow f x).flow g = if g = f then x else s.flow g := by
  unfold State.flow State.setFlow
  dsimp only
  rw [Tbl.get_put h]

theorem setFlow_sorted {s : State} (h : Tbl.sorted s.sl.flows) (f : Nat) (x : Flow) : Tbl.sorted (s.setFlow f x).sl.flows := Tbl.put_sorted h

/-- What changes nothing of the Slaisk block keeps every property of it. -/
theorem sl_stable {T : List Prim} (e : T.all Prim.keepsSl = true) (R : Slaisk → Prop) : Stable T (fun u => R u.sl) := by
  intro p hp
  have kept := List.all_eq_true.mp e p hp
  cases p <;> cases kept
  all_goals intro s; intros; first
    | (show R _; rw [State.notifyVia_sl]; assumption)
    | (show R _; rw [State.journal_sl]; assumption)
    | (show R _; rw [State.ev_sl]; assumption)
    | assumption

section
variable {f : Nat} {c : Flow} {s : State}

theorem FlowIs.stable {T : List Prim} (e : T.all Prim.keepsSl = true) (f : Nat) (c : Flow) : Stable T (FlowIs f c) :=
  sl_stable e fun z => Tbl.sorted z.flows ∧ (Tbl.get ({} : Flow) z.flows f).still = c

theorem FlowIs.set (h : FlowIs f c s) (g : Nat) {x : Flow} (same : x.still = (s.flow g).still) : FlowIs f c (s.setFlow g x) := by
  refine ⟨setFlow_sorted h.1 g x, ?_⟩
  rw [flow_setFlow h.1]
  split
  · next own => rw [same, ← own]; exact h.2
  · exact h.2

/-- The flow itself is replaced. -/
theorem FlowIs.put (h : Tbl.sorted s.sl.flows) (f : Nat) (x : Flow) : FlowIs f x.still (s.setFlow f x) :=
  ⟨setFlow_sorted h f x, by rw [flow_setFlow h, if_pos rfl]⟩

/-! ## Packets (R378, R389, R392) -/

theorem FlowIs.emit (h : FlowIs f c s) (g : Nat) (p : TxPkt) : FlowIs f c (s.emit g p) := State.emit_keeps (FlowIs.stable rfl f c) s g p h

theorem FlowIs.armRto (h : FlowIs f c s) (g : Nat) : FlowIs f c (s.armRto g) := by
  unfold State.armRto
  dsimp only
  split
  · exact h.set g (by rfl)
  · exact h

theorem FlowIs.pump (h : FlowIs f c s) (g : Nat) : FlowIs f c (s.pump g) := by
  unfold State.pump
  dsimp only
  split
  · exact h
  · exact FlowIs.armRto (each_keeps (P := FlowIs f c) (fun p u hu => hu.emit g p) (h.set g (by rfl))) g

theorem FlowIs.txPacket (h : FlowIs f c s) (g op : Nat) (a b : Bool) (i j k l : Nat) (d : Bytes) (o : Option OpFor) : FlowIs f c (s.txPacket g op a b i j k l d o) := by
  unfold State.txPacket
  dsimp only
  split
  · exact FlowIs.pump (h.set g (by rfl)) g
  · exact h

theorem FlowIs.txWrite (h : FlowIs f c s) (g key off : Nat) (d : Bytes) (o : Option OpFor) : FlowIs f c (s.txWrite g key off d o) := by
  unfold State.txWrite
  dsimp only
  exact each_keeps (P := FlowIs f c) (fun i u hu => hu.txPacket _ _ _ _ _ _ _ _ _ _) (when_keeps (P := FlowIs f c) (fun u hu => hu.set g (by rfl)) h)

theorem FlowIs.txSend (h : FlowIs f c s) (g : Nat) (d : Bytes) : FlowIs f c (s.txSend g d) := h.txPacket _ _ _ _ _ _ _ _ _ _

theorem FlowIs.ev (h : FlowIs f c s) (a : Nat) (b : Option Nat) (i j : Nat) (k l : Option Nat) : FlowIs f c (s.ev a b i j k l) := (FlowIs.stable (T := [.ev]) rfl f c).ev rfl _ _ _ _ _ _ _ h

theorem FlowIs.txFlush (h : FlowIs f c s) (g : Nat) (w : OpFor) : FlowIs f c (s.txFlush g w) := by
  unfold State.txFlush
  dsimp only
  split
  · exact FlowIs.ev (FlowIs.txPacket (h.set g (by rfl)) _ _ _ _ _ _ _ _ _ _) _ _ _ _ _ _
  · exact h

/-! ## Completion records (R157, R404) -/

theorem FlowIs.setCq (h : FlowIs f c s) (d : Nat) (q : CQ) : FlowIs f c (s.setCq d q) := h

theorem FlowIs.writeRec (h : FlowIs f c s) (d : Nat) (r : Rec) : FlowIs f c (s.writeRec d r) := FlowIs.txWrite (h.setCq d _) _ _ _ _ _

theorem FlowIs.sendNotif (h : FlowIs f c s) (d : Nat) (r : Rec) : FlowIs f c (s.sendNotif d r) := by
  unfold State.sendNotif
  dsimp only
  split
  · exact ((h.txSend _ _).ev _ _ _ _ _ _).ev _ _ _ _ _ _
  · exact FlowIs.txFlush (h.setCq d _) _ _

theorem FlowIs.hubRose (h : FlowIs f c s) (d n : Nat) : FlowIs f c (s.hubRose d n) := State.hubRose_keeps (FlowIs.stable rfl f c) s d n h

theorem FlowIs.holdRec (h : FlowIs f c s) (d : Nat) (r : Rec) (a b : Bool) (n : Option Nat) : FlowIs f c (s.holdRec d r a b n) := FlowIs.hubRose (h.setCq d _) _ _

theorem FlowIs.postNotif (h : FlowIs f c s) (d : Nat) (r : Rec) : FlowIs f c (s.postNotif d r) := by
  unfold State.postNotif
  dsimp only
  split
  · exact h
  · split
    · exact h.sendNotif _ _
    · exact h.holdRec _ _ _ _ _

theorem FlowIs.record (h : FlowIs f c s) (d a b i j k l m : Nat) (w : Bool) (n : Option Nat) : FlowIs f c (s.record d a b i j k l m w n) := by
  unfold State.record State.postRec
  dsimp only
  split
  · exact when_keeps (P := FlowIs f c) (fun u hu => hu.postNotif _ _) (h.writeRec _ _)
  · exact h.holdRec _ _ _ _ _

theorem FlowIs.inc (h : FlowIs f c s) (e : Entry) (ro : e.acc = .ro) (n sub i : Nat) : FlowIs f c (s.inc e n sub i) := (FlowIs.stable (T := [.ctr]) rfl f c).ctrInc rfl _ _ _ _ _ ro h

theorem FlowIs.endDesc (h : FlowIs f c s) (q : QDesc) (a b i j : Nat) : FlowIs f c (s.endDesc q a b i j) := by
  unfold State.endDesc
  dsimp only
  exact FlowIs.ev (when_keeps (P := FlowIs f c) (fun u hu => hu.inc _ rfl _ _ _) (when_keeps (P := FlowIs f c) (fun u hu => (hu.inc _ rfl _ _ _).ev _ _ _ _ _ _) (h.record _ _ _ _ _ _ _ _ _ _))) _ _ _ _ _ _

theorem FlowIs.endDom (h : FlowIs f c s) (q : QDesc) (a b i : Nat) (n : Option Nat) : FlowIs f c (s.endDom q a b i n) := by
  unfold State.endDom
  dsimp only
  exact FlowIs.ev (when_keeps (P := FlowIs f c) (fun u hu => hu.inc _ rfl _ _ _) (when_keeps (P := FlowIs f c) (fun u hu => (hu.inc _ rfl _ _ _).ev _ _ _ _ _ _) (h.record _ _ _ _ _ _ _ _ _ _))) _ _ _ _ _ _

theorem FlowIs.endDrun (h : FlowIs f c s) (d id a b i : Nat) : FlowIs f c (s.endDrun d id a b i) := by
  unfold State.endDrun
  dsimp only
  split
  · exact h
  · exact State.leaveKept_keeps (FlowIs.stable rfl f c) _ _ (FlowIs.endDom (by exact h) _ _ _ _ _)

theorem FlowIs.releaseOne (h : FlowIs f c s) (d : Nat) : FlowIs f c (s.releaseOne d).1 := by
  unfold State.releaseOne
  dsimp only
  split
  · exact h
  · split
    · split
      · exact h.setCq _ _
      · split
        · exact FlowIs.sendNotif (h.setCq _ _) _ _
        · exact h
    · split
      · exact FlowIs.writeRec (h.setCq _ _) _ _
      · exact h

theorem FlowIs.releaseSome (h : FlowIs f c s) (n d : Nat) : FlowIs f c (State.releaseSome n d s) := by
  induction n generalizing s with
  | zero => exact h
  | succ n ih =>
    unfold State.releaseSome
    dsimp only
    split
    · exact ih (h.releaseOne d)
    · exact h.releaseOne d

theorem FlowIs.release (h : FlowIs f c s) (d : Nat) : FlowIs f c (s.release d) := State.fillHub_keeps (FlowIs.stable rfl f c) _ (h.releaseSome _ _)

/-! ## Descriptors that arrive (R146, R430) -/

theorem FlowIs.enqueue (h : FlowIs f c s) (k : Nat) (q : QDesc) : FlowIs f c (s.enqueue k q) := by
  unfold State.enqueue State.failDesc
  dsimp only
  split
  · exact h.endDesc _ _ _ _ _
  · split
    · exact h.endDesc _ _ _ _ _
    · split
      · exact ((h.inc _ rfl _ _ _).ev _ _ _ _ _ _).endDesc _ _ _ _ _
      · split
        · exact h.endDesc _ _ _ _ _
        · split
          · split
            · exact h.endDesc _ _ _ _ _
            · exact h
          · split
            · exact h
            · split
              · exact ((h.inc _ rfl _ _ _).ev _ _ _ _ _ _).endDesc _ _ _ _ _
              · exact h

theorem FlowIs.enqueueDom (h : FlowIs f c s) (d : Nat) (q : QDesc) : FlowIs f c (s.enqueueDom d q) := by
  unfold State.enqueueDom State.failDesc
  dsimp only
  split
  · exact h.endDesc _ _ _ _ _
  · split
    · exact h.endDom _ _ _ _ _
    · split
      · exact (h.ev _ _ _ _ _ _).endDom _ _ _ _ _
      · exact h

theorem FlowIs.forward (h : FlowIs f c s) (home k dom : Nat) (ds : List Desc) : FlowIs f c (s.forward home k dom ds) := by
  unfold State.forward State.failDesc
  dsimp only
  split
  · exact h
  · split
    · exact each_keeps (P := FlowIs f c) (fun d u hu => hu.endDesc _ _ _ _ _) (h.inc _ rfl _ _ _)
    · exact State.pumpForward_keeps (FlowIs.stable rfl f c) _ ((FlowIs.stable (T := [.dx]) rfl f c).dx rfl _ _ (FlowIs.ev (FlowIs.inc (by exact h) _ rfl _ _ _) _ _ _ _ _ _))

theorem FlowIs.sendSess (h : FlowIs f c s) (dev k dom : Nat) (ds : List Desc) : FlowIs f c (s.sendSess dev k dom ds) := by
  unfold State.sendSess State.failDesc
  dsimp only
  split
  · refine each_keeps (P := FlowIs f c) (fun d u hu => ?_) h
    split
    · exact FlowIs.endDesc (when_keeps (P := FlowIs f c) (fun v hv => hv.ev _ _ _ _ _ _) hu) _ _ _ _ _
    · exact hu.enqueue _ _
  · refine FlowIs.forward (each_keeps (P := FlowIs f c) (fun d u hu => ?_) h) _ _ _ _
    split
    · exact hu.endDesc _ _ _ _ _
    · exact hu

theorem FlowIs.sendDom (h : FlowIs f c s) (dev dom : Nat) (ds : List Desc) : FlowIs f c (s.sendDom dev dom ds) := by
  unfold State.sendDom State.failDesc
  dsimp only
  split
  · exact each_keeps (P := FlowIs f c) (fun d u hu => hu.enqueueDom _ _) h
  · have failed : FlowIs f c (s.each (ds.filter fun d => !descForm domOps d) fun d s => s.endDesc { d := d, dom := dom } stBad 0 0 flMalformed) := each_keeps (P := FlowIs f c) (fun d u hu => hu.endDesc _ _ _ _ _) h
    split
    · exact failed.forward _ _ _ _
    · exact each_keeps (P := FlowIs f c) (fun d u hu => hu.endDesc _ _ _ _ _) failed

theorem FlowIs.landSend (h : FlowIs f c s) (t d : Nat) (b : Bytes) : FlowIs f c (s.landSend t d b) := by
  unfold State.landSend
  dsimp only
  split
  · exact FlowIs.sendSess (h.ev _ _ _ _ _ _) _ _ _ _
  · exact FlowIs.sendDom (h.ev _ _ _ _ _ _) _ _ _

end

end Sys2Proof.Machine
end

section
/-! SUPPORT. O42: the next packet of a flow is carried out, or refused. -/

namespace Sys2Proof.Machine

open Sys2Proof

/-! ## The state in which the next packet acts (R384-R388) -/

/-- A packet that its flow accepts is counted. -/
def State.received (s : State) (p : SPkt) : State := ((s.inc Dict.slaiskRxPackets).ev 0x181 none 1 p.flow (some p.domain)).ev 0x183 none (p.data.length / 1024) p.flow (some p.domain)

/-- A flow that has received its next packet at that time. -/
def Flow.heard (x : Flow) (now : Nat) : Flow := { x with rx := x.rx + 1, gap := false, rxCount := x.rxCount + 1, rxSince := if x.rxSince.isSome then x.rxSince else some now }

/-- The state in which the next packet of a flow acts. -/
def State.nextOf (s : State) (p : SPkt) : State := (s.received p).setFlow p.flow (((s.received p).flow p.flow).heard (s.received p).now)

/-- The answer to a packet, by what carrying it out gave. -/
def State.afterOp (v : State) (p : SPkt) (r : Nat × State) : State :=
  if r.1 ≠ 0 then ((r.2.sendAck p.flow true p.psn r.1).inc Dict.slaiskNakErrorCount).ev 0x187 none 1 p.flow (some p.domain)
  else if p.ackReq ∨ v.reg Dict.slaiskAckCoalesce ≤ (r.2.flow p.flow).rxCount then r.2.sendAck p.flow false p.psn 0 else r.2

theorem received_keeps {P : State → Prop} (h : Stable [.ctr, .ev] P) {s : State} (p : SPkt) (hs : P s) : P (s.received p) :=
  h.ev rfl _ _ _ _ _ _ _ (h.ev rfl _ _ _ _ _ _ _ (h.ctrInc rfl _ _ _ _ _ rfl hs))

theorem received_sl (s : State) (p : SPkt) : (s.received p).sl = s.sl := received_keeps (P := fun u => u.sl = s.sl) (frame_sl rfl s) p rfl

theorem received_flow (s : State) (p : SPkt) (f : Nat) : (s.received p).flow f = s.flow f := by
  unfold State.flow
  rw [received_sl]

theorem nextOf_keeps {P : State → Prop} (h : Stable [.ctr, .ev, .sl] P) {s : State} (p : SPkt) (hs : P s) : P (s.nextOf p) := h.sl rfl _ _ rfl (received_keeps (h.mono rfl) p hs)

theorem nextOf_flow {s : State} (sorted : Tbl.sorted s.sl.flows) (p : SPkt) : ((s.nextOf p).flow p.flow).still = ((s.flow p.flow).heard 0).still ∧ ((s.nextOf p).flow p.flow).ops = (s.flow p.flow).ops ∧
    ((s.nextOf p).flow p.flow).unacked = (s.flow p.flow).unacked ∧ ((s.nextOf p).flow p.flow).waiting = (s.flow p.flow).waiting ∧ Tbl.sorted (s.nextOf p).sl.flows := by
  have sorted' : Tbl.sorted (s.received p).sl.flows := by rw [received_sl]; exact sorted
  unfold State.nextOf
  rw [flow_setFlow sorted', if_pos rfl, received_flow]
  exact ⟨rfl, rfl, rfl, rfl, setFlow_sorted sorted' _ _⟩

variable {s : State} {p : SPkt}

theorem rxPacket_accepted (h : s.Accepted p) (t : Nat) (f : State → State) : (s.at t).rxPacket p f = f ((s.at t).received p) := by
  unfold State.rxPacket
  dsimp only
  have fatal : (s.at t).fa.fatal = false := h.sound
  have on : (s.at t).isOn (.port p.port) = true := h.on.2
  have vlan : (s.at t).vidOk p.port p.vid = true := h.vlan
  have ready : (s.at t).flowReady p.flow = true := h.ready
  have ports : bit ((s.at t).flow p.flow).cfg.ports p.port = true := h.ports
  have parity : ∀ b, (s.at t).parityOk p.domain b = s.parityOk p.domain b := fun _ => rfl
  have dom : p.domain = ((s.at t).flow p.flow).cfg.dom := h.dom
  rw [if_neg (by rw [on, vlan, fatal]; decide), if_neg (by rw [ready, ports, h.src]; rintro (q | q | q | q) <;> first | exact Bool.noConfusion q | exact q dom), if_neg, if_neg]
  · rfl
  · rw [parity]
    intro q
    obtain ⟨protects, fails⟩ := Bool.and_eq_true_iff.mp q
    obtain ⟨prot, tag, good⟩ := h.auth protects
    rw [prot, tag, good] at fails
    cases fails
  · rintro ⟨some, bad⟩
    rcases h.crc with none | good
    · exact some none
    · rw [good] at bad
      cases bad

/-- What the limit of a packet's payload depends on. -/
theorem formOk_nextOf (sorted : Tbl.sorted s.sl.flows) : (s.nextOf p).formOk p = s.formOk p := by
  have settings : s.sameSettings (s.nextOf p) := nextOf_keeps (frame_settings rfl s) p fun _ _ _ _ _ => rfl
  have cfg : ((s.nextOf p).flow p.flow).cfg = (s.flow p.flow).cfg := (congrArg Flow.cfg (nextOf_flow sorted p).1 :)
  have mtu : ∀ i, (s.nextOf p).reg Dict.ethMtu 0 i = s.reg Dict.ethMtu 0 i := fun i => settings _ (by decide) (by decide) 0 i
  have mtu' : ∀ i, (s.nextOf p).reg Dict.ethMtu i = s.reg Dict.ethMtu i := fun i => settings _ (by decide) (by decide) i 0
  unfold State.formOk State.payloadLimit
  rw [cfg]
  simp only [mtu']

/-- The next packet of a flow is carried out (R387). -/
theorem rxSeq_next (h : s.InOrder p) (t : Nat) (op : State → Nat × State) : (s.at t).rxSeq p op = ((s.at t).nextOf p).afterOp p (op ((s.at t).nextOf p)) := by
  have form : ((s.at t).nextOf p).formOk p = true := (formOk_nextOf (s := s.at t) h.flows).trans h.form
  have ahead : (p.psn + 2 ^ 24 - (((s.at t).received p).flow p.flow).rx % 2 ^ 24) % 2 ^ 24 = 0 := by
    rw [received_flow]
    exact h.next
  unfold State.rxSeq
  rw [rxPacket_accepted h.toAccepted, h.plain]
  show (if _ then _ else _) = _
  rw [show ((s.at t).received p).when false (fun s => (s.takeAck p.flow p.ackPsn).2) = (s.at t).received p from rfl, if_pos ahead]
  show State.afterOp ((s.at t).nextOf p) p (if ((s.at t).nextOf p).formOk p = true then op ((s.at t).nextOf p) else (0x15, (s.at t).nextOf p)) = _
  rw [if_pos form]

/-! ## Acknowledgements (R385, R387, R388) -/

/-- Flow p.flow's configuration and receiving side once its next packet has come, with that message open. -/
def State.nextFlow (s : State) (p : SPkt) (m : Option (Nat × Nat × Bytes)) : Flow := { ((s.flow p.flow).heard 0).still with msg := m }

/-- A state that carrying out the next packet led to: its flow has received the packet, and functions are as they were. -/
structure State.Did (s : State) (p : SPkt) (w : State) : Prop where
  flow : ∃ m, FlowIs p.flow (s.nextFlow p m) w
  fns : w.fns = s.fns

theorem nextOf_is (sorted : Tbl.sorted s.sl.flows) : FlowIs p.flow (s.nextFlow p (s.flow p.flow).msg) (s.nextOf p) := by
  obtain ⟨still, -, -, -, order⟩ := nextOf_flow sorted p
  exact ⟨order, still⟩

theorem nextOf_fns : (s.nextOf p).fns = s.fns := nextOf_keeps (P := fun u => u.fns = s.fns) (frame_fns rfl s) p rfl

theorem nextOf_did (sorted : Tbl.sorted s.sl.flows) : s.Did p (s.nextOf p) := ⟨⟨_, nextOf_is sorted⟩, nextOf_fns⟩

theorem State.Did.reads {w : State} (h : s.Did p w) : (w.flow p.flow).rx = (s.flow p.flow).rx + 1 ∧ (w.flow p.flow).gap = false ∧ (w.flow p.flow).ctrTx = (s.flow p.flow).ctrTx ∧ w.flowPort p.flow = s.flowPort p.flow ∧
    Tbl.sorted w.sl.flows := by
  obtain ⟨⟨m, sorted, flow⟩, fns⟩ := h
  have cfg : (w.flow p.flow).cfg = (s.flow p.flow).cfg := (congrArg Flow.cfg flow :)
  refine ⟨(congrArg Flow.rx flow :), (congrArg Flow.gap flow :), (congrArg Flow.ctrTx flow :), ?_, sorted⟩
  unfold State.flowPort State.isOn State.fn
  rw [cfg, fns]

/-- An answer is on the wire, where the flow has a port that is ON. -/
theorem sendAck_answers {w : State} (h : s.Did p w) (nak : Bool) (psn e : Nat) : s.answered p nak psn e (w.sendAck p.flow nak psn e) := by
  obtain ⟨-, -, ctr, port, sorted⟩ := h.reads
  intro i hi
  unfold State.sendAck
  dsimp only
  have same : (w.setFlow p.flow { w.flow p.flow with ctrTx := (w.flow p.flow).ctrTx + 1, rxCount := 0, rxSince := none }).flowPort p.flow = some i := by
    rw [← hi, ← port]
    unfold State.flowPort
    rw [flow_setFlow sorted, if_pos rfl]
    rfl
  rw [same]
  dsimp only
  rw [ctr]
  exact List.mem_append_right _ List.mem_cons_self

theorem sendAck_flow {w : State} (sorted : Tbl.sorted w.sl.flows) (f : Nat) (nak : Bool) (psn e : Nat) :
    (w.sendAck f nak psn e).flow f = { w.flow f with ctrTx := (w.flow f).ctrTx + 1, rxCount := 0, rxSince := none } := by
  have own := (flow_setFlow sorted f f { w.flow f with ctrTx := (w.flow f).ctrTx + 1, rxCount := 0, rxSince := none }).trans (if_pos rfl)
  unfold State.sendAck
  dsimp only
  split
  · exact own
  · exact own

/-- u is w, but that flow f may have sent an acknowledgement. -/
def State.Acks (w : State) (f : Nat) (u : State) : Prop := u = w ∨ ∃ psn, u = w.sendAck f false psn 0

section
variable {w u : State} {f : Nat} (h : w.Acks f u)
include h

theorem State.Acks.by {P : State → Prop} (st : Stable [.out, .sl] P) (hw : P w) : P u := by
  obtain rfl | ⟨psn, rfl⟩ := h
  · exact hw
  · exact State.sendAck_keeps st _ _ _ _ _ hw

theorem State.Acks.ss : u.ss = w.ss := h.by (P := fun u => u.ss = w.ss) (frame_ss rfl w) rfl
theorem State.Acks.dx : u.dx = w.dx := h.by (P := fun u => u.dx = w.dx) (frame_dx rfl w) rfl
theorem State.Acks.regs : u.regs = w.regs := h.by (P := fun u => u.regs = w.regs) (frame_regs rfl w) rfl

theorem State.Acks.wins : u.sl.wins = w.sl.wins := by
  obtain rfl | ⟨psn, rfl⟩ := h
  · rfl
  · unfold State.sendAck
    dsimp only
    split <;> rfl

theorem State.Acks.flow (sorted : Tbl.sorted w.sl.flows) : ∃ a b c, u.flow f = { w.flow f with ctrTx := a, rxCount := b, rxSince := c } := by
  obtain rfl | ⟨psn, rfl⟩ := h
  · exact ⟨_, _, _, rfl⟩
  · exact ⟨_, _, _, sendAck_flow sorted _ _ _ _⟩

end

/-- What carrying out the next packet without a refusal leads to, whatever is acknowledged. -/
theorem afterOp_carries {v w : State} (did : s.Did p w) : ∃ u, v.afterOp p (0, w) = u ∧ w.Acks p.flow u ∧ (u.flow p.flow).rx = (s.flow p.flow).rx + 1 ∧ (u.flow p.flow).gap = false ∧
    (p.ackReq = true → s.answered p false p.psn 0 u) := by
  obtain ⟨rx, gap, -, -, sorted⟩ := did.reads
  unfold State.afterOp
  rw [if_neg (by simp)]
  dsimp only
  split
  · refine ⟨_, rfl, .inr ⟨_, rfl⟩, ?_, ?_, fun _ => sendAck_answers did false p.psn 0⟩
    · rw [sendAck_flow sorted]; exact rx
    · rw [sendAck_flow sorted]; exact gap
  · next silent => exact ⟨w, rfl, .inl rfl, rx, gap, fun asked => absurd (.inl asked) silent⟩

/-- A packet that acts on the state in which it is the next one, and is not refused; nothing follows it. -/
theorem carries_then {t : Nat} {i : Instr} {op : State → Nat × State} {g : State → State} (h : s.InOrder p) (hi : exec i s = run i t s fun s => g (s.rxSeq p op)) (wf : i.wf = decide (p.port < 2)) {w : State}
    (acts : op ((s.at t).nextOf p) = (0, w)) (did : s.Did p w) (rest : ∀ u, w.Acks p.flow u → g u = u) {f : State → Prop} (hf : ∀ u, w.Acks p.flow u → f u) : s.Carries i p f := by
  obtain ⟨u, after, acks, rx, gap, answered⟩ := afterOp_carries (v := (s.at t).nextOf p) did
  refine ⟨u, hi.trans ((run_wf _ (wf.trans (decide_eq_true h.on.1)) h.live).trans (congrArg _ ?_)), rx, gap, answered, hf u acks⟩
  rw [rxSeq_next h, acts, after, rest u acks]

theorem carries_of {t : Nat} {i : Instr} {op : State → Nat × State} (h : s.InOrder p) (hi : exec i s = run i t s fun s => s.rxSeq p op) (wf : i.wf = decide (p.port < 2)) {w : State}
    (acts : op ((s.at t).nextOf p) = (0, w)) (did : s.Did p w) {f : State → Prop} (hf : ∀ u, w.Acks p.flow u → f u) : s.Carries i p f :=
  carries_then (g := id) h hi wf acts did (fun _ _ => rfl) hf

/-! ## Refusals (R379, R387) -/

/-- A state in which a packet is refused: beside its flow, only counters and what is noted have changed. -/
structure State.Refused (s : State) (t : Nat) (p : SPkt) (w : State) : Prop extends s.Did p w where
  count : w.reg Dict.slaiskNakErrorCount = s.reg Dict.slaiskNakErrorCount
  regs : Tbl.sorted s.regs → Tbl.sorted w.regs
  wins : w.sl.wins = s.sl.wins
  same : (s.at t).sameBut (.slaisk :: .values :: noted) w

theorem nextOf_refused (sorted : Tbl.sorted s.sl.flows) (t : Nat) : s.Refused t p ((s.at t).nextOf p) := by
  have did := nextOf_did (s := s.at t) (p := p) sorted
  have wins : ((s.at t).nextOf p).sl.wins = s.sl.wins := (congrArg Slaisk.wins (received_sl (s.at t) p) :)
  have regs : ((s.at t).nextOf p).regs = ((s.at t).inc Dict.slaiskRxPackets).regs := (State.ev_regs _ _ _ _ _ _ _).trans (State.ev_regs _ _ _ _ _ _ _)
  have count : ((s.at t).nextOf p).reg Dict.slaiskNakErrorCount = s.reg Dict.slaiskNakErrorCount := by
    refine Eq.trans ?_ (inc_other (s := s.at t) (e := Dict.slaiskRxPackets) (x := Dict.slaiskNakErrorCount) (by decide))
    unfold State.reg
    rw [regs]
  exact ⟨⟨did.flow, did.fns⟩, count, fun h => by rw [regs]; exact Tbl.put_sorted h, wins, frame_op (T := [.ctr, .ev, .sl]) (by decide) fun st hs => nextOf_keeps st p hs⟩

/-- A packet that is refused; nothing follows it. -/
theorem refuses_then {t : Nat} {i : Instr} {op : State → Nat × State} {g : State → State} (h : s.InOrder p) (hi : exec i s = run i t s fun s => g (s.rxSeq p op)) (wf : i.wf = decide (p.port < 2)) {w : State} {e : Nat}
    (bad : e ≠ 0) (acts : op ((s.at t).nextOf p) = (e, w)) (refused : s.Refused t p w) (rest : ∀ u, (s.at t).sameBut (.slaisk :: .values :: noted) u → g u = u) : s.RefusesPkt t i p e := by
  obtain ⟨did, count, regs, wins, same⟩ := refused
  obtain ⟨rx, -, -, -, sorted⟩ := did.reads
  have kept : (s.at t).sameBut (.slaisk :: .values :: noted) (((w.sendAck p.flow true p.psn e).inc Dict.slaiskNakErrorCount).ev 0x187 none 1 p.flow (some p.domain)) :=
    same.trans (frame_op (T := [.out, .sl, .ctr, .ev]) (by decide) fun st hs => st.ev rfl _ _ _ _ _ _ _ (st.ctrInc rfl _ _ _ _ _ rfl (State.sendAck_keeps (st.mono rfl) _ _ _ _ _ hs)))
  have next : exec i s = .next (((w.sendAck p.flow true p.psn e).inc Dict.slaiskNakErrorCount).ev 0x187 none 1 p.flow (some p.domain)) := by
    refine hi.trans ((run_wf _ (wf.trans (decide_eq_true h.on.1)) h.live).trans (congrArg _ ?_))
    rw [rxSeq_next h, acts, ← rest _ kept]
    exact congrArg g (if_pos bad)
  have sl : (((w.sendAck p.flow true p.psn e).inc Dict.slaiskNakErrorCount).ev 0x187 none 1 p.flow (some p.domain)).sl = (w.sendAck p.flow true p.psn e).sl := State.ev_sl _ _ _ _ _ _ _
  have asked : (w.sendAck p.flow true p.psn e).regs = w.regs := State.sendAck_keeps (P := fun u => u.regs = w.regs) (frame_regs rfl w) w _ _ _ _ rfl
  refine ⟨_, next, ?_, fun i hi => ?_, fun h => ?_, ?_, kept⟩
  · unfold State.flow
    rw [sl]
    exact (congrArg Flow.rx (sendAck_flow sorted _ _ _ _)).trans rx
  · exact State.ev_sent _ _ _ _ _ _ _ (sendAck_answers did true p.psn e i hi)
  · refine (ev_reg _ _ _ _ _ _ _ _).trans ((inc_counted (s := w.sendAck p.flow true p.psn e) (asked ▸ regs h) _).trans ?_)
    have old : (w.sendAck p.flow true p.psn e).reg Dict.slaiskNakErrorCount = w.reg Dict.slaiskNakErrorCount := by unfold State.reg; rw [asked]
    rw [old, count]
  · rw [sl]
    unfold State.sendAck
    dsimp only
    split <;> exact wins

theorem refuses_of {t : Nat} {i : Instr} {op : State → Nat × State} (h : s.InOrder p) (hi : exec i s = run i t s fun s => s.rxSeq p op) (wf : i.wf = decide (p.port < 2)) {w : State} {e : Nat} (bad : e ≠ 0)
    (acts : op ((s.at t).nextOf p) = (e, w)) (refused : s.Refused t p w) : s.RefusesPkt t i p e := refuses_then (g := id) h hi wf bad acts refused fun _ _ => rfl

end Sys2Proof.Machine
end

section
/-! SUPPORT. O42: a SEND's packets, and the descriptors of a whole message that reach their rings. -/

namespace Sys2Proof.Machine

open Sys2Proof

theorem State.Carries.imp {s : State} {i : Instr} {p : SPkt} {f g : State → Prop} (h : s.Carries i p f) (k : ∀ u, f u → g u) : s.Carries i p g := by
  obtain ⟨u, next, rx, gap, answered, hf⟩ := h
  exact ⟨u, next, rx, gap, answered, k u hf⟩

/-! ## What descriptors' checks read (R146) -/

/-- z is s in all that the checks of descriptors, and their rings, read. -/
structure State.Reads (s z : State) : Prop where
  ss : z.ss = s.ss
  dx : z.dx = s.dx
  fns : z.fns = s.fns
  nv : z.nvRest = s.nvRest
  pk : z.pkRest = s.pkRest
  settings : s.sameSettings z

theorem State.Reads.of {T : List Prim} (e : T.all (fun p => p.keepsSs && p.keepsDx && p.keepsFns && p.keepsNvRest && p.keepsPkRest && p.keepsSettings) = true) {s z : State}
    (k : ∀ {P : State → Prop}, Stable T P → P s → P z) : s.Reads z := by
  simp only [List.all_eq_true, Bool.and_eq_true] at e
  have all : ∀ {f : Prim → Bool}, (∀ p ∈ T, f p = true) → T.all f = true := fun h => List.all_eq_true.mpr h
  refine ⟨k (frame_ss (all fun p hp => ?_) s) rfl, k (frame_dx (all fun p hp => ?_) s) rfl, k (frame_fns (all fun p hp => ?_) s) rfl, k (frame_nvRest (all fun p hp => ?_) s) rfl, k (frame_pkRest (all fun p hp => ?_) s) rfl,
    k (frame_settings (all fun p hp => ?_) s) fun _ _ _ _ _ => rfl⟩
  all_goals
    obtain ⟨⟨⟨⟨⟨ss, dx⟩, fns⟩, nv⟩, pk⟩, settings⟩ := e p hp
    assumption

theorem State.Reads.trans {s u z : State} (h : s.Reads u) (k : u.Reads z) : s.Reads z :=
  ⟨k.ss.trans h.ss, k.dx.trans h.dx, k.fns.trans h.fns, k.nv.trans h.nv, k.pk.trans h.pk, fun e a b i j => (k.settings e a b i j).trans (h.settings e a b i j)⟩

section
variable {s z : State} (h : s.Reads z)
include h

theorem State.Reads.late (t : Nat) : z.isLate t = s.isLate t := isLate_of h.pk t

theorem State.Reads.sess (k : Nat) : z.sess k = s.sess k := State.sess_of_tbl (congrArg Sessions.tbl h.ss) k

theorem State.Reads.dring (d : Nat) : z.dring d = s.dring d := dring_of (congrArg Sessions.rings h.ss) d

theorem State.Reads.genOf (k : Nat) : z.genOf k = s.genOf k := genOf_of (congrArg Sess.gen (h.sess k)) h.nv (congrArg Sessions.bumps h.ss)

theorem State.Reads.chOn (c : Nat) : z.chOn c = s.chOn c := by
  unfold State.chOn State.isOn State.fn
  rw [h.fns]

theorem State.Reads.device : z.device = s.device := h.settings Dict.warpDeviceIndex (by decide) (by decide) 0 0

theorem State.Reads.firstChecks (dev k : Nat) (d : Desc) : z.firstChecks dev k d = s.firstChecks dev k d := by
  have present : z.present dev = s.present dev := present_of h.settings (by unfold State.peer; rw [h.dx])
  unfold State.firstChecks
  rw [h.device, present]

theorem State.Reads.stalled (d : Nat) : z.stalled d = s.stalled d := stalled_of_cq (congrArg Sessions.cq h.ss) d

end

/-! ## A SEND's packets (R380) -/

/-- The message that a SEND's packet belongs to: target, length and the bytes before it. -/
def Flow.message (x : Flow) (p : SPkt) : Nat × Nat × Bytes := if p.first = true then (p.target, p.aux, []) else x.msg.getD (0, 0, [])

/-- The bytes of the message with the packet's. -/
def Flow.bytes (x : Flow) (p : SPkt) : Bytes := (x.message p).2.2 ++ p.data

/-- The packet fits its message. -/
def Flow.fits (x : Flow) (p : SPkt) : Prop :=
  (x.message p).1 = p.target ∧ (x.message p).2.1 = p.aux ∧ p.offset = (x.message p).2.2.length ∧ 0 < p.aux ∧ p.aux ≤ 4096 ∧ p.aux % 64 = 0 ∧ (x.bytes p).length ≤ p.aux ∧ (p.last = true ↔ (x.bytes p).length = p.aux)

/-- The packet has its turn: it begins a message where none is open, and goes on with one that is. -/
def Flow.turn (x : Flow) (p : SPkt) : Prop := p.first = true ↔ x.msg = none

theorem still_msg (x : Flow) (m : Option (Nat × Nat × Bytes)) : ({ x with msg := m } : Flow).still = { x.still with msg := m } := rfl

theorem FlowIs.msg {f : Nat} {c : Flow} {u : State} (h : FlowIs f c u) : (u.flow f).msg = c.msg := (congrArg Flow.msg h.2 :)

/-- No message is open on a packet's flow. -/
def State.noMessage (v : State) (p : SPkt) : State := v.setFlow p.flow { v.flow p.flow with msg := none }

/-- A SEND packet that has its turn. -/
def State.sendOn (v : State) (p : SPkt) : Nat × State :=
  let x := v.flow p.flow
  if tgtOk p.target = false then (0x10, v.noMessage p)
  else if tgtType p.target ≠ 1 ∧ tgtType p.target ≠ 2 then (0x14, v.noMessage p)
  else if tgtType p.target = 2 ∧ bits p.target 11 0 ≠ p.domain then (0x13, v.noMessage p)
  else if (x.message p).1 ≠ p.target ∨ (x.message p).2.1 ≠ p.aux ∨ p.offset ≠ (x.message p).2.2.length ∨ p.aux = 0 ∨ 4096 < p.aux ∨ p.aux % 64 ≠ 0 ∨ p.aux < (x.bytes p).length ∨ (p.last = true ∧ (x.bytes p).length ≠ p.aux) ∨
      (p.last = false ∧ (x.bytes p).length = p.aux) then (0x15, v.noMessage p)
  else if p.last then (0, (v.noMessage p).landSend p.target p.domain (x.bytes p))
  else (0, v.setFlow p.flow { x with msg := some (p.target, p.aux, x.bytes p) })

theorem opSend_outOfTurn {v : State} {p : SPkt} (h : ¬(v.flow p.flow).turn p) : v.opSend p = (0x15, v.noMessage p) ∨ v.opSend p = (0x15, v) := by
  unfold Flow.turn at h
  unfold State.opSend
  dsimp only
  cases open' : (v.flow p.flow).msg with
  | none =>
    have first : p.first = false := by cases e : p.first <;> simp [e, open'] at h ⊢
    exact .inr (by rw [if_neg (by simp), if_pos (by simp [first])])
  | some m =>
    have first : p.first = true := by cases e : p.first <;> simp [e, open'] at h ⊢
    exact .inl (by rw [if_pos (by simp [first])]; rfl)

theorem opSend_inTurn {v : State} {p : SPkt} (h : (v.flow p.flow).turn p) : v.opSend p = v.sendOn p := by
  have first : ¬(p.first = true ∧ (v.flow p.flow).msg.isSome = true) := fun q => by rw [h.mp q.1] at q; exact Bool.noConfusion q.2
  have later : ¬(p.first = false ∧ (v.flow p.flow).msg.isSome = false) := fun q => by
    rw [h.mpr (Option.isNone_iff_eq_none.mp (by rw [← Option.not_isSome, q.2]; rfl))] at q
    exact Bool.noConfusion q.1
  unfold State.opSend
  dsimp only
  rw [if_neg first, if_neg later]
  rfl

/-- The packets that do not fit are those that the check turns away. -/
theorem fits_iff (x : Flow) (p : SPkt) : x.fits p ↔ ¬((x.message p).1 ≠ p.target ∨ (x.message p).2.1 ≠ p.aux ∨ p.offset ≠ (x.message p).2.2.length ∨ p.aux = 0 ∨ 4096 < p.aux ∨ p.aux % 64 ≠ 0 ∨ p.aux < (x.bytes p).length ∨
    (p.last = true ∧ (x.bytes p).length ≠ p.aux) ∨ (p.last = false ∧ (x.bytes p).length = p.aux)) := by
  unfold Flow.fits
  simp only [not_or, not_and, ne_eq, Decidable.not_not, Nat.not_lt]
  refine and_congr_right fun _ => and_congr_right fun _ => and_congr_right fun _ => and_congr Nat.pos_iff_ne_zero (and_congr_right fun _ => and_congr_right fun _ => and_congr_right fun _ => ?_)
  cases p.last <;> simp

section
variable {s : State} {p : SPkt} (h : s.InOrder p) (t : Nat)
include h

/-- The state in which the packet acts has the flow's message. -/
theorem nextOf_message : ((s.at t).nextOf p).flow p.flow = { ((s.at t).nextOf p).flow p.flow with msg := (s.flow p.flow).msg } := by
  have msg : (((s.at t).nextOf p).flow p.flow).msg = (s.flow p.flow).msg := (congrArg Flow.msg (nextOf_flow (s := s.at t) h.flows p).1 :)
  rw [← msg]

theorem noMessage_is : FlowIs p.flow (s.nextFlow p none) (((s.at t).nextOf p).noMessage p) := by
  obtain ⟨sorted, flow⟩ := nextOf_is (s := s.at t) (p := p) h.flows
  generalize (s.at t).nextOf p = v at *
  unfold State.noMessage
  refine ⟨setFlow_sorted sorted _ _, ?_⟩
  rw [flow_setFlow sorted, if_pos rfl, still_msg, flow]
  rfl

theorem noMessage_refused : s.Refused t p (((s.at t).nextOf p).noMessage p) := by
  have refused := nextOf_refused (s := s) (p := p) h.flows t
  have is := noMessage_is h t
  generalize (s.at t).nextOf p = v at refused is ⊢
  obtain ⟨⟨-, fns⟩, count, regs, wins, same⟩ := refused
  exact ⟨⟨⟨none, is⟩, fns⟩, count, regs, wins, same.trans (frame_op (T := [.sl]) (by decide) fun st hs => st.sl rfl _ _ rfl hs)⟩

theorem send_outOfTurn (out : ¬(s.flow p.flow).turn p) : s.RefusesPkt t (.slaiskSend t p) p 0x15 := by
  have out' : ¬(((s.at t).nextOf p).flow p.flow).turn p := by rw [nextOf_message h t]; exact out
  rcases opSend_outOfTurn out' with e | e
  · exact refuses_of (i := .slaiskSend t p) h (execSlaiskSend.eq_1 t p s) rfl (by decide) e (noMessage_refused h t)
  · exact refuses_of (i := .slaiskSend t p) h (execSlaiskSend.eq_1 t p s) rfl (by decide) e (nextOf_refused h.flows t)

variable (turn : (s.flow p.flow).turn p)
include turn

/-- What a SEND packet that has its turn does. -/
theorem send_inTurn : ((s.at t).nextOf p).opSend p = ((s.at t).nextOf p).sendOn p ∧ (((s.at t).nextOf p).flow p.flow).message p = (s.flow p.flow).message p ∧
    (((s.at t).nextOf p).flow p.flow).bytes p = (s.flow p.flow).bytes p := by
  have same := nextOf_message h t
  generalize ((s.at t).nextOf p) = v at same ⊢
  refine ⟨opSend_inTurn (by rw [same]; exact turn), ?_, ?_⟩
  · rw [same]; rfl
  · rw [same]; rfl

theorem send_refuses {e : Nat} (bad : e ≠ 0) (acts : ((s.at t).nextOf p).sendOn p = (e, ((s.at t).nextOf p).noMessage p)) : s.RefusesPkt t (.slaiskSend t p) p e :=
  refuses_of (i := .slaiskSend t p) h (execSlaiskSend.eq_1 t p s) rfl bad ((send_inTurn h t turn).1.trans acts) (noMessage_refused h t)

theorem send_badTarget (bad : tgtOk p.target = false) : s.RefusesPkt t (.slaiskSend t p) p 0x10 := send_refuses h t turn (by decide) (if_pos bad)

variable (sound : tgtOk p.target = true)
include sound

theorem send_badType (no1 : tgtType p.target ≠ 1) (no2 : tgtType p.target ≠ 2) : s.RefusesPkt t (.slaiskSend t p) p 0x14 :=
  send_refuses h t turn (by decide) ((if_neg (by rw [sound]; decide)).trans (if_pos ⟨no1, no2⟩))

theorem send_otherDomain (ring : tgtType p.target = 2) (other : bits p.target 11 0 ≠ p.domain) : s.RefusesPkt t (.slaiskSend t p) p 0x13 :=
  send_refuses h t turn (by decide) ((if_neg (by rw [sound]; decide)).trans ((if_neg fun q => q.2 ring).trans (if_pos ⟨ring, other⟩)))

variable (mine : tgtType p.target = 1 ∨ tgtType p.target = 2 ∧ bits p.target 11 0 = p.domain)
include mine

/-- A SEND packet of a sound target of its own domain is put to the message. -/
theorem sendOn_mine : ((s.flow p.flow).fits p → ((s.at t).nextOf p).sendOn p = if p.last then (0, (((s.at t).nextOf p).noMessage p).landSend p.target p.domain ((s.flow p.flow).bytes p))
      else (0, ((s.at t).nextOf p).setFlow p.flow { ((s.at t).nextOf p).flow p.flow with msg := some (p.target, p.aux, (s.flow p.flow).bytes p) })) ∧
    (¬(s.flow p.flow).fits p → ((s.at t).nextOf p).sendOn p = (0x15, ((s.at t).nextOf p).noMessage p)) := by
  obtain ⟨-, message, bytes⟩ := send_inTurn h t turn
  have own : ¬(tgtType p.target = 2 ∧ bits p.target 11 0 ≠ p.domain) := fun q => mine.elim (fun k => absurd (q.1.symm.trans k) (by decide)) fun k => q.2 k.2
  unfold State.sendOn
  dsimp only
  rw [if_neg (by rw [sound]; decide), if_neg fun q => mine.elim q.1 fun k => q.2 k.1, if_neg own, message, bytes]
  exact ⟨fun fit => if_neg ((fits_iff _ _).mp fit), fun unfit => if_pos (Decidable.not_not.mp fun q => unfit ((fits_iff _ _).mpr q))⟩

theorem send_unfit (bad : ¬(s.flow p.flow).fits p) : s.RefusesPkt t (.slaiskSend t p) p 0x15 :=
  send_refuses h t turn (by decide) ((sendOn_mine h t turn sound mine).2 bad)

variable (fit : (s.flow p.flow).fits p)
include fit

theorem send_more (more : p.last = false) : s.Carries (.slaiskSend t p) p fun u => (u.flow p.flow).msg = some (p.target, p.aux, (s.flow p.flow).bytes p) ∧ u.ss = s.ss := by
  have acts := (send_inTurn h t turn).1.trans (((sendOn_mine h t turn sound mine).1 fit).trans (if_neg (by rw [more]; decide)))
  obtain ⟨⟨m, sorted, flow⟩, fns⟩ := nextOf_did (s := s.at t) (p := p) h.flows
  have ss : ((s.at t).nextOf p).ss = s.ss := nextOf_keeps (P := fun u => u.ss = s.ss) (frame_ss rfl s) p rfl
  have own := (flow_setFlow sorted p.flow p.flow { ((s.at t).nextOf p).flow p.flow with msg := some (p.target, p.aux, (s.flow p.flow).bytes p) }).trans (if_pos rfl)
  have still := FlowIs.put sorted p.flow { ((s.at t).nextOf p).flow p.flow with msg := some (p.target, p.aux, (s.flow p.flow).bytes p) }
  have same : ({ ((s.at t).nextOf p).flow p.flow with msg := some (p.target, p.aux, (s.flow p.flow).bytes p) } : Flow).still = s.nextFlow p (some (p.target, p.aux, (s.flow p.flow).bytes p)) := by
    rw [still_msg, flow]
    rfl
  refine carries_of (i := .slaiskSend t p) h (execSlaiskSend.eq_1 t p s) rfl acts ⟨⟨_, same ▸ still⟩, fns⟩ fun u acks => ?_
  obtain ⟨a, b, c, flow'⟩ := acks.flow still.1
  rw [flow', own]
  exact ⟨rfl, acks.ss.trans ss⟩

omit h turn sound mine fit in
theorem landSend_fns (v : State) (a d : Nat) (b : Bytes) : (v.landSend a d b).fns = v.fns := State.landSend_keeps (P := fun u => u.fns = v.fns) (frame_fns rfl v) v a d b rfl

/-- What the last packet of a message leads to. -/
theorem send_whole (last : p.last = true) : s.Carries (.slaiskSend t p) p fun u => (u.flow p.flow).msg = none ∧ ((((s.at t).nextOf p).noMessage p).landSend p.target p.domain ((s.flow p.flow).bytes p)).Acks p.flow u := by
  have acts := (send_inTurn h t turn).1.trans (((sendOn_mine h t turn sound mine).1 fit).trans (if_pos last))
  have fns := (landSend_fns _ p.target p.domain ((s.flow p.flow).bytes p)).trans (noMessage_refused h t).fns
  have landed := (noMessage_is h t).landSend p.target p.domain ((s.flow p.flow).bytes p)
  refine carries_of (i := .slaiskSend t p) h (execSlaiskSend.eq_1 t p s) rfl acts ⟨⟨none, landed⟩, fns⟩ fun u acks => ⟨?_, acks⟩
  obtain ⟨a, b, c, same⟩ := acks.flow landed.1
  rw [same]
  exact landed.msg

end

/-! ## Descriptors that reach their ring (R146, R150, R403) -/

/-- A descriptor as it stands in a ring of this device. -/
def atHome (dom : Nat) (d : Desc) : QDesc := { d := d, dom := dom }

/-- A descriptor for domain dom has failed its checks in u: its record is posted with that status. -/
def State.Fails (s : State) (dom : Nat) (d : Desc) (status : Nat) (u : State) : Prop := ∃ w : State, w.ss.cq = s.ss.cq ∧ w.posts dom (Rec.completes (atHome dom d) status 0) u

theorem State.Fails.to {s u w : State} {dom st : Nat} {d : Desc} (h : s.Fails dom d st u) (e : w.ss.cq = u.ss.cq) : s.Fails dom d st w := by
  obtain ⟨v, cq, posted⟩ := h
  exact ⟨v, cq, posted.to e⟩

theorem State.Fails.from {s v u : State} {dom st : Nat} {d : Desc} (h : v.Fails dom d st u) (e : v.ss.cq = s.ss.cq) : s.Fails dom d st u := by
  obtain ⟨w, cq, posted⟩ := h
  exact ⟨w, cq.trans e, posted⟩

theorem endDesc_rings (s : State) (q : QDesc) (a b c f : Nat) : (s.endDesc q a b c f).ss.rings = s.ss.rings :=
  endDesc_by (P := fun u => u.ss.rings = s.ss.rings) (ss_stable rfl fun z => z.rings = s.ss.rings) (fun _ _ _ h => h) q a b c f rfl

section
variable {s : State} {dom : Nat} {d : Desc} (cq : Tbl.sorted s.ss.cq) (room : s.stalled dom = false)
include cq room

/-- A descriptor that fails a check is not queued (R146). -/
theorem failDesc_fails (st fl : Nat) : s.Fails dom d st (s.failDesc (atHome dom d) st fl) ∧ (s.failDesc (atHome dom d) st fl).ss.tbl = s.ss.tbl ∧ (s.failDesc (atHome dom d) st fl).ss.rings = s.ss.rings :=
  ⟨⟨s, rfl, (endDesc_posts (q := atHome dom d) cq room st 0 0 fl :)⟩, State.endDesc_tbl _ _ _ _ _ _, endDesc_rings _ _ _ _ _ _⟩

theorem enqueueDom_fails : (descForm domOps d = false → s.Fails dom d stBad (s.enqueueDom dom (atHome dom d)) ∧ (s.enqueueDom dom (atHome dom d)).ss.rings = s.ss.rings) ∧
    (descForm domOps d = true → s.isLate d.deadline = true → s.Fails dom d stDeadline (s.enqueueDom dom (atHome dom d)) ∧ (s.enqueueDom dom (atHome dom d)).ss.rings = s.ss.rings) ∧
    (descForm domOps d = true → s.isLate d.deadline = false → 256 ≤ (s.dring dom).waiting.length → s.Fails dom d stBusy (s.enqueueDom dom (atHome dom d)) ∧ (s.enqueueDom dom (atHome dom d)).ss.rings = s.ss.rings) := by
  refine ⟨fun bad => ?_, fun form late => ?_, fun form inTime full => ?_⟩
  · have e : s.enqueueDom dom (atHome dom d) = s.failDesc (atHome dom d) stBad flMalformed := if_pos bad
    obtain ⟨fails, -, rings⟩ := failDesc_fails (d := d) cq room stBad flMalformed
    exact e ▸ ⟨fails, rings⟩
  · have e : s.enqueueDom dom (atHome dom d) = s.endDom (atHome dom d) stDeadline 0 0 := (if_neg (form ▸ Bool.noConfusion : ¬descForm domOps d = false)).trans (if_pos late)
    obtain ⟨posted, rings⟩ := endDom_facts (q := atHome dom d) cq room stDeadline 0 0 none
    exact e ▸ ⟨⟨s, rfl, posted⟩, rings⟩
  · have e : s.enqueueDom dom (atHome dom d) = (s.ev 0x084 none 1 0 (some dom)).endDom (atHome dom d) stBusy 0 0 :=
      (if_neg (form ▸ Bool.noConfusion : ¬descForm domOps d = false)).trans ((if_neg (inTime ▸ Bool.noConfusion : ¬s.isLate d.deadline = true)).trans (if_pos full))
    have ss := State.ev_ss s 0x084 none 1 0 (some dom) none
    obtain ⟨posted, rings⟩ := endDom_facts (s := s.ev 0x084 none 1 0 (some dom)) (q := atHome dom d) (by rw [ss]; exact cq) ((stalled_of_cq (congrArg Sessions.cq ss) _).trans room) stBusy 0 0 none
    exact e ▸ ⟨⟨_, congrArg Sessions.cq ss, posted⟩, rings.trans (congrArg Sessions.rings ss)⟩

end

/-- A control descriptor in form and in time joins its ring where that has room. -/
theorem enqueueDom_queues {s : State} {dom : Nat} {d : Desc} (form : descForm domOps d = true) (inTime : s.isLate d.deadline = false) (room : (s.dring dom).waiting.length < 256) :
    s.enqueueDom dom (atHome dom d) = s.setDring dom { s.dring dom with waiting := (s.dring dom).waiting ++ [atHome dom d] } :=
  (if_neg (form ▸ Bool.noConfusion : ¬descForm domOps d = false)).trans ((if_neg (inTime ▸ Bool.noConfusion : ¬s.isLate d.deadline = true)).trans (if_neg (Nat.not_le_of_lt room)))

theorem sendDom_queues {dom : Nat} {ds : List Desc} {s : State} (fit : ∀ d ∈ ds, descForm domOps d = true ∧ s.isLate d.deadline = false) (room : (s.dring dom).waiting.length + ds.length ≤ 256) (h : Tbl.sorted s.ss.rings) :
    (s.sendDom s.device dom ds).dring dom = { s.dring dom with waiting := (s.dring dom).waiting ++ ds.map (atHome dom) } := by
  have each : ∀ (l : List Desc) (u : State), (∀ d ∈ l, descForm domOps d = true ∧ u.isLate d.deadline = false) → (u.dring dom).waiting.length + l.length ≤ 256 → Tbl.sorted u.ss.rings →
      (u.each l fun d v => v.enqueueDom dom (atHome dom d)).dring dom = { u.dring dom with waiting := (u.dring dom).waiting ++ l.map (atHome dom) } := by
    intro l
    induction l with
    | nil => intro u _ _ _; simp [State.each]
    | cons d l ih =>
      intro u fit room sorted
      rw [List.length_cons] at room
      obtain ⟨form, inTime⟩ := fit d List.mem_cons_self
      have ring := dring_setDring sorted dom { u.dring dom with waiting := (u.dring dom).waiting ++ [atHome dom d] }
      refine (congrArg (fun v : State => (v.each l fun d w => w.enqueueDom dom (atHome dom d)).dring dom) (enqueueDom_queues form inTime (by omega))).trans ?_
      generalize hv : State.setDring u dom _ = v at ring ⊢
      have late : ∀ t, v.isLate t = u.isLate t := fun t => hv ▸ rfl
      rw [ih v (fun x hx => by rw [late]; exact fit x (List.mem_cons_of_mem _ hx)) (by rw [ring, List.length_append, List.length_singleton]; omega) (hv ▸ Tbl.put_sorted sorted), ring]
      simp
  unfold State.sendDom
  rw [if_pos rfl]
  exact each ds s fit room h

end Sys2Proof.Machine
end

section
/-! SUPPORT. O42: descriptors that reach a session's ring, and those that go to another device. -/

namespace Sys2Proof.Machine

open Sys2Proof

/-! ## A session's ring at its home (R146, R147, R403) -/

/-- The command opens a session. -/
def opensSess (d : Desc) : Prop := d.opcode = 0x01 ∨ d.opcode = 0x08

/-- The channel is up, and the descriptor is of the slot's domain and generation. -/
structure State.Admits (s : State) (k dom : Nat) (d : Desc) : Prop where
  up : s.chOn (chOf k) = true
  owner : opensSess d ∨ (s.sess k).st = .free ∨ (s.sess k).dom = dom
  gen : handleGen d.session = s.genOf k

/-- What the home does with a descriptor that it admits. -/
def State.enqueueIn (s : State) (k : Nat) (q : QDesc) : State :=
  let x := s.sess k
  if s.isLate q.d.deadline then s.failDesc q stDeadline 0
  else if q.d.opcode = 0x0A then
    if x.closePend then s.failDesc q stBusy 0 else s.setSess k { x with imm := x.imm ++ [q], closePend := true }
  else if q.d.opcode = 0x09 then s.setSess k { x with imm := x.imm ++ [q] }
  else if 16 ≤ x.ring.length then ((s.inc Dict.sessRingFullCount 1 0 (chOf k)).ev 0x084 (some (chOf k)) 1 q.d.session (some q.dom)).failDesc q stBusy 0
  else s.setSess k { x with ring := x.ring ++ [q], tail := (x.tail + 1) % 65536 }

section
variable {s : State} {k dom : Nat} {d : Desc}

/-- A descriptor of another domain's session. -/
theorem denied_iff : (!(decide (d.opcode = 0x01) || decide (d.opcode = 0x08)) && decide ((s.sess k).st ≠ .free) && decide ((s.sess k).dom ≠ dom)) = true ↔ ¬(opensSess d ∨ (s.sess k).st = .free ∨ (s.sess k).dom = dom) := by
  unfold opensSess
  simp only [Bool.and_eq_true, Bool.not_eq_true', Bool.or_eq_false_iff, decide_eq_true_eq, decide_eq_false_iff_not, not_or, ne_eq, and_assoc]

theorem enqueue_down (down : s.chOn (chOf k) = false) : s.enqueue k (atHome dom d) = s.failDesc (atHome dom d) stBad flNoHome := if_pos down

theorem enqueue_denied (up : s.chOn (chOf k) = true) (other : ¬(opensSess d ∨ (s.sess k).st = .free ∨ (s.sess k).dom = dom)) : s.enqueue k (atHome dom d) = s.failDesc (atHome dom d) stDenied 0 :=
  (if_neg (by rw [up]; decide)).trans (if_pos (denied_iff.mpr other))

theorem enqueue_stale (up : s.chOn (chOf k) = true) (owner : opensSess d ∨ (s.sess k).st = .free ∨ (s.sess k).dom = dom) (old : handleGen d.session ≠ s.genOf k) : s.enqueue k (atHome dom d) =
    ((s.inc Dict.sessStaleHandleCount 1 0 (chOf k)).ev 0x085 (some (chOf k)) 1 d.session (some dom)).failDesc (atHome dom d) stBad flStale :=
  (if_neg (by rw [up]; decide)).trans ((if_neg fun q => denied_iff.mp q owner).trans (if_pos old))

theorem enqueue_admits (h : s.Admits k dom d) : s.enqueue k (atHome dom d) = s.enqueueIn k (atHome dom d) :=
  (if_neg (by rw [h.up]; decide)).trans ((if_neg fun q => denied_iff.mp q h.owner).trans (if_neg fun q => q h.gen))

theorem enqueueIn_late (late : s.isLate d.deadline = true) : s.enqueueIn k (atHome dom d) = s.failDesc (atHome dom d) stDeadline 0 := if_pos late

variable (inTime : s.isLate d.deadline = false)
include inTime

theorem enqueueIn_closes (close : d.opcode = 0x0A) : s.enqueueIn k (atHome dom d) = if (s.sess k).closePend then s.failDesc (atHome dom d) stBusy 0
    else s.setSess k { s.sess k with imm := (s.sess k).imm ++ [atHome dom d], closePend := true } :=
  (if_neg (by rw [show (atHome dom d).d = d from rfl, inTime]; decide)).trans (if_pos close)

theorem enqueueIn_queries (query : d.opcode = 0x09) : s.enqueueIn k (atHome dom d) = s.setSess k { s.sess k with imm := (s.sess k).imm ++ [atHome dom d] } :=
  (if_neg (by rw [show (atHome dom d).d = d from rfl, inTime]; decide)).trans ((if_neg (by rw [show (atHome dom d).d = d from rfl, query]; decide)).trans (if_pos query))

theorem enqueueIn_queues (no9 : d.opcode ≠ 0x09) (noA : d.opcode ≠ 0x0A) : s.enqueueIn k (atHome dom d) = if 16 ≤ (s.sess k).ring.length then
      ((s.inc Dict.sessRingFullCount 1 0 (chOf k)).ev 0x084 (some (chOf k)) 1 d.session (some dom)).failDesc (atHome dom d) stBusy 0
    else s.setSess k ((s.sess k).joined (atHome dom d)) :=
  (if_neg (by rw [show (atHome dom d).d = d from rfl, inTime]; decide)).trans ((if_neg noA).trans (if_neg no9))

end

/-- A descriptor of a SEND for slot k of this device is checked, and queued. -/
def State.landDesc (s : State) (dev k dom : Nat) (d : Desc) : State :=
  match s.firstChecks dev k d with
  | some e => (s.when (!handleForm d.session) fun s => s.ev 0x085 (some (chOf k)) 1 d.session (some dom)).failDesc (atHome dom d) e.1 e.2
  | none => s.enqueue k (atHome dom d)

theorem sendSess_home (s : State) (k dom : Nat) (ds : List Desc) : s.sendSess s.device k dom ds = s.each ds fun d u => u.landDesc s.device k dom d := by
  unfold State.sendSess
  exact if_pos rfl

section
variable {s : State} {dev k dom : Nat} {d : Desc}

theorem landDesc_checks {e : Nat × Nat} (hit : s.firstChecks dev k d = some e) : s.landDesc dev k dom d = (s.when (!handleForm d.session) fun s => s.ev 0x085 (some (chOf k)) 1 d.session (some dom)).failDesc (atHome dom d) e.1 e.2 := by
  unfold State.landDesc
  rw [hit]

theorem landDesc_enqueues (pass : s.firstChecks dev k d = none) : s.landDesc dev k dom d = s.enqueue k (atHome dom d) := by
  unfold State.landDesc
  rw [pass]

/-- A descriptor that fails a check leaves its session. -/
def State.Ends (s : State) (k dom : Nat) (d : Desc) (status : Nat) (u : State) : Prop := u.sess k = s.sess k ∧ s.Fails dom d status u

theorem ends_of {v : State} (ss : v.ss = s.ss) (cq : Tbl.sorted s.ss.cq) (room : s.stalled dom = false) (k st fl : Nat) : s.Ends k dom d st (v.failDesc (atHome dom d) st fl) := by
  obtain ⟨fails, tbl, -⟩ := failDesc_fails (s := v) (d := d) (by rw [ss]; exact cq) ((stalled_of_cq (congrArg Sessions.cq ss) dom).trans room) st fl
  exact ⟨State.sess_of_tbl (tbl.trans (congrArg Sessions.tbl ss)) k, fails.from (congrArg Sessions.cq ss)⟩

variable (cq : Tbl.sorted s.ss.cq) (room : s.stalled dom = false)
include cq room

theorem landDesc_ends : (∀ e, s.firstChecks dev k d = some e → s.Ends k dom d e.1 (s.landDesc dev k dom d)) ∧
    (s.firstChecks dev k d = none → s.chOn (chOf k) = false → s.Ends k dom d stBad (s.landDesc dev k dom d)) ∧
    (s.firstChecks dev k d = none → s.chOn (chOf k) = true → ¬(opensSess d ∨ (s.sess k).st = .free ∨ (s.sess k).dom = dom) → s.Ends k dom d stDenied (s.landDesc dev k dom d)) ∧
    (s.firstChecks dev k d = none → s.chOn (chOf k) = true → opensSess d ∨ (s.sess k).st = .free ∨ (s.sess k).dom = dom → handleGen d.session ≠ s.genOf k → s.Ends k dom d stBad (s.landDesc dev k dom d)) ∧
    (s.firstChecks dev k d = none → s.Admits k dom d → s.isLate d.deadline = true → s.Ends k dom d stDeadline (s.landDesc dev k dom d)) ∧
    (s.firstChecks dev k d = none → s.Admits k dom d → s.isLate d.deadline = false → d.opcode = 0x0A → (s.sess k).closePend = true → s.Ends k dom d stBusy (s.landDesc dev k dom d)) ∧
    (s.firstChecks dev k d = none → s.Admits k dom d → s.isLate d.deadline = false → d.opcode ≠ 0x09 → d.opcode ≠ 0x0A → 16 ≤ (s.sess k).ring.length → s.Ends k dom d stBusy (s.landDesc dev k dom d)) := by
  have noted : ∀ (e : Entry) c a b i f g, ((s.inc e 1 0 c).ev a b 1 i f g).ss = s.ss := fun e c a b i f g => State.ev_ss _ _ _ _ _ _ _
  refine ⟨fun e hit => ?_, fun pass down => ?_, fun pass up other => ?_, fun pass up owner old => ?_, fun pass ok late => ?_, fun pass ok inTime close pending => ?_, fun pass ok inTime no9 noA full => ?_⟩
  · rw [landDesc_checks hit]
    exact ends_of (when_keeps (P := fun u => u.ss = s.ss) (fun u hu => (State.ev_ss _ _ _ _ _ _ _).trans hu) rfl) cq room k _ _
  · rw [landDesc_enqueues pass, enqueue_down down]
    exact ends_of rfl cq room k _ _
  · rw [landDesc_enqueues pass, enqueue_denied up other]
    exact ends_of rfl cq room k _ _
  · rw [landDesc_enqueues pass, enqueue_stale up owner old]
    exact ends_of (noted _ _ _ _ _ _ _) cq room k _ _
  · rw [landDesc_enqueues pass, enqueue_admits ok, enqueueIn_late late]
    exact ends_of rfl cq room k _ _
  · rw [landDesc_enqueues pass, enqueue_admits ok, enqueueIn_closes inTime close, if_pos pending]
    exact ends_of rfl cq room k _ _
  · rw [landDesc_enqueues pass, enqueue_admits ok, enqueueIn_queues inTime no9 noA, if_pos full]
    exact ends_of (noted _ _ _ _ _ _ _) cq room k _ _

end

/-- A descriptor for slot k passes every check before the ring. -/
structure State.Sound (s : State) (dev k dom : Nat) (d : Desc) : Prop where
  pass : s.firstChecks dev k d = none
  admits : s.Admits k dom d
  inTime : s.isLate d.deadline = false

theorem sound_joined {s : State} {dev k dom : Nat} {d : Desc} (tbl : Tbl.sorted s.ss.tbl) (h : s.Sound dev k dom d) (q : QDesc) : (s.setSess k ((s.sess k).joined q)).Sound dev k dom d := by
  obtain ⟨pass, ⟨up, owner, gen⟩, inTime⟩ := h
  have same := sess_setSess tbl k ((s.sess k).joined q)
  refine ⟨pass, ⟨up, ?_, gen.trans ?_⟩, inTime⟩
  · rw [same]
    exact owner
  · unfold State.genOf
    rw [same]
    rfl

/-- The descriptors of a SEND join their session's ring, in order. -/
theorem landDescs_join {dev k dom : Nat} {ds : List Desc} {s : State} (fit : ∀ d ∈ ds, s.Sound dev k dom d ∧ d.opcode ≠ 0x09 ∧ d.opcode ≠ 0x0A) (room : (s.sess k).ring.length + ds.length ≤ 16) (h : Tbl.sorted s.ss.tbl) :
    (s.each ds fun d u => u.landDesc dev k dom d).sess k = { s.sess k with ring := (s.sess k).ring ++ ds.map (atHome dom), tail := if ds = [] then (s.sess k).tail else ((s.sess k).tail + ds.length) % 65536 } := by
  induction ds generalizing s with
  | nil => simp [State.each]
  | cons d ds ih =>
    rw [List.length_cons] at room
    obtain ⟨ok, no9, noA⟩ := fit d List.mem_cons_self
    have joins : s.landDesc dev k dom d = s.setSess k ((s.sess k).joined (atHome dom d)) := by
      rw [landDesc_enqueues ok.pass, enqueue_admits ok.admits, enqueueIn_queues ok.inTime no9 noA, if_neg (by omega)]
    have own := sess_setSess h k ((s.sess k).joined (atHome dom d))
    refine (congrArg (fun v : State => (v.each ds fun d u => u.landDesc dev k dom d).sess k) joins).trans ?_
    rw [ih (fun x hx => ⟨sound_joined h (fit x (List.mem_cons_of_mem _ hx)).1 _, (fit x (List.mem_cons_of_mem _ hx)).2⟩) (by rw [own, Sess.joined, List.length_append, List.length_singleton]; omega) (Tbl.put_sorted h), own]
    have tail : (if ds = [] then ((s.sess k).tail + 1) % 65536 else (((s.sess k).tail + 1) % 65536 + ds.length) % 65536) = ((s.sess k).tail + (ds.length + 1)) % 65536 := by
      split
      · next last => rw [last]; rfl
      · omega
    simp only [Sess.joined, List.map_cons, List.append_assoc, List.singleton_append, List.length_cons, List.cons_ne_nil, if_false, tail]

/-! ## Descriptors for another device (R430, R432, R433) -/

theorem pumpSome_fwd (k n : Nat) (s : State) : (State.pumpSome k n s).dx.fwd = s.dx.fwd := by
  induction k generalizing s with
  | zero => rfl
  | succ k ih =>
    unfold State.pumpSome
    split
    · rfl
    · next u e =>
      obtain ⟨vc, f, rest, -, rfl⟩ := sendFlit_does e
      rw [ih, State.ev_dx]
      rfl

/-- A message that is sent leaves the COMMANDs that await their acknowledgement. -/
theorem sendMsg_fwd (s : State) (m : DMsg) : (s.sendMsg m).dx.fwd = s.dx.fwd := by
  have routed : ∀ (v : State) (m : DMsg), (v.routeMsg m).dx.fwd = v.dx.fwd := fun v m => by
    unfold State.routeMsg
    split
    · next n w e =>
      obtain ⟨a, b, rfl⟩ := route_some e
      unfold State.putMsg State.queueFlits State.pumpLink
      rw [State.ev_dx, pumpSome_fwd]
      rfl
    · rfl
  have stamped : (s.stampMsg m).2.dx.fwd = s.dx.fwd := by
    unfold State.stampMsg
    split
    · exact when_keeps (P := fun u => u.dx.fwd = s.dx.fwd) (fun _ e => e) rfl
    · rfl
  exact (routed _ _).trans stamped

theorem pumpForward_same (s : State) : s.pumpForward.forwards s.dx.fwd := by
  refine each_keeps (P := fun u => u.forwards s.dx.fwd) (fun f u hu => ?_) rfl
  dsimp only
  split
  · unfold State.forwards
    rw [State.ev_dx, sendMsg_fwd]
    exact (map_mark_unsent _ _ _).trans hu
  · exact hu

theorem sendSess_away {s : State} {dev k dom : Nat} {ds : List Desc} (away : dev ≠ s.device) (fit : ∀ d ∈ ds, s.firstChecks dev k d = none) : s.sendSess dev k dom ds = s.forward dev k dom ds := by
  have bad : (ds.filter fun d => (s.firstChecks dev k d).isSome) = [] := List.filter_eq_nil_iff.mpr fun d hd => by rw [fit d hd]; decide
  have good : (ds.filter fun d => (s.firstChecks dev k d).isNone) = ds := List.filter_eq_self.mpr fun d hd => by rw [fit d hd]; rfl
  unfold State.sendSess
  dsimp only
  rw [if_neg away, bad, good]
  rfl

section
variable {s : State} {home k dom : Nat} {ds : List Desc}

/-- The descriptors form one COMMAND, which awaits its acknowledgement. -/
theorem forward_commands (some' : ds ≠ []) (room : s.dx.fwd.length < 4096) : (∃ f ∈ (s.forward home k dom ds).dx.fwd, f.home = home ∧ f.id = (s.peer home).txId ∧ f.dom = dom ∧ f.ds = ds) ∧
    (s.forward home k dom ds).ss = s.ss := by
  unfold State.forward
  dsimp only
  rw [if_neg some', if_neg (Nat.not_le_of_lt room)]
  generalize hv : ((State.setPeer s home { s.peer home with txId := ((s.peer home).txId + 1) % 2 ^ 32 }).inc Dict.sessForwardCount ds.length 0 (chOf k)).ev 0x086 (some (chOf k)) ds.length 0 (some dom) = v
  have ss : v.ss = s.ss := hv ▸ State.ev_ss _ _ _ _ _ _ _
  generalize hw : ({ v with dx := _ } : State) = w
  have fwd : w.dx.fwd = v.dx.fwd ++ [{ home := home, id := (s.peer home).txId, dom := dom, ds := ds, sent := none, since := v.now }] := hw ▸ rfl
  refine ⟨?_, (State.pumpForward_keeps (P := fun u => u.ss = w.ss) (frame_ss rfl w) w rfl).trans ((hw ▸ rfl : w.ss = v.ss).trans ss)⟩
  have same : w.pumpForward.dx.fwd.map Fwd.unsent = w.dx.fwd.map Fwd.unsent := pumpForward_same w
  have stands : Fwd.unsent { home := home, id := (s.peer home).txId, dom := dom, ds := ds, sent := none, since := v.now } ∈ w.dx.fwd.map Fwd.unsent := by
    rw [fwd]
    exact List.mem_map_of_mem (List.mem_append_right _ List.mem_cons_self)
  obtain ⟨f, hf, e⟩ := List.mem_map.mp (same ▸ stands)
  exact ⟨f, hf, (congrArg Fwd.home e :), (congrArg Fwd.id e :), (congrArg Fwd.dom e :), (congrArg Fwd.ds e :)⟩

/-- A full forward buffer ends a descriptor with SESSION_BUSY. -/
theorem forward_full {d : Desc} (full : 4096 ≤ s.dx.fwd.length) (cq : Tbl.sorted s.ss.cq) (room : s.stalled dom = false) : (s.forward home k dom [d]).dx.fwd = s.dx.fwd ∧ s.Fails dom d stBusy (s.forward home k dom [d]) := by
  have e : s.forward home k dom [d] = (s.inc Dict.dnxForwardBusyCount).failDesc (atHome dom d) stBusy 0 := by
    unfold State.forward
    dsimp only
    rw [if_neg (List.cons_ne_nil _ _), if_pos full]
    rfl
  rw [e]
  refine ⟨?_, (failDesc_fails (s := s.inc Dict.dnxForwardBusyCount) (d := d) cq room stBusy 0).1⟩
  exact (congrArg Dernyx.fwd (State.endDesc_keeps (P := fun u => u.dx = s.dx) (frame_dx rfl s) (s.inc Dict.dnxForwardBusyCount) _ _ _ _ _ rfl) :)

end

end Sys2Proof.Machine
end

section
/-! SUPPORT. O42: what a whole SEND leaves. -/

namespace Sys2Proof.Machine

open Sys2Proof

/-! ## The state in which a whole message lands -/

/-- The state in which a whole message's descriptors are checked. -/
def State.landing (s : State) (t : Nat) (p : SPkt) (ds : List Desc) : State := (((s.at t).nextOf p).noMessage p).ev 0x191 none ds.length 0 (some p.domain)

/-- The time is not read. -/
theorem State.Reads.ofAt {s z : State} {t : Nat} (h : (s.at t).Reads z) : s.Reads z := by
  obtain ⟨ss, dx, fns, nv, pk, settings⟩ := h
  exact ⟨ss, dx, fns, nv, pk, settings⟩

theorem landing_reads (s : State) (t : Nat) (p : SPkt) (ds : List Desc) : s.Reads (s.landing t p ds) := by
  have next : (s.at t).Reads ((s.at t).nextOf p) := State.Reads.of (T := [.ctr, .ev, .sl]) rfl fun st hs => nextOf_keeps st p hs
  unfold State.landing
  generalize (s.at t).nextOf p = v at next ⊢
  have noted : v.Reads ((v.noMessage p).ev 0x191 none ds.length 0 (some p.domain)) := State.Reads.of (T := [.ev, .sl]) rfl fun st hs => st.ev rfl _ _ _ _ _ _ _ (st.sl rfl _ _ rfl hs)
  exact next.ofAt.trans noted

section
variable {s z : State} (h : s.Reads z) {dev k dom : Nat} {d : Desc}
include h

theorem State.Reads.admits (ok : s.Admits k dom d) : z.Admits k dom d :=
  ⟨(h.chOn _).trans ok.up, by rw [h.sess]; exact ok.owner, ok.gen.trans (h.genOf k).symm⟩

theorem State.Reads.sound (ok : s.Sound dev k dom d) : z.Sound dev k dom d :=
  ⟨(h.firstChecks _ _ _).trans ok.pass, h.admits ok.admits, (h.late _).trans ok.inTime⟩

theorem State.Reads.ends {st : Nat} {u : State} (ends : z.Ends k dom d st u) : s.Ends k dom d st u :=
  ⟨ends.1.trans (h.sess k), ends.2.from (congrArg Sessions.cq h.ss)⟩

end

theorem State.Ends.acks {s w u : State} {k dom st f : Nat} {d : Desc} (h : s.Ends k dom d st w) (acks : w.Acks f u) : s.Ends k dom d st u :=
  ⟨(State.sess_of_tbl (congrArg Sessions.tbl acks.ss) k).trans h.1, h.2.to (congrArg Sessions.cq acks.ss)⟩

/-! ## A whole message (R146, R403, R430) -/

section
variable {s : State} {p : SPkt} (h : s.InOrder p) (t : Nat) (turn : (s.flow p.flow).turn p) (sound : tgtOk p.target = true) (fit : (s.flow p.flow).fits p) (last : p.last = true)
include h turn sound fit last

/-- A message for a session's ring. -/
theorem whole_sess (sess : tgtType p.target = 1) {ds : List Desc} (hds : parseDescs ((s.flow p.flow).bytes p) = ds) : s.Carries (.slaiskSend t p) p fun u =>
    (u.flow p.flow).msg = none ∧ ((s.landing t p ds).sendSess (bits p.target 25 20) (bits p.target 19 0) p.domain ds).Acks p.flow u := by
  subst hds
  refine (send_whole h t turn sound (.inl sess) fit last).imp fun u hu => ?_
  have lands : (((s.at t).nextOf p).noMessage p).landSend p.target p.domain ((s.flow p.flow).bytes p) = (s.landing t p (parseDescs ((s.flow p.flow).bytes p))).sendSess (bits p.target 25 20) (bits p.target 19 0) p.domain (parseDescs ((s.flow p.flow).bytes p)) := by
    unfold State.landSend State.landing
    exact if_pos sess
  exact lands ▸ hu

/-- A message for the control ring of its domain. -/
theorem whole_dom (ring : tgtType p.target = 2) (own : bits p.target 11 0 = p.domain) {ds : List Desc} (hds : parseDescs ((s.flow p.flow).bytes p) = ds) : s.Carries (.slaiskSend t p) p fun u =>
    (u.flow p.flow).msg = none ∧ ((s.landing t p ds).sendDom (bits p.target 25 20) p.domain ds).Acks p.flow u := by
  subst hds
  refine (send_whole h t turn sound (.inr ⟨ring, own⟩) fit last).imp fun u hu => ?_
  have lands : (((s.at t).nextOf p).noMessage p).landSend p.target p.domain ((s.flow p.flow).bytes p) = (s.landing t p (parseDescs ((s.flow p.flow).bytes p))).sendDom (bits p.target 25 20) p.domain (parseDescs ((s.flow p.flow).bytes p)) := by
    unfold State.landSend State.landing
    exact if_neg (by rw [ring]; decide)
  exact lands ▸ hu

/-! ## The control ring of the domain -/

section
variable (ring : tgtType p.target = 2) (own : bits p.target 11 0 = p.domain) (home : bits p.target 25 20 = s.device)
include ring own home

theorem send_joinsDom (rings : Tbl.sorted s.ss.rings) {ds : List Desc} (hds : parseDescs ((s.flow p.flow).bytes p) = ds) (good : ∀ d ∈ ds, descForm domOps d = true ∧ s.isLate d.deadline = false)
    (room : (s.dring p.domain).waiting.length + ds.length ≤ 256) :
    s.Carries (.slaiskSend t p) p fun u => (u.flow p.flow).msg = none ∧ u.dring p.domain = { s.dring p.domain with waiting := (s.dring p.domain).waiting ++ ds.map (atHome p.domain) } := by
  refine (whole_dom h t turn sound fit last ring own hds).imp fun u ⟨msg, acks⟩ => ⟨msg, ?_⟩
  have reads := landing_reads s t p ds
  generalize s.landing t p ds = z at reads acks
  rw [home, ← reads.device] at acks
  refine (dring_of (congrArg Sessions.rings acks.ss) _).trans ?_
  rw [sendDom_queues (fun d hd => by rw [reads.late]; exact good d hd) (by rw [reads.dring]; exact room) (by rw [reads.ss]; exact rings), reads.dring]

theorem send_failsDom {d : Desc} (hds : parseDescs ((s.flow p.flow).bytes p) = [d]) {st : Nat}
    (fails : ∀ z, s.Reads z → z.Fails p.domain d st (z.enqueueDom p.domain (atHome p.domain d)) ∧ (z.enqueueDom p.domain (atHome p.domain d)).ss.rings = z.ss.rings) :
    s.Carries (.slaiskSend t p) p fun u => (u.flow p.flow).msg = none ∧ u.ss.rings = s.ss.rings ∧ s.Fails p.domain d st u := by
  refine (whole_dom h t turn sound fit last ring own hds).imp fun u ⟨msg, acks⟩ => ⟨msg, ?_⟩
  have reads := landing_reads s t p [d]
  generalize s.landing t p [d] = z at reads acks
  rw [home, ← reads.device] at acks
  have lands : z.sendDom z.device p.domain [d] = z.enqueueDom p.domain (atHome p.domain d) := if_pos rfl
  rw [lands] at acks
  obtain ⟨failed, rings⟩ := fails z reads
  exact ⟨(congrArg Sessions.rings acks.ss).trans (rings.trans (congrArg Sessions.rings reads.ss)), (failed.from (congrArg Sessions.cq reads.ss)).to (congrArg Sessions.cq acks.ss)⟩

theorem send_dom (cq : Tbl.sorted s.ss.cq) (open' : s.stalled p.domain = false) {d : Desc} (hds : parseDescs ((s.flow p.flow).bytes p) = [d]) :
    (descForm domOps d = false → s.Carries (.slaiskSend t p) p fun u => (u.flow p.flow).msg = none ∧ u.ss.rings = s.ss.rings ∧ s.Fails p.domain d stBad u) ∧
    (descForm domOps d = true → s.isLate d.deadline = true → s.Carries (.slaiskSend t p) p fun u => (u.flow p.flow).msg = none ∧ u.ss.rings = s.ss.rings ∧ s.Fails p.domain d stDeadline u) ∧
    (descForm domOps d = true → s.isLate d.deadline = false → 256 ≤ (s.dring p.domain).waiting.length →
      s.Carries (.slaiskSend t p) p fun u => (u.flow p.flow).msg = none ∧ u.ss.rings = s.ss.rings ∧ s.Fails p.domain d stBusy u) := by
  have turned := fun st fails => send_failsDom h t turn sound fit last ring own home hds (st := st) fails
  have checks := fun (z : State) (reads : s.Reads z) => enqueueDom_fails (s := z) (dom := p.domain) (d := d) (by rw [reads.ss]; exact cq) ((reads.stalled _).trans open')
  exact ⟨fun bad => turned _ fun z reads => (checks z reads).1 bad, fun form late => turned _ fun z reads => (checks z reads).2.1 form ((reads.late _).trans late),
    fun form inTime full => turned _ fun z reads => (checks z reads).2.2 form ((reads.late _).trans inTime) (by rw [reads.dring]; exact full)⟩

end

/-! ## A session's ring at its home -/

section
variable (sess : tgtType p.target = 1)
include sess

section
variable (home : bits p.target 25 20 = s.device)
include home

/-- The descriptors are checked one after the other. -/
theorem send_lands {ds : List Desc} (hds : parseDescs ((s.flow p.flow).bytes p) = ds) : s.Carries (.slaiskSend t p) p fun u =>
    (u.flow p.flow).msg = none ∧ ∃ z, s.Reads z ∧ (z.each ds fun d u => u.landDesc (bits p.target 25 20) (bits p.target 19 0) p.domain d).Acks p.flow u := by
  refine (whole_sess h t turn sound fit last sess hds).imp fun u ⟨msg, acks⟩ => ⟨msg, s.landing t p ds, landing_reads s t p ds, ?_⟩
  have reads := landing_reads s t p ds
  generalize s.landing t p ds = z at reads acks ⊢
  rw [home, ← reads.device] at acks ⊢
  rw [sendSess_home] at acks
  exact acks

theorem send_joins (tbl : Tbl.sorted s.ss.tbl) {ds : List Desc} (some' : ds ≠ []) (hds : parseDescs ((s.flow p.flow).bytes p) = ds)
    (good : ∀ d ∈ ds, s.Sound (bits p.target 25 20) (bits p.target 19 0) p.domain d ∧ d.opcode ≠ 0x09 ∧ d.opcode ≠ 0x0A) (room : (s.sess (bits p.target 19 0)).ring.length + ds.length ≤ 16) :
    s.Carries (.slaiskSend t p) p fun u => (u.flow p.flow).msg = none ∧
      u.sess (bits p.target 19 0) = { s.sess (bits p.target 19 0) with ring := (s.sess (bits p.target 19 0)).ring ++ ds.map (atHome p.domain), tail := ((s.sess (bits p.target 19 0)).tail + ds.length) % 65536 } := by
  refine (send_lands h t turn sound fit last sess home hds).imp fun u ⟨msg, z, reads, acks⟩ => ⟨msg, ?_⟩
  refine (State.sess_of_tbl (congrArg Sessions.tbl acks.ss) _).trans ?_
  rw [landDescs_join (fun d hd => ⟨reads.sound (good d hd).1, (good d hd).2⟩) (by rw [reads.sess]; exact room) (by rw [reads.ss]; exact tbl), reads.sess, if_neg some']

theorem send_immediate (tbl : Tbl.sorted s.ss.tbl) {d : Desc} (hds : parseDescs ((s.flow p.flow).bytes p) = [d]) (ok : s.Sound (bits p.target 25 20) (bits p.target 19 0) p.domain d) :
    (d.opcode = 0x09 → s.Carries (.slaiskSend t p) p fun u => (u.flow p.flow).msg = none ∧ u.sess (bits p.target 19 0) = { s.sess (bits p.target 19 0) with imm := (s.sess (bits p.target 19 0)).imm ++ [atHome p.domain d] }) ∧
    (d.opcode = 0x0A → (s.sess (bits p.target 19 0)).closePend = false →
      s.Carries (.slaiskSend t p) p fun u => (u.flow p.flow).msg = none ∧ u.sess (bits p.target 19 0) = { s.sess (bits p.target 19 0) with imm := (s.sess (bits p.target 19 0)).imm ++ [atHome p.domain d], closePend := true }) := by
  have lands := send_lands h t turn sound fit last sess home hds
  refine ⟨fun query => lands.imp fun u ⟨msg, z, reads, acks⟩ => ⟨msg, ?_⟩, fun close once => lands.imp fun u ⟨msg, z, reads, acks⟩ => ⟨msg, ?_⟩⟩
  all_goals
    obtain ⟨pass, admits, inTime⟩ := reads.sound ok
    refine (State.sess_of_tbl (congrArg Sessions.tbl acks.ss) _).trans ?_
    show (z.landDesc _ _ _ d).sess _ = _
    rw [landDesc_enqueues pass, enqueue_admits admits]
  · rw [enqueueIn_queries inTime query, sess_setSess (by rw [reads.ss]; exact tbl), reads.sess]
  · rw [enqueueIn_closes inTime close, if_neg (by rw [reads.sess, once]; decide), sess_setSess (by rw [reads.ss]; exact tbl), reads.sess]

/-- A descriptor that fails a check, whichever. -/
theorem send_fails {d : Desc} (hds : parseDescs ((s.flow p.flow).bytes p) = [d]) {st : Nat}
    (fails : ∀ z, s.Reads z → z.Ends (bits p.target 19 0) p.domain d st (z.landDesc (bits p.target 25 20) (bits p.target 19 0) p.domain d)) :
    s.Carries (.slaiskSend t p) p fun u => (u.flow p.flow).msg = none ∧ s.Ends (bits p.target 19 0) p.domain d st u :=
  (send_lands h t turn sound fit last sess home hds).imp fun _ ⟨msg, z, reads, acks⟩ => ⟨msg, (reads.ends (fails z reads)).acks acks⟩

theorem send_ends (cq : Tbl.sorted s.ss.cq) (open' : s.stalled p.domain = false) {d : Desc} (hds : parseDescs ((s.flow p.flow).bytes p) = [d]) :
    let dev := bits p.target 25 20
    let k := bits p.target 19 0
    let ends (st : Nat) : Prop := s.Carries (.slaiskSend t p) p fun u => (u.flow p.flow).msg = none ∧ s.Ends k p.domain d st u
    let owned : Prop := opensSess d ∨ (s.sess k).st = .free ∨ (s.sess k).dom = p.domain
    (∀ e, s.firstChecks dev k d = some e → ends e.1) ∧ (s.firstChecks dev k d = none → s.chOn (chOf k) = false → ends stBad) ∧ (s.firstChecks dev k d = none → s.chOn (chOf k) = true → ¬owned → ends stDenied) ∧
    (s.firstChecks dev k d = none → s.chOn (chOf k) = true → owned → handleGen d.session ≠ s.genOf k → ends stBad) ∧ (s.firstChecks dev k d = none → s.Admits k p.domain d → s.isLate d.deadline = true → ends stDeadline) ∧
    (s.Sound dev k p.domain d → d.opcode = 0x0A → (s.sess k).closePend = true → ends stBusy) ∧ (s.Sound dev k p.domain d → d.opcode ≠ 0x09 → d.opcode ≠ 0x0A → 16 ≤ (s.sess k).ring.length → ends stBusy) := by
  have turned := fun st fails => send_fails h t turn sound fit last sess home hds (st := st) fails
  have checks := fun (z : State) (reads : s.Reads z) =>
    landDesc_ends (s := z) (dev := bits p.target 25 20) (k := bits p.target 19 0) (dom := p.domain) (d := d) (by rw [reads.ss]; exact cq) ((reads.stalled _).trans open')
  refine ⟨fun e hit => turned _ fun z r => ?_, fun pass down => turned _ fun z r => ?_, fun pass up other => turned _ fun z r => ?_, fun pass up owner old => turned _ fun z r => ?_, fun pass ok late => turned _ fun z r => ?_,
    fun ok close pending => turned _ fun z r => ?_, fun ok no9 noA full => turned _ fun z r => ?_⟩
  all_goals obtain ⟨hit', down', other', old', late', pending', full'⟩ := checks z r
  · exact hit' e ((r.firstChecks _ _ _).trans hit)
  · exact down' ((r.firstChecks _ _ _).trans pass) ((r.chOn _).trans down)
  · exact other' ((r.firstChecks _ _ _).trans pass) ((r.chOn _).trans up) (by rw [r.sess]; exact other)
  · exact old' ((r.firstChecks _ _ _).trans pass) ((r.chOn _).trans up) (by rw [r.sess]; exact owner) (by rw [r.genOf]; exact old)
  · exact late' ((r.firstChecks _ _ _).trans pass) (r.admits ok) ((r.late _).trans late)
  · obtain ⟨pass, admits, inTime⟩ := r.sound ok
    exact pending' pass admits inTime close (by rw [r.sess]; exact pending)
  · obtain ⟨pass, admits, inTime⟩ := r.sound ok
    exact full' pass admits inTime no9 noA (by rw [r.sess]; exact full)

end

/-! ## A session's ring at another device -/

variable (away : bits p.target 25 20 ≠ s.device)
include away

theorem send_forwards {ds : List Desc} (hds : parseDescs ((s.flow p.flow).bytes p) = ds) (pass : ∀ d ∈ ds, s.firstChecks (bits p.target 25 20) (bits p.target 19 0) d = none) :
    s.Carries (.slaiskSend t p) p fun u => (u.flow p.flow).msg = none ∧ ∃ z, s.Reads z ∧ (z.forward (bits p.target 25 20) (bits p.target 19 0) p.domain ds).Acks p.flow u := by
  refine (whole_sess h t turn sound fit last sess hds).imp fun u ⟨msg, acks⟩ => ⟨msg, s.landing t p ds, landing_reads s t p ds, ?_⟩
  have reads := landing_reads s t p ds
  generalize s.landing t p ds = z at reads acks ⊢
  rwa [sendSess_away (by rw [reads.device]; exact away) fun d hd => (reads.firstChecks _ _ _).trans (pass d hd)] at acks

theorem send_commands {ds : List Desc} (some' : ds ≠ []) (hds : parseDescs ((s.flow p.flow).bytes p) = ds) (pass : ∀ d ∈ ds, s.firstChecks (bits p.target 25 20) (bits p.target 19 0) d = none) (room : s.dx.fwd.length < 4096) :
    s.Carries (.slaiskSend t p) p fun u => (u.flow p.flow).msg = none ∧
      (∃ f ∈ u.dx.fwd, f.home = bits p.target 25 20 ∧ f.id = (s.peer (bits p.target 25 20)).txId ∧ f.dom = p.domain ∧ f.ds = ds) ∧ u.ss = s.ss := by
  refine (send_forwards h t turn sound fit last sess away hds pass).imp fun u ⟨msg, z, reads, acks⟩ => ⟨msg, ?_⟩
  obtain ⟨⟨f, hf, atHome, id, dom, carried⟩, ss⟩ := forward_commands (s := z) (home := bits p.target 25 20) (k := bits p.target 19 0) (dom := p.domain) some' (by rw [reads.dx]; exact room)
  have peer : z.peer (bits p.target 25 20) = s.peer (bits p.target 25 20) := by unfold State.peer; rw [reads.dx]
  exact ⟨⟨f, by rw [acks.dx]; exact hf, atHome, id.trans (congrArg _ peer), dom, carried⟩, acks.ss.trans (ss.trans reads.ss)⟩

theorem send_full (cq : Tbl.sorted s.ss.cq) (open' : s.stalled p.domain = false) {d : Desc} (hds : parseDescs ((s.flow p.flow).bytes p) = [d]) (pass : s.firstChecks (bits p.target 25 20) (bits p.target 19 0) d = none)
    (full : 4096 ≤ s.dx.fwd.length) : s.Carries (.slaiskSend t p) p fun u => (u.flow p.flow).msg = none ∧ u.dx.fwd = s.dx.fwd ∧ s.Fails p.domain d stBusy u := by
  refine (send_forwards h t turn sound fit last sess away hds (List.forall_mem_singleton.mpr pass)).imp fun u ⟨msg, z, reads, acks⟩ => ⟨msg, ?_⟩
  obtain ⟨fwd, fails⟩ := forward_full (s := z) (home := bits p.target 25 20) (k := bits p.target 19 0) (dom := p.domain) (d := d) (by rw [reads.dx]; exact full) (by rw [reads.ss]; exact cq) ((reads.stalled _).trans open')
  exact ⟨(congrArg Dernyx.fwd acks.dx).trans (fwd.trans (congrArg Dernyx.fwd reads.dx)), (fails.from (congrArg Sessions.cq reads.ss)).to (congrArg Sessions.cq acks.ss)⟩

end

end

/-- A message of at least a descriptor's length holds a descriptor. -/
theorem parseDescs_some {b : Bytes} (h : 64 ≤ b.length) : parseDescs b ≠ [] := by
  intro none
  have n := congrArg List.length none
  unfold parseDescs at n
  rw [List.length_map, List.length_range, List.length_nil] at n
  omega

end Sys2Proof.Machine
end

section
/-! SUPPORT. O42: WRITE, doorbell and FLUSH packets, and those of no effect. -/

namespace Sys2Proof.Machine

open Sys2Proof

/-! ## What the state in which the next packet acts keeps -/

section
variable (s : State) (t : Nat) (p : SPkt)

theorem nextOf_reads : s.Reads ((s.at t).nextOf p) := (State.Reads.of (s := s.at t) (T := [.ctr, .ev, .sl]) rfl fun st hs => nextOf_keeps st p hs).ofAt

theorem nextOf_wins : ((s.at t).nextOf p).sl.wins = s.sl.wins := (congrArg Slaisk.wins (received_sl (s.at t) p) :)

theorem nextOf_regs : ((s.at t).nextOf p).regs = ((s.at t).inc Dict.slaiskRxPackets).regs := (State.ev_regs _ _ _ _ _ _ _).trans (State.ev_regs _ _ _ _ _ _ _)

theorem nextOf_reg {x : Entry} {sub i : Nat} (other : regKey x sub i ≠ regKey Dict.slaiskRxPackets 0 0) : ((s.at t).nextOf p).reg x sub i = s.reg x sub i := by
  refine Eq.trans ?_ (State.setReg_other (t := s.at t) (v := ((s.at t).reg Dict.slaiskRxPackets + 1) % 2 ^ Dict.slaiskRxPackets.ty.width) other)
  unfold State.reg
  rw [nextOf_regs]
  rfl

theorem nextOf_regs_sorted (h : Tbl.sorted s.regs) : Tbl.sorted ((s.at t).nextOf p).regs := by
  rw [nextOf_regs]
  exact Tbl.put_sorted h

theorem nextOf_winCheck (w d : Nat) : ((s.at t).nextOf p).winCheck w d = s.winCheck w d := by
  have fns := (nextOf_reads s t p).fns
  unfold State.winCheck State.win State.isOn State.fn
  rw [nextOf_wins, fns]

theorem nextOf_win (w : Nat) : ((s.at t).nextOf p).win w = s.win w := by
  unfold State.win
  rw [nextOf_wins]

end

variable {s : State} {p : SPkt}

/-! ## Packets of no effect (R379, R381) -/

/-- A refusal that changes nothing more. -/
theorem refuses_at {t : Nat} {i : Instr} {op : State → Nat × State} (h : s.InOrder p) (hi : exec i s = run i t s fun s => s.rxSeq p op) (wf : i.wf = decide (p.port < 2)) {e : Nat} (bad : e ≠ 0)
    (acts : op ((s.at t).nextOf p) = (e, (s.at t).nextOf p)) : s.RefusesPkt t i p e := refuses_of h hi wf bad acts (nextOf_refused h.flows t)

theorem badOp_refused (h : s.InOrder p) (t : Nat) : ∀ i ∈ [Instr.slaiskRead t p, .slaiskAtomicAdd t p, .slaiskCas t p], s.RefusesPkt t i p 0x14 := by
  simp only [List.mem_cons, List.not_mem_nil, or_false, forall_eq_or_imp, forall_eq]
  exact ⟨refuses_at (i := .slaiskRead t p) h (execSlaiskRead.eq_1 t p s) rfl (by decide) rfl, refuses_at (i := .slaiskAtomicAdd t p) h (execSlaiskAtomicAdd.eq_1 t p s) rfl (by decide) rfl, refuses_at (i := .slaiskCas t p) h (execSlaiskCas.eq_1 t p s) rfl (by decide) rfl⟩

theorem noAnswer_refused (h : s.InOrder p) (t : Nat) : ∀ i ∈ [Instr.slaiskAtomicResponse t p, .windowReply t p], s.RefusesPkt t i p 0x15 := by
  simp only [List.mem_cons, List.not_mem_nil, or_false, forall_eq_or_imp, forall_eq]
  exact ⟨refuses_at (i := .slaiskAtomicResponse t p) h (execSlaiskAtomicResponse.eq_1 t p s) rfl (by decide) rfl, refuses_at (i := .windowReply t p) h (execWindowReply.eq_1 t p s) rfl (by decide) rfl⟩

/-- A refusal for its window's state, which may be counted (R400). -/
theorem refuses_window {t : Nat} {i : Instr} {op : State → Nat × State} (h : s.InOrder p) (hi : exec i s = run i t s fun s => s.rxSeq p op) (wf : i.wf = decide (p.port < 2)) {e : Nat} (bad : e ≠ 0)
    (acts : op ((s.at t).nextOf p) = ((s.at t).nextOf p).winRefuse p.flow e) : s.RefusesPkt t i p e := by
  refine refuses_of h hi wf bad (acts.trans rfl) ?_
  refine when_keeps (P := s.Refused t p) (fun u hu => ?_) (nextOf_refused h.flows t)
  obtain ⟨⟨⟨m, flow⟩, fns⟩, count, regs, wins, same⟩ := hu
  have noted : ((u.inc Dict.slaiskRevokedCount).ev 0x190 none 1 p.flow).regs = (u.inc Dict.slaiskRevokedCount).regs := State.ev_regs _ _ _ _ _ _ _
  have kept := (ev_reg (u.inc Dict.slaiskRevokedCount) 0x190 none 1 p.flow none none Dict.slaiskNakErrorCount).trans (inc_other (s := u) (by decide))
  exact ⟨⟨⟨m, (flow.inc _ rfl _ _ _).ev _ _ _ _ _ _⟩, (State.ev_fns _ _ _ _ _ _ _).trans fns⟩, kept.trans count, fun h => noted ▸ Tbl.put_sorted (regs h), (congrArg Slaisk.wins (State.ev_sl _ _ _ _ _ _ _) :).trans wins,
    same.trans (frame_op (T := [.ctr, .ev]) (by decide) fun st hs => st.ev rfl _ _ _ _ _ _ _ (st.ctrInc rfl _ _ _ _ _ rfl hs))⟩

/-! ## What is sent leaves a counter that counts nothing of it -/

section
variable {P : State → Prop} (st : Stable [.out, .notify, .ss, .sl, .ev] P) (tx : ∀ u : State, P u → P (u.inc Dict.slaiskTxPackets))
include st tx

theorem emit_sends {s : State} (f : Nat) (q : TxPkt) (hs : P s) : P (s.emit f q) := by
  unfold State.emit
  dsimp only
  split
  · exact hs
  · split
    · exact hs
    · exact st.ev rfl _ _ _ _ _ _ _ (st.ev rfl _ _ _ _ _ _ _ (st.out rfl _ _ (tx _ hs)))

theorem pump_sends {s : State} (f : Nat) (hs : P s) : P (s.pump f) := by
  unfold State.pump
  dsimp only
  split
  · exact hs
  · exact State.armRto_keeps (st.mono rfl) _ _ (each_keeps (P := P) (fun q u hu => emit_sends st tx f q hu) (State.setFlow_keeps (st.mono rfl) _ _ _ hs))

theorem txPacket_sends {s : State} (f op : Nat) (a b : Bool) (i j k l : Nat) (d : Bytes) (o : Option OpFor) (hs : P s) : P (s.txPacket f op a b i j k l d o) := by
  unfold State.txPacket
  dsimp only
  split
  · exact pump_sends st tx f (State.setFlow_keeps (st.mono rfl) _ _ _ hs)
  · exact hs

theorem writeRec_sends {s : State} (d : Nat) (r : Rec) (hs : P s) : P (s.writeRec d r) := by
  unfold State.writeRec State.txWrite
  dsimp only
  exact each_keeps (P := P) (fun _ u hu => txPacket_sends st tx _ _ _ _ _ _ _ _ _ _ hu) (when_keeps (P := P) (fun u hu => State.setFlow_keeps (st.mono rfl) _ _ _ hu) (State.setCq_keeps (st.mono rfl) _ _ _ hs))

theorem sendNotif_sends {s : State} (d : Nat) (r : Rec) (hs : P s) : P (s.sendNotif d r) := by
  unfold State.sendNotif State.txFlush
  dsimp only
  split
  · exact st.ev rfl _ _ _ _ _ _ _ (st.ev rfl _ _ _ _ _ _ _ (txPacket_sends st tx _ _ _ _ _ _ _ _ _ _ hs))
  · have held := State.setCq_keeps (st.mono rfl) s d { s.cq d with flushing := (s.cq d).flushing ++ [r] } hs
    split
    · exact st.ev rfl _ _ _ _ _ _ _ (txPacket_sends st tx _ _ _ _ _ _ _ _ _ _ (State.setFlow_keeps (st.mono rfl) _ _ _ held))
    · exact held

theorem releaseOne_sends {s : State} (d : Nat) (hs : P s) : P (s.releaseOne d).1 := by
  have held := fun q => State.setCq_keeps (st.mono rfl) s d q hs
  unfold State.releaseOne
  dsimp only
  split
  · exact hs
  · split
    · split
      · exact held _
      · split
        · exact sendNotif_sends st tx _ _ (held _)
        · exact hs
    · split
      · exact writeRec_sends st tx _ _ (held _)
      · exact hs

theorem release_sends {s : State} (d : Nat) (hs : P s) : P (s.release d) := by
  have some' : ∀ (n : Nat) {u : State}, P u → P (State.releaseSome n d u) := by
    intro n
    induction n with
    | zero => exact fun hu => hu
    | succ n ih =>
      intro u hu
      unfold State.releaseSome
      dsimp only
      split
      · exact ih (releaseOne_sends st tx d hu)
      · exact releaseOne_sends st tx d hu
  exact State.fillHub_keeps (st.mono rfl) _ (some' _ hs)

end

/-- Held records that go out leave what the host has consumed. -/
theorem release_consumed (s : State) (d i : Nat) : (s.release d).reg Dict.dsessCompletionConsumed 0 i = s.reg Dict.dsessCompletionConsumed 0 i := by
  have kept : Stable [.out, .notify, .ss, .sl, .ev] fun u => u.reg Dict.dsessCompletionConsumed 0 i = s.reg Dict.dsessCompletionConsumed 0 i := fun q hq =>
    match q, hq with
    | .out, _ => fun _ _ h => h
    | .notify, _ => fun u via r d h => (congrArg (fun l => Tbl.get Dict.dsessCompletionConsumed.dflt l (regKey Dict.dsessCompletionConsumed 0 i)) (State.notifyVia_regs u via r d) :).trans h
    | .ss, _ => fun _ _ h => h
    | .sl, _ => fun _ _ _ h => h
    | .ev, _ => fun u _ _ _ _ _ _ h => (ev_reg' _ _ _ _ _ _ _ _ _ _).trans h
  have other : regKey Dict.dsessCompletionConsumed 0 i ≠ regKey Dict.slaiskTxPackets 0 0 := key_far 0 0 i 0 (.inr (by decide)) rfl
  exact release_sends kept (fun u hu => (State.setReg_other other).trans hu) d rfl

theorem release_none {s : State} {d : Nat} (cq : Tbl.sorted s.ss.cq) (none : (s.cq d).held = []) : ((s.release d).cq d).written = (s.cq d).written := by
  have e : s.release d = s.fillHub := by unfold State.release; rw [none]; rfl
  rw [e]
  exact (fillHub_written (s := s) ⟨cq, none, rfl⟩).2.2

end Sys2Proof.Machine
end

section
/-! SUPPORT. O42: a WRITE's window and doorbell, and a FLUSH's answer. -/

namespace Sys2Proof.Machine

open Sys2Proof

variable {s : State} {p : SPkt}

/-! ## WRITE (R379, R394, R402) -/

/-- A doorbell's WRITE and a plain WRITE do the same. -/
theorem write_exec (s : State) (t : Nat) (p : SPkt) : ∀ i ∈ [Instr.slaiskWrite t p, .doorbellWrite t p], exec i s = run i t s (fun s => s.rxSeq p fun s => s.opWrite p) ∧ i.wf = decide (p.port < 2) := by
  simp only [List.mem_cons, List.not_mem_nil, or_false, forall_eq_or_imp, forall_eq]
  refine ⟨⟨execSlaiskWrite.eq_1 t p s, rfl⟩, (execDoorbellWrite.eq_1 t p s).trans ?_, rfl⟩
  have same : (fun v : State => if tgtOk p.target = false then (0x10, v) else if tgtType p.target ≠ 4 then v.opWrite p else v.doorbell p) = fun v => v.opWrite p := by
    funext v
    unfold State.opWrite
    split
    · rfl
    · split
      · rfl
      · next bell => rw [if_pos (Decidable.not_not.mp bell)]
  exact congrArg (fun op => run (.doorbellWrite t p) t s fun s => s.rxSeq p op) same

section
variable (h : s.InOrder p) {t : Nat} {i : Instr} (hi : i ∈ [Instr.slaiskWrite t p, .doorbellWrite t p])
include h hi

theorem write_refuses {e : Nat} (bad : e ≠ 0) (acts : ((s.at t).nextOf p).opWrite p = (e, (s.at t).nextOf p)) : s.RefusesPkt t i p e :=
  refuses_at h (write_exec s t p i hi).1 (write_exec s t p i hi).2 bad acts

theorem write_badTarget (bad : tgtOk p.target = false) : s.RefusesPkt t i p 0x10 := write_refuses h hi (by decide) (if_pos bad)

variable (sound : tgtOk p.target = true)
include sound

theorem write_badType (no3 : tgtType p.target ≠ 3) (no4 : tgtType p.target ≠ 4) : s.RefusesPkt t i p 0x14 :=
  write_refuses h hi (by decide) ((if_neg (by rw [sound]; decide)).trans ((if_neg no4).trans (if_pos no3)))

section
variable (win : tgtType p.target = 3)
include win

omit h hi in
/-- A WRITE to a window is put to the window's checks. -/
theorem opWrite_window : ((s.at t).nextOf p).opWrite p = if s.winCheck p.target p.domain ≠ 0 then ((s.at t).nextOf p).winRefuse p.flow (s.winCheck p.target p.domain)
    else if (s.win (p.target % 65536)).size < p.offset + p.data.length then (0x11, (s.at t).nextOf p)
    else (0, ((s.at t).nextOf p).setWin (p.target % 65536) ((s.win (p.target % 65536)).write p.offset p.data)) := by
  unfold State.opWrite
  dsimp only
  rw [if_neg (by rw [sound]; decide), if_neg (by rw [win]; decide), if_neg fun q => q win, nextOf_winCheck, nextOf_win]

theorem write_closed (bad : s.winCheck p.target p.domain ≠ 0) : s.RefusesPkt t i p (s.winCheck p.target p.domain) :=
  refuses_window h (write_exec s t p i hi).1 (write_exec s t p i hi).2 bad ((opWrite_window sound win).trans (if_pos bad))

variable (open' : s.winCheck p.target p.domain = 0)
include open'

theorem write_beyond (long : (s.win (p.target % 65536)).size < p.offset + p.data.length) : s.RefusesPkt t i p 0x11 :=
  write_refuses h hi (by decide) ((opWrite_window sound win).trans ((if_neg fun q => q open').trans (if_pos long)))

theorem write_places (fit : p.offset + p.data.length ≤ (s.win (p.target % 65536)).size) (wins : Tbl.sorted s.sl.wins) :
    s.Carries i p fun u => u.win (p.target % 65536) = (s.win (p.target % 65536)).write p.offset p.data ∧ ∀ j ≠ p.target % 65536, u.win j = s.win j := by
  have acts := (opWrite_window (t := t) sound win).trans ((if_neg fun q => q open').trans (if_neg (Nat.not_lt_of_le fit)))
  have kept := nextOf_wins s t p
  obtain ⟨⟨m, sorted, flow⟩, fns⟩ := nextOf_did (s := s.at t) (p := p) h.flows
  refine carries_of h (write_exec s t p i hi).1 (write_exec s t p i hi).2 acts ⟨⟨m, sorted, flow⟩, fns⟩ fun u acks => ?_
  have got : ∀ j, u.win j = if j = p.target % 65536 then (s.win (p.target % 65536)).write p.offset p.data else s.win j := fun j => by
    refine (congrArg (fun l => Tbl.get ({} : Window) l j) acks.wins).trans ((Tbl.get_put (by rw [kept]; exact wins)).trans ?_)
    rw [kept]
    rfl
  exact ⟨(got _).trans (if_pos rfl), fun j other => (got j).trans (if_neg other)⟩

end

section
variable (bell : tgtType p.target = 4)
include bell

omit h hi in
theorem opWrite_bell : ((s.at t).nextOf p).opWrite p = ((s.at t).nextOf p).doorbell p := (if_neg (by rw [sound]; decide)).trans (if_pos bell)

theorem bell_otherDomain (other : p.target % 4096 ≠ p.domain) : s.RefusesPkt t i p 0x13 := write_refuses h hi (by decide) ((opWrite_bell sound bell).trans (if_pos other))

variable (own : p.target % 4096 = p.domain)
include own

theorem bell_badForm (bad : p.offset ≠ 0 ∨ p.data.length ≠ 8) : s.RefusesPkt t i p 0x11 :=
  write_refuses h hi (by decide) ((opWrite_bell sound bell).trans ((if_neg fun q => q own).trans (if_pos bad)))

/-- The state in which a doorbell's number is put to the queue. -/
def State.rung (s : State) (t : Nat) (p : SPkt) : State := ((s.at t).nextOf p).ev 0x199 none 1 p.flow (some p.domain)

omit h hi sound bell own in
theorem rung_reads (s : State) (t : Nat) (p : SPkt) : s.Reads (s.rung t p) := by
  have next := nextOf_reads s t p
  unfold State.rung
  generalize (s.at t).nextOf p = v at next ⊢
  exact next.trans (State.Reads.of (T := [.ev]) rfl fun st hs => st.ev rfl _ _ _ _ _ _ _ hs)

omit hi sound bell own in
theorem rung_is : FlowIs p.flow (s.nextFlow p (s.flow p.flow).msg) (s.rung t p) := FlowIs.ev (nextOf_is (s := s.at t) h.flows) _ _ _ _ _ _

omit h hi sound bell own in
theorem rung_reg {x : Entry} {sub i : Nat} (other : regKey x sub i ≠ regKey Dict.slaiskRxPackets 0 0) : (s.rung t p).reg x sub i = s.reg x sub i := (ev_reg' _ _ _ _ _ _ _ _ _ _).trans (nextOf_reg s t p other)

omit h hi sound bell own in
theorem rung_regs (h : Tbl.sorted s.regs) : Tbl.sorted (s.rung t p).regs := by
  unfold State.rung
  rw [State.ev_regs]
  exact nextOf_regs_sorted s t p h

variable (whole : p.offset = 0) (eight : p.data.length = 8)
include whole eight

omit h hi in
/-- A doorbell's WRITE of its domain is put to the queue. -/
theorem opWrite_rings : ((s.at t).nextOf p).opWrite p =
    if ((s.cq p.domain).written + 2 ^ 32 - s.reg Dict.dsessCompletionConsumed 0 p.domain) % 2 ^ 32 < (le p.data 0 4 + 2 ^ 32 - s.reg Dict.dsessCompletionConsumed 0 p.domain) % 2 ^ 32 then
      (0, (s.rung t p).inc Dict.slaiskBadDoorbellCount) else (0, ((s.rung t p).setReg Dict.dsessCompletionConsumed (le p.data 0 4) 0 p.domain).release p.domain) := by
  have last := nextOf_reg s t p (x := Dict.dsessCompletionConsumed) (sub := 0) (i := p.domain) (key_far 0 0 _ 0 (.inr (by decide)) rfl)
  have cq : (s.rung t p).cq p.domain = s.cq p.domain := cq_of_ss (rung_reads s t p).ss _
  rw [opWrite_bell sound bell]
  unfold State.doorbell
  dsimp only
  rw [if_neg fun q => q own, if_neg fun q => q.elim (fun k => k whole) fun k => k eight, own, last, show ((s.at t).nextOf p).ev 0x199 none 1 p.flow (some p.domain) = s.rung t p from rfl, cq]

variable (regs : Tbl.sorted s.regs)
include regs

theorem bell_bad (ahead : ((s.cq p.domain).written + 2 ^ 32 - s.reg Dict.dsessCompletionConsumed 0 p.domain) % 2 ^ 32 < (le p.data 0 4 + 2 ^ 32 - s.reg Dict.dsessCompletionConsumed 0 p.domain) % 2 ^ 32) :
    s.Carries i p fun u => s.counted Dict.slaiskBadDoorbellCount u ∧ u.reg Dict.dsessCompletionConsumed 0 p.domain = s.reg Dict.dsessCompletionConsumed 0 p.domain ∧ u.ss = s.ss := by
  have acts := (opWrite_rings (t := t) sound bell own whole eight).trans (if_pos ahead)
  have is := rung_is h (t := t)
  have reads := rung_reads s t p
  have count := rung_reg (s := s) (t := t) (p := p) (x := Dict.slaiskBadDoorbellCount) (sub := 0) (i := 0) (by decide)
  have consumed := rung_reg (s := s) (t := t) (p := p) (x := Dict.dsessCompletionConsumed) (sub := 0) (i := p.domain) (key_far 0 0 _ 0 (.inr (by decide)) rfl)
  have sorted := rung_regs (t := t) (p := p) regs
  generalize s.rung t p = v at acts is reads count consumed sorted
  refine carries_of h (write_exec s t p i hi).1 (write_exec s t p i hi).2 acts ⟨⟨_, is.inc _ rfl _ _ _⟩, reads.fns⟩ fun u acks => ?_
  have kept : ∀ e sub j, u.reg e sub j = (v.inc Dict.slaiskBadDoorbellCount).reg e sub j := fun e sub j => by unfold State.reg; rw [acks.regs]
  refine ⟨(kept _ _ _).trans ((inc_counted sorted _).trans (by rw [count])), (kept _ _ _).trans ((State.setReg_other ?_).trans consumed), acks.ss.trans reads.ss⟩
  exact key_far 0 0 _ 0 (.inr (by decide)) rfl

theorem bell_takes (cq : Tbl.sorted s.ss.cq) (inside : (le p.data 0 4 + 2 ^ 32 - s.reg Dict.dsessCompletionConsumed 0 p.domain) % 2 ^ 32 ≤ ((s.cq p.domain).written + 2 ^ 32 - s.reg Dict.dsessCompletionConsumed 0 p.domain) % 2 ^ 32) :
    s.Carries i p fun u => u.reg Dict.dsessCompletionConsumed 0 p.domain = le p.data 0 4 ∧ ((s.cq p.domain).held = [] → (u.cq p.domain).written = (s.cq p.domain).written) := by
  have acts := (opWrite_rings (t := t) sound bell own whole eight).trans (if_neg (Nat.not_lt_of_le inside))
  have is := rung_is h (t := t)
  have reads := rung_reads s t p
  have sorted := rung_regs (t := t) (p := p) regs
  generalize s.rung t p = v at acts is reads sorted
  have consumed := (State.setReg_reg sorted Dict.dsessCompletionConsumed (le p.data 0 4) 0 p.domain 0 p.domain).trans (if_pos rfl)
  generalize hw : v.setReg Dict.dsessCompletionConsumed (le p.data 0 4) 0 p.domain = w at acts consumed
  have is' : FlowIs p.flow (s.nextFlow p (s.flow p.flow).msg) w := hw ▸ is
  have fns : w.fns = s.fns := hw ▸ reads.fns
  have ss : w.ss = s.ss := hw ▸ reads.ss
  refine carries_of h (write_exec s t p i hi).1 (write_exec s t p i hi).2 acts ⟨⟨_, is'.release p.domain⟩, (State.release_keeps (P := fun u => u.fns = w.fns) (frame_fns rfl w) w _ rfl).trans fns⟩ fun u acks => ⟨?_, fun none => ?_⟩
  · have kept : u.reg Dict.dsessCompletionConsumed 0 p.domain = (w.release p.domain).reg Dict.dsessCompletionConsumed 0 p.domain := by unfold State.reg; rw [acks.regs]
    exact kept.trans ((release_consumed w _ _).trans consumed)
  · have queue : w.cq p.domain = s.cq p.domain := cq_of_ss ss _
    rw [cq_of_ss acks.ss, release_none (by rw [ss]; exact cq) (by rw [queue]; exact none), queue]

end

end

/-! ## FLUSH (R392, R394) -/

/-- The packets of a flow that are not yet acknowledged, in order. -/
def Flow.line (x : Flow) : List TxPkt := x.unacked ++ x.waiting

theorem pump_line {s : State} (sorted : Tbl.sorted s.sl.flows) (f : Nat) : ((s.pump f).flow f).line = (s.flow f).line ∧ (s.pump f).sl.wins = s.sl.wins := by
  unfold State.pump
  dsimp only
  split
  · exact ⟨rfl, rfl⟩
  · generalize hw : s.setFlow f _ = w
    have own : (w.flow f).line = (s.flow f).line := by
      rw [← hw, flow_setFlow sorted, if_pos rfl]
      unfold Flow.line
      simp only [List.append_assoc, List.take_append_drop]
    have wins : w.sl.wins = s.sl.wins := hw ▸ rfl
    have sorted' : Tbl.sorted w.sl.flows := hw ▸ setFlow_sorted sorted _ _
    generalize hv : w.each _ _ = v
    have sl : v.sl = w.sl := hv ▸ each_keeps (P := fun u => u.sl = w.sl) (fun q u hu => State.emit_keeps (P := fun u => u.sl = w.sl) (frame_sl rfl w) u _ _ hu) rfl
    have flow : v.flow f = w.flow f := by unfold State.flow; rw [sl]
    unfold State.armRto
    dsimp only
    split
    · rw [flow_setFlow (by rw [sl]; exact sorted'), if_pos rfl]
      exact ⟨(congrArg Flow.line flow).trans own, (congrArg Slaisk.wins sl).trans wins⟩
    · exact ⟨(congrArg Flow.line flow).trans own, (congrArg Slaisk.wins sl).trans wins⟩

/-- A packet of a READY flow is queued behind what it had (R389). -/
theorem txPacket_queued {s : State} (sorted : Tbl.sorted s.sl.flows) {f : Nat} (ready : s.flowReady f = true) (op : Nat) (a b : Bool) (i j k l : Nat) (d : Bytes) :
    s.queued f op i k l (s.txPacket f op a b i j k l d) ∧ (s.txPacket f op a b i j k l d).sl.wins = s.sl.wins := by
  unfold State.txPacket
  rw [if_pos ready]
  dsimp only
  generalize hq : TxPkt.mk _ _ _ _ _ _ _ _ _ _ _ _ = q
  generalize hw : s.setFlow f _ = w
  have line : (w.flow f).line = (s.flow f).line ++ [q] := by
    rw [← hw, flow_setFlow sorted, if_pos rfl]
    unfold Flow.line
    rw [List.append_assoc]
  obtain ⟨pumped, wins⟩ := pump_line (s := w) (hw ▸ setFlow_sorted sorted _ _) f
  exact ⟨⟨q, pumped.trans line, hq ▸ rfl, hq ▸ rfl, hq ▸ rfl, hq ▸ rfl⟩, wins.trans (hw ▸ rfl)⟩

end Sys2Proof.Machine
end

section
/-! SUPPORT. O42: FLUSH packets, and the answers to the device's own operations. -/

namespace Sys2Proof.Machine

open Sys2Proof

variable {s : State} {p : SPkt}

/-! ## FLUSH (R392, R394) -/

/-- A FLUSH is answered. -/
def State.flushed (v : State) (p : SPkt) : State := (v.txPacket p.flow 9 true true 0 0 0 p.psn []).ev 0x193 none 1 p.flow (some p.domain)

theorem flushed_queues {v : State} (sorted : Tbl.sorted v.sl.flows) (ready : v.flowReady p.flow = true) : v.queued p.flow 9 0 0 p.psn (v.flushed p) ∧ (v.flushed p).sl.wins = v.sl.wins := by
  obtain ⟨⟨q, line, rest⟩, wins⟩ := txPacket_queued sorted ready 9 true true 0 0 0 p.psn []
  have sl : (v.flushed p).sl = (v.txPacket p.flow 9 true true 0 0 0 p.psn []).sl := State.ev_sl _ _ _ _ _ _ _
  have own : (v.flushed p).flow p.flow = (v.txPacket p.flow 9 true true 0 0 0 p.psn []).flow p.flow := by unfold State.flow; rw [sl]
  exact ⟨⟨q, own ▸ line, rest⟩, (congrArg Slaisk.wins sl).trans wins⟩

theorem flushed_fns (v : State) (p : SPkt) : (v.flushed p).fns = v.fns := (State.ev_fns _ _ _ _ _ _ _).trans (State.txPacket_keeps (P := fun u => u.fns = v.fns) (frame_fns rfl v) v _ _ _ _ _ _ _ _ _ _ rfl)

theorem flushed_is {f : Nat} {c : Flow} {v : State} (h : FlowIs f c v) (p : SPkt) : FlowIs f c (v.flushed p) := (h.txPacket _ _ _ _ _ _ _ _ _ _).ev _ _ _ _ _ _

theorem State.queued.moved {s v w u : State} {f op a b c : Nat} (h : v.queued f op a b c w) (before : (v.flow f).line = (s.flow f).line) (after : (u.flow f).line = (w.flow f).line) : s.queued f op a b c u := by
  obtain ⟨q, line, rest⟩ := h
  exact ⟨q, after.trans (line.trans (congrArg (· ++ [q]) before)), rest⟩

section
variable (h : s.InOrder p) (t : Nat)
include h

/-- The flow of the next packet is READY, and sends what it had to send. -/
theorem nextOf_ready : ((s.at t).nextOf p).flowReady p.flow = true ∧ (((s.at t).nextOf p).flow p.flow).line = (s.flow p.flow).line := by
  obtain ⟨still, -, unacked, waiting, -⟩ := nextOf_flow (s := s.at t) (p := p) h.flows
  have old := h.ready
  have st : (((s.at t).nextOf p).flow p.flow).st = (s.flow p.flow).st := (congrArg Flow.st still :)
  unfold State.flowReady at old ⊢
  unfold Flow.line
  rw [st, unacked, waiting]
  exact ⟨old, rfl⟩

theorem flush_answers (acts : ((s.at t).nextOf p).opFlush p = (0, ((s.at t).nextOf p).flushed p)) : s.Carries (.slaiskFlush t p) p fun u => s.queued p.flow 9 0 0 p.psn u ∧ u.sl.wins = s.sl.wins := by
  obtain ⟨ready, before⟩ := nextOf_ready h t
  have is := nextOf_is (s := s.at t) (p := p) h.flows
  have fns := nextOf_fns (s := s.at t) (p := p)
  have wins := nextOf_wins s t p
  obtain ⟨queued, kept⟩ := flushed_queues (p := p) is.1 ready
  have is' := flushed_is is p
  have fns' := (flushed_fns _ p).trans fns
  generalize ((s.at t).nextOf p).flushed p = w at acts queued kept is' fns'
  refine carries_of (i := .slaiskFlush t p) h (execSlaiskFlush.eq_1 t p s) rfl acts ⟨⟨_, is'⟩, fns'⟩ fun u acks => ⟨queued.moved before ?_, acks.wins.trans (kept.trans wins)⟩
  obtain ⟨a, b, c, flow⟩ := acks.flow is'.1
  rw [flow]
  rfl

theorem flush_refuses {e : Nat} (bad : e ≠ 0) (acts : ((s.at t).nextOf p).opFlush p = (e, (s.at t).nextOf p)) : s.RefusesPkt t (.slaiskFlush t p) p e :=
  refuses_at (i := .slaiskFlush t p) h (execSlaiskFlush.eq_1 t p s) rfl bad acts

theorem flush_all (all : p.target = 0) : s.Carries (.slaiskFlush t p) p fun u => s.queued p.flow 9 0 0 p.psn u ∧ u.sl.wins = s.sl.wins := flush_answers h t (if_pos all)

variable (one : p.target ≠ 0)
include one

theorem flush_badTarget (bad : tgtOk p.target = false) : s.RefusesPkt t (.slaiskFlush t p) p 0x10 := flush_refuses h t (by decide) ((if_neg one).trans (if_pos bad))

variable (sound : tgtOk p.target = true)
include sound

theorem flush_bell (bell : tgtType p.target = 4) : (p.target % 4096 = p.domain → s.Carries (.slaiskFlush t p) p fun u => s.queued p.flow 9 0 0 p.psn u ∧ u.sl.wins = s.sl.wins) ∧
    (p.target % 4096 ≠ p.domain → s.RefusesPkt t (.slaiskFlush t p) p 0x13) := by
  have acts := (if_neg one : ((s.at t).nextOf p).opFlush p = _).trans ((if_neg (by rw [sound]; decide)).trans (if_pos bell))
  exact ⟨fun own => flush_answers h t (acts.trans (if_pos own)), fun other => flush_refuses h t (by decide) (acts.trans (if_neg other))⟩

theorem flush_badType (no3 : tgtType p.target ≠ 3) (no4 : tgtType p.target ≠ 4) : s.RefusesPkt t (.slaiskFlush t p) p 0x14 :=
  flush_refuses h t (by decide) ((if_neg one).trans ((if_neg (by rw [sound]; decide)).trans ((if_neg no4).trans (if_pos no3))))

theorem flush_window (win : tgtType p.target = 3) : (s.winCheck p.target p.domain = 0 → s.Carries (.slaiskFlush t p) p fun u => s.queued p.flow 9 0 0 p.psn u ∧ u.sl.wins = s.sl.wins) ∧
    (s.winCheck p.target p.domain ≠ 0 → s.RefusesPkt t (.slaiskFlush t p) p (s.winCheck p.target p.domain)) := by
  have acts : ((s.at t).nextOf p).opFlush p = if s.winCheck p.target p.domain ≠ 0 then ((s.at t).nextOf p).winRefuse p.flow (s.winCheck p.target p.domain) else (0, ((s.at t).nextOf p).flushed p) := by
    rw [← nextOf_winCheck s t p]
    exact (if_neg one).trans ((if_neg (by rw [sound]; decide)).trans ((if_neg (by rw [win]; decide)).trans (if_neg fun q => q win)))
  exact ⟨fun open' => flush_answers h t (acts.trans (if_neg fun q => q open')), fun bad => refuses_window (i := .slaiskFlush t p) h (execSlaiskFlush.eq_1 t p s) rfl bad (acts.trans (if_pos bad))⟩

end

/-! ## The device at rest after an answer -/

/-- Being at rest is about the step, the barrier, the package, the exports, the frames and the lanes. -/
theorem State.atRest.of_but {s u : State} {l : List Part} (h : s.atRest) (same : s.sameBut l u) (apart : [Part.serving, .pickCore, .package, .frames, .search].all (fun q => !l.contains q) = true)
    (exports : ∀ e ∈ u.ss.tbl, e.2.xst ≠ 1) : u.atRest := by
  have kept : ∀ q ∈ [Part.serving, .pickCore, .package, .frames, .search], q.same s u := fun q hq => same q fun k => by
    have out := List.all_eq_true.mp apart q hq
    rw [List.contains_iff_mem.mpr k] at out
    cases out
  have sv : u.sv = s.sv := kept .serving (by decide)
  have pk : u.pkCore = s.pkCore := kept .pickCore (by decide)
  have pw : u.pw = s.pw := kept .package (by decide)
  have tm : u.tm = s.tm := kept .frames (by decide)
  have se : u.se = s.se := kept .search (by decide)
  exact ⟨sv ▸ h.run, sv ▸ h.owed, (barrier_of pk).trans h.barrier, pw ▸ h.drain, exports, tm ▸ h.tests, tm ▸ h.moves, se ▸ h.lanes⟩

theorem State.atRest.at (h : s.atRest) (t : Nat) : (s.at t).atRest := ⟨h.run, h.owed, h.barrier, h.drain, h.exports, h.tests, h.moves, h.lanes⟩

theorem State.Acks.atRest {w u : State} {f : Nat} (h : w.Acks f u) (rest : w.atRest) : u.atRest := by
  obtain rfl | ⟨psn, rfl⟩ := h
  · exact rest
  · have ss : (w.sendAck f false psn 0).ss = w.ss := State.sendAck_keeps (P := fun u => u.ss = w.ss) (frame_ss rfl w) w _ _ _ _ rfl
    exact rest.of_but (l := [.sent, .slaisk]) (frame_op (T := [.out, .sl]) (by decide) fun st hs => State.sendAck_keeps st _ _ _ _ _ hs) rfl (by rw [ss]; exact rest.exports)

/-- What stands for a key is an entry of the table, or the default. -/
theorem get_mem {α : Type} (d : α) (m : Tbl α) (k : Nat) : Tbl.get d m k = d ∨ (k, Tbl.get d m k) ∈ m := by
  induction m with
  | nil => exact .inl rfl
  | cons e m ih =>
    unfold Tbl.get
    split
    · next same => exact .inr (same ▸ List.mem_cons_self)
    · exact ih.imp_right (List.mem_cons_of_mem _)

/-- A session of the table, or one that was never there, exports nothing. -/
theorem sess_atRest (h : s.atRest) (k : Nat) : (s.sess k).xst ≠ 1 := by
  unfold State.sess
  rcases get_mem ({} : Sess) s.ss.tbl k with none | some
  · rw [none]
    decide
  · exact h.exports _ some

end Sys2Proof.Machine
end

section
/-! SUPPORT. O42: what answers an operation of the device. -/

namespace Sys2Proof.Machine

open Sys2Proof

variable {s : State} {p : SPkt}

/-- The outstanding READ, or FLUSH, that a response answers. -/
def Flow.answering (x : Flow) (read : Bool) (p : SPkt) : Option TxOp := x.ops.find? fun o => (o.read == read) && o.psn == p.aux % 2 ^ 24

theorem answering_read (x : Flow) (p : SPkt) : (x.ops.find? fun o => o.read && o.psn == p.aux % 2 ^ 24) = x.answering true p := by
  unfold Flow.answering
  congr 1
  funext o
  cases o.read <;> rfl

theorem answering_flush (x : Flow) (p : SPkt) : (x.ops.find? fun o => !o.read && o.psn == p.aux % 2 ^ 24) = x.answering false p := by
  unfold Flow.answering
  congr 1
  funext o
  cases o.read <;> rfl

theorem answering_psn {x : Flow} {read : Bool} {o : TxOp} (h : x.answering read p = some o) : o.psn = p.aux % 2 ^ 24 := by
  have hit := List.find?_some h
  rw [Bool.and_eq_true] at hit
  exact beq_iff_eq.mp hit.2

/-! ## An operation that is answered leaves its flow -/

/-- No operation of that number is left on flow f, and none is new. -/
def State.spent (s : State) (f n : Nat) (u : State) : Prop := ∀ o ∈ (u.flow f).ops, o ∈ (s.flow f).ops ∧ o.psn ≠ n

theorem dropOp_fabric (v : State) (f : Nat) (o : TxOp) {P : State → Prop} (st : Stable [.fb, .ev] P) (h : P (v.setFlow f { v.flow f with ops := (v.flow f).ops.filter fun y => y.psn != o.psn })) : P (v.dropOp f o) := by
  unfold State.dropOp
  dsimp only
  split
  · exact State.freeSlot_keeps st _ _ _ h
  · exact h

theorem dropOp_does {v : State} {f : Nat} {c : Flow} (h : FlowIs f c v) (o : TxOp) : FlowIs f c (v.dropOp f o) ∧ ((v.dropOp f o).flow f).ops = (v.flow f).ops.filter (fun y => y.psn != o.psn) ∧ v.sameBut (.slaisk :: .fabric :: noted) (v.dropOp f o) := by
  refine ⟨dropOp_fabric v f o (FlowIs.stable rfl f c) (h.set f (by rfl)), ?_, frame_op (T := [.fb, .sl, .ev]) (by decide) fun st hs => State.dropOp_keeps st _ _ _ hs⟩
  refine dropOp_fabric v f o (P := fun u => (u.flow f).ops = (v.flow f).ops.filter (fun y => y.psn != o.psn)) (sl_stable rfl fun z => (Tbl.get ({} : Flow) z.flows f).ops = _) ?_
  rw [flow_setFlow h.1, if_pos rfl]

theorem spent_of {v w : State} {f : Nat} {o : TxOp} (ops : (w.flow f).ops = (v.flow f).ops.filter fun y => y.psn != o.psn) (before : (v.flow f).ops = (s.flow f).ops) : s.spent f o.psn w := by
  intro y hy
  rw [ops, List.mem_filter, before] at hy
  exact ⟨hy.1, fun q => by rw [q] at hy; exact absurd hy.2 (by simp)⟩

theorem State.Acks.spent {w u : State} {f n : Nat} (h : w.Acks f u) (sorted : Tbl.sorted w.sl.flows) (gone : s.spent f n w) : s.spent f n u := by
  obtain ⟨a, b, c, flow⟩ := h.flow sorted
  unfold State.spent
  rw [flow]
  exact gone

/-! ## The state in which a response's purpose goes on -/

/-- The answered operation has left its flow. -/
def State.answered1 (s : State) (t : Nat) (p : SPkt) (o : TxOp) : State := ((s.at t).nextOf p).dropOp p.flow o

/-- What is left of s once an operation is answered: its flow, without the operation, and all that is no link and no count. -/
structure State.Answers (s : State) (t : Nat) (p : SPkt) (o : TxOp) (v : State) : Prop where
  flow : FlowIs p.flow (s.nextFlow p (s.flow p.flow).msg) v
  spent : s.spent p.flow o.psn v
  same : (s.at t).sameBut (.slaisk :: .fabric :: .values :: noted) v

theorem answered1_answers (h : s.InOrder p) (t : Nat) (o : TxOp) : s.Answers t p o (s.answered1 t p o) := by
  obtain ⟨-, ops, -, -, -⟩ := nextOf_flow (s := s.at t) (p := p) h.flows
  have is := nextOf_is (s := s.at t) (p := p) h.flows
  have same := (nextOf_refused (s := s) (p := p) h.flows t).same
  unfold State.answered1
  obtain ⟨flow, dropped, kept⟩ := dropOp_does is o
  exact ⟨flow, spent_of dropped ops, (same.mono (by decide)).trans (kept.mono (by decide))⟩

section
variable {t : Nat} {o : TxOp} {v : State} (h : s.Answers t p o v)
include h

theorem State.Answers.ss : v.ss = s.ss := h.same .sessions (by decide)

theorem State.Answers.fns : v.fns = s.fns := h.same .functions (by decide)

/-- Nothing follows a state in which sessions, rings and queues went on. -/
theorem State.Answers.rests {w : State} (rest : s.atRest) (same : v.sameBut (.sessions :: .slaisk :: .values :: noted) w) (exports : ∀ e ∈ w.ss.tbl, e.2.xst ≠ 1) : w.atRest :=
  (rest.at t).of_but ((h.same.mono (m := .sessions :: .slaisk :: .fabric :: .values :: noted) (by decide)).trans (same.mono (by decide))) rfl exports

end

/-! ## READ_RESPONSE (R380, R392) -/

/-- The packet's bytes are the next of the READ. -/
def TxOp.takes (o : TxOp) (p : SPkt) : Prop :=
  p.offset = o.got.length ∧ p.first = decide (o.got = []) ∧ (o.got ++ p.data).length ≤ o.want ∧ p.last = decide ((o.got ++ p.data).length = o.want)

theorem takes_iff (o : TxOp) (p : SPkt) : o.takes p ↔ ¬(p.offset ≠ o.got.length ∨ p.first ≠ decide (o.got = []) ∨ o.want < (o.got ++ p.data).length ∨ p.last ≠ decide ((o.got ++ p.data).length = o.want)) := by
  unfold TxOp.takes
  simp only [not_or, ne_eq, Decidable.not_not, Nat.not_lt]

/-- The READ has the packet's bytes, and awaits more. -/
def State.readMore (v : State) (p : SPkt) (o : TxOp) : State := v.setFlow p.flow { v.flow p.flow with ops := (v.flow p.flow).ops.map fun y => if y.psn = o.psn then { y with got := o.got ++ p.data } else y }

theorem readMore_does {v : State} {c : Flow} (h : FlowIs p.flow c v) (o : TxOp) : FlowIs p.flow c (v.readMore p o) ∧
    ((v.readMore p o).flow p.flow).ops = (v.flow p.flow).ops.map (fun y => if y.psn = o.psn then { y with got := o.got ++ p.data } else y) ∧ v.sameBut [.slaisk] (v.readMore p o) := by
  refine ⟨h.set p.flow (by rfl), ?_, frame_op (T := [.sl]) (by decide) fun st hs => State.setFlow_keeps st _ _ _ hs⟩
  unfold State.readMore
  rw [flow_setFlow h.1, if_pos rfl]

/-- What a READ_RESPONSE does to the READ that it answers. -/
def State.readOn (v : State) (p : SPkt) (o : TxOp) : Nat × State :=
  if p.offset ≠ o.got.length ∨ p.first ≠ decide (o.got = []) ∨ o.want < (o.got ++ p.data).length ∨ p.last ≠ decide ((o.got ++ p.data).length = o.want) then (0x15, v)
  else if p.last then (0, (v.dropOp p.flow o).inputRead o.what (some (o.got ++ p.data)) 0)
  else (0, v.readMore p o)

theorem opReadResponse_none {v : State} (none : (v.flow p.flow).answering true p = none) : v.opReadResponse p = (0x15, v) := by
  unfold State.opReadResponse
  dsimp only
  rw [answering_read, none]

theorem opReadResponse_some {v : State} {o : TxOp} (own : (v.flow p.flow).answering true p = some o) : v.opReadResponse p = v.readOn p o := by
  unfold State.opReadResponse
  dsimp only
  rw [answering_read, own]
  rfl

section
variable (h : s.InOrder p) (t : Nat)
include h

theorem nextOf_answering (read : Bool) : (((s.at t).nextOf p).flow p.flow).answering read p = (s.flow p.flow).answering read p := by
  unfold Flow.answering
  rw [(nextOf_flow (s := s.at t) (p := p) h.flows).2.1]
  rfl

variable (rest : s.atRest)
include rest

/-- A response that is refused; nothing follows it. -/
theorem response_refuses {i : Instr} {op : State → Nat × State} (hi : exec i s = run i t s fun s => settle (s.rxSeq p op)) (wf : i.wf = decide (p.port < 2)) (acts : op ((s.at t).nextOf p) = (0x15, (s.at t).nextOf p)) :
    s.RefusesPkt t i p 0x15 :=
  refuses_then (g := settle) h hi wf (by decide) acts (nextOf_refused h.flows t) fun u same =>
    settle_atRest ((rest.at t).of_but same rfl (by have ss : u.ss = s.ss := same .sessions (by decide); rw [ss]; exact rest.exports))

omit rest in
/-- A response that is taken; nothing follows it. -/
theorem response_carries {i : Instr} {op : State → Nat × State} (hi : exec i s = run i t s fun s => settle (s.rxSeq p op)) (wf : i.wf = decide (p.port < 2)) {w : State} (acts : op ((s.at t).nextOf p) = (0, w))
    {m : Option (Nat × Nat × Bytes)} (is : FlowIs p.flow (s.nextFlow p m) w) (fns : w.fns = s.fns) (still : w.atRest) {f : State → Prop} (hf : ∀ u, w.Acks p.flow u → f u) : s.Carries i p f :=
  carries_then (g := settle) h hi wf acts ⟨⟨m, is⟩, fns⟩ (fun _ acks => settle_atRest (acks.atRest still)) hf

theorem read_unasked (none : (s.flow p.flow).answering true p = none) : s.RefusesPkt t (.slaiskReadResponse t p) p 0x15 :=
  response_refuses h t rest (i := .slaiskReadResponse t p) (execSlaiskReadResponse.eq_1 t p s) rfl (opReadResponse_none ((nextOf_answering h t true).trans none))

variable {o : TxOp} (own : (s.flow p.flow).answering true p = some o)
include own

theorem read_unfit (unfit : ¬o.takes p) : s.RefusesPkt t (.slaiskReadResponse t p) p 0x15 :=
  response_refuses h t rest (i := .slaiskReadResponse t p) (execSlaiskReadResponse.eq_1 t p s) rfl
    ((opReadResponse_some ((nextOf_answering h t true).trans own)).trans (if_pos (Decidable.not_not.mp fun q => unfit ((takes_iff o p).mpr q))))

variable (fit : o.takes p)
include fit

theorem read_more (more : p.last = false) : s.Carries (.slaiskReadResponse t p) p fun u =>
    (u.flow p.flow).ops = (s.flow p.flow).ops.map (fun y => if y.psn = o.psn then { y with got := o.got ++ p.data } else y) ∧ u.ss = s.ss := by
  have acts := (opReadResponse_some ((nextOf_answering h t true).trans own)).trans ((if_neg ((takes_iff o p).mp fit)).trans (if_neg (by rw [more]; decide)))
  obtain ⟨-, ops, -, -, -⟩ := nextOf_flow (s := s.at t) (p := p) h.flows
  have is := nextOf_is (s := s.at t) (p := p) h.flows
  have next := (nextOf_refused (s := s) (p := p) h.flows t).same
  obtain ⟨is', stored, kept⟩ := readMore_does is o
  have same : (s.at t).sameBut (.slaisk :: .values :: noted) (((s.at t).nextOf p).readMore p o) := next.trans (kept.mono (by decide))
  rw [ops] at stored
  generalize ((s.at t).nextOf p).readMore p o = w at acts is' stored same
  have ss : w.ss = s.ss := same .sessions (by decide)
  refine response_carries h t (i := .slaiskReadResponse t p) (execSlaiskReadResponse.eq_1 t p s) rfl acts is' (same .functions (by decide)) ((rest.at t).of_but same rfl (by rw [ss]; exact rest.exports)) fun u acks => ?_
  obtain ⟨a, b, c, flow⟩ := acks.flow is'.1
  refine ⟨?_, acks.ss.trans ss⟩
  rw [flow]
  exact stored

omit rest in
/-- What the last packet of a READ's answer does. -/
theorem read_last (last : p.last = true) : ((s.at t).nextOf p).opReadResponse p = (0, (s.answered1 t p o).inputRead o.what (some (o.got ++ p.data)) 0) :=
  (opReadResponse_some ((nextOf_answering h t true).trans own)).trans ((if_neg ((takes_iff o p).mp fit)).trans (if_pos last))

end

/-! ## What the answers are for (R339, R362, R404) -/

/-- The bytes of a session's command have come (R145). -/
theorem inputRead_sess {v : State} {k seq : Nat} {q : QDesc} {tail : List QDesc} (ring : (v.sess k).ring = q :: tail) (waits : q.inSt = 1) (own : q.d.seq = seq) (b : Bytes) :
    v.inputRead (.sessIn k seq) (some b) 0 = v.setSess k { v.sess k with ring := { q with inSt := 2, input := b } :: tail } := by
  unfold State.inputRead
  dsimp only
  rw [ring]
  dsimp only
  rw [if_pos ⟨waits, own⟩]

theorem inputRead_dom {v : State} {d id : Nat} {r : DRun} (run : v.drun d id = some r) (waits : r.q.inSt = 1) (b : Bytes) :
    v.inputRead (.domIn d id) (some b) 0 = v.setDrun d { r with q := { r.q with inSt := 2, input := b } } := by
  unfold State.inputRead
  dsimp only
  rw [run]
  dsimp only
  rw [if_pos waits]

theorem inputRead_flush {v : State} {d id : Nat} {r : DRun} (run : v.drun d id = some r) : v.inputRead (.domFlush d id) (some []) 0 = v.endDrun d id r.stage r.a r.b := by
  unfold State.inputRead
  dsimp only
  rw [run]
  rfl

/-- A running command's number finds it. -/
theorem drun_id {v : State} {d id : Nat} {r : DRun} (run : v.drun d id = some r) : r.id = id := beq_iff_eq.mp (List.find?_some (p := fun x : DRun => x.id == id) run)

theorem drun_setDrun {v : State} {d id : Nat} {r x : DRun} (rings : Tbl.sorted v.ss.rings) (run : v.drun d id = some r) (same : x.id = id) : (v.setDrun d x).drun d id = some x := by
  have rid := drun_id run
  unfold State.drun State.setDrun at *
  rw [dring_setDring rings, List.find?_map]
  have finds : ((fun y : DRun => y.id == id) ∘ fun y => if y.id = x.id then x else y) = fun y => y.id == id := by
    funext y
    dsimp only [Function.comp]
    split
    · next e => rw [e]
    · rfl
  rw [finds, run, Option.map_some, if_pos (rid.trans same.symm)]

theorem endDrun_tbl (v : State) (d id a b c : Nat) : (v.endDrun d id a b c).ss.tbl = v.ss.tbl := by
  unfold State.endDrun
  split
  · rfl
  · exact (endDom_tbl _ _ _ _ _ _ : _)

/-- A control command that runs ends: it is found no more, and its record is posted. -/
theorem endDrun_leaves {v : State} {d : Nat} {r : DRun} (h : v.Runs d r) (a b c : Nat) : (v.endDrun d r.id a b c).drun d r.id = none ∧ ∃ w : State, w.ss.cq = v.ss.cq ∧ w.posts d (Rec.completes r.q a b) (v.endDrun d r.id a b c) := by
  have ended : ∀ z : State, Tbl.sorted z.ss.rings → Tbl.sorted z.ss.cq → z.stalled d = false → (∀ x ∈ (z.dring d).running, x.id ≠ r.id) →
      ((z.endDom r.q a b c (some r.id)).leaveKept d).drun d r.id = none ∧ z.posts d (Rec.completes r.q a b) ((z.endDom r.q a b c (some r.id)).leaveKept d) := fun z rings cq room gone => by
    obtain ⟨-, running, posted⟩ := ended_facts rings cq h.own room a b c (some r.id)
    refine ⟨?_, posted⟩
    unfold State.drun
    rw [running]
    exact List.find?_eq_none.mpr fun x hx q => gone x hx (beq_iff_eq.mp q)
  unfold State.endDrun
  rw [h.run]
  dsimp only
  generalize hz : v.setDring d _ = z
  have ring : (z.dring d).running = (v.dring d).running.filter (fun x => x.id != r.id) := by rw [← hz, dring_setDring h.rings]
  obtain ⟨none, posted⟩ := ended z (hz ▸ Tbl.put_sorted h.rings) (hz ▸ h.cq) (hz ▸ h.room) fun x hx q => by
    rw [ring, List.mem_filter, q] at hx
    exact absurd hx.2 (by simp)
  exact ⟨none, z, hz ▸ rfl, posted⟩

end Sys2Proof.Machine
end

section
/-! SUPPORT. O42: the sessions and control commands whose operation is answered. -/

namespace Sys2Proof.Machine

open Sys2Proof

variable {s : State} {p : SPkt} (h : s.InOrder p) (t : Nat) (rest : s.atRest) {o : TxOp}
include h rest

/-! ## READ_RESPONSE (R380, R392) -/

section
variable (own : (s.flow p.flow).answering true p = some o) (fit : o.takes p) (last : p.last = true)
include own fit last

/-- A session's command has its input. -/
theorem read_session {k seq : Nat} {q : QDesc} {tail : List QDesc} (what : o.what = .sessIn k seq) (ring : (s.sess k).ring = q :: tail) (waits : q.inSt = 1) (num : q.d.seq = seq) (tbl : Tbl.sorted s.ss.tbl) :
    s.Carries (.slaiskReadResponse t p) p fun u => s.spent p.flow o.psn u ∧ u.sess k = { s.sess k with ring := { q with inSt := 2, input := o.got ++ p.data } :: tail } := by
  have acts := read_last h t own fit last
  have after := answered1_answers h t o
  have exports := sess_atRest rest k
  generalize s.answered1 t p o = v at acts after
  have ss := after.ss
  have sess : v.sess k = s.sess k := State.sess_of_tbl (congrArg Sessions.tbl ss) k
  rw [what, inputRead_sess (by rw [sess]; exact ring) waits num, sess] at acts
  generalize hx : ({ s.sess k with ring := { q with inSt := 2, input := o.got ++ p.data } :: tail } : Sess) = x at acts ⊢
  have still : (v.setSess k x).atRest := after.rests rest (frame_op (T := [.ss]) (by decide) fun st hs => State.setSess_keeps st _ _ _ hs) fun e he => by
    rcases Tbl.put_mem he with new | old
    · rw [new, ← hx]
      exact exports
    · rw [ss] at old
      exact rest.exports e old
  refine response_carries h t (i := .slaiskReadResponse t p) (execSlaiskReadResponse.eq_1 t p s) rfl acts after.flow after.fns still fun u acks => ⟨acks.spent after.flow.1 after.spent, ?_⟩
  exact (State.sess_of_tbl (congrArg Sessions.tbl acks.ss) k).trans (sess_setSess (by rw [ss]; exact tbl) k x)

/-- A control command has its input. -/
theorem read_control {d id : Nat} {r : DRun} (what : o.what = .domIn d id) (run : s.drun d id = some r) (waits : r.q.inSt = 1) (rings : Tbl.sorted s.ss.rings) :
    s.Carries (.slaiskReadResponse t p) p fun u => s.spent p.flow o.psn u ∧ u.drun d id = some { r with q := { r.q with inSt := 2, input := o.got ++ p.data } } := by
  have acts := read_last h t own fit last
  have after := answered1_answers h t o
  generalize s.answered1 t p o = v at acts after
  have ss := after.ss
  have run' : v.drun d id = some r := by unfold State.drun; rw [dring_of (congrArg Sessions.rings ss)]; exact run
  rw [what, inputRead_dom run' waits] at acts
  have found := drun_setDrun (x := { r with q := { r.q with inSt := 2, input := o.got ++ p.data } }) (by rw [ss]; exact rings) run' (drun_id run :)
  generalize ({ r with q := { r.q with inSt := 2, input := o.got ++ p.data } } : DRun) = x at acts found ⊢
  have still : (v.setDrun d x).atRest := after.rests rest (frame_op (T := [.ss]) (by decide) fun st hs => State.setDrun_keeps st _ _ _ hs) (by
    show ∀ e ∈ v.ss.tbl, _
    rw [ss]
    exact rest.exports)
  refine response_carries h t (i := .slaiskReadResponse t p) (execSlaiskReadResponse.eq_1 t p s) rfl acts after.flow after.fns still fun u acks => ⟨acks.spent after.flow.1 after.spent, ?_⟩
  unfold State.drun at found ⊢
  rw [dring_of (congrArg Sessions.rings acks.ss)]
  exact found

end

/-! ## FLUSH_RESPONSE (R392) -/

theorem flushed_unasked (none : (s.flow p.flow).answering false p = none) : s.RefusesPkt t (.slaiskFlushResponse t p) p 0x15 := by
  refine response_refuses h t rest (i := .slaiskFlushResponse t p) (execSlaiskFlushResponse.eq_1 t p s) rfl ?_
  dsimp only
  rw [answering_flush, nextOf_answering h t, none]

section
variable (own : (s.flow p.flow).answering false p = some o)
include own

omit rest in
/-- A FLUSH that was for no bulk transfer is answered. -/
theorem flush_answered (single : o.what.bulk = false) {w : State} (goes : (s.answered1 t p o).inputRead o.what (some []) 0 = w) {m : Option (Nat × Nat × Bytes)} (is : FlowIs p.flow (s.nextFlow p m) w) (fns : w.fns = s.fns) (still : w.atRest)
    {f : State → Prop} (hf : ∀ u, w.Acks p.flow u → f u) : s.Carries (.slaiskFlushResponse t p) p f := by
  refine response_carries h t (i := .slaiskFlushResponse t p) (execSlaiskFlushResponse.eq_1 t p s) rfl ?_ is fns still hf
  dsimp only
  rw [answering_flush, nextOf_answering h t, own]
  dsimp only
  rw [single]
  exact congrArg (Prod.mk 0) goes

/-- A control command whose output is placed ends. -/
theorem flush_control {d : Nat} {r : DRun} (what : o.what = .domFlush d r.id) (runs : s.Runs d r) :
    s.Carries (.slaiskFlushResponse t p) p fun u => u.drun d r.id = none ∧ ∃ w : State, w.ss.cq = s.ss.cq ∧ w.posts d (Rec.completes r.q r.stage r.a) u := by
  have after := answered1_answers h t o
  have answered := flush_answered h t own (by rw [what]; rfl) (w := (s.answered1 t p o).endDrun d r.id r.stage r.a r.b)
  generalize s.answered1 t p o = v at after answered
  have ss := after.ss
  have runs' : v.Runs d r := ⟨by unfold State.drun; rw [dring_of (congrArg Sessions.rings ss)]; exact runs.run, runs.own, (stalled_of_cq (congrArg Sessions.cq ss) d).trans runs.room, by rw [ss]; exact runs.cq, by rw [ss]; exact runs.rings⟩
  obtain ⟨gone, w, cq, posted⟩ := endDrun_leaves runs' r.stage r.a r.b
  have still : (v.endDrun d r.id r.stage r.a r.b).atRest := after.rests rest (frame_op (T := [.out, .ctr, .notify, .ss, .sl, .ev]) (by decide) fun st hs => State.endDrun_keeps st _ _ _ _ _ _ hs) (by
    rw [endDrun_tbl, ss]
    exact rest.exports)
  refine answered (by rw [what]; exact inputRead_flush runs'.run) (after.flow.endDrun _ _ _ _ _) ((State.endDrun_keeps (P := fun u => u.fns = v.fns) (frame_fns rfl v) v _ _ _ _ _ rfl).trans after.fns) still fun u acks => ⟨?_, w, cq.trans (congrArg Sessions.cq ss), posted.to (congrArg Sessions.cq acks.ss)⟩
  unfold State.drun at gone ⊢
  rw [dring_of (congrArg Sessions.rings acks.ss)]
  exact gone

/-- Nothing waits for a drain's FLUSH but the drain. -/
theorem flush_drained (what : o.what = .drainFlush) : s.Carries (.slaiskFlushResponse t p) p fun u => s.spent p.flow o.psn u ∧ u.ss = s.ss := by
  have after := answered1_answers h t o
  exact flush_answered h t own (by rw [what]; rfl) (by rw [what]; rfl) after.flow after.fns (after.rests rest (State.sameBut_refl _ _) (by rw [after.ss]; exact rest.exports)) fun u acks => ⟨acks.spent after.flow.1 after.spent, acks.ss.trans after.ss⟩

end

end Sys2Proof.Machine
end

section
/-! O42: what a packet does, by its opcode. -/

namespace Sys2Proof.Machine

open Sys2Proof

/-- Settles O42: a flow's next packet acts on the state in which it is counted, and each opcode's effect is followed from there; what is acknowledged after it changes no session, ring or window. -/
theorem packetsDoWhatTheirOpcodeSays : Obligations.PacketsDoWhatTheirOpcodeSays := by
  intro s t p h
  refine ⟨badOp_refused h t, noAnswer_refused h t, ?send, ?write, ?flush, ?responses⟩
  case send =>
    refine ⟨fun out => send_outOfTurn h t out, fun turn bad => send_badTarget h t turn bad, fun turn sound =>
      ⟨fun no1 no2 => send_badType h t turn sound no1 no2, fun ring other => send_otherDomain h t turn sound ring other, fun mine unfit => send_unfit h t turn sound mine unfit,
        fun mine fit more => send_more h t turn sound mine fit more, fun ring own fit home rings cq => ⟨fun good room last => ?_, fun d hds open' => ?_⟩, fun sess fit home tbl cq => ⟨fun good room last => ?_, fun d hds ok => ?_, fun d hds open' => ?_⟩,
        fun fit sess away some' pass peers => ⟨fun room last => ?_, fun d hds full open' cq last => ?_⟩⟩⟩
    · exact send_joinsDom h t turn sound fit last ring own home rings rfl good room
    · refine ⟨fun bad last => ?_, fun form late last => ?_, fun form inTime full last => ?_⟩
      all_goals obtain ⟨malformed, overdue, busy⟩ := send_dom h t turn sound fit last ring own home cq open' hds
      · exact malformed bad
      · exact overdue form late
      · exact busy form inTime full
    · have some' : parseDescs ((s.flow p.flow).bytes p) ≠ [] := by
        obtain ⟨-, -, -, pos, -, whole, -, all⟩ := fit
        refine parseDescs_some ?_
        have len := all.mp last
        unfold Flow.bytes Flow.message
        omega
      refine send_joins h t turn sound fit last sess home tbl some' rfl (fun d hd => ?_) room
      obtain ⟨⟨⟨pass, up, owner, gen⟩, inTime⟩, notNow⟩ := good d hd
      exact ⟨⟨pass, ⟨up, owner, gen⟩, inTime⟩, notNow⟩
    · obtain ⟨⟨pass, up, owner, gen⟩, inTime⟩ := ok
      have joins := fun last => send_immediate h t turn sound fit last sess home tbl hds ⟨pass, ⟨up, owner, gen⟩, inTime⟩
      exact ⟨fun query last => (joins last).1 query, fun close once last => (joins last).2 close once⟩
    · refine ⟨fun e hit last => ?_, fun pass down last => ?_, fun pass up noOpen taken other last => ?_, fun pass up owner old last => ?_, fun ⟨pass, up, owner, gen⟩ late last => ?_,
        fun ⟨⟨pass, up, owner, gen⟩, inTime⟩ close pending last => ?_, fun ⟨⟨pass, up, owner, gen⟩, inTime⟩ no9 noA full last => ?_⟩
      all_goals obtain ⟨checked, unhomed, denied, stale, overdue, closing, busy⟩ := send_ends h t turn sound fit last sess home cq open' hds
      · exact checked e hit
      · exact unhomed pass down
      · exact denied pass up fun q => q.elim noOpen fun q => q.elim taken other
      · exact stale pass up owner old
      · exact overdue pass ⟨up, owner, gen⟩ late
      · exact closing ⟨pass, ⟨up, owner, gen⟩, inTime⟩ close pending
      · exact busy ⟨pass, ⟨up, owner, gen⟩, inTime⟩ no9 noA full
    · exact send_commands h t turn sound fit last sess away some' rfl pass room
    · exact send_full h t turn sound fit last sess away cq open' hds (pass d (by rw [hds]; exact List.mem_cons_self)) full
  case write =>
    intro i hi
    refine ⟨fun bad => write_badTarget h hi bad, fun sound no3 no4 => write_badType h hi sound no3 no4, fun sound win => ⟨fun bad => write_closed h hi sound win bad, fun open' long => write_beyond h hi sound win open' long,
      fun open' fit wins => write_places h hi sound win open' fit wins⟩, fun sound bell => ⟨fun other => bell_otherDomain h hi sound bell other, fun own bad => bell_badForm h hi sound bell own bad, fun own whole eight regs cq =>
      ⟨fun ahead => bell_bad h hi sound bell own whole eight regs ahead, fun inside => bell_takes h hi sound bell own whole eight regs cq inside⟩⟩⟩
  case flush =>
    exact ⟨fun all => flush_all h t all, fun one => ⟨fun bad => flush_badTarget h t one bad, fun sound => ⟨fun bell => flush_bell h t one sound bell, fun no3 no4 => flush_badType h t one sound no3 no4, fun win => flush_window h t one sound win⟩⟩⟩
  case responses =>
    refine ⟨fun rest none => read_unasked h t rest (Option.eq_none_iff_forall_ne_some.mpr none), fun rest o own => ⟨fun unfit => read_unfit h t rest own unfit, fun fit more => read_more h t rest own fit more,
      fun fit last k seq q tail what ring waits num tbl => ?_, fun fit last d id r what run waits rings => ?_⟩, fun rest => ⟨fun none => flushed_unasked h t rest (Option.eq_none_iff_forall_ne_some.mpr none), fun o own =>
      ⟨fun d id r what runs same => ?_, fun what => ?_⟩⟩⟩
    · rw [← answering_psn own]
      exact read_session h t rest own fit last what ring waits num tbl
    · rw [← answering_psn own]
      exact (read_control h t rest own fit last what run waits rings).imp fun u ⟨gone, found⟩ => ⟨gone, _, found, rfl⟩
    · subst same
      exact flush_control h t rest own what runs
    · rw [← answering_psn own]
      exact flush_drained h t rest own what

end Sys2Proof.Machine
end
